-- ==== Sys2Proof/Word.lean ====
section
/-! DEFINITION. The word types of the module: registers are 32 bits wide (R7), engine registers and channel words
64 bits (R78, R114), memory is addressed in bytes (R143). Also the sparse store used for every register window, array of
instances and memory: a list of (key, value) pairs whose unlisted keys read as a default. -/

namespace Sys2Proof

/-- A byte of memory. -/
abbrev Byte := BitVec 8

/-- A register of a block window (R7). -/
abbrev Word := BitVec 32

/-- An engine register or a channel word. -/
abbrev Dword := BitVec 64

/-- A sparse store: (key, value) pairs, keys strictly rising, no value equal to the default of its key. -/
structure SMap (α : Type) where
  cells : List (Nat × α)
  deriving DecidableEq, Repr

/-- The store that lists nothing. -/
def SMap.empty {α : Type} : SMap α := ⟨[]⟩

end Sys2Proof
end

