-- ==== Sys2Proof/Syntax.lean ====
section
/-! DEFINITION. The commands of the module as syntax. An instruction of a Myivire core is a command that names the agent
which executes it and bits [25:0] of its word; the row's opcode is its bits [31:26]. A command of a block's mailbox names
nothing: its arguments are those that stand in the block's argument registers (R154). -/

namespace Sys2Proof

/-- An engine that executes H- or T-profile instructions: host core 0–7, or tile 0–257 (256 and 257 are the safety pair). -/
inductive Agent where
  | host (c : Fin 8)
  | tile (t : Fin 258)
  deriving DecidableEq, Repr

/-- What sends an access: a core, or a Dumbwaiter channel. -/
inductive Initiator where
  | core (a : Agent)
  | dw (n : Fin 64)
  deriving DecidableEq, Repr

/-- The supply conditions that open load channels (Table 13-3). -/
inductive SupplyFault where
  | groundLoss | reverse | over58 | under45
  deriving DecidableEq, Repr

/-- The fault flags of an analog input (Table 14-1). -/
inductive AinFlag where
  | under | over | burden | window | supply
  deriving DecidableEq, Repr

/-- What a sensor supply does (R345). -/
inductive SupplyState where
  | good | limit | backfed
  deriving DecidableEq, Repr

/-- A candidate detection of the object head (R268): its cell number y × 512 + x, confidence, class, length and width in
0.1 m, and its position and heading as binary32 words. -/
structure TblDet where
  cell : Fin 262144
  conf : BitVec 8
  cls : Byte
  len : Byte
  wid : Byte
  x : Word
  y : Word
  hdg : Word
  deriving DecidableEq, Repr

/-- A frame on a CAN bus: ID with IDE in bit 31, FMT as in Table 16-9 (FDF, BRS, ESI, RTR, DLC), and its data bytes. -/
structure CanRx where
  id : Word
  fmt : Word
  data : List Byte
  deriving DecidableEq, Repr

/-- An error that ends a CAN frame: LAST_ERR 1–6 of Table 16-7, and whether it lay in the data phase. -/
structure CanErr where
  kind : Fin 7
  dataPhase : Bool
  deriving DecidableEq, Repr

/-- How a transmission attempt ends. -/
inductive CanEnd where
  | sent | lost
  | error (e : CanErr)
  deriving DecidableEq, Repr

/-- A reference message: sent by the controller itself, or received with an ID and a first data byte. -/
inductive CanRef where
  | own
  | heard (id : Word) (b0 : Byte)
  deriving DecidableEq, Repr

/-- A packet header at a camera receiver (R191): good, with a corrected single-bit error, uncorrectable, or of another
adaptation or with VC extension bits that are not 0. -/
inductive CamHdr where
  | good | corrected | bad | foreign
  deriving DecidableEq, Repr

/-- A packet at a camera receiver: its header, and how often the PHY retransmitted it (R189). -/
structure CamPkt where
  hdr : CamHdr
  retx : Nat
  deriving DecidableEq, Repr

/-- A packet that frames an image, with the device time of its stamp. -/
structure CamStamp where
  pk : CamPkt
  t : Nat
  deriving DecidableEq, Repr

/-- The end of a frame: its stamp, the CRC that a test pattern due at it yields, and whether 0.5 ms of blanking follow. -/
structure CamEnding where
  t : Nat
  tp : Word
  blank : Bool
  deriving DecidableEq, Repr

/-- What the program wrote to a crossing since it was last looked at, in order, and the island periods that passed (R67). -/
structure XcWrites where
  words : List Word
  periods : Nat
  deriving DecidableEq, Repr

/-- The word of an instruction that moves a grid window, and how long, in ns, it is in progress (R250). -/
structure GxWord where
  word : BitVec 26
  ns : Nat
  deriving DecidableEq, Repr

/-- How a hold of a waveform ends: by its timeout, or on its condition with the measured current, in µA (R135, R476). -/
structure HoldProbe where
  timeout : Bool
  ua : Nat
  deriving DecidableEq, Repr

/-- What the pair's successive samples of a check's condition measure, for one source (R460). -/
structure CheckSamples where
  src : BitVec 16
  samples : List (Int × Int)
  deriving DecidableEq, Repr

/-- What CAM_START finds at a camera's aggregator (R196, R434): its identity, the majors it serves and the minor of its highest, and
whether every write of the register sequence and every read-back succeeds. -/
structure CamProbe where
  ident : Word
  lo : Byte
  hi : Byte
  minor : Byte
  wrote : Bool
  deriving DecidableEq, Repr

/-- A tracking channel's measurement at an epoch (Table 9-6): FLAGS [1], [2], [5] and [6], C/N0, and as measured at the
receiver its pseudorange and carrier phase (binary64), Doppler (binary32) and LOCK_MS. -/
structure GnsObs where
  ch : Fin 512
  half : Bool
  slip : Bool
  prOk : Bool
  cpOk : Bool
  cn0 : BitVec 16
  pr : Dword
  cp : Dword
  dop : Word
  lock : Word
  deriving DecidableEq, Repr

/-- A wake input (Table 1-11). -/
inductive WakePin where
  | ign | wake | wakeSvc
  deriving DecidableEq, Repr

/-- How step 5 of the power-loss sequence ends (R43). -/
inductive JournalEnd where
  | listEnd | stopMv | timeUp
  deriving DecidableEq, Repr

/-- What a start-up meets in its surroundings: IGN, WAKE, WAKE_SVC and SVC_EN (bits 0–3), the six voltages of PWR_VOLT in mV,
the off-time in s (none where the always-on domain lost power), the coding pins DRW0–DRW2 (none undecided), the readings of the
housekeeping round, and whether the watchdog window self-test and the cut-off switch test pass. -/
structure BootEnv where
  pins : BitVec 4
  volts : List Nat
  off : Option Nat
  straps : List (Option Nat)
  hkp : List (Option Int)
  wdg : Bool
  cut : Bool
  deriving DecidableEq, Repr, Inhabited

/-- One constructor per row of spec/opcode_table.json: the commands given to the module and the events that its
surroundings or its own timers bring about. Each docstring begins with the row's mnemonic and rule. -/
inductive Instr where
  /-- REGISTER_WRITE (R9): A write to a register that has no row of its own takes effect under its access type. `b`: the block of id b + 1; `o`: the word's offset is 4o. -/
  | registerWrite (b : Fin 22) (o : BitVec 18) (v : Word)
  /-- REGISTER_ACCESS_FAULT (R7): An access of the wrong size or alignment inside a register window returns a bus error and changes nothing. `o`: the offset; `k`: the access is 2^k bytes wide. -/
  | registerAccessFault (b : Fin 22) (o : BitVec 20) (k : Fin 4)
  /-- PROTECT_WRITE (R9): A write of a block's PROTECT register opens it with 0x0000_C35A and closes it with any other value. `b`: the block of id b + 1. -/
  | protectWrite (b : Fin 22) (v : Word)
  /-- UNDEFINED_COMMAND (R154): A command code that the block does not define ends at once with BAD_HEADER. `b`: the block of id b + 1. -/
  | undefinedCommand (b : Fin 22) (code : Byte)
  /-- SUPPLY_QUALIFIED (R32): BAT_M stands at the qualify threshold for 20 ms with a wake source present, which starts a power-on start-up. -/
  | supplyQualified (e : BootEnv)
  /-- RIDE_START (R35): BAT_M falls below 6.0 V for 1 ms with holdup armed, and the logic moves onto the bank. -/
  | rideStart
  /-- RIDE_RETURN (R35): BAT_M regains 6.5 V for 20 ms within RIDE_TIME and the logic returns to BAT_M. dt: ns since the ride-through's last event -/
  | rideReturn (dt : Nat)
  /-- RIDE_TIME_EXPIRED (R35): RIDE_TIME runs out during a ride-through, and power loss is declared. t: channels 25-27 as freshly converted -/
  | rideTimeExpired (dt : Nat) (t : List (Option Int))
  /-- RESERVE_RETURN (R35): BAT_M stands at 6.0 V again within 5 ms of an unarmed dip, and the logic returns to BAT_M. -/
  | reserveReturn
  /-- RESERVE_BRIDGE_EXPIRED (R35): The 5 ms logic-reserve bridge runs out, and power loss is declared with reason 5. -/
  | reserveBridgeExpired (t : List (Option Int))
  /-- COLLAPSE (R31): BAT_M falls below 2.5 V for 1 ms, and power loss is declared at once. -/
  | collapse (t : List (Option Int))
  /-- INPUT_OPEN (R35): BAT_M exceeds 60 V, the input switch opens and the logic moves to the bank or reserve. -/
  | inputOpen
  /-- INPUT_SWITCH_CLOSE (R35): BAT_M falls below 58 V and the open input switch closes again. -/
  | inputSwitchClose
  /-- REVERSE_BAT_M (R35): A reversed BAT_M is blocked, seen as a collapse, and REVERSE is recorded. -/
  | reverseBatM (t : List (Option Int))
  /-- GND_M_OPEN (R35): The offset between GND_M and GND_P exceeds 0.3 V for 100 ms and GND_M_OPEN is set. the offset -/
  | gndMOpen (mv : Nat)
  /-- OVERV (R31): BAT_M exceeds the overvoltage warning threshold for 1 s and OVERV is raised. BAT_M -/
  | overv (mv : Nat)
  /-- FEED_LOW (R33): A load or valve feed lies below 6.0 V for 10 ms and its FEED_LOW bit is set. 0 LF1, 1 LF2, 2 V -/
  | feedLow (f : Fin 3) (mv : Nat)
  /-- FEED_LOW_CLEAR (R33): A low feed returns to 6.5 V and its FEED_LOW bit clears. -/
  | feedLowClear (f : Fin 3) (mv : Nat)
  /-- JOURNAL_END (R43): Step 5 ends at the end of the delta list, at STOP_MV or 1.40 s after the declaration, and step 6 writes the snapshots. n: the entries written -/
  | journalEnd (dt : Nat) (why : JournalEnd) (n : Nat)
  /-- SEQUENCER_END (R46): Step 7 turns every channel off, bleeds the bank, writes the loss summary and switches the logic off. -/
  | sequencerEnd (dt : Nat)
  /-- BANK_MEASUREMENT (R37): A charge passing up through 12.0 V completes the bank's capacitance and ESR measurement. mF, 0.1 milliohm, the bank's mV and 0.1 degree C -/
  | bankMeasurement (c : BitVec 16) (esr : BitVec 16) (mv : Nat) (temp : Option Int)
  /-- ARMED_CHG (R38): HOLDUP_ARMED changes as the bank reaches or leaves its arming conditions. -/
  | armedChg (mv : Nat) (temp : Option Int)
  /-- BANK_TEST (R473): PWR command 0x01 disarms the bank and discharges it from 16.0 V to 12.0 V to measure it. -/
  | bankTest
  /-- BANK_TEST_COMPLETE (R473): The bank recharged to 16.0 V ends BANK_TEST with OK after R38 is evaluated again. -/
  | bankTestComplete (mv : Nat) (temp : Option Int)
  /-- BANK_BLEED (R473): PWR command 0x02 disarms the bank and bleeds it below 6.0 V. -/
  | bankBleed
  /-- BANK_CHARGE (R53): PWR command 0x03 resumes charging after BANK_BLEED. -/
  | bankCharge
  /-- PWR_CLEAR_STATS (R53): PWR command 0x04 clears PWR_RIDE and PWR_TORN. -/
  | pwrClearStats
  /-- VCORE_TARGET_WRITE (R57): A write of PACE_VCORE_TARGET sets the core voltage target and returns the guard floor to 0. -/
  | vcoreTargetWrite (v : Word)
  /-- VCORE_DONE (R58): The core voltage reaches its effective setpoint within 5 mV and VCORE_DONE is raised. -/
  | vcoreDone
  /-- PM_AVERAGE (R61): Each pace monitor publishes its 1 µs averaged cycle time and updates its minimum and maximum. the averages of the 32 monitors in ps -/
  | pmAverage (cycles : List Nat)
  /-- GUARD_INTERVAL_STEP (R59): Each GUARD_INTERVAL of an excursion raises the guard floor by a further 5 mV. -/
  | guardIntervalStep
  /-- RATIO_HIGH (R63): A monitor ratio above 307 for 1 ms raises RATIO_HIGH. -/
  | ratioHigh
  /-- PM_CLEAR (R61): PACE command 0x01 sets the minimum and maximum of the masked monitors to their present average. -/
  | pmClear
  /-- XC_CLEAR (R71): PACE command 0x02 clears the counters of a crossing range and resets PACE_XC_FIRST. -/
  | xcClear
  /-- ISL_RESTART (R77): PACE command 0x03 takes an island through STOPPED back to RUN. -/
  | islRestart
  /-- GUARD_RESET (R60): PACE command 0x04 sets the guard floor to 0. -/
  | guardReset
  /-- ISL_STOP_WRITE (R73): Writing STOP takes a program-stoppable island to STOPPING. the word written, with STOP taken as 1 -/
  | islStopWrite (k : Fin 29) (v : Word)
  /-- ISL_STOPPED (R73): A stopping island completes its transfer, discards unread input and reaches STOPPED. -/
  | islStopped (k : Fin 29)
  /-- ISL_WAKE_REQUEST (R74): A program WAKE starts a stopped island's oscillator. -/
  | islWakeRequest (k : Fin 29)
  /-- EXTERNAL_WAKE (R74): An island's external wake source starts it when WAKE_EN is 1; the waking pattern is not received. -/
  | externalWake (k : Fin 29)
  /-- ISL_WAKE (R74): A starting island locks and reaches RUN, reporting the cause in LAST_WAKE. -/
  | islWake (k : Fin 29)
  /-- ISL_LOCK_TIMEOUT (R76): An island not locked within 4 times its start time returns to STOPPED and ISL_FAIL is raised. -/
  | islLockTimeout (k : Fin 29)
  /-- ISL_LOCK_LOSS (R76): A running island's frequency out of tolerance for 10 µs clears LOCKED, holds its outputs and raises ISL_FAIL. -/
  | islLockLoss (k : Fin 29)
  /-- XC_TOGGLE (R66): A control event crosses as a toggle, or sets the pending flag and merge count while one is unacknowledged. -/
  | xcToggle (m : Fin 232)
  /-- XC_TOGGLE_ACK (R66): The receiver's return toggle acknowledges, and a pending flag sends one further toggle. -/
  | xcToggleAck (m : Fin 232)
  /-- XC_VALUE_ACCEPT (R67): An island accepts a published value when two consecutive samples agree. ws: what the program wrote to the crossing since, and the island periods that passed; ab: two consecutive samples -/
  | xcValueAccept (m : Fin 232) (ws : XcWrites) (ab : Word × Word)
  /-- XC_FABRIC_READ (R68): The fabric reads an announced island value through a mutual-exclusion element, never torn. vs: the values the island wrote since the last read, in order -/
  | xcFabricRead (m : Fin 232) (vs : List Word)
  /-- OP (R84): An OP instruction performs the integer operation that func selects. w: the whole word, with its major opcode -/
  | opReg (a : Agent) (w : Word)
  /-- MULDIV (R85): A MULDIV instruction multiplies or divides, never trapping on division. -/
  | muldiv (a : Agent) (w : BitVec 26)
  /-- ADDI (R86): addi adds a sign-extended immediate. -/
  | addi (a : Agent) (w : BitVec 26)
  /-- ANDI (R86): andi ANDs a zero-extended immediate. -/
  | andi (a : Agent) (w : BitVec 26)
  /-- ORI (R86): ori ORs a zero-extended immediate. -/
  | ori (a : Agent) (w : BitVec 26)
  /-- XORI (R86): xori XORs a zero-extended immediate. -/
  | xori (a : Agent) (w : BitVec 26)
  /-- SETLTI (R86): setlti compares signed against a sign-extended immediate. -/
  | setlti (a : Agent) (w : BitVec 26)
  /-- SETLTUI (R86): setltui compares unsigned against a sign-extended immediate. -/
  | setltui (a : Agent) (w : BitVec 26)
  /-- SHIFTI (R86): SHIFTI shifts by an immediate amount of the kind the immediate selects. -/
  | shifti (a : Agent) (w : BitVec 26)
  /-- ADDHI (R86): addhi adds a sign-extended immediate shifted left by 16. -/
  | addhi (a : Agent) (w : BitVec 26)
  /-- ADDXI (R86): addxi adds a sign-extended immediate shifted left by 32. -/
  | addxi (a : Agent) (w : BitVec 26)
  /-- ADDPC (R86): addpc adds a shifted immediate to the program counter. -/
  | addpc (a : Agent) (w : BitVec 26)
  /-- BEQ (R87): beq branches when the operands are equal. -/
  | beq (a : Agent) (w : BitVec 26)
  /-- BNE (R87): bne branches when the operands differ. -/
  | bne (a : Agent) (w : BitVec 26)
  /-- BLT (R87): blt branches on signed less than. -/
  | blt (a : Agent) (w : BitVec 26)
  /-- BGE (R87): bge branches on signed greater or equal. -/
  | bge (a : Agent) (w : BitVec 26)
  /-- BLTU (R87): bltu branches on unsigned less than. -/
  | bltu (a : Agent) (w : BitVec 26)
  /-- BGEU (R87): bgeu branches on unsigned greater or equal. -/
  | bgeu (a : Agent) (w : BitVec 26)
  /-- JMP (R87): jmp transfers control by a word offset. -/
  | jmp (a : Agent) (w : BitVec 26)
  /-- CALL (R87): call writes the link register and transfers control. -/
  | call (a : Agent) (w : BitVec 26)
  /-- JREG (R87): jreg jumps to a register plus offset and writes the return address. -/
  | jreg (a : Agent) (w : BitVec 26)
  /-- LDB (R88): ldb loads a sign-extended byte. -/
  | ldb (a : Agent) (w : BitVec 26)
  /-- LDH (R88): ldh loads a sign-extended halfword. -/
  | ldh (a : Agent) (w : BitVec 26)
  /-- LDW (R88): ldw loads a sign-extended word. -/
  | ldw (a : Agent) (w : BitVec 26)
  /-- LDD (R88): ldd loads a doubleword. -/
  | ldd (a : Agent) (w : BitVec 26)
  /-- LDBU (R88): ldbu loads a zero-extended byte. -/
  | ldbu (a : Agent) (w : BitVec 26)
  /-- LDHU (R88): ldhu loads a zero-extended halfword. -/
  | ldhu (a : Agent) (w : BitVec 26)
  /-- LDWU (R88): ldwu loads a zero-extended word. -/
  | ldwu (a : Agent) (w : BitVec 26)
  /-- STB (R88): stb stores a byte. -/
  | stb (a : Agent) (w : BitVec 26)
  /-- STH (R88): sth stores a halfword. -/
  | sth (a : Agent) (w : BitVec 26)
  /-- STW (R88): stw stores a word. -/
  | stw (a : Agent) (w : BitVec 26)
  /-- STD (R88): std stores a doubleword. -/
  | std (a : Agent) (w : BitVec 26)
  /-- FLDS (R88): flds loads a binary32 value. -/
  | flds (a : Agent) (w : BitVec 26)
  /-- FLDD (R88): fldd loads a binary64 value. -/
  | fldd (a : Agent) (w : BitVec 26)
  /-- FSTS (R88): fsts stores a binary32 value. -/
  | fsts (a : Agent) (w : BitVec 26)
  /-- FSTD (R88): fstd stores a binary64 value. -/
  | fstd (a : Agent) (w : BitVec 26)
  /-- STORE_VISIBLE (R113): A store drains and becomes visible to every agent within 5 µs. `k`: which of the agent's waiting stores, oldest first. -/
  | storeVisible (a : Agent) (k : Nat)
  /-- ATOM (R90): An atomic performs one indivisible read-modify-write of the operation func selects. -/
  | atom (a : Agent) (w : BitVec 26)
  /-- FENCE (R111): A fence orders the relations named in REL and makes code visible with CODE. -/
  | fence (a : Agent) (w : BitVec 26)
  /-- FENCE_ARRIVE_DONE (R111): A fence with ARRIVE ends once every preceding store has been acknowledged. -/
  | fenceArriveDone (a : Initiator)
  /-- SYSCALL (R100): syscall raises the SYSCALL cause of the current level. -/
  | syscall (a : Agent) (w : BitVec 26)
  /-- BREAK (R100): break raises the BREAK cause. -/
  | brk (a : Agent) (w : BitVec 26)
  /-- RTN (R100): rtn returns from a trap to the level and pc saved. -/
  | rtn (a : Agent) (w : BitVec 26)
  /-- TRET (R103): tret returns a tile from its trap. -/
  | tret (a : Agent) (w : BitVec 26)
  /-- PGSYNC (R106): pgsync makes page-table stores take effect for translation in its scope. -/
  | pgsync (a : Agent) (w : BitVec 26)
  /-- WAITEV (R102): waitev stops the host core's handshakes until an enabled event is pending. -/
  | waitev (a : Agent) (w : BitVec 26)
  /-- WAITEV_RESUME (R102): An enabled pending event resumes a core stopped in waitev. -/
  | waitevResume (c : Fin 8)
  /-- SYSREG (R98): SYSREG reads, swaps or inserts into a system register. -/
  | sysreg (a : Agent) (w : BitVec 26)
  /-- EVENT_TAKEN (R101): A host core takes a pending enabled event before the next instruction issues. -/
  | eventTaken (c : Fin 8)
  /-- TCMP_EXPIRY (R101): NOW reaching S_TCMP or M_TCMP makes the timer event pending. `m`: M_TCMP, else S_TCMP. -/
  | tcmpExpiry (c : Fin 8) (m : Bool)
  /-- FOP (R92): An FOP instruction performs the floating-point operation func selects. -/
  | fop (a : Agent) (w : BitVec 26)
  /-- FMADD (R92): fmadd computes rs1 × rs2 + rs3 with one rounding. -/
  | fmadd (a : Agent) (w : BitVec 26)
  /-- FMSUB (R92): fmsub computes rs1 × rs2 − rs3 with one rounding. -/
  | fmsub (a : Agent) (w : BitVec 26)
  /-- FNMADD (R92): fnmadd computes −(rs1 × rs2) − rs3 with one rounding. -/
  | fnmadd (a : Agent) (w : BitVec 26)
  /-- FNMSUB (R92): fnmsub computes −(rs1 × rs2) + rs3 with one rounding. -/
  | fnmsub (a : Agent) (w : BitVec 26)
  /-- SEND (R116): send writes a word to a channel's send end, blocking while the receive FIFO is full unless TRY. -/
  | send (a : Agent) (w : BitVec 26)
  /-- SEND_UNBLOCK (R116): A blocked send completes when the receive end has stored the word. -/
  | sendUnblock (t : Fin 258)
  /-- RECV (R117): recv takes the oldest word of a receive end, blocking while it is empty. -/
  | recv (a : Agent) (w : BitVec 26)
  /-- RECV_UNBLOCK (R117): A blocked recv completes when a word arrives. -/
  | recvUnblock (t : Fin 258)
  /-- PICK (R118): pick chooses among eight channel guards, with an optional time guard. -/
  | pick (a : Agent) (w : BitVec 26)
  /-- PICK_UNBLOCK (R118): A blocked pick returns when an enabled guard or its deadline becomes true. -/
  | pickUnblock (t : Fin 258)
  /-- WAITT (R119): waitt blocks until device time reaches a deadline. -/
  | waitt (a : Agent) (w : BitVec 26)
  /-- WAITT_EXPIRE (R119): The deadline of a waitt is reached and NOW is written to rd. -/
  | waittExpire (a : Agent)
  /-- CHSTAT (R120): chstat returns a channel's state without blocking. -/
  | chstat (a : Agent) (w : BitVec 26)
  /-- PIGEONHOLE_WORD_DELIVERY (R122): A pigeonhole word is delivered to a tile's receive end once the previous word has been received. -/
  | pigeonholeWordDelivery (p : Fin 256)
  /-- RING_REREAD (R123): A tile blocked on a memory ring re-reads the far counter at least every 1 µs. -/
  | ringReread (t : Fin 258)
  /-- ENGINE_PORT_WORD (R126): A word sent to an engine port takes effect within 2 µs as the register write it names. -/
  | enginePortWord (port : Fin 256)
  /-- GXRD (R127): gxrd copies a grid window to the issuer's memory. -/
  | gxrd (a : Agent) (w : GxWord)
  /-- GXWR (R250): gxwr writes program channels of the buffer being built within the build window. -/
  | gxwr (a : Agent) (w : GxWord)
  /-- GXRUN (R127): gxrun queues a tensor job and returns a ticket, blocking while 32 jobs are queued. -/
  | gxrun (a : Agent) (w : BitVec 26)
  /-- GXRUN_UNBLOCK (R127): A blocked gxrun queues its job once the module has room. -/
  | gxrunUnblock (a : Agent)
  /-- GXWAIT (R127): gxwait blocks until a job ends, or polls it with desc 1. -/
  | gxwait (a : Agent) (w : BitVec 26)
  /-- TENSOR_JOB_END (R248): A program tensor job ends with its status. `j`: which of the queued jobs, oldest first; `data`: what it writes at its output base. -/
  | tensorJobEnd (j : Nat) (data : List Byte)
  /-- LOOP_SAMPLE (R279): At a sample instant the engine latches sources and runs the instance's law under its action. `t`: the sample instant (device time, ns); `busy`: the previous sample has not completed. -/
  | loopSample (n : Fin 128) (t : Nat) (busy : Bool)
  /-- LPE_PIN_WRITE (R286): A write to LPE_PIN records the program input and its device time. -/
  | lpePinWrite (p : Fin 128) (v : Word)
  /-- STAGED_WRITE (R299): A write to CFG, PERIOD, PHASE, SINK or a group register is staged and sets PENDING. `o`: offset of a staged register in the LPE window. -/
  | stagedWrite (o : Nat) (v : Word)
  /-- LOOP_APPLY (R299): LPE command 0x01 puts staged values into effect together or refuses them all. -/
  | loopApply
  /-- LPE_SWAP (R301): LPE command 0x02 checks and locks an instance's inactive bank for a swap. -/
  | lpeSwap
  /-- LPE_SWAP_CANCEL (R141): LPE command 0x03 cancels a pending swap. -/
  | lpeSwapCancel
  /-- CLEAR_FAULT (R291): LPE command 0x04 returns a FAULTED instance to its mode's action from its preloads. -/
  | lpeClearFault
  /-- PRELOAD (R292): LPE command 0x05 starts the instance from its preloads at its next RUN or RETARGET sample. -/
  | lpePreload
  /-- LPE_CLEAR_COUNTS (R282): LPE command 0x06 clears FLAGS, COUNTS, WINCHG or WR_ACTIVE. -/
  | lpeClearCounts
  /-- VLV_GO (R306): A GO write starts a channel's waveform at the given index. -/
  | vlvGo (n : Fin 32) (k : Nat)
  /-- VLV_STOP (R306): A GO write with STOP ends the running waveform as end does. -/
  | vlvStop (n : Fin 32)
  /-- CMD_IN_WRITE (R309): A write of CMD_IN sets the command input, followed by a seti from source 1 within 20 µs. -/
  | cmdInWrite (n : Fin 32) (v : Word)
  /-- HOLD_END (R135): A hold ends on its condition or its timeout, and the waveform continues. e: by its timeout, g1 × 10 µs, or on its condition -/
  | holdEnd (n : Fin 32) (e : HoldProbe)
  /-- DEFERRAL_APPLY (R314): The head of a group queue is applied when a load falls or at the 100 µs check. the 100 µs check. -/
  | deferralApply (g : Fin 8)
  /-- DEFER_MAX_EXPIRED (R315): A queued request older than DEFER_MAX is refused, sets DEFERRED and raises REFUSED. -/
  | deferMaxExpired (n : Fin 32)
  /-- PEAK_MAX_EXPIRED (R304): A switching channel's target above 3 A for PEAK_MAX is clamped and PEAK_CLAMP set. -/
  | peakMaxExpired (n : Fin 32)
  /-- DECAY_END (R313): A decay ends when the current falls below 20 mA, marking the channel idle and reclosing HSFg. `below`: the current fell below 20 mA, else 5 ms of an ISOLATE decay ran out. -/
  | decayEnd (n : Fin 32) (below : Bool)
  /-- DUTY (R317): Consumption reaching DUTY_LIMIT sets DUTY_LIMITED and steps the target down to FALLBACK. `add`: consumption entered in the present bin, in DUTY_LIMIT units. -/
  | vlvDuty (n : Fin 32) (add : Nat)
  /-- DUTY_RESUME (R317): Consumption falling to RESUME % ends the duty limit and reapplies requested targets. `bins`: bins that left the window. -/
  | dutyResume (n : Fin 32) (bins : Nat)
  /-- OPEN (R319): Full duty with current below 25 % of target for 20 ms sets OPEN. `full`: the regulator drives full duty; current in mA. -/
  | openLoad (n : Fin 32) (full : Bool) (current : Nat)
  /-- SHORT_SUP (R319): Low-side over-current switches the channel off within 5 µs and latches SHORT_SUP. low-side current in mA. -/
  | shortSup (n : Fin 32) (current : Nat)
  /-- GROUP_TRIP (R319): A short to ground opens HSFg, ends the group's four waveforms and latches GROUP_TRIP. `c`: the channel of the group whose Vnn lies below 1.0 V (none: HSF current in excess). -/
  | groupTrip (g : Fin 8) (c : Option (Fin 4))
  /-- OFF_STATE_TEST (R320): Every DIAG_PERIOD an eligible channel runs the off-state test steps. voltages in mV: Vnn in steps 1 to 3, HSFg, BAT_V. -/
  | offStateTest (n : Fin 32) (v1 : Nat) (v2 : Nat) (v3 : Nat) (hsf : Nat) (batv : Nat)
  /-- COIL_TEMP_ESTIMATE (R322): Every 100 ms the coil temperature estimate is refreshed. mV, 0.01 % and mA of a steady current. -/
  | coilTempEstimate (n : Fin 32) (hsf : Nat) (duty : Nat) (current : Nat)
  /-- ID_READ_DONE (R323): A coil identity read completes, sets ID_STATE and binds the ledger entry. `frames`: what each attempt received. -/
  | idReadDone (n : Fin 32) (frames : List (Option (BitVec 144)))
  /-- LEDGER_WRITE (R326): Every 60 s of operating time changed ledger entries are sealed to MRAM. `onMs`: ms at 20 mA or more since the last write, by channel. -/
  | ledgerWrite (onMs : List Nat)
  /-- VLV_HOLD_EXPIRED (R327): A valve channel's reset-hold runs out, raising HOLD_EXPIRED and taking the fail state. -/
  | vlvHoldExpired (n : Fin 32)
  /-- VLV_CLAIM (R327): VLV command 0x01 claims channels without changing their output. -/
  | vlvClaim
  /-- VLV_SWAP (R141): VLV command 0x02 checks and locks a channel's inactive bank for a swap. -/
  | vlvSwap
  /-- VLV_SWAP_CANCEL (R141): VLV command 0x03 cancels a pending swap. -/
  | vlvSwapCancel
  /-- VLV_CLEAR_FAULT (R319): VLV command 0x04 clears SHORT_SUP latches. -/
  | vlvClearFault
  /-- FEED_RESET (R319): VLV command 0x05 closes a tripped HSFg and clears GROUP_TRIP latches. -/
  | feedReset
  /-- ID_READ (R323): VLV command 0x06 starts a coil identity read on an idle channel. -/
  | idRead
  /-- LEDGER_READ (R324): VLV command 0x07 copies a ledger entry to the window. -/
  | ledgerRead
  /-- LEDGER_DELETE (R324): VLV command 0x08 removes a ledger entry in SERVICE. -/
  | ledgerDelete
  /-- VLV_CLEAR_COUNTS (R315): VLV command 0x09 sets the masked channels' COUNTS to 0. -/
  | vlvClearCounts
  /-- SWITCH_ON (R339): A SWITCH write of 1 commands a load channel ON under the refusal order. -/
  | switchOn (n : Fin 40)
  /-- SWITCH_OFF (R339): A SWITCH write of 2 commands a load channel OFF. `energy`: the clamp energy of the turn-off in mJ (R335). -/
  | switchOff (n : Fin 40) (energy : Nat)
  /-- SLEW_END (R329): The output reaches within 0.5 V of the feed and the turn-on slew phase ends. -/
  | slewEnd (n : Fin 40)
  /-- BLANKING_END (R329): BLANK ms after turn-on, OC_TH takes over from INRUSH_TH. -/
  | blankingEnd (n : Fin 40)
  /-- OC_LATCH (R330): Current above OC_TH or INRUSH_TH latches the channel off within 8 µs. `current` in 0.1 A. -/
  | ocLatch (n : Fin 40) (current : Nat) (energy : Nat)
  /-- TEMP_LATCH (R330): A switch junction above 175 °C latches the channel off. `temp`: the switch junction in 0.1 °C. -/
  | tempLatch (n : Fin 40) (temp : Int) (energy : Nat)
  /-- COOL_TIME_EXPIRED (R336): A LOCKed channel's cooling time runs out, so UNLOCK may release it. -/
  | coolTimeExpired (n : Fin 40)
  /-- PAUSE (R332): A feed above 200 A for 100 µs pauses every slewing channel of that feed. -/
  | lswPause (f : Fin 2)
  /-- PAUSE_RESUME (R332): A feed below 160 A for 10 µs lets paused channels resume their slew. -/
  | pauseResume (f : Fin 2)
  /-- PAUSE_TO (R332): A channel paused for 50 ms in one turn-on is turned off. -/
  | pauseTo (n : Fin 40) (energy : Nat)
  /-- FEED_OVER (R334): A feed's 1 s average above LIMIT sets the sticky OVER flag. `avg`: the 1 s average in 0.1 A. -/
  | feedOver (f : Fin 2) (avg : Nat)
  /-- FEED_OFF (R338): A supply condition opens channels and sets FEED_OFF. `energies`: clamp energy in mJ of each channel opened, by channel number. -/
  | feedOff (f : Fin 2) (c : SupplyFault) (energies : List Nat)
  /-- FEED_OFF_END (R338): A supply condition ends and the channels return to their commanded state. -/
  | feedOffEnd (f : Fin 2) (c : SupplyFault)
  /-- OPEN_ON (R341): An ON channel below OPEN_TH for 100 ms sets OPEN_ON. `current` in mA. -/
  | openOn (n : Fin 40) (current : Nat)
  /-- OFF_STATE_CHECK (R341): Every 1 s an OFF channel is checked for SHORT_BAT or OPEN_OFF. output and feed in mV. -/
  | offStateCheck (n : Fin 40) (out : Int) (feed : Int)
  /-- PWM_EDGE (R340): A PWM channel switches on or off at its frequency and duty. -/
  | pwmEdge (n : Fin 40) (on : Bool) (energy : Nat)
  /-- LSW_HOLD_EXPIRED (R342): A load channel's reset-hold runs out, raising HOLD_EXPIRED and taking the fail state. -/
  | lswHoldExpired (n : Fin 40) (energy : Nat)
  /-- LSW_CLAIM (R342): LSW command 0x01 claims channels without changing their output. -/
  | lswClaim
  /-- UNLATCH (R331): LSW command 0x02 clears over-current and temperature latches. -/
  | lswUnlatch
  /-- UNLOCK (R336): LSW command 0x03 releases LOCKs whose cooling time has run out. -/
  | lswUnlock
  /-- LSW_CLEAR_COUNTS (R334): LSW command 0x04 clears channel counts and optionally the feed values. -/
  | lswClearCounts
  /-- MODE_REQ (R166): SYS command 0x01 requests a mode transition under the transition table. -/
  | modeReq (svcEn : Bool)
  /-- MODE_CHG (R167): A transition completes, applying entry actions and raising MODE_CHG. whether the cut-off switch test of a DORMANT entry passes -/
  | modeChg (cut : Bool)
  /-- IGN_FALL (R168): IGN falling in HARVEST, HEADLAND or UNLOAD enters ROAD at once. -/
  | ignFall
  /-- SVC_EN_FALL (R166): SVC_EN falling in SERVICE enters ROAD automatically. -/
  | svcEnFall
  /-- STANDSTILL (R166): The standstill source below its threshold for 2 s makes standstill true. below the threshold for 2 s, or no longer -/
  | standstill (v : Bool)
  /-- KEYOFF_TIME_EXPIRED (R168): All wake inputs low for KEYOFF_TIME in ROAD or LIMP enters DORMANT. -/
  | keyoffTimeExpired
  /-- DORMANT_ENTRY_WAKE (R169): A wake input rising during DORMANT entry returns to ROAD or is taken as a wake. `k`: store steps done -/
  | dormantEntryWake (p : WakePin) (late : Bool) (k : Fin 5) (e : BootEnv)
  /-- WAKE_INPUT_RISE (R184): A rising IGN, WAKE or WAKE_SVC in DORMANT starts a wake start-up. -/
  | wakeInputRise (p : WakePin) (e : BootEnv)
  /-- WAKE_TIMER_EXPIRED (R184): The always-on wake timer fires WAKE_TIMER minutes after DORMANT entry. -/
  | wakeTimerExpired (e : BootEnv)
  /-- CAN_BUS_WAKE (R401): A CAN wake-up pattern in DORMANT wakes the module when WAKE_EN is 1. -/
  | canBusWake (n : Fin 8) (e : BootEnv)
  /-- ETH_LINK_WAKE (R407): A TC10 wake-up on a T1 PHY in DORMANT wakes the module when WAKE_EN is 1. -/
  | ethLinkWake (p : Fin 5) (e : BootEnv)
  /-- STARTUP_WATCHDOG (R182): Step 10 not reached within 3 s of host core 0 release causes a WATCHDOG core reset. -/
  | startupWatchdog (e : BootEnv)
  /-- DRAWER_SET (R177): SYS command 0x02 writes the command-selected drawer to MRAM. -/
  | drawerSet
  /-- TILE_RELEASE (R115): SYS command 0x03 starts tiles at local offset 0, or none under NO_SPACE. -/
  | tileRelease
  /-- TILE_HALT (R125): SYS command 0x04 halts tiles with HALT_CAUSE 0x3F. -/
  | tileHalt
  /-- TILE_RESET (R125): SYS command 0x05 resets tiles to not released, discarding their receive FIFOs. -/
  | tileReset
  /-- HOST_RELEASE (R81): SYS command 0x06 starts waiting host cores at M level at the entry. -/
  | hostRelease
  /-- CORE_RESET (R178): SYS command 0x07 resets the whole die while power stages hold. -/
  | coreReset (e : BootEnv)
  /-- STQ_HEAD_WRITE (R151): A write of SYS_STQ_HEAD offers storage requests to the queue. -/
  | stqHeadWrite (v : Word)
  /-- STQ_REQUEST_DONE (R151): A storage request completes, writing result and time, advancing TAIL and raising STQ_DONE or STQ_ERR. the device reports an uncorrectable error on the read -/
  | stqRequestDone (bad : Bool)
  /-- SCRUB_READ (R147): The scrubber reads and checks a DRAM line, correcting or poisoning it. `line`: the 64-byte DRAM line; `errs`: bit errors the read finds beyond those known. -/
  | scrubRead (line : Nat) (errs : Nat)
  /-- PGH_RAISE (R162): A write of PGH_RAISE raises pigeonholes as their sources would. -/
  | pghRaise (k : Fin 8) (v : Word)
  /-- PGH_CLEAR (R157): A write of PGH_CLEAR clears the counts of one pigeonhole or all. -/
  | pghClear (v : Word)
  /-- PGH_CLAIM (R159): A read of CLAIM_S or CLAIM_M takes the highest-priority pending pigeonhole of that core. `m`: the M-level claim register, else the S-level one. -/
  | pghClaim (c : Fin 8) (m : Bool)
  /-- PGH_SWI (R101): A write of PGH_CORE_SWI sets a core's software event bits. -/
  | pghSwi (c : Fin 8) (v : Word)
  /-- PGH_ROUTE_WRITE (R161): A route change takes effect for the next delivery and moves any pending bit. -/
  | pghRouteWrite (p : Fin 256) (v : Word)
  /-- LINK_TRAINED (R190): A camera link trains to the highest common gear and raises LINK. bit g − 1 of gears: the camera side supports gear g; none in reach fails the training -/
  | linkTrained (j : Fin 2) (gears : BitVec 5)
  /-- LINK_LOST (R190): A link without lock for 1 ms is down, ends its frames and retrains. -/
  | linkLost (j : Fin 2) (e : CamEnding)
  /-- TRAINING_RETRY (R190): Failed link training is retried every 1 s. -/
  | trainingRetry (j : Fin 2) (gears : BitVec 5)
  /-- FRAME_START_PACKET (R195): A frame start is stamped, advances the frame number and applies pending parameters. -/
  | frameStartPacket (n : Fin 8) (p : CamStamp)
  /-- LONG_PACKET (R191): A long packet delivers a pixel line or embedded data, with header and CRC checks. -/
  | longPacket (n : Fin 8) (typ : BitVec 6) (pk : CamPkt) (crcBad : Bool) (data : List Byte)
  /-- FRAME_END_PACKET (R202): A frame end is stamped and the frame enters the memory-path queue or completes in-line. tp: the test pattern's CRC where a test is due, blank: 0.5 ms of blanking follow -/
  | frameEndPacket (n : Fin 8) (p : CamStamp) (tp : Word) (blank : Bool)
  /-- NO_FE_TIMEOUT (R206): No frame end within 2 nominal periods ends the frame marked NO_FE. -/
  | noFeTimeout (n : Fin 8) (e : CamEnding)
  /-- FRAME_TRIGGER (R194): At each trigger instant the module sends a frame trigger to the camera. -/
  | frameTrigger (n : Fin 8)
  /-- FRAME_PROCESSED (R202): The memory path finishes a frame and delivers its outputs. -/
  | frameProcessed (t : Nat) (tp : Word)
  /-- CAM_START (R196): CAM command 0x01 configures and starts the named cameras together or not at all. what is found at cameras 0–7 -/
  | camStart (found : List CamProbe)
  /-- CAM_STOP (R211): CAM command 0x02 stops cameras at their next frame end. -/
  | camStop
  /-- PARAM_LOAD (R199): CAM command 0x03 loads a checked parameter block for the next frame start. -/
  | paramLoad
  /-- CAM_CLEAR_COUNTS (R205): CAM command 0x04 clears the named camera, link and test counters. -/
  | camClearCounts
  /-- ACQ_HEAD_WRITE (R216): A write of GNS_ACQ_HEAD queues acquisition jobs. -/
  | acqHeadWrite (v : Word)
  /-- ACQ_DONE (R216): An acquisition job completes with its peak and FOUND result. the peak found -/
  | acqDone (code : BitVec 16) (dop : BitVec 16) (ratio : BitVec 16)
  /-- CH_START (R217): GNS command 0x01 starts tracking channels from their table entries. -/
  | chStart
  /-- CH_STOP (R217): GNS command 0x02 returns channels to IDLE. -/
  | chStop
  /-- COLD_START (R227): GNS command 0x03 clears the ephemeris image and restarts the firmware cold. -/
  | coldStart
  /-- GNS_CLEAR_COUNTS (R218): GNS command 0x04 clears the CRC failures, antenna counts and GNS_CH_LOSS. -/
  | gnsClearCounts
  /-- CH_LOST (R218): A channel losing lock, timing out in pull-in or losing its island or antenna is declared LOST. REASON less 1 -/
  | chLost (c : Fin 512) (why : Fin 4)
  /-- MEAS (R220): At each epoch all tracking channels are latched and an epoch block is written. -/
  | gnsMeas (obs : List GnsObs)
  /-- NAVBIT (R221): A decoded navigation data unit is written to its ring with its check result. long: the longer of two subframes;
  t: device time of its first bit's leading edge at the antenna; before, raw: the symbols received before it, on which its decoding
and its check may depend, and its own -/
  | navbit (c : Fin 512) (long : Bool) (t : Nat) (before : List Byte) (raw : List Byte)
  /-- ANT (R214): An antenna's bias state changes between OFF, OPEN, OK and OVER. -/
  | gnsAnt (a : Fin 2) (ma : Nat)
  /-- ANT_BIAS_RETRY (R214): An OVER antenna bias is retried every 1 s. -/
  | antBiasRetry (a : Fin 2) (ma : Nat)
  /-- IMU_RECORD (R226): The IMU writes a time-stamped record at its output rate. angular rate and acceleration -/
  | imuRecord (t : Nat) (rec : List Word)
  /-- TIM_CORR_GO (R231): A write of TIM_CORR_GO latches a correction and accepts or rejects it. -/
  | timCorrGo (v : Word)
  /-- HOLD_AFTER_EXPIRED (R236): HOLD_AFTER without an accepted correction enters HOLDOVER. -/
  | holdAfterExpired
  /-- PPS (R238): PPS_OUT rises at each device-time whole second in the pulsing states. -/
  | pps
  /-- TIME_STEP (R234): The last adjusted PPS period ends, TIM_LAST_STEP takes Δ and the state returns to LOCKED. -/
  | timeStep
  /-- TMARK (R239): A rising edge at TMARK_IN is stamped and placed in the FIFO, or dropped when full. -/
  | tmark (t : Nat)
  /-- TMARK_LO_READ (R239): A read of TIM_TMARK_LO latches the oldest stamp. -/
  | tmarkLoRead
  /-- TMARK_HI_READ (R239): A read of TIM_TMARK_HI removes the latched stamp. -/
  | tmarkHiRead
  /-- TIM_NOW_LO_READ (R99): A read of TIM_NOW_LO latches device time bits [63:32]. -/
  | timNowLoRead
  /-- CLEAR_TMARK (R239): TIM command 0x01 empties the time-mark FIFO and clears its drop count. -/
  | clearTmark
  /-- HOLDOVER_TEST (R235): TIM command 0x02 rejects every correction for the duration in SERVICE. -/
  | holdoverTest
  /-- HOLDOVER_TEST_END (R235): The HOLDOVER_TEST duration runs out and corrections are accepted again. -/
  | holdoverTestEnd
  /-- TIM_CLEAR_STATS (R231): TIM command 0x03 clears TIM_STATS and TIM_CORR_REJ. -/
  | timClearStats
  /-- GM_CHG (R240): Best-master selection changes the grandmaster and raises GM_CHG. the external grandmaster chosen and its offset, none where the module's clock is best -/
  | gmChg (other : Option (Nat × Int))
  /-- TABLETOP_CUT (R245): At each cut the latest sample of every slot is taken and a cycle runs its stages. `t`: S_k; `sums`: the check head's summaries by slot and sector, 8 INT8 each (slots and sectors not listed: zeros); `fused`: the bytes of the fusion head by their offset in the grid buffer (those not listed: 0). -/
  | tabletopCut (t : Nat) (sums : List (Fin 16 × Fin 256 × BitVec 64)) (fused : List (Fin 16777216 × Byte))
  /-- SOLVER_TO (R271): A solver held past 2 ms completes the assignment greedily. `reached`: the pairs (track, index of detection) that the solver had reached. -/
  | solverTo (reached : List (Nat × Nat))
  /-- CYCLE (R246): A cycle reaches publication: the built pair becomes published and CYCLE is raised. `dt`: ns that pass first; `crop`: values (Q16.16) and qualities of the crop-state head; `dets`: candidates after suppression; `kat`: tensor units that failed the known-answer test; `pick`: the minimum-cost assignment that the solver finds, where several are. -/
  | tblCycle (dt : Nat) (crop : List (Int × Byte)) (dets : List TblDet) (kat : BitVec 64) (pick : List (Nat × Nat))
  /-- CYCLE_SKIP (R247): A cycle not published by cut + 35 ms is abandoned. -/
  | cycleSkip
  /-- SAMPLE_ARRIVE (R252): A slot encoder finishes a sample, which becomes the latest or is discarded as out of order. `stamp`: device time in ns; `data`: what the encoder writes to the staging buffer. -/
  | sampleArrive (n : Fin 16) (stamp : Int) (data : List Byte)
  /-- SLOT_FRAGMENT (R255): A UDP fragment for an external slot is checked and reassembled. `d`: the UDP datagram's payload. -/
  | slotFragment (d : List Byte)
  /-- EXT_ERR (R256): An incomplete external sample is discarded 100 ms after its first fragment. the slot of the sample that is discarded. -/
  | extErr (n : Fin 16)
  /-- SLOT_SILENT (R254): A slot without a new sample for 1 s raises SLOT_SILENT. -/
  | slotSilent (n : Fin 16)
  /-- TBL_START (R275): TBL command 0x01 reads the configuration, checks banks, loads the network and starts cycles. -/
  | tblStart
  /-- TBL_STOP (R276): TBL command 0x02 stops the Tabletop at the end of the cycle in progress. -/
  | tblStop
  /-- ALIGN_SWAP (R259): TBL command 0x03 checks and locks alignment banks to swap at the next cut. -/
  | alignSwap
  /-- TBL_SWAP_CANCEL (R259): TBL command 0x04 cancels pending alignment swaps. -/
  | tblSwapCancel
  /-- TRUST_RESET (R264): TBL command 0x05 returns every slot to trusted at the next cut. -/
  | trustReset
  /-- TBL_CLEAR_COUNTS (R244): TBL command 0x06 clears the named Tabletop counters. -/
  | tblClearCounts
  /-- AIN_FAULT (R344): An AIN fault condition held for FLT_TIME sets its flag and raises AIN_FAULT. `value`: the mean of the latest samples in Q16.16 V or mA. -/
  | ainFault (n : Fin 48) (k : AinFlag) (samples : List Int)
  /-- AIN_FAULT_CLEAR (R344): An AIN fault condition absent for FLT_TIME clears its flag. -/
  | ainFaultClear (n : Fin 48) (k : AinFlag) (samples : List Int)
  /-- FIN_EDGE (R346): A qualified rising edge on a FIN input is counted and stamped, or counted as a glitch. `dt`: ns that pass first; ns low before the edge and high after it. -/
  | finEdge (n : Fin 24) (dt : Nat) (low : Nat) (high : Nat)
  /-- FIN_REFRESH (R346): Every 1 ms FREQ is refreshed and STOPPED set on timeout. -/
  | finRefresh (n : Fin 24) (dt : Nat) (level : Bool)
  /-- FIN_FAULT (R347): FREQ above 55 kHz for 10 ms sets OVER_FREQ. -/
  | finFault (n : Fin 24)
  /-- LOSS_IMPACT (R348): An envelope excursion is counted as an impact or rejected, and added to the histogram. µs above THRESH and peak in mV. -/
  | lossImpact (n : Fin 8) (dt : Nat) (width : Nat) (peak : Nat)
  /-- LOSS_RATE_REFRESH (R348): Every 10 ms RATE is refreshed from the latest second. -/
  | lossRateRefresh (n : Fin 8) (dt : Nat)
  /-- LOSS_TEST_PULSE (R349): Every 10 s a test pulse checks each loss channel for OPEN or SHORT. mV. -/
  | lossTestPulse (n : Fin 8) (response : Nat)
  /-- SUPPLY (R345): A sensor supply changes state through LIMIT, BACKFED or OK. -/
  | aioSupply (k : Fin 6) (c : SupplyState) (mv : Nat) (ma : Nat)
  /-- SUPPLY_RETRY (R345): A supply in LIMIT is retried every 1 s. -/
  | supplyRetry (k : Fin 6) (good : Bool) (mv : Nat) (ma : Nat)
  /-- AIO_CLEAR_COUNTS (R344): AIO command 0x01 clears the named input counts. -/
  | aioClearCounts
  /-- LOSS_TEST (R349): AIO command 0x02 runs the loss test on the masked channels. -/
  | lossTest
  /-- MAP_TICK (R355): Every 10 ms the map engine sweeps active sections and records touched cells. `t`: the device time of the tick in ns. -/
  | mapTick (t : Nat)
  /-- POSE_GO (R354): A write of MAP_POSE_GO latches the reported pose. -/
  | poseGo (v : Word)
  /-- JOURNAL_PERIOD (R359): Every 60 s the engine swaps dirty lists and writes the previous list as journal entries. -/
  | journalPeriod
  /-- JOURNAL (R359): A journal entry is sealed, or fails and merges its list back. `good`: the next entry of the list is sealed on the eMMC, else it ends other than OK. -/
  | mapJournal (good : Bool)
  /-- COMPACT_DONE (R361): A base slot is sealed and ring space before BASE_SEQ is freed. -/
  | compactDone
  /-- MAP_START (R363): MAP command 0x01 resumes the map or restores it from base and journal. -/
  | mapStart
  /-- RESTORE_DONE (R363): A map restore ends and MAP_START completes with OK. -/
  | restoreDone
  /-- MAP_STOP (R357): MAP command 0x02 stops sweeping and drains attribution. -/
  | mapStop
  /-- MAP_STOP_DONE (R357): Attribution drains, a stop entry is written and the map becomes STOPPED. -/
  | mapStopDone
  /-- MAP_NEW (R364): MAP command 0x03 starts an empty map with a new identity and base. -/
  | mapNew
  /-- WINDOW_READ (R366): MAP command 0x04 copies a rectangle of whole cells to DRAM. -/
  | windowRead
  /-- CAL_APPLY (R351): MAP command 0x05 puts the staged calibration into effect at the next tick. -/
  | calApply
  /-- ZERO (R351): MAP command 0x06 averages the plate signal over 5 s. -/
  | mapZero
  /-- ZERO_DONE (R351): After 5 s the average is written to MAP_ZERO. ps: what the sources of AIN_A and AIN_B read at
instants of the 5 s beside the ticks of the map engine, in 2⁻¹⁶ V -/
  | zeroDone (ps : List (Int × Int))
  /-- MAP_CLEAR_COUNTS (R358): MAP command 0x07 clears MAP_ERRS, MAP_LOST_S or MAP_WIN_BAD. -/
  | mapClearCounts
  /-- PNL_START (R377): PNL command 0x01 reads the identity, powers the rails up in order and starts refreshes. whether PNL_DET_N reads low, and the identity memory's first 256 bytes -/
  | pnlStart (low : Bool) (hdr : List Byte)
  /-- PNL_STOP (R378): PNL command 0x02 powers the panel down in order. -/
  | pnlStop
  /-- UNIFORM_LOAD (R374): PNL command 0x03 loads a uniformity set from the chosen source. -/
  | uniformLoad
  /-- UNIFORMITY_LOAD_DONE (R374): A fully loaded and checked set comes into force at a FRAME_START. what the identity memory holds, where the load comes from there -/
  | uniformityLoadDone (maps : List Byte)
  /-- I2C_XFER (R383): PNL command 0x04 runs one I²C transfer on the panel bus. whether the device acknowledges, and what it answers -/
  | i2cXfer (ack : Bool) (data : List Byte)
  /-- BL_RESET (R382): PNL command 0x05 re-enables faulted backlight strings. -/
  | blReset
  /-- PNL_CLEAR_COUNTS (R372): PNL command 0x06 clears PNL_COUNTS or PNL_LINK_ERR. -/
  | pnlClearCounts
  /-- PNL_FLIP_WRITE (R370): A write of PNL_FLIP names a buffer to be shown at the next FRAME_START. -/
  | pnlFlipWrite (v : Word)
  /-- VSYNC (R371): A refresh slot that is a refresh sends FRAME_START and takes a pending flip. -/
  | vsync
  /-- FRAME_CRC (R372): At the end of the active scan the buffer CRC is compared with the expected CRC. -/
  | frameCrc
  /-- RAIL (R376): A rail off target for 10 ms latches RAIL_FAULT and powers the panel down. the measured voltage -/
  | pnlRail (r : Fin 4) (mv : Int)
  /-- PANEL_UNPLUG (R380): PNL_DET_N high for 10 ms runs the fast discharge and turns the panel OFF. -/
  | panelUnplug
  /-- PANEL_PLUG_IN (R380): PNL_DET_N low for 10 ms raises DETECT and starts nothing. -/
  | panelPlugIn
  /-- TOUCH (R383): TP_INT_N low raises TOUCH. -/
  | pnlTouch
  /-- BACKLIGHT (R382): An open or short string is turned off and BACKLIGHT raised. BL_A and the six cathode voltages in mV -/
  | pnlBacklight (k : Fin 6) (bla : Nat) (cath : List Nat)
  /-- CAN_START (R401): CAN command 0x01 configures controllers, clears buffers and integrates to the bus. -/
  | canStart
  /-- CAN_STOP (R401): CAN command 0x02 leaves the bus at the next idle and puts the transceiver in standby. -/
  | canStop
  /-- RECOVER (R392): CAN command 0x03 starts bus-off recovery. -/
  | canRecover
  /-- ISB_ABORT (R397): CAN command 0x04 sends a connection abort and ends the session. -/
  | isbAbort
  /-- CAN_CLEAR_COUNTS (R388): CAN command 0x05 clears the controllers' error and loss counts. -/
  | canClearCounts
  /-- FRAME_RECEIVED (R388): A received frame is stored in a buffer, a FIFO or discarded, with its SOF time. `sof`: device time of its SOF; `bad`: the frame ended with an error instead of passing its CRC. -/
  | frameReceived (n : Fin 8) (sof : Nat) (f : CanRx) (bad : Option CanErr)
  /-- TXREQ_WRITE (R390): A write of TXREQ requests transmission of message buffers. -/
  | txreqWrite (n : Fin 8) (k : Fin 4) (v : Word)
  /-- TXCANCEL_WRITE (R390): A write of TXCANCEL cancels pending transmissions. -/
  | txcancelWrite (n : Fin 8) (k : Fin 4) (v : Word)
  /-- MB_LOCK (R389): Writing 1 to a LOCK bit locks a buffer, diverting receptions to its shadow. -/
  | mbLock (n : Fin 8) (b : Fin 128)
  /-- MB_UNLOCK (R389): Writing 0 to a LOCK bit unlocks a buffer and promotes any shadow frame. -/
  | mbUnlock (n : Fin 8) (b : Fin 128)
  /-- FIFO_POP (R388): A write of FIFO_POP removes the head entry of a receive FIFO. -/
  | fifoPop (n : Fin 8) (f : Fin 2) (v : Word)
  /-- TX_DONE (R390): A transmission attempt ends sent, lost, failed or cancelled. `dt`: ns that pass until the bus is idle after it; `delay`: the transmitter delay measured, in minimum quanta. -/
  | txDone (n : Fin 8) (dt : Nat) (r : CanEnd) (delay : Fin 128)
  /-- TX_PERIOD (R390): Every PERIOD ms the controller sets the buffer's TXREQ. -/
  | txPeriod (n : Fin 8) (b : Fin 128)
  /-- BUS_OFF_RECOVERED (R392): 128 occurrences of 11 recessive bits end bus-off. -/
  | busOffRecovered (n : Fin 8)
  /-- SIG_TIMEOUT (R393): A receive slot without a frame for TIMEOUT becomes invalid. -/
  | sigTimeout (r : Fin 256)
  /-- ISB_SEND (R397): A session CTRL write with OP 1 starts a TP, ETP or BAM transmission. `v`: the word written to the session's CTRL. -/
  | isbSend (n : Fin 2) (k : Fin 8) (v : Word)
  /-- ISB_ARM_RECEIVE (R397): A session CTRL write with OP 2 arms a reception. -/
  | isbArmReceive (n : Fin 2) (k : Fin 8) (v : Word)
  /-- ISB_TIMEOUT (R397): A transport protocol timeout runs out and the session aborts with reason 3. -/
  | isbTimeout (n : Fin 2) (k : Fin 8)
  /-- TT_CYCLE (R399): A reference message starts a basic cycle. `t`: device time of the reference SOF. -/
  | ttCycle (n : Fin 8) (t : Nat) (r : CanRef)
  /-- TT_WINDOW (R400): A schedule column opens and its time-triggered buffer transmits or misses. `idle`: ns after the column start at which the bus is first idle. -/
  | ttWindow (n : Fin 8) (k : Fin 32) (idle : Nat)
  /-- SYNC_OFF (R399): No reference SOF by cycle end plus WATCH enters SYNC_OFF. -/
  | ttSyncOff (n : Fin 8)
  /-- ETH_FRAME_RECEIVED (R404): A frame received on a port is classified, forwarded or delivered to the host. `t`: device time of the first bit; `d`: the frame from its destination address, without FCS; `bad`: an error; `full`: egress ports whose frame finds no buffer space. -/
  | ethFrameReceived (p : Fin 5) (t : Nat) (d : List Byte) (bad : Bool) (full : BitVec 6)
  /-- LINK (R402): An Ethernet link comes up or goes down. -/
  | ethLink (p : Fin 5) (up : Bool)
  /-- ETH_RX_HEAD_WRITE (R405): A write of a receive ring HEAD offers empty buffers. -/
  | ethRxHeadWrite (q : Fin 4) (v : Word)
  /-- ETH_TX_HEAD_WRITE (R405): A write of a transmit ring HEAD places frames to send. -/
  | ethTxHeadWrite (q : Fin 4) (v : Word)
  /-- FDB_AGE (R403): A dynamic forwarding entry ages out after ETH_AGE seconds. `k`: which of the dynamic entries. -/
  | fdbAge (k : Nat)
  /-- PTP_SYNC (R406): Every 125 ms an 802.1AS sync is sent on each PTP port. -/
  | ptpSync
  /-- PEER_DELAY (R406): Once per second peer delay is measured and asCapable updated. `d`: the delay measured in ns (none: the exchange failed). -/
  | peerDelay (p : Fin 5) (d : Option Nat)
  /-- FDB_FLUSH (R403): ETH command 0x01 removes dynamic entries of the named ports. -/
  | fdbFlush
  /-- PORT_RESTART (R402): ETH command 0x02 retrains a port's link. -/
  | portRestart
  /-- ETH_CLEAR_COUNTS (R403): ETH command 0x03 clears port and ring drop counters. -/
  | ethClearCounts
  /-- DW_START (R408): A GO write with START latches arguments and starts or queues a descriptor. -/
  | dwStart (n : Fin 64)
  /-- DW_STOP (R409): A GO write with STOP discards the pending start and stops the channel. `start`: START is set in the same word -/
  | dwStop (n : Fin 64) (start : Bool)
  /-- DW_STOP_DONE (R409): All write responses have returned and the stopped channel becomes idle. -/
  | dwStopDone (n : Fin 64)
  /-- BURST_GRANT (R411): The arbiter grants one burst to the highest-priority ready channel. `returned`: the channels whose write responses have all come back. -/
  | burstGrant (returned : List (Fin 64))
  /-- DMW_SWREQ_WRITE (R412): A write of DMW_SWREQ asserts software requests. -/
  | dmwSwreqWrite (v : Word)
  /-- REQUEST_ASSERTED (R412): A request becomes asserted and releases a channel waiting in waitreq. -/
  | requestAsserted (r : Fin 256)
  /-- STREAM_READ (R413): A read of a stream register returns the next word and removes the entry after its last word. `q`: 2n + f for receive FIFO f of CANn, 16 for the time marks. -/
  | streamRead (who : Initiator) (q : Fin 17)
  /-- BEAT_ERROR (R415): A bus error on a beat is retried, or halts the channel when retries are spent. `wr`: a write beat -/
  | beatError (n : Fin 64) (wr : Bool) (addr : Nat)
  /-- HELD_BOUNDARY_PASS (R416): All responses resolve and a held channel passes its boundary or halts. -/
  | heldBoundaryPass (n : Fin 64)
  /-- DMW_SWAP (R141): DMW command 0x01 checks and locks a channel's inactive bank. -/
  | dmwSwap
  /-- DMW_SWAP_CANCEL (R141): DMW command 0x02 cancels a pending swap. -/
  | dmwSwapCancel
  /-- DMW_CLEAR_COUNTS (R419): DMW command 0x03 clears COUNTS and SIGNAL counts of the masked channels. -/
  | dmwClearCounts
  /-- BEGIN (R425): UPD command 0x01 takes a region's lock and makes its inactive slot WRITING. -/
  | updBegin
  /-- WRITE_BLOCK (R426): UPD command 0x02 writes, reads back and seals one block of a WRITING slot. -/
  | updWriteBlock
  /-- FINISH (R427): UPD command 0x03 verifies a complete image and makes its slot PENDING or EMPTY. -/
  | updFinish
  /-- ABORT (R428): UPD command 0x04 ends an update and marks the slot EMPTY. -/
  | updAbort
  /-- CONFIRM (R433): UPD command 0x05 makes TRIAL slots ACTIVE and raises their minimum. -/
  | updConfirm
  /-- READ_BLOCK (R436): UPD command 0x06 copies a block of a slot to DRAM. -/
  | updReadBlock
  /-- KEY_REVOKE (R423): UPD command 0x07 blows a key's revocation bit in SERVICE. -/
  | keyRevoke
  /-- LOCK_IDLE_EXPIRED (R428): A lock without a block for UPD_LOCK_IDLE hours is aborted. -/
  | lockIdleExpired (r : Fin 16)
  /-- HELLO (R437): A Service Protocol HELLO agrees a version and opens a session. majors with the minor of each -/
  | svcHello (port : Fin 5) (client : Nat) (sq : BitVec 16) (vers : List (Byte × Byte))
  /-- BYE (R437): A Service Protocol BYE ends a session. -/
  | svcBye (sess : BitVec 16) (sq : BitVec 16)
  /-- STATUS (R437): A Service Protocol STATUS returns every region's state and version. -/
  | svcStatus (sess : BitVec 16) (sq : BitVec 16)
  /-- UPD_BEGIN (R438): A Service Protocol UPD_BEGIN begins or resumes an update. -/
  | svcUpdBegin (sess : BitVec 16) (sq : BitVec 16) (region : BitVec 8) (resume : Bool) (token : BitVec 16) (size : Word)
  /-- UPD_DATA (R438): A Service Protocol UPD_DATA part completes a block passed to WRITE_BLOCK. -/
  | svcUpdData (sess : BitVec 16) (sq : BitVec 16) (token : BitVec 16) (region : BitVec 8) (block : Word) (part : Fin 4) (crc : Word) (data : List Byte)
  /-- UPD_FINISH (R438): A Service Protocol UPD_FINISH finishes an update. -/
  | svcUpdFinish (sess : BitVec 16) (sq : BitVec 16) (token : BitVec 16) (region : BitVec 8)
  /-- UPD_ABORT (R438): A Service Protocol UPD_ABORT aborts an update. -/
  | svcUpdAbort (sess : BitVec 16) (sq : BitVec 16) (token : BitVec 16) (region : BitVec 8)
  /-- UPD_CONFIRM (R438): A Service Protocol UPD_CONFIRM confirms regions. -/
  | svcUpdConfirm (sess : BitVec 16) (sq : BitVec 16) (mask : BitVec 16)
  /-- BUREAU_READ (R437): A Service Protocol BUREAU_READ returns up to 40 records. -/
  | svcBureauRead (sess : BitVec 16) (sq : BitVec 16) (first : Word) (count : Byte)
  /-- RESTART (R439): A Service Protocol RESTART causes a service restart or a power-on start-up in recovery. -/
  | svcRestart (sess : BitVec 16) (sq : BitVec 16) (e : BootEnv)
  /-- SESSION_TIMEOUT (R437): A Service Protocol session without a request for 10 s ends. -/
  | sessionTimeout (sess : BitVec 16)
  /-- BUR_PUT (R444): A write of BUR_PUT queues a program record, or sets BAD_PUT. -/
  | burPut (v : Word)
  /-- RECORD_DRAIN (R447): A queued record is written to the MRAM ring. -/
  | recordDrain
  /-- PATCH_WRITE (R446): At most every 100 ms the last record's counts are sealed to a patch unit. -/
  | patchWrite
  /-- BUR_CURSOR_WRITE (R449): A write of BUR_CURSOR latches a record into the window. -/
  | burCursorWrite (v : Word)
  /-- BUR_WIN7_READ (R449): A read of BUR_WIN7 advances the cursor and latches the next record. -/
  | burWin7Read
  /-- FREEZE (R448): BUR command 0x01 stops MRAM writes. -/
  | burFreeze
  /-- UNFREEZE (R448): BUR command 0x02 ends the freeze. -/
  | burUnfreeze
  /-- FREEZE_TIMEOUT (R448): FREEZE_MAX seconds end a freeze and add a FREEZE_TIMEOUT record. -/
  | freezeTimeout
  /-- CLEAR (R451): BUR command 0x03 empties the ring and writes a CLEAR record. -/
  | burClear
  /-- BUR_CLEAR_COUNTS (R447): BUR command 0x04 clears BUR_LOST and BAD_PUT. -/
  | burClearCounts
  /-- HOUSEKEEPING_ROUND (R452): Every PERIOD ms all housekeeping channels are converted and published. `readings` lists the converted values of channels 0–57 in their units (none: sensor open or shorted). -/
  | housekeepingRound (readings : List (Option Int))
  /-- HKP_CFG_WRITE (R453): Clearing an enable bit clears at once the held states it enables. -/
  | hkpCfgWrite (k : Fin 64) (v : Word)
  /-- ROUND_NOW (R452): HKP command 0x01 starts a round at once. -/
  | roundNow
  /-- CLEAR_STATES (R453): HKP command 0x02 clears the held states of the masked channels. -/
  | clearStates
  /-- THERMAL_SHUTDOWN (R456): A core site or power stage reaching HIGH_SHUT takes fail states and switches the core die off. the channel, 0 core, 1 valve stage, 2 load stage, 0.1 degree C -/
  | thermalShutdown (k : Fin 64) (cause : Fin 3) (reading : Int) (t : List (Option Int))
  /-- THERMAL_RESTART (R456): Causing sites below HIGH_SHUT − 10 °C for 10 s start a core-reset start-up. -/
  | thermalRestart (e : BootEnv)
  /-- COMPARATOR_MISMATCH (R459): A mismatch between the safety pair tiles opens both cut-off switches and sets the LIMP latch. -/
  | comparatorMismatch
  /-- SAFETY_CHECK_FAULT (R460): A pair check condition held for its confirmation time declares a safety fault. -/
  | safetyCheckFault (code : Byte) (src : CheckSamples)
  /-- WDG_KICK (R462): A write of SAF_WDG_KICK serves the watchdog, or causes a core reset outside its window. -/
  | wdgKick (v : Word) (e : BootEnv)
  /-- WDG_EXPIRY (R462): No kick by WIN_CLOSE causes a WATCHDOG core reset. -/
  | wdgExpiry (e : BootEnv)
  /-- COMPARATOR_SELF_TEST (R466): Every 1 s the pair injects a mismatch into a comparator shadow path. -/
  | comparatorSelfTest (pass : Bool)
  /-- IL28_FREQUENCY_TEST (R466): Every 100 ms IL28 is compared with IL27. -/
  | il28FrequencyTest (kHz : Nat)
  /-- CLEAR_LIMP (R170): SAF command 0x01 clears the LIMP latch in SERVICE if no check is failing. -/
  | clearLimp (failing : Bool)
  /-- CUTOFF_TEST (R466): SAF command 0x02 runs the cut-off switch test. -/
  | cutoffTest (pass : Bool)
  /-- SAF_CLEAR_COUNTS (R460): SAF command 0x03 clears the check counts. -/
  | safClearCounts
  /-- TST_UNLOCK (R467): The two-key sequence to TST_UNLOCK unlocks perturbation in SERVICE. -/
  | tstUnlock (v : Word)
  /-- CH_TRACK (R217): A tracking channel in PULL_IN locks and passes to TRACK, writing its state to the channel table. -/
  | chTrack (c : Fin 512) (cn0 : BitVec 16)
  /-- TIME_SLEW_END (R234): A slew of an offset below 1 µs completes, SLEWING clears and the removed offset leaves TIM_ACC. -/
  | timeSlewEnd
  /-- TIME_MESSAGE_DROP (R238): A time message that cannot be queued within 500 ms is dropped and counted in TIM_STATS. -/
  | timeMessageDrop
  /-- LINK_ERR_READ (R367): Under panel link major 3, the driver CRC error count is read over I²C every 1 s into PNL_LINK_ERR. driver CRC errors counted since the last read -/
  | linkErrRead (n : Nat)
  /-- BURDEN_RETRY (R344): An opened 4–20 mA burden recloses after 1 s, and BURDEN_OPEN follows the result. `still`: the current is above its limit again. -/
  | burdenRetry (n : Fin 48) (still : Bool)
  /-- WAKE_INPUT_FALL (R168): WAKE or WAKE_SVC falling in ROAD or LIMP, with the other wake inputs low, starts the KEYOFF_TIME count. -/
  | wakeInputFall (p : WakePin)
  /-- BUS_INTEGRATED (R401): A started CAN controller completes its bus integration and leaves INTEGRATING for ERROR_ACTIVE. -/
  | busIntegrated (n : Fin 8)
  /-- BAM_PACKET (R397): A BAM session sends its next data packet 50 ms after the previous one. -/
  | bamPacket (n : Fin 2) (k : Fin 8)
  /-- ETH_FRAME_SENT (R405): The switch finishes sending a host transmit-ring frame and advances that ring's TAIL. -/
  | ethFrameSent (q : Fin 4) (t : Nat) (full : BitVec 6)
  /-- CART_STATE (R441): A CART_STATE message received from the coupled cart keeps the combine coupled. -/
  | cartState (stamp : Nat) (body : List Byte)
  /-- COUPLING_LOST (R441): 1 s without a valid CART_STATE ends coupling, requiring MF22 to 0 and a STOP with reason 2. -/
  | couplingLost
  deriving DecidableEq, Repr

end Sys2Proof
end

