-- ==== Sys2Proof/Config.lean ====
section
/-! DEFINITION. What the spec leaves open, as constants without a body: nothing in Lean can evaluate them, so a claim that
holds, holds whatever their values are. -/

namespace Sys2Proof.Config

/-- A value the spec leaves open, drawn with a fresh number of the state's counter (notes/assumptions/3.md). -/
opaque freeValue : Nat → Nat

/-- What a CAM_START finds at the cameras where a register write causes it. -/
opaque freeProbes : Nat → List CamProbe

/-- The U09 camera configuration that drawer section 0x07 names for a camera (R196), from the section's bytes. -/
opaque camConfig : List Byte → Nat → Nat

/-- The compatibility rules of a camera configuration of the U09 image of a version accept an aggregator's identity (R196). -/
opaque camAccepts : Nat → Nat → Word → Bool

/-- Bytes that a device answers where a register write causes its read. -/
opaque freeBytes : Nat → List Byte

/-- The column polarity pattern that a POL packet carries for a polarity (Table 15-3): the spec gives no pattern. -/
opaque columnPolarity : Bool → Byte

/-- The sine and cosine that the track filters use, of an angle in rad (R272): their arithmetic is not in the spec. -/
opaque trackSin : Rat → Rat
opaque trackCos : Rat → Rat

/-- The binary32 word in which a track filter leaves an exact value (R272): its rounding is not in the spec. -/
opaque trackWord : Rat → Word

/-- The noise matrices of the track filters in a section 0x06 (R272). -/
opaque trackNoise : List Byte → List Word

/-- The six variances of a track's prediction, from its state and variances before it, the time in ns, TBL_EGO_V and TBL_EGO_W, and the
noise matrices (R272). -/
opaque trackSpread : List Word → Nat → Word → Word → List Word → List Word

/-- The filtered state of a track from its prediction, a detection's x, y and heading, and the noise matrices (R272). -/
opaque trackUpdate : List Word → List Word → List Word → List Word

/-- The state of a track created from a detection's x, y and heading, with the noise matrices (R273). -/
opaque trackInit : List Word → List Word → List Word

/-- The squared Mahalanobis distance of R270 between a prediction and a detection, with the noise matrices, in units of 2^−16. -/
opaque trackDist : List Word → List Word → List Word → Nat

/-- A cell receives the points or patch cells of a lidar or crop-sensor slot, from its KIND and the 64 bytes of its extrinsic transform
(R258, R260): the sensor's field of view is not in the spec. -/
opaque slotReaches : Nat → List Byte → Nat → Nat → Bool

/-- The alignment bank that a section 0x06 holds for a slot (R257): the payload's format is not in the spec. -/
opaque alignTable : List Byte → Nat → List Byte

/-- The MACs per cycle that a U07 image of a version declares for its heads together, and per second for all slot encoders together
(R247). -/
opaque netCycle : Nat → Nat
opaque netEncoders : Nat → Nat

/-- The compatibility rules of a U07 image, by its version, allow a drawer's slot set (R275). -/
opaque netAllows : Nat → Nat → Bool

/-- The drawer's edge side is the left (R274), by the drawer in force. -/
opaque edgeLeft : Nat → Bool

/-- The demosaic's red, green and blue at (x, y) from a CFA pattern and the black-levelled rows (Table 8-3): the spec names an
edge-directed 5 × 5 interpolation and not its arithmetic. -/
opaque demosaic : Nat → List (List Nat) → Nat → Nat → Nat × Nat × Nat

/-- A value between two integers takes the upper one, from what it was computed from: the rounding of the colour stage and of the
box filter is not in the spec (Table 8-3). -/
opaque camUp : Nat → Nat → Bool

/-- The 24-bit value of a colour result that is no number (Table 8-3). -/
opaque camNan : Nat → Nat

/-- The white-balance gain of green, from two different gains of its CFA positions (Table 8-4). -/
opaque camGreen : Nat → Nat → Nat

/-- Byte `i` of the four that two RGB pixels take in YUV 4:2:2 (R200): conversion and order are not in the spec. -/
opaque camYuv : Nat × Nat × Nat → Nat × Nat × Nat → Nat → Byte

/-- The luma of an RGB pixel (R200, R208): its weights are not in the spec. -/
opaque camLuma : Nat × Nat × Nat → Byte

/-- Byte `i` of the padding of an output line to 64 bytes (R200). -/
opaque camPad : Nat → Byte

/-- What a zone's four-byte sum shows for a sum that does not fit (R208). -/
opaque camSum : Nat → Nat

/-- A coherent time in ms lies within a signal's data bit (true) or symbol and secondary-code boundary (false): the periods
stand in the signals' interface specifications (R216, R217). -/
opaque cohFits : Bool → Nat → Nat → Bool

/-- The data bits of a navigation data unit of a signal, the longer of its subframes or not, from the symbols before it and its own
as received: forward error correction, de-interleaving and the check stand in the signals' interface specifications (R213). -/
opaque navDecode : Nat → Bool → List Byte → List Byte → List Byte

/-- What the check of such a unit gives: 0 it passes, 1 it was corrected, 2 it fails (R213, Table 9-7). -/
opaque navCheck : Nat → Bool → List Byte → List Byte → Nat

/-- SERIAL, UNI_CRC and the offset of the maps in the payload of a U08 image, by its version (R374): the payload's layout is
not in the spec. -/
opaque u08Id : Nat → Nat × Nat × Nat

/-- A signature of 64 bytes over a hash is valid under a key of the one-time area (R422, R423): the keys are not in the
spec. -/
opaque sigValid : Nat → List Byte → List Byte → Bool

/-- The module's serial number (Table 18-7). -/
opaque serial : Nat

/-- The sections of a drawer's bytes, as (id, payload) (R173): how a section carries its id and length is not in the spec. -/
opaque sections : List Byte → List (Nat × List Byte)

/-- The register values that a section's payload loads, as (block id, offset, word): the payloads' formats are not in the
spec. -/
opaque sectionRegs : Nat → List Byte → List (Nat × Nat × Word)

/-- KEYOFF_TIME in a section 0x01. -/
opaque sysKeyoff : List Byte → Nat

/-- A section 0x01 names a standstill source. -/
opaque sysStill : List Byte → Bool

/-- WAKE_TIMER in a section 0x01. -/
opaque sysWakeTimer : List Byte → Nat

/-- The LIMP set of a section 0x01. -/
opaque sysLimp : List Byte → List Nat

/-- The lighting set of a section 0x01 for each mode 1–4. -/
opaque sysLights : List Byte → List (List Nat)

/-- The claim list of a section 0x01, as valve and load channels. -/
opaque sysClaims : List Byte → List Nat × List Nat

/-- The islands that a drawer uses. -/
opaque islandsUsed : List (Nat × List Byte) → List Nat

/-- The bytes of the endpoint table of tile 256 or 257 in the U01 image of a version (R114). -/
opaque pairTable : Nat → Nat → List Byte

/-- The angle that the safety pair's table gives for an analog input's value (mV), in the U01 image of a version (R458). -/
opaque pairAngle : Nat → Nat → Int → Int

/-- The tolerance of the U01 image of a version for a check that compares two angles: ANG_TOL, SWING_TOL (R458, R460). -/
opaque pairTol : Nat → Nat → Int

/-- RATE_MAX of the U01 image of a version at a ground speed (R458, R460). -/
opaque pairRateMax : Nat → Int → Int

/-- The collision zone of SF3 in the U01 image of a version holds an auger angle (R458). -/
opaque pairZone : Nat → Int → Bool

/-- What the surroundings of a start-up are when a register write causes it. -/
opaque surroundings : Nat → BootEnv

end Sys2Proof.Config
end

