-- ==== Sys2Proof/Machine/Blocks.lean ====
section
/-! DEFINITION. The 22 blocks of Table 6-12 (R164): their ids, windows and pigeonholes, and one register window each. -/

namespace Sys2Proof.Machine

/-- The blocks, in the order of their ids. -/
inductive Block where
  | SYS
  | PACE
  | PGH
  | DMW
  | CAM
  | GNS
  | TIM
  | TBL
  | LPE
  | VLV
  | LSW
  | AIO
  | MAP
  | PNL
  | CAN
  | ETH
  | UPD
  | BUR
  | HKP
  | SAF
  | TST
  | PWR
  deriving DecidableEq, Repr

/-- The id of a block (Table 6-12). -/
def Block.id : Block → Nat
  | .SYS => 0x01
  | .PACE => 0x02
  | .PGH => 0x03
  | .DMW => 0x04
  | .CAM => 0x05
  | .GNS => 0x06
  | .TIM => 0x07
  | .TBL => 0x08
  | .LPE => 0x09
  | .VLV => 0x0A
  | .LSW => 0x0B
  | .AIO => 0x0C
  | .MAP => 0x0D
  | .PNL => 0x0E
  | .CAN => 0x0F
  | .ETH => 0x10
  | .UPD => 0x11
  | .BUR => 0x12
  | .HKP => 0x13
  | .SAF => 0x14
  | .TST => 0x15
  | .PWR => 0x16

/-- The base of a block's 1 MiB window (Table 6-12). -/
def Block.base : Block → Nat
  | .SYS => 0x2000000000
  | .PACE => 0x2000100000
  | .PGH => 0x2000200000
  | .DMW => 0x2000300000
  | .CAM => 0x2000400000
  | .GNS => 0x2000500000
  | .TIM => 0x2000600000
  | .TBL => 0x2000700000
  | .LPE => 0x2000800000
  | .VLV => 0x2000900000
  | .LSW => 0x2000A00000
  | .AIO => 0x2000B00000
  | .MAP => 0x2000C00000
  | .PNL => 0x2000D00000
  | .CAN => 0x2000E00000
  | .ETH => 0x2000F00000
  | .UPD => 0x2001000000
  | .BUR => 0x2001100000
  | .HKP => 0x2001200000
  | .SAF => 0x2001300000
  | .TST => 0x2001400000
  | .PWR => 0x2001500000

/-- The block whose window holds a physical address, if any (R7, R144). -/
def Block.ofAddr (a : Nat) : Option Block :=
  match a / 0x100000 with
  | 0x20000 => some .SYS
  | 0x20001 => some .PACE
  | 0x20002 => some .PGH
  | 0x20003 => some .DMW
  | 0x20004 => some .CAM
  | 0x20005 => some .GNS
  | 0x20006 => some .TIM
  | 0x20007 => some .TBL
  | 0x20008 => some .LPE
  | 0x20009 => some .VLV
  | 0x2000A => some .LSW
  | 0x2000B => some .AIO
  | 0x2000C => some .MAP
  | 0x2000D => some .PNL
  | 0x2000E => some .CAN
  | 0x2000F => some .ETH
  | 0x20010 => some .UPD
  | 0x20011 => some .BUR
  | 0x20012 => some .HKP
  | 0x20013 => some .SAF
  | 0x20014 => some .TST
  | 0x20015 => some .PWR
  | _ => none

/-- The block whose pigeonhole range of Table 6-5 holds pigeonhole `p`, with the first pigeonhole of that range. -/
def Block.ofPh (p : Nat) : Block × Nat :=
  if p < 8 then (.SYS, 0) else if p < 16 then (.PWR, 8) else if p < 32 then (.PACE, 16)
  else if p < 48 then (.DMW, 32) else if p < 64 then (.CAM, 48) else if p < 72 then (.GNS, 64)
  else if p < 80 then (.TIM, 72) else if p < 96 then (.TBL, 80) else if p < 128 then (.LPE, 96)
  else if p < 160 then (.VLV, 128) else if p < 200 then (.LSW, 160) else if p < 208 then (.AIO, 200)
  else if p < 216 then (.MAP, 208) else if p < 224 then (.PNL, 216) else if p < 240 then (.CAN, 224)
  else if p < 244 then (.ETH, 240) else if p < 248 then (.UPD, 244) else if p < 250 then (.BUR, 248)
  else if p < 252 then (.HKP, 250) else if p < 255 then (.SAF, 252) else (.TST, 255)

/-- The register windows, one sparse store of words per block, keyed by the offset in the window. -/
structure RegFile where
  sys : SMap Word := SMap.empty
  pace : SMap Word := SMap.empty
  pgh : SMap Word := SMap.empty
  dmw : SMap Word := SMap.empty
  cam : SMap Word := SMap.empty
  gns : SMap Word := SMap.empty
  tim : SMap Word := SMap.empty
  tbl : SMap Word := SMap.empty
  lpe : SMap Word := SMap.empty
  vlv : SMap Word := SMap.empty
  lsw : SMap Word := SMap.empty
  aio : SMap Word := SMap.empty
  map : SMap Word := SMap.empty
  pnl : SMap Word := SMap.empty
  can : SMap Word := SMap.empty
  eth : SMap Word := SMap.empty
  upd : SMap Word := SMap.empty
  bur : SMap Word := SMap.empty
  hkp : SMap Word := SMap.empty
  saf : SMap Word := SMap.empty
  tst : SMap Word := SMap.empty
  pwr : SMap Word := SMap.empty
  deriving DecidableEq, Repr

/-- The window of a block. -/
def RegFile.win (r : RegFile) : Block → SMap Word
  | .SYS => r.sys
  | .PACE => r.pace
  | .PGH => r.pgh
  | .DMW => r.dmw
  | .CAM => r.cam
  | .GNS => r.gns
  | .TIM => r.tim
  | .TBL => r.tbl
  | .LPE => r.lpe
  | .VLV => r.vlv
  | .LSW => r.lsw
  | .AIO => r.aio
  | .MAP => r.map
  | .PNL => r.pnl
  | .CAN => r.can
  | .ETH => r.eth
  | .UPD => r.upd
  | .BUR => r.bur
  | .HKP => r.hkp
  | .SAF => r.saf
  | .TST => r.tst
  | .PWR => r.pwr

/-- The register windows with one of them replaced. -/
def RegFile.put (r : RegFile) (b : Block) (m : SMap Word) : RegFile :=
  match b with
  | .SYS => { r with sys := m }
  | .PACE => { r with pace := m }
  | .PGH => { r with pgh := m }
  | .DMW => { r with dmw := m }
  | .CAM => { r with cam := m }
  | .GNS => { r with gns := m }
  | .TIM => { r with tim := m }
  | .TBL => { r with tbl := m }
  | .LPE => { r with lpe := m }
  | .VLV => { r with vlv := m }
  | .LSW => { r with lsw := m }
  | .AIO => { r with aio := m }
  | .MAP => { r with map := m }
  | .PNL => { r with pnl := m }
  | .CAN => { r with can := m }
  | .ETH => { r with eth := m }
  | .UPD => { r with upd := m }
  | .BUR => { r with bur := m }
  | .HKP => { r with hkp := m }
  | .SAF => { r with saf := m }
  | .TST => { r with tst := m }
  | .PWR => { r with pwr := m }

end Sys2Proof.Machine
end

