-- ==== Sys2Proof/Machine/State.lean ====
section
/-! DEFINITION. The state of the module as plain data, block by block, and its value after a power-on reset. Every field
of a software-visible register lives in `regs`; the records below hold the state that the spec gives a block beside its
registers. -/

namespace Sys2Proof.Machine

/-- What the last command answered to its initiator: nothing, the word read, a bus error (R7), or a datagram of the Service
Protocol (R437). -/
inductive Resp where
  | none
  | word (w : Word)
  | busError
  | datagram (bs : List Byte)
  deriving DecidableEq, Repr

/-- A command mailbox (R154): the code that runs, if any, with its four latched arguments. -/
structure Mail where
  code : Nat := 0
  args : List Word := []
  deriving DecidableEq, Repr

/-- Free-running time: nanoseconds since power-on, operating seconds with their sub-second part, and the power-cycle
count (R4). -/
structure Clock where
  up : Nat := 0
  opsec : Nat := 0
  sub : Nat := 0
  pcc : Nat := 0
  deriving DecidableEq, Repr

/-- Pigeonhole state beside PGH_CNT and PGH_PEND: per pigeonhole, the raises since the last delivery with the time of the
first of them, and the same for the copies of SAF_COPY (R157, R160, R122). -/
structure Pgh where
  acc : SMap Nat := SMap.empty
  first : SMap Nat := SMap.empty
  copyAcc : SMap Nat := SMap.empty
  copyFirst : SMap Nat := SMap.empty
  deriving DecidableEq, Repr

/-- A Bureau record (Table 19-1), its 12 DATA bytes as three words. -/
structure BurRec where
  code : Nat := 0
  source : Nat := 0
  severity : Nat := 0
  opsec : Nat := 0
  pcc : Nat := 0
  flags : Nat := 0
  repeats : Nat := 1
  lastDelta : Nat := 0
  d0 : Word := 0
  d1 : Word := 0
  d2 : Word := 0
  deriving DecidableEq, Repr

/-- The Bureau beside its registers: the queue (oldest first), the last record written with its running counts and its
ring index, whether those counts changed since the last patch write, the sequence of the last patch unit, the events lost that
no LOST record carries yet (R445–R447), and when the freeze in force began and the last patch unit was written (ns since
power-on). -/
structure Bur where
  queue : List BurRec := []
  last : Option BurRec := none
  lastIdx : Nat := 0
  dirty : Bool := false
  patchSeq : Nat := 0
  heldLost : Nat := 0
  frozenAt : Nat := 0
  patchAt : Option Nat := none
  deriving DecidableEq, Repr

/-- What an agent waits on, with the word of the instruction that waits. -/
inductive Blocked where
  | no
  | fence
  | waitev
  | send (w : BitVec 26)
  | recv (w : BitVec 26)
  | pick (w : BitVec 26)
  | waitt (w : BitVec 26)
  | gxrun (w : BitVec 26)
  | gxwait (w : BitVec 26)
  deriving DecidableEq, Repr

/-- A host core or a tile (R78–R81, R97–R103): general and floating-point registers, program counter, level in force (0 U,
1 S, 3 M), system registers by number, whether a tile's last trap has not returned, what it waits on, and its last read of NOW. -/
structure Cpu where
  g : SMap Dword := SMap.empty
  f : SMap Dword := SMap.empty
  pc : Dword := 0
  level : Nat := 3
  sys : SMap Dword := SMap.empty
  trapped : Bool := false
  blocked : Blocked := .no
  lastNow : Nat := 0
  deriving DecidableEq, Repr

/-- A pgsync of a host core (R106): the virtual page (8 KiB) and the ASID that it names, none for all, and memory as its later walks
in that scope see it. -/
structure PtSync where
  page : Option Nat
  asid : Option Nat
  mem : SMap Byte
  deriving DecidableEq, Repr

/-- A cached translation of a host core (R106): ASID, virtual page number and level of the leaf, and the leaf itself. -/
structure Tlb where
  asid : Nat
  vpn : Nat
  level : Nat
  pte : Nat
  deriving DecidableEq, Repr

/-- A load channel beside its registers: the clamp energy (mJ) of each bin of 156.25 ms, by bin number since power-on
(R335); the running time (ns) at which its cooling ends (R335, R336); the PWM register in force in the present period
(R340). -/
structure LswCh where
  bins : SMap Nat := SMap.empty
  coolTo : Nat := 0
  pwm : Word := 0
  deriving DecidableEq, Repr

/-- The supply conditions in force at a load feed (Table 13-3): reversed, above 58 V, below 4.5 V. -/
structure FeedCond where
  reverse : Bool := false
  above : Bool := false
  below : Bool := false
  deriving DecidableEq, Repr

/-- The load switches beside their registers; `gnd`: loss of ground at both ground pins. -/
structure Lsw where
  ch : SMap LswCh := SMap.empty
  feed : SMap FeedCond := SMap.empty
  gnd : Bool := false
  deriving DecidableEq, Repr

/-- A hold in progress of a valve waveform (Table 5-7): its kind 0–3, its value, and for kind 1 whether it waits for a
falling current. -/
structure VHold where
  kind : Nat
  v : Nat
  falling : Bool
  deriving DecidableEq, Repr

/-- A waveform command: a stop, or a start at an index (R306). -/
inductive VCmd where
  | stop
  | start (i : Nat)
  deriving DecidableEq, Repr

/-- What the regulator of a valve channel does (R476): it regulates at the applied target, drives at full duty until the
current has risen to it, or lets the current decay to a lower target, through the recirculation switch on V00–V23 and the
clamp on V24–V31. -/
inductive VDrive where
  | regulate | full | fall
  deriving DecidableEq, Repr

/-- What a diagnostic last found at pin Vnn (R310): a coil, no coil, or a short to ground. -/
inductive VPin where
  | coil | opened | grounded
  deriving DecidableEq, Repr

/-- A valve channel beside its registers: the target requested, whether it follows CMD_IN, the dither in force (Hz, shape,
amplitude), the PWM frequency, g1–g7, the switch-off mode in force, the hold or the queued request it waits for, the
instructions since the last hold, a waiting waveform command, the band that is pending, its decay (0 RECIRC, 1 CLAMP,
2 ISOLATE) and the mode that decay was asked for, whether 20 mA or more flow, its SHORT_SUP latch, whether a core reset left
it running (R187), the bins of its duty window with the present one first; the requested target that was last applied,
whether the request it waits for has been applied, what its regulator does, the edges counted since a hold of kind 2 began
(R135), what stands at its pin, and the coil's own temperature estimate in 0.1 °C (R322). -/
structure VlvCh where
  req : Nat := 0
  taken : Nat := 0
  granted : Bool := false
  drive : VDrive := .regulate
  edges : Nat := 0
  pin : VPin := .coil
  est : Option Int := none
  asked : Nat := 0
  follow : Bool := false
  dithHz : Nat := 0
  dithShape : Nat := 0
  amp : Nat := 0
  pwm : Nat := 4000
  g : List Nat := []
  mode : Nat := 0
  hold : Option VHold := none
  wait : Bool := false
  count : Nat := 0
  cmd : Option VCmd := none
  band : Nat := 0
  decay : Option Nat := none
  flowing : Bool := false
  shortSup : Bool := false
  kept : Bool := false
  bins : List Nat := []
  deriving DecidableEq, Repr

/-- A request in a group queue (R314): its channel, the target requested and, from a dith, the dither asked for. -/
structure VReq where
  ch : Nat
  dith : Option (Nat × Nat × Nat) := none
  deriving DecidableEq, Repr

/-- A ledger entry (Table 12-7); equivalent use in ms. -/
structure Ledger where
  serial : Nat := 0
  typ : Nat := 0
  tref : Nat := 0
  life80 : Bool := false
  life100 : Bool := false
  ratedK : Nat := 0
  ratedH : Nat := 0
  cycles : Nat := 0
  eqMs : Nat := 0
  first : Nat := 0
  seen : Nat := 0
  chan : Nat := 0
  life : Nat := 0
  deriving DecidableEq, Repr

/-- The valve drivers beside their registers: channels, group queues (oldest first), whether a load fell since the queues
were last served, the ledger as it accumulates and as sealed in MRAM. -/
structure Vlv where
  ch : SMap VlvCh := SMap.empty
  q : SMap (List VReq) := SMap.empty
  fell : Bool := false
  ledger : SMap (Option Ledger) := SMap.empty
  sealed : SMap (Option Ledger) := SMap.empty
  deriving DecidableEq, Repr

/-- A loop instance beside its registers and banks: CFG, PERIOD, PHASE and SINK in force, the values accepted by LOOP_APPLY
that its next instant takes, whether later writes are staged, whether it starts from its preloads at its next RUN or
RETARGET sample, g8–g11, the run of samples with valid scheduling sources, the last valid value and the last validity of
each source (none before the first), and the action of its last instant. -/
structure LpeI where
  cfg : Word := 0
  period : Word := 0
  phase : Word := 0
  sink : Word := 0
  take : Option (Word × Word × Word × Word) := none
  dirty : Bool := false
  preload : Bool := true
  st : List Dword := []
  qrun : Nat := 0
  lastV : List (Option Int) := []
  was : List (Option Bool) := []
  prev : Nat := 0
  last : Option Nat := none
  deriving DecidableEq, Repr

/-- A group beside its registers: SINK, SCALE and OFFVAL in force, values accepted that its next forming takes, whether
later writes are staged, and its output before the sink (R297). -/
structure LpeG where
  sink : Word := 0
  scale : Word := 0
  offval : Word := 0
  take : Option (Word × Word × Word) := none
  dirty : Bool := false
  out : Int := 0
  deriving DecidableEq, Repr

/-- The loop engine beside its registers and banks; `pin`: device time of the last write of each program input. -/
structure Lpe where
  i : SMap LpeI := SMap.empty
  g : SMap LpeG := SMap.empty
  pin : SMap (Option Nat) := SMap.empty
  deriving DecidableEq, Repr

/-- A frequency input beside its registers: when EN was written 1, and the times (ns since power-on) of its counted edges,
newest first, as far as its GATE window reaches; and when its latest edge came. -/
structure FinCh where
  edges : List Nat := []
  lastEdge : Option Nat := none
  since : Option Nat := none
  deriving DecidableEq, Repr

/-- A loss input beside its registers: the times of the impacts of the latest second, newest first, and of the last one. -/
structure Loss where
  hits : List Nat := []
  last : Option Nat := none
  deriving DecidableEq, Repr

/-- The crop sensing inputs beside their registers: the latest samples of each analog input, newest first, in Q16.16 V or mA
(R343); `testing`: the loss channels that a LOSS_TEST has still to test. -/
structure Aio where
  ain : SMap (List Int) := SMap.empty
  fin : SMap FinCh := SMap.empty
  loss : SMap Loss := SMap.empty
  testing : List Nat := []
  deriving DecidableEq, Repr

/-- A latched pose (R354): mm east and north, µrad clockwise from north, accuracy in mm, and its device time in ns. -/
structure Pose where
  x : Int
  y : Int
  hdg : Nat
  acc : Nat
  t : Nat
  deriving DecidableEq, Repr

/-- A delay-line record (R355): the cell's index j × 4,096 + i, its area in mm², and whether the cell was new. -/
structure MapRec where
  cell : Nat
  area : Nat
  new : Bool
  deriving DecidableEq, Repr

/-- The header of a base slot (R360). -/
structure MapBase where
  id : Nat
  seq : Nat
  off : Nat
  empty : Bool
  tick : Nat
  desc : List Byte
  deriving DecidableEq, Repr

/-- The header that the map engine keeps in its work area in DRAM (R359, R363): the identity, the tick, the descriptor and
the totals; masses in mg. -/
structure MapWork where
  id : Nat := 0
  tick : Nat := 0
  desc : List Byte := []
  area : Nat := 0
  mass : Nat := 0
  unattr : Nat := 0
  cells : Nat := 0
  overlap : Nat := 0
  deriving DecidableEq, Repr

/-- The map engine beside its registers: the last two poses (newest first), the delay line by the tick's number of 10 ms of
device time, the calibration in force, DELAY, LOSS_DELAY and the sections read at MAP_START, the dirty list and the list
being written, the calibration that a CAL_APPLY checked, a running ZERO (the device time of its start, the ticks it has
averaged and the sum of their p in Q16.16 V), the impact counts at the last tick, the sections in an excursion outside the extent and past a fresh pose, 10 ms periods lost
to either, the work header if it is valid, the base slots, and the ring: the SEQ of the next entry, its sector, the sectors
in use, and what a compaction noted (BASE_SEQ, its sector, the sectors in use before it). -/
structure MapSt where
  poses : List Pose := []
  line : SMap (List MapRec) := SMap.empty
  calN : Nat := 0
  cal : List Word := []
  staged : Option (Nat × List Word) := none
  zero : Option (Nat × Nat × Int) := none
  delay : Nat := 400
  lossDelay : Nat := 0
  sects : List Word := []
  dirty : List Nat := []
  writing : Option (List Nat) := none
  hits : List Nat := []
  outside : List Nat := []
  lostPose : Nat := 0
  lostFlow : Nat := 0
  work : Option MapWork := none
  base : SMap (Option MapBase) := SMap.empty
  seq : Nat := 1
  head : Nat := 0
  used : Nat := 0
  compact : Option (Nat × Nat × Nat) := none
  deriving DecidableEq, Repr

/-- A track (R272, R273): STATE 0 FREE to 3 COASTING, and the fields of its record; `age` counts the cycles published since
its creation, that one included, `always`: assigned in every one of them since. `x` holds six states and six variances as
binary32 words. -/
structure TblTrk where
  state : Nat := 0
  cls : Byte := 0
  born : Nat := 0
  hits : Nat := 0
  misses : Nat := 0
  unassoc : Nat := 0
  flags : Nat := 0
  age : Nat := 0
  always : Bool := true
  x : List Word := []
  len : Byte := 0
  wid : Byte := 0
  conf : Byte := 0
  deriving DecidableEq, Repr

/-- A slot's trust in a sector (R264): voted out, consecutive cycles outvoted, consecutive cycles in agreement. -/
structure TblTrust where
  out : Bool := false
  outN : Nat := 0
  agree : Nat := 0
  deriving DecidableEq, Repr

/-- An external sample in reassembly (R256): SEQ, STAMP, FRAGS, LENGTH, CRC and the fragments received. -/
structure TblAsm where
  seq : Nat
  stamp : Nat
  frags : Nat
  length : Nat
  crc : Nat
  parts : SMap (List Byte)
  deriving DecidableEq, Repr

/-- A sensor slot beside its registers: CFG as read at TBL_START, the stamp of its latest sample and the staging buffer it
stands in, whether SLOT_SILENT was raised since its last sample, the sample in reassembly, the stamps of external
samples in the encoder, and the number of the last camera frame that its encoder finished. -/
structure TblSlot where
  cfg : Word := 0
  latest : Option Int := none
  buf : Nat := 0
  silent : Bool := false
  asm : Option TblAsm := none
  enc : List Int := []
  frame : Option Nat := none
  deriving DecidableEq, Repr

/-- A sector's decision (R263): 0 EMPTY, 1 UNVOTED, 2 CONSISTENT, 3 CONTESTED; whether a majority vote applied, whether a
slot is voted out there, and the trusted set as a mask. -/
structure TblSec where
  state : Nat := 0
  vote : Bool := false
  out : Bool := false
  t : Nat := 0
  deriving DecidableEq, Repr

/-- A cycle between its cut and its end: its number, S_k, each slot's stamp and staging buffer at the cut, the sector
decisions with the trust and the votes they bring, and the assignment a held solver had reached (R271). -/
structure TblCyc where
  num : Nat
  cut : Nat
  stamps : List (Option Int × Nat)
  secs : List TblSec
  trust : SMap TblTrust
  voted : List Nat
  greedy : Option (List (Nat × Nat)) := none
  deriving DecidableEq, Repr

/-- A queued tensor job (R127): its ticket, its unit mask, the address of its program, its input and its output base, and whether a
unit of its mask failed a known-answer test of a cycle it overlapped. -/
structure TblJob where
  ticket : Nat
  units : Nat
  prog : Nat
  inp : Nat
  out : Nat
  failed : Bool := false
  deriving DecidableEq, Repr

/-- The Tabletop beside its registers: CFG, SLOTS, VOTE_CFG, TRACK_CFG and the staging base as read at TBL_START, when its steps were
done, the
cycle number, the published buffer and the cycle numbers of both, the cut and number of the last published cycle, the last
cut, the cycle in progress, slots, coverage and trust by slot × 256 + sector, tracks, a TRUST_RESET or a stop or a swap
mask awaiting its cut, tensor jobs, the statuses of ended ones by ticket, the tickets and unit masks of those that ended in the cycle in
progress, and the tickets given; when the gxrds of each buffer as published and the gxwrs in progress end. -/
structure Tbl where
  cfg : Word := 0
  slots : Nat := 0
  vote : Word := 0
  track : Word := 0
  stage : Nat := 0
  startAt : Nat := 0
  num : Nat := 0
  pub : Bool := false
  nums : Nat × Nat := (0, 0)
  last : Option (Nat × Nat) := none
  lastCut : Option Nat := none
  cyc : Option TblCyc := none
  slot : SMap TblSlot := SMap.empty
  cover : SMap Bool := SMap.empty
  trust : SMap TblTrust := SMap.empty
  trk : SMap TblTrk := SMap.empty
  trustReset : Bool := false
  swap : Option Nat := none
  jobs : List TblJob := []
  ended : SMap (Option Nat) := SMap.empty
  recent : List (Nat × Nat) := []
  tickets : Nat := 0
  reads : Nat × Nat := (0, 0)
  writes : Nat := 0
  deriving DecidableEq, Repr

/-- A CAN frame as a buffer holds it (Table 16-9): ID with IDE, FMT, a device time and its data bytes. -/
structure CanFrame where
  id : Word
  fmt : Word
  time : Nat
  data : List Byte
  deriving DecidableEq, Repr

/-- A transmission attempt under way: from message buffer `src`, or from session `src` − 128; the frame copied at its
start; whether it is a time-triggered one; whether TXCANCEL awaits its failure (R390). -/
structure CanTx where
  src : Nat
  frame : CanFrame
  tt : Bool := false
  cancel : Bool := false
  deriving DecidableEq, Repr

/-- A transport session (R397): phase (0 none, 1 armed, 2 waits for clear to send, 4 waits for the end of message, 5 BAM
send, 6 receives, 7 receives BAM), peer, priority, PGN, DRAM address, message length, capacity, whether ETP, the next packet,
the last packet of the window, the packets a window may have, the packet offset of ETP, and when its handshake's timeout began
(ns since power-on) with its length in ms. -/
structure CanSes where
  phase : Nat := 0
  peer : Nat := 0
  prio : Nat := 0
  pgn : Nat := 0
  addr : Nat := 0
  len : Nat := 0
  cap : Nat := 0
  etp : Bool := false
  next : Nat := 1
  last : Nat := 0
  win : Nat := 255
  off : Nat := 0
  since : Nat := 0
  wait : Nat := 0
  deriving DecidableEq, Repr

/-- A CAN controller beside its registers: CFG, NBT, DBT and TDC as read at START, the shadows of locked buffers, the receive
FIFOs (oldest first), the attempt under way, the sessions and their frames waiting to be sent, the time of the last reference
SOF, the column that is open, when it was started, when each receive buffer last received (ns since power-on), and how many of
its periods each buffer has been requested for. -/
structure CanCh where
  cfg : Word := 0
  shadow : SMap (Option CanFrame) := SMap.empty
  fifo0 : List CanFrame := []
  fifo1 : List CanFrame := []
  tx : Option CanTx := none
  ses : SMap CanSes := SMap.empty
  out : List (Nat × CanFrame) := []
  ref : Nat := 0
  col : Nat := 0
  nbt : Word := 0
  dbt : Word := 0
  tdc : Word := 0
  begun : Nat := 0
  got : SMap Nat := SMap.empty
  periods : SMap Nat := SMap.empty
  deriving DecidableEq, Repr

/-- A dynamic forwarding entry (R403): MAC address, VID, port, and when it was learned (ns since power-on). -/
structure FdbEntry where
  mac : Nat
  vid : Nat
  port : Nat
  seen : Nat := 0
  deriving DecidableEq, Repr

/-- What the module announces on domain 0 (R240, Table 9-10), with the PTP seconds of the announcement. -/
structure PtpAnnounce where
  priority1 : Nat
  priority2 : Nat
  clockClass : Nat
  clockAccuracy : Nat
  variance : Nat
  timeSource : Nat
  utcOffset : Int
  seconds : Nat
  deriving DecidableEq, Repr

/-- The Ethernet switch beside its registers: dynamic entries in the order learned, each port's run of good peer delays,
whether received frames wait that the program has not seen and whether HOST_RX was raised for them, when HOST_RX and FAULT were
last raised (ns since power-on), the last frame sent by each port, and the last announcement. -/
structure Eth where
  fdb : List FdbEntry := []
  good : SMap Nat := SMap.empty
  waiting : Bool := false
  signalled : Bool := false
  rxAt : Option Nat := none
  faultAt : Option Nat := none
  sent : SMap (List Byte) := SMap.empty
  announced : Option PtpAnnounce := none
  deriving DecidableEq, Repr

/-- An island beside its registers (R73–R77): the cause of the start under way, the cause of a wake that waits for a stop to
finish, whether ISL_RESTART takes it through a stop, and whether that restart has passed its stop. -/
structure Isl where
  cause : Nat := 0
  wake : Option Nat := none
  restart : Bool := false
  stopped : Bool := false
  deriving DecidableEq, Repr

/-- A crossing beside its counters (R66–R68, R71). Of a toggle: the sender's level and the level last acknowledged, the pending
flag. Of a value into the island: the fabric's holding register, the value published, the island periods it has been stable (3
stands for 3 or more), the value last accepted. Of a value into the fabric: the island's two holding registers, which of them it
announced, the value last read. Then whether each threshold was reported since the last clear. -/
structure Xc where
  level : Bool := false
  acked : Bool := false
  pending : Bool := false
  hold : Option Word := none
  pub : Word := 0
  stable : Nat := 3
  accepted : Word := 0
  bufs : Word × Word := (0, 0)
  ann : Bool := false
  read : Word := 0
  mergeSeen : Bool := false
  unsetSeen : Bool := false
  deriving DecidableEq, Repr

/-- Core supply, islands and crossings beside the PACE registers: the core voltage in mV, whether an excursion of a ceiling
is in progress and whether SLOW was raised in it. -/
structure Pace where
  mv : Nat := 800
  exc : Bool := false
  slow : Bool := false
  isl : SMap Isl := SMap.empty
  xc : SMap Xc := SMap.empty
  deriving DecidableEq, Repr

/-- A frame of a camera (R195, R206, Table 8-8): number, SOF and end times, FLAGS, lines received per exposure, the lines of
an in-line frame per exposure (none where a line is missing), errors, embedded data, raw buffer, the parameter block in force at its
start, and whether it is dropped for its raw buffer, its lines then not written (R204). -/
structure CamFrame where
  no : Nat
  sof : Nat
  fe : Nat := 0
  flags : Nat := 0
  lines : List Nat := [0, 0, 0]
  raw : List (List (Option (List Byte))) := [[], [], []]
  crcErrs : Nat := 0
  lenErrs : Nat := 0
  ecc : Nat := 0
  emb : List Byte := []
  rawIdx : Nat := 255
  param : Option (List Byte) := none
  dropped : Bool := false
  deriving DecidableEq, Repr

/-- A camera beside its registers: running, stopping, the words read at CAM_START, whether it runs in-line, the frames
started, the frame in progress, the parameter block in force and one that waits for the next frame start, whether a new
set's first frame is still to come, the ring indices, the frames delivered, when a CAM_STOP was written, the instant of the last
trigger, the trigger's period and phase in force and those of a later write with its device time (R194), an in-line frame whose fill
lines are emitted with its output buffer (R207), and the U09 configuration in use. -/
structure CamCh where
  run : Bool := false
  stop : Bool := false
  snap : List Word := []
  inline : Bool := false
  started : Nat := 0
  frame : Option CamFrame := none
  param : Option (List Byte) := none
  next : Option (List Byte) := none
  fresh : Bool := false
  rawNext : Nat := 0
  outNext : Nat := 0
  recNext : Nat := 0
  count : Nat := 0
  stopAt : Nat := 0
  trigAt : Option Nat := none
  trigNow : Nat × Nat := (0, 0)
  trigNew : Option (Nat × Nat × Nat) := none
  fill : Option (CamFrame × Nat) := none
  cfg : Nat := 0
  deriving DecidableEq, Repr

/-- A frame in the memory-path queue with its camera and priority class (R203). -/
structure CamJob where
  cam : Nat
  cls : Nat
  frame : CamFrame
  deriving DecidableEq, Repr

/-- A frame as the encoder of a Tabletop slot received it (R200): number, SOF time, size and its RGB pixels, 3 bytes each. -/
structure EncFrame where
  no : Nat
  sof : Nat
  w : Nat
  h : Nat
  px : List Byte
  deriving DecidableEq, Repr

/-- The cameras and the memory path: waiting frames in service order, the one being processed, and the camera whose test pattern is
(R210); `failed`: a link's training failed since it was last up (R190); `retx`: it trained with RETX_EN; `startAt`: when a CAM_START
that waits for a link was written, and what it finds at the cameras; the last frame on each encoder's stream. -/
structure Cam where
  ch : SMap CamCh := SMap.empty
  queue : List CamJob := []
  busy : Option CamJob := none
  test : Option Nat := none
  failed : SMap Bool := SMap.empty
  retx : SMap Bool := SMap.empty
  startAt : Nat := 0
  probes : List CamProbe := []
  enc : SMap (Option EncFrame) := SMap.empty
  deriving DecidableEq, Repr

/-- The time base beside the TIM registers (R229–R240): the latched [63:32] of TIM_NOW; ACC0, and when the last correction was
accepted and the seed taken (ns since power-on); the previous correction's epoch and offset, and the epoch of the last
accepted one; the offset being slewed, the part still to be adjusted, the whole adjustment and its present period's part; a
correction to apply afterwards; `left`: the part of an adjustment that a loss of corrections left undone; `frac`, `slewFrac`: the parts
of a ns that the rate and the slew have gained, in 10⁻¹¹ ns and in 10⁻⁵ ns; `perEl`: the disciplined ns of the adjusted period that
have run; whether corrections were lost during the period; whether a HOLDOVER_TEST waits; the first
second that may pulse, the last whole second, the time of the last pulse and whether PPS_OUT is held low; the time marks, the
latched one; the time message to be queued; the external grandmaster and its
offset. -/
structure Tim where
  nowHi : Nat := 0
  acc0 : Nat := 0
  acceptAt : Option Nat := none
  seedAcc : Nat := 0
  seedAt : Nat := 0
  prev : Option (Nat × Int) := none
  accEpoch : Option Nat := none
  slew : Int := 0
  rest : Int := 0
  total : Int := 0
  dk : Int := 0
  extra : Option Int := none
  left : Int := 0
  frac : Nat := 0
  slewFrac : Nat := 0
  perEl : Nat := 0
  lost : Bool := false
  testWait : Bool := false
  ppsFrom : Nat := 0
  second : Option Nat := none
  pulseAt : Option Nat := none
  low : Bool := false
  marks : List Nat := []
  mark : Option Nat := none
  msg : Option CanFrame := none
  gm : Option (Nat × Int) := none
  deriving DecidableEq, Repr

/-- A GNSS tracking channel (R217): STATE, its table entry as started, C/N0, LOCK_MS and REASON as last written. -/
structure GnsCh where
  state : Nat := 0
  entry : List Byte := []
  cn0 : Nat := 0
  lock : Nat := 0
  reason : Nat := 0
  deriving DecidableEq, Repr

/-- The GNSS baseband beside its registers: channels, the address of the acquisition job that runs, epochs and navigation records
written since reset, the device time of the last epoch's block, each antenna's delay at the last epoch, and how the firmware started
(0 not, 1 warm, 2 cold). -/
structure Gns where
  ch : SMap GnsCh := SMap.empty
  acq : Option Nat := none
  epochs : Nat := 0
  lastEpoch : Option Nat := none
  navs : Nat := 0
  delay : Nat × Nat := (0, 0)
  fw : Nat := 0
  deriving DecidableEq, Repr

/-- A step 6 snapshot (R48, R318, R337): power cycle and operating second, each valve channel's duty bins, and each load
channel's clamp bins (the present one first), LOCK and cooling time. -/
structure Snap where
  pcc : Nat
  opsec : Nat
  duty : List (List Nat)
  clamp : List (List Nat)
  lock : List (Bool × Nat)
  deriving DecidableEq, Repr

/-- What MRAM holds beside the Bureau and the ledger (R42, R48, R177, R227), each part none where no committed copy exists:
operating seconds and power-cycle count, the bank measurement, the drawer command, the time record (TIM_NOW and time state),
the ephemeris image with the device time it was stored at, the snapshot of step 6. -/
structure Nv where
  counts : Option (Nat × Nat) := none
  bank : Option (Nat × Nat) := none
  drawer : Option Nat := none
  time : Option (Nat × Nat) := none
  eph : Option (List Byte × Nat) := none
  snap : Option Snap := none
  deriving DecidableEq, Repr

/-- A uniformity set (R374): SOURCE and CRC-32C. -/
structure UniSet where
  src : Nat
  crc : Nat
  maps : List Byte := []
  deriving DecidableEq, Repr

/-- A symbol of the panel link (R368): the comma K28.5, or a byte. -/
inductive LinkSym where
  | comma
  | byte (b : Byte)
  deriving DecidableEq, Repr

/-- The panel beside its registers: the identity header, the three curves in force as (temperature, voltage), whether TH7 was
valid since PNL_START, the slots sent in the present power-up or power-down, the slots since the last refresh, N in effect,
the pending flip and the last one shown with their expected CRC, the uniformity load under way (its source, and whether
UNIFORM_LOAD asked for it), the loaded set that waits for a FRAME_START, and the set in force; what each lane of the link
sends in the present slot, commas alone where it lists nothing (R368), whether every gate line conducts, whether the rails are
shorted to PGND (R379), the CRC-32 of a refresh whose active scan has not ended (R372), the forward voltages of the backlight's
strings in mV as last measured (R381), and the last bytes written on the panel bus with their address (R383). -/
structure Pnl where
  hdr : List Byte := []
  curves : List (List (Int × Int)) := []
  warm : Bool := false
  step : Nat := 0
  slots : Nat := 0
  n : Nat := 1
  flip : Option (Nat × Option Word) := none
  shown : Option (Nat × Option Word) := none
  load : Option (Nat × Bool) := none
  ready : Option UniSet := none
  set : Option UniSet := none
  lanes : List (List LinkSym) := []
  allOn : Bool := false
  shorted : Bool := false
  scan : Option (Nat × Word) := none
  forward : List Nat := []
  bus : Option (Nat × List Byte) := none
  deriving DecidableEq, Repr

/-- The update block beside its registers, which live in MRAM with it (R421): whether the regions' records exist, the received
blocks of each WRITING slot as a mask, and the operating second at which each lock was taken or last received a block. -/
structure Upd where
  recs : Bool := false
  rx : SMap Nat := SMap.empty
  fed : SMap Nat := SMap.empty
  deriving DecidableEq, Repr

/-- A block of an update in reassembly at the Service Protocol (R438): token, region, block, its CRC-32C, and the parts
received. -/
structure SvcBlock where
  token : Nat
  region : Nat
  block : Nat
  crc : Nat
  parts : SMap (List Byte)
  deriving DecidableEq, Repr

/-- A Service Protocol session (R437): its number, the client's port and address, the agreed version (0 outside the window),
the last request's SEQ and answer, blocks in reassembly, and when its last request came (ns since power-on). -/
structure Session where
  id : Nat
  port : Nat
  client : Nat
  ver : Nat
  last : Option (Nat × List Byte) := none
  blocks : List SvcBlock := []
  seen : Nat := 0
  deriving DecidableEq, Repr

/-- The Cart Coupling Protocol at the combine (R441): whether it is coupled, when the last valid CART_STATE came (ns since
power-on) and its payload, and the STOP reason that the program has to send. -/
structure Cart where
  coupled : Bool := false
  last : Option Nat := none
  body : List Byte := []
  stop : Option Nat := none
  deriving DecidableEq, Repr

/-- What the logic runs from (R35, R40, R41, R456): `off` unpowered, `run` from BAT_M, `ride` from the bank in a dip, `reserve`
from the logic reserve in a dip, `loss` in the power-loss sequence, `dormant` only the always-on domain and IL27, `thermal`
with the core die switched off by a thermal shutdown. -/
inductive Phase where
  | off | run | ride | reserve | loss | dormant | thermal
  deriving DecidableEq, Repr

/-- PWR beside its registers: what the logic runs from; the BAT_M input switch; when the ride-through, the declaration or the
thermal shutdown came (ns since power-on); of a power-loss sequence its reason, its done steps 1–6 as bits 0–5, its flags as in PWR_LAST_LOSS [7:4],
whether its step 5 runs; BANK_WEAK raised for a measurement and for arming in this power cycle; the bank bled by command;
the target (mV) of the discharge load of R473 while it runs; when the last housekeeping round ran (ns since power-on). -/
structure Pwr where
  phase : Phase := .off
  inputOpen : Bool := false
  since : Nat := 0
  reason : Nat := 0
  steps : Nat := 0
  flags : Nat := 0
  journal : Bool := false
  weak : Bool := false
  weakArm : Bool := false
  bled : Bool := false
  load : Option Nat := none
  round : Option Nat := none
  deriving DecidableEq, Repr

/-- The always-on domain (R52, R170, R474): the REVERSE and collapse cause bits, the retention slots in use (oldest first, at
most four), the loss summary as PWR_LAST_LOSS and PWR_LAST_LOSS_MS, the copied LIMP latch, and the causes (Table 7-8) of a
wake that waits for BAT_M to qualify (R32). -/
structure Aon where
  reverse : Bool := false
  collapse : Bool := false
  slots : List BurRec := []
  summary : Option (Nat × Nat) := none
  limp : Bool := false
  wake : Nat := 0
  deriving DecidableEq, Repr

/-- The fields of a drawer's section 0x01 (Table 7-6, R176): KEYOFF_TIME in s, whether there is a standstill source,
WAKE_TIMER in minutes, the LIMP set, the lighting set of each mode 1–4, the claim list as valve and load channels. -/
structure SysSet where
  keyoff : Nat := 0
  still : Bool := false
  wakeTimer : Nat := 0
  limp : List Nat := []
  lights : List (List Nat) := []
  claimV : List Nat := []
  claimL : List Nat := []
  deriving DecidableEq, Repr

/-- Modes, drawers and start-up beside SYS_MODE: the filtered levels of IGN, WAKE, WAKE_SVC and SVC_EN, standstill; whether the
transition under way is automatic, and whether DORMANT entry is in its store steps; section 0x01, and the bytes of section 0x07; the drawer in use and how it
was selected (number, copy B, fallback, the pins' code, a pin undecided, none loaded); the start-up: in progress, its kind
(0 power-on, 1 wake, 2 core reset, 3 service restart), the step it stopped at, its wake cause. -/
structure SysSt where
  ign : Bool := false
  wake : Bool := false
  wakeSvc : Bool := false
  svcEn : Bool := false
  still : Bool := false
  auto : Bool := false
  storing : Bool := false
  cfg : SysSet := {}
  camSet : List Byte := []
  noise : List Word := []
  drawer : Nat := 0
  copyB : Bool := false
  fallback : Bool := false
  code : Nat := 0
  undecided : Bool := false
  noDrawer : Bool := false
  active : Bool := false
  kind : Nat := 0
  stopped : Nat := 0
  wakeCause : Nat := 0
  deriving DecidableEq, Repr

/-- SAF and TST beside their registers: when the watchdog was last served or started, and when the first key of TST_UNLOCK was
written (ns since power-on); for each check and instance the samples in a row on which its condition held; and when the
comparator self-test and the frequency test last ran. -/
structure Saf where
  kickAt : Nat := 0
  key : Option Nat := none
  run : SMap Nat := SMap.empty
  selfAt : Option Nat := none
  freqAt : Option Nat := none
  deriving DecidableEq, Repr

/-- A transfer of a Dumbwaiter channel (R137): the registers of its addresses and its count, whether each address is fixed,
whether it is paced, the beats of a burst, its number in the descriptor, and the addresses and the bytes left of what remains. -/
structure DwXfer where
  src : Nat
  dst : Nat
  n : Nat
  sfix : Bool
  dfix : Bool
  paced : Bool
  beats : Nat
  no : Nat
  sa : Nat
  da : Nat
  left : Nat
  deriving DecidableEq, Repr

/-- A burst whose write responses are awaited (R415, R416): its first address and length, its descriptor and transfer, the
attempts of an erring beat, and the first beat that the destination refuses or whose retries are spent. -/
structure DwOut where
  lo : Nat
  len : Nat
  desc : Nat
  no : Nat
  tries : Nat := 0
  bad : Option Nat := none
  late : Bool := false
  deriving DecidableEq, Repr

/-- A Dumbwaiter channel beside its registers: g1–g7, the index, a pending start's latched values, the request of the last
waitreq, the transfer under way, the transfers begun, bursts awaiting responses, the attempts of an erring read beat. -/
structure DwCh where
  g : SMap Dword := SMap.empty
  pc : Nat := 0
  start : Option (List Dword) := none
  req : Option Nat := none
  xfer : Option DwXfer := none
  no : Nat := 0
  out : List DwOut := []
  tries : Nat := 0
  deriving DecidableEq, Repr

/-- The Dumbwaiter beside its registers: channels, the channel last granted at each priority (plus 1), and of each part-read
stream its reader, the words read, and the time marks held at the entry's first read (R413). -/
structure Dmw where
  ch : SMap DwCh := SMap.empty
  last : SMap Nat := SMap.empty
  part : SMap (Nat × Nat × Nat) := SMap.empty
  deriving DecidableEq, Repr

/-- The request that the storage queue executes (R151): its entry's address, and whether TAIL stands at it; a write of EN = 1 moves
TAIL on to HEAD. -/
structure StqRun where
  addr : Nat
  atTail : Bool
  deriving DecidableEq, Repr

/-- The whole machine. -/
structure State where
  regs : RegFile := {}
  mem : SMap Byte := SMap.empty
  resp : Resp := .none
  clk : Clock := {}
  now : Nat := 0
  free : Nat := 0
  mail : SMap Mail := SMap.empty
  pgh : Pgh := {}
  fifo : SMap (List Dword) := SMap.empty
  cpus : SMap Cpu := SMap.empty
  tlb : SMap (List Tlb) := SMap.empty
  psync : SMap (List PtSync) := SMap.empty
  sbuf : SMap (List (Nat × List Byte)) := SMap.empty
  pickLast : SMap Nat := SMap.empty
  ports : SMap (Option Dword) := SMap.empty
  poison : SMap Bool := SMap.empty
  latent : SMap Nat := SMap.empty
  ceAt : Option Nat := none
  bur : Bur := {}
  sys : SysSt := {}
  lsw : Lsw := {}
  vlv : Vlv := {}
  lpe : Lpe := {}
  emmc : SMap Byte := SMap.empty
  aio : Aio := {}
  map : MapSt := {}
  tbl : Tbl := {}
  can : SMap CanCh := SMap.empty
  eth : Eth := {}
  pace : Pace := {}
  cam : Cam := {}
  upd : Upd := {}
  svc : List Session := []
  cart : Cart := {}
  pnl : Pnl := {}
  tim : Tim := {}
  gns : Gns := {}
  nv : Nv := {}
  pwr : Pwr := {}
  aon : Aon := {}
  saf : Saf := {}
  stq : Option StqRun := none
  dmw : Dmw := {}
  pending : List Instr := []
  deriving DecidableEq, Repr

/-- Why the machine stops with a fault. -/
inductive Fault where
  /-- No meaning raises it: every fault the spec describes is state (a trap taken, a status bit, a result code). Safe. -/
  | unused
  deriving DecidableEq, Repr

/-- Why a command has no meaning. -/
inductive Refusal where
  /-- Raised by the arms of Dispatch.lean for a command not modelled. Safe. -/
  | notModelled (mnemonic : String)
  deriving DecidableEq, Repr

/-- The machine after a power-on reset: every register at its reset value (nothing listed), memory zero. -/
def State.reset : State := {}

end Sys2Proof.Machine
end

