-- ==== Sys2Proof/Machine/Fields.lean ====
section
/-! DEFINITION. One field of the state set, the others as they are. -/

namespace Sys2Proof.Machine

/-- The state with field `mem` set. -/
def State.putMem (s : State) (x : SMap Byte) : State := { s with mem := x }

/-- The state with field `resp` set. -/
def State.putResp (s : State) (x : Resp) : State := { s with resp := x }

/-- The state with field `clk` set. -/
def State.putClk (s : State) (x : Clock) : State := { s with clk := x }

/-- The state with field `now` set. -/
def State.putNow (s : State) (x : Nat) : State := { s with now := x }

/-- The state with field `free` set. -/
def State.putFree (s : State) (x : Nat) : State := { s with free := x }

/-- The state with field `mail` set. -/
def State.putMail (s : State) (x : SMap Mail) : State := { s with mail := x }

/-- The state with field `pgh` set. -/
def State.putPgh (s : State) (x : Pgh) : State := { s with pgh := x }

/-- The state with field `fifo` set. -/
def State.putFifo (s : State) (x : SMap (List Dword)) : State := { s with fifo := x }

/-- The state with field `cpus` set. -/
def State.putCpus (s : State) (x : SMap Cpu) : State := { s with cpus := x }

/-- The state with field `tlb` set. -/
def State.putTlb (s : State) (x : SMap (List Tlb)) : State := { s with tlb := x }

/-- The state with field `psync` set. -/
def State.putPsync (s : State) (x : SMap (List PtSync)) : State := { s with psync := x }

/-- The state with field `sbuf` set. -/
def State.putSbuf (s : State) (x : SMap (List (Nat × List Byte))) : State := { s with sbuf := x }

/-- The state with field `pickLast` set. -/
def State.putPickLast (s : State) (x : SMap Nat) : State := { s with pickLast := x }

/-- The state with field `ports` set. -/
def State.putPorts (s : State) (x : SMap (Option Dword)) : State := { s with ports := x }

/-- The state with field `poison` set. -/
def State.putPoison (s : State) (x : SMap Bool) : State := { s with poison := x }

/-- The state with field `latent` set. -/
def State.putLatent (s : State) (x : SMap Nat) : State := { s with latent := x }

/-- The state with field `ceAt` set. -/
def State.putCeAt (s : State) (x : Option Nat) : State := { s with ceAt := x }

/-- The state with field `bur` set. -/
def State.putBur (s : State) (x : Bur) : State := { s with bur := x }

/-- The state with field `sys` set. -/
def State.putSys (s : State) (x : SysSt) : State := { s with sys := x }

/-- The state with field `lsw` set. -/
def State.putLsw (s : State) (x : Lsw) : State := { s with lsw := x }

/-- The state with field `vlv` set. -/
def State.putVlv (s : State) (x : Vlv) : State := { s with vlv := x }

/-- The state with field `lpe` set. -/
def State.putLpe (s : State) (x : Lpe) : State := { s with lpe := x }

/-- The state with field `emmc` set. -/
def State.putEmmc (s : State) (x : SMap Byte) : State := { s with emmc := x }

/-- The state with field `aio` set. -/
def State.putAio (s : State) (x : Aio) : State := { s with aio := x }

/-- The state with field `map` set. -/
def State.putMap (s : State) (x : MapSt) : State := { s with map := x }

/-- The state with field `tbl` set. -/
def State.putTbl (s : State) (x : Tbl) : State := { s with tbl := x }

/-- The state with field `can` set. -/
def State.putCan (s : State) (x : SMap CanCh) : State := { s with can := x }

/-- The state with field `eth` set. -/
def State.putEth (s : State) (x : Eth) : State := { s with eth := x }

/-- The state with field `pace` set. -/
def State.putPace (s : State) (x : Pace) : State := { s with pace := x }

/-- The state with field `cam` set. -/
def State.putCam (s : State) (x : Cam) : State := { s with cam := x }

/-- The state with field `upd` set. -/
def State.putUpd (s : State) (x : Upd) : State := { s with upd := x }

/-- The state with field `svc` set. -/
def State.putSvc (s : State) (x : List Session) : State := { s with svc := x }

/-- The state with field `cart` set. -/
def State.putCart (s : State) (x : Cart) : State := { s with cart := x }

/-- The state with field `pnl` set. -/
def State.putPnl (s : State) (x : Pnl) : State := { s with pnl := x }

/-- The state with field `tim` set. -/
def State.putTim (s : State) (x : Tim) : State := { s with tim := x }

/-- The state with field `gns` set. -/
def State.putGns (s : State) (x : Gns) : State := { s with gns := x }

/-- The state with field `nv` set. -/
def State.putNv (s : State) (x : Nv) : State := { s with nv := x }

/-- The state with field `pwr` set. -/
def State.putPwr (s : State) (x : Pwr) : State := { s with pwr := x }

/-- The state with field `aon` set. -/
def State.putAon (s : State) (x : Aon) : State := { s with aon := x }

/-- The state with field `saf` set. -/
def State.putSaf (s : State) (x : Saf) : State := { s with saf := x }

/-- The state with field `stq` set. -/
def State.putStq (s : State) (x : Option StqRun) : State := { s with stq := x }

/-- The state with field `dmw` set. -/
def State.putDmw (s : State) (x : Dmw) : State := { s with dmw := x }

end Sys2Proof.Machine
end

