-- ==== Sys2Proof/Machine/Bits.lean ====
section
/-! DEFINITION. Bit fields, byte orders, saturation and the checks (CRC-16, CRC-32, CRC-32C) that the spec's registers
and records use. Bit fields are written [hi:lo] as in the spec's tables. -/

namespace Sys2Proof.Machine

/-- Field [hi:lo] of a word, as a number. -/
def fld (w : Word) (hi lo : Nat) : Nat := (w.toNat >>> lo) % 2 ^ (hi + 1 - lo)

/-- Field [hi:lo] of a 64-bit word as a number. -/
def dfld (w hi lo : Nat) : Nat := (w >>> lo) % 2 ^ (hi + 1 - lo)

/-- Field [hi:lo] of a word read as two's complement. -/
def sfld (w : Word) (hi lo : Nat) : Int :=
  let v := fld w hi lo
  if v < 2 ^ (hi - lo) then (v : Int) else (v : Int) - 2 ^ (hi + 1 - lo)

/-- The mask of field [hi:lo]. -/
def fldMask (hi lo : Nat) : Word := BitVec.ofNat 32 ((2 ^ (hi + 1 - lo) - 1) <<< lo)

/-- A word with field [hi:lo] replaced. -/
def setFld (w : Word) (hi lo v : Nat) : Word :=
  (w &&& ~~~ (fldMask hi lo)) ||| BitVec.ofNat 32 ((v % 2 ^ (hi + 1 - lo)) <<< lo)

/-- Bit `i` of a word. -/
def bitOf (w : Word) (i : Nat) : Bool := w.toNat.testBit i

/-- A word with bit `i` set to `b`. -/
def putBit (w : Word) (i : Nat) (b : Bool) : Word := setFld w i i (if b then 1 else 0)

/-- 1 for true, 0 for false. -/
def b2n (b : Bool) : Nat := if b then 1 else 0

/-- A value limited to `lo`–`hi`. -/
def clampN (lo hi v : Nat) : Nat := if v < lo then lo else if hi < v then hi else v

/-- An integer limited to `lo`–`hi`. -/
def clampI (lo hi v : Int) : Int := if v < lo then lo else if hi < v then hi else v

/-- Addition that saturates at `m`. -/
def satAdd (m a b : Nat) : Nat := if m < a + b then m else a + b

/-- A 32-bit word from an integer, modulo 2^32. -/
def wordI (i : Int) : Word := BitVec.ofInt 32 i

/-- A 32-bit word from a number, modulo 2^32. -/
def wordN (n : Nat) : Word := BitVec.ofNat 32 n

/-- An 8-bit byte from a number, modulo 256. -/
def byteN (n : Nat) : Byte := BitVec.ofNat 8 n

/-- A number as two's complement of `w` bits. -/
def toSigned (w : Nat) (n : Nat) : Int :=
  let v := n % 2 ^ w
  if v < 2 ^ (w - 1) then (v : Int) else (v : Int) - 2 ^ w

/-- The low `w` bits of an integer. -/
def ofSigned (w : Nat) (i : Int) : Nat := (i % (2 ^ w : Int)).toNat

/-- The `n` low bytes of a number, least significant first: the module is little-endian. -/
def leBytes : Nat → Nat → List Byte
  | 0, _ => []
  | n + 1, v => BitVec.ofNat 8 v :: leBytes n (v / 256)

/-- The number that a list of bytes spells, least significant byte first. -/
def leNat : List Byte → Nat
  | [] => 0
  | b :: t => b.toNat + 256 * leNat t

/-- One bit step of a reflected CRC with polynomial `p`. -/
def crcBit (p c : Nat) : Nat := if c % 2 = 1 then (c / 2) ^^^ p else c / 2

/-- `n` bit steps of a reflected CRC. -/
def crcBits (p : Nat) : Nat → Nat → Nat
  | 0, c => c
  | n + 1, c => crcBits p n (crcBit p c)

/-- A reflected 32-bit CRC over bytes, from the running value `c`. -/
def crcRefl (p : Nat) : List Byte → Nat → Nat
  | [], c => c
  | b :: t, c => crcRefl p t (crcBits p 8 (c ^^^ b.toNat))

/-- CRC-32C (reflected polynomial 0x82F63B78, initial and final inversion). -/
def crc32c (bs : List Byte) : Nat := crcRefl 0x82F63B78 bs 0xFFFFFFFF ^^^ 0xFFFFFFFF

/-- CRC-32 (reflected polynomial 0xEDB88320, initial and final inversion). -/
def crc32 (bs : List Byte) : Nat := crcRefl 0xEDB88320 bs 0xFFFFFFFF ^^^ 0xFFFFFFFF

/-- One bit step of the CRC-16 of polynomial 0x1021, most significant bit first. -/
def crc16Bit (c : Nat) : Nat :=
  if c.testBit 15 then ((c * 2) % 65536) ^^^ 0x1021 else (c * 2) % 65536

/-- `n` bit steps of that CRC-16. -/
def crc16Bits : Nat → Nat → Nat
  | 0, c => c
  | n + 1, c => crc16Bits n (crc16Bit c)

/-- CRC-16 of polynomial 0x1021 over bytes, from the running value `c`. -/
def crc16From : List Byte → Nat → Nat
  | [], c => c
  | b :: t, c => crc16From t (crc16Bits 8 (c ^^^ (b.toNat * 256)))

/-- CRC-16, polynomial 0x1021, initial value 0xFFFF (R442). -/
def crc16 (bs : List Byte) : Nat := crc16From bs 0xFFFF

/-- Division of an integer, rounded to nearest with ties towards +∞ (R130). -/
def roundDiv (a : Int) (b : Nat) : Int := (2 * a + b) / (2 * (b : Int))

/-- The list 0, 1, …, n − 1. -/
def upto (n : Nat) : List Nat := List.range n

/-- The bits set in the low `n` bits of a mask, lowest first. -/
def bitsOf (mask n : Nat) : List Nat := (upto n).filter (fun i => mask.testBit i)

end Sys2Proof.Machine
end

