-- ==== Sys2Proof/Machine/RegMap.lean ====
section
/-! DEFINITION. The register maps of the 22 blocks, row by row from the tables "Offset | Register | Access | Reset |
Meaning" of spec/02 to spec/20: one abbreviation per register (its offset in the block's window, with its instance
numbers) and one row of the map (access type, writable bits, clamped fields, reset value, power-stage domain, drawer). A reset
value "drawer" is 0, or the power-on value its Meaning gives (R6); "from MRAM" and "from U01" start at 0. -/

namespace Sys2Proof.Machine

/-- The access types of Table 0-5. -/
inductive Access where
  | rw | ro | w1c | w1s | wo | rwp
  deriving DecidableEq, Repr

/-- One row of a register map. `dims` gives (stride, count) of each instance number; `clamps` gives (hi, lo, least,
most) of each clamped field, `drw`: the drawer loads it (R6). -/
structure RegRow where
  off : Nat
  dims : List (Nat × Nat)
  acc : Access
  mask : Nat
  clamps : List (Nat × Nat × Nat × Nat)
  reset : Nat
  ps : Bool
  drw : Bool
  deriving DecidableEq, Repr

/-- PWR_CMD: WO (spec/02_supply_holdup.md). -/
abbrev PWR_CMD : Nat := 0x0
/-- PWR_CMD_ARG0-ARG3: RW (spec/02_supply_holdup.md). -/
abbrev PWR_CMD_ARG (n : Nat) : Nat := 0x4 + 0x4 * n
/-- PWR_CMD_STS: RO (spec/02_supply_holdup.md). -/
abbrev PWR_CMD_STS : Nat := 0x14
/-- PWR_PROTECT: RW (spec/02_supply_holdup.md). -/
abbrev PWR_PROTECT : Nat := 0x18
/-- PWR_STATUS: RO (spec/02_supply_holdup.md). -/
abbrev PWR_STATUS : Nat := 0x20
/-- PWR_EVENT: W1C (spec/02_supply_holdup.md). -/
abbrev PWR_EVENT : Nat := 0x24
/-- PWR_EVENT_EN: RW (spec/02_supply_holdup.md). -/
abbrev PWR_EVENT_EN : Nat := 0x28
/-- PWR_VOLT[n] (n = 0–5): RO (spec/02_supply_holdup.md). -/
abbrev PWR_VOLT (n : Nat) : Nat := 0x30 + 0x4 * n
/-- PWR_BANK_MEAS: RO (spec/02_supply_holdup.md). -/
abbrev PWR_BANK_MEAS : Nat := 0x50
/-- PWR_BANK_ENERGY: RO (spec/02_supply_holdup.md). -/
abbrev PWR_BANK_ENERGY : Nat := 0x54
/-- PWR_BANK_TEMP: RO (spec/02_supply_holdup.md). -/
abbrev PWR_BANK_TEMP : Nat := 0x58
/-- PWR_CFG: RWP (spec/02_supply_holdup.md). -/
abbrev PWR_CFG : Nat := 0x60
/-- PWR_LOSS_CFG: RWP (spec/02_supply_holdup.md). -/
abbrev PWR_LOSS_CFG : Nat := 0x64
/-- PWR_CHARGE_CFG: RWP (spec/02_supply_holdup.md). -/
abbrev PWR_CHARGE_CFG : Nat := 0x68
/-- PWR_LAST_LOSS: RO (spec/02_supply_holdup.md). -/
abbrev PWR_LAST_LOSS : Nat := 0x70
/-- PWR_LAST_LOSS_MS: RO (spec/02_supply_holdup.md). -/
abbrev PWR_LAST_LOSS_MS : Nat := 0x74
/-- PWR_OFFTIME: RO (spec/02_supply_holdup.md). -/
abbrev PWR_OFFTIME : Nat := 0x78
/-- PWR_RIDE: RO (spec/02_supply_holdup.md). -/
abbrev PWR_RIDE : Nat := 0x7C
/-- PWR_TORN: RO (spec/02_supply_holdup.md). -/
abbrev PWR_TORN : Nat := 0x80
/-- PACE_CMD: WO (spec/03_self_timed_fabric.md). -/
abbrev PACE_CMD : Nat := 0x0
/-- PACE_CMD_ARG0-ARG3: RW (spec/03_self_timed_fabric.md). -/
abbrev PACE_CMD_ARG (i : Nat) : Nat := 0x4 + 0x4 * i
/-- PACE_CMD_STS: RO (spec/03_self_timed_fabric.md). -/
abbrev PACE_CMD_STS : Nat := 0x14
/-- PACE_PROTECT: RW (spec/03_self_timed_fabric.md). -/
abbrev PACE_PROTECT : Nat := 0x18
/-- PACE_STATUS: RO (spec/03_self_timed_fabric.md). -/
abbrev PACE_STATUS : Nat := 0x20
/-- PACE_EVENT: W1C (spec/03_self_timed_fabric.md). -/
abbrev PACE_EVENT : Nat := 0x24
/-- PACE_EVENT_EN: RW (spec/03_self_timed_fabric.md). -/
abbrev PACE_EVENT_EN : Nat := 0x28
/-- PACE_VCORE_TARGET: RWP (spec/03_self_timed_fabric.md). -/
abbrev PACE_VCORE_TARGET : Nat := 0x30
/-- PACE_VCORE_NOW: RO (spec/03_self_timed_fabric.md). -/
abbrev PACE_VCORE_NOW : Nat := 0x34
/-- PACE_VCORE_CFG: RWP (spec/03_self_timed_fabric.md). -/
abbrev PACE_VCORE_CFG : Nat := 0x38
/-- PACE_REF: RO (spec/03_self_timed_fabric.md). -/
abbrev PACE_REF : Nat := 0x40
/-- PACE_XC_THRESH: RW (spec/03_self_timed_fabric.md). -/
abbrev PACE_XC_THRESH : Nat := 0x44
/-- PACE_XC_FIRST: RO (spec/03_self_timed_fabric.md). -/
abbrev PACE_XC_FIRST : Nat := 0x48
/-- PACE_PM[n]_CYCLE: RO (spec/03_self_timed_fabric.md). -/
abbrev PACE_PM_CYCLE (n : Nat) : Nat := 0x100 + 0x10 * n
/-- PACE_PM[n]_MINMAX: RO (spec/03_self_timed_fabric.md). -/
abbrev PACE_PM_MINMAX (n : Nat) : Nat := 0x104 + 0x10 * n
/-- PACE_PM[n]_RATIO: RO (spec/03_self_timed_fabric.md). -/
abbrev PACE_PM_RATIO (n : Nat) : Nat := 0x108 + 0x10 * n
/-- PACE_PM[n]_CEIL: RW (spec/03_self_timed_fabric.md). -/
abbrev PACE_PM_CEIL (n : Nat) : Nat := 0x10C + 0x10 * n
/-- PACE_ISL[k]_CTRL: RW (spec/03_self_timed_fabric.md). -/
abbrev PACE_ISL_CTRL (k : Nat) : Nat := 0x400 + 0x10 * k
/-- PACE_ISL[k]_STATUS: RO (spec/03_self_timed_fabric.md). -/
abbrev PACE_ISL_STATUS (k : Nat) : Nat := 0x404 + 0x10 * k
/-- PACE_ISL[k]_FREQ: RO (spec/03_self_timed_fabric.md). -/
abbrev PACE_ISL_FREQ (k : Nat) : Nat := 0x408 + 0x10 * k
/-- PACE_XC[m]_CNT: RO (spec/03_self_timed_fabric.md). -/
abbrev PACE_XC_CNT (m : Nat) : Nat := 0x800 + 0x4 * m
/-- SYS_CMD: WO (spec/06_address_map_pigeonholes.md). -/
abbrev SYS_CMD : Nat := 0x0
/-- SYS_CMD_ARG0-ARG3: RW (spec/06_address_map_pigeonholes.md). -/
abbrev SYS_CMD_ARG (i : Nat) : Nat := 0x4 + 0x4 * i
/-- SYS_CMD_STS: RO (spec/06_address_map_pigeonholes.md). -/
abbrev SYS_CMD_STS : Nat := 0x14
/-- SYS_PROTECT: RW (spec/06_address_map_pigeonholes.md). -/
abbrev SYS_PROTECT : Nat := 0x18
/-- SYS_ID: RO (spec/06_address_map_pigeonholes.md). -/
abbrev SYS_ID : Nat := 0x20
/-- SYS_EVENT: W1C (spec/06_address_map_pigeonholes.md). -/
abbrev SYS_EVENT : Nat := 0x24
/-- SYS_EVENT_EN: RW (spec/06_address_map_pigeonholes.md). -/
abbrev SYS_EVENT_EN : Nat := 0x28
/-- SYS_MODE: RO (spec/06_address_map_pigeonholes.md). -/
abbrev SYS_MODE : Nat := 0x2C
/-- SYS_RESET_CAUSE: RO (spec/06_address_map_pigeonholes.md). -/
abbrev SYS_RESET_CAUSE : Nat := 0x30
/-- SYS_ECC_CFG: RWP (spec/06_address_map_pigeonholes.md). -/
abbrev SYS_ECC_CFG : Nat := 0x40
/-- SYS_ECC_CE_DRAM: RO (spec/06_address_map_pigeonholes.md). -/
abbrev SYS_ECC_CE_DRAM : Nat := 0x44
/-- SYS_ECC_UE_DRAM: RO (spec/06_address_map_pigeonholes.md). -/
abbrev SYS_ECC_UE_DRAM : Nat := 0x48
/-- SYS_ECC_TILE: RO (spec/06_address_map_pigeonholes.md). -/
abbrev SYS_ECC_TILE : Nat := 0x4C
/-- SYS_ECC_TBL: RO (spec/06_address_map_pigeonholes.md). -/
abbrev SYS_ECC_TBL : Nat := 0x50
/-- SYS_ECC_LAST_LO: RO (spec/06_address_map_pigeonholes.md). -/
abbrev SYS_ECC_LAST_LO : Nat := 0x54
/-- SYS_ECC_LAST_HI: RO (spec/06_address_map_pigeonholes.md). -/
abbrev SYS_ECC_LAST_HI : Nat := 0x58
/-- SYS_POISONED: RO (spec/06_address_map_pigeonholes.md). -/
abbrev SYS_POISONED : Nat := 0x5C
/-- SYS_STQ_BASE_LO: RW (spec/06_address_map_pigeonholes.md). -/
abbrev SYS_STQ_BASE_LO : Nat := 0x60
/-- SYS_STQ_BASE_HI: RW (spec/06_address_map_pigeonholes.md). -/
abbrev SYS_STQ_BASE_HI : Nat := 0x64
/-- SYS_STQ_CFG: RW (spec/06_address_map_pigeonholes.md). -/
abbrev SYS_STQ_CFG : Nat := 0x68
/-- SYS_STQ_HEAD: RW (spec/06_address_map_pigeonholes.md). -/
abbrev SYS_STQ_HEAD : Nat := 0x6C
/-- SYS_STQ_TAIL: RO (spec/06_address_map_pigeonholes.md). -/
abbrev SYS_STQ_TAIL : Nat := 0x70
/-- SYS_MRAM_USER: RO (spec/06_address_map_pigeonholes.md). -/
abbrev SYS_MRAM_USER : Nat := 0x74
/-- SYS_NOR_USER: RO (spec/06_address_map_pigeonholes.md). -/
abbrev SYS_NOR_USER : Nat := 0x78
/-- SYS_EMMC_USER_BASE: RO (spec/06_address_map_pigeonholes.md). -/
abbrev SYS_EMMC_USER_BASE : Nat := 0x7C
/-- SYS_EMMC_USER_SIZE: RO (spec/06_address_map_pigeonholes.md). -/
abbrev SYS_EMMC_USER_SIZE : Nat := 0x80
/-- SYS_HOST[c]_STATUS: RO (spec/06_address_map_pigeonholes.md). -/
abbrev SYS_HOST_STATUS (c : Nat) : Nat := 0xA0 + 0x4 * c
/-- SYS_TILE[t]_STATE: RO (spec/06_address_map_pigeonholes.md). -/
abbrev SYS_TILE_STATE (t : Nat) : Nat := 0x100 + 0x4 * t
/-- PGH_PROTECT: RW (spec/06_address_map_pigeonholes.md). -/
abbrev PGH_PROTECT : Nat := 0x18
/-- PGH_STATUS: RO (spec/06_address_map_pigeonholes.md). -/
abbrev PGH_STATUS : Nat := 0x20
/-- PGH_CLEAR: WO (spec/06_address_map_pigeonholes.md). -/
abbrev PGH_CLEAR : Nat := 0x24
/-- PGH_ROUTE[p]: RWP (spec/06_address_map_pigeonholes.md). -/
abbrev PGH_ROUTE (p : Nat) : Nat := 0x100 + 0x4 * p
/-- PGH_CNT[p]: RO (spec/06_address_map_pigeonholes.md). -/
abbrev PGH_CNT (p : Nat) : Nat := 0x500 + 0x4 * p
/-- PGH_PEND[i]: RO (spec/06_address_map_pigeonholes.md). -/
abbrev PGH_PEND (i : Nat) : Nat := 0x900 + 0x4 * i
/-- PGH_RAISE[i]: WO (spec/06_address_map_pigeonholes.md). -/
abbrev PGH_RAISE (i : Nat) : Nat := 0x920 + 0x4 * i
/-- PGH_CORE[c]_CLAIM_S: RO (spec/06_address_map_pigeonholes.md). -/
abbrev PGH_CORE_CLAIM_S (c : Nat) : Nat := 0xA00 + 0x10 * c
/-- PGH_CORE[c]_CLAIM_M: RO (spec/06_address_map_pigeonholes.md). -/
abbrev PGH_CORE_CLAIM_M (c : Nat) : Nat := 0xA04 + 0x10 * c
/-- PGH_CORE[c]_SWI: WO (spec/06_address_map_pigeonholes.md). -/
abbrev PGH_CORE_SWI (c : Nat) : Nat := 0xA08 + 0x10 * c
/-- CAM_CMD: WO (spec/08_camera_pipeline.md). -/
abbrev CAM_CMD : Nat := 0x0
/-- CAM_CMD_ARG0-ARG3: RW (spec/08_camera_pipeline.md). -/
abbrev CAM_CMD_ARG (i : Nat) : Nat := 0x4 + 0x4 * i
/-- CAM_CMD_STS: RO (spec/08_camera_pipeline.md). -/
abbrev CAM_CMD_STS : Nat := 0x14
/-- CAM_PROTECT: RW (spec/08_camera_pipeline.md). -/
abbrev CAM_PROTECT : Nat := 0x18
/-- CAM_STATUS: RO (spec/08_camera_pipeline.md). -/
abbrev CAM_STATUS : Nat := 0x20
/-- CAM_EVENT: W1C (spec/08_camera_pipeline.md). -/
abbrev CAM_EVENT : Nat := 0x24
/-- CAM_EVENT_EN: RW (spec/08_camera_pipeline.md). -/
abbrev CAM_EVENT_EN : Nat := 0x28
/-- CAM_CFG: RWP (spec/08_camera_pipeline.md). -/
abbrev CAM_CFG : Nat := 0x30
/-- CAM_DROP_LAST: RO (spec/08_camera_pipeline.md). -/
abbrev CAM_DROP_LAST : Nat := 0x34
/-- CAM_DROP_FRAME: RO (spec/08_camera_pipeline.md). -/
abbrev CAM_DROP_FRAME : Nat := 0x38
/-- CAM_TP_STATUS: RO (spec/08_camera_pipeline.md). -/
abbrev CAM_TP_STATUS : Nat := 0x40
/-- CAM_TP_REF: RO (spec/08_camera_pipeline.md). -/
abbrev CAM_TP_REF : Nat := 0x44
/-- CAM_TP_SKIP: RO (spec/08_camera_pipeline.md). -/
abbrev CAM_TP_SKIP : Nat := 0x48
/-- CAM_L[j]_CFG: RW (spec/08_camera_pipeline.md). -/
abbrev CAM_L_CFG (j : Nat) : Nat := 0x100 + 0x20 * j
/-- CAM_L[j]_STATUS: RO (spec/08_camera_pipeline.md). -/
abbrev CAM_L_STATUS (j : Nat) : Nat := 0x104 + 0x20 * j
/-- CAM_L[j]_RETX: RO (spec/08_camera_pipeline.md). -/
abbrev CAM_L_RETX (j : Nat) : Nat := 0x108 + 0x20 * j
/-- CAM_L[j]_ECC: RO (spec/08_camera_pipeline.md). -/
abbrev CAM_L_ECC (j : Nat) : Nat := 0x10C + 0x20 * j
/-- CAM_L[j]_DISCARD: RO (spec/08_camera_pipeline.md). -/
abbrev CAM_L_DISCARD (j : Nat) : Nat := 0x110 + 0x20 * j
/-- CAM_C[n]_CTRL: RW (spec/08_camera_pipeline.md). -/
abbrev CAM_C_CTRL (n : Nat) : Nat := 0x400 + 0x80 * n
/-- CAM_C[n]_SIZE: RW (spec/08_camera_pipeline.md). -/
abbrev CAM_C_SIZE (n : Nat) : Nat := 0x404 + 0x80 * n
/-- CAM_C[n]_DT: RW (spec/08_camera_pipeline.md). -/
abbrev CAM_C_DT (n : Nat) : Nat := 0x408 + 0x80 * n
/-- CAM_C[n]_TRIG_PERIOD: RW (spec/08_camera_pipeline.md). -/
abbrev CAM_C_TRIG_PERIOD (n : Nat) : Nat := 0x40C + 0x80 * n
/-- CAM_C[n]_TRIG_PHASE: RW (spec/08_camera_pipeline.md). -/
abbrev CAM_C_TRIG_PHASE (n : Nat) : Nat := 0x410 + 0x80 * n
/-- CAM_C[n]_PARAM_BASE_LO: RW (spec/08_camera_pipeline.md). -/
abbrev CAM_C_PARAM_BASE_LO (n : Nat) : Nat := 0x414 + 0x80 * n
/-- CAM_C[n]_PARAM_BASE_HI: RW (spec/08_camera_pipeline.md). -/
abbrev CAM_C_PARAM_BASE_HI (n : Nat) : Nat := 0x418 + 0x80 * n
/-- CAM_C[n]_RAW_BASE_LO: RW (spec/08_camera_pipeline.md). -/
abbrev CAM_C_RAW_BASE_LO (n : Nat) : Nat := 0x41C + 0x80 * n
/-- CAM_C[n]_RAW_BASE_HI: RW (spec/08_camera_pipeline.md). -/
abbrev CAM_C_RAW_BASE_HI (n : Nat) : Nat := 0x420 + 0x80 * n
/-- CAM_C[n]_RAW_CFG: RW (spec/08_camera_pipeline.md). -/
abbrev CAM_C_RAW_CFG (n : Nat) : Nat := 0x424 + 0x80 * n
/-- CAM_C[n]_OUT_BASE_LO: RW (spec/08_camera_pipeline.md). -/
abbrev CAM_C_OUT_BASE_LO (n : Nat) : Nat := 0x428 + 0x80 * n
/-- CAM_C[n]_OUT_BASE_HI: RW (spec/08_camera_pipeline.md). -/
abbrev CAM_C_OUT_BASE_HI (n : Nat) : Nat := 0x42C + 0x80 * n
/-- CAM_C[n]_OUT_CFG: RW (spec/08_camera_pipeline.md). -/
abbrev CAM_C_OUT_CFG (n : Nat) : Nat := 0x430 + 0x80 * n
/-- CAM_C[n]_STATS_BASE_LO: RW (spec/08_camera_pipeline.md). -/
abbrev CAM_C_STATS_BASE_LO (n : Nat) : Nat := 0x434 + 0x80 * n
/-- CAM_C[n]_STATS_BASE_HI: RW (spec/08_camera_pipeline.md). -/
abbrev CAM_C_STATS_BASE_HI (n : Nat) : Nat := 0x438 + 0x80 * n
/-- CAM_C[n]_STATS_CFG: RW (spec/08_camera_pipeline.md). -/
abbrev CAM_C_STATS_CFG (n : Nat) : Nat := 0x43C + 0x80 * n
/-- CAM_C[n]_ENC: RW (spec/08_camera_pipeline.md). -/
abbrev CAM_C_ENC (n : Nat) : Nat := 0x440 + 0x80 * n
/-- CAM_C[n]_FRAME_NO: RO (spec/08_camera_pipeline.md). -/
abbrev CAM_C_FRAME_NO (n : Nat) : Nat := 0x444 + 0x80 * n
/-- CAM_C[n]_DONE_NO: RO (spec/08_camera_pipeline.md). -/
abbrev CAM_C_DONE_NO (n : Nat) : Nat := 0x448 + 0x80 * n
/-- CAM_C[n]_STATUS: RO (spec/08_camera_pipeline.md). -/
abbrev CAM_C_STATUS (n : Nat) : Nat := 0x44C + 0x80 * n
/-- CAM_C[n]_CRC_CNT: RO (spec/08_camera_pipeline.md). -/
abbrev CAM_C_CRC_CNT (n : Nat) : Nat := 0x450 + 0x80 * n
/-- CAM_C[n]_SL_CNT: RO (spec/08_camera_pipeline.md). -/
abbrev CAM_C_SL_CNT (n : Nat) : Nat := 0x454 + 0x80 * n
/-- CAM_C[n]_DROP_CNT: RO (spec/08_camera_pipeline.md). -/
abbrev CAM_C_DROP_CNT (n : Nat) : Nat := 0x458 + 0x80 * n
/-- CAM_C[n]_LEN_ERR_CNT: RO (spec/08_camera_pipeline.md). -/
abbrev CAM_C_LEN_ERR_CNT (n : Nat) : Nat := 0x45C + 0x80 * n
/-- CAM_C[n]_SOF_LO: RO (spec/08_camera_pipeline.md). -/
abbrev CAM_C_SOF_LO (n : Nat) : Nat := 0x460 + 0x80 * n
/-- CAM_C[n]_SOF_HI: RO (spec/08_camera_pipeline.md). -/
abbrev CAM_C_SOF_HI (n : Nat) : Nat := 0x464 + 0x80 * n
/-- GNS_CMD: WO (spec/09_gnss_inertial_time.md). -/
abbrev GNS_CMD : Nat := 0x0
/-- GNS_CMD_ARG0-ARG3: RW (spec/09_gnss_inertial_time.md). -/
abbrev GNS_CMD_ARG (i : Nat) : Nat := 0x4 + 0x4 * i
/-- GNS_CMD_STS: RO (spec/09_gnss_inertial_time.md). -/
abbrev GNS_CMD_STS : Nat := 0x14
/-- GNS_PROTECT: RW (spec/09_gnss_inertial_time.md). -/
abbrev GNS_PROTECT : Nat := 0x18
/-- GNS_STATUS: RO (spec/09_gnss_inertial_time.md). -/
abbrev GNS_STATUS : Nat := 0x20
/-- GNS_EVENT: W1C (spec/09_gnss_inertial_time.md). -/
abbrev GNS_EVENT : Nat := 0x24
/-- GNS_EVENT_EN: RW (spec/09_gnss_inertial_time.md). -/
abbrev GNS_EVENT_EN : Nat := 0x28
/-- GNS_CFG: RWP (spec/09_gnss_inertial_time.md). -/
abbrev GNS_CFG : Nat := 0x30
/-- GNS_ANT[a]_CFG: RW (spec/09_gnss_inertial_time.md). -/
abbrev GNS_ANT_CFG (a : Nat) : Nat := 0x40 + 0x10 * a
/-- GNS_ANT[a]_STATUS: RO (spec/09_gnss_inertial_time.md). -/
abbrev GNS_ANT_STATUS (a : Nat) : Nat := 0x44 + 0x10 * a
/-- GNS_ANT[a]_AGC: RO (spec/09_gnss_inertial_time.md). -/
abbrev GNS_ANT_AGC (a : Nat) : Nat := 0x48 + 0x10 * a
/-- GNS_ACQ_BASE_LO: RW (spec/09_gnss_inertial_time.md). -/
abbrev GNS_ACQ_BASE_LO : Nat := 0x60
/-- GNS_ACQ_BASE_HI: RW (spec/09_gnss_inertial_time.md). -/
abbrev GNS_ACQ_BASE_HI : Nat := 0x64
/-- GNS_ACQ_CFG: RW (spec/09_gnss_inertial_time.md). -/
abbrev GNS_ACQ_CFG : Nat := 0x68
/-- GNS_ACQ_HEAD: RW (spec/09_gnss_inertial_time.md). -/
abbrev GNS_ACQ_HEAD : Nat := 0x6C
/-- GNS_ACQ_TAIL: RO (spec/09_gnss_inertial_time.md). -/
abbrev GNS_ACQ_TAIL : Nat := 0x70
/-- GNS_CHT_BASE_LO: RW (spec/09_gnss_inertial_time.md). -/
abbrev GNS_CHT_BASE_LO : Nat := 0x78
/-- GNS_CHT_BASE_HI: RW (spec/09_gnss_inertial_time.md). -/
abbrev GNS_CHT_BASE_HI : Nat := 0x7C
/-- GNS_MEAS_BASE_LO: RW (spec/09_gnss_inertial_time.md). -/
abbrev GNS_MEAS_BASE_LO : Nat := 0x80
/-- GNS_MEAS_BASE_HI: RW (spec/09_gnss_inertial_time.md). -/
abbrev GNS_MEAS_BASE_HI : Nat := 0x84
/-- GNS_MEAS_CFG: RW (spec/09_gnss_inertial_time.md). -/
abbrev GNS_MEAS_CFG : Nat := 0x88
/-- GNS_MEAS_NO: RO (spec/09_gnss_inertial_time.md). -/
abbrev GNS_MEAS_NO : Nat := 0x8C
/-- GNS_NAV_BASE_LO: RW (spec/09_gnss_inertial_time.md). -/
abbrev GNS_NAV_BASE_LO : Nat := 0x90
/-- GNS_NAV_BASE_HI: RW (spec/09_gnss_inertial_time.md). -/
abbrev GNS_NAV_BASE_HI : Nat := 0x94
/-- GNS_NAV_CFG: RW (spec/09_gnss_inertial_time.md). -/
abbrev GNS_NAV_CFG : Nat := 0x98
/-- GNS_NAV_SEQ: RO (spec/09_gnss_inertial_time.md). -/
abbrev GNS_NAV_SEQ : Nat := 0x9C
/-- GNS_IMU_BASE_LO: RW (spec/09_gnss_inertial_time.md). -/
abbrev GNS_IMU_BASE_LO : Nat := 0xA0
/-- GNS_IMU_BASE_HI: RW (spec/09_gnss_inertial_time.md). -/
abbrev GNS_IMU_BASE_HI : Nat := 0xA4
/-- GNS_IMU_CFG: RW (spec/09_gnss_inertial_time.md). -/
abbrev GNS_IMU_CFG : Nat := 0xA8
/-- GNS_IMU_HEAD: RO (spec/09_gnss_inertial_time.md). -/
abbrev GNS_IMU_HEAD : Nat := 0xAC
/-- GNS_SOL_BASE_LO: RW (spec/09_gnss_inertial_time.md). -/
abbrev GNS_SOL_BASE_LO : Nat := 0xB0
/-- GNS_SOL_BASE_HI: RW (spec/09_gnss_inertial_time.md). -/
abbrev GNS_SOL_BASE_HI : Nat := 0xB4
/-- GNS_SOL_CFG: RW (spec/09_gnss_inertial_time.md). -/
abbrev GNS_SOL_CFG : Nat := 0xB8
/-- GNS_RTCM_BASE_LO: RW (spec/09_gnss_inertial_time.md). -/
abbrev GNS_RTCM_BASE_LO : Nat := 0xC0
/-- GNS_RTCM_BASE_HI: RW (spec/09_gnss_inertial_time.md). -/
abbrev GNS_RTCM_BASE_HI : Nat := 0xC4
/-- GNS_RTCM_CFG: RW (spec/09_gnss_inertial_time.md). -/
abbrev GNS_RTCM_CFG : Nat := 0xC8
/-- GNS_EPH_BASE_LO: RW (spec/09_gnss_inertial_time.md). -/
abbrev GNS_EPH_BASE_LO : Nat := 0xD0
/-- GNS_EPH_BASE_HI: RW (spec/09_gnss_inertial_time.md). -/
abbrev GNS_EPH_BASE_HI : Nat := 0xD4
/-- GNS_EPH_LEN: RW (spec/09_gnss_inertial_time.md). -/
abbrev GNS_EPH_LEN : Nat := 0xD8
/-- GNS_CH_TRACK[i]: RO (spec/09_gnss_inertial_time.md). -/
abbrev GNS_CH_TRACK (i : Nat) : Nat := 0x100 + 0x4 * i
/-- GNS_CH_LOSS[i]: W1C (spec/09_gnss_inertial_time.md). -/
abbrev GNS_CH_LOSS (i : Nat) : Nat := 0x140 + 0x4 * i
/-- TIM_CMD: WO (spec/09_gnss_inertial_time.md). -/
abbrev TIM_CMD : Nat := 0x0
/-- TIM_CMD_ARG0-ARG3: RW (spec/09_gnss_inertial_time.md). -/
abbrev TIM_CMD_ARG (i : Nat) : Nat := 0x4 + 0x4 * i
/-- TIM_CMD_STS: RO (spec/09_gnss_inertial_time.md). -/
abbrev TIM_CMD_STS : Nat := 0x14
/-- TIM_PROTECT: RW (spec/09_gnss_inertial_time.md). -/
abbrev TIM_PROTECT : Nat := 0x18
/-- TIM_STATUS: RO (spec/09_gnss_inertial_time.md). -/
abbrev TIM_STATUS : Nat := 0x20
/-- TIM_EVENT: W1C (spec/09_gnss_inertial_time.md). -/
abbrev TIM_EVENT : Nat := 0x24
/-- TIM_EVENT_EN: RW (spec/09_gnss_inertial_time.md). -/
abbrev TIM_EVENT_EN : Nat := 0x28
/-- TIM_NOW_LO: RO (spec/09_gnss_inertial_time.md). -/
abbrev TIM_NOW_LO : Nat := 0x30
/-- TIM_NOW_HI: RO (spec/09_gnss_inertial_time.md). -/
abbrev TIM_NOW_HI : Nat := 0x34
/-- TIM_CFG: RWP (spec/09_gnss_inertial_time.md). -/
abbrev TIM_CFG : Nat := 0x38
/-- TIM_TMSG_ID: RW (spec/09_gnss_inertial_time.md). -/
abbrev TIM_TMSG_ID : Nat := 0x3C
/-- TIM_ACC: RO (spec/09_gnss_inertial_time.md). -/
abbrev TIM_ACC : Nat := 0x40
/-- TIM_LAST_STEP: RO (spec/09_gnss_inertial_time.md). -/
abbrev TIM_LAST_STEP : Nat := 0x44
/-- TIM_RATE: RO (spec/09_gnss_inertial_time.md). -/
abbrev TIM_RATE : Nat := 0x48
/-- TIM_HOLD_S: RO (spec/09_gnss_inertial_time.md). -/
abbrev TIM_HOLD_S : Nat := 0x4C
/-- TIM_UTC: RW (spec/09_gnss_inertial_time.md). -/
abbrev TIM_UTC : Nat := 0x50
/-- TIM_CORR_NS_LO: RW (spec/09_gnss_inertial_time.md). -/
abbrev TIM_CORR_NS_LO : Nat := 0x60
/-- TIM_CORR_NS_HI: RW (spec/09_gnss_inertial_time.md). -/
abbrev TIM_CORR_NS_HI : Nat := 0x64
/-- TIM_CORR_FRAC: RW (spec/09_gnss_inertial_time.md). -/
abbrev TIM_CORR_FRAC : Nat := 0x68
/-- TIM_CORR_ACC: RW (spec/09_gnss_inertial_time.md). -/
abbrev TIM_CORR_ACC : Nat := 0x6C
/-- TIM_CORR_GO: WO (spec/09_gnss_inertial_time.md). -/
abbrev TIM_CORR_GO : Nat := 0x70
/-- TIM_CORR_REJ: RO (spec/09_gnss_inertial_time.md). -/
abbrev TIM_CORR_REJ : Nat := 0x74
/-- TIM_TMARK_LO: RO (spec/09_gnss_inertial_time.md). -/
abbrev TIM_TMARK_LO : Nat := 0x80
/-- TIM_TMARK_HI: RO (spec/09_gnss_inertial_time.md). -/
abbrev TIM_TMARK_HI : Nat := 0x84
/-- TIM_TMARK_CNT: RO (spec/09_gnss_inertial_time.md). -/
abbrev TIM_TMARK_CNT : Nat := 0x88
/-- TIM_TMARK_STREAM: RO (spec/09_gnss_inertial_time.md). -/
abbrev TIM_TMARK_STREAM : Nat := 0x8C
/-- TIM_GM_CFG: RWP (spec/09_gnss_inertial_time.md). -/
abbrev TIM_GM_CFG : Nat := 0x90
/-- TIM_GPTP_STATUS: RO (spec/09_gnss_inertial_time.md). -/
abbrev TIM_GPTP_STATUS : Nat := 0x94
/-- TIM_GPTP_OFFSET: RO (spec/09_gnss_inertial_time.md). -/
abbrev TIM_GPTP_OFFSET : Nat := 0x98
/-- TIM_STATS: RO (spec/09_gnss_inertial_time.md). -/
abbrev TIM_STATS : Nat := 0xA0
/-- TBL_CMD: WO (spec/10_tabletop_fusion.md). -/
abbrev TBL_CMD : Nat := 0x0
/-- TBL_CMD_ARG0-ARG3: RW (spec/10_tabletop_fusion.md). -/
abbrev TBL_CMD_ARG (i : Nat) : Nat := 0x4 + 0x4 * i
/-- TBL_CMD_STS: RO (spec/10_tabletop_fusion.md). -/
abbrev TBL_CMD_STS : Nat := 0x14
/-- TBL_PROTECT: RW (spec/10_tabletop_fusion.md). -/
abbrev TBL_PROTECT : Nat := 0x18
/-- TBL_STATUS: RO (spec/10_tabletop_fusion.md). -/
abbrev TBL_STATUS : Nat := 0x20
/-- TBL_EVENT: W1C (spec/10_tabletop_fusion.md). -/
abbrev TBL_EVENT : Nat := 0x24
/-- TBL_EVENT_EN: RW (spec/10_tabletop_fusion.md). -/
abbrev TBL_EVENT_EN : Nat := 0x28
/-- TBL_CFG: RWP (spec/10_tabletop_fusion.md). -/
abbrev TBL_CFG : Nat := 0x30
/-- TBL_SLOTS: RWP (spec/10_tabletop_fusion.md). -/
abbrev TBL_SLOTS : Nat := 0x34
/-- TBL_VOTE_CFG: RWP (spec/10_tabletop_fusion.md). -/
abbrev TBL_VOTE_CFG : Nat := 0x38
/-- TBL_TRACK_CFG: RWP (spec/10_tabletop_fusion.md). -/
abbrev TBL_TRACK_CFG : Nat := 0x3C
/-- TBL_STAGE_BASE_LO: RW (spec/10_tabletop_fusion.md). -/
abbrev TBL_STAGE_BASE_LO : Nat := 0x40
/-- TBL_STAGE_BASE_HI: RW (spec/10_tabletop_fusion.md). -/
abbrev TBL_STAGE_BASE_HI : Nat := 0x44
/-- TBL_EGO_V: RW (spec/10_tabletop_fusion.md). -/
abbrev TBL_EGO_V : Nat := 0x48
/-- TBL_EGO_W: RW (spec/10_tabletop_fusion.md). -/
abbrev TBL_EGO_W : Nat := 0x4C
/-- TBL_CYCLE: RO (spec/10_tabletop_fusion.md). -/
abbrev TBL_CYCLE : Nat := 0x50
/-- TBL_TIMING: RO (spec/10_tabletop_fusion.md). -/
abbrev TBL_TIMING : Nat := 0x54
/-- TBL_SKIP: RO (spec/10_tabletop_fusion.md). -/
abbrev TBL_SKIP : Nat := 0x58
/-- TBL_KAT: RO (spec/10_tabletop_fusion.md). -/
abbrev TBL_KAT : Nat := 0x5C
/-- TBL_OVF: RO (spec/10_tabletop_fusion.md). -/
abbrev TBL_OVF : Nat := 0x60
/-- TBL_SECTORS: RO (spec/10_tabletop_fusion.md). -/
abbrev TBL_SECTORS : Nat := 0x64
/-- TBL_SLOT[s]_CFG: RW (spec/10_tabletop_fusion.md). -/
abbrev TBL_SLOT_CFG (s : Nat) : Nat := 0x100 + 0x20 * s
/-- TBL_SLOT[s]_STATUS: RO (spec/10_tabletop_fusion.md). -/
abbrev TBL_SLOT_STATUS (s : Nat) : Nat := 0x104 + 0x20 * s
/-- TBL_SLOT[s]_SAMPLES: RO (spec/10_tabletop_fusion.md). -/
abbrev TBL_SLOT_SAMPLES (s : Nat) : Nat := 0x108 + 0x20 * s
/-- TBL_SLOT[s]_LATE: RO (spec/10_tabletop_fusion.md). -/
abbrev TBL_SLOT_LATE (s : Nat) : Nat := 0x10C + 0x20 * s
/-- TBL_SLOT[s]_ERR: RO (spec/10_tabletop_fusion.md). -/
abbrev TBL_SLOT_ERR (s : Nat) : Nat := 0x110 + 0x20 * s
/-- TBL_SLOT[s]_LAST_LO: RO (spec/10_tabletop_fusion.md). -/
abbrev TBL_SLOT_LAST_LO (s : Nat) : Nat := 0x114 + 0x20 * s
/-- TBL_SLOT[s]_LAST_HI: RO (spec/10_tabletop_fusion.md). -/
abbrev TBL_SLOT_LAST_HI (s : Nat) : Nat := 0x118 + 0x20 * s
/-- TBL_SLOT[s]_BANK: RO (spec/10_tabletop_fusion.md). -/
abbrev TBL_SLOT_BANK (s : Nat) : Nat := 0x11C + 0x20 * s
/-- LPE_CMD: WO (spec/11_loop_engine_machine_functions.md). -/
abbrev LPE_CMD : Nat := 0x0
/-- LPE_CMD_ARG0-ARG3: RW (spec/11_loop_engine_machine_functions.md). -/
abbrev LPE_CMD_ARG (i : Nat) : Nat := 0x4 + 0x4 * i
/-- LPE_CMD_STS: RO (spec/11_loop_engine_machine_functions.md). -/
abbrev LPE_CMD_STS : Nat := 0x14
/-- LPE_PROTECT: RW (spec/11_loop_engine_machine_functions.md). -/
abbrev LPE_PROTECT : Nat := 0x18
/-- LPE_STATUS: RO (spec/11_loop_engine_machine_functions.md). -/
abbrev LPE_STATUS : Nat := 0x20
/-- LPE_EVENT: W1C (spec/11_loop_engine_machine_functions.md). -/
abbrev LPE_EVENT : Nat := 0x24
/-- LPE_EVENT_EN: RW (spec/11_loop_engine_machine_functions.md). -/
abbrev LPE_EVENT_EN : Nat := 0x28
/-- LPE_LOAD: RO (spec/11_loop_engine_machine_functions.md). -/
abbrev LPE_LOAD : Nat := 0x30
/-- LPE_RUN[i]: RO (spec/11_loop_engine_machine_functions.md). -/
abbrev LPE_RUN (i : Nat) : Nat := 0x40 + 0x4 * i
/-- LPE_FAULT[i]: RO (spec/11_loop_engine_machine_functions.md). -/
abbrev LPE_FAULT (i : Nat) : Nat := 0x50 + 0x4 * i
/-- LPE_PIN[p]: RW (spec/11_loop_engine_machine_functions.md). -/
abbrev LPE_PIN (p : Nat) : Nat := 0x200 + 0x4 * p
/-- LPE_MG[g]_SINK: RWP (spec/11_loop_engine_machine_functions.md). -/
abbrev LPE_MG_SINK (g : Nat) : Nat := 0x800 + 0x20 * g
/-- LPE_MG[g]_SCALE: RWP (spec/11_loop_engine_machine_functions.md). -/
abbrev LPE_MG_SCALE (g : Nat) : Nat := 0x804 + 0x20 * g
/-- LPE_MG[g]_OFFVAL: RWP (spec/11_loop_engine_machine_functions.md). -/
abbrev LPE_MG_OFFVAL (g : Nat) : Nat := 0x808 + 0x20 * g
/-- LPE_MG[g]_STATUS: RO (spec/11_loop_engine_machine_functions.md). -/
abbrev LPE_MG_STATUS (g : Nat) : Nat := 0x80C + 0x20 * g
/-- LPE_MG[g]_OUT: RO (spec/11_loop_engine_machine_functions.md). -/
abbrev LPE_MG_OUT (g : Nat) : Nat := 0x810 + 0x20 * g
/-- LPE_MG[g]_WINCHG: RO (spec/11_loop_engine_machine_functions.md). -/
abbrev LPE_MG_WINCHG (g : Nat) : Nat := 0x814 + 0x20 * g
/-- LPE_LP[n]_CFG: RWP (spec/11_loop_engine_machine_functions.md). -/
abbrev LPE_LP_CFG (n : Nat) : Nat := 0x1000 + 0x40 * n
/-- LPE_LP[n]_PERIOD: RWP (spec/11_loop_engine_machine_functions.md). -/
abbrev LPE_LP_PERIOD (n : Nat) : Nat := 0x1004 + 0x40 * n
/-- LPE_LP[n]_PHASE: RWP (spec/11_loop_engine_machine_functions.md). -/
abbrev LPE_LP_PHASE (n : Nat) : Nat := 0x1008 + 0x40 * n
/-- LPE_LP[n]_SINK: RWP (spec/11_loop_engine_machine_functions.md). -/
abbrev LPE_LP_SINK (n : Nat) : Nat := 0x100C + 0x40 * n
/-- LPE_LP[n]_STATUS: RO (spec/11_loop_engine_machine_functions.md). -/
abbrev LPE_LP_STATUS (n : Nat) : Nat := 0x1010 + 0x40 * n
/-- LPE_LP[n]_OUT: RO (spec/11_loop_engine_machine_functions.md). -/
abbrev LPE_LP_OUT (n : Nat) : Nat := 0x1014 + 0x40 * n
/-- LPE_LP[n]_APPLIED: RO (spec/11_loop_engine_machine_functions.md). -/
abbrev LPE_LP_APPLIED (n : Nat) : Nat := 0x1018 + 0x40 * n
/-- LPE_LP[n]_FLAGS: W1C (spec/11_loop_engine_machine_functions.md). -/
abbrev LPE_LP_FLAGS (n : Nat) : Nat := 0x101C + 0x40 * n
/-- LPE_LP[n]_COUNTS: RO (spec/11_loop_engine_machine_functions.md). -/
abbrev LPE_LP_COUNTS (n : Nat) : Nat := 0x1020 + 0x40 * n
/-- LPE_LP[n]_BANK: RO (spec/11_loop_engine_machine_functions.md). -/
abbrev LPE_LP_BANK (n : Nat) : Nat := 0x1024 + 0x40 * n
/-- Bank b of LPn: RW (spec/11_loop_engine_machine_functions.md). -/
abbrev LPE_BANKW (n b w : Nat) : Nat := 0x40000 + 0x1800 * n + 0xC00 * b + 0x4 * w
/-- VLV_CMD: WO (spec/12_valve_drivers.md). -/
abbrev VLV_CMD : Nat := 0x0
/-- VLV_CMD_ARG0-ARG3: RW (spec/12_valve_drivers.md). -/
abbrev VLV_CMD_ARG (i : Nat) : Nat := 0x4 + 0x4 * i
/-- VLV_CMD_STS: RO (spec/12_valve_drivers.md). -/
abbrev VLV_CMD_STS : Nat := 0x14
/-- VLV_PROTECT: RW (spec/12_valve_drivers.md). -/
abbrev VLV_PROTECT : Nat := 0x18
/-- VLV_STATUS: RO (spec/12_valve_drivers.md). -/
abbrev VLV_STATUS : Nat := 0x20
/-- VLV_BATV_LIMIT: RWP (spec/12_valve_drivers.md). -/
abbrev VLV_BATV_LIMIT : Nat := 0x30
/-- VLV_BATV_LOAD: RO (spec/12_valve_drivers.md). -/
abbrev VLV_BATV_LOAD : Nat := 0x34
/-- VLV_CUTOFF: RO (spec/12_valve_drivers.md). -/
abbrev VLV_CUTOFF : Nat := 0x38
/-- VLV_CLAIMED: RO (spec/12_valve_drivers.md). -/
abbrev VLV_CLAIMED : Nat := 0x3C
/-- VLV_HELD: RO (spec/12_valve_drivers.md). -/
abbrev VLV_HELD : Nat := 0x40
/-- VLV_HSF[g]_CFG: RWP (spec/12_valve_drivers.md). -/
abbrev VLV_HSF_CFG (g : Nat) : Nat := 0x100 + 0x10 * g
/-- VLV_HSF[g]_STATUS: RO (spec/12_valve_drivers.md). -/
abbrev VLV_HSF_STATUS (g : Nat) : Nat := 0x104 + 0x10 * g
/-- VLV_HSF[g]_LOAD: RO (spec/12_valve_drivers.md). -/
abbrev VLV_HSF_LOAD (g : Nat) : Nat := 0x108 + 0x10 * g
/-- VLV_LEDGER_WIN[i]: RO (spec/12_valve_drivers.md). -/
abbrev VLV_LEDGER_WIN (i : Nat) : Nat := 0x200 + 0x4 * i
/-- VLV_CH[n]_CFG: RWP (spec/12_valve_drivers.md). -/
abbrev VLV_CH_CFG (n : Nat) : Nat := 0x1000 + 0x100 * n
/-- VLV_CH[n]_LIMIT: RWP (spec/12_valve_drivers.md). -/
abbrev VLV_CH_LIMIT (n : Nat) : Nat := 0x1004 + 0x100 * n
/-- VLV_CH[n]_HOLD_T: RWP (spec/12_valve_drivers.md). -/
abbrev VLV_CH_HOLD_T (n : Nat) : Nat := 0x1008 + 0x100 * n
/-- VLV_CH[n]_FAIL: RWP (spec/12_valve_drivers.md). -/
abbrev VLV_CH_FAIL (n : Nat) : Nat := 0x100C + 0x100 * n
/-- VLV_CH[n]_DUTY_CFG: RWP (spec/12_valve_drivers.md). -/
abbrev VLV_CH_DUTY_CFG (n : Nat) : Nat := 0x1010 + 0x100 * n
/-- VLV_CH[n]_DUTY_LIMIT: RWP (spec/12_valve_drivers.md). -/
abbrev VLV_CH_DUTY_LIMIT (n : Nat) : Nat := 0x1014 + 0x100 * n
/-- VLV_CH[n]_DUTY_FB: RWP (spec/12_valve_drivers.md). -/
abbrev VLV_CH_DUTY_FB (n : Nat) : Nat := 0x1018 + 0x100 * n
/-- VLV_CH[n]_DUTY_STATE: RO (spec/12_valve_drivers.md). -/
abbrev VLV_CH_DUTY_STATE (n : Nat) : Nat := 0x101C + 0x100 * n
/-- VLV_CH[n]_DIAG_CFG: RWP (spec/12_valve_drivers.md). -/
abbrev VLV_CH_DIAG_CFG (n : Nat) : Nat := 0x1020 + 0x100 * n
/-- VLV_CH[n]_BAND_CFG: RWP (spec/12_valve_drivers.md). -/
abbrev VLV_CH_BAND_CFG (n : Nat) : Nat := 0x1024 + 0x100 * n
/-- VLV_CH[n]_COLD_RES: RWP (spec/12_valve_drivers.md). -/
abbrev VLV_CH_COLD_RES (n : Nat) : Nat := 0x1028 + 0x100 * n
/-- VLV_CH[n]_TEMP: RO (spec/12_valve_drivers.md). -/
abbrev VLV_CH_TEMP (n : Nat) : Nat := 0x102C + 0x100 * n
/-- VLV_CH[n]_BANDP[b][w]: RWP (spec/12_valve_drivers.md). -/
abbrev VLV_CH_BANDP (n b w : Nat) : Nat := 0x1040 + 0x100 * n + 0x10 * b + 0x4 * w
/-- VLV_CH[n]_CMD_IN: RW (spec/12_valve_drivers.md). -/
abbrev VLV_CH_CMD_IN (n : Nat) : Nat := 0x1080 + 0x100 * n
/-- VLV_CH[n]_GO: WO (spec/12_valve_drivers.md). -/
abbrev VLV_CH_GO (n : Nat) : Nat := 0x1084 + 0x100 * n
/-- VLV_CH[n]_GO_STS: RO (spec/12_valve_drivers.md). -/
abbrev VLV_CH_GO_STS (n : Nat) : Nat := 0x1088 + 0x100 * n
/-- VLV_CH[n]_STATUS: RO (spec/12_valve_drivers.md). -/
abbrev VLV_CH_STATUS (n : Nat) : Nat := 0x108C + 0x100 * n
/-- VLV_CH[n]_EVENT: W1C (spec/12_valve_drivers.md). -/
abbrev VLV_CH_EVENT (n : Nat) : Nat := 0x1090 + 0x100 * n
/-- VLV_CH[n]_EVENT_EN: RW (spec/12_valve_drivers.md). -/
abbrev VLV_CH_EVENT_EN (n : Nat) : Nat := 0x1094 + 0x100 * n
/-- VLV_CH[n]_CURRENT: RO (spec/12_valve_drivers.md). -/
abbrev VLV_CH_CURRENT (n : Nat) : Nat := 0x1098 + 0x100 * n
/-- VLV_CH[n]_COUNTS: RO (spec/12_valve_drivers.md). -/
abbrev VLV_CH_COUNTS (n : Nat) : Nat := 0x109C + 0x100 * n
/-- VLV_CH[n]_ID_LO: RO (spec/12_valve_drivers.md). -/
abbrev VLV_CH_ID_LO (n : Nat) : Nat := 0x10A0 + 0x100 * n
/-- VLV_CH[n]_ID_HI: RO (spec/12_valve_drivers.md). -/
abbrev VLV_CH_ID_HI (n : Nat) : Nat := 0x10A4 + 0x100 * n
/-- VLV_CH[n]_ID_TYPE: RO (spec/12_valve_drivers.md). -/
abbrev VLV_CH_ID_TYPE (n : Nat) : Nat := 0x10A8 + 0x100 * n
/-- VLV_CH[n]_LIFE: RO (spec/12_valve_drivers.md). -/
abbrev VLV_CH_LIFE (n : Nat) : Nat := 0x10AC + 0x100 * n
/-- VLV_CH[n]_BANK: RO (spec/12_valve_drivers.md). -/
abbrev VLV_CH_BANK (n : Nat) : Nat := 0x10B0 + 0x100 * n
/-- Bank b of Vnn (b = 0–1): RW (spec/12_valve_drivers.md). -/
abbrev VLV_BANKW (n b w : Nat) : Nat := 0x80000 + 0x400 * n + 0x200 * b + 0x4 * w
/-- LSW_CMD: WO (spec/13_load_switches.md). -/
abbrev LSW_CMD : Nat := 0x0
/-- LSW_CMD_ARG0-ARG3: RW (spec/13_load_switches.md). -/
abbrev LSW_CMD_ARG (i : Nat) : Nat := 0x4 + 0x4 * i
/-- LSW_CMD_STS: RO (spec/13_load_switches.md). -/
abbrev LSW_CMD_STS : Nat := 0x14
/-- LSW_PROTECT: RW (spec/13_load_switches.md). -/
abbrev LSW_PROTECT : Nat := 0x18
/-- LSW_STATUS: RO (spec/13_load_switches.md). -/
abbrev LSW_STATUS : Nat := 0x20
/-- LSW_FEED[f]_CFG: RWP (spec/13_load_switches.md). -/
abbrev LSW_FEED_CFG (f : Nat) : Nat := 0x30 + 0x10 * f
/-- LSW_FEED[f]_STATUS: RO (spec/13_load_switches.md). -/
abbrev LSW_FEED_STATUS (f : Nat) : Nat := 0x34 + 0x10 * f
/-- LSW_FEED[f]_COUNTS: RO (spec/13_load_switches.md). -/
abbrev LSW_FEED_COUNTS (f : Nat) : Nat := 0x38 + 0x10 * f
/-- LSW_CLAIMED_LO: RO (spec/13_load_switches.md). -/
abbrev LSW_CLAIMED_LO : Nat := 0x50
/-- LSW_CLAIMED_HI: RO (spec/13_load_switches.md). -/
abbrev LSW_CLAIMED_HI : Nat := 0x54
/-- LSW_HELD_LO: RO (spec/13_load_switches.md). -/
abbrev LSW_HELD_LO : Nat := 0x58
/-- LSW_HELD_HI: RO (spec/13_load_switches.md). -/
abbrev LSW_HELD_HI : Nat := 0x5C
/-- LSW_CH[n]_CFG: RWP (spec/13_load_switches.md). -/
abbrev LSW_CH_CFG (n : Nat) : Nat := 0x1000 + 0x40 * n
/-- LSW_CH[n]_LIMIT: RWP (spec/13_load_switches.md). -/
abbrev LSW_CH_LIMIT (n : Nat) : Nat := 0x1004 + 0x40 * n
/-- LSW_CH[n]_FAIL: RWP (spec/13_load_switches.md). -/
abbrev LSW_CH_FAIL (n : Nat) : Nat := 0x1008 + 0x40 * n
/-- LSW_CH[n]_CLAMP_CFG: RWP (spec/13_load_switches.md). -/
abbrev LSW_CH_CLAMP_CFG (n : Nat) : Nat := 0x100C + 0x40 * n
/-- LSW_CH[n]_CLAMP_STATE: RO (spec/13_load_switches.md). -/
abbrev LSW_CH_CLAMP_STATE (n : Nat) : Nat := 0x1010 + 0x40 * n
/-- LSW_CH[n]_COOL: RO (spec/13_load_switches.md). -/
abbrev LSW_CH_COOL (n : Nat) : Nat := 0x1014 + 0x40 * n
/-- LSW_CH[n]_PWM: RWP (spec/13_load_switches.md). -/
abbrev LSW_CH_PWM (n : Nat) : Nat := 0x1018 + 0x40 * n
/-- LSW_CH[n]_DIAG: RWP (spec/13_load_switches.md). -/
abbrev LSW_CH_DIAG (n : Nat) : Nat := 0x101C + 0x40 * n
/-- LSW_CH[n]_SWITCH: WO (spec/13_load_switches.md). -/
abbrev LSW_CH_SWITCH (n : Nat) : Nat := 0x1020 + 0x40 * n
/-- LSW_CH[n]_SW_STS: RO (spec/13_load_switches.md). -/
abbrev LSW_CH_SW_STS (n : Nat) : Nat := 0x1024 + 0x40 * n
/-- LSW_CH[n]_STATUS: RO (spec/13_load_switches.md). -/
abbrev LSW_CH_STATUS (n : Nat) : Nat := 0x1028 + 0x40 * n
/-- LSW_CH[n]_EVENT: W1C (spec/13_load_switches.md). -/
abbrev LSW_CH_EVENT (n : Nat) : Nat := 0x102C + 0x40 * n
/-- LSW_CH[n]_EVENT_EN: RW (spec/13_load_switches.md). -/
abbrev LSW_CH_EVENT_EN (n : Nat) : Nat := 0x1030 + 0x40 * n
/-- LSW_CH[n]_CURRENT: RO (spec/13_load_switches.md). -/
abbrev LSW_CH_CURRENT (n : Nat) : Nat := 0x1034 + 0x40 * n
/-- LSW_CH[n]_TEMP: RO (spec/13_load_switches.md). -/
abbrev LSW_CH_TEMP (n : Nat) : Nat := 0x1038 + 0x40 * n
/-- LSW_CH[n]_COUNTS: RO (spec/13_load_switches.md). -/
abbrev LSW_CH_COUNTS (n : Nat) : Nat := 0x103C + 0x40 * n
/-- AIO_CMD: WO (spec/14_crop_inputs_field_map.md). -/
abbrev AIO_CMD : Nat := 0x0
/-- AIO_CMD_ARG0-ARG3: RW (spec/14_crop_inputs_field_map.md). -/
abbrev AIO_CMD_ARG (i : Nat) : Nat := 0x4 + 0x4 * i
/-- AIO_CMD_STS: RO (spec/14_crop_inputs_field_map.md). -/
abbrev AIO_CMD_STS : Nat := 0x14
/-- AIO_PROTECT: RW (spec/14_crop_inputs_field_map.md). -/
abbrev AIO_PROTECT : Nat := 0x18
/-- AIO_STATUS: RO (spec/14_crop_inputs_field_map.md). -/
abbrev AIO_STATUS : Nat := 0x20
/-- AIO_EVENT: W1C (spec/14_crop_inputs_field_map.md). -/
abbrev AIO_EVENT : Nat := 0x24
/-- AIO_EVENT_EN: RW (spec/14_crop_inputs_field_map.md). -/
abbrev AIO_EVENT_EN : Nat := 0x28
/-- AIO_INVALID_AIN_LO: RO (spec/14_crop_inputs_field_map.md). -/
abbrev AIO_INVALID_AIN_LO : Nat := 0x30
/-- AIO_INVALID_AIN_HI: RO (spec/14_crop_inputs_field_map.md). -/
abbrev AIO_INVALID_AIN_HI : Nat := 0x34
/-- AIO_INVALID_FIN: RO (spec/14_crop_inputs_field_map.md). -/
abbrev AIO_INVALID_FIN : Nat := 0x38
/-- AIO_INVALID_LOSS: RO (spec/14_crop_inputs_field_map.md). -/
abbrev AIO_INVALID_LOSS : Nat := 0x3C
/-- AIO_SUP[k]_CFG: RWP (spec/14_crop_inputs_field_map.md). -/
abbrev AIO_SUP_CFG (k : Nat) : Nat := 0x40 + 0x10 * k
/-- AIO_SUP[k]_STATUS: RO (spec/14_crop_inputs_field_map.md). -/
abbrev AIO_SUP_STATUS (k : Nat) : Nat := 0x44 + 0x10 * k
/-- AIO_AIN[n]_CFG: RWP (spec/14_crop_inputs_field_map.md). -/
abbrev AIO_AIN_CFG (n : Nat) : Nat := 0x100 + 0x20 * n
/-- AIO_AIN[n]_VALUE: RO (spec/14_crop_inputs_field_map.md). -/
abbrev AIO_AIN_VALUE (n : Nat) : Nat := 0x104 + 0x20 * n
/-- AIO_AIN[n]_WIN: RWP (spec/14_crop_inputs_field_map.md). -/
abbrev AIO_AIN_WIN (n : Nat) : Nat := 0x108 + 0x20 * n
/-- AIO_AIN[n]_STATUS: RO (spec/14_crop_inputs_field_map.md). -/
abbrev AIO_AIN_STATUS (n : Nat) : Nat := 0x10C + 0x20 * n
/-- AIO_AIN[n]_MINMAX: RO (spec/14_crop_inputs_field_map.md). -/
abbrev AIO_AIN_MINMAX (n : Nat) : Nat := 0x110 + 0x20 * n
/-- AIO_FIN[n]_CFG: RWP (spec/14_crop_inputs_field_map.md). -/
abbrev AIO_FIN_CFG (n : Nat) : Nat := 0x800 + 0x20 * n
/-- AIO_FIN[n]_FREQ: RO (spec/14_crop_inputs_field_map.md). -/
abbrev AIO_FIN_FREQ (n : Nat) : Nat := 0x804 + 0x20 * n
/-- AIO_FIN[n]_COUNT: RO (spec/14_crop_inputs_field_map.md). -/
abbrev AIO_FIN_COUNT (n : Nat) : Nat := 0x808 + 0x20 * n
/-- AIO_FIN[n]_PERIOD: RO (spec/14_crop_inputs_field_map.md). -/
abbrev AIO_FIN_PERIOD (n : Nat) : Nat := 0x80C + 0x20 * n
/-- AIO_FIN[n]_STATUS: RO (spec/14_crop_inputs_field_map.md). -/
abbrev AIO_FIN_STATUS (n : Nat) : Nat := 0x810 + 0x20 * n
/-- AIO_LOSS[n]_CFG: RWP (spec/14_crop_inputs_field_map.md). -/
abbrev AIO_LOSS_CFG (n : Nat) : Nat := 0xC00 + 0x40 * n
/-- AIO_LOSS[n]_THRESH: RWP (spec/14_crop_inputs_field_map.md). -/
abbrev AIO_LOSS_THRESH (n : Nat) : Nat := 0xC04 + 0x40 * n
/-- AIO_LOSS[n]_COUNT: RO (spec/14_crop_inputs_field_map.md). -/
abbrev AIO_LOSS_COUNT (n : Nat) : Nat := 0xC08 + 0x40 * n
/-- AIO_LOSS[n]_RATE: RO (spec/14_crop_inputs_field_map.md). -/
abbrev AIO_LOSS_RATE (n : Nat) : Nat := 0xC0C + 0x40 * n
/-- AIO_LOSS[n]_REJECT: RO (spec/14_crop_inputs_field_map.md). -/
abbrev AIO_LOSS_REJECT (n : Nat) : Nat := 0xC10 + 0x40 * n
/-- AIO_LOSS[n]_STATUS: RO (spec/14_crop_inputs_field_map.md). -/
abbrev AIO_LOSS_STATUS (n : Nat) : Nat := 0xC14 + 0x40 * n
/-- AIO_LOSS[n]_HIST[b]: RO (spec/14_crop_inputs_field_map.md). -/
abbrev AIO_LOSS_HIST (n b : Nat) : Nat := 0xC18 + 0x40 * n + 0x4 * b
/-- MAP_CMD: WO (spec/14_crop_inputs_field_map.md). -/
abbrev MAP_CMD : Nat := 0x0
/-- MAP_CMD_ARG0-ARG3: RW (spec/14_crop_inputs_field_map.md). -/
abbrev MAP_CMD_ARG (i : Nat) : Nat := 0x4 + 0x4 * i
/-- MAP_CMD_STS: RO (spec/14_crop_inputs_field_map.md). -/
abbrev MAP_CMD_STS : Nat := 0x14
/-- MAP_PROTECT: RW (spec/14_crop_inputs_field_map.md). -/
abbrev MAP_PROTECT : Nat := 0x18
/-- MAP_STATUS: RO (spec/14_crop_inputs_field_map.md). -/
abbrev MAP_STATUS : Nat := 0x20
/-- MAP_EVENT: W1C (spec/14_crop_inputs_field_map.md). -/
abbrev MAP_EVENT : Nat := 0x24
/-- MAP_EVENT_EN: RW (spec/14_crop_inputs_field_map.md). -/
abbrev MAP_EVENT_EN : Nat := 0x28
/-- MAP_CFG: RWP (spec/14_crop_inputs_field_map.md). -/
abbrev MAP_CFG : Nat := 0x30
/-- MAP_YIELD_SRC: RWP (spec/14_crop_inputs_field_map.md). -/
abbrev MAP_YIELD_SRC : Nat := 0x34
/-- MAP_ELEV: RWP (spec/14_crop_inputs_field_map.md). -/
abbrev MAP_ELEV : Nat := 0x38
/-- MAP_ZERO: RW (spec/14_crop_inputs_field_map.md). -/
abbrev MAP_ZERO : Nat := 0x3C
/-- MAP_MOIST_SRC: RWP (spec/14_crop_inputs_field_map.md). -/
abbrev MAP_MOIST_SRC : Nat := 0x40
/-- MAP_MOIST_GAIN: RWP (spec/14_crop_inputs_field_map.md). -/
abbrev MAP_MOIST_GAIN : Nat := 0x44
/-- MAP_MOIST_OFS: RWP (spec/14_crop_inputs_field_map.md). -/
abbrev MAP_MOIST_OFS : Nat := 0x48
/-- MAP_LOSS_SRC: RWP (spec/14_crop_inputs_field_map.md). -/
abbrev MAP_LOSS_SRC : Nat := 0x4C
/-- MAP_CUTBAR: RWP (spec/14_crop_inputs_field_map.md). -/
abbrev MAP_CUTBAR : Nat := 0x50
/-- MAP_SECTIONS: RW (spec/14_crop_inputs_field_map.md). -/
abbrev MAP_SECTIONS : Nat := 0x54
/-- MAP_CAL_N: RW (spec/14_crop_inputs_field_map.md). -/
abbrev MAP_CAL_N : Nat := 0x58
/-- MAP_CAL[k]: RW (spec/14_crop_inputs_field_map.md). -/
abbrev MAP_CAL (k : Nat) : Nat := 0x60 + 0x4 * k
/-- MAP_POSE_X: RW (spec/14_crop_inputs_field_map.md). -/
abbrev MAP_POSE_X : Nat := 0x90
/-- MAP_POSE_Y: RW (spec/14_crop_inputs_field_map.md). -/
abbrev MAP_POSE_Y : Nat := 0x94
/-- MAP_POSE_HDG: RW (spec/14_crop_inputs_field_map.md). -/
abbrev MAP_POSE_HDG : Nat := 0x98
/-- MAP_POSE_ACC: RW (spec/14_crop_inputs_field_map.md). -/
abbrev MAP_POSE_ACC : Nat := 0x9C
/-- MAP_POSE_GO: WO (spec/14_crop_inputs_field_map.md). -/
abbrev MAP_POSE_GO : Nat := 0xA0
/-- MAP_WORK_BASE_LO: RW (spec/14_crop_inputs_field_map.md). -/
abbrev MAP_WORK_BASE_LO : Nat := 0xB0
/-- MAP_WORK_BASE_HI: RW (spec/14_crop_inputs_field_map.md). -/
abbrev MAP_WORK_BASE_HI : Nat := 0xB4
/-- MAP_JRNL_BASE: RWP (spec/14_crop_inputs_field_map.md). -/
abbrev MAP_JRNL_BASE : Nat := 0xB8
/-- MAP_JRNL_SIZE: RWP (spec/14_crop_inputs_field_map.md). -/
abbrev MAP_JRNL_SIZE : Nat := 0xBC
/-- MAP_ID: RO (spec/14_crop_inputs_field_map.md). -/
abbrev MAP_ID : Nat := 0xC0
/-- MAP_TICK: RO (spec/14_crop_inputs_field_map.md). -/
abbrev MAP_TICK : Nat := 0xC4
/-- MAP_FLOW: RO (spec/14_crop_inputs_field_map.md). -/
abbrev MAP_FLOW : Nat := 0xC8
/-- MAP_MOISTURE: RO (spec/14_crop_inputs_field_map.md). -/
abbrev MAP_MOISTURE : Nat := 0xCC
/-- MAP_MASS_LO: RO (spec/14_crop_inputs_field_map.md). -/
abbrev MAP_MASS_LO : Nat := 0xD0
/-- MAP_MASS_HI: RO (spec/14_crop_inputs_field_map.md). -/
abbrev MAP_MASS_HI : Nat := 0xD4
/-- MAP_UNATTR: RO (spec/14_crop_inputs_field_map.md). -/
abbrev MAP_UNATTR : Nat := 0xD8
/-- MAP_CELLS: RO (spec/14_crop_inputs_field_map.md). -/
abbrev MAP_CELLS : Nat := 0xDC
/-- MAP_OVERLAP: RO (spec/14_crop_inputs_field_map.md). -/
abbrev MAP_OVERLAP : Nat := 0xE0
/-- MAP_ERRS: RO (spec/14_crop_inputs_field_map.md). -/
abbrev MAP_ERRS : Nat := 0xE4
/-- MAP_JRNL_SEQ: RO (spec/14_crop_inputs_field_map.md). -/
abbrev MAP_JRNL_SEQ : Nat := 0xE8
/-- MAP_JRNL_FILL: RO (spec/14_crop_inputs_field_map.md). -/
abbrev MAP_JRNL_FILL : Nat := 0xEC
/-- MAP_LOST_S: RO (spec/14_crop_inputs_field_map.md). -/
abbrev MAP_LOST_S : Nat := 0xF0
/-- MAP_SECT[s]: RWP (spec/14_crop_inputs_field_map.md). -/
abbrev MAP_SECT (s : Nat) : Nat := 0x100 + 0x4 * s
/-- MAP_WIN_BAD: RO (spec/14_crop_inputs_field_map.md). -/
abbrev MAP_WIN_BAD : Nat := 0x140
/-- PNL_CMD: WO (spec/15_cab_panel_drive.md). -/
abbrev PNL_CMD : Nat := 0x0
/-- PNL_CMD_ARG0-ARG3: RW (spec/15_cab_panel_drive.md). -/
abbrev PNL_CMD_ARG (i : Nat) : Nat := 0x4 + 0x4 * i
/-- PNL_CMD_STS: RO (spec/15_cab_panel_drive.md). -/
abbrev PNL_CMD_STS : Nat := 0x14
/-- PNL_PROTECT: RW (spec/15_cab_panel_drive.md). -/
abbrev PNL_PROTECT : Nat := 0x18
/-- PNL_STATUS: RO (spec/15_cab_panel_drive.md). -/
abbrev PNL_STATUS : Nat := 0x20
/-- PNL_EVENT: W1C (spec/15_cab_panel_drive.md). -/
abbrev PNL_EVENT : Nat := 0x24
/-- PNL_EVENT_EN: RW (spec/15_cab_panel_drive.md). -/
abbrev PNL_EVENT_EN : Nat := 0x28
/-- PNL_CFG: RWP (spec/15_cab_panel_drive.md). -/
abbrev PNL_CFG : Nat := 0x30
/-- PNL_REFRESH: RW (spec/15_cab_panel_drive.md). -/
abbrev PNL_REFRESH : Nat := 0x34
/-- PNL_VERSION: RO (spec/15_cab_panel_drive.md). -/
abbrev PNL_VERSION : Nat := 0x38
/-- PNL_SERIAL_LO: RO (spec/15_cab_panel_drive.md). -/
abbrev PNL_SERIAL_LO : Nat := 0x3C
/-- PNL_SERIAL_HI: RO (spec/15_cab_panel_drive.md). -/
abbrev PNL_SERIAL_HI : Nat := 0x40
/-- PNL_TEMP: RO (spec/15_cab_panel_drive.md). -/
abbrev PNL_TEMP : Nat := 0x44
/-- PNL_LINK_ERR: RO (spec/15_cab_panel_drive.md). -/
abbrev PNL_LINK_ERR : Nat := 0x48
/-- PNL_FB0_BASE_LO: RW (spec/15_cab_panel_drive.md). -/
abbrev PNL_FB0_BASE_LO : Nat := 0x50
/-- PNL_FB0_BASE_HI: RW (spec/15_cab_panel_drive.md). -/
abbrev PNL_FB0_BASE_HI : Nat := 0x54
/-- PNL_FB1_BASE_LO: RW (spec/15_cab_panel_drive.md). -/
abbrev PNL_FB1_BASE_LO : Nat := 0x58
/-- PNL_FB1_BASE_HI: RW (spec/15_cab_panel_drive.md). -/
abbrev PNL_FB1_BASE_HI : Nat := 0x5C
/-- PNL_FB_STRIDE: RW (spec/15_cab_panel_drive.md). -/
abbrev PNL_FB_STRIDE : Nat := 0x60
/-- PNL_FLIP_CRC: RW (spec/15_cab_panel_drive.md). -/
abbrev PNL_FLIP_CRC : Nat := 0x64
/-- PNL_FLIP: WO (spec/15_cab_panel_drive.md). -/
abbrev PNL_FLIP : Nat := 0x68
/-- PNL_SHOWN: RO (spec/15_cab_panel_drive.md). -/
abbrev PNL_SHOWN : Nat := 0x6C
/-- PNL_FRAME_NO: RO (spec/15_cab_panel_drive.md). -/
abbrev PNL_FRAME_NO : Nat := 0x70
/-- PNL_CRC_LAST: RO (spec/15_cab_panel_drive.md). -/
abbrev PNL_CRC_LAST : Nat := 0x74
/-- PNL_COUNTS: RO (spec/15_cab_panel_drive.md). -/
abbrev PNL_COUNTS : Nat := 0x78
/-- PNL_RAIL[r]_STATUS: RO (spec/15_cab_panel_drive.md). -/
abbrev PNL_RAIL_STATUS (r : Nat) : Nat := 0x80 + 0x4 * r
/-- PNL_CURVE[c][k]: RWP (spec/15_cab_panel_drive.md). -/
abbrev PNL_CURVE (c k : Nat) : Nat := 0x100 + 0x20 * c + 0x4 * k
/-- PNL_UNI_STATUS: RO (spec/15_cab_panel_drive.md). -/
abbrev PNL_UNI_STATUS : Nat := 0x180
/-- PNL_UNI_CRC: RO (spec/15_cab_panel_drive.md). -/
abbrev PNL_UNI_CRC : Nat := 0x184
/-- PNL_UNI_BASE_LO: RW (spec/15_cab_panel_drive.md). -/
abbrev PNL_UNI_BASE_LO : Nat := 0x188
/-- PNL_UNI_BASE_HI: RW (spec/15_cab_panel_drive.md). -/
abbrev PNL_UNI_BASE_HI : Nat := 0x18C
/-- PNL_BL_CFG: RWP (spec/15_cab_panel_drive.md). -/
abbrev PNL_BL_CFG : Nat := 0x200
/-- PNL_BL_LEVEL: RW (spec/15_cab_panel_drive.md). -/
abbrev PNL_BL_LEVEL : Nat := 0x204
/-- PNL_BL_STATUS: RO (spec/15_cab_panel_drive.md). -/
abbrev PNL_BL_STATUS : Nat := 0x208
/-- PNL_BL_FLAGS: RO (spec/15_cab_panel_drive.md). -/
abbrev PNL_BL_FLAGS : Nat := 0x20C
/-- PNL_BL[s]_STATUS: RO (spec/15_cab_panel_drive.md). -/
abbrev PNL_BL_S_STATUS (s : Nat) : Nat := 0x220 + 0x4 * s
/-- CAN_CMD: WO (spec/16_can_ethernet.md). -/
abbrev CAN_CMD : Nat := 0x0
/-- CAN_CMD_ARG0-ARG3: RW (spec/16_can_ethernet.md). -/
abbrev CAN_CMD_ARG (i : Nat) : Nat := 0x4 + 0x4 * i
/-- CAN_CMD_STS: RO (spec/16_can_ethernet.md). -/
abbrev CAN_CMD_STS : Nat := 0x14
/-- CAN_PROTECT: RW (spec/16_can_ethernet.md). -/
abbrev CAN_PROTECT : Nat := 0x18
/-- CAN_SUMMARY: RO (spec/16_can_ethernet.md). -/
abbrev CAN_SUMMARY : Nat := 0x20
/-- CAN_CH[n]_CFG: RWP (spec/16_can_ethernet.md). -/
abbrev CAN_CH_CFG (n : Nat) : Nat := 0x100 + 0x10000 * n
/-- CAN_CH[n]_NBT: RWP (spec/16_can_ethernet.md). -/
abbrev CAN_CH_NBT (n : Nat) : Nat := 0x104 + 0x10000 * n
/-- CAN_CH[n]_DBT: RWP (spec/16_can_ethernet.md). -/
abbrev CAN_CH_DBT (n : Nat) : Nat := 0x108 + 0x10000 * n
/-- CAN_CH[n]_TDC: RWP (spec/16_can_ethernet.md). -/
abbrev CAN_CH_TDC (n : Nat) : Nat := 0x10C + 0x10000 * n
/-- CAN_CH[n]_TDC_MEAS: RO (spec/16_can_ethernet.md). -/
abbrev CAN_CH_TDC_MEAS (n : Nat) : Nat := 0x110 + 0x10000 * n
/-- CAN_CH[n]_STATUS: RO (spec/16_can_ethernet.md). -/
abbrev CAN_CH_STATUS (n : Nat) : Nat := 0x114 + 0x10000 * n
/-- CAN_CH[n]_EVENT: W1C (spec/16_can_ethernet.md). -/
abbrev CAN_CH_EVENT (n : Nat) : Nat := 0x118 + 0x10000 * n
/-- CAN_CH[n]_EVENT_EN: RW (spec/16_can_ethernet.md). -/
abbrev CAN_CH_EVENT_EN (n : Nat) : Nat := 0x11C + 0x10000 * n
/-- CAN_CH[n]_ERRS: RO (spec/16_can_ethernet.md). -/
abbrev CAN_CH_ERRS (n : Nat) : Nat := 0x120 + 0x10000 * n
/-- CAN_CH[n]_LOST: RO (spec/16_can_ethernet.md). -/
abbrev CAN_CH_LOST (n : Nat) : Nat := 0x124 + 0x10000 * n
/-- CAN_CH[n]_TXREQ[i]: W1S (spec/16_can_ethernet.md). -/
abbrev CAN_CH_TXREQ (n i : Nat) : Nat := 0x128 + 0x10000 * n + 0x4 * i
/-- CAN_CH[n]_TXCANCEL[i]: W1S (spec/16_can_ethernet.md). -/
abbrev CAN_CH_TXCANCEL (n i : Nat) : Nat := 0x138 + 0x10000 * n + 0x4 * i
/-- CAN_CH[n]_NEW[i]: RO (spec/16_can_ethernet.md). -/
abbrev CAN_CH_NEW (n i : Nat) : Nat := 0x148 + 0x10000 * n + 0x4 * i
/-- CAN_CH[n]_LOCK[i]: RW (spec/16_can_ethernet.md). -/
abbrev CAN_CH_LOCK (n i : Nat) : Nat := 0x158 + 0x10000 * n + 0x4 * i
/-- CAN_CH[n]_FIFO[f]_STATUS: RO (spec/16_can_ethernet.md). -/
abbrev CAN_CH_FIFO_STATUS (n f : Nat) : Nat := 0x168 + 0x10000 * n + 0x4 * f
/-- CAN_CH[n]_FIFO[f]_POP: WO (spec/16_can_ethernet.md). -/
abbrev CAN_CH_FIFO_POP (n f : Nat) : Nat := 0x170 + 0x10000 * n + 0x4 * f
/-- CAN_CH[n]_ISB_ADDR: RW (spec/16_can_ethernet.md). -/
abbrev CAN_CH_ISB_ADDR (n : Nat) : Nat := 0x178 + 0x10000 * n
/-- CAN_CH[n]_TT_CFG: RWP (spec/16_can_ethernet.md). -/
abbrev CAN_CH_TT_CFG (n : Nat) : Nat := 0x180 + 0x10000 * n
/-- CAN_CH[n]_TT_REF: RWP (spec/16_can_ethernet.md). -/
abbrev CAN_CH_TT_REF (n : Nat) : Nat := 0x184 + 0x10000 * n
/-- CAN_CH[n]_TT_WAIT: RWP (spec/16_can_ethernet.md). -/
abbrev CAN_CH_TT_WAIT (n : Nat) : Nat := 0x188 + 0x10000 * n
/-- CAN_CH[n]_TT_STATUS: RO (spec/16_can_ethernet.md). -/
abbrev CAN_CH_TT_STATUS (n : Nat) : Nat := 0x18C + 0x10000 * n
/-- CAN_CH[n]_TT_COUNTS: RO (spec/16_can_ethernet.md). -/
abbrev CAN_CH_TT_COUNTS (n : Nat) : Nat := 0x190 + 0x10000 * n
/-- CAN_CH[n]_FIFO[f]_STREAM: RO (spec/16_can_ethernet.md). -/
abbrev CAN_CH_FIFO_STREAM (n f : Nat) : Nat := 0x1A0 + 0x10000 * n + 0x4 * f
/-- CAN_CH[n]_FILTER[m]_ID: RWP (spec/16_can_ethernet.md). -/
abbrev CAN_CH_FILTER_ID (n m : Nat) : Nat := 0x200 + 0x10000 * n + 0x8 * m
/-- CAN_CH[n]_FILTER[m]_MASK: RWP (spec/16_can_ethernet.md). -/
abbrev CAN_CH_FILTER_MASK (n m : Nat) : Nat := 0x204 + 0x10000 * n + 0x8 * m
/-- CAN_CH[n]_TT_COL[k]: RWP (spec/16_can_ethernet.md). -/
abbrev CAN_CH_TT_COL (n k : Nat) : Nat := 0x400 + 0x10000 * n + 0x4 * k
/-- CAN_CH[n]_TT_CELL[c][k]: RWP (spec/16_can_ethernet.md). -/
abbrev CAN_CH_TT_CELL (n c k : Nat) : Nat := 0x800 + 0x10000 * n + 0x80 * c + 0x4 * k
/-- MB[b] of CANn: RW (spec/16_can_ethernet.md). -/
abbrev CAN_MB (n b w : Nat) : Nat := 0x4000 + 0x10000 * n + 0x60 * b + 0x4 * w
/-- FIFO[f] head of CANn: RO (spec/16_can_ethernet.md). -/
abbrev CAN_FIFOHEAD (n f w : Nat) : Nat := 0x8000 + 0x10000 * n + 0x60 * f + 0x4 * w
/-- CAN_CH[n]_ISB_SES[s]_CTRL: RW (spec/16_can_ethernet.md). -/
abbrev CAN_CH_ISB_SES_CTRL (n s : Nat) : Nat := 0x9000 + 0x10000 * n + 0x20 * s
/-- CAN_CH[n]_ISB_SES[s]_PGN: RW (spec/16_can_ethernet.md). -/
abbrev CAN_CH_ISB_SES_PGN (n s : Nat) : Nat := 0x9004 + 0x10000 * n + 0x20 * s
/-- CAN_CH[n]_ISB_SES[s]_ADDR_LO: RW (spec/16_can_ethernet.md). -/
abbrev CAN_CH_ISB_SES_ADDR_LO (n s : Nat) : Nat := 0x9008 + 0x10000 * n + 0x20 * s
/-- CAN_CH[n]_ISB_SES[s]_ADDR_HI: RW (spec/16_can_ethernet.md). -/
abbrev CAN_CH_ISB_SES_ADDR_HI (n s : Nat) : Nat := 0x900C + 0x10000 * n + 0x20 * s
/-- CAN_CH[n]_ISB_SES[s]_LEN: RW (spec/16_can_ethernet.md). -/
abbrev CAN_CH_ISB_SES_LEN (n s : Nat) : Nat := 0x9010 + 0x10000 * n + 0x20 * s
/-- CAN_CH[n]_ISB_SES[s]_STATUS: RO (spec/16_can_ethernet.md). -/
abbrev CAN_CH_ISB_SES_STATUS (n s : Nat) : Nat := 0x9014 + 0x10000 * n + 0x20 * s
/-- CAN_RXSIG[r]_CFG: RWP (spec/16_can_ethernet.md). -/
abbrev CAN_RXSIG_CFG (r : Nat) : Nat := 0x80000 + 0x20 * r
/-- CAN_RXSIG[r]_BITS: RWP (spec/16_can_ethernet.md). -/
abbrev CAN_RXSIG_BITS (r : Nat) : Nat := 0x80004 + 0x20 * r
/-- CAN_RXSIG[r]_SCALE: RWP (spec/16_can_ethernet.md). -/
abbrev CAN_RXSIG_SCALE (r : Nat) : Nat := 0x80008 + 0x20 * r
/-- CAN_RXSIG[r]_OFFSET: RWP (spec/16_can_ethernet.md). -/
abbrev CAN_RXSIG_OFFSET (r : Nat) : Nat := 0x8000C + 0x20 * r
/-- CAN_RXSIG[r]_VALUE: RO (spec/16_can_ethernet.md). -/
abbrev CAN_RXSIG_VALUE (r : Nat) : Nat := 0x80010 + 0x20 * r
/-- CAN_RXSIG[r]_STATUS: RO (spec/16_can_ethernet.md). -/
abbrev CAN_RXSIG_STATUS (r : Nat) : Nat := 0x80014 + 0x20 * r
/-- CAN_TXSIG[n][t]_CFG: RWP (spec/16_can_ethernet.md). -/
abbrev CAN_TXSIG_CFG (n t : Nat) : Nat := 0x82000 + 0x400 * n + 0x20 * t
/-- CAN_TXSIG[n][t]_BITS: RWP (spec/16_can_ethernet.md). -/
abbrev CAN_TXSIG_BITS (n t : Nat) : Nat := 0x82004 + 0x400 * n + 0x20 * t
/-- CAN_TXSIG[n][t]_SCALE: RWP (spec/16_can_ethernet.md). -/
abbrev CAN_TXSIG_SCALE (n t : Nat) : Nat := 0x82008 + 0x400 * n + 0x20 * t
/-- CAN_TXSIG[n][t]_OFFSET: RWP (spec/16_can_ethernet.md). -/
abbrev CAN_TXSIG_OFFSET (n t : Nat) : Nat := 0x8200C + 0x400 * n + 0x20 * t
/-- CAN_TXSIG[n][t]_RAW: RO (spec/16_can_ethernet.md). -/
abbrev CAN_TXSIG_RAW (n t : Nat) : Nat := 0x82010 + 0x400 * n + 0x20 * t
/-- ETH_CMD: WO (spec/16_can_ethernet.md). -/
abbrev ETH_CMD : Nat := 0x0
/-- ETH_CMD_ARG0-ARG3: RW (spec/16_can_ethernet.md). -/
abbrev ETH_CMD_ARG (i : Nat) : Nat := 0x4 + 0x4 * i
/-- ETH_CMD_STS: RO (spec/16_can_ethernet.md). -/
abbrev ETH_CMD_STS : Nat := 0x14
/-- ETH_PROTECT: RW (spec/16_can_ethernet.md). -/
abbrev ETH_PROTECT : Nat := 0x18
/-- ETH_STATUS: RO (spec/16_can_ethernet.md). -/
abbrev ETH_STATUS : Nat := 0x20
/-- ETH_EVENT: W1C (spec/16_can_ethernet.md). -/
abbrev ETH_EVENT : Nat := 0x24
/-- ETH_EVENT_EN: RW (spec/16_can_ethernet.md). -/
abbrev ETH_EVENT_EN : Nat := 0x28
/-- ETH_MAC_LO: RWP (spec/16_can_ethernet.md). -/
abbrev ETH_MAC_LO : Nat := 0x30
/-- ETH_MAC_HI: RWP (spec/16_can_ethernet.md). -/
abbrev ETH_MAC_HI : Nat := 0x34
/-- ETH_IP4: RWP (spec/16_can_ethernet.md). -/
abbrev ETH_IP4 : Nat := 0x38
/-- ETH_AGE: RWP (spec/16_can_ethernet.md). -/
abbrev ETH_AGE : Nat := 0x3C
/-- ETH_HOST_CFG: RW (spec/16_can_ethernet.md). -/
abbrev ETH_HOST_CFG : Nat := 0x40
/-- ETH_FDB_COUNT: RO (spec/16_can_ethernet.md). -/
abbrev ETH_FDB_COUNT : Nat := 0x44
/-- ETH_P[p]_CFG: RWP (spec/16_can_ethernet.md). -/
abbrev ETH_P_CFG (p : Nat) : Nat := 0x100 + 0x20 * p
/-- ETH_P[p]_STATUS: RO (spec/16_can_ethernet.md). -/
abbrev ETH_P_STATUS (p : Nat) : Nat := 0x104 + 0x20 * p
/-- ETH_P[p]_RX: RO (spec/16_can_ethernet.md). -/
abbrev ETH_P_RX (p : Nat) : Nat := 0x108 + 0x20 * p
/-- ETH_P[p]_TX: RO (spec/16_can_ethernet.md). -/
abbrev ETH_P_TX (p : Nat) : Nat := 0x10C + 0x20 * p
/-- ETH_P[p]_DROPS: RO (spec/16_can_ethernet.md). -/
abbrev ETH_P_DROPS (p : Nat) : Nat := 0x110 + 0x20 * p
/-- ETH_P[p]_LINKDOWN: RO (spec/16_can_ethernet.md). -/
abbrev ETH_P_LINKDOWN (p : Nat) : Nat := 0x114 + 0x20 * p
/-- ETH_VLAN[v]: RWP (spec/16_can_ethernet.md). -/
abbrev ETH_VLAN (v : Nat) : Nat := 0x400 + 0x4 * v
/-- ETH_FDB_STATIC[k]_MAC_LO: RWP (spec/16_can_ethernet.md). -/
abbrev ETH_FDB_STATIC_MAC_LO (k : Nat) : Nat := 0x600 + 0x10 * k
/-- ETH_FDB_STATIC[k]_MAC_HI: RWP (spec/16_can_ethernet.md). -/
abbrev ETH_FDB_STATIC_MAC_HI (k : Nat) : Nat := 0x604 + 0x10 * k
/-- ETH_FDB_STATIC[k]_CFG: RWP (spec/16_can_ethernet.md). -/
abbrev ETH_FDB_STATIC_CFG (k : Nat) : Nat := 0x608 + 0x10 * k
/-- ETH_RX[q]_BASE_LO: RW (spec/16_can_ethernet.md). -/
abbrev ETH_RX_BASE_LO (q : Nat) : Nat := 0x800 + 0x20 * q
/-- ETH_RX[q]_BASE_HI: RW (spec/16_can_ethernet.md). -/
abbrev ETH_RX_BASE_HI (q : Nat) : Nat := 0x804 + 0x20 * q
/-- ETH_RX[q]_CFG: RW (spec/16_can_ethernet.md). -/
abbrev ETH_RX_CFG (q : Nat) : Nat := 0x808 + 0x20 * q
/-- ETH_RX[q]_HEAD: RW (spec/16_can_ethernet.md). -/
abbrev ETH_RX_HEAD (q : Nat) : Nat := 0x80C + 0x20 * q
/-- ETH_RX[q]_TAIL: RO (spec/16_can_ethernet.md). -/
abbrev ETH_RX_TAIL (q : Nat) : Nat := 0x810 + 0x20 * q
/-- ETH_RX[q]_DROPS: RO (spec/16_can_ethernet.md). -/
abbrev ETH_RX_DROPS (q : Nat) : Nat := 0x814 + 0x20 * q
/-- ETH_TX[q]_BASE_LO: RW (spec/16_can_ethernet.md). -/
abbrev ETH_TX_BASE_LO (q : Nat) : Nat := 0x900 + 0x20 * q
/-- ETH_TX[q]_BASE_HI: RW (spec/16_can_ethernet.md). -/
abbrev ETH_TX_BASE_HI (q : Nat) : Nat := 0x904 + 0x20 * q
/-- ETH_TX[q]_CFG: RW (spec/16_can_ethernet.md). -/
abbrev ETH_TX_CFG (q : Nat) : Nat := 0x908 + 0x20 * q
/-- ETH_TX[q]_HEAD: RW (spec/16_can_ethernet.md). -/
abbrev ETH_TX_HEAD (q : Nat) : Nat := 0x90C + 0x20 * q
/-- ETH_TX[q]_TAIL: RO (spec/16_can_ethernet.md). -/
abbrev ETH_TX_TAIL (q : Nat) : Nat := 0x910 + 0x20 * q
/-- DMW_CMD: WO (spec/17_dumbwaiter_dma.md). -/
abbrev DMW_CMD : Nat := 0x0
/-- DMW_CMD_ARG0-ARG3: RW (spec/17_dumbwaiter_dma.md). -/
abbrev DMW_CMD_ARG (i : Nat) : Nat := 0x4 + 0x4 * i
/-- DMW_CMD_STS: RO (spec/17_dumbwaiter_dma.md). -/
abbrev DMW_CMD_STS : Nat := 0x14
/-- DMW_PROTECT: RW (spec/17_dumbwaiter_dma.md). -/
abbrev DMW_PROTECT : Nat := 0x18
/-- DMW_STATUS: RO (spec/17_dumbwaiter_dma.md). -/
abbrev DMW_STATUS : Nat := 0x20
/-- DMW_EVENT: W1C (spec/17_dumbwaiter_dma.md). -/
abbrev DMW_EVENT : Nat := 0x24
/-- DMW_EVENT_EN: RW (spec/17_dumbwaiter_dma.md). -/
abbrev DMW_EVENT_EN : Nat := 0x28
/-- DMW_SWREQ: W1S (spec/17_dumbwaiter_dma.md). -/
abbrev DMW_SWREQ : Nat := 0x30
/-- DMW_RUN[i]: RO (spec/17_dumbwaiter_dma.md). -/
abbrev DMW_RUN (i : Nat) : Nat := 0x40 + 0x4 * i
/-- DMW_HALT[i]: RO (spec/17_dumbwaiter_dma.md). -/
abbrev DMW_HALT (i : Nat) : Nat := 0x48 + 0x4 * i
/-- DW[n]_GO: WO (spec/17_dumbwaiter_dma.md). -/
abbrev DMW_CH_GO (n : Nat) : Nat := 0x1000 + 0x80 * n
/-- DW[n]_GO_STS: RO (spec/17_dumbwaiter_dma.md). -/
abbrev DMW_CH_GO_STS (n : Nat) : Nat := 0x1004 + 0x80 * n
/-- DW[n]_CFG: RWP (spec/17_dumbwaiter_dma.md). -/
abbrev DMW_CH_CFG (n : Nat) : Nat := 0x1008 + 0x80 * n
/-- DW[n]_STATUS: RO (spec/17_dumbwaiter_dma.md). -/
abbrev DMW_CH_STATUS (n : Nat) : Nat := 0x100C + 0x80 * n
/-- DW[n]_FLAGS: W1C (spec/17_dumbwaiter_dma.md). -/
abbrev DMW_CH_FLAGS (n : Nat) : Nat := 0x1010 + 0x80 * n
/-- DW[n]_SIGNAL: RO (spec/17_dumbwaiter_dma.md). -/
abbrev DMW_CH_SIGNAL (n : Nat) : Nat := 0x1014 + 0x80 * n
/-- DW[n]_DESC_NO: RO (spec/17_dumbwaiter_dma.md). -/
abbrev DMW_CH_DESC_NO (n : Nat) : Nat := 0x1018 + 0x80 * n
/-- DW[n]_LATE_DESC: RO (spec/17_dumbwaiter_dma.md). -/
abbrev DMW_CH_LATE_DESC (n : Nat) : Nat := 0x101C + 0x80 * n
/-- DW[n]_FAULT_LO: RO (spec/17_dumbwaiter_dma.md). -/
abbrev DMW_CH_FAULT_LO (n : Nat) : Nat := 0x1020 + 0x80 * n
/-- DW[n]_FAULT_HI: RO (spec/17_dumbwaiter_dma.md). -/
abbrev DMW_CH_FAULT_HI (n : Nat) : Nat := 0x1024 + 0x80 * n
/-- DW[n]_ARG[k]_LO: RW (spec/17_dumbwaiter_dma.md). -/
abbrev DMW_CH_ARG_LO (n k : Nat) : Nat := 0x1028 + 0x80 * n + 0x8 * k
/-- DW[n]_ARG[k]_HI: RW (spec/17_dumbwaiter_dma.md). -/
abbrev DMW_CH_ARG_HI (n k : Nat) : Nat := 0x102C + 0x80 * n + 0x8 * k
/-- DW[n]_COUNTS: RO (spec/17_dumbwaiter_dma.md). -/
abbrev DMW_CH_COUNTS (n : Nat) : Nat := 0x1068 + 0x80 * n
/-- DW[n]_BANK: RO (spec/17_dumbwaiter_dma.md). -/
abbrev DMW_CH_BANK (n : Nat) : Nat := 0x106C + 0x80 * n
/-- DW[n]_REMAIN: RO (spec/17_dumbwaiter_dma.md). -/
abbrev DMW_CH_REMAIN (n : Nat) : Nat := 0x1070 + 0x80 * n
/-- Bank b of DWn: RW (spec/17_dumbwaiter_dma.md). -/
abbrev DMW_BANKW (n b w : Nat) : Nat := 0x80000 + 0x200 * n + 0x100 * b + 0x4 * w
/-- UPD_CMD: WO (spec/18_update_versions_partners.md). -/
abbrev UPD_CMD : Nat := 0x0
/-- UPD_CMD_ARG0-ARG3: RW (spec/18_update_versions_partners.md). -/
abbrev UPD_CMD_ARG (i : Nat) : Nat := 0x4 + 0x4 * i
/-- UPD_CMD_STS: RO (spec/18_update_versions_partners.md). -/
abbrev UPD_CMD_STS : Nat := 0x14
/-- UPD_PROTECT: RW (spec/18_update_versions_partners.md). -/
abbrev UPD_PROTECT : Nat := 0x18
/-- UPD_STATUS: RO (spec/18_update_versions_partners.md). -/
abbrev UPD_STATUS : Nat := 0x20
/-- UPD_EVENT: W1C (spec/18_update_versions_partners.md). -/
abbrev UPD_EVENT : Nat := 0x24
/-- UPD_EVENT_EN: RW (spec/18_update_versions_partners.md). -/
abbrev UPD_EVENT_EN : Nat := 0x28
/-- UPD_KEYS: RO (spec/18_update_versions_partners.md). -/
abbrev UPD_KEYS : Nat := 0x2C
/-- UPD_LOCK_IDLE: RWP (spec/18_update_versions_partners.md). -/
abbrev UPD_LOCK_IDLE : Nat := 0x30
/-- UPD_RECOVERY: RO (spec/18_update_versions_partners.md). -/
abbrev UPD_RECOVERY : Nat := 0x34
/-- UPD_R[r]_STATE: RO (spec/18_update_versions_partners.md). -/
abbrev UPD_R_STATE (r : Nat) : Nat := 0x100 + 0x20 * r
/-- UPD_R[r]_VER_A: RO (spec/18_update_versions_partners.md). -/
abbrev UPD_R_VER_A (r : Nat) : Nat := 0x104 + 0x20 * r
/-- UPD_R[r]_VER_B: RO (spec/18_update_versions_partners.md). -/
abbrev UPD_R_VER_B (r : Nat) : Nat := 0x108 + 0x20 * r
/-- UPD_R[r]_LOCK: RO (spec/18_update_versions_partners.md). -/
abbrev UPD_R_LOCK (r : Nat) : Nat := 0x10C + 0x20 * r
/-- UPD_R[r]_BLOCKS_RX: RO (spec/18_update_versions_partners.md). -/
abbrev UPD_R_BLOCKS_RX (r : Nat) : Nat := 0x110 + 0x20 * r
/-- UPD_R[r]_FIRST_MISSING: RO (spec/18_update_versions_partners.md). -/
abbrev UPD_R_FIRST_MISSING (r : Nat) : Nat := 0x114 + 0x20 * r
/-- UPD_R[r]_POLICY: RWP (spec/18_update_versions_partners.md). -/
abbrev UPD_R_POLICY (r : Nat) : Nat := 0x118 + 0x20 * r
/-- UPD_R[r]_ARB_MIN: RO (spec/18_update_versions_partners.md). -/
abbrev UPD_R_ARB_MIN (r : Nat) : Nat := 0x11C + 0x20 * r
/-- UPD_PARTNER[i]_VER: RW (spec/18_update_versions_partners.md). -/
abbrev UPD_PARTNER_VER (i : Nat) : Nat := 0x400 + 0x10 * i
/-- UPD_PARTNER[i]_RANGE: RW (spec/18_update_versions_partners.md). -/
abbrev UPD_PARTNER_RANGE (i : Nat) : Nat := 0x404 + 0x10 * i
/-- BUR_CMD: WO (spec/19_bureau_housekeeping.md). -/
abbrev BUR_CMD : Nat := 0x0
/-- BUR_CMD_ARG0-ARG3: RW (spec/19_bureau_housekeeping.md). -/
abbrev BUR_CMD_ARG (i : Nat) : Nat := 0x4 + 0x4 * i
/-- BUR_CMD_STS: RO (spec/19_bureau_housekeeping.md). -/
abbrev BUR_CMD_STS : Nat := 0x14
/-- BUR_PROTECT: RW (spec/19_bureau_housekeeping.md). -/
abbrev BUR_PROTECT : Nat := 0x18
/-- BUR_STATUS: RO (spec/19_bureau_housekeeping.md). -/
abbrev BUR_STATUS : Nat := 0x20
/-- BUR_EVENT: W1C (spec/19_bureau_housekeeping.md). -/
abbrev BUR_EVENT : Nat := 0x24
/-- BUR_EVENT_EN: RW (spec/19_bureau_housekeeping.md). -/
abbrev BUR_EVENT_EN : Nat := 0x28
/-- BUR_CFG: RWP (spec/19_bureau_housekeeping.md). -/
abbrev BUR_CFG : Nat := 0x30
/-- BUR_HEAD: RO (spec/19_bureau_housekeeping.md). -/
abbrev BUR_HEAD : Nat := 0x34
/-- BUR_COUNT: RO (spec/19_bureau_housekeeping.md). -/
abbrev BUR_COUNT : Nat := 0x38
/-- BUR_WRAPS: RO (spec/19_bureau_housekeeping.md). -/
abbrev BUR_WRAPS : Nat := 0x3C
/-- BUR_LOST: RO (spec/19_bureau_housekeeping.md). -/
abbrev BUR_LOST : Nat := 0x40
/-- BUR_CURSOR: RW (spec/19_bureau_housekeeping.md). -/
abbrev BUR_CURSOR : Nat := 0x44
/-- BUR_WIN0–WIN7: RO (spec/19_bureau_housekeeping.md). -/
abbrev BUR_WIN (w : Nat) : Nat := 0x48 + 0x4 * w
/-- BUR_PUT_DATA0–DATA2 (i = 0–2): RW (spec/19_bureau_housekeeping.md). -/
abbrev BUR_PUT_DATA (i : Nat) : Nat := 0x70 + 0x4 * i
/-- BUR_PUT: WO (spec/19_bureau_housekeeping.md). -/
abbrev BUR_PUT : Nat := 0x7C
/-- BUR_SEL[i]: RWP (spec/19_bureau_housekeeping.md). -/
abbrev BUR_SEL (i : Nat) : Nat := 0x100 + 0x4 * i
/-- BUR_SEV[j]: RWP (spec/19_bureau_housekeeping.md). -/
abbrev BUR_SEV (j : Nat) : Nat := 0x200 + 0x4 * j
/-- HKP_CMD: WO (spec/19_bureau_housekeeping.md). -/
abbrev HKP_CMD : Nat := 0x0
/-- HKP_CMD_ARG0-ARG3: RW (spec/19_bureau_housekeeping.md). -/
abbrev HKP_CMD_ARG (i : Nat) : Nat := 0x4 + 0x4 * i
/-- HKP_CMD_STS: RO (spec/19_bureau_housekeeping.md). -/
abbrev HKP_CMD_STS : Nat := 0x14
/-- HKP_PROTECT: RW (spec/19_bureau_housekeeping.md). -/
abbrev HKP_PROTECT : Nat := 0x18
/-- HKP_STATUS: RO (spec/19_bureau_housekeeping.md). -/
abbrev HKP_STATUS : Nat := 0x20
/-- HKP_EVENT: W1C (spec/19_bureau_housekeeping.md). -/
abbrev HKP_EVENT : Nat := 0x24
/-- HKP_EVENT_EN: RW (spec/19_bureau_housekeeping.md). -/
abbrev HKP_EVENT_EN : Nat := 0x28
/-- HKP_CFG: RWP (spec/19_bureau_housekeeping.md). -/
abbrev HKP_CFG : Nat := 0x30
/-- HKP_CH[k]_VALUE: RO (spec/19_bureau_housekeeping.md). -/
abbrev HKP_CH_VALUE (k : Nat) : Nat := 0x100 + 0x10 * k
/-- HKP_CH[k]_HI: RWP (spec/19_bureau_housekeeping.md). -/
abbrev HKP_CH_HI (k : Nat) : Nat := 0x104 + 0x10 * k
/-- HKP_CH[k]_LO: RWP (spec/19_bureau_housekeeping.md). -/
abbrev HKP_CH_LO (k : Nat) : Nat := 0x108 + 0x10 * k
/-- HKP_CH[k]_CFG: RWP (spec/19_bureau_housekeeping.md). -/
abbrev HKP_CH_CFG (k : Nat) : Nat := 0x10C + 0x10 * k
/-- SAF_CMD: WO (spec/20_safety_integrity_test.md). -/
abbrev SAF_CMD : Nat := 0x0
/-- SAF_CMD_ARG0-ARG3: RW (spec/20_safety_integrity_test.md). -/
abbrev SAF_CMD_ARG (i : Nat) : Nat := 0x4 + 0x4 * i
/-- SAF_CMD_STS: RO (spec/20_safety_integrity_test.md). -/
abbrev SAF_CMD_STS : Nat := 0x14
/-- SAF_PROTECT: RW (spec/20_safety_integrity_test.md). -/
abbrev SAF_PROTECT : Nat := 0x18
/-- SAF_STATUS: RO (spec/20_safety_integrity_test.md). -/
abbrev SAF_STATUS : Nat := 0x20
/-- SAF_EVENT: W1C (spec/20_safety_integrity_test.md). -/
abbrev SAF_EVENT : Nat := 0x24
/-- SAF_EVENT_EN: RW (spec/20_safety_integrity_test.md). -/
abbrev SAF_EVENT_EN : Nat := 0x28
/-- SAF_FAULT: RO (spec/20_safety_integrity_test.md). -/
abbrev SAF_FAULT : Nat := 0x30
/-- SAF_FAULT_OPSEC: RO (spec/20_safety_integrity_test.md). -/
abbrev SAF_FAULT_OPSEC : Nat := 0x34
/-- SAF_WDG_CFG: RWP (spec/20_safety_integrity_test.md). -/
abbrev SAF_WDG_CFG : Nat := 0x38
/-- SAF_WDG_KICK: WO (spec/20_safety_integrity_test.md). -/
abbrev SAF_WDG_KICK : Nat := 0x3C
/-- SAF_WDG_STATUS: RO (spec/20_safety_integrity_test.md). -/
abbrev SAF_WDG_STATUS : Nat := 0x40
/-- SAF_PARAM_VER: RO (spec/20_safety_integrity_test.md). -/
abbrev SAF_PARAM_VER : Nat := 0x44
/-- SAF_CHECK[n]_CNT: RO (spec/20_safety_integrity_test.md). -/
abbrev SAF_CHECK_CNT (n : Nat) : Nat := 0x50 + 0x4 * n
/-- TST_PROTECT: RW (spec/20_safety_integrity_test.md). -/
abbrev TST_PROTECT : Nat := 0x18
/-- TST_STATUS: RO (spec/20_safety_integrity_test.md). -/
abbrev TST_STATUS : Nat := 0x20
/-- TST_EVENT: W1C (spec/20_safety_integrity_test.md). -/
abbrev TST_EVENT : Nat := 0x24
/-- TST_EVENT_EN: RW (spec/20_safety_integrity_test.md). -/
abbrev TST_EVENT_EN : Nat := 0x28
/-- TST_UNLOCK: WO (spec/20_safety_integrity_test.md). -/
abbrev TST_UNLOCK : Nat := 0x2C
/-- TST_XC[m]_DELAY: RW (spec/20_safety_integrity_test.md). -/
abbrev TST_XC_DELAY (m : Nat) : Nat := 0x100 + 0x4 * m
/-- TST_PORT[e]_DELAY: RW (spec/20_safety_integrity_test.md). -/
abbrev TST_PORT_DELAY (e : Nat) : Nat := 0x500 + 0x4 * e
/-- TST_BP[p]: RW (spec/20_safety_integrity_test.md). -/
abbrev TST_BP (p : Nat) : Nat := 0x600 + 0x4 * p
/-- TST_CAM[n]_DELAY: RW (spec/20_safety_integrity_test.md). -/
abbrev TST_CAM_DELAY (n : Nat) : Nat := 0x700 + 0x4 * n
/-- TST_GNS_DELAY: RW (spec/20_safety_integrity_test.md). -/
abbrev TST_GNS_DELAY : Nat := 0x720
/-- TST_CAN[n]_DELAY: RW (spec/20_safety_integrity_test.md). -/
abbrev TST_CAN_DELAY (n : Nat) : Nat := 0x740 + 0x4 * n

/-- The register map of SYS, part 1. -/
def mapSYS1 : List RegRow := [
  ⟨0x0, [], .wo, 0xFFFFFFFF, [], 0x0, false, false⟩,
  ⟨0x4, [(0x4, 4)], .rw, 0xFFFFFFFF, [], 0x0, false, false⟩,
  ⟨0x14, [], .ro, 0x0, [], 0x0, false, false⟩,
  ⟨0x18, [], .rw, 0xFFFFFFFF, [], 0x0, false, false⟩,
  ⟨0x20, [], .ro, 0x0, [], 0x94000100, false, false⟩,
  ⟨0x24, [], .w1c, 0xFF, [], 0x0, false, false⟩,
  ⟨0x28, [], .rw, 0xFF, [], 0xFF, false, false⟩,
  ⟨0x2C, [], .ro, 0x0, [], 0x0, false, false⟩,
  ⟨0x30, [], .ro, 0x0, [], 0x1, false, false⟩,
  ⟨0x40, [], .rwp, 0xFF01, [(15, 8, 1, 48)], 0xC01, false, false⟩,
  ⟨0x44, [], .ro, 0x0, [], 0x0, false, false⟩,
  ⟨0x48, [], .ro, 0x0, [], 0x0, false, false⟩,
  ⟨0x4C, [], .ro, 0x0, [], 0x0, false, false⟩,
  ⟨0x50, [], .ro, 0x0, [], 0x0, false, false⟩,
  ⟨0x54, [], .ro, 0x0, [], 0x0, false, false⟩,
  ⟨0x58, [], .ro, 0x0, [], 0x0, false, false⟩,
  ⟨0x5C, [], .ro, 0x0, [], 0x0, false, false⟩,
  ⟨0x60, [], .rw, 0xFFFFFFC0, [], 0x0, false, false⟩,
  ⟨0x64, [], .rw, 0xFF, [], 0x0, false, false⟩,
  ⟨0x68, [], .rw, 0x10F, [(3, 0, 4, 10)], 0x4, false, false⟩,
  ⟨0x6C, [], .rw, 0xFFFF, [], 0x0, false, false⟩,
  ⟨0x70, [], .ro, 0x0, [], 0x0, false, false⟩,
  ⟨0x74, [], .ro, 0x0, [], 0xC00040, false, false⟩,
  ⟨0x78, [], .ro, 0x0, [], 0x3800080, false, false⟩,
  ⟨0x7C, [], .ro, 0x0, [], 0x0, false, true⟩,
  ⟨0x80, [], .ro, 0x0, [], 0x0, false, true⟩,
  ⟨0xA0, [(0x4, 8)], .ro, 0x0, [], 0x0, false, false⟩,
  ⟨0x100, [(0x4, 258)], .ro, 0x0, [], 0x0, false, false⟩]

/-- The register map of SYS. -/
def mapSYS : List RegRow := mapSYS1

/-- The register map of PACE, part 1. -/
def mapPACE1 : List RegRow := [
  ⟨0x0, [], .wo, 0xFFFFFFFF, [], 0x0, false, false⟩,
  ⟨0x4, [(0x4, 4)], .rw, 0xFFFFFFFF, [], 0x0, false, false⟩,
  ⟨0x14, [], .ro, 0x0, [], 0x0, false, false⟩,
  ⟨0x18, [], .rw, 0xFFFFFFFF, [], 0x0, false, false⟩,
  ⟨0x20, [], .ro, 0x0, [], 0x0, false, false⟩,
  ⟨0x24, [], .w1c, 0x3FF, [], 0x0, false, false⟩,
  ⟨0x28, [], .rw, 0x3FF, [], 0x3FF, false, false⟩,
  ⟨0x30, [], .rwp, 0x3FF, [], 0x320, false, true⟩,
  ⟨0x34, [], .ro, 0x0, [], 0x320, false, false⟩,
  ⟨0x38, [], .rwp, 0x1FF0F, [(15, 8, 2, 100), (3, 0, 1, 10)], 0x10A0A, false, false⟩,
  ⟨0x40, [], .ro, 0x0, [], 0x0, false, false⟩,
  ⟨0x44, [], .rw, 0xFFFFFFFF, [], 0x0, false, false⟩,
  ⟨0x48, [], .ro, 0x0, [], 0xFF00FF, false, false⟩,
  ⟨0x100, [(0x10, 32)], .ro, 0x0, [], 0x0, false, false⟩,
  ⟨0x104, [(0x10, 32)], .ro, 0x0, [], 0xFFFF, false, false⟩,
  ⟨0x108, [(0x10, 32)], .ro, 0x0, [], 0x0, false, false⟩,
  ⟨0x10C, [(0x10, 32)], .rw, 0x1FFFF, [], 0x0, false, true⟩,
  ⟨0x400, [(0x10, 29)], .rw, 0x101, [], 0x0, false, true⟩,
  ⟨0x404, [(0x10, 29)], .ro, 0x0, [], 0x0, false, false⟩,
  ⟨0x408, [(0x10, 29)], .ro, 0x0, [], 0x0, false, false⟩,
  ⟨0x800, [(0x4, 232)], .ro, 0x0, [], 0x0, false, false⟩]

/-- The register map of PACE. -/
def mapPACE : List RegRow := mapPACE1

/-- The register map of PGH, part 1. -/
def mapPGH1 : List RegRow := [
  ⟨0x18, [], .rw, 0xFFFFFFFF, [], 0x0, false, false⟩,
  ⟨0x20, [], .ro, 0x0, [], 0x0, false, false⟩,
  ⟨0x24, [], .wo, 0xFFFFFFFF, [], 0x0, false, false⟩,
  ⟨0x100, [(0x4, 256)], .rwp, 0xFB0000FF, [], 0x0, false, false⟩,
  ⟨0x500, [(0x4, 256)], .ro, 0x0, [], 0x0, false, false⟩,
  ⟨0x900, [(0x4, 8)], .ro, 0x0, [], 0x0, false, false⟩,
  ⟨0x920, [(0x4, 8)], .wo, 0xFFFFFFFF, [], 0x0, false, false⟩,
  ⟨0xA00, [(0x10, 8)], .ro, 0x0, [], 0x0, false, false⟩,
  ⟨0xA04, [(0x10, 8)], .ro, 0x0, [], 0x0, false, false⟩,
  ⟨0xA08, [(0x10, 8)], .wo, 0xFFFFFFFF, [], 0x0, false, false⟩]

/-- The register map of PGH. -/
def mapPGH : List RegRow := mapPGH1

/-- The register map of DMW, part 1. -/
def mapDMW1 : List RegRow := [
  ⟨0x0, [], .wo, 0xFFFFFFFF, [], 0x0, false, false⟩,
  ⟨0x4, [(0x4, 4)], .rw, 0xFFFFFFFF, [], 0x0, false, false⟩,
  ⟨0x14, [], .ro, 0x0, [], 0x0, false, false⟩,
  ⟨0x18, [], .rw, 0xFFFFFFFF, [], 0x0, false, false⟩,
  ⟨0x20, [], .ro, 0x0, [], 0x0, false, false⟩,
  ⟨0x24, [], .w1c, 0xFFFF, [], 0x0, false, false⟩,
  ⟨0x28, [], .rw, 0xFFFF, [], 0xFFFF, false, false⟩,
  ⟨0x30, [], .w1s, 0xFFFFFFFF, [], 0x0, false, false⟩,
  ⟨0x40, [(0x4, 2)], .ro, 0x0, [], 0x0, false, false⟩,
  ⟨0x48, [(0x4, 2)], .ro, 0x0, [], 0x0, false, false⟩,
  ⟨0x1000, [(0x80, 64)], .wo, 0xFFFFFFFF, [], 0x0, false, false⟩,
  ⟨0x1004, [(0x80, 64)], .ro, 0x0, [], 0x0, false, false⟩,
  ⟨0x1008, [(0x80, 64)], .rwp, 0xF77, [], 0x0, false, true⟩,
  ⟨0x100C, [(0x80, 64)], .ro, 0x0, [], 0x0, false, false⟩,
  ⟨0x1010, [(0x80, 64)], .w1c, 0x3F, [], 0x0, false, false⟩,
  ⟨0x1014, [(0x80, 64)], .ro, 0x0, [], 0x0, false, false⟩,
  ⟨0x1018, [(0x80, 64)], .ro, 0x0, [], 0x0, false, false⟩,
  ⟨0x101C, [(0x80, 64)], .ro, 0x0, [], 0x0, false, false⟩,
  ⟨0x1020, [(0x80, 64)], .ro, 0x0, [], 0x0, false, false⟩,
  ⟨0x1024, [(0x80, 64)], .ro, 0x0, [], 0x0, false, false⟩,
  ⟨0x1030, [(0x80, 64), (0x8, 7)], .rw, 0xFFFFFFFF, [], 0x0, false, false⟩,
  ⟨0x1034, [(0x80, 64), (0x8, 7)], .rw, 0xFFFFFFFF, [], 0x0, false, false⟩,
  ⟨0x1068, [(0x80, 64)], .ro, 0x0, [], 0x0, false, false⟩,
  ⟨0x106C, [(0x80, 64)], .ro, 0x0, [], 0x0, false, false⟩,
  ⟨0x1070, [(0x80, 64)], .ro, 0x0, [], 0x0, false, false⟩,
  ⟨0x80000, [(0x200, 64), (0x100, 2), (0x4, 33)], .rw, 0xFFFFFFFF, [], 0x0, false, true⟩]

/-- The register map of DMW. -/
def mapDMW : List RegRow := mapDMW1

/-- The register map of CAM, part 1. -/
def mapCAM1 : List RegRow := [
  ⟨0x0, [], .wo, 0xFFFFFFFF, [], 0x0, false, false⟩,
  ⟨0x4, [(0x4, 4)], .rw, 0xFFFFFFFF, [], 0x0, false, false⟩,
  ⟨0x14, [], .ro, 0x0, [], 0x0, false, false⟩,
  ⟨0x18, [], .rw, 0xFFFFFFFF, [], 0x0, false, false⟩,
  ⟨0x20, [], .ro, 0x0, [], 0x0, false, false⟩,
  ⟨0x24, [], .w1c, 0xFFFF, [], 0x0, false, false⟩,
  ⟨0x28, [], .rw, 0xFFFF, [], 0xFFFF, false, false⟩,
  ⟨0x30, [], .rwp, 0x107, [], 0x0, false, true⟩,
  ⟨0x34, [], .ro, 0x0, [], 0x0, false, false⟩,
  ⟨0x38, [], .ro, 0x0, [], 0x0, false, false⟩,
  ⟨0x40, [], .ro, 0x0, [], 0x0, false, false⟩,
  ⟨0x44, [], .ro, 0x0, [], 0x6C1E39A4, false, false⟩,
  ⟨0x48, [], .ro, 0x0, [], 0x0, false, false⟩,
  ⟨0x100, [(0x20, 2)], .rw, 0x107, [(2, 0, 1, 5)], 0x0, false, true⟩,
  ⟨0x104, [(0x20, 2)], .ro, 0x0, [], 0x0, false, false⟩,
  ⟨0x108, [(0x20, 2)], .ro, 0x0, [], 0x0, false, false⟩,
  ⟨0x10C, [(0x20, 2)], .ro, 0x0, [], 0x0, false, false⟩,
  ⟨0x110, [(0x20, 2)], .ro, 0x0, [], 0x0, false, false⟩,
  ⟨0x400, [(0x80, 8)], .rw, 0xFF0F3C31, [], 0x0, false, true⟩,
  ⟨0x404, [(0x80, 8)], .rw, 0xFFF0FFF, [], 0x6000780, false, false⟩,
  ⟨0x408, [(0x80, 8)], .rw, 0x3F3F3F, [], 0x31302C, false, false⟩,
  ⟨0x40C, [(0x80, 8)], .rw, 0xFFFFFFFF, [], 0x0, false, false⟩,
  ⟨0x410, [(0x80, 8)], .rw, 0xFFFFFFFF, [], 0x0, false, false⟩,
  ⟨0x414, [(0x80, 8)], .rw, 0xFFFFF000, [], 0x0, false, false⟩,
  ⟨0x418, [(0x80, 8)], .rw, 0xFF, [], 0x0, false, false⟩,
  ⟨0x41C, [(0x80, 8)], .rw, 0xFFFFF000, [], 0x0, false, false⟩,
  ⟨0x420, [(0x80, 8)], .rw, 0xFF, [], 0x0, false, false⟩,
  ⟨0x424, [(0x80, 8)], .rw, 0xF, [(3, 0, 3, 8)], 0x4, false, false⟩,
  ⟨0x428, [(0x80, 8)], .rw, 0xFFFFF000, [], 0x0, false, false⟩,
  ⟨0x42C, [(0x80, 8)], .rw, 0xFF, [], 0x0, false, false⟩]

/-- The register map of CAM, part 2. -/
def mapCAM2 : List RegRow := [
  ⟨0x430, [(0x80, 8)], .rw, 0xF, [(3, 0, 2, 16)], 0x4, false, false⟩,
  ⟨0x434, [(0x80, 8)], .rw, 0xFFFFF000, [], 0x0, false, false⟩,
  ⟨0x438, [(0x80, 8)], .rw, 0xFF, [], 0x0, false, false⟩,
  ⟨0x43C, [(0x80, 8)], .rw, 0xF, [(3, 0, 2, 16)], 0x4, false, false⟩,
  ⟨0x440, [(0x80, 8)], .rw, 0x3, [], 0x0, false, false⟩,
  ⟨0x444, [(0x80, 8)], .ro, 0x0, [], 0x0, false, false⟩,
  ⟨0x448, [(0x80, 8)], .ro, 0x0, [], 0x0, false, false⟩,
  ⟨0x44C, [(0x80, 8)], .ro, 0x0, [], 0x0, false, false⟩,
  ⟨0x450, [(0x80, 8)], .ro, 0x0, [], 0x0, false, false⟩,
  ⟨0x454, [(0x80, 8)], .ro, 0x0, [], 0x0, false, false⟩,
  ⟨0x458, [(0x80, 8)], .ro, 0x0, [], 0x0, false, false⟩,
  ⟨0x45C, [(0x80, 8)], .ro, 0x0, [], 0x0, false, false⟩,
  ⟨0x460, [(0x80, 8)], .ro, 0x0, [], 0x0, false, false⟩,
  ⟨0x464, [(0x80, 8)], .ro, 0x0, [], 0x0, false, false⟩]

/-- The register map of CAM. -/
def mapCAM : List RegRow := mapCAM1 ++ mapCAM2

/-- The register map of GNS, part 1. -/
def mapGNS1 : List RegRow := [
  ⟨0x0, [], .wo, 0xFFFFFFFF, [], 0x0, false, false⟩,
  ⟨0x4, [(0x4, 4)], .rw, 0xFFFFFFFF, [], 0x0, false, false⟩,
  ⟨0x14, [], .ro, 0x0, [], 0x0, false, false⟩,
  ⟨0x18, [], .rw, 0xFFFFFFFF, [], 0x0, false, false⟩,
  ⟨0x20, [], .ro, 0x0, [], 0x0, false, false⟩,
  ⟨0x24, [], .w1c, 0xFF, [], 0x0, false, false⟩,
  ⟨0x28, [], .rw, 0xFF, [], 0xFF, false, false⟩,
  ⟨0x30, [], .rwp, 0x1FC07, [], 0x11403, false, true⟩,
  ⟨0x40, [(0x10, 2)], .rw, 0x8000FFFF, [], 0x0, false, true⟩,
  ⟨0x44, [(0x10, 2)], .ro, 0x0, [], 0x0, false, false⟩,
  ⟨0x48, [(0x10, 2)], .ro, 0x0, [], 0x0, false, false⟩,
  ⟨0x60, [], .rw, 0xFFFFFFE0, [], 0x0, false, false⟩,
  ⟨0x64, [], .rw, 0xFF, [], 0x0, false, false⟩,
  ⟨0x68, [], .rw, 0xFFFF010F, [(3, 0, 4, 10)], 0xC000004, false, false⟩,
  ⟨0x6C, [], .rw, 0xFFFF, [], 0x0, false, false⟩,
  ⟨0x70, [], .ro, 0x0, [], 0x0, false, false⟩,
  ⟨0x78, [], .rw, 0xFFFFFFC0, [], 0x0, false, false⟩,
  ⟨0x7C, [], .rw, 0xFF, [], 0x0, false, false⟩,
  ⟨0x80, [], .rw, 0xFFFF8000, [], 0x0, false, false⟩,
  ⟨0x84, [], .rw, 0xFF, [], 0x0, false, false⟩,
  ⟨0x88, [], .rw, 0xF, [(3, 0, 1, 4)], 0x3, false, false⟩,
  ⟨0x8C, [], .ro, 0x0, [], 0x0, false, false⟩,
  ⟨0x90, [], .rw, 0xFFFFFF80, [], 0x0, false, false⟩,
  ⟨0x94, [], .rw, 0xFF, [], 0x0, false, false⟩,
  ⟨0x98, [], .rw, 0xF, [(3, 0, 6, 14)], 0xA, false, false⟩,
  ⟨0x9C, [], .ro, 0x0, [], 0x0, false, false⟩,
  ⟨0xA0, [], .rw, 0xFFFFFFE0, [], 0x0, false, false⟩,
  ⟨0xA4, [], .rw, 0xFF, [], 0x0, false, false⟩,
  ⟨0xA8, [], .rw, 0xF, [(3, 0, 6, 14)], 0xA, false, false⟩,
  ⟨0xAC, [], .ro, 0x0, [], 0x0, false, false⟩]

/-- The register map of GNS, part 2. -/
def mapGNS2 : List RegRow := [
  ⟨0xB0, [], .rw, 0xFFFFFF80, [], 0x0, false, false⟩,
  ⟨0xB4, [], .rw, 0xFF, [], 0x0, false, false⟩,
  ⟨0xB8, [], .rw, 0xF, [(3, 0, 4, 12)], 0x6, false, false⟩,
  ⟨0xC0, [], .rw, 0xFFFFFFC0, [], 0x0, false, false⟩,
  ⟨0xC4, [], .rw, 0xFF, [], 0x0, false, false⟩,
  ⟨0xC8, [], .rw, 0xF, [(3, 0, 4, 16)], 0xC, false, false⟩,
  ⟨0xD0, [], .rw, 0xFFFFFFC0, [], 0x0, false, false⟩,
  ⟨0xD4, [], .rw, 0xFF, [], 0x0, false, false⟩,
  ⟨0xD8, [], .rw, 0x1FFFF, [], 0x0, false, false⟩,
  ⟨0x100, [(0x4, 16)], .ro, 0x0, [], 0x0, false, false⟩,
  ⟨0x140, [(0x4, 16)], .w1c, 0xFFFFFFFF, [], 0x0, false, false⟩]

/-- The register map of GNS. -/
def mapGNS : List RegRow := mapGNS1 ++ mapGNS2

/-- The register map of TIM, part 1. -/
def mapTIM1 : List RegRow := [
  ⟨0x0, [], .wo, 0xFFFFFFFF, [], 0x0, false, false⟩,
  ⟨0x4, [(0x4, 4)], .rw, 0xFFFFFFFF, [], 0x0, false, false⟩,
  ⟨0x14, [], .ro, 0x0, [], 0x0, false, false⟩,
  ⟨0x18, [], .rw, 0xFFFFFFFF, [], 0x0, false, false⟩,
  ⟨0x20, [], .ro, 0x0, [], 0x0, false, false⟩,
  ⟨0x24, [], .w1c, 0xFF, [], 0x0, false, false⟩,
  ⟨0x28, [], .rw, 0xFF, [], 0xF7, false, false⟩,
  ⟨0x30, [], .ro, 0x0, [], 0x0, false, false⟩,
  ⟨0x34, [], .ro, 0x0, [], 0x0, false, false⟩,
  ⟨0x38, [], .rwp, 0xF77, [(11, 8, 1, 10)], 0x205, false, true⟩,
  ⟨0x3C, [], .rw, 0x1FFFFFFF, [], 0x0, false, true⟩,
  ⟨0x40, [], .ro, 0x0, [], 0xFFFFFFFF, false, false⟩,
  ⟨0x44, [], .ro, 0x0, [], 0x0, false, false⟩,
  ⟨0x48, [], .ro, 0x0, [], 0x0, false, false⟩,
  ⟨0x4C, [], .ro, 0x0, [], 0x0, false, false⟩,
  ⟨0x50, [], .rw, 0x1FF, [], 0x12, false, false⟩,
  ⟨0x60, [], .rw, 0xFFFFFFFF, [], 0x0, false, false⟩,
  ⟨0x64, [], .rw, 0xFFFFFFFF, [], 0x0, false, false⟩,
  ⟨0x68, [], .rw, 0xFFFF, [], 0x0, false, false⟩,
  ⟨0x6C, [], .rw, 0xFFFFFFFF, [], 0x0, false, false⟩,
  ⟨0x70, [], .wo, 0xFFFFFFFF, [], 0x0, false, false⟩,
  ⟨0x74, [], .ro, 0x0, [], 0x0, false, false⟩,
  ⟨0x80, [], .ro, 0x0, [], 0x0, false, false⟩,
  ⟨0x84, [], .ro, 0x0, [], 0x0, false, false⟩,
  ⟨0x88, [], .ro, 0x0, [], 0x0, false, false⟩,
  ⟨0x8C, [], .ro, 0x0, [], 0x0, false, false⟩,
  ⟨0x90, [], .rwp, 0xFFFF, [], 0xF8F8, false, true⟩,
  ⟨0x94, [], .ro, 0x0, [], 0x0, false, false⟩,
  ⟨0x98, [], .ro, 0x0, [], 0x0, false, false⟩,
  ⟨0xA0, [], .ro, 0x0, [], 0x0, false, false⟩]

/-- The register map of TIM. -/
def mapTIM : List RegRow := mapTIM1

/-- The register map of TBL, part 1. -/
def mapTBL1 : List RegRow := [
  ⟨0x0, [], .wo, 0xFFFFFFFF, [], 0x0, false, false⟩,
  ⟨0x4, [(0x4, 4)], .rw, 0xFFFFFFFF, [], 0x0, false, false⟩,
  ⟨0x14, [], .ro, 0x0, [], 0x0, false, false⟩,
  ⟨0x18, [], .rw, 0xFFFFFFFF, [], 0x0, false, false⟩,
  ⟨0x20, [], .ro, 0x0, [], 0x0, false, false⟩,
  ⟨0x24, [], .w1c, 0x8FFF, [], 0x0, false, false⟩,
  ⟨0x28, [], .rw, 0xFFFF, [], 0xFFFE, false, false⟩,
  ⟨0x30, [], .rwp, 0x7F3F1F, [(22, 16, 1, 64), (4, 0, 1, 20)], 0x0, false, true⟩,
  ⟨0x34, [], .rwp, 0xFFFF, [], 0x0, false, true⟩,
  ⟨0x38, [], .rwp, 0x7FF07FF, [], 0x0, false, true⟩,
  ⟨0x3C, [], .rwp, 0xFFFF, [], 0x0, false, true⟩,
  ⟨0x40, [], .rw, 0xFFF00000, [], 0x0, false, false⟩,
  ⟨0x44, [], .rw, 0xFF, [], 0x0, false, false⟩,
  ⟨0x48, [], .rw, 0xFFFFFFFF, [], 0x0, false, false⟩,
  ⟨0x4C, [], .rw, 0xFFFFFFFF, [], 0x0, false, false⟩,
  ⟨0x50, [], .ro, 0x0, [], 0x0, false, false⟩,
  ⟨0x54, [], .ro, 0x0, [], 0x0, false, false⟩,
  ⟨0x58, [], .ro, 0x0, [], 0x0, false, false⟩,
  ⟨0x5C, [], .ro, 0x0, [], 0x0, false, false⟩,
  ⟨0x60, [], .ro, 0x0, [], 0x0, false, false⟩,
  ⟨0x64, [], .ro, 0x0, [], 0x0, false, false⟩,
  ⟨0x100, [(0x20, 16)], .rw, 0x3FF, [], 0x0, false, true⟩,
  ⟨0x104, [(0x20, 16)], .ro, 0x0, [], 0x0, false, false⟩,
  ⟨0x108, [(0x20, 16)], .ro, 0x0, [], 0x0, false, false⟩,
  ⟨0x10C, [(0x20, 16)], .ro, 0x0, [], 0x0, false, false⟩,
  ⟨0x110, [(0x20, 16)], .ro, 0x0, [], 0x0, false, false⟩,
  ⟨0x114, [(0x20, 16)], .ro, 0x0, [], 0x0, false, false⟩,
  ⟨0x118, [(0x20, 16)], .ro, 0x0, [], 0x0, false, false⟩,
  ⟨0x11C, [(0x20, 16)], .ro, 0x0, [], 0x0, false, false⟩]

/-- The register map of TBL. -/
def mapTBL : List RegRow := mapTBL1

/-- The register map of LPE, part 1. -/
def mapLPE1 : List RegRow := [
  ⟨0x0, [], .wo, 0xFFFFFFFF, [], 0x0, false, false⟩,
  ⟨0x4, [(0x4, 4)], .rw, 0xFFFFFFFF, [], 0x0, false, false⟩,
  ⟨0x14, [], .ro, 0x0, [], 0x0, false, false⟩,
  ⟨0x18, [], .rw, 0xFFFFFFFF, [], 0x0, false, false⟩,
  ⟨0x20, [], .ro, 0x0, [], 0x0, false, false⟩,
  ⟨0x24, [], .w1c, 0xFFFF81FF, [], 0x0, false, false⟩,
  ⟨0x28, [], .rw, 0xFFFFFFFF, [], 0xFFFF, false, false⟩,
  ⟨0x30, [], .ro, 0x0, [], 0x0, false, false⟩,
  ⟨0x40, [(0x4, 4)], .ro, 0x0, [], 0x0, false, false⟩,
  ⟨0x50, [(0x4, 4)], .ro, 0x0, [], 0x0, false, false⟩,
  ⟨0x200, [(0x4, 128)], .rw, 0xFFFFFFFF, [], 0x0, false, false⟩,
  ⟨0x800, [(0x20, 16)], .rwp, 0xF000FFFF, [], 0x0, false, true⟩,
  ⟨0x804, [(0x20, 16)], .rwp, 0xFFFFFFFF, [], 0x0, false, true⟩,
  ⟨0x808, [(0x20, 16)], .rwp, 0xFFFFFFFF, [], 0x0, false, true⟩,
  ⟨0x80C, [(0x20, 16)], .ro, 0x0, [], 0x8000, false, false⟩,
  ⟨0x810, [(0x20, 16)], .ro, 0x0, [], 0x0, false, false⟩,
  ⟨0x814, [(0x20, 16)], .ro, 0x0, [], 0x0, false, false⟩,
  ⟨0x1000, [(0x40, 128)], .rwp, 0xCFFFFF1F, [], 0x0, false, true⟩,
  ⟨0x1004, [(0x40, 128)], .rwp, 0xFFFFF, [], 0x0, false, true⟩,
  ⟨0x1008, [(0x40, 128)], .rwp, 0xFFFFF, [], 0x0, false, true⟩,
  ⟨0x100C, [(0x40, 128)], .rwp, 0xF000FFFF, [], 0x0, false, true⟩,
  ⟨0x1010, [(0x40, 128)], .ro, 0x0, [], 0x0, false, false⟩,
  ⟨0x1014, [(0x40, 128)], .ro, 0x0, [], 0x0, false, false⟩,
  ⟨0x1018, [(0x40, 128)], .ro, 0x0, [], 0x0, false, false⟩,
  ⟨0x101C, [(0x40, 128)], .w1c, 0x1FFF, [], 0x0, false, false⟩,
  ⟨0x1020, [(0x40, 128)], .ro, 0x0, [], 0x0, false, false⟩,
  ⟨0x1024, [(0x40, 128)], .ro, 0x0, [], 0x0, false, false⟩,
  ⟨0x40000, [(0x1800, 128), (0xC00, 2), (0x4, 768)], .rw, 0xFFFFFFFF, [], 0x0, false, true⟩]

/-- The register map of LPE. -/
def mapLPE : List RegRow := mapLPE1

/-- The register map of VLV, part 1. -/
def mapVLV1 : List RegRow := [
  ⟨0x0, [], .wo, 0xFFFFFFFF, [], 0x0, false, false⟩,
  ⟨0x4, [(0x4, 4)], .rw, 0xFFFFFFFF, [], 0x0, false, false⟩,
  ⟨0x14, [], .ro, 0x0, [], 0x0, false, false⟩,
  ⟨0x18, [], .rw, 0xFFFFFFFF, [], 0x0, true, false⟩,
  ⟨0x20, [], .ro, 0x0, [], 0x0, true, false⟩,
  ⟨0x30, [], .rwp, 0xFFFF, [(15, 0, 0, 40000)], 0x0, true, true⟩,
  ⟨0x34, [], .ro, 0x0, [], 0x0, true, false⟩,
  ⟨0x38, [], .ro, 0x0, [], 0x0, true, false⟩,
  ⟨0x3C, [], .ro, 0x0, [], 0x0, false, false⟩,
  ⟨0x40, [], .ro, 0x0, [], 0x0, true, false⟩,
  ⟨0x100, [(0x10, 8)], .rwp, 0xFFFF, [(15, 0, 0, 10000)], 0x2710, true, true⟩,
  ⟨0x104, [(0x10, 8)], .ro, 0x0, [], 0x0, true, false⟩,
  ⟨0x108, [(0x10, 8)], .ro, 0x0, [], 0x0, true, false⟩,
  ⟨0x200, [(0x4, 16)], .ro, 0x0, [], 0x0, false, false⟩,
  ⟨0x1000, [(0x100, 32)], .rwp, 0xFFFF0FFF, [(9, 0, 0, 1000)], 0x0, true, true⟩,
  ⟨0x1004, [(0x100, 32)], .rwp, 0xFFFFFFFF, [(31, 16, 0, 1000)], 0x0, true, true⟩,
  ⟨0x1008, [(0x100, 32)], .rwp, 0x1F0FFFFF, [], 0x0, true, true⟩,
  ⟨0x100C, [(0x100, 32)], .rwp, 0xFFFF01FF, [(8, 0, 0, 500)], 0x0, true, true⟩,
  ⟨0x1010, [(0x100, 32)], .rwp, 0x800003FF, [(9, 0, 1, 600)], 0x0, true, true⟩,
  ⟨0x1014, [(0x100, 32)], .rwp, 0xFFFFFFFF, [], 0x0, true, true⟩,
  ⟨0x1018, [(0x100, 32)], .rwp, 0xFF003FFF, [(31, 24, 50, 99)], 0x0, true, true⟩,
  ⟨0x101C, [(0x100, 32)], .ro, 0x0, [], 0x0, true, false⟩,
  ⟨0x1020, [(0x100, 32)], .rwp, 0xFF07, [(15, 8, 1, 100)], 0x0, true, true⟩,
  ⟨0x1024, [(0x100, 32)], .rwp, 0xF0FFFFFF, [], 0x0, true, true⟩,
  ⟨0x1028, [(0x100, 32)], .rwp, 0xFFFF, [], 0x0, true, true⟩,
  ⟨0x102C, [(0x100, 32)], .ro, 0x0, [], 0x0, true, false⟩,
  ⟨0x1040, [(0x100, 32), (0x10, 4), (0x4, 3)], .rwp, 0xFFFFFFFF, [], 0x0, true, true⟩,
  ⟨0x1080, [(0x100, 32)], .rw, 0x3FFF, [], 0x0, true, false⟩,
  ⟨0x1084, [(0x100, 32)], .wo, 0xFFFFFFFF, [], 0x0, false, false⟩,
  ⟨0x1088, [(0x100, 32)], .ro, 0x0, [], 0x0, true, false⟩]

/-- The register map of VLV, part 2. -/
def mapVLV2 : List RegRow := [
  ⟨0x108C, [(0x100, 32)], .ro, 0x0, [], 0x0, true, false⟩,
  ⟨0x1090, [(0x100, 32)], .w1c, 0x3FFF, [], 0x0, true, false⟩,
  ⟨0x1094, [(0x100, 32)], .rw, 0x3FFF, [], 0x3FFE, true, false⟩,
  ⟨0x1098, [(0x100, 32)], .ro, 0x0, [], 0x0, true, false⟩,
  ⟨0x109C, [(0x100, 32)], .ro, 0x0, [], 0x0, true, false⟩,
  ⟨0x10A0, [(0x100, 32)], .ro, 0x0, [], 0x0, true, false⟩,
  ⟨0x10A4, [(0x100, 32)], .ro, 0x0, [], 0x0, true, false⟩,
  ⟨0x10A8, [(0x100, 32)], .ro, 0x0, [], 0x0, true, false⟩,
  ⟨0x10AC, [(0x100, 32)], .ro, 0x0, [], 0xFF, true, false⟩,
  ⟨0x10B0, [(0x100, 32)], .ro, 0x0, [], 0x0, true, false⟩,
  ⟨0x80000, [(0x400, 32), (0x200, 2), (0x4, 65)], .rw, 0xFFFFFFFF, [], 0x0, true, true⟩]

/-- The register map of VLV. -/
def mapVLV : List RegRow := mapVLV1 ++ mapVLV2

/-- The register map of LSW, part 1. -/
def mapLSW1 : List RegRow := [
  ⟨0x0, [], .wo, 0xFFFFFFFF, [], 0x0, false, false⟩,
  ⟨0x4, [(0x4, 4)], .rw, 0xFFFFFFFF, [], 0x0, false, false⟩,
  ⟨0x14, [], .ro, 0x0, [], 0x0, false, false⟩,
  ⟨0x18, [], .rw, 0xFFFFFFFF, [], 0x0, true, false⟩,
  ⟨0x20, [], .ro, 0x0, [], 0x0, true, false⟩,
  ⟨0x30, [(0x10, 2)], .rwp, 0xFF, [(7, 0, 0, 80)], 0x50, true, true⟩,
  ⟨0x34, [(0x10, 2)], .ro, 0x0, [], 0x0, true, false⟩,
  ⟨0x38, [(0x10, 2)], .ro, 0x0, [], 0x0, true, false⟩,
  ⟨0x50, [], .ro, 0x0, [], 0x0, false, false⟩,
  ⟨0x54, [], .ro, 0x0, [], 0x0, false, false⟩,
  ⟨0x58, [], .ro, 0x0, [], 0x0, true, false⟩,
  ⟨0x5C, [], .ro, 0x0, [], 0x0, true, false⟩,
  ⟨0x1000, [(0x40, 40)], .rwp, 0xF970003F, [], 0x0, true, true⟩,
  ⟨0x1004, [(0x40, 40)], .rwp, 0xFFFFFFFF, [], 0x0, true, true⟩,
  ⟨0x1008, [(0x40, 40)], .rwp, 0xC00001FF, [(8, 0, 0, 500)], 0x0, true, true⟩,
  ⟨0x100C, [(0x40, 40)], .rwp, 0xFFFFFFFF, [(31, 16, 0, 600), (15, 0, 0, 15000)], 0x0, true, true⟩,
  ⟨0x1010, [(0x40, 40)], .ro, 0x0, [], 0x0, true, false⟩,
  ⟨0x1014, [(0x40, 40)], .ro, 0x0, [], 0x0, true, false⟩,
  ⟨0x1018, [(0x40, 40)], .rwp, 0xFFFF03FF, [(31, 16, 100, 2000), (9, 0, 0, 1000)], 0x0, true, true⟩,
  ⟨0x101C, [(0x40, 40)], .rwp, 0xFFFF0003, [], 0x0, true, true⟩,
  ⟨0x1020, [(0x40, 40)], .wo, 0xFFFFFFFF, [], 0x0, false, false⟩,
  ⟨0x1024, [(0x40, 40)], .ro, 0x0, [], 0x0, true, false⟩,
  ⟨0x1028, [(0x40, 40)], .ro, 0x0, [], 0x0, true, false⟩,
  ⟨0x102C, [(0x40, 40)], .w1c, 0x7FF, [], 0x0, true, false⟩,
  ⟨0x1030, [(0x40, 40)], .rw, 0x7FF, [], 0x7FE, true, false⟩,
  ⟨0x1034, [(0x40, 40)], .ro, 0x0, [], 0x0, true, false⟩,
  ⟨0x1038, [(0x40, 40)], .ro, 0x0, [], 0x0, true, false⟩,
  ⟨0x103C, [(0x40, 40)], .ro, 0x0, [], 0x0, true, false⟩]

/-- The register map of LSW. -/
def mapLSW : List RegRow := mapLSW1

/-- The register map of AIO, part 1. -/
def mapAIO1 : List RegRow := [
  ⟨0x0, [], .wo, 0xFFFFFFFF, [], 0x0, false, false⟩,
  ⟨0x4, [(0x4, 4)], .rw, 0xFFFFFFFF, [], 0x0, false, false⟩,
  ⟨0x14, [], .ro, 0x0, [], 0x0, false, false⟩,
  ⟨0x18, [], .rw, 0xFFFFFFFF, [], 0x0, false, false⟩,
  ⟨0x20, [], .ro, 0x0, [], 0x0, false, false⟩,
  ⟨0x24, [], .w1c, 0x9F, [], 0x0, false, false⟩,
  ⟨0x28, [], .rw, 0xFF, [], 0xFF, false, false⟩,
  ⟨0x30, [], .ro, 0x0, [], 0x0, false, false⟩,
  ⟨0x34, [], .ro, 0x0, [], 0x0, false, false⟩,
  ⟨0x38, [], .ro, 0x0, [], 0x0, false, false⟩,
  ⟨0x3C, [], .ro, 0x0, [], 0x0, false, false⟩,
  ⟨0x40, [(0x10, 6)], .rwp, 0x1, [], 0x0, true, true⟩,
  ⟨0x44, [(0x10, 6)], .ro, 0x0, [], 0x0, true, false⟩,
  ⟨0x100, [(0x20, 48)], .rwp, 0xFFFF0000, [], 0x0, false, true⟩,
  ⟨0x104, [(0x20, 48)], .ro, 0x0, [], 0x0, false, false⟩,
  ⟨0x108, [(0x20, 48)], .rwp, 0xFFFFFFFF, [], 0x0, false, true⟩,
  ⟨0x10C, [(0x20, 48)], .ro, 0x0, [], 0x0, false, false⟩,
  ⟨0x110, [(0x20, 48)], .ro, 0x0, [], 0xFFFF, false, false⟩,
  ⟨0x800, [(0x20, 24)], .rwp, 0xFCFFFFFF, [(23, 16, 1, 100), (15, 8, 1, 100)], 0x0, false, true⟩,
  ⟨0x804, [(0x20, 24)], .ro, 0x0, [], 0x0, false, false⟩,
  ⟨0x808, [(0x20, 24)], .ro, 0x0, [], 0x0, false, false⟩,
  ⟨0x80C, [(0x20, 24)], .ro, 0x0, [], 0x0, false, false⟩,
  ⟨0x810, [(0x20, 24)], .ro, 0x0, [], 0x0, false, false⟩,
  ⟨0xC00, [(0x40, 8)], .rwp, 0x80FFFFFF, [], 0x0, false, true⟩,
  ⟨0xC04, [(0x40, 8)], .rwp, 0xFFFFFFFF, [(31, 16, 0, 10000), (15, 0, 0, 10000)], 0x0, false, true⟩,
  ⟨0xC08, [(0x40, 8)], .ro, 0x0, [], 0x0, false, false⟩,
  ⟨0xC0C, [(0x40, 8)], .ro, 0x0, [], 0x0, false, false⟩,
  ⟨0xC10, [(0x40, 8)], .ro, 0x0, [], 0x0, false, false⟩,
  ⟨0xC14, [(0x40, 8)], .ro, 0x0, [], 0x0, false, false⟩,
  ⟨0xC18, [(0x40, 8), (0x4, 8)], .ro, 0x0, [], 0x0, false, false⟩]

/-- The register map of AIO. -/
def mapAIO : List RegRow := mapAIO1

/-- The register map of MAP, part 1. -/
def mapMAP1 : List RegRow := [
  ⟨0x0, [], .wo, 0xFFFFFFFF, [], 0x0, false, false⟩,
  ⟨0x4, [(0x4, 4)], .rw, 0xFFFFFFFF, [], 0x0, false, false⟩,
  ⟨0x14, [], .ro, 0x0, [], 0x0, false, false⟩,
  ⟨0x18, [], .rw, 0xFFFFFFFF, [], 0x0, false, false⟩,
  ⟨0x20, [], .ro, 0x0, [], 0x0, false, false⟩,
  ⟨0x24, [], .w1c, 0xFF, [], 0x0, false, false⟩,
  ⟨0x28, [], .rw, 0xFF, [], 0xFF, false, false⟩,
  ⟨0x30, [], .rwp, 0x7FF07FF, [(26, 16, 400, 2000), (10, 0, 0, 2000)], 0x0, false, true⟩,
  ⟨0x34, [], .rwp, 0x3F3F001F, [], 0x0, false, true⟩,
  ⟨0x38, [], .rwp, 0xFFFFFFFF, [], 0x0, false, true⟩,
  ⟨0x3C, [], .rw, 0xFFFFFFFF, [], 0x0, false, true⟩,
  ⟨0x40, [], .rwp, 0xC00000FF, [], 0x0, false, true⟩,
  ⟨0x44, [], .rwp, 0xFFFFFFFF, [], 0x0, false, true⟩,
  ⟨0x48, [], .rwp, 0xFFFFFFFF, [], 0x0, false, true⟩,
  ⟨0x4C, [], .rwp, 0xFF, [], 0x0, false, true⟩,
  ⟨0x50, [], .rwp, 0xFFFFFFFF, [], 0x0, false, true⟩,
  ⟨0x54, [], .rw, 0xFFFF, [], 0x0, false, false⟩,
  ⟨0x58, [], .rw, 0xF, [], 0x0, false, true⟩,
  ⟨0x60, [(0x4, 9)], .rw, 0xFFFFFFFF, [], 0x0, false, true⟩,
  ⟨0x90, [], .rw, 0xFFFFFFFF, [], 0x0, false, false⟩,
  ⟨0x94, [], .rw, 0xFFFFFFFF, [], 0x0, false, false⟩,
  ⟨0x98, [], .rw, 0xFFFFFFFF, [], 0x0, false, false⟩,
  ⟨0x9C, [], .rw, 0xFFFF, [], 0x0, false, false⟩,
  ⟨0xA0, [], .wo, 0xFFFFFFFF, [], 0x0, false, false⟩,
  ⟨0xB0, [], .rw, 0xFFF00000, [], 0x0, false, false⟩,
  ⟨0xB4, [], .rw, 0xFF, [], 0x0, false, false⟩,
  ⟨0xB8, [], .rwp, 0xFFFFFFFF, [], 0x0, false, true⟩,
  ⟨0xBC, [], .rwp, 0xFFFFFFFF, [], 0x0, false, true⟩,
  ⟨0xC0, [], .ro, 0x0, [], 0x0, false, false⟩,
  ⟨0xC4, [], .ro, 0x0, [], 0x0, false, false⟩]

/-- The register map of MAP, part 2. -/
def mapMAP2 : List RegRow := [
  ⟨0xC8, [], .ro, 0x0, [], 0x0, false, false⟩,
  ⟨0xCC, [], .ro, 0x0, [], 0xFFFF, false, false⟩,
  ⟨0xD0, [], .ro, 0x0, [], 0x0, false, false⟩,
  ⟨0xD4, [], .ro, 0x0, [], 0x0, false, false⟩,
  ⟨0xD8, [], .ro, 0x0, [], 0x0, false, false⟩,
  ⟨0xDC, [], .ro, 0x0, [], 0x0, false, false⟩,
  ⟨0xE0, [], .ro, 0x0, [], 0x0, false, false⟩,
  ⟨0xE4, [], .ro, 0x0, [], 0x0, false, false⟩,
  ⟨0xE8, [], .ro, 0x0, [], 0x0, false, false⟩,
  ⟨0xEC, [], .ro, 0x0, [], 0x0, false, false⟩,
  ⟨0xF0, [], .ro, 0x0, [], 0x0, false, false⟩,
  ⟨0x100, [(0x4, 16)], .rwp, 0xFFFFFFFF, [], 0x0, false, true⟩,
  ⟨0x140, [], .ro, 0x0, [], 0x0, false, false⟩]

/-- The register map of MAP. -/
def mapMAP : List RegRow := mapMAP1 ++ mapMAP2

/-- The register map of PNL, part 1. -/
def mapPNL1 : List RegRow := [
  ⟨0x0, [], .wo, 0xFFFFFFFF, [], 0x0, false, false⟩,
  ⟨0x4, [(0x4, 4)], .rw, 0xFFFFFFFF, [], 0x0, false, false⟩,
  ⟨0x14, [], .ro, 0x0, [], 0x0, false, false⟩,
  ⟨0x18, [], .rw, 0xFFFFFFFF, [], 0x0, false, false⟩,
  ⟨0x20, [], .ro, 0x0, [], 0x0, false, false⟩,
  ⟨0x24, [], .w1c, 0xFF, [], 0x0, false, false⟩,
  ⟨0x28, [], .rw, 0xFF, [], 0xFE, false, false⟩,
  ⟨0x30, [], .rwp, 0x3, [], 0x0, false, true⟩,
  ⟨0x34, [], .rw, 0x3F, [(5, 0, 1, 60)], 0x0, false, true⟩,
  ⟨0x38, [], .ro, 0x0, [], 0x0, false, false⟩,
  ⟨0x3C, [], .ro, 0x0, [], 0x0, false, false⟩,
  ⟨0x40, [], .ro, 0x0, [], 0x0, false, false⟩,
  ⟨0x44, [], .ro, 0x0, [], 0x0, false, false⟩,
  ⟨0x48, [], .ro, 0x0, [], 0x0, false, false⟩,
  ⟨0x50, [], .rw, 0xFFFFFFC0, [], 0x0, false, false⟩,
  ⟨0x54, [], .rw, 0xFF, [], 0x0, false, false⟩,
  ⟨0x58, [], .rw, 0xFFFFFFC0, [], 0x0, false, false⟩,
  ⟨0x5C, [], .rw, 0xFF, [], 0x0, false, false⟩,
  ⟨0x60, [], .rw, 0xFFC0, [(15, 6, 90, 1023)], 0x1680, false, false⟩,
  ⟨0x64, [], .rw, 0xFFFFFFFF, [], 0x0, false, false⟩,
  ⟨0x68, [], .wo, 0xFFFFFFFF, [], 0x0, false, false⟩,
  ⟨0x6C, [], .ro, 0x0, [], 0x0, false, false⟩,
  ⟨0x70, [], .ro, 0x0, [], 0x0, false, false⟩,
  ⟨0x74, [], .ro, 0x0, [], 0x0, false, false⟩,
  ⟨0x78, [], .ro, 0x0, [], 0x0, false, false⟩,
  ⟨0x80, [(0x4, 4)], .ro, 0x0, [], 0x0, false, false⟩,
  ⟨0x100, [(0x20, 3), (0x4, 8)], .rwp, 0xFFFFFF, [], 0x0, false, true⟩,
  ⟨0x180, [], .ro, 0x0, [], 0x0, false, false⟩,
  ⟨0x184, [], .ro, 0x0, [], 0x0, false, false⟩,
  ⟨0x188, [], .rw, 0xFFF00000, [], 0x0, false, false⟩]

/-- The register map of PNL, part 2. -/
def mapPNL2 : List RegRow := [
  ⟨0x18C, [], .rw, 0xFF, [], 0x0, false, false⟩,
  ⟨0x200, [], .rwp, 0xFFFF013F, [(31, 16, 200, 25000)], 0x0, false, true⟩,
  ⟨0x204, [], .rw, 0x3FF0FFF, [(25, 16, 0, 1000), (11, 0, 0, 1200)], 0x0, false, false⟩,
  ⟨0x208, [], .ro, 0x0, [], 0x0, false, false⟩,
  ⟨0x20C, [], .ro, 0x0, [], 0x0, false, false⟩,
  ⟨0x220, [(0x4, 6)], .ro, 0x0, [], 0x0, false, false⟩]

/-- The register map of PNL. -/
def mapPNL : List RegRow := mapPNL1 ++ mapPNL2

/-- The register map of CAN, part 1. -/
def mapCAN1 : List RegRow := [
  ⟨0x0, [], .wo, 0xFFFFFFFF, [], 0x0, false, false⟩,
  ⟨0x4, [(0x4, 4)], .rw, 0xFFFFFFFF, [], 0x0, false, false⟩,
  ⟨0x14, [], .ro, 0x0, [], 0x0, false, false⟩,
  ⟨0x18, [], .rw, 0xFFFFFFFF, [], 0x0, false, false⟩,
  ⟨0x20, [], .ro, 0x0, [], 0x0, false, false⟩,
  ⟨0x100, [(0x10000, 8)], .rwp, 0xFF00, [], 0x0, false, true⟩,
  ⟨0x104, [(0x10000, 8)], .rwp, 0xFFFFFC1F, [], 0x0, false, true⟩,
  ⟨0x108, [(0x10000, 8)], .rwp, 0xF1F0F1F, [], 0x0, false, true⟩,
  ⟨0x10C, [(0x10000, 8)], .rwp, 0x807F0000, [], 0x0, false, true⟩,
  ⟨0x110, [(0x10000, 8)], .ro, 0x0, [], 0x0, false, false⟩,
  ⟨0x114, [(0x10000, 8)], .ro, 0x0, [], 0x0, false, false⟩,
  ⟨0x118, [(0x10000, 8)], .w1c, 0x7F3F, [], 0x0, false, false⟩,
  ⟨0x11C, [(0x10000, 8)], .rw, 0x7F3F, [], 0x7F3E, false, false⟩,
  ⟨0x120, [(0x10000, 8)], .ro, 0x0, [], 0x0, false, false⟩,
  ⟨0x124, [(0x10000, 8)], .ro, 0x0, [], 0x0, false, false⟩,
  ⟨0x128, [(0x10000, 8), (0x4, 4)], .w1s, 0xFFFFFFFF, [], 0x0, false, false⟩,
  ⟨0x138, [(0x10000, 8), (0x4, 4)], .w1s, 0xFFFFFFFF, [], 0x0, false, false⟩,
  ⟨0x148, [(0x10000, 8), (0x4, 4)], .ro, 0x0, [], 0x0, false, false⟩,
  ⟨0x158, [(0x10000, 8), (0x4, 4)], .rw, 0xFFFFFFFF, [], 0x0, false, false⟩,
  ⟨0x168, [(0x10000, 8), (0x4, 2)], .ro, 0x0, [], 0x0, false, false⟩,
  ⟨0x170, [(0x10000, 8), (0x4, 2)], .wo, 0xFFFFFFFF, [], 0x0, false, false⟩,
  ⟨0x178, [(0x10000, 2)], .rw, 0xFF, [], 0xFE, false, false⟩,
  ⟨0x180, [(0x10000, 8)], .rwp, 0xFFFFFF1F, [], 0x0, false, true⟩,
  ⟨0x184, [(0x10000, 8)], .rwp, 0x9FFFFFFF, [], 0x0, false, true⟩,
  ⟨0x188, [(0x10000, 8)], .rwp, 0xFFFF, [], 0x0, false, true⟩,
  ⟨0x18C, [(0x10000, 8)], .ro, 0x0, [], 0x0, false, false⟩,
  ⟨0x190, [(0x10000, 8)], .ro, 0x0, [], 0x0, false, false⟩,
  ⟨0x1A0, [(0x10000, 8), (0x4, 2)], .ro, 0x0, [], 0x0, false, false⟩,
  ⟨0x200, [(0x10000, 8), (0x8, 64)], .rwp, 0xFFFFFFFF, [], 0x0, false, true⟩,
  ⟨0x204, [(0x10000, 8), (0x8, 64)], .rwp, 0x1FFFFFFF, [], 0x0, false, true⟩]

/-- The register map of CAN, part 2. -/
def mapCAN2 : List RegRow := [
  ⟨0x400, [(0x10000, 8), (0x4, 32)], .rwp, 0xFFFF, [], 0x0, false, true⟩,
  ⟨0x800, [(0x10000, 8), (0x80, 64), (0x4, 32)], .rwp, 0x37F, [], 0x0, false, true⟩,
  ⟨0x4000, [(0x10000, 8), (0x60, 128), (0x4, 24)], .rw, 0xFFFFFFFF, [], 0x0, false, false⟩,
  ⟨0x8000, [(0x10000, 8), (0x60, 2), (0x4, 24)], .ro, 0x0, [], 0x0, false, false⟩,
  ⟨0x9000, [(0x10000, 2), (0x20, 8)], .rw, 0xDCFF0000, [], 0x0, false, false⟩,
  ⟨0x9004, [(0x10000, 2), (0x20, 8)], .rw, 0x3FFFF, [], 0x0, false, false⟩,
  ⟨0x9008, [(0x10000, 2), (0x20, 8)], .rw, 0xFFFFFFFF, [], 0x0, false, false⟩,
  ⟨0x900C, [(0x10000, 2), (0x20, 8)], .rw, 0xFF, [], 0x0, false, false⟩,
  ⟨0x9010, [(0x10000, 2), (0x20, 8)], .rw, 0x7FFFFFF, [], 0x0, false, false⟩,
  ⟨0x9014, [(0x10000, 2), (0x20, 8)], .ro, 0x0, [], 0x0, false, false⟩,
  ⟨0x80000, [(0x20, 256)], .rwp, 0x877FFF00, [], 0x0, false, true⟩,
  ⟨0x80004, [(0x20, 256)], .rwp, 0xC03F01FF, [], 0x0, false, true⟩,
  ⟨0x80008, [(0x20, 256)], .rwp, 0xFFFFFFFF, [], 0x0, false, true⟩,
  ⟨0x8000C, [(0x20, 256)], .rwp, 0xFFFFFFFF, [], 0x0, false, true⟩,
  ⟨0x80010, [(0x20, 256)], .ro, 0x0, [], 0x0, false, false⟩,
  ⟨0x80014, [(0x20, 256)], .ro, 0x0, [], 0x0, false, false⟩,
  ⟨0x82000, [(0x400, 8), (0x20, 32)], .rwp, 0xC07F0000, [], 0x0, false, true⟩,
  ⟨0x82004, [(0x400, 8), (0x20, 32)], .rwp, 0xC03F01FF, [], 0x0, false, true⟩,
  ⟨0x82008, [(0x400, 8), (0x20, 32)], .rwp, 0xFFFFFFFF, [], 0x0, false, true⟩,
  ⟨0x8200C, [(0x400, 8), (0x20, 32)], .rwp, 0xFFFFFFFF, [], 0x0, false, true⟩,
  ⟨0x82010, [(0x400, 8), (0x20, 32)], .ro, 0x0, [], 0x0, false, false⟩]

/-- The register map of CAN. -/
def mapCAN : List RegRow := mapCAN1 ++ mapCAN2

/-- The register map of ETH, part 1. -/
def mapETH1 : List RegRow := [
  ⟨0x0, [], .wo, 0xFFFFFFFF, [], 0x0, false, false⟩,
  ⟨0x4, [(0x4, 4)], .rw, 0xFFFFFFFF, [], 0x0, false, false⟩,
  ⟨0x14, [], .ro, 0x0, [], 0x0, false, false⟩,
  ⟨0x18, [], .rw, 0xFFFFFFFF, [], 0x0, false, false⟩,
  ⟨0x20, [], .ro, 0x0, [], 0x0, false, false⟩,
  ⟨0x24, [], .w1c, 0xF, [], 0x0, false, false⟩,
  ⟨0x28, [], .rw, 0xF, [], 0xF, false, false⟩,
  ⟨0x30, [], .rwp, 0xFFFFFFFF, [], 0x0, false, true⟩,
  ⟨0x34, [], .rwp, 0xFFFF, [], 0x0, false, true⟩,
  ⟨0x38, [], .rwp, 0xFFFFFFFF, [], 0x0, false, true⟩,
  ⟨0x3C, [], .rwp, 0x3FF, [(9, 0, 10, 1000)], 0x12C, false, true⟩,
  ⟨0x40, [], .rw, 0x1, [], 0x0, false, false⟩,
  ⟨0x44, [], .ro, 0x0, [], 0x0, false, false⟩,
  ⟨0x100, [(0x20, 5)], .rwp, 0xF000EFFF, [], 0x0, false, true⟩,
  ⟨0x104, [(0x20, 5)], .ro, 0x0, [], 0x0, false, false⟩,
  ⟨0x108, [(0x20, 5)], .ro, 0x0, [], 0x0, false, false⟩,
  ⟨0x10C, [(0x20, 5)], .ro, 0x0, [], 0x0, false, false⟩,
  ⟨0x110, [(0x20, 5)], .ro, 0x0, [], 0x0, false, false⟩,
  ⟨0x114, [(0x20, 5)], .ro, 0x0, [], 0x0, false, false⟩,
  ⟨0x400, [(0x4, 64)], .rwp, 0xBF3F0FFF, [], 0x0, false, true⟩,
  ⟨0x600, [(0x10, 16)], .rwp, 0xFFFFFFFF, [], 0x0, false, true⟩,
  ⟨0x604, [(0x10, 16)], .rwp, 0xFFFF, [], 0x0, false, true⟩,
  ⟨0x608, [(0x10, 16)], .rwp, 0x803F0FFF, [], 0x0, false, true⟩,
  ⟨0x800, [(0x20, 4)], .rw, 0xFFFFFFE0, [], 0x0, false, false⟩,
  ⟨0x804, [(0x20, 4)], .rw, 0xFF, [], 0x0, false, false⟩,
  ⟨0x808, [(0x20, 4)], .rw, 0x10F, [(3, 0, 4, 12)], 0x4, false, false⟩,
  ⟨0x80C, [(0x20, 4)], .rw, 0xFFFF, [], 0x0, false, false⟩,
  ⟨0x810, [(0x20, 4)], .ro, 0x0, [], 0x0, false, false⟩,
  ⟨0x814, [(0x20, 4)], .ro, 0x0, [], 0x0, false, false⟩,
  ⟨0x900, [(0x20, 4)], .rw, 0xFFFFFFE0, [], 0x0, false, false⟩]

/-- The register map of ETH, part 2. -/
def mapETH2 : List RegRow := [
  ⟨0x904, [(0x20, 4)], .rw, 0xFF, [], 0x0, false, false⟩,
  ⟨0x908, [(0x20, 4)], .rw, 0x10F, [(3, 0, 4, 12)], 0x4, false, false⟩,
  ⟨0x90C, [(0x20, 4)], .rw, 0xFFFF, [], 0x0, false, false⟩,
  ⟨0x910, [(0x20, 4)], .ro, 0x0, [], 0x0, false, false⟩]

/-- The register map of ETH. -/
def mapETH : List RegRow := mapETH1 ++ mapETH2

/-- The register map of UPD, part 1. -/
def mapUPD1 : List RegRow := [
  ⟨0x0, [], .wo, 0xFFFFFFFF, [], 0x0, false, false⟩,
  ⟨0x4, [(0x4, 4)], .rw, 0xFFFFFFFF, [], 0x0, false, false⟩,
  ⟨0x14, [], .ro, 0x0, [], 0x0, false, false⟩,
  ⟨0x18, [], .rw, 0xFFFFFFFF, [], 0x0, false, false⟩,
  ⟨0x20, [], .ro, 0x0, [], 0x0, false, false⟩,
  ⟨0x24, [], .w1c, 0xF, [], 0x0, false, false⟩,
  ⟨0x28, [], .rw, 0xF, [], 0xF, false, false⟩,
  ⟨0x2C, [], .ro, 0x0, [], 0xF, false, false⟩,
  ⟨0x30, [], .rwp, 0xFF, [(7, 0, 1, 168)], 0x18, false, true⟩,
  ⟨0x34, [], .ro, 0x0, [], 0x0, false, false⟩,
  ⟨0x100, [(0x20, 16)], .ro, 0x0, [], 0x0, false, false⟩,
  ⟨0x104, [(0x20, 16)], .ro, 0x0, [], 0x0, false, false⟩,
  ⟨0x108, [(0x20, 16)], .ro, 0x0, [], 0x0, false, false⟩,
  ⟨0x10C, [(0x20, 16)], .ro, 0x0, [], 0x0, false, false⟩,
  ⟨0x110, [(0x20, 16)], .ro, 0x0, [], 0x0, false, false⟩,
  ⟨0x114, [(0x20, 16)], .ro, 0x0, [], 0x0, false, false⟩,
  ⟨0x118, [(0x20, 16)], .rwp, 0x7, [], 0x7, false, true⟩,
  ⟨0x11C, [(0x20, 16)], .ro, 0x0, [], 0x0, false, false⟩,
  ⟨0x400, [(0x10, 16)], .rw, 0xFFFFFFFF, [], 0x0, false, false⟩,
  ⟨0x404, [(0x10, 16)], .rw, 0xFFFF, [], 0x0, false, false⟩]

/-- The register map of UPD. -/
def mapUPD : List RegRow := mapUPD1

/-- The register map of BUR, part 1. -/
def mapBUR1 : List RegRow := [
  ⟨0x0, [], .wo, 0xFFFFFFFF, [], 0x0, false, false⟩,
  ⟨0x4, [(0x4, 4)], .rw, 0xFFFFFFFF, [], 0x0, false, false⟩,
  ⟨0x14, [], .ro, 0x0, [], 0x0, false, false⟩,
  ⟨0x18, [], .rw, 0xFFFFFFFF, [], 0x0, false, false⟩,
  ⟨0x20, [], .ro, 0x0, [], 0x0, false, false⟩,
  ⟨0x24, [], .w1c, 0x3, [], 0x0, false, false⟩,
  ⟨0x28, [], .rw, 0x3, [], 0x3, false, false⟩,
  ⟨0x30, [], .rwp, 0x7003F, [(5, 0, 1, 60)], 0x6000A, false, true⟩,
  ⟨0x34, [], .ro, 0x0, [], 0x0, false, false⟩,
  ⟨0x38, [], .ro, 0x0, [], 0x0, false, false⟩,
  ⟨0x3C, [], .ro, 0x0, [], 0x0, false, false⟩,
  ⟨0x40, [], .ro, 0x0, [], 0x0, false, false⟩,
  ⟨0x44, [], .rw, 0x1FFFF, [], 0x0, false, false⟩,
  ⟨0x48, [(0x4, 8)], .ro, 0x0, [], 0x0, false, false⟩,
  ⟨0x70, [(0x4, 3)], .rw, 0xFFFFFFFF, [], 0x0, false, false⟩,
  ⟨0x7C, [], .wo, 0xFFFFFFFF, [], 0x0, false, false⟩,
  ⟨0x100, [(0x4, 8)], .rwp, 0xFFFFFFFF, [], 0x0, false, true⟩,
  ⟨0x200, [(0x4, 32)], .rwp, 0x77777777, [], 0x0, false, true⟩]

/-- The register map of BUR. -/
def mapBUR : List RegRow := mapBUR1

/-- The register map of HKP, part 1. -/
def mapHKP1 : List RegRow := [
  ⟨0x0, [], .wo, 0xFFFFFFFF, [], 0x0, false, false⟩,
  ⟨0x4, [(0x4, 4)], .rw, 0xFFFFFFFF, [], 0x0, false, false⟩,
  ⟨0x14, [], .ro, 0x0, [], 0x0, false, false⟩,
  ⟨0x18, [], .rw, 0xFFFFFFFF, [], 0x0, false, false⟩,
  ⟨0x20, [], .ro, 0x0, [], 0x0, false, false⟩,
  ⟨0x24, [], .w1c, 0x3, [], 0x0, false, false⟩,
  ⟨0x28, [], .rw, 0x3, [], 0x3, false, false⟩,
  ⟨0x30, [], .rwp, 0x3FF, [(9, 0, 50, 1000)], 0x64, false, true⟩,
  ⟨0x100, [(0x10, 64)], .ro, 0x0, [], 0x0, false, false⟩,
  ⟨0x104, [(0x10, 64)], .rwp, 0xFFFFFFFF, [], 0x0, false, true⟩,
  ⟨0x108, [(0x10, 64)], .rwp, 0xFFFFFFFF, [], 0x0, false, true⟩,
  ⟨0x10C, [(0x10, 64)], .rwp, 0xE000FFFF, [], 0x0, false, true⟩]

/-- The register map of HKP. -/
def mapHKP : List RegRow := mapHKP1

/-- The register map of SAF, part 1. -/
def mapSAF1 : List RegRow := [
  ⟨0x0, [], .wo, 0xFFFFFFFF, [], 0x0, false, false⟩,
  ⟨0x4, [(0x4, 4)], .rw, 0xFFFFFFFF, [], 0x0, false, false⟩,
  ⟨0x14, [], .ro, 0x0, [], 0x0, false, false⟩,
  ⟨0x18, [], .rw, 0xFFFFFFFF, [], 0x0, false, false⟩,
  ⟨0x20, [], .ro, 0x0, [], 0x0, false, false⟩,
  ⟨0x24, [], .w1c, 0x7, [], 0x0, false, false⟩,
  ⟨0x28, [], .rw, 0x7, [], 0x7, false, false⟩,
  ⟨0x30, [], .ro, 0x0, [], 0x0, true, false⟩,
  ⟨0x34, [], .ro, 0x0, [], 0x0, true, false⟩,
  ⟨0x38, [], .rwp, 0xFFFFFFFF, [(31, 16, 10, 1000)], 0x3E80000, false, false⟩,
  ⟨0x3C, [], .wo, 0xFFFFFFFF, [], 0x0, false, false⟩,
  ⟨0x40, [], .ro, 0x0, [], 0x0, false, false⟩,
  ⟨0x44, [], .ro, 0x0, [], 0x0, false, false⟩,
  ⟨0x50, [(0x4, 16)], .ro, 0x0, [], 0x0, false, false⟩]

/-- The register map of SAF. -/
def mapSAF : List RegRow := mapSAF1

/-- The register map of TST, part 1. -/
def mapTST1 : List RegRow := [
  ⟨0x18, [], .rw, 0xFFFFFFFF, [], 0x0, false, false⟩,
  ⟨0x20, [], .ro, 0x0, [], 0x0, false, false⟩,
  ⟨0x24, [], .w1c, 0x1, [], 0x0, false, false⟩,
  ⟨0x28, [], .rw, 0x1, [], 0x1, false, false⟩,
  ⟨0x2C, [], .wo, 0xFFFFFFFF, [], 0x0, false, false⟩,
  ⟨0x100, [(0x4, 232)], .rw, 0x3FF, [(9, 0, 0, 1000)], 0x0, false, false⟩,
  ⟨0x500, [(0x4, 32)], .rw, 0x3FF, [(9, 0, 0, 1000)], 0x0, false, false⟩,
  ⟨0x600, [(0x4, 32)], .rw, 0xFFFFFFFF, [], 0x0, false, false⟩,
  ⟨0x700, [(0x4, 8)], .rw, 0x3FF, [(9, 0, 0, 1000)], 0x0, false, false⟩,
  ⟨0x720, [], .rw, 0x7F, [(6, 0, 0, 100)], 0x0, false, false⟩,
  ⟨0x740, [(0x4, 8)], .rw, 0x7F, [(6, 0, 0, 100)], 0x0, false, false⟩]

/-- The register map of TST. -/
def mapTST : List RegRow := mapTST1

/-- The register map of PWR, part 1. -/
def mapPWR1 : List RegRow := [
  ⟨0x0, [], .wo, 0xFFFFFFFF, [], 0x0, false, false⟩,
  ⟨0x4, [(0x4, 4)], .rw, 0xFFFFFFFF, [], 0x0, false, false⟩,
  ⟨0x14, [], .ro, 0x0, [], 0x0, false, false⟩,
  ⟨0x18, [], .rw, 0xFFFFFFFF, [], 0x0, false, false⟩,
  ⟨0x20, [], .ro, 0x0, [], 0x0, false, false⟩,
  ⟨0x24, [], .w1c, 0xFF, [], 0x0, false, false⟩,
  ⟨0x28, [], .rw, 0xFF, [], 0xFF, false, false⟩,
  ⟨0x30, [(0x4, 6)], .ro, 0x0, [], 0x0, false, false⟩,
  ⟨0x50, [], .ro, 0x0, [], 0x0, false, false⟩,
  ⟨0x54, [], .ro, 0x0, [], 0x0, false, false⟩,
  ⟨0x58, [], .ro, 0x0, [], 0x0, false, false⟩,
  ⟨0x60, [], .rwp, 0x3001F, [], 0x1E, false, true⟩,
  ⟨0x64, [], .rwp, 0x1FF, [(7, 0, 70, 100)], 0x150, false, true⟩,
  ⟨0x68, [], .rwp, 0xF, [(3, 0, 2, 8)], 0x8, false, false⟩,
  ⟨0x70, [], .ro, 0x0, [], 0x0, false, false⟩,
  ⟨0x74, [], .ro, 0x0, [], 0x0, false, false⟩,
  ⟨0x78, [], .ro, 0x0, [], 0xFFFFFFFF, false, false⟩,
  ⟨0x7C, [], .ro, 0x0, [], 0x0, false, false⟩,
  ⟨0x80, [], .ro, 0x0, [], 0x0, false, false⟩]

/-- The register map of PWR. -/
def mapPWR : List RegRow := mapPWR1

/-- The register map of a block. -/
def regMap : Block → List RegRow
  | .SYS => mapSYS
  | .PACE => mapPACE
  | .PGH => mapPGH
  | .DMW => mapDMW
  | .CAM => mapCAM
  | .GNS => mapGNS
  | .TIM => mapTIM
  | .TBL => mapTBL
  | .LPE => mapLPE
  | .VLV => mapVLV
  | .LSW => mapLSW
  | .AIO => mapAIO
  | .MAP => mapMAP
  | .PNL => mapPNL
  | .CAN => mapCAN
  | .ETH => mapETH
  | .UPD => mapUPD
  | .BUR => mapBUR
  | .HKP => mapHKP
  | .SAF => mapSAF
  | .TST => mapTST
  | .PWR => mapPWR

/-- Whether a distance `d` from a row's first offset is one of its instances. -/
def dimsHit : List (Nat × Nat) → Nat → Bool
  | [], d => d == 0
  | (st, n) :: t, d => decide (d / st < n) && dimsHit t (d % st)

/-- Whether a row maps offset `o`. -/
def RegRow.hit (r : RegRow) (o : Nat) : Bool := decide (r.off ≤ o) && dimsHit r.dims (o - r.off)

/-- The row of a block's map that holds offset `o`; none where no register is mapped (R8). -/
def regRow (b : Block) (o : Nat) : Option RegRow := (regMap b).find? (fun r => r.hit o)

/-- The value of the register at offset `o` after a power-on reset (R6). -/
def resetVal (b : Block) (o : Nat) : Word :=
  match regRow b o with
  | some r => wordN r.reset
  | none => 0

/-- The value a row keeps of a write: reserved bits stay 0 and clamped fields are limited (R5, Table 0-5). -/
def RegRow.store (r : RegRow) (old v : Word) : Word :=
  r.clamps.foldl (fun w c => setFld w c.1 c.2.1 (clampN c.2.2.1 c.2.2.2 (fld w c.1 c.2.1)))
    ((old &&& ~~~ (wordN r.mask)) ||| (v &&& wordN r.mask))

end Sys2Proof.Machine
end

