-- ==== Sys2Proof/Machine/Sparse.lean ====
section
/-! DEFINITION. Reading and writing a sparse store. The default of a key is an argument, so that one store can read
as different values at different keys (a register's reset value, a blank byte of NOR flash). -/

namespace Sys2Proof

/-- The value listed at key `k` in a list of cells, if any. -/
def SMap.find {α : Type} : List (Nat × α) → Nat → Option α
  | [], _ => none
  | (k', v) :: t, k => if k' = k then some v else SMap.find t k

/-- The value at key `k`; an unlisted key reads as `d`. -/
def SMap.get {α : Type} (m : SMap α) (d : α) (k : Nat) : α := (SMap.find m.cells k).getD d

/-- Write `v` at key `k`, whose default is `d`: writing the default removes the cell. -/
def SMap.set {α : Type} [DecidableEq α] (m : SMap α) (d : α) (k : Nat) (v : α) : SMap α :=
  ⟨m.cells.filter (fun c => c.1 < k) ++ (if v = d then [] else [(k, v)]) ++ m.cells.filter (fun c => k < c.1)⟩

/-- Change the value at key `k` by `f`. -/
def SMap.mod {α : Type} [DecidableEq α] (m : SMap α) (d : α) (k : Nat) (f : α → α) : SMap α :=
  m.set d k (f (m.get d k))

/-- The cells of values written from key `k` on, without those equal to their default. -/
def SMap.listed {α : Type} [DecidableEq α] (dflt : Nat → α) : Nat → List α → List (Nat × α)
  | _, [] => []
  | k, v :: t => (if v = dflt k then [] else [(k, v)]) ++ SMap.listed dflt (k + 1) t

/-- Write consecutive values from key `k` on. -/
def SMap.blit {α : Type} [DecidableEq α] (dflt : Nat → α) (m : SMap α) (k : Nat) (vs : List α) : SMap α :=
  ⟨m.cells.filter (fun c => c.1 < k) ++ SMap.listed dflt k vs ++ m.cells.filter (fun c => k + vs.length ≤ c.1)⟩

/-- The cells of the keys `lo` to `lo` + `n` − 1, moved to keys from `dst` on; used where the keys' defaults are 0. -/
def SMap.moved {α : Type} (m : SMap α) (lo n dst : Nat) : List (Nat × α) :=
  (m.cells.filter (fun c => lo ≤ c.1 && c.1 < lo + n)).map (fun c => (c.1 - lo + dst, c.2))

/-- `n` consecutive values from key `k` on, read in one pass over the cells that stand there. -/
def SMap.row {α : Type} (dflt : Nat → α) : List (Nat × α) → Nat → Nat → List α
  | _, _, 0 => []
  | [], k, n + 1 => dflt k :: SMap.row dflt [] (k + 1) n
  | (k', v) :: t, k, n + 1 =>
    if k' = k then v :: SMap.row dflt t (k + 1) n else dflt k :: SMap.row dflt ((k', v) :: t) (k + 1) n

/-- Keep only the cells whose key satisfies `p`. -/
def SMap.keep {α : Type} (m : SMap α) (p : Nat → Bool) : SMap α := ⟨m.cells.filter (fun c => p c.1)⟩

/-- The store lists its keys strictly rising, and lists no value equal to the default of its key. -/
def SMap.wf {α : Type} [DecidableEq α] (dflt : Nat → α) (m : SMap α) : Bool :=
  decide (m.cells.Pairwise (fun a b => a.1 < b.1)) && m.cells.all (fun c => decide (c.2 ≠ dflt c.1))

end Sys2Proof
end

