-- ==== Sys2Proof/Machine/Ops.lean ====
section
/-! DEFINITION. The operations every block shares: registers and their fields, bytes of memory, free values, the Bureau
queue, pigeonhole raises and events, and command mailboxes. -/

namespace Sys2Proof.Machine

/-! ## Registers -/

/-- The word a register holds; a register never written holds its reset value (R6). -/
def State.rd (s : State) (b : Block) (o : Nat) : Word := (s.regs.win b).get (resetVal b o) o

/-- A register set to a word by the hardware. -/
def State.wr (s : State) (b : Block) (o : Nat) (w : Word) : State :=
  { s with regs := s.regs.put b ((s.regs.win b).set (resetVal b o) o w) }

/-- Field [hi:lo] of a register. -/
def State.f (s : State) (b : Block) (o hi lo : Nat) : Nat := fld (s.rd b o) hi lo

/-- A register with field [hi:lo] set. -/
def State.setF (s : State) (b : Block) (o hi lo v : Nat) : State := s.wr b o (setFld (s.rd b o) hi lo v)

/-- Bit `i` of a register. -/
def State.bit (s : State) (b : Block) (o i : Nat) : Bool := bitOf (s.rd b o) i

/-- A register with bit `i` set to `v`. -/
def State.setBit (s : State) (b : Block) (o i : Nat) (v : Bool) : State := s.wr b o (putBit (s.rd b o) i v)

/-- A register's value as a number. -/
def State.rdN (s : State) (b : Block) (o : Nat) : Nat := (s.rd b o).toNat

/-- A register set to a number, modulo 2^32. -/
def State.wrN (s : State) (b : Block) (o v : Nat) : State := s.wr b o (wordN v)

/-- Field [hi:lo] of a register increased by `n`, saturating at the field's width. -/
def State.incF (s : State) (b : Block) (o hi lo n : Nat) : State :=
  s.setF b o hi lo (satAdd (2 ^ (hi + 1 - lo) - 1) (s.f b o hi lo) n)

/-- Every register of a window to its reset value, except those that `keepReg` keeps. -/
def State.resetWindow (s : State) (b : Block) (keepReg : Nat → Bool) : State :=
  { s with regs := s.regs.put b ((s.regs.win b).keep keepReg) }

/-- Do `f` for each member of a list in order. -/
def State.each {α : Type} (s : State) (l : List α) (f : State → α → State) : State := l.foldl f s

/-- Do `f` where `c` holds. -/
def State.when (s : State) (c : Bool) (f : State → State) : State := if c then f s else s

/-! ## Time and free values -/

/-- `n` nanoseconds of the TCXO pass for the time since power-on and, outside DORMANT, for operating seconds with their sub-second
part (R4). -/
def State.elapse (s : State) (n : Nat) : State :=
  let sub := s.clk.sub + (if s.pwr.phase = .dormant then 0 else n)
  s.putClk { s.clk with up := s.clk.up + n, opsec := s.clk.opsec + sub / 1000000000, sub := sub % 1000000000 }

/-- Units of 10⁻¹¹ ns that one ns of the TCXO counts at the rate in force (R231). -/
def State.rateUnits (s : State) : Nat := (100000000000 + (s.rd .TIM TIM_RATE).toInt).toNat

/-- Device time that an adjusted period has run after `el` disciplined ns of it: a device second takes 1 s − Δ_k (R234). -/
def periodDev (dk : Int) (el : Nat) : Nat :=
  let len := (1000000000 - dk).toNat
  if el ≤ len then el * 1000000000 / len else 1000000000 + (el - len)

/-- The disciplined ns after which an adjusted period has run `d` ns of device time. -/
def periodEl (dk : Int) (d : Nat) : Nat :=
  let len := (1000000000 - dk).toNat
  if d ≤ 1000000000 then (d * len + 999999999) / 1000000000 else len + (d - 1000000000)

/-- What device time gains in `e` disciplined ns: at a constant rate through an adjusted period, 10 ppm off while an offset is slewed
out, else `e` (R234). -/
def Tim.advance (t : Tim) (e : Nat) : Nat × Tim :=
  if t.dk ≠ 0 then (periodDev t.dk (t.perEl + e) - periodDev t.dk t.perEl, { t with perEl := t.perEl + e })
  else if t.slew = 0 then (e, t)
  else
    let x := t.slewFrac + e
    let g := min (x / 100000) t.slew.natAbs
    if 0 < t.slew then (e + g, { t with slew := t.slew - g, slewFrac := x % 100000 })
    else (e - g, { t with slew := t.slew + g, slewFrac := x % 100000 })

/-- The disciplined ns in which device time gains `g`: the inverse of `Tim.advance`. -/
def Tim.reach (t : Tim) (g : Nat) : Nat × Tim :=
  if t.dk ≠ 0 then
    let el := periodEl t.dk (periodDev t.dk t.perEl + g)
    (el - t.perEl, { t with perEl := el })
  else if t.slew = 0 then (g, t)
  else if 0 < t.slew then
    let e := max (g * 100000 / 100001) (g - t.slew.natAbs)
    (e, { t with slew := t.slew - (g - e : Nat), slewFrac := 0 })
  else
    let e := min (g * 100000 / 99999) (g + t.slew.natAbs)
    (e, { t with slew := t.slew + (e - g : Nat), slewFrac := 0 })

/-- `n` nanoseconds of the TCXO pass: the clock's, and device time at the rate in force, in an adjusted period or a slew at theirs
(R231, R234). -/
def State.pass (s : State) (n : Nat) : State :=
  let x := n * s.rateUnits + s.tim.frac
  let r := s.tim.advance (x / 100000000000)
  ((s.putNow (s.now + r.1)).putTim { r.2 with frac := x % 100000000000 }).elapse n

/-- Time passes until device time stands at `t`. -/
def State.passTo (s : State) (t : Nat) : State :=
  if t ≤ s.now then s
  else
    let r := s.tim.reach (t - s.now)
    ((s.putNow t).putTim r.2).elapse (r.1 * 100000000000 / s.rateUnits)

/-- A value the spec leaves open, below `bound`; each use draws a fresh one. -/
def State.freeNat (s : State) (bound : Nat) : Nat := Config.freeValue s.free % bound

/-- The state after a free value was drawn. -/
def State.drawn (s : State) : State := s.putFree (s.free + 1)

/-- The head entry of the stream of request `q` is part-read no longer (R413). -/
def State.partClear (s : State) (q : Nat) : State := s.putDmw { s.dmw with part := s.dmw.part.set (0, 0, 0) q (0, 0, 0) }

/-! ## Memory (Table 6-1) -/

/-- The base of the NOR read window. -/
abbrev norBase : Nat := 0x1200000000
/-- The base of the MRAM read window. -/
abbrev mramBase : Nat := 0x1210000000
/-- The base of Tabletop SRAM. -/
abbrev tblBase : Nat := 0x1100000000
/-- The base of the tile local memories. -/
abbrev tileBase : Nat := 0x1000000000
/-- The base of the endpoint tables (R114). -/
abbrev endpBase : Nat := 0x1001000000

/-- What a byte that nothing has written reads as: erased NOR flash reads 0xFF, every other memory 0. -/
def blankByte (a : Nat) : Byte := if norBase ≤ a ∧ a < norBase + 0x4000000 then 0xFF else 0

/-- One byte of memory. -/
def State.rdB (s : State) (a : Nat) : Byte := s.mem.get (blankByte a) a

/-- Write one byte of memory. -/
def State.wrB (s : State) (a : Nat) (v : Byte) : State := s.putMem (s.mem.set (blankByte a) a v)

/-- `n` bytes of memory from `a`. -/
def State.rdBytes (s : State) (a n : Nat) : List Byte :=
  SMap.row blankByte (s.mem.cells.filter (fun c => a ≤ c.1 && c.1 < a + n)) a n

/-- Write bytes to memory from `a`. -/
def State.wrBytes (s : State) (a : Nat) (bs : List Byte) : State := s.putMem (s.mem.blit blankByte a bs)

/-- An `n`-byte little-endian number in memory. -/
def State.rdLE (s : State) (a n : Nat) : Nat := leNat (s.rdBytes a n)

/-- Write an `n`-byte little-endian number to memory. -/
def State.wrLE (s : State) (a n v : Nat) : State := s.wrBytes a (leBytes n v)

/-- The contents of memory are in canonical form: addresses strictly rising, no byte listed that a blank one reads as. -/
def Memory.wf (m : SMap Byte) : Bool := m.wf blankByte

/-! ## Store windows (R454, Table 19-5) -/

/-- The latest valid value of a housekeeping channel, in its unit. -/
def State.hkpVal (s : State) (k : Nat) : Option Int :=
  let w := s.rd .HKP (HKP_CH_VALUE k)
  if bitOf w 31 then some (sfld w 15 0) else none

/-- A housekeeping channel is valid and lies in a range. -/
def State.inWindow (s : State) (k : Nat) (lo hi : Int) : Bool :=
  match s.hkpVal k with
  | some v => decide (lo ≤ v) && decide (v ≤ hi)
  | none => false

/-- MRAM lies within its write window, −40 °C to +105 °C. -/
def State.mramOk (s : State) : Bool := s.inWindow 25 (-400) 1050
/-- NOR flash lies within its write window, −30 °C to +95 °C. -/
def State.norOk (s : State) : Bool := s.inWindow 26 (-300) 950
/-- The eMMC lies within its write window, −30 °C to +95 °C. -/
def State.emmcOk (s : State) : Bool := s.inWindow 27 (-300) 950

/-! ## The Bureau queue (R443, R445, R447) -/

/-- Two records are the same event: equal CODE, SOURCE and DATA in the same power cycle (R445). -/
def BurRec.same (a b : BurRec) : Bool :=
  a.code == b.code && a.source == b.source && a.d0 == b.d0 && a.d1 == b.d1 && a.d2 == b.d2 && a.pcc == b.pcc

/-- A record with one more repeat, seen at operating second `t` (R445). -/
def BurRec.bump (r : BurRec) (t : Nat) : BurRec :=
  { r with repeats := r.repeats + 1, lastDelta := clampN 0 65535 (t - r.opsec) }

/-- The queue of the Bureau with a record entered, and whether the record was lost because the queue was full. -/
def Bur.enter (b : Bur) (r : BurRec) : Bur × Bool :=
  let push : Bur × Bool :=
    if b.queue.length < 256 then ({ b with queue := b.queue ++ [r] }, false)
    else ({ b with heldLost := b.heldLost + 1 }, true)
  match b.queue.getLast? with
  | some l =>
    if l.same r && decide (l.repeats < 65535) then
      ({ b with queue := b.queue.dropLast ++ [l.bump r.opsec] }, false) else push
  | none =>
    match b.last with
    | some l =>
      if l.same r && decide (l.repeats < 65535) then
        ({ b with last := some (l.bump r.opsec), dirty := true }, false) else push
    | none => push

/-- BUR_LOST[8:0], BUR_STATUS.OVERFLOW and HELD_TEMP follow the queue and MRAM's window (R447, Table 19-7). -/
def State.burShow (s : State) : State :=
  let n := s.bur.queue.length
  ((s.setF .BUR BUR_LOST 8 0 n).setBit .BUR BUR_STATUS 1 (decide (256 ≤ n))).setBit .BUR BUR_STATUS 3 (!s.mramOk && n != 0)

/-- Enter a record in the Bureau queue; a record that finds it full is dropped and counted in BUR_LOST (R447). -/
def State.burEnter (s : State) (r : BurRec) : State :=
  let r := { r with opsec := s.clk.opsec, pcc := s.clk.pcc }
  let (b, lost) := s.bur.enter r
  let s := s.putBur b
  let s := if lost then s.incF .BUR BUR_LOST 31 16 1 else s
  s.burShow

/-! ## Pigeonholes (R157, R158) -/

/-- PGH_ROUTE[p]. -/
def State.route (s : State) (p : Nat) : Word := s.rd .PGH (PGH_ROUTE p)

/-- A pigeonhole's pending bit. -/
def State.pend (s : State) (p : Nat) : Bool := s.bit .PGH (PGH_PEND (p / 32)) (p % 32)

/-- A pigeonhole's pending bit set or cleared. -/
def State.setPend (s : State) (p : Nat) (v : Bool) : State := s.setBit .PGH (PGH_PEND (p / 32)) (p % 32) v

/-- A raise counts (R157): the raise count and the pending bit, or the merge count where it is already pending; the raises
and the first time that the next delivery carries; and, with SAF_COPY and a KIND other than 2, the copy's own count (R158,
R160). -/
def State.phCount (s : State) (p : Nat) : State :=
  let s := s.incF .PGH (PGH_CNT p) 15 0 1
  let s := if s.pend p then s.incF .PGH (PGH_CNT p) 31 16 1 else s.setPend p true
  let a := s.pgh.acc.get 0 p
  let s := s.putPgh { s.pgh with
    acc := s.pgh.acc.set 0 p (satAdd 65535 a 1)
    first := if a = 0 then s.pgh.first.set 0 p s.now else s.pgh.first }
  if bitOf (s.route p) 30 && fld (s.route p) 29 28 != 2 then
    let c := s.pgh.copyAcc.get 0 p
    s.putPgh { s.pgh with
      copyAcc := s.pgh.copyAcc.set 0 p (satAdd 65535 c 1)
      copyFirst := if c = 0 then s.pgh.copyFirst.set 0 p s.now else s.pgh.copyFirst }
  else s

/-- BUR_SEL selects pigeonhole `p` for the Bureau (R443). -/
def State.burSel (s : State) (p : Nat) : Bool := s.bit .BUR (BUR_SEL (p / 32)) (p % 32)

/-- The severity that BUR_SEV gives pigeonhole `p`. -/
def State.burSev (s : State) (p : Nat) : Nat := s.f .BUR (BUR_SEV (p / 8)) (4 * (p % 8) + 2) (4 * (p % 8))

/-- Raise pigeonhole `p`, with the record that the Bureau keeps of it when BUR_SEL selects it. -/
def State.phRaise (s : State) (p : Nat) (r : BurRec) : State :=
  let s := s.phCount p
  if s.burSel p then s.burEnter { r with severity := s.burSev p } else s

/-! ## Events (R157) -/

/-- Where a source of events stands: its EVENT, EVENT_EN and STATUS registers and its instance number. -/
structure EvSrc where
  b : Block
  ev : Nat
  en : Nat
  st : Option Nat
  src : Nat

/-- An EVENT bit's condition occurs: the bit is set whatever EVENT_EN holds; with its enable set, the pigeonhole is
raised, and the Bureau records it (R157, R443). -/
def State.eventAt (s : State) (e : EvSrc) (bit ph : Nat) : State :=
  let s := s.setBit e.b e.ev bit true
  if s.bit e.b e.en bit then
    s.phRaise ph { code := e.b.id * 256 + bit, source := e.src
                   d0 := match e.st with | some o => s.rd e.b o | none => 0
                   d1 := s.rd e.b e.ev }
  else s

/-- The first pigeonhole of a block whose EVENT bit n raises that pigeonhole plus n. -/
def Block.ph0 : Block → Nat
  | .SYS => 0 | .PWR => 8 | .PACE => 16 | .DMW => 32 | .CAM => 48 | .GNS => 64 | .TIM => 72 | .TBL => 80
  | .LPE => 96 | .VLV => 128 | .LSW => 160 | .AIO => 200 | .MAP => 208 | .PNL => 216 | .CAN => 224 | .ETH => 240
  | .UPD => 244 | .BUR => 248 | .HKP => 250 | .SAF => 252 | .TST => 255 | .PGH => 7

/-- EVENT bit `bit` of a block with one EVENT register at 0x024, caused by instance `src`. -/
def State.eventSrc (s : State) (b : Block) (bit src : Nat) : State :=
  s.eventAt { b := b, ev := 0x24, en := 0x28, st := if b = .SYS then none else some 0x20, src := src } bit (b.ph0 + bit)

/-- EVENT bit `bit` of a block with one EVENT register at 0x024. -/
def State.event (s : State) (b : Block) (bit : Nat) : State := s.eventSrc b bit 0

/-- A VLV channel's EVENT bit (PH128 + n). -/
def State.vlvEvent (s : State) (n bit : Nat) : State :=
  s.eventAt { b := .VLV, ev := VLV_CH_EVENT n, en := VLV_CH_EVENT_EN n, st := some (VLV_CH_STATUS n), src := n } bit (128 + n)

/-- An LSW channel's EVENT bit (PH160 + n). -/
def State.lswEvent (s : State) (n bit : Nat) : State :=
  s.eventAt { b := .LSW, ev := LSW_CH_EVENT n, en := LSW_CH_EVENT_EN n, st := some (LSW_CH_STATUS n), src := n } bit (160 + n)

/-- The pigeonhole of a CAN controller's EVENT bit: PH225 + 2n for bits 8 and above, PH224 + 2n for those below. -/
def canPh (n bit : Nat) : Nat := if 8 ≤ bit then 225 + 2 * n else 224 + 2 * n

/-- A CAN controller's EVENT bit. -/
def State.canEvent (s : State) (n bit : Nat) : State :=
  s.eventAt { b := .CAN, ev := CAN_CH_EVENT n, en := CAN_CH_EVENT_EN n, st := some (CAN_CH_STATUS n), src := n } bit (canPh n bit)

/-! ## Command mailboxes (R154–R156) -/

/-- The result codes (R156, Table 6-4). -/
inductive Result where
  | ok | busy | refusedMode | refusedTemp | badHeader | badBlock | badSignature | incompatible | regionBusy | noSpace
  | aborted | locked
  deriving DecidableEq, Repr

/-- The code of a result (Table 6-4). -/
def Result.code : Result → Nat
  | .ok => 0 | .busy => 1 | .refusedMode => 2 | .refusedTemp => 3 | .badHeader => 4 | .badBlock => 5
  | .badSignature => 6 | .incompatible => 7 | .regionBusy => 8 | .noSpace => 9 | .aborted => 10 | .locked => 11

/-- The CMD_DONE bit of a block's EVENT register, where it has one. -/
def Block.cmdDone : Block → Option Nat
  | .SYS => some 0 | .PACE => some 9 | .CAM => some 15 | .GNS => some 7 | .TIM => some 7 | .TBL => some 15
  | .LPE => some 15 | .AIO => some 7 | .MAP => some 7 | .PNL => some 7 | .ETH => some 3 | .DMW => some 15
  | .UPD => some 3 | .BUR => some 1 | .HKP => some 1 | .SAF => some 2
  | .PWR => none | .VLV => none | .LSW => none | .CAN => none | .PGH => none | .TST => none

/-- The controllers that a CAN command names: ARG0's mask, or ARG0[0] for ISB_ABORT. -/
def canNamed (code : Nat) (args : List Word) : List Nat :=
  let a := args.headD 0
  if code = 4 then [fld a 0 0] else bitsOf a.toNat 8

/-- A command's end shows its code and result in BLK_CMD_STS and raises CMD_DONE where the block has it (R154). -/
def State.cmdShow (s : State) (b : Block) (code : Nat) (args : List Word) (r : Result) : State :=
  let s := s.wrN b 0x14 (code * 256 + r.code)
  if b = .CAN then s.each (canNamed code args) (fun s n => s.canEvent n 14)
  else match b.cmdDone with
    | some i => s.event b i
    | none => s

/-- The command that runs in a block's mailbox; code 0 where none runs. -/
def State.mailOf (s : State) (b : Block) : Mail := s.mail.get {} b.id

/-- Set a block's mailbox. -/
def State.setMail (s : State) (b : Block) (m : Mail) : State := s.putMail (s.mail.set {} b.id m)

/-- The running command of a block ends with a result (R154). -/
def State.cmdEnd (s : State) (b : Block) (r : Result) : State :=
  let m := s.mailOf b
  (s.setMail b {}).cmdShow b m.code m.args r

/-- The running command of a block ends with a result, if it is the command of code `c`. -/
def State.cmdEndIf (s : State) (b : Block) (c : Nat) (r : Result) : State :=
  if (s.mailOf b).code = c then s.cmdEnd b r else s

/-- The four argument registers of a block (R10). -/
def State.cmdArgs (s : State) (b : Block) : List Word := (upto 4).map (fun i => s.rd b (0x4 + 4 * i))

/-- Argument `i` of a latched command. -/
def arg (args : List Word) (i : Nat) : Word := args.getD i 0

/-- A write of command code `c` to a block's mailbox (R154, R155): refused with BUSY while another command runs; else the
arguments are latched and `body` acts, ending the command at once (`some result`) or leaving it running (`none`). -/
def State.command (s : State) (b : Block) (c : Nat) (body : List Word → State → State × Option Result) : State :=
  if (s.mailOf b).code ≠ 0 then s.cmdShow b c (s.cmdArgs b) .busy
  else
    let args := s.cmdArgs b
    let s := (s.setMail b { code := c, args := args }).wrN b 0x14 (c * 256 + 0xFF)
    match body args s with
    | (s, some r) => s.cmdEnd b r
    | (s, none) => s

/-- A write of a cancel command `c`: where the running command is one of code `target` that the latched arguments `names`,
that command ends with ABORTED after `undo` and the cancel with OK; else the cancel is a command like any other, which
finds nothing pending (R141). -/
def State.cancel (s : State) (b : Block) (c target : Nat) (names : List Word → List Word → Bool)
    (undo : List Word → State → State) : State :=
  let m := s.mailOf b
  if m.code = target ∧ names m.args (s.cmdArgs b) = true then
    ((undo m.args s).cmdEnd b .aborted).cmdShow b c (s.cmdArgs b) .ok
  else s.command b c fun _ s => (s, some .ok)

/-- A command that ends at once with a result. -/
def done (s : State) (r : Result) : State × Option Result := (s, some r)

/-- A command that ends at once with a refusal and no effect. -/
def refuse (s : State) (r : Result) : State × Option Result := (s, some r)

/-- PROTECT of a block stands open (Table 0-5, RWP). -/
def State.open (s : State) (b : Block) : Bool := s.rdN b 0x18 == 1

/-- The present mode (SYS_MODE.MODE): 0 DORMANT, 1 ROAD, 2 HARVEST, 3 HEADLAND, 4 UNLOAD, 5 SERVICE, 6 LIMP. -/
def State.mode (s : State) : Nat := s.f .SYS SYS_MODE 2 0

/-- The outcome of a command that takes effect. -/
abbrev Res : Type := Host.Outcome State Fault Refusal

/-- A command's next state. -/
abbrev ok (s : State) : Res := .next s

/-! ## Islands (R73–R76) -/

/-- The state of an island: 0 STOPPED, 1 STARTING, 2 RUN, 3 STOPPING. -/
def State.islState (s : State) (k : Nat) : Nat := s.f .PACE (PACE_ISL_STATUS k) 1 0

/-- Island `k` runs. -/
def State.islUp (s : State) (k : Nat) : Bool := s.islState k == 2

/-- Island `k` runs and is locked; one that lost its lock holds its outputs at their last values (R76). -/
def State.islLive (s : State) (k : Nat) : Bool := s.islUp k && s.bit .PACE (PACE_ISL_STATUS k) 8

end Sys2Proof.Machine
end

