-- ==== Sys2Proof/Machine/Bureau.lean ====
section
/-! DEFINITION. The Bureau (BUR): records and their seals, the ring in MRAM, repeats with their patch and fold units, the
freeze, the cursor window, and the BUR commands (R442–R451). -/

namespace Sys2Proof.Machine

/-! ## Record bytes (R442, Table 19-1) -/

/-- Bytes 0–27 of a record. -/
def BurRec.body (r : BurRec) : List Byte :=
  leBytes 2 r.code ++ leBytes 1 r.source ++ leBytes 1 (r.severity % 8) ++ leBytes 4 r.opsec ++ leBytes 3 r.pcc
    ++ leBytes 1 r.flags ++ leBytes 2 r.repeats ++ leBytes 2 r.lastDelta
    ++ leBytes 4 r.d0.toNat ++ leBytes 4 r.d1.toNat ++ leBytes 4 r.d2.toNat

/-- The 32 bytes of a sealed record: CRC-16 over bytes 0–27, a reserved 0 and the commit flag 0x5A (R50). -/
def BurRec.bytes (r : BurRec) : List Byte := r.body ++ leBytes 2 (crc16 r.body) ++ [0, 0x5A]

/-- Where ring record `i` lies in the MRAM window. -/
def burAddr (i : Nat) : Nat := mramBase + 32 * i

/-- Where patch unit `k` (0 or 1) lies. -/
def patchAddr (k : Nat) : Nat := mramBase + 0x400000 + 16 * k

/-- Where the fold unit lies. -/
def foldAddr : Nat := mramBase + 0x400020

/-- A torn unit was found in a store, 0 MRAM, 1 eMMC, 2 NOR: counted in PWR_TORN and reported by TORN_RECORD (R50). -/
def State.tornUnit (s : State) (store : Nat) : State :=
  (s.incF .PWR PWR_TORN (8 * store + 7) (8 * store) 1).event .PWR 7

/-- NOTICE for a record of a severity at or above ALERT_SEV (BUR_EVENT[0]). -/
def State.burNotice (s : State) (severity : Nat) : State :=
  if s.f .BUR BUR_CFG 18 16 ≤ severity then s.event .BUR 0 else s

/-! ## Writing the ring (R446, R450) -/

/-- Write a sealed record at the head of the ring: a full ring overwrites its oldest record and counts a wrap (R450). -/
def State.burAppend (s : State) (r : BurRec) : State :=
  let h := s.rdN .BUR BUR_HEAD
  let s := s.wrBytes (burAddr h) r.bytes
  let s := s.wrN .BUR BUR_HEAD ((h + 1) % 131072)
  let s := if 131072 ≤ s.rdN .BUR BUR_COUNT
    then s.wrN .BUR BUR_WRAPS (satAdd 0xFFFFFFFF (s.rdN .BUR BUR_WRAPS) 1)
    else s.wrN .BUR BUR_COUNT (s.rdN .BUR BUR_COUNT + 1)
  s.burNotice r.severity

/-- Fold the last record's counts back (R446): seal its image with FOLDED in the fold unit, rewrite the record, then commit
0x00 to the fold unit and both patch units. -/
def State.burFold (s : State) (r : BurRec) (i : Nat) : State :=
  let img := ({ r with flags := r.flags ||| 4 } : BurRec).bytes
  let s := s.wrBytes foldAddr (leBytes 4 i ++ img ++ leBytes 11 0 ++ [0x5A])
  let s := s.wrB (burAddr i + 31) 0
  let s := s.wrBytes (burAddr i) img
  let s := s.wrB (foldAddr + 47) 0
  (s.wrB (patchAddr 0 + 15) 0).wrB (patchAddr 1 + 15) 0

/-- The first record of the queue goes to the ring, whatever a freeze holds; a record that follows one with repeats folds
it; and events lost meanwhile are queued in a LOST record now that the queue has room (R446, R447). -/
def State.burDrain (s : State) : State :=
  match s.bur.queue with
  | [] => s
  | r :: t =>
    let i := s.rdN .BUR BUR_HEAD
    let old := s.bur.last
    let oldIdx := s.bur.lastIdx
    let s := s.putBur { s.bur with queue := t }
    let s := s.burAppend r
    let s := match old with
      | some o => if 1 < o.repeats then s.burFold o oldIdx else s
      | none => s
    let s := s.putBur { s.bur with last := some r, lastIdx := i, dirty := false }
    let s := if 0 < s.bur.heldLost then
        let n := s.bur.heldLost
        let s := s.putBur { s.bur with heldLost := 0 }
        (s.burEnter { code := 0x1281, severity := 4, d0 := wordN n }).event .BUR 0
      else s
    s.burShow

/-- Commit the patch unit of the last record's counts, alternating P0 and P1 (R446, R51). -/
def State.burPatch (s : State) : State :=
  match s.bur.last with
  | some r =>
    if s.bur.dirty then
      let q := (s.bur.patchSeq + 1) % 65536
      let u := leBytes 4 s.bur.lastIdx ++ leBytes 2 r.repeats ++ leBytes 2 r.lastDelta ++ leBytes 2 q
      let s := s.wrB (patchAddr (q % 2) + 15) 0
      let s := s.wrBytes (patchAddr (q % 2)) (u ++ leBytes 2 (crc16 u) ++ [0, 0, 0, 0x5A])
      s.putBur { s.bur with patchSeq := q, dirty := false, patchAt := some s.clk.up }
    else s
  | none => s

/-- The whole queue goes to the ring, then the patch: the power-loss sequencer's path (R446–R448). -/
def State.burCommitAll (s : State) : State :=
  (s.each (upto (s.bur.queue.length + 1)) (fun s _ => s.burDrain)).burPatch

/-! ## The cursor window (R449) -/

/-- A ring record is committed and its CRC holds (R50). -/
def recGood (u : List Byte) : Bool :=
  decide (u.getD 31 0 = 0x5A) && decide (leNat ((u.drop 28).take 2) = crc16 (u.take 28))

/-- A patch unit's check holds. -/
def patchCheck (u : List Byte) : Bool := decide (leNat ((u.drop 10).take 2) = crc16 (u.take 10))

/-- A patch unit is torn: its commit flag stands, its check fails (R50). -/
def patchTorn (u : List Byte) : Bool := u.getD 15 0 == 0x5A && !patchCheck u

/-- A committed patch unit that names record `i`: its sequence, REPEATS and LAST_DELTA. -/
def State.patchFor (s : State) (k i : Nat) : Option (Nat × Nat × Nat) :=
  let u := s.rdBytes (patchAddr k) 16
  if u.getD 15 0 = 0x5A ∧ patchCheck u = true ∧ leNat (u.take 4) = i
  then some (leNat ((u.drop 8).take 2), leNat ((u.drop 4).take 2), leNat ((u.drop 6).take 2)) else none

/-- The counts a read of record `i` shows, where a committed patch or fold unit names it (R446). -/
def State.mergedCounts (s : State) (i : Nat) : Option (Nat × Nat) :=
  let fu := s.rdBytes foldAddr 48
  if fu.getD 47 0 = 0x5A ∧ leNat (fu.take 4) = i ∧ recGood ((fu.drop 4).take 32) = true then
    some (leNat ((fu.drop 16).take 2), leNat ((fu.drop 18).take 2))
  else match s.patchFor 0 i, s.patchFor 1 i with
    | some a, some b => if (b.1 + 65536 - a.1) % 65536 < 32768 then some b.2 else some a.2
    | some a, none => some a.2
    | none, some b => some b.2
    | none, none => none

/-- Record `i` as a reader is shown it: with its merged counts; COMMIT shows 0x5A only for a good record (R449). -/
def State.burShown (s : State) (i : Nat) : List Byte :=
  let u := s.rdBytes (burAddr i) 32
  if recGood u then
    match s.mergedCounts i with
    | some c => u.take 12 ++ leBytes 2 c.1 ++ leBytes 2 c.2 ++ u.drop 16
    | none => u
  else u.take 31 ++ [0]

/-- Latch record CURSOR into BUR_WIN0–WIN7 (R449). A torn record is counted and reported under R50. -/
def State.burLatch (s : State) : State :=
  let i := s.f .BUR BUR_CURSOR 16 0
  let u := s.rdBytes (burAddr i) 32
  let s := if u.getD 31 0 = 0x5A ∧ recGood u = false then s.tornUnit 0 else s
  let w := s.burShown i
  s.each (upto 8) (fun s k => s.wrN .BUR (BUR_WIN k) (leNat ((w.drop (4 * k)).take 4)))

/-! ## Meanings -/

/-- RECORD_DRAIN (R447): outside a freeze a queued record is written to the ring; with MRAM outside its window the queue
holds its records. -/
def execRecordDrain (s : State) : Res :=
  if s.bit .BUR BUR_STATUS 0 then ok s
  else if s.mramOk then ok s.burDrain
  else ok s.burShow

/-- PATCH_WRITE (R446): the last record's counts, where they changed, go to a patch unit, not before 100 ms after the last one,
unless a freeze stops MRAM writes or MRAM lies outside its window. -/
def execPatchWrite (s : State) : Res :=
  if s.bit .BUR BUR_STATUS 0 || !s.mramOk || !s.bur.dirty then ok s
  else
    let s := match s.bur.patchAt with | some t => s.pass (t + 100000000 - s.clk.up) | none => s
    ok s.burPatch

/-- A write of BUR_PUT (R444): a program record enters the queue; a code outside 0xF000–0xFEFF sets BAD_PUT. -/
def State.burPut (s : State) (v : Word) : State :=
  let c := fld v 31 16
  if 0xF000 ≤ c ∧ c ≤ 0xFEFF then
    s.burEnter { code := c, source := fld v 15 8, severity := fld v 2 0, flags := 1
                 d0 := s.rd .BUR (BUR_PUT_DATA 0), d1 := s.rd .BUR (BUR_PUT_DATA 1), d2 := s.rd .BUR (BUR_PUT_DATA 2) }
  else s.setBit .BUR BUR_STATUS 4 true

/-- BUR_PUT (R444). -/
def execBurPut (v : Word) (s : State) : Res := ok (s.burPut v)

/-- A write of BUR_CURSOR latches the record it names (R449). -/
def State.burCursor (s : State) (v : Word) : State := (s.setF .BUR BUR_CURSOR 31 0 (fld v 16 0)).burLatch

/-- BUR_CURSOR_WRITE (R449). -/
def execBurCursorWrite (v : Word) (s : State) : Res := ok (s.burCursor v)

/-- A read of BUR_WIN7 answers its word, advances CURSOR by 1 modulo 131,072 and latches the next record (R449). -/
def State.burWin7 (s : State) : Word × State :=
  (s.rd .BUR (BUR_WIN 7), (s.setF .BUR BUR_CURSOR 31 0 ((s.f .BUR BUR_CURSOR 16 0 + 1) % 131072)).burLatch)

/-- BUR_WIN7_READ (R449). -/
def execBurWin7Read (s : State) : Res :=
  let r := s.burWin7
  ok (r.2.putResp (.word r.1))

/-- FREEZE (R448): OK with no effect when frozen. -/
def execBurFreeze (s : State) : Res :=
  ok (s.command .BUR 1 fun _ s =>
    if s.bit .BUR BUR_STATUS 0 then done s .ok
    else done ((s.setBit .BUR BUR_STATUS 0 true).putBur { s.bur with frozenAt := s.clk.up }) .ok)

/-- UNFREEZE (R448): ends the freeze. -/
def execBurUnfreeze (s : State) : Res := ok (s.command .BUR 2 fun _ s => done (s.setBit .BUR BUR_STATUS 0 false) .ok)

/-- FREEZE_TIMEOUT (R448): FREEZE_MAX seconds after FREEZE the freeze ends and adds a FREEZE_TIMEOUT record. -/
def execFreezeTimeout (s : State) : Res :=
  if s.bit .BUR BUR_STATUS 0 then
    let s := s.pass (s.bur.frozenAt + clampN 1 60 (s.f .BUR BUR_CFG 5 0) * 1000000000 - s.clk.up)
    ok (((s.setBit .BUR BUR_STATUS 0 false).burEnter { code := 0x1282, severity := 3 }).event .BUR 0)
  else ok s

/-- The Bureau emptied: the ring, the patch and fold units and the queue (R451). -/
def State.burEmpty (s : State) : State :=
  (s.putMem (s.mem.keep (fun a => decide (a < mramBase) || decide (mramBase + 0x400100 ≤ a)))).putBur { s.bur with queue := [], last := none, lastIdx := 0, dirty := false }

/-- CLEAR (R451): refused, in this order, outside SERVICE, with PROTECT closed, on a wrong ARG0, under a freeze, and with
MRAM outside its window; else the Bureau is emptied and a CLEAR record written. -/
def execBurClear (s : State) : Res :=
  ok (s.command .BUR 3 fun a s =>
    if s.mode ≠ 5 then refuse s .refusedMode
    else if !s.open .BUR then refuse s .locked
    else if arg a 0 ≠ 0xC35A then refuse s .locked
    else if s.bit .BUR BUR_STATUS 0 then refuse s .busy
    else if !s.mramOk then refuse s .refusedTemp
    else
      let n := s.rd .BUR BUR_COUNT
      let r : BurRec := { code := 0x1280, severity := 6, d0 := n, opsec := s.clk.opsec, pcc := s.clk.pcc }
      let i := s.rdN .BUR BUR_HEAD
      let s := ((s.burEmpty.wrN .BUR BUR_COUNT 0).wrN .BUR BUR_WRAPS 0).burAppend r
      done ((s.putBur { s.bur with last := some r, lastIdx := i }).burShow) .ok)

/-- CLEAR_COUNTS: clears BUR_LOST[31:16] and BAD_PUT (Table 19-9). -/
def execBurClearCounts (s : State) : Res :=
  ok (s.command .BUR 4 fun _ s => done ((s.setF .BUR BUR_LOST 31 16 0).setBit .BUR BUR_STATUS 4 false) .ok)

end Sys2Proof.Machine
end

