-- ==== Sys2Proof/Machine/Float.lean ====
section
/-! DEFINITION. IEEE 754-2019 arithmetic for binary32 and binary64 as R92–R95 use it: exact values as m × 2^e, one
rounding, the five flags (NV DZ OF UF NX as bits 4–0), tininess after rounding, and the flush of the T and L profiles. -/

namespace Sys2Proof.Machine

/-- A binary format: exponent and fraction widths, and whether subnormals flush (R94). -/
structure Fmt where
  eb : Nat
  mb : Nat
  flush : Bool

/-- binary32. -/
def fmt32 (flush : Bool) : Fmt := ⟨8, 23, flush⟩
/-- binary64. -/
def fmt64 : Fmt := ⟨11, 52, false⟩

/-- The exponent bias. -/
def Fmt.bias (F : Fmt) : Nat := 2 ^ (F.eb - 1) - 1
/-- The all-ones exponent field. -/
def Fmt.emax (F : Fmt) : Nat := 2 ^ F.eb - 1
/-- The canonical quiet NaN (R93). -/
def Fmt.qnan (F : Fmt) : Nat := F.emax * 2 ^ F.mb + 2 ^ (F.mb - 1)
/-- An infinity. -/
def Fmt.inf (F : Fmt) (s : Bool) : Nat := b2n s * 2 ^ (F.eb + F.mb) + F.emax * 2 ^ F.mb
/-- A zero. -/
def Fmt.zero (F : Fmt) (s : Bool) : Nat := b2n s * 2 ^ (F.eb + F.mb)
/-- The largest finite number. -/
def Fmt.big (F : Fmt) (s : Bool) : Nat := b2n s * 2 ^ (F.eb + F.mb) + F.emax * 2 ^ F.mb - 1

/-- What a bit pattern stands for; a finite non-zero value is m × 2^e. -/
inductive FVal where
  | nan (signalling : Bool)
  | inf (s : Bool)
  | zero (s : Bool)
  | fin (s : Bool) (m : Nat) (e : Int)
  deriving DecidableEq, Repr

/-- The sign bit of a pattern. -/
def Fmt.sign (F : Fmt) (x : Nat) : Bool := x.testBit (F.eb + F.mb)
/-- The exponent field of a pattern. -/
def Fmt.expo (F : Fmt) (x : Nat) : Nat := (x / 2 ^ F.mb) % 2 ^ F.eb
/-- The fraction field of a pattern. -/
def Fmt.frac (F : Fmt) (x : Nat) : Nat := x % 2 ^ F.mb

/-- The value of a pattern, subnormals in full. -/
def Fmt.raw (F : Fmt) (x : Nat) : FVal :=
  let s := F.sign x
  let e := F.expo x
  let f := F.frac x
  if e = F.emax then (if f = 0 then .inf s else .nan (!f.testBit (F.mb - 1)))
  else if e = 0 then (if f = 0 then .zero s else .fin s f (1 - (F.bias : Int) - F.mb))
  else .fin s (f + 2 ^ F.mb) ((e : Int) - F.bias - F.mb)

/-- The value of an operand of an arithmetic operation: with flush, a subnormal is a zero of its sign (R94). -/
def Fmt.val (F : Fmt) (x : Nat) : FVal :=
  if F.flush && F.expo x == 0 then .zero (F.sign x) else F.raw x

/-- The rounding modes 1–5 of R92. -/
inductive Rm where
  | even | zero | down | up | away
  deriving DecidableEq, Repr

/-- The rounding mode of a field value; 0, 6 and 7 name none. -/
def rmOf : Nat → Option Rm
  | 1 => some .even | 2 => some .zero | 3 => some .down | 4 => some .up | 5 => some .away | _ => none

/-- The invalid flag. -/
abbrev fNV : Nat := 16
/-- The divide-by-zero flag. -/
abbrev fDZ : Nat := 8
/-- The overflow flag. -/
abbrev fOF : Nat := 4
/-- The underflow flag. -/
abbrev fUF : Nat := 2
/-- The inexact flag. -/
abbrev fNX : Nat := 1

/-- A result pattern with its flags. -/
structure FRes where
  bits : Nat
  flags : Nat
  deriving DecidableEq, Repr

/-- Whether a magnitude rounds away from zero: `half` compares what is dropped with a half (lt, eq, gt), `none` for an exact
value; `odd`: the kept part is odd. -/
def roundsUp (r : Rm) (neg odd : Bool) (rest : Option Ordering) : Bool :=
  match rest with
  | none => false
  | some h =>
    match r with
    | .even => h == .gt || (h == .eq && odd)
    | .away => h != .lt
    | .zero => false
    | .down => neg
    | .up => !neg

/-- Drop `sh` low bits of `m` (a negative `sh` appends zeros) and round; `st` marks a value a little above m. The answer is
the rounded magnitude and whether anything was lost. -/
def roundShift (r : Rm) (neg : Bool) (m : Nat) (st : Bool) (sh : Int) : Nat × Bool :=
  if sh ≤ 0 then
    let q := m * 2 ^ sh.natAbs
    let rest := if st then some Ordering.lt else none
    (if roundsUp r neg (q % 2 == 1) rest then q + 1 else q, st)
  else
    let d := 2 ^ sh.natAbs
    let q := m / d
    let rem := m % d
    let rest := if rem = 0 ∧ st = false then none
      else if 2 * rem < d then some Ordering.lt
      else if 2 * rem = d then (if st then some Ordering.gt else some Ordering.eq) else some Ordering.gt
    (if roundsUp r neg (q % 2 == 1) rest then q + 1 else q, rest.isSome)

/-- The number of bits of a magnitude. -/
def bitLen (m : Nat) : Nat := if m = 0 then 0 else m.log2 + 1

/-- Round the exact magnitude m × 2^e (a little more, with `st`) of a sign to the format (R92–R94). -/
def Fmt.round (F : Fmt) (r : Rm) (s : Bool) (m : Nat) (e : Int) (st : Bool) : FRes :=
  if m = 0 then ⟨F.zero s, 0⟩
  else
    let p := F.mb + 1
    let emin : Int := 1 - F.bias
    let sh1 : Int := (bitLen m : Int) - p
    let q1 := (roundShift r s m st sh1).1
    let tiny := decide ((bitLen q1 : Int) + e + sh1 ≤ emin)
    let lo : Int := emin - F.mb
    let x := if e + sh1 < lo then lo else e + sh1
    let qi := roundShift r s m st (x - e)
    let q := qi.1
    let nx := if qi.2 then fNX else 0
    if tiny && F.flush then ⟨F.zero s, fUF + fNX⟩
    else
      let uf := if tiny && qi.2 then fUF else 0
      let qx : Nat × Int := if q = 2 ^ p then (2 ^ F.mb, x + 1) else (q, x)
      let field : Int := if qx.1 < 2 ^ F.mb then 0 else qx.2 + F.mb + F.bias
      if (F.emax : Int) ≤ field then
        let toInf := match r with | .even => true | .away => true | .zero => false | .down => s | .up => !s
        ⟨if toInf then F.inf s else F.big s, fOF + fNX⟩
      else ⟨F.zero s + field.toNat * 2 ^ F.mb + qx.1 % 2 ^ F.mb, uf + nx⟩

/-- A NaN result: the canonical quiet NaN, with NV where an operand signals (R93). -/
def Fmt.nanOf (F : Fmt) (vs : List FVal) : FRes := ⟨F.qnan, if vs.any (fun v => v == .nan true) then fNV else 0⟩

/-- An invalid operation. -/
def Fmt.invalid (F : Fmt) : FRes := ⟨F.qnan, fNV⟩

/-- A value is a NaN. -/
def FVal.isNan : FVal → Bool
  | .nan _ => true
  | _ => false

/-- The sign of a zero that an exact sum of opposite signs gives. -/
def sumZero (r : Rm) : Bool := r == .down

/-- A signed magnitude as an integer. -/
def signedMag (s : Bool) (m : Nat) : Int := if s then -(m : Int) else m

/-- The exact sum m1 × 2^e1 + m2 × 2^e2 of signed magnitudes, as an integer times 2 to the lower exponent. -/
def exactSum (s1 : Bool) (m1 : Nat) (e1 : Int) (s2 : Bool) (m2 : Nat) (e2 : Int) : Int × Int :=
  let e := if e1 < e2 then e1 else e2
  (signedMag s1 (m1 * 2 ^ (e1 - e).natAbs) + signedMag s2 (m2 * 2 ^ (e2 - e).natAbs), e)

/-- Addition of two values. -/
def Fmt.addV (F : Fmt) (r : Rm) (a b : FVal) : FRes :=
  match a, b with
  | .nan _, _ => F.nanOf [a, b]
  | _, .nan _ => F.nanOf [a, b]
  | .inf s, .inf t => if s = t then ⟨F.inf s, 0⟩ else F.invalid
  | .inf s, _ => ⟨F.inf s, 0⟩
  | _, .inf t => ⟨F.inf t, 0⟩
  | .zero s, .zero t => ⟨F.zero (if s = t then s else sumZero r), 0⟩
  | .zero _, .fin s m e => F.round r s m e false
  | .fin s m e, .zero _ => F.round r s m e false
  | .fin s m e, .fin t n d =>
    let x := exactSum s m e t n d
    if x.1 = 0 then ⟨F.zero (sumZero r), 0⟩ else F.round r (decide (x.1 < 0)) x.1.natAbs x.2 false

/-- A value with its sign changed. -/
def FVal.neg : FVal → FVal
  | .nan q => .nan q
  | .inf s => .inf (!s)
  | .zero s => .zero (!s)
  | .fin s m e => .fin (!s) m e

/-- The exact product of two values, where it is no NaN; `none` for 0 × ∞. -/
def mulExact (a b : FVal) : Option FVal :=
  match a, b with
  | .nan q, _ => some (.nan q)
  | _, .nan q => some (.nan q)
  | .inf _, .zero _ => none
  | .zero _, .inf _ => none
  | .inf s, .inf t => some (.inf (s != t))
  | .inf s, .fin t _ _ => some (.inf (s != t))
  | .fin s _ _, .inf t => some (.inf (s != t))
  | .zero s, .zero t => some (.zero (s != t))
  | .zero s, .fin t _ _ => some (.zero (s != t))
  | .fin s _ _, .zero t => some (.zero (s != t))
  | .fin s m e, .fin t n d => some (.fin (s != t) (m * n) (e + d))

/-- Multiplication of two values. -/
def Fmt.mulV (F : Fmt) (r : Rm) (a b : FVal) : FRes :=
  if a.isNan || b.isNan then F.nanOf [a, b]
  else match mulExact a b with
    | some (.inf s) => ⟨F.inf s, 0⟩
    | some (.zero s) => ⟨F.zero s, 0⟩
    | some (.fin s m e) => F.round r s m e false
    | some (.nan _) => F.invalid
    | none => F.invalid

/-- (a × b) + c with one rounding. 0 × ∞ is invalid whatever the addend, a quiet NaN among them, where IEEE 754 leaves the flag open
(DESIGN CHOICE, assumption log 114). -/
def Fmt.fmaV (F : Fmt) (r : Rm) (a b c : FVal) : FRes :=
  if a.isNan || b.isNan then F.nanOf [a, b, c]
  else match mulExact a b with
    | none => F.invalid
    | some p => F.addV r p c

/-- Division of two values. -/
def Fmt.divV (F : Fmt) (r : Rm) (a b : FVal) : FRes :=
  match a, b with
  | .nan _, _ => F.nanOf [a, b]
  | _, .nan _ => F.nanOf [a, b]
  | .inf _, .inf _ => F.invalid
  | .zero _, .zero _ => F.invalid
  | .inf s, .zero t => ⟨F.inf (s != t), 0⟩
  | .inf s, .fin t _ _ => ⟨F.inf (s != t), 0⟩
  | .zero s, .inf t => ⟨F.zero (s != t), 0⟩
  | .zero s, .fin t _ _ => ⟨F.zero (s != t), 0⟩
  | .fin s _ _, .inf t => ⟨F.zero (s != t), 0⟩
  | .fin s _ _, .zero t => ⟨F.inf (s != t), fDZ⟩
  | .fin s m e, .fin t n d =>
    let k := F.mb + 4 + bitLen n
    F.round r (s != t) (m * 2 ^ k / n) (e - d - k) (m * 2 ^ k % n != 0)

/-- The integer square root, one bit of the result per step from bit `n − 1` down. -/
def isqrtFrom (x : Nat) : Nat → Nat → Nat
  | 0, r => r
  | n + 1, r =>
    let c := r + 2 ^ n
    isqrtFrom x n (if c * c ≤ x then c else r)

/-- The integer square root. -/
def isqrt (x : Nat) : Nat := isqrtFrom x (bitLen x / 2 + 1) 0

/-- Square root of a value. -/
def Fmt.sqrtV (F : Fmt) (r : Rm) (a : FVal) : FRes :=
  match a with
  | .nan _ => F.nanOf [a]
  | .zero s => ⟨F.zero s, 0⟩
  | .inf s => if s then F.invalid else ⟨F.inf false, 0⟩
  | .fin s m e =>
    if s then F.invalid
    else
      let k := 2 * (F.mb + 4)
      let k := if (e - k) % 2 = 0 then k else k + 1
      let x := m * 2 ^ k
      let q := isqrt x
      F.round r false q ((e - k) / 2) (q * q != x)

/-- Comparison of two values that are no NaNs. -/
def FVal.lt (a b : FVal) : Bool :=
  match a, b with
  | .nan _, _ => false
  | _, .nan _ => false
  | .inf s, .inf t => s && !t
  | .inf s, _ => s
  | _, .inf t => !t
  | .zero _, .zero _ => false
  | .zero _, .fin t _ _ => !t
  | .fin s _ _, .zero _ => s
  | .fin s m e, .fin t n d => decide ((exactSum s m e (!t) n d).1 < 0)

/-- Equality of two values that are no NaNs. -/
def FVal.eq (a b : FVal) : Bool := !a.isNan && !b.isNan && !a.lt b && !b.lt a

/-- A value signals. -/
def FVal.signals (a : FVal) : Bool := a == .nan true

/-- minimumNumber (`mx` false) or maximumNumber of two patterns; −0 is less than +0. -/
def Fmt.minMax (F : Fmt) (mx : Bool) (x y : Nat) : FRes :=
  let a := F.val x
  let b := F.val y
  let nv := if a.signals || b.signals then fNV else 0
  let bitsOfV (x : Nat) (v : FVal) : Nat := match v with | .zero s => F.zero s | _ => x
  if a.isNan && b.isNan then ⟨F.qnan, nv⟩
  else if a.isNan then ⟨bitsOfV y b, nv⟩
  else if b.isNan then ⟨bitsOfV x a, nv⟩
  else
    let aLess := a.lt b || (a.eq b && F.sign x && !F.sign y)
    if aLess != mx then ⟨bitsOfV x a, nv⟩ else ⟨bitsOfV y b, nv⟩

/-- The class of a pattern, one bit of ten; it never flushes (R94, fclass). -/
def Fmt.classOf (F : Fmt) (x : Nat) : Nat :=
  let sub := F.expo x == 0
  match F.raw x with
  | .nan true => 2
  | .nan false => 1
  | .inf false => 4
  | .inf true => 512
  | .zero false => 32
  | .zero true => 64
  | .fin false _ _ => if sub then 16 else 8
  | .fin true _ _ => if sub then 128 else 256

/-- A value rounded to an integer and saturated to lo–hi, after scaling by 2^k (R95). -/
def FVal.toInt (v : FVal) (r : Rm) (k : Nat) (lo hi : Int) : Int × Nat :=
  match v with
  | .nan _ => (0, fNV)
  | .inf s => (if s then lo else hi, fNV)
  | .zero _ => (0, 0)
  | .fin s m e =>
    let q := roundShift r s m false (-(e + k))
    let i := signedMag s q.1
    if i < lo then (lo, fNV) else if hi < i then (hi, fNV) else (i, if q.2 then fNX else 0)

/-- An integer times 2^k as a number of the format. -/
def Fmt.ofInt (F : Fmt) (r : Rm) (i : Int) (k : Int) : FRes :=
  if i = 0 then ⟨F.zero false, 0⟩ else F.round r (decide (i < 0)) i.natAbs k false

/-- A value in another format. -/
def Fmt.ofVal (F : Fmt) (r : Rm) (v : FVal) : FRes :=
  match v with
  | .nan q => ⟨F.qnan, if q then fNV else 0⟩
  | .inf s => ⟨F.inf s, 0⟩
  | .zero s => ⟨F.zero s, 0⟩
  | .fin s m e => F.round r s m e false

/-- The pattern of x with the sign s. -/
def Fmt.withSign (F : Fmt) (x : Nat) (s : Bool) : Nat := x % 2 ^ (F.eb + F.mb) + F.zero s

/-- Round to Q16.16 with saturation: a Q16.16 value from an exact integer (R130). -/
def qSat (i : Int) : Int × Bool :=
  if i < -2147483648 then (-2147483648, true) else if 2147483647 < i then (2147483647, true) else (i, false)

end Sys2Proof.Machine
end

