-- ==== Sys2Proof/Machine/Operands.lean ====
section
/-! DEFINITION. The operand forms and the values of Myivire instructions, as every profile shares them: fields, integer
operations, shifts, and floating-point operations on given registers (R83–R86, R92–R95). -/

namespace Sys2Proof.Machine

/-! ## Fields of an instruction (Table 4-3) -/

/-- Field [25:21]. -/
def fRd (w : BitVec 26) : Nat := dfld w.toNat 25 21
/-- Field [20:16]. -/
def fRs1 (w : BitVec 26) : Nat := dfld w.toNat 20 16
/-- Field [15:11]. -/
def fRs2 (w : BitVec 26) : Nat := dfld w.toNat 15 11
/-- Field [10:0]. -/
def fFunc (w : BitVec 26) : Nat := dfld w.toNat 10 0
/-- Field [15:0]. -/
def fImm (w : BitVec 26) : Nat := dfld w.toNat 15 0
/-- Field [15:0] extended by its sign. -/
def fSimm (w : BitVec 26) : Dword := BitVec.ofInt 64 (toSigned 16 (fImm w))
/-- Field [25:0] extended by its sign. -/
def fOff26 (w : BitVec 26) : Dword := BitVec.ofInt 64 (toSigned 26 w.toNat)

/-! ## Integer operations (R84–R86) -/

/-- A 32-bit result sign-extended to 64 bits. -/
def sext32 (v : BitVec 32) : Dword := v.signExtend 64

/-- Leading zeros of a `w`-bit value. -/
def clzN (w x : Nat) : Nat := w - bitLen x

/-- Trailing zeros of a value, `w` for 0. -/
def ctzN (w x : Nat) : Nat := ((upto w).find? (fun i => x.testBit i)).getD w

/-- Number of 1 bits among the low `w`. -/
def popN (w x : Nat) : Nat := ((upto w).filter (fun i => x.testBit i)).length

/-- The low `n` bytes in reverse order. -/
def bswapN (n x : Nat) : Nat := leNat (leBytes n x).reverse

/-- The value of an OP operation without W; `none` is ILLEGAL (Table 4-5). `one`: rs2 is g0, as the one-operand forms need. -/
def opVal (f : Nat) (one : Bool) (x y : Dword) : Option Dword :=
  let n := y.toNat % 64
  match f with
  | 0x00 => some (x + y)
  | 0x01 => some (x - y)
  | 0x02 => some (x &&& y)
  | 0x03 => some (x ||| y)
  | 0x04 => some (x ^^^ y)
  | 0x05 => some (x <<< n)
  | 0x06 => some (x >>> n)
  | 0x07 => some (x.sshiftRight n)
  | 0x08 => some (if x.slt y then 1 else 0)
  | 0x09 => some (if x.ult y then 1 else 0)
  | 0x0A => some (if x.slt y then x else y)
  | 0x0B => some (if x.slt y then y else x)
  | 0x0C => some (if x.ult y then x else y)
  | 0x0D => some (if x.ult y then y else x)
  | 0x0E => some (x &&& ~~~ y)
  | 0x0F => if one then some (BitVec.ofNat 64 (clzN 64 x.toNat)) else none
  | 0x10 => if one then some (BitVec.ofNat 64 (ctzN 64 x.toNat)) else none
  | 0x11 => if one then some (BitVec.ofNat 64 (popN 64 x.toNat)) else none
  | 0x12 => if one then some (BitVec.ofNat 64 (bswapN 8 x.toNat)) else none
  | _ => none

/-- The value of an OP operation with W = 1 on the low 32 bits (R84). -/
def opValW (f : Nat) (one : Bool) (x y : BitVec 32) : Option (BitVec 32) :=
  let n := y.toNat % 32
  match f with
  | 0x00 => some (x + y)
  | 0x01 => some (x - y)
  | 0x05 => some (x <<< n)
  | 0x06 => some (x >>> n)
  | 0x07 => some (x.sshiftRight n)
  | 0x0F => if one then some (BitVec.ofNat 32 (clzN 32 x.toNat)) else none
  | 0x10 => if one then some (BitVec.ofNat 32 (ctzN 32 x.toNat)) else none
  | 0x11 => if one then some (BitVec.ofNat 32 (popN 32 x.toNat)) else none
  | 0x12 => if one then some (BitVec.ofNat 32 (bswapN 4 x.toNat)) else none
  | _ => none

/-- Quotient and remainder of `w`-bit values with the corners of R85. -/
def divRem (w : Nat) (signed : Bool) (x y : BitVec w) : BitVec w × BitVec w :=
  if y = 0 then (0, x)
  else if signed then
    if x = BitVec.intMin w ∧ y = BitVec.allOnes w then (x, 0)
    else (BitVec.ofInt w (x.toInt.tdiv y.toInt), BitVec.ofInt w (x.toInt.tmod y.toInt))
  else (x / y, x % y)

/-- The value of a MULDIV operation without W; `none` is ILLEGAL. -/
def mulVal (f : Nat) (x y : Dword) : Option Dword :=
  match f with
  | 0 => some (x * y)
  | 1 => some (BitVec.ofInt 64 (x.toInt * y.toInt / 2 ^ 64))
  | 2 => some (BitVec.ofNat 64 (x.toNat * y.toNat / 2 ^ 64))
  | 3 => some (BitVec.ofInt 64 (x.toInt * y.toNat / 2 ^ 64))
  | 4 => some (divRem 64 true x y).1
  | 5 => some (divRem 64 false x y).1
  | 6 => some (divRem 64 true x y).2
  | 7 => some (divRem 64 false x y).2
  | _ => none

/-- The value of a MULDIV operation with W = 1. -/
def mulValW (f : Nat) (x y : BitVec 32) : Option (BitVec 32) :=
  match f with
  | 0 => some (x * y)
  | 4 => some (divRem 32 true x y).1
  | 5 => some (divRem 32 false x y).1
  | 6 => some (divRem 32 true x y).2
  | 7 => some (divRem 32 false x y).2
  | _ => none

/-- The result of OP: func[10:7] must be 0 and func[6] is W (R84). -/
def aluOp (w : BitVec 26) (x y : Dword) : Option Dword :=
  let f := fFunc w
  let one := fRs2 w == 0
  if f / 128 ≠ 0 then none
  else if f.testBit 6 then (opValW (f % 64) one (x.truncate 32) (y.truncate 32)).map sext32
  else opVal (f % 64) one x y

/-- The result of MULDIV. -/
def aluMul (w : BitVec 26) (x y : Dword) : Option Dword :=
  let f := fFunc w
  if f / 128 ≠ 0 then none
  else if f.testBit 6 then (mulValW (f % 64) (x.truncate 32) (y.truncate 32)).map sext32
  else mulVal (f % 64) x y

/-- The result of SHIFTI: imm[15:14] the kind, imm[13] W, imm[12:6] zero, imm[5:0] the amount (R86). -/
def shiftImm (w : BitVec 26) (x : Dword) : Option Dword :=
  let i := fImm w
  let n := i % 64
  if dfld i 12 6 ≠ 0 ∨ (i.testBit 13 = true ∧ 32 ≤ n) then none
  else if i.testBit 13 then
    (match i / 2 ^ 14 with
      | 0 => some ((x.truncate 32) <<< n)
      | 1 => some ((x.truncate 32) >>> n)
      | 2 => some ((x.truncate 32 : BitVec 32).sshiftRight n)
      | _ => none).map sext32
  else match i / 2 ^ 14 with
    | 0 => some (x <<< n)
    | 1 => some (x >>> n)
    | 2 => some (x.sshiftRight n)
    | _ => none

/-- The bounds of an integer target: int32, uint32, int64, uint64 (Table 4-7). -/
def intBounds : Nat → Int × Int
  | 0 => (-2147483648, 2147483647)
  | 1 => (0, 4294967295)
  | 2 => (-9223372036854775808, 9223372036854775807)
  | _ => (0, 18446744073709551615)

/-- A general register read as an integer source of a conversion. -/
def intSource (k : Nat) (v : Dword) : Int :=
  match k with
  | 0 => (v.truncate 32 : BitVec 32).toInt
  | 1 => (v.toNat % 2 ^ 32 : Nat)
  | 2 => v.toInt
  | _ => v.toNat

/-- A floating-point result: to an f register with flags, or to a general register with flags. -/
inductive FopOut where
  | toF (r : FRes)
  | toG (v : Dword) (fl : Nat)

/-- The result of an FOP instruction on formats `fmts`, rounding modes `rms`, f registers `f` and g registers `g`; `none`
is ILLEGAL (Table 4-7). A conversion to uint32 sign-extends its 32 bits into the g register, where the table is silent (DESIGN
CHOICE, assumption log 113). -/
def fopCalc (fmts : Nat → Option Fmt) (rms : Nat → Option Rm) (f : Fmt → Nat → Nat) (g : Nat → Dword) (w : BitVec 26) :
    Option FopOut :=
  let fn := fFunc w
  let op := dfld fn 10 6
  let rmf := dfld fn 5 3
  match fmts (dfld fn 2 0) with
  | none => none
  | some F =>
    let xb := f F (fRs1 w)
    let yb := f F (fRs2 w)
    let x := F.val xb
    let y := F.val yb
    let rm := rms rmf
    let k := fRs2 w
    if op ≤ 4 then
      match rm with
      | none => none
      | some r =>
        match op with
        | 0 => some (.toF (F.addV r x y))
        | 1 => some (.toF (F.addV r x y.neg))
        | 2 => some (.toF (F.mulV r x y))
        | 3 => some (.toF (F.divV r x y))
        | _ => if k = 0 then some (.toF (F.sqrtV r x)) else none
    else if op = 5 then (if rmf = 0 then some (.toF (F.minMax false xb yb)) else none)
    else if op = 6 then (if rmf = 0 then some (.toF (F.minMax true xb yb)) else none)
    else if 7 ≤ op ∧ op ≤ 9 then
      let sg := if op = 7 then F.sign yb else if op = 8 then !F.sign yb else F.sign xb != F.sign yb
      if rmf = 0 then some (.toF ⟨F.withSign xb sg, 0⟩) else none
    else if 0xA ≤ op ∧ op ≤ 0xC then
      let nv := if op = 0xA then x.signals || y.signals else x.isNan || y.isNan
      let v := if op = 0xA then x.eq y else if op = 0xB then x.lt y else x.lt y || x.eq y
      if rmf = 0 then some (.toG (if v then 1 else 0) (if nv then fNV else 0)) else none
    else if op = 0xD then
      (if rmf = 0 ∧ k = 0 then some (.toG (BitVec.ofNat 64 (F.classOf xb)) 0) else none)
    else if op = 0xE then
      (if k ≤ 1 then
        match rm, fmts k with
        | some r, some G => some (.toF (F.ofVal r (G.val (f G (fRs1 w)))))
        | _, _ => none
      else none)
    else if op = 0xF then
      (match rm with
      | some r =>
        if k ≤ 3 then
          let b := intBounds k
          let q := x.toInt r 0 b.1 b.2
          let v : Dword := if k ≤ 1 then sext32 (BitVec.ofInt 32 q.1) else BitVec.ofInt 64 q.1
          some (.toG v q.2)
        else none
      | none => none)
    else if op = 0x10 then
      (match rm with
      | some r => if k ≤ 3 then some (.toF (F.ofInt r (intSource k (g (fRs1 w))) 0)) else none
      | none => none)
    else if op = 0x11 then
      (if rmf = 0 ∧ k = 0 then
        some (.toG (if F.mb = 23 then sext32 (BitVec.ofNat 32 xb) else BitVec.ofNat 64 xb) 0) else none)
    else if op = 0x12 then
      (if rmf = 0 ∧ k = 0 then
        some (.toF ⟨(g (fRs1 w)).toNat % 2 ^ (F.eb + F.mb + 1), 0⟩) else none)
    else if op = 0x13 then
      (match rm with
      | some r =>
        if F.mb = 23 ∧ k = 0 then
          let q := x.toInt r 16 (-2147483648) 2147483647
          some (.toG (BitVec.ofInt 64 q.1) q.2)
        else none
      | none => none)
    else if op = 0x14 then
      (match rm with
      | some r =>
        if F.mb = 23 ∧ k = 0 then
          some (.toF (F.ofInt r ((g (fRs1 w)).truncate 32 : BitVec 32).toInt (-16)))
        else none
      | none => none)
    else none

/-- The result of an instruction of the FMADD family: `np` negates the product, `nc` the addend (Table 4-7). -/
def fmaCalc (fmts : Nat → Option Fmt) (rms : Nat → Option Rm) (f : Fmt → Nat → Nat) (np nc : Bool) (w : BitVec 26) :
    Option FRes :=
  let fn := fFunc w
  match fmts (dfld fn 2 0), rms (dfld fn 5 3) with
  | some F, some r =>
    let v (i : Nat) := F.val (f F i)
    let x := if np then (v (fRs1 w)).neg else v (fRs1 w)
    let z := if nc then (v (dfld fn 10 6)).neg else v (dfld fn 10 6)
    some (F.fmaV r x (v (fRs2 w)) z)
  | _, _ => none

end Sys2Proof.Machine
end

