-- ==== Sys2Proof/Machine/Permits.lean ====
section
/-! DEFINITION. What each mode permits (R165, Table 7-1). -/

namespace Sys2Proof.Machine

/-- Table 7-1: the mode permits machine function `mf`. Nothing acts in DORMANT and LIMP; 0 and 31 name no machine function,
which the table forbids in no other mode. MF01 and MF02 act in every mode except DORMANT and LIMP. In HARVEST and HEADLAND
the tank cover MF20 acts and the other unloading functions do not; HEADLAND's "turn and lift sequences" are commands of the
header functions. -/
def mfPermitted (mode mf : Nat) : Bool :=
  if mode = 0 ∨ mode = 6 then false
  else if mf = 0 ∨ mf = 31 then true
  else if mode = 4 ∨ mode = 5 then true
  else if mf ≤ 2 then true
  else if mode = 1 then false
  else !(mf == 21 || mf == 22)

end Sys2Proof.Machine
end

