-- ==== Sys2Proof/Machine/Valve.lean ====
section
/-! DEFINITION. The valve drivers (VLV): waveform commands and the P profile, the feed arbiter, switch-off, dither and
limits (R134–R136, R140–R142, R304–R317). Diagnostics, identity and ledger stand in Coil.lean. -/

namespace Sys2Proof.Machine

/-! ## Fields -/

/-- A valve channel's state beside its registers; at reset its duty window is empty. -/
def State.vch (s : State) (n : Nat) : VlvCh := s.vlv.ch.get {} n

/-- Change a valve channel's state. -/
def State.vchMod (s : State) (n : Nat) (f : VlvCh → VlvCh) : State :=
  s.putVlv { s.vlv with ch := s.vlv.ch.set {} n (f (s.vch n)) }

/-- A bit of VLV_CH[n]_STATUS. -/
def State.vlvBit (s : State) (n i : Nat) : Bool := s.bit .VLV (VLV_CH_STATUS n) i

/-- Set a bit of VLV_CH[n]_STATUS. -/
def State.vlvSet (s : State) (n i : Nat) (v : Bool) : State := s.setBit .VLV (VLV_CH_STATUS n) i v

/-- A waveform runs on the channel. -/
def State.vlvRuns (s : State) (n : Nat) : Bool := s.vlvBit n 23

/-- The index of the instruction executing or waiting. -/
def State.vlvPc (s : State) (n : Nat) : Nat := s.f .VLV (VLV_CH_STATUS n) 13 8

/-- The applied target (R310), in 0.5 mA. -/
def State.applied (s : State) (n : Nat) : Nat := s.f .VLV (VLV_CH_CURRENT n) 15 0

/-- The group feed of a channel: HSFg, g = n div 4. -/
def hsfOf (n : Nat) : Nat := n / 4

/-- The channels of a group. -/
def groupOf (g : Nat) : List Nat := (upto 4).map (fun i => 4 * g + i)

/-- The channels that share a channel's feed. -/
def siblings (n : Nat) : List Nat := (groupOf (hsfOf n)).filter (fun m => m != n)

/-- The largest target of a channel's type (Table 12-1). -/
def vlvTypeMax (n : Nat) : Nat := if n < 24 then 6000 else 16000

/-- The percentage of LIFE_DERATE (Table 12-10). -/
def deratePct (k : Nat) : Nat := match k with | 0 => 50 | 1 => 70 | 2 => 85 | _ => 100

/-- LIMIT.MAX, as derated by life (R304, R325). -/
def State.vlvMax (s : State) (n : Nat) : Nat :=
  let m := clampN 0 (vlvTypeMax n) (s.f .VLV (VLV_CH_LIMIT n) 15 0)
  if s.vlvBit n 19 then m * deratePct (s.f .VLV (VLV_CH_CFG n) 11 10) / 100 else m

/-- The target that a requested target comes to: after LIMIT, PEAK_CLAMP and the duty fallback (R304, R310, R317). -/
def State.vlvEff (s : State) (n t : Nat) : Nat :=
  let t := min t (s.vlvMax n)
  let t := if s.vlvBit n 20 then min t 6000 else t
  if s.vlvBit n 21 then min t (min 16000 (s.f .VLV (VLV_CH_DUTY_FB n) 13 0)) else t

/-! ## Loads (R305, R312) -/

/-- A channel's load in 0.25 mA: twice its applied target plus its dither amplitude, 0 at target 0. -/
def loadOf (t amp : Nat) : Nat := if t = 0 then 0 else 2 * t + amp

/-- A channel's present load. -/
def State.vlvLoad (s : State) (n : Nat) : Nat := loadOf (s.applied n) (s.vch n).amp

/-- A group's load. -/
def State.groupLoad (s : State) (g : Nat) : Nat := ((groupOf g).map s.vlvLoad).sum

/-- The BAT_V load. -/
def State.batvLoad (s : State) : Nat := ((upto 32).map s.vlvLoad).sum

/-- Channel n with load `l` keeps both sums within their limits. -/
def State.vlvFits (s : State) (n l : Nat) : Bool :=
  decide (s.groupLoad (hsfOf n) + l ≤ 4 * s.f .VLV (VLV_HSF_CFG (hsfOf n)) 15 0 + s.vlvLoad n) &&
  decide (s.batvLoad + l ≤ 4 * s.f .VLV VLV_BATV_LIMIT 15 0 + s.vlvLoad n)

/-- HSFg is open for the ISOLATE decay of another channel of the group (R316). -/
def State.isoOther (s : State) (n : Nat) : Bool := (siblings n).any (fun m => (s.vch m).decay == some 2)

/-- The registers of loads and of active channels follow the channels. -/
def State.vlvShow (s : State) (n : Nat) : State :=
  let g := hsfOf n
  let s := s.setF .VLV (VLV_HSF_LOAD g) 15 0 (clampN 0 65535 (s.groupLoad g / 4))
  let s := s.setF .VLV VLV_BATV_LOAD 15 0 (clampN 0 65535 (s.batvLoad / 4))
  let act := fun m => s.applied m != 0 || (s.vch m).flowing
  let iso := (groupOf g).any (fun m => (s.vch m).decay == some 2)
  let s := s.each (upto 4) (fun s i => s.setBit .VLV (VLV_HSF_STATUS g) i (act (4 * g + i)))
  let s := s.setBit .VLV (VLV_HSF_STATUS g) 14 iso
  s.setBit .VLV (VLV_HSF_STATUS g) 13 (!iso && !s.bit .VLV (VLV_HSF_STATUS g) 15)

/-! ## Counts and flags -/

/-- One of the counts of VLV_CH[n]_COUNTS: 0 DEFERRALS, 1 REFUSALS, 2 REPLACED, 3 refused starts. -/
def State.vlvCount (s : State) (n k : Nat) : State := s.incF .VLV (VLV_CH_COUNTS n) (8 * k + 7) (8 * k) 1

/-! ## Bands (R322) and bank swaps (R141) -/

/-- g2–g7 from the band in force, with g1 as given. -/
def State.vlvParams (s : State) (n g1 : Nat) : State :=
  let b := s.f .VLV (VLV_CH_STATUS n) 27 26
  let g := (upto 3).flatMap (fun w =>
    let v := s.rd .VLV (VLV_CH_BANDP n b w)
    [fld v 15 0, fld v 31 16])
  s.vchMod n (fun c => { c with g := g1 :: g })

/-- A pending band change takes effect. -/
def State.vlvTakeBand (s : State) (n : Nat) : State :=
  if s.vlvBit n 25 then (s.setF .VLV (VLV_CH_STATUS n) 27 26 (s.vch n).band).vlvSet n 25 false else s

/-- A pending SWAP takes effect (R141). -/
def State.vlvTakeSwap (s : State) (n : Nat) : State :=
  let r := VLV_CH_BANK n
  if s.bit .VLV r 2 then ((s.setBit .VLV r 0 (!s.bit .VLV r 0)).setBit .VLV r 2 false).vlvEvent n 13 else s

/-- No waveform runs any more: a pending band change and a pending SWAP take effect at once. -/
def State.vlvIdle (s : State) (n : Nat) : State := (s.vlvTakeBand n).vlvTakeSwap n

/-! ## The ledger's cycles (R324) -/

/-- The ledger entry that a channel is bound to, if any. -/
def State.entryOf (s : State) (n : Nat) : Option Nat :=
  let e := s.f .VLV (VLV_CH_LIFE n) 7 0
  if e < 128 then some e else none

/-- One cycle at a change of the applied target from 0. -/
def State.vlvCycle (s : State) (n : Nat) : State :=
  match s.entryOf n with
  | none => s
  | some e =>
    match s.vlv.ledger.get none e with
    | none => s
    | some l => s.putVlv { s.vlv with ledger := s.vlv.ledger.set none e (some { l with cycles := l.cycles + 1 }) }

/-! ## Applying a target (R313–R316) -/

/-- A decay begins in a mode: RECIRC acts as CLAMP on V24–V31; ISOLATE is demoted to CLAMP while a sibling is active. -/
def State.vlvDecay (s : State) (n mode : Nat) : State :=
  let s := s.vchMod n (fun c => { c with asked := mode })
  let mode := if mode = 0 ∧ 24 ≤ n then 1 else mode
  let busy := (siblings n).any (fun m => s.applied m != 0 || (s.vch m).flowing)
  if mode = 2 && busy then
    (s.vlvSet n 4 true).vchMod n (fun c => { c with decay := some 1 })
  else s.vchMod n (fun c => { c with decay := some mode })

/-- What the regulator does after a change of the applied target (R476): full duty after a rise, a decay after a fall to a
lower non-zero target. -/
def driveAfter (old t : Nat) (d : VDrive) : VDrive :=
  if t = 0 then .regulate else if old < t then .full else if t < old then .fall else d

/-- A channel's applied target and dither take effect: a rise from 0 ends a decay, aborts an identity read and counts a
cycle, a fall to 0 starts the decay of the mode in force; a load that falls lets the queues be served. -/
def State.vlvApply (s : State) (n t : Nat) (d : Option (Nat × Nat × Nat)) : State :=
  let old := s.applied n
  let load := s.vlvLoad n
  let s := match d with
    | some (hz, sh, a) => s.vchMod n (fun c => { c with dithHz := hz, dithShape := sh, amp := a })
    | none => s
  let s := s.setF .VLV (VLV_CH_CURRENT n) 15 0 t
  let s := s.vchMod n (fun c => { c with taken := c.req, drive := driveAfter old t c.drive })
  let s :=
    if t = 0 then (if old = 0 then s else s.vlvDecay n (s.vch n).mode)
    else
      let s := s.vchMod n (fun c => { c with decay := none, flowing := true })
      let m := s.mailOf .VLV
      let s := if m.code = 6 ∧ fld (arg m.args 0) 4 0 = n then s.cmdEnd .VLV .aborted else s
      if old = 0 then s.vlvCycle n else s
  let s := if s.vlvLoad n < load then (s.putVlv { s.vlv with fell := true }) else s
  s.vlvShow n

/-- A group's queue. -/
def State.queueOf (s : State) (g : Nat) : List VReq := s.vlv.q.get [] g

/-- Set a group's queue. -/
def State.setQueue (s : State) (g : Nat) (q : List VReq) : State :=
  s.putVlv { s.vlv with q := s.vlv.q.set [] g q }

/-- A queued request of the channel leaves its group queue, and those behind it may be served (R307, R315). -/
def State.vlvWithdraw (s : State) (n : Nat) : State :=
  let q := s.queueOf (hsfOf n)
  if q.any (fun r => r.ch == n) then
    let s := (s.setQueue (hsfOf n) (q.filter (fun r => r.ch != n))).vlvSet n 22 false
    s.putVlv { s.vlv with fell := true }
  else s

/-- A request is refused (R315): DEFERRED, REFUSED and its count; the target stays what it was, and a waveform that waited
goes on. -/
def State.vlvRefuse (s : State) (n : Nat) : State :=
  let s := ((s.vlvSet n 5 true).vlvCount n 1).vlvEvent n 5
  s.vchMod n (fun c => { c with wait := false, req := c.taken })

/-- BAT_V stands outside its operating range (R27, Table 1-11: 6 V to 32 V), by FEED_LOW_V or its last measurement: the valve
functions are suspended. -/
def State.vlvSuspended (s : State) : Bool :=
  s.bit .PWR PWR_STATUS 5 || decide (32000 < s.f .PWR (PWR_VOLT 3) 15 0)

/-- The dither that the channel's queued request asks for, if any. -/
def State.queuedDith (s : State) (n : Nat) : Option (Nat × Nat × Nat) :=
  ((s.queueOf (hsfOf n)).find? (fun r => r.ch == n)).bind (·.dith)

/-- A request that does not raise the load is applied at once (R314); a queued request of the channel is withdrawn, and a
waveform that waited for it goes on. A dither that still waits for its load stays queued with the new target. -/
def State.vlvLower (s : State) (n t : Nat) (d : Option (Nat × Nat × Nat)) : State :=
  let go := fun (s : State) => s.vchMod n (fun c => { c with granted := c.granted || c.wait })
  match d, s.queuedDith n with
  | none, some q =>
    if loadOf t q.2.2 ≤ s.vlvLoad n then go ((s.vlvWithdraw n).vlvApply n t (some q)) else s.vlvApply n t none
  | _, _ => go ((s.vlvWithdraw n).vlvApply n t d)

/-- PEAK_CLAMP clears when the target falls to 6,000 or below (R304). -/
def State.vlvUnpeak (s : State) (n : Nat) : State := if (s.vch n).req ≤ 6000 then s.vlvSet n 20 false else s

/-- The channel's requested target, with a dither where one is asked for, goes to the arbiter (R314): a request that does
not raise the load is applied at once; an increase is applied where it fits and nothing is queued before it, else queued
(`wait`: the waveform waits for it) or, with DEFER_MAX 0, refused. While BAT_V stands outside its range an increase is queued
(R27, DESIGN CHOICE, assumption log 156). -/
def State.vlvRequest (s : State) (n : Nat) (d : Option (Nat × Nat × Nat)) (wait : Bool) : State :=
  let s := s.vlvUnpeak n
  let t := s.vlvEff n (s.vch n).req
  let amp := match d with | some (_, _, a) => a | none => (s.vch n).amp
  let l := loadOf t amp
  let g := hsfOf n
  let q := s.queueOf g
  if l ≤ s.vlvLoad n then s.vlvLower n t d
  else if q.any (fun r => r.ch == n) then
    let s := s.setQueue g (q.map (fun r => if r.ch == n then { r with dith := if d.isSome then d else r.dith } else r))
    s.vchMod n (fun c => { c with wait := c.wait || wait })
  else if q.isEmpty && s.vlvFits n l && !s.isoOther n && !s.vlvSuspended then s.vlvApply n t d
  else if s.f .VLV (VLV_CH_CFG n) 9 0 = 0 && !s.vlvSuspended then s.vlvRefuse n
  else ((s.setQueue g (q ++ [{ ch := n, dith := d }])).vlvSet n 22 true).vchMod n (fun c => { c with wait := wait })

/-! ## Waveforms (R134–R136, R306–R308) -/

/-- The running waveform ends, with no switch-off; its queued request is withdrawn without a refusal (R307). -/
def State.vlvAbort (s : State) (n : Nat) : State :=
  let s := (s.vlvSet n 23 false).vchMod n (fun c =>
    { c with hold := none, wait := false, granted := false, cmd := none, req := c.taken })
  s.vlvWithdraw n

/-- The target becomes 0 and the dither ends; PEAK_CLAMP clears. The mode in force applies also where the target was 0
already and the coil still decays in another mode (R134, R313). -/
def State.vlvZero (s : State) (n : Nat) : State :=
  let s := (s.vchMod n (fun c => { c with req := 0, follow := false })).vlvUnpeak n
  let s := s.vlvApply n 0 (some (0, 0, 0))
  let c := s.vch n
  if c.decay.isSome && c.asked != c.mode then (s.vlvDecay n c.mode).vlvShow n else s

/-- The waveform reaches end, or a stop command ends it as end does (R134, R306). -/
def State.vlvEnd (s : State) (n : Nat) : State := (((s.vlvAbort n).vlvZero n).vlvEvent n 0).vlvIdle n

/-- The channel takes its programmed fail state (R186, R327): OFF with its own mode, or FIXED at FAIL_I on V01–V23;
`off`: OFF whatever is programmed. -/
def State.vlvFail (s : State) (n : Nat) (off : Bool) : State :=
  let w := s.rd .VLV (VLV_CH_FAIL n)
  let kind := fld w 31 30
  let s := ((s.vlvAbort n).vlvSet n 24 true).setBit .VLV VLV_HELD n false
  let s := if kind = 3 ∧ 1 ≤ n ∧ n ≤ 23 ∧ off = false then
      let s := s.vchMod n (fun c => { c with req := fld w 29 16, follow := false })
      s.vlvRequest n (some (0, 0, 0)) false
    else (s.vchMod n (fun c => { c with mode := if kind = 3 then 1 else kind })).vlvZero n
  s.vlvIdle n

/-- The channel goes off with no decay mode (Table 12-4): the low side opens at once. -/
def State.vlvOffNow (s : State) (n : Nat) : State :=
  let s := ((s.vlvAbort n).vchMod n (fun c => { c with mode := 0 })).vlvZero n
  ((s.vchMod n (fun c => { c with decay := none })).vlvShow n).vlvIdle n

/-- A waveform starts at an index (R306): a pending SWAP is taken, g1–g7 are loaded and the flags cleared. -/
def State.vlvStart (s : State) (n i : Nat) : State :=
  let s := s.vlvTakeSwap n
  let s := (s.setF .VLV (VLV_CH_STATUS n) 5 0 0).setF .VLV (VLV_CH_STATUS n) 13 8 i
  let s := (s.vlvSet n 23 true).vlvSet n 24 false
  let s := s.vlvParams n (s.f .VLV (VLV_CH_HOLD_T n) 19 0)
  s.vchMod n (fun c => { c with
    follow := false, mode := 0, pwm := if n < 24 then 4000 else 20000, hold := none, wait := false, granted := false
    count := 0, cmd := none, kept := false })

/-- The PWM frequency of a channel in Hz (Table 12-1): as pwmf set it, fixed on V24–V31. -/
def State.vlvPwm (s : State) (n : Nat) : Nat := if n < 24 then (s.vch n).pwm else 20000

/-- A waveform command acts (R307): a stop ends the running waveform as end does; a start ends it with no switch-off. -/
def State.vlvAct (s : State) (n : Nat) (c : VCmd) : State :=
  match c with
  | .stop => if s.vlvRuns n then s.vlvEnd n else s
  | .start i => (s.vlvAbort n).vlvStart n i

/-- The instructions of the P profile (Table 5-7). -/
inductive PIns where
  | nop
  | phase (k : Nat)
  | seti (src v : Nat)
  | dith (hz shape amp : Nat)
  | hold (h : VHold)
  | offmode (m : Nat)
  | pwmf (hz : Nat)
  | bdiag (mask target : Nat)
  | stop
  deriving DecidableEq, Repr

/-- The instruction a word spells in the P profile, if it belongs to it; a field not used must be 0 (R83). -/
def decodeP (w : Word) : Option PIns :=
  let o := fld w 21 0
  if w = 0x0C000000 then some .nop
  else if fld w 31 26 ≠ 0x3D then none
  else match fld w 25 22 with
    | 0x0 => if o / 16 = 0 then some (.phase o) else none
    | 0x1 => match fld w 21 20 with
      | 0 => if fld w 19 16 = 0 then some (.seti 0 (fld w 15 0)) else none
      | 1 => if fld w 19 0 = 0 then some (.seti 1 0) else none
      | 2 => if fld w 19 19 = 0 ∧ fld w 15 0 = 0 then some (.seti 2 (fld w 18 16)) else none
      | _ => none
    | 0x2 =>
      if fld w 12 11 = 3 then none
      else
        let hz := fld w 21 13
        some (.dith (if hz = 0 then 0 else clampN 20 500 hz) (fld w 12 11) (clampN 0 1200 (fld w 10 0)))
    | 0x3 => match fld w 21 20 with
      | 0 => some (.hold ⟨0, fld w 19 0, false⟩)
      | 1 => if fld w 18 16 = 0 then some (.hold ⟨1, fld w 15 0, bitOf w 19⟩) else none
      | 2 => if fld w 19 16 = 0 then some (.hold ⟨2, fld w 15 0, false⟩) else none
      | _ => if fld w 19 0 = 0 then some (.hold ⟨3, 0, false⟩) else none
    | 0x4 => if fld w 21 2 = 0 ∧ o ≠ 3 then some (.offmode o) else none
    | 0x5 => if fld w 21 15 = 0 then some (.pwmf (clampN 2000 25000 (fld w 14 0))) else none
    | 0x6 => if fld w 15 6 = 0 then some (.bdiag (fld w 21 16) (fld w 5 0)) else none
    | 0xF => if o = 0 then some .stop else none
    | _ => none

/-- A word of a channel's bank. -/
def State.vlvWord (s : State) (n b i : Nat) : Word := s.rd .VLV (VLV_BANKW n b i)

/-- The active bank of a channel. -/
def State.vlvActive (s : State) (n : Nat) : Nat := s.f .VLV (VLV_CH_BANK n) 0 0

/-- A waveform stops with PROGRAM_FAULT and its channel takes its fail state (R136, R103). -/
def State.vlvFault (s : State) (n : Nat) : State := (s.vlvEvent n 7).vlvFail n false

/-- The index of the instruction to execute next. -/
def State.vlvSetPc (s : State) (n i : Nat) : State :=
  (s.setF .VLV (VLV_CH_STATUS n) 13 8 i).vchMod n (fun c => { c with count := c.count + 1 })

/-- The index after `pc`; past index 63 the waveform stops. -/
def State.vlvPast (s : State) (n pc : Nat) : State := if pc < 63 then s.vlvSetPc n (pc + 1) else s.vlvFault n

/-- The next index, unless the instruction at `pc` waits or has ended the waveform. -/
def State.vlvNext (s : State) (n pc : Nat) : State := if (s.vch n).wait then s else s.vlvPast n pc

/-- A waveform that waited for its request goes on at the next index. -/
def State.vlvResume (s : State) (n : Nat) : State :=
  if (s.vch n).wait then (s.vchMod n (fun c => { c with wait := false, granted := false })).vlvPast n (s.vlvPc n) else s

/-- The value of register `k` of a waveform: g0 is 0. -/
def VlvCh.reg (c : VlvCh) (k : Nat) : Nat := if k = 0 then 0 else (c.g.getD (k - 1) 0) % 65536

/-- A seti: its source is noted and its target requested; the waveform waits for an immediate or register source only. -/
def State.vlvSeti (s : State) (n src v : Nat) : State :=
  let t := if src = 0 then v else if src = 1 then min 16000 (s.f .VLV (VLV_CH_CMD_IN n) 13 0) else (s.vch n).reg v
  let s := s.vchMod n (fun c => { c with req := t, follow := src == 1 })
  s.vlvRequest n none (src != 1)

/-- A hold begins, with no edge counted; a hold of kind 3 ends at once where a command waits (R307). -/
def State.vlvHold (s : State) (n : Nat) (h : VHold) : State :=
  match h.kind, (s.vch n).cmd with
  | 3, some c => (s.vchMod n (fun c => { c with cmd := none })).vlvAct n c
  | _, _ => s.vchMod n (fun c => { c with hold := some h, edges := 0 })

/-- The program reaches end; a waiting command then acts as with PREEMPT at 1: a start with no switch-off (R307). -/
def State.vlvStop (s : State) (n : Nat) : State :=
  match (s.vch n).cmd with
  | some c => s.vlvAct n c
  | none => s.vlvEnd n

/-- A waveform executes one instruction; the 65th without a completed hold, an index past the bank and a word outside the
profile stop it. The index moves on before the effect, and back while the instruction waits. -/
def State.vlvInstr (s : State) (n : Nat) : State :=
  let pc := s.vlvPc n
  if 64 ≤ (s.vch n).count then s.vlvFault n
  else match decodeP (s.vlvWord n (s.vlvActive n) pc) with
    | none => s.vlvFault n
    | some .stop => s.vlvStop n
    | some (.hold h) => (s.vchMod n (fun c => { c with count := c.count + 1 })).vlvHold n h
    | some (.bdiag mask target) =>
      let found := s.f .VLV (VLV_CH_STATUS n) 5 0 &&& mask
      if mask = 0 then s.vlvSetPc n target
      else if found ≠ 0 then
        (s.setF .VLV (VLV_CH_STATUS n) 5 0 (s.f .VLV (VLV_CH_STATUS n) 5 0 ^^^ found)).vlvSetPc n target
      else s.vlvNext n pc
    | some .nop => s.vlvNext n pc
    | some (.phase _) =>
      let s := s.vchMod n (fun c => { c with mode := 0 })
      let s := if s.vlvBit n 25 then (s.vlvTakeBand n).vlvParams n ((s.vch n).g.getD 0 0) else s
      s.vlvNext n pc
    | some (.seti src v) => (s.vlvSeti n src v).vlvNext n pc
    | some (.dith hz sh a) => (s.vlvRequest n (some (hz, sh, if hz = 0 then 0 else a)) true).vlvNext n pc
    | some (.offmode m) => (s.vchMod n (fun c => { c with mode := m })).vlvNext n pc
    | some (.pwmf hz) => (s.vchMod n (fun c => { c with pwm := if n < 24 then hz else c.pwm })).vlvNext n pc

/-- The head of a group queue is applied where it fits both limits and HSFg is not open for a sibling. -/
def State.vlvServe1 (s : State) (g : Nat) : Option State :=
  match s.queueOf g with
  | [] => none
  | r :: rest =>
    let t := s.vlvEff r.ch (s.vch r.ch).req
    let amp := match r.dith with | some (_, _, a) => a | none => (s.vch r.ch).amp
    if s.vlvFits r.ch (loadOf t amp) && !s.isoOther r.ch && !s.vlvSuspended then
      let s := ((s.setQueue g rest).vlvSet r.ch 22 false).vlvCount r.ch 0
      some ((s.vlvApply r.ch t r.dith).vlvResume r.ch)
    else none

/-- The first group, in their order, whose head can be applied. -/
def State.vlvServe (s : State) : List Nat → Option State
  | [] => none
  | g :: gs => match s.vlvServe1 g with
    | some s' => some s'
    | none => s.vlvServe gs

/-- A channel whose waveform can execute its next instruction, or go on after its request. -/
def State.vlvReady (s : State) (n : Nat) : Bool :=
  s.vlvRuns n && (s.vch n).hold.isNone && (!(s.vch n).wait || (s.vch n).granted) && !s.vlvSuspended

/-- Serve the queues while a load has fallen, then let each waveform that can go on execute, until all wait. A waveform
executes at most 64 instructions without a hold, so 4,400 steps always suffice. -/
def State.vlvSettleN : Nat → State → State
  | 0, s => s
  | k + 1, s =>
    if s.vlv.fell then
      match s.vlvServe (upto 8) with
      | some s' => s'.vlvSettleN k
      | none => State.vlvSettleN k (s.putVlv { s.vlv with fell := false })
    else
      match (upto 32).find? s.vlvReady with
      | some n => (if (s.vch n).granted then s.vlvResume n else s.vlvInstr n).vlvSettleN k
      | none => s

/-- What the waveforms and the arbiter do at once after a change. -/
def State.vlvSettle (s : State) : State := s.vlvSettleN 4400

/-! ## Waveform commands (R306–R309) -/

/-- The first case of R308 that refuses a waveform command; `i` is its start index, if it has one. -/
def State.vlvJudge (s : State) (n : Nat) (i : Option Nat) : Result :=
  if 63 < i.getD 0 then .badHeader
  else if !mfPermitted s.mode (s.f .VLV (VLV_CH_CFG n) 31 27) then .refusedMode
  else if !s.bit .VLV VLV_CLAIMED n then .locked
  else if s.vlvBit n 16 then .locked
  else .ok

/-- A waveform command (R306, R307): judged, and acting at once on a channel with no waveform, with PREEMPT at 1, or in a
hold of kind 3; else kept as the latest waiting command. `auto`: an AUTO start, whose refusal counts. -/
def State.vlvGo (s : State) (n : Nat) (c : VCmd) (auto : Bool) : State :=
  let r := s.vlvJudge n (match c with | .start i => some i | .stop => none)
  let s := s.wrN .VLV (VLV_CH_GO_STS n) r.code
  if r ≠ .ok then (if auto then s.vlvCount n 3 else s)
  else if !s.vlvRuns n then (s.vlvAct n c).vlvSettle
  else if s.bit .VLV (VLV_CH_CFG n) 17 || (s.vch n).hold == some ⟨3, 0, false⟩ then (s.vlvAct n c).vlvSettle
  else
    let s := if (s.vch n).cmd.isSome then s.vlvCount n 2 else s
    s.vchMod n (fun k => { k with cmd := some c })

/-- VLV_GO (R306): a start index outside 0–63 is refused (R308). -/
def execVlvGo (n : Fin 32) (i : Nat) (s : State) : Res := ok (s.vlvGo n.val (.start i) false)

/-- VLV_STOP (R306). -/
def execVlvStop (n : Fin 32) (s : State) : Res := ok (s.vlvGo n.val .stop false)

/-- A new value of the command input (R309): the target of a waveform that follows it, or an AUTO start from 0. -/
def State.vlvCmdIn (s : State) (n v : Nat) : State :=
  let old := s.f .VLV (VLV_CH_CMD_IN n) 13 0
  let v := min 16000 v
  let s := s.wrN .VLV (VLV_CH_CMD_IN n) v
  if s.vlvRuns n then
    if (s.vch n).follow then
      ((s.vchMod n (fun c => { c with req := v })).vlvRequest n none false).vlvSettle
    else s
  else if s.bit .VLV (VLV_CH_CFG n) 24 && old == 0 && v != 0 then
    s.vlvGo n (.start (s.f .VLV (VLV_CH_CFG n) 23 18)) true
  else s

/-- A sink word names valve channel `n`. -/
def sinkValve (w : Word) (n : Nat) : Bool := fld w 31 28 == 1 && fld w 4 0 == n

/-- A loop instance or group whose sink in force is the channel (R309). -/
def State.lpeNames (s : State) (n : Nat) : Bool :=
  s.lpe.i.cells.any (fun c => !bitOf c.2.cfg 12 && sinkValve c.2.sink n) ||
    s.lpe.g.cells.any (fun c => sinkValve c.2.sink n)

/-- A write of CMD_IN by the program or an engine port: ignored while a loop sink names the channel (R309). -/
def State.vlvProgIn (s : State) (n : Nat) (v : Word) : State :=
  if s.lpeNames n then s else s.vlvCmdIn n (fld v 13 0)

/-- CMD_IN_WRITE (R309). -/
def execCmdInWrite (n : Fin 32) (v : Word) (s : State) : Res := ok (s.vlvProgIn n.val v)

/-- The measured mean current of a channel, in mA (R310): a regulator that drives up or lets it decay has reached its target
(R476). -/
def State.vlvMeasured (s : State) (n current : Nat) : State :=
  let s := s.setF .VLV (VLV_CH_CURRENT n) 31 16 (clampN 0 65535 current)
  let t := s.applied n
  s.vchMod n (fun c => { c with drive := match c.drive with
    | .full => if t ≤ 2 * current then .regulate else .full
    | .fall => if 2 * current ≤ t then .regulate else .fall
    | .regulate => .regulate })

/-- A rising edge counted on a FIN input, for the count holds whose COUNT_FIN names it (Table 5-7). -/
def State.vlvFinEdge (s : State) (fin : Nat) : State :=
  s.each (upto 32) (fun s n => match (s.vch n).hold with
    | some h => if h.kind = 2 ∧ s.f .VLV (VLV_CH_HOLD_T n) 28 24 = fin then
        s.vchMod n (fun c => { c with edges := c.edges + 1 }) else s
    | none => s)

/-- The condition of a hold (R135, R476), at a current of `ua` µA averaged over one PWM period: a time hold's time is the
row's; a current hold has risen or fallen to its threshold; a count hold has counted its edges, which with COUNT_FIN 24–31
never happens; a hold of kind 3 has no condition. -/
def State.vlvHoldMet (s : State) (n : Nat) (h : VHold) (ua : Nat) : Bool :=
  match h.kind with
  | 0 => true
  | 1 => if h.falling then decide (ua ≤ 500 * h.v) else decide (500 * h.v ≤ ua)
  | 2 => decide (s.f .VLV (VLV_CH_HOLD_T n) 28 24 < 24) && decide (h.v ≤ (s.vch n).edges)
  | _ => false

/-- HOLD_END (R135): the hold in force ends, on its condition or, for kinds 1 and 2 with g1 not 0, by its timeout; a waiting
command then acts. The measured current is averaged over one PWM period. Nothing ends while BAT_V stands outside
its range (R27). -/
def execHoldEnd (n : Fin 32) (e : HoldProbe) (s : State) : Res :=
  match (s.vch n.val).hold with
  | none => ok s
  | some h =>
    let s := s.vlvMeasured n.val (e.ua / 1000)
    if s.vlvSuspended then ok s
    else if e.timeout && (h.kind == 0 || h.kind == 3 || (s.vch n.val).g.getD 0 0 == 0) then ok s
    else if !e.timeout && !s.vlvHoldMet n.val h e.ua then ok s
    else
      let s := s.vchMod n.val (fun c => { c with hold := none, count := 0 })
      let s := if e.timeout then s.vlvSet n.val 3 true else s
      match (s.vch n.val).cmd with
      | some c => ok (((s.vchMod n.val (fun c => { c with cmd := none })).vlvAct n.val c).vlvSettle)
      | none => ok ((s.vlvPast n.val (s.vlvPc n.val)).vlvSettle)

/-! ## The arbiter's clock, limits and decays -/

/-- DEFERRAL_APPLY (R314): the 100 µs check of the queues; `g` is the group whose head is asked about first. -/
def execDeferralApply (g : Fin 8) (s : State) : Res :=
  let s := match s.vlvServe1 g.val with | some s' => s' | none => s
  ok (State.vlvSettle (s.putVlv { s.vlv with fell := true }))

/-- DEFER_MAX_EXPIRED (R315): the channel's queued request is removed and refused. -/
def execDeferMaxExpired (n : Fin 32) (s : State) : Res :=
  if (s.queueOf (hsfOf n.val)).any (fun r => r.ch == n.val) && !s.vlvSuspended then
    let w := (s.vch n.val).wait
    let s := (s.vlvWithdraw n.val).vlvRefuse n.val
    ok ((s.vchMod n.val (fun c => { c with wait := w })).vlvResume n.val).vlvSettle
  else ok s

/-- PEAK_MAX_EXPIRED (R304): a target above 6,000 on V24–V31 is clamped to it and PEAK_CLAMP set. -/
def execPeakMaxExpired (n : Fin 32) (s : State) : Res :=
  if 24 ≤ n.val ∧ 6000 < s.applied n.val then ok (((s.vlvSet n.val 20 true).vlvRequest n.val none false).vlvSettle)
  else ok s

/-- DECAY_END (R313, R476): the current falls below 20 mA, which marks the channel idle; an ISOLATE decay ends then or 5 ms
after it began, and HSFg closes again; a decay to a lower non-zero target has reached it, and regulation resumes. -/
def execDecayEnd (n : Fin 32) (below : Bool) (s : State) : Res :=
  let c := s.vch n.val
  if s.applied n.val != 0 then
    ok (s.vchMod n.val (fun c => { c with drive := if c.drive = .fall then .regulate else c.drive }))
  else if !c.flowing then ok s
  else if below then
    let s := s.vchMod n.val (fun c => { c with decay := none, flowing := false })
    let s := (s.setF .VLV (VLV_CH_CURRENT n.val) 31 16 0).vlvShow n.val
    ok (State.vlvSettle (s.putVlv { s.vlv with fell := true }))
  else if c.decay = some 2 then
    let s := (s.vchMod n.val (fun c => { c with decay := some 1 })).vlvShow n.val
    ok (State.vlvSettle (s.putVlv { s.vlv with fell := true }))
  else ok s

/-! ## The duty limit (R317) -/

/-- DUTY_STATE shows the sum of the 64 bins. -/
def State.vlvDutyShow (s : State) (n : Nat) : State :=
  s.wrN .VLV (VLV_CH_DUTY_STATE n) (clampN 0 0xFFFFFFFF (s.vch n).bins.sum)

/-- The duty limit begins at DUTY_LIMIT and ends at RESUME % of it; both go to the arbiter. -/
def State.vlvDuty (s : State) (n : Nat) : State :=
  let lim := s.rdN .VLV (VLV_CH_DUTY_LIMIT n)
  let sum := (s.vch n).bins.sum
  let s := s.vlvDutyShow n
  if s.vlvBit n 21 then
    if lim = 0 ∨ sum * 100 ≤ lim * clampN 50 99 (s.f .VLV (VLV_CH_DUTY_FB n) 31 24) then
      (s.vlvSet n 21 false).vlvRequest n none false
    else s
  else if lim ≠ 0 ∧ lim ≤ sum then ((s.vlvSet n 21 true).vlvEvent n 6).vlvRequest n none false
  else s

/-- DUTY (R317): consumption enters the present bin of the window. -/
def execVlvDuty (n : Fin 32) (add : Nat) (s : State) : Res :=
  let s := s.vchMod n.val (fun c => { c with bins := (c.bins.headD 0 + add) :: c.bins.tail })
  ok (s.vlvDuty n.val).vlvSettle

/-- DUTY_RESUME (R317): the window moves on, its oldest bins leave it. -/
def execDutyResume (n : Fin 32) (bins : Nat) (s : State) : Res :=
  let s := s.vchMod n.val (fun c => { c with bins := (List.replicate (min 64 bins) 0 ++ c.bins).take 64 })
  ok (s.vlvDuty n.val).vlvSettle

/-! ## Commands and core reset (Table 12-13, R185, R327) -/

/-- CLAIM (R327): sets CLAIMED, ends HELD and changes nothing at the output; claimed channels are skipped. -/
def execVlvClaim (s : State) : Res :=
  ok (s.command .VLV 1 fun a s =>
    if s.sys.noDrawer then refuse s .locked
    else
      let ns := (bitsOf (arg a 0).toNat 32).filter (fun n => !s.bit .VLV VLV_CLAIMED n)
      done (s.each ns (fun s n => (s.setBit .VLV VLV_CLAIMED n true).setBit .VLV VLV_HELD n false)) .ok)

/-- The 64 words of a bank. -/
def State.vlvBank (s : State) (n b : Nat) : List Word := (upto 64).map (s.vlvWord n b)

/-- Every word of a P program up to end belongs to the profile (R140). -/
def checkP : List Word → Bool
  | [] => true
  | w :: t => match decodeP w with
    | none => false
    | some .stop => true
    | some _ => checkP t

/-- The CRC-32C of a list of words, little-endian. -/
def crcWords (ws : List Word) : Nat := crc32c (ws.flatMap (fun w => leBytes 4 w.toNat))

/-- SWAP (R140, R141): the inactive bank is checked and locked; an idle channel swaps at once. -/
def execVlvSwap (s : State) : Res :=
  ok (s.command .VLV 2 fun a s =>
    let n := fld (arg a 0) 4 0
    let b := 1 - s.vlvActive n
    if crcWords (s.vlvBank n b) ≠ (s.vlvWord n b 64).toNat then refuse s .badBlock
    else if !checkP (s.vlvBank n b) then refuse s .badHeader
    else if s.bit .VLV (VLV_CH_BANK n) 2 then refuse s .busy
    else
      let s := s.setBit .VLV (VLV_CH_BANK n) 2 true
      done (if s.vlvRuns n then s else s.vlvTakeSwap n) .ok)

/-- SWAP_CANCEL (R141). -/
def execVlvSwapCancel (s : State) : Res :=
  ok (s.command .VLV 3 fun a s => done (s.setBit .VLV (VLV_CH_BANK (fld (arg a 0) 4 0)) 2 false) .ok)

/-- LATCHED shows a SHORT_SUP latch or a tripped group. -/
def State.vlvLatched (s : State) (n : Nat) : State :=
  s.vlvSet n 16 ((s.vch n).shortSup || s.bit .VLV (VLV_HSF_STATUS (hsfOf n)) 15)

/-- CLEAR_FAULT (Table 12-13): clears SHORT_SUP latches. -/
def execVlvClearFault (s : State) : Res :=
  ok (s.command .VLV 4 fun a s =>
    done (s.each (bitsOf (arg a 0).toNat 32) (fun s n => (s.vchMod n (fun c => { c with shortSup := false })).vlvLatched n)) .ok)

/-- FEED_RESET (Table 12-13): closes a tripped HSFg and clears the group's GROUP_TRIP latches. -/
def execFeedReset (s : State) : Res :=
  ok (s.command .VLV 5 fun a s =>
    let g := fld (arg a 0) 2 0
    if s.mode = 0 ∨ s.mode = 6 then refuse s .refusedMode
    else
      let s := (s.setBit .VLV (VLV_HSF_STATUS g) 15 false).setBit .VLV VLV_STATUS (16 + g) false
      let s := (s.each (groupOf g) (fun s n => s.vlvLatched n)).vlvShow (4 * g)
      done (State.vlvSettle (s.putVlv { s.vlv with fell := true })) .ok)

/-- CLEAR_COUNTS (Table 12-13). -/
def execVlvClearCounts (s : State) : Res :=
  ok (s.command .VLV 9 fun a s => done (s.each (bitsOf (arg a 0).toNat 32) (fun s n => s.wr .VLV (VLV_CH_COUNTS n) 0)) .ok)

/-- VLV_HOLD_EXPIRED (R327): a channel in hold raises HOLD_EXPIRED and takes its fail state. -/
def execVlvHoldExpired (n : Fin 32) (s : State) : Res :=
  if s.bit .VLV VLV_HELD n.val then ok (((s.vlvEvent n.val 12).vlvFail n.val false).vlvSettle) else ok s

/-- BAT_V is back in its range (R27): queued requests are served and the waveforms go on, without a command. -/
def State.vlvBack (s : State) : State :=
  if s.vlvSuspended then s else State.vlvSettle (s.putVlv { s.vlv with fell := true })

/-- A channel at a core reset (R185, R187): it keeps its waveform and target, in hold where its RESET_HOLD is not 0; a
waiting command is dropped. V00's reset-hold time is 0. -/
def State.vlvCoreReset (s : State) (n : Nat) : State :=
  let s := s.vchMod n (fun c => { c with cmd := none, kept := s.vlvRuns n })
  if n = 0 ∨ s.f .VLV (VLV_CH_FAIL n) 8 0 = 0 then (s.vlvEvent n 12).vlvFail n false
  else s.setBit .VLV VLV_HELD n true

/-- Every channel is switched off with its switch-off mode (R168 step 1). -/
def State.vlvAllOff (s : State) : State :=
  s.each (upto 32) (fun s n => ((s.vlvAbort n).vlvZero n).vlvIdle n)

end Sys2Proof.Machine
end

