-- ==== Sys2Proof/Machine/Law.lean ====
section
/-! DEFINITION. Loop banks and the L profile: sources of a bank, tables, regions and the run of one law (R129–R133,
R140, R293–R295, R301, Tables 5-5 and 11-4). -/

namespace Sys2Proof.Machine

/-! ## Instances and their schedule (R278, R283) -/

/-- An instance beside its registers. -/
def State.lp (s : State) (n : Nat) : LpeI := s.lpe.i.get {} n

/-- Change an instance. -/
def State.lpMod (s : State) (n : Nat) (f : LpeI → LpeI) : State :=
  s.putLpe { s.lpe with i := s.lpe.i.set {} n (f (s.lp n)) }

/-- PERIOD in µs, clamped (R278). -/
def periodUs (w : Word) : Nat := clampN 500 1000000 (fld w 19 0)

/-- PERIOD and PHASE in ns; a PHASE at or above PERIOD is taken modulo PERIOD. -/
def schedNs (period phase : Word) : Nat × Nat :=
  let p := periodUs period
  (p * 1000, fld phase 19 0 % p * 1000)

/-- FLAGS bits are set; NUMERIC when one of [8:0] is new, REGION_CHG at each change (Table 11-10). -/
def State.lpFlags (s : State) (n fl : Nat) : State :=
  let old := s.rdN .LPE (LPE_LP_FLAGS n)
  let s := s.wrN .LPE (LPE_LP_FLAGS n) (old ||| fl)
  let s := if ((old ||| fl) ^^^ old) % 512 ≠ 0 then s.event .LPE 2 else s
  if fl.testBit 9 then s.event .LPE 3 else s

/-- Instants of a schedule of period `p` and phase `ph` before time `x`. -/
def instantsBefore (p ph x : Nat) : Nat := (x + p - 1 - ph) / p

/-- Instants of an instance that a forward step of device time from `old` to `new` skips (R233, R283): those from `old` on, which
belongs to them unless it has run, and before `new`. -/
def State.lpSkipped (s : State) (old new n : Nat) : Nat :=
  let c := s.lp n
  let q := schedNs c.period c.phase
  instantsBefore q.1 q.2 new - instantsBefore q.1 q.2 (if c.last = some old then old + 1 else old)

/-- A forward step of device time (R233, R283): instants inside it are not made up; each instance counts them and takes its flag, and
SKIP is raised once. -/
def State.lpeSkip (s : State) (old new : Nat) : State :=
  let ns := (upto 128).filter (fun n => s.lpSkipped old new n != 0)
  let s' := s.each ns (fun x n => (x.incF .LPE (LPE_LP_COUNTS n) 15 0 (s.lpSkipped old new n)).lpFlags n 0x1000)
  if ns.isEmpty then s else s'.event .LPE 6

/-! ## Banks (Table 11-4) -/

/-- The active bank of an instance. -/
def State.lpeActive (s : State) (n : Nat) : Nat := s.f .LPE (LPE_LP_BANK n) 0 0

/-- Word `w` of bank `b` of an instance. -/
def State.lpeBankW (s : State) (n b w : Nat) : Word := s.rd .LPE (LPE_BANKW n b w)

/-- Word `w` of the active bank of an instance. -/
def State.lpeW (s : State) (n w : Nat) : Word := s.lpeBankW n (s.lpeActive n) w

/-- A word as Q16.16. -/
def qOf (w : Word) : Int := w.toInt

/-- SRC[k] of the active bank. -/
def State.lpeSrc (s : State) (n k : Nat) : Word := s.lpeW n (48 + k)
/-- BUMP. -/
def State.lpeBump (s : State) (n : Nat) : Word := s.lpeW n 54
/-- SCALE. -/
def State.lpeScale (s : State) (n : Nat) : Word := s.lpeW n 55
/-- OFFVAL. -/
def State.lpeOffval (s : State) (n : Nat) : Int := qOf (s.lpeW n 56)
/-- RETARGET. -/
def State.lpeRetarget (s : State) (n : Nat) : Int := qOf (s.lpeW n 57)
/-- DEF[k]. -/
def State.lpeDef (s : State) (n k : Nat) : Int := qOf (s.lpeW n (64 + k))
/-- PRELOAD[k]. -/
def State.lpePreload (s : State) (n k : Nat) : Dword := sext32 (s.lpeW n (70 + k))
/-- Word `w` of region `r`. -/
def State.lpeReg (s : State) (n r w : Nat) : Word := s.lpeW n (80 + 16 * r + w)
/-- Word `w` of table `t`. -/
def State.lpeTab (s : State) (n t w : Nat) : Word := s.lpeW n (336 + 36 * t + w)

/-- The gains of a region, binary32. -/
def State.lpeGains (s : State) (n r : Nat) : List Nat := (upto 8).map (fun k => (s.lpeReg n r (8 + k)).toNat)

/-! ## Tables (R131) -/

/-- The breakpoints of a table, if it is not empty: 2 to 17 of them, x strictly increasing. -/
def State.lpePoints (s : State) (n t : Nat) : Option (List (Int × Int)) :=
  let k := fld (s.lpeTab n t 0) 7 0
  let ps := (upto k).map (fun i => (qOf (s.lpeTab n t (2 + 2 * i)), qOf (s.lpeTab n t (3 + 2 * i))))
  if k < 2 ∨ 17 < k then none
  else if (ps.zip (ps.drop 1)).all (fun p => decide (p.1.1 < p.2.1)) then some ps else none

/-- Linear interpolation over breakpoints, exact and rounded once to nearest with ties towards +∞; the last y above the
last x. -/
def interp (x : Int) : List (Int × Int) → Int
  | (x0, y0) :: (x1, y1) :: t =>
    if x ≤ x1 then y0 + roundDiv ((y1 - y0) * (x - x0)) (x1 - x0).toNat else interp x ((x1, y1) :: t)
  | [(_, y)] => y
  | [] => 0

/-- The value of a table at x; below the first x its first y. -/
def tableVal (x : Int) (ps : List (Int × Int)) : Int :=
  match ps with
  | (x0, y0) :: _ => if x ≤ x0 then y0 else interp x ps
  | [] => 0

/-! ## Regions (R293, R294) -/

/-- Region `r` contains the point, its bounds widened by HX and HY where `wide`. -/
def State.lpeBox (s : State) (n r : Nat) (s1 s2 : Int) (wide : Bool) : Bool :=
  let q := fun w => qOf (s.lpeReg n r w)
  let hx := if wide then q 4 else 0
  let hy := if wide then q 5 else 0
  bitOf (s.lpeReg n r 6) 8 && decide (q 0 - hx ≤ s1) && decide (s1 ≤ q 1 + hx) && decide (q 2 - hy ≤ s2) &&
    decide (s2 ≤ q 3 + hy)

/-- PRIO of a region. -/
def State.lpePrio (s : State) (n r : Nat) : Nat := fld (s.lpeReg n r 6) 7 0

/-- The contained region of highest PRIO, ties to the lowest number; 0 if none contains the point. -/
def State.lpeBest (s : State) (n : Nat) (s1 s2 : Int) : Nat :=
  ((upto 16).drop 1).foldl (fun best r =>
    if s.lpeBox n r s1 s2 false && (best == 0 || decide (s.lpePrio n best < s.lpePrio n r)) then r else best) 0

/-- The region in force of an instance. -/
def State.lpeRegion (s : State) (n : Nat) : Nat := s.f .LPE (LPE_LP_STATUS n) 31 28

/-- The region selected (R293); `ok`: both scheduling sources are valid. -/
def State.lpeSelect (s : State) (n : Nat) (ok : Bool) (s1 s2 : Int) : Nat :=
  let cur := s.lpeRegion n
  if !s.bit .LPE (LPE_LP_STATUS n) 27 || !ok then cur
  else
    let best := s.lpeBest n s1 s2
    let rises := best != 0 && decide (s.lpePrio n cur < s.lpePrio n best)
    if cur != 0 && s.lpeBox n cur s1 s2 true && !rises then cur else best

/-- The FLAGS bits of LPE_LP[n]_FLAGS beside the five of floating point. -/
abbrev lfSAT : Nat := 0x20
/-- NO_OUT. -/
abbrev lfNOOUT : Nat := 0x40
/-- LIM_INV. -/
abbrev lfLIM : Nat := 0x80
/-- TABLE_EMPTY. -/
abbrev lfTAB : Nat := 0x100
/-- REGION_CHG. -/
abbrev lfREG : Nat := 0x200
/-- SRC_INVALID. -/
abbrev lfSRC : Nat := 0x400
/-- OVERRUN. -/
abbrev lfOVR : Nat := 0x800

/-- A binary32 pattern as a number. -/
def val32 (x : Nat) : FVal := (fmt32 false).val x

/-- A binary32 value in units of 2^−149, where it is finite. -/
def f32Fix (x : Nat) : Option Int :=
  match val32 x with
  | .fin neg m e => let v : Int := (m * 2 ^ (e + 149).toNat : Nat); some (if neg then -v else v)
  | _ => none

/-- A Q16.16 value as binary64. -/
def q64 (q : Int) : Nat := (fmt64.ofInt .even q (-16)).bits

/-- A binary32 pattern as binary64. -/
def f64 (x : Nat) : Nat := (fmt64.ofVal .even (val32 x)).bits

/-- A binary64 result rounded to Q16.16, to nearest with ties to even, saturated: the value with NV for a NaN and SAT where
it saturates. -/
def q64Round (x : Nat) : Option (Int × Nat) :=
  match fmt64.val x with
  | .nan _ => none
  | v => let q := v.toInt .even 16 (-2147483648) 2147483647
         some (q.1, if q.2 &&& fNV ≠ 0 then lfSAT else 0)

/-- The bumpless rescale of a state register (R294): its new value, if it changes, and the flags. -/
def bumpVal (mode : Nat) (st gx : Int) (fo fn : Nat) (xZero : Bool) : Option Int × Nat :=
  let V := fmt64.val
  if mode = 1 then
    if (match val32 fn with | .zero _ => true | _ => false) then (none, fDZ)
    else
      let r := fmt64.divV .even (V (fmt64.mulV .even (V (q64 st)) (V (f64 fo))).bits) (V (f64 fn))
      match q64Round r.bits with
      | none => (none, fNV)
      | some (q, fl) => (some q, fl)
  else if mode = 2 then
    if xZero then (none, 0)
    else
      let d := fmt64.addV .even (V (f64 fo)) (V (f64 fn)).neg
      let p := fmt64.mulV .even (V d.bits) (V (q64 gx))
      let r := fmt64.addV .even (V (q64 st)) (V p.bits)
      match q64Round r.bits with
      | none => (none, fNV)
      | some (q, fl) => (some q, fl)
  else (none, 0)

/-! ## Laws (R129–R133) -/

/-- An instruction word that the L profile admits, by kind (Table 4-8, Table 5-5). -/
inductive LIns where
  | op | mul | imm (k : Nat) | mem (k : Nat) | fop | fma (np nc : Bool) | lop (fn : Nat)
  deriving DecidableEq, Repr

/-- Bits [25:0] of a word. -/
def low26 (w : Word) : BitVec 26 := w.truncate 26

/-- The formats of the L profile: binary32 with subnormals flushed (R94). -/
def lFmts : Nat → Option Fmt
  | 0 => some (fmt32 true)
  | _ => none

/-- The rounding modes of the L profile: rm 0 is nearest with ties to even (R130). -/
def lRms (k : Nat) : Option Rm := if k = 0 then some .even else rmOf k

/-- The operand fields of an LOP operation are in range, and those it does not use are 0. -/
def lopOk (fn rd rs1 rs2 x : Nat) : Bool :=
  if fn ≤ 2 || fn == 7 then x == 0
  else if fn ≤ 5 then decide (x < 16)
  else if fn = 6 then rs2 == 0 && decide (x < 8)
  else if fn = 8 then rs2 == 0 && x == 0
  else if fn = 0xA then rd == 0 && rs2 == 0 && decide (x < 2)
  else fn == 0x3F && rd == 0 && rs1 == 0 && rs2 == 0 && x == 0

/-- The L-profile decoding of a word; none where it lies outside the profile (R83, R96, R139). -/
def decodeL (word : Word) : Option LIns :=
  let w := low26 word
  let regs2 := fRd w < 16 && fRs1 w < 16
  let regs3 := regs2 && fRs2 w < 16
  let op := fld word 31 26
  if op = 0x01 then (if regs3 && (aluOp w 0 0).isSome then some .op else none)
  else if op = 0x02 then (if regs3 && fFunc w % 64 < 4 && (aluMul w 0 0).isSome then some .mul else none)
  else if op = 0x09 then (if regs2 && (shiftImm w 0).isSome then some (.imm op) else none)
  else if 0x03 ≤ op ∧ op ≤ 0x0B then (if regs2 then some (.imm op) else none)
  else if op = 0x1A ∨ op = 0x1E ∨ op = 0x22 ∨ op = 0x24 ∨ op = 0x26 then (if regs2 then some (.mem op) else none)
  else if op = 0x2C then
    let k := dfld (fFunc w) 10 6
    (if regs3 && k != 3 && k != 4 && (fopCalc lFmts lRms (fun _ _ => 0) (fun _ => 0) w).isSome then some .fop else none)
  else if 0x2D ≤ op ∧ op ≤ 0x30 then
    (if regs3 && dfld (fFunc w) 10 6 < 16 && (fmaCalc lFmts lRms (fun _ _ => 0) false false w).isSome then
      some (.fma (op == 0x2F || op == 0x30) (op == 0x2E || op == 0x2F)) else none)
  else if op = 0x3C then
    let fn := fFunc w % 64
    (if regs3 && lopOk fn (fRd w) (fRs1 w) (fRs2 w) (fFunc w / 64) then some (.lop fn) else none)
  else none

/-- Every word of a law up to end belongs to the profile (R140). -/
def checkL : List Word → Bool
  | [] => true
  | w :: t => match decodeL w with
    | none => false
    | some (.lop 0x3F) => true
    | some _ => checkL t

/-- A running law: the machine, its instance, its registers, its flags, its output, the result of its first region
instruction, and whether both scheduling sources are valid. -/
structure LawSt where
  s : State
  n : Nat
  g : List Dword
  f : List Nat
  flags : Nat
  out : Option Int
  region : Option Nat
  ok : Bool

/-- A general register; g0 reads 0. -/
def LawSt.rg (l : LawSt) (i : Nat) : Dword := if i = 0 then 0 else l.g.getD i 0
/-- The Q16.16 value of a general register: its low 32 bits (R130). -/
def LawSt.rq (l : LawSt) (i : Nat) : Int := ((l.rg i).truncate 32 : BitVec 32).toInt
/-- A floating-point register. -/
def LawSt.rf (l : LawSt) (_ : Fmt) (i : Nat) : Nat := l.f.getD i 0
/-- Write a general register; g0 discards. -/
def LawSt.wg (l : LawSt) (i : Nat) (v : Dword) : LawSt := if i = 0 then l else { l with g := l.g.set i v }
/-- Add flags. -/
def LawSt.fl (l : LawSt) (x : Nat) : LawSt := { l with flags := l.flags ||| x }
/-- Write a Q16.16 result, saturating with SAT (R130). -/
def LawSt.wq (l : LawSt) (i : Nat) (v : Int) : LawSt :=
  let q := qSat v
  (l.wg i (BitVec.ofInt 64 q.1)).fl (if q.2 then lfSAT else 0)

/-- The region instruction (R132, R293, R294): the first of a sample selects; a change rescales the state register, loads
the new gains and sets REGION_CHG; later ones repeat its result. -/
def LawSt.doRegion (l : LawSt) (s1 s2 : Int) : LawSt × Nat :=
  match l.region with
  | some r => (l, r)
  | none =>
    let cur := l.s.lpeRegion l.n
    let new := l.s.lpeSelect l.n l.ok s1 s2
    if new = cur then ({ l with region := some new }, new)
    else
      let b := l.s.lpeBump l.n
      let k := fld b 9 7
      let sr := 8 + fld b 11 10
      let r := bumpVal (fld b 13 12) (l.rq sr) (l.rq (fld b 3 0)) ((l.s.lpeGains l.n cur).getD k 0)
        ((l.s.lpeGains l.n new).getD k 0) (fld b 3 0 == 0)
      let l := match r.1 with
        | some q => l.wg sr (BitVec.ofInt 64 q)
        | none => l
      let l := l.fl (r.2 ||| lfREG)
      let f := l.s.lpeGains l.n new ++ l.f.drop 8
      let v := new + 0x100
      ({ l with f := f, region := some v, s := l.s.setF .LPE (LPE_LP_STATUS l.n) 31 28 new }, v)

/-- An LOP operation (Table 5-5). -/
def LawSt.lop (l : LawSt) (fn : Nat) (w : BitVec 26) : LawSt :=
  let rd := fRd w
  let a := l.rq (fRs1 w)
  let b := l.rq (fRs2 w)
  let x := fFunc w / 64
  match fn with
  | 0x00 => l.wq rd (a + b)
  | 0x01 => l.wq rd (a - b)
  | 0x02 => l.wq rd (roundDiv (a * b) 65536)
  | 0x03 => l.wq rd (roundDiv (l.rq x * 65536 + a * b) 65536)
  | 0x04 =>
    if l.rq x < b then (l.wg rd (BitVec.ofInt 64 b)).fl lfLIM
    else l.wg rd (BitVec.ofInt 64 (min (max a b) (l.rq x)))
  | 0x05 => l.wg rd (BitVec.ofInt 64 (if 0 ≤ l.rq x then a else b))
  | 0x06 => match l.s.lpePoints l.n x with
    | none => (l.wg rd 0).fl lfTAB
    | some ps => l.wq rd (tableVal a ps)
  | 0x07 => let r := l.doRegion a b
            r.1.wg rd (BitVec.ofNat 64 r.2)
  | 0x08 => l.wq rd (if a < 0 then -a else a)
  | 0x0A =>
    if x = 0 then { l with out := some a }
    else
      let q := ((fmt32 true).val (l.rf (fmt32 true) (fRs1 w))).toInt .even 16 (-2147483648) 2147483647
      { l with out := some q.1 }.fl q.2
  | _ => l

/-- The offset in the LPE window that a physical address names, where it lies in the instance's own window: its registers
or its banks. -/
def lpeOwn (n : Nat) (a : Nat) : Option Nat :=
  let o := a - Block.LPE.base
  if a < Block.LPE.base then none
  else if LPE_LP_CFG n ≤ o ∧ o < LPE_LP_CFG n + 0x40 then some o
  else if LPE_BANKW n 0 0 ≤ o ∧ o < LPE_BANKW n 0 0 + 0x1800 then some o
  else none

/-- A write of the LPE window by the program (R140, R299, Table 11-8): configuration words are staged while PROTECT stands
open; FLAGS clears by writing 1; a bank word is written in the inactive bank, unless a SWAP has locked it. -/
def State.lpeWrite (s : State) (o : Nat) (v : Word) : State :=
  if 0x40000 ≤ o then
    let n := (o - 0x40000) / 0x1800
    let b := (o - 0x40000) % 0x1800 / 0xC00
    if 128 ≤ n then s
    else if b = s.lpeActive n then s.setBit .LPE LPE_STATUS 8 true
    else if s.bit .LPE (LPE_LP_BANK n) 2 then s
    else s.wr .LPE o v
  else match regRow .LPE o with
    | none => s
    | some r => match r.acc with
      | .w1c => s.wr .LPE o (s.rd .LPE o &&& ~~~ v)
      | .rwp =>
        if s.open .LPE then
          let s := s.wr .LPE o (r.store (s.rd .LPE o) v)
          if 0x1000 ≤ o then
            let n := (o - 0x1000) / 0x40
            let s : State := s.putLpe { s.lpe with i := s.lpe.i.mod {} n (fun c => { c with dirty := true }) }
            s.setBit .LPE (LPE_LP_STATUS n) 26 true
          else
            let g := (o - 0x800) / 0x20
            let s : State := s.putLpe { s.lpe with g := s.lpe.g.mod {} g (fun c => { c with dirty := true }) }
            s.setBit .LPE (LPE_MG_STATUS g) 7 true
        else s
      | .rw =>
        let s := s.wr .LPE o (r.store (s.rd .LPE o) v)
        if 0x200 ≤ o ∧ o < 0x400 then
          s.putLpe { s.lpe with pin := s.lpe.pin.set none ((o - 0x200) / 4) (some s.now) }
        else s
      | _ => s

/-- A load or store of the L profile, within the instance's own window only; an address outside it faults (Table 4-8). -/
def LawSt.mem (l : LawSt) (k : Nat) (w : BitVec 26) : LawSt × Nat :=
  let a := (l.rg (fRs1 w) + fSimm w).toNat
  let store := k == 0x22 || k == 0x26
  if a % 4 ≠ 0 then (l, if store then 8 else 5)
  else match lpeOwn l.n a with
    | none => (l, if store then 9 else 6)
    | some o =>
      let v := l.s.rd .LPE o
      match k with
      | 0x1A => (l.wg (fRd w) (sext32 v), 0)
      | 0x1E => (l.wg (fRd w) (v.zeroExtend 64), 0)
      | 0x24 => ({ l with f := l.f.set (fRd w) v.toNat }, 0)
      | 0x22 => ({ l with s := l.s.lpeWrite o ((l.rg (fRd w)).truncate 32) }, 0)
      | _ => ({ l with s := l.s.lpeWrite o (wordN (l.f.getD (fRd w) 0)) }, 0)

/-- The value of an immediate instruction (Table 4-6). -/
def immVal (op : Nat) (w : BitVec 26) (x : Dword) : Dword :=
  let z : Dword := BitVec.ofNat 64 (fImm w)
  match op with
  | 0x03 => x + fSimm w
  | 0x04 => x &&& z
  | 0x05 => x ||| z
  | 0x06 => x ^^^ z
  | 0x07 => if x.slt (fSimm w) then 1 else 0
  | 0x08 => if x.ult (fSimm w) then 1 else 0
  | 0x09 => (shiftImm w x).getD 0
  | 0x0A => x + fSimm w <<< 16
  | _ => x + fSimm w <<< 32

/-- One instruction of a law other than end: the law after it, and the cause of its exception (0: none). -/
def LawSt.ins (l : LawSt) (word : Word) (i : LIns) : LawSt × Nat :=
  let w := low26 word
  match i with
  | .op => (l.wg (fRd w) ((aluOp w (l.rg (fRs1 w)) (l.rg (fRs2 w))).getD 0), 0)
  | .mul => (l.wg (fRd w) ((aluMul w (l.rg (fRs1 w)) (l.rg (fRs2 w))).getD 0), 0)
  | .imm k => (l.wg (fRd w) (immVal k w (l.rg (fRs1 w))), 0)
  | .mem k => l.mem k w
  | .fop => match fopCalc lFmts lRms l.rf l.rg w with
    | some (.toF r) => ({ l with f := l.f.set (fRd w) r.bits }.fl r.flags, 0)
    | some (.toG v fl) => ((l.wg (fRd w) v).fl fl, 0)
    | none => (l, 1)
  | .fma np nc => match fmaCalc lFmts lRms l.rf np nc w with
    | some r => ({ l with f := l.f.set (fRd w) r.bits }.fl r.flags, 0)
    | none => (l, 1)
  | .lop fn => (l.lop fn w, 0)

/-- A law runs to end, to its 48th instruction or to an exception: the law and the cause (0: none). -/
def LawSt.run (l : LawSt) : List Word → LawSt × Nat
  | [] => (l, 0)
  | w :: t => match decodeL w with
    | none => (l, 1)
    | some (.lop 0x3F) => (l, 0)
    | some i => match l.ins w i with
      | (l, 0) => l.run t
      | (l, c) => (l, c)

end Sys2Proof.Machine
end

