-- ==== Sys2Proof/Machine/Memory.lean ====
section
/-! DEFINITION. The physical address map (R143, R144), check bits and poison (R145–R147), and bytes read and written by
the engines. -/

namespace Sys2Proof.Machine

/-- The regions of Table 6-1. -/
inductive Region where
  | dram | tile | endp | tbl | nor | mram | device | unmapped
  deriving DecidableEq, Repr

/-- The region of a physical address. -/
def regionOf (a : Nat) : Region :=
  if a < 0x3E0000000 then .dram
  else if tileBase ≤ a ∧ a < tileBase + 0x1000000 then .tile
  else if endpBase ≤ a ∧ a < endpBase + 0x408000 then .endp
  else if tblBase ≤ a ∧ a < tblBase + 0x3000000 then .tbl
  else if norBase ≤ a ∧ a < norBase + 0x4000000 then .nor
  else if mramBase ≤ a ∧ a < mramBase + 0x1000000 then .mram
  else if 0x2000000000 ≤ a ∧ a < 0x2001600000 then .device
  else .unmapped

/-- The region lets atomics act (Table 6-1). -/
def Region.atomics : Region → Bool
  | .dram => true
  | .tile => true
  | _ => false

/-- The region may be fetched from (Table 6-1). -/
def Region.fetch : Region → Bool
  | .dram => true
  | .tile => true
  | .nor => true
  | _ => false

/-- The trap of a fetch from the region (R105, R144): FETCH_FAULT at addresses that are not mapped, at device addresses and at poison,
STORE_FAULT, as the rule names it, from memory that Table 6-1 marks "No" (DEDUCED, assumption log 132). -/
def Region.fetchTrap (r : Region) (poisoned : Bool) : Option Nat :=
  match r with
  | .unmapped => some 3
  | .device => some 3
  | _ => if !r.fetch then some 9 else if poisoned then some 3 else none

/-- The region is normal memory that stores may write. -/
def Region.writable : Region → Bool
  | .dram => true
  | .tile => true
  | .endp => true
  | .tbl => true
  | .device => true
  | _ => false

/-- The granule that check bits cover: a 64-byte DRAM line, an 8-byte word elsewhere (Table 6-2), by its base address. -/
def granule (a : Nat) : Nat := if a < 0x3E0000000 then a / 64 * 64 else a / 8 * 8

/-- The size of that granule. -/
def granuleSize (a : Nat) : Nat := if a < 0x3E0000000 then 64 else 8

/-- The granules that `n` bytes from `a` touch. -/
def granules (a n : Nat) : List Nat :=
  let g := granuleSize a
  if n = 0 then [] else (upto ((a + n - 1) / g - a / g + 1)).map (fun i => a / g * g + i * g)

/-- SYS_POISONED shows the DRAM lines poisoned now, saturating. -/
def State.poisonShow (s : State) : State :=
  s.wrN .SYS SYS_POISONED (clampN 0 65535 (s.poison.cells.filter (fun c => c.1 < 0x3E0000000)).length)

/-- A correction at a granule: its counter, and ECC_CE at most once per second (R145, Table 6-8). -/
def State.eccCorrect (s : State) (g : Nat) : State :=
  let s := s.putLatent (s.latent.set 0 g 0)
  let s := match regionOf g with
    | .dram => s.wrN .SYS SYS_ECC_CE_DRAM (satAdd 0xFFFFFFFF (s.rdN .SYS SYS_ECC_CE_DRAM) 1)
    | .tbl => s.incF .SYS SYS_ECC_TBL 15 0 1
    | _ => s.incF .SYS SYS_ECC_TILE 15 0 1
  match s.ceAt with
  | some t => if t + 1000000000 ≤ s.clk.up then (s.putCeAt (some s.clk.up)).event .SYS 3 else s
  | none => (s.putCeAt (some s.clk.up)).event .SYS 3

/-- An uncorrectable error at a granule: poisoned, counted, its address held, ECC_UE raised (R145, Table 6-2). -/
def State.eccPoison (s : State) (g : Nat) : State :=
  let s := (s.putLatent (s.latent.set 0 g 0)).putPoison (s.poison.set false g true)
  let s := match regionOf g with
    | .dram => s.wrN .SYS SYS_ECC_UE_DRAM (satAdd 0xFFFFFFFF (s.rdN .SYS SYS_ECC_UE_DRAM) 1)
    | .tbl => s.incF .SYS SYS_ECC_TBL 31 16 1
    | _ => s.incF .SYS SYS_ECC_TILE 31 16 1
  let m := match regionOf g with | .dram => 0 | .tbl => 2 | _ => 1
  let s := (s.wrN .SYS SYS_ECC_LAST_LO g).wrN .SYS SYS_ECC_LAST_HI (m * 2 ^ 30 + g / 2 ^ 32 % 256)
  (s.poisonShow).event .SYS 4

/-- The check of one granule as it is read: `latent` holds the bit errors it has gathered (1 corrected, 2 or more not). -/
def State.eccCheck (s : State) (g : Nat) : State :=
  match s.latent.get 0 g with
  | 0 => s
  | 1 => s.eccCorrect g
  | _ => s.eccPoison g

/-- A read of `n` bytes checks every granule it touches; only DRAM, tile memory and Tabletop SRAM carry check bits here. -/
def State.eccRead (s : State) (a n : Nat) : State :=
  match regionOf a with
  | .dram => s.each (granules a n) (fun s g => s.eccCheck g)
  | .tile => s.each (granules a n) (fun s g => s.eccCheck g)
  | .tbl => s.each (granules a n) (fun s g => s.eccCheck g)
  | _ => s

/-- Some granule that `n` bytes from `a` touch is poisoned (R146). -/
def State.poisoned (s : State) (a n : Nat) : Bool := (granules a n).any (fun g => s.poison.get false g)

/-- Write bytes to normal memory as one write: a granule written whole is poisoned no longer (R146). -/
def State.store (s : State) (a : Nat) (bs : List Byte) : State :=
  let s := s.wrBytes a bs
  let whole := (granules a bs.length).filter (fun g => a ≤ g && g + granuleSize a ≤ a + bs.length)
  let hit := whole.any (fun g => s.poison.get false g)
  let s := s.each whole (fun s g =>
    ((s.putPoison (s.poison.set false g false)).putLatent (s.latent.set 0 g 0)))
  if hit then s.poisonShow else s

/-- The memory that the module's engines write. -/
def engineSpans : List (Nat × Nat) :=
  [(0, 0x3E0000000), (tileBase, tileBase + 0x1000000), (tblBase, tblBase + 0x3000000)]

/-- A write of an engine of the module: bytes at addresses that Table 6-1 does not map, of the check store, of a read window or of an
endpoint table change nothing (R144, R114). -/
def State.engStore (s : State) (a : Nat) (bs : List Byte) : State :=
  s.each engineSpans (fun s r =>
    let lo := max a r.1
    let hi := min (a + bs.length) r.2
    if lo < hi then s.store lo ((bs.drop (lo - a)).take (hi - lo)) else s)

/-- An `n`-byte number written by an engine. -/
def State.engLE (s : State) (a n v : Nat) : State := s.engStore a (leBytes n v)

/-- An engine's read of `n` bytes meets a bus error: a poisoned line (R146), or an address outside the memory that engines read
(R144). -/
def State.engBad (s : State) (a n : Nat) : Bool :=
  s.poisoned a n || !(engineSpans.any (fun r => decide (r.1 ≤ a) && decide (a + n ≤ r.2)))

/-- Write an `n`-byte number to normal memory. -/
def State.storeLE (s : State) (a n v : Nat) : State := s.store a (leBytes n v)

/-- A store of a program at an address of Tabletop SRAM is taken (R244, R257): into the GX descriptor table, and into an alignment
bank that is neither active nor locked by a pending swap. -/
def State.tblTakes (s : State) (a : Nat) : Bool :=
  let o := a - tblBase
  if 0x2020000 ≤ o ∧ o < 0x2030000 then true
  else if 0x2030000 ≤ o ∧ o < 0x2230000 then
    let k := (o - 0x2030000) / 0x10000
    s.f .TBL (TBL_SLOT_BANK (k / 2)) 0 0 != k % 2 && !s.bit .TBL (TBL_SLOT_BANK (k / 2)) 2
  else false

/-- Byte `o` of an endpoint entry as a write leaves it: reserved bits stay 0 (Table 5-1). -/
def endpMask (o : Nat) (b : Byte) : Byte :=
  match o % 16 with
  | 2 => 0
  | 3 => 0
  | 4 => 0
  | 8 => b &&& 0xC0
  | 13 => 0
  | 14 => b &&& 0xF0
  | 15 => b &&& 0x03
  | _ => b

/-- A store of a host core (`host`), a tile or a Dumbwaiter channel to normal memory as it becomes visible: an endpoint table takes
it from a host core while its tile 0–255 does not run (R114), Tabletop SRAM under R244, the read windows never. -/
def State.progStore (s : State) (host : Bool) (a : Nat) (bs : List Byte) : State :=
  match regionOf a with
  | .dram => s.store a bs
  | .tile => s.store a bs
  | .tbl => if s.tblTakes a then s.store a bs else s.setBit .TBL TBL_STATUS 7 true
  | .endp =>
    let t := (a - endpBase) / 0x4000
    if host && decide (t < 256) && s.f .SYS (SYS_TILE_STATE t) 1 0 != 1 then
      s.store a ((upto bs.length).map (fun i => endpMask (a + i) (bs.getD i 0)))
    else s
  | _ => s

/-- SCRUB_READ (R147): the controller reads and checks one DRAM line, in which the read finds `errs` more bit errors; it
does so only with SCRUB_EN set, outside DORMANT and the power-loss sequence. -/
def execScrubRead (line : Nat) (errs : Nat) (s : State) : Res :=
  let g := line * 64
  if s.bit .SYS SYS_ECC_CFG 0 && decide (g < 0x3E0000000) && !s.bit .PWR PWR_STATUS 15 &&
      !(s.mode == 0 && !s.bit .SYS SYS_MODE 7) then
    ok ((s.putLatent (s.latent.set 0 g (s.latent.get 0 g + errs))).eccCheck g)
  else ok s

end Sys2Proof.Machine
end

