-- ==== Sys2Proof/Machine/CanSlots.lean ====
section
/-! DEFINITION. CAN message buffers, receive FIFOs, the choice of the next transmission (R388–R391), bit timing (R386,
R400), and signal slots (R393, R394). -/

namespace Sys2Proof.Machine

/-! ## Controllers -/

/-- A controller's record. -/
def State.cch (s : State) (n : Nat) : CanCh := s.can.get {} n

/-- A controller's record changed. -/
def State.cchMod (s : State) (n : Nat) (f : CanCh → CanCh) : State := s.putCan (s.can.mod {} n f)

/-- STATE of a controller: 0 STOPPED, 1 INTEGRATING, 2 ERROR_ACTIVE, 3 ERROR_PASSIVE, 4 BUS_OFF, 5 RECOVERING. -/
def State.canState (s : State) (n : Nat) : Nat := s.f .CAN (CAN_CH_STATUS n) 10 8

/-- A controller's island runs locked and no power loss is declared: frames may leave and arrive (R42, R74, R76). -/
def State.canLive (s : State) (n : Nat) : Bool := s.islLive n && s.pwr.phase != .loss

/-- A controller is started. -/
def State.canStarted (s : State) (n : Nat) : Bool := s.canState n != 0

/-- A controller's state changes, and STATE is raised (R392); CAN_SUMMARY follows. -/
def State.canSetState (s : State) (n st : Nat) : State :=
  if s.canState n = st then s
  else
    let s := s.setF .CAN (CAN_CH_STATUS n) 10 8 st
    let s := (s.setBit .CAN CAN_SUMMARY n (st != 0)).setBit .CAN CAN_SUMMARY (8 + n) (st == 4)
    s.canEvent n 8

/-- A bit of CFG as read at START: 15 ISOBUS (CAN0, CAN1), 13 LISTEN_ONLY, 12 FD_EN, 11 BRS_EN, 10 AUTO_RECOVER,
9 ONE_SHOT, 8 TT_EN. -/
def State.canCfg (s : State) (n i : Nat) : Bool := bitOf (s.cch n).cfg i && (i != 15 || decide (n < 2))

/-! ## Bit timing (R386, R400) -/

/-- A nominal bit in units of 12.5 ns. -/
def nbtBit (w : Word) : Nat := (3 + fld w 24 17 + fld w 16 10) * (fld w 4 0 + 1)

/-- A data-phase bit in units of 12.5 ns. -/
def dbtBit (w : Word) : Nat := (3 + fld w 20 16 + fld w 11 8) * (fld w 4 0 + 1)

/-- `k` nominal bits (NTU) of a controller in ns, under the bit timing read at its START. -/
def State.ntu (s : State) (n k : Nat) : Nat := k * nbtBit (s.cch n).nbt * 25 / 2

/-- The data bytes that a DLC names. -/
def dlcLen (fd : Bool) (dlc : Nat) : Nat :=
  if dlc ≤ 8 then dlc
  else if !fd then 8
  else [12, 16, 20, 24, 32, 48, 64].getD (dlc - 9) 64

/-- The worst-case length of a frame in ns (R400). -/
def State.worstNs (s : State) (n : Nat) (id fmt : Word) : Nat :=
  let ext := bitOf id 31
  let fd := bitOf fmt 31
  let k := if bitOf fmt 28 && !fd then 0 else dlcLen fd (fld fmt 19 16)
  if !fd then
    s.ntu n (if ext then 67 + 8 * k + (53 + 8 * k) / 4 + 3 else 47 + 8 * k + (33 + 8 * k) / 4 + 3)
  else
    let arb := if ext then 36 + 35 / 4 else 17 + 16 / 4
    let crc := if k ≤ 16 then 4 + 17 + 6 else 4 + 21 + 7
    let dat := 5 + 8 * k + (5 + 8 * k) / 4 + crc
    let fast := if bitOf fmt 30 then dbtBit (s.cch n).dbt else nbtBit (s.cch n).nbt
    s.ntu n (arb + 13) + dat * fast * 25 / 2

/-! ## Message buffers (Table 16-9) -/

/-- KIND of a message buffer: 0 unused, 1 receive, 2 event transmit, 3 time-triggered transmit. -/
def State.mbKind (s : State) (n b : Nat) : Nat := s.f .CAN (CAN_MB n b 0) 31 30

/-- A bit of one of a controller's buffer masks (TXREQ, NEW, LOCK), given the offset of its first word. -/
def State.mbBit (s : State) (base b : Nat) : Bool := s.bit .CAN (base + 4 * (b / 32)) (b % 32)

/-- A bit of a buffer mask set or cleared. -/
def State.mbPut (s : State) (base b : Nat) (v : Bool) : State := s.setBit .CAN (base + 4 * (b / 32)) (b % 32) v

/-- The frame that a message buffer holds. -/
def State.mbFrame (s : State) (n b : Nat) : CanFrame :=
  let fmt := s.rd .CAN (CAN_MB n b 3)
  let k := dlcLen (bitOf fmt 31) (fld fmt 19 16)
  { id := s.rd .CAN (CAN_MB n b 1), fmt := fmt
    time := s.rdN .CAN (CAN_MB n b 5) * 2 ^ 32 + s.rdN .CAN (CAN_MB n b 4)
    data := (upto k).map (fun i => BitVec.ofNat 8 (s.f .CAN (CAN_MB n b (8 + i / 4)) (8 * (i % 4) + 7) (8 * (i % 4)))) }

/-- The words 1 to 23 of a buffer that shows a frame; MASK is `mask`. -/
def CanFrame.words (f : CanFrame) (mask : Word) : List Word :=
  [f.id, mask, f.fmt, wordN f.time, wordN (f.time / 2 ^ 32), 0, 0] ++
    (upto 16).map (fun i => wordN (leNat ((f.data.drop (4 * i)).take 4)))

/-- A frame stored in a message buffer. -/
def State.mbStore (s : State) (n b : Nat) (f : CanFrame) : State :=
  let ws := f.words (s.rd .CAN (CAN_MB n b 2))
  s.each (upto 23) (fun s i => s.wr .CAN (CAN_MB n b (1 + i)) (ws.getD i 0))

/-- The time of a buffer's last transmission attempt. -/
def State.mbTime (s : State) (n b t : Nat) : State := (s.wrN .CAN (CAN_MB n b 4) t).wrN .CAN (CAN_MB n b 5) (t / 2 ^ 32)

/-- A buffer's OVERWRITE count. -/
def State.mbOver (s : State) (n b : Nat) : State := s.incF .CAN (CAN_MB n b 0) 23 16 1

/-- A reception overwrites a frame: the buffer's count, the total in LOST, the event (R389). -/
def State.mbLost (s : State) (n b : Nat) : State := ((s.mbOver n b).incF .CAN (CAN_CH_LOST n) 15 0 1).canEvent n 10

/-- The status word and the head window of a receive FIFO follow its entries; all 0 when empty. -/
def State.fifoShow (s : State) (n f : Nat) : State :=
  let q := if f = 0 then (s.cch n).fifo0 else (s.cch n).fifo1
  let s := s.setF .CAN (CAN_CH_FIFO_STATUS n f) 6 0 q.length
  let ws := match q with | a :: _ => a.words 0 | [] => List.replicate 23 0
  s.each (upto 23) (fun s i => s.wr .CAN (CAN_FIFOHEAD n f (1 + i)) (ws.getD i 0))

/-- The receive FIFOs of a controller lose the frames that nothing has read (R73, R401). -/
def State.fifoDiscard (s : State) (n : Nat) : State :=
  let s := s.cchMod n (fun c => { c with fifo0 := [], fifo1 := [] })
  (((s.fifoShow n 0).fifoShow n 1).partClear (32 + 2 * n)).partClear (33 + 2 * n)

/-! ## Receive slots (R393) -/

/-- The bit numbers of a slot's field, its least significant bit first. -/
def fieldBits (bits : Word) : List Nat :=
  let len := clampN 1 32 (fld bits 21 16)
  let start := fld bits 8 0
  if bitOf bits 30 then
    ((upto len).foldl (fun (acc : List Nat × Nat) _ =>
      (acc.2 :: acc.1, if acc.2 % 8 = 0 then acc.2 + 15 else acc.2 - 1)) ([], start)).1
  else (upto len).map (fun i => start + i)

/-- The raw field of data bytes as a number. -/
def fieldGet (bits : Word) (data : List Byte) : Int :=
  let ks := fieldBits bits
  let v := ((ks.zip (upto ks.length)).map (fun p => if (data.getD (p.1 / 8) 0).toNat.testBit (p.1 % 8) then 2 ^ p.2 else 0)).sum
  if bitOf bits 31 then toSigned ks.length v else v

/-- The Q16.16 value raw × SCALE + OFFSET, to nearest and saturated under R130, where both are finite. -/
def slotValue (raw : Int) (scale offset : Word) : Option Int :=
  match f32Fix scale.toNat, f32Fix offset.toNat with
  | some k, some o => some (clampI (-2147483648) 2147483647 (roundDiv (raw * k + o) (2 ^ 133)))
  | _, _ => none

/-- A receive slot becomes invalid: SIG_TIMEOUT on its controller (R393). -/
def State.slotInvalid (s : State) (r : Nat) : State :=
  if s.bit .CAN (CAN_RXSIG_STATUS r) 31 then
    (s.setBit .CAN (CAN_RXSIG_STATUS r) 31 false).canEvent (s.f .CAN (CAN_RXSIG_CFG r) 26 24) 13
  else s

/-- A receive slot extracts its field from a frame (R393). -/
def State.slotExtract (s : State) (r : Nat) (data : List Byte) : State :=
  let raw := fieldGet (s.rd .CAN (CAN_RXSIG_BITS r)) data
  let s := match slotValue raw (s.rd .CAN (CAN_RXSIG_SCALE r)) (s.rd .CAN (CAN_RXSIG_OFFSET r)) with
    | some v => s.wr .CAN (CAN_RXSIG_VALUE r) (wordI v)
    | none => (s.wrN .CAN (CAN_RXSIG_VALUE r) (s.freeNat (2 ^ 32))).drawn
  (s.setBit .CAN (CAN_RXSIG_STATUS r) 31 true).incF .CAN (CAN_RXSIG_STATUS r) 15 0 1

/-- A receive slot names a controller's buffer. -/
def State.slotNames (s : State) (r n b : Nat) : Bool :=
  let w := s.rd .CAN (CAN_RXSIG_CFG r)
  bitOf w 31 && fld w 26 24 == n && fld w 22 16 == b

/-- A buffer's content has changed: its receive slots extract (R393). -/
def State.slotsTake (s : State) (n b : Nat) (f : CanFrame) : State :=
  s.each ((upto 256).filter (fun r => s.slotNames r n b)) (fun s r => s.slotExtract r f.data)

/-- A receive slot as a source of a loop or of the map: its value and whether it is enabled and valid. -/
def State.canRxSource (s : State) (r : Nat) : Int × Bool :=
  ((s.rd .CAN (CAN_RXSIG_VALUE r)).toInt, s.bit .CAN (CAN_RXSIG_CFG r) 31 && s.bit .CAN (CAN_RXSIG_STATUS r) 31)

/-! ## The next attempt (R390, R391, R400) -/

/-- The position of a frame in arbitration: the lower wins. -/
def arbKey (id fmt : Word) : Nat :=
  let rtr := b2n (bitOf fmt 28 && !bitOf fmt 31)
  if bitOf id 31 then ((fld id 28 18 * 4 + 3) * 2 ^ 18 + fld id 17 0) * 2 + rtr
  else (fld id 10 0 * 4 + rtr * 2) * 2 ^ 19

/-- The columns of a controller's schedule. -/
def State.ttCols (s : State) (n : Nat) : Nat := s.f .CAN (CAN_CH_TT_CFG n) 4 0 + 1

/-- The cycle count. -/
def State.ttCount (s : State) (n : Nat) : Nat := s.f .CAN (CAN_CH_TT_STATUS n) 21 16

/-- The kind of a column in the present cycle: 0 FREE, 1 EXCLUSIVE, 2 ARBITRATING, 3 MERGED; column 0 holds the reference. -/
def State.ttKind (s : State) (n k : Nat) : Nat :=
  if k = 0 then 1 else s.f .CAN (CAN_CH_TT_CELL n (s.ttCount n) k) 9 8

/-- The start of column `k` in device time; that of the column after the last is the end of the cycle. -/
def State.ttStart (s : State) (n k : Nat) : Nat :=
  (s.cch n).ref + s.ntu n (if k = 0 then 0 else if s.ttCols n ≤ k then s.f .CAN (CAN_CH_TT_CFG n) 31 16 else s.f .CAN (CAN_CH_TT_COL n k) 15 0)

/-- The start of the first column after `k` whose kind is not `kind`, or the end of the cycle. -/
def State.ttUntil (s : State) (n k kind : Nat) : Nat :=
  s.ttStart n (((upto (s.ttCols n)).find? (fun j => decide (k < j) && s.ttKind n j != kind)).getD (s.ttCols n))

/-- An event frame may start now: always without a schedule; under one, in a FREE column in which its longest length fits
(R400). -/
def State.mayStart (s : State) (n : Nat) (id fmt : Word) : Bool :=
  if !s.canCfg n 8 then true
  else
    let k := (s.cch n).col
    s.f .CAN (CAN_CH_TT_STATUS n) 1 0 == 2 && s.ttKind n k == 0 && decide (s.ttStart n k ≤ s.now) &&
      decide (s.now + s.worstNs n id fmt ≤ s.ttUntil n k 0)

/-- A frame as it may be sent: an FD frame only with FD_EN, a rate switch only with BRS_EN. -/
def State.sendable (s : State) (n : Nat) (f : CanFrame) : CanFrame :=
  let fd := bitOf f.fmt 31 && s.canCfg n 12
  let fmt := putBit (putBit f.fmt 31 fd) 30 (fd && bitOf f.fmt 30 && s.canCfg n 11)
  { f with fmt := fmt, data := f.data.take (dlcLen fd (fld fmt 19 16)) }

/-- The buffers and session frames that may start an attempt. -/
def State.canReady (s : State) (n : Nat) : List CanTx :=
  let bs := (upto 128).filter (fun b =>
    s.mbBit (CAN_CH_TXREQ n 0) b && s.mbKind n b == 2 && !s.mbBit (CAN_CH_LOCK n 0) b)
  let l := bs.map (fun b => { src := b, frame := s.sendable n (s.mbFrame n b) : CanTx }) ++
    ((s.cch n).out.head?.map (fun p => { src := 128 + p.1, frame := p.2 : CanTx })).toList
  l.filter (fun t => s.mayStart n t.frame.id t.frame.fmt)

/-- The first of a list in arbitration; between equal frames the earlier. -/
def arbFirst : List CanTx → Option CanTx
  | [] => none
  | a :: t => match arbFirst t with
    | some b => if arbKey a.frame.id a.frame.fmt ≤ arbKey b.frame.id b.frame.fmt then some a else some b
    | none => some a

/-- A controller that may send and has no attempt under way starts the next one (R390, R391); none starts on an island that is
not in RUN and locked, or in a power loss (R42, R76). -/
def State.canKick (s : State) (n : Nat) : State :=
  let st := s.canState n
  if (st = 2 ∨ st = 3) ∧ !s.canCfg n 13 ∧ s.canLive n ∧ (s.cch n).tx = none then
    match arbFirst (s.canReady n) with
    | some t => s.cchMod n (fun c => { c with tx := some t })
    | none => s
  else s

/-- Requests for the buffers of a mask from buffer `32 i` on. -/
def State.canRequest (s : State) (n i : Nat) (v : Word) : State :=
  let s := s.wr .CAN (CAN_CH_TXREQ n i) (s.rd .CAN (CAN_CH_TXREQ n i) ||| v)
  s.canKick n

/-! ## Transmit slots (R394) -/

/-- A number divided by another, rounded to nearest with ties to even. -/
def divEven (a b : Int) : Int :=
  let (a, b) := if b < 0 then (-a, -b) else (a, b)
  let q := a / b
  let r := a % b
  if 2 * r < b then q else if b < 2 * r then q + 1 else if q % 2 = 0 then q else q + 1

/-- The range of a slot's field. -/
def fieldRange (bits : Word) : Int × Int :=
  let len := clampN 1 32 (fld bits 21 16)
  if bitOf bits 31 then (-(2 ^ (len - 1) : Nat), (2 ^ (len - 1) : Nat) - 1) else (0, (2 ^ len : Nat) - 1)

/-- The raw value of a Q16.16 value, where SCALE and OFFSET are finite and SCALE is not 0. -/
def slotRaw (v : Int) (bits scale offset : Word) : Option Int :=
  match f32Fix scale.toNat, f32Fix offset.toNat with
  | some k, some o =>
    if k = 0 then none
    else let r := fieldRange bits; some (clampI r.1 r.2 (divEven (v * 2 ^ 133 - o) k))
  | _, _ => none

/-- A buffer's data with a slot's field set. -/
def State.fieldPut (s : State) (n b : Nat) (bits : Word) (raw : Int) : State :=
  let ks := fieldBits bits
  let v := ofSigned 32 raw
  s.each (ks.zip (upto ks.length)) (fun s p =>
    if p.1 < 512 then s.setBit .CAN (CAN_MB n b (8 + p.1 / 32)) (p.1 % 32) (v.testBit p.2) else s)

/-- A sink's slot can take values: its index, its SCALE and its buffer (R394). -/
def State.canSlotOk (s : State) (n t : Nat) : Bool :=
  decide (t < 32) && decide (2 ≤ s.mbKind n (s.f .CAN (CAN_TXSIG_CFG n t) 22 16)) &&
    match f32Fix (s.rdN .CAN (CAN_TXSIG_SCALE n t)) with
    | some k => decide (k ≠ 0)
    | none => false

/-- A transmit slot takes a Q16.16 value (R394): the state after it, and RAW × SCALE + OFFSET as applied, as binary64
bits. -/
def State.canTx (s : State) (n t : Nat) (v : Int) : State × Nat :=
  let cfg := s.rd .CAN (CAN_TXSIG_CFG n t)
  let bits := s.rd .CAN (CAN_TXSIG_BITS n t)
  let scale := s.rd .CAN (CAN_TXSIG_SCALE n t)
  let offset := s.rd .CAN (CAN_TXSIG_OFFSET n t)
  let old := s.rd .CAN (CAN_TXSIG_RAW n t)
  let s :=
    if bitOf cfg 31 then
      let (raw, s) := match slotRaw v bits scale offset with
        | some r => (r, s)
        | none => (toSigned 32 (s.freeNat (2 ^ 32)), s.drawn)
      let b := fld cfg 22 16
      let s := (s.fieldPut n b bits raw).wr .CAN (CAN_TXSIG_RAW n t) (wordI raw)
      if bitOf cfg 30 && wordI raw != old then s.canRequest n (b / 32) (wordN (2 ^ (b % 32))) else s
    else s
  let raw := s.rd .CAN (CAN_TXSIG_RAW n t)
  let r : Int := if bitOf bits 31 then raw.toInt else raw.toNat
  let prod := fmt64.val (fmt64.mulV .even (fmt64.val (fmt64.ofInt .even r 0).bits) (fmt64.val (f64 scale.toNat))).bits
  (s, (fmt64.addV .even prod (fmt64.val (f64 offset.toNat))).bits)

end Sys2Proof.Machine
end

