-- ==== Sys2Proof/Machine/Inputs.lean ====
section
/-! DEFINITION. The crop sensing inputs (AIO): analog, frequency and loss inputs, and the sensor supplies (R343–R349). -/

namespace Sys2Proof.Machine

/-! ## Analog inputs (R343, R344) -/

/-- MODE of an analog input: 0 off, 1 0–5 V, 2 0–10 V, 3 4–20 mA. -/
def State.ainMode (s : State) (n : Nat) : Nat := s.f .AIO (AIO_AIN_CFG n) 31 30

/-- The bit of a fault flag in AIO_AIN[n]_STATUS. -/
def ainFlagBit : AinFlag → Nat
  | .under => 2 | .over => 3 | .window => 4 | .supply => 5 | .burden => 6

/-- The supply that CFG.SUPPLY names, if any. -/
def State.ainSupply (s : State) (n : Nat) : Option Nat :=
  let k := s.f .AIO (AIO_AIN_CFG n) 26 24
  if 1 ≤ k ∧ k ≤ 6 then some (k - 1) else none

/-- The condition of a flag holds for a VALUE (Table 14-1); that of the burden is the switch's own. -/
def State.ainCond (s : State) (n : Nat) (k : AinFlag) (value : Int) : Bool :=
  let m := s.ainMode n
  match k with
  | .under =>
    (m == 1 && decide (value * 10 < -1 * 65536)) || (m == 2 && decide (value * 10 < -2 * 65536)) ||
      (m == 3 && decide (value * 10 < 36 * 65536))
  | .over =>
    (m == 1 && decide (51 * 65536 < value * 10)) || (m == 2 && decide (102 * 65536 < value * 10)) ||
      (m == 3 && decide (210 * 65536 < value * 10))
  | .window =>
    let w := s.rd .AIO (AIO_AIN_WIN n)
    m != 0 && w != 0 && (decide (value * 1000 < (fld w 15 0 : Nat) * 65536) ||
      decide ((fld w 31 16 : Nat) * 65536 < value * 1000))
  | .supply => match s.ainSupply n with
    | some j => s.f .AIO (AIO_SUP_STATUS j) 1 0 != 1
    | none => false
  | .burden => m == 3

/-- Some flag is set, or the input is off. -/
def State.ainInvalid (s : State) (n : Nat) : Bool :=
  s.ainMode n == 0 || [2, 3, 4, 5, 6].any (fun i => s.bit .AIO (AIO_AIN_STATUS n) i)

/-- INVALID of an analog input, in its STATUS and in AIO_INVALID_AIN. -/
def State.ainShow (s : State) (n : Nat) : State :=
  let v := s.ainInvalid n
  let s := s.setBit .AIO (AIO_AIN_STATUS n) 7 v
  if n < 32 then s.setBit .AIO AIO_INVALID_AIN_LO n v else s.setBit .AIO AIO_INVALID_AIN_HI (n - 32) v

/-- A new VALUE, with the extremes since CLEAR_COUNTS in mV or µA. -/
def State.ainShown (s : State) (n : Nat) (value : Int) : State :=
  let s := s.wr .AIO (AIO_AIN_VALUE n) (wordI value)
  let m := clampN 0 65535 (roundDiv (value * 1000) 65536).toNat
  let r := AIO_AIN_MINMAX n
  (s.setF .AIO r 31 16 (max m (s.f .AIO r 31 16))).setF .AIO r 15 0 (min m (s.f .AIO r 15 0))

/-- The mean of some samples, rounded to nearest. -/
def meanOf (xs : List Int) : Int := if xs.isEmpty then 0 else roundDiv xs.sum xs.length

/-- The samples since the last row, oldest first, enter a channel that is not off: VALUE is refreshed at every sample with the
mean of the latest 2^AVG (R343), or of those there are. -/
def State.ainValue (s : State) (n : Nat) (samples : List Int) : State :=
  if s.ainMode n = 0 then s
  else s.each samples (fun s x =>
    let xs := (x :: s.aio.ain.get [] n).take 128
    let s := s.putAio { s.aio with ain := s.aio.ain.set [] n xs }
    s.ainShown n (meanOf (xs.take (2 ^ s.f .AIO (AIO_AIN_CFG n) 29 27))))

/-- VALUE of a channel. -/
def State.ainNow (s : State) (n : Nat) : Int := (s.rd .AIO (AIO_AIN_VALUE n)).toInt

/-- AIN_FAULT (R344): a condition held for FLT_TIME sets its flag, raises AIN_FAULT and counts. `samples`: the samples of the
channel since its last row. -/
def execAinFault (n : Fin 48) (k : AinFlag) (samples : List Int) (s : State) : Res :=
  let s := s.ainValue n.val samples
  if s.ainCond n.val k (s.ainNow n.val) && !s.bit .AIO (AIO_AIN_STATUS n.val) (ainFlagBit k) then
    let s := (s.setBit .AIO (AIO_AIN_STATUS n.val) (ainFlagBit k) true).incF .AIO (AIO_AIN_STATUS n.val) 31 16 1
    ok ((s.ainShow n.val).event .AIO 0)
  else ok (s.ainShow n.val)

/-- AIN_FAULT_CLEAR (R344): a condition absent for FLT_TIME clears its flag; that of the burden follows its switch. -/
def execAinFaultClear (n : Fin 48) (k : AinFlag) (samples : List Int) (s : State) : Res :=
  let s := s.ainValue n.val samples
  if k ≠ .burden ∧ s.ainCond n.val k (s.ainNow n.val) = false then
    ok ((s.setBit .AIO (AIO_AIN_STATUS n.val) (ainFlagBit k) false).ainShow n.val)
  else ok (s.ainShow n.val)

/-- BURDEN_RETRY (R344): an opened burden recloses after 1 s, and BURDEN_OPEN follows the result. -/
def execBurdenRetry (n : Fin 48) (still : Bool) (s : State) : Res :=
  if s.bit .AIO (AIO_AIN_STATUS n.val) 6 then ok ((s.setBit .AIO (AIO_AIN_STATUS n.val) 6 still).ainShow n.val) else ok s

/-- What a KIND 2 source receives: VALUE and whether it is valid (R343, Table 11-1). -/
def State.ainSource (s : State) (n : Nat) : Int × Bool := (s.ainNow n, !s.ainInvalid n)

/-! ## Frequency inputs (R346, R347) -/

/-- EN of a frequency input. -/
def State.finOn (s : State) (n : Nat) : Bool := s.bit .AIO (AIO_FIN_CFG n) 29

/-- INVALID of a frequency input, in its STATUS and in AIO_INVALID_FIN. -/
def State.finShow (s : State) (n : Nat) : State :=
  let v := s.bit .AIO (AIO_FIN_STATUS n) 3 || !s.finOn n
  (s.setBit .AIO (AIO_FIN_STATUS n) 7 v).setBit .AIO AIO_INVALID_FIN n v

/-- A write of AIO_FIN[n]_CFG: EN written 1 starts the low time of the first edge (R346). -/
def State.finCfg (s : State) (n : Nat) (was : Bool) : State :=
  let s := if s.finOn n && !was then
      s.putAio { s.aio with fin := s.aio.fin.set {} n { s.aio.fin.get {} n with since := some s.clk.up } } else s
  s.finShow n

/-- FIN_EDGE (R346): a rising edge with enough low and high time is counted and stamped to 10 ns, also by the count holds of
R135; any other is a glitch. -/
def execFinEdge (n : Fin 24) (dt low high : Nat) (s : State) : Res :=
  let s := s.pass dt
  if !s.finOn n.val then ok s
  else
    let s := s.setBit .AIO (AIO_FIN_STATUS n.val) 0 true
    let least := clampN 1 100 (s.f .AIO (AIO_FIN_CFG n.val) 23 16) * 1000
    let low := match (s.aio.fin.get {} n.val).since with
      | some u => min low (s.clk.up - high - u)
      | none => low
    let s := s.putAio { s.aio with fin := s.aio.fin.set {} n.val { s.aio.fin.get {} n.val with since := none } }
    if low < least ∨ high < least then ok (s.incF .AIO (AIO_FIN_STATUS n.val) 31 16 1)
    else
      let t := (s.clk.up - high) / 10 * 10
      let c := s.aio.fin.get {} n.val
      let s := s.wrN .AIO (AIO_FIN_COUNT n.val) (s.rdN .AIO (AIO_FIN_COUNT n.val) + 1)
      let s := match c.lastEdge with
        | some u => s.wrN .AIO (AIO_FIN_PERIOD n.val) (clampN 0 0xFFFFFFFF ((t - u) / 10))
        | none => s
      let s := s.putAio { s.aio with fin := s.aio.fin.set {} n.val { edges := t :: c.edges, lastEdge := some t } }
      ok (s.vlvFinEdge n.val)

/-- FREQ in 0.001 Hz (R346) from the edges of the GATE window, newest first, else from the latest one within TIMEOUT. -/
def finFreq (edges : List Nat) (lastEdge : Option Nat) (period now timeout : Nat) : Option Nat :=
  match edges.head?, edges.getLast? with
  | some b, some a =>
    if a < b then some ((edges.length - 1) * 1000000000000 / (b - a)) else single
  | _, _ => single
where
  /-- FREQ from the latest edge alone: the smaller of 1 / PERIOD and 1 / the time since it. -/
  single : Option Nat :=
    match lastEdge with
    | some t => if now ≤ t + timeout then some (1000000000000 / max 1 (max (period * 10) (now - t))) else none
    | none => none

/-- FIN_REFRESH (R346, R347): FREQ is refreshed; no edge within TIMEOUT gives 0 and STOPPED. -/
def execFinRefresh (n : Fin 24) (dt : Nat) (level : Bool) (s : State) : Res :=
  let s := s.pass dt
  if !s.finOn n.val then ok s
  else
    let cfg := s.rd .AIO (AIO_FIN_CFG n.val)
    let c := s.aio.fin.get {} n.val
    let gate := clampN 1 100 (fld cfg 15 8) * 10000000
    let es := c.edges.filter (fun t => decide (s.clk.up ≤ t + gate))
    let r := finFreq es c.lastEdge (s.rdN .AIO (AIO_FIN_PERIOD n.val)) s.clk.up (max 1 (fld cfg 7 0) * 100000000)
    let s := s.putAio { s.aio with fin := s.aio.fin.set {} n.val { c with edges := es } }
    let s := s.setBit .AIO (AIO_FIN_STATUS n.val) 0 level
    let s := s.wrN .AIO (AIO_FIN_FREQ n.val) (clampN 0 0xFFFFFFFF (r.getD 0))
    let was := s.bit .AIO (AIO_FIN_STATUS n.val) 2
    let s := (s.setBit .AIO (AIO_FIN_STATUS n.val) 2 r.isNone).finShow n.val
    ok (if r.isNone && !was && bitOf cfg 28 then s.event .AIO 4 else s)

/-- FIN_FAULT (R347): FREQ above 55 kHz for 10 ms sets OVER_FREQ and raises FIN_FAULT; below 50 kHz for 10 ms clears it. -/
def execFinFault (n : Fin 24) (s : State) : Res :=
  let f := s.rdN .AIO (AIO_FIN_FREQ n.val)
  let fault := s.bit .AIO (AIO_FIN_STATUS n.val) 3
  if 55000000 < f ∧ fault = false then
    ok (((s.setBit .AIO (AIO_FIN_STATUS n.val) 3 true).finShow n.val).event .AIO 1)
  else if f < 50000000 then ok ((s.setBit .AIO (AIO_FIN_STATUS n.val) 3 false).finShow n.val)
  else ok s

/-- What a KIND 3 source receives: FREQ / 2^SRC_DIV in Q16.16, and whether it is valid (R346). -/
def State.finSource (s : State) (n : Nat) : Int × Bool :=
  let q := roundDiv ((s.rdN .AIO (AIO_FIN_FREQ n) * 65536 : Nat) : Int) (1000 * 2 ^ s.f .AIO (AIO_FIN_CFG n) 27 26)
  (clampI (-2147483648) 2147483647 q, !(s.bit .AIO (AIO_FIN_STATUS n) 3 || !s.finOn n))

/-! ## Loss inputs (R348, R349) -/

/-- INVALID of a loss input. -/
def State.lossInvalid (s : State) (n : Nat) : Bool :=
  s.bit .AIO (AIO_LOSS_STATUS n) 1 || s.bit .AIO (AIO_LOSS_STATUS n) 2 || !s.bit .AIO (AIO_LOSS_CFG n) 31

/-- INVALID of a loss input, in its STATUS and in AIO_INVALID_LOSS. -/
def State.lossShow (s : State) (n : Nat) : State :=
  (s.setBit .AIO (AIO_LOSS_STATUS n) 7 (s.lossInvalid n)).setBit .AIO AIO_INVALID_LOSS n (s.lossInvalid n)

/-- An excursion enters the peak histogram: bins of 625 mV, peaks above 10 V in bin 15. -/
def State.lossHist (s : State) (n peak : Nat) : State :=
  let b := min 15 (peak / 625)
  s.incF .AIO (AIO_LOSS_HIST n (b / 2)) (16 * (b % 2) + 15) (16 * (b % 2)) 1

/-- LOSS_IMPACT (R348): an excursion above THRESH enters the histogram and is counted as one impact or rejected. -/
def execLossImpact (n : Fin 8) (dt width peak : Nat) (s : State) : Res :=
  let s := s.pass dt
  let cfg := s.rd .AIO (AIO_LOSS_CFG n.val)
  let th := s.rd .AIO (AIO_LOSS_THRESH n.val)
  if !bitOf cfg 31 || decide (peak ≤ fld th 15 0) then ok s
  else
    let s := s.lossHist n.val peak
    let badW := decide (width < fld cfg 7 0) || decide (fld cfg 15 8 < width)
    let badP := decide (fld th 31 16 < peak)
    let s := if badW then s.incF .AIO (AIO_LOSS_REJECT n.val) 31 16 1 else s
    let s := if badP then s.incF .AIO (AIO_LOSS_REJECT n.val) 15 0 1 else s
    let c := s.aio.loss.get {} n.val
    let dead := match c.last with
      | some t => decide (s.clk.up < t + max 1 (fld cfg 23 16) * 1000)
      | none => false
    if badW || badP || dead then ok s
    else
      let s := s.wrN .AIO (AIO_LOSS_COUNT n.val) (s.rdN .AIO (AIO_LOSS_COUNT n.val) + 1)
      let c : Loss := { hits := s.clk.up :: c.hits, last := some s.clk.up }
      ok (s.putAio { s.aio with loss := s.aio.loss.set {} n.val c })

/-- LOSS_RATE_REFRESH (R348): RATE is the impacts of the latest second in Q16.16. -/
def execLossRateRefresh (n : Fin 8) (dt : Nat) (s : State) : Res :=
  let s := s.pass dt
  let c := s.aio.loss.get {} n.val
  let hs := c.hits.filter (fun t => decide (s.clk.up < t + 1000000000))
  let s := s.putAio { s.aio with loss := s.aio.loss.set {} n.val { c with hits := hs } }
  ok (s.wrN .AIO (AIO_LOSS_RATE n.val) (min 0x7FFFFFFF (hs.length * 65536)))

/-- What a KIND 4 source receives. -/
def State.lossSource (s : State) (n : Nat) : Int × Bool := ((s.rd .AIO (AIO_LOSS_RATE n)).toInt, !s.lossInvalid n)

/-- The response of a channel to a test pulse (R349). -/
def State.lossTest (s : State) (n response : Nat) : State :=
  let st := AIO_LOSS_STATUS n
  let op := decide (2000 < response)
  let sh := decide (response < 50)
  let fresh := (op && !s.bit .AIO st 1) || (sh && !s.bit .AIO st 2)
  let s := ((s.setBit .AIO st 1 op).setBit .AIO st 2 sh).lossShow n
  if fresh then s.event .AIO 2 else s

/-- A channel of a LOSS_TEST has been tested, or is no longer enabled; with the last one the command ends OK. -/
def State.lossTested (s : State) (n : Nat) : State :=
  let was := s.aio.testing
  let left := was.filter (fun m => m != n)
  let s := s.putAio { s.aio with testing := left }
  if left.isEmpty && !was.isEmpty then (s.setBit .AIO AIO_STATUS 8 false).cmdEndIf .AIO 2 .ok else s

/-- LOSS_TEST_PULSE (R349): every 10 s, and for LOSS_TEST, which ends OK when its last channel has been tested. -/
def execLossTestPulse (n : Fin 8) (response : Nat) (s : State) : Res :=
  if s.bit .AIO (AIO_LOSS_CFG n.val) 31 then ok ((s.lossTest n.val response).lossTested n.val)
  else ok (s.lossTested n.val)

/-- LOSS_TEST (Table 14-6). -/
def execLossTest (s : State) : Res :=
  ok (s.command .AIO 2 fun a s =>
    let ns := (bitsOf (arg a 0).toNat 8).filter (fun n => s.bit .AIO (AIO_LOSS_CFG n) 31)
    if ns.isEmpty then done s .ok
    else ((s.putAio { s.aio with testing := ns }).setBit .AIO AIO_STATUS 8 true, none))

/-- CLEAR_COUNTS (Table 14-6). -/
def execAioClearCounts (s : State) : Res :=
  ok (s.command .AIO 1 fun a s =>
    let w := arg a 0
    let s := s.when (bitOf w 0) (fun s => s.each (upto 48) (fun s n =>
      (s.setF .AIO (AIO_AIN_STATUS n) 31 16 0).wr .AIO (AIO_AIN_MINMAX n) 0x0000FFFF))
    let s := s.when (bitOf w 1) (fun s => s.each (upto 24) (fun s n => s.setF .AIO (AIO_FIN_STATUS n) 31 16 0))
    done (s.when (bitOf w 2) (fun s => s.each (upto 8) (fun s n =>
      (s.wr .AIO (AIO_LOSS_REJECT n) 0).each (upto 8) (fun s b => s.wr .AIO (AIO_LOSS_HIST n b) 0)))) .ok)

/-! ## Sensor supplies (R345) -/

/-- The code of a supply's state in AIO_SUP[k]_STATUS. -/
def supplyCode : SupplyState → Nat
  | .good => 1 | .limit => 2 | .backfed => 3

/-- AIO_STATUS follows a supply's state. -/
def State.supShow (s : State) (k : Nat) : State := s.setBit .AIO AIO_STATUS k (s.f .AIO (AIO_SUP_STATUS k) 1 0 != 1)

/-- A supply takes a state: its STATUS, AIO_STATUS and, on a change, SUPPLY. -/
def State.supSet (s : State) (k state : Nat) : State :=
  let old := s.f .AIO (AIO_SUP_STATUS k) 1 0
  let s := (s.setF .AIO (AIO_SUP_STATUS k) 1 0 state).supShow k
  if old = state then s else s.event .AIO 3

/-- What a supply's output and current measure. -/
def State.supMeas (s : State) (k mv ma : Nat) : State :=
  (s.setF .AIO (AIO_SUP_STATUS k) 31 16 (clampN 0 65535 mv)).setF .AIO (AIO_SUP_STATUS k) 15 4 (clampN 0 4095 ma)

/-- SUPPLY (R345): an enabled supply stays in its current limit for 10 ms and switches off, is fed back, or is good; one that
is off in LIMIT comes back by its retry alone. -/
def execAioSupply (k : Fin 6) (c : SupplyState) (mv ma : Nat) (s : State) : Res :=
  if s.bit .AIO (AIO_SUP_CFG k.val) 0 && s.f .AIO (AIO_SUP_STATUS k.val) 1 0 != 2 then ok ((s.supMeas k.val mv ma).supSet k.val (supplyCode c)) else ok s

/-- SUPPLY_RETRY (R345): a supply in LIMIT is retried. -/
def execSupplyRetry (k : Fin 6) (good : Bool) (mv ma : Nat) (s : State) : Res :=
  if s.bit .AIO (AIO_SUP_CFG k.val) 0 && s.f .AIO (AIO_SUP_STATUS k.val) 1 0 == 2 then
    ok ((s.supMeas k.val mv ma).supSet k.val (if good then 1 else 2))
  else ok s

/-- A write of AIO_SUP[k]_CFG switches the supply; one already on keeps its state. -/
def State.supSwitch (s : State) (k : Nat) : State :=
  if !s.bit .AIO (AIO_SUP_CFG k) 0 then s.supSet k 0
  else if s.f .AIO (AIO_SUP_STATUS k) 1 0 = 0 then s.supSet k 1
  else s

/-- Every supply is off in DORMANT (R345). -/
def State.supOff (s : State) : State :=
  s.each (upto 6) (fun s k => (s.wr .AIO (AIO_SUP_STATUS k) 0).supShow k)

end Sys2Proof.Machine
end

