-- ==== Sys2Proof/Machine/Stores.lean ====
section
/-! DEFINITION. The stores of the module as byte arrays: NOR flash (its read window), MRAM (its read window) and the eMMC
(byte offsets from the start of the device), and the two slots of each update region in them (Table 18-1). -/

namespace Sys2Proof.Machine

/-- A mebibyte. -/
abbrev mib : Nat := 0x100000

/-- `n` bytes of the eMMC from byte offset `o`; what was never written reads as 0. -/
def State.emmcBytes (s : State) (o n : Nat) : List Byte :=
  SMap.row (fun _ => 0) (s.emmc.cells.filter (fun c => o ≤ c.1 && c.1 < o + n)) o n

/-- Write bytes to the eMMC. -/
def State.emmcPut (s : State) (o : Nat) (bs : List Byte) : State := s.putEmmc (s.emmc.blit (fun _ => 0) o bs)

/-- The regions whose slots lie in NOR flash; the others lie on the eMMC (Table 18-1). -/
def regionNor (r : Nat) : Bool := r == 0 || r == 1 || r == 2 || r == 6

/-- The size of a region's slots in bytes (Table 18-1). -/
def slotSize (r : Nat) : Nat :=
  match r with
  | 0 => 2 * mib | 1 => mib | 2 => 4 * mib | 3 => 64 * mib | 4 => 256 * mib | 5 => 512 * mib | 6 => 16 * mib
  | 7 => 16 * mib | 8 => 48 * mib | 9 => 4 * mib | _ => 64 * mib

/-- Where slot A (`b` false) or B of a region starts in its medium (Table 18-1). -/
def slotBase (r : Nat) (b : Bool) : Nat :=
  let p : Nat × Nat := match r with
    | 0 => (0, 0x2000000)
    | 1 => (0x200000, 0x2200000)
    | 2 => (0x1400000, 0x3400000)
    | 3 => (mib, 65 * mib)
    | 4 => (129 * mib, 385 * mib)
    | 5 => (641 * mib, 1153 * mib)
    | 6 => (0x400000, 0x2400000)
    | 7 => (1665 * mib, 1681 * mib)
    | 8 => (1697 * mib, 1745 * mib)
    | 9 => (1793 * mib, 1797 * mib)
    | k => ((1801 + 128 * (k - 10)) * mib, (1865 + 128 * (k - 10)) * mib)
  if b then p.2 else p.1

/-- `n` bytes of a region's slot from offset `o`. -/
def State.slotBytes (s : State) (r : Nat) (b : Bool) (o n : Nat) : List Byte :=
  if regionNor r then s.rdBytes (norBase + slotBase r b + o) n else s.emmcBytes (slotBase r b + o) n

/-- Write bytes to a region's slot. -/
def State.slotPut (s : State) (r : Nat) (b : Bool) (o : Nat) (bs : List Byte) : State :=
  if regionNor r then s.wrBytes (norBase + slotBase r b + o) bs else s.emmcPut (slotBase r b + o) bs

/-- Where the .dxi header stands in a slot, and where the payload starts (R420). -/
def slotHdr (r : Nat) : Nat := if r = 6 then 0xFFF000 else 0
/-- Where the payload starts in a slot (R420). -/
def slotPay (r : Nat) : Nat := if r = 6 then 0 else 0x1000

/-- The state of a region's slot (Table 18-2). -/
def State.slotState (s : State) (r : Nat) (b : Bool) : Nat :=
  if b then s.f .UPD (UPD_R_STATE r) 22 20 else s.f .UPD (UPD_R_STATE r) 18 16

/-- The slot of a region that is ACTIVE or TRIAL, if one is (R421). -/
def State.inUse (s : State) (r : Nat) : Option Bool :=
  if s.slotState r false = 3 ∨ s.slotState r false = 4 then some false
  else if s.slotState r true = 3 ∨ s.slotState r true = 4 then some true
  else none

/-- The version shown for a slot. -/
def State.slotVer (s : State) (r : Nat) (b : Bool) : Nat := s.rdN .UPD (if b then UPD_R_VER_B r else UPD_R_VER_A r)

end Sys2Proof.Machine
end

