-- ==== Sys2Proof/Machine/Time.lean ====
section
/-! DEFINITION. Device time: the time states, corrections, holdover and recovery, PPS_OUT with the time message, time marks,
and the announced clock quality (TIM, R229–R240, R470). -/

namespace Sys2Proof.Machine

/-- The time state: 0 NOT_VALID, 1 COARSE, 2 LOCKED, 3 HOLDOVER, 4 RECOVERING (Table 9-9). -/
def State.timState (s : State) : Nat := s.f .TIM TIM_STATUS 2 0

/-- Change the time base's record. -/
def State.timMod (s : State) (f : Tim → Tim) : State := s.putTim (f s.tim)

/-- PPS_OUT pulses (Table 9-9, R238): PPS_EN, a pulsing state, not held low. -/
def State.ppsOn (s : State) : Bool := s.bit .TIM TIM_CFG 0 && decide (2 ≤ s.timState) && !s.tim.low

/-- TIM_STATUS shows PPS_ON. -/
def State.timShow (s : State) : State := s.setBit .TIM TIM_STATUS 6 s.ppsOn

/-- The time state changes, with STATE raised (Table 9-16). -/
def State.timSet (s : State) (st : Nat) : State :=
  if s.timState = st then s.timShow else ((s.setF .TIM TIM_STATUS 2 0 st).timShow).event .TIM 0

/-- A nanosecond second. -/
abbrev sec : Nat := 1000000000

/-! ## Values computed at a read -/

/-- What the adjusted period has removed so far, in ns (R234). -/
def Tim.periodDone (t : Tim) : Int := if t.dk = 0 then 0 else (periodDev t.dk t.perEl : Int) - t.perEl

/-- The accepted offset not yet removed, in ns, but for one that waits for the adjustment's end: of the adjustment, of a slew, and what
a loss of corrections left. -/
def Tim.removing (t : Tim) : Int := t.rest + (t.dk - t.periodDone) + t.slew + t.left

/-- The accepted offset not yet removed, in ns (R231, R470). -/
def Tim.pending (t : Tim) : Int := t.removing + t.extra.getD 0

/-- TIM_ACC (R236, R470). -/
def State.timAcc (s : State) : Nat :=
  let v := match s.timState with
    | 0 => 0xFFFFFFFF
    | 1 => s.tim.seedAcc + 2000 * (s.clk.up - s.tim.seedAt) / sec
    | _ =>
      let t := s.clk.up - s.tim.acceptAt.getD s.clk.up
      s.tim.acc0 + (300 * sec * t + t * t) / (20 * sec * sec) + s.tim.pending.natAbs
  min v 0xFFFFFFFF

/-- TIM_HOLD_S: seconds since the last accepted correction. -/
def State.timHold (s : State) : Nat :=
  match s.tim.acceptAt with
  | some a => min ((s.clk.up - a) / sec) 0xFFFFFFFF
  | none => 0

/-- clockAccuracy from TIM_ACC (Table 9-10). -/
def accCode (a : Nat) : Nat :=
  if a ≤ 100 then 0x21 else if a ≤ 250 then 0x22 else if a ≤ 1000 then 0x23 else if a ≤ 2500 then 0x24
  else if a ≤ 10000 then 0x25 else if a ≤ 25000 then 0x26 else if a ≤ 100000 then 0x27 else 0xFE

/-- clockClass and clockAccuracy announced (R240, Table 9-10). -/
def State.clockQuality (s : State) : Nat × Nat :=
  if !s.bit .TIM TIM_CFG 2 then (248, 0xFE)
  else match s.timState with
    | 2 => (6, accCode s.timAcc)
    | 4 => (7, 0x23)
    | 3 => if s.timAcc ≤ 1000 then (7, 0x23) else (52, accCode s.timAcc)
    | _ => (248, 0xFE)

/-- The module is grandmaster: GM_EN and no better clock. -/
def State.isGm (s : State) : Bool := s.bit .TIM TIM_CFG 2 && s.tim.gm.isNone

/-- What a read of a TIM register shows where it is not simply stored. -/
def State.timView (s : State) (o : Nat) : Word :=
  if o = TIM_ACC then wordN s.timAcc
  else if o = TIM_STATUS then putBit (s.rd .TIM TIM_STATUS) 5 (s.tim.slew != 0)
  else if o = TIM_HOLD_S then wordN s.timHold
  else if o = TIM_GPTP_STATUS then
    let q := s.clockQuality
    wordN (q.2 * 65536 + q.1 * 256 + b2n s.isGm)
  else if o = TIM_GPTP_OFFSET then wordI (if s.isGm then 0 else clampI (-0x80000000) 0x7FFFFFFF ((s.tim.gm.map Prod.snd).getD 0))
  else if o = TIM_TMARK_CNT then setFld (s.rd .TIM TIM_TMARK_CNT) 4 0 s.tim.marks.length
  else s.rd .TIM o

/-- What the module announces (R240, Table 9-10). -/
def State.gmAnnounce (s : State) : PtpAnnounce :=
  let locked := s.timState == 2
  { priority1 := if s.bit .TIM TIM_CFG 2 then s.f .TIM TIM_GM_CFG 7 0 else 255
    priority2 := s.f .TIM TIM_GM_CFG 15 8
    clockClass := s.clockQuality.1
    clockAccuracy := s.clockQuality.2
    variance := if locked then 0x4E5D else 0xFFFF
    timeSource := if locked then 0x20 else 0xA0
    utcOffset := s.f .TIM TIM_UTC 7 0 + 19
    seconds := s.now / sec + 315964819 }

/-- GM_CHG where the module has become the grandmaster or no longer is; `was`: it was before (R240). -/
def State.gmMoved (s : State) (was : Bool) : State := if s.isGm = was then s else s.event .TIM 6

/-- A read of TIM_NOW_LO answers [31:0] and latches [63:32] (R99). -/
def State.nowRead (s : State) : Word × State :=
  (wordN s.now, (s.timMod (fun t => { t with nowHi := s.now / 2 ^ 32 })).wrN .TIM TIM_NOW_HI (s.now / 2 ^ 32))

/-- TIM_NOW_LO_READ (R99). -/
def execTimNowLoRead (s : State) : Res := ok (s.nowRead.2.putResp (.word s.nowRead.1))

/-! ## Corrections (R231, R232, R234, R235) -/

/-- An offset in units of 2^−16 ns, in whole ns: rounded to nearest. -/
def wholeNs (d : Int) : Int := roundDiv d 65536

/-- Removal of an accepted offset, in units of 2^−16 ns (R234, R235): below 1 µs it is slewed out, else it is adjusted from the next
whole second; one accepted while RECOVERING waits for the adjustment in progress, against which it counts. -/
def State.timApply (s : State) (d : Int) : State :=
  let n := wholeNs d
  if s.timState = 4 then s.timMod (fun t => { t with extra := some (n - t.removing), lost := false })
  else if d.natAbs < 1000 * 65536 then (s.timMod (fun t => { t with slew := n, slewFrac := 0, left := 0 })).timSet 2
  else (s.timMod (fun t => { t with slew := 0, rest := n, total := n, dk := 0, left := 0 })).timSet 4

/-- The rate update of an accepted correction in LOCKED or RECOVERING (R231): the residual, which is Δ less what earlier ones still
have to remove, over the interval between the accepted epochs, in 0.01 ppb and limited to ±10 ppm. -/
def State.timRate (s : State) (d : Int) (epoch : Nat) : State :=
  match s.tim.accEpoch with
  | some e =>
    if e < epoch then
      let r := (s.rd .TIM TIM_RATE).toInt + roundDiv ((d - s.tim.pending * 65536) * 100000000000) (65536 * (epoch - e))
      s.wr .TIM TIM_RATE (wordI (clampI (-1000000) 1000000 r))
    else s
  | none => s

/-- Δ of a correction in units of 2^−16 ns (Table 9-14). -/
def State.corrDelta (s : State) : Int :=
  toSigned 64 (s.rdN .TIM TIM_CORR_NS_HI * 2 ^ 32 + s.rdN .TIM TIM_CORR_NS_LO) * 65536 + s.f .TIM TIM_CORR_FRAC 15 0

/-- A correction agrees with the previous one (R231): epochs no more than 1 s apart, offsets within 50 ns. -/
def State.corrAgrees (s : State) (epoch : Nat) (d : Int) : Bool :=
  match s.tim.prev with
  | some (e, d') => decide (e < epoch) && decide (epoch - e ≤ sec) && decide ((d - d').natAbs ≤ 50 * 65536)
  | none => false

/-- TIM accepts the correction (R231). -/
def State.corrOk (s : State) (epoch : Nat) (d : Int) : Bool :=
  decide (s.rdN .TIM TIM_CORR_ACC ≤ 1000) && decide (s.now - epoch ≤ sec) && !s.bit .TIM TIM_STATUS 7 &&
    (s.timState == 2 || s.timState == 4 || s.corrAgrees epoch d)

/-- The first accepted correction sets device time (R232); a step forward skips periodic instants (R233). -/
def State.timFirst (s : State) (d : Int) : State :=
  let n := (wholeNs d).toNat
  let s := s.timMod (fun t => { t with ppsFrom := s.now + n + sec / 2 })
  if 0 ≤ d then (((s.lpeSkip s.now (s.now + n)).putNow (s.now + n)).timSet 2).event .TIM 1
  else (s.event .TIM 1).timApply d

/-- A write of TIM_CORR_GO latches a correction (R231). -/
def State.corrGo (s : State) (v : Word) : State :=
  let d := s.corrDelta
  let epoch := s.now - (s.now + 2 ^ 32 - v.toNat) % 2 ^ 32
  let good := s.corrOk epoch d
  let s := s.timMod (fun t => { t with prev := some (epoch, d) })
  if !good then s.wrN .TIM TIM_CORR_REJ (satAdd 0xFFFFFFFF (s.rdN .TIM TIM_CORR_REJ) 1)
  else
    let st := s.timState
    let s := if st = 2 ∨ st = 4 then s.timRate d epoch else s
    let acc := s.rdN .TIM TIM_CORR_ACC
    let s := s.timMod (fun t => { t with accEpoch := some epoch, acc0 := acc, acceptAt := some s.clk.up })
    if st ≤ 1 then s.timFirst d else s.timApply d

/-- TIM_CORR_GO (R231). -/
def execTimCorrGo (v : Word) (s : State) : Res := ok (s.corrGo v)

/-- TIME_SLEW_END (R234): the slew is complete; at 10 ppm it takes 100,000 ns for each ns. -/
def execTimeSlewEnd (s : State) : Res :=
  if s.tim.slew = 0 then ok s
  else
    let s := if s.tim.dk = 0 then s.passTo (s.now + (s.tim.slew.natAbs * 100000 + s.tim.slew).toNat) else s
    ok (s.timMod (fun t => { t with slew := 0, slewFrac := 0 })).timShow

/-- A HOLDOVER_TEST that waited for an adjustment starts (R235). -/
def State.timTestGo (s : State) : State :=
  if s.tim.testWait then (s.timMod (fun t => { t with testWait := false })).setBit .TIM TIM_STATUS 7 true else s

/-- The adjustment ends without a TIME_STEP: what it has not removed stays an offset (R235, R470). -/
def State.timLost (s : State) : State :=
  ((s.timMod (fun t => { t with left := t.left + t.rest + t.extra.getD 0, dk := 0, rest := 0, total := 0, extra := none, lost := false })).timSet
    3).timTestGo

/-- HOLD_AFTER in ns (Table 9-14). -/
def State.holdAfter (s : State) : Nat := clampN 1 10 (s.f .TIM TIM_CFG 11 8) * sec

/-- HOLD_AFTER_EXPIRED (R235, R236): HOLD_AFTER after the last accepted correction the state becomes HOLDOVER, at the end of the
adjusted period where one is in progress. -/
def execHoldAfterExpired (s : State) : Res :=
  let late := fun (s : State) => s.pass (s.tim.acceptAt.getD s.clk.up + s.holdAfter - s.clk.up)
  match s.timState with
  | 2 => ok ((late s).timSet 3)
  | 4 =>
    let s := late s
    if s.tim.dk ≠ 0 then ok (s.timMod (fun t => { t with lost := true })) else ok s.timLost
  | _ => ok s

/-- The adjustment ends (R234): TIM_LAST_STEP, TIME_STEP, LOCKED; then what was accepted meanwhile is applied. -/
def State.timStep (s : State) : State :=
  let s := s.wr .TIM TIM_LAST_STEP (wordI (clampI (-0x80000000) 0x7FFFFFFF s.tim.total))
  let s := (s.incF .TIM TIM_STATS 31 16 1).event .TIM 2
  let extra := s.tim.extra
  let s := (s.timMod (fun t => { t with dk := 0, rest := 0, total := 0, extra := none })).timSet 2
  let s := match extra with
    | some d => if d = 0 then s else s.timApply (d * 65536)
    | none => s
  s.timTestGo

/-- A period of the adjustment ends, or the corrections were lost during it (R234, R235). -/
def State.timPeriod (s : State) : State :=
  if s.tim.dk = 0 then s
  else if s.tim.lost then s.timLost
  else if s.tim.rest = 0 then s.timStep
  else s.timMod (fun t => { t with dk := 0 })

/-- The next period of an adjustment begins at a whole second: at most 0.5 s of it. -/
def State.timNext (s : State) : State :=
  if s.timState = 4 ∧ s.tim.dk = 0 then
    s.timMod (fun t => let k := clampI (-(sec / 2 : Nat)) (sec / 2 : Nat) t.rest; { t with dk := k, rest := t.rest - k, perEl := 0 })
  else s

/-- Time passes to the next device-time whole second that has not been taken yet. -/
def State.toSecond (s : State) : State :=
  if s.now % sec = 0 ∧ s.tim.second ≠ some (s.now / sec) then s else s.passTo (s.now + (sec - s.now % sec))

/-- TIME_STEP (R234): the last adjusted period ends at the next whole second. -/
def execTimeStep (s : State) : Res :=
  if s.tim.dk ≠ 0 ∧ s.tim.rest = 0 ∧ s.tim.lost = false then ok s.toSecond.timStep else ok s

/-! ## PPS_OUT and the time message (R238, R395) -/

/-- The controller of the time message. -/
def State.tmsgCan (s : State) : Nat := s.f .TIM TIM_CFG 6 4

/-- The time message of a pulse (R238). -/
def State.timeMessage (s : State) : CanFrame :=
  { id := wordN (2 ^ 31 + s.f .TIM TIM_TMSG_ID 28 0), fmt := wordN (8 * 2 ^ 16), time := 0
    data := leBytes 5 (s.now / sec) ++
      leBytes 1 (s.timState + 8 * b2n (s.timState == 3) + 16 * b2n (s.tim.dk != 0)) ++ leBytes 2 (min (s.timAcc / 10) 0xFFFF) }

/-- PPS_OUT has fallen after the last pulse, 100 ms after it rose (R238). -/
def State.ppsFell (s : State) : Bool := match s.tim.pulseAt with | some t => decide (t + 100000000 ≤ s.now) | none => true

/-- The waiting time message goes to MB127 of its controller from the pulse's falling edge on, when that is started and free (R238,
R395). -/
def State.tmsgQueue (s : State) : State :=
  match s.tim.msg with
  | none => s
  | some f =>
    let n := s.tmsgCan
    if s.ppsFell && s.canStarted n && !s.mbBit (CAN_CH_TXREQ n 0) 127 then
      let s := (s.mbStore n 127 f).setF .CAN (CAN_MB n 127 0) 31 30 2
      (s.timMod (fun t => { t with msg := none })).canRequest n 3 (wordN (2 ^ 31))
    else s

/-- The waiting time message is queued at last, else dropped and counted (R238). -/
def State.tmsgLast (s : State) : State :=
  let s := s.tmsgQueue
  if s.tim.msg.isSome then (s.timMod (fun t => { t with msg := none })).incF .TIM TIM_STATS 15 0 1 else s

/-- TIME_MESSAGE_DROP (R238): a message not queued within 500 ms of the pulse's falling edge is dropped and counted. -/
def execTimeMessageDrop (s : State) : Res :=
  match s.tim.pulseAt with
  | some t => if s.tim.msg.isSome then ok (s.passTo (t + 600000000)).tmsgLast else ok s
  | none => ok s.tmsgLast

/-- A pulse, in a pulsing state at or after the first second that may pulse; the time message waits for its falling edge with
TMSG_EN. -/
def State.pulse (s : State) : State :=
  if s.ppsOn && decide (s.tim.ppsFrom ≤ s.now) then
    let s := (s.timMod (fun t => { t with pulseAt := some s.now })).event .TIM 3
    if s.bit .TIM TIM_CFG 1 then s.timMod (fun t => { t with msg := some s.timeMessage }) else s
  else s

/-- PPS (R234, R238): the next device-time whole second. -/
def execPps (s : State) : Res :=
  let s := s.toSecond.tmsgLast.timPeriod.timNext
  ok (s.timMod (fun t => { t with second := some (s.now / sec) })).pulse

/-- The level of PPS_OUT: high for 100 ms from a pulse. -/
def State.ppsOut (s : State) : Bool :=
  match s.tim.pulseAt with
  | some t => !s.tim.low && decide (s.now < t + 100000000)
  | none => false

/-! ## Time marks (R239, R413) -/

/-- TMARK (R239): an edge is stamped in device time, within 10 ns, or dropped when the FIFO is full. -/
def execTmark (t : Nat) (s : State) : Res :=
  let t := clampN (s.now - 10) (s.now + 10) t
  if s.tim.marks.length < 16 then ok ((s.timMod (fun x => { x with marks := x.marks ++ [t] })).event .TIM 4)
  else ok ((s.incF .TIM TIM_TMARK_CNT 31 16 1).event .TIM 5)

/-- A read of TIM_TMARK_LO latches the oldest stamp; 0 from an empty FIFO. -/
def State.markLo (s : State) : Word × State :=
  match s.tim.marks with
  | [] => (0, s)
  | m :: _ => (wordN m, s.timMod (fun t => { t with mark := some m }))

/-- TMARK_LO_READ (R239). -/
def execTmarkLoRead (s : State) : Res := ok (s.markLo.2.putResp (.word s.markLo.1))

/-- A read of TIM_TMARK_HI answers the latched stamp's [63:32] and removes it. -/
def State.markHi (s : State) : Word × State :=
  match s.tim.mark with
  | none => (0, s)
  | some m => (wordN (m / 2 ^ 32), (s.timMod (fun t => { t with mark := none, marks := t.marks.drop 1 })).partClear 48)

/-- TMARK_HI_READ (R239). -/
def execTmarkHiRead (s : State) : Res := ok (s.markHi.2.putResp (.word s.markHi.1))

/-- CLEAR_TMARK (Table 9-17). -/
def execClearTmark (s : State) : Res :=
  ok (s.command .TIM 1 fun _ s =>
    done (((s.timMod (fun t => { t with marks := [], mark := none })).partClear 48).setF .TIM TIM_TMARK_CNT 31 16 0) .ok)

/-! ## Commands and the grandmaster -/

/-- HOLDOVER_TEST (Table 9-17, R235): in SERVICE corrections are rejected for the duration; one that meets an adjustment
starts when it ends. -/
def execHoldoverTest (s : State) : Res :=
  ok (s.command .TIM 2 fun a s =>
    if s.mode ≠ 5 then refuse s .refusedMode
    else if (arg a 0).toNat < 10 ∨ 3600 < (arg a 0).toNat then refuse s .badHeader
    else if s.timState = 4 then (s.timMod (fun t => { t with testWait := true }), none)
    else (s.setBit .TIM TIM_STATUS 7 true, none))

/-- The running HOLDOVER_TEST ends. -/
def State.holdTestEnd (s : State) (r : Result) : State :=
  ((s.timMod (fun t => { t with testWait := false })).setBit .TIM TIM_STATUS 7 false).cmdEndIf .TIM 2 r

/-- HOLDOVER_TEST_END (R235): the duration runs out. -/
def execHoldoverTestEnd (s : State) : Res := if s.bit .TIM TIM_STATUS 7 then ok (s.holdTestEnd .ok) else ok s

/-- A mode left: leaving SERVICE ends a HOLDOVER_TEST with ABORTED. -/
def State.timMode (s : State) (new : Nat) : State :=
  if (s.mailOf .TIM).code = 2 ∧ new ≠ 5 then s.holdTestEnd .aborted else s

/-- CLEAR_STATS (Table 9-17). -/
def execTimClearStats (s : State) : Res :=
  ok (s.command .TIM 3 fun _ s => done ((s.wrN .TIM TIM_STATS 0).wrN .TIM TIM_CORR_REJ 0) .ok)

/-- GM_CHG (R240): the best-master selection chooses the module or another grandmaster; a change is raised. -/
def execGmChg (other : Option (Nat × Int)) (s : State) : Res :=
  let s' := s.timMod (fun t => { t with gm := other })
  if s.tim.gm.map Prod.fst = other.map Prod.fst then ok s' else ok (s'.event .TIM 6)

/-! ## Start-up (R229, R230) -/

/-- The time base at a power-on: it counts from 0 in NOT_VALID with every register at its reset value. -/
def State.timPowerOn (s : State) : State :=
  ((s.resetWindow .TIM (fun _ => false)).putNow 0).putTim {}

/-- Step 5 of a power-on start-up seeds device time from the time record and the off-time in seconds (R230). -/
def State.timSeed (s : State) (off : Option Nat) : State :=
  match s.nv.time, off with
  | some (t, _), some k =>
    let s := s.putNow (max s.now (t + k * 99975 / 100000 * sec))
    let s := s.timMod (fun x => { x with seedAcc := 500000 * k + 2 * sec, seedAt := s.clk.up })
    (s.timSet 1).event .TIM 1
  | _, _ => s

end Sys2Proof.Machine
end

