-- ==== Sys2Proof/Machine/Tabletop.lean ====
section
/-! DEFINITION. The Tabletop (R241–R277): sensor slots and samples, alignment banks, the vote, cycles, tracks, crop-state
outputs and the result block. -/

namespace Sys2Proof.Machine

/-! ## The grid and Tabletop SRAM (Table 10-1) -/

/-- A grid buffer. -/
def gridBase (b : Bool) : Nat := if b then tblBase + 0x1000000 else tblBase
/-- A result block. -/
def resultBase (b : Bool) : Nat := if b then tblBase + 0x2010000 else tblBase + 0x2000000
/-- The GX descriptor table. -/
abbrev gxBase : Nat := tblBase + 0x2020000
/-- Alignment bank `b` of a slot. -/
def alignBase (n : Nat) (b : Bool) : Nat := tblBase + 0x2030000 + (2 * n + b2n b) * 0x10000

/-- The sector of a cell (R243). -/
def sectorOf (x y : Nat) : Nat := 16 * (y / 32) + x / 32

/-- The active alignment bank of a slot. -/
def State.alignActive (s : State) (n : Nat) : Bool := s.bit .TBL (TBL_SLOT_BANK n) 0

/-! ## Configuration as read at TBL_START -/

/-- A slot's record. -/
def State.tslot (s : State) (n : Nat) : TblSlot := s.tbl.slot.get {} n

/-- A slot's record changed. -/
def State.tslotMod (s : State) (n : Nat) (f : TblSlot → TblSlot) : State :=
  s.putTbl { s.tbl with slot := s.tbl.slot.mod {} n f }

/-- The Tabletop runs. -/
def State.tblRun (s : State) : Bool := s.bit .TBL TBL_STATUS 0
/-- TBL_START is in progress. -/
def State.tblStarting (s : State) : Bool := s.bit .TBL TBL_STATUS 1
/-- TBL_STATUS.UNCHECKED, the class of the last TBL_START (R261, R300). -/
def State.tblUnchecked (s : State) : Bool := s.bit .TBL TBL_STATUS 3

/-- PROG_CH_FIRST, 1–64. -/
def Tbl.progFirst (t : Tbl) : Nat := clampN 1 64 (fld t.cfg 22 16)
/-- PHASE in ms. -/
def Tbl.phase (t : Tbl) : Nat := min 49 (fld t.cfg 13 8)
/-- MISS_MAX. -/
def Tbl.missMax (t : Tbl) : Nat := clampN 1 20 (fld t.cfg 4 0)
/-- GATE. -/
def Tbl.gate (t : Tbl) : Nat := max 1 (fld t.track 7 0)
/-- NEW_CONF. -/
def Tbl.newConf (t : Tbl) : Nat := fld t.track 15 8
/-- A slot was enabled at TBL_START. -/
def Tbl.enabled (t : Tbl) (n : Nat) : Bool := t.slots.testBit n
/-- KIND of a slot's configuration word: 0 camera, 1 lidar, 2 crop sensor. -/
def slotKind (cfg : Word) : Nat := min 2 (fld cfg 9 8)

/-! ## Alignment banks (R257–R260) -/

/-- A value lies within 10^−6 of an integer. -/
def nearInt (v k : Int) : Bool := decide ((v - k * 2 ^ 149).natAbs * 1000000 ≤ 2 ^ 149)

/-- The binary32 values from an offset of a bank. -/
def bankFloats (bs : List Byte) (o n : Nat) : List (Option Int) :=
  (upto n).map (fun i => f32Fix (leNat ((bs.drop (o + 4 * i)).take 4)))

/-- The check of an alignment bank for a slot of a KIND (R259). -/
def alignCheck (kind : Nat) (bs : List Byte) : Result :=
  if crc32c (bs.take 0xFFFC) ≠ leNat (bs.drop 0xFFFC) then .badBlock
  else
    let tr := bankFloats bs 0 16
    let heights := (upto 4096).map (fun i => toSigned 16 (leNat ((bs.drop (0x6100 + 2 * i)).take 2)))
    let bottom := (tr.drop 12).zip [0, 0, 0, 1]
    if tr.contains none || (bankFloats bs 0x100 6144).contains none ||
        bottom.any (fun p => !nearInt (p.1.getD 0) p.2) ||
        ((bs.getD 0x40 0).toNat.testBit 0 != (kind == 0)) ||
        heights.any (fun h => decide (h < -10000) || decide (10000 < h)) then .badHeader
    else .ok

/-- The bytes of an alignment bank. -/
def State.alignBytes (s : State) (n : Nat) (b : Bool) : List Byte := s.rdBytes (alignBase n b) 0x10000

/-- The first refusal of a list of results; OK where none refuses. -/
def firstRefusal : List Result → Result
  | [] => .ok
  | .ok :: t => firstRefusal t
  | r :: _ => r

/-- Section 0x06 is written into bank 0 of each slot, which becomes the active one (R257). -/
def State.alignLoad (s : State) (p : List Byte) : State :=
  s.each (upto 16) (fun s n =>
    (s.engStore (alignBase n false) ((Config.alignTable p n).take 0x10000)).wrN .TBL (TBL_SLOT_BANK n) (s.rdN .TBL (TBL_SLOT_BANK n) / 2 * 2))

/-- Entry `i` of a bank's extrinsic transform, row-major, or of its remap table, in units of 2^−149. -/
def bankFix (bs : List Byte) (o i : Nat) : Int := (f32Fix (leNat ((bs.drop (o + 4 * i)).take 4))).getD 0

/-- The ground at a cell's centre in the machine frame, in mm, under a bank's height table (R241, Table 10-3). -/
def groundPoint (bs : List Byte) (x y : Nat) : Int × Int × Int :=
  ((2 * (x : Int) - 255) * 50, (2 * (y : Int) - 511) * 50, toSigned 16 (leNat ((bs.drop (0x6100 + 2 * (y / 8 * 64 + x / 8))).take 2)))

/-- Entry (i, j) of the adjugate of a 3 × 3 matrix. -/
def adjugate (m : Nat → Nat → Int) (i j : Nat) : Int :=
  let a := fun p q => m ((j + p) % 3) ((i + q) % 3)
  a 1 1 * a 2 2 - a 1 2 * a 2 1

/-- A point of the machine frame, in mm, in a sensor's frame: its coordinates but for one positive factor (R258). -/
def sensorPoint (bs : List Byte) (p : Int × Int × Int) : Int × Int × Int :=
  let m := fun i j => bankFix bs 0 (4 * i + j)
  let d := fun i => 2 ^ 149 * (match i with | 0 => p.1 | 1 => p.2.1 | _ => p.2.2) - 1000 * m i 3
  let det := m 0 0 * adjugate m 0 0 + m 0 1 * adjugate m 1 0 + m 0 2 * adjugate m 2 0
  let c := fun i => det.sign * (adjugate m i 0 * d 0 + adjugate m i 1 * d 1 + adjugate m i 2 * d 2)
  (c 0, c 1, c 2)

/-- The ray (a/c, b/c) lies in the quadrangle of four rays, in units of 2^−149, taken in order. -/
def rayWithin (a b c : Int) (q : List (Int × Int)) : Bool :=
  let side := (q.zip (q.drop 1 ++ q.take 1)).map (fun (e : (Int × Int) × (Int × Int)) =>
    (e.2.1 - e.1.1) * (2 ^ 149 * b - e.1.2 * c) - (e.2.2 - e.1.2) * (2 ^ 149 * a - e.1.1 * c))
  side.all (fun v => decide (0 ≤ v)) || side.all (fun v => decide (v ≤ 0))

/-- The four remap rays around the square (r, c) between entries of a remap table. -/
def remapSquare (bs : List Byte) (r c : Nat) : List (Int × Int) :=
  [(r, c), (r, c + 1), (r + 1, c + 1), (r + 1, c)].map (fun (k : Nat × Nat) =>
    let i := 2 * (k.1 * 64 + k.2)
    (bankFix bs 0x100 i, bankFix bs 0x100 (i + 1)))

/-- A cell receives a slot's projection under a bank (R258): a camera's where the ray from its ground point to the camera is one of the
remap table; another's by the extrinsic transform alone. -/
def cellReceives (kind : Nat) (bs : List Byte) (x y : Nat) : Bool :=
  if kind = 0 then
    let p := sensorPoint bs (groundPoint bs x y)
    decide (0 < p.2.2) && (upto 47).any (fun r => (upto 63).any (fun c => rayWithin p.1 p.2.1 p.2.2 (remapSquare bs r c)))
  else Config.slotReaches kind (bs.take 64) x y

/-- A slot covers a sector: at least 512 of its cells receive the slot's projection (R260). -/
def sectorCovered (kind : Nat) (bs : List Byte) (q : Nat) : Bool :=
  decide (512 ≤ ((upto 1024).filter (fun i => cellReceives kind bs (q % 16 * 32 + i % 32) (q / 16 * 32 + i / 32))).length)

/-- The coverage of a slot under its active bank (R260). -/
def State.coverSlot (s : State) (n : Nat) : State :=
  let bs := s.alignBytes n (s.alignActive n)
  let k := slotKind (s.tslot n).cfg
  let on := (upto 256).filter (fun q => s.tbl.enabled n && sectorCovered k bs q)
  let s := s.each (upto 256) (fun s q =>
    (s.putTbl { s.tbl with cover := s.tbl.cover.set false (n * 256 + q) (on.contains q) }))
  s.setF .TBL (TBL_SLOT_STATUS n) 8 0 on.length

/-- Trust forgotten for a slot in every sector (R260). -/
def State.trustSlot (s : State) (n : Nat) : State :=
  (s.putTbl { s.tbl with trust := s.tbl.trust.keep (fun k => k / 256 != n) }).setF .TBL (TBL_SLOT_STATUS n) 24 16 0

/-- A swap of the alignment banks of a mask of slots takes effect (R259, R260). -/
def State.alignSwap (s : State) (mask : Nat) : State :=
  let s := s.each (bitsOf mask 16) (fun s n =>
    let s := (s.setBit .TBL (TBL_SLOT_BANK n) 0 (!s.alignActive n)).setBit .TBL (TBL_SLOT_BANK n) 2 false
    (s.coverSlot n).trustSlot n)
  (s.putTbl { s.tbl with swap := none }).event .TBL 8

/-! ## Samples (R251–R256) -/

/-- NOM_DELAY of a slot in ns. -/
def nomDelay (cfg : Word) : Nat := min 200 (fld cfg 7 0) * 1000000

/-- A staging buffer that neither the slot's latest sample nor the cycle in progress holds (R251). -/
def State.stageFree (s : State) (n : Nat) : Nat :=
  let used := (if (s.tslot n).latest.isSome then [(s.tslot n).buf] else []) ++
    (match s.tbl.cyc with | some c => [(c.stamps.getD n (none, 0)).2] | none => [])
  ((upto 3).find? (fun b => !used.contains b)).getD 0

/-- The address of a staging buffer, by the base read at TBL_START (R251). -/
def State.stageAddr (s : State) (n b : Nat) : Nat := s.tbl.stage + n * (6 * mib) + b * (2 * mib)

/-- An address lies in the staging area of an enabled slot. -/
def Tbl.staged (t : Tbl) (a : Nat) : Bool :=
  decide (t.stage ≤ a) && decide (a < 0x3E0000000) && decide ((a - t.stage) / (6 * mib) < 16) && t.enabled ((a - t.stage) / (6 * mib))

/-- The staging areas of the enabled slots are cleared (R275). -/
def State.stageClear (s : State) : State :=
  let s := s.putMem (s.mem.keep (fun a => !s.tbl.staged a))
  (s.putPoison (s.poison.keep (fun g => !s.tbl.staged g))).poisonShow

/-- A slot's encoder holds the sample of a stamp: a camera slot's the frame on its camera's encoder output that it has not finished yet,
with its SOF time (R200, R251), another's an external sample (R256). -/
def State.slotHolds (s : State) (n : Nat) (stamp : Int) : Bool :=
  if n < 8 then
    match s.cam.enc.get none n with
    | some f => decide (stamp = f.sof) && (s.tslot n).frame != some f.no
    | none => false
  else (s.tslot n).enc.contains stamp

/-- A sample has arrived after a cut at or before which its instant lies (R253). -/
def State.sampleLate (s : State) (n : Nat) (stamp : Int) : Bool :=
  match s.tbl.lastCut with
  | some c => decide (stamp + (nomDelay (s.tslot n).cfg : Int) ≤ (c : Int))
  | none => false

/-- A late sample is counted and reported (R253). -/
def State.sampleCount (s : State) (n : Nat) (stamp : Int) : State :=
  if s.sampleLate n stamp then
    (s.wrN .TBL (TBL_SLOT_LATE n) (satAdd 0xFFFFFFFF (s.rdN .TBL (TBL_SLOT_LATE n)) 1)).eventSrc .TBL 3 n
  else s

/-- SAMPLE_ARRIVE (R252–R254). -/
def execSampleArrive (n : Fin 16) (stamp : Int) (data : List Byte) (s : State) : Res :=
  let v := s.tslot n.val
  if (s.tblRun || s.tblStarting) && s.tbl.enabled n.val && s.slotHolds n.val stamp then
    let b := s.stageFree n.val
    let s := s.engStore (s.stageAddr n.val b) (data.take (2 * mib))
    let s := s.wrN .TBL (TBL_SLOT_SAMPLES n.val) (satAdd 0xFFFFFFFF (s.rdN .TBL (TBL_SLOT_SAMPLES n.val)) 1)
    let s := s.tslotMod n.val (fun v =>
      { v with enc := v.enc.erase stamp, silent := false, frame := (s.cam.enc.get none n.val).map (fun f => f.no) })
    let s := s.sampleCount n.val stamp
    let old := match v.latest with | some l => decide (stamp < l) | none => false
    if old then ok (s.incF .TBL (TBL_SLOT_ERR n.val) 31 16 1)
    else ok ((s.tslotMod n.val (fun v => { v with latest := some stamp, buf := b })).setBit .TBL (TBL_SLOT_BANK n.val) 6 false)
  else ok s

/-- SLOT_SILENT (R254): once, and again only after the slot's next sample. -/
def execSlotSilent (n : Fin 16) (s : State) : Res :=
  if (s.tblRun || s.tblStarting) && s.tbl.enabled n.val && !(s.tslot n.val).silent then
    ok ((s.tslotMod n.val (fun v => { v with silent := true })).eventSrc .TBL 7 n.val)
  else ok s

/-- A discard counted in a slot's error count. -/
def State.slotErr (s : State) (n : Nat) : State := s.incF .TBL (TBL_SLOT_ERR n) 15 0 1

/-- A sample in reassembly is discarded, counted and reported (R256). -/
def State.sampleDiscard (s : State) (n : Nat) : State :=
  ((s.tslotMod n (fun v => { v with asm := none })).slotErr n).eventSrc .TBL 11 n

/-- EXT_ERR (R256): 100 ms after the first fragment, an incomplete sample is discarded. -/
def execExtErr (n : Fin 16) (s : State) : Res :=
  if (s.tslot n.val).asm.isSome then ok (s.sampleDiscard n.val) else ok s

/-- The payloads of a sample's fragments in order, once every one has arrived. -/
def TblAsm.whole (a : TblAsm) : Option (List Byte) :=
  let ps := (upto a.frags).map (fun i => SMap.find a.parts.cells i)
  if ps.contains none then none else some (ps.flatMap (fun p => (p.getD []).drop 32))

/-- An accepted fragment enters reassembly (R256). -/
def State.fragment (s : State) (n : Nat) (d : List Byte) : State :=
  let le := fun o k => leNat ((d.drop o).take k)
  let fresh : TblAsm := { seq := le 4 4, stamp := le 8 8, frags := le 18 2, length := le 24 4, crc := le 28 4
                          parts := SMap.empty }
  let later := match (s.tslot n).asm with | some a => decide (a.seq < fresh.seq) | none => false
  let s := if later then s.sampleDiscard n else s
  let a := ((s.tslot n).asm).getD fresh
  if a.seq ≠ fresh.seq then s
  else
    let a := { a with parts := a.parts.set [] (le 16 2) d }
    match a.whole with
    | none => s.tslotMod n (fun v => { v with asm := some a })
    | some p =>
      if p.length < a.length ∨ crc32c (p.take a.length) ≠ a.crc then s.sampleDiscard n
      else
        let t : Int := (a.stamp : Int) - 315964819000000000 - (s.timView TIM_GPTP_OFFSET).toInt
        s.tslotMod n (fun v => { v with asm := none, enc := v.enc ++ [t] })

/-- A datagram carries less than its header claims: LENGTH bytes in FRAGS fragments, of which the others hold 1,440 at most (R255). -/
def fragShort (d : List Byte) : Bool :=
  let le := fun o k => leNat ((d.drop o).take k)
  decide (d.length < 32) || decide (d.length - 32 + (le 18 2 - 1) * 1440 < le 24 4)

/-- SLOT_FRAGMENT (R255, Table 10-2): a datagram is discarded in the slot that it names, if it names one. -/
def execSlotFragment (d : List Byte) (s : State) : Res :=
  let le := fun o k => leNat ((d.drop o).take k)
  let n := le 3 1
  if d.length < 4 ∨ 15 < n then ok s
  else if n < 8 then ok (s.slotErr n)
  else
    let v := s.tslot n
    let good := (s.tblRun || s.tblStarting) && le 0 2 == 0x7B5A && le 2 1 == 1 && s.tbl.enabled n &&
      le 20 1 == slotKind v.cfg && !fragShort d
    if good then ok (s.fragment n d) else ok (s.slotErr n)

/-! ## The vote (R262–R265) -/

/-- The distance of two summaries: the sum of the absolute differences of their 8 INT8 values (R262). -/
def sumDist (a b : BitVec 64) : Nat :=
  ((upto 8).map (fun i => (toSigned 8 (dfld a.toNat (8 * i + 7) (8 * i)) -
    toSigned 8 (dfld b.toNat (8 * i + 7) (8 * i))).natAbs)).sum

/-- The subsets of a list, those holding its head first. -/
def subsets : List Nat → List (List Nat)
  | [] => [[]]
  | a :: t => (subsets t).map (fun l => a :: l) ++ subsets t

/-- The members of a set agree pairwise. -/
def pairwiseAgree (agree : Nat → Nat → Bool) : List Nat → Bool
  | [] => true
  | a :: t => t.all (agree a) && pairwiseAgree agree t

/-- The longest of a list of sets, the first among equals. -/
def longest : List (List Nat) → List Nat
  | [] => []
  | a :: t => if (longest t).length ≤ a.length then a else longest t

/-- M: the largest subset of T whose members agree pairwise; among equals, that holding the lowest slot. -/
def largestAgreeing (agree : Nat → Nat → Bool) (t : List Nat) : List Nat :=
  longest ((subsets t).filter (pairwiseAgree agree))

/-- The decision of R263 on a trusted set: the state, and M where a majority vote applied. -/
def decideSector (dist : Nat → Nat → Nat) (agreeTol contraTol : Nat) (t : List Nat) : Nat × Option (List Nat) :=
  match t with
  | [] => (0, none)
  | [_] => (1, none)
  | [a, b] => (if contraTol < dist a b then 3 else 2, none)
  | _ =>
    let m := largestAgreeing (fun a b => decide (dist a b ≤ agreeTol)) t
    if t.length < 2 * m.length then (2, some m) else (3, none)

/-- A set of slots as a mask. -/
def maskOf (l : List Nat) : Nat := (l.map (fun i => 2 ^ i)).sum

/-- A slot's trust in a sector. -/
def State.trustOf (s : State) (n q : Nat) : TblTrust := s.tbl.trust.get {} (n * 256 + q)

/-- The slots that cover a sector and are not ABSENT. -/
def State.voters (s : State) (q : Nat) : List Nat :=
  (upto 16).filter (fun n => s.tbl.cover.get false (n * 256 + q) && (s.tslot n).latest.isSome)

/-- A voted-out slot's count of agreeing cycles after a cycle that decided on T and perhaps M (R264). -/
def agreeCount (dist : Nat → Nat → Nat) (tol : Nat) (t : List Nat) (m : Option (List Nat)) (n : Nat) (v : TblTrust) : Nat :=
  if (m.getD t).all (fun k => decide (dist n k ≤ tol)) then v.agree + 1 else 0

/-- One sector's cycle in a CHECKED configuration (R263, R264): its decision, the new trust of its voters, and the slots
voted out or back in. -/
def State.voteSector (s : State) (dist : Nat → Nat → Nat) (q : Nat) : TblSec × List (Nat × TblTrust) × List Nat :=
  let tol := fld s.tbl.vote 10 0
  let contra := fld s.tbl.vote 26 16
  let vs := s.voters q
  let t := vs.filter (fun n => !(s.trustOf n q).out)
  let m := (decideSector dist tol contra t).2
  let cnt := fun n => agreeCount dist tol t m n (s.trustOf n q)
  let back := vs.filter (fun n => (s.trustOf n q).out && decide (20 ≤ cnt n))
  let t2 := vs.filter (fun n => !(s.trustOf n q).out || back.contains n)
  let (st, m2) := decideSector dist tol contra t2
  let outv := fun n => match m2 with | some m => t2.contains n && !m.contains n | none => false
  let gone := t2.filter (fun n => outv n && decide (5 ≤ (s.trustOf n q).outN + 1))
  let new := vs.map (fun n =>
    let v := s.trustOf n q
    (n, if gone.contains n then { out := true }
        else if v.out && !back.contains n then { v with agree := cnt n }
        else { out := false, outN := if outv n then v.outN + 1 else 0, agree := 0 : TblTrust }))
  ({ state := st, vote := m2.isSome, out := new.any (fun p => p.2.out), t := maskOf (t2.filter (fun n => !gone.contains n)) },
    new, gone ++ back)

/-- One sector's cycle in an UNCHECKED configuration (R263): no vote. -/
def State.openSector (s : State) (q : Nat) : TblSec :=
  let vs := s.voters q
  { state := if vs.isEmpty then 0 else 1, t := maskOf vs }

/-! ## The cut (R245, Sequence 10-1 steps 1–4) -/

/-- The cycle in progress is abandoned (R247). -/
def State.cycleAbandon (s : State) : State :=
  if s.tbl.cyc.isSome then
    let s := s.putTbl { s.tbl with cyc := none, recent := [] }
    let s := ((s.setBit .TBL TBL_STATUS 6 false).setBit .TBL TBL_STATUS 5 false).incF .TBL TBL_SKIP 31 16 1
    s.event .TBL 2
  else s

/-- The pending swap takes effect, and its ALIGN_SWAP ends with OK (R259). -/
def State.swapTakes (s : State) : State :=
  match s.tbl.swap with
  | some m => (s.alignSwap m).cmdEndIf .TBL 3 .ok
  | none => s

/-- The Tabletop stops (R276); a TBL_STOP that waited ends with OK, and a swap that waits for a cut takes effect (R259). The class
holds until the next TBL_START (R261). -/
def State.tblHalt (s : State) : State :=
  (((s.setBit .TBL TBL_STATUS 0 false).setBit .TBL TBL_STATUS 2 false).cmdEndIf .TBL 2 .ok).swapTakes

/-- A stop that waited for the end of the cycle in progress takes effect. -/
def State.stopIfPending (s : State) : State := s.when (s.bit .TBL TBL_STATUS 2) State.tblHalt

/-- A stop by a mode entry (R276): at once between cycles, else at the end of the cycle; a start in progress ends. -/
def State.tblStopMode (s : State) : State :=
  if s.tblStarting then (s.setBit .TBL TBL_STATUS 1 false).cmdEndIf .TBL 1 .aborted
  else if s.tblRun then
    if s.tbl.cyc.isSome then s.setBit .TBL TBL_STATUS 2 true else s.tblHalt
  else s

/-- A stop by the power-loss declaration (R276), which abandons the cycle in progress. -/
def State.tblStopPower (s : State) : State :=
  let s := (s.setBit .TBL TBL_STATUS 1 false).cmdEndIf .TBL 1 .aborted
  if s.tblRun then s.cycleAbandon.tblHalt else s

/-- The grid as the fusion head leaves the buffer being built: the fusion channels take the head's bytes, 0 in CONTESTED
and EMPTY sectors, and the program channels stay (R242, R250, R265). -/
def State.fuse (s : State) (fused : List (Fin 16777216 × Byte)) (secs : List TblSec) : State :=
  let base := gridBase (!s.tbl.pub)
  let first := s.tbl.progFirst
  let shown := fun (o : Nat) =>
    let c := o / 64
    let st := (secs.getD (sectorOf (c % 512) (c / 512)) {}).state
    decide (o % 64 < first) && (st == 1 || st == 2)
  let s := s.putMem (s.mem.keep (fun a =>
    !(decide (base ≤ a) && decide (a < base + 0x1000000)) || decide (first ≤ (a - base) % 64)))
  s.each fused (fun s p => if shown p.1.val then s.wrB (base + p.1.val) p.2 else s)

/-- The decisions of every sector at a cut. -/
def State.decideAll (s : State) (sums : List (Fin 16 × Fin 256 × BitVec 64)) :
    List (TblSec × List (Nat × TblTrust) × List Nat) :=
  let sumOf := fun (n q : Nat) =>
    ((sums.find? (fun x => x.1.val == n && x.2.1.val == q)).map (fun x => x.2.2)).getD 0
  (upto 256).map (fun q =>
    if s.bit .TBL TBL_STATUS 3 then (s.openSector q, [], [])
    else s.voteSector (fun a b => sumDist (sumOf a q) (sumOf b q)) q)

/-- The cycle's number at a cut, and pending swaps, a TRUST_RESET and the end of TBL_START (R245, R259, R264, R275). -/
def State.cutTakes (s : State) (t : Nat) : State :=
  let s := s.putTbl { s.tbl with num := (s.tbl.num + 1) % 2 ^ 32, lastCut := some t }
  let s := s.swapTakes
  let s := if s.tbl.trustReset then
    (s.each (upto 16) (fun s n => s.trustSlot n)).putTbl { s.tbl with trust := SMap.empty, trustReset := false }
    else s
  if s.tblStarting then
    ((s.setBit .TBL TBL_STATUS 1 false).setBit .TBL TBL_STATUS 0 true).cmdEndIf .TBL 1 .ok
  else s

/-- When the gxrds of the buffer that is built, begun while it was published, have ended (R249). -/
def State.buildHeld (s : State) : Nat := if s.tbl.pub then s.tbl.reads.1 else s.tbl.reads.2

/-- Steps 1 and 2 of the cycle of a cut at `t`: the samples are taken and the sectors decided (Sequence 10-1). -/
def State.cycleCut (s : State) (t : Nat) (sums : List (Fin 16 × Fin 256 × BitVec 64)) : State :=
  let ds := s.decideAll sums
  let trust := (ds.zip (upto 256)).foldl (fun m (d : (TblSec × List (Nat × TblTrust) × List Nat) × Nat) =>
    d.1.2.1.foldl (fun m (p : Nat × TblTrust) => m.set {} (p.1 * 256 + d.2) p.2) m) s.tbl.trust
  let stamps := (upto 16).map (fun n => ((s.tslot n).latest, (s.tslot n).buf))
  let s := s.putTbl { s.tbl with
    recent := []
    cyc := some { num := s.tbl.num, cut := t, stamps := stamps, secs := ds.map (fun d => d.1), trust := trust
                  voted := ds.flatMap (fun (d : TblSec × List (Nat × TblTrust) × List Nat) => d.2.2) } }
  s.setBit .TBL TBL_STATUS 5 true

/-- Steps 3 and 4: the first write to the buffer waits until the gxrds of it end, to S_k + 35 ms at most, where the cycle is abandoned
(R249); then it is fused and the build window opens. -/
def State.cycleFuse (s : State) (t : Nat) (fused : List (Fin 16777216 × Byte)) : State :=
  if t + 35000000 < s.buildHeld then ((s.passTo (t + 35000000)).cycleAbandon).stopIfPending
  else
    let s := s.passTo s.buildHeld
    let s := s.fuse fused (match s.tbl.cyc with | some c => c.secs | none => [])
    (s.setBit .TBL TBL_STATUS 6 true).event .TBL 1

/-- The cut at `t` of R245: a multiple of 50 ms plus PHASE that has not been taken. -/
def State.cutDue (s : State) (t : Nat) : Bool :=
  (s.tblRun || (s.tblStarting && decide (s.tbl.startAt + 10000000 ≤ t))) && decide (s.now ≤ t) && s.tbl.lastCut != some t &&
    t % 50000000 == s.tbl.phase * 1000000

/-- The cut and steps 1 to 4 of its cycle; a cycle that a cut finds unpublished is past its 35 ms and abandoned (R245, R246). -/
def State.cutRun (s : State) (t : Nat) (sums : List (Fin 16 × Fin 256 × BitVec 64)) (fused : List (Fin 16777216 × Byte)) : State :=
  let s := (s.passTo t).cycleAbandon.stopIfPending
  if s.tblRun || s.tblStarting then ((s.cutTakes t).cycleCut t sums).cycleFuse t fused else s

/-- SOLVER_TO (R271): the solver is held past 2 ms, and the cycle's assignment will be completed greedily. -/
def execSolverTo (reached : List (Nat × Nat)) (s : State) : Res :=
  match s.tbl.cyc with
  | none => ok s
  | some c =>
    let s := s.putTbl { s.tbl with cyc := some { c with greedy := some reached } }
    ok ((s.incF .TBL TBL_SKIP 15 0 1).event .TBL 9)

/-! ## Detections and tracks (R268–R273) -/

/-- Insert by a strict order, after what it does not precede. -/
def insertBy {α : Type} (lt : α → α → Bool) (a : α) : List α → List α
  | [] => [a]
  | b :: t => if lt a b then a :: b :: t else b :: insertBy lt a t

/-- A stable sort by a strict order. -/
def sortBy {α : Type} (lt : α → α → Bool) (l : List α) : List α := l.foldr (fun a m => insertBy lt a m) []

/-- The sector of a detection's cell. -/
def detSector (d : TblDet) : Nat := sectorOf (d.cell.val % 512) (d.cell.val / 512)

/-- A detection's x, y and heading. -/
def detZ (d : TblDet) : List Word := [d.x, d.y, d.hdg]

/-- The candidates that enter the cycle, and how many are discarded for number (R268). -/
def entering (secs : List TblSec) (ds : List TblDet) : List TblDet × Nat :=
  let l := ds.filter (fun d => let st := (secs.getD (detSector d) {}).state; st == 1 || st == 2)
  let l := sortBy (fun a b : TblDet => decide (b.conf.toNat < a.conf.toNat) || (a.conf == b.conf && decide (a.cell.val < b.cell.val))) l
  (l.take 256, l.length - 256)

/-- The sector in which a predicted position lies, if it lies on the grid (R241). -/
def sectorAt (p : List Word) : Option Nat :=
  match f32Fix (p.getD 0 0).toNat, f32Fix (p.getD 1 0).toNat with
  | some x, some y =>
    let i := x * 10 / 2 ^ 149 + 128
    let j := y * 10 / 2 ^ 149 + 256
    if 0 ≤ i ∧ i < 512 ∧ 0 ≤ j ∧ j < 512 then some (sectorOf i.toNat j.toNat) else none
  | _, _ => none

/-- The squared distance of a predicted position from the reference point. -/
def range2 (p : List Word) : Option Nat :=
  match f32Fix (p.getD 0 0).toNat, f32Fix (p.getD 1 0).toNat with
  | some x, some y => some (x.natAbs ^ 2 + y.natAbs ^ 2)
  | _, _ => none

/-- A track with its number and its prediction. -/
abbrev Live : Type := Nat × TblTrk × List Word

/-- A live track precedes another in the order of R269. -/
def Live.before (a b : Live) : Bool :=
  let ga := a.2.1.state == 1
  let gb := b.2.1.state == 1
  if ga != gb then gb
  else match range2 a.2.2, range2 b.2.2 with
    | some x, some y => decide (x < y)
    | some _, none => true
    | _, _ => false

/-- The feasible pairs of a track with the detections, by index and cost = round(4 × d²) (R270). -/
def costRow (gate : Nat) (noise : List Word) (p : List Word) (ds : List TblDet) : List (Nat × Nat) :=
  ((upto ds.length).zip ds).filterMap (fun x =>
    let d2 := Config.trackDist p (detZ x.2) noise
    if d2 * 4 ≤ gate * 65536 then some (x.1, (8 * d2 + 65536) / 131072) else none)

/-- The minimum total cost of an assignment, with one assignment that has it: every track and every free detection may
stay unassigned at cost GATE (R270, R271). -/
def bestAssign (gate : Nat) : List (Nat × List (Nat × Nat)) → List Nat → Nat × List (Nat × Nat)
  | [], free => (gate * free.length, [])
  | (t, row) :: rest, free =>
    let skip := bestAssign gate rest free
    (row.filter (fun x => free.contains x.1)).foldl (fun best x =>
      let r := bestAssign gate rest (free.erase x.1)
      if x.2 + r.1 < best.1 then (x.2 + r.1, (t, x.1) :: r.2) else best)
      (gate + skip.1, skip.2)

/-- The pairs of an assignment name each track and each detection at most once, and only feasible pairs. -/
def isAssign (m : List (Nat × List (Nat × Nat))) (a : List (Nat × Nat)) : Bool :=
  decide ((a.map (fun p => p.1)).Nodup) && decide ((a.map (fun p => p.2)).Nodup) &&
    a.all (fun p => m.any (fun r => r.1 == p.1 && r.2.any (fun x => x.1 == p.2)))

/-- The total cost of an assignment. -/
def assignCost (gate : Nat) (m : List (Nat × List (Nat × Nat))) (n : Nat) (a : List (Nat × Nat)) : Nat :=
  (a.map (fun p => ((m.find? (fun r => r.1 == p.1)).bind (fun r => r.2.find? (fun x => x.1 == p.2))).elim 0 (fun x => x.2))).sum
    + gate * (m.length - a.length) + gate * (n - a.length)

/-- An assignment reached so far, completed greedily, lowest cost first (R271). -/
def greedyAssign (m : List (Nat × List (Nat × Nat))) (reached : List (Nat × Nat)) : List (Nat × Nat) :=
  let start := if isAssign m reached then reached else []
  let pairs := m.flatMap (fun r => r.2.map (fun x => (x.2, r.1, x.1)))
  (sortBy (fun a b => decide (a.1 < b.1)) pairs).foldl (fun acc x =>
    if acc.any (fun p => p.1 == x.2.1 || p.2 == x.2.2) then acc else acc ++ [(x.2.1, x.2.2)]) start

/-- The assignment of a cycle: minimal in total cost (`pick`, where it is one), or greedy after a solver timeout. -/
def solve (gate : Nat) (m : List (Nat × List (Nat × Nat))) (n : Nat) (greedy : Option (List (Nat × Nat)))
    (pick : List (Nat × Nat)) : List (Nat × Nat) :=
  match greedy with
  | some r => greedyAssign m r
  | none =>
    let best := bestAssign gate m (upto n)
    if isAssign m pick && assignCost gate m n pick == best.1 then pick else best.2

/-- The value of a binary32 word; 0 where it is not finite. -/
def wordQ (w : Word) : Rat := mkRat ((f32Fix w.toNat).getD 0) (2 ^ 149)

/-- A position and heading in the grid frame after the machine's own motion at TBL_EGO_V (mm/s) and TBL_EGO_W (µrad/s) for `dt` ns, at
constant curvature (R272). -/
def egoMove (x y th : Rat) (dt : Nat) (v w : Int) : Rat × Rat × Rat :=
  let turn := mkRat (w * dt) (10 ^ 15)
  let c := Config.trackCos turn
  let n := Config.trackSin turn
  let px := x - (if w = 0 then mkRat (v * dt) (10 ^ 12) else mkRat (1000 * v) 1 / mkRat w 1 * n)
  let py := y - (if w = 0 then 0 else mkRat (1000 * v) 1 / mkRat w 1 * (1 - c))
  (px * c + py * n, py * c - px * n, th - turn)

/-- The position, heading and speed after `d` s at constant turn rate and acceleration; `straight`: the turn rate is 0 (R272). -/
def ctra (x y th v w a d : Rat) (straight : Bool) : Rat × Rat × Rat × Rat :=
  let end_ := th + w * d
  let c := Config.trackCos th
  let n := Config.trackSin th
  let c' := Config.trackCos end_
  let n' := Config.trackSin end_
  let u := v + a * d
  if straight then
    let l := v * d + a * d * d / 2
    (x + l * c, y + l * n, end_, u)
  else (x + (u * n' - v * n) / w + a * (c' - c) / (w * w), y + (v * c - u * c') / w + a * (n' - n) / (w * w), end_, u)

/-- A track's prediction over `dt` ns: the machine's own motion first, then the filter (R272). -/
def trackPredict (noise : List Word) (k : List Word) (dt : Nat) (v w : Word) : List Word :=
  let q := fun i => wordQ (k.getD i 0)
  let e := egoMove (q 0) (q 1) (q 2) dt v.toInt w.toInt
  let p := ctra e.1 e.2.1 e.2.2 (q 3) (q 4) (q 5) (mkRat dt (10 ^ 9)) (f32Fix (k.getD 4 0).toNat == some 0)
  [Config.trackWord p.1, Config.trackWord p.2.1, Config.trackWord p.2.2.1, Config.trackWord p.2.2.2, k.getD 4 0, k.getD 5 0] ++
    (Config.trackSpread k dt v w noise).take 6

/-- A track's update in a cycle (R272, R273); `inM`: it entered the matrix; `d`: the detection assigned to it. -/
def trackStep (secs : List TblSec) (missMax : Nat) (noise : List Word) (k : TblTrk) (p : List Word) (inM : Bool) (d : Option TblDet) :
    TblTrk :=
  let st := (sectorAt p).map (fun q => (secs.getD q {}).state)
  let fl := b2n (st == some 3 || st == some 0) + 2 * b2n (!inM)
  match d with
  | some d =>
    { k with state := if k.state = 1 then (if 4 ≤ k.age + 1 ∧ k.always then 2 else 1) else 2
             cls := d.cls, hits := satAdd 255 k.hits 1, misses := 0, unassoc := 0, flags := fl, age := k.age + 1
             x := Config.trackUpdate p (detZ d) noise, len := d.len, wid := d.wid, conf := d.conf }
  | none =>
    let miss := k.misses + b2n (inM && (st == some 1 || st == some 2))
    let un := k.unassoc + 1
    if (inM ∧ k.state = 1) ∨ missMax ≤ miss ∨ 40 ≤ un then {}
    else { k with state := if inM ∧ k.state = 2 then 3 else k.state
                  misses := miss, unassoc := un, flags := fl, age := k.age + 1, always := false, x := p }

/-- A track created from an unassigned detection (R273). -/
def trackNew (num : Nat) (noise : List Word) (d : TblDet) : TblTrk :=
  { state := 1, cls := d.cls, born := num, flags := 4, age := 1, x := Config.trackInit (detZ d) noise, len := d.len, wid := d.wid
    conf := d.conf }

/-- New tracks for detections, each at the lowest FREE number; the count of those that find none (R273). -/
def createTracks (num : Nat) (noise : List Word) : List TblDet → SMap TblTrk → SMap TblTrk × Nat
  | [], m => (m, 0)
  | d :: t, m =>
    match (upto 512).find? (fun k => (m.get {} k).state == 0) with
    | some k => createTracks num noise t (m.set {} k (trackNew num noise d))
    | none => let r := createTracks num noise t m; (r.1, r.2 + 1)

/-- The tracks after a cycle, the detections that entered, those discarded, and the tracks not created. -/
def State.trackCycle (s : State) (c : TblCyc) (dets : List TblDet) (pick : List (Nat × Nat)) :
    SMap TblTrk × Nat × Nat × Nat :=
  let (ds, ovf) := entering c.secs dets
  let dt := match s.tbl.last with | some l => min 1000000000 (c.cut - l.1) | none => 0
  let live : List Live := s.tbl.trk.cells.map (fun k =>
    (k.1, k.2, trackPredict s.sys.noise k.2.x dt (s.rd .TBL TBL_EGO_V) (s.rd .TBL TBL_EGO_W)))
  let inM := (sortBy Live.before live).take 256
  let m := inM.map (fun l => (l.1, costRow s.tbl.gate s.sys.noise l.2.2 ds))
  let a := solve s.tbl.gate m ds.length c.greedy pick
  let trk := live.foldl (fun t l =>
    let d := (a.find? (fun p => p.1 == l.1)).bind (fun p => ds[p.2]?)
    t.set {} l.1 (trackStep c.secs s.tbl.missMax s.sys.noise l.2.1 l.2.2 (inM.any (fun x => x.1 == l.1)) d)) s.tbl.trk
  let free := ((upto ds.length).zip ds).filter (fun x => !a.any (fun p => p.2 == x.1))
  let new := (free.map (fun x => x.2)).filter (fun d => decide (s.tbl.newConf ≤ d.conf.toNat))
  let (trk, full) := createTracks c.num s.sys.noise new trk
  (trk, ds.length, ovf, full)

/-! ## Crop-state outputs and the result block (R274, Tables 10-4 to 10-6) -/

/-- The extent of the header across the machine in mm, right end and left end, from the fitted sections. -/
def State.headerEnds (s : State) : Int × Int :=
  let l := (upto 16).filterMap (fun k =>
    let w := s.rd .MAP (MAP_SECT k)
    if fld w 15 0 = 0 then none else some (sfld w 31 16 - (fld w 15 0 : Int), sfld w 31 16))
  match l with
  | [] => (0, 0)
  | a :: t => t.foldl (fun p x => (min p.1 x.1, max p.2 x.2)) a

/-- The region of a crop-state output as x and y ranges in mm (Table 10-5). -/
def State.cropRegion (s : State) (i : Nat) : (Int × Int) × (Int × Int) :=
  let xc := sfld (s.rd .MAP MAP_CUTBAR) 15 0
  let (r, l) := s.headerEnds
  let e := if Config.edgeLeft (s.f .SYS SYS_MODE 10 8) then l else r
  match i with
  | 0 => ((xc + 2000, xc + 10000), (r, l))
  | 1 => ((xc + 2000, xc + 10000), (r, l))
  | 2 => ((xc + 4000, xc + 6000), (e - 3000, e + 3000))
  | 3 => ((xc + 4000, xc + 6000), (e - 3000, e + 3000))
  | 4 => ((xc + 1500, xc + 2500), (r, l))
  | 5 => ((xc + 4500, xc + 5500), (r, l))
  | _ => ((xc + 9500, xc + 10500), (r, l))

/-- The sectors that a region touches. -/
def regionSectors (g : (Int × Int) × (Int × Int)) : List Nat :=
  (upto 256).filter (fun q =>
    let x0 : Int := ((q % 16 : Nat) : Int) * 3200 - 12800
    let y0 : Int := ((q / 16 : Nat) : Int) * 3200 - 25600
    decide (x0 < g.1.2) && decide (g.1.1 < x0 + 3200) && decide (y0 < g.2.2) && decide (g.2.1 < y0 + 3200))

/-- FLAGS of a crop-state output (R274). -/
def State.cropFlags (s : State) (secs : List TblSec) (kat : Bool) (i : Nat) : Nat :=
  let has := fun st => (regionSectors (s.cropRegion i)).any (fun q => (secs.getD q {}).state == st)
  let bad := has 3 || has 0 || kat
  b2n (!bad) + 2 * b2n (has 3) + 4 * b2n (has 1) + 8 * b2n (has 0) + 16 * b2n kat + 32 * b2n (s.bit .TBL TBL_STATUS 3)

/-- The eight bytes of a crop-state output; outputs 7–15 are reserved, with VALID 0. -/
def State.cropEntry (s : State) (secs : List TblSec) (kat : Bool) (crop : List (Int × Byte)) (i : Nat) : List Byte :=
  if 7 ≤ i then leBytes 8 0
  else
    let fl := s.cropFlags secs kat i
    let v := crop.getD i (0, 0)
    leBytes 4 (if fl % 2 = 1 then ofSigned 32 v.1 else 0) ++ leBytes 2 fl ++ [v.2, 0]

/-- The 64 bytes of a track record (Table 10-4). -/
def trackBytes (n : Nat) (k : TblTrk) : List Byte :=
  if k.state = 0 then leBytes 2 n ++ leBytes 62 0
  else
    leBytes 2 n ++ leBytes 1 k.state ++ [k.cls] ++ leBytes 4 k.born ++ leBytes 1 k.hits ++ leBytes 1 (min 255 k.misses) ++
      leBytes 1 (min 255 k.unassoc) ++ leBytes 1 k.flags ++ (upto 12).flatMap (fun i => leBytes 4 (k.x.getD i 0).toNat) ++
      [k.len, k.wid, k.conf, 0]

/-- The byte of a sector's state (Table 10-6). -/
def TblSec.byte (c : TblSec) : Nat :=
  c.state + 4 * b2n c.vote + 8 * b2n c.out + 16 * min 15 (popN 16 c.t)

/-- The result block of a cycle (Table 10-6). -/
def State.resultBlock (s : State) (c : TblCyc) (trk : SMap TblTrk) (kat : Bool) (crop : List (Int × Byte)) (dets : Nat) :
    List Byte :=
  let gap := match s.tbl.last with | some l => l.2 ≠ (c.num + 2 ^ 32 - 1) % 2 ^ 32 | none => false
  let used := maskOf ((upto 16).filter (fun n => (c.stamps.getD n (none, 0)).1.isSome))
  leBytes 4 c.num ++ leBytes 2 (b2n (s.bit .TBL TBL_STATUS 3) + 2 * b2n kat + 4 * b2n gap) ++ leBytes 2 used ++
    leBytes 2 trk.cells.length ++ leBytes 2 dets ++ leBytes 52 0 ++
    (upto 256).flatMap (fun q => leBytes 1 (c.secs.getD q {}).byte) ++
    (upto 256).flatMap (fun q => leBytes 2 (c.secs.getD q {}).t) ++ leBytes 192 0 ++
    (upto 16).flatMap (fun i => s.cropEntry c.secs kat crop i) ++ leBytes 2944 0 ++
    (upto 512).flatMap (fun n => trackBytes n (trk.get {} n)) ++ leBytes 0x7000 0

/-! ## Publication (R246, R266, Sequence 10-1 steps 5–10) -/

/-- The known-answer test of a CHECKED cycle (R266): its count, and what a failure does; program jobs whose unit mask holds
a failed unit are marked, those that ended in the cycle among them (R248). -/
def State.katCheck (s : State) (kat : Nat) : State :=
  let s := s.incF .TBL TBL_KAT 31 16 1
  if kat = 0 then s
  else
    let s := (s.incF .TBL TBL_KAT 15 8 1).setBit .TBL TBL_KAT 7 true
    let jobs := s.tbl.jobs.map (fun (j : TblJob) => { j with failed := j.failed || (j.units &&& kat) != 0 })
    let gone := s.tbl.recent.filter (fun j => (j.2 &&& kat) != 0)
    let s := s.putTbl { s.tbl with jobs := jobs, ended := gone.foldl (fun m j => m.set none j.1 (some 3)) s.tbl.ended }
    s.event .TBL 6

/-- What a slot's registers show of a published cycle. -/
def State.slotShow (s : State) (c : TblCyc) (n : Nat) : State :=
  let st := (c.stamps.getD n (none, 0)).1
  let s := s.setBit .TBL (TBL_SLOT_BANK n) 7 st.isSome
  let s := s.setF .TBL (TBL_SLOT_STATUS n) 24 16 ((upto 256).filter (fun q => (c.trust.get {} (n * 256 + q)).out)).length
  match st with
  | some t =>
    let v := ofSigned 64 t
    (s.wrN .TBL (TBL_SLOT_LAST_LO n) v).wrN .TBL (TBL_SLOT_LAST_HI n) (v / 2 ^ 32)
  | none => s

/-- The numbers of sectors in each state, shown in TBL_SECTORS. -/
def State.sectorsShow (s : State) (secs : List TblSec) : State :=
  let n := fun st => (secs.filter (fun c => c.state == st)).length
  s.wrN .TBL TBL_SECTORS (n 3 * 2 ^ 18 + n 1 * 2 ^ 9 + n 0)

/-- The times shown in TBL_TIMING after a publication. -/
def State.timingShow (s : State) (c : TblCyc) : State :=
  let us := clampN 0 65535 ((s.now - c.cut) / 1000)
  let m := max us (s.f .TBL TBL_TIMING 31 16)
  s.wrN .TBL TBL_TIMING (m * 65536 + us)

/-- The built pair becomes the published one (R246). -/
def State.publish (s : State) (c : TblCyc) (crop : List (Int × Byte)) (dets : List TblDet) (kat : Nat)
    (pick : List (Nat × Nat)) : State :=
  let checked := !s.bit .TBL TBL_STATUS 3
  let s := if checked then s.katCheck kat else s
  let bad := checked && kat != 0
  let (trk, n, ovf, full) := s.trackCycle c dets pick
  let b := !s.tbl.pub
  let s := s.wrBytes (resultBase b) (s.resultBlock c trk bad crop n)
  let nums := if b then (s.tbl.nums.1, c.num) else (c.num, s.tbl.nums.2)
  let s := s.putTbl { s.tbl with
    pub := b, nums := nums, last := some (c.cut, c.num), cyc := none, recent := [], trust := c.trust
    trk := trk }
  let s := (s.incF .TBL TBL_OVF 31 16 ovf).incF .TBL TBL_OVF 15 0 full
  let s := ((s.setBit .TBL TBL_STATUS 4 true).setBit .TBL TBL_STATUS 5 false).setBit .TBL TBL_STATUS 6 false
  let s := ((s.wrN .TBL TBL_CYCLE c.num).sectorsShow c.secs).timingShow c
  let s := s.each (upto 16) (fun s n => s.slotShow c n)
  let s := s.when (!c.voted.isEmpty) (fun s => s.event .TBL 4)
  let s := s.when (c.secs.any (fun x => x.state == 3)) (fun s => s.event .TBL 5)
  let s := s.when (full != 0) (fun s => s.event .TBL 10)
  s.event .TBL 0

/-- The cycle in progress reaches publication once the gxwrs in progress have ended, unless that is later than S_k + 35 ms (R246, R247,
R250). -/
def State.cyclePublish (s : State) (c : TblCyc) (crop : List (Int × Byte)) (dets : List TblDet) (kat : Nat) (pick : List (Nat × Nat)) :
    State :=
  let s := s.passTo (min s.tbl.writes (c.cut + 35000001))
  if c.cut + 35000000 < s.now then s.cycleAbandon.stopIfPending else (s.publish c crop dets kat pick).stopIfPending

/-! ## Commands (Table 10-10) -/

/-- The network of the slot in use of U07 is loaded into Tabletop SRAM (R275). -/
def State.netLoad (s : State) (b : Bool) : State :=
  let dst := tblBase + 0x2400000
  let lo := s.mem.cells.filter (fun c => c.1 < dst)
  let hi := s.mem.cells.filter (fun c => dst + 0xC00000 ≤ c.1)
  s.putMem (⟨lo ++ s.emmc.moved (slotBase 7 b + slotPay 7) 0xC00000 dst ++ hi⟩)

/-- An instance marked SF1 has a Tabletop output bound as a source (R267). -/
def State.sf1Bound (s : State) : Bool :=
  (upto 128).any (fun n => fld (s.lpe.i.get {} n).cfg 31 30 == 1 && (upto 6).any (fun k => fld (s.lpeSrc n k) 31 28 == 5))

/-- What refuses a TBL_START (R247, R259, R261, R262, R267, R275). -/
def State.tblRefusal (s : State) : Result :=
  let en := bitsOf (s.f .TBL TBL_SLOTS 15 0) 16
  let ver := match s.inUse 7 with | some b => s.slotVer 7 b | none => 0
  if (s.mode == 0 && !s.bit .SYS SYS_MODE 7) || s.bit .PWR PWR_STATUS 15 then .refusedMode
  else if en.isEmpty || s.f .TBL TBL_VOTE_CFG 26 16 ≤ s.f .TBL TBL_VOTE_CFG 10 0 then .badHeader
  else match firstRefusal (en.map (fun n => alignCheck (slotKind (s.rd .TBL (TBL_SLOT_CFG n))) (s.alignBytes n (s.alignActive n)))) with
    | .ok =>
      if 400000000000 < Config.netCycle ver ∨ 6000000000000 < Config.netEncoders ver then .noSpace
      else if !Config.netAllows ver (s.f .TBL TBL_SLOTS 15 0) then .incompatible
      else if decide (7 ≤ en.length) && s.sf1Bound then .incompatible
      else .ok
    | r => r

/-- The configuration is read, and tracks, trust, staging and both result blocks are cleared (R275). -/
def State.tblBegin (s : State) : State :=
  let en := s.f .TBL TBL_SLOTS 15 0
  let slots : SMap TblSlot := (upto 16).foldl (fun m n => m.set {} n { cfg := s.rd .TBL (TBL_SLOT_CFG n) }) SMap.empty
  let s := s.putTbl { s.tbl with
    cfg := s.rd .TBL TBL_CFG, slots := en, vote := s.rd .TBL TBL_VOTE_CFG, track := s.rd .TBL TBL_TRACK_CFG
    stage := s.f .TBL TBL_STAGE_BASE_HI 7 0 * 2 ^ 32 + s.f .TBL TBL_STAGE_BASE_LO 31 20 * mib
    startAt := s.now, last := none, lastCut := none, cyc := none, slot := slots, trust := SMap.empty, trk := SMap.empty
    trustReset := false }
  let s := (match s.inUse 7 with | some b => s.netLoad b | none => s).stageClear
  let s := s.each (upto 16) (fun s n => ((s.coverSlot n).trustSlot n).setBit .TBL (TBL_SLOT_BANK n) 6 true)
  let s := s.putMem (s.mem.keep (fun a => !(decide (resultBase false ≤ a) && decide (a < resultBase false + 0x20000))))
  let s := (s.setBit .TBL TBL_STATUS 1 true).setBit .TBL TBL_STATUS 4 false
  s.setBit .TBL TBL_STATUS 3 (decide (7 ≤ (bitsOf en 16).length))

/-- TBL_START (R275): ends with OK at the first cut 10 ms or more after its steps. -/
def execTblStart (s : State) : Res :=
  ok (s.command .TBL 1 fun _ s =>
    if s.tblRun then done s .ok
    else match s.tblRefusal with
      | .ok => (s.tblBegin, none)
      | r => refuse s r)

/-- TBL_STOP (R276): at the end of the cycle in progress, or at once between cycles; OK when stopped. -/
def execTblStop (s : State) : Res :=
  ok (s.command .TBL 2 fun _ s =>
    if s.tblRun && s.tbl.cyc.isSome then (s.setBit .TBL TBL_STATUS 2 true, none)
    else done ((s.setBit .TBL TBL_STATUS 0 false).setBit .TBL TBL_STATUS 2 false) .ok)

/-- ALIGN_SWAP (R259, R277): every named bank is checked; a mask that passes is locked until the next cut, or swaps at
once where the Tabletop is stopped. -/
def execAlignSwap (s : State) : Res :=
  ok (s.command .TBL 3 fun args s =>
    let mask := fld (arg args 0) 15 0
    let kind := fun n => slotKind (if s.tblRun && s.tbl.enabled n then (s.tslot n).cfg else s.rd .TBL (TBL_SLOT_CFG n))
    match firstRefusal ((bitsOf mask 16).map (fun n => alignCheck (kind n) (s.alignBytes n (!s.alignActive n)))) with
    | .ok =>
      if s.tblRun then
        let s := s.each (bitsOf mask 16) (fun s n => s.setBit .TBL (TBL_SLOT_BANK n) 2 true)
        ((s.putTbl { s.tbl with swap := some mask }), none)
      else done (s.alignSwap mask) .ok
    | r => refuse s r)

/-- SWAP_CANCEL of the Tabletop (R259): the pending ALIGN_SWAP that the mask names ends with ABORTED, its banks unlocked. -/
def execTblSwapCancel (s : State) : Res :=
  ok (s.cancel .TBL 4 3 (fun run own => fld (arg run 0) 15 0 &&& fld (arg own 0) 15 0 != 0) fun run s =>
    let s := s.each (bitsOf (fld (arg run 0) 15 0) 16) (fun s n => s.setBit .TBL (TBL_SLOT_BANK n) 2 false)
    (s.putTbl { s.tbl with swap := none }))

/-- TRUST_RESET: permitted in ROAD and SERVICE; takes effect at the next cut. -/
def execTrustReset (s : State) : Res :=
  ok (s.command .TBL 5 fun _ s =>
    if s.mode = 1 ∨ s.mode = 5 then done (s.putTbl { s.tbl with trustReset := true }) .ok
    else refuse s .refusedMode)

/-- CLEAR_COUNTS of the Tabletop. -/
def execTblClearCounts (s : State) : Res :=
  ok (s.command .TBL 6 fun args s =>
    let a := arg args 0
    let s := s.when (bitOf a 0) (fun s => s.each (upto 16) (fun s n =>
      ((s.wrN .TBL (TBL_SLOT_SAMPLES n) 0).wrN .TBL (TBL_SLOT_LATE n) 0).wrN .TBL (TBL_SLOT_ERR n) 0))
    let s := s.when (bitOf a 1) (fun s =>
      ((s.wrN .TBL TBL_TIMING 0).wrN .TBL TBL_SKIP 0).wrN .TBL TBL_OVF 0)
    let s := s.when (bitOf a 2) (fun s => s.wrN .TBL TBL_KAT 0)
    let s := s.when (bitOf a 3) (fun s => s.setBit .TBL TBL_STATUS 7 false)
    done s .ok)

/-- A core reset clears the Tabletop's state (R276); its SRAM keeps its contents. -/
def State.tblCoreReset (s : State) : State := s.putTbl {}

/-! ## What others read of the Tabletop -/

/-- A crop-state output as a loop's source: its value, and whether it is valid (R274); a mode connects the loops to them (Tables 7-1,
7-3): HARVEST, HEADLAND and UNLOAD do. -/
def State.cropSource (s : State) (i : Nat) : Int × Bool :=
  let a := resultBase s.tbl.pub + 0x400 + 8 * i
  let good := (s.mode == 2 || s.mode == 3 || s.mode == 4) && s.tblRun && s.bit .TBL TBL_STATUS 4 && (s.rdB (a + 4)).toNat.testBit 0 && decide (i < 16)
  (toSigned 32 (s.rdLE a 4), good)

/-! ## GX descriptors and tensor jobs (R127, R128, R248–R250) -/

/-- A GX descriptor (Table 5-3). -/
structure GxDesc where
  kind : Nat
  elem : Nat
  build : Bool
  width : Nat
  height : Nat
  chFirst : Nat
  chCount : Nat
  srcStride : Nat
  dstStride : Nat
  prog : Nat
  units : Nat

/-- Descriptor `k` of the table. -/
def State.gxDesc (s : State) (k : Nat) : GxDesc :=
  let le := fun o n => s.rdLE (gxBase + 32 * k + o) n
  { kind := le 0 1, elem := le 1 1, build := (le 2 2).testBit 0, width := le 4 2, height := le 6 2
    chFirst := le 8 2, chCount := le 10 2, srcStride := le 12 4, dstStride := le 16 4, prog := le 20 4, units := le 24 8 }

/-- A descriptor describes a grid window that lies in the channels (Table 5-3). -/
def GxDesc.window (d : GxDesc) : Bool :=
  d.kind == 1 && decide (d.elem ≤ 2) && decide (1 ≤ d.width) && decide (d.width ≤ 512) && decide (1 ≤ d.height) &&
    decide (d.height ≤ 512) && decide (d.chFirst + d.chCount ≤ 64)

/-- The cell column or row `i` of a window whose corner is `c` lies on the grid. -/
def onGrid (c : Int) (i : Nat) : Option Nat := if 0 ≤ c + i ∧ c + i < 512 then some (c + i).toNat else none

/-- Some cell of a window lies outside the grid. -/
def GxDesc.clipped (d : GxDesc) (x y : Int) : Bool :=
  decide (x < 0) || decide (y < 0) || decide (512 < x + d.width) || decide (512 < y + d.height)

/-- The size of an element (Table 5-3). -/
def GxDesc.size (d : GxDesc) : Nat := match d.elem with | 0 => 1 | 1 => 2 | _ => 4

/-- The bytes of one row of a window in memory. -/
def GxDesc.rowLen (d : GxDesc) : Nat := d.width * d.chCount * d.size

/-- A channel's INT8 value as an element. -/
def GxDesc.elemOf (d : GxDesc) (b : Byte) : List Byte :=
  let v := toSigned 8 b.toNat
  match d.elem with
  | 0 => [b]
  | 1 => leBytes 2 (ofSigned 16 v)
  | _ => leBytes 4 ((fmt32 false).ofInt .even v 0).bits

/-- An element as a channel's INT8 value, where INT8 holds it. -/
def GxDesc.byteOf (d : GxDesc) (bs : List Byte) : Option Byte :=
  let small := fun (v : Int) => if -128 ≤ v ∧ v ≤ 127 then some (BitVec.ofInt 8 v) else none
  match d.elem with
  | 0 => bs.head?
  | 1 => small (toSigned 16 (leNat bs))
  | _ => match f32Fix (leNat bs) with
    | some x => if x % 2 ^ 149 = 0 then small (x / 2 ^ 149) else none
    | none => none

/-- The bytes of row `j` of a window as read from a buffer; cells outside the grid read as 0. -/
def State.gxRow (s : State) (d : GxDesc) (b : Bool) (x y : Int) (j : Nat) : List Byte :=
  (upto d.width).flatMap (fun i =>
    match onGrid x i, onGrid y j with
    | some cx, some cy => (s.rdBytes (gridBase b + (cy * 512 + cx) * 64 + d.chFirst) d.chCount).flatMap d.elemOf
    | _, _ => leBytes (d.chCount * d.size) 0)

/-- The channels of one cell from its elements; a value that INT8 does not hold becomes a free value. -/
def State.gxCell (s : State) (d : GxDesc) (a : Nat) (bs : List Byte) : State :=
  s.each (upto d.chCount) (fun s c =>
    match d.byteOf ((bs.drop (c * d.size)).take d.size) with
    | some v => s.store (a + c) [v]
    | none => (s.store (a + c) (leBytes 1 (s.freeNat 256))).drawn)

/-- Row `j` of a window written to a buffer; cells outside the grid are discarded. -/
def State.gxPut (s : State) (d : GxDesc) (b : Bool) (x y : Int) (j : Nat) (bs : List Byte) : State :=
  s.each (upto d.width) (fun s i =>
    match onGrid x i, onGrid y j with
    | some cx, some cy => s.gxCell d (gridBase b + (cy * 512 + cx) * 64 + d.chFirst) (bs.drop (i * d.chCount * d.size))
    | _, _ => s)

/-- The build window is open (R250). -/
def State.buildOpen (s : State) : Bool := s.bit .TBL TBL_STATUS 6

/-- The cycle number and buffer that a gxrd or gxwr acts on. -/
def State.gxBuffer (s : State) (build : Bool) : Bool × Nat :=
  if build then (!s.tbl.pub, match s.tbl.cyc with | some c => c.num | none => 0)
  else (s.tbl.pub, if s.tbl.pub then s.tbl.nums.2 else s.tbl.nums.1)

/-- A ticket: non-zero, and none that another job holds; the spec gives no more (R127). -/
def State.newTicket (s : State) : Nat := (s.tbl.tickets + 1) * 2 ^ 32 + s.freeNat (2 ^ 32)

/-- A job enters the queue under a new ticket; a descriptor that is no tensor job ends at once with BAD_DESC. -/
def State.jobQueue (s : State) (d : GxDesc) (inp out : Nat) : State × Nat :=
  let t := s.newTicket
  let s := s.drawn
  let s := s.putTbl { s.tbl with tickets := s.tbl.tickets + 1 }
  if d.kind = 2 then
    ((s.putTbl { s.tbl with jobs := s.tbl.jobs ++ [{ ticket := t, units := d.units, prog := d.prog, inp := inp, out := out }] }), t)
  else ((s.putTbl { s.tbl with ended := s.tbl.ended.set none t (some 1) }), t)

/-- The status of a ticket: 0xFF while its job runs, 0x04 for a ticket no job has had (R127). In a CHECKED configuration a job counts as
running until the test of the cycle in which it ended is known (R248). -/
def State.ticketStatus (s : State) (t : Nat) : Nat :=
  match s.tbl.ended.get none t with
  | some r => if s.tbl.recent.any (fun j => j.1 == t) then 0xFF else r
  | none => if s.tbl.jobs.any (fun j => j.ticket == t) then 0xFF else 4

end Sys2Proof.Machine
end

