-- ==== Sys2Proof/Machine/Loop.lean ====
section
/-! DEFINITION. The loop engine (LPE): samples, sources, sinks, actions, lowest-wins groups, staged configuration and SWAP
(R278–R301). -/

namespace Sys2Proof.Machine

/-! ## State -/

/-- A group beside its registers. -/
def State.mg (s : State) (g : Nat) : LpeG := s.lpe.g.get {} g

/-- Change a group. -/
def State.mgMod (s : State) (g : Nat) (f : LpeG → LpeG) : State :=
  s.putLpe { s.lpe with g := s.lpe.g.set {} g (f (s.mg g)) }

/-- T is a sample instant of the instance (R278). -/
def LpeI.instant (c : LpeI) (t : Nat) : Bool :=
  let q := schedNs c.period c.phase
  t % q.1 == q.2

/-- GROUP_EN, GROUP and the members of a group among configurations. -/
def cfgGroup (cfg : Word) : Option Nat := if bitOf cfg 12 then some (fld cfg 11 8) else none

/-- The instances whose CFG in force makes them members of group `g`, in their order. -/
def State.members (s : State) (g : Nat) : List Nat := (upto 128).filter (fun n => cfgGroup (s.lp n).cfg == some g)

/-- CFG of an instance at instant `t`: the accepted one where it takes that at this instant and has not yet (R299). -/
def LpeI.cfgAt (c : LpeI) (t : Nat) : Word :=
  match c.take with
  | some x => if c.instant t && c.last != some t then x.1 else c.cfg
  | none => c.cfg

/-- The members of a group at instant `t`, in their order. -/
def State.membersAt (s : State) (g t : Nat) : List Nat := (upto 128).filter (fun n => cfgGroup ((s.lp n).cfgAt t) == some g)

/-! ## Actions (R289, R290) -/

/-- The sink of a group accepts commands (R290). -/
def State.sinkReady (s : State) (mode : Nat) (sink : Word) : Bool :=
  if fld sink 31 28 = 1 then
    mfPermitted mode (s.f .VLV (VLV_CH_CFG (fld sink 4 0)) 31 27) && !s.vlvBit (fld sink 4 0) 16
  else if fld sink 31 28 = 2 then s.canStarted (fld sink 15 13)
  else true

/-- The action is OFF whatever MODEACT says (R290). -/
def State.lpForced (s : State) (n mode : Nat) : Bool :=
  let cfg := (s.lp n).cfg
  mode == 0 || mode == 5 || mode == 6 || (mode == 1 && fld cfg 31 30 == 1) || !mfPermitted mode (fld cfg 4 0) ||
    (match cfgGroup cfg with | some g => !s.sinkReady mode (s.mg g).sink | none => false)

/-- MODEACT for a mode: 0 OFF, 1 RUN, 2 HOLD, 3 RETARGET. -/
def modeAct (cfg : Word) (mode : Nat) : Nat := fld cfg (15 + 2 * mode) (14 + 2 * mode)

/-- The action in a mode; 4 FAULTED. -/
def State.lpAction (s : State) (n mode : Nat) : Nat :=
  if s.bit .LPE (LPE_FAULT (n / 32)) (n % 32) then 4
  else if s.lpForced n mode then 0 else modeAct (s.lp n).cfg mode

/-- The action in force between instants: the last instant's, unless it is forced OFF. -/
def State.lpInForce (s : State) (n : Nat) : Nat :=
  let a := s.f .LPE (LPE_LP_STATUS n) 2 0
  if a = 4 then 4 else if s.lpForced n s.mode then 0 else a

/-- The action of an instance shows in STATUS, LPE_RUN and LPE_STATUS. -/
def State.lpShow (s : State) (n act : Nat) : State :=
  let s := s.setF .LPE (LPE_LP_STATUS n) 2 0 act
  let s := s.setBit .LPE (LPE_RUN (n / 32)) (n % 32) (act == 1 || act == 3)
  let count := fun (r : Nat → Nat) => ((upto 128).filter (fun m => s.bit .LPE (r (m / 32)) (m % 32))).length
  (s.setF .LPE LPE_STATUS 7 0 (count LPE_RUN)).setF .LPE LPE_STATUS 23 16 (count LPE_FAULT)

/-- Actions that a mode transition forces OFF show at once; ACTION_CHG is raised once if any action changed (R290). -/
def State.lpeMode (s : State) (old new : Nat) : State :=
  let chg := (upto 128).any (fun n => s.lpAction n old != s.lpAction n new)
  let s := s.each (upto 128) (fun s n => if s.lpForced n new && s.f .LPE (LPE_LP_STATUS n) 2 0 != 4 then s.lpShow n 0 else s)
  if chg then s.event .LPE 0 else s

/-! ## Sources (R284–R286) -/

/-- The value and validity of a source at instant T (Table 11-1). -/
def State.lpSource (s : State) (src : Word) (t : Nat) : Int × Bool :=
  let i := fld src 7 0
  match fld src 31 28 with
  | 0 => (0, true)
  | 1 =>
    if i < 128 then
      let stale := fld src 23 16
      (qOf (s.rd .LPE (LPE_PIN i)), match s.lpe.pin.get none i with
        | none => false
        | some w => stale == 0 || decide (t ≤ w + stale * 10000000))
    else (0, false)
  | 2 => if i < 48 then s.ainSource i else (0, false)
  | 3 => if i < 24 then s.finSource i else (0, false)
  | 4 => if i < 8 then s.lossSource i else (0, false)
  | 5 => if i < 16 then s.cropSource i else (0, false)
  | 6 => if i < 128 then (qOf (s.rd .LPE (LPE_LP_OUT i)), s.lpInForce i != 0 && s.lpInForce i != 4) else (0, false)
  | 7 => if i < 16 then ((s.mg i).out, !s.bit .LPE (LPE_MG_STATUS i) 15) else (0, false)
  | 8 => s.canRxSource i
  | _ => (0, false)

/-- The value a register receives from a source that is not valid (R285): HOLD_LAST or DEFAULT. -/
def State.lpFallback (s : State) (n k : Nat) : Int :=
  if fld (s.lpeSrc n k) 27 26 = 0 then ((s.lp n).lastV.getD k none).getD (s.lpeDef n k) else s.lpeDef n k

/-! ## Sinks (R287, R288) -/

/-- binary64 quotient of an applied value by SCALE, as Q16.16. -/
def appliedQ (applied : Nat) (scale : Word) : Int :=
  let r := fmt64.divV .even (fmt64.val applied) (fmt64.val (f64 scale.toNat))
  ((fmt64.val r.bits).toInt .even 16 (-2147483648) 2147483647).1

/-- The product of an output and SCALE in binary64. -/
def sinkProduct (q : Int) (scale : Word) : FVal :=
  fmt64.val (fmt64.mulV .even (fmt64.val (q64 q)) (fmt64.val (f64 scale.toNat))).bits

/-- An output goes to a sink; the state after it and the applied value that g7 receives. `off`: the value is an OFFVAL,
which does not end a waveform that a core reset left running (R187). -/
def State.toSink (s : State) (sink scale : Word) (q : Int) (off : Bool) : State × Int :=
  match fld sink 31 28 with
  | 1 =>
    let ch := fld sink 4 0
    let v := ((sinkProduct q scale).toInt .even 0 0 16000).1.toNat
    let kept := off && (s.vch ch).kept && s.vlvRuns ch
    let s := if kept || s.f .VLV (VLV_CH_CMD_IN ch) 13 0 == v then s else s.vlvCmdIn ch v
    let app := if s.sinkReady s.mode sink && !s.vlvBit ch 24 then s.applied ch else 0
    (s, appliedQ (fmt64.ofInt .even app 0).bits scale)
  | 2 =>
    let v := ((sinkProduct q scale).toInt .even 16 (-2147483648) 2147483647).1
    let r := s.canTx (fld sink 15 13) (fld sink 7 0) v
    (r.1, appliedQ r.2 scale)
  | _ => (s, q)

/-! ## Groups (R296, R297) -/

/-- Values accepted for a group take effect; PENDING stays while later writes are staged. -/
def State.mgTake (s : State) (g : Nat) : State :=
  match (s.mg g).take with
  | none => s
  | some (k, sc, o) =>
    let d := (s.mg g).dirty
    (s.mgMod g (fun c => { c with sink := k, scale := sc, offval := o, take := none })).setBit .LPE (LPE_MG_STATUS g) 7 d

/-- The least of a list of outputs. -/
def leastOf : List Int → Int
  | [] => 0
  | [x] => x
  | x :: t => min x (leastOf t)

/-- A group forms its output at instant `t`, after its highest-numbered member has completed (R297). -/
def State.mgForm (s : State) (g t : Nat) : State :=
  let s := s.mgTake g
  let mem := s.membersAt g t
  let st := LPE_MG_STATUS g
  let out := fun n => qOf (s.rd .LPE (LPE_LP_OUT n))
  let p := mem.filter (fun n => let a := s.f .LPE (LPE_LP_STATUS n) 2 0; a == 1 || a == 2 || a == 3)
  let empty := p.isEmpty
  let v := if empty then qOf (s.mg g).offval else leastOf (p.map out)
  let w := (p.find? (fun n => out n == v)).getD 0
  let chg := !empty && s.f .LPE st 6 0 != w
  let s := (s.setF .LPE st 19 16 p.length).setBit .LPE st 15 empty
  let s := if empty then s else s.setF .LPE st 6 0 w
  let s := if chg then (s.incF .LPE (LPE_MG_WINCHG g) 31 0 1).event .LPE (16 + g) else s
  let s := s.mgMod g (fun c => { c with out := v })
  let r := s.toSink (s.mg g).sink (s.mg g).scale v empty
  let s := r.1.wr .LPE (LPE_MG_OUT g) (wordI r.2)
  s.each mem (fun s n =>
    (s.wr .LPE (LPE_LP_APPLIED n) (wordI r.2)).setBit .LPE (LPE_LP_STATUS n) 4 (!empty && n == w))

/-! ## Samples (R279, R282, R289–R292) -/

/-- Values accepted by LOOP_APPLY take effect at the instance's instant `t` (R299); a group that loses its last member forms its output
then. -/
def State.lpTake (s : State) (n t : Nat) : State :=
  match (s.lp n).take with
  | none => s
  | some (cfg, per, ph, snk) =>
    let old := cfgGroup (s.lp n).cfg
    let d := (s.lp n).dirty
    let s := s.lpMod n (fun c => { c with cfg := cfg, period := per, phase := ph, sink := snk, take := none })
    let s := s.setBit .LPE (LPE_LP_STATUS n) 26 d
    match old with
    | none => s
    | some g =>
      let s := if cfgGroup cfg = some g then s else s.setBit .LPE (LPE_LP_STATUS n) 4 false
      if (s.members g).isEmpty then s.mgForm g t else s

/-- A pending SWAP takes effect at a sample boundary: SWAP_DONE, and the SWAP command ends OK (R141, R301). -/
def State.lpSwap (s : State) (n : Nat) : State :=
  let r := LPE_LP_BANK n
  if s.bit .LPE r 2 then
    let s := ((s.setBit .LPE r 0 (!s.bit .LPE r 0)).setBit .LPE r 2 false).event .LPE 8
    if fld (arg (s.mailOf .LPE).args 0) 6 0 = n then s.cmdEndIf .LPE 2 .ok else s
  else s

/-- The instance starts from its preloads (R292): g8–g11, QUALIFIED clear and region 0. -/
def State.lpPreloaded (s : State) (n : Nat) : State :=
  let st := (upto 4).map (fun k => s.lpePreload n k)
  let s := s.lpMod n (fun c => { c with preload := false, st := st, qrun := 0, lastV := [] })
  (s.setF .LPE (LPE_LP_STATUS n) 31 28 0).setBit .LPE (LPE_LP_STATUS n) 27 false

/-- What a sample reads of its six sources: values, validity, and the state with SRC_INVALID and the sources' history. -/
def State.lpLatch (s : State) (n t : Nat) : State × List Int × List Bool :=
  let src := (upto 6).map (fun k => s.lpSource (s.lpeSrc n k) t)
  let ok := src.map (fun x => x.2)
  let vals := (upto 6).map (fun k => let x := src.getD k (0, false); if x.2 then (qSat x.1).1 else s.lpFallback n k)
  let c := s.lp n
  let lastV := (upto 6).map (fun k => let x := src.getD k (0, false); if x.2 then some (qSat x.1).1 else c.lastV.getD k none)
  let newly := (upto 6).filter (fun k => !ok.getD k true && c.was.getD k none == some true)
  let inv := ((upto 6).map (fun k => if ok.getD k true then 0 else 2 ^ k)).sum
  let s := s.lpMod n (fun c => { c with lastV := lastV, was := ok.map some })
  let s := s.setF .LPE (LPE_LP_STATUS n) 21 16 inv
  let s := s.each newly (fun s _ => (s.lpFlags n lfSRC).event .LPE 4)
  (s, vals, ok)

/-- The instance becomes FAULTED (R291). -/
def State.lpFault (s : State) (n cause : Nat) : State :=
  let s := (s.setF .LPE (LPE_LP_STATUS n) 15 8 cause).setBit .LPE (LPE_FAULT (n / 32)) (n % 32) true
  s.event .LPE 1

/-- The run of scheduling samples: QUALIFIED after three in which both sources are valid (R295). -/
def State.lpQualify (s : State) (n : Nat) (ok : Bool) : State :=
  let q := if ok then (s.lp n).qrun + 1 else 0
  let s := s.lpMod n (fun c => { c with qrun := q })
  if 3 ≤ q then s.setBit .LPE (LPE_LP_STATUS n) 27 true else s

/-- The law of an instance set to run on its values: the sources in g1 to g6, the output applied, the state registers, the
gains of its region (R129, R285). -/
def State.lpLaw (s : State) (n : Nat) (g1 : Int) (vals : List Int) (sched : Bool) : LawSt :=
  let q := fun (v : Int) => (BitVec.ofInt 64 v : Dword)
  { s := s, n := n, ok := sched, flags := 0, out := none, region := none
    g := [0, q g1] ++ (vals.drop 1).map q ++ [q (qOf (s.rd .LPE (LPE_LP_APPLIED n)))] ++
      (upto 4).map (fun k => (s.lp n).st.getD k 0) ++ [0, 0, 0, 0]
    f := s.lpeGains n (s.lpeRegion n) ++ [0, 0, 0, 0, 0, 0, 0, 0] }

/-- A law has ended: an exception faults the instance and leaves its output and state registers; otherwise the state
registers are kept and the output is written, or NOOUT set where none was made (R133, R285). -/
def State.lpEnd (n : Nat) (p : LawSt × Nat) : State :=
  if p.2 ≠ 0 then (p.1.s.lpFlags n p.1.flags).lpFault n p.2
  else
    let s := p.1.s.lpMod n (fun c => { c with st := (p.1.g.drop 8).take 4 })
    match p.1.out with
    | some v => (s.lpFlags n p.1.flags).wr .LPE (LPE_LP_OUT n) (wordI v)
    | none => s.lpFlags n (p.1.flags ||| lfNOOUT)

/-- A source with policy SUSPEND is not valid at instant `t` (R285). -/
def State.lpSuspends (s : State) (n t : Nat) : Bool :=
  (upto 6).any (fun k => !(s.lpSource (s.lpeSrc n k) t).2 && decide (2 ≤ fld (s.lpeSrc n k) 27 26))

/-- A RUN or RETARGET sample runs the law (R279, R285, R295), from its preloads where it starts from them (R292), unless a source with
policy SUSPEND is not valid. -/
def State.lpRun (s : State) (n t : Nat) (retarget : Bool) : State :=
  let susp := s.lpSuspends n t
  let r := (if (s.lp n).preload && !susp then s.lpPreloaded n else s).lpLatch n t
  let ok := r.2.2
  let s := r.1.setBit .LPE (LPE_LP_STATUS n) 3 susp
  if susp then s
  else
    let sched := ok.getD 4 false && ok.getD 5 false
    let s := s.lpQualify n sched
    State.lpEnd n ((s.lpLaw n (if retarget then s.lpeRetarget n else r.2.1.getD 0 0) r.2.1 sched).run
      ((upto 48).map (fun i => s.lpeW n i)))

/-- One instant of an instance under its action (Table 11-3), and its group's forming after the highest member. -/
def State.lpSample (s : State) (n t : Nat) : State :=
  let s := (s.lpTake n t).lpSwap n
  let act := s.lpAction n s.mode
  let c := s.lp n
  let fresh := (act == 1 || act == 3) && c.prev == 0 && bitOf c.cfg 13
  let s := s.lpMod n (fun c => { c with preload := c.preload || fresh, last := some t })
  let s := s.setBit .LPE (LPE_LP_STATUS n) 3 false
  let s := if act = 1 ∨ act = 3 then s.lpRun n t (act == 3) else s
  let act := if s.bit .LPE (LPE_FAULT (n / 32)) (n % 32) then 4 else act
  let s := (s.lpMod n (fun c => { c with prev := act })).lpShow n act
  match cfgGroup (s.lp n).cfg with
  | none =>
    let off := act == 0 || act == 4
    let q := if off then s.lpeOffval n else qOf (s.rd .LPE (LPE_LP_OUT n))
    let r := s.toSink (s.lp n).sink (s.lpeScale n) q off
    r.1.wr .LPE (LPE_LP_APPLIED n) (wordI r.2)
  | some g => if (s.membersAt g t).getLast? = some n then s.mgForm g t else s

/-- Instant `t` is one of instance `n` that has not come yet; of several instances at one instant the lower-numbered come first (R278,
R279). -/
def State.lpDue (s : State) (n t : Nat) : Bool :=
  (s.lp n).instant t && decide (s.now ≤ t) && ((upto 128).drop n).all (fun m => (s.lp m).last != some t)

/-- LOOP_SAMPLE (R278, R279, R282): instant T of instance n, to which time advances; an instant that arrives while the
previous sample has not completed is not run. -/
def execLoopSample (n : Fin 128) (t : Nat) (busy : Bool) (s : State) : Res :=
  if s.lpDue n.val t then
    let s := s.passTo t
    if busy then
      let s := s.lpMod n.val (fun c => { c with last := some t })
      ok (((s.incF .LPE (LPE_LP_COUNTS n.val) 31 16 1).lpFlags n.val lfOVR).event .LPE 5)
    else ok (s.lpSample n.val t)
  else ok s

/-- LPE_PIN_WRITE (R286). -/
def execLpePinWrite (p : Fin 128) (v : Word) (s : State) : Res := ok (s.lpeWrite (LPE_PIN p.val) v)

/-- STAGED_WRITE (R299): a staged register, by its offset in the LPE window. -/
def execStagedWrite (o : Nat) (v : Word) (s : State) : Res :=
  match regRow .LPE o with
  | some r => if r.acc = .rwp then ok (s.lpeWrite o v) else ok s
  | none => ok s

/-! ## LOOP_APPLY (R281, R287, R296, R299, R300) -/

/-- CFG, PERIOD, PHASE and SINK of an instance as they stand, as accepted, or as staged. -/
def State.lpConf (s : State) (named : Bool) (n : Nat) : Word × Word × Word × Word :=
  if named then
    (s.rd .LPE (LPE_LP_CFG n), s.rd .LPE (LPE_LP_PERIOD n), s.rd .LPE (LPE_LP_PHASE n), s.rd .LPE (LPE_LP_SINK n))
  else match (s.lp n).take with
    | some x => x
    | none => let c := s.lp n; (c.cfg, c.period, c.phase, c.sink)

/-- SINK, SCALE and OFFVAL of a group likewise. -/
def State.mgConf (s : State) (named : Bool) (g : Nat) : Word × Word × Word :=
  if named then (s.rd .LPE (LPE_MG_SINK g), s.rd .LPE (LPE_MG_SCALE g), s.rd .LPE (LPE_MG_OFFVAL g))
  else match (s.mg g).take with
    | some x => x
    | none => let c := s.mg g; (c.sink, c.scale, c.offval)

/-- A SCALE is finite and not zero. -/
def scaleOk (w : Word) : Bool :=
  match val32 w.toNat with
  | .fin _ _ _ => true
  | _ => false

/-- A sink that needs a SCALE has a usable one, and a CAN slot that can take values (R287, R394). -/
def State.sinkOk (s : State) (sink scale : Word) : Bool :=
  match fld sink 31 28 with
  | 1 => scaleOk scale
  | 2 => scaleOk scale && s.canSlotOk (fld sink 15 13) (fld sink 7 0)
  | _ => true

/-- What a sink writes: a valve channel or a CAN slot. -/
def sinkKey (sink : Word) : Option (Nat × Nat × Nat) :=
  match fld sink 31 28 with
  | 1 => some (1, fld sink 4 0, 0)
  | 2 => some (2, fld sink 15 13, fld sink 7 0)
  | _ => none

/-- No two members of a list are equal. -/
def allDistinct : List (Nat × Nat × Nat) → Bool
  | [] => true
  | x :: t => !t.contains x && allDistinct t

/-- An instance acts in some mode from ROAD to LIMP (R281). -/
def actsAny (cfg : Word) : Bool := ((upto 7).drop 1).any (fun m => modeAct cfg m != 0)

/-- LPE_LOAD of configurations (R281): the sum of 10^6 / PERIOD as a fraction, by numerator and denominator. -/
def loadOfConf (cs : List (Word × Word × Word × Word)) : Nat × Nat :=
  (cs.filter (fun c => actsAny c.1)).foldl (fun (q : Nat × Nat) c =>
    (q.1 * periodUs c.2.1 + 1000000 * q.2, q.2 * periodUs c.2.1)) (0, 1)

/-- A KIND 5 source reaches an instance through sources of KIND 6 and 7 (R300), followed to depth `k`. `src` gives the
sources of an instance and `mem` the members of a group. -/
def reaches (src : Nat → List Word) (mem : Nat → List Nat) : Nat → Nat → Bool
  | 0, _ => false
  | k + 1, n => (src n).any (fun w =>
    let i := fld w 7 0
    match fld w 31 28 with
    | 5 => true
    | 6 => decide (i < 128) && reaches src mem k i
    | 7 => (mem i).any (fun m => reaches src mem k m)
    | _ => false)

/-- A set of configurations may take effect: OK, or the result that refuses it (R281, R287, R296, R300). `swapped`: an
instance whose inactive bank is to become active. -/
def State.confResult (s : State) (cs : List (Word × Word × Word × Word)) (gs : List (Word × Word × Word))
    (swapped : Option Nat) : Result :=
  let conf := fun n => cs.getD n (0, 0, 0, 0)
  let bankOf := fun n => if swapped = some n then 1 - s.lpeActive n else s.lpeActive n
  let mem := fun g => (upto 128).filter (fun n => cfgGroup (conf n).1 == some g)
  let groupBad := (upto 16).any (fun g =>
    let m := mem g
    decide (8 < m.length) || (match m with
      | a :: t => t.any (fun b => schedNs (conf b).2.1 (conf b).2.2.1 != schedNs (conf a).2.1 (conf a).2.2.1)
      | [] => false))
  let own := (upto 128).filter (fun n => (cfgGroup (conf n).1).isNone)
  let sinkBad := own.any (fun n => !s.sinkOk (conf n).2.2.2 (s.lpeBankW n (bankOf n) 55)) ||
    gs.any (fun g => !s.sinkOk g.1 g.2.1)
  let keys := (own.map (fun n => (conf n).2.2.2) ++ gs.map (fun g => g.1)).filterMap sinkKey
  if groupBad || sinkBad || !allDistinct keys then .badHeader
  else if 256000 * (loadOfConf cs).2 < (loadOfConf cs).1 then .noSpace
  else
    let src := fun n => (upto 6).map (fun k => s.lpeBankW n (bankOf n) (48 + k))
    let sf1 := (upto 128).filter (fun n => fld (conf n).1 31 30 == 1)
    if s.tblUnchecked && sf1.any (fun n => reaches src mem 130 n) then .incompatible else .ok

/-- LPE_LOAD shows the load of the configurations in force or accepted. -/
def State.lpeLoadShow (s : State) : State :=
  let q := loadOfConf ((upto 128).map (fun n => s.lpConf false n))
  s.wrN .LPE LPE_LOAD (q.1 / q.2)

/-- The staged values of instances and groups are accepted together, or refused together with BIND_REFUSED under R300. -/
def State.loopApply (s : State) (ns gs : List Nat) : State × Result :=
  let r := s.confResult ((upto 128).map (fun n => s.lpConf (ns.contains n) n))
    ((upto 16).map (fun g => s.mgConf (gs.contains g) g)) none
  if r ≠ .ok then (if r = .incompatible then s.event .LPE 7 else s, r)
  else
    let s := s.each ns (fun s n => let x := s.lpConf true n; s.lpMod n (fun c => { c with take := some x, dirty := false }))
    let s := s.each gs (fun s g =>
      let x := s.mgConf true g
      let s := s.mgMod g (fun c => { c with take := some x, dirty := false })
      if (s.members g).isEmpty then s.mgTake g else s)
    (s.lpeLoadShow, .ok)

/-- LOOP_APPLY (R299). -/
def execLoopApply (s : State) : Res :=
  ok (s.command .LPE 1 fun a s =>
    let first := (arg a 0).toNat
    let count := (arg a 1).toNat
    if 127 < first ∨ count = 0 ∨ 128 < count ∨ 128 < first + count then refuse s .badHeader
    else
      let r := s.loopApply ((upto count).map (fun i => first + i)) (bitsOf (arg a 2).toNat 16)
      done r.1 r.2)

/-- The drawer's section 0x03 as one LOOP_APPLY over all instances and groups, in force at once; if it is refused, every
CFG is 0 and CFG_FAIL is set (R299). -/
def State.lpeDrawer (s : State) : State :=
  match s.loopApply (upto 128) (upto 16) with
  | (s, .ok) => s.each (upto 128) (fun s n => s.lpTake n s.now)
  | (s, _) =>
    let s := s.each (upto 128) (fun s n =>
      (s.lpMod n (fun c => { c with cfg := 0, take := none, dirty := false })).wr .LPE (LPE_LP_CFG n) 0)
    (s.setBit .LPE LPE_STATUS 9 true).lpeLoadShow

/-! ## SWAP and the other commands (R141, R301, Table 11-12) -/

/-- SWAP (R140, R141, R301): a bank that passes is locked and pending; the command ends OK at the sample boundary. -/
def execLpeSwap (s : State) : Res :=
  ok (s.command .LPE 2 fun a s =>
    let n := fld (arg a 0) 6 0
    let b := 1 - s.lpeActive n
    let ws := (upto 767).map (fun w => s.lpeBankW n b w)
    if crcWords ws ≠ (s.lpeBankW n b 767).toNat then refuse s .badBlock
    else if !checkL (ws.take 48) then refuse s .badHeader
    else if s.bit .LPE (LPE_LP_BANK n) 2 then refuse s .busy
    else
      match s.confResult ((upto 128).map (fun n => s.lpConf false n)) ((upto 16).map (fun g => s.mgConf false g)) (some n) with
      | .badHeader => refuse s .badHeader
      | .incompatible => refuse (s.event .LPE 7) .incompatible
      | _ => (s.setBit .LPE (LPE_LP_BANK n) 2 true, none))

/-- SWAP_CANCEL (R141): a pending SWAP of the instance ends with ABORTED and its bank is unlocked. -/
def execLpeSwapCancel (s : State) : Res :=
  ok (s.cancel .LPE 3 2 (fun a b => fld (arg a 0) 6 0 == fld (arg b 0) 6 0)
    (fun a s => s.setBit .LPE (LPE_LP_BANK (fld (arg a 0) 6 0)) 2 false))

/-- CLEAR_FAULT (R291). -/
def execLpeClearFault (s : State) : Res :=
  ok (s.command .LPE 4 fun a s =>
    let n := fld (arg a 0) 6 0
    if s.bit .LPE (LPE_FAULT (n / 32)) (n % 32) then
      let s := (s.setBit .LPE (LPE_FAULT (n / 32)) (n % 32) false).setF .LPE (LPE_LP_STATUS n) 15 8 0
      done ((s.lpMod n (fun c => { c with preload := true })).lpShow n 0) .ok
    else done s .ok)

/-- PRELOAD (R292). -/
def execLpePreload (s : State) : Res :=
  ok (s.command .LPE 5 fun a s => done (s.lpMod (fld (arg a 0) 6 0) (fun c => { c with preload := true })) .ok)

/-- CLEAR_COUNTS (Table 11-12). -/
def execLpeClearCounts (s : State) : Res :=
  ok (s.command .LPE 6 fun a s =>
    let w := arg a 0
    let s := s.when (bitOf w 0) (fun s => s.each (upto 128) (fun s n =>
      (s.wr .LPE (LPE_LP_FLAGS n) 0).wr .LPE (LPE_LP_COUNTS n) 0))
    let s := s.when (bitOf w 1) (fun s => s.each (upto 16) (fun s g => s.wr .LPE (LPE_MG_WINCHG g) 0))
    done (s.when (bitOf w 2) (fun s => s.setBit .LPE LPE_STATUS 8 false)) .ok)

end Sys2Proof.Machine
end

