-- ==== Sys2Proof/Machine/CamPixels.lean ====
section
/-! DEFINITION. The camera pixel path: raw packing, linearisation, exposure merge, black level, colour, tone mapping, scaling, the
output formats and the statistics of a frame (R197–R200, R202, R208). What the spec leaves open of it, the demosaic's arithmetic first,
stands in Config (assumption log 137). -/

namespace Sys2Proof.Machine

/-! ## Raw packing (R202) -/

/-- Bytes of a line of `w` pixels in raw format `f`: 0 RAW10, 1 RAW12, 2 RAW16. -/
def rawBytes (f w : Nat) : Nat :=
  match f with
  | 0 => w * 5 / 4
  | 1 => w * 3 / 2
  | _ => w * 2

/-- The pixels of a packed line (CSI-2 packing). -/
def unpack (f : Nat) : List Byte → List Nat
  | a :: b :: t =>
    match f, t with
    | 0, c :: d :: e :: r =>
      let x := e.toNat
      [a.toNat * 4 + x % 4, b.toNat * 4 + x / 4 % 4, c.toNat * 4 + x / 16 % 4, d.toNat * 4 + x / 64] ++ unpack f r
    | 0, _ => []
    | 1, c :: r => [a.toNat * 16 + c.toNat % 16, b.toNat * 16 + c.toNat / 16] ++ unpack f r
    | 1, [] => []
    | _, r => (a.toNat * 256 + b.toNat) :: unpack f r
  | _ => []

/-- Pixels packed into a line. -/
def pack (f : Nat) : List Nat → List Byte
  | a :: t =>
    match f, t with
    | 0, b :: c :: d :: r =>
      [byteN (a / 4), byteN (b / 4), byteN (c / 4), byteN (d / 4),
        byteN (a % 4 + b % 4 * 4 + c % 4 * 16 + d % 4 * 64)] ++ pack f r
    | 0, _ => []
    | 1, b :: r => [byteN (a / 16), byteN (b / 16), byteN (a % 16 + b % 16 * 16)] ++ pack f r
    | 1, [] => []
    | _, r => [byteN (a / 256), byteN a] ++ pack f r
  | [] => []

/-- A line brought to `w` pixels: a longer one is truncated, a shorter one padded with its last pixel (Table 8-6). -/
def fitLine (f w : Nat) (bs : List Byte) : List Byte :=
  if bs.length = rawBytes f w then bs
  else
    let px := unpack f bs
    pack f ((px ++ List.replicate w (px.getLast?.getD 0)).take w)

/-! ## Parameters (Table 8-4) -/

/-- A 32-bit value of a parameter block. -/
def par32 (p : List Byte) (o : Nat) : Nat := leNat ((p.drop o).take 4)

/-- Linearisation (Table 8-3); the default set is the identity. -/
def linearise (p : Option (List Byte)) (code : Nat) : Nat :=
  match p with
  | none => code
  | some p =>
    let k := (upto 16).foldl (fun (k i : Nat) => if par32 p (16 * i) ≤ code then i else k) 0
    clampN 0 16777215 (par32 p (16 * k + 4) + (code - par32 p (16 * k)) * par32 p (16 * k + 8) / 65536)

/-- mix of R198 on values in units of 2^−32, its third branch rounded down to one such unit. -/
def mixExp (knee band : Nat) (x y e : Int) : Int :=
  if e < (knee : Int) - band then x
  else if (knee : Int) ≤ e then y
  else x + (y - x) * (e - knee + band) / (band : Int)

/-- The exposure merge (R198) of linearised values, before its clamp: exact products in units of 2^−32, and one rounding down to a
linear unit at the end. -/
def mergeExp (p : List Byte) (n : Nat) (l m s : Nat) : Int :=
  let knee := par32 p 0x108
  let band := par32 p 0x10C
  let pl : Int := par32 p 0x110
  let lm := par32 p 0x100
  let x := ((l : Int) - pl) * 2 ^ 32
  let a := ((m : Int) - par32 p 0x114) * lm * 2 ^ 16
  let a := if n = 3 then mixExp knee band a (((s : Int) - par32 p 0x118) * lm * par32 p 0x104) m else a
  let v := if n = 1 then x else mixExp knee band x a l
  v / 2 ^ 32 + pl

/-- The black-levelled value of a pixel at a CFA position, and whether its merge saturated. Under the default set there is
one exposure and BLACK is 0. -/
def pixelValue (p : Option (List Byte)) (n pos : Nat) (l m s : Nat) : Nat × Bool :=
  match p with
  | none => (l, false)
  | some p =>
    let v := mergeExp p n (linearise (some p) l) (linearise (some p) m) (linearise (some p) s)
    ((clampI 0 16777215 v).toNat - par32 p (0x120 + 4 * pos), decide (16777215 < v))

/-- A row of black-levelled pixels from the lines of the exposures. -/
def pixelRow (p : Option (List Byte)) (n f y : Nat) (l m s : List Byte) : List (Nat × Bool) :=
  let m := unpack f m
  let s := unpack f s
  (unpack f l).mapIdx (fun x c => pixelValue p n (y % 2 * 2 + x % 2) c (m.getD x 0) (s.getD x 0))

/-! ## Colour, tone mapping and scaling (Table 8-3) -/

/-- A rational result brought to an integer: itself where it is one, else one of its two neighbours, which the spec leaves open. -/
def camNear (n d : Nat) : Nat := n / d + b2n (n % d != 0 && Config.camUp n d)

/-- The CFA pattern (Table 8-4). -/
def cfaPattern (p : Option (List Byte)) : Nat := match p with | some p => par32 p 0x130 % 4 | none => 0

/-- The CFA positions of red, the two greens and blue under a pattern: RGGB, GRBG, GBRG, BGGR. -/
def cfaColours (pat : Nat) : Nat × Nat × Nat × Nat :=
  match pat with
  | 0 => (0, 1, 2, 3)
  | 1 => (1, 0, 3, 2)
  | 2 => (2, 0, 3, 1)
  | _ => (3, 1, 2, 0)

/-- A product in binary32. -/
def camMul (a b : Nat) : Nat := ((fmt32 false).mulV .even ((fmt32 false).val a) ((fmt32 false).val b)).bits

/-- A sum in binary32. -/
def camAdd (a b : Nat) : Nat := ((fmt32 false).addV .even ((fmt32 false).val a) ((fmt32 false).val b)).bits

/-- A binary32 result as a 24-bit value, clamped: an integer as it is, what lies between two of them as one of the two. -/
def camClamp (x : Nat) : Nat :=
  match (fmt32 false).val x with
  | .nan _ => Config.camNan x % 2 ^ 24
  | v =>
    let q := v.toInt .down 0 0 16777215
    min 16777215 (q.1.toNat + b2n (q.2 == fNX && Config.camUp x 0))

/-- The colour stage: the WB gains, then the matrix and the offsets, in binary32; products and sums are rounded one by one from the
left (assumption log 137). Unit gains and the identity matrix of the default set leave a value as it is. -/
def camColour (p : Option (List Byte)) (c : Nat × Nat × Nat) : Nat × Nat × Nat :=
  match p with
  | none => c
  | some q =>
    let pos := cfaColours (cfaPattern p)
    let gain := fun i => par32 q (0x140 + 4 * i)
    let ofN := fun (v : Nat) => ((fmt32 false).ofInt .even v 0).bits
    let g1 := gain pos.2.1
    let g2 := gain pos.2.2.1
    let r := camMul (ofN c.1) (gain pos.1)
    let g := camMul (ofN c.2.1) (if g1 = g2 then g1 else Config.camGreen g1 g2)
    let b := camMul (ofN c.2.2) (gain pos.2.2.2)
    let m := fun i => par32 q (0x150 + 4 * i)
    let row := fun i => camClamp (camAdd (camAdd (camAdd (camMul (m (3 * i)) r) (camMul (m (3 * i + 1)) g)) (camMul (m (3 * i + 2)) b)) (m (9 + i)))
    (row 0, row 1, row 2)

/-- The input of point `i` of the tone curve, 2^(3i/32) − 1, in units of 2^−32, rounded down. -/
def toneX (i : Nat) : Nat := isqrt (isqrt (isqrt (isqrt (isqrt (2 ^ (3 * i + 1024)))))) - 2 ^ 32

/-- Point `i` of the tone curve: of the parameter block, or of the linear curve x / 256 clamped to 65,535 (R199). -/
def toneY (p : Option (List Byte)) (i : Nat) : Nat :=
  match p with
  | some p => leNat ((p.drop (0x180 + 2 * i)).take 2)
  | none => min 65535 (toneX i / 2 ^ 40)

/-- Tone mapping of a 24-bit value: the curve interpolated linearly, of its 16-bit value bits [15:8]. -/
def toneMap (p : Option (List Byte)) (v : Nat) : Nat :=
  let x := v * 2 ^ 32
  let k := (upto 256).foldl (fun (k i : Nat) => if toneX i ≤ x then i else k) 0
  let y0 : Int := toneY p k
  let y := y0 + ((toneY p (k + 1) : Int) - y0) * ((x : Int) - toneX k) / ((toneX (k + 1) : Int) - toneX k)
  (y / 256).toNat % 256

/-- The 8-bit RGB pixels of a frame at full size, from its black-levelled rows. -/
def camRgb (p : Option (List Byte)) (w : Nat) (rows : List (List Nat)) : List (List (Nat × Nat × Nat)) :=
  (upto rows.length).map (fun y => (upto w).map (fun x =>
    let d := Config.demosaic (cfaPattern p) rows x y
    let c := camColour p (d.1 % 2 ^ 24, d.2.1 % 2 ^ 24, d.2.2 % 2 ^ 24)
    (toneMap p c.1, toneMap p c.2.1, toneMap p c.2.2)))

/-- A pixel of an image; black outside. -/
def pixelAt (im : List (List (Nat × Nat × Nat))) (x y : Nat) : Nat × Nat × Nat := (im.getD y []).getD x (0, 0, 0)

/-- Box filter to 1 / `k` of the size (Table 8-3): the mean of each block of k × k pixels. -/
def boxFilter (k w h : Nat) (im : List (List (Nat × Nat × Nat))) : List (List (Nat × Nat × Nat)) :=
  (upto (h / k)).map (fun y => (upto (w / k)).map (fun x =>
    let ps := (upto k).flatMap (fun j => (upto k).map (fun i => pixelAt im (x * k + i) (y * k + j)))
    let mean := fun (f : Nat × Nat × Nat → Nat) => camNear ((ps.map f).sum) (k * k)
    (mean (fun q => q.1), mean (fun q => q.2.1), mean (fun q => q.2.2))))

/-- Bytes per output pixel: YUV 4:2:2, Y8, RGB (R200). -/
def outBpp (fmt : Nat) : Nat := if fmt = 0 then 2 else if fmt = 1 then 1 else 3

/-- The bytes of a row in an output format: 0 YUV 4:2:2 two pixels at a time, 1 Y8, 2 RGB packed; the conversion to luma and chroma
and the order of the four bytes are not in the spec. -/
def outRow (fmt : Nat) : List (Nat × Nat × Nat) → List Byte
  | [] => []
  | a :: t =>
    match fmt, t with
    | 0, b :: t => (upto 4).map (fun i => Config.camYuv a b i) ++ outRow fmt t
    | 0, [] => (upto 2).map (fun i => Config.camYuv a a i)
    | 1, t => Config.camLuma a :: outRow fmt t
    | _, t => [byteN a.1, byteN a.2.1, byteN a.2.2] ++ outRow fmt t

/-- Rows in an output format, each padded to 64 bytes with bytes the spec leaves open. -/
def outBytes (fmt : Nat) (im : List (List (Nat × Nat × Nat))) : List Byte :=
  im.flatMap (fun r =>
    let b := outRow fmt r
    b ++ (upto ((64 - b.length % 64) % 64)).map Config.camPad)

/-! ## Statistics (R208, Table 8-7) -/

/-- The histogram bin of a quad with sum `q`: floor(12 × log2(1 + q / 4)), at most 255. -/
def histBin (q : Nat) : Nat := min 255 (Nat.log2 ((4 + q) ^ 12 / 2 ^ 24))

/-- The sums of the 2 × 2 quads of two rows. -/
def quads : List Nat → List Nat → List Nat
  | a :: b :: t, c :: d :: u => (a + b + c + d) :: quads t u
  | _, _ => []

/-- The bins of all quads of the rows received. -/
def quadBins : List (Option (List Nat)) → List Nat
  | some a :: some b :: t => (quads a b).map histBin ++ quadBins t
  | _ :: _ :: t => quadBins t
  | _ => []

/-- The histogram of the rows received. -/
def histogram (rows : List (Option (List Nat))) : List Byte :=
  let bins := quadBins rows
  (upto 256).flatMap (fun i => leBytes 4 (bins.count i))

/-- The zone of a position among `n` zones over a size: the last zone takes the remainder. -/
def zoneAt (n size x : Nat) : Nat := if size / n = 0 then n - 1 else min (n - 1) (x / (size / n))

/-- The 32 bytes of a white-balance zone from its pixels: CFA position, value and saturation. -/
def zoneBytes (ps : List (Nat × Nat × Bool)) : List Byte :=
  let sum := fun pos =>
    let v := (ps.filter (fun (q : Nat × Nat × Bool) => q.1 == pos)).foldl (fun (a : Nat) (q : Nat × Nat × Bool) => a + q.2.1) 0
    if v < 2 ^ 32 then v else Config.camSum v
  (upto 4).flatMap (fun i => leBytes 4 (sum i)) ++ leBytes 4 ps.length ++
    leBytes 4 (ps.filter (fun (q : Nat × Nat × Bool) => q.2.2)).length ++ leBytes 8 0

/-- The pixels of a zone, of the rows received. -/
def zonePixels (w h : Nat) (rows : List (Option (List (Nat × Bool)))) (zx zy : Nat) : List (Nat × Nat × Bool) :=
  (rows.mapIdx (fun y o =>
    let r := o.getD []
    if zoneAt 24 h y = zy then
      (r.mapIdx (fun x (v : Nat × Bool) => (x, y % 2 * 2 + x % 2, v))).filterMap
        (fun (q : Nat × Nat × Nat × Bool) => if zoneAt 32 w q.1 = zx then some q.2 else none)
    else [])).flatten

/-- The white-balance zones of the rows received. -/
def zones (w h : Nat) (rows : List (Option (List (Nat × Bool)))) : List Byte :=
  (upto 24).flatMap (fun zy => (upto 32).flatMap (fun zx => zoneBytes (zonePixels w h rows zx zy)))

/-- The squared difference of two luma values. -/
def lumaDiff (a b : Byte) : Nat := (if a ≤ b then b.toNat - a.toNat else a.toNat - b.toNat) ^ 2

/-- The sharpness of block (bx, by) among 16 × 12 (R208): squared luma differences of horizontal and vertical neighbours that lie in
the block and were received, saturating. -/
def sharpAt (w h : Nat) (luma : List (Option (List Byte))) (bx by_ : Nat) : Nat :=
  let at_ := fun x y => match luma.getD y none with | some r => r[x]? | none => none
  let inBlock := fun x y => decide (x < w) && decide (y < h) && zoneAt 16 w x == bx && zoneAt 12 h y == by_
  let diff := fun x y x' y' => match at_ x y, at_ x' y' with
    | some a, some b => if inBlock x' y' then lumaDiff a b else 0
    | _, _ => 0
  min 0xFFFFFFFF (((upto h).filter (fun y => zoneAt 12 h y == by_)).map (fun y =>
    ((upto w).filter (fun x => zoneAt 16 w x == bx)).map (fun x => diff x y (x + 1) y + diff x y x (y + 1)) |>.sum)).sum

/-- Luma after tone mapping of the rows received. -/
def camLumas (got : List Bool) (im : List (List (Nat × Nat × Nat))) : List (Option (List Byte)) :=
  List.zipWith (fun (g : Bool) r => if g then some (r.map Config.camLuma) else none) got im

/-- The record after its header, from the rows and which of them were received: histogram, sharpness, zones and embedded data
(Table 8-7). -/
def statsBody (w h : Nat) (got : List Bool) (rows : List (List (Nat × Bool))) (im : List (List (Nat × Nat × Nat)))
    (emb : List Byte) : List Byte :=
  let rs := List.zipWith (fun (g : Bool) (r : List (Nat × Bool)) => if g then some r else none) got rows
  let luma := camLumas got im
  histogram (rs.map (fun o => o.map (fun r => r.map Prod.fst))) ++
    (upto 12).flatMap (fun y => (upto 16).flatMap (fun x => leBytes 4 (sharpAt w h luma x y))) ++ List.replicate 192 0 ++
    zones w h rs ++ List.replicate 6144 0 ++ emb ++ List.replicate (16384 - emb.length) 0

end Sys2Proof.Machine
end

