-- ==== Sys2Proof/Machine/Camera.lean ====
section
/-! DEFINITION. Camera links, frames and the memory path (CAM, R189–R212). -/

namespace Sys2Proof.Machine

/-- A camera's record. -/
def State.camCh (s : State) (n : Nat) : CamCh := s.cam.ch.get {} n

/-- Change a camera's record. -/
def State.camMod (s : State) (n : Nat) (f : CamCh → CamCh) : State :=
  s.putCam { s.cam with ch := s.cam.ch.mod {} n f }

/-- Count in a register, saturating. -/
def State.count (s : State) (o : Nat) : State := s.wrN .CAM o (satAdd 0xFFFFFFFF (s.rdN .CAM o) 1)

/-! ## What CAM_START read (R212) -/

/-- The registers that CAM_START reads, in the order of the words it keeps. -/
def camRegs (n : Nat) : List Nat :=
  [CAM_C_CTRL n, CAM_C_SIZE n, CAM_C_DT n, CAM_C_RAW_BASE_LO n, CAM_C_RAW_BASE_HI n, CAM_C_RAW_CFG n, CAM_C_OUT_BASE_LO n,
    CAM_C_OUT_BASE_HI n, CAM_C_OUT_CFG n, CAM_C_STATS_BASE_LO n, CAM_C_STATS_BASE_HI n, CAM_C_STATS_CFG n, CAM_C_ENC n]

/-- A word read at CAM_START. -/
def CamCh.word (c : CamCh) (i : Nat) : Word := c.snap.getD i 0
/-- The configured width. -/
def CamCh.w (c : CamCh) : Nat := fld (c.word 1) 11 0
/-- The configured height. -/
def CamCh.h (c : CamCh) : Nat := fld (c.word 1) 27 16
/-- The raw format. -/
def CamCh.fmt (c : CamCh) : Nat := fld (c.word 0) 13 12
/-- The number of exposures; 0 taken as 1. -/
def CamCh.exps (c : CamCh) : Nat := max 1 (fld (c.word 0) 11 10)
/-- A ring's base address from its two words. -/
def CamCh.base (c : CamCh) (i : Nat) : Nat := fld (c.word (i + 1)) 7 0 * 2 ^ 32 + fld (c.word i) 31 12 * 4096

/-- A size rounded up to a multiple. -/
def roundUp (n k : Nat) : Nat := (n + k - 1) / k * k

/-- Bytes of a padded raw line (R202). -/
def CamCh.rawLine (c : CamCh) : Nat := roundUp (rawBytes c.fmt c.w) 64
/-- Where line `y` of exposure `e` lies in raw buffer `i`: the exposures stand one after the other (assumption log 40). -/
def CamCh.rawAddr (c : CamCh) (i e y : Nat) : Nat :=
  c.base 3 + i * roundUp (c.rawLine * c.h * c.exps) 4096 + (e * c.h + y) * c.rawLine
/-- The raw buffers of the ring, 3–8. -/
def CamCh.rawBufs (c : CamCh) : Nat := clampN 3 8 (fld (c.word 5) 3 0)
/-- The output buffers of the ring, 2–16. -/
def CamCh.outBufs (c : CamCh) : Nat := clampN 2 16 (fld (c.word 8) 3 0)
/-- The statistics records of the ring, 2–16. -/
def CamCh.recs (c : CamCh) : Nat := clampN 2 16 (fld (c.word 11) 3 0)

/-! ## Links (R189–R191) -/

/-- A link's state: 0 down, 1 training, 2 up. -/
def State.linkState (s : State) (j : Nat) : Nat := s.f .CAM (CAM_L_STATUS j) 1 0

/-- Training ends: at the highest common gear, or in failure, which raises LINK only once until the link is up again. -/
def State.linkTrain (s : State) (j : Nat) (gears : BitVec 5) : State :=
  let top := clampN 1 5 (s.f .CAM (CAM_L_CFG j) 2 0)
  match (upto 6).reverse.find? (fun g => decide (1 ≤ g) && decide (g ≤ top) && gears.getLsbD (g - 1)) with
  | some g =>
    let s := (s.setF .CAM (CAM_L_STATUS j) 10 8 g).setF .CAM (CAM_L_STATUS j) 1 0 2
    (s.putCam { s.cam with
      failed := s.cam.failed.set false j false
      retx := s.cam.retx.set false j (s.bit .CAM (CAM_L_CFG j) 8) }).event .CAM 11
  | none =>
    if s.cam.failed.get false j then s
    else (s.putCam { s.cam with failed := s.cam.failed.set false j true }).event .CAM 11

/-- A discard of unknown type, VC or adaptation. -/
def State.camDiscard (s : State) (j : Nat) : State := s.incF .CAM (CAM_L_DISCARD j) 31 16 1

/-- A packet arrives on link `j`: nothing does on a link that is not up; retransmissions of a link that trained with RETX_EN are
counted (R189); an uncorrectable header and a foreign adaptation or VC discard it, a corrected header is counted (R191). The flag: the
packet is used. -/
def State.camPkt (s : State) (j : Nat) (pk : CamPkt) : State × Bool :=
  if s.linkState j ≠ 2 then (s, false)
  else
    let s := if s.cam.retx.get false j then s.wrN .CAM (CAM_L_RETX j) (satAdd 0xFFFFFFFF (s.rdN .CAM (CAM_L_RETX j)) pk.retx) else s
    match pk.hdr with
    | .foreign => (s.camDiscard j, false)
    | .bad => (s.incF .CAM (CAM_L_ECC j) 31 16 1, false)
    | .corrected => (s.incF .CAM (CAM_L_ECC j) 15 0 1, true)
    | .good => (s, true)

/-- The headers corrected in a packet. -/
def pktFixed (pk : CamPkt) : Nat := b2n (pk.hdr == .corrected)

/-! ## Delivery, drops and the queue (R200–R209) -/

/-- FLAGS bits (Table 8-8). -/
def flagSet (flags bit : Nat) : Nat := flags ||| 2 ^ bit

/-- The CRC of the parameter block in force; the default set has none. -/
def paramCrc (p : Option (List Byte)) : Nat := match p with | some p => crc32c (p.take 0xFFC) | none => 0

/-- The 64-byte statistics header without FRAME_NO (Table 8-8), bytes 4–63. -/
def camHeader (n : Nat) (c : CamCh) (f : CamFrame) (flags out : Nat) (t : Nat) : List Byte :=
  leBytes 1 n ++ leBytes 1 c.exps ++ leBytes 2 flags ++ leBytes 8 f.sof ++ leBytes 8 f.fe ++
    leBytes 2 ((f.lines.take c.exps).foldl min 4095) ++ leBytes 2 c.h ++ leBytes 2 (clampN 0 65535 f.crcErrs) ++
    leBytes 2 (clampN 0 65535 f.lenErrs) ++ leBytes 2 (clampN 0 65535 f.ecc) ++ leBytes 2 f.emb.length ++ leBytes 1 out ++
    leBytes 1 f.rawIdx ++ leBytes 2 0 ++ leBytes 4 (paramCrc f.param) ++ leBytes 4 0 ++ leBytes 8 t ++ leBytes 8 0

/-- Write a statistics record: FRAME_NO = 0xFFFF_FFFF first, then the rest, FRAME_NO last (R209). -/
def State.camRecord (s : State) (n : Nat) (f : CamFrame) (rest : List Byte) : State :=
  let c := s.camCh n
  let a := c.base 9 + c.recNext % c.recs * 0xC000
  let s := s.engLE a 4 0xFFFFFFFF
  let s := (s.engStore (a + 4) rest).engLE a 4 f.no
  s.camMod n (fun c => { c with recNext := (c.recNext + 1) % c.recs })

/-- CAM_STATUS shows the queue, its highest length and whether the memory path is busy, with a frame or a test pattern. -/
def State.camShow (s : State) : State :=
  let q := s.cam.queue.length
  let s := (s.setF .CAM CAM_STATUS 27 24 q).setBit .CAM CAM_STATUS 0 (s.cam.busy.isSome || s.cam.test.isSome)
  s.setF .CAM CAM_STATUS 19 16 (max q (s.f .CAM CAM_STATUS 19 16))

/-- A frame is dropped for a reason: 1 QUEUE, 2 BUF (R205). -/
def State.camDrop (s : State) (n : Nat) (f : CamFrame) (reason : Nat) : State :=
  let flags := flagSet f.flags 6
  let s := (s.count (CAM_C_DROP_CNT n)).wrN .CAM CAM_DROP_LAST (reason * 2 ^ 24 + n)
  let s := (s.wrN .CAM CAM_DROP_FRAME f.no).wrN .CAM (CAM_C_DONE_NO n) f.no
  let s := s.setF .CAM (CAM_C_STATUS n) 31 16 flags
  (s.camRecord n f (camHeader n (s.camCh n) f flags 255 s.now)).event .CAM 10

/-- Lines missing from a frame repeat the last good line before them, or are zero (Table 8-6). -/
def fillLines (zero : List Byte) : List (Option (List Byte)) → List (List Byte)
  | [] => []
  | some l :: t => l :: fillLines l t
  | none :: t => zero :: fillLines zero t

/-- The lines of an exposure of a frame as received or filled in the raw buffer; none where a line is missing, or where the read of the
raw buffer meets a bus error (R146; DESIGN CHOICE, assumption log 136). -/
def State.camGot (s : State) (n e : Nat) (f : CamFrame) : List (Option (List Byte)) :=
  let c := s.camCh n
  let len := rawBytes c.fmt c.w
  if f.rawIdx = 255 then
    let got := f.raw.getD e []
    got ++ List.replicate (c.h - got.length) none
  else (upto c.h).map (fun y =>
    let a := c.rawAddr f.rawIdx e y
    if s.engBad a len then none else some (s.rdBytes a len))

/-- The lines of an exposure of a frame, with missing ones filled (Table 8-6). -/
def State.camLines (s : State) (n e : Nat) (f : CamFrame) : List (List Byte) :=
  let c := s.camCh n
  fillLines (List.replicate (rawBytes c.fmt c.w) 0) (s.camGot n e f)

/-- The raw lines of a memory-path frame that the ISP cannot read. -/
def State.camUnread (s : State) (n : Nat) (f : CamFrame) : Nat :=
  if f.rawIdx = 255 then 0
  else ((upto (s.camCh n).exps).map (fun e => ((s.camGot n e f).filter Option.isNone).length)).sum

/-- Which lines of a frame were received in every exposure. -/
def State.camReceived (s : State) (n : Nat) (f : CamFrame) : List Bool :=
  let c := s.camCh n
  let got := (upto c.exps).map (fun e => s.camGot n e f)
  (upto c.h).map (fun y => (upto c.exps).all (fun e => (f.rawIdx == 255 || decide (y < f.lines.getD e 0)) &&
    ((got.getD e []).getD y none).isSome))

/-- The black-levelled rows of a frame with their saturation. -/
def State.camRows (s : State) (n : Nat) (f : CamFrame) : List (List (Nat × Bool)) :=
  let c := s.camCh n
  let l := s.camLines n 0 f
  let m := s.camLines n 1 f
  let sh := s.camLines n 2 f
  (upto c.h).map (fun y => pixelRow f.param c.exps c.fmt y (l.getD y []) (m.getD y []) (sh.getD y []))

/-- The DRAM output of a frame's 8-bit pixels: scaled, in the format of OUT_FMT, each line padded to 64 bytes (R200). -/
def camOut (c : CamCh) (im : List (List (Nat × Nat × Nat))) : List Byte :=
  outBytes (fld (c.word 0) 19 18) (boxFilter (2 ^ fld (c.word 0) 17 16) c.w c.h im)

/-- The encoder output of a frame's 8-bit pixels, at the size of ENC, with its number and SOF time (R200). -/
def camEnc (c : CamCh) (f : CamFrame) (im : List (List (Nat × Nat × Nat))) : EncFrame :=
  let k := 2 ^ fld (c.word 12) 1 0
  { no := f.no, sof := f.sof, w := c.w / k, h := c.h / k
    px := (boxFilter k c.w c.h im).flatMap (fun r => r.flatMap (fun q => [byteN q.1, byteN q.2.1, byteN q.2.2])) }

/-- An image whose lines from `k` on are zero. -/
def cutImage (k : Nat) (im : List (List (Nat × Nat × Nat))) : List (List (Nat × Nat × Nat)) :=
  im.mapIdx (fun y r => if k ≤ y then r.map (fun _ => (0, 0, 0)) else r)

/-- Bytes of an output buffer. -/
def camOutSize (c : CamCh) : Nat :=
  let sc := 2 ^ fld (c.word 0) 17 16
  roundUp (c.w / sc * outBpp (fld (c.word 0) 19 18)) 64 * (c.h / sc)

/-- A test pattern has run through a camera's path (R210): the CRC-32C of its output, `tp`, is compared with CAM_TP_REF. The pattern
and the silicon's parameter set are not in the spec; a sound path gives the constant. -/
def State.camTestRun (s : State) (n : Nat) (tp : Word) : State :=
  let s := s.incF .CAM CAM_TP_STATUS 31 16 1
  if tp = s.rd .CAM CAM_TP_REF then s
  else
    let s := (s.incF .CAM CAM_TP_STATUS 15 8 1).setBit .CAM CAM_TP_STATUS 7 true
    (s.setF .CAM CAM_TP_STATUS 2 0 n).event .CAM 12

/-- A delivered frame of a camera is counted. -/
def State.camCount (s : State) (n : Nat) : State := s.camMod n (fun c => { c with count := c.count + 1 })

/-- A test pattern is due after every 64th frame. -/
def State.camTestDue (s : State) (n : Nat) : Bool := (s.camCh n).count % 64 == 0

/-- The in-line camera's test pattern: without 0.5 ms of blanking it is skipped and counted. -/
def State.camTestInline (s : State) (n : Nat) (tp : Word) (room : Bool) : State :=
  if !s.camTestDue n then s
  else if room then s.camTestRun n tp
  else s.incF .CAM CAM_TP_SKIP 15 0 1

/-- The 8-bit pixels of a frame at full size. -/
def State.camImage (s : State) (n : Nat) (f : CamFrame) : List (List (Nat × Nat × Nat)) :=
  camRgb f.param (s.camCh n).w ((s.camRows n f).map (fun (r : List (Nat × Bool)) => r.map Prod.fst))

/-- The DRAM output buffer `out` and the encoder stream take a frame's pixels; 255: the DRAM output is off. -/
def State.camPixelsOut (s : State) (n out : Nat) (f : CamFrame) (im : List (List (Nat × Nat × Nat))) : State :=
  let c := s.camCh n
  let s := if out = 255 then s else s.engStore (c.base 6 + out * camOutSize c) (camOut c im)
  s.putCam { s.cam with enc := s.cam.enc.set none n (some (camEnc c f im)) }

/-- A finished frame's outputs (R200, R208, R209): the output buffer and the encoder's stream, the statistics record, then FRAME_Cn. A
frame with raw lines that could not be read carries CRC_ERR. The fill lines of an in-line frame that ended short are remembered while
they are emitted (R207). -/
def State.camDeliver (s : State) (n : Nat) (f : CamFrame) (t : Nat) : State :=
  let c := s.camCh n
  let bad := s.camUnread n f
  let f : CamFrame := if bad = 0 then f else { f with flags := flagSet f.flags 0, crcErrs := f.crcErrs + bad }
  let im := s.camImage n f
  let stats := statsBody c.w c.h (s.camReceived n f) (s.camRows n f) im f.emb
  let out := if fld (c.word 0) 19 18 = 3 then 255 else c.outNext % c.outBufs
  let s := s.camPixelsOut n out f im
  let s := if out = 255 then s else s.camMod n (fun c => { c with outNext := (c.outNext + 1) % c.outBufs })
  let s := s.camMod n (fun c => { c with fill := if c.inline && f.flags.testBit 1 then some (f, out) else none })
  let s := s.camRecord n f (camHeader n c f f.flags out t ++ stats)
  let s := if bad = 0 then s else (s.setF .CAM (CAM_C_STATUS n) 31 16 f.flags).event .CAM 8
  ((s.wrN .CAM (CAM_C_DONE_NO n) f.no).event .CAM n).camCount n

/-- Service order (R203): earlier frame end first, then the lower camera number. -/
def jobBefore (a b : CamJob) : Bool := decide (a.frame.fe < b.frame.fe) || (a.frame.fe == b.frame.fe && decide (a.cam ≤ b.cam))

/-- A job put into the queue in service order. -/
def jobInsert (j : CamJob) : List CamJob → List CamJob
  | [] => [j]
  | k :: t => if jobBefore k j then k :: jobInsert j t else j :: k :: t

/-- The job that a full queue drops (R203): the oldest of the lowest class. -/
def dropPick (q : List CamJob) : Option CamJob :=
  let low := q.foldl (fun (m : Nat) (j : CamJob) => min m j.cls) 3
  q.find? (fun j => j.cls == low)

/-- The memory path takes the first waiting frame when it is free. -/
def State.camNext (s : State) : State :=
  match s.cam.busy, s.cam.test, s.cam.queue with
  | none, none, j :: t => (s.putCam { s.cam with busy := some j, queue := t }).camShow
  | _, _, _ => s.camShow

/-- A frame end enters the queue (R203). -/
def State.camEnqueue (s : State) (j : CamJob) : State :=
  let q := jobInsert j s.cam.queue
  if 12 ≤ s.cam.queue.length then
    match dropPick q with
    | some d => ((s.putCam { s.cam with queue := q.erase d }).camDrop d.cam d.frame 1).camNext
    | none => s
  else (s.putCam { s.cam with queue := q }).camNext

/-! ## Frames (R195, R202, R204, R206) -/

/-- The missing lines of a memory-path frame are filled in its raw buffer. -/
def State.camFill (s : State) (n : Nat) (f : CamFrame) : State :=
  let c := s.camCh n
  if f.rawIdx = 255 then s
  else s.each (upto c.exps) (fun s e =>
    let got := f.lines.getD e 0
    let a := c.rawAddr f.rawIdx e (got - 1)
    let last := if got = 0 ∨ s.engBad a c.rawLine = true then List.replicate c.rawLine 0 else s.rdBytes a c.rawLine
    s.each (upto (c.h - got)) (fun s k => s.engStore (c.rawAddr f.rawIdx e (got + k)) last))

/-- CAM_STOP ends OK when every camera of its mask has stopped. -/
def State.camStopDone (s : State) : State :=
  let m := s.mailOf .CAM
  if m.code = 2 ∧ (bitsOf (arg m.args 0).toNat 8).all (fun n => !(s.camCh n).stop) then s.cmdEnd .CAM .ok else s

/-- A pending parameter block comes into force, at a frame start or once the camera does not run; PARAM_LOAD ends OK (R199). -/
def State.camParam (s : State) (n : Nat) : State :=
  match (s.camCh n).next with
  | none => s
  | some p =>
    let s := s.camMod n (fun c => { c with param := some p, next := none, fresh := true })
    let s := s.setBit .CAM (CAM_C_STATUS n) 1 false
    if fld (arg (s.mailOf .CAM).args 0) 2 0 = n then s.cmdEndIf .CAM 3 .ok else s

/-- A stopping camera stops. -/
def State.camHalt (s : State) (n : Nat) : State :=
  if (s.camCh n).stop then
    let s := s.camMod n (fun c => { c with run := false, stop := false })
    let s := (s.setBit .CAM (CAM_C_STATUS n) 0 false).setBit .CAM CAM_STATUS (8 + n) false
    (s.camParam n).camStopDone
  else s

/-- The frame in progress of a camera ends at time `t` with further flags: SHORT where lines are missing, then in-line
delivery with its test pattern, or the memory-path queue (Table 8-6). A dropped one only ends. -/
def State.camEnd (s : State) (n t : Nat) (more : List Nat) (tp : Word) (room : Bool) : State :=
  let c := s.camCh n
  match c.frame with
  | none => s
  | some f =>
    if f.dropped then (s.camMod n (fun c => { c with frame := none })).camHalt n else
    let short := (f.lines.take c.exps).any (fun k => decide (k < c.h))
    let flags := more.foldl flagSet (if short then flagSet f.flags 1 else f.flags)
    let f : CamFrame := { f with flags := flags, fe := t }
    let s := s.camMod n (fun c => { c with frame := none })
    let s := s.setF .CAM (CAM_C_STATUS n) 31 16 flags
    let s := if flags.testBit 0 then s.event .CAM 8 else s
    let s := if flags.testBit 1 then s.incF .CAM (CAM_C_SL_CNT n) 31 16 1 else s
    let s := if flags.testBit 2 then s.incF .CAM (CAM_C_SL_CNT n) 15 0 1 else s
    let s := if flags.testBit 1 || flags.testBit 2 then s.event .CAM 9 else s
    let s := if f.rawIdx = 255 then (s.camDeliver n f t).camTestInline n tp room
      else (s.camFill n f).camEnqueue { cam := n, cls := s.f .CAM (CAM_C_CTRL n) 5 4, frame := f }
    s.camHalt n

/-- The frame number of the last frame started and its SOF time. -/
def State.camStarted (s : State) (n t : Nat) : State :=
  let k := (s.camCh n).started
  let s := s.camMod n (fun c => { c with started := (k + 1) % 2 ^ 32 })
  ((s.wrN .CAM (CAM_C_FRAME_NO n) k).wrN .CAM (CAM_C_SOF_LO n) t).wrN .CAM (CAM_C_SOF_HI n) (t / 2 ^ 32)

/-- A frame of a running camera opens (R195, R202, R204); `ecc`: whether its start's header was corrected. -/
def State.camOpen (s : State) (n no t ecc : Nat) : State :=
  let c := s.camCh n
  let flags := b2n c.param.isNone * 128 + b2n c.fresh * 512 + b2n c.inline * 1024
  let f : CamFrame := { no := no, sof := t, flags := flags, param := c.param, ecc := ecc }
  let s := s.camMod n (fun c => { c with fresh := false })
  if c.inline then s.camMod n (fun c => { c with frame := some f })
  else
    let i := c.rawNext % c.rawBufs
    let holds := fun (j : CamJob) => j.cam == n && j.frame.rawIdx == i
    if s.cam.busy.any holds then
      (s.camDrop n { f with rawIdx := i, fe := t } 2).camMod n (fun c => { c with frame := some { f with rawIdx := i, dropped := true } })
    else
      let s := match s.cam.queue.find? holds with
        | some j => ((s.putCam { s.cam with queue := s.cam.queue.erase j }).camDrop n j.frame 2).camShow
        | none => s
      s.camMod n (fun c => { c with frame := some { f with rawIdx := i }, rawNext := (i + 1) % c.rawBufs })

/-- The trigger period that the registers hold, in ns: non-zero values below 16,666,667 taken as that. -/
def State.trigPeriod (s : State) (n : Nat) : Nat :=
  let p := s.rdN .CAM (CAM_C_TRIG_PERIOD n)
  if p = 0 then 0 else max 16666667 p

/-- A camera's frame rate as a fraction (R192): NOM_FPS as read at CAM_START where it runs (R212). -/
def State.camRate (s : State) (n : Nat) : Nat × Nat :=
  let p := s.trigPeriod n
  let c := s.camCh n
  if p = 0 then (if c.run then fld (c.word 0) 31 24 else s.f .CAM (CAM_C_CTRL n) 31 24, 1) else (1000000000, p)

/-- `k` nominal frame periods have passed between two times. -/
def State.camPeriods (s : State) (n k t0 t : Nat) : Bool := decide (k * 1000000000 * (s.camRate n).2 ≤ (t - t0) * (s.camRate n).1)

/-- A frame start while the fill lines of an in-line frame are emitted ends the fill: the lines not yet emitted, at one line in each
configured height's part of the nominal frame period after the frame end, are zero (R207). -/
def State.camFillEnd (s : State) (n t : Nat) : State :=
  let c := s.camCh n
  match c.fill with
  | none => s
  | some (f, out) =>
    let s := s.camMod n (fun c => { c with fill := none })
    let r := s.camRate n
    let first := ((f.raw.take c.exps).map List.length).foldl min c.h
    let cut := first + (t - f.fe) * c.h * r.1 / (1000000000 * max 1 r.2)
    if cut < c.h then s.camPixelsOut n out f (cutImage cut (s.camImage n f)) else s

/-- FRAME_START_PACKET (R195): the frame number advances; a frame still open ends as NO_FE (Table 8-6), with no blanking after it. -/
def execFrameStartPacket (n : Fin 8) (p : CamStamp) (s : State) : Res :=
  let n := n.val
  let t := p.t
  let r := s.camPkt (n / 4) p.pk
  let s := r.1
  if !r.2 then ok s
  else
    let s := if (s.camCh n).frame.isSome then s.camEnd n t [4] 0 false else s
    let s := s.camFillEnd n t
    let no := (s.camCh n).started
    let s := s.camStarted n t
    if (s.camCh n).run then ok ((s.camParam n).camOpen n no t (pktFixed p.pk)) else ok s

/-- FRAME_END_PACKET (R195, R202). -/
def execFrameEndPacket (n : Fin 8) (p : CamStamp) (tp : Word) (blank : Bool) (s : State) : Res :=
  let n := n.val
  let r := s.camPkt (n / 4) p.pk
  let s := r.1
  if !r.2 then ok s
  else
    let s := s.camMod n (fun c => { c with frame := c.frame.map (fun f => { f with ecc := f.ecc + (pktFixed p.pk) }) })
    ok (s.camEnd n p.t [] tp blank)

/-- NO_FE_TIMEOUT (R206, R211): without a frame end for two nominal frame periods after its start, or after a CAM_STOP, a frame ends
marked NO_FE; a stop that waits for it takes effect. -/
def execNoFeTimeout (n : Fin 8) (e : CamEnding) (s : State) : Res :=
  let c := s.camCh n.val
  let late := c.stop && s.camPeriods n.val 2 c.stopAt e.t
  match c.frame with
  | some f => if late || s.camPeriods n.val 2 f.sof e.t then ok (s.camEnd n.val e.t [4] e.tp e.blank) else ok s
  | none => if late then ok (s.camHalt n.val) else ok s

/-! ## Packets (R191, R193, R206) -/

/-- The exposure that a data type names, of a camera's exposures. -/
def camExp (c : CamCh) (typ : Nat) : Option Nat :=
  let dt := c.word 2
  ([fld dt 5 0, fld dt 13 8, fld dt 21 16].take c.exps).findIdx? (fun d => d == typ)

/-- A data type that Table 8-2 lists for pixel lines. -/
def pixelType (typ : Nat) : Bool := typ == 0x2B || typ == 0x2C || typ == 0x2E || (decide (0x30 ≤ typ) && decide (typ ≤ 0x37))

/-- A frame with a line received in exposure `e`. -/
def frameLine (f : CamFrame) (e : Nat) (line : Option (List Byte)) : CamFrame :=
  { f with raw := f.raw.set e (f.raw.getD e [] ++ [line])
           lines := f.lines.set e (f.lines.getD e 0 + if line.isSome then 1 else 0) }

/-- A frame marked for a long packet whose CRC failed (R191, Table 8-6). -/
def CamFrame.crcMark (f : CamFrame) (bad : Bool) : CamFrame :=
  if bad then { f with flags := flagSet f.flags 0, crcErrs := f.crcErrs + 1 } else f

/-- A pixel line of exposure `e` of a frame (R193, R202, Table 8-6). -/
def State.camLine (s : State) (n e : Nat) (f : CamFrame) (crcBad : Bool) (data : List Byte) : State :=
  let c := s.camCh n
  let f := f.crcMark crcBad
  let k := if c.inline then (f.raw.getD e []).length else f.lines.getD e 0
  if c.h ≤ k then s.camMod n (fun c => { c with frame := some { f with flags := flagSet f.flags 2 } })
  else
    let wrong := data.length != rawBytes c.fmt c.w
    let s := if wrong then s.count (CAM_C_LEN_ERR_CNT n) else s
    let f : CamFrame := if wrong then { f with flags := flagSet f.flags 5, lenErrs := f.lenErrs + 1 } else f
    let line := fitLine c.fmt c.w data
    if c.inline then
      let late := e == 2 && decide (k + 65 < (f.raw.getD 0 []).length)
      s.camMod n (fun c => { c with frame := some (frameLine f e (if late then none else some line)) })
    else
      let s := s.engStore (c.rawAddr f.rawIdx e k) (line ++ List.replicate (c.rawLine - line.length) 0)
      s.camMod n (fun c => { c with frame := some { f with lines := f.lines.set e (k + 1) } })

/-- Embedded data of a frame, up to 16,384 bytes (Table 8-7). -/
def State.camEmb (s : State) (n : Nat) (f : CamFrame) (crcBad : Bool) (data : List Byte) : State :=
  let f := f.crcMark crcBad
  if bitOf ((s.camCh n).word 0) 0 then
    let all := f.emb ++ data
    let flags := if 16384 < all.length then flagSet f.flags 8 else f.flags
    s.camMod n (fun c => { c with frame := some { f with emb := all.take 16384, flags := flags } })
  else s.camMod n (fun c => { c with frame := some f })

/-- LONG_PACKET (R191): its header, its data type, and the frame it belongs to. Line start and line end packets (0x02, 0x03) are
accepted and ignored; the frame boundaries 0x00 and 0x01 have their own rows. -/
def execLongPacket (n : Fin 8) (typ : BitVec 6) (pk : CamPkt) (crcBad : Bool) (data : List Byte) (s : State) : Res :=
  let n := n.val
  let j := n / 4
  let typ := typ.toNat
  if typ < 2 then ok s else
  let r := s.camPkt j pk
  let s := r.1
  if !r.2 || decide (typ < 4) then ok s
  else if !(typ == 0x12 || pixelType typ) then ok (s.camDiscard j)
  else
    let s := if crcBad then s.count (CAM_C_CRC_CNT n) else s
    match (s.camCh n).frame with
    | none => ok (s.incF .CAM (CAM_L_DISCARD j) 15 0 1)
    | some f =>
      if f.dropped then ok s else
      let f : CamFrame := { f with ecc := f.ecc + (pktFixed pk) }
      if typ = 0x12 then ok (s.camEmb n f crcBad data)
      else match camExp (s.camCh n) typ with
        | some e => ok (s.camLine n e f crcBad data)
        | none => ok (s.camDiscard j)

/-- The frames in progress on a link that goes down end SHORT and LINK_LOST (R190). -/
def State.camLinkEnd (s : State) (j t : Nat) (tp : Word) (blank : Bool) : State :=
  s.each (upto 4) (fun s v => s.camEnd (4 * j + v) t [1, 3] tp blank)

/-- LINK_LOST (R190): the link is down, its frames end SHORT and LINK_LOST, and it retrains. -/
def execLinkLost (j : Fin 2) (e : CamEnding) (s : State) : Res :=
  let j := j.val
  if s.linkState j ≠ 2 then ok s
  else
    let s := ((s.setF .CAM (CAM_L_STATUS j) 1 0 1).incF .CAM (CAM_L_STATUS j) 31 16 1).event .CAM 11
    ok (s.camLinkEnd j e.t e.tp e.blank)

/-- The receiver island of a link stops or loses its clock: a link that was up goes down, LINK is raised, and its frames end (R190). -/
def State.camLinkDown (s : State) (j : Nat) : State :=
  let was := s.linkState j
  let s := s.setF .CAM (CAM_L_STATUS j) 1 0 0
  if was = 2 then (s.event .CAM 11).camLinkEnd j s.now 0 false else s

/-! ## Triggers and the memory path -/

/-- The trigger instant k × period + phase that stands within 1 µs of a device time (R194). -/
def trigInstant (p ph t : Nat) : Option Nat :=
  let i := ph + (t + 1000 - ph) / p * p
  if p ≠ 0 ∧ ph ≤ t + 1000 ∧ t ≤ i + 1000 then some i else none

/-- The first instant of a period and phase at or after a device time. -/
def trigFrom (p ph t : Nat) : Nat := ph + (t - ph + p - 1) / p * p

/-- A written period and phase come into force at their first instant at least 1 ms after the write; a period of 0 does 1 ms after it
(R194). -/
def State.trigTake (s : State) (n : Nat) : State :=
  match (s.camCh n).trigNew with
  | none => s
  | some (p, ph, w) =>
    if (if p = 0 then w + 1000000 else trigFrom p ph (w + 1000000)) ≤ s.now + 1000 then
      s.camMod n (fun c => { c with trigNow := (p, ph), trigNew := none })
    else s

/-- A write of TRIG_PERIOD or TRIG_PHASE (R194). -/
def State.trigWrite (s : State) (n : Nat) : State :=
  (s.trigTake n).camMod n (fun c => { c with trigNew := some (s.trigPeriod n, s.rdN .CAM (CAM_C_TRIG_PHASE n), s.now) })

/-- FRAME_TRIGGER (R194): at an instant of its period a running camera is triggered, once; a time step or a stop of device time moves
no instant (R233). -/
def execFrameTrigger (n : Fin 8) (s : State) : Res :=
  let s := s.trigTake n.val
  let c := s.camCh n.val
  match trigInstant c.trigNow.1 c.trigNow.2 s.now with
  | some t => if c.run && !c.stop && c.trigAt != some t then ok (s.camMod n.val (fun c => { c with trigAt := some t })) else ok s
  | none => ok s

/-- FRAME_PROCESSED (R202, R210): the frame being processed is delivered at time `t`; the camera's test pattern, where it is due, is the
next job, and its end is this row too. Then the next frame starts. -/
def execFrameProcessed (t : Nat) (tp : Word) (s : State) : Res :=
  match s.cam.test, s.cam.busy with
  | some n, _ => ok ((s.putCam { s.cam with test := none }).camTestRun n tp).camNext
  | none, some j =>
    let s := s.camDeliver j.cam j.frame t
    ok (s.putCam { s.cam with busy := none, test := if s.camTestDue j.cam then some j.cam else none }).camNext
  | none, none => ok s

/-! ## Commands (Table 8-12) -/

/-- A camera's fields stand within R192. -/
def State.camFieldsOk (s : State) (n : Nat) : Bool :=
  let w := s.f .CAM (CAM_C_SIZE n) 11 0
  let h := s.f .CAM (CAM_C_SIZE n) 27 16
  let fps := s.f .CAM (CAM_C_CTRL n) 31 24
  let p := s.trigPeriod n
  decide (64 ≤ w) && decide (w ≤ 1920) && w % 16 == 0 && decide (16 ≤ h) && decide (h ≤ 1536) &&
    s.f .CAM (CAM_C_CTRL n) 13 12 != 3 && (if p = 0 then decide (1 ≤ fps) && decide (fps ≤ 60) else decide (p ≤ 1000000000))

/-- A sum of fractions. -/
def fracSum (l : List (Nat × Nat)) : Nat × Nat :=
  l.foldl (fun (a b : Nat × Nat) => (a.1 * b.2 + b.1 * a.2, a.2 * b.2)) (0, 1)

/-- Pixels per second of a camera as a fraction. -/
def State.camPixels (s : State) (n : Nat) (size : Word) : Nat × Nat :=
  let r := s.camRate n
  (fld size 11 0 * fld size 27 16 * r.1, r.2)

/-- Bits per second of a camera as a fraction. -/
def State.camLoad (s : State) (n : Nat) (size ctrl : Word) : Nat × Nat :=
  let p := s.camPixels n size
  let bpp := match fld ctrl 13 12 with | 0 => 10 | 1 => 12 | _ => 16
  (p.1 * max 1 (fld ctrl 11 10) * bpp, p.2)

/-- SIZE and CTRL of a camera: as read at its start where it runs. -/
def State.camUse (s : State) (n : Nat) : Word × Word :=
  let c := s.camCh n
  if c.run then (c.word 1, c.word 0) else (s.rd .CAM (CAM_C_SIZE n), s.rd .CAM (CAM_C_CTRL n))

/-- The payload limit of a gear in Mbit/s (Table 8-1). -/
def gearLimit (g : Nat) : Nat := match g with | 1 => 1750 | 2 => 3500 | 3 => 7000 | 4 => 10500 | 5 => 14000 | _ => 0

/-- The camera runs in-line under CAM_CFG (R201). -/
def State.camInline (s : State) (n : Nat) : Bool := s.bit .CAM CAM_CFG 8 && s.f .CAM CAM_CFG 2 0 == n

/-- The loads of a set of cameras stand within R192. -/
def State.camFits (s : State) (ns : List Nat) : Bool :=
  (upto 2).all (fun j =>
    let t := fracSum ((ns.filter (fun n => n / 4 == j)).map (fun n => s.camLoad n (s.camUse n).1 (s.camUse n).2))
    decide (t.1 ≤ gearLimit (s.f .CAM (CAM_L_STATUS j) 10 8) * 1000000 * t.2) || (ns.filter (fun n => n / 4 == j)).isEmpty) &&
  (let t := fracSum ((ns.filter (fun n => !s.camInline n)).map (fun n => s.camPixels n (s.camUse n).1))
   decide (t.1 ≤ 720000000 * t.2))

/-- One camera starts with the words that CAM_START reads. -/
def State.camBegin (s : State) (n : Nat) : State :=
  let snap := (camRegs n).map (fun o => s.rd .CAM o)
  let il := s.camInline n
  let s := s.camMod n (fun c => { c with
    run := true, stop := false, snap := snap, inline := il, rawNext := 0, outNext := 0, recNext := 0, fill := none
    cfg := Config.camConfig s.sys.camSet n })
  let s := (s.setBit .CAM (CAM_C_STATUS n) 0 true).setBit .CAM CAM_STATUS (8 + n) true
  s.setBit .CAM (CAM_C_STATUS n) 1 (s.camCh n).param.isNone

/-- The version agreed with an aggregator (R434): the current major is 5 and the window 3–5; none outside it. -/
def probeAgreed (p : CamProbe) : Option (Nat × Nat) :=
  let m := min 5 p.hi.toNat
  if m < max 3 p.lo.toNat then none else some (m, if m = p.hi.toNat then p.minor.toNat else 0)

/-- The version of the U09 image in use. -/
def State.camVersion (s : State) : Nat := match s.inUse 9 with | some b => s.slotVer 9 b | none => 0

/-- CAM_START at one camera (R196): the identity is read and held to the configuration's rules, the version is agreed and recorded, and
the register sequence is written and read back. -/
def State.camProbe (s : State) (n : Nat) (p : CamProbe) : State × Option Result :=
  if !Config.camAccepts s.camVersion (Config.camConfig s.sys.camSet n) p.ident then (s, some .incompatible)
  else
    let s := s.wrN .UPD (UPD_PARTNER_RANGE 4) (p.hi.toNat * 256 + p.lo.toNat)
    match probeAgreed p with
    | none => (s.wrN .UPD (UPD_PARTNER_VER 4) 0, some .incompatible)
    | some v => (s.wrN .UPD (UPD_PARTNER_VER 4) (v.1 * 2 ^ 24 + v.2 * 2 ^ 16), if p.wrote then none else some .badBlock)

/-- The cameras of a list in order, up to the first whose configuration fails. -/
def State.camProbeAll (ps : List CamProbe) : List Nat → State → State × Option Result
  | [], s => (s, none)
  | n :: t, s =>
    match s.camProbe n (ps.getD n ⟨0, 0, 0, 0, false⟩) with
    | (s, none) => State.camProbeAll ps t s
    | r => r

/-- CAM_START once its links are up (R192, R196). -/
def State.camStartGo (s : State) (a : List Word) : State × Result :=
  let ns := (bitsOf (arg a 0).toNat 8).filter (fun n => !(s.camCh n).run)
  let all := (upto 8).filter (fun n => (s.camCh n).run || ns.contains n)
  if !s.camFits all then (s, .noSpace)
  else match State.camProbeAll s.cam.probes ns s with
    | (s, some e) => (s.event .CAM 14, e)
    | (s, none) => (s.each ns State.camBegin, .ok)

/-- The links that a mask needs are up. -/
def State.camLinksUp (s : State) (a : List Word) : Bool :=
  (bitsOf (arg a 0).toNat 8).all (fun n => (s.camCh n).run || s.linkState (n / 4) == 2)

/-- CAM_START (Table 8-12): it waits up to 1 s for the links it needs. -/
def execCamStart (found : List CamProbe) (s : State) : Res :=
  ok (s.command .CAM 1 fun a s =>
    let ns := (bitsOf (arg a 0).toNat 8).filter (fun n => !(s.camCh n).run)
    if s.mode = 0 then refuse s .refusedMode
    else if ns.any (fun n => !s.camFieldsOk n) then refuse s .badHeader
    else
      let s := s.putCam { s.cam with startAt := s.clk.up, probes := found }
      if s.camLinksUp a then let r := s.camStartGo a; done r.1 r.2 else (s, none))

/-- A CAM_START that waits, at a link event and as time passes: it goes on once its links are up, and ends ABORTED after 1 s
(R196, Table 8-12). -/
def State.camStartWait (s : State) : State :=
  let m := s.mailOf .CAM
  if m.code ≠ 1 then s
  else if s.cam.startAt + 1000000000 < s.clk.up then s.cmdEnd .CAM .aborted
  else if s.camLinksUp m.args then let r := s.camStartGo m.args; r.1.cmdEnd .CAM r.2
  else s

/-- LINK_TRAINED (R190): training ends on a link that trains. -/
def execLinkTrained (j : Fin 2) (gears : BitVec 5) (s : State) : Res :=
  if s.linkState j.val = 1 then ok (s.linkTrain j.val gears).camStartWait else ok s

/-- TRAINING_RETRY (R190): a failed training is tried again after 1 s. -/
def execTrainingRetry (j : Fin 2) (gears : BitVec 5) (s : State) : Res :=
  if s.linkState j.val = 1 ∧ s.cam.failed.get false j.val = true then ok (s.linkTrain j.val gears).camStartWait else ok s

/-- CAM_STOP (R211): each named camera stops at its next frame end. -/
def execCamStop (s : State) : Res :=
  ok (s.command .CAM 2 fun a s =>
    let ns := (bitsOf (arg a 0).toNat 8).filter (fun n => (s.camCh n).run)
    if ns.isEmpty then done s .ok
    else (s.each ns (fun s n => s.camMod n (fun c => { c with stop := true, stopAt := s.now })), none))

/-- PARAM_LOAD (R199): a checked block waits for the camera's next frame start, or comes into force at once. -/
def execParamLoad (s : State) : Res :=
  ok (s.command .CAM 3 fun a s =>
    let n := fld (arg a 0) 2 0
    let base := s.f .CAM (CAM_C_PARAM_BASE_HI n) 7 0 * 2 ^ 32 + s.f .CAM (CAM_C_PARAM_BASE_LO n) 31 12 * 4096
    let p := s.rdBytes base 4096
    if s.engBad base 4096 = true ∨ crc32c (p.take 0xFFC) ≠ par32 p 0xFFC then (s.event .CAM 13, some .badBlock)
    else
      let s := s.camMod n (fun c => { c with next := some p })
      if (s.camCh n).run then (s, none)
      else
        let s := s.camMod n (fun c => { c with param := some p, next := none, fresh := true })
        done (s.setBit .CAM (CAM_C_STATUS n) 1 false) .ok)

/-- CLEAR_COUNTS (Table 8-12). -/
def execCamClearCounts (s : State) : Res :=
  ok (s.command .CAM 4 fun a s =>
    let s := s.each (bitsOf (arg a 0).toNat 8) (fun s n =>
      s.each [CAM_C_CRC_CNT n, CAM_C_SL_CNT n, CAM_C_DROP_CNT n, CAM_C_LEN_ERR_CNT n] (fun s o => s.wrN .CAM o 0))
    let b := arg a 1
    let s := if bitOf b 0 then s.each (upto 2) (fun s j =>
        (((s.setF .CAM (CAM_L_STATUS j) 31 16 0).wrN .CAM (CAM_L_RETX j) 0).wrN .CAM (CAM_L_ECC j) 0).wrN .CAM (CAM_L_DISCARD j) 0)
      else s
    let s := if bitOf b 1 then (s.setF .CAM CAM_TP_STATUS 31 7 0).wrN .CAM CAM_TP_SKIP 0 else s
    done (if bitOf b 2 then s.setF .CAM CAM_STATUS 19 16 0 else s) .ok)

/-- Every frame is discarded without a record and every camera stops: the power-loss declaration (R42, R211). -/
def State.camDiscardAll (s : State) : State :=
  let s := s.putCam { s.cam with queue := [], busy := none, test := none }
  let s := s.each (upto 8) (fun s n =>
    (s.camMod n (fun c => { c with run := false, stop := false, frame := none, fill := none })).setBit .CAM (CAM_C_STATUS n) 0 false)
  (s.setF .CAM CAM_STATUS 15 8 0).camShow

/-- CAM at a core reset (R211): frames, queue, frame numbers and parameters are gone. -/
def State.camCoreReset (s : State) : State := (s.resetWindow .CAM (fun _ => false)).putCam {}

end Sys2Proof.Machine
end

