-- ==== Sys2Proof/Machine/Can.lean ====
section
/-! DEFINITION. The CAN controllers (R384–R401): reception, transmission, error states, ISOBUS sessions and
time-triggered operation. -/

namespace Sys2Proof.Machine

/-! ## Error counters (R392; ISO 11898-1) -/

/-- The state that the error counters give: 2 ERROR_ACTIVE, 3 ERROR_PASSIVE, 4 BUS_OFF. -/
def errorState (tec rec : Nat) : Nat := if 255 < tec then 4 else if 127 < tec ∨ 127 < rec then 3 else 2

/-- New error counters, and the state they bring to a controller on the bus; bus-off counts, raises BUS_OFF, and with
AUTO_RECOVER starts its recovery. -/
def State.canErrs (s : State) (n tec rec : Nat) : State :=
  let s := (s.setF .CAN (CAN_CH_STATUS n) 31 24 (min 255 tec)).setF .CAN (CAN_CH_STATUS n) 23 16 (min 255 rec)
  if s.canState n = 2 ∨ s.canState n = 3 then
    let st := errorState tec rec
    let s := s.canSetState n st
    if st = 4 then
      let s := (s.incF .CAN (CAN_CH_ERRS n) 31 24 1).canEvent n 9
      let s := s.cchMod n (fun c => { c with tx := none })
      if s.canCfg n 10 then s.canSetState n 5 else s
    else s
  else s

/-- TEC of a controller. -/
def State.canTec (s : State) (n : Nat) : Nat := s.f .CAN (CAN_CH_STATUS n) 31 24
/-- REC of a controller. -/
def State.canRec (s : State) (n : Nat) : Nat := s.f .CAN (CAN_CH_STATUS n) 23 16

/-- An error frame is detected: its count, LAST_ERR and DATA_PHASE. -/
def State.canErrFrame (s : State) (n : Nat) (e : CanErr) : State :=
  let s := s.setF .CAN (CAN_CH_ERRS n) 23 0 (satAdd 0xFFFFFF (s.f .CAN (CAN_CH_ERRS n) 23 0) 1)
  (s.setF .CAN (CAN_CH_STATUS n) 7 5 e.kind.val).setBit .CAN (CAN_CH_STATUS n) 4 e.dataPhase

/-! ## ISOBUS transport sessions (R397; ISO 11783-3) -/

/-- A session's record. -/
def State.ses (s : State) (n k : Nat) : CanSes := (s.cch n).ses.get {} k

/-- A session's record set. -/
def State.sesSet (s : State) (n k : Nat) (c : CanSes) : State := s.cchMod n (fun x => { x with ses := x.ses.set {} k c })

/-- The controller's own ISOBUS address. -/
def State.isbAddr (s : State) (n : Nat) : Nat := s.f .CAN (CAN_CH_ISB_ADDR n) 7 0

/-- A session's handshake waits from now on for at most `ms` (R397). -/
def State.sesWait (s : State) (n k ms : Nat) : State := s.sesSet n k { s.ses n k with since := s.clk.up, wait := ms }

/-- A session ends (R397): its result with the abort reason and, for a reception, what it received. -/
def State.sesEnd (s : State) (n k : Nat) (r : Result) (reason : Nat) : State :=
  let c := s.ses n k
  let rx := (c.phase == 6 || c.phase == 7) && r == .ok
  let s := s.wrN .CAN (CAN_CH_ISB_SES_STATUS n k) (reason % 256 * 2 ^ 24 + (if rx then c.peer * 256 else 0) + r.code)
  let s := if rx then (s.setF .CAN (CAN_CH_ISB_SES_PGN n k) 17 0 c.pgn).setF .CAN (CAN_CH_ISB_SES_LEN n k) 26 0 c.len else s
  let s := (s.sesSet n k {}).cchMod n (fun x => { x with out := x.out.filter (fun p => p.1 != k) })
  s.canEvent n 5

/-- The identifier of a transport frame: priority, PF, destination and the own address. -/
def State.isbId (s : State) (n prio pf dst : Nat) : Word := wordN (2 ^ 31 + prio * 2 ^ 26 + pf * 2 ^ 16 + dst * 2 ^ 8 + s.isbAddr n)

/-- An 8-byte classical frame. -/
def frame8 (id : Word) (bs : List Byte) : CanFrame := { id := id, fmt := wordN (8 * 2 ^ 16), time := 0, data := bs }

/-- A session queues a frame to be sent. -/
def State.sesQueue (s : State) (n k : Nat) (f : CanFrame) : State :=
  s.cchMod n (fun c => { c with out := c.out ++ [(k, f)] })

/-- A session queues a connection management frame: five bytes after the control byte's, then the PGN. -/
def State.sesCm (s : State) (n k prio : Nat) (etp : Bool) (dst pgn : Nat) (bs : List Nat) : State :=
  s.sesQueue n k (frame8 (s.isbId n prio (if etp then 0xC8 else 0xEC) dst)
    (bs.map (fun b => BitVec.ofNat 8 b) ++ leBytes 3 pgn))

/-- The packets of a message. -/
def packets (len : Nat) : Nat := (len + 6) / 7

/-- A session queues data packet `i` (from 1) under sequence number `seq`. -/
def State.sesDt (s : State) (n k i seq dst : Nat) : State :=
  let c := s.ses n k
  let m := min 7 (c.len - 7 * (i - 1))
  let bs := s.rdBytes (c.addr + 7 * (i - 1)) m ++ List.replicate (7 - m) 0xFF
  s.sesQueue n k (frame8 (s.isbId n c.prio (if c.etp then 0xC7 else 0xEB) dst) (BitVec.ofNat 8 seq :: bs))

/-- A connection abort is sent to a peer (control byte 255). -/
def State.sesAbortTx (s : State) (n k : Nat) (etp : Bool) (dst pgn reason : Nat) : State :=
  (s.sesCm n k 7 etp dst pgn [255, reason, 0xFF, 0xFF, 0xFF])

/-- A receiving session asks for its next window of packets. -/
def State.sesCts (s : State) (n k : Nat) : State :=
  let c := s.ses n k
  let m := min c.win (packets c.len + 1 - c.next)
  let s := (s.sesSet n k { c with last := c.next + m - 1 }).sesWait n k 1250
  if c.etp then s.sesCm n k c.prio true c.peer c.pgn ([21, m] ++ [c.next % 256, c.next / 256 % 256, c.next / 65536 % 256])
  else s.sesCm n k c.prio false c.peer c.pgn [17, m, c.next, 0xFF, 0xFF]

/-- The end of message acknowledgement of a receiving session, which ends it. -/
def State.sesEoma (s : State) (n k : Nat) : State :=
  let c := s.ses n k
  let s := if c.phase = 7 then s
    else if c.etp then s.sesCm n 8 c.prio true c.peer c.pgn ([23] ++ (leBytes 4 c.len).map (fun b => b.toNat))
    else s.sesCm n 8 c.prio false c.peer c.pgn [19, c.len % 256, c.len / 256, packets c.len, 0xFF]
  s.sesEnd n k .ok 0

/-- The sessions in a phase that satisfy a condition, lowest first. -/
def State.sesFind (s : State) (n : Nat) (p : CanSes → Bool) : Option Nat := (upto 8).find? (fun k => p (s.ses n k))

/-- A request to send, or a BAM, reaches the controller: an armed session takes it, or it is aborted or ignored (R397). -/
def State.sesRts (s : State) (n src pgn len win : Nat) (etp bam : Bool) : State :=
  match s.sesFind n (fun c => c.phase == 1 && (c.peer == 0xFF || c.peer == src)) with
  | none => if bam then s.incF .CAN (CAN_CH_LOST n) 31 16 1 else s.sesAbortTx n 8 etp src pgn 1
  | some k =>
    let c := s.ses n k
    if c.cap < len then (if bam then s else s.sesAbortTx n 8 etp src pgn 2)
    else
      let s := s.sesSet n k { c with phase := if bam then 7 else 6, peer := src, pgn := pgn, len := len, etp := etp
                                     next := 1, last := packets len, win := max 1 win, off := 0 }
      if bam then s.sesWait n k 750 else s.sesCts n k

/-- A clear to send reaches a sending session: it queues the packets of the window (none: hold, T4). -/
def State.sesClear (s : State) (n k m next : Nat) : State :=
  let c := s.ses n k
  let total := packets c.len
  let m := min m (total + 1 - next)
  if m = 0 then s.sesWait n k 1050
  else
    let s := if c.etp then s.sesCm n k c.prio true c.peer c.pgn ([22, m] ++ [(next - 1) % 256, (next - 1) / 256 % 256, (next - 1) / 65536 % 256]) else s
    let s := s.each (upto m) (fun s i => s.sesDt n k (next + i) (if c.etp then i + 1 else next + i) c.peer)
    (s.sesSet n k { s.ses n k with next := next + m, phase := if next + m = total + 1 then 4 else 2 }).sesWait n k 1250

/-- A data packet reaches a receiving session: the expected one is stored and counted, any other is ignored. -/
def State.sesData (s : State) (n k seq : Nat) (bs : List Byte) : State :=
  let c := s.ses n k
  let i := if c.etp then c.off + seq else c.next / 256 * 256 + seq
  if i ≠ c.next then s
  else
    let s := s.engStore (c.addr + 7 * (i - 1)) (bs.take (min 7 (c.len - 7 * (i - 1))))
    let s := s.sesSet n k { c with next := i + 1 }
    if i = packets c.len then s.sesEoma n k
    else if i = c.last ∧ c.phase = 6 then s.sesCts n k
    else s.sesWait n k 750

/-- A connection management frame for this controller, by its control byte: the state after it if a session uses it. -/
def State.sesCmRx (s : State) (n src dst : Nat) (etp : Bool) (d : List Byte) : Option State :=
  let b := fun i => (d.getD i 0).toNat
  let pgn := leNat ((d.drop 5).take 3)
  let mine := dst == s.isbAddr n
  let peer := fun (ph : Nat → Bool) => s.sesFind n (fun c => ph c.phase && c.peer == src && c.etp == etp && c.pgn == pgn)
  let tx := peer (fun p => p == 2 || p == 4)
  match etp, b 0 with
  | false, 16 => if mine then some (s.sesRts n src pgn (b 1 + 256 * b 2) (b 4) false false) else none
  | false, 32 => if dst == 0xFF then some (s.sesRts n src pgn (b 1 + 256 * b 2) 255 false true) else none
  | true, 20 => if mine then some (s.sesRts n src pgn (leNat ((d.drop 1).take 4)) 255 true false) else none
  | false, 17 => if mine then tx.map (fun k => s.sesClear n k (b 1) (b 2)) else none
  | true, 21 => if mine then tx.map (fun k => s.sesClear n k (b 1) (leNat ((d.drop 2).take 3))) else none
  | false, 19 => if mine then (peer (fun p => p == 4)).map (fun k => s.sesEnd n k .ok 0) else none
  | true, 23 => if mine then (peer (fun p => p == 4)).map (fun k => s.sesEnd n k .ok 0) else none
  | true, 22 =>
    if mine then (peer (fun p => p == 6)).map (fun k => s.sesSet n k { s.ses n k with off := leNat ((d.drop 2).take 3) }) else none
  | _, 255 => if mine then (peer (fun p => p == 2 || p == 4 || p == 6)).map (fun k => s.sesEnd n k .aborted (b 1)) else none
  | _, _ => none

/-- A frame that a session of an ISOBUS controller uses: the state after it (R397). -/
def State.sesRx (s : State) (n : Nat) (f : CanRx) : Option State :=
  let pf := fld f.id 23 16
  let dst := fld f.id 15 8
  let src := fld f.id 7 0
  if !s.canCfg n 15 || !bitOf f.id 31 || fld f.id 25 24 != 0 || decide (0xFE ≤ s.isbAddr n) then none
  else match pf with
    | 0xEC => s.sesCmRx n src dst false f.data
    | 0xC8 => s.sesCmRx n src dst true f.data
    | 0xEB =>
      (s.sesFind n (fun c => !c.etp && c.peer == src &&
        ((c.phase == 6 && dst == s.isbAddr n) || (c.phase == 7 && dst == 0xFF)))).map
        (fun k => s.sesData n k (f.data.getD 0 0).toNat (f.data.drop 1))
    | 0xC7 =>
      (s.sesFind n (fun c => c.etp && c.peer == src && c.phase == 6 && dst == s.isbAddr n)).map
        (fun k => s.sesData n k (f.data.getD 0 0).toNat (f.data.drop 1))
    | _ => none

/-- The parameters that a session takes when its CTRL is written. -/
def State.sesTake (s : State) (n k : Nat) (v : Word) (phase : Nat) : CanSes :=
  let len := s.f .CAN (CAN_CH_ISB_SES_LEN n k) 26 0
  { phase := phase, peer := fld v 23 16, prio := fld v 28 26, pgn := s.f .CAN (CAN_CH_ISB_SES_PGN n k) 17 0
    addr := s.f .CAN (CAN_CH_ISB_SES_ADDR_HI n k) 7 0 * 2 ^ 32 + s.rdN .CAN (CAN_CH_ISB_SES_ADDR_LO n k)
    len := len, cap := len, etp := decide (1785 < len), since := s.clk.up, wait := 1250 }

/-- A session runs. -/
def State.sesBusy (s : State) (n k : Nat) : Bool := (s.ses n k).phase != 0

/-- The session registers take a CTRL write, and the session shows that it runs. -/
def State.sesStart (s : State) (n k : Nat) (v : Word) (phase : Nat) : State :=
  let s := s.wr .CAN (CAN_CH_ISB_SES_CTRL n k) v
  (s.sesSet n k (s.sesTake n k v phase)).wrN .CAN (CAN_CH_ISB_SES_STATUS n k) 0xFF

/-- ISB_SEND (R397): a CTRL write with OP 1 starts a TP, ETP or BAM transmission on a started ISOBUS controller. -/
def execIsbSend (n : Fin 2) (k : Fin 8) (v : Word) (s : State) : Res :=
  if fld v 31 30 = 1 ∧ s.canCfg n.val 15 ∧ s.canStarted n.val ∧ !s.sesBusy n.val k.val then
    let s := s.sesStart n.val k.val v 2
    if 0xFE ≤ s.isbAddr n.val then ok (s.sesEnd n.val k.val .refusedMode 0)
    else
      let c := s.ses n.val k.val
      let bam := c.peer == 0xFF
      let s :=
        if bam then
          let s := s.sesSet n.val k.val { c with phase := 5, etp := false }
          s.sesCm n.val k.val c.prio false 0xFF c.pgn [32, c.len % 256, c.len / 256 % 256, packets c.len, 0xFF]
        else if c.etp then s.sesCm n.val k.val c.prio true c.peer c.pgn ([20] ++ (leBytes 4 c.len).map (fun b => b.toNat))
        else s.sesCm n.val k.val c.prio false c.peer c.pgn [16, c.len % 256, c.len / 256, packets c.len, 0xFF]
      ok (s.canKick n.val)
  else ok (s.wr .CAN (CAN_CH_ISB_SES_CTRL n.val k.val) v)

/-- ISB_ARM_RECEIVE (R397): a CTRL write with OP 2 arms a reception. -/
def execIsbArmReceive (n : Fin 2) (k : Fin 8) (v : Word) (s : State) : Res :=
  if fld v 31 30 = 2 ∧ s.canCfg n.val 15 ∧ s.canStarted n.val ∧ !s.sesBusy n.val k.val then
    ok (s.sesStart n.val k.val v 1)
  else ok (s.wr .CAN (CAN_CH_ISB_SES_CTRL n.val k.val) v)

/-- ISB_TIMEOUT (R397): a running session's handshake waits until its timeout runs out, T1 between packets, T2 after a clear to
send, T3 for the peer's answer, T4 on hold (ISO 11783-3, PRESUMED, assumption log 57), and it aborts with reason 3. -/
def execIsbTimeout (n : Fin 2) (k : Fin 8) (s : State) : Res :=
  let c := s.ses n.val k.val
  if 2 ≤ c.phase ∧ c.phase ≠ 5 then
    let s := s.pass (c.since + c.wait * 1000000 - s.clk.up)
    let s := s.sesEnd n.val k.val .aborted 3
    let s := if c.phase = 7 then s else s.sesAbortTx n.val 8 c.etp c.peer c.pgn 3
    ok (s.canKick n.val)
  else ok s

/-- BAM_PACKET (R397): 50 ms after its last packet a BAM session sends the next, and it ends after the last. -/
def execBamPacket (n : Fin 2) (k : Fin 8) (s : State) : Res :=
  let c := s.ses n.val k.val
  if c.phase = 5 then
    let s := (s.pass (c.since + 50000000 - s.clk.up)).sesWait n.val k.val 0
    let s := s.sesDt n.val k.val c.next c.next 0xFF
    if packets c.len ≤ c.next then
      let out := (s.cch n.val).out.map (fun p => (if p.1 = k.val then 8 else p.1, p.2))
      let s := s.cchMod n.val (fun x => { x with out := out })
      ok ((s.sesEnd n.val k.val .ok 0).canKick n.val)
    else ok ((s.sesSet n.val k.val { s.ses n.val k.val with next := c.next + 1 }).canKick n.val)
  else ok s

/-! ## Reception (R388, R389) -/

/-- A frame for a receive FIFO; a full one discards it (R388). -/
def State.fifoPut (s : State) (n f : Nat) (x : CanFrame) : State :=
  let q := if f = 0 then (s.cch n).fifo0 else (s.cch n).fifo1
  if 64 ≤ q.length then (s.incF .CAN (CAN_CH_FIFO_STATUS n f) 31 16 1).canEvent n 11
  else
    let s := s.cchMod n (fun c => if f = 0 then { c with fifo0 := q ++ [x] } else { c with fifo1 := q ++ [x] })
    (s.fifoShow n f).canEvent n (1 + f)

/-- The head entry of a receive FIFO is removed. -/
def State.fifoPop (s : State) (n f : Nat) : State :=
  ((s.cchMod n (fun c => if f = 0 then { c with fifo0 := c.fifo0.tail } else { c with fifo1 := c.fifo1.tail })).fifoShow n f).partClear (32 + 2 * n + f)

/-- A frame becomes a receive buffer's content: NEW sets, or a frame not yet read is overwritten (R389). -/
def State.mbTake (s : State) (n b : Nat) (x : CanFrame) : State :=
  let was := s.mbBit (CAN_CH_NEW n 0) b
  let s := s.mbStore n b x
  let s := if was then s.mbLost n b else (s.mbPut (CAN_CH_NEW n 0) b true).canEvent n 0
  s.slotsTake n b x

/-- A received frame for a receive buffer: its content, or its shadow while it is locked (R389). -/
def State.mbReceive (s : State) (n b : Nat) (x : CanFrame) : State :=
  let s := s.cchMod n (fun c => { c with got := c.got.set 0 b s.clk.up })
  if s.mbBit (CAN_CH_LOCK n 0) b then
    let s := if ((s.cch n).shadow.get none b).isSome then s.mbLost n b else s
    s.cchMod n (fun c => { c with shadow := c.shadow.set none b (some x) })
  else s.mbTake n b x

/-- A frame matches an ID, its IDE and a mask (R388). -/
def idMatch (id ref mask : Word) (ide : Bool) : Bool :=
  bitOf id 31 == ide && ((id ^^^ ref) &&& mask &&& fldMask 28 0) == 0

/-- The first place that a received frame matches (R388). -/
def State.canPlace (s : State) (n : Nat) (x : CanFrame) : State :=
  match (upto 128).find? (fun b => s.mbKind n b == 1 &&
      idMatch x.id (s.rd .CAN (CAN_MB n b 1)) (s.rd .CAN (CAN_MB n b 2)) (s.bit .CAN (CAN_MB n b 1) 31)) with
  | some b => s.mbReceive n b x
  | none =>
    match (upto 64).find? (fun m => s.f .CAN (CAN_CH_FILTER_ID n m) 31 30 != 0 &&
        idMatch x.id (s.rd .CAN (CAN_CH_FILTER_ID n m)) (s.rd .CAN (CAN_CH_FILTER_MASK n m)) (s.bit .CAN (CAN_CH_FILTER_ID n m) 29)) with
    | some m =>
      match s.f .CAN (CAN_CH_FILTER_ID n m) 31 30 with
      | 1 => s.fifoPut n 0 x
      | 2 => s.fifoPut n 1 x
      | _ => s
    | none => s.incF .CAN (CAN_CH_LOST n) 31 16 1

/-- FRAME_RECEIVED (R388): on a controller that is on the bus and whose island runs locked (R74, R76); a frame that ends with an error is counted, one that a
session uses is not stored. -/
def execFrameReceived (n : Fin 8) (sof : Nat) (f : CanRx) (bad : Option CanErr) (s : State) : Res :=
  let listen := s.canCfg n.val 13
  if (s.canState n.val = 2 ∨ s.canState n.val = 3) ∧ s.canLive n.val then
    match bad with
    | some e =>
      let s := s.canErrFrame n.val e
      ok (if listen then s else s.canErrs n.val (s.canTec n.val) (s.canRec n.val + 1))
    | none =>
      let r := s.canRec n.val
      let s := if listen then s else s.canErrs n.val (s.canTec n.val) (if 127 < r then 127 else r - 1)
      match (if listen then none else s.sesRx n.val f) with
      | some s => ok (s.canKick n.val)
      | none =>
        let k := dlcLen (bitOf f.fmt 31) (fld f.fmt 19 16)
        let d := if bitOf f.fmt 28 && !bitOf f.fmt 31 then [] else f.data.take k
        let fmt := setFld (f.fmt &&& 0xF00F0000) 6 0 d.length
        let id := if bitOf f.id 31 then f.id &&& 0x9FFFFFFF else f.id &&& 0x7FF
        ok (s.canPlace n.val { id := id, fmt := fmt, time := sof, data := d })
  else ok s

/-- FIFO_POP: bit 0 removes the head entry. -/
def execFifoPop (n : Fin 8) (f : Fin 2) (v : Word) (s : State) : Res := ok (if bitOf v 0 then s.fifoPop n.val f.val else s)

/-- MB_LOCK (R389). -/
def execMbLock (n : Fin 8) (b : Fin 128) (s : State) : Res := ok (s.mbPut (CAN_CH_LOCK n.val 0) b.val true)

/-- MB_UNLOCK (R389): NEW clears, and a shadow frame becomes the content; a transmit buffer may be sent again. -/
def execMbUnlock (n : Fin 8) (b : Fin 128) (s : State) : Res :=
  if s.mbBit (CAN_CH_LOCK n.val 0) b.val then
    let s := s.mbPut (CAN_CH_LOCK n.val 0) b.val false
    if s.mbKind n.val b.val = 1 then
      let s := s.mbPut (CAN_CH_NEW n.val 0) b.val false
      match (s.cch n.val).shadow.get none b.val with
      | some x => ok ((s.cchMod n.val (fun c => { c with shadow := c.shadow.set none b.val none })).mbTake n.val b.val x)
      | none => ok s
    else ok (s.canKick n.val)
  else ok s

/-! ## Transmission (R390) -/

/-- TXREQ_WRITE (R390). -/
def execTxreqWrite (n : Fin 8) (i : Fin 4) (v : Word) (s : State) : Res := ok (s.canRequest n.val i.val v)

/-- A buffer's request ends with a TX_RESULT: 1 sent, 2 cancelled, 3 failed. -/
def State.txEnd (s : State) (n b r : Nat) (clear : Bool) : State :=
  let s := s.setF .CAN (CAN_MB n b 0) 25 24 r
  if clear then s.mbPut (CAN_CH_TXREQ n 0) b false else s

/-- TXCANCEL_WRITE (R390): a pending request is cancelled; one whose frame is on the bus, only if that attempt fails. -/
def execTxcancelWrite (n : Fin 8) (i : Fin 4) (v : Word) (s : State) : Res :=
  ok (s.each ((bitsOf v.toNat 32).map (fun k => 32 * i.val + k)) (fun s b =>
    match (s.cch n.val).tx with
    | some t =>
      if t.src = b then s.cchMod n.val (fun c => { c with tx := some { t with cancel := true } })
      else if s.mbBit (CAN_CH_TXREQ n.val 0) b then s.txEnd n.val b 2 true else s
    | none => if s.mbBit (CAN_CH_TXREQ n.val 0) b then s.txEnd n.val b 2 true else s))

/-- TDC_MEAS after an FD frame sent with its rate switched (R387). -/
def State.tdcShow (s : State) (n : Nat) (fmt : Word) (delay : Nat) : State :=
  let tdc := (s.cch n).tdc
  if bitOf tdc 31 && bitOf fmt 31 && bitOf fmt 30 then
    let s := s.setF .CAN (CAN_CH_TDC_MEAS n) 6 0 delay
    if 127 < delay + fld tdc 22 16 then s.setBit .CAN (CAN_CH_TDC_MEAS n) 8 true else s
  else s

/-- A failed attempt of a time-triggered buffer may start again now: its window is arbitrating, the columns up to now are
merged into it, and its longest length fits before their end (R400). -/
def State.ttAgain (s : State) (n : Nat) (t : CanTx) : Bool :=
  let k := (s.cch n).col
  let kind := s.ttKind n k
  (kind == 2 || kind == 3) && decide (s.now + s.worstNs n t.frame.id t.frame.fmt ≤ s.ttUntil n k 3)

/-- The end of an attempt from message buffer `b` (R390, R400). -/
def State.txBuffer (s : State) (n b : Nat) (t : CanTx) (sent : Bool) : State :=
  let s := s.mbTime n b s.now
  if sent then s.txEnd n b 1 (!t.tt)
  else if t.cancel then s.txEnd n b 2 true
  else if t.tt then
    if s.ttAgain n t then s.cchMod n (fun c => { c with tx := some { t with frame := s.sendable n (s.mbFrame n b) } })
    else s.txEnd n b 3 false
  else if s.canCfg n 9 then s.txEnd n b 3 true
  else s

/-- The error counters after an attempt that met an error: TEC rises by 8, but not where an error-passive transmitter misses
the acknowledge (ISO 11898-1, PRESUMED, assumption log 57). -/
def State.txError (s : State) (n : Nat) (e : CanErr) : State :=
  let tec := if e.kind.val = 3 ∧ s.canState n = 3 then s.canTec n else s.canTec n + 8
  (s.canErrFrame n e).canErrs n tec (s.canRec n)

/-- TX_DONE (R390): the attempt under way ends; error counters follow, and the next attempt may start. An island that has lost
its lock holds its outputs, and no attempt ends there (R76). A perturbation starts each attempt late (R468). -/
def execTxDone (n : Fin 8) (dt : Nat) (r : CanEnd) (delay : Fin 128) (s : State) : Res :=
  match (if s.canLive n.val then (s.cch n.val).tx else none) with
  | none => ok s
  | some t =>
    let s := (s.pass (s.f .TST (TST_CAN_DELAY n.val) 6 0 * 1000000 + dt)).cchMod n.val (fun c => { c with tx := none })
    let s := s.tdcShow n.val t.frame.fmt delay.val
    let sent := match r with | .sent => true | _ => false
    let s := match r with
      | .sent => s.canErrs n.val (s.canTec n.val - 1) (s.canRec n.val)
      | .lost => s
      | .error e => s.txError n.val e
    let s := if t.src < 128 then s.txBuffer n.val t.src t sent
      else if sent then s.cchMod n.val (fun c => { c with out := c.out.tail }) else s
    ok ((s.canEvent n.val 3).canKick n.val).tmsgQueue

/-- TX_PERIOD (R390): a buffer with a PERIOD is requested at the next of its instants, every PERIOD ms from its started
controller's START; a request still set is counted. -/
def execTxPeriod (n : Fin 8) (b : Fin 128) (s : State) : Res :=
  if s.canStarted n.val ∧ s.f .CAN (CAN_MB n.val b.val 0) 15 0 ≠ 0 ∧ 2 ≤ s.mbKind n.val b.val ∧ s.islLive n.val then
    let c := s.cch n.val
    let k := c.periods.get 0 b.val + 1
    let s := s.pass (c.begun + k * s.f .CAN (CAN_MB n.val b.val 0) 15 0 * 1000000 - s.clk.up)
    let s := s.cchMod n.val (fun c => { c with periods := c.periods.set 0 b.val k })
    let s := if s.mbBit (CAN_CH_TXREQ n.val 0) b.val then s.mbOver n.val b.val else s
    ok (s.canRequest n.val (b.val / 32) (wordN (2 ^ (b.val % 32))))
  else ok s

/-! ## Start, stop and recovery (R392, R401) -/

/-- A column start of a controller's schedule. -/
def State.ttColumn (s : State) (n k : Nat) : Nat := if k = 0 then 0 else s.f .CAN (CAN_CH_TT_COL n k) 15 0

/-- A cell of the matrix is in order for START (R398). -/
def State.ttCellOk (s : State) (n c k : Nat) : Bool :=
  let kind := fun k => s.f .CAN (CAN_CH_TT_CELL n c k) 9 8
  match kind k with
  | 3 => decide (1 < k) && (kind (k - 1) == 2 || kind (k - 1) == 3)
  | 0 => true
  | _ => s.mbKind n (s.f .CAN (CAN_CH_TT_CELL n c k) 6 0) == 3

/-- The schedule is in order for START (R398). -/
def State.ttOk (s : State) (n : Nat) : Bool :=
  let cols := s.ttCols n
  let kk := min 6 (s.f .CAN (CAN_CH_TT_CFG n) 14 12)
  (upto (cols - 1)).all (fun k => decide (s.ttColumn n k < s.ttColumn n (k + 1))) &&
    decide (s.ttColumn n (cols - 1) < s.f .CAN (CAN_CH_TT_CFG n) 31 16) &&
    (upto (2 ^ kk)).all (fun c => (upto (cols - 1)).all (fun k => s.ttCellOk n c (k + 1)))

/-- A controller's configuration is one that START takes (R386, R396, R398). -/
def State.canStartOk (s : State) (n : Nat) : Bool :=
  let cfg := s.rd .CAN (CAN_CH_CFG n)
  let nbt := s.rd .CAN (CAN_CH_NBT n)
  let dbt := s.rd .CAN (CAN_CH_DBT n)
  let nq := 3 + fld nbt 24 17 + fld nbt 16 10
  let dq := 3 + fld dbt 20 16 + fld dbt 11 8
  decide (8 ≤ nq) && decide (5 ≤ dq) && decide (fld nbt 31 25 ≤ fld nbt 16 10) && decide (fld dbt 27 24 ≤ fld dbt 11 8) &&
    decide (80 ≤ nbtBit nbt) && decide (10 ≤ dbtBit dbt) &&
    !(bitOf cfg 12 && decide (dbtBit dbt < 80) && !s.bit .CAN (CAN_CH_TDC n) 31) &&
    !(bitOf cfg 15 && decide (n < 2) && (bitOf cfg 12 || nbtBit nbt != 320)) &&
    (!bitOf cfg 8 || s.ttOk n)

/-- What START clears (R401): requests, NEW, locks, shadows, results and counts of the buffers and the content of receive
buffers, the FIFOs and the sessions. -/
def State.canClear (s : State) (n : Nat) : State :=
  let s := s.each (upto 4) (fun s i =>
    ((s.wr .CAN (CAN_CH_TXREQ n i) 0).wr .CAN (CAN_CH_NEW n i) 0).wr .CAN (CAN_CH_LOCK n i) 0)
  let s := s.each (upto 128) (fun s b =>
    let s := s.setF .CAN (CAN_MB n b 0) 25 16 0
    if s.mbKind n b = 1 then s.each (upto 20) (fun s i => if i = 2 ∨ i = 3 then s else s.wr .CAN (CAN_MB n b (4 + i)) 0) else s)
  let s := s.each (upto 8) (fun s k =>
    if n < 2 then (s.wr .CAN (CAN_CH_ISB_SES_CTRL n k) 0).wr .CAN (CAN_CH_ISB_SES_STATUS n k) 0 else s)
  let s := s.cchMod n (fun _ =>
    { cfg := s.rd .CAN (CAN_CH_CFG n), nbt := s.rd .CAN (CAN_CH_NBT n), dbt := s.rd .CAN (CAN_CH_DBT n)
      tdc := s.rd .CAN (CAN_CH_TDC n), begun := s.clk.up })
  s.fifoDiscard n

/-- A controller starts (R401): it integrates to the bus. -/
def State.canStart (s : State) (n : Nat) : State :=
  let s := s.canClear n
  let cfg := (s.cch n).cfg
  let s := s.wrN .CAN (CAN_CH_STATUS n) (8 * b2n (bitOf cfg 13) + s.canState n * 256)
  let s := s.setBit .CAN (CAN_CH_TDC_MEAS n) 8 false
  let s := s.wrN .CAN (CAN_CH_TT_STATUS n) (if bitOf cfg 8 then 1 + 4 * b2n (s.bit .CAN (CAN_CH_TT_CFG n) 15) else 0)
  s.canSetState n 1

/-- A controller stops (R401): requests are cleared, its receive slots become invalid, its transceiver goes to standby. -/
def State.canStop (s : State) (n : Nat) : State :=
  if s.canStarted n then
    let s := s.each (upto 4) (fun s i => s.wr .CAN (CAN_CH_TXREQ n i) 0)
    let s := s.cchMod n (fun c => { c with tx := none, out := [] })
    let s := (s.setF .CAN (CAN_CH_TT_STATUS n) 1 0 0).setBit .CAN (CAN_CH_STATUS n) 11 true
    let s := s.canSetState n 0
    s.each (upto 256) (fun s r => if s.f .CAN (CAN_RXSIG_CFG r) 26 24 = n then s.slotInvalid r else s)
  else s

/-- CAN START (R386, R401): every controller of the mask, or none. -/
def execCanStart (s : State) : Res :=
  ok (s.command .CAN 1 fun args s =>
    let ns := (bitsOf (fld (arg args 0) 7 0) 8).filter (fun n => !s.canStarted n)
    if s.mode = 0 ∧ !s.bit .SYS SYS_MODE 7 then refuse s .refusedMode
    else if ns.any (fun n => !s.canStartOk n) then refuse s .badHeader
    else done (s.each ns State.canStart) .ok)

/-- CAN STOP (R401). -/
def execCanStop (s : State) : Res :=
  ok (s.command .CAN 2 fun args s => done (s.each (bitsOf (fld (arg args 0) 7 0) 8) State.canStop) .ok)

/-- BUS_INTEGRATED (R401): INTEGRATING is left for ERROR_ACTIVE, on a live island and not in a power loss (R42). -/
def execBusIntegrated (n : Fin 8) (s : State) : Res :=
  if s.canState n.val = 1 ∧ s.canLive n.val then ok ((s.canSetState n.val 2).canKick n.val) else ok s

/-- RECOVER (R392): recovery of the named controllers that stand in bus-off. -/
def execCanRecover (s : State) : Res :=
  ok (s.command .CAN 3 fun args s =>
    done (s.each (bitsOf (fld (arg args 0) 7 0) 8) (fun s n => if s.canState n = 4 then s.canSetState n 5 else s)) .ok)

/-- BUS_OFF_RECOVERED (R392): the sequence ends with the counters at 0. -/
def execBusOffRecovered (n : Fin 8) (s : State) : Res :=
  if s.canState n.val = 5 ∧ s.canLive n.val then
    let s := s.setF .CAN (CAN_CH_STATUS n.val) 31 16 0
    ok ((s.canSetState n.val 2).canKick n.val)
  else ok s

/-- SIG_TIMEOUT (R393): a valid receive slot with a TIMEOUT becomes invalid TIMEOUT × 10 ms after its buffer last received. -/
def execSigTimeout (r : Fin 256) (s : State) : Res :=
  let w := s.rd .CAN (CAN_RXSIG_CFG r.val)
  if fld w 15 8 = 0 ∨ !s.bit .CAN (CAN_RXSIG_STATUS r.val) 31 then ok s
  else ok ((s.pass ((s.cch (fld w 26 24)).got.get 0 (fld w 22 16) + fld w 15 8 * 10000000 - s.clk.up)).slotInvalid r.val)

/-- ISB_ABORT (R397): a connection abort with the reason; the session ends ABORTED. -/
def execIsbAbort (s : State) : Res :=
  ok (s.command .CAN 4 fun args s =>
    let n := fld (arg args 0) 0 0
    let k := fld (arg args 1) 2 0
    let reason := fld (arg args 2) 7 0
    let c := s.ses n k
    if c.phase = 0 then done s .ok
    else
      let s := s.sesEnd n k .aborted reason
      let s := if c.phase = 2 ∨ c.phase = 4 ∨ c.phase = 6 then s.sesAbortTx n 8 c.etp c.peer c.pgn reason else s
      done (s.canKick n) .ok)

/-- CLEAR_COUNTS of CAN. -/
def execCanClearCounts (s : State) : Res :=
  ok (s.command .CAN 5 fun args s =>
    done (s.each (bitsOf (fld (arg args 0) 7 0) 8) (fun s n =>
      let s := ((s.wr .CAN (CAN_CH_ERRS n) 0).wr .CAN (CAN_CH_LOST n) 0).wr .CAN (CAN_CH_TT_COUNTS n) 0
      let s := s.each (upto 2) (fun s f => s.setF .CAN (CAN_CH_FIFO_STATUS n f) 31 16 0)
      s.each (upto 128) (fun s b => s.setF .CAN (CAN_MB n b 0) 23 16 0))) .ok)

/-! ## Time-triggered operation (R398–R400) -/

/-- A schedule runs on a controller that is on the bus. -/
def State.ttOn (s : State) (n : Nat) : Bool := s.canCfg n 8 && (s.canState n == 2 || s.canState n == 3) && s.canLive n

/-- The end of the basic cycle in device time. -/
def State.ttEnd (s : State) (n : Nat) : Nat := s.ttStart n (s.ttCols n)

/-- A reference message of its own may start at `t` (R399): in no listen-only mode, with no attempt under way; a time master's
at the end of its cycle, that of a backup WAIT NTU later, in either case at any time before the first cycle. A controller with
MASTER_EN 0 that is no time master is a slave and sends none (DEDUCED, assumption log 170). -/
def State.ttOwn (s : State) (n t : Nat) : Bool :=
  let master := s.bit .CAN (CAN_CH_TT_STATUS n) 2
  !s.canCfg n 13 && (s.cch n).tx.isNone && (master || s.bit .CAN (CAN_CH_TT_CFG n) 15) &&
    (s.f .CAN (CAN_CH_TT_STATUS n) 1 0 != 2 ||
      decide (s.ttEnd n + (if master then 0 else s.ntu n (s.f .CAN (CAN_CH_TT_WAIT n) 15 8)) ≤ t))

/-- The reference message that a controller sends: a classical frame from MB0 under the ID of TT_REF (R398). -/
def State.ttRef (s : State) (n : Nat) : CanTx :=
  let f := s.mbFrame n 0
  let k := clampN 1 8 (fld f.fmt 19 16)
  { src := 0, tt := true
    frame := { f with id := s.rd .CAN (CAN_CH_TT_REF n) &&& 0x9FFFFFFF, fmt := setFld (f.fmt &&& 0x000F0000) 19 16 k
                      data := (f.data ++ List.replicate 8 0).take k } }

/-- TT_CYCLE (R399): a reference message starts a basic cycle. One that the controller sends, where it may, makes it master and
advances the count, and is the attempt under way; one received gives its count, and makes the controller a backup where its ID
is lower than its own. -/
def execTtCycle (n : Fin 8) (t : Nat) (r : CanRef) (s : State) : Res :=
  if s.ttOn n.val && (match r with | .own => s.ttOwn n.val t | .heard _ _ => true) then
    let s := s.passTo t
    let kk := min 6 (s.f .CAN (CAN_CH_TT_CFG n.val) 14 12)
    let (cnt, master, s) := match r with
      | .own =>
        let c := (s.ttCount n.val + 1) % 2 ^ kk
        (c, true, s.setF .CAN (CAN_MB n.val 0 8) 7 0 c)
      | .heard id b0 =>
        (b0.toNat % 64 % 2 ^ kk, s.bit .CAN (CAN_CH_TT_STATUS n.val) 2 &&
          !decide (fld id 28 0 < s.f .CAN (CAN_CH_TT_REF n.val) 28 0), s)
    let s := s.wrN .CAN (CAN_CH_TT_STATUS n.val) (cnt * 2 ^ 16 + 4 * b2n master + 2)
    let tx := match r with | .own => some (s.ttRef n.val) | .heard _ _ => (s.cch n.val).tx
    let s := s.cchMod n.val (fun c => { c with ref := t, col := 0, tx := tx })
    ok (s.canEvent n.val 4)
  else ok s

/-- TT_WINDOW (R400): column `k` opens. The buffer of an exclusive or arbitrating window with TXREQ set starts at the bus's
first idle if that comes by TXEW, else the window is missed; in a free window event buffers may start. -/
def execTtWindow (n : Fin 8) (k : Fin 32) (idle : Nat) (s : State) : Res :=
  if s.ttOn n.val && s.f .CAN (CAN_CH_TT_STATUS n.val) 1 0 == 2 && decide (0 < k.val) && decide (k.val < s.ttCols n.val) then
    let start := s.ttStart n.val k.val
    let s := (s.passTo start).cchMod n.val (fun c => { c with col := k.val })
    let kind := s.ttKind n.val k.val
    let b := s.f .CAN (CAN_CH_TT_CELL n.val (s.ttCount n.val) k.val) 6 0
    if kind = 0 then ok ((s.pass idle).canKick n.val)
    else if kind = 3 then ok s
    else if s.mbKind n.val b = 3 ∧ s.mbBit (CAN_CH_TXREQ n.val 0) b ∧ !s.mbBit (CAN_CH_LOCK n.val 0) b ∧ !s.canCfg n.val 13 then
      if idle ≤ s.ntu n.val (max 1 (s.f .CAN (CAN_CH_TT_CFG n.val) 11 8)) ∧ (s.cch n.val).tx = none then
        let t : CanTx := { src := b, frame := s.sendable n.val (s.mbFrame n.val b), tt := true }
        ok ((s.pass idle).cchMod n.val (fun c => { c with tx := some t }))
      else ok ((s.incF .CAN (CAN_CH_TT_COUNTS n.val) 31 16 1).canEvent n.val 12)
    else ok s
  else ok s

/-- SYNC_OFF (R399): no reference SOF by the cycle end plus WATCH. -/
def execTtSyncOff (n : Fin 8) (s : State) : Res :=
  if s.ttOn n.val && s.f .CAN (CAN_CH_TT_STATUS n.val) 1 0 == 2 then
    let s := s.passTo (s.ttEnd n.val + s.ntu n.val (s.f .CAN (CAN_CH_TT_WAIT n.val) 7 0))
    let s := s.setF .CAN (CAN_CH_TT_STATUS n.val) 1 0 1
    ok ((s.incF .CAN (CAN_CH_TT_COUNTS n.val) 15 0 1).canEvent n.val 12)
  else ok s

end Sys2Proof.Machine
end

