-- ==== Sys2Proof/Machine/Coil.lean ====
section
/-! DEFINITION. Valve diagnostics, temperature bands, coil identity and the life ledger (R319–R326). -/

namespace Sys2Proof.Machine

/-! ## Diagnostics (R319–R321) -/

/-- No diagnostic is evaluated (R321): the BAT_V cut-off is open, FEED_LOW_V is set, the group is tripped or, for V00, the
V00 cut-off is open. -/
def State.vlvQuiet (s : State) (n : Nat) : Bool :=
  !s.bit .VLV VLV_CUTOFF 0 || s.bit .PWR PWR_STATUS 5 || s.bit .VLV (VLV_HSF_STATUS (hsfOf n)) 15 ||
    (n == 0 && !s.bit .VLV VLV_CUTOFF 1)

/-- On-state diagnostics run on the channel: ONDIAG_EN, a waveform or a target, and nothing of R321. -/
def State.vlvOnDiag (s : State) (n : Nat) : Bool :=
  s.bit .VLV (VLV_CH_DIAG_CFG n) 0 && (s.vlvRuns n || s.applied n != 0) && !s.vlvQuiet n

/-- What a diagnostic found at the channel's pin (R310). -/
def State.vlvPin (s : State) (n : Nat) (p : VPin) : State := s.vchMod n (fun c => { c with pin := p })

/-- OPEN (R319): full duty with the current below 25 % of a target of 100 or more sets the flag; a running period that
passes clears it. A pin without any current has no coil. -/
def execOpenLoad (n : Fin 32) (full : Bool) (current : Nat) (s : State) : Res :=
  if s.vlvOnDiag n.val then
    let s := s.vlvMeasured n.val current
    let s := s.vlvPin n.val (if full && current == 0 then .opened else if current = 0 then (s.vch n.val).pin else .coil)
    if 100 ≤ s.applied n.val && full && (s.vch n.val).drive != .fall && decide (8 * current < s.applied n.val) then
      ok (if s.vlvBit n.val 0 then s else (s.vlvSet n.val 0 true).vlvEvent n.val 1)
    else ok (s.vlvSet n.val 0 false)
  else ok s

/-- SHORT_SUP is latched on a channel. -/
def State.vlvShortSup (s : State) (n : Nat) : State :=
  let s := (s.vchMod n (fun c => { c with shortSup := true })).vlvSet n 2 true
  (s.vlvLatched n).vlvEvent n 3

/-- SHORT_SUP (R319): low-side current above the type's threshold switches the channel off with no decay mode. -/
def execShortSup (n : Fin 32) (current : Nat) (s : State) : Res :=
  if s.vlvOnDiag n.val && decide ((if n.val < 24 then 4500 else 12000) < current) then
    ok (((s.vlvMeasured n.val current).vlvShortSup n.val).vlvOffNow n.val).vlvSettle
  else ok s

/-- A group trips (Table 12-4): HSFg opens until FEED_RESET, its four channels go off and GROUP_TRIP latches on each. -/
def State.vlvTrip (s : State) (g : Nat) : State :=
  let s := (s.setBit .VLV (VLV_HSF_STATUS g) 15 true).setBit .VLV VLV_STATUS (16 + g) true
  s.each (groupOf g) (fun s n => ((s.vlvOffNow n).vlvLatched n).vlvEvent n 4)

/-- GROUP_TRIP (R319): a short to ground found on a checked channel, or on the feed of a checked group. -/
def execGroupTrip (g : Fin 8) (c : Option (Fin 4)) (s : State) : Res :=
  let ns := (match c with | some i => [4 * g.val + i.val] | none => groupOf g.val).filter s.vlvOnDiag
  if ns.isEmpty then ok s
  else
    let s := match c with | some i => s.vlvPin (4 * g.val + i.val) .grounded | none => s
    ok ((s.each ns (fun s n => (s.vlvSet n 1 true).vlvEvent n 2)).vlvTrip g.val).vlvSettle

/-- Results of the off-state test (Table 12-5). -/
inductive OffTest where
  | passed | untested | openCoil | shortGnd | shortSup | unstated
  deriving DecidableEq, Repr

/-- The off-state test on measured voltages in mV. Step 3 states no result between its two windows. -/
def offTest (sibling : Bool) (v1 v2 v3 hsf batv : Nat) : OffTest :=
  if hsf ≤ v1 + 500 then
    if sibling then .untested
    else if v3 ≤ 2000 then .passed
    else if batv ≤ v3 + 1000 then .shortSup
    else .unstated
  else if v1 ≤ 1000 then
    if 3500 ≤ v2 then .openCoil else if v2 ≤ 300 then .shortGnd else .openCoil
  else .openCoil

/-- A passing test (R320, R321): OFF_OK, and the flags that its steps find are cleared; the SHORT_SUP flag is found by
step 3 alone, and its latch stays. -/
def State.vlvOffOk (s : State) (n : Nat) (untested : Bool) : State :=
  let s := (((s.vlvSet n 17 true).vlvSet n 18 untested).vlvSet n 0 false).vlvSet n 1 false
  (if untested then s else s.vlvSet n 2 false).vlvPin n .coil

/-- OFF_STATE_TEST (R320): runs on an idle channel, or one whose waveform holds target 0 with no current. -/
def execOffStateTest (n : Fin 32) (v1 v2 v3 hsf batv : Nat) (s : State) : Res :=
  let n := n.val
  if s.bit .VLV (VLV_CH_DIAG_CFG n) 1 && s.applied n == 0 && !(s.vch n).flowing && !s.vlvQuiet n then
    let sib := (siblings n).any (fun m => s.applied m != 0 || (s.vch m).flowing)
    match offTest sib v1 v2 v3 hsf batv with
    | .passed => ok (s.vlvOffOk n false)
    | .untested => ok (s.vlvOffOk n true)
    | .openCoil => ok ((((s.vlvSet n 17 false).vlvSet n 0 true).vlvEvent n 1).vlvPin n .opened)
    | .shortGnd => ok ((((s.vlvSet n 17 false).vlvSet n 1 true).vlvEvent n 2).vlvPin n .grounded)
    | .shortSup => ok ((((s.vlvSet n 17 false).vlvShortSup n).vlvOffNow n).vlvPin n .coil).vlvSettle
    | .unstated => ok s
  else ok s

/-! ## Temperature bands (R322) -/

/-- The band thresholds in °C; thresholds that do not increase act as all bands 0. -/
def bandThresholds (w : Word) : Option (Int × Int × Int) :=
  let t1 := sfld w 7 0
  let t2 := sfld w 15 8
  let t3 := sfld w 23 16
  if t1 < t2 ∧ t2 < t3 then some (t1, t2, t3) else none

/-- The band of a temperature (0.1 °C), from band `b`: left downwards only 3 °C below its threshold. -/
def bandOf (t : Int) (th : Int × Int × Int) (b : Nat) : Nat :=
  let up := if 10 * th.2.2 ≤ t then 3 else if 10 * th.2.1 ≤ t then 2 else if 10 * th.1 ≤ t then 1 else 0
  let keep := if 10 * th.2.2 - 30 < t then 3 else if 10 * th.2.1 - 30 < t then 2 else if 10 * th.1 - 30 < t then 1 else 0
  max up (min b keep)

/-- A new temperature of the band source: TEMP shows it, and a band change is decided at once; it waits for a phase
instruction while a waveform runs. An invalid source leaves the band as it is. -/
def State.vlvBand (s : State) (n : Nat) (t : Option Int) : State :=
  match t with
  | none => s.setBit .VLV (VLV_CH_TEMP n) 31 false
  | some t =>
    let s := s.wrN .VLV (VLV_CH_TEMP n) (0x80000000 + ofSigned 16 t)
    let st := VLV_CH_STATUS n
    let now := s.f .VLV st 27 26
    let decided := if s.vlvBit n 25 then (s.vch n).band else now
    let new := match bandThresholds (s.rd .VLV (VLV_CH_BAND_CFG n)) with
      | some th => bandOf t th decided
      | none => 0
    if new = decided then s
    else
      let s := s.vlvEvent n 8
      if s.vlvRuns n then (s.vchMod n (fun c => { c with band := new })).vlvSet n 25 (new != now)
      else (s.setF .VLV st 27 26 new).vlvSet n 25 false

/-- The housekeeping channel of a band source: 1–8 TD0–TD7 (channels 0–7), 9–15 TH0–TH6 (channels 8–14). -/
def bandSrc (k : Nat) : Nat := k - 1

/-- After a housekeeping round, every band that a measured temperature selects is decided anew. -/
def State.vlvBandRound (s : State) : State :=
  s.each (upto 32) (fun s n =>
    let k := s.f .VLV (VLV_CH_BAND_CFG n) 31 28
    if k = 0 then s else s.vlvBand n (s.hkpVal (bandSrc k)))

/-- The coil's own estimate in 0.1 °C: T = 20 + (R / COLD_RES − 1) / 0.00393 with R = V_HSF × duty / I, rounded to
nearest. -/
def coilTemp (hsf duty current cold : Nat) : Int :=
  200 + roundDiv (((hsf * duty : Nat) : Int) * 100000 - ((10 * current * cold : Nat) : Int) * 100000) (393 * current * cold)

/-- The coil's own estimate, where it is valid: not while COLD_RES is 0, nor before the first estimate (R322). -/
def State.vlvEst (s : State) (n : Nat) : Option Int :=
  if s.f .VLV (VLV_CH_COLD_RES n) 15 0 = 0 then none else (s.vch n).est

/-- The band source gives the channel's temperature anew. -/
def State.vlvBandNow (s : State) (n : Nat) : State :=
  let k := s.f .VLV (VLV_CH_BAND_CFG n) 31 28
  s.vlvBand n (if k = 0 then s.vlvEst n else s.hkpVal (bandSrc k))

/-- COIL_TEMP_ESTIMATE (R322): refreshed while the current is 200 mA or more and steady, with COLD_RES programmed; the band
takes it where SRC names it. -/
def execCoilTempEstimate (n : Fin 32) (hsf duty current : Nat) (s : State) : Res :=
  let cold := s.f .VLV (VLV_CH_COLD_RES n.val) 15 0
  if 200 ≤ current ∧ cold ≠ 0 then
    let s := (s.vlvMeasured n.val current).vchMod n.val (fun c => { c with est := some (coilTemp hsf duty current cold) })
    ok (if s.f .VLV (VLV_CH_BAND_CFG n.val) 31 28 = 0 then s.vlvBandNow n.val else s)
  else ok s

/-! ## The life ledger (R324–R326) -/

/-- Life used in % (R325): the larger of the two shares, where both ratings are given. -/
def lifeOf (l : Ledger) : Option Nat :=
  if l.ratedK = 0 ∨ l.ratedH = 0 then none
  else some (max (l.cycles * 100 / (l.ratedK * 1000)) (l.eqMs * 100 / (l.ratedH * 3600000)))

/-- DERATED follows the life that LIFE shows and CFG.LIFE_ACT (R325); a channel with no entry works fully. -/
def State.vlvDerate (s : State) (n : Nat) : State :=
  let l := s.rd .VLV (VLV_CH_LIFE n)
  let der := decide (100 ≤ fld l 31 24) && decide (fld l 7 0 < 128) && s.bit .VLV (VLV_CH_CFG n) 16
  if der != s.vlvBit n 19 then (s.vlvSet n 19 der).vlvRequest n none false else s

/-- The life of a bound coil shows in LIFE, raises LIFE80 and LIFE100 once per entry, and derates where LIFE_ACT says so. A
tag that rates a coil at 0 gives no stated share: a free value. -/
def State.vlvLife (s : State) (n e : Nat) (l : Ledger) : State :=
  let (s, life) := match lifeOf l with
    | some x => (s, x)
    | none => (s.drawn, s.freeNat 256)
  let s := s.setF .VLV (VLV_CH_LIFE n) 31 24 (clampN 0 255 life)
  let a := decide (80 ≤ life) && !l.life80
  let b := decide (100 ≤ life) && !l.life100
  let l := { l with life := clampN 0 255 life, life80 := l.life80 || a, life100 := l.life100 || b, seen := s.clk.opsec }
  let s := s.putVlv { s.vlv with ledger := s.vlv.ledger.set none e (some l) }
  let s := if a then s.vlvEvent n 10 else s
  (if b then s.vlvEvent n 11 else s).vlvDerate n

/-- The largest y with y^100 ≤ x: the weight 2^(d/100) of R324 is taken exactly and cut to whole ms. -/
def root100 : Nat → Nat → Nat → Nat
  | 0, lo, _ => lo
  | k + 1, lo, x => let y := lo + 2 ^ k; root100 k (if y ^ 100 ≤ x then y else lo) x

/-- Equivalent ms of `ms` at 20 mA or more (R324): weight 1 up to the reference temperature, 2^((T − T_ref) / 10) above it,
2 while the band source is not valid. Temperatures in 0.1 °C and °C. -/
def equivMs (ms : Nat) (t : Option Int) (tref : Int) : Nat :=
  match t with
  | none => 2 * ms
  | some t =>
    let d := (t - 10 * tref).toNat
    if d = 0 then ms else root100 64 0 (ms ^ 100 * 2 ^ d)

/-- The temperature of a channel's band source, where it is valid. -/
def State.vlvTemp (s : State) (n : Nat) : Option Int :=
  if s.bit .VLV (VLV_CH_TEMP n) 31 then some (sfld (s.rd .VLV (VLV_CH_TEMP n)) 15 0) else none

/-- A channel's use since the last write enters its bound entry. -/
def State.vlvUse (s : State) (n ms : Nat) : State :=
  match s.entryOf n with
  | none => s
  | some e => match s.vlv.ledger.get none e with
    | none => s
    | some l => s.vlvLife n e { l with eqMs := l.eqMs + equivMs ms (s.vlvTemp n) (toSigned 8 l.tref) }

/-- The ledger is sealed in MRAM. -/
def State.ledgerSeal (s : State) : State :=
  if s.mramOk then (s.putVlv { s.vlv with sealed := s.vlv.ledger }) else s

/-- LEDGER_WRITE (R326): entries whose values changed are sealed in MRAM every 60 s, unless MRAM lies outside its window. -/
def execLedgerWrite (onMs : List Nat) (s : State) : Res :=
  ok ((s.each (upto 32) (fun s n => s.vlvUse n (onMs.getD n 0))).vlvSettle).ledgerSeal

/-- The entries in use. -/
def State.ledgerUsed (s : State) : Nat := ((upto 128).filter (fun e => (s.vlv.ledger.get none e).isSome)).length

/-- VLV_STATUS[7:0] shows the entries in use. -/
def State.ledgerShow (s : State) : State := s.setF .VLV VLV_STATUS 7 0 s.ledgerUsed

/-- A coil's entry is bound to some channel. -/
def State.ledgerBound (s : State) (e : Nat) : Bool := (upto 32).any (fun n => s.entryOf n == some e)

/-- Of entries, the least recently seen (the lowest index of equals). -/
def State.ledgerOldest (s : State) : List Nat → Option Nat
  | [] => none
  | e :: t =>
    let age := fun k => match s.vlv.ledger.get none k with | some l => l.seen | none => 0
    match s.ledgerOldest t with
    | none => some e
    | some k => if age e ≤ age k then some e else some k

/-- The entry for a serial number: its own, else the first free one, else the least recently seen that is not bound. -/
def State.ledgerSlot (s : State) (serial : Nat) : Option Nat :=
  let has := fun e => match s.vlv.ledger.get none e with | some l => l.serial == serial | none => false
  match (upto 128).find? has with
  | some e => some e
  | none => match (upto 128).find? (fun e => (s.vlv.ledger.get none e).isNone) with
    | some e => some e
    | none => s.ledgerOldest ((upto 128).filter (fun e => !s.ledgerBound e))

/-- A tag read binds the channel to its ledger entry, created with zero use where the serial has none (R324). -/
def State.vlvBind (s : State) (n : Nat) (t : Ledger) : State :=
  match s.ledgerSlot t.serial with
  | none => (s.wrN .VLV (VLV_CH_LIFE n) 0xFF).vlvDerate n
  | some e =>
    let fresh : Ledger := { t with first := s.clk.opsec, seen := s.clk.opsec, chan := n }
    let l := match s.vlv.ledger.get none e with
      | some l => if l.serial = t.serial then { l with seen := s.clk.opsec, chan := n } else fresh
      | none => fresh
    let s := s.setF .VLV (VLV_CH_LIFE n) 7 0 e
    (s.vlvLife n e l).ledgerShow

/-! ## Coil identity (R323) -/

/-- The fields of a tag frame (Table 12-6). -/
def tagOf (f : BitVec 144) : Ledger :=
  { serial := (f.extractLsb' 0 64).toNat, typ := (f.extractLsb' 64 16).toNat, ratedK := (f.extractLsb' 80 24).toNat
    ratedH := (f.extractLsb' 104 16).toNat, tref := (f.extractLsb' 120 8).toNat }

/-- A frame passes its CRC: CRC-16 over bits [127:0]. -/
def tagCrcOk (f : BitVec 144) : Bool := crc16 (leBytes 16 (f.toNat % 2 ^ 128)) == (f.extractLsb' 128 16).toNat

/-- Two consecutive frames that agree and pass their CRC. -/
def agreeing : List (Option (BitVec 144)) → Option (BitVec 144)
  | some a :: some b :: t => if a = b ∧ tagCrcOk a = true then some a else agreeing (some b :: t)
  | _ :: t => agreeing t
  | [] => none

/-- The result of an identity read on a channel: ID_STATE, the identity registers, ID_CHG and the binding. -/
def State.vlvIdResult (s : State) (n : Nat) (frames : List (Option (BitVec 144))) : State :=
  let st := VLV_CH_STATUS n
  let oldState := s.f .VLV st 15 14
  let oldSerial := s.rdN .VLV (VLV_CH_ID_LO n) + 2 ^ 32 * s.rdN .VLV (VLV_CH_ID_HI n)
  let fr := frames.take 3
  match agreeing fr with
  | some f =>
    let t := tagOf f
    let s := (s.wrN .VLV (VLV_CH_ID_LO n) t.serial).wrN .VLV (VLV_CH_ID_HI n) (t.serial / 2 ^ 32)
    let s := s.wrN .VLV (VLV_CH_ID_TYPE n) (t.typ * 65536 + t.tref * 256)
    let s := (s.setF .VLV st 15 14 2).vlvBind n t
    if oldState ≠ 2 ∨ oldSerial ≠ t.serial then s.vlvEvent n 9 else s
  | none =>
    let k := if fr.all (fun x => x.isNone) then 1 else 3
    let s := ((s.setF .VLV st 15 14 k).wrN .VLV (VLV_CH_LIFE n) 0xFF).vlvDerate n
    if oldState ≠ k then s.vlvEvent n 9 else s

/-- A channel is idle (R313). -/
def State.vlvIsIdle (s : State) (n : Nat) : Bool := !s.vlvRuns n && s.applied n == 0 && !(s.vch n).flowing

/-- ID_READ (Table 12-13): starts a read on an idle channel; it ends with ID_READ_DONE, or ABORTED by a target. -/
def execIdRead (s : State) : Res :=
  ok (s.command .VLV 6 fun a s =>
    if s.vlvIsIdle (fld (arg a 0) 4 0) then (s, none) else refuse s .refusedMode)

/-- ID_READ_DONE (R323): a read with ID_EN at 1, or one that ID_READ started, completes on an idle channel. -/
def execIdReadDone (n : Fin 32) (frames : List (Option (BitVec 144))) (s : State) : Res :=
  let m := s.mailOf .VLV
  let asked := decide (m.code = 6) && fld (arg m.args 0) 4 0 == n.val
  if s.vlvIsIdle n.val && (asked || s.bit .VLV (VLV_CH_DIAG_CFG n.val) 2) then
    let s := (s.vlvIdResult n.val frames).vlvSettle
    ok (if asked then s.cmdEnd .VLV .ok else s)
  else ok s

/-! ## Ledger commands (Table 12-13) -/

/-- The 64 bytes of a sealed entry (Table 12-7). -/
def Ledger.bytes (l : Ledger) : List Byte :=
  let body := leBytes 8 l.serial ++ leBytes 2 l.typ ++ leBytes 1 l.tref ++ leBytes 1 (b2n l.life80 + 2 * b2n l.life100) ++
    leBytes 4 l.ratedK ++ leBytes 2 l.ratedH ++ leBytes 2 0 ++ leBytes 8 l.cycles ++ leBytes 8 (l.eqMs / 1000) ++
    leBytes 4 l.first ++ leBytes 4 l.seen ++ leBytes 1 l.chan ++ leBytes 1 (clampN 0 255 l.life) ++ leBytes 14 0
  body ++ leBytes 2 (crc16 body) ++ leBytes 1 0 ++ leBytes 1 0x5A

/-- LEDGER_READ: copies a sealed entry to the window; BAD_BLOCK where no sealed entry stands. -/
def execLedgerRead (s : State) : Res :=
  ok (s.command .VLV 7 fun a s =>
    match s.vlv.sealed.get none (fld (arg a 0) 6 0) with
    | none => refuse s .badBlock
    | some l => done (s.each (upto 16) (fun s i => s.wrN .VLV (VLV_LEDGER_WIN i) (leNat ((l.bytes.drop (4 * i)).take 4)))) .ok)

/-- LEDGER_DELETE: SERVICE only, with its key in ARG1; a coil still present starts a new entry at zero use. -/
def execLedgerDelete (s : State) : Res :=
  ok (s.command .VLV 8 fun a s =>
    let e := fld (arg a 0) 6 0
    if s.mode ≠ 5 then refuse s .refusedMode
    else if arg a 1 ≠ 0xC35A then refuse s .locked
    else
      let old := s.vlv.ledger.get none e
      let ns := (upto 32).filter (fun n => s.entryOf n == some e)
      let s := s.putVlv { s.vlv with ledger := s.vlv.ledger.set none e none, sealed := s.vlv.sealed.set none e none }
      let s := match ns, old with
        | n :: _, some l => s.vlvBind n { serial := l.serial, typ := l.typ, tref := l.tref, ratedK := l.ratedK, ratedH := l.ratedH }
        | _, _ => s
      done s.ledgerShow.vlvSettle .ok)

end Sys2Proof.Machine
end

