-- ==== Sys2Proof/Machine/Dumbwaiter.lean ====
section
/-! DEFINITION. The Dumbwaiter (DMW) without its transfers of data: GO, the D profile's programs between bursts, requests,
errors and boundaries, banks and commands (R137–R142, R408–R419). -/

namespace Sys2Proof.Machine

/-! ## Channels -/

/-- A channel's record. -/
def State.dw (s : State) (n : Nat) : DwCh := s.dmw.ch.get {} n

/-- Change a channel's record. -/
def State.dwMod (s : State) (n : Nat) (f : DwCh → DwCh) : State := s.putDmw { s.dmw with ch := s.dmw.ch.mod {} n f }

/-- STATE of a channel: 0 idle, 1 running, 2 halted, 3 stopping. -/
def State.dwState (s : State) (n : Nat) : Nat := s.f .DMW (DMW_CH_STATUS n) 2 0

/-- A bit of a channel's STATUS: 4 WAITING, 5 FENCING, 6 HELD. -/
def State.dwBit (s : State) (n i : Nat) : Bool := s.bit .DMW (DMW_CH_STATUS n) i

/-- Set a bit of a channel's STATUS. -/
def State.dwSetBit (s : State) (n i : Nat) (v : Bool) : State := s.setBit .DMW (DMW_CH_STATUS n) i v

/-- Set a sticky bit of a channel's FLAGS. -/
def State.dwFlag (s : State) (n i : Nat) : State := s.setBit .DMW (DMW_CH_FLAGS n) i true

/-- A channel's register; g0 reads 0. -/
def State.dwG (s : State) (n r : Nat) : Dword := if r = 0 then 0 else (s.dw n).g.get 0 r

/-- Write a channel's register; g0 discards every write. -/
def State.dwSetG (s : State) (n r : Nat) (v : Dword) : State :=
  if r = 0 then s else s.dwMod n (fun c => { c with g := c.g.set 0 r v })

/-- What the registers show of a channel's record: PENDING, AWAITING, PC, REMAIN, and the masks and counts of running and
halted channels. -/
def State.dwShow (s : State) (n : Nat) : State :=
  let c := s.dw n
  let s := (s.dwSetBit n 3 c.start.isSome).dwSetBit n 7 (!c.out.isEmpty)
  let s := s.setF .DMW (DMW_CH_STATUS n) 12 8 c.pc
  let s := s.wrN .DMW (DMW_CH_REMAIN n) (match c.xfer with | some x => x.left | none => 0)
  let s := s.setBit .DMW (DMW_RUN (n / 32)) (n % 32) (s.dwState n == 1)
  let s := s.setBit .DMW (DMW_HALT (n / 32)) (n % 32) (s.dwState n == 2)
  let count := fun (o : Nat → Nat) => (bitsOf (s.rdN .DMW (o 0)) 32).length + (bitsOf (s.rdN .DMW (o 1)) 32).length
  (s.setF .DMW DMW_STATUS 6 0 (count DMW_RUN)).setF .DMW DMW_STATUS 22 16 (count DMW_HALT)

/-- The active bank. -/
def State.dwActive (s : State) (n : Nat) : Nat := s.f .DMW (DMW_CH_BANK n) 0 0

/-- A SWAP is pending. -/
def State.dwSwapPending (s : State) (n : Nat) : Bool := s.bit .DMW (DMW_CH_BANK n) 2

/-- A pending SWAP takes effect (R141). -/
def State.dwSwapTake (s : State) (n : Nat) : State :=
  if s.dwSwapPending n then s.wrN .DMW (DMW_CH_BANK n) (1 - s.dwActive n) else s

/-! ## Requests (R412) -/

/-- Request `r` is asserted: a software request by its bit, a FIFO's while it holds an entry. -/
def State.reqOn (s : State) (r : Nat) : Bool :=
  if r < 32 then s.bit .DMW DMW_SWREQ r
  else if r < 48 then
    let c := s.can.get {} ((r - 32) / 2)
    !(if r % 2 = 0 then c.fifo0 else c.fifo1).isEmpty
  else r == 48 && !s.tim.marks.isEmpty

/-- A write of DMW_SWREQ asserts software requests. -/
def State.swreq (s : State) (v : Word) : State := s.wr .DMW DMW_SWREQ (s.rd .DMW DMW_SWREQ ||| v)

/-! ## Halt, boundary, start (R408, R415, R416, R418) -/

/-- A channel halts with a cause and, for a bus error, the beat's address; a pending start is discarded with ABORTED; a pending
SWAP is taken. -/
def State.dwHalt (s : State) (n cause : Nat) (addr : Option Nat) : State :=
  let s := s.wrN .DMW (DMW_CH_STATUS n) (cause * 2 ^ 24 + 2)
  let s := match addr with
    | some a => (s.wrN .DMW (DMW_CH_FAULT_LO n) a).wrN .DMW (DMW_CH_FAULT_HI n) (a / 2 ^ 32 % 256)
    | none => s
  let s := if (s.dw n).start.isSome then s.wrN .DMW (DMW_CH_GO_STS n) Result.aborted.code else s
  let s := s.dwMod n (fun c => { c with start := none, xfer := none, out := [], tries := 0 })
  (((s.dwSwapTake n).dwFlag n 4).dwShow n).eventSrc .DMW 13 n

/-- A descriptor starts with the values of g1–g7 (R408). -/
def State.dwBegin (s : State) (n : Nat) (g : List Dword) : State :=
  let m := (List.zip (upto 8) (0 :: g)).foldl (fun (m : SMap Dword) (p : Nat × Dword) => m.set 0 p.1 p.2) SMap.empty
  let s := s.dwMod n (fun c => { c with g := m, pc := 0, start := none, req := none, xfer := none, no := 0, tries := 0 })
  (s.wrN .DMW (DMW_CH_STATUS n) 1).wr .DMW (DMW_CH_DESC_NO n) (s.rd .DMW (DMW_CH_DESC_NO n) + 1)

/-- A channel becomes idle. -/
def State.dwIdle (s : State) (n : Nat) : State := (s.wrN .DMW (DMW_CH_STATUS n) 0).dwShow n

/-- A descriptor's end with every response resolved: the SWAP, then the pending start, else idle. The answer tells whether a
descriptor started. -/
def State.dwBoundary (s : State) (n : Nat) : State × Bool :=
  let s := s.dwSwapTake n
  match (s.dw n).start with
  | some g => (s.dwBegin n g, true)
  | none => (s.dwIdle n, false)

/-! ## The D profile (Table 5-8, R137, R138) -/

/-- A word belongs to the D profile. -/
def dwLegal (i : Nat) (w : Word) : Bool :=
  match fld w 31 26 with
  | 0x03 => decide (fld w 25 21 < 8) && decide (fld w 20 16 < 8)
  | 0x0A => decide (fld w 25 21 < 8) && decide (fld w 20 16 < 8)
  | 0x0B => decide (fld w 25 21 < 8) && decide (fld w 20 16 < 8)
  | 0x29 => w == 0xA4000400
  | 0x3E => match fld w 25 22 with
    | 0 => fld w 3 0 == 0
    | 1 => fld w 21 8 == 0
    | 2 => fld w 21 8 == 0
    | 3 => fld w 21 19 == 0 && fld w 15 5 == 0 && decide (fld w 4 0 < i)
    | 15 => fld w 21 0 == 0
    | _ => false
  | _ => false

/-- The index moves on. -/
def State.dwNext (s : State) (n : Nat) : State := s.dwMod n (fun c => { c with pc := c.pc + 1 })

/-- A transfer's address fits its kind: a fixed one is 4-byte aligned, an incrementing one 16-byte aligned. -/
def dwAligned (fixed : Bool) (a : Dword) : Bool := a.toNat % (if fixed then 4 else 16) == 0

/-- xfer: its checks, then the transfer under way; the answer tells whether the program goes on at once. -/
def State.dwXfer (s : State) (n : Nat) (w : Word) : State × Bool :=
  let c := s.dw n
  let x : DwXfer := { src := fld w 21 19, dst := fld w 18 16, n := fld w 15 13, sfix := bitOf w 12, dfix := bitOf w 11
                      paced := bitOf w 10, beats := fld w 9 4 + 1, no := c.no + 1
                      sa := (s.dwG n (fld w 21 19)).toNat, da := (s.dwG n (fld w 18 16)).toNat
                      left := (s.dwG n (fld w 15 13)).toNat }
  if !dwAligned x.sfix (s.dwG n x.src) then (s.dwHalt n 5 (some (s.dwG n x.src).toNat), false)
  else if !dwAligned x.dfix (s.dwG n x.dst) then (s.dwHalt n 8 (some (s.dwG n x.dst).toNat), false)
  else if (s.dwG n x.n).toNat % 16 ≠ 0 then (s.dwHalt n 1 none, false)
  else if s.dwG n x.n = 0 then (s.dwNext n, true)
  else ((s.dwMod n (fun c => { c with xfer := some x, no := c.no + 1 })).dwShow n, false)

/-- signal: the completion event of the channel's group with a code (R419). -/
def State.dwSignal (s : State) (n code : Nat) : State :=
  let o := DMW_CH_SIGNAL n
  let s := (s.incF .DMW o 31 16 1).setF .DMW o 7 0 code
  s.eventSrc .DMW (min 11 (s.f .DMW (DMW_CH_CFG n) 11 8)) n

/-- One instruction of a running channel; the answer tells whether the next one follows at once. -/
def State.dwInstr (s : State) (n : Nat) (w : Word) : State × Bool :=
  let rd := fld w 25 21
  let a := s.dwG n (fld w 20 16)
  let imm : Dword := BitVec.ofInt 64 (toSigned 16 (fld w 15 0))
  match fld w 31 26 with
  | 0x03 => ((s.dwSetG n rd (a + imm)).dwNext n, true)
  | 0x0A => ((s.dwSetG n rd (a + imm <<< 16)).dwNext n, true)
  | 0x0B => ((s.dwSetG n rd (a + imm <<< 32)).dwNext n, true)
  | 0x29 => if (s.dw n).out.isEmpty then (s.dwNext n, true) else ((s.dwSetBit n 5 true).dwShow n, false)
  | _ => match fld w 25 22 with
    | 0 => s.dwXfer n w
    | 1 =>
      let r := fld w 7 0
      let s := s.dwMod n (fun c => { c with req := some r })
      if s.reqOn r then (s.dwNext n, true)
      else (((s.dwSetBit n 4 true).setF .DMW (DMW_CH_STATUS n) 23 16 r).dwShow n, false)
    | 2 => ((s.dwSignal n (fld w 7 0)).dwNext n, true)
    | 3 =>
      let g := fld w 18 16
      let v := s.dwG n g - 1
      let s := s.dwSetG n g v
      if s.dwG n g = 0 then (s.dwNext n, true) else (s.dwMod n (fun c => { c with pc := fld w 4 0 }), true)
    | _ => if (s.dw n).out.isEmpty then s.dwBoundary n else ((s.dwSetBit n 6 true).dwShow n, false)

/-- One instruction, or the exception ILLEGAL (R418). -/
def State.dwStep (s : State) (n : Nat) : State × Bool :=
  let pc := (s.dw n).pc
  let w := s.rd .DMW (DMW_BANKW n (s.dwActive n) pc)
  if 31 < pc ∨ dwLegal pc w = false then (s.dwHalt n 1 none, false) else s.dwInstr n w

/-- A running channel's program up to a burst, a wait, a held boundary or its end, or `k` instructions. -/
def State.dwRun : Nat → State → Nat → State
  | 0, s, n => s.dwShow n
  | k + 1, s, n => match s.dwStep n with
    | (s, true) => State.dwRun k s n
    | (s, false) => s

/-- The instructions that a channel executes in one step of the model; one that has more to execute goes on in the next step
(assumption log 30). -/
def dwFuel : Nat := 4096

/-- The program goes on where nothing holds it. -/
def State.dwGoOn (s : State) (n : Nat) : State :=
  if s.dwState n = 1 ∧ (s.dw n).xfer = none ∧ s.dwBit n 4 = false ∧ s.dwBit n 5 = false ∧ s.dwBit n 6 = false
  then State.dwRun dwFuel s n else s

/-- Every channel whose program nothing holds goes on. -/
def State.dwGoOnAll (s : State) : State := s.each (upto 64) (fun s n => s.dwGoOn n)

/-! ## GO (R408, R409) -/

/-- The argument registers of a channel, g1–g7. -/
def State.dwArgs (s : State) (n : Nat) : List Dword :=
  (upto 7).map (fun k => BitVec.ofNat 64 (s.rdN .DMW (DMW_CH_ARG_LO n (k + 1)) + s.rdN .DMW (DMW_CH_ARG_HI n (k + 1)) * 2 ^ 32))

/-- GO_STS. -/
def State.dwGoSts (s : State) (n : Nat) (r : Result) : State := s.wrN .DMW (DMW_CH_GO_STS n) r.code

/-- START (R408); during a power-loss sequence nothing new starts (R410). -/
def State.dwStart (s : State) (n : Nat) : State :=
  if s.pwr.phase = .loss then s.dwGoSts n .aborted
  else if s.dwState n = 1 ∨ s.dwState n = 3 then
    if (s.dw n).start.isSome then s.dwGoSts n .busy
    else ((s.dwMod n (fun c => { c with start := some (s.dwArgs n) })).dwGoSts n .ok).dwShow n
  else (((s.dwSwapTake n).dwBegin n (s.dwArgs n)).dwGoSts n .ok).dwGoOn n

/-- STOP (R409): the pending start is discarded with ABORTED; a running channel stops. -/
def State.dwStop (s : State) (n : Nat) : State :=
  let s := s.dwGoSts n (if (s.dw n).start.isSome then .aborted else .ok)
  let s := s.dwMod n (fun c => { c with start := none })
  if s.dwState n = 1 then
    let s := s.dwMod n (fun c => { c with xfer := none })
    ((((s.setF .DMW (DMW_CH_STATUS n) 2 0 3).dwSetBit n 4 false).dwSetBit n 5 false).dwSetBit n 6 false).dwShow n
  else s.dwShow n

/-- A write of DW[n]_GO: STOP goes before START. -/
def State.dwGo (s : State) (n : Nat) (v : Word) : State :=
  if bitOf v 1 then s.dwStop n else if bitOf v 0 then s.dwStart n else s

/-- Every channel stops at the power-loss declaration (R410). -/
def State.dwStopAll (s : State) : State := s.each (upto 64) (fun s n => if s.dwState n = 1 then s.dwStop n else s)

/-- DW_START (R408). -/
def execDwStart (n : Fin 64) (s : State) : Res := ok (s.dwGo n.val 1)

/-- DW_STOP (R409); `start`: the word has START set too. -/
def execDwStop (n : Fin 64) (start : Bool) (s : State) : Res := ok (s.dwGo n.val (if start then 3 else 2))

/-! ## Responses and errors (R415, R416) -/

/-- The first beat that no retry can save among the bursts a channel awaits: its address, its descriptor, and whether it was
taken as late already. -/
def State.dwBad (s : State) (n : Nat) : Option (Nat × DwOut) :=
  (s.dw n).out.findSome? (fun (b : DwOut) => b.bad.map (fun a => (a, b)))

/-- Retries of a channel are counted. -/
def State.dwRetried (s : State) (n k : Nat) : State :=
  if k = 0 then s else (s.incF .DMW (DMW_CH_COUNTS n) 31 24 k).dwFlag n 2

/-- CFG.RETRY. -/
def State.dwRetry (s : State) (n : Nat) : Nat := s.f .DMW (DMW_CH_CFG n) 6 4

/-- A late error's effects beside its retries (R416). -/
def State.dwLate (s : State) (n desc : Nat) : State :=
  let s := (s.dwFlag n 3).wrN .DMW (DMW_CH_LATE_DESC n) desc
  (s.incF .DMW (DMW_CH_COUNTS n) 23 16 1).eventSrc .DMW 14 n

/-- Every response of a channel has returned: the address of a beat that failed for good, with its burst, whose remaining
retries count; else nothing awaits. -/
def State.dwResolve (s : State) (n : Nat) : State × Option (Nat × DwOut) :=
  match s.dwBad n with
  | some (a, b) => (s.dwRetried n (s.dwRetry n - b.tries), some (a, b))
  | none => (s.dwMod n (fun c => { c with out := [] }), none)

/-- A channel halts over a beat that failed for good: 0x21 where its error is not late, else 0x22 with the late error's
effects. -/
def State.dwFail (s : State) (n : Nat) (late : Bool) (x : Nat × DwOut) : State :=
  if late then
    let s := if x.2.late then s else s.dwLate n x.2.desc
    s.dwHalt n 0x22 (some x.1)
  else s.dwHalt n 0x21 (some x.1)

/-- HELD_BOUNDARY_PASS (R416): every response resolves; a held channel passes its boundary or halts. -/
def execHeldBoundaryPass (n : Fin 64) (s : State) : Res :=
  if s.dwBit n.val 6 then
    match s.dwResolve n.val with
    | (s, some x) => ok (s.dwFail n.val true x)
    | (s, none) =>
      match (s.dwSetBit n.val 6 false).dwBoundary n.val with
      | (s, true) => ok (s.dwGoOn n.val)
      | (s, false) => ok s
  else ok s

/-- The end of a fence.arrive: every earlier write is acknowledged, or one failed for good (R415). -/
def State.dwFenceDone (s : State) (n : Nat) : State :=
  if s.dwBit n 5 then
    match s.dwResolve n with
    | (s, some x) => s.dwFail n false x
    | (s, none) => (((s.dwSetBit n 5 false).dwNext n).dwShow n).dwGoOn n
  else s

/-- DW_STOP_DONE (R409): every response has returned; the channel is idle with STOPPED set, and a start written meanwhile begins.
A beat that failed for good halts it. -/
def execDwStopDone (n : Fin 64) (s : State) : Res :=
  if s.dwState n.val = 3 then
    match s.dwResolve n.val with
    | (s, some x) => ok (s.dwFail n.val true x)
    | (s, none) =>
      match (s.dwFlag n.val 5).dwBoundary n.val with
      | (s, true) => ok (s.dwGoOn n.val)
      | (s, false) => ok s
  else ok s

/-- An address lies in a burst. -/
def DwOut.has (b : DwOut) (a : Nat) : Bool := decide (b.lo ≤ a) && decide (a < b.lo + b.len)

/-- A bus error on a beat of a burst that awaits its responses: late or not, another attempt, or the end of the attempts. -/
def State.dwWriteError (s : State) (n : Nat) (b : DwOut) (a : Nat) : State :=
  let late := !(s.dwBit n 5) && !(((s.dw n).xfer.map DwXfer.no) == some b.no)
  let s := if late && !b.late then s.dwLate n b.desc else s
  let put := fun (s : State) (y : DwOut) => (s.dwMod n (fun c => { c with out := c.out.map (fun z => if z = b then y else z) })).dwShow n
  if b.tries < s.dwRetry n then put (s.dwRetried n 1) { b with tries := b.tries + 1, late := b.late || late }
  else if late then
    if s.dwBit n 6 then s.dwHalt n 0x22 (some a) else put s { b with bad := some a, late := true }
  else s.dwHalt n 0x21 (some a)

/-- A bus error on a read beat of the transfer under way. -/
def State.dwReadError (s : State) (n a : Nat) : State :=
  if (s.dw n).tries < s.dwRetry n then (s.dwRetried n 1).dwMod n (fun c => { c with tries := c.tries + 1 })
  else s.dwHalt n 0x20 (some a)

/-- BEAT_ERROR (R415, R416): a bus error on a write beat (`wr`) of a burst that awaits its responses, or on a read beat of the
transfer under way. -/
def execBeatError (n : Fin 64) (wr : Bool) (addr : Nat) (s : State) : Res :=
  let a := addr % 2 ^ 40
  if wr then
    match (s.dw n.val).out.find? (fun b => b.has a) with
    | some b => ok (s.dwWriteError n.val b a)
    | none => ok s
  else if s.dwState n.val = 1 ∧ (s.dw n.val).xfer.isSome = true then ok (s.dwReadError n.val a)
  else ok s

/-! ## Requests -/

/-- DMW_SWREQ_WRITE (R412). -/
def execDmwSwreqWrite (v : Word) (s : State) : Res := ok (s.swreq v)

/-- REQUEST_ASSERTED (R412): each channel that waits on an asserted request goes on. -/
def execRequestAsserted (r : Fin 256) (s : State) : Res :=
  if s.reqOn r.val then
    ok (s.each (upto 64) (fun s n =>
      if s.dwState n = 1 ∧ s.dwBit n 4 = true ∧ s.f .DMW (DMW_CH_STATUS n) 23 16 = r.val then
        ((((s.dwSetBit n 4 false).setF .DMW (DMW_CH_STATUS n) 23 16 0).dwNext n).dwShow n).dwGoOn n
      else s))
  else ok s

/-! ## Commands (Table 17-5) -/

/-- The words of a bank up to its end belong to the profile (R140). -/
def dwBankLegal : Nat → List Word → Bool
  | _, [] => true
  | i, w :: t => dwLegal i w && ((fld w 31 26 == 0x3E && fld w 25 22 == 15) || dwBankLegal (i + 1) t)

/-- SWAP (R140, R141): the inactive bank is checked; an idle or halted channel swaps at once. -/
def execDmwSwap (s : State) : Res :=
  ok (s.command .DMW 1 fun a s =>
    let n := (arg a 0).toNat
    let ws := (upto 32).map (fun i => s.rd .DMW (DMW_BANKW n (1 - s.dwActive n) i))
    if 63 < n then refuse s .badHeader
    else if s.dwSwapPending n then refuse s .busy
    else if crc32c (ws.flatMap (fun w => leBytes 4 w.toNat)) ≠ s.rdN .DMW (DMW_BANKW n (1 - s.dwActive n) 32) then refuse s .badBlock
    else if !dwBankLegal 0 ws then refuse s .badHeader
    else
      let s := s.setBit .DMW (DMW_CH_BANK n) 2 true
      done (if s.dwState n = 0 ∨ s.dwState n = 2 then s.dwSwapTake n else s) .ok)

/-- SWAP_CANCEL (R141). -/
def execDmwSwapCancel (s : State) : Res :=
  ok (s.command .DMW 2 fun a s =>
    let n := (arg a 0).toNat
    if 63 < n then refuse s .badHeader else done (s.setBit .DMW (DMW_CH_BANK n) 2 false) .ok)

/-- CLEAR_COUNTS (R419, Table 17-5). -/
def execDmwClearCounts (s : State) : Res :=
  ok (s.command .DMW 3 fun a s =>
    done (s.each (bitsOf ((arg a 0).toNat + (arg a 1).toNat * 2 ^ 32) 64) (fun s n =>
      (s.wr .DMW (DMW_CH_COUNTS n) 0).setF .DMW (DMW_CH_SIGNAL n) 31 16 0)) .ok)

/-- A write of a word of a bank: the active one ignores it, and so does one locked by a pending SWAP (R140). -/
def State.dwBankWrite (s : State) (n b w : Nat) (v : Word) : State :=
  if b = s.dwActive n ∨ s.dwSwapPending n = true then s else s.wr .DMW (DMW_BANKW n b w) v

end Sys2Proof.Machine
end

