-- ==== Sys2Proof/Machine/Pace.lean ====
section
/-! DEFINITION. The core supply with the pace guard, the pace monitors, the clock islands and the crossings (PACE,
R54–R77). -/

namespace Sys2Proof.Machine

/-! ## Core supply (R57–R60) -/

/-- The target in force in mV: 650–900, in steps of 5 (R57). -/
def State.vcoreTarget (s : State) : Nat :=
  let t := clampN 650 900 (s.f .PACE PACE_VCORE_TARGET 9 0)
  t - t % 5

/-- The guard floor in mV, 0 when none. -/
def State.guardFloor (s : State) : Nat := s.f .PACE PACE_VCORE_NOW 25 16

/-- PACE_VCORE_NOW and GUARD_ACTIVE for a guard floor; the effective setpoint is the larger of target and floor (R60), and
SLEWING shows while the core voltage is not there. -/
def State.setFloor (s : State) (floor : Nat) : State :=
  let sp := max s.vcoreTarget floor
  let s := s.wrN .PACE PACE_VCORE_NOW (floor * 65536 + sp)
  (s.setBit .PACE PACE_STATUS 30 (floor != 0)).setBit .PACE PACE_STATUS 31 (s.pace.mv != sp)

/-- The effective setpoint in mV. -/
def State.setpoint (s : State) : Nat := s.f .PACE PACE_VCORE_NOW 9 0

/-- VCORE_DONE (R58): the core voltage reaches the effective setpoint. -/
def execVcoreDone (s : State) : Res :=
  if s.bit .PACE PACE_STATUS 31 then
    ok (((s.putPace { s.pace with mv := s.setpoint }).setBit .PACE PACE_STATUS 31 false).event .PACE 3)
  else ok s

/-! ## Pace monitors (R59, R61–R63) -/

/-- The stages of monitor `n` (Table 3-2). -/
def pmStages (n : Nat) : Nat :=
  if n < 8 then 40 else if n < 16 then 36 else if n < 20 then 44 else if n < 22 then 32
  else match n with
    | 22 => 36 | 23 => 36 | 24 => 32 | 25 => 40 | 26 => 32 | 27 => 32 | 28 => 36 | 29 => 36 | 30 => 28 | _ => 64

/-- The ratio of R62 × 256, from a monitor's cycle time and PM31's: PM31 reads 256 by definition. It rests on PM31's cycle time itself
and not on the rounded PACE_REF, is rounded down, and saturates at 65,535 (DESIGN CHOICE, assumption log 111). -/
def pmRatio (n c pm31 : Nat) : Nat :=
  if n = 31 then 256 else clampN 0 65535 (c * 64 * 256 / (pmStages n * pm31))

/-- One monitor's average: CYCLE, MINMAX and RATIO. Without a reference stage delay the ratio is open: a free value. -/
def State.pmSet (s : State) (n c pm31 : Nat) : State :=
  let mm := s.rd .PACE (PACE_PM_MINMAX n)
  let s := s.wrN .PACE (PACE_PM_CYCLE n) c
  let s := s.wrN .PACE (PACE_PM_MINMAX n) (max (fld mm 31 16) c * 65536 + min (fld mm 15 0) c)
  if pm31 = 0 && n != 31 then (s.wrN .PACE (PACE_PM_RATIO n) (s.freeNat 65536)).drawn
  else s.wrN .PACE (PACE_PM_RATIO n) (pmRatio n c pm31)

/-- The monitor among PM00–PM30 with the highest ratio, the lowest number of equals. -/
def State.worstPm (s : State) : Nat :=
  (upto 31).foldl (fun (w n : Nat) =>
    if s.f .PACE (PACE_PM_RATIO w) 15 0 < s.f .PACE (PACE_PM_RATIO n) 15 0 then n else w) 0

/-- An enabled monitor's average stands above its ceiling (R59). -/
def State.paceOver (s : State) : Bool :=
  (upto 32).any (fun n =>
    let c := s.rd .PACE (PACE_PM_CEIL n)
    bitOf c 16 && fld c 15 0 != 0 && decide (fld c 15 0 < s.f .PACE (PACE_PM_CYCLE n) 15 0))

/-- SLOW_ACTIVE is set, and SLOW raised once per excursion (R59). -/
def State.paceSlow (s : State) : State :=
  let s := s.setBit .PACE PACE_STATUS 29 true
  if s.pace.slow then s else (s.putPace { s.pace with slow := true }).event .PACE 1

/-- A ceiling that is exceeded makes the core slow: GUARD_EN at 0, or the setpoint at 900 mV already (R59, Table 3-5). -/
def State.slowNow (s : State) : Bool := !s.bit .PACE PACE_VCORE_CFG 16 || decide (900 ≤ s.setpoint)

/-- The pace guard on new averages (R59): the first raise of an excursion sets the floor to the setpoint plus 5 mV. -/
def State.paceGuard (s : State) : State :=
  if !s.paceOver then (s.putPace { s.pace with exc := false, slow := false }).setBit .PACE PACE_STATUS 29 false
  else if s.slowNow then s.paceSlow
  else
    let s := s.setBit .PACE PACE_STATUS 29 false
    if s.pace.exc then s
    else ((s.putPace { s.pace with exc := true }).setFloor (min 900 (s.setpoint + 5))).event .PACE 0

/-- SLOW_ACTIVE ends where its condition does, at a change of a setting (Table 3-5); it is set on new averages. -/
def State.slowEnd (s : State) : State := if s.paceOver && s.slowNow then s else s.setBit .PACE PACE_STATUS 29 false

/-- A new target or GUARD_RESET: the floor returns to 0 and an excursion ends; a ceiling still exceeded starts a new one (R60). -/
def State.floorReset (s : State) : State :=
  ((s.putPace { s.pace with exc := false, slow := false }).setFloor 0).slowEnd

/-- A write of PACE_VCORE_TARGET: a new target, and the guard floor returns to 0 (R60). -/
def State.vcoreWrite (s : State) (v : Word) : State :=
  if s.open .PACE then (s.wrN .PACE PACE_VCORE_TARGET (fld v 9 0)).floorReset else s

/-- VCORE_TARGET_WRITE (R57, R60). -/
def execVcoreTargetWrite (v : Word) (s : State) : Res := ok (s.vcoreWrite v)

/-- PM_AVERAGE (R61): each monitor publishes its average; CYCLE and PACE_REF saturate at 65,535, and PACE_REF is rounded down to
0.01 ps (DESIGN CHOICE, assumption log 110). -/
def execPmAverage (cycles : List Nat) (s : State) : Res :=
  let avg := fun k => clampN 0 65535 (cycles.getD k 0)
  let s := s.each (upto 32) (fun s n => s.pmSet n (avg n) (avg 31))
  let s := s.wrN .PACE PACE_REF (clampN 0 65535 (avg 31 * 100 / 64))
  let w := s.worstPm
  let s := (s.setF .PACE PACE_STATUS 20 16 w).setF .PACE PACE_STATUS 15 0 (s.f .PACE (PACE_PM_RATIO w) 15 0)
  ok s.paceGuard

/-- GUARD_INTERVAL_STEP (R59): while a ceiling stays exceeded the floor rises by 5 mV, up to 900 mV. -/
def execGuardIntervalStep (s : State) : Res :=
  if s.pace.exc && s.bit .PACE PACE_VCORE_CFG 16 && s.paceOver && decide (s.guardFloor < 900) then
    ok (s.setFloor (min 900 (s.guardFloor + 5)))
  else ok s

/-- RATIO_HIGH (R63): a ratio above 307 for 1 ms. -/
def execRatioHigh (s : State) : Res :=
  if (upto 31).any (fun n => decide (307 < s.f .PACE (PACE_PM_RATIO n) 15 0)) then ok (s.event .PACE 2) else ok s

/-- PM_CLEAR (Table 3-7): minimum and maximum of the masked monitors take their present average. -/
def execPmClear (s : State) : Res :=
  ok (s.command .PACE 1 fun a s =>
    done (s.each (bitsOf (arg a 0).toNat 32) (fun s n =>
      let c := s.f .PACE (PACE_PM_CYCLE n) 15 0
      s.wrN .PACE (PACE_PM_MINMAX n) (c * 65536 + c))) .ok)

/-- GUARD_RESET (R60): the guard floor to 0. -/
def execGuardReset (s : State) : Res :=
  ok (s.command .PACE 4 fun _ s => done s.floorReset .ok)

/-! ## Islands (R73–R77) -/

/-- The program may stop island `k` (Table 3-3). -/
def islStoppable (k : Nat) : Bool :=
  decide (k ≤ 7) || (decide (9 ≤ k) && decide (k ≤ 15)) || (decide (17 ≤ k) && decide (k ≤ 23))

/-- Island `k` has an external wake source (Table 3-3). -/
def islExternal (k : Nat) : Bool := decide (k ≤ 13)

/-- A program wake can start island `k` (Table 3-3). -/
def islProgram (k : Nat) : Bool := islStoppable k

/-- Ethernet's PHY islands, whose wake also wakes IL08. -/
def islPhy (k : Nat) : Bool := decide (9 ≤ k) && decide (k ≤ 13)

/-- The bounds in kHz of a locked island's frequency as measured against IL27 (Table 3-3, R65): ±2 ppm and a count for the clocks
locked to IL27, ±10 % for IL26 and ±5 % for IL28. -/
def islFreqBounds (k : Nat) : Nat × Nat :=
  let near := fun (n : Nat) => (n - n / 500000 - 1, n + n / 500000 + 1)
  if k ≤ 7 then near 80000 else if k = 8 then near 250000 else if k ≤ 10 then near 156250
  else if k ≤ 13 then (66665, 66671) else if k ≤ 15 then near 500000 else if k = 16 then near 800000
  else if k ≤ 22 then near 124000 else if k = 23 then near 150000 else if k ≤ 25 then near 100000
  else if k = 26 then (14400, 17600) else if k = 27 then near 40000 else (22800, 25200)

/-- A read of PACE_ISL[k]_FREQ (R65): 0 until the island was measured, its last measurement while it does not run; of a running one
a free value, within its tolerance while it is locked; IL28 shows what its frequency test measured (Table 20-4). -/
def State.freqRead (s : State) (k : Nat) : Word × State :=
  let o := PACE_ISL_FREQ k
  if !s.islUp k || (k == 28 && s.islLive k && s.rd .PACE o != 0) then (s.rd .PACE o, s)
  else
    let b := islFreqBounds k
    let v := if s.islLive k then b.1 + s.freeNat (b.2 + 1 - b.1) else s.freeNat 16777216
    (wordN v, s.drawn.wrN .PACE o v)

/-- An island's record. -/
def State.isl (s : State) (k : Nat) : Isl := s.pace.isl.get {} k

/-- Change an island's record. -/
def State.islMod (s : State) (k : Nat) (f : Isl → Isl) : State :=
  s.putPace { s.pace with isl := s.pace.isl.mod {} k f }

/-! ### What an island's stop and start mean to its block -/

/-- A saturating 32-bit counter increased by one. -/
def State.count32 (s : State) (b : Block) (o : Nat) : State := s.wrN b o (satAdd 0xFFFFFFFF (s.rdN b o) 1)

/-- A port's link is up. -/
def State.linkUp (s : State) (p : Nat) : Bool := s.bit .ETH ETH_STATUS p

/-- asCapable of a port set or cleared. -/
def State.setCapable (s : State) (p : Nat) (v : Bool) : State :=
  (s.setBit .ETH ETH_STATUS (8 + p) v).setBit .ETH (ETH_P_STATUS p) 3 v

/-- A link comes up or goes down (R402): LINK, the losses, and asCapable lost with the link. -/
def State.linkSet (s : State) (p : Nat) (up : Bool) : State :=
  if s.linkUp p = up then s
  else
    let s := (s.setBit .ETH ETH_STATUS p up).setBit .ETH (ETH_P_STATUS p) 2 up
    let s := if up then s else
      ((s.putEth { s.eth with good := s.eth.good.set 0 p 0 }).setCapable p false).count32 .ETH (ETH_P_LINKDOWN p)
    s.event .ETH 0

/-- A block follows its island. A camera link trains once its receiver island runs and is down, with LINK, when it stops
(R190). A stopped CAN island discards what its receive FIFOs hold unread (R73) and ends an attempt whose end was not reported,
its request still pending; the controller keeps its STATE and sends again from the wake on. A stopped PHY island has no link
(DEDUCED, assumption log 169). -/
def State.islLink (s : State) (k : Nat) (up : Bool) : State :=
  if k = 14 ∨ k = 15 then (if up then s.setF .CAM (CAM_L_STATUS (k - 14)) 1 0 1 else s.camLinkDown (k - 14))
  else if k < 8 then (if up then s.canKick k else (s.cchMod k (fun c => { c with tx := none })).fifoDiscard k)
  else if 9 ≤ k ∧ k ≤ 13 then (if up then s else s.linkSet (k - 9) false)
  else s

/-- An island enters STARTING for a cause: WAKE and STOP are cleared by hardware (Table 3-8, R75). -/
def State.islStart (s : State) (k cause : Nat) : State :=
  let s := (s.setF .PACE (PACE_ISL_STATUS k) 1 0 1).setF .PACE (PACE_ISL_CTRL k) 1 0 0
  s.islMod k (fun i => { i with cause := cause, wake := none })

/-- A wake request meets an island in its present state (R74, R75): one that is starting starts on, with a STOP written meanwhile
cleared. -/
def State.islWakeOne (s : State) (k cause : Nat) : State :=
  match s.islState k with
  | 0 => s.islStart k cause
  | 1 => s.setF .PACE (PACE_ISL_CTRL k) 1 0 0
  | 2 => s.setBit .PACE (PACE_ISL_CTRL k) 1 false
  | _ => s.islMod k (fun i => { i with wake := some cause })

/-- A wake request: a PHY island's wake also wakes the switch island IL08 where its WAKE_EN is 1. -/
def State.islWake (s : State) (k cause : Nat) : State :=
  let s := s.islWakeOne k cause
  if islPhy k && s.bit .PACE (PACE_ISL_CTRL 8) 8 then s.islWakeOne 8 2 else s

/-- A running island begins to stop. -/
def State.islStop (s : State) (k : Nat) : State := s.setF .PACE (PACE_ISL_STATUS k) 1 0 3

/-- A write of PACE_ISL[k]_CTRL: WAKE_EN, then STOP (ignored where the program cannot stop the island), then WAKE (R73–R75,
Table 3-8). -/
def State.islCtrl (s : State) (k : Nat) (v : Word) : State :=
  let o := PACE_ISL_CTRL k
  let s := s.setBit .PACE o 8 (bitOf v 8)
  let s := s.setBit .PACE o 0 (bitOf v 0 && islStoppable k)
  let s := if s.bit .PACE o 0 && s.islState k == 2 then s.islStop k else s
  if bitOf v 1 && islProgram k then (s.setBit .PACE o 1 true).islWake k 1 else s

/-- ISL_STOP_WRITE (R73). -/
def execIslStopWrite (k : Fin 29) (v : Word) (s : State) : Res := ok (s.islCtrl k.val (putBit v 0 true))

/-- ISL_STOPPED (R73): the island reaches STOPPED; a wake or a restart that waited for it starts it. -/
def execIslStopped (k : Fin 29) (s : State) : Res :=
  let k := k.val
  if s.islState k ≠ 3 then ok s
  else
    let s := ((s.setF .PACE (PACE_ISL_STATUS k) 1 0 0).setBit .PACE (PACE_ISL_STATUS k) 8 false).event .PACE 5
    let s := s.islLink k false
    if (s.isl k).restart then ok ((s.islMod k (fun i => { i with stopped := true })).islStart k 3)
    else match (s.isl k).wake with
      | some c => ok (s.islStart k c)
      | none => ok s

/-- ISL_WAKE_REQUEST (R74): the program writes WAKE. -/
def execIslWakeRequest (k : Fin 29) (s : State) : Res :=
  if islProgram k.val then ok ((s.setBit .PACE (PACE_ISL_CTRL k.val) 1 true).islWake k.val 1) else ok s

/-- EXTERNAL_WAKE (R74): the island's external source wakes it when WAKE_EN is 1. -/
def execExternalWake (k : Fin 29) (s : State) : Res :=
  if islExternal k.val && s.bit .PACE (PACE_ISL_CTRL k.val) 8 then ok (s.islWake k.val 2) else ok s

/-- ISL_RESTART ends, where it runs for island `k`. -/
def State.restartEnd (s : State) (k : Nat) (r : Result) : State :=
  if (s.isl k).restart then (s.islMod k (fun i => { i with restart := false, stopped := false })).cmdEndIf .PACE 3 r else s

/-- ISL_WAKE (R74): a starting island locks and reaches RUN; a STOP written meanwhile now takes effect (R75). The restart of
ISL_RESTART counts and is reported as a wake is; the islands that a start-up starts are not (DEDUCED, assumption log 112). -/
def execIslWake (k : Fin 29) (s : State) : Res :=
  let k := k.val
  if s.islState k ≠ 1 then ok s
  else
    let o := PACE_ISL_STATUS k
    let s := ((s.setF .PACE o 1 0 2).setBit .PACE o 8 true).setF .PACE o 15 12 (s.isl k).cause
    let s := ((s.incF .PACE o 31 16 1).event .PACE 4).islLink k true
    if (s.isl k).restart && !(s.isl k).stopped then ok (s.islStop k)
    else
      let s := s.restartEnd k .ok
      if s.bit .PACE (PACE_ISL_CTRL k) 0 then ok (s.islStop k) else ok s

/-- ISL_LOCK_TIMEOUT (R76): a starting island that has not locked returns to STOPPED. -/
def execIslLockTimeout (k : Fin 29) (s : State) : Res :=
  if s.islState k.val ≠ 1 then ok s
  else ok (((s.setF .PACE (PACE_ISL_STATUS k.val) 1 0 0).event .PACE 6).restartEnd k.val .aborted)

/-- A running island out of tolerance loses LOCKED and holds its outputs (R76). -/
def State.islUnlock (s : State) (k : Nat) : State :=
  ((s.setBit .PACE (PACE_ISL_STATUS k) 8 false).event .PACE 6).restartEnd k .aborted

/-- ISL_RESTART (R77): takes an island through STOPPING and STOPPED back to RUN. -/
def execIslRestart (s : State) : Res :=
  ok (s.command .PACE 3 fun a s =>
    let k := (arg a 0).toNat
    if 29 ≤ k then refuse s .badHeader
    else if !islStoppable k then refuse s .refusedMode
    else
      let s := s.islMod k (fun i => { i with restart := true, stopped := false })
      match s.islState k with
      | 0 => ((s.islMod k (fun i => { i with stopped := true })).islStart k 3, none)
      | 2 => (s.islStop k, none)
      | _ => (s, none))

/-- The islands of a mask stand in RUN, locked, with LAST_WAKE 0: started by a start-up. -/
def State.islRun (s : State) (ks : List Nat) : State :=
  s.each ks (fun s k => (s.setF .PACE (PACE_ISL_STATUS k) 15 0 0x102).islMod k (fun _ => {}) |>.islLink k true)

/-! ## Crossings (R66–R72) -/

/-- XCm carries toggles: the command and event crossings of its island (R65). -/
def xcToggles (m : Nat) : Bool := decide (m % 8 < 2)

/-- XCm carries a stream, whose FIFO pointers cross as values (R69); XC119 and XC127 are reserved. -/
def xcStream (m : Nat) : Bool := decide (4 ≤ m % 8) && m != 119 && m != 127

/-- XCm carries values into its island: configuration, or a stream's pointer. -/
def xcIn (m : Nat) : Bool := m % 8 == 3 || xcStream m

/-- XCm carries values into the fabric: status, or a stream's pointer. -/
def xcOut (m : Nat) : Bool := m % 8 == 2 || xcStream m

/-- A crossing's record. -/
def State.xc (s : State) (m : Nat) : Xc := s.pace.xc.get {} m

/-- Change a crossing's record. -/
def State.xcMod (s : State) (m : Nat) (f : Xc → Xc) : State :=
  s.putPace { s.pace with xc := s.pace.xc.mod {} m f }

/-- A merge or unsettled counter at a non-zero threshold raises its event once per clear and names the first crossing to
reach it (R71). -/
def State.xcReach (s : State) (m : Nat) (merge : Bool) : State :=
  let hi := if merge then 31 else 15
  let lo := if merge then 16 else 0
  let thr := s.f .PACE PACE_XC_THRESH hi lo
  let x := s.xc m
  if thr = 0 ∨ s.f .PACE (PACE_XC_CNT m) hi lo < thr ∨ (if merge then x.mergeSeen else x.unsetSeen) = true then s
  else
    let s := s.xcMod m (fun x => if merge then { x with mergeSeen := true } else { x with unsetSeen := true })
    let fh := if merge then 23 else 7
    let s := if s.f .PACE PACE_XC_FIRST fh (fh - 7) = 0xFF then s.setF .PACE PACE_XC_FIRST fh (fh - 7) m else s
    s.event .PACE (if merge then 8 else 7)

/-- XC_TOGGLE (R66): on a crossing of toggles the sender toggles, or merges the event while a toggle is unacknowledged. -/
def execXcToggle (m : Fin 232) (s : State) : Res :=
  let x := s.xc m.val
  if !xcToggles m.val then ok s
  else if x.level != x.acked then
    ok (((s.xcMod m.val (fun x => { x with pending := true })).incF .PACE (PACE_XC_CNT m.val) 31 16 1).xcReach m.val true)
  else ok (s.xcMod m.val (fun x => { x with level := !x.level }))

/-- XC_TOGGLE_ACK (R66): the return toggle; a pending flag sends one further toggle. -/
def execXcToggleAck (m : Fin 232) (s : State) : Res :=
  let x := s.xc m.val
  if x.level == x.acked then ok s
  else if x.pending then ok (s.xcMod m.val (fun x => { x with acked := x.level, level := !x.level, pending := false }))
  else ok (s.xcMod m.val (fun x => { x with acked := x.level }))

/-- The fabric side of a value crossing (R67): writes come, each in the holding register in place of the one before, and island
periods pass; a value that waits is published once the last one was stable for 3 of them. -/
def Xc.publish (x : Xc) (ws : List Word) (periods : Nat) : Xc :=
  let hold := match ws.getLast? with | some w => some w | none => x.hold
  let stable := min 3 (x.stable + periods)
  match hold with
  | some w => if 3 ≤ stable then { x with hold := none, pub := w, stable := 0 } else { x with hold := hold, stable := stable }
  | none => { x with stable := stable }

/-- XC_VALUE_ACCEPT (R67) on a crossing of values into an island, after the program's writes and island periods: two consecutive
samples that agree on the published value are accepted; while they disagree the previous value stays and an unsettled retry
counts. A value that was not published is never accepted. -/
def execXcValueAccept (m : Fin 232) (ws : XcWrites) (ab : Word × Word) (s : State) : Res :=
  if !xcIn m.val then ok s
  else
    let s := s.xcMod m.val (fun x => x.publish ws.words ws.periods)
    if ab.1 ≠ ab.2 then ok ((s.incF .PACE (PACE_XC_CNT m.val) 15 0 1).xcReach m.val false)
    else ok (s.xcMod m.val (fun x => if x.pub = ab.2 then { x with accepted := ab.2 } else x))

/-- The island writes a value into the holding register that it has not announced, and announces it by a toggle (R68). -/
def Xc.announce (x : Xc) (v : Word) : Xc :=
  { x with bufs := if x.ann then (v, x.bufs.2) else (x.bufs.1, v), ann := !x.ann }

/-- The holding register announced. -/
def Xc.announced (x : Xc) : Word := if x.ann then x.bufs.2 else x.bufs.1

/-- XC_FABRIC_READ (R68) on a crossing of values into the fabric: the values that the island wrote since the last read, each
announced; the fabric reads the latest announced one whole, and the others are skipped. -/
def execXcFabricRead (m : Fin 232) (vs : List Word) (s : State) : Res :=
  if !xcOut m.val then ok s
  else ok (s.xcMod m.val (fun x =>
    let x := vs.foldl Xc.announce x
    { x with read := x.announced }))

/-- XC_CLEAR (Table 3-7): the counters of a range to 0 and PACE_XC_FIRST to none; a range beyond XC231 is BAD_HEADER. -/
def execXcClear (s : State) : Res :=
  ok (s.command .PACE 2 fun a s =>
    let first := (arg a 0).toNat
    let n := (arg a 1).toNat
    if n = 0 ∨ 232 < first + n then refuse s .badHeader
    else
      let s := s.each (upto n) (fun s i =>
        (s.wrN .PACE (PACE_XC_CNT (first + i)) 0).xcMod (first + i) (fun x => { x with mergeSeen := false, unsetSeen := false }))
      done (s.wrN .PACE PACE_XC_FIRST 0x00FF00FF) .ok)

/-- At a core reset the fabric side of a crossing resets (R72). A sender of toggles takes the level last acknowledged, and its
pending events are lost; a receiver adopts the island's present level, without an event, and what pends on the island side is
sent, merged, by one further toggle. What waits in a holding register and what was read are the fabric's and go; what the island
accepted and announced stays. `out`: the crossing leads into the fabric. -/
def xcReset (out : Bool) (x : Xc) : Xc :=
  { x with
    level := if out then x.level != x.pending else x.acked
    acked := if out then x.level else x.acked
    pending := false, hold := none, read := 0, mergeSeen := false, unsetSeen := false }

/-- PACE at a core reset (R6, R57, R65, R72): its registers to their reset values and every island stopped but IL24 and
IL27, the Ethernet islands, whose links stay trained (R407), and IL16, whose memory keeps its contents. -/
def State.paceCoreReset (s : State) : State :=
  let keep := [8, 9, 10, 11, 12, 13, 16, 24, 27].filter (fun k => s.islState k == 2)
  let s := s.resetWindow .PACE (fun _ => false)
  let s := s.putPace { s.pace with
    mv := s.pace.mv, exc := false, slow := false, isl := SMap.empty
    xc := ⟨(s.pace.xc.cells.map (fun (c : Nat × Xc) => (c.1, xcReset (c.1 % 8 == 1) c.2))).filter (fun (c : Nat × Xc) => decide (c.2 ≠ ({} : Xc)))⟩ }
  (s.islRun keep).setFloor 0

end Sys2Proof.Machine
end

