-- ==== Sys2Proof/Machine/Ethernet.lean ====
section
/-! DEFINITION. The Ethernet ports and the switch (R402–R407): ingress, learning, forwarding, classification, the host
rings, links, and 802.1AS. -/

namespace Sys2Proof.Machine

/-! ## Frames -/

/-- The number that bytes spell, most significant first, as addresses and types stand in a frame. -/
def beNat (bs : List Byte) : Nat := leNat bs.reverse

/-- A frame taken apart: addresses, tag (PCP, VID) if it has one, EtherType and payload. -/
structure EthFrame where
  dst : Nat
  src : Nat
  tag : Option (Nat × Nat)
  typ : Nat
  body : List Byte

/-- A frame's fields from its bytes. -/
def ethParse (d : List Byte) : EthFrame :=
  let be := fun o n => beNat ((d.drop o).take n)
  if be 12 2 = 0x8100 then
    { dst := be 0 6, src := be 6 6, tag := some (be 14 2 / 8192, be 14 2 % 4096), typ := be 16 2, body := d.drop 18 }
  else { dst := be 0 6, src := be 6 6, tag := none, typ := be 12 2, body := d.drop 14 }

/-- The module's MAC address. -/
def State.ethMac (s : State) : Nat := s.f .ETH ETH_MAC_HI 15 0 * 2 ^ 32 + s.rdN .ETH ETH_MAC_LO

/-- A multicast or broadcast address. -/
def groupMac (m : Nat) : Bool := m / 2 ^ 40 % 2 == 1

/-- A drop is counted: FAULT at most once per second. -/
def State.ethFault (s : State) : State :=
  match s.eth.faultAt with
  | some t => if t + 1000000000 ≤ s.clk.up then (s.putEth { s.eth with faultAt := some s.clk.up }).event .ETH 2 else s
  | none => (s.putEth { s.eth with faultAt := some s.clk.up }).event .ETH 2

/-- A frame dropped at the ingress of a port; the host port has no counters. -/
def State.dropIn (s : State) (p : Nat) : State :=
  (if p < 5 then s.incF .ETH (ETH_P_DROPS p) 31 16 1 else s).ethFault

/-- A frame dropped at the egress of a port. -/
def State.dropOut (s : State) (p : Nat) : State :=
  (if p < 5 then s.incF .ETH (ETH_P_DROPS p) 15 0 1 else s).ethFault

/-! ## Links -/

/-- Forwarding is paused after a core reset until the drawer load has rewritten ETH (R407). -/
def State.fwdPaused (s : State) : Bool := s.bit .ETH ETH_STATUS 16

/-- The port that a running PORT_RESTART names. -/
def State.restarting (s : State) : Option Nat :=
  let m := s.mailOf .ETH
  if m.code = 2 then some (fld (arg m.args 0) 2 0) else none

/-- LINK (R402): a link of an enabled port whose PHY's island runs comes up, or a link goes down. A PORT_RESTART ends with OK when its link is up,
and with ABORTED when the link reports down again, which stands for its 1 s without a partner. -/
def execEthLink (p : Fin 5) (up : Bool) (s : State) : Res :=
  if up then
    if s.bit .ETH (ETH_P_CFG p.val) 31 && s.islUp (9 + p.val) && s.pwr.phase != .loss then
      let s := s.linkSet p.val true
      ok (if s.restarting = some p.val then s.cmdEnd .ETH .ok else s)
    else ok s
  else if s.restarting = some p.val ∧ !s.linkUp p.val then ok (s.cmdEnd .ETH .aborted)
  else ok (s.linkSet p.val false)

/-! ## VLANs, learning and forwarding (R403) -/

/-- The enabled VLAN entry of a VID. -/
def State.vlanOf (s : State) (vid : Nat) : Option Word :=
  ((upto 64).map (fun v => s.rd .ETH (ETH_VLAN v))).find? (fun w => bitOf w 31 && fld w 11 0 == vid)

/-- The static forwarding entry of an address and a VID, as a port mask. -/
def State.fdbStatic (s : State) (mac vid : Nat) : Option Nat :=
  ((upto 16).find? (fun k =>
    s.bit .ETH (ETH_FDB_STATIC_CFG k) 31 && s.f .ETH (ETH_FDB_STATIC_CFG k) 11 0 == vid &&
      s.f .ETH (ETH_FDB_STATIC_MAC_HI k) 15 0 * 2 ^ 32 + s.rdN .ETH (ETH_FDB_STATIC_MAC_LO k) == mac)).map
    (fun k => s.f .ETH (ETH_FDB_STATIC_CFG k) 21 16)

/-- ETH_FDB_COUNT follows the dynamic entries. -/
def State.fdbShow (s : State) : State := s.wrN .ETH ETH_FDB_COUNT s.eth.fdb.length

/-- The switch learns an address behind a port; at 1,024 entries it learns no more (R403). -/
def State.learn (s : State) (p mac vid : Nat) : State :=
  if p < 5 ∧ s.bit .ETH (ETH_P_CFG p) 28 ∧ !groupMac mac then
    let l := s.eth.fdb.filter (fun e => !(e.mac == mac && e.vid == vid))
    if l.length < 1024 then
      let new : FdbEntry := { mac := mac, vid := vid, port := p, seen := s.clk.up }
      (s.putEth { s.eth with fdb := l ++ [new] }).fdbShow
    else s
  else s

/-- The egress ports of a frame: the known port of a unicast address, else the VLAN's members except the ingress port. -/
def State.egress (s : State) (p dst vid : Nat) (vlan : Word) : List Nat :=
  let members := (bitsOf (fld vlan 21 16) 6).filter (fun q => q != p)
  let known := match s.fdbStatic dst vid with
    | some m => some (bitsOf m 6)
    | none => ((s.eth.fdb.find? (fun (e : FdbEntry) => e.mac == dst && e.vid == vid)).map (fun (e : FdbEntry) => [e.port]))
  if groupMac dst then members
  else match known with
    | some l => l.filter (fun q => q != p && members.contains q)
    | none => members

/-! ## The host's receive rings (R405) -/

/-- The entries of a ring, from its LOG2N. -/
def ringSize (cfg : Word) : Nat := 2 ^ clampN 4 12 (fld cfg 3 0)

/-- The entries that a ring holds between TAIL and HEAD, at most its size (R151). -/
def ringHeld (cfg : Word) (head tail : Nat) : Nat := min (ringSize cfg) ((head + 65536 - tail) % 65536)

/-- The address of a ring's descriptor `k`. -/
def ringAddr (lo hi cfg : Word) (k : Nat) : Nat := fld hi 7 0 * 2 ^ 32 + fld lo 31 5 * 32 + 32 * (k % ringSize cfg)

/-- HOST_RX, where received frames wait that the program has not seen: once for the batch, at most once per 100 µs; a batch that
must wait for them is signalled as time passes. -/
def State.hostRx (s : State) : State :=
  let due := match s.eth.rxAt with | some t => decide (t + 100000 ≤ s.clk.up) | none => true
  if s.eth.waiting && !s.eth.signalled && due then
    (s.putEth { s.eth with signalled := true, rxAt := some s.clk.up }).event .ETH 1
  else s

/-- A frame is delivered to receive ring PCP div 2 (R404, R405). -/
def State.toHost (s : State) (p pcp vid t : Nat) (d : List Byte) : State :=
  let q := pcp / 2
  let cfg := s.rd .ETH (ETH_RX_CFG q)
  let tail := s.f .ETH (ETH_RX_TAIL q) 15 0
  if bitOf cfg 8 ∧ 0 < ringHeld cfg (s.f .ETH (ETH_RX_HEAD q) 15 0) tail then
    let a := ringAddr (s.rd .ETH (ETH_RX_BASE_LO q)) (s.rd .ETH (ETH_RX_BASE_HI q)) cfg tail
    let buf := s.rdLE a 8 / 64 * 64
    let size := s.rdLE (a + 8) 2
    let s := s.engStore buf (d.take size)
    let s := s.engStore (a + 8) (leBytes 2 d.length ++ leBytes 1 p ++ leBytes 1 (1 + 4 * b2n (decide (size < d.length))) ++
      leBytes 2 (pcp * 8192 + vid) ++ [0])
    let s := s.engStore (a + 16) (leBytes 8 t)
    let s := s.wrN .ETH (ETH_RX_TAIL q) (tail + 1 - (tail + 1) / 65536 * 65536)
    (s.putEth { s.eth with waiting := true }).hostRx
  else (s.count32 .ETH (ETH_RX_DROPS q)).ethFault

/-- A port moves frames: its link is up and its PHY's island is locked (R76). -/
def State.portLive (s : State) (q : Nat) : Bool := s.linkUp q && s.islLive (9 + q)

/-- A frame leaves through an external port: sent where the port moves frames and its queue has room, dropped and counted where
the buffer is full. -/
def State.sendOut (s : State) (q full : Nat) (d : List Byte) : State :=
  if full.testBit q then s.dropOut q
  else if s.portLive q then (s.putEth { s.eth with sent := s.eth.sent.set [] q d }).count32 .ETH (ETH_P_TX q)
  else s

/-- A frame as it leaves by port `q`: without a tag where the entry's untag mask names the port, else with it. -/
def egressBytes (q pcp vid : Nat) (vlan : Word) (f : EthFrame) (d : List Byte) : List Byte :=
  let tag : List Byte := if (fld vlan 29 24).testBit q then [] else [0x81, 0x00] ++ (leBytes 2 (pcp * 8192 + vid)).reverse
  d.take 12 ++ tag ++ (leBytes 2 f.typ).reverse ++ f.body

/-- A frame leaves through a port of the switch, P5 the host's. -/
def State.sendPort (s : State) (p q pcp vid t : Nat) (vlan : Word) (full : Nat) (f : EthFrame) (d : List Byte) : State :=
  let d := egressBytes q pcp vid vlan f d
  if q < 5 then s.sendOut q full d
  else if full.testBit q then s.dropOut q
  else s.toHost p pcp vid t d

/-- A frame is forwarded under R403. -/
def State.forward (s : State) (p pcp vid t : Nat) (vlan : Word) (full : Nat) (host : Bool) (f : EthFrame) (d : List Byte) : State :=
  let qs := (s.egress p f.dst vid vlan).filter (fun q => !(host && q == 5))
  s.each qs (fun s q => s.sendPort p q pcp vid t vlan full f d)

/-! ## Classification (R404) -/

/-- The UDP payload of a frame to port 48622 at ETH_MAC and ETH_IP4, if it is one. -/
def State.slotDatagram (s : State) (f : EthFrame) : Option (List Byte) :=
  let b := f.body
  let be := fun o n => beNat ((b.drop o).take n)
  let ihl := be 0 1 % 16 * 4
  let ip := s.rdN .ETH ETH_IP4
  if f.typ == 0x800 && be 0 1 / 16 == 4 && be 9 1 == 17 && ip != 0 && be 16 4 == ip && f.dst == s.ethMac &&
      be (ihl + 2) 2 == 48622 then
    some (((b.drop (ihl + 8)).take (be (ihl + 4) 2 - 8)))
  else none

/-- A frame is for the host: its own address, broadcast, or multicast with ALL_MCAST. -/
def State.hostFrame (s : State) (dst : Nat) : Bool :=
  dst == s.ethMac || dst == 2 ^ 48 - 1 || (groupMac dst && s.bit .ETH ETH_HOST_CFG 0)

/-- A frame that has passed ingress is classified (R404). -/
def State.classify (s : State) (p pcp vid t : Nat) (vlan : Word) (full : Nat) (f : EthFrame) (d : List Byte) : State :=
  match s.slotDatagram f with
  | some u => match execSlotFragment u s with | .next s => s | _ => s
  | none =>
    if s.hostFrame f.dst then
      let s := s.toHost p pcp vid t d
      if groupMac f.dst then s.forward p pcp vid t vlan full true f d else s
    else s.forward p pcp vid t vlan full false f d

/-- A frame enters the switch at a port: the tag it is taken with, its VLAN, learning, and what becomes of it. -/
def State.ingress (s : State) (p t : Nat) (full : Nat) (d : List Byte) : State :=
  let f := ethParse d
  let cfg := s.rd .ETH (ETH_P_CFG p)
  let (pcp, vid) := match f.tag with
    | none => (if p < 5 then fld cfg 15 13 else 0, if p < 5 then fld cfg 11 0 else 1)
    | some (c, v) => (c, if v = 0 then (if p < 5 then fld cfg 11 0 else 1) else v)
  match s.vlanOf vid with
  | none => s.dropIn p
  | some vlan =>
    if (fld vlan 21 16).testBit p then (s.learn p f.src vid).classify p pcp vid t vlan full f d else s.dropIn p

/-- ETH_FRAME_RECEIVED (R402–R404): errors, PAUSE frames and frames that arrive while forwarding is paused are dropped and
counted; PTP frames go to the 802.1AS engine. A port or a switch whose island is not in RUN and locked receives nothing (R74,
R76). -/
def execEthFrameReceived (p : Fin 5) (t : Nat) (d : List Byte) (bad : Bool) (full : BitVec 6) (s : State) : Res :=
  if s.portLive p.val && s.islLive 8 then
    let s := s.count32 .ETH (ETH_P_RX p.val)
    let f := ethParse d
    if bad ∨ d.length < 60 ∨ 1518 < d.length ∨ f.typ = 0x8808 ∨ s.fwdPaused then ok (s.dropIn p.val)
    else if f.typ = 0x88F7 then ok s
    else ok (s.ingress p.val t full.toNat d)
  else ok s

/-! ## The host's rings (R405) -/

/-- ETH_RX_HEAD_WRITE (R405). -/
def execEthRxHeadWrite (q : Fin 4) (v : Word) (s : State) : Res := ok (s.wrN .ETH (ETH_RX_HEAD q.val) (fld v 15 0))

/-- ETH_TX_HEAD_WRITE (R405). -/
def execEthTxHeadWrite (q : Fin 4) (v : Word) (s : State) : Res := ok (s.wrN .ETH (ETH_TX_HEAD q.val) (fld v 15 0))

/-- ETH_FRAME_SENT (R405): the frame at a transmit ring's TAIL enters the switch as from P5, or leaves by the port that its
PORT forces; its RESULT is written and TAIL advances. -/
def execEthFrameSent (q : Fin 4) (t : Nat) (full : BitVec 6) (s : State) : Res :=
  let cfg := s.rd .ETH (ETH_TX_CFG q.val)
  let tail := s.f .ETH (ETH_TX_TAIL q.val) 15 0
  if bitOf cfg 8 && decide (0 < ringHeld cfg (s.f .ETH (ETH_TX_HEAD q.val) 15 0) tail) && !s.fwdPaused &&
      s.islLive 8 && s.pwr.phase != .loss then
    let a := ringAddr (s.rd .ETH (ETH_TX_BASE_LO q.val)) (s.rd .ETH (ETH_TX_BASE_HI q.val)) cfg tail
    let d := s.rdBytes (s.rdLE a 8 / 64 * 64) (s.rdLE (a + 8) 2)
    let port := s.rdLE (a + 10) 1
    let d := if (s.rdLE (a + 11) 1).testBit 3 then d.take 12 ++ [0x81, 0x00] ++ (leBytes 2 (s.rdLE (a + 12) 2)).reverse ++ d.drop 12 else d
    let s := if port = 0 then s.ingress 5 t full.toNat d
      else s.each (bitsOf port 5) (fun s p => s.sendOut p full.toNat d)
    let s := (s.engStore (a + 14) [0]).engStore (a + 16) (leBytes 8 t)
    ok (s.wrN .ETH (ETH_TX_TAIL q.val) (fld (wordN (tail + 1)) 15 0))
  else ok s

/-- The program reads a receive ring's TAIL and so sees the frames received (R405). -/
def State.hostSeen (s : State) : State := s.putEth { s.eth with waiting := false, signalled := false }

/-! ## Ageing, 802.1AS and commands -/

/-- FDB_AGE (R403): a dynamic entry ages out ETH_AGE seconds after it was last learned. -/
def execFdbAge (k : Nat) (s : State) : Res :=
  match s.eth.fdb[k]? with
  | some e =>
    let s := s.pass (e.seen + clampN 10 1000 (s.f .ETH ETH_AGE 9 0) * 1000000000 - s.clk.up)
    ok (s.putEth { s.eth with fdb := s.eth.fdb.eraseIdx k }).fdbShow
  | none => ok s

/-- PTP_SYNC (R406): a sync is sent on each port that runs 802.1AS and is asCapable; the grandmaster announces itself (R240). -/
def execPtpSync (s : State) : Res :=
  let s := if s.isGm then s.putEth { s.eth with announced := some s.gmAnnounce } else s
  ok (s.each (upto 5) (fun s p =>
    if s.bit .ETH (ETH_P_CFG p) 29 && s.portLive p && s.bit .ETH ETH_STATUS (8 + p) then s.count32 .ETH (ETH_P_TX p) else s))

/-- PEER_DELAY (R406): three good measurements in a row at 800 ns or less make a port asCapable; any other undoes it. -/
def execPeerDelay (p : Fin 5) (d : Option Nat) (s : State) : Res :=
  if s.bit .ETH (ETH_P_CFG p.val) 29 && s.portLive p.val then
    let s := match d with | some v => s.setF .ETH (ETH_P_STATUS p.val) 31 16 (min 65535 v) | none => s
    let good := match d with | some v => decide (v ≤ 800) | none => false
    let n := if good then min 3 (s.eth.good.get 0 p.val + 1) else 0
    let s := s.putEth { s.eth with good := s.eth.good.set 0 p.val n }
    ok (s.setCapable p.val (decide (3 ≤ n)))
  else ok s

/-- FDB_FLUSH (R403): the dynamic entries learned on the named ports, or on all. -/
def execFdbFlush (s : State) : Res :=
  ok (s.command .ETH 1 fun args s =>
    let m := fld (arg args 0) 5 0
    done (s.putEth { s.eth with fdb := s.eth.fdb.filter (fun e => !(m == 0 || m.testBit e.port)) }).fdbShow .ok)

/-- PORT_RESTART (R402): retrains a port's link; a port that does not exist has no partner. -/
def execPortRestart (s : State) : Res :=
  ok (s.command .ETH 2 fun args s =>
    let p := fld (arg args 0) 2 0
    if p < 5 then (s.linkSet p false, none) else done s .aborted)

/-- CLEAR_COUNTS of ETH. -/
def execEthClearCounts (s : State) : Res :=
  ok (s.command .ETH 3 fun args s =>
    let s := s.each (bitsOf (fld (arg args 0) 4 0) 5) (fun s p =>
      (((s.wrN .ETH (ETH_P_RX p) 0).wrN .ETH (ETH_P_TX p) 0).wrN .ETH (ETH_P_DROPS p) 0).wrN .ETH (ETH_P_LINKDOWN p) 0)
    done (s.each (upto 4) (fun s q => s.wrN .ETH (ETH_RX_DROPS q) 0)) .ok)

end Sys2Proof.Machine
end

