-- ==== Sys2Proof/Machine/Gnss.lean ====
section
/-! DEFINITION. The GNSS baseband: acquisition, tracking channels, measurements, navigation data, antennas and the inertial
sensor (GNS, R213–R228). -/

namespace Sys2Proof.Machine

/-- A DRAM base from its LO and HI registers, aligned to 2^`k`. -/
def State.gnsBase (s : State) (lo hi k : Nat) : Nat := s.f .GNS hi 7 0 * 2 ^ 32 + s.rdN .GNS lo / 2 ^ k * 2 ^ k

/-- A signal code of Table 9-2. -/
def sigKnown (c : Nat) : Bool := decide (1 ≤ c) && decide (c ≤ 0x12)

/-- A GLONASS signal. -/
def sigGlonass (c : Nat) : Bool := c == 0x0C || c == 0x0D

/-- The band group of a signal (Table 9-2). -/
def sigGroup (c : Nat) : Nat :=
  if c ∈ [3, 0x0B, 0x0D, 0x10] then 2 else if c ∈ [4, 6, 7, 0x0A, 0x11] then 3 else 1

/-- The carrier of a signal in Hz; GLONASS by its frequency number + 7. -/
def sigCarrier (c glo : Nat) : Nat :=
  match c with
  | 3 => 1227600000 | 0x10 => 1227600000
  | 4 => 1176450000 | 6 => 1176450000 | 0x0A => 1176450000 | 0x11 => 1176450000
  | 7 => 1207140000 | 8 => 1561098000 | 0x0B => 1268520000
  | 0x0C => 1602000000 + glo * 562500 - 7 * 562500
  | 0x0D => 1246000000 + glo * 437500 - 7 * 437500
  | _ => 1575420000

/-- A signal with a pilot component, which taps 0–2 follow (PRESUMED: the interface specifications, assumption log 44). -/
def sigPilot (c : Nat) : Bool := decide (c ∈ [2, 3, 4, 5, 6, 7, 9, 0x0A, 0x0F, 0x10, 0x11])

/-! ## Acquisition (R216) -/

/-- The size of the acquisition ring, 2^4–2^10. -/
def State.acqSize (s : State) : Nat := 2 ^ clampN 4 10 (s.f .GNS GNS_ACQ_CFG 3 0)

/-- Jobs that wait: HEAD beyond the ring is taken as TAIL plus its size. -/
def State.acqHeld (s : State) : Nat :=
  min s.acqSize ((s.f .GNS GNS_ACQ_HEAD 15 0 + 65536 - s.f .GNS GNS_ACQ_TAIL 15 0) % 65536)

/-- Where the job at TAIL lies. -/
def State.acqAddr (s : State) : Nat :=
  s.gnsBase GNS_ACQ_BASE_LO GNS_ACQ_BASE_HI 5 + 32 * (s.f .GNS GNS_ACQ_TAIL 15 0 % s.acqSize)

/-- The next job starts when none runs and EN is 1: RESULT reads 0xFF. -/
def State.acqKick (s : State) : State :=
  if s.gns.acq.isNone && s.bit .GNS GNS_ACQ_CFG 8 && decide (0 < s.acqHeld) then
    (s.engLE (s.acqAddr + 27) 1 0xFF).putGns { s.gns with acq := some s.acqAddr }
  else s

/-- ACQ_HEAD_WRITE (R216). -/
def execAcqHeadWrite (v : Word) (s : State) : Res := ok (s.wrN .GNS GNS_ACQ_HEAD (fld v 15 0)).acqKick

/-- A job's fields stand within Table 9-3. -/
def acqOk (j : List Byte) : Bool :=
  let b := fun i => (j.getD i 0).toNat
  let dop := b 6 + 256 * b 7
  sigKnown (b 0) && decide (1 ≤ b 4) && decide (b 4 ≤ 10) && Config.cohFits true (b 0) (b 4) && decide (1 ≤ b 5) &&
    decide (b 5 ≤ 64) && decide (1 ≤ dop) && decide (dop ≤ 1024) && b 2 / 4 % 4 == 0 &&
    (!sigGlonass (b 0) || (decide (b 3 ≤ 13) && decide (1 ≤ b 1) && decide (b 1 ≤ 24)))

/-- The running job ends with a result, its record written, and the next one starts. -/
def State.acqEnd (s : State) (r : Result) (found : Bool) : State :=
  let a := s.gns.acq.getD s.acqAddr
  let sig := ((s.rdB (a + 2)).toNat).testBit 1
  let s := ((s.engLE (a + 26) 1 (b2n found)).engLE (a + 28) 4 s.now).engLE (a + 27) 1 r.code
  let s := s.putGns { s.gns with acq := none }
  let s := s.wrN .GNS GNS_ACQ_TAIL ((s.f .GNS GNS_ACQ_TAIL 15 0 + 1) % 65536)
  if sig || found then s.event .GNS 0 else s

/-- ACQ_DONE (R216): the job's peak; FOUND when its ratio reaches THRESH. -/
def execAcqDone (code dop ratio : BitVec 16) (s : State) : Res :=
  match s.gns.acq with
  | none => ok s
  | some a =>
    if acqOk (s.rdBytes a 32) then
      let s := ((s.engLE (a + 20) 2 code.toNat).engLE (a + 22) 2 dop.toNat).engLE (a + 24) 2 ratio.toNat
      ok (s.acqEnd .ok (decide (s.f .GNS GNS_ACQ_CFG 31 16 ≤ ratio.toNat))).acqKick
    else ok (s.acqEnd .badHeader false).acqKick

/-! ## Tracking channels (R217, R218) -/

/-- A channel's record. -/
def State.gc (s : State) (c : Nat) : GnsCh := s.gns.ch.get {} c

/-- The channel table entry of channel `c`. -/
def State.chtAddr (s : State) (c : Nat) : Nat := s.gnsBase GNS_CHT_BASE_LO GNS_CHT_BASE_HI 6 + 32 * c

/-- Bytes 20–27 of a channel's entry, written as two aligned words. -/
def State.gcWrite (s : State) (c : Nat) : State :=
  let x := s.gc c
  (s.engLE (s.chtAddr c + 20) 4 (x.state + x.reason * 256 + x.cn0 * 65536)).engLE (s.chtAddr c + 24) 4 x.lock

/-- The channels in TRACK. -/
def State.tracking (s : State) : List Nat := (upto 512).filter (fun c => (s.gc c).state == 2)

/-- A channel's record set; GNS_CH_TRACK, the number in TRACK and the table entry follow. -/
def State.gcSet (s : State) (c : Nat) (x : GnsCh) : State :=
  let s := s.putGns { s.gns with ch := s.gns.ch.set {} c x }
  let s := s.setBit .GNS (GNS_CH_TRACK (c / 32)) (c % 32) (x.state == 2)
  (s.setF .GNS GNS_STATUS 9 0 s.tracking.length).gcWrite c

/-- A used entry's fields stand within Table 9-4. -/
def entryOk (e : List Byte) : Bool :=
  let b := fun i => (e.getD i 0).toNat
  let dll := b 14 + 256 * b 15
  decide (b 2 < 4) && b 28 == 0 && b 29 == 0 && b 30 == 0 && b 31 == 0 && sigKnown (b 0) && decide (1 ≤ b 12) && decide (b 12 ≤ if sigPilot (b 0) then 100 else 20) &&
    Config.cohFits false (b 0) (b 12) && decide (1 ≤ b 13) && decide (b 13 ≤ 50) && decide (1 ≤ dll) && decide (dll ≤ 500) &&
    (!sigGlonass (b 0) || (decide (b 3 ≤ 13) && decide (1 ≤ b 1) && decide (b 1 ≤ 24)))

/-- The channels that CH_START and CH_STOP name; none for a range beyond GC511. -/
def chRange (a : List Word) : Option (List Nat) :=
  let first := (arg a 0).toNat
  let n := (arg a 1).toNat
  if n = 0 ∨ 512 < n ∨ 512 < first + n then none else some ((upto n).map (fun i => first + i))

/-- CH_START (R217). -/
def execChStart (s : State) : Res :=
  ok (s.command .GNS 1 fun a s =>
    match chRange a with
    | none => refuse s .badHeader
    | some cs =>
      let es := cs.map (fun c => (c, s.rdBytes (s.chtAddr c) 32))
      let used := es.filter (fun (p : Nat × List Byte) => p.2.headD 0 != 0)
      if used.any (fun (p : Nat × List Byte) => !entryOk p.2) then refuse s .badHeader
      else
        let go := used.filter (fun (p : Nat × List Byte) => (s.gc p.1).state == 0 || (s.gc p.1).state == 3)
        done (s.each go (fun s (p : Nat × List Byte) => s.gcSet p.1 { state := 1, entry := p.2.take 20 })) .ok)

/-- CH_STOP (R217): channels return to IDLE. -/
def execChStop (s : State) : Res :=
  ok (s.command .GNS 2 fun a s =>
    match chRange a with
    | none => refuse s .badHeader
    | some cs => done (s.each cs (fun s c => if (s.gc c).state = 0 then s else s.gcSet c {})) .ok)

/-- CH_TRACK (R217): a channel in PULL_IN reaches TRACK. -/
def execChTrack (c : Fin 512) (cn0 : BitVec 16) (s : State) : Res :=
  if (s.gc c.val).state = 1 then
    ok (s.gcSet c.val { s.gc c.val with state := 2, reason := 0, cn0 := cn0.toNat, lock := 0 })
  else ok s

/-- A byte of a channel's entry. -/
def GnsCh.byte (x : GnsCh) (i : Nat) : Nat := (x.entry.getD i 0).toNat
/-- The antenna of a channel. -/
def GnsCh.ant (x : GnsCh) : Nat := x.byte 2 % 2

/-- The band-group island of a channel (Table 9-1). -/
def GnsCh.island (x : GnsCh) : Nat := 16 + sigGroup (x.byte 0) + 3 * x.ant

/-- The condition of a REASON holds for a channel (R218): 1 the lock indicator in TRACK, 2 its island not in RUN, 3 a pull-in
timeout, 4 its antenna OVER. -/
def State.lostWhy (s : State) (x : GnsCh) (why : Nat) : Bool :=
  match why with
  | 1 => x.state == 2
  | 2 => s.islState x.island != 2
  | 3 => x.state == 1
  | _ => s.f .GNS (GNS_ANT_STATUS x.ant) 9 8 == 3

/-- CH_LOST (R218). -/
def execChLost (c : Fin 512) (why : Fin 4) (s : State) : Res :=
  let x := s.gc c.val
  if (x.state = 1 ∨ x.state = 2) ∧ s.lostWhy x (why.val + 1) = true then
    let s := s.gcSet c.val { x with state := 3, reason := why.val + 1 }
    ok ((s.setBit .GNS (GNS_CH_LOSS (c.val / 32)) (c.val % 32) true).event .GNS 5)
  else ok s

/-! ## Measurements (R215, R220) -/

/-- The delay of an antenna in 0.1 ns, at most 50,000. -/
def State.antDelay (s : State) (a : Nat) : Nat := min 50000 (s.f .GNS (GNS_ANT_CFG a) 15 0)

/-- A binary64 value less `d` × `k` / 10^10: the delay of `d` × 0.1 ns times the rate `k` (R215). -/
def lessDelay (x : Dword) (d k : Nat) : Nat :=
  match fmt64.raw x.toNat with
  | .fin sg m e =>
    let y := exactSum sg (m * 10 ^ 10) e true (d * k) 0
    if y.1 = 0 then fmt64.zero false else (fmt64.divV .even (.fin (decide (y.1 < 0)) y.1.natAbs y.2) (.fin false (10 ^ 10) 0)).bits
  | .zero _ => if d * k = 0 then x.toNat else (fmt64.divV .even (.fin true (d * k) 0) (.fin false (10 ^ 10) 0)).bits
  | _ => x.toNat

/-- A measurement record (Table 9-6) of channel `c`, whose antenna's delay changed or not since the last epoch. -/
def obsRecord (c : Nat) (x : GnsCh) (o : GnsObs) (d : Nat) (moved : Bool) : List Byte :=
  let flags := x.ant + 2 * b2n o.half + 4 * b2n (o.slip || moved) + 8 * b2n (sigPilot (x.byte 0)) +
    16 * b2n ((x.byte 2).testBit 1) + 32 * b2n o.prOk + 64 * b2n o.cpOk
  leBytes 2 c ++ leBytes 1 (x.byte 0) ++ leBytes 1 (x.byte 1) ++ leBytes 1 flags ++ leBytes 1 (x.byte 3) ++
    leBytes 2 o.cn0.toNat ++ leBytes 8 (lessDelay o.pr d 299792458) ++
    leBytes 8 (lessDelay o.cp d (sigCarrier (x.byte 0) (x.byte 3))) ++ leBytes 4 o.dop.toNat ++ leBytes 4 o.lock.toNat

/-- Nanoseconds between epochs. -/
def State.measPeriod (s : State) : Nat :=
  match s.f .GNS GNS_CFG 2 0 with
  | 0 => sec | 1 => sec / 2 | 2 => sec / 5 | 3 => sec / 10 | _ => sec / 20

/-- A channel's C/N0 and LOCK_MS after an epoch. -/
def State.gcObs (s : State) (c : Nat) (o : GnsObs) : State :=
  s.gcSet c { s.gc c with cn0 := o.cn0.toNat, lock := o.lock.toNat }

/-- The observation given for a channel. -/
def obsOf (obs : List GnsObs) (c : Nat) : Option GnsObs := obs.find? (fun o => o.ch.val == c)

/-- An observation of a channel that the row gives none for: what is measured is a free value. -/
def obsFree (c : Fin 512) (x : Nat) : GnsObs :=
  { ch := c, half := x.testBit 0, slip := x.testBit 1, prOk := x.testBit 2, cpOk := x.testBit 3
    cn0 := BitVec.ofNat 16 (x / 16), pr := BitVec.ofNat 64 (x / 2 ^ 20), cp := BitVec.ofNat 64 (x / 2 ^ 84)
    dop := wordN (x / 2 ^ 148), lock := wordN (x / 2 ^ 180) }

/-- Every channel in TRACK with its observation (R220). -/
def State.latched (s : State) (obs : List GnsObs) : State × List (Nat × GnsObs) :=
  s.tracking.foldl (fun (r : State × List (Nat × GnsObs)) c =>
    match obsOf obs c with
    | some o => (r.1, r.2 ++ [(c, o)])
    | none => (r.1.drawn, r.2 ++ [(c, obsFree (Fin.ofNat 512 c) (r.1.freeNat (2 ^ 212)))])) (s, [])

/-- Time passes to the epoch whose block is due: the present one within 5 ms of it, else the next (R220). -/
def State.toEpoch (s : State) : State :=
  let p := s.measPeriod
  let t := s.now - s.now % p
  if s.gns.lastEpoch ≠ some t ∧ s.now - t ≤ 5000000 then s else s.passTo (t + p)

/-- MEAS (R220): every channel in TRACK is latched at the epoch and written as one block; bytes 20–27 of every running channel's
entry are written (R217). -/
def execGnsMeas (obs : List GnsObs) (s : State) : Res :=
  let s := s.toEpoch
  let k := s.gns.epochs
  let t := s.now - s.now % s.measPeriod
  let d := (s.antDelay 0, s.antDelay 1)
  let l := s.latched obs
  let s := l.1
  let ls := l.2
  let recs := ls.flatMap (fun (p : Nat × GnsObs) =>
    let x := s.gc p.1
    let now := if x.ant = 0 then d.1 else d.2
    let old := if x.ant = 0 then s.gns.delay.1 else s.gns.delay.2
    obsRecord p.1 x p.2 now (now != old))
  let a := s.gnsBase GNS_MEAS_BASE_LO GNS_MEAS_BASE_HI 15 + 0x8000 * (k % 2 ^ clampN 1 4 (s.f .GNS GNS_MEAS_CFG 3 0))
  let head := leBytes 4 0 ++ leBytes 8 t ++ leBytes 2 ls.length ++ leBytes 1 s.timState ++ leBytes 1 0 ++
    leBytes 4 s.timAcc ++ leBytes 8 0
  let s := s.engLE a 4 0xFFFFFFFF
  let s := (s.engStore (a + 4) (head ++ recs)).engLE a 4 k
  let s := s.putGns { s.gns with epochs := (k + 1) % 2 ^ 32, delay := d, lastEpoch := some t }
  let s := s.each ls (fun s (p : Nat × GnsObs) => s.gcObs p.1 p.2)
  let s := s.each ((upto 512).filter (fun c => (s.gc c).state == 1)) State.gcWrite
  ok ((s.wrN .GNS GNS_MEAS_NO k).event .GNS 1)

/-! ## Navigation data (R213, R221) -/

/-- KIND, CHECK, FEC, BITS and the BITS of the longer subframe of a signal's data units (Tables 9-2 and 9-7; FEC
PRESUMED from the interface specifications, assumption log 44). -/
def navKind (c : Nat) : Nat × Nat × Nat × Nat × Nat :=
  if c = 1 ∨ c = 0x0E then (1, 1, 0, 30, 30)
  else if c ∈ [3, 4, 0x10, 0x11] then (2, 2, 1, 300, 300)
  else if c = 2 ∨ c = 0x0F then (3, 2, 2, 274, 600)
  else if c = 5 ∨ c = 7 then (4, 2, 1, 240, 240)
  else if c = 6 then (5, 2, 1, 244, 244)
  else if c = 8 ∨ c = 0x0B then (6, 3, 0, 30, 30)
  else if c = 9 then (7, 2, 2, 264, 600)
  else if c = 0x0A then (8, 2, 2, 288, 288)
  else if sigGlonass c then (9, 4, 0, 85, 85)
  else (10, 2, 1, 250, 250)

/-- NAVBIT (R213, R221): a unit of a channel in TRACK is decoded and checked; CORRECTED applies to BCH words and Hamming strings
only. -/
def execNavbit (c : Fin 512) (long : Bool) (t : Nat) (before raw : List Byte) (s : State) : Res :=
  let x := s.gc c.val
  if x.state ≠ 2 then ok s
  else
    let n := s.gns.navs
    let (kind, check, fec, bits, bits') := navKind (x.byte 0)
    let data := Config.navDecode (x.byte 0) long before raw
    let res := Config.navCheck (x.byte 0) long before raw % 3
    let r := if res = 1 ∧ check ≤ 2 then 0 else res
    let a := s.gnsBase GNS_NAV_BASE_LO GNS_NAV_BASE_HI 7 + 128 * (n % 2 ^ clampN 6 14 (s.f .GNS GNS_NAV_CFG 3 0))
    let body := leBytes 2 c.val ++ leBytes 1 (x.byte 0) ++ leBytes 1 (x.byte 1) ++ leBytes 1 kind ++ leBytes 1 check ++
      leBytes 1 r ++ leBytes 1 fec ++ leBytes 2 (if long then bits' else bits) ++ leBytes 2 0 ++ leBytes 8 t ++
      (data ++ List.replicate 104 0).take 104
    let s := s.engLE a 4 0xFFFFFFFF
    let s := (s.engStore (a + 4) body).engLE a 4 n
    let s := s.putGns { s.gns with navs := (n + 1) % 2 ^ 32 }
    ok ((s.wrN .GNS GNS_NAV_SEQ n).event .GNS 2)

/-! ## Antennas and the inertial sensor (R214, R226) -/

/-- The state that a bias current gives: 0 OFF, 1 OPEN, 2 OK, 3 OVER; a power-loss sequence holds the bias off (R42). -/
def State.antCond (s : State) (a ma : Nat) : Nat :=
  if !s.bit .GNS (GNS_ANT_CFG a) 31 || s.pwr.phase == .loss then 0 else if ma < 3 then 1 else if 100 < ma then 3 else 2

/-- An antenna's bias current and state; a change counts and raises ANT. -/
def State.antSet (s : State) (a ma : Nat) : State :=
  let st := s.antCond a ma
  let o := GNS_ANT_STATUS a
  let old := s.f .GNS o 9 8
  let s := (s.setF .GNS o 7 0 (min 255 (if st = 0 then 0 else ma))).setF .GNS o 9 8 st
  if st = old then s else (s.incF .GNS o 31 16 1).event .GNS 4

/-- ANT (R214): an OVER antenna's bias is off until its retry. -/
def execGnsAnt (a : Fin 2) (ma : Nat) (s : State) : Res :=
  if s.f .GNS (GNS_ANT_STATUS a.val) 9 8 = 3 ∧ s.bit .GNS (GNS_ANT_CFG a.val) 31 = true then ok s else ok (s.antSet a.val ma)

/-- ANT_BIAS_RETRY (R214). -/
def execAntBiasRetry (a : Fin 2) (ma : Nat) (s : State) : Res :=
  if s.f .GNS (GNS_ANT_STATUS a.val) 9 8 = 3 then ok (s.antSet a.val ma) else ok s

/-- A write of GNS_ANT[a]_CFG that clears BIAS_EN takes the antenna to OFF. -/
def State.antSwitch (s : State) (a : Nat) : State :=
  if s.bit .GNS (GNS_ANT_CFG a) 31 then s else s.antSet a 0

/-- IMU_RECORD (R226): a record of the sample's time and six binary32 words. -/
def execImuRecord (t : Nat) (rec : List Word) (s : State) : Res :=
  if !s.bit .GNS GNS_CFG 16 then ok s
  else
    let n := s.rdN .GNS GNS_IMU_HEAD
    let a := s.gnsBase GNS_IMU_BASE_LO GNS_IMU_BASE_HI 5 + 32 * (n % 2 ^ clampN 6 14 (s.f .GNS GNS_IMU_CFG 3 0))
    let s := s.engStore a (leBytes 8 t ++ (upto 6).flatMap (fun i => leBytes 4 (rec.getD i 0).toNat))
    ok (s.wrN .GNS GNS_IMU_HEAD (n + 1))

/-! ## Starting the receiver, commands and resets (R227) -/

/-- The firmware starts: warm with a committed image in MRAM, a time state and an image less than 4 h old, else cold (R227). -/
def State.fwStart (s : State) : State :=
  let warm := match s.nv.eph with
    | some (_, t) => s.mramOk && decide (1 ≤ s.timState) && decide (s.now < t + 14400 * sec)
    | none => false
  s.putGns { s.gns with fw := if warm then 1 else 2 }

/-- Every channel to IDLE and every acquisition job ABORTED. -/
def State.gnsStopAll (s : State) : State :=
  let s := s.each ((upto 512).filter (fun c => (s.gc c).state != 0)) (fun s c => s.gcSet c {})
  s.each (upto s.acqHeld) (fun s _ => s.acqEnd .aborted false)

/-- COLD_START (R227, Table 9-13). -/
def execColdStart (s : State) : Res :=
  ok (s.command .GNS 3 fun _ s =>
    if s.mode ≠ 1 ∧ s.mode ≠ 5 then refuse s .refusedMode
    else
      let s := (s.putNv { s.nv with eph := none }).gnsStopAll
      done (s.putGns { s.gns with fw := 2 }) .ok)

/-- CLEAR_COUNTS (Table 9-13). -/
def execGnsClearCounts (s : State) : Res :=
  ok (s.command .GNS 4 fun _ s =>
    let s := s.setF .GNS GNS_STATUS 31 16 0
    let s := (s.setF .GNS (GNS_ANT_STATUS 0) 31 16 0).setF .GNS (GNS_ANT_STATUS 1) 31 16 0
    done (s.each (upto 16) (fun s i => s.wrN .GNS (GNS_CH_LOSS i) 0)) .ok)

/-- GNSS RF and antenna bias stop at the power-loss declaration (R42). -/
def State.gnsOff (s : State) : State := s.gnsStopAll.each (upto 2) (fun s a => s.antSet a 0)

/-- GNS at a core reset: channels, jobs and ring positions are gone. -/
def State.gnsCoreReset (s : State) : State := (s.resetWindow .GNS (fun _ => false)).putGns {}

/-- The time record and the ephemeris image go to MRAM, the image with its time (R227); EPH_LEN 0 stores no image and leaves the one
held. -/
def State.ephStore (s : State) : State :=
  let n := min 65536 (s.f .GNS GNS_EPH_LEN 16 0)
  let s := s.putNv { s.nv with time := some (s.now, s.timState) }
  if n = 0 then s else s.putNv { s.nv with eph := some (s.rdBytes (s.gnsBase GNS_EPH_BASE_LO GNS_EPH_BASE_HI 6) n, s.now) }

end Sys2Proof.Machine
end

