-- ==== Sys2Proof/Machine/Housekeeping.lean ====
section
/-! DEFINITION. Housekeeping (HKP): the round of 64 channels, threshold states and the HKP commands (R452–R454). -/

namespace Sys2Proof.Machine

/-- Channels whose HIGH_SHUT is a thermal shutdown and no held state: the core sites 16–23, and 30 and 31 (Table 19-4). -/
def shutChannel (k : Nat) : Bool := (decide (16 ≤ k) && decide (k ≤ 23)) || k == 30 || k == 31

/-- HKP_STATUS[8]: some channel with INHIBIT_EN is in LOW_INHIBIT (R453). -/
def State.hkpInhibit (s : State) : Bool :=
  (upto 64).any (fun k => s.bit .HKP (HKP_CH_CFG k) 30 && s.bit .HKP (HKP_CH_CFG k) 26)

/-- A threshold state of channel `k` (a bit of HKP_CH_CFG) takes a value; a change raises THRESH and names the channel in
HKP_STATUS (R453). -/
def State.hkpState (s : State) (k bit : Nat) (v : Bool) : State :=
  if s.bit .HKP (HKP_CH_CFG k) bit = v then s
  else ((s.setBit .HKP (HKP_CH_CFG k) bit v).setF .HKP HKP_STATUS 5 0 k).event .HKP 0

/-- The value of a state after a reading: set at the threshold, cleared HYST beyond it, else held. -/
def hystHigh (held : Bool) (v thr hyst : Int) : Bool :=
  if thr ≤ v then true else if v < thr - hyst then false else held

/-- As `hystHigh`, for a low threshold. -/
def hystLow (held : Bool) (v thr hyst : Int) : Bool :=
  if v ≤ thr then true else if thr + hyst < v then false else held

/-- Evaluate the four thresholds of channel `k` on a reading; each acts only while its enable is set (R453, Table 19-4). -/
def State.hkpEval (s : State) (k : Nat) (v : Int) : State :=
  let c := s.rd .HKP (HKP_CH_CFG k)
  let hi := s.rd .HKP (HKP_CH_HI k)
  let lo := s.rd .HKP (HKP_CH_LO k)
  let h : Int := fld c 15 0
  let s := if bitOf c 29 then
      (s.hkpState k 28 (hystHigh (bitOf c 28) v (sfld hi 15 0) h)).hkpState k 27 (hystLow (bitOf c 27) v (sfld lo 15 0) h)
    else s
  let s := if bitOf c 30 then s.hkpState k 26 (hystLow (bitOf c 26) v (sfld lo 31 16) h) else s
  if bitOf c 31 && !shutChannel k then s.hkpState k 25 (hystHigh (bitOf c 25) v (sfld hi 31 16) h) else s

/-- INHIBIT in HKP_STATUS follows the channels. -/
def State.hkpShow (s : State) : State := s.setBit .HKP HKP_STATUS 8 s.hkpInhibit

/-- Publish one reading: an open or shorted sensor is not valid and holds its states; a value saturates at ±32,767 (R452). -/
def State.hkpPublish (s : State) (k : Nat) (r : Option Int) : State :=
  match r with
  | none => s.setBit .HKP (HKP_CH_VALUE k) 31 false
  | some v =>
    let v := clampI (-32767) 32767 v
    (s.wrN .HKP (HKP_CH_VALUE k) (0x80000000 + ofSigned 16 v)).hkpEval k v

/-- One housekeeping round over channels 0–57; 58–63 are reserved and never valid (R452). -/
def State.hkpRound (s : State) (readings : List (Option Int)) : State :=
  let s := s.each (upto 58) (fun s k => s.hkpPublish k (readings.getD k none))
  let s := (s.putPwr { s.pwr with round := some s.clk.up }).burShow
  (s.incF .HKP HKP_STATUS 31 16 1).hkpShow

/-- A write of HKP_CH[k]_CFG: clearing an enable clears the held states that it enables, each with THRESH (R453). -/
def State.hkpCfg (s : State) (k : Nat) (v : Word) : State :=
  if !s.open .HKP then s
  else
    let en := if 16 ≤ k ∧ k ≤ 23 then putBit v 31 true else v
    let old := s.rd .HKP (HKP_CH_CFG k)
    let s := s.wr .HKP (HKP_CH_CFG k) ((old &&& 0x1F000000) ||| (en &&& 0xE000FFFF))
    let s := if bitOf en 29 then s else (s.hkpState k 28 false).hkpState k 27 false
    let s := if bitOf en 30 then s else s.hkpState k 26 false
    let s := if bitOf en 31 then s else s.hkpState k 25 false
    s.hkpShow

/-- HKP_CFG_WRITE (R453). -/
def execHkpCfgWrite (k : Fin 64) (v : Word) (s : State) : Res := ok (s.hkpCfg k.val v)

/-- ROUND_NOW (Table 19-9): starts a round at once; it ends OK with the round. -/
def execRoundNow (s : State) : Res := ok (s.command .HKP 1 fun _ s => (s, none))

/-- CLEAR_STATES (Table 19-9): clears the held states of the masked channels, with THRESH for each state cleared. -/
def execClearStates (s : State) : Res :=
  ok (s.command .HKP 2 fun a s =>
    let ks := bitsOf (arg a 0).toNat 32 ++ (bitsOf (arg a 1).toNat 32).map (· + 32)
    let s := s.each ks (fun s k => (((s.hkpState k 28 false).hkpState k 27 false).hkpState k 26 false).hkpState k 25 false)
    done s.hkpShow .ok)

end Sys2Proof.Machine
end

