-- ==== Sys2Proof/Machine/Load.lean ====
section
/-! DEFINITION. The protected load switches (LSW): turn-on and turn-off, latches, feed pauses, clamp energy and LOCK, supply
conditions, diagnostics, hold and claim (R328–R342, R475). -/

namespace Sys2Proof.Machine

/-- A bit of LSW_CH[n]_STATUS. -/
def State.lswBit (s : State) (n i : Nat) : Bool := s.bit .LSW (LSW_CH_STATUS n) i

/-- Set a bit of LSW_CH[n]_STATUS. -/
def State.lswSet (s : State) (n i : Nat) (v : Bool) : State := s.setBit .LSW (LSW_CH_STATUS n) i v

/-- Class K: the keep-alive channels L32–L39 (Table 13-1). -/
def classK (n : Nat) : Bool := decide (32 ≤ n)

/-- The feed of a channel: 0 LF1, 1 LF2 (Table 13-1). -/
def feedOf (n : Nat) : Nat := if n < 16 then 0 else if n < 32 then 1 else if n < 36 then 0 else 1

/-- The channel numbers. -/
def lswAll : List Nat := upto 40

/-- A bit of a register pair that holds one bit per channel (LSW_CLAIMED, LSW_HELD). -/
def State.lswMaskBit (s : State) (lo n : Nat) : Bool := s.bit .LSW (lo + 4 * (n / 32)) (n % 32)

/-- A load channel's state beside its registers. -/
def State.lch (s : State) (n : Nat) : LswCh := s.lsw.ch.get {} n

/-- Change a load channel's state. -/
def State.lchMod (s : State) (n : Nat) (f : LswCh → LswCh) : State :=
  s.putLsw { s.lsw with ch := s.lsw.ch.set {} n (f (s.lch n)) }

/-- Set a bit of such a pair. -/
def State.lswMaskSet (s : State) (lo n : Nat) (v : Bool) : State := s.setBit .LSW (lo + 4 * (n / 32)) (n % 32) v

/-- Channel `n` is claimed. -/
def State.lswClaimed (s : State) (n : Nat) : Bool := s.lswMaskBit LSW_CLAIMED_LO n

/-- HELD of a channel, in LSW_HELD and in its STATUS. -/
def State.lswSetHeld (s : State) (n : Nat) (v : Bool) : State :=
  (s.lswMaskSet LSW_HELD_LO n v).lswSet n 23 v

/-- Channels latched or in LOCK, counted in LSW_STATUS. -/
def State.lswShow (s : State) : State :=
  let s := s.setF .LSW LSW_STATUS 15 8 (lswAll.filter (fun n => s.lswBit n 20 || s.lswBit n 21)).length
  s.setF .LSW LSW_STATUS 23 16 (lswAll.filter (fun n => s.lswBit n 22)).length

/-- The supply conditions in force keep channel `n` open: ground loss, a reversed feed or one above 58 V open every channel;
a feed below 4.5 V opens class L only (Table 13-3). -/
def State.lswSupplyOpen (s : State) (n : Nat) : Bool :=
  let c := s.lsw.feed.get {} (feedOf n)
  s.lsw.gnd || c.reverse || c.above || (c.below && !classK n)

/-- OUT_ON changes, with SWITCHED. -/
def State.lswOut (s : State) (n : Nat) (v : Bool) : State :=
  if s.lswBit n 0 = v then s else (s.lswSet n 0 v).lswEvent n 0

/-! ## Clamp energy and LOCK (R335) -/

/-- The number of the present bin of 156.25 ms; the numbers below 64 are those of bins restored from before power-on (R337). -/
def State.lswBin (s : State) : Nat := s.clk.up / 156250000 + 64

/-- The clamp energy of the sliding window of 10 s: the 64 bins that end with the present one. -/
def State.lswSum (s : State) (n : Nat) : Nat :=
  (((s.lch n).bins.cells.filter (fun c => s.lswBin < c.1 + 64)).map (fun c => c.2)).sum

/-- The bins of a channel with the energy of a clamp event entered in the present one. -/
def State.lswBinned (s : State) (n energy : Nat) : SMap Nat :=
  let old := (s.lch n).bins.keep (fun k => decide (s.lswBin < k + 64))
  old.set 0 s.lswBin (old.get 0 s.lswBin + energy)

/-- CLAMP_STATE shows the window's sum, as it stands now, and the last event's energy (Table 13-5, R336). -/
def clampStateVal (sum energy : Nat) : Word := setFld (wordN (clampN 0 65535 energy)) 31 16 (clampN 0 65535 sum)

/-- The cooling time left, in ns (R335). -/
def State.coolLeft (s : State) (n : Nat) : Nat := (s.lch n).coolTo - s.clk.up

/-- The cooling time left as COOL shows it: begun seconds count whole (DESIGN CHOICE, assumption log 160). -/
def State.coolShown (s : State) (n : Nat) : Nat := (s.coolLeft n + 999999999) / 1000000000

/-- The channel enters LOCK: commanded OFF, cooling, LOCKED (R335). -/
def State.lswLock (s : State) (n : Nat) : State :=
  let s := (s.lswSet n 22 true).lswSet n 1 false
  let cool := s.f .LSW (LSW_CH_CLAMP_CFG n) 31 16 * 1000000000
  let s := s.lchMod n (fun c => { c with coolTo := s.clk.up + cool })
  let s := s.incF .LSW (LSW_CH_COUNTS n) 23 16 1
  (s.lswEvent n 6).lswShow

/-- The window's sum has reached a programmed BUDGET and the channel is not in LOCK yet. -/
def State.lswOverBudget (s : State) (n : Nat) : Bool :=
  let budget := s.f .LSW (LSW_CH_CLAMP_CFG n) 15 0
  (budget != 0) && decide (budget ≤ s.lswSum n) && !s.lswBit n 22

/-- A clamp event enters the window and shows in CLAMP_STATE. -/
def State.lswClampAdd (s : State) (n energy : Nat) : State :=
  let bins := s.lswBinned n energy
  let s := s.lchMod n (fun c => { c with bins := bins })
  s.wr .LSW (LSW_CH_CLAMP_STATE n) (clampStateVal (s.lswSum n) energy)

/-- A turn-off releases clamp energy (0: no clamp event): it enters the window, and a sum that reaches BUDGET locks the
channel off at the end of the event (R335, R475). -/
def State.lswClamp (s : State) (n energy : Nat) : State :=
  if energy = 0 then s
  else
    let s := s.lswClampAdd n energy
    if s.lswOverBudget n then s.lswLock n else s

/-- The output turns off: the slew phase, blanking and pause end with it, and the load's energy is clamped (R329, R335). -/
def State.lswOff (s : State) (n energy : Nat) : State :=
  let was := s.lswBit n 0
  let s := ((s.lswSet n 27 false).lswSet n 26 false).lswSet n 25 false
  let s := s.lswOut n false
  if was then s.lswClamp n energy else s

/-- A turn-off that the module itself decides: the energy that the load returns is the load's, a free value. -/
def State.lswOffFree (s : State) (n : Nat) : State := (s.lswOff n (s.freeNat 16000)).drawn

/-- The output turns on: its slew phase and blanking start, paused where its feed is paused (R329, R332). -/
def State.lswOn (s : State) (n : Nat) : State :=
  let s := (s.lswSet n 26 true).lswSet n 25 (s.f .LSW (LSW_CH_CFG n) 5 0 != 0)
  let s := if s.bit .LSW LSW_STATUS (4 + feedOf n) then
      ((s.lswSet n 27 true).incF .LSW (LSW_CH_COUNTS n) 7 0 1).lswEvent n 8
    else s
  s.lswOut n true

/-- The channel goes to its commanded state ON, unless a supply condition holds it open, which sets FEED_OFF (R338). -/
def State.lswDrive (s : State) (n : Nat) : State :=
  if s.lswSupplyOpen n then
    (if s.lswBit n 19 then s else (s.lswSet n 19 true).lswEvent n 7)
  else s.lswOn n

/-- OC_LATCH, TEMP_LATCH or LOCK is set. -/
def State.lswBarred (s : State) (n : Nat) : Bool := s.lswBit n 20 || s.lswBit n 21 || s.lswBit n 22

/-! ## Commands of SWITCH (R339) -/

/-- The mode bars commands to the channel: Table 7-1 forbids its function, or LIMP holds and it lies outside the LIMP set;
a channel of the LIMP set takes commands in LIMP whatever its MF. -/
def State.lswForbidden (s : State) (n : Nat) : Bool :=
  if s.mode = 6 then !s.sys.cfg.limp.contains n
  else !mfPermitted s.mode (s.f .LSW (LSW_CH_CFG n) 31 27)

/-- The result of a SWITCH value under the order of R339. -/
def State.lswJudge (s : State) (n v : Nat) : Result :=
  if v ≠ 1 ∧ v ≠ 2 then .badHeader
  else if s.lswForbidden n then .refusedMode
  else if !s.lswClaimed n then .locked
  else if v = 1 ∧ s.lswBarred n = true then .locked
  else .ok

/-- A SWITCH command: refused with nothing changed but its count, or taken; an ON to a channel already on and an OFF to one
already off change nothing (R339). -/
def State.lswSwitch (s : State) (n v energy : Nat) : State :=
  let r := s.lswJudge n v
  let s := s.wrN .LSW (LSW_CH_SW_STS n) r.code
  if r ≠ .ok then s.incF .LSW (LSW_CH_COUNTS n) 15 8 1
  else if v = 1 then
    if s.lswBit n 1 then s else ((s.lswSet n 24 false).lswSet n 1 true).lswDrive n
  else
    if s.lswBit n 1 = false ∧ s.lswBit n 0 = false then s
    else (((s.lswSet n 24 false).lswSet n 1 false).lswSet n 19 false).lswOff n energy

/-- An entry action switches the channel as if the module wrote SWITCH; a refusal raises REFUSED (R339). -/
def State.lswEntry (s : State) (n v : Nat) : State :=
  let r := s.lswJudge n v
  let s := (s.lswSwitch n v (s.freeNat 16000)).drawn
  if r ≠ .ok then s.lswEvent n 1 else s

/-- SWITCH_ON (R339). -/
def execSwitchOn (n : Fin 40) (s : State) : Res := ok (s.lswSwitch n.val 1 0)

/-- SWITCH_OFF (R339). -/
def execSwitchOff (n : Fin 40) (energy : Nat) (s : State) : Res := ok (s.lswSwitch n.val 2 energy)

/-- SLEW_END (R329). -/
def execSlewEnd (n : Fin 40) (s : State) : Res :=
  if s.lswBit n.val 26 && !s.lswBit n.val 27 then ok (s.lswSet n.val 26 false) else ok s

/-- BLANKING_END (R329): the time that a channel spends paused is added to its blanking, which never ends in a pause. -/
def execBlankingEnd (n : Fin 40) (s : State) : Res := if s.lswBit n.val 27 then ok s else ok (s.lswSet n.val 25 false)

/-! ## Latches (R330, R331, R475) -/

/-- A latch-off: the latch bit is set, the commanded state becomes OFF and the output turns off. -/
def State.lswLatch (s : State) (n bit event energy : Nat) : State :=
  let s := ((s.lswSet n bit true).lswSet n 1 false).incF .LSW (LSW_CH_COUNTS n) 31 24 1
  let s := s.lswOff n energy
  (s.lswEvent n event).lswShow

/-- OC_LATCH (R330): the current of a conducting channel exceeds OC_TH, or INRUSH_TH while it is blanking. -/
def execOcLatch (n : Fin 40) (current energy : Nat) (s : State) : Res :=
  let l := LSW_CH_LIMIT n.val
  let th := if s.lswBit n.val 25 then s.f .LSW l 31 16 else s.f .LSW l 15 0
  if s.lswBit n.val 0 && decide (th < current) then ok (s.lswLatch n.val 20 2 energy) else ok s

/-- TEMP_LATCH (R330): the switch's junction exceeds 175 °C. -/
def execTempLatch (n : Fin 40) (temp : Int) (energy : Nat) (s : State) : Res :=
  let s := s.wrN .LSW (LSW_CH_TEMP n.val) (ofSigned 16 temp)
  if 1750 < temp ∧ s.lswBit n.val 21 = false then ok (s.lswLatch n.val 21 3 energy) else ok s

/-- The channels that a command's mask names: L00–L31 in ARG0, L32–L39 in ARG1[7:0]. -/
def lswNamed (a : List Word) : List Nat := bitsOf (arg a 0).toNat 32 ++ (bitsOf (arg a 1).toNat 8).map (· + 32)

/-- The switch junction of a channel stands above 150 °C, as its last reading and housekeeping channel 31, the highest of the
forty, tell (R330, R331). -/
def State.lswHot (s : State) (n : Nat) : Bool :=
  decide (1500 < sfld (s.rd .LSW (LSW_CH_TEMP n)) 15 0) && !s.inWindow 31 (-32767) 1500

/-- UNLATCH (R331): refused while a named junction stands above 150 °C. -/
def execLswUnlatch (s : State) : Res :=
  ok (s.command .LSW 2 fun a s =>
    if (lswNamed a).any s.lswHot then refuse s .refusedTemp
    else done ((s.each (lswNamed a) (fun s n => (s.lswSet n 20 false).lswSet n 21 false)).lswShow) .ok)

/-- COOL_TIME_EXPIRED (R336): time passes until the cooling time of a LOCKed channel has run out. -/
def execCoolTimeExpired (n : Fin 40) (s : State) : Res := ok (s.pass (s.coolLeft n.val))

/-- UNLOCK (R336): refused while any named channel in LOCK is still cooling. -/
def execLswUnlock (s : State) : Res :=
  ok (s.command .LSW 3 fun a s =>
    if (lswNamed a).any (fun n => s.lswBit n 22 && s.coolLeft n != 0) then refuse s .locked
    else done ((s.each (lswNamed a) (fun s n => s.lswSet n 22 false)).lswShow) .ok)

/-! ## Feed current (R332, R334) -/

/-- PAUSE (R332): every channel of the feed in its slew phase pauses. -/
def execLswPause (f : Fin 2) (s : State) : Res :=
  let ns := lswAll.filter (fun n => feedOf n == f.val && s.lswBit n 26 && !s.lswBit n 27)
  let s := (s.setBit .LSW LSW_STATUS (4 + f.val) true).incF .LSW (LSW_FEED_COUNTS f.val) 31 16 1
  ok (s.each ns (fun s n => ((s.lswSet n 27 true).incF .LSW (LSW_CH_COUNTS n) 7 0 1).lswEvent n 8))

/-- PAUSE_RESUME (R332): the paused channels of the feed resume their slew together. -/
def execPauseResume (f : Fin 2) (s : State) : Res :=
  let s := s.setBit .LSW LSW_STATUS (4 + f.val) false
  ok (s.each (lswAll.filter (fun n => feedOf n == f.val)) (fun s n => s.lswSet n 27 false))

/-- PAUSE_TO (R332, R475): a channel paused for 50 ms in one turn-on is turned off; it is not latched. -/
def execPauseTo (n : Fin 40) (energy : Nat) (s : State) : Res :=
  if s.lswBit n.val 27 then
    let s := (s.lswSet n.val 1 false).incF .LSW (LSW_FEED_COUNTS (feedOf n.val)) 15 0 1
    ok ((s.lswOff n.val energy).lswEvent n.val 9)
  else ok s

/-- FEED_OVER (R334): a 1 s average above LIMIT sets the sticky OVER; nothing is switched. -/
def execFeedOver (f : Fin 2) (avg : Nat) (s : State) : Res :=
  if s.f .LSW (LSW_FEED_CFG f.val) 7 0 * 10 < avg then ok (s.setBit .LSW (LSW_FEED_STATUS f.val) 31 true) else ok s

/-! ## Supply conditions (R338, Table 13-3) -/

/-- A supply condition begins or ends at a feed. -/
def State.lswCond (s : State) (f : Nat) (c : SupplyFault) (v : Bool) : State :=
  let k := s.lsw.feed.get {} f
  match c with
  | .groundLoss => s.putLsw { s.lsw with gnd := v }
  | .reverse => (s.putLsw { s.lsw with feed := s.lsw.feed.set {} f { k with reverse := v } }).setBit .LSW LSW_STATUS f v
  | .over58 => s.putLsw { s.lsw with feed := s.lsw.feed.set {} f { k with above := v } }
  | .under45 => s.putLsw { s.lsw with feed := s.lsw.feed.set {} f { k with below := v } }

/-- FEED_OFF (R338): the condition opens the channels it acts on that are on; each sets FEED_OFF and keeps its commanded
state. -/
def execFeedOff (f : Fin 2) (c : SupplyFault) (energies : List Nat) (s : State) : Res :=
  let s := s.lswCond f.val c true
  let ns := lswAll.filter (fun n => s.lswSupplyOpen n && s.lswBit n 1 && !s.lswBit n 19)
  ok (s.each ns (fun s n => ((s.lswSet n 19 true).lswOff n (energies.getD n 0)).lswEvent n 7))

/-- FEED_OFF_END (R338): with no condition left, each channel returns to its commanded state without an ON command. -/
def execFeedOffEnd (f : Fin 2) (c : SupplyFault) (s : State) : Res :=
  let s := s.lswCond f.val c false
  let ns := lswAll.filter (fun n => s.lswBit n 19 && !s.lswSupplyOpen n)
  ok (s.each ns (fun s n =>
    let s := s.lswSet n 19 false
    if s.lswBit n 1 && !s.lswBarred n then s.lswOn n else s))

/-! ## Diagnostics and PWM (R340, R341) -/

/-- No check runs while the feed is below 6.0 V or FEED_OFF is set (R341). -/
def State.lswNoCheck (s : State) (n : Nat) : Bool := s.bit .PWR PWR_STATUS (3 + feedOf n) || s.lswBit n 19

/-- A diagnostic flag takes a value; its event is raised on a change from 0 to 1 only. -/
def State.lswFlag (s : State) (n bit event : Nat) (v : Bool) : State :=
  if v && !s.lswBit n bit then (s.lswSet n bit true).lswEvent n event else s.lswSet n bit v

/-- OPEN_ON (R341): an ON channel outside its slew phase, judged on its current over 100 ms. -/
def execOpenOn (n : Fin 40) (current : Nat) (s : State) : Res :=
  let d := s.rd .LSW (LSW_CH_DIAG n.val)
  if bitOf d 0 && s.lswBit n.val 0 && !s.lswBit n.val 26 && !s.lswNoCheck n.val then
    ok (s.lswFlag n.val 16 4 (decide (current < fld d 31 16)))
  else ok s

/-- OFF_STATE_CHECK (R341): an OFF channel under its 1 mA source: SHORT_BAT, OPEN_OFF, or a pass that clears both. -/
def execOffStateCheck (n : Fin 40) (out feed : Int) (s : State) : Res :=
  if s.bit .LSW (LSW_CH_DIAG n.val) 1 && !s.lswBit n.val 0 && !s.lswNoCheck n.val then
    if feed - 1000 ≤ out ∧ 8000 ≤ feed then ok (s.lswFlag n.val 18 5 true)
    else if 3500 ≤ out then ok (s.lswFlag n.val 17 4 true)
    else if out ≤ 1000 then ok ((s.lswSet n.val 18 false).lswSet n.val 17 false)
    else ok s
  else ok s

/-- PWM_EDGE (R340): an ON class L channel with PWM_EN switches at its frequency and duty; a period begins with its on edge,
and takes the PWM register as it then stands. At duty 0 nothing turns on, at 100 % nothing turns off; an off edge may
clamp. -/
def execPwmEdge (n : Fin 40) (on : Bool) (energy : Nat) (s : State) : Res :=
  if s.bit .LSW (LSW_CH_CFG n.val) 24 && !classK n.val && s.lswBit n.val 1 && !s.lswBarred n.val && !s.lswBit n.val 19 then
    if on then
      let w := s.rd .LSW (LSW_CH_PWM n.val)
      let s := s.lchMod n.val (fun c => { c with pwm := w })
      ok (if fld w 9 0 = 0 then s else s.lswOut n.val true)
    else if 1000 ≤ fld (s.lch n.val).pwm 9 0 then ok s
    else
      let was := s.lswBit n.val 0
      let s := s.lswOut n.val false
      if was then ok (s.lswClamp n.val energy) else ok s
  else ok s

/-! ## Fail states, hold and claim (R186, R342) -/

/-- The channel takes its programmed fail state: OFF, ON (unless a latch or LOCK refuses it) or KEEP (R186, R342). -/
def State.lswFail (s : State) (n energy : Nat) : State :=
  let s := (s.lswSetHeld n false).lswSet n 24 true
  match s.f .LSW (LSW_CH_FAIL n) 31 30 with
  | 1 => if s.lswBarred n || s.lswBit n 1 then s else (s.lswSet n 1 true).lswDrive n
  | 2 => s
  | _ => ((s.lswSet n 1 false).lswSet n 19 false).lswOff n energy

/-- The fail state taken at the module's own decision: the clamp energy is a free value. -/
def State.lswFailFree (s : State) (n : Nat) : State := (s.lswFail n (s.freeNat 16000)).drawn

/-- The channel is off whatever its fail state (R456, Sequence 2-1 step 7). -/
def State.lswForceOff (s : State) (n : Nat) : State :=
  ((((s.lswSetHeld n false).lswSet n 1 false).lswSet n 19 false).lswOff n (s.freeNat 16000)).drawn

/-- LSW_HOLD_EXPIRED (R342): a channel in hold raises HOLD_EXPIRED and takes its fail state. -/
def execLswHoldExpired (n : Fin 40) (energy : Nat) (s : State) : Res :=
  if s.lswBit n.val 23 then ok ((s.lswFail n.val energy).lswEvent n.val 10) else ok s

/-- CLAIM (R342): sets CLAIMED, ends HELD and changes nothing at the output. Without a drawer no channel can be claimed
(R175). -/
def execLswClaim (s : State) : Res :=
  ok (s.command .LSW 1 fun a s =>
    if s.sys.noDrawer then refuse s .locked
    else
      let ns := (lswNamed a).filter (fun n => !s.lswClaimed n)
      done (s.each ns (fun s n => (s.lswMaskSet LSW_CLAIMED_LO n true).lswSetHeld n false)) .ok)

/-- CLEAR_COUNTS (Table 13-9): COUNTS of the masked channels; with ARG2[0] the feed counts, peaks and OVER. -/
def execLswClearCounts (s : State) : Res :=
  ok (s.command .LSW 4 fun a s =>
    let s := s.each (lswNamed a) (fun s n => s.wr .LSW (LSW_CH_COUNTS n) 0)
    if bitOf (arg a 2) 0 then
      done (s.each (upto 2) (fun s f =>
        ((s.wr .LSW (LSW_FEED_COUNTS f) 0).setF .LSW (LSW_FEED_STATUS f) 14 0 0).setBit .LSW (LSW_FEED_STATUS f) 31 false)) .ok
    else done s .ok)

/-! ## Writes of configuration registers -/

/-- LIMIT, clamped to the class range of Table 13-1. -/
def lswLimitVal (n : Nat) (v : Word) : Word :=
  let a := if classK n then clampN 50 400 (fld v 31 16) else clampN 100 1200 (fld v 31 16)
  let b := if classK n then clampN 20 200 (fld v 15 0) else clampN 40 600 (fld v 15 0)
  wordN (a * 65536 + b)

/-- CFG: BLANK clamped to 50 ms, PWM_EN reading 0 on class K (Table 13-6). -/
def lswCfgVal (n : Nat) (v : Word) : Word :=
  let v := setFld (v &&& 0xF970003F) 5 0 (clampN 0 50 (fld v 5 0))
  if classK n then putBit v 24 false else v

end Sys2Proof.Machine
end

