-- ==== Sys2Proof/Machine/Map.lean ====
section
/-! DEFINITION. The field map engine (R350–R366): yield, pose, sweeping and attribution, cells, the checkpoint journal,
starting and restoring. -/

namespace Sys2Proof.Machine

/-! ## Registers and totals -/

/-- STATE of the map: 0 STOPPED, 1 RESTORING, 2 RUNNING. -/
def State.mapState (s : State) : Nat := s.f .MAP MAP_STATUS 2 0

/-- The sectors of the entry ring (R360). -/
def State.ringSectors (s : State) : Nat := s.rdN .MAP MAP_JRNL_SIZE - 4194320

/-- The registers that show the totals, the tick and the lists. -/
def State.mapShow (s : State) : State :=
  let w := s.map.work.getD {}
  let s := ((s.wrN .MAP MAP_ID w.id).wrN .MAP MAP_TICK w.tick).wrN .MAP MAP_MASS_LO w.mass
  let s := (s.wrN .MAP MAP_MASS_HI (w.mass / 2 ^ 32)).wrN .MAP MAP_UNATTR (min 0xFFFFFFFF (w.unattr / 1000))
  let s := (s.wrN .MAP MAP_CELLS w.cells).wrN .MAP MAP_OVERLAP (min 0xFFFFFFFF w.overlap)
  let s := s.wrN .MAP MAP_LOST_S (min 65535 (s.map.lostPose / 100) * 65536 + min 65535 (s.map.lostFlow / 100))
  let fill := if s.ringSectors = 0 then 0 else s.map.used * 100 / s.ringSectors
  s.wrN .MAP MAP_JRNL_FILL (min 255 fill * 2 ^ 24 + min 0x1FFFFF s.map.dirty.length)

/-- The work header changed. -/
def State.workMod (s : State) (f : MapWork → MapWork) : State :=
  s.putMap { s.map with work := s.map.work.map f }

/-! ## Cells (R353, R358, Table 14-2) -/

/-- The base of the field map region. -/
abbrev mapBase : Nat := 0x3A0000000

/-- The address of a cell by its index j × 4,096 + i. -/
def cellAddr (c : Nat) : Nat := mapBase + c * 32

/-- A little-endian field of a byte list. -/
def bget (bs : List Byte) (o n : Nat) : Nat := leNat ((bs.drop o).take n)

/-- A little-endian field of a byte list set. -/
def bput (bs : List Byte) (o n v : Nat) : List Byte := bs.take o ++ leBytes n v ++ bs.drop (o + n)

/-- A cell's flags ORed with a mask. -/
def cellFlag (bs : List Byte) (m : Nat) : List Byte := bput bs 10 2 (bget bs 10 2 ||| m)

/-- A cell passes its check; a cell of zeros is not examined. -/
def cellGood (bs : List Byte) : Bool := bs.all (fun b => b == 0) || crc16 (bs.take 30) == bget bs 30 2

/-- A cell's bytes. -/
def State.cell (s : State) (c : Nat) : List Byte := s.rdBytes (cellAddr c) 32

/-- A cell enters the dirty list once; a full list stops growing, sets LIST_OVF and starts a compaction (R359). -/
def State.dirtyAdd (s : State) (c : Nat) : State :=
  if s.map.dirty.contains c then s
  else if s.map.dirty.length < 1835008 then s.putMap { s.map with dirty := s.map.dirty ++ [c] }
  else
    let s := (s.setBit .MAP MAP_STATUS 9 true).setBit .MAP MAP_STATUS 7 true
    if s.map.compact.isSome then s
    else s.putMap { s.map with compact := some (s.map.seq, s.map.head, s.map.used) }

/-- A cell written with a new CHECK and entered in the dirty list. -/
def State.cellPut (s : State) (c : Nat) (bs : List Byte) : State :=
  (s.store (cellAddr c) (bs.take 30 ++ leBytes 2 (crc16 (bs.take 30)))).dirtyAdd c

/-- A cell of a line that returned a bus error: zeroed, flagged POISONED (R358). -/
def poisonedCell : List Byte :=
  let z := bput (leBytes 32 0) 10 2 0x200
  bput z 30 2 (crc16 (z.take 30))

/-- The engine reads the line of a cell: a line that returns a bus error (R146) is written whole with two zeroed cells flagged
POISONED, which are journalled, counted and reported (R358). -/
def State.lineRead (s : State) (c : Nat) : State :=
  let line := cellAddr c / 64 * 64
  let s := s.eccRead line 64
  if s.poison.get false line then
    let s := (((s.store line (poisonedCell ++ poisonedCell)).dirtyAdd (c / 2 * 2)).dirtyAdd (c / 2 * 2 + 1))
    ((s.incF .MAP MAP_ERRS 23 16 1).incF .MAP MAP_ERRS 31 24 1).event .MAP 4
  else s

/-- The check before an update of a cell (R358): a failed check is counted and flagged; a line that returns a bus error is
written with two zeroed cells flagged POISONED. -/
def State.cellCheck (s : State) (c : Nat) : State × List Byte :=
  let line := cellAddr c / 64 * 64
  let s := s.eccRead line 64
  if s.poison.get false line then (s.lineRead c, poisonedCell)
  else
    let bs := s.cell c
    if cellGood bs then (s, bs) else ((s.incF .MAP MAP_ERRS 31 24 1).event .MAP 4, cellFlag bs 0x100)

/-! ## Yield, moisture and loss (R350–R352) -/

/-- A flow: grams per second as a fraction, and whether the table was extended past its last point. -/
structure Flow where
  num : Nat
  den : Nat
  extrap : Bool

/-- The calibration points in force, x in 0.1 mV and y in g/s. -/
def MapSt.points (m : MapSt) : List (Nat × Nat) := (m.cal.take (m.calN + 1)).map (fun w => (fld w 15 0, fld w 31 16))

/-- The line through two points at x = n / d, as a fraction of d; never below 0. -/
def lineAt (a b : Nat × Nat) (n d : Nat) : Nat × Nat :=
  let dx := b.1 - a.1
  let v : Int := (a.2 : Int) * d * dx + ((b.2 : Int) - a.2) * ((n : Int) - a.1 * d)
  (v.toNat, d * dx)

/-- The piecewise-linear value at x = n / d; beyond the last point its segment is extended. -/
def calAt (n d : Nat) : List (Nat × Nat) → Nat × Nat
  | a :: b :: c :: t => if n ≤ b.1 * d then lineAt a b n d else calAt n d (b :: c :: t)
  | [a, b] => lineAt a b n d
  | _ => (0, 1)

/-- The yield flow of R350: none where it is invalid. An elevator frequency of 0 above E_MIN divides by 0 and is left to a
free value. -/
def State.yield (s : State) : Option Flow :=
  let src := s.rd .MAP MAP_YIELD_SRC
  let (va, oa) := s.ainSource (fld src 29 24)
  let (vb, ob) := s.ainSource (fld src 21 16)
  let fin := fld src 4 0
  let freq := s.rdN .AIO (AIO_FIN_FREQ fin)
  if !oa || !ob || decide (24 ≤ fin) || s.bit .AIO (AIO_FIN_STATUS fin) 7 then none
  else if freq < s.f .MAP MAP_ELEV 15 0 * 10 then some ⟨0, 1, false⟩
  else if freq = 0 then some ⟨s.freeNat (2 ^ 32), 1, false⟩
  else
    let p := (va - vb) * 1000000 - (s.rd .MAP MAP_ZERO).toInt * 65536
    let n := p.toNat * (s.f .MAP MAP_ELEV 31 16 * 10)
    let d := 65536 * 1000000 * freq
    if s.map.calN = 0 then some ⟨n * 1000, d, false⟩
    else
      let y := calAt (n * 10000) d s.map.points
      let last := (s.map.points.getLast?.map (fun q => q.1)).getD 0
      some ⟨y.1, y.2, decide (last * d < n * 10000)⟩

/-- Moisture in 0.01 % (R352): none where it is invalid. -/
def State.moisture (s : State) : Option Nat :=
  let src := s.rd .MAP MAP_MOIST_SRC
  match fld src 31 30 with
  | 1 =>
    let (v, good) := s.ainSource (fld src 7 0)
    if good && decide (fld src 7 0 < 48) then
      match f32Fix (s.rdN .MAP MAP_MOIST_GAIN), f32Fix (s.rdN .MAP MAP_MOIST_OFS) with
      | some g, some o => some (clampI 0 0xFFFE (roundDiv ((v * g + o * 65536) * 100) (2 ^ 165))).toNat
      | _, _ => some (s.freeNat 0xFFFF)
    else none
  | 2 =>
    let (v, good) := s.canRxSource (fld src 7 0)
    if good then some (clampI 0 0xFFFE (roundDiv (v * 100) 65536)).toNat else none
  | _ => none

/-- The impact counts of the loss channels. -/
def State.lossCounts (s : State) : List Nat := (upto 8).map (fun n => s.rdN .AIO (AIO_LOSS_COUNT n))

/-- The loss figure of a tick: the impacts counted since the last one (R352); none where a channel is INVALID. -/
def State.tickLoss (s : State) : Option Nat :=
  let ch := bitsOf (s.f .MAP MAP_LOSS_SRC 7 0) 8
  if ch.any (fun n => s.bit .AIO (AIO_LOSS_STATUS n) 7) then none
  else some ((ch.map (fun n => (s.rdN .AIO (AIO_LOSS_COUNT n) + 2 ^ 32 - s.map.hits.getD n 0) % 2 ^ 32)).sum)

/-! ## Pose and geometry (R354, R355): lengths in µm, angles in units of 10^−12 -/

/-- π in units of 10^−12. -/
abbrev piFix : Int := 3141592653590

/-- The terms of a sine or cosine series from a term on. -/
def series (x2 : Int) : Nat → Nat → Int → Int
  | 0, _, _ => 0
  | n + 1, k, term => term + series x2 n (k + 2) (-(term * x2) / (1000000000000 * (k + 1) * (k + 2)))

/-- Sine and cosine of an angle in µrad, in units of 10^−12. -/
def sinCos (h : Int) : Int × Int :=
  let x := h * 1000000
  let x := if piFix < x then x - 2 * piFix else x
  let x2 := x * x / 1000000000000
  (series x2 22 1 x, series x2 22 0 1000000000000)

/-- The pose at a time, from the last two latched (R354): position in µm and heading in µrad. -/
def poseAt (ps : List Pose) (t : Nat) : Int × Int × Int :=
  match ps with
  | a :: b :: _ =>
    let dt : Int := (a.t : Int) - b.t
    let u : Int := (t : Int) - a.t
    let lin := fun (p q : Int) => if dt = 0 then p else p + (p - q) * u / dt
    let dh : Int := (a.hdg : Int) - b.hdg
    let dh := if 3141592 < dh then dh - 6283185 else if dh < -3141592 then dh + 6283185 else dh
    let h := if dt = 0 then (a.hdg : Int) else a.hdg + dh * u / dt
    (lin (a.x * 1000) (b.x * 1000), lin (a.y * 1000) (b.y * 1000), h % 6283185)
  | [a] => (a.x * 1000, a.y * 1000, a.hdg)
  | [] => (0, 0, 0)

/-- A point on the cutterbar line at `edge` mm to the left. -/
def barPoint (p : Int × Int × Int) (xc edge : Int) : Int × Int :=
  let (sn, cs) := sinCos p.2.2
  (p.1 + (xc * sn - edge * cs) / 1000000000, p.2.1 + (xc * cs + edge * sn) / 1000000000)

/-- A polygon cut by the half plane where `f` ≥ 0, with crossings at their point on the edge. -/
def clipHalf (f : Int × Int → Int) (poly : List (Int × Int)) : List (Int × Int) :=
  match poly.getLast? with
  | none => []
  | some l =>
    (poly.foldl (fun (acc : List (Int × Int) × (Int × Int)) q =>
      let p := acc.2
      let a := f p
      let b := f q
      let cross := (p.1 + (q.1 - p.1) * a / (a - b), p.2 + (q.2 - p.2) * a / (a - b))
      let out := if 0 ≤ b then (if 0 ≤ a then [q] else [cross, q]) else (if 0 ≤ a then [cross] else [])
      (acc.1 ++ out, q)) ([], l)).1

/-- Twice the signed area of a polygon. -/
def area2 (poly : List (Int × Int)) : Int :=
  match poly.getLast? with
  | none => 0
  | some l => (poly.foldl (fun (acc : Int × (Int × Int)) q => (acc.1 + acc.2.1 * q.2 - q.1 * acc.2.2, q)) (0, l)).1

/-- The area in mm² by which a quadrilateral overlaps cell (i, j). -/
def cellOverlap (quad : List (Int × Int)) (i j : Int) : Nat :=
  let x0 := i * 500000
  let y0 := j * 500000
  let p := clipHalf (fun q => q.1 - x0) quad
  let p := clipHalf (fun q => x0 + 500000 - q.1) p
  let p := clipHalf (fun q => q.2 - y0) p
  let p := clipHalf (fun q => y0 + 500000 - q.2) p
  ((area2 p).natAbs + 1000000) / 2000000

/-- The least and greatest of the cell numbers that coordinates reach. -/
def cellSpan (l : List Int) : Int × Nat :=
  match l with
  | [] => (0, 0)
  | a :: t =>
    let lo := t.foldl min a / 500000
    let hi := t.foldl max a / 500000
    (lo, (hi - lo).toNat + 1)

/-- The cells that a quadrilateral overlaps, row by row, with their areas. -/
def overlaps (quad : List (Int × Int)) : List ((Int × Int) × Nat) :=
  let (i0, ni) := cellSpan (quad.map (fun q => q.1))
  let (j0, nj) := cellSpan (quad.map (fun q => q.2))
  (upto nj).flatMap (fun (dj : Nat) => (upto ni).filterMap (fun (di : Nat) =>
    let c : Int × Int := (i0 + (di : Int), j0 + (dj : Int))
    let a := cellOverlap quad c.1 c.2
    if 0 < a then some (c, a) else none))

/-- The quadrilateral that a section sweeps in a tick, where its midpoint moves forward along the heading (R355). -/
def sectionQuad (xc : Int) (w : Word) (p q : Int × Int × Int) : Option (List (Int × Int)) :=
  let l := sfld w 31 16
  let r := l - (fld w 15 0 : Int)
  let l0 := barPoint p xc l
  let r0 := barPoint p xc r
  let l1 := barPoint q xc l
  let r1 := barPoint q xc r
  let (sn, cs) := sinCos q.2.2
  let fwd := (l1.1 + r1.1 - l0.1 - r0.1) * sn + (l1.2 + r1.2 - l0.2 - r0.2) * cs
  if 0 < fwd then some [l0, r0, r1, l1] else none

/-- POSE_GO (R354): the write latches the pose with its device time, whose [31:0] is written. -/
def execPoseGo (v : Word) (s : State) : Res :=
  let near := s.now / 2 ^ 32 * 2 ^ 32 + v.toNat
  let t := if s.now + 2 ^ 31 < near then near - 2 ^ 32 else if near + 2 ^ 31 ≤ s.now then near + 2 ^ 32 else near
  let p : Pose := { x := (s.rd .MAP MAP_POSE_X).toInt, y := (s.rd .MAP MAP_POSE_Y).toInt, hdg := s.rdN .MAP MAP_POSE_HDG
                    acc := s.f .MAP MAP_POSE_ACC 15 0, t := t }
  ok (s.putMap { s.map with poses := p :: s.map.poses.take 1 })

/-! ## Touching and attribution (R355–R357) -/

/-- A crop-state value scaled and rounded into a field of `hi` at most. -/
def cropField (v : Int) (k hi : Nat) : Nat := (clampI 0 hi (roundDiv (v * k) 65536)).toNat

/-- The crop fields of a cell at its first touch. -/
def State.cropFields (s : State) (bs : List Byte) : List Byte :=
  let (d, d1) := s.cropSource 0
  let (l, l1) := s.cropSource 1
  let (h, h1) := s.cropSource 4
  let q := fun i => (s.rdB (resultBase s.tbl.pub + 0x400 + 8 * i + 6)).toNat
  let bs := bput (bput (bput bs 20 2 (cropField d 10 65535)) 22 1 (cropField l 255 255)) 23 1 (cropField h 50 255)
  let bs := bput bs 24 1 (min (q 0) (min (q 1) (q 4)))
  if d1 && l1 && h1 then bs else cellFlag bs 0x20

/-- One touch of a cell at tick `k` by a section: the entry decision, LAST_TOUCH, POSE_DEGRADED, and the record of delay-line
entry `e` (R355). -/
def State.touch (s : State) (k e sec c a acc : Nat) : State :=
  let (s, bs) := s.cellCheck c
  let entry := bget bs 8 2 == 0 || decide (200 + bget bs 16 4 < k)
  let first := entry && bget bs 8 2 == 0
  let bs := if entry then bput bs 8 2 (satAdd 65535 (bget bs 8 2) 1) else bs
  let bs := if first then s.cropFields (bput (bput (bput bs 12 4 s.clk.opsec) 25 1 sec) 4 2 0xFFFF)
    else if entry then cellFlag bs 1 else bs
  let bs := bput bs 16 4 k
  let lim := s.f .MAP MAP_CUTBAR 31 16
  let bs := if lim ≠ 0 ∧ lim < acc then cellFlag bs 0x80 else bs
  let s := s.cellPut c bs
  let s := s.workMod (fun w => { w with cells := w.cells + b2n first, overlap := w.overlap + b2n (entry && !first) })
  let recs := s.map.line.get [] e
  if recs.length < 128 then
    let r : MapRec := { cell := c, area := a, new := bget bs 8 2 == 1 }
    s.putMap { s.map with line := s.map.line.set [] e (recs ++ [r]) }
  else s.incF .MAP MAP_ERRS 15 0 1

/-- A section's strip of a tick: cells in the extent are touched; a strip that reaches outside raises OUTSIDE once per
excursion of its section (R357). -/
def State.sweepSection (s : State) (k e sec acc : Nat) (quad : List (Int × Int)) : State :=
  s.each (overlaps quad) (fun s x =>
    let (i, j) := x.1
    if 0 ≤ i ∧ i < 4096 ∧ 0 ≤ j ∧ j < 8192 then s.touch k e sec (j * 4096 + i).toNat x.2 acc
    else if s.map.outside.contains sec then s
    else (s.putMap { s.map with outside := sec :: s.map.outside }).event .MAP 2)

/-- Some part of a strip lies outside the extent. -/
def reachesOut (quad : List (Int × Int)) : Bool :=
  (overlaps quad).any (fun x => !(decide (0 ≤ x.1.1) && decide (x.1.1 < 4096) && decide (0 ≤ x.1.2) && decide (x.1.2 < 8192)))

/-- The strips of a tick that ends at device time `t`: section and quadrilateral (R355). -/
def State.strips (s : State) (t : Nat) : List (Nat × List (Int × Int)) :=
  let p := poseAt s.map.poses (t - 10000000)
  let q := poseAt s.map.poses t
  let xc := sfld (s.rd .MAP MAP_CUTBAR) 15 0
  (upto 16).filterMap (fun k =>
    let w := s.map.sects.getD k 0
    if fld w 15 0 ≠ 0 ∧ s.bit .MAP MAP_SECTIONS k then (sectionQuad xc w p q).map (fun d => (k, d)) else none)

/-- The newest pose is older than 200 ms at a tick, or there is none (R354). -/
def State.poseStale (s : State) (t : Nat) : Bool :=
  match s.map.poses with
  | [] => true
  | p :: _ => decide (p.t + 200000000 < t)

/-- The sweep of tick `k` at device time `t` (R355, R357). -/
def State.sweep (s : State) (k t : Nat) : State :=
  let live := (s.mode == 2 || s.mode == 3 || s.mode == 4) && !s.bit .MAP MAP_STATUS 3
  let stale := s.poseStale t
  let was := s.bit .MAP MAP_STATUS 5
  let s := s.setBit .MAP MAP_STATUS 5 stale
  let s := s.when (stale && !was) (fun s => s.event .MAP 3)
  let s := if stale && live then (s.putMap { s.map with lostPose := s.map.lostPose + 1 }) else s
  let on := live && !stale && decide (k < 0xFFFFFFF0)
  let s := s.setBit .MAP MAP_STATUS 4 on
  if on then
    let acc := (s.map.poses.head?.map (fun p => p.acc)).getD 0
    let qs := s.strips t
    let back := (qs.filter (fun x => !reachesOut x.2)).map (fun x => x.1)
    let s := s.putMap { s.map with outside := s.map.outside.filter (fun k => !back.contains k) }
    s.each qs (fun s x => s.sweepSection k (t / 10000000) x.1 acc x.2)
  else s

/-- The records of a delay-line entry whose cells were new, and their area. -/
def State.newRecs (s : State) (e : Nat) : List MapRec × Nat :=
  let rs := (s.map.line.get [] e).filter (fun r => r.new)
  (rs, (rs.map (fun r => r.area)).sum)

/-- The cell flags of a flow: UNCALIBRATED, CAL_EXTRAP. -/
def State.flowFlags (s : State) (f : Flow) : Nat := 2 * b2n (s.map.calN == 0) + 64 * b2n f.extrap

/-- One record's share of a tick's mass (R356): `m` mg with the moisture of the tick. -/
def State.addMass (s : State) (c m : Nat) (moist : Option Nat) (flags : Nat) : State :=
  let (s, bs) := s.cellCheck c
  let w := bget bs 0 4
  let bs := match moist with
    | some h =>
      let old := bget bs 4 2
      if w + m = 0 then bs
      else if old = 0xFFFF then bput bs 4 2 h
      else bput bs 4 2 ((2 * (old * w + h * m) + (w + m)) / (2 * (w + m)))
    | none => cellFlag bs 8
  let bs := cellFlag (bput bs 0 4 (min 0xFFFFFFFF (w + m))) flags
  (s.cellPut c bs).workMod (fun x => { x with mass := x.mass + m })

/-- The tick's mass attributed to the entry DELAY before it (R356). -/
def State.attributeMass (s : State) (e : Nat) (flow : Option Flow) (moist : Option Nat) : State :=
  let (rs, a) := s.newRecs e
  match flow with
  | none => s.each rs (fun s r => let (s, bs) := s.cellCheck r.cell; s.cellPut r.cell (cellFlag bs 4))
  | some f =>
    let n := f.num * 10
    if a = 0 then s.workMod (fun w => { w with unattr := w.unattr + (2 * n + f.den) / (2 * f.den) })
    else s.each rs (fun s r =>
      s.addMass r.cell ((2 * n * r.area + f.den * a) / (2 * f.den * a)) moist (s.flowFlags f))

/-- The tick's loss attributed to the entry LOSS_DELAY before it (R356). -/
def State.attributeLoss (s : State) (e : Nat) (loss : Option Nat) : State :=
  let (rs, a) := s.newRecs e
  s.each rs (fun s r =>
    let (s, bs) := s.cellCheck r.cell
    match loss with
    | none => s.cellPut r.cell (cellFlag bs 16)
    | some l => s.cellPut r.cell (bput bs 6 2 (min 65535 (bget bs 6 2 + (2 * 10 * l * r.area + a) / (2 * a)))))

/-- The calibration that a running CAL_APPLY checked takes effect (R351). -/
def State.calTake (s : State) : State :=
  let s := match s.map.staged with
    | some (n, cal) => (s.putMap { s.map with calN := n, cal := cal, staged := none }).cmdEndIf .MAP 5 .ok
    | none => s
  s.setBit .MAP MAP_STATUS 6 (s.map.calN == 0)

/-- A tick of a running ZERO averages p, with ZERO taken as 0 (R351). -/
def State.zeroTick (s : State) : State :=
  match s.map.zero with
  | some (t, n, sum) =>
    let src := s.rd .MAP MAP_YIELD_SRC
    let p := (s.ainSource (fld src 29 24)).1 - (s.ainSource (fld src 21 16)).1
    s.putMap { s.map with zero := some (t, n + 1, sum + p) }
  | none => s

/-- Readings of AIN_A and AIN_B at further instants join the average of a running ZERO (R351). -/
def State.zeroAdd (s : State) (ps : List (Int × Int)) : State :=
  match s.map.zero with
  | some (t, n, sum) => s.putMap { s.map with zero := some (t, n + ps.length, sum + (ps.map fun p => p.1 - p.2).sum) }
  | none => s

/-- What a tick of a RUNNING map does: the tick number, the sweep, the attribution, and the delay line's end. -/
def State.mapRun (s : State) (t : Nat) (flow : Option Flow) (moist : Option Nat) (loss : Option Nat) : State :=
  let s := s.workMod (fun w => { w with tick := min 0xFFFFFFFF (w.tick + 1) })
  let k := (s.map.work.getD {}).tick
  let e := t / 10000000
  let s := s.sweep k t
  let s := s.attributeMass (e - s.map.delay) flow moist
  let s := s.attributeLoss (e - s.map.lossDelay) loss
  let keep := e - max s.map.delay s.map.lossDelay
  s.putMap { s.map with
    line := s.map.line.keep (fun i => decide (keep < i)),
    lostFlow := s.map.lostFlow + b2n flow.isNone }

/-- MAP_TICK (R350–R357): the tick at device time `t`, a multiple of 10 ms. -/
def execMapTick (t : Nat) (s : State) : Res :=
  if t % 10000000 = 0 ∧ s.now ≤ t then
    let s := (s.passTo t).calTake.zeroTick
    let flow := s.yield
    let moist := s.moisture
    let loss := s.tickLoss
    let q := match flow with | some f => (2 * f.num * 65536 + f.den * 1000) / (2 * f.den * 1000) | none => 0
    let s := (s.wrN .MAP MAP_FLOW (min 0x7FFFFFFF q)).wrN .MAP MAP_MOISTURE (moist.getD 0xFFFF)
    let s := if s.mapState = 2 then s.mapRun t flow moist loss else s
    let hits := s.lossCounts
    ok ((s.putMap { s.map with hits := hits }).drawn).mapShow
  else ok s

/-! ## The checkpoint journal (R359–R362) -/

/-- The lists merged: cells of the first that the second lacks come after it. -/
def mergeLists (old new : List Nat) : List Nat := new ++ old.filter (fun c => !new.contains c)

/-- The bytes of a journal entry (Table 14-3), sector by sector. -/
def State.entryBytes (s : State) (kind : Nat) (cells : List Nat) : List Byte :=
  let w := s.map.work.getD {}
  let sects := (cells.length + 13) / 14
  let payload := (upto sects).flatMap (fun k =>
    let rs := ((cells.drop (14 * k)).take 14).flatMap (fun c => leBytes 4 c ++ s.cell c)
    rs ++ List.replicate (512 - rs.length) 0)
  let h := leBytes 4 0x4A50414D ++ leBytes 4 w.id ++ leBytes 8 s.map.seq ++ leBytes 4 s.clk.opsec ++ leBytes 3 s.clk.pcc ++
    leBytes 1 kind ++ leBytes 4 cells.length ++ leBytes 4 w.tick ++ leBytes 4 (crc32c payload)
  let h := h ++ leBytes 4 (crc32c h)
  h ++ List.replicate (512 - h.length) 0 ++ payload ++ (0x5A :: leBytes 8 s.map.seq) ++ List.replicate 503 0

/-- The lines of some cells are read; those that return a bus error are written anew (R358). -/
def State.linesRead (s : State) (cells : List Nat) : State := s.each cells (fun s c => s.lineRead c)

/-- The eMMC byte offset of sector `k` of the ring. -/
def State.ringByte (s : State) (k : Nat) : Nat :=
  (s.rdN .MAP MAP_JRNL_BASE + 4194320 + k % max 1 s.ringSectors) * 512

/-- Sectors written to the ring one by one from sector `k` on. -/
def State.ringPut (s : State) (k : Nat) (bs : List Byte) : State :=
  s.each (upto (bs.length / 512)) (fun s i => s.emmcPut (s.ringByte (k + i)) ((bs.drop (512 * i)).take 512))

/-- The sectors of an entry of `n` cells. -/
def entrySectors (n : Nat) : Nat := 2 + (n + 13) / 14

/-- An entry of the first cells of a list is written and sealed: the state after it and the cells left. -/
def State.entrySeal (s : State) (kind : Nat) (l : List Nat) : State × List Nat :=
  let cells := l.take 28672
  let n := entrySectors cells.length
  let s := s.linesRead cells
  let s := s.ringPut s.map.head (s.entryBytes kind cells)
  let sq := s.map.seq
  let s := s.putMap { s.map with seq := sq + 1, head := (s.map.head + n) % max 1 s.ringSectors, used := s.map.used + n }
  ((s.wrN .MAP MAP_JRNL_SEQ sq).event .MAP 0, l.drop 28672)

/-- The ring has room for the next entry of a list. -/
def State.entryFits (s : State) (l : List Nat) : Bool :=
  decide (s.map.used + entrySectors (min 28672 l.length) ≤ s.ringSectors)

/-- A compaction starts when the ring is 75 % full (R361). -/
def State.compactStart (s : State) : State :=
  if s.ringSectors * 75 ≤ s.map.used * 100 ∧ s.map.compact = none ∧ s.mapState = 2 then
    (s.putMap { s.map with compact := some (s.map.seq, s.map.head, s.map.used) }).setBit .MAP MAP_STATUS 7 true
  else s

/-- Up to `n` entries of the dirty list are sealed, as far as the ring has room (R357, R362). -/
def State.flushDirty (kind : Nat) : Nat → State → State
  | 0, s => s
  | n + 1, s =>
    if s.map.dirty.isEmpty || !s.entryFits s.map.dirty then s
    else
      let (s, rest) := s.entrySeal kind s.map.dirty
      State.flushDirty kind n (s.putMap { s.map with dirty := rest })

/-- JOURNAL_PERIOD (R359): every 60 s a RUNNING map swaps its lists and begins to write the previous one. -/
def execJournalPeriod (s : State) : Res :=
  if s.mapState = 2 ∧ s.map.writing = none ∧ !s.map.dirty.isEmpty then
    let s := s.putMap { s.map with writing := some s.map.dirty, dirty := [] }
    ok ((s.setBit .MAP MAP_STATUS 8 true).setBit .MAP MAP_STATUS 9 false).mapShow
  else ok s

/-- JOURNAL (R359, R361): the next entry of the list being written is sealed; one that ends other than OK merges its list
into the current one; one that finds no room waits. -/
def execMapJournal (good : Bool) (s : State) : Res :=
  match s.map.writing with
  | none => ok s
  | some l =>
    if !(good && s.emmcOk) then
      let s := s.putMap { s.map with writing := none, dirty := mergeLists l s.map.dirty }
      ok ((s.setBit .MAP MAP_STATUS 8 false).event .MAP 1).mapShow
    else if !s.entryFits l then ok (s.event .MAP 5)
    else
      let (s, rest) := s.entrySeal 1 l
      let s := s.putMap { s.map with writing := if rest.isEmpty then none else some rest }
      ok ((s.setBit .MAP MAP_STATUS 8 (!rest.isEmpty)).compactStart).mapShow

/-- The base slot in use: the committed one with the higher BASE_SEQ (R51, R363). -/
def State.baseInUse (s : State) : Option (Nat × MapBase) :=
  match s.map.base.get none 0, s.map.base.get none 1 with
  | some a, some b => if a.seq < b.seq then some (1, b) else some (0, a)
  | some a, none => some (0, a)
  | none, some b => some (1, b)
  | none, none => none

/-- The eMMC byte offset of the map image of a base slot. -/
def State.imageByte (s : State) (k : Nat) : Nat := (s.rdN .MAP MAP_JRNL_BASE + (if k = 0 then 1 else 2097161)) * 512

/-- The bytes of the field map region. -/
abbrev mapBytes : Nat := 0x40000000

/-- A byte map with a range replaced by moved cells of another, whose keys lie in that range. -/
def graft (m : SMap Byte) (lo n : Nat) (cells : List (Nat × Byte)) : SMap Byte :=
  ⟨m.cells.filter (fun c => c.1 < lo) ++ cells ++ m.cells.filter (fun c => lo + n ≤ c.1)⟩

/-- COMPACT_DONE (R361): the base slot not in use is sealed with all cells, and the ring space before BASE_SEQ is free. -/
def execCompactDone (s : State) : Res :=
  match s.map.compact, s.map.work with
  | some (sq, off, before), some w =>
    let s := s.linesRead ((s.poison.cells.filter (fun c =>
      decide (mapBase ≤ c.1) && decide (c.1 < mapBase + mapBytes))).map (fun c => (c.1 - mapBase) / 32))
    let k := match s.baseInUse with | some (0, _) => 1 | _ => 0
    let img := graft s.emmc (s.imageByte k) mapBytes (s.mem.moved mapBase mapBytes (s.imageByte k))
    let b : MapBase := { id := w.id, seq := sq, off := off, empty := false, tick := w.tick, desc := w.desc }
    let s := (s.putEmmc img).putMap { s.map with
      base := s.map.base.set none k (some b), compact := none,
      used := s.map.used - before }
    ok (((s.setBit .MAP MAP_STATUS 7 false).setBit .MAP MAP_STATUS 9 false).event .MAP 6).mapShow
  | _, _ => ok s

/-! ## Starting, restoring and stopping (R357, R363–R365) -/

/-- Two of the fitted sections overlap. -/
def sectionsOverlap (ws : List Word) : Bool :=
  let l := ws.filterMap (fun w => if fld w 15 0 = 0 then none else some (sfld w 31 16 - (fld w 15 0 : Int), sfld w 31 16))
  let ix := upto l.length
  ix.any (fun a => ix.any (fun b =>
    decide (a < b) && decide ((l.getD a (0, 0)).1 < (l.getD b (0, 0)).2) && decide ((l.getD b (0, 0)).1 < (l.getD a (0, 0)).2)))

/-- What refuses a MAP_START (R350, R363). -/
def State.mapRefusal (s : State) : Result :=
  let ws := (upto 16).map (fun k => s.rd .MAP (MAP_SECT k))
  let src := s.rd .MAP MAP_YIELD_SRC
  let volt := fun n => s.ainMode n == 1 || s.ainMode n == 2
  if s.mode = 0 ∧ !s.bit .SYS SYS_MODE 7 then .refusedMode
  else if sectionsOverlap ws || ws.any (fun w => fld w 15 0 != 0 && (decide (fld w 15 0 < 100) || decide (5000 < fld w 15 0))) ||
      !volt (fld src 29 24) || !volt (fld src 21 16) then .badHeader
  else if s.rdN .MAP MAP_JRNL_SIZE < 4718608 then .noSpace
  else if s.baseInUse.isNone then .badBlock
  else .ok

/-- The registers that are read at MAP_START. -/
def State.mapRead (s : State) : State :=
  let ws := (upto 16).map (fun k => s.rd .MAP (MAP_SECT k))
  let hits := s.lossCounts
  s.putMap { s.map with
    delay := clampN 400 2000 (s.f .MAP MAP_CFG 26 16), lossDelay := min 2000 (s.f .MAP MAP_CFG 10 0), sects := ws
    line := SMap.empty, hits := hits, outside := [] }

/-- The work area that MAP_WORK_BASE names. -/
def State.workArea (s : State) : Nat := s.f .MAP MAP_WORK_BASE_HI 7 0 * 2 ^ 32 + s.f .MAP MAP_WORK_BASE_LO 31 20 * 2 ^ 20

/-- The work header is valid: it stands in the work area and names the map of the base in use (R363). -/
def State.workValid (s : State) : Bool :=
  match s.map.work, s.baseInUse with
  | some w, some (_, b) => w.id == b.id && w.area == s.workArea
  | _, _ => false

/-- MAP_START (R363): a valid work header resumes at once; else the map restores. -/
def execMapStart (s : State) : Res :=
  ok (s.command .MAP 1 fun _ s =>
    if s.mapState ≠ 0 then done s .ok
    else match s.mapRefusal with
      | .ok =>
        let s := s.mapRead
        if s.workValid then done ((s.setF .MAP MAP_STATUS 2 0 2).mapShow) .ok
        else (s.setF .MAP MAP_STATUS 2 0 1, none)
      | r => refuse s r)

/-- An entry of the ring at sector `k` with the SEQ expected: its tick, its cells and its sectors, unless it is absent, torn
or out of sequence. -/
def State.entryAt (s : State) (id k sq : Nat) : Option (Nat × List (Nat × List Byte) × Nat) :=
  let sec := fun i => s.emmcBytes (s.ringByte (k + i)) 512
  let h := sec 0
  let n := bget h 24 4
  let m := (n + 13) / 14
  if bget h 0 4 == 0x4A50414D && bget h 4 4 == id && bget h 8 8 == sq && decide (n ≤ 28672) &&
      crc32c (h.take 36) == bget h 36 4 then
    let payload := (upto m).flatMap (fun i => sec (1 + i))
    let c := sec (1 + m)
    if crc32c payload == bget h 32 4 && bget c 0 1 == 0x5A && bget c 1 8 == sq then
      let recs := (upto n).map (fun i =>
        let r := (payload.drop (512 * (i / 14) + 36 * (i % 14))).take 36
        (bget r 0 4, r.drop 4))
      some (bget h 28 4, recs, m + 2)
    else none
  else none

/-- A unit at sector `k` of the ring is sealed with the SEQ expected but fails its check: it is torn (R50). -/
def State.entryTorn (s : State) (id k sq : Nat) : Bool :=
  let sec := fun i => s.emmcBytes (s.ringByte (k + i)) 512
  let h := sec 0
  let n := bget h 24 4
  let c := sec (1 + (n + 13) / 14)
  bget h 0 4 == 0x4A50414D && bget h 4 4 == id && bget h 8 8 == sq && decide (n ≤ 28672) &&
    bget c 0 1 == 0x5A && bget c 1 8 == sq && (s.entryAt id k sq).isNone

/-- Entries replayed in SEQ order from a sector on, while they are whole; `tick`: that of the last one. A torn one is
counted and reported (R50). -/
def State.replay (id : Nat) : Nat → Nat → Nat → Nat → Nat → State → State × Nat × Nat × Nat × Nat
  | 0, k, sq, tick, used, s => (s, k, sq, tick, used)
  | fuel + 1, k, sq, tick, used, s =>
    match s.entryAt id k sq with
    | none => (if s.entryTorn id k sq then s.tornUnit 1 else s, k, sq, tick, used)
    | some (t, recs, n) =>
      let s := s.each recs (fun s r => if r.1 < 2 ^ 25 then s.store (cellAddr r.1) r.2 else s)
      State.replay id fuel ((k + n) % max 1 s.ringSectors) (sq + 1) t (used + n) s

/-- The numbers of the cells that are not all zero. -/
def State.usedCells (s : State) : List Nat :=
  ((s.mem.cells.filter (fun c => mapBase ≤ c.1 && c.1 < mapBase + mapBytes)).map (fun c => (c.1 - mapBase) / 32)).eraseDups

/-- The totals of a restored map that its cells give; the mass not attributed is in no entry and is left to a free value. -/
def State.restoreTotals (s : State) (b : MapBase) (tick : Nat) : State :=
  let cs := s.usedCells.map (fun c => s.cell c)
  let w : MapWork := { id := b.id, tick := tick, desc := b.desc, area := s.workArea, mass := (cs.map (fun c => bget c 0 4)).sum
                       unattr := s.freeNat (2 ^ 32), cells := (cs.filter (fun c => bget c 8 2 != 0)).length
                       overlap := (cs.map (fun c => bget c 8 2 - 1)).sum }
  (s.putMap { s.map with work := some w }).drawn

/-- The field map's region of DRAM as the image of base slot `k` has it, or all zero; nothing of it stays poisoned. -/
def State.mapImage (s : State) (k : Nat) (empty : Bool) : State :=
  ((s.putMem (graft s.mem mapBase mapBytes (if empty then [] else s.emmc.moved (s.imageByte k) mapBytes mapBase))).putPoison
    (s.poison.keep (fun a => !(decide (mapBase ≤ a) && decide (a < mapBase + mapBytes))))).poisonShow

/-- After a restore: the journal goes on at `head` with sequence number `sq`, nothing is dirty, and the map sweeps. -/
def State.journalAt (s : State) (head sq used : Nat) : State :=
  let s := s.putMap { s.map with head := head, seq := sq, used := used, dirty := [], writing := none, compact := none }
  ((s.setF .MAP MAP_STATUS 2 0 2).wrN .MAP MAP_JRNL_SEQ (sq - 1)).mapShow

/-- What a restore makes of a base `b` and of what replaying its entries gave: the state, the journal's head, the next
sequence number, the last tick and the sectors used. -/
def State.replayed (b : MapBase) (p : State × Nat × Nat × Nat × Nat) : State :=
  (p.1.restoreTotals b (p.2.2.2.1 + 201)).journalAt p.2.1 p.2.2.1 p.2.2.2.2

/-- RESTORE_DONE (R363): the base image, then the ring's entries; MAP_TICK at the last entry's tick + 201. -/
def execRestoreDone (s : State) : Res :=
  if s.mapState = 1 then
    match s.baseInUse with
    | none => ok ((s.setF .MAP MAP_STATUS 2 0 0).cmdEndIf .MAP 1 .badBlock)
    | some (k, b) =>
      ok ((State.replayed b (State.replay b.id (s.ringSectors / 2) b.off b.seq b.tick 0 (s.mapImage k b.empty))).cmdEndIf .MAP 1 .ok)
  else ok s

/-- MAP_STOP (R357): sweeping stops, and the mailbox is held until attribution has drained. -/
def execMapStop (s : State) : Res :=
  ok (s.command .MAP 2 fun _ s =>
    if s.mapState = 2 then ((s.setBit .MAP MAP_STATUS 3 true).setBit .MAP MAP_STATUS 4 false, none) else done s .ok)

/-- MAP_STOP_DONE (R357): with every entry attributed, a stop entry is written and the map is STOPPED. -/
def execMapStopDone (s : State) : Res :=
  if s.bit .MAP MAP_STATUS 3 ∧ s.map.line.cells = [] then
    let s := s.putMap { s.map with writing := none, dirty := mergeLists (s.map.writing.getD []) s.map.dirty }
    let s := if s.emmcOk then
        let s := if s.map.dirty.isEmpty then (if s.entryFits [] then (s.entrySeal 2 []).1 else s.event .MAP 5)
          else State.flushDirty 2 130 s
        if s.map.dirty.isEmpty then s else s.event .MAP 5
      else s.event .MAP 1
    let s := ((s.setF .MAP MAP_STATUS 2 0 0).setBit .MAP MAP_STATUS 3 false).setBit .MAP MAP_STATUS 8 false
    ok (s.mapShow.cmdEndIf .MAP 2 .ok)
  else ok s

/-- MAP_NEW (R364). -/
def execMapNew (s : State) : Res :=
  ok (s.command .MAP 3 fun args s =>
    if s.mode ≠ 1 ∧ s.mode ≠ 5 then refuse s .refusedMode
    else if s.mapState ≠ 0 then refuse s .locked
    else if !s.emmcOk then refuse s .refusedTemp
    else if s.engBad (fld (arg args 2) 7 0 * 2 ^ 32 + (arg args 1).toNat) 64 then refuse s .badBlock
    else
      let id := (arg args 0).toNat
      let desc := s.rdBytes (fld (arg args 2) 7 0 * 2 ^ 32 + (arg args 1).toNat) 64
      let b : MapBase := { id := id, seq := 1, off := 0, empty := true, tick := 0, desc := desc }
      let s := s.mapImage 0 true
      let s := s.putMap { s.map with
        work := some { id := id, desc := desc, area := s.workArea }, dirty := [], writing := none, compact := none,
        line := SMap.empty, seq := 1, head := 0, used := 0,
        base := (s.map.base.set none 0 (some b)).set none 1 none }
      let s := ((s.wrN .MAP MAP_JRNL_SEQ 0).setBit .MAP MAP_STATUS 9 false).setBit .MAP MAP_STATUS 7 false
      done s.mapShow .ok)

/-- The cells of a line that returned a bus error, or whose check fails, are counted by WINDOW_READ. -/
def winBad (c : List Byte) : Bool := !cellGood c || c == poisonedCell

/-- WINDOW_READ (R366): whole cells in row-major order; those whose check fails are counted, with those of a line that returns
a bus error, which is written anew as R358 has it (DESIGN CHOICE, assumption log 162). -/
def execWindowRead (s : State) : Res :=
  ok (s.command .MAP 4 fun args s =>
    let i0 := fld (arg args 0) 11 0
    let j0 := fld (arg args 0) 28 16
    let w := fld (arg args 1) 10 0
    let h := fld (arg args 1) 26 16
    let dst := fld (arg args 3) 7 0 * 2 ^ 32 + fld (arg args 2) 31 6 * 64
    if w = 0 ∨ 1024 < w ∨ h = 0 ∨ 1024 < h ∨ 4096 < i0 + w ∨ 8192 < j0 + h then refuse s .badHeader
    else
      let s := s.linesRead ((upto h).flatMap (fun y => (upto w).map (fun x => (j0 + y) * 4096 + i0 + x)))
      let rows := (upto h).map (fun y => (upto w).map (fun x => s.cell ((j0 + y) * 4096 + i0 + x)))
      let bad := (rows.flatten.filter winBad).length
      let s := s.each ((upto h).zip rows) (fun s r => s.engStore (dst + r.1 * w * 32) r.2.flatten)
      done (s.wrN .MAP MAP_WIN_BAD bad) .ok)

/-- CAL_APPLY (R350, R351): the staged table is checked, and takes effect at the next tick. -/
def execCalApply (s : State) : Res :=
  ok (s.command .MAP 5 fun _ s =>
    let n := s.f .MAP MAP_CAL_N 3 0
    let x := fun k => s.f .MAP (MAP_CAL k) 15 0
    let good := decide (n ≤ 8) && (n == 0 || (s.rd .MAP (MAP_CAL 0) == 0 && (upto n).all (fun k => decide (x k < x (k + 1)))))
    if good then (s.putMap { s.map with staged := some (n, (upto 9).map (fun k => s.rd .MAP (MAP_CAL k))) }, none)
    else refuse s .badHeader)

/-- ZERO (R351). -/
def execMapZero (s : State) : Res :=
  ok (s.command .MAP 6 fun _ s =>
    let fin := s.f .MAP MAP_YIELD_SRC 4 0
    if s.rd .MAP MAP_SECTIONS = 0 ∧ s.f .MAP MAP_ELEV 15 0 * 10 ≤ s.rdN .AIO (AIO_FIN_FREQ fin) then
      (s.putMap { s.map with zero := some (s.now, 0, 0) }, none)
    else refuse s .refusedMode)

/-- ZERO_DONE (R351): the average of p over 5 s is written to MAP_ZERO, in µV; it takes in the ticks of the map engine, the readings of
AIN_A and AIN_B at other instants, and where there are none what the sources read at its end. -/
def execZeroDone (ps : List (Int × Int)) (s : State) : Res :=
  match s.map.zero with
  | some (t, _, _) =>
    let s := s.passTo (t + 5000000000)
    let s := s.zeroAdd ps
    let s := if (s.map.zero.getD (0, 0, 0)).2.1 = 0 then s.zeroTick else s
    let z := s.map.zero.getD (0, 1, 0)
    let avg := roundDiv (z.2.2 * 1000000) (65536 * z.2.1)
    ok (((s.putMap { s.map with zero := none }).wr .MAP MAP_ZERO (wordI avg)).cmdEndIf .MAP 6 .ok)
  | none => ok s

/-- A write of MAP_SECTIONS: a section switched on ends a running ZERO with ABORTED (R351). -/
def State.mapSections (s : State) : State :=
  if s.f .MAP MAP_SECTIONS 15 0 ≠ 0 then (s.putMap { s.map with zero := none }).cmdEndIf .MAP 6 .aborted else s

/-- CLEAR_COUNTS of MAP. -/
def execMapClearCounts (s : State) : Res :=
  ok (s.command .MAP 7 fun args s =>
    let s := if bitOf (arg args 0) 0 then
      ((s.wr .MAP MAP_ERRS 0).putMap { s.map with lostPose := 0, lostFlow := 0 }) else s
    let s := if bitOf (arg args 0) 1 then s.wr .MAP MAP_WIN_BAD 0 else s
    done s.mapShow .ok)

/-- The power-loss sequencer writes the current list as entries of KIND 3, at most `n` of them; a compaction is abandoned
(R362). -/
def State.mapPowerLoss (s : State) (n : Nat) : State :=
  let s := s.putMap { s.map with
    compact := none, writing := none,
    dirty := mergeLists (s.map.writing.getD []) s.map.dirty }
  if s.map.work.isSome && s.emmcOk then State.flushDirty 3 n s else s

/-- A core reset stops the engine and discards the delay line; the region, the work area and the journal stay (R365). -/
def State.mapCoreReset (s : State) : State :=
  s.putMap { s.map with
    poses := [], line := SMap.empty, calN := 0, cal := [], sects := [], hits := [],
    staged := none, zero := none, outside := [], lostPose := 0, lostFlow := 0, compact := none, writing := none,
    dirty := mergeLists (s.map.writing.getD []) s.map.dirty }

/-- A power-on reset loses the work area, which lies in DRAM; the journal on the eMMC stays. -/
def State.mapPowerOn (s : State) : State :=
  s.putMap { base := s.map.base, seq := s.map.seq, head := s.map.head, used := s.map.used }

end Sys2Proof.Machine
end

