-- ==== Sys2Proof/Machine/Panel.lean ====
section
/-! DEFINITION. The cab panel: link version, refreshes and flips, uniformity, rails, power-up and power-down, backlight and
the panel bus (PNL, R367–R383). -/

namespace Sys2Proof.Machine

/-- STATE of the panel: 0 OFF, 1 STARTING, 2 RUN, 3 STOPPING, 4 NOT_DRIVEN. -/
def State.pnlState (s : State) : Nat := s.f .PNL PNL_STATUS 2 0

/-- Change the panel's record. -/
def State.pnlMod (s : State) (f : Pnl → Pnl) : State := s.putPnl (f s.pnl)

/-- A number in the identity header. -/
def hdrN (h : List Byte) (o n : Nat) : Nat := leNat ((h.drop o).take n)

/-- The identity header passes its check (R367). -/
def hdrOk (h : List Byte) : Bool := hdrN h 0 4 == 0x494C4E50 && hdrN h 252 4 == crc32c (h.take 252)

/-- The agreed link version (R367): the highest major in both ranges, with the panel's minor at its maximum. -/
def linkVersion (h : List Byte) : Option (Nat × Nat) :=
  let lo := hdrN h 4 1
  let hi := hdrN h 5 1
  match ([3, 2, 1] : List Nat).find? (fun k => decide (lo ≤ k) && decide (k ≤ hi)) with
  | some k => some (k, if k = hi then hdrN h 6 1 else 0)
  | none => none

/-- The agreed major, 0 none. -/
def State.pnlMajor (s : State) : Nat := s.f .PNL PNL_VERSION 15 8

/-- The refresh divider in force: 1–60, and at most 2 under major 1 (Table 15-2). -/
def State.pnlN (s : State) : Nat :=
  let n := clampN 1 60 (s.f .PNL PNL_REFRESH 5 0)
  if s.pnlMajor = 1 then min 2 n else n

/-! ## Rails (R375, R376) -/

/-- The curve of a rail (0 VGH, 1 VGL, 2 VCOM) from the identity header. -/
def hdrCurve (h : List Byte) (c : Nat) : List (Int × Int) :=
  (upto 8).map (fun k => let o := 64 + 24 * c + 3 * k; (toSigned 8 (hdrN h o 1), toSigned 16 (hdrN h (o + 1) 2)))

/-- The curve of a rail from PNL_CURVE. -/
def State.regCurve (s : State) (c : Nat) : List (Int × Int) :=
  (upto 8).map (fun k => let w := s.rd .PNL (PNL_CURVE c k); (sfld w 23 16, sfld w 15 0))

/-- The points have strictly increasing temperatures. -/
def rising : List (Int × Int) → Bool
  | a :: b :: t => decide (a.1 < b.1) && rising (b :: t)
  | _ => true

/-- A curve's value in mV at a temperature in 0.1 °C: linear between points, held beyond the ends. -/
def curveAt (t : Int) : List (Int × Int) → Int
  | a :: b :: r =>
    if t ≤ 10 * a.1 then a.2
    else if t ≤ 10 * b.1 then a.2 + roundDiv ((b.2 - a.2) * (t - 10 * a.1)) (10 * (b.1 - a.1)).toNat
    else curveAt t (b :: r)
  | [a] => a.2
  | [] => 0

/-- The range of a rail in mV (Table 1-11). -/
def railRange (c : Nat) : Int × Int := match c with | 0 => (18000, 28000) | 1 => (-10000, -4000) | _ => (0, 10000)

/-- The target of a rail at a temperature. -/
def railAt (curves : List (List (Int × Int))) (t : Int) (c : Nat) : Int :=
  clampI (railRange c).1 (railRange c).2 (curveAt t (curves.getD c []))

/-- The target that a rail (0 AVDD, 1 VGH, 2 VGL, 3 VCOM) stands at. -/
def State.railTarget (s : State) (r : Nat) : Int := sfld (s.rd .PNL (PNL_RAIL_STATUS r)) 31 16

/-- Set a rail's target. -/
def State.setRail (s : State) (r : Nat) (mv : Int) : State := s.setF .PNL (PNL_RAIL_STATUS r) 31 16 (ofSigned 16 mv)

/-- PNL_TEMP shows TH7, housekeeping channel 15. -/
def State.pnlTemp (s : State) : State :=
  match s.hkpVal 15 with
  | some t => (s.wrN .PNL PNL_TEMP (0x80000000 + ofSigned 16 t)).pnlMod (fun p => { p with warm := true })
  | none => s.setBit .PNL PNL_TEMP 31 false

/-- At a FRAME_START each target moves towards its curve, by at most 200 mV, VCOM 20 mV; without a valid TH7 they hold
(R375). -/
def State.railsMove (s : State) : State :=
  let s := s.pnlTemp
  match s.hkpVal 15 with
  | none => s
  | some t => s.each (upto 3) (fun s c =>
    let step : Int := if c = 2 then 20 else 200
    let old := s.railTarget (c + 1)
    s.setRail (c + 1) (old + clampI (-step) step (railAt s.pnl.curves t c - old)))

/-- The rails come up at their targets; without a valid TH7 at the 25 °C value. -/
def State.railsUp (s : State) : State :=
  let s := s.pnlTemp
  let t := (s.hkpVal 15).getD 250
  (s.each (upto 3) (fun s c => s.setRail (c + 1) (railAt s.pnl.curves t c))).setRail 0 15600

/-- Every rail is off. -/
def State.railsOff (s : State) : State := s.each (upto 4) (fun s r => s.wrN .PNL (PNL_RAIL_STATUS r) 0)

/-! ## Backlight (R381, R382) -/

/-- The strings that drive: enabled and not faulted. -/
def State.blStrings (s : State) : List Nat :=
  (upto 6).filter (fun k => s.bit .PNL PNL_BL_CFG k && !s.bit .PNL PNL_BL_FLAGS k && !s.bit .PNL PNL_BL_FLAGS (8 + k))

/-- The forward voltages of the strings: until a row has measured them they are free values. -/
def State.blForward (s : State) : State :=
  if s.pnl.forward.isEmpty then
    s.each (upto 6) (fun s _ => (s.pnlMod (fun p => { p with forward := p.forward ++ [s.freeNat 48000] })).drawn)
  else s

/-- The backlight's BL_A, power and string currents: BL_A stands 0.8 V above the highest forward voltage of the driven strings,
at most at 48 V; P is held at 16 W by a lower current (R381). -/
def State.blShow (s : State) : State :=
  let ks := if s.pnlState = 2 then s.blStrings else []
  let s := if ks.isEmpty then s else s.blForward
  let top := ks.foldl (fun (m k : Nat) => max m (s.pnl.forward.getD k 0)) 0
  let s := s.setF .PNL PNL_BL_STATUS 31 16 (if ks.isEmpty then 0 else min 48000 (800 + top))
  let bla := s.f .PNL PNL_BL_STATUS 31 16
  let s := s.each ks (fun s k => s.setF .PNL (PNL_BL_S_STATUS k) 31 16 (bla - s.pnl.forward.getD k 0))
  let duty := min 1000 (s.f .PNL PNL_BL_LEVEL 25 16)
  let cur := min 1200 (s.f .PNL PNL_BL_LEVEL 11 0)
  let d := s.f .PNL PNL_BL_STATUS 31 16 * ks.length * duty
  let top := if d = 0 then cur else min cur (16000 * 10000000 / d)
  let s := s.setF .PNL PNL_BL_STATUS 15 0 (min 65535 (d * top / 10000000))
  let s := s.setBit .PNL PNL_BL_FLAGS 16 (decide (top < cur))
  let s := s.setBit .PNL PNL_STATUS 7 (!ks.isEmpty && top != 0 && duty != 0)
  s.each (upto 6) (fun s k => s.setF .PNL (PNL_BL_S_STATUS k) 15 0 (if ks.contains k then top else 0))

/-- BACKLIGHT (R382): a driven string found open or shorted is turned off. -/
def execPnlBacklight (k : Fin 6) (bla : Nat) (cath : List Nat) (s : State) : Res :=
  if s.pnlState ≠ 2 ∨ s.blStrings.contains k.val = false then ok s
  else
    let bla := min 48000 bla
    let s := s.each (upto 6) (fun s j => s.setF .PNL (PNL_BL_S_STATUS j) 31 16 (min 65535 (cath.getD j 0)))
    let s := s.pnlMod (fun p => { p with forward := (upto 6).map (fun j => bla - cath.getD j 0) })
    let v := cath.getD k.val 0
    let low := s.blStrings.foldl (fun (m j : Nat) => min m (cath.getD j 0)) v
    if v ≤ 300 ∧ 48000 ≤ bla then ok ((s.setBit .PNL PNL_BL_FLAGS k.val true).event .PNL 5).blShow
    else if low + 10000 ≤ v then ok ((s.setBit .PNL PNL_BL_FLAGS (8 + k.val) true).event .PNL 5).blShow
    else ok s.blShow

/-- BL_RESET (R382). -/
def execBlReset (s : State) : Res := ok (s.command .PNL 5 fun _ s => done (s.setF .PNL PNL_BL_FLAGS 15 0 0).blShow .ok)

/-! ## Uniformity (R373, R374) -/

/-- The corrected value of an input code (R373), from gain codes and offset codes at the three levels: exact, rounded to
nearest with ties to even, limited to 0–255. -/
def uniCorrect (l0 l1 l2 : Nat) (g : Nat → Nat) (o : Nat → Int) (v : Nat) : Nat :=
  let num := fun (a b x y : Int) (w d : Nat) => a * b * d + w * (x * y - a * b)
  let out := fun (n : Int) (d : Nat) =>
    let q := n / d
    let r := n % d
    (clampI 0 255 (if 2 * r < d then q else if (d : Int) < 2 * r then q + 1 else if q % 2 = 0 then q else q + 1)).toNat
  let flat := fun k => out ((v : Int) * (384 + g k) + 128 * o k) 512
  let mid := fun k lo hi =>
    let w := v - lo
    let d := hi - lo
    let gain := num 1 (384 + g k) 1 (384 + g (k + 1)) w d
    let ofs := num 1 (128 * o k) 1 (128 * o (k + 1)) w d
    out ((v : Int) * gain + ofs) (512 * d)
  if v ≤ l0 then flat 0 else if l2 ≤ v then flat 2 else if v < l1 then mid 0 l0 l1 else mid 1 l1 l2

/-- The size of a set of maps. -/
abbrev uniBytes : Nat := 41472000

/-- The map area in DRAM. -/
def State.uniBase (s : State) : Nat := s.f .PNL PNL_UNI_BASE_HI 7 0 * 2 ^ 32 + s.f .PNL PNL_UNI_BASE_LO 31 20 * 2 ^ 20

/-- The source of a load (R374, Table 15-7): 1 identity memory, 2 U08 matched, 3 U08 unmatched; none where the maps asked for
do not exist. Mode 0 chooses. -/
def State.uniSource (s : State) (mode : Nat) : Option Nat :=
  let h := s.pnl.hdr
  let own := hdrN h 140 4 == uniBytes
  match s.inUse 8 with
  | none => if own && mode != 2 then some 1 else none
  | some b =>
    let id := Config.u08Id (s.slotVer 8 b)
    let same := own && id.1 == hdrN h 8 8 && id.2.1 == hdrN h 144 4
    if mode = 2 then some (if same then 2 else 3)
    else if mode = 1 then (if own then some 1 else none)
    else if same then some 2
    else if own then some 1 else some 3

/-- LOADING and its progress. -/
def State.uniLoading (s : State) (on : Bool) (pc : Nat) : State :=
  (s.setBit .PNL PNL_UNI_STATUS 1 on).setF .PNL PNL_UNI_STATUS 23 16 pc

/-- A load starts. -/
def State.uniStart (s : State) (mode : Nat) (asked : Bool) : State × Option Result :=
  if mode = 3 then (s.pnlMod (fun p => { p with load := none, ready := some { src := 0, crc := 0 } }), none)
  else match s.uniSource mode with
    | some k => ((s.pnlMod (fun p => { p with load := some (k, asked) })).uniLoading true 0, none)
    | none => (s, some .badBlock)

/-- UNIFORMITY_LOAD_DONE (R374): the whole set is in DRAM and its CRC-32C checked; it comes into force at a FRAME_START. -/
def execUniformityLoadDone (maps : List Byte) (s : State) : Res :=
  match s.pnl.load with
  | none => ok s
  | some (k, _) =>
    let id := match s.inUse 8 with | some b => Config.u08Id (s.slotVer 8 b) | none => (0, 0, 0)
    let data := if k = 1 then (maps ++ List.replicate uniBytes 0).take uniBytes
      else match s.inUse 8 with
        | some b => s.slotBytes 8 b (slotPay 8 + id.2.2) uniBytes
        | none => []
    let want := if k = 1 then hdrN s.pnl.hdr 144 4 else id.2.1
    let s := (s.pnlMod (fun p => { p with load := none })).uniLoading false 100
    let s := s.engStore s.uniBase data
    if crc32c data = want then ok (s.pnlMod (fun p => { p with ready := some { src := k, crc := want, maps := data } }))
    else ok (s.cmdEndIf .PNL 3 .badBlock)

/-- A loaded set comes into force (R374). -/
def State.uniForce (s : State) : State :=
  match s.pnl.ready with
  | none => s
  | some u =>
    let s := s.pnlMod (fun p => { p with ready := none, set := if u.src = 0 then none else some u })
    let s := (s.setF .PNL PNL_UNI_STATUS 3 2 u.src).setBit .PNL PNL_UNI_STATUS 0 (u.src != 0)
    (s.wrN .PNL PNL_UNI_CRC u.crc).cmdEndIf .PNL 3 .ok

/-- UNIFORM_LOAD (Table 15-7). -/
def execUniformLoad (s : State) : Res :=
  ok (s.command .PNL 3 fun a s =>
    if s.pnlState ≠ 2 then refuse s .refusedMode else s.uniStart (fld (arg a 0) 1 0) true)

/-! ## The panel link (R368, Table 15-3) -/

/-- A packet on a lane: SYNC, TYPE, payload, and a CRC-16 over TYPE and payload, most significant byte first. -/
def linkPacket (typ : Nat) (payload : List Byte) : List LinkSym :=
  let body := leBytes 1 typ ++ payload
  let c := crc16 body
  .comma :: (body ++ leBytes 1 (c / 256) ++ leBytes 1 (c % 256)).map .byte

/-- The packets that begin a refresh on lane `l`: FRAME_START, on lane 0 the GATE block, and the column polarity pattern, sent
before line 0. Numbers of two bytes are little-endian (DESIGN CHOICE, assumption log 167). -/
def startPackets (l number : Nat) (polarity : Bool) (gate : List Byte) : List LinkSym :=
  linkPacket 0x10 (leBytes 2 number ++ leBytes 1 (b2n polarity)) ++ (if l = 0 then linkPacket 0x30 gate else []) ++
    linkPacket 0x40 [Config.columnPolarity polarity]

/-- The LINE packet of line `y` on lane `l`: its columns 240l to 240l + 239 of a corrected row. -/
def linePacket (l y : Nat) (row : List Byte) : List LinkSym := linkPacket 0x20 (leBytes 2 y ++ (row.drop (720 * l)).take 720)

/-- The pairs of gain and offset code of one row of a level's map. -/
def uniPairs : List Byte → List (Nat × Int)
  | g :: o :: t => (g.toNat, o.toInt) :: uniPairs t
  | _ => []

/-- A row's subpixels corrected with their codes at the three levels (R373). -/
def uniRow (l0 l1 l2 : Nat) : List Byte → List (Nat × Int) → List (Nat × Int) → List (Nat × Int) → List Byte
  | v :: vs, a :: as, b :: bs, c :: cs =>
    let pick := fun (k : Nat) => if k = 0 then a else if k = 1 then b else c
    BitVec.ofNat 8 (uniCorrect l0 l1 l2 (fun k => (pick k).1) (fun k => (pick k).2) v.toNat) :: uniRow l0 l1 l2 vs as bs cs
  | _, _, _, _ => []

/-- Row `y` after the correction stage, with the set in force; the default set leaves every code as it is. -/
def Pnl.corrected (p : Pnl) (y : Nat) (row : List Byte) : List Byte :=
  match p.set with
  | none => row
  | some u =>
    let level := fun k => uniPairs ((u.maps.drop ((k * 1200 + y) * 11520)).take 11520)
    uniRow (hdrN p.hdr 136 1) (hdrN p.hdr 137 1) (hdrN p.hdr 138 1) row (level 0) (level 1) (level 2)

/-- Rows of 5,760 bytes. -/
def rowsOf : Nat → List Byte → List (List Byte)
  | 0, _ => []
  | n + 1, bs => bs.take 5760 :: rowsOf n (bs.drop 5760)

/-- What lane `l` sends in a refresh of some rows. -/
def Pnl.lane (p : Pnl) (number : Nat) (polarity : Bool) (rows : List (List Byte)) (l : Nat) : List LinkSym :=
  startPackets l number polarity ((p.hdr.drop 16).take 16) ++
    ((upto 1200).zip rows).flatMap (fun r => linePacket l r.1 (p.corrected r.1 r.2))

/-- GATE_ALL_ON on every lane. -/
def gateAllOn : List (List LinkSym) := List.replicate 8 (linkPacket 0x31 [])

/-! ## Power-up and power-down (R377–R380) -/

/-- The panel's state takes a value. -/
def State.pnlSet (s : State) (st : Nat) : State := s.setF .PNL PNL_STATUS 2 0 st

/-- Commands that cannot complete once the panel leaves RUN or its start end ABORTED. -/
def State.pnlAbort (s : State) : State :=
  let s := (s.pnlMod (fun p => { p with load := none, ready := none })).uniLoading false 0
  if (s.mailOf .PNL).code = 1 ∨ (s.mailOf .PNL).code = 3 then s.cmdEnd .PNL .aborted else s

/-- The panel is off: rails off, backlight off, IL23 stopped. -/
def State.pnlOff (s : State) : State :=
  let s := ((s.railsOff.pnlSet 0).pnlMod (fun p => { p with step := 0, lanes := [], scan := none })).blShow
  let s := if s.islState 23 = 0 then s
    else ((s.setF .PACE (PACE_ISL_STATUS 23) 1 0 0).setBit .PACE (PACE_ISL_STATUS 23) 8 false).event .PACE 5
  s.cmdEndIf .PNL 2 .ok

/-- The power-down of Sequence 15-2 starts: backlight off; the refresh slots that follow carry it on. -/
def State.pnlDown (s : State) : State :=
  match s.pnlState with
  | 0 => s
  | 4 => s.pnlAbort.pnlOff
  | 3 => s
  | _ => ((s.pnlAbort.pnlSet 3).pnlMod (fun p => { p with step := 0 })).blShow

/-- The fast discharge (R379): GATE_ALL_ON on every lane, the rails shorted to PGND, backlight and AVDD off; a panel that is OFF
is not discharged again, and one that is not driven gets no packet (R367). -/
def State.pnlDischarge (s : State) : State :=
  if s.pnlState = 0 then s
  else if s.pnlState = 4 then s.pnlAbort.pnlOff
  else s.pnlAbort.pnlOff.pnlMod (fun p => { p with lanes := gateAllOn, allOn := true, shorted := true })

/-- The curves that PNL_START reads (R375). -/
def State.pnlCurves (s : State) (h : List Byte) : List (List (Int × Int)) :=
  (upto 3).map (fun c => if s.bit .PNL PNL_CFG 0 then s.regCurve c else hdrCurve h c)

/-- PNL_START (R367, R375, R377): checks, then the power-up of Sequence 15-1; the refresh slots carry it to RUN. -/
def execPnlStart (low : Bool) (hdr : List Byte) (s : State) : Res :=
  ok (s.command .PNL 1 fun _ s =>
    let s := s.setBit .PNL PNL_STATUS 4 low
    if s.mode = 0 then refuse s .refusedMode
    else if s.pnlState = 2 then refuse s .ok
    else if !low then refuse s .aborted
    else
      let h := (hdr ++ List.replicate 256 0).take 256
      let s := s.setBit .PNL PNL_STATUS 6 false
      if !hdrOk h then refuse s .badBlock
      else
        let s := s.wrN .PNL PNL_VERSION (hdrN h 5 1 * 2 ^ 24 + hdrN h 4 1 * 65536)
        let s := (s.wrN .PNL PNL_SERIAL_LO (hdrN h 8 4)).wrN .PNL PNL_SERIAL_HI (hdrN h 12 4)
        match linkVersion h with
        | none => refuse (s.pnlSet 4) .incompatible
        | some v =>
          let s := s.setF .PNL PNL_VERSION 15 0 (v.1 * 256 + v.2)
          let cs := s.pnlCurves h
          if cs.any (fun c => !rising c) then refuse s .badHeader
          else
            let s := s.pnlMod (fun p => { p with hdr := h, curves := cs, warm := false, step := 0, slots := 0, shorted := false })
            let s := ((s.railsUp.pnlSet 1).wrN .PNL PNL_FRAME_NO 0).islWakeOne 23 1
            (s, none))

/-- PNL_STOP (R378): it ends a running PNL_START with ABORTED, and powers the panel down. -/
def execPnlStop (s : State) : Res :=
  let s := if (s.mailOf .PNL).code = 1 then s.cmdEnd .PNL .aborted else s
  ok (s.command .PNL 2 fun _ s => if s.pnlState = 0 then done s .ok else (s.pnlDown, none) |> fun r =>
    if r.1.pnlState = 0 then (r.1, if (r.1.mailOf .PNL).code = 2 then some .ok else none) else r)

/-- PANEL_UNPLUG (R380). -/
def execPanelUnplug (s : State) : Res :=
  let s := s.setBit .PNL PNL_STATUS 4 false
  if s.pnlState = 0 then ok s else ok (s.pnlDischarge.event .PNL 3)

/-- PANEL_PLUG_IN (R380). -/
def execPanelPlugIn (s : State) : Res :=
  if s.bit .PNL PNL_STATUS 4 then ok s else ok ((s.setBit .PNL PNL_STATUS 4 true).event .PNL 3)

/-- RAIL (R376): a rail off its target by more than 5 %, VCOM by more than 200 mV. -/
def execPnlRail (r : Fin 4) (mv : Int) (s : State) : Res :=
  if s.pnlState ≠ 1 ∧ s.pnlState ≠ 2 then ok s
  else
    let t := s.railTarget r.val
    let s := s.setF .PNL (PNL_RAIL_STATUS r.val) 15 0 (ofSigned 16 mv)
    if (if r.val = 3 then 200 else t.natAbs / 20) < (mv - t).natAbs then
      ok ((s.setBit .PNL PNL_STATUS 6 true).event .PNL 4).pnlDown
    else ok s

/-! ## Flips and refreshes (R370–R372) -/

/-- PNL_SHOWN follows the buffers. -/
def State.pnlShow (s : State) : State :=
  let chk := match s.pnl.shown with | some (_, some _) => true | _ => false
  let b := fun (x : Option (Nat × Option Word)) => match x with | some p => p.1 | none => 0
  s.wrN .PNL PNL_SHOWN (8 * b2n chk + 4 * b2n s.pnl.flip.isSome + 2 * b s.pnl.flip + b s.pnl.shown)

/-- A write of PNL_FLIP (R370): a second flip before a FRAME_START replaces the first. -/
def State.pnlFlip (s : State) (v : Word) : State :=
  let s := if s.pnl.flip.isSome then s.incF .PNL PNL_COUNTS 15 0 1 else s
  let crc := if bitOf v 8 then some (s.rd .PNL PNL_FLIP_CRC) else none
  (s.pnlMod (fun p => { p with flip := some (fld v 0 0, crc) })).pnlShow

/-- PNL_FLIP_WRITE (R370). -/
def execPnlFlipWrite (v : Word) (s : State) : Res := ok (s.pnlFlip v)

/-- A pending flip takes effect. -/
def State.flipTake (s : State) : State :=
  match s.pnl.flip with
  | some f => ((s.pnlMod (fun p => { p with shown := some f, flip := none })).pnlShow).event .PNL 1
  | none => s

/-- The 1,200 rows of the shown buffer, without stride padding. -/
def State.shownRows (s : State) (b : Nat) : List Byte :=
  let base := if b = 0 then s.f .PNL PNL_FB0_BASE_HI 7 0 * 2 ^ 32 + s.f .PNL PNL_FB0_BASE_LO 31 6 * 64
    else s.f .PNL PNL_FB1_BASE_HI 7 0 * 2 ^ 32 + s.f .PNL PNL_FB1_BASE_LO 31 6 * 64
  let stride := clampN 90 1023 (s.f .PNL PNL_FB_STRIDE 15 6) * 64
  (upto 1200).flatMap (fun y => s.rdBytes (base + y * stride) 5760)

/-- The link sends a refresh: the shown buffer read whole, or black; with a buffer that was flipped with CHECK, the CRC-32 of
the bytes read, before correction (R368, R370, R372). -/
def State.sendRefresh (s : State) (black : Bool) : State :=
  let number := s.rdN .PNL PNL_FRAME_NO
  let polarity := s.bit .PNL PNL_STATUS 8
  let src := if black then none else s.pnl.shown
  let bytes := match src with
    | some (b, _) => s.shownRows b
    | none => List.replicate 6912000 0
  let scan := match src with
    | some (_, some want) => some (crc32 bytes, want)
    | _ => none
  s.pnlMod (fun p => { p with
    lanes := (upto 8).map (p.lane number polarity (rowsOf 1200 bytes)), scan := scan, allOn := false })

/-- A FRAME_START of a refresh (R369, R371): polarity, number, N in effect, rails, VSYNC, and the refresh on the link. -/
def State.frameStart (s : State) (black : Bool) : State :=
  let s := s.setBit .PNL PNL_STATUS 8 (!s.bit .PNL PNL_STATUS 8)
  let s := s.wrN .PNL PNL_FRAME_NO (s.rdN .PNL PNL_FRAME_NO + 1)
  let n := s.pnlN
  let s := (s.pnlMod (fun p => { p with slots := 0, n := n })).setBit .PNL PNL_STATUS 5 (decide (1 < n))
  ((s.railsMove).event .PNL 0).sendRefresh black

/-- GATE_ALL_ON is sent on every lane: every gate line conducts until the next FRAME_START. -/
def State.sendAllOn (s : State) : State := s.pnlMod (fun p => { p with lanes := gateAllOn, allOn := true, scan := none })

/-- The slot of the first refresh of a power-up: STATE RUN, PNL_START ends OK, the uniformity load starts. -/
def State.pnlRun (s : State) : State :=
  let s := (((s.flipTake.frameStart false).pnlSet 2).blShow)
  (s.uniStart 0 false).1.cmdEndIf .PNL 1 .ok

/-- VSYNC (R371, Sequences 15-1 and 15-2): one refresh slot, while IL23 runs. A power-up sends two refreshes of black and
then its first refresh; a power-down one of black, one with every gate on, and then it is off. -/
def execVsync (s : State) : Res :=
  if s.islState 23 ≠ 2 then ok s
  else match s.pnlState with
    | 1 =>
      let k := s.pnl.step
      let s := s.pnlMod (fun p => { p with step := k + 1 })
      if k < 2 then ok (s.frameStart true) else ok s.pnlRun
    | 2 =>
      let k := s.pnl.slots + 1
      if s.pnl.n ≤ k ∨ (s.bit .PNL PNL_CFG 1 = true ∧ s.pnl.flip.isSome = true) then
        ok (s.uniForce.flipTake.frameStart false)
      else ok (s.pnlMod (fun p => { p with slots := k, lanes := [] }))
    | 3 =>
      let k := s.pnl.step
      let s := s.pnlMod (fun p => { p with step := k + 1 })
      if k = 0 then ok (s.frameStart true) else if k = 1 then ok (s.setRail 3 0).sendAllOn else ok s.pnlOff
    | _ => ok s

/-- FRAME_CRC (R372): at the end of the active scan of a checked buffer its CRC is compared. -/
def execFrameCrc (s : State) : Res :=
  match s.pnlState, s.pnl.scan with
  | 2, some (c, want) =>
    let s := (s.wrN .PNL PNL_CRC_LAST c).pnlMod (fun p => { p with scan := none })
    if c = want.toNat then ok s else ok ((s.incF .PNL PNL_COUNTS 31 16 1).event .PNL 2)
  | _, _ => ok s

/-! ## The panel bus and the rest (R367, R383) -/

/-- TOUCH (R383). -/
def execPnlTouch (s : State) : Res := ok (s.event .PNL 6)

/-- LINK_ERR_READ (Table 15-2): under major 3 the driver's CRC errors enter PNL_LINK_ERR. -/
def execLinkErrRead (n : Nat) (s : State) : Res :=
  if s.pnlMajor = 3 ∧ s.pnlState = 2 then ok (s.wrN .PNL PNL_LINK_ERR (satAdd 0xFFFFFFFF (s.rdN .PNL PNL_LINK_ERR) n)) else ok s

/-- I2C_XFER (R383): the bytes at the DRAM address are written on the bus, and what the device answers goes to the address + 32. -/
def execI2cXfer (ack : Bool) (data : List Byte) (s : State) : Res :=
  ok (s.command .PNL 4 fun a s =>
    let x := arg a 0
    let at_ := fld (arg a 2) 7 0 * 2 ^ 32 + fld (arg a 1) 31 6 * 64
    let n := fld x 21 16
    if 32 < fld x 13 8 ∨ 32 < n then refuse s .badHeader
    else if fld x 6 0 = 0x50 ∧ 4 < fld x 13 8 then refuse s .locked
    else
      let s := s.pnlMod (fun p => { p with bus := some (fld x 6 0, s.rdBytes at_ (fld x 13 8)) })
      if !ack then refuse s .aborted
      else done (s.engStore (at_ + 32) ((data ++ List.replicate n 0).take n)) .ok)

/-- CLEAR_COUNTS (Table 15-7). -/
def execPnlClearCounts (s : State) : Res :=
  ok (s.command .PNL 6 fun a s =>
    let s := if bitOf (arg a 0) 0 then s.wrN .PNL PNL_COUNTS 0 else s
    done (if bitOf (arg a 0) 1 then s.wrN .PNL PNL_LINK_ERR 0 else s) .ok)

/-- The panel at a core reset: discharged, and every register at its reset value (R379). -/
def State.pnlCoreReset (s : State) : State :=
  let s := s.pnlDischarge
  (s.resetWindow .PNL (fun _ => false)).putPnl { lanes := s.pnl.lanes, allOn := s.pnl.allOn, shorted := s.pnl.shorted }

end Sys2Proof.Machine
end

