-- ==== Sys2Proof/Machine/Storage.lean ====
section
/-! DEFINITION. The storage queue of SYS (R151–R153, Table 6-3): requests in DRAM, checked, executed one at a time in order,
and ended at the power-loss declaration. -/

namespace Sys2Proof.Machine

/-! ## The ring -/

/-- The number of entries of the ring, 2^4–2^10. -/
def State.stqSize (s : State) : Nat := 2 ^ clampN 4 10 (s.f .SYS SYS_STQ_CFG 3 0)

/-- The base of the ring. -/
def State.stqBase (s : State) : Nat := s.f .SYS SYS_STQ_BASE_HI 7 0 * 2 ^ 32 + s.f .SYS SYS_STQ_BASE_LO 31 6 * 64

/-- The requests not yet completed; a HEAD too far ahead is taken as TAIL plus the ring's size (R151). -/
def State.stqHeld (s : State) : Nat :=
  min s.stqSize ((s.f .SYS SYS_STQ_HEAD 15 0 + 65536 - s.f .SYS SYS_STQ_TAIL 15 0) % 65536)

/-- The address of the request at TAIL. -/
def State.stqAddr (s : State) : Nat := s.stqBase + s.f .SYS SYS_STQ_TAIL 15 0 % s.stqSize * 64

/-- The queue starts the request at TAIL when it is enabled, none is under way and no power loss is declared: RESULT reads 0xFF
while it executes. -/
def State.stqKick (s : State) : State :=
  if s.bit .SYS SYS_STQ_CFG 8 && s.stq.isNone && decide (0 < s.stqHeld) && !s.bit .PWR PWR_STATUS 15 then
    (s.engStore (s.stqAddr + 3) [0xFF]).putStq (some { addr := s.stqAddr, atTail := true })
  else s

/-! ## Requests (Table 6-3, R152) -/

/-- A storage request's fields. -/
structure StqReq where
  op : Nat
  dev : Nat
  signal : Bool
  count : Nat
  off : Nat
  addr : Nat

/-- The request at an address. -/
def State.stqReq (s : State) (a : Nat) : StqReq :=
  let b := s.rdBytes a 32
  let n := fun o k => leNat ((b.drop o).take k)
  { op := n 0 1, dev := n 1 1, signal := (n 2 1).testBit 0, count := n 4 4, off := n 8 8, addr := n 16 8 }

/-- The size of a device in bytes. -/
def devSize (d : Nat) : Nat := match d with | 0 => 128000000000 | 1 => 64 * mib | _ => 16 * mib

/-- Where a request acts in its device: an ERASE on the sector that holds its offset. -/
def StqReq.range (r : StqReq) : Nat × Nat :=
  if r.op = 3 then (r.off / 65536 * 65536, 65536) else if r.op = 4 then (0, 0) else (r.off, r.count)

/-- The arguments stand within Table 6-3 and the range within the device. -/
def StqReq.ok (r : StqReq) : Bool :=
  let d := r.dev
  let fits := decide (r.range.1 + r.range.2 ≤ devSize d)
  let data := decide (r.addr + r.count ≤ 0x3E0000000)
  match r.op with
  | 1 | 2 =>
    let shape := match d with
      | 0 => decide (r.count % 512 = 0) && decide (r.count ≤ 16 * mib) && decide (r.off % 512 = 0)
      | 1 => r.op == 1 || (decide (1 ≤ r.count) && decide (r.off % 256 + r.count ≤ 256))
      | 2 => decide (1 ≤ r.count) && decide (r.count ≤ 65536)
      | _ => false
    shape && fits && data
  | 3 => decide (d = 1) && fits
  | 4 => decide (d = 0)
  | _ => false

/-- The user area of a device: its first byte and its size. -/
def State.userArea (s : State) (d : Nat) : Nat × Nat :=
  match d with
  | 0 => (s.rdN .SYS SYS_EMMC_USER_BASE * 512, s.rdN .SYS SYS_EMMC_USER_SIZE * 512)
  | 1 => (s.f .SYS SYS_NOR_USER 31 16 * 65536, s.f .SYS SYS_NOR_USER 15 0 * 65536)
  | _ => (s.f .SYS SYS_MRAM_USER 31 16 * 65536, s.f .SYS SYS_MRAM_USER 15 0 * 65536)

/-- The refusal of a request, in the order of R152. -/
def State.stqRefusal (s : State) (r : StqReq) : Option Result :=
  let u := s.userArea r.dev
  if !r.ok then some .badHeader
  else if (r.op = 2 ∨ r.op = 3) ∧ ¬(u.1 ≤ r.range.1 ∧ r.range.1 + r.range.2 ≤ u.1 + u.2) then some .locked
  else if (match r.dev with | 0 => s.emmcOk | 1 => s.norOk | _ => s.mramOk) = false then some .refusedTemp
  else none

/-- A request acts on its device; `bad`: the device reports an uncorrectable error on a read. A NOR WRITE clears bits only, and
a page that does not read back as written gives BAD_BLOCK. -/
def State.stqAct (s : State) (r : StqReq) (bad : Bool) : State × Result :=
  let base := if r.dev = 1 then norBase else mramBase
  match r.op with
  | 1 =>
    if bad then (s, .badBlock)
    else (s.store r.addr (if r.dev = 0 then s.emmcBytes r.off r.count else s.rdBytes (base + r.off) r.count), .ok)
  | 2 =>
    let d := s.rdBytes r.addr r.count
    if r.dev = 0 then (s.emmcPut r.off d, .ok)
    else if r.dev = 1 then
      let w := (List.zip (s.rdBytes (base + r.off) r.count) d).map (fun (p : Byte × Byte) => p.1 &&& p.2)
      (s.wrBytes (base + r.off) w, if w = d then .ok else .badBlock)
    else (s.wrBytes (base + r.off) d, .ok)
  | 3 => ((s.putMem (s.mem.keep (fun a => decide (a < norBase + r.range.1) || decide (norBase + r.range.1 + 65536 ≤ a)))), .ok)
  | _ => (s, .ok)

/-- A request ends: its result and time are written, TAIL advances past it, and its events are raised (R151). -/
def State.stqEnd (s : State) (q : StqRun) (signal : Bool) (res : Result) : State :=
  let s := (s.engStore (q.addr + 24) (leBytes 8 s.now)).engStore (q.addr + 3) (leBytes 1 res.code)
  let s := (if q.atTail then s.setF .SYS SYS_STQ_TAIL 15 0 (s.f .SYS SYS_STQ_TAIL 15 0 + 1) else s).putStq none
  let s := if signal then s.event .SYS 5 else s
  if res = .ok then s else s.event .SYS 6

/-- The bank of the NOR flash that holds an offset. -/
def norBank (o : Nat) : Nat := o / 0x2000000

/-- A read of `n` bytes from address `a` of the NOR read window waits: a request of the queue programs or erases its bank (R149). -/
def State.norBusy (s : State) (a : Nat) : Bool :=
  match s.stq, regionOf a with
  | some q, .nor =>
    let r := s.stqReq q.addr
    r.dev == 1 && (r.op == 2 || r.op == 3) && (s.stqRefusal r).isNone && norBank r.range.1 == norBank (a - norBase)
  | _, _ => false

/-! ## Meanings -/

/-- A write of SYS_STQ_HEAD (R151). -/
def State.stqHead (s : State) (v : Word) : State := (s.setF .SYS SYS_STQ_HEAD 31 0 (fld v 15 0)).stqKick

/-- STQ_HEAD_WRITE (R151). -/
def execStqHeadWrite (v : Word) (s : State) : Res := ok (s.stqHead v)

/-- A write of SYS_STQ_CFG: LOG2N clamped; TAIL follows HEAD when EN is written 1 (Table 6-6), past a request that runs as well: it
ends in its own entry and TAIL stays (DEDUCED, assumption log 133). -/
def State.stqCfg (s : State) (v : Word) : State :=
  let s := s.wrN .SYS SYS_STQ_CFG (b2n (bitOf v 8) * 256 + clampN 4 10 (fld v 3 0))
  if bitOf v 8 then
    (s.setF .SYS SYS_STQ_TAIL 15 0 (s.f .SYS SYS_STQ_HEAD 15 0)).putStq (s.stq.map (fun q => { q with atTail := false }))
  else s

/-- STQ_REQUEST_DONE (R151, R152): the request under way is checked, acts, and ends; the next one starts. -/
def execStqRequestDone (bad : Bool) (s : State) : Res :=
  match s.stq with
  | none => ok s
  | some q =>
    let r := s.stqReq q.addr
    match s.stqRefusal r with
    | some e => ok (s.stqEnd q r.signal e).stqKick
    | none =>
      let o := s.stqAct r bad
      ok (o.1.stqEnd q r.signal o.2).stqKick

/-- The power-loss declaration (R153): a NOR page program under way completes; any other request under way and those after it,
up to HEAD, end with ABORTED. -/
def State.stqLoss (s : State) : State :=
  let more := s.stq.isSome || s.bit .SYS SYS_STQ_CFG 8
  let s := match s.stq with
    | none => s
    | some q =>
      let r := s.stqReq q.addr
      if r.op = 2 ∧ r.dev = 1 ∧ (s.stqRefusal r).isNone = true then
        let o := s.stqAct r false
        o.1.stqEnd q r.signal o.2
      else s.stqEnd q r.signal .aborted
  s.each (upto (if more then s.stqHeld else 0))
    (fun s _ => s.stqEnd { addr := s.stqAddr, atTail := true } (s.stqReq s.stqAddr).signal .aborted)

end Sys2Proof.Machine
end

