-- ==== Sys2Proof/Machine/Sha.lean ====
section
/-! DEFINITION. SHA-256 (FIPS 180-4), the hash of .dxi images (R422). -/

namespace Sys2Proof.Machine

/-- The round constants, part 1. -/
def shaK1 : List Word :=
  [0x428A2F98, 0x71374491, 0xB5C0FBCF, 0xE9B5DBA5, 0x3956C25B, 0x59F111F1, 0x923F82A4, 0xAB1C5ED5,
   0xD807AA98, 0x12835B01, 0x243185BE, 0x550C7DC3, 0x72BE5D74, 0x80DEB1FE, 0x9BDC06A7, 0xC19BF174,
   0xE49B69C1, 0xEFBE4786, 0x0FC19DC6, 0x240CA1CC, 0x2DE92C6F, 0x4A7484AA, 0x5CB0A9DC, 0x76F988DA,
   0x983E5152, 0xA831C66D, 0xB00327C8, 0xBF597FC7, 0xC6E00BF3, 0xD5A79147, 0x06CA6351, 0x14292967]

/-- The round constants, part 2. -/
def shaK2 : List Word :=
  [0x27B70A85, 0x2E1B2138, 0x4D2C6DFC, 0x53380D13, 0x650A7354, 0x766A0ABB, 0x81C2C92E, 0x92722C85,
   0xA2BFE8A1, 0xA81A664B, 0xC24B8B70, 0xC76C51A3, 0xD192E819, 0xD6990624, 0xF40E3585, 0x106AA070,
   0x19A4C116, 0x1E376C08, 0x2748774C, 0x34B0BCB5, 0x391C0CB3, 0x4ED8AA4A, 0x5B9CCA4F, 0x682E6FF3,
   0x748F82EE, 0x78A5636F, 0x84C87814, 0x8CC70208, 0x90BEFFFA, 0xA4506CEB, 0xBEF9A3F7, 0xC67178F2]

/-- The initial hash value. -/
def shaH : List Word :=
  [0x6A09E667, 0xBB67AE85, 0x3C6EF372, 0xA54FF53A, 0x510E527F, 0x9B05688C, 0x1F83D9AB, 0x5BE0CD19]

/-- Rotation to the right. -/
def rotr (w : Word) (n : Nat) : Word := w.rotateRight n

/-- The next word of the message schedule from the last 16, newest first. -/
def shaNext (ws : List Word) : Word :=
  let a := ws.getD 14 0
  let b := ws.getD 1 0
  (rotr b 17 ^^^ rotr b 19 ^^^ (b >>> 10)) + ws.getD 6 0 + (rotr a 7 ^^^ rotr a 18 ^^^ (a >>> 3)) + ws.getD 15 0

/-- The message schedule from its first 16 words, newest first. -/
def shaSchedule : Nat → List Word → List Word
  | 0, ws => ws
  | n + 1, ws => shaSchedule n (shaNext ws :: ws)

/-- One round on the eight working variables. -/
def shaRound (v : List Word) (k w : Word) : List Word :=
  let a := v.getD 0 0
  let b := v.getD 1 0
  let c := v.getD 2 0
  let e := v.getD 4 0
  let t1 := v.getD 7 0 + (rotr e 6 ^^^ rotr e 11 ^^^ rotr e 25) + ((e &&& v.getD 5 0) ^^^ (~~~e &&& v.getD 6 0)) + k + w
  let t2 := (rotr a 2 ^^^ rotr a 13 ^^^ rotr a 22) + ((a &&& b) ^^^ (a &&& c) ^^^ (b &&& c))
  [t1 + t2, a, b, c, v.getD 3 0 + t1, e, v.getD 5 0, v.getD 6 0]

/-- The rounds of a block. -/
def shaRounds (v : List Word) : List Word → List Word → List Word
  | k :: ks, w :: ws => shaRounds (shaRound v k w) ks ws
  | _, _ => v

/-- One block of 64 bytes on the hash value. -/
def shaBlock (h : List Word) (b : List Byte) : List Word :=
  let ws := (upto 16).map (fun i => wordN (leNat ((b.drop (4 * i)).take 4).reverse))
  let r := shaRounds h (shaK1 ++ shaK2) (shaSchedule 48 ws.reverse).reverse
  (upto 8).map (fun i => h.getD i 0 + r.getD i 0)

/-- `n` blocks. -/
def shaBlocks : Nat → List Word → List Byte → List Word
  | 0, h, _ => h
  | n + 1, h, bs => shaBlocks n (shaBlock h (bs.take 64)) (bs.drop 64)

/-- SHA-256 of some bytes: 32 bytes. -/
def sha256 (bs : List Byte) : List Byte :=
  let n := (bs.length + 72) / 64
  let pad := [(0x80 : Byte)] ++ List.replicate (64 * n - bs.length - 9) 0 ++ (leBytes 8 (8 * bs.length)).reverse
  (shaBlocks n shaH (bs ++ pad)).flatMap (fun w => (leBytes 4 w.toNat).reverse)

end Sys2Proof.Machine
end

