-- ==== Sys2Proof/Machine/Update.lean ====
section
/-! DEFINITION. Updates: the .dxi header and its checks, writing an image, activation and rollback, keys (UPD, R420–R436). -/

namespace Sys2Proof.Machine

/-! ## Slots (R421) -/

/-- The state of a slot set. -/
def State.slotSet (s : State) (r : Nat) (b : Bool) (st : Nat) : State :=
  let s := if b then s.setF .UPD (UPD_R_STATE r) 22 20 st else s.setF .UPD (UPD_R_STATE r) 18 16 st
  let use := s.slotState r true == 3 || s.slotState r true == 4
  s.setBit .UPD (UPD_R_STATE r) 0 use

/-- The version shown for a slot; 0 when EMPTY. -/
def State.verSet (s : State) (r : Nat) (b : Bool) (v : Nat) : State :=
  s.wrN .UPD (if b then UPD_R_VER_B r else UPD_R_VER_A r) v

/-- UPD_STATUS: the regions with a PENDING slot and those in TRIAL. -/
def State.updShow (s : State) : State :=
  s.each (upto 16) (fun s r =>
    let has := fun k => s.slotState r false == k || s.slotState r true == k
    (s.setBit .UPD UPD_STATUS (16 + r) (has 2)).setBit .UPD UPD_STATUS r (has 3))

/-- The slot that an update takes: the one not in use; with none in use the one that is WRITING or PENDING, else A. -/
def State.inactive (s : State) (r : Nat) : Bool :=
  match s.inUse r with
  | some b => !b
  | none => s.slotState r true == 1 || s.slotState r true == 2

/-- The slot of a region in state `st`. -/
def State.slotIn (s : State) (r st : Nat) : Option Bool :=
  if s.slotState r false = st then some false else if s.slotState r true = st then some true else none

/-! ## The header (R422, R423) -/

/-- A slot's header, 4,096 bytes. -/
def State.hdr (s : State) (r : Nat) (b : Bool) : List Byte := s.slotBytes r b (slotHdr r) 4096

/-- A number in a header. -/
def dxi (h : List Byte) (o n : Nat) : Nat := leNat ((h.drop o).take n)

/-- BLOCKS of a header. -/
def dxiBlocks (h : List Byte) : Nat := dxi h 0x18 4

/-- Test 1 of Table 18-4. -/
def dxiForm (r : Nat) (h : List Byte) : Bool :=
  dxi h 0 4 == 0x1A495844 && dxi h 4 2 == 1 && dxi h 0xA 1 == 1 && dxi h 0xB 1 == 12 && dxi h 0xFC 4 == crc32c (h.take 0xFC) &&
    dxi h 6 1 == r && (if r < 10 then dxi h 8 2 == 0x9400 else dxi h 8 2 != 0x9400) &&
    dxiBlocks h == (dxi h 0x14 4 + 4095) / 4096 && decide (dxi h 0x1C 1 ≤ 8)

/-- A key of the one-time area is revoked. -/
def State.revoked (s : State) (k : Nat) : Bool := s.bit .UPD UPD_KEYS (4 + k) || !s.bit .UPD UPD_KEYS k

/-- Test 4 of Table 18-4: the key stands and the signature over the header's hash is valid. -/
def State.dxiSigned (s : State) (h : List Byte) : Bool :=
  let k := dxi h 7 1
  decide (k < 4) && !s.revoked k && Config.sigValid k (sha256 (h.take 0x100)) ((h.drop 0x100).take 64)

/-- SEAL is in force for a region (R424). -/
def State.updSeal (s : State) (r : Nat) : Bool :=
  decide (r < 4) || s.bit .UPD (UPD_R_POLICY r) 2 || s.bit .UPD (UPD_R_POLICY r) 1

/-- The effective policy of a region, as UPD_R_POLICY reads (R424). -/
def State.updPolicy (s : State) (r : Nat) : Nat :=
  s.f .UPD (UPD_R_POLICY r) 1 0 + 4 * b2n (s.updSeal r)

/-- The header check of R423: the first test that fails. -/
def State.dxiCheck (s : State) (r : Nat) (h : List Byte) : Option Result :=
  if !dxiForm r h then some .badHeader
  else if slotSize r < (dxiBlocks h + 1) * 4096 then some .noSpace
  else if dxi h 0x10 4 < s.rdN .UPD (UPD_R_ARB_MIN r) ∨ (r < 4 ∧ 63 < dxi h 0x10 4) then some .locked
  else if s.updSeal r && !s.dxiSigned h then some .badSignature
  else none

/-- PAYLOAD_HASH matches the payload as stored. -/
def State.dxiHash (s : State) (r : Nat) (b : Bool) (h : List Byte) : Bool :=
  sha256 (s.slotBytes r b (slotPay r) (4096 * dxiBlocks h)) == (h.drop 0x80).take 32

/-- The SEAL of a slot, as a start-up checks it (R180). -/
def State.sealOk (s : State) (r : Nat) (b : Bool) : Bool :=
  let h := s.hdr r b
  dxiForm r h && decide ((dxiBlocks h + 1) * 4096 ≤ slotSize r) && s.dxiSigned h && s.dxiHash r b h

/-! ## Locks (R425, R428) -/

/-- The token of a region's lock, 0 none. -/
def State.updToken (s : State) (r : Nat) : Nat := s.f .UPD (UPD_R_LOCK r) 31 16

/-- Blocks received of the region's update. -/
def State.rxMask (s : State) (r : Nat) : Nat := s.upd.rx.get 0 r

/-- The lowest clear bit of a mask, from bit `k` on, among `n` bits. -/
def lowClear (m : Nat) : Nat → Nat → Nat
  | k, 0 => k
  | k, n + 1 => if m.testBit k then lowClear m (k + 1) n else k

/-- The received blocks set, with BLOCKS_RX and FIRST_MISSING. -/
def State.rxSet (s : State) (r m : Nat) : State :=
  let s := s.putUpd { s.upd with rx := s.upd.rx.set 0 r m }
  let n := slotSize r / 4096 + 1
  let s := s.wrN .UPD (UPD_R_FIRST_MISSING r) (lowClear m 0 n)
  s.wrN .UPD (UPD_R_BLOCKS_RX r) (bitsOf m n).length

/-- A lock taken or released; each change raises LOCK. -/
def State.lockSet (s : State) (r token src : Nat) : State :=
  (s.wrN .UPD (UPD_R_LOCK r) (token * 65536 + src * 256)).event .UPD 1

/-- An update ends with its slot in a state: the lock is released. -/
def State.updEnd (s : State) (r : Nat) (b : Bool) (st ver : Nat) : State :=
  (((s.slotSet r b st).verSet r b ver).rxSet r 0 |>.lockSet r 0 0).updShow

/-- The region's lock was taken, or its update received a block, now (R428). -/
def State.lockFed (s : State) (r : Nat) : State := s.putUpd { s.upd with fed := s.upd.fed.set 0 r s.clk.opsec }

/-- No new NOR program or erase starts in a power loss (R47). -/
def State.norHeld (s : State) (r : Nat) : Bool := regionNor r && s.pwr.phase == .loss

/-- The region's medium lies within its write window. -/
def State.mediumOk (s : State) (r : Nat) : Bool := if regionNor r then s.norOk else s.emmcOk

/-- A NOR slot is erased. -/
def State.slotErase (s : State) (r : Nat) (b : Bool) : State :=
  if regionNor r then
    let a := norBase + slotBase r b
    s.putMem (s.mem.keep (fun k => decide (k < a) || decide (a + slotSize r ≤ k)))
  else s

/-- BEGIN (R425, Table 18-5) for a region and source; `resumes`: RESUME is set and its token matches the lock's. In a power loss
no NOR slot is erased, and the command ends ABORTED (R47; the code is the model's, assumption log 172). -/
def State.updBegin (s : State) (r src : Nat) (resumes : Bool) : State × Result :=
  let b := s.inactive r
  if src = 0 then (s, .badHeader)
  else if s.mode = 6 then (s, .refusedMode)
  else if !s.mediumOk r then (s, .refusedTemp)
  else if s.slotState r b = 1 then
    if resumes && s.f .UPD (UPD_R_LOCK r) 9 8 == src then (s, .ok) else (s, .regionBusy)
  else if (s.slotIn r 3).isSome then (s, .regionBusy)
  else if s.norHeld r then (s, .aborted)
  else
    let t := 1 + s.freeNat 65534
    let s := ((s.drawn.slotSet r b 1).verSet r b 0).slotErase r b
    (((s.rxSet r 0).lockSet r t src).lockFed r |>.updShow, .ok)

/-- BEGIN (Table 18-12); a resumed update names its token by bits [15:1], since bit 16 of ARG0 is RESUME. -/
def execUpdBegin (s : State) : Res :=
  ok (s.command .UPD 1 fun a s =>
    let x := arg a 0
    let r := s.updBegin (fld x 3 0) (fld x 9 8) (bitOf x 16 && s.updToken (fld x 3 0) / 2 == fld x 31 17)
    (r.1, some r.2))

/-! ## Blocks (R424, R426, R427) -/

/-- Where block `k` stands in a slot. -/
def blockAt (r k : Nat) : Nat := if k = 0 then slotHdr r else slotPay r + (k - 1) * 4096

/-- The data that a slot holds after a write: NOR programming only clears bits. -/
def State.programmed (s : State) (r : Nat) (b : Bool) (o : Nat) (d : List Byte) : List Byte :=
  if regionNor r then (s.slotBytes r b o d.length).zipWith (fun x y => x &&& y) d else d

/-- The bytes of U06 at SEQ and COMMIT stay 0xFF (R426): they lie in payload block 16. -/
def u06Clear (k : Nat) (d : List Byte) : Bool :=
  k != 16 || (((d.drop 0xFF0).take 8).all (fun x => x == 0xFF) && d.getD 0xFFF 0 == 0xFF)

/-- WRITE_BLOCK (R424, R426): block `k` of the update with a token. `d`: the block, none where the read of its buffer meets a bus
error (R146), which is BAD_BLOCK; in a power loss no NOR slot is programmed (R47) (assumption log 172). -/
def State.updWrite (s : State) (r token k : Nat) (d : Option (List Byte)) (crc : Word) : State × Result :=
  let b := s.inactive r
  let pol := s.rd .UPD (UPD_R_POLICY r)
  let head := (s.rxMask r).testBit 0
  if s.slotState r b ≠ 1 ∨ s.updToken r ≠ token then (s, .regionBusy)
  else if slotSize r / 4096 ≤ k ∨ (head = true ∧ dxiBlocks (s.hdr r b) < k) then (s, .badHeader)
  else if !s.mediumOk r then (s, .refusedTemp)
  else if s.norHeld r then (s, .aborted)
  else match d with
  | none => (s, .badBlock)
  | some d =>
  if bitOf pol 1 && crc32c d != crc.toNat then (s, .badBlock)
  else if bitOf pol 0 && k != 0 && !head then (s, .badHeader)
  else if r = 6 ∧ u06Clear k d = false then (s, .badBlock)
  else match (if k = 0 ∧ bitOf pol 0 = true then s.dxiCheck r d else none) with
    | some e => (s.updEnd r b 0 0, e)
    | none =>
      let got := s.programmed r b (blockAt r k) d
      let s := s.slotPut r b (blockAt r k) got
      if got = d then ((s.rxSet r (s.rxMask r ||| 2 ^ k)).lockFed r, .ok) else (s, .badBlock)

/-- A refused block raises BLOCK_ERR (Table 18-11). -/
def State.blockErr (r : State × Result) : State × Result := if r.2 = .ok then r else (r.1.event .UPD 0, r.2)

/-- The DRAM address that ARG2 names. -/
def updAddr (w : Word) : Nat := fld w 7 0 * 2 ^ 32 + fld w 31 12 * 4096

/-- WRITE_BLOCK (Table 18-12). -/
def execUpdWriteBlock (s : State) : Res :=
  ok (s.command .UPD 2 fun a s =>
    let p := updAddr (arg a 2)
    let d := if s.engBad p 4096 then none else some (s.rdBytes p 4096)
    let r := State.blockErr (s.updWrite (fld (arg a 0) 3 0) (fld (arg a 0) 31 16) (fld (arg a 1) 20 0) d (arg a 3))
    (r.1, some r.2))

/-- FINISH (R427): every block received, then the header check and the payload's hash. -/
def State.updFinish (s : State) (r token : Nat) : State × Result :=
  let b := s.inactive r
  if s.slotState r b ≠ 1 ∨ s.updToken r ≠ token then (s, .regionBusy)
  else
    let h := s.hdr r b
    let m := s.rxMask r
    if m.testBit 0 = false ∨ (upto (dxiBlocks h + 1)).all (fun k => m.testBit k) = false then (s, .badHeader)
    else match s.dxiCheck r h with
      | some e => (s.updEnd r b 0 0, e)
      | none => if s.dxiHash r b h then (s.updEnd r b 2 (dxi h 0xC 4), .ok) else (s.updEnd r b 0 0, .badBlock)

/-- FINISH (Table 18-12). -/
def execUpdFinish (s : State) : Res :=
  ok (s.command .UPD 3 fun a s => let r := s.updFinish (fld (arg a 0) 3 0) (fld (arg a 0) 31 16); (r.1, some r.2))

/-- ABORT (R428): a WRITING update with the region's token, or any with 0xFFFF while PROTECT is open; a PENDING slot. With
nothing to abort it ends OK with no effect. -/
def State.updAbort (s : State) (r token : Nat) : State × Result :=
  let b := s.inactive r
  if s.slotState r b = 1 then
    if token = s.updToken r ∨ (token = 0xFFFF ∧ s.open .UPD = true) then (s.updEnd r b 0 0, .ok) else (s, .regionBusy)
  else if s.slotState r b = 2 then ((s.slotSet r b 0 |>.verSet r b 0).updShow, .ok)
  else (s, .ok)

/-- ABORT (Table 18-12). -/
def execUpdAbort (s : State) : Res :=
  ok (s.command .UPD 4 fun a s => let r := s.updAbort (fld (arg a 0) 3 0) (fld (arg a 0) 31 16); (r.1, some r.2))

/-- LOCK_IDLE_EXPIRED (R428): once a lock has received no block for UPD_LOCK_IDLE hours of operating time it is aborted. -/
def execLockIdleExpired (r : Fin 16) (s : State) : Res :=
  let b := s.inactive r.val
  if s.slotState r.val b = 1 then
    let due := s.upd.fed.get 0 r.val + 3600 * clampN 1 168 (s.f .UPD UPD_LOCK_IDLE 7 0)
    ok ((s.pass ((due - s.clk.opsec) * 1000000000)).updEnd r.val b 0 0)
  else ok s

/-- CONFIRM (R433): named TRIAL slots become ACTIVE and raise their region's minimum. -/
def State.updConfirm (s : State) (mask : Nat) : State :=
  (s.each (bitsOf mask 16) (fun s r =>
    match s.slotIn r 3 with
    | some b =>
      let arb := dxi (s.hdr r b) 0x10 4
      let s := (s.slotSet r b 4).wrN .UPD (UPD_R_ARB_MIN r) (max (s.rdN .UPD (UPD_R_ARB_MIN r)) arb)
      s.event .UPD 2
    | none => s)).updShow

/-- CONFIRM (Table 18-12). -/
def execUpdConfirm (s : State) : Res := ok (s.command .UPD 5 fun a s => done (s.updConfirm (fld (arg a 0) 15 0)) .ok)

/-- READ_BLOCK (R436, Table 18-12). -/
def execUpdReadBlock (s : State) : Res :=
  ok (s.command .UPD 6 fun a s =>
    let r := fld (arg a 0) 3 0
    let b := bitOf (arg a 0) 8
    let k := fld (arg a 1) 20 0
    if s.slotState r b = 0 ∨ s.slotState r b = 1 ∨ dxiBlocks (s.hdr r b) < k then refuse s .badHeader
    else done (s.engStore (updAddr (arg a 2)) (s.slotBytes r b (blockAt r k) 4096)) .ok)

/-- KEY_REVOKE (Table 18-12). -/
def execKeyRevoke (s : State) : Res :=
  ok (s.command .UPD 7 fun a s =>
    let k := fld (arg a 0) 1 0
    if s.mode ≠ 5 then refuse s .refusedMode
    else if arg a 1 ≠ 0xC35A then refuse s .locked
    else if (upto 4).all (fun j => j == k || s.revoked j) then refuse s .locked
    else done (s.setBit .UPD UPD_KEYS (4 + k) true) .ok)

/-! ## Activation (R430, R431) -/

/-- The rules of a header in use: TARGET, MIN, MAX. -/
def dxiRules (h : List Byte) : List (Nat × Nat × Nat) :=
  (upto (min 8 (dxi h 0x1C 1))).map (fun i => (dxi h (0x20 + 12 * i) 1, dxi h (0x24 + 12 * i) 4, dxi h (0x28 + 12 * i) 4))

/-- The version that a rule's target has in a set: a region's in `vs`, or an interface's recorded one. -/
def State.ruleVer (s : State) (vs : List (Option Nat)) (t : Nat) : Option Nat :=
  if t < 16 then vs.getD t none
  else if t < 32 then (let v := s.rdN .UPD (UPD_PARTNER_VER (t - 16)); if v = 0 then none else some v)
  else none

/-- The rules of a slot's image hold against a set of versions; a target without a version holds (R430). -/
def State.rulesHold (s : State) (vs : List (Option Nat)) (r : Nat) (b : Bool) : Bool :=
  (dxiRules (s.hdr r b)).all (fun (x : Nat × Nat × Nat) =>
    match s.ruleVer vs x.1 with
    | some v => decide (x.2.1 ≤ v) && decide (v ≤ x.2.2)
    | none => true)

/-- The version of the slot in use. -/
def State.useVer (s : State) (r : Nat) : Option Nat := (s.inUse r).map (fun b => s.slotVer r b)

/-- One pass of R430 over the regions of P in order: those whose rules fail leave P, and S takes the version they
replace. -/
def State.actPass (s : State) : List Nat → List Nat → List (Option Nat) → List Nat × List (Option Nat)
  | [], kept, vs => (kept, vs)
  | r :: t, kept, vs =>
    match s.slotIn r 2 with
    | some b => if s.rulesHold vs r b then s.actPass t (kept ++ [r]) vs else s.actPass t kept (vs.set r (s.useVer r))
    | none => s.actPass t kept vs

/-- Passes until none removes a region. -/
def State.actFix (s : State) : Nat → List Nat → List (Option Nat) → List Nat
  | 0, p, _ => p
  | n + 1, p, vs => let q := s.actPass p [] vs; if q.1.length = p.length then p else s.actFix n q.1 q.2

/-- The regions that activate (R430). -/
def State.actSet (s : State) : List Nat :=
  let p := (upto 16).filter (fun r => (s.slotIn r 2).isSome)
  let vs := (upto 16).map (fun r => match s.slotIn r 2 with | some b => some (s.slotVer r b) | none => s.useVer r)
  s.actFix 17 p vs

/-- The regions of `p` that the rules of `r` name. -/
def State.depends (s : State) (p : List Nat) (r : Nat) : List Nat :=
  match s.slotIn r 2 with
  | some b => p.filter (fun q => q != r && (dxiRules (s.hdr r b)).any (fun (x : Nat × Nat × Nat) => x.1 == q))
  | none => []

/-- The regions reached from some by dependence, in `n` steps. -/
def State.reach (s : State) (p : List Nat) : Nat → List Nat → List Nat
  | 0, l => l
  | n + 1, l => s.reach p n (l ++ (l.flatMap (s.depends p)).filter (fun q => !l.contains q) |>.eraseDups)

/-- The next region to activate (R431): the lowest that depends on none of the rest; within a cycle the lowest of it. -/
def State.actNext (s : State) (p : List Nat) : Option Nat :=
  match p.find? (fun r => (s.depends p r).isEmpty) with
  | some r => some r
  | none => match p.find? (fun r => (s.reach p 16 (s.depends p r)).contains r) with
    | some r => some r
    | none => p.head?

/-- The order of activation. -/
def State.actOrder (s : State) : Nat → List Nat → List Nat
  | 0, _ => []
  | n + 1, p => match s.actNext p with
    | some r => r :: s.actOrder n (p.erase r)
    | none => []

/-- SEQ of a drawer store copy (Table 7-5). -/
def State.drwSeq (s : State) (b : Bool) : Nat := leNat (s.slotBytes 6 b 0xFFF0 8)

/-- COMMIT of a drawer store copy. -/
def State.drwCommitted (s : State) (b : Bool) : Bool := s.slotBytes 6 b 0xFFFF 1 == [0x5A]

/-- One activation (R431): the new slot TRIAL, the old ACTIVE slot STANDBY, BOOTS 0; U06 also seals its copy with a higher
sequence number (R172). -/
def State.activate (s : State) (r : Nat) : State :=
  match s.slotIn r 2 with
  | none => s
  | some b =>
    let s := match s.inUse r with | some o => s.slotSet r o 5 | none => s
    let s := ((s.slotSet r b 3).setF .UPD (UPD_R_STATE r) 27 24 0).event .UPD 2
    if r = 6 then
      let q := if s.drwCommitted (!b) then s.drwSeq (!b) + 1 else 1
      (s.slotPut 6 b 0xFFF0 (leBytes 8 q)).slotPut 6 b 0xFFFF [0x5A]
    else s

/-- Step 7 of a start-up (R430, R431): the regions activated, in order. -/
def State.updActivate (s : State) : State × List Nat :=
  let l := s.actOrder 16 s.actSet
  ((s.each l State.activate).updShow, l)

/-! ## Boots and rollback (R432) -/

/-- A region is rolled back: REJECTED, the STANDBY slot ACTIVE, TRIAL raised, a ROLLBACK record; U06's copy is no longer
committed. -/
def State.rollOne (s : State) (r : Nat) (b o : Bool) : State :=
  let v := s.slotVer r b
  let s := ((s.slotSet r b 6).slotSet r o 4).event .UPD 2
  let s := if r = 6 then s.slotPut 6 b 0xFFFF [0x00] else s
  s.burEnter { code := 0x1180, severity := 5, d0 := wordN (r + v * 256), d1 := wordN (v / 2 ^ 24) }

/-- MISMATCH of a region. -/
def State.mismatch (s : State) (r : Nat) : State := s.setBit .UPD (UPD_R_STATE r) 23 true

/-- The rules of every image in use are checked after a rollback of `r`: a TRIAL region that fails is rolled back in turn, an
ACTIVE one is marked with the region rolled back. -/
def State.rollCheck (s : State) : Nat → Nat → State
  | 0, _ => s
  | n + 1, r =>
    let vs := (upto 16).map (fun q => s.useVer q)
    let bad := (upto 16).filter (fun q => match s.inUse q with | some b => !s.rulesHold vs q b | none => false)
    let s := s.each (bad.filter (fun q => (s.slotIn q 3).isNone)) (fun s q => (s.mismatch q).mismatch r)
    match bad.find? (fun q => (s.slotIn q 3).isSome && (s.slotIn q 5).isSome) with
    | some q => match s.slotIn q 3, s.slotIn q 5 with
      | some b, some o => (s.rollOne q b o).rollCheck n q
      | _, _ => s
    | none => s

/-- One boot of a TRIAL region at a start-up (R432): a fourth boot rolls it back; with no STANDBY slot it stays. -/
def State.updBoot (s : State) (r : Nat) : State :=
  match s.slotIn r 3 with
  | none => s
  | some b =>
    let k := s.f .UPD (UPD_R_STATE r) 27 24
    if k < 3 then s.setF .UPD (UPD_R_STATE r) 27 24 (k + 1)
    else match s.slotIn r 5 with
      | some o => ((s.rollOne r b o).rollCheck 16 r).updShow
      | none => s.mismatch r

/-- Step 5 of a start-up: a region whose records are absent has slot A ACTIVE and slot B EMPTY (R421). -/
def State.updLoad (s : State) : State :=
  if s.upd.recs then s
  else
    let s := s.each (upto 16) (fun s r =>
      let h := s.hdr r false
      ((s.slotSet r false 4).slotSet r true 0).verSet r false (if dxiForm r h then dxi h 0xC 4 else 0))
    (s.putUpd { s.upd with recs := true }).updShow

/-- UPD at a core reset (R421): slot states, versions, locks, bitmaps and minima live in MRAM, the keys and the recovery
receiver's registers outlive it. -/
def State.updCoreReset (s : State) : State :=
  (s.resetWindow .UPD (fun o => o == UPD_KEYS || o == UPD_RECOVERY || (decide (0x100 ≤ o) && decide (o < 0x300) && o % 0x20 != 0x18))).updShow

end Sys2Proof.Machine
end

