-- ==== Sys2Proof/Machine/Power.lean ====
section
/-! DEFINITION. Supply, holdup and power loss (PWR): the supply conditions, the holdup bank, the power-loss sequence with its
stores, the restoring of snapshots, and the PWR commands (R31–R53, R473, R474); also the housekeeping round's effects. -/

namespace Sys2Proof.Machine

/-! ## Status bits and the cut-off switches -/

/-- Change PWR's record. -/
def State.pwrMod (s : State) (f : Pwr → Pwr) : State := s.putPwr (f s.pwr)

/-- A bit of PWR_STATUS. -/
def State.pst (s : State) (i : Nat) : Bool := s.bit .PWR PWR_STATUS i

/-- Set a bit of PWR_STATUS. -/
def State.pstSet (s : State) (i : Nat) (v : Bool) : State := s.setBit .PWR PWR_STATUS i v

/-- The charger runs at a bank voltage (mV): BANK_TEMP_OK, the logic on BAT_M at 7.0 V or more with its input switch closed, the
bank below its float voltage, neither bled by command nor discharging into the load of R473 (R34, R38, R40). -/
def State.charging (s : State) (mv : Nat) : Bool :=
  s.pst 10 && s.pwr.phase == .run && !s.pwr.bled && s.pwr.load.isNone && decide (mv < 16000) && !s.pwr.inputOpen &&
    decide (7000 ≤ s.f .PWR (PWR_VOLT 0) 15 0)

/-- CHARGING follows its conditions at the bank's present voltage. -/
def State.chargeShow (s : State) : State := s.pstSet 11 (s.charging (s.f .PWR (PWR_VOLT 4) 15 0))

/-- What the logic runs from, with RIDE and LOSS_ACTIVE, and the charger that follows it (R34). -/
def State.setPhase (s : State) (p : Phase) : State :=
  (((s.pwrMod (fun x => { x with phase := p })).pstSet 14 (p == .ride)).pstSet 15 (p == .loss)).chargeShow

/-- The LIMP latch (SAF_STATUS.LIMP_LATCH, R170). -/
def State.limpLatch (s : State) : Bool := s.bit .SAF SAF_STATUS 7

/-- The BAT_V cut-off switch closes or opens. -/
def State.setBatv (s : State) (v : Bool) : State := (s.setBit .SAF SAF_STATUS 0 v).setBit .VLV VLV_CUTOFF 0 v

/-- The V00 cut-off switch closes or opens. -/
def State.setV00 (s : State) (v : Bool) : State := (s.setBit .SAF SAF_STATUS 1 v).setBit .VLV VLV_CUTOFF 1 v

/-- Both cut-off switches open. -/
def State.openCutoffs (s : State) : State := (s.setBatv false).setV00 false

/-! ## The holdup bank (R37–R39) -/

/-- Usable energy down to 6.0 V in 0.1 J, of a capacitance in mF at a voltage in mV. -/
def bankEnergy (c mv : Nat) : Nat := if mv ≤ 6000 then 0 else c * (mv * mv - 36000000) / 200000000

/-- The measured capacitance in mF. -/
def State.bankC (s : State) : Nat := s.f .PWR PWR_BANK_MEAS 31 16

/-- HOLDUP_ARMED takes a value, with ARMED_CHG on a change. -/
def State.setArmed (s : State) (v : Bool) : State :=
  if s.pst 9 = v then s else (s.pstSet 9 v).event .PWR 1

/-- BANK_TEST runs. -/
def State.bankTesting (s : State) : Bool := (s.mailOf .PWR).code == 1

/-- The conditions of R38 but the energy. -/
def State.armable (s : State) (mv : Nat) : Bool :=
  s.pst 10 && decide (15000 ≤ mv) && s.pst 12 && !s.pwr.bled && s.pwr.load.isNone && !s.bankTesting

/-- The bank's temperature (0.1 °C, none where its sensor is not valid) lies in its window, with the hysteresis of R34. -/
def bankTempOk (was : Bool) (temp : Option Int) : Bool :=
  match temp with
  | none => false
  | some t => if was then decide (-300 ≤ t) && decide (t ≤ 700) else decide (-270 ≤ t) && decide (t ≤ 670)

/-- The bank's voltage, temperature, BANK_TEMP_OK, charger and usable energy are shown (R34, R38). -/
def State.bankShow (s : State) (mv : Nat) (temp : Option Int) : State :=
  let s := ((s.wrN .PWR (PWR_VOLT 4) (min mv 65535)).wrN .PWR PWR_BANK_TEMP (ofSigned 16 (temp.getD 0))).pstSet 10
    (bankTempOk (s.pst 10) temp)
  s.chargeShow.wrN .PWR PWR_BANK_ENERGY (min 65535 (bankEnergy s.bankC mv))

/-- The bank holds 95 J usable at a voltage (R38). -/
def State.bankEnough (s : State) (mv : Nat) : Bool := decide (95 * 2000000000 ≤ s.bankC * (mv * mv - 36000000))

/-- BANK_WEAK, once per power cycle, where the energy alone keeps the bank from being armed (R39). -/
def State.bankWeak (s : State) (mv : Nat) : State :=
  if s.armable mv && !s.bankEnough mv && !s.pwr.weakArm then
    (s.pwrMod (fun x => { x with weakArm := true })).event .PWR 5
  else s

/-- The load of R473 starts towards a target (mV); the charger stops while it runs. -/
def State.loadStart (s : State) (mv : Nat) : State := (s.pwrMod (fun x => { x with load := some mv })).chargeShow

/-- The load of R473 is off, and the charger follows. -/
def State.loadStop (s : State) : State := (s.pwrMod (fun x => { x with load := none })).chargeShow

/-- The load of R473 stops where the bank stands at its target. -/
def State.loadCheck (s : State) (mv : Nat) : State :=
  match s.pwr.load with
  | some t => if mv ≤ t then s.loadStop else s
  | none => s

/-- The bank's voltage (mV) and temperature are evaluated: the load of R473, BANK_TEMP_OK, the charger, the usable energy, and
HOLDUP_ARMED (R34, R38, R39). -/
def State.bankEval (s : State) (mv : Nat) (temp : Option Int) : State :=
  let s := (s.loadCheck mv).bankShow mv temp
  (s.bankWeak mv).setArmed (s.armable mv && s.bankEnough mv)

/-- A measurement of the bank (mF, 0.1 mΩ): kept in MRAM, and BANK_WEAK once per power cycle below 120 J from 16.0 V (R37,
R39). -/
def State.bankMeasure (s : State) (c : Nat) (esr : Nat) : State :=
  let s := (s.wrN .PWR PWR_BANK_MEAS (c % 65536 * 65536 + esr % 65536)).pstSet 12 true
  let s := s.putNv { s.nv with bank := some (c % 65536, esr % 65536) }
  if s.bankC * (256000000 - 36000000) < 120 * 2000000000 ∧ s.pwr.weak = false then
    (s.pwrMod (fun x => { x with weak := true })).event .PWR 5
  else s

/-- The bank is disarmed. -/
def State.disarm (s : State) : State := s.setArmed false

/-! ## Snapshots (R48, R49, R318, R337) -/

/-- The clamp bins of a load channel, the present one first. -/
def State.clampBins (s : State) (n : Nat) : List Nat :=
  (upto 64).map (fun i => (s.lsw.ch.get {} n).bins.get 0 (s.lswBin - i))

/-- The snapshot that step 6 writes. -/
def State.snapshot (s : State) : Snap :=
  { pcc := s.clk.pcc, opsec := s.clk.opsec
    duty := (upto 32).map (fun n => (s.vch n).bins)
    clamp := (upto 40).map s.clampBins
    lock := (upto 40).map (fun n => (s.lswBit n 22, s.coolLeft n)) }

/-- A window's bins after an off-time of `t` seconds, for a window of `len` (R48). -/
def decayBins (t len : Nat) (bins : List Nat) : List Nat := bins.map (fun b => b * (len - t) / len)

/-- A total spread evenly over 64 bins (R49). -/
def spread (n : Nat) : List Nat := (upto 64).map (fun i => n * (i + 1) / 64 - n * i / 64)

/-- Set a load channel's clamp bins, the present one first. -/
def State.setClampBins (s : State) (n : Nat) (bins : List Nat) : State :=
  let m := (List.zip (upto 64) bins).foldl (fun (m : SMap Nat) (p : Nat × Nat) => m.set 0 (s.lswBin - p.1) p.2) SMap.empty
  let s := s.lchMod n (fun c => { c with bins := m })
  s.setF .LSW (LSW_CH_CLAMP_STATE n) 31 16 (min 65535 (s.lswSum n))

/-- Budgets, duty windows and locks come back at a start-up after `t` seconds off (R48), or stand fully spent where no snapshot
of the previous power cycle exists (R49); a module without history starts with them empty. -/
def State.restoreSnap (s : State) (t : Nat) : State :=
  if s.clk.pcc ≤ 1 then s
  else
    let snap := match s.nv.snap with
      | some p => if p.pcc + 1 = s.clk.pcc then some p else none
      | none => none
    let s := if snap.isSome then s else s.setBit .PWR PWR_LAST_LOSS 5 true
    let s := s.each (upto 32) (fun s n =>
      let len := max 1 (s.f .VLV (VLV_CH_DUTY_CFG n) 9 0)
      let bins := match snap with | some p => p.duty.getD n [] | none => spread (s.rdN .VLV (VLV_CH_DUTY_LIMIT n))
      (s.vchMod n (fun c => { c with bins := decayBins t len bins })).vlvDuty n)
    s.each (upto 40) (fun s n =>
      let bins := match snap with | some p => p.clamp.getD n [] | none => spread (s.f .LSW (LSW_CH_CLAMP_CFG n) 15 0)
      let s := s.setClampBins n (decayBins t 10 bins)
      match snap with
      | some p =>
        let l := p.lock.getD n (false, 0)
        if l.1 then (s.lswSet n 22 true).lchMod n (fun c => { c with coolTo := s.clk.up + (l.2 - t * 1000000000) }) else s
      | none => s)

/-! ## The stores (Sequence 2-1, steps 3–6) -/

/-- A step of the sequence is done. -/
def State.stepDone (s : State) (n : Nat) : State := s.pwrMod (fun x => { x with steps := x.steps ||| 2 ^ (n - 1) })

/-- A retention record goes to the always-on domain: the fifth overwrites the oldest (R52). -/
def State.retain (s : State) (r : BurRec) : State :=
  let l := s.aon.slots ++ [{ r with opsec := s.clk.opsec, pcc := s.clk.pcc, flags := 2 }]
  s.putAon { s.aon with slots := l.drop (l.length - 4) }

/-- A record written to the ring at once, ahead of the queue (R457, Sequence 2-1). -/
def State.burDirect (s : State) (r : BurRec) : State :=
  (s.putBur { s.bur with queue := r :: s.bur.queue }).burDrain

/-- Step 3: the queue, the patch, and in a power loss one POWER_LOSS record, which goes to a retention slot where MRAM lies
outside its window (R45). -/
def State.store3 (s : State) (loss : Option Nat) : State :=
  if s.mramOk then
    let s := s.burCommitAll
    let s := match loss with
      | some r => s.burDirect { code := 0x1680, severity := 5, opsec := s.clk.opsec, pcc := s.clk.pcc, d0 := wordN r }
      | none => s
    s.stepDone 3
  else match loss with
    | some r =>
      let lost := s.bur.queue.length
      s.retain { code := 0x1680, severity := 5, d0 := wordN (r + lost * 256), d1 := wordN (lost / 2 ^ 24) }
    | none => s

/-- Step 4: operating seconds, the power-cycle count, the GNSS ephemeris and the last position; slot states and the drawer
command stand in MRAM already. -/
def State.store4 (s : State) : State :=
  if s.mramOk then ((s.putNv { s.nv with counts := some (s.clk.opsec, s.clk.pcc) }).ephStore).stepDone 4 else s

/-- Step 6: the snapshots. -/
def State.store6 (s : State) : State :=
  if s.mramOk then (s.putNv { s.nv with snap := some s.snapshot }).stepDone 6 else s

/-! ## The power-loss sequence (R41–R47) -/

/-- The milliseconds since the ride-through or the declaration began, limited to 16 bits. -/
def State.sinceMs (s : State) : Nat := min 65535 ((s.clk.up - s.pwr.since) / 1000000)

/-- The rides through so far: one more, and the longest in ms. -/
def State.rideCount (s : State) : State :=
  let s := s.setF .PWR PWR_RIDE 31 16 (max s.sinceMs (s.f .PWR PWR_RIDE 31 16))
  s.incF .PWR PWR_RIDE 15 0 1

/-- What stops at the declaration (R42, R410): the Dumbwaiter, cameras, the Tabletop, GNSS, the backlight, the storage queue, the buses and links. -/
def State.lossStops (s : State) : State :=
  let s := s.stqLoss.dwStopAll.camDiscardAll.tblStopPower.gnsOff
  let s := s.each (upto 8) (fun s n => s.canStop n)
  s.each (upto 5) (fun s p => s.linkSet p false)

/-- Every valve and load channel takes its fail state. -/
def State.failAll (s : State) : State :=
  let s := s.each (upto 32) (fun s n => s.vlvFail n false)
  (s.each lswAll (fun s n => s.lswFailFree n)).vlvSettle

/-- Every channel is off. -/
def State.allOff (s : State) : State :=
  let s := s.each (upto 32) (fun s n => s.vlvOffNow n)
  s.each lswAll (fun s n => s.lswForceOff n)

/-- Channels 25, 26 and 27 are converted afresh (R454). -/
def State.hkpFresh (s : State) (t : List (Option Int)) : State :=
  (s.each (List.zip [25, 26, 27] t) (fun s p => s.hkpPublish p.1 p.2)).burShow

/-- Step 5 of the sequence runs: the bank is armed, JOURNAL_EN is 1 and the eMMC lies in its window (R43–R45). -/
def State.lossJournal (s : State) (armed : Bool) : Bool := armed && s.bit .PWR PWR_LOSS_CFG 8 && s.emmcOk

/-- The first `k` of the store steps 3, 4, 5 and 6 of an orderly key-off, from BAT_M; step 5 writes the whole list (R168). -/
def State.dormantStores (s : State) (k : Nat) : State :=
  let s := if 1 ≤ k then s.store3 none else s
  let s := if 2 ≤ k then s.store4 else s
  let s := if 3 ≤ k then
      if !s.emmcOk then s.pwrMod (fun x => { x with flags := x.flags ||| 0x10 })
      else if s.bit .PWR PWR_LOSS_CFG 8 then (s.mapPowerLoss 67108864).stepDone 5
      else s
    else s
  if 4 ≤ k then s.store6 else s

/-- The steps of the sequence after the declaration for a reason: 1–4, and step 6 where step 5 does not run (R42–R47). `sealed`:
how many of the store steps 3, 4, 5 and 6 an orderly key-off in progress has sealed, if one is: the sequencer continues from
the step in progress and repeats none of them; its steps 1 and 2 lie behind it, every channel being off. -/
def State.lossSteps (s : State) (reason : Nat) (sealed : Option Nat) : State :=
  let k := sealed.getD 0
  let s := s.lossStops
  let s := if sealed.isSome then s.openCutoffs.pnlDischarge
    else ((s.failAll.openCutoffs).stepDone 1).pnlDischarge.stepDone 2
  let s := s.putTim { s.tim with low := true }
  let s := if k = 0 || !s.mramOk then s.store3 (some reason) else s
  let s := if k ≤ 1 then s.store4 else s
  if s.pwr.journal || decide (4 ≤ k) then s else s.store6

/-- Power loss is declared for a reason (R42–R47): the stops, then steps 1–4; step 6 follows at once where step 5 does not
run. `t`: what the fresh conversion of channels 25–27 reads. How far the store steps of a key-off in progress had come is a
free value. -/
def State.declareLoss (s : State) (reason : Nat) (t : List (Option Int)) : State :=
  let armed := s.pst 9 || s.pwr.phase == .ride
  let s := if s.pwr.phase = .ride then s.rideCount else s
  let sealed := if s.sys.storing then some (s.freeNat 5) else none
  let s := match sealed with | some k => s.drawn.dormantStores k | none => s
  let s := (s.hkpFresh t).setPhase .loss
  let s := s.pwrMod (fun x => { x with
    since := s.clk.up, reason := reason, steps := if sealed.isSome then x.steps else 0
    flags := (if armed then 0 else 0x80) + (if s.emmcOk then 0 else 0x10)
    journal := s.lossJournal armed && decide (sealed.getD 0 < 3) })
  let s := s.putSys { s.sys with storing := false }
  (s.event .PWR 2).lossSteps reason sealed

/-! ## Supply conditions (R31–R36) -/

/-- The logic leaves BAT_M: for the bank where it is armed, else for the reserve (R35, R36). -/
def State.leaveBatM (s : State) : State :=
  if s.pwr.phase = .run then
    let s := s.pwrMod (fun x => { x with since := s.clk.up })
    if s.pst 9 then (s.setPhase .ride).event .PWR 0 else s.setPhase .reserve
  else s

/-- RIDE_START (R35); with the bank not armed the same dip goes to the reserve. -/
def execRideStart (s : State) : Res := ok (if s.pwr.phase = .run then (s.pstSet 2 true).leaveBatM else s)

/-- RIDE_RETURN (R35): the input switch is closed and BAT_M stood at 6.5 V for 20 ms. -/
def execRideReturn (dt : Nat) (s : State) : Res :=
  let s := s.pass dt
  if s.pwr.phase = .ride ∧ s.pwr.inputOpen = false then ok ((s.rideCount.pstSet 2 false).setPhase .run) else ok s

/-- RIDE_TIME_EXPIRED (R35): reason 2, or 3 with the input switch still open. -/
def execRideTimeExpired (dt : Nat) (t : List (Option Int)) (s : State) : Res :=
  let s := s.pass dt
  if s.pwr.phase = .ride then ok (s.declareLoss (if s.pwr.inputOpen then 3 else 2) t) else ok s

/-- RESERVE_RETURN (R35): no qualification is needed. -/
def execReserveReturn (s : State) : Res :=
  if s.pwr.phase = .reserve ∧ s.pwr.inputOpen = false then ok ((s.pstSet 2 false).setPhase .run) else ok s

/-- RESERVE_BRIDGE_EXPIRED (R35): reason 5, or 3 with the input switch still open. -/
def execReserveBridgeExpired (t : List (Option Int)) (s : State) : Res :=
  if s.pwr.phase = .reserve ∨ (s.pwr.phase = .run ∧ s.pst 9 = false) then
    ok (s.declareLoss (if s.pwr.inputOpen then 3 else 5) t)
  else ok s

/-- A collapse of BAT_M for a reason: a declaration while the logic runs; in DORMANT or a thermal shutdown nothing is left to
store, and the logic goes off. -/
def State.collapse (s : State) (reason : Nat) (t : List (Option Int)) : State :=
  match s.pwr.phase with
  | .run => s.declareLoss reason t
  | .ride => s.declareLoss reason t
  | .reserve => s.declareLoss reason t
  | .dormant => s.setPhase .off
  | .thermal => s.allOff.setPhase .off
  | .loss => s
  | .off => s

/-- COLLAPSE (R31). -/
def execCollapse (t : List (Option Int)) (s : State) : Res :=
  ok (((s.putAon { s.aon with collapse := true }).pstSet 2 true).collapse 1 t)

/-- The retention slot records REVERSE (Table 2-2): a power-loss record with reason 4, unless the sequence of this loss wrote one
there already, MRAM lying outside its window. `was`: what the logic ran from. -/
def State.retainReverse (s : State) (was : Phase) : State :=
  let r : BurRec := { code := 0x1680, severity := 5, d0 := 4 }
  match was with
  | .loss | .off => s
  | .dormant | .thermal => s.retain r
  | .run | .ride | .reserve => if s.mramOk then s.retain r else s

/-- REVERSE_BAT_M (R35). -/
def execReverseBatM (t : List (Option Int)) (s : State) : Res :=
  ok ((((s.putAon { s.aon with reverse := true }).pstSet 2 true).collapse 4 t).retainReverse s.pwr.phase)

/-- INPUT_OPEN (R35): OVERV is raised and the logic leaves BAT_M. -/
def execInputOpen (s : State) : Res :=
  ok (((s.pwrMod (fun x => { x with inputOpen := true })).event .PWR 3).leaveBatM)

/-- INPUT_SWITCH_CLOSE (R35). -/
def execInputSwitchClose (s : State) : Res := ok (s.pwrMod (fun x => { x with inputOpen := false }))

/-- GND_M_OPEN (R35): an offset (mV) above 0.3 V sets the bit and raises its event, one below clears it. -/
def execGndMOpen (mv : Nat) (s : State) : Res :=
  if 300 < mv then ok (if s.pst 7 then s else (s.pstSet 7 true).event .PWR 4) else ok (s.pstSet 7 false)

/-- OVERV (R31, R32): BAT_M (mV) above 16.0 V, or 32.0 V in a 24 V system. Table 2-1 gives no threshold for the warning's end: it
ends at or below the same one (DESIGN CHOICE, assumption log 120). -/
def execOverv (mv : Nat) (s : State) : Res :=
  let s := (s.wrN .PWR (PWR_VOLT 0) (min mv 65535)).chargeShow
  if (if s.pst 8 then 32000 else 16000) < mv then ok (if s.pst 6 then s else (s.pstSet 6 true).event .PWR 3)
  else ok (s.pstSet 6 false)

/-- FEED_LOW (R33): feed 0 LF1, 1 LF2, 2 V lies below 6.0 V while BAT_M is qualified. -/
def execFeedLow (f : Fin 3) (mv : Nat) (s : State) : Res :=
  if s.pwr.phase = .run ∧ s.pst (3 + f.val) = false ∧ mv < 6000 then
    ok (((s.wrN .PWR (PWR_VOLT (1 + f.val)) mv).pstSet (3 + f.val) true).event .PWR 6)
  else ok s

/-- FEED_LOW_CLEAR (R33); the valve functions go on when BAT_V is back (R27). -/
def execFeedLowClear (f : Fin 3) (mv : Nat) (s : State) : Res :=
  if 6500 ≤ mv then ok ((s.wrN .PWR (PWR_VOLT (1 + f.val)) (min mv 65535)).pstSet (3 + f.val) false).vlvBack else ok s

/-- A write of PWR_CFG: a SYS_SEL of 1 or 2 sets SYS24 at once (R32). -/
def State.pwrCfg (s : State) (v : Word) : State :=
  let s := s.wr .PWR PWR_CFG (v &&& 0x3001F)
  match fld v 17 16 with
  | 1 => s.pstSet 8 false
  | 2 => s.pstSet 8 true
  | _ => s

/-! ## The sequence's later steps -/

/-- JOURNAL_END (R43): step 5 is done with `n` entries written, truncated unless the list ended; then step 6. -/
def execJournalEnd (dt : Nat) (why : JournalEnd) (n : Nat) (s : State) : Res :=
  let s := s.pass dt
  if s.pwr.phase = .loss ∧ s.pwr.journal = true then
    let s := s.mapPowerLoss n
    let s := s.pwrMod (fun x => { x with journal := false, flags := if why = .listEnd then x.flags else x.flags + 0x40 })
    ok (s.stepDone 5).store6
  else ok s

/-- The flags of the loss summary: SNAP_FALLBACK where step 6 sealed no snapshot, so that the next start-up has none of this power
cycle (DEDUCED, assumption log 121). -/
def State.lossFlags (s : State) : Nat := if s.pwr.steps / 32 % 2 = 1 then s.pwr.flags else s.pwr.flags ||| 0x20

/-- The loss summary (R474). -/
def State.summary (s : State) (reason ms : Nat) : State :=
  s.putAon { s.aon with summary := some (reason * 2 ^ 24 + s.pwr.steps % 64 * 256 + s.lossFlags, ms) }

/-- SEQUENCER_END (R46, R474): every channel off, the bank bled, the summary, the logic off. -/
def execSequencerEnd (dt : Nat) (s : State) : Res :=
  let s := s.pass dt
  if s.pwr.phase = .loss ∧ s.pwr.journal = false then
    let s := s.allOff.disarm
    let s := (s.summary s.pwr.reason s.sinceMs).pstSet 11 false
    ok (s.setPhase .off)
  else ok s

/-! ## The bank's events and the PWR commands (Table 2-8) -/

/-- BANK_MEASUREMENT (R37): capacitance in mF and ESR in 0.1 mΩ, with the bank's voltage and temperature at that moment. That of a
BANK_TEST ends its discharge (Table 2-8). -/
def execBankMeasurement (c : BitVec 16) (esr : BitVec 16) (mv : Nat) (temp : Option Int) (s : State) : Res :=
  let s := s.bankMeasure c.toNat esr.toNat
  ok ((if s.bankTesting then s.loadStop else s).bankEval mv temp)

/-- ARMED_CHG (R38): the bank's voltage and temperature are evaluated. -/
def execArmedChg (mv : Nat) (temp : Option Int) (s : State) : Res := ok (s.bankEval mv temp)

/-- BANK_TEST (Table 2-8): the bank is disarmed and discharges to 12.0 V into the load of R473. -/
def execBankTest (s : State) : Res :=
  ok (s.command .PWR 1 fun _ s =>
    if s.mode ≠ 5 then refuse s .refusedMode
    else if !s.pst 10 then refuse s .refusedTemp
    else (s.disarm.loadStart 12000, none))

/-- BANK_TEST_COMPLETE (Table 2-8): R38 is evaluated again, and the command ends OK. -/
def execBankTestComplete (mv : Nat) (temp : Option Int) (s : State) : Res :=
  if s.bankTesting then
    let m := s.mailOf .PWR
    ok (((s.setMail .PWR {}).loadStop.bankEval mv temp).cmdShow .PWR m.code m.args .ok)
  else ok s

/-- BANK_BLEED (Table 2-8): the bank is disarmed and the load of R473 bleeds it below 6.0 V. The table gives the command no end of its
own: it ends OK once the bleed has begun (DESIGN CHOICE, assumption log 122). -/
def execBankBleed (s : State) : Res :=
  ok (s.command .PWR 2 fun _ s =>
    if s.mode ≠ 5 then refuse s .refusedMode
    else done ((s.pwrMod (fun x => { x with bled := true })).disarm.loadStart 5999) .ok)

/-- BANK_CHARGE (Table 2-8). -/
def execBankCharge (s : State) : Res :=
  ok (s.command .PWR 3 fun _ s =>
    if s.pwr.bled then
      done ((s.pwrMod (fun x => { x with bled := false })).loadStop) .ok
    else done s .ok)

/-- CLEAR_STATS (Table 2-8). -/
def execPwrClearStats (s : State) : Res :=
  ok (s.command .PWR 4 fun _ s => done ((s.wr .PWR PWR_RIDE 0).wr .PWR PWR_TORN 0) .ok)

/-! ## Housekeeping's effects on the other blocks -/

/-- A round is due (R452): PERIOD ms after the last one, or at once for a ROUND_NOW. -/
def State.hkpDue (s : State) : State :=
  match s.pwr.round with
  | some t => if (s.mailOf .HKP).code = 1 then s else s.pass (t + clampN 50 1000 (s.f .HKP HKP_CFG 9 0) * 1000000 - s.clk.up)
  | none => s

/-- HOUSEKEEPING_ROUND (R452): when a round is due and the core die has its supply, the channels are published and evaluated;
PWR_VOLT and the bank follow channels 32–37 and 24; the valve bands, the panel's temperature and a ROUND_NOW follow. -/
def execHousekeepingRound (readings : List (Option Int)) (s : State) : Res :=
  if s.pwr.phase = .off ∨ s.pwr.phase = .dormant ∨ s.pwr.phase = .thermal then ok s
  else
  let s := s.hkpDue
  let out := s.vlvSuspended
  let s := s.hkpRound readings
  let s := s.each (upto 6) (fun s n => match s.hkpVal (32 + n) with
    | some v => s.wrN .PWR (PWR_VOLT n) (min 65535 (v * 10).toNat)
    | none => s)
  let s := match s.hkpVal 36 with
    | some v => s.bankEval (v * 10).toNat (s.hkpVal 24)
    | none => s.chargeShow
  let s := if out then s.vlvBack else s
  ok ((s.vlvBandRound.pnlTemp).cmdEndIf .HKP 1 .ok)

/-- A reading causes a thermal shutdown (R455): a core site at 125.0 °C, or channel 30 or 31 at its HIGH_SHUT, clamped to
100.0–170.0 °C, while SHUT_EN is set (R453). -/
def State.thermalTrip (s : State) (k cause : Nat) (reading : Int) : Bool :=
  match cause with
  | 0 => decide (16 ≤ k) && decide (k ≤ 23) && decide (1250 ≤ reading)
  | c => k == 29 + c && s.bit .HKP (HKP_CH_CFG k) 31 &&
      decide (clampI 1000 1700 (sfld (s.rd .HKP (HKP_CH_HI k)) 31 16) ≤ reading)

/-- THERMAL_SHUTDOWN (R455–R457): channel `k`, cause 0 core, 1 valve stage, 2 load stage, and its reading; `t`: what the fresh
conversion of channels 25–27 reads. -/
def execThermalShutdown (k : Fin 64) (cause : Fin 3) (reading : Int) (t : List (Option Int)) (s : State) : Res :=
  match (if s.thermalTrip k.val cause.val reading then s.pwr.phase else .off) with
  | .run | .ride | .reserve =>
    let s := (s.hkpFresh t).pwrMod (fun x => { x with since := s.clk.up })
    let s := s.each (upto 32) (fun s n => s.vlvFail n (cause.val == 1))
    let s := s.each lswAll (fun s n => if cause.val = 2 then s.lswForceOff n else s.lswFailFree n)
    let s := s.vlvSettle.openCutoffs.pnlDischarge
    let r : BurRec := { code := 0x1380, severity := 7, opsec := s.clk.opsec, pcc := s.clk.pcc
                        d0 := wordN (k.val + cause.val * 256 + ofSigned 16 (clampI (-32768) 32767 reading) * 65536) }
    let s := if s.mramOk then (s.burDirect r).burCommitAll
      else ((s.retain r).putBur { s.bur with queue := [], heldLost := s.bur.heldLost + s.bur.queue.length }).burShow
    ok (s.setPhase .thermal)
  | _ => ok s

end Sys2Proof.Machine
end

