-- ==== Sys2Proof/Machine/Modes.lean ====
section
/-! DEFINITION. Operating modes (R165–R170): requests, automatic transitions and their entry actions, LIMP and safety faults,
key-off and DORMANT entry; also the relocking of perturbation (R469). -/

namespace Sys2Proof.Machine

/-! ## Small parts -/

/-- Change the record of modes and start-up. -/
def State.sysMod (s : State) (f : SysSt → SysSt) : State := s.putSys (f s.sys)

/-- IGN, WAKE and WAKE_SVC are all low. -/
def State.allLow (s : State) : Bool := !s.sys.ign && !s.sys.wake && !s.sys.wakeSvc

/-- A mode transition is in progress (SYS_MODE.TRANSITION). -/
def State.inTransition (s : State) : Bool := s.bit .SYS SYS_MODE 7

/-- A transition begins towards a mode, on a request or automatically. -/
def State.transBegin (s : State) (m : Nat) (auto : Bool) : State :=
  (s.setF .SYS SYS_MODE 7 4 (8 + m)).sysMod (fun x => { x with auto := auto })

/-- Perturbation is locked with every perturbation 0; RELOCKED is raised where anything was unlocked or active (R469). -/
def State.tstRelock (s : State) : State :=
  if s.rd .TST TST_STATUS = 0 then s
  else ((s.resetWindow .TST (fun o => decide (o < 0x100))).wrN .TST TST_STATUS 0).event .TST 0

/-- Machine function of a valve or load channel is permitted in a mode. -/
def State.vlvMay (s : State) (n mode : Nat) : Bool := mfPermitted mode (s.f .VLV (VLV_CH_CFG n) 31 27)
/-- The same for a load channel. -/
def State.lswMay (s : State) (n mode : Nat) : Bool := mfPermitted mode (s.f .LSW (LSW_CH_CFG n) 31 27)

/-- Table 7-1 permits steering automation: HARVEST, HEADLAND and UNLOAD. -/
def steers (mode : Nat) : Bool := mode == 2 || mode == 3 || mode == 4

/-- The lighting set of a mode. -/
def State.lights (s : State) (mode : Nat) : List Nat := if mode = 0 then [] else s.sys.cfg.lights.getD (mode - 1) []

/-- A lighting set is switched on or off, as the module itself (R339). -/
def State.lightsTo (s : State) (mode : Nat) (on : Bool) : State :=
  s.each ((s.lights mode).filter (fun n => n < 40)) (fun s n => s.lswEntry n (if on then 1 else 2))

/-! ## Entry actions (R167, Table 7-3) -/

/-- Channels go to their fail state: valves of `vs`, loads of `ls`. -/
def State.failSome (s : State) (vs ls : List Nat) : State :=
  let s := s.each vs (fun s n => s.vlvFail n false)
  (s.each ls (fun s n => s.lswFailFree n)).vlvSettle

/-- The entry actions on outputs; `spare`: channels claimed at step 9 of a core-reset start-up keep their state (R187). -/
def State.entryOutputs (s : State) (mode : Nat) (spare : Bool) : State :=
  let keepV := fun n => spare && s.bit .VLV VLV_CLAIMED n
  let keepL := fun n => spare && s.lswClaimed n
  match mode with
  | 0 => s
  | 5 => (s.failSome (upto 32) lswAll).tblStopMode
  | 6 => s.failSome (upto 32) (lswAll.filter (fun n => !s.sys.cfg.limp.contains n))
  | m =>
    let s := s.failSome ((upto 32).filter (fun n => !s.vlvMay n m && !keepV n)) (lswAll.filter (fun n => !s.lswMay n m && !keepL n))
    if m = 1 ∧ s.sys.ign = false then s
    else s.each ((s.lights m).filter (fun n => n < 40 && !keepL n)) (fun s n => s.lswEntry n 1)

/-- A BANK_TEST under way ends with ABORTED when the module leaves SERVICE, and charging resumes (R53). -/
def State.bankAbort (s : State) : State :=
  if s.bankTesting then s.loadStop.cmdEnd .PWR .aborted else s

/-- What other blocks do at a change of mode: loop actions, HOLDOVER_TEST, BANK_TEST, perturbation, cart coupling, and the V00
cut-off switch (R461). -/
def State.modeHooks (s : State) (old new : Nat) : State :=
  let s := (s.lpeMode old new).timMode new
  let s := if old = 5 ∧ new ≠ 5 then s.bankAbort.tstRelock else s
  let s := if new = 4 then s else s.putCart { s.cart with coupled := false }
  if steers new then (if steers old then s else s.setV00 true) else s.setV00 false

/-- Automatic rules of Table 7-2 on pin levels: IGN low in HARVEST, HEADLAND and UNLOAD, SVC_EN low in SERVICE. A requested
transition under way ends with ABORTED (R169). In a power-loss sequence, which runs to its end (R46), no rule acts. -/
def State.autoCheck (s : State) : State :=
  let m := s.mode
  if s.sys.active || s.sys.storing || s.pwr.phase == .loss || (s.inTransition && s.sys.auto) then s
  else if (steers m && !s.sys.ign) || (m == 5 && !s.sys.svcEn) then (s.cmdEndIf .SYS 1 .aborted).transBegin 1 true
  else s

/-- A mode is entered: its entry actions, the other blocks' reactions, SYS_MODE and MODE_CHG (R167). A request that led to it
ends OK. -/
def State.enterMode (s : State) (m : Nat) (spare : Bool) : State :=
  let old := s.mode
  let s := if spare then s else s.each (upto 32) (fun s n => s.vchMod n (fun c => { c with kept := false }))
  let s := s.setF .SYS SYS_MODE 7 0 (m * 16 + m)
  let s := (s.entryOutputs m spare).modeHooks old m
  let s := s.event .SYS 1
  let s := if s.sys.auto then s else s.cmdEndIf .SYS 1 .ok
  (s.sysMod (fun x => { x with auto := false })).autoCheck

/-! ## LIMP and safety faults (R170, R459, R463) -/

/-- LIMP is entered: the latch is set, both cut-off switches open, valve channels and the load channels outside the LIMP set take
their fail state, and the transition to LIMP begins; during DORMANT entry that entry goes on (R169), during a start-up LIMP is
entered at step 10 (R183). -/
def State.limp (s : State) : State :=
  let s := (s.setBit .SAF SAF_STATUS 7 true).openCutoffs.tstRelock
  if s.sys.storing then s
  else
    let s := s.failSome (upto 32) (lswAll.filter (fun n => !s.sys.cfg.limp.contains n))
    if s.sys.active || (s.mode == 6 && !s.inTransition) then s
    else (s.cmdEndIf .SYS 1 .aborted).transBegin 6 true

/-- The index of a check in SAF_CHECK_CNT (Table 20-6): none for the pair's own tests but the comparator and the cut-off test. -/
def checkIdx (code : Nat) : Option Nat :=
  if 0x10 ≤ code ∧ code ≤ 0x14 then some (code - 0x10)
  else if 0x20 ≤ code ∧ code ≤ 0x22 then some (code - 0x20 + 5)
  else if 0x30 ≤ code ∧ code ≤ 0x32 then some (code - 0x30 + 8)
  else if code = 1 then some 11 else if code = 4 then some 12 else none

/-- A safety fault is declared with a check code and a source instance: SAF_FAULT keeps the first while the latch is set (R463),
FAULT is raised, and LIMP follows (R170). The function is 0 for the pair itself, else the code's high digit. -/
def State.declareFault (s : State) (code src : Nat) : State :=
  let s := if s.limpLatch then s
    else (s.wrN .SAF SAF_FAULT (code / 16 % 256 * 2 ^ 24 + code % 256 * 2 ^ 16 + src % 65536)).wrN .SAF SAF_FAULT_OPSEC s.clk.opsec
  (s.eventSrc .SAF 0 (src % 256)).limp

/-- A safety fault of a check that SAF_CHECK_CNT counts. -/
def State.safetyFault (s : State) (code src : Nat) : State :=
  let s := match checkIdx code with
    | some i => s.incF .SAF (SAF_CHECK_CNT i) 15 0 1
    | none => s
  s.declareFault code src

/-! ## Key-off and DORMANT entry (R168, R169) -/

/-- Step 1 of DORMANT entry: the LIMP latch is cleared (R170) and every channel switched off with its switch-off mode; the store
steps begin. -/
def State.dormantBegin (s : State) (auto : Bool) : State :=
  let s := s.transBegin 0 auto
  let s := (s.setBit .SAF SAF_STATUS 7 false).vlvAllOff
  let s := s.each lswAll (fun s n => s.lswForceOff n)
  (s.pwrMod (fun x => { x with steps := 0, flags := 0, reason := 0 })).sysMod (fun x => { x with storing := true })

/-- The rest of DORMANT entry: the stores, the cut-off switch test (`cut`: it passes), the islands but IL27 stopped, the bank
bled, the latch copied to the always-on domain, and the core die supply off (R168, R170, R466). -/
def State.dormantFinish (s : State) (cut : Bool) : State :=
  let old := s.mode
  let s := s.dormantStores 4
  let s := if cut then s else s.safetyFault 4 0
  let s := (s.modeHooks old 0).tblStopMode.pnlDischarge
  let s := s.each ((upto 29).filter (fun k => k != 27)) (fun s k => s.setF .PACE (PACE_ISL_STATUS k) 8 0 0)
  let s := (s.summary 0 0).disarm.pstSet 11 false
  let s := (s.putAon { s.aon with limp := s.limpLatch }).putTim { s.tim with low := true }
  let s := ((s.openCutoffs.supOff.setF .SYS SYS_MODE 7 0 0).event .SYS 1)
  let s := if s.sys.auto then s else s.cmdEndIf .SYS 1 .ok
  (s.sysMod (fun x => { x with storing := false, auto := false })).setPhase .dormant

/-! ## Requests (R166, R168, R175, R183) -/

/-- The transitions that Table 7-2 marks M, with their conditions. -/
def State.modeLegal (s : State) (old new : Nat) : Bool :=
  match old, new with
  | 1, 2 => s.sys.ign
  | 1, 4 => s.sys.ign
  | 1, 5 => s.sys.svcEn && (s.sys.still || !s.sys.cfg.still)
  | 2, 1 => true
  | 2, 3 => true
  | 2, 4 => true
  | 3, 1 => true
  | 3, 2 => true
  | 4, 1 => true
  | 4, 2 => true
  | 5, 1 => true
  | 6, 5 => s.sys.svcEn && (s.sys.still || !s.sys.cfg.still)
  | _, _ => false

/-- A MODE_REQ outside a start-up (R166–R169, R175, R453); none is met in a power-loss sequence, which runs to its end (R46). -/
def State.modeReq (s : State) (m : Nat) : State × Option Result :=
  let old := s.mode
  if 6 < m then refuse s .badHeader
  else if s.pwr.phase = .loss then refuse s .refusedMode
  else if s.inTransition then refuse s .busy
  else if m = old then done s .ok
  else if m = 0 then
    if (old = 1 ∨ old = 6) ∧ s.allLow = true then (s.dormantBegin false, none) else refuse s .refusedMode
  else if s.modeLegal old m = false then refuse s .refusedMode
  else if steers m = true ∧ s.sys.noDrawer = true then refuse s .refusedMode
  else if steers m = true ∧ s.hkpInhibit = true then refuse s .refusedTemp
  else (s.transBegin m false, none)

/-- MODE_CHG (R167): the transition under way completes; `cut`: the cut-off switch test of a DORMANT entry passes. A power-loss
sequence runs to its end (R46): no transition completes in it. -/
def execModeChg (cut : Bool) (s : State) : Res :=
  if s.inTransition && !s.sys.active && s.pwr.phase != .loss then
    let m := s.f .SYS SYS_MODE 6 4
    ok (if m = 0 then s.dormantFinish cut else s.enterMode m false)
  else ok s

/-! ## Inputs (R166, R168) -/

/-- IGN_FALL (R168): in HARVEST, HEADLAND and UNLOAD the module enters ROAD; in ROAD the lighting set goes off. -/
def execIgnFall (s : State) : Res :=
  let s := if s.mode = 1 ∧ s.sys.ign = true then s.lightsTo 1 false else s
  ok (s.sysMod (fun x => { x with ign := false })).autoCheck

/-- SVC_EN_FALL (R166). -/
def execSvcEnFall (s : State) : Res := ok (s.sysMod (fun x => { x with svcEn := false })).autoCheck

/-- STANDSTILL (R166): the standstill source has been below its threshold for 2 s, or no longer is. -/
def execStandstill (v : Bool) (s : State) : Res := ok (s.sysMod (fun x => { x with still := v }))

/-- KEYOFF_TIME_EXPIRED (R168). -/
def execKeyoffTimeExpired (s : State) : Res :=
  if (s.mode = 1 ∨ s.mode = 6) ∧ s.allLow = true ∧ s.inTransition = false ∧ s.sys.active = false ∧ s.pwr.phase ≠ .loss then
    ok (s.dormantBegin true)
  else ok s

/-- A wake input takes a level. -/
def State.setPin (s : State) (p : WakePin) (v : Bool) : State :=
  s.sysMod (fun x => match p with
    | .ign => { x with ign := v }
    | .wake => { x with wake := v }
    | .wakeSvc => { x with wakeSvc := v })

/-- WAKE_INPUT_FALL (R168): the KEYOFF_TIME count, whose end KEYOFF_TIME_EXPIRED stands for, starts once all are low. -/
def execWakeInputFall (p : WakePin) (s : State) : Res := ok ((s.setPin p false).autoCheck)

end Sys2Proof.Machine
end

