-- ==== Sys2Proof/Machine/Pigeonholes.lean ====
section
/-! DEFINITION. Pigeonholes (PGH): delivery to tiles and to the safety pair, claims, software raises, routes and counts
(R157–R163, R122). -/

namespace Sys2Proof.Machine

/-! ## Endpoint tables (R114) -/

/-- Word 0 of endpoint entry `c` of tile `t`. -/
def State.endp (s : State) (t c : Nat) : Nat := s.rdLE (endpBase + t * 0x4000 + c * 16) 8

/-- Word 1 of endpoint entry `c` of tile `t`. -/
def State.endp1 (s : State) (t c : Nat) : Nat := s.rdLE (endpBase + t * 0x4000 + c * 16 + 8) 8

/-- The words waiting at channel `c` of tile `t`, oldest first. -/
def State.fifoOf (s : State) (t c : Nat) : List Dword := s.fifo.get [] (t * 1024 + c)

/-- Set the words waiting at a receive end. -/
def State.setFifo (s : State) (t c : Nat) (l : List Dword) : State := s.putFifo (s.fifo.set [] (t * 1024 + c) l)

/-- Tile `t` runs: released, not halted and not in reset (Table 6-7). -/
def State.tileRuns (s : State) (t : Nat) : Bool := s.f .SYS (SYS_TILE_STATE t) 1 0 == 1

/-- The KIND 1 receive end of tile `t` that names pigeonhole `p` (R122). -/
def State.phEnd (s : State) (t p : Nat) : Option Nat :=
  (upto 1024).find? (fun c =>
    let e := s.endp t c
    e.testBit 63 && e.testBit 62 && dfld e 61 60 == 1 && dfld e 7 0 == p)

/-- The word of a pigeonhole delivery (R122). -/
def phWord (time count p : Nat) : Dword := BitVec.ofNat 64 ((time % 2 ^ 32) * 2 ^ 32 + count * 2 ^ 16 + p)

/-- A raise dropped because its target cannot take it (R160): counted in PGH_STATUS with the number held; PGH_DROP is raised
on PH007, but a drop of PH007 itself raises nothing. -/
def State.phDrop (s : State) (p : Nat) : State :=
  let s := (s.incF .PGH PGH_STATUS 31 16 1).setF .PGH PGH_STATUS 7 0 p
  if p = 7 then s else s.event .SYS 7

/-- The ends of `ts` that take pigeonhole `p`: none if a tile of `ts` does not run or has no bound end for it. -/
def State.phEnds (s : State) (ts : List Nat) (p : Nat) : Option (List (Nat × Nat)) :=
  ts.foldr (fun t r => match r, s.tileRuns t, s.phEnd t p with
    | some l, true, some c => some ((t, c) :: l)
    | _, _, _ => none) (some [])

/-- What becomes of a pigeonhole word for a list of tiles: delivered to every end, held while an earlier word is unread, or
dropped. -/
inductive PhOut where
  | sent (s : State) | held | dropped

/-- Offer a word to the ends of a list of tiles (R122, R160). -/
def State.phOffer (s : State) (ts : List Nat) (p time count : Nat) : PhOut :=
  match s.phEnds ts p with
  | none => .dropped
  | some l =>
    if l.all (fun e => (s.fifoOf e.1 e.2).isEmpty)
    then .sent (s.each l (fun s e => s.setFifo e.1 e.2 [phWord time count p]))
    else .held

/-- The tiles that the route of a pigeonhole names, if its KIND is 1 or 2. -/
def routeTiles (r : Word) : Option (List Nat) :=
  match fld r 29 28 with
  | 1 => some [fld r 7 0]
  | 2 => some [256, 257]
  | _ => none

/-- The pending bit and the raises since the last delivery cleared: a delivery or a drop took them. -/
def State.phTaken (s : State) (p : Nat) : State :=
  let s := s.setPend p false
  s.putPgh { s.pgh with acc := s.pgh.acc.set 0 p 0, first := s.pgh.first.set 0 p 0 }

/-- Deliver a pending pigeonhole under its route, where the route is enabled and names tiles (R158, R160). -/
def State.phDeliverRoute (s : State) (p : Nat) : State :=
  let r := s.route p
  if bitOf r 31 && s.pend p then
    match routeTiles r with
    | none => s
    | some ts =>
      match s.phOffer ts p (s.pgh.first.get 0 p) (s.pgh.acc.get 0 p) with
      | .sent s => s.phTaken p
      | .held => s
      | .dropped => (s.phTaken p).phDrop p
  else s

/-- Deliver the copies of SAF_COPY that wait for the safety pair (R158, R160). -/
def State.phDeliverCopy (s : State) (p : Nat) : State :=
  let n := s.pgh.copyAcc.get 0 p
  let clr (s : State) : State :=
    s.putPgh { s.pgh with copyAcc := s.pgh.copyAcc.set 0 p 0, copyFirst := s.pgh.copyFirst.set 0 p 0 }
  if n = 0 then s
  else match s.phOffer [256, 257] p (s.pgh.copyFirst.get 0 p) n with
    | .sent s => clr s
    | .held => s
    | .dropped => (clr s).phDrop p

/-- Deliver what waits of a pigeonhole: under its route, and as a copy to the pair. -/
def State.phDeliver (s : State) (p : Nat) : State := (s.phDeliverRoute p).phDeliverCopy p

/-- PIGEONHOLE_WORD_DELIVERY (R122, R160). -/
def execPigeonholeWordDelivery (p : Fin 256) (s : State) : Res := ok (s.phDeliver p.val)

/-! ## Claims (R159) -/

/-- Pigeonhole `p` is pending and routed to host core `c` at a level (`m`: M, else S). -/
def State.claimable (s : State) (c : Nat) (m : Bool) (p : Nat) : Bool :=
  let r := s.route p
  s.pend p && bitOf r 31 && fld r 29 28 == 0 && fld r 7 0 == c && bitOf r 27 == m

/-- The pigeonhole a claim takes: the highest PRIO, and among equal priority the lowest number (R159). -/
def State.claimPick (s : State) (c : Nat) (m : Bool) : Option Nat :=
  (upto 256).foldl (fun best p =>
    if s.claimable c m p then
      match best with
      | none => some p
      | some q => if fld (s.route q) 25 24 < fld (s.route p) 25 24 then some p else some q
    else best) none

/-- A read of PGH_CORE[c]_CLAIM_S or _CLAIM_M takes one pending pigeonhole and answers its word; 0 when none is pending. -/
def State.claim (s : State) (c : Nat) (m : Bool) : Word × State :=
  match s.claimPick c m with
  | none => (0, s)
  | some p =>
    (wordN (0x80000000 + fld (s.route p) 25 24 * 2 ^ 24 + s.pgh.acc.get 0 p * 2 ^ 8 + p), s.phTaken p)

/-- PGH_CLAIM (R159). -/
def execPghClaim (c : Fin 8) (m : Bool) (s : State) : Res :=
  let r := s.claim c.val m
  ok (r.2.putResp (.word r.1))

/-! ## Software raises, counts and routes (R161, R162) -/

/-- Where the source of a pigeonhole shows its STATUS and EVENT registers. -/
def phSource (p : Nat) : Block × Option Nat × Nat :=
  let b := (Block.ofPh p).1
  let n := p - (Block.ofPh p).2
  match b with
  | .VLV => (b, some (VLV_CH_STATUS n), VLV_CH_EVENT n)
  | .LSW => (b, some (LSW_CH_STATUS n), LSW_CH_EVENT n)
  | .CAN => (b, some (CAN_CH_STATUS (n / 2)), CAN_CH_EVENT (n / 2))
  | .SYS => (b, none, 0x24)
  | _ => (b, some 0x20, 0x24)

/-- A software raise of one pigeonhole, ignored where the route has KIND 2 or SAF_COPY (R162). It sets no EVENT bit, and the
Bureau records it with CODE 0xBB7F (R443). -/
def State.softRaise (s : State) (p : Nat) : State :=
  if fld (s.route p) 29 28 = 2 ∨ bitOf (s.route p) 30 = true then s
  else
    let q := phSource p
    s.phRaise p { code := q.1.id * 256 + 0x7F, source := p - (Block.ofPh p).2
                  d0 := match q.2.1 with | some o => s.rd q.1 o | none => 0
                  d1 := s.rd q.1 q.2.2, d2 := wordN p }

/-- A write of PGH_RAISE[i]. -/
def State.pghRaise (s : State) (i : Nat) (v : Word) : State :=
  s.each (bitsOf v.toNat 32) (fun s b => s.softRaise (32 * i + b))

/-- PGH_RAISE (R162). -/
def execPghRaise (i : Fin 8) (v : Word) (s : State) : Res := ok (s.pghRaise i.val v)

/-- A write of PGH_CLEAR clears PGH_CNT of one pigeonhole, or of all (Table 6-10). -/
def State.pghClear (s : State) (v : Word) : State :=
  if bitOf v 31 then s.each (upto 256) (fun s p => s.wr .PGH (PGH_CNT p) 0)
  else s.wr .PGH (PGH_CNT (fld v 7 0)) 0

/-- PGH_CLEAR (R157, Table 6-10). -/
def execPghClear (v : Word) (s : State) : Res := ok (s.pghClear v)

/-- A write of PGH_ROUTE[p] (RWP): it takes effect for the next delivery, and a pending bit moves with the pigeonhole to the
new target (R158, R161). -/
def State.pghRoute (s : State) (p : Nat) (v : Word) : State :=
  if s.open .PGH then s.wr .PGH (PGH_ROUTE p) (v &&& 0xFB0000FF) else s

/-- PGH_ROUTE_WRITE (R158, R161). -/
def execPghRouteWrite (p : Fin 256) (v : Word) (s : State) : Res := ok (s.pghRoute p.val v)

end Sys2Proof.Machine
end

