-- ==== Sys2Proof/Machine/Myivire.lean ====
section
/-! DEFINITION. The H and T profiles of Myivire without memory and channels: registers, system registers, traps, events,
paging, integer and floating-point instructions, control transfer (R78–R87, R92–R106). -/

namespace Sys2Proof.Machine

/-! ## Agents and registers -/

/-- The key of an agent: host cores 0–7, then tiles from 8. -/
def agentKey : Agent → Nat
  | .host c => c.val
  | .tile t => 8 + t.val

/-- The agent is a host core. -/
def isHost : Agent → Bool
  | .host _ => true
  | .tile _ => false

/-- An agent's registers. -/
def State.cpu (s : State) (a : Agent) : Cpu := s.cpus.get {} (agentKey a)

/-- Set an agent's registers. -/
def State.setCpu (s : State) (a : Agent) (c : Cpu) : State := s.putCpus (s.cpus.set {} (agentKey a) c)

/-- General register `r` of an agent; g0 reads 0 (R79). -/
def State.g (s : State) (a : Agent) (r : Nat) : Dword := if r = 0 then 0 else (s.cpu a).g.get 0 r

/-- Write general register `r`; g0 discards every write (R79). -/
def State.setG (s : State) (a : Agent) (r : Nat) (v : Dword) : State :=
  if r = 0 then s else s.setCpu a { s.cpu a with g := (s.cpu a).g.set 0 r v }

/-- Floating-point register `r`: 64 bits on a host core, 32 on a tile (R78). -/
def State.fr (s : State) (a : Agent) (r : Nat) : Dword := (s.cpu a).f.get 0 r

/-- Write floating-point register `r`; a tile's register keeps 32 bits (R78). -/
def State.setFr (s : State) (a : Agent) (r : Nat) (v : Dword) : State :=
  let v := if isHost a then v else BitVec.ofNat 64 (v.toNat % 2 ^ 32)
  s.setCpu a { s.cpu a with f := (s.cpu a).f.set 0 r v }

/-- The program counter of an agent. -/
def State.pc (s : State) (a : Agent) : Dword := (s.cpu a).pc

/-- Set the program counter. -/
def State.setPc (s : State) (a : Agent) (v : Dword) : State := s.setCpu a { s.cpu a with pc := v }

/-- What an agent waits on. -/
def State.setBlocked (s : State) (a : Agent) (b : Blocked) : State := s.setCpu a { s.cpu a with blocked := b }

/-- The core die has its supply: not with the logic off, in DORMANT or after a thermal shutdown (R168, R456). -/
def State.dieOn (s : State) : Bool := s.pwr.phase != .off && s.pwr.phase != .dormant && s.pwr.phase != .thermal

/-- The agent runs: a host core whose STATUS is running, or a tile whose STATE is running (Tables 6-6, 6-7). -/
def State.runs (s : State) : Agent → Bool
  | .host c => s.dieOn && s.f .SYS (SYS_HOST_STATUS c.val) 1 0 == 1
  | .tile t => s.dieOn && s.tileRuns t.val

/-- The agent runs and waits on nothing, so that its next instruction may issue. -/
def State.ready (s : State) (a : Agent) : Bool := s.runs a && (s.cpu a).blocked == .no

/-! ## System registers (R97–R99, Table 4-10) -/

/-- The stored value of a system register; one never written holds its reset value. -/
def State.sysRaw (s : State) (a : Agent) (n : Nat) : Dword :=
  (s.cpu a).sys.get (match n with
    | 0x020 => 0x400 | 0x208 => 0xFFFFFFFFFFFFFFFF | 0x600 => 4 | 0x607 => 0xFFFFFFFE | 0x608 => 0xFFFFFFFFFFFFFFFF
    | _ => 0) n

/-- Store a system register. -/
def State.setSysRaw (s : State) (a : Agent) (n : Nat) (v : Dword) : State :=
  let d : Dword := match n with
    | 0x020 => 0x400 | 0x208 => 0xFFFFFFFFFFFFFFFF | 0x600 => 4 | 0x607 => 0xFFFFFFFE | 0x608 => 0xFFFFFFFFFFFFFFFF
    | _ => 0
  s.setCpu a { s.cpu a with sys := (s.cpu a).sys.set d n v }

/-- A bit of a 64-bit word. -/
def dbit (v : Dword) (i : Nat) : Bool := v.toNat.testBit i

/-- A 64-bit word with bit `i` set to `b`. -/
def setDbit (v : Dword) (i : Nat) (b : Bool) : Dword :=
  let m : Dword := BitVec.ofNat 64 (2 ^ i)
  if b then v ||| m else v &&& ~~~ m

/-- Some pigeonhole routed to host core `c` at a level is pending (R159). -/
def State.phEvent (s : State) (c : Nat) (m : Bool) : Bool := (upto 256).any (fun p => s.claimable c m p)

/-- M_EVPENDING: the software bits are stored; timer and event bits follow their source (Table 4-10, R159). -/
def State.evPending (s : State) (a : Agent) : Dword :=
  let sw := s.sysRaw a 0x60A
  match a with
  | .host c =>
    let b (i : Nat) (v : Bool) (w : Dword) := setDbit w i v
    b 1 (decide ((s.sysRaw a 0x208).toNat ≤ s.now)) <| b 2 (s.phEvent c.val false) <|
      b 9 (decide ((s.sysRaw a 0x608).toNat ≤ s.now)) <| b 10 (s.phEvent c.val true) (sw &&& 0x101)
  | .tile _ => 0

/-- The lowest level of a host core's system register (0 U, 1 S, 3 M); none where the number names none. -/
def sysLevel (n : Nat) : Option Nat :=
  if 0x020 ≤ n ∧ n ≤ 0x023 then some 0 else if 0x200 ≤ n ∧ n ≤ 0x20A then some 1
  else if 0x600 ≤ n ∧ n ≤ 0x60A then some 3 else none

/-- A tile holds the system register (Table 4-10, tile set). -/
def sysTile (n : Nat) : Bool := (decide (0x020 ≤ n) && decide (n ≤ 0x023)) || (decide (0x700 ≤ n) && decide (n ≤ 0x704))

/-- A system register that ignores no write but traps it: NOW, RETIRED and CORE_ID (R98). -/
def sysRo (n : Nat) : Bool := n == 0x021 || n == 0x022 || n == 0x023

/-- A read of NOW (R99): device time less a lag of at most 50 ns, a free value, and never less than the agent's last read unless
device time itself was set back since. `least`: a deadline that NOW has reached. -/
def State.nowOf (s : State) (a : Agent) (least : Nat) : Dword × State :=
  let c := s.cpu a
  let v := max least (s.now - s.freeNat 51)
  let v := if c.lastNow ≤ s.now then max c.lastNow v else v
  (BitVec.ofNat 64 v, s.drawn.setCpu a { c with lastNow := v })

/-- What a read of a system register other than NOW returns. -/
def State.sysShow (s : State) (a : Agent) (n : Nat) : Dword :=
  match n with
  | 0x023 => match a with
    | .host c => BitVec.ofNat 64 c.val
    | .tile t => BitVec.ofNat 64 (0x100 + t.val % 256)
  | 0x200 => s.sysRaw a 0x600 &&& 0xE
  | 0x209 => s.sysRaw a 0x609 &&& 7
  | 0x20A => s.evPending a &&& 7
  | 0x60A => s.evPending a
  | _ => s.sysRaw a n

/-- A read of a system register (R98, R99). -/
def State.sysRead (s : State) (a : Agent) (n : Nat) : Dword × State :=
  if n = 0x021 then s.nowOf a 0 else (s.sysShow a n, s)

/-- What a write of `v` to a system register leaves in it, whatever the level (Table 4-10). -/
def State.sysWrite (s : State) (a : Agent) (n : Nat) (v : Dword) : State :=
  match n with
  | 0x020 => s.setSysRaw a n (v &&& 0x1C1F)
  | 0x200 => s.setSysRaw a 0x600 ((s.sysRaw a 0x600 &&& 0x5) ||| (v &&& 0xA))
  | 0x209 => s.setSysRaw a 0x609 ((s.sysRaw a 0x609 &&& 0x700) ||| (v &&& 7))
  | 0x20A => s.setSysRaw a 0x60A ((s.sysRaw a 0x60A &&& 0x100) ||| (v &&& 1))
  | 0x201 => s.setSysRaw a n (v &&& 0xFFFFFFFFFFFFF000)
  | 0x601 => s.setSysRaw a n (v &&& 0xFFFFFFFFFFFFF000)
  | 0x700 => s.setSysRaw a n (v &&& 0xFFFFFFFFFFFFF000)
  | 0x202 => s.setSysRaw a n (v &&& 0xFFFFFFFFFFFFFFFC)
  | 0x602 => s.setSysRaw a n (v &&& 0xFFFFFFFFFFFFFFFC)
  | 0x701 => s.setSysRaw a n (v &&& 0xFFFFFFFFFFFFFFFC)
  | 0x203 => s.setSysRaw a n (v &&& 0x803F)
  | 0x603 => s.setSysRaw a n (v &&& 0x803F)
  | 0x702 => s.setSysRaw a n (v &&& 0x803F)
  | 0x205 => s.setSysRaw a n ((v &&& 4) ||| (if (v &&& 3) = 0 then 0 else 1))
  | 0x605 => s.setSysRaw a n ((v &&& 0xC) ||| (if (v &&& 3) = 2 then 0 else v &&& 3))
  | 0x207 => s.setSysRaw a n (v &&& 0xFFFF00FFFFFFE001)
  | 0x600 => s.setSysRaw a n (v &&& 0xF)
  | 0x607 => s.setSysRaw a n (v &&& 0xFFFFFFFE)
  | 0x609 => s.setSysRaw a n (v &&& 0x707)
  | 0x60A => s.setSysRaw a n (v &&& 0x101)
  | _ => s.setSysRaw a n v

/-! ## Traps (R100, R103) -/

/-- A tile halts (R103, Table 6-7): STATE 2, its cause, its halt counted, and TILE_HALT raised. -/
def State.tileHalt (s : State) (t cause : Nat) : State :=
  let o := SYS_TILE_STATE t
  let s := (s.incF .SYS o 31 16 1).setF .SYS o 15 8 cause
  (s.setF .SYS o 1 0 2).event .SYS 2

/-- The level a host core's trap is taken to: 1 S or 3 M (R100). -/
def State.trapLevel (s : State) (a : Agent) (event : Bool) (cause : Nat) : Nat :=
  if event then (if 8 ≤ cause then 3 else 1)
  else if (s.cpu a).level < 3 ∧ dbit (s.sysRaw a 0x607) cause = false then 1 else 3

/-- Taking a trap, the one operation of every exception and event. On a host core: X_TRAP_PC, X_TRAP_CODE, X_TRAP_INFO and
X_PREV are saved, EV_X cleared, the level raised and the program counter set to the slot of the cause (R100). On a tile: the
tile halts if T_ENTRY is 0 or an earlier trap has not returned, else it jumps to its slot (R103). -/
def State.takeTrap (s : State) (a : Agent) (event : Bool) (cause : Nat) (info : Dword) : State :=
  let s := s.setBlocked a .no
  match a with
  | .host _ =>
    let lv := s.trapLevel a event cause
    let x := if lv = 3 then 0x600 else 0x200
    let st := s.sysRaw a 0x600
    let ev := if lv = 3 then dbit st 0 else dbit st 1
    let prev := b2n (lv == 3 && dbit st 2) * 8 + b2n ev * 4 + (s.cpu a).level
    let pc := s.pc a
    let s := (s.setSysRaw a (x + 2) pc).setSysRaw a (x + 3) (BitVec.ofNat 64 (b2n event * 0x8000 + cause))
    let s := (s.setSysRaw a (x + 4) info).setSysRaw a (x + 5) (BitVec.ofNat 64 prev)
    let s := s.setSysRaw a 0x600 (setDbit st (if lv = 3 then 0 else 1) false)
    let base := (s.sysRaw a (x + 1)).toNat / 0x1000 * 0x1000
    s.setCpu a { s.cpu a with
      level := lv, pc := BitVec.ofNat 64 (base + (if event then 0x800 else 0) + 32 * cause) }
  | .tile t =>
    let entry := (s.sysRaw a 0x700).toNat / 0x1000 * 0x1000
    if entry = 0 ∨ (s.cpu a).trapped = true then s.tileHalt t.val cause
    else
      let s := (s.setSysRaw a 0x701 (s.pc a)).setSysRaw a 0x702 (BitVec.ofNat 64 cause)
      let s := s.setSysRaw a 0x703 info
      s.setCpu a { s.cpu a with trapped := true, pc := BitVec.ofNat 64 (entry + 32 * cause) }

/-- The return from a trap, executed at S or M: the level, EV_X and (at M) FPEN come back from X_PREV, the program counter
from X_TRAP_PC (R100). -/
def State.trapReturn (s : State) (a : Agent) : State :=
  let m := (s.cpu a).level == 3
  let x := if m then 0x600 else 0x200
  let p := s.sysRaw a (x + 5)
  let st := setDbit (s.sysRaw a 0x600) (if m then 0 else 1) (dbit p 2)
  let st := if m then setDbit st 2 (dbit p 3) else st
  let s := s.setSysRaw a 0x600 st
  s.setCpu a { s.cpu a with level := p.toNat % 4, pc := s.sysRaw a (x + 2) }

/-- Trap cause ILLEGAL, with the instruction word in TRAP_INFO. -/
def State.illegal (s : State) (a : Agent) (op : Nat) (w : BitVec 26) : State :=
  s.takeTrap a false 1 (BitVec.ofNat 64 (op * 2 ^ 26 + w.toNat))

/-- A normal end of an instruction: RETIRED counts it and the program counter moves to the next. -/
def State.retire (s : State) (a : Agent) (pc : Dword) : State :=
  (s.setSysRaw a 0x022 (s.sysRaw a 0x022 + 1)).setPc a pc

/-- The next instruction. -/
def State.next (s : State) (a : Agent) : State := s.retire a (s.pc a + 4)

/-! ## Events of a host core (R101) -/

/-- The event a host core takes before its next instruction, by source number: M event, M timer, M software, then S event,
S timer, S software (R101). -/
def State.eventToTake (s : State) (a : Agent) : Option Nat :=
  let on := s.sysRaw a 0x609 &&& s.evPending a
  let st := s.sysRaw a 0x600
  let lv := (s.cpu a).level
  let m := decide (lv < 3) || dbit st 0
  let sOk := decide (lv < 3) && (decide (lv < 1) || dbit st 1)
  if m && dbit on 10 then some 10 else if m && dbit on 9 then some 9 else if m && dbit on 8 then some 8
  else if sOk && dbit on 2 then some 2 else if sOk && dbit on 1 then some 1 else if sOk && dbit on 0 then some 0 else none

/-- A host core takes its event, out of a waitev or a waitt where it waits in one (R101, R102, R119). -/
def State.takeEvent (s : State) (c : Fin 8) : State :=
  match s.eventToTake (.host c) with
  | none => s
  | some e =>
    let s := s.setF .SYS (SYS_HOST_STATUS c.val) 1 0 1
    s.takeTrap (.host c) true e 0

/-! ## Paging (R104–R106) -/

/-- The kinds of access, as translation and traps tell them apart. -/
inductive Acc where
  | fetch | load | store
  deriving DecidableEq, Repr

/-- The PAGE cause of an access. -/
def Acc.page : Acc → Nat
  | .fetch => 4 | .load => 7 | .store => 0xA
/-- The FAULT cause of an access. -/
def Acc.fault : Acc → Nat
  | .fetch => 3 | .load => 6 | .store => 9

/-- A leaf's PERM allows an access at a level; S reaches U pages for loads and stores only with SUA (Table 4-12). -/
def permOk (perm level : Nat) (sua : Bool) (k : Acc) : Bool :=
  let rd := decide (1 ≤ perm) && decide (perm ≤ 8)
  let wr := perm == 2 || perm == 4 || perm == 6 || perm == 8
  let ex := perm == 3 || perm == 4 || perm == 7 || perm == 8
  let user := decide (5 ≤ perm)
  let can := match k with | .fetch => ex | .load => rd | .store => wr
  if level = 0 then user && can
  else if user then (match k with | .fetch => false | _ => sua && can) else can

/-- The answer of a translation: a physical address with device ordering, or a trap cause. -/
inductive Trans where
  | ok (pa : Nat) (dev : Bool)
  | trap (cause : Nat)
  deriving DecidableEq, Repr

/-- The bits of a virtual address below a leaf of a level (1: 8 GiB, 2: 8 MiB, 3: 8 KiB). -/
def leafBits (level : Nat) : Nat := if level = 1 then 33 else if level = 2 then 23 else 13

/-- What a leaf entry of a level says of an access (R105, Table 4-12). -/
def leafUse (pte level va cpuLevel : Nat) (sua : Bool) (k : Acc) : Trans :=
  let perm := dfld pte 7 4
  let frame := dfld pte 39 13 * 0x2000
  let b := leafBits level
  if frame % 2 ^ b ≠ 0 ∨ perm = 0 ∨ 9 ≤ perm ∨ dfld pte 63 40 ≠ 0 ∨ pte.testBit 3 = true then .trap k.page
  else if pte.testBit 10 = true ∨ (k = .store ∧ pte.testBit 9 = true) then .trap k.page
  else if !permOk perm cpuLevel sua k then .trap k.page
  else .ok (frame + va % 2 ^ b) (pte.testBit 12)

/-- What the walks of every host core see after a reset: memory as it stood there, until a pgsync. -/
def State.ptReset (s : State) : SMap (List PtSync) := ⟨(upto 8).map (fun c => (c, [{ page := none, asid := none, mem := s.mem }]))⟩

/-- Memory as a walk of a host core sees it: as it stood at the latest pgsync whose scope covers the address and the ASID, since a
store to a page table takes effect only after a later one (R106); blank memory before the first of the machine. -/
def State.walkMem (s : State) (c asid va : Nat) : State :=
  match (s.psync.get [] c).find? (fun e => e.page.all (· == va / 0x2000) && e.asid.all (· == asid)) with
  | some e => s.putMem e.mem
  | none => s.putMem SMap.empty

/-- The walk from the table at `table`: `n` levels are left, the first of them level 4 − n. The answer is the leaf with its
level, or a trap cause (R105). -/
def State.walk (s : State) (va : Nat) (k : Acc) : Nat → Nat → Except Nat (Nat × Nat)
  | 0, _ => .error k.page
  | n + 1, table =>
    let level := 3 - n
    let a := table + 8 * (va / 2 ^ leafBits level % 1024)
    if (regionOf a = .unmapped ∨ regionOf a = .device) ∨ s.poisoned a 8 = true then .error k.fault
    else
      let pte := s.rdLE a 8
      if dfld pte 2 0 = 2 then .ok (pte, level)
      else if dfld pte 2 0 = 1 ∧ n ≠ 0 ∧ dfld pte 63 40 = 0 ∧ pte.testBit 3 = false then
        s.walk va k n (dfld pte 39 13 * 0x2000)
      else .error k.page

/-- The translation cached for a virtual page, under the ASID in force or GLOBAL (R106). -/
def State.tlbHit (s : State) (c : Nat) (asid va : Nat) : Option Tlb :=
  (s.tlb.get [] c).find? (fun e => (e.asid == asid || e.pte.testBit 11) && e.vpn == va / 2 ^ leafBits e.level)

/-- Translate an access of an agent. Tiles and level M see physical addresses. -/
def State.translate (s : State) (a : Agent) (k : Acc) (va : Nat) : Trans × State :=
  match a with
  | .tile _ => (.ok va false, s)
  | .host c =>
    let root := (s.sysRaw a 0x207).toNat
    let lv := (s.cpu a).level
    if lv = 3 ∨ root.testBit 0 = false then (.ok va false, s)
    else
      let sua := dbit (s.sysRaw a 0x600) 3
      let v := va % 2 ^ 43
      if va / 2 ^ 42 ≠ 0 ∧ va / 2 ^ 42 ≠ 2 ^ 22 - 1 then (.trap k.page, s)
      else match s.tlbHit c.val (dfld root 63 48) v with
        | some e => (leafUse e.pte e.level v lv sua k, s)
        | none =>
          match (s.walkMem c.val (dfld root 63 48) v).walk v k 3 (dfld root 39 13 * 0x2000) with
          | .error e => (.trap e, s)
          | .ok (pte, level) =>
            match leafUse pte level v lv sua k with
            | .trap e => (.trap e, s)
            | .ok pa dev =>
              let e : Tlb := { asid := dfld root 63 48, vpn := v / 2 ^ leafBits level, level := level, pte := pte }
              (.ok pa dev, (s.putTlb (s.tlb.set [] c.val (e :: s.tlb.get [] c.val))))

/-- The stores of an agent that wait become visible, oldest first. -/
def State.drainStores (s : State) (a : Agent) : State :=
  let k := agentKey a
  let s := s.each (s.sbuf.get [] k) (fun s e => s.progStore (isHost a) e.1 e.2)
  s.putSbuf (s.sbuf.set [] k [])

/-! ## Issue -/

/-- What a fetch brings: a trap's cause, a wait for the bank of the NOR flash that is programmed or erased (R149), or the word. -/
inductive Fetched where
  | trap (c : Nat) | wait | word
  deriving DecidableEq, Repr

/-- The fetch of the next instruction: the trap it takes, if any, FETCH_MISALIGN at an address that is no multiple of 4 (R79),
FETCH_PAGE, FETCH_FAULT or STORE_FAULT (R101, R105, R144), and the translation that it caches (R106). Tiles 256 and 257 run from a
memory of their own below the device addresses. -/
def State.fetch (s : State) (a : Agent) : Fetched × State :=
  if (s.pc a).toNat % 4 ≠ 0 then (.trap 2, s)
  else match s.translate a .fetch (s.pc a).toNat with
  | (.trap c, s) => (.trap c, s)
  | (.ok pa dev, s) =>
    let t := match a with
      | .tile t =>
        if 256 ≤ t.val then if 0x2000000000 ≤ pa then some 3 else none
        else (regionOf pa).fetchTrap (s.poisoned pa 4)
      | .host _ => if dev then some 3 else (regionOf pa).fetchTrap (s.poisoned pa 4)
    (match t with | some c => .trap c | none => if s.norBusy pa then .wait else .word, s)

/-- A host core's event that pre-empts its next instruction (R101). -/
def State.preempts (s : State) (a : Agent) : Bool := isHost a && (s.eventToTake a).isSome

/-- An agent that is ready issues an instruction, unless a host core's event pre-empts it (R101) or its fetch traps. An
agent that is not ready, or whose fetch waits, issues nothing: the instruction is issued when its row comes again. -/
def State.issue (s : State) (a : Agent) (body : State → State) : State :=
  if !s.ready a then s
  else if s.preempts a then (match a with | .host c => s.takeEvent c | .tile _ => s)
  else match s.fetch a with
    | (.trap e, s) => s.takeTrap a false e (s.pc a)
    | (.wait, s) => s
    | (.word, s) => body s

/-! ## Integer instructions (R84–R86) -/

/-- An instruction that writes a general register and goes on, or traps ILLEGAL. -/
def State.putG (s : State) (a : Agent) (op : Nat) (w : BitVec 26) (v : Option Dword) : State :=
  match v with
  | some x => (s.setG a (fRd w) x).next a
  | none => s.illegal a op w

/-- A major opcode that no host core and no tile executes: the reserved ones of Table 4-4, 0x00 with the all-zero word among them, and
LOP, POP and DOP (R83, R96). -/
def opIllegal (op : Nat) : Bool :=
  op == 0 || op == 0x16 || op == 0x17 || op == 0x1F || (decide (0x35 ≤ op) && decide (op ≤ 0x37)) || decide (0x3C ≤ op)

/-- OP (R83, R84), with the whole word: a major opcode that is reserved and those of the engine profiles raise ILLEGAL on a host core
and on a tile; the word of another opcode is another row's. -/
def execOpReg (a : Agent) (word : Word) (s : State) : Res :=
  let op := word.extractLsb' 26 6
  let w := word.extractLsb' 0 26
  if op = 1 then ok (s.issue a fun s => s.putG a 0x01 w (aluOp w (s.g a (fRs1 w)) (s.g a (fRs2 w))))
  else if opIllegal op.toNat then ok (s.issue a fun s => s.illegal a op.toNat w)
  else ok s

/-- MULDIV (R84, R85). -/
def execMuldiv (a : Agent) (w : BitVec 26) (s : State) : Res :=
  ok (s.issue a fun s => s.putG a 0x02 w (aluMul w (s.g a (fRs1 w)) (s.g a (fRs2 w))))

/-- ADDI (R86). -/
def execAddi (a : Agent) (w : BitVec 26) (s : State) : Res :=
  ok (s.issue a fun s => s.putG a 0x03 w (some (s.g a (fRs1 w) + fSimm w)))

/-- ANDI (R86). -/
def execAndi (a : Agent) (w : BitVec 26) (s : State) : Res :=
  ok (s.issue a fun s => s.putG a 0x04 w (some (s.g a (fRs1 w) &&& BitVec.ofNat 64 (fImm w))))

/-- ORI (R86). -/
def execOri (a : Agent) (w : BitVec 26) (s : State) : Res :=
  ok (s.issue a fun s => s.putG a 0x05 w (some (s.g a (fRs1 w) ||| BitVec.ofNat 64 (fImm w))))

/-- XORI (R86). -/
def execXori (a : Agent) (w : BitVec 26) (s : State) : Res :=
  ok (s.issue a fun s => s.putG a 0x06 w (some (s.g a (fRs1 w) ^^^ BitVec.ofNat 64 (fImm w))))

/-- SETLTI (R86). -/
def execSetlti (a : Agent) (w : BitVec 26) (s : State) : Res :=
  ok (s.issue a fun s => s.putG a 0x07 w (some (if (s.g a (fRs1 w)).slt (fSimm w) then 1 else 0)))

/-- SETLTUI (R86). -/
def execSetltui (a : Agent) (w : BitVec 26) (s : State) : Res :=
  ok (s.issue a fun s => s.putG a 0x08 w (some (if (s.g a (fRs1 w)).ult (fSimm w) then 1 else 0)))

/-- SHIFTI (R86). -/
def execShifti (a : Agent) (w : BitVec 26) (s : State) : Res :=
  ok (s.issue a fun s => s.putG a 0x09 w (shiftImm w (s.g a (fRs1 w))))

/-- ADDHI (R86). -/
def execAddhi (a : Agent) (w : BitVec 26) (s : State) : Res :=
  ok (s.issue a fun s => s.putG a 0x0A w (some (s.g a (fRs1 w) + fSimm w <<< 16)))

/-- ADDXI (R86). -/
def execAddxi (a : Agent) (w : BitVec 26) (s : State) : Res :=
  ok (s.issue a fun s => s.putG a 0x0B w (some (s.g a (fRs1 w) + fSimm w <<< 32)))

/-- ADDPC (R86); rs1 must be g0. -/
def execAddpc (a : Agent) (w : BitVec 26) (s : State) : Res :=
  ok (s.issue a fun s => s.putG a 0x0C w (if fRs1 w = 0 then some (s.pc a + fSimm w <<< 16) else none))

/-! ## Control transfer (R87) -/

/-- A branch on a condition of rs1 [25:21] and rs2 [20:16]. -/
def State.branch (s : State) (a : Agent) (w : BitVec 26) (c : Dword → Dword → Bool) : State :=
  s.issue a fun s =>
    if c (s.g a (fRd w)) (s.g a (fRs1 w)) then s.retire a (s.pc a + fSimm w * 4) else s.next a

/-- BEQ (R87). -/
def execBeq (a : Agent) (w : BitVec 26) (s : State) : Res := ok (s.branch a w fun x y => x == y)
/-- BNE (R87). -/
def execBne (a : Agent) (w : BitVec 26) (s : State) : Res := ok (s.branch a w fun x y => x != y)
/-- BLT (R87). -/
def execBlt (a : Agent) (w : BitVec 26) (s : State) : Res := ok (s.branch a w fun x y => x.slt y)
/-- BGE (R87). -/
def execBge (a : Agent) (w : BitVec 26) (s : State) : Res := ok (s.branch a w fun x y => !x.slt y)
/-- BLTU (R87). -/
def execBltu (a : Agent) (w : BitVec 26) (s : State) : Res := ok (s.branch a w fun x y => x.ult y)
/-- BGEU (R87). -/
def execBgeu (a : Agent) (w : BitVec 26) (s : State) : Res := ok (s.branch a w fun x y => !x.ult y)

/-- JMP (R87). -/
def execJmp (a : Agent) (w : BitVec 26) (s : State) : Res :=
  ok (s.issue a fun s => s.retire a (s.pc a + fOff26 w * 4))

/-- CALL (R87): g1 takes the return address. -/
def execCall (a : Agent) (w : BitVec 26) (s : State) : Res :=
  ok (s.issue a fun s => (s.setG a 1 (s.pc a + 4)).retire a (s.pc a + fOff26 w * 4))

/-- JREG (R87): a target that is no multiple of 4 raises FETCH_MISALIGN and writes no register. -/
def execJreg (a : Agent) (w : BitVec 26) (s : State) : Res :=
  ok (s.issue a fun s =>
    let t := s.g a (fRs1 w) + fSimm w
    if t.toNat % 4 ≠ 0 then s.takeTrap a false 2 t
    else (s.setG a (fRd w) (s.pc a + 4)).retire a t)

/-! ## System instructions (R97–R103, R106). The spec gives SYS no func codes: the row names the instruction, and the fields that it
does not use must be 0 (R83, assumption log 128). -/

/-- No field of registers of a SYS word is used: rd, rs1 and rs2 are 0. -/
def sysPlain (w : BitVec 26) : Bool := fRd w == 0 && fRs1 w == 0 && fRs2 w == 0

/-- SYSCALL (R100): cause 0x0D, 0x0E or 0x0F from U, S or M; a host core's instruction only (R96). -/
def execSyscall (a : Agent) (w : BitVec 26) (s : State) : Res :=
  ok (s.issue a fun s =>
    if !isHost a || !sysPlain w then s.illegal a 0x2A w
    else
      let lv := (s.cpu a).level
      s.takeTrap a false (if lv = 0 then 0x0D else if lv = 1 then 0x0E else 0x0F) 0)

/-- BREAK (R100, R103): cause 0x0C with the pc in TRAP_INFO. -/
def execBrk (a : Agent) (w : BitVec 26) (s : State) : Res :=
  ok (s.issue a fun s => if sysPlain w then s.takeTrap a false 0x0C (s.pc a) else s.illegal a 0x2A w)

/-- RTN (R100): ILLEGAL at U level and on a tile. -/
def execRtn (a : Agent) (w : BitVec 26) (s : State) : Res :=
  ok (s.issue a fun s =>
    if !isHost a || (s.cpu a).level == 0 || !sysPlain w then s.illegal a 0x2A w
    else (s.retire a (s.pc a)).trapReturn a)

/-- TRET (R103): a tile returns from its trap; ILLEGAL on a host core (R96). -/
def execTret (a : Agent) (w : BitVec 26) (s : State) : Res :=
  ok (s.issue a fun s =>
    if isHost a || !sysPlain w then s.illegal a 0x2A w
    else
      let s := s.retire a (s.sysRaw a 0x701)
      s.setCpu a { s.cpu a with trapped := false })

/-- A cached translation falls in the scope of a pgsync (R106). -/
def tlbInScope (va asid : Option Nat) (e : Tlb) : Bool :=
  (match va with | some v => e.vpn == v % 2 ^ 43 / 2 ^ leafBits e.level | none => true) &&
  (match asid with | some i => e.asid == i || e.pte.testBit 11 | none => true)

/-- The page tables as they stand now take effect for a host core's walks in the scope of a pgsync: the latest one that covers an
access counts, so that one without a scope stands for all (R106). -/
def State.ptSync (s : State) (k : Nat) (va asid : Option Nat) : State :=
  let e : PtSync := { page := va.map (fun v => v % 2 ^ 43 / 0x2000), asid := asid, mem := s.mem }
  let old := (s.psync.get [] k).filter (fun (x : PtSync) => !((e.page.isNone || x.page == e.page) && (asid.isNone || x.asid == asid)))
  s.putPsync (s.psync.set [] k (e :: old))

/-- PGSYNC (R106): translations in its scope are walked afresh from now on; rs1 names one address and rs2 one ASID, g0 all.
ILLEGAL at U level and on a tile. The page-table stores of this core that wait become visible first. -/
def execPgsync (a : Agent) (w : BitVec 26) (s : State) : Res :=
  ok (s.issue a fun s =>
    if !isHost a || (s.cpu a).level == 0 || fRd w != 0 then s.illegal a 0x2A w
    else
      let va := if fRs1 w = 0 then none else some (s.g a (fRs1 w)).toNat
      let asid := if fRs2 w = 0 then none else some ((s.g a (fRs2 w)).toNat % 65536)
      let s := s.drainStores a
      let k := agentKey a
      let s := s.putTlb (s.tlb.set [] k ((s.tlb.get [] k).filter (fun e => !tlbInScope va asid e)))
      (s.ptSync k va asid).next a)

/-- Some event that M_EVENABLE enables is pending (R102). -/
def State.evWake (s : State) (a : Agent) : Bool := (s.sysRaw a 0x609 &&& s.evPending a) != 0

/-- WAITEV (R102): the core stops until an enabled event is pending, and returns at once if one is. ILLEGAL at U level
(R97). A tile takes no events under R101: its waitev stops it. -/
def execWaitev (a : Agent) (w : BitVec 26) (s : State) : Res :=
  ok (s.issue a fun s =>
    if !sysPlain w then s.illegal a 0x2A w
    else match a with
    | .host c =>
      if (s.cpu a).level = 0 then s.illegal a 0x2A w
      else
        let s := s.next a
        if s.evWake a then s else s.setF .SYS (SYS_HOST_STATUS c.val) 1 0 2
    | .tile _ => (s.next a).setBlocked a .waitev)

/-- WAITEV_RESUME (R102): a core stopped in waitev resumes once an enabled event is pending. -/
def execWaitevResume (c : Fin 8) (s : State) : Res :=
  if s.f .SYS (SYS_HOST_STATUS c.val) 1 0 = 2 ∧ s.evWake (.host c) = true
  then ok (s.setF .SYS (SYS_HOST_STATUS c.val) 1 0 1) else ok s

/-- EVENT_TAKEN (R101): a running or waiting host core takes the event it may take. -/
def execEventTaken (c : Fin 8) (s : State) : Res :=
  let st := s.f .SYS (SYS_HOST_STATUS c.val) 1 0
  if st = 1 ∨ st = 2 then ok (s.takeEvent c) else ok s

/-- TCMP_EXPIRY (R101, R102): with NOW at or past the compare value the timer event is pending, and a core stopped in waitev
with that event enabled resumes. -/
def execTcmpExpiry (c : Fin 8) (m : Bool) (s : State) : Res :=
  let a : Agent := .host c
  let i := if m then 9 else 1
  if dbit (s.sysRaw a 0x609 &&& s.evPending a) i = true ∧ s.f .SYS (SYS_HOST_STATUS c.val) 1 0 = 2
  then ok (s.setF .SYS (SYS_HOST_STATUS c.val) 1 0 1) else ok s

/-- A write of PGH_CORE[c]_SWI sets M software ([1]) and S software ([0]) in the core's M_EVPENDING (Table 6-10). -/
def State.pghSwi (s : State) (c : Fin 8) (v : Word) : State :=
  let a : Agent := .host c
  let p := s.sysRaw a 0x60A
  s.setSysRaw a 0x60A (p ||| (if bitOf v 1 then 0x100 else 0) ||| (if bitOf v 0 then 1 else 0))

/-- PGH_SWI (R101, Table 6-10). -/
def execPghSwi (c : Fin 8) (v : Word) (s : State) : Res := ok (s.pghSwi c v)

/-- FSTAT is within reach: on a host core FPEN must be 1 (R97). -/
def State.fpOn (s : State) (a : Agent) : Bool := !isHost a || dbit (s.sysRaw a 0x600) 2

/-- A system register that an agent may name at its level (R97, Table 4-10). -/
def State.sysMay (s : State) (a : Agent) (n : Nat) : Bool :=
  (if isHost a then match sysLevel n with | some l => decide (l ≤ (s.cpu a).level) | none => false else sysTile n)
    && (n != 0x020 || s.fpOn a)

/-- SYSREG (R98): READ, SWAP or INSERT. -/
def execSysreg (a : Agent) (w : BitVec 26) (s : State) : Res :=
  ok (s.issue a fun s =>
    let i := fImm w
    let n := i % 4096
    let r := s.sysRead a n
    let old := r.1
    if dfld i 13 12 ≠ 0 ∨ s.sysMay a n = false then s.illegal a 0x2B w
    else match i / 2 ^ 14 with
      | 0 => if fRs1 w = 0 then (r.2.setG a (fRd w) old).next a else s.illegal a 0x2B w
      | 1 =>
        if sysRo n then s.illegal a 0x2B w
        else ((s.sysWrite a n (s.g a (fRs1 w))).setG a (fRd w) old).next a
      | 2 =>
        let mask := s.g a (fRd w)
        if mask = 0 then (r.2.setG a (fRd w) old).next a
        else if sysRo n then s.illegal a 0x2B w
        else ((s.sysWrite a n ((old &&& ~~~ mask) ||| (s.g a (fRs1 w) &&& mask))).setG a (fRd w) old).next a
      | _ => s.illegal a 0x2B w)

/-! ## Floating point (R92–R95) -/

/-- The format an instruction names: binary32 on either profile, binary64 on a host core only (R96). -/
def fpFmt (host : Bool) (f : Nat) : Option Fmt :=
  match f with
  | 0 => some (fmt32 (!host))
  | 1 => if host then some fmt64 else none
  | _ => none

/-- The rounding mode of field rm: 0 takes FSTAT.RM; `none` is ILLEGAL (R92). -/
def State.rmIn (s : State) (a : Agent) (rm : Nat) : Option Rm :=
  if rm = 0 then rmOf (dfld (s.sysRaw a 0x020).toNat 12 10) else rmOf rm

/-- The pattern an operand of a format has in an f register: binary32 reads the low 32 bits (R80). -/
def State.fop (s : State) (a : Agent) (F : Fmt) (r : Nat) : Nat := (s.fr a r).toNat % 2 ^ (F.eb + F.mb + 1)

/-- OR flags into FSTAT (R93). -/
def State.fflags (s : State) (a : Agent) (fl : Nat) : State :=
  s.setSysRaw a 0x020 (s.sysRaw a 0x020 ||| BitVec.ofNat 64 fl)

/-- A floating-point result written to an f register. -/
def State.putF (s : State) (a : Agent) (w : BitVec 26) (r : FRes) : State :=
  ((s.setFr a (fRd w) (BitVec.ofNat 64 r.bits)).fflags a r.flags).next a

/-- A result with flags written to a general register. -/
def State.putGF (s : State) (a : Agent) (w : BitVec 26) (v : Dword) (fl : Nat) : State :=
  ((s.setG a (fRd w) v).fflags a fl).next a

/-- What an FOP instruction does, once FPEN is known to be set; `none` is ILLEGAL (Table 4-7). -/
def State.fopDo (s : State) (a : Agent) (w : BitVec 26) : Option State :=
  match fopCalc (fpFmt (isHost a)) (s.rmIn a) (s.fop a) (s.g a) w with
  | some (.toF r) => some (s.putF a w r)
  | some (.toG v fl) => some (s.putGF a w v fl)
  | none => none

/-- FOP (R92–R95): ILLEGAL while FPEN is 0, for a form outside Table 4-7, and for a rounding mode that names none. -/
def execFop (a : Agent) (w : BitVec 26) (s : State) : Res :=
  ok (s.issue a fun s =>
    if !s.fpOn a then s.illegal a 0x2C w
    else match s.fopDo a w with
      | some t => t
      | none => s.illegal a 0x2C w)

/-- An instruction of the FMADD family. -/
def State.fma (s : State) (a : Agent) (op : Nat) (np nc : Bool) (w : BitVec 26) : State :=
  s.issue a fun s =>
    match s.fpOn a, fmaCalc (fpFmt (isHost a)) (s.rmIn a) (s.fop a) np nc w with
    | true, some r => s.putF a w r
    | _, _ => s.illegal a op w

/-- FMADD (R92). -/
def execFmadd (a : Agent) (w : BitVec 26) (s : State) : Res := ok (s.fma a 0x2D false false w)
/-- FMSUB (R92). -/
def execFmsub (a : Agent) (w : BitVec 26) (s : State) : Res := ok (s.fma a 0x2E false true w)
/-- FNMADD (R92). -/
def execFnmadd (a : Agent) (w : BitVec 26) (s : State) : Res := ok (s.fma a 0x2F true true w)
/-- FNMSUB (R92). -/
def execFnmsub (a : Agent) (w : BitVec 26) (s : State) : Res := ok (s.fma a 0x30 true false w)

end Sys2Proof.Machine
end

