-- ==== Sys2Proof/Machine/RegValues.lean ====
section
/-! DEFINITION. The limits of register values that depend on the instance: what a write or a drawer load of a register keeps
beyond the mask and clamps of its row (Tables 12-10, 13-6, 16-6, 19-4). -/

namespace Sys2Proof.Machine

/-- The instance numbers of a distance from a row's first offset. -/
def dimsIdx : List (Nat × Nat) → Nat → List Nat
  | [], _ => []
  | (st, _) :: t, d => d / st :: dimsIdx t (d % st)

/-- The instance numbers of an offset in a row. -/
def RegRow.idx (r : RegRow) (o : Nat) : List Nat := dimsIdx r.dims (o - r.off)

/-- A value as an instance takes it: LIMIT.MAX within the valve's type, RESET_HOLD of V00 reading 0, CFG and LIMIT of a load
channel within its class, ISOBUS on CAN0–CAN1 and TBC_EN on CAN0 only, column 0 of a schedule at 0. -/
def regNorm (b : Block) (r : RegRow) (o : Nat) (v : Word) : Word :=
  let n := (r.idx o).getD 0 0
  match b with
  | .VLV =>
    if r.off = VLV_CH_LIMIT 0 then setFld v 15 0 (clampN 0 (vlvTypeMax n) (fld v 15 0))
    else if r.off = VLV_CH_FAIL 0 ∧ n = 0 then setFld v 8 0 0
    else v
  | .LSW =>
    if r.off = LSW_CH_LIMIT 0 then lswLimitVal n v
    else if r.off = LSW_CH_CFG 0 then lswCfgVal n v
    else v
  | .CAN =>
    if r.off = CAN_CH_CFG 0 then
      let v := if n < 2 then v else putBit v 15 false
      if n = 0 then v else putBit v 14 false
    else if r.off = CAN_CH_TT_COL 0 0 ∧ (r.idx o).getD 1 0 = 0 then 0
    else v
  | _ => v

end Sys2Proof.Machine
end

