-- ==== Sys2Proof/Machine/Startup.lean ====
section
/-! DEFINITION. Resets and start-ups: power-on, wake, core reset and service restart, the drawer load, the SEAL checks, the
start-up report, and the mode requests that end a start-up (R6, R148, R165–R188, R456, R461). -/

namespace Sys2Proof.Machine

/-! ## Power-on and wake: the state that is left -/

/-- The register windows that outlive the loss of the core supply: UPD's records, which live in MRAM (R421), and the Bureau's
head, count and wraps, which its ring holds; after a wake also TIM, which IL27 keeps (R168). -/
def State.keptRegs (s : State) (wake : Bool) : RegFile :=
  let s := s.updCoreReset
  { upd := s.regs.upd
    bur := s.regs.bur.keep (fun o => o == BUR_HEAD || o == BUR_COUNT || o == BUR_WRAPS)
    tim := if wake then s.regs.tim else SMap.empty }

/-- The clock of a start-up: after a wake it ran on; else it starts anew with the counts of MRAM (R188). -/
def State.keptClk (s : State) (wake : Bool) : Clock :=
  if wake then s.clk else { opsec := (s.nv.counts.getD (0, 0)).1, pcc := (s.nv.counts.getD (0, 0)).2 }

/-- Power-on reset, or the core supply's return at a wake: every register at its reset value; MRAM, eMMC and NOR hold what they
held; DRAM, tile memory and Tabletop SRAM are zeroed at a power-on only (R148). -/
def State.powerReset (s : State) (wake : Bool) : State :=
  let m := if wake then s.mapCoreReset.map else s.mapPowerOn.map
  let mem := if wake then s.mem else s.mem.keep (fun a => decide (norBase ≤ a))
  { regs := s.keptRegs wake
    mem := mem
    psync := (s.putMem mem).ptReset
    poison := if wake then s.poison else SMap.empty
    latent := if wake then s.latent else SMap.empty
    clk := s.keptClk wake
    now := if wake then s.now else 0
    tim := if wake then { s.tim with low := false } else {}
    free := s.free, emmc := s.emmc, nv := s.nv, aon := s.aon, upd := s.upd, map := m
    bur := { patchSeq := s.bur.patchSeq }
    vlv := { ledger := s.vlv.sealed, sealed := s.vlv.sealed }
    pending := s.pending }

/-! ## A core reset: the state that is left (R6, R185) -/

/-- A register's row has a reset value of the power-stage domain (R6). -/
def psReg (b : Block) (o : Nat) : Bool := match regRow b o with | some r => r.ps | none => false

/-- A register is one that a drawer loads (R6). -/
def drwReg (b : Block) (o : Nat) : Bool := match regRow b o with | some r => r.drw | none => false

/-- The Bureau at a core reset (R447): the queue and the patch are committed where MRAM lies in its window, else lost and
counted; a freeze ends with its register. -/
def State.burReset (s : State) : State :=
  let s := if s.mramOk then s.burCommitAll
    else s.putBur { s.bur with queue := [], heldLost := s.bur.heldLost + s.bur.queue.length }
  let s := s.resetWindow .BUR (fun o => o == BUR_HEAD || o == BUR_COUNT || o == BUR_WRAPS)
  s.putBur { s.bur with last := none, dirty := false }

/-- The windows that return to their reset values but for the power-stage domain and what the hardware goes on showing: the
halts and poisoned lines (Table 6-6), the links (R407), the supply (PWR), LIMP_LATCH, TESTED and BATV (Table 20-7). -/
def State.windowsReset (s : State) : State :=
  let poisoned := s.rd .SYS SYS_POISONED
  let cause := s.rd .SYS SYS_RESET_CAUSE
  let halts := (upto 258).map (fun t => s.f .SYS (SYS_TILE_STATE t) 31 16)
  let links := s.f .ETH ETH_STATUS 4 0
  let ports := (upto 5).map (fun p => setFld (s.rd .ETH (ETH_P_STATUS p)) 3 3 0)
  let saf := s.rd .SAF SAF_STATUS &&& 0x91
  let s := s.each [Block.SYS, .PGH, .DMW, .TBL, .LPE, .AIO, .MAP, .CAN, .ETH, .HKP, .SAF, .TST, .VLV, .LSW]
    (fun s b => s.resetWindow b (psReg b))
  let s := s.resetWindow .PWR (fun o => decide (PWR_VOLT 0 ≤ o) && decide (o ≤ PWR_BANK_TEMP) || o == PWR_STATUS)
  let s := (s.wr .SYS SYS_POISONED poisoned).wr .SYS SYS_RESET_CAUSE cause
  let s := s.each (List.zip (upto 258) halts) (fun s (p : Nat × Nat) => s.setF .SYS (SYS_TILE_STATE p.1) 31 16 p.2)
  let s := s.wrN .ETH ETH_STATUS (links + 0x10000)
  let s := s.each (List.zip (upto 5) ports) (fun s (p : Nat × Word) => s.wr .ETH (ETH_P_STATUS p.1) p.2)
  s.wr .SAF SAF_STATUS saf

/-- A load channel at a core reset (R185): in hold, or in its fail state at once where its RESET_HOLD is 0. -/
def State.lswCoreReset (s : State) (n : Nat) : State :=
  if s.f .LSW (LSW_CH_FAIL n) 8 0 = 0 then (s.lswFailFree n).lswEvent n 10 else s.lswSetHeld n true

/-- The core die resets; `hold`: the power stages hold (R185). A BANK_TEST or BANK_BLEED ends with its start-up (Table 2-8). What the
channels raise while the pigeonholes stand in reset is lost (R163). -/
def State.dieReset (s : State) (hold : Bool) : State :=
  let active := s.rd .TST TST_STATUS != 0
  let testing := s.bankTesting
  let s := s.tstRelock.burReset.paceCoreReset.camCoreReset.gnsCoreReset.pnlCoreReset
  let s := s.updCoreReset.tblCoreReset.mapCoreReset
  let s := s.windowsReset
  let s := { s with
    mail := SMap.empty.set {} Block.TIM.id (s.mailOf .TIM), cpus := SMap.empty, tlb := SMap.empty, psync := s.ptReset, sbuf := SMap.empty, pickLast := SMap.empty
    ports := SMap.empty, fifo := SMap.empty, pgh := {}, lpe := {}, aio := {}, can := SMap.empty, eth := {}, svc := []
    cart := {}, saf := {}, stq := none, dmw := {} }
  let s := if active then s.setBit .TST TST_EVENT 0 true else s
  let s := if testing || s.pwr.bled then (s.pwrMod (fun x => { x with bled := false })).loadStop else s.chargeShow
  let bur := s.bur
  let s := if hold then
      let s := s.each (upto 32) (fun s n => s.vlvCoreReset n)
      (s.each lswAll (fun s n => s.lswCoreReset n)).vlvSettle
    else s
  let s := (((s.resetWindow .PGH (psReg .PGH)).putPgh {}).putBur bur).burShow
  (s.setV00 false).each (upto 6) (fun s k => s.supShow k)

/-! ## SEAL checks (R180) -/

/-- The slot of a region that a start-up runs from: the one in use if its SEAL passes, else the other; with neither in use
A comes first. -/
def State.sealedSlot (s : State) (r : Nat) : Option Bool :=
  let b := (s.inUse r).getD false
  if s.sealOk r b then some b else if s.sealOk r (!b) then some (!b) else none

/-- Channels that a core reset or a service restart left on go off, where the start-up must leave every channel off (R175, R180); after
a power-on or a wake none is on. -/
def State.bootOff (s : State) : State := if s.sys.kind = 0 ∨ s.sys.kind = 1 then s else s.allOff

/-- The start-up stops at a step: no host core is released, the module waits for the recovery receiver on ETH4 (R180, R439). -/
def State.bootStop (s : State) (n : Nat) : State :=
  (((s.sysMod (fun x => { x with stopped := n })).bootOff).setBit .UPD UPD_RECOVERY 0 true).islRun [8, 9, 10, 11, 12, 13]

/-- A step of a start-up, skipped once the start-up stopped. -/
def State.bootStep (s : State) (f : State → State) : State := if s.sys.stopped ≠ 0 then s else f s

/-! ## Steps 1–5 (Sequence 7-1) -/

/-- Steps 1 and 2: the supply as read at qualification (R31–R33) and the holdup check. SYS24 is recorded at a power-on and kept
over a wake (R32); a bank above 11.5 V without a measurement in MRAM is bled to 11.5 V first (R37). -/
def State.bootSupply (s : State) (e : BootEnv) : State :=
  let mv := fun i => min 65535 (e.volts.getD i 0)
  let s := s.setPhase .run
  let s := s.each (upto 6) (fun s n => s.wrN .PWR (PWR_VOLT n) (mv n))
  let s := if s.sys.kind = 0 then s.pstSet 8 (decide (18000 < mv 0)) else s
  let s := s.each (upto 3) (fun s n => if mv (1 + n) < 6000 then (s.pstSet (3 + n) true).event .PWR 6 else s)
  let s := if mv 4 ≤ 11500 then s else match s.nv.bank with
    | some (c, esr) => (s.wrN .PWR PWR_BANK_MEAS (c * 65536 + esr)).pstSet 12 true
    | none => s.loadStart 11500
  s.bankEval (mv 4) (e.hkp.getD 24 none)

/-- Step 3: a housekeeping round (R454), U01's boot count and SEAL check, the safety pair with its endpoint tables, IL28. The
BAT_V cut-off switch is open except after a core reset. `cut`: the cut-off switch test runs (R466), which it does not where the
activation of U01 repeats the step; a wake's first step 3 takes the latch from the always-on domain (R170). -/
def State.bootPair (s : State) (e : BootEnv) (cut : Bool) : State :=
  let s := if s.sys.kind = 2 then s else s.openCutoffs
  let s := (s.hkpRound e.hkp).updLoad.updBoot 1
  match s.sealedSlot 1 with
  | none => s.bootStop 3
  | some b =>
    let v := dxi (s.hdr 1 b) 0xC 4
    let s := s.each [256, 257] (fun s t =>
      ((s.wrBytes (endpBase + t * 0x4000) ((Config.pairTable v t).take 0x4000)).setF .SYS (SYS_TILE_STATE t) 15 0 1))
    let s := ((s.islRun [28]).setBit .SAF SAF_STATUS 6 true).wrN .SAF SAF_PARAM_VER v
    let s := if s.sys.kind = 1 ∧ cut = true then s.setBit .SAF SAF_STATUS 7 s.aon.limp else s
    let s := if cut then (let s := s.setBit .SAF SAF_STATUS 4 e.cut; if e.cut then s else s.safetyFault 4 0) else s
    if e.wdg then s else s.sysMod (fun x => { x with stopped := 3 })

/-- The retention slots are committed to the Bureau and cleared (R52); slots that the always-on domain lost with its power are gone
before. -/
def State.bootRetained (s : State) : State :=
  if s.mramOk then
    (s.each s.aon.slots (fun s r => s.burDirect r)).putAon { s.aon with slots := [] }
  else s

/-- The loss summary and the off-time (R49, R474). -/
def State.bootSummary (s : State) (off : Option Nat) : State :=
  let s := s.wrN .PWR PWR_OFFTIME (match off with | some t => min t 0xFFFFFFFE | none => 0xFFFFFFFF)
  match off with
  | none => (s.putAon { limp := s.aon.limp }).pstSet 13 true
  | some _ =>
    let l := s.aon.summary.getD (0, 0)
    let s := (s.wrN .PWR PWR_LAST_LOSS l.1).wrN .PWR PWR_LAST_LOSS_MS l.2
    s.putAon { s.aon with summary := none }

/-- A committed fold unit whose image passes its check is written back to its record (R446); one whose check fails is torn (R50). -/
def State.bootFold (s : State) : State :=
  let u := s.rdBytes foldAddr 48
  let i := leNat (u.take 4)
  if u.getD 47 0 ≠ 0x5A then s
  else if !recGood ((u.drop 4).take 32) then s.tornUnit 0
  else if i < 131072 ∧ s.mramOk = true then (s.wrBytes (burAddr i) ((u.drop 4).take 32)).wrB (foldAddr + 47) 0
  else s

/-- The patch units of the Bureau that are torn (R50). -/
def State.bootPatches (s : State) : State :=
  s.each [0, 1] (fun s k => if patchTorn (s.rdBytes (patchAddr k) 16) then s.tornUnit 0 else s)

/-- The power-cycle count increments, and both counts are kept (R178). -/
def State.bootCount (s : State) : State :=
  let s := s.putClk { s.clk with pcc := (s.clk.pcc + 1) % 16777216 }
  if s.mramOk then (s.putNv { s.nv with counts := some (s.clk.opsec, s.clk.pcc) }) else s

/-- Step 5: MRAM state and commit records; `first`: a power-on or a wake. -/
def State.bootMram (s : State) (e : BootEnv) (first : Bool) : State :=
  let s := if first then s.bootSummary e.off else s
  let s := s.bootPatches.bootFold.bootRetained
  if first then
    let s := s.bootCount
    if s.sys.kind = 0 then s.timSeed e.off else s
  else s

/-! ## Step 6: the drawer load (R172–R176) -/

/-- The header of a copy of the drawer store, where it stands (Table 7-5). -/
def State.drwHead (s : State) (c : Bool) : Option (List Byte) :=
  let h := s.slotBytes 6 c 0 272
  if dxi h 0 4 = 0x53575244 ∧ dxi h 4 2 = 1 ∧ dxi h 12 4 = crc32c (h.take 12 ++ h.drop 16) ∧ s.drwCommitted c = true then some h
  else none

/-- The sections of drawer `d` in a copy that passes (R174). -/
def State.drwSections (s : State) (c : Bool) (d : Nat) : Option (List (Nat × List Byte)) :=
  match s.drwHead c with
  | none => none
  | some h =>
    let n := dxi h (16 + 32 * d) 4
    let bs := s.slotBytes 6 c (0x10000 + d * 0x1F0000) n
    let secs := Config.sections bs
    if dxi h (24 + 32 * d) 1 = 1 ∧ n ≤ 0x1F0000 ∧ crc32c bs = dxi h (20 + 32 * d) 4 ∧ secs.any (fun (x : Nat × List Byte) => x.1 == 1) = true
    then some secs else none

/-- The committed copy under R51: the one with the higher SEQ. -/
def State.drwCopy (s : State) : Option Bool :=
  match s.drwHead false, s.drwHead true with
  | some _, some _ => some (decide (s.drwSeq false < s.drwSeq true))
  | some _, none => some false
  | none, some _ => some true
  | none, none => none

/-- The block with an id. -/
def Block.ofId (i : Nat) : Option Block := Block.ofAddr (0x2000000000 + (i - 1) * 0x100000)

/-- The blocks that a section loads (Table 7-6). The table names no section for the Dumbwaiter's banks, which R142 reloads at the
drawer load, nor for the drawer values of GNS, TIM, UPD, BUR and HKP: section 0x02 and section 0x01 are taken (DESIGN CHOICE,
assumption log 60). -/
def sectionBlocks (id : Nat) : List Block :=
  match id with
  | 0x01 => [.SYS, .PWR, .PACE, .GNS, .TIM, .UPD, .BUR, .HKP]
  | 0x02 => [.DMW]
  | 0x03 => [.LPE]
  | 0x04 => [.VLV]
  | 0x05 => [.LSW]
  | 0x06 => [.TBL]
  | 0x07 => [.CAM]
  | 0x08 => [.PNL]
  | 0x09 => [.CAN, .ETH, .PACE]
  | 0x0A => [.AIO, .MAP]
  | _ => []

/-- What a loaded register sets going beside its value. -/
def State.sectionActs (s : State) (b : Block) (o : Nat) (w : Word) : State :=
  if b = .PWR ∧ o = PWR_CFG then s.pwrCfg w
  else if b = .PACE ∧ o = PACE_VCORE_TARGET then s.setFloor 0
  else s

/-- One register value of a section, at offset `o` of the block that its id names: it is loaded as its register takes it, a
read-only one of a drawer value (SYS_EMMC_USER_BASE and SIZE) as it stands. -/
def State.sectionWordAt (s : State) (id o : Nat) (w : Word) : Option Block → State
  | none => s
  | some b =>
    match regRow b o with
    | none => s
    | some row =>
      if (sectionBlocks id).contains b && (row.acc == .rw || row.acc == .rwp) then
        (s.wr b o (row.store (s.rd b o) (regNorm b row o w))).sectionActs b o w
      else if (sectionBlocks id).contains b && row.acc == .ro && row.drw then s.wr b o w
      else s

/-- The drawer's registers take their reset values ahead of its load, so that those of a section it lacks keep them (R173); at a core
reset only those of the core domain are loaded (R174). `all`: with the power-stage domain. -/
def State.drawerClear (s : State) (all : Bool) : State :=
  s.each [Block.SYS, .PWR, .PACE, .DMW, .LPE, .VLV, .LSW, .TBL, .CAM, .PNL, .CAN, .ETH, .AIO, .MAP, .GNS, .TIM, .UPD, .BUR, .HKP]
    (fun s b => s.resetWindow b (fun o => !drwReg b o || (!all && psReg b o)))

/-- One register value of a section. -/
def State.sectionWord (s : State) (id : Nat) (x : Nat × Nat × Word) : State := s.sectionWordAt id x.2.1 x.2.2 (Block.ofId x.1)

/-- Section 0x01 as SYS holds it. -/
def sysSection (p : List Byte) : SysSet :=
  { keyoff := Config.sysKeyoff p, still := Config.sysStill p, wakeTimer := Config.sysWakeTimer p
    limp := (Config.sysLimp p).take 8, lights := Config.sysLights p
    claimV := (Config.sysClaims p).1, claimL := (Config.sysClaims p).2 }

/-- One section is loaded into its blocks (R173, Table 7-6). -/
def State.loadSection (s : State) (x : Nat × List Byte) : State :=
  let s := s.each (Config.sectionRegs x.1 x.2) (fun s w => s.sectionWord x.1 w)
  match x.1 with
  | 0x01 => s.sysMod (fun y => { y with cfg := sysSection x.2 })
  | 0x03 => s.lpeDrawer
  | 0x06 => (s.sysMod (fun y => { y with noise := Config.trackNoise x.2 })).alignLoad x.2
  | 0x07 => s.sysMod (fun y => { y with camSet := x.2 })
  | 0x09 => s.setBit .ETH ETH_STATUS 16 false
  | 0x0A =>
    let s := s.each (upto 6) (fun s k => s.supSwitch k)
    (s.each (upto 48) (fun s n => s.ainShow n)).each (upto 24) (fun s n => s.finShow n)
  | _ => s

/-- The sections of a drawer are loaded; a core reset reloads only those of the core domain (R174). -/
def State.loadSections (s : State) (secs : List (Nat × List Byte)) (first : Bool) : State :=
  s.each (secs.filter (fun (x : Nat × List Byte) => first || (x.1 != 4 && x.1 != 5))) State.loadSection

/-- A coding pin by its resistance to ground in ohms, none where it is open: 0 below 1 kΩ, 1 open or above 4.7 kΩ, and undecided from
1 kΩ to 4.7 kΩ (R26). -/
def strapBit (r : Option Nat) : Option Bool :=
  match r with
  | none => some true
  | some o => if o < 1000 then some false else if 4700 < o then some true else none

/-- The code of the coding pins, and whether one is undecided (R26). The bit that an undecided pin gives the code is left open: it
gives 1 (DESIGN CHOICE, assumption log 119). -/
def strapCode (l : List (Option Nat)) : Nat × Bool :=
  let p := fun i => strapBit (l.getD i none)
  ((upto 3).foldl (fun n i => n + 2 ^ i * b2n ((p i).getD true)) 0, (upto 3).any (fun i => (p i).isNone))

/-- NO_DRAWER: every channel stays off (R175, R176). -/
def State.noDrawer (s : State) : State := (s.sysMod (fun x => { x with noDrawer := true, cfg := { keyoff := 600 } })).bootOff

/-- A copy of the drawer store whose header is torn: its commit flag stands, its check fails (R50). -/
def State.drwTorn (s : State) (c : Bool) : Bool :=
  let h := s.slotBytes 6 c 0 272
  s.drwCommitted c && decide (dxi h 12 4 ≠ crc32c (h.take 12 ++ h.drop 16))

/-- The torn copies of the drawer store are counted and reported (R50). -/
def State.bootDrwTorn (s : State) : State := s.each [false, true] (fun s c => if s.drwTorn c then s.tornUnit 2 else s)

/-- The drawer is selected and loaded (R174); its sections, for the islands it uses. -/
def State.selectDrawer (s : State) (e : BootEnv) : State × List (Nat × List Byte) :=
  let c := strapCode e.straps
  let s := s.bootDrwTorn.drawerClear true
  let s := s.sysMod (fun x => { x with code := c.1, undecided := c.2, noDrawer := false, fallback := false, copyB := false, drawer := 0, camSet := [], noise := [] })
  if c.2 then (s.noDrawer, [])
  else
    let d := if c.1 = 7 then s.nv.drawer.getD 0 else c.1
    let s := (s.setBit .SYS SYS_MODE 11 (c.1 == 7)).setF .SYS SYS_MODE 10 8 d
    let s := s.sysMod (fun x => { x with drawer := d })
    match s.drwCopy with
    | none => (s.noDrawer, [])
    | some k =>
      match s.drwSections k d, s.drwSections (!k) d with
      | some l, _ => ((s.sysMod (fun x => { x with copyB := k })).loadSections l true, l)
      | none, some l => ((s.sysMod (fun x => { x with copyB := !k, fallback := true })).loadSections l true, l)
      | none, none => (s.noDrawer, [])

/-- The core-domain sections of the drawer in use are reloaded, from the same copy or, after a rollback of U06, from the other
one (R174). -/
def State.reloadDrawer (s : State) : State × List (Nat × List Byte) :=
  let d := s.sys.drawer
  let s := s.bootDrwTorn.drawerClear false
  let s := (s.setBit .SYS SYS_MODE 11 (s.sys.code == 7 && !s.sys.undecided)).setF .SYS SYS_MODE 10 8 d
  if s.sys.noDrawer then (s, [])
  else
    let k := s.sys.copyB
    match s.drwSections k d, s.drwSections (!k) d with
    | some l, _ => (s.loadSections l false, l)
    | none, some l => ((s.sysMod (fun x => { x with copyB := !k })).loadSections l false, l)
    | none, none => (s.noDrawer, [])

/-- Step 6: U06 counts its boot, then the drawer load; a power-on and a wake restore budgets, windows and locks (R48). -/
def State.bootDrawer (s : State) (e : BootEnv) (boot : Bool) : State × List (Nat × List Byte) :=
  let s := if boot then s.updBoot 6 else s
  let r := if s.sys.kind = 2 then s.reloadDrawer else s.selectDrawer e
  let r := (r.1.gmMoved s.isGm, r.2)
  (if s.sys.kind = 0 ∨ s.sys.kind = 1 then r.1.restoreSnap (e.off.getD 0) else r.1, r.2)

/-! ## Steps 7 and 8 -/

/-- The maximum end of each step in µs (Sequence 7-1), with the times that activations add. -/
def stepMax (act : List Nat) (n : Nat) : Nat :=
  let ms := [0, 5, 40, 570, 590, 650, 700, 740, 790, 800].getD (n - 1) 0
  1000 * (ms + (if n < 7 then 0 else (if act.contains 6 then 60 else 0) + (if act.contains 1 then 40 else 0)))

/-- The steps that a kind of start-up runs up to its report (Table 7-7). -/
def stepsOf (kind : Nat) : List Nat :=
  match kind with
  | 0 => [1, 2, 3, 4, 5, 6, 7, 8] | 1 => [1, 2, 3, 4, 5, 6, 7, 8] | 2 => [3, 4, 5, 6, 8] | _ => [3, 4, 5, 6, 7, 8]

/-- STEP_END of step `i + 1`, after one that ended at `r.2.1`: a free value, no earlier and within the maximum. -/
def stepEnd (act : List Nat) (r : State × Nat × List Byte) (i : Nat) : State × Nat × List Byte :=
  let t := r.2.1 + r.1.freeNat (stepMax act (i + 1) + 1 - r.2.1)
  if (stepsOf r.1.sys.kind).contains (i + 1) then (r.1.drawn, t, r.2.2 ++ leBytes 4 t)
  else (r.1, r.2.1, r.2.2 ++ leBytes 4 0)

/-- STEP_END of the report: free values, in order and no later than the maxima; steps 9 and 10 lie after the report. -/
def State.stepEnds (s : State) (act : List Nat) : State × List Byte :=
  let r := (upto 8).foldl (stepEnd act) (s, 0, [])
  (r.1, r.2.2 ++ leBytes 8 0)

/-- The start-up report (Table 7-8), its commit flag last. -/
def State.bootReport (s : State) (act : List Nat) : State :=
  let still := (upto 16).foldl (fun n r => n + (if (s.slotIn r 2).isSome then 2 ^ r else 0)) 0
  let r := s.stepEnds act
  let s := r.1
  let held := (upto 40).foldl (fun n i => n + (if s.lswBit i 23 then 2 ^ i else 0)) 0
  let x := s.sys
  let b2 := x.code + 128 * b2n x.undecided
  let b3 := x.drawer + 8 * b2n (x.code == 7 && !x.undecided) + 16 * b2n x.copyB + 32 * b2n x.fallback + 64 * b2n x.noDrawer +
    128 * b2n s.limpLatch
  let bs := [byteN x.kind, byteN x.wakeCause, byteN b2, byteN b3] ++ leBytes 2 (act.foldl (fun n r => n + 2 ^ r) 0) ++
    leBytes 2 still ++ r.2 ++ leBytes 4 (s.rdN .VLV VLV_HELD) ++ leBytes 5 held ++ List.replicate 198 0
  (((s.store 0x10FF [0]).store 0x1000 bs).store 0x10FF [0x5A])

/-- Host core 0 is released at M level at an entry (R180). -/
def State.hostStart (s : State) (c pc : Nat) : State :=
  (s.setF .SYS (SYS_HOST_STATUS c) 1 0 1).setCpu (.host (Fin.ofNat 8 c)) { pc := BitVec.ofNat 64 pc }

/-- Step 8: the other regions' boots, the islands, the SEAL of U00, the report, the release of host core 0. -/
def State.bootRelease (s : State) (secs : List (Nat × List Byte)) (act : List Nat) : State :=
  let s := s.islRun (if s.sys.noDrawer then [8, 9, 10, 11, 12, 13]
    else [24, 25] ++ (Config.islandsUsed secs).filter (fun k => decide (k < 24)))
  let s := s.each ((upto 16).filter (fun r => r != 1 && r != 6)) (fun s r => s.updBoot r)
  match s.sealedSlot 0 with
  | none => s.bootStop 8
  | some b => ((if s.sys.noDrawer then s else s.fwStart).bootReport act).hostStart 0 (norBase + slotBase 0 b + 0x1000)

/-- Steps 3–8 of a start-up: the requests of U01 and U06 repeat their step where step 7 activates them. -/
def State.bootSteps (s : State) (e : BootEnv) : State :=
  let first := s.sys.kind == 0 || s.sys.kind == 1
  let s := s.bootPair e (s.sys.kind != 2)
  let s := s.bootStep (fun s => (s.islRun [16, 26, 27]).bootMram e first)
  if s.sys.stopped ≠ 0 then s
  else
    let d := s.bootDrawer e true
    let a := if s.sys.kind = 2 then (d.1, []) else d.1.updActivate
    let s := if a.2.contains 1 then a.1.bootPair e false else a.1
    if s.sys.stopped ≠ 0 then s
    else
      let d := if a.2.contains 6 then s.bootDrawer e true else (s, d.2)
      d.1.bootRelease d.2 a.2

/-- A start-up of a kind runs up to the release of host core 0 (R178, R179): SYS_MODE shows DORMANT in transition. -/
def State.startup (s : State) (kind cause : Nat) (e : BootEnv) : State :=
  let s := s.sysMod (fun x => { x with
    active := true, kind := kind, stopped := 0, wakeCause := cause, storing := false, auto := false, still := false
    ign := bitOf (e.pins.setWidth 32) 0, wake := bitOf (e.pins.setWidth 32) 1
    wakeSvc := bitOf (e.pins.setWidth 32) 2, svcEn := bitOf (e.pins.setWidth 32) 3 })
  let s := s.setF .SYS SYS_MODE 7 0 0x80
  let s := if kind = 0 ∨ kind = 1 then s.bootSupply e else s
  s.bootSteps e

/-! ## Resets -/

/-- A power-on start-up (R32, R178); the wake inputs that stand high are its causes. -/
def State.powerOn (s : State) (e : BootEnv) : State :=
  let s := s.powerReset false
  (s.putAon { s.aon with wake := 0 }).startup 0 (e.pins.toNat % 8) e

/-- A wake start-up for causes of Table 7-8 (R178, R184); SYS24 stands until the next power-on reset (R32). -/
def State.wakeUp (s : State) (cause : Nat) (e : BootEnv) : State :=
  let s := (((s.powerReset true).poisonShow).wr .SYS SYS_RESET_CAUSE 0).pstSet 8 (s.pst 8)
  (s.putAon { s.aon with wake := 0 }).startup 1 cause e

/-- A wake source fires in DORMANT (R184): the wake start-up runs once BAT_M stands at the qualify threshold; below it the cause waits
for SUPPLY_QUALIFIED (R32). -/
def State.wakeTry (s : State) (cause : Nat) (e : BootEnv) : State :=
  let c := s.aon.wake ||| cause
  if 6500 ≤ e.volts.getD 0 0 then s.wakeUp c e else s.putAon { s.aon with wake := c }

/-- SYS_RESET_CAUSE after a core reset. -/
def State.causeSet (s : State) (bit : Nat) : State :=
  s.wrN .SYS SYS_RESET_CAUSE (satAdd 65535 (s.f .SYS SYS_RESET_CAUSE 31 16) 1 * 65536 + 2 ^ bit)

/-- A core reset with a cause bit (R178, R185): in SERVICE CORE_RESET is a service restart, before which every channel takes its
fail state. During a power-loss sequence, in DORMANT and with the die off nothing is left to reset. -/
def State.coreReset (s : State) (bit : Nat) (e : BootEnv) : State :=
  match s.pwr.phase with
  | .run | .ride | .reserve =>
    let service := bit == 1 && s.mode == 5 && !s.sys.active
    let s := if service then s.failAll else s
    ((s.dieReset (!service)).causeSet bit).startup (if service then 3 else 2) 0 e
  | _ => s

/-! ## The end of a start-up (R183, R461, R462) -/

/-- Step 10: the start-up ends, the watchdog starts, and the pair closes BAT_V where the latch is clear and the cut-off test
passed. -/
def State.bootFinish (s : State) : State :=
  let s := s.sysMod (fun x => { x with active := false })
  let s := ((s.setBit .SAF SAF_STATUS 5 true).setBit .SAF SAF_WDG_STATUS 0 false).putSaf { s.saf with kickAt := s.clk.up }
  if !s.limpLatch && s.bit .SAF SAF_STATUS 4 then s.setBatv true else s

/-- A MODE_REQ during a start-up (R183): ROAD, or DORMANT when IGN, WAKE and WAKE_SVC are all low; with the LIMP latch set a
request for ROAD enters LIMP and ends with REFUSED_MODE. A stopped start-up refuses. -/
def State.bootModeReq (s : State) (m : Nat) : State × Option Result :=
  if 6 < m then refuse s .badHeader
  else if s.sys.stopped ≠ 0 then refuse s .refusedMode
  else if m = 1 then
    let s := s.bootFinish.sysMod (fun x => { x with auto := true })
    if s.limpLatch then done (s.enterMode 6 false) .refusedMode
    else done (s.enterMode 1 (s.sys.kind == 2)) .ok
  else if m = 0 ∧ s.allLow = true then (s.bootFinish.dormantBegin false, none)
  else refuse s .refusedMode

/-- MODE_REQ (R166, R183); `svcEn`: the level of SVC_EN at the request. -/
def execModeReq (svcEn : Bool) (s : State) : Res :=
  let s := s.sysMod (fun x => { x with svcEn := svcEn })
  ok (s.command .SYS 1 fun a s =>
    if s.sys.active then s.bootModeReq (arg a 0).toNat else s.modeReq (arg a 0).toNat)

/-! ## The commands and events that reset or wake -/

/-- SUPPLY_QUALIFIED (R32): BAT_M stood at 6.5 V for 20 ms, and a wake input is high, or, in DORMANT, a wake source has fired. -/
def execSupplyQualified (e : BootEnv) (s : State) : Res :=
  if e.volts.getD 0 0 < 6500 then ok s
  else if s.pwr.phase = .off ∧ e.pins.toNat % 8 ≠ 0 then ok (s.powerOn e)
  else if s.pwr.phase = .dormant ∧ s.aon.wake ≠ 0 then ok (s.wakeUp s.aon.wake e)
  else ok s

/-- The module sleeps in DORMANT and wakes for a cause. -/
def State.wakeIf (s : State) (cause : Nat) (e : BootEnv) : State :=
  if s.pwr.phase = .dormant then s.wakeTry cause e else s

/-- The bit of a wake input in WAKE_CAUSE. -/
def WakePinBit (p : WakePin) : Nat := match p with | .ign => 1 | .wake => 2 | .wakeSvc => 4

/-- WAKE_INPUT_RISE (R184): in DORMANT it wakes the module; else the level is taken, and IGN in ROAD switches the ROAD lighting
set on (Table 7-3). -/
def execWakeInputRise (p : WakePin) (e : BootEnv) (s : State) : Res :=
  if s.pwr.phase = .dormant then ok (s.wakeTry (WakePinBit p) e)
  else
    let light := p == .ign && s.mode == 1 && !s.sys.ign && !s.sys.active
    let s := s.setPin p true
    ok (if light then s.lightsTo 1 true else s)

/-- WAKE_TIMER_EXPIRED (R184). -/
def execWakeTimerExpired (e : BootEnv) (s : State) : Res :=
  if s.sys.cfg.wakeTimer ≠ 0 then ok (s.wakeIf 0x20 e) else ok s

/-- CAN_BUS_WAKE (R401) on the controller's island. -/
def execCanBusWake (n : Fin 8) (e : BootEnv) (s : State) : Res :=
  if s.bit .PACE (PACE_ISL_CTRL n.val) 8 then ok (s.wakeIf 0x08 e) else ok s

/-- ETH_LINK_WAKE (R407) on the port's PHY island. -/
def execEthLinkWake (p : Fin 5) (e : BootEnv) (s : State) : Res :=
  if s.bit .PACE (PACE_ISL_CTRL (9 + p.val)) 8 then ok (s.wakeIf 0x10 e) else ok s

/-- DORMANT_ENTRY_WAKE (R169): during the store steps, of which the first `k` have run, the module returns to ROAD; `late`: the
island stop had begun, so the entry completes and the rise wakes. -/
def execDormantEntryWake (p : WakePin) (late : Bool) (k : Fin 5) (e : BootEnv) (s : State) : Res :=
  if s.sys.storing = false then ok s
  else if late then ok ((s.dormantFinish e.cut).wakeTry (WakePinBit p) e)
  else
    let s := ((s.dormantStores k.val).setPin p true).sysMod (fun x => { x with storing := false, auto := true })
    let s := s.cmdEndIf .SYS 1 .aborted
    ok (if s.limpLatch then s.enterMode 6 false else s.enterMode 1 false)

/-- STARTUP_WATCHDOG (R182): step 10 was not reached within 3 s of the release of host core 0. -/
def execStartupWatchdog (e : BootEnv) (s : State) : Res :=
  if s.sys.active = true ∧ s.sys.stopped = 0 then ok (s.coreReset 2 e) else ok s

/-- CORE_RESET (R178): the key in ARG0. -/
def execCoreReset (e : BootEnv) (s : State) : Res :=
  if (s.mailOf .SYS).code = 0 ∧ s.rd .SYS (SYS_CMD_ARG 0) = 0xC35A then ok (s.coreReset 1 e)
  else ok (s.command .SYS 7 fun _ s => refuse s .badHeader)

/-- THERMAL_RESTART (R456): after a thermal shutdown, not before its sites have stood below their limit for 10 s, a core-reset
start-up without a hold. -/
def execThermalRestart (e : BootEnv) (s : State) : Res :=
  if s.pwr.phase = .thermal then
    let s := s.pass (s.pwr.since + 10000000000 - s.clk.up)
    ok ((((s.setPhase .run).dieReset false).causeSet 4).startup 2 0 e) else ok s

/-- DRAWER_SET (R177). -/
def execDrawerSet (s : State) : Res :=
  ok (s.command .SYS 2 fun a s =>
    if s.sys.active ∨ ¬(s.mode = 1 ∨ s.mode = 5) then refuse s .refusedMode
    else if 7 < (arg a 0).toNat then refuse s .badHeader
    else if s.sys.code ≠ 7 then refuse s .locked
    else if !s.mramOk then refuse s .refusedTemp
    else done (s.putNv { s.nv with drawer := some (arg a 0).toNat }) .ok)

end Sys2Proof.Machine
end

