-- ==== Sys2Proof/Machine/Channels.lean ====
section
/-! DEFINITION. Channels between tiles, pigeonholes, engine ports and memory rings, waits on device time, and the release, halt
and reset of tiles and host cores (R114–R126, Tables 5-1, 5-2, 5-10, 6-9). -/

namespace Sys2Proof.Machine

/-! ## Endpoint entries (Table 5-1) -/

/-- What an endpoint entry binds a channel to. -/
inductive End where
  | unbound
  | bad
  | tileSend (peer ch : Nat)
  | tileRecv (peer ch depth : Nat)
  | phRecv (p : Nat)
  | port (p : Nat)
  | ringSend (base len : Nat)
  | ringRecv (base len : Nat)
  deriving DecidableEq, Repr

/-- The depth of a receive end. -/
def endDepth (w0 : Nat) : Nat := clampN 1 64 (dfld w0 15 8)

/-- The endpoint entry of channel `c` of tile `t`. -/
def State.endOf (s : State) (t c : Nat) : End :=
  let w := s.endp t c
  let v := s.endp1 t c
  let ring := dfld v 39 6 * 64
  let len := 2 ^ clampN 4 16 (dfld v 57 52)
  if w.testBit 63 = false then .unbound
  else match dfld w 61 60, w.testBit 62 with
    | 0, false => .tileSend (dfld w 49 40) (dfld w 59 50)
    | 0, true => .tileRecv (dfld w 49 40) (dfld w 59 50) (endDepth w)
    | 1, true => .phRecv (dfld w 7 0)
    | 2, false => .port (dfld w 7 0)
    | 3, false => .ringSend ring len
    | 3, true => .ringRecv ring len
    | _, _ => .bad

/-- The depth of the receive end that a send end names, where it names this one back (R115). -/
def State.peerDepth (s : State) (t c peer ch : Nat) : Option Nat :=
  if 257 < peer then none
  else match s.endOf peer ch with
    | .tileRecv p k d => if p = t ∧ k = c then some d else none
    | _ => none

/-- A receive end of a tile channel names a send end that names it back. -/
def State.peerSends (s : State) (t c peer ch : Nat) : Bool :=
  decide (peer ≤ 257) && s.endOf peer ch == .tileSend t c

/-! ## Rings (R123) -/

/-- HEAD of a ring. -/
def State.ringHead (s : State) (base : Nat) : Nat := s.rdLE base 8
/-- TAIL of a ring. -/
def State.ringTail (s : State) (base : Nat) : Nat := s.rdLE (base + 8) 8

/-- The words a ring holds. -/
def State.ringHeld (s : State) (base : Nat) : Nat := (s.ringHead base + 2 ^ 64 - s.ringTail base) % 2 ^ 64

/-- The address of word `k` of a ring. -/
def ringWord (base len k : Nat) : Nat := base + 64 + 8 * (k % len)

/-! ## Traps -/

/-- Cause CHANNEL with its reason and channel number (R121). -/
def State.chTrap (s : State) (a : Agent) (reason c : Nat) : State :=
  s.takeTrap a false 0x10 (BitVec.ofNat 64 (reason * 4096 + c))

/-! ## send and recv (R116, R117) -/

/-- Field chan of the CH format. -/
def fChan (w : BitVec 26) : Nat := dfld w.toNat 15 6
/-- Field fn of the CH format. -/
def fFn (w : BitVec 26) : Nat := dfld w.toNat 5 0

/-- What a channel operation comes to: it is done, it cannot be done now, or it cannot act for a reason of R121. -/
inductive ChOut where
  | ok (s : State) (v : Dword)
  | full
  | reason (r : Nat)

/-- One word sent on channel `c` of tile `t`. -/
def State.chSend (s : State) (t : Fin 258) (c : Nat) (v : Dword) : ChOut :=
  match s.endOf t.val c with
  | .unbound => .reason 1
  | .tileSend p k =>
    match s.peerDepth t.val c p k with
    | none => .reason 4
    | some d =>
      let l := s.fifoOf p k
      if l.length < d then .ok (s.setFifo p k (l ++ [v])) 0 else .full
  | .port p => .ok (s.putPorts (s.ports.set none p (some v))) 0
  | .ringSend b len =>
    let s := s.drainStores (.tile t)
    if len ≤ s.ringHeld b then .full
    else
      let h := s.ringHead b
      .ok ((s.progStore false (ringWord b len h) (leBytes 8 v.toNat)).progStore false b (leBytes 8 (h + 1))) 0
  | _ => .reason 2

/-- One word taken from channel `c` of tile `t`. -/
def State.chRecv (s : State) (t : Fin 258) (c : Nat) : ChOut :=
  let take (s : State) : ChOut := match s.fifoOf t.val c with
    | [] => .full
    | v :: l => .ok (s.setFifo t.val c l) v
  match s.endOf t.val c with
  | .unbound => .reason 1
  | .tileRecv p k _ => if s.peerSends t.val c p k then take s else .reason 4
  | .phRecv _ => take s
  | .ringRecv b len =>
    let s := s.drainStores (.tile t)
    if s.ringHeld b = 0 then .full
    else
      let k := s.ringTail b
      let v := BitVec.ofNat 64 (s.rdLE (ringWord b len k) 8)
      .ok (s.progStore false (b + 8) (leBytes 8 (k + 1))) v
  | _ => .reason 2

/-- The effect of a send (R116): TRY never blocks and answers in rd. -/
def State.sendBody (s : State) (t : Fin 258) (w : BitVec 26) : State :=
  let a := Agent.tile t
  let f := fFn w
  let try_ := f.testBit 0
  if 4 ≤ f ∨ (fRd w ≠ 0 ∧ try_ = false) then s.illegal a 0x31 w
  else
    let s := if f.testBit 1 then s.drainStores a else s
    match s.chSend t (fChan w) (s.g a (fRs1 w)) with
    | .ok s _ => (if try_ then s.setG a (fRd w) 1 else s).next a
    | .full => if try_ then (s.setG a (fRd w) 0).next a else s.setBlocked a (.send w)
    | .reason r => s.chTrap a r (fChan w)

/-- The effect of a recv (R117). -/
def State.recvBody (s : State) (t : Fin 258) (w : BitVec 26) : State :=
  let a := Agent.tile t
  if (fFn w ≠ 0 ∧ fFn w ≠ 2) ∨ fRs1 w ≠ 0 then s.illegal a 0x32 w
  else
    match s.chRecv t (fChan w) with
    | .ok s v => (s.setG a (fRd w) v).next a
    | .full => s.setBlocked a (.recv w)
    | .reason r => s.chTrap a r (fChan w)

/-- An instruction of a tile alone; ILLEGAL on a host core (R139). -/
def State.tileIssue (s : State) (a : Agent) (op : Nat) (w : BitVec 26) (body : Fin 258 → State → State) : State :=
  s.issue a fun s => match a with
    | .host _ => s.illegal a op w
    | .tile t => body t s

/-- A tile that waits in `b` tries again. -/
def State.retry (s : State) (t : Fin 258) (body : State → State) : State :=
  if s.runs (.tile t) then body (s.setBlocked (.tile t) .no) else s

/-- SEND (R116). -/
def execSend (a : Agent) (w : BitVec 26) (s : State) : Res := ok (s.tileIssue a 0x31 w fun t s => s.sendBody t w)

/-- SEND_UNBLOCK (R116). -/
def execSendUnblock (t : Fin 258) (s : State) : Res :=
  match (s.cpu (.tile t)).blocked with
  | .send w => ok (s.retry t (fun s => s.sendBody t w))
  | _ => ok s

/-- RECV (R117). -/
def execRecv (a : Agent) (w : BitVec 26) (s : State) : Res := ok (s.tileIssue a 0x32 w fun t s => s.recvBody t w)

/-- RECV_UNBLOCK (R117). -/
def execRecvUnblock (t : Fin 258) (s : State) : Res :=
  match (s.cpu (.tile t)).blocked with
  | .recv w => ok (s.retry t (fun s => s.recvBody t w))
  | _ => ok s

/-! ## pick (R118) -/

/-- The guard of channel `c`: a receive end holds a word, a send end has space; or the reason why it cannot act. -/
def State.guard (s : State) (t c : Nat) : Except Nat Bool :=
  match s.endOf t c with
  | .unbound => .error 1
  | .bad => .error 2
  | .tileSend p k => match s.peerDepth t c p k with
    | none => .error 4
    | some d => .ok (decide ((s.fifoOf p k).length < d))
  | .tileRecv p k _ => if s.peerSends t c p k then .ok (!(s.fifoOf t c).isEmpty) else .error 4
  | .phRecv _ => .ok (!(s.fifoOf t c).isEmpty)
  | .port _ => .ok true
  | .ringSend b len => .ok (decide (s.ringHeld b < len))
  | .ringRecv b _ => .ok (s.ringHeld b != 0)

/-- The first true guard of an order of indices, or the first that cannot act, with its index. -/
def State.firstGuard (s : State) (t base : Nat) : List Nat → Except (Nat × Nat) (Option Nat)
  | [] => .ok none
  | i :: l => match s.guard t (base + i) with
    | .error r => .error (r, base + i)
    | .ok true => match s.firstGuard t base l with
      | .error e => .error e
      | .ok _ => .ok (some i)
    | .ok false => s.firstGuard t base l

/-- The effect of a pick. -/
def State.pickBody (s : State) (t : Fin 258) (w : BitVec 26) : State :=
  let a := Agent.tile t
  let timed := (fFn w).testBit 1
  let base := fChan w
  let mask := (s.g a (fRs1 w)).toNat % 256
  if fFn w ≠ 0 ∧ fFn w ≠ 2 then s.illegal a 0x33 w
  else if base % 8 ≠ 0 ∨ (mask = 0 ∧ timed = false) then s.chTrap a 3 base
  else
    let key := t.val * 128 + base / 8
    let first := s.pickLast.get 0 key
    let order := ((upto 8).map (fun k => (first + k) % 8)).filter (fun i => mask.testBit i)
    match s.firstGuard t.val base order with
    | .error (r, c) => s.chTrap a r c
    | .ok g =>
      if timed ∧ (s.g a (fRd w)).toNat ≤ s.now then (s.setG a (fRd w) 8).next a
      else match g with
        | some i => ((s.putPickLast (s.pickLast.set 0 key (i + 1))).setG a (fRd w) (BitVec.ofNat 64 i)).next a
        | none => s.setBlocked a (.pick w)

/-- PICK (R118). -/
def execPick (a : Agent) (w : BitVec 26) (s : State) : Res := ok (s.tileIssue a 0x33 w fun t s => s.pickBody t w)

/-- PICK_UNBLOCK (R118). -/
def execPickUnblock (t : Fin 258) (s : State) : Res :=
  match (s.cpu (.tile t)).blocked with
  | .pick w => ok (s.retry t (fun s => s.pickBody t w))
  | _ => ok s

/-- RING_REREAD (R123): a tile that waits on a ring reads the far counter again. -/
def execRingReread (t : Fin 258) (s : State) : Res :=
  let ring := fun w => match s.endOf t.val (fChan w) with
    | .ringSend _ _ => true
    | .ringRecv _ _ => true
    | _ => false
  match (s.cpu (.tile t)).blocked with
  | .send w => if ring w then ok (s.retry t (fun s => s.sendBody t w)) else ok s
  | .recv w => if ring w then ok (s.retry t (fun s => s.recvBody t w)) else ok s
  | .pick w => ok (s.retry t (fun s => s.pickBody t w))
  | _ => ok s

/-! ## Time and state (R119, R120) -/

/-- The effect of a waitt: its deadline is reached, or the agent waits. -/
def State.waittBody (s : State) (a : Agent) (w : BitVec 26) : State :=
  let d := (s.g a (fRs1 w)).toNat
  if d ≤ s.now then
    let r := s.nowOf a d
    (r.2.setG a (fRd w) r.1).next a
  else s.setBlocked a (.waitt w)

/-- WAITT (R119); ILLEGAL with another fn of CH3 or a channel number. -/
def execWaitt (a : Agent) (w : BitVec 26) (s : State) : Res :=
  ok (s.issue a fun s => if fFn w ≠ 0 ∨ fChan w ≠ 0 then s.illegal a 0x34 w else s.waittBody a w)

/-- WAITT_EXPIRE (R119). -/
def execWaittExpire (a : Agent) (s : State) : Res :=
  match (s.cpu a).blocked with
  | .waitt w =>
    if s.runs a = true ∧ (s.g a (fRs1 w)).toNat ≤ s.now then ok ((s.setBlocked a .no).waittBody a w) else ok s
  | _ => ok s

/-- The state of a channel: V, DIR, and words held or free words; none for an entry of KIND 1 or 2 whose DIR is wrong. The count is
0 of an unbound entry and of a send end whose peer does not name it back, 1 of an engine port, and at most 65,535 of a ring (DESIGN
CHOICE, assumption logs 37 and 117). -/
def State.chState (s : State) (t c : Nat) : Option Nat :=
  match s.endOf t c with
  | .unbound => some (if (s.endp t c).testBit 62 then 0x20000 else 0)
  | .bad => none
  | .tileSend p k => some (0x10000 + (match s.peerDepth t c p k with | some d => d - (s.fifoOf p k).length | none => 0))
  | .tileRecv _ _ _ => some (0x30000 + (s.fifoOf t c).length)
  | .phRecv _ => some (0x30000 + (s.fifoOf t c).length)
  | .port _ => some 0x10001
  | .ringSend b len => some (0x10000 + min 65535 (len - s.ringHeld b))
  | .ringRecv b _ => some (0x30000 + min 65535 (s.ringHeld b))

/-- CHSTAT (R120); on an entry whose DIR is wrong it raises CHANNEL reason 2 (R121, R126). -/
def execChstat (a : Agent) (w : BitVec 26) (s : State) : Res :=
  ok (s.tileIssue a 0x34 w fun t s =>
    if fFn w ≠ 1 ∨ fRs1 w ≠ 0 then s.illegal a 0x34 w
    else match s.chState t.val (fChan w) with
      | some v => (s.setG a (fRd w) (BitVec.ofNat 64 v)).next a
      | none => s.chTrap a 2 (fChan w))

/-! ## Engine ports (R126, Table 5-10) -/

/-- The register write that a word at an engine port stands for. -/
def State.portWrite (s : State) (p : Nat) (v : Dword) : State :=
  let w := wordN v.toNat
  if p < 128 then s.lpeWrite (LPE_PIN p) w
  else if p < 160 then s.vlvProgIn (p - 128) w
  else if p < 192 then s.swreq (BitVec.ofNat 32 (2 ^ (p - 160)))
  else if p = 192 then s.wr .TBL TBL_EGO_V w
  else if p = 193 then s.wr .TBL TBL_EGO_W w
  else s

/-- ENGINE_PORT_WORD (R126): the word that a port holds takes effect. -/
def execEnginePortWord (port : Fin 256) (s : State) : Res :=
  match s.ports.get none port.val with
  | some v => ok ((s.putPorts (s.ports.set none port.val none)).portWrite port.val v)
  | none => ok s

/-! ## Tiles and host cores (R115, R125, Table 6-9) -/

/-- The tiles that ARG0 and ARG1 name; none where they are out of range. -/
def tileRange (a : List Word) : Option (List Nat) :=
  let first := (arg a 0).toNat
  let n := (arg a 1).toNat
  if 255 < first ∨ n = 0 ∨ 256 < first + n then none else some ((upto n).map (fun i => first + i))

/-- The DEPTH values of a tile's receive ends, summed (R115). -/
def State.depthSum (s : State) (t : Nat) : Nat :=
  (upto 1024).foldl (fun n c => match s.endOf t c with | .tileRecv _ _ d => n + d | _ => n) 0

/-- STATE of a tile. -/
def State.tileState (s : State) (t : Nat) : Nat := s.f .SYS (SYS_TILE_STATE t) 1 0

/-- A tile starts at local offset 0. -/
def State.tileStart (s : State) (t : Nat) : State :=
  let a : Agent := .tile (Fin.ofNat 258 t)
  let s := s.setF .SYS (SYS_TILE_STATE t) 1 0 1
  s.setCpu a { s.cpu a with pc := BitVec.ofNat 64 (tileBase + t * 0x10000), trapped := false, blocked := .no }

/-- TILE_RELEASE. -/
def execTileRelease (s : State) : Res :=
  ok (s.command .SYS 3 fun a s =>
    match tileRange a with
    | none => refuse s .badHeader
    | some ts =>
      let new := ts.filter (fun t => !s.tileRuns t)
      if new.any (fun t => decide (512 < s.depthSum t)) then refuse s .noSpace
      else done (s.each new State.tileStart) .ok)

/-- The words that wait at a tile's receive ends are discarded; sends of other tiles blocked on them raise CHANNEL reason 5
(R125). -/
def State.tileDiscard (s : State) (t : Nat) : State :=
  let s := s.putFifo (s.fifo.keep (fun k => k / 1024 != t))
  s.each (List.finRange 258) (fun s u =>
    match (s.cpu (.tile u)).blocked with
    | .send w => match s.endOf u.val (fChan w) with
      | .tileSend p _ => if p = t ∧ u.val ≠ t then s.chTrap (.tile u) 5 (fChan w) else s
      | _ => s
    | _ => s)

/-- TILE_HALT: running tiles halt with cause 0x3F. -/
def execTileHalt (s : State) : Res :=
  ok (s.command .SYS 4 fun a s =>
    match tileRange a with
    | none => refuse s .badHeader
    | some ts =>
      let run := ts.filter s.tileRuns
      done (s.each run (fun s t => ((s.tileHalt t 0x3F).setBlocked (.tile (Fin.ofNat 258 t)) .no).tileDiscard t)) .ok)

/-- TILE_RESET: not released, registers at their reset values; local memory and endpoint table kept. -/
def execTileReset (s : State) : Res :=
  ok (s.command .SYS 5 fun a s =>
    match tileRange a with
    | none => refuse s .badHeader
    | some ts =>
      done (s.each ts (fun s t =>
        ((s.setF .SYS (SYS_TILE_STATE t) 15 0 0).setCpu (.tile (Fin.ofNat 258 t)) {}).tileDiscard t)) .ok)

/-- HOST_RELEASE: each named core that awaits release starts at M level at the entry. -/
def execHostRelease (s : State) : Res :=
  ok (s.command .SYS 6 fun a s =>
    let entry := (arg a 1).toNat + fld (arg a 2) 7 0 * 2 ^ 32
    let cs := (bitsOf (arg a 0).toNat 8).filter (fun c => c != 0 && s.f .SYS (SYS_HOST_STATUS c) 1 0 == 0)
    done (s.each cs (fun s c => s.hostStart c entry)) .ok)

end Sys2Proof.Machine
end

