-- ==== Sys2Proof/Machine/Pair.lean ====
section
/-! DEFINITION. The safety pair and perturbation (SAF, TST): checks, the comparator, the cut-off switch test, the watchdog, the
LIMP clear, and the perturbation lock (R76, R459–R470). -/

namespace Sys2Proof.Machine

/-- The safety pair supervises (SAF_STATUS.PAIR_RUN) on a powered die. -/
def State.pairRuns (s : State) : Bool := s.dieOn && s.bit .SAF SAF_STATUS 6

/-- What the surroundings are where a register write causes a start-up: the present pins, and everything else open. -/
def State.bootEnv (s : State) : BootEnv :=
  { Config.surroundings s.free with
    pins := BitVec.ofNat 4 (b2n s.sys.ign + 2 * b2n s.sys.wake + 4 * b2n s.sys.wakeSvc + 8 * b2n s.sys.svcEn) }

/-! ## Faults (R459, R460, R466) -/

/-- COMPARATOR_MISMATCH (R459): it acts without firmware, during a core reset too. -/
def execComparatorMismatch (s : State) : Res := if s.dieOn then ok (s.safetyFault 1 0) else ok s

/-- The check codes of Table 20-2, and 0x03 of the SRAM march on the pair's memories (Table 20-4). -/
def pairCheck (code : Nat) : Bool :=
  code == 3 || (decide (0x10 ≤ code) && decide (code ≤ 0x14)) || (decide (0x20 ≤ code) && decide (code ≤ 0x22)) ||
    (decide (0x30 ≤ code) && decide (code ≤ 0x32))

/-- Of a check, the ms between two samples and the samples that confirm it (Table 20-2); check 0x13 and the march of the pair's
memories need one. -/
def pairTiming (code : Nat) : Nat × Nat :=
  match code with
  | 0x10 | 0x11 => (1, 10)
  | 0x12 | 0x14 => (1, 15)
  | 0x20 => (2, 10)
  | 0x21 | 0x22 => (2, 20)
  | 0x30 | 0x31 | 0x32 => (10, 10)
  | 0x13 => (1, 1)
  | _ => (0, 1)

/-- The instance may be one of the check's (R460): a valve channel of SF2 by its CFG.SF, a group feed, V26 or V27. -/
def State.pairAssigned (s : State) (code src : Nat) : Bool :=
  match code with
  | 0x20 | 0x21 => decide (src < 32) && s.f .VLV (VLV_CH_CFG src) 26 25 == 2
  | 0x22 => decide (src < 8)
  | 0x31 | 0x32 => src == 26 || src == 27
  | _ => true

/-- The condition of Table 20-2 on one sample. `a`, `b`: 0x10 and 0x30 the two sensors (mV); 0x11 the wheel angle rate and the ground
speed; 0x12, 0x14, 0x21 and 0x32 the measured current (mA); 0x13 the ms since the last completed LP000 sample and since the last
write of LPE_PIN[0]; 0x20 the measured current and the ms for which the applied target has been 0; 0x22 the group feed current
and the sum of its channels' currents; 0x31 the auger angle and the current. -/
def State.pairHolds (s : State) (code src : Nat) (a b : Int) : Bool :=
  let v := s.rdN .SAF SAF_PARAM_VER
  let t : Int := s.applied (if code = 0x12 then 0 else src)
  match code with
  | 0x10 => decide (Config.pairTol v 0x10 < ((Config.pairAngle v 0 a - Config.pairAngle v 1 b).natAbs : Int))
  | 0x11 => decide (Config.pairRateMax v b < (a.natAbs : Int))
  | 0x12 => decide (t + 1000 < 10 * ((2 * a - t).natAbs : Int))
  | 0x13 => decide (15 < a) || decide (15 < b)
  | 0x14 => decide (50 ≤ a) && !mfPermitted s.mode 27
  | 0x20 => decide (100 ≤ a) && decide (30 ≤ b) && t == 0
  | 0x21 => decide (t + 2000 < 10 * (2 * a - t))
  | 0x22 => decide (b + 500 < a)
  | 0x30 => decide (Config.pairTol v 0x30 < ((Config.pairAngle v 15 a - Config.pairAngle v 16 b).natAbs : Int))
  | 0x31 => decide (50 ≤ b) && Config.pairZone v a
  | 0x32 => decide (50 ≤ a) && s.mode != 4
  | _ => true

/-- The samples in a row on which a check's condition has held on an instance. -/
def State.pairRunOf (s : State) (code src : Nat) : Nat := s.saf.run.get 0 (code * 65536 + src)

/-- One sample of a check (R460): the first on which its condition holds starts a confirmation, which SAF_CHECK_CNT counts; the
last of its confirmation time declares the fault; one on which it does not hold ends the confirmation. -/
def State.pairSample (s : State) (code src : Nat) (a b : Int) : State :=
  let s := s.pass ((pairTiming code).1 * 1000000)
  let put := fun (s : State) (k : Nat) => s.putSaf { s.saf with run := s.saf.run.set 0 (code * 65536 + src) k }
  if s.pairHolds code src a b then
    let k := s.pairRunOf code src + 1
    let s := match (if k = 1 then checkIdx code else none) with
      | some i => s.incF .SAF (SAF_CHECK_CNT i) 31 16 1
      | none => s
    let s := put s k
    if k = (pairTiming code).2 then s.safetyFault code src else s
  else put s 0

/-- SAFETY_CHECK_FAULT (R460): the pair samples a check's condition on an instance; held for its confirmation time it is a
fault. -/
def execSafetyCheckFault (code : Byte) (src : CheckSamples) (s : State) : Res :=
  if s.pairRuns && pairCheck code.toNat && s.pairAssigned code.toNat src.src.toNat then
    ok (s.each src.samples (fun s p => s.pairSample code.toNat src.src.toNat p.1 p.2))
  else ok s

/-- Time passes until a periodic test is due again (Table 20-4), `ns` after it last ran. -/
def State.testDue (s : State) (last : Option Nat) (ns : Nat) : State :=
  match last with
  | some t => s.pass (t + ns - s.clk.up)
  | none => s

/-- COMPARATOR_SELF_TEST (Table 20-4), every 1 s: a failure is fault 0x02. -/
def execComparatorSelfTest (pass : Bool) (s : State) : Res :=
  if !s.pairRuns then ok s
  else
    let s := s.testDue s.saf.selfAt 1000000000
    let s := s.putSaf { s.saf with selfAt := some s.clk.up }
    ok (if pass then s else s.safetyFault 2 0)

/-- IL28_FREQUENCY_TEST (Table 20-4), every 100 ms: IL28's frequency in kHz against IL27, which PACE_ISL[28]_FREQ shows (R65);
fault 0x05 beyond ±5 % of 24 MHz. -/
def execIl28FrequencyTest (kHz : Nat) (s : State) : Res :=
  if !s.pairRuns then ok s
  else
    let s := s.testDue s.saf.freqAt 100000000
    let s := s.putSaf { s.saf with freqAt := some s.clk.up }
    let s := s.wrN .PACE (PACE_ISL_FREQ 28) (min kHz 16777215)
    ok (if kHz < 22800 ∨ 25200 < kHz then s.safetyFault 5 0 else s)

/-- ISL_LOCK_LOSS (R76): a running island loses LOCKED; on IL28 it is a safety fault too, whose code the spec does not give: a
free value among the codes of the pair itself. -/
def execIslLockLoss (k : Fin 29) (s : State) : Res :=
  if s.islState k.val = 2 ∧ s.bit .PACE (PACE_ISL_STATUS k.val) 8 = true then
    let s := s.islUnlock k.val
    ok (if k.val = 28 then (s.declareFault (s.freeNat 16) 28).drawn else s)
  else ok s

/-! ## The watchdog (R462) -/

/-- WIN_CLOSE in ms. -/
def State.winClose (s : State) : Nat := clampN 10 1000 (s.f .SAF SAF_WDG_CFG 31 16)
/-- WIN_OPEN in ms; one not below WIN_CLOSE is taken as WIN_CLOSE − 1. -/
def State.winOpen (s : State) : Nat := min (s.f .SAF SAF_WDG_CFG 15 0) (s.winClose - 1)

/-- The key that the next kick takes. -/
def State.wdgKey (s : State) : Word := if s.bit .SAF SAF_WDG_STATUS 0 then 0x3C5A else 0xA5C3

/-- A kick now lies in the window. -/
def State.wdgInWindow (s : State) : Bool :=
  let t := s.clk.up - s.saf.kickAt
  decide (s.winOpen * 1000000 ≤ t) && decide (t ≤ s.winClose * 1000000)

/-- A kick that counts. -/
def State.wdgGood (s : State) : State :=
  let s := (s.incF .SAF SAF_WDG_STATUS 31 16 1).setBit .SAF SAF_WDG_STATUS 0 (!s.bit .SAF SAF_WDG_STATUS 0)
  s.putSaf { s.saf with kickAt := s.clk.up }

/-- A write of SAF_WDG_KICK (R462): before step 10 the watchdog does not run. -/
def State.wdgKick (s : State) (v : Word) (e : BootEnv) : State :=
  if !s.bit .SAF SAF_STATUS 5 then s
  else if v = s.wdgKey ∧ s.wdgInWindow = true then s.wdgGood
  else (s.event .SAF 1).coreReset 2 e

/-- WDG_KICK (R462). -/
def execWdgKick (v : Word) (e : BootEnv) (s : State) : Res := ok (s.wdgKick v e)

/-- WDG_EXPIRY (R462): WIN_CLOSE passes with no kick. -/
def execWdgExpiry (e : BootEnv) (s : State) : Res :=
  if s.bit .SAF SAF_STATUS 5 then ok ((s.pass (s.saf.kickAt + s.winClose * 1000000 - s.clk.up)).coreReset 2 e) else ok s

/-- A write of SAF_WDG_CFG: PROTECT, and locked at step 10. -/
def State.wdgCfg (s : State) (v : Word) : State :=
  if s.open .SAF && !s.bit .SAF SAF_STATUS 5 then
    s.wrN .SAF SAF_WDG_CFG (clampN 10 1000 (fld v 31 16) * 65536 + fld v 15 0)
  else s

/-! ## SAF commands (Table 20-9) -/

/-- CLEAR_LIMP (R170); `failing`: a check is failing. -/
def execClearLimp (failing : Bool) (s : State) : Res :=
  ok (s.command .SAF 1 fun a s =>
    if s.mode ≠ 5 ∨ s.sys.svcEn = false then refuse s .refusedMode
    else if arg a 0 ≠ 0xC35A then refuse s .locked
    else if failing then refuse s .busy
    else done (((s.setBit .SAF SAF_STATUS 7 false).wr .SAF SAF_FAULT 0).wr .SAF SAF_FAULT_OPSEC 0) .ok)

/-- CUTOFF_TEST (R466); `good`: both switches opened and closed as told. -/
def execCutoffTest (good : Bool) (s : State) : Res :=
  ok (s.command .SAF 2 fun _ s =>
    if s.mode ≠ 5 then refuse s .refusedMode
    else
      let s := s.setBit .SAF SAF_STATUS 4 good
      if good then done s .ok else done (s.safetyFault 4 0) .aborted)

/-- CLEAR_COUNTS (R460). -/
def execSafClearCounts (s : State) : Res :=
  ok (s.command .SAF 3 fun _ s => done (s.each (upto 16) (fun s n => s.wr .SAF (SAF_CHECK_CNT n) 0)) .ok)

/-! ## Perturbation (R467–R469) -/

/-- Set the first key's time. -/
def State.tstKey (s : State) (k : Option Nat) : State := s.putSaf { s.saf with key := k }

/-- A write of TST_UNLOCK (R467): the two keys within 1 ms of each other; 0 locks at once. A first key begins the sequence anew
(DEDUCED, assumption log 173). -/
def State.tstUnlock (s : State) (v : Word) : State :=
  if v = 0 then (s.tstKey none).tstRelock
  else if v = 0xC35A then s.tstKey (some s.clk.up)
  else if v = 0x3CA5 then
    let hit := match s.saf.key with | some t => decide (s.clk.up ≤ t + 1000000) | none => false
    let s := s.tstKey none
    if hit && s.mode == 5 && s.open .TST then s.setBit .TST TST_STATUS 0 true else s
  else s.tstKey none

/-- TST_UNLOCK (R467). -/
def execTstUnlock (v : Word) (s : State) : Res := ok (s.tstUnlock v)

/-- The perturbation that a register names can be perturbed (R468, Table 20-8): crossings of IL28 and reserved ports
cannot. -/
def tstAllowed (o : Nat) : Bool :=
  if o < 0x500 then decide (o < TST_XC_DELAY 224)
  else if o < 0x600 then decide (o < TST_PORT_DELAY 15)
  else if o < 0x700 then decide (o < TST_BP 19) else true

/-- A write of a perturbation register takes `w` (R467, R468): ignored while TST is locked; ACTIVE follows. -/
def State.tstWrite (s : State) (o : Nat) (w : Word) : State :=
  if s.bit .TST TST_STATUS 0 && tstAllowed o then
    let s := s.wr .TST o w
    s.setBit .TST TST_STATUS 1 ((s.regs.win .TST).cells.any (fun (c : Nat × Word) => decide (0x100 ≤ c.1)))
  else s

end Sys2Proof.Machine
end

