-- ==== Sys2Proof/Machine/Mailbox.lean ====
section
/-! DEFINITION. The command mailboxes as the register path reaches them (R10, R154): which command a code written to a
block's BLK_CMD starts. What the surroundings supply to a command is open here: a free value. -/

namespace Sys2Proof.Machine

/-- The number of commands that a block defines: its codes are 1 to that number (the command tables of the blocks). -/
def Block.commands : Block → Nat
  | .SYS => 7
  | .PACE => 4
  | .DMW => 3
  | .CAM => 4
  | .GNS => 4
  | .TIM => 3
  | .TBL => 6
  | .LPE => 6
  | .VLV => 9
  | .LSW => 4
  | .AIO => 2
  | .MAP => 7
  | .PNL => 6
  | .CAN => 5
  | .ETH => 3
  | .UPD => 7
  | .BUR => 4
  | .HKP => 2
  | .SAF => 3
  | .PWR => 4
  | .PGH => 0
  | .TST => 0

/-- The state that a command of the table leaves. -/
def Res.state (r : Res) (s : State) : State :=
  match r with
  | .next s' => s'
  | _ => s

/-- Command code `c` of SYS. -/
def State.mailSYS (s : State) (c : Nat) : State :=
  match c with
  | 1 => Res.state (execModeReq s.sys.svcEn s) s
  | 2 => Res.state (execDrawerSet s) s
  | 3 => Res.state (execTileRelease s) s
  | 4 => Res.state (execTileHalt s) s
  | 5 => Res.state (execTileReset s) s
  | 6 => Res.state (execHostRelease s) s
  | 7 => Res.state (execCoreReset s.bootEnv s.drawn) s
  | _ => s

/-- Command code `c` of PACE. -/
def State.mailPACE (s : State) (c : Nat) : State :=
  match c with
  | 1 => Res.state (execPmClear s) s
  | 2 => Res.state (execXcClear s) s
  | 3 => Res.state (execIslRestart s) s
  | 4 => Res.state (execGuardReset s) s
  | _ => s

/-- Command code `c` of DMW. -/
def State.mailDMW (s : State) (c : Nat) : State :=
  match c with
  | 1 => Res.state (execDmwSwap s) s
  | 2 => Res.state (execDmwSwapCancel s) s
  | 3 => Res.state (execDmwClearCounts s) s
  | _ => s

/-- Command code `c` of CAM. -/
def State.mailCAM (s : State) (c : Nat) : State :=
  match c with
  | 1 => Res.state (execCamStart (Config.freeProbes s.free) s.drawn) s
  | 2 => Res.state (execCamStop s) s
  | 3 => Res.state (execParamLoad s) s
  | 4 => Res.state (execCamClearCounts s) s
  | _ => s

/-- Command code `c` of GNS. -/
def State.mailGNS (s : State) (c : Nat) : State :=
  match c with
  | 1 => Res.state (execChStart s) s
  | 2 => Res.state (execChStop s) s
  | 3 => Res.state (execColdStart s) s
  | 4 => Res.state (execGnsClearCounts s) s
  | _ => s

/-- Command code `c` of TIM. -/
def State.mailTIM (s : State) (c : Nat) : State :=
  match c with
  | 1 => Res.state (execClearTmark s) s
  | 2 => Res.state (execHoldoverTest s) s
  | 3 => Res.state (execTimClearStats s) s
  | _ => s

/-- Command code `c` of TBL. -/
def State.mailTBL (s : State) (c : Nat) : State :=
  match c with
  | 1 => Res.state (execTblStart s) s
  | 2 => Res.state (execTblStop s) s
  | 3 => Res.state (execAlignSwap s) s
  | 4 => Res.state (execTblSwapCancel s) s
  | 5 => Res.state (execTrustReset s) s
  | 6 => Res.state (execTblClearCounts s) s
  | _ => s

/-- Command code `c` of LPE. -/
def State.mailLPE (s : State) (c : Nat) : State :=
  match c with
  | 1 => Res.state (execLoopApply s) s
  | 2 => Res.state (execLpeSwap s) s
  | 3 => Res.state (execLpeSwapCancel s) s
  | 4 => Res.state (execLpeClearFault s) s
  | 5 => Res.state (execLpePreload s) s
  | 6 => Res.state (execLpeClearCounts s) s
  | _ => s

/-- Command code `c` of VLV. -/
def State.mailVLV (s : State) (c : Nat) : State :=
  match c with
  | 1 => Res.state (execVlvClaim s) s
  | 2 => Res.state (execVlvSwap s) s
  | 3 => Res.state (execVlvSwapCancel s) s
  | 4 => Res.state (execVlvClearFault s) s
  | 5 => Res.state (execFeedReset s) s
  | 6 => Res.state (execIdRead s) s
  | 7 => Res.state (execLedgerRead s) s
  | 8 => Res.state (execLedgerDelete s) s
  | 9 => Res.state (execVlvClearCounts s) s
  | _ => s

/-- Command code `c` of LSW. -/
def State.mailLSW (s : State) (c : Nat) : State :=
  match c with
  | 1 => Res.state (execLswClaim s) s
  | 2 => Res.state (execLswUnlatch s) s
  | 3 => Res.state (execLswUnlock s) s
  | 4 => Res.state (execLswClearCounts s) s
  | _ => s

/-- Command code `c` of AIO. -/
def State.mailAIO (s : State) (c : Nat) : State :=
  match c with
  | 1 => Res.state (execAioClearCounts s) s
  | 2 => Res.state (execLossTest s) s
  | _ => s

/-- Command code `c` of MAP. -/
def State.mailMAP (s : State) (c : Nat) : State :=
  match c with
  | 1 => Res.state (execMapStart s) s
  | 2 => Res.state (execMapStop s) s
  | 3 => Res.state (execMapNew s) s
  | 4 => Res.state (execWindowRead s) s
  | 5 => Res.state (execCalApply s) s
  | 6 => Res.state (execMapZero s) s
  | 7 => Res.state (execMapClearCounts s) s
  | _ => s

/-- Command code `c` of PNL. -/
def State.mailPNL (s : State) (c : Nat) : State :=
  match c with
  | 1 => Res.state (execPnlStart (s.freeNat 2 == 1) (Config.freeBytes s.free) s.drawn) s
  | 2 => Res.state (execPnlStop s) s
  | 3 => Res.state (execUniformLoad s) s
  | 4 => Res.state (execI2cXfer (s.freeNat 2 == 1) (Config.freeBytes s.free) s.drawn) s
  | 5 => Res.state (execBlReset s) s
  | 6 => Res.state (execPnlClearCounts s) s
  | _ => s

/-- Command code `c` of CAN. -/
def State.mailCAN (s : State) (c : Nat) : State :=
  match c with
  | 1 => Res.state (execCanStart s) s
  | 2 => Res.state (execCanStop s) s
  | 3 => Res.state (execCanRecover s) s
  | 4 => Res.state (execIsbAbort s) s
  | 5 => Res.state (execCanClearCounts s) s
  | _ => s

/-- Command code `c` of ETH. -/
def State.mailETH (s : State) (c : Nat) : State :=
  match c with
  | 1 => Res.state (execFdbFlush s) s
  | 2 => Res.state (execPortRestart s) s
  | 3 => Res.state (execEthClearCounts s) s
  | _ => s

/-- Command code `c` of UPD. -/
def State.mailUPD (s : State) (c : Nat) : State :=
  match c with
  | 1 => Res.state (execUpdBegin s) s
  | 2 => Res.state (execUpdWriteBlock s) s
  | 3 => Res.state (execUpdFinish s) s
  | 4 => Res.state (execUpdAbort s) s
  | 5 => Res.state (execUpdConfirm s) s
  | 6 => Res.state (execUpdReadBlock s) s
  | 7 => Res.state (execKeyRevoke s) s
  | _ => s

/-- Command code `c` of BUR. -/
def State.mailBUR (s : State) (c : Nat) : State :=
  match c with
  | 1 => Res.state (execBurFreeze s) s
  | 2 => Res.state (execBurUnfreeze s) s
  | 3 => Res.state (execBurClear s) s
  | 4 => Res.state (execBurClearCounts s) s
  | _ => s

/-- Command code `c` of HKP. -/
def State.mailHKP (s : State) (c : Nat) : State :=
  match c with
  | 1 => Res.state (execRoundNow s) s
  | 2 => Res.state (execClearStates s) s
  | _ => s

/-- Command code `c` of SAF. -/
def State.mailSAF (s : State) (c : Nat) : State :=
  match c with
  | 1 => Res.state (execClearLimp (s.freeNat 2 == 1) s.drawn) s
  | 2 => Res.state (execCutoffTest (s.freeNat 2 == 1) s.drawn) s
  | 3 => Res.state (execSafClearCounts s) s
  | _ => s

/-- Command code `c` of PWR. -/
def State.mailPWR (s : State) (c : Nat) : State :=
  match c with
  | 1 => Res.state (execBankTest s) s
  | 2 => Res.state (execBankBleed s) s
  | 3 => Res.state (execBankCharge s) s
  | 4 => Res.state (execPwrClearStats s) s
  | _ => s

/-- A command code that the block defines starts its command. -/
def State.mailDefined (s : State) (b : Block) (c : Nat) : State :=
  match b with
  | .SYS => s.mailSYS c
  | .PACE => s.mailPACE c
  | .DMW => s.mailDMW c
  | .CAM => s.mailCAM c
  | .GNS => s.mailGNS c
  | .TIM => s.mailTIM c
  | .TBL => s.mailTBL c
  | .LPE => s.mailLPE c
  | .VLV => s.mailVLV c
  | .LSW => s.mailLSW c
  | .AIO => s.mailAIO c
  | .MAP => s.mailMAP c
  | .PNL => s.mailPNL c
  | .CAN => s.mailCAN c
  | .ETH => s.mailETH c
  | .UPD => s.mailUPD c
  | .BUR => s.mailBUR c
  | .HKP => s.mailHKP c
  | .SAF => s.mailSAF c
  | .PWR => s.mailPWR c
  | .PGH => s
  | .TST => s

/-- A code that the block does not define ends at once with BAD_HEADER (R154). -/
def State.undefinedCommand (s : State) (b : Block) (c : Nat) : State := s.command b c fun _ s => refuse s .badHeader

/-- A write of `v` to BLK_CMD (R154): code 0 does nothing. -/
def State.mailWrite (s : State) (b : Block) (v : Word) : State :=
  let c := fld v 7 0
  if c = 0 ∨ b.commands = 0 then s
  else if c ≤ b.commands then s.mailDefined b c
  else s.undefinedCommand b c

/-- The block of a number 0–21: ids 1–22 of Table 6-12. -/
def blockNo (i : Fin 22) : Block := (Block.ofId (i.val + 1)).getD .SYS

/-- UNDEFINED_COMMAND (R154): a code of 1–255 beyond those of a block that takes commands. A code that the block defines, 0, and
a block without a mailbox are not this row: nothing happens. -/
def execUndefinedCommand (b : Fin 22) (code : Byte) (s : State) : Res :=
  let n := (blockNo b).commands
  if 0 < n ∧ n < code.toNat then ok (s.undefinedCommand (blockNo b) code.toNat) else ok s

end Sys2Proof.Machine
end

