-- ==== Sys2Proof/Machine/Bus.lean ====
section
/-! DEFINITION. Accesses to the block windows: 32-bit reads and writes with their access types and effects, streams, and the
bus error of any other access (R5, R7–R9, R140, R413, R414). -/

namespace Sys2Proof.Machine

/-! ## Streams (R413) -/

/-- The FIFO behind the stream of request `q` (32 + 2n + f a CAN receive FIFO, 48 the time marks) is empty. -/
def State.streamEmpty (s : State) (q : Nat) : Bool := !s.reqOn q

/-- A read of a stream register by an initiator (a number from 1): the next word of the head entry; the fill value 0 from an
empty FIFO, and for any initiator but the one that is part-way through the entry. The last word removes the entry. -/
def State.streamRead (s : State) (q who : Nat) : Word × State :=
  let p := s.dmw.part.get (0, 0, 0) q
  let k := p.2.1
  if s.streamEmpty q || (k != 0 && p.1 != who) then (0, s)
  else
    let go := fun (held : Nat) => s.putDmw { s.dmw with part := s.dmw.part.set (0, 0, 0) q (who, k + 1, held) }
    if q = 48 then
      let m := s.tim.marks.headD 0
      let held := if k = 0 then s.tim.marks.length else p.2.2
      match k with
      | 0 => (wordN m, go held)
      | 1 => (wordN (m / 4294967296), go held)
      | 2 => (wordN held, go held)
      | _ => (0, (s.timMod (fun t => { t with marks := t.marks.drop 1 })).partClear 48)
    else
      let n := (q - 32) / 2
      let f := q % 2
      let w := if k = 0 then s.rd .CAN (CAN_CH_FIFO_STATUS n f) else s.rd .CAN (CAN_FIFOHEAD n f k)
      (w, if k < 23 then go 0 else s.fifoPop n f)

/-! ## Reads -/

/-- Bits of a register that show a present measurement, for which the table has no row: a read of them is a free value. -/
def measuredMask (b : Block) (r : RegRow) : Word :=
  match b with
  | .GNS => if r.off = GNS_ANT_AGC 0 then 0xFFFFFF else 0
  | .VLV => if r.off = VLV_CH_CURRENT 0 ∨ r.off = VLV_HSF_STATUS 0 then 0xFFFF0000 else 0
  | .LSW =>
    if r.off = LSW_CH_CURRENT 0 then 0xFFFFFFFF
    else if r.off = LSW_CH_TEMP 0 then 0xFFFF
    else if r.off = LSW_FEED_STATUS 0 then 0x7FFF7FFF
    else 0
  | .PWR => if r.off = PWR_VOLT 0 then 0xFFFF else 0
  | _ => 0

/-- A valve channel's measured current reads 0: no coil, or a short to ground, stands at its pin (R310). -/
def State.vlvNoCurrent (s : State) (r : RegRow) (o : Nat) : Bool :=
  r.off == VLV_CH_CURRENT 0 && (s.vch ((r.idx o).getD 0 0)).pin != .coil

/-- The word that a register shows. -/
def State.regView (s : State) (b : Block) (r : RegRow) (o : Nat) : Word :=
  let n := (r.idx o).getD 0 0
  match b with
  | .TIM => s.timView o
  | .VLV => if s.vlvNoCurrent r o then s.rd b o &&& 0xFFFF else s.rd b o
  | .LSW =>
    if r.off = LSW_CH_COOL 0 then wordN (s.coolShown n)
    else if r.off = LSW_CH_CLAMP_STATE 0 then setFld (s.rd b o) 31 16 (clampN 0 65535 (s.lswSum n))
    else s.rd b o
  | .UPD => if r.off = UPD_R_POLICY 0 then wordN (s.updPolicy n) else s.rd b o
  | .HKP =>
    let w := s.rd b o
    if r.off = HKP_CH_HI 0 then
      if 16 ≤ n ∧ n ≤ 23 then setFld w 31 16 1250
      else if n = 30 ∨ n = 31 then setFld w 31 16 (clampI 1000 1700 (sfld w 31 16)).toNat
      else w
    else if r.off = HKP_CH_CFG 0 ∧ 16 ≤ n ∧ n ≤ 23 then putBit w 31 true
    else w
  | _ => s.rd b o

/-- The read of a register that acts (claims, latches, streams); none where the read only shows a word. -/
def State.readAct (s : State) (b : Block) (r : RegRow) (o who : Nat) : Option (Word × State) :=
  let n := (r.idx o).getD 0 0
  match b with
  | .PGH =>
    if r.off = PGH_CORE_CLAIM_S 0 then some (s.claim n false)
    else if r.off = PGH_CORE_CLAIM_M 0 then some (s.claim n true)
    else none
  | .TIM =>
    if o = TIM_NOW_LO then some s.nowRead
    else if o = TIM_TMARK_LO then some s.markLo
    else if o = TIM_TMARK_HI then some s.markHi
    else if o = TIM_TMARK_STREAM then some (s.streamRead 48 who)
    else none
  | .CAN => if r.off = CAN_CH_FIFO_STREAM 0 0 then some (s.streamRead (32 + 2 * n + (r.idx o).getD 1 0) who) else none
  | .PACE => if r.off = PACE_ISL_FREQ 0 then some (s.freqRead n) else none
  | .BUR => if o = BUR_WIN 7 then some s.burWin7 else none
  | .ETH => if r.off = ETH_RX_TAIL 0 then some (s.rd .ETH o, s.hostSeen) else none
  | _ => none

/-- An aligned 32-bit read of an offset in a block's window: 0 where no register is mapped (R8) and from a write-only one. -/
def State.regRead (s : State) (b : Block) (o who : Nat) : Word × State :=
  match regRow b o with
  | none => (0, s)
  | some r =>
    if r.acc = .wo then (0, s)
    else match s.readAct b r o who with
      | some x => x
      | none =>
        let m := if b = .VLV ∧ s.vlvNoCurrent r o then 0 else measuredMask b r
        if m = 0 then (s.regView b r o, s)
        else ((s.regView b r o &&& ~~~m) ||| (wordN (s.freeNat 4294967296) &&& m), s.drawn)

/-! ## Writes -/

/-- Bits of word `w` of a message buffer that a program writes (Table 16-9, which says nothing of bits [30:29] of the ID word: they
are taken as reserved, DESIGN CHOICE, assumption log 109). -/
def mbMask (w : Nat) : Word :=
  match w with
  | 0 => 0xC000FFFF
  | 1 => 0x9FFFFFFF
  | 2 => 0x1FFFFFFF
  | 3 => 0xD00F0000
  | 6 => 0
  | 7 => 0
  | _ => 0xFFFFFFFF

/-- A write of word `w` of a message buffer: MB127 of the time message's controller ignores it (R395). -/
def State.mbWrite (s : State) (n b w : Nat) (v : Word) : State :=
  if b = 127 ∧ s.bit .TIM TIM_CFG 1 = true ∧ s.f .TIM TIM_CFG 6 4 = n then s
  else s.wr .CAN (CAN_MB n b w) ((s.rd .CAN (CAN_MB n b w) &&& ~~~(mbMask w)) ||| (v &&& mbMask w))

/-- A write of LOCK[i] (R389): every bit that changes locks or unlocks its buffer. -/
def State.lockWrite (s : State) (n : Fin 8) (i : Nat) (v : Word) : State :=
  s.each (upto 32) (fun s k =>
    let b : Fin 128 := Fin.ofNat 128 (32 * i + k)
    if bitOf v k = s.mbBit (CAN_CH_LOCK n.val 0) b.val then s
    else if bitOf v k then Res.state (execMbLock n b s) s else Res.state (execMbUnlock n b s) s)

/-- A write of a session's CTRL (R397): OP 1 and 2 are taken when written. -/
def State.sesCtrl (s : State) (n : Fin 2) (k : Fin 8) (v : Word) : State :=
  let v := v &&& 0xDCFF0000
  match fld v 31 30 with
  | 1 => Res.state (execIsbSend n k v s) s
  | 2 => Res.state (execIsbArmReceive n k v s) s
  | _ => s.wr .CAN (CAN_CH_ISB_SES_CTRL n.val k.val) v

/-- The writes of CAN registers that act. -/
def State.canAct (s : State) (r : RegRow) (n i j : Nat) (v : Word) : Option State :=
  let c : Fin 8 := Fin.ofNat 8 n
  if r.off = CAN_CH_TXREQ 0 0 then some (Res.state (execTxreqWrite c (Fin.ofNat 4 i) v s) s)
  else if r.off = CAN_CH_TXCANCEL 0 0 then some (Res.state (execTxcancelWrite c (Fin.ofNat 4 i) v s) s)
  else if r.off = CAN_CH_LOCK 0 0 then some (s.lockWrite c i v)
  else if r.off = CAN_CH_FIFO_POP 0 0 then some (Res.state (execFifoPop c (Fin.ofNat 2 i) v s) s)
  else if r.off = CAN_MB 0 0 0 then some (s.mbWrite n i j v)
  else if r.off = CAN_CH_ISB_SES_CTRL 0 0 then some (s.sesCtrl (Fin.ofNat 2 n) (Fin.ofNat 8 i) v)
  else none

/-- A write of word `w` of bank `b` of a valve channel (R140): the active bank ignores it and sets WR_ACTIVE; a bank locked by a
pending SWAP ignores it. -/
def State.vlvBankWrite (s : State) (n b w : Nat) (v : Word) : State :=
  if b = s.vlvActive n then s.setBit .VLV VLV_STATUS 8 true
  else if s.bit .VLV (VLV_CH_BANK n) 2 then s
  else s.wr .VLV (VLV_BANKW n b w) v

/-- The writes of VLV registers that act. Bits [7:6] of GO, which the map does not list, are read with its start index, so
that one outside 0–63 can be written (R308; DESIGN CHOICE, assumption log 157). -/
def State.vlvAct2 (s : State) (r : RegRow) (n i j : Nat) (v : Word) : Option State :=
  if r.off = VLV_CH_GO 0 then some (s.vlvGo n (if bitOf v 8 then .stop else .start (fld v 7 0)) false)
  else if r.off = VLV_CH_CMD_IN 0 then some (s.vlvProgIn n v)
  else if r.off = VLV_BANKW 0 0 0 then some (s.vlvBankWrite n i j v)
  else none

/-- The writes of SYS and PGH registers that act. -/
def State.sysAct (s : State) (b : Block) (r : RegRow) (o n : Nat) (v : Word) : Option State :=
  match b with
  | .SYS =>
    if o = SYS_STQ_CFG then some (s.stqCfg v) else if o = SYS_STQ_HEAD then some (s.stqHead v) else none
  | .PGH =>
    if o = PGH_CLEAR then some (s.pghClear v)
    else if r.off = PGH_ROUTE 0 then some (s.pghRoute n v)
    else if r.off = PGH_RAISE 0 then some (s.pghRaise n v)
    else if r.off = PGH_CORE_SWI 0 then some (s.pghSwi (Fin.ofNat 8 n) v)
    else none
  | _ => none

/-- A write that acts, in place of setting the register's value; none where it sets a value. -/
def State.writeAct (s : State) (b : Block) (r : RegRow) (o : Nat) (v : Word) : Option State :=
  let n := (r.idx o).getD 0 0
  let i := (r.idx o).getD 1 0
  let j := (r.idx o).getD 2 0
  match b with
  | .SYS => s.sysAct b r o n v
  | .PGH => s.sysAct b r o n v
  | .PACE =>
    if o = PACE_VCORE_TARGET then some (s.vcoreWrite v)
    else if r.off = PACE_ISL_CTRL 0 then some (s.islCtrl n v)
    else none
  | .DMW =>
    if o = DMW_SWREQ then some (s.swreq v)
    else if r.off = DMW_CH_GO 0 then some (s.dwGo n v)
    else if r.off = DMW_BANKW 0 0 0 then some (s.dwBankWrite n i j v)
    else none
  | .CAM => if o = CAM_CFG ∧ (upto 8).any (fun k => (s.camCh k).run) = true then some s else none
  | .GNS => if o = GNS_ACQ_HEAD then some (Res.state (execAcqHeadWrite v s) s) else none
  | .TIM => if o = TIM_CORR_GO then some (s.corrGo v) else none
  | .LPE => some (s.lpeWrite o v)
  | .VLV => s.vlvAct2 r n i j v
  | .LSW => if r.off = LSW_CH_SWITCH 0 then some (s.lswSwitch n (fld v 1 0) (s.freeNat 16000)).drawn else none
  | .MAP => if o = MAP_POSE_GO then some (Res.state (execPoseGo v s) s) else none
  | .PNL => if o = PNL_FLIP then some (s.pnlFlip v) else none
  | .CAN => s.canAct r n i j v
  | .BUR =>
    if o = BUR_CURSOR then some (s.burCursor v) else if o = BUR_PUT then some (s.burPut v) else none
  | .HKP => if r.off = HKP_CH_CFG 0 then some (s.hkpCfg n v) else none
  | .SAF =>
    if o = SAF_WDG_KICK then some (s.drawn.wdgKick v s.bootEnv)
    else if o = SAF_WDG_CFG then some (s.wdgCfg v)
    else none
  | .TST =>
    if o = TST_UNLOCK then some (s.tstUnlock v)
    else if 0x100 ≤ o then some (s.tstWrite o (r.store (s.rd .TST o) v))
    else none
  | .PWR => if o = PWR_CFG then some (if s.open .PWR then s.pwrCfg v else s) else none
  | _ => none

/-- What follows at once from a new value in a register; `old` is the word it held. -/
def State.writeAfter (s : State) (b : Block) (r : RegRow) (o : Nat) (old : Word) : State :=
  let n := (r.idx o).getD 0 0
  match b with
  | .GNS =>
    if o = GNS_ACQ_CFG then s.acqKick else if r.off = GNS_ANT_CFG 0 then s.antSwitch n else s
  | .CAM => if r.off = CAM_C_TRIG_PERIOD 0 ∨ r.off = CAM_C_TRIG_PHASE 0 then s.trigWrite n else s
  | .TIM => if o = TIM_CFG then s.timShow.gmMoved (bitOf old 2 && s.tim.gm.isNone) else s
  | .PACE => if o = PACE_VCORE_CFG ∨ r.off = PACE_PM_CEIL 0 then s.slowEnd else s
  | .VLV =>
    if r.off = VLV_CH_DUTY_CFG 0 ∧ bitOf old 31 ≠ s.bit .VLV o 31 then
      ((s.vchMod n (fun c => { c with bins := [] })).vlvDuty n).vlvSettle
    else if r.off = VLV_CH_BAND_CFG 0 ∨ r.off = VLV_CH_COLD_RES 0 then s.vlvBandNow n
    else if r.off = VLV_CH_CFG 0 then (s.vlvDerate n).vlvSettle
    else s
  | .AIO =>
    if r.off = AIO_SUP_CFG 0 then s.supSwitch n
    else if r.off = AIO_AIN_CFG 0 then s.ainShow n
    else if r.off = AIO_FIN_CFG 0 then s.finCfg n (bitOf old 29)
    else if r.off = AIO_LOSS_CFG 0 then s.lossShow n
    else s
  | .MAP => if o = MAP_SECTIONS then s.mapSections else s
  | .PNL => if o = PNL_BL_CFG ∨ o = PNL_BL_LEVEL then s.blShow else s
  | _ => s

/-- A write that sets a register's value under its access type (Table 0-5). -/
def State.writeSet (s : State) (b : Block) (r : RegRow) (o : Nat) (v : Word) : State :=
  let old := s.rd b o
  let put := fun (s : State) => (s.wr b o (r.store old (regNorm b r o v))).writeAfter b r o old
  match r.acc with
  | .rw => put s
  | .rwp => if s.open b then put s else s
  | .w1c => s.wr b o (old &&& ~~~v)
  | .w1s => s.wr b o (old ||| (v &&& wordN r.mask))
  | .ro => s
  | .wo => s

/-- PROTECT opens with 0x0000_C35A and closes with any other value; it reads 1 while open. -/
def State.protectWrite (s : State) (b : Block) (v : Word) : State := s.wrN b 0x18 (b2n (v == 0xC35A))

/-- An aligned 32-bit write at an offset in a block's window; where no register is mapped it is ignored (R8). -/
def State.regWrite (s : State) (b : Block) (o : Nat) (v : Word) : State :=
  match regRow b o with
  | none => s
  | some r =>
    if o = 0x18 then s.protectWrite b v
    else if o = 0 then s.mailWrite b v
    else match s.writeAct b r o v with
      | some s' => s'
      | none => s.writeSet b r o v

/-- REGISTER_WRITE (R9): an aligned 32-bit write of the word at offset 4o of a block's window. -/
def execRegisterWrite (b : Fin 22) (o : BitVec 18) (v : Word) (s : State) : Res := ok (s.regWrite (blockNo b) (4 * o.toNat) v)

/-- PROTECT_WRITE (R9). -/
def execProtectWrite (b : Fin 22) (v : Word) (s : State) : Res := ok (s.protectWrite (blockNo b) v)

/-- An access of `size` bytes at an offset of a block's window is one of R7's: 32 bits wide and aligned. -/
def accessOk (o size : Nat) : Bool := size == 4 && o % 4 == 0

/-- REGISTER_ACCESS_FAULT (R7): an access of 2^k bytes to a block's window that is not an aligned 32-bit one returns a bus error
and changes nothing. An aligned 32-bit access is not this row. -/
def execRegisterAccessFault (_b : Fin 22) (o : BitVec 20) (k : Fin 4) (s : State) : Res :=
  if accessOk o.toNat (2 ^ k.val) then ok s else ok (s.putResp .busError)

/-- The number of an initiator that reads a stream. -/
def initiatorNo : Initiator → Nat
  | .dw n => n.val + 1
  | .core (.host c) => 101 + c.val
  | .core (.tile t) => 109 + t.val

/-- A Dumbwaiter channel read an empty FIFO (R414): UNDERRUN, its count, and FIFO. -/
def State.dwUnderrun (s : State) (n : Nat) : State :=
  ((s.dwFlag n 0).incF .DMW (DMW_CH_COUNTS n) 15 8 1).eventSrc .DMW 12 n

/-- STREAM_READ (R413, R414): a read of the stream of request 32 + q by an initiator; q = 16 is the time-mark FIFO. -/
def execStreamRead (who : Initiator) (q : Fin 17) (s : State) : Res :=
  let k := 32 + q.val
  let r := s.streamRead k (initiatorNo who)
  let t := match who with
    | .dw n => if s.streamEmpty k then r.2.dwUnderrun n.val else r.2
    | .core _ => r.2
  ok (t.putResp (.word r.1))

end Sys2Proof.Machine
end

