-- ==== Sys2Proof/Machine/CoreMem.lean ====
section
/-! DEFINITION. Loads, stores, atomics and fences of host cores and tiles (R88–R90, R107–R113, R143, R144). A store to normal
memory waits in its agent's buffer until it becomes visible; a device access acts at once. -/

namespace Sys2Proof.Machine

/-! ## Loads (R88, R89) -/

/-- The effective address of an M instruction: base [20:16] plus the sign-extended off16. -/
def State.memAddr (s : State) (a : Agent) (w : BitVec 26) : Dword := s.g a (fRs1 w) + fSimm w

/-- A load of `n` bytes: its traps, or `put` with the value read, and the next instruction. An agent sees memory as its own
waiting stores leave it (R107). A read of a bank of the NOR flash that is programmed or erased waits: the instruction completes when its
row comes again after the operation (R149). R108 lets loads be observed out of program order: this model performs each at once (DESIGN CHOICE,
assumption log 115). -/
def State.load (s : State) (a : Agent) (w : BitVec 26) (n : Nat) (put : State → Nat → State) : State :=
  let va := s.memAddr a w
  if va.toNat % n ≠ 0 then s.takeTrap a false 5 va
  else match s.translate a .load va.toNat with
    | (.trap c, s) => s.takeTrap a false c va
    | (.ok pa _, s) =>
      match regionOf pa with
      | .unmapped => s.takeTrap a false 6 va
      | .device =>
        match Block.ofAddr pa with
        | some b =>
          if accessOk pa n then
            let r := s.regRead b (pa % 0x100000) (initiatorNo (.core a))
            (put r.2 r.1.toNat).next a
          else s.takeTrap a false 6 va
        | none => s.takeTrap a false 6 va
      | _ =>
        if s.norBusy pa then s else
        let s := s.eccRead pa n
        let d := s.drainStores a
        if d.poisoned pa n then s.takeTrap a false 0xB va else (put s (d.rdLE pa n)).next a

/-- An integer load of `n` bytes into rt, sign- or zero-extended. -/
def State.loadG (s : State) (a : Agent) (w : BitVec 26) (n : Nat) (signed : Bool) : State :=
  s.issue a fun s => s.load a w n (fun s v =>
    s.setG a (fRd w) (if signed then BitVec.ofInt 64 (toSigned (8 * n) v) else BitVec.ofNat 64 v))

/-- A floating-point load of `n` bytes into an f register; an FP instruction needs FPEN on a host core (R97). -/
def State.loadF (s : State) (a : Agent) (op : Nat) (w : BitVec 26) (n : Nat) : State :=
  s.issue a fun s =>
    if !s.fpOn a || (n == 8 && !isHost a) then s.illegal a op w
    else s.load a w n (fun s v => s.setFr a (fRd w) (BitVec.ofNat 64 v))

/-- LDB (R88). -/
def execLdb (a : Agent) (w : BitVec 26) (s : State) : Res := ok (s.loadG a w 1 true)
/-- LDH (R88). -/
def execLdh (a : Agent) (w : BitVec 26) (s : State) : Res := ok (s.loadG a w 2 true)
/-- LDW (R88). -/
def execLdw (a : Agent) (w : BitVec 26) (s : State) : Res := ok (s.loadG a w 4 true)
/-- LDD (R88). -/
def execLdd (a : Agent) (w : BitVec 26) (s : State) : Res := ok (s.loadG a w 8 false)
/-- LDBU (R88). -/
def execLdbu (a : Agent) (w : BitVec 26) (s : State) : Res := ok (s.loadG a w 1 false)
/-- LDHU (R88). -/
def execLdhu (a : Agent) (w : BitVec 26) (s : State) : Res := ok (s.loadG a w 2 false)
/-- LDWU (R88). -/
def execLdwu (a : Agent) (w : BitVec 26) (s : State) : Res := ok (s.loadG a w 4 false)
/-- FLDS (R80, R88). -/
def execFlds (a : Agent) (w : BitVec 26) (s : State) : Res := ok (s.loadF a 0x24 w 4)
/-- FLDD (R88): ILLEGAL on the T profile. -/
def execFldd (a : Agent) (w : BitVec 26) (s : State) : Res := ok (s.loadF a 0x25 w 8)

/-! ## Stores (R88, R89, R109) -/

/-- A store of the low `n` bytes of `v`: its traps, a register write, or an entry of the agent's buffer. A store through a DEV page
to normal memory completes at once, after the stores that wait. -/
def State.storeAt (s : State) (a : Agent) (w : BitVec 26) (n v : Nat) : State :=
  let va := s.memAddr a w
  if va.toNat % n ≠ 0 then s.takeTrap a false 8 va
  else match s.translate a .store va.toNat with
    | (.trap c, s) => s.takeTrap a false c va
    | (.ok pa dev, s) =>
      match regionOf pa with
      | .device =>
        match Block.ofAddr pa with
        | some b => if accessOk pa n then (s.next a).regWrite b (pa % 0x100000) (wordN v) else s.takeTrap a false 9 va
        | none => s.takeTrap a false 9 va
      | r =>
        if !r.writable then s.takeTrap a false 9 va
        else if dev then ((s.drainStores a).progStore (isHost a) pa (leBytes n v)).next a
        else
          let k := agentKey a
          (s.putSbuf (s.sbuf.mod [] k (fun l => l ++ [(pa, leBytes n v)]))).next a

/-- An integer store of the low `n` bytes of rt. -/
def State.storeG (s : State) (a : Agent) (w : BitVec 26) (n : Nat) : State :=
  s.issue a fun s => s.storeAt a w n ((s.g a (fRd w)).toNat % 2 ^ (8 * n))

/-- A floating-point store of the low `n` bytes of an f register. -/
def State.storeF (s : State) (a : Agent) (op : Nat) (w : BitVec 26) (n : Nat) : State :=
  s.issue a fun s =>
    if !s.fpOn a || (n == 8 && !isHost a) then s.illegal a op w
    else s.storeAt a w n ((s.fr a (fRd w)).toNat % 2 ^ (8 * n))

/-- STB (R88). -/
def execStb (a : Agent) (w : BitVec 26) (s : State) : Res := ok (s.storeG a w 1)
/-- STH (R88). -/
def execSth (a : Agent) (w : BitVec 26) (s : State) : Res := ok (s.storeG a w 2)
/-- STW (R88). -/
def execStw (a : Agent) (w : BitVec 26) (s : State) : Res := ok (s.storeG a w 4)
/-- STD (R88). -/
def execStd (a : Agent) (w : BitVec 26) (s : State) : Res := ok (s.storeG a w 8)
/-- FSTS (R80, R88). -/
def execFsts (a : Agent) (w : BitVec 26) (s : State) : Res := ok (s.storeF a 0x26 w 4)
/-- FSTD (R88): ILLEGAL on the T profile. -/
def execFstd (a : Agent) (w : BitVec 26) (s : State) : Res := ok (s.storeF a 0x27 w 8)

/-! ## Waiting stores (R107, R113) -/

/-- Two waiting stores touch a common byte, or the earlier one is the mark of a fence ss (no bytes). -/
def storeBefore (e f : Nat × List Byte) : Bool :=
  e.2.isEmpty || (decide (e.1 < f.1 + f.2.length) && decide (f.1 < e.1 + e.2.length))

/-- STORE_VISIBLE (R107, R111, R113): the mark of a fence ss is no store; waiting store `i` of an agent becomes visible to every agent at once, unless an earlier one
to the same bytes or a fence ss stands before it. -/
def execStoreVisible (a : Agent) (i : Nat) (s : State) : Res :=
  let k := agentKey a
  let l := s.sbuf.get [] k
  match l[i]? with
  | none => ok s
  | some f =>
    if !s.dieOn || f.2.isEmpty || (l.take i).any (fun e => storeBefore e f) then ok s
    else
      let s := s.progStore (isHost a) f.1 f.2
      ok (s.putSbuf (s.sbuf.set [] k ((l.eraseIdx i).dropWhile (fun (e : Nat × List Byte) => e.2.isEmpty))))

/-- The stores of an agent up to the last one that touches `n` bytes at `pa`, and up to the last mark of a fence ss, become visible
(R107, R111). -/
def State.drainTo (s : State) (a : Agent) (pa n : Nat) : State :=
  let k := agentKey a
  let l := s.sbuf.get [] k
  let hit := fun (e : Nat × List Byte) => e.2.isEmpty || decide (e.1 < pa + n) && decide (pa < e.1 + e.2.length)
  let m := ((upto l.length).filter (fun i => match l[i]? with | some e => hit e | none => false)).foldl (fun (_ i : Nat) => i + 1) 0
  let s := s.each (l.take m) (fun s e => s.progStore (isHost a) e.1 e.2)
  s.putSbuf (s.sbuf.set [] k (l.drop m))

/-! ## Atomics (R90, R112) -/

/-- What an atomic of `w` bits stores, from its operation, the word before it, rs2 and rd: none where it stores nothing, and none
at all (`Option.none` outside) for an operation the table does not list. -/
def atomOp (w f old rs2 rd : Nat) : Option (Option Nat) :=
  let m := 2 ^ w
  let sg := toSigned w
  match f with
  | 0x00 => some (some rs2)
  | 0x01 => some (if old = rd then some rs2 else none)
  | 0x02 => some (some ((old + rs2) % m))
  | 0x03 => some (some ((old + m - rs2) % m))
  | 0x04 => some (some (old ||| rs2))
  | 0x05 => some (some (old &&& (m - 1 - rs2)))
  | 0x06 => some (some (old ^^^ rs2))
  | 0x07 => some (some (if sg rs2 < sg old then rs2 else old))
  | 0x08 => some (some (if sg old < sg rs2 then rs2 else old))
  | 0x09 => some (some (min old rs2))
  | 0x0A => some (some (max old rs2))
  | 0x0B => some (if old < rs2 then some (old + 1) else none)
  | _ => none

/-- An atomic on `n` bytes once its fields are known to be good. A word with an uncorrectable check error traps as a load of it does
(DEDUCED, assumption log 116). -/
def State.atom (s : State) (a : Agent) (w : BitVec 26) (n : Nat) : State :=
  let f := fFunc w
  let va := s.g a (fRs1 w)
  if va.toNat % n ≠ 0 then s.takeTrap a false 8 va
  else match s.translate a .store va.toNat with
    | (.trap c, s) => s.takeTrap a false c va
    | (.ok pa dev, s) =>
      if dev || !(regionOf pa).atomics then s.takeTrap a false 9 va
      else
        let s := (if 2 ≤ f / 512 then s.drainStores a else s.drainTo a pa n).eccRead pa n
        if s.poisoned pa n then s.takeTrap a false 0xB va
        else
          let old := s.rdLE pa n
          let m := 2 ^ (8 * n)
          match atomOp (8 * n) (f % 32) old ((s.g a (fRs2 w)).toNat % m) ((s.g a (fRd w)).toNat % m) with
          | none => s
          | some r =>
            let s := match r with | some v => s.storeLE pa n v | none => s
            (s.setG a (fRd w) (BitVec.ofInt 64 (toSigned (8 * n) old))).next a

/-- ATOM (R90): one indivisible read-modify-write of the naturally aligned word at rs1. -/
def execAtom (a : Agent) (w : BitVec 26) (s : State) : Res :=
  ok (s.issue a fun s =>
    let f := fFunc w
    if f / 32 % 8 ≠ 0 ∨ 0x0C ≤ f % 32 then s.illegal a 0x28 w
    else s.atom a w (if f.testBit 8 then 8 else 4))

/-! ## Fences (R111, R415) -/

/-- What the relations of a fence ask of the stores that wait: with sl, nd, mc, CODE or ARRIVE they become visible; ss marks the
buffer. -/
def State.fenceStores (s : State) (a : Agent) (f : Nat) : State :=
  if f.testBit 2 || f.testBit 4 || f.testBit 7 || f.testBit 9 then s.drainStores a
  else if f.testBit 3 && !(s.sbuf.get [] (agentKey a)).isEmpty then
    s.putSbuf (s.sbuf.mod [] (agentKey a) (fun l => l ++ [(0, [])]))
  else s

/-- FENCE (R111): ILLEGAL with func 0 or func[8]; ARRIVE waits while a store of the agent is not acknowledged. -/
def execFence (a : Agent) (w : BitVec 26) (s : State) : Res :=
  ok (s.issue a fun s =>
    let f := fFunc w
    if f = 0 ∨ f.testBit 8 = true ∨ fRd w ≠ 0 ∨ fRs1 w ≠ 0 ∨ fRs2 w ≠ 0 then s.illegal a 0x29 w
    else
      let s := s.fenceStores a f
      if f.testBit 10 && !(s.sbuf.get [] (agentKey a)).isEmpty then s.setBlocked a .fence else s.next a)

/-- FENCE_ARRIVE_DONE (R111, R415): every store before the fence has been acknowledged. -/
def execFenceArriveDone (a : Initiator) (s : State) : Res :=
  match a with
  | .dw n => ok (s.dwFenceDone n.val)
  | .core a =>
    if s.runs a ∧ (s.cpu a).blocked = .fence then ok (((s.drainStores a).setBlocked a .no).next a) else ok s

end Sys2Proof.Machine
end

