-- ==== Sys2Proof/Machine/GX.lean ====
section
/-! DEFINITION. The grid and tensor descriptor instructions of host cores and tiles (R127, R128, R248–R250). -/

namespace Sys2Proof.Machine

/-- Field desc of the GX format (Table 4-4). -/
def fDesc (w : BitVec 26) : Nat := w.toNat % 2048

/-- The corner of a window: x in rs1[15:0], y in rs1[31:16], both signed. -/
def gxCorner (v : Dword) : Int × Int := (toSigned 16 (v.toNat % 0x10000), toSigned 16 (v.toNat / 0x10000 % 0x10000))

/-- What rd receives of a gxrd or gxwr: the cycle number of the buffer and the status. -/
def gxAnswer (cycle status : Nat) : Dword := BitVec.ofNat 64 (cycle % 2 ^ 32 * 2 ^ 32 + status)

/-- The pieces of `n` bytes from `va` that lie in one 8 KiB page each, by address and length; `k` bounds their number. -/
def pagePieces : Nat → Nat → Nat → List (Nat × Nat)
  | 0, _, _ => []
  | k + 1, va, n =>
    let m := min n (0x2000 - va % 0x2000)
    if n = 0 then [] else (va, m) :: pagePieces k (va + m) (n - m)

/-- A piece of a window at its physical address, or the trap an access of kind `k` takes there (R89). -/
def State.gxPiece (s : State) (a : Agent) (k : Acc) (va n : Nat) : Except Nat (Nat × Nat) × State :=
  match s.translate a k (va % 2 ^ 64) with
  | (.trap c, s) => (.error c, s)
  | (.ok pa _, s) =>
    let r := regionOf pa
    if r == .unmapped || r == .device || (k == .store && !r.writable) then (.error k.fault, s)
    else
      let s := if k == .load then s.eccRead pa n else s
      if k == .load && s.poisoned pa n then (.error 0xB, s) else (.ok (pa, n), s)

/-- Pieces in order, up to the first that traps: its cause and address. -/
def State.gxPieces (s : State) (a : Agent) (k : Acc) : List (Nat × Nat) → Except (Nat × Nat) (List (Nat × Nat)) × State
  | [] => (.ok [], s)
  | p :: l =>
    match s.gxPiece a k p.1 p.2 with
    | (.error c, s) => (.error (c, p.1), s)
    | (.ok q, s) =>
      match s.gxPieces a k l with
      | (.error e, s) => (.error e, s)
      | (.ok qs, s) => (.ok (q :: qs), s)

/-- The pieces of memory that a window's rows occupy, `stride` bytes apart. -/
def GxDesc.pieces (d : GxDesc) (base stride : Nat) : List (Nat × Nat) :=
  (upto d.height).flatMap (fun j => pagePieces 100 (base + j * stride) d.rowLen)

/-- Bytes stored piece after piece. -/
def State.gxStore (s : State) (host : Bool) : List (Nat × Nat) → List Byte → State
  | [], _ => s
  | p :: l, bs => (s.progStore host p.1 (bs.take p.2)).gxStore host l (bs.drop p.2)

/-- A window's cells that lie on the grid are read with their check bits: some word of them is poisoned (Table 6-2). -/
def State.gxCheck (s : State) (d : GxDesc) (b : Bool) (x y : Int) : Bool × State :=
  let at_ := (upto d.height).flatMap (fun j => (upto d.width).filterMap (fun i =>
    match onGrid x i, onGrid y j with
    | some cx, some cy => some (gridBase b + (cy * 512 + cx) * 64 + d.chFirst)
    | _, _ => none))
  let s := s.each at_ (fun s pa => s.eccRead pa d.chCount)
  (at_.any (fun pa => s.poisoned pa d.chCount), s)

/-- rd takes `v`, and the next instruction. -/
def State.gxDone (s : State) (a : Agent) (w : BitVec 26) (v : Dword) : State := (s.setG a (fRd w) v).next a

/-- A gxrd of the published buffer is in progress for `ns` (R249); its buffer is held for it, so that what it reads does not change. -/
def State.gxReading (s : State) (build : Bool) (ns : Nat) : State :=
  if build then s
  else
    let r := s.tbl.reads
    s.putTbl { s.tbl with reads := if s.tbl.pub then (r.1, max r.2 (s.now + ns)) else (max r.1 (s.now + ns), r.2) }

/-- The effect of a gxrd (R127, R128): the window is copied whole, or nothing is. -/
def State.gxrdBody (s : State) (a : Agent) (w : BitVec 26) (ns : Nat) : State :=
  let d := s.gxDesc (fDesc w)
  let buf := s.gxBuffer d.build
  if !d.window || (d.build && !s.buildOpen) then s.gxDone a w (gxAnswer buf.2 1)
  else
    let xy := gxCorner (s.g a (fRs1 w))
    match s.gxPieces a .store (d.pieces (s.g a (fRs2 w)).toNat d.dstStride) with
    | (.error (c, va), s) => s.takeTrap a false c (BitVec.ofNat 64 va)
    | (.ok ps, s) =>
      match s.gxCheck d buf.1 xy.1 xy.2 with
      | (true, s) => s.takeTrap a false 0xB (s.g a (fRs2 w))
      | (false, s) =>
        let bs := (upto d.height).flatMap (fun j => s.gxRow d buf.1 xy.1 xy.2 j)
        (((s.drainStores a).gxReading d.build ns).gxStore (isHost a) ps bs).gxDone a w (gxAnswer buf.2 (if d.clipped xy.1 xy.2 then 2 else 0))

/-- GXRD (R127, R128, R250). -/
def execGxrd (a : Agent) (w : GxWord) (s : State) : Res := ok (s.issue a fun s => s.gxrdBody a w.word w.ns)

/-- The effect of a gxwr (R127, R250): refused without BUILD, outside the build window, and below PROG_CH_FIRST. -/
def State.gxwrBody (s : State) (a : Agent) (w : BitVec 26) (ns : Nat) : State :=
  let d := s.gxDesc (fDesc w)
  let buf := s.gxBuffer d.build
  if !d.window || !d.build || !s.buildOpen || decide (d.chFirst < s.tbl.progFirst) then s.gxDone a w (gxAnswer buf.2 1)
  else
    let xy := gxCorner (s.g a (fRs1 w))
    let s := s.drainStores a
    match s.gxPieces a .load (d.pieces (s.g a (fRs2 w)).toNat d.srcStride) with
    | (.error (c, va), s) => s.takeTrap a false c (BitVec.ofNat 64 va)
    | (.ok ps, s) =>
      if ps.any (fun p => s.norBusy p.1) then s else
      let bs := ps.flatMap (fun (p : Nat × Nat) => s.rdBytes p.1 p.2)
      let s := s.each (upto d.height) (fun s j => s.gxPut d buf.1 xy.1 xy.2 j (bs.drop (j * d.rowLen)))
      let s := s.putTbl { s.tbl with writes := max s.tbl.writes (s.now + ns) }
      s.gxDone a w (gxAnswer buf.2 (if d.clipped xy.1 xy.2 then 2 else 0))

/-- GXWR (R127, R250). -/
def execGxwr (a : Agent) (w : GxWord) (s : State) : Res := ok (s.issue a fun s => s.gxwrBody a w.word w.ns)

/-- The effect of a gxrun (R127): a job enters the queue and rd takes its ticket; with 32 jobs queued, the agent waits. -/
def State.gxrunBody (s : State) (a : Agent) (w : BitVec 26) : State :=
  if 32 ≤ s.tbl.jobs.length then s.setBlocked a (.gxrun w)
  else
    let r := s.jobQueue (s.gxDesc (fDesc w)) (s.g a (fRs1 w)).toNat (s.g a (fRs2 w)).toNat
    r.1.gxDone a w (BitVec.ofNat 64 r.2)

/-- GXRUN (R127). -/
def execGxrun (a : Agent) (w : BitVec 26) (s : State) : Res := ok (s.issue a fun s => s.gxrunBody a w)

/-- GXRUN_UNBLOCK (R127): a gxrun that waits queues its job once there is room. -/
def execGxrunUnblock (a : Agent) (s : State) : Res :=
  match (s.cpu a).blocked with
  | .gxrun w => ok (if s.runs a then (s.setBlocked a .no).gxrunBody a w else s)
  | _ => ok s

/-- The effect of a gxwait (R127): the status of the ticket in rs1; with desc 0, the agent waits while the job runs. -/
def State.gxwaitBody (s : State) (a : Agent) (w : BitVec 26) : State :=
  let st := s.ticketStatus (s.g a (fRs1 w)).toNat
  if fDesc w = 0 ∧ st = 0xFF then s.setBlocked a (.gxwait w) else s.gxDone a w (BitVec.ofNat 64 st)

/-- GXWAIT (R127): ILLEGAL with rs2 or a desc that the rule does not give. -/
def execGxwait (a : Agent) (w : BitVec 26) (s : State) : Res :=
  ok (s.issue a fun s =>
    if 1 < fDesc w ∨ fRs2 w ≠ 0 then s.illegal a 0x3B w else s.gxwaitBody a w)

/-- A gxwait that waits looks at its ticket again. -/
def State.gxwaitAgain (s : State) (a : Agent) : State :=
  match (s.cpu a).blocked with
  | .gxwait w => if s.runs a then (s.setBlocked a .no).gxwaitBody a w else s
  | _ => s

/-- Every gxwait that waits looks at its ticket again. -/
def State.gxwaitAll (s : State) : State :=
  let s := s.each (upto 8) (fun s c => s.gxwaitAgain (.host (Fin.ofNat 8 c)))
  s.each (upto 258) (fun s t => s.gxwaitAgain (.tile (Fin.ofNat 258 t)))

/-- TENSOR_JOB_END (R127, R248): a queued job ends with OK, or with CHECK_FAIL where a unit of its mask failed the
known-answer test of a cycle it overlapped; `data` is what it leaves at its output base (R144). A gxwait that waits for it answers. -/
def execTensorJobEnd (j : Nat) (data : List Byte) (s : State) : Res :=
  match s.tbl.jobs[j]? with
  | none => ok s
  | some k =>
    let s := s.engStore k.out data
    let tested := s.tbl.cyc.isSome && !s.bit .TBL TBL_STATUS 3
    let s := s.putTbl { s.tbl with
      jobs := s.tbl.jobs.eraseIdx j
      ended := s.tbl.ended.set none k.ticket (some (if k.failed then 3 else 0))
      recent := if tested then s.tbl.recent ++ [(k.ticket, k.units)] else s.tbl.recent }
    ok s.gxwaitAll

/-! ## The rows that end a cycle (R246–R249): a gxwait that waited for the test of the cycle answers -/

/-- TABLETOP_CUT (R245, R246). -/
def execTabletopCut (t : Nat) (sums : List (Fin 16 × Fin 256 × BitVec 64)) (fused : List (Fin 16777216 × Byte)) (s : State) : Res :=
  if s.cutDue t then ok (s.cutRun t sums fused).gxwaitAll else ok s

/-- CYCLE_SKIP (R247): a cycle not published by S_k + 35 ms is abandoned. -/
def execCycleSkip (s : State) : Res :=
  match s.tbl.cyc with
  | none => ok s
  | some c => ok ((s.passTo (c.cut + 35000000)).cycleAbandon.stopIfPending).gxwaitAll

/-- CYCLE (R246): the cycle in progress reaches publication. -/
def execTblCycle (dt : Nat) (crop : List (Int × Byte)) (dets : List TblDet) (kat : BitVec 64) (pick : List (Nat × Nat)) (s : State) :
    Res :=
  match s.tbl.cyc with
  | none => ok s
  | some c => ok ((s.pass dt).cyclePublish c crop dets kat.toNat pick).gxwaitAll

end Sys2Proof.Machine
end

