-- ==== Sys2Proof/Machine/Service.lean ====
section
/-! DEFINITION. The Stafauk Service Protocol with the recovery receiver, and the Cart Coupling Protocol at the combine
(R434, R435, R437–R441). -/

namespace Sys2Proof.Machine

/-! ## Datagrams (R437) -/

/-- A response datagram. -/
def svcFrame (typ : Nat) (err : Bool) (sess sq : Nat) (p : List Byte) : List Byte :=
  let h := leBytes 2 0x5353 ++ [byteN typ, byteN (1 + 2 * b2n err)] ++ leBytes 2 sess ++ leBytes 2 sq ++ leBytes 2 p.length ++
    leBytes 2 0
  h ++ leBytes 4 (crc32c (h ++ p)) ++ p

/-- An answer: its payload, or an error with a result code. -/
inductive SvcAns where
  | payload (p : List Byte)
  | error (r : Result)
  | silent
  deriving DecidableEq, Repr

/-- The datagram of an answer, if it is one. -/
def SvcAns.frame (a : SvcAns) (typ sess sq : Nat) : Option (List Byte) :=
  match a with
  | .payload p => some (svcFrame typ false sess sq p)
  | .error r => some (svcFrame typ true sess sq [byteN r.code])
  | .silent => none

/-- A result: OK as a payload, anything else as an error. -/
def svcResult (r : Result) : SvcAns := if r = .ok then .payload [0] else .error r

/-! ## Sessions -/

/-- Change a session. -/
def State.svcMod (s : State) (id : Nat) (f : Session → Session) : State :=
  s.putSvc (s.svc.map (fun (x : Session) => if x.id = id then f x else x))

/-- The recovery receiver serves (R439). -/
def State.recovering (s : State) : Bool := s.sys.stopped != 0

/-- What the service answers. -/
def State.answer (s : State) (r : Option (List Byte)) : State :=
  s.putResp (match r with | some d => .datagram d | none => .none)

/-- A request of a session: unknown sessions are not answered; a repeated SEQ gets the same answer and is not executed again;
outside the version window only the minimal set is served (R434, R437). `body` acts and answers. -/
def State.request (s : State) (typ : Nat) (sess sq : BitVec 16) (minimal : Bool) (body : Session → State → State × SvcAns) : State :=
  match s.svc.find? (fun (x : Session) => x.id = sess.toNat) with
  | none => s.answer none
  | some x =>
    let s := s.svcMod x.id (fun y => { y with seen := s.clk.up })
    match (if (x.last.map Prod.fst) = some sq.toNat then x.last else none) with
    | some l => s.answer (some l.2)
    | none =>
      let r := if x.ver = 0 ∧ minimal = false then (s, SvcAns.error .incompatible) else body x s
      match r.2.frame typ sess.toNat sq.toNat with
      | some d => (r.1.svcMod sess.toNat (fun y => { y with last := some (sq.toNat, d) })).answer (some d)
      | none => r.1.answer none

/-- The update source of a session's port: 1 on ETH4, 2 on any other (R438). -/
def Session.src (x : Session) : Nat := if x.port = 4 then 1 else 2

/-! ## HELLO (R434, R435) -/

/-- The version agreed with a partner that offers majors, the current major being 3.0 and the window 1–3; none outside it. -/
def svcAgree (vers : List (Byte × Byte)) : Option (Nat × Nat) :=
  let ms := vers.map (fun (v : Byte × Byte) => v.1.toNat)
  let hi := ms.foldl max 0
  let lo := ms.foldl min 255
  let m := min 3 hi
  if m < max 1 lo then none
  else some (m, if m = hi then ((vers.find? (fun (v : Byte × Byte) => v.1.toNat = hi)).map (fun (v : Byte × Byte) => v.2.toNat)).getD 0 else 0)

/-- A session id that no session has. -/
def State.svcNewId (s : State) : Nat :=
  let a := 1 + s.freeNat 65533
  let used := fun k => s.svc.any (fun (x : Session) => x.id = k)
  if used a then (if used (a + 1) then a + 2 else a + 1) else a

/-- The agreed version and the partner's range are recorded for interface 1 of Table 18-6. -/
def State.svcRecord (s : State) (vers : List (Byte × Byte)) (v : Nat × Nat) : State :=
  let ms := vers.map (fun (v : Byte × Byte) => v.1.toNat)
  (s.wrN .UPD (UPD_PARTNER_VER 1) (v.1 * 2 ^ 24 + v.2 * 2 ^ 16)).wrN .UPD (UPD_PARTNER_RANGE 1) (ms.foldl max 0 * 256 + ms.foldl min 255)

/-- The payload of a HELLO's answer. -/
def State.svcHelloBody (s : State) (v : Nat × Nat) (id : Nat) : List Byte :=
  [byteN v.1, byteN v.2] ++ leBytes 2 id ++ leBytes 4 (s.rdN .SYS SYS_ID) ++ leBytes 8 Config.serial ++ leBytes 4 (s.rdN .SYS SYS_MODE)

/-- A session opens. -/
def State.svcOpen (s : State) (port : Nat) (client sq : Nat) (vers : List (Byte × Byte)) : State :=
  let id := s.svcNewId
  let v := (svcAgree vers).getD (0, 0)
  let s := s.drawn.svcRecord vers v
  let s := if s.recovering then s.incF .UPD UPD_RECOVERY 31 16 1 else s
  let d := svcFrame 0x01 false id sq (s.svcHelloBody v id)
  let x : Session := { id := id, port := port, client := client, ver := v.1 * 256 + v.2, last := some (sq, d), seen := s.clk.up }
  (s.putSvc (s.svc ++ [x])).answer (some d)

/-- HELLO (R437): a client that connects again negotiates afresh and its old session ends (R435); a repeated SEQ gets the same
answer; with two other sessions BUSY. In recovery only ETH4 is served (R439). -/
def execSvcHello (port : Fin 5) (client : Nat) (sq : BitVec 16) (vers : List (Byte × Byte)) (s : State) : Res :=
  if !s.dieOn || (s.recovering && port.val != 4) then ok (s.answer none)
  else if vers = [] ∨ 8 < vers.length then ok (s.answer ((SvcAns.error .badHeader).frame 0x01 0 sq.toNat))
  else
    let mine := fun (x : Session) => x.port == port.val && x.client == client
    match (s.svc.find? mine).bind (fun (x : Session) => if x.last.map Prod.fst = some sq.toNat then x.last else none) with
    | some l => ok (s.answer (some l.2))
    | none =>
      let s := s.putSvc (s.svc.filter (fun x => !mine x))
      if 2 ≤ s.svc.length then ok (s.answer ((SvcAns.error .busy).frame 0x01 0 sq.toNat))
      else ok (s.svcOpen port.val client sq.toNat vers)

/-- BYE (R437). -/
def execSvcBye (sess sq : BitVec 16) (s : State) : Res :=
  let s := s.request 0x02 sess sq true (fun _ s => (s, .payload []))
  ok (s.putSvc (s.svc.filter (fun x => x.id != sess.toNat)))

/-- SESSION_TIMEOUT (R437): a session ends 10 s after its last request. -/
def execSessionTimeout (sess : BitVec 16) (s : State) : Res :=
  let s := match s.svc.find? (fun (x : Session) => x.id = sess.toNat) with
    | some x => s.pass (x.seen + 10000000000 - s.clk.up)
    | none => s
  ok (s.putSvc (s.svc.filter (fun x => x.id != sess.toNat)))

/-- STATUS (Table 18-7): of each region UPD_R_STATE and the version in use. -/
def execSvcStatus (sess sq : BitVec 16) (s : State) : Res :=
  ok (s.request 0x03 sess sq true fun _ s =>
    (s, .payload ((upto 16).flatMap (fun r => leBytes 4 (s.rdN .UPD (UPD_R_STATE r)) ++ leBytes 4 ((s.useVer r).getD 0)))))

/-! ## Updates (R438, R439) -/

/-- The recovery receiver serves U00 and U01 only; a region beyond 15 is none. -/
def State.svcRefusal (s : State) (r : Nat) : Option Result :=
  if 15 < r then some .badHeader else if s.recovering && decide (1 < r) then some .refusedMode else none

/-- UPD_BEGIN: the token, the effective policy and FIRST_MISSING. -/
def execSvcUpdBegin (sess sq : BitVec 16) (region : BitVec 8) (resume : Bool) (token : BitVec 16) (size : Word) (s : State) : Res :=
  ok (s.request 0x10 sess sq false fun x s =>
    let r := region.toNat
    match s.svcRefusal r with
    | some e => (s, .error e)
    | none =>
      if slotSize r < size.toNat then (s, .error .noSpace)
      else
        let o := s.updBegin r x.src (resume && s.updToken r == token.toNat)
        if o.2 = .ok then
          (o.1, .payload (leBytes 2 (o.1.updToken r) ++ [byteN (o.1.updPolicy r)] ++ leBytes 4 (o.1.rdN .UPD (UPD_R_FIRST_MISSING r))))
        else (o.1, .error o.2))

/-- The parts of a block held, in order, where all four are. -/
def SvcBlock.whole (b : SvcBlock) : Option (List Byte) :=
  if (upto 4).all (fun k => b.parts.cells.any (fun (c : Nat × List Byte) => c.1 == k)) then
    some ((upto 4).flatMap (fun k => b.parts.get [] k))
  else none

/-- The blocks of a session with a part entered; a client holds at most 16 unanswered, so the oldest gives way. -/
def svcPart (bs : List SvcBlock) (b : SvcBlock) (part : Nat) (data : List Byte) : SvcBlock × List SvcBlock :=
  let same := fun (c : SvcBlock) => c.token == b.token && c.region == b.region && c.block == b.block
  let old := (bs.find? same).getD b
  let new := { old with crc := b.crc, parts := old.parts.set [] part data }
  let rest := bs.filter (fun c => !same c)
  (new, rest.drop (rest.length - 15) ++ [new])

/-- UPD_DATA: the fourth part passes the block to WRITE_BLOCK, and the answer follows (R438). A part that is not 1,024 bytes is
refused. -/
def execSvcUpdData (sess sq token : BitVec 16) (region : BitVec 8) (block : Word) (part : Fin 4) (crc : Word) (data : List Byte)
    (s : State) : Res :=
  ok (s.request 0x11 sess sq false fun x s =>
    let r := region.toNat
    match s.svcRefusal r with
    | some e => (s, .error e)
    | none =>
      if data.length ≠ 1024 then (s, .error .badHeader)
      else
        let b := svcPart x.blocks { token := token.toNat, region := r, block := block.toNat, crc := crc.toNat, parts := SMap.empty }
          part.val data
        match b.1.whole with
        | none => (s.svcMod x.id (fun y => { y with blocks := b.2 }), .silent)
        | some d =>
          let s := s.svcMod x.id (fun y => { y with blocks := b.2.dropLast })
          let o := State.blockErr (s.updWrite r token.toNat block.toNat (some d) crc)
          (o.1, if o.2 = .ok then .payload (leBytes 4 block.toNat ++ [0]) else .error o.2))

/-- UPD_FINISH. -/
def execSvcUpdFinish (sess sq token : BitVec 16) (region : BitVec 8) (s : State) : Res :=
  ok (s.request 0x12 sess sq false fun _ s =>
    match s.svcRefusal region.toNat with
    | some e => (s, .error e)
    | none => let o := s.updFinish region.toNat token.toNat; (o.1, svcResult o.2))

/-- UPD_ABORT. -/
def execSvcUpdAbort (sess sq token : BitVec 16) (region : BitVec 8) (s : State) : Res :=
  ok (s.request 0x13 sess sq false fun _ s =>
    match s.svcRefusal region.toNat with
    | some e => (s, .error e)
    | none => let o := s.updAbort region.toNat token.toNat; (o.1, svcResult o.2))

/-- UPD_CONFIRM; not among what the recovery receiver accepts. -/
def execSvcUpdConfirm (sess sq mask : BitVec 16) (s : State) : Res :=
  ok (s.request 0x14 sess sq false fun _ s =>
    if s.recovering then (s, .error .refusedMode) else (s.updConfirm mask.toNat, .payload [0]))

/-- BUREAU_READ: up to 40 records from an index of the ring, as a reader is shown them; not among what the recovery receiver
accepts. -/
def execSvcBureauRead (sess sq : BitVec 16) (first : Word) (count : Byte) (s : State) : Res :=
  ok (s.request 0x20 sess sq false fun _ s =>
    if s.recovering then (s, .error .refusedMode)
    else if count.toNat = 0 ∨ 40 < count.toNat then (s, .error .badHeader)
    else (s, .payload (count :: (upto count.toNat).flatMap (fun i => s.burShown ((first.toNat + i) % 131072)))))

/-- RESTART (R437, R439): in SERVICE the answer is followed by a service restart, in recovery by a power-on start-up; in any other
mode REFUSED_MODE. -/
def execSvcRestart (sess sq : BitVec 16) (e : BootEnv) (s : State) : Res :=
  let may := s.recovering || (s.mode == 5 && !s.sys.active)
  let again := (s.svc.find? (fun (x : Session) => x.id = sess.toNat)).any (fun (x : Session) => x.last.map Prod.fst == some sq.toNat)
  let known := s.svc.any (fun (x : Session) => x.id = sess.toNat)
  let t := s.request 0x30 sess sq s.recovering fun _ s => if may then (s, .payload [0]) else (s, .error .refusedMode)
  let allowed := (s.svc.find? (fun (x : Session) => x.id = sess.toNat)).any (fun (x : Session) => s.recovering || x.ver != 0)
  if known && !again && may && allowed then
    let u := if s.recovering then t.powerOn e else t.coreReset 1 e
    ok (u.putResp t.resp)
  else ok t

/-! ## The Cart Coupling Protocol at the combine (R440, R441) -/

/-- The combine holds an agreed version with a cart (UPD_PARTNER_VER of interface 2). -/
def State.cartAgreed (s : State) : Bool := s.rd .UPD (UPD_PARTNER_VER 2) != 0

/-- CART_STATE (R441): valid where its stamp lies within 500 ms of its arrival; two valid ones within 300 ms couple the combine in
UNLOAD. -/
def execCartState (stamp : Nat) (body : List Byte) (s : State) : Res :=
  if s.now ≤ stamp + 500000000 ∧ stamp ≤ s.now + 500000000 then
    let near := match s.cart.last with | some t => decide (s.clk.up ≤ t + 300000000) | none => false
    let c := s.cart.coupled || (near && s.mode == 4 && s.cartAgreed)
    ok (s.putCart { s.cart with coupled := c, last := some s.clk.up, body := body })
  else ok s

/-- COUPLING_LOST (R441): 1 s after the last valid CART_STATE coupling ends; the program has a STOP with reason 2 to send. -/
def execCouplingLost (s : State) : Res :=
  if s.cart.coupled then
    let s := match s.cart.last with | some t => s.pass (t + 1000000000 - s.clk.up) | none => s
    ok (s.putCart { s.cart with coupled := false, stop := some 2 }) else ok s

end Sys2Proof.Machine
end

