-- ==== Sys2Proof/Machine/Transfer.lean ====
section
/-! DEFINITION. The Dumbwaiter's transfers of data: the arbiter, one burst, its reads, writes and their errors (R137, R411–R417,
R144, R146). -/

namespace Sys2Proof.Machine

/-! ## Which channel has a burst ready (R411, R412, R417) -/

/-- The bytes that the next burst of a transfer moves. -/
def DwXfer.len (x : DwXfer) : Nat := min (16 * x.beats) x.left

/-- A range of addresses meets a burst of some channel that still awaits a response. -/
def State.dwMeets (s : State) (lo len : Nat) : Bool :=
  (upto 64).any (fun k => (s.dw k).out.any (fun (b : DwOut) => decide (lo < b.lo + b.len) && decide (b.lo < lo + len)))

/-- The range of addresses of one side of a burst. -/
def sideLen (fixed : Bool) (len : Nat) : Nat := if fixed then 4 else len

/-- A channel has a burst ready: it runs a transfer, its request is asserted if it is paced, the burst overlaps none that
awaits a response, and it reads from no NOR bank that a request of the storage queue programs or erases (R149). -/
def State.dwReady (s : State) (n : Nat) : Bool :=
  match (s.dw n).xfer with
  | none => false
  | some x =>
    let len := x.len
    s.dwState n == 1 && !s.dwBit n 4 && !s.dwBit n 5 && !s.dwBit n 6 &&
      (!x.paced || (match (s.dw n).req with | some r => s.reqOn r | none => false)) &&
      !s.dwMeets x.sa (sideLen x.sfix len) && !s.dwMeets x.da (sideLen x.dfix len) &&
      !s.norBusy x.sa && !s.norBusy (x.sa + sideLen x.sfix len - 1)

/-- CFG.PRIO of a channel. -/
def State.dwPrio (s : State) (n : Nat) : Nat := s.f .DMW (DMW_CH_CFG n) 2 0

/-- The channel that the arbiter grants: the highest priority, and within it the lowest number above the last one granted there,
wrapping (R411). -/
def State.dwPick (s : State) : Option Nat :=
  let ready := (upto 64).filter (fun n => s.dwReady n)
  let top := ready.foldl (fun (p n : Nat) => max p (s.dwPrio n)) 0
  let l := ready.filter (fun n => s.dwPrio n == top)
  match l.find? (fun n => decide (s.dmw.last.get 0 top ≤ n)) with
  | some n => some n
  | none => l.head?

/-! ## Reads (R137, R144, R146, R414, R415) -/

/-- The request of the stream register at an address, if one stands there. -/
def streamOf (b : Block) (o : Nat) : Option Nat :=
  match regRow b o with
  | none => none
  | some r =>
    match b with
    | .TIM => if o = TIM_TMARK_STREAM then some 48 else none
    | .CAN => if r.off = CAN_CH_FIFO_STREAM 0 0 then some (32 + 2 * (r.idx o).getD 0 0 + (r.idx o).getD 1 0) else none
    | _ => none

/-- A channel's 32-bit read of a register: an empty stream also sets UNDERRUN. -/
def State.dwReadReg (s : State) (n : Nat) (b : Block) (o : Nat) : List Byte × State :=
  let empty := match streamOf b o with | some q => s.streamEmpty q | none => false
  let r := s.regRead b o (n + 1)
  (leBytes 4 r.1.toNat, if empty then r.2.dwUnderrun n else r.2)

/-- As many such reads, one after another. -/
def State.dwReadRegs (s : State) (n : Nat) (b : Block) (o : Nat) : Nat → List Byte × State
  | 0 => ([], s)
  | k + 1 =>
    let q := s.dwReadReg n b o
    let r := q.2.dwReadRegs n b o k
    (q.1 ++ r.1, r.2)

/-- The 16 bytes of a read beat; none for a bus error. -/
def State.dwReadBeat (s : State) (n : Nat) (fixed : Bool) (a : Nat) : Option (List Byte) × State :=
  match regionOf a with
  | .unmapped => (none, s)
  | .device =>
    match fixed, Block.ofAddr a with
    | true, some b =>
      let r := s.dwReadRegs n b (a % 0x100000) 4
      (some r.1, r.2)
    | _, _ => (none, s)
  | _ =>
    let k := if fixed then 4 else 16
    let s := s.eccRead a k
    if s.poisoned a k then (none, s)
    else
      let bs := s.rdBytes a k
      (some (if fixed then bs ++ bs ++ bs ++ bs else bs), s)

/-- The beats of a burst, read in order up to the first that errs; the answer has its data or that beat's address. -/
def State.dwReadAll (s : State) (n : Nat) (fixed : Bool) : Nat → Nat → Except Nat (List Byte) × State
  | 0, _ => (.ok [], s)
  | k + 1, a =>
    match s.dwReadBeat n fixed a with
    | (none, s) => (.error a, s)
    | (some bs, s) =>
      match s.dwReadAll n fixed k (if fixed then a else a + 16) with
      | (.error e, s) => (.error e, s)
      | (.ok l, s) => (.ok (bs ++ l), s)

/-! ## Writes -/

/-- A destination of normal memory that a channel may write. -/
def dwWritable (a : Nat) : Bool := (regionOf a).writable && regionOf a != .device

/-- Words written one at a time to a register. -/
def State.dwWriteReg (s : State) (b : Block) (o : Nat) : Nat → List Byte → State
  | 0, _ => s
  | k + 1, bs => (s.regWrite b o (wordN (leNat (bs.take 4)))).dwWriteReg b o k (bs.drop 4)

/-- The beats of a burst written to normal memory, each where the destination takes it; the answer has the first address that
refuses its beat. -/
def State.dwWriteMem (s : State) (fixed : Bool) : Nat → Nat → List Byte → Option Nat × State
  | 0, _, _ => (none, s)
  | k + 1, a, bs =>
    let good := dwWritable a
    let s := if good then s.progStore false a (if fixed then (bs.drop 12).take 4 else bs.take 16) else s
    let r := s.dwWriteMem fixed k (if fixed then a else a + 16) (bs.drop 16)
    (if good then r.1 else some a, r.2)

/-! ## A burst -/

/-- A transfer after a burst of `len` bytes: addresses advance unless fixed, gN falls, and at 0 the program goes on (R137). A
register that gives both addresses advances once, and one that gives an address and the count shows the count (DEDUCED,
assumption log 171). -/
def State.dwAdvance (s : State) (n : Nat) (x : DwXfer) (len : Nat) : State :=
  let x := { x with sa := if x.sfix then x.sa else x.sa + len, da := if x.dfix then x.da else x.da + len, left := x.left - len }
  let s := (s.dwSetG n x.src (BitVec.ofNat 64 x.sa)).dwSetG n x.dst (BitVec.ofNat 64 x.da)
  let s := (s.dwSetG n x.n (BitVec.ofNat 64 x.left)).dwMod n (fun c => { c with tries := 0, xfer := some x })
  if x.left = 0 then (((s.dwMod n (fun c => { c with xfer := none })).dwNext n).dwShow n).dwGoOn n else s.dwShow n

/-- The write half of a burst. A fixed register takes its words at once; a burst to normal memory awaits its responses, and one
whose beat is refused will fail for good. -/
def State.dwWriteBurst (s : State) (n : Nat) (x : DwXfer) (len : Nat) (bs : List Byte) : State :=
  let a := x.da
  match x.dfix, regionOf a, Block.ofAddr a with
  | true, .device, some b =>
    let s := s.dwWriteReg b (a % 0x100000) (len / 4) bs
    if s.dwState n = 1 ∧ (s.dw n).xfer = some x then s.dwAdvance n x len else s
  | true, .unmapped, _ => (s.dwRetried n (s.dwRetry n - (s.dw n).tries)).dwHalt n 0x21 (some a)
  | f, _, _ =>
    let r := s.dwWriteMem f (len / 16) a bs
    let o : DwOut := { lo := a, len := sideLen f len, desc := s.rdN .DMW (DMW_CH_DESC_NO n), no := x.no, bad := r.1 }
    (r.2.dwMod n (fun c => { c with out := c.out ++ [o] })).dwAdvance n x len

/-- A granted burst runs whole (R411); the start of a paced one deasserts its software request (R412). -/
def State.dwBurst (s : State) (n : Nat) (x : DwXfer) : State :=
  let p := s.dwPrio n
  let s := s.putDmw { s.dmw with last := s.dmw.last.set 0 p (n + 1) }
  let s := match x.paced, (s.dw n).req with
    | true, some r => if r < 32 then s.setBit .DMW DMW_SWREQ r false else s
    | _, _ => s
  let len := x.len
  match s.dwReadAll n x.sfix (len / 16) x.sa with
  | (.error a, s) => (s.dwRetried n (s.dwRetry n - (s.dw n).tries)).dwHalt n 0x20 (some a)
  | (.ok bs, s) =>
    if s.dwState n = 1 ∧ (s.dw n).xfer = some x then s.dwWriteBurst n x len bs else s

/-- The write responses that a running channel awaits return. One that fails for good halts the channel in the transfer it belongs
to (R415); of an earlier transfer it is late, and halts the channel at its boundary (R416). -/
def State.dwReturned (s : State) (n : Nat) : State :=
  if s.dwState n ≠ 1 then s
  else match s.dwResolve n with
    | (s, none) => s.dwShow n
    | (s, some x) =>
      if s.dwBit n 5 || ((s.dw n).xfer.map DwXfer.no) == some x.2.no then s.dwFail n false x
      else if s.dwBit n 6 then s.dwFail n true x
      else
        let s := if x.2.late then s else s.dwLate n x.2.desc
        s.dwMod n (fun c => { c with out := [{ x.2 with late := true, tries := s.dwRetry n }] })

/-- BURST_GRANT (R411): the responses of the channels `returned` have come back; then the arbiter grants one burst to the ready
channel of the highest priority. -/
def execBurstGrant (returned : List (Fin 64)) (s : State) : Res :=
  if !s.dieOn then ok s
  else
    let s := s.dwGoOnAll.each returned (fun s (n : Fin 64) => s.dwReturned n.val)
    match s.dwPick with
    | none => ok s
    | some n =>
      match (s.dw n).xfer with
      | some x => ok (s.dwBurst n x)
      | none => ok s

end Sys2Proof.Machine
end

