-- ==== Sys2Proof/Machine/Dispatch.lean ====
section
/-! DEFINITION. The meaning of each command: one arm per constructor of Instr. -/

namespace Sys2Proof.Machine

/-- The effect of a command on everything but the queue. -/
def exec (i : Instr) (s : State) : Host.Outcome State Fault Refusal :=
  match i with
  | .registerWrite b o v => Sys2Proof.Machine.execRegisterWrite b o v s
  | .registerAccessFault b o k => Sys2Proof.Machine.execRegisterAccessFault b o k s
  | .protectWrite b v => Sys2Proof.Machine.execProtectWrite b v s
  | .undefinedCommand b code => Sys2Proof.Machine.execUndefinedCommand b code s
  | .supplyQualified e => Sys2Proof.Machine.execSupplyQualified e s
  | .rideStart => Sys2Proof.Machine.execRideStart s
  | .rideReturn dt => Sys2Proof.Machine.execRideReturn dt s
  | .rideTimeExpired dt t => Sys2Proof.Machine.execRideTimeExpired dt t s
  | .reserveReturn => Sys2Proof.Machine.execReserveReturn s
  | .reserveBridgeExpired t => Sys2Proof.Machine.execReserveBridgeExpired t s
  | .collapse t => Sys2Proof.Machine.execCollapse t s
  | .inputOpen => Sys2Proof.Machine.execInputOpen s
  | .inputSwitchClose => Sys2Proof.Machine.execInputSwitchClose s
  | .reverseBatM t => Sys2Proof.Machine.execReverseBatM t s
  | .gndMOpen mv => Sys2Proof.Machine.execGndMOpen mv s
  | .overv mv => Sys2Proof.Machine.execOverv mv s
  | .feedLow f mv => Sys2Proof.Machine.execFeedLow f mv s
  | .feedLowClear f mv => Sys2Proof.Machine.execFeedLowClear f mv s
  | .journalEnd dt why n => Sys2Proof.Machine.execJournalEnd dt why n s
  | .sequencerEnd dt => Sys2Proof.Machine.execSequencerEnd dt s
  | .bankMeasurement c esr mv temp => Sys2Proof.Machine.execBankMeasurement c esr mv temp s
  | .armedChg mv temp => Sys2Proof.Machine.execArmedChg mv temp s
  | .bankTest => Sys2Proof.Machine.execBankTest s
  | .bankTestComplete mv temp => Sys2Proof.Machine.execBankTestComplete mv temp s
  | .bankBleed => Sys2Proof.Machine.execBankBleed s
  | .bankCharge => Sys2Proof.Machine.execBankCharge s
  | .pwrClearStats => Sys2Proof.Machine.execPwrClearStats s
  | .vcoreTargetWrite v => Sys2Proof.Machine.execVcoreTargetWrite v s
  | .vcoreDone => Sys2Proof.Machine.execVcoreDone s
  | .pmAverage cycles => Sys2Proof.Machine.execPmAverage cycles s
  | .guardIntervalStep => Sys2Proof.Machine.execGuardIntervalStep s
  | .ratioHigh => Sys2Proof.Machine.execRatioHigh s
  | .pmClear => Sys2Proof.Machine.execPmClear s
  | .xcClear => Sys2Proof.Machine.execXcClear s
  | .islRestart => Sys2Proof.Machine.execIslRestart s
  | .guardReset => Sys2Proof.Machine.execGuardReset s
  | .islStopWrite k v => Sys2Proof.Machine.execIslStopWrite k v s
  | .islStopped k => Sys2Proof.Machine.execIslStopped k s
  | .islWakeRequest k => Sys2Proof.Machine.execIslWakeRequest k s
  | .externalWake k => Sys2Proof.Machine.execExternalWake k s
  | .islWake k => Sys2Proof.Machine.execIslWake k s
  | .islLockTimeout k => Sys2Proof.Machine.execIslLockTimeout k s
  | .islLockLoss k => Sys2Proof.Machine.execIslLockLoss k s
  | .xcToggle m => Sys2Proof.Machine.execXcToggle m s
  | .xcToggleAck m => Sys2Proof.Machine.execXcToggleAck m s
  | .xcValueAccept m ws ab => Sys2Proof.Machine.execXcValueAccept m ws ab s
  | .xcFabricRead m vs => Sys2Proof.Machine.execXcFabricRead m vs s
  | .opReg a w => Sys2Proof.Machine.execOpReg a w s
  | .muldiv a w => Sys2Proof.Machine.execMuldiv a w s
  | .addi a w => Sys2Proof.Machine.execAddi a w s
  | .andi a w => Sys2Proof.Machine.execAndi a w s
  | .ori a w => Sys2Proof.Machine.execOri a w s
  | .xori a w => Sys2Proof.Machine.execXori a w s
  | .setlti a w => Sys2Proof.Machine.execSetlti a w s
  | .setltui a w => Sys2Proof.Machine.execSetltui a w s
  | .shifti a w => Sys2Proof.Machine.execShifti a w s
  | .addhi a w => Sys2Proof.Machine.execAddhi a w s
  | .addxi a w => Sys2Proof.Machine.execAddxi a w s
  | .addpc a w => Sys2Proof.Machine.execAddpc a w s
  | .beq a w => Sys2Proof.Machine.execBeq a w s
  | .bne a w => Sys2Proof.Machine.execBne a w s
  | .blt a w => Sys2Proof.Machine.execBlt a w s
  | .bge a w => Sys2Proof.Machine.execBge a w s
  | .bltu a w => Sys2Proof.Machine.execBltu a w s
  | .bgeu a w => Sys2Proof.Machine.execBgeu a w s
  | .jmp a w => Sys2Proof.Machine.execJmp a w s
  | .call a w => Sys2Proof.Machine.execCall a w s
  | .jreg a w => Sys2Proof.Machine.execJreg a w s
  | .ldb a w => Sys2Proof.Machine.execLdb a w s
  | .ldh a w => Sys2Proof.Machine.execLdh a w s
  | .ldw a w => Sys2Proof.Machine.execLdw a w s
  | .ldd a w => Sys2Proof.Machine.execLdd a w s
  | .ldbu a w => Sys2Proof.Machine.execLdbu a w s
  | .ldhu a w => Sys2Proof.Machine.execLdhu a w s
  | .ldwu a w => Sys2Proof.Machine.execLdwu a w s
  | .stb a w => Sys2Proof.Machine.execStb a w s
  | .sth a w => Sys2Proof.Machine.execSth a w s
  | .stw a w => Sys2Proof.Machine.execStw a w s
  | .std a w => Sys2Proof.Machine.execStd a w s
  | .flds a w => Sys2Proof.Machine.execFlds a w s
  | .fldd a w => Sys2Proof.Machine.execFldd a w s
  | .fsts a w => Sys2Proof.Machine.execFsts a w s
  | .fstd a w => Sys2Proof.Machine.execFstd a w s
  | .storeVisible a k => Sys2Proof.Machine.execStoreVisible a k s
  | .atom a w => Sys2Proof.Machine.execAtom a w s
  | .fence a w => Sys2Proof.Machine.execFence a w s
  | .fenceArriveDone a => Sys2Proof.Machine.execFenceArriveDone a s
  | .syscall a w => Sys2Proof.Machine.execSyscall a w s
  | .brk a w => Sys2Proof.Machine.execBrk a w s
  | .rtn a w => Sys2Proof.Machine.execRtn a w s
  | .tret a w => Sys2Proof.Machine.execTret a w s
  | .pgsync a w => Sys2Proof.Machine.execPgsync a w s
  | .waitev a w => Sys2Proof.Machine.execWaitev a w s
  | .waitevResume c => Sys2Proof.Machine.execWaitevResume c s
  | .sysreg a w => Sys2Proof.Machine.execSysreg a w s
  | .eventTaken c => Sys2Proof.Machine.execEventTaken c s
  | .tcmpExpiry c m => Sys2Proof.Machine.execTcmpExpiry c m s
  | .fop a w => Sys2Proof.Machine.execFop a w s
  | .fmadd a w => Sys2Proof.Machine.execFmadd a w s
  | .fmsub a w => Sys2Proof.Machine.execFmsub a w s
  | .fnmadd a w => Sys2Proof.Machine.execFnmadd a w s
  | .fnmsub a w => Sys2Proof.Machine.execFnmsub a w s
  | .send a w => Sys2Proof.Machine.execSend a w s
  | .sendUnblock t => Sys2Proof.Machine.execSendUnblock t s
  | .recv a w => Sys2Proof.Machine.execRecv a w s
  | .recvUnblock t => Sys2Proof.Machine.execRecvUnblock t s
  | .pick a w => Sys2Proof.Machine.execPick a w s
  | .pickUnblock t => Sys2Proof.Machine.execPickUnblock t s
  | .waitt a w => Sys2Proof.Machine.execWaitt a w s
  | .waittExpire a => Sys2Proof.Machine.execWaittExpire a s
  | .chstat a w => Sys2Proof.Machine.execChstat a w s
  | .pigeonholeWordDelivery p => Sys2Proof.Machine.execPigeonholeWordDelivery p s
  | .ringReread t => Sys2Proof.Machine.execRingReread t s
  | .enginePortWord port => Sys2Proof.Machine.execEnginePortWord port s
  | .gxrd a w => Sys2Proof.Machine.execGxrd a w s
  | .gxwr a w => Sys2Proof.Machine.execGxwr a w s
  | .gxrun a w => Sys2Proof.Machine.execGxrun a w s
  | .gxrunUnblock a => Sys2Proof.Machine.execGxrunUnblock a s
  | .gxwait a w => Sys2Proof.Machine.execGxwait a w s
  | .tensorJobEnd j data => Sys2Proof.Machine.execTensorJobEnd j data s
  | .loopSample n t busy => Sys2Proof.Machine.execLoopSample n t busy s
  | .lpePinWrite p v => Sys2Proof.Machine.execLpePinWrite p v s
  | .stagedWrite o v => Sys2Proof.Machine.execStagedWrite o v s
  | .loopApply => Sys2Proof.Machine.execLoopApply s
  | .lpeSwap => Sys2Proof.Machine.execLpeSwap s
  | .lpeSwapCancel => Sys2Proof.Machine.execLpeSwapCancel s
  | .lpeClearFault => Sys2Proof.Machine.execLpeClearFault s
  | .lpePreload => Sys2Proof.Machine.execLpePreload s
  | .lpeClearCounts => Sys2Proof.Machine.execLpeClearCounts s
  | .vlvGo n k => Sys2Proof.Machine.execVlvGo n k s
  | .vlvStop n => Sys2Proof.Machine.execVlvStop n s
  | .cmdInWrite n v => Sys2Proof.Machine.execCmdInWrite n v s
  | .holdEnd n e => Sys2Proof.Machine.execHoldEnd n e s
  | .deferralApply g => Sys2Proof.Machine.execDeferralApply g s
  | .deferMaxExpired n => Sys2Proof.Machine.execDeferMaxExpired n s
  | .peakMaxExpired n => Sys2Proof.Machine.execPeakMaxExpired n s
  | .decayEnd n below => Sys2Proof.Machine.execDecayEnd n below s
  | .vlvDuty n add => Sys2Proof.Machine.execVlvDuty n add s
  | .dutyResume n bins => Sys2Proof.Machine.execDutyResume n bins s
  | .openLoad n full current => Sys2Proof.Machine.execOpenLoad n full current s
  | .shortSup n current => Sys2Proof.Machine.execShortSup n current s
  | .groupTrip g c => Sys2Proof.Machine.execGroupTrip g c s
  | .offStateTest n v1 v2 v3 hsf batv => Sys2Proof.Machine.execOffStateTest n v1 v2 v3 hsf batv s
  | .coilTempEstimate n hsf duty current => Sys2Proof.Machine.execCoilTempEstimate n hsf duty current s
  | .idReadDone n frames => Sys2Proof.Machine.execIdReadDone n frames s
  | .ledgerWrite onMs => Sys2Proof.Machine.execLedgerWrite onMs s
  | .vlvHoldExpired n => Sys2Proof.Machine.execVlvHoldExpired n s
  | .vlvClaim => Sys2Proof.Machine.execVlvClaim s
  | .vlvSwap => Sys2Proof.Machine.execVlvSwap s
  | .vlvSwapCancel => Sys2Proof.Machine.execVlvSwapCancel s
  | .vlvClearFault => Sys2Proof.Machine.execVlvClearFault s
  | .feedReset => Sys2Proof.Machine.execFeedReset s
  | .idRead => Sys2Proof.Machine.execIdRead s
  | .ledgerRead => Sys2Proof.Machine.execLedgerRead s
  | .ledgerDelete => Sys2Proof.Machine.execLedgerDelete s
  | .vlvClearCounts => Sys2Proof.Machine.execVlvClearCounts s
  | .switchOn n => Sys2Proof.Machine.execSwitchOn n s
  | .switchOff n energy => Sys2Proof.Machine.execSwitchOff n energy s
  | .slewEnd n => Sys2Proof.Machine.execSlewEnd n s
  | .blankingEnd n => Sys2Proof.Machine.execBlankingEnd n s
  | .ocLatch n current energy => Sys2Proof.Machine.execOcLatch n current energy s
  | .tempLatch n temp energy => Sys2Proof.Machine.execTempLatch n temp energy s
  | .coolTimeExpired n => Sys2Proof.Machine.execCoolTimeExpired n s
  | .lswPause f => Sys2Proof.Machine.execLswPause f s
  | .pauseResume f => Sys2Proof.Machine.execPauseResume f s
  | .pauseTo n energy => Sys2Proof.Machine.execPauseTo n energy s
  | .feedOver f avg => Sys2Proof.Machine.execFeedOver f avg s
  | .feedOff f c energies => Sys2Proof.Machine.execFeedOff f c energies s
  | .feedOffEnd f c => Sys2Proof.Machine.execFeedOffEnd f c s
  | .openOn n current => Sys2Proof.Machine.execOpenOn n current s
  | .offStateCheck n out feed => Sys2Proof.Machine.execOffStateCheck n out feed s
  | .pwmEdge n on energy => Sys2Proof.Machine.execPwmEdge n on energy s
  | .lswHoldExpired n energy => Sys2Proof.Machine.execLswHoldExpired n energy s
  | .lswClaim => Sys2Proof.Machine.execLswClaim s
  | .lswUnlatch => Sys2Proof.Machine.execLswUnlatch s
  | .lswUnlock => Sys2Proof.Machine.execLswUnlock s
  | .lswClearCounts => Sys2Proof.Machine.execLswClearCounts s
  | .modeReq svcEn => Sys2Proof.Machine.execModeReq svcEn s
  | .modeChg cut => Sys2Proof.Machine.execModeChg cut s
  | .ignFall => Sys2Proof.Machine.execIgnFall s
  | .svcEnFall => Sys2Proof.Machine.execSvcEnFall s
  | .standstill v => Sys2Proof.Machine.execStandstill v s
  | .keyoffTimeExpired => Sys2Proof.Machine.execKeyoffTimeExpired s
  | .dormantEntryWake p late k e => Sys2Proof.Machine.execDormantEntryWake p late k e s
  | .wakeInputRise p e => Sys2Proof.Machine.execWakeInputRise p e s
  | .wakeTimerExpired e => Sys2Proof.Machine.execWakeTimerExpired e s
  | .canBusWake n e => Sys2Proof.Machine.execCanBusWake n e s
  | .ethLinkWake p e => Sys2Proof.Machine.execEthLinkWake p e s
  | .startupWatchdog e => Sys2Proof.Machine.execStartupWatchdog e s
  | .drawerSet => Sys2Proof.Machine.execDrawerSet s
  | .tileRelease => Sys2Proof.Machine.execTileRelease s
  | .tileHalt => Sys2Proof.Machine.execTileHalt s
  | .tileReset => Sys2Proof.Machine.execTileReset s
  | .hostRelease => Sys2Proof.Machine.execHostRelease s
  | .coreReset e => Sys2Proof.Machine.execCoreReset e s
  | .stqHeadWrite v => Sys2Proof.Machine.execStqHeadWrite v s
  | .stqRequestDone bad => Sys2Proof.Machine.execStqRequestDone bad s
  | .scrubRead line errs => Sys2Proof.Machine.execScrubRead line errs s
  | .pghRaise k v => Sys2Proof.Machine.execPghRaise k v s
  | .pghClear v => Sys2Proof.Machine.execPghClear v s
  | .pghClaim c m => Sys2Proof.Machine.execPghClaim c m s
  | .pghSwi c v => Sys2Proof.Machine.execPghSwi c v s
  | .pghRouteWrite p v => Sys2Proof.Machine.execPghRouteWrite p v s
  | .linkTrained j gears => Sys2Proof.Machine.execLinkTrained j gears s
  | .linkLost j e => Sys2Proof.Machine.execLinkLost j e s
  | .trainingRetry j gears => Sys2Proof.Machine.execTrainingRetry j gears s
  | .frameStartPacket n p => Sys2Proof.Machine.execFrameStartPacket n p s
  | .longPacket n typ pk crcBad data => Sys2Proof.Machine.execLongPacket n typ pk crcBad data s
  | .frameEndPacket n p tp blank => Sys2Proof.Machine.execFrameEndPacket n p tp blank s
  | .noFeTimeout n e => Sys2Proof.Machine.execNoFeTimeout n e s
  | .frameTrigger n => Sys2Proof.Machine.execFrameTrigger n s
  | .frameProcessed t tp => Sys2Proof.Machine.execFrameProcessed t tp s
  | .camStart found => Sys2Proof.Machine.execCamStart found s
  | .camStop => Sys2Proof.Machine.execCamStop s
  | .paramLoad => Sys2Proof.Machine.execParamLoad s
  | .camClearCounts => Sys2Proof.Machine.execCamClearCounts s
  | .acqHeadWrite v => Sys2Proof.Machine.execAcqHeadWrite v s
  | .acqDone code dop ratio => Sys2Proof.Machine.execAcqDone code dop ratio s
  | .chStart => Sys2Proof.Machine.execChStart s
  | .chStop => Sys2Proof.Machine.execChStop s
  | .coldStart => Sys2Proof.Machine.execColdStart s
  | .gnsClearCounts => Sys2Proof.Machine.execGnsClearCounts s
  | .chLost c why => Sys2Proof.Machine.execChLost c why s
  | .gnsMeas obs => Sys2Proof.Machine.execGnsMeas obs s
  | .navbit c long t before raw => Sys2Proof.Machine.execNavbit c long t before raw s
  | .gnsAnt a ma => Sys2Proof.Machine.execGnsAnt a ma s
  | .antBiasRetry a ma => Sys2Proof.Machine.execAntBiasRetry a ma s
  | .imuRecord t rec => Sys2Proof.Machine.execImuRecord t rec s
  | .timCorrGo v => Sys2Proof.Machine.execTimCorrGo v s
  | .holdAfterExpired => Sys2Proof.Machine.execHoldAfterExpired s
  | .pps => Sys2Proof.Machine.execPps s
  | .timeStep => Sys2Proof.Machine.execTimeStep s
  | .tmark t => Sys2Proof.Machine.execTmark t s
  | .tmarkLoRead => Sys2Proof.Machine.execTmarkLoRead s
  | .tmarkHiRead => Sys2Proof.Machine.execTmarkHiRead s
  | .timNowLoRead => Sys2Proof.Machine.execTimNowLoRead s
  | .clearTmark => Sys2Proof.Machine.execClearTmark s
  | .holdoverTest => Sys2Proof.Machine.execHoldoverTest s
  | .holdoverTestEnd => Sys2Proof.Machine.execHoldoverTestEnd s
  | .timClearStats => Sys2Proof.Machine.execTimClearStats s
  | .gmChg other => Sys2Proof.Machine.execGmChg other s
  | .tabletopCut t sums fused => Sys2Proof.Machine.execTabletopCut t sums fused s
  | .solverTo reached => Sys2Proof.Machine.execSolverTo reached s
  | .tblCycle dt crop dets kat pick => Sys2Proof.Machine.execTblCycle dt crop dets kat pick s
  | .cycleSkip => Sys2Proof.Machine.execCycleSkip s
  | .sampleArrive n stamp data => Sys2Proof.Machine.execSampleArrive n stamp data s
  | .slotFragment d => Sys2Proof.Machine.execSlotFragment d s
  | .extErr n => Sys2Proof.Machine.execExtErr n s
  | .slotSilent n => Sys2Proof.Machine.execSlotSilent n s
  | .tblStart => Sys2Proof.Machine.execTblStart s
  | .tblStop => Sys2Proof.Machine.execTblStop s
  | .alignSwap => Sys2Proof.Machine.execAlignSwap s
  | .tblSwapCancel => Sys2Proof.Machine.execTblSwapCancel s
  | .trustReset => Sys2Proof.Machine.execTrustReset s
  | .tblClearCounts => Sys2Proof.Machine.execTblClearCounts s
  | .ainFault n k samples => Sys2Proof.Machine.execAinFault n k samples s
  | .ainFaultClear n k samples => Sys2Proof.Machine.execAinFaultClear n k samples s
  | .finEdge n dt low high => Sys2Proof.Machine.execFinEdge n dt low high s
  | .finRefresh n dt level => Sys2Proof.Machine.execFinRefresh n dt level s
  | .finFault n => Sys2Proof.Machine.execFinFault n s
  | .lossImpact n dt width peak => Sys2Proof.Machine.execLossImpact n dt width peak s
  | .lossRateRefresh n dt => Sys2Proof.Machine.execLossRateRefresh n dt s
  | .lossTestPulse n response => Sys2Proof.Machine.execLossTestPulse n response s
  | .aioSupply k c mv ma => Sys2Proof.Machine.execAioSupply k c mv ma s
  | .supplyRetry k good mv ma => Sys2Proof.Machine.execSupplyRetry k good mv ma s
  | .aioClearCounts => Sys2Proof.Machine.execAioClearCounts s
  | .lossTest => Sys2Proof.Machine.execLossTest s
  | .mapTick t => Sys2Proof.Machine.execMapTick t s
  | .poseGo v => Sys2Proof.Machine.execPoseGo v s
  | .journalPeriod => Sys2Proof.Machine.execJournalPeriod s
  | .mapJournal good => Sys2Proof.Machine.execMapJournal good s
  | .compactDone => Sys2Proof.Machine.execCompactDone s
  | .mapStart => Sys2Proof.Machine.execMapStart s
  | .restoreDone => Sys2Proof.Machine.execRestoreDone s
  | .mapStop => Sys2Proof.Machine.execMapStop s
  | .mapStopDone => Sys2Proof.Machine.execMapStopDone s
  | .mapNew => Sys2Proof.Machine.execMapNew s
  | .windowRead => Sys2Proof.Machine.execWindowRead s
  | .calApply => Sys2Proof.Machine.execCalApply s
  | .mapZero => Sys2Proof.Machine.execMapZero s
  | .zeroDone ps => Sys2Proof.Machine.execZeroDone ps s
  | .mapClearCounts => Sys2Proof.Machine.execMapClearCounts s
  | .pnlStart low hdr => Sys2Proof.Machine.execPnlStart low hdr s
  | .pnlStop => Sys2Proof.Machine.execPnlStop s
  | .uniformLoad => Sys2Proof.Machine.execUniformLoad s
  | .uniformityLoadDone maps => Sys2Proof.Machine.execUniformityLoadDone maps s
  | .i2cXfer ack data => Sys2Proof.Machine.execI2cXfer ack data s
  | .blReset => Sys2Proof.Machine.execBlReset s
  | .pnlClearCounts => Sys2Proof.Machine.execPnlClearCounts s
  | .pnlFlipWrite v => Sys2Proof.Machine.execPnlFlipWrite v s
  | .vsync => Sys2Proof.Machine.execVsync s
  | .frameCrc => Sys2Proof.Machine.execFrameCrc s
  | .pnlRail r mv => Sys2Proof.Machine.execPnlRail r mv s
  | .panelUnplug => Sys2Proof.Machine.execPanelUnplug s
  | .panelPlugIn => Sys2Proof.Machine.execPanelPlugIn s
  | .pnlTouch => Sys2Proof.Machine.execPnlTouch s
  | .pnlBacklight k bla cath => Sys2Proof.Machine.execPnlBacklight k bla cath s
  | .canStart => Sys2Proof.Machine.execCanStart s
  | .canStop => Sys2Proof.Machine.execCanStop s
  | .canRecover => Sys2Proof.Machine.execCanRecover s
  | .isbAbort => Sys2Proof.Machine.execIsbAbort s
  | .canClearCounts => Sys2Proof.Machine.execCanClearCounts s
  | .frameReceived n sof f bad => Sys2Proof.Machine.execFrameReceived n sof f bad s
  | .txreqWrite n k v => Sys2Proof.Machine.execTxreqWrite n k v s
  | .txcancelWrite n k v => Sys2Proof.Machine.execTxcancelWrite n k v s
  | .mbLock n b => Sys2Proof.Machine.execMbLock n b s
  | .mbUnlock n b => Sys2Proof.Machine.execMbUnlock n b s
  | .fifoPop n f v => Sys2Proof.Machine.execFifoPop n f v s
  | .txDone n dt r delay => Sys2Proof.Machine.execTxDone n dt r delay s
  | .txPeriod n b => Sys2Proof.Machine.execTxPeriod n b s
  | .busOffRecovered n => Sys2Proof.Machine.execBusOffRecovered n s
  | .sigTimeout r => Sys2Proof.Machine.execSigTimeout r s
  | .isbSend n k v => Sys2Proof.Machine.execIsbSend n k v s
  | .isbArmReceive n k v => Sys2Proof.Machine.execIsbArmReceive n k v s
  | .isbTimeout n k => Sys2Proof.Machine.execIsbTimeout n k s
  | .ttCycle n t r => Sys2Proof.Machine.execTtCycle n t r s
  | .ttWindow n k idle => Sys2Proof.Machine.execTtWindow n k idle s
  | .ttSyncOff n => Sys2Proof.Machine.execTtSyncOff n s
  | .ethFrameReceived p t d bad full => Sys2Proof.Machine.execEthFrameReceived p t d bad full s
  | .ethLink p up => Sys2Proof.Machine.execEthLink p up s
  | .ethRxHeadWrite q v => Sys2Proof.Machine.execEthRxHeadWrite q v s
  | .ethTxHeadWrite q v => Sys2Proof.Machine.execEthTxHeadWrite q v s
  | .fdbAge k => Sys2Proof.Machine.execFdbAge k s
  | .ptpSync => Sys2Proof.Machine.execPtpSync s
  | .peerDelay p d => Sys2Proof.Machine.execPeerDelay p d s
  | .fdbFlush => Sys2Proof.Machine.execFdbFlush s
  | .portRestart => Sys2Proof.Machine.execPortRestart s
  | .ethClearCounts => Sys2Proof.Machine.execEthClearCounts s
  | .dwStart n => Sys2Proof.Machine.execDwStart n s
  | .dwStop n start => Sys2Proof.Machine.execDwStop n start s
  | .dwStopDone n => Sys2Proof.Machine.execDwStopDone n s
  | .burstGrant returned => Sys2Proof.Machine.execBurstGrant returned s
  | .dmwSwreqWrite v => Sys2Proof.Machine.execDmwSwreqWrite v s
  | .requestAsserted r => Sys2Proof.Machine.execRequestAsserted r s
  | .streamRead who q => Sys2Proof.Machine.execStreamRead who q s
  | .beatError n wr addr => Sys2Proof.Machine.execBeatError n wr addr s
  | .heldBoundaryPass n => Sys2Proof.Machine.execHeldBoundaryPass n s
  | .dmwSwap => Sys2Proof.Machine.execDmwSwap s
  | .dmwSwapCancel => Sys2Proof.Machine.execDmwSwapCancel s
  | .dmwClearCounts => Sys2Proof.Machine.execDmwClearCounts s
  | .updBegin => Sys2Proof.Machine.execUpdBegin s
  | .updWriteBlock => Sys2Proof.Machine.execUpdWriteBlock s
  | .updFinish => Sys2Proof.Machine.execUpdFinish s
  | .updAbort => Sys2Proof.Machine.execUpdAbort s
  | .updConfirm => Sys2Proof.Machine.execUpdConfirm s
  | .updReadBlock => Sys2Proof.Machine.execUpdReadBlock s
  | .keyRevoke => Sys2Proof.Machine.execKeyRevoke s
  | .lockIdleExpired r => Sys2Proof.Machine.execLockIdleExpired r s
  | .svcHello port client sq vers => Sys2Proof.Machine.execSvcHello port client sq vers s
  | .svcBye sess sq => Sys2Proof.Machine.execSvcBye sess sq s
  | .svcStatus sess sq => Sys2Proof.Machine.execSvcStatus sess sq s
  | .svcUpdBegin sess sq region resume token size => Sys2Proof.Machine.execSvcUpdBegin sess sq region resume token size s
  | .svcUpdData sess sq token region block part crc data => Sys2Proof.Machine.execSvcUpdData sess sq token region block part crc data s
  | .svcUpdFinish sess sq token region => Sys2Proof.Machine.execSvcUpdFinish sess sq token region s
  | .svcUpdAbort sess sq token region => Sys2Proof.Machine.execSvcUpdAbort sess sq token region s
  | .svcUpdConfirm sess sq mask => Sys2Proof.Machine.execSvcUpdConfirm sess sq mask s
  | .svcBureauRead sess sq first count => Sys2Proof.Machine.execSvcBureauRead sess sq first count s
  | .svcRestart sess sq e => Sys2Proof.Machine.execSvcRestart sess sq e s
  | .sessionTimeout sess => Sys2Proof.Machine.execSessionTimeout sess s
  | .burPut v => Sys2Proof.Machine.execBurPut v s
  | .recordDrain => Sys2Proof.Machine.execRecordDrain s
  | .patchWrite => Sys2Proof.Machine.execPatchWrite s
  | .burCursorWrite v => Sys2Proof.Machine.execBurCursorWrite v s
  | .burWin7Read => Sys2Proof.Machine.execBurWin7Read s
  | .burFreeze => Sys2Proof.Machine.execBurFreeze s
  | .burUnfreeze => Sys2Proof.Machine.execBurUnfreeze s
  | .freezeTimeout => Sys2Proof.Machine.execFreezeTimeout s
  | .burClear => Sys2Proof.Machine.execBurClear s
  | .burClearCounts => Sys2Proof.Machine.execBurClearCounts s
  | .housekeepingRound readings => Sys2Proof.Machine.execHousekeepingRound readings s
  | .hkpCfgWrite k v => Sys2Proof.Machine.execHkpCfgWrite k v s
  | .roundNow => Sys2Proof.Machine.execRoundNow s
  | .clearStates => Sys2Proof.Machine.execClearStates s
  | .thermalShutdown k cause reading t => Sys2Proof.Machine.execThermalShutdown k cause reading t s
  | .thermalRestart e => Sys2Proof.Machine.execThermalRestart e s
  | .comparatorMismatch => Sys2Proof.Machine.execComparatorMismatch s
  | .safetyCheckFault code src => Sys2Proof.Machine.execSafetyCheckFault code src s
  | .wdgKick v e => Sys2Proof.Machine.execWdgKick v e s
  | .wdgExpiry e => Sys2Proof.Machine.execWdgExpiry e s
  | .comparatorSelfTest pass => Sys2Proof.Machine.execComparatorSelfTest pass s
  | .il28FrequencyTest kHz => Sys2Proof.Machine.execIl28FrequencyTest kHz s
  | .clearLimp failing => Sys2Proof.Machine.execClearLimp failing s
  | .cutoffTest pass => Sys2Proof.Machine.execCutoffTest pass s
  | .safClearCounts => Sys2Proof.Machine.execSafClearCounts s
  | .tstUnlock v => Sys2Proof.Machine.execTstUnlock v s
  | .chTrack c cn0 => Sys2Proof.Machine.execChTrack c cn0 s
  | .timeSlewEnd => Sys2Proof.Machine.execTimeSlewEnd s
  | .timeMessageDrop => Sys2Proof.Machine.execTimeMessageDrop s
  | .linkErrRead n => Sys2Proof.Machine.execLinkErrRead n s
  | .burdenRetry n still => Sys2Proof.Machine.execBurdenRetry n still s
  | .wakeInputFall p => Sys2Proof.Machine.execWakeInputFall p s
  | .busIntegrated n => Sys2Proof.Machine.execBusIntegrated n s
  | .bamPacket n k => Sys2Proof.Machine.execBamPacket n k s
  | .ethFrameSent q t full => Sys2Proof.Machine.execEthFrameSent q t full s
  | .cartState stamp body => Sys2Proof.Machine.execCartState stamp body s
  | .couplingLost => Sys2Proof.Machine.execCouplingLost s

end Sys2Proof.Machine
end

