-- ==== Sys2Proof/Machine/Tick.lean ====
section
/-! DEFINITION. What happens as time passes with no command waiting. -/

namespace Sys2Proof.Machine

/-- With no command waiting one nanosecond passes (DESIGN CHOICE, assumption log 3): a CAM_START that waits goes on or ends (Table
8-12), a Dumbwaiter program that nothing holds goes on, a time message that waits for the end of its pulse is queued (R238), and
HOST_RX is raised for frames that waited for its 100 µs (R405). -/
def State.tick (s : State) : State := (s.pass 1).camStartWait.dwGoOnAll.tmsgQueue.hostRx

end Sys2Proof.Machine
end

