-- ==== Sys2Proof/Laws/Sparse.lean ====
section
/-! SUPPORT. Reading a sparse store after a write, and the canonical form that every write keeps. -/

namespace Sys2Proof

/-- A key listed in neither part is found in what follows the first part. -/
theorem SMap.find_append {α : Type} (l r : List (Nat × α)) (k : Nat) :
    SMap.find (l ++ r) k = (SMap.find l k).or (SMap.find r k) := by
  induction l with
  | nil => rfl
  | cons c t ih =>
    obtain ⟨k', v⟩ := c
    by_cases h : k' = k <;> simp [SMap.find, h, ih]

/-- Keeping the cells that satisfy a test of the key finds the same value at a key that satisfies it, and none at another. -/
theorem SMap.find_filter {α : Type} (p : Nat → Bool) (l : List (Nat × α)) (k : Nat) :
    SMap.find (l.filter (fun c => p c.1)) k = if p k then SMap.find l k else none := by
  induction l with
  | nil => simp [SMap.find]
  | cons c t ih =>
    obtain ⟨k', v⟩ := c
    by_cases h : k' = k
    · subst h
      by_cases hp : p k' <;> simp [SMap.find, hp, ih]
    · by_cases hp : p k' <;> simp [SMap.find, hp, h, ih]

/-- What a store reads at a key after a write at a key. -/
theorem SMap.get_set {α : Type} [DecidableEq α] (m : SMap α) (d v : α) (k k' : Nat) (d' : α) (hd : k' = k → d' = d) :
    (m.set d k v).get d' k' = if k' = k then v else m.get d' k' := by
  unfold SMap.get SMap.set
  simp only [SMap.find_append]
  have h1 := SMap.find_filter (fun x => decide (x < k)) m.cells k'
  have h2 := SMap.find_filter (fun x => decide (k < x)) m.cells k'
  rw [h1, h2]
  by_cases e : k' = k
  · subst e
    by_cases hv : v = d <;> simp [hv, SMap.find, hd rfl]
  · rcases Nat.lt_or_gt_of_ne e with g | g
    · have : ¬ k < k' := by omega
      by_cases hv : v = d <;> simp [hv, g, this, e, SMap.find, Ne.symm e]
    · have : ¬ k' < k := by omega
      by_cases hv : v = d <;> simp [hv, g, this, e, SMap.find, Ne.symm e]

/-- A store reads at a key what was written there. -/
@[simp] theorem SMap.get_set_same {α : Type} [DecidableEq α] (m : SMap α) (d v : α) (k : Nat) :
    (m.set d k v).get d k = v := by
  simp [SMap.get_set]

/-- A write leaves every other key alone. -/
theorem SMap.get_set_ne {α : Type} [DecidableEq α] (m : SMap α) (d v d' : α) (k k' : Nat) (h : k' ≠ k) :
    (m.set d k v).get d' k' = m.get d' k' := by
  rw [SMap.get_set _ _ _ _ _ _ (fun e => absurd e h)]
  simp [h]

/-- A store that lists nothing reads the default. -/
@[simp] theorem SMap.get_empty {α : Type} (d : α) (k : Nat) : (SMap.empty : SMap α).get d k = d := rfl

/-- Canonical form, as a statement about the cells. -/
theorem SMap.wf_iff {α : Type} [DecidableEq α] (dflt : Nat → α) (m : SMap α) :
    m.wf dflt = true ↔ m.cells.Pairwise (fun a b => a.1 < b.1) ∧ ∀ c ∈ m.cells, c.2 ≠ dflt c.1 := by
  simp [SMap.wf]

/-- A store that lists nothing is canonical. -/
@[simp] theorem SMap.wf_empty {α : Type} [DecidableEq α] (dflt : Nat → α) : (SMap.empty : SMap α).wf dflt = true := by
  simp [SMap.wf, SMap.empty]

/-- A write under the key's own default keeps the canonical form. -/
theorem SMap.wf_set {α : Type} [DecidableEq α] (dflt : Nat → α) (m : SMap α) (k : Nat) (v : α) (h : m.wf dflt = true) :
    (m.set (dflt k) k v).wf dflt = true := by
  rw [SMap.wf_iff] at h ⊢
  obtain ⟨hp, hd⟩ := h
  unfold SMap.set
  constructor
  · rw [List.pairwise_append, List.pairwise_append]
    refine ⟨⟨hp.filter _, ?_, ?_⟩, hp.filter _, ?_⟩
    · by_cases hv : v = dflt k <;> simp [hv]
    · intro a ha b hb
      by_cases hv : v = dflt k
      · simp [hv] at hb
      · simp [hv] at hb ha
        rw [hb]; exact ha.2
    · intro a ha b hb
      simp only [List.mem_filter, decide_eq_true_eq] at hb
      simp only [List.mem_append, List.mem_filter, decide_eq_true_eq] at ha
      rcases ha with ha | ha
      · omega
      · by_cases hv : v = dflt k
        · simp [hv] at ha
        · simp [hv] at ha
          rw [ha]; exact hb.2
  · intro c hc
    simp only [List.mem_append, List.mem_filter, decide_eq_true_eq] at hc
    rcases hc with (hc | hc) | hc
    · exact hd c hc.1
    · by_cases hv : v = dflt k
      · simp [hv] at hc
      · simp [hv] at hc
        rw [hc]; exact hv
    · exact hd c hc.1

/-- The cells that a run of values lists: their keys lie in the run, rise, and none lists its default. -/
theorem SMap.listed_spec {α : Type} [DecidableEq α] (dflt : Nat → α) (vs : List α) (k : Nat) :
    (SMap.listed dflt k vs).Pairwise (fun a b => a.1 < b.1) ∧
      ∀ c ∈ SMap.listed dflt k vs, (k ≤ c.1 ∧ c.1 < k + vs.length) ∧ c.2 ≠ dflt c.1 := by
  induction vs generalizing k with
  | nil => simp [SMap.listed]
  | cons v t ih =>
    obtain ⟨hp, hm⟩ := ih (k + 1)
    have hm' : ∀ c ∈ SMap.listed dflt (k + 1) t, (k ≤ c.1 ∧ c.1 < k + (v :: t).length) ∧ c.2 ≠ dflt c.1 := by
      intro c hc
      have := hm c hc
      simp only [List.length_cons]
      exact ⟨by omega, this.2⟩
    by_cases hv : v = dflt k
    · simpa [SMap.listed, hv] using ⟨hp, fun a b hc => by simpa [hv] using hm' (a, b) hc⟩
    · simp only [SMap.listed, hv, if_false, List.singleton_append]
      refine ⟨List.pairwise_cons.2 ⟨fun c hc => ?_, hp⟩, ?_⟩
      · have := hm c hc
        show k < c.1
        omega
      · intro c hc
        rcases List.mem_cons.1 hc with e | hc
        · subst e
          exact ⟨by simp, hv⟩
        · exact hm' c hc

/-- Writing consecutive values keeps the canonical form. -/
theorem SMap.wf_blit {α : Type} [DecidableEq α] (dflt : Nat → α) (m : SMap α) (k : Nat) (vs : List α) (h : m.wf dflt = true) :
    (m.blit dflt k vs).wf dflt = true := by
  rw [SMap.wf_iff] at h ⊢
  obtain ⟨hp, hd⟩ := h
  obtain ⟨lp, lm⟩ := SMap.listed_spec dflt vs k
  unfold SMap.blit
  constructor
  · rw [List.pairwise_append, List.pairwise_append]
    refine ⟨⟨hp.filter _, lp, ?_⟩, hp.filter _, ?_⟩
    · intro a ha b hb
      have := lm b hb
      simp only [List.mem_filter, decide_eq_true_eq] at ha
      omega
    · intro a ha b hb
      simp only [List.mem_filter, decide_eq_true_eq] at hb
      simp only [List.mem_append, List.mem_filter, decide_eq_true_eq] at ha
      rcases ha with ha | ha
      · omega
      · have := lm a ha
        omega
  · intro c hc
    simp only [List.mem_append, List.mem_filter, decide_eq_true_eq] at hc
    rcases hc with (hc | hc) | hc
    · exact hd c hc.1
    · exact (lm c hc).2
    · exact hd c hc.1

/-- A range of keys replaced by cells that lie in it, rise and list no default keeps the canonical form. -/
theorem SMap.wf_splice {α : Type} [DecidableEq α] (dflt : Nat → α) (m : SMap α) (lo n : Nat) (cs : List (Nat × α))
    (h : m.wf dflt = true) (hp : cs.Pairwise (fun a b => a.1 < b.1))
    (hc : ∀ c ∈ cs, (lo ≤ c.1 ∧ c.1 < lo + n) ∧ c.2 ≠ dflt c.1) :
    (SMap.mk (m.cells.filter (fun c => decide (c.1 < lo)) ++ cs ++ m.cells.filter (fun c => decide (lo + n ≤ c.1)))).wf dflt = true := by
  rw [SMap.wf_iff] at h ⊢
  obtain ⟨mp, md⟩ := h
  constructor
  · rw [List.pairwise_append, List.pairwise_append]
    refine ⟨⟨mp.filter _, hp, ?_⟩, mp.filter _, ?_⟩
    · intro a ha b hb
      have := hc b hb
      simp only [List.mem_filter, decide_eq_true_eq] at ha
      omega
    · intro a ha b hb
      simp only [List.mem_filter, decide_eq_true_eq] at hb
      simp only [List.mem_append, List.mem_filter, decide_eq_true_eq] at ha
      rcases ha with ha | ha
      · omega
      · have := hc a ha
        omega
  · intro c hm
    simp only [List.mem_append, List.mem_filter, decide_eq_true_eq] at hm
    rcases hm with (hm | hm) | hm
    · exact md c hm.1
    · exact (hc c hm).2
    · exact md c hm.1

/-- Cells moved to another range, where the defaults agree, lie in that range, rise and list no default. -/
theorem SMap.moved_spec {α : Type} [DecidableEq α] (d d' : Nat → α) (m : SMap α) (lo n dst : Nat) (h : m.wf d = true)
    (e : ∀ k, lo ≤ k → k < lo + n → d' (k - lo + dst) = d k) :
    (m.moved lo n dst).Pairwise (fun a b => a.1 < b.1) ∧
      ∀ c ∈ m.moved lo n dst, (dst ≤ c.1 ∧ c.1 < dst + n) ∧ c.2 ≠ d' c.1 := by
  rw [SMap.wf_iff] at h
  obtain ⟨mp, md⟩ := h
  unfold SMap.moved
  constructor
  · rw [List.pairwise_map]
    refine (mp.filter _).imp_of_mem ?_
    intro a b ha hb hab
    simp only [List.mem_filter, Bool.and_eq_true, decide_eq_true_eq] at ha hb
    show a.1 - lo + dst < b.1 - lo + dst
    omega
  · intro c hc
    simp only [List.mem_map, List.mem_filter, Bool.and_eq_true, decide_eq_true_eq] at hc
    obtain ⟨a, ⟨ha, h1, h2⟩, rfl⟩ := hc
    refine ⟨⟨by show dst ≤ a.1 - lo + dst; omega, by show a.1 - lo + dst < dst + n; omega⟩, ?_⟩
    show a.2 ≠ d' (a.1 - lo + dst)
    rw [e a.1 h1 h2]
    exact md a ha

/-- Keeping some cells keeps the canonical form. -/
theorem SMap.wf_keep {α : Type} [DecidableEq α] (dflt : Nat → α) (m : SMap α) (p : Nat → Bool) (h : m.wf dflt = true) :
    (m.keep p).wf dflt = true := by
  rw [SMap.wf_iff] at h ⊢
  exact ⟨h.1.filter _, fun c hc => h.2 c (List.mem_filter.1 hc).1⟩

end Sys2Proof
end

