-- ==== Sys2Proof/Laws/Registers.lean ====
section
/-! SUPPORT. Reading registers and their fields after writes. -/

namespace Sys2Proof.Machine

/-- A window reads what was put there. -/
@[simp] theorem RegFile.win_put (r : RegFile) (b : Block) (m : SMap Word) : (r.put b m).win b = m := by
  cases b <;> rfl

/-- A put of one window leaves the others. -/
theorem RegFile.win_put_ne (r : RegFile) (b b' : Block) (m : SMap Word) (h : b' ≠ b) : (r.put b m).win b' = r.win b' := by
  cases b <;> cases b' <;> first | rfl | exact absurd rfl h

/-- What a register reads after a register was set. -/
theorem State.rd_wr (s : State) (b b' : Block) (o o' : Nat) (w : Word) :
    (s.wr b o w).rd b' o' = if b' = b ∧ o' = o then w else s.rd b' o' := by
  unfold State.rd State.wr
  by_cases hb : b' = b
  · subst hb
    by_cases ho : o' = o
    · subst ho; simp
    · simp [ho, SMap.get_set_ne]
  · simp [hb, RegFile.win_put_ne]

/-- A register reads what it was set to. -/
@[simp] theorem State.rd_wr_same (s : State) (b : Block) (o : Nat) (w : Word) : (s.wr b o w).rd b o = w := by
  simp [State.rd_wr]

/-- Setting a register leaves every other register. -/
theorem State.rd_wr_ne (s : State) (b b' : Block) (o o' : Nat) (w : Word) (h : b' ≠ b ∨ o' ≠ o) :
    (s.wr b o w).rd b' o' = s.rd b' o' := by
  rw [State.rd_wr, if_neg]
  rintro ⟨rfl, rfl⟩
  rcases h with h | h <;> exact h rfl

/-- A register depends on the register windows alone. -/
theorem State.rd_congr (s t : State) (h : s.regs = t.regs) (b : Block) (o : Nat) : s.rd b o = t.rd b o := by
  unfold State.rd; rw [h]

/-- Bit `i` of a field is a bit of the word. -/
theorem fld_testBit (w : Word) (hi lo i : Nat) : (fld w hi lo).testBit i = (decide (i < hi + 1 - lo) && w.getLsbD (lo + i)) := by
  unfold fld
  rw [Nat.testBit_mod_two_pow, Nat.testBit_shiftRight]
  rfl

/-- The bits of a word with a field replaced. -/
theorem getLsbD_setFld (w : Word) (hi lo v i : Nat) (h : hi < 32) :
    (setFld w hi lo v).getLsbD i = if lo ≤ i ∧ i ≤ hi then v.testBit (i - lo) else w.getLsbD i := by
  unfold setFld fldMask
  simp only [BitVec.getLsbD_or, BitVec.getLsbD_and, BitVec.getLsbD_not, BitVec.getLsbD_ofNat, Nat.testBit_shiftLeft,
    Nat.testBit_mod_two_pow, Nat.testBit_two_pow_sub_one]
  by_cases h1 : lo ≤ i
  · by_cases h2 : i ≤ hi
    · have a : i < 32 := by omega
      have c : i - lo < hi + 1 - lo := by omega
      simp [h1, h2, a, c]
    · have c : ¬ i - lo < hi + 1 - lo := by omega
      by_cases a : i < 32
      · simp [h2, a, c]
      · have : w.getLsbD i = false := BitVec.getLsbD_of_ge _ _ (by omega)
        simp [h2, a, this]
  · by_cases a : i < 32
    · simp [h1, a]
    · have : w.getLsbD i = false := BitVec.getLsbD_of_ge _ _ (by omega)
      simp [h1, a, this]

/-- A field reads what it was set to. -/
theorem fld_setFld (w : Word) (hi lo v : Nat) (h : hi < 32) : fld (setFld w hi lo v) hi lo = v % 2 ^ (hi + 1 - lo) := by
  apply Nat.eq_of_testBit_eq
  intro i
  rw [fld_testBit, Nat.testBit_mod_two_pow, getLsbD_setFld _ _ _ _ _ h]
  by_cases c : i < hi + 1 - lo
  · have : lo ≤ lo + i ∧ lo + i ≤ hi := by omega
    simp [c, this]
  · simp [c]

/-- A field set leaves a field that it does not overlap. -/
theorem fld_setFld_ne (w : Word) (hi lo hi' lo' v : Nat) (h : hi < 32) (d : hi' < lo ∨ hi < lo') :
    fld (setFld w hi lo v) hi' lo' = fld w hi' lo' := by
  apply Nat.eq_of_testBit_eq
  intro i
  rw [fld_testBit, fld_testBit, getLsbD_setFld _ _ _ _ _ h]
  by_cases c : i < hi' + 1 - lo'
  · have : ¬ (lo ≤ lo' + i ∧ lo' + i ≤ hi) := by omega
    simp [c, this]
  · simp [c]

/-- A bit of a word is its bit by number. -/
theorem bitOf_eq (w : Word) (i : Nat) : bitOf w i = w.getLsbD i := rfl

/-- A bit of a word with a field replaced. -/
theorem bitOf_setFld (w : Word) (hi lo v i : Nat) (h : hi < 32) :
    bitOf (setFld w hi lo v) i = if lo ≤ i ∧ i ≤ hi then v.testBit (i - lo) else bitOf w i :=
  getLsbD_setFld w hi lo v i h

/-- A bit reads what it was put to. -/
theorem bitOf_putBit (w : Word) (i : Nat) (v : Bool) (h : i < 32) : bitOf (putBit w i v) i = v := by
  unfold putBit
  rw [bitOf_setFld _ _ _ _ _ h]
  cases v <;> simp

/-- Putting a bit leaves every other bit. -/
theorem bitOf_putBit_ne (w : Word) (i j : Nat) (v : Bool) (h : i < 32) (d : j ≠ i) : bitOf (putBit w i v) j = bitOf w j := by
  unfold putBit
  rw [bitOf_setFld _ _ _ _ _ h, if_neg (by omega)]

/-- Putting a bit leaves every field that does not hold it. -/
theorem fld_putBit_ne (w : Word) (i hi lo : Nat) (v : Bool) (h : i < 32) (d : hi < i ∨ i < lo) :
    fld (putBit w i v) hi lo = fld w hi lo := fld_setFld_ne w i i hi lo _ h d

/-- A field of a state's register after the field was set. -/
theorem State.f_setF (s : State) (b : Block) (o hi lo v : Nat) (h : hi < 32) :
    (s.setF b o hi lo v).f b o hi lo = v % 2 ^ (hi + 1 - lo) := by
  simp [State.f, State.setF, fld_setFld _ _ _ _ h]

/-- A bit of a state's register after it was set. -/
theorem State.bit_setBit (s : State) (b : Block) (o i : Nat) (v : Bool) (h : i < 32) : (s.setBit b o i v).bit b o i = v := by
  simp [State.bit, State.setBit, bitOf_putBit _ _ _ h]

end Sys2Proof.Machine
end

