-- ==== Sys2Proof/Laws/State.lean ====
section
/-! SUPPORT. What each operation sets and leaves of a state, field by field. -/

set_option Elab.async false

namespace Sys2Proof.Machine

/-- What `putMem` sets and leaves. -/
@[simp] theorem State.putMem_fields (s : State) (x : SMap Byte) :
    (s.putMem x).regs = s.regs ∧ (s.putMem x).mem = x ∧ (s.putMem x).resp = s.resp ∧ (s.putMem x).clk = s.clk ∧
    (s.putMem x).now = s.now ∧ (s.putMem x).free = s.free ∧ (s.putMem x).mail = s.mail ∧ (s.putMem x).pgh = s.pgh ∧
    (s.putMem x).fifo = s.fifo ∧ (s.putMem x).cpus = s.cpus ∧ (s.putMem x).tlb = s.tlb ∧
    (s.putMem x).psync = s.psync ∧ (s.putMem x).sbuf = s.sbuf ∧ (s.putMem x).pickLast = s.pickLast ∧
    (s.putMem x).ports = s.ports ∧ (s.putMem x).poison = s.poison ∧ (s.putMem x).latent = s.latent ∧
    (s.putMem x).ceAt = s.ceAt ∧ (s.putMem x).bur = s.bur ∧ (s.putMem x).sys = s.sys ∧ (s.putMem x).lsw = s.lsw ∧
    (s.putMem x).vlv = s.vlv ∧ (s.putMem x).lpe = s.lpe ∧ (s.putMem x).emmc = s.emmc ∧ (s.putMem x).aio = s.aio ∧
    (s.putMem x).map = s.map ∧ (s.putMem x).tbl = s.tbl ∧ (s.putMem x).can = s.can ∧ (s.putMem x).eth = s.eth ∧
    (s.putMem x).pace = s.pace ∧ (s.putMem x).cam = s.cam ∧ (s.putMem x).upd = s.upd ∧ (s.putMem x).svc = s.svc ∧
    (s.putMem x).cart = s.cart ∧ (s.putMem x).pnl = s.pnl ∧ (s.putMem x).tim = s.tim ∧ (s.putMem x).gns = s.gns ∧
    (s.putMem x).nv = s.nv ∧ (s.putMem x).pwr = s.pwr ∧ (s.putMem x).aon = s.aon ∧ (s.putMem x).saf = s.saf ∧
    (s.putMem x).stq = s.stq ∧ (s.putMem x).dmw = s.dmw ∧ (s.putMem x).pending = s.pending :=
  by simp only [State.putMem, and_self]

@[simp] theorem State.mailOf_putMem (s : State) (x : SMap Byte) (b : Block) : (s.putMem x).mailOf b = s.mailOf b := rfl

@[simp] theorem State.rd_putMem (s : State) (x : SMap Byte) (b : Block) (o : Nat) : (s.putMem x).rd b o = s.rd b o := rfl

/-- What `putResp` sets and leaves. -/
@[simp] theorem State.putResp_fields (s : State) (x : Resp) :
    (s.putResp x).regs = s.regs ∧ (s.putResp x).mem = s.mem ∧ (s.putResp x).resp = x ∧ (s.putResp x).clk = s.clk ∧
    (s.putResp x).now = s.now ∧ (s.putResp x).free = s.free ∧ (s.putResp x).mail = s.mail ∧
    (s.putResp x).pgh = s.pgh ∧ (s.putResp x).fifo = s.fifo ∧ (s.putResp x).cpus = s.cpus ∧
    (s.putResp x).tlb = s.tlb ∧ (s.putResp x).psync = s.psync ∧ (s.putResp x).sbuf = s.sbuf ∧
    (s.putResp x).pickLast = s.pickLast ∧ (s.putResp x).ports = s.ports ∧ (s.putResp x).poison = s.poison ∧
    (s.putResp x).latent = s.latent ∧ (s.putResp x).ceAt = s.ceAt ∧ (s.putResp x).bur = s.bur ∧
    (s.putResp x).sys = s.sys ∧ (s.putResp x).lsw = s.lsw ∧ (s.putResp x).vlv = s.vlv ∧ (s.putResp x).lpe = s.lpe ∧
    (s.putResp x).emmc = s.emmc ∧ (s.putResp x).aio = s.aio ∧ (s.putResp x).map = s.map ∧ (s.putResp x).tbl = s.tbl ∧
    (s.putResp x).can = s.can ∧ (s.putResp x).eth = s.eth ∧ (s.putResp x).pace = s.pace ∧ (s.putResp x).cam = s.cam ∧
    (s.putResp x).upd = s.upd ∧ (s.putResp x).svc = s.svc ∧ (s.putResp x).cart = s.cart ∧ (s.putResp x).pnl = s.pnl ∧
    (s.putResp x).tim = s.tim ∧ (s.putResp x).gns = s.gns ∧ (s.putResp x).nv = s.nv ∧ (s.putResp x).pwr = s.pwr ∧
    (s.putResp x).aon = s.aon ∧ (s.putResp x).saf = s.saf ∧ (s.putResp x).stq = s.stq ∧ (s.putResp x).dmw = s.dmw ∧
    (s.putResp x).pending = s.pending :=
  by simp only [State.putResp, and_self]

@[simp] theorem State.mailOf_putResp (s : State) (x : Resp) (b : Block) : (s.putResp x).mailOf b = s.mailOf b := rfl

@[simp] theorem State.rd_putResp (s : State) (x : Resp) (b : Block) (o : Nat) : (s.putResp x).rd b o = s.rd b o := rfl

/-- What `putClk` sets and leaves. -/
@[simp] theorem State.putClk_fields (s : State) (x : Clock) :
    (s.putClk x).regs = s.regs ∧ (s.putClk x).mem = s.mem ∧ (s.putClk x).resp = s.resp ∧ (s.putClk x).clk = x ∧
    (s.putClk x).now = s.now ∧ (s.putClk x).free = s.free ∧ (s.putClk x).mail = s.mail ∧ (s.putClk x).pgh = s.pgh ∧
    (s.putClk x).fifo = s.fifo ∧ (s.putClk x).cpus = s.cpus ∧ (s.putClk x).tlb = s.tlb ∧
    (s.putClk x).psync = s.psync ∧ (s.putClk x).sbuf = s.sbuf ∧ (s.putClk x).pickLast = s.pickLast ∧
    (s.putClk x).ports = s.ports ∧ (s.putClk x).poison = s.poison ∧ (s.putClk x).latent = s.latent ∧
    (s.putClk x).ceAt = s.ceAt ∧ (s.putClk x).bur = s.bur ∧ (s.putClk x).sys = s.sys ∧ (s.putClk x).lsw = s.lsw ∧
    (s.putClk x).vlv = s.vlv ∧ (s.putClk x).lpe = s.lpe ∧ (s.putClk x).emmc = s.emmc ∧ (s.putClk x).aio = s.aio ∧
    (s.putClk x).map = s.map ∧ (s.putClk x).tbl = s.tbl ∧ (s.putClk x).can = s.can ∧ (s.putClk x).eth = s.eth ∧
    (s.putClk x).pace = s.pace ∧ (s.putClk x).cam = s.cam ∧ (s.putClk x).upd = s.upd ∧ (s.putClk x).svc = s.svc ∧
    (s.putClk x).cart = s.cart ∧ (s.putClk x).pnl = s.pnl ∧ (s.putClk x).tim = s.tim ∧ (s.putClk x).gns = s.gns ∧
    (s.putClk x).nv = s.nv ∧ (s.putClk x).pwr = s.pwr ∧ (s.putClk x).aon = s.aon ∧ (s.putClk x).saf = s.saf ∧
    (s.putClk x).stq = s.stq ∧ (s.putClk x).dmw = s.dmw ∧ (s.putClk x).pending = s.pending :=
  by simp only [State.putClk, and_self]

@[simp] theorem State.mailOf_putClk (s : State) (x : Clock) (b : Block) : (s.putClk x).mailOf b = s.mailOf b := rfl

@[simp] theorem State.rd_putClk (s : State) (x : Clock) (b : Block) (o : Nat) : (s.putClk x).rd b o = s.rd b o := rfl

/-- What `putNow` sets and leaves. -/
@[simp] theorem State.putNow_fields (s : State) (x : Nat) :
    (s.putNow x).regs = s.regs ∧ (s.putNow x).mem = s.mem ∧ (s.putNow x).resp = s.resp ∧ (s.putNow x).clk = s.clk ∧
    (s.putNow x).now = x ∧ (s.putNow x).free = s.free ∧ (s.putNow x).mail = s.mail ∧ (s.putNow x).pgh = s.pgh ∧
    (s.putNow x).fifo = s.fifo ∧ (s.putNow x).cpus = s.cpus ∧ (s.putNow x).tlb = s.tlb ∧
    (s.putNow x).psync = s.psync ∧ (s.putNow x).sbuf = s.sbuf ∧ (s.putNow x).pickLast = s.pickLast ∧
    (s.putNow x).ports = s.ports ∧ (s.putNow x).poison = s.poison ∧ (s.putNow x).latent = s.latent ∧
    (s.putNow x).ceAt = s.ceAt ∧ (s.putNow x).bur = s.bur ∧ (s.putNow x).sys = s.sys ∧ (s.putNow x).lsw = s.lsw ∧
    (s.putNow x).vlv = s.vlv ∧ (s.putNow x).lpe = s.lpe ∧ (s.putNow x).emmc = s.emmc ∧ (s.putNow x).aio = s.aio ∧
    (s.putNow x).map = s.map ∧ (s.putNow x).tbl = s.tbl ∧ (s.putNow x).can = s.can ∧ (s.putNow x).eth = s.eth ∧
    (s.putNow x).pace = s.pace ∧ (s.putNow x).cam = s.cam ∧ (s.putNow x).upd = s.upd ∧ (s.putNow x).svc = s.svc ∧
    (s.putNow x).cart = s.cart ∧ (s.putNow x).pnl = s.pnl ∧ (s.putNow x).tim = s.tim ∧ (s.putNow x).gns = s.gns ∧
    (s.putNow x).nv = s.nv ∧ (s.putNow x).pwr = s.pwr ∧ (s.putNow x).aon = s.aon ∧ (s.putNow x).saf = s.saf ∧
    (s.putNow x).stq = s.stq ∧ (s.putNow x).dmw = s.dmw ∧ (s.putNow x).pending = s.pending :=
  by simp only [State.putNow, and_self]

@[simp] theorem State.mailOf_putNow (s : State) (x : Nat) (b : Block) : (s.putNow x).mailOf b = s.mailOf b := rfl

@[simp] theorem State.rd_putNow (s : State) (x : Nat) (b : Block) (o : Nat) : (s.putNow x).rd b o = s.rd b o := rfl

/-- What `putFree` sets and leaves. -/
@[simp] theorem State.putFree_fields (s : State) (x : Nat) :
    (s.putFree x).regs = s.regs ∧ (s.putFree x).mem = s.mem ∧ (s.putFree x).resp = s.resp ∧
    (s.putFree x).clk = s.clk ∧ (s.putFree x).now = s.now ∧ (s.putFree x).free = x ∧ (s.putFree x).mail = s.mail ∧
    (s.putFree x).pgh = s.pgh ∧ (s.putFree x).fifo = s.fifo ∧ (s.putFree x).cpus = s.cpus ∧
    (s.putFree x).tlb = s.tlb ∧ (s.putFree x).psync = s.psync ∧ (s.putFree x).sbuf = s.sbuf ∧
    (s.putFree x).pickLast = s.pickLast ∧ (s.putFree x).ports = s.ports ∧ (s.putFree x).poison = s.poison ∧
    (s.putFree x).latent = s.latent ∧ (s.putFree x).ceAt = s.ceAt ∧ (s.putFree x).bur = s.bur ∧
    (s.putFree x).sys = s.sys ∧ (s.putFree x).lsw = s.lsw ∧ (s.putFree x).vlv = s.vlv ∧ (s.putFree x).lpe = s.lpe ∧
    (s.putFree x).emmc = s.emmc ∧ (s.putFree x).aio = s.aio ∧ (s.putFree x).map = s.map ∧ (s.putFree x).tbl = s.tbl ∧
    (s.putFree x).can = s.can ∧ (s.putFree x).eth = s.eth ∧ (s.putFree x).pace = s.pace ∧ (s.putFree x).cam = s.cam ∧
    (s.putFree x).upd = s.upd ∧ (s.putFree x).svc = s.svc ∧ (s.putFree x).cart = s.cart ∧ (s.putFree x).pnl = s.pnl ∧
    (s.putFree x).tim = s.tim ∧ (s.putFree x).gns = s.gns ∧ (s.putFree x).nv = s.nv ∧ (s.putFree x).pwr = s.pwr ∧
    (s.putFree x).aon = s.aon ∧ (s.putFree x).saf = s.saf ∧ (s.putFree x).stq = s.stq ∧ (s.putFree x).dmw = s.dmw ∧
    (s.putFree x).pending = s.pending :=
  by simp only [State.putFree, and_self]

@[simp] theorem State.mailOf_putFree (s : State) (x : Nat) (b : Block) : (s.putFree x).mailOf b = s.mailOf b := rfl

@[simp] theorem State.rd_putFree (s : State) (x : Nat) (b : Block) (o : Nat) : (s.putFree x).rd b o = s.rd b o := rfl

/-- What `putMail` sets and leaves. -/
@[simp] theorem State.putMail_fields (s : State) (x : SMap Mail) :
    (s.putMail x).regs = s.regs ∧ (s.putMail x).mem = s.mem ∧ (s.putMail x).resp = s.resp ∧
    (s.putMail x).clk = s.clk ∧ (s.putMail x).now = s.now ∧ (s.putMail x).free = s.free ∧ (s.putMail x).mail = x ∧
    (s.putMail x).pgh = s.pgh ∧ (s.putMail x).fifo = s.fifo ∧ (s.putMail x).cpus = s.cpus ∧
    (s.putMail x).tlb = s.tlb ∧ (s.putMail x).psync = s.psync ∧ (s.putMail x).sbuf = s.sbuf ∧
    (s.putMail x).pickLast = s.pickLast ∧ (s.putMail x).ports = s.ports ∧ (s.putMail x).poison = s.poison ∧
    (s.putMail x).latent = s.latent ∧ (s.putMail x).ceAt = s.ceAt ∧ (s.putMail x).bur = s.bur ∧
    (s.putMail x).sys = s.sys ∧ (s.putMail x).lsw = s.lsw ∧ (s.putMail x).vlv = s.vlv ∧ (s.putMail x).lpe = s.lpe ∧
    (s.putMail x).emmc = s.emmc ∧ (s.putMail x).aio = s.aio ∧ (s.putMail x).map = s.map ∧ (s.putMail x).tbl = s.tbl ∧
    (s.putMail x).can = s.can ∧ (s.putMail x).eth = s.eth ∧ (s.putMail x).pace = s.pace ∧ (s.putMail x).cam = s.cam ∧
    (s.putMail x).upd = s.upd ∧ (s.putMail x).svc = s.svc ∧ (s.putMail x).cart = s.cart ∧ (s.putMail x).pnl = s.pnl ∧
    (s.putMail x).tim = s.tim ∧ (s.putMail x).gns = s.gns ∧ (s.putMail x).nv = s.nv ∧ (s.putMail x).pwr = s.pwr ∧
    (s.putMail x).aon = s.aon ∧ (s.putMail x).saf = s.saf ∧ (s.putMail x).stq = s.stq ∧ (s.putMail x).dmw = s.dmw ∧
    (s.putMail x).pending = s.pending :=
  by simp only [State.putMail, and_self]

@[simp] theorem State.rd_putMail (s : State) (x : SMap Mail) (b : Block) (o : Nat) : (s.putMail x).rd b o = s.rd b o := rfl

/-- What `putPgh` sets and leaves. -/
@[simp] theorem State.putPgh_fields (s : State) (x : Pgh) :
    (s.putPgh x).regs = s.regs ∧ (s.putPgh x).mem = s.mem ∧ (s.putPgh x).resp = s.resp ∧ (s.putPgh x).clk = s.clk ∧
    (s.putPgh x).now = s.now ∧ (s.putPgh x).free = s.free ∧ (s.putPgh x).mail = s.mail ∧ (s.putPgh x).pgh = x ∧
    (s.putPgh x).fifo = s.fifo ∧ (s.putPgh x).cpus = s.cpus ∧ (s.putPgh x).tlb = s.tlb ∧
    (s.putPgh x).psync = s.psync ∧ (s.putPgh x).sbuf = s.sbuf ∧ (s.putPgh x).pickLast = s.pickLast ∧
    (s.putPgh x).ports = s.ports ∧ (s.putPgh x).poison = s.poison ∧ (s.putPgh x).latent = s.latent ∧
    (s.putPgh x).ceAt = s.ceAt ∧ (s.putPgh x).bur = s.bur ∧ (s.putPgh x).sys = s.sys ∧ (s.putPgh x).lsw = s.lsw ∧
    (s.putPgh x).vlv = s.vlv ∧ (s.putPgh x).lpe = s.lpe ∧ (s.putPgh x).emmc = s.emmc ∧ (s.putPgh x).aio = s.aio ∧
    (s.putPgh x).map = s.map ∧ (s.putPgh x).tbl = s.tbl ∧ (s.putPgh x).can = s.can ∧ (s.putPgh x).eth = s.eth ∧
    (s.putPgh x).pace = s.pace ∧ (s.putPgh x).cam = s.cam ∧ (s.putPgh x).upd = s.upd ∧ (s.putPgh x).svc = s.svc ∧
    (s.putPgh x).cart = s.cart ∧ (s.putPgh x).pnl = s.pnl ∧ (s.putPgh x).tim = s.tim ∧ (s.putPgh x).gns = s.gns ∧
    (s.putPgh x).nv = s.nv ∧ (s.putPgh x).pwr = s.pwr ∧ (s.putPgh x).aon = s.aon ∧ (s.putPgh x).saf = s.saf ∧
    (s.putPgh x).stq = s.stq ∧ (s.putPgh x).dmw = s.dmw ∧ (s.putPgh x).pending = s.pending :=
  by simp only [State.putPgh, and_self]

@[simp] theorem State.mailOf_putPgh (s : State) (x : Pgh) (b : Block) : (s.putPgh x).mailOf b = s.mailOf b := rfl

@[simp] theorem State.rd_putPgh (s : State) (x : Pgh) (b : Block) (o : Nat) : (s.putPgh x).rd b o = s.rd b o := rfl

/-- What `putFifo` sets and leaves. -/
@[simp] theorem State.putFifo_fields (s : State) (x : SMap (List Dword)) :
    (s.putFifo x).regs = s.regs ∧ (s.putFifo x).mem = s.mem ∧ (s.putFifo x).resp = s.resp ∧
    (s.putFifo x).clk = s.clk ∧ (s.putFifo x).now = s.now ∧ (s.putFifo x).free = s.free ∧
    (s.putFifo x).mail = s.mail ∧ (s.putFifo x).pgh = s.pgh ∧ (s.putFifo x).fifo = x ∧ (s.putFifo x).cpus = s.cpus ∧
    (s.putFifo x).tlb = s.tlb ∧ (s.putFifo x).psync = s.psync ∧ (s.putFifo x).sbuf = s.sbuf ∧
    (s.putFifo x).pickLast = s.pickLast ∧ (s.putFifo x).ports = s.ports ∧ (s.putFifo x).poison = s.poison ∧
    (s.putFifo x).latent = s.latent ∧ (s.putFifo x).ceAt = s.ceAt ∧ (s.putFifo x).bur = s.bur ∧
    (s.putFifo x).sys = s.sys ∧ (s.putFifo x).lsw = s.lsw ∧ (s.putFifo x).vlv = s.vlv ∧ (s.putFifo x).lpe = s.lpe ∧
    (s.putFifo x).emmc = s.emmc ∧ (s.putFifo x).aio = s.aio ∧ (s.putFifo x).map = s.map ∧ (s.putFifo x).tbl = s.tbl ∧
    (s.putFifo x).can = s.can ∧ (s.putFifo x).eth = s.eth ∧ (s.putFifo x).pace = s.pace ∧ (s.putFifo x).cam = s.cam ∧
    (s.putFifo x).upd = s.upd ∧ (s.putFifo x).svc = s.svc ∧ (s.putFifo x).cart = s.cart ∧ (s.putFifo x).pnl = s.pnl ∧
    (s.putFifo x).tim = s.tim ∧ (s.putFifo x).gns = s.gns ∧ (s.putFifo x).nv = s.nv ∧ (s.putFifo x).pwr = s.pwr ∧
    (s.putFifo x).aon = s.aon ∧ (s.putFifo x).saf = s.saf ∧ (s.putFifo x).stq = s.stq ∧ (s.putFifo x).dmw = s.dmw ∧
    (s.putFifo x).pending = s.pending :=
  by simp only [State.putFifo, and_self]

@[simp] theorem State.mailOf_putFifo (s : State) (x : SMap (List Dword)) (b : Block) : (s.putFifo x).mailOf b = s.mailOf b := rfl

@[simp] theorem State.rd_putFifo (s : State) (x : SMap (List Dword)) (b : Block) (o : Nat) : (s.putFifo x).rd b o = s.rd b o := rfl

/-- What `putCpus` sets and leaves. -/
@[simp] theorem State.putCpus_fields (s : State) (x : SMap Cpu) :
    (s.putCpus x).regs = s.regs ∧ (s.putCpus x).mem = s.mem ∧ (s.putCpus x).resp = s.resp ∧
    (s.putCpus x).clk = s.clk ∧ (s.putCpus x).now = s.now ∧ (s.putCpus x).free = s.free ∧
    (s.putCpus x).mail = s.mail ∧ (s.putCpus x).pgh = s.pgh ∧ (s.putCpus x).fifo = s.fifo ∧ (s.putCpus x).cpus = x ∧
    (s.putCpus x).tlb = s.tlb ∧ (s.putCpus x).psync = s.psync ∧ (s.putCpus x).sbuf = s.sbuf ∧
    (s.putCpus x).pickLast = s.pickLast ∧ (s.putCpus x).ports = s.ports ∧ (s.putCpus x).poison = s.poison ∧
    (s.putCpus x).latent = s.latent ∧ (s.putCpus x).ceAt = s.ceAt ∧ (s.putCpus x).bur = s.bur ∧
    (s.putCpus x).sys = s.sys ∧ (s.putCpus x).lsw = s.lsw ∧ (s.putCpus x).vlv = s.vlv ∧ (s.putCpus x).lpe = s.lpe ∧
    (s.putCpus x).emmc = s.emmc ∧ (s.putCpus x).aio = s.aio ∧ (s.putCpus x).map = s.map ∧ (s.putCpus x).tbl = s.tbl ∧
    (s.putCpus x).can = s.can ∧ (s.putCpus x).eth = s.eth ∧ (s.putCpus x).pace = s.pace ∧ (s.putCpus x).cam = s.cam ∧
    (s.putCpus x).upd = s.upd ∧ (s.putCpus x).svc = s.svc ∧ (s.putCpus x).cart = s.cart ∧ (s.putCpus x).pnl = s.pnl ∧
    (s.putCpus x).tim = s.tim ∧ (s.putCpus x).gns = s.gns ∧ (s.putCpus x).nv = s.nv ∧ (s.putCpus x).pwr = s.pwr ∧
    (s.putCpus x).aon = s.aon ∧ (s.putCpus x).saf = s.saf ∧ (s.putCpus x).stq = s.stq ∧ (s.putCpus x).dmw = s.dmw ∧
    (s.putCpus x).pending = s.pending :=
  by simp only [State.putCpus, and_self]

@[simp] theorem State.mailOf_putCpus (s : State) (x : SMap Cpu) (b : Block) : (s.putCpus x).mailOf b = s.mailOf b := rfl

@[simp] theorem State.rd_putCpus (s : State) (x : SMap Cpu) (b : Block) (o : Nat) : (s.putCpus x).rd b o = s.rd b o := rfl

/-- What `putTlb` sets and leaves. -/
@[simp] theorem State.putTlb_fields (s : State) (x : SMap (List Tlb)) :
    (s.putTlb x).regs = s.regs ∧ (s.putTlb x).mem = s.mem ∧ (s.putTlb x).resp = s.resp ∧ (s.putTlb x).clk = s.clk ∧
    (s.putTlb x).now = s.now ∧ (s.putTlb x).free = s.free ∧ (s.putTlb x).mail = s.mail ∧ (s.putTlb x).pgh = s.pgh ∧
    (s.putTlb x).fifo = s.fifo ∧ (s.putTlb x).cpus = s.cpus ∧ (s.putTlb x).tlb = x ∧ (s.putTlb x).psync = s.psync ∧
    (s.putTlb x).sbuf = s.sbuf ∧ (s.putTlb x).pickLast = s.pickLast ∧ (s.putTlb x).ports = s.ports ∧
    (s.putTlb x).poison = s.poison ∧ (s.putTlb x).latent = s.latent ∧ (s.putTlb x).ceAt = s.ceAt ∧
    (s.putTlb x).bur = s.bur ∧ (s.putTlb x).sys = s.sys ∧ (s.putTlb x).lsw = s.lsw ∧ (s.putTlb x).vlv = s.vlv ∧
    (s.putTlb x).lpe = s.lpe ∧ (s.putTlb x).emmc = s.emmc ∧ (s.putTlb x).aio = s.aio ∧ (s.putTlb x).map = s.map ∧
    (s.putTlb x).tbl = s.tbl ∧ (s.putTlb x).can = s.can ∧ (s.putTlb x).eth = s.eth ∧ (s.putTlb x).pace = s.pace ∧
    (s.putTlb x).cam = s.cam ∧ (s.putTlb x).upd = s.upd ∧ (s.putTlb x).svc = s.svc ∧ (s.putTlb x).cart = s.cart ∧
    (s.putTlb x).pnl = s.pnl ∧ (s.putTlb x).tim = s.tim ∧ (s.putTlb x).gns = s.gns ∧ (s.putTlb x).nv = s.nv ∧
    (s.putTlb x).pwr = s.pwr ∧ (s.putTlb x).aon = s.aon ∧ (s.putTlb x).saf = s.saf ∧ (s.putTlb x).stq = s.stq ∧
    (s.putTlb x).dmw = s.dmw ∧ (s.putTlb x).pending = s.pending :=
  by simp only [State.putTlb, and_self]

@[simp] theorem State.mailOf_putTlb (s : State) (x : SMap (List Tlb)) (b : Block) : (s.putTlb x).mailOf b = s.mailOf b := rfl

@[simp] theorem State.rd_putTlb (s : State) (x : SMap (List Tlb)) (b : Block) (o : Nat) : (s.putTlb x).rd b o = s.rd b o := rfl

/-- What `putPsync` sets and leaves. -/
@[simp] theorem State.putPsync_fields (s : State) (x : SMap (List PtSync)) :
    (s.putPsync x).regs = s.regs ∧ (s.putPsync x).mem = s.mem ∧ (s.putPsync x).resp = s.resp ∧
    (s.putPsync x).clk = s.clk ∧ (s.putPsync x).now = s.now ∧ (s.putPsync x).free = s.free ∧
    (s.putPsync x).mail = s.mail ∧ (s.putPsync x).pgh = s.pgh ∧ (s.putPsync x).fifo = s.fifo ∧
    (s.putPsync x).cpus = s.cpus ∧ (s.putPsync x).tlb = s.tlb ∧ (s.putPsync x).psync = x ∧
    (s.putPsync x).sbuf = s.sbuf ∧ (s.putPsync x).pickLast = s.pickLast ∧ (s.putPsync x).ports = s.ports ∧
    (s.putPsync x).poison = s.poison ∧ (s.putPsync x).latent = s.latent ∧ (s.putPsync x).ceAt = s.ceAt ∧
    (s.putPsync x).bur = s.bur ∧ (s.putPsync x).sys = s.sys ∧ (s.putPsync x).lsw = s.lsw ∧
    (s.putPsync x).vlv = s.vlv ∧ (s.putPsync x).lpe = s.lpe ∧ (s.putPsync x).emmc = s.emmc ∧
    (s.putPsync x).aio = s.aio ∧ (s.putPsync x).map = s.map ∧ (s.putPsync x).tbl = s.tbl ∧
    (s.putPsync x).can = s.can ∧ (s.putPsync x).eth = s.eth ∧ (s.putPsync x).pace = s.pace ∧
    (s.putPsync x).cam = s.cam ∧ (s.putPsync x).upd = s.upd ∧ (s.putPsync x).svc = s.svc ∧
    (s.putPsync x).cart = s.cart ∧ (s.putPsync x).pnl = s.pnl ∧ (s.putPsync x).tim = s.tim ∧
    (s.putPsync x).gns = s.gns ∧ (s.putPsync x).nv = s.nv ∧ (s.putPsync x).pwr = s.pwr ∧ (s.putPsync x).aon = s.aon ∧
    (s.putPsync x).saf = s.saf ∧ (s.putPsync x).stq = s.stq ∧ (s.putPsync x).dmw = s.dmw ∧
    (s.putPsync x).pending = s.pending :=
  by simp only [State.putPsync, and_self]

@[simp] theorem State.mailOf_putPsync (s : State) (x : SMap (List PtSync)) (b : Block) : (s.putPsync x).mailOf b = s.mailOf b := rfl

@[simp] theorem State.rd_putPsync (s : State) (x : SMap (List PtSync)) (b : Block) (o : Nat) : (s.putPsync x).rd b o = s.rd b o := rfl

/-- What `putSbuf` sets and leaves. -/
@[simp] theorem State.putSbuf_fields (s : State) (x : SMap (List (Nat × List Byte))) :
    (s.putSbuf x).regs = s.regs ∧ (s.putSbuf x).mem = s.mem ∧ (s.putSbuf x).resp = s.resp ∧
    (s.putSbuf x).clk = s.clk ∧ (s.putSbuf x).now = s.now ∧ (s.putSbuf x).free = s.free ∧
    (s.putSbuf x).mail = s.mail ∧ (s.putSbuf x).pgh = s.pgh ∧ (s.putSbuf x).fifo = s.fifo ∧
    (s.putSbuf x).cpus = s.cpus ∧ (s.putSbuf x).tlb = s.tlb ∧ (s.putSbuf x).psync = s.psync ∧
    (s.putSbuf x).sbuf = x ∧ (s.putSbuf x).pickLast = s.pickLast ∧ (s.putSbuf x).ports = s.ports ∧
    (s.putSbuf x).poison = s.poison ∧ (s.putSbuf x).latent = s.latent ∧ (s.putSbuf x).ceAt = s.ceAt ∧
    (s.putSbuf x).bur = s.bur ∧ (s.putSbuf x).sys = s.sys ∧ (s.putSbuf x).lsw = s.lsw ∧ (s.putSbuf x).vlv = s.vlv ∧
    (s.putSbuf x).lpe = s.lpe ∧ (s.putSbuf x).emmc = s.emmc ∧ (s.putSbuf x).aio = s.aio ∧ (s.putSbuf x).map = s.map ∧
    (s.putSbuf x).tbl = s.tbl ∧ (s.putSbuf x).can = s.can ∧ (s.putSbuf x).eth = s.eth ∧ (s.putSbuf x).pace = s.pace ∧
    (s.putSbuf x).cam = s.cam ∧ (s.putSbuf x).upd = s.upd ∧ (s.putSbuf x).svc = s.svc ∧ (s.putSbuf x).cart = s.cart ∧
    (s.putSbuf x).pnl = s.pnl ∧ (s.putSbuf x).tim = s.tim ∧ (s.putSbuf x).gns = s.gns ∧ (s.putSbuf x).nv = s.nv ∧
    (s.putSbuf x).pwr = s.pwr ∧ (s.putSbuf x).aon = s.aon ∧ (s.putSbuf x).saf = s.saf ∧ (s.putSbuf x).stq = s.stq ∧
    (s.putSbuf x).dmw = s.dmw ∧ (s.putSbuf x).pending = s.pending :=
  by simp only [State.putSbuf, and_self]

@[simp] theorem State.mailOf_putSbuf (s : State) (x : SMap (List (Nat × List Byte))) (b : Block) : (s.putSbuf x).mailOf b = s.mailOf b := rfl

@[simp] theorem State.rd_putSbuf (s : State) (x : SMap (List (Nat × List Byte))) (b : Block) (o : Nat) : (s.putSbuf x).rd b o = s.rd b o := rfl

/-- What `putPickLast` sets and leaves. -/
@[simp] theorem State.putPickLast_fields (s : State) (x : SMap Nat) :
    (s.putPickLast x).regs = s.regs ∧ (s.putPickLast x).mem = s.mem ∧ (s.putPickLast x).resp = s.resp ∧
    (s.putPickLast x).clk = s.clk ∧ (s.putPickLast x).now = s.now ∧ (s.putPickLast x).free = s.free ∧
    (s.putPickLast x).mail = s.mail ∧ (s.putPickLast x).pgh = s.pgh ∧ (s.putPickLast x).fifo = s.fifo ∧
    (s.putPickLast x).cpus = s.cpus ∧ (s.putPickLast x).tlb = s.tlb ∧ (s.putPickLast x).psync = s.psync ∧
    (s.putPickLast x).sbuf = s.sbuf ∧ (s.putPickLast x).pickLast = x ∧ (s.putPickLast x).ports = s.ports ∧
    (s.putPickLast x).poison = s.poison ∧ (s.putPickLast x).latent = s.latent ∧ (s.putPickLast x).ceAt = s.ceAt ∧
    (s.putPickLast x).bur = s.bur ∧ (s.putPickLast x).sys = s.sys ∧ (s.putPickLast x).lsw = s.lsw ∧
    (s.putPickLast x).vlv = s.vlv ∧ (s.putPickLast x).lpe = s.lpe ∧ (s.putPickLast x).emmc = s.emmc ∧
    (s.putPickLast x).aio = s.aio ∧ (s.putPickLast x).map = s.map ∧ (s.putPickLast x).tbl = s.tbl ∧
    (s.putPickLast x).can = s.can ∧ (s.putPickLast x).eth = s.eth ∧ (s.putPickLast x).pace = s.pace ∧
    (s.putPickLast x).cam = s.cam ∧ (s.putPickLast x).upd = s.upd ∧ (s.putPickLast x).svc = s.svc ∧
    (s.putPickLast x).cart = s.cart ∧ (s.putPickLast x).pnl = s.pnl ∧ (s.putPickLast x).tim = s.tim ∧
    (s.putPickLast x).gns = s.gns ∧ (s.putPickLast x).nv = s.nv ∧ (s.putPickLast x).pwr = s.pwr ∧
    (s.putPickLast x).aon = s.aon ∧ (s.putPickLast x).saf = s.saf ∧ (s.putPickLast x).stq = s.stq ∧
    (s.putPickLast x).dmw = s.dmw ∧ (s.putPickLast x).pending = s.pending :=
  by simp only [State.putPickLast, and_self]

@[simp] theorem State.mailOf_putPickLast (s : State) (x : SMap Nat) (b : Block) : (s.putPickLast x).mailOf b = s.mailOf b := rfl

@[simp] theorem State.rd_putPickLast (s : State) (x : SMap Nat) (b : Block) (o : Nat) : (s.putPickLast x).rd b o = s.rd b o := rfl

/-- What `putPorts` sets and leaves. -/
@[simp] theorem State.putPorts_fields (s : State) (x : SMap (Option Dword)) :
    (s.putPorts x).regs = s.regs ∧ (s.putPorts x).mem = s.mem ∧ (s.putPorts x).resp = s.resp ∧
    (s.putPorts x).clk = s.clk ∧ (s.putPorts x).now = s.now ∧ (s.putPorts x).free = s.free ∧
    (s.putPorts x).mail = s.mail ∧ (s.putPorts x).pgh = s.pgh ∧ (s.putPorts x).fifo = s.fifo ∧
    (s.putPorts x).cpus = s.cpus ∧ (s.putPorts x).tlb = s.tlb ∧ (s.putPorts x).psync = s.psync ∧
    (s.putPorts x).sbuf = s.sbuf ∧ (s.putPorts x).pickLast = s.pickLast ∧ (s.putPorts x).ports = x ∧
    (s.putPorts x).poison = s.poison ∧ (s.putPorts x).latent = s.latent ∧ (s.putPorts x).ceAt = s.ceAt ∧
    (s.putPorts x).bur = s.bur ∧ (s.putPorts x).sys = s.sys ∧ (s.putPorts x).lsw = s.lsw ∧
    (s.putPorts x).vlv = s.vlv ∧ (s.putPorts x).lpe = s.lpe ∧ (s.putPorts x).emmc = s.emmc ∧
    (s.putPorts x).aio = s.aio ∧ (s.putPorts x).map = s.map ∧ (s.putPorts x).tbl = s.tbl ∧
    (s.putPorts x).can = s.can ∧ (s.putPorts x).eth = s.eth ∧ (s.putPorts x).pace = s.pace ∧
    (s.putPorts x).cam = s.cam ∧ (s.putPorts x).upd = s.upd ∧ (s.putPorts x).svc = s.svc ∧
    (s.putPorts x).cart = s.cart ∧ (s.putPorts x).pnl = s.pnl ∧ (s.putPorts x).tim = s.tim ∧
    (s.putPorts x).gns = s.gns ∧ (s.putPorts x).nv = s.nv ∧ (s.putPorts x).pwr = s.pwr ∧ (s.putPorts x).aon = s.aon ∧
    (s.putPorts x).saf = s.saf ∧ (s.putPorts x).stq = s.stq ∧ (s.putPorts x).dmw = s.dmw ∧
    (s.putPorts x).pending = s.pending :=
  by simp only [State.putPorts, and_self]

@[simp] theorem State.mailOf_putPorts (s : State) (x : SMap (Option Dword)) (b : Block) : (s.putPorts x).mailOf b = s.mailOf b := rfl

@[simp] theorem State.rd_putPorts (s : State) (x : SMap (Option Dword)) (b : Block) (o : Nat) : (s.putPorts x).rd b o = s.rd b o := rfl

/-- What `putPoison` sets and leaves. -/
@[simp] theorem State.putPoison_fields (s : State) (x : SMap Bool) :
    (s.putPoison x).regs = s.regs ∧ (s.putPoison x).mem = s.mem ∧ (s.putPoison x).resp = s.resp ∧
    (s.putPoison x).clk = s.clk ∧ (s.putPoison x).now = s.now ∧ (s.putPoison x).free = s.free ∧
    (s.putPoison x).mail = s.mail ∧ (s.putPoison x).pgh = s.pgh ∧ (s.putPoison x).fifo = s.fifo ∧
    (s.putPoison x).cpus = s.cpus ∧ (s.putPoison x).tlb = s.tlb ∧ (s.putPoison x).psync = s.psync ∧
    (s.putPoison x).sbuf = s.sbuf ∧ (s.putPoison x).pickLast = s.pickLast ∧ (s.putPoison x).ports = s.ports ∧
    (s.putPoison x).poison = x ∧ (s.putPoison x).latent = s.latent ∧ (s.putPoison x).ceAt = s.ceAt ∧
    (s.putPoison x).bur = s.bur ∧ (s.putPoison x).sys = s.sys ∧ (s.putPoison x).lsw = s.lsw ∧
    (s.putPoison x).vlv = s.vlv ∧ (s.putPoison x).lpe = s.lpe ∧ (s.putPoison x).emmc = s.emmc ∧
    (s.putPoison x).aio = s.aio ∧ (s.putPoison x).map = s.map ∧ (s.putPoison x).tbl = s.tbl ∧
    (s.putPoison x).can = s.can ∧ (s.putPoison x).eth = s.eth ∧ (s.putPoison x).pace = s.pace ∧
    (s.putPoison x).cam = s.cam ∧ (s.putPoison x).upd = s.upd ∧ (s.putPoison x).svc = s.svc ∧
    (s.putPoison x).cart = s.cart ∧ (s.putPoison x).pnl = s.pnl ∧ (s.putPoison x).tim = s.tim ∧
    (s.putPoison x).gns = s.gns ∧ (s.putPoison x).nv = s.nv ∧ (s.putPoison x).pwr = s.pwr ∧
    (s.putPoison x).aon = s.aon ∧ (s.putPoison x).saf = s.saf ∧ (s.putPoison x).stq = s.stq ∧
    (s.putPoison x).dmw = s.dmw ∧ (s.putPoison x).pending = s.pending :=
  by simp only [State.putPoison, and_self]

@[simp] theorem State.mailOf_putPoison (s : State) (x : SMap Bool) (b : Block) : (s.putPoison x).mailOf b = s.mailOf b := rfl

@[simp] theorem State.rd_putPoison (s : State) (x : SMap Bool) (b : Block) (o : Nat) : (s.putPoison x).rd b o = s.rd b o := rfl

/-- What `putLatent` sets and leaves. -/
@[simp] theorem State.putLatent_fields (s : State) (x : SMap Nat) :
    (s.putLatent x).regs = s.regs ∧ (s.putLatent x).mem = s.mem ∧ (s.putLatent x).resp = s.resp ∧
    (s.putLatent x).clk = s.clk ∧ (s.putLatent x).now = s.now ∧ (s.putLatent x).free = s.free ∧
    (s.putLatent x).mail = s.mail ∧ (s.putLatent x).pgh = s.pgh ∧ (s.putLatent x).fifo = s.fifo ∧
    (s.putLatent x).cpus = s.cpus ∧ (s.putLatent x).tlb = s.tlb ∧ (s.putLatent x).psync = s.psync ∧
    (s.putLatent x).sbuf = s.sbuf ∧ (s.putLatent x).pickLast = s.pickLast ∧ (s.putLatent x).ports = s.ports ∧
    (s.putLatent x).poison = s.poison ∧ (s.putLatent x).latent = x ∧ (s.putLatent x).ceAt = s.ceAt ∧
    (s.putLatent x).bur = s.bur ∧ (s.putLatent x).sys = s.sys ∧ (s.putLatent x).lsw = s.lsw ∧
    (s.putLatent x).vlv = s.vlv ∧ (s.putLatent x).lpe = s.lpe ∧ (s.putLatent x).emmc = s.emmc ∧
    (s.putLatent x).aio = s.aio ∧ (s.putLatent x).map = s.map ∧ (s.putLatent x).tbl = s.tbl ∧
    (s.putLatent x).can = s.can ∧ (s.putLatent x).eth = s.eth ∧ (s.putLatent x).pace = s.pace ∧
    (s.putLatent x).cam = s.cam ∧ (s.putLatent x).upd = s.upd ∧ (s.putLatent x).svc = s.svc ∧
    (s.putLatent x).cart = s.cart ∧ (s.putLatent x).pnl = s.pnl ∧ (s.putLatent x).tim = s.tim ∧
    (s.putLatent x).gns = s.gns ∧ (s.putLatent x).nv = s.nv ∧ (s.putLatent x).pwr = s.pwr ∧
    (s.putLatent x).aon = s.aon ∧ (s.putLatent x).saf = s.saf ∧ (s.putLatent x).stq = s.stq ∧
    (s.putLatent x).dmw = s.dmw ∧ (s.putLatent x).pending = s.pending :=
  by simp only [State.putLatent, and_self]

@[simp] theorem State.mailOf_putLatent (s : State) (x : SMap Nat) (b : Block) : (s.putLatent x).mailOf b = s.mailOf b := rfl

@[simp] theorem State.rd_putLatent (s : State) (x : SMap Nat) (b : Block) (o : Nat) : (s.putLatent x).rd b o = s.rd b o := rfl

/-- What `putCeAt` sets and leaves. -/
@[simp] theorem State.putCeAt_fields (s : State) (x : Option Nat) :
    (s.putCeAt x).regs = s.regs ∧ (s.putCeAt x).mem = s.mem ∧ (s.putCeAt x).resp = s.resp ∧
    (s.putCeAt x).clk = s.clk ∧ (s.putCeAt x).now = s.now ∧ (s.putCeAt x).free = s.free ∧
    (s.putCeAt x).mail = s.mail ∧ (s.putCeAt x).pgh = s.pgh ∧ (s.putCeAt x).fifo = s.fifo ∧
    (s.putCeAt x).cpus = s.cpus ∧ (s.putCeAt x).tlb = s.tlb ∧ (s.putCeAt x).psync = s.psync ∧
    (s.putCeAt x).sbuf = s.sbuf ∧ (s.putCeAt x).pickLast = s.pickLast ∧ (s.putCeAt x).ports = s.ports ∧
    (s.putCeAt x).poison = s.poison ∧ (s.putCeAt x).latent = s.latent ∧ (s.putCeAt x).ceAt = x ∧
    (s.putCeAt x).bur = s.bur ∧ (s.putCeAt x).sys = s.sys ∧ (s.putCeAt x).lsw = s.lsw ∧ (s.putCeAt x).vlv = s.vlv ∧
    (s.putCeAt x).lpe = s.lpe ∧ (s.putCeAt x).emmc = s.emmc ∧ (s.putCeAt x).aio = s.aio ∧ (s.putCeAt x).map = s.map ∧
    (s.putCeAt x).tbl = s.tbl ∧ (s.putCeAt x).can = s.can ∧ (s.putCeAt x).eth = s.eth ∧ (s.putCeAt x).pace = s.pace ∧
    (s.putCeAt x).cam = s.cam ∧ (s.putCeAt x).upd = s.upd ∧ (s.putCeAt x).svc = s.svc ∧ (s.putCeAt x).cart = s.cart ∧
    (s.putCeAt x).pnl = s.pnl ∧ (s.putCeAt x).tim = s.tim ∧ (s.putCeAt x).gns = s.gns ∧ (s.putCeAt x).nv = s.nv ∧
    (s.putCeAt x).pwr = s.pwr ∧ (s.putCeAt x).aon = s.aon ∧ (s.putCeAt x).saf = s.saf ∧ (s.putCeAt x).stq = s.stq ∧
    (s.putCeAt x).dmw = s.dmw ∧ (s.putCeAt x).pending = s.pending :=
  by simp only [State.putCeAt, and_self]

@[simp] theorem State.mailOf_putCeAt (s : State) (x : Option Nat) (b : Block) : (s.putCeAt x).mailOf b = s.mailOf b := rfl

@[simp] theorem State.rd_putCeAt (s : State) (x : Option Nat) (b : Block) (o : Nat) : (s.putCeAt x).rd b o = s.rd b o := rfl

/-- What `putBur` sets and leaves. -/
@[simp] theorem State.putBur_fields (s : State) (x : Bur) :
    (s.putBur x).regs = s.regs ∧ (s.putBur x).mem = s.mem ∧ (s.putBur x).resp = s.resp ∧ (s.putBur x).clk = s.clk ∧
    (s.putBur x).now = s.now ∧ (s.putBur x).free = s.free ∧ (s.putBur x).mail = s.mail ∧ (s.putBur x).pgh = s.pgh ∧
    (s.putBur x).fifo = s.fifo ∧ (s.putBur x).cpus = s.cpus ∧ (s.putBur x).tlb = s.tlb ∧
    (s.putBur x).psync = s.psync ∧ (s.putBur x).sbuf = s.sbuf ∧ (s.putBur x).pickLast = s.pickLast ∧
    (s.putBur x).ports = s.ports ∧ (s.putBur x).poison = s.poison ∧ (s.putBur x).latent = s.latent ∧
    (s.putBur x).ceAt = s.ceAt ∧ (s.putBur x).bur = x ∧ (s.putBur x).sys = s.sys ∧ (s.putBur x).lsw = s.lsw ∧
    (s.putBur x).vlv = s.vlv ∧ (s.putBur x).lpe = s.lpe ∧ (s.putBur x).emmc = s.emmc ∧ (s.putBur x).aio = s.aio ∧
    (s.putBur x).map = s.map ∧ (s.putBur x).tbl = s.tbl ∧ (s.putBur x).can = s.can ∧ (s.putBur x).eth = s.eth ∧
    (s.putBur x).pace = s.pace ∧ (s.putBur x).cam = s.cam ∧ (s.putBur x).upd = s.upd ∧ (s.putBur x).svc = s.svc ∧
    (s.putBur x).cart = s.cart ∧ (s.putBur x).pnl = s.pnl ∧ (s.putBur x).tim = s.tim ∧ (s.putBur x).gns = s.gns ∧
    (s.putBur x).nv = s.nv ∧ (s.putBur x).pwr = s.pwr ∧ (s.putBur x).aon = s.aon ∧ (s.putBur x).saf = s.saf ∧
    (s.putBur x).stq = s.stq ∧ (s.putBur x).dmw = s.dmw ∧ (s.putBur x).pending = s.pending :=
  by simp only [State.putBur, and_self]

@[simp] theorem State.mailOf_putBur (s : State) (x : Bur) (b : Block) : (s.putBur x).mailOf b = s.mailOf b := rfl

@[simp] theorem State.rd_putBur (s : State) (x : Bur) (b : Block) (o : Nat) : (s.putBur x).rd b o = s.rd b o := rfl

/-- What `putSys` sets and leaves. -/
@[simp] theorem State.putSys_fields (s : State) (x : SysSt) :
    (s.putSys x).regs = s.regs ∧ (s.putSys x).mem = s.mem ∧ (s.putSys x).resp = s.resp ∧ (s.putSys x).clk = s.clk ∧
    (s.putSys x).now = s.now ∧ (s.putSys x).free = s.free ∧ (s.putSys x).mail = s.mail ∧ (s.putSys x).pgh = s.pgh ∧
    (s.putSys x).fifo = s.fifo ∧ (s.putSys x).cpus = s.cpus ∧ (s.putSys x).tlb = s.tlb ∧
    (s.putSys x).psync = s.psync ∧ (s.putSys x).sbuf = s.sbuf ∧ (s.putSys x).pickLast = s.pickLast ∧
    (s.putSys x).ports = s.ports ∧ (s.putSys x).poison = s.poison ∧ (s.putSys x).latent = s.latent ∧
    (s.putSys x).ceAt = s.ceAt ∧ (s.putSys x).bur = s.bur ∧ (s.putSys x).sys = x ∧ (s.putSys x).lsw = s.lsw ∧
    (s.putSys x).vlv = s.vlv ∧ (s.putSys x).lpe = s.lpe ∧ (s.putSys x).emmc = s.emmc ∧ (s.putSys x).aio = s.aio ∧
    (s.putSys x).map = s.map ∧ (s.putSys x).tbl = s.tbl ∧ (s.putSys x).can = s.can ∧ (s.putSys x).eth = s.eth ∧
    (s.putSys x).pace = s.pace ∧ (s.putSys x).cam = s.cam ∧ (s.putSys x).upd = s.upd ∧ (s.putSys x).svc = s.svc ∧
    (s.putSys x).cart = s.cart ∧ (s.putSys x).pnl = s.pnl ∧ (s.putSys x).tim = s.tim ∧ (s.putSys x).gns = s.gns ∧
    (s.putSys x).nv = s.nv ∧ (s.putSys x).pwr = s.pwr ∧ (s.putSys x).aon = s.aon ∧ (s.putSys x).saf = s.saf ∧
    (s.putSys x).stq = s.stq ∧ (s.putSys x).dmw = s.dmw ∧ (s.putSys x).pending = s.pending :=
  by simp only [State.putSys, and_self]

@[simp] theorem State.mailOf_putSys (s : State) (x : SysSt) (b : Block) : (s.putSys x).mailOf b = s.mailOf b := rfl

@[simp] theorem State.rd_putSys (s : State) (x : SysSt) (b : Block) (o : Nat) : (s.putSys x).rd b o = s.rd b o := rfl

/-- What `putLsw` sets and leaves. -/
@[simp] theorem State.putLsw_fields (s : State) (x : Lsw) :
    (s.putLsw x).regs = s.regs ∧ (s.putLsw x).mem = s.mem ∧ (s.putLsw x).resp = s.resp ∧ (s.putLsw x).clk = s.clk ∧
    (s.putLsw x).now = s.now ∧ (s.putLsw x).free = s.free ∧ (s.putLsw x).mail = s.mail ∧ (s.putLsw x).pgh = s.pgh ∧
    (s.putLsw x).fifo = s.fifo ∧ (s.putLsw x).cpus = s.cpus ∧ (s.putLsw x).tlb = s.tlb ∧
    (s.putLsw x).psync = s.psync ∧ (s.putLsw x).sbuf = s.sbuf ∧ (s.putLsw x).pickLast = s.pickLast ∧
    (s.putLsw x).ports = s.ports ∧ (s.putLsw x).poison = s.poison ∧ (s.putLsw x).latent = s.latent ∧
    (s.putLsw x).ceAt = s.ceAt ∧ (s.putLsw x).bur = s.bur ∧ (s.putLsw x).sys = s.sys ∧ (s.putLsw x).lsw = x ∧
    (s.putLsw x).vlv = s.vlv ∧ (s.putLsw x).lpe = s.lpe ∧ (s.putLsw x).emmc = s.emmc ∧ (s.putLsw x).aio = s.aio ∧
    (s.putLsw x).map = s.map ∧ (s.putLsw x).tbl = s.tbl ∧ (s.putLsw x).can = s.can ∧ (s.putLsw x).eth = s.eth ∧
    (s.putLsw x).pace = s.pace ∧ (s.putLsw x).cam = s.cam ∧ (s.putLsw x).upd = s.upd ∧ (s.putLsw x).svc = s.svc ∧
    (s.putLsw x).cart = s.cart ∧ (s.putLsw x).pnl = s.pnl ∧ (s.putLsw x).tim = s.tim ∧ (s.putLsw x).gns = s.gns ∧
    (s.putLsw x).nv = s.nv ∧ (s.putLsw x).pwr = s.pwr ∧ (s.putLsw x).aon = s.aon ∧ (s.putLsw x).saf = s.saf ∧
    (s.putLsw x).stq = s.stq ∧ (s.putLsw x).dmw = s.dmw ∧ (s.putLsw x).pending = s.pending :=
  by simp only [State.putLsw, and_self]

@[simp] theorem State.mailOf_putLsw (s : State) (x : Lsw) (b : Block) : (s.putLsw x).mailOf b = s.mailOf b := rfl

@[simp] theorem State.rd_putLsw (s : State) (x : Lsw) (b : Block) (o : Nat) : (s.putLsw x).rd b o = s.rd b o := rfl

/-- What `putVlv` sets and leaves. -/
@[simp] theorem State.putVlv_fields (s : State) (x : Vlv) :
    (s.putVlv x).regs = s.regs ∧ (s.putVlv x).mem = s.mem ∧ (s.putVlv x).resp = s.resp ∧ (s.putVlv x).clk = s.clk ∧
    (s.putVlv x).now = s.now ∧ (s.putVlv x).free = s.free ∧ (s.putVlv x).mail = s.mail ∧ (s.putVlv x).pgh = s.pgh ∧
    (s.putVlv x).fifo = s.fifo ∧ (s.putVlv x).cpus = s.cpus ∧ (s.putVlv x).tlb = s.tlb ∧
    (s.putVlv x).psync = s.psync ∧ (s.putVlv x).sbuf = s.sbuf ∧ (s.putVlv x).pickLast = s.pickLast ∧
    (s.putVlv x).ports = s.ports ∧ (s.putVlv x).poison = s.poison ∧ (s.putVlv x).latent = s.latent ∧
    (s.putVlv x).ceAt = s.ceAt ∧ (s.putVlv x).bur = s.bur ∧ (s.putVlv x).sys = s.sys ∧ (s.putVlv x).lsw = s.lsw ∧
    (s.putVlv x).vlv = x ∧ (s.putVlv x).lpe = s.lpe ∧ (s.putVlv x).emmc = s.emmc ∧ (s.putVlv x).aio = s.aio ∧
    (s.putVlv x).map = s.map ∧ (s.putVlv x).tbl = s.tbl ∧ (s.putVlv x).can = s.can ∧ (s.putVlv x).eth = s.eth ∧
    (s.putVlv x).pace = s.pace ∧ (s.putVlv x).cam = s.cam ∧ (s.putVlv x).upd = s.upd ∧ (s.putVlv x).svc = s.svc ∧
    (s.putVlv x).cart = s.cart ∧ (s.putVlv x).pnl = s.pnl ∧ (s.putVlv x).tim = s.tim ∧ (s.putVlv x).gns = s.gns ∧
    (s.putVlv x).nv = s.nv ∧ (s.putVlv x).pwr = s.pwr ∧ (s.putVlv x).aon = s.aon ∧ (s.putVlv x).saf = s.saf ∧
    (s.putVlv x).stq = s.stq ∧ (s.putVlv x).dmw = s.dmw ∧ (s.putVlv x).pending = s.pending :=
  by simp only [State.putVlv, and_self]

@[simp] theorem State.mailOf_putVlv (s : State) (x : Vlv) (b : Block) : (s.putVlv x).mailOf b = s.mailOf b := rfl

@[simp] theorem State.rd_putVlv (s : State) (x : Vlv) (b : Block) (o : Nat) : (s.putVlv x).rd b o = s.rd b o := rfl

/-- What `putLpe` sets and leaves. -/
@[simp] theorem State.putLpe_fields (s : State) (x : Lpe) :
    (s.putLpe x).regs = s.regs ∧ (s.putLpe x).mem = s.mem ∧ (s.putLpe x).resp = s.resp ∧ (s.putLpe x).clk = s.clk ∧
    (s.putLpe x).now = s.now ∧ (s.putLpe x).free = s.free ∧ (s.putLpe x).mail = s.mail ∧ (s.putLpe x).pgh = s.pgh ∧
    (s.putLpe x).fifo = s.fifo ∧ (s.putLpe x).cpus = s.cpus ∧ (s.putLpe x).tlb = s.tlb ∧
    (s.putLpe x).psync = s.psync ∧ (s.putLpe x).sbuf = s.sbuf ∧ (s.putLpe x).pickLast = s.pickLast ∧
    (s.putLpe x).ports = s.ports ∧ (s.putLpe x).poison = s.poison ∧ (s.putLpe x).latent = s.latent ∧
    (s.putLpe x).ceAt = s.ceAt ∧ (s.putLpe x).bur = s.bur ∧ (s.putLpe x).sys = s.sys ∧ (s.putLpe x).lsw = s.lsw ∧
    (s.putLpe x).vlv = s.vlv ∧ (s.putLpe x).lpe = x ∧ (s.putLpe x).emmc = s.emmc ∧ (s.putLpe x).aio = s.aio ∧
    (s.putLpe x).map = s.map ∧ (s.putLpe x).tbl = s.tbl ∧ (s.putLpe x).can = s.can ∧ (s.putLpe x).eth = s.eth ∧
    (s.putLpe x).pace = s.pace ∧ (s.putLpe x).cam = s.cam ∧ (s.putLpe x).upd = s.upd ∧ (s.putLpe x).svc = s.svc ∧
    (s.putLpe x).cart = s.cart ∧ (s.putLpe x).pnl = s.pnl ∧ (s.putLpe x).tim = s.tim ∧ (s.putLpe x).gns = s.gns ∧
    (s.putLpe x).nv = s.nv ∧ (s.putLpe x).pwr = s.pwr ∧ (s.putLpe x).aon = s.aon ∧ (s.putLpe x).saf = s.saf ∧
    (s.putLpe x).stq = s.stq ∧ (s.putLpe x).dmw = s.dmw ∧ (s.putLpe x).pending = s.pending :=
  by simp only [State.putLpe, and_self]

@[simp] theorem State.mailOf_putLpe (s : State) (x : Lpe) (b : Block) : (s.putLpe x).mailOf b = s.mailOf b := rfl

@[simp] theorem State.rd_putLpe (s : State) (x : Lpe) (b : Block) (o : Nat) : (s.putLpe x).rd b o = s.rd b o := rfl

/-- What `putEmmc` sets and leaves. -/
@[simp] theorem State.putEmmc_fields (s : State) (x : SMap Byte) :
    (s.putEmmc x).regs = s.regs ∧ (s.putEmmc x).mem = s.mem ∧ (s.putEmmc x).resp = s.resp ∧
    (s.putEmmc x).clk = s.clk ∧ (s.putEmmc x).now = s.now ∧ (s.putEmmc x).free = s.free ∧
    (s.putEmmc x).mail = s.mail ∧ (s.putEmmc x).pgh = s.pgh ∧ (s.putEmmc x).fifo = s.fifo ∧
    (s.putEmmc x).cpus = s.cpus ∧ (s.putEmmc x).tlb = s.tlb ∧ (s.putEmmc x).psync = s.psync ∧
    (s.putEmmc x).sbuf = s.sbuf ∧ (s.putEmmc x).pickLast = s.pickLast ∧ (s.putEmmc x).ports = s.ports ∧
    (s.putEmmc x).poison = s.poison ∧ (s.putEmmc x).latent = s.latent ∧ (s.putEmmc x).ceAt = s.ceAt ∧
    (s.putEmmc x).bur = s.bur ∧ (s.putEmmc x).sys = s.sys ∧ (s.putEmmc x).lsw = s.lsw ∧ (s.putEmmc x).vlv = s.vlv ∧
    (s.putEmmc x).lpe = s.lpe ∧ (s.putEmmc x).emmc = x ∧ (s.putEmmc x).aio = s.aio ∧ (s.putEmmc x).map = s.map ∧
    (s.putEmmc x).tbl = s.tbl ∧ (s.putEmmc x).can = s.can ∧ (s.putEmmc x).eth = s.eth ∧ (s.putEmmc x).pace = s.pace ∧
    (s.putEmmc x).cam = s.cam ∧ (s.putEmmc x).upd = s.upd ∧ (s.putEmmc x).svc = s.svc ∧ (s.putEmmc x).cart = s.cart ∧
    (s.putEmmc x).pnl = s.pnl ∧ (s.putEmmc x).tim = s.tim ∧ (s.putEmmc x).gns = s.gns ∧ (s.putEmmc x).nv = s.nv ∧
    (s.putEmmc x).pwr = s.pwr ∧ (s.putEmmc x).aon = s.aon ∧ (s.putEmmc x).saf = s.saf ∧ (s.putEmmc x).stq = s.stq ∧
    (s.putEmmc x).dmw = s.dmw ∧ (s.putEmmc x).pending = s.pending :=
  by simp only [State.putEmmc, and_self]

@[simp] theorem State.mailOf_putEmmc (s : State) (x : SMap Byte) (b : Block) : (s.putEmmc x).mailOf b = s.mailOf b := rfl

@[simp] theorem State.rd_putEmmc (s : State) (x : SMap Byte) (b : Block) (o : Nat) : (s.putEmmc x).rd b o = s.rd b o := rfl

/-- What `putAio` sets and leaves. -/
@[simp] theorem State.putAio_fields (s : State) (x : Aio) :
    (s.putAio x).regs = s.regs ∧ (s.putAio x).mem = s.mem ∧ (s.putAio x).resp = s.resp ∧ (s.putAio x).clk = s.clk ∧
    (s.putAio x).now = s.now ∧ (s.putAio x).free = s.free ∧ (s.putAio x).mail = s.mail ∧ (s.putAio x).pgh = s.pgh ∧
    (s.putAio x).fifo = s.fifo ∧ (s.putAio x).cpus = s.cpus ∧ (s.putAio x).tlb = s.tlb ∧
    (s.putAio x).psync = s.psync ∧ (s.putAio x).sbuf = s.sbuf ∧ (s.putAio x).pickLast = s.pickLast ∧
    (s.putAio x).ports = s.ports ∧ (s.putAio x).poison = s.poison ∧ (s.putAio x).latent = s.latent ∧
    (s.putAio x).ceAt = s.ceAt ∧ (s.putAio x).bur = s.bur ∧ (s.putAio x).sys = s.sys ∧ (s.putAio x).lsw = s.lsw ∧
    (s.putAio x).vlv = s.vlv ∧ (s.putAio x).lpe = s.lpe ∧ (s.putAio x).emmc = s.emmc ∧ (s.putAio x).aio = x ∧
    (s.putAio x).map = s.map ∧ (s.putAio x).tbl = s.tbl ∧ (s.putAio x).can = s.can ∧ (s.putAio x).eth = s.eth ∧
    (s.putAio x).pace = s.pace ∧ (s.putAio x).cam = s.cam ∧ (s.putAio x).upd = s.upd ∧ (s.putAio x).svc = s.svc ∧
    (s.putAio x).cart = s.cart ∧ (s.putAio x).pnl = s.pnl ∧ (s.putAio x).tim = s.tim ∧ (s.putAio x).gns = s.gns ∧
    (s.putAio x).nv = s.nv ∧ (s.putAio x).pwr = s.pwr ∧ (s.putAio x).aon = s.aon ∧ (s.putAio x).saf = s.saf ∧
    (s.putAio x).stq = s.stq ∧ (s.putAio x).dmw = s.dmw ∧ (s.putAio x).pending = s.pending :=
  by simp only [State.putAio, and_self]

@[simp] theorem State.mailOf_putAio (s : State) (x : Aio) (b : Block) : (s.putAio x).mailOf b = s.mailOf b := rfl

@[simp] theorem State.rd_putAio (s : State) (x : Aio) (b : Block) (o : Nat) : (s.putAio x).rd b o = s.rd b o := rfl

/-- What `putMap` sets and leaves. -/
@[simp] theorem State.putMap_fields (s : State) (x : MapSt) :
    (s.putMap x).regs = s.regs ∧ (s.putMap x).mem = s.mem ∧ (s.putMap x).resp = s.resp ∧ (s.putMap x).clk = s.clk ∧
    (s.putMap x).now = s.now ∧ (s.putMap x).free = s.free ∧ (s.putMap x).mail = s.mail ∧ (s.putMap x).pgh = s.pgh ∧
    (s.putMap x).fifo = s.fifo ∧ (s.putMap x).cpus = s.cpus ∧ (s.putMap x).tlb = s.tlb ∧
    (s.putMap x).psync = s.psync ∧ (s.putMap x).sbuf = s.sbuf ∧ (s.putMap x).pickLast = s.pickLast ∧
    (s.putMap x).ports = s.ports ∧ (s.putMap x).poison = s.poison ∧ (s.putMap x).latent = s.latent ∧
    (s.putMap x).ceAt = s.ceAt ∧ (s.putMap x).bur = s.bur ∧ (s.putMap x).sys = s.sys ∧ (s.putMap x).lsw = s.lsw ∧
    (s.putMap x).vlv = s.vlv ∧ (s.putMap x).lpe = s.lpe ∧ (s.putMap x).emmc = s.emmc ∧ (s.putMap x).aio = s.aio ∧
    (s.putMap x).map = x ∧ (s.putMap x).tbl = s.tbl ∧ (s.putMap x).can = s.can ∧ (s.putMap x).eth = s.eth ∧
    (s.putMap x).pace = s.pace ∧ (s.putMap x).cam = s.cam ∧ (s.putMap x).upd = s.upd ∧ (s.putMap x).svc = s.svc ∧
    (s.putMap x).cart = s.cart ∧ (s.putMap x).pnl = s.pnl ∧ (s.putMap x).tim = s.tim ∧ (s.putMap x).gns = s.gns ∧
    (s.putMap x).nv = s.nv ∧ (s.putMap x).pwr = s.pwr ∧ (s.putMap x).aon = s.aon ∧ (s.putMap x).saf = s.saf ∧
    (s.putMap x).stq = s.stq ∧ (s.putMap x).dmw = s.dmw ∧ (s.putMap x).pending = s.pending :=
  by simp only [State.putMap, and_self]

@[simp] theorem State.mailOf_putMap (s : State) (x : MapSt) (b : Block) : (s.putMap x).mailOf b = s.mailOf b := rfl

@[simp] theorem State.rd_putMap (s : State) (x : MapSt) (b : Block) (o : Nat) : (s.putMap x).rd b o = s.rd b o := rfl

/-- What `putTbl` sets and leaves. -/
@[simp] theorem State.putTbl_fields (s : State) (x : Tbl) :
    (s.putTbl x).regs = s.regs ∧ (s.putTbl x).mem = s.mem ∧ (s.putTbl x).resp = s.resp ∧ (s.putTbl x).clk = s.clk ∧
    (s.putTbl x).now = s.now ∧ (s.putTbl x).free = s.free ∧ (s.putTbl x).mail = s.mail ∧ (s.putTbl x).pgh = s.pgh ∧
    (s.putTbl x).fifo = s.fifo ∧ (s.putTbl x).cpus = s.cpus ∧ (s.putTbl x).tlb = s.tlb ∧
    (s.putTbl x).psync = s.psync ∧ (s.putTbl x).sbuf = s.sbuf ∧ (s.putTbl x).pickLast = s.pickLast ∧
    (s.putTbl x).ports = s.ports ∧ (s.putTbl x).poison = s.poison ∧ (s.putTbl x).latent = s.latent ∧
    (s.putTbl x).ceAt = s.ceAt ∧ (s.putTbl x).bur = s.bur ∧ (s.putTbl x).sys = s.sys ∧ (s.putTbl x).lsw = s.lsw ∧
    (s.putTbl x).vlv = s.vlv ∧ (s.putTbl x).lpe = s.lpe ∧ (s.putTbl x).emmc = s.emmc ∧ (s.putTbl x).aio = s.aio ∧
    (s.putTbl x).map = s.map ∧ (s.putTbl x).tbl = x ∧ (s.putTbl x).can = s.can ∧ (s.putTbl x).eth = s.eth ∧
    (s.putTbl x).pace = s.pace ∧ (s.putTbl x).cam = s.cam ∧ (s.putTbl x).upd = s.upd ∧ (s.putTbl x).svc = s.svc ∧
    (s.putTbl x).cart = s.cart ∧ (s.putTbl x).pnl = s.pnl ∧ (s.putTbl x).tim = s.tim ∧ (s.putTbl x).gns = s.gns ∧
    (s.putTbl x).nv = s.nv ∧ (s.putTbl x).pwr = s.pwr ∧ (s.putTbl x).aon = s.aon ∧ (s.putTbl x).saf = s.saf ∧
    (s.putTbl x).stq = s.stq ∧ (s.putTbl x).dmw = s.dmw ∧ (s.putTbl x).pending = s.pending :=
  by simp only [State.putTbl, and_self]

@[simp] theorem State.mailOf_putTbl (s : State) (x : Tbl) (b : Block) : (s.putTbl x).mailOf b = s.mailOf b := rfl

@[simp] theorem State.rd_putTbl (s : State) (x : Tbl) (b : Block) (o : Nat) : (s.putTbl x).rd b o = s.rd b o := rfl

/-- What `putCan` sets and leaves. -/
@[simp] theorem State.putCan_fields (s : State) (x : SMap CanCh) :
    (s.putCan x).regs = s.regs ∧ (s.putCan x).mem = s.mem ∧ (s.putCan x).resp = s.resp ∧ (s.putCan x).clk = s.clk ∧
    (s.putCan x).now = s.now ∧ (s.putCan x).free = s.free ∧ (s.putCan x).mail = s.mail ∧ (s.putCan x).pgh = s.pgh ∧
    (s.putCan x).fifo = s.fifo ∧ (s.putCan x).cpus = s.cpus ∧ (s.putCan x).tlb = s.tlb ∧
    (s.putCan x).psync = s.psync ∧ (s.putCan x).sbuf = s.sbuf ∧ (s.putCan x).pickLast = s.pickLast ∧
    (s.putCan x).ports = s.ports ∧ (s.putCan x).poison = s.poison ∧ (s.putCan x).latent = s.latent ∧
    (s.putCan x).ceAt = s.ceAt ∧ (s.putCan x).bur = s.bur ∧ (s.putCan x).sys = s.sys ∧ (s.putCan x).lsw = s.lsw ∧
    (s.putCan x).vlv = s.vlv ∧ (s.putCan x).lpe = s.lpe ∧ (s.putCan x).emmc = s.emmc ∧ (s.putCan x).aio = s.aio ∧
    (s.putCan x).map = s.map ∧ (s.putCan x).tbl = s.tbl ∧ (s.putCan x).can = x ∧ (s.putCan x).eth = s.eth ∧
    (s.putCan x).pace = s.pace ∧ (s.putCan x).cam = s.cam ∧ (s.putCan x).upd = s.upd ∧ (s.putCan x).svc = s.svc ∧
    (s.putCan x).cart = s.cart ∧ (s.putCan x).pnl = s.pnl ∧ (s.putCan x).tim = s.tim ∧ (s.putCan x).gns = s.gns ∧
    (s.putCan x).nv = s.nv ∧ (s.putCan x).pwr = s.pwr ∧ (s.putCan x).aon = s.aon ∧ (s.putCan x).saf = s.saf ∧
    (s.putCan x).stq = s.stq ∧ (s.putCan x).dmw = s.dmw ∧ (s.putCan x).pending = s.pending :=
  by simp only [State.putCan, and_self]

@[simp] theorem State.mailOf_putCan (s : State) (x : SMap CanCh) (b : Block) : (s.putCan x).mailOf b = s.mailOf b := rfl

@[simp] theorem State.rd_putCan (s : State) (x : SMap CanCh) (b : Block) (o : Nat) : (s.putCan x).rd b o = s.rd b o := rfl

/-- What `putEth` sets and leaves. -/
@[simp] theorem State.putEth_fields (s : State) (x : Eth) :
    (s.putEth x).regs = s.regs ∧ (s.putEth x).mem = s.mem ∧ (s.putEth x).resp = s.resp ∧ (s.putEth x).clk = s.clk ∧
    (s.putEth x).now = s.now ∧ (s.putEth x).free = s.free ∧ (s.putEth x).mail = s.mail ∧ (s.putEth x).pgh = s.pgh ∧
    (s.putEth x).fifo = s.fifo ∧ (s.putEth x).cpus = s.cpus ∧ (s.putEth x).tlb = s.tlb ∧
    (s.putEth x).psync = s.psync ∧ (s.putEth x).sbuf = s.sbuf ∧ (s.putEth x).pickLast = s.pickLast ∧
    (s.putEth x).ports = s.ports ∧ (s.putEth x).poison = s.poison ∧ (s.putEth x).latent = s.latent ∧
    (s.putEth x).ceAt = s.ceAt ∧ (s.putEth x).bur = s.bur ∧ (s.putEth x).sys = s.sys ∧ (s.putEth x).lsw = s.lsw ∧
    (s.putEth x).vlv = s.vlv ∧ (s.putEth x).lpe = s.lpe ∧ (s.putEth x).emmc = s.emmc ∧ (s.putEth x).aio = s.aio ∧
    (s.putEth x).map = s.map ∧ (s.putEth x).tbl = s.tbl ∧ (s.putEth x).can = s.can ∧ (s.putEth x).eth = x ∧
    (s.putEth x).pace = s.pace ∧ (s.putEth x).cam = s.cam ∧ (s.putEth x).upd = s.upd ∧ (s.putEth x).svc = s.svc ∧
    (s.putEth x).cart = s.cart ∧ (s.putEth x).pnl = s.pnl ∧ (s.putEth x).tim = s.tim ∧ (s.putEth x).gns = s.gns ∧
    (s.putEth x).nv = s.nv ∧ (s.putEth x).pwr = s.pwr ∧ (s.putEth x).aon = s.aon ∧ (s.putEth x).saf = s.saf ∧
    (s.putEth x).stq = s.stq ∧ (s.putEth x).dmw = s.dmw ∧ (s.putEth x).pending = s.pending :=
  by simp only [State.putEth, and_self]

@[simp] theorem State.mailOf_putEth (s : State) (x : Eth) (b : Block) : (s.putEth x).mailOf b = s.mailOf b := rfl

@[simp] theorem State.rd_putEth (s : State) (x : Eth) (b : Block) (o : Nat) : (s.putEth x).rd b o = s.rd b o := rfl

/-- What `putPace` sets and leaves. -/
@[simp] theorem State.putPace_fields (s : State) (x : Pace) :
    (s.putPace x).regs = s.regs ∧ (s.putPace x).mem = s.mem ∧ (s.putPace x).resp = s.resp ∧
    (s.putPace x).clk = s.clk ∧ (s.putPace x).now = s.now ∧ (s.putPace x).free = s.free ∧
    (s.putPace x).mail = s.mail ∧ (s.putPace x).pgh = s.pgh ∧ (s.putPace x).fifo = s.fifo ∧
    (s.putPace x).cpus = s.cpus ∧ (s.putPace x).tlb = s.tlb ∧ (s.putPace x).psync = s.psync ∧
    (s.putPace x).sbuf = s.sbuf ∧ (s.putPace x).pickLast = s.pickLast ∧ (s.putPace x).ports = s.ports ∧
    (s.putPace x).poison = s.poison ∧ (s.putPace x).latent = s.latent ∧ (s.putPace x).ceAt = s.ceAt ∧
    (s.putPace x).bur = s.bur ∧ (s.putPace x).sys = s.sys ∧ (s.putPace x).lsw = s.lsw ∧ (s.putPace x).vlv = s.vlv ∧
    (s.putPace x).lpe = s.lpe ∧ (s.putPace x).emmc = s.emmc ∧ (s.putPace x).aio = s.aio ∧ (s.putPace x).map = s.map ∧
    (s.putPace x).tbl = s.tbl ∧ (s.putPace x).can = s.can ∧ (s.putPace x).eth = s.eth ∧ (s.putPace x).pace = x ∧
    (s.putPace x).cam = s.cam ∧ (s.putPace x).upd = s.upd ∧ (s.putPace x).svc = s.svc ∧ (s.putPace x).cart = s.cart ∧
    (s.putPace x).pnl = s.pnl ∧ (s.putPace x).tim = s.tim ∧ (s.putPace x).gns = s.gns ∧ (s.putPace x).nv = s.nv ∧
    (s.putPace x).pwr = s.pwr ∧ (s.putPace x).aon = s.aon ∧ (s.putPace x).saf = s.saf ∧ (s.putPace x).stq = s.stq ∧
    (s.putPace x).dmw = s.dmw ∧ (s.putPace x).pending = s.pending :=
  by simp only [State.putPace, and_self]

@[simp] theorem State.mailOf_putPace (s : State) (x : Pace) (b : Block) : (s.putPace x).mailOf b = s.mailOf b := rfl

@[simp] theorem State.rd_putPace (s : State) (x : Pace) (b : Block) (o : Nat) : (s.putPace x).rd b o = s.rd b o := rfl

/-- What `putCam` sets and leaves. -/
@[simp] theorem State.putCam_fields (s : State) (x : Cam) :
    (s.putCam x).regs = s.regs ∧ (s.putCam x).mem = s.mem ∧ (s.putCam x).resp = s.resp ∧ (s.putCam x).clk = s.clk ∧
    (s.putCam x).now = s.now ∧ (s.putCam x).free = s.free ∧ (s.putCam x).mail = s.mail ∧ (s.putCam x).pgh = s.pgh ∧
    (s.putCam x).fifo = s.fifo ∧ (s.putCam x).cpus = s.cpus ∧ (s.putCam x).tlb = s.tlb ∧
    (s.putCam x).psync = s.psync ∧ (s.putCam x).sbuf = s.sbuf ∧ (s.putCam x).pickLast = s.pickLast ∧
    (s.putCam x).ports = s.ports ∧ (s.putCam x).poison = s.poison ∧ (s.putCam x).latent = s.latent ∧
    (s.putCam x).ceAt = s.ceAt ∧ (s.putCam x).bur = s.bur ∧ (s.putCam x).sys = s.sys ∧ (s.putCam x).lsw = s.lsw ∧
    (s.putCam x).vlv = s.vlv ∧ (s.putCam x).lpe = s.lpe ∧ (s.putCam x).emmc = s.emmc ∧ (s.putCam x).aio = s.aio ∧
    (s.putCam x).map = s.map ∧ (s.putCam x).tbl = s.tbl ∧ (s.putCam x).can = s.can ∧ (s.putCam x).eth = s.eth ∧
    (s.putCam x).pace = s.pace ∧ (s.putCam x).cam = x ∧ (s.putCam x).upd = s.upd ∧ (s.putCam x).svc = s.svc ∧
    (s.putCam x).cart = s.cart ∧ (s.putCam x).pnl = s.pnl ∧ (s.putCam x).tim = s.tim ∧ (s.putCam x).gns = s.gns ∧
    (s.putCam x).nv = s.nv ∧ (s.putCam x).pwr = s.pwr ∧ (s.putCam x).aon = s.aon ∧ (s.putCam x).saf = s.saf ∧
    (s.putCam x).stq = s.stq ∧ (s.putCam x).dmw = s.dmw ∧ (s.putCam x).pending = s.pending :=
  by simp only [State.putCam, and_self]

@[simp] theorem State.mailOf_putCam (s : State) (x : Cam) (b : Block) : (s.putCam x).mailOf b = s.mailOf b := rfl

@[simp] theorem State.rd_putCam (s : State) (x : Cam) (b : Block) (o : Nat) : (s.putCam x).rd b o = s.rd b o := rfl

/-- What `putUpd` sets and leaves. -/
@[simp] theorem State.putUpd_fields (s : State) (x : Upd) :
    (s.putUpd x).regs = s.regs ∧ (s.putUpd x).mem = s.mem ∧ (s.putUpd x).resp = s.resp ∧ (s.putUpd x).clk = s.clk ∧
    (s.putUpd x).now = s.now ∧ (s.putUpd x).free = s.free ∧ (s.putUpd x).mail = s.mail ∧ (s.putUpd x).pgh = s.pgh ∧
    (s.putUpd x).fifo = s.fifo ∧ (s.putUpd x).cpus = s.cpus ∧ (s.putUpd x).tlb = s.tlb ∧
    (s.putUpd x).psync = s.psync ∧ (s.putUpd x).sbuf = s.sbuf ∧ (s.putUpd x).pickLast = s.pickLast ∧
    (s.putUpd x).ports = s.ports ∧ (s.putUpd x).poison = s.poison ∧ (s.putUpd x).latent = s.latent ∧
    (s.putUpd x).ceAt = s.ceAt ∧ (s.putUpd x).bur = s.bur ∧ (s.putUpd x).sys = s.sys ∧ (s.putUpd x).lsw = s.lsw ∧
    (s.putUpd x).vlv = s.vlv ∧ (s.putUpd x).lpe = s.lpe ∧ (s.putUpd x).emmc = s.emmc ∧ (s.putUpd x).aio = s.aio ∧
    (s.putUpd x).map = s.map ∧ (s.putUpd x).tbl = s.tbl ∧ (s.putUpd x).can = s.can ∧ (s.putUpd x).eth = s.eth ∧
    (s.putUpd x).pace = s.pace ∧ (s.putUpd x).cam = s.cam ∧ (s.putUpd x).upd = x ∧ (s.putUpd x).svc = s.svc ∧
    (s.putUpd x).cart = s.cart ∧ (s.putUpd x).pnl = s.pnl ∧ (s.putUpd x).tim = s.tim ∧ (s.putUpd x).gns = s.gns ∧
    (s.putUpd x).nv = s.nv ∧ (s.putUpd x).pwr = s.pwr ∧ (s.putUpd x).aon = s.aon ∧ (s.putUpd x).saf = s.saf ∧
    (s.putUpd x).stq = s.stq ∧ (s.putUpd x).dmw = s.dmw ∧ (s.putUpd x).pending = s.pending :=
  by simp only [State.putUpd, and_self]

@[simp] theorem State.mailOf_putUpd (s : State) (x : Upd) (b : Block) : (s.putUpd x).mailOf b = s.mailOf b := rfl

@[simp] theorem State.rd_putUpd (s : State) (x : Upd) (b : Block) (o : Nat) : (s.putUpd x).rd b o = s.rd b o := rfl

/-- What `putSvc` sets and leaves. -/
@[simp] theorem State.putSvc_fields (s : State) (x : List Session) :
    (s.putSvc x).regs = s.regs ∧ (s.putSvc x).mem = s.mem ∧ (s.putSvc x).resp = s.resp ∧ (s.putSvc x).clk = s.clk ∧
    (s.putSvc x).now = s.now ∧ (s.putSvc x).free = s.free ∧ (s.putSvc x).mail = s.mail ∧ (s.putSvc x).pgh = s.pgh ∧
    (s.putSvc x).fifo = s.fifo ∧ (s.putSvc x).cpus = s.cpus ∧ (s.putSvc x).tlb = s.tlb ∧
    (s.putSvc x).psync = s.psync ∧ (s.putSvc x).sbuf = s.sbuf ∧ (s.putSvc x).pickLast = s.pickLast ∧
    (s.putSvc x).ports = s.ports ∧ (s.putSvc x).poison = s.poison ∧ (s.putSvc x).latent = s.latent ∧
    (s.putSvc x).ceAt = s.ceAt ∧ (s.putSvc x).bur = s.bur ∧ (s.putSvc x).sys = s.sys ∧ (s.putSvc x).lsw = s.lsw ∧
    (s.putSvc x).vlv = s.vlv ∧ (s.putSvc x).lpe = s.lpe ∧ (s.putSvc x).emmc = s.emmc ∧ (s.putSvc x).aio = s.aio ∧
    (s.putSvc x).map = s.map ∧ (s.putSvc x).tbl = s.tbl ∧ (s.putSvc x).can = s.can ∧ (s.putSvc x).eth = s.eth ∧
    (s.putSvc x).pace = s.pace ∧ (s.putSvc x).cam = s.cam ∧ (s.putSvc x).upd = s.upd ∧ (s.putSvc x).svc = x ∧
    (s.putSvc x).cart = s.cart ∧ (s.putSvc x).pnl = s.pnl ∧ (s.putSvc x).tim = s.tim ∧ (s.putSvc x).gns = s.gns ∧
    (s.putSvc x).nv = s.nv ∧ (s.putSvc x).pwr = s.pwr ∧ (s.putSvc x).aon = s.aon ∧ (s.putSvc x).saf = s.saf ∧
    (s.putSvc x).stq = s.stq ∧ (s.putSvc x).dmw = s.dmw ∧ (s.putSvc x).pending = s.pending :=
  by simp only [State.putSvc, and_self]

@[simp] theorem State.mailOf_putSvc (s : State) (x : List Session) (b : Block) : (s.putSvc x).mailOf b = s.mailOf b := rfl

@[simp] theorem State.rd_putSvc (s : State) (x : List Session) (b : Block) (o : Nat) : (s.putSvc x).rd b o = s.rd b o := rfl

/-- What `putCart` sets and leaves. -/
@[simp] theorem State.putCart_fields (s : State) (x : Cart) :
    (s.putCart x).regs = s.regs ∧ (s.putCart x).mem = s.mem ∧ (s.putCart x).resp = s.resp ∧
    (s.putCart x).clk = s.clk ∧ (s.putCart x).now = s.now ∧ (s.putCart x).free = s.free ∧
    (s.putCart x).mail = s.mail ∧ (s.putCart x).pgh = s.pgh ∧ (s.putCart x).fifo = s.fifo ∧
    (s.putCart x).cpus = s.cpus ∧ (s.putCart x).tlb = s.tlb ∧ (s.putCart x).psync = s.psync ∧
    (s.putCart x).sbuf = s.sbuf ∧ (s.putCart x).pickLast = s.pickLast ∧ (s.putCart x).ports = s.ports ∧
    (s.putCart x).poison = s.poison ∧ (s.putCart x).latent = s.latent ∧ (s.putCart x).ceAt = s.ceAt ∧
    (s.putCart x).bur = s.bur ∧ (s.putCart x).sys = s.sys ∧ (s.putCart x).lsw = s.lsw ∧ (s.putCart x).vlv = s.vlv ∧
    (s.putCart x).lpe = s.lpe ∧ (s.putCart x).emmc = s.emmc ∧ (s.putCart x).aio = s.aio ∧ (s.putCart x).map = s.map ∧
    (s.putCart x).tbl = s.tbl ∧ (s.putCart x).can = s.can ∧ (s.putCart x).eth = s.eth ∧ (s.putCart x).pace = s.pace ∧
    (s.putCart x).cam = s.cam ∧ (s.putCart x).upd = s.upd ∧ (s.putCart x).svc = s.svc ∧ (s.putCart x).cart = x ∧
    (s.putCart x).pnl = s.pnl ∧ (s.putCart x).tim = s.tim ∧ (s.putCart x).gns = s.gns ∧ (s.putCart x).nv = s.nv ∧
    (s.putCart x).pwr = s.pwr ∧ (s.putCart x).aon = s.aon ∧ (s.putCart x).saf = s.saf ∧ (s.putCart x).stq = s.stq ∧
    (s.putCart x).dmw = s.dmw ∧ (s.putCart x).pending = s.pending :=
  by simp only [State.putCart, and_self]

@[simp] theorem State.mailOf_putCart (s : State) (x : Cart) (b : Block) : (s.putCart x).mailOf b = s.mailOf b := rfl

@[simp] theorem State.rd_putCart (s : State) (x : Cart) (b : Block) (o : Nat) : (s.putCart x).rd b o = s.rd b o := rfl

/-- What `putPnl` sets and leaves. -/
@[simp] theorem State.putPnl_fields (s : State) (x : Pnl) :
    (s.putPnl x).regs = s.regs ∧ (s.putPnl x).mem = s.mem ∧ (s.putPnl x).resp = s.resp ∧ (s.putPnl x).clk = s.clk ∧
    (s.putPnl x).now = s.now ∧ (s.putPnl x).free = s.free ∧ (s.putPnl x).mail = s.mail ∧ (s.putPnl x).pgh = s.pgh ∧
    (s.putPnl x).fifo = s.fifo ∧ (s.putPnl x).cpus = s.cpus ∧ (s.putPnl x).tlb = s.tlb ∧
    (s.putPnl x).psync = s.psync ∧ (s.putPnl x).sbuf = s.sbuf ∧ (s.putPnl x).pickLast = s.pickLast ∧
    (s.putPnl x).ports = s.ports ∧ (s.putPnl x).poison = s.poison ∧ (s.putPnl x).latent = s.latent ∧
    (s.putPnl x).ceAt = s.ceAt ∧ (s.putPnl x).bur = s.bur ∧ (s.putPnl x).sys = s.sys ∧ (s.putPnl x).lsw = s.lsw ∧
    (s.putPnl x).vlv = s.vlv ∧ (s.putPnl x).lpe = s.lpe ∧ (s.putPnl x).emmc = s.emmc ∧ (s.putPnl x).aio = s.aio ∧
    (s.putPnl x).map = s.map ∧ (s.putPnl x).tbl = s.tbl ∧ (s.putPnl x).can = s.can ∧ (s.putPnl x).eth = s.eth ∧
    (s.putPnl x).pace = s.pace ∧ (s.putPnl x).cam = s.cam ∧ (s.putPnl x).upd = s.upd ∧ (s.putPnl x).svc = s.svc ∧
    (s.putPnl x).cart = s.cart ∧ (s.putPnl x).pnl = x ∧ (s.putPnl x).tim = s.tim ∧ (s.putPnl x).gns = s.gns ∧
    (s.putPnl x).nv = s.nv ∧ (s.putPnl x).pwr = s.pwr ∧ (s.putPnl x).aon = s.aon ∧ (s.putPnl x).saf = s.saf ∧
    (s.putPnl x).stq = s.stq ∧ (s.putPnl x).dmw = s.dmw ∧ (s.putPnl x).pending = s.pending :=
  by simp only [State.putPnl, and_self]

@[simp] theorem State.mailOf_putPnl (s : State) (x : Pnl) (b : Block) : (s.putPnl x).mailOf b = s.mailOf b := rfl

@[simp] theorem State.rd_putPnl (s : State) (x : Pnl) (b : Block) (o : Nat) : (s.putPnl x).rd b o = s.rd b o := rfl

/-- What `putTim` sets and leaves. -/
@[simp] theorem State.putTim_fields (s : State) (x : Tim) :
    (s.putTim x).regs = s.regs ∧ (s.putTim x).mem = s.mem ∧ (s.putTim x).resp = s.resp ∧ (s.putTim x).clk = s.clk ∧
    (s.putTim x).now = s.now ∧ (s.putTim x).free = s.free ∧ (s.putTim x).mail = s.mail ∧ (s.putTim x).pgh = s.pgh ∧
    (s.putTim x).fifo = s.fifo ∧ (s.putTim x).cpus = s.cpus ∧ (s.putTim x).tlb = s.tlb ∧
    (s.putTim x).psync = s.psync ∧ (s.putTim x).sbuf = s.sbuf ∧ (s.putTim x).pickLast = s.pickLast ∧
    (s.putTim x).ports = s.ports ∧ (s.putTim x).poison = s.poison ∧ (s.putTim x).latent = s.latent ∧
    (s.putTim x).ceAt = s.ceAt ∧ (s.putTim x).bur = s.bur ∧ (s.putTim x).sys = s.sys ∧ (s.putTim x).lsw = s.lsw ∧
    (s.putTim x).vlv = s.vlv ∧ (s.putTim x).lpe = s.lpe ∧ (s.putTim x).emmc = s.emmc ∧ (s.putTim x).aio = s.aio ∧
    (s.putTim x).map = s.map ∧ (s.putTim x).tbl = s.tbl ∧ (s.putTim x).can = s.can ∧ (s.putTim x).eth = s.eth ∧
    (s.putTim x).pace = s.pace ∧ (s.putTim x).cam = s.cam ∧ (s.putTim x).upd = s.upd ∧ (s.putTim x).svc = s.svc ∧
    (s.putTim x).cart = s.cart ∧ (s.putTim x).pnl = s.pnl ∧ (s.putTim x).tim = x ∧ (s.putTim x).gns = s.gns ∧
    (s.putTim x).nv = s.nv ∧ (s.putTim x).pwr = s.pwr ∧ (s.putTim x).aon = s.aon ∧ (s.putTim x).saf = s.saf ∧
    (s.putTim x).stq = s.stq ∧ (s.putTim x).dmw = s.dmw ∧ (s.putTim x).pending = s.pending :=
  by simp only [State.putTim, and_self]

@[simp] theorem State.mailOf_putTim (s : State) (x : Tim) (b : Block) : (s.putTim x).mailOf b = s.mailOf b := rfl

@[simp] theorem State.rd_putTim (s : State) (x : Tim) (b : Block) (o : Nat) : (s.putTim x).rd b o = s.rd b o := rfl

/-- What `putGns` sets and leaves. -/
@[simp] theorem State.putGns_fields (s : State) (x : Gns) :
    (s.putGns x).regs = s.regs ∧ (s.putGns x).mem = s.mem ∧ (s.putGns x).resp = s.resp ∧ (s.putGns x).clk = s.clk ∧
    (s.putGns x).now = s.now ∧ (s.putGns x).free = s.free ∧ (s.putGns x).mail = s.mail ∧ (s.putGns x).pgh = s.pgh ∧
    (s.putGns x).fifo = s.fifo ∧ (s.putGns x).cpus = s.cpus ∧ (s.putGns x).tlb = s.tlb ∧
    (s.putGns x).psync = s.psync ∧ (s.putGns x).sbuf = s.sbuf ∧ (s.putGns x).pickLast = s.pickLast ∧
    (s.putGns x).ports = s.ports ∧ (s.putGns x).poison = s.poison ∧ (s.putGns x).latent = s.latent ∧
    (s.putGns x).ceAt = s.ceAt ∧ (s.putGns x).bur = s.bur ∧ (s.putGns x).sys = s.sys ∧ (s.putGns x).lsw = s.lsw ∧
    (s.putGns x).vlv = s.vlv ∧ (s.putGns x).lpe = s.lpe ∧ (s.putGns x).emmc = s.emmc ∧ (s.putGns x).aio = s.aio ∧
    (s.putGns x).map = s.map ∧ (s.putGns x).tbl = s.tbl ∧ (s.putGns x).can = s.can ∧ (s.putGns x).eth = s.eth ∧
    (s.putGns x).pace = s.pace ∧ (s.putGns x).cam = s.cam ∧ (s.putGns x).upd = s.upd ∧ (s.putGns x).svc = s.svc ∧
    (s.putGns x).cart = s.cart ∧ (s.putGns x).pnl = s.pnl ∧ (s.putGns x).tim = s.tim ∧ (s.putGns x).gns = x ∧
    (s.putGns x).nv = s.nv ∧ (s.putGns x).pwr = s.pwr ∧ (s.putGns x).aon = s.aon ∧ (s.putGns x).saf = s.saf ∧
    (s.putGns x).stq = s.stq ∧ (s.putGns x).dmw = s.dmw ∧ (s.putGns x).pending = s.pending :=
  by simp only [State.putGns, and_self]

@[simp] theorem State.mailOf_putGns (s : State) (x : Gns) (b : Block) : (s.putGns x).mailOf b = s.mailOf b := rfl

@[simp] theorem State.rd_putGns (s : State) (x : Gns) (b : Block) (o : Nat) : (s.putGns x).rd b o = s.rd b o := rfl

/-- What `putNv` sets and leaves. -/
@[simp] theorem State.putNv_fields (s : State) (x : Nv) :
    (s.putNv x).regs = s.regs ∧ (s.putNv x).mem = s.mem ∧ (s.putNv x).resp = s.resp ∧ (s.putNv x).clk = s.clk ∧
    (s.putNv x).now = s.now ∧ (s.putNv x).free = s.free ∧ (s.putNv x).mail = s.mail ∧ (s.putNv x).pgh = s.pgh ∧
    (s.putNv x).fifo = s.fifo ∧ (s.putNv x).cpus = s.cpus ∧ (s.putNv x).tlb = s.tlb ∧ (s.putNv x).psync = s.psync ∧
    (s.putNv x).sbuf = s.sbuf ∧ (s.putNv x).pickLast = s.pickLast ∧ (s.putNv x).ports = s.ports ∧
    (s.putNv x).poison = s.poison ∧ (s.putNv x).latent = s.latent ∧ (s.putNv x).ceAt = s.ceAt ∧
    (s.putNv x).bur = s.bur ∧ (s.putNv x).sys = s.sys ∧ (s.putNv x).lsw = s.lsw ∧ (s.putNv x).vlv = s.vlv ∧
    (s.putNv x).lpe = s.lpe ∧ (s.putNv x).emmc = s.emmc ∧ (s.putNv x).aio = s.aio ∧ (s.putNv x).map = s.map ∧
    (s.putNv x).tbl = s.tbl ∧ (s.putNv x).can = s.can ∧ (s.putNv x).eth = s.eth ∧ (s.putNv x).pace = s.pace ∧
    (s.putNv x).cam = s.cam ∧ (s.putNv x).upd = s.upd ∧ (s.putNv x).svc = s.svc ∧ (s.putNv x).cart = s.cart ∧
    (s.putNv x).pnl = s.pnl ∧ (s.putNv x).tim = s.tim ∧ (s.putNv x).gns = s.gns ∧ (s.putNv x).nv = x ∧
    (s.putNv x).pwr = s.pwr ∧ (s.putNv x).aon = s.aon ∧ (s.putNv x).saf = s.saf ∧ (s.putNv x).stq = s.stq ∧
    (s.putNv x).dmw = s.dmw ∧ (s.putNv x).pending = s.pending :=
  by simp only [State.putNv, and_self]

@[simp] theorem State.mailOf_putNv (s : State) (x : Nv) (b : Block) : (s.putNv x).mailOf b = s.mailOf b := rfl

@[simp] theorem State.rd_putNv (s : State) (x : Nv) (b : Block) (o : Nat) : (s.putNv x).rd b o = s.rd b o := rfl

/-- What `putPwr` sets and leaves. -/
@[simp] theorem State.putPwr_fields (s : State) (x : Pwr) :
    (s.putPwr x).regs = s.regs ∧ (s.putPwr x).mem = s.mem ∧ (s.putPwr x).resp = s.resp ∧ (s.putPwr x).clk = s.clk ∧
    (s.putPwr x).now = s.now ∧ (s.putPwr x).free = s.free ∧ (s.putPwr x).mail = s.mail ∧ (s.putPwr x).pgh = s.pgh ∧
    (s.putPwr x).fifo = s.fifo ∧ (s.putPwr x).cpus = s.cpus ∧ (s.putPwr x).tlb = s.tlb ∧
    (s.putPwr x).psync = s.psync ∧ (s.putPwr x).sbuf = s.sbuf ∧ (s.putPwr x).pickLast = s.pickLast ∧
    (s.putPwr x).ports = s.ports ∧ (s.putPwr x).poison = s.poison ∧ (s.putPwr x).latent = s.latent ∧
    (s.putPwr x).ceAt = s.ceAt ∧ (s.putPwr x).bur = s.bur ∧ (s.putPwr x).sys = s.sys ∧ (s.putPwr x).lsw = s.lsw ∧
    (s.putPwr x).vlv = s.vlv ∧ (s.putPwr x).lpe = s.lpe ∧ (s.putPwr x).emmc = s.emmc ∧ (s.putPwr x).aio = s.aio ∧
    (s.putPwr x).map = s.map ∧ (s.putPwr x).tbl = s.tbl ∧ (s.putPwr x).can = s.can ∧ (s.putPwr x).eth = s.eth ∧
    (s.putPwr x).pace = s.pace ∧ (s.putPwr x).cam = s.cam ∧ (s.putPwr x).upd = s.upd ∧ (s.putPwr x).svc = s.svc ∧
    (s.putPwr x).cart = s.cart ∧ (s.putPwr x).pnl = s.pnl ∧ (s.putPwr x).tim = s.tim ∧ (s.putPwr x).gns = s.gns ∧
    (s.putPwr x).nv = s.nv ∧ (s.putPwr x).pwr = x ∧ (s.putPwr x).aon = s.aon ∧ (s.putPwr x).saf = s.saf ∧
    (s.putPwr x).stq = s.stq ∧ (s.putPwr x).dmw = s.dmw ∧ (s.putPwr x).pending = s.pending :=
  by simp only [State.putPwr, and_self]

@[simp] theorem State.mailOf_putPwr (s : State) (x : Pwr) (b : Block) : (s.putPwr x).mailOf b = s.mailOf b := rfl

@[simp] theorem State.rd_putPwr (s : State) (x : Pwr) (b : Block) (o : Nat) : (s.putPwr x).rd b o = s.rd b o := rfl

/-- What `putAon` sets and leaves. -/
@[simp] theorem State.putAon_fields (s : State) (x : Aon) :
    (s.putAon x).regs = s.regs ∧ (s.putAon x).mem = s.mem ∧ (s.putAon x).resp = s.resp ∧ (s.putAon x).clk = s.clk ∧
    (s.putAon x).now = s.now ∧ (s.putAon x).free = s.free ∧ (s.putAon x).mail = s.mail ∧ (s.putAon x).pgh = s.pgh ∧
    (s.putAon x).fifo = s.fifo ∧ (s.putAon x).cpus = s.cpus ∧ (s.putAon x).tlb = s.tlb ∧
    (s.putAon x).psync = s.psync ∧ (s.putAon x).sbuf = s.sbuf ∧ (s.putAon x).pickLast = s.pickLast ∧
    (s.putAon x).ports = s.ports ∧ (s.putAon x).poison = s.poison ∧ (s.putAon x).latent = s.latent ∧
    (s.putAon x).ceAt = s.ceAt ∧ (s.putAon x).bur = s.bur ∧ (s.putAon x).sys = s.sys ∧ (s.putAon x).lsw = s.lsw ∧
    (s.putAon x).vlv = s.vlv ∧ (s.putAon x).lpe = s.lpe ∧ (s.putAon x).emmc = s.emmc ∧ (s.putAon x).aio = s.aio ∧
    (s.putAon x).map = s.map ∧ (s.putAon x).tbl = s.tbl ∧ (s.putAon x).can = s.can ∧ (s.putAon x).eth = s.eth ∧
    (s.putAon x).pace = s.pace ∧ (s.putAon x).cam = s.cam ∧ (s.putAon x).upd = s.upd ∧ (s.putAon x).svc = s.svc ∧
    (s.putAon x).cart = s.cart ∧ (s.putAon x).pnl = s.pnl ∧ (s.putAon x).tim = s.tim ∧ (s.putAon x).gns = s.gns ∧
    (s.putAon x).nv = s.nv ∧ (s.putAon x).pwr = s.pwr ∧ (s.putAon x).aon = x ∧ (s.putAon x).saf = s.saf ∧
    (s.putAon x).stq = s.stq ∧ (s.putAon x).dmw = s.dmw ∧ (s.putAon x).pending = s.pending :=
  by simp only [State.putAon, and_self]

@[simp] theorem State.mailOf_putAon (s : State) (x : Aon) (b : Block) : (s.putAon x).mailOf b = s.mailOf b := rfl

@[simp] theorem State.rd_putAon (s : State) (x : Aon) (b : Block) (o : Nat) : (s.putAon x).rd b o = s.rd b o := rfl

/-- What `putSaf` sets and leaves. -/
@[simp] theorem State.putSaf_fields (s : State) (x : Saf) :
    (s.putSaf x).regs = s.regs ∧ (s.putSaf x).mem = s.mem ∧ (s.putSaf x).resp = s.resp ∧ (s.putSaf x).clk = s.clk ∧
    (s.putSaf x).now = s.now ∧ (s.putSaf x).free = s.free ∧ (s.putSaf x).mail = s.mail ∧ (s.putSaf x).pgh = s.pgh ∧
    (s.putSaf x).fifo = s.fifo ∧ (s.putSaf x).cpus = s.cpus ∧ (s.putSaf x).tlb = s.tlb ∧
    (s.putSaf x).psync = s.psync ∧ (s.putSaf x).sbuf = s.sbuf ∧ (s.putSaf x).pickLast = s.pickLast ∧
    (s.putSaf x).ports = s.ports ∧ (s.putSaf x).poison = s.poison ∧ (s.putSaf x).latent = s.latent ∧
    (s.putSaf x).ceAt = s.ceAt ∧ (s.putSaf x).bur = s.bur ∧ (s.putSaf x).sys = s.sys ∧ (s.putSaf x).lsw = s.lsw ∧
    (s.putSaf x).vlv = s.vlv ∧ (s.putSaf x).lpe = s.lpe ∧ (s.putSaf x).emmc = s.emmc ∧ (s.putSaf x).aio = s.aio ∧
    (s.putSaf x).map = s.map ∧ (s.putSaf x).tbl = s.tbl ∧ (s.putSaf x).can = s.can ∧ (s.putSaf x).eth = s.eth ∧
    (s.putSaf x).pace = s.pace ∧ (s.putSaf x).cam = s.cam ∧ (s.putSaf x).upd = s.upd ∧ (s.putSaf x).svc = s.svc ∧
    (s.putSaf x).cart = s.cart ∧ (s.putSaf x).pnl = s.pnl ∧ (s.putSaf x).tim = s.tim ∧ (s.putSaf x).gns = s.gns ∧
    (s.putSaf x).nv = s.nv ∧ (s.putSaf x).pwr = s.pwr ∧ (s.putSaf x).aon = s.aon ∧ (s.putSaf x).saf = x ∧
    (s.putSaf x).stq = s.stq ∧ (s.putSaf x).dmw = s.dmw ∧ (s.putSaf x).pending = s.pending :=
  by simp only [State.putSaf, and_self]

@[simp] theorem State.mailOf_putSaf (s : State) (x : Saf) (b : Block) : (s.putSaf x).mailOf b = s.mailOf b := rfl

@[simp] theorem State.rd_putSaf (s : State) (x : Saf) (b : Block) (o : Nat) : (s.putSaf x).rd b o = s.rd b o := rfl

/-- What `putStq` sets and leaves. -/
@[simp] theorem State.putStq_fields (s : State) (x : Option StqRun) :
    (s.putStq x).regs = s.regs ∧ (s.putStq x).mem = s.mem ∧ (s.putStq x).resp = s.resp ∧ (s.putStq x).clk = s.clk ∧
    (s.putStq x).now = s.now ∧ (s.putStq x).free = s.free ∧ (s.putStq x).mail = s.mail ∧ (s.putStq x).pgh = s.pgh ∧
    (s.putStq x).fifo = s.fifo ∧ (s.putStq x).cpus = s.cpus ∧ (s.putStq x).tlb = s.tlb ∧
    (s.putStq x).psync = s.psync ∧ (s.putStq x).sbuf = s.sbuf ∧ (s.putStq x).pickLast = s.pickLast ∧
    (s.putStq x).ports = s.ports ∧ (s.putStq x).poison = s.poison ∧ (s.putStq x).latent = s.latent ∧
    (s.putStq x).ceAt = s.ceAt ∧ (s.putStq x).bur = s.bur ∧ (s.putStq x).sys = s.sys ∧ (s.putStq x).lsw = s.lsw ∧
    (s.putStq x).vlv = s.vlv ∧ (s.putStq x).lpe = s.lpe ∧ (s.putStq x).emmc = s.emmc ∧ (s.putStq x).aio = s.aio ∧
    (s.putStq x).map = s.map ∧ (s.putStq x).tbl = s.tbl ∧ (s.putStq x).can = s.can ∧ (s.putStq x).eth = s.eth ∧
    (s.putStq x).pace = s.pace ∧ (s.putStq x).cam = s.cam ∧ (s.putStq x).upd = s.upd ∧ (s.putStq x).svc = s.svc ∧
    (s.putStq x).cart = s.cart ∧ (s.putStq x).pnl = s.pnl ∧ (s.putStq x).tim = s.tim ∧ (s.putStq x).gns = s.gns ∧
    (s.putStq x).nv = s.nv ∧ (s.putStq x).pwr = s.pwr ∧ (s.putStq x).aon = s.aon ∧ (s.putStq x).saf = s.saf ∧
    (s.putStq x).stq = x ∧ (s.putStq x).dmw = s.dmw ∧ (s.putStq x).pending = s.pending :=
  by simp only [State.putStq, and_self]

@[simp] theorem State.mailOf_putStq (s : State) (x : Option StqRun) (b : Block) : (s.putStq x).mailOf b = s.mailOf b := rfl

@[simp] theorem State.rd_putStq (s : State) (x : Option StqRun) (b : Block) (o : Nat) : (s.putStq x).rd b o = s.rd b o := rfl

/-- What `putDmw` sets and leaves. -/
@[simp] theorem State.putDmw_fields (s : State) (x : Dmw) :
    (s.putDmw x).regs = s.regs ∧ (s.putDmw x).mem = s.mem ∧ (s.putDmw x).resp = s.resp ∧ (s.putDmw x).clk = s.clk ∧
    (s.putDmw x).now = s.now ∧ (s.putDmw x).free = s.free ∧ (s.putDmw x).mail = s.mail ∧ (s.putDmw x).pgh = s.pgh ∧
    (s.putDmw x).fifo = s.fifo ∧ (s.putDmw x).cpus = s.cpus ∧ (s.putDmw x).tlb = s.tlb ∧
    (s.putDmw x).psync = s.psync ∧ (s.putDmw x).sbuf = s.sbuf ∧ (s.putDmw x).pickLast = s.pickLast ∧
    (s.putDmw x).ports = s.ports ∧ (s.putDmw x).poison = s.poison ∧ (s.putDmw x).latent = s.latent ∧
    (s.putDmw x).ceAt = s.ceAt ∧ (s.putDmw x).bur = s.bur ∧ (s.putDmw x).sys = s.sys ∧ (s.putDmw x).lsw = s.lsw ∧
    (s.putDmw x).vlv = s.vlv ∧ (s.putDmw x).lpe = s.lpe ∧ (s.putDmw x).emmc = s.emmc ∧ (s.putDmw x).aio = s.aio ∧
    (s.putDmw x).map = s.map ∧ (s.putDmw x).tbl = s.tbl ∧ (s.putDmw x).can = s.can ∧ (s.putDmw x).eth = s.eth ∧
    (s.putDmw x).pace = s.pace ∧ (s.putDmw x).cam = s.cam ∧ (s.putDmw x).upd = s.upd ∧ (s.putDmw x).svc = s.svc ∧
    (s.putDmw x).cart = s.cart ∧ (s.putDmw x).pnl = s.pnl ∧ (s.putDmw x).tim = s.tim ∧ (s.putDmw x).gns = s.gns ∧
    (s.putDmw x).nv = s.nv ∧ (s.putDmw x).pwr = s.pwr ∧ (s.putDmw x).aon = s.aon ∧ (s.putDmw x).saf = s.saf ∧
    (s.putDmw x).stq = s.stq ∧ (s.putDmw x).dmw = x ∧ (s.putDmw x).pending = s.pending :=
  by simp only [State.putDmw, and_self]

@[simp] theorem State.mailOf_putDmw (s : State) (x : Dmw) (b : Block) : (s.putDmw x).mailOf b = s.mailOf b := rfl

@[simp] theorem State.rd_putDmw (s : State) (x : Dmw) (b : Block) (o : Nat) : (s.putDmw x).rd b o = s.rd b o := rfl

/-- Setting a register changes the register windows alone. -/
@[simp] theorem State.wr_fields (s : State) (b : Block) (o : Nat) (w : Word) :
    (s.wr b o w).mem = s.mem ∧ (s.wr b o w).resp = s.resp ∧ (s.wr b o w).clk = s.clk ∧ (s.wr b o w).now = s.now ∧
    (s.wr b o w).free = s.free ∧ (s.wr b o w).mail = s.mail ∧ (s.wr b o w).pgh = s.pgh ∧ (s.wr b o w).fifo = s.fifo ∧
    (s.wr b o w).cpus = s.cpus ∧ (s.wr b o w).tlb = s.tlb ∧ (s.wr b o w).psync = s.psync ∧
    (s.wr b o w).sbuf = s.sbuf ∧ (s.wr b o w).pickLast = s.pickLast ∧ (s.wr b o w).ports = s.ports ∧
    (s.wr b o w).poison = s.poison ∧ (s.wr b o w).latent = s.latent ∧ (s.wr b o w).ceAt = s.ceAt ∧
    (s.wr b o w).bur = s.bur ∧ (s.wr b o w).sys = s.sys ∧ (s.wr b o w).lsw = s.lsw ∧ (s.wr b o w).vlv = s.vlv ∧
    (s.wr b o w).lpe = s.lpe ∧ (s.wr b o w).emmc = s.emmc ∧ (s.wr b o w).aio = s.aio ∧ (s.wr b o w).map = s.map ∧
    (s.wr b o w).tbl = s.tbl ∧ (s.wr b o w).can = s.can ∧ (s.wr b o w).eth = s.eth ∧ (s.wr b o w).pace = s.pace ∧
    (s.wr b o w).cam = s.cam ∧ (s.wr b o w).upd = s.upd ∧ (s.wr b o w).svc = s.svc ∧ (s.wr b o w).cart = s.cart ∧
    (s.wr b o w).pnl = s.pnl ∧ (s.wr b o w).tim = s.tim ∧ (s.wr b o w).gns = s.gns ∧ (s.wr b o w).nv = s.nv ∧
    (s.wr b o w).pwr = s.pwr ∧ (s.wr b o w).aon = s.aon ∧ (s.wr b o w).saf = s.saf ∧ (s.wr b o w).stq = s.stq ∧
    (s.wr b o w).dmw = s.dmw ∧ (s.wr b o w).pending = s.pending := by
  simp only [State.wr, and_self]

/-- `setF` changes the register windows alone. -/
@[simp] theorem State.setF_fields (s : State) (b : Block) (o hi lo v : Nat) :
    (s.setF b o hi lo v).mem = s.mem ∧ (s.setF b o hi lo v).resp = s.resp ∧ (s.setF b o hi lo v).clk = s.clk ∧
    (s.setF b o hi lo v).now = s.now ∧ (s.setF b o hi lo v).free = s.free ∧ (s.setF b o hi lo v).mail = s.mail ∧
    (s.setF b o hi lo v).pgh = s.pgh ∧ (s.setF b o hi lo v).fifo = s.fifo ∧ (s.setF b o hi lo v).cpus = s.cpus ∧
    (s.setF b o hi lo v).tlb = s.tlb ∧ (s.setF b o hi lo v).psync = s.psync ∧ (s.setF b o hi lo v).sbuf = s.sbuf ∧
    (s.setF b o hi lo v).pickLast = s.pickLast ∧ (s.setF b o hi lo v).ports = s.ports ∧
    (s.setF b o hi lo v).poison = s.poison ∧ (s.setF b o hi lo v).latent = s.latent ∧
    (s.setF b o hi lo v).ceAt = s.ceAt ∧ (s.setF b o hi lo v).bur = s.bur ∧ (s.setF b o hi lo v).sys = s.sys ∧
    (s.setF b o hi lo v).lsw = s.lsw ∧ (s.setF b o hi lo v).vlv = s.vlv ∧ (s.setF b o hi lo v).lpe = s.lpe ∧
    (s.setF b o hi lo v).emmc = s.emmc ∧ (s.setF b o hi lo v).aio = s.aio ∧ (s.setF b o hi lo v).map = s.map ∧
    (s.setF b o hi lo v).tbl = s.tbl ∧ (s.setF b o hi lo v).can = s.can ∧ (s.setF b o hi lo v).eth = s.eth ∧
    (s.setF b o hi lo v).pace = s.pace ∧ (s.setF b o hi lo v).cam = s.cam ∧ (s.setF b o hi lo v).upd = s.upd ∧
    (s.setF b o hi lo v).svc = s.svc ∧ (s.setF b o hi lo v).cart = s.cart ∧ (s.setF b o hi lo v).pnl = s.pnl ∧
    (s.setF b o hi lo v).tim = s.tim ∧ (s.setF b o hi lo v).gns = s.gns ∧ (s.setF b o hi lo v).nv = s.nv ∧
    (s.setF b o hi lo v).pwr = s.pwr ∧ (s.setF b o hi lo v).aon = s.aon ∧ (s.setF b o hi lo v).saf = s.saf ∧
    (s.setF b o hi lo v).stq = s.stq ∧ (s.setF b o hi lo v).dmw = s.dmw ∧ (s.setF b o hi lo v).pending = s.pending := by
  simp only [State.setF, State.wr_fields, and_self]

/-- `setBit` changes the register windows alone. -/
@[simp] theorem State.setBit_fields (s : State) (b : Block) (o i : Nat) (v : Bool) :
    (s.setBit b o i v).mem = s.mem ∧ (s.setBit b o i v).resp = s.resp ∧ (s.setBit b o i v).clk = s.clk ∧
    (s.setBit b o i v).now = s.now ∧ (s.setBit b o i v).free = s.free ∧ (s.setBit b o i v).mail = s.mail ∧
    (s.setBit b o i v).pgh = s.pgh ∧ (s.setBit b o i v).fifo = s.fifo ∧ (s.setBit b o i v).cpus = s.cpus ∧
    (s.setBit b o i v).tlb = s.tlb ∧ (s.setBit b o i v).psync = s.psync ∧ (s.setBit b o i v).sbuf = s.sbuf ∧
    (s.setBit b o i v).pickLast = s.pickLast ∧ (s.setBit b o i v).ports = s.ports ∧
    (s.setBit b o i v).poison = s.poison ∧ (s.setBit b o i v).latent = s.latent ∧ (s.setBit b o i v).ceAt = s.ceAt ∧
    (s.setBit b o i v).bur = s.bur ∧ (s.setBit b o i v).sys = s.sys ∧ (s.setBit b o i v).lsw = s.lsw ∧
    (s.setBit b o i v).vlv = s.vlv ∧ (s.setBit b o i v).lpe = s.lpe ∧ (s.setBit b o i v).emmc = s.emmc ∧
    (s.setBit b o i v).aio = s.aio ∧ (s.setBit b o i v).map = s.map ∧ (s.setBit b o i v).tbl = s.tbl ∧
    (s.setBit b o i v).can = s.can ∧ (s.setBit b o i v).eth = s.eth ∧ (s.setBit b o i v).pace = s.pace ∧
    (s.setBit b o i v).cam = s.cam ∧ (s.setBit b o i v).upd = s.upd ∧ (s.setBit b o i v).svc = s.svc ∧
    (s.setBit b o i v).cart = s.cart ∧ (s.setBit b o i v).pnl = s.pnl ∧ (s.setBit b o i v).tim = s.tim ∧
    (s.setBit b o i v).gns = s.gns ∧ (s.setBit b o i v).nv = s.nv ∧ (s.setBit b o i v).pwr = s.pwr ∧
    (s.setBit b o i v).aon = s.aon ∧ (s.setBit b o i v).saf = s.saf ∧ (s.setBit b o i v).stq = s.stq ∧
    (s.setBit b o i v).dmw = s.dmw ∧ (s.setBit b o i v).pending = s.pending := by
  simp only [State.setBit, State.wr_fields, and_self]

/-- `wrN` changes the register windows alone. -/
@[simp] theorem State.wrN_fields (s : State) (b : Block) (o v : Nat) :
    (s.wrN b o v).mem = s.mem ∧ (s.wrN b o v).resp = s.resp ∧ (s.wrN b o v).clk = s.clk ∧ (s.wrN b o v).now = s.now ∧
    (s.wrN b o v).free = s.free ∧ (s.wrN b o v).mail = s.mail ∧ (s.wrN b o v).pgh = s.pgh ∧
    (s.wrN b o v).fifo = s.fifo ∧ (s.wrN b o v).cpus = s.cpus ∧ (s.wrN b o v).tlb = s.tlb ∧
    (s.wrN b o v).psync = s.psync ∧ (s.wrN b o v).sbuf = s.sbuf ∧ (s.wrN b o v).pickLast = s.pickLast ∧
    (s.wrN b o v).ports = s.ports ∧ (s.wrN b o v).poison = s.poison ∧ (s.wrN b o v).latent = s.latent ∧
    (s.wrN b o v).ceAt = s.ceAt ∧ (s.wrN b o v).bur = s.bur ∧ (s.wrN b o v).sys = s.sys ∧ (s.wrN b o v).lsw = s.lsw ∧
    (s.wrN b o v).vlv = s.vlv ∧ (s.wrN b o v).lpe = s.lpe ∧ (s.wrN b o v).emmc = s.emmc ∧ (s.wrN b o v).aio = s.aio ∧
    (s.wrN b o v).map = s.map ∧ (s.wrN b o v).tbl = s.tbl ∧ (s.wrN b o v).can = s.can ∧ (s.wrN b o v).eth = s.eth ∧
    (s.wrN b o v).pace = s.pace ∧ (s.wrN b o v).cam = s.cam ∧ (s.wrN b o v).upd = s.upd ∧ (s.wrN b o v).svc = s.svc ∧
    (s.wrN b o v).cart = s.cart ∧ (s.wrN b o v).pnl = s.pnl ∧ (s.wrN b o v).tim = s.tim ∧ (s.wrN b o v).gns = s.gns ∧
    (s.wrN b o v).nv = s.nv ∧ (s.wrN b o v).pwr = s.pwr ∧ (s.wrN b o v).aon = s.aon ∧ (s.wrN b o v).saf = s.saf ∧
    (s.wrN b o v).stq = s.stq ∧ (s.wrN b o v).dmw = s.dmw ∧ (s.wrN b o v).pending = s.pending := by
  simp only [State.wrN, State.wr_fields, and_self]

/-- `incF` changes the register windows alone. -/
@[simp] theorem State.incF_fields (s : State) (b : Block) (o hi lo n : Nat) :
    (s.incF b o hi lo n).mem = s.mem ∧ (s.incF b o hi lo n).resp = s.resp ∧ (s.incF b o hi lo n).clk = s.clk ∧
    (s.incF b o hi lo n).now = s.now ∧ (s.incF b o hi lo n).free = s.free ∧ (s.incF b o hi lo n).mail = s.mail ∧
    (s.incF b o hi lo n).pgh = s.pgh ∧ (s.incF b o hi lo n).fifo = s.fifo ∧ (s.incF b o hi lo n).cpus = s.cpus ∧
    (s.incF b o hi lo n).tlb = s.tlb ∧ (s.incF b o hi lo n).psync = s.psync ∧ (s.incF b o hi lo n).sbuf = s.sbuf ∧
    (s.incF b o hi lo n).pickLast = s.pickLast ∧ (s.incF b o hi lo n).ports = s.ports ∧
    (s.incF b o hi lo n).poison = s.poison ∧ (s.incF b o hi lo n).latent = s.latent ∧
    (s.incF b o hi lo n).ceAt = s.ceAt ∧ (s.incF b o hi lo n).bur = s.bur ∧ (s.incF b o hi lo n).sys = s.sys ∧
    (s.incF b o hi lo n).lsw = s.lsw ∧ (s.incF b o hi lo n).vlv = s.vlv ∧ (s.incF b o hi lo n).lpe = s.lpe ∧
    (s.incF b o hi lo n).emmc = s.emmc ∧ (s.incF b o hi lo n).aio = s.aio ∧ (s.incF b o hi lo n).map = s.map ∧
    (s.incF b o hi lo n).tbl = s.tbl ∧ (s.incF b o hi lo n).can = s.can ∧ (s.incF b o hi lo n).eth = s.eth ∧
    (s.incF b o hi lo n).pace = s.pace ∧ (s.incF b o hi lo n).cam = s.cam ∧ (s.incF b o hi lo n).upd = s.upd ∧
    (s.incF b o hi lo n).svc = s.svc ∧ (s.incF b o hi lo n).cart = s.cart ∧ (s.incF b o hi lo n).pnl = s.pnl ∧
    (s.incF b o hi lo n).tim = s.tim ∧ (s.incF b o hi lo n).gns = s.gns ∧ (s.incF b o hi lo n).nv = s.nv ∧
    (s.incF b o hi lo n).pwr = s.pwr ∧ (s.incF b o hi lo n).aon = s.aon ∧ (s.incF b o hi lo n).saf = s.saf ∧
    (s.incF b o hi lo n).stq = s.stq ∧ (s.incF b o hi lo n).dmw = s.dmw ∧ (s.incF b o hi lo n).pending = s.pending := by
  simp only [State.incF, State.setF, State.wr_fields, and_self]

/-- A record entered changes the Bureau and its registers alone. -/
@[simp] theorem State.burEnter_fields (s : State) (r : BurRec) :
    (s.burEnter r).mem = s.mem ∧ (s.burEnter r).resp = s.resp ∧ (s.burEnter r).clk = s.clk ∧
    (s.burEnter r).now = s.now ∧ (s.burEnter r).free = s.free ∧ (s.burEnter r).mail = s.mail ∧
    (s.burEnter r).pgh = s.pgh ∧ (s.burEnter r).fifo = s.fifo ∧ (s.burEnter r).cpus = s.cpus ∧
    (s.burEnter r).tlb = s.tlb ∧ (s.burEnter r).psync = s.psync ∧ (s.burEnter r).sbuf = s.sbuf ∧
    (s.burEnter r).pickLast = s.pickLast ∧ (s.burEnter r).ports = s.ports ∧ (s.burEnter r).poison = s.poison ∧
    (s.burEnter r).latent = s.latent ∧ (s.burEnter r).ceAt = s.ceAt ∧ (s.burEnter r).sys = s.sys ∧
    (s.burEnter r).lsw = s.lsw ∧ (s.burEnter r).vlv = s.vlv ∧ (s.burEnter r).lpe = s.lpe ∧
    (s.burEnter r).emmc = s.emmc ∧ (s.burEnter r).aio = s.aio ∧ (s.burEnter r).map = s.map ∧
    (s.burEnter r).tbl = s.tbl ∧ (s.burEnter r).can = s.can ∧ (s.burEnter r).eth = s.eth ∧
    (s.burEnter r).pace = s.pace ∧ (s.burEnter r).cam = s.cam ∧ (s.burEnter r).upd = s.upd ∧
    (s.burEnter r).svc = s.svc ∧ (s.burEnter r).cart = s.cart ∧ (s.burEnter r).pnl = s.pnl ∧
    (s.burEnter r).tim = s.tim ∧ (s.burEnter r).gns = s.gns ∧ (s.burEnter r).nv = s.nv ∧ (s.burEnter r).pwr = s.pwr ∧
    (s.burEnter r).aon = s.aon ∧ (s.burEnter r).saf = s.saf ∧ (s.burEnter r).stq = s.stq ∧
    (s.burEnter r).dmw = s.dmw ∧ (s.burEnter r).pending = s.pending := by
  simp only [State.burEnter, State.burShow]
  split <;> simp

/-- A raise that counts changes the registers and the pigeonholes' counts alone. -/
@[simp] theorem State.phCount_fields (s : State) (p : Nat) :
    (s.phCount p).mem = s.mem ∧ (s.phCount p).resp = s.resp ∧ (s.phCount p).clk = s.clk ∧ (s.phCount p).now = s.now ∧
    (s.phCount p).free = s.free ∧ (s.phCount p).mail = s.mail ∧ (s.phCount p).fifo = s.fifo ∧
    (s.phCount p).cpus = s.cpus ∧ (s.phCount p).tlb = s.tlb ∧ (s.phCount p).psync = s.psync ∧
    (s.phCount p).sbuf = s.sbuf ∧ (s.phCount p).pickLast = s.pickLast ∧ (s.phCount p).ports = s.ports ∧
    (s.phCount p).poison = s.poison ∧ (s.phCount p).latent = s.latent ∧ (s.phCount p).ceAt = s.ceAt ∧
    (s.phCount p).bur = s.bur ∧ (s.phCount p).sys = s.sys ∧ (s.phCount p).lsw = s.lsw ∧ (s.phCount p).vlv = s.vlv ∧
    (s.phCount p).lpe = s.lpe ∧ (s.phCount p).emmc = s.emmc ∧ (s.phCount p).aio = s.aio ∧ (s.phCount p).map = s.map ∧
    (s.phCount p).tbl = s.tbl ∧ (s.phCount p).can = s.can ∧ (s.phCount p).eth = s.eth ∧ (s.phCount p).pace = s.pace ∧
    (s.phCount p).cam = s.cam ∧ (s.phCount p).upd = s.upd ∧ (s.phCount p).svc = s.svc ∧ (s.phCount p).cart = s.cart ∧
    (s.phCount p).pnl = s.pnl ∧ (s.phCount p).tim = s.tim ∧ (s.phCount p).gns = s.gns ∧ (s.phCount p).nv = s.nv ∧
    (s.phCount p).pwr = s.pwr ∧ (s.phCount p).aon = s.aon ∧ (s.phCount p).saf = s.saf ∧ (s.phCount p).stq = s.stq ∧
    (s.phCount p).dmw = s.dmw ∧ (s.phCount p).pending = s.pending := by
  simp only [State.phCount, State.setPend]
  split <;> split <;> split <;> simp

/-- A raise changes the registers, the pigeonholes' counts and the Bureau alone. -/
@[simp] theorem State.phRaise_fields (s : State) (p : Nat) (r : BurRec) :
    (s.phRaise p r).mem = s.mem ∧ (s.phRaise p r).resp = s.resp ∧ (s.phRaise p r).clk = s.clk ∧
    (s.phRaise p r).now = s.now ∧ (s.phRaise p r).free = s.free ∧ (s.phRaise p r).mail = s.mail ∧
    (s.phRaise p r).fifo = s.fifo ∧ (s.phRaise p r).cpus = s.cpus ∧ (s.phRaise p r).tlb = s.tlb ∧
    (s.phRaise p r).psync = s.psync ∧ (s.phRaise p r).sbuf = s.sbuf ∧ (s.phRaise p r).pickLast = s.pickLast ∧
    (s.phRaise p r).ports = s.ports ∧ (s.phRaise p r).poison = s.poison ∧ (s.phRaise p r).latent = s.latent ∧
    (s.phRaise p r).ceAt = s.ceAt ∧ (s.phRaise p r).sys = s.sys ∧ (s.phRaise p r).lsw = s.lsw ∧
    (s.phRaise p r).vlv = s.vlv ∧ (s.phRaise p r).lpe = s.lpe ∧ (s.phRaise p r).emmc = s.emmc ∧
    (s.phRaise p r).aio = s.aio ∧ (s.phRaise p r).map = s.map ∧ (s.phRaise p r).tbl = s.tbl ∧
    (s.phRaise p r).can = s.can ∧ (s.phRaise p r).eth = s.eth ∧ (s.phRaise p r).pace = s.pace ∧
    (s.phRaise p r).cam = s.cam ∧ (s.phRaise p r).upd = s.upd ∧ (s.phRaise p r).svc = s.svc ∧
    (s.phRaise p r).cart = s.cart ∧ (s.phRaise p r).pnl = s.pnl ∧ (s.phRaise p r).tim = s.tim ∧
    (s.phRaise p r).gns = s.gns ∧ (s.phRaise p r).nv = s.nv ∧ (s.phRaise p r).pwr = s.pwr ∧
    (s.phRaise p r).aon = s.aon ∧ (s.phRaise p r).saf = s.saf ∧ (s.phRaise p r).stq = s.stq ∧
    (s.phRaise p r).dmw = s.dmw ∧ (s.phRaise p r).pending = s.pending := by
  simp only [State.phRaise]
  split <;> simp

/-- An event changes the registers, the pigeonholes' counts and the Bureau alone. -/
@[simp] theorem State.eventAt_fields (s : State) (e : EvSrc) (bit ph : Nat) :
    (s.eventAt e bit ph).mem = s.mem ∧ (s.eventAt e bit ph).resp = s.resp ∧ (s.eventAt e bit ph).clk = s.clk ∧
    (s.eventAt e bit ph).now = s.now ∧ (s.eventAt e bit ph).free = s.free ∧ (s.eventAt e bit ph).mail = s.mail ∧
    (s.eventAt e bit ph).fifo = s.fifo ∧ (s.eventAt e bit ph).cpus = s.cpus ∧ (s.eventAt e bit ph).tlb = s.tlb ∧
    (s.eventAt e bit ph).psync = s.psync ∧ (s.eventAt e bit ph).sbuf = s.sbuf ∧
    (s.eventAt e bit ph).pickLast = s.pickLast ∧ (s.eventAt e bit ph).ports = s.ports ∧
    (s.eventAt e bit ph).poison = s.poison ∧ (s.eventAt e bit ph).latent = s.latent ∧
    (s.eventAt e bit ph).ceAt = s.ceAt ∧ (s.eventAt e bit ph).sys = s.sys ∧ (s.eventAt e bit ph).lsw = s.lsw ∧
    (s.eventAt e bit ph).vlv = s.vlv ∧ (s.eventAt e bit ph).lpe = s.lpe ∧ (s.eventAt e bit ph).emmc = s.emmc ∧
    (s.eventAt e bit ph).aio = s.aio ∧ (s.eventAt e bit ph).map = s.map ∧ (s.eventAt e bit ph).tbl = s.tbl ∧
    (s.eventAt e bit ph).can = s.can ∧ (s.eventAt e bit ph).eth = s.eth ∧ (s.eventAt e bit ph).pace = s.pace ∧
    (s.eventAt e bit ph).cam = s.cam ∧ (s.eventAt e bit ph).upd = s.upd ∧ (s.eventAt e bit ph).svc = s.svc ∧
    (s.eventAt e bit ph).cart = s.cart ∧ (s.eventAt e bit ph).pnl = s.pnl ∧ (s.eventAt e bit ph).tim = s.tim ∧
    (s.eventAt e bit ph).gns = s.gns ∧ (s.eventAt e bit ph).nv = s.nv ∧ (s.eventAt e bit ph).pwr = s.pwr ∧
    (s.eventAt e bit ph).aon = s.aon ∧ (s.eventAt e bit ph).saf = s.saf ∧ (s.eventAt e bit ph).stq = s.stq ∧
    (s.eventAt e bit ph).dmw = s.dmw ∧ (s.eventAt e bit ph).pending = s.pending := by
  simp only [State.eventAt]
  split <;> simp

/-- `eventSrc` changes the registers, the pigeonholes' counts and the Bureau alone. -/
@[simp] theorem State.eventSrc_fields (s : State) (b : Block) (bit src : Nat) :
    (s.eventSrc b bit src).mem = s.mem ∧ (s.eventSrc b bit src).resp = s.resp ∧ (s.eventSrc b bit src).clk = s.clk ∧
    (s.eventSrc b bit src).now = s.now ∧ (s.eventSrc b bit src).free = s.free ∧
    (s.eventSrc b bit src).mail = s.mail ∧ (s.eventSrc b bit src).fifo = s.fifo ∧
    (s.eventSrc b bit src).cpus = s.cpus ∧ (s.eventSrc b bit src).tlb = s.tlb ∧
    (s.eventSrc b bit src).psync = s.psync ∧ (s.eventSrc b bit src).sbuf = s.sbuf ∧
    (s.eventSrc b bit src).pickLast = s.pickLast ∧ (s.eventSrc b bit src).ports = s.ports ∧
    (s.eventSrc b bit src).poison = s.poison ∧ (s.eventSrc b bit src).latent = s.latent ∧
    (s.eventSrc b bit src).ceAt = s.ceAt ∧ (s.eventSrc b bit src).sys = s.sys ∧ (s.eventSrc b bit src).lsw = s.lsw ∧
    (s.eventSrc b bit src).vlv = s.vlv ∧ (s.eventSrc b bit src).lpe = s.lpe ∧ (s.eventSrc b bit src).emmc = s.emmc ∧
    (s.eventSrc b bit src).aio = s.aio ∧ (s.eventSrc b bit src).map = s.map ∧ (s.eventSrc b bit src).tbl = s.tbl ∧
    (s.eventSrc b bit src).can = s.can ∧ (s.eventSrc b bit src).eth = s.eth ∧ (s.eventSrc b bit src).pace = s.pace ∧
    (s.eventSrc b bit src).cam = s.cam ∧ (s.eventSrc b bit src).upd = s.upd ∧ (s.eventSrc b bit src).svc = s.svc ∧
    (s.eventSrc b bit src).cart = s.cart ∧ (s.eventSrc b bit src).pnl = s.pnl ∧ (s.eventSrc b bit src).tim = s.tim ∧
    (s.eventSrc b bit src).gns = s.gns ∧ (s.eventSrc b bit src).nv = s.nv ∧ (s.eventSrc b bit src).pwr = s.pwr ∧
    (s.eventSrc b bit src).aon = s.aon ∧ (s.eventSrc b bit src).saf = s.saf ∧ (s.eventSrc b bit src).stq = s.stq ∧
    (s.eventSrc b bit src).dmw = s.dmw ∧ (s.eventSrc b bit src).pending = s.pending := by
  simp only [State.eventSrc, State.eventAt_fields, and_self]

/-- `event` changes the registers, the pigeonholes' counts and the Bureau alone. -/
@[simp] theorem State.event_fields (s : State) (b : Block) (bit : Nat) :
    (s.event b bit).mem = s.mem ∧ (s.event b bit).resp = s.resp ∧ (s.event b bit).clk = s.clk ∧
    (s.event b bit).now = s.now ∧ (s.event b bit).free = s.free ∧ (s.event b bit).mail = s.mail ∧
    (s.event b bit).fifo = s.fifo ∧ (s.event b bit).cpus = s.cpus ∧ (s.event b bit).tlb = s.tlb ∧
    (s.event b bit).psync = s.psync ∧ (s.event b bit).sbuf = s.sbuf ∧ (s.event b bit).pickLast = s.pickLast ∧
    (s.event b bit).ports = s.ports ∧ (s.event b bit).poison = s.poison ∧ (s.event b bit).latent = s.latent ∧
    (s.event b bit).ceAt = s.ceAt ∧ (s.event b bit).sys = s.sys ∧ (s.event b bit).lsw = s.lsw ∧
    (s.event b bit).vlv = s.vlv ∧ (s.event b bit).lpe = s.lpe ∧ (s.event b bit).emmc = s.emmc ∧
    (s.event b bit).aio = s.aio ∧ (s.event b bit).map = s.map ∧ (s.event b bit).tbl = s.tbl ∧
    (s.event b bit).can = s.can ∧ (s.event b bit).eth = s.eth ∧ (s.event b bit).pace = s.pace ∧
    (s.event b bit).cam = s.cam ∧ (s.event b bit).upd = s.upd ∧ (s.event b bit).svc = s.svc ∧
    (s.event b bit).cart = s.cart ∧ (s.event b bit).pnl = s.pnl ∧ (s.event b bit).tim = s.tim ∧
    (s.event b bit).gns = s.gns ∧ (s.event b bit).nv = s.nv ∧ (s.event b bit).pwr = s.pwr ∧
    (s.event b bit).aon = s.aon ∧ (s.event b bit).saf = s.saf ∧ (s.event b bit).stq = s.stq ∧
    (s.event b bit).dmw = s.dmw ∧ (s.event b bit).pending = s.pending := by
  simp only [State.event, State.eventSrc, State.eventAt_fields, and_self]

/-- `vlvEvent` changes the registers, the pigeonholes' counts and the Bureau alone. -/
@[simp] theorem State.vlvEvent_fields (s : State) (n bit : Nat) :
    (s.vlvEvent n bit).mem = s.mem ∧ (s.vlvEvent n bit).resp = s.resp ∧ (s.vlvEvent n bit).clk = s.clk ∧
    (s.vlvEvent n bit).now = s.now ∧ (s.vlvEvent n bit).free = s.free ∧ (s.vlvEvent n bit).mail = s.mail ∧
    (s.vlvEvent n bit).fifo = s.fifo ∧ (s.vlvEvent n bit).cpus = s.cpus ∧ (s.vlvEvent n bit).tlb = s.tlb ∧
    (s.vlvEvent n bit).psync = s.psync ∧ (s.vlvEvent n bit).sbuf = s.sbuf ∧
    (s.vlvEvent n bit).pickLast = s.pickLast ∧ (s.vlvEvent n bit).ports = s.ports ∧
    (s.vlvEvent n bit).poison = s.poison ∧ (s.vlvEvent n bit).latent = s.latent ∧ (s.vlvEvent n bit).ceAt = s.ceAt ∧
    (s.vlvEvent n bit).sys = s.sys ∧ (s.vlvEvent n bit).lsw = s.lsw ∧ (s.vlvEvent n bit).vlv = s.vlv ∧
    (s.vlvEvent n bit).lpe = s.lpe ∧ (s.vlvEvent n bit).emmc = s.emmc ∧ (s.vlvEvent n bit).aio = s.aio ∧
    (s.vlvEvent n bit).map = s.map ∧ (s.vlvEvent n bit).tbl = s.tbl ∧ (s.vlvEvent n bit).can = s.can ∧
    (s.vlvEvent n bit).eth = s.eth ∧ (s.vlvEvent n bit).pace = s.pace ∧ (s.vlvEvent n bit).cam = s.cam ∧
    (s.vlvEvent n bit).upd = s.upd ∧ (s.vlvEvent n bit).svc = s.svc ∧ (s.vlvEvent n bit).cart = s.cart ∧
    (s.vlvEvent n bit).pnl = s.pnl ∧ (s.vlvEvent n bit).tim = s.tim ∧ (s.vlvEvent n bit).gns = s.gns ∧
    (s.vlvEvent n bit).nv = s.nv ∧ (s.vlvEvent n bit).pwr = s.pwr ∧ (s.vlvEvent n bit).aon = s.aon ∧
    (s.vlvEvent n bit).saf = s.saf ∧ (s.vlvEvent n bit).stq = s.stq ∧ (s.vlvEvent n bit).dmw = s.dmw ∧
    (s.vlvEvent n bit).pending = s.pending := by
  simp only [State.vlvEvent, State.eventAt_fields, and_self]

/-- `lswEvent` changes the registers, the pigeonholes' counts and the Bureau alone. -/
@[simp] theorem State.lswEvent_fields (s : State) (n bit : Nat) :
    (s.lswEvent n bit).mem = s.mem ∧ (s.lswEvent n bit).resp = s.resp ∧ (s.lswEvent n bit).clk = s.clk ∧
    (s.lswEvent n bit).now = s.now ∧ (s.lswEvent n bit).free = s.free ∧ (s.lswEvent n bit).mail = s.mail ∧
    (s.lswEvent n bit).fifo = s.fifo ∧ (s.lswEvent n bit).cpus = s.cpus ∧ (s.lswEvent n bit).tlb = s.tlb ∧
    (s.lswEvent n bit).psync = s.psync ∧ (s.lswEvent n bit).sbuf = s.sbuf ∧
    (s.lswEvent n bit).pickLast = s.pickLast ∧ (s.lswEvent n bit).ports = s.ports ∧
    (s.lswEvent n bit).poison = s.poison ∧ (s.lswEvent n bit).latent = s.latent ∧ (s.lswEvent n bit).ceAt = s.ceAt ∧
    (s.lswEvent n bit).sys = s.sys ∧ (s.lswEvent n bit).lsw = s.lsw ∧ (s.lswEvent n bit).vlv = s.vlv ∧
    (s.lswEvent n bit).lpe = s.lpe ∧ (s.lswEvent n bit).emmc = s.emmc ∧ (s.lswEvent n bit).aio = s.aio ∧
    (s.lswEvent n bit).map = s.map ∧ (s.lswEvent n bit).tbl = s.tbl ∧ (s.lswEvent n bit).can = s.can ∧
    (s.lswEvent n bit).eth = s.eth ∧ (s.lswEvent n bit).pace = s.pace ∧ (s.lswEvent n bit).cam = s.cam ∧
    (s.lswEvent n bit).upd = s.upd ∧ (s.lswEvent n bit).svc = s.svc ∧ (s.lswEvent n bit).cart = s.cart ∧
    (s.lswEvent n bit).pnl = s.pnl ∧ (s.lswEvent n bit).tim = s.tim ∧ (s.lswEvent n bit).gns = s.gns ∧
    (s.lswEvent n bit).nv = s.nv ∧ (s.lswEvent n bit).pwr = s.pwr ∧ (s.lswEvent n bit).aon = s.aon ∧
    (s.lswEvent n bit).saf = s.saf ∧ (s.lswEvent n bit).stq = s.stq ∧ (s.lswEvent n bit).dmw = s.dmw ∧
    (s.lswEvent n bit).pending = s.pending := by
  simp only [State.lswEvent, State.eventAt_fields, and_self]

/-- `canEvent` changes the registers, the pigeonholes' counts and the Bureau alone. -/
@[simp] theorem State.canEvent_fields (s : State) (n bit : Nat) :
    (s.canEvent n bit).mem = s.mem ∧ (s.canEvent n bit).resp = s.resp ∧ (s.canEvent n bit).clk = s.clk ∧
    (s.canEvent n bit).now = s.now ∧ (s.canEvent n bit).free = s.free ∧ (s.canEvent n bit).mail = s.mail ∧
    (s.canEvent n bit).fifo = s.fifo ∧ (s.canEvent n bit).cpus = s.cpus ∧ (s.canEvent n bit).tlb = s.tlb ∧
    (s.canEvent n bit).psync = s.psync ∧ (s.canEvent n bit).sbuf = s.sbuf ∧
    (s.canEvent n bit).pickLast = s.pickLast ∧ (s.canEvent n bit).ports = s.ports ∧
    (s.canEvent n bit).poison = s.poison ∧ (s.canEvent n bit).latent = s.latent ∧ (s.canEvent n bit).ceAt = s.ceAt ∧
    (s.canEvent n bit).sys = s.sys ∧ (s.canEvent n bit).lsw = s.lsw ∧ (s.canEvent n bit).vlv = s.vlv ∧
    (s.canEvent n bit).lpe = s.lpe ∧ (s.canEvent n bit).emmc = s.emmc ∧ (s.canEvent n bit).aio = s.aio ∧
    (s.canEvent n bit).map = s.map ∧ (s.canEvent n bit).tbl = s.tbl ∧ (s.canEvent n bit).can = s.can ∧
    (s.canEvent n bit).eth = s.eth ∧ (s.canEvent n bit).pace = s.pace ∧ (s.canEvent n bit).cam = s.cam ∧
    (s.canEvent n bit).upd = s.upd ∧ (s.canEvent n bit).svc = s.svc ∧ (s.canEvent n bit).cart = s.cart ∧
    (s.canEvent n bit).pnl = s.pnl ∧ (s.canEvent n bit).tim = s.tim ∧ (s.canEvent n bit).gns = s.gns ∧
    (s.canEvent n bit).nv = s.nv ∧ (s.canEvent n bit).pwr = s.pwr ∧ (s.canEvent n bit).aon = s.aon ∧
    (s.canEvent n bit).saf = s.saf ∧ (s.canEvent n bit).stq = s.stq ∧ (s.canEvent n bit).dmw = s.dmw ∧
    (s.canEvent n bit).pending = s.pending := by
  simp only [State.canEvent, State.eventAt_fields, and_self]

/-- An event of several controllers changes the registers, the pigeonholes' counts and the Bureau alone. -/
@[simp] theorem State.canEvents_fields (s : State) (l : List Nat) (i : Nat) :
    (s.each l (fun s n => s.canEvent n i)).mem = s.mem ∧ (s.each l (fun s n => s.canEvent n i)).resp = s.resp ∧
    (s.each l (fun s n => s.canEvent n i)).clk = s.clk ∧ (s.each l (fun s n => s.canEvent n i)).now = s.now ∧
    (s.each l (fun s n => s.canEvent n i)).free = s.free ∧ (s.each l (fun s n => s.canEvent n i)).mail = s.mail ∧
    (s.each l (fun s n => s.canEvent n i)).fifo = s.fifo ∧ (s.each l (fun s n => s.canEvent n i)).cpus = s.cpus ∧
    (s.each l (fun s n => s.canEvent n i)).tlb = s.tlb ∧ (s.each l (fun s n => s.canEvent n i)).psync = s.psync ∧
    (s.each l (fun s n => s.canEvent n i)).sbuf = s.sbuf ∧
    (s.each l (fun s n => s.canEvent n i)).pickLast = s.pickLast ∧
    (s.each l (fun s n => s.canEvent n i)).ports = s.ports ∧
    (s.each l (fun s n => s.canEvent n i)).poison = s.poison ∧
    (s.each l (fun s n => s.canEvent n i)).latent = s.latent ∧ (s.each l (fun s n => s.canEvent n i)).ceAt = s.ceAt ∧
    (s.each l (fun s n => s.canEvent n i)).sys = s.sys ∧ (s.each l (fun s n => s.canEvent n i)).lsw = s.lsw ∧
    (s.each l (fun s n => s.canEvent n i)).vlv = s.vlv ∧ (s.each l (fun s n => s.canEvent n i)).lpe = s.lpe ∧
    (s.each l (fun s n => s.canEvent n i)).emmc = s.emmc ∧ (s.each l (fun s n => s.canEvent n i)).aio = s.aio ∧
    (s.each l (fun s n => s.canEvent n i)).map = s.map ∧ (s.each l (fun s n => s.canEvent n i)).tbl = s.tbl ∧
    (s.each l (fun s n => s.canEvent n i)).can = s.can ∧ (s.each l (fun s n => s.canEvent n i)).eth = s.eth ∧
    (s.each l (fun s n => s.canEvent n i)).pace = s.pace ∧ (s.each l (fun s n => s.canEvent n i)).cam = s.cam ∧
    (s.each l (fun s n => s.canEvent n i)).upd = s.upd ∧ (s.each l (fun s n => s.canEvent n i)).svc = s.svc ∧
    (s.each l (fun s n => s.canEvent n i)).cart = s.cart ∧ (s.each l (fun s n => s.canEvent n i)).pnl = s.pnl ∧
    (s.each l (fun s n => s.canEvent n i)).tim = s.tim ∧ (s.each l (fun s n => s.canEvent n i)).gns = s.gns ∧
    (s.each l (fun s n => s.canEvent n i)).nv = s.nv ∧ (s.each l (fun s n => s.canEvent n i)).pwr = s.pwr ∧
    (s.each l (fun s n => s.canEvent n i)).aon = s.aon ∧ (s.each l (fun s n => s.canEvent n i)).saf = s.saf ∧
    (s.each l (fun s n => s.canEvent n i)).stq = s.stq ∧ (s.each l (fun s n => s.canEvent n i)).dmw = s.dmw ∧
    (s.each l (fun s n => s.canEvent n i)).pending = s.pending := by
  induction l generalizing s with
  | nil => simp [State.each]
  | cons x l ih =>
    have := ih (s.canEvent x i)
    simp only [State.canEvent_fields] at this
    exact this

/-- The end of a command shown changes the registers, the pigeonholes' counts and the Bureau alone. -/
@[simp] theorem State.cmdShow_fields (s : State) (b : Block) (c : Nat) (args : List Word) (r : Result) :
    (s.cmdShow b c args r).mem = s.mem ∧ (s.cmdShow b c args r).resp = s.resp ∧ (s.cmdShow b c args r).clk = s.clk ∧
    (s.cmdShow b c args r).now = s.now ∧ (s.cmdShow b c args r).free = s.free ∧
    (s.cmdShow b c args r).mail = s.mail ∧ (s.cmdShow b c args r).fifo = s.fifo ∧
    (s.cmdShow b c args r).cpus = s.cpus ∧ (s.cmdShow b c args r).tlb = s.tlb ∧
    (s.cmdShow b c args r).psync = s.psync ∧ (s.cmdShow b c args r).sbuf = s.sbuf ∧
    (s.cmdShow b c args r).pickLast = s.pickLast ∧ (s.cmdShow b c args r).ports = s.ports ∧
    (s.cmdShow b c args r).poison = s.poison ∧ (s.cmdShow b c args r).latent = s.latent ∧
    (s.cmdShow b c args r).ceAt = s.ceAt ∧ (s.cmdShow b c args r).sys = s.sys ∧ (s.cmdShow b c args r).lsw = s.lsw ∧
    (s.cmdShow b c args r).vlv = s.vlv ∧ (s.cmdShow b c args r).lpe = s.lpe ∧ (s.cmdShow b c args r).emmc = s.emmc ∧
    (s.cmdShow b c args r).aio = s.aio ∧ (s.cmdShow b c args r).map = s.map ∧ (s.cmdShow b c args r).tbl = s.tbl ∧
    (s.cmdShow b c args r).can = s.can ∧ (s.cmdShow b c args r).eth = s.eth ∧ (s.cmdShow b c args r).pace = s.pace ∧
    (s.cmdShow b c args r).cam = s.cam ∧ (s.cmdShow b c args r).upd = s.upd ∧ (s.cmdShow b c args r).svc = s.svc ∧
    (s.cmdShow b c args r).cart = s.cart ∧ (s.cmdShow b c args r).pnl = s.pnl ∧ (s.cmdShow b c args r).tim = s.tim ∧
    (s.cmdShow b c args r).gns = s.gns ∧ (s.cmdShow b c args r).nv = s.nv ∧ (s.cmdShow b c args r).pwr = s.pwr ∧
    (s.cmdShow b c args r).aon = s.aon ∧ (s.cmdShow b c args r).saf = s.saf ∧ (s.cmdShow b c args r).stq = s.stq ∧
    (s.cmdShow b c args r).dmw = s.dmw ∧ (s.cmdShow b c args r).pending = s.pending := by
  simp only [State.cmdShow]
  split
  · simp
  · split <;> simp

/-- Setting a mailbox changes the mailboxes alone. -/
@[simp] theorem State.setMail_fields (s : State) (b : Block) (m : Mail) :
    (s.setMail b m).regs = s.regs ∧ (s.setMail b m).mem = s.mem ∧ (s.setMail b m).resp = s.resp ∧
    (s.setMail b m).clk = s.clk ∧ (s.setMail b m).now = s.now ∧ (s.setMail b m).free = s.free ∧
    (s.setMail b m).pgh = s.pgh ∧ (s.setMail b m).fifo = s.fifo ∧ (s.setMail b m).cpus = s.cpus ∧
    (s.setMail b m).tlb = s.tlb ∧ (s.setMail b m).psync = s.psync ∧ (s.setMail b m).sbuf = s.sbuf ∧
    (s.setMail b m).pickLast = s.pickLast ∧ (s.setMail b m).ports = s.ports ∧ (s.setMail b m).poison = s.poison ∧
    (s.setMail b m).latent = s.latent ∧ (s.setMail b m).ceAt = s.ceAt ∧ (s.setMail b m).bur = s.bur ∧
    (s.setMail b m).sys = s.sys ∧ (s.setMail b m).lsw = s.lsw ∧ (s.setMail b m).vlv = s.vlv ∧
    (s.setMail b m).lpe = s.lpe ∧ (s.setMail b m).emmc = s.emmc ∧ (s.setMail b m).aio = s.aio ∧
    (s.setMail b m).map = s.map ∧ (s.setMail b m).tbl = s.tbl ∧ (s.setMail b m).can = s.can ∧
    (s.setMail b m).eth = s.eth ∧ (s.setMail b m).pace = s.pace ∧ (s.setMail b m).cam = s.cam ∧
    (s.setMail b m).upd = s.upd ∧ (s.setMail b m).svc = s.svc ∧ (s.setMail b m).cart = s.cart ∧
    (s.setMail b m).pnl = s.pnl ∧ (s.setMail b m).tim = s.tim ∧ (s.setMail b m).gns = s.gns ∧
    (s.setMail b m).nv = s.nv ∧ (s.setMail b m).pwr = s.pwr ∧ (s.setMail b m).aon = s.aon ∧
    (s.setMail b m).saf = s.saf ∧ (s.setMail b m).stq = s.stq ∧ (s.setMail b m).dmw = s.dmw ∧
    (s.setMail b m).pending = s.pending := by
  simp [State.setMail]

/-- The end of a command changes the registers, the mailboxes, the pigeonholes' counts and the Bureau alone. -/
@[simp] theorem State.cmdEnd_fields (s : State) (b : Block) (r : Result) :
    (s.cmdEnd b r).mem = s.mem ∧ (s.cmdEnd b r).resp = s.resp ∧ (s.cmdEnd b r).clk = s.clk ∧
    (s.cmdEnd b r).now = s.now ∧ (s.cmdEnd b r).free = s.free ∧ (s.cmdEnd b r).fifo = s.fifo ∧
    (s.cmdEnd b r).cpus = s.cpus ∧ (s.cmdEnd b r).tlb = s.tlb ∧ (s.cmdEnd b r).psync = s.psync ∧
    (s.cmdEnd b r).sbuf = s.sbuf ∧ (s.cmdEnd b r).pickLast = s.pickLast ∧ (s.cmdEnd b r).ports = s.ports ∧
    (s.cmdEnd b r).poison = s.poison ∧ (s.cmdEnd b r).latent = s.latent ∧ (s.cmdEnd b r).ceAt = s.ceAt ∧
    (s.cmdEnd b r).sys = s.sys ∧ (s.cmdEnd b r).lsw = s.lsw ∧ (s.cmdEnd b r).vlv = s.vlv ∧
    (s.cmdEnd b r).lpe = s.lpe ∧ (s.cmdEnd b r).emmc = s.emmc ∧ (s.cmdEnd b r).aio = s.aio ∧
    (s.cmdEnd b r).map = s.map ∧ (s.cmdEnd b r).tbl = s.tbl ∧ (s.cmdEnd b r).can = s.can ∧
    (s.cmdEnd b r).eth = s.eth ∧ (s.cmdEnd b r).pace = s.pace ∧ (s.cmdEnd b r).cam = s.cam ∧
    (s.cmdEnd b r).upd = s.upd ∧ (s.cmdEnd b r).svc = s.svc ∧ (s.cmdEnd b r).cart = s.cart ∧
    (s.cmdEnd b r).pnl = s.pnl ∧ (s.cmdEnd b r).tim = s.tim ∧ (s.cmdEnd b r).gns = s.gns ∧ (s.cmdEnd b r).nv = s.nv ∧
    (s.cmdEnd b r).pwr = s.pwr ∧ (s.cmdEnd b r).aon = s.aon ∧ (s.cmdEnd b r).saf = s.saf ∧
    (s.cmdEnd b r).stq = s.stq ∧ (s.cmdEnd b r).dmw = s.dmw ∧ (s.cmdEnd b r).pending = s.pending := by
  simp [State.cmdEnd]

/-- Drawing a free value advances its counter alone. -/
@[simp] theorem State.drawn_fields (s : State)  :
    (s.drawn).regs = s.regs ∧ (s.drawn).mem = s.mem ∧ (s.drawn).resp = s.resp ∧ (s.drawn).clk = s.clk ∧
    (s.drawn).now = s.now ∧ (s.drawn).mail = s.mail ∧ (s.drawn).pgh = s.pgh ∧ (s.drawn).fifo = s.fifo ∧
    (s.drawn).cpus = s.cpus ∧ (s.drawn).tlb = s.tlb ∧ (s.drawn).psync = s.psync ∧ (s.drawn).sbuf = s.sbuf ∧
    (s.drawn).pickLast = s.pickLast ∧ (s.drawn).ports = s.ports ∧ (s.drawn).poison = s.poison ∧
    (s.drawn).latent = s.latent ∧ (s.drawn).ceAt = s.ceAt ∧ (s.drawn).bur = s.bur ∧ (s.drawn).sys = s.sys ∧
    (s.drawn).lsw = s.lsw ∧ (s.drawn).vlv = s.vlv ∧ (s.drawn).lpe = s.lpe ∧ (s.drawn).emmc = s.emmc ∧
    (s.drawn).aio = s.aio ∧ (s.drawn).map = s.map ∧ (s.drawn).tbl = s.tbl ∧ (s.drawn).can = s.can ∧
    (s.drawn).eth = s.eth ∧ (s.drawn).pace = s.pace ∧ (s.drawn).cam = s.cam ∧ (s.drawn).upd = s.upd ∧
    (s.drawn).svc = s.svc ∧ (s.drawn).cart = s.cart ∧ (s.drawn).pnl = s.pnl ∧ (s.drawn).tim = s.tim ∧
    (s.drawn).gns = s.gns ∧ (s.drawn).nv = s.nv ∧ (s.drawn).pwr = s.pwr ∧ (s.drawn).aon = s.aon ∧
    (s.drawn).saf = s.saf ∧ (s.drawn).stq = s.stq ∧ (s.drawn).dmw = s.dmw ∧ (s.drawn).pending = s.pending := by
  simp [State.drawn]

/-- Ending a part-read changes the Dumbwaiter alone. -/
@[simp] theorem State.partClear_fields (s : State) (q : Nat) :
    (s.partClear q).regs = s.regs ∧ (s.partClear q).mem = s.mem ∧ (s.partClear q).resp = s.resp ∧
    (s.partClear q).clk = s.clk ∧ (s.partClear q).now = s.now ∧ (s.partClear q).free = s.free ∧
    (s.partClear q).mail = s.mail ∧ (s.partClear q).pgh = s.pgh ∧ (s.partClear q).fifo = s.fifo ∧
    (s.partClear q).cpus = s.cpus ∧ (s.partClear q).tlb = s.tlb ∧ (s.partClear q).psync = s.psync ∧
    (s.partClear q).sbuf = s.sbuf ∧ (s.partClear q).pickLast = s.pickLast ∧ (s.partClear q).ports = s.ports ∧
    (s.partClear q).poison = s.poison ∧ (s.partClear q).latent = s.latent ∧ (s.partClear q).ceAt = s.ceAt ∧
    (s.partClear q).bur = s.bur ∧ (s.partClear q).sys = s.sys ∧ (s.partClear q).lsw = s.lsw ∧
    (s.partClear q).vlv = s.vlv ∧ (s.partClear q).lpe = s.lpe ∧ (s.partClear q).emmc = s.emmc ∧
    (s.partClear q).aio = s.aio ∧ (s.partClear q).map = s.map ∧ (s.partClear q).tbl = s.tbl ∧
    (s.partClear q).can = s.can ∧ (s.partClear q).eth = s.eth ∧ (s.partClear q).pace = s.pace ∧
    (s.partClear q).cam = s.cam ∧ (s.partClear q).upd = s.upd ∧ (s.partClear q).svc = s.svc ∧
    (s.partClear q).cart = s.cart ∧ (s.partClear q).pnl = s.pnl ∧ (s.partClear q).tim = s.tim ∧
    (s.partClear q).gns = s.gns ∧ (s.partClear q).nv = s.nv ∧ (s.partClear q).pwr = s.pwr ∧
    (s.partClear q).aon = s.aon ∧ (s.partClear q).saf = s.saf ∧ (s.partClear q).stq = s.stq ∧
    (s.partClear q).pending = s.pending := by
  simp [State.partClear]

/-- A byte written changes memory alone. -/
@[simp] theorem State.wrB_fields (s : State) (a : Nat) (v : Byte) :
    (s.wrB a v).regs = s.regs ∧ (s.wrB a v).resp = s.resp ∧ (s.wrB a v).clk = s.clk ∧ (s.wrB a v).now = s.now ∧
    (s.wrB a v).free = s.free ∧ (s.wrB a v).mail = s.mail ∧ (s.wrB a v).pgh = s.pgh ∧ (s.wrB a v).fifo = s.fifo ∧
    (s.wrB a v).cpus = s.cpus ∧ (s.wrB a v).tlb = s.tlb ∧ (s.wrB a v).psync = s.psync ∧ (s.wrB a v).sbuf = s.sbuf ∧
    (s.wrB a v).pickLast = s.pickLast ∧ (s.wrB a v).ports = s.ports ∧ (s.wrB a v).poison = s.poison ∧
    (s.wrB a v).latent = s.latent ∧ (s.wrB a v).ceAt = s.ceAt ∧ (s.wrB a v).bur = s.bur ∧ (s.wrB a v).sys = s.sys ∧
    (s.wrB a v).lsw = s.lsw ∧ (s.wrB a v).vlv = s.vlv ∧ (s.wrB a v).lpe = s.lpe ∧ (s.wrB a v).emmc = s.emmc ∧
    (s.wrB a v).aio = s.aio ∧ (s.wrB a v).map = s.map ∧ (s.wrB a v).tbl = s.tbl ∧ (s.wrB a v).can = s.can ∧
    (s.wrB a v).eth = s.eth ∧ (s.wrB a v).pace = s.pace ∧ (s.wrB a v).cam = s.cam ∧ (s.wrB a v).upd = s.upd ∧
    (s.wrB a v).svc = s.svc ∧ (s.wrB a v).cart = s.cart ∧ (s.wrB a v).pnl = s.pnl ∧ (s.wrB a v).tim = s.tim ∧
    (s.wrB a v).gns = s.gns ∧ (s.wrB a v).nv = s.nv ∧ (s.wrB a v).pwr = s.pwr ∧ (s.wrB a v).aon = s.aon ∧
    (s.wrB a v).saf = s.saf ∧ (s.wrB a v).stq = s.stq ∧ (s.wrB a v).dmw = s.dmw ∧ (s.wrB a v).pending = s.pending := by
  simp [State.wrB]

/-- Bytes written change memory alone. -/
@[simp] theorem State.wrBytes_fields (s : State) (a : Nat) (l : List Byte) :
    (s.wrBytes a l).regs = s.regs ∧ (s.wrBytes a l).resp = s.resp ∧ (s.wrBytes a l).clk = s.clk ∧
    (s.wrBytes a l).now = s.now ∧ (s.wrBytes a l).free = s.free ∧ (s.wrBytes a l).mail = s.mail ∧
    (s.wrBytes a l).pgh = s.pgh ∧ (s.wrBytes a l).fifo = s.fifo ∧ (s.wrBytes a l).cpus = s.cpus ∧
    (s.wrBytes a l).tlb = s.tlb ∧ (s.wrBytes a l).psync = s.psync ∧ (s.wrBytes a l).sbuf = s.sbuf ∧
    (s.wrBytes a l).pickLast = s.pickLast ∧ (s.wrBytes a l).ports = s.ports ∧ (s.wrBytes a l).poison = s.poison ∧
    (s.wrBytes a l).latent = s.latent ∧ (s.wrBytes a l).ceAt = s.ceAt ∧ (s.wrBytes a l).bur = s.bur ∧
    (s.wrBytes a l).sys = s.sys ∧ (s.wrBytes a l).lsw = s.lsw ∧ (s.wrBytes a l).vlv = s.vlv ∧
    (s.wrBytes a l).lpe = s.lpe ∧ (s.wrBytes a l).emmc = s.emmc ∧ (s.wrBytes a l).aio = s.aio ∧
    (s.wrBytes a l).map = s.map ∧ (s.wrBytes a l).tbl = s.tbl ∧ (s.wrBytes a l).can = s.can ∧
    (s.wrBytes a l).eth = s.eth ∧ (s.wrBytes a l).pace = s.pace ∧ (s.wrBytes a l).cam = s.cam ∧
    (s.wrBytes a l).upd = s.upd ∧ (s.wrBytes a l).svc = s.svc ∧ (s.wrBytes a l).cart = s.cart ∧
    (s.wrBytes a l).pnl = s.pnl ∧ (s.wrBytes a l).tim = s.tim ∧ (s.wrBytes a l).gns = s.gns ∧
    (s.wrBytes a l).nv = s.nv ∧ (s.wrBytes a l).pwr = s.pwr ∧ (s.wrBytes a l).aon = s.aon ∧
    (s.wrBytes a l).saf = s.saf ∧ (s.wrBytes a l).stq = s.stq ∧ (s.wrBytes a l).dmw = s.dmw ∧
    (s.wrBytes a l).pending = s.pending := by
  simp [State.wrBytes]

/-- A number written changes memory alone. -/
@[simp] theorem State.wrLE_fields (s : State) (a n v : Nat) :
    (s.wrLE a n v).regs = s.regs ∧ (s.wrLE a n v).resp = s.resp ∧ (s.wrLE a n v).clk = s.clk ∧
    (s.wrLE a n v).now = s.now ∧ (s.wrLE a n v).free = s.free ∧ (s.wrLE a n v).mail = s.mail ∧
    (s.wrLE a n v).pgh = s.pgh ∧ (s.wrLE a n v).fifo = s.fifo ∧ (s.wrLE a n v).cpus = s.cpus ∧
    (s.wrLE a n v).tlb = s.tlb ∧ (s.wrLE a n v).psync = s.psync ∧ (s.wrLE a n v).sbuf = s.sbuf ∧
    (s.wrLE a n v).pickLast = s.pickLast ∧ (s.wrLE a n v).ports = s.ports ∧ (s.wrLE a n v).poison = s.poison ∧
    (s.wrLE a n v).latent = s.latent ∧ (s.wrLE a n v).ceAt = s.ceAt ∧ (s.wrLE a n v).bur = s.bur ∧
    (s.wrLE a n v).sys = s.sys ∧ (s.wrLE a n v).lsw = s.lsw ∧ (s.wrLE a n v).vlv = s.vlv ∧
    (s.wrLE a n v).lpe = s.lpe ∧ (s.wrLE a n v).emmc = s.emmc ∧ (s.wrLE a n v).aio = s.aio ∧
    (s.wrLE a n v).map = s.map ∧ (s.wrLE a n v).tbl = s.tbl ∧ (s.wrLE a n v).can = s.can ∧
    (s.wrLE a n v).eth = s.eth ∧ (s.wrLE a n v).pace = s.pace ∧ (s.wrLE a n v).cam = s.cam ∧
    (s.wrLE a n v).upd = s.upd ∧ (s.wrLE a n v).svc = s.svc ∧ (s.wrLE a n v).cart = s.cart ∧
    (s.wrLE a n v).pnl = s.pnl ∧ (s.wrLE a n v).tim = s.tim ∧ (s.wrLE a n v).gns = s.gns ∧ (s.wrLE a n v).nv = s.nv ∧
    (s.wrLE a n v).pwr = s.pwr ∧ (s.wrLE a n v).aon = s.aon ∧ (s.wrLE a n v).saf = s.saf ∧
    (s.wrLE a n v).stq = s.stq ∧ (s.wrLE a n v).dmw = s.dmw ∧ (s.wrLE a n v).pending = s.pending := by
  simp [State.wrLE]

@[simp] theorem State.rd_drawn (s : State)  (b : Block) (o : Nat) : (s.drawn ).rd b o = s.rd b o := rfl

@[simp] theorem State.rd_partClear (s : State) (q : Nat) (b : Block) (o : Nat) : (s.partClear q).rd b o = s.rd b o := rfl

@[simp] theorem State.rd_setMail (s : State) (c : Block) (m : Mail) (b : Block) (o : Nat) : (s.setMail c m).rd b o = s.rd b o := rfl

@[simp] theorem State.rd_wrB (s : State) (a : Nat) (v : Byte) (b : Block) (o : Nat) : (s.wrB a v).rd b o = s.rd b o := rfl

@[simp] theorem State.rd_wrBytes (s : State) (a : Nat) (l : List Byte) (b : Block) (o : Nat) : (s.wrBytes a l).rd b o = s.rd b o := rfl

@[simp] theorem State.rd_wrLE (s : State) (a n v : Nat) (b : Block) (o : Nat) : (s.wrLE a n v).rd b o = s.rd b o := rfl

/-! ## Registers after an event -/

/-- A record entered leaves every register but BUR_LOST and BUR_STATUS. -/
theorem State.rd_burEnter (s : State) (r : BurRec) (b : Block) (o : Nat) (h : b ≠ .BUR ∨ o ≠ BUR_LOST ∧ o ≠ BUR_STATUS) :
    (s.burEnter r).rd b o = s.rd b o := by
  have a : ∀ (t : State) (i : Nat) (w : Word), i = BUR_LOST ∨ i = BUR_STATUS → (t.wr .BUR i w).rd b o = t.rd b o := by
    intro t i w hi
    apply State.rd_wr_ne
    rcases h with h | ⟨h1, h2⟩
    · exact .inl h
    · rcases hi with rfl | rfl
      · exact .inr h1
      · exact .inr h2
  simp only [State.burEnter, State.burShow, State.setF, State.setBit, State.incF]
  rw [a _ _ _ (.inr rfl), a _ _ _ (.inr rfl), a _ _ _ (.inl rfl)]
  split
  · rw [a _ _ _ (.inl rfl)]; simp
  · simp

/-- A raise that counts leaves every register outside PGH. -/
theorem State.rd_phCount (s : State) (p : Nat) (b : Block) (o : Nat) (h : b ≠ .PGH) : (s.phCount p).rd b o = s.rd b o := by
  have w : ∀ (t : State) (i : Nat) (v : Word), (t.wr .PGH i v).rd b o = t.rd b o :=
    fun t i v => State.rd_wr_ne _ _ _ _ _ _ (.inl h)
  have c : ∀ (k : Bool) (t u : State), t.rd b o = s.rd b o → u.rd b o = s.rd b o → (if k then t else u).rd b o = s.rd b o := by
    intro k t u ht hu
    cases k
    · exact hu
    · exact ht
  simp only [State.phCount, State.setPend, State.incF, State.setF, State.setBit]
  refine c _ _ _ ?_ ?_ <;> simp only [State.rd_putPgh] <;> refine c _ _ _ ?_ ?_ <;> simp only [w]

/-- A raise leaves every register outside PGH but BUR_LOST and BUR_STATUS. -/
theorem State.rd_phRaise (s : State) (p : Nat) (r : BurRec) (b : Block) (o : Nat) (h1 : b ≠ .PGH)
    (h : b ≠ .BUR ∨ o ≠ BUR_LOST ∧ o ≠ BUR_STATUS) : (s.phRaise p r).rd b o = s.rd b o := by
  simp only [State.phRaise]
  split
  · rw [State.rd_burEnter _ _ _ _ h, State.rd_phCount _ _ _ _ h1]
  · rw [State.rd_phCount _ _ _ _ h1]

/-- An event leaves every register outside PGH but its own EVENT register, BUR_LOST and BUR_STATUS. -/
theorem State.rd_eventAt (s : State) (e : EvSrc) (i ph : Nat) (b : Block) (o : Nat) (h1 : b ≠ .PGH)
    (h : b ≠ .BUR ∨ o ≠ BUR_LOST ∧ o ≠ BUR_STATUS) :
    (s.eventAt e i ph).rd b o = if b = e.b ∧ o = e.ev then putBit (s.rd e.b e.ev) i true else s.rd b o := by
  simp only [State.eventAt]
  split
  · rw [State.rd_phRaise _ _ _ _ _ h1 h, State.setBit, State.rd_wr]
  · rw [State.setBit, State.rd_wr]

/-- An event of a block with one EVENT register leaves every other register outside PGH and BUR. -/
@[simp] theorem State.rd_eventSrc (s : State) (b b' : Block) (i n o : Nat) (h1 : b' ≠ .PGH) (h2 : b' ≠ .BUR)
    (h : b' ≠ b ∨ o ≠ 0x24) : (s.eventSrc b i n).rd b' o = s.rd b' o := by
  rw [State.eventSrc, State.rd_eventAt _ _ _ _ _ _ h1 (.inl h2), if_neg]
  rintro ⟨rfl, rfl⟩
  rcases h with h | h <;> exact h rfl

/-- An event of a block with one EVENT register leaves every other register outside PGH and BUR. -/
@[simp] theorem State.rd_event (s : State) (b b' : Block) (i o : Nat) (h1 : b' ≠ .PGH) (h2 : b' ≠ .BUR)
    (h : b' ≠ b ∨ o ≠ 0x24) : (s.event b i).rd b' o = s.rd b' o := State.rd_eventSrc _ _ _ _ _ _ h1 h2 h

/-- An event leaves the registers of BUR but EVENT, BUR_LOST and BUR_STATUS. -/
theorem State.rd_event_bur (s : State) (b : Block) (i o : Nat) (h1 : o ≠ BUR_LOST) (h2 : o ≠ BUR_STATUS)
    (h : Block.BUR ≠ b ∨ o ≠ 0x24) : (s.event b i).rd .BUR o = s.rd .BUR o := by
  rw [State.event, State.eventSrc, State.rd_eventAt _ _ _ _ _ _ (by simp) (.inr ⟨h1, h2⟩), if_neg]
  rintro ⟨rfl, rfl⟩
  rcases h with h | h <;> exact h rfl

/-- The EVENT register after an event. -/
@[simp] theorem State.rd_eventSrc_own (s : State) (b : Block) (i n : Nat) (h : b ≠ .PGH) :
    (s.eventSrc b i n).rd b 0x24 = putBit (s.rd b 0x24) i true := by
  rw [State.eventSrc, State.rd_eventAt _ _ _ _ _ _ h (.inr (by decide))]
  simp

/-- The EVENT register after an event. -/
@[simp] theorem State.rd_event_own (s : State) (b : Block) (i : Nat) (h : b ≠ .PGH) :
    (s.event b i).rd b 0x24 = putBit (s.rd b 0x24) i true := State.rd_eventSrc_own _ _ _ _ h

/-- A valve channel's event leaves every register but its EVENT, outside PGH and BUR. -/
@[simp] theorem State.rd_vlvEvent (s : State) (n i : Nat) (b : Block) (o : Nat) (h1 : b ≠ .PGH) (h2 : b ≠ .BUR)
    (h : b ≠ .VLV ∨ o ≠ VLV_CH_EVENT n) : (s.vlvEvent n i).rd b o = s.rd b o := by
  rw [State.vlvEvent, State.rd_eventAt _ _ _ _ _ _ h1 (.inl h2), if_neg]
  rintro ⟨rfl, rfl⟩
  rcases h with h | h <;> exact h rfl

/-- A valve channel's EVENT register after its event. -/
@[simp] theorem State.rd_vlvEvent_own (s : State) (n i : Nat) :
    (s.vlvEvent n i).rd .VLV (VLV_CH_EVENT n) = putBit (s.rd .VLV (VLV_CH_EVENT n)) i true := by
  rw [State.vlvEvent, State.rd_eventAt _ _ _ _ _ _ (by simp) (.inl (by simp))]
  simp

/-- A load channel's event leaves every register but its EVENT, outside PGH and BUR. -/
@[simp] theorem State.rd_lswEvent (s : State) (n i : Nat) (b : Block) (o : Nat) (h1 : b ≠ .PGH) (h2 : b ≠ .BUR)
    (h : b ≠ .LSW ∨ o ≠ LSW_CH_EVENT n) : (s.lswEvent n i).rd b o = s.rd b o := by
  rw [State.lswEvent, State.rd_eventAt _ _ _ _ _ _ h1 (.inl h2), if_neg]
  rintro ⟨rfl, rfl⟩
  rcases h with h | h <;> exact h rfl

/-- A load channel's EVENT register after its event. -/
@[simp] theorem State.rd_lswEvent_own (s : State) (n i : Nat) :
    (s.lswEvent n i).rd .LSW (LSW_CH_EVENT n) = putBit (s.rd .LSW (LSW_CH_EVENT n)) i true := by
  rw [State.lswEvent, State.rd_eventAt _ _ _ _ _ _ (by simp) (.inl (by simp))]
  simp

/-- A CAN controller's event leaves every register but its EVENT, outside PGH and BUR. -/
@[simp] theorem State.rd_canEvent (s : State) (n i : Nat) (b : Block) (o : Nat) (h1 : b ≠ .PGH) (h2 : b ≠ .BUR)
    (h : b ≠ .CAN ∨ o ≠ CAN_CH_EVENT n) : (s.canEvent n i).rd b o = s.rd b o := by
  rw [State.canEvent, State.rd_eventAt _ _ _ _ _ _ h1 (.inl h2), if_neg]
  rintro ⟨rfl, rfl⟩
  rcases h with h | h <;> exact h rfl

/-- A CAN controller's EVENT register after its event. -/
@[simp] theorem State.rd_canEvent_own (s : State) (n i : Nat) :
    (s.canEvent n i).rd .CAN (CAN_CH_EVENT n) = putBit (s.rd .CAN (CAN_CH_EVENT n)) i true := by
  rw [State.canEvent, State.rd_eventAt _ _ _ _ _ _ (by simp) (.inl (by simp))]
  simp

/-- An event of several controllers leaves every register outside CAN, PGH and BUR, and those of CAN below 0x20. -/
theorem State.rd_canEvents (s : State) (l : List Nat) (i : Nat) (b : Block) (o : Nat) (h1 : b ≠ .PGH) (h2 : b ≠ .BUR)
    (h : b ≠ .CAN ∨ o < 0x20) : (s.each l (fun s n => s.canEvent n i)).rd b o = s.rd b o := by
  induction l generalizing s with
  | nil => rfl
  | cons x l ih =>
    have := ih (s.canEvent x i)
    rw [State.rd_canEvent _ _ _ _ _ h1 h2 (h.imp id (fun h => by unfold CAN_CH_EVENT; omega))] at this
    exact this

/-- The end of a command shown sets BLK_CMD_STS to the code and the result. -/
@[simp] theorem State.rd_cmdShow_sts (s : State) (b : Block) (c : Nat) (args : List Word) (r : Result) (h : b ≠ .PGH) :
    (s.cmdShow b c args r).rd b 0x14 = wordN (c * 256 + r.code) := by
  cases b <;> first
    | exact absurd rfl h
    | (simp only [State.cmdShow, Block.cmdDone, reduceCtorEq, if_false, if_true]
       first
        | rw [State.rd_canEvents _ _ _ _ _ (by simp) (by simp) (.inr (by decide))]; simp [State.wrN]
        | (simp [State.wrN]; done)
        | rw [State.rd_event_bur _ _ _ _ (by decide) (by decide) (.inr (by decide))]; simp [State.wrN])

/-- The end of a command shown leaves every other register but EVENT, outside PGH, BUR and CAN. -/
@[simp] theorem State.rd_cmdShow (s : State) (b b' : Block) (c o : Nat) (args : List Word) (r : Result) (h1 : b' ≠ .PGH)
    (h2 : b' ≠ .BUR) (h3 : b' ≠ b ∨ b' ≠ .CAN ∧ o ≠ 0x14 ∧ o ≠ 0x24) : (s.cmdShow b c args r).rd b' o = s.rd b' o := by
  have w : (s.wrN b 0x14 (c * 256 + r.code)).rd b' o = s.rd b' o :=
    State.rd_wr_ne _ _ _ _ _ _ (h3.imp id (·.2.1))
  unfold State.cmdShow
  split
  · rename_i e
    subst e
    rw [State.rd_canEvents _ _ _ _ _ h1 h2 (by rcases h3 with h | h; exact .inl h; exact .inl h.1), w]
  · split
    · rw [State.rd_event _ _ _ _ _ h1 h2 (h3.imp id (·.2.2)), w]
    · exact w

/-- The end of a command shown leaves the other registers of the Bureau but EVENT, BUR_LOST and BUR_STATUS. -/
theorem State.rd_cmdShow_bur (s : State) (c o : Nat) (args : List Word) (r : Result) (h : o ≠ BUR_LOST ∧ o ≠ BUR_STATUS)
    (h3 : o ≠ 0x14 ∧ o ≠ 0x24) : (s.cmdShow .BUR c args r).rd .BUR o = s.rd .BUR o := by
  simp only [State.cmdShow, Block.cmdDone, reduceCtorEq, if_false]
  rw [State.rd_event_bur _ _ _ _ h.1 h.2 (.inr h3.2), State.wrN, State.rd_wr_ne _ _ _ _ _ _ (.inr h3.1)]

/-- The EVENT register after the end of a command shown: CMD_DONE is set where the block has it. -/
@[simp] theorem State.rd_cmdShow_event (s : State) (b : Block) (c : Nat) (args : List Word) (r : Result) (h : b ≠ .PGH)
    (h2 : b ≠ .CAN) : (s.cmdShow b c args r).rd b 0x24 =
      match b.cmdDone with
      | some i => putBit (s.rd b 0x24) i true
      | none => s.rd b 0x24 := by
  have w : (s.wrN b 0x14 (c * 256 + r.code)).rd b 0x24 = s.rd b 0x24 := State.rd_wr_ne _ _ _ _ _ _ (.inr (by decide))
  simp only [State.cmdShow, if_neg h2]
  cases b.cmdDone with
  | none => exact w
  | some i => simp only [State.rd_event_own _ _ _ h, w]

/-- The mailbox set is the mailbox read. -/
@[simp] theorem State.mailOf_setMail (s : State) (b : Block) (m : Mail) : (s.setMail b m).mailOf b = m := by
  simp [State.setMail, State.mailOf]

/-- The end of the running command shows its code and the result. -/
@[simp] theorem State.rd_cmdEnd_sts (s : State) (b : Block) (r : Result) (h : b ≠ .PGH) :
    (s.cmdEnd b r).rd b 0x14 = wordN ((s.mailOf b).code * 256 + r.code) := State.rd_cmdShow_sts _ _ _ _ _ h

/-- The EVENT register after the end of the running command. -/
@[simp] theorem State.rd_cmdEnd_event (s : State) (b : Block) (r : Result) (h : b ≠ .PGH) (h2 : b ≠ .CAN) :
    (s.cmdEnd b r).rd b 0x24 =
      match b.cmdDone with
      | some i => putBit (s.rd b 0x24) i true
      | none => s.rd b 0x24 := by
  rw [State.cmdEnd, State.rd_cmdShow_event _ _ _ _ _ h h2, State.rd_setMail]

/-- The end of the running command leaves every other register but EVENT, outside PGH, BUR and CAN. -/
@[simp] theorem State.rd_cmdEnd (s : State) (b b' : Block) (o : Nat) (r : Result) (h1 : b' ≠ .PGH)
    (h2 : b' ≠ .BUR) (h3 : b' ≠ b ∨ b' ≠ .CAN ∧ o ≠ 0x14 ∧ o ≠ 0x24) : (s.cmdEnd b r).rd b' o = s.rd b' o := by
  rw [State.cmdEnd, State.rd_cmdShow _ _ _ _ _ _ _ h1 h2 h3, State.rd_setMail]

/-- The end of the running command leaves the mailbox empty. -/
@[simp] theorem State.mailOf_cmdEnd (s : State) (b : Block) (r : Result) : (s.cmdEnd b r).mailOf b = {} := by
  simp only [State.cmdEnd, State.mailOf, State.cmdShow_fields]
  exact State.mailOf_setMail _ _ _

/-- A mailbox stands as long as the mailboxes do. -/
theorem State.mailOf_congr (s t : State) (b : Block) (h : s.mail = t.mail) : s.mailOf b = t.mailOf b := by
  unfold State.mailOf; rw [h]

/-- The state in which a command that is taken acts: its arguments latched and its code shown with 0xFF. -/
def State.taken (s : State) (b : Block) (c : Nat) : State :=
  (s.setMail b { code := c, args := s.cmdArgs b }).wrN b 0x14 (c * 256 + 0xFF)

/-- A command written while another runs is refused with BUSY. -/
theorem State.command_busy (s : State) (b : Block) (c : Nat) (f : List Word → State → State × Option Result)
    (h : (s.mailOf b).code ≠ 0) : s.command b c f = s.cmdShow b c (s.cmdArgs b) .busy := by
  simp [State.command, h]

/-- A command that ends at once. -/
theorem State.command_done (s t : State) (b : Block) (c : Nat) (f : List Word → State → State × Option Result) (r : Result)
    (h : (s.mailOf b).code = 0) (hf : f (s.cmdArgs b) (s.taken b c) = (t, some r)) : s.command b c f = t.cmdEnd b r := by
  unfold State.taken at hf
  simp [State.command, h, hf]

/-- A command that goes on. -/
theorem State.command_runs (s t : State) (b : Block) (c : Nat) (f : List Word → State → State × Option Result)
    (h : (s.mailOf b).code = 0) (hf : f (s.cmdArgs b) (s.taken b c) = (t, none)) : s.command b c f = t := by
  unfold State.taken at hf
  simp [State.command, h, hf]

/-- A command that is taken changes the mailboxes and its own BLK_CMD_STS alone. -/
@[simp] theorem State.rd_taken (s : State) (b b' : Block) (c o : Nat) (h : b' ≠ b ∨ o ≠ 0x14) :
    (s.taken b c).rd b' o = s.rd b' o := by
  rw [State.taken, State.wrN, State.rd_wr_ne _ _ _ _ _ _ h, State.rd_setMail]

/-- A command that is taken shows its code with 0xFF. -/
@[simp] theorem State.rd_taken_sts (s : State) (b : Block) (c : Nat) : (s.taken b c).rd b 0x14 = wordN (c * 256 + 0xFF) := by
  simp [State.taken, State.wrN]

/-- A command that is taken holds its code and arguments. -/
@[simp] theorem State.mailOf_taken (s : State) (b : Block) (c : Nat) :
    (s.taken b c).mailOf b = { code := c, args := s.cmdArgs b } := by
  rw [State.mailOf_congr _ (s.setMail b { code := c, args := s.cmdArgs b })]
  · exact State.mailOf_setMail _ _ _
  · simp [State.taken]

/-- A command that is taken changes the registers and the mailboxes alone. -/
@[simp] theorem State.taken_fields (s : State) (b : Block) (c : Nat) :
    (s.taken b c).mem = s.mem ∧ (s.taken b c).resp = s.resp ∧ (s.taken b c).clk = s.clk ∧ (s.taken b c).now = s.now ∧
    (s.taken b c).free = s.free ∧ (s.taken b c).pgh = s.pgh ∧ (s.taken b c).fifo = s.fifo ∧
    (s.taken b c).cpus = s.cpus ∧ (s.taken b c).tlb = s.tlb ∧ (s.taken b c).psync = s.psync ∧
    (s.taken b c).sbuf = s.sbuf ∧ (s.taken b c).pickLast = s.pickLast ∧ (s.taken b c).ports = s.ports ∧
    (s.taken b c).poison = s.poison ∧ (s.taken b c).latent = s.latent ∧ (s.taken b c).ceAt = s.ceAt ∧
    (s.taken b c).bur = s.bur ∧ (s.taken b c).sys = s.sys ∧ (s.taken b c).lsw = s.lsw ∧ (s.taken b c).vlv = s.vlv ∧
    (s.taken b c).lpe = s.lpe ∧ (s.taken b c).emmc = s.emmc ∧ (s.taken b c).aio = s.aio ∧ (s.taken b c).map = s.map ∧
    (s.taken b c).tbl = s.tbl ∧ (s.taken b c).can = s.can ∧ (s.taken b c).eth = s.eth ∧ (s.taken b c).pace = s.pace ∧
    (s.taken b c).cam = s.cam ∧ (s.taken b c).upd = s.upd ∧ (s.taken b c).svc = s.svc ∧ (s.taken b c).cart = s.cart ∧
    (s.taken b c).pnl = s.pnl ∧ (s.taken b c).tim = s.tim ∧ (s.taken b c).gns = s.gns ∧ (s.taken b c).nv = s.nv ∧
    (s.taken b c).pwr = s.pwr ∧ (s.taken b c).aon = s.aon ∧ (s.taken b c).saf = s.saf ∧ (s.taken b c).stq = s.stq ∧
    (s.taken b c).dmw = s.dmw ∧ (s.taken b c).pending = s.pending := by
  simp [State.taken]

@[simp] theorem State.mailOf_wr (s : State) (b : Block) (o : Nat) (w : Word) (mb : Block) : (s.wr b o w).mailOf mb = s.mailOf mb := by
  simp [State.mailOf]

@[simp] theorem State.mailOf_setF (s : State) (b : Block) (o hi lo v : Nat) (mb : Block) : (s.setF b o hi lo v).mailOf mb = s.mailOf mb := by
  simp [State.mailOf]

@[simp] theorem State.mailOf_setBit (s : State) (b : Block) (o i : Nat) (v : Bool) (mb : Block) : (s.setBit b o i v).mailOf mb = s.mailOf mb := by
  simp [State.mailOf]

@[simp] theorem State.mailOf_wrN (s : State) (b : Block) (o v : Nat) (mb : Block) : (s.wrN b o v).mailOf mb = s.mailOf mb := by
  simp [State.mailOf]

@[simp] theorem State.mailOf_incF (s : State) (b : Block) (o hi lo n : Nat) (mb : Block) : (s.incF b o hi lo n).mailOf mb = s.mailOf mb := by
  simp [State.mailOf]

@[simp] theorem State.mailOf_burEnter (s : State) (r : BurRec) (mb : Block) : (s.burEnter r).mailOf mb = s.mailOf mb := by
  simp [State.mailOf]

@[simp] theorem State.mailOf_phCount (s : State) (p : Nat) (mb : Block) : (s.phCount p).mailOf mb = s.mailOf mb := by
  simp [State.mailOf]

@[simp] theorem State.mailOf_phRaise (s : State) (p : Nat) (r : BurRec) (mb : Block) : (s.phRaise p r).mailOf mb = s.mailOf mb := by
  simp [State.mailOf]

@[simp] theorem State.mailOf_eventAt (s : State) (e : EvSrc) (bit ph : Nat) (mb : Block) : (s.eventAt e bit ph).mailOf mb = s.mailOf mb := by
  simp [State.mailOf]

@[simp] theorem State.mailOf_eventSrc (s : State) (b : Block) (bit src : Nat) (mb : Block) : (s.eventSrc b bit src).mailOf mb = s.mailOf mb := by
  simp [State.mailOf]

@[simp] theorem State.mailOf_event (s : State) (b : Block) (bit : Nat) (mb : Block) : (s.event b bit).mailOf mb = s.mailOf mb := by
  simp [State.mailOf]

@[simp] theorem State.mailOf_vlvEvent (s : State) (n bit : Nat) (mb : Block) : (s.vlvEvent n bit).mailOf mb = s.mailOf mb := by
  simp [State.mailOf]

@[simp] theorem State.mailOf_lswEvent (s : State) (n bit : Nat) (mb : Block) : (s.lswEvent n bit).mailOf mb = s.mailOf mb := by
  simp [State.mailOf]

@[simp] theorem State.mailOf_canEvent (s : State) (n bit : Nat) (mb : Block) : (s.canEvent n bit).mailOf mb = s.mailOf mb := by
  simp [State.mailOf]

@[simp] theorem State.mailOf_canEvents (s : State) (l : List Nat) (i : Nat) (mb : Block) : (s.each l (fun s n => s.canEvent n i)).mailOf mb = s.mailOf mb := by
  simp [State.mailOf]

@[simp] theorem State.mailOf_cmdShow (s : State) (b : Block) (c : Nat) (args : List Word) (r : Result) (mb : Block) : (s.cmdShow b c args r).mailOf mb = s.mailOf mb := by
  simp [State.mailOf]

@[simp] theorem State.mailOf_drawn (s : State)  (mb : Block) : (s.drawn).mailOf mb = s.mailOf mb := by
  simp [State.mailOf]

@[simp] theorem State.mailOf_partClear (s : State) (q : Nat) (mb : Block) : (s.partClear q).mailOf mb = s.mailOf mb := by
  simp [State.mailOf]

@[simp] theorem State.mailOf_wrB (s : State) (a : Nat) (v : Byte) (mb : Block) : (s.wrB a v).mailOf mb = s.mailOf mb := by
  simp [State.mailOf]

@[simp] theorem State.mailOf_wrBytes (s : State) (a : Nat) (l : List Byte) (mb : Block) : (s.wrBytes a l).mailOf mb = s.mailOf mb := by
  simp [State.mailOf]

@[simp] theorem State.mailOf_wrLE (s : State) (a n v : Nat) (mb : Block) : (s.wrLE a n v).mailOf mb = s.mailOf mb := by
  simp [State.mailOf]

end Sys2Proof.Machine
end

