-- ==== Sys2Proof/Safety.lean ====
section
/-! DEFINITION. What a sound state is (every sparse store that the spec's addresses index stands in its one canonical form, so
that equal contents are equal data), and the parts of a state, in whose terms a frame is said. -/

namespace Sys2Proof.Machine

/-- Every register window is canonical: offsets rise, and no register is listed at its reset value. -/
def RegFile.Canonical (r : RegFile) : Prop := ∀ b, (r.win b).wf (resetVal b) = true

/-- The memory of the physical map, the eMMC and the register windows are canonical. -/
def State.Canonical (s : State) : Prop :=
  Memory.wf s.mem = true ∧ s.emmc.wf (fun _ => 0) = true ∧ s.regs.Canonical

/-- A part of the state: the register window of a block, or one of the other stores. -/
inductive Part where
  | win (b : Block)
  /-- The memory of the physical map. -/
  | mem
  /-- The response last given. -/
  | resp
  /-- Operating seconds and cycle counts. -/
  | clk
  /-- Device time. -/
  | now
  /-- The counter of free values. -/
  | free
  /-- The running commands. -/
  | mail
  /-- What pigeonholes gather. -/
  | pgh
  /-- The channel FIFOs. -/
  | fifo
  /-- The agents' registers. -/
  | cpus
  /-- The translations held. -/
  | tlb
  /-- The store buffers. -/
  | sbuf
  /-- Where picks go on. -/
  | pickLast
  /-- The engine ports. -/
  | ports
  /-- Poisoned words. -/
  | poison
  /-- Latent bit errors. -/
  | latent
  /-- The last corrected error. -/
  | ceAt
  /-- The Bureau beside its registers. -/
  | bur
  /-- SYS beside its registers. -/
  | sys
  /-- Load switches. -/
  | lsw
  /-- Valve drives. -/
  | vlv
  /-- Loop engine. -/
  | lpe
  /-- The eMMC. -/
  | emmc
  /-- Crop inputs. -/
  | aio
  /-- Field map. -/
  | map
  /-- The Tabletop. -/
  | tbl
  /-- CAN controllers. -/
  | can
  /-- Ethernet. -/
  | eth
  /-- Pace. -/
  | pace
  /-- Cameras. -/
  | cam
  /-- Update. -/
  | upd
  /-- Service sessions. -/
  | svc
  /-- The cart coupling. -/
  | cart
  /-- Panel. -/
  | pnl
  /-- Time. -/
  | tim
  /-- GNSS. -/
  | gns
  /-- MRAM beside the memory map. -/
  | nv
  /-- Power. -/
  | pwr
  /-- The always-on controller. -/
  | aon
  /-- Safety pair. -/
  | saf
  /-- The storage queue. -/
  | stq
  /-- The Dumbwaiter. -/
  | dmw
  /-- Translations that no pgsync has ended. -/
  | psync
  deriving DecidableEq, Repr

/-- Two states agree in a part. -/
def State.Same (s t : State) : Part → Prop
  | .win b => t.regs.win b = s.regs.win b
  | .mem => t.mem = s.mem
  | .resp => t.resp = s.resp
  | .clk => t.clk = s.clk
  | .now => t.now = s.now
  | .free => t.free = s.free
  | .mail => t.mail = s.mail
  | .pgh => t.pgh = s.pgh
  | .fifo => t.fifo = s.fifo
  | .cpus => t.cpus = s.cpus
  | .tlb => t.tlb = s.tlb
  | .sbuf => t.sbuf = s.sbuf
  | .pickLast => t.pickLast = s.pickLast
  | .ports => t.ports = s.ports
  | .poison => t.poison = s.poison
  | .latent => t.latent = s.latent
  | .ceAt => t.ceAt = s.ceAt
  | .bur => t.bur = s.bur
  | .sys => t.sys = s.sys
  | .lsw => t.lsw = s.lsw
  | .vlv => t.vlv = s.vlv
  | .lpe => t.lpe = s.lpe
  | .emmc => t.emmc = s.emmc
  | .aio => t.aio = s.aio
  | .map => t.map = s.map
  | .tbl => t.tbl = s.tbl
  | .can => t.can = s.can
  | .eth => t.eth = s.eth
  | .pace => t.pace = s.pace
  | .cam => t.cam = s.cam
  | .upd => t.upd = s.upd
  | .svc => t.svc = s.svc
  | .cart => t.cart = s.cart
  | .pnl => t.pnl = s.pnl
  | .tim => t.tim = s.tim
  | .gns => t.gns = s.gns
  | .nv => t.nv = s.nv
  | .pwr => t.pwr = s.pwr
  | .aon => t.aon = s.aon
  | .saf => t.saf = s.saf
  | .stq => t.stq = s.stq
  | .dmw => t.dmw = s.dmw
  | .psync => t.psync = s.psync

/-- `t` differs from `s` in no part but those of the list. -/
def State.ChangesOnly (s t : State) (ps : List Part) : Prop := ∀ p, p ∉ ps → s.Same t p

/-- Every part of a state. -/
def everyPart : List Part :=
  [.win .SYS, .win .PACE, .win .PGH, .win .DMW, .win .CAM, .win .GNS, .win .TIM, .win .TBL, .win .LPE, .win .VLV, .win .LSW,
   .win .AIO, .win .MAP, .win .PNL, .win .CAN, .win .ETH, .win .UPD, .win .BUR, .win .HKP, .win .SAF, .win .TST, .win .PWR,
   .mem, .resp, .clk, .now, .free, .mail, .pgh, .fifo, .cpus, .tlb, .sbuf, .pickLast, .ports, .poison, .latent, .ceAt,
   .bur, .sys, .lsw, .vlv, .lpe, .emmc, .aio, .map, .tbl, .can, .eth, .pace, .cam, .upd, .svc, .cart,
   .pnl, .tim, .gns, .nv, .pwr, .aon, .saf, .stq, .dmw, .psync]

/-- What an event may change (R157, R443): the EVENT register of the window that `more` names, a pigeonhole and its counts, and
the Bureau queue. -/
def onEvent (more : List Part) : List Part := .win .PGH :: .win .BUR :: .pgh :: .bur :: more

/-- What a mailbox command may change (R154): its block's window, its mailbox, and what CMD_DONE may. -/
def onCommand (more : List Part) : List Part := .mail :: onEvent more

/-- Every part but those of the list. -/
def allBut (ps : List Part) : List Part := everyPart.filter (fun p => !ps.contains p)

/-- The parts of the state that a command may change. -/
def mayChange (i : Instr) : List Part :=
  match i with
  | .registerWrite _ _ _ | .stb _ _ | .sth _ _ | .stw _ _ | .std _ _ | .fsts _ _ | .fstd _ _ | .burstGrant _ => allBut [.resp]
  | .registerAccessFault _ _ _ => [.resp]
  | .protectWrite b _ => [.win (blockNo b)]
  | .undefinedCommand b _ => onCommand [.win (blockNo b)]
  | .supplyQualified _ | .dormantEntryWake _ _ _ _ | .wakeInputRise _ _ | .wakeTimerExpired _ | .canBusWake _ _
   | .ethLinkWake _ _ | .svcRestart _ _ _ => everyPart
  | .rideStart | .inputOpen | .armedChg _ _ => onEvent [.win .PWR, .pwr]
  | .rideReturn _ => [.win .PWR, .clk, .now, .tim, .pwr]
  | .rideTimeExpired _ _ =>
    allBut [.win .TIM, .win .LPE, .win .AIO, .win .UPD, .win .TST, .resp, .fifo, .cpus, .tlb, .sbuf, .pickLast, .ports, .lpe,
      .aio, .pace, .upd, .svc, .cart, .saf, .psync]
  | .reserveReturn => [.win .PWR, .pwr]
  | .reserveBridgeExpired _ | .collapse _ | .reverseBatM _ =>
    allBut [.win .TIM, .win .LPE, .win .AIO, .win .UPD, .win .TST, .resp, .clk, .now, .fifo, .cpus, .tlb, .sbuf, .pickLast,
      .ports, .lpe, .aio, .pace, .upd, .svc, .cart, .saf, .psync]
  | .inputSwitchClose => [.pwr]
  | .gndMOpen _ | .overv _ | .feedLow _ _ | .burCursorWrite _ => onEvent [.win .PWR]
  | .feedLowClear _ _ => onCommand [.win .VLV, .win .PWR, .vlv]
  | .journalEnd _ _ _ => onEvent [.win .SYS, .win .MAP, .mem, .clk, .now, .poison, .latent, .ceAt, .emmc, .map, .tim, .nv, .pwr]
  | .sequencerEnd _ => onCommand [.win .VLV, .win .LSW, .win .PWR, .clk, .now, .free, .lsw, .vlv, .tim, .pwr, .aon]
  | .bankMeasurement _ _ _ _ => onEvent [.win .PWR, .nv, .pwr]
  | .bankTest | .bankTestComplete _ _ | .bankBleed | .bankCharge => onCommand [.win .PWR, .pwr]
  | .pwrClearStats => onCommand [.win .PWR]
  | .vcoreTargetWrite _ | .islStopWrite _ _ | .islWakeRequest _ | .externalWake _ => [.win .PACE, .pace]
  | .vcoreDone | .xcToggle _ | .xcValueAccept _ _ _ => onEvent [.win .PACE, .pace]
  | .pmAverage _ => onEvent [.win .PACE, .free, .pace]
  | .guardIntervalStep => [.win .PACE]
  | .ratioHigh => onEvent [.win .PACE]
  | .pmClear => onCommand [.win .PACE]
  | .xcClear | .islRestart | .guardReset | .islLockTimeout _ => onCommand [.win .PACE, .pace]
  | .islStopped _ | .islWake _ =>
    onCommand [.win .SYS, .win .PACE, .win .CAM, .win .CAN, .win .ETH, .mem, .poison, .latent, .can, .eth, .pace, .cam, .dmw]
  | .islLockLoss _ =>
    onCommand [.win .SYS, .win .PACE, .win .VLV, .win .LSW, .win .SAF, .win .TST, .free, .sys, .lsw, .vlv, .pace]
  | .xcToggleAck _ | .xcFabricRead _ _ => [.pace]
  | .opReg _ _ | .muldiv _ _ | .addi _ _ | .andi _ _ | .ori _ _ | .xori _ _ | .setlti _ _ | .setltui _ _ | .shifti _ _
   | .addhi _ _ | .addxi _ _ | .addpc _ _ | .beq _ _ | .bne _ _ | .blt _ _ | .bge _ _ | .bltu _ _ | .bgeu _ _ | .jmp _ _
   | .call _ _ | .jreg _ _ | .syscall _ _ | .brk _ _ | .rtn _ _ | .tret _ _ | .waitev _ _ | .fop _ _ | .fmadd _ _
   | .fmsub _ _ | .fnmadd _ _ | .fnmsub _ _ | .chstat _ _ | .gxwait _ _ => onEvent [.win .SYS, .cpus, .tlb, .sys]
  | .ldb _ _ | .ldh _ _ | .ldw _ _ | .ldd _ _ | .ldbu _ _ | .ldhu _ _ | .ldwu _ _ | .flds _ _ | .fldd _ _ =>
    onEvent [.win .SYS, .win .PACE, .win .TIM, .win .TBL, .win .CAN, .win .PWR, .mem, .free, .cpus, .tlb, .sbuf, .poison,
      .latent, .ceAt, .sys, .can, .eth, .tim, .dmw]
  | .storeVisible _ _ => [.win .SYS, .win .TBL, .mem, .sbuf, .poison, .latent]
  | .atom _ _ => onEvent [.win .SYS, .win .TBL, .mem, .cpus, .tlb, .sbuf, .poison, .latent, .ceAt, .sys]
  | .fence _ _ => onEvent [.win .SYS, .win .TBL, .mem, .cpus, .tlb, .sbuf, .poison, .latent, .sys]
  | .fenceArriveDone _ => onEvent [.win .SYS, .win .DMW, .win .TBL, .mem, .cpus, .sbuf, .poison, .latent, .sys, .dmw]
  | .pgsync _ _ => onEvent [.win .SYS, .win .TBL, .mem, .cpus, .tlb, .sbuf, .poison, .latent, .sys, .psync]
  | .waitevResume _ | .tcmpExpiry _ _ => [.win .SYS]
  | .sysreg _ _ | .waitt _ _ => onEvent [.win .SYS, .free, .cpus, .tlb, .sys]
  | .eventTaken _ => onEvent [.win .SYS, .cpus, .sys]
  | .send _ _ => onEvent [.win .SYS, .win .TBL, .mem, .fifo, .cpus, .tlb, .sbuf, .ports, .poison, .latent, .sys]
  | .sendUnblock _ => onEvent [.win .SYS, .win .TBL, .mem, .fifo, .cpus, .sbuf, .ports, .poison, .latent, .sys]
  | .recv _ _ => onEvent [.win .SYS, .win .TBL, .mem, .fifo, .cpus, .tlb, .sbuf, .poison, .latent, .sys]
  | .recvUnblock _ => onEvent [.win .SYS, .win .TBL, .mem, .fifo, .cpus, .sbuf, .poison, .latent, .sys]
  | .pick _ _ => onEvent [.win .SYS, .cpus, .tlb, .pickLast, .sys]
  | .pickUnblock _ => onEvent [.win .SYS, .cpus, .pickLast, .sys]
  | .waittExpire _ => [.free, .cpus, .sys]
  | .pigeonholeWordDelivery _ => onEvent [.win .SYS, .fifo]
  | .ringReread _ => onEvent [.win .SYS, .win .TBL, .mem, .fifo, .cpus, .sbuf, .pickLast, .ports, .poison, .latent, .sys]
  | .enginePortWord _ =>
    onCommand [.win .SYS, .win .DMW, .win .TBL, .win .LPE, .win .VLV, .mem, .ports, .poison, .latent, .vlv, .lpe]
  | .gxrd _ _ | .gxwr _ _ =>
    onEvent [.win .SYS, .win .PACE, .win .TIM, .win .TBL, .win .CAN, .win .PWR, .mem, .free, .cpus, .tlb, .sbuf, .poison,
      .latent, .ceAt, .sys, .tbl, .can, .eth, .tim, .dmw]
  | .gxrun _ _ => onEvent [.win .SYS, .free, .cpus, .tlb, .sys, .tbl]
  | .gxrunUnblock _ => [.free, .cpus, .sys, .tbl]
  | .tensorJobEnd _ _ => [.win .SYS, .mem, .cpus, .poison, .latent, .sys, .tbl]
  | .loopSample _ _ _ =>
    onCommand [.win .SYS, .win .LPE, .win .VLV, .win .CAN, .mem, .clk, .now, .free, .poison, .latent, .vlv, .lpe, .can, .tim]
  | .lpePinWrite _ _ | .stagedWrite _ _ => [.win .SYS, .win .LPE, .mem, .poison, .latent, .lpe]
  | .loopApply | .lpeClearFault | .lpePreload => onCommand [.win .LPE, .lpe]
  | .lpeSwap | .lpeSwapCancel | .lpeClearCounts => onCommand [.win .LPE]
  | .vlvGo _ _ | .vlvStop _ | .cmdInWrite _ _ | .holdEnd _ _ | .deferralApply _ | .deferMaxExpired _ | .peakMaxExpired _
   | .decayEnd _ _ | .vlvDuty _ _ | .dutyResume _ _ | .shortSup _ _ | .groupTrip _ _ | .offStateTest _ _ _ _ _ _
   | .vlvHoldExpired _ | .vlvClearFault | .feedReset => onCommand [.win .VLV, .vlv]
  | .openLoad _ _ _ | .coilTempEstimate _ _ _ _ => onEvent [.win .VLV, .vlv]
  | .idReadDone _ _ | .ledgerWrite _ | .ledgerDelete => onCommand [.win .VLV, .free, .vlv]
  | .vlvClaim | .vlvSwap | .vlvSwapCancel | .idRead | .ledgerRead | .vlvClearCounts => onCommand [.win .VLV]
  | .switchOn _ | .switchOff _ _ | .ocLatch _ _ _ | .tempLatch _ _ _ | .pauseTo _ _ | .feedOff _ _ _ | .feedOffEnd _ _
   | .pwmEdge _ _ _ | .lswHoldExpired _ _ => onEvent [.win .LSW, .lsw]
  | .slewEnd _ | .blankingEnd _ | .pauseResume _ | .feedOver _ _ => [.win .LSW]
  | .coolTimeExpired _ => [.clk, .now, .tim]
  | .lswPause _ | .openOn _ _ | .offStateCheck _ _ _ => onEvent [.win .LSW]
  | .lswClaim | .lswUnlatch | .lswUnlock | .lswClearCounts => onCommand [.win .LSW]
  | .modeReq _ =>
    onCommand [.win .SYS, .win .TIM, .win .TBL, .win .LPE, .win .VLV, .win .LSW, .win .SAF, .win .TST, .win .PWR, .free,
      .sys, .lsw, .vlv, .tbl, .cart, .tim, .pwr, .saf]
  | .modeChg _ =>
    allBut [.win .DMW, .win .CAM, .win .GNS, .win .CAN, .win .ETH, .win .UPD, .win .HKP, .resp, .clk, .now, .fifo, .cpus,
      .tlb, .sbuf, .pickLast, .ports, .lpe, .aio, .can, .eth, .pace, .cam, .upd, .svc, .gns, .saf, .stq, .dmw, .psync]
  | .ignFall => onCommand [.win .SYS, .win .LSW, .free, .sys, .lsw]
  | .svcEnFall | .wakeInputFall _ => onCommand [.win .SYS, .sys]
  | .standstill _ => [.sys]
  | .keyoffTimeExpired => onCommand [.win .SYS, .win .VLV, .win .LSW, .win .SAF, .free, .sys, .lsw, .vlv, .pwr]
  | .startupWatchdog _ | .coreReset _ | .thermalRestart _ | .wdgKick _ _ | .wdgExpiry _ => allBut [.resp, .ceAt]
  | .drawerSet => onCommand [.win .SYS, .nv]
  | .tileRelease | .hostRelease => onCommand [.win .SYS, .cpus]
  | .tileHalt | .tileReset => onCommand [.win .SYS, .fifo, .cpus, .sys]
  | .stqHeadWrite _ => [.win .SYS, .mem, .poison, .latent, .stq]
  | .stqRequestDone _ => onEvent [.win .SYS, .mem, .poison, .latent, .emmc, .stq]
  | .scrubRead _ _ => onEvent [.win .SYS, .poison, .latent, .ceAt]
  | .pghRaise _ _ => onEvent []
  | .pghClear _ | .pghRouteWrite _ _ => [.win .PGH]
  | .pghClaim _ _ => [.win .PGH, .resp, .pgh]
  | .pghSwi _ _ => [.cpus, .sys]
  | .linkTrained _ _ | .trainingRetry _ _ | .camStart _ => onCommand [.win .CAM, .win .UPD, .cam]
  | .linkLost _ _ | .frameStartPacket _ _ | .frameEndPacket _ _ _ _ | .noFeTimeout _ _ =>
    onCommand [.win .SYS, .win .CAM, .mem, .poison, .latent, .cam]
  | .longPacket _ _ _ _ _ => [.win .SYS, .win .CAM, .mem, .poison, .latent, .cam]
  | .frameTrigger _ => [.cam]
  | .frameProcessed _ _ => onEvent [.win .SYS, .win .CAM, .mem, .poison, .latent, .cam]
  | .camStop | .paramLoad => onCommand [.win .CAM, .cam]
  | .camClearCounts => onCommand [.win .CAM]
  | .acqHeadWrite _ | .chTrack _ _ => [.win .SYS, .win .GNS, .mem, .poison, .latent, .gns]
  | .acqDone _ _ _ | .chLost _ _ | .navbit _ _ _ _ _ => onEvent [.win .SYS, .win .GNS, .mem, .poison, .latent, .gns]
  | .chStart | .chStop => onCommand [.win .SYS, .win .GNS, .mem, .poison, .latent, .gns]
  | .coldStart => onCommand [.win .SYS, .win .GNS, .mem, .poison, .latent, .gns, .nv]
  | .gnsClearCounts => onCommand [.win .GNS]
  | .gnsMeas _ => onEvent [.win .SYS, .win .GNS, .mem, .clk, .now, .free, .poison, .latent, .tim, .gns]
  | .gnsAnt _ _ | .antBiasRetry _ _ => onEvent [.win .GNS]
  | .imuRecord _ _ => [.win .SYS, .win .GNS, .mem, .poison, .latent]
  | .timCorrGo _ => onEvent [.win .TIM, .win .LPE, .now, .tim]
  | .holdAfterExpired | .timeStep => onEvent [.win .TIM, .clk, .now, .tim]
  | .pps => onEvent [.win .TIM, .win .CAN, .clk, .now, .can, .tim]
  | .tmark _ | .gmChg _ => onEvent [.win .TIM, .tim]
  | .tmarkLoRead => [.resp, .tim]
  | .tmarkHiRead => [.resp, .tim, .dmw]
  | .timNowLoRead => [.win .TIM, .resp, .tim]
  | .clearTmark => onCommand [.win .TIM, .tim, .dmw]
  | .holdoverTest | .holdoverTestEnd => onCommand [.win .TIM, .tim]
  | .timClearStats => onCommand [.win .TIM]
  | .tabletopCut _ _ _ | .tblCycle _ _ _ _ _ => onCommand [.win .TBL, .mem, .clk, .now, .cpus, .sys, .tbl, .tim]
  | .solverTo _ | .slotFragment _ | .extErr _ | .slotSilent _ => onEvent [.win .TBL, .tbl]
  | .cycleSkip => onCommand [.win .TBL, .clk, .now, .cpus, .sys, .tbl, .tim]
  | .sampleArrive _ _ _ => onEvent [.win .SYS, .win .TBL, .mem, .poison, .latent, .tbl]
  | .tblStart => onCommand [.win .SYS, .win .TBL, .mem, .poison, .tbl]
  | .tblStop | .tblClearCounts => onCommand [.win .TBL]
  | .alignSwap | .tblSwapCancel | .trustReset => onCommand [.win .TBL, .tbl]
  | .ainFault _ _ _ => onEvent [.win .AIO, .aio]
  | .ainFaultClear _ _ _ => [.win .AIO, .aio]
  | .finEdge _ _ _ _ => [.win .AIO, .clk, .now, .vlv, .aio, .tim]
  | .finRefresh _ _ _ => onEvent [.win .AIO, .clk, .now, .aio, .tim]
  | .finFault _ | .aioSupply _ _ _ _ | .supplyRetry _ _ _ _ => onEvent [.win .AIO]
  | .lossImpact _ _ _ _ | .lossRateRefresh _ _ => [.win .AIO, .clk, .now, .aio, .tim]
  | .lossTestPulse _ _ | .lossTest => onCommand [.win .AIO, .aio]
  | .aioClearCounts => onCommand [.win .AIO]
  | .mapTick _ => onCommand [.win .SYS, .win .MAP, .mem, .clk, .now, .free, .poison, .latent, .ceAt, .map, .tim]
  | .poseGo _ => [.map]
  | .journalPeriod => [.win .MAP, .map]
  | .mapJournal _ | .compactDone => onEvent [.win .SYS, .win .MAP, .mem, .poison, .latent, .ceAt, .emmc, .map]
  | .mapStart | .calApply | .mapZero | .mapClearCounts => onCommand [.win .MAP, .map]
  | .restoreDone => onCommand [.win .SYS, .win .MAP, .win .PWR, .mem, .free, .poison, .latent, .map]
  | .mapStop => onCommand [.win .MAP]
  | .mapStopDone => onCommand [.win .SYS, .win .MAP, .mem, .poison, .latent, .ceAt, .emmc, .map]
  | .mapNew => onCommand [.win .SYS, .win .MAP, .mem, .poison, .map]
  | .windowRead => onCommand [.win .SYS, .win .MAP, .mem, .poison, .latent, .ceAt, .map]
  | .zeroDone _ => onCommand [.win .MAP, .clk, .now, .map, .tim]
  | .pnlStart _ _ => onCommand [.win .PACE, .win .PNL, .pace, .pnl]
  | .pnlStop | .vsync | .pnlRail _ _ | .panelUnplug => onCommand [.win .PACE, .win .PNL, .free, .pnl]
  | .uniformLoad => onCommand [.win .PNL, .pnl]
  | .uniformityLoadDone _ | .i2cXfer _ _ => onCommand [.win .SYS, .win .PNL, .mem, .poison, .latent, .pnl]
  | .blReset => onCommand [.win .PNL, .free, .pnl]
  | .pnlClearCounts => onCommand [.win .PNL]
  | .pnlFlipWrite _ => [.win .PNL, .pnl]
  | .frameCrc => onEvent [.win .PNL, .pnl]
  | .panelPlugIn | .pnlTouch => onEvent [.win .PNL]
  | .pnlBacklight _ _ _ => onEvent [.win .PNL, .free, .pnl]
  | .canStart => onCommand [.win .CAN, .can, .dmw]
  | .canStop | .isbAbort | .txcancelWrite _ _ _ => onCommand [.win .CAN, .can]
  | .canRecover | .canClearCounts => onCommand [.win .CAN]
  | .frameReceived _ _ _ _ => onEvent [.win .SYS, .win .CAN, .mem, .free, .poison, .latent, .can]
  | .txreqWrite _ _ _ | .isbArmReceive _ _ _ => [.win .CAN, .can]
  | .mbLock _ _ => [.win .CAN]
  | .mbUnlock _ _ => onEvent [.win .CAN, .free, .can]
  | .fifoPop _ _ _ => [.win .CAN, .can, .dmw]
  | .txDone _ _ _ _ => onCommand [.win .CAN, .clk, .now, .can, .tim]
  | .txPeriod _ _ => [.win .CAN, .clk, .now, .can, .tim]
  | .busOffRecovered _ | .isbSend _ _ _ | .busIntegrated _ => onEvent [.win .CAN, .can]
  | .sigTimeout _ | .ttSyncOff _ => onEvent [.win .CAN, .clk, .now, .tim]
  | .isbTimeout _ _ | .ttCycle _ _ _ | .ttWindow _ _ _ | .bamPacket _ _ => onEvent [.win .CAN, .clk, .now, .can, .tim]
  | .ethFrameReceived _ _ _ _ _ | .ethFrameSent _ _ _ =>
    onEvent [.win .SYS, .win .TBL, .win .ETH, .mem, .poison, .latent, .tbl, .eth]
  | .ethLink _ _ | .fdbFlush | .portRestart => onCommand [.win .ETH, .eth]
  | .ethRxHeadWrite _ _ | .ethTxHeadWrite _ _ => [.win .ETH]
  | .fdbAge _ => [.win .ETH, .clk, .now, .eth, .tim]
  | .ptpSync | .peerDelay _ _ => [.win .ETH, .eth]
  | .ethClearCounts => onCommand [.win .ETH]
  | .dwStart _ | .dwStop _ _ | .dwStopDone _ | .requestAsserted _ | .beatError _ _ _ | .heldBoundaryPass _ =>
    onEvent [.win .DMW, .dmw]
  | .dmwSwreqWrite _ => [.win .DMW]
  | .streamRead _ _ => onEvent [.win .DMW, .win .CAN, .resp, .can, .tim, .dmw]
  | .dmwSwap | .dmwSwapCancel | .dmwClearCounts => onCommand [.win .DMW]
  | .updBegin => onCommand [.win .UPD, .mem, .free, .upd]
  | .updWriteBlock => onCommand [.win .UPD, .mem, .emmc, .upd]
  | .updFinish | .updAbort => onCommand [.win .UPD, .upd]
  | .updConfirm | .keyRevoke => onCommand [.win .UPD]
  | .updReadBlock => onCommand [.win .SYS, .win .UPD, .mem, .poison, .latent]
  | .lockIdleExpired _ => onEvent [.win .UPD, .clk, .now, .upd, .tim]
  | .svcHello _ _ _ _ => [.win .UPD, .resp, .free, .svc]
  | .svcBye _ _ | .svcStatus _ _ | .svcBureauRead _ _ _ _ => [.resp, .svc]
  | .svcUpdBegin _ _ _ _ _ _ => onEvent [.win .UPD, .mem, .resp, .free, .upd, .svc]
  | .svcUpdData _ _ _ _ _ _ _ _ => onEvent [.win .UPD, .mem, .resp, .emmc, .upd, .svc]
  | .svcUpdFinish _ _ _ _ | .svcUpdAbort _ _ _ _ => onEvent [.win .UPD, .resp, .upd, .svc]
  | .svcUpdConfirm _ _ _ => onEvent [.win .UPD, .resp, .svc]
  | .sessionTimeout _ => [.clk, .now, .svc, .tim]
  | .burPut _ => [.win .BUR, .bur]
  | .recordDrain => onEvent [.mem]
  | .patchWrite => [.mem, .clk, .now, .bur, .tim]
  | .burWin7Read => onEvent [.win .PWR, .resp]
  | .burFreeze | .burUnfreeze | .burClearCounts => onCommand []
  | .freezeTimeout => onEvent [.clk, .now, .tim]
  | .burClear => onCommand [.mem]
  | .housekeepingRound _ => onCommand [.win .VLV, .win .PNL, .win .HKP, .win .PWR, .clk, .now, .vlv, .pnl, .tim, .pwr]
  | .hkpCfgWrite _ _ => onEvent [.win .HKP]
  | .roundNow | .clearStates => onCommand [.win .HKP]
  | .thermalShutdown _ _ _ _ =>
    onCommand [.win .PACE, .win .VLV, .win .LSW, .win .PNL, .win .HKP, .win .SAF, .win .PWR, .mem, .free, .lsw, .vlv, .pnl,
      .pwr, .aon]
  | .comparatorMismatch | .cutoffTest _ =>
    onCommand [.win .SYS, .win .VLV, .win .LSW, .win .SAF, .win .TST, .free, .sys, .lsw, .vlv]
  | .safetyCheckFault _ _ | .comparatorSelfTest _ =>
    onCommand [.win .SYS, .win .VLV, .win .LSW, .win .SAF, .win .TST, .clk, .now, .free, .sys, .lsw, .vlv, .tim, .saf]
  | .il28FrequencyTest _ =>
    onCommand [.win .SYS, .win .PACE, .win .VLV, .win .LSW, .win .SAF, .win .TST, .clk, .now, .free, .sys, .lsw, .vlv, .tim,
      .saf]
  | .clearLimp _ | .safClearCounts => onCommand [.win .SAF]
  | .tstUnlock _ => onEvent [.win .TST, .saf]
  | .timeSlewEnd => [.win .TIM, .clk, .now, .tim]
  | .timeMessageDrop => [.win .TIM, .win .CAN, .clk, .now, .can, .tim]
  | .linkErrRead _ => [.win .PNL]
  | .burdenRetry _ _ => [.win .AIO]
  | .cartState _ _ => [.cart]
  | .couplingLost => [.clk, .now, .cart, .tim]

/-! ## The words of the statements -/

/-- Command `c` on `s` answers a next state, of which `P` holds. -/
def Gives (c : Instr) (s : State) (P : State → Prop) : Prop := ∃ t, exec c s = .next t ∧ P t

/-- No command runs in the mailbox of block `b`. -/
def Idle (s : State) (b : Block) : Prop := (s.mailOf b).code = 0

/-- BLK_CMD_STS of block `b` holds command code `c` and result `r` (R154). -/
def Ended (t : State) (b : Block) (c : Nat) (r : Result) : Prop := t.rd b 0x14 = wordN (c * 256 + r.code)

/-- Command code `c` of block `b` runs: it holds the mailbox with the arguments latched from `s` (R154). -/
def Running (s t : State) (b : Block) (c : Nat) : Prop := t.mailOf b = { code := c, args := s.cmdArgs b }

/-- The registers of block `b` at offsets that `p` does not take in are unchanged. -/
def Stands (s t : State) (b : Block) (p : Nat → Prop) : Prop := ∀ o, ¬ p o → t.rd b o = s.rd b o

/-- Agent `a` issues its next instruction: it runs and waits on nothing, its fetch brings the word, of a page whose translation is
cached already if it has one (R106), and on a host core no event pre-empts it (R101). -/
def Issues (s : State) (a : Agent) : Prop :=
  s.ready a = true ∧ s.fetch a = (.word, s) ∧ ∀ c, a = .host c → s.eventToTake a = none

/-- The instructions of an agent that one word of it names and that begin with its fetch. -/
def agentRows (a : Agent) (w : BitVec 26) : List Instr :=
  [.muldiv a w, .addi a w, .andi a w, .ori a w, .xori a w, .setlti a w, .setltui a w, .shifti a w, .addhi a w, .addxi a w,
   .addpc a w, .beq a w, .bne a w, .blt a w, .bge a w, .bltu a w, .bgeu a w, .jmp a w, .call a w, .jreg a w, .ldb a w,
   .ldh a w, .ldw a w, .ldd a w, .ldbu a w, .ldhu a w, .ldwu a w, .stb a w, .sth a w, .stw a w, .std a w, .flds a w, .fldd
   a w, .fsts a w, .fstd a w, .atom a w, .fence a w, .syscall a w, .brk a w, .rtn a w, .tret a w, .pgsync a w, .waitev a
   w, .sysreg a w, .fop a w, .fmadd a w, .fmsub a w, .fnmadd a w, .fnmsub a w, .waitt a w, .gxrun a w, .gxwait a w]

/-- The number of a block's window. -/
def windowOf (b : Block) : Fin 22 := Fin.ofNat 22 (b.id - 1)

/-- The command that each code of a block's BLK_CMD is, where its row has no operand of its own (the command tables). -/
def mailRows : List (Fin 22 × Nat × Instr) :=
  let rows := fun (b : Block) (l : List (Nat × Instr)) => l.map fun p => (windowOf b, p.1, p.2)
  rows .SYS [(2, .drawerSet), (3, .tileRelease), (4, .tileHalt), (5, .tileReset), (6, .hostRelease)] ++
  rows .PACE [(1, .pmClear), (2, .xcClear), (3, .islRestart), (4, .guardReset)] ++
  rows .DMW [(1, .dmwSwap), (2, .dmwSwapCancel), (3, .dmwClearCounts)] ++
  rows .CAM [(2, .camStop), (3, .paramLoad), (4, .camClearCounts)] ++
  rows .GNS [(1, .chStart), (2, .chStop), (3, .coldStart), (4, .gnsClearCounts)] ++
  rows .TIM [(1, .clearTmark), (2, .holdoverTest), (3, .timClearStats)] ++
  rows .TBL [(1, .tblStart), (2, .tblStop), (3, .alignSwap), (4, .tblSwapCancel), (5, .trustReset), (6, .tblClearCounts)]
    ++
  rows .LPE [(1, .loopApply), (2, .lpeSwap), (3, .lpeSwapCancel), (4, .lpeClearFault), (5, .lpePreload), (6,
    .lpeClearCounts)] ++
  rows .VLV [(1, .vlvClaim), (2, .vlvSwap), (3, .vlvSwapCancel), (4, .vlvClearFault), (5, .feedReset), (6, .idRead), (7,
    .ledgerRead), (8, .ledgerDelete), (9, .vlvClearCounts)] ++
  rows .LSW [(1, .lswClaim), (2, .lswUnlatch), (3, .lswUnlock), (4, .lswClearCounts)] ++
  rows .AIO [(1, .aioClearCounts), (2, .lossTest)] ++
  rows .MAP [(1, .mapStart), (2, .mapStop), (3, .mapNew), (4, .windowRead), (5, .calApply), (6, .mapZero), (7,
    .mapClearCounts)] ++
  rows .PNL [(2, .pnlStop), (3, .uniformLoad), (5, .blReset), (6, .pnlClearCounts)] ++
  rows .CAN [(1, .canStart), (2, .canStop), (3, .canRecover), (4, .isbAbort), (5, .canClearCounts)] ++
  rows .ETH [(1, .fdbFlush), (2, .portRestart), (3, .ethClearCounts)] ++
  rows .UPD [(1, .updBegin), (2, .updWriteBlock), (3, .updFinish), (4, .updAbort), (5, .updConfirm), (6, .updReadBlock),
    (7, .keyRevoke)] ++
  rows .BUR [(1, .burFreeze), (2, .burUnfreeze), (3, .burClear), (4, .burClearCounts)] ++
  rows .HKP [(1, .roundNow), (2, .clearStates)] ++
  rows .SAF [(3, .safClearCounts)] ++
  rows .PWR [(1, .bankTest), (2, .bankBleed), (3, .bankCharge), (4, .pwrClearStats)]

/-- A write of the register at offset `o` of a block is the row `f` of the word written. -/
def WriteIs (b : Block) (o : Nat) (f : Word → Instr) : Prop :=
  ∀ (s : State) (v : Word), exec (.registerWrite (windowOf b) (BitVec.ofNat 18 (o / 4)) v) s = exec (f v) s

/-- What no instruction of agent `a` touches unless its rule says so: the other agents, the registers of the blocks, memory, and
its level. -/
def Apart (s t : State) (a : Agent) : Prop :=
  (∀ b, b ≠ a → t.cpu b = s.cpu b) ∧ (∀ b o, t.rd b o = s.rd b o) ∧ t.mem = s.mem ∧ (t.cpu a).level = (s.cpu a).level

/-- An instruction has ended with `v` in general register `r` (g0 keeps 0, R79) and the program counter at `pc`: RETIRED counts
it, and every other register keeps its value. -/
def Retired (s t : State) (a : Agent) (r : Nat) (v pc : Dword) : Prop :=
  t.pc a = pc ∧ (∀ k, t.g a k = if k = r ∧ k ≠ 0 then v else s.g a k) ∧ (∀ k, t.fr a k = s.fr a k) ∧
  (∀ n, t.sysRaw a n = if n = 0x022 then s.sysRaw a n + 1 else s.sysRaw a n) ∧ Apart s t a

/-- What a floating-point instruction leaves beside its result (R93): FSTAT ORs the flags, RETIRED counts it, every other system
register keeps its value, and the next instruction follows. -/
def FpEnds (s t : State) (a : Agent) (fl : Nat) : Prop :=
  t.pc a = s.pc a + 4 ∧ (∀ n, t.sysRaw a n = if n = 0x020 then s.sysRaw a n ||| BitVec.ofNat 64 fl
    else if n = 0x022 then s.sysRaw a n + 1 else s.sysRaw a n) ∧ Apart s t a

/-- A floating-point instruction has ended with a result in f register `r` (on a tile its low 32 bits, R80). -/
def FpRetired (s t : State) (a : Agent) (r : Nat) (v : FRes) : Prop :=
  (∀ k, t.fr a k = if k = r then BitVec.ofNat 64 (if isHost a then v.bits else v.bits % 2 ^ 64 % 2 ^ 32) else s.fr a k) ∧
  (∀ k, t.g a k = s.g a k) ∧ FpEnds s t a v.flags

/-- A floating-point instruction has ended with a result and flags in general register `r`. -/
def FgRetired (s t : State) (a : Agent) (r : Nat) (v : Dword) (fl : Nat) : Prop :=
  (∀ k, t.g a k = if k = r ∧ k ≠ 0 then v else s.g a k) ∧ (∀ k, t.fr a k = s.fr a k) ∧ FpEnds s t a fl

/-- What a read of NOW by agent `a` may give (R99): device time less at most 50 ns, not below `least`, and not below the agent's last
read unless device time was set back since. -/
def NowReads (s : State) (a : Agent) (least v : Nat) : Prop :=
  s.now ≤ v + 50 ∧ v ≤ s.now ∧ least ≤ v ∧ ((s.cpu a).lastNow ≤ s.now → (s.cpu a).lastNow ≤ v)

/-- The pieces of a window's rows, `stride` bytes apart from `base`, lie at the addresses that `f` gives them, in memory of a program:
each is translated for an access of kind `k`, its page cached or its address physical. -/
def Laid (s : State) (a : Agent) (k : Acc) (d : GxDesc) (base stride : Nat) (f : Nat → Nat) : Prop :=
  ∀ p ∈ d.pieces base stride, (∃ dev, s.translate a k (p.1 % 2 ^ 64) = (.ok (f p.1) dev, s)) ∧
    (regionOf (f p.1) = .dram ∨ regionOf (f p.1) = .tile) ∧ (∀ g ∈ granules (f p.1) p.2, s.latent.get 0 g = 0 ∧ s.poison.get false g = false)

/-- Byte `m` of column `i`, row `j` of a window with corner `xy` in the grid buffer `b`: the elements of its channels, 0 outside the
grid (Table 5-3). -/
def State.gridByte (s : State) (d : GxDesc) (b : Bool) (xy : Int × Int) (i j m : Nat) : Byte :=
  match onGrid xy.1 i, onGrid xy.2 j with
  | some cx, some cy => ((s.rdBytes (gridBase b + (cy * 512 + cx) * 64 + d.chFirst) d.chCount).flatMap d.elemOf).getD m 0
  | _, _ => 0

/-- No word of the grid buffer `b` holds a check error. -/
def State.gridClean (s : State) (b : Bool) : Prop :=
  ∀ g, gridBase b ≤ g → g < gridBase b + 0x1000000 → s.latent.get 0 g = 0 ∧ s.poison.get false g = false

/-- Format 0 names binary32, format 1 binary64 on a host core (Table 4-7, R96). -/
def FmtOk (a : Agent) (f : Nat) : Prop := f = 0 ∨ (f = 1 ∧ isHost a = true)

/-- The format that number `f` names. -/
def fmtOf (a : Agent) (f : Nat) : Fmt := if f = 0 then fmt32 (!isHost a) else fmt64

/-- The number of the rounding mode of an instruction: its field, or FSTAT.RM where the field is 0 (R92). -/
def State.rmNo (s : State) (a : Agent) (w : BitVec 26) : Nat :=
  if fFunc w / 8 % 8 = 0 then dfld (s.sysRaw a 0x020).toNat 12 10 else fFunc w / 8 % 8

/-- The rounding mode of an instruction. -/
def State.rmFor (s : State) (a : Agent) (w : BitVec 26) : Rm := (rmOf (s.rmNo a w)).getD .even

/-- Table 4-7 gives the FOP word a result: operation, format, rounding mode and rs2 are as its row has them. -/
def State.FopOk (s : State) (a : Agent) (w : BitVec 26) : Prop :=
  let op := fFunc w / 64
  let rounds := op ≤ 4 ∨ (0xE ≤ op ∧ op ≤ 0x10) ∨ 0x13 ≤ op
  op ≤ 0x14 ∧ FmtOk a (fFunc w % 8) ∧ (if rounds then 1 ≤ s.rmNo a w ∧ s.rmNo a w ≤ 5 else fFunc w / 8 % 8 = 0) ∧
  (op ∈ [0x4, 0xD, 0x11, 0x12, 0x13, 0x14] → fRs2 w = 0) ∧ (0x13 ≤ op → fFunc w % 8 = 0) ∧
  (op = 0xE → FmtOk a (fRs2 w)) ∧ (op = 0xF ∨ op = 0x10 → fRs2 w ≤ 3)

/-- Host core `c` has taken a trap or an event as R100 says. X is S (registers 0x200 on) or M (0x600 on): X_TRAP_PC, X_TRAP_CODE,
X_TRAP_INFO and X_PREV are saved, EV_X is 0, and the program counter stands in the slot of the cause. -/
def HostTrap (s t : State) (c : Fin 8) (event : Bool) (cause : Nat) (info : Dword) : Prop :=
  let a : Agent := .host c
  let m := if event then decide (8 ≤ cause) else !(decide ((s.cpu a).level < 3) && !dbit (s.sysRaw a 0x607) cause)
  let x := if m then 0x600 else 0x200
  let st := s.sysRaw a 0x600
  (t.cpu a).level = (if m then 3 else 1) ∧ t.sysRaw a (x + 2) = s.pc a ∧
  t.sysRaw a (x + 3) = (if event then 0x8000 else 0) + BitVec.ofNat 64 cause ∧ t.sysRaw a (x + 4) = info ∧
  t.sysRaw a (x + 5) = BitVec.ofNat 64 ((if m ∧ dbit st 2 = true then 8 else 0) +
    (if dbit st (if m then 0 else 1) = true then 4 else 0) + (s.cpu a).level) ∧
  t.sysRaw a 0x600 = setDbit st (if m then 0 else 1) false ∧
  t.pc a = BitVec.ofNat 64 ((s.sysRaw a (x + 1)).toNat / 0x1000 * 0x1000 + (if event then 0x800 else 0) + 32 * cause) ∧
  (∀ k, t.g a k = s.g a k) ∧ (∀ k, t.fr a k = s.fr a k)

/-- Tile `n` has taken a trap as R103 says: it halts if T_ENTRY is 0 or an earlier trap has not returned; otherwise T_TRAP_PC,
T_TRAP_CODE and T_TRAP_INFO are written and it jumps to the slot of the cause. -/
def TileTrap (s t : State) (n : Fin 258) (cause : Nat) (info : Dword) : Prop :=
  let a : Agent := .tile n
  let entry := (s.sysRaw a 0x700).toNat / 0x1000 * 0x1000
  if entry = 0 ∨ (s.cpu a).trapped = true then
    t.f .SYS (SYS_TILE_STATE n.val) 1 0 = 2 ∧ t.f .SYS (SYS_TILE_STATE n.val) 15 8 = cause ∧ t.bit .SYS 0x24 2 = true
  else t.sysRaw a 0x701 = s.pc a ∧ t.sysRaw a 0x702 = BitVec.ofNat 64 cause ∧ t.sysRaw a 0x703 = info ∧
    t.pc a = BitVec.ofNat 64 (entry + 32 * cause) ∧ (t.cpu a).trapped = true ∧ ∀ k, t.g a k = s.g a k

/-- Agent `a` has taken the trap of an exception. -/
def Trapped (s t : State) (a : Agent) (cause : Nat) (info : Dword) : Prop :=
  match a with
  | .host c => HostTrap s t c false cause info
  | .tile n => TileTrap s t n cause info

/-- A load by agent `a` of `n` bytes at virtual address `va` reads normal memory at `pa` with nothing amiss: aligned, mapped,
no bank that is programmed or erased, and none of its granules with a check error once the agent's own waiting stores are in it. -/
def Sees (s : State) (a : Agent) (va n pa : Nat) : Prop :=
  va % n = 0 ∧ (∃ dev, s.translate a .load va = (.ok pa dev, s)) ∧ regionOf pa ≠ .unmapped ∧ regionOf pa ≠ .device ∧
  s.norBusy pa = false ∧ (∀ g ∈ granules pa n, s.latent.get 0 g = 0) ∧ (s.drainStores a).poisoned pa n = false

/-- The little-endian number in `n` bytes of memory from `a`. -/
def State.mem64 (s : State) (a n : Nat) : Nat := leNat ((List.range n).map fun i => s.rdB (a + i))

/-- Storage request `q` has ended with result `r` (R151): its entry, in DRAM, holds the time and the result, TAIL has passed it, its
events are raised, and nothing is under way. -/
def StqDone (s t : State) (q : StqRun) (r : Result) : Prop :=
  t.rdB (q.addr + 3) = byteN r.code ∧ t.mem64 (q.addr + 24) 8 = s.now % 2 ^ 64 ∧ t.stq = none ∧
  t.f .SYS SYS_STQ_TAIL 15 0 = (if q.atTail then (s.f .SYS SYS_STQ_TAIL 15 0 + 1) % 65536 else s.f .SYS SYS_STQ_TAIL 15 0) ∧
  ((s.stqReq q.addr).signal = true → t.bit .SYS 0x24 5 = true) ∧ (r ≠ .ok → t.bit .SYS 0x24 6 = true)

/-- A start-up of a kind (0 power-on, 1 wake, 2 core reset, 3 service restart) for a wake cause is in progress; unless it has
stopped, host core 0 has been released at M level (R178, R180). -/
def StartedUp (t : State) (kind cause : Nat) : Prop :=
  t.sys.active = true ∧ t.sys.kind = kind ∧ t.sys.wakeCause = cause ∧
  (t.sys.stopped = 0 → t.f .SYS (SYS_HOST_STATUS 0) 1 0 = 1 ∧ (t.cpu (.host 0)).level = 3)

/-- A transition to mode `m` is in progress (SYS_MODE.TRANSITION and its target). -/
def Heading (t : State) (m : Nat) : Prop := t.bit .SYS SYS_MODE 7 = true ∧ t.f .SYS SYS_MODE 6 4 = m

/-- A safety fault has been declared (R463, R170): the latch is set, both cut-off switches are open and FAULT is raised;
SAF_FAULT holds the function, the code and the source where the latch was clear before. -/
def Faulted (s t : State) (code src : Nat) : Prop :=
  t.bit .SAF SAF_STATUS 7 = true ∧ t.bit .SAF SAF_STATUS 0 = false ∧ t.bit .SAF SAF_STATUS 1 = false ∧
  t.bit .SAF 0x24 0 = true ∧
  (s.bit .SAF SAF_STATUS 7 = false → t.f .SAF SAF_FAULT 31 24 = code / 16 ∧ t.f .SAF SAF_FAULT 23 16 = code ∧
    t.f .SAF SAF_FAULT 15 0 = src ∧ t.rdN .SAF SAF_FAULT_OPSEC = s.clk.opsec % 2 ^ 32)

/-- No waveform can go on, no load fell since the queues were served, and no request is queued. -/
def Calm (s : State) : Prop :=
  s.vlv.fell = false ∧ (∀ m, m < 32 → s.vlvReady m = false) ∧ ∀ g, g < 8 → s.queueOf g = []

/-- Instant `t` is one of instance `n` that has not come yet, and the next in their order; nothing staged waits to be taken and no swap
is pending; its output goes to its own sink, of kind None. -/
def Due (s : State) (n t : Nat) : Prop :=
  s.lpDue n t = true ∧ (s.lp n).take = none ∧ s.bit .LPE (LPE_LP_BANK n) 2 = false ∧
  bitOf (s.lp n).cfg 12 = false ∧ fld (s.lp n).sink 31 28 = 0

/-- Instance `n` goes on from its state registers: no preload waits, and it does not come from OFF with RESUME_PRELOAD. -/
def GoesOn (s : State) (n : Nat) : Prop := (s.lp n).preload = false ∧ ((s.lp n).prev ≠ 0 ∨ bitOf (s.lp n).cfg 13 = false)

/-- A command of LSW names channel `n`: L00–L31 in ARG0, L32–L39 in ARG1[7:0]. -/
def Names (s : State) (n : Nat) : Prop := if n < 32 then s.bit .LSW 0x4 n = true else s.bit .LSW 0x8 (n - 32) = true

end Sys2Proof.Machine
end

