-- ==== Sys2Proof/Certificates/Slice0/Obligations.lean ====
section
/-! DEFINITION. The statements for the provers, in the order of the spec's files; the words they use (Gives, Idle, Ended, Retired …)
are the last section of Safety.lean. A statement about a command says the next state that `exec` answers under hypotheses on the
state and the operands alone. -/

open Sys2Proof Sys2Proof.Machine

/-- A step of the block is the command at the front of its queue, on the state with the queue's rest. -/
def Obligations.StepRunsFront : Prop :=
  ∀ (c : Instr) (s : State), step { s with pending := c :: s.pending } = exec c s

/-- With no command waiting, one nanosecond of the TCXO passes; device time counts it at the rate in force, and where no
CAM_START, no Dumbwaiter program, no time message and no received frame waits for time to pass, nothing else changes. A
CAM_START that has waited for more than 1 s ends ABORTED, and HOST_RX is raised for frames that waited for its 100 µs (the
model's choice, assumption log 3). -/
def Obligations.EmptyQueueTick : Prop :=
  ∀ s : State, s.pending = [] → (∀ n < 64, s.dwState n = 1 →
      (s.dw n).xfer ≠ none ∨ s.dwBit n 4 = true ∨ s.dwBit n 5 = true ∨ s.dwBit n 6 = true) → s.tim.msg = none →
    ((s.mailOf .CAM).code ≠ 1 → s.eth.waiting = false → ∃ t, step s = .next t ∧ t.clk.up = s.clk.up + 1 ∧ t.pending = [] ∧
      s.ChangesOnly t [.clk, .now, .tim] ∧
      (s.tim.dk = 0 → s.tim.slew = 0 → t.now = s.now + (s.rateUnits + s.tim.frac) / 100000000000) ∧
      (s.rd .TIM TIM_RATE = 0 → s.tim.frac < 100000000000 → s.tim.dk = 0 → s.tim.slew = 0 → t.now = s.now + 1 ∧ t.tim = s.tim)) ∧
    ((s.mailOf .CAM).code = 1 → s.eth.waiting = false → s.cam.startAt + 1000000000 ≤ s.clk.up → ∃ t, step s = .next t ∧
      t.pending = [] ∧ Idle t .CAM ∧ Ended t .CAM 1 .aborted) ∧
    ((s.mailOf .CAM).code ≠ 1 → s.eth.waiting = true → s.eth.signalled = false → (∀ u, s.eth.rxAt = some u → u + 100000 ≤ s.clk.up) →
      ∃ t, step s = .next t ∧ t.pending = [] ∧ t.eth.signalled = true ∧ t.eth.rxAt = some (s.clk.up + 1) ∧ t.bit .ETH 0x24 1 = true)

/-- Every command, whatever its operands and the state, answers a next state, and its effect leaves the queue of the waiting
commands alone; so every step answers a next state, and the first command has left its queue. -/
def Obligations.EveryCommandAnswers : Prop :=
  (∀ (c : Instr) (s : State), ∃ t, exec c s = .next t ∧ t.pending = s.pending) ∧
  ∀ s : State, ∃ t, step s = .next t ∧ t.pending = s.pending.tail

/-- Every step keeps the canonical form of memory, of the eMMC and of every register window. -/
def Obligations.CanonicalKept : Prop :=
  ∀ s t : State, s.Canonical → step s = .next t → t.Canonical

/-- The canonical form holds at reset. -/
def Obligations.CanonicalAtReset : Prop :=
  State.reset.Canonical

/-- The frame of every command: what lies outside the parts that its rule lets it change is as before. -/
def Obligations.Frame : Prop :=
  ∀ (c : Instr) (s t : State), exec c s = .next t → s.ChangesOnly t (mayChange c)

/-- What reset leaves (R6 and the reset columns of the register tables): each register at the value its table gives, PROTECT
closed and no mailbox running in every block, no memory byte but erased NOR flash other than 0, and each agent's system
registers as Table 4-10 gives them. Where the spec is silent the statement follows the model's choice: assumption log 5
(registers without a reset value) and 8 (MRAM and NOR contents). -/
def Obligations.ResetValues : Prop :=
  (∀ b o, State.reset.rd b o = match regRow b o with | some r => BitVec.ofNat 32 r.reset | none => 0) ∧
  (∀ b, State.reset.rd b 0x18 = 0 ∧ Idle State.reset b) ∧
  (∀ a, State.reset.rdB a = if 0x1200000000 ≤ a ∧ a < 0x1204000000 then 0xFF else 0) ∧
  (∀ a, State.reset.sysRaw a 0x600 = 4 ∧ State.reset.sysRaw a 0x607 = 0xFFFFFFFE ∧ State.reset.sysRaw a 0x020 = 0x400 ∧
    State.reset.sysRaw a 0x208 = 0xFFFFFFFFFFFFFFFF ∧ State.reset.sysRaw a 0x608 = 0xFFFFFFFFFFFFFFFF) ∧
  State.reset.mode = 0 ∧ State.reset.pending = []

/-- Supply interruptions (R35, R31): from BAT_M the logic moves to the armed bank or to the reserve, comes back, or declares
power loss with its reason. Where the spec is silent the statement follows the model's choice: assumption log 72, 74, 121,
123 and 124. -/
def Obligations.SupplyInterruptions : Prop :=
  (∀ s : State, s.pwr.phase = .run → s.bit .PWR PWR_STATUS 9 = true →
    Gives .rideStart s fun t => t.pwr.phase = .ride ∧ t.bit .PWR PWR_STATUS 2 = true ∧ t.bit .PWR PWR_STATUS 14 = true ∧
      t.bit .PWR PWR_EVENT 0 = true) ∧
  (∀ s : State, s.pwr.phase = .run → s.bit .PWR PWR_STATUS 9 = false →
    Gives .rideStart s fun t => t.pwr.phase = .reserve ∧ t.bit .PWR PWR_STATUS 2 = true ∧ t.bit .PWR PWR_STATUS 14 = false) ∧
  (∀ (s : State) (dt : Nat), s.pwr.phase = .ride → s.pwr.inputOpen = false →
    Gives (.rideReturn dt) s fun t => t.pwr.phase = .run ∧ t.bit .PWR PWR_STATUS 2 = false ∧
      t.bit .PWR PWR_STATUS 14 = false ∧ t.f .PWR PWR_RIDE 15 0 = min 65535 (s.f .PWR PWR_RIDE 15 0 + 1)) ∧
  (∀ (s : State) (dt : Nat) (r : List (Option Int)), s.pwr.phase = .ride →
    Gives (.rideTimeExpired dt r) s fun t => t.pwr.phase = .loss ∧ t.pwr.reason = (if s.pwr.inputOpen then 3 else 2) ∧
      t.bit .PWR PWR_EVENT 2 = true) ∧
  (∀ s : State, s.pwr.phase = .reserve → s.pwr.inputOpen = false →
    Gives .reserveReturn s fun t => t.pwr.phase = .run ∧ t.bit .PWR PWR_STATUS 2 = false) ∧
  (∀ (s : State) (r : List (Option Int)), s.pwr.phase = .reserve →
    Gives (.reserveBridgeExpired r) s fun t => t.pwr.phase = .loss ∧
      t.pwr.reason = (if s.pwr.inputOpen then 3 else 5) ∧ t.bit .PWR PWR_EVENT 2 = true) ∧
  (∀ (s : State) (r : List (Option Int)), s.pwr.phase = .run ∨ s.pwr.phase = .ride ∨ s.pwr.phase = .reserve →
    Gives (.collapse r) s fun t => t.pwr.phase = .loss ∧ t.pwr.reason = 1 ∧ t.aon.collapse = true) ∧
  (∀ (s : State) (r : List (Option Int)), s.pwr.phase = .run ∨ s.pwr.phase = .ride ∨ s.pwr.phase = .reserve →
    Gives (.reverseBatM r) s fun t => t.pwr.phase = .loss ∧ t.pwr.reason = 4 ∧ t.aon.reverse = true) ∧
  (∀ s : State, Gives .inputOpen s fun t => t.pwr.inputOpen = true ∧ t.bit .PWR PWR_EVENT 3 = true ∧
    (s.pwr.phase = .run → t.pwr.phase = if s.bit .PWR PWR_STATUS 9 then .ride else .reserve)) ∧
  (∀ s : State, Gives .inputSwitchClose s fun t => t.pwr.inputOpen = false ∧ ∀ b o, t.rd b o = s.rd b o)

/-- The supply and bank monitors (R31, R33, R35, R37, R38): each sets the status its measurement calls for, and raises its
event when the status comes. The commands of PWR (Table 2-8, R473) and the end of the power-loss sequence (R43, R46, R474).
Where the spec is silent the statement follows the model's choice: assumption log 120 and 122. -/
def Obligations.SupplyAndBank : Prop :=
  (∀ (s : State) (mv : Nat), 300 < mv → Gives (.gndMOpen mv) s fun t => t.bit .PWR PWR_STATUS 7 = true ∧
    (s.bit .PWR PWR_STATUS 7 = false → t.bit .PWR PWR_EVENT 4 = true)) ∧
  (∀ (s : State) (mv : Nat), mv ≤ 300 → Gives (.gndMOpen mv) s fun t => t.bit .PWR PWR_STATUS 7 = false) ∧
  (∀ (s : State) (mv : Nat), (if s.bit .PWR PWR_STATUS 8 then 32000 else 16000) < mv →
    Gives (.overv mv) s fun t => t.bit .PWR PWR_STATUS 6 = true ∧ t.rdN .PWR (PWR_VOLT 0) = min mv 65535 ∧
      (s.bit .PWR PWR_STATUS 6 = false → t.bit .PWR PWR_EVENT 3 = true)) ∧
  (∀ (s : State) (mv : Nat), mv ≤ (if s.bit .PWR PWR_STATUS 8 then 32000 else 16000) →
    Gives (.overv mv) s fun t => t.bit .PWR PWR_STATUS 6 = false ∧ t.rdN .PWR (PWR_VOLT 0) = min mv 65535) ∧
  (∀ (s : State) (k : Fin 3) (mv : Nat), s.pwr.phase = .run → s.bit .PWR PWR_STATUS (3 + k.val) = false → mv < 6000 →
    Gives (.feedLow k mv) s fun t => t.bit .PWR PWR_STATUS (3 + k.val) = true ∧ t.bit .PWR PWR_EVENT 6 = true ∧
      t.rdN .PWR (PWR_VOLT (1 + k.val)) = mv) ∧
  (∀ (s : State) (k : Fin 3) (mv : Nat), 6500 ≤ mv →
    Gives (.feedLowClear k mv) s fun t => t.bit .PWR PWR_STATUS (3 + k.val) = false) ∧
  (∀ (s : State) (c esr : BitVec 16) (mv : Nat) (temp : Option Int),
    Gives (.bankMeasurement c esr mv temp) s fun t => t.rdN .PWR PWR_BANK_MEAS = c.toNat * 65536 + esr.toNat ∧
      t.bit .PWR PWR_STATUS 12 = true ∧ t.nv.bank = some (c.toNat, esr.toNat)) ∧
  (∀ (s : State) (mv : Nat) (k : Int), -270 ≤ k → k ≤ 670 → 15000 ≤ mv →
    s.bit .PWR PWR_STATUS 12 = true → s.pwr.bled = false → s.pwr.load = none → (s.mailOf .PWR).code ≠ 1 →
    95 * 2000000000 ≤ s.f .PWR PWR_BANK_MEAS 31 16 * (mv * mv - 36000000) →
    Gives (.armedChg mv (some k)) s fun t => t.bit .PWR PWR_STATUS 9 = true ∧
      (s.bit .PWR PWR_STATUS 9 = false → t.bit .PWR PWR_EVENT 1 = true)) ∧
  (∀ (s : State) (mv : Nat) (temp : Option Int), mv < 15000 ∨ temp = none →
    Gives (.armedChg mv temp) s fun t => t.bit .PWR PWR_STATUS 9 = false ∧
      (s.bit .PWR PWR_STATUS 9 = true → t.bit .PWR PWR_EVENT 1 = true)) ∧
  (∀ s : State, Idle s .PWR → s.mode = 5 → s.bit .PWR PWR_STATUS 10 = true →
    Gives .bankTest s fun t => Running s t .PWR 1 ∧ t.rd .PWR PWR_CMD_STS = 0x1FF ∧ t.bit .PWR PWR_STATUS 9 = false ∧
      t.bit .PWR PWR_STATUS 11 = false ∧ t.pwr.load = some 12000) ∧
  (∀ s : State, Idle s .PWR → s.mode ≠ 5 → Gives .bankTest s fun t => Ended t .PWR 1 .refusedMode) ∧
  (∀ s : State, Idle s .PWR → s.mode = 5 → s.bit .PWR PWR_STATUS 10 = false →
    Gives .bankTest s fun t => Ended t .PWR 1 .refusedTemp) ∧
  (∀ (s : State) (mv : Nat) (temp : Option Int), (s.mailOf .PWR).code = 1 →
    Gives (.bankTestComplete mv temp) s fun t => Ended t .PWR 1 .ok ∧ t.mailOf .PWR = {}) ∧
  (∀ s : State, Idle s .PWR → s.mode = 5 →
    Gives .bankBleed s fun t => Ended t .PWR 2 .ok ∧ t.pwr.bled = true ∧ t.bit .PWR PWR_STATUS 11 = false ∧
      t.bit .PWR PWR_STATUS 9 = false) ∧
  (∀ s : State, Idle s .PWR → s.mode ≠ 5 → Gives .bankBleed s fun t => Ended t .PWR 2 .refusedMode ∧ t.pwr = s.pwr) ∧
  (∀ s : State, Idle s .PWR → Gives .bankCharge s fun t => Ended t .PWR 3 .ok ∧ t.pwr.bled = false ∧
    (s.pwr.bled = true → t.bit .PWR PWR_STATUS 11 = (s.bit .PWR PWR_STATUS 10 && s.pwr.phase == .run &&
      decide (s.f .PWR (PWR_VOLT 4) 15 0 < 16000) && !s.pwr.inputOpen && decide (7000 ≤ s.f .PWR (PWR_VOLT 0) 15 0))))  ∧
  (∀ s : State, Idle s .PWR → Gives .pwrClearStats s fun t => Ended t .PWR 4 .ok ∧ t.rd .PWR PWR_RIDE = 0 ∧
    t.rd .PWR PWR_TORN = 0) ∧
  (∀ (s : State) (dt : Nat) (why : JournalEnd) (n : Nat), s.pwr.phase = .loss → s.pwr.journal = true →
    Gives (.journalEnd dt why n) s fun t => t.pwr.phase = .loss ∧ t.pwr.journal = false ∧ t.pwr.steps.testBit 4 = true ∧
      t.pwr.flags = (if why = .listEnd then s.pwr.flags else s.pwr.flags + 0x40)) ∧
  (∀ (s : State) (dt : Nat), s.pwr.phase = .loss → s.pwr.journal = false →
    Gives (.sequencerEnd dt) s fun t => t.pwr.phase = .off ∧ t.bit .PWR PWR_STATUS 9 = false ∧
      t.bit .PWR PWR_STATUS 11 = false ∧
      t.aon.summary = some (s.pwr.reason * 2 ^ 24 + s.pwr.steps % 64 * 256 +
        (if s.pwr.steps / 32 % 2 = 1 then s.pwr.flags else s.pwr.flags ||| 0x20),
        min 65535 ((s.clk.up + dt - s.pwr.since) / 1000000)))

/-- The core supply and the pace monitors (R57–R63) and the commands of PACE (Table 3-7). Where the spec is silent the
statement follows the model's choice: assumption log 62, 110 and 111. -/
def Obligations.CorePace : Prop :=
  (∀ (s : State) (v : Word), s.rd .PACE PACE_PROTECT = 1 →
    Gives (.vcoreTargetWrite v) s fun t => t.f .PACE PACE_VCORE_TARGET 9 0 = fld v 9 0 ∧ t.f .PACE PACE_VCORE_NOW 25 16 = 0 ∧
      t.bit .PACE PACE_STATUS 30 = false ∧
      t.f .PACE PACE_VCORE_NOW 9 0 = clampN 650 900 (fld v 9 0) - clampN 650 900 (fld v 9 0) % 5) ∧
  (∀ (s : State) (v : Word), s.rd .PACE PACE_PROTECT ≠ 1 → Gives (.vcoreTargetWrite v) s fun t => t = s) ∧
  (∀ s : State, s.bit .PACE PACE_STATUS 31 = true →
    Gives .vcoreDone s fun t => t.pace.mv = s.f .PACE PACE_VCORE_NOW 9 0 ∧ t.bit .PACE PACE_STATUS 31 = false ∧
      t.bit .PACE PACE_EVENT 3 = true) ∧
  (∀ (s : State) (cycles : List Nat), Gives (.pmAverage cycles) s fun t =>
    t.rdN .PACE PACE_REF = min 65535 (min 65535 (cycles.getD 31 0) * 100 / 64) ∧
    (∀ n, n < 32 → t.rdN .PACE (PACE_PM_CYCLE n) = min 65535 (cycles.getD n 0)) ∧
    (cycles.getD 31 0 ≠ 0 → ∀ n, n < 32 →
      t.rdN .PACE (PACE_PM_RATIO n) = pmRatio n (min 65535 (cycles.getD n 0)) (min 65535 (cycles.getD 31 0)))) ∧
  (∀ (s : State) (n : Nat), s.pace.exc = true → s.bit .PACE PACE_VCORE_CFG 16 = true → n < 32 →
    s.bit .PACE (PACE_PM_CEIL n) 16 = true → s.f .PACE (PACE_PM_CEIL n) 15 0 ≠ 0 →
    s.f .PACE (PACE_PM_CEIL n) 15 0 < s.f .PACE (PACE_PM_CYCLE n) 15 0 → s.f .PACE PACE_VCORE_NOW 25 16 < 900 →
    Gives .guardIntervalStep s fun t =>
      t.f .PACE PACE_VCORE_NOW 25 16 = min 900 (s.f .PACE PACE_VCORE_NOW 25 16 + 5) ∧ t.bit .PACE PACE_STATUS 30 = true) ∧
  (∀ (s : State) (n : Nat), n < 31 → 307 < s.f .PACE (PACE_PM_RATIO n) 15 0 →
    Gives .ratioHigh s fun t => t.bit .PACE PACE_EVENT 2 = true) ∧
  (∀ s : State, Idle s .PACE → Gives .pmClear s fun t => Ended t .PACE 1 .ok ∧
    ∀ n, n < 32 → s.bit .PACE (PACE_CMD_ARG 0) n = true → t.rd .PACE (PACE_PM_MINMAX n) =
        wordN (s.f .PACE (PACE_PM_CYCLE n) 15 0 * 65536 + s.f .PACE (PACE_PM_CYCLE n) 15 0)) ∧
  (∀ s : State, Idle s .PACE → Gives .guardReset s fun t => Ended t .PACE 4 .ok ∧ t.f .PACE PACE_VCORE_NOW 25 16 = 0 ∧
    t.bit .PACE PACE_STATUS 30 = false) ∧
  (∀ s : State, Idle s .PACE → s.rdN .PACE (PACE_CMD_ARG 1) ≠ 0 →
    s.rdN .PACE (PACE_CMD_ARG 0) + s.rdN .PACE (PACE_CMD_ARG 1) ≤ 232 →
    Gives .xcClear s fun t => Ended t .PACE 2 .ok ∧ t.rd .PACE PACE_XC_FIRST = 0x00FF00FF ∧
      ∀ i, i < s.rdN .PACE (PACE_CMD_ARG 1) → t.rd .PACE (PACE_XC_CNT (s.rdN .PACE (PACE_CMD_ARG 0) + i)) = 0) ∧
  (∀ s : State, Idle s .PACE → 232 < s.rdN .PACE (PACE_CMD_ARG 0) + s.rdN .PACE (PACE_CMD_ARG 1) →
    Gives .xcClear s fun t => Ended t .PACE 2 .badHeader) ∧
  (∀ (s : State) (k : Nat), Idle s .PACE → s.rdN .PACE (PACE_CMD_ARG 0) = k →
    k ≤ 7 ∨ 9 ≤ k ∧ k ≤ 15 ∨ 17 ≤ k ∧ k ≤ 23 → s.f .PACE (PACE_ISL_STATUS k) 1 0 = 2 →
    Gives .islRestart s fun t => Running s t .PACE 3 ∧ t.f .PACE (PACE_ISL_STATUS k) 1 0 = 3) ∧
  (∀ (s : State) (k : Nat), Idle s .PACE → s.rdN .PACE (PACE_CMD_ARG 0) = k →
    k ≤ 7 ∨ 9 ≤ k ∧ k ≤ 15 ∨ 17 ≤ k ∧ k ≤ 23 → s.f .PACE (PACE_ISL_STATUS k) 1 0 = 0 →
    Gives .islRestart s fun t => Running s t .PACE 3 ∧ t.f .PACE (PACE_ISL_STATUS k) 1 0 = 1) ∧
  (∀ s : State, Idle s .PACE → 29 ≤ s.rdN .PACE (PACE_CMD_ARG 0) →
    Gives .islRestart s fun t => Ended t .PACE 3 .badHeader) ∧
  (∀ s : State, Idle s .PACE → s.rdN .PACE (PACE_CMD_ARG 0) = 24 →
    Gives .islRestart s fun t => Ended t .PACE 3 .refusedMode)

/-- The clock islands (R73–R76) and the crossings (R66–R68). Where the spec is silent the statement follows the model's
choice: assumption log 4, 64, 112 and 126. -/
def Obligations.IslandsAndCrossings : Prop :=
  (∀ (s : State) (k : Fin 29) (v : Word), k.val ≤ 7 ∨ 9 ≤ k.val ∧ k.val ≤ 15 ∨ 17 ≤ k.val ∧ k.val ≤ 23 →
    s.f .PACE (PACE_ISL_STATUS k.val) 1 0 = 2 → bitOf v 1 = false →
    Gives (.islStopWrite k v) s fun t => t.f .PACE (PACE_ISL_STATUS k.val) 1 0 = 3 ∧ t.bit .PACE (PACE_ISL_CTRL k.val) 0 = true ∧
      t.bit .PACE (PACE_ISL_CTRL k.val) 8 = bitOf v 8) ∧
  (∀ (s : State) (k : Fin 29) (v : Word), k.val ≤ 7 ∨ 9 ≤ k.val ∧ k.val ≤ 15 ∨ 17 ≤ k.val ∧ k.val ≤ 23 →
    s.f .PACE (PACE_ISL_STATUS k.val) 1 0 = 2 → bitOf v 1 = true →
    Gives (.islStopWrite k v) s fun t => t.f .PACE (PACE_ISL_STATUS k.val) 1 0 = 3 ∧ (t.isl k.val).wake = some 1) ∧
  (∀ (s : State) (k : Fin 29) (v : Word), k.val = 8 ∨ k.val = 16 ∨ 24 ≤ k.val → bitOf v 1 = false →
    Gives (.islStopWrite k v) s fun t => t.rd .PACE (PACE_ISL_STATUS k.val) = s.rd .PACE (PACE_ISL_STATUS k.val) ∧
      t.bit .PACE (PACE_ISL_CTRL k.val) 0 = false) ∧
  (∀ (s : State) (k : Fin 29), s.f .PACE (PACE_ISL_STATUS k.val) 1 0 = 3 → (s.isl k.val).restart = false →
    (s.isl k.val).wake = none →
    Gives (.islStopped k) s fun t => t.f .PACE (PACE_ISL_STATUS k.val) 1 0 = 0 ∧
      t.bit .PACE (PACE_ISL_STATUS k.val) 8 = false ∧ t.bit .PACE PACE_EVENT 5 = true) ∧
  (∀ (s : State) (k : Fin 29), k.val ≤ 7 ∨ 9 ≤ k.val ∧ k.val ≤ 15 ∨ 17 ≤ k.val ∧ k.val ≤ 23 →
    s.f .PACE (PACE_ISL_STATUS k.val) 1 0 = 0 →
    Gives (.islWakeRequest k) s fun t => t.f .PACE (PACE_ISL_STATUS k.val) 1 0 = 1 ∧ (t.isl k.val).cause = 1) ∧
  (∀ (s : State) (k : Fin 29), k.val ≤ 7 ∨ 9 ≤ k.val ∧ k.val ≤ 15 ∨ 17 ≤ k.val ∧ k.val ≤ 23 →
    s.f .PACE (PACE_ISL_STATUS k.val) 1 0 = 3 →
    Gives (.islWakeRequest k) s fun t => t.f .PACE (PACE_ISL_STATUS k.val) 1 0 = 3 ∧ (t.isl k.val).wake = some 1) ∧
  (∀ (s : State) (k : Fin 29), k.val ≤ 7 ∨ 9 ≤ k.val ∧ k.val ≤ 15 ∨ 17 ≤ k.val ∧ k.val ≤ 23 →
    s.f .PACE (PACE_ISL_STATUS k.val) 1 0 = 1 →
    Gives (.islWakeRequest k) s fun t => t.f .PACE (PACE_ISL_STATUS k.val) 1 0 = 1 ∧ t.f .PACE (PACE_ISL_CTRL k.val) 1 0 = 0) ∧
  (∀ (s : State) (k : Fin 29), k.val ≤ 13 → s.bit .PACE (PACE_ISL_CTRL k.val) 8 = true →
    s.f .PACE (PACE_ISL_STATUS k.val) 1 0 = 0 →
    Gives (.externalWake k) s fun t => t.f .PACE (PACE_ISL_STATUS k.val) 1 0 = 1 ∧ (t.isl k.val).cause = 2) ∧
  (∀ (s : State) (k : Fin 29), s.f .PACE (PACE_ISL_STATUS k.val) 1 0 = 1 → (s.isl k.val).restart = false →
    s.bit .PACE (PACE_ISL_CTRL k.val) 0 = false →
    Gives (.islWake k) s fun t => t.f .PACE (PACE_ISL_STATUS k.val) 1 0 = 2 ∧
      t.bit .PACE (PACE_ISL_STATUS k.val) 8 = true ∧ t.f .PACE (PACE_ISL_STATUS k.val) 15 12 = (s.isl k.val).cause % 16 ∧
      t.bit .PACE PACE_EVENT 4 = true) ∧
  (∀ (s : State) (k : Fin 29), s.f .PACE (PACE_ISL_STATUS k.val) 1 0 = 1 → (s.isl k.val).restart = false →
    s.bit .PACE (PACE_ISL_CTRL k.val) 0 = true → Gives (.islWake k) s fun t => t.f .PACE (PACE_ISL_STATUS k.val) 1 0 = 3) ∧
  (∀ (s : State) (k : Fin 29), s.f .PACE (PACE_ISL_STATUS k.val) 1 0 = 1 →
    Gives (.islLockTimeout k) s fun t => t.f .PACE (PACE_ISL_STATUS k.val) 1 0 = 0 ∧ t.bit .PACE PACE_EVENT 6 = true) ∧
  (∀ (s : State) (k : Fin 29), s.f .PACE (PACE_ISL_STATUS k.val) 1 0 = 2 →
    s.bit .PACE (PACE_ISL_STATUS k.val) 8 = true →
    Gives (.islLockLoss k) s fun t => t.bit .PACE (PACE_ISL_STATUS k.val) 8 = false ∧ t.bit .PACE PACE_EVENT 6 = true) ∧
  (∀ (s : State) (m : Fin 232), m.val % 8 < 2 → (s.xc m.val).level = (s.xc m.val).acked →
    Gives (.xcToggle m) s fun t => (t.xc m.val).level = !(s.xc m.val).level ∧ (t.xc m.val).pending = (s.xc m.val).pending ∧
      s.ChangesOnly t [.pace]) ∧
  (∀ (s : State) (m : Fin 232), m.val % 8 < 2 → (s.xc m.val).level ≠ (s.xc m.val).acked →
    Gives (.xcToggle m) s fun t => (t.xc m.val).level = (s.xc m.val).level ∧ (t.xc m.val).pending = true ∧
      t.f .PACE (PACE_XC_CNT m.val) 31 16 = min 65535 (s.f .PACE (PACE_XC_CNT m.val) 31 16 + 1)) ∧
  (∀ (s : State) (m : Fin 232), 2 ≤ m.val % 8 → exec (.xcToggle m) s = .next s) ∧
  (∀ (s : State) (m : Fin 232), (s.xc m.val).level ≠ (s.xc m.val).acked →
    Gives (.xcToggleAck m) s fun t => (t.xc m.val).acked = (s.xc m.val).level ∧ (t.xc m.val).pending = false ∧
      (t.xc m.val).level = ((s.xc m.val).level != (s.xc m.val).pending)) ∧
  (∀ (s : State) (m : Fin 232) (ws : List Word) (n : Nat) (w : Word), m.val % 8 = 3 ∨ (4 ≤ m.val % 8 ∧ m.val ∉ [119, 127]) →
    ws.getLast? = some w → 3 ≤ (s.xc m.val).stable + n →
    Gives (.xcValueAccept m ⟨ws, n⟩ (w, w)) s fun t => (t.xc m.val).pub = w ∧ (t.xc m.val).accepted = w ∧ (t.xc m.val).hold = none) ∧
  (∀ (s : State) (m : Fin 232) (ws : List Word) (n : Nat) (w a : Word), m.val % 8 = 3 ∨ (4 ≤ m.val % 8 ∧ m.val ∉ [119, 127]) →
    ws.getLast? = some w → (s.xc m.val).stable + n < 3 →
    Gives (.xcValueAccept m ⟨ws, n⟩ (a, a)) s fun t => (t.xc m.val).pub = (s.xc m.val).pub ∧ (t.xc m.val).hold = some w ∧
      (t.xc m.val).accepted = (if a = (s.xc m.val).pub then a else (s.xc m.val).accepted)) ∧
  (∀ (s : State) (m : Fin 232) (ws : List Word) (n : Nat) (a b : Word),
    m.val % 8 = 3 ∨ (4 ≤ m.val % 8 ∧ m.val ∉ [119, 127]) → a ≠ b →
    Gives (.xcValueAccept m ⟨ws, n⟩ (a, b)) s fun t => (t.xc m.val).accepted = (s.xc m.val).accepted ∧
      t.f .PACE (PACE_XC_CNT m.val) 15 0 = min 65535 (s.f .PACE (PACE_XC_CNT m.val) 15 0 + 1)) ∧
  (∀ (s : State) (m : Fin 232) (ws : List Word) (n : Nat) (a b : Word), m.val % 8 < 3 ∨ m.val ∈ [119, 127] →
    exec (.xcValueAccept m ⟨ws, n⟩ (a, b)) s = .next s) ∧
  (∀ (s : State) (m : Fin 232) (vs : List Word) (v : Word), m.val % 8 = 2 ∨ (4 ≤ m.val % 8 ∧ m.val ∉ [119, 127]) →
    vs.getLast? = some v → Gives (.xcFabricRead m vs) s fun t => (t.xc m.val).read = v ∧ s.ChangesOnly t [.pace]) ∧
  (∀ (s : State) (m : Fin 232), m.val % 8 = 2 ∨ (4 ≤ m.val % 8 ∧ m.val ∉ [119, 127]) →
    Gives (.xcFabricRead m []) s fun t => (t.xc m.val).read = if (s.xc m.val).ann then (s.xc m.val).bufs.2 else (s.xc m.val).bufs.1) ∧
  (∀ (s : State) (m : Fin 232) (vs : List Word), m.val % 8 < 2 ∨ m.val % 8 = 3 ∨ m.val ∈ [119, 127] →
    exec (.xcFabricRead m vs) s = .next s)

/-- OP and MULDIV (R84, R85): the operations of Table 4-5 and their W forms on the low 32 bits, the result sign-extended;
the next instruction follows. A func that Table 4-5 does not list, W = 1 on an operation without a W form, and rs2 other
than g0 where it must be g0 trap ILLEGAL. -/
def Obligations.IntegerOperations : Prop :=
  (∀ (s : State) (a : Agent) (w : BitVec 26), Issues s a →
    let x := s.g a (fRs1 w)
    let y := s.g a (fRs2 w)
    ∀ p ∈ [(0x00, x + y), (0x01, x - y), (0x02, x &&& y), (0x03, x ||| y), (0x04, x ^^^ y), (0x05, x <<< (y.toNat % 64)),
      (0x06, x >>> (y.toNat % 64)), (0x07, x.sshiftRight (y.toNat % 64)), (0x08, if x.toInt < y.toInt then 1 else 0),
      (0x09, if x.toNat < y.toNat then 1 else 0), (0x0A, if x.toInt < y.toInt then x else y),
      (0x0B, if x.toInt < y.toInt then y else x), (0x0C, if x.toNat < y.toNat then x else y),
      (0x0D, if x.toNat < y.toNat then y else x), (0x0E, x &&& ~~~ y)],
      fFunc w = p.1 → Gives (.opReg a (1#6 ++ w)) s (Retired s · a (fRd w) p.2 (s.pc a + 4))) ∧
  (∀ (s : State) (a : Agent) (w : BitVec 26), Issues s a → fRs2 w = 0 →
    let x := s.g a (fRs1 w)
    let l := x.toNat % 2 ^ 32
    ∀ p ∈ [(0x0F, BitVec.ofNat 64 (clzN 64 x.toNat)), (0x10, BitVec.ofNat 64 (ctzN 64 x.toNat)),
      (0x11, BitVec.ofNat 64 (popN 64 x.toNat)), (0x12, BitVec.ofNat 64 (bswapN 8 x.toNat)),
      (0x4F, sext32 (BitVec.ofNat 32 (clzN 32 l))), (0x50, sext32 (BitVec.ofNat 32 (ctzN 32 l))),
      (0x51, sext32 (BitVec.ofNat 32 (popN 32 l))), (0x52, sext32 (BitVec.ofNat 32 (bswapN 4 l)))],
      fFunc w = p.1 → Gives (.opReg a (1#6 ++ w)) s (Retired s · a (fRd w) p.2 (s.pc a + 4))) ∧
  (∀ (s : State) (a : Agent) (w : BitVec 26), Issues s a →
    let x : BitVec 32 := (s.g a (fRs1 w)).setWidth 32
    let y : BitVec 32 := (s.g a (fRs2 w)).setWidth 32
    ∀ p ∈ [(0x40, x + y), (0x41, x - y), (0x45, x <<< (y.toNat % 32)), (0x46, x >>> (y.toNat % 32)),
      (0x47, x.sshiftRight (y.toNat % 32))],
      fFunc w = p.1 → Gives (.opReg a (1#6 ++ w)) s (Retired s · a (fRd w) (p.2.signExtend 64) (s.pc a + 4))) ∧
  (∀ (s : State) (a : Agent) (w : BitVec 26), Issues s a →
    (0x13 ≤ fFunc w ∧ fFunc w ≤ 0x3F) ∨ (0x42 ≤ fFunc w ∧ fFunc w ≤ 0x44) ∨ (0x48 ≤ fFunc w ∧ fFunc w ≤ 0x4E) ∨ 0x53 ≤ fFunc w ∨
      (fFunc w ∈ [0x0F, 0x10, 0x11, 0x12, 0x4F, 0x50, 0x51, 0x52] ∧ fRs2 w ≠ 0) →
    Gives (.opReg a (1#6 ++ w)) s (Trapped s · a 1 (BitVec.ofNat 64 (0x01 * 2 ^ 26 + w.toNat)))) ∧
  (∀ (s : State) (a : Agent) (w : BitVec 26), Issues s a →
    let x := s.g a (fRs1 w)
    let y := s.g a (fRs2 w)
    ∀ p ∈ [(0, x * y), (1, BitVec.ofInt 64 (x.toInt * y.toInt / 2 ^ 64)), (2, BitVec.ofNat 64 (x.toNat * y.toNat / 2 ^ 64)),
      (3, BitVec.ofInt 64 (x.toInt * y.toNat / 2 ^ 64)),
      (4, if y = 0 then 0 else if x = BitVec.intMin 64 ∧ y = BitVec.allOnes 64 then x else BitVec.ofInt 64 (x.toInt.tdiv y.toInt)),
      (5, if y = 0 then 0 else BitVec.ofNat 64 (x.toNat / y.toNat)),
      (6, if y = 0 then x else if x = BitVec.intMin 64 ∧ y = BitVec.allOnes 64 then 0 else BitVec.ofInt 64 (x.toInt.tmod y.toInt)),
      (7, if y = 0 then x else BitVec.ofNat 64 (x.toNat % y.toNat))],
      fFunc w = p.1 → Gives (.muldiv a w) s (Retired s · a (fRd w) p.2 (s.pc a + 4))) ∧
  (∀ (s : State) (a : Agent) (w : BitVec 26), Issues s a →
    let x : BitVec 32 := (s.g a (fRs1 w)).setWidth 32
    let y : BitVec 32 := (s.g a (fRs2 w)).setWidth 32
    ∀ p ∈ [(0x40, x * y),
      (0x44, if y = 0 then 0 else if x = BitVec.intMin 32 ∧ y = BitVec.allOnes 32 then x else BitVec.ofInt 32 (x.toInt.tdiv y.toInt)),
      (0x45, if y = 0 then 0 else BitVec.ofNat 32 (x.toNat / y.toNat)),
      (0x46, if y = 0 then x else if x = BitVec.intMin 32 ∧ y = BitVec.allOnes 32 then 0 else BitVec.ofInt 32 (x.toInt.tmod y.toInt)),
      (0x47, if y = 0 then x else BitVec.ofNat 32 (x.toNat % y.toNat))],
      fFunc w = p.1 → Gives (.muldiv a w) s (Retired s · a (fRd w) (p.2.signExtend 64) (s.pc a + 4))) ∧
  (∀ (s : State) (a : Agent) (w : BitVec 26), Issues s a →
    (0x08 ≤ fFunc w ∧ fFunc w ≤ 0x3F) ∨ (0x41 ≤ fFunc w ∧ fFunc w ≤ 0x43) ∨ 0x48 ≤ fFunc w →
    Gives (.muldiv a w) s (Trapped s · a 1 (BitVec.ofNat 64 (0x02 * 2 ^ 26 + w.toNat))))

/-- The immediate instructions (R86, Table 4-6): each writes rd as its row says; addpc with rs1 other than g0, and SHIFTI
with kind 3, with imm[12:6] other than 0, or with W and n[5], trap ILLEGAL. -/
def Obligations.ImmediateInstructions : Prop :=
  ∀ (s : State) (a : Agent) (w : BitVec 26), Issues s a →
    let x := s.g a (fRs1 w)
    let sx : Dword := (BitVec.ofNat 16 (fImm w)).signExtend 64
    let zx : Dword := BitVec.ofNat 64 (fImm w)
    let n := fImm w % 64
    (Gives (.addi a w) s (Retired s · a (fRd w) (x + sx) (s.pc a + 4))) ∧
    (Gives (.andi a w) s (Retired s · a (fRd w) (x &&& zx) (s.pc a + 4))) ∧
    (Gives (.ori a w) s (Retired s · a (fRd w) (x ||| zx) (s.pc a + 4))) ∧
    (Gives (.xori a w) s (Retired s · a (fRd w) (x ^^^ zx) (s.pc a + 4))) ∧
    (Gives (.setlti a w) s (Retired s · a (fRd w) (if x.toInt < sx.toInt then 1 else 0) (s.pc a + 4))) ∧
    (Gives (.setltui a w) s (Retired s · a (fRd w) (if x.toNat < sx.toNat then 1 else 0) (s.pc a + 4))) ∧
    (Gives (.addhi a w) s (Retired s · a (fRd w) (x + sx <<< 16) (s.pc a + 4))) ∧
    (Gives (.addxi a w) s (Retired s · a (fRd w) (x + sx <<< 32) (s.pc a + 4))) ∧
    (fRs1 w = 0 → Gives (.addpc a w) s (Retired s · a (fRd w) (s.pc a + sx <<< 16) (s.pc a + 4))) ∧
    (fRs1 w ≠ 0 → Gives (.addpc a w) s (Trapped s · a 1 (BitVec.ofNat 64 (0x0C * 2 ^ 26 + w.toNat)))) ∧
    (fImm w / 64 = 0 → Gives (.shifti a w) s (Retired s · a (fRd w) (x <<< n) (s.pc a + 4))) ∧
    (fImm w / 64 = 0x100 → Gives (.shifti a w) s (Retired s · a (fRd w) (x >>> n) (s.pc a + 4))) ∧
    (fImm w / 64 = 0x200 → Gives (.shifti a w) s (Retired s · a (fRd w) (x.sshiftRight n) (s.pc a + 4))) ∧
    (fImm w / 32 = 0x100 →
      Gives (.shifti a w) s (Retired s · a (fRd w) ((x.setWidth 32 <<< n).signExtend 64) (s.pc a + 4))) ∧
    (fImm w / 32 = 0x300 →
      Gives (.shifti a w) s (Retired s · a (fRd w) ((x.setWidth 32 >>> n).signExtend 64) (s.pc a + 4))) ∧
    (fImm w / 32 = 0x500 →
      Gives (.shifti a w) s (Retired s · a (fRd w) (((x.setWidth 32).sshiftRight n).signExtend 64) (s.pc a + 4))) ∧
    (0xC000 ≤ fImm w ∨ fImm w / 64 % 128 ≠ 0 ∨ (fImm w / 0x2000 % 2 = 1 ∧ fImm w / 32 % 2 = 1) → Gives (.shifti a w) s (Trapped s · a 1 (BitVec.ofNat 64 (0x09 * 2 ^ 26 + w.toNat))))

/-- Control transfer (R87): the targets of branches, jmp, call and jreg, counted from the instruction's own address, and the
FETCH_MISALIGN of a jreg target that is no multiple of 4. -/
def Obligations.ControlTransfer : Prop :=
  ∀ (s : State) (a : Agent) (w : BitVec 26), Issues s a →
    let x := s.g a (fRd w)
    let y := s.g a (fRs1 w)
    let to16 := s.pc a + (BitVec.ofNat 16 (fImm w)).signExtend 64 * 4
    let to26 := s.pc a + w.signExtend 64 * 4
    let t := y + (BitVec.ofNat 16 (fImm w)).signExtend 64
    (Gives (.beq a w) s (Retired s · a 0 0 (if x = y then to16 else s.pc a + 4))) ∧
    (Gives (.bne a w) s (Retired s · a 0 0 (if x ≠ y then to16 else s.pc a + 4))) ∧
    (Gives (.blt a w) s (Retired s · a 0 0 (if x.toInt < y.toInt then to16 else s.pc a + 4))) ∧
    (Gives (.bge a w) s (Retired s · a 0 0 (if y.toInt ≤ x.toInt then to16 else s.pc a + 4))) ∧
    (Gives (.bltu a w) s (Retired s · a 0 0 (if x.toNat < y.toNat then to16 else s.pc a + 4))) ∧
    (Gives (.bgeu a w) s (Retired s · a 0 0 (if y.toNat ≤ x.toNat then to16 else s.pc a + 4))) ∧
    (Gives (.jmp a w) s (Retired s · a 0 0 to26)) ∧
    (Gives (.call a w) s (Retired s · a 1 (s.pc a + 4) to26)) ∧
    (t.toNat % 4 = 0 → Gives (.jreg a w) s (Retired s · a (fRd w) (s.pc a + 4) t)) ∧
    (t.toNat % 4 ≠ 0 → Gives (.jreg a w) s (Trapped s · a 2 t))

/-- The traps an instruction takes on purpose, and the returns (R100, R103): SYSCALL names the level it comes from and BREAK
its own address; rtn gives back level, EV_X, at M FPEN, and the program counter; tret ends a tile's trap. rtn at U level,
and SYSCALL and rtn on a tile or tret on a host core (R96, R97), are ILLEGAL. The fetch that comes before every instruction
(R79, R101, R105, R144, R149): an agent that does not run, or waits, issues nothing; a host core takes an event first; a
fetch that traps takes its trap, one that waits for its NOR bank issues nothing; and otherwise the instruction acts on the
state that its fetch leaves, in which the page's translation is cached. The order in which a host core takes simultaneous
events (R101): M event, M timer, M software, S event, S timer, S software; M sources below M or with EV_M, S sources below M
and below S or with EV_S. Where the spec is silent the statement follows the model's choice: assumption log 128, 129 and
132. -/
def Obligations.TrapsReturnsAndEvents : Prop :=
  (∀ (s : State) (c : Fin 8) (w : BitVec 26), Issues s (.host c) → sysPlain w = true →
    Gives (.syscall (.host c) w) s (HostTrap s · c false (if (s.cpu (.host c)).level = 0 then 0x0D
      else if (s.cpu (.host c)).level = 1 then 0x0E else 0x0F) 0)) ∧
  (∀ (s : State) (n : Fin 258) (w : BitVec 26), Issues s (.tile n) →
    Gives (.syscall (.tile n) w) s (TileTrap s · n 1 (BitVec.ofNat 64 (0x2A * 2 ^ 26 + w.toNat)))) ∧
  (∀ (s : State) (a : Agent) (w : BitVec 26), Issues s a → sysPlain w = true → Gives (.brk a w) s (Trapped s · a 0x0C (s.pc a))) ∧
  (∀ (s : State) (c : Fin 8) (w : BitVec 26), Issues s (.host c) → (s.cpu (.host c)).level ≠ 0 → sysPlain w = true →
    let a : Agent := .host c
    let m := decide ((s.cpu a).level = 3)
    let x := if m then 0x600 else 0x200
    let p := s.sysRaw a (x + 5)
    Gives (.rtn a w) s fun t => (t.cpu a).level = p.toNat % 4 ∧ t.pc a = s.sysRaw a (x + 2) ∧
      dbit (t.sysRaw a 0x600) (if m then 0 else 1) = dbit p 2 ∧
      dbit (t.sysRaw a 0x600) 2 = (if m then dbit p 3 else dbit (s.sysRaw a 0x600) 2) ∧
      t.sysRaw a (x + 5) = p ∧ t.sysRaw a (x + 2) = s.sysRaw a (x + 2) ∧ (∀ k, t.g a k = s.g a k)) ∧
  (∀ (s : State) (a : Agent) (w : BitVec 26), Issues s a → (∃ n, a = .tile n) ∨ (s.cpu a).level = 0 →
    Gives (.rtn a w) s (Trapped s · a 1 (BitVec.ofNat 64 (0x2A * 2 ^ 26 + w.toNat)))) ∧
  (∀ (s : State) (n : Fin 258) (w : BitVec 26), Issues s (.tile n) → sysPlain w = true →
    Gives (.tret (.tile n) w) s fun t => t.pc (.tile n) = s.sysRaw (.tile n) 0x701 ∧ (t.cpu (.tile n)).trapped = false ∧
      ∀ k, t.g (.tile n) k = s.g (.tile n) k) ∧
  (∀ (s : State) (c : Fin 8) (w : BitVec 26), Issues s (.host c) →
    Gives (.tret (.host c) w) s (HostTrap s · c false 1 (BitVec.ofNat 64 (0x2A * 2 ^ 26 + w.toNat)))) ∧
  (∀ (s : State) (a : Agent) (w : BitVec 26), Issues s a → sysPlain w = false →
    Gives (.syscall a w) s (Trapped s · a 1 (BitVec.ofNat 64 (0x2A * 2 ^ 26 + w.toNat))) ∧
    Gives (.brk a w) s (Trapped s · a 1 (BitVec.ofNat 64 (0x2A * 2 ^ 26 + w.toNat))) ∧
    Gives (.rtn a w) s (Trapped s · a 1 (BitVec.ofNat 64 (0x2A * 2 ^ 26 + w.toNat))) ∧
    Gives (.tret a w) s (Trapped s · a 1 (BitVec.ofNat 64 (0x2A * 2 ^ 26 + w.toNat))) ∧
    Gives (.waitev a w) s (Trapped s · a 1 (BitVec.ofNat 64 (0x2A * 2 ^ 26 + w.toNat)))) ∧
  (∀ (s : State) (a : Agent) (op : BitVec 6) (w : BitVec 26), Issues s a →
    op ∈ [0x00, 0x16, 0x17, 0x1F, 0x35, 0x36, 0x37, 0x3C, 0x3D, 0x3E, 0x3F] →
    Gives (.opReg a (op ++ w)) s (Trapped s · a 1 (BitVec.ofNat 64 (op.toNat * 2 ^ 26 + w.toNat)))) ∧
  (∀ (s : State) (a : Agent) (w : BitVec 26), ∀ i ∈ agentRows a w,
     (s.ready a = false → exec i s = .next s) ∧
     (∀ (c : Fin 8) (e : Nat), a = .host c → s.ready a = true → s.eventToTake a = some e →
       Gives i s (HostTrap s · c true e 0)) ∧
     (s.ready a = true → s.preempts a = false →
       (∀ e, (s.fetch a).1 = .trap e → Gives i s (Trapped s · a e (s.pc a))) ∧
       ((s.fetch a).1 = .wait → exec i s = .next (s.fetch a).2) ∧
       ((s.fetch a).1 = .word → exec i s = exec i (s.fetch a).2 ∧ ∃ l, (s.fetch a).2 = s.putTlb l) ∧
       ((s.pc a).toNat % 4 ≠ 0 → (s.fetch a).1 = .trap 2))) ∧
  (∀ (s : State) (c : Fin 8),
     let a : Agent := .host c
     let on := s.sysRaw a 0x609 &&& s.evPending a
     let m := (s.cpu a).level < 3 ∨ dbit (s.sysRaw a 0x600) 0 = true
     let u := (s.cpu a).level < 3 ∧ ((s.cpu a).level < 1 ∨ dbit (s.sysRaw a 0x600) 1 = true)
     (m → dbit on 10 = true → s.eventToTake a = some 10) ∧
     (m → dbit on 10 = false → dbit on 9 = true → s.eventToTake a = some 9) ∧
     (m → dbit on 10 = false → dbit on 9 = false → dbit on 8 = true → s.eventToTake a = some 8) ∧
     (¬ m ∨ (dbit on 10 = false ∧ dbit on 9 = false ∧ dbit on 8 = false) →
       (u → dbit on 2 = true → s.eventToTake a = some 2) ∧
       (u → dbit on 2 = false → dbit on 1 = true → s.eventToTake a = some 1) ∧
       (u → dbit on 2 = false → dbit on 1 = false → dbit on 0 = true → s.eventToTake a = some 0) ∧
       (¬ u ∨ (dbit on 2 = false ∧ dbit on 1 = false ∧ dbit on 0 = false) → s.eventToTake a = none)))

/-- SYSREG (R97, R98), pgsync (R106), waitev and events (R101, R102), and PGH_CORE[c]_SWI (Table 6-10). Where the spec is
silent the statement follows the model's choice: assumption log 4, 21, 128 and 130. -/
def Obligations.SystemInstructions : Prop :=
  (∀ (s : State) (a : Agent) (w : BitVec 26) (n : Nat), Issues s a → fImm w = n → n < 0x1000 → fRs1 w = 0 → s.sysMay a n = true →
    n ≠ 0x021 → Gives (.sysreg a w) s (Retired s · a (fRd w) (s.sysShow a n) (s.pc a + 4))) ∧
  (∀ (s : State) (a : Agent) (w : BitVec 26), Issues s a → fImm w = 0x021 → fRs1 w = 0 → s.sysMay a 0x021 = true →
    Gives (.sysreg a w) s fun t => ∃ v, NowReads s a 0 v ∧ (t.cpu a).lastNow = v ∧
      Retired s t a (fRd w) (BitVec.ofNat 64 v) (s.pc a + 4)) ∧
  (∀ (s : State) (a : Agent) (w : BitVec 26) (n : Nat), Issues s a → fImm w = 0x4000 + n →
    n ∈ [0x204, 0x206, 0x208, 0x604, 0x606, 0x608, 0x703, 0x704] → s.sysMay a n = true →
    Gives (.sysreg a w) s fun t => t.sysRaw a n = s.g a (fRs1 w) ∧ t.pc a = s.pc a + 4 ∧
      ∀ k, t.g a k = if k = fRd w ∧ k ≠ 0 then s.sysRaw a n else s.g a k) ∧
  (∀ (s : State) (a : Agent) (w : BitVec 26) (n : Nat), Issues s a → fImm w = 0x8000 + n →
    n ∈ [0x204, 0x206, 0x208, 0x604, 0x606, 0x608, 0x703, 0x704] → s.sysMay a n = true →
    let mask := s.g a (fRd w)
    Gives (.sysreg a w) s fun t => t.sysRaw a n = (s.sysRaw a n &&& ~~~ mask) ||| (s.g a (fRs1 w) &&& mask) ∧
      t.pc a = s.pc a + 4 ∧ ∀ k, t.g a k = if k = fRd w ∧ k ≠ 0 then s.sysRaw a n else s.g a k) ∧
  (∀ (s : State) (a : Agent) (w : BitVec 26) (n : Nat), Issues s a → fImm w = 0x4000 + n → n ∈ [0x021, 0x022, 0x023] →
    Gives (.sysreg a w) s (Trapped s · a 1 (BitVec.ofNat 64 (0x2B * 2 ^ 26 + w.toNat)))) ∧
  (∀ (s : State) (a : Agent) (w : BitVec 26), Issues s a → s.sysMay a (fImm w % 0x1000) = false →
    Gives (.sysreg a w) s (Trapped s · a 1 (BitVec.ofNat 64 (0x2B * 2 ^ 26 + w.toNat)))) ∧
  (∀ (s : State) (c : Fin 8) (w : BitVec 26), Issues s (.host c) → (s.cpu (.host c)).level ≠ 0 → fRd w = 0 →
    Gives (.pgsync (.host c) w) s fun t => t.pc (.host c) = s.pc (.host c) + 4 ∧
      (∀ e ∈ t.tlb.get [] c.val, e ∈ s.tlb.get [] c.val) ∧ t.sbuf.get [] c.val = [] ∧
      (fRs1 w = 0 → fRs2 w = 0 → t.tlb.get [] c.val = [] ∧
        ∀ asid va, t.walkMem c.val asid va = t.putMem (s.drainStores (.host c)).mem)) ∧
  (∀ (s : State) (c : Fin 8) (w : BitVec 26), Issues s (.host c) → fRd w ≠ 0 →
    Gives (.pgsync (.host c) w) s (HostTrap s · c false 1 (BitVec.ofNat 64 (0x2A * 2 ^ 26 + w.toNat)))) ∧
  (∀ (s : State) (n : Fin 258) (w : BitVec 26), Issues s (.tile n) →
    Gives (.pgsync (.tile n) w) s (TileTrap s · n 1 (BitVec.ofNat 64 (0x2A * 2 ^ 26 + w.toNat)))) ∧
  (∀ (s : State) (n : Fin 258) (w : BitVec 26), Issues s (.tile n) → sysPlain w = true →
    Gives (.waitev (.tile n) w) s fun t => t.pc (.tile n) = s.pc (.tile n) + 4 ∧ (t.cpu (.tile n)).blocked = .waitev) ∧
  (∀ (s : State) (c : Fin 8) (w : BitVec 26), Issues s (.host c) → (s.cpu (.host c)).level = 0 →
    Gives (.pgsync (.host c) w) s (HostTrap s · c false 1 (BitVec.ofNat 64 (0x2A * 2 ^ 26 + w.toNat))) ∧
    Gives (.waitev (.host c) w) s (HostTrap s · c false 1 (BitVec.ofNat 64 (0x2A * 2 ^ 26 + w.toNat)))) ∧
  (∀ (s : State) (c : Fin 8) (w : BitVec 26), Issues s (.host c) → (s.cpu (.host c)).level ≠ 0 → sysPlain w = true →
    Gives (.waitev (.host c) w) s fun t => t.pc (.host c) = s.pc (.host c) + 4 ∧
      t.f .SYS (SYS_HOST_STATUS c.val) 1 0 = (if s.sysRaw (.host c) 0x609 &&& s.evPending (.host c) = 0 then 2 else 1)) ∧
  (∀ (s : State) (c : Fin 8), s.f .SYS (SYS_HOST_STATUS c.val) 1 0 = 2 →
    s.sysRaw (.host c) 0x609 &&& s.evPending (.host c) ≠ 0 →
    Gives (.waitevResume c) s fun t => t.f .SYS (SYS_HOST_STATUS c.val) 1 0 = 1 ∧ t.cpus = s.cpus) ∧
  (∀ (s : State) (c : Fin 8) (e : Nat), s.f .SYS (SYS_HOST_STATUS c.val) 1 0 = 1 ∨ s.f .SYS (SYS_HOST_STATUS c.val) 1 0 = 2 →
    s.eventToTake (.host c) = some e →
    Gives (.eventTaken c) s fun t => HostTrap s t c true e 0 ∧ t.f .SYS (SYS_HOST_STATUS c.val) 1 0 = 1) ∧
  (∀ (s : State) (c : Fin 8) (m : Bool), s.f .SYS (SYS_HOST_STATUS c.val) 1 0 = 2 →
    (s.sysRaw (.host c) (if m then 0x608 else 0x208)).toNat ≤ s.now →
    dbit (s.sysRaw (.host c) 0x609) (if m then 9 else 1) = true →
    Gives (.tcmpExpiry c m) s fun t => t.f .SYS (SYS_HOST_STATUS c.val) 1 0 = 1) ∧
  (∀ (s : State) (c : Fin 8) (v : Word),
    Gives (.pghSwi c v) s fun t => dbit (t.sysRaw (.host c) 0x60A) 8 = (dbit (s.sysRaw (.host c) 0x60A) 8 || bitOf v 1) ∧
      dbit (t.sysRaw (.host c) 0x60A) 0 = (dbit (s.sysRaw (.host c) 0x60A) 0 || bitOf v 0))

/-- Floating point (R92–R97, Table 4-7): every FOP word that the table gives a result writes it, ORs its flags into FSTAT
and goes on; the operations, and those of the FMADD family, are named by what they compute; every other word, and any while
FPEN is 0 on a host core, is ILLEGAL. Where the spec is silent the statement follows the model's choice: assumption log 103,
113 and 114. -/
def Obligations.FloatingPoint : Prop :=
  (∀ (s : State) (a : Agent) (w : BitVec 26), Issues s a → s.fpOn a = true → s.FopOk a w →
    let op := fFunc w / 64
    let F := fmtOf a (fFunc w % 8)
    let r := s.rmFor a w
    let xb := s.fop a F (fRs1 w)
    let yb := s.fop a F (fRs2 w)
    let x := F.val xb
    let y := F.val yb
    let g := s.g a (fRs1 w)
    let k := fRs2 w
    (∀ p ∈ [(0x00, F.addV r x y), (0x01, F.addV r x y.neg), (0x02, F.mulV r x y), (0x03, F.divV r x y), (0x04, F.sqrtV r x),
      (0x05, F.minMax false xb yb), (0x06, F.minMax true xb yb), (0x07, ⟨F.withSign xb (F.sign yb), 0⟩),
      (0x08, ⟨F.withSign xb (!F.sign yb), 0⟩), (0x09, ⟨F.withSign xb (F.sign xb != F.sign yb), 0⟩),
      (0x0E, F.ofVal r ((fmtOf a k).val (s.fop a (fmtOf a k) (fRs1 w)))), (0x10, F.ofInt r (intSource k g) 0),
      (0x12, ⟨g.toNat % 2 ^ (F.eb + F.mb + 1), 0⟩), (0x14, F.ofInt r (g.setWidth 32 : BitVec 32).toInt (-16))],
      op = p.1 → Gives (.fop a w) s (FpRetired s · a (fRd w) p.2)) ∧
    (∀ p ∈ [(0x0A, if x.eq y then (1 : Dword) else 0, if x.signals || y.signals then fNV else 0),
      (0x0B, if x.lt y then 1 else 0, if x.isNan || y.isNan then fNV else 0),
      (0x0C, if x.lt y || x.eq y then 1 else 0, if x.isNan || y.isNan then fNV else 0),
      (0x0D, BitVec.ofNat 64 (F.classOf xb), 0),
      (0x11, if fFunc w % 8 = 0 then (BitVec.ofNat 32 xb).signExtend 64 else BitVec.ofNat 64 xb, 0),
      (0x13, BitVec.ofInt 64 (x.toInt r 16 (-2147483648) 2147483647).1, (x.toInt r 16 (-2147483648) 2147483647).2)],
      op = p.1 → Gives (.fop a w) s (FgRetired s · a (fRd w) p.2.1 p.2.2)) ∧
    (∀ p ∈ [(0, (-2147483648 : Int), (2147483647 : Int)), (1, 0, 4294967295), (2, -9223372036854775808, 9223372036854775807),
      (3, 0, 18446744073709551615)], op = 0x0F → k = p.1 →
      let q := x.toInt r 0 p.2.1 p.2.2
      Gives (.fop a w) s (FgRetired s · a (fRd w)
        (if k ≤ 1 then (BitVec.ofInt 32 q.1).signExtend 64 else BitVec.ofInt 64 q.1) q.2))) ∧
  (∀ (s : State) (a : Agent) (w : BitVec 26), Issues s a → s.fpOn a = false ∨ ¬ s.FopOk a w →
    Gives (.fop a w) s (Trapped s · a 1 (BitVec.ofNat 64 (0x2C * 2 ^ 26 + w.toNat)))) ∧
  (∀ (s : State) (a : Agent) (w : BitVec 26), Issues s a → s.fpOn a = true → FmtOk a (fFunc w % 8) →
    1 ≤ s.rmNo a w → s.rmNo a w ≤ 5 →
    let F := fmtOf a (fFunc w % 8)
    let r := s.rmFor a w
    let x := F.val (s.fop a F (fRs1 w))
    let y := F.val (s.fop a F (fRs2 w))
    let z := F.val (s.fop a F (fFunc w / 64))
    Gives (.fmadd a w) s (FpRetired s · a (fRd w) (F.fmaV r x y z)) ∧
    Gives (.fmsub a w) s (FpRetired s · a (fRd w) (F.fmaV r x y z.neg)) ∧
    Gives (.fnmadd a w) s (FpRetired s · a (fRd w) (F.fmaV r x.neg y z.neg)) ∧
    Gives (.fnmsub a w) s (FpRetired s · a (fRd w) (F.fmaV r x.neg y z))) ∧
  (∀ (s : State) (a : Agent) (w : BitVec 26), Issues s a →
    s.fpOn a = false ∨ ¬ FmtOk a (fFunc w % 8) ∨ s.rmNo a w = 0 ∨ 5 < s.rmNo a w →
    ∀ p ∈ [(Instr.fmadd a w, 0x2D), (Instr.fmsub a w, 0x2E), (Instr.fnmadd a w, 0x2F), (Instr.fnmsub a w, 0x30)],
      Gives p.1 s (Trapped s · a 1 (BitVec.ofNat 64 (p.2 * 2 ^ 26 + w.toNat))))

/-- Loads (R88, R89): each width reads its bytes, least significant first, extends them by sign or by zeros, and leaves
memory as it was; an agent reads memory as its own waiting stores leave it. An address that is not aligned raises
LOAD_MISALIGN; poisoned data raises DATA_POISON and writes no register. Where the spec is silent the statement follows the
model's choice: assumption log 115, 116 and 134. -/
def Obligations.Loads : Prop :=
  (∀ (s : State) (a : Agent) (w : BitVec 26) (pa : Nat), Issues s a → Memory.wf s.mem = true →
    let va := s.g a (fRs1 w) + fSimm w
    ∀ p ∈ [(Instr.ldb a w, 1, true), (Instr.ldbu a w, 1, false), (Instr.ldh a w, 2, true), (Instr.ldhu a w, 2, false),
      (Instr.ldw a w, 4, true), (Instr.ldwu a w, 4, false), (Instr.ldd a w, 8, false)],
      Sees s a va.toNat p.2.1 pa →
      let v := (s.drainStores a).mem64 pa p.2.1
      Gives p.1 s (Retired s · a (fRd w)
        (if p.2.2 then (BitVec.ofNat (8 * p.2.1) v).signExtend 64 else BitVec.ofNat 64 v) (s.pc a + 4))) ∧
  (∀ (s : State) (a : Agent) (w : BitVec 26) (pa : Nat), Issues s a → Memory.wf s.mem = true → s.fpOn a = true →
    let va := s.g a (fRs1 w) + fSimm w
    ∀ p ∈ [(Instr.flds a w, 4), (Instr.fldd a w, 8)], p.2 = 4 ∨ isHost a = true → Sees s a va.toNat p.2 pa →
      Gives p.1 s fun t => t.fr a (fRd w) = BitVec.ofNat 64 ((s.drainStores a).mem64 pa p.2) ∧ t.pc a = s.pc a + 4 ∧ t.mem = s.mem ∧
        (∀ k, t.g a k = s.g a k) ∧ ∀ k, k ≠ fRd w → t.fr a k = s.fr a k) ∧
  (∀ (s : State) (n : Fin 258) (w : BitVec 26), Issues s (.tile n) →
    Gives (.fldd (.tile n) w) s (TileTrap s · n 1 (BitVec.ofNat 64 (0x25 * 2 ^ 26 + w.toNat)))) ∧
  (∀ (s : State) (a : Agent) (w : BitVec 26), Issues s a →
    let va := s.g a (fRs1 w) + fSimm w
    ∀ p ∈ [(Instr.ldh a w, 2), (Instr.ldhu a w, 2), (Instr.ldw a w, 4), (Instr.ldwu a w, 4), (Instr.ldd a w, 8)],
      va.toNat % p.2 ≠ 0 → Gives p.1 s (Trapped s · a 5 va)) ∧
  (∀ (s : State) (c : Fin 8) (w : BitVec 26), Issues s (.host c) → (s.cpu (.host c)).level = 3 →
    let va := s.g (.host c) (fRs1 w) + fSimm w
    va.toNat % 8 = 0 → va.toNat < 0x3E0000000 → s.poison.get false (granule va.toNat) = true →
    s.latent.get 0 (granule va.toNat) = 0 → s.sbuf.get [] c.val = [] →
    Gives (.ldd (.host c) w) s (HostTrap s · c false 0xB va)) ∧
  (∀ (s : State) (c : Fin 8) (w : BitVec 26), Issues s (.host c) → (s.cpu (.host c)).level = 3 →
    let va := s.g (.host c) (fRs1 w) + fSimm w
    va.toNat % 8 = 0 → regionOf va.toNat = .unmapped → Gives (.ldd (.host c) w) s (HostTrap s · c false 6 va))

/-- Stores (R88, R89, R107, R113): the low bytes of the register wait in the agent's buffer, in program order, and memory
holds them once the store is visible; a fence of stores to loads and an arriving fence make them visible (R111). Where the
spec is silent the statement follows the model's choice: assumption log 24 and 115. -/
def Obligations.Stores : Prop :=
  (∀ (s : State) (a : Agent) (w : BitVec 26) (pa : Nat), Issues s a →
    let va := s.g a (fRs1 w) + fSimm w
    ∀ p ∈ [(Instr.stb a w, 1), (Instr.sth a w, 2), (Instr.stw a w, 4), (Instr.std a w, 8)], va.toNat % p.2 = 0 →
      s.translate a .store va.toNat = (.ok pa false, s) → regionOf pa ∈ [.dram, .tile, .endp, .tbl] →
      Gives p.1 s fun t => Retired s t a 0 0 (s.pc a + 4) ∧ t.sbuf.get [] (agentKey a) =
        s.sbuf.get [] (agentKey a) ++ [(pa, leBytes p.2 ((s.g a (fRd w)).toNat % 2 ^ (8 * p.2)))]) ∧
  (∀ (s : State) (a : Agent) (w : BitVec 26) (pa : Nat), Issues s a → s.fpOn a = true →
    let va := s.g a (fRs1 w) + fSimm w
    ∀ p ∈ [(Instr.fsts a w, 4), (Instr.fstd a w, 8)], p.2 = 4 ∨ isHost a = true → va.toNat % p.2 = 0 →
      s.translate a .store va.toNat = (.ok pa false, s) → regionOf pa ∈ [.dram, .tile, .endp, .tbl] →
      Gives p.1 s fun t => Retired s t a 0 0 (s.pc a + 4) ∧ t.sbuf.get [] (agentKey a) =
        s.sbuf.get [] (agentKey a) ++ [(pa, leBytes p.2 ((s.fr a (fRd w)).toNat % 2 ^ (8 * p.2)))]) ∧
  (∀ (s : State) (a : Agent) (w : BitVec 26), Issues s a →
    let va := s.g a (fRs1 w) + fSimm w
    ∀ p ∈ [(Instr.sth a w, 2), (Instr.stw a w, 4), (Instr.std a w, 8)],
      va.toNat % p.2 ≠ 0 → Gives p.1 s (Trapped s · a 8 va)) ∧
  (∀ (s : State) (c : Fin 8) (w : BitVec 26), Issues s (.host c) → (s.cpu (.host c)).level = 3 →
    let va := s.g (.host c) (fRs1 w) + fSimm w
    va.toNat % 8 = 0 → regionOf va.toNat = .unmapped ∨ regionOf va.toNat = .nor ∨ regionOf va.toNat = .mram →
    Gives (.std (.host c) w) s (HostTrap s · c false 9 va)) ∧
  (∀ (s : State) (a : Agent) (i : Nat) (f : Nat × List Byte), s.dieOn = true → (s.sbuf.get [] (agentKey a))[i]? = some f → f.2 ≠ [] →
    (∀ j < i, ∀ e, (s.sbuf.get [] (agentKey a))[j]? = some e →
      e.2 ≠ [] ∧ (f.1 + f.2.length ≤ e.1 ∨ e.1 + e.2.length ≤ f.1)) → regionOf f.1 = .dram ∨ regionOf f.1 = .tile →
    Gives (.storeVisible a i) s fun t => (∀ x, t.rdB x = if f.1 ≤ x ∧ x < f.1 + f.2.length then f.2.getD (x - f.1) 0 else s.rdB x) ∧
      t.cpus = s.cpus ∧ (∀ e ∈ t.sbuf.get [] (agentKey a), e ∈ s.sbuf.get [] (agentKey a)) ∧
      (t.sbuf.get [] (agentKey a)).length < (s.sbuf.get [] (agentKey a)).length) ∧
  (∀ (s : State) (a : Agent) (i : Nat) (f : Nat × List Byte), s.dieOn = true → (s.sbuf.get [] (agentKey a))[i]? = some f →
    (∃ j < i, ∃ e, (s.sbuf.get [] (agentKey a))[j]? = some e ∧ (e.2 = [] ∨ (e.1 < f.1 + f.2.length ∧ f.1 < e.1 + e.2.length))) →
    exec (.storeVisible a i) s = .next s) ∧
  (∀ (s : State) (a : Agent) (i : Nat) (f : Nat × List Byte), s.dieOn = true → (s.sbuf.get [] (agentKey a))[i]? = some f →
    regionOf f.1 = .endp → isHost a = false ∨ s.f .SYS (SYS_TILE_STATE ((f.1 - endpBase) / 0x4000)) 1 0 = 1 →
    Gives (.storeVisible a i) s fun t => t.mem = s.mem ∧ t.poison = s.poison) ∧
  (∀ (s : State) (a : Agent) (w : BitVec 26), Issues s a → fFunc w ≠ 0 → (fFunc w).testBit 8 = false →
    fRd w = 0 → fRs1 w = 0 → fRs2 w = 0 →
    let l := s.sbuf.get [] (agentKey a)
    let d := (fFunc w).testBit 2 || (fFunc w).testBit 4 || (fFunc w).testBit 7 || (fFunc w).testBit 9
    let l' := if d then [] else l ++ (if (fFunc w).testBit 3 && !l.isEmpty then [(0, [])] else [])
    Gives (.fence a w) s fun t => t.sbuf.get [] (agentKey a) = l' ∧
      (∀ x, t.rdB x = if d then (s.drainStores a).rdB x else s.rdB x) ∧ (∀ k, t.g a k = s.g a k) ∧
      if (fFunc w).testBit 10 && !l'.isEmpty then t.pc a = s.pc a ∧ (t.cpu a).blocked = .fence
      else t.pc a = s.pc a + 4 ∧ (t.cpu a).blocked = .no) ∧
  (∀ (s : State) (c : Fin 8) (w : BitVec 26) (pa : Nat) (l : List Byte), Issues s (.host c) → fFunc w = 0x4 →
    fRd w = 0 → fRs1 w = 0 → fRs2 w = 0 → s.sbuf.get [] c.val = [(pa, l)] → regionOf pa = .dram →
    Gives (.fence (.host c) w) s fun t => t.pc (.host c) = s.pc (.host c) + 4 ∧ t.sbuf.get [] c.val = [] ∧
      ∀ x, t.rdB x = if pa ≤ x ∧ x < pa + l.length then l.getD (x - pa) 0 else s.rdB x) ∧
  (∀ (s : State) (a : Agent) (w : BitVec 26), Issues s a → fFunc w = 0x400 → fRd w = 0 → fRs1 w = 0 → fRs2 w = 0 →
    Gives (.fence a w) s fun t => (s.sbuf.get [] (agentKey a) = [] → Retired s t a 0 0 (s.pc a + 4)) ∧
      (s.sbuf.get [] (agentKey a) ≠ [] → (t.cpu a).blocked = .fence ∧ t.pc a = s.pc a)) ∧
  (∀ (s : State) (a : Agent) (w : BitVec 26), Issues s a →
    fFunc w = 0 ∨ (fFunc w).testBit 8 = true ∨ fRd w ≠ 0 ∨ fRs1 w ≠ 0 ∨ fRs2 w ≠ 0 →
    Gives (.fence a w) s (Trapped s · a 1 (BitVec.ofNat 64 (0x29 * 2 ^ 26 + w.toNat)))) ∧
  (∀ (s : State) (a : Agent), s.runs a = true → (s.cpu a).blocked = .fence →
    Gives (.fenceArriveDone (.core a)) s fun t => (t.cpu a).blocked = .no ∧ t.pc a = s.pc a + 4 ∧
      t.sbuf.get [] (agentKey a) = [])

/-- Atomics (R90): on a word of memory, after the agent's waiting stores to it (with release order all of them), each
operation writes the new word and returns the old one (a 32-bit word sign-extended) with no other byte changed. A misaligned
address raises STORE_MISALIGN, an operation that R90 does not list and func[7:5] other than 0 are ILLEGAL, and Tabletop SRAM
raises STORE_FAULT. Where the spec is silent the statement follows the model's choice: assumption log 25 and 116. -/
def Obligations.Atomics : Prop :=
  (∀ (s : State) (a : Agent) (w : BitVec 26) (pa : Nat), Issues s a → Memory.wf s.mem = true →
    s.translate a .store (s.g a (fRs1 w)).toNat = (.ok pa false, s) → regionOf pa = .dram ∨ regionOf pa = .tile →
    let d := if 2 ≤ fFunc w / 512 then s.drainStores a else s.drainTo a pa (if (fFunc w).testBit 8 then 8 else 4)
    ∀ n ∈ [4, 8], fFunc w / 32 % 16 = (if n = 8 then 8 else 0) → (s.g a (fRs1 w)).toNat % n = 0 →
    (∀ g ∈ granules pa n, d.latent.get 0 g = 0 ∧ d.poison.get false g = false) →
    let m := 2 ^ (8 * n)
    let old := d.mem64 pa n
    let y := (s.g a (fRs2 w)).toNat % m
    let was := (s.g a (fRd w)).toNat % m
    let sy := (BitVec.ofNat (8 * n) y).toInt
    let so := (BitVec.ofNat (8 * n) old).toInt
    ∀ p ∈ [(0x00, y), (0x01, if old = was then y else old), (0x02, (old + y) % m), (0x03, (old + m - y) % m), (0x04, old ||| y),
      (0x05, old &&& (m - 1 - y)), (0x06, old ^^^ y), (0x07, if sy < so then y else old), (0x08, if so < sy then y else old),
      (0x09, min old y), (0x0A, max old y), (0x0B, if old < y then old + 1 else old)],
      fFunc w % 32 = p.1 →
      Gives (.atom a w) s fun t => t.pc a = s.pc a + 4 ∧
        (∀ k, t.g a k = if k = fRd w ∧ k ≠ 0 then (BitVec.ofNat (8 * n) old).signExtend 64 else s.g a k) ∧
        (∀ x, t.rdB x = if pa ≤ x ∧ x < pa + n then (leBytes n p.2).getD (x - pa) 0 else d.rdB x)) ∧
  (∀ (s : State) (a : Agent) (w : BitVec 26), Issues s a → fFunc w / 32 % 8 = 0 → fFunc w % 32 < 0x0C →
    (s.g a (fRs1 w)).toNat % (if (fFunc w).testBit 8 then 8 else 4) ≠ 0 →
    Gives (.atom a w) s (Trapped s · a 8 (s.g a (fRs1 w)))) ∧
  (∀ (s : State) (a : Agent) (w : BitVec 26), Issues s a → fFunc w / 32 % 8 ≠ 0 ∨ 0x0C ≤ fFunc w % 32 →
    Gives (.atom a w) s (Trapped s · a 1 (BitVec.ofNat 64 (0x28 * 2 ^ 26 + w.toNat)))) ∧
  (∀ (s : State) (c : Fin 8) (w : BitVec 26), Issues s (.host c) → (s.cpu (.host c)).level = 3 → fFunc w / 32 % 8 = 0 →
    fFunc w % 32 < 0x0C → (s.g (.host c) (fRs1 w)).toNat % 8 = 0 → regionOf (s.g (.host c) (fRs1 w)).toNat = .tbl →
    Gives (.atom (.host c) w) s (HostTrap s · c false 9 (s.g (.host c) (fRs1 w))))

/-- send and recv on a tile channel whose ends name each other (R115–R117, R121): a word joins the receive end's words in
order while there is room and leaves them oldest first; otherwise the tile waits, or a TRY send answers 0. An unbound
channel raises CHANNEL reason 1, a peer that names another end reason 4. A host core has no channels (R139). -/
def Obligations.SendAndReceive : Prop :=
  (∀ (s : State) (n : Fin 258) (w : BitVec 26) (p k d : Nat), Issues s (.tile n) → fFn w = 0 → fRd w = 0 →
    s.endOf n.val (fChan w) = .tileSend p k → s.peerDepth n.val (fChan w) p k = some d → (s.fifoOf p k).length < d →
    Gives (.send (.tile n) w) s fun t => Retired s t (.tile n) 0 0 (s.pc (.tile n) + 4) ∧
      t.fifoOf p k = s.fifoOf p k ++ [s.g (.tile n) (fRs1 w)] ∧ ∀ q, q ≠ p * 1024 + k → t.fifo.get [] q = s.fifo.get [] q) ∧
  (∀ (s : State) (n : Fin 258) (w : BitVec 26) (p k d : Nat), Issues s (.tile n) → fFn w = 1 →
    s.endOf n.val (fChan w) = .tileSend p k → s.peerDepth n.val (fChan w) p k = some d →
    Gives (.send (.tile n) w) s fun t =>
      Retired s t (.tile n) (fRd w) (if (s.fifoOf p k).length < d then 1 else 0) (s.pc (.tile n) + 4) ∧
      t.fifoOf p k = if (s.fifoOf p k).length < d then s.fifoOf p k ++ [s.g (.tile n) (fRs1 w)] else s.fifoOf p k) ∧
  (∀ (s : State) (n : Fin 258) (w : BitVec 26) (p k d : Nat), Issues s (.tile n) → fFn w = 0 → fRd w = 0 →
    s.endOf n.val (fChan w) = .tileSend p k → s.peerDepth n.val (fChan w) p k = some d → d ≤ (s.fifoOf p k).length →
    Gives (.send (.tile n) w) s fun t => (t.cpu (.tile n)).blocked = .send w ∧ t.pc (.tile n) = s.pc (.tile n) ∧ t.fifo = s.fifo) ∧
  (∀ (s : State) (n : Fin 258) (w : BitVec 26), Issues s (.tile n) → fFn w = 0 → fRd w = 0 → fRs1 w = 0 →
    s.endOf n.val (fChan w) = .unbound →
    Gives (.send (.tile n) w) s (TileTrap s · n 0x10 (BitVec.ofNat 64 (1 * 4096 + fChan w))) ∧
    Gives (.recv (.tile n) w) s (TileTrap s · n 0x10 (BitVec.ofNat 64 (1 * 4096 + fChan w)))) ∧
  (∀ (s : State) (n : Fin 258) (w : BitVec 26), Issues s (.tile n) → fFn w = 0 → fRd w = 0 →
    s.endOf n.val (fChan w) = .bad ∨ (∃ p k d, s.endOf n.val (fChan w) = .tileRecv p k d) ∨
      (∃ p, s.endOf n.val (fChan w) = .phRecv p) ∨ (∃ b l, s.endOf n.val (fChan w) = .ringRecv b l) →
    Gives (.send (.tile n) w) s (TileTrap s · n 0x10 (BitVec.ofNat 64 (2 * 4096 + fChan w)))) ∧
  (∀ (s : State) (n : Fin 258) (w : BitVec 26), Issues s (.tile n) → fFn w = 0 → fRs1 w = 0 →
    s.endOf n.val (fChan w) = .bad ∨ (∃ p k, s.endOf n.val (fChan w) = .tileSend p k) ∨
      (∃ p, s.endOf n.val (fChan w) = .port p) ∨ (∃ b l, s.endOf n.val (fChan w) = .ringSend b l) →
    Gives (.recv (.tile n) w) s (TileTrap s · n 0x10 (BitVec.ofNat 64 (2 * 4096 + fChan w)))) ∧
  (∀ (s : State) (n : Fin 258) (w : BitVec 26) (p k d : Nat), Issues s (.tile n) → fFn w = 2 → fRd w = 0 →
    s.endOf n.val (fChan w) = .tileSend p k → s.peerDepth n.val (fChan w) p k = some d → (s.fifoOf p k).length < d →
    (∀ e ∈ s.sbuf.get [] (agentKey (.tile n)), regionOf e.1 ≠ .endp) →
    Gives (.send (.tile n) w) s fun t => t.pc (.tile n) = s.pc (.tile n) + 4 ∧ t.sbuf.get [] (agentKey (.tile n)) = [] ∧
      (∀ x, t.rdB x = (s.drainStores (.tile n)).rdB x) ∧ t.fifoOf p k = s.fifoOf p k ++ [s.g (.tile n) (fRs1 w)]) ∧
  (∀ (s : State) (n : Fin 258) (w : BitVec 26) (p : Nat), Issues s (.tile n) → fFn w = 0 → fRd w = 0 →
    s.endOf n.val (fChan w) = .port p →
    Gives (.send (.tile n) w) s fun t => Retired s t (.tile n) 0 0 (s.pc (.tile n) + 4) ∧ t.fifo = s.fifo ∧
      ∀ q, t.ports.get none q = if q = p then some (s.g (.tile n) (fRs1 w)) else s.ports.get none q) ∧
  (∀ (s : State) (n : Fin 258) (w : BitVec 26) (b len : Nat), Issues s (.tile n) → fFn w = 0 → fRd w = 0 →
    s.endOf n.val (fChan w) = .ringSend b len → s.sbuf.get [] (agentKey (.tile n)) = [] → s.ringHeld b < len →
    regionOf b = .dram → regionOf (ringWord b len (s.ringHead b)) = .dram →
    let at_ := ringWord b len (s.ringHead b)
    Gives (.send (.tile n) w) s fun t => t.pc (.tile n) = s.pc (.tile n) + 4 ∧
      ∀ x, t.rdB x = if b ≤ x ∧ x < b + 8 then (leBytes 8 (s.ringHead b + 1)).getD (x - b) 0
        else if at_ ≤ x ∧ x < at_ + 8 then (leBytes 8 (s.g (.tile n) (fRs1 w)).toNat).getD (x - at_) 0 else s.rdB x) ∧
  (∀ (s : State) (n : Fin 258) (w : BitVec 26) (b len : Nat), Issues s (.tile n) → fFn w = 0 → fRs1 w = 0 →
    s.endOf n.val (fChan w) = .ringRecv b len → s.sbuf.get [] (agentKey (.tile n)) = [] → s.ringHeld b ≠ 0 →
    regionOf (b + 8) = .dram →
    Gives (.recv (.tile n) w) s fun t => t.pc (.tile n) = s.pc (.tile n) + 4 ∧
      (fRd w ≠ 0 → t.g (.tile n) (fRd w) = BitVec.ofNat 64 (s.rdLE (ringWord b len (s.ringTail b)) 8)) ∧
      ∀ x, t.rdB x = if b + 8 ≤ x ∧ x < b + 16 then (leBytes 8 (s.ringTail b + 1)).getD (x - (b + 8)) 0 else s.rdB x) ∧
  (∀ (s : State) (n : Fin 258) (w : BitVec 26) (p : Nat) (v : Dword) (l : List Dword), Issues s (.tile n) → fFn w = 0 →
    fRs1 w = 0 → s.endOf n.val (fChan w) = .phRecv p → s.fifoOf n.val (fChan w) = v :: l →
    Gives (.recv (.tile n) w) s fun t => Retired s t (.tile n) (fRd w) v (s.pc (.tile n) + 4) ∧ t.fifoOf n.val (fChan w) = l) ∧
  (∀ (s : State) (n : Fin 258) (w : BitVec 26) (p k : Nat), Issues s (.tile n) → fFn w = 0 → fRd w = 0 →
    s.endOf n.val (fChan w) = .tileSend p k → s.peerDepth n.val (fChan w) p k = none →
    Gives (.send (.tile n) w) s (TileTrap s · n 0x10 (BitVec.ofNat 64 (4 * 4096 + fChan w)))) ∧
  (∀ (s : State) (n : Fin 258) (w : BitVec 26) (p k d : Nat) (v : Dword) (l : List Dword), Issues s (.tile n) → fFn w = 0 →
    fRs1 w = 0 → s.endOf n.val (fChan w) = .tileRecv p k d → s.peerSends n.val (fChan w) p k = true →
    s.fifoOf n.val (fChan w) = v :: l →
    Gives (.recv (.tile n) w) s fun t => Retired s t (.tile n) (fRd w) v (s.pc (.tile n) + 4) ∧ t.fifoOf n.val (fChan w) = l) ∧
  (∀ (s : State) (n : Fin 258) (w : BitVec 26) (p k d : Nat), Issues s (.tile n) → fFn w = 0 → fRs1 w = 0 →
    s.endOf n.val (fChan w) = .tileRecv p k d → s.peerSends n.val (fChan w) p k = true → s.fifoOf n.val (fChan w) = [] →
    Gives (.recv (.tile n) w) s fun t => (t.cpu (.tile n)).blocked = .recv w ∧ t.pc (.tile n) = s.pc (.tile n) ∧ t.fifo = s.fifo) ∧
  (∀ (s : State) (n : Fin 258) (w : BitVec 26) (p k d : Nat), s.runs (.tile n) = true → (s.cpu (.tile n)).blocked = .send w →
    fFn w = 0 ∨ fFn w = 2 → fRd w = 0 → s.endOf n.val (fChan w) = .tileSend p k → s.peerDepth n.val (fChan w) p k = some d →
    (s.fifoOf p k).length < d → (∀ e ∈ s.sbuf.get [] (agentKey (.tile n)), regionOf e.1 ≠ .endp) →
    Gives (.sendUnblock n) s fun t => (t.cpu (.tile n)).blocked = .no ∧ t.pc (.tile n) = s.pc (.tile n) + 4 ∧
      t.fifoOf p k = s.fifoOf p k ++ [s.g (.tile n) (fRs1 w)]) ∧
  (∀ (s : State) (n : Fin 258) (w : BitVec 26) (p k d : Nat) (v : Dword) (l : List Dword), s.runs (.tile n) = true →
    (s.cpu (.tile n)).blocked = .recv w → fFn w = 0 ∨ fFn w = 2 → fRs1 w = 0 → fRd w ≠ 0 →
    s.endOf n.val (fChan w) = .tileRecv p k d →
    s.peerSends n.val (fChan w) p k = true → s.fifoOf n.val (fChan w) = v :: l →
    Gives (.recvUnblock n) s fun t => (t.cpu (.tile n)).blocked = .no ∧ t.pc (.tile n) = s.pc (.tile n) + 4 ∧
      t.g (.tile n) (fRd w) = v ∧ t.fifoOf n.val (fChan w) = l) ∧
  (∀ (s : State) (n : Fin 258) (w : BitVec 26) (b len : Nat), s.runs (.tile n) = true → (s.cpu (.tile n)).blocked = .recv w →
    fFn w = 0 → fRs1 w = 0 → fRd w ≠ 0 → s.endOf n.val (fChan w) = .ringRecv b len → s.sbuf.get [] (agentKey (.tile n)) = [] →
    s.ringHeld b ≠ 0 →
    Gives (.ringReread n) s fun t => (t.cpu (.tile n)).blocked = .no ∧ t.pc (.tile n) = s.pc (.tile n) + 4 ∧
      t.g (.tile n) (fRd w) = BitVec.ofNat 64 (s.rdLE (ringWord b len (s.ringTail b)) 8)) ∧
  (∀ (s : State) (c : Fin 8) (w : BitVec 26), Issues s (.host c) →
    ∀ p ∈ [(Instr.send (.host c) w, 0x31), (Instr.recv (.host c) w, 0x32), (Instr.pick (.host c) w, 0x33),
      (Instr.chstat (.host c) w, 0x34)],
      Gives p.1 s (HostTrap s · c false 1 (BitVec.ofNat 64 (p.2 * 2 ^ 26 + w.toNat))))

/-- pick, waitt and chstat (R118–R120): a pick answers the index of its true guard, goes round where several are true,
answers 8 once its deadline has passed and waits while none is true; waitt answers NOW from its deadline on. Where the spec
is silent the statement follows the model's choice: assumption log 37, 38 and 117. -/
def Obligations.PicksAndWaits : Prop :=
  (∀ (s : State) (n : Fin 258) (w : BitVec 26) (j : Fin 8), Issues s (.tile n) → fFn w = 0 → fChan w % 8 = 0 →
    (s.g (.tile n) (fRs1 w)).toNat.testBit j.val = true →
    (∀ i, i < 8 → s.guard n.val (fChan w + i) = .ok (decide (i = j.val))) →
    Gives (.pick (.tile n) w) s (Retired s · (.tile n) (fRd w) (BitVec.ofNat 64 j.val) (s.pc (.tile n) + 4))) ∧
  (∀ (s : State) (n : Fin 258) (w : BitVec 26), Issues s (.tile n) → fFn w = 0 → fChan w % 8 = 0 →
    (s.g (.tile n) (fRs1 w)).toNat % 256 = 255 → (∀ i, i < 8 → s.guard n.val (fChan w + i) = .ok true) →
    let last := s.pickLast.get 0 (n.val * 128 + fChan w / 8)
    Gives (.pick (.tile n) w) s fun t => t.g (.tile n) (fRd w) = (if fRd w = 0 then 0 else BitVec.ofNat 64 (last % 8)) ∧
      t.pickLast.get 0 (n.val * 128 + fChan w / 8) = last % 8 + 1) ∧
  (∀ (s : State) (n : Fin 258) (w : BitVec 26), Issues s (.tile n) → fFn w = 2 → fChan w % 8 = 0 →
    (s.g (.tile n) (fRs1 w)).toNat % 256 ≠ 0 → (∀ i, i < 8 → ∃ b, s.guard n.val (fChan w + i) = .ok b) →
    (s.g (.tile n) (fRd w)).toNat ≤ s.now →
    Gives (.pick (.tile n) w) s (Retired s · (.tile n) (fRd w) 8 (s.pc (.tile n) + 4))) ∧
  (∀ (s : State) (n : Fin 258) (w : BitVec 26), Issues s (.tile n) → fFn w = 0 → fChan w % 8 = 0 →
    (s.g (.tile n) (fRs1 w)).toNat % 256 ≠ 0 → (∀ i, i < 8 → s.guard n.val (fChan w + i) = .ok false) →
    Gives (.pick (.tile n) w) s fun t => (t.cpu (.tile n)).blocked = .pick w ∧ t.pc (.tile n) = s.pc (.tile n)) ∧
  (∀ (s : State) (n : Fin 258) (w : BitVec 26), Issues s (.tile n) → fFn w = 0 →
    fChan w % 8 ≠ 0 ∨ (s.g (.tile n) (fRs1 w)).toNat % 256 = 0 →
    Gives (.pick (.tile n) w) s (TileTrap s · n 0x10 (BitVec.ofNat 64 (3 * 4096 + fChan w)))) ∧
  (∀ (s : State) (n : Fin 258) (w : BitVec 26) (j : Fin 8), s.runs (.tile n) = true → (s.cpu (.tile n)).blocked = .pick w →
    fFn w = 0 → fChan w % 8 = 0 → fRd w ≠ 0 → (s.g (.tile n) (fRs1 w)).toNat.testBit j.val = true →
    (∀ i, i < 8 → s.guard n.val (fChan w + i) = .ok (decide (i = j.val))) →
    Gives (.pickUnblock n) s fun t => (t.cpu (.tile n)).blocked = .no ∧ t.pc (.tile n) = s.pc (.tile n) + 4 ∧
      t.g (.tile n) (fRd w) = BitVec.ofNat 64 j.val) ∧
  (∀ (s : State) (n : Fin 258) (w : BitVec 26), s.runs (.tile n) = true → (s.cpu (.tile n)).blocked = .pick w → fFn w = 2 →
    fChan w % 8 = 0 → fRd w ≠ 0 → (∀ i, i < 8 → ∃ b, s.guard n.val (fChan w + i) = .ok b) →
    (s.g (.tile n) (fRd w)).toNat ≤ s.now →
    Gives (.pickUnblock n) s fun t => (t.cpu (.tile n)).blocked = .no ∧ t.pc (.tile n) = s.pc (.tile n) + 4 ∧
      t.g (.tile n) (fRd w) = 8) ∧
  (∀ (s : State) (a : Agent) (w : BitVec 26), Issues s a → fFn w = 0 → fChan w = 0 →
    ((s.g a (fRs1 w)).toNat ≤ s.now →
      Gives (.waitt a w) s fun t => ∃ v, NowReads s a (s.g a (fRs1 w)).toNat v ∧
        Retired s t a (fRd w) (BitVec.ofNat 64 v) (s.pc a + 4)) ∧
    (s.now < (s.g a (fRs1 w)).toNat →
      Gives (.waitt a w) s fun t => (t.cpu a).blocked = .waitt w ∧ t.pc a = s.pc a)) ∧
  (∀ (s : State) (a : Agent) (w : BitVec 26), s.runs a = true → (s.cpu a).blocked = .waitt w → fRd w ≠ 0 →
    (s.g a (fRs1 w)).toNat ≤ s.now →
    Gives (.waittExpire a) s fun t => (t.cpu a).blocked = .no ∧ t.pc a = s.pc a + 4 ∧
      ∃ v, NowReads s a (s.g a (fRs1 w)).toNat v ∧ t.g a (fRd w) = BitVec.ofNat 64 v) ∧
  (∀ (s : State) (n : Fin 258) (w : BitVec 26), Issues s (.tile n) → fFn w = 1 → fRs1 w = 0 →
    (s.endOf n.val (fChan w) = .unbound → Gives (.chstat (.tile n) w) s (Retired s · (.tile n) (fRd w)
      (if (s.endp n.val (fChan w)).testBit 62 then 0x20000 else 0) (s.pc (.tile n) + 4))) ∧
    (s.endOf n.val (fChan w) = .bad →
      Gives (.chstat (.tile n) w) s (TileTrap s · n 0x10 (BitVec.ofNat 64 (2 * 4096 + fChan w)))) ∧
    (∀ p k d, s.endOf n.val (fChan w) = .tileRecv p k d → Gives (.chstat (.tile n) w) s
      (Retired s · (.tile n) (fRd w) (BitVec.ofNat 64 (0x30000 + (s.fifoOf n.val (fChan w)).length)) (s.pc (.tile n) + 4))) ∧
    (∀ p, s.endOf n.val (fChan w) = .phRecv p → Gives (.chstat (.tile n) w) s
      (Retired s · (.tile n) (fRd w) (BitVec.ofNat 64 (0x30000 + (s.fifoOf n.val (fChan w)).length)) (s.pc (.tile n) + 4))) ∧
    (∀ p, s.endOf n.val (fChan w) = .port p → Gives (.chstat (.tile n) w) s
      (Retired s · (.tile n) (fRd w) 0x10001 (s.pc (.tile n) + 4))) ∧
    (∀ b l, s.endOf n.val (fChan w) = .ringSend b l → Gives (.chstat (.tile n) w) s
      (Retired s · (.tile n) (fRd w) (BitVec.ofNat 64 (0x10000 + min 65535 (l - s.ringHeld b))) (s.pc (.tile n) + 4))) ∧
    (∀ b l, s.endOf n.val (fChan w) = .ringRecv b l → Gives (.chstat (.tile n) w) s
      (Retired s · (.tile n) (fRd w) (BitVec.ofNat 64 (0x30000 + min 65535 (s.ringHeld b))) (s.pc (.tile n) + 4))) ∧
    (∀ p k d, s.endOf n.val (fChan w) = .tileSend p k → s.peerDepth n.val (fChan w) p k = some d →
      Gives (.chstat (.tile n) w) s (Retired s · (.tile n) (fRd w)
        (BitVec.ofNat 64 (0x10000 + (d - (s.fifoOf p k).length))) (s.pc (.tile n) + 4))))

/-- Events (R157): an occurrence sets its EVENT bit whatever EVENT_EN holds, and raises its pigeonhole only with its
EVENT_EN bit: the raise count grows, and the pending bit is set or the merge count grows. Pigeonholes (R122, R157–R162,
Table 6-10): claims take the highest priority, and among equals the lowest number; a software raise counts and stays
pending, or does nothing at a route of KIND 2; a delivery to a tile leaves its word at the bound end, or is held, or is
dropped and counted; PGH_ROUTE is written only while PROTECT stands open. Where the spec is silent the statement follows the
model's choice: assumption log 4. -/
def Obligations.PigeonholesAndEvents : Prop :=
  (∀ (s : State) (b : Block) (n : Nat), b ≠ .PGH → b ≠ .VLV → b ≠ .LSW → b ≠ .CAN → n < 16 → b.ph0 + n < 256 →
     (s.event b n).bit b 0x24 n = true ∧ (s.event b n).mail = s.mail ∧
     (s.bit b 0x28 n = false → (s.event b n).pgh = s.pgh ∧ ∀ o, (s.event b n).rd .PGH o = s.rd .PGH o) ∧
     (s.bit b 0x28 n = true → (s.event b n).pend (b.ph0 + n) = true ∧
       (s.event b n).f .PGH (PGH_CNT (b.ph0 + n)) 15 0 = min 65535 (s.f .PGH (PGH_CNT (b.ph0 + n)) 15 0 + 1) ∧
       (s.event b n).f .PGH (PGH_CNT (b.ph0 + n)) 31 16 = if s.pend (b.ph0 + n) then
         min 65535 (s.f .PGH (PGH_CNT (b.ph0 + n)) 31 16 + 1) else s.f .PGH (PGH_CNT (b.ph0 + n)) 31 16)) ∧
  (∀ (s : State) (c : Fin 8) (m : Bool), (∀ p, p < 256 → s.claimable c.val m p = false) →
    Gives (.pghClaim c m) s fun t => t.resp = .word 0 ∧ t.pgh = s.pgh) ∧
  (∀ (s : State) (c : Fin 8) (m : Bool) (p : Fin 256), s.claimable c.val m p.val = true →
    (∀ q, q < 256 → s.claimable c.val m q = true →
      fld (s.route q) 25 24 < fld (s.route p.val) 25 24 ∨ (fld (s.route q) 25 24 = fld (s.route p.val) 25 24 ∧ p.val ≤ q)) →
    Gives (.pghClaim c m) s fun t => t.pend p.val = false ∧ t.resp =
      .word (wordN (0x80000000 + fld (s.route p.val) 25 24 * 2 ^ 24 + s.pgh.acc.get 0 p.val * 2 ^ 8 + p.val))) ∧
  (∀ (s : State) (i : Fin 8) (b : Fin 32), fld (s.route (32 * i.val + b.val)) 29 28 ≠ 2 →
    bitOf (s.route (32 * i.val + b.val)) 30 = false →
    let p := 32 * i.val + b.val
    Gives (.pghRaise i (wordN (2 ^ b.val))) s fun t => t.pend p = true ∧
      t.f .PGH (PGH_CNT p) 15 0 = min 65535 (s.f .PGH (PGH_CNT p) 15 0 + 1) ∧
      t.f .PGH (PGH_CNT p) 31 16 = (if s.pend p then min 65535 (s.f .PGH (PGH_CNT p) 31 16 + 1) else s.f .PGH (PGH_CNT p) 31 16)) ∧
  (∀ (s : State) (i : Fin 8) (b : Fin 32), fld (s.route (32 * i.val + b.val)) 29 28 = 2 ∨
    bitOf (s.route (32 * i.val + b.val)) 30 = true → exec (.pghRaise i (wordN (2 ^ b.val))) s = .next s) ∧
  (∀ (s : State) (i : Fin 8) (v : Word) (b : Fin 32), bitOf v b.val = true → fld (s.route (32 * i.val + b.val)) 29 28 ≠ 2 →
    bitOf (s.route (32 * i.val + b.val)) 30 = false →
    let p := 32 * i.val + b.val
    Gives (.pghRaise i v) s fun t => t.pend p = true ∧
      t.f .PGH (PGH_CNT p) 15 0 = min 65535 (s.f .PGH (PGH_CNT p) 15 0 + 1)) ∧
  (∀ (s : State) (v : Word), bitOf v 31 = true → Gives (.pghClear v) s fun t => ∀ p, p < 256 → t.rd .PGH (PGH_CNT p) = 0) ∧
  (∀ (s : State) (v : Word), bitOf v 31 = false → Gives (.pghClear v) s fun t => t.rd .PGH (PGH_CNT (fld v 7 0)) = 0 ∧
    Stands s t .PGH (· = PGH_CNT (fld v 7 0))) ∧
  (∀ (s : State) (p : Fin 256) (v : Word), s.rd .PGH 0x18 = 1 →
    Gives (.pghRouteWrite p v) s fun t => t.rd .PGH (PGH_ROUTE p.val) = v &&& 0xFB0000FF ∧ Stands s t .PGH (· = PGH_ROUTE p.val)) ∧
  (∀ (s : State) (p : Fin 256) (v : Word), s.rd .PGH 0x18 ≠ 1 → exec (.pghRouteWrite p v) s = .next s) ∧
  (∀ (s : State) (p : Fin 256) (n c : Nat), bitOf (s.route p.val) 31 = true → s.pend p.val = true →
    fld (s.route p.val) 29 28 = 1 → fld (s.route p.val) 7 0 = n → s.tileRuns n = true → s.phEnd n p.val = some c →
    s.pgh.copyAcc.get 0 p.val = 0 →
    (s.fifoOf n c = [] → Gives (.pigeonholeWordDelivery p) s fun t => t.pend p.val = false ∧
      t.fifoOf n c = [phWord (s.pgh.first.get 0 p.val) (s.pgh.acc.get 0 p.val) p.val]) ∧
    (s.fifoOf n c ≠ [] → exec (.pigeonholeWordDelivery p) s = .next s)) ∧
  (∀ (s : State) (p : Fin 256) (n : Nat), p.val ≠ 7 → bitOf (s.route p.val) 31 = true → s.pend p.val = true →
    fld (s.route p.val) 29 28 = 1 → fld (s.route p.val) 7 0 = n → s.tileRuns n = false → s.pgh.copyAcc.get 0 p.val = 0 →
    Gives (.pigeonholeWordDelivery p) s fun t => t.pend p.val = false ∧ t.f .PGH PGH_STATUS 7 0 = p.val ∧
      t.f .PGH PGH_STATUS 31 16 = min 65535 (s.f .PGH PGH_STATUS 31 16 + 1) ∧ t.bit .SYS 0x24 7 = true ∧ t.fifo = s.fifo)

/-- The grid and tensor instructions (R127, R128, R248–R250): a descriptor that describes no window, and a build buffer
whose window is shut, answer status 1; a gxrd leaves the elements of its window in memory and a gxwr writes them to the
build buffer, each answering the buffer's cycle number and whether the window was clipped; a job enters the queue with its
program, its input and output bases and a new ticket, waits for room with 32 queued, and its end is what gxwait answers.
Tiles and host cores under command (R125, Table 6-9), and words at engine ports (R126). Where the spec is silent the
statement follows the model's choice: assumption log 4, 39, 52, 53 and 54. -/
def Obligations.EnginesAndTiles : Prop :=
  (∀ (s : State) (a : Agent) (w : BitVec 26) (ns : Nat), Issues s a →
    let d := s.gxDesc (fDesc w)
    let v := BitVec.ofNat 64 ((s.gxBuffer d.build).2 % 2 ^ 32 * 2 ^ 32 + 1)
    (d.window = false ∨ (d.build = true ∧ s.buildOpen = false) →
      Gives (.gxrd a ⟨w, ns⟩) s (Retired s · a (fRd w) v (s.pc a + 4))) ∧
    (d.window = false ∨ d.build = false ∨ s.buildOpen = false ∨ d.chFirst < s.tbl.progFirst →
      Gives (.gxwr a ⟨w, ns⟩) s (Retired s · a (fRd w) v (s.pc a + 4)))) ∧
  (∀ (s : State) (a : Agent) (w : BitVec 26) (ns : Nat) (f : Nat → Nat), Issues s a →
    let d := s.gxDesc (fDesc w)
    let xy := gxCorner (s.g a (fRs1 w))
    let base := (s.g a (fRs2 w)).toNat
    let u := s.drainStores a
    d.window = true → d.build = false ∨ s.buildOpen = true → s.gridClean (s.gxBuffer d.build).1 →
    Laid s a .store d base d.dstStride f →
    Gives (.gxrd a ⟨w, ns⟩) s fun t => t.pc a = s.pc a + 4 ∧
      (∀ k, t.g a k = if k = fRd w ∧ k ≠ 0 then BitVec.ofNat 64 ((s.gxBuffer d.build).2 % 2 ^ 32 * 2 ^ 32 +
        (if d.clipped xy.1 xy.2 then 2 else 0)) else s.g a k) ∧
      (∀ x, (∀ p ∈ d.pieces base d.dstStride, x < f p.1 ∨ f p.1 + p.2 ≤ x) → t.rdB x = u.rdB x) ∧
      (f = id → d.rowLen ≤ d.dstStride → ∀ i j m, i < d.width → j < d.height → m < d.chCount * d.size →
        t.rdB (base + j * d.dstStride + i * (d.chCount * d.size) + m) = s.gridByte d (s.gxBuffer d.build).1 xy i j m)) ∧
  (∀ (s : State) (a : Agent) (w : BitVec 26) (ns : Nat) (f : Nat → Nat), Issues s a →
    let d := s.gxDesc (fDesc w)
    let xy := gxCorner (s.g a (fRs1 w))
    let base := (s.g a (fRs2 w)).toNat
    let u := s.drainStores a
    let b := (s.gxBuffer true).1
    d.window = true → d.build = true → s.buildOpen = true → s.tbl.progFirst ≤ d.chFirst → Laid u a .load d base d.srcStride f →
    Gives (.gxwr a ⟨w, ns⟩) s fun t => t.pc a = s.pc a + 4 ∧
      (∀ k, t.g a k = if k = fRd w ∧ k ≠ 0 then BitVec.ofNat 64 ((s.gxBuffer true).2 % 2 ^ 32 * 2 ^ 32 +
        (if d.clipped xy.1 xy.2 then 2 else 0)) else s.g a k) ∧
      (∀ x, x < gridBase b ∨ gridBase b + 0x1000000 ≤ x → t.rdB x = u.rdB x) ∧
      (f = id → d.elem = 0 → ∀ i j m cx cy, i < d.width → j < d.height → m < d.chCount → onGrid xy.1 i = some cx →
        onGrid xy.2 j = some cy → t.rdB (gridBase b + (cy * 512 + cx) * 64 + d.chFirst + m) =
          u.rdB (base + j * d.srcStride + i * d.chCount + m))) ∧
  (∀ (s : State) (a : Agent) (w : BitVec 26), Issues s a → s.tbl.jobs.length < 32 →
    let d := s.gxDesc (fDesc w)
    let j : TblJob := { ticket := s.newTicket, units := d.units, prog := d.prog, inp := (s.g a (fRs1 w)).toNat,
                        out := (s.g a (fRs2 w)).toNat }
    Gives (.gxrun a w) s fun t => Retired s t a (fRd w) (BitVec.ofNat 64 s.newTicket) (s.pc a + 4) ∧
      t.tbl.jobs = s.tbl.jobs ++ (if d.kind = 2 then [j] else []) ∧
      (d.kind ≠ 2 → t.tbl.ended.get none s.newTicket = some 1)) ∧
  (∀ (s : State) (a : Agent) (w : BitVec 26), Issues s a → 32 ≤ s.tbl.jobs.length →
    Gives (.gxrun a w) s fun t => (t.cpu a).blocked = .gxrun w ∧ t.pc a = s.pc a ∧ t.tbl = s.tbl) ∧
  (∀ (s : State) (a : Agent) (w : BitVec 26), s.runs a = true → (s.cpu a).blocked = .gxrun w → s.tbl.jobs.length < 32 →
    let d := s.gxDesc (fDesc w)
    let j : TblJob := { ticket := s.newTicket, units := d.units, prog := d.prog, inp := (s.g a (fRs1 w)).toNat,
                        out := (s.g a (fRs2 w)).toNat }
    Gives (.gxrunUnblock a) s fun t => (t.cpu a).blocked = .no ∧ t.pc a = s.pc a + 4 ∧
      (∀ k, t.g a k = if k = fRd w ∧ k ≠ 0 then BitVec.ofNat 64 s.newTicket else s.g a k) ∧
      t.tbl.jobs = s.tbl.jobs ++ (if d.kind = 2 then [j] else []) ∧
      (d.kind ≠ 2 → t.tbl.ended.get none s.newTicket = some 1)) ∧
  (∀ (s : State) (a : Agent) (w : BitVec 26), s.runs a = true → (s.cpu a).blocked = .gxrun w → 32 ≤ s.tbl.jobs.length →
    Gives (.gxrunUnblock a) s fun t => (t.cpu a).blocked = .gxrun w ∧ t.pc a = s.pc a ∧ t.tbl = s.tbl) ∧
  (∀ (s : State) (a : Agent) (w : BitVec 26), Issues s a → fDesc w ≤ 1 → fRs2 w = 0 →
    s.ticketStatus (s.g a (fRs1 w)).toNat ≠ 0xFF ∨ fDesc w = 1 →
    Gives (.gxwait a w) s
      (Retired s · a (fRd w) (BitVec.ofNat 64 (s.ticketStatus (s.g a (fRs1 w)).toNat)) (s.pc a + 4))) ∧
  (∀ (s : State) (k : Nat), ((∃ j ∈ s.tbl.jobs, j.ticket = k) → s.tbl.ended.get none k = none → s.ticketStatus k = 0xFF) ∧
    (∀ r, s.tbl.ended.get none k = some r → (∀ j ∈ s.tbl.recent, j.1 ≠ k) → s.ticketStatus k = r) ∧
    (s.tbl.ended.get none k = none → (∀ j ∈ s.tbl.jobs, j.ticket ≠ k) → s.ticketStatus k = 4)) ∧
  (∀ (s : State) (a : Agent) (w : BitVec 26), Issues s a → fDesc w = 0 → fRs2 w = 0 →
    s.ticketStatus (s.g a (fRs1 w)).toNat = 0xFF →
    Gives (.gxwait a w) s fun t => (t.cpu a).blocked = .gxwait w ∧ t.pc a = s.pc a) ∧
  (∀ (s : State) (a : Agent) (w : BitVec 26), Issues s a → 1 < fDesc w ∨ fRs2 w ≠ 0 →
    Gives (.gxwait a w) s (Trapped s · a 1 (BitVec.ofNat 64 (0x3B * 2 ^ 26 + w.toNat)))) ∧
  (∀ (s : State) (j : Nat) (data : List Byte) (k : TblJob), s.tbl.jobs[j]? = some k →
    Gives (.tensorJobEnd j data) s fun t => t.tbl.jobs = s.tbl.jobs.eraseIdx j ∧
      t.tbl.ended.get none k.ticket = some (if k.failed then 3 else 0) ∧
      (k.out + data.length ≤ 0x3E0000000 ∨ (tileBase ≤ k.out ∧ k.out + data.length ≤ tileBase + 0x1000000) → ∀ x, t.rdB x =
        if k.out ≤ x ∧ x < k.out + data.length then data.getD (x - k.out) 0 else s.rdB x) ∧
      (∀ a w, s.runs a = true → (s.cpu a).blocked = .gxwait w → (s.g a (fRs1 w)).toNat = k.ticket → fRd w ≠ 0 →
        t.ticketStatus k.ticket ≠ 0xFF → (t.cpu a).blocked = .no ∧ t.pc a = s.pc a + 4 ∧
          t.g a (fRd w) = BitVec.ofNat 64 (t.ticketStatus k.ticket))) ∧
  (∀ (s : State) (n : Fin 256), Idle s .SYS → s.rdN .SYS 0x4 = n.val → s.rdN .SYS 0x8 = 1 → s.tileRuns n.val = false →
    s.depthSum n.val ≤ 512 →
    Gives .tileRelease s fun t => Ended t .SYS 3 .ok ∧ t.tileRuns n.val = true ∧
      t.pc (.tile ⟨n.val, by omega⟩) = BitVec.ofNat 64 (0x1000000000 + n.val * 0x10000)) ∧
  (∀ (s : State) (n : Fin 256), Idle s .SYS → s.rdN .SYS 0x4 = n.val → s.rdN .SYS 0x8 = 1 → s.tileRuns n.val = false →
    512 < s.depthSum n.val →
    Gives .tileRelease s fun t => Ended t .SYS 3 .noSpace ∧ t.tileRuns n.val = false) ∧
  (∀ (s : State) (first n : Nat), Idle s .SYS → s.rdN .SYS 0x4 = first → s.rdN .SYS 0x8 = n → 0 < n → first + n ≤ 256 →
    (∀ k, first ≤ k → k < first + n → s.tileRuns k = false → s.depthSum k ≤ 512) →
    Gives .tileRelease s fun t => Ended t .SYS 3 .ok ∧ ∀ k : Fin 258, first ≤ k.val → k.val < first + n → t.tileRuns k.val = true ∧
      (s.tileRuns k.val = false → t.pc (.tile k) = BitVec.ofNat 64 (0x1000000000 + k.val * 0x10000))) ∧
  (∀ (s : State) (first n : Nat), Idle s .SYS → s.rdN .SYS 0x4 = first → s.rdN .SYS 0x8 = n → 0 < n → first + n ≤ 256 →
    (Gives .tileHalt s fun t => Ended t .SYS 4 .ok ∧ ∀ k, first ≤ k → k < first + n → s.tileRuns k = true →
      t.f .SYS (SYS_TILE_STATE k) 1 0 = 2 ∧ t.f .SYS (SYS_TILE_STATE k) 15 8 = 0x3F) ∧
    (Gives .tileReset s fun t => Ended t .SYS 5 .ok ∧ t.mem = s.mem ∧ ∀ k : Fin 258, first ≤ k.val → k.val < first + n →
      t.f .SYS (SYS_TILE_STATE k.val) 15 0 = 0 ∧ t.cpu (.tile k) = {} ∧ ∀ c, c < 1024 → t.fifoOf k.val c = [])) ∧
  (∀ (s : State), Idle s .SYS → s.rdN .SYS 0x8 = 0 ∨ 255 < s.rdN .SYS 0x4 →
    Gives .tileRelease s (Ended · .SYS 3 .badHeader) ∧ Gives .tileHalt s (Ended · .SYS 4 .badHeader) ∧
    Gives .tileReset s (Ended · .SYS 5 .badHeader)) ∧
  (∀ (s : State) (n : Fin 256), Idle s .SYS → s.rdN .SYS 0x4 = n.val → s.rdN .SYS 0x8 = 1 → s.tileRuns n.val = true →
    Gives .tileHalt s fun t => Ended t .SYS 4 .ok ∧ t.f .SYS (SYS_TILE_STATE n.val) 1 0 = 2 ∧
      t.f .SYS (SYS_TILE_STATE n.val) 15 8 = 0x3F ∧ t.bit .SYS 0x24 2 = true) ∧
  (∀ (s : State) (n : Fin 256), Idle s .SYS → s.rdN .SYS 0x4 = n.val → s.rdN .SYS 0x8 = 1 →
    Gives .tileReset s fun t => Ended t .SYS 5 .ok ∧ t.f .SYS (SYS_TILE_STATE n.val) 15 0 = 0 ∧ t.mem = s.mem ∧
      t.cpu (.tile ⟨n.val, by omega⟩) = {}) ∧
  (∀ (s : State) (c : Fin 8), Idle s .SYS → c.val ≠ 0 → s.rdN .SYS 0x4 = 2 ^ c.val → s.f .SYS (SYS_HOST_STATUS c.val) 1 0 = 0 →
    Gives .hostRelease s fun t => Ended t .SYS 6 .ok ∧ t.f .SYS (SYS_HOST_STATUS c.val) 1 0 = 1 ∧ (t.cpu (.host c)).level = 3 ∧
      t.pc (.host c) = BitVec.ofNat 64 (s.rdN .SYS 0x8 + s.f .SYS 0xC 7 0 * 2 ^ 32)) ∧
  (∀ (s : State) (c : Fin 8), Idle s .SYS → c.val ≠ 0 → s.bit .SYS 0x4 c.val = true → s.f .SYS (SYS_HOST_STATUS c.val) 1 0 = 0 →
    Gives .hostRelease s fun t => Ended t .SYS 6 .ok ∧ t.f .SYS (SYS_HOST_STATUS c.val) 1 0 = 1 ∧ (t.cpu (.host c)).level = 3 ∧
      t.pc (.host c) = BitVec.ofNat 64 (s.rdN .SYS 0x8 + s.f .SYS 0xC 7 0 * 2 ^ 32)) ∧
  (∀ (s : State) (p : Fin 256) (v : Dword), s.ports.get none p.val = some v →
    Gives (.enginePortWord p) s fun t => t.ports.get none p.val = none ∧
      (p.val < 128 → t.rd .LPE (LPE_PIN p.val) = wordN (v.toNat % 2 ^ 32)) ∧
      (128 ≤ p.val → p.val < 160 → s.lpeNames (p.val - 128) = false →
        t.rdN .VLV (VLV_CH_CMD_IN (p.val - 128)) = min 16000 (v.toNat % 2 ^ 14)) ∧
      (160 ≤ p.val → p.val < 192 → t.rd .DMW DMW_SWREQ = s.rd .DMW DMW_SWREQ ||| BitVec.ofNat 32 (2 ^ (p.val - 160))) ∧
      (p.val = 192 → t.rd .TBL TBL_EGO_V = BitVec.ofNat 32 (v.toNat % 2 ^ 32)) ∧
      (p.val = 193 → t.rd .TBL TBL_EGO_W = BitVec.ofNat 32 (v.toNat % 2 ^ 32)) ∧
      (194 ≤ p.val → ∀ b o, t.rd b o = s.rd b o)) ∧
  (∀ (s : State) (p : Fin 256), s.ports.get none p.val = none → exec (.enginePortWord p) s = .next s)

/-- An aligned 32-bit access to an offset where no register is mapped (R8): a load reads 0, a write changes no register and
no memory, and neither raises an error. -/
def Obligations.UnmappedOffsets : Prop :=
  (∀ (s : State) (b : Fin 22) (o : BitVec 18) (v : Word), regRow (blockNo b) (4 * o.toNat) = none →
    exec (.registerWrite b o v) s = .next s) ∧
  ∀ (s : State) (a : Agent) (w : BitVec 26) (b : Fin 22) (o : BitVec 18) (dev : Bool), Issues s a →
    regRow (blockNo b) (4 * o.toNat) = none →
    let va := s.g a (fRs1 w) + fSimm w
    let pa := 0x2000000000 + b.val * 0x100000 + 4 * o.toNat
    va.toNat % 4 = 0 →
    (s.translate a .load va.toNat = (.ok pa dev, s) → Gives (.ldw a w) s (Retired s · a (fRd w) 0 (s.pc a + 4)) ∧
      Gives (.ldwu a w) s (Retired s · a (fRd w) 0 (s.pc a + 4))) ∧
    (s.translate a .store va.toNat = (.ok pa dev, s) → Gives (.stw a w) s (Retired s · a 0 0 (s.pc a + 4)))

/-- Register access (R7–R10, Table 0-5): an access that is not an aligned 32-bit one answers a bus error and changes
nothing; a write where no register is mapped, to an RO register, or to an RWP register behind a closed PROTECT is ignored;
an RW or W1C register of no special action takes the write as its type says; PROTECT opens with 0x0000C35A and closes with
any other value; a code written to BLK_CMD is the command, and a write of a register that acts is that register's row. Where
the spec is silent the statement follows the model's choice: assumption log 19. -/
def Obligations.RegisterAccess : Prop :=
  (∀ (s : State) (b : Fin 22) (o : BitVec 20) (k : Fin 4), 2 ^ k.val ≠ 4 ∨ o.toNat % 4 ≠ 0 →
    Gives (.registerAccessFault b o k) s fun t => t.resp = .busError ∧ s.ChangesOnly t [.resp] ∧ t.pending = s.pending) ∧
  (∀ (s : State) (b : Fin 22) (o : BitVec 18) (v : Word), regRow (blockNo b) (4 * o.toNat) = none →
    exec (.registerWrite b o v) s = .next s) ∧
  (∀ (s : State) (b : Fin 22) (o : BitVec 18) (v : Word) (r : RegRow), regRow (blockNo b) (4 * o.toNat) = some r →
    o.toNat ≠ 0 → o.toNat ≠ 6 → s.writeAct (blockNo b) r (4 * o.toNat) v = none →
    r.acc = .ro ∨ (r.acc = .rwp ∧ s.rd (blockNo b) 0x18 ≠ 1) → exec (.registerWrite b o v) s = .next s) ∧
  (∀ (s : State) (b : Fin 22) (o : BitVec 18) (v : Word) (r : RegRow), regRow (blockNo b) (4 * o.toNat) = some r →
    o.toNat ≠ 0 → o.toNat ≠ 6 → s.writeAct (blockNo b) r (4 * o.toNat) v = none → r.acc = .w1c →
    Gives (.registerWrite b o v) s fun t => t.rd (blockNo b) (4 * o.toNat) = s.rd (blockNo b) (4 * o.toNat) &&& ~~~v ∧
      Stands s t (blockNo b) (· = 4 * o.toNat)) ∧
  (∀ (s : State) (b : Fin 22) (o : BitVec 18) (v : Word) (r : RegRow), blockNo b ∈ [.SYS, .PACE, .PGH, .CAM, .TBL, .UPD, .PWR] →
    regRow (blockNo b) (4 * o.toNat) = some r → o.toNat ≠ 0 → o.toNat ≠ 6 →
    s.writeAct (blockNo b) r (4 * o.toNat) v = none → r.acc = .rw ∨ (r.acc = .rwp ∧ s.rd (blockNo b) 0x18 = 1) →
    Gives (.registerWrite b o v) s fun t => t.rd (blockNo b) (4 * o.toNat) =
      r.store (s.rd (blockNo b) (4 * o.toNat)) (regNorm (blockNo b) r (4 * o.toNat) v) ∧
      Stands s t (blockNo b) (· = 4 * o.toNat)) ∧
  (∀ (s : State) (b : Fin 22) (v : Word),
    Gives (.protectWrite b v) s fun t => t.rd (blockNo b) 0x18 = (if v = 0xC35A then 1 else 0) ∧
      Stands s t (blockNo b) (· = 0x18)) ∧
  (∀ (s : State) (b : Fin 22) (v : Word), (regRow (blockNo b) 0x18).isSome = true →
    exec (.registerWrite b 6 v) s = exec (.protectWrite b v) s) ∧
  (∀ (s : State) (b : Fin 22) (v : Word), (regRow (blockNo b) 0).isSome = true → 0 < (blockNo b).commands →
    (fld v 7 0 = 0 → exec (.registerWrite b 0 v) s = .next s) ∧
    ((blockNo b).commands < fld v 7 0 →
      exec (.registerWrite b 0 v) s = exec (.undefinedCommand b (BitVec.ofNat 8 (fld v 7 0))) s)) ∧
  (∀ b c i, (b, c, i) ∈ mailRows → ∀ (s : State) (v : Word), fld v 7 0 = c → exec (.registerWrite b 0 v) s = exec i s) ∧
  WriteIs .SYS SYS_STQ_HEAD .stqHeadWrite ∧ WriteIs .PGH PGH_CLEAR .pghClear ∧
  (∀ p, WriteIs .PGH (PGH_ROUTE p.val) (.pghRouteWrite p)) ∧ (∀ k, WriteIs .PGH (PGH_RAISE k.val) (.pghRaise k)) ∧
  (∀ c, WriteIs .PGH (PGH_CORE_SWI c.val) (.pghSwi c)) ∧ WriteIs .PACE PACE_VCORE_TARGET .vcoreTargetWrite ∧
  WriteIs .DMW DMW_SWREQ .dmwSwreqWrite ∧ WriteIs .GNS GNS_ACQ_HEAD .acqHeadWrite ∧ WriteIs .TIM TIM_CORR_GO .timCorrGo ∧
  (∀ n, WriteIs .VLV (VLV_CH_CMD_IN n.val) (.cmdInWrite n)) ∧ WriteIs .MAP MAP_POSE_GO .poseGo ∧
  WriteIs .PNL PNL_FLIP .pnlFlipWrite ∧ (∀ n k, WriteIs .CAN (CAN_CH_TXREQ n.val k.val) (.txreqWrite n k)) ∧
  (∀ n k, WriteIs .CAN (CAN_CH_TXCANCEL n.val k.val) (.txcancelWrite n k)) ∧
  (∀ n f, WriteIs .CAN (CAN_CH_FIFO_POP n.val f.val) (.fifoPop n f)) ∧ WriteIs .BUR BUR_CURSOR .burCursorWrite ∧
  WriteIs .BUR BUR_PUT .burPut ∧ (∀ k, WriteIs .HKP (HKP_CH_CFG k.val) (.hkpCfgWrite k)) ∧ WriteIs .TST TST_UNLOCK .tstUnlock

/-- The mailboxes (R154–R156): a code that the block does not define ends with BAD_HEADER; a command written while another
runs ends with BUSY, and the running one goes on; a command that ends shows its code and its result. Streams (R413, R414):
an empty FIFO reads the fill value 0 and changes nothing, and counts an underrun of the Dumbwaiter channel that read it; the
time-mark FIFO reads the low word, the high word and the count of its head entry, and the fourth read takes the entry out.
Where the spec is silent the statement follows the model's choice: assumption log 14 and 97. -/
def Obligations.MailboxesAndStreams : Prop :=
  (∀ (s : State) (b : Fin 22) (c : Byte), 0 < (blockNo b).commands → (blockNo b).commands < c.toNat → Idle s (blockNo b) →
    Gives (.undefinedCommand b c) s fun t => Ended t (blockNo b) c.toNat .badHeader ∧ t.mailOf (blockNo b) = {} ∧
      (∀ i, (blockNo b).cmdDone = some i → t.bit (blockNo b) 0x24 i = true) ∧
      (blockNo b = .CAN → ∀ n ∈ canNamed c.toNat (s.cmdArgs .CAN), t.bit .CAN (CAN_CH_EVENT n) 14 = true)) ∧
  (∀ (s : State) (b : Fin 22) (c : Byte), 0 < (blockNo b).commands → (blockNo b).commands < c.toNat → ¬ Idle s (blockNo b) →
    Gives (.undefinedCommand b c) s fun t => Ended t (blockNo b) c.toNat .busy ∧ t.mail = s.mail ∧
      (∀ i, (blockNo b).cmdDone = some i → t.bit (blockNo b) 0x24 i = true)) ∧
  (∀ (s : State) (b : Block) (c : Nat) (f : List Word → State → State × Option Result), ¬ Idle s b →
    Ended (s.command b c f) b c .busy ∧ (s.command b c f).mail = s.mail) ∧
  (∀ (s : State) (b : Block) (r : Result),
    Ended (s.cmdEnd b r) b (s.mailOf b).code r ∧ (s.cmdEnd b r).mailOf b = {} ∧
      (∀ i, b.cmdDone = some i → (s.cmdEnd b r).bit b 0x24 i = true)) ∧
  (∀ (s : State) (a : Agent) (q : Fin 17), s.reqOn (32 + q.val) = false →
    exec (.streamRead (.core a) q) s = .next (s.putResp (.word 0))) ∧
  (∀ (s : State) (n : Fin 64) (q : Fin 17), s.reqOn (32 + q.val) = false →
    Gives (.streamRead (.dw n) q) s fun t => t.resp = .word 0 ∧ t.bit .DMW 0x24 12 = true ∧
      t.f .DMW (DMW_CH_COUNTS n.val) 15 8 = min 255 (s.f .DMW (DMW_CH_COUNTS n.val) 15 8 + 1)) ∧
  (∀ (s : State) (a : Agent) (m : Nat) (l : List Nat), s.reqOn 48 = true → s.tim.marks = m :: l →
    let who := initiatorNo (.core a)
    let p := s.dmw.part.get (0, 0, 0) 48
    (p.2.1 = 0 → Gives (.streamRead (.core a) 16) s fun t => t.resp = .word (BitVec.ofNat 32 m) ∧
      t.dmw.part.get (0, 0, 0) 48 = (who, 1, l.length + 1) ∧ t.tim = s.tim) ∧
    (p.2.1 = 1 → p.1 = who → Gives (.streamRead (.core a) 16) s fun t => t.resp = .word (BitVec.ofNat 32 (m / 2 ^ 32)) ∧
      t.tim = s.tim) ∧
    (p.2.1 = 2 → p.1 = who → Gives (.streamRead (.core a) 16) s fun t => t.resp = .word (BitVec.ofNat 32 p.2.2) ∧ t.tim = s.tim) ∧
    (p.2.1 = 3 → p.1 = who → Gives (.streamRead (.core a) 16) s fun t => t.resp = .word 0 ∧ t.tim.marks = l ∧
      t.dmw.part.get (0, 0, 0) 48 = (0, 0, 0)))

/-- Start-ups (R178, R180, R182, R184, R401, R407, R456, R462, R6): what begins one, and of which kind and cause. Where the
spec is silent the statement follows the model's choice: assumption log 4 and 77. -/
def Obligations.StartUps : Prop :=
  (∀ (s : State) (e : BootEnv), s.pwr.phase = .off → 6500 ≤ e.volts.getD 0 0 → e.pins.toNat % 8 ≠ 0 →
    Gives (.supplyQualified e) s (StartedUp · 0 (e.pins.toNat % 8))) ∧
  (∀ (s : State) (e : BootEnv), s.pwr.phase = .dormant → 6500 ≤ e.volts.getD 0 0 → s.aon.wake ≠ 0 →
    Gives (.supplyQualified e) s (StartedUp · 1 s.aon.wake)) ∧
  (∀ (s : State) (e : BootEnv), e.volts.getD 0 0 < 6500 ∨ (s.pwr.phase = .off ∧ e.pins.toNat % 8 = 0) ∨
    (s.pwr.phase = .dormant ∧ s.aon.wake = 0) ∨ s.pwr.phase ∉ [.off, .dormant] → exec (.supplyQualified e) s = .next s) ∧
  (∀ (s : State) (e : BootEnv) (n : Fin 8) (p : Fin 5), s.pwr.phase = .dormant →
    ∀ q ∈ [(Instr.wakeInputRise .ign e, 1, true), (Instr.wakeInputRise .wake e, 2, true), (Instr.wakeInputRise .wakeSvc e, 4, true),
      (Instr.wakeTimerExpired e, 0x20, s.sys.cfg.wakeTimer != 0), (Instr.canBusWake n e, 8, s.bit .PACE (PACE_ISL_CTRL n.val) 8),
      (Instr.ethLinkWake p e, 0x10, s.bit .PACE (PACE_ISL_CTRL (9 + p.val)) 8)],
    (q.2.2 = true → 6500 ≤ e.volts.getD 0 0 → Gives q.1 s (StartedUp · 1 (s.aon.wake ||| q.2.1))) ∧
    (q.2.2 = true → e.volts.getD 0 0 < 6500 →
      Gives q.1 s fun t => t.aon.wake = s.aon.wake ||| q.2.1 ∧ t.pwr = s.pwr ∧ t.regs = s.regs ∧ t.cpus = s.cpus) ∧
    (q.2.2 = false → exec q.1 s = .next s)) ∧
  (∀ (s : State) (e : BootEnv) (n : Fin 8) (p : Fin 5), s.pwr.phase ≠ .dormant →
    exec (.wakeTimerExpired e) s = .next s ∧ exec (.canBusWake n e) s = .next s ∧ exec (.ethLinkWake p e) s = .next s ∧
    (Gives (.wakeInputRise .wake e) s fun t => t.sys.wake = true ∧ t.regs = s.regs) ∧
    (Gives (.wakeInputRise .wakeSvc e) s fun t => t.sys.wakeSvc = true ∧ t.regs = s.regs) ∧
    (Gives (.wakeInputRise .ign e) s fun t => t.sys.ign = true ∧ t.vlv = s.vlv)) ∧
  (∀ (s : State) (e : BootEnv), s.pwr.phase ∈ [.run, .ride, .reserve] → s.sys.active = true → s.sys.stopped = 0 →
    Gives (.startupWatchdog e) s (StartedUp · 2 0)) ∧
  (∀ (s : State) (e : BootEnv), s.pwr.phase ∈ [.run, .ride, .reserve] → Idle s .SYS → s.rd .SYS 0x4 = 0xC35A →
    (s.mode ≠ 5 ∨ s.sys.active = true → Gives (.coreReset e) s (StartedUp · 2 0)) ∧
    (s.mode = 5 → s.sys.active = false → Gives (.coreReset e) s (StartedUp · 3 0))) ∧
  (∀ (s : State) (e : BootEnv), Idle s .SYS → s.rd .SYS 0x4 ≠ 0xC35A →
    Gives (.coreReset e) s fun t => Ended t .SYS 7 .badHeader ∧ t.cpus = s.cpus ∧ t.mem = s.mem) ∧
  (∀ (s : State) (e : BootEnv), s.pwr.phase = .thermal → Gives (.thermalRestart e) s (StartedUp · 2 0))

/-- Mode requests, automatic transitions and their end (R166–R169, R183, Table 7-2), and DRAWER_SET (R177). Where the spec
is silent the statement follows the model's choice: assumption log 69 and 70. -/
def Obligations.ModesAndDrawer : Prop :=
  (∀ (s : State) (v : Bool) (m : Nat), Idle s .SYS → s.sys.active = false → s.pwr.phase ≠ .loss → s.rdN .SYS 0x4 = m → m ≤ 6 → m ≠ 0 →
    (s.bit .SYS SYS_MODE 7 = true → Gives (.modeReq v) s (Ended · .SYS 1 .busy)) ∧
    (s.bit .SYS SYS_MODE 7 = false → m = s.mode → Gives (.modeReq v) s fun t => Ended t .SYS 1 .ok ∧ t.mode = s.mode)) ∧
  (∀ (s : State) (v : Bool), Idle s .SYS → s.sys.active = false → 6 < s.rdN .SYS 0x4 →
    Gives (.modeReq v) s fun t => Ended t .SYS 1 .badHeader ∧ t.mode = s.mode) ∧
  (∀ (s : State) (v : Bool), Idle s .SYS → s.sys.active = false → s.bit .SYS SYS_MODE 7 = false → s.sys.noDrawer = false →
    s.hkpInhibit = false → s.pwr.phase ≠ .loss → ∀ p ∈ [(1, 2), (1, 4), (2, 1), (2, 3), (2, 4), (3, 1), (3, 2), (4, 1), (4, 2), (5, 1)],
    s.mode = p.1 → s.rdN .SYS 0x4 = p.2 → (p.1 = 1 → s.sys.ign = true) →
    Gives (.modeReq v) s fun t => Running s t .SYS 1 ∧ Heading t p.2 ∧ t.mode = p.1) ∧
  (∀ (s : State), Idle s .SYS → s.sys.active = false → s.bit .SYS SYS_MODE 7 = false → s.mode = 1 ∨ s.mode = 6 →
    s.rdN .SYS 0x4 = 5 → s.sys.still = true ∨ s.sys.cfg.still = false → s.pwr.phase ≠ .loss →
    Gives (.modeReq true) s (Heading · 5) ∧ Gives (.modeReq false) s (Ended · .SYS 1 .refusedMode)) ∧
  (∀ (s : State) (v : Bool), Idle s .SYS → s.sys.active = false → s.bit .SYS SYS_MODE 7 = false →
    ∀ p ∈ [(1, 3), (2, 5), (3, 4), (3, 5), (4, 3), (4, 5), (5, 2), (5, 3), (5, 4), (6, 1), (6, 2), (6, 3), (6, 4), (2, 0), (3, 0),
      (4, 0), (5, 0), (1, 6), (2, 6), (3, 6), (4, 6), (5, 6)], s.mode = p.1 → s.rdN .SYS 0x4 = p.2 →
    Gives (.modeReq v) s fun t => Ended t .SYS 1 .refusedMode ∧ t.mode = p.1 ∧ t.bit .SYS SYS_MODE 7 = false) ∧
  (∀ (s : State) (v : Bool), Idle s .SYS → s.sys.active = true → s.sys.stopped = 0 → s.rdN .SYS 0x4 = 1 →
    s.bit .SAF SAF_STATUS 7 = false → Gives (.modeReq v) s fun t => t.mode = 1 ∧ t.sys.active = false ∧ Ended t .SYS 1 .ok) ∧
  (∀ (s : State) (cut : Bool), s.bit .SYS SYS_MODE 7 = true → s.sys.active = false → s.pwr.phase ≠ .loss →
    let m := s.f .SYS SYS_MODE 6 4
    (m ≠ 0 → Gives (.modeChg cut) s fun t => t.mode = m ∧ t.bit .SYS 0x24 1 = true) ∧
    (m = 0 → Gives (.modeChg cut) s fun t => t.pwr.phase = .dormant ∧ t.mode = 0 ∧ t.sys.storing = false)) ∧
  (∀ (s : State) (v : Bool) (m : Nat) (cut : Bool), s.pwr.phase = .loss →
    (Idle s .SYS → s.sys.active = false → s.rdN .SYS 0x4 = m → m ≤ 6 →
      Gives (.modeReq v) s fun t => Ended t .SYS 1 .refusedMode ∧ t.rd .SYS SYS_MODE = s.rd .SYS SYS_MODE) ∧
    exec (.modeChg cut) s = .next s ∧ exec .keyoffTimeExpired s = .next s) ∧
  (∀ (s : State), s.mode ∈ [2, 3, 4] → s.sys.active = false → s.sys.storing = false → s.bit .SYS SYS_MODE 7 = false →
    s.pwr.phase ≠ .loss → 
    Gives .ignFall s fun t => Heading t 1 ∧ t.sys.ign = false ∧ t.mode = s.mode) ∧
  (∀ (s : State), s.mode = 5 → s.sys.active = false → s.sys.storing = false → s.bit .SYS SYS_MODE 7 = false → s.pwr.phase ≠ .loss →
    Gives .svcEnFall s fun t => Heading t 1 ∧ t.sys.svcEn = false) ∧
  (∀ (s : State) (v : Bool), Gives (.standstill v) s fun t => t.sys.still = v ∧ t.regs = s.regs) ∧
  (∀ (s : State), s.mode = 1 ∨ s.mode = 6 → s.sys.ign = false → s.sys.wake = false → s.sys.wakeSvc = false →
    s.bit .SYS SYS_MODE 7 = false → s.sys.active = false → s.pwr.phase ≠ .loss →
    Gives .keyoffTimeExpired s fun t => Heading t 0 ∧ t.sys.storing = true ∧ t.bit .SAF SAF_STATUS 7 = false) ∧
  (∀ (s : State), s.mode ∈ [0, 1, 6] → (Gives (.wakeInputFall .ign) s fun t => t.sys.ign = false ∧ t.regs = s.regs) ∧
    (Gives (.wakeInputFall .wake) s fun t => t.sys.wake = false ∧ t.regs = s.regs) ∧
    Gives (.wakeInputFall .wakeSvc) s fun t => t.sys.wakeSvc = false ∧ t.regs = s.regs) ∧
  (∀ (s : State) (p : WakePin) (k : Fin 5) (e : BootEnv), s.sys.storing = true →
    (s.bit .SAF SAF_STATUS 7 = false →
      Gives (.dormantEntryWake p false k e) s fun t => t.mode = 1 ∧ t.sys.storing = false ∧ (p = .ign → t.sys.ign = true)) ∧
    (6500 ≤ e.volts.getD 0 0 → s.aon.wake = 0 →
      Gives (.dormantEntryWake p true k e) s (StartedUp · 1 (WakePinBit p)))) ∧
  (∀ (s : State) (p : WakePin) (late : Bool) (k : Fin 5) (e : BootEnv), s.sys.storing = false →
    exec (.dormantEntryWake p late k e) s = .next s) ∧
  (∀ (s : State), Idle s .SYS → s.sys.active = false →
    (s.mode ≠ 1 → s.mode ≠ 5 → Gives .drawerSet s fun t => Ended t .SYS 2 .refusedMode ∧ t.nv = s.nv) ∧
    (s.mode = 1 → s.rdN .SYS 0x4 ≤ 7 → s.sys.code ≠ 7 → Gives .drawerSet s fun t => Ended t .SYS 2 .locked ∧ t.nv = s.nv) ∧
    (s.mode = 1 → s.rdN .SYS 0x4 ≤ 7 → s.sys.code = 7 → s.mramOk = false →
      Gives .drawerSet s fun t => Ended t .SYS 2 .refusedTemp ∧ t.nv = s.nv) ∧
    (s.mode = 1 → s.rdN .SYS 0x4 ≤ 7 → s.sys.code = 7 → s.mramOk = true →
      Gives .drawerSet s fun t => Ended t .SYS 2 .ok ∧ t.nv.drawer = some (s.rdN .SYS 0x4)))

/-- The storage queue (R151–R153, Table 6-3): a request starts when HEAD moves past TAIL; its end writes the time and the
result, moves TAIL and raises its events; and memory checks as DRAM is scrubbed (R145, R147). Where the spec is silent the
statement follows the model's choice: assumption log 4, 75, 107 and 133. -/
def Obligations.StorageAndScrub : Prop :=
  (∀ (s : State) (v : Word), s.bit .SYS SYS_STQ_CFG 8 = false →
    Gives (.stqHeadWrite v) s fun t => t.f .SYS SYS_STQ_HEAD 15 0 = fld v 15 0 ∧ t.stq = s.stq ∧ t.mem = s.mem) ∧
  (∀ (s : State) (v : Word), s.bit .SYS SYS_STQ_CFG 8 = true → s.stq = none → s.bit .PWR PWR_STATUS 15 = false →
    fld v 15 0 ≠ s.f .SYS SYS_STQ_TAIL 15 0 → s.stqAddr + 64 ≤ 0x3E0000000 →
    Gives (.stqHeadWrite v) s fun t => t.f .SYS SYS_STQ_HEAD 15 0 = fld v 15 0 ∧
      t.stq = some { addr := s.stqAddr, atTail := true } ∧ t.rdB (s.stqAddr + 3) = 0xFF) ∧
  (∀ (s : State) (bad : Bool), s.stq = none → exec (.stqRequestDone bad) s = .next s) ∧
  (∀ (s : State) (bad : Bool) (q : StqRun), s.stq = some q → s.bit .SYS SYS_STQ_CFG 8 = false → q.addr + 64 ≤ 0x3E0000000 →
    Memory.wf s.mem = true → SMap.wf (fun _ => (0 : Byte)) s.emmc = true →
    let r := s.stqReq q.addr
    let u := s.userArea r.dev
    let inside := u.1 ≤ r.range.1 ∧ r.range.1 + r.range.2 ≤ u.1 + u.2
    let writes := r.op = 2 ∨ r.op = 3
    let cool := if r.dev = 0 then s.emmcOk = true else if r.dev = 1 then s.norOk = true else s.mramOk = true
    let base := if r.dev = 1 then norBase else mramBase
    (r.ok = false → Gives (.stqRequestDone bad) s (StqDone s · q .badHeader)) ∧
    (r.ok = true → writes → ¬ inside → Gives (.stqRequestDone bad) s (StqDone s · q .locked)) ∧
    (r.ok = true → (writes → inside) → ¬ cool → Gives (.stqRequestDone bad) s (StqDone s · q .refusedTemp)) ∧
    (r.ok = true → (writes → inside) → cool →
      (r.op = 1 → bad = true → Gives (.stqRequestDone bad) s (StqDone s · q .badBlock)) ∧
      (r.op = 1 → bad = false → r.addr + r.count ≤ q.addr ∨ q.addr + 64 ≤ r.addr →
        Gives (.stqRequestDone bad) s fun t => StqDone s t q .ok ∧ ∀ i, i < r.count →
          t.rdB (r.addr + i) = if r.dev = 0 then s.emmc.get 0 (r.off + i) else s.rdB (base + r.off + i)) ∧
      (r.op = 2 → r.dev = 0 → Gives (.stqRequestDone bad) s fun t => StqDone s t q .ok ∧
        ∀ i, t.emmc.get 0 i = if r.off ≤ i ∧ i < r.off + r.count then s.rdB (r.addr + (i - r.off)) else s.emmc.get 0 i) ∧
      (r.op = 2 → r.dev = 2 → Gives (.stqRequestDone bad) s fun t => StqDone s t q .ok ∧
        ∀ i, i < r.count → t.rdB (mramBase + r.off + i) = s.rdB (r.addr + i)) ∧
      (r.op = 2 → r.dev = 1 → Gives (.stqRequestDone bad) s fun t =>
        (∀ i, i < r.count → t.rdB (norBase + r.off + i) = s.rdB (norBase + r.off + i) &&& s.rdB (r.addr + i)) ∧
        StqDone s t q (if (∀ i < r.count, s.rdB (norBase + r.off + i) &&& s.rdB (r.addr + i) = s.rdB (r.addr + i)) then .ok
          else .badBlock)) ∧
      (r.op = 3 → Gives (.stqRequestDone bad) s fun t => StqDone s t q .ok ∧
        ∀ i, i < 65536 → t.rdB (norBase + r.range.1 + i) = blankByte (norBase + r.range.1 + i)) ∧
      (r.op = 4 → Gives (.stqRequestDone bad) s fun t => StqDone s t q .ok ∧ t.emmc = s.emmc))) ∧
  (∀ (s : State) (bad : Bool) (q : StqRun), s.stq = some q → q.atTail = true → s.bit .SYS SYS_STQ_CFG 8 = true →
    s.bit .PWR PWR_STATUS 15 = false → q.addr + 64 ≤ 0x3E0000000 → (s.stqReq q.addr).ok = false →
    let i := (s.f .SYS SYS_STQ_TAIL 15 0 + 1) % 65536
    let n := s.stqBase + i % s.stqSize * 64
    (s.f .SYS SYS_STQ_HEAD 15 0 = i → Gives (.stqRequestDone bad) s (StqDone s · q .badHeader)) ∧
    (s.f .SYS SYS_STQ_HEAD 15 0 ≠ i → n + 64 ≤ 0x3E0000000 → Gives (.stqRequestDone bad) s fun t =>
      t.f .SYS SYS_STQ_TAIL 15 0 = i ∧ t.stq = some { addr := n, atTail := true } ∧ t.rdB (n + 3) = 0xFF)) ∧
  (∀ (s : State) (l : Nat) (n : Nat), s.bit .SYS SYS_ECC_CFG 0 = true → l * 64 < 0x3E0000000 → s.bit .PWR PWR_STATUS 15 = false →
    s.mode ≠ 0 ∨ s.bit .SYS SYS_MODE 7 = true → s.latent.get 0 (l * 64) + n = 0 →
    Gives (.scrubRead l n) s fun t => (∀ b o, t.rd b o = s.rd b o) ∧ t.mem = s.mem ∧ t.poison = s.poison) ∧
  (∀ (s : State) (l : Nat) (n : Nat), s.bit .SYS SYS_ECC_CFG 0 = false ∨ 0x3E0000000 ≤ l * 64 ∨ s.bit .PWR PWR_STATUS 15 = true ∨
    (s.mode = 0 ∧ s.bit .SYS SYS_MODE 7 = false) → exec (.scrubRead l n) s = .next s) ∧
  (∀ (s : State) (l : Nat) (n : Nat), s.bit .SYS SYS_ECC_CFG 0 = true → l * 64 < 0x3E0000000 → s.bit .PWR PWR_STATUS 15 = false →
    s.mode ≠ 0 ∨ s.bit .SYS SYS_MODE 7 = true → s.latent.get 0 (l * 64) + n = 1 →
    Gives (.scrubRead l n) s fun t => t.latent.get 0 (l * 64) = 0 ∧ t.poison = s.poison ∧
      t.rdN .SYS SYS_ECC_CE_DRAM = min (2 ^ 32 - 1) (s.rdN .SYS SYS_ECC_CE_DRAM + 1)) ∧
  (∀ (s : State) (l : Nat) (n : Nat), s.bit .SYS SYS_ECC_CFG 0 = true → l * 64 < 0x3E0000000 → s.bit .PWR PWR_STATUS 15 = false →
    s.mode ≠ 0 ∨ s.bit .SYS SYS_MODE 7 = true → 2 ≤ s.latent.get 0 (l * 64) + n →
    Gives (.scrubRead l n) s fun t => t.poison.get false (l * 64) = true ∧ t.bit .SYS 0x24 4 = true ∧
      t.rdN .SYS SYS_ECC_UE_DRAM = min (2 ^ 32 - 1) (s.rdN .SYS SYS_ECC_UE_DRAM + 1))

/-- The safety pair (R170, R458–R463, Table 20-2, Table 20-4): a mismatch, a confirmed check, a failed self test, a wrong
frequency of IL28 and a failed cut-off test declare their faults; the watchdog takes its two keys in turn inside its window
and resets the core otherwise. The commands of SAF (Table 20-9) and the lock of perturbation (R467): the two keys within 1
ms of each other, in SERVICE with PROTECT open. Where the spec is silent the statement follows the model's choice:
assumption log 4, 71, 79, 81 and 173. -/
def Obligations.SafetyPair : Prop :=
  (∀ s : State, s.dieOn = true → Gives .comparatorMismatch s (Faulted s · 0x01 0)) ∧
  (∀ s : State, s.dieOn = false → exec .comparatorMismatch s = .next s) ∧
  (∀ (s : State) (c : Byte) (src : BitVec 16) (l : List (Int × Int)), s.pairRuns = true → pairCheck c.toNat = true →
    s.pairAssigned c.toNat src.toNat = true → ∀ k, s.pairRunOf c.toNat src.toNat = k →
    ((∀ p ∈ l, s.pairHolds c.toNat src.toNat p.1 p.2 = true) → l ≠ [] → k + l.length = (pairTiming c.toNat).2 →
      Gives (.safetyCheckFault c ⟨src, l⟩) s
        (Faulted (s.pass (l.length * ((pairTiming c.toNat).1 * 1000000))) · c.toNat src.toNat)) ∧
    ((∀ p ∈ l, s.pairHolds c.toNat src.toNat p.1 p.2 = true) → l ≠ [] → k + l.length < (pairTiming c.toNat).2 →
      Gives (.safetyCheckFault c ⟨src, l⟩) s fun t => t.pairRunOf c.toNat src.toNat = k + l.length ∧
        t.rd .SAF SAF_STATUS = s.rd .SAF SAF_STATUS ∧ t.rd .SAF SAF_FAULT = s.rd .SAF SAF_FAULT ∧
        ∀ i, checkIdx c.toNat = some i → t.f .SAF (SAF_CHECK_CNT i) 31 16 =
          if k = 0 then min 65535 (s.f .SAF (SAF_CHECK_CNT i) 31 16 + 1) else s.f .SAF (SAF_CHECK_CNT i) 31 16) ∧
    ((∀ p ∈ l, s.pairHolds c.toNat src.toNat p.1 p.2 = false) → l ≠ [] →
      Gives (.safetyCheckFault c ⟨src, l⟩) s fun t => t.pairRunOf c.toNat src.toNat = 0 ∧ t.regs = s.regs)) ∧
  (∀ (s : State) (c : Byte) (src : BitVec 16) (l : List (Int × Int)),
    s.pairRuns = false ∨ pairCheck c.toNat = false ∨ s.pairAssigned c.toNat src.toNat = false →
    exec (.safetyCheckFault c ⟨src, l⟩) s = .next s) ∧
  (∀ s : State, s.pairRuns = true →
    let u := s.testDue s.saf.selfAt 1000000000
    (Gives (.comparatorSelfTest false) s (Faulted u · 0x02 0)) ∧
    Gives (.comparatorSelfTest true) s fun t => t.regs = s.regs ∧ t.saf = { s.saf with selfAt := some u.clk.up } ∧ t.clk = u.clk) ∧
  (∀ (s : State) (f : Nat), s.pairRuns = true →
    let u := s.testDue s.saf.freqAt 100000000
    (f < 22800 ∨ 25200 < f → Gives (.il28FrequencyTest f) s (Faulted u · 0x05 0)) ∧
    (22800 ≤ f → f ≤ 25200 → Gives (.il28FrequencyTest f) s fun t => t.rdN .PACE (PACE_ISL_FREQ 28) = f ∧
      t.saf = { s.saf with freqAt := some u.clk.up } ∧ t.clk = u.clk ∧ ∀ o, t.rd .SAF o = s.rd .SAF o)) ∧
  (∀ (s : State) (p : Bool) (f : Nat), s.pairRuns = false →
    exec (.comparatorSelfTest p) s = .next s ∧ exec (.il28FrequencyTest f) s = .next s) ∧
  (∀ (s : State), s.mode ∈ [2, 3, 4] → s.dieOn = true → s.sys.active = false → s.sys.storing = false →
    Gives .comparatorMismatch s (Heading · 6)) ∧
  (∀ (s : State) (e : BootEnv), s.bit .SAF SAF_STATUS 5 = true → s.winOpen * 1000000 ≤ s.clk.up - s.saf.kickAt →
    s.clk.up - s.saf.kickAt ≤ s.winClose * 1000000 →
    Gives (.wdgKick (if s.bit .SAF SAF_WDG_STATUS 0 then 0x3C5A else 0xA5C3) e) s fun t =>
      t.bit .SAF SAF_WDG_STATUS 0 = !s.bit .SAF SAF_WDG_STATUS 0 ∧ t.saf.kickAt = s.clk.up ∧
      t.f .SAF SAF_WDG_STATUS 31 16 = min 65535 (s.f .SAF SAF_WDG_STATUS 31 16 + 1)) ∧
  (∀ (s : State) (v : Word) (e : BootEnv), s.bit .SAF SAF_STATUS 5 = true → s.pwr.phase ∈ [.run, .ride, .reserve] →
    v ≠ (if s.bit .SAF SAF_WDG_STATUS 0 then 0x3C5A else 0xA5C3) ∨ s.clk.up - s.saf.kickAt < s.winOpen * 1000000 ∨
      s.winClose * 1000000 < s.clk.up - s.saf.kickAt → Gives (.wdgKick v e) s (StartedUp · 2 0)) ∧
  (∀ (s : State) (v : Word) (e : BootEnv), s.bit .SAF SAF_STATUS 5 = false → exec (.wdgKick v e) s = .next s) ∧
  (∀ (s : State) (e : BootEnv), s.bit .SAF SAF_STATUS 5 = true → s.pwr.phase ∈ [.run, .ride, .reserve] →
    Gives (.wdgExpiry e) s (StartedUp · 2 0)) ∧
  (∀ (s : State) (e : BootEnv), s.bit .SAF SAF_STATUS 5 = false → exec (.wdgExpiry e) s = .next s) ∧
  (∀ (s : State) (f : Bool), Idle s .SAF →
    (s.mode ≠ 5 ∨ s.sys.svcEn = false → Gives (.clearLimp f) s fun t => Ended t .SAF 1 .refusedMode ∧
      t.rd .SAF SAF_STATUS = s.rd .SAF SAF_STATUS) ∧
    (s.mode = 5 → s.sys.svcEn = true → s.rd .SAF 0x4 ≠ 0xC35A → Gives (.clearLimp f) s (Ended · .SAF 1 .locked)) ∧
    (s.mode = 5 → s.sys.svcEn = true → s.rd .SAF 0x4 = 0xC35A → Gives (.clearLimp true) s (Ended · .SAF 1 .busy) ∧
      Gives (.clearLimp false) s fun t => Ended t .SAF 1 .ok ∧ t.bit .SAF SAF_STATUS 7 = false ∧ t.rd .SAF SAF_FAULT = 0)) ∧
  (∀ s : State, Idle s .SAF → s.mode = 5 →
    (Gives (.cutoffTest true) s fun t => Ended t .SAF 2 .ok ∧ t.bit .SAF SAF_STATUS 4 = true) ∧
    (Gives (.cutoffTest false) s fun t => Ended t .SAF 2 .aborted ∧ t.bit .SAF SAF_STATUS 4 = false ∧ t.bit .SAF SAF_STATUS 7 = true)) ∧
  (∀ (s : State) (p : Bool), Idle s .SAF → s.mode ≠ 5 → Gives (.cutoffTest p) s (Ended · .SAF 2 .refusedMode)) ∧
  (∀ s : State, Idle s .SAF → Gives .safClearCounts s fun t => Ended t .SAF 3 .ok ∧ ∀ i, i < 16 → t.rd .SAF (SAF_CHECK_CNT i) = 0) ∧
  (∀ s : State, Gives (.tstUnlock 0xC35A) s fun t => t.saf.key = some s.clk.up ∧ t.regs = s.regs) ∧
  (∀ (s : State) (k : Nat), s.saf.key = some k → s.clk.up ≤ k + 1000000 → s.mode = 5 → s.rd .TST 0x18 = 1 →
    Gives (.tstUnlock 0x3CA5) s fun t => t.bit .TST TST_STATUS 0 = true ∧ t.saf.key = none) ∧
  (∀ (s : State), s.saf.key = none ∨ (∃ k, s.saf.key = some k ∧ k + 1000000 < s.clk.up) ∨ s.mode ≠ 5 ∨ s.rd .TST 0x18 ≠ 1 →
    Gives (.tstUnlock 0x3CA5) s fun t => t.regs = s.regs ∧ t.saf.key = none) ∧
  (∀ (s : State), s.rd .TST TST_STATUS ≠ 0 → Gives (.tstUnlock 0) s fun t => t.rd .TST TST_STATUS = 0 ∧ t.bit .TST 0x24 0 = true ∧
    ∀ o, 0x100 ≤ o → t.rd .TST o = resetVal .TST o) ∧
  (∀ (s : State), s.rd .TST TST_STATUS = 0 → Gives (.tstUnlock 0) s fun t => t.saf.key = none ∧ t.regs = s.regs) ∧
  (∀ (s : State) (v : Word), v ≠ 0 → v ≠ 0xC35A → v ≠ 0x3CA5 →
    Gives (.tstUnlock v) s fun t => t.saf.key = none ∧ t.regs = s.regs)

/-- Samples of the loop engine (R279, R282, R285, R287–R289, R291, Table 11-3): an overrun; OFF, HOLD, RUN, RETARGET, a
suspended sample and an exception of the law, each on an instance whose sink is None; a group of one member (R297); and the
program inputs (R286). Where the spec is silent the statement follows the model's choice: assumption log 4, 90, 154 and 155.
-/
def Obligations.LoopSamples : Prop :=
  (∀ (s : State) (n : Fin 128) (t : Nat), s.lpDue n.val t = true → Gives (.loopSample n t true) s fun u =>
    u.f .LPE (LPE_LP_COUNTS n.val) 31 16 = min 65535 (s.f .LPE (LPE_LP_COUNTS n.val) 31 16 + 1) ∧
    u.bit .LPE (LPE_LP_FLAGS n.val) 11 = true ∧ u.bit .LPE 0x24 5 = true ∧ u.now = t ∧ (u.lp n.val).last = some t ∧ (u.lp n.val).st = (s.lp n.val).st ∧
    u.rd .LPE (LPE_LP_OUT n.val) = s.rd .LPE (LPE_LP_OUT n.val)) ∧
  (∀ (s : State) (n : Fin 128) (t : Nat) (busy : Bool), s.lpDue n.val t = false →
    exec (.loopSample n t busy) s = .next s) ∧
  (∀ (s : State) (n : Fin 128) (t : Nat), Due s n.val t → s.lpAction n.val s.mode = 0 → Gives (.loopSample n t false) s fun u =>
    u.f .LPE (LPE_LP_STATUS n.val) 2 0 = 0 ∧ u.rd .LPE (LPE_LP_APPLIED n.val) = s.lpeW n.val 56 ∧
    u.rd .LPE (LPE_LP_OUT n.val) = s.rd .LPE (LPE_LP_OUT n.val) ∧ (u.lp n.val).st = (s.lp n.val).st) ∧
  (∀ (s : State) (n : Fin 128) (t : Nat), Due s n.val t → s.lpAction n.val s.mode = 2 → Gives (.loopSample n t false) s fun u =>
    u.f .LPE (LPE_LP_STATUS n.val) 2 0 = 2 ∧ u.rd .LPE (LPE_LP_APPLIED n.val) = s.rd .LPE (LPE_LP_OUT n.val) ∧
    u.rd .LPE (LPE_LP_OUT n.val) = s.rd .LPE (LPE_LP_OUT n.val) ∧ (u.lp n.val).st = (s.lp n.val).st) ∧
  (∀ (s : State) (n : Fin 128) (t : Nat) (p w : Nat), Due s n.val t → GoesOn s n.val → s.lpAction n.val s.mode = 1 →
    p < 128 → s.lpe.pin.get none p = some w → s.lpeSrc n.val 0 = wordN (0x10000000 + p) →
    (∀ k, 1 ≤ k → k < 6 → s.lpeSrc n.val k = 0) → s.lpeW n.val 0 = 0xF001000A → s.lpeW n.val 1 = 0xF000003F →
    Gives (.loopSample n t false) s fun u => u.f .LPE (LPE_LP_STATUS n.val) 2 0 = 1 ∧
      u.rd .LPE (LPE_LP_OUT n.val) = s.rd .LPE (LPE_PIN p) ∧ u.rd .LPE (LPE_LP_APPLIED n.val) = s.rd .LPE (LPE_PIN p) ∧
      u.bit .LPE (LPE_RUN (n.val / 32)) (n.val % 32) = true) ∧
  (∀ (s : State) (n : Fin 128) (t : Nat), Due s n.val t → GoesOn s n.val → s.lpAction n.val s.mode = 3 →
    (∀ k, k < 6 → s.lpeSrc n.val k = 0) → s.lpeW n.val 0 = 0xF001000A → s.lpeW n.val 1 = 0xF000003F →
    Gives (.loopSample n t false) s fun u => u.f .LPE (LPE_LP_STATUS n.val) 2 0 = 3 ∧
      u.rd .LPE (LPE_LP_OUT n.val) = s.lpeW n.val 57 ∧ u.rd .LPE (LPE_LP_APPLIED n.val) = s.lpeW n.val 57) ∧
  (∀ (s : State) (n : Fin 128) (t k : Nat), Due s n.val t → GoesOn s n.val → s.lpAction n.val s.mode = 1 → k < 6 →
    fld (s.lpeSrc n.val k) 31 28 = 9 → 2 ≤ fld (s.lpeSrc n.val k) 27 26 → Gives (.loopSample n t false) s fun u =>
      u.bit .LPE (LPE_LP_STATUS n.val) 3 = true ∧ u.bit .LPE (LPE_LP_STATUS n.val) (16 + k) = true ∧
      u.rd .LPE (LPE_LP_OUT n.val) = s.rd .LPE (LPE_LP_OUT n.val) ∧ (u.lp n.val).st = (s.lp n.val).st) ∧
  (∀ (s : State) (n : Fin 128) (t : Nat), Due s n.val t → GoesOn s n.val → s.lpAction n.val s.mode = 1 →
    (∀ k, k < 6 → s.lpeSrc n.val k = 0) → s.lpeW n.val 0 = 0 → Gives (.loopSample n t false) s fun u =>
      u.f .LPE (LPE_LP_STATUS n.val) 2 0 = 4 ∧ u.f .LPE (LPE_LP_STATUS n.val) 15 8 = 1 ∧
      u.bit .LPE (LPE_FAULT (n.val / 32)) (n.val % 32) = true ∧ u.bit .LPE 0x24 1 = true ∧
      u.rd .LPE (LPE_LP_OUT n.val) = s.rd .LPE (LPE_LP_OUT n.val) ∧ u.rd .LPE (LPE_LP_APPLIED n.val) = s.lpeW n.val 56) ∧
  (∀ (s : State) (n : Fin 128) (g : Fin 16) (t : Nat), s.lpDue n.val t = true → (s.lp n.val).take = none →
    s.bit .LPE (LPE_LP_BANK n.val) 2 = false → s.lpAction n.val s.mode = 2 → cfgGroup (s.lp n.val).cfg = some g.val →
    s.membersAt g.val t = [n.val] → (s.mg g.val).take = none → fld (s.mg g.val).sink 31 28 = 0 →
    Gives (.loopSample n t false) s fun u => u.rd .LPE (LPE_MG_OUT g.val) = s.rd .LPE (LPE_LP_OUT n.val) ∧
      u.f .LPE (LPE_MG_STATUS g.val) 6 0 = n.val ∧ u.bit .LPE (LPE_MG_STATUS g.val) 15 = false ∧
      u.f .LPE (LPE_MG_STATUS g.val) 19 16 = 1 ∧ u.bit .LPE (LPE_LP_STATUS n.val) 4 = true ∧
      u.rd .LPE (LPE_LP_APPLIED n.val) = s.rd .LPE (LPE_LP_OUT n.val)) ∧
  (∀ (s : State) (p : Fin 128) (v : Word), Gives (.lpePinWrite p v) s fun t =>
    t.rd .LPE (LPE_PIN p.val) = v ∧ t.lpe.pin.get none p.val = some s.now ∧ ∀ o, o ≠ LPE_PIN p.val → t.rd .LPE o = s.rd .LPE o)

/-- Staged writes and the commands of LPE (R141, R291, R292, R299–R301, Table 11-12). Where the spec is silent the statement
follows the model's choice: assumption log 90 and 91. -/
def Obligations.LoopCommands : Prop :=
  (∀ (s : State) (n : Fin 128) (v : Word), ∀ o ∈ [LPE_LP_CFG n.val, LPE_LP_PERIOD n.val, LPE_LP_PHASE n.val, LPE_LP_SINK n.val],
    (s.open .LPE = true → Gives (.stagedWrite o v) s fun t => t.bit .LPE (LPE_LP_STATUS n.val) 26 = true ∧
      (t.lp n.val).dirty = true ∧ (t.lp n.val).cfg = (s.lp n.val).cfg ∧
      ∀ r, regRow .LPE o = some r → t.rd .LPE o = r.store (s.rd .LPE o) v) ∧
    (s.open .LPE = false → exec (.stagedWrite o v) s = .next s)) ∧
  (∀ (s : State) (g : Fin 16) (v : Word), s.open .LPE = true →
    Gives (.stagedWrite (LPE_MG_OFFVAL g.val) v) s fun t => t.rd .LPE (LPE_MG_OFFVAL g.val) = v ∧
      t.bit .LPE (LPE_MG_STATUS g.val) 7 = true ∧ (t.mg g.val).offval = (s.mg g.val).offval) ∧
  (∀ s : State, Idle s .LPE → 127 < (s.rd .LPE 0x4).toNat ∨ (s.rd .LPE 0x8).toNat = 0 ∨
    128 < (s.rd .LPE 0x4).toNat + (s.rd .LPE 0x8).toNat →
    Gives .loopApply s fun t => Ended t .LPE 1 .badHeader ∧ t.lpe = s.lpe) ∧
  (∀ (s : State) (n : Fin 128), Idle s .LPE → s.rd .LPE 0x4 = wordN n.val → s.rd .LPE 0x8 = 1 → s.rd .LPE 0xC = 0 →
    Gives .loopApply s fun t =>
      let r := s.confResult ((upto 128).map (fun m => s.lpConf (m == n.val) m)) ((upto 16).map (fun g => s.mgConf false g)) none
      Ended t .LPE 1 r ∧ (r = .ok → (t.lp n.val).take = some (s.lpConf true n.val) ∧ (t.lp n.val).dirty = false) ∧
      (r ≠ .ok → t.lpe = s.lpe) ∧ (r = .incompatible → t.bit .LPE 0x24 7 = true)) ∧
  (∀ s : State, Idle s .LPE →
    let n := s.f .LPE 0x4 6 0
    let b := 1 - s.lpeActive n
    let ws := (upto 767).map (fun w => s.lpeBankW n b w)
    let good := crcWords ws = (s.lpeBankW n b 767).toNat
    (¬ good → Gives .lpeSwap s (Ended · .LPE 2 .badBlock)) ∧
    (good → checkL (ws.take 48) = false → Gives .lpeSwap s (Ended · .LPE 2 .badHeader)) ∧
    (good → checkL (ws.take 48) = true → s.bit .LPE (LPE_LP_BANK n) 2 = true → Gives .lpeSwap s (Ended · .LPE 2 .busy)) ∧
    (good → checkL (ws.take 48) = true → s.bit .LPE (LPE_LP_BANK n) 2 = false →
      s.confResult ((upto 128).map (fun m => s.lpConf false m)) ((upto 16).map (fun g => s.mgConf false g)) (some n) = .ok →
      Gives .lpeSwap s fun t => Running s t .LPE 2 ∧ t.bit .LPE (LPE_LP_BANK n) 2 = true ∧ t.lpeActive n = s.lpeActive n)) ∧
  (∀ s : State, (s.mailOf .LPE).code = 2 → fld (arg (s.mailOf .LPE).args 0) 6 0 = s.f .LPE 0x4 6 0 →
    Gives .lpeSwapCancel s fun t => Ended t .LPE 3 .ok ∧ Idle t .LPE ∧ t.bit .LPE (LPE_LP_BANK (s.f .LPE 0x4 6 0)) 2 = false) ∧
  (∀ s : State, Idle s .LPE → Gives .lpeSwapCancel s fun t => Ended t .LPE 3 .ok ∧ t.lpe = s.lpe) ∧
  (∀ s : State, Idle s .LPE →
    let n := s.f .LPE 0x4 6 0
    (s.bit .LPE (LPE_FAULT (n / 32)) (n % 32) = true → Gives .lpeClearFault s fun t => Ended t .LPE 4 .ok ∧
      t.bit .LPE (LPE_FAULT (n / 32)) (n % 32) = false ∧ t.f .LPE (LPE_LP_STATUS n) 15 8 = 0 ∧ (t.lp n).preload = true) ∧
    (s.bit .LPE (LPE_FAULT (n / 32)) (n % 32) = false → Gives .lpeClearFault s fun t => Ended t .LPE 4 .ok ∧ t.lpe = s.lpe)) ∧
  (∀ s : State, Idle s .LPE → Gives .lpePreload s fun t => Ended t .LPE 5 .ok ∧ (t.lp (s.f .LPE 0x4 6 0)).preload = true ∧
    ∀ m, m ≠ s.f .LPE 0x4 6 0 → t.lp m = s.lp m) ∧
  (∀ s : State, Idle s .LPE → Gives .lpeClearCounts s fun t => Ended t .LPE 6 .ok ∧
    (∀ n, n < 128 → t.rd .LPE (LPE_LP_FLAGS n) = (if s.bit .LPE 0x4 0 then 0 else s.rd .LPE (LPE_LP_FLAGS n)) ∧
      t.rd .LPE (LPE_LP_COUNTS n) = (if s.bit .LPE 0x4 0 then 0 else s.rd .LPE (LPE_LP_COUNTS n))) ∧
    (∀ g, g < 16 → t.rd .LPE (LPE_MG_WINCHG g) = (if s.bit .LPE 0x4 1 then 0 else s.rd .LPE (LPE_MG_WINCHG g))) ∧
    t.bit .LPE LPE_STATUS 8 = (s.bit .LPE LPE_STATUS 8 && !s.bit .LPE 0x4 2))

/-- Waveform commands, command inputs and holds of the valve drivers (R134, R135, R306–R309, Table 12-3): a refused command,
a start on an idle channel whose program begins with a hold for a command, a waiting command, a stop; CMD_IN; the end of a
hold. Where the spec is silent the statement follows the model's choice: assumption log 4, 86, 156 and 157. -/
def Obligations.ValveWaveforms : Prop :=
  (∀ (s : State) (n : Fin 32) (i : Fin 64), mfPermitted s.mode (s.f .VLV (VLV_CH_CFG n.val) 31 27) = false →
    ∀ c ∈ [Instr.vlvGo n i, .vlvStop n], Gives c s fun t => t.rd .VLV (VLV_CH_GO_STS n.val) = 2 ∧ t.vlv = s.vlv ∧
      ∀ o, o ≠ VLV_CH_GO_STS n.val → t.rd .VLV o = s.rd .VLV o) ∧
  (∀ (s : State) (n : Fin 32) (i : Fin 64), mfPermitted s.mode (s.f .VLV (VLV_CH_CFG n.val) 31 27) = true →
    s.bit .VLV VLV_CLAIMED n.val = false ∨ s.vlvBit n.val 16 = true →
    ∀ c ∈ [Instr.vlvGo n i, .vlvStop n], Gives c s fun t => t.rd .VLV (VLV_CH_GO_STS n.val) = 11 ∧ t.vlv = s.vlv ∧
      ∀ o, o ≠ VLV_CH_GO_STS n.val → t.rd .VLV o = s.rd .VLV o) ∧
  (∀ (s : State) (n : Fin 32) (i : Nat), 63 < i → Gives (.vlvGo n i) s fun t => t.rd .VLV (VLV_CH_GO_STS n.val) = 4 ∧
    t.vlv = s.vlv ∧ ∀ o, o ≠ VLV_CH_GO_STS n.val → t.rd .VLV o = s.rd .VLV o) ∧
  (∀ (s : State) (n : Fin 32) (i : Fin 64), s.vlvJudge n.val (some i.val) = .ok → s.vlvRuns n.val = false → Calm s →
    s.vlvSuspended = false →
    s.bit .VLV (VLV_CH_BANK n.val) 2 = false → s.vlvWord n.val (s.vlvActive n.val) i.val = 0xF4F00000 →
    Gives (.vlvGo n i) s fun t => t.rd .VLV (VLV_CH_GO_STS n.val) = 0 ∧ t.vlvRuns n.val = true ∧ t.vlvPc n.val = i.val ∧
      t.f .VLV (VLV_CH_STATUS n.val) 5 0 = 0 ∧ t.vlvBit n.val 24 = false ∧ (t.vch n.val).hold = some ⟨3, 0, false⟩ ∧
      (t.vch n.val).g.getD 0 0 = s.f .VLV (VLV_CH_HOLD_T n.val) 19 0 ∧ t.applied n.val = s.applied n.val) ∧
  (∀ (s : State) (n : Fin 32) (i : Fin 64), s.vlvJudge n.val (some i.val) = .ok → s.vlvRuns n.val = true →
    s.bit .VLV (VLV_CH_CFG n.val) 17 = false → (s.vch n.val).hold ≠ some ⟨3, 0, false⟩ →
    ∀ p ∈ [(Instr.vlvGo n i, VCmd.start i.val), (.vlvStop n, .stop)], Gives p.1 s fun t =>
      t.rd .VLV (VLV_CH_GO_STS n.val) = 0 ∧ (t.vch n.val).cmd = some p.2 ∧
      t.vlvPc n.val = s.vlvPc n.val ∧ t.f .VLV (VLV_CH_COUNTS n.val) 23 16 =
        (if (s.vch n.val).cmd.isSome then min 255 (s.f .VLV (VLV_CH_COUNTS n.val) 23 16 + 1)
          else s.f .VLV (VLV_CH_COUNTS n.val) 23 16)) ∧
  (∀ (s : State) (n : Fin 32), s.vlvJudge n.val none = .ok → s.vlvRuns n.val = true → Calm s →
    s.bit .VLV (VLV_CH_CFG n.val) 17 = true ∨ (s.vch n.val).hold = some ⟨3, 0, false⟩ → Gives (.vlvStop n) s fun t => t.rd .VLV (VLV_CH_GO_STS n.val) = 0 ∧
      t.vlvRuns n.val = false ∧ t.applied n.val = 0 ∧ t.bit .VLV (VLV_CH_EVENT n.val) 0 = true) ∧
  (∀ (s : State) (n : Fin 32), s.vlvJudge n.val none = .ok → s.vlvRuns n.val = false → Calm s →
    Gives (.vlvStop n) s fun t => t.rd .VLV (VLV_CH_GO_STS n.val) = 0 ∧ t.vlv = s.vlv ∧
      ∀ o, o ≠ VLV_CH_GO_STS n.val → t.rd .VLV o = s.rd .VLV o) ∧
  (∀ (s : State) (n : Fin 32) (v : Word), s.lpeNames n.val = true → exec (.cmdInWrite n v) s = .next s) ∧
  (∀ (s : State) (n : Fin 32) (v : Word), s.lpeNames n.val = false → s.vlvRuns n.val = false →
    s.bit .VLV (VLV_CH_CFG n.val) 24 = false → Gives (.cmdInWrite n v) s fun t =>
      t.rdN .VLV (VLV_CH_CMD_IN n.val) = min 16000 (fld v 13 0) ∧ t.vlv = s.vlv ∧
      ∀ o, o ≠ VLV_CH_CMD_IN n.val → t.rd .VLV o = s.rd .VLV o) ∧
  (∀ (s : State) (n : Fin 32) (v : Word), s.lpeNames n.val = false → s.vlvRuns n.val = true → (s.vch n.val).follow = true →
    Calm s → (s.vch n.val).wait = false → s.vlvBit n.val 20 = false → s.vlvBit n.val 21 = false →
    let e := min (min 16000 (fld v 13 0)) (s.vlvMax n.val)
    loadOf e (s.vch n.val).amp ≤ s.vlvLoad n.val ∨
      (s.vlvFits n.val (loadOf e (s.vch n.val).amp) = true ∧ s.isoOther n.val = false ∧ s.vlvSuspended = false) →
    Gives (.cmdInWrite n v) s fun t => t.applied n.val = e ∧ (t.vch n.val).req = min 16000 (fld v 13 0)) ∧
  (∀ (s : State) (n : Fin 32) (v : Word), s.lpeNames n.val = false → s.vlvRuns n.val = false →
    s.bit .VLV (VLV_CH_CFG n.val) 24 = true → s.f .VLV (VLV_CH_CMD_IN n.val) 13 0 = 0 → fld v 13 0 ≠ 0 →
    let r := s.vlvJudge n.val (some (s.f .VLV (VLV_CH_CFG n.val) 23 18))
    r ≠ .ok → Gives (.cmdInWrite n v) s fun t => t.rdN .VLV (VLV_CH_GO_STS n.val) = r.code ∧
      t.f .VLV (VLV_CH_COUNTS n.val) 31 24 = min 255 (s.f .VLV (VLV_CH_COUNTS n.val) 31 24 + 1)) ∧
  (∀ (s : State) (n : Fin 32) (w : Bool) (ua : Nat), (s.vch n.val).hold = none → exec (.holdEnd n ⟨w, ua⟩) s = .next s) ∧
  (∀ (s : State) (n : Fin 32) (w : Bool) (ua : Nat) (h : VHold), (s.vch n.val).hold = some h →
    let met := h.kind = 0 ∨ (h.kind = 1 ∧ if h.falling then ua ≤ 500 * h.v else 500 * h.v ≤ ua) ∨
      (h.kind = 2 ∧ s.f .VLV (VLV_CH_HOLD_T n.val) 28 24 < 24 ∧ h.v ≤ (s.vch n.val).edges)
    let ends := s.vlvSuspended = false ∧ if w then h.kind ≠ 0 ∧ h.kind ≠ 3 ∧ (s.vch n.val).g.getD 0 0 ≠ 0 else met
    (¬ ends → Gives (.holdEnd n ⟨w, ua⟩) s fun t => (t.vch n.val).hold = some h ∧ t.vlvPc n.val = s.vlvPc n.val ∧
      t.applied n.val = s.applied n.val ∧ t.f .VLV (VLV_CH_CURRENT n.val) 31 16 = min 65535 (ua / 1000)) ∧
    (ends → (s.vch n.val).cmd = none → Calm s → s.vlvRuns n.val = true → (s.vch n.val).wait = false → s.vlvPc n.val < 63 →
      s.vlvWord n.val (s.vlvActive n.val) (s.vlvPc n.val + 1) = 0xF4F00000 →
      Gives (.holdEnd n ⟨w, ua⟩) s fun t => t.vlvPc n.val = s.vlvPc n.val + 1 ∧ (t.vch n.val).hold = some ⟨3, 0, false⟩ ∧
        t.vlvBit n.val 3 = (w || s.vlvBit n.val 3)) ∧
    (ends → (s.vch n.val).cmd = some .stop → Calm s → s.vlvRuns n.val = true →
      Gives (.holdEnd n ⟨w, ua⟩) s fun t => t.vlvRuns n.val = false ∧ t.applied n.val = 0 ∧
        t.bit .VLV (VLV_CH_EVENT n.val) 0 = true ∧ (t.vch n.val).cmd = none) ∧
    (ends → (s.vch n.val).cmd = none → Calm s → s.vlvPc n.val = 63 → s.f .VLV (VLV_CH_FAIL n.val) 31 30 ≠ 3 →
      Gives (.holdEnd n ⟨w, ua⟩) s fun t => t.bit .VLV (VLV_CH_EVENT n.val) 7 = true ∧ t.vlvBit n.val 24 = true ∧
        t.vlvRuns n.val = false ∧ t.applied n.val = 0))

/-- The feed arbiter, the peak and duty limits, the decays and the hold of a core reset (R304, R313–R317, R327). Where the
spec is silent the statement follows the model's choice: assumption log 4, 86, 87, 158 and 159. -/
def Obligations.ValveLimits : Prop :=
  (∀ (s : State) (g : Fin 8), Calm s → exec (.deferralApply g) s = .next s) ∧
  (∀ (s : State) (g : Fin 8) (n : Fin 32), s.vlv.fell = false → (∀ m, m < 32 → s.vlvReady m = false) → hsfOf n.val = g.val →
    s.queueOf g.val = [{ ch := n.val }] → (∀ h, h < 8 → h ≠ g.val → s.queueOf h = []) → (s.vch n.val).wait = false →
    s.isoOther n.val = false → s.vlvSuspended = false →
    let e := s.vlvEff n.val (s.vch n.val).req
    s.vlvFits n.val (loadOf e (s.vch n.val).amp) = true → Gives (.deferralApply g) s fun t => t.applied n.val = e ∧
      t.queueOf g.val = [] ∧ t.vlvBit n.val 22 = false ∧
      t.f .VLV (VLV_CH_COUNTS n.val) 7 0 = min 255 (s.f .VLV (VLV_CH_COUNTS n.val) 7 0 + 1)) ∧
  (∀ (s : State) (n : Fin 32), Calm s → exec (.deferMaxExpired n) s = .next s) ∧
  (∀ (s : State) (n : Fin 32), s.vlvSuspended = true → exec (.deferMaxExpired n) s = .next s) ∧
  (∀ (s : State) (n : Fin 32) (d : Option (Nat × Nat × Nat)), s.vlvSuspended = false → s.vlv.fell = false → (∀ m, m < 32 → s.vlvReady m = false) →
    s.queueOf (hsfOf n.val) = [{ ch := n.val, dith := d }] → (∀ h, h < 8 → h ≠ hsfOf n.val → s.queueOf h = []) →
    (s.vch n.val).wait = false → Gives (.deferMaxExpired n) s fun t => t.queueOf (hsfOf n.val) = [] ∧
      t.vlvBit n.val 22 = false ∧ t.vlvBit n.val 5 = true ∧ t.bit .VLV (VLV_CH_EVENT n.val) 5 = true ∧
      t.f .VLV (VLV_CH_COUNTS n.val) 15 8 = min 255 (s.f .VLV (VLV_CH_COUNTS n.val) 15 8 + 1) ∧
      t.applied n.val = s.applied n.val) ∧
  (∀ (s : State) (n : Fin 32), n.val < 24 ∨ s.applied n.val ≤ 6000 → exec (.peakMaxExpired n) s = .next s) ∧
  (∀ (s : State) (n : Fin 32), 24 ≤ n.val → 6000 < s.applied n.val → 6000 < (s.vch n.val).req → Calm s → (s.vch n.val).wait = false →
    Gives (.peakMaxExpired n) s fun t => t.vlvBit n.val 20 = true ∧ t.applied n.val ≤ 6000) ∧
  (∀ (s : State) (n : Fin 32) (b : Bool),
    ((s.vch n.val).flowing = false → s.applied n.val = 0 → exec (.decayEnd n b) s = .next s) ∧
    (s.applied n.val ≠ 0 → Gives (.decayEnd n b) s fun t => t.regs = s.regs ∧ t.vch n.val = { s.vch n.val with
      drive := if (s.vch n.val).drive = .fall then .regulate else (s.vch n.val).drive })) ∧
  (∀ (s : State) (n : Fin 32), (s.vch n.val).flowing = true → s.applied n.val = 0 → Calm s →
    (Gives (.decayEnd n true) s fun t => (t.vch n.val).decay = none ∧ (t.vch n.val).flowing = false ∧
      t.f .VLV (VLV_CH_CURRENT n.val) 31 16 = 0) ∧
    ((s.vch n.val).decay = some 2 → Gives (.decayEnd n false) s fun t => (t.vch n.val).decay = some 1 ∧
      (t.vch n.val).flowing = true)) ∧
  (∀ (s : State) (n : Fin 32) (add : Nat), Calm s →
    let sum := (((s.vch n.val).bins.headD 0 + add) :: (s.vch n.val).bins.tail).sum
    let lim := s.rdN .VLV (VLV_CH_DUTY_LIMIT n.val)
    s.vlvBit n.val 21 = false → (s.vch n.val).wait = false →
    (lim = 0 ∨ sum < lim → Gives (.vlvDuty n add) s fun t => t.rdN .VLV (VLV_CH_DUTY_STATE n.val) = min 0xFFFFFFFF sum ∧
      t.vlvBit n.val 21 = false ∧ t.applied n.val = s.applied n.val) ∧
    (lim ≠ 0 → lim ≤ sum → s.applied n.val = s.vlvEff n.val (s.vch n.val).req → Gives (.vlvDuty n add) s fun t =>
      t.rdN .VLV (VLV_CH_DUTY_STATE n.val) = min 0xFFFFFFFF sum ∧ t.vlvBit n.val 21 = true ∧
      t.bit .VLV (VLV_CH_EVENT n.val) 6 = true ∧
      t.applied n.val = min (s.applied n.val) (min 16000 (s.f .VLV (VLV_CH_DUTY_FB n.val) 13 0)))) ∧
  (∀ (s : State) (n : Fin 32) (k : Nat), Calm s → (s.vch n.val).wait = false → s.vlvBit n.val 21 = true → s.vlvBit n.val 20 = false →
    let sum := ((List.replicate (min 64 k) 0 ++ (s.vch n.val).bins).take 64).sum
    let lim := s.rdN .VLV (VLV_CH_DUTY_LIMIT n.val)
    let e := min (s.vch n.val).req (s.vlvMax n.val)
    sum * 100 ≤ lim * clampN 50 99 (s.f .VLV (VLV_CH_DUTY_FB n.val) 31 24) →
    loadOf e (s.vch n.val).amp ≤ s.vlvLoad n.val ∨
      (s.vlvFits n.val (loadOf e (s.vch n.val).amp) = true ∧ s.isoOther n.val = false ∧ s.vlvSuspended = false) →
    Gives (.dutyResume n k) s fun t => t.vlvBit n.val 21 = false ∧ t.applied n.val = e) ∧
  (∀ (s : State) (n : Fin 32), s.bit .VLV VLV_HELD n.val = false → exec (.vlvHoldExpired n) s = .next s) ∧
  (∀ (s : State) (n : Fin 32), s.bit .VLV VLV_HELD n.val = true → Calm s →
    s.f .VLV (VLV_CH_FAIL n.val) 31 30 ≠ 3 ∨ n.val = 0 ∨ 24 ≤ n.val → Gives (.vlvHoldExpired n) s fun t => t.bit .VLV (VLV_CH_EVENT n.val) 12 = true ∧ t.bit .VLV VLV_HELD n.val = false ∧
      t.vlvBit n.val 24 = true ∧ t.vlvRuns n.val = false ∧ t.applied n.val = 0) ∧
  (∀ (s : State) (n : Fin 32), s.bit .VLV VLV_HELD n.val = true → Calm s → s.f .VLV (VLV_CH_FAIL n.val) 31 30 = 3 →
    1 ≤ n.val → n.val ≤ 23 → s.vlvBit n.val 20 = false → s.vlvBit n.val 21 = false →
    let e := min (s.f .VLV (VLV_CH_FAIL n.val) 29 16) (s.vlvMax n.val)
    2 * e ≤ s.vlvLoad n.val ∨ (s.vlvFits n.val (2 * e) = true ∧ s.isoOther n.val = false ∧ s.vlvSuspended = false) →
    Gives (.vlvHoldExpired n) s fun t => t.bit .VLV (VLV_CH_EVENT n.val) 12 = true ∧ t.bit .VLV VLV_HELD n.val = false ∧
      t.vlvBit n.val 24 = true ∧ t.vlvRuns n.val = false ∧ t.applied n.val = e)

/-- The commands of VLV but for identity and ledger (R140, R141, R327, Table 12-13). -/
def Obligations.ValveCommands : Prop :=
  (∀ s : State, Idle s .VLV → s.sys.noDrawer = true → Gives .vlvClaim s fun t => Ended t .VLV 1 .locked ∧
    t.rd .VLV VLV_CLAIMED = s.rd .VLV VLV_CLAIMED) ∧
  (∀ s : State, Idle s .VLV → s.sys.noDrawer = false → Gives .vlvClaim s fun t => Ended t .VLV 1 .ok ∧
    ∀ n, n < 32 → t.bit .VLV VLV_CLAIMED n = (s.bit .VLV VLV_CLAIMED n || s.bit .VLV 0x4 n) ∧
      t.bit .VLV VLV_HELD n = (s.bit .VLV VLV_HELD n && (s.bit .VLV VLV_CLAIMED n || !s.bit .VLV 0x4 n)) ∧
      t.applied n = s.applied n) ∧
  (∀ s : State, Idle s .VLV →
    let n := s.f .VLV 0x4 4 0
    let b := 1 - s.vlvActive n
    let good := crcWords (s.vlvBank n b) = (s.vlvWord n b 64).toNat
    (Gives .vlvSwap s fun t => ¬ good → Ended t .VLV 2 .badBlock) ∧
    (checkP (s.vlvBank n b) = false → Gives .vlvSwap s fun t => good → Ended t .VLV 2 .badHeader) ∧
    (checkP (s.vlvBank n b) = true → s.bit .VLV (VLV_CH_BANK n) 2 = true →
      Gives .vlvSwap s fun t => good → Ended t .VLV 2 .busy) ∧
    (checkP (s.vlvBank n b) = true → s.bit .VLV (VLV_CH_BANK n) 2 = false → s.vlvRuns n = false →
      Gives .vlvSwap s fun t => good → Ended t .VLV 2 .ok ∧ t.vlvActive n = b ∧ t.bit .VLV (VLV_CH_BANK n) 2 = false ∧
        t.bit .VLV (VLV_CH_EVENT n) 13 = true) ∧
    (checkP (s.vlvBank n b) = true → s.bit .VLV (VLV_CH_BANK n) 2 = false → s.vlvRuns n = true →
      Gives .vlvSwap s fun t => good → Ended t .VLV 2 .ok ∧ t.vlvActive n = s.vlvActive n ∧ t.bit .VLV (VLV_CH_BANK n) 2 = true)) ∧
  (∀ s : State, Idle s .VLV → Gives .vlvSwapCancel s fun t => Ended t .VLV 3 .ok ∧
    t.bit .VLV (VLV_CH_BANK (s.f .VLV 0x4 4 0)) 2 = false ∧ t.vlvActive (s.f .VLV 0x4 4 0) = s.vlvActive (s.f .VLV 0x4 4 0)) ∧
  (∀ s : State, Idle s .VLV → Gives .vlvClearFault s fun t => Ended t .VLV 4 .ok ∧ ∀ n, n < 32 →
    (s.bit .VLV 0x4 n = true → (t.vch n).shortSup = false ∧ t.vlvBit n 16 = s.bit .VLV (VLV_HSF_STATUS (hsfOf n)) 15) ∧
    (s.bit .VLV 0x4 n = false → t.vch n = s.vch n ∧ t.vlvBit n 16 = s.vlvBit n 16)) ∧
  (∀ s : State, Idle s .VLV → s.mode = 0 ∨ s.mode = 6 → Gives .feedReset s (Ended · .VLV 5 .refusedMode)) ∧
  (∀ s : State, Idle s .VLV → s.mode ≠ 0 → s.mode ≠ 6 → Calm s → Gives .feedReset s fun t => Ended t .VLV 5 .ok ∧
    t.bit .VLV (VLV_HSF_STATUS (s.f .VLV 0x4 2 0)) 15 = false ∧ t.bit .VLV VLV_STATUS (16 + s.f .VLV 0x4 2 0) = false ∧
    ∀ n ∈ groupOf (s.f .VLV 0x4 2 0), t.vlvBit n 16 = (s.vch n).shortSup) ∧
  (∀ s : State, Idle s .VLV → Gives .vlvClearCounts s fun t => Ended t .VLV 9 .ok ∧ ∀ n, n < 32 →
    t.rd .VLV (VLV_CH_COUNTS n) = if s.bit .VLV 0x4 n then 0 else s.rd .VLV (VLV_CH_COUNTS n))

/-- The diagnostics of the valve channels (R319–R321, Table 12-4, Table 12-5) and the coil temperature (R322). Coil identity
and the life ledger (R323, R324, R326, Table 12-6, Table 12-13). Where the spec is silent the statement follows the model's
choice: assumption log 4, 87 and 88. -/
def Obligations.ValveDiagnosticsAndLedger : Prop :=
  (∀ (s : State) (n : Fin 32) (full : Bool) (i : Nat), s.vlvOnDiag n.val = false → exec (.openLoad n full i) s = .next s) ∧
  (∀ (s : State) (n : Fin 32) (full : Bool) (i : Nat), s.vlvOnDiag n.val = true → Gives (.openLoad n full i) s fun t =>
    t.f .VLV (VLV_CH_CURRENT n.val) 31 16 = min 65535 i ∧
    (let bad := 100 ≤ s.applied n.val ∧ full = true ∧ 8 * i < s.applied n.val
     (bad → t.vlvBit n.val 0 = true ∧ (s.vlvBit n.val 0 = false → t.bit .VLV (VLV_CH_EVENT n.val) 1 = true)) ∧
     (¬ bad → t.vlvBit n.val 0 = false))) ∧
  (∀ (s : State) (n : Fin 32) (i : Nat), s.vlvOnDiag n.val = false ∨ i ≤ (if n.val < 24 then 4500 else 12000) →
    exec (.shortSup n i) s = .next s) ∧
  (∀ (s : State) (n : Fin 32) (i : Nat), s.vlvOnDiag n.val = true → (if n.val < 24 then 4500 else 12000) < i → Calm s →
    Gives (.shortSup n i) s fun t => t.vlvBit n.val 2 = true ∧ t.vlvBit n.val 16 = true ∧ t.vlvRuns n.val = false ∧
      t.applied n.val = 0 ∧ (t.vch n.val).decay = none ∧ t.bit .VLV (VLV_CH_EVENT n.val) 3 = true) ∧
  (∀ (s : State) (g : Fin 8) (i : Fin 4), s.vlvOnDiag (4 * g.val + i.val) = false → exec (.groupTrip g (some i)) s = .next s) ∧
  (∀ (s : State) (g : Fin 8) (i : Fin 4), s.vlvOnDiag (4 * g.val + i.val) = true → Calm s →
    Gives (.groupTrip g (some i)) s fun t => t.bit .VLV (VLV_HSF_STATUS g.val) 15 = true ∧
      t.bit .VLV VLV_STATUS (16 + g.val) = true ∧ t.vlvBit (4 * g.val + i.val) 1 = true ∧
      t.bit .VLV (VLV_CH_EVENT (4 * g.val + i.val)) 2 = true ∧
      ∀ n ∈ groupOf g.val, t.vlvBit n 16 = true ∧ t.applied n = 0 ∧ t.vlvRuns n = false ∧ t.bit .VLV (VLV_CH_EVENT n) 4 = true) ∧
  (∀ (s : State) (g : Fin 8), (∀ n ∈ groupOf g.val, s.vlvOnDiag n = false) → exec (.groupTrip g none) s = .next s) ∧
  (∀ (s : State) (g : Fin 8), (∃ n ∈ groupOf g.val, s.vlvOnDiag n = true) → Calm s →
    Gives (.groupTrip g none) s fun t => t.bit .VLV (VLV_HSF_STATUS g.val) 15 = true ∧
      t.bit .VLV VLV_STATUS (16 + g.val) = true ∧ ∀ n ∈ groupOf g.val, t.vlvBit n 16 = true ∧ t.applied n = 0 ∧
        t.vlvRuns n = false ∧ t.bit .VLV (VLV_CH_EVENT n) 4 = true ∧ (s.vlvOnDiag n = true → t.vlvBit n 1 = true)) ∧
  (∀ (s : State) (n : Fin 32) (v1 v2 v3 h b : Nat), s.bit .VLV (VLV_CH_DIAG_CFG n.val) 1 = false ∨ s.applied n.val ≠ 0 ∨
    (s.vch n.val).flowing = true ∨ s.vlvQuiet n.val = true → exec (.offStateTest n v1 v2 v3 h b) s = .next s) ∧
  (∀ (s : State) (n : Fin 32) (v1 v2 v3 h b : Nat), s.bit .VLV (VLV_CH_DIAG_CFG n.val) 1 = true → s.applied n.val = 0 →
    (s.vch n.val).flowing = false → s.vlvQuiet n.val = false →
    let sib := ∃ m ∈ siblings n.val, s.applied m ≠ 0 ∨ (s.vch m).flowing = true
    (h ≤ v1 + 500 → ¬ sib → v3 ≤ 2000 → Gives (.offStateTest n v1 v2 v3 h b) s fun t => t.vlvBit n.val 17 = true ∧
      t.vlvBit n.val 18 = false ∧ t.vlvBit n.val 0 = false ∧ t.vlvBit n.val 1 = false ∧ t.vlvBit n.val 2 = false) ∧
    (h ≤ v1 + 500 → ¬ sib → 2000 < v3 → b ≤ v3 + 1000 → Calm s → Gives (.offStateTest n v1 v2 v3 h b) s fun t =>
      t.vlvBit n.val 17 = false ∧ t.vlvBit n.val 2 = true ∧ t.vlvBit n.val 16 = true ∧ t.vlvRuns n.val = false ∧
      t.bit .VLV (VLV_CH_EVENT n.val) 3 = true) ∧
    (h ≤ v1 + 500 → ¬ sib → 2000 < v3 → v3 + 1000 < b → exec (.offStateTest n v1 v2 v3 h b) s = .next s) ∧
    (h ≤ v1 + 500 → sib → Gives (.offStateTest n v1 v2 v3 h b) s fun t => t.vlvBit n.val 17 = true ∧ t.vlvBit n.val 18 = true) ∧
    (v1 + 500 < h → 1000 < v1 ∨ 300 < v2 → Gives (.offStateTest n v1 v2 v3 h b) s fun t => t.vlvBit n.val 17 = false ∧
      t.vlvBit n.val 0 = true ∧ t.bit .VLV (VLV_CH_EVENT n.val) 1 = true) ∧
    (v1 + 500 < h → v1 ≤ 1000 → v2 ≤ 300 → Gives (.offStateTest n v1 v2 v3 h b) s fun t => t.vlvBit n.val 17 = false ∧
      t.vlvBit n.val 1 = true ∧ t.bit .VLV (VLV_CH_EVENT n.val) 2 = true)) ∧
  (∀ (s : State) (n : Fin 32) (h d i : Nat), i < 200 ∨ s.f .VLV (VLV_CH_COLD_RES n.val) 15 0 = 0 →
    exec (.coilTempEstimate n h d i) s = .next s) ∧
  (∀ (s : State) (n : Fin 32) (h d i : Nat), 200 ≤ i → s.f .VLV (VLV_CH_COLD_RES n.val) 15 0 ≠ 0 →
    Gives (.coilTempEstimate n h d i) s fun t =>
      let e := coilTemp h d i (s.f .VLV (VLV_CH_COLD_RES n.val) 15 0)
      (t.vch n.val).est = some e ∧ t.f .VLV (VLV_CH_CURRENT n.val) 31 16 = min 65535 i ∧
      t.rd .VLV (VLV_CH_TEMP n.val) = if s.f .VLV (VLV_CH_BAND_CFG n.val) 31 28 = 0 then wordN (0x80000000 + ofSigned 16 e)
        else s.rd .VLV (VLV_CH_TEMP n.val)) ∧
  (∀ s : State, Idle s .VLV → (s.vlvIsIdle (s.f .VLV 0x4 4 0) = true → Gives .idRead s (Running s · .VLV 6)) ∧
    (s.vlvIsIdle (s.f .VLV 0x4 4 0) = false → Gives .idRead s (Ended · .VLV 6 .refusedMode))) ∧
  (∀ (s : State) (n : Fin 32) (f : BitVec 144) (r : List (Option (BitVec 144))), s.vlvIsIdle n.val = true →
    (s.mailOf .VLV).code = 6 → fld (arg (s.mailOf .VLV).args 0) 4 0 = n.val → tagCrcOk f = true →
    s.bit .VLV (VLV_CH_CFG n.val) 16 = false → s.vlvBit n.val 19 = false → Calm s → Gives (.idReadDone n (some f :: some f :: r)) s fun t =>
      t.rd .VLV (VLV_CH_ID_LO n.val) = f.extractLsb' 0 32 ∧ t.rd .VLV (VLV_CH_ID_HI n.val) = f.extractLsb' 32 32 ∧
      t.f .VLV (VLV_CH_STATUS n.val) 15 14 = 2 ∧ Ended t .VLV 6 .ok) ∧
  (∀ (s : State) (n : Fin 32), s.vlvIsIdle n.val = true → (s.mailOf .VLV).code = 6 →
    fld (arg (s.mailOf .VLV).args 0) 4 0 = n.val → s.vlvBit n.val 19 = false → Calm s → Gives (.idReadDone n [none, none, none]) s fun t =>
      t.f .VLV (VLV_CH_STATUS n.val) 15 14 = 1 ∧ t.f .VLV (VLV_CH_LIFE n.val) 7 0 = 0xFF ∧ Ended t .VLV 6 .ok ∧
      (s.f .VLV (VLV_CH_STATUS n.val) 15 14 ≠ 1 → t.bit .VLV (VLV_CH_EVENT n.val) 9 = true)) ∧
  (∀ (s : State) (n : Fin 32) (r : List (Option (BitVec 144))), s.vlvIsIdle n.val = false ∨
    (s.bit .VLV (VLV_CH_DIAG_CFG n.val) 2 = false ∧
      ((s.mailOf .VLV).code ≠ 6 ∨ fld (arg (s.mailOf .VLV).args 0) 4 0 ≠ n.val)) → exec (.idReadDone n r) s = .next s) ∧
  (∀ (s : State) (ms : List Nat), Gives (.ledgerWrite ms) s fun t =>
    (t.vlv.sealed = if s.mramOk then t.vlv.ledger else s.vlv.sealed) ∧
    ∀ n e l, n < 32 → s.entryOf n = some e → s.vlv.ledger.get none e = some l → (∀ m, m < 32 → m ≠ n → s.entryOf m ≠ some e) →
      ∃ l', t.vlv.ledger.get none e = some l' ∧ l'.serial = l.serial ∧
        l'.eqMs = l.eqMs + equivMs (ms.getD n 0) (s.vlvTemp n) (toSigned 8 l.tref)) ∧
  (∀ s : State, Idle s .VLV → (s.vlv.sealed.get none (s.f .VLV 0x4 6 0) = none → Gives .ledgerRead s (Ended · .VLV 7 .badBlock)) ∧
    ∀ l, s.vlv.sealed.get none (s.f .VLV 0x4 6 0) = some l → Gives .ledgerRead s fun t => Ended t .VLV 7 .ok ∧
      ∀ i, i < 16 → t.rd .VLV (VLV_LEDGER_WIN i) = wordN (leNat ((l.bytes.drop (4 * i)).take 4))) ∧
  (∀ s : State, Idle s .VLV → (s.mode ≠ 5 → Gives .ledgerDelete s fun t => Ended t .VLV 8 .refusedMode ∧ t.vlv = s.vlv) ∧
    (s.mode = 5 → s.rd .VLV 0x8 ≠ 0xC35A → Gives .ledgerDelete s fun t => Ended t .VLV 8 .locked ∧ t.vlv = s.vlv) ∧
    (s.mode = 5 → s.rd .VLV 0x8 = 0xC35A → (∀ n, n < 32 → s.entryOf n ≠ some (s.f .VLV 0x4 6 0)) → Calm s →
      Gives .ledgerDelete s fun t => Ended t .VLV 8 .ok ∧ t.vlv.ledger.get none (s.f .VLV 0x4 6 0) = none ∧
        t.vlv.sealed.get none (s.f .VLV 0x4 6 0) = none ∧
        ∀ e, e ≠ s.f .VLV 0x4 6 0 → t.vlv.ledger.get none e = s.vlv.ledger.get none e))

/-- SWITCH, turn-on and turn-off, LOCK and PWM of the load switches (R329, R335, R338–R340, R475). Where the spec is silent
the statement follows the model's choice: assumption log 4 and 161. -/
def Obligations.LoadSwitching : Prop :=
  (∀ (s : State) (n : Fin 40) (e : Nat), ∀ c ∈ [(Instr.switchOn n, 1), (.switchOff n e, 2)], s.lswJudge n.val c.2 ≠ .ok →
    Gives c.1 s fun t => t.rdN .LSW (LSW_CH_SW_STS n.val) = (s.lswJudge n.val c.2).code ∧
      t.f .LSW (LSW_CH_COUNTS n.val) 15 8 = min 255 (s.f .LSW (LSW_CH_COUNTS n.val) 15 8 + 1) ∧
      t.rd .LSW (LSW_CH_STATUS n.val) = s.rd .LSW (LSW_CH_STATUS n.val)) ∧
  (∀ (s : State) (n : Fin 40), (s.lswForbidden n.val = true → ∀ v ∈ [1, 2], s.lswJudge n.val v = .refusedMode) ∧
    (s.lswForbidden n.val = false → s.lswClaimed n.val = false → ∀ v ∈ [1, 2], s.lswJudge n.val v = .locked) ∧
    (s.lswForbidden n.val = false → s.lswClaimed n.val = true → s.lswJudge n.val 2 = .ok ∧
      s.lswJudge n.val 1 = if s.lswBit n.val 20 ∨ s.lswBit n.val 21 ∨ s.lswBit n.val 22 then .locked else .ok)) ∧
  (∀ (s : State) (n : Fin 40), s.lswJudge n.val 1 = .ok → s.lswBit n.val 1 = true → Gives (.switchOn n) s fun t =>
    t.rd .LSW (LSW_CH_SW_STS n.val) = 0 ∧ t.lswBit n.val 1 = true ∧ t.lswBit n.val 0 = s.lswBit n.val 0 ∧
    t.lswBit n.val 24 = s.lswBit n.val 24) ∧
  (∀ (s : State) (n : Fin 40), s.lswJudge n.val 1 = .ok → s.lswBit n.val 1 = false → s.lswSupplyOpen n.val = false →
    Gives (.switchOn n) s fun t => t.rd .LSW (LSW_CH_SW_STS n.val) = 0 ∧ t.lswBit n.val 1 = true ∧ t.lswBit n.val 0 = true ∧
      t.lswBit n.val 24 = false ∧ t.lswBit n.val 26 = true ∧ t.lswBit n.val 25 = decide (s.f .LSW (LSW_CH_CFG n.val) 5 0 ≠ 0) ∧
      (s.lswBit n.val 0 = false → t.bit .LSW (LSW_CH_EVENT n.val) 0 = true) ∧
      (s.bit .LSW LSW_STATUS (4 + feedOf n.val) = true → t.lswBit n.val 27 = true)) ∧
  (∀ (s : State) (n : Fin 40), s.lswJudge n.val 1 = .ok → s.lswBit n.val 1 = false → s.lswSupplyOpen n.val = true →
    Gives (.switchOn n) s fun t => t.rd .LSW (LSW_CH_SW_STS n.val) = 0 ∧ t.lswBit n.val 1 = true ∧ t.lswBit n.val 19 = true ∧
      t.lswBit n.val 0 = s.lswBit n.val 0) ∧
  (∀ (s : State) (n : Fin 40) (e : Nat), s.lswJudge n.val 2 = .ok → Gives (.switchOff n e) s fun t =>
    t.rd .LSW (LSW_CH_SW_STS n.val) = 0 ∧ t.lswBit n.val 1 = false ∧ t.lswBit n.val 0 = false ∧
    (s.lswBit n.val 0 = true → t.bit .LSW (LSW_CH_EVENT n.val) 0 = true ∧
      (e ≠ 0 → t.f .LSW (LSW_CH_CLAMP_STATE n.val) 15 0 = min 65535 e) ∧
      (s.f .LSW (LSW_CH_CLAMP_CFG n.val) 15 0 ≠ 0 → s.f .LSW (LSW_CH_CLAMP_CFG n.val) 15 0 ≤ e → s.lswBit n.val 22 = false →
        t.lswBit n.val 22 = true ∧ t.coolShown n.val = s.f .LSW (LSW_CH_CLAMP_CFG n.val) 31 16 ∧
        t.bit .LSW (LSW_CH_EVENT n.val) 6 = true))) ∧
  (∀ (s : State) (n : Fin 40), (s.lswBit n.val 26 = true → s.lswBit n.val 27 = false → Gives (.slewEnd n) s fun t =>
      t.lswBit n.val 26 = false ∧ t.lswBit n.val 0 = s.lswBit n.val 0) ∧
    (s.lswBit n.val 26 = false ∨ s.lswBit n.val 27 = true → exec (.slewEnd n) s = .next s)) ∧
  (∀ (s : State) (n : Fin 40), s.lswBit n.val 27 = true → exec (.blankingEnd n) s = .next s) ∧
  (∀ (s : State) (n : Fin 40), s.lswBit n.val 27 = false → Gives (.blankingEnd n) s fun t => t.lswBit n.val 25 = false ∧
    ∀ o, o ≠ LSW_CH_STATUS n.val → t.rd .LSW o = s.rd .LSW o) ∧
  (∀ (s : State) (n : Fin 40) (e : Nat), s.bit .LSW (LSW_CH_CFG n.val) 24 = true → classK n.val = false →
    s.lswBit n.val 1 = true → s.lswBarred n.val = false → s.lswBit n.val 19 = false →
    (Gives (.pwmEdge n true e) s fun t => (t.lch n.val).pwm = s.rd .LSW (LSW_CH_PWM n.val) ∧
      t.lswBit n.val 0 = (s.lswBit n.val 0 || decide (s.f .LSW (LSW_CH_PWM n.val) 9 0 ≠ 0))) ∧
    (1000 ≤ fld (s.lch n.val).pwm 9 0 → exec (.pwmEdge n false e) s = .next s) ∧
    (fld (s.lch n.val).pwm 9 0 < 1000 → Gives (.pwmEdge n false e) s fun t => t.lswBit n.val 0 = false)) ∧
  (∀ (s : State) (n : Fin 40) (on : Bool) (e : Nat), s.bit .LSW (LSW_CH_CFG n.val) 24 = false ∨ classK n.val = true ∨
    s.lswBit n.val 1 = false ∨ s.lswBarred n.val = true ∨ s.lswBit n.val 19 = true → exec (.pwmEdge n on e) s = .next s)

/-- Latches, feed pauses, supply conditions and diagnostics of the load switches (R330, R332, R334, R336, R338, R341). The
hold and the commands of the load switches (R331, R336, R342, Table 13-9). Where the spec is silent the statement follows
the model's choice: assumption log 4, 93 and 160. -/
def Obligations.LoadProtection : Prop :=
  (∀ (s : State) (n : Fin 40) (i e : Nat),
    let th := if s.lswBit n.val 25 then s.f .LSW (LSW_CH_LIMIT n.val) 31 16 else s.f .LSW (LSW_CH_LIMIT n.val) 15 0
    (s.lswBit n.val 0 = true → th < i → Gives (.ocLatch n i e) s fun t => t.lswBit n.val 20 = true ∧ t.lswBit n.val 1 = false ∧
      t.lswBit n.val 0 = false ∧ t.bit .LSW (LSW_CH_EVENT n.val) 2 = true ∧
      t.f .LSW (LSW_CH_COUNTS n.val) 31 24 = min 255 (s.f .LSW (LSW_CH_COUNTS n.val) 31 24 + 1)) ∧
    (s.lswBit n.val 0 = false ∨ i ≤ th → exec (.ocLatch n i e) s = .next s)) ∧
  (∀ (s : State) (n : Fin 40) (temp : Int) (e : Nat),
    (1750 < temp → s.lswBit n.val 21 = false → Gives (.tempLatch n temp e) s fun t => t.lswBit n.val 21 = true ∧ t.lswBit n.val 1 = false ∧
      t.lswBit n.val 0 = false ∧ t.bit .LSW (LSW_CH_EVENT n.val) 3 = true) ∧
    (temp ≤ 1750 ∨ s.lswBit n.val 21 = true → Gives (.tempLatch n temp e) s fun t => t.rdN .LSW (LSW_CH_TEMP n.val) = ofSigned 16 temp ∧
      ∀ o, o ≠ LSW_CH_TEMP n.val → t.rd .LSW o = s.rd .LSW o)) ∧
  (∀ (s : State) (n : Fin 40), Gives (.coolTimeExpired n) s fun t => t.coolLeft n.val = 0 ∧
    t.clk.up = s.clk.up + s.coolLeft n.val ∧ t.regs = s.regs ∧ t.lsw = s.lsw) ∧
  (∀ (s : State) (f : Fin 2), Gives (.lswPause f) s fun t => t.bit .LSW LSW_STATUS (4 + f.val) = true ∧
    t.f .LSW (LSW_FEED_COUNTS f.val) 31 16 = min 65535 (s.f .LSW (LSW_FEED_COUNTS f.val) 31 16 + 1) ∧
    ∀ n, n < 40 → (feedOf n = f.val → s.lswBit n 26 = true → t.lswBit n 27 = true ∧
      (s.lswBit n 27 = false → t.bit .LSW (LSW_CH_EVENT n) 8 = true)) ∧
      (feedOf n ≠ f.val ∨ s.lswBit n 26 = false → t.rd .LSW (LSW_CH_STATUS n) = s.rd .LSW (LSW_CH_STATUS n))) ∧
  (∀ (s : State) (f : Fin 2), Gives (.pauseResume f) s fun t => t.bit .LSW LSW_STATUS (4 + f.val) = false ∧
    ∀ n, n < 40 → t.lswBit n 27 = (s.lswBit n 27 && decide (feedOf n ≠ f.val)) ∧ t.lswBit n 26 = s.lswBit n 26) ∧
  (∀ (s : State) (n : Fin 40) (e : Nat), (s.lswBit n.val 27 = true → Gives (.pauseTo n e) s fun t => t.lswBit n.val 1 = false ∧
      t.lswBit n.val 0 = false ∧ t.lswBit n.val 20 = s.lswBit n.val 20 ∧
      t.f .LSW (LSW_FEED_COUNTS (feedOf n.val)) 15 0 = min 65535 (s.f .LSW (LSW_FEED_COUNTS (feedOf n.val)) 15 0 + 1) ∧ t.bit .LSW (LSW_CH_EVENT n.val) 9 = true) ∧
    (s.lswBit n.val 27 = false → exec (.pauseTo n e) s = .next s)) ∧
  (∀ (s : State) (f : Fin 2) (avg : Nat), (s.f .LSW (LSW_FEED_CFG f.val) 7 0 * 10 < avg → Gives (.feedOver f avg) s fun t =>
      t.bit .LSW (LSW_FEED_STATUS f.val) 31 = true ∧ ∀ o, o ≠ LSW_FEED_STATUS f.val → t.rd .LSW o = s.rd .LSW o) ∧
    (avg ≤ s.f .LSW (LSW_FEED_CFG f.val) 7 0 * 10 → exec (.feedOver f avg) s = .next s)) ∧
  (∀ (s : State) (f : Fin 2) (c : SupplyFault) (es : List Nat), Gives (.feedOff f c es) s fun t =>
    (c = .reverse → t.bit .LSW LSW_STATUS f.val = true) ∧
    ∀ n, n < 40 → c = .groundLoss ∨ feedOf n = f.val → (c = .under45 → classK n = false) → s.lswBit n 1 = true →
      s.lswBit n 19 = false → t.lswBit n 19 = true ∧ t.lswBit n 0 = false ∧ t.bit .LSW (LSW_CH_EVENT n) 7 = true) ∧
  (∀ (s : State) (f : Fin 2) (c : SupplyFault), Gives (.feedOffEnd f c) s fun t =>
    (c = .reverse → t.bit .LSW LSW_STATUS f.val = false) ∧
    ∀ n, n < 40 → s.lswBit n 19 = true → (s.lswCond f.val c false).lswSupplyOpen n = false →
      t.lswBit n 19 = false ∧ (s.lswBit n 1 = true → s.lswBarred n = false → t.lswBit n 0 = true)) ∧
  (∀ (s : State) (n : Fin 40) (i : Nat),
    let d := s.rd .LSW (LSW_CH_DIAG n.val)
    let live := bitOf d 0 = true ∧ s.lswBit n.val 0 = true ∧ s.lswBit n.val 26 = false ∧ s.lswNoCheck n.val = false
    (live → Gives (.openOn n i) s fun t => t.lswBit n.val 16 = decide (i < fld d 31 16) ∧
      (i < fld d 31 16 → s.lswBit n.val 16 = false → t.bit .LSW (LSW_CH_EVENT n.val) 4 = true)) ∧
    (¬ live → exec (.openOn n i) s = .next s)) ∧
  (∀ (s : State) (n : Fin 40) (out feed : Int),
    let live := s.bit .LSW (LSW_CH_DIAG n.val) 1 = true ∧ s.lswBit n.val 0 = false ∧ s.lswNoCheck n.val = false
    (live → feed - 1000 ≤ out → 8000 ≤ feed → Gives (.offStateCheck n out feed) s fun t => t.lswBit n.val 18 = true ∧
      (s.lswBit n.val 18 = false → t.bit .LSW (LSW_CH_EVENT n.val) 5 = true)) ∧
    (live → out < feed - 1000 ∨ feed < 8000 → 3500 ≤ out → Gives (.offStateCheck n out feed) s fun t => t.lswBit n.val 17 = true ∧
      (s.lswBit n.val 17 = false → t.bit .LSW (LSW_CH_EVENT n.val) 4 = true)) ∧
    (live → out < feed - 1000 ∨ feed < 8000 → 1000 < out → out < 3500 → exec (.offStateCheck n out feed) s = .next s) ∧
    (live → out < feed - 1000 ∨ feed < 8000 → out ≤ 1000 → Gives (.offStateCheck n out feed) s fun t => t.lswBit n.val 18 = false ∧
      t.lswBit n.val 17 = false) ∧
    (¬ live → exec (.offStateCheck n out feed) s = .next s)) ∧
  (∀ (s : State) (n : Fin 40) (e : Nat), s.lswBit n.val 23 = false → exec (.lswHoldExpired n e) s = .next s) ∧
  (∀ (s : State) (n : Fin 40) (e : Nat), s.lswBit n.val 23 = true → Gives (.lswHoldExpired n e) s fun t =>
    t.lswBit n.val 23 = false ∧ t.lswMaskBit LSW_HELD_LO n.val = false ∧ t.lswBit n.val 24 = true ∧
    t.bit .LSW (LSW_CH_EVENT n.val) 10 = true ∧
    (s.f .LSW (LSW_CH_FAIL n.val) 31 30 ∈ [0, 3] → t.lswBit n.val 0 = false ∧ t.lswBit n.val 1 = false) ∧
    (s.f .LSW (LSW_CH_FAIL n.val) 31 30 = 1 → s.lswBarred n.val = false → t.lswBit n.val 1 = true) ∧
    (s.f .LSW (LSW_CH_FAIL n.val) 31 30 = 2 → t.lswBit n.val 0 = s.lswBit n.val 0 ∧ t.lswBit n.val 1 = s.lswBit n.val 1)) ∧
  (∀ s : State, Idle s .LSW → s.sys.noDrawer = true → Gives .lswClaim s (Ended · .LSW 1 .locked)) ∧
  (∀ s : State, Idle s .LSW → s.sys.noDrawer = false → Gives .lswClaim s fun t => Ended t .LSW 1 .ok ∧
    ∀ n, n < 40 → (Names s n → t.lswClaimed n = true ∧ (s.lswClaimed n = false → t.lswBit n 23 = false)) ∧
      (¬ Names s n → t.lswClaimed n = s.lswClaimed n ∧ t.lswBit n 23 = s.lswBit n 23) ∧ t.lswBit n 0 = s.lswBit n 0) ∧
  (∀ s : State, Idle s .LSW → (∃ n, n < 40 ∧ Names s n ∧ s.lswHot n = true) → Gives .lswUnlatch s (Ended · .LSW 2 .refusedTemp)) ∧
  (∀ s : State, Idle s .LSW → (∀ n, n < 40 → Names s n → s.lswHot n = false) → Gives .lswUnlatch s fun t => Ended t .LSW 2 .ok ∧
    ∀ n, n < 40 → (Names s n → t.lswBit n 20 = false ∧ t.lswBit n 21 = false) ∧
      (¬ Names s n → t.rd .LSW (LSW_CH_STATUS n) = s.rd .LSW (LSW_CH_STATUS n))) ∧
  (∀ s : State, Idle s .LSW → (∃ n, n < 40 ∧ Names s n ∧ s.lswBit n 22 = true ∧ s.coolLeft n ≠ 0) →
    Gives .lswUnlock s (Ended · .LSW 3 .locked)) ∧
  (∀ s : State, Idle s .LSW → (∀ n, n < 40 → Names s n → s.lswBit n 22 = true → s.coolLeft n = 0) →
    Gives .lswUnlock s fun t => Ended t .LSW 3 .ok ∧ ∀ n, n < 40 → (Names s n → t.lswBit n 22 = false) ∧
      (¬ Names s n → t.rd .LSW (LSW_CH_STATUS n) = s.rd .LSW (LSW_CH_STATUS n))) ∧
  (∀ s : State, Idle s .LSW → Gives .lswClearCounts s fun t => Ended t .LSW 4 .ok ∧
    (∀ n, n < 40 → (Names s n → t.rd .LSW (LSW_CH_COUNTS n) = 0) ∧
      (¬ Names s n → t.rd .LSW (LSW_CH_COUNTS n) = s.rd .LSW (LSW_CH_COUNTS n))) ∧
    ∀ f, f < 2 → if s.bit .LSW 0xC 0 then t.rd .LSW (LSW_FEED_COUNTS f) = 0 ∧ t.bit .LSW (LSW_FEED_STATUS f) 31 = false
      else t.rd .LSW (LSW_FEED_COUNTS f) = s.rd .LSW (LSW_FEED_COUNTS f))

/-- Camera links and triggers (R190, R191, R194). The commands of CAM (R192, R196, R199, R211, R212, Table 8-12). Where the
spec is silent the statement follows the model's choice: assumption log 4, 43, 139 and 140. -/
def Obligations.CameraLinksAndCommands : Prop :=
  (∀ (s : State) (j : Fin 2) (gears : BitVec 5), s.linkState j.val ≠ 1 → exec (.linkTrained j gears) s = .next s ∧
    exec (.trainingRetry j gears) s = .next s) ∧
  (∀ (s : State) (j : Fin 2) (gears : BitVec 5), s.cam.failed.get false j.val = false →
    exec (.trainingRetry j gears) s = .next s) ∧
  (∀ (s : State) (j : Fin 2) (gears : BitVec 5) (g : Nat), s.linkState j.val = 1 → (s.mailOf .CAM).code ≠ 1 → 1 ≤ g →
    g ≤ clampN 1 5 (s.f .CAM (CAM_L_CFG j.val) 2 0) → gears.getLsbD (g - 1) = true →
    (∀ k, g < k → k ≤ clampN 1 5 (s.f .CAM (CAM_L_CFG j.val) 2 0) → gears.getLsbD (k - 1) = false) →
    (Gives (.linkTrained j gears) s fun t => t.linkState j.val = 2 ∧ t.f .CAM (CAM_L_STATUS j.val) 10 8 = g ∧
      t.bit .CAM 0x24 11 = true ∧ t.cam.retx.get false j.val = s.bit .CAM (CAM_L_CFG j.val) 8) ∧
    (s.cam.failed.get false j.val = true → Gives (.trainingRetry j gears) s fun t => t.linkState j.val = 2 ∧
      t.f .CAM (CAM_L_STATUS j.val) 10 8 = g ∧ t.bit .CAM 0x24 11 = true)) ∧
  (∀ (s : State) (j : Fin 2), s.linkState j.val = 1 → (s.mailOf .CAM).code ≠ 1 →
    (s.cam.failed.get false j.val = false → Gives (.linkTrained j 0) s fun t => t.linkState j.val = 1 ∧
      t.cam.failed.get false j.val = true ∧ t.bit .CAM 0x24 11 = true) ∧
    (s.cam.failed.get false j.val = true → exec (.linkTrained j 0) s = .next s)) ∧
  (∀ (s : State) (j : Fin 2) (u : Nat) (tp : Word) (b : Bool), s.linkState j.val ≠ 2 → exec (.linkLost j ⟨u, tp, b⟩) s = .next s) ∧
  (∀ (s : State) (j : Fin 2) (u : Nat) (tp : Word) (b : Bool), s.linkState j.val = 2 →
    Gives (.linkLost j ⟨u, tp, b⟩) s fun t => t.linkState j.val = 1 ∧
      t.f .CAM (CAM_L_STATUS j.val) 31 16 = min 65535 (s.f .CAM (CAM_L_STATUS j.val) 31 16 + 1) ∧ t.bit .CAM 0x24 11 = true ∧
      ∀ v, v < 4 → (t.camCh (4 * j.val + v)).frame = none) ∧
  (∀ (s : State) (n : Fin 8) (p ph : Nat), (s.camCh n.val).trigNow = (p, ph) → (s.camCh n.val).trigNew = none →
    (∀ k, 2000 < p → ph + k * p ≤ s.now + 1000 → s.now ≤ ph + k * p + 1000 → (s.camCh n.val).run = true →
      (s.camCh n.val).stop = false → (s.camCh n.val).trigAt ≠ some (ph + k * p) →
      Gives (.frameTrigger n) s fun t => t.camCh n.val = { s.camCh n.val with trigAt := some (ph + k * p) } ∧ t.regs = s.regs) ∧
    ((s.camCh n.val).run = false ∨ (s.camCh n.val).stop = true ∨ p = 0 ∨
      (∀ k, s.now + 1000 < ph + k * p ∨ ph + k * p + 1000 < s.now) → exec (.frameTrigger n) s = .next s)) ∧
  (∀ (s : State) (n : Fin 8) (p ph w : Nat), (s.camCh n.val).trigNew = some (p, ph, w) →
    let first := if p = 0 then w + 1000000 else trigFrom p ph (w + 1000000)
    (first ≤ s.now + 1000 → Gives (.frameTrigger n) s fun t => (t.camCh n.val).trigNow = (p, ph) ∧
      (t.camCh n.val).trigNew = none) ∧
    (s.now + 1000 < first → Gives (.frameTrigger n) s fun t => (t.camCh n.val).trigNow = (s.camCh n.val).trigNow ∧
      (t.camCh n.val).trigNew = some (p, ph, w))) ∧
  (∀ (s : State) (ps : List CamProbe), Idle s .CAM → s.mode = 0 → Gives (.camStart ps) s (Ended · .CAM 1 .refusedMode)) ∧
  (∀ (s : State) (ps : List CamProbe) (n : Nat), Idle s .CAM → s.mode ≠ 0 → n < 8 → s.bit .CAM 0x4 n = true →
    (s.camCh n).run = false → s.camFieldsOk n = false → Gives (.camStart ps) s (Ended · .CAM 1 .badHeader)) ∧
  (∀ (s : State) (ps : List CamProbe) (n : Nat), Idle s .CAM → s.mode ≠ 0 → n < 8 → s.rd .CAM 0x4 = wordN (2 ^ n) →
    (s.camCh n).run = false → s.camFieldsOk n = true →
    let all := (upto 8).filter (fun m => (s.camCh m).run || m == n)
    let p := ps.getD n ⟨0, 0, 0, 0, false⟩
    let known := Config.camAccepts s.camVersion (Config.camConfig s.sys.camSet n) p.ident = true
    (s.linkState (n / 4) ≠ 2 → Gives (.camStart ps) s fun t => (t.mailOf .CAM).code = 1 ∧ t.cam.startAt = s.clk.up ∧
      t.cam.probes = ps ∧ t.camCh n = s.camCh n) ∧
    (s.linkState (n / 4) = 2 → s.camFits all = false → Gives (.camStart ps) s (Ended · .CAM 1 .noSpace)) ∧
    (s.linkState (n / 4) = 2 → s.camFits all = true → Gives (.camStart ps) s fun t =>
      (¬ known ∨ probeAgreed p = none → Ended t .CAM 1 .incompatible ∧ t.bit .CAM 0x24 14 = true ∧ (t.camCh n).run = false) ∧
      (known → ∀ v, probeAgreed p = some v →
        t.rd .UPD (UPD_PARTNER_VER 4) = wordN (v.1 * 2 ^ 24 + v.2 * 2 ^ 16) ∧
        (p.wrote = false → Ended t .CAM 1 .badBlock ∧ t.bit .CAM 0x24 14 = true ∧ (t.camCh n).run = false) ∧
        (p.wrote = true → Ended t .CAM 1 .ok ∧ (t.camCh n).run = true ∧
          (t.camCh n).snap = (camRegs n).map (s.rd .CAM) ∧
          t.bit .CAM (CAM_C_STATUS n) 0 = true ∧ t.bit .CAM CAM_STATUS (8 + n) = true)))) ∧
  (∀ s : State, Idle s .CAM → (∀ n, n < 8 → s.bit .CAM 0x4 n = true → (s.camCh n).run = false) →
    Gives .camStop s fun t => Ended t .CAM 2 .ok ∧ t.cam = s.cam) ∧
  (∀ s : State, Idle s .CAM → (∃ n, n < 8 ∧ s.bit .CAM 0x4 n = true ∧ (s.camCh n).run = true) →
    Gives .camStop s fun t => Running s t .CAM 2 ∧ ∀ n, n < 8 → (t.camCh n).run = (s.camCh n).run ∧
      (s.bit .CAM 0x4 n = true → (s.camCh n).run = true → (t.camCh n).stop = true)) ∧
  (∀ s : State, Idle s .CAM →
    let n := s.f .CAM 0x4 2 0
    let base := s.f .CAM (CAM_C_PARAM_BASE_HI n) 7 0 * 2 ^ 32 + s.f .CAM (CAM_C_PARAM_BASE_LO n) 31 12 * 4096
    let p := s.rdBytes base 4096
    let good := s.engBad base 4096 = false ∧ crc32c (p.take 0xFFC) = par32 p 0xFFC
    (Gives .paramLoad s fun t => ¬ good → Ended t .CAM 3 .badBlock ∧ t.bit .CAM 0x24 13 = true ∧ t.cam = s.cam) ∧
    ((s.camCh n).run = false → Gives .paramLoad s fun t => good → Ended t .CAM 3 .ok ∧ (t.camCh n).param = some p ∧
      t.bit .CAM (CAM_C_STATUS n) 1 = false) ∧
    ((s.camCh n).run = true → Gives .paramLoad s fun t => good → Running s t .CAM 3 ∧ (t.camCh n).next = some p ∧
      (t.camCh n).param = (s.camCh n).param)) ∧
  (∀ s : State, Idle s .CAM → Gives .camClearCounts s fun t => Ended t .CAM 4 .ok ∧
    (∀ n, n < 8 → ∀ o ∈ [CAM_C_CRC_CNT n, CAM_C_SL_CNT n, CAM_C_DROP_CNT n, CAM_C_LEN_ERR_CNT n],
      t.rd .CAM o = if s.bit .CAM 0x4 n then 0 else s.rd .CAM o) ∧
    (s.bit .CAM 0x8 0 = true → ∀ j, j < 2 → t.rd .CAM (CAM_L_ECC j) = 0 ∧ t.rd .CAM (CAM_L_DISCARD j) = 0 ∧
      t.rd .CAM (CAM_L_RETX j) = 0 ∧ t.f .CAM (CAM_L_STATUS j) 31 16 = 0 ∧
      t.linkState j = s.linkState j) ∧
    (s.bit .CAM 0x8 1 = true → t.f .CAM CAM_TP_STATUS 31 7 = 0 ∧
      t.f .CAM CAM_TP_STATUS 2 0 = s.f .CAM CAM_TP_STATUS 2 0 ∧ t.rd .CAM CAM_TP_SKIP = 0))

/-- Frames and the memory path (R189, R191, R193, R195, R200, R202–R206, R210, Table 8-6). Where the spec is silent the
statement follows the model's choice: assumption log 4, 40, 41, 42, 136 and 138. -/
def Obligations.CameraFrames : Prop :=
  (∀ (s : State) (n : Fin 8) (pk : CamPkt) (ty : BitVec 6) (bad b : Bool) (d : List Byte) (u : Nat) (tp : Word),
    let j := n.val / 4
    let rows := [Instr.frameStartPacket n ⟨pk, u⟩, .frameEndPacket n ⟨pk, u⟩ tp b, .longPacket n ty pk bad d]
    (s.linkState j ≠ 2 → ∀ c ∈ rows, exec c s = .next s) ∧
    (ty.toNat < 2 → exec (.longPacket n ty pk bad d) s = .next s) ∧
    (s.linkState j = 2 → 2 ≤ ty.toNat → ∀ c ∈ rows,
      (pk.hdr = .foreign → Gives c s fun t => t.cam = s.cam ∧
        t.f .CAM (CAM_L_DISCARD j) 31 16 = min 65535 (s.f .CAM (CAM_L_DISCARD j) 31 16 + 1)) ∧
      (pk.hdr = .bad → Gives c s fun t => t.cam = s.cam ∧
        t.f .CAM (CAM_L_ECC j) 31 16 = min 65535 (s.f .CAM (CAM_L_ECC j) 31 16 + 1)) ∧
      (pk.hdr = .corrected → Gives c s fun t =>
        t.f .CAM (CAM_L_ECC j) 15 0 = min 65535 (s.f .CAM (CAM_L_ECC j) 15 0 + 1)) ∧
      (s.cam.retx.get false j = true → Gives c s fun t =>
        t.rdN .CAM (CAM_L_RETX j) = min 0xFFFFFFFF (s.rdN .CAM (CAM_L_RETX j) + pk.retx)))) ∧
  (∀ (s : State) (n : Fin 8) (pk : CamPkt) (u : Nat), s.linkState (n.val / 4) = 2 → pk.hdr = .good ∨ pk.hdr = .corrected →
    (s.camCh n.val).fill = none →
    ((s.camCh n.val).frame = none → (s.camCh n.val).run = false →
      Gives (.frameStartPacket n ⟨pk, u⟩) s fun t => t.rd .CAM (CAM_C_FRAME_NO n.val) = wordN (s.camCh n.val).started ∧
        t.rd .CAM (CAM_C_SOF_LO n.val) = wordN u ∧ t.rd .CAM (CAM_C_SOF_HI n.val) = wordN (u / 2 ^ 32) ∧
        (t.camCh n.val).started = ((s.camCh n.val).started + 1) % 2 ^ 32 ∧ (t.camCh n.val).frame = none) ∧
    (∀ f, (s.camCh n.val).frame = some f → f.dropped = false → (s.camCh n.val).run = false → s.cam.queue.length < 12 →
      Gives (.frameStartPacket n ⟨pk, u⟩) s fun t => t.bit .CAM (CAM_C_STATUS n.val) 20 = true ∧ (t.camCh n.val).frame = none ∧
        (t.camCh n.val).started = ((s.camCh n.val).started + 1) % 2 ^ 32) ∧
    ((s.camCh n.val).frame = none → (s.camCh n.val).run = true → s.cam.busy = none → s.cam.queue = [] →
      Gives (.frameStartPacket n ⟨pk, u⟩) s fun t => ∃ f, (t.camCh n.val).frame = some f ∧ f.no = (s.camCh n.val).started ∧
        f.sof = u ∧ f.lines = [0, 0, 0] ∧ f.dropped = false ∧
        f.rawIdx = (if (s.camCh n.val).inline then 255 else (s.camCh n.val).rawNext % (s.camCh n.val).rawBufs)) ∧
    (∀ j, (s.camCh n.val).frame = none → (s.camCh n.val).run = true → (s.camCh n.val).inline = false → s.cam.busy = some j →
      j.cam = n.val → j.frame.rawIdx = (s.camCh n.val).rawNext % (s.camCh n.val).rawBufs →
      Gives (.frameStartPacket n ⟨pk, u⟩) s fun t => (∃ f, (t.camCh n.val).frame = some f ∧ f.dropped = true) ∧
        t.rdN .CAM CAM_DROP_LAST = 2 * 2 ^ 24 + n.val ∧ t.bit .CAM 0x24 10 = true)) ∧
  (∀ (s : State) (n : Fin 8) (ty : BitVec 6) (pk : CamPkt) (bad : Bool) (d : List Byte), s.linkState (n.val / 4) = 2 →
    pk.hdr = .good → s.cam.retx.get false (n.val / 4) = false →
    (ty.toNat = 2 ∨ ty.toNat = 3 → exec (.longPacket n ty pk bad d) s = .next s) ∧
    (4 ≤ ty.toNat → ty.toNat ≠ 0x12 → pixelType ty.toNat = false → Gives (.longPacket n ty pk bad d) s fun t =>
      t.f .CAM (CAM_L_DISCARD (n.val / 4)) 31 16 = min 65535 (s.f .CAM (CAM_L_DISCARD (n.val / 4)) 31 16 + 1) ∧ t.cam = s.cam) ∧
    ((s.camCh n.val).frame = none → ty.toNat = 0x12 ∨ pixelType ty.toNat = true → Gives (.longPacket n ty pk bad d) s fun t =>
      t.f .CAM (CAM_L_DISCARD (n.val / 4)) 15 0 = min 65535 (s.f .CAM (CAM_L_DISCARD (n.val / 4)) 15 0 + 1) ∧
      (bad = true → t.rdN .CAM (CAM_C_CRC_CNT n.val) = min 0xFFFFFFFF (s.rdN .CAM (CAM_C_CRC_CNT n.val) + 1)) ∧
      t.cam = s.cam) ∧
    (∀ f, (s.camCh n.val).frame = some f → f.dropped = true → Gives (.longPacket n ty pk bad d) s fun t => t.cam = s.cam) ∧
    (∀ f, (s.camCh n.val).frame = some f → f.dropped = false → ty.toNat = 0x12 → bitOf ((s.camCh n.val).word 0) 0 = true →
      Gives (.longPacket n ty pk bad d) s fun t => ∃ g, (t.camCh n.val).frame = some g ∧ g.emb = (f.emb ++ d).take 16384 ∧
        g.crcErrs = f.crcErrs + (if bad then 1 else 0) ∧ g.lines = f.lines)) ∧
  (∀ (s : State) (n : Fin 8) (ty : BitVec 6) (pk : CamPkt) (d : List Byte) (f : CamFrame) (e : Nat),
    let c := s.camCh n.val
    s.linkState (n.val / 4) = 2 → pk.hdr = .good → c.frame = some f → f.dropped = false → pixelType ty.toNat = true →
    camExp c ty.toNat = some e → d.length = rawBytes c.fmt c.w →
    (c.inline = false → f.lines.getD e 0 < c.h →
      let a := c.rawAddr f.rawIdx e (f.lines.getD e 0)
      a + c.rawLine ≤ 0x3E0000000 →
      Gives (.longPacket n ty pk false d) s fun t =>
        (t.camCh n.val).frame = some { f with lines := f.lines.set e (f.lines.getD e 0 + 1) } ∧
        (∀ i, i < d.length → t.rdB (a + i) = d.getD i 0) ∧ ∀ x, x < a ∨ a + c.rawLine ≤ x → t.rdB x = s.rdB x) ∧
    (c.inline = true → (f.raw.getD e []).length < c.h → e < 2 →
      Gives (.longPacket n ty pk false d) s fun t => (t.camCh n.val).frame = some (frameLine f e (some d)) ∧ t.mem = s.mem)) ∧
  (∀ (s : State) (n : Fin 8) (pk : CamPkt) (u : Nat) (tp : Word) (b : Bool), s.linkState (n.val / 4) = 2 → pk.hdr = .good →
    s.cam.retx.get false (n.val / 4) = false → (s.camCh n.val).frame = none →
    Gives (.frameEndPacket n ⟨pk, u⟩ tp b) s fun t => t.regs = s.regs ∧ t.camCh n.val = s.camCh n.val ∧ t.cam.queue = s.cam.queue) ∧
  (∀ (s : State) (n : Fin 8) (pk : CamPkt) (u : Nat) (tp : Word) (b : Bool) (f : CamFrame), s.linkState (n.val / 4) = 2 →
    (s.camCh n.val).frame = some f → f.dropped = false → pk.hdr = .good →
    (f.rawIdx ≠ 255 → (∀ k ∈ f.lines.take (s.camCh n.val).exps, (s.camCh n.val).h ≤ k) → s.cam.busy = none →
      s.cam.test = none → s.cam.queue = [] →
      Gives (.frameEndPacket n ⟨pk, u⟩ tp b) s fun t => (t.camCh n.val).frame = none ∧ t.cam.queue = [] ∧
        t.cam.busy = some { cam := n.val, cls := s.f .CAM (CAM_C_CTRL n.val) 5 4, frame := { f with fe := u } } ∧
        t.bit .CAM CAM_STATUS 0 = true) ∧
    ((∃ k ∈ f.lines.take (s.camCh n.val).exps, k < (s.camCh n.val).h) → s.cam.queue.length < 12 →
      Gives (.frameEndPacket n ⟨pk, u⟩ tp b) s fun t => (t.camCh n.val).frame = none ∧ t.bit .CAM (CAM_C_STATUS n.val) 17 = true ∧
        t.f .CAM (CAM_C_SL_CNT n.val) 31 16 = min 65535 (s.f .CAM (CAM_C_SL_CNT n.val) 31 16 + 1) ∧ t.bit .CAM 0x24 9 = true)) ∧
  (∀ (s : State) (n : Fin 8) (u : Nat) (tp : Word) (b : Bool),
    let c := s.camCh n.val
    let late := c.stop = true ∧ s.camPeriods n.val 2 c.stopAt u = true
    (c.frame = none → ¬ late → exec (.noFeTimeout n ⟨u, tp, b⟩) s = .next s) ∧
    (c.frame = none → late → Gives (.noFeTimeout n ⟨u, tp, b⟩) s fun t => (t.camCh n.val).run = false ∧
      (t.camCh n.val).stop = false ∧ t.bit .CAM (CAM_C_STATUS n.val) 0 = false) ∧
    (∀ f, c.frame = some f → ¬ late → s.camPeriods n.val 2 f.sof u = false → exec (.noFeTimeout n ⟨u, tp, b⟩) s = .next s) ∧
    (∀ f, c.frame = some f → late ∨ s.camPeriods n.val 2 f.sof u = true → f.dropped = false → s.cam.queue.length < 12 →
      Gives (.noFeTimeout n ⟨u, tp, b⟩) s fun t => (t.camCh n.val).frame = none ∧ t.bit .CAM (CAM_C_STATUS n.val) 20 = true)) ∧
  (∀ (s : State) (u : Nat) (tp : Word), s.cam.busy = none → s.cam.test = none → exec (.frameProcessed u tp) s = .next s) ∧
  (∀ (s : State) (u : Nat) (tp : Word) (n : Nat), s.cam.test = some n → n < 8 → Gives (.frameProcessed u tp) s fun t =>
    t.cam.test = none ∧ t.f .CAM CAM_TP_STATUS 31 16 = min 65535 (s.f .CAM CAM_TP_STATUS 31 16 + 1) ∧
    (tp = s.rd .CAM CAM_TP_REF → t.f .CAM CAM_TP_STATUS 15 0 = s.f .CAM CAM_TP_STATUS 15 0) ∧
    (tp ≠ s.rd .CAM CAM_TP_REF → t.bit .CAM CAM_TP_STATUS 7 = true ∧ t.f .CAM CAM_TP_STATUS 2 0 = n ∧
      t.f .CAM CAM_TP_STATUS 15 8 = min 255 (s.f .CAM CAM_TP_STATUS 15 8 + 1) ∧ t.bit .CAM 0x24 12 = true)) ∧
  (∀ (s : State) (u : Nat) (tp : Word) (j : CamJob), s.cam.busy = some j → s.cam.test = none → j.cam < 8 →
    Gives (.frameProcessed u tp) s fun t =>
      t.rd .CAM (CAM_C_DONE_NO j.cam) = wordN j.frame.no ∧ t.bit .CAM 0x24 j.cam = true ∧
      if ((s.camCh j.cam).count + 1) % 64 = 0 then t.cam.test = some j.cam ∧ t.cam.busy = none ∧ t.cam.queue = s.cam.queue
      else t.cam.test = none ∧ t.cam.busy = s.cam.queue.head? ∧ t.cam.queue = s.cam.queue.tail)

/-- Acquisition and tracking of the GNSS baseband (R216–R218, Table 9-3, Table 9-4). Where the spec is silent the statement
follows the model's choice: assumption log 4 and 45. -/
def Obligations.GnssChannels : Prop :=
  (∀ (s : State) (v : Word), s.gns.acq.isSome = true ∨ s.bit .GNS GNS_ACQ_CFG 8 = false → Gives (.acqHeadWrite v) s fun t =>
    t.rdN .GNS GNS_ACQ_HEAD = fld v 15 0 ∧ t.gns = s.gns ∧ t.mem = s.mem) ∧
  (∀ (s : State) (v : Word), s.gns.acq = none → s.bit .GNS GNS_ACQ_CFG 8 = true →
    fld v 15 0 ≠ s.f .GNS GNS_ACQ_TAIL 15 0 → s.acqAddr + 32 ≤ 0x3E0000000 → Gives (.acqHeadWrite v) s fun t =>
      t.rdN .GNS GNS_ACQ_HEAD = fld v 15 0 ∧ t.gns.acq = some s.acqAddr ∧ t.rdB (s.acqAddr + 27) = 0xFF ∧
      ∀ a, a ≠ s.acqAddr + 27 → t.rdB a = s.rdB a) ∧
  (∀ (s : State) (c d r : BitVec 16), s.gns.acq = none → exec (.acqDone c d r) s = .next s) ∧
  (∀ (s : State) (c d r : BitVec 16) (a : Nat), s.gns.acq = some a → a + 32 ≤ 0x3E0000000 →
    let found := s.f .GNS GNS_ACQ_CFG 31 16 ≤ r.toNat
    let i := (s.f .GNS GNS_ACQ_TAIL 15 0 + 1) % 65536
    (s.bit .GNS GNS_ACQ_CFG 8 = false ∨ s.f .GNS GNS_ACQ_HEAD 15 0 = i → Gives (.acqDone c d r) s fun t => t.gns.acq = none ∧
      t.f .GNS GNS_ACQ_TAIL 15 0 = i ∧ t.mem64 (a + 28) 4 = s.now % 2 ^ 32 ∧
      if acqOk (s.rdBytes a 32) then t.rdB (a + 27) = 0 ∧
        t.rdB (a + 26) = (if found then 1 else 0) ∧ t.mem64 (a + 20) 2 = c.toNat ∧ t.mem64 (a + 22) 2 = d.toNat ∧
        t.mem64 (a + 24) 2 = r.toNat ∧ (found → t.bit .GNS 0x24 0 = true)
      else t.rdB (a + 27) = 4 ∧ t.rdB (a + 26) = 0) ∧
    (s.bit .GNS GNS_ACQ_CFG 8 = true → s.f .GNS GNS_ACQ_HEAD 15 0 ≠ i → Gives (.acqDone c d r) s fun t =>
      t.f .GNS GNS_ACQ_TAIL 15 0 = i ∧
      t.gns.acq = some (s.gnsBase GNS_ACQ_BASE_LO GNS_ACQ_BASE_HI 5 + 32 * (i % s.acqSize)))) ∧
  (∀ s : State, Idle s .GNS → chRange (s.cmdArgs .GNS) = none → Gives .chStart s (Ended · .GNS 1 .badHeader) ∧
    Gives .chStop s (Ended · .GNS 2 .badHeader)) ∧
  (∀ (s : State) (c : Fin 512), Idle s .GNS → s.rd .GNS 0x4 = wordN c.val → s.rd .GNS 0x8 = 1 →
    let e := s.rdBytes (s.chtAddr c.val) 32
    (e.headD 0 ≠ 0 → (s.gc c.val).state = 0 ∨ (s.gc c.val).state = 3 → Gives .chStart s fun t =>
      if entryOk e then Ended t .GNS 1 .ok ∧ t.gc c.val = { state := 1, entry := e.take 20 }
      else Ended t .GNS 1 .badHeader ∧ t.gns = s.gns) ∧
    (e.headD 0 ≠ 0 → (s.gc c.val).state = 1 ∨ (s.gc c.val).state = 2 → Gives .chStart s fun t => t.gns = s.gns ∧
      Ended t .GNS 1 (if entryOk e then .ok else .badHeader)) ∧
    (e.headD 0 = 0 → Gives .chStart s fun t => Ended t .GNS 1 .ok ∧ t.gns = s.gns) ∧
    (Gives .chStop s fun t => Ended t .GNS 2 .ok ∧ (t.gc c.val).state = 0 ∧ ∀ d, d ≠ c.val → t.gc d = s.gc d)) ∧
  (∀ (s : State) (c : Fin 512) (k : BitVec 16), (s.gc c.val).state ≠ 1 → exec (.chTrack c k) s = .next s) ∧
  (∀ (s : State) (c : Fin 512) (k : BitVec 16), (s.gc c.val).state = 1 → s.chtAddr c.val + 32 ≤ 0x3E0000000 →
    Gives (.chTrack c k) s fun t => (t.gc c.val).state = 2 ∧ (t.gc c.val).cn0 = k.toNat ∧ t.bit .GNS (GNS_CH_TRACK (c.val / 32)) (c.val % 32) = true ∧
    t.rdB (s.chtAddr c.val + 20) = 2 ∧ ∀ a, a < s.chtAddr c.val + 20 ∨ s.chtAddr c.val + 28 ≤ a → t.rdB a = s.rdB a) ∧
  (∀ (s : State) (c : Fin 512) (w : Fin 4), ((s.gc c.val).state ≠ 1 ∧ (s.gc c.val).state ≠ 2) ∨
    s.lostWhy (s.gc c.val) (w.val + 1) = false → exec (.chLost c w) s = .next s) ∧
  (∀ (s : State) (c : Fin 512) (w : Fin 4), (s.gc c.val).state = 1 ∨ (s.gc c.val).state = 2 →
    s.lostWhy (s.gc c.val) (w.val + 1) = true → Gives (.chLost c w) s fun t => (t.gc c.val).state = 3 ∧
      (t.gc c.val).reason = w.val + 1 ∧ t.bit .GNS (GNS_CH_LOSS (c.val / 32)) (c.val % 32) = true ∧
      t.bit .GNS (GNS_CH_TRACK (c.val / 32)) (c.val % 32) = false ∧ t.bit .GNS 0x24 5 = true)

/-- Measurements, navigation data, antennas and the inertial sensor (R214, R220, R221, R226, R227, Table 9-6, Table 9-7).
Where the spec is silent the statement follows the model's choice: assumption log 4, 45, 144 and 147. -/
def Obligations.GnssData : Prop :=
  (∀ (s : State) (obs : List GnsObs), s.gns.epochs < 2 ^ 32 →
    let a := s.gnsBase GNS_MEAS_BASE_LO GNS_MEAS_BASE_HI 15 + 0x8000 * (s.gns.epochs % 2 ^ clampN 1 4 (s.f .GNS GNS_MEAS_CFG 3 0))
    let u := s.toEpoch
    let e := u.now - u.now % s.measPeriod
    a + 0x8000 ≤ 0x3E0000000 → (∀ c, c < 512 → s.chtAddr c + 32 ≤ a ∨ a + 0x8000 ≤ s.chtAddr c) →
    Gives (.gnsMeas obs) s fun t =>
      t.rdN .GNS GNS_MEAS_NO = s.gns.epochs ∧ t.gns.epochs = (s.gns.epochs + 1) % 2 ^ 32 ∧ t.bit .GNS 0x24 1 = true ∧
      t.now = u.now ∧ t.gns.lastEpoch = some e ∧
      t.mem64 a 4 = s.gns.epochs ∧ t.mem64 (a + 8) 8 = e % 2 ^ 64 ∧ t.mem64 (a + 16) 2 = s.tracking.length ∧
      (∀ i c, s.tracking[i]? = some c → t.mem64 (a + 32 + 32 * i) 2 = c ∧
        ∀ o, obsOf obs c = some o → (t.gc c).cn0 = o.cn0.toNat ∧ (t.gc c).lock = o.lock.toNat) ∧
      ∀ x, x < a ∨ a + 0x8000 ≤ x → (∀ c, c < 512 → x < s.chtAddr c + 20 ∨ s.chtAddr c + 28 ≤ x) → t.rdB x = s.rdB x) ∧
  (∀ (s : State) (c : Fin 512) (l : Bool) (u : Nat) (e d : List Byte), (s.gc c.val).state ≠ 2 →
    exec (.navbit c l u e d) s = .next s) ∧
  (∀ (s : State) (c : Fin 512) (l : Bool) (u : Nat) (e d : List Byte), (s.gc c.val).state = 2 → s.gns.navs < 2 ^ 32 →
    let a := s.gnsBase GNS_NAV_BASE_LO GNS_NAV_BASE_HI 7 + 128 * (s.gns.navs % 2 ^ clampN 6 14 (s.f .GNS GNS_NAV_CFG 3 0))
    a + 128 ≤ 0x3E0000000 → Gives (.navbit c l u e d) s fun t =>
      let x := (s.gc c.val).byte 0
      let k := navKind x
      t.rdN .GNS GNS_NAV_SEQ = s.gns.navs ∧ t.gns.navs = (s.gns.navs + 1) % 2 ^ 32 ∧ t.bit .GNS 0x24 2 = true ∧
      t.mem64 a 4 = s.gns.navs ∧ t.mem64 (a + 4) 2 = c.val ∧ t.mem64 (a + 16) 8 = u % 2 ^ 64 ∧
      (t.rdB (a + 8)).toNat = k.1 ∧ (t.rdB (a + 9)).toNat = k.2.1 ∧ (t.rdB (a + 11)).toNat = k.2.2.1 ∧
      t.mem64 (a + 12) 2 = (if l then k.2.2.2.2 else k.2.2.2.1) ∧
      (t.rdB (a + 10)).toNat = (if Config.navCheck x l e d % 3 = 1 ∧ k.2.1 ≤ 2 then 0 else Config.navCheck x l e d % 3) ∧
      (∀ i, i < 104 → t.rdB (a + 24 + i) = (Config.navDecode x l e d).getD i 0) ∧
      ∀ x, x < a ∨ a + 128 ≤ x → t.rdB x = s.rdB x) ∧
  (∀ (s : State) (a : Fin 2) (ma : Nat), s.bit .GNS (GNS_ANT_CFG a.val) 31 = true → s.f .GNS (GNS_ANT_STATUS a.val) 9 8 = 3 →
    exec (.gnsAnt a ma) s = .next s) ∧
  (∀ (s : State) (a : Fin 2) (ma : Nat), s.bit .GNS (GNS_ANT_CFG a.val) 31 = true → s.f .GNS (GNS_ANT_STATUS a.val) 9 8 ≠ 3 →
    s.pwr.phase ≠ .loss → Gives (.gnsAnt a ma) s fun t => t.f .GNS (GNS_ANT_STATUS a.val) 7 0 = min 255 ma ∧
      t.f .GNS (GNS_ANT_STATUS a.val) 9 8 = (if ma < 3 then 1 else if 100 < ma then 3 else 2) ∧
      (t.f .GNS (GNS_ANT_STATUS a.val) 9 8 ≠ s.f .GNS (GNS_ANT_STATUS a.val) 9 8 → t.bit .GNS 0x24 4 = true ∧
        t.f .GNS (GNS_ANT_STATUS a.val) 31 16 = min 65535 (s.f .GNS (GNS_ANT_STATUS a.val) 31 16 + 1))) ∧
  (∀ (s : State) (a : Fin 2) (ma : Nat), s.bit .GNS (GNS_ANT_CFG a.val) 31 = false ∨
    (s.pwr.phase = .loss ∧ s.f .GNS (GNS_ANT_STATUS a.val) 9 8 ≠ 3) → Gives (.gnsAnt a ma) s fun t =>
    t.f .GNS (GNS_ANT_STATUS a.val) 9 8 = 0 ∧ t.f .GNS (GNS_ANT_STATUS a.val) 7 0 = 0) ∧
  (∀ (s : State) (a : Fin 2) (ma : Nat), s.f .GNS (GNS_ANT_STATUS a.val) 9 8 ≠ 3 → exec (.antBiasRetry a ma) s = .next s) ∧
  (∀ (s : State) (a : Fin 2) (ma : Nat), s.f .GNS (GNS_ANT_STATUS a.val) 9 8 = 3 → s.bit .GNS (GNS_ANT_CFG a.val) 31 = true →
    s.pwr.phase ≠ .loss → Gives (.antBiasRetry a ma) s fun t =>
      t.f .GNS (GNS_ANT_STATUS a.val) 9 8 = if ma < 3 then 1 else if 100 < ma then 3 else 2) ∧
  (∀ (s : State) (u : Nat) (r : List Word), s.bit .GNS GNS_CFG 16 = false → exec (.imuRecord u r) s = .next s) ∧
  (∀ (s : State) (u : Nat) (r : List Word), s.bit .GNS GNS_CFG 16 = true →
    let a := s.gnsBase GNS_IMU_BASE_LO GNS_IMU_BASE_HI 5 +
      32 * (s.rdN .GNS GNS_IMU_HEAD % 2 ^ clampN 6 14 (s.f .GNS GNS_IMU_CFG 3 0))
    a + 32 ≤ 0x3E0000000 → Gives (.imuRecord u r) s fun t => t.rd .GNS GNS_IMU_HEAD = s.rd .GNS GNS_IMU_HEAD + 1 ∧ t.mem64 a 8 = u % 2 ^ 64 ∧
    (∀ i, i < 6 → t.mem64 (a + 8 + 4 * i) 4 = (r.getD i 0).toNat) ∧ ∀ x, x < a ∨ a + 32 ≤ x → t.rdB x = s.rdB x) ∧
  (∀ s : State, Idle s .GNS → s.mode ≠ 1 → s.mode ≠ 5 → Gives .coldStart s fun t => Ended t .GNS 3 .refusedMode ∧
    t.nv = s.nv ∧ t.gns = s.gns) ∧
  (∀ s : State, Idle s .GNS → s.mode = 1 ∨ s.mode = 5 → Gives .coldStart s fun t => Ended t .GNS 3 .ok ∧ t.nv.eph = none ∧
    t.gns.fw = 2 ∧ ∀ c, c < 512 → (t.gc c).state = 0) ∧
  (∀ s : State, Idle s .GNS → Gives .gnsClearCounts s fun t => Ended t .GNS 4 .ok ∧ (∀ i, i < 16 → t.rd .GNS (GNS_CH_LOSS i) = 0) ∧
    ∀ a, a < 2 → t.f .GNS (GNS_ANT_STATUS a) 31 16 = 0 ∧ t.f .GNS (GNS_ANT_STATUS a) 9 8 = s.f .GNS (GNS_ANT_STATUS a) 9 8)

/-- Corrections, holdover, recovery and the pulse per second (R231–R236, R238, Table 9-9). Time marks, the latched time, the
time message, the grandmaster and the commands of TIM (R99, R235, R238–R240, Table 9-17). Where the spec is silent the
statement follows the model's choice: assumption log 4, 12, 47, 142, 143 and 148. -/
def Obligations.DeviceTime : Prop :=
  (∀ (s : State) (v : Word), s.corrOk (s.now - (s.now + 2 ^ 32 - v.toNat) % 2 ^ 32) s.corrDelta = false →
    Gives (.timCorrGo v) s fun t => t.rdN .TIM TIM_CORR_REJ = min 0xFFFFFFFF (s.rdN .TIM TIM_CORR_REJ + 1) ∧
      t.timState = s.timState ∧ t.now = s.now ∧ t.tim.slew = s.tim.slew ∧ t.tim.rest = s.tim.rest) ∧
  (∀ (s : State) (e : Nat) (d : Int),
    let bad := 1000 < s.rdN .TIM TIM_CORR_ACC ∨ e + sec < s.now ∨ s.bit .TIM TIM_STATUS 7 = true
    (bad → s.corrOk e d = false) ∧ (¬ bad → s.timState = 2 ∨ s.timState = 4 → s.corrOk e d = true) ∧
    (¬ bad → s.timState ≠ 2 → s.timState ≠ 4 → (s.corrOk e d = true ↔ ∃ p, s.tim.prev = some p ∧ p.1 < e ∧ e ≤ p.1 + sec ∧
      (d - p.2).natAbs ≤ 50 * 65536))) ∧
  (∀ (s : State) (v : Word),
    let e := s.now - (s.now + 2 ^ 32 - v.toNat) % 2 ^ 32
    let d := s.corrDelta
    let n := wholeNs d
    s.corrOk e d = true → s.timState ≤ 4 → Gives (.timCorrGo v) s fun t =>
      t.tim.acc0 = s.rdN .TIM TIM_CORR_ACC ∧ t.tim.acceptAt = some s.clk.up ∧ t.tim.accEpoch = some e ∧
      (s.timState ≤ 1 → t.rd .TIM TIM_RATE = s.rd .TIM TIM_RATE ∧ t.bit .TIM 0x24 0 = true ∧ t.bit .TIM 0x24 1 = true) ∧
      (s.timState ≤ 1 → 0 ≤ d → (t.now : Int) = s.now + n ∧ t.timState = 2) ∧
      (s.timState = 2 ∨ s.timState = 3 ∨ (s.timState ≤ 1 ∧ d < 0) → t.now = s.now ∧
        (d.natAbs < 1000 * 65536 → t.tim.slew = n ∧ t.timState = 2) ∧
        (1000 * 65536 ≤ d.natAbs → t.tim.slew = 0 ∧ t.tim.rest = n ∧ t.tim.total = n ∧ t.timState = 4 ∧ t.bit .TIM 0x24 0 = true)) ∧
      (s.timState = 4 → t.now = s.now ∧ t.timState = 4 ∧ t.tim.extra = some (n - s.tim.removing)) ∧
      (2 ≤ s.timState → s.timState ≠ 3 → ∀ e', s.tim.accEpoch = some e' → e' < e → t.rd .TIM TIM_RATE =
        wordI (clampI (-1000000) 1000000 ((s.rd .TIM TIM_RATE).toInt +
          roundDiv ((d - s.tim.pending * 65536) * 100000000000) (65536 * (e - e')))))) ∧
  (∀ s : State,
    let u := s.tim.acceptAt.getD s.clk.up + s.holdAfter
    (s.timState = 2 → Gives .holdAfterExpired s fun t => t.timState = 3 ∧ t.bit .TIM 0x24 0 = true ∧ t.clk.up = max s.clk.up u) ∧
    (s.timState = 4 → s.tim.dk ≠ 0 → Gives .holdAfterExpired s fun t => t.tim.lost = true ∧ t.timState = 4 ∧
      t.clk.up = max s.clk.up u) ∧
    (s.timState = 4 → s.tim.dk = 0 → Gives .holdAfterExpired s fun t => t.timState = 3 ∧ t.tim.rest = 0 ∧
      t.tim.left = s.tim.left + s.tim.rest + s.tim.extra.getD 0 ∧ t.clk.up = max s.clk.up u) ∧
    (s.timState ≠ 2 → s.timState ≠ 4 → exec .holdAfterExpired s = .next s)) ∧
  (∀ s : State, s.tim.slew = 0 → exec .timeSlewEnd s = .next s) ∧
  (∀ s : State, s.tim.slew ≠ 0 → Gives .timeSlewEnd s fun t => t.tim.slew = 0 ∧ (t.timView TIM_STATUS).getLsbD 5 = false ∧
    (s.tim.dk = 0 → (t.now : Int) = s.now + s.tim.slew.natAbs * 100000 + s.tim.slew)) ∧
  (∀ s : State,
    let u := if s.now % sec = 0 ∧ s.tim.second ≠ some (s.now / sec) then s.now else (s.now / sec + 1) * sec
    Gives .pps s fun t => t.now = u ∧ t.tim.second = some (u / sec) ∧
      (s.timState ≠ 4 → s.tim.dk = 0 → s.ppsOn = true → s.tim.ppsFrom ≤ u → t.tim.pulseAt = some u ∧
        t.bit .TIM 0x24 3 = true ∧ (s.bit .TIM TIM_CFG 1 = true → t.tim.msg.isSome = true)) ∧
      (s.timState ≠ 4 → s.tim.dk = 0 → s.ppsOn = false ∨ u < s.tim.ppsFrom → t.tim.pulseAt = s.tim.pulseAt) ∧
      (s.timState = 4 → s.tim.dk = 0 ∨ (s.tim.lost = false ∧ s.tim.rest ≠ 0) →
        t.tim.dk = clampI (-500000000) 500000000 s.tim.rest ∧ t.tim.dk + t.tim.rest = s.tim.rest ∧ t.timState = 4)) ∧
  (∀ s : State, s.tim.dk = 0 ∨ s.tim.rest ≠ 0 ∨ s.tim.lost = true → exec .timeStep s = .next s) ∧
  (∀ s : State, s.tim.dk ≠ 0 → s.tim.rest = 0 → s.tim.lost = false → s.tim.extra = none → Gives .timeStep s fun t =>
    t.timState = 2 ∧ t.rd .TIM TIM_LAST_STEP = wordI (clampI (-0x80000000) 0x7FFFFFFF s.tim.total) ∧
    t.bit .TIM 0x24 2 = true ∧ t.tim.dk = 0 ∧ t.now = s.toSecond.now ∧
    t.f .TIM TIM_STATS 31 16 = min 65535 (s.f .TIM TIM_STATS 31 16 + 1)) ∧
  (∀ (s : State) (u : Nat), (s.tim.marks.length < 16 → Gives (.tmark u) s fun t =>
      t.tim.marks = s.tim.marks ++ [clampN (s.now - 10) (s.now + 10) u] ∧
      t.bit .TIM 0x24 4 = true) ∧
    (16 ≤ s.tim.marks.length → Gives (.tmark u) s fun t => t.tim.marks = s.tim.marks ∧ t.bit .TIM 0x24 5 = true ∧
      t.f .TIM TIM_TMARK_CNT 31 16 = min 65535 (s.f .TIM TIM_TMARK_CNT 31 16 + 1))) ∧
  (∀ s : State, s.tim.marks = [] → Gives .tmarkLoRead s fun t => t.resp = .word 0 ∧ t.tim = s.tim) ∧
  (∀ (s : State) (m : Nat) (l : List Nat), s.tim.marks = m :: l → Gives .tmarkLoRead s fun t => t.resp = .word (wordN m) ∧
    t.tim.mark = some m ∧ t.tim.marks = m :: l) ∧
  (∀ s : State, s.tim.mark = none → Gives .tmarkHiRead s fun t => t.resp = .word 0 ∧ t.tim = s.tim) ∧
  (∀ (s : State) (m : Nat), s.tim.mark = some m → Gives .tmarkHiRead s fun t => t.resp = .word (wordN (m / 2 ^ 32)) ∧
    t.tim.mark = none ∧ t.tim.marks = s.tim.marks.tail) ∧
  (∀ s : State, Gives .timNowLoRead s fun t => t.resp = .word (wordN s.now) ∧
    t.rd .TIM TIM_NOW_HI = wordN (s.now / 2 ^ 32) ∧ t.now = s.now) ∧
  (∀ s : State, Idle s .TIM → Gives .clearTmark s fun t => Ended t .TIM 1 .ok ∧ t.tim.marks = [] ∧ t.tim.mark = none ∧
    t.f .TIM TIM_TMARK_CNT 31 16 = 0) ∧
  (∀ s : State, Idle s .TIM → (s.mode ≠ 5 → Gives .holdoverTest s (Ended · .TIM 2 .refusedMode)) ∧
    (s.mode = 5 → s.rdN .TIM 0x4 < 10 ∨ 3600 < s.rdN .TIM 0x4 → Gives .holdoverTest s (Ended · .TIM 2 .badHeader)) ∧
    (s.mode = 5 → 10 ≤ s.rdN .TIM 0x4 → s.rdN .TIM 0x4 ≤ 3600 → s.timState ≠ 4 → Gives .holdoverTest s fun t =>
      Running s t .TIM 2 ∧ t.bit .TIM TIM_STATUS 7 = true) ∧
    (s.mode = 5 → 10 ≤ s.rdN .TIM 0x4 → s.rdN .TIM 0x4 ≤ 3600 → s.timState = 4 → Gives .holdoverTest s fun t =>
      Running s t .TIM 2 ∧ t.tim.testWait = true ∧ t.bit .TIM TIM_STATUS 7 = s.bit .TIM TIM_STATUS 7)) ∧
  (∀ s : State, (s.bit .TIM TIM_STATUS 7 = false → exec .holdoverTestEnd s = .next s) ∧
    (s.bit .TIM TIM_STATUS 7 = true → Gives .holdoverTestEnd s fun t => t.bit .TIM TIM_STATUS 7 = false ∧
      ((s.mailOf .TIM).code = 2 → Ended t .TIM 2 .ok))) ∧
  (∀ s : State, Idle s .TIM → Gives .timClearStats s fun t => Ended t .TIM 3 .ok ∧ t.rd .TIM TIM_STATS = 0 ∧
    t.rd .TIM TIM_CORR_REJ = 0) ∧
  (∀ (s : State) (g : Option (Nat × Int)), Gives (.gmChg g) s fun t => t.tim.gm = g ∧
    (s.tim.gm.map Prod.fst ≠ g.map Prod.fst → t.bit .TIM 0x24 6 = true) ∧
    (s.tim.gm.map Prod.fst = g.map Prod.fst → t.regs = s.regs)) ∧
  (∀ s : State, s.tim.msg = none → exec .timeMessageDrop s = .next s) ∧
  (∀ s : State, s.tim.msg.isSome = true →
    let free := s.canStarted s.tmsgCan = true ∧ s.mbBit (CAN_CH_TXREQ s.tmsgCan 0) 127 = false
    Gives .timeMessageDrop s fun t => t.tim.msg = none ∧ t.f .TIM TIM_STATS 15 0 =
      (if free then s.f .TIM TIM_STATS 15 0 else min 65535 (s.f .TIM TIM_STATS 15 0 + 1)) ∧
      (∀ p, s.tim.pulseAt = some p → t.now = max s.now (p + 600000000)))

/-- The crop sensing inputs (R343–R349, Table 14-1, Table 14-6): faults of analog inputs, edges and rates of frequency
inputs, impacts and tests of loss inputs, sensor supplies, commands. Where the spec is silent the statement follows the
model's choice: assumption log 4, 17 and 163. -/
def Obligations.CropInputs : Prop :=
  (∀ (s : State) (n : Fin 48) (k : AinFlag) (xs : List Int),
    let w := if s.ainMode n.val = 0 ∨ xs = [] then s.rd .AIO (AIO_AIN_VALUE n.val)
      else wordI (meanOf ((xs.reverse ++ s.aio.ain.get [] n.val).take (2 ^ s.f .AIO (AIO_AIN_CFG n.val) 29 27)))
    let r := AIO_AIN_STATUS n.val
    (s.ainCond n.val k w.toInt = true → s.bit .AIO r (ainFlagBit k) = false → Gives (.ainFault n k xs) s fun t =>
      t.bit .AIO r (ainFlagBit k) = true ∧ t.bit .AIO r 7 = true ∧ t.rd .AIO (AIO_AIN_VALUE n.val) = w ∧
      t.bit .AIO 0x24 0 = true ∧ t.f .AIO r 31 16 = min 65535 (s.f .AIO r 31 16 + 1)) ∧
    (s.ainCond n.val k w.toInt = false ∨ s.bit .AIO r (ainFlagBit k) = true → Gives (.ainFault n k xs) s fun t =>
      t.rd .AIO (AIO_AIN_VALUE n.val) = w ∧ t.rd .AIO 0x24 = s.rd .AIO 0x24 ∧ t.f .AIO r 6 2 = s.f .AIO r 6 2 ∧
      t.f .AIO r 31 16 = s.f .AIO r 31 16) ∧
    (k ≠ .burden → s.ainCond n.val k w.toInt = false → Gives (.ainFaultClear n k xs) s fun t =>
      t.bit .AIO r (ainFlagBit k) = false ∧ t.rd .AIO (AIO_AIN_VALUE n.val) = w ∧ t.bit .AIO r 7 = t.ainInvalid n.val) ∧
    (k = .burden ∨ s.ainCond n.val k w.toInt = true → Gives (.ainFaultClear n k xs) s fun t =>
      t.f .AIO r 6 2 = s.f .AIO r 6 2 ∧ t.rd .AIO (AIO_AIN_VALUE n.val) = w)) ∧
  (∀ (s : State) (n : Fin 48) (still : Bool), (s.bit .AIO (AIO_AIN_STATUS n.val) 6 = true → Gives (.burdenRetry n still) s fun t =>
      t.bit .AIO (AIO_AIN_STATUS n.val) 6 = still) ∧
    (s.bit .AIO (AIO_AIN_STATUS n.val) 6 = false → exec (.burdenRetry n still) s = .next s)) ∧
  (∀ (s : State) (n : Fin 24) (dt lo hi : Nat),
    let least := clampN 1 100 (s.f .AIO (AIO_FIN_CFG n.val) 23 16) * 1000
    (s.finOn n.val = false → Gives (.finEdge n dt lo hi) s fun t => t.regs = s.regs ∧ t.aio = s.aio) ∧
    let low := match (s.aio.fin.get {} n.val).since with
      | some u => min lo (s.clk.up + dt - hi - u)
      | none => lo
    (s.finOn n.val = true → low < least ∨ hi < least → Gives (.finEdge n dt lo hi) s fun t =>
      t.rd .AIO (AIO_FIN_COUNT n.val) = s.rd .AIO (AIO_FIN_COUNT n.val) ∧ t.bit .AIO (AIO_FIN_STATUS n.val) 0 = true ∧
      t.f .AIO (AIO_FIN_STATUS n.val) 31 16 = min 65535 (s.f .AIO (AIO_FIN_STATUS n.val) 31 16 + 1)) ∧
    (s.finOn n.val = true → least ≤ low → least ≤ hi → Gives (.finEdge n dt lo hi) s fun t =>
      t.rd .AIO (AIO_FIN_COUNT n.val) = s.rd .AIO (AIO_FIN_COUNT n.val) + 1 ∧
      (t.aio.fin.get {} n.val).lastEdge = some ((s.clk.up + dt - hi) / 10 * 10) ∧
      (t.aio.fin.get {} n.val).edges = ((s.clk.up + dt - hi) / 10 * 10) :: (s.aio.fin.get {} n.val).edges ∧
      ∀ u, (s.aio.fin.get {} n.val).lastEdge = some u →
        t.rdN .AIO (AIO_FIN_PERIOD n.val) = min 0xFFFFFFFF (((s.clk.up + dt - hi) / 10 * 10 - u) / 10))) ∧
  (∀ (s : State) (n : Fin 24) (dt : Nat) (l : Bool), s.finOn n.val = true →
    (s.aio.fin.get {} n.val).edges = [] → (s.aio.fin.get {} n.val).lastEdge = none → Gives (.finRefresh n dt l) s fun t =>
      t.rd .AIO (AIO_FIN_FREQ n.val) = 0 ∧ t.bit .AIO (AIO_FIN_STATUS n.val) 2 = true ∧
      (s.bit .AIO (AIO_FIN_STATUS n.val) 2 = false → s.bit .AIO (AIO_FIN_CFG n.val) 28 = true → t.bit .AIO 0x24 4 = true)) ∧
  (∀ (s : State) (n : Fin 24) (dt u : Nat) (l : Bool), s.finOn n.val = true → (s.aio.fin.get {} n.val).edges = [] →
    (s.aio.fin.get {} n.val).lastEdge = some u →
    s.clk.up + dt ≤ u + max 1 (s.f .AIO (AIO_FIN_CFG n.val) 7 0) * 100000000 → Gives (.finRefresh n dt l) s fun t =>
      t.bit .AIO (AIO_FIN_STATUS n.val) 2 = false ∧ t.rdN .AIO (AIO_FIN_FREQ n.val) = min 0xFFFFFFFF
        (1000000000000 / max 1 (max (s.rdN .AIO (AIO_FIN_PERIOD n.val) * 10) (s.clk.up + dt - u)))) ∧
  (∀ (s : State) (n : Fin 24),
    let f := s.rdN .AIO (AIO_FIN_FREQ n.val)
    let flt := s.bit .AIO (AIO_FIN_STATUS n.val) 3
    (55000000 < f → flt = false → Gives (.finFault n) s fun t => t.bit .AIO (AIO_FIN_STATUS n.val) 3 = true ∧
      t.bit .AIO (AIO_FIN_STATUS n.val) 7 = true ∧ t.bit .AIO 0x24 1 = true) ∧
    (f < 50000000 → Gives (.finFault n) s fun t => t.bit .AIO (AIO_FIN_STATUS n.val) 3 = false) ∧
    (50000000 ≤ f → f ≤ 55000000 ∨ flt = true → exec (.finFault n) s = .next s)) ∧
  (∀ (s : State) (n : Fin 8) (dt w p : Nat),
    let cfg := s.rd .AIO (AIO_LOSS_CFG n.val)
    let th := s.rd .AIO (AIO_LOSS_THRESH n.val)
    (bitOf cfg 31 = false ∨ p ≤ fld th 15 0 → Gives (.lossImpact n dt w p) s fun t => t.regs = s.regs ∧ t.aio = s.aio) ∧
    (bitOf cfg 31 = true → fld th 15 0 < p → p ≤ fld th 31 16 → fld cfg 7 0 ≤ w → w ≤ fld cfg 15 8 →
      (∀ u, (s.aio.loss.get {} n.val).last = some u → u + max 1 (fld cfg 23 16) * 1000 ≤ s.clk.up + dt) →
      Gives (.lossImpact n dt w p) s fun t => t.rd .AIO (AIO_LOSS_COUNT n.val) = s.rd .AIO (AIO_LOSS_COUNT n.val) + 1 ∧
        t.rd .AIO (AIO_LOSS_REJECT n.val) = s.rd .AIO (AIO_LOSS_REJECT n.val) ∧
        (t.aio.loss.get {} n.val).last = some (s.clk.up + dt)) ∧
    (bitOf cfg 31 = true → fld th 15 0 < p → w < fld cfg 7 0 ∨ fld cfg 15 8 < w → Gives (.lossImpact n dt w p) s fun t =>
      t.rd .AIO (AIO_LOSS_COUNT n.val) = s.rd .AIO (AIO_LOSS_COUNT n.val) ∧
      t.f .AIO (AIO_LOSS_REJECT n.val) 31 16 = min 65535 (s.f .AIO (AIO_LOSS_REJECT n.val) 31 16 + 1))) ∧
  (∀ (s : State) (n : Fin 8) (dt : Nat), Gives (.lossRateRefresh n dt) s fun t => t.rdN .AIO (AIO_LOSS_RATE n.val) =
    min 0x7FFFFFFF (((s.aio.loss.get {} n.val).hits.filter fun u => decide (s.clk.up + dt < u + 1000000000)).length * 65536)) ∧
  (∀ (s : State) (n : Fin 8) (r : Nat), (s.bit .AIO (AIO_LOSS_CFG n.val) 31 = false → Gives (.lossTestPulse n r) s fun t =>
      t.rd .AIO (AIO_LOSS_STATUS n.val) = s.rd .AIO (AIO_LOSS_STATUS n.val) ∧
      t.aio.testing = s.aio.testing.filter fun m => m != n.val) ∧
    (s.bit .AIO (AIO_LOSS_CFG n.val) 31 = true → Gives (.lossTestPulse n r) s fun t =>
      t.bit .AIO (AIO_LOSS_STATUS n.val) 1 = decide (2000 < r) ∧ t.bit .AIO (AIO_LOSS_STATUS n.val) 2 = decide (r < 50) ∧
      (2000 < r → s.bit .AIO (AIO_LOSS_STATUS n.val) 1 = false → t.bit .AIO 0x24 2 = true) ∧
      (s.aio.testing = [n.val] → (s.mailOf .AIO).code = 2 → Ended t .AIO 2 .ok ∧ t.bit .AIO AIO_STATUS 8 = false))) ∧
  (∀ (s : State) (k : Fin 6) (c : SupplyState) (mv ma : Nat),
    (s.bit .AIO (AIO_SUP_CFG k.val) 0 = false ∨ s.f .AIO (AIO_SUP_STATUS k.val) 1 0 = 2 →
      exec (.aioSupply k c mv ma) s = .next s) ∧
    (s.bit .AIO (AIO_SUP_CFG k.val) 0 = true → s.f .AIO (AIO_SUP_STATUS k.val) 1 0 ≠ 2 → Gives (.aioSupply k c mv ma) s fun t =>
      t.f .AIO (AIO_SUP_STATUS k.val) 1 0 = supplyCode c ∧ t.f .AIO (AIO_SUP_STATUS k.val) 31 16 = min 65535 mv ∧
      t.f .AIO (AIO_SUP_STATUS k.val) 15 4 = min 4095 ma ∧
      t.bit .AIO AIO_STATUS k.val = decide (c ≠ .good) ∧
      (s.f .AIO (AIO_SUP_STATUS k.val) 1 0 ≠ supplyCode c → t.bit .AIO 0x24 3 = true))) ∧
  (∀ (s : State) (k : Fin 6) (g : Bool) (mv ma : Nat),
    (s.bit .AIO (AIO_SUP_CFG k.val) 0 = false ∨ s.f .AIO (AIO_SUP_STATUS k.val) 1 0 ≠ 2 →
      exec (.supplyRetry k g mv ma) s = .next s) ∧
    (s.bit .AIO (AIO_SUP_CFG k.val) 0 = true → s.f .AIO (AIO_SUP_STATUS k.val) 1 0 = 2 → Gives (.supplyRetry k g mv ma) s fun t =>
      t.f .AIO (AIO_SUP_STATUS k.val) 1 0 = (if g then 1 else 2) ∧ (g = true → t.bit .AIO 0x24 3 = true))) ∧
  (∀ s : State, Idle s .AIO → Gives .aioClearCounts s fun t => Ended t .AIO 1 .ok ∧
    (s.bit .AIO 0x4 0 = true → ∀ n, n < 48 → t.f .AIO (AIO_AIN_STATUS n) 31 16 = 0 ∧ t.rd .AIO (AIO_AIN_MINMAX n) = 0x0000FFFF) ∧
    (s.bit .AIO 0x4 1 = true → ∀ n, n < 24 → t.f .AIO (AIO_FIN_STATUS n) 31 16 = 0) ∧
    (s.bit .AIO 0x4 2 = true → ∀ n, n < 8 → t.rd .AIO (AIO_LOSS_REJECT n) = 0 ∧
      ∀ b, b < 8 → t.rd .AIO (AIO_LOSS_HIST n b) = 0)) ∧
  (∀ s : State, Idle s .AIO →
    let ns := (upto 8).filter fun n => s.bit .AIO 0x4 n && s.bit .AIO (AIO_LOSS_CFG n) 31
    (ns = [] → Gives .lossTest s (Ended · .AIO 2 .ok)) ∧
    (ns ≠ [] → Gives .lossTest s fun t => Running s t .AIO 2 ∧ t.aio.testing = ns ∧ t.bit .AIO AIO_STATUS 8 = true))

/-- Cycles of the Tabletop (R242, R245–R247, R250, R271, R275, Sequence 10-1): the cut, publication, a late cycle, the
solver's time-out. Where the spec is silent the statement follows the model's choice: assumption log 4, 49 and 151. -/
def Obligations.TabletopCycles : Prop :=
  (∀ (s : State) (u : Nat) (sums : List (Fin 16 × Fin 256 × BitVec 64)) (fused : List (Fin 16777216 × Byte)),
    (s.tblRun = false ∧ (s.tblStarting = false ∨ u < s.tbl.startAt + 10000000)) ∨ u < s.now ∨ s.tbl.lastCut = some u ∨
      u % 50000000 ≠ s.tbl.phase * 1000000 → exec (.tabletopCut u sums fused) s = .next s) ∧
  (∀ (s : State) (u : Nat) (sums : List (Fin 16 × Fin 256 × BitVec 64)) (fused : List (Fin 16777216 × Byte)),
    s.tblRun = true → s.bit .TBL TBL_STATUS 2 = false → s.now ≤ u → s.tbl.lastCut ≠ some u →
    u % 50000000 = s.tbl.phase * 1000000 → s.tblStarting = false →
    (s.buildHeld ≤ u + 35000000 → Gives (.tabletopCut u sums fused) s fun t => t.now = max u s.buildHeld ∧
      t.bit .TBL TBL_STATUS 5 = true ∧ t.bit .TBL TBL_STATUS 6 = true ∧ t.bit .TBL 0x24 1 = true ∧
      t.tbl.num = (s.tbl.num + 1) % 2 ^ 32 ∧
      (∃ c, t.tbl.cyc = some c ∧ c.num = t.tbl.num ∧ c.cut = u ∧
        c.stamps = (upto 16).map fun n => ((s.tslot n).latest, (s.tslot n).buf)) ∧
      (s.tbl.cyc.isSome = true → t.bit .TBL 0x24 2 = true ∧
        t.f .TBL TBL_SKIP 31 16 = min 65535 (s.f .TBL TBL_SKIP 31 16 + 1))) ∧
    (u + 35000000 < s.buildHeld → s.tbl.cyc = none → Gives (.tabletopCut u sums fused) s fun t => t.now = u + 35000000 ∧
      t.tbl.cyc = none ∧ t.bit .TBL TBL_STATUS 5 = false ∧ t.bit .TBL 0x24 2 = true ∧ t.mem = s.mem ∧
      t.f .TBL TBL_SKIP 31 16 = min 65535 (s.f .TBL TBL_SKIP 31 16 + 1))) ∧
  (∀ (s : State) (u : Nat) (sums : List (Fin 16 × Fin 256 × BitVec 64)), s.tblRun = true → s.bit .TBL TBL_STATUS 2 = false →
    s.now ≤ u → s.tbl.lastCut ≠ some u → u % 50000000 = s.tbl.phase * 1000000 → s.tblStarting = false →
    s.buildHeld ≤ u + 35000000 → Gives (.tabletopCut u sums []) s fun t => ∀ a, t.rdB a =
        if gridBase (!s.tbl.pub) ≤ a ∧ a < gridBase (!s.tbl.pub) + 0x1000000 ∧
          (a - gridBase (!s.tbl.pub)) % 64 < s.tbl.progFirst then 0 else s.rdB a) ∧
  (∀ (s : State) (u : Nat) (sums : List (Fin 16 × Fin 256 × BitVec 64)) (fused : List (Fin 16777216 × Byte)),
    s.tblRun = false → s.tblStarting = true → s.bit .TBL TBL_STATUS 2 = false → s.tbl.swap = none →
    s.tbl.startAt + 10000000 ≤ u → s.now ≤ u → s.tbl.lastCut ≠ some u → s.buildHeld ≤ u + 35000000 →
    u % 50000000 = s.tbl.phase * 1000000 → (s.mailOf .TBL).code = 1 → Gives (.tabletopCut u sums fused) s fun t =>
      t.tblRun = true ∧ t.tblStarting = false ∧ Ended t .TBL 1 .ok ∧ t.bit .TBL 0x24 1 = true) ∧
  (∀ s : State, s.tbl.cyc = none → exec .cycleSkip s = .next s ∧ (∀ r, exec (.solverTo r) s = .next s) ∧
    ∀ dt crop dets kat pick, exec (.tblCycle dt crop dets kat pick) s = .next s) ∧
  (∀ (s : State) (c : TblCyc), s.tbl.cyc = some c → Gives .cycleSkip s fun t => t.tbl.cyc = none ∧
    t.bit .TBL TBL_STATUS 5 = false ∧ t.bit .TBL TBL_STATUS 6 = false ∧ t.bit .TBL 0x24 2 = true ∧
    t.f .TBL TBL_SKIP 31 16 = min 65535 (s.f .TBL TBL_SKIP 31 16 + 1) ∧ t.tbl.pub = s.tbl.pub ∧
    t.now = max s.now (c.cut + 35000000)) ∧
  (∀ (s : State) (c : TblCyc) (r : List (Nat × Nat)), s.tbl.cyc = some c → Gives (.solverTo r) s fun t =>
    t.tbl.cyc = some { c with greedy := some r } ∧ t.bit .TBL 0x24 9 = true ∧
    t.f .TBL TBL_SKIP 15 0 = min 65535 (s.f .TBL TBL_SKIP 15 0 + 1)) ∧
  (∀ (s : State) (c : TblCyc) (dt : Nat) (crop : List (Int × Byte)) (dets : List TblDet) (kat : BitVec 64)
    (pick : List (Nat × Nat)), s.tbl.cyc = some c → c.cut + 35000000 < max (s.pass dt).now s.tbl.writes →
    Gives (.tblCycle dt crop dets kat pick) s fun t => t.tbl.cyc = none ∧ t.tbl.pub = s.tbl.pub ∧ t.bit .TBL 0x24 2 = true ∧
      t.mem = s.mem) ∧
  (∀ (s : State) (c : TblCyc) (dt : Nat) (crop : List (Int × Byte)) (dets : List TblDet) (kat : BitVec 64)
    (pick : List (Nat × Nat)), s.tbl.cyc = some c → max (s.pass dt).now s.tbl.writes ≤ c.cut + 35000000 →
    Gives (.tblCycle dt crop dets kat pick) s fun t => t.tbl.cyc = none ∧ t.tbl.pub = !s.tbl.pub ∧
      t.rd .TBL TBL_CYCLE = wordN c.num ∧ t.bit .TBL 0x24 0 = true ∧ t.bit .TBL TBL_STATUS 4 = true ∧
      t.bit .TBL TBL_STATUS 5 = false ∧ t.bit .TBL TBL_STATUS 6 = false ∧ t.tbl.last = some (c.cut, c.num) ∧
      t.mem64 (resultBase (!s.tbl.pub)) 4 = c.num % 2 ^ 32 ∧
      (∀ a, a < resultBase (!s.tbl.pub) ∨ resultBase (!s.tbl.pub) + 0x10000 ≤ a → t.rdB a = s.rdB a) ∧
      (s.bit .TBL TBL_STATUS 3 = false → kat ≠ 0 → t.bit .TBL 0x24 6 = true ∧ t.bit .TBL TBL_KAT 7 = true))

/-- Samples and fragments of the sensor slots (R251–R256, Table 10-2). The commands of TBL (R259, R260, R264, R275–R277,
Table 10-10). Where the spec is silent the statement follows the model's choice: assumption log 4, 51, 152 and 153. -/
def Obligations.TabletopSamplesAndCommands : Prop :=
  (∀ (s : State) (n : Fin 16) (st : Int) (d : List Byte), (s.tblRun = false ∧ s.tblStarting = false) ∨
    s.tbl.enabled n.val = false ∨ s.slotHolds n.val st = false → exec (.sampleArrive n st d) s = .next s) ∧
  (∀ (s : State) (n : Fin 16) (st : Int) (d : List Byte), s.tblRun = true ∨ s.tblStarting = true →
    s.tbl.enabled n.val = true → s.slotHolds n.val st = true → Gives (.sampleArrive n st d) s fun t =>
      t.rdN .TBL (TBL_SLOT_SAMPLES n.val) = min 0xFFFFFFFF (s.rdN .TBL (TBL_SLOT_SAMPLES n.val) + 1) ∧
      (t.tslot n.val).silent = false ∧
      (s.sampleLate n.val st = true → t.bit .TBL 0x24 3 = true ∧
        t.rdN .TBL (TBL_SLOT_LATE n.val) = min 0xFFFFFFFF (s.rdN .TBL (TBL_SLOT_LATE n.val) + 1)) ∧
      ((∃ l, (s.tslot n.val).latest = some l ∧ st < l) → (t.tslot n.val).latest = (s.tslot n.val).latest ∧
        t.f .TBL (TBL_SLOT_ERR n.val) 31 16 = min 65535 (s.f .TBL (TBL_SLOT_ERR n.val) 31 16 + 1)) ∧
      ((∀ l, (s.tslot n.val).latest = some l → l ≤ st) → (t.tslot n.val).latest = some st ∧
        (t.tslot n.val).buf = s.stageFree n.val ∧ t.bit .TBL (TBL_SLOT_BANK n.val) 6 = false) ∧
      (d.length ≤ 2 * mib → s.stageAddr n.val (s.stageFree n.val) + d.length ≤ 0x3E0000000 → ∀ i, i < d.length →
        t.rdB (s.stageAddr n.val (s.stageFree n.val) + i) = d.getD i 0)) ∧
  (∀ (s : State) (n : Fin 16), ((s.tblRun = false ∧ s.tblStarting = false) ∨ s.tbl.enabled n.val = false ∨
    (s.tslot n.val).silent = true → exec (.slotSilent n) s = .next s) ∧
    (s.tblRun = true ∨ s.tblStarting = true → s.tbl.enabled n.val = true → (s.tslot n.val).silent = false →
      Gives (.slotSilent n) s fun t => (t.tslot n.val).silent = true ∧ t.bit .TBL 0x24 7 = true)) ∧
  (∀ (s : State) (n : Fin 16), ((s.tslot n.val).asm = none → exec (.extErr n) s = .next s) ∧
    ((s.tslot n.val).asm.isSome = true → Gives (.extErr n) s fun t => (t.tslot n.val).asm = none ∧ t.bit .TBL 0x24 11 = true ∧
      t.f .TBL (TBL_SLOT_ERR n.val) 15 0 = min 65535 (s.f .TBL (TBL_SLOT_ERR n.val) 15 0 + 1))) ∧
  (∀ (s : State) (d : List Byte),
    let le := fun o k => leNat ((d.drop o).take k)
    let n := le 3 1
    (d.length < 4 ∨ 15 < n → exec (.slotFragment d) s = .next s) ∧
    (4 ≤ d.length → n < 8 → Gives (.slotFragment d) s fun t => t.tbl = s.tbl ∧
      t.f .TBL (TBL_SLOT_ERR n) 15 0 = min 65535 (s.f .TBL (TBL_SLOT_ERR n) 15 0 + 1)) ∧
    (4 ≤ d.length → 8 ≤ n → n ≤ 15 → (s.tblRun = false ∧ s.tblStarting = false) ∨ le 0 2 ≠ 0x7B5A ∨ le 2 1 ≠ 1 ∨
      s.tbl.enabled n = false ∨ le 20 1 ≠ slotKind (s.tslot n).cfg ∨ d.length < 32 ∨
      d.length - 32 + (le 18 2 - 1) * 1440 < le 24 4 → Gives (.slotFragment d) s fun t => t.tbl = s.tbl ∧
      t.f .TBL (TBL_SLOT_ERR n) 15 0 = min 65535 (s.f .TBL (TBL_SLOT_ERR n) 15 0 + 1)) ∧
    (8 ≤ n → n ≤ 15 → s.tblRun = true ∨ s.tblStarting = true → le 0 2 = 0x7B5A → le 2 1 = 1 → s.tbl.enabled n = true →
      le 20 1 = slotKind (s.tslot n).cfg → 32 ≤ d.length → le 24 4 ≤ d.length - 32 + (le 18 2 - 1) * 1440 →
      (s.tslot n).asm = none →
      (le 18 2 = 1 → le 16 2 = 0 → crc32c ((d.drop 32).take (le 24 4)) = le 28 4 → Gives (.slotFragment d) s fun t =>
        (t.tslot n).asm = none ∧ (t.tslot n).enc = (s.tslot n).enc ++
          [(le 8 8 : Int) - 315964819000000000 - (s.timView TIM_GPTP_OFFSET).toInt]) ∧
      (2 ≤ le 18 2 → Gives (.slotFragment d) s fun t => ∃ a, (t.tslot n).asm = some a ∧ a.seq = le 4 4 ∧ a.frags = le 18 2 ∧
        a.length = le 24 4))) ∧
  (∀ s : State, Idle s .TBL → (s.tblRun = true → Gives .tblStart s fun t => Ended t .TBL 1 .ok ∧ t.tbl = s.tbl) ∧
    (s.tblRun = false → Gives .tblStart s fun t =>
      if s.tblRefusal = .ok then Running s t .TBL 1 ∧ t.tblStarting = true ∧
        t.bit .TBL TBL_STATUS 4 = false ∧ t.tbl.trk = SMap.empty ∧ t.tbl.trust = SMap.empty ∧ t.tbl.startAt = s.now ∧
        t.tbl.slots = s.f .TBL TBL_SLOTS 15 0 ∧
        t.bit .TBL TBL_STATUS 3 = decide (7 ≤ (bitsOf (s.f .TBL TBL_SLOTS 15 0) 16).length)
      else Ended t .TBL 1 s.tblRefusal ∧ t.tbl = s.tbl)) ∧
  (∀ s : State, s.mode = 0 → s.bit .SYS SYS_MODE 7 = false → s.tblRefusal = .refusedMode) ∧
  (∀ s : State, Idle s .TBL → (s.tblRun = true → s.tbl.cyc.isSome = true → Gives .tblStop s fun t => Running s t .TBL 2 ∧
      t.bit .TBL TBL_STATUS 2 = true ∧ t.tblRun = true) ∧
    (s.tblRun = false ∨ s.tbl.cyc = none → Gives .tblStop s fun t => Ended t .TBL 2 .ok ∧ t.tblRun = false ∧
      t.bit .TBL TBL_STATUS 3 = s.bit .TBL TBL_STATUS 3)) ∧
  (∀ s : State, Idle s .TBL →
    let mask := s.f .TBL 0x4 15 0
    let kind := fun n => slotKind (if s.tblRun && s.tbl.enabled n then (s.tslot n).cfg else s.rd .TBL (TBL_SLOT_CFG n))
    let r := firstRefusal ((bitsOf mask 16).map fun n => alignCheck (kind n) (s.alignBytes n (!s.alignActive n)))
    (r ≠ .ok → Gives .alignSwap s fun t => Ended t .TBL 3 r ∧ ∀ n, n < 16 → t.alignActive n = s.alignActive n) ∧
    (r = .ok → s.tblRun = true → Gives .alignSwap s fun t => Running s t .TBL 3 ∧ t.tbl.swap = some mask ∧
      ∀ n, n < 16 → t.alignActive n = s.alignActive n ∧ (mask.testBit n = true → t.bit .TBL (TBL_SLOT_BANK n) 2 = true)) ∧
    (r = .ok → s.tblRun = false → Gives .alignSwap s fun t => Ended t .TBL 3 .ok ∧ t.bit .TBL 0x24 8 = true ∧
      ∀ n, n < 16 → t.alignActive n = (s.alignActive n ^^ mask.testBit n))) ∧
  (∀ s : State, (s.mailOf .TBL).code = 3 →
    fld (arg (s.mailOf .TBL).args 0) 15 0 &&& s.f .TBL 0x4 15 0 ≠ 0 → Gives .tblSwapCancel s fun t => Ended t .TBL 4 .ok ∧
      Idle t .TBL ∧ t.tbl.swap = none ∧ ∀ n, n < 16 → t.alignActive n = s.alignActive n ∧
        ((fld (arg (s.mailOf .TBL).args 0) 15 0).testBit n = true → t.bit .TBL (TBL_SLOT_BANK n) 2 = false)) ∧
  (∀ s : State, Idle s .TBL → Gives .tblSwapCancel s fun t => Ended t .TBL 4 .ok ∧ t.tbl = s.tbl) ∧
  (∀ s : State, Idle s .TBL → (s.mode = 1 ∨ s.mode = 5 → Gives .trustReset s fun t => Ended t .TBL 5 .ok ∧
      t.tbl.trustReset = true ∧ t.tbl.trust = s.tbl.trust) ∧
    (s.mode ≠ 1 → s.mode ≠ 5 → Gives .trustReset s fun t => Ended t .TBL 5 .refusedMode ∧ t.tbl = s.tbl)) ∧
  (∀ s : State, Idle s .TBL → Gives .tblClearCounts s fun t => Ended t .TBL 6 .ok ∧
    (s.bit .TBL 0x4 0 = true → ∀ n, n < 16 → t.rd .TBL (TBL_SLOT_SAMPLES n) = 0 ∧ t.rd .TBL (TBL_SLOT_LATE n) = 0 ∧
      t.rd .TBL (TBL_SLOT_ERR n) = 0) ∧
    (s.bit .TBL 0x4 1 = true → t.rd .TBL TBL_SKIP = 0 ∧ t.rd .TBL TBL_OVF = 0 ∧ t.rd .TBL TBL_TIMING = 0) ∧
    (s.bit .TBL 0x4 2 = true → t.rd .TBL TBL_KAT = 0) ∧ (s.bit .TBL 0x4 3 = true → t.bit .TBL TBL_STATUS 7 = false))

/-- The tick, the poses and the journal of the field map (R351, R354, R357, R359, R361). Where the spec is silent the
statement follows the model's choice: assumption log 4, 55, 56, 164 and 165. -/
def Obligations.MapEngine : Prop :=
  (∀ (s : State) (u : Nat), u % 10000000 ≠ 0 ∨ u < s.now → exec (.mapTick u) s = .next s) ∧
  (∀ (s : State) (u : Nat), u % 10000000 = 0 → s.now ≤ u → s.mapState ≠ 2 → Gives (.mapTick u) s fun t =>
    t.now = u ∧ t.mem = s.mem ∧ t.map.line = s.map.line) ∧
  (∀ (s : State) (u : Nat), u % 10000000 = 0 → s.now ≤ u →
    (s.map.staged = none → Gives (.mapTick u) s fun t => t.map.calN = s.map.calN ∧ t.map.cal = s.map.cal) ∧
    (∀ n cal, s.map.staged = some (n, cal) → Gives (.mapTick u) s fun t => t.map.calN = n ∧ t.map.cal = cal ∧
      t.map.staged = none ∧ t.bit .MAP MAP_STATUS 6 = decide (n = 0) ∧ ((s.mailOf .MAP).code = 5 → Ended t .MAP 5 .ok)) ∧
    (∀ z n v, s.map.zero = some (z, n, v) → Gives (.mapTick u) s fun t => t.map.zero = some (z, n + 1,
      v + ((s.ainSource (s.f .MAP MAP_YIELD_SRC 29 24)).1 - (s.ainSource (s.f .MAP MAP_YIELD_SRC 21 16)).1)))) ∧
  (∀ (s : State) (u : Nat) (w : MapWork), u % 10000000 = 0 → s.now ≤ u → s.mapState = 2 → s.map.work = some w →
    s.mode ≠ 2 → s.mode ≠ 3 → s.mode ≠ 4 → s.map.line.cells = [] → Gives (.mapTick u) s fun t => t.now = u ∧
      t.rdN .MAP MAP_TICK = min 0xFFFFFFFF (w.tick + 1) ∧ t.bit .MAP MAP_STATUS 4 = false ∧ t.mem = s.mem) ∧
  (∀ (s : State) (u : Nat), u % 10000000 = 0 → s.now ≤ u → s.mapState = 2 → s.mode ∈ [2, 3, 4] →
    s.bit .MAP MAP_STATUS 3 = false → s.map.poses = [] → s.map.line.cells = [] → Gives (.mapTick u) s fun t =>
      t.bit .MAP MAP_STATUS 4 = false ∧ t.bit .MAP MAP_STATUS 5 = true ∧ t.map.lostPose = s.map.lostPose + 1 ∧
      t.mem = s.mem ∧ (s.bit .MAP MAP_STATUS 5 = false → t.bit .MAP 0x24 3 = true)) ∧
  (∀ (s : State) (v : Word), 2 ^ 32 ≤ s.now → Gives (.poseGo v) s fun t => ∃ p, t.map.poses = p :: s.map.poses.take 1 ∧
    p.x = (s.rd .MAP MAP_POSE_X).toInt ∧ p.y = (s.rd .MAP MAP_POSE_Y).toInt ∧ p.hdg = s.rdN .MAP MAP_POSE_HDG ∧
    p.acc = s.f .MAP MAP_POSE_ACC 15 0 ∧ p.t % 2 ^ 32 = v.toNat ∧ p.t ≤ s.now + 2 ^ 31 ∧ s.now < p.t + 2 ^ 31) ∧
  (∀ s : State, s.mapState ≠ 2 ∨ s.map.writing.isSome = true ∨ s.map.dirty = [] → exec .journalPeriod s = .next s) ∧
  (∀ s : State, s.mapState = 2 → s.map.writing = none → s.map.dirty ≠ [] → Gives .journalPeriod s fun t =>
    t.map.writing = some s.map.dirty ∧ t.map.dirty = [] ∧ t.bit .MAP MAP_STATUS 8 = true ∧ t.bit .MAP MAP_STATUS 9 = false) ∧
  (∀ (s : State) (good : Bool), s.map.writing = none → exec (.mapJournal good) s = .next s) ∧
  (∀ (s : State) (good : Bool) (l : List Nat), s.map.writing = some l → good = false ∨ s.emmcOk = false →
    Gives (.mapJournal good) s fun t => t.map.writing = none ∧ t.map.dirty = mergeLists l s.map.dirty ∧
      t.bit .MAP 0x24 1 = true ∧ t.bit .MAP MAP_STATUS 8 = false ∧ t.emmc = s.emmc) ∧
  (∀ (s : State) (l : List Nat), s.map.writing = some l → s.emmcOk = true → s.entryFits l = false →
    Gives (.mapJournal true) s fun t => t.bit .MAP 0x24 5 = true ∧ t.map = s.map ∧ t.emmc = s.emmc) ∧
  (∀ (s : State) (l : List Nat), s.map.writing = some l → s.emmcOk = true → s.entryFits l = true →
    Gives (.mapJournal true) s fun t => t.rd .MAP MAP_JRNL_SEQ = wordN s.map.seq ∧ t.bit .MAP 0x24 0 = true ∧
      t.map.seq = s.map.seq + 1 ∧ t.map.used = s.map.used + entrySectors (min 28672 l.length) ∧
      t.map.writing = (if l.length ≤ 28672 then none else some (l.drop 28672))) ∧
  (∀ s : State, s.map.compact = none ∨ s.map.work = none → exec .compactDone s = .next s) ∧
  (∀ (s : State) (w : MapWork) (sq off before k : Nat), s.map.compact = some (sq, off, before) → s.map.work = some w →
    k = (match s.baseInUse with | some (0, _) => 1 | _ => 0) → Gives .compactDone s fun t =>
      t.map.base.get none k = some { id := w.id, seq := sq, off := off, empty := false, tick := w.tick, desc := w.desc } ∧
      t.map.compact = none ∧ t.map.used = s.map.used - before ∧ t.bit .MAP MAP_STATUS 7 = false ∧
      t.bit .MAP MAP_STATUS 9 = false ∧ t.bit .MAP 0x24 6 = true ∧
      ∀ i, i < mapBytes → t.emmc.get 0 (s.imageByte k + i) = t.rdB (mapBase + i))

/-- The commands of MAP, and what ends them (R350, R351, R357, R363, R364, R366, Table 14-10). Where the spec is silent the
statement follows the model's choice: assumption log 4, 55 and 162. -/
def Obligations.MapCommands : Prop :=
  (∀ s : State, Idle s .MAP → s.mapState ≠ 0 → Gives .mapStart s fun t => Ended t .MAP 1 .ok ∧ t.map = s.map) ∧
  (∀ s : State, Idle s .MAP → s.mapState = 0 → s.mapRefusal ≠ .ok → Gives .mapStart s fun t =>
    Ended t .MAP 1 s.mapRefusal ∧ t.map = s.map) ∧
  (∀ s : State, s.mode = 0 → s.bit .SYS SYS_MODE 7 = false → s.mapRefusal = .refusedMode) ∧
  (∀ s : State, Idle s .MAP → s.mapState = 0 → s.mapRefusal = .ok → s.workValid = true → Gives .mapStart s fun t =>
    Ended t .MAP 1 .ok ∧ t.mapState = 2 ∧ t.mem = s.mem ∧ t.map.work = s.map.work) ∧
  (∀ s : State, Idle s .MAP → s.mapState = 0 → s.mapRefusal = .ok → s.workValid = false → Gives .mapStart s fun t =>
    Running s t .MAP 1 ∧ t.mapState = 1) ∧
  (∀ s : State, s.mapState ≠ 1 → exec .restoreDone s = .next s) ∧
  (∀ s : State, s.mapState = 1 → s.baseInUse = none → (s.mailOf .MAP).code = 1 → Gives .restoreDone s fun t =>
    t.mapState = 0 ∧ Ended t .MAP 1 .badBlock) ∧
  (∀ (s : State) (k : Nat) (b : MapBase), s.mapState = 1 → s.baseInUse = some (k, b) → b.empty = true →
    s.entryAt b.id b.off b.seq = none → Gives .restoreDone s fun t => t.mapState = 2 ∧
      t.rd .MAP MAP_TICK = wordN (b.tick + 201) ∧ t.rd .MAP MAP_ID = wordN b.id ∧ t.map.seq = b.seq ∧ t.map.head = b.off ∧
      t.map.dirty = [] ∧ (∀ i, i < mapBytes → t.rdB (mapBase + i) = 0) ∧
      ((s.mailOf .MAP).code = 1 → Ended t .MAP 1 .ok)) ∧
  (∀ s : State, Idle s .MAP → s.mapState = 2 → Gives .mapStop s fun t => Running s t .MAP 2 ∧
    t.bit .MAP MAP_STATUS 3 = true ∧ t.bit .MAP MAP_STATUS 4 = false) ∧
  (∀ s : State, Idle s .MAP → s.mapState ≠ 2 → Gives .mapStop s fun t => Ended t .MAP 2 .ok ∧ t.map = s.map) ∧
  (∀ s : State, s.bit .MAP MAP_STATUS 3 = false ∨ s.map.line.cells ≠ [] → exec .mapStopDone s = .next s) ∧
  (∀ s : State, s.bit .MAP MAP_STATUS 3 = true → s.map.line.cells = [] → Gives .mapStopDone s fun t =>
    t.mapState = 0 ∧ t.bit .MAP MAP_STATUS 3 = false ∧ t.bit .MAP MAP_STATUS 8 = false ∧ t.map.writing = none ∧
    ((s.mailOf .MAP).code = 2 → Ended t .MAP 2 .ok) ∧ (s.emmcOk = false → t.bit .MAP 0x24 1 = true ∧ t.emmc = s.emmc) ∧
    (s.emmcOk = true → s.map.dirty = [] → s.map.writing = none → s.entryFits [] = false →
      t.bit .MAP 0x24 5 = true ∧ t.map.seq = s.map.seq) ∧
    (s.emmcOk = true → s.map.dirty = [] → s.map.writing = none → s.entryFits [] = true →
      t.rd .MAP MAP_JRNL_SEQ = wordN s.map.seq ∧ t.map.seq = s.map.seq + 1 ∧ t.bit .MAP 0x24 0 = true)) ∧
  (∀ s : State, Idle s .MAP →
    (s.mode ≠ 1 → s.mode ≠ 5 → Gives .mapNew s fun t => Ended t .MAP 3 .refusedMode ∧ t.map = s.map) ∧
    (s.mode = 1 ∨ s.mode = 5 → s.mapState ≠ 0 → Gives .mapNew s fun t => Ended t .MAP 3 .locked ∧ t.map = s.map) ∧
    (s.mode = 1 ∨ s.mode = 5 → s.mapState = 0 → s.emmcOk = false → Gives .mapNew s fun t =>
      Ended t .MAP 3 .refusedTemp ∧ t.map = s.map) ∧
    (s.mode = 1 ∨ s.mode = 5 → s.mapState = 0 → s.emmcOk = true →
      s.engBad (s.f .MAP 0xC 7 0 * 2 ^ 32 + s.rdN .MAP 0x8) 64 = true → Gives .mapNew s fun t =>
      Ended t .MAP 3 .badBlock ∧ t.map = s.map) ∧
    (s.mode = 1 ∨ s.mode = 5 → s.mapState = 0 → s.emmcOk = true →
      s.engBad (s.f .MAP 0xC 7 0 * 2 ^ 32 + s.rdN .MAP 0x8) 64 = false → Gives .mapNew s fun t =>
      Ended t .MAP 3 .ok ∧ t.rd .MAP MAP_ID = s.rd .MAP 0x4 ∧ t.rd .MAP MAP_TICK = 0 ∧ t.rd .MAP MAP_JRNL_SEQ = 0 ∧
      (∀ i, i < mapBytes → t.rdB (mapBase + i) = 0) ∧ (∀ a, a < mapBase ∨ mapBase + mapBytes ≤ a → t.rdB a = s.rdB a) ∧
      t.map.dirty = [] ∧ t.map.used = 0 ∧ (∃ b, t.map.base.get none 0 = some b ∧ b.id = s.rdN .MAP 0x4 ∧ b.empty = true) ∧
      t.map.base.get none 1 = none)) ∧
  (∀ (s : State) (w h : Nat), Idle s .MAP → w = s.f .MAP 0x8 10 0 → h = s.f .MAP 0x8 26 16 →
    (w = 0 ∨ 1024 < w ∨ h = 0 ∨ 1024 < h ∨ 4096 < s.f .MAP 0x4 11 0 + w ∨ 8192 < s.f .MAP 0x4 28 16 + h →
      Gives .windowRead s fun t => Ended t .MAP 4 .badHeader ∧ t.mem = s.mem) ∧
    (1 ≤ w → w ≤ 1024 → 1 ≤ h → h ≤ 1024 → s.f .MAP 0x4 11 0 + w ≤ 4096 → s.f .MAP 0x4 28 16 + h ≤ 8192 →
      Gives .windowRead s fun t => Ended t .MAP 4 .ok ∧
        (Memory.wf s.mem = true → (∀ a, s.poison.get false a = false) → (∀ a, s.latent.get 0 a = 0) →
        s.f .MAP 0x10 7 0 * 2 ^ 32 + s.f .MAP 0xC 31 6 * 64 + w * h * 32 ≤ 0x3E0000000 → ∀ x y i, x < w → y < h → i < 32 →
          t.rdB (s.f .MAP 0x10 7 0 * 2 ^ 32 + s.f .MAP 0xC 31 6 * 64 + (y * w + x) * 32 + i) =
            s.rdB (mapBase + ((s.f .MAP 0x4 28 16 + y) * 4096 + (s.f .MAP 0x4 11 0 + x)) * 32 + i)))) ∧
  (∀ s : State, Idle s .MAP → s.f .MAP MAP_CAL_N 3 0 = 0 → Gives .calApply s fun t => Running s t .MAP 5 ∧
    t.map.staged = some (0, (upto 9).map fun k => s.rd .MAP (MAP_CAL k)) ∧ t.map.calN = s.map.calN) ∧
  (∀ (s : State) (n : Nat), Idle s .MAP → n = s.f .MAP MAP_CAL_N 3 0 → 1 ≤ n → n ≤ 8 → s.rd .MAP (MAP_CAL 0) = 0 →
    (∀ k, k < n → s.f .MAP (MAP_CAL k) 15 0 < s.f .MAP (MAP_CAL (k + 1)) 15 0) → Gives .calApply s fun t =>
    Running s t .MAP 5 ∧ t.map.staged = some (n, (upto 9).map fun k => s.rd .MAP (MAP_CAL k)) ∧ t.map.calN = s.map.calN) ∧
  (∀ s : State, Idle s .MAP → 8 < s.f .MAP MAP_CAL_N 3 0 ∨ (s.f .MAP MAP_CAL_N 3 0 ≠ 0 ∧ s.rd .MAP (MAP_CAL 0) ≠ 0) ∨
    (∃ k, k < s.f .MAP MAP_CAL_N 3 0 ∧ s.f .MAP (MAP_CAL (k + 1)) 15 0 ≤ s.f .MAP (MAP_CAL k) 15 0) →
    Gives .calApply s fun t => Ended t .MAP 5 .badHeader ∧ t.map = s.map) ∧
  (∀ s : State, Idle s .MAP →
    (s.rd .MAP MAP_SECTIONS = 0 → s.f .MAP MAP_ELEV 15 0 * 10 ≤ s.rdN .AIO (AIO_FIN_FREQ (s.f .MAP MAP_YIELD_SRC 4 0)) →
      Gives .mapZero s fun t => Running s t .MAP 6 ∧ t.map.zero = some (s.now, 0, 0)) ∧
    (s.rd .MAP MAP_SECTIONS ≠ 0 ∨ s.rdN .AIO (AIO_FIN_FREQ (s.f .MAP MAP_YIELD_SRC 4 0)) < s.f .MAP MAP_ELEV 15 0 * 10 →
      Gives .mapZero s (Ended · .MAP 6 .refusedMode))) ∧
  (∀ (s : State) (ps : List (Int × Int)), s.map.zero = none → exec (.zeroDone ps) s = .next s) ∧
  (∀ (s : State) (ps : List (Int × Int)) (z n : Nat) (v : Int), s.map.zero = some (z, n, v) → Gives (.zeroDone ps) s fun t => t.map.zero = none ∧
    t.now = max s.now (z + 5000000000) ∧ ((s.mailOf .MAP).code = 6 → Ended t .MAP 6 .ok) ∧
    (0 < n + ps.length →
      t.rd .MAP MAP_ZERO = wordI (roundDiv ((v + (ps.map fun p => p.1 - p.2).sum) * 1000000) (65536 * (n + ps.length))))) ∧
  (∀ s : State, Idle s .MAP → Gives .mapClearCounts s fun t => Ended t .MAP 7 .ok ∧
    (s.bit .MAP 0x4 0 = true → t.rd .MAP MAP_ERRS = 0 ∧ t.map.lostPose = 0 ∧ t.map.lostFlow = 0) ∧
    (s.bit .MAP 0x4 0 = false → t.rd .MAP MAP_ERRS = s.rd .MAP MAP_ERRS) ∧
    t.rd .MAP MAP_WIN_BAD = if s.bit .MAP 0x4 1 then 0 else s.rd .MAP MAP_WIN_BAD)

/-- Power-up, power-down, plug and rails of the panel (R367, R376–R380, Sequence 15-2). Where the spec is silent the
statement follows the model's choice: assumption log 4 and 65. -/
def Obligations.PanelPower : Prop :=
  (∀ (s : State) (low : Bool) (h : List Byte), Idle s .PNL → s.mode = 0 → Gives (.pnlStart low h) s fun t =>
    Ended t .PNL 1 .refusedMode ∧ t.pnlState = s.pnlState) ∧
  (∀ (s : State) (low : Bool) (h : List Byte), Idle s .PNL → s.mode ≠ 0 → s.pnlState = 2 → Gives (.pnlStart low h) s fun t =>
    Ended t .PNL 1 .ok ∧ t.pnlState = 2) ∧
  (∀ (s : State) (h : List Byte), Idle s .PNL → s.mode ≠ 0 → s.pnlState ≠ 2 → Gives (.pnlStart false h) s fun t =>
    Ended t .PNL 1 .aborted ∧ t.pnlState = s.pnlState ∧ t.bit .PNL PNL_STATUS 4 = false) ∧
  (∀ (s : State) (h : List Byte), Idle s .PNL → s.mode ≠ 0 → s.pnlState ≠ 2 → h.length = 256 →
    (hdrOk h = false → Gives (.pnlStart true h) s (Ended · .PNL 1 .badBlock)) ∧
    (hdrOk h = true → linkVersion h = none → Gives (.pnlStart true h) s fun t => Ended t .PNL 1 .incompatible ∧
      t.pnlState = 4) ∧
    (∀ v, hdrOk h = true → linkVersion h = some v →
      ((∃ c ∈ s.pnlCurves h, rising c = false) → Gives (.pnlStart true h) s (Ended · .PNL 1 .badHeader)) ∧
      ((∀ c ∈ s.pnlCurves h, rising c = true) → Gives (.pnlStart true h) s fun t => Running s t .PNL 1 ∧ t.pnlState = 1 ∧
        t.f .PNL PNL_VERSION 15 8 = v.1 ∧ t.f .PNL PNL_VERSION 7 0 = v.2 ∧ t.rd .PNL PNL_FRAME_NO = 0 ∧
        t.railTarget 0 = 15600 ∧ (s.islState 23 = 0 → t.islState 23 = 1)))) ∧
  (∀ s : State, Idle s .PNL → s.pnlState = 0 → Gives .pnlStop s fun t => Ended t .PNL 2 .ok ∧ t.pnlState = 0) ∧
  (∀ s : State, Idle s .PNL ∨ (s.mailOf .PNL).code = 1 → s.pnlState = 1 ∨ s.pnlState = 2 → Gives .pnlStop s fun t =>
    Running s t .PNL 2 ∧ t.pnlState = 3 ∧ t.bit .PNL PNL_STATUS 7 = false) ∧
  (∀ s : State, Idle s .PNL → s.pnlState = 4 → Gives .pnlStop s fun t => Ended t .PNL 2 .ok ∧ t.pnlState = 0) ∧
  (∀ s : State, s.islState 23 = 2 → s.pnlState = 3 → 2 ≤ s.pnl.step → Gives .vsync s fun t => t.pnlState = 0 ∧
    (∀ r, r < 4 → t.rd .PNL (PNL_RAIL_STATUS r) = 0) ∧ ((s.mailOf .PNL).code = 2 → Ended t .PNL 2 .ok)) ∧
  (∀ s : State, s.islState 23 = 2 → s.pnlState = 3 → s.pnl.step = 1 → Gives .vsync s fun t => t.pnlState = 3 ∧
    t.railTarget 3 = 0 ∧ t.pnl.step = 2 ∧ t.pnl.allOn = true ∧ t.pnl.lanes = List.replicate 8 (linkPacket 0x31 [])) ∧
  (∀ s : State, s.pnlState = 0 → Gives .panelUnplug s fun t => t.bit .PNL PNL_STATUS 4 = false ∧
    t.rd .PNL 0x24 = s.rd .PNL 0x24 ∧ t.pnl = s.pnl) ∧
  (∀ s : State, s.pnlState ≠ 0 → Gives .panelUnplug s fun t => t.bit .PNL PNL_STATUS 4 = false ∧ t.pnlState = 0 ∧
    t.bit .PNL 0x24 3 = true ∧ (∀ r, r < 4 → t.rd .PNL (PNL_RAIL_STATUS r) = 0) ∧
    (s.pnlState ≠ 4 → t.pnl.lanes = List.replicate 8 (linkPacket 0x31 []) ∧ t.pnl.shorted = true) ∧
    ∀ c, c = 1 ∨ c = 3 → (s.mailOf .PNL).code = c → Ended t .PNL c .aborted) ∧
  (∀ s : State, s.bit .PNL PNL_STATUS 4 = true → exec .panelPlugIn s = .next s) ∧
  (∀ s : State, s.bit .PNL PNL_STATUS 4 = false → Gives .panelPlugIn s fun t => t.bit .PNL PNL_STATUS 4 = true ∧
    t.bit .PNL 0x24 3 = true ∧ t.pnlState = s.pnlState) ∧
  (∀ (s : State) (r : Fin 4) (mv : Int), s.pnlState ≠ 1 → s.pnlState ≠ 2 → exec (.pnlRail r mv) s = .next s) ∧
  (∀ (s : State) (r : Fin 4) (mv : Int), s.pnlState = 1 ∨ s.pnlState = 2 →
    let off := (mv - s.railTarget r.val).natAbs
    let most := if r.val = 3 then 200 else (s.railTarget r.val).natAbs / 20
    (off ≤ most → Gives (.pnlRail r mv) s fun t => t.rd .PNL PNL_STATUS = s.rd .PNL PNL_STATUS ∧
      t.f .PNL (PNL_RAIL_STATUS r.val) 15 0 = ofSigned 16 mv ∧ t.railTarget r.val = s.railTarget r.val) ∧
    (most < off → Gives (.pnlRail r mv) s fun t => t.bit .PNL PNL_STATUS 6 = true ∧ t.bit .PNL 0x24 4 = true ∧
      t.pnlState = 3 ∧ ∀ c, c = 1 ∨ c = 3 → (s.mailOf .PNL).code = c → Ended t .PNL c .aborted))

/-- Refreshes, flips, checks, uniformity, backlight and the panel bus (R369–R374, R381–R383, Table 15-7). Where the spec is
silent the statement follows the model's choice: assumption log 4, 65, 66, 167 and 168. -/
def Obligations.PanelFrames : Prop :=
  (∀ s : State, s.islState 23 ≠ 2 ∨ s.pnlState ∉ [1, 2, 3] → exec .vsync s = .next s) ∧
  (∀ s : State, s.islState 23 = 2 → (s.pnlState = 1 ∧ s.pnl.step < 2) ∨ (s.pnlState = 3 ∧ s.pnl.step = 0) →
    Gives .vsync s fun t => t.pnlState = s.pnlState ∧ t.pnl.step = s.pnl.step + 1 ∧
      t.rd .PNL PNL_FRAME_NO = s.rd .PNL PNL_FRAME_NO + 1 ∧
      t.bit .PNL PNL_STATUS 8 = !s.bit .PNL PNL_STATUS 8 ∧ t.bit .PNL 0x24 0 = true ∧ t.pnl.shown = s.pnl.shown) ∧
  (∀ s : State, s.islState 23 = 2 → s.pnlState = 1 → 2 ≤ s.pnl.step → Gives .vsync s fun t => t.pnlState = 2 ∧
    t.bit .PNL 0x24 0 = true ∧ t.pnl.shown = (if s.pnl.flip.isSome then s.pnl.flip else s.pnl.shown) ∧ t.pnl.flip = none ∧
    ((s.mailOf .PNL).code = 1 → Ended t .PNL 1 .ok)) ∧
  (∀ s : State, s.islState 23 = 2 → s.pnlState = 2 → s.pnl.slots + 1 < s.pnl.n →
    (s.bit .PNL PNL_CFG 1 = false ∨ s.pnl.flip = none) → Gives .vsync s fun t => t.regs = s.regs ∧
      t.pnl = { s.pnl with slots := s.pnl.slots + 1, lanes := [] }) ∧
  (∀ s : State, s.islState 23 = 2 → s.pnlState = 2 →
    s.pnl.n ≤ s.pnl.slots + 1 ∨ (s.bit .PNL PNL_CFG 1 = true ∧ s.pnl.flip ≠ none) → Gives .vsync s fun t =>
      t.pnlState = 2 ∧ t.rd .PNL PNL_FRAME_NO = s.rd .PNL PNL_FRAME_NO + 1 ∧ t.pnl.slots = 0 ∧ t.pnl.n = s.pnlN ∧
      t.bit .PNL PNL_STATUS 8 = !s.bit .PNL PNL_STATUS 8 ∧ t.bit .PNL 0x24 0 = true ∧ t.pnl.flip = none ∧
      (s.pnl.flip = none → t.pnl.shown = s.pnl.shown) ∧
      (s.pnl.flip ≠ none → t.pnl.shown = s.pnl.flip ∧ t.bit .PNL 0x24 1 = true) ∧
      (let rows := rowsOf 1200 (match t.pnl.shown with | some (b, _) => s.shownRows b | none => List.replicate 6912000 0)
       t.pnl.lanes = (upto 8).map fun l => startPackets l (t.rdN .PNL PNL_FRAME_NO) (t.bit .PNL PNL_STATUS 8)
         ((s.pnl.hdr.drop 16).take 16) ++ ((upto 1200).zip rows).flatMap fun r => linePacket l r.1 (t.pnl.corrected r.1 r.2)) ∧
      t.pnl.allOn = false ∧
      (∀ b w, t.pnl.shown = some (b, some w) → t.pnl.scan = some (crc32 (s.shownRows b), w)) ∧
      ∀ u, s.pnl.ready = some u → t.pnl.ready = none ∧ t.rd .PNL PNL_UNI_CRC = wordN u.crc ∧
        t.bit .PNL PNL_UNI_STATUS 0 = decide (u.src ≠ 0) ∧ ((s.mailOf .PNL).code = 3 → Ended t .PNL 3 .ok)) ∧
  (∀ (s : State) (v : Word), Gives (.pnlFlipWrite v) s fun t => t.pnl.shown = s.pnl.shown ∧
    t.pnl.flip = some (fld v 0 0, if bitOf v 8 then some (s.rd .PNL PNL_FLIP_CRC) else none) ∧
    t.f .PNL PNL_COUNTS 15 0 = if s.pnl.flip.isSome then min 65535 (s.f .PNL PNL_COUNTS 15 0 + 1) else s.f .PNL PNL_COUNTS 15 0) ∧
  (∀ s : State, s.pnlState ≠ 2 ∨ s.pnl.scan = none → exec .frameCrc s = .next s) ∧
  (∀ (s : State) (c : Nat) (w : Word), s.pnlState = 2 → s.pnl.scan = some (c, w) →
    Gives .frameCrc s fun t => t.rd .PNL PNL_CRC_LAST = wordN c ∧ t.pnl.scan = none ∧
      if c = w.toNat then t.rd .PNL PNL_COUNTS = s.rd .PNL PNL_COUNTS ∧ t.rd .PNL 0x24 = s.rd .PNL 0x24
      else t.f .PNL PNL_COUNTS 31 16 = min 65535 (s.f .PNL PNL_COUNTS 31 16 + 1) ∧ t.bit .PNL 0x24 2 = true) ∧
  (∀ s : State, Idle s .PNL → s.pnlState ≠ 2 → Gives .uniformLoad s (Ended · .PNL 3 .refusedMode)) ∧
  (∀ s : State, Idle s .PNL → s.pnlState = 2 →
    (s.f .PNL 0x4 1 0 = 3 → Gives .uniformLoad s fun t => Running s t .PNL 3 ∧ t.pnl.ready = some { src := 0, crc := 0 }) ∧
    (s.f .PNL 0x4 1 0 ≠ 3 → s.uniSource (s.f .PNL 0x4 1 0) = none → Gives .uniformLoad s (Ended · .PNL 3 .badBlock)) ∧
    (∀ k, s.f .PNL 0x4 1 0 ≠ 3 → s.uniSource (s.f .PNL 0x4 1 0) = some k → Gives .uniformLoad s fun t =>
      Running s t .PNL 3 ∧ t.pnl.load = some (k, true) ∧ t.bit .PNL PNL_UNI_STATUS 1 = true)) ∧
  (∀ (s : State) (d : List Byte), s.pnl.load = none → exec (.uniformityLoadDone d) s = .next s) ∧
  (∀ (s : State) (d : List Byte) (a : Bool), s.pnl.load = some (1, a) → d.length = uniBytes →
    Gives (.uniformityLoadDone d) s fun t => t.pnl.load = none ∧ t.bit .PNL PNL_UNI_STATUS 1 = false ∧
      (s.uniBase + uniBytes ≤ 0x3E0000000 → ∀ i, i < uniBytes → t.rdB (s.uniBase + i) = d.getD i 0) ∧
      if crc32c d = hdrN s.pnl.hdr 144 4 then t.pnl.ready = some { src := 1, crc := crc32c d, maps := d }
      else t.pnl.ready = s.pnl.ready ∧ ((s.mailOf .PNL).code = 3 → Ended t .PNL 3 .badBlock)) ∧
  (∀ (s : State) (k : Fin 6) (bla : Nat) (c : List Nat), s.pnlState ≠ 2 ∨ k.val ∉ s.blStrings →
    exec (.pnlBacklight k bla c) s = .next s) ∧
  (∀ (s : State) (k : Fin 6) (bla : Nat) (c : List Nat), s.pnlState = 2 → k.val ∈ s.blStrings →
    (c.getD k.val 0 ≤ 300 → 48000 ≤ bla → Gives (.pnlBacklight k bla c) s fun t => t.bit .PNL PNL_BL_FLAGS k.val = true ∧
      t.bit .PNL 0x24 5 = true ∧ t.f .PNL (PNL_BL_S_STATUS k.val) 15 0 = 0) ∧
    ((∃ j ∈ s.blStrings, c.getD j 0 + 10000 ≤ c.getD k.val 0) → Gives (.pnlBacklight k bla c) s fun t =>
      t.bit .PNL PNL_BL_FLAGS (8 + k.val) = true ∧ t.bit .PNL 0x24 5 = true ∧ t.f .PNL (PNL_BL_S_STATUS k.val) 15 0 = 0) ∧
    (300 < c.getD k.val 0 ∨ bla < 48000 → (∀ j ∈ s.blStrings, c.getD k.val 0 < c.getD j 0 + 10000) →
      Gives (.pnlBacklight k bla c) s fun t => t.f .PNL PNL_BL_FLAGS 15 0 = s.f .PNL PNL_BL_FLAGS 15 0 ∧
        t.rd .PNL 0x24 = s.rd .PNL 0x24)) ∧
  (∀ s : State, Idle s .PNL → Gives .blReset s fun t => Ended t .PNL 5 .ok ∧ t.f .PNL PNL_BL_FLAGS 15 0 = 0) ∧
  (∀ (s : State) (ack : Bool) (d : List Byte), Idle s .PNL →
    let n := s.f .PNL 0x4 21 16
    (32 < s.f .PNL 0x4 13 8 ∨ 32 < n → Gives (.i2cXfer ack d) s fun t => Ended t .PNL 4 .badHeader ∧ t.mem = s.mem) ∧
    (s.f .PNL 0x4 13 8 ≤ 32 → n ≤ 32 → s.f .PNL 0x4 6 0 = 0x50 → 4 < s.f .PNL 0x4 13 8 → Gives (.i2cXfer ack d) s fun t =>
      Ended t .PNL 4 .locked ∧ t.mem = s.mem) ∧
    (s.f .PNL 0x4 13 8 ≤ 32 → n ≤ 32 → s.f .PNL 0x4 6 0 ≠ 0x50 ∨ s.f .PNL 0x4 13 8 ≤ 4 →
      (ack = false → Gives (.i2cXfer ack d) s fun t => Ended t .PNL 4 .aborted ∧ t.mem = s.mem) ∧
      (ack = true → Gives (.i2cXfer ack d) s fun t => Ended t .PNL 4 .ok ∧
        t.pnl.bus = some (s.f .PNL 0x4 6 0, s.rdBytes (s.f .PNL 0xC 7 0 * 2 ^ 32 + s.f .PNL 0x8 31 6 * 64) (s.f .PNL 0x4 13 8)) ∧
        (s.f .PNL 0xC 7 0 * 2 ^ 32 + s.f .PNL 0x8 31 6 * 64 + 64 ≤ 0x3E0000000 → ∀ i, i < n →
        t.rdB (s.f .PNL 0xC 7 0 * 2 ^ 32 + s.f .PNL 0x8 31 6 * 64 + 32 + i) = d.getD i 0)))) ∧
  (∀ s : State, Gives .pnlTouch s fun t => t.bit .PNL 0x24 6 = true ∧ t.pnl = s.pnl) ∧
  (∀ (s : State) (n : Nat), s.pnlMajor ≠ 3 ∨ s.pnlState ≠ 2 → exec (.linkErrRead n) s = .next s) ∧
  (∀ (s : State) (n : Nat), s.pnlMajor = 3 → s.pnlState = 2 → Gives (.linkErrRead n) s fun t =>
    t.rdN .PNL PNL_LINK_ERR = min (2 ^ 32 - 1) (s.rdN .PNL PNL_LINK_ERR + n)) ∧
  (∀ s : State, Idle s .PNL → Gives .pnlClearCounts s fun t => Ended t .PNL 6 .ok ∧
    t.rd .PNL PNL_COUNTS = (if s.bit .PNL 0x4 0 then 0 else s.rd .PNL PNL_COUNTS) ∧
    t.rd .PNL PNL_LINK_ERR = if s.bit .PNL 0x4 1 then 0 else s.rd .PNL PNL_LINK_ERR)

/-- Reception, buffers, FIFOs, transmission and error states of the CAN controllers (R387–R392, Table 16-9). Where the spec
is silent the statement follows the model's choice: assumption log 4, 48, 57, 58 and 169. -/
def Obligations.CanFrames : Prop :=
  (∀ (s : State) (n : Fin 8) (u : Nat) (f : CanRx) (bad : Option CanErr), (s.canState n.val ≠ 2 ∧ s.canState n.val ≠ 3) ∨ s.canLive n.val = false →
    exec (.frameReceived n u f bad) s = .next s) ∧
  (∀ (s : State) (n : Fin 8) (u : Nat) (f : CanRx) (e : CanErr), s.canState n.val = 2 ∨ s.canState n.val = 3 →
    s.canLive n.val = true → Gives (.frameReceived n u f (some e)) s fun t =>
      t.f .CAN (CAN_CH_ERRS n.val) 23 0 = min 0xFFFFFF (s.f .CAN (CAN_CH_ERRS n.val) 23 0 + 1) ∧
      t.f .CAN (CAN_CH_STATUS n.val) 7 5 = e.kind.val ∧ t.bit .CAN (CAN_CH_STATUS n.val) 4 = e.dataPhase ∧
      t.canTec n.val = s.canTec n.val ∧
      (s.canCfg n.val 13 = true → t.canRec n.val = s.canRec n.val ∧ t.canState n.val = s.canState n.val) ∧
      (s.canCfg n.val 13 = false → t.canRec n.val = min 255 (s.canRec n.val + 1) ∧
        t.canState n.val = errorState (s.canTec n.val) (s.canRec n.val + 1))) ∧
  (∀ (s : State) (n : Fin 8) (u : Nat) (f : CanRx), s.canState n.val = 2 ∨ s.canState n.val = 3 →
    s.canLive n.val = true → s.canCfg n.val 13 = true ∨ s.canCfg n.val 15 = false →
    let id := if bitOf f.id 31 then f.id &&& 0x9FFFFFFF else f.id &&& 0x7FF
    let hit := fun b => s.mbKind n.val b == 1 &&
      idMatch id (s.rd .CAN (CAN_MB n.val b 1)) (s.rd .CAN (CAN_MB n.val b 2)) (s.bit .CAN (CAN_MB n.val b 1) 31)
    let elt := fun m => s.f .CAN (CAN_CH_FILTER_ID n.val m) 31 30 != 0 && idMatch id (s.rd .CAN (CAN_CH_FILTER_ID n.val m))
      (s.rd .CAN (CAN_CH_FILTER_MASK n.val m)) (s.bit .CAN (CAN_CH_FILTER_ID n.val m) 29)
    (∀ b, b < 128 → hit b = true → (∀ a, a < b → hit a = false) →
      (s.mbBit (CAN_CH_LOCK n.val 0) b = false → Gives (.frameReceived n u f none) s fun t =>
        t.rd .CAN (CAN_MB n.val b 1) = id ∧ t.rd .CAN (CAN_MB n.val b 4) = wordN u ∧
        t.mbBit (CAN_CH_NEW n.val 0) b = true ∧
        (s.mbBit (CAN_CH_NEW n.val 0) b = false → t.bit .CAN (CAN_CH_EVENT n.val) 0 = true) ∧
        (s.mbBit (CAN_CH_NEW n.val 0) b = true → t.bit .CAN (CAN_CH_EVENT n.val) 10 = true ∧
          t.f .CAN (CAN_MB n.val b 0) 23 16 = min 255 (s.f .CAN (CAN_MB n.val b 0) 23 16 + 1) ∧
          t.f .CAN (CAN_CH_LOST n.val) 15 0 = min 65535 (s.f .CAN (CAN_CH_LOST n.val) 15 0 + 1))) ∧
      (s.mbBit (CAN_CH_LOCK n.val 0) b = true → Gives (.frameReceived n u f none) s fun t =>
        (∀ i, 1 ≤ i → i < 24 → t.rd .CAN (CAN_MB n.val b i) = s.rd .CAN (CAN_MB n.val b i)) ∧
        ∃ x, (t.cch n.val).shadow.get none b = some x ∧ x.id = id ∧ x.time = u)) ∧
    ((∀ b, b < 128 → hit b = false) →
      (∀ m q, m < 64 → elt m = true → (∀ a, a < m → elt a = false) → q < 2 →
        s.f .CAN (CAN_CH_FILTER_ID n.val m) 31 30 = 1 + q →
        let held := if q = 0 then (s.cch n.val).fifo0 else (s.cch n.val).fifo1
        (held.length < 64 → Gives (.frameReceived n u f none) s fun t => t.bit .CAN (CAN_CH_EVENT n.val) (1 + q) = true ∧
          ∃ x, (if q = 0 then (t.cch n.val).fifo0 else (t.cch n.val).fifo1) = held ++ [x] ∧ x.id = id ∧ x.time = u) ∧
        (64 ≤ held.length → Gives (.frameReceived n u f none) s fun t => t.bit .CAN (CAN_CH_EVENT n.val) 11 = true ∧
          t.f .CAN (CAN_CH_FIFO_STATUS n.val q) 31 16 = min 65535 (s.f .CAN (CAN_CH_FIFO_STATUS n.val q) 31 16 + 1) ∧
          (if q = 0 then (t.cch n.val).fifo0 else (t.cch n.val).fifo1) = held)) ∧
      ((∀ m, m < 64 → elt m = false) → Gives (.frameReceived n u f none) s fun t =>
        t.f .CAN (CAN_CH_LOST n.val) 31 16 = min 65535 (s.f .CAN (CAN_CH_LOST n.val) 31 16 + 1) ∧
        (s.canCfg n.val 13 = false → t.canRec n.val = if 127 < s.canRec n.val then 127 else s.canRec n.val - 1)))) ∧
  (∀ (s : State) (n : Fin 8) (q : Fin 2) (v : Word), (bitOf v 0 = false → exec (.fifoPop n q v) s = .next s) ∧
    (bitOf v 0 = true → Gives (.fifoPop n q v) s fun t =>
      (t.cch n.val).fifo0 = (if q.val = 0 then (s.cch n.val).fifo0.tail else (s.cch n.val).fifo0) ∧
      (t.cch n.val).fifo1 = if q.val = 0 then (s.cch n.val).fifo1 else (s.cch n.val).fifo1.tail)) ∧
  (∀ (s : State) (n : Fin 8) (b : Fin 128), Gives (.mbLock n b) s fun t => t.mbBit (CAN_CH_LOCK n.val 0) b.val = true ∧
    Stands s t .CAN (fun o => o = CAN_CH_LOCK n.val 0 + 4 * (b.val / 32)) ∧ t.can = s.can) ∧
  (∀ (s : State) (n : Fin 8) (b : Fin 128), s.mbBit (CAN_CH_LOCK n.val 0) b.val = false →
    exec (.mbUnlock n b) s = .next s) ∧
  (∀ (s : State) (n : Fin 8) (b : Fin 128), s.mbBit (CAN_CH_LOCK n.val 0) b.val = true → s.mbKind n.val b.val = 1 →
    ((s.cch n.val).shadow.get none b.val = none → Gives (.mbUnlock n b) s fun t =>
      t.mbBit (CAN_CH_LOCK n.val 0) b.val = false ∧ t.mbBit (CAN_CH_NEW n.val 0) b.val = false) ∧
    (∀ x, (s.cch n.val).shadow.get none b.val = some x → Gives (.mbUnlock n b) s fun t =>
      t.mbBit (CAN_CH_LOCK n.val 0) b.val = false ∧ t.mbBit (CAN_CH_NEW n.val 0) b.val = true ∧
      t.bit .CAN (CAN_CH_EVENT n.val) 0 = true ∧ t.rd .CAN (CAN_MB n.val b.val 1) = x.id ∧
      (t.cch n.val).shadow.get none b.val = none)) ∧
  (∀ (s : State) (n : Fin 8) (b : Fin 128), s.mbBit (CAN_CH_LOCK n.val 0) b.val = true → s.mbKind n.val b.val ≠ 1 →
    Gives (.mbUnlock n b) s fun t => t.mbBit (CAN_CH_LOCK n.val 0) b.val = false ∧
      Stands s t .CAN (fun o => o = CAN_CH_LOCK n.val 0 + 4 * (b.val / 32))) ∧
  (∀ (s : State) (n : Fin 8) (i : Fin 4) (v : Word), Gives (.txreqWrite n i v) s fun t =>
    t.rd .CAN (CAN_CH_TXREQ n.val i.val) = s.rd .CAN (CAN_CH_TXREQ n.val i.val) ||| v ∧
    ((s.cch n.val).tx.isSome = true ∨ s.canCfg n.val 13 = true ∨ (s.canState n.val ≠ 2 ∧ s.canState n.val ≠ 3) ∨
      s.canLive n.val = false → (t.cch n.val).tx = (s.cch n.val).tx) ∧
    ((s.cch n.val).tx = none → s.canCfg n.val 13 = false → s.canState n.val = 2 ∨ s.canState n.val = 3 →
      s.canLive n.val = true → s.canCfg n.val 8 = false → ∀ b, b < 128 → t.mbBit (CAN_CH_TXREQ n.val 0) b = true → t.mbKind n.val b = 2 →
      t.mbBit (CAN_CH_LOCK n.val 0) b = false → ∃ a, (t.cch n.val).tx = some a ∧ a.tt = false ∧
        arbKey a.frame.id a.frame.fmt ≤ arbKey (t.sendable n.val (t.mbFrame n.val b)).id
          (t.sendable n.val (t.mbFrame n.val b)).fmt)) ∧
  (∀ (s : State) (n : Fin 8) (i : Fin 4) (k : Nat), k < 32 →
    let b := 32 * i.val + k
    (∀ a, (s.cch n.val).tx = some a → a.src = b → Gives (.txcancelWrite n i (wordN (2 ^ k))) s fun t =>
      (t.cch n.val).tx = some { a with cancel := true } ∧ t.regs = s.regs) ∧
    ((∀ a, (s.cch n.val).tx = some a → a.src ≠ b) →
      (s.mbBit (CAN_CH_TXREQ n.val 0) b = false → exec (.txcancelWrite n i (wordN (2 ^ k))) s = .next s) ∧
      (s.mbBit (CAN_CH_TXREQ n.val 0) b = true → Gives (.txcancelWrite n i (wordN (2 ^ k))) s fun t =>
        t.mbBit (CAN_CH_TXREQ n.val 0) b = false ∧ t.f .CAN (CAN_MB n.val b 0) 25 24 = 2 ∧ t.can = s.can))) ∧
  (∀ (s : State) (n : Fin 8) (dt : Nat) (r : CanEnd) (d : Fin 128), (s.cch n.val).tx = none ∨ s.canLive n.val = false →
    exec (.txDone n dt r d) s = .next s) ∧
  (∀ (s : State) (n : Fin 8) (dt : Nat) (d : Fin 128) (a : CanTx), (s.cch n.val).tx = some a → a.src < 128 → a.tt = false →
    s.tim.msg = none → s.canLive n.val = true →
    let at_ := (s.pass (s.f .TST (TST_CAN_DELAY n.val) 6 0 * 1000000 + dt)).now
    (Gives (.txDone n dt .sent d) s fun t => t.mbBit (CAN_CH_TXREQ n.val 0) a.src = false ∧
      t.f .CAN (CAN_MB n.val a.src 0) 25 24 = 1 ∧ t.canTec n.val = s.canTec n.val - 1 ∧ t.now = at_ ∧
      t.rd .CAN (CAN_MB n.val a.src 4) = wordN at_ ∧ t.bit .CAN (CAN_CH_EVENT n.val) 3 = true) ∧
    (∀ e, s.canState n.val = 2 ∨ s.canState n.val = 3 →
      let tec := if e.kind.val = 3 ∧ s.canState n.val = 3 then s.canTec n.val else s.canTec n.val + 8
      Gives (.txDone n dt (.error e) d) s fun t =>
      t.f .CAN (CAN_CH_ERRS n.val) 23 0 = min 0xFFFFFF (s.f .CAN (CAN_CH_ERRS n.val) 23 0 + 1) ∧
      t.canTec n.val = min 255 tec ∧ t.bit .CAN (CAN_CH_EVENT n.val) 3 = true ∧
      (255 < tec → t.bit .CAN (CAN_CH_EVENT n.val) 9 = true ∧
        t.canState n.val = if s.canCfg n.val 10 then 5 else 4) ∧
      (tec ≤ 255 → t.canState n.val = errorState tec (s.canRec n.val))) ∧
    (∀ r, r ≠ .sent → Gives (.txDone n dt r d) s fun t =>
      (a.cancel = true → t.mbBit (CAN_CH_TXREQ n.val 0) a.src = false ∧ t.f .CAN (CAN_MB n.val a.src 0) 25 24 = 2) ∧
      (a.cancel = false → s.canCfg n.val 9 = true → t.mbBit (CAN_CH_TXREQ n.val 0) a.src = false ∧
        t.f .CAN (CAN_MB n.val a.src 0) 25 24 = 3) ∧
      (a.cancel = false → s.canCfg n.val 9 = false →
        t.mbBit (CAN_CH_TXREQ n.val 0) a.src = s.mbBit (CAN_CH_TXREQ n.val 0) a.src))) ∧
  (∀ (s : State) (n : Fin 8) (b : Fin 128), s.canState n.val = 0 ∨ s.f .CAN (CAN_MB n.val b.val 0) 15 0 = 0 ∨
    s.mbKind n.val b.val < 2 ∨ s.islLive n.val = false → exec (.txPeriod n b) s = .next s) ∧
  (∀ (s : State) (n : Fin 8) (b : Fin 128), s.canState n.val ≠ 0 → s.f .CAN (CAN_MB n.val b.val 0) 15 0 ≠ 0 →
    2 ≤ s.mbKind n.val b.val → s.islLive n.val = true → Gives (.txPeriod n b) s fun t =>
      t.clk.up = max s.clk.up ((s.cch n.val).begun +
        ((s.cch n.val).periods.get 0 b.val + 1) * s.f .CAN (CAN_MB n.val b.val 0) 15 0 * 1000000) ∧
      (t.cch n.val).periods.get 0 b.val = (s.cch n.val).periods.get 0 b.val + 1 ∧ t.mbBit (CAN_CH_TXREQ n.val 0) b.val = true ∧
      t.f .CAN (CAN_MB n.val b.val 0) 23 16 = if s.mbBit (CAN_CH_TXREQ n.val 0) b.val
        then min 255 (s.f .CAN (CAN_MB n.val b.val 0) 23 16 + 1) else s.f .CAN (CAN_MB n.val b.val 0) 23 16) ∧
  (∀ (s : State) (n : Fin 8), s.canState n.val ≠ 5 ∨ s.canLive n.val = false → exec (.busOffRecovered n) s = .next s) ∧
  (∀ (s : State) (n : Fin 8), s.canState n.val = 5 → s.canLive n.val = true → Gives (.busOffRecovered n) s fun t => t.canState n.val = 2 ∧
    t.canTec n.val = 0 ∧ t.canRec n.val = 0 ∧ t.bit .CAN (CAN_CH_EVENT n.val) 8 = true) ∧
  (∀ (s : State) (n : Fin 8), s.canState n.val ≠ 1 ∨ s.canLive n.val = false → exec (.busIntegrated n) s = .next s) ∧
  (∀ (s : State) (n : Fin 8), s.canState n.val = 1 → s.canLive n.val = true → Gives (.busIntegrated n) s fun t => t.canState n.val = 2 ∧
    t.bit .CAN (CAN_CH_EVENT n.val) 8 = true) ∧
  (∀ (s : State) (r : Fin 256), s.f .CAN (CAN_RXSIG_CFG r.val) 15 8 = 0 ∨ s.bit .CAN (CAN_RXSIG_STATUS r.val) 31 = false →
    exec (.sigTimeout r) s = .next s) ∧
  (∀ (s : State) (r : Fin 256), s.f .CAN (CAN_RXSIG_CFG r.val) 15 8 ≠ 0 → s.bit .CAN (CAN_RXSIG_STATUS r.val) 31 = true →
    Gives (.sigTimeout r) s fun t => t.bit .CAN (CAN_RXSIG_STATUS r.val) 31 = false ∧
      t.clk.up = max s.clk.up ((s.cch (s.f .CAN (CAN_RXSIG_CFG r.val) 26 24)).got.get 0 (s.f .CAN (CAN_RXSIG_CFG r.val) 22 16) +
        s.f .CAN (CAN_RXSIG_CFG r.val) 15 8 * 10000000) ∧
      t.bit .CAN (CAN_CH_EVENT (s.f .CAN (CAN_RXSIG_CFG r.val) 26 24)) 13 = true)

/-- The commands, the ISOBUS sessions and the time-triggered schedule of CAN (R386, R392, R397–R401, Table 16-10). Where the
spec is silent the statement follows the model's choice: assumption log 4, 57, 58 and 170. -/
def Obligations.CanControl : Prop :=
  (∀ s : State, Idle s .CAN → s.mode = 0 → s.bit .SYS SYS_MODE 7 = false → Gives .canStart s fun t =>
    Ended t .CAN 1 .refusedMode ∧ t.can = s.can) ∧
  (∀ s : State, Idle s .CAN → s.mode ≠ 0 → ∀ n, n < 8 → s.bit .CAN 0x4 n = true → s.canState n = 0 → s.canStartOk n = false →
    Gives .canStart s fun t => Ended t .CAN 1 .badHeader ∧ t.can = s.can) ∧
  (∀ (s : State) (n : Nat), Idle s .CAN → s.mode ≠ 0 → n < 8 → s.rd .CAN 0x4 = wordN (2 ^ n) →
    (s.canState n = 0 → s.canStartOk n = true → Gives .canStart s fun t => Ended t .CAN 1 .ok ∧ t.canState n = 1 ∧
      (∀ i, i < 4 → t.rd .CAN (CAN_CH_TXREQ n i) = 0 ∧ t.rd .CAN (CAN_CH_NEW n i) = 0 ∧ t.rd .CAN (CAN_CH_LOCK n i) = 0) ∧
      t.cch n = { cfg := s.rd .CAN (CAN_CH_CFG n), nbt := s.rd .CAN (CAN_CH_NBT n), dbt := s.rd .CAN (CAN_CH_DBT n)
                  tdc := s.rd .CAN (CAN_CH_TDC n), begun := s.clk.up } ∧ ∀ m, m < 8 → m ≠ n → t.cch m = s.cch m) ∧
    (s.canState n ≠ 0 → Gives .canStart s fun t => Ended t .CAN 1 .ok ∧ t.can = s.can)) ∧
  (∀ (s : State) (n : Nat), Idle s .CAN → n < 8 → s.rd .CAN 0x4 = wordN (2 ^ n) →
    (s.canState n = 0 → Gives .canStop s fun t => Ended t .CAN 2 .ok ∧ t.can = s.can) ∧
    (s.canState n ≠ 0 → Gives .canStop s fun t => Ended t .CAN 2 .ok ∧ t.canState n = 0 ∧ (t.cch n).tx = none ∧
      (∀ i, i < 4 → t.rd .CAN (CAN_CH_TXREQ n i) = 0) ∧ t.bit .CAN (CAN_CH_STATUS n) 11 = true ∧
      ∀ r, r < 256 → s.f .CAN (CAN_RXSIG_CFG r) 26 24 = n → t.bit .CAN (CAN_RXSIG_STATUS r) 31 = false)) ∧
  (∀ (s : State) (n : Nat), Idle s .CAN → n < 8 → s.rd .CAN 0x4 = wordN (2 ^ n) → Gives .canRecover s fun t =>
    Ended t .CAN 3 .ok ∧ t.canState n = if s.canState n = 4 then 5 else s.canState n) ∧
  (∀ (s : State) (n : Nat), Idle s .CAN → n < 8 → s.rd .CAN 0x4 = wordN (2 ^ n) → Gives .canClearCounts s fun t =>
    Ended t .CAN 5 .ok ∧ t.rd .CAN (CAN_CH_ERRS n) = 0 ∧ t.rd .CAN (CAN_CH_LOST n) = 0 ∧ t.rd .CAN (CAN_CH_TT_COUNTS n) = 0 ∧
    (∀ q, q < 2 → t.f .CAN (CAN_CH_FIFO_STATUS n q) 31 16 = 0) ∧ ∀ b, b < 128 → t.f .CAN (CAN_MB n b 0) 23 16 = 0) ∧
  (∀ (s : State) (n : Fin 2) (k : Fin 8) (v : Word),
    let free := s.canCfg n.val 15 = true ∧ s.canState n.val ≠ 0 ∧ (s.ses n.val k.val).phase = 0
    (¬ (fld v 31 30 = 1 ∧ free) → Gives (.isbSend n k v) s fun t => t.rd .CAN (CAN_CH_ISB_SES_CTRL n.val k.val) = v ∧
      t.can = s.can) ∧
    (fld v 31 30 = 1 → free → 0xFE ≤ s.isbAddr n.val → Gives (.isbSend n k v) s fun t =>
      t.rd .CAN (CAN_CH_ISB_SES_STATUS n.val k.val) = wordN (Result.code .refusedMode) ∧
      t.bit .CAN (CAN_CH_EVENT n.val) 5 = true ∧ (t.ses n.val k.val).phase = 0) ∧
    (fld v 31 30 = 1 → free → s.isbAddr n.val < 0xFE → Gives (.isbSend n k v) s fun t =>
      t.rd .CAN (CAN_CH_ISB_SES_STATUS n.val k.val) = 0xFF ∧
      (t.ses n.val k.val).phase = (if fld v 23 16 = 0xFF then 5 else 2) ∧
      ∃ x, (t.cch n.val).out = (s.cch n.val).out ++ [(k.val, x)]) ∧
    (¬ (fld v 31 30 = 2 ∧ free) → Gives (.isbArmReceive n k v) s fun t =>
      t.rd .CAN (CAN_CH_ISB_SES_CTRL n.val k.val) = v ∧ t.can = s.can) ∧
    (fld v 31 30 = 2 → free → Gives (.isbArmReceive n k v) s fun t =>
      t.rd .CAN (CAN_CH_ISB_SES_STATUS n.val k.val) = 0xFF ∧ (t.ses n.val k.val).phase = 1 ∧
      (t.ses n.val k.val).peer = fld v 23 16 ∧ (t.ses n.val k.val).cap = s.f .CAN (CAN_CH_ISB_SES_LEN n.val k.val) 26 0)) ∧
  (∀ (s : State) (n : Fin 2) (k : Fin 8), (s.ses n.val k.val).phase < 2 ∨ (s.ses n.val k.val).phase = 5 →
    exec (.isbTimeout n k) s = .next s) ∧
  (∀ (s : State) (n : Fin 2) (k : Fin 8), 2 ≤ (s.ses n.val k.val).phase → (s.ses n.val k.val).phase ≠ 5 →
    Gives (.isbTimeout n k) s fun t =>
      t.clk.up = max s.clk.up ((s.ses n.val k.val).since + (s.ses n.val k.val).wait * 1000000) ∧ (t.ses n.val k.val).phase = 0 ∧ t.bit .CAN (CAN_CH_EVENT n.val) 5 = true ∧
      t.rd .CAN (CAN_CH_ISB_SES_STATUS n.val k.val) = wordN (3 * 2 ^ 24 + Result.code .aborted)) ∧
  (∀ (s : State) (n : Fin 2) (k : Fin 8), (s.ses n.val k.val).phase ≠ 5 → exec (.bamPacket n k) s = .next s) ∧
  (∀ (s : State) (n : Fin 2) (k : Fin 8), (s.ses n.val k.val).phase = 5 →
    ((s.ses n.val k.val).next < packets (s.ses n.val k.val).len → Gives (.bamPacket n k) s fun t =>
      t.clk.up = max s.clk.up ((s.ses n.val k.val).since + 50000000) ∧ (t.ses n.val k.val).phase = 5 ∧ (t.ses n.val k.val).next = (s.ses n.val k.val).next + 1 ∧
      ∃ x, (t.cch n.val).out = (s.cch n.val).out ++ [(k.val, x)]) ∧
    (packets (s.ses n.val k.val).len ≤ (s.ses n.val k.val).next → Gives (.bamPacket n k) s fun t =>
      (t.ses n.val k.val).phase = 0 ∧ t.rd .CAN (CAN_CH_ISB_SES_STATUS n.val k.val) = 0 ∧
      t.bit .CAN (CAN_CH_EVENT n.val) 5 = true ∧ (t.cch n.val).out.length = (s.cch n.val).out.length + 1)) ∧
  (∀ (s : State) (n k : Nat), Idle s .CAN → n = s.f .CAN 0x4 0 0 → k = s.f .CAN 0x8 2 0 →
    ((s.ses n k).phase = 0 → Gives .isbAbort s fun t => Ended t .CAN 4 .ok ∧ t.can = s.can) ∧
    ((s.ses n k).phase ≠ 0 → Gives .isbAbort s fun t => Ended t .CAN 4 .ok ∧ (t.ses n k).phase = 0 ∧
      t.rd .CAN (CAN_CH_ISB_SES_STATUS n k) = wordN (s.f .CAN 0xC 7 0 * 2 ^ 24 + Result.code .aborted))) ∧
  (∀ (s : State) (n : Fin 8) (u : Nat) (r : CanRef), s.ttOn n.val = false ∨
    (r = .own ∧ s.ttOwn n.val u = false) → exec (.ttCycle n u r) s = .next s) ∧
  (∀ (s : State) (n : Fin 8) (u : Nat), s.ttOn n.val = true → s.now ≤ u →
    let span := 2 ^ min 6 (s.f .CAN (CAN_CH_TT_CFG n.val) 14 12)
    (s.ttOwn n.val u = true → Gives (.ttCycle n u .own) s fun t =>
      (∃ a, (t.cch n.val).tx = some a ∧ a.src = 0 ∧ a.tt = true ∧
        a.frame.id = s.rd .CAN (CAN_CH_TT_REF n.val) &&& 0x9FFFFFFF) ∧ t.ttCount n.val = (s.ttCount n.val + 1) % span ∧
      t.f .CAN (CAN_MB n.val 0 8) 7 0 = (s.ttCount n.val + 1) % span ∧ t.f .CAN (CAN_CH_TT_STATUS n.val) 1 0 = 2 ∧
      t.bit .CAN (CAN_CH_TT_STATUS n.val) 2 = true ∧ (t.cch n.val).ref = u ∧ t.now = u ∧
      t.bit .CAN (CAN_CH_EVENT n.val) 4 = true) ∧
    (∀ (id : Word) (b0 : Byte), Gives (.ttCycle n u (.heard id b0)) s fun t => t.ttCount n.val = b0.toNat % 64 % span ∧
      t.f .CAN (CAN_CH_TT_STATUS n.val) 1 0 = 2 ∧ (t.cch n.val).ref = u ∧ t.bit .CAN (CAN_CH_EVENT n.val) 4 = true ∧
      (t.cch n.val).tx = (s.cch n.val).tx ∧ t.bit .CAN (CAN_CH_TT_STATUS n.val) 2 = (s.bit .CAN (CAN_CH_TT_STATUS n.val) 2 &&
        !decide (fld id 28 0 < s.f .CAN (CAN_CH_TT_REF n.val) 28 0)))) ∧
  (∀ (s : State) (n : Fin 8) (k : Fin 32) (u : Nat),
    let b := s.f .CAN (CAN_CH_TT_CELL n.val (s.ttCount n.val) k.val) 6 0
    let ready := s.mbKind n.val b = 3 ∧ s.mbBit (CAN_CH_TXREQ n.val 0) b = true ∧ s.mbBit (CAN_CH_LOCK n.val 0) b = false ∧
      s.canCfg n.val 13 = false
    let late := s.ntu n.val (max 1 (s.f .CAN (CAN_CH_TT_CFG n.val) 11 8))
    (s.ttOn n.val = false ∨ s.f .CAN (CAN_CH_TT_STATUS n.val) 1 0 ≠ 2 ∨ k.val = 0 ∨ s.ttCols n.val ≤ k.val →
      exec (.ttWindow n k u) s = .next s) ∧
    (s.ttOn n.val = true → s.f .CAN (CAN_CH_TT_STATUS n.val) 1 0 = 2 → 0 < k.val → k.val < s.ttCols n.val →
      s.now ≤ s.ttStart n.val k.val →
      (s.ttKind n.val k.val = 0 → Gives (.ttWindow n k u) s fun t => (t.cch n.val).col = k.val ∧ t.regs = s.regs ∧
        t.now = ((s.passTo (s.ttStart n.val k.val)).pass u).now) ∧
      (s.ttKind n.val k.val = 3 → Gives (.ttWindow n k u) s fun t => (t.cch n.val).tx = (s.cch n.val).tx ∧
        t.regs = s.regs ∧ t.now = s.ttStart n.val k.val) ∧
      (s.ttKind n.val k.val = 1 ∨ s.ttKind n.val k.val = 2 → ready →
        (u ≤ late → (s.cch n.val).tx = none → Gives (.ttWindow n k u) s fun t => t.now = ((s.passTo (s.ttStart n.val k.val)).pass u).now ∧
          t.regs = s.regs ∧ ∃ a, (t.cch n.val).tx = some a ∧ a.src = b ∧ a.tt = true) ∧
        (late < u ∨ (s.cch n.val).tx.isSome = true → Gives (.ttWindow n k u) s fun t => (t.cch n.val).tx = (s.cch n.val).tx ∧
          t.bit .CAN (CAN_CH_EVENT n.val) 12 = true ∧
          t.f .CAN (CAN_CH_TT_COUNTS n.val) 31 16 = min 65535 (s.f .CAN (CAN_CH_TT_COUNTS n.val) 31 16 + 1))))) ∧
  (∀ (s : State) (n : Fin 8), s.ttOn n.val = false ∨ s.f .CAN (CAN_CH_TT_STATUS n.val) 1 0 ≠ 2 →
    exec (.ttSyncOff n) s = .next s) ∧
  (∀ (s : State) (n : Fin 8), s.ttOn n.val = true → s.f .CAN (CAN_CH_TT_STATUS n.val) 1 0 = 2 → Gives (.ttSyncOff n) s fun t =>
    t.now = max s.now (s.ttEnd n.val + s.ntu n.val (s.f .CAN (CAN_CH_TT_WAIT n.val) 7 0)) ∧
    t.f .CAN (CAN_CH_TT_STATUS n.val) 1 0 = 1 ∧ t.bit .CAN (CAN_CH_EVENT n.val) 12 = true ∧
    t.f .CAN (CAN_CH_TT_COUNTS n.val) 15 0 = min 65535 (s.f .CAN (CAN_CH_TT_COUNTS n.val) 15 0 + 1))

/-- Links, the switch, the host rings, 802.1AS and the commands of ETH (R402, R403, R405, R406, Table 16-13). Where the spec
is silent the statement follows the model's choice: assumption log 4, 59 and 61. -/
def Obligations.EthernetSwitch : Prop :=
  (∀ (s : State) (p : Fin 5), s.bit .ETH (ETH_P_CFG p.val) 31 = false ∨ s.islUp (9 + p.val) = false ∨ s.pwr.phase = .loss →
    exec (.ethLink p true) s = .next s) ∧
  (∀ (s : State) (p : Fin 5), s.bit .ETH (ETH_P_CFG p.val) 31 = true → s.islUp (9 + p.val) = true → s.pwr.phase ≠ .loss →
    (s.linkUp p.val = false → Gives (.ethLink p true) s fun t => t.linkUp p.val = true ∧ t.bit .ETH 0x24 0 = true ∧
      (s.restarting = some p.val → Ended t .ETH 2 .ok)) ∧
    (s.linkUp p.val = true → s.restarting ≠ some p.val → exec (.ethLink p true) s = .next s)) ∧
  (∀ (s : State) (p : Fin 5),
    (s.linkUp p.val = true → Gives (.ethLink p false) s fun t => t.linkUp p.val = false ∧
      t.bit .ETH ETH_STATUS (8 + p.val) = false ∧ t.bit .ETH 0x24 0 = true ∧
      t.rdN .ETH (ETH_P_LINKDOWN p.val) = min (2 ^ 32 - 1) (s.rdN .ETH (ETH_P_LINKDOWN p.val) + 1)) ∧
    (s.linkUp p.val = false → s.restarting = some p.val → Gives (.ethLink p false) s (Ended · .ETH 2 .aborted)) ∧
    (s.linkUp p.val = false → s.restarting ≠ some p.val → exec (.ethLink p false) s = .next s)) ∧
  (∀ (s : State) (p : Fin 5) (u : Nat) (d : List Byte) (bad : Bool) (full : BitVec 6),
    s.portLive p.val = false ∨ s.islLive 8 = false → exec (.ethFrameReceived p u d bad full) s = .next s) ∧
  (∀ (s : State) (p : Fin 5) (u : Nat) (d : List Byte) (bad : Bool) (full : BitVec 6),
    s.portLive p.val = true → s.islLive 8 = true →
    let f := ethParse d
    let cfg := s.rd .ETH (ETH_P_CFG p.val)
    let dropped := bad = true ∨ d.length < 60 ∨ 1518 < d.length ∨ f.typ = 0x8808 ∨ s.fwdPaused = true
    let counted := fun t : State => t.rdN .ETH (ETH_P_RX p.val) = min (2 ^ 32 - 1) (s.rdN .ETH (ETH_P_RX p.val) + 1)
    let lost := fun t : State => t.f .ETH (ETH_P_DROPS p.val) 31 16 = min 65535 (s.f .ETH (ETH_P_DROPS p.val) 31 16 + 1) ∧
      t.eth.fdb = s.eth.fdb ∧ t.mem = s.mem
    (dropped → Gives (.ethFrameReceived p u d bad full) s fun t => counted t ∧ lost t) ∧
    (¬ dropped → f.typ = 0x88F7 → Gives (.ethFrameReceived p u d bad full) s fun t => counted t ∧ t.eth = s.eth ∧
      t.mem = s.mem) ∧
    (∀ pcp vid, ¬ dropped → f.typ ≠ 0x88F7 →
      (pcp, vid) = (match f.tag with | none => (fld cfg 15 13, fld cfg 11 0) | some (c, v) => (c, if v = 0 then fld cfg 11 0 else v)) →
      (s.vlanOf vid = none → Gives (.ethFrameReceived p u d bad full) s fun t => counted t ∧ lost t) ∧
      (∀ w, s.vlanOf vid = some w →
        ((fld w 21 16).testBit p.val = false → Gives (.ethFrameReceived p u d bad full) s fun t => counted t ∧ lost t) ∧
        ((fld w 21 16).testBit p.val = true → s.slotDatagram f = none → s.hostFrame f.dst = false →
          (bitOf cfg 28 = true → groupMac f.src = false → (s.eth.fdb.filter (fun e => !(e.mac == f.src && e.vid == vid))).length < 1024 →
            Gives (.ethFrameReceived p u d bad full) s fun t => counted t ∧
              { mac := f.src, vid := vid, port := p.val, seen := s.clk.up } ∈ t.eth.fdb) ∧
          (bitOf cfg 28 = false → ∀ q, q < 5 → q ≠ p.val → groupMac f.dst = false → s.fdbStatic f.dst vid = some (2 ^ q) →
            (fld w 21 16).testBit q = true →
            (full.toNat.testBit q = false → s.portLive q = true → Gives (.ethFrameReceived p u d bad full) s fun t => counted t ∧
              t.eth.sent.get [] q = egressBytes q pcp vid w f d ∧
              t.rdN .ETH (ETH_P_TX q) = min (2 ^ 32 - 1) (s.rdN .ETH (ETH_P_TX q) + 1)) ∧
            (full.toNat.testBit q = true → Gives (.ethFrameReceived p u d bad full) s fun t => counted t ∧
              t.f .ETH (ETH_P_DROPS q) 15 0 = min 65535 (s.f .ETH (ETH_P_DROPS q) 15 0 + 1)))) ∧
        ((fld w 21 16).testBit p.val = true → s.slotDatagram f = none → f.dst = s.ethMac → groupMac f.dst = false →
          let q := pcp / 2
          let held := ringHeld (s.rd .ETH (ETH_RX_CFG q)) (s.f .ETH (ETH_RX_HEAD q) 15 0) (s.f .ETH (ETH_RX_TAIL q) 15 0)
          (s.bit .ETH (ETH_RX_CFG q) 8 = true → 0 < held → Gives (.ethFrameReceived p u d bad full) s fun t => counted t ∧
            t.rdN .ETH (ETH_RX_TAIL q) = (s.f .ETH (ETH_RX_TAIL q) 15 0 + 1) % 65536 ∧
            let a := ringAddr (s.rd .ETH (ETH_RX_BASE_LO q)) (s.rd .ETH (ETH_RX_BASE_HI q)) (s.rd .ETH (ETH_RX_CFG q))
              (s.f .ETH (ETH_RX_TAIL q) 15 0)
            a + 32 ≤ 0x3E0000000 → ∀ i, i < 8 → t.rdB (a + 16 + i) = (leBytes 8 u).getD i 0) ∧
          (s.bit .ETH (ETH_RX_CFG q) 8 = false ∨ held = 0 → Gives (.ethFrameReceived p u d bad full) s fun t => counted t ∧
            t.rdN .ETH (ETH_RX_DROPS q) = min (2 ^ 32 - 1) (s.rdN .ETH (ETH_RX_DROPS q) + 1) ∧ t.mem = s.mem))))) ∧
  (∀ (s : State) (q : Fin 4) (v : Word), Gives (.ethRxHeadWrite q v) s fun t => t.rdN .ETH (ETH_RX_HEAD q.val) = fld v 15 0 ∧
    Stands s t .ETH (fun o => o = ETH_RX_HEAD q.val)) ∧
  (∀ (s : State) (q : Fin 4) (v : Word), Gives (.ethTxHeadWrite q v) s fun t => t.rdN .ETH (ETH_TX_HEAD q.val) = fld v 15 0 ∧
    Stands s t .ETH (fun o => o = ETH_TX_HEAD q.val)) ∧
  (∀ (s : State) (q : Fin 4) (u : Nat) (full : BitVec 6),
    let cfg := s.rd .ETH (ETH_TX_CFG q.val)
    let tail := s.f .ETH (ETH_TX_TAIL q.val) 15 0
    let a := ringAddr (s.rd .ETH (ETH_TX_BASE_LO q.val)) (s.rd .ETH (ETH_TX_BASE_HI q.val)) cfg tail
    let held := ringHeld cfg (s.f .ETH (ETH_TX_HEAD q.val) 15 0) tail
    (bitOf cfg 8 = false ∨ held = 0 ∨ s.fwdPaused = true ∨ s.islLive 8 = false ∨ s.pwr.phase = .loss → exec (.ethFrameSent q u full) s = .next s) ∧
    (bitOf cfg 8 = true → 0 < held → s.fwdPaused = false → s.islLive 8 = true → s.pwr.phase ≠ .loss →
      Gives (.ethFrameSent q u full) s fun t => t.rdN .ETH (ETH_TX_TAIL q.val) = (tail + 1) % 65536 ∧
      (a + 32 ≤ 0x3E0000000 → t.rdB (a + 14) = 0 ∧ ∀ i, i < 8 → t.rdB (a + 16 + i) = (leBytes 8 u).getD i 0) ∧
      (∀ p, p < 5 → s.rdLE (a + 10) 1 = 2 ^ p → s.portLive p = true → full.toNat.testBit p = false →
        t.rdN .ETH (ETH_P_TX p) = min (2 ^ 32 - 1) (s.rdN .ETH (ETH_P_TX p) + 1)))) ∧
  (∀ (s : State) (k : Nat), s.eth.fdb[k]? = none → exec (.fdbAge k) s = .next s) ∧
  (∀ (s : State) (k : Nat) (e : FdbEntry), s.eth.fdb[k]? = some e → Gives (.fdbAge k) s fun t =>
    t.clk.up = max s.clk.up (e.seen + clampN 10 1000 (s.f .ETH ETH_AGE 9 0) * 1000000000) ∧ t.eth = { s.eth with fdb := s.eth.fdb.eraseIdx k } ∧
    t.rd .ETH ETH_FDB_COUNT = wordN (s.eth.fdb.eraseIdx k).length) ∧
  (∀ s : State, Gives .ptpSync s fun t => (s.isGm = true → t.eth.announced = some s.gmAnnounce) ∧ ∀ p, p < 5 → t.rdN .ETH (ETH_P_TX p) =
    if s.bit .ETH (ETH_P_CFG p) 29 = true ∧ s.portLive p = true ∧ s.bit .ETH ETH_STATUS (8 + p) = true
    then min (2 ^ 32 - 1) (s.rdN .ETH (ETH_P_TX p) + 1) else s.rdN .ETH (ETH_P_TX p)) ∧
  (∀ (s : State) (p : Fin 5) (d : Option Nat), s.bit .ETH (ETH_P_CFG p.val) 29 = false ∨ s.portLive p.val = false →
    exec (.peerDelay p d) s = .next s) ∧
  (∀ (s : State) (p : Fin 5), s.bit .ETH (ETH_P_CFG p.val) 29 = true → s.portLive p.val = true →
    (∀ v, v ≤ 800 → Gives (.peerDelay p (some v)) s fun t => t.f .ETH (ETH_P_STATUS p.val) 31 16 = v ∧
      t.bit .ETH ETH_STATUS (8 + p.val) = decide (2 ≤ s.eth.good.get 0 p.val)) ∧
    (∀ v, 800 < v → Gives (.peerDelay p (some v)) s fun t => t.f .ETH (ETH_P_STATUS p.val) 31 16 = min 65535 v ∧
      t.bit .ETH ETH_STATUS (8 + p.val) = false ∧ t.eth.good.get 0 p.val = 0) ∧
    (Gives (.peerDelay p none) s fun t => t.bit .ETH ETH_STATUS (8 + p.val) = false ∧ t.eth.good.get 0 p.val = 0)) ∧
  (∀ s : State, Idle s .ETH → Gives .fdbFlush s fun t => Ended t .ETH 1 .ok ∧
    (s.f .ETH 0x4 5 0 = 0 → t.eth.fdb = []) ∧
    (s.f .ETH 0x4 5 0 ≠ 0 → t.eth.fdb = s.eth.fdb.filter (fun e => !(s.f .ETH 0x4 5 0).testBit e.port))) ∧
  (∀ s : State, Idle s .ETH →
    (s.f .ETH 0x4 2 0 < 5 → Gives .portRestart s fun t => Running s t .ETH 2 ∧ t.linkUp (s.f .ETH 0x4 2 0) = false) ∧
    (5 ≤ s.f .ETH 0x4 2 0 → Gives .portRestart s (Ended · .ETH 2 .aborted))) ∧
  (∀ s : State, Idle s .ETH → Gives .ethClearCounts s fun t => Ended t .ETH 3 .ok ∧
    (∀ q, q < 4 → t.rd .ETH (ETH_RX_DROPS q) = 0) ∧
    ∀ p, p < 5 → s.bit .ETH 0x4 p = true → t.rd .ETH (ETH_P_RX p) = 0 ∧ t.rd .ETH (ETH_P_TX p) = 0 ∧
      t.rd .ETH (ETH_P_DROPS p) = 0 ∧ t.rd .ETH (ETH_P_LINKDOWN p) = 0)

/-- START, STOP, programs, requests, errors, bursts and the commands of the Dumbwaiter (R137, R140, R141, R408–R412, R415,
R416, R418, Table 17-5). Where the spec is silent the statement follows the model's choice: assumption log 4, 29, 30, 31,
33, 36 and 171. -/
def Obligations.Dumbwaiter : Prop :=
  (∀ (s : State) (n : Fin 64), s.pwr.phase = .loss → Gives (.dwStart n) s fun t =>
    t.rd .DMW (DMW_CH_GO_STS n.val) = wordN (Result.code .aborted) ∧ t.dmw = s.dmw ∧
    Stands s t .DMW (fun o => o = DMW_CH_GO_STS n.val)) ∧
  (∀ (s : State) (n : Fin 64), s.pwr.phase ≠ .loss → s.dwState n.val = 1 ∨ s.dwState n.val = 3 →
    ((s.dw n.val).start.isSome = true → Gives (.dwStart n) s fun t =>
      t.rd .DMW (DMW_CH_GO_STS n.val) = wordN (Result.code .busy) ∧ t.dmw = s.dmw) ∧
    ((s.dw n.val).start = none → Gives (.dwStart n) s fun t => t.rd .DMW (DMW_CH_GO_STS n.val) = 0 ∧
      (t.dw n.val).start = some (s.dwArgs n.val) ∧ t.dwBit n.val 3 = true ∧ t.dwState n.val = s.dwState n.val)) ∧
  (∀ (s : State) (n : Fin 64), s.pwr.phase ≠ .loss → s.dwState n.val = 0 ∨ s.dwState n.val = 2 →
    s.dwSwapPending n.val = false →
    let first := s.rd .DMW (DMW_BANKW n.val (s.dwActive n.val) 0)
    (first = 0xFBC00000 → (s.dw n.val).out = [] → Gives (.dwStart n) s fun t => t.rd .DMW (DMW_CH_GO_STS n.val) = 0 ∧
      t.dwState n.val = 0 ∧ t.rd .DMW (DMW_CH_DESC_NO n.val) = s.rd .DMW (DMW_CH_DESC_NO n.val) + 1 ∧
      ∀ k, k < 7 → t.dwG n.val (k + 1) = (s.dwArgs n.val).getD k 0) ∧
    (dwLegal 0 first = false → Gives (.dwStart n) s fun t => t.dwState n.val = 2 ∧
      t.f .DMW (DMW_CH_STATUS n.val) 31 24 = 1 ∧ t.bit .DMW (DMW_CH_FLAGS n.val) 4 = true ∧ t.bit .DMW 0x24 13 = true)) ∧
  (∀ (s : State) (n : Fin 64), exec (.dwStop n true) s = exec (.dwStop n false) s) ∧
  (∀ (s : State) (n : Fin 64), Gives (.dwStop n false) s fun t => (t.dw n.val).start = none ∧
    t.rd .DMW (DMW_CH_GO_STS n.val) = (if (s.dw n.val).start.isSome then wordN (Result.code .aborted) else 0) ∧
    t.dwState n.val = (if s.dwState n.val = 1 then 3 else s.dwState n.val)) ∧
  (∀ (s : State) (n : Fin 64), s.dwState n.val ≠ 3 → exec (.dwStopDone n) s = .next s) ∧
  (∀ (s : State) (n : Fin 64), s.dwState n.val = 3 →
    (s.dwBad n.val = none → (s.dw n.val).start = none → Gives (.dwStopDone n) s fun t => t.dwState n.val = 0 ∧
      t.bit .DMW (DMW_CH_FLAGS n.val) 5 = true ∧ (t.dw n.val).out = []) ∧
    (∀ a b, s.dwBad n.val = some (a, b) → Gives (.dwStopDone n) s fun t => t.dwState n.val = 2 ∧
      t.f .DMW (DMW_CH_STATUS n.val) 31 24 = 0x22 ∧ t.rd .DMW (DMW_CH_FAULT_LO n.val) = wordN a ∧
      t.bit .DMW 0x24 13 = true)) ∧
  (∀ (s : State) (n : Fin 64), s.dwBit n.val 6 = false → exec (.heldBoundaryPass n) s = .next s) ∧
  (∀ (s : State) (n : Fin 64), s.dwBit n.val 6 = true →
    (s.dwBad n.val = none → (s.dw n.val).start = none → Gives (.heldBoundaryPass n) s fun t => t.dwState n.val = 0 ∧
      t.dwBit n.val 6 = false ∧ (t.dw n.val).out = []) ∧
    (∀ a b, s.dwBad n.val = some (a, b) → Gives (.heldBoundaryPass n) s fun t => t.dwState n.val = 2 ∧
      t.f .DMW (DMW_CH_STATUS n.val) 31 24 = 0x22 ∧ t.rd .DMW (DMW_CH_FAULT_LO n.val) = wordN a)) ∧
  (∀ (s : State) (n : Fin 64), s.dwBit n.val 5 = false → exec (.fenceArriveDone (.dw n)) s = .next s) ∧
  (∀ (s : State) (n : Fin 64) (a : Nat) (b : DwOut), s.dwBit n.val 5 = true → s.dwBad n.val = some (a, b) →
    Gives (.fenceArriveDone (.dw n)) s fun t => t.dwState n.val = 2 ∧ t.f .DMW (DMW_CH_STATUS n.val) 31 24 = 0x21 ∧
      t.rd .DMW (DMW_CH_FAULT_LO n.val) = wordN a) ∧
  (∀ (s : State) (n : Fin 64), s.dwBit n.val 5 = true → s.dwBit n.val 4 = false → s.dwBit n.val 6 = false →
    s.dwState n.val = 1 → s.dwBad n.val = none → (s.dw n.val).xfer = none → (s.dw n.val).start = none →
    s.dwSwapPending n.val = false → (s.dw n.val).pc < 31 →
    s.rd .DMW (DMW_BANKW n.val (s.dwActive n.val) ((s.dw n.val).pc + 1)) = 0xFBC00000 →
    Gives (.fenceArriveDone (.dw n)) s fun t => t.dwState n.val = 0 ∧ t.dwBit n.val 5 = false ∧ (t.dw n.val).out = []) ∧
  (∀ (s : State) (v : Word), Gives (.dmwSwreqWrite v) s fun t => t.rd .DMW DMW_SWREQ = s.rd .DMW DMW_SWREQ ||| v ∧
    Stands s t .DMW (fun o => o = DMW_SWREQ)) ∧
  (∀ (s : State) (r : Fin 256), s.reqOn r.val = false ∨ (∀ n, n < 64 → s.dwState n ≠ 1 ∨ s.dwBit n 4 = false ∨
    s.f .DMW (DMW_CH_STATUS n) 23 16 ≠ r.val) → exec (.requestAsserted r) s = .next s) ∧
  (∀ (s : State) (r : Fin 256) (n : Nat), n < 64 → s.reqOn r.val = true → s.dwState n = 1 → s.dwBit n 4 = true →
    s.dwBit n 5 = false → s.dwBit n 6 = false → s.f .DMW (DMW_CH_STATUS n) 23 16 = r.val →
    (∀ m, m < 64 → m ≠ n → s.dwState m ≠ 1) → (s.dw n).xfer = none → (s.dw n).out = [] → (s.dw n).start = none →
    s.dwSwapPending n = false → (s.dw n).pc < 31 →
    s.rd .DMW (DMW_BANKW n (s.dwActive n) ((s.dw n).pc + 1)) = 0xFBC00000 →
    Gives (.requestAsserted r) s fun t => t.dwState n = 0 ∧ t.dwBit n 4 = false) ∧
  (∀ (s : State) (n : Fin 64) (a : Nat),
    ((∀ b ∈ (s.dw n.val).out, b.has (a % 2 ^ 40) = false) → exec (.beatError n true a) s = .next s) ∧
    (s.dwState n.val ≠ 1 ∨ (s.dw n.val).xfer = none → exec (.beatError n false a) s = .next s) ∧
    (s.dwState n.val = 1 → (s.dw n.val).xfer ≠ none →
      ((s.dw n.val).tries < s.dwRetry n.val → Gives (.beatError n false a) s fun t => t.dwState n.val = 1 ∧
        (t.dw n.val).tries = (s.dw n.val).tries + 1 ∧ t.bit .DMW (DMW_CH_FLAGS n.val) 2 = true) ∧
      (s.dwRetry n.val ≤ (s.dw n.val).tries → Gives (.beatError n false a) s fun t => t.dwState n.val = 2 ∧
        t.f .DMW (DMW_CH_STATUS n.val) 31 24 = 0x20 ∧ t.rd .DMW (DMW_CH_FAULT_LO n.val) = wordN (a % 2 ^ 40))) ∧
    (∀ b x, (s.dw n.val).out = [b] → b.has (a % 2 ^ 40) = true → (s.dw n.val).xfer = some x →
      (x.no = b.no → b.tries < s.dwRetry n.val → Gives (.beatError n true a) s fun t =>
        t.dwState n.val = s.dwState n.val ∧ (t.dw n.val).out = [{ b with tries := b.tries + 1 }] ∧
        t.bit .DMW (DMW_CH_FLAGS n.val) 2 = true) ∧
      (x.no = b.no → s.dwRetry n.val ≤ b.tries → Gives (.beatError n true a) s fun t => t.dwState n.val = 2 ∧
        t.f .DMW (DMW_CH_STATUS n.val) 31 24 = 0x21 ∧ t.rd .DMW (DMW_CH_FAULT_LO n.val) = wordN (a % 2 ^ 40)) ∧
      (x.no ≠ b.no → s.dwBit n.val 5 = false → b.late = false → b.tries < s.dwRetry n.val → Gives (.beatError n true a) s fun t =>
        t.bit .DMW 0x24 14 = true ∧ t.rd .DMW (DMW_CH_LATE_DESC n.val) = wordN b.desc ∧
        (t.dw n.val).out = [{ b with tries := b.tries + 1, late := true }]))) ∧
  (∀ (s : State) (rs : List (Fin 64)), s.dieOn = false → exec (.burstGrant rs) s = .next s) ∧
  (∀ (s : State) (rs : List (Fin 64)), s.dieOn = true → (∀ n, n < 64 → s.dwState n ≠ 1) → exec (.burstGrant rs) s = .next s) ∧
  (∀ (s : State) (n : Fin 64) (x : DwXfer) (r : Nat), s.dieOn = true → (∀ m, m < 64 → s.dwState m = 1 → m = n.val) →
    s.dwState n.val = 1 → (s.dw n.val).xfer = some x → x.paced = true → (s.dw n.val).req = some r → s.reqOn r = false →
    s.dwBad n.val = none → Gives (.burstGrant [n]) s fun t => (t.dw n.val).out = [] ∧ t.dwBit n.val 7 = false ∧
      t.dwState n.val = 1 ∧ (t.dw n.val).xfer = some x ∧ t.mem = s.mem) ∧
  (∀ (s : State) (n : Nat) (x : DwXfer) (len : Nat), s.dieOn = true → s.dwPick = some n → n < 64 →
    (∀ m, m < 64 → s.dwState m = 1 → m = n) → (s.dw n).xfer = some x → x.sfix = false → x.dfix = false → len = x.len →
    x.left % 16 = 0 → len < x.left → x.src ≠ 0 → x.dst ≠ 0 → x.n ≠ 0 → x.src ≠ x.dst → x.src ≠ x.n → x.dst ≠ x.n →
    x.sa + len ≤ 0x3E0000000 → x.da + len ≤ 0x3E0000000 → Memory.wf s.mem = true →
    (∀ g, s.latent.get 0 g = 0 ∧ s.poison.get false g = false) → Gives (.burstGrant []) s fun t =>
      (∀ i, i < len → t.rdB (x.da + i) = s.rdB (x.sa + i)) ∧ (∀ a, a < x.da ∨ x.da + len ≤ a → t.rdB a = s.rdB a) ∧
      t.dwG n x.src = BitVec.ofNat 64 (x.sa + len) ∧ t.dwG n x.dst = BitVec.ofNat 64 (x.da + len) ∧
      t.dwG n x.n = BitVec.ofNat 64 (x.left - len) ∧ t.dwState n = 1 ∧
      (t.dw n).xfer = some { x with sa := x.sa + len, da := x.da + len, left := x.left - len } ∧
      (∀ r, x.paced = true → (s.dw n).req = some r → r < 32 → t.bit .DMW DMW_SWREQ r = false)) ∧
  (∀ s : State, Idle s .DMW →
    (63 < s.rdN .DMW 0x4 → Gives .dmwSwap s (Ended · .DMW 1 .badHeader)) ∧
    (63 < s.rdN .DMW 0x4 → Gives .dmwSwapCancel s (Ended · .DMW 2 .badHeader)) ∧
    (∀ n, n = s.rdN .DMW 0x4 → n < 64 →
      let words := (upto 32).map (fun i => s.rd .DMW (DMW_BANKW n (1 - s.dwActive n) i))
      let sum := crc32c (words.flatMap (fun w => leBytes 4 w.toNat))
      let held := s.rdN .DMW (DMW_BANKW n (1 - s.dwActive n) 32)
      (s.dwSwapPending n = true → Gives .dmwSwap s (Ended · .DMW 1 .busy)) ∧
      (s.dwSwapPending n = false → sum ≠ held → Gives .dmwSwap s (Ended · .DMW 1 .badBlock)) ∧
      (s.dwSwapPending n = false → sum = held → dwBankLegal 0 words = false → Gives .dmwSwap s (Ended · .DMW 1 .badHeader)) ∧
      (s.dwSwapPending n = false → sum = held → dwBankLegal 0 words = true → Gives .dmwSwap s fun t => Ended t .DMW 1 .ok ∧
        (s.dwState n = 0 ∨ s.dwState n = 2 → t.dwActive n = 1 - s.dwActive n ∧ t.dwSwapPending n = false) ∧
        (s.dwState n = 1 ∨ s.dwState n = 3 → t.dwActive n = s.dwActive n ∧ t.dwSwapPending n = true)) ∧
      (Gives .dmwSwapCancel s fun t => Ended t .DMW 2 .ok ∧ t.dwSwapPending n = false ∧ t.dwActive n = s.dwActive n)) ∧
    (Gives .dmwClearCounts s fun t => Ended t .DMW 3 .ok ∧ ∀ n, n < 64 →
      (if n < 32 then s.bit .DMW 0x4 n = true else s.bit .DMW 0x8 (n - 32) = true) →
      t.rd .DMW (DMW_CH_COUNTS n) = 0 ∧ t.f .DMW (DMW_CH_SIGNAL n) 31 16 = 0))

/-- The commands of UPD and the lock's idle time (R424–R428, R433, R436, Table 18-5, Table 18-12). Where the spec is silent
the statement follows the model's choice: assumption log 4, 67, 68 and 172. -/
def Obligations.UpdateCommands : Prop :=
  (∀ (s : State) (r src : Nat), Idle s .UPD → r = s.f .UPD 0x4 3 0 → src = s.f .UPD 0x4 9 8 →
    let b := s.inactive r
    (src = 0 → Gives .updBegin s (Ended · .UPD 1 .badHeader)) ∧
    (src ≠ 0 → s.mode = 6 → Gives .updBegin s (Ended · .UPD 1 .refusedMode)) ∧
    (src ≠ 0 → s.mode ≠ 6 → s.mediumOk r = false → Gives .updBegin s (Ended · .UPD 1 .refusedTemp)) ∧
    (src ≠ 0 → s.mode ≠ 6 → s.mediumOk r = true → s.slotState r b = 1 → s.bit .UPD 0x4 16 = false → Gives .updBegin s fun t =>
      Ended t .UPD 1 .regionBusy ∧ t.rd .UPD (UPD_R_LOCK r) = s.rd .UPD (UPD_R_LOCK r)) ∧
    (src ≠ 0 → s.mode ≠ 6 → s.mediumOk r = true → s.slotState r b = 1 → s.bit .UPD 0x4 16 = true →
      s.updToken r / 2 = s.f .UPD 0x4 31 17 → s.f .UPD (UPD_R_LOCK r) 9 8 = src → Gives .updBegin s fun t => Ended t .UPD 1 .ok ∧
        t.rxMask r = s.rxMask r ∧ t.rd .UPD (UPD_R_LOCK r) = s.rd .UPD (UPD_R_LOCK r)) ∧
    (src ≠ 0 → s.mode ≠ 6 → s.mediumOk r = true → s.slotState r b ≠ 1 → (s.slotIn r 3).isSome = true →
      Gives .updBegin s (Ended · .UPD 1 .regionBusy)) ∧
    (src ≠ 0 → s.mode ≠ 6 → s.mediumOk r = true → s.slotState r b ≠ 1 → s.slotIn r 3 = none → s.norHeld r = true →
      Gives .updBegin s fun t => Ended t .UPD 1 .aborted ∧ t.mem = s.mem ∧ t.rd .UPD (UPD_R_LOCK r) = s.rd .UPD (UPD_R_LOCK r)) ∧
    (src ≠ 0 → s.mode ≠ 6 → s.mediumOk r = true → s.slotState r b ≠ 1 → s.slotIn r 3 = none → s.norHeld r = false →
      Gives .updBegin s fun t => Ended t .UPD 1 .ok ∧ t.upd.fed.get 0 r = s.clk.opsec ∧ t.slotState r b = 1 ∧ t.slotState r (!b) = s.slotState r (!b) ∧ t.slotVer r b = 0 ∧
      1 ≤ t.updToken r ∧ t.updToken r ≤ 0xFFFE ∧ t.f .UPD (UPD_R_LOCK r) 9 8 = src ∧ t.rxMask r = 0 ∧
      t.rd .UPD (UPD_R_BLOCKS_RX r) = 0 ∧ t.rd .UPD (UPD_R_FIRST_MISSING r) = 0 ∧ t.bit .UPD 0x24 1 = true ∧
      (regionNor r = true → ∀ i, i < slotSize r → t.rdB (norBase + slotBase r b + i) = 0xFF))) ∧
  (∀ (s : State) (r k : Nat), Idle s .UPD → r = s.f .UPD 0x4 3 0 → k = s.f .UPD 0x8 20 0 →
    let b := s.inactive r
    let p := s.f .UPD 0xC 7 0 * 2 ^ 32 + s.f .UPD 0xC 31 12 * 4096
    let d := s.rdBytes p 4096
    let mine := s.slotState r b = 1 ∧ s.updToken r = s.f .UPD 0x4 31 16
    let head := (s.rxMask r).testBit 0
    let fits := k < slotSize r / 4096 ∧ (head = true → k ≤ dxiBlocks (s.hdr r b))
    (¬ mine → Gives .updWriteBlock s fun t => Ended t .UPD 2 .regionBusy ∧ t.bit .UPD 0x24 0 = true ∧ t.emmc = s.emmc ∧
      t.mem = s.mem) ∧
    (mine → ¬ fits → Gives .updWriteBlock s fun t => Ended t .UPD 2 .badHeader ∧ t.bit .UPD 0x24 0 = true) ∧
    (mine → fits → s.mediumOk r = false → Gives .updWriteBlock s fun t => Ended t .UPD 2 .refusedTemp ∧
      t.bit .UPD 0x24 0 = true) ∧
    (mine → fits → s.mediumOk r = true → s.norHeld r = true → Gives .updWriteBlock s fun t => Ended t .UPD 2 .aborted ∧
      t.mem = s.mem) ∧
    (mine → fits → s.mediumOk r = true → s.norHeld r = false → s.engBad p 4096 = true ∨
      (s.bit .UPD (UPD_R_POLICY r) 1 = true ∧ crc32c d ≠ s.rdN .UPD 0x10) →
      Gives .updWriteBlock s fun t => Ended t .UPD 2 .badBlock ∧ t.bit .UPD 0x24 0 = true ∧ t.emmc = s.emmc ∧ t.mem = s.mem) ∧
    (mine → fits → s.mediumOk r = true → s.norHeld r = false → s.engBad p 4096 = false →
      s.bit .UPD (UPD_R_POLICY r) 1 = false ∨ crc32c d = s.rdN .UPD 0x10 →
      (s.bit .UPD (UPD_R_POLICY r) 0 = true → k ≠ 0 → head = false → Gives .updWriteBlock s (Ended · .UPD 2 .badHeader)) ∧
      (∀ e, s.bit .UPD (UPD_R_POLICY r) 0 = true → k = 0 → r ≠ 6 → s.dxiCheck r d = some e → Gives .updWriteBlock s fun t =>
        Ended t .UPD 2 e ∧ t.slotState r b = 0 ∧ t.rd .UPD (UPD_R_LOCK r) = 0) ∧
      (s.bit .UPD (UPD_R_POLICY r) 0 = false ∨ head = true → r = 6 → u06Clear k d = false → Gives .updWriteBlock s fun t =>
        Ended t .UPD 2 .badBlock ∧ t.emmc = s.emmc ∧ t.mem = s.mem) ∧
      (s.bit .UPD (UPD_R_POLICY r) 0 = false ∨ (k ≠ 0 ∧ head = true) ∨ (k = 0 ∧ s.dxiCheck r d = none) → regionNor r = true →
        r ≠ 6 ∨ u06Clear k d = true → Gives .updWriteBlock s fun t =>
          (∀ i, i < 4096 → t.rdB (norBase + slotBase r b + blockAt r k + i) = (s.programmed r b (blockAt r k) d).getD i 0) ∧
          if s.programmed r b (blockAt r k) d = d then Ended t .UPD 2 .ok ∧ t.rxMask r = s.rxMask r ||| 2 ^ k
          else Ended t .UPD 2 .badBlock ∧ t.rxMask r = s.rxMask r) ∧
      (s.bit .UPD (UPD_R_POLICY r) 0 = false ∨ (k ≠ 0 ∧ head = true) ∨ (k = 0 ∧ s.dxiCheck r d = none) → regionNor r = false →
        r ≠ 6 ∨ u06Clear k d = true →
        Gives .updWriteBlock s fun t => Ended t .UPD 2 .ok ∧ t.upd.fed.get 0 r = s.clk.opsec ∧
          t.rxMask r = s.rxMask r ||| 2 ^ k ∧
          t.rdN .UPD (UPD_R_BLOCKS_RX r) = (bitsOf (s.rxMask r ||| 2 ^ k) (slotSize r / 4096 + 1)).length ∧
          ∀ i, i < 4096 → t.emmc.get 0 (slotBase r b + blockAt r k + i) = d.getD i 0))) ∧
  (∀ (s : State) (r : Nat), Idle s .UPD → r = s.f .UPD 0x4 3 0 →
    let b := s.inactive r
    let h := s.hdr r b
    let mine := s.slotState r b = 1 ∧ s.updToken r = s.f .UPD 0x4 31 16
    let whole := ∀ k, k ≤ dxiBlocks h → (s.rxMask r).testBit k = true
    (¬ mine → Gives .updFinish s (Ended · .UPD 3 .regionBusy)) ∧
    (mine → ¬ whole → Gives .updFinish s fun t => Ended t .UPD 3 .badHeader ∧ t.slotState r b = 1) ∧
    (∀ e, mine → whole → s.dxiCheck r h = some e → Gives .updFinish s fun t => Ended t .UPD 3 e ∧ t.slotState r b = 0 ∧
      t.rd .UPD (UPD_R_LOCK r) = 0) ∧
    (mine → whole → s.dxiCheck r h = none → s.dxiHash r b h = false → Gives .updFinish s fun t => Ended t .UPD 3 .badBlock ∧
      t.slotState r b = 0 ∧ t.rd .UPD (UPD_R_LOCK r) = 0) ∧
    (mine → whole → s.dxiCheck r h = none → s.dxiHash r b h = true → Gives .updFinish s fun t => Ended t .UPD 3 .ok ∧
      t.slotState r b = 2 ∧ t.slotVer r b = dxi h 0xC 4 ∧ t.rd .UPD (UPD_R_LOCK r) = 0 ∧ t.bit .UPD 0x24 1 = true)) ∧
  (∀ (s : State) (r token : Nat), Idle s .UPD → r = s.f .UPD 0x4 3 0 → token = s.f .UPD 0x4 31 16 →
    let b := s.inactive r
    (s.slotState r b = 1 → token = s.updToken r ∨ (token = 0xFFFF ∧ s.open .UPD = true) → Gives .updAbort s fun t =>
      Ended t .UPD 4 .ok ∧ t.slotState r b = 0 ∧ t.rd .UPD (UPD_R_LOCK r) = 0 ∧ t.bit .UPD 0x24 1 = true) ∧
    (s.slotState r b = 1 → token ≠ s.updToken r → token ≠ 0xFFFF ∨ s.open .UPD = false → Gives .updAbort s fun t =>
      Ended t .UPD 4 .regionBusy ∧ t.slotState r b = 1) ∧
    (s.slotState r b = 2 → Gives .updAbort s fun t => Ended t .UPD 4 .ok ∧ t.slotState r b = 0 ∧ t.slotVer r b = 0) ∧
    (s.slotState r b ≠ 1 → s.slotState r b ≠ 2 → Gives .updAbort s fun t => Ended t .UPD 4 .ok ∧
      t.slotState r b = s.slotState r b ∧ t.slotVer r b = s.slotVer r b)) ∧
  (∀ (s : State) (r : Fin 16), s.slotState r.val (s.inactive r.val) ≠ 1 → exec (.lockIdleExpired r) s = .next s) ∧
  (∀ (s : State) (r : Fin 16), s.slotState r.val (s.inactive r.val) = 1 → Gives (.lockIdleExpired r) s fun t =>
    t.slotState r.val (s.inactive r.val) = 0 ∧ t.rd .UPD (UPD_R_LOCK r.val) = 0 ∧ t.rxMask r.val = 0 ∧
    (s.clk.sub < 1000000000 → s.pwr.phase ≠ .dormant →
      t.clk.opsec = max s.clk.opsec (s.upd.fed.get 0 r.val + 3600 * clampN 1 168 (s.f .UPD UPD_LOCK_IDLE 7 0))) ∧
    t.bit .UPD 0x24 1 = true) ∧
  (∀ s : State, Idle s .UPD → Gives .updConfirm s fun t => Ended t .UPD 5 .ok ∧ ∀ r, r < 16 →
    (s.bit .UPD 0x4 r = false ∨ s.slotIn r 3 = none → ∀ b, t.slotState r b = s.slotState r b) ∧
    (∀ b, s.bit .UPD 0x4 r = true → s.slotIn r 3 = some b → t.slotState r b = 4 ∧ t.bit .UPD 0x24 2 = true ∧
      t.rdN .UPD (UPD_R_ARB_MIN r) = max (s.rdN .UPD (UPD_R_ARB_MIN r)) (dxi (s.hdr r b) 0x10 4))) ∧
  (∀ (s : State) (r k : Nat) (b : Bool), Idle s .UPD → r = s.f .UPD 0x4 3 0 → b = s.bit .UPD 0x4 8 → k = s.f .UPD 0x8 20 0 →
    (s.slotState r b ≤ 1 ∨ dxiBlocks (s.hdr r b) < k → Gives .updReadBlock s fun t => Ended t .UPD 6 .badHeader ∧ t.mem = s.mem) ∧
    (2 ≤ s.slotState r b → k ≤ dxiBlocks (s.hdr r b) → Gives .updReadBlock s fun t => Ended t .UPD 6 .ok ∧
      (s.f .UPD 0xC 7 0 * 2 ^ 32 + s.f .UPD 0xC 31 12 * 4096 + 4096 ≤ 0x3E0000000 → ∀ i, i < 4096 →
      t.rdB (s.f .UPD 0xC 7 0 * 2 ^ 32 + s.f .UPD 0xC 31 12 * 4096 + i) = (s.slotBytes r b (blockAt r k) 4096).getD i 0))) ∧
  (∀ (s : State) (k : Nat), Idle s .UPD → k = s.f .UPD 0x4 1 0 →
    (s.mode ≠ 5 → Gives .keyRevoke s fun t => Ended t .UPD 7 .refusedMode ∧ t.rd .UPD UPD_KEYS = s.rd .UPD UPD_KEYS) ∧
    (s.mode = 5 → s.rd .UPD 0x8 ≠ 0xC35A ∨ (∀ j, j < 4 → j ≠ k → s.revoked j = true) → Gives .keyRevoke s fun t =>
      Ended t .UPD 7 .locked ∧ t.rd .UPD UPD_KEYS = s.rd .UPD UPD_KEYS) ∧
    (∀ j, s.mode = 5 → s.rd .UPD 0x8 = 0xC35A → j < 4 → j ≠ k → s.revoked j = false → Gives .keyRevoke s fun t =>
      Ended t .UPD 7 .ok ∧ t.revoked k = true ∧ t.revoked j = false))

/-- The Service Protocol's answers to a request that is unknown, repeated, new or outside the version window; its sessions;
restart; and the Cart Coupling Protocol (R434, R435, R437–R441, Table 18-7). Where the spec is silent the statement follows
the model's choice: assumption log 4, 82, 84 and 85. -/
def Obligations.ServiceSessions : Prop :=
  (∀ (s : State) (sess sq token mask : BitVec 16) (region count : Byte) (resume : Bool) (size block crc first : Word) (part : Fin 4)
    (d : List Byte) (e : BootEnv), (∀ x ∈ s.svc, x.id ≠ sess.toNat) →
    ∀ c ∈ [Instr.svcBye sess sq, .svcStatus sess sq, .svcUpdBegin sess sq region resume token size,
      .svcUpdData sess sq token region block part crc d, .svcUpdFinish sess sq token region, .svcUpdAbort sess sq token region,
      .svcUpdConfirm sess sq mask, .svcBureauRead sess sq first count, .svcRestart sess sq e],
    Gives c s fun t => t.resp = .none ∧ t.svc = s.svc ∧ t.regs = s.regs ∧ t.mem = s.mem ∧ t.sys = s.sys) ∧
  (∀ (s : State) (sess sq token mask : BitVec 16) (region count : Byte) (resume : Bool) (size block crc first : Word) (part : Fin 4)
    (d a : List Byte) (e : BootEnv) (x : Session), s.svc.find? (fun y => y.id = sess.toNat) = some x → x.last = some (sq.toNat, a) →
    ∀ c ∈ [Instr.svcStatus sess sq, .svcUpdBegin sess sq region resume token size,
      .svcUpdData sess sq token region block part crc d, .svcUpdFinish sess sq token region, .svcUpdAbort sess sq token region,
      .svcUpdConfirm sess sq mask, .svcBureauRead sess sq first count, .svcRestart sess sq e],
    Gives c s fun t => t.resp = .datagram a ∧
      t.svc = s.svc.map (fun y => if y.id = x.id then { y with seen := s.clk.up } else y) ∧ t.regs = s.regs ∧ t.mem = s.mem ∧ t.sys = s.sys) ∧
  (∀ (s : State) (sess sq token mask : BitVec 16) (region count : Byte) (resume : Bool) (size block crc first : Word) (part : Fin 4)
    (d : List Byte) (x : Session), s.svc.find? (fun y => y.id = sess.toNat) = some x → x.last.map Prod.fst ≠ some sq.toNat →
    x.ver = 0 →
    ∀ p ∈ [(0x10, Instr.svcUpdBegin sess sq region resume token size), (0x11, .svcUpdData sess sq token region block part crc d),
      (0x12, .svcUpdFinish sess sq token region), (0x13, .svcUpdAbort sess sq token region), (0x14, .svcUpdConfirm sess sq mask),
      (0x20, .svcBureauRead sess sq first count)],
    Gives p.2 s fun t => t.resp = .datagram (svcFrame p.1 true sess.toNat sq.toNat [byteN (Result.code .incompatible)]) ∧
      t.regs = s.regs ∧ t.mem = s.mem) ∧
  (∀ (s : State) (sess : BitVec 16), Gives (.sessionTimeout sess) s fun t =>
    t.svc = s.svc.filter (fun x => x.id != sess.toNat) ∧
    ∀ x, s.svc.find? (fun y => y.id = sess.toNat) = some x → t.clk.up = max s.clk.up (x.seen + 10000000000)) ∧
  (∀ (s : State) (sess sq : BitVec 16) (x : Session), s.svc.find? (fun y => y.id = sess.toNat) = some x →
    x.last.map Prod.fst ≠ some sq.toNat →
    (Gives (.svcBye sess sq) s fun t => t.resp = .datagram (svcFrame 0x02 false sess.toNat sq.toNat []) ∧
      ∀ y ∈ t.svc, y.id ≠ sess.toNat) ∧
    (Gives (.svcStatus sess sq) s fun t => t.resp = .datagram (svcFrame 0x03 false sess.toNat sq.toNat
      ((upto 16).flatMap fun r => leBytes 4 (s.rdN .UPD (UPD_R_STATE r)) ++ leBytes 4 ((s.useVer r).getD 0))) ∧ t.regs = s.regs)) ∧
  (∀ (s : State) (sess sq token mask : BitVec 16) (r : Byte) (size : Word) (x : Session),
    s.svc.find? (fun y => y.id = sess.toNat) = some x → x.last.map Prod.fst ≠ some sq.toNat → x.ver ≠ 0 →
    let answer := fun (t : State) (typ : Nat) (err : Bool) (p : List Byte) =>
      t.resp = .datagram (svcFrame typ err sess.toNat sq.toNat p)
    (15 < r.toNat → Gives (.svcUpdBegin sess sq r false token size) s (answer · 0x10 true [byteN (Result.code .badHeader)])) ∧
    (r.toNat ≤ 15 → s.recovering = false → slotSize r.toNat < size.toNat →
      Gives (.svcUpdBegin sess sq r false token size) s (answer · 0x10 true [byteN (Result.code .noSpace)])) ∧
    (r.toNat ≤ 15 → s.recovering = false → size.toNat ≤ slotSize r.toNat → s.mode ≠ 6 → s.mediumOk r.toNat = true →
      s.slotState r.toNat (s.inactive r.toNat) ≠ 1 → s.slotIn r.toNat 3 = none → s.norHeld r.toNat = false →
      Gives (.svcUpdBegin sess sq r false token size) s fun t => t.slotState r.toNat (s.inactive r.toNat) = 1 ∧
        t.f .UPD (UPD_R_LOCK r.toNat) 9 8 = (if x.port = 4 then 1 else 2) ∧
        answer t 0x10 false (leBytes 2 (t.updToken r.toNat) ++ [byteN (t.updPolicy r.toNat)] ++ leBytes 4 0)) ∧
    (r.toNat ≤ 15 → s.recovering = false → s.slotState r.toNat (s.inactive r.toNat) ≠ 1 →
      (Gives (.svcUpdFinish sess sq token r) s (answer · 0x12 true [byteN (Result.code .regionBusy)])) ∧
      (s.slotState r.toNat (s.inactive r.toNat) ≠ 2 → Gives (.svcUpdAbort sess sq token r) s fun t => answer t 0x13 false [0] ∧
        t.slotState r.toNat (s.inactive r.toNat) = s.slotState r.toNat (s.inactive r.toNat))) ∧
    (r.toNat ≤ 15 → s.recovering = false → s.slotState r.toNat (s.inactive r.toNat) = 1 → s.updToken r.toNat = token.toNat →
      Gives (.svcUpdAbort sess sq token r) s fun t => answer t 0x13 false [0] ∧ t.slotState r.toNat (s.inactive r.toNat) = 0 ∧
        t.rd .UPD (UPD_R_LOCK r.toNat) = 0) ∧
    (∀ (block crc : Word) (part : Fin 4) (d : List Byte), r.toNat ≤ 15 → s.recovering = false →
      (d.length ≠ 1024 → Gives (.svcUpdData sess sq token r block part crc d) s (answer · 0x11 true [byteN (Result.code .badHeader)])) ∧
      (d.length = 1024 → x.blocks = [] → Gives (.svcUpdData sess sq token r block part crc d) s fun t => t.resp = .none ∧
        t.regs = s.regs ∧ t.mem = s.mem ∧ t.emmc = s.emmc) ∧
      (∀ data, d.length = 1024 → (svcPart x.blocks { token := token.toNat, region := r.toNat, block := block.toNat, crc := crc.toNat
                                                     parts := SMap.empty } part.val d).1.whole = some data →
        (s.updWrite r.toNat token.toNat block.toNat (some data) crc).2 = .ok →
        Gives (.svcUpdData sess sq token r block part crc d) s fun t => answer t 0x11 false (leBytes 4 block.toNat ++ [0]) ∧
          t.rxMask r.toNat = s.rxMask r.toNat ||| 2 ^ block.toNat)) ∧
    (s.recovering = true → Gives (.svcUpdConfirm sess sq mask) s (answer · 0x14 true [byteN (Result.code .refusedMode)])) ∧
    (s.recovering = false → Gives (.svcUpdConfirm sess sq mask) s fun t => answer t 0x14 false [0] ∧
      ∀ q b, q < 16 → mask.getLsbD q = true → s.slotIn q 3 = some b → t.slotState q b = 4) ∧
    (∀ (first : Word) (n : Byte),
      (s.recovering = true → Gives (.svcBureauRead sess sq first n) s (answer · 0x20 true [byteN (Result.code .refusedMode)])) ∧
      (s.recovering = false → n.toNat = 0 ∨ 40 < n.toNat →
        Gives (.svcBureauRead sess sq first n) s (answer · 0x20 true [byteN (Result.code .badHeader)])) ∧
      (s.recovering = false → 1 ≤ n.toNat → n.toNat ≤ 40 → Gives (.svcBureauRead sess sq first n) s (answer · 0x20 false
        (n :: (upto n.toNat).flatMap (fun i => s.burShown ((first.toNat + i) % 131072)))))) ∧
    (∀ e : BootEnv,
      (s.recovering = false → s.mode ≠ 5 → Gives (.svcRestart sess sq e) s fun t =>
        answer t 0x30 true [byteN (Result.code .refusedMode)] ∧ t.sys = s.sys) ∧
      (s.recovering = false → s.mode = 5 → s.sys.active = false → s.pwr.phase ∈ [.run, .ride, .reserve] →
        Gives (.svcRestart sess sq e) s fun t => answer t 0x30 false [0] ∧ StartedUp t 3 0) ∧
      (s.recovering = true → Gives (.svcRestart sess sq e) s fun t => answer t 0x30 false [0] ∧ StartedUp t 0 (e.pins.toNat % 8)))) ∧
  (∀ (s : State) (p : Fin 5) (c : Nat) (sq : BitVec 16) (vs : List (Byte × Byte)),
    let mine := fun (x : Session) => x.port == p.val && x.client == c
    let rest := s.svc.filter (fun x => !mine x)
    (s.dieOn = false ∨ (s.recovering = true ∧ p.val ≠ 4) → Gives (.svcHello p c sq vs) s fun t => t.resp = .none ∧ t.svc = s.svc) ∧
    (s.dieOn = true → s.recovering = false ∨ p.val = 4 →
      (vs = [] ∨ 8 < vs.length → Gives (.svcHello p c sq vs) s fun t => t.svc = s.svc ∧
        t.resp = .datagram (svcFrame 1 true 0 sq.toNat [byteN (Result.code .badHeader)])) ∧
      (vs ≠ [] → vs.length ≤ 8 → (∀ x ∈ s.svc, mine x = true → x.last.map Prod.fst ≠ some sq.toNat) →
        (2 ≤ rest.length → Gives (.svcHello p c sq vs) s fun t => t.svc = rest ∧
          t.resp = .datagram (svcFrame 1 true 0 sq.toNat [byteN (Result.code .busy)])) ∧
        (rest.length < 2 → Gives (.svcHello p c sq vs) s fun t => ∃ x, t.svc = rest ++ [x] ∧ x.port = p.val ∧ x.client = c ∧
          1 ≤ x.id ∧ (∀ y ∈ rest, y.id ≠ x.id) ∧
          x.ver = (match svcAgree vs with | some v => v.1 * 256 + v.2 | none => 0) ∧
          (∀ v, svcAgree vs = some v → t.rd .UPD (UPD_PARTNER_VER 1) = wordN (v.1 * 2 ^ 24 + v.2 * 2 ^ 16)))))) ∧
  (∀ (s : State) (u : Nat) (d : List Byte), u + 500000000 < s.now ∨ s.now + 500000000 < u →
    exec (.cartState u d) s = .next s) ∧
  (∀ (s : State) (u : Nat) (d : List Byte), s.now ≤ u + 500000000 → u ≤ s.now + 500000000 → Gives (.cartState u d) s fun t =>
    t.cart.last = some s.clk.up ∧ t.cart.body = d ∧ t.regs = s.regs ∧
    (s.cart.coupled = true → t.cart.coupled = true) ∧
    (s.cart.coupled = false → s.mode ≠ 4 ∨ s.cart.last = none → t.cart.coupled = false) ∧
    (∀ l, s.cart.last = some l → s.clk.up ≤ l + 300000000 → s.mode = 4 → s.rd .UPD (UPD_PARTNER_VER 2) ≠ 0 →
      t.cart.coupled = true)) ∧
  (∀ s : State, (s.cart.coupled = false → exec .couplingLost s = .next s) ∧
    (s.cart.coupled = true → Gives .couplingLost s fun t => (∀ l, s.cart.last = some l → t.clk.up = max s.clk.up (l + 1000000000)) ∧
      t.cart = { s.cart with coupled := false, stop := some 2 } ∧
      t.regs = s.regs))

/-- The program writes a record by BUR_PUT_DATA0–2 and BUR_PUT (R444): a code outside 0xF000–0xFEFF is ignored and sets
BAD_PUT; another is queued by the operation that queues every record: it opens an empty queue, merges with an equal newest
record, joins behind another, and is counted as lost where the queue is full. -/
def Obligations.BureauPut : Prop :=
  (∀ (s : State) (v : Word), fld v 31 16 < 0xF000 ∨ 0xFEFF < fld v 31 16 → Gives (.burPut v) s fun t =>
    t.bit .BUR BUR_STATUS 4 = true ∧ t.bur = s.bur) ∧
  (∀ (s : State) (v : Word), 0xF000 ≤ fld v 31 16 → fld v 31 16 ≤ 0xFEFF →
    let r : BurRec := { code := fld v 31 16, source := fld v 15 8, severity := fld v 2 0, flags := 1
                        opsec := s.clk.opsec, pcc := s.clk.pcc, d0 := s.rd .BUR (BUR_PUT_DATA 0)
                        d1 := s.rd .BUR (BUR_PUT_DATA 1), d2 := s.rd .BUR (BUR_PUT_DATA 2) }
    exec (.burPut v) s = .next (s.burEnter r) ∧
    (s.bur.queue = [] → s.bur.last = none → Gives (.burPut v) s fun t => t.bur.queue = [r]) ∧
    (∀ q l, s.bur.queue = q ++ [l] → l.same r = true → l.repeats < 65535 → Gives (.burPut v) s fun t =>
      t.bur.queue = q ++ [l.bump s.clk.opsec]) ∧
    (∀ q l, s.bur.queue = q ++ [l] → l.same r = false → q.length < 255 → Gives (.burPut v) s fun t =>
      t.bur.queue = q ++ [l, r] ∧ t.f .BUR BUR_LOST 8 0 = q.length + 2) ∧
    (∀ q l, s.bur.queue = q ++ [l] → l.same r = false → q.length = 255 → Gives (.burPut v) s fun t =>
      t.bur.queue = s.bur.queue ∧ t.bur.heldLost = s.bur.heldLost + 1 ∧
      t.f .BUR BUR_LOST 31 16 = min 65535 (s.f .BUR BUR_LOST 31 16 + 1)))

/-- Draining, patching, reading, freezing and clearing the Bureau (R445–R451, Table 19-9). Where the spec is silent the
statement follows the model's choice: assumption log 4 and 95. -/
def Obligations.BureauRecords : Prop :=
  (∀ s : State, s.bit .BUR BUR_STATUS 0 = true → exec .recordDrain s = .next s) ∧
  (∀ s : State, s.bit .BUR BUR_STATUS 0 = false → s.mramOk = false → Gives .recordDrain s fun t =>
    t.bit .BUR BUR_STATUS 3 = decide (s.bur.queue ≠ []) ∧ t.bur = s.bur ∧ t.mem = s.mem) ∧
  (∀ (s : State) (r : BurRec) (q : List BurRec), s.bit .BUR BUR_STATUS 0 = false → s.mramOk = true → s.bur.queue = r :: q →
    s.bur.heldLost = 0 → s.rdN .BUR BUR_HEAD < 131072 →
    ((∀ o, s.bur.last = some o → o.repeats ≤ 1) → Gives .recordDrain s fun t =>
      (∀ i, i < 32 → t.rdB (burAddr (s.rdN .BUR BUR_HEAD) + i) = r.bytes.getD i 0) ∧
      t.rdN .BUR BUR_HEAD = (s.rdN .BUR BUR_HEAD + 1) % 131072 ∧
      (s.rdN .BUR BUR_COUNT < 131072 → t.rdN .BUR BUR_COUNT = s.rdN .BUR BUR_COUNT + 1) ∧
      (131072 ≤ s.rdN .BUR BUR_COUNT → t.rdN .BUR BUR_WRAPS = min (2 ^ 32 - 1) (s.rdN .BUR BUR_WRAPS + 1)) ∧
      t.bur.last = some r ∧ t.bur.lastIdx = s.rdN .BUR BUR_HEAD ∧ t.bit .BUR BUR_STATUS 3 = false ∧
      (r.severity < s.f .BUR BUR_CFG 18 16 → t.bur.queue = q ∧ t.rd .BUR 0x24 = s.rd .BUR 0x24) ∧
      (s.f .BUR BUR_CFG 18 16 ≤ r.severity → t.bit .BUR 0x24 0 = true)) ∧
    (∀ o, s.bur.last = some o → 1 < o.repeats → s.bur.lastIdx < 131072 → s.bur.lastIdx ≠ s.rdN .BUR BUR_HEAD →
      Gives .recordDrain s fun t =>
        (∀ i, i < 32 → t.rdB (burAddr (s.rdN .BUR BUR_HEAD) + i) = r.bytes.getD i 0) ∧
        (∀ i, i < 32 → t.rdB (burAddr s.bur.lastIdx + i) = ({ o with flags := o.flags ||| 4 } : BurRec).bytes.getD i 0) ∧
        t.rdB (foldAddr + 47) = 0 ∧ t.rdB (patchAddr 0 + 15) = 0 ∧ t.rdB (patchAddr 1 + 15) = 0)) ∧
  (∀ s : State, s.bit .BUR BUR_STATUS 0 = true ∨ s.mramOk = false ∨ s.bur.dirty = false →
    exec .patchWrite s = .next s) ∧
  (∀ (s : State) (r : BurRec), s.bit .BUR BUR_STATUS 0 = false → s.mramOk = true → s.bur.last = some r → s.bur.dirty = true →
    Gives .patchWrite s fun t =>
      let q := (s.bur.patchSeq + 1) % 65536
      t.bur.patchSeq = q ∧ t.bur.dirty = false ∧ t.bur.patchAt = some t.clk.up ∧
      (∀ u, s.bur.patchAt = some u → t.clk.up = max s.clk.up (u + 100000000)) ∧ t.rdB (patchAddr (q % 2) + 15) = 0x5A ∧
      (∀ i, i < 4 → t.rdB (patchAddr (q % 2) + i) = (leBytes 4 s.bur.lastIdx).getD i 0) ∧
      (∀ i, i < 2 → t.rdB (patchAddr (q % 2) + 4 + i) = (leBytes 2 r.repeats).getD i 0) ∧
      ∀ a, a < patchAddr (q % 2) ∨ patchAddr (q % 2) + 16 ≤ a → t.rdB a = s.rdB a) ∧
  (∀ (s : State) (v : Word), Gives (.burCursorWrite v) s fun t => t.rdN .BUR BUR_CURSOR = fld v 16 0 ∧ t.mem = s.mem ∧
    ∀ k, k < 8 → t.rd .BUR (BUR_WIN k) = wordN (leNat (((s.burShown (fld v 16 0)).drop (4 * k)).take 4))) ∧
  (∀ s : State, Gives .burWin7Read s fun t => t.resp = .word (s.rd .BUR (BUR_WIN 7)) ∧ t.mem = s.mem ∧
    t.rdN .BUR BUR_CURSOR = (s.f .BUR BUR_CURSOR 16 0 + 1) % 131072 ∧
    ∀ k, k < 8 → t.rd .BUR (BUR_WIN k) =
      wordN (leNat (((s.burShown ((s.f .BUR BUR_CURSOR 16 0 + 1) % 131072)).drop (4 * k)).take 4))) ∧
  (∀ s : State, Idle s .BUR →
    (Gives .burFreeze s fun t => Ended t .BUR 1 .ok ∧ t.bit .BUR BUR_STATUS 0 = true ∧
      t.bur.frozenAt = (if s.bit .BUR BUR_STATUS 0 then s.bur.frozenAt else s.clk.up)) ∧
    (Gives .burUnfreeze s fun t => Ended t .BUR 2 .ok ∧ t.bit .BUR BUR_STATUS 0 = false) ∧
    (s.bur.queue.length < 256 → Gives .burClearCounts s fun t => Ended t .BUR 4 .ok ∧ t.f .BUR BUR_LOST 31 16 = 0 ∧
      t.bit .BUR BUR_STATUS 4 = false)) ∧
  (∀ s : State, s.bit .BUR BUR_STATUS 0 = false → exec .freezeTimeout s = .next s) ∧
  (∀ s : State, s.bit .BUR BUR_STATUS 0 = true → Gives .freezeTimeout s fun t => t.bit .BUR BUR_STATUS 0 = false ∧
    t.clk.up = max s.clk.up (s.bur.frozenAt + clampN 1 60 (s.f .BUR BUR_CFG 5 0) * 1000000000) ∧
    t.bit .BUR 0x24 0 = true ∧ (s.bur.queue = [] → s.bur.last = none → ∃ r ∈ t.bur.queue, r.code = 0x1282)) ∧
  (∀ s : State, Idle s .BUR →
    let refuses := fun r => Gives .burClear s fun t => Ended t .BUR 3 r ∧ t.mem = s.mem
    (s.mode ≠ 5 → refuses .refusedMode) ∧
    (s.mode = 5 → s.open .BUR = false ∨ s.rd .BUR 0x4 ≠ 0xC35A → refuses .locked) ∧
    (s.mode = 5 → s.open .BUR = true → s.rd .BUR 0x4 = 0xC35A → s.bit .BUR BUR_STATUS 0 = true → refuses .busy) ∧
    (s.mode = 5 → s.open .BUR = true → s.rd .BUR 0x4 = 0xC35A → s.bit .BUR BUR_STATUS 0 = false → s.mramOk = false →
      refuses .refusedTemp) ∧
    (s.mode = 5 → s.open .BUR = true → s.rd .BUR 0x4 = 0xC35A → s.bit .BUR BUR_STATUS 0 = false → s.mramOk = true →
      s.rdN .BUR BUR_HEAD < 131072 → Gives .burClear s fun t =>
        let h := s.rdN .BUR BUR_HEAD
        let r : BurRec := { code := 0x1280, severity := 6, d0 := s.rd .BUR BUR_COUNT, opsec := s.clk.opsec, pcc := s.clk.pcc }
        Ended t .BUR 3 .ok ∧ t.rd .BUR BUR_COUNT = 1 ∧ t.rd .BUR BUR_WRAPS = 0 ∧ t.rdN .BUR BUR_HEAD = (h + 1) % 131072 ∧
        (∀ i, i < 32 → t.rdB (burAddr h + i) = r.bytes.getD i 0) ∧
        ∀ a, mramBase ≤ a → a < mramBase + 0x400000 → a < burAddr h ∨ burAddr h + 32 ≤ a → t.rdB a = 0))

/-- The housekeeping round, its thresholds and commands, and a thermal shutdown (R452, R453, R455–R457, Tables 19-4, 19-9).
Where the spec is silent the statement follows the model's choice: assumption log 4, 94 and 108. -/
def Obligations.HousekeepingAndHeat : Prop :=
  (∀ (s : State) (d : List (Option Int)), s.pwr.phase ∈ [.off, .dormant, .thermal] → exec (.housekeepingRound d) s = .next s) ∧
  (∀ (s : State) (d : List (Option Int)), s.pwr.phase ∉ [.off, .dormant, .thermal] → Gives (.housekeepingRound d) s fun t =>
    t.pwr.round = some t.clk.up ∧
    (∀ u, s.pwr.round = some u → (s.mailOf .HKP).code ≠ 1 →
      t.clk.up = max s.clk.up (u + clampN 50 1000 (s.f .HKP HKP_CFG 9 0) * 1000000)) ∧
    t.f .HKP HKP_STATUS 31 16 = min 65535 (s.f .HKP HKP_STATUS 31 16 + 1) ∧
    ((s.mailOf .HKP).code = 1 → Ended t .HKP 1 .ok) ∧
    ∀ k, k < 58 →
      (d.getD k none = none → t.rd .HKP (HKP_CH_VALUE k) = putBit (s.rd .HKP (HKP_CH_VALUE k)) 31 false ∧
        t.rd .HKP (HKP_CH_CFG k) = s.rd .HKP (HKP_CH_CFG k)) ∧
      (∀ v, d.getD k none = some v →
        let w := clampI (-32767) 32767 v
        t.rd .HKP (HKP_CH_VALUE k) = wordN (0x80000000 + ofSigned 16 w) ∧
        (32 ≤ k → k ≤ 37 → t.rdN .PWR (PWR_VOLT (k - 32)) = min 65535 (w * 10).toNat) ∧
        (s.bit .HKP (HKP_CH_CFG k) 29 = true → sfld (s.rd .HKP (HKP_CH_HI k)) 15 0 ≤ w → t.bit .HKP (HKP_CH_CFG k) 28 = true ∧
          (s.bit .HKP (HKP_CH_CFG k) 28 = false → t.bit .HKP 0x24 0 = true)) ∧
        (s.bit .HKP (HKP_CH_CFG k) 29 = true →
          w < sfld (s.rd .HKP (HKP_CH_HI k)) 15 0 - (s.f .HKP (HKP_CH_CFG k) 15 0 : Int) → t.bit .HKP (HKP_CH_CFG k) 28 = false) ∧
        (s.bit .HKP (HKP_CH_CFG k) 29 = false → t.bit .HKP (HKP_CH_CFG k) 28 = s.bit .HKP (HKP_CH_CFG k) 28 ∧
          t.bit .HKP (HKP_CH_CFG k) 27 = s.bit .HKP (HKP_CH_CFG k) 27) ∧
        (s.bit .HKP (HKP_CH_CFG k) 30 = true → w ≤ sfld (s.rd .HKP (HKP_CH_LO k)) 31 16 → t.bit .HKP (HKP_CH_CFG k) 26 = true ∧
          t.bit .HKP HKP_STATUS 8 = true))) ∧
  (∀ (s : State) (k : Fin 64) (v : Word), s.open .HKP = false → exec (.hkpCfgWrite k v) s = .next s) ∧
  (∀ (s : State) (k : Fin 64) (v : Word), s.open .HKP = true → Gives (.hkpCfgWrite k v) s fun t =>
    t.f .HKP (HKP_CH_CFG k.val) 15 0 = fld v 15 0 ∧ t.bit .HKP (HKP_CH_CFG k.val) 29 = bitOf v 29 ∧
    t.bit .HKP (HKP_CH_CFG k.val) 30 = bitOf v 30 ∧
    t.bit .HKP (HKP_CH_CFG k.val) 31 = (bitOf v 31 || (decide (16 ≤ k.val) && decide (k.val ≤ 23))) ∧
    t.bit .HKP (HKP_CH_CFG k.val) 28 = (bitOf v 29 && s.bit .HKP (HKP_CH_CFG k.val) 28) ∧
    t.bit .HKP (HKP_CH_CFG k.val) 27 = (bitOf v 29 && s.bit .HKP (HKP_CH_CFG k.val) 27) ∧
    t.bit .HKP (HKP_CH_CFG k.val) 26 = (bitOf v 30 && s.bit .HKP (HKP_CH_CFG k.val) 26)) ∧
  (∀ s : State, Idle s .HKP → Gives .roundNow s (Running s · .HKP 1)) ∧
  (∀ s : State, Idle s .HKP → Gives .clearStates s fun t => Ended t .HKP 2 .ok ∧ ∀ k, k < 64 →
    ((if k < 32 then s.bit .HKP 0x4 k else s.bit .HKP 0x8 (k - 32)) = true → t.f .HKP (HKP_CH_CFG k) 28 25 = 0 ∧
      (s.f .HKP (HKP_CH_CFG k) 28 25 ≠ 0 → t.bit .HKP 0x24 0 = true)) ∧
    ((if k < 32 then s.bit .HKP 0x4 k else s.bit .HKP 0x8 (k - 32)) = false →
      t.rd .HKP (HKP_CH_CFG k) = s.rd .HKP (HKP_CH_CFG k))) ∧
  (∀ (s : State) (k : Fin 64) (c : Fin 3) (v : Int) (d : List (Option Int)),
    s.pwr.phase ∉ [.run, .ride, .reserve] ∨ s.thermalTrip k.val c.val v = false → exec (.thermalShutdown k c v d) s = .next s) ∧
  (∀ (s : State) (k : Fin 64) (c : Fin 3) (v : Int) (d : List (Option Int)), s.pwr.phase ∈ [.run, .ride, .reserve] →
    (c.val = 0 ∧ 16 ≤ k.val ∧ k.val ≤ 23 ∧ 1250 ≤ v) ∨ (0 < c.val ∧ k.val = 29 + c.val ∧ s.bit .HKP (HKP_CH_CFG k.val) 31 = true ∧
      clampI 1000 1700 (sfld (s.rd .HKP (HKP_CH_HI k.val)) 31 16) ≤ v) →
    Gives (.thermalShutdown k c v d) s fun t => t.pwr.phase = .thermal ∧ t.dieOn = false ∧
      t.bit .SAF SAF_STATUS 0 = false ∧ t.bit .SAF SAF_STATUS 1 = false ∧ t.bit .VLV VLV_CUTOFF 0 = false ∧
      t.bit .VLV VLV_CUTOFF 1 = false ∧ t.pnlState = 0) ∧
  (∀ (s : State) (k : Fin 64) (c : Fin 3) (v a : Int) (x y : Option Int), s.pwr.phase ∈ [.run, .ride, .reserve] →
    s.thermalTrip k.val c.val v = true → 1050 < a →
    Gives (.thermalShutdown k c v [some a, x, y]) s fun t => t.bur.queue = [] ∧
      ∃ r ∈ t.aon.slots, r.code = 0x1380 ∧ r.severity = 7 ∧ r.opsec = s.clk.opsec ∧ fld r.d0 7 0 = k.val ∧ fld r.d0 15 8 = c.val)
end

