-- ==== Sys2Proof/Laws/Core.lean ====
section
/-! SUPPORT. Registers, program counters and system registers of host cores and tiles after each operation on them, and what
memory reads after bytes are written. -/

set_option linter.all false

namespace Sys2Proof.Machine

/-- Agents have keys of their own. -/
theorem agentKey_inj (a b : Agent) (h : agentKey a = agentKey b) : a = b := by
  cases a with
  | host c => cases b with
    | host d => exact congrArg Agent.host (Fin.ext h)
    | tile t => simp only [agentKey] at h; have := c.isLt; omega
  | tile c => cases b with
    | host d => simp only [agentKey] at h; have := d.isLt; omega
    | tile t => simp only [agentKey] at h; exact congrArg Agent.tile (Fin.ext (by omega))

/-- An agent's registers after they are set. -/
@[simp] theorem State.cpu_setCpu (s : State) (a : Agent) (c : Cpu) : (s.setCpu a c).cpu a = c := by
  simp [State.setCpu, State.cpu]

/-- Another agent's registers after one agent's are set. -/
theorem State.cpu_setCpu_ne (s : State) (a b : Agent) (c : Cpu) (h : b ≠ a) : (s.setCpu a c).cpu b = s.cpu b := by
  simp only [State.setCpu, State.cpu, State.putCpus_fields]
  exact SMap.get_set_ne _ _ _ _ _ _ (fun e => h (agentKey_inj _ _ e))

/-- Setting an agent's registers changes nothing else. -/
@[simp] theorem State.rd_setCpu (s : State) (a : Agent) (c : Cpu) (b : Block) (o : Nat) : (s.setCpu a c).rd b o = s.rd b o := rfl

/-- An agent's registers depend on the agents' registers alone. -/
theorem State.cpu_congr (s t : State) (a : Agent) (h : t.cpus = s.cpus) : t.cpu a = s.cpu a := by
  unfold State.cpu; rw [h]

/-- The default of a system register: its reset value. -/
theorem State.sysRaw_setSysRaw (s : State) (a : Agent) (n m : Nat) (v : Dword) :
    (s.setSysRaw a n v).sysRaw a m = if m = n then v else s.sysRaw a m := by
  unfold State.setSysRaw State.sysRaw
  rw [State.cpu_setCpu]
  by_cases h : m = n
  · subst h; simp
  · simp only [if_neg h]
    exact SMap.get_set_ne _ _ _ _ _ _ h

@[simp] theorem State.sysRaw_setSysRaw_same (s : State) (a : Agent) (n : Nat) (v : Dword) :
    (s.setSysRaw a n v).sysRaw a n = v := by rw [State.sysRaw_setSysRaw, if_pos rfl]

@[simp] theorem State.sysRaw_setSysRaw_ne (s : State) (a : Agent) (n m : Nat) (v : Dword) (h : m ≠ n) :
    (s.setSysRaw a n v).sysRaw a m = s.sysRaw a m := by rw [State.sysRaw_setSysRaw, if_neg h]

/-- What a system register set leaves of the agent. -/
@[simp] theorem State.setSysRaw_cpu (s : State) (a : Agent) (n : Nat) (v : Dword) :
    ((s.setSysRaw a n v).cpu a).g = (s.cpu a).g ∧ ((s.setSysRaw a n v).cpu a).f = (s.cpu a).f ∧
    ((s.setSysRaw a n v).cpu a).pc = (s.cpu a).pc ∧ ((s.setSysRaw a n v).cpu a).level = (s.cpu a).level ∧
    ((s.setSysRaw a n v).cpu a).trapped = (s.cpu a).trapped ∧ ((s.setSysRaw a n v).cpu a).blocked = (s.cpu a).blocked := by
  simp [State.setSysRaw]

/-- What a general register set leaves of the agent. -/
@[simp] theorem State.setG_cpu (s : State) (a : Agent) (r : Nat) (v : Dword) :
    ((s.setG a r v).cpu a).f = (s.cpu a).f ∧ ((s.setG a r v).cpu a).sys = (s.cpu a).sys ∧
    ((s.setG a r v).cpu a).pc = (s.cpu a).pc ∧ ((s.setG a r v).cpu a).level = (s.cpu a).level ∧
    ((s.setG a r v).cpu a).trapped = (s.cpu a).trapped ∧ ((s.setG a r v).cpu a).blocked = (s.cpu a).blocked := by
  unfold State.setG; split <;> simp

/-- A general register after one is set: g0 discards writes and reads 0. -/
theorem State.g_setG (s : State) (a : Agent) (r k : Nat) (v : Dword) :
    (s.setG a r v).g a k = if k = r ∧ k ≠ 0 then v else s.g a k := by
  unfold State.setG State.g
  by_cases h0 : k = 0
  · simp [h0]
  · by_cases hr : r = 0
    · have : k ≠ r := by omega
      simp [h0, hr]
    · by_cases h : k = r
      · subst h; simp [h0]
      · simp only [h0, hr, h, if_false, false_and, State.cpu_setCpu]
        exact SMap.get_set_ne _ _ _ _ _ _ h

/-- What an f register set leaves of the agent. -/
@[simp] theorem State.setFr_cpu (s : State) (a : Agent) (r : Nat) (v : Dword) :
    ((s.setFr a r v).cpu a).g = (s.cpu a).g ∧ ((s.setFr a r v).cpu a).sys = (s.cpu a).sys ∧
    ((s.setFr a r v).cpu a).pc = (s.cpu a).pc ∧ ((s.setFr a r v).cpu a).level = (s.cpu a).level ∧
    ((s.setFr a r v).cpu a).trapped = (s.cpu a).trapped ∧ ((s.setFr a r v).cpu a).blocked = (s.cpu a).blocked := by
  unfold State.setFr; simp

/-- An f register after one is set: a tile's keeps 32 bits. -/
theorem State.fr_setFr (s : State) (a : Agent) (r k : Nat) (v : Dword) :
    (s.setFr a r v).fr a k =
      if k = r then (if isHost a then v else BitVec.ofNat 64 (v.toNat % 2 ^ 32)) else s.fr a k := by
  unfold State.setFr State.fr
  simp only [State.cpu_setCpu]
  by_cases h : k = r
  · subst h; simp
  · rw [if_neg h]; exact SMap.get_set_ne _ _ _ _ _ _ h

/-- What the program counter set leaves of the agent. -/
@[simp] theorem State.setPc_cpu (s : State) (a : Agent) (v : Dword) :
    ((s.setPc a v).cpu a).g = (s.cpu a).g ∧ ((s.setPc a v).cpu a).f = (s.cpu a).f ∧
    ((s.setPc a v).cpu a).sys = (s.cpu a).sys ∧ ((s.setPc a v).cpu a).pc = v ∧
    ((s.setPc a v).cpu a).level = (s.cpu a).level ∧
    ((s.setPc a v).cpu a).trapped = (s.cpu a).trapped ∧ ((s.setPc a v).cpu a).blocked = (s.cpu a).blocked := by
  unfold State.setPc; simp

/-- What the wait set leaves of the agent. -/
@[simp] theorem State.setBlocked_cpu (s : State) (a : Agent) (b : Blocked) :
    ((s.setBlocked a b).cpu a).g = (s.cpu a).g ∧ ((s.setBlocked a b).cpu a).f = (s.cpu a).f ∧
    ((s.setBlocked a b).cpu a).sys = (s.cpu a).sys ∧ ((s.setBlocked a b).cpu a).pc = (s.cpu a).pc ∧
    ((s.setBlocked a b).cpu a).level = (s.cpu a).level ∧
    ((s.setBlocked a b).cpu a).trapped = (s.cpu a).trapped ∧ ((s.setBlocked a b).cpu a).blocked = b := by
  unfold State.setBlocked; simp

/-- A system register depends on the agent's system registers alone. -/
theorem State.sysRaw_congr (s t : State) (a : Agent) (n : Nat) (h : (t.cpu a).sys = (s.cpu a).sys) : t.sysRaw a n = s.sysRaw a n := by
  unfold State.sysRaw; rw [h]

/-- A general register depends on the agent's general registers alone. -/
theorem State.g_congr (s t : State) (a : Agent) (r : Nat) (h : (t.cpu a).g = (s.cpu a).g) : t.g a r = s.g a r := by
  unfold State.g; rw [h]

/-- An f register depends on the agent's f registers alone. -/
theorem State.fr_congr (s t : State) (a : Agent) (r : Nat) (h : (t.cpu a).f = (s.cpu a).f) : t.fr a r = s.fr a r := by
  unfold State.fr; rw [h]

@[simp] theorem State.sysRaw_setG (s : State) (a : Agent) (r n : Nat) (v : Dword) : (s.setG a r v).sysRaw a n = s.sysRaw a n :=
  State.sysRaw_congr _ _ _ _ (s.setG_cpu a r v).2.1
@[simp] theorem State.sysRaw_setFr (s : State) (a : Agent) (r n : Nat) (v : Dword) : (s.setFr a r v).sysRaw a n = s.sysRaw a n :=
  State.sysRaw_congr _ _ _ _ (s.setFr_cpu a r v).2.1
@[simp] theorem State.sysRaw_setPc (s : State) (a : Agent) (n : Nat) (v : Dword) : (s.setPc a v).sysRaw a n = s.sysRaw a n :=
  State.sysRaw_congr _ _ _ _ (s.setPc_cpu a v).2.2.1
@[simp] theorem State.sysRaw_setBlocked (s : State) (a : Agent) (n : Nat) (b : Blocked) : (s.setBlocked a b).sysRaw a n = s.sysRaw a n :=
  State.sysRaw_congr _ _ _ _ (s.setBlocked_cpu a b).2.2.1
@[simp] theorem State.g_setSysRaw (s : State) (a : Agent) (n r : Nat) (v : Dword) : (s.setSysRaw a n v).g a r = s.g a r :=
  State.g_congr _ _ _ _ (s.setSysRaw_cpu a n v).1
@[simp] theorem State.g_setPc (s : State) (a : Agent) (r : Nat) (v : Dword) : (s.setPc a v).g a r = s.g a r :=
  State.g_congr _ _ _ _ (s.setPc_cpu a v).1
@[simp] theorem State.g_setFr (s : State) (a : Agent) (r k : Nat) (v : Dword) : (s.setFr a k v).g a r = s.g a r :=
  State.g_congr _ _ _ _ (s.setFr_cpu a k v).1
@[simp] theorem State.g_setBlocked (s : State) (a : Agent) (r : Nat) (b : Blocked) : (s.setBlocked a b).g a r = s.g a r :=
  State.g_congr _ _ _ _ (s.setBlocked_cpu a b).1
@[simp] theorem State.fr_setSysRaw (s : State) (a : Agent) (n r : Nat) (v : Dword) : (s.setSysRaw a n v).fr a r = s.fr a r :=
  State.fr_congr _ _ _ _ (s.setSysRaw_cpu a n v).2.1
@[simp] theorem State.fr_setPc (s : State) (a : Agent) (r : Nat) (v : Dword) : (s.setPc a v).fr a r = s.fr a r :=
  State.fr_congr _ _ _ _ (s.setPc_cpu a v).2.1
@[simp] theorem State.fr_setG (s : State) (a : Agent) (r k : Nat) (v : Dword) : (s.setG a k v).fr a r = s.fr a r :=
  State.fr_congr _ _ _ _ (s.setG_cpu a k v).1
@[simp] theorem State.pc_setPc (s : State) (a : Agent) (v : Dword) : (s.setPc a v).pc a = v := (s.setPc_cpu a v).2.2.2.1
@[simp] theorem State.pc_setG (s : State) (a : Agent) (r : Nat) (v : Dword) : (s.setG a r v).pc a = s.pc a := (s.setG_cpu a r v).2.2.1
@[simp] theorem State.pc_setFr (s : State) (a : Agent) (r : Nat) (v : Dword) : (s.setFr a r v).pc a = s.pc a := (s.setFr_cpu a r v).2.2.1
@[simp] theorem State.pc_setSysRaw (s : State) (a : Agent) (n : Nat) (v : Dword) : (s.setSysRaw a n v).pc a = s.pc a :=
  (s.setSysRaw_cpu a n v).2.2.1

/-- Setting one agent's registers leaves the other agents'. -/
theorem State.cpu_setG_ne (s : State) (a b : Agent) (r : Nat) (v : Dword) (h : b ≠ a) : (s.setG a r v).cpu b = s.cpu b := by
  unfold State.setG; split
  · rfl
  · exact State.cpu_setCpu_ne _ _ _ _ h

theorem State.cpu_setSysRaw_ne (s : State) (a b : Agent) (n : Nat) (v : Dword) (h : b ≠ a) :
    (s.setSysRaw a n v).cpu b = s.cpu b := State.cpu_setCpu_ne _ _ _ _ h

/-- A normal end of an instruction: RETIRED counts, the program counter moves, and nothing else of the agent changes. -/
@[simp] theorem State.retire_cpu (s : State) (a : Agent) (p : Dword) :
    ((s.retire a p).cpu a).g = (s.cpu a).g ∧ ((s.retire a p).cpu a).f = (s.cpu a).f ∧ ((s.retire a p).cpu a).pc = p ∧
    ((s.retire a p).cpu a).level = (s.cpu a).level ∧ ((s.retire a p).cpu a).trapped = (s.cpu a).trapped ∧
    ((s.retire a p).cpu a).blocked = (s.cpu a).blocked := by
  simp [State.retire]

@[simp] theorem State.g_retire (s : State) (a : Agent) (r : Nat) (p : Dword) : (s.retire a p).g a r = s.g a r :=
  State.g_congr _ _ _ _ (s.retire_cpu a p).1
@[simp] theorem State.fr_retire (s : State) (a : Agent) (r : Nat) (p : Dword) : (s.retire a p).fr a r = s.fr a r :=
  State.fr_congr _ _ _ _ (s.retire_cpu a p).2.1
@[simp] theorem State.pc_retire (s : State) (a : Agent) (p : Dword) : (s.retire a p).pc a = p := (s.retire_cpu a p).2.2.1
theorem State.sysRaw_retire (s : State) (a : Agent) (n : Nat) (p : Dword) :
    (s.retire a p).sysRaw a n = if n = 0x022 then s.sysRaw a 0x022 + 1 else s.sysRaw a n := by
  rw [State.retire, State.sysRaw_setPc, State.sysRaw_setSysRaw]
theorem State.cpu_retire_ne (s : State) (a b : Agent) (p : Dword) (h : b ≠ a) : (s.retire a p).cpu b = s.cpu b := by
  rw [State.retire, State.setPc, State.cpu_setCpu_ne _ _ _ _ h, State.cpu_setSysRaw_ne _ _ _ _ _ h]

end Sys2Proof.Machine
end

