-- ==== Sys2Proof/Laws/Keeps.lean ====
section
/-! SUPPORT. What every operation of the model keeps: the queue of commands, the canonical form of the stores, and every part of
the state outside its footprint. A footprint is a number with one bit per part. -/

namespace Sys2Proof.Machine

/-- The bit of a block's register window in a footprint. -/
def Block.mask (b : Block) : Nat := 2 ^ b.id

/-- The bit of a part in a footprint. -/
def Part.bit : Part → Nat
  | .win b => b.id
  | .mem => 23
  | .resp => 24
  | .clk => 25
  | .now => 26
  | .free => 27
  | .mail => 28
  | .pgh => 29
  | .fifo => 30
  | .cpus => 31
  | .tlb => 32
  | .sbuf => 33
  | .pickLast => 34
  | .ports => 35
  | .poison => 36
  | .latent => 37
  | .ceAt => 38
  | .bur => 39
  | .sys => 40
  | .lsw => 41
  | .vlv => 42
  | .lpe => 43
  | .emmc => 44
  | .aio => 45
  | .map => 46
  | .tbl => 47
  | .can => 48
  | .eth => 49
  | .pace => 50
  | .cam => 51
  | .upd => 52
  | .svc => 53
  | .cart => 54
  | .pnl => 55
  | .tim => 56
  | .gns => 57
  | .nv => 58
  | .pwr => 59
  | .aon => 60
  | .saf => 61
  | .stq => 62
  | .dmw => 63
  | .psync => 64

/-- The footprint `a` lies in `m`. -/
def Sub (a m : Nat) : Prop := Nat.land a m = a

/-- An origin: a state, and the footprint within which later states may differ from it. -/
structure Orig where
  s : State
  m : Nat

/-- `t` has the queue of the origin, is canonical if the origin is, and agrees with it outside the footprint. -/
def Keeps (o : Orig) (t : State) : Prop :=
  t.pending = o.s.pending ∧ (o.s.Canonical → t.Canonical) ∧ ∀ p : Part, o.m.testBit p.bit = false → o.s.Same t p

/-- An outcome keeps them in its next state. -/
def KeepsR (o : Orig) (r : Res) : Prop := ∀ t, r = .next t → Keeps o t

/-- An optional state keeps them. -/
def KeepsO (o : Orig) (x : Option State) : Prop := ∀ t, x = some t → Keeps o t

/-- The state of a pair's first part keeps them. -/
def KeepsP {α : Type} (o : Orig) (p : State × α) : Prop := Keeps o p.1

/-- The state of a pair's second part keeps them. -/
def KeepsQ {α : Type} (o : Orig) (p : α × State) : Prop := Keeps o p.2

variable {s0 : Orig} {s : State} {a k m : Nat}

theorem Sub.tr (h : Nat.land a k = a) (g : Sub k m) : Sub a m := by
  have e : Nat.land k m = k := g
  have l : ∀ x y, Nat.land x y = x &&& y := fun _ _ => rfl
  unfold Sub
  rw [l] at *
  rw [← h, Nat.and_assoc, e]

theorem Sub.refl (a : Nat) : Sub a a := by
  have l : ∀ x y, Nat.land x y = x &&& y := fun _ _ => rfl
  unfold Sub
  rw [l, Nat.and_self]

theorem Sub.bit (h : Sub a m) (i : Nat) (hi : m.testBit i = false) : a.testBit i = false := by
  have l : ∀ x y, Nat.land x y = x &&& y := fun _ _ => rfl
  unfold Sub at h
  rw [l] at h
  rw [← h, Nat.testBit_and, hi, Bool.and_false]

/-- The window of any block, where the footprint holds them all. -/
theorem Sub.blk (b : Block) (h : Nat.land 8388606 k = 8388606) (g : Sub k m) : Sub b.mask m :=
  Sub.tr (by cases b <;> rfl) (Sub.tr h g)

theorem Sub.bit_mask {b : Block} (h : b.mask.testBit (Part.win c).bit = false) : b ≠ c := by
  intro e
  subst e
  cases b <;> exact absurd h (by decide)

theorem State.same_rfl (p : Part) : s.Same s p := by cases p <;> rfl

theorem State.same_trans {s t u : State} {p : Part} (h : s.Same t p) (g : t.Same u p) : s.Same u p := by
  cases p <;> exact Eq.trans g h

theorem Keeps.rfl' : Keeps ⟨s, m⟩ s := ⟨rfl, id, fun p _ => State.same_rfl p⟩

/-- A change within a footprint. -/
theorem Keeps.within {t : State} (h : Keeps s0 s) (e : t.pending = s.pending) (c : s.Canonical → t.Canonical)
    (g : ∀ p : Part, k.testBit p.bit = false → s.Same t p) (hm : Sub k s0.m) : Keeps s0 t :=
  ⟨e.trans h.1, fun x => c (h.2.1 x), fun p hp => State.same_trans (h.2.2 p hp) (g p (hm.bit _ hp))⟩

theorem Keeps.ite {c : Prop} [Decidable c] {a b : State} (ha : Keeps s0 a) (hb : Keeps s0 b) : Keeps s0 (if c then a else b) := by
  split <;> assumption

theorem Keeps.ite' {c : Prop} [Decidable c] {a b : State} (ha : c → Keeps s0 a) (hb : ¬c → Keeps s0 b) :
    Keeps s0 (if c then a else b) := by
  split
  · exact ha (by assumption)
  · exact hb (by assumption)

theorem KeepsP.ite {α : Type} {c : Prop} [Decidable c] {a b : State × α} (ha : KeepsP s0 a) (hb : KeepsP s0 b) :
    KeepsP s0 (if c then a else b) := by
  split <;> assumption

theorem KeepsQ.ite {α : Type} {c : Prop} [Decidable c] {a b : α × State} (ha : KeepsQ s0 a) (hb : KeepsQ s0 b) :
    KeepsQ s0 (if c then a else b) := by
  split <;> assumption

theorem KeepsP.pair {α : Type} (t : State) (x : α) : KeepsP s0 (t, x) = Keeps s0 t := rfl

theorem KeepsQ.pair {α : Type} (t : State) (x : α) : KeepsQ s0 (x, t) = Keeps s0 t := rfl

theorem KeepsP.fst {α : Type} {p : State × α} (h : KeepsP s0 p) : Keeps s0 p.1 := h

theorem KeepsQ.snd {α : Type} {p : α × State} (h : KeepsQ s0 p) : Keeps s0 p.2 := h

/-- The state of a pair that an equation gives. -/
theorem Keeps.eqSnd {α : Type} {p : α × State} {x : α} {t : State} (e : p = (x, t)) (h : KeepsQ s0 p) : Keeps s0 t := by
  rw [e] at h; exact h

theorem Keeps.eqFst {α : Type} {p : State × α} {x : α} {t : State} (e : p = (t, x)) (h : KeepsP s0 p) : Keeps s0 t := by
  rw [e] at h; exact h

theorem Keeps.eqSome {o : Option State} {t : State} (e : o = some t) (h : KeepsO s0 o) : Keeps s0 t := h t e

theorem Keeps.eqNext {r : Res} {t : State} (e : r = .next t) (h : KeepsR s0 r) : Keeps s0 t := h t e

theorem KeepsO.some {t : State} (h : Keeps s0 t) : KeepsO s0 (some t) := by
  intro u e; cases e; exact h

theorem KeepsO.none : KeepsO s0 none := by
  intro u e; cases e

theorem KeepsO.ite {c : Prop} [Decidable c] {a b : Option State} (ha : KeepsO s0 a) (hb : KeepsO s0 b) :
    KeepsO s0 (if c then a else b) := by
  split <;> assumption

theorem KeepsO.map {α : Type} {f : α → State} (h : ∀ x, Keeps s0 (f x)) (o : Option α) : KeepsO s0 (o.map f) := by
  cases o with
  | none => exact KeepsO.none
  | some x => exact KeepsO.some (h x)

theorem KeepsR.ok {t : State} (h : Keeps s0 t) : KeepsR s0 (ok t) := by
  intro u e; cases e; exact h

theorem KeepsR.ite {c : Prop} [Decidable c] {a b : Res} (ha : KeepsR s0 a) (hb : KeepsR s0 b) :
    KeepsR s0 (if c then a else b) := by
  split <;> assumption

theorem RegFile.win_put_other {r : RegFile} {b c : Block} (h : b ≠ c) (x : SMap Word) : (r.put b x).win c = r.win c := by
  cases b <;> cases c <;> first | rfl | exact absurd rfl h

theorem RegFile.Canonical.put {r : RegFile} (h : r.Canonical) (b : Block) {m : SMap Word} (hm : m.wf (resetVal b) = true) :
    (r.put b m).Canonical := by
  intro c
  by_cases e : b = c
  · subst e; cases b <;> exact hm
  · rw [RegFile.win_put_other e]; exact h c

/-- A change of one register window that keeps its form. -/
theorem Keeps.put (h : Keeps s0 s) (b : Block) (x : SMap Word) (hx : s.Canonical → x.wf (resetVal b) = true)
    (hm : Sub b.mask s0.m) : Keeps s0 { s with regs := s.regs.put b x } :=
  h.within rfl (fun c => ⟨c.1, c.2.1, c.2.2.put b (hx c)⟩)
    (fun p hp => by
      cases p
      case win c => exact RegFile.win_put_other (Sub.bit_mask hp) x
      all_goals rfl) hm

theorem State.wr_keeps (h : Keeps s0 s) (b : Block) (o : Nat) (w : Word) (hm : Sub b.mask s0.m := by first | assumption | exact Sub.tr rfl (by assumption)) : Keeps s0 (s.wr b o w) :=
  h.put b _ (fun c => SMap.wf_set (resetVal b) _ o w (c.2.2 b)) hm

theorem State.resetWindow_keeps (h : Keeps s0 s) (b : Block) (f : Nat → Bool) (hm : Sub b.mask s0.m := by first | assumption | exact Sub.tr rfl (by assumption)) : Keeps s0 (s.resetWindow b f) :=
  h.put b _ (fun c => SMap.wf_keep _ _ _ (c.2.2 b)) hm

/-- A change of memory that keeps its form. -/
theorem State.putMem_keeps (h : Keeps s0 s) (x : SMap Byte) (e : Memory.wf s.mem = true → Memory.wf x = true) (hm : Sub 8388608 s0.m := by first | assumption | exact Sub.tr rfl (by assumption)) :
    Keeps s0 (s.putMem x) :=
  h.within rfl (fun c => ⟨e c.1, c.2⟩)
    (fun p hp => by cases p <;> first | rfl | exact absurd hp (by decide)) hm

/-- A change of the eMMC that keeps its form. -/
theorem State.putEmmc_keeps (h : Keeps s0 s) (x : SMap Byte) (e : s.Canonical → x.wf (fun _ => 0) = true) (hm : Sub 17592186044416 s0.m := by first | assumption | exact Sub.tr rfl (by assumption)) :
    Keeps s0 (s.putEmmc x) :=
  h.within rfl (fun c => ⟨c.1, e c, c.2.2⟩)
    (fun p hp => by cases p <;> first | rfl | exact absurd hp (by decide)) hm

theorem State.wrB_keeps (h : Keeps s0 s) (a : Nat) (v : Byte) (hm : Sub 8388608 s0.m := by first | assumption | exact Sub.tr rfl (by assumption)) : Keeps s0 (s.wrB a v) :=
  State.putMem_keeps h _ (fun m => SMap.wf_set blankByte _ a v m) hm

theorem State.wrBytes_keeps (h : Keeps s0 s) (a : Nat) (bs : List Byte) (hm : Sub 8388608 s0.m := by first | assumption | exact Sub.tr rfl (by assumption)) : Keeps s0 (s.wrBytes a bs) :=
  State.putMem_keeps h _ (fun m => SMap.wf_blit _ _ a bs m) hm

theorem State.each_keeps {α : Type} {f : State → α → State} (hf : ∀ s x, Keeps s0 s → Keeps s0 (f s x)) (h : Keeps s0 s)
    (l : List α) : Keeps s0 (s.each l f) := by
  unfold State.each
  induction l generalizing s with
  | nil => exact h
  | cons x t ih => exact ih (hf s x h)

theorem State.when_keeps {f : State → State} (hf : ∀ s, Keeps s0 s → Keeps s0 (f s)) (h : Keeps s0 s) (c : Bool) :
    Keeps s0 (s.when c f) := by
  unfold State.when
  split
  · exact hf s h
  · exact h

theorem done_keeps (h : Keeps s0 s) (r : Result) : KeepsP s0 (done s r) := h

theorem refuse_keeps (h : Keeps s0 s) (r : Result) : KeepsP s0 (refuse s r) := h

theorem everyPart_all (p : Part) : p ∈ everyPart := by
  cases p
  case win b => cases b <;> decide
  all_goals decide

/-- A footprint said as a list of parts. -/
theorem Keeps.changesOnly {t : State} {ps : List Part} (h : Keeps ⟨s, m⟩ t)
    (hp : everyPart.all (fun p => !m.testBit p.bit || ps.contains p) = true) : s.ChangesOnly t ps := by
  intro p hn
  refine h.2.2 p ?_
  have g := List.all_eq_true.1 hp p (everyPart_all p)
  cases e : m.testBit p.bit with
  | false => rfl
  | true => simp [e] at g; exact absurd g hn

/-! One lemma per store, and per set of stores that one update changes. -/

theorem State.putResp_keeps (h : Keeps s0 s) (x : _) (hm : Sub 16777216 s0.m := by first | assumption | exact Sub.tr rfl (by assumption)) : Keeps s0 (s.putResp x) :=
  h.within rfl id (fun p hp => by cases p <;> first | rfl | exact absurd hp (by decide)) hm

theorem State.putClk_keeps (h : Keeps s0 s) (x : _) (hm : Sub 33554432 s0.m := by first | assumption | exact Sub.tr rfl (by assumption)) : Keeps s0 (s.putClk x) :=
  h.within rfl id (fun p hp => by cases p <;> first | rfl | exact absurd hp (by decide)) hm

theorem State.putNow_keeps (h : Keeps s0 s) (x : _) (hm : Sub 67108864 s0.m := by first | assumption | exact Sub.tr rfl (by assumption)) : Keeps s0 (s.putNow x) :=
  h.within rfl id (fun p hp => by cases p <;> first | rfl | exact absurd hp (by decide)) hm

theorem State.putFree_keeps (h : Keeps s0 s) (x : _) (hm : Sub 134217728 s0.m := by first | assumption | exact Sub.tr rfl (by assumption)) : Keeps s0 (s.putFree x) :=
  h.within rfl id (fun p hp => by cases p <;> first | rfl | exact absurd hp (by decide)) hm

theorem State.putMail_keeps (h : Keeps s0 s) (x : _) (hm : Sub 268435456 s0.m := by first | assumption | exact Sub.tr rfl (by assumption)) : Keeps s0 (s.putMail x) :=
  h.within rfl id (fun p hp => by cases p <;> first | rfl | exact absurd hp (by decide)) hm

theorem State.putPgh_keeps (h : Keeps s0 s) (x : _) (hm : Sub 536870912 s0.m := by first | assumption | exact Sub.tr rfl (by assumption)) : Keeps s0 (s.putPgh x) :=
  h.within rfl id (fun p hp => by cases p <;> first | rfl | exact absurd hp (by decide)) hm

theorem State.putFifo_keeps (h : Keeps s0 s) (x : _) (hm : Sub 1073741824 s0.m := by first | assumption | exact Sub.tr rfl (by assumption)) : Keeps s0 (s.putFifo x) :=
  h.within rfl id (fun p hp => by cases p <;> first | rfl | exact absurd hp (by decide)) hm

theorem State.putCpus_keeps (h : Keeps s0 s) (x : _) (hm : Sub 2147483648 s0.m := by first | assumption | exact Sub.tr rfl (by assumption)) : Keeps s0 (s.putCpus x) :=
  h.within rfl id (fun p hp => by cases p <;> first | rfl | exact absurd hp (by decide)) hm

theorem State.putTlb_keeps (h : Keeps s0 s) (x : _) (hm : Sub 4294967296 s0.m := by first | assumption | exact Sub.tr rfl (by assumption)) : Keeps s0 (s.putTlb x) :=
  h.within rfl id (fun p hp => by cases p <;> first | rfl | exact absurd hp (by decide)) hm

theorem State.putSbuf_keeps (h : Keeps s0 s) (x : _) (hm : Sub 8589934592 s0.m := by first | assumption | exact Sub.tr rfl (by assumption)) : Keeps s0 (s.putSbuf x) :=
  h.within rfl id (fun p hp => by cases p <;> first | rfl | exact absurd hp (by decide)) hm

theorem State.putPickLast_keeps (h : Keeps s0 s) (x : _) (hm : Sub 17179869184 s0.m := by first | assumption | exact Sub.tr rfl (by assumption)) : Keeps s0 (s.putPickLast x) :=
  h.within rfl id (fun p hp => by cases p <;> first | rfl | exact absurd hp (by decide)) hm

theorem State.putPorts_keeps (h : Keeps s0 s) (x : _) (hm : Sub 34359738368 s0.m := by first | assumption | exact Sub.tr rfl (by assumption)) : Keeps s0 (s.putPorts x) :=
  h.within rfl id (fun p hp => by cases p <;> first | rfl | exact absurd hp (by decide)) hm

theorem State.putPoison_keeps (h : Keeps s0 s) (x : _) (hm : Sub 68719476736 s0.m := by first | assumption | exact Sub.tr rfl (by assumption)) : Keeps s0 (s.putPoison x) :=
  h.within rfl id (fun p hp => by cases p <;> first | rfl | exact absurd hp (by decide)) hm

theorem State.putLatent_keeps (h : Keeps s0 s) (x : _) (hm : Sub 137438953472 s0.m := by first | assumption | exact Sub.tr rfl (by assumption)) : Keeps s0 (s.putLatent x) :=
  h.within rfl id (fun p hp => by cases p <;> first | rfl | exact absurd hp (by decide)) hm

theorem State.putCeAt_keeps (h : Keeps s0 s) (x : _) (hm : Sub 274877906944 s0.m := by first | assumption | exact Sub.tr rfl (by assumption)) : Keeps s0 (s.putCeAt x) :=
  h.within rfl id (fun p hp => by cases p <;> first | rfl | exact absurd hp (by decide)) hm

theorem State.putBur_keeps (h : Keeps s0 s) (x : _) (hm : Sub 549755813888 s0.m := by first | assumption | exact Sub.tr rfl (by assumption)) : Keeps s0 (s.putBur x) :=
  h.within rfl id (fun p hp => by cases p <;> first | rfl | exact absurd hp (by decide)) hm

theorem State.putSys_keeps (h : Keeps s0 s) (x : _) (hm : Sub 1099511627776 s0.m := by first | assumption | exact Sub.tr rfl (by assumption)) : Keeps s0 (s.putSys x) :=
  h.within rfl id (fun p hp => by cases p <;> first | rfl | exact absurd hp (by decide)) hm

theorem State.putLsw_keeps (h : Keeps s0 s) (x : _) (hm : Sub 2199023255552 s0.m := by first | assumption | exact Sub.tr rfl (by assumption)) : Keeps s0 (s.putLsw x) :=
  h.within rfl id (fun p hp => by cases p <;> first | rfl | exact absurd hp (by decide)) hm

theorem State.putVlv_keeps (h : Keeps s0 s) (x : _) (hm : Sub 4398046511104 s0.m := by first | assumption | exact Sub.tr rfl (by assumption)) : Keeps s0 (s.putVlv x) :=
  h.within rfl id (fun p hp => by cases p <;> first | rfl | exact absurd hp (by decide)) hm

theorem State.putLpe_keeps (h : Keeps s0 s) (x : _) (hm : Sub 8796093022208 s0.m := by first | assumption | exact Sub.tr rfl (by assumption)) : Keeps s0 (s.putLpe x) :=
  h.within rfl id (fun p hp => by cases p <;> first | rfl | exact absurd hp (by decide)) hm

theorem State.putAio_keeps (h : Keeps s0 s) (x : _) (hm : Sub 35184372088832 s0.m := by first | assumption | exact Sub.tr rfl (by assumption)) : Keeps s0 (s.putAio x) :=
  h.within rfl id (fun p hp => by cases p <;> first | rfl | exact absurd hp (by decide)) hm

theorem State.putMap_keeps (h : Keeps s0 s) (x : _) (hm : Sub 70368744177664 s0.m := by first | assumption | exact Sub.tr rfl (by assumption)) : Keeps s0 (s.putMap x) :=
  h.within rfl id (fun p hp => by cases p <;> first | rfl | exact absurd hp (by decide)) hm

theorem State.putTbl_keeps (h : Keeps s0 s) (x : _) (hm : Sub 140737488355328 s0.m := by first | assumption | exact Sub.tr rfl (by assumption)) : Keeps s0 (s.putTbl x) :=
  h.within rfl id (fun p hp => by cases p <;> first | rfl | exact absurd hp (by decide)) hm

theorem State.putCan_keeps (h : Keeps s0 s) (x : _) (hm : Sub 281474976710656 s0.m := by first | assumption | exact Sub.tr rfl (by assumption)) : Keeps s0 (s.putCan x) :=
  h.within rfl id (fun p hp => by cases p <;> first | rfl | exact absurd hp (by decide)) hm

theorem State.putEth_keeps (h : Keeps s0 s) (x : _) (hm : Sub 562949953421312 s0.m := by first | assumption | exact Sub.tr rfl (by assumption)) : Keeps s0 (s.putEth x) :=
  h.within rfl id (fun p hp => by cases p <;> first | rfl | exact absurd hp (by decide)) hm

theorem State.putPace_keeps (h : Keeps s0 s) (x : _) (hm : Sub 1125899906842624 s0.m := by first | assumption | exact Sub.tr rfl (by assumption)) : Keeps s0 (s.putPace x) :=
  h.within rfl id (fun p hp => by cases p <;> first | rfl | exact absurd hp (by decide)) hm

theorem State.putCam_keeps (h : Keeps s0 s) (x : _) (hm : Sub 2251799813685248 s0.m := by first | assumption | exact Sub.tr rfl (by assumption)) : Keeps s0 (s.putCam x) :=
  h.within rfl id (fun p hp => by cases p <;> first | rfl | exact absurd hp (by decide)) hm

theorem State.putUpd_keeps (h : Keeps s0 s) (x : _) (hm : Sub 4503599627370496 s0.m := by first | assumption | exact Sub.tr rfl (by assumption)) : Keeps s0 (s.putUpd x) :=
  h.within rfl id (fun p hp => by cases p <;> first | rfl | exact absurd hp (by decide)) hm

theorem State.putSvc_keeps (h : Keeps s0 s) (x : _) (hm : Sub 9007199254740992 s0.m := by first | assumption | exact Sub.tr rfl (by assumption)) : Keeps s0 (s.putSvc x) :=
  h.within rfl id (fun p hp => by cases p <;> first | rfl | exact absurd hp (by decide)) hm

theorem State.putCart_keeps (h : Keeps s0 s) (x : _) (hm : Sub 18014398509481984 s0.m := by first | assumption | exact Sub.tr rfl (by assumption)) : Keeps s0 (s.putCart x) :=
  h.within rfl id (fun p hp => by cases p <;> first | rfl | exact absurd hp (by decide)) hm

theorem State.putPnl_keeps (h : Keeps s0 s) (x : _) (hm : Sub 36028797018963968 s0.m := by first | assumption | exact Sub.tr rfl (by assumption)) : Keeps s0 (s.putPnl x) :=
  h.within rfl id (fun p hp => by cases p <;> first | rfl | exact absurd hp (by decide)) hm

theorem State.putTim_keeps (h : Keeps s0 s) (x : _) (hm : Sub 72057594037927936 s0.m := by first | assumption | exact Sub.tr rfl (by assumption)) : Keeps s0 (s.putTim x) :=
  h.within rfl id (fun p hp => by cases p <;> first | rfl | exact absurd hp (by decide)) hm

theorem State.putGns_keeps (h : Keeps s0 s) (x : _) (hm : Sub 144115188075855872 s0.m := by first | assumption | exact Sub.tr rfl (by assumption)) : Keeps s0 (s.putGns x) :=
  h.within rfl id (fun p hp => by cases p <;> first | rfl | exact absurd hp (by decide)) hm

theorem State.putNv_keeps (h : Keeps s0 s) (x : _) (hm : Sub 288230376151711744 s0.m := by first | assumption | exact Sub.tr rfl (by assumption)) : Keeps s0 (s.putNv x) :=
  h.within rfl id (fun p hp => by cases p <;> first | rfl | exact absurd hp (by decide)) hm

theorem State.putPwr_keeps (h : Keeps s0 s) (x : _) (hm : Sub 576460752303423488 s0.m := by first | assumption | exact Sub.tr rfl (by assumption)) : Keeps s0 (s.putPwr x) :=
  h.within rfl id (fun p hp => by cases p <;> first | rfl | exact absurd hp (by decide)) hm

theorem State.putAon_keeps (h : Keeps s0 s) (x : _) (hm : Sub 1152921504606846976 s0.m := by first | assumption | exact Sub.tr rfl (by assumption)) : Keeps s0 (s.putAon x) :=
  h.within rfl id (fun p hp => by cases p <;> first | rfl | exact absurd hp (by decide)) hm

theorem State.putSaf_keeps (h : Keeps s0 s) (x : _) (hm : Sub 2305843009213693952 s0.m := by first | assumption | exact Sub.tr rfl (by assumption)) : Keeps s0 (s.putSaf x) :=
  h.within rfl id (fun p hp => by cases p <;> first | rfl | exact absurd hp (by decide)) hm

theorem State.putStq_keeps (h : Keeps s0 s) (x : _) (hm : Sub 4611686018427387904 s0.m := by first | assumption | exact Sub.tr rfl (by assumption)) : Keeps s0 (s.putStq x) :=
  h.within rfl id (fun p hp => by cases p <;> first | rfl | exact absurd hp (by decide)) hm

theorem State.putDmw_keeps (h : Keeps s0 s) (x : _) (hm : Sub 9223372036854775808 s0.m := by first | assumption | exact Sub.tr rfl (by assumption)) : Keeps s0 (s.putDmw x) :=
  h.within rfl id (fun p hp => by cases p <;> first | rfl | exact absurd hp (by decide)) hm

theorem State.putPsync_keeps (h : Keeps s0 s) (x : _) (hm : Sub 18446744073709551616 s0.m := by first | assumption | exact Sub.tr rfl (by assumption)) : Keeps s0 (s.putPsync x) :=
  h.within rfl id (fun p hp => by cases p <;> first | rfl | exact absurd hp (by decide)) hm

theorem Keeps.set_mail_pgh_fifo_cpus_tlb_sbuf_pickLast_ports_lpe_aio_can_eth_svc_cart_saf_stq_dmw_psync (h : Keeps s0 s) {x0 x1 x2 x3 x4 x5 x6 x7 x8 x9 x10 x11 x12 x13 x14 x15 x16 x17} (hm : Sub 34615555209815916544 s0.m := by first | assumption | exact Sub.tr rfl (by assumption)) :
    Keeps s0 { s with mail := x0, pgh := x1, fifo := x2, cpus := x3, tlb := x4, sbuf := x5, pickLast := x6, ports := x7, lpe := x8, aio := x9, can := x10, eth := x11, svc := x12, cart := x13, saf := x14, stq := x15, dmw := x16, psync := x17 } :=
  h.within rfl id (fun p hp => by cases p <;> first | rfl | exact absurd hp (by decide)) hm

theorem Keeps.set_sys (h : Keeps s0 s) {x0} (hm : Sub 1099511627776 s0.m := by first | assumption | exact Sub.tr rfl (by assumption)) :
    Keeps s0 { s with sys := x0 } :=
  h.within rfl id (fun p hp => by cases p <;> first | rfl | exact absurd hp (by decide)) hm

end Sys2Proof.Machine
end

