-- ==== Sys2Proof/Laws/KeepsOps.lean ====
section
/-! SUPPORT. The operations of Machine/Ops.lean keep the queue of commands and the canonical form, and change no part outside
their footprint. -/

set_option linter.unusedSimpArgs false
set_option linter.unusedVariables false
set_option Elab.async false

namespace Sys2Proof.Machine

theorem State.setF_keeps {s0 : Orig} {s : State} (h : Keeps s0 s) (b : Block) (o hi lo v : Nat) (hb0 : Sub b.mask s0.m := by first | assumption | exact Sub.tr rfl (by assumption)) : Keeps s0 (State.setF s b o hi lo v) := by
  unfold State.setF
  try dsimp only
  repeat' first | with_reducible assumption | with_reducible intro _ | with_reducible apply Keeps.ite | with_reducible apply State.wr_keeps | split

theorem State.setBit_keeps {s0 : Orig} {s : State} (h : Keeps s0 s) (b : Block) (o i : Nat) (v : Bool) (hb0 : Sub b.mask s0.m := by first | assumption | exact Sub.tr rfl (by assumption)) : Keeps s0 (State.setBit s b o i v) := by
  unfold State.setBit
  try dsimp only
  repeat' first | with_reducible assumption | with_reducible intro _ | with_reducible apply Keeps.ite | with_reducible apply State.wr_keeps | split

theorem State.wrN_keeps {s0 : Orig} {s : State} (h : Keeps s0 s) (b : Block) (o v : Nat) (hb0 : Sub b.mask s0.m := by first | assumption | exact Sub.tr rfl (by assumption)) : Keeps s0 (State.wrN s b o v) := by
  unfold State.wrN
  try dsimp only
  repeat' first | with_reducible assumption | with_reducible intro _ | with_reducible apply Keeps.ite | with_reducible apply State.wr_keeps | split

theorem State.incF_keeps {s0 : Orig} {s : State} (h : Keeps s0 s) (b : Block) (o hi lo n : Nat) (hb0 : Sub b.mask s0.m) : Keeps s0 (State.incF s b o hi lo n) := by
  unfold State.incF
  try dsimp only
  repeat' first | with_reducible assumption | with_reducible intro _ | with_reducible apply Keeps.ite | with_reducible apply State.setF_keeps | split

theorem State.elapse_keeps {s0 : Orig} {s : State} (h : Keeps s0 s) (n : Nat) (hm : Sub 33554432 s0.m) : Keeps s0 (State.elapse s n) := by
  unfold State.elapse
  try dsimp only
  repeat' first | with_reducible assumption | with_reducible intro _ | ((with_reducible refine Sub.tr ?_ hm); exact rfl) | with_reducible apply Keeps.ite | with_reducible apply State.putClk_keeps | split

theorem State.pass_keeps {s0 : Orig} {s : State} (h : Keeps s0 s) (n : Nat) (hm : Sub 72057594138591232 s0.m) : Keeps s0 (State.pass s n) := by
  unfold State.pass
  try dsimp only
  repeat' first | with_reducible assumption | with_reducible intro _ | ((with_reducible refine Sub.tr ?_ hm); exact rfl) | with_reducible apply Keeps.ite | with_reducible apply State.putNow_keeps | with_reducible apply State.putTim_keeps | with_reducible apply State.elapse_keeps | split

theorem State.passTo_keeps {s0 : Orig} {s : State} (h : Keeps s0 s) (t : Nat) (hm : Sub 72057594138591232 s0.m) : Keeps s0 (State.passTo s t) := by
  unfold State.passTo
  try dsimp only
  repeat' first | with_reducible assumption | with_reducible intro _ | ((with_reducible refine Sub.tr ?_ hm); exact rfl) | with_reducible apply Keeps.ite | with_reducible apply State.putNow_keeps | with_reducible apply State.putTim_keeps | with_reducible apply State.elapse_keeps | split

theorem State.drawn_keeps {s0 : Orig} {s : State} (h : Keeps s0 s)  (hm : Sub 134217728 s0.m := by first | assumption | exact Sub.tr rfl (by assumption)) : Keeps s0 (State.drawn s) := by
  unfold State.drawn
  try dsimp only
  repeat' first | with_reducible assumption | with_reducible intro _ | ((with_reducible refine Sub.tr ?_ hm); exact rfl) | with_reducible apply Keeps.ite | with_reducible apply State.putFree_keeps | split

theorem State.partClear_keeps {s0 : Orig} {s : State} (h : Keeps s0 s) (q : Nat) (hm : Sub 9223372036854775808 s0.m) : Keeps s0 (State.partClear s q) := by
  unfold State.partClear
  try dsimp only
  repeat' first | with_reducible assumption | with_reducible intro _ | ((with_reducible refine Sub.tr ?_ hm); exact rfl) | with_reducible apply Keeps.ite | with_reducible apply State.putDmw_keeps | split

theorem State.wrLE_keeps {s0 : Orig} {s : State} (h : Keeps s0 s) (a n v : Nat) (hm : Sub 8388608 s0.m) : Keeps s0 (State.wrLE s a n v) := by
  unfold State.wrLE
  try dsimp only
  repeat' first | with_reducible assumption | with_reducible intro _ | ((with_reducible refine Sub.tr ?_ hm); exact rfl) | with_reducible apply Keeps.ite | with_reducible apply State.wrBytes_keeps | split

theorem State.burShow_keeps {s0 : Orig} {s : State} (h : Keeps s0 s)  (hm : Sub 262144 s0.m) : Keeps s0 (State.burShow s) := by
  unfold State.burShow
  try dsimp only
  repeat' first | with_reducible assumption | with_reducible intro _ | ((with_reducible refine Sub.tr ?_ hm); exact rfl) | with_reducible apply Keeps.ite | with_reducible apply State.setF_keeps | with_reducible apply State.setBit_keeps | split

theorem State.burEnter_keeps {s0 : Orig} {s : State} (h : Keeps s0 s) (r : BurRec) (hm : Sub 549756076032 s0.m) : Keeps s0 (State.burEnter s r) := by
  unfold State.burEnter
  try dsimp only
  repeat' first | with_reducible assumption | with_reducible intro _ | ((with_reducible refine Sub.tr ?_ hm); exact rfl) | with_reducible apply Keeps.ite | with_reducible apply State.putBur_keeps | with_reducible apply State.incF_keeps | with_reducible apply State.burShow_keeps | split

theorem State.setPend_keeps {s0 : Orig} {s : State} (h : Keeps s0 s) (p : Nat) (v : Bool) (hm : Sub 8 s0.m) : Keeps s0 (State.setPend s p v) := by
  unfold State.setPend
  try dsimp only
  repeat' first | with_reducible assumption | with_reducible intro _ | ((with_reducible refine Sub.tr ?_ hm); exact rfl) | with_reducible apply Keeps.ite | with_reducible apply State.setBit_keeps | split

theorem State.phCount_keeps {s0 : Orig} {s : State} (h : Keeps s0 s) (p : Nat) (hm : Sub 536870920 s0.m) : Keeps s0 (State.phCount s p) := by
  unfold State.phCount
  try dsimp only
  repeat' first | with_reducible assumption | with_reducible intro _ | ((with_reducible refine Sub.tr ?_ hm); exact rfl) | with_reducible apply Keeps.ite | with_reducible apply State.incF_keeps | with_reducible apply State.setPend_keeps | with_reducible apply State.putPgh_keeps | split

theorem State.phRaise_keeps {s0 : Orig} {s : State} (h : Keeps s0 s) (p : Nat) (r : BurRec) (hm : Sub 550292946952 s0.m) : Keeps s0 (State.phRaise s p r) := by
  unfold State.phRaise
  try dsimp only
  repeat' first | with_reducible assumption | with_reducible intro _ | ((with_reducible refine Sub.tr ?_ hm); exact rfl) | with_reducible apply Keeps.ite | with_reducible apply State.phCount_keeps | with_reducible apply State.burEnter_keeps | split

theorem State.eventAt_keeps {s0 : Orig} {s : State} (h : Keeps s0 s) (e : EvSrc) (bit ph : Nat) (hm : Sub 550292946952 s0.m) (hb0 : Sub e.b.mask s0.m) : Keeps s0 (State.eventAt s e bit ph) := by
  unfold State.eventAt
  try dsimp only
  repeat' first | with_reducible assumption | with_reducible intro _ | ((with_reducible refine Sub.tr ?_ hm); exact rfl) | with_reducible apply Keeps.ite | with_reducible apply State.setBit_keeps | with_reducible apply State.phRaise_keeps | split

theorem State.eventSrc_keeps {s0 : Orig} {s : State} (h : Keeps s0 s) (b : Block) (bit src : Nat) (hm : Sub 550292946952 s0.m) (hb0 : Sub b.mask s0.m) : Keeps s0 (State.eventSrc s b bit src) := by
  unfold State.eventSrc
  try dsimp only
  repeat' first | with_reducible assumption | with_reducible intro _ | ((with_reducible refine Sub.tr ?_ hm); exact rfl) | with_reducible apply Keeps.ite | with_reducible apply State.eventAt_keeps | split | (dsimp only; (with_reducible refine Sub.tr ?_ hm); exact rfl)

theorem State.event_keeps {s0 : Orig} {s : State} (h : Keeps s0 s) (b : Block) (bit : Nat) (hm : Sub 550292946952 s0.m := by first | assumption | exact Sub.tr rfl (by assumption)) (hb0 : Sub b.mask s0.m := by first | assumption | exact Sub.tr rfl (by assumption)) : Keeps s0 (State.event s b bit) := by
  unfold State.event
  try dsimp only
  repeat' first | with_reducible assumption | with_reducible intro _ | ((with_reducible refine Sub.tr ?_ hm); exact rfl) | with_reducible apply Keeps.ite | with_reducible apply State.eventSrc_keeps | split

theorem State.vlvEvent_keeps {s0 : Orig} {s : State} (h : Keeps s0 s) (n bit : Nat) (hm : Sub 550292947976 s0.m) : Keeps s0 (State.vlvEvent s n bit) := by
  unfold State.vlvEvent
  try dsimp only
  repeat' first | with_reducible assumption | with_reducible intro _ | ((with_reducible refine Sub.tr ?_ hm); exact rfl) | with_reducible apply Keeps.ite | with_reducible apply State.eventAt_keeps | split | (dsimp only; (with_reducible refine Sub.tr ?_ hm); exact rfl)

theorem State.lswEvent_keeps {s0 : Orig} {s : State} (h : Keeps s0 s) (n bit : Nat) (hm : Sub 550292949000 s0.m) : Keeps s0 (State.lswEvent s n bit) := by
  unfold State.lswEvent
  try dsimp only
  repeat' first | with_reducible assumption | with_reducible intro _ | ((with_reducible refine Sub.tr ?_ hm); exact rfl) | with_reducible apply Keeps.ite | with_reducible apply State.eventAt_keeps | split | (dsimp only; (with_reducible refine Sub.tr ?_ hm); exact rfl)

theorem State.canEvent_keeps {s0 : Orig} {s : State} (h : Keeps s0 s) (n bit : Nat) (hm : Sub 550292979720 s0.m := by first | assumption | exact Sub.tr rfl (by assumption)) : Keeps s0 (State.canEvent s n bit) := by
  unfold State.canEvent
  try dsimp only
  repeat' first | with_reducible assumption | with_reducible intro _ | ((with_reducible refine Sub.tr ?_ hm); exact rfl) | with_reducible apply Keeps.ite | with_reducible apply State.eventAt_keeps | split | (dsimp only; (with_reducible refine Sub.tr ?_ hm); exact rfl)

theorem Sub.or {a b m : Nat} (h : Sub a m) (g : Sub b m) : Sub (a ||| b) m := by
  have l : ∀ x y, Nat.land x y = x &&& y := fun _ _ => rfl
  unfold Sub at *
  rw [l] at *
  rw [Nat.and_or_distrib_right, h, g]

theorem State.cmdShow_keeps {s0 : Orig} {s : State} (h : Keeps s0 s) (b : Block) (code : Nat) (args : List Word) (r : Result) (hm : Sub 550292946952 s0.m := by first | assumption | exact Sub.tr rfl (by assumption))
    (hb0 : Sub b.mask s0.m := by first | assumption | exact Sub.tr rfl (by assumption)) :
    Keeps s0 (State.cmdShow s b code args r) := by
  have k := State.wrN_keeps h b 0x14 (code * 256 + r.code)
  unfold State.cmdShow
  refine Keeps.ite' (fun e => ?_) (fun _ => ?_)
  · subst e
    have g : Sub 550292979720 s0.m := Sub.tr rfl (Sub.or hm hb0)
    exact State.each_keeps (fun _ _ j => State.canEvent_keeps j _ _) k _
  · split
    · exact State.event_keeps k _ _
    · exact k

theorem State.setMail_keeps {s0 : Orig} {s : State} (h : Keeps s0 s) (b : Block) (m : Mail) (hm : Sub 268435456 s0.m) : Keeps s0 (State.setMail s b m) := by
  unfold State.setMail
  try dsimp only
  repeat' first | with_reducible assumption | with_reducible intro _ | ((with_reducible refine Sub.tr ?_ hm); exact rfl) | with_reducible apply Keeps.ite | with_reducible apply State.putMail_keeps | split

theorem State.cmdEnd_keeps {s0 : Orig} {s : State} (h : Keeps s0 s) (b : Block) (r : Result) (hm : Sub 550561382408 s0.m) (hb0 : Sub b.mask s0.m) : Keeps s0 (State.cmdEnd s b r) := by
  unfold State.cmdEnd
  try dsimp only
  repeat' first | with_reducible assumption | with_reducible intro _ | ((with_reducible refine Sub.tr ?_ hm); exact rfl) | with_reducible apply Keeps.ite | with_reducible apply State.setMail_keeps | with_reducible apply State.cmdShow_keeps | split

theorem State.cmdEndIf_keeps {s0 : Orig} {s : State} (h : Keeps s0 s) (b : Block) (c : Nat) (r : Result) (hm : Sub 550561382408 s0.m := by first | assumption | exact Sub.tr rfl (by assumption)) (hb0 : Sub b.mask s0.m := by first | assumption | exact Sub.tr rfl (by assumption)) : Keeps s0 (State.cmdEndIf s b c r) := by
  unfold State.cmdEndIf
  try dsimp only
  repeat' first | with_reducible assumption | with_reducible intro _ | ((with_reducible refine Sub.tr ?_ hm); exact rfl) | with_reducible apply Keeps.ite | with_reducible apply State.cmdEnd_keeps | split

theorem State.command_keeps {s0 : Orig} {s : State} (h : Keeps s0 s) (b : Block) (c : Nat) (body : List Word → State → State × Option Result) (hbody : ∀ x0 x1, Keeps s0 x1 → KeepsP s0 (body x0 x1)) (hm : Sub 550561382408 s0.m := by first | assumption | exact Sub.tr rfl (by assumption)) (hb0 : Sub b.mask s0.m := by first | assumption | exact Sub.tr rfl (by assumption)) : Keeps s0 (State.command s b c body) := by
  unfold State.command
  try dsimp only
  repeat' first | with_reducible assumption | with_reducible intro _ | ((with_reducible refine Sub.tr ?_ hm); exact rfl) | with_reducible apply hbody | with_reducible apply Keeps.ite | with_reducible apply KeepsP.ite | with_reducible apply State.cmdShow_keeps | with_reducible apply State.setMail_keeps | with_reducible apply State.wrN_keeps | with_reducible apply State.cmdEnd_keeps | simp -zeta only [KeepsP.pair, KeepsQ.pair] | with_reducible apply KeepsP.fst | split | with_reducible refine Keeps.eqFst (by assumption) ?_

theorem State.cancel_keeps {s0 : Orig} {s : State} (h : Keeps s0 s) (b : Block) (c target : Nat) (names : List Word → List Word → Bool) (undo : List Word → State → State) (hundo : ∀ x0 x1, Keeps s0 x1 → Keeps s0 (undo x0 x1)) (hm : Sub 550561382408 s0.m) (hb0 : Sub b.mask s0.m) : Keeps s0 (State.cancel s b c target names undo) := by
  unfold State.cancel
  try dsimp only
  repeat' first | with_reducible assumption | with_reducible intro _ | ((with_reducible refine Sub.tr ?_ hm); exact rfl) | with_reducible apply hundo | with_reducible apply Keeps.ite | with_reducible apply KeepsP.ite | with_reducible apply State.cmdEnd_keeps | with_reducible apply State.cmdShow_keeps | with_reducible apply State.command_keeps | simp -zeta only [KeepsP.pair, KeepsQ.pair] | with_reducible apply KeepsP.fst | split | with_reducible refine Keeps.eqFst (by assumption) ?_

theorem ok_keeps {s0 : Orig} {s : State} (h : Keeps s0 s)  (hm : Sub 0 s0.m) : KeepsR s0 (ok s) := by
  unfold ok
  try dsimp only
  repeat' first | with_reducible assumption | with_reducible intro _ | ((with_reducible refine Sub.tr ?_ hm); exact rfl) | with_reducible apply Keeps.ite | with_reducible apply KeepsR.ok | with_reducible apply KeepsR.ite | split | with_reducible refine Keeps.eqNext (by assumption) ?_

end Sys2Proof.Machine
end

