-- ==== Sys2Proof/Laws/KeepsBureau.lean ====
section
/-! SUPPORT. The operations of Machine/Bureau.lean keep the queue of commands and the canonical form, and change no part outside
their footprint. -/

set_option linter.unusedSimpArgs false
set_option linter.unusedVariables false
set_option Elab.async false

namespace Sys2Proof.Machine

theorem State.tornUnit_keeps {s0 : Orig} {s : State} (h : Keeps s0 s) (store : Nat) (hm : Sub 550297141256 s0.m := by first | assumption | exact Sub.tr rfl (by assumption)) : Keeps s0 (State.tornUnit s store) := by
  unfold State.tornUnit
  try dsimp only
  repeat' first | with_reducible assumption | with_reducible intro _ | ((with_reducible refine Sub.tr ?_ hm); exact rfl) | with_reducible apply Keeps.ite | with_reducible apply State.incF_keeps | with_reducible apply State.event_keeps | split

theorem State.burNotice_keeps {s0 : Orig} {s : State} (h : Keeps s0 s) (severity : Nat) (hm : Sub 550292946952 s0.m) : Keeps s0 (State.burNotice s severity) := by
  unfold State.burNotice
  try dsimp only
  repeat' first | with_reducible assumption | with_reducible intro _ | ((with_reducible refine Sub.tr ?_ hm); exact rfl) | with_reducible apply Keeps.ite | with_reducible apply State.event_keeps | split

theorem State.burAppend_keeps {s0 : Orig} {s : State} (h : Keeps s0 s) (r : BurRec) (hm : Sub 550301335560 s0.m) : Keeps s0 (State.burAppend s r) := by
  unfold State.burAppend
  try dsimp only
  repeat' first | with_reducible assumption | with_reducible intro _ | ((with_reducible refine Sub.tr ?_ hm); exact rfl) | with_reducible apply Keeps.ite | with_reducible apply State.wrBytes_keeps | with_reducible apply State.wrN_keeps | with_reducible apply State.burNotice_keeps | split

theorem State.burFold_keeps {s0 : Orig} {s : State} (h : Keeps s0 s) (r : BurRec) (i : Nat) (hm : Sub 8388608 s0.m) : Keeps s0 (State.burFold s r i) := by
  unfold State.burFold
  try dsimp only
  repeat' first | with_reducible assumption | with_reducible intro _ | ((with_reducible refine Sub.tr ?_ hm); exact rfl) | with_reducible apply Keeps.ite | with_reducible apply State.wrBytes_keeps | with_reducible apply State.wrB_keeps | split

theorem State.burDrain_keeps {s0 : Orig} {s : State} (h : Keeps s0 s)  (hm : Sub 550301335560 s0.m) : Keeps s0 (State.burDrain s) := by
  unfold State.burDrain
  try dsimp only
  repeat' first | with_reducible assumption | with_reducible intro _ | ((with_reducible refine Sub.tr ?_ hm); exact rfl) | with_reducible apply Keeps.ite | with_reducible apply State.putBur_keeps | with_reducible apply State.burAppend_keeps | with_reducible apply State.burFold_keeps | with_reducible apply State.burEnter_keeps | with_reducible apply State.event_keeps | with_reducible apply State.burShow_keeps | split

theorem State.burPatch_keeps {s0 : Orig} {s : State} (h : Keeps s0 s)  (hm : Sub 549764202496 s0.m) : Keeps s0 (State.burPatch s) := by
  unfold State.burPatch
  try dsimp only
  repeat' first | with_reducible assumption | with_reducible intro _ | ((with_reducible refine Sub.tr ?_ hm); exact rfl) | with_reducible apply Keeps.ite | with_reducible apply State.wrB_keeps | with_reducible apply State.wrBytes_keeps | with_reducible apply State.putBur_keeps | split

theorem State.burCommitAll_keeps {s0 : Orig} {s : State} (h : Keeps s0 s)  (hm : Sub 550301335560 s0.m) : Keeps s0 (State.burCommitAll s) := by
  unfold State.burCommitAll
  try dsimp only
  repeat' first | with_reducible assumption | with_reducible intro _ | ((with_reducible refine Sub.tr ?_ hm); exact rfl) | with_reducible apply Keeps.ite | with_reducible apply State.each_keeps | with_reducible apply State.burDrain_keeps | with_reducible apply State.burPatch_keeps | split

theorem State.burLatch_keeps {s0 : Orig} {s : State} (h : Keeps s0 s)  (hm : Sub 550297141256 s0.m) : Keeps s0 (State.burLatch s) := by
  unfold State.burLatch
  try dsimp only
  repeat' first | with_reducible assumption | with_reducible intro _ | ((with_reducible refine Sub.tr ?_ hm); exact rfl) | with_reducible apply Keeps.ite | with_reducible apply State.each_keeps | with_reducible apply State.tornUnit_keeps | with_reducible apply State.wrN_keeps | split

theorem execRecordDrain_keeps {s0 : Orig} {s : State} (h : Keeps s0 s)  (hm : Sub 550301335560 s0.m) : KeepsR s0 (execRecordDrain s) := by
  unfold execRecordDrain
  try dsimp only
  repeat' first | with_reducible assumption | with_reducible intro _ | ((with_reducible refine Sub.tr ?_ hm); exact rfl) | with_reducible apply Keeps.ite | with_reducible apply KeepsR.ok | with_reducible apply KeepsR.ite | with_reducible apply ok_keeps | with_reducible apply State.burDrain_keeps | with_reducible apply State.burShow_keeps | split | with_reducible refine Keeps.eqNext (by assumption) ?_

theorem execPatchWrite_keeps {s0 : Orig} {s : State} (h : Keeps s0 s)  (hm : Sub 72058143902793728 s0.m) : KeepsR s0 (execPatchWrite s) := by
  unfold execPatchWrite
  try dsimp only
  repeat' first | with_reducible assumption | with_reducible intro _ | ((with_reducible refine Sub.tr ?_ hm); exact rfl) | with_reducible apply Keeps.ite | with_reducible apply KeepsR.ok | with_reducible apply KeepsR.ite | with_reducible apply ok_keeps | with_reducible apply State.pass_keeps | with_reducible apply State.burPatch_keeps | split | with_reducible refine Keeps.eqNext (by assumption) ?_

theorem State.burPut_keeps {s0 : Orig} {s : State} (h : Keeps s0 s) (v : Word) (hm : Sub 549756076032 s0.m) : Keeps s0 (State.burPut s v) := by
  unfold State.burPut
  try dsimp only
  repeat' first | with_reducible assumption | with_reducible intro _ | ((with_reducible refine Sub.tr ?_ hm); exact rfl) | with_reducible apply Keeps.ite | with_reducible apply State.burEnter_keeps | with_reducible apply State.setBit_keeps | split

theorem execBurPut_keeps {s0 : Orig} {s : State} (h : Keeps s0 s) (v : Word) (hm : Sub 549756076032 s0.m) : KeepsR s0 (execBurPut v s) := by
  unfold execBurPut
  try dsimp only
  repeat' first | with_reducible assumption | with_reducible intro _ | ((with_reducible refine Sub.tr ?_ hm); exact rfl) | with_reducible apply Keeps.ite | with_reducible apply KeepsR.ok | with_reducible apply KeepsR.ite | with_reducible apply ok_keeps | with_reducible apply State.burPut_keeps | split | with_reducible refine Keeps.eqNext (by assumption) ?_

theorem State.burCursor_keeps {s0 : Orig} {s : State} (h : Keeps s0 s) (v : Word) (hm : Sub 550297141256 s0.m) : Keeps s0 (State.burCursor s v) := by
  unfold State.burCursor
  try dsimp only
  repeat' first | with_reducible assumption | with_reducible intro _ | ((with_reducible refine Sub.tr ?_ hm); exact rfl) | with_reducible apply Keeps.ite | with_reducible apply State.setF_keeps | with_reducible apply State.burLatch_keeps | split

theorem execBurCursorWrite_keeps {s0 : Orig} {s : State} (h : Keeps s0 s) (v : Word) (hm : Sub 550297141256 s0.m) : KeepsR s0 (execBurCursorWrite v s) := by
  unfold execBurCursorWrite
  try dsimp only
  repeat' first | with_reducible assumption | with_reducible intro _ | ((with_reducible refine Sub.tr ?_ hm); exact rfl) | with_reducible apply Keeps.ite | with_reducible apply KeepsR.ok | with_reducible apply KeepsR.ite | with_reducible apply ok_keeps | with_reducible apply State.burCursor_keeps | split | with_reducible refine Keeps.eqNext (by assumption) ?_

theorem State.burWin7_keeps {s0 : Orig} {s : State} (h : Keeps s0 s)  (hm : Sub 550297141256 s0.m := by first | assumption | exact Sub.tr rfl (by assumption)) : KeepsQ s0 (State.burWin7 s) := by
  unfold State.burWin7
  try dsimp only
  repeat' first | with_reducible assumption | with_reducible intro _ | ((with_reducible refine Sub.tr ?_ hm); exact rfl) | with_reducible apply Keeps.ite | with_reducible apply KeepsQ.ite | with_reducible apply State.setF_keeps | with_reducible apply State.burLatch_keeps | simp -zeta only [KeepsP.pair, KeepsQ.pair] | with_reducible apply KeepsQ.snd | split | with_reducible refine Keeps.eqSnd (by assumption) ?_

theorem execBurWin7Read_keeps {s0 : Orig} {s : State} (h : Keeps s0 s)  (hm : Sub 550313918472 s0.m) : KeepsR s0 (execBurWin7Read s) := by
  unfold execBurWin7Read
  try dsimp only
  repeat' first | with_reducible assumption | with_reducible intro _ | ((with_reducible refine Sub.tr ?_ hm); exact rfl) | with_reducible apply Keeps.ite | with_reducible apply KeepsR.ok | with_reducible apply KeepsR.ite | with_reducible apply KeepsQ.ite | with_reducible apply State.burWin7_keeps | with_reducible apply ok_keeps | with_reducible apply State.putResp_keeps | simp -zeta only [KeepsP.pair, KeepsQ.pair] | with_reducible apply KeepsQ.snd | split | with_reducible refine Keeps.eqSnd (by assumption) ?_ | with_reducible refine Keeps.eqNext (by assumption) ?_

theorem execBurFreeze_keeps {s0 : Orig} {s : State} (h : Keeps s0 s)  (hm : Sub 550561382408 s0.m) : KeepsR s0 (execBurFreeze s) := by
  unfold execBurFreeze
  try dsimp only
  repeat' first | with_reducible assumption | with_reducible intro _ | ((with_reducible refine Sub.tr ?_ hm); exact rfl) | with_reducible apply Keeps.ite | with_reducible apply KeepsR.ok | with_reducible apply KeepsR.ite | with_reducible apply KeepsP.ite | with_reducible apply ok_keeps | with_reducible apply State.command_keeps | with_reducible apply done_keeps | with_reducible apply State.setBit_keeps | with_reducible apply State.putBur_keeps | simp -zeta only [KeepsP.pair, KeepsQ.pair] | with_reducible apply KeepsP.fst | split | with_reducible refine Keeps.eqFst (by assumption) ?_ | with_reducible refine Keeps.eqNext (by assumption) ?_

theorem execBurUnfreeze_keeps {s0 : Orig} {s : State} (h : Keeps s0 s)  (hm : Sub 550561382408 s0.m) : KeepsR s0 (execBurUnfreeze s) := by
  unfold execBurUnfreeze
  try dsimp only
  repeat' first | with_reducible assumption | with_reducible intro _ | ((with_reducible refine Sub.tr ?_ hm); exact rfl) | with_reducible apply Keeps.ite | with_reducible apply KeepsR.ok | with_reducible apply KeepsR.ite | with_reducible apply KeepsP.ite | with_reducible apply ok_keeps | with_reducible apply State.command_keeps | with_reducible apply done_keeps | with_reducible apply State.setBit_keeps | simp -zeta only [KeepsP.pair, KeepsQ.pair] | with_reducible apply KeepsP.fst | split | with_reducible refine Keeps.eqFst (by assumption) ?_ | with_reducible refine Keeps.eqNext (by assumption) ?_

theorem execFreezeTimeout_keeps {s0 : Orig} {s : State} (h : Keeps s0 s)  (hm : Sub 72058144431538184 s0.m) : KeepsR s0 (execFreezeTimeout s) := by
  unfold execFreezeTimeout
  try dsimp only
  repeat' first | with_reducible assumption | with_reducible intro _ | ((with_reducible refine Sub.tr ?_ hm); exact rfl) | with_reducible apply Keeps.ite | with_reducible apply KeepsR.ok | with_reducible apply KeepsR.ite | with_reducible apply State.pass_keeps | with_reducible apply ok_keeps | with_reducible apply State.setBit_keeps | with_reducible apply State.burEnter_keeps | with_reducible apply State.event_keeps | split | with_reducible refine Keeps.eqNext (by assumption) ?_

theorem State.burEmpty_keeps {s0 : Orig} {s : State} (h : Keeps s0 s)  (hm : Sub 549764202496 s0.m) : Keeps s0 (State.burEmpty s) := by
  unfold State.burEmpty
  try dsimp only
  repeat' first | with_reducible assumption | with_reducible intro _ | ((with_reducible refine Sub.tr ?_ hm); exact rfl) | with_reducible apply Keeps.ite | with_reducible apply State.putMem_keeps | with_reducible apply State.putBur_keeps | ((with_reducible show Memory.wf _ = true); exact SMap.wf_keep _ _ _ (by assumption)) | split

theorem execBurClear_keeps {s0 : Orig} {s : State} (h : Keeps s0 s)  (hm : Sub 550569771016 s0.m) : KeepsR s0 (execBurClear s) := by
  unfold execBurClear
  try dsimp only
  repeat' first | with_reducible assumption | with_reducible intro _ | ((with_reducible refine Sub.tr ?_ hm); exact rfl) | with_reducible apply Keeps.ite | with_reducible apply KeepsR.ok | with_reducible apply KeepsR.ite | with_reducible apply KeepsP.ite | with_reducible apply ok_keeps | with_reducible apply State.command_keeps | with_reducible apply refuse_keeps | with_reducible apply State.burEmpty_keeps | with_reducible apply State.wrN_keeps | with_reducible apply State.burAppend_keeps | with_reducible apply done_keeps | with_reducible apply State.putBur_keeps | with_reducible apply State.burShow_keeps | simp -zeta only [KeepsP.pair, KeepsQ.pair] | with_reducible apply KeepsP.fst | split | with_reducible refine Keeps.eqFst (by assumption) ?_ | with_reducible refine Keeps.eqNext (by assumption) ?_

theorem execBurClearCounts_keeps {s0 : Orig} {s : State} (h : Keeps s0 s)  (hm : Sub 550561382408 s0.m) : KeepsR s0 (execBurClearCounts s) := by
  unfold execBurClearCounts
  try dsimp only
  repeat' first | with_reducible assumption | with_reducible intro _ | ((with_reducible refine Sub.tr ?_ hm); exact rfl) | with_reducible apply Keeps.ite | with_reducible apply KeepsR.ok | with_reducible apply KeepsR.ite | with_reducible apply KeepsP.ite | with_reducible apply ok_keeps | with_reducible apply State.command_keeps | with_reducible apply done_keeps | with_reducible apply State.setF_keeps | with_reducible apply State.setBit_keeps | simp -zeta only [KeepsP.pair, KeepsQ.pair] | with_reducible apply KeepsP.fst | split | with_reducible refine Keeps.eqFst (by assumption) ?_ | with_reducible refine Keeps.eqNext (by assumption) ?_

end Sys2Proof.Machine
end

