-- ==== Sys2Proof/Laws/KeepsLoad.lean ====
section
/-! SUPPORT. The operations of Machine/Load.lean keep the queue of commands and the canonical form, and change no part outside
their footprint. -/

set_option linter.unusedSimpArgs false
set_option linter.unusedVariables false
set_option Elab.async false

namespace Sys2Proof.Machine

theorem State.lswSet_keeps {s0 : Orig} {s : State} (h : Keeps s0 s) (n i : Nat) (v : Bool) (hm : Sub 2048 s0.m) : Keeps s0 (State.lswSet s n i v) := by
  unfold State.lswSet
  try dsimp only
  repeat' first | with_reducible assumption | with_reducible intro _ | ((with_reducible refine Sub.tr ?_ hm); exact rfl) | with_reducible apply Keeps.ite | with_reducible apply State.setBit_keeps | split

theorem State.lchMod_keeps {s0 : Orig} {s : State} (h : Keeps s0 s) (n : Nat) (f : LswCh → LswCh) (hm : Sub 2199023255552 s0.m) : Keeps s0 (State.lchMod s n f) := by
  unfold State.lchMod
  try dsimp only
  repeat' first | with_reducible assumption | with_reducible intro _ | ((with_reducible refine Sub.tr ?_ hm); exact rfl) | with_reducible apply Keeps.ite | with_reducible apply State.putLsw_keeps | split

theorem State.lswMaskSet_keeps {s0 : Orig} {s : State} (h : Keeps s0 s) (lo n : Nat) (v : Bool) (hm : Sub 2048 s0.m) : Keeps s0 (State.lswMaskSet s lo n v) := by
  unfold State.lswMaskSet
  try dsimp only
  repeat' first | with_reducible assumption | with_reducible intro _ | ((with_reducible refine Sub.tr ?_ hm); exact rfl) | with_reducible apply Keeps.ite | with_reducible apply State.setBit_keeps | split

theorem State.lswSetHeld_keeps {s0 : Orig} {s : State} (h : Keeps s0 s) (n : Nat) (v : Bool) (hm : Sub 2048 s0.m) : Keeps s0 (State.lswSetHeld s n v) := by
  unfold State.lswSetHeld
  try dsimp only
  repeat' first | with_reducible assumption | with_reducible intro _ | ((with_reducible refine Sub.tr ?_ hm); exact rfl) | with_reducible apply Keeps.ite | with_reducible apply State.lswMaskSet_keeps | with_reducible apply State.lswSet_keeps | split

theorem State.lswShow_keeps {s0 : Orig} {s : State} (h : Keeps s0 s)  (hm : Sub 2048 s0.m) : Keeps s0 (State.lswShow s) := by
  unfold State.lswShow
  try dsimp only
  repeat' first | with_reducible assumption | with_reducible intro _ | ((with_reducible refine Sub.tr ?_ hm); exact rfl) | with_reducible apply Keeps.ite | with_reducible apply State.setF_keeps | split

theorem State.lswOut_keeps {s0 : Orig} {s : State} (h : Keeps s0 s) (n : Nat) (v : Bool) (hm : Sub 550292949000 s0.m) : Keeps s0 (State.lswOut s n v) := by
  unfold State.lswOut
  try dsimp only
  repeat' first | with_reducible assumption | with_reducible intro _ | ((with_reducible refine Sub.tr ?_ hm); exact rfl) | with_reducible apply Keeps.ite | with_reducible apply State.lswSet_keeps | with_reducible apply State.lswEvent_keeps | split

theorem State.lswLock_keeps {s0 : Orig} {s : State} (h : Keeps s0 s) (n : Nat) (hm : Sub 2749316204552 s0.m) : Keeps s0 (State.lswLock s n) := by
  unfold State.lswLock
  try dsimp only
  repeat' first | with_reducible assumption | with_reducible intro _ | ((with_reducible refine Sub.tr ?_ hm); exact rfl) | with_reducible apply Keeps.ite | with_reducible apply State.lswSet_keeps | with_reducible apply State.lchMod_keeps | with_reducible apply State.incF_keeps | with_reducible apply State.lswEvent_keeps | with_reducible apply State.lswShow_keeps | split

theorem State.lswClampAdd_keeps {s0 : Orig} {s : State} (h : Keeps s0 s) (n energy : Nat) (hm : Sub 2199023257600 s0.m) : Keeps s0 (State.lswClampAdd s n energy) := by
  unfold State.lswClampAdd
  try dsimp only
  repeat' first | with_reducible assumption | with_reducible intro _ | ((with_reducible refine Sub.tr ?_ hm); exact rfl) | with_reducible apply Keeps.ite | with_reducible apply State.lchMod_keeps | with_reducible apply State.wr_keeps | split

theorem State.lswClamp_keeps {s0 : Orig} {s : State} (h : Keeps s0 s) (n energy : Nat) (hm : Sub 2749316204552 s0.m) : Keeps s0 (State.lswClamp s n energy) := by
  unfold State.lswClamp
  try dsimp only
  repeat' first | with_reducible assumption | with_reducible intro _ | ((with_reducible refine Sub.tr ?_ hm); exact rfl) | with_reducible apply Keeps.ite | with_reducible apply State.lswClampAdd_keeps | with_reducible apply State.lswLock_keeps | split

theorem State.lswOff_keeps {s0 : Orig} {s : State} (h : Keeps s0 s) (n energy : Nat) (hm : Sub 2749316204552 s0.m) : Keeps s0 (State.lswOff s n energy) := by
  unfold State.lswOff
  try dsimp only
  repeat' first | with_reducible assumption | with_reducible intro _ | ((with_reducible refine Sub.tr ?_ hm); exact rfl) | with_reducible apply Keeps.ite | with_reducible apply State.lswSet_keeps | with_reducible apply State.lswOut_keeps | with_reducible apply State.lswClamp_keeps | split

theorem State.lswOffFree_keeps {s0 : Orig} {s : State} (h : Keeps s0 s) (n : Nat) (hm : Sub 2749450422280 s0.m) : Keeps s0 (State.lswOffFree s n) := by
  unfold State.lswOffFree
  try dsimp only
  repeat' first | with_reducible assumption | with_reducible intro _ | ((with_reducible refine Sub.tr ?_ hm); exact rfl) | with_reducible apply Keeps.ite | with_reducible apply State.lswOff_keeps | with_reducible apply State.drawn_keeps | split

theorem State.lswOn_keeps {s0 : Orig} {s : State} (h : Keeps s0 s) (n : Nat) (hm : Sub 550292949000 s0.m) : Keeps s0 (State.lswOn s n) := by
  unfold State.lswOn
  try dsimp only
  repeat' first | with_reducible assumption | with_reducible intro _ | ((with_reducible refine Sub.tr ?_ hm); exact rfl) | with_reducible apply Keeps.ite | with_reducible apply State.lswSet_keeps | with_reducible apply State.incF_keeps | with_reducible apply State.lswEvent_keeps | with_reducible apply State.lswOut_keeps | split

theorem State.lswDrive_keeps {s0 : Orig} {s : State} (h : Keeps s0 s) (n : Nat) (hm : Sub 550292949000 s0.m) : Keeps s0 (State.lswDrive s n) := by
  unfold State.lswDrive
  try dsimp only
  repeat' first | with_reducible assumption | with_reducible intro _ | ((with_reducible refine Sub.tr ?_ hm); exact rfl) | with_reducible apply Keeps.ite | with_reducible apply State.lswSet_keeps | with_reducible apply State.lswEvent_keeps | with_reducible apply State.lswOn_keeps | split

theorem State.lswSwitch_keeps {s0 : Orig} {s : State} (h : Keeps s0 s) (n v energy : Nat) (hm : Sub 2749316204552 s0.m) : Keeps s0 (State.lswSwitch s n v energy) := by
  unfold State.lswSwitch
  try dsimp only
  repeat' first | with_reducible assumption | with_reducible intro _ | ((with_reducible refine Sub.tr ?_ hm); exact rfl) | with_reducible apply Keeps.ite | with_reducible apply State.wrN_keeps | with_reducible apply ok_keeps | with_reducible apply State.incF_keeps | with_reducible apply State.lswSet_keeps | with_reducible apply State.lswDrive_keeps | with_reducible apply State.lswOff_keeps | split

theorem State.lswEntry_keeps {s0 : Orig} {s : State} (h : Keeps s0 s) (n v : Nat) (hm : Sub 2749450422280 s0.m) : Keeps s0 (State.lswEntry s n v) := by
  unfold State.lswEntry
  try dsimp only
  repeat' first | with_reducible assumption | with_reducible intro _ | ((with_reducible refine Sub.tr ?_ hm); exact rfl) | with_reducible apply Keeps.ite | with_reducible apply State.lswSwitch_keeps | with_reducible apply State.drawn_keeps | with_reducible apply ok_keeps | with_reducible apply State.lswEvent_keeps | split

theorem execSwitchOn_keeps {s0 : Orig} {s : State} (h : Keeps s0 s) (n : Fin 40) (hm : Sub 2749316204552 s0.m) : KeepsR s0 (execSwitchOn n s) := by
  unfold execSwitchOn
  try dsimp only
  repeat' first | with_reducible assumption | with_reducible intro _ | ((with_reducible refine Sub.tr ?_ hm); exact rfl) | with_reducible apply Keeps.ite | with_reducible apply KeepsR.ok | with_reducible apply KeepsR.ite | with_reducible apply ok_keeps | with_reducible apply State.lswSwitch_keeps | split | with_reducible refine Keeps.eqNext (by assumption) ?_

theorem execSwitchOff_keeps {s0 : Orig} {s : State} (h : Keeps s0 s) (n : Fin 40) (energy : Nat) (hm : Sub 2749316204552 s0.m) : KeepsR s0 (execSwitchOff n energy s) := by
  unfold execSwitchOff
  try dsimp only
  repeat' first | with_reducible assumption | with_reducible intro _ | ((with_reducible refine Sub.tr ?_ hm); exact rfl) | with_reducible apply Keeps.ite | with_reducible apply KeepsR.ok | with_reducible apply KeepsR.ite | with_reducible apply ok_keeps | with_reducible apply State.lswSwitch_keeps | split | with_reducible refine Keeps.eqNext (by assumption) ?_

theorem execSlewEnd_keeps {s0 : Orig} {s : State} (h : Keeps s0 s) (n : Fin 40) (hm : Sub 2048 s0.m) : KeepsR s0 (execSlewEnd n s) := by
  unfold execSlewEnd
  try dsimp only
  repeat' first | with_reducible assumption | with_reducible intro _ | ((with_reducible refine Sub.tr ?_ hm); exact rfl) | with_reducible apply Keeps.ite | with_reducible apply KeepsR.ok | with_reducible apply KeepsR.ite | with_reducible apply ok_keeps | with_reducible apply State.lswSet_keeps | split | with_reducible refine Keeps.eqNext (by assumption) ?_

theorem execBlankingEnd_keeps {s0 : Orig} {s : State} (h : Keeps s0 s) (n : Fin 40) (hm : Sub 2048 s0.m) : KeepsR s0 (execBlankingEnd n s) := by
  unfold execBlankingEnd
  try dsimp only
  repeat' first | with_reducible assumption | with_reducible intro _ | ((with_reducible refine Sub.tr ?_ hm); exact rfl) | with_reducible apply Keeps.ite | with_reducible apply KeepsR.ok | with_reducible apply KeepsR.ite | with_reducible apply ok_keeps | with_reducible apply State.lswSet_keeps | split | with_reducible refine Keeps.eqNext (by assumption) ?_

theorem State.lswLatch_keeps {s0 : Orig} {s : State} (h : Keeps s0 s) (n bit event energy : Nat) (hm : Sub 2749316204552 s0.m) : Keeps s0 (State.lswLatch s n bit event energy) := by
  unfold State.lswLatch
  try dsimp only
  repeat' first | with_reducible assumption | with_reducible intro _ | ((with_reducible refine Sub.tr ?_ hm); exact rfl) | with_reducible apply Keeps.ite | with_reducible apply State.lswSet_keeps | with_reducible apply State.incF_keeps | with_reducible apply State.lswOff_keeps | with_reducible apply State.lswEvent_keeps | with_reducible apply State.event_keeps | with_reducible apply State.lswShow_keeps | split

theorem execOcLatch_keeps {s0 : Orig} {s : State} (h : Keeps s0 s) (n : Fin 40) (current energy : Nat) (hm : Sub 2749316204552 s0.m) : KeepsR s0 (execOcLatch n current energy s) := by
  unfold execOcLatch
  try dsimp only
  repeat' first | with_reducible assumption | with_reducible intro _ | ((with_reducible refine Sub.tr ?_ hm); exact rfl) | with_reducible apply Keeps.ite | with_reducible apply KeepsR.ok | with_reducible apply KeepsR.ite | with_reducible apply ok_keeps | with_reducible apply State.lswLatch_keeps | split | with_reducible refine Keeps.eqNext (by assumption) ?_

theorem execTempLatch_keeps {s0 : Orig} {s : State} (h : Keeps s0 s) (n : Fin 40) (temp : Int) (energy : Nat) (hm : Sub 2749316204552 s0.m) : KeepsR s0 (execTempLatch n temp energy s) := by
  unfold execTempLatch
  try dsimp only
  repeat' first | with_reducible assumption | with_reducible intro _ | ((with_reducible refine Sub.tr ?_ hm); exact rfl) | with_reducible apply Keeps.ite | with_reducible apply KeepsR.ok | with_reducible apply KeepsR.ite | with_reducible apply State.wrN_keeps | with_reducible apply ok_keeps | with_reducible apply State.lswLatch_keeps | split | with_reducible refine Keeps.eqNext (by assumption) ?_

theorem execLswUnlatch_keeps {s0 : Orig} {s : State} (h : Keeps s0 s)  (hm : Sub 550561384456 s0.m) : KeepsR s0 (execLswUnlatch s) := by
  unfold execLswUnlatch
  try dsimp only
  repeat' first | with_reducible assumption | with_reducible intro _ | ((with_reducible refine Sub.tr ?_ hm); exact rfl) | with_reducible apply Keeps.ite | with_reducible apply KeepsR.ok | with_reducible apply KeepsR.ite | with_reducible apply KeepsP.ite | with_reducible apply State.each_keeps | with_reducible apply ok_keeps | with_reducible apply State.command_keeps | with_reducible apply refuse_keeps | with_reducible apply done_keeps | with_reducible apply State.lswSet_keeps | with_reducible apply State.lswShow_keeps | simp -zeta only [KeepsP.pair, KeepsQ.pair] | with_reducible apply KeepsP.fst | split | with_reducible refine Keeps.eqFst (by assumption) ?_ | with_reducible refine Keeps.eqNext (by assumption) ?_

theorem execCoolTimeExpired_keeps {s0 : Orig} {s : State} (h : Keeps s0 s) (n : Fin 40) (hm : Sub 72057594138591232 s0.m) : KeepsR s0 (execCoolTimeExpired n s) := by
  unfold execCoolTimeExpired
  try dsimp only
  repeat' first | with_reducible assumption | with_reducible intro _ | ((with_reducible refine Sub.tr ?_ hm); exact rfl) | with_reducible apply Keeps.ite | with_reducible apply KeepsR.ok | with_reducible apply KeepsR.ite | with_reducible apply ok_keeps | with_reducible apply State.pass_keeps | split | with_reducible refine Keeps.eqNext (by assumption) ?_

theorem execLswUnlock_keeps {s0 : Orig} {s : State} (h : Keeps s0 s)  (hm : Sub 550561384456 s0.m) : KeepsR s0 (execLswUnlock s) := by
  unfold execLswUnlock
  try dsimp only
  repeat' first | with_reducible assumption | with_reducible intro _ | ((with_reducible refine Sub.tr ?_ hm); exact rfl) | with_reducible apply Keeps.ite | with_reducible apply KeepsR.ok | with_reducible apply KeepsR.ite | with_reducible apply KeepsP.ite | with_reducible apply State.each_keeps | with_reducible apply ok_keeps | with_reducible apply State.command_keeps | with_reducible apply refuse_keeps | with_reducible apply done_keeps | with_reducible apply State.lswSet_keeps | with_reducible apply State.lswShow_keeps | simp -zeta only [KeepsP.pair, KeepsQ.pair] | with_reducible apply KeepsP.fst | split | with_reducible refine Keeps.eqFst (by assumption) ?_ | with_reducible refine Keeps.eqNext (by assumption) ?_

theorem execLswPause_keeps {s0 : Orig} {s : State} (h : Keeps s0 s) (f : Fin 2) (hm : Sub 550292949000 s0.m) : KeepsR s0 (execLswPause f s) := by
  unfold execLswPause
  try dsimp only
  repeat' first | with_reducible assumption | with_reducible intro _ | ((with_reducible refine Sub.tr ?_ hm); exact rfl) | with_reducible apply Keeps.ite | with_reducible apply KeepsR.ok | with_reducible apply KeepsR.ite | with_reducible apply State.each_keeps | with_reducible apply State.setBit_keeps | with_reducible apply State.incF_keeps | with_reducible apply ok_keeps | with_reducible apply State.lswSet_keeps | with_reducible apply State.lswEvent_keeps | split | with_reducible refine Keeps.eqNext (by assumption) ?_

theorem execPauseResume_keeps {s0 : Orig} {s : State} (h : Keeps s0 s) (f : Fin 2) (hm : Sub 2048 s0.m) : KeepsR s0 (execPauseResume f s) := by
  unfold execPauseResume
  try dsimp only
  repeat' first | with_reducible assumption | with_reducible intro _ | ((with_reducible refine Sub.tr ?_ hm); exact rfl) | with_reducible apply Keeps.ite | with_reducible apply KeepsR.ok | with_reducible apply KeepsR.ite | with_reducible apply State.each_keeps | with_reducible apply State.setBit_keeps | with_reducible apply ok_keeps | with_reducible apply State.lswSet_keeps | split | with_reducible refine Keeps.eqNext (by assumption) ?_

theorem execPauseTo_keeps {s0 : Orig} {s : State} (h : Keeps s0 s) (n : Fin 40) (energy : Nat) (hm : Sub 2749316204552 s0.m) : KeepsR s0 (execPauseTo n energy s) := by
  unfold execPauseTo
  try dsimp only
  repeat' first | with_reducible assumption | with_reducible intro _ | ((with_reducible refine Sub.tr ?_ hm); exact rfl) | with_reducible apply Keeps.ite | with_reducible apply KeepsR.ok | with_reducible apply KeepsR.ite | with_reducible apply State.lswSet_keeps | with_reducible apply State.incF_keeps | with_reducible apply ok_keeps | with_reducible apply State.lswOff_keeps | with_reducible apply State.lswEvent_keeps | split | with_reducible refine Keeps.eqNext (by assumption) ?_

theorem execFeedOver_keeps {s0 : Orig} {s : State} (h : Keeps s0 s) (f : Fin 2) (avg : Nat) (hm : Sub 2048 s0.m) : KeepsR s0 (execFeedOver f avg s) := by
  unfold execFeedOver
  try dsimp only
  repeat' first | with_reducible assumption | with_reducible intro _ | ((with_reducible refine Sub.tr ?_ hm); exact rfl) | with_reducible apply Keeps.ite | with_reducible apply KeepsR.ok | with_reducible apply KeepsR.ite | with_reducible apply ok_keeps | with_reducible apply State.setBit_keeps | split | with_reducible refine Keeps.eqNext (by assumption) ?_

theorem State.lswCond_keeps {s0 : Orig} {s : State} (h : Keeps s0 s) (f : Nat) (c : SupplyFault) (v : Bool) (hm : Sub 2199023257600 s0.m) : Keeps s0 (State.lswCond s f c v) := by
  unfold State.lswCond
  try dsimp only
  repeat' first | with_reducible assumption | with_reducible intro _ | ((with_reducible refine Sub.tr ?_ hm); exact rfl) | with_reducible apply Keeps.ite | with_reducible apply State.putLsw_keeps | with_reducible apply State.setBit_keeps | split

theorem execFeedOff_keeps {s0 : Orig} {s : State} (h : Keeps s0 s) (f : Fin 2) (c : SupplyFault) (energies : List Nat) (hm : Sub 2749316204552 s0.m) : KeepsR s0 (execFeedOff f c energies s) := by
  unfold execFeedOff
  try dsimp only
  repeat' first | with_reducible assumption | with_reducible intro _ | ((with_reducible refine Sub.tr ?_ hm); exact rfl) | with_reducible apply Keeps.ite | with_reducible apply KeepsR.ok | with_reducible apply KeepsR.ite | with_reducible apply State.each_keeps | with_reducible apply State.lswCond_keeps | with_reducible apply ok_keeps | with_reducible apply State.lswSet_keeps | with_reducible apply State.lswOff_keeps | with_reducible apply State.lswEvent_keeps | split | with_reducible refine Keeps.eqNext (by assumption) ?_

theorem execFeedOffEnd_keeps {s0 : Orig} {s : State} (h : Keeps s0 s) (f : Fin 2) (c : SupplyFault) (hm : Sub 2749316204552 s0.m) : KeepsR s0 (execFeedOffEnd f c s) := by
  unfold execFeedOffEnd
  try dsimp only
  repeat' first | with_reducible assumption | with_reducible intro _ | ((with_reducible refine Sub.tr ?_ hm); exact rfl) | with_reducible apply Keeps.ite | with_reducible apply KeepsR.ok | with_reducible apply KeepsR.ite | with_reducible apply State.each_keeps | with_reducible apply State.lswCond_keeps | with_reducible apply ok_keeps | with_reducible apply State.lswSet_keeps | with_reducible apply State.lswOn_keeps | split | with_reducible refine Keeps.eqNext (by assumption) ?_

theorem State.lswFlag_keeps {s0 : Orig} {s : State} (h : Keeps s0 s) (n bit event : Nat) (v : Bool) (hm : Sub 550292949000 s0.m) : Keeps s0 (State.lswFlag s n bit event v) := by
  unfold State.lswFlag
  try dsimp only
  repeat' first | with_reducible assumption | with_reducible intro _ | ((with_reducible refine Sub.tr ?_ hm); exact rfl) | with_reducible apply Keeps.ite | with_reducible apply State.lswSet_keeps | with_reducible apply State.lswEvent_keeps | with_reducible apply State.event_keeps | split

theorem execOpenOn_keeps {s0 : Orig} {s : State} (h : Keeps s0 s) (n : Fin 40) (current : Nat) (hm : Sub 550292949000 s0.m) : KeepsR s0 (execOpenOn n current s) := by
  unfold execOpenOn
  try dsimp only
  repeat' first | with_reducible assumption | with_reducible intro _ | ((with_reducible refine Sub.tr ?_ hm); exact rfl) | with_reducible apply Keeps.ite | with_reducible apply KeepsR.ok | with_reducible apply KeepsR.ite | with_reducible apply ok_keeps | with_reducible apply State.lswFlag_keeps | split | with_reducible refine Keeps.eqNext (by assumption) ?_

theorem execOffStateCheck_keeps {s0 : Orig} {s : State} (h : Keeps s0 s) (n : Fin 40) (out feed : Int) (hm : Sub 550292949000 s0.m) : KeepsR s0 (execOffStateCheck n out feed s) := by
  unfold execOffStateCheck
  try dsimp only
  repeat' first | with_reducible assumption | with_reducible intro _ | ((with_reducible refine Sub.tr ?_ hm); exact rfl) | with_reducible apply Keeps.ite | with_reducible apply KeepsR.ok | with_reducible apply KeepsR.ite | with_reducible apply ok_keeps | with_reducible apply State.lswFlag_keeps | with_reducible apply State.lswSet_keeps | split | with_reducible refine Keeps.eqNext (by assumption) ?_

theorem execPwmEdge_keeps {s0 : Orig} {s : State} (h : Keeps s0 s) (n : Fin 40) (on : Bool) (energy : Nat) (hm : Sub 2749316204552 s0.m) : KeepsR s0 (execPwmEdge n on energy s) := by
  unfold execPwmEdge
  try dsimp only
  repeat' first | with_reducible assumption | with_reducible intro _ | ((with_reducible refine Sub.tr ?_ hm); exact rfl) | with_reducible apply Keeps.ite | with_reducible apply KeepsR.ok | with_reducible apply KeepsR.ite | with_reducible apply State.lchMod_keeps | with_reducible apply ok_keeps | with_reducible apply State.lswOut_keeps | with_reducible apply State.lswClamp_keeps | split | with_reducible refine Keeps.eqNext (by assumption) ?_

theorem State.lswFail_keeps {s0 : Orig} {s : State} (h : Keeps s0 s) (n energy : Nat) (hm : Sub 2749316204552 s0.m) : Keeps s0 (State.lswFail s n energy) := by
  unfold State.lswFail
  try dsimp only
  repeat' first | with_reducible assumption | with_reducible intro _ | ((with_reducible refine Sub.tr ?_ hm); exact rfl) | with_reducible apply Keeps.ite | with_reducible apply State.lswSetHeld_keeps | with_reducible apply State.lswSet_keeps | with_reducible apply State.lswDrive_keeps | with_reducible apply State.lswOff_keeps | split

theorem State.lswFailFree_keeps {s0 : Orig} {s : State} (h : Keeps s0 s) (n : Nat) (hm : Sub 2749450422280 s0.m) : Keeps s0 (State.lswFailFree s n) := by
  unfold State.lswFailFree
  try dsimp only
  repeat' first | with_reducible assumption | with_reducible intro _ | ((with_reducible refine Sub.tr ?_ hm); exact rfl) | with_reducible apply Keeps.ite | with_reducible apply State.lswFail_keeps | with_reducible apply State.drawn_keeps | split

theorem State.lswForceOff_keeps {s0 : Orig} {s : State} (h : Keeps s0 s) (n : Nat) (hm : Sub 2749450422280 s0.m) : Keeps s0 (State.lswForceOff s n) := by
  unfold State.lswForceOff
  try dsimp only
  repeat' first | with_reducible assumption | with_reducible intro _ | ((with_reducible refine Sub.tr ?_ hm); exact rfl) | with_reducible apply Keeps.ite | with_reducible apply State.lswSetHeld_keeps | with_reducible apply State.lswSet_keeps | with_reducible apply State.lswOff_keeps | with_reducible apply State.drawn_keeps | split

theorem execLswHoldExpired_keeps {s0 : Orig} {s : State} (h : Keeps s0 s) (n : Fin 40) (energy : Nat) (hm : Sub 2749316204552 s0.m) : KeepsR s0 (execLswHoldExpired n energy s) := by
  unfold execLswHoldExpired
  try dsimp only
  repeat' first | with_reducible assumption | with_reducible intro _ | ((with_reducible refine Sub.tr ?_ hm); exact rfl) | with_reducible apply Keeps.ite | with_reducible apply KeepsR.ok | with_reducible apply KeepsR.ite | with_reducible apply ok_keeps | with_reducible apply State.lswFail_keeps | with_reducible apply State.lswEvent_keeps | split | with_reducible refine Keeps.eqNext (by assumption) ?_

theorem execLswClaim_keeps {s0 : Orig} {s : State} (h : Keeps s0 s)  (hm : Sub 550561384456 s0.m) : KeepsR s0 (execLswClaim s) := by
  unfold execLswClaim
  try dsimp only
  repeat' first | with_reducible assumption | with_reducible intro _ | ((with_reducible refine Sub.tr ?_ hm); exact rfl) | with_reducible apply Keeps.ite | with_reducible apply KeepsR.ok | with_reducible apply KeepsR.ite | with_reducible apply KeepsP.ite | with_reducible apply State.each_keeps | with_reducible apply ok_keeps | with_reducible apply State.command_keeps | with_reducible apply refuse_keeps | with_reducible apply done_keeps | with_reducible apply State.lswMaskSet_keeps | with_reducible apply State.lswSetHeld_keeps | simp -zeta only [KeepsP.pair, KeepsQ.pair] | with_reducible apply KeepsP.fst | split | with_reducible refine Keeps.eqFst (by assumption) ?_ | with_reducible refine Keeps.eqNext (by assumption) ?_

theorem execLswClearCounts_keeps {s0 : Orig} {s : State} (h : Keeps s0 s)  (hm : Sub 550561384456 s0.m) : KeepsR s0 (execLswClearCounts s) := by
  unfold execLswClearCounts
  try dsimp only
  repeat' first | with_reducible assumption | with_reducible intro _ | ((with_reducible refine Sub.tr ?_ hm); exact rfl) | with_reducible apply Keeps.ite | with_reducible apply KeepsR.ok | with_reducible apply KeepsR.ite | with_reducible apply KeepsP.ite | with_reducible apply State.each_keeps | with_reducible apply ok_keeps | with_reducible apply State.command_keeps | with_reducible apply State.wr_keeps | with_reducible apply done_keeps | with_reducible apply State.setF_keeps | with_reducible apply State.setBit_keeps | simp -zeta only [KeepsP.pair, KeepsQ.pair] | with_reducible apply KeepsP.fst | split | with_reducible refine Keeps.eqFst (by assumption) ?_ | with_reducible refine Keeps.eqNext (by assumption) ?_

end Sys2Proof.Machine
end

