-- ==== Sys2Proof/Laws/KeepsValve.lean ====
section
/-! SUPPORT. The operations of Machine/Valve.lean keep the queue of commands and the canonical form, and change no part outside
their footprint. -/

set_option linter.unusedSimpArgs false
set_option linter.unusedVariables false
set_option Elab.async false

namespace Sys2Proof.Machine

theorem State.vchMod_keeps {s0 : Orig} {s : State} (h : Keeps s0 s) (n : Nat) (f : VlvCh → VlvCh) (hm : Sub 4398046511104 s0.m) : Keeps s0 (State.vchMod s n f) := by
  unfold State.vchMod
  try dsimp only
  repeat' first | with_reducible assumption | with_reducible intro _ | ((with_reducible refine Sub.tr ?_ hm); exact rfl) | with_reducible apply Keeps.ite | with_reducible apply State.putVlv_keeps | split

theorem State.vlvSet_keeps {s0 : Orig} {s : State} (h : Keeps s0 s) (n i : Nat) (v : Bool) (hm : Sub 1024 s0.m) : Keeps s0 (State.vlvSet s n i v) := by
  unfold State.vlvSet
  try dsimp only
  repeat' first | with_reducible assumption | with_reducible intro _ | ((with_reducible refine Sub.tr ?_ hm); exact rfl) | with_reducible apply Keeps.ite | with_reducible apply State.setBit_keeps | split

theorem State.vlvShow_keeps {s0 : Orig} {s : State} (h : Keeps s0 s) (n : Nat) (hm : Sub 1024 s0.m) : Keeps s0 (State.vlvShow s n) := by
  unfold State.vlvShow
  try dsimp only
  repeat' first | with_reducible assumption | with_reducible intro _ | ((with_reducible refine Sub.tr ?_ hm); exact rfl) | with_reducible apply Keeps.ite | with_reducible apply State.each_keeps | with_reducible apply State.setF_keeps | with_reducible apply State.setBit_keeps | split

theorem State.vlvCount_keeps {s0 : Orig} {s : State} (h : Keeps s0 s) (n k : Nat) (hm : Sub 1024 s0.m) : Keeps s0 (State.vlvCount s n k) := by
  unfold State.vlvCount
  try dsimp only
  repeat' first | with_reducible assumption | with_reducible intro _ | ((with_reducible refine Sub.tr ?_ hm); exact rfl) | with_reducible apply Keeps.ite | with_reducible apply State.incF_keeps | split

theorem State.vlvParams_keeps {s0 : Orig} {s : State} (h : Keeps s0 s) (n g1 : Nat) (hm : Sub 4398046511104 s0.m) : Keeps s0 (State.vlvParams s n g1) := by
  unfold State.vlvParams
  try dsimp only
  repeat' first | with_reducible assumption | with_reducible intro _ | ((with_reducible refine Sub.tr ?_ hm); exact rfl) | with_reducible apply Keeps.ite | with_reducible apply State.vchMod_keeps | split

theorem State.vlvTakeBand_keeps {s0 : Orig} {s : State} (h : Keeps s0 s) (n : Nat) (hm : Sub 1024 s0.m) : Keeps s0 (State.vlvTakeBand s n) := by
  unfold State.vlvTakeBand
  try dsimp only
  repeat' first | with_reducible assumption | with_reducible intro _ | ((with_reducible refine Sub.tr ?_ hm); exact rfl) | with_reducible apply Keeps.ite | with_reducible apply State.setF_keeps | with_reducible apply State.vlvSet_keeps | split

theorem State.vlvTakeSwap_keeps {s0 : Orig} {s : State} (h : Keeps s0 s) (n : Nat) (hm : Sub 550292947976 s0.m) : Keeps s0 (State.vlvTakeSwap s n) := by
  unfold State.vlvTakeSwap
  try dsimp only
  repeat' first | with_reducible assumption | with_reducible intro _ | ((with_reducible refine Sub.tr ?_ hm); exact rfl) | with_reducible apply Keeps.ite | with_reducible apply State.setBit_keeps | with_reducible apply State.vlvEvent_keeps | split

theorem State.vlvIdle_keeps {s0 : Orig} {s : State} (h : Keeps s0 s) (n : Nat) (hm : Sub 550292947976 s0.m) : Keeps s0 (State.vlvIdle s n) := by
  unfold State.vlvIdle
  try dsimp only
  repeat' first | with_reducible assumption | with_reducible intro _ | ((with_reducible refine Sub.tr ?_ hm); exact rfl) | with_reducible apply Keeps.ite | with_reducible apply State.vlvTakeBand_keeps | with_reducible apply State.vlvTakeSwap_keeps | split

theorem State.vlvCycle_keeps {s0 : Orig} {s : State} (h : Keeps s0 s) (n : Nat) (hm : Sub 4398046511104 s0.m) : Keeps s0 (State.vlvCycle s n) := by
  unfold State.vlvCycle
  try dsimp only
  repeat' first | with_reducible assumption | with_reducible intro _ | ((with_reducible refine Sub.tr ?_ hm); exact rfl) | with_reducible apply Keeps.ite | with_reducible apply State.putVlv_keeps | split

theorem State.vlvDecay_keeps {s0 : Orig} {s : State} (h : Keeps s0 s) (n mode : Nat) (hm : Sub 4398046512128 s0.m) : Keeps s0 (State.vlvDecay s n mode) := by
  unfold State.vlvDecay
  try dsimp only
  repeat' first | with_reducible assumption | with_reducible intro _ | ((with_reducible refine Sub.tr ?_ hm); exact rfl) | with_reducible apply Keeps.ite | with_reducible apply State.vchMod_keeps | with_reducible apply State.vlvSet_keeps | split

theorem State.vlvApply_keeps {s0 : Orig} {s : State} (h : Keeps s0 s) (n t : Nat) (d : Option (Nat × Nat × Nat)) (hm : Sub 4948607894536 s0.m) : Keeps s0 (State.vlvApply s n t d) := by
  unfold State.vlvApply
  try dsimp only
  repeat' first | with_reducible assumption | with_reducible intro _ | ((with_reducible refine Sub.tr ?_ hm); exact rfl) | with_reducible apply Keeps.ite | with_reducible apply State.vchMod_keeps | with_reducible apply State.setF_keeps | with_reducible apply State.vlvDecay_keeps | with_reducible apply State.cmdEnd_keeps | with_reducible apply State.vlvCycle_keeps | with_reducible apply State.putVlv_keeps | with_reducible apply State.vlvShow_keeps | split

theorem State.setQueue_keeps {s0 : Orig} {s : State} (h : Keeps s0 s) (g : Nat) (q : List VReq) (hm : Sub 4398046511104 s0.m) : Keeps s0 (State.setQueue s g q) := by
  unfold State.setQueue
  try dsimp only
  repeat' first | with_reducible assumption | with_reducible intro _ | ((with_reducible refine Sub.tr ?_ hm); exact rfl) | with_reducible apply Keeps.ite | with_reducible apply State.putVlv_keeps | split

theorem State.vlvWithdraw_keeps {s0 : Orig} {s : State} (h : Keeps s0 s) (n : Nat) (hm : Sub 4398046512128 s0.m) : Keeps s0 (State.vlvWithdraw s n) := by
  unfold State.vlvWithdraw
  try dsimp only
  repeat' first | with_reducible assumption | with_reducible intro _ | ((with_reducible refine Sub.tr ?_ hm); exact rfl) | with_reducible apply Keeps.ite | with_reducible apply State.setQueue_keeps | with_reducible apply State.vlvSet_keeps | with_reducible apply State.putVlv_keeps | split

theorem State.vlvRefuse_keeps {s0 : Orig} {s : State} (h : Keeps s0 s) (n : Nat) (hm : Sub 4948339459080 s0.m) : Keeps s0 (State.vlvRefuse s n) := by
  unfold State.vlvRefuse
  try dsimp only
  repeat' first | with_reducible assumption | with_reducible intro _ | ((with_reducible refine Sub.tr ?_ hm); exact rfl) | with_reducible apply Keeps.ite | with_reducible apply State.vlvSet_keeps | with_reducible apply State.vlvCount_keeps | with_reducible apply State.vlvEvent_keeps | with_reducible apply State.vchMod_keeps | split

theorem State.vlvLower_keeps {s0 : Orig} {s : State} (h : Keeps s0 s) (n t : Nat) (d : Option (Nat × Nat × Nat)) (hm : Sub 4948607894536 s0.m) : Keeps s0 (State.vlvLower s n t d) := by
  unfold State.vlvLower
  try dsimp only
  repeat' first | with_reducible assumption | with_reducible intro _ | ((with_reducible refine Sub.tr ?_ hm); exact rfl) | with_reducible apply Keeps.ite | with_reducible apply State.vchMod_keeps | with_reducible apply State.vlvWithdraw_keeps | with_reducible apply State.vlvApply_keeps | split

theorem State.vlvUnpeak_keeps {s0 : Orig} {s : State} (h : Keeps s0 s) (n : Nat) (hm : Sub 1024 s0.m) : Keeps s0 (State.vlvUnpeak s n) := by
  unfold State.vlvUnpeak
  try dsimp only
  repeat' first | with_reducible assumption | with_reducible intro _ | ((with_reducible refine Sub.tr ?_ hm); exact rfl) | with_reducible apply Keeps.ite | with_reducible apply State.vlvSet_keeps | split

theorem State.vlvRequest_keeps {s0 : Orig} {s : State} (h : Keeps s0 s) (n : Nat) (d : Option (Nat × Nat × Nat)) (wait : Bool) (hm : Sub 4948607894536 s0.m) : Keeps s0 (State.vlvRequest s n d wait) := by
  unfold State.vlvRequest
  try dsimp only
  repeat' first | with_reducible assumption | with_reducible intro _ | ((with_reducible refine Sub.tr ?_ hm); exact rfl) | with_reducible apply Keeps.ite | with_reducible apply State.vlvUnpeak_keeps | with_reducible apply State.vlvLower_keeps | with_reducible apply State.setQueue_keeps | with_reducible apply State.vchMod_keeps | with_reducible apply State.vlvApply_keeps | with_reducible apply State.vlvRefuse_keeps | with_reducible apply State.vlvSet_keeps | split

theorem State.vlvAbort_keeps {s0 : Orig} {s : State} (h : Keeps s0 s) (n : Nat) (hm : Sub 4398046512128 s0.m) : Keeps s0 (State.vlvAbort s n) := by
  unfold State.vlvAbort
  try dsimp only
  repeat' first | with_reducible assumption | with_reducible intro _ | ((with_reducible refine Sub.tr ?_ hm); exact rfl) | with_reducible apply Keeps.ite | with_reducible apply State.vlvSet_keeps | with_reducible apply State.vchMod_keeps | with_reducible apply State.vlvWithdraw_keeps | split

theorem State.vlvZero_keeps {s0 : Orig} {s : State} (h : Keeps s0 s) (n : Nat) (hm : Sub 4948607894536 s0.m) : Keeps s0 (State.vlvZero s n) := by
  unfold State.vlvZero
  try dsimp only
  repeat' first | with_reducible assumption | with_reducible intro _ | ((with_reducible refine Sub.tr ?_ hm); exact rfl) | with_reducible apply Keeps.ite | with_reducible apply State.vchMod_keeps | with_reducible apply State.vlvUnpeak_keeps | with_reducible apply State.vlvApply_keeps | with_reducible apply State.vlvDecay_keeps | with_reducible apply State.vlvShow_keeps | split

theorem State.vlvEnd_keeps {s0 : Orig} {s : State} (h : Keeps s0 s) (n : Nat) (hm : Sub 4948607894536 s0.m) : Keeps s0 (State.vlvEnd s n) := by
  unfold State.vlvEnd
  try dsimp only
  repeat' first | with_reducible assumption | with_reducible intro _ | ((with_reducible refine Sub.tr ?_ hm); exact rfl) | with_reducible apply Keeps.ite | with_reducible apply State.vlvAbort_keeps | with_reducible apply State.vlvZero_keeps | with_reducible apply State.vlvEvent_keeps | with_reducible apply State.vlvIdle_keeps | split

theorem State.vlvFail_keeps {s0 : Orig} {s : State} (h : Keeps s0 s) (n : Nat) (off : Bool) (hm : Sub 4948607894536 s0.m) : Keeps s0 (State.vlvFail s n off) := by
  unfold State.vlvFail
  try dsimp only
  repeat' first | with_reducible assumption | with_reducible intro _ | ((with_reducible refine Sub.tr ?_ hm); exact rfl) | with_reducible apply Keeps.ite | with_reducible apply State.vlvAbort_keeps | with_reducible apply State.vlvSet_keeps | with_reducible apply State.setBit_keeps | with_reducible apply State.vchMod_keeps | with_reducible apply State.vlvRequest_keeps | with_reducible apply State.vlvZero_keeps | with_reducible apply State.vlvIdle_keeps | split

theorem State.vlvOffNow_keeps {s0 : Orig} {s : State} (h : Keeps s0 s) (n : Nat) (hm : Sub 4948607894536 s0.m) : Keeps s0 (State.vlvOffNow s n) := by
  unfold State.vlvOffNow
  try dsimp only
  repeat' first | with_reducible assumption | with_reducible intro _ | ((with_reducible refine Sub.tr ?_ hm); exact rfl) | with_reducible apply Keeps.ite | with_reducible apply State.vlvAbort_keeps | with_reducible apply State.vchMod_keeps | with_reducible apply State.vlvZero_keeps | with_reducible apply State.vlvShow_keeps | with_reducible apply State.vlvIdle_keeps | split

theorem State.vlvStart_keeps {s0 : Orig} {s : State} (h : Keeps s0 s) (n i : Nat) (hm : Sub 4948339459080 s0.m) : Keeps s0 (State.vlvStart s n i) := by
  unfold State.vlvStart
  try dsimp only
  repeat' first | with_reducible assumption | with_reducible intro _ | ((with_reducible refine Sub.tr ?_ hm); exact rfl) | with_reducible apply Keeps.ite | with_reducible apply State.vlvTakeSwap_keeps | with_reducible apply State.setF_keeps | with_reducible apply State.vlvSet_keeps | with_reducible apply State.vlvParams_keeps | with_reducible apply State.vchMod_keeps | split

theorem State.vlvAct_keeps {s0 : Orig} {s : State} (h : Keeps s0 s) (n : Nat) (c : VCmd) (hm : Sub 4948607894536 s0.m) : Keeps s0 (State.vlvAct s n c) := by
  unfold State.vlvAct
  try dsimp only
  repeat' first | with_reducible assumption | with_reducible intro _ | ((with_reducible refine Sub.tr ?_ hm); exact rfl) | with_reducible apply Keeps.ite | with_reducible apply State.vlvEnd_keeps | with_reducible apply State.vlvAbort_keeps | with_reducible apply State.vlvStart_keeps | split

theorem State.vlvFault_keeps {s0 : Orig} {s : State} (h : Keeps s0 s) (n : Nat) (hm : Sub 4948607894536 s0.m) : Keeps s0 (State.vlvFault s n) := by
  unfold State.vlvFault
  try dsimp only
  repeat' first | with_reducible assumption | with_reducible intro _ | ((with_reducible refine Sub.tr ?_ hm); exact rfl) | with_reducible apply Keeps.ite | with_reducible apply State.vlvEvent_keeps | with_reducible apply State.vlvFail_keeps | split

theorem State.vlvSetPc_keeps {s0 : Orig} {s : State} (h : Keeps s0 s) (n i : Nat) (hm : Sub 4398046512128 s0.m) : Keeps s0 (State.vlvSetPc s n i) := by
  unfold State.vlvSetPc
  try dsimp only
  repeat' first | with_reducible assumption | with_reducible intro _ | ((with_reducible refine Sub.tr ?_ hm); exact rfl) | with_reducible apply Keeps.ite | with_reducible apply State.setF_keeps | with_reducible apply State.vchMod_keeps | split

theorem State.vlvPast_keeps {s0 : Orig} {s : State} (h : Keeps s0 s) (n pc : Nat) (hm : Sub 4948607894536 s0.m) : Keeps s0 (State.vlvPast s n pc) := by
  unfold State.vlvPast
  try dsimp only
  repeat' first | with_reducible assumption | with_reducible intro _ | ((with_reducible refine Sub.tr ?_ hm); exact rfl) | with_reducible apply Keeps.ite | with_reducible apply State.vlvSetPc_keeps | with_reducible apply State.vlvFault_keeps | split

theorem State.vlvNext_keeps {s0 : Orig} {s : State} (h : Keeps s0 s) (n pc : Nat) (hm : Sub 4948607894536 s0.m) : Keeps s0 (State.vlvNext s n pc) := by
  unfold State.vlvNext
  try dsimp only
  repeat' first | with_reducible assumption | with_reducible intro _ | ((with_reducible refine Sub.tr ?_ hm); exact rfl) | with_reducible apply Keeps.ite | with_reducible apply State.vlvPast_keeps | split

theorem State.vlvResume_keeps {s0 : Orig} {s : State} (h : Keeps s0 s) (n : Nat) (hm : Sub 4948607894536 s0.m := by first | assumption | exact Sub.tr rfl (by assumption)) : Keeps s0 (State.vlvResume s n) := by
  unfold State.vlvResume
  try dsimp only
  repeat' first | with_reducible assumption | with_reducible intro _ | ((with_reducible refine Sub.tr ?_ hm); exact rfl) | with_reducible apply Keeps.ite | with_reducible apply State.vchMod_keeps | with_reducible apply State.vlvPast_keeps | split

theorem State.vlvSeti_keeps {s0 : Orig} {s : State} (h : Keeps s0 s) (n src v : Nat) (hm : Sub 4948607894536 s0.m) : Keeps s0 (State.vlvSeti s n src v) := by
  unfold State.vlvSeti
  try dsimp only
  repeat' first | with_reducible assumption | with_reducible intro _ | ((with_reducible refine Sub.tr ?_ hm); exact rfl) | with_reducible apply Keeps.ite | with_reducible apply State.vchMod_keeps | with_reducible apply State.vlvRequest_keeps | split

theorem State.vlvHold_keeps {s0 : Orig} {s : State} (h : Keeps s0 s) (n : Nat) (h : VHold) (hm : Sub 4948607894536 s0.m) : Keeps s0 (State.vlvHold s n h) := by
  unfold State.vlvHold
  try dsimp only
  repeat' first | with_reducible assumption | with_reducible intro _ | ((with_reducible refine Sub.tr ?_ hm); exact rfl) | with_reducible apply Keeps.ite | with_reducible apply State.vchMod_keeps | with_reducible apply State.vlvAct_keeps | split

theorem State.vlvStop_keeps {s0 : Orig} {s : State} (h : Keeps s0 s) (n : Nat) (hm : Sub 4948607894536 s0.m) : Keeps s0 (State.vlvStop s n) := by
  unfold State.vlvStop
  try dsimp only
  repeat' first | with_reducible assumption | with_reducible intro _ | ((with_reducible refine Sub.tr ?_ hm); exact rfl) | with_reducible apply Keeps.ite | with_reducible apply State.vlvAct_keeps | with_reducible apply State.vlvEnd_keeps | split

theorem State.vlvInstr_keeps {s0 : Orig} {s : State} (h : Keeps s0 s) (n : Nat) (hm : Sub 4948607894536 s0.m := by first | assumption | exact Sub.tr rfl (by assumption)) : Keeps s0 (State.vlvInstr s n) := by
  unfold State.vlvInstr
  try dsimp only
  repeat' first | with_reducible assumption | with_reducible intro _ | ((with_reducible refine Sub.tr ?_ hm); exact rfl) | with_reducible apply Keeps.ite | with_reducible apply State.vlvFault_keeps | with_reducible apply State.vlvStop_keeps | with_reducible apply State.vchMod_keeps | with_reducible apply State.vlvHold_keeps | with_reducible apply State.vlvSetPc_keeps | with_reducible apply State.setF_keeps | with_reducible apply State.vlvNext_keeps | with_reducible apply State.vlvTakeBand_keeps | with_reducible apply State.vlvParams_keeps | with_reducible apply State.vlvSeti_keeps | with_reducible apply State.vlvRequest_keeps | split

theorem State.vlvServe1_keeps {s0 : Orig} {s : State} (h : Keeps s0 s) (g : Nat) (hm : Sub 4948607894536 s0.m := by first | assumption | exact Sub.tr rfl (by assumption)) : KeepsO s0 (State.vlvServe1 s g) := by
  unfold State.vlvServe1
  try dsimp only
  repeat' first | with_reducible assumption | with_reducible intro _ | ((with_reducible refine Sub.tr ?_ hm); exact rfl) | with_reducible apply Keeps.ite | with_reducible apply KeepsR.ok | with_reducible apply KeepsR.ite | with_reducible apply KeepsO.some | with_reducible exact KeepsO.none | with_reducible apply KeepsO.ite | with_reducible apply KeepsO.map | with_reducible apply State.setQueue_keeps | with_reducible apply State.vlvSet_keeps | with_reducible apply State.vlvCount_keeps | with_reducible apply State.vlvApply_keeps | with_reducible apply State.vlvResume_keeps | split | with_reducible refine Keeps.eqSome (by assumption) ?_ | with_reducible refine Keeps.eqNext (by assumption) ?_

theorem State.vlvServe_keeps {s0 : Orig} {s : State} (h : Keeps s0 s) (l : List Nat) (hm : Sub 4948607894536 s0.m := by first | assumption | exact Sub.tr rfl (by assumption)) : KeepsO s0 (State.vlvServe s l) := by
  induction l with
  | nil => exact KeepsO.none
  | cons g gs ih =>
    unfold State.vlvServe
    split
    · exact KeepsO.some (Keeps.eqSome (by assumption) (State.vlvServe1_keeps h g))
    · exact ih

theorem State.vlvSettleN_keeps {s0 : Orig} {s : State} (h : Keeps s0 s) (k : Nat) (hm : Sub 4948607894536 s0.m := by first | assumption | exact Sub.tr rfl (by assumption)) : Keeps s0 (State.vlvSettleN k s) := by
  induction k generalizing s with
  | zero => exact h
  | succ k ih =>
    unfold State.vlvSettleN
    split
    · split
      · exact ih (Keeps.eqSome (by assumption) (State.vlvServe_keeps h _))
      · exact ih (State.putVlv_keeps h _)
    · split
      · exact ih (Keeps.ite (State.vlvResume_keeps h _) (State.vlvInstr_keeps h _))
      · exact h

theorem State.vlvSettle_keeps {s0 : Orig} {s : State} (h : Keeps s0 s) (hm : Sub 4948607894536 s0.m := by first | assumption | exact Sub.tr rfl (by assumption)) : Keeps s0 (State.vlvSettle s) := State.vlvSettleN_keeps h 4400

theorem State.vlvGo_keeps {s0 : Orig} {s : State} (h : Keeps s0 s) (n : Nat) (c : VCmd) (auto : Bool) (hm : Sub 4948607894536 s0.m) : Keeps s0 (State.vlvGo s n c auto) := by
  unfold State.vlvGo
  try dsimp only
  repeat' first | with_reducible assumption | with_reducible intro _ | ((with_reducible refine Sub.tr ?_ hm); exact rfl) | with_reducible apply Keeps.ite | with_reducible apply State.wrN_keeps | with_reducible apply ok_keeps | with_reducible apply State.vlvCount_keeps | with_reducible apply State.vlvAct_keeps | with_reducible apply State.vlvSettle_keeps | with_reducible apply State.vchMod_keeps | split

theorem execVlvGo_keeps {s0 : Orig} {s : State} (h : Keeps s0 s) (n : Fin 32) (i : Nat) (hm : Sub 4948607894536 s0.m) : KeepsR s0 (execVlvGo n i s) := by
  unfold execVlvGo
  try dsimp only
  repeat' first | with_reducible assumption | with_reducible intro _ | ((with_reducible refine Sub.tr ?_ hm); exact rfl) | with_reducible apply Keeps.ite | with_reducible apply KeepsR.ok | with_reducible apply KeepsR.ite | with_reducible apply ok_keeps | with_reducible apply State.vlvGo_keeps | split | with_reducible refine Keeps.eqNext (by assumption) ?_

theorem execVlvStop_keeps {s0 : Orig} {s : State} (h : Keeps s0 s) (n : Fin 32) (hm : Sub 4948607894536 s0.m) : KeepsR s0 (execVlvStop n s) := by
  unfold execVlvStop
  try dsimp only
  repeat' first | with_reducible assumption | with_reducible intro _ | ((with_reducible refine Sub.tr ?_ hm); exact rfl) | with_reducible apply Keeps.ite | with_reducible apply KeepsR.ok | with_reducible apply KeepsR.ite | with_reducible apply ok_keeps | with_reducible apply State.vlvGo_keeps | split | with_reducible refine Keeps.eqNext (by assumption) ?_

theorem State.vlvCmdIn_keeps {s0 : Orig} {s : State} (h : Keeps s0 s) (n v : Nat) (hm : Sub 4948607894536 s0.m) : Keeps s0 (State.vlvCmdIn s n v) := by
  unfold State.vlvCmdIn
  try dsimp only
  repeat' first | with_reducible assumption | with_reducible intro _ | ((with_reducible refine Sub.tr ?_ hm); exact rfl) | with_reducible apply Keeps.ite | with_reducible apply State.wrN_keeps | with_reducible apply State.vchMod_keeps | with_reducible apply State.vlvRequest_keeps | with_reducible apply State.vlvSettle_keeps | with_reducible apply State.vlvGo_keeps | split

theorem State.vlvProgIn_keeps {s0 : Orig} {s : State} (h : Keeps s0 s) (n : Nat) (v : Word) (hm : Sub 4948607894536 s0.m) : Keeps s0 (State.vlvProgIn s n v) := by
  unfold State.vlvProgIn
  try dsimp only
  repeat' first | with_reducible assumption | with_reducible intro _ | ((with_reducible refine Sub.tr ?_ hm); exact rfl) | with_reducible apply Keeps.ite | with_reducible apply State.vlvCmdIn_keeps | split

theorem execCmdInWrite_keeps {s0 : Orig} {s : State} (h : Keeps s0 s) (n : Fin 32) (v : Word) (hm : Sub 4948607894536 s0.m) : KeepsR s0 (execCmdInWrite n v s) := by
  unfold execCmdInWrite
  try dsimp only
  repeat' first | with_reducible assumption | with_reducible intro _ | ((with_reducible refine Sub.tr ?_ hm); exact rfl) | with_reducible apply Keeps.ite | with_reducible apply KeepsR.ok | with_reducible apply KeepsR.ite | with_reducible apply ok_keeps | with_reducible apply State.vlvProgIn_keeps | split | with_reducible refine Keeps.eqNext (by assumption) ?_

theorem State.vlvMeasured_keeps {s0 : Orig} {s : State} (h : Keeps s0 s) (n current : Nat) (hm : Sub 4398046512128 s0.m) : Keeps s0 (State.vlvMeasured s n current) := by
  unfold State.vlvMeasured
  try dsimp only
  repeat' first | with_reducible assumption | with_reducible intro _ | ((with_reducible refine Sub.tr ?_ hm); exact rfl) | with_reducible apply Keeps.ite | with_reducible apply State.setF_keeps | with_reducible apply State.vchMod_keeps | split

theorem State.vlvFinEdge_keeps {s0 : Orig} {s : State} (h : Keeps s0 s) (fin : Nat) (hm : Sub 4398046511104 s0.m) : Keeps s0 (State.vlvFinEdge s fin) := by
  unfold State.vlvFinEdge
  try dsimp only
  repeat' first | with_reducible assumption | with_reducible intro _ | ((with_reducible refine Sub.tr ?_ hm); exact rfl) | with_reducible apply Keeps.ite | with_reducible apply State.each_keeps | with_reducible apply State.vchMod_keeps | split

theorem execHoldEnd_keeps {s0 : Orig} {s : State} (h : Keeps s0 s) (n : Fin 32) (e : HoldProbe) (hm : Sub 4948607894536 s0.m) : KeepsR s0 (execHoldEnd n e s) := by
  unfold execHoldEnd
  try dsimp only
  repeat' first | with_reducible assumption | with_reducible intro _ | ((with_reducible refine Sub.tr ?_ hm); exact rfl) | with_reducible apply Keeps.ite | with_reducible apply KeepsR.ok | with_reducible apply KeepsR.ite | with_reducible apply ok_keeps | with_reducible apply State.vlvMeasured_keeps | with_reducible apply State.vchMod_keeps | with_reducible apply State.vlvSet_keeps | with_reducible apply State.vlvAct_keeps | with_reducible apply State.vlvSettle_keeps | with_reducible apply State.vlvPast_keeps | split | with_reducible refine Keeps.eqNext (by assumption) ?_

theorem execDeferralApply_keeps {s0 : Orig} {s : State} (h : Keeps s0 s) (g : Fin 8) (hm : Sub 4948607894536 s0.m) : KeepsR s0 (execDeferralApply g s) := by
  unfold execDeferralApply
  try dsimp only
  repeat' first | with_reducible assumption | with_reducible intro _ | ((with_reducible refine Sub.tr ?_ hm); exact rfl) | with_reducible apply Keeps.ite | with_reducible apply KeepsR.ok | with_reducible apply KeepsR.ite | with_reducible apply KeepsO.some | with_reducible exact KeepsO.none | with_reducible apply KeepsO.ite | with_reducible apply KeepsO.map | with_reducible apply State.vlvServe1_keeps | with_reducible apply ok_keeps | with_reducible apply State.vlvSettle_keeps | with_reducible apply State.putVlv_keeps | split | with_reducible refine Keeps.eqSome (by assumption) ?_ | with_reducible refine Keeps.eqNext (by assumption) ?_

theorem execDeferMaxExpired_keeps {s0 : Orig} {s : State} (h : Keeps s0 s) (n : Fin 32) (hm : Sub 4948607894536 s0.m) : KeepsR s0 (execDeferMaxExpired n s) := by
  unfold execDeferMaxExpired
  try dsimp only
  repeat' first | with_reducible assumption | with_reducible intro _ | ((with_reducible refine Sub.tr ?_ hm); exact rfl) | with_reducible apply Keeps.ite | with_reducible apply KeepsR.ok | with_reducible apply KeepsR.ite | with_reducible apply State.vlvWithdraw_keeps | with_reducible apply State.vlvRefuse_keeps | with_reducible apply ok_keeps | with_reducible apply State.vchMod_keeps | with_reducible apply State.vlvResume_keeps | with_reducible apply State.vlvSettle_keeps | split | with_reducible refine Keeps.eqNext (by assumption) ?_

theorem execPeakMaxExpired_keeps {s0 : Orig} {s : State} (h : Keeps s0 s) (n : Fin 32) (hm : Sub 4948607894536 s0.m) : KeepsR s0 (execPeakMaxExpired n s) := by
  unfold execPeakMaxExpired
  try dsimp only
  repeat' first | with_reducible assumption | with_reducible intro _ | ((with_reducible refine Sub.tr ?_ hm); exact rfl) | with_reducible apply Keeps.ite | with_reducible apply KeepsR.ok | with_reducible apply KeepsR.ite | with_reducible apply ok_keeps | with_reducible apply State.vlvSet_keeps | with_reducible apply State.vlvRequest_keeps | with_reducible apply State.vlvSettle_keeps | split | with_reducible refine Keeps.eqNext (by assumption) ?_

theorem execDecayEnd_keeps {s0 : Orig} {s : State} (h : Keeps s0 s) (n : Fin 32) (below : Bool) (hm : Sub 4948607894536 s0.m) : KeepsR s0 (execDecayEnd n below s) := by
  unfold execDecayEnd
  try dsimp only
  repeat' first | with_reducible assumption | with_reducible intro _ | ((with_reducible refine Sub.tr ?_ hm); exact rfl) | with_reducible apply Keeps.ite | with_reducible apply KeepsR.ok | with_reducible apply KeepsR.ite | with_reducible apply ok_keeps | with_reducible apply State.vchMod_keeps | with_reducible apply State.setF_keeps | with_reducible apply State.vlvShow_keeps | with_reducible apply State.vlvSettle_keeps | with_reducible apply State.putVlv_keeps | split | with_reducible refine Keeps.eqNext (by assumption) ?_

theorem State.vlvDutyShow_keeps {s0 : Orig} {s : State} (h : Keeps s0 s) (n : Nat) (hm : Sub 1024 s0.m) : Keeps s0 (State.vlvDutyShow s n) := by
  unfold State.vlvDutyShow
  try dsimp only
  repeat' first | with_reducible assumption | with_reducible intro _ | ((with_reducible refine Sub.tr ?_ hm); exact rfl) | with_reducible apply Keeps.ite | with_reducible apply State.wrN_keeps | split

theorem State.vlvDuty_keeps {s0 : Orig} {s : State} (h : Keeps s0 s) (n : Nat) (hm : Sub 4948607894536 s0.m) : Keeps s0 (State.vlvDuty s n) := by
  unfold State.vlvDuty
  try dsimp only
  repeat' first | with_reducible assumption | with_reducible intro _ | ((with_reducible refine Sub.tr ?_ hm); exact rfl) | with_reducible apply Keeps.ite | with_reducible apply State.vlvDutyShow_keeps | with_reducible apply State.vlvSet_keeps | with_reducible apply State.vlvRequest_keeps | with_reducible apply State.vlvEvent_keeps | split

theorem execVlvDuty_keeps {s0 : Orig} {s : State} (h : Keeps s0 s) (n : Fin 32) (add : Nat) (hm : Sub 4948607894536 s0.m) : KeepsR s0 (execVlvDuty n add s) := by
  unfold execVlvDuty
  try dsimp only
  repeat' first | with_reducible assumption | with_reducible intro _ | ((with_reducible refine Sub.tr ?_ hm); exact rfl) | with_reducible apply Keeps.ite | with_reducible apply KeepsR.ok | with_reducible apply KeepsR.ite | with_reducible apply State.vchMod_keeps | with_reducible apply ok_keeps | with_reducible apply State.vlvDuty_keeps | with_reducible apply State.vlvSettle_keeps | split | with_reducible refine Keeps.eqNext (by assumption) ?_

theorem execDutyResume_keeps {s0 : Orig} {s : State} (h : Keeps s0 s) (n : Fin 32) (bins : Nat) (hm : Sub 4948607894536 s0.m) : KeepsR s0 (execDutyResume n bins s) := by
  unfold execDutyResume
  try dsimp only
  repeat' first | with_reducible assumption | with_reducible intro _ | ((with_reducible refine Sub.tr ?_ hm); exact rfl) | with_reducible apply Keeps.ite | with_reducible apply KeepsR.ok | with_reducible apply KeepsR.ite | with_reducible apply State.vchMod_keeps | with_reducible apply ok_keeps | with_reducible apply State.vlvDuty_keeps | with_reducible apply State.vlvSettle_keeps | split | with_reducible refine Keeps.eqNext (by assumption) ?_

theorem execVlvClaim_keeps {s0 : Orig} {s : State} (h : Keeps s0 s)  (hm : Sub 550561383432 s0.m) : KeepsR s0 (execVlvClaim s) := by
  unfold execVlvClaim
  try dsimp only
  repeat' first | with_reducible assumption | with_reducible intro _ | ((with_reducible refine Sub.tr ?_ hm); exact rfl) | with_reducible apply Keeps.ite | with_reducible apply KeepsR.ok | with_reducible apply KeepsR.ite | with_reducible apply KeepsP.ite | with_reducible apply State.each_keeps | with_reducible apply ok_keeps | with_reducible apply State.command_keeps | with_reducible apply refuse_keeps | with_reducible apply done_keeps | with_reducible apply State.setBit_keeps | simp -zeta only [KeepsP.pair, KeepsQ.pair] | with_reducible apply KeepsP.fst | split | with_reducible refine Keeps.eqFst (by assumption) ?_ | with_reducible refine Keeps.eqNext (by assumption) ?_

theorem execVlvSwap_keeps {s0 : Orig} {s : State} (h : Keeps s0 s)  (hm : Sub 550561383432 s0.m) : KeepsR s0 (execVlvSwap s) := by
  unfold execVlvSwap
  try dsimp only
  repeat' first | with_reducible assumption | with_reducible intro _ | ((with_reducible refine Sub.tr ?_ hm); exact rfl) | with_reducible apply Keeps.ite | with_reducible apply KeepsR.ok | with_reducible apply KeepsR.ite | with_reducible apply KeepsP.ite | with_reducible apply ok_keeps | with_reducible apply State.command_keeps | with_reducible apply refuse_keeps | with_reducible apply State.setBit_keeps | with_reducible apply done_keeps | with_reducible apply State.vlvTakeSwap_keeps | simp -zeta only [KeepsP.pair, KeepsQ.pair] | with_reducible apply KeepsP.fst | split | with_reducible refine Keeps.eqFst (by assumption) ?_ | with_reducible refine Keeps.eqNext (by assumption) ?_

theorem execVlvSwapCancel_keeps {s0 : Orig} {s : State} (h : Keeps s0 s)  (hm : Sub 550561383432 s0.m) : KeepsR s0 (execVlvSwapCancel s) := by
  unfold execVlvSwapCancel
  try dsimp only
  repeat' first | with_reducible assumption | with_reducible intro _ | ((with_reducible refine Sub.tr ?_ hm); exact rfl) | with_reducible apply Keeps.ite | with_reducible apply KeepsR.ok | with_reducible apply KeepsR.ite | with_reducible apply KeepsP.ite | with_reducible apply ok_keeps | with_reducible apply State.command_keeps | with_reducible apply done_keeps | with_reducible apply State.setBit_keeps | simp -zeta only [KeepsP.pair, KeepsQ.pair] | with_reducible apply KeepsP.fst | split | with_reducible refine Keeps.eqFst (by assumption) ?_ | with_reducible refine Keeps.eqNext (by assumption) ?_

theorem State.vlvLatched_keeps {s0 : Orig} {s : State} (h : Keeps s0 s) (n : Nat) (hm : Sub 1024 s0.m) : Keeps s0 (State.vlvLatched s n) := by
  unfold State.vlvLatched
  try dsimp only
  repeat' first | with_reducible assumption | with_reducible intro _ | ((with_reducible refine Sub.tr ?_ hm); exact rfl) | with_reducible apply Keeps.ite | with_reducible apply State.vlvSet_keeps | split

theorem execVlvClearFault_keeps {s0 : Orig} {s : State} (h : Keeps s0 s)  (hm : Sub 4948607894536 s0.m) : KeepsR s0 (execVlvClearFault s) := by
  unfold execVlvClearFault
  try dsimp only
  repeat' first | with_reducible assumption | with_reducible intro _ | ((with_reducible refine Sub.tr ?_ hm); exact rfl) | with_reducible apply Keeps.ite | with_reducible apply KeepsR.ok | with_reducible apply KeepsR.ite | with_reducible apply KeepsP.ite | with_reducible apply State.each_keeps | with_reducible apply ok_keeps | with_reducible apply State.command_keeps | with_reducible apply done_keeps | with_reducible apply State.vchMod_keeps | with_reducible apply State.vlvLatched_keeps | simp -zeta only [KeepsP.pair, KeepsQ.pair] | with_reducible apply KeepsP.fst | split | with_reducible refine Keeps.eqFst (by assumption) ?_ | with_reducible refine Keeps.eqNext (by assumption) ?_

theorem execFeedReset_keeps {s0 : Orig} {s : State} (h : Keeps s0 s)  (hm : Sub 4948607894536 s0.m) : KeepsR s0 (execFeedReset s) := by
  unfold execFeedReset
  try dsimp only
  repeat' first | with_reducible assumption | with_reducible intro _ | ((with_reducible refine Sub.tr ?_ hm); exact rfl) | with_reducible apply Keeps.ite | with_reducible apply KeepsR.ok | with_reducible apply KeepsR.ite | with_reducible apply KeepsP.ite | with_reducible apply State.each_keeps | with_reducible apply ok_keeps | with_reducible apply State.command_keeps | with_reducible apply refuse_keeps | with_reducible apply State.setBit_keeps | with_reducible apply State.vlvLatched_keeps | with_reducible apply State.vlvShow_keeps | with_reducible apply done_keeps | with_reducible apply State.vlvSettle_keeps | with_reducible apply State.putVlv_keeps | simp -zeta only [KeepsP.pair, KeepsQ.pair] | with_reducible apply KeepsP.fst | split | with_reducible refine Keeps.eqFst (by assumption) ?_ | with_reducible refine Keeps.eqNext (by assumption) ?_

theorem execVlvClearCounts_keeps {s0 : Orig} {s : State} (h : Keeps s0 s)  (hm : Sub 550561383432 s0.m) : KeepsR s0 (execVlvClearCounts s) := by
  unfold execVlvClearCounts
  try dsimp only
  repeat' first | with_reducible assumption | with_reducible intro _ | ((with_reducible refine Sub.tr ?_ hm); exact rfl) | with_reducible apply Keeps.ite | with_reducible apply KeepsR.ok | with_reducible apply KeepsR.ite | with_reducible apply KeepsP.ite | with_reducible apply State.each_keeps | with_reducible apply ok_keeps | with_reducible apply State.command_keeps | with_reducible apply done_keeps | with_reducible apply State.wr_keeps | simp -zeta only [KeepsP.pair, KeepsQ.pair] | with_reducible apply KeepsP.fst | split | with_reducible refine Keeps.eqFst (by assumption) ?_ | with_reducible refine Keeps.eqNext (by assumption) ?_

theorem execVlvHoldExpired_keeps {s0 : Orig} {s : State} (h : Keeps s0 s) (n : Fin 32) (hm : Sub 4948607894536 s0.m) : KeepsR s0 (execVlvHoldExpired n s) := by
  unfold execVlvHoldExpired
  try dsimp only
  repeat' first | with_reducible assumption | with_reducible intro _ | ((with_reducible refine Sub.tr ?_ hm); exact rfl) | with_reducible apply Keeps.ite | with_reducible apply KeepsR.ok | with_reducible apply KeepsR.ite | with_reducible apply ok_keeps | with_reducible apply State.vlvEvent_keeps | with_reducible apply State.vlvFail_keeps | with_reducible apply State.vlvSettle_keeps | split | with_reducible refine Keeps.eqNext (by assumption) ?_

theorem State.vlvBack_keeps {s0 : Orig} {s : State} (h : Keeps s0 s)  (hm : Sub 4948607894536 s0.m) : Keeps s0 (State.vlvBack s) := by
  unfold State.vlvBack
  try dsimp only
  repeat' first | with_reducible assumption | with_reducible intro _ | ((with_reducible refine Sub.tr ?_ hm); exact rfl) | with_reducible apply Keeps.ite | with_reducible apply State.vlvSettle_keeps | with_reducible apply State.putVlv_keeps | split

theorem State.vlvCoreReset_keeps {s0 : Orig} {s : State} (h : Keeps s0 s) (n : Nat) (hm : Sub 4948607894536 s0.m) : Keeps s0 (State.vlvCoreReset s n) := by
  unfold State.vlvCoreReset
  try dsimp only
  repeat' first | with_reducible assumption | with_reducible intro _ | ((with_reducible refine Sub.tr ?_ hm); exact rfl) | with_reducible apply Keeps.ite | with_reducible apply State.vchMod_keeps | with_reducible apply State.vlvEvent_keeps | with_reducible apply State.vlvFail_keeps | with_reducible apply State.setBit_keeps | split

theorem State.vlvAllOff_keeps {s0 : Orig} {s : State} (h : Keeps s0 s)  (hm : Sub 4948607894536 s0.m) : Keeps s0 (State.vlvAllOff s) := by
  unfold State.vlvAllOff
  try dsimp only
  repeat' first | with_reducible assumption | with_reducible intro _ | ((with_reducible refine Sub.tr ?_ hm); exact rfl) | with_reducible apply Keeps.ite | with_reducible apply State.each_keeps | with_reducible apply State.vlvAbort_keeps | with_reducible apply State.vlvZero_keeps | with_reducible apply State.vlvIdle_keeps | split

end Sys2Proof.Machine
end

