-- ==== Sys2Proof/Laws/KeepsLaw.lean ====
section
/-! SUPPORT. The operations of Machine/Law.lean keep the queue of commands and the canonical form, and change no part outside
their footprint. -/

set_option linter.unusedSimpArgs false
set_option linter.unusedVariables false
set_option Elab.async false

namespace Sys2Proof.Machine

theorem State.lpMod_keeps {s0 : Orig} {s : State} (h : Keeps s0 s) (n : Nat) (f : LpeI → LpeI) (hm : Sub 8796093022208 s0.m := by first | assumption | exact Sub.tr rfl (by assumption)) : Keeps s0 (State.lpMod s n f) := by
  unfold State.lpMod
  try dsimp only
  repeat' first | with_reducible assumption | with_reducible intro _ | ((with_reducible refine Sub.tr ?_ hm); exact rfl) | with_reducible apply Keeps.ite | with_reducible apply State.putLpe_keeps | split

theorem State.lpFlags_keeps {s0 : Orig} {s : State} (h : Keeps s0 s) (n fl : Nat) (hm : Sub 550292947464 s0.m := by first | assumption | exact Sub.tr rfl (by assumption)) : Keeps s0 (State.lpFlags s n fl) := by
  unfold State.lpFlags
  try dsimp only
  repeat' first | with_reducible assumption | with_reducible intro _ | ((with_reducible refine Sub.tr ?_ hm); exact rfl) | with_reducible apply Keeps.ite | with_reducible apply State.wrN_keeps | with_reducible apply State.event_keeps | split

theorem State.lpeSkip_keeps {s0 : Orig} {s : State} (h : Keeps s0 s) (old new : Nat) (hm : Sub 550292947464 s0.m) : Keeps s0 (State.lpeSkip s old new) := by
  unfold State.lpeSkip
  try dsimp only
  repeat' first | with_reducible assumption | with_reducible intro _ | ((with_reducible refine Sub.tr ?_ hm); exact rfl) | with_reducible apply Keeps.ite | with_reducible apply State.each_keeps | with_reducible apply State.incF_keeps | with_reducible apply State.lpFlags_keeps | with_reducible apply State.event_keeps | split

theorem State.lpeWrite_keeps {s0 : Orig} {s : State} (h : Keeps s0 s) (o : Nat) (v : Word) (hm : Sub 9002259841538 s0.m := by first | assumption | exact Sub.tr rfl (by assumption)) : Keeps s0 (State.lpeWrite s o v) := by
  unfold State.lpeWrite
  try dsimp only
  repeat' first | with_reducible assumption | with_reducible intro _ | ((with_reducible refine Sub.tr ?_ hm); exact rfl) | with_reducible apply Keeps.ite | with_reducible apply State.setBit_keeps | with_reducible apply State.wr_keeps | with_reducible apply State.store_keeps | with_reducible apply State.putLpe_keeps | split

end Sys2Proof.Machine
end

