-- ==== Sys2Proof/Laws/KeepsMemory.lean ====
section
/-! SUPPORT. The operations of Machine/Memory.lean keep the queue of commands and the canonical form, and change no part outside
their footprint. -/

set_option linter.unusedSimpArgs false
set_option linter.unusedVariables false
set_option Elab.async false

namespace Sys2Proof.Machine

theorem State.poisonShow_keeps {s0 : Orig} {s : State} (h : Keeps s0 s)  (hm : Sub 2 s0.m := by first | assumption | exact Sub.tr rfl (by assumption)) : Keeps s0 (State.poisonShow s) := by
  unfold State.poisonShow
  try dsimp only
  repeat' first | with_reducible assumption | with_reducible intro _ | ((with_reducible refine Sub.tr ?_ hm); exact rfl) | with_reducible apply Keeps.ite | with_reducible apply State.wrN_keeps | split

theorem State.eccCorrect_keeps {s0 : Orig} {s : State} (h : Keeps s0 s) (g : Nat) (hm : Sub 962609807370 s0.m) : Keeps s0 (State.eccCorrect s g) := by
  unfold State.eccCorrect
  try dsimp only
  repeat' first | with_reducible assumption | with_reducible intro _ | ((with_reducible refine Sub.tr ?_ hm); exact rfl) | with_reducible apply Keeps.ite | with_reducible apply State.putLatent_keeps | with_reducible apply State.wrN_keeps | with_reducible apply State.incF_keeps | with_reducible apply State.putCeAt_keeps | with_reducible apply State.event_keeps | split

theorem State.eccPoison_keeps {s0 : Orig} {s : State} (h : Keeps s0 s) (g : Nat) (hm : Sub 756451377162 s0.m) : Keeps s0 (State.eccPoison s g) := by
  unfold State.eccPoison
  try dsimp only
  repeat' first | with_reducible assumption | with_reducible intro _ | ((with_reducible refine Sub.tr ?_ hm); exact rfl) | with_reducible apply Keeps.ite | with_reducible apply State.putLatent_keeps | with_reducible apply State.putPoison_keeps | with_reducible apply State.wrN_keeps | with_reducible apply State.incF_keeps | with_reducible apply State.poisonShow_keeps | with_reducible apply State.event_keeps | split

theorem State.eccCheck_keeps {s0 : Orig} {s : State} (h : Keeps s0 s) (g : Nat) (hm : Sub 1031329284106 s0.m) : Keeps s0 (State.eccCheck s g) := by
  unfold State.eccCheck
  try dsimp only
  repeat' first | with_reducible assumption | with_reducible intro _ | ((with_reducible refine Sub.tr ?_ hm); exact rfl) | with_reducible apply Keeps.ite | with_reducible apply State.eccCorrect_keeps | with_reducible apply State.eccPoison_keeps | split

theorem State.eccRead_keeps {s0 : Orig} {s : State} (h : Keeps s0 s) (a n : Nat) (hm : Sub 1031329284106 s0.m) : Keeps s0 (State.eccRead s a n) := by
  unfold State.eccRead
  try dsimp only
  repeat' first | with_reducible assumption | with_reducible intro _ | ((with_reducible refine Sub.tr ?_ hm); exact rfl) | with_reducible apply Keeps.ite | with_reducible apply State.each_keeps | with_reducible apply State.eccCheck_keeps | split

theorem State.store_keeps {s0 : Orig} {s : State} (h : Keeps s0 s) (a : Nat) (bs : List Byte) (hm : Sub 206166818818 s0.m := by first | assumption | exact Sub.tr rfl (by assumption)) : Keeps s0 (State.store s a bs) := by
  unfold State.store
  try dsimp only
  repeat' first | with_reducible assumption | with_reducible intro _ | ((with_reducible refine Sub.tr ?_ hm); exact rfl) | with_reducible apply Keeps.ite | with_reducible apply State.each_keeps | with_reducible apply State.wrBytes_keeps | with_reducible apply State.putPoison_keeps | with_reducible apply State.putLatent_keeps | with_reducible apply State.poisonShow_keeps | split

theorem State.engStore_keeps {s0 : Orig} {s : State} (h : Keeps s0 s) (a : Nat) (bs : List Byte) (hm : Sub 206166818818 s0.m) : Keeps s0 (State.engStore s a bs) := by
  unfold State.engStore
  try dsimp only
  repeat' first | with_reducible assumption | with_reducible intro _ | ((with_reducible refine Sub.tr ?_ hm); exact rfl) | with_reducible apply Keeps.ite | with_reducible apply State.each_keeps | with_reducible apply State.store_keeps | split

theorem State.engLE_keeps {s0 : Orig} {s : State} (h : Keeps s0 s) (a n v : Nat) (hm : Sub 206166818818 s0.m) : Keeps s0 (State.engLE s a n v) := by
  unfold State.engLE
  try dsimp only
  repeat' first | with_reducible assumption | with_reducible intro _ | ((with_reducible refine Sub.tr ?_ hm); exact rfl) | with_reducible apply Keeps.ite | with_reducible apply State.engStore_keeps | split

theorem State.storeLE_keeps {s0 : Orig} {s : State} (h : Keeps s0 s) (a n v : Nat) (hm : Sub 206166818818 s0.m) : Keeps s0 (State.storeLE s a n v) := by
  unfold State.storeLE
  try dsimp only
  repeat' first | with_reducible assumption | with_reducible intro _ | ((with_reducible refine Sub.tr ?_ hm); exact rfl) | with_reducible apply Keeps.ite | with_reducible apply State.store_keeps | split

theorem State.progStore_keeps {s0 : Orig} {s : State} (h : Keeps s0 s) (host : Bool) (a : Nat) (bs : List Byte) (hm : Sub 206166819074 s0.m := by first | assumption | exact Sub.tr rfl (by assumption)) : Keeps s0 (State.progStore s host a bs) := by
  unfold State.progStore
  try dsimp only
  repeat' first | with_reducible assumption | with_reducible intro _ | ((with_reducible refine Sub.tr ?_ hm); exact rfl) | with_reducible apply Keeps.ite | with_reducible apply State.store_keeps | with_reducible apply State.setBit_keeps | split

theorem execScrubRead_keeps {s0 : Orig} {s : State} (h : Keeps s0 s) (line : Nat) (errs : Nat) (hm : Sub 1031329284106 s0.m) : KeepsR s0 (execScrubRead line errs s) := by
  unfold execScrubRead
  try dsimp only
  repeat' first | with_reducible assumption | with_reducible intro _ | ((with_reducible refine Sub.tr ?_ hm); exact rfl) | with_reducible apply Keeps.ite | with_reducible apply KeepsR.ok | with_reducible apply KeepsR.ite | with_reducible apply ok_keeps | with_reducible apply State.putLatent_keeps | with_reducible apply State.eccCheck_keeps | split | with_reducible refine Keeps.eqNext (by assumption) ?_

end Sys2Proof.Machine
end

