-- ==== Sys2Proof/Laws/KeepsCanSlots.lean ====
section
/-! SUPPORT. The operations of Machine/CanSlots.lean keep the queue of commands and the canonical form, and change no part outside
their footprint. -/

set_option linter.unusedSimpArgs false
set_option linter.unusedVariables false
set_option Elab.async false

namespace Sys2Proof.Machine

theorem State.cchMod_keeps {s0 : Orig} {s : State} (h : Keeps s0 s) (n : Nat) (f : CanCh → CanCh) (hm : Sub 281474976710656 s0.m) : Keeps s0 (State.cchMod s n f) := by
  unfold State.cchMod
  try dsimp only
  repeat' first | with_reducible assumption | with_reducible intro _ | ((with_reducible refine Sub.tr ?_ hm); exact rfl) | with_reducible apply Keeps.ite | with_reducible apply State.putCan_keeps | split

theorem State.canSetState_keeps {s0 : Orig} {s : State} (h : Keeps s0 s) (n st : Nat) (hm : Sub 550292979720 s0.m) : Keeps s0 (State.canSetState s n st) := by
  unfold State.canSetState
  try dsimp only
  repeat' first | with_reducible assumption | with_reducible intro _ | ((with_reducible refine Sub.tr ?_ hm); exact rfl) | with_reducible apply Keeps.ite | with_reducible apply State.setF_keeps | with_reducible apply State.setBit_keeps | with_reducible apply State.canEvent_keeps | split

theorem State.mbPut_keeps {s0 : Orig} {s : State} (h : Keeps s0 s) (base b : Nat) (v : Bool) (hm : Sub 32768 s0.m) : Keeps s0 (State.mbPut s base b v) := by
  unfold State.mbPut
  try dsimp only
  repeat' first | with_reducible assumption | with_reducible intro _ | ((with_reducible refine Sub.tr ?_ hm); exact rfl) | with_reducible apply Keeps.ite | with_reducible apply State.setBit_keeps | split

theorem State.mbStore_keeps {s0 : Orig} {s : State} (h : Keeps s0 s) (n b : Nat) (f : CanFrame) (hm : Sub 32768 s0.m) : Keeps s0 (State.mbStore s n b f) := by
  unfold State.mbStore
  try dsimp only
  repeat' first | with_reducible assumption | with_reducible intro _ | ((with_reducible refine Sub.tr ?_ hm); exact rfl) | with_reducible apply Keeps.ite | with_reducible apply State.each_keeps | with_reducible apply State.wr_keeps | split

theorem State.mbTime_keeps {s0 : Orig} {s : State} (h : Keeps s0 s) (n b t : Nat) (hm : Sub 32768 s0.m) : Keeps s0 (State.mbTime s n b t) := by
  unfold State.mbTime
  try dsimp only
  repeat' first | with_reducible assumption | with_reducible intro _ | ((with_reducible refine Sub.tr ?_ hm); exact rfl) | with_reducible apply Keeps.ite | with_reducible apply State.wrN_keeps | split

theorem State.mbOver_keeps {s0 : Orig} {s : State} (h : Keeps s0 s) (n b : Nat) (hm : Sub 32768 s0.m) : Keeps s0 (State.mbOver s n b) := by
  unfold State.mbOver
  try dsimp only
  repeat' first | with_reducible assumption | with_reducible intro _ | ((with_reducible refine Sub.tr ?_ hm); exact rfl) | with_reducible apply Keeps.ite | with_reducible apply State.incF_keeps | split

theorem State.mbLost_keeps {s0 : Orig} {s : State} (h : Keeps s0 s) (n b : Nat) (hm : Sub 550292979720 s0.m) : Keeps s0 (State.mbLost s n b) := by
  unfold State.mbLost
  try dsimp only
  repeat' first | with_reducible assumption | with_reducible intro _ | ((with_reducible refine Sub.tr ?_ hm); exact rfl) | with_reducible apply Keeps.ite | with_reducible apply State.mbOver_keeps | with_reducible apply State.incF_keeps | with_reducible apply State.canEvent_keeps | split

theorem State.fifoShow_keeps {s0 : Orig} {s : State} (h : Keeps s0 s) (n f : Nat) (hm : Sub 32768 s0.m) : Keeps s0 (State.fifoShow s n f) := by
  unfold State.fifoShow
  try dsimp only
  repeat' first | with_reducible assumption | with_reducible intro _ | ((with_reducible refine Sub.tr ?_ hm); exact rfl) | with_reducible apply Keeps.ite | with_reducible apply State.each_keeps | with_reducible apply State.setF_keeps | with_reducible apply State.wr_keeps | split

theorem State.fifoDiscard_keeps {s0 : Orig} {s : State} (h : Keeps s0 s) (n : Nat) (hm : Sub 9223653511831519232 s0.m) : Keeps s0 (State.fifoDiscard s n) := by
  unfold State.fifoDiscard
  try dsimp only
  repeat' first | with_reducible assumption | with_reducible intro _ | ((with_reducible refine Sub.tr ?_ hm); exact rfl) | with_reducible apply Keeps.ite | with_reducible apply State.cchMod_keeps | with_reducible apply State.fifoShow_keeps | with_reducible apply State.partClear_keeps | split

theorem State.slotInvalid_keeps {s0 : Orig} {s : State} (h : Keeps s0 s) (r : Nat) (hm : Sub 550292979720 s0.m) : Keeps s0 (State.slotInvalid s r) := by
  unfold State.slotInvalid
  try dsimp only
  repeat' first | with_reducible assumption | with_reducible intro _ | ((with_reducible refine Sub.tr ?_ hm); exact rfl) | with_reducible apply Keeps.ite | with_reducible apply State.setBit_keeps | with_reducible apply State.canEvent_keeps | split

theorem State.slotExtract_keeps {s0 : Orig} {s : State} (h : Keeps s0 s) (r : Nat) (data : List Byte) (hm : Sub 134250496 s0.m) : Keeps s0 (State.slotExtract s r data) := by
  unfold State.slotExtract
  try dsimp only
  repeat' first | with_reducible assumption | with_reducible intro _ | ((with_reducible refine Sub.tr ?_ hm); exact rfl) | with_reducible apply Keeps.ite | with_reducible apply State.wr_keeps | with_reducible apply State.wrN_keeps | with_reducible apply State.drawn_keeps | with_reducible apply State.setBit_keeps | with_reducible apply State.incF_keeps | split

theorem State.slotsTake_keeps {s0 : Orig} {s : State} (h : Keeps s0 s) (n b : Nat) (f : CanFrame) (hm : Sub 134250496 s0.m) : Keeps s0 (State.slotsTake s n b f) := by
  unfold State.slotsTake
  try dsimp only
  repeat' first | with_reducible assumption | with_reducible intro _ | ((with_reducible refine Sub.tr ?_ hm); exact rfl) | with_reducible apply Keeps.ite | with_reducible apply State.each_keeps | with_reducible apply State.slotExtract_keeps | split

theorem State.canKick_keeps {s0 : Orig} {s : State} (h : Keeps s0 s) (n : Nat) (hm : Sub 281474976710656 s0.m) : Keeps s0 (State.canKick s n) := by
  unfold State.canKick
  try dsimp only
  repeat' first | with_reducible assumption | with_reducible intro _ | ((with_reducible refine Sub.tr ?_ hm); exact rfl) | with_reducible apply Keeps.ite | with_reducible apply State.cchMod_keeps | split

theorem State.canRequest_keeps {s0 : Orig} {s : State} (h : Keeps s0 s) (n i : Nat) (v : Word) (hm : Sub 281474976743424 s0.m) : Keeps s0 (State.canRequest s n i v) := by
  unfold State.canRequest
  try dsimp only
  repeat' first | with_reducible assumption | with_reducible intro _ | ((with_reducible refine Sub.tr ?_ hm); exact rfl) | with_reducible apply Keeps.ite | with_reducible apply State.wr_keeps | with_reducible apply State.canKick_keeps | split

theorem State.fieldPut_keeps {s0 : Orig} {s : State} (h : Keeps s0 s) (n b : Nat) (bits : Word) (raw : Int) (hm : Sub 32768 s0.m) : Keeps s0 (State.fieldPut s n b bits raw) := by
  unfold State.fieldPut
  try dsimp only
  repeat' first | with_reducible assumption | with_reducible intro _ | ((with_reducible refine Sub.tr ?_ hm); exact rfl) | with_reducible apply Keeps.ite | with_reducible apply State.each_keeps | with_reducible apply State.setBit_keeps | split

theorem State.canTx_keeps {s0 : Orig} {s : State} (h : Keeps s0 s) (n t : Nat) (v : Int) (hm : Sub 281475110961152 s0.m) : KeepsP s0 (State.canTx s n t v) := by
  unfold State.canTx
  try dsimp only
  repeat' first | with_reducible assumption | with_reducible intro _ | ((with_reducible refine Sub.tr ?_ hm); exact rfl) | with_reducible apply Keeps.ite | with_reducible apply KeepsP.ite | with_reducible apply State.drawn_keeps | with_reducible apply State.fieldPut_keeps | with_reducible apply State.wr_keeps | with_reducible apply State.canRequest_keeps | simp -zeta only [KeepsP.pair, KeepsQ.pair] | with_reducible apply KeepsP.fst | split | with_reducible refine Keeps.eqFst (by assumption) ?_

end Sys2Proof.Machine
end

