-- ==== Sys2Proof/Laws/KeepsInputs.lean ====
section
/-! SUPPORT. The operations of Machine/Inputs.lean keep the queue of commands and the canonical form, and change no part outside
their footprint. -/

set_option linter.unusedSimpArgs false
set_option linter.unusedVariables false
set_option Elab.async false

namespace Sys2Proof.Machine

theorem State.ainShow_keeps {s0 : Orig} {s : State} (h : Keeps s0 s) (n : Nat) (hm : Sub 4096 s0.m) : Keeps s0 (State.ainShow s n) := by
  unfold State.ainShow
  try dsimp only
  repeat' first | with_reducible assumption | with_reducible intro _ | ((with_reducible refine Sub.tr ?_ hm); exact rfl) | with_reducible apply Keeps.ite | with_reducible apply State.setBit_keeps | split

theorem State.ainShown_keeps {s0 : Orig} {s : State} (h : Keeps s0 s) (n : Nat) (value : Int) (hm : Sub 4096 s0.m) : Keeps s0 (State.ainShown s n value) := by
  unfold State.ainShown
  try dsimp only
  repeat' first | with_reducible assumption | with_reducible intro _ | ((with_reducible refine Sub.tr ?_ hm); exact rfl) | with_reducible apply Keeps.ite | with_reducible apply State.wr_keeps | with_reducible apply State.setF_keeps | split

theorem State.ainValue_keeps {s0 : Orig} {s : State} (h : Keeps s0 s) (n : Nat) (samples : List Int) (hm : Sub 35184372092928 s0.m) : Keeps s0 (State.ainValue s n samples) := by
  unfold State.ainValue
  try dsimp only
  repeat' first | with_reducible assumption | with_reducible intro _ | ((with_reducible refine Sub.tr ?_ hm); exact rfl) | with_reducible apply Keeps.ite | with_reducible apply State.each_keeps | with_reducible apply State.putAio_keeps | with_reducible apply State.ainShown_keeps | split

theorem execAinFault_keeps {s0 : Orig} {s : State} (h : Keeps s0 s) (n : Fin 48) (k : AinFlag) (samples : List Int) (hm : Sub 35734665039880 s0.m) : KeepsR s0 (execAinFault n k samples s) := by
  unfold execAinFault
  try dsimp only
  repeat' first | with_reducible assumption | with_reducible intro _ | ((with_reducible refine Sub.tr ?_ hm); exact rfl) | with_reducible apply Keeps.ite | with_reducible apply KeepsR.ok | with_reducible apply KeepsR.ite | with_reducible apply State.ainValue_keeps | with_reducible apply State.setBit_keeps | with_reducible apply State.incF_keeps | with_reducible apply ok_keeps | with_reducible apply State.ainShow_keeps | with_reducible apply State.event_keeps | split | with_reducible refine Keeps.eqNext (by assumption) ?_

theorem execAinFaultClear_keeps {s0 : Orig} {s : State} (h : Keeps s0 s) (n : Fin 48) (k : AinFlag) (samples : List Int) (hm : Sub 35184372092928 s0.m) : KeepsR s0 (execAinFaultClear n k samples s) := by
  unfold execAinFaultClear
  try dsimp only
  repeat' first | with_reducible assumption | with_reducible intro _ | ((with_reducible refine Sub.tr ?_ hm); exact rfl) | with_reducible apply Keeps.ite | with_reducible apply KeepsR.ok | with_reducible apply KeepsR.ite | with_reducible apply State.ainValue_keeps | with_reducible apply ok_keeps | with_reducible apply State.setBit_keeps | with_reducible apply State.ainShow_keeps | split | with_reducible refine Keeps.eqNext (by assumption) ?_

theorem execBurdenRetry_keeps {s0 : Orig} {s : State} (h : Keeps s0 s) (n : Fin 48) (still : Bool) (hm : Sub 4096 s0.m) : KeepsR s0 (execBurdenRetry n still s) := by
  unfold execBurdenRetry
  try dsimp only
  repeat' first | with_reducible assumption | with_reducible intro _ | ((with_reducible refine Sub.tr ?_ hm); exact rfl) | with_reducible apply Keeps.ite | with_reducible apply KeepsR.ok | with_reducible apply KeepsR.ite | with_reducible apply ok_keeps | with_reducible apply State.setBit_keeps | with_reducible apply State.ainShow_keeps | split | with_reducible refine Keeps.eqNext (by assumption) ?_

theorem State.finShow_keeps {s0 : Orig} {s : State} (h : Keeps s0 s) (n : Nat) (hm : Sub 4096 s0.m) : Keeps s0 (State.finShow s n) := by
  unfold State.finShow
  try dsimp only
  repeat' first | with_reducible assumption | with_reducible intro _ | ((with_reducible refine Sub.tr ?_ hm); exact rfl) | with_reducible apply Keeps.ite | with_reducible apply State.setBit_keeps | split

theorem State.finCfg_keeps {s0 : Orig} {s : State} (h : Keeps s0 s) (n : Nat) (was : Bool) (hm : Sub 35184372092928 s0.m) : Keeps s0 (State.finCfg s n was) := by
  unfold State.finCfg
  try dsimp only
  repeat' first | with_reducible assumption | with_reducible intro _ | ((with_reducible refine Sub.tr ?_ hm); exact rfl) | with_reducible apply Keeps.ite | with_reducible apply State.putAio_keeps | with_reducible apply State.finShow_keeps | split

theorem execFinEdge_keeps {s0 : Orig} {s : State} (h : Keeps s0 s) (n : Fin 24) (dt low high : Nat) (hm : Sub 72097176557195264 s0.m) : KeepsR s0 (execFinEdge n dt low high s) := by
  unfold execFinEdge
  try dsimp only
  repeat' first | with_reducible assumption | with_reducible intro _ | ((with_reducible refine Sub.tr ?_ hm); exact rfl) | with_reducible apply Keeps.ite | with_reducible apply KeepsR.ok | with_reducible apply KeepsR.ite | with_reducible apply State.pass_keeps | with_reducible apply ok_keeps | with_reducible apply State.setBit_keeps | with_reducible apply State.putAio_keeps | with_reducible apply State.incF_keeps | with_reducible apply State.wrN_keeps | with_reducible apply State.vlvFinEdge_keeps | split | with_reducible refine Keeps.eqNext (by assumption) ?_

theorem execFinRefresh_keeps {s0 : Orig} {s : State} (h : Keeps s0 s) (n : Fin 24) (dt : Nat) (level : Bool) (hm : Sub 72093328803631112 s0.m) : KeepsR s0 (execFinRefresh n dt level s) := by
  unfold execFinRefresh
  try dsimp only
  repeat' first | with_reducible assumption | with_reducible intro _ | ((with_reducible refine Sub.tr ?_ hm); exact rfl) | with_reducible apply Keeps.ite | with_reducible apply KeepsR.ok | with_reducible apply KeepsR.ite | with_reducible apply State.pass_keeps | with_reducible apply ok_keeps | with_reducible apply State.putAio_keeps | with_reducible apply State.setBit_keeps | with_reducible apply State.wrN_keeps | with_reducible apply State.finShow_keeps | with_reducible apply State.event_keeps | split | with_reducible refine Keeps.eqNext (by assumption) ?_

theorem execFinFault_keeps {s0 : Orig} {s : State} (h : Keeps s0 s) (n : Fin 24) (hm : Sub 550292951048 s0.m) : KeepsR s0 (execFinFault n s) := by
  unfold execFinFault
  try dsimp only
  repeat' first | with_reducible assumption | with_reducible intro _ | ((with_reducible refine Sub.tr ?_ hm); exact rfl) | with_reducible apply Keeps.ite | with_reducible apply KeepsR.ok | with_reducible apply KeepsR.ite | with_reducible apply ok_keeps | with_reducible apply State.setBit_keeps | with_reducible apply State.finShow_keeps | with_reducible apply State.event_keeps | split | with_reducible refine Keeps.eqNext (by assumption) ?_

theorem State.lossShow_keeps {s0 : Orig} {s : State} (h : Keeps s0 s) (n : Nat) (hm : Sub 4096 s0.m) : Keeps s0 (State.lossShow s n) := by
  unfold State.lossShow
  try dsimp only
  repeat' first | with_reducible assumption | with_reducible intro _ | ((with_reducible refine Sub.tr ?_ hm); exact rfl) | with_reducible apply Keeps.ite | with_reducible apply State.setBit_keeps | split

theorem State.lossHist_keeps {s0 : Orig} {s : State} (h : Keeps s0 s) (n peak : Nat) (hm : Sub 4096 s0.m) : Keeps s0 (State.lossHist s n peak) := by
  unfold State.lossHist
  try dsimp only
  repeat' first | with_reducible assumption | with_reducible intro _ | ((with_reducible refine Sub.tr ?_ hm); exact rfl) | with_reducible apply Keeps.ite | with_reducible apply State.incF_keeps | split

theorem execLossImpact_keeps {s0 : Orig} {s : State} (h : Keeps s0 s) (n : Fin 8) (dt width peak : Nat) (hm : Sub 72092778510684160 s0.m) : KeepsR s0 (execLossImpact n dt width peak s) := by
  unfold execLossImpact
  try dsimp only
  repeat' first | with_reducible assumption | with_reducible intro _ | ((with_reducible refine Sub.tr ?_ hm); exact rfl) | with_reducible apply Keeps.ite | with_reducible apply KeepsR.ok | with_reducible apply KeepsR.ite | with_reducible apply State.pass_keeps | with_reducible apply ok_keeps | with_reducible apply State.lossHist_keeps | with_reducible apply State.incF_keeps | with_reducible apply State.wrN_keeps | with_reducible apply State.putAio_keeps | split | with_reducible refine Keeps.eqNext (by assumption) ?_

theorem execLossRateRefresh_keeps {s0 : Orig} {s : State} (h : Keeps s0 s) (n : Fin 8) (dt : Nat) (hm : Sub 72092778510684160 s0.m) : KeepsR s0 (execLossRateRefresh n dt s) := by
  unfold execLossRateRefresh
  try dsimp only
  repeat' first | with_reducible assumption | with_reducible intro _ | ((with_reducible refine Sub.tr ?_ hm); exact rfl) | with_reducible apply Keeps.ite | with_reducible apply KeepsR.ok | with_reducible apply KeepsR.ite | with_reducible apply State.pass_keeps | with_reducible apply State.putAio_keeps | with_reducible apply ok_keeps | with_reducible apply State.wrN_keeps | split | with_reducible refine Keeps.eqNext (by assumption) ?_

theorem State.lossTest_keeps {s0 : Orig} {s : State} (h : Keeps s0 s) (n response : Nat) (hm : Sub 550292951048 s0.m) : Keeps s0 (State.lossTest s n response) := by
  unfold State.lossTest
  try dsimp only
  repeat' first | with_reducible assumption | with_reducible intro _ | ((with_reducible refine Sub.tr ?_ hm); exact rfl) | with_reducible apply Keeps.ite | with_reducible apply State.setBit_keeps | with_reducible apply State.lossShow_keeps | with_reducible apply State.event_keeps | split

theorem State.lossTested_keeps {s0 : Orig} {s : State} (h : Keeps s0 s) (n : Nat) (hm : Sub 35734933475336 s0.m) : Keeps s0 (State.lossTested s n) := by
  unfold State.lossTested
  try dsimp only
  repeat' first | with_reducible assumption | with_reducible intro _ | ((with_reducible refine Sub.tr ?_ hm); exact rfl) | with_reducible apply Keeps.ite | with_reducible apply State.putAio_keeps | with_reducible apply State.setBit_keeps | with_reducible apply State.cmdEndIf_keeps | with_reducible apply ok_keeps | split

theorem execLossTestPulse_keeps {s0 : Orig} {s : State} (h : Keeps s0 s) (n : Fin 8) (response : Nat) (hm : Sub 35734933475336 s0.m) : KeepsR s0 (execLossTestPulse n response s) := by
  unfold execLossTestPulse
  try dsimp only
  repeat' first | with_reducible assumption | with_reducible intro _ | ((with_reducible refine Sub.tr ?_ hm); exact rfl) | with_reducible apply Keeps.ite | with_reducible apply KeepsR.ok | with_reducible apply KeepsR.ite | with_reducible apply ok_keeps | with_reducible apply State.lossTest_keeps | with_reducible apply State.lossTested_keeps | split | with_reducible refine Keeps.eqNext (by assumption) ?_

theorem execLossTest_keeps {s0 : Orig} {s : State} (h : Keeps s0 s)  (hm : Sub 35734933475336 s0.m) : KeepsR s0 (execLossTest s) := by
  unfold execLossTest
  try dsimp only
  repeat' first | with_reducible assumption | with_reducible intro _ | ((with_reducible refine Sub.tr ?_ hm); exact rfl) | with_reducible apply Keeps.ite | with_reducible apply KeepsR.ok | with_reducible apply KeepsR.ite | with_reducible apply KeepsP.ite | with_reducible apply ok_keeps | with_reducible apply State.command_keeps | with_reducible apply done_keeps | with_reducible apply State.putAio_keeps | with_reducible apply State.setBit_keeps | simp -zeta only [KeepsP.pair, KeepsQ.pair] | with_reducible apply KeepsP.fst | split | with_reducible refine Keeps.eqFst (by assumption) ?_ | with_reducible refine Keeps.eqNext (by assumption) ?_

theorem execAioClearCounts_keeps {s0 : Orig} {s : State} (h : Keeps s0 s)  (hm : Sub 550561386504 s0.m) : KeepsR s0 (execAioClearCounts s) := by
  unfold execAioClearCounts
  try dsimp only
  repeat' first | with_reducible assumption | with_reducible intro _ | ((with_reducible refine Sub.tr ?_ hm); exact rfl) | with_reducible apply Keeps.ite | with_reducible apply KeepsR.ok | with_reducible apply KeepsR.ite | with_reducible apply KeepsP.ite | with_reducible apply State.each_keeps | with_reducible apply State.when_keeps | with_reducible apply ok_keeps | with_reducible apply State.command_keeps | with_reducible apply State.setF_keeps | with_reducible apply State.wr_keeps | with_reducible apply done_keeps | simp -zeta only [KeepsP.pair, KeepsQ.pair] | with_reducible apply KeepsP.fst | split | with_reducible refine Keeps.eqFst (by assumption) ?_ | with_reducible refine Keeps.eqNext (by assumption) ?_

theorem State.supShow_keeps {s0 : Orig} {s : State} (h : Keeps s0 s) (k : Nat) (hm : Sub 4096 s0.m) : Keeps s0 (State.supShow s k) := by
  unfold State.supShow
  try dsimp only
  repeat' first | with_reducible assumption | with_reducible intro _ | ((with_reducible refine Sub.tr ?_ hm); exact rfl) | with_reducible apply Keeps.ite | with_reducible apply State.setBit_keeps | split

theorem State.supSet_keeps {s0 : Orig} {s : State} (h : Keeps s0 s) (k state : Nat) (hm : Sub 550292951048 s0.m) : Keeps s0 (State.supSet s k state) := by
  unfold State.supSet
  try dsimp only
  repeat' first | with_reducible assumption | with_reducible intro _ | ((with_reducible refine Sub.tr ?_ hm); exact rfl) | with_reducible apply Keeps.ite | with_reducible apply State.setF_keeps | with_reducible apply State.supShow_keeps | with_reducible apply State.event_keeps | split

theorem State.supMeas_keeps {s0 : Orig} {s : State} (h : Keeps s0 s) (k mv ma : Nat) (hm : Sub 4096 s0.m) : Keeps s0 (State.supMeas s k mv ma) := by
  unfold State.supMeas
  try dsimp only
  repeat' first | with_reducible assumption | with_reducible intro _ | ((with_reducible refine Sub.tr ?_ hm); exact rfl) | with_reducible apply Keeps.ite | with_reducible apply State.setF_keeps | split

theorem execAioSupply_keeps {s0 : Orig} {s : State} (h : Keeps s0 s) (k : Fin 6) (c : SupplyState) (mv ma : Nat) (hm : Sub 550292951048 s0.m) : KeepsR s0 (execAioSupply k c mv ma s) := by
  unfold execAioSupply
  try dsimp only
  repeat' first | with_reducible assumption | with_reducible intro _ | ((with_reducible refine Sub.tr ?_ hm); exact rfl) | with_reducible apply Keeps.ite | with_reducible apply KeepsR.ok | with_reducible apply KeepsR.ite | with_reducible apply ok_keeps | with_reducible apply State.supMeas_keeps | with_reducible apply State.supSet_keeps | split | with_reducible refine Keeps.eqNext (by assumption) ?_

theorem execSupplyRetry_keeps {s0 : Orig} {s : State} (h : Keeps s0 s) (k : Fin 6) (good : Bool) (mv ma : Nat) (hm : Sub 550292951048 s0.m) : KeepsR s0 (execSupplyRetry k good mv ma s) := by
  unfold execSupplyRetry
  try dsimp only
  repeat' first | with_reducible assumption | with_reducible intro _ | ((with_reducible refine Sub.tr ?_ hm); exact rfl) | with_reducible apply Keeps.ite | with_reducible apply KeepsR.ok | with_reducible apply KeepsR.ite | with_reducible apply ok_keeps | with_reducible apply State.supMeas_keeps | with_reducible apply State.supSet_keeps | split | with_reducible refine Keeps.eqNext (by assumption) ?_

theorem State.supSwitch_keeps {s0 : Orig} {s : State} (h : Keeps s0 s) (k : Nat) (hm : Sub 550292951048 s0.m) : Keeps s0 (State.supSwitch s k) := by
  unfold State.supSwitch
  try dsimp only
  repeat' first | with_reducible assumption | with_reducible intro _ | ((with_reducible refine Sub.tr ?_ hm); exact rfl) | with_reducible apply Keeps.ite | with_reducible apply State.supSet_keeps | split

theorem State.supOff_keeps {s0 : Orig} {s : State} (h : Keeps s0 s)  (hm : Sub 4096 s0.m) : Keeps s0 (State.supOff s) := by
  unfold State.supOff
  try dsimp only
  repeat' first | with_reducible assumption | with_reducible intro _ | ((with_reducible refine Sub.tr ?_ hm); exact rfl) | with_reducible apply Keeps.ite | with_reducible apply State.each_keeps | with_reducible apply State.wr_keeps | with_reducible apply State.supShow_keeps | split

end Sys2Proof.Machine
end

