-- ==== Sys2Proof/Laws/KeepsStores.lean ====
section
/-! SUPPORT. The operations of Machine/Stores.lean keep the queue of commands and the canonical form, and change no part outside
their footprint. -/

set_option linter.unusedSimpArgs false
set_option linter.unusedVariables false
set_option Elab.async false

namespace Sys2Proof.Machine

theorem State.emmcPut_keeps {s0 : Orig} {s : State} (h : Keeps s0 s) (o : Nat) (bs : List Byte) (hm : Sub 17592186044416 s0.m := by first | assumption | exact Sub.tr rfl (by assumption)) : Keeps s0 (State.emmcPut s o bs) :=
  State.putEmmc_keeps h _ (fun c => SMap.wf_blit _ _ o bs c.2.1) hm

theorem State.slotPut_keeps {s0 : Orig} {s : State} (h : Keeps s0 s) (r : Nat) (b : Bool) (o : Nat) (bs : List Byte) (hm : Sub 17592194433024 s0.m) : Keeps s0 (State.slotPut s r b o bs) := by
  unfold State.slotPut
  try dsimp only
  repeat' first | with_reducible assumption | with_reducible intro _ | ((with_reducible refine Sub.tr ?_ hm); exact rfl) | with_reducible apply Keeps.ite | with_reducible apply State.wrBytes_keeps | with_reducible apply State.emmcPut_keeps | split

end Sys2Proof.Machine
end

