-- ==== Sys2Proof/Laws/KeepsTime.lean ====
section
/-! SUPPORT. The operations of Machine/Time.lean keep the queue of commands and the canonical form, and change no part outside
their footprint. -/

set_option linter.unusedSimpArgs false
set_option linter.unusedVariables false
set_option Elab.async false

namespace Sys2Proof.Machine

theorem State.timMod_keeps {s0 : Orig} {s : State} (h : Keeps s0 s) (f : Tim → Tim) (hm : Sub 72057594037927936 s0.m) : Keeps s0 (State.timMod s f) := by
  unfold State.timMod
  try dsimp only
  repeat' first | with_reducible assumption | with_reducible intro _ | ((with_reducible refine Sub.tr ?_ hm); exact rfl) | with_reducible apply Keeps.ite | with_reducible apply State.putTim_keeps | split

theorem State.timShow_keeps {s0 : Orig} {s : State} (h : Keeps s0 s)  (hm : Sub 128 s0.m) : Keeps s0 (State.timShow s) := by
  unfold State.timShow
  try dsimp only
  repeat' first | with_reducible assumption | with_reducible intro _ | ((with_reducible refine Sub.tr ?_ hm); exact rfl) | with_reducible apply Keeps.ite | with_reducible apply State.setBit_keeps | split

theorem State.timSet_keeps {s0 : Orig} {s : State} (h : Keeps s0 s) (st : Nat) (hm : Sub 550292947080 s0.m) : Keeps s0 (State.timSet s st) := by
  unfold State.timSet
  try dsimp only
  repeat' first | with_reducible assumption | with_reducible intro _ | ((with_reducible refine Sub.tr ?_ hm); exact rfl) | with_reducible apply Keeps.ite | with_reducible apply State.timShow_keeps | with_reducible apply State.setF_keeps | with_reducible apply State.event_keeps | split

theorem State.gmMoved_keeps {s0 : Orig} {s : State} (h : Keeps s0 s) (was : Bool) (hm : Sub 550292947080 s0.m) : Keeps s0 (State.gmMoved s was) := by
  unfold State.gmMoved
  try dsimp only
  repeat' first | with_reducible assumption | with_reducible intro _ | ((with_reducible refine Sub.tr ?_ hm); exact rfl) | with_reducible apply Keeps.ite | with_reducible apply State.event_keeps | split

theorem State.nowRead_keeps {s0 : Orig} {s : State} (h : Keeps s0 s)  (hm : Sub 72057594037928064 s0.m := by first | assumption | exact Sub.tr rfl (by assumption)) : KeepsQ s0 (State.nowRead s) := by
  unfold State.nowRead
  try dsimp only
  repeat' first | with_reducible assumption | with_reducible intro _ | ((with_reducible refine Sub.tr ?_ hm); exact rfl) | with_reducible apply Keeps.ite | with_reducible apply KeepsQ.ite | with_reducible apply State.timMod_keeps | with_reducible apply State.wrN_keeps | simp -zeta only [KeepsP.pair, KeepsQ.pair] | with_reducible apply KeepsQ.snd | split | with_reducible refine Keeps.eqSnd (by assumption) ?_

theorem execTimNowLoRead_keeps {s0 : Orig} {s : State} (h : Keeps s0 s)  (hm : Sub 72057594054705280 s0.m) : KeepsR s0 (execTimNowLoRead s) := by
  unfold execTimNowLoRead
  try dsimp only
  repeat' first | with_reducible assumption | with_reducible intro _ | ((with_reducible refine Sub.tr ?_ hm); exact rfl) | with_reducible apply Keeps.ite | with_reducible apply KeepsR.ok | with_reducible apply KeepsR.ite | with_reducible apply KeepsQ.ite | with_reducible apply ok_keeps | with_reducible apply State.nowRead_keeps | with_reducible apply State.putResp_keeps | simp -zeta only [KeepsP.pair, KeepsQ.pair] | with_reducible apply KeepsQ.snd | split | with_reducible refine Keeps.eqSnd (by assumption) ?_ | with_reducible refine Keeps.eqNext (by assumption) ?_

theorem State.timApply_keeps {s0 : Orig} {s : State} (h : Keeps s0 s) (d : Int) (hm : Sub 72058144330875016 s0.m) : Keeps s0 (State.timApply s d) := by
  unfold State.timApply
  try dsimp only
  repeat' first | with_reducible assumption | with_reducible intro _ | ((with_reducible refine Sub.tr ?_ hm); exact rfl) | with_reducible apply Keeps.ite | with_reducible apply State.timMod_keeps | with_reducible apply State.timSet_keeps | split

theorem State.timRate_keeps {s0 : Orig} {s : State} (h : Keeps s0 s) (d : Int) (epoch : Nat) (hm : Sub 128 s0.m) : Keeps s0 (State.timRate s d epoch) := by
  unfold State.timRate
  try dsimp only
  repeat' first | with_reducible assumption | with_reducible intro _ | ((with_reducible refine Sub.tr ?_ hm); exact rfl) | with_reducible apply Keeps.ite | with_reducible apply State.wr_keeps | split

theorem State.timFirst_keeps {s0 : Orig} {s : State} (h : Keeps s0 s) (d : Int) (hm : Sub 72058144397984392 s0.m) : Keeps s0 (State.timFirst s d) := by
  unfold State.timFirst
  try dsimp only
  repeat' first | with_reducible assumption | with_reducible intro _ | ((with_reducible refine Sub.tr ?_ hm); exact rfl) | with_reducible apply Keeps.ite | with_reducible apply State.timMod_keeps | with_reducible apply State.lpeSkip_keeps | with_reducible apply State.putNow_keeps | with_reducible apply State.timSet_keeps | with_reducible apply State.event_keeps | with_reducible apply State.timApply_keeps | split

theorem State.corrGo_keeps {s0 : Orig} {s : State} (h : Keeps s0 s) (v : Word) (hm : Sub 72058144397984392 s0.m) : Keeps s0 (State.corrGo s v) := by
  unfold State.corrGo
  try dsimp only
  repeat' first | with_reducible assumption | with_reducible intro _ | ((with_reducible refine Sub.tr ?_ hm); exact rfl) | with_reducible apply Keeps.ite | with_reducible apply State.timMod_keeps | with_reducible apply State.wrN_keeps | with_reducible apply State.timRate_keeps | with_reducible apply State.timFirst_keeps | with_reducible apply State.timApply_keeps | split

theorem execTimCorrGo_keeps {s0 : Orig} {s : State} (h : Keeps s0 s) (v : Word) (hm : Sub 72058144397984392 s0.m) : KeepsR s0 (execTimCorrGo v s) := by
  unfold execTimCorrGo
  try dsimp only
  repeat' first | with_reducible assumption | with_reducible intro _ | ((with_reducible refine Sub.tr ?_ hm); exact rfl) | with_reducible apply Keeps.ite | with_reducible apply KeepsR.ok | with_reducible apply KeepsR.ite | with_reducible apply ok_keeps | with_reducible apply State.corrGo_keeps | split | with_reducible refine Keeps.eqNext (by assumption) ?_

theorem execTimeSlewEnd_keeps {s0 : Orig} {s : State} (h : Keeps s0 s)  (hm : Sub 72057594138591360 s0.m) : KeepsR s0 (execTimeSlewEnd s) := by
  unfold execTimeSlewEnd
  try dsimp only
  repeat' first | with_reducible assumption | with_reducible intro _ | ((with_reducible refine Sub.tr ?_ hm); exact rfl) | with_reducible apply Keeps.ite | with_reducible apply KeepsR.ok | with_reducible apply KeepsR.ite | with_reducible apply ok_keeps | with_reducible apply State.passTo_keeps | with_reducible apply State.timMod_keeps | with_reducible apply State.timShow_keeps | split | with_reducible refine Keeps.eqNext (by assumption) ?_

theorem State.timTestGo_keeps {s0 : Orig} {s : State} (h : Keeps s0 s)  (hm : Sub 72057594037928064 s0.m) : Keeps s0 (State.timTestGo s) := by
  unfold State.timTestGo
  try dsimp only
  repeat' first | with_reducible assumption | with_reducible intro _ | ((with_reducible refine Sub.tr ?_ hm); exact rfl) | with_reducible apply Keeps.ite | with_reducible apply State.timMod_keeps | with_reducible apply State.setBit_keeps | split

theorem State.timLost_keeps {s0 : Orig} {s : State} (h : Keeps s0 s)  (hm : Sub 72058144330875016 s0.m) : Keeps s0 (State.timLost s) := by
  unfold State.timLost
  try dsimp only
  repeat' first | with_reducible assumption | with_reducible intro _ | ((with_reducible refine Sub.tr ?_ hm); exact rfl) | with_reducible apply Keeps.ite | with_reducible apply State.timMod_keeps | with_reducible apply State.timSet_keeps | with_reducible apply State.timTestGo_keeps | split

theorem execHoldAfterExpired_keeps {s0 : Orig} {s : State} (h : Keeps s0 s)  (hm : Sub 72058144431538312 s0.m) : KeepsR s0 (execHoldAfterExpired s) := by
  unfold execHoldAfterExpired
  try dsimp only
  repeat' first | with_reducible assumption | with_reducible intro _ | ((with_reducible refine Sub.tr ?_ hm); exact rfl) | with_reducible apply Keeps.ite | with_reducible apply KeepsR.ok | with_reducible apply KeepsR.ite | with_reducible apply State.pass_keeps | with_reducible apply ok_keeps | with_reducible apply State.timSet_keeps | with_reducible apply State.timMod_keeps | with_reducible apply State.timLost_keeps | split | with_reducible refine Keeps.eqNext (by assumption) ?_

theorem State.timStep_keeps {s0 : Orig} {s : State} (h : Keeps s0 s)  (hm : Sub 72058144330875016 s0.m) : Keeps s0 (State.timStep s) := by
  unfold State.timStep
  try dsimp only
  repeat' first | with_reducible assumption | with_reducible intro _ | ((with_reducible refine Sub.tr ?_ hm); exact rfl) | with_reducible apply Keeps.ite | with_reducible apply State.wr_keeps | with_reducible apply State.incF_keeps | with_reducible apply State.event_keeps | with_reducible apply State.timMod_keeps | with_reducible apply State.timSet_keeps | with_reducible apply State.timApply_keeps | with_reducible apply State.timTestGo_keeps | split

theorem State.timPeriod_keeps {s0 : Orig} {s : State} (h : Keeps s0 s)  (hm : Sub 72058144330875016 s0.m) : Keeps s0 (State.timPeriod s) := by
  unfold State.timPeriod
  try dsimp only
  repeat' first | with_reducible assumption | with_reducible intro _ | ((with_reducible refine Sub.tr ?_ hm); exact rfl) | with_reducible apply Keeps.ite | with_reducible apply State.timLost_keeps | with_reducible apply State.timStep_keeps | with_reducible apply State.timMod_keeps | split

theorem State.timNext_keeps {s0 : Orig} {s : State} (h : Keeps s0 s)  (hm : Sub 72057594037927936 s0.m) : Keeps s0 (State.timNext s) := by
  unfold State.timNext
  try dsimp only
  repeat' first | with_reducible assumption | with_reducible intro _ | ((with_reducible refine Sub.tr ?_ hm); exact rfl) | with_reducible apply Keeps.ite | with_reducible apply State.timMod_keeps | split

theorem State.toSecond_keeps {s0 : Orig} {s : State} (h : Keeps s0 s)  (hm : Sub 72057594138591232 s0.m) : Keeps s0 (State.toSecond s) := by
  unfold State.toSecond
  try dsimp only
  repeat' first | with_reducible assumption | with_reducible intro _ | ((with_reducible refine Sub.tr ?_ hm); exact rfl) | with_reducible apply Keeps.ite | with_reducible apply State.passTo_keeps | split

theorem execTimeStep_keeps {s0 : Orig} {s : State} (h : Keeps s0 s)  (hm : Sub 72058144431538312 s0.m) : KeepsR s0 (execTimeStep s) := by
  unfold execTimeStep
  try dsimp only
  repeat' first | with_reducible assumption | with_reducible intro _ | ((with_reducible refine Sub.tr ?_ hm); exact rfl) | with_reducible apply Keeps.ite | with_reducible apply KeepsR.ok | with_reducible apply KeepsR.ite | with_reducible apply ok_keeps | with_reducible apply State.toSecond_keeps | with_reducible apply State.timStep_keeps | split | with_reducible refine Keeps.eqNext (by assumption) ?_

theorem State.tmsgQueue_keeps {s0 : Orig} {s : State} (h : Keeps s0 s)  (hm : Sub 72339069014671360 s0.m) : Keeps s0 (State.tmsgQueue s) := by
  unfold State.tmsgQueue
  try dsimp only
  repeat' first | with_reducible assumption | with_reducible intro _ | ((with_reducible refine Sub.tr ?_ hm); exact rfl) | with_reducible apply Keeps.ite | with_reducible apply State.mbStore_keeps | with_reducible apply State.setF_keeps | with_reducible apply State.timMod_keeps | with_reducible apply State.canRequest_keeps | split

theorem State.tmsgLast_keeps {s0 : Orig} {s : State} (h : Keeps s0 s)  (hm : Sub 72339069014671488 s0.m) : Keeps s0 (State.tmsgLast s) := by
  unfold State.tmsgLast
  try dsimp only
  repeat' first | with_reducible assumption | with_reducible intro _ | ((with_reducible refine Sub.tr ?_ hm); exact rfl) | with_reducible apply Keeps.ite | with_reducible apply State.tmsgQueue_keeps | with_reducible apply State.timMod_keeps | with_reducible apply State.incF_keeps | split

theorem execTimeMessageDrop_keeps {s0 : Orig} {s : State} (h : Keeps s0 s)  (hm : Sub 72339069115334784 s0.m) : KeepsR s0 (execTimeMessageDrop s) := by
  unfold execTimeMessageDrop
  try dsimp only
  repeat' first | with_reducible assumption | with_reducible intro _ | ((with_reducible refine Sub.tr ?_ hm); exact rfl) | with_reducible apply Keeps.ite | with_reducible apply KeepsR.ok | with_reducible apply KeepsR.ite | with_reducible apply ok_keeps | with_reducible apply State.passTo_keeps | with_reducible apply State.tmsgLast_keeps | split | with_reducible refine Keeps.eqNext (by assumption) ?_

theorem State.pulse_keeps {s0 : Orig} {s : State} (h : Keeps s0 s)  (hm : Sub 72058144330875016 s0.m) : Keeps s0 (State.pulse s) := by
  unfold State.pulse
  try dsimp only
  repeat' first | with_reducible assumption | with_reducible intro _ | ((with_reducible refine Sub.tr ?_ hm); exact rfl) | with_reducible apply Keeps.ite | with_reducible apply State.timMod_keeps | with_reducible apply State.event_keeps | split

theorem execPps_keeps {s0 : Orig} {s : State} (h : Keeps s0 s)  (hm : Sub 72339619408281736 s0.m) : KeepsR s0 (execPps s) := by
  unfold execPps
  try dsimp only
  repeat' first | with_reducible assumption | with_reducible intro _ | ((with_reducible refine Sub.tr ?_ hm); exact rfl) | with_reducible apply Keeps.ite | with_reducible apply KeepsR.ok | with_reducible apply KeepsR.ite | with_reducible apply State.toSecond_keeps | with_reducible apply State.tmsgLast_keeps | with_reducible apply State.timPeriod_keeps | with_reducible apply State.timNext_keeps | with_reducible apply ok_keeps | with_reducible apply State.timMod_keeps | with_reducible apply State.pulse_keeps | split | with_reducible refine Keeps.eqNext (by assumption) ?_

theorem execTmark_keeps {s0 : Orig} {s : State} (h : Keeps s0 s) (t : Nat) (hm : Sub 72058144330875016 s0.m) : KeepsR s0 (execTmark t s) := by
  unfold execTmark
  try dsimp only
  repeat' first | with_reducible assumption | with_reducible intro _ | ((with_reducible refine Sub.tr ?_ hm); exact rfl) | with_reducible apply Keeps.ite | with_reducible apply KeepsR.ok | with_reducible apply KeepsR.ite | with_reducible apply ok_keeps | with_reducible apply State.timMod_keeps | with_reducible apply State.event_keeps | with_reducible apply State.incF_keeps | split | with_reducible refine Keeps.eqNext (by assumption) ?_

theorem State.markLo_keeps {s0 : Orig} {s : State} (h : Keeps s0 s)  (hm : Sub 72057594037927936 s0.m := by first | assumption | exact Sub.tr rfl (by assumption)) : KeepsQ s0 (State.markLo s) := by
  unfold State.markLo
  try dsimp only
  repeat' first | with_reducible assumption | with_reducible intro _ | ((with_reducible refine Sub.tr ?_ hm); exact rfl) | with_reducible apply Keeps.ite | with_reducible apply KeepsQ.ite | with_reducible apply State.timMod_keeps | simp -zeta only [KeepsP.pair, KeepsQ.pair] | with_reducible apply KeepsQ.snd | split | with_reducible refine Keeps.eqSnd (by assumption) ?_

theorem execTmarkLoRead_keeps {s0 : Orig} {s : State} (h : Keeps s0 s)  (hm : Sub 72057594054705152 s0.m) : KeepsR s0 (execTmarkLoRead s) := by
  unfold execTmarkLoRead
  try dsimp only
  repeat' first | with_reducible assumption | with_reducible intro _ | ((with_reducible refine Sub.tr ?_ hm); exact rfl) | with_reducible apply Keeps.ite | with_reducible apply KeepsR.ok | with_reducible apply KeepsR.ite | with_reducible apply KeepsQ.ite | with_reducible apply ok_keeps | with_reducible apply State.markLo_keeps | with_reducible apply State.putResp_keeps | simp -zeta only [KeepsP.pair, KeepsQ.pair] | with_reducible apply KeepsQ.snd | split | with_reducible refine Keeps.eqSnd (by assumption) ?_ | with_reducible refine Keeps.eqNext (by assumption) ?_

theorem State.markHi_keeps {s0 : Orig} {s : State} (h : Keeps s0 s)  (hm : Sub 9295429630892703744 s0.m := by first | assumption | exact Sub.tr rfl (by assumption)) : KeepsQ s0 (State.markHi s) := by
  unfold State.markHi
  try dsimp only
  repeat' first | with_reducible assumption | with_reducible intro _ | ((with_reducible refine Sub.tr ?_ hm); exact rfl) | with_reducible apply Keeps.ite | with_reducible apply KeepsQ.ite | with_reducible apply State.timMod_keeps | with_reducible apply State.partClear_keeps | simp -zeta only [KeepsP.pair, KeepsQ.pair] | with_reducible apply KeepsQ.snd | split | with_reducible refine Keeps.eqSnd (by assumption) ?_

theorem execTmarkHiRead_keeps {s0 : Orig} {s : State} (h : Keeps s0 s)  (hm : Sub 9295429630909480960 s0.m) : KeepsR s0 (execTmarkHiRead s) := by
  unfold execTmarkHiRead
  try dsimp only
  repeat' first | with_reducible assumption | with_reducible intro _ | ((with_reducible refine Sub.tr ?_ hm); exact rfl) | with_reducible apply Keeps.ite | with_reducible apply KeepsR.ok | with_reducible apply KeepsR.ite | with_reducible apply KeepsQ.ite | with_reducible apply ok_keeps | with_reducible apply State.markHi_keeps | with_reducible apply State.putResp_keeps | simp -zeta only [KeepsP.pair, KeepsQ.pair] | with_reducible apply KeepsQ.snd | split | with_reducible refine Keeps.eqSnd (by assumption) ?_ | with_reducible refine Keeps.eqNext (by assumption) ?_

theorem execClearTmark_keeps {s0 : Orig} {s : State} (h : Keeps s0 s)  (hm : Sub 9295430181454086280 s0.m) : KeepsR s0 (execClearTmark s) := by
  unfold execClearTmark
  try dsimp only
  repeat' first | with_reducible assumption | with_reducible intro _ | ((with_reducible refine Sub.tr ?_ hm); exact rfl) | with_reducible apply Keeps.ite | with_reducible apply KeepsR.ok | with_reducible apply KeepsR.ite | with_reducible apply KeepsP.ite | with_reducible apply ok_keeps | with_reducible apply State.command_keeps | with_reducible apply done_keeps | with_reducible apply State.timMod_keeps | with_reducible apply State.partClear_keeps | with_reducible apply State.setF_keeps | simp -zeta only [KeepsP.pair, KeepsQ.pair] | with_reducible apply KeepsP.fst | split | with_reducible refine Keeps.eqFst (by assumption) ?_ | with_reducible refine Keeps.eqNext (by assumption) ?_

theorem execHoldoverTest_keeps {s0 : Orig} {s : State} (h : Keeps s0 s)  (hm : Sub 72058144599310472 s0.m) : KeepsR s0 (execHoldoverTest s) := by
  unfold execHoldoverTest
  try dsimp only
  repeat' first | with_reducible assumption | with_reducible intro _ | ((with_reducible refine Sub.tr ?_ hm); exact rfl) | with_reducible apply Keeps.ite | with_reducible apply KeepsR.ok | with_reducible apply KeepsR.ite | with_reducible apply KeepsP.ite | with_reducible apply ok_keeps | with_reducible apply State.command_keeps | with_reducible apply refuse_keeps | with_reducible apply State.timMod_keeps | with_reducible apply State.setBit_keeps | simp -zeta only [KeepsP.pair, KeepsQ.pair] | with_reducible apply KeepsP.fst | split | with_reducible refine Keeps.eqFst (by assumption) ?_ | with_reducible refine Keeps.eqNext (by assumption) ?_

theorem State.holdTestEnd_keeps {s0 : Orig} {s : State} (h : Keeps s0 s) (r : Result) (hm : Sub 72058144599310472 s0.m) : Keeps s0 (State.holdTestEnd s r) := by
  unfold State.holdTestEnd
  try dsimp only
  repeat' first | with_reducible assumption | with_reducible intro _ | ((with_reducible refine Sub.tr ?_ hm); exact rfl) | with_reducible apply Keeps.ite | with_reducible apply State.timMod_keeps | with_reducible apply State.setBit_keeps | with_reducible apply State.cmdEndIf_keeps | split

theorem execHoldoverTestEnd_keeps {s0 : Orig} {s : State} (h : Keeps s0 s)  (hm : Sub 72058144599310472 s0.m) : KeepsR s0 (execHoldoverTestEnd s) := by
  unfold execHoldoverTestEnd
  try dsimp only
  repeat' first | with_reducible assumption | with_reducible intro _ | ((with_reducible refine Sub.tr ?_ hm); exact rfl) | with_reducible apply Keeps.ite | with_reducible apply KeepsR.ok | with_reducible apply KeepsR.ite | with_reducible apply ok_keeps | with_reducible apply State.holdTestEnd_keeps | split | with_reducible refine Keeps.eqNext (by assumption) ?_

theorem State.timMode_keeps {s0 : Orig} {s : State} (h : Keeps s0 s) (new : Nat) (hm : Sub 72058144599310472 s0.m) : Keeps s0 (State.timMode s new) := by
  unfold State.timMode
  try dsimp only
  repeat' first | with_reducible assumption | with_reducible intro _ | ((with_reducible refine Sub.tr ?_ hm); exact rfl) | with_reducible apply Keeps.ite | with_reducible apply State.holdTestEnd_keeps | split

theorem execTimClearStats_keeps {s0 : Orig} {s : State} (h : Keeps s0 s)  (hm : Sub 550561382536 s0.m) : KeepsR s0 (execTimClearStats s) := by
  unfold execTimClearStats
  try dsimp only
  repeat' first | with_reducible assumption | with_reducible intro _ | ((with_reducible refine Sub.tr ?_ hm); exact rfl) | with_reducible apply Keeps.ite | with_reducible apply KeepsR.ok | with_reducible apply KeepsR.ite | with_reducible apply KeepsP.ite | with_reducible apply ok_keeps | with_reducible apply State.command_keeps | with_reducible apply done_keeps | with_reducible apply State.wrN_keeps | simp -zeta only [KeepsP.pair, KeepsQ.pair] | with_reducible apply KeepsP.fst | split | with_reducible refine Keeps.eqFst (by assumption) ?_ | with_reducible refine Keeps.eqNext (by assumption) ?_

theorem execGmChg_keeps {s0 : Orig} {s : State} (h : Keeps s0 s) (other : Option (Nat × Int)) (hm : Sub 72058144330875016 s0.m) : KeepsR s0 (execGmChg other s) := by
  unfold execGmChg
  try dsimp only
  repeat' first | with_reducible assumption | with_reducible intro _ | ((with_reducible refine Sub.tr ?_ hm); exact rfl) | with_reducible apply Keeps.ite | with_reducible apply KeepsR.ok | with_reducible apply KeepsR.ite | with_reducible apply State.timMod_keeps | with_reducible apply ok_keeps | with_reducible apply State.event_keeps | split | with_reducible refine Keeps.eqNext (by assumption) ?_

theorem State.timPowerOn_keeps {s0 : Orig} {s : State} (h : Keeps s0 s)  (hm : Sub 72057594105036928 s0.m) : Keeps s0 (State.timPowerOn s) := by
  unfold State.timPowerOn
  try dsimp only
  repeat' first | with_reducible assumption | with_reducible intro _ | ((with_reducible refine Sub.tr ?_ hm); exact rfl) | with_reducible apply Keeps.ite | with_reducible apply State.resetWindow_keeps | with_reducible apply State.putNow_keeps | with_reducible apply State.putTim_keeps | split

theorem State.timSeed_keeps {s0 : Orig} {s : State} (h : Keeps s0 s) (off : Option Nat) (hm : Sub 72058144397983880 s0.m) : Keeps s0 (State.timSeed s off) := by
  unfold State.timSeed
  try dsimp only
  repeat' first | with_reducible assumption | with_reducible intro _ | ((with_reducible refine Sub.tr ?_ hm); exact rfl) | with_reducible apply Keeps.ite | with_reducible apply State.putNow_keeps | with_reducible apply State.timMod_keeps | with_reducible apply State.timSet_keeps | with_reducible apply State.event_keeps | split

end Sys2Proof.Machine
end

