-- ==== Sys2Proof/Laws/KeepsTabletop.lean ====
section
/-! SUPPORT. The operations of Machine/Tabletop.lean keep the queue of commands and the canonical form, and change no part outside
their footprint. -/

set_option linter.unusedSimpArgs false
set_option linter.unusedVariables false
set_option Elab.async false

namespace Sys2Proof.Machine

theorem State.tslotMod_keeps {s0 : Orig} {s : State} (h : Keeps s0 s) (n : Nat) (f : TblSlot → TblSlot) (hm : Sub 140737488355328 s0.m) : Keeps s0 (State.tslotMod s n f) := by
  unfold State.tslotMod
  try dsimp only
  repeat' first | with_reducible assumption | with_reducible intro _ | ((with_reducible refine Sub.tr ?_ hm); exact rfl) | with_reducible apply Keeps.ite | with_reducible apply State.putTbl_keeps | split

theorem State.alignLoad_keeps {s0 : Orig} {s : State} (h : Keeps s0 s) (p : List Byte) (hm : Sub 206166819074 s0.m) : Keeps s0 (State.alignLoad s p) := by
  unfold State.alignLoad
  try dsimp only
  repeat' first | with_reducible assumption | with_reducible intro _ | ((with_reducible refine Sub.tr ?_ hm); exact rfl) | with_reducible apply Keeps.ite | with_reducible apply State.each_keeps | with_reducible apply State.engStore_keeps | with_reducible apply State.wrN_keeps | split

theorem State.coverSlot_keeps {s0 : Orig} {s : State} (h : Keeps s0 s) (n : Nat) (hm : Sub 140737488355584 s0.m) : Keeps s0 (State.coverSlot s n) := by
  unfold State.coverSlot
  try dsimp only
  repeat' first | with_reducible assumption | with_reducible intro _ | ((with_reducible refine Sub.tr ?_ hm); exact rfl) | with_reducible apply Keeps.ite | with_reducible apply State.each_keeps | with_reducible apply State.putTbl_keeps | with_reducible apply State.setF_keeps | split

theorem State.trustSlot_keeps {s0 : Orig} {s : State} (h : Keeps s0 s) (n : Nat) (hm : Sub 140737488355584 s0.m) : Keeps s0 (State.trustSlot s n) := by
  unfold State.trustSlot
  try dsimp only
  repeat' first | with_reducible assumption | with_reducible intro _ | ((with_reducible refine Sub.tr ?_ hm); exact rfl) | with_reducible apply Keeps.ite | with_reducible apply State.putTbl_keeps | with_reducible apply State.setF_keeps | split

theorem State.alignSwap_keeps {s0 : Orig} {s : State} (h : Keeps s0 s) (mask : Nat) (hm : Sub 141287781302536 s0.m) : Keeps s0 (State.alignSwap s mask) := by
  unfold State.alignSwap
  try dsimp only
  repeat' first | with_reducible assumption | with_reducible intro _ | ((with_reducible refine Sub.tr ?_ hm); exact rfl) | with_reducible apply Keeps.ite | with_reducible apply State.each_keeps | with_reducible apply State.setBit_keeps | with_reducible apply State.coverSlot_keeps | with_reducible apply State.trustSlot_keeps | with_reducible apply State.putTbl_keeps | with_reducible apply State.event_keeps | split

theorem State.stageClear_keeps {s0 : Orig} {s : State} (h : Keeps s0 s)  (hm : Sub 68727865346 s0.m) : Keeps s0 (State.stageClear s) := by
  unfold State.stageClear
  try dsimp only
  repeat' first | with_reducible assumption | with_reducible intro _ | ((with_reducible refine Sub.tr ?_ hm); exact rfl) | with_reducible apply Keeps.ite | with_reducible apply State.putMem_keeps | with_reducible apply State.putPoison_keeps | with_reducible apply State.poisonShow_keeps | ((with_reducible show Memory.wf _ = true); exact SMap.wf_keep _ _ _ (by assumption)) | split

theorem State.sampleCount_keeps {s0 : Orig} {s : State} (h : Keeps s0 s) (n : Nat) (stamp : Int) (hm : Sub 550292947208 s0.m) : Keeps s0 (State.sampleCount s n stamp) := by
  unfold State.sampleCount
  try dsimp only
  repeat' first | with_reducible assumption | with_reducible intro _ | ((with_reducible refine Sub.tr ?_ hm); exact rfl) | with_reducible apply Keeps.ite | with_reducible apply State.wrN_keeps | with_reducible apply State.eventSrc_keeps | split

theorem execSampleArrive_keeps {s0 : Orig} {s : State} (h : Keeps s0 s) (n : Fin 16) (stamp : Int) (data : List Byte) (hm : Sub 141493948121354 s0.m) : KeepsR s0 (execSampleArrive n stamp data s) := by
  unfold execSampleArrive
  try dsimp only
  repeat' first | with_reducible assumption | with_reducible intro _ | ((with_reducible refine Sub.tr ?_ hm); exact rfl) | with_reducible apply Keeps.ite | with_reducible apply KeepsR.ok | with_reducible apply KeepsR.ite | with_reducible apply State.engStore_keeps | with_reducible apply State.wrN_keeps | with_reducible apply State.tslotMod_keeps | with_reducible apply State.sampleCount_keeps | with_reducible apply ok_keeps | with_reducible apply State.incF_keeps | with_reducible apply State.setBit_keeps | split | with_reducible refine Keeps.eqNext (by assumption) ?_

theorem execSlotSilent_keeps {s0 : Orig} {s : State} (h : Keeps s0 s) (n : Fin 16) (hm : Sub 141287781302536 s0.m) : KeepsR s0 (execSlotSilent n s) := by
  unfold execSlotSilent
  try dsimp only
  repeat' first | with_reducible assumption | with_reducible intro _ | ((with_reducible refine Sub.tr ?_ hm); exact rfl) | with_reducible apply Keeps.ite | with_reducible apply KeepsR.ok | with_reducible apply KeepsR.ite | with_reducible apply ok_keeps | with_reducible apply State.tslotMod_keeps | with_reducible apply State.eventSrc_keeps | split | with_reducible refine Keeps.eqNext (by assumption) ?_

theorem State.slotErr_keeps {s0 : Orig} {s : State} (h : Keeps s0 s) (n : Nat) (hm : Sub 256 s0.m) : Keeps s0 (State.slotErr s n) := by
  unfold State.slotErr
  try dsimp only
  repeat' first | with_reducible assumption | with_reducible intro _ | ((with_reducible refine Sub.tr ?_ hm); exact rfl) | with_reducible apply Keeps.ite | with_reducible apply State.incF_keeps | split

theorem State.sampleDiscard_keeps {s0 : Orig} {s : State} (h : Keeps s0 s) (n : Nat) (hm : Sub 141287781302536 s0.m) : Keeps s0 (State.sampleDiscard s n) := by
  unfold State.sampleDiscard
  try dsimp only
  repeat' first | with_reducible assumption | with_reducible intro _ | ((with_reducible refine Sub.tr ?_ hm); exact rfl) | with_reducible apply Keeps.ite | with_reducible apply State.tslotMod_keeps | with_reducible apply State.slotErr_keeps | with_reducible apply State.eventSrc_keeps | split

theorem execExtErr_keeps {s0 : Orig} {s : State} (h : Keeps s0 s) (n : Fin 16) (hm : Sub 141287781302536 s0.m) : KeepsR s0 (execExtErr n s) := by
  unfold execExtErr
  try dsimp only
  repeat' first | with_reducible assumption | with_reducible intro _ | ((with_reducible refine Sub.tr ?_ hm); exact rfl) | with_reducible apply Keeps.ite | with_reducible apply KeepsR.ok | with_reducible apply KeepsR.ite | with_reducible apply ok_keeps | with_reducible apply State.sampleDiscard_keeps | split | with_reducible refine Keeps.eqNext (by assumption) ?_

theorem State.fragment_keeps {s0 : Orig} {s : State} (h : Keeps s0 s) (n : Nat) (d : List Byte) (hm : Sub 141287781302536 s0.m) : Keeps s0 (State.fragment s n d) := by
  unfold State.fragment
  try dsimp only
  repeat' first | with_reducible assumption | with_reducible intro _ | ((with_reducible refine Sub.tr ?_ hm); exact rfl) | with_reducible apply Keeps.ite | with_reducible apply State.sampleDiscard_keeps | with_reducible apply State.tslotMod_keeps | split

theorem execSlotFragment_keeps {s0 : Orig} {s : State} (h : Keeps s0 s) (d : List Byte) (hm : Sub 141287781302536 s0.m) : KeepsR s0 (execSlotFragment d s) := by
  unfold execSlotFragment
  try dsimp only
  repeat' first | with_reducible assumption | with_reducible intro _ | ((with_reducible refine Sub.tr ?_ hm); exact rfl) | with_reducible apply Keeps.ite | with_reducible apply KeepsR.ok | with_reducible apply KeepsR.ite | with_reducible apply ok_keeps | with_reducible apply State.slotErr_keeps | with_reducible apply State.fragment_keeps | split | with_reducible refine Keeps.eqNext (by assumption) ?_

theorem State.cycleAbandon_keeps {s0 : Orig} {s : State} (h : Keeps s0 s)  (hm : Sub 141287781302536 s0.m) : Keeps s0 (State.cycleAbandon s) := by
  unfold State.cycleAbandon
  try dsimp only
  repeat' first | with_reducible assumption | with_reducible intro _ | ((with_reducible refine Sub.tr ?_ hm); exact rfl) | with_reducible apply Keeps.ite | with_reducible apply State.putTbl_keeps | with_reducible apply State.setBit_keeps | with_reducible apply State.incF_keeps | with_reducible apply State.event_keeps | split

theorem State.swapTakes_keeps {s0 : Orig} {s : State} (h : Keeps s0 s)  (hm : Sub 141288049737992 s0.m) : Keeps s0 (State.swapTakes s) := by
  unfold State.swapTakes
  try dsimp only
  repeat' first | with_reducible assumption | with_reducible intro _ | ((with_reducible refine Sub.tr ?_ hm); exact rfl) | with_reducible apply Keeps.ite | with_reducible apply State.alignSwap_keeps | with_reducible apply State.cmdEndIf_keeps | with_reducible apply ok_keeps | split

theorem State.tblHalt_keeps {s0 : Orig} {s : State} (h : Keeps s0 s)  (hm : Sub 141288049737992 s0.m) : Keeps s0 (State.tblHalt s) := by
  unfold State.tblHalt
  try dsimp only
  repeat' first | with_reducible assumption | with_reducible intro _ | ((with_reducible refine Sub.tr ?_ hm); exact rfl) | with_reducible apply Keeps.ite | with_reducible apply State.setBit_keeps | with_reducible apply State.cmdEndIf_keeps | with_reducible apply ok_keeps | with_reducible apply State.swapTakes_keeps | split

theorem State.stopIfPending_keeps {s0 : Orig} {s : State} (h : Keeps s0 s)  (hm : Sub 141288049737992 s0.m) : Keeps s0 (State.stopIfPending s) := by
  unfold State.stopIfPending
  try dsimp only
  repeat' first | with_reducible assumption | with_reducible intro _ | ((with_reducible refine Sub.tr ?_ hm); exact rfl) | with_reducible apply Keeps.ite | with_reducible apply State.when_keeps | with_reducible apply State.tblHalt_keeps | split

theorem State.tblStopMode_keeps {s0 : Orig} {s : State} (h : Keeps s0 s)  (hm : Sub 141288049737992 s0.m) : Keeps s0 (State.tblStopMode s) := by
  unfold State.tblStopMode
  try dsimp only
  repeat' first | with_reducible assumption | with_reducible intro _ | ((with_reducible refine Sub.tr ?_ hm); exact rfl) | with_reducible apply Keeps.ite | with_reducible apply State.setBit_keeps | with_reducible apply State.cmdEndIf_keeps | with_reducible apply State.tblHalt_keeps | split

theorem State.tblStopPower_keeps {s0 : Orig} {s : State} (h : Keeps s0 s)  (hm : Sub 141288049737992 s0.m) : Keeps s0 (State.tblStopPower s) := by
  unfold State.tblStopPower
  try dsimp only
  repeat' first | with_reducible assumption | with_reducible intro _ | ((with_reducible refine Sub.tr ?_ hm); exact rfl) | with_reducible apply Keeps.ite | with_reducible apply State.setBit_keeps | with_reducible apply State.cmdEndIf_keeps | with_reducible apply State.cycleAbandon_keeps | with_reducible apply State.tblHalt_keeps | split

theorem State.fuse_keeps {s0 : Orig} {s : State} (h : Keeps s0 s) (fused : List (Fin 16777216 × Byte)) (secs : List TblSec) (hm : Sub 8388608 s0.m) : Keeps s0 (State.fuse s fused secs) := by
  unfold State.fuse
  try dsimp only
  repeat' first | with_reducible assumption | with_reducible intro _ | ((with_reducible refine Sub.tr ?_ hm); exact rfl) | with_reducible apply Keeps.ite | with_reducible apply State.each_keeps | with_reducible apply State.putMem_keeps | with_reducible apply State.wrB_keeps | ((with_reducible show Memory.wf _ = true); exact SMap.wf_keep _ _ _ (by assumption)) | split

theorem State.cutTakes_keeps {s0 : Orig} {s : State} (h : Keeps s0 s) (t : Nat) (hm : Sub 141288049737992 s0.m) : Keeps s0 (State.cutTakes s t) := by
  unfold State.cutTakes
  try dsimp only
  repeat' first | with_reducible assumption | with_reducible intro _ | ((with_reducible refine Sub.tr ?_ hm); exact rfl) | with_reducible apply Keeps.ite | with_reducible apply KeepsR.ok | with_reducible apply KeepsR.ite | with_reducible apply State.each_keeps | with_reducible apply State.putTbl_keeps | with_reducible apply State.swapTakes_keeps | with_reducible apply State.trustSlot_keeps | with_reducible apply State.setBit_keeps | with_reducible apply State.cmdEndIf_keeps | with_reducible apply ok_keeps | split | with_reducible refine Keeps.eqNext (by assumption) ?_

theorem State.cycleCut_keeps {s0 : Orig} {s : State} (h : Keeps s0 s) (t : Nat) (sums : List (Fin 16 × Fin 256 × BitVec 64)) (hm : Sub 140737488355584 s0.m) : Keeps s0 (State.cycleCut s t sums) := by
  unfold State.cycleCut
  try dsimp only
  repeat' first | with_reducible assumption | with_reducible intro _ | ((with_reducible refine Sub.tr ?_ hm); exact rfl) | with_reducible apply Keeps.ite | with_reducible apply State.putTbl_keeps | with_reducible apply State.setBit_keeps | split

theorem State.cycleFuse_keeps {s0 : Orig} {s : State} (h : Keeps s0 s) (t : Nat) (fused : List (Fin 16777216 × Byte)) (hm : Sub 72198882196717832 s0.m) : Keeps s0 (State.cycleFuse s t fused) := by
  unfold State.cycleFuse
  try dsimp only
  repeat' first | with_reducible assumption | with_reducible intro _ | ((with_reducible refine Sub.tr ?_ hm); exact rfl) | with_reducible apply Keeps.ite | with_reducible apply State.passTo_keeps | with_reducible apply State.cycleAbandon_keeps | with_reducible apply State.stopIfPending_keeps | with_reducible apply State.fuse_keeps | with_reducible apply State.setBit_keeps | with_reducible apply State.event_keeps | split

theorem State.cutRun_keeps {s0 : Orig} {s : State} (h : Keeps s0 s) (t : Nat) (sums : List (Fin 16 × Fin 256 × BitVec 64)) (fused : List (Fin 16777216 × Byte)) (hm : Sub 72198882196717832 s0.m) : Keeps s0 (State.cutRun s t sums fused) := by
  unfold State.cutRun
  try dsimp only
  repeat' first | with_reducible assumption | with_reducible intro _ | ((with_reducible refine Sub.tr ?_ hm); exact rfl) | with_reducible apply Keeps.ite | with_reducible apply State.passTo_keeps | with_reducible apply State.cycleAbandon_keeps | with_reducible apply State.stopIfPending_keeps | with_reducible apply State.cutTakes_keeps | with_reducible apply State.cycleCut_keeps | with_reducible apply State.cycleFuse_keeps | split

theorem execSolverTo_keeps {s0 : Orig} {s : State} (h : Keeps s0 s) (reached : List (Nat × Nat)) (hm : Sub 141287781302536 s0.m) : KeepsR s0 (execSolverTo reached s) := by
  unfold execSolverTo
  try dsimp only
  repeat' first | with_reducible assumption | with_reducible intro _ | ((with_reducible refine Sub.tr ?_ hm); exact rfl) | with_reducible apply Keeps.ite | with_reducible apply KeepsR.ok | with_reducible apply KeepsR.ite | with_reducible apply ok_keeps | with_reducible apply State.putTbl_keeps | with_reducible apply State.incF_keeps | with_reducible apply State.event_keeps | split | with_reducible refine Keeps.eqNext (by assumption) ?_

theorem State.katCheck_keeps {s0 : Orig} {s : State} (h : Keeps s0 s) (kat : Nat) (hm : Sub 141287781302536 s0.m) : Keeps s0 (State.katCheck s kat) := by
  unfold State.katCheck
  try dsimp only
  repeat' first | with_reducible assumption | with_reducible intro _ | ((with_reducible refine Sub.tr ?_ hm); exact rfl) | with_reducible apply Keeps.ite | with_reducible apply State.incF_keeps | with_reducible apply State.setBit_keeps | with_reducible apply State.putTbl_keeps | with_reducible apply State.event_keeps | split

theorem State.slotShow_keeps {s0 : Orig} {s : State} (h : Keeps s0 s) (c : TblCyc) (n : Nat) (hm : Sub 256 s0.m) : Keeps s0 (State.slotShow s c n) := by
  unfold State.slotShow
  try dsimp only
  repeat' first | with_reducible assumption | with_reducible intro _ | ((with_reducible refine Sub.tr ?_ hm); exact rfl) | with_reducible apply Keeps.ite | with_reducible apply State.setBit_keeps | with_reducible apply State.setF_keeps | with_reducible apply State.wrN_keeps | split

theorem State.sectorsShow_keeps {s0 : Orig} {s : State} (h : Keeps s0 s) (secs : List TblSec) (hm : Sub 256 s0.m) : Keeps s0 (State.sectorsShow s secs) := by
  unfold State.sectorsShow
  try dsimp only
  repeat' first | with_reducible assumption | with_reducible intro _ | ((with_reducible refine Sub.tr ?_ hm); exact rfl) | with_reducible apply Keeps.ite | with_reducible apply State.wrN_keeps | split

theorem State.timingShow_keeps {s0 : Orig} {s : State} (h : Keeps s0 s) (c : TblCyc) (hm : Sub 256 s0.m) : Keeps s0 (State.timingShow s c) := by
  unfold State.timingShow
  try dsimp only
  repeat' first | with_reducible assumption | with_reducible intro _ | ((with_reducible refine Sub.tr ?_ hm); exact rfl) | with_reducible apply Keeps.ite | with_reducible apply State.wrN_keeps | split

theorem State.publish_keeps {s0 : Orig} {s : State} (h : Keeps s0 s) (c : TblCyc) (crop : List (Int × Byte)) (dets : List TblDet) (kat : Nat) (pick : List (Nat × Nat)) (hm : Sub 141287789691144 s0.m) : Keeps s0 (State.publish s c crop dets kat pick) := by
  unfold State.publish
  try dsimp only
  repeat' first | with_reducible assumption | with_reducible intro _ | ((with_reducible refine Sub.tr ?_ hm); exact rfl) | with_reducible apply Keeps.ite | with_reducible apply State.each_keeps | with_reducible apply State.when_keeps | with_reducible apply State.katCheck_keeps | with_reducible apply State.wrBytes_keeps | with_reducible apply State.putTbl_keeps | with_reducible apply State.incF_keeps | with_reducible apply State.setBit_keeps | with_reducible apply State.wrN_keeps | with_reducible apply State.sectorsShow_keeps | with_reducible apply State.timingShow_keeps | with_reducible apply State.slotShow_keeps | with_reducible apply State.event_keeps | split

theorem State.cyclePublish_keeps {s0 : Orig} {s : State} (h : Keeps s0 s) (c : TblCyc) (crop : List (Int × Byte)) (dets : List TblDet) (kat : Nat) (pick : List (Nat × Nat)) (hm : Sub 72198882196717832 s0.m) : Keeps s0 (State.cyclePublish s c crop dets kat pick) := by
  unfold State.cyclePublish
  try dsimp only
  repeat' first | with_reducible assumption | with_reducible intro _ | ((with_reducible refine Sub.tr ?_ hm); exact rfl) | with_reducible apply Keeps.ite | with_reducible apply State.passTo_keeps | with_reducible apply State.cycleAbandon_keeps | with_reducible apply State.stopIfPending_keeps | with_reducible apply State.publish_keeps | split

theorem State.netLoad_keeps {s0 : Orig} {s : State} (h : Keeps s0 s) (b : Bool) (hm : Sub 8388608 s0.m := by first | assumption | exact Sub.tr rfl (by assumption)) : Keeps s0 (State.netLoad s b) := by
  refine h.within rfl (fun c => ⟨?_, c.2.1, c.2.2⟩) (fun p hp => by cases p <;> first | rfl | exact absurd hp (by decide)) hm
  have m := SMap.moved_spec (fun _ => 0) blankByte s.emmc (slotBase 7 b + slotPay 7) 0xC00000 (tblBase + 0x2400000) c.2.1
    (fun k h1 h2 => by unfold blankByte; rw [if_neg]; simp only [norBase, tblBase]; omega)
  exact SMap.wf_splice blankByte s.mem (tblBase + 0x2400000) 0xC00000 _ c.1 m.1 m.2

theorem State.tblBegin_keeps {s0 : Orig} {s : State} (h : Keeps s0 s)  (hm : Sub 140806216220930 s0.m) : Keeps s0 (State.tblBegin s) := by
  unfold State.tblBegin
  try dsimp only
  repeat' first | with_reducible assumption | with_reducible intro _ | ((with_reducible refine Sub.tr ?_ hm); exact rfl) | with_reducible apply Keeps.ite | with_reducible apply KeepsR.ok | with_reducible apply KeepsR.ite | with_reducible apply State.each_keeps | with_reducible apply State.putTbl_keeps | with_reducible apply State.netLoad_keeps | with_reducible apply State.stageClear_keeps | with_reducible apply State.coverSlot_keeps | with_reducible apply State.trustSlot_keeps | with_reducible apply State.setBit_keeps | with_reducible apply State.putMem_keeps | ((with_reducible show Memory.wf _ = true); exact SMap.wf_keep _ _ _ (by assumption)) | split | with_reducible refine Keeps.eqNext (by assumption) ?_

theorem execTblStart_keeps {s0 : Orig} {s : State} (h : Keeps s0 s)  (hm : Sub 141356777603338 s0.m) : KeepsR s0 (execTblStart s) := by
  unfold execTblStart
  try dsimp only
  repeat' first | with_reducible assumption | with_reducible intro _ | ((with_reducible refine Sub.tr ?_ hm); exact rfl) | with_reducible apply Keeps.ite | with_reducible apply KeepsR.ok | with_reducible apply KeepsR.ite | with_reducible apply KeepsP.ite | with_reducible apply ok_keeps | with_reducible apply State.command_keeps | with_reducible apply done_keeps | with_reducible apply State.tblBegin_keeps | with_reducible apply refuse_keeps | simp -zeta only [KeepsP.pair, KeepsQ.pair] | with_reducible apply KeepsP.fst | split | with_reducible refine Keeps.eqFst (by assumption) ?_ | with_reducible refine Keeps.eqNext (by assumption) ?_

theorem execTblStop_keeps {s0 : Orig} {s : State} (h : Keeps s0 s)  (hm : Sub 550561382664 s0.m) : KeepsR s0 (execTblStop s) := by
  unfold execTblStop
  try dsimp only
  repeat' first | with_reducible assumption | with_reducible intro _ | ((with_reducible refine Sub.tr ?_ hm); exact rfl) | with_reducible apply Keeps.ite | with_reducible apply KeepsR.ok | with_reducible apply KeepsR.ite | with_reducible apply KeepsP.ite | with_reducible apply ok_keeps | with_reducible apply State.command_keeps | with_reducible apply State.setBit_keeps | with_reducible apply done_keeps | simp -zeta only [KeepsP.pair, KeepsQ.pair] | with_reducible apply KeepsP.fst | split | with_reducible refine Keeps.eqFst (by assumption) ?_ | with_reducible refine Keeps.eqNext (by assumption) ?_

theorem execAlignSwap_keeps {s0 : Orig} {s : State} (h : Keeps s0 s)  (hm : Sub 141288049737992 s0.m) : KeepsR s0 (execAlignSwap s) := by
  unfold execAlignSwap
  try dsimp only
  repeat' first | with_reducible assumption | with_reducible intro _ | ((with_reducible refine Sub.tr ?_ hm); exact rfl) | with_reducible apply Keeps.ite | with_reducible apply KeepsR.ok | with_reducible apply KeepsR.ite | with_reducible apply KeepsP.ite | with_reducible apply State.each_keeps | with_reducible apply ok_keeps | with_reducible apply State.command_keeps | with_reducible apply State.setBit_keeps | with_reducible apply State.putTbl_keeps | with_reducible apply done_keeps | with_reducible apply State.alignSwap_keeps | with_reducible apply refuse_keeps | simp -zeta only [KeepsP.pair, KeepsQ.pair] | with_reducible apply KeepsP.fst | split | with_reducible refine Keeps.eqFst (by assumption) ?_ | with_reducible refine Keeps.eqNext (by assumption) ?_

theorem execTblSwapCancel_keeps {s0 : Orig} {s : State} (h : Keeps s0 s)  (hm : Sub 141288049737992 s0.m) : KeepsR s0 (execTblSwapCancel s) := by
  unfold execTblSwapCancel
  try dsimp only
  repeat' first | with_reducible assumption | with_reducible intro _ | ((with_reducible refine Sub.tr ?_ hm); exact rfl) | with_reducible apply Keeps.ite | with_reducible apply KeepsR.ok | with_reducible apply KeepsR.ite | with_reducible apply KeepsP.ite | with_reducible apply State.each_keeps | with_reducible apply ok_keeps | with_reducible apply State.cancel_keeps | with_reducible apply State.setBit_keeps | with_reducible apply State.putTbl_keeps | simp -zeta only [KeepsP.pair, KeepsQ.pair] | with_reducible apply KeepsP.fst | split | with_reducible refine Keeps.eqFst (by assumption) ?_ | with_reducible refine Keeps.eqNext (by assumption) ?_

theorem execTrustReset_keeps {s0 : Orig} {s : State} (h : Keeps s0 s)  (hm : Sub 141288049737992 s0.m) : KeepsR s0 (execTrustReset s) := by
  unfold execTrustReset
  try dsimp only
  repeat' first | with_reducible assumption | with_reducible intro _ | ((with_reducible refine Sub.tr ?_ hm); exact rfl) | with_reducible apply Keeps.ite | with_reducible apply KeepsR.ok | with_reducible apply KeepsR.ite | with_reducible apply KeepsP.ite | with_reducible apply ok_keeps | with_reducible apply State.command_keeps | with_reducible apply done_keeps | with_reducible apply State.putTbl_keeps | with_reducible apply refuse_keeps | simp -zeta only [KeepsP.pair, KeepsQ.pair] | with_reducible apply KeepsP.fst | split | with_reducible refine Keeps.eqFst (by assumption) ?_ | with_reducible refine Keeps.eqNext (by assumption) ?_

theorem execTblClearCounts_keeps {s0 : Orig} {s : State} (h : Keeps s0 s)  (hm : Sub 550561382664 s0.m) : KeepsR s0 (execTblClearCounts s) := by
  unfold execTblClearCounts
  try dsimp only
  repeat' first | with_reducible assumption | with_reducible intro _ | ((with_reducible refine Sub.tr ?_ hm); exact rfl) | with_reducible apply Keeps.ite | with_reducible apply KeepsR.ok | with_reducible apply KeepsR.ite | with_reducible apply KeepsP.ite | with_reducible apply State.each_keeps | with_reducible apply State.when_keeps | with_reducible apply ok_keeps | with_reducible apply State.command_keeps | with_reducible apply State.wrN_keeps | with_reducible apply State.setBit_keeps | with_reducible apply done_keeps | simp -zeta only [KeepsP.pair, KeepsQ.pair] | with_reducible apply KeepsP.fst | split | with_reducible refine Keeps.eqFst (by assumption) ?_ | with_reducible refine Keeps.eqNext (by assumption) ?_

theorem State.tblCoreReset_keeps {s0 : Orig} {s : State} (h : Keeps s0 s)  (hm : Sub 140737488355328 s0.m) : Keeps s0 (State.tblCoreReset s) := by
  unfold State.tblCoreReset
  try dsimp only
  repeat' first | with_reducible assumption | with_reducible intro _ | ((with_reducible refine Sub.tr ?_ hm); exact rfl) | with_reducible apply Keeps.ite | with_reducible apply State.putTbl_keeps | split

theorem State.gxCell_keeps {s0 : Orig} {s : State} (h : Keeps s0 s) (d : GxDesc) (a : Nat) (bs : List Byte) (hm : Sub 206301036546 s0.m) : Keeps s0 (State.gxCell s d a bs) := by
  unfold State.gxCell
  try dsimp only
  repeat' first | with_reducible assumption | with_reducible intro _ | ((with_reducible refine Sub.tr ?_ hm); exact rfl) | with_reducible apply Keeps.ite | with_reducible apply State.each_keeps | with_reducible apply State.store_keeps | with_reducible apply State.drawn_keeps | split

theorem State.gxPut_keeps {s0 : Orig} {s : State} (h : Keeps s0 s) (d : GxDesc) (b : Bool) (x y : Int) (j : Nat) (bs : List Byte) (hm : Sub 206301036546 s0.m) : Keeps s0 (State.gxPut s d b x y j bs) := by
  unfold State.gxPut
  try dsimp only
  repeat' first | with_reducible assumption | with_reducible intro _ | ((with_reducible refine Sub.tr ?_ hm); exact rfl) | with_reducible apply Keeps.ite | with_reducible apply State.each_keeps | with_reducible apply State.gxCell_keeps | split

theorem State.jobQueue_keeps {s0 : Orig} {s : State} (h : Keeps s0 s) (d : GxDesc) (inp out : Nat) (hm : Sub 140737622573056 s0.m) : KeepsP s0 (State.jobQueue s d inp out) := by
  unfold State.jobQueue
  try dsimp only
  repeat' first | with_reducible assumption | with_reducible intro _ | ((with_reducible refine Sub.tr ?_ hm); exact rfl) | with_reducible apply Keeps.ite | with_reducible apply KeepsP.ite | with_reducible apply State.drawn_keeps | with_reducible apply State.putTbl_keeps | simp -zeta only [KeepsP.pair, KeepsQ.pair] | with_reducible apply KeepsP.fst | split | with_reducible refine Keeps.eqFst (by assumption) ?_

end Sys2Proof.Machine
end

