-- ==== Sys2Proof/Laws/KeepsLoop.lean ====
section
/-! SUPPORT. The operations of Machine/Loop.lean keep the queue of commands and the canonical form, and change no part outside
their footprint. -/

set_option linter.unusedSimpArgs false
set_option linter.unusedVariables false
set_option Elab.async false

namespace Sys2Proof.Machine

theorem State.mgMod_keeps {s0 : Orig} {s : State} (h : Keeps s0 s) (g : Nat) (f : LpeG → LpeG) (hm : Sub 8796093022208 s0.m) : Keeps s0 (State.mgMod s g f) := by
  unfold State.mgMod
  try dsimp only
  repeat' first | with_reducible assumption | with_reducible intro _ | ((with_reducible refine Sub.tr ?_ hm); exact rfl) | with_reducible apply Keeps.ite | with_reducible apply State.putLpe_keeps | split

theorem State.lpShow_keeps {s0 : Orig} {s : State} (h : Keeps s0 s) (n act : Nat) (hm : Sub 512 s0.m) : Keeps s0 (State.lpShow s n act) := by
  unfold State.lpShow
  try dsimp only
  repeat' first | with_reducible assumption | with_reducible intro _ | ((with_reducible refine Sub.tr ?_ hm); exact rfl) | with_reducible apply Keeps.ite | with_reducible apply State.setF_keeps | with_reducible apply State.setBit_keeps | split

theorem State.lpeMode_keeps {s0 : Orig} {s : State} (h : Keeps s0 s) (old new : Nat) (hm : Sub 550292947464 s0.m) : Keeps s0 (State.lpeMode s old new) := by
  unfold State.lpeMode
  try dsimp only
  repeat' first | with_reducible assumption | with_reducible intro _ | ((with_reducible refine Sub.tr ?_ hm); exact rfl) | with_reducible apply Keeps.ite | with_reducible apply State.each_keeps | with_reducible apply State.lpShow_keeps | with_reducible apply State.event_keeps | split

theorem State.toSink_keeps {s0 : Orig} {s : State} (h : Keeps s0 s) (sink scale : Word) (q : Int) (off : Bool) (hm : Sub 286423718855688 s0.m) : KeepsP s0 (State.toSink s sink scale q off) := by
  unfold State.toSink
  try dsimp only
  repeat' first | with_reducible assumption | with_reducible intro _ | ((with_reducible refine Sub.tr ?_ hm); exact rfl) | with_reducible apply Keeps.ite | with_reducible apply KeepsP.ite | with_reducible apply State.vlvCmdIn_keeps | with_reducible apply State.canTx_keeps | simp -zeta only [KeepsP.pair, KeepsQ.pair] | with_reducible apply KeepsP.fst | split | with_reducible refine Keeps.eqFst (by assumption) ?_

theorem State.mgTake_keeps {s0 : Orig} {s : State} (h : Keeps s0 s) (g : Nat) (hm : Sub 8796093022720 s0.m) : Keeps s0 (State.mgTake s g) := by
  unfold State.mgTake
  try dsimp only
  repeat' first | with_reducible assumption | with_reducible intro _ | ((with_reducible refine Sub.tr ?_ hm); exact rfl) | with_reducible apply Keeps.ite | with_reducible apply State.mgMod_keeps | with_reducible apply State.setBit_keeps | split

theorem State.mgForm_keeps {s0 : Orig} {s : State} (h : Keeps s0 s) (g t : Nat) (hm : Sub 295219811878408 s0.m) : Keeps s0 (State.mgForm s g t) := by
  unfold State.mgForm
  try dsimp only
  repeat' first | with_reducible assumption | with_reducible intro _ | ((with_reducible refine Sub.tr ?_ hm); exact rfl) | with_reducible apply Keeps.ite | with_reducible apply KeepsP.ite | with_reducible apply State.each_keeps | with_reducible apply State.mgTake_keeps | with_reducible apply State.setF_keeps | with_reducible apply State.setBit_keeps | with_reducible apply State.incF_keeps | with_reducible apply State.event_keeps | with_reducible apply State.mgMod_keeps | with_reducible apply State.toSink_keeps | with_reducible apply State.wr_keeps | simp -zeta only [KeepsP.pair, KeepsQ.pair] | with_reducible apply KeepsP.fst | split | with_reducible refine Keeps.eqFst (by assumption) ?_

theorem State.lpTake_keeps {s0 : Orig} {s : State} (h : Keeps s0 s) (n t : Nat) (hm : Sub 295219811878408 s0.m) : Keeps s0 (State.lpTake s n t) := by
  unfold State.lpTake
  try dsimp only
  repeat' first | with_reducible assumption | with_reducible intro _ | ((with_reducible refine Sub.tr ?_ hm); exact rfl) | with_reducible apply Keeps.ite | with_reducible apply State.lpMod_keeps | with_reducible apply State.setBit_keeps | with_reducible apply State.mgForm_keeps | split

theorem State.lpSwap_keeps {s0 : Orig} {s : State} (h : Keeps s0 s) (n : Nat) (hm : Sub 550561382920 s0.m) : Keeps s0 (State.lpSwap s n) := by
  unfold State.lpSwap
  try dsimp only
  repeat' first | with_reducible assumption | with_reducible intro _ | ((with_reducible refine Sub.tr ?_ hm); exact rfl) | with_reducible apply Keeps.ite | with_reducible apply State.setBit_keeps | with_reducible apply State.event_keeps | with_reducible apply State.cmdEndIf_keeps | with_reducible apply ok_keeps | split

theorem State.lpPreloaded_keeps {s0 : Orig} {s : State} (h : Keeps s0 s) (n : Nat) (hm : Sub 8796093022720 s0.m := by first | assumption | exact Sub.tr rfl (by assumption)) : Keeps s0 (State.lpPreloaded s n) := by
  unfold State.lpPreloaded
  try dsimp only
  repeat' first | with_reducible assumption | with_reducible intro _ | ((with_reducible refine Sub.tr ?_ hm); exact rfl) | with_reducible apply Keeps.ite | with_reducible apply State.lpMod_keeps | with_reducible apply State.setF_keeps | with_reducible apply State.setBit_keeps | split

theorem State.lpLatch_keeps {s0 : Orig} {s : State} (h : Keeps s0 s) (n t : Nat) (hm : Sub 9346385969672 s0.m := by first | assumption | exact Sub.tr rfl (by assumption)) : KeepsP s0 (State.lpLatch s n t) := by
  unfold State.lpLatch
  try dsimp only
  repeat' first | with_reducible assumption | with_reducible intro _ | ((with_reducible refine Sub.tr ?_ hm); exact rfl) | with_reducible apply Keeps.ite | with_reducible apply KeepsP.ite | with_reducible apply State.each_keeps | with_reducible apply ok_keeps | with_reducible apply State.lpMod_keeps | with_reducible apply State.setF_keeps | with_reducible apply State.lpFlags_keeps | with_reducible apply State.event_keeps | simp -zeta only [KeepsP.pair, KeepsQ.pair] | with_reducible apply KeepsP.fst | split | with_reducible refine Keeps.eqFst (by assumption) ?_

theorem State.lpFault_keeps {s0 : Orig} {s : State} (h : Keeps s0 s) (n cause : Nat) (hm : Sub 550292947464 s0.m := by first | assumption | exact Sub.tr rfl (by assumption)) : Keeps s0 (State.lpFault s n cause) := by
  unfold State.lpFault
  try dsimp only
  repeat' first | with_reducible assumption | with_reducible intro _ | ((with_reducible refine Sub.tr ?_ hm); exact rfl) | with_reducible apply Keeps.ite | with_reducible apply State.setF_keeps | with_reducible apply State.setBit_keeps | with_reducible apply State.event_keeps | split

theorem State.lpQualify_keeps {s0 : Orig} {s : State} (h : Keeps s0 s) (n : Nat) (ok : Bool) (hm : Sub 8796093022720 s0.m := by first | assumption | exact Sub.tr rfl (by assumption)) : Keeps s0 (State.lpQualify s n ok) := by
  unfold State.lpQualify
  try dsimp only
  repeat' first | with_reducible assumption | with_reducible intro _ | ((with_reducible refine Sub.tr ?_ hm); exact rfl) | with_reducible apply Keeps.ite | with_reducible apply ok_keeps | with_reducible apply State.lpMod_keeps | with_reducible apply State.setBit_keeps | split

theorem LawSt.wg_keeps {s0 : Orig} {l : LawSt} (h : Keeps s0 l.s) (i : Nat) (v : Dword) : Keeps s0 (l.wg i v).s := by
  unfold LawSt.wg; split <;> exact h

theorem LawSt.doRegion_keeps {s0 : Orig} {l : LawSt} (h : Keeps s0 l.s) (a b : Int) (hm : Sub 9552552788490 s0.m := by first | assumption | exact Sub.tr rfl (by assumption)) : Keeps s0 (l.doRegion a b).1.s := by
  have j : ∀ (m : LawSt) (x n : Nat), Keeps s0 m.s → Keeps s0 ((m.fl x).s.setF .LPE (LPE_LP_STATUS n) 31 28 b.toNat) :=
    fun m x n h => State.setF_keeps h _ _ _ _ _
  unfold LawSt.doRegion
  split
  · exact h
  · dsimp only
    split
    · exact h
    · dsimp only [LawSt.fl]
      split
      · exact State.setF_keeps (LawSt.wg_keeps h _ _) _ _ _ _ _
      · exact State.setF_keeps h _ _ _ _ _

theorem LawSt.lop_keeps {s0 : Orig} {l : LawSt} (h : Keeps s0 l.s) (fn : Nat) (w : BitVec 26) (hm : Sub 9552552788490 s0.m := by first | assumption | exact Sub.tr rfl (by assumption)) : Keeps s0 (l.lop fn w).s := by
  unfold LawSt.lop
  dsimp only [LawSt.wq, LawSt.fl]
  split
  · exact LawSt.wg_keeps h _ _
  · exact LawSt.wg_keeps h _ _
  · exact LawSt.wg_keeps h _ _
  · exact LawSt.wg_keeps h _ _
  · split <;> exact LawSt.wg_keeps h _ _
  · exact LawSt.wg_keeps h _ _
  · split <;> exact LawSt.wg_keeps h _ _
  · exact LawSt.wg_keeps (LawSt.doRegion_keeps h _ _) _ _
  · exact LawSt.wg_keeps h _ _
  · split <;> exact h
  · exact h

theorem LawSt.mem_keeps {s0 : Orig} {l : LawSt} (h : Keeps s0 l.s) (k : Nat) (w : BitVec 26) (hm : Sub 9552552788490 s0.m := by first | assumption | exact Sub.tr rfl (by assumption)) : Keeps s0 (l.mem k w).1.s := by
  unfold LawSt.mem
  dsimp only
  split
  · exact h
  · split
    · exact h
    · split
      · exact LawSt.wg_keeps h _ _
      · exact LawSt.wg_keeps h _ _
      · exact h
      · exact State.lpeWrite_keeps h _ _
      · exact State.lpeWrite_keeps h _ _

theorem LawSt.ins_keeps {s0 : Orig} {l : LawSt} (h : Keeps s0 l.s) (word : Word) (i : LIns) (hm : Sub 9552552788490 s0.m := by first | assumption | exact Sub.tr rfl (by assumption)) : Keeps s0 (l.ins word i).1.s := by
  unfold LawSt.ins
  dsimp only
  split
  · exact LawSt.wg_keeps h _ _
  · exact LawSt.wg_keeps h _ _
  · exact LawSt.wg_keeps h _ _
  · exact LawSt.mem_keeps h _ _
  · split
    · exact h
    · exact LawSt.wg_keeps h _ _
    · exact h
  · split <;> exact h
  · exact LawSt.lop_keeps h _ _

theorem LawSt.run_keeps {s0 : Orig} (p : List Word) {l : LawSt} (h : Keeps s0 l.s) (hm : Sub 9552552788490 s0.m := by first | assumption | exact Sub.tr rfl (by assumption)) : Keeps s0 (l.run p).1.s := by
  induction p generalizing l with
  | nil => exact h
  | cons w t ih =>
    unfold LawSt.run
    split
    · exact h
    · exact h
    · rename_i i _ _
      have k := LawSt.ins_keeps h w i
      split
      · rename_i l' e; rw [e] at k; exact ih k
      · rename_i l' c _ e; rw [e] at k; exact k

theorem State.lpEnd_keeps {s0 : Orig} (n : Nat) (p : LawSt × Nat) (h : Keeps s0 p.1.s) (hm : Sub 9552552788490 s0.m := by first | assumption | exact Sub.tr rfl (by assumption)) : Keeps s0 (State.lpEnd n p) := by
  unfold State.lpEnd
  dsimp only
  refine Keeps.ite (State.lpFault_keeps (State.lpFlags_keeps h _ _) _ _) ?_
  split
  · exact State.wr_keeps (State.lpFlags_keeps (State.lpMod_keeps h _ _) _ _) _ _ _
  · exact State.lpFlags_keeps (State.lpMod_keeps h _ _) _ _

theorem State.lpLaw_keeps {s0 : Orig} {s : State} (h : Keeps s0 s) (n : Nat) (g : Int) (v : List Int) (b : Bool) :
    Keeps s0 (s.lpLaw n g v b).s := h

theorem State.lpRun_keeps {s0 : Orig} {s : State} (h : Keeps s0 s) (n t : Nat) (retarget : Bool) (hm : Sub 9552552788490 s0.m := by first | assumption | exact Sub.tr rfl (by assumption)) : Keeps s0 (State.lpRun s n t retarget) := by
  have h1 : Keeps s0 (if (s.lp n).preload && !s.lpSuspends n t then s.lpPreloaded n else s) :=
    Keeps.ite (State.lpPreloaded_keeps h n) h
  unfold State.lpRun
  generalize s.lpSuspends n t = susp at h1 ⊢
  dsimp only
  generalize (if (s.lp n).preload && !susp then s.lpPreloaded n else s) = s1 at h1 ⊢
  have h2 := State.lpLatch_keeps h1 n t
  generalize s1.lpLatch n t = p at h2 ⊢
  obtain ⟨s2, vals, ok⟩ := p
  have h3 : Keeps s0 (s2.setBit .LPE (LPE_LP_STATUS n) 3 susp) := State.setBit_keeps h2 _ _ _ _
  split
  · exact h3
  · have h4 := State.lpQualify_keeps h3 n (ok.getD 4 false && ok.getD 5 false)
    dsimp only
    generalize State.lpQualify _ _ _ = s3 at h4 ⊢
    exact State.lpEnd_keeps _ _ (LawSt.run_keeps _ (State.lpLaw_keeps h4 _ _ _ _))

theorem State.lpSample_keeps {s0 : Orig} {s : State} (h : Keeps s0 s) (n t : Nat) (hm : Sub 295425978697226 s0.m) : Keeps s0 (State.lpSample s n t) := by
  unfold State.lpSample
  try dsimp only
  repeat' first | with_reducible assumption | with_reducible intro _ | ((with_reducible refine Sub.tr ?_ hm); exact rfl) | with_reducible apply Keeps.ite | with_reducible apply KeepsP.ite | with_reducible apply State.lpTake_keeps | with_reducible apply State.lpSwap_keeps | with_reducible apply State.lpMod_keeps | with_reducible apply State.setBit_keeps | with_reducible apply State.lpRun_keeps | with_reducible apply State.lpShow_keeps | with_reducible apply State.toSink_keeps | with_reducible apply State.wr_keeps | with_reducible apply State.mgForm_keeps | simp -zeta only [KeepsP.pair, KeepsQ.pair] | with_reducible apply KeepsP.fst | split | with_reducible refine Keeps.eqFst (by assumption) ?_

theorem execLoopSample_keeps {s0 : Orig} {s : State} (h : Keeps s0 s) (n : Fin 128) (t : Nat) (busy : Bool) (hm : Sub 72353020117288458 s0.m) : KeepsR s0 (execLoopSample n t busy s) := by
  unfold execLoopSample
  try dsimp only
  repeat' first | with_reducible assumption | with_reducible intro _ | ((with_reducible refine Sub.tr ?_ hm); exact rfl) | with_reducible apply Keeps.ite | with_reducible apply KeepsR.ok | with_reducible apply KeepsR.ite | with_reducible apply State.passTo_keeps | with_reducible apply State.lpMod_keeps | with_reducible apply ok_keeps | with_reducible apply State.incF_keeps | with_reducible apply State.lpFlags_keeps | with_reducible apply State.event_keeps | with_reducible apply State.lpSample_keeps | split | with_reducible refine Keeps.eqNext (by assumption) ?_

theorem execLpePinWrite_keeps {s0 : Orig} {s : State} (h : Keeps s0 s) (p : Fin 128) (v : Word) (hm : Sub 9002259841538 s0.m) : KeepsR s0 (execLpePinWrite p v s) := by
  unfold execLpePinWrite
  try dsimp only
  repeat' first | with_reducible assumption | with_reducible intro _ | ((with_reducible refine Sub.tr ?_ hm); exact rfl) | with_reducible apply Keeps.ite | with_reducible apply KeepsR.ok | with_reducible apply KeepsR.ite | with_reducible apply ok_keeps | with_reducible apply State.lpeWrite_keeps | split | with_reducible refine Keeps.eqNext (by assumption) ?_

theorem execStagedWrite_keeps {s0 : Orig} {s : State} (h : Keeps s0 s) (o : Nat) (v : Word) (hm : Sub 9002259841538 s0.m) : KeepsR s0 (execStagedWrite o v s) := by
  unfold execStagedWrite
  try dsimp only
  repeat' first | with_reducible assumption | with_reducible intro _ | ((with_reducible refine Sub.tr ?_ hm); exact rfl) | with_reducible apply Keeps.ite | with_reducible apply KeepsR.ok | with_reducible apply KeepsR.ite | with_reducible apply ok_keeps | with_reducible apply State.lpeWrite_keeps | split | with_reducible refine Keeps.eqNext (by assumption) ?_

theorem State.lpeLoadShow_keeps {s0 : Orig} {s : State} (h : Keeps s0 s)  (hm : Sub 512 s0.m) : Keeps s0 (State.lpeLoadShow s) := by
  unfold State.lpeLoadShow
  try dsimp only
  repeat' first | with_reducible assumption | with_reducible intro _ | ((with_reducible refine Sub.tr ?_ hm); exact rfl) | with_reducible apply Keeps.ite | with_reducible apply State.wrN_keeps | split

theorem State.loopApply_keeps {s0 : Orig} {s : State} (h : Keeps s0 s) (ns gs : List Nat) (hm : Sub 9346385969672 s0.m) : KeepsP s0 (State.loopApply s ns gs) := by
  unfold State.loopApply
  try dsimp only
  repeat' first | with_reducible assumption | with_reducible intro _ | ((with_reducible refine Sub.tr ?_ hm); exact rfl) | with_reducible apply Keeps.ite | with_reducible apply KeepsR.ok | with_reducible apply KeepsR.ite | with_reducible apply KeepsP.ite | with_reducible apply State.each_keeps | with_reducible apply ok_keeps | with_reducible apply State.event_keeps | with_reducible apply State.lpMod_keeps | with_reducible apply State.mgMod_keeps | with_reducible apply State.mgTake_keeps | with_reducible apply State.lpeLoadShow_keeps | simp -zeta only [KeepsP.pair, KeepsQ.pair] | with_reducible apply KeepsP.fst | split | with_reducible refine Keeps.eqFst (by assumption) ?_ | with_reducible refine Keeps.eqNext (by assumption) ?_

theorem execLoopApply_keeps {s0 : Orig} {s : State} (h : Keeps s0 s)  (hm : Sub 9346654405128 s0.m) : KeepsR s0 (execLoopApply s) := by
  unfold execLoopApply
  try dsimp only
  repeat' first | with_reducible assumption | with_reducible intro _ | ((with_reducible refine Sub.tr ?_ hm); exact rfl) | with_reducible apply Keeps.ite | with_reducible apply KeepsR.ok | with_reducible apply KeepsR.ite | with_reducible apply KeepsP.ite | with_reducible apply ok_keeps | with_reducible apply State.command_keeps | with_reducible apply refuse_keeps | with_reducible apply State.loopApply_keeps | with_reducible apply done_keeps | simp -zeta only [KeepsP.pair, KeepsQ.pair] | with_reducible apply KeepsP.fst | split | with_reducible refine Keeps.eqFst (by assumption) ?_ | with_reducible refine Keeps.eqNext (by assumption) ?_

theorem State.lpeDrawer_keeps {s0 : Orig} {s : State} (h : Keeps s0 s)  (hm : Sub 295219811878408 s0.m) : Keeps s0 (State.lpeDrawer s) := by
  unfold State.lpeDrawer
  try dsimp only
  repeat' first | with_reducible assumption | with_reducible intro _ | ((with_reducible refine Sub.tr ?_ hm); exact rfl) | with_reducible apply Keeps.ite | with_reducible apply KeepsP.ite | with_reducible apply State.each_keeps | with_reducible apply State.loopApply_keeps | with_reducible apply ok_keeps | with_reducible apply State.lpTake_keeps | with_reducible apply State.lpMod_keeps | with_reducible apply State.wr_keeps | with_reducible apply State.setBit_keeps | with_reducible apply State.lpeLoadShow_keeps | simp -zeta only [KeepsP.pair, KeepsQ.pair] | with_reducible apply KeepsP.fst | split | with_reducible refine Keeps.eqFst (by assumption) ?_

theorem execLpeSwap_keeps {s0 : Orig} {s : State} (h : Keeps s0 s)  (hm : Sub 550561382920 s0.m) : KeepsR s0 (execLpeSwap s) := by
  unfold execLpeSwap
  try dsimp only
  repeat' first | with_reducible assumption | with_reducible intro _ | ((with_reducible refine Sub.tr ?_ hm); exact rfl) | with_reducible apply Keeps.ite | with_reducible apply KeepsR.ok | with_reducible apply KeepsR.ite | with_reducible apply KeepsP.ite | with_reducible apply ok_keeps | with_reducible apply State.command_keeps | with_reducible apply refuse_keeps | with_reducible apply State.event_keeps | with_reducible apply State.setBit_keeps | simp -zeta only [KeepsP.pair, KeepsQ.pair] | with_reducible apply KeepsP.fst | split | with_reducible refine Keeps.eqFst (by assumption) ?_ | with_reducible refine Keeps.eqNext (by assumption) ?_

theorem execLpeSwapCancel_keeps {s0 : Orig} {s : State} (h : Keeps s0 s)  (hm : Sub 550561382920 s0.m) : KeepsR s0 (execLpeSwapCancel s) := by
  unfold execLpeSwapCancel
  try dsimp only
  repeat' first | with_reducible assumption | with_reducible intro _ | ((with_reducible refine Sub.tr ?_ hm); exact rfl) | with_reducible apply Keeps.ite | with_reducible apply KeepsR.ok | with_reducible apply KeepsR.ite | with_reducible apply KeepsP.ite | with_reducible apply ok_keeps | with_reducible apply State.cancel_keeps | with_reducible apply State.setBit_keeps | simp -zeta only [KeepsP.pair, KeepsQ.pair] | with_reducible apply KeepsP.fst | split | with_reducible refine Keeps.eqFst (by assumption) ?_ | with_reducible refine Keeps.eqNext (by assumption) ?_

theorem execLpeClearFault_keeps {s0 : Orig} {s : State} (h : Keeps s0 s)  (hm : Sub 9346654405128 s0.m) : KeepsR s0 (execLpeClearFault s) := by
  unfold execLpeClearFault
  try dsimp only
  repeat' first | with_reducible assumption | with_reducible intro _ | ((with_reducible refine Sub.tr ?_ hm); exact rfl) | with_reducible apply Keeps.ite | with_reducible apply KeepsR.ok | with_reducible apply KeepsR.ite | with_reducible apply KeepsP.ite | with_reducible apply ok_keeps | with_reducible apply State.command_keeps | with_reducible apply State.setBit_keeps | with_reducible apply State.setF_keeps | with_reducible apply done_keeps | with_reducible apply State.lpMod_keeps | with_reducible apply State.lpShow_keeps | simp -zeta only [KeepsP.pair, KeepsQ.pair] | with_reducible apply KeepsP.fst | split | with_reducible refine Keeps.eqFst (by assumption) ?_ | with_reducible refine Keeps.eqNext (by assumption) ?_

theorem execLpePreload_keeps {s0 : Orig} {s : State} (h : Keeps s0 s)  (hm : Sub 9346654405128 s0.m) : KeepsR s0 (execLpePreload s) := by
  unfold execLpePreload
  try dsimp only
  repeat' first | with_reducible assumption | with_reducible intro _ | ((with_reducible refine Sub.tr ?_ hm); exact rfl) | with_reducible apply Keeps.ite | with_reducible apply KeepsR.ok | with_reducible apply KeepsR.ite | with_reducible apply KeepsP.ite | with_reducible apply ok_keeps | with_reducible apply State.command_keeps | with_reducible apply done_keeps | with_reducible apply State.lpMod_keeps | simp -zeta only [KeepsP.pair, KeepsQ.pair] | with_reducible apply KeepsP.fst | split | with_reducible refine Keeps.eqFst (by assumption) ?_ | with_reducible refine Keeps.eqNext (by assumption) ?_

theorem execLpeClearCounts_keeps {s0 : Orig} {s : State} (h : Keeps s0 s)  (hm : Sub 550561382920 s0.m) : KeepsR s0 (execLpeClearCounts s) := by
  unfold execLpeClearCounts
  try dsimp only
  repeat' first | with_reducible assumption | with_reducible intro _ | ((with_reducible refine Sub.tr ?_ hm); exact rfl) | with_reducible apply Keeps.ite | with_reducible apply KeepsR.ok | with_reducible apply KeepsR.ite | with_reducible apply KeepsP.ite | with_reducible apply State.each_keeps | with_reducible apply State.when_keeps | with_reducible apply ok_keeps | with_reducible apply State.command_keeps | with_reducible apply State.wr_keeps | with_reducible apply done_keeps | with_reducible apply State.setBit_keeps | simp -zeta only [KeepsP.pair, KeepsQ.pair] | with_reducible apply KeepsP.fst | split | with_reducible refine Keeps.eqFst (by assumption) ?_ | with_reducible refine Keeps.eqNext (by assumption) ?_

end Sys2Proof.Machine
end

