-- ==== Sys2Proof/Laws/KeepsCamera.lean ====
section
/-! SUPPORT. The operations of Machine/Camera.lean keep the queue of commands and the canonical form, and change no part outside
their footprint. -/

set_option linter.unusedSimpArgs false
set_option linter.unusedVariables false
set_option Elab.async false

namespace Sys2Proof.Machine

theorem State.camMod_keeps {s0 : Orig} {s : State} (h : Keeps s0 s) (n : Nat) (f : CamCh → CamCh) (hm : Sub 2251799813685248 s0.m) : Keeps s0 (State.camMod s n f) := by
  unfold State.camMod
  try dsimp only
  repeat' first | with_reducible assumption | with_reducible intro _ | ((with_reducible refine Sub.tr ?_ hm); exact rfl) | with_reducible apply Keeps.ite | with_reducible apply State.putCam_keeps | split

theorem State.count_keeps {s0 : Orig} {s : State} (h : Keeps s0 s) (o : Nat) (hm : Sub 32 s0.m) : Keeps s0 (State.count s o) := by
  unfold State.count
  try dsimp only
  repeat' first | with_reducible assumption | with_reducible intro _ | ((with_reducible refine Sub.tr ?_ hm); exact rfl) | with_reducible apply Keeps.ite | with_reducible apply State.wrN_keeps | split

theorem State.linkTrain_keeps {s0 : Orig} {s : State} (h : Keeps s0 s) (j : Nat) (gears : BitVec 5) (hm : Sub 2252350106632232 s0.m) : Keeps s0 (State.linkTrain s j gears) := by
  unfold State.linkTrain
  try dsimp only
  repeat' first | with_reducible assumption | with_reducible intro _ | ((with_reducible refine Sub.tr ?_ hm); exact rfl) | with_reducible apply Keeps.ite | with_reducible apply State.setF_keeps | with_reducible apply State.putCam_keeps | with_reducible apply State.event_keeps | split

theorem State.camDiscard_keeps {s0 : Orig} {s : State} (h : Keeps s0 s) (j : Nat) (hm : Sub 32 s0.m) : Keeps s0 (State.camDiscard s j) := by
  unfold State.camDiscard
  try dsimp only
  repeat' first | with_reducible assumption | with_reducible intro _ | ((with_reducible refine Sub.tr ?_ hm); exact rfl) | with_reducible apply Keeps.ite | with_reducible apply State.incF_keeps | split

theorem State.camPkt_keeps {s0 : Orig} {s : State} (h : Keeps s0 s) (j : Nat) (pk : CamPkt) (hm : Sub 32 s0.m) : KeepsP s0 (State.camPkt s j pk) := by
  unfold State.camPkt
  try dsimp only
  repeat' first | with_reducible assumption | with_reducible intro _ | ((with_reducible refine Sub.tr ?_ hm); exact rfl) | with_reducible apply Keeps.ite | with_reducible apply KeepsP.ite | with_reducible apply State.wrN_keeps | with_reducible apply State.camDiscard_keeps | with_reducible apply State.incF_keeps | simp -zeta only [KeepsP.pair, KeepsQ.pair] | with_reducible apply KeepsP.fst | split | with_reducible refine Keeps.eqFst (by assumption) ?_

theorem State.camRecord_keeps {s0 : Orig} {s : State} (h : Keeps s0 s) (n : Nat) (f : CamFrame) (rest : List Byte) (hm : Sub 2252005980504066 s0.m) : Keeps s0 (State.camRecord s n f rest) := by
  unfold State.camRecord
  try dsimp only
  repeat' first | with_reducible assumption | with_reducible intro _ | ((with_reducible refine Sub.tr ?_ hm); exact rfl) | with_reducible apply Keeps.ite | with_reducible apply State.engLE_keeps | with_reducible apply State.engStore_keeps | with_reducible apply State.camMod_keeps | split

theorem State.camShow_keeps {s0 : Orig} {s : State} (h : Keeps s0 s)  (hm : Sub 32 s0.m) : Keeps s0 (State.camShow s) := by
  unfold State.camShow
  try dsimp only
  repeat' first | with_reducible assumption | with_reducible intro _ | ((with_reducible refine Sub.tr ?_ hm); exact rfl) | with_reducible apply Keeps.ite | with_reducible apply State.setF_keeps | with_reducible apply State.setBit_keeps | split

theorem State.camDrop_keeps {s0 : Orig} {s : State} (h : Keeps s0 s) (n : Nat) (f : CamFrame) (reason : Nat) (hm : Sub 2252556273451050 s0.m) : Keeps s0 (State.camDrop s n f reason) := by
  unfold State.camDrop
  try dsimp only
  repeat' first | with_reducible assumption | with_reducible intro _ | ((with_reducible refine Sub.tr ?_ hm); exact rfl) | with_reducible apply Keeps.ite | with_reducible apply State.count_keeps | with_reducible apply State.wrN_keeps | with_reducible apply State.setF_keeps | with_reducible apply State.camRecord_keeps | with_reducible apply State.event_keeps | split

theorem State.camTestRun_keeps {s0 : Orig} {s : State} (h : Keeps s0 s) (n : Nat) (tp : Word) (hm : Sub 550292946984 s0.m) : Keeps s0 (State.camTestRun s n tp) := by
  unfold State.camTestRun
  try dsimp only
  repeat' first | with_reducible assumption | with_reducible intro _ | ((with_reducible refine Sub.tr ?_ hm); exact rfl) | with_reducible apply Keeps.ite | with_reducible apply State.incF_keeps | with_reducible apply State.setBit_keeps | with_reducible apply State.setF_keeps | with_reducible apply State.event_keeps | split

theorem State.camCount_keeps {s0 : Orig} {s : State} (h : Keeps s0 s) (n : Nat) (hm : Sub 2251799813685280 s0.m) : Keeps s0 (State.camCount s n) := by
  unfold State.camCount
  try dsimp only
  repeat' first | with_reducible assumption | with_reducible intro _ | ((with_reducible refine Sub.tr ?_ hm); exact rfl) | with_reducible apply Keeps.ite | with_reducible apply State.camMod_keeps | with_reducible apply State.count_keeps | split

theorem State.camTestInline_keeps {s0 : Orig} {s : State} (h : Keeps s0 s) (n : Nat) (tp : Word) (room : Bool) (hm : Sub 550292946984 s0.m) : Keeps s0 (State.camTestInline s n tp room) := by
  unfold State.camTestInline
  try dsimp only
  repeat' first | with_reducible assumption | with_reducible intro _ | ((with_reducible refine Sub.tr ?_ hm); exact rfl) | with_reducible apply Keeps.ite | with_reducible apply State.camTestRun_keeps | with_reducible apply State.incF_keeps | split

theorem State.camPixelsOut_keeps {s0 : Orig} {s : State} (h : Keeps s0 s) (n out : Nat) (f : CamFrame) (im : List (List (Nat × Nat × Nat))) (hm : Sub 2252005980504066 s0.m) : Keeps s0 (State.camPixelsOut s n out f im) := by
  unfold State.camPixelsOut
  try dsimp only
  repeat' first | with_reducible assumption | with_reducible intro _ | ((with_reducible refine Sub.tr ?_ hm); exact rfl) | with_reducible apply Keeps.ite | with_reducible apply State.engStore_keeps | with_reducible apply State.putCam_keeps | split

theorem State.camDeliver_keeps {s0 : Orig} {s : State} (h : Keeps s0 s) (n : Nat) (f : CamFrame) (t : Nat) (hm : Sub 2252556273451050 s0.m) : Keeps s0 (State.camDeliver s n f t) := by
  unfold State.camDeliver
  try dsimp only
  repeat' first | with_reducible assumption | with_reducible intro _ | ((with_reducible refine Sub.tr ?_ hm); exact rfl) | with_reducible apply Keeps.ite | with_reducible apply State.camPixelsOut_keeps | with_reducible apply State.camMod_keeps | with_reducible apply State.camRecord_keeps | with_reducible apply State.setF_keeps | with_reducible apply State.event_keeps | with_reducible apply State.wrN_keeps | with_reducible apply State.camCount_keeps | split

theorem State.camNext_keeps {s0 : Orig} {s : State} (h : Keeps s0 s)  (hm : Sub 2251799813685280 s0.m) : Keeps s0 (State.camNext s) := by
  unfold State.camNext
  try dsimp only
  repeat' first | with_reducible assumption | with_reducible intro _ | ((with_reducible refine Sub.tr ?_ hm); exact rfl) | with_reducible apply Keeps.ite | with_reducible apply State.putCam_keeps | with_reducible apply State.camShow_keeps | split

theorem State.camEnqueue_keeps {s0 : Orig} {s : State} (h : Keeps s0 s) (j : CamJob) (hm : Sub 2252556273451050 s0.m) : Keeps s0 (State.camEnqueue s j) := by
  unfold State.camEnqueue
  try dsimp only
  repeat' first | with_reducible assumption | with_reducible intro _ | ((with_reducible refine Sub.tr ?_ hm); exact rfl) | with_reducible apply Keeps.ite | with_reducible apply State.putCam_keeps | with_reducible apply State.camDrop_keeps | with_reducible apply State.camNext_keeps | split

theorem State.camFill_keeps {s0 : Orig} {s : State} (h : Keeps s0 s) (n : Nat) (f : CamFrame) (hm : Sub 206166818818 s0.m) : Keeps s0 (State.camFill s n f) := by
  unfold State.camFill
  try dsimp only
  repeat' first | with_reducible assumption | with_reducible intro _ | ((with_reducible refine Sub.tr ?_ hm); exact rfl) | with_reducible apply Keeps.ite | with_reducible apply State.each_keeps | with_reducible apply State.engStore_keeps | split

theorem State.camStopDone_keeps {s0 : Orig} {s : State} (h : Keeps s0 s)  (hm : Sub 550561382440 s0.m) : Keeps s0 (State.camStopDone s) := by
  unfold State.camStopDone
  try dsimp only
  repeat' first | with_reducible assumption | with_reducible intro _ | ((with_reducible refine Sub.tr ?_ hm); exact rfl) | with_reducible apply Keeps.ite | with_reducible apply State.cmdEnd_keeps | with_reducible apply ok_keeps | split

theorem State.camParam_keeps {s0 : Orig} {s : State} (h : Keeps s0 s) (n : Nat) (hm : Sub 2252350375067688 s0.m) : Keeps s0 (State.camParam s n) := by
  unfold State.camParam
  try dsimp only
  repeat' first | with_reducible assumption | with_reducible intro _ | ((with_reducible refine Sub.tr ?_ hm); exact rfl) | with_reducible apply Keeps.ite | with_reducible apply State.camMod_keeps | with_reducible apply State.setBit_keeps | with_reducible apply State.cmdEndIf_keeps | with_reducible apply ok_keeps | split

theorem State.camHalt_keeps {s0 : Orig} {s : State} (h : Keeps s0 s) (n : Nat) (hm : Sub 2252350375067688 s0.m) : Keeps s0 (State.camHalt s n) := by
  unfold State.camHalt
  try dsimp only
  repeat' first | with_reducible assumption | with_reducible intro _ | ((with_reducible refine Sub.tr ?_ hm); exact rfl) | with_reducible apply Keeps.ite | with_reducible apply State.camMod_keeps | with_reducible apply State.setBit_keeps | with_reducible apply State.camParam_keeps | with_reducible apply State.camStopDone_keeps | split

theorem State.camEnd_keeps {s0 : Orig} {s : State} (h : Keeps s0 s) (n t : Nat) (more : List Nat) (tp : Word) (room : Bool) (hm : Sub 2252556541886506 s0.m) : Keeps s0 (State.camEnd s n t more tp room) := by
  unfold State.camEnd
  try dsimp only
  repeat' first | with_reducible assumption | with_reducible intro _ | ((with_reducible refine Sub.tr ?_ hm); exact rfl) | with_reducible apply Keeps.ite | with_reducible apply State.camMod_keeps | with_reducible apply State.camHalt_keeps | with_reducible apply State.setF_keeps | with_reducible apply State.event_keeps | with_reducible apply State.incF_keeps | with_reducible apply State.camDeliver_keeps | with_reducible apply State.camTestInline_keeps | with_reducible apply State.camFill_keeps | with_reducible apply State.camEnqueue_keeps | split

theorem State.camStarted_keeps {s0 : Orig} {s : State} (h : Keeps s0 s) (n t : Nat) (hm : Sub 2251799813685280 s0.m) : Keeps s0 (State.camStarted s n t) := by
  unfold State.camStarted
  try dsimp only
  repeat' first | with_reducible assumption | with_reducible intro _ | ((with_reducible refine Sub.tr ?_ hm); exact rfl) | with_reducible apply Keeps.ite | with_reducible apply State.camMod_keeps | with_reducible apply State.wrN_keeps | split

theorem State.camOpen_keeps {s0 : Orig} {s : State} (h : Keeps s0 s) (n no t ecc : Nat) (hm : Sub 2252556273451050 s0.m) : Keeps s0 (State.camOpen s n no t ecc) := by
  unfold State.camOpen
  try dsimp only
  repeat' first | with_reducible assumption | with_reducible intro _ | ((with_reducible refine Sub.tr ?_ hm); exact rfl) | with_reducible apply Keeps.ite | with_reducible apply State.camMod_keeps | with_reducible apply State.camDrop_keeps | with_reducible apply State.putCam_keeps | with_reducible apply State.camShow_keeps | split

theorem State.camFillEnd_keeps {s0 : Orig} {s : State} (h : Keeps s0 s) (n t : Nat) (hm : Sub 2252005980504066 s0.m) : Keeps s0 (State.camFillEnd s n t) := by
  unfold State.camFillEnd
  try dsimp only
  repeat' first | with_reducible assumption | with_reducible intro _ | ((with_reducible refine Sub.tr ?_ hm); exact rfl) | with_reducible apply Keeps.ite | with_reducible apply State.camMod_keeps | with_reducible apply State.camPixelsOut_keeps | split

theorem execFrameStartPacket_keeps {s0 : Orig} {s : State} (h : Keeps s0 s) (n : Fin 8) (p : CamStamp) (hm : Sub 2252556541886506 s0.m) : KeepsR s0 (execFrameStartPacket n p s) := by
  unfold execFrameStartPacket
  try dsimp only
  repeat' first | with_reducible assumption | with_reducible intro _ | ((with_reducible refine Sub.tr ?_ hm); exact rfl) | with_reducible apply Keeps.ite | with_reducible apply KeepsR.ok | with_reducible apply KeepsR.ite | with_reducible apply KeepsP.ite | with_reducible apply State.camPkt_keeps | with_reducible apply ok_keeps | with_reducible apply State.camEnd_keeps | with_reducible apply State.camFillEnd_keeps | with_reducible apply State.camStarted_keeps | with_reducible apply State.camParam_keeps | with_reducible apply State.camOpen_keeps | simp -zeta only [KeepsP.pair, KeepsQ.pair] | with_reducible apply KeepsP.fst | split | with_reducible refine Keeps.eqFst (by assumption) ?_ | with_reducible refine Keeps.eqNext (by assumption) ?_

theorem execFrameEndPacket_keeps {s0 : Orig} {s : State} (h : Keeps s0 s) (n : Fin 8) (p : CamStamp) (tp : Word) (blank : Bool) (hm : Sub 2252556541886506 s0.m) : KeepsR s0 (execFrameEndPacket n p tp blank s) := by
  unfold execFrameEndPacket
  try dsimp only
  repeat' first | with_reducible assumption | with_reducible intro _ | ((with_reducible refine Sub.tr ?_ hm); exact rfl) | with_reducible apply Keeps.ite | with_reducible apply KeepsR.ok | with_reducible apply KeepsR.ite | with_reducible apply KeepsP.ite | with_reducible apply State.camPkt_keeps | with_reducible apply ok_keeps | with_reducible apply State.camMod_keeps | with_reducible apply State.camEnd_keeps | simp -zeta only [KeepsP.pair, KeepsQ.pair] | with_reducible apply KeepsP.fst | split | with_reducible refine Keeps.eqFst (by assumption) ?_ | with_reducible refine Keeps.eqNext (by assumption) ?_

theorem execNoFeTimeout_keeps {s0 : Orig} {s : State} (h : Keeps s0 s) (n : Fin 8) (e : CamEnding) (hm : Sub 2252556541886506 s0.m) : KeepsR s0 (execNoFeTimeout n e s) := by
  unfold execNoFeTimeout
  try dsimp only
  repeat' first | with_reducible assumption | with_reducible intro _ | ((with_reducible refine Sub.tr ?_ hm); exact rfl) | with_reducible apply Keeps.ite | with_reducible apply KeepsR.ok | with_reducible apply KeepsR.ite | with_reducible apply ok_keeps | with_reducible apply State.camEnd_keeps | with_reducible apply State.camHalt_keeps | split | with_reducible refine Keeps.eqNext (by assumption) ?_

theorem State.camLine_keeps {s0 : Orig} {s : State} (h : Keeps s0 s) (n e : Nat) (f : CamFrame) (crcBad : Bool) (data : List Byte) (hm : Sub 2252005980504098 s0.m) : Keeps s0 (State.camLine s n e f crcBad data) := by
  unfold State.camLine
  try dsimp only
  repeat' first | with_reducible assumption | with_reducible intro _ | ((with_reducible refine Sub.tr ?_ hm); exact rfl) | with_reducible apply Keeps.ite | with_reducible apply State.camMod_keeps | with_reducible apply State.count_keeps | with_reducible apply State.engStore_keeps | split

theorem State.camEmb_keeps {s0 : Orig} {s : State} (h : Keeps s0 s) (n : Nat) (f : CamFrame) (crcBad : Bool) (data : List Byte) (hm : Sub 2251799813685248 s0.m) : Keeps s0 (State.camEmb s n f crcBad data) := by
  unfold State.camEmb
  try dsimp only
  repeat' first | with_reducible assumption | with_reducible intro _ | ((with_reducible refine Sub.tr ?_ hm); exact rfl) | with_reducible apply Keeps.ite | with_reducible apply State.camMod_keeps | split

theorem execLongPacket_keeps {s0 : Orig} {s : State} (h : Keeps s0 s) (n : Fin 8) (typ : BitVec 6) (pk : CamPkt) (crcBad : Bool) (data : List Byte) (hm : Sub 2252005980504098 s0.m) : KeepsR s0 (execLongPacket n typ pk crcBad data s) := by
  unfold execLongPacket
  try dsimp only
  repeat' first | with_reducible assumption | with_reducible intro _ | ((with_reducible refine Sub.tr ?_ hm); exact rfl) | with_reducible apply Keeps.ite | with_reducible apply KeepsR.ok | with_reducible apply KeepsR.ite | with_reducible apply KeepsP.ite | with_reducible apply ok_keeps | with_reducible apply State.camPkt_keeps | with_reducible apply State.camDiscard_keeps | with_reducible apply State.count_keeps | with_reducible apply State.incF_keeps | with_reducible apply State.camEmb_keeps | with_reducible apply State.camLine_keeps | simp -zeta only [KeepsP.pair, KeepsQ.pair] | with_reducible apply KeepsP.fst | split | with_reducible refine Keeps.eqFst (by assumption) ?_ | with_reducible refine Keeps.eqNext (by assumption) ?_

theorem State.camLinkEnd_keeps {s0 : Orig} {s : State} (h : Keeps s0 s) (j t : Nat) (tp : Word) (blank : Bool) (hm : Sub 2252556541886506 s0.m) : Keeps s0 (State.camLinkEnd s j t tp blank) := by
  unfold State.camLinkEnd
  try dsimp only
  repeat' first | with_reducible assumption | with_reducible intro _ | ((with_reducible refine Sub.tr ?_ hm); exact rfl) | with_reducible apply Keeps.ite | with_reducible apply State.each_keeps | with_reducible apply State.camEnd_keeps | split

theorem execLinkLost_keeps {s0 : Orig} {s : State} (h : Keeps s0 s) (j : Fin 2) (e : CamEnding) (hm : Sub 2252556541886506 s0.m) : KeepsR s0 (execLinkLost j e s) := by
  unfold execLinkLost
  try dsimp only
  repeat' first | with_reducible assumption | with_reducible intro _ | ((with_reducible refine Sub.tr ?_ hm); exact rfl) | with_reducible apply Keeps.ite | with_reducible apply KeepsR.ok | with_reducible apply KeepsR.ite | with_reducible apply ok_keeps | with_reducible apply State.setF_keeps | with_reducible apply State.incF_keeps | with_reducible apply State.event_keeps | with_reducible apply State.camLinkEnd_keeps | split | with_reducible refine Keeps.eqNext (by assumption) ?_

theorem State.camLinkDown_keeps {s0 : Orig} {s : State} (h : Keeps s0 s) (j : Nat) (hm : Sub 2252556541886506 s0.m) : Keeps s0 (State.camLinkDown s j) := by
  unfold State.camLinkDown
  try dsimp only
  repeat' first | with_reducible assumption | with_reducible intro _ | ((with_reducible refine Sub.tr ?_ hm); exact rfl) | with_reducible apply Keeps.ite | with_reducible apply State.setF_keeps | with_reducible apply State.event_keeps | with_reducible apply State.camLinkEnd_keeps | split

theorem State.trigTake_keeps {s0 : Orig} {s : State} (h : Keeps s0 s) (n : Nat) (hm : Sub 2251799813685248 s0.m) : Keeps s0 (State.trigTake s n) := by
  unfold State.trigTake
  try dsimp only
  repeat' first | with_reducible assumption | with_reducible intro _ | ((with_reducible refine Sub.tr ?_ hm); exact rfl) | with_reducible apply Keeps.ite | with_reducible apply State.camMod_keeps | split

theorem State.trigWrite_keeps {s0 : Orig} {s : State} (h : Keeps s0 s) (n : Nat) (hm : Sub 2251799813685248 s0.m) : Keeps s0 (State.trigWrite s n) := by
  unfold State.trigWrite
  try dsimp only
  repeat' first | with_reducible assumption | with_reducible intro _ | ((with_reducible refine Sub.tr ?_ hm); exact rfl) | with_reducible apply Keeps.ite | with_reducible apply State.trigTake_keeps | with_reducible apply State.camMod_keeps | split

theorem execFrameTrigger_keeps {s0 : Orig} {s : State} (h : Keeps s0 s) (n : Fin 8) (hm : Sub 2251799813685248 s0.m) : KeepsR s0 (execFrameTrigger n s) := by
  unfold execFrameTrigger
  try dsimp only
  repeat' first | with_reducible assumption | with_reducible intro _ | ((with_reducible refine Sub.tr ?_ hm); exact rfl) | with_reducible apply Keeps.ite | with_reducible apply KeepsR.ok | with_reducible apply KeepsR.ite | with_reducible apply State.trigTake_keeps | with_reducible apply ok_keeps | with_reducible apply State.camMod_keeps | split | with_reducible refine Keeps.eqNext (by assumption) ?_

theorem execFrameProcessed_keeps {s0 : Orig} {s : State} (h : Keeps s0 s) (t : Nat) (tp : Word) (hm : Sub 2252556273451050 s0.m) : KeepsR s0 (execFrameProcessed t tp s) := by
  unfold execFrameProcessed
  try dsimp only
  repeat' first | with_reducible assumption | with_reducible intro _ | ((with_reducible refine Sub.tr ?_ hm); exact rfl) | with_reducible apply Keeps.ite | with_reducible apply KeepsR.ok | with_reducible apply KeepsR.ite | with_reducible apply ok_keeps | with_reducible apply State.putCam_keeps | with_reducible apply State.camTestRun_keeps | with_reducible apply State.camNext_keeps | with_reducible apply State.camDeliver_keeps | split | with_reducible refine Keeps.eqNext (by assumption) ?_

theorem State.camBegin_keeps {s0 : Orig} {s : State} (h : Keeps s0 s) (n : Nat) (hm : Sub 2251799813685280 s0.m) : Keeps s0 (State.camBegin s n) := by
  unfold State.camBegin
  try dsimp only
  repeat' first | with_reducible assumption | with_reducible intro _ | ((with_reducible refine Sub.tr ?_ hm); exact rfl) | with_reducible apply Keeps.ite | with_reducible apply State.camMod_keeps | with_reducible apply State.setBit_keeps | split

theorem State.camProbe_keeps {s0 : Orig} {s : State} (h : Keeps s0 s) (n : Nat) (p : CamProbe) (hm : Sub 131072 s0.m := by first | assumption | exact Sub.tr rfl (by assumption)) : KeepsP s0 (State.camProbe s n p) := by
  unfold State.camProbe
  try dsimp only
  repeat' first | with_reducible assumption | with_reducible intro _ | ((with_reducible refine Sub.tr ?_ hm); exact rfl) | with_reducible apply Keeps.ite | with_reducible apply KeepsR.ok | with_reducible apply KeepsR.ite | with_reducible apply KeepsP.ite | with_reducible apply State.wrN_keeps | simp -zeta only [KeepsP.pair, KeepsQ.pair] | with_reducible apply KeepsP.fst | split | with_reducible refine Keeps.eqFst (by assumption) ?_ | with_reducible refine Keeps.eqNext (by assumption) ?_

theorem State.camProbeAll_keeps {s0 : Orig} {s : State} (h : Keeps s0 s) (ps : List CamProbe) (l : List Nat) (hm : Sub 131072 s0.m := by first | assumption | exact Sub.tr rfl (by assumption)) : KeepsP s0 (State.camProbeAll ps l s) := by
  induction l generalizing s with
  | nil => exact h
  | cons n t ih =>
    unfold State.camProbeAll
    have k := State.camProbe_keeps h n (ps.getD n ⟨0, 0, 0, 0, false⟩)
    split
    · exact ih (Keeps.eqFst (by assumption) k)
    · exact k

theorem State.camStartGo_keeps {s0 : Orig} {s : State} (h : Keeps s0 s) (a : List Word) (hm : Sub 2252350106763304 s0.m) : KeepsP s0 (State.camStartGo s a) := by
  unfold State.camStartGo
  try dsimp only
  repeat' first | with_reducible assumption | with_reducible intro _ | ((with_reducible refine Sub.tr ?_ hm); exact rfl) | with_reducible apply Keeps.ite | with_reducible apply KeepsR.ok | with_reducible apply KeepsR.ite | with_reducible apply KeepsP.ite | with_reducible apply State.each_keeps | with_reducible apply State.camProbeAll_keeps | with_reducible apply State.event_keeps | with_reducible apply State.camBegin_keeps | with_reducible apply ok_keeps | simp -zeta only [KeepsP.pair, KeepsQ.pair] | with_reducible apply KeepsP.fst | split | with_reducible refine Keeps.eqFst (by assumption) ?_ | with_reducible refine Keeps.eqNext (by assumption) ?_

theorem execCamStart_keeps {s0 : Orig} {s : State} (h : Keeps s0 s) (found : List CamProbe) (hm : Sub 2252350375198760 s0.m) : KeepsR s0 (execCamStart found s) := by
  unfold execCamStart
  try dsimp only
  repeat' first | with_reducible assumption | with_reducible intro _ | ((with_reducible refine Sub.tr ?_ hm); exact rfl) | with_reducible apply Keeps.ite | with_reducible apply KeepsR.ok | with_reducible apply KeepsR.ite | with_reducible apply KeepsP.ite | with_reducible apply ok_keeps | with_reducible apply State.command_keeps | with_reducible apply refuse_keeps | with_reducible apply State.putCam_keeps | with_reducible apply State.camStartGo_keeps | with_reducible apply done_keeps | simp -zeta only [KeepsP.pair, KeepsQ.pair] | with_reducible apply KeepsP.fst | split | with_reducible refine Keeps.eqFst (by assumption) ?_ | with_reducible refine Keeps.eqNext (by assumption) ?_

theorem State.camStartWait_keeps {s0 : Orig} {s : State} (h : Keeps s0 s)  (hm : Sub 2252350375198760 s0.m) : Keeps s0 (State.camStartWait s) := by
  unfold State.camStartWait
  try dsimp only
  repeat' first | with_reducible assumption | with_reducible intro _ | ((with_reducible refine Sub.tr ?_ hm); exact rfl) | with_reducible apply Keeps.ite | with_reducible apply KeepsP.ite | with_reducible apply State.cmdEnd_keeps | with_reducible apply State.camStartGo_keeps | simp -zeta only [KeepsP.pair, KeepsQ.pair] | with_reducible apply KeepsP.fst | split | with_reducible refine Keeps.eqFst (by assumption) ?_

theorem execLinkTrained_keeps {s0 : Orig} {s : State} (h : Keeps s0 s) (j : Fin 2) (gears : BitVec 5) (hm : Sub 2252350375198760 s0.m) : KeepsR s0 (execLinkTrained j gears s) := by
  unfold execLinkTrained
  try dsimp only
  repeat' first | with_reducible assumption | with_reducible intro _ | ((with_reducible refine Sub.tr ?_ hm); exact rfl) | with_reducible apply Keeps.ite | with_reducible apply KeepsR.ok | with_reducible apply KeepsR.ite | with_reducible apply ok_keeps | with_reducible apply State.linkTrain_keeps | with_reducible apply State.camStartWait_keeps | split | with_reducible refine Keeps.eqNext (by assumption) ?_

theorem execTrainingRetry_keeps {s0 : Orig} {s : State} (h : Keeps s0 s) (j : Fin 2) (gears : BitVec 5) (hm : Sub 2252350375198760 s0.m) : KeepsR s0 (execTrainingRetry j gears s) := by
  unfold execTrainingRetry
  try dsimp only
  repeat' first | with_reducible assumption | with_reducible intro _ | ((with_reducible refine Sub.tr ?_ hm); exact rfl) | with_reducible apply Keeps.ite | with_reducible apply KeepsR.ok | with_reducible apply KeepsR.ite | with_reducible apply ok_keeps | with_reducible apply State.linkTrain_keeps | with_reducible apply State.camStartWait_keeps | split | with_reducible refine Keeps.eqNext (by assumption) ?_

theorem execCamStop_keeps {s0 : Orig} {s : State} (h : Keeps s0 s)  (hm : Sub 2252350375067688 s0.m) : KeepsR s0 (execCamStop s) := by
  unfold execCamStop
  try dsimp only
  repeat' first | with_reducible assumption | with_reducible intro _ | ((with_reducible refine Sub.tr ?_ hm); exact rfl) | with_reducible apply Keeps.ite | with_reducible apply KeepsR.ok | with_reducible apply KeepsR.ite | with_reducible apply KeepsP.ite | with_reducible apply State.each_keeps | with_reducible apply ok_keeps | with_reducible apply State.command_keeps | with_reducible apply done_keeps | with_reducible apply State.camMod_keeps | simp -zeta only [KeepsP.pair, KeepsQ.pair] | with_reducible apply KeepsP.fst | split | with_reducible refine Keeps.eqFst (by assumption) ?_ | with_reducible refine Keeps.eqNext (by assumption) ?_

theorem execParamLoad_keeps {s0 : Orig} {s : State} (h : Keeps s0 s)  (hm : Sub 2252350375067688 s0.m) : KeepsR s0 (execParamLoad s) := by
  unfold execParamLoad
  try dsimp only
  repeat' first | with_reducible assumption | with_reducible intro _ | ((with_reducible refine Sub.tr ?_ hm); exact rfl) | with_reducible apply Keeps.ite | with_reducible apply KeepsR.ok | with_reducible apply KeepsR.ite | with_reducible apply KeepsP.ite | with_reducible apply ok_keeps | with_reducible apply State.command_keeps | with_reducible apply State.event_keeps | with_reducible apply State.camMod_keeps | with_reducible apply done_keeps | with_reducible apply State.setBit_keeps | simp -zeta only [KeepsP.pair, KeepsQ.pair] | with_reducible apply KeepsP.fst | split | with_reducible refine Keeps.eqFst (by assumption) ?_ | with_reducible refine Keeps.eqNext (by assumption) ?_

theorem execCamClearCounts_keeps {s0 : Orig} {s : State} (h : Keeps s0 s)  (hm : Sub 550561382440 s0.m) : KeepsR s0 (execCamClearCounts s) := by
  unfold execCamClearCounts
  try dsimp only
  repeat' first | with_reducible assumption | with_reducible intro _ | ((with_reducible refine Sub.tr ?_ hm); exact rfl) | with_reducible apply Keeps.ite | with_reducible apply KeepsR.ok | with_reducible apply KeepsR.ite | with_reducible apply KeepsP.ite | with_reducible apply State.each_keeps | with_reducible apply ok_keeps | with_reducible apply State.command_keeps | with_reducible apply State.wrN_keeps | with_reducible apply State.setF_keeps | with_reducible apply done_keeps | simp -zeta only [KeepsP.pair, KeepsQ.pair] | with_reducible apply KeepsP.fst | split | with_reducible refine Keeps.eqFst (by assumption) ?_ | with_reducible refine Keeps.eqNext (by assumption) ?_

theorem State.camDiscardAll_keeps {s0 : Orig} {s : State} (h : Keeps s0 s)  (hm : Sub 2251799813685280 s0.m) : Keeps s0 (State.camDiscardAll s) := by
  unfold State.camDiscardAll
  try dsimp only
  repeat' first | with_reducible assumption | with_reducible intro _ | ((with_reducible refine Sub.tr ?_ hm); exact rfl) | with_reducible apply Keeps.ite | with_reducible apply State.each_keeps | with_reducible apply State.putCam_keeps | with_reducible apply State.camMod_keeps | with_reducible apply State.setBit_keeps | with_reducible apply State.setF_keeps | with_reducible apply State.camShow_keeps | split

theorem State.camCoreReset_keeps {s0 : Orig} {s : State} (h : Keeps s0 s)  (hm : Sub 2251799813685280 s0.m) : Keeps s0 (State.camCoreReset s) := by
  unfold State.camCoreReset
  try dsimp only
  repeat' first | with_reducible assumption | with_reducible intro _ | ((with_reducible refine Sub.tr ?_ hm); exact rfl) | with_reducible apply Keeps.ite | with_reducible apply State.resetWindow_keeps | with_reducible apply State.putCam_keeps | split

end Sys2Proof.Machine
end

