-- ==== Sys2Proof/Laws/KeepsCan.lean ====
section
/-! SUPPORT. The operations of Machine/Can.lean keep the queue of commands and the canonical form, and change no part outside
their footprint. -/

set_option linter.unusedSimpArgs false
set_option linter.unusedVariables false
set_option Elab.async false

namespace Sys2Proof.Machine

theorem State.canErrs_keeps {s0 : Orig} {s : State} (h : Keeps s0 s) (n tec rec : Nat) (hm : Sub 282025269690376 s0.m) : Keeps s0 (State.canErrs s n tec rec) := by
  unfold State.canErrs
  try dsimp only
  repeat' first | with_reducible assumption | with_reducible intro _ | ((with_reducible refine Sub.tr ?_ hm); exact rfl) | with_reducible apply Keeps.ite | with_reducible apply State.setF_keeps | with_reducible apply State.canSetState_keeps | with_reducible apply State.incF_keeps | with_reducible apply State.canEvent_keeps | with_reducible apply State.cchMod_keeps | split

theorem State.canErrFrame_keeps {s0 : Orig} {s : State} (h : Keeps s0 s) (n : Nat) (e : CanErr) (hm : Sub 32768 s0.m) : Keeps s0 (State.canErrFrame s n e) := by
  unfold State.canErrFrame
  try dsimp only
  repeat' first | with_reducible assumption | with_reducible intro _ | ((with_reducible refine Sub.tr ?_ hm); exact rfl) | with_reducible apply Keeps.ite | with_reducible apply State.setF_keeps | with_reducible apply State.setBit_keeps | split

theorem State.sesSet_keeps {s0 : Orig} {s : State} (h : Keeps s0 s) (n k : Nat) (c : CanSes) (hm : Sub 281474976710656 s0.m) : Keeps s0 (State.sesSet s n k c) := by
  unfold State.sesSet
  try dsimp only
  repeat' first | with_reducible assumption | with_reducible intro _ | ((with_reducible refine Sub.tr ?_ hm); exact rfl) | with_reducible apply Keeps.ite | with_reducible apply State.cchMod_keeps | split

theorem State.sesWait_keeps {s0 : Orig} {s : State} (h : Keeps s0 s) (n k ms : Nat) (hm : Sub 281474976710656 s0.m) : Keeps s0 (State.sesWait s n k ms) := by
  unfold State.sesWait
  try dsimp only
  repeat' first | with_reducible assumption | with_reducible intro _ | ((with_reducible refine Sub.tr ?_ hm); exact rfl) | with_reducible apply Keeps.ite | with_reducible apply State.sesSet_keeps | split

theorem State.sesEnd_keeps {s0 : Orig} {s : State} (h : Keeps s0 s) (n k : Nat) (r : Result) (reason : Nat) (hm : Sub 282025269690376 s0.m) : Keeps s0 (State.sesEnd s n k r reason) := by
  unfold State.sesEnd
  try dsimp only
  repeat' first | with_reducible assumption | with_reducible intro _ | ((with_reducible refine Sub.tr ?_ hm); exact rfl) | with_reducible apply Keeps.ite | with_reducible apply ok_keeps | with_reducible apply State.wrN_keeps | with_reducible apply State.setF_keeps | with_reducible apply State.sesSet_keeps | with_reducible apply State.cchMod_keeps | with_reducible apply State.canEvent_keeps | split

theorem State.sesQueue_keeps {s0 : Orig} {s : State} (h : Keeps s0 s) (n k : Nat) (f : CanFrame) (hm : Sub 281474976710656 s0.m) : Keeps s0 (State.sesQueue s n k f) := by
  unfold State.sesQueue
  try dsimp only
  repeat' first | with_reducible assumption | with_reducible intro _ | ((with_reducible refine Sub.tr ?_ hm); exact rfl) | with_reducible apply Keeps.ite | with_reducible apply State.cchMod_keeps | split

theorem State.sesCm_keeps {s0 : Orig} {s : State} (h : Keeps s0 s) (n k prio : Nat) (etp : Bool) (dst pgn : Nat) (bs : List Nat) (hm : Sub 281474976710656 s0.m) : Keeps s0 (State.sesCm s n k prio etp dst pgn bs) := by
  unfold State.sesCm
  try dsimp only
  repeat' first | with_reducible assumption | with_reducible intro _ | ((with_reducible refine Sub.tr ?_ hm); exact rfl) | with_reducible apply Keeps.ite | with_reducible apply State.sesQueue_keeps | split

theorem State.sesDt_keeps {s0 : Orig} {s : State} (h : Keeps s0 s) (n k i seq dst : Nat) (hm : Sub 281474976710656 s0.m) : Keeps s0 (State.sesDt s n k i seq dst) := by
  unfold State.sesDt
  try dsimp only
  repeat' first | with_reducible assumption | with_reducible intro _ | ((with_reducible refine Sub.tr ?_ hm); exact rfl) | with_reducible apply Keeps.ite | with_reducible apply State.sesQueue_keeps | split

theorem State.sesAbortTx_keeps {s0 : Orig} {s : State} (h : Keeps s0 s) (n k : Nat) (etp : Bool) (dst pgn reason : Nat) (hm : Sub 281474976710656 s0.m) : Keeps s0 (State.sesAbortTx s n k etp dst pgn reason) := by
  unfold State.sesAbortTx
  try dsimp only
  repeat' first | with_reducible assumption | with_reducible intro _ | ((with_reducible refine Sub.tr ?_ hm); exact rfl) | with_reducible apply Keeps.ite | with_reducible apply State.sesCm_keeps | split

theorem State.sesCts_keeps {s0 : Orig} {s : State} (h : Keeps s0 s) (n k : Nat) (hm : Sub 281474976710656 s0.m) : Keeps s0 (State.sesCts s n k) := by
  unfold State.sesCts
  try dsimp only
  repeat' first | with_reducible assumption | with_reducible intro _ | ((with_reducible refine Sub.tr ?_ hm); exact rfl) | with_reducible apply Keeps.ite | with_reducible apply State.sesSet_keeps | with_reducible apply State.sesWait_keeps | with_reducible apply State.sesCm_keeps | split

theorem State.sesEoma_keeps {s0 : Orig} {s : State} (h : Keeps s0 s) (n k : Nat) (hm : Sub 282025269690376 s0.m) : Keeps s0 (State.sesEoma s n k) := by
  unfold State.sesEoma
  try dsimp only
  repeat' first | with_reducible assumption | with_reducible intro _ | ((with_reducible refine Sub.tr ?_ hm); exact rfl) | with_reducible apply Keeps.ite | with_reducible apply State.sesCm_keeps | with_reducible apply State.sesEnd_keeps | with_reducible apply ok_keeps | split

theorem State.sesRts_keeps {s0 : Orig} {s : State} (h : Keeps s0 s) (n src pgn len win : Nat) (etp bam : Bool) (hm : Sub 281474976743424 s0.m) : Keeps s0 (State.sesRts s n src pgn len win etp bam) := by
  unfold State.sesRts
  try dsimp only
  repeat' first | with_reducible assumption | with_reducible intro _ | ((with_reducible refine Sub.tr ?_ hm); exact rfl) | with_reducible apply Keeps.ite | with_reducible apply State.incF_keeps | with_reducible apply State.sesAbortTx_keeps | with_reducible apply State.sesSet_keeps | with_reducible apply State.sesWait_keeps | with_reducible apply State.sesCts_keeps | split

theorem State.sesClear_keeps {s0 : Orig} {s : State} (h : Keeps s0 s) (n k m next : Nat) (hm : Sub 281474976710656 s0.m) : Keeps s0 (State.sesClear s n k m next) := by
  unfold State.sesClear
  try dsimp only
  repeat' first | with_reducible assumption | with_reducible intro _ | ((with_reducible refine Sub.tr ?_ hm); exact rfl) | with_reducible apply Keeps.ite | with_reducible apply State.each_keeps | with_reducible apply State.sesWait_keeps | with_reducible apply State.sesCm_keeps | with_reducible apply State.sesDt_keeps | with_reducible apply State.sesSet_keeps | split

theorem State.sesData_keeps {s0 : Orig} {s : State} (h : Keeps s0 s) (n k seq : Nat) (bs : List Byte) (hm : Sub 282231436509194 s0.m) : Keeps s0 (State.sesData s n k seq bs) := by
  unfold State.sesData
  try dsimp only
  repeat' first | with_reducible assumption | with_reducible intro _ | ((with_reducible refine Sub.tr ?_ hm); exact rfl) | with_reducible apply Keeps.ite | with_reducible apply State.engStore_keeps | with_reducible apply State.sesSet_keeps | with_reducible apply State.sesEoma_keeps | with_reducible apply State.sesCts_keeps | with_reducible apply State.sesWait_keeps | split

theorem State.sesCmRx_keeps {s0 : Orig} {s : State} (h : Keeps s0 s) (n src dst : Nat) (etp : Bool) (d : List Byte) (hm : Sub 282025269690376 s0.m) : KeepsO s0 (State.sesCmRx s n src dst etp d) := by
  unfold State.sesCmRx
  try dsimp only
  repeat' first | with_reducible assumption | with_reducible intro _ | ((with_reducible refine Sub.tr ?_ hm); exact rfl) | with_reducible apply Keeps.ite | with_reducible apply KeepsO.some | with_reducible exact KeepsO.none | with_reducible apply KeepsO.ite | with_reducible apply KeepsO.map | with_reducible apply State.sesRts_keeps | with_reducible apply State.sesClear_keeps | with_reducible apply State.sesEnd_keeps | with_reducible apply ok_keeps | with_reducible apply State.sesSet_keeps | split | with_reducible refine Keeps.eqSome (by assumption) ?_

theorem State.sesRx_keeps {s0 : Orig} {s : State} (h : Keeps s0 s) (n : Nat) (f : CanRx) (hm : Sub 282231436509194 s0.m) : KeepsO s0 (State.sesRx s n f) := by
  unfold State.sesRx
  try dsimp only
  repeat' first | with_reducible assumption | with_reducible intro _ | ((with_reducible refine Sub.tr ?_ hm); exact rfl) | with_reducible apply Keeps.ite | with_reducible apply KeepsO.some | with_reducible exact KeepsO.none | with_reducible apply KeepsO.ite | with_reducible apply KeepsO.map | with_reducible apply State.sesCmRx_keeps | with_reducible apply State.sesData_keeps | split | with_reducible refine Keeps.eqSome (by assumption) ?_

theorem State.sesStart_keeps {s0 : Orig} {s : State} (h : Keeps s0 s) (n k : Nat) (v : Word) (phase : Nat) (hm : Sub 281474976743424 s0.m) : Keeps s0 (State.sesStart s n k v phase) := by
  unfold State.sesStart
  try dsimp only
  repeat' first | with_reducible assumption | with_reducible intro _ | ((with_reducible refine Sub.tr ?_ hm); exact rfl) | with_reducible apply Keeps.ite | with_reducible apply State.wr_keeps | with_reducible apply State.sesSet_keeps | with_reducible apply State.wrN_keeps | split

theorem execIsbSend_keeps {s0 : Orig} {s : State} (h : Keeps s0 s) (n : Fin 2) (k : Fin 8) (v : Word) (hm : Sub 282025269690376 s0.m) : KeepsR s0 (execIsbSend n k v s) := by
  unfold execIsbSend
  try dsimp only
  repeat' first | with_reducible assumption | with_reducible intro _ | ((with_reducible refine Sub.tr ?_ hm); exact rfl) | with_reducible apply Keeps.ite | with_reducible apply KeepsR.ok | with_reducible apply KeepsR.ite | with_reducible apply State.sesStart_keeps | with_reducible apply ok_keeps | with_reducible apply State.sesEnd_keeps | with_reducible apply State.sesSet_keeps | with_reducible apply State.sesCm_keeps | with_reducible apply State.canKick_keeps | with_reducible apply State.wr_keeps | split | with_reducible refine Keeps.eqNext (by assumption) ?_

theorem execIsbArmReceive_keeps {s0 : Orig} {s : State} (h : Keeps s0 s) (n : Fin 2) (k : Fin 8) (v : Word) (hm : Sub 281474976743424 s0.m) : KeepsR s0 (execIsbArmReceive n k v s) := by
  unfold execIsbArmReceive
  try dsimp only
  repeat' first | with_reducible assumption | with_reducible intro _ | ((with_reducible refine Sub.tr ?_ hm); exact rfl) | with_reducible apply Keeps.ite | with_reducible apply KeepsR.ok | with_reducible apply KeepsR.ite | with_reducible apply ok_keeps | with_reducible apply State.sesStart_keeps | with_reducible apply State.wr_keeps | split | with_reducible refine Keeps.eqNext (by assumption) ?_

theorem execIsbTimeout_keeps {s0 : Orig} {s : State} (h : Keeps s0 s) (n : Fin 2) (k : Fin 8) (hm : Sub 72339619408281608 s0.m) : KeepsR s0 (execIsbTimeout n k s) := by
  unfold execIsbTimeout
  try dsimp only
  repeat' first | with_reducible assumption | with_reducible intro _ | ((with_reducible refine Sub.tr ?_ hm); exact rfl) | with_reducible apply Keeps.ite | with_reducible apply KeepsR.ok | with_reducible apply KeepsR.ite | with_reducible apply State.pass_keeps | with_reducible apply State.sesEnd_keeps | with_reducible apply State.sesAbortTx_keeps | with_reducible apply ok_keeps | with_reducible apply State.canKick_keeps | split | with_reducible refine Keeps.eqNext (by assumption) ?_

theorem execBamPacket_keeps {s0 : Orig} {s : State} (h : Keeps s0 s) (n : Fin 2) (k : Fin 8) (hm : Sub 72339619408281608 s0.m) : KeepsR s0 (execBamPacket n k s) := by
  unfold execBamPacket
  try dsimp only
  repeat' first | with_reducible assumption | with_reducible intro _ | ((with_reducible refine Sub.tr ?_ hm); exact rfl) | with_reducible apply Keeps.ite | with_reducible apply KeepsR.ok | with_reducible apply KeepsR.ite | with_reducible apply State.pass_keeps | with_reducible apply State.sesWait_keeps | with_reducible apply State.sesDt_keeps | with_reducible apply State.cchMod_keeps | with_reducible apply ok_keeps | with_reducible apply State.sesEnd_keeps | with_reducible apply State.canKick_keeps | with_reducible apply State.sesSet_keeps | split | with_reducible refine Keeps.eqNext (by assumption) ?_

theorem State.fifoPut_keeps {s0 : Orig} {s : State} (h : Keeps s0 s) (n f : Nat) (x : CanFrame) (hm : Sub 282025269690376 s0.m) : Keeps s0 (State.fifoPut s n f x) := by
  unfold State.fifoPut
  try dsimp only
  repeat' first | with_reducible assumption | with_reducible intro _ | ((with_reducible refine Sub.tr ?_ hm); exact rfl) | with_reducible apply Keeps.ite | with_reducible apply State.incF_keeps | with_reducible apply State.canEvent_keeps | with_reducible apply State.cchMod_keeps | with_reducible apply State.fifoShow_keeps | split

theorem State.fifoPop_keeps {s0 : Orig} {s : State} (h : Keeps s0 s) (n f : Nat) (hm : Sub 9223653511831519232 s0.m) : Keeps s0 (State.fifoPop s n f) := by
  unfold State.fifoPop
  try dsimp only
  repeat' first | with_reducible assumption | with_reducible intro _ | ((with_reducible refine Sub.tr ?_ hm); exact rfl) | with_reducible apply Keeps.ite | with_reducible apply State.cchMod_keeps | with_reducible apply State.fifoShow_keeps | with_reducible apply State.partClear_keeps | split

theorem State.mbTake_keeps {s0 : Orig} {s : State} (h : Keeps s0 s) (n b : Nat) (x : CanFrame) (hm : Sub 550427197448 s0.m) : Keeps s0 (State.mbTake s n b x) := by
  unfold State.mbTake
  try dsimp only
  repeat' first | with_reducible assumption | with_reducible intro _ | ((with_reducible refine Sub.tr ?_ hm); exact rfl) | with_reducible apply Keeps.ite | with_reducible apply State.mbStore_keeps | with_reducible apply State.mbLost_keeps | with_reducible apply State.mbPut_keeps | with_reducible apply State.canEvent_keeps | with_reducible apply State.slotsTake_keeps | split

theorem State.mbReceive_keeps {s0 : Orig} {s : State} (h : Keeps s0 s) (n b : Nat) (x : CanFrame) (hm : Sub 282025403908104 s0.m) : Keeps s0 (State.mbReceive s n b x) := by
  unfold State.mbReceive
  try dsimp only
  repeat' first | with_reducible assumption | with_reducible intro _ | ((with_reducible refine Sub.tr ?_ hm); exact rfl) | with_reducible apply Keeps.ite | with_reducible apply State.cchMod_keeps | with_reducible apply State.mbLost_keeps | with_reducible apply State.mbTake_keeps | split

theorem State.canPlace_keeps {s0 : Orig} {s : State} (h : Keeps s0 s) (n : Nat) (x : CanFrame) (hm : Sub 282025403908104 s0.m) : Keeps s0 (State.canPlace s n x) := by
  unfold State.canPlace
  try dsimp only
  repeat' first | with_reducible assumption | with_reducible intro _ | ((with_reducible refine Sub.tr ?_ hm); exact rfl) | with_reducible apply Keeps.ite | with_reducible apply State.mbReceive_keeps | with_reducible apply State.fifoPut_keeps | with_reducible apply State.incF_keeps | split

theorem execFrameReceived_keeps {s0 : Orig} {s : State} (h : Keeps s0 s) (n : Fin 8) (sof : Nat) (f : CanRx) (bad : Option CanErr) (hm : Sub 282231570726922 s0.m) : KeepsR s0 (execFrameReceived n sof f bad s) := by
  unfold execFrameReceived
  try dsimp only
  repeat' first | with_reducible assumption | with_reducible intro _ | ((with_reducible refine Sub.tr ?_ hm); exact rfl) | with_reducible apply Keeps.ite | with_reducible apply KeepsR.ok | with_reducible apply KeepsR.ite | with_reducible apply KeepsO.some | with_reducible exact KeepsO.none | with_reducible apply KeepsO.ite | with_reducible apply KeepsO.map | with_reducible apply State.canErrFrame_keeps | with_reducible apply ok_keeps | with_reducible apply State.canErrs_keeps | with_reducible apply State.sesRx_keeps | with_reducible apply State.canKick_keeps | with_reducible apply State.canPlace_keeps | split | with_reducible refine Keeps.eqSome (by assumption) ?_ | with_reducible refine Keeps.eqNext (by assumption) ?_

theorem execFifoPop_keeps {s0 : Orig} {s : State} (h : Keeps s0 s) (n : Fin 8) (f : Fin 2) (v : Word) (hm : Sub 9223653511831519232 s0.m) : KeepsR s0 (execFifoPop n f v s) := by
  unfold execFifoPop
  try dsimp only
  repeat' first | with_reducible assumption | with_reducible intro _ | ((with_reducible refine Sub.tr ?_ hm); exact rfl) | with_reducible apply Keeps.ite | with_reducible apply KeepsR.ok | with_reducible apply KeepsR.ite | with_reducible apply ok_keeps | with_reducible apply State.fifoPop_keeps | split | with_reducible refine Keeps.eqNext (by assumption) ?_

theorem execMbLock_keeps {s0 : Orig} {s : State} (h : Keeps s0 s) (n : Fin 8) (b : Fin 128) (hm : Sub 32768 s0.m) : KeepsR s0 (execMbLock n b s) := by
  unfold execMbLock
  try dsimp only
  repeat' first | with_reducible assumption | with_reducible intro _ | ((with_reducible refine Sub.tr ?_ hm); exact rfl) | with_reducible apply Keeps.ite | with_reducible apply KeepsR.ok | with_reducible apply KeepsR.ite | with_reducible apply ok_keeps | with_reducible apply State.mbPut_keeps | split | with_reducible refine Keeps.eqNext (by assumption) ?_

theorem execMbUnlock_keeps {s0 : Orig} {s : State} (h : Keeps s0 s) (n : Fin 8) (b : Fin 128) (hm : Sub 282025403908104 s0.m) : KeepsR s0 (execMbUnlock n b s) := by
  unfold execMbUnlock
  try dsimp only
  repeat' first | with_reducible assumption | with_reducible intro _ | ((with_reducible refine Sub.tr ?_ hm); exact rfl) | with_reducible apply Keeps.ite | with_reducible apply KeepsR.ok | with_reducible apply KeepsR.ite | with_reducible apply State.mbPut_keeps | with_reducible apply ok_keeps | with_reducible apply State.cchMod_keeps | with_reducible apply State.mbTake_keeps | with_reducible apply State.canKick_keeps | split | with_reducible refine Keeps.eqNext (by assumption) ?_

theorem execTxreqWrite_keeps {s0 : Orig} {s : State} (h : Keeps s0 s) (n : Fin 8) (i : Fin 4) (v : Word) (hm : Sub 281474976743424 s0.m) : KeepsR s0 (execTxreqWrite n i v s) := by
  unfold execTxreqWrite
  try dsimp only
  repeat' first | with_reducible assumption | with_reducible intro _ | ((with_reducible refine Sub.tr ?_ hm); exact rfl) | with_reducible apply Keeps.ite | with_reducible apply KeepsR.ok | with_reducible apply KeepsR.ite | with_reducible apply ok_keeps | with_reducible apply State.canRequest_keeps | split | with_reducible refine Keeps.eqNext (by assumption) ?_

theorem State.txEnd_keeps {s0 : Orig} {s : State} (h : Keeps s0 s) (n b r : Nat) (clear : Bool) (hm : Sub 32768 s0.m) : Keeps s0 (State.txEnd s n b r clear) := by
  unfold State.txEnd
  try dsimp only
  repeat' first | with_reducible assumption | with_reducible intro _ | ((with_reducible refine Sub.tr ?_ hm); exact rfl) | with_reducible apply Keeps.ite | with_reducible apply State.setF_keeps | with_reducible apply State.mbPut_keeps | split

theorem execTxcancelWrite_keeps {s0 : Orig} {s : State} (h : Keeps s0 s) (n : Fin 8) (i : Fin 4) (v : Word) (hm : Sub 282025538125832 s0.m) : KeepsR s0 (execTxcancelWrite n i v s) := by
  unfold execTxcancelWrite
  try dsimp only
  repeat' first | with_reducible assumption | with_reducible intro _ | ((with_reducible refine Sub.tr ?_ hm); exact rfl) | with_reducible apply Keeps.ite | with_reducible apply KeepsR.ok | with_reducible apply KeepsR.ite | with_reducible apply KeepsP.ite | with_reducible apply State.each_keeps | with_reducible apply ok_keeps | with_reducible apply State.cchMod_keeps | with_reducible apply State.cancel_keeps | with_reducible apply State.txEnd_keeps | simp -zeta only [KeepsP.pair, KeepsQ.pair] | with_reducible apply KeepsP.fst | split | with_reducible refine Keeps.eqFst (by assumption) ?_ | with_reducible refine Keeps.eqNext (by assumption) ?_

theorem State.tdcShow_keeps {s0 : Orig} {s : State} (h : Keeps s0 s) (n : Nat) (fmt : Word) (delay : Nat) (hm : Sub 32768 s0.m) : Keeps s0 (State.tdcShow s n fmt delay) := by
  unfold State.tdcShow
  try dsimp only
  repeat' first | with_reducible assumption | with_reducible intro _ | ((with_reducible refine Sub.tr ?_ hm); exact rfl) | with_reducible apply Keeps.ite | with_reducible apply State.setF_keeps | with_reducible apply State.setBit_keeps | split

theorem State.txBuffer_keeps {s0 : Orig} {s : State} (h : Keeps s0 s) (n b : Nat) (t : CanTx) (sent : Bool) (hm : Sub 282025538125832 s0.m) : Keeps s0 (State.txBuffer s n b t sent) := by
  unfold State.txBuffer
  try dsimp only
  repeat' first | with_reducible assumption | with_reducible intro _ | ((with_reducible refine Sub.tr ?_ hm); exact rfl) | with_reducible apply Keeps.ite | with_reducible apply KeepsP.ite | with_reducible apply State.mbTime_keeps | with_reducible apply State.txEnd_keeps | with_reducible apply State.cancel_keeps | with_reducible apply State.cchMod_keeps | simp -zeta only [KeepsP.pair, KeepsQ.pair] | with_reducible apply KeepsP.fst | split | with_reducible refine Keeps.eqFst (by assumption) ?_

theorem State.txError_keeps {s0 : Orig} {s : State} (h : Keeps s0 s) (n : Nat) (e : CanErr) (hm : Sub 282025269690376 s0.m) : Keeps s0 (State.txError s n e) := by
  unfold State.txError
  try dsimp only
  repeat' first | with_reducible assumption | with_reducible intro _ | ((with_reducible refine Sub.tr ?_ hm); exact rfl) | with_reducible apply Keeps.ite | with_reducible apply State.canErrFrame_keeps | with_reducible apply State.canErrs_keeps | split

theorem execTxDone_keeps {s0 : Orig} {s : State} (h : Keeps s0 s) (n : Fin 8) (dt : Nat) (r : CanEnd) (delay : Fin 128) (hm : Sub 72339619676717064 s0.m) : KeepsR s0 (execTxDone n dt r delay s) := by
  unfold execTxDone
  try dsimp only
  repeat' first | with_reducible assumption | with_reducible intro _ | ((with_reducible refine Sub.tr ?_ hm); exact rfl) | with_reducible apply Keeps.ite | with_reducible apply KeepsR.ok | with_reducible apply KeepsR.ite | with_reducible apply ok_keeps | with_reducible apply State.pass_keeps | with_reducible apply State.cchMod_keeps | with_reducible apply State.tdcShow_keeps | with_reducible apply State.canErrs_keeps | with_reducible apply State.txError_keeps | with_reducible apply State.txBuffer_keeps | with_reducible apply State.canEvent_keeps | with_reducible apply State.canKick_keeps | with_reducible apply State.tmsgQueue_keeps | split | with_reducible refine Keeps.eqNext (by assumption) ?_

theorem execTxPeriod_keeps {s0 : Orig} {s : State} (h : Keeps s0 s) (n : Fin 8) (b : Fin 128) (hm : Sub 72339069115334656 s0.m) : KeepsR s0 (execTxPeriod n b s) := by
  unfold execTxPeriod
  try dsimp only
  repeat' first | with_reducible assumption | with_reducible intro _ | ((with_reducible refine Sub.tr ?_ hm); exact rfl) | with_reducible apply Keeps.ite | with_reducible apply KeepsR.ok | with_reducible apply KeepsR.ite | with_reducible apply State.pass_keeps | with_reducible apply State.cchMod_keeps | with_reducible apply State.mbOver_keeps | with_reducible apply ok_keeps | with_reducible apply State.canRequest_keeps | split | with_reducible refine Keeps.eqNext (by assumption) ?_

theorem State.canClear_keeps {s0 : Orig} {s : State} (h : Keeps s0 s) (n : Nat) (hm : Sub 9223653511831519232 s0.m) : Keeps s0 (State.canClear s n) := by
  unfold State.canClear
  try dsimp only
  repeat' first | with_reducible assumption | with_reducible intro _ | ((with_reducible refine Sub.tr ?_ hm); exact rfl) | with_reducible apply Keeps.ite | with_reducible apply State.each_keeps | with_reducible apply State.wr_keeps | with_reducible apply State.setF_keeps | with_reducible apply State.cchMod_keeps | with_reducible apply State.fifoDiscard_keeps | split

theorem State.canStart_keeps {s0 : Orig} {s : State} (h : Keeps s0 s) (n : Nat) (hm : Sub 9223654062124466184 s0.m) : Keeps s0 (State.canStart s n) := by
  unfold State.canStart
  try dsimp only
  repeat' first | with_reducible assumption | with_reducible intro _ | ((with_reducible refine Sub.tr ?_ hm); exact rfl) | with_reducible apply Keeps.ite | with_reducible apply State.canClear_keeps | with_reducible apply State.wrN_keeps | with_reducible apply State.setBit_keeps | with_reducible apply State.canSetState_keeps | split

theorem State.canStop_keeps {s0 : Orig} {s : State} (h : Keeps s0 s) (n : Nat) (hm : Sub 282025269690376 s0.m) : Keeps s0 (State.canStop s n) := by
  unfold State.canStop
  try dsimp only
  repeat' first | with_reducible assumption | with_reducible intro _ | ((with_reducible refine Sub.tr ?_ hm); exact rfl) | with_reducible apply Keeps.ite | with_reducible apply State.each_keeps | with_reducible apply State.wr_keeps | with_reducible apply State.cchMod_keeps | with_reducible apply State.setF_keeps | with_reducible apply State.setBit_keeps | with_reducible apply State.canSetState_keeps | with_reducible apply State.slotInvalid_keeps | split

theorem execCanStart_keeps {s0 : Orig} {s : State} (h : Keeps s0 s)  (hm : Sub 9223654062392901640 s0.m) : KeepsR s0 (execCanStart s) := by
  unfold execCanStart
  try dsimp only
  repeat' first | with_reducible assumption | with_reducible intro _ | ((with_reducible refine Sub.tr ?_ hm); exact rfl) | with_reducible apply Keeps.ite | with_reducible apply KeepsR.ok | with_reducible apply KeepsR.ite | with_reducible apply KeepsP.ite | with_reducible apply State.each_keeps | with_reducible apply ok_keeps | with_reducible apply State.command_keeps | with_reducible apply refuse_keeps | with_reducible apply done_keeps | with_reducible apply State.canStart_keeps | simp -zeta only [KeepsP.pair, KeepsQ.pair] | with_reducible apply KeepsP.fst | split | with_reducible refine Keeps.eqFst (by assumption) ?_ | with_reducible refine Keeps.eqNext (by assumption) ?_

theorem execCanStop_keeps {s0 : Orig} {s : State} (h : Keeps s0 s)  (hm : Sub 282025538125832 s0.m) : KeepsR s0 (execCanStop s) := by
  unfold execCanStop
  try dsimp only
  repeat' first | with_reducible assumption | with_reducible intro _ | ((with_reducible refine Sub.tr ?_ hm); exact rfl) | with_reducible apply Keeps.ite | with_reducible apply KeepsR.ok | with_reducible apply KeepsR.ite | with_reducible apply KeepsP.ite | with_reducible apply State.each_keeps | with_reducible apply ok_keeps | with_reducible apply State.command_keeps | with_reducible apply done_keeps | with_reducible apply State.canStop_keeps | simp -zeta only [KeepsP.pair, KeepsQ.pair] | with_reducible apply KeepsP.fst | split | with_reducible refine Keeps.eqFst (by assumption) ?_ | with_reducible refine Keeps.eqNext (by assumption) ?_

theorem execBusIntegrated_keeps {s0 : Orig} {s : State} (h : Keeps s0 s) (n : Fin 8) (hm : Sub 282025269690376 s0.m) : KeepsR s0 (execBusIntegrated n s) := by
  unfold execBusIntegrated
  try dsimp only
  repeat' first | with_reducible assumption | with_reducible intro _ | ((with_reducible refine Sub.tr ?_ hm); exact rfl) | with_reducible apply Keeps.ite | with_reducible apply KeepsR.ok | with_reducible apply KeepsR.ite | with_reducible apply ok_keeps | with_reducible apply State.canSetState_keeps | with_reducible apply State.canKick_keeps | split | with_reducible refine Keeps.eqNext (by assumption) ?_

theorem execCanRecover_keeps {s0 : Orig} {s : State} (h : Keeps s0 s)  (hm : Sub 550561415176 s0.m) : KeepsR s0 (execCanRecover s) := by
  unfold execCanRecover
  try dsimp only
  repeat' first | with_reducible assumption | with_reducible intro _ | ((with_reducible refine Sub.tr ?_ hm); exact rfl) | with_reducible apply Keeps.ite | with_reducible apply KeepsR.ok | with_reducible apply KeepsR.ite | with_reducible apply KeepsP.ite | with_reducible apply State.each_keeps | with_reducible apply ok_keeps | with_reducible apply State.command_keeps | with_reducible apply done_keeps | with_reducible apply State.canSetState_keeps | simp -zeta only [KeepsP.pair, KeepsQ.pair] | with_reducible apply KeepsP.fst | split | with_reducible refine Keeps.eqFst (by assumption) ?_ | with_reducible refine Keeps.eqNext (by assumption) ?_

theorem execBusOffRecovered_keeps {s0 : Orig} {s : State} (h : Keeps s0 s) (n : Fin 8) (hm : Sub 282025269690376 s0.m) : KeepsR s0 (execBusOffRecovered n s) := by
  unfold execBusOffRecovered
  try dsimp only
  repeat' first | with_reducible assumption | with_reducible intro _ | ((with_reducible refine Sub.tr ?_ hm); exact rfl) | with_reducible apply Keeps.ite | with_reducible apply KeepsR.ok | with_reducible apply KeepsR.ite | with_reducible apply State.setF_keeps | with_reducible apply ok_keeps | with_reducible apply State.canSetState_keeps | with_reducible apply State.canKick_keeps | split | with_reducible refine Keeps.eqNext (by assumption) ?_

theorem execSigTimeout_keeps {s0 : Orig} {s : State} (h : Keeps s0 s) (r : Fin 256) (hm : Sub 72058144431570952 s0.m) : KeepsR s0 (execSigTimeout r s) := by
  unfold execSigTimeout
  try dsimp only
  repeat' first | with_reducible assumption | with_reducible intro _ | ((with_reducible refine Sub.tr ?_ hm); exact rfl) | with_reducible apply Keeps.ite | with_reducible apply KeepsR.ok | with_reducible apply KeepsR.ite | with_reducible apply ok_keeps | with_reducible apply State.pass_keeps | with_reducible apply State.slotInvalid_keeps | split | with_reducible refine Keeps.eqNext (by assumption) ?_

theorem execIsbAbort_keeps {s0 : Orig} {s : State} (h : Keeps s0 s)  (hm : Sub 282025538125832 s0.m) : KeepsR s0 (execIsbAbort s) := by
  unfold execIsbAbort
  try dsimp only
  repeat' first | with_reducible assumption | with_reducible intro _ | ((with_reducible refine Sub.tr ?_ hm); exact rfl) | with_reducible apply Keeps.ite | with_reducible apply KeepsR.ok | with_reducible apply KeepsR.ite | with_reducible apply KeepsP.ite | with_reducible apply ok_keeps | with_reducible apply State.command_keeps | with_reducible apply done_keeps | with_reducible apply State.sesEnd_keeps | with_reducible apply State.sesAbortTx_keeps | with_reducible apply State.canKick_keeps | simp -zeta only [KeepsP.pair, KeepsQ.pair] | with_reducible apply KeepsP.fst | split | with_reducible refine Keeps.eqFst (by assumption) ?_ | with_reducible refine Keeps.eqNext (by assumption) ?_

theorem execCanClearCounts_keeps {s0 : Orig} {s : State} (h : Keeps s0 s)  (hm : Sub 550561415176 s0.m) : KeepsR s0 (execCanClearCounts s) := by
  unfold execCanClearCounts
  try dsimp only
  repeat' first | with_reducible assumption | with_reducible intro _ | ((with_reducible refine Sub.tr ?_ hm); exact rfl) | with_reducible apply Keeps.ite | with_reducible apply KeepsR.ok | with_reducible apply KeepsR.ite | with_reducible apply KeepsP.ite | with_reducible apply State.each_keeps | with_reducible apply ok_keeps | with_reducible apply State.command_keeps | with_reducible apply done_keeps | with_reducible apply State.wr_keeps | with_reducible apply State.setF_keeps | simp -zeta only [KeepsP.pair, KeepsQ.pair] | with_reducible apply KeepsP.fst | split | with_reducible refine Keeps.eqFst (by assumption) ?_ | with_reducible refine Keeps.eqNext (by assumption) ?_

theorem execTtCycle_keeps {s0 : Orig} {s : State} (h : Keeps s0 s) (n : Fin 8) (t : Nat) (r : CanRef) (hm : Sub 72339619408281608 s0.m) : KeepsR s0 (execTtCycle n t r s) := by
  unfold execTtCycle
  try dsimp only
  repeat' first | with_reducible assumption | with_reducible intro _ | ((with_reducible refine Sub.tr ?_ hm); exact rfl) | with_reducible apply Keeps.ite | with_reducible apply KeepsR.ok | with_reducible apply KeepsR.ite | with_reducible apply State.passTo_keeps | with_reducible apply State.setF_keeps | with_reducible apply State.wrN_keeps | with_reducible apply State.cchMod_keeps | with_reducible apply ok_keeps | with_reducible apply State.canEvent_keeps | split | with_reducible refine Keeps.eqNext (by assumption) ?_

theorem execTtWindow_keeps {s0 : Orig} {s : State} (h : Keeps s0 s) (n : Fin 8) (k : Fin 32) (idle : Nat) (hm : Sub 72339619408281608 s0.m) : KeepsR s0 (execTtWindow n k idle s) := by
  unfold execTtWindow
  try dsimp only
  repeat' first | with_reducible assumption | with_reducible intro _ | ((with_reducible refine Sub.tr ?_ hm); exact rfl) | with_reducible apply Keeps.ite | with_reducible apply KeepsR.ok | with_reducible apply KeepsR.ite | with_reducible apply State.passTo_keeps | with_reducible apply State.cchMod_keeps | with_reducible apply ok_keeps | with_reducible apply State.pass_keeps | with_reducible apply State.canKick_keeps | with_reducible apply State.incF_keeps | with_reducible apply State.canEvent_keeps | split | with_reducible refine Keeps.eqNext (by assumption) ?_

theorem execTtSyncOff_keeps {s0 : Orig} {s : State} (h : Keeps s0 s) (n : Fin 8) (hm : Sub 72058144431570952 s0.m) : KeepsR s0 (execTtSyncOff n s) := by
  unfold execTtSyncOff
  try dsimp only
  repeat' first | with_reducible assumption | with_reducible intro _ | ((with_reducible refine Sub.tr ?_ hm); exact rfl) | with_reducible apply Keeps.ite | with_reducible apply KeepsR.ok | with_reducible apply KeepsR.ite | with_reducible apply State.passTo_keeps | with_reducible apply State.setF_keeps | with_reducible apply ok_keeps | with_reducible apply State.incF_keeps | with_reducible apply State.canEvent_keeps | split | with_reducible refine Keeps.eqNext (by assumption) ?_

end Sys2Proof.Machine
end

