-- ==== Sys2Proof/Laws/KeepsCoil.lean ====
section
/-! SUPPORT. The operations of Machine/Coil.lean keep the queue of commands and the canonical form, and change no part outside
their footprint. -/

set_option linter.unusedSimpArgs false
set_option linter.unusedVariables false
set_option Elab.async false

namespace Sys2Proof.Machine

theorem State.vlvPin_keeps {s0 : Orig} {s : State} (h : Keeps s0 s) (n : Nat) (p : VPin) (hm : Sub 4398046511104 s0.m) : Keeps s0 (State.vlvPin s n p) := by
  unfold State.vlvPin
  try dsimp only
  repeat' first | with_reducible assumption | with_reducible intro _ | ((with_reducible refine Sub.tr ?_ hm); exact rfl) | with_reducible apply Keeps.ite | with_reducible apply State.vchMod_keeps | split

theorem execOpenLoad_keeps {s0 : Orig} {s : State} (h : Keeps s0 s) (n : Fin 32) (full : Bool) (current : Nat) (hm : Sub 4948339459080 s0.m) : KeepsR s0 (execOpenLoad n full current s) := by
  unfold execOpenLoad
  try dsimp only
  repeat' first | with_reducible assumption | with_reducible intro _ | ((with_reducible refine Sub.tr ?_ hm); exact rfl) | with_reducible apply Keeps.ite | with_reducible apply KeepsR.ok | with_reducible apply KeepsR.ite | with_reducible apply State.vlvMeasured_keeps | with_reducible apply State.vlvPin_keeps | with_reducible apply ok_keeps | with_reducible apply State.vlvSet_keeps | with_reducible apply State.vlvEvent_keeps | split | with_reducible refine Keeps.eqNext (by assumption) ?_

theorem State.vlvShortSup_keeps {s0 : Orig} {s : State} (h : Keeps s0 s) (n : Nat) (hm : Sub 4948339459080 s0.m) : Keeps s0 (State.vlvShortSup s n) := by
  unfold State.vlvShortSup
  try dsimp only
  repeat' first | with_reducible assumption | with_reducible intro _ | ((with_reducible refine Sub.tr ?_ hm); exact rfl) | with_reducible apply Keeps.ite | with_reducible apply State.vchMod_keeps | with_reducible apply State.vlvSet_keeps | with_reducible apply State.vlvLatched_keeps | with_reducible apply State.vlvEvent_keeps | split

theorem execShortSup_keeps {s0 : Orig} {s : State} (h : Keeps s0 s) (n : Fin 32) (current : Nat) (hm : Sub 4948607894536 s0.m) : KeepsR s0 (execShortSup n current s) := by
  unfold execShortSup
  try dsimp only
  repeat' first | with_reducible assumption | with_reducible intro _ | ((with_reducible refine Sub.tr ?_ hm); exact rfl) | with_reducible apply Keeps.ite | with_reducible apply KeepsR.ok | with_reducible apply KeepsR.ite | with_reducible apply ok_keeps | with_reducible apply State.vlvMeasured_keeps | with_reducible apply State.vlvShortSup_keeps | with_reducible apply State.vlvOffNow_keeps | with_reducible apply State.vlvSettle_keeps | split | with_reducible refine Keeps.eqNext (by assumption) ?_

theorem State.vlvTrip_keeps {s0 : Orig} {s : State} (h : Keeps s0 s) (g : Nat) (hm : Sub 4948607894536 s0.m) : Keeps s0 (State.vlvTrip s g) := by
  unfold State.vlvTrip
  try dsimp only
  repeat' first | with_reducible assumption | with_reducible intro _ | ((with_reducible refine Sub.tr ?_ hm); exact rfl) | with_reducible apply Keeps.ite | with_reducible apply State.each_keeps | with_reducible apply State.setBit_keeps | with_reducible apply State.vlvOffNow_keeps | with_reducible apply State.vlvLatched_keeps | with_reducible apply State.vlvEvent_keeps | split

theorem execGroupTrip_keeps {s0 : Orig} {s : State} (h : Keeps s0 s) (g : Fin 8) (c : Option (Fin 4)) (hm : Sub 4948607894536 s0.m) : KeepsR s0 (execGroupTrip g c s) := by
  unfold execGroupTrip
  try dsimp only
  repeat' first | with_reducible assumption | with_reducible intro _ | ((with_reducible refine Sub.tr ?_ hm); exact rfl) | with_reducible apply Keeps.ite | with_reducible apply KeepsR.ok | with_reducible apply KeepsR.ite | with_reducible apply State.each_keeps | with_reducible apply ok_keeps | with_reducible apply State.vlvPin_keeps | with_reducible apply State.vlvSet_keeps | with_reducible apply State.vlvEvent_keeps | with_reducible apply State.vlvTrip_keeps | with_reducible apply State.vlvSettle_keeps | split | with_reducible refine Keeps.eqNext (by assumption) ?_

theorem State.vlvOffOk_keeps {s0 : Orig} {s : State} (h : Keeps s0 s) (n : Nat) (untested : Bool) (hm : Sub 4398046512128 s0.m) : Keeps s0 (State.vlvOffOk s n untested) := by
  unfold State.vlvOffOk
  try dsimp only
  repeat' first | with_reducible assumption | with_reducible intro _ | ((with_reducible refine Sub.tr ?_ hm); exact rfl) | with_reducible apply Keeps.ite | with_reducible apply State.vlvSet_keeps | with_reducible apply State.vlvPin_keeps | split

theorem execOffStateTest_keeps {s0 : Orig} {s : State} (h : Keeps s0 s) (n : Fin 32) (v1 v2 v3 hsf batv : Nat) (hm : Sub 4948607894536 s0.m) : KeepsR s0 (execOffStateTest n v1 v2 v3 hsf batv s) := by
  unfold execOffStateTest
  try dsimp only
  repeat' first | with_reducible assumption | with_reducible intro _ | ((with_reducible refine Sub.tr ?_ hm); exact rfl) | with_reducible apply Keeps.ite | with_reducible apply KeepsR.ok | with_reducible apply KeepsR.ite | with_reducible apply ok_keeps | with_reducible apply State.vlvOffOk_keeps | with_reducible apply State.vlvSet_keeps | with_reducible apply State.vlvEvent_keeps | with_reducible apply State.vlvPin_keeps | with_reducible apply State.vlvShortSup_keeps | with_reducible apply State.vlvOffNow_keeps | with_reducible apply State.vlvSettle_keeps | split | with_reducible refine Keeps.eqNext (by assumption) ?_

theorem State.vlvBand_keeps {s0 : Orig} {s : State} (h : Keeps s0 s) (n : Nat) (t : Option Int) (hm : Sub 4948339459080 s0.m) : Keeps s0 (State.vlvBand s n t) := by
  unfold State.vlvBand
  try dsimp only
  repeat' first | with_reducible assumption | with_reducible intro _ | ((with_reducible refine Sub.tr ?_ hm); exact rfl) | with_reducible apply Keeps.ite | with_reducible apply State.setBit_keeps | with_reducible apply State.wrN_keeps | with_reducible apply State.vlvEvent_keeps | with_reducible apply State.vchMod_keeps | with_reducible apply State.vlvSet_keeps | with_reducible apply State.setF_keeps | split

theorem State.vlvBandRound_keeps {s0 : Orig} {s : State} (h : Keeps s0 s)  (hm : Sub 4948339459080 s0.m) : Keeps s0 (State.vlvBandRound s) := by
  unfold State.vlvBandRound
  try dsimp only
  repeat' first | with_reducible assumption | with_reducible intro _ | ((with_reducible refine Sub.tr ?_ hm); exact rfl) | with_reducible apply Keeps.ite | with_reducible apply State.each_keeps | with_reducible apply State.vlvBand_keeps | split

theorem State.vlvBandNow_keeps {s0 : Orig} {s : State} (h : Keeps s0 s) (n : Nat) (hm : Sub 4948339459080 s0.m) : Keeps s0 (State.vlvBandNow s n) := by
  unfold State.vlvBandNow
  try dsimp only
  repeat' first | with_reducible assumption | with_reducible intro _ | ((with_reducible refine Sub.tr ?_ hm); exact rfl) | with_reducible apply Keeps.ite | with_reducible apply State.vlvBand_keeps | split

theorem execCoilTempEstimate_keeps {s0 : Orig} {s : State} (h : Keeps s0 s) (n : Fin 32) (hsf duty current : Nat) (hm : Sub 4948339459080 s0.m) : KeepsR s0 (execCoilTempEstimate n hsf duty current s) := by
  unfold execCoilTempEstimate
  try dsimp only
  repeat' first | with_reducible assumption | with_reducible intro _ | ((with_reducible refine Sub.tr ?_ hm); exact rfl) | with_reducible apply Keeps.ite | with_reducible apply KeepsR.ok | with_reducible apply KeepsR.ite | with_reducible apply State.vlvMeasured_keeps | with_reducible apply State.vchMod_keeps | with_reducible apply ok_keeps | with_reducible apply State.vlvBandNow_keeps | split | with_reducible refine Keeps.eqNext (by assumption) ?_

theorem State.vlvDerate_keeps {s0 : Orig} {s : State} (h : Keeps s0 s) (n : Nat) (hm : Sub 4948607894536 s0.m) : Keeps s0 (State.vlvDerate s n) := by
  unfold State.vlvDerate
  try dsimp only
  repeat' first | with_reducible assumption | with_reducible intro _ | ((with_reducible refine Sub.tr ?_ hm); exact rfl) | with_reducible apply Keeps.ite | with_reducible apply State.vlvSet_keeps | with_reducible apply State.vlvRequest_keeps | split

theorem State.vlvLife_keeps {s0 : Orig} {s : State} (h : Keeps s0 s) (n e : Nat) (l : Ledger) (hm : Sub 4948742112264 s0.m) : Keeps s0 (State.vlvLife s n e l) := by
  unfold State.vlvLife
  try dsimp only
  repeat' first | with_reducible assumption | with_reducible intro _ | ((with_reducible refine Sub.tr ?_ hm); exact rfl) | with_reducible apply Keeps.ite | with_reducible apply State.drawn_keeps | with_reducible apply State.setF_keeps | with_reducible apply State.putVlv_keeps | with_reducible apply State.vlvEvent_keeps | with_reducible apply State.vlvDerate_keeps | split

theorem State.vlvUse_keeps {s0 : Orig} {s : State} (h : Keeps s0 s) (n ms : Nat) (hm : Sub 4948742112264 s0.m) : Keeps s0 (State.vlvUse s n ms) := by
  unfold State.vlvUse
  try dsimp only
  repeat' first | with_reducible assumption | with_reducible intro _ | ((with_reducible refine Sub.tr ?_ hm); exact rfl) | with_reducible apply Keeps.ite | with_reducible apply State.vlvLife_keeps | split

theorem State.ledgerSeal_keeps {s0 : Orig} {s : State} (h : Keeps s0 s)  (hm : Sub 4398046511104 s0.m) : Keeps s0 (State.ledgerSeal s) := by
  unfold State.ledgerSeal
  try dsimp only
  repeat' first | with_reducible assumption | with_reducible intro _ | ((with_reducible refine Sub.tr ?_ hm); exact rfl) | with_reducible apply Keeps.ite | with_reducible apply State.putVlv_keeps | split

theorem execLedgerWrite_keeps {s0 : Orig} {s : State} (h : Keeps s0 s) (onMs : List Nat) (hm : Sub 4948742112264 s0.m) : KeepsR s0 (execLedgerWrite onMs s) := by
  unfold execLedgerWrite
  try dsimp only
  repeat' first | with_reducible assumption | with_reducible intro _ | ((with_reducible refine Sub.tr ?_ hm); exact rfl) | with_reducible apply Keeps.ite | with_reducible apply KeepsR.ok | with_reducible apply KeepsR.ite | with_reducible apply State.each_keeps | with_reducible apply ok_keeps | with_reducible apply State.vlvUse_keeps | with_reducible apply State.vlvSettle_keeps | with_reducible apply State.ledgerSeal_keeps | split | with_reducible refine Keeps.eqNext (by assumption) ?_

theorem State.ledgerShow_keeps {s0 : Orig} {s : State} (h : Keeps s0 s)  (hm : Sub 1024 s0.m) : Keeps s0 (State.ledgerShow s) := by
  unfold State.ledgerShow
  try dsimp only
  repeat' first | with_reducible assumption | with_reducible intro _ | ((with_reducible refine Sub.tr ?_ hm); exact rfl) | with_reducible apply Keeps.ite | with_reducible apply State.setF_keeps | split

theorem State.vlvBind_keeps {s0 : Orig} {s : State} (h : Keeps s0 s) (n : Nat) (t : Ledger) (hm : Sub 4948742112264 s0.m) : Keeps s0 (State.vlvBind s n t) := by
  unfold State.vlvBind
  try dsimp only
  repeat' first | with_reducible assumption | with_reducible intro _ | ((with_reducible refine Sub.tr ?_ hm); exact rfl) | with_reducible apply Keeps.ite | with_reducible apply State.wrN_keeps | with_reducible apply State.vlvDerate_keeps | with_reducible apply State.setF_keeps | with_reducible apply State.vlvLife_keeps | with_reducible apply State.ledgerShow_keeps | split

theorem State.vlvIdResult_keeps {s0 : Orig} {s : State} (h : Keeps s0 s) (n : Nat) (frames : List (Option (BitVec 144))) (hm : Sub 4948742112264 s0.m) : Keeps s0 (State.vlvIdResult s n frames) := by
  unfold State.vlvIdResult
  try dsimp only
  repeat' first | with_reducible assumption | with_reducible intro _ | ((with_reducible refine Sub.tr ?_ hm); exact rfl) | with_reducible apply Keeps.ite | with_reducible apply State.wrN_keeps | with_reducible apply State.setF_keeps | with_reducible apply State.vlvBind_keeps | with_reducible apply State.vlvEvent_keeps | with_reducible apply State.vlvDerate_keeps | split

theorem execIdRead_keeps {s0 : Orig} {s : State} (h : Keeps s0 s)  (hm : Sub 550561383432 s0.m) : KeepsR s0 (execIdRead s) := by
  unfold execIdRead
  try dsimp only
  repeat' first | with_reducible assumption | with_reducible intro _ | ((with_reducible refine Sub.tr ?_ hm); exact rfl) | with_reducible apply Keeps.ite | with_reducible apply KeepsR.ok | with_reducible apply KeepsR.ite | with_reducible apply KeepsP.ite | with_reducible apply ok_keeps | with_reducible apply State.command_keeps | with_reducible apply refuse_keeps | simp -zeta only [KeepsP.pair, KeepsQ.pair] | with_reducible apply KeepsP.fst | split | with_reducible refine Keeps.eqFst (by assumption) ?_ | with_reducible refine Keeps.eqNext (by assumption) ?_

theorem execIdReadDone_keeps {s0 : Orig} {s : State} (h : Keeps s0 s) (n : Fin 32) (frames : List (Option (BitVec 144))) (hm : Sub 4948742112264 s0.m) : KeepsR s0 (execIdReadDone n frames s) := by
  unfold execIdReadDone
  try dsimp only
  repeat' first | with_reducible assumption | with_reducible intro _ | ((with_reducible refine Sub.tr ?_ hm); exact rfl) | with_reducible apply Keeps.ite | with_reducible apply KeepsR.ok | with_reducible apply KeepsR.ite | with_reducible apply State.vlvIdResult_keeps | with_reducible apply State.vlvSettle_keeps | with_reducible apply ok_keeps | with_reducible apply State.cmdEnd_keeps | split | with_reducible refine Keeps.eqNext (by assumption) ?_

theorem execLedgerRead_keeps {s0 : Orig} {s : State} (h : Keeps s0 s)  (hm : Sub 550561383432 s0.m) : KeepsR s0 (execLedgerRead s) := by
  unfold execLedgerRead
  try dsimp only
  repeat' first | with_reducible assumption | with_reducible intro _ | ((with_reducible refine Sub.tr ?_ hm); exact rfl) | with_reducible apply Keeps.ite | with_reducible apply KeepsR.ok | with_reducible apply KeepsR.ite | with_reducible apply KeepsP.ite | with_reducible apply State.each_keeps | with_reducible apply ok_keeps | with_reducible apply State.command_keeps | with_reducible apply refuse_keeps | with_reducible apply done_keeps | with_reducible apply State.wrN_keeps | simp -zeta only [KeepsP.pair, KeepsQ.pair] | with_reducible apply KeepsP.fst | split | with_reducible refine Keeps.eqFst (by assumption) ?_ | with_reducible refine Keeps.eqNext (by assumption) ?_

theorem execLedgerDelete_keeps {s0 : Orig} {s : State} (h : Keeps s0 s)  (hm : Sub 4948742112264 s0.m) : KeepsR s0 (execLedgerDelete s) := by
  unfold execLedgerDelete
  try dsimp only
  repeat' first | with_reducible assumption | with_reducible intro _ | ((with_reducible refine Sub.tr ?_ hm); exact rfl) | with_reducible apply Keeps.ite | with_reducible apply KeepsR.ok | with_reducible apply KeepsR.ite | with_reducible apply KeepsP.ite | with_reducible apply ok_keeps | with_reducible apply State.command_keeps | with_reducible apply refuse_keeps | with_reducible apply State.putVlv_keeps | with_reducible apply State.vlvBind_keeps | with_reducible apply done_keeps | with_reducible apply State.ledgerShow_keeps | with_reducible apply State.vlvSettle_keeps | simp -zeta only [KeepsP.pair, KeepsQ.pair] | with_reducible apply KeepsP.fst | split | with_reducible refine Keeps.eqFst (by assumption) ?_ | with_reducible refine Keeps.eqNext (by assumption) ?_

end Sys2Proof.Machine
end

