-- ==== Sys2Proof/Laws/KeepsDumbwaiter.lean ====
section
/-! SUPPORT. The operations of Machine/Dumbwaiter.lean keep the queue of commands and the canonical form, and change no part outside
their footprint. -/

set_option linter.unusedSimpArgs false
set_option linter.unusedVariables false
set_option Elab.async false

namespace Sys2Proof.Machine

theorem State.dwMod_keeps {s0 : Orig} {s : State} (h : Keeps s0 s) (n : Nat) (f : DwCh → DwCh) (hm : Sub 9223372036854775808 s0.m) : Keeps s0 (State.dwMod s n f) := by
  unfold State.dwMod
  try dsimp only
  repeat' first | with_reducible assumption | with_reducible intro _ | ((with_reducible refine Sub.tr ?_ hm); exact rfl) | with_reducible apply Keeps.ite | with_reducible apply State.putDmw_keeps | split

theorem State.dwSetBit_keeps {s0 : Orig} {s : State} (h : Keeps s0 s) (n i : Nat) (v : Bool) (hm : Sub 16 s0.m) : Keeps s0 (State.dwSetBit s n i v) := by
  unfold State.dwSetBit
  try dsimp only
  repeat' first | with_reducible assumption | with_reducible intro _ | ((with_reducible refine Sub.tr ?_ hm); exact rfl) | with_reducible apply Keeps.ite | with_reducible apply State.setBit_keeps | split

theorem State.dwFlag_keeps {s0 : Orig} {s : State} (h : Keeps s0 s) (n i : Nat) (hm : Sub 16 s0.m) : Keeps s0 (State.dwFlag s n i) := by
  unfold State.dwFlag
  try dsimp only
  repeat' first | with_reducible assumption | with_reducible intro _ | ((with_reducible refine Sub.tr ?_ hm); exact rfl) | with_reducible apply Keeps.ite | with_reducible apply State.setBit_keeps | split

theorem State.dwSetG_keeps {s0 : Orig} {s : State} (h : Keeps s0 s) (n r : Nat) (v : Dword) (hm : Sub 9223372036854775808 s0.m) : Keeps s0 (State.dwSetG s n r v) := by
  unfold State.dwSetG
  try dsimp only
  repeat' first | with_reducible assumption | with_reducible intro _ | ((with_reducible refine Sub.tr ?_ hm); exact rfl) | with_reducible apply Keeps.ite | with_reducible apply State.dwMod_keeps | split

theorem State.dwShow_keeps {s0 : Orig} {s : State} (h : Keeps s0 s) (n : Nat) (hm : Sub 16 s0.m := by first | assumption | exact Sub.tr rfl (by assumption)) : Keeps s0 (State.dwShow s n) := by
  unfold State.dwShow
  try dsimp only
  repeat' first | with_reducible assumption | with_reducible intro _ | ((with_reducible refine Sub.tr ?_ hm); exact rfl) | with_reducible apply Keeps.ite | with_reducible apply State.dwSetBit_keeps | with_reducible apply State.setF_keeps | with_reducible apply State.wrN_keeps | with_reducible apply State.setBit_keeps | split

theorem State.dwSwapTake_keeps {s0 : Orig} {s : State} (h : Keeps s0 s) (n : Nat) (hm : Sub 16 s0.m) : Keeps s0 (State.dwSwapTake s n) := by
  unfold State.dwSwapTake
  try dsimp only
  repeat' first | with_reducible assumption | with_reducible intro _ | ((with_reducible refine Sub.tr ?_ hm); exact rfl) | with_reducible apply Keeps.ite | with_reducible apply State.wrN_keeps | split

theorem State.swreq_keeps {s0 : Orig} {s : State} (h : Keeps s0 s) (v : Word) (hm : Sub 16 s0.m) : Keeps s0 (State.swreq s v) := by
  unfold State.swreq
  try dsimp only
  repeat' first | with_reducible assumption | with_reducible intro _ | ((with_reducible refine Sub.tr ?_ hm); exact rfl) | with_reducible apply Keeps.ite | with_reducible apply State.wr_keeps | split

theorem State.dwHalt_keeps {s0 : Orig} {s : State} (h : Keeps s0 s) (n cause : Nat) (addr : Option Nat) (hm : Sub 9223372587147722776 s0.m) : Keeps s0 (State.dwHalt s n cause addr) := by
  unfold State.dwHalt
  try dsimp only
  repeat' first | with_reducible assumption | with_reducible intro _ | ((with_reducible refine Sub.tr ?_ hm); exact rfl) | with_reducible apply Keeps.ite | with_reducible apply KeepsR.ok | with_reducible apply KeepsR.ite | with_reducible apply State.wrN_keeps | with_reducible apply State.dwMod_keeps | with_reducible apply State.dwSwapTake_keeps | with_reducible apply State.dwFlag_keeps | with_reducible apply State.dwShow_keeps | with_reducible apply State.eventSrc_keeps | split | with_reducible refine Keeps.eqNext (by assumption) ?_

theorem State.dwBegin_keeps {s0 : Orig} {s : State} (h : Keeps s0 s) (n : Nat) (g : List Dword) (hm : Sub 9223372036854775824 s0.m) : Keeps s0 (State.dwBegin s n g) := by
  unfold State.dwBegin
  try dsimp only
  repeat' first | with_reducible assumption | with_reducible intro _ | ((with_reducible refine Sub.tr ?_ hm); exact rfl) | with_reducible apply Keeps.ite | with_reducible apply State.dwMod_keeps | with_reducible apply State.wrN_keeps | with_reducible apply State.wr_keeps | split

theorem State.dwIdle_keeps {s0 : Orig} {s : State} (h : Keeps s0 s) (n : Nat) (hm : Sub 16 s0.m) : Keeps s0 (State.dwIdle s n) := by
  unfold State.dwIdle
  try dsimp only
  repeat' first | with_reducible assumption | with_reducible intro _ | ((with_reducible refine Sub.tr ?_ hm); exact rfl) | with_reducible apply Keeps.ite | with_reducible apply State.wrN_keeps | with_reducible apply State.dwShow_keeps | split

theorem State.dwBoundary_keeps {s0 : Orig} {s : State} (h : Keeps s0 s) (n : Nat) (hm : Sub 9223372036854775824 s0.m) : KeepsP s0 (State.dwBoundary s n) := by
  unfold State.dwBoundary
  try dsimp only
  repeat' first | with_reducible assumption | with_reducible intro _ | ((with_reducible refine Sub.tr ?_ hm); exact rfl) | with_reducible apply Keeps.ite | with_reducible apply KeepsP.ite | with_reducible apply State.dwSwapTake_keeps | with_reducible apply State.dwBegin_keeps | with_reducible apply State.dwIdle_keeps | simp -zeta only [KeepsP.pair, KeepsQ.pair] | with_reducible apply KeepsP.fst | split | with_reducible refine Keeps.eqFst (by assumption) ?_

theorem State.dwNext_keeps {s0 : Orig} {s : State} (h : Keeps s0 s) (n : Nat) (hm : Sub 9223372036854775808 s0.m) : Keeps s0 (State.dwNext s n) := by
  unfold State.dwNext
  try dsimp only
  repeat' first | with_reducible assumption | with_reducible intro _ | ((with_reducible refine Sub.tr ?_ hm); exact rfl) | with_reducible apply Keeps.ite | with_reducible apply State.dwMod_keeps | split

theorem State.dwXfer_keeps {s0 : Orig} {s : State} (h : Keeps s0 s) (n : Nat) (w : Word) (hm : Sub 9223372587147722776 s0.m) : KeepsP s0 (State.dwXfer s n w) := by
  unfold State.dwXfer
  try dsimp only
  repeat' first | with_reducible assumption | with_reducible intro _ | ((with_reducible refine Sub.tr ?_ hm); exact rfl) | with_reducible apply Keeps.ite | with_reducible apply KeepsP.ite | with_reducible apply State.dwHalt_keeps | with_reducible apply State.dwNext_keeps | with_reducible apply State.dwMod_keeps | with_reducible apply State.dwShow_keeps | simp -zeta only [KeepsP.pair, KeepsQ.pair] | with_reducible apply KeepsP.fst | split | with_reducible refine Keeps.eqFst (by assumption) ?_

theorem State.dwSignal_keeps {s0 : Orig} {s : State} (h : Keeps s0 s) (n code : Nat) (hm : Sub 550292946968 s0.m) : Keeps s0 (State.dwSignal s n code) := by
  unfold State.dwSignal
  try dsimp only
  repeat' first | with_reducible assumption | with_reducible intro _ | ((with_reducible refine Sub.tr ?_ hm); exact rfl) | with_reducible apply Keeps.ite | with_reducible apply State.incF_keeps | with_reducible apply State.setF_keeps | with_reducible apply State.eventSrc_keeps | split

theorem State.dwInstr_keeps {s0 : Orig} {s : State} (h : Keeps s0 s) (n : Nat) (w : Word) (hm : Sub 9223372587147722776 s0.m) : KeepsP s0 (State.dwInstr s n w) := by
  unfold State.dwInstr
  try dsimp only
  repeat' first | with_reducible assumption | with_reducible intro _ | ((with_reducible refine Sub.tr ?_ hm); exact rfl) | with_reducible apply Keeps.ite | with_reducible apply KeepsP.ite | with_reducible apply State.dwSetG_keeps | with_reducible apply State.dwNext_keeps | with_reducible apply State.dwSetBit_keeps | with_reducible apply State.dwShow_keeps | with_reducible apply State.dwXfer_keeps | with_reducible apply State.dwMod_keeps | with_reducible apply State.setF_keeps | with_reducible apply State.dwSignal_keeps | with_reducible apply State.dwBoundary_keeps | simp -zeta only [KeepsP.pair, KeepsQ.pair] | with_reducible apply KeepsP.fst | split | with_reducible refine Keeps.eqFst (by assumption) ?_

theorem State.dwStep_keeps {s0 : Orig} {s : State} (h : Keeps s0 s) (n : Nat) (hm : Sub 9223372587147722776 s0.m := by first | assumption | exact Sub.tr rfl (by assumption)) : KeepsP s0 (State.dwStep s n) := by
  unfold State.dwStep
  try dsimp only
  repeat' first | with_reducible assumption | with_reducible intro _ | ((with_reducible refine Sub.tr ?_ hm); exact rfl) | with_reducible apply Keeps.ite | with_reducible apply KeepsP.ite | with_reducible apply State.dwHalt_keeps | with_reducible apply State.dwInstr_keeps | simp -zeta only [KeepsP.pair, KeepsQ.pair] | with_reducible apply KeepsP.fst | split | with_reducible refine Keeps.eqFst (by assumption) ?_

theorem State.dwRun_keeps {s0 : Orig} {s : State} (h : Keeps s0 s) (k n : Nat) (hm : Sub 9223372587147722776 s0.m := by first | assumption | exact Sub.tr rfl (by assumption)) : Keeps s0 (State.dwRun k s n) := by
  induction k generalizing s with
  | zero => exact State.dwShow_keeps h n
  | succ k ih =>
    unfold State.dwRun
    split
    · exact ih (Keeps.eqFst (by assumption) (State.dwStep_keeps h n))
    · exact Keeps.eqFst (by assumption) (State.dwStep_keeps h n)

theorem State.dwGoOn_keeps {s0 : Orig} {s : State} (h : Keeps s0 s) (n : Nat) (hm : Sub 9223372587147722776 s0.m := by first | assumption | exact Sub.tr rfl (by assumption)) : Keeps s0 (State.dwGoOn s n) := by
  unfold State.dwGoOn
  split
  · exact State.dwRun_keeps h _ n
  · exact h

theorem State.dwGoOnAll_keeps {s0 : Orig} {s : State} (h : Keeps s0 s)  (hm : Sub 9223372587147722776 s0.m) : Keeps s0 (State.dwGoOnAll s) := by
  unfold State.dwGoOnAll
  try dsimp only
  repeat' first | with_reducible assumption | with_reducible intro _ | ((with_reducible refine Sub.tr ?_ hm); exact rfl) | with_reducible apply Keeps.ite | with_reducible apply State.each_keeps | with_reducible apply State.dwGoOn_keeps | split

theorem State.dwGoSts_keeps {s0 : Orig} {s : State} (h : Keeps s0 s) (n : Nat) (r : Result) (hm : Sub 16 s0.m) : Keeps s0 (State.dwGoSts s n r) := by
  unfold State.dwGoSts
  try dsimp only
  repeat' first | with_reducible assumption | with_reducible intro _ | ((with_reducible refine Sub.tr ?_ hm); exact rfl) | with_reducible apply Keeps.ite | with_reducible apply State.wrN_keeps | split

theorem State.dwStart_keeps {s0 : Orig} {s : State} (h : Keeps s0 s) (n : Nat) (hm : Sub 9223372587147722776 s0.m) : Keeps s0 (State.dwStart s n) := by
  unfold State.dwStart
  try dsimp only
  repeat' first | with_reducible assumption | with_reducible intro _ | ((with_reducible refine Sub.tr ?_ hm); exact rfl) | with_reducible apply Keeps.ite | with_reducible apply State.dwGoSts_keeps | with_reducible apply State.dwMod_keeps | with_reducible apply ok_keeps | with_reducible apply State.dwShow_keeps | with_reducible apply State.dwSwapTake_keeps | with_reducible apply State.dwBegin_keeps | with_reducible apply State.dwGoOn_keeps | split

theorem State.dwStop_keeps {s0 : Orig} {s : State} (h : Keeps s0 s) (n : Nat) (hm : Sub 9223372036854775824 s0.m) : Keeps s0 (State.dwStop s n) := by
  unfold State.dwStop
  try dsimp only
  repeat' first | with_reducible assumption | with_reducible intro _ | ((with_reducible refine Sub.tr ?_ hm); exact rfl) | with_reducible apply Keeps.ite | with_reducible apply State.dwGoSts_keeps | with_reducible apply ok_keeps | with_reducible apply State.dwMod_keeps | with_reducible apply State.setF_keeps | with_reducible apply State.dwSetBit_keeps | with_reducible apply State.dwShow_keeps | split

theorem State.dwGo_keeps {s0 : Orig} {s : State} (h : Keeps s0 s) (n : Nat) (v : Word) (hm : Sub 9223372587147722776 s0.m) : Keeps s0 (State.dwGo s n v) := by
  unfold State.dwGo
  try dsimp only
  repeat' first | with_reducible assumption | with_reducible intro _ | ((with_reducible refine Sub.tr ?_ hm); exact rfl) | with_reducible apply Keeps.ite | with_reducible apply State.dwStop_keeps | with_reducible apply State.dwStart_keeps | split

theorem State.dwStopAll_keeps {s0 : Orig} {s : State} (h : Keeps s0 s)  (hm : Sub 9223372036854775824 s0.m) : Keeps s0 (State.dwStopAll s) := by
  unfold State.dwStopAll
  try dsimp only
  repeat' first | with_reducible assumption | with_reducible intro _ | ((with_reducible refine Sub.tr ?_ hm); exact rfl) | with_reducible apply Keeps.ite | with_reducible apply State.each_keeps | with_reducible apply State.dwStop_keeps | split

theorem execDwStart_keeps {s0 : Orig} {s : State} (h : Keeps s0 s) (n : Fin 64) (hm : Sub 9223372587147722776 s0.m) : KeepsR s0 (execDwStart n s) := by
  unfold execDwStart
  try dsimp only
  repeat' first | with_reducible assumption | with_reducible intro _ | ((with_reducible refine Sub.tr ?_ hm); exact rfl) | with_reducible apply Keeps.ite | with_reducible apply KeepsR.ok | with_reducible apply KeepsR.ite | with_reducible apply ok_keeps | with_reducible apply State.dwGo_keeps | split | with_reducible refine Keeps.eqNext (by assumption) ?_

theorem execDwStop_keeps {s0 : Orig} {s : State} (h : Keeps s0 s) (n : Fin 64) (start : Bool) (hm : Sub 9223372587147722776 s0.m) : KeepsR s0 (execDwStop n start s) := by
  unfold execDwStop
  try dsimp only
  repeat' first | with_reducible assumption | with_reducible intro _ | ((with_reducible refine Sub.tr ?_ hm); exact rfl) | with_reducible apply Keeps.ite | with_reducible apply KeepsR.ok | with_reducible apply KeepsR.ite | with_reducible apply ok_keeps | with_reducible apply State.dwGo_keeps | split | with_reducible refine Keeps.eqNext (by assumption) ?_

theorem State.dwRetried_keeps {s0 : Orig} {s : State} (h : Keeps s0 s) (n k : Nat) (hm : Sub 16 s0.m) : Keeps s0 (State.dwRetried s n k) := by
  unfold State.dwRetried
  try dsimp only
  repeat' first | with_reducible assumption | with_reducible intro _ | ((with_reducible refine Sub.tr ?_ hm); exact rfl) | with_reducible apply Keeps.ite | with_reducible apply State.incF_keeps | with_reducible apply State.dwFlag_keeps | split

theorem State.dwLate_keeps {s0 : Orig} {s : State} (h : Keeps s0 s) (n desc : Nat) (hm : Sub 550292946968 s0.m) : Keeps s0 (State.dwLate s n desc) := by
  unfold State.dwLate
  try dsimp only
  repeat' first | with_reducible assumption | with_reducible intro _ | ((with_reducible refine Sub.tr ?_ hm); exact rfl) | with_reducible apply Keeps.ite | with_reducible apply State.dwFlag_keeps | with_reducible apply State.wrN_keeps | with_reducible apply State.incF_keeps | with_reducible apply State.eventSrc_keeps | split

theorem State.dwResolve_keeps {s0 : Orig} {s : State} (h : Keeps s0 s) (n : Nat) (hm : Sub 9223372036854775824 s0.m) : KeepsP s0 (State.dwResolve s n) := by
  unfold State.dwResolve
  try dsimp only
  repeat' first | with_reducible assumption | with_reducible intro _ | ((with_reducible refine Sub.tr ?_ hm); exact rfl) | with_reducible apply Keeps.ite | with_reducible apply KeepsP.ite | with_reducible apply State.dwRetried_keeps | with_reducible apply State.dwMod_keeps | simp -zeta only [KeepsP.pair, KeepsQ.pair] | with_reducible apply KeepsP.fst | split | with_reducible refine Keeps.eqFst (by assumption) ?_

theorem State.dwFail_keeps {s0 : Orig} {s : State} (h : Keeps s0 s) (n : Nat) (late : Bool) (x : Nat × DwOut) (hm : Sub 9223372587147722776 s0.m) : Keeps s0 (State.dwFail s n late x) := by
  unfold State.dwFail
  try dsimp only
  repeat' first | with_reducible assumption | with_reducible intro _ | ((with_reducible refine Sub.tr ?_ hm); exact rfl) | with_reducible apply Keeps.ite | with_reducible apply State.dwLate_keeps | with_reducible apply State.dwHalt_keeps | split

theorem execHeldBoundaryPass_keeps {s0 : Orig} {s : State} (h : Keeps s0 s) (n : Fin 64) (hm : Sub 9223372587147722776 s0.m) : KeepsR s0 (execHeldBoundaryPass n s) := by
  unfold execHeldBoundaryPass
  try dsimp only
  repeat' first | with_reducible assumption | with_reducible intro _ | ((with_reducible refine Sub.tr ?_ hm); exact rfl) | with_reducible apply Keeps.ite | with_reducible apply KeepsR.ok | with_reducible apply KeepsR.ite | with_reducible apply KeepsP.ite | with_reducible apply State.dwResolve_keeps | with_reducible apply ok_keeps | with_reducible apply State.dwFail_keeps | with_reducible apply State.dwSetBit_keeps | with_reducible apply State.dwBoundary_keeps | with_reducible apply State.dwGoOn_keeps | simp -zeta only [KeepsP.pair, KeepsQ.pair] | with_reducible apply KeepsP.fst | split | with_reducible refine Keeps.eqFst (by assumption) ?_ | with_reducible refine Keeps.eqNext (by assumption) ?_

theorem State.dwFenceDone_keeps {s0 : Orig} {s : State} (h : Keeps s0 s) (n : Nat) (hm : Sub 9223372587147722776 s0.m) : Keeps s0 (State.dwFenceDone s n) := by
  unfold State.dwFenceDone
  try dsimp only
  repeat' first | with_reducible assumption | with_reducible intro _ | ((with_reducible refine Sub.tr ?_ hm); exact rfl) | with_reducible apply Keeps.ite | with_reducible apply KeepsR.ok | with_reducible apply KeepsR.ite | with_reducible apply KeepsP.ite | with_reducible apply State.dwResolve_keeps | with_reducible apply State.dwFail_keeps | with_reducible apply State.dwSetBit_keeps | with_reducible apply State.dwNext_keeps | with_reducible apply State.dwShow_keeps | with_reducible apply State.dwGoOn_keeps | simp -zeta only [KeepsP.pair, KeepsQ.pair] | with_reducible apply KeepsP.fst | split | with_reducible refine Keeps.eqFst (by assumption) ?_ | with_reducible refine Keeps.eqNext (by assumption) ?_

theorem execDwStopDone_keeps {s0 : Orig} {s : State} (h : Keeps s0 s) (n : Fin 64) (hm : Sub 9223372587147722776 s0.m) : KeepsR s0 (execDwStopDone n s) := by
  unfold execDwStopDone
  try dsimp only
  repeat' first | with_reducible assumption | with_reducible intro _ | ((with_reducible refine Sub.tr ?_ hm); exact rfl) | with_reducible apply Keeps.ite | with_reducible apply KeepsR.ok | with_reducible apply KeepsR.ite | with_reducible apply KeepsP.ite | with_reducible apply State.dwResolve_keeps | with_reducible apply ok_keeps | with_reducible apply State.dwFail_keeps | with_reducible apply State.dwFlag_keeps | with_reducible apply State.dwBoundary_keeps | with_reducible apply State.dwGoOn_keeps | simp -zeta only [KeepsP.pair, KeepsQ.pair] | with_reducible apply KeepsP.fst | split | with_reducible refine Keeps.eqFst (by assumption) ?_ | with_reducible refine Keeps.eqNext (by assumption) ?_

theorem State.dwWriteError_keeps {s0 : Orig} {s : State} (h : Keeps s0 s) (n : Nat) (b : DwOut) (a : Nat) (hm : Sub 9223372587147722776 s0.m) : Keeps s0 (State.dwWriteError s n b a) := by
  unfold State.dwWriteError
  try dsimp only
  repeat' first | with_reducible assumption | with_reducible intro _ | ((with_reducible refine Sub.tr ?_ hm); exact rfl) | with_reducible apply Keeps.ite | with_reducible apply State.dwLate_keeps | with_reducible apply State.dwMod_keeps | with_reducible apply State.dwShow_keeps | with_reducible apply State.dwRetried_keeps | with_reducible apply State.dwHalt_keeps | split

theorem State.dwReadError_keeps {s0 : Orig} {s : State} (h : Keeps s0 s) (n a : Nat) (hm : Sub 9223372587147722776 s0.m) : Keeps s0 (State.dwReadError s n a) := by
  unfold State.dwReadError
  try dsimp only
  repeat' first | with_reducible assumption | with_reducible intro _ | ((with_reducible refine Sub.tr ?_ hm); exact rfl) | with_reducible apply Keeps.ite | with_reducible apply State.dwRetried_keeps | with_reducible apply State.dwMod_keeps | with_reducible apply State.dwHalt_keeps | split

theorem execBeatError_keeps {s0 : Orig} {s : State} (h : Keeps s0 s) (n : Fin 64) (wr : Bool) (addr : Nat) (hm : Sub 9223372587147722776 s0.m) : KeepsR s0 (execBeatError n wr addr s) := by
  unfold execBeatError
  try dsimp only
  repeat' first | with_reducible assumption | with_reducible intro _ | ((with_reducible refine Sub.tr ?_ hm); exact rfl) | with_reducible apply Keeps.ite | with_reducible apply KeepsR.ok | with_reducible apply KeepsR.ite | with_reducible apply State.wr_keeps | with_reducible apply ok_keeps | with_reducible apply State.dwWriteError_keeps | with_reducible apply State.dwReadError_keeps | split | with_reducible refine Keeps.eqNext (by assumption) ?_

theorem execDmwSwreqWrite_keeps {s0 : Orig} {s : State} (h : Keeps s0 s) (v : Word) (hm : Sub 16 s0.m) : KeepsR s0 (execDmwSwreqWrite v s) := by
  unfold execDmwSwreqWrite
  try dsimp only
  repeat' first | with_reducible assumption | with_reducible intro _ | ((with_reducible refine Sub.tr ?_ hm); exact rfl) | with_reducible apply Keeps.ite | with_reducible apply KeepsR.ok | with_reducible apply KeepsR.ite | with_reducible apply ok_keeps | with_reducible apply State.swreq_keeps | split | with_reducible refine Keeps.eqNext (by assumption) ?_

theorem execRequestAsserted_keeps {s0 : Orig} {s : State} (h : Keeps s0 s) (r : Fin 256) (hm : Sub 9223372587147722776 s0.m) : KeepsR s0 (execRequestAsserted r s) := by
  unfold execRequestAsserted
  try dsimp only
  repeat' first | with_reducible assumption | with_reducible intro _ | ((with_reducible refine Sub.tr ?_ hm); exact rfl) | with_reducible apply Keeps.ite | with_reducible apply KeepsR.ok | with_reducible apply KeepsR.ite | with_reducible apply State.each_keeps | with_reducible apply ok_keeps | with_reducible apply State.dwSetBit_keeps | with_reducible apply State.setF_keeps | with_reducible apply State.dwNext_keeps | with_reducible apply State.dwShow_keeps | with_reducible apply State.dwGoOn_keeps | split | with_reducible refine Keeps.eqNext (by assumption) ?_

theorem execDmwSwap_keeps {s0 : Orig} {s : State} (h : Keeps s0 s)  (hm : Sub 550561382424 s0.m) : KeepsR s0 (execDmwSwap s) := by
  unfold execDmwSwap
  try dsimp only
  repeat' first | with_reducible assumption | with_reducible intro _ | ((with_reducible refine Sub.tr ?_ hm); exact rfl) | with_reducible apply Keeps.ite | with_reducible apply KeepsR.ok | with_reducible apply KeepsR.ite | with_reducible apply KeepsP.ite | with_reducible apply ok_keeps | with_reducible apply State.command_keeps | with_reducible apply refuse_keeps | with_reducible apply State.setBit_keeps | with_reducible apply done_keeps | with_reducible apply State.dwSwapTake_keeps | simp -zeta only [KeepsP.pair, KeepsQ.pair] | with_reducible apply KeepsP.fst | split | with_reducible refine Keeps.eqFst (by assumption) ?_ | with_reducible refine Keeps.eqNext (by assumption) ?_

theorem execDmwSwapCancel_keeps {s0 : Orig} {s : State} (h : Keeps s0 s)  (hm : Sub 550561382424 s0.m) : KeepsR s0 (execDmwSwapCancel s) := by
  unfold execDmwSwapCancel
  try dsimp only
  repeat' first | with_reducible assumption | with_reducible intro _ | ((with_reducible refine Sub.tr ?_ hm); exact rfl) | with_reducible apply Keeps.ite | with_reducible apply KeepsR.ok | with_reducible apply KeepsR.ite | with_reducible apply KeepsP.ite | with_reducible apply ok_keeps | with_reducible apply State.command_keeps | with_reducible apply refuse_keeps | with_reducible apply done_keeps | with_reducible apply State.setBit_keeps | simp -zeta only [KeepsP.pair, KeepsQ.pair] | with_reducible apply KeepsP.fst | split | with_reducible refine Keeps.eqFst (by assumption) ?_ | with_reducible refine Keeps.eqNext (by assumption) ?_

theorem execDmwClearCounts_keeps {s0 : Orig} {s : State} (h : Keeps s0 s)  (hm : Sub 550561382424 s0.m) : KeepsR s0 (execDmwClearCounts s) := by
  unfold execDmwClearCounts
  try dsimp only
  repeat' first | with_reducible assumption | with_reducible intro _ | ((with_reducible refine Sub.tr ?_ hm); exact rfl) | with_reducible apply Keeps.ite | with_reducible apply KeepsR.ok | with_reducible apply KeepsR.ite | with_reducible apply KeepsP.ite | with_reducible apply State.each_keeps | with_reducible apply ok_keeps | with_reducible apply State.command_keeps | with_reducible apply done_keeps | with_reducible apply State.wr_keeps | with_reducible apply State.setF_keeps | simp -zeta only [KeepsP.pair, KeepsQ.pair] | with_reducible apply KeepsP.fst | split | with_reducible refine Keeps.eqFst (by assumption) ?_ | with_reducible refine Keeps.eqNext (by assumption) ?_

theorem State.dwBankWrite_keeps {s0 : Orig} {s : State} (h : Keeps s0 s) (n b w : Nat) (v : Word) (hm : Sub 16 s0.m) : Keeps s0 (State.dwBankWrite s n b w v) := by
  unfold State.dwBankWrite
  try dsimp only
  repeat' first | with_reducible assumption | with_reducible intro _ | ((with_reducible refine Sub.tr ?_ hm); exact rfl) | with_reducible apply Keeps.ite | with_reducible apply State.wr_keeps | split

end Sys2Proof.Machine
end

