-- ==== Sys2Proof/Laws/KeepsPace.lean ====
section
/-! SUPPORT. The operations of Machine/Pace.lean keep the queue of commands and the canonical form, and change no part outside
their footprint. -/

set_option linter.unusedSimpArgs false
set_option linter.unusedVariables false
set_option Elab.async false

namespace Sys2Proof.Machine

theorem State.setFloor_keeps {s0 : Orig} {s : State} (h : Keeps s0 s) (floor : Nat) (hm : Sub 4 s0.m) : Keeps s0 (State.setFloor s floor) := by
  unfold State.setFloor
  try dsimp only
  repeat' first | with_reducible assumption | with_reducible intro _ | ((with_reducible refine Sub.tr ?_ hm); exact rfl) | with_reducible apply Keeps.ite | with_reducible apply State.wrN_keeps | with_reducible apply State.setBit_keeps | split

theorem execVcoreDone_keeps {s0 : Orig} {s : State} (h : Keeps s0 s)  (hm : Sub 1126450199789580 s0.m) : KeepsR s0 (execVcoreDone s) := by
  unfold execVcoreDone
  try dsimp only
  repeat' first | with_reducible assumption | with_reducible intro _ | ((with_reducible refine Sub.tr ?_ hm); exact rfl) | with_reducible apply Keeps.ite | with_reducible apply KeepsR.ok | with_reducible apply KeepsR.ite | with_reducible apply ok_keeps | with_reducible apply State.putPace_keeps | with_reducible apply State.setBit_keeps | with_reducible apply State.event_keeps | split | with_reducible refine Keeps.eqNext (by assumption) ?_

theorem State.pmSet_keeps {s0 : Orig} {s : State} (h : Keeps s0 s) (n c pm31 : Nat) (hm : Sub 134217732 s0.m) : Keeps s0 (State.pmSet s n c pm31) := by
  unfold State.pmSet
  try dsimp only
  repeat' first | with_reducible assumption | with_reducible intro _ | ((with_reducible refine Sub.tr ?_ hm); exact rfl) | with_reducible apply Keeps.ite | with_reducible apply State.wrN_keeps | with_reducible apply State.drawn_keeps | split

theorem State.paceSlow_keeps {s0 : Orig} {s : State} (h : Keeps s0 s)  (hm : Sub 1126450199789580 s0.m) : Keeps s0 (State.paceSlow s) := by
  unfold State.paceSlow
  try dsimp only
  repeat' first | with_reducible assumption | with_reducible intro _ | ((with_reducible refine Sub.tr ?_ hm); exact rfl) | with_reducible apply Keeps.ite | with_reducible apply State.setBit_keeps | with_reducible apply State.putPace_keeps | with_reducible apply State.event_keeps | split

theorem State.paceGuard_keeps {s0 : Orig} {s : State} (h : Keeps s0 s)  (hm : Sub 1126450199789580 s0.m) : Keeps s0 (State.paceGuard s) := by
  unfold State.paceGuard
  try dsimp only
  repeat' first | with_reducible assumption | with_reducible intro _ | ((with_reducible refine Sub.tr ?_ hm); exact rfl) | with_reducible apply Keeps.ite | with_reducible apply State.putPace_keeps | with_reducible apply State.setBit_keeps | with_reducible apply State.paceSlow_keeps | with_reducible apply State.setFloor_keeps | with_reducible apply State.event_keeps | split

theorem State.slowEnd_keeps {s0 : Orig} {s : State} (h : Keeps s0 s)  (hm : Sub 4 s0.m) : Keeps s0 (State.slowEnd s) := by
  unfold State.slowEnd
  try dsimp only
  repeat' first | with_reducible assumption | with_reducible intro _ | ((with_reducible refine Sub.tr ?_ hm); exact rfl) | with_reducible apply Keeps.ite | with_reducible apply State.setBit_keeps | split

theorem State.floorReset_keeps {s0 : Orig} {s : State} (h : Keeps s0 s)  (hm : Sub 1125899906842628 s0.m) : Keeps s0 (State.floorReset s) := by
  unfold State.floorReset
  try dsimp only
  repeat' first | with_reducible assumption | with_reducible intro _ | ((with_reducible refine Sub.tr ?_ hm); exact rfl) | with_reducible apply Keeps.ite | with_reducible apply State.putPace_keeps | with_reducible apply State.setFloor_keeps | with_reducible apply State.slowEnd_keeps | split

theorem State.vcoreWrite_keeps {s0 : Orig} {s : State} (h : Keeps s0 s) (v : Word) (hm : Sub 1125899906842628 s0.m) : Keeps s0 (State.vcoreWrite s v) := by
  unfold State.vcoreWrite
  try dsimp only
  repeat' first | with_reducible assumption | with_reducible intro _ | ((with_reducible refine Sub.tr ?_ hm); exact rfl) | with_reducible apply Keeps.ite | with_reducible apply KeepsR.ok | with_reducible apply KeepsR.ite | with_reducible apply State.wrN_keeps | with_reducible apply State.floorReset_keeps | split | with_reducible refine Keeps.eqNext (by assumption) ?_

theorem execVcoreTargetWrite_keeps {s0 : Orig} {s : State} (h : Keeps s0 s) (v : Word) (hm : Sub 1125899906842628 s0.m) : KeepsR s0 (execVcoreTargetWrite v s) := by
  unfold execVcoreTargetWrite
  try dsimp only
  repeat' first | with_reducible assumption | with_reducible intro _ | ((with_reducible refine Sub.tr ?_ hm); exact rfl) | with_reducible apply Keeps.ite | with_reducible apply KeepsR.ok | with_reducible apply KeepsR.ite | with_reducible apply ok_keeps | with_reducible apply State.vcoreWrite_keeps | split | with_reducible refine Keeps.eqNext (by assumption) ?_

theorem execPmAverage_keeps {s0 : Orig} {s : State} (h : Keeps s0 s) (cycles : List Nat) (hm : Sub 1126450334007308 s0.m) : KeepsR s0 (execPmAverage cycles s) := by
  unfold execPmAverage
  try dsimp only
  repeat' first | with_reducible assumption | with_reducible intro _ | ((with_reducible refine Sub.tr ?_ hm); exact rfl) | with_reducible apply Keeps.ite | with_reducible apply KeepsR.ok | with_reducible apply KeepsR.ite | with_reducible apply State.each_keeps | with_reducible apply State.pmSet_keeps | with_reducible apply State.wrN_keeps | with_reducible apply State.setF_keeps | with_reducible apply ok_keeps | with_reducible apply State.paceGuard_keeps | split | with_reducible refine Keeps.eqNext (by assumption) ?_

theorem execGuardIntervalStep_keeps {s0 : Orig} {s : State} (h : Keeps s0 s)  (hm : Sub 4 s0.m) : KeepsR s0 (execGuardIntervalStep s) := by
  unfold execGuardIntervalStep
  try dsimp only
  repeat' first | with_reducible assumption | with_reducible intro _ | ((with_reducible refine Sub.tr ?_ hm); exact rfl) | with_reducible apply Keeps.ite | with_reducible apply KeepsR.ok | with_reducible apply KeepsR.ite | with_reducible apply ok_keeps | with_reducible apply State.setFloor_keeps | split | with_reducible refine Keeps.eqNext (by assumption) ?_

theorem execRatioHigh_keeps {s0 : Orig} {s : State} (h : Keeps s0 s)  (hm : Sub 550292946956 s0.m) : KeepsR s0 (execRatioHigh s) := by
  unfold execRatioHigh
  try dsimp only
  repeat' first | with_reducible assumption | with_reducible intro _ | ((with_reducible refine Sub.tr ?_ hm); exact rfl) | with_reducible apply Keeps.ite | with_reducible apply KeepsR.ok | with_reducible apply KeepsR.ite | with_reducible apply ok_keeps | with_reducible apply State.event_keeps | split | with_reducible refine Keeps.eqNext (by assumption) ?_

theorem execPmClear_keeps {s0 : Orig} {s : State} (h : Keeps s0 s)  (hm : Sub 550561382412 s0.m) : KeepsR s0 (execPmClear s) := by
  unfold execPmClear
  try dsimp only
  repeat' first | with_reducible assumption | with_reducible intro _ | ((with_reducible refine Sub.tr ?_ hm); exact rfl) | with_reducible apply Keeps.ite | with_reducible apply KeepsR.ok | with_reducible apply KeepsR.ite | with_reducible apply KeepsP.ite | with_reducible apply State.each_keeps | with_reducible apply ok_keeps | with_reducible apply State.command_keeps | with_reducible apply done_keeps | with_reducible apply State.wrN_keeps | simp -zeta only [KeepsP.pair, KeepsQ.pair] | with_reducible apply KeepsP.fst | split | with_reducible refine Keeps.eqFst (by assumption) ?_ | with_reducible refine Keeps.eqNext (by assumption) ?_

theorem execGuardReset_keeps {s0 : Orig} {s : State} (h : Keeps s0 s)  (hm : Sub 1126450468225036 s0.m) : KeepsR s0 (execGuardReset s) := by
  unfold execGuardReset
  try dsimp only
  repeat' first | with_reducible assumption | with_reducible intro _ | ((with_reducible refine Sub.tr ?_ hm); exact rfl) | with_reducible apply Keeps.ite | with_reducible apply KeepsR.ok | with_reducible apply KeepsR.ite | with_reducible apply KeepsP.ite | with_reducible apply ok_keeps | with_reducible apply State.command_keeps | with_reducible apply done_keeps | with_reducible apply State.floorReset_keeps | simp -zeta only [KeepsP.pair, KeepsQ.pair] | with_reducible apply KeepsP.fst | split | with_reducible refine Keeps.eqFst (by assumption) ?_ | with_reducible refine Keeps.eqNext (by assumption) ?_

theorem State.freqRead_keeps {s0 : Orig} {s : State} (h : Keeps s0 s) (k : Nat) (hm : Sub 134217732 s0.m := by first | assumption | exact Sub.tr rfl (by assumption)) : KeepsQ s0 (State.freqRead s k) := by
  unfold State.freqRead
  try dsimp only
  repeat' first | with_reducible assumption | with_reducible intro _ | ((with_reducible refine Sub.tr ?_ hm); exact rfl) | with_reducible apply Keeps.ite | with_reducible apply KeepsQ.ite | with_reducible apply State.drawn_keeps | with_reducible apply State.wrN_keeps | simp -zeta only [KeepsP.pair, KeepsQ.pair] | with_reducible apply KeepsQ.snd | split | with_reducible refine Keeps.eqSnd (by assumption) ?_

theorem State.islMod_keeps {s0 : Orig} {s : State} (h : Keeps s0 s) (k : Nat) (f : Isl → Isl) (hm : Sub 1125899906842624 s0.m) : Keeps s0 (State.islMod s k f) := by
  unfold State.islMod
  try dsimp only
  repeat' first | with_reducible assumption | with_reducible intro _ | ((with_reducible refine Sub.tr ?_ hm); exact rfl) | with_reducible apply Keeps.ite | with_reducible apply State.putPace_keeps | split

theorem State.count32_keeps {s0 : Orig} {s : State} (h : Keeps s0 s) (b : Block) (o : Nat) (hb0 : Sub b.mask s0.m) : Keeps s0 (State.count32 s b o) := by
  unfold State.count32
  try dsimp only
  repeat' first | with_reducible assumption | with_reducible intro _ | with_reducible apply Keeps.ite | with_reducible apply State.wrN_keeps | split

theorem State.setCapable_keeps {s0 : Orig} {s : State} (h : Keeps s0 s) (p : Nat) (v : Bool) (hm : Sub 65536 s0.m) : Keeps s0 (State.setCapable s p v) := by
  unfold State.setCapable
  try dsimp only
  repeat' first | with_reducible assumption | with_reducible intro _ | ((with_reducible refine Sub.tr ?_ hm); exact rfl) | with_reducible apply Keeps.ite | with_reducible apply State.setBit_keeps | split

theorem State.linkSet_keeps {s0 : Orig} {s : State} (h : Keeps s0 s) (p : Nat) (up : Bool) (hm : Sub 563500246433800 s0.m) : Keeps s0 (State.linkSet s p up) := by
  unfold State.linkSet
  try dsimp only
  repeat' first | with_reducible assumption | with_reducible intro _ | ((with_reducible refine Sub.tr ?_ hm); exact rfl) | with_reducible apply Keeps.ite | with_reducible apply State.setBit_keeps | with_reducible apply State.putEth_keeps | with_reducible apply State.setCapable_keeps | with_reducible apply State.count32_keeps | with_reducible apply State.event_keeps | split

theorem State.islLink_keeps {s0 : Orig} {s : State} (h : Keeps s0 s) (k : Nat) (up : Bool) (hm : Sub 9226469018326892586 s0.m) : Keeps s0 (State.islLink s k up) := by
  unfold State.islLink
  try dsimp only
  repeat' first | with_reducible assumption | with_reducible intro _ | ((with_reducible refine Sub.tr ?_ hm); exact rfl) | with_reducible apply Keeps.ite | with_reducible apply State.setF_keeps | with_reducible apply State.camLinkDown_keeps | with_reducible apply State.canKick_keeps | with_reducible apply State.cchMod_keeps | with_reducible apply State.fifoDiscard_keeps | with_reducible apply State.linkSet_keeps | split

theorem State.islStart_keeps {s0 : Orig} {s : State} (h : Keeps s0 s) (k cause : Nat) (hm : Sub 1125899906842628 s0.m) : Keeps s0 (State.islStart s k cause) := by
  unfold State.islStart
  try dsimp only
  repeat' first | with_reducible assumption | with_reducible intro _ | ((with_reducible refine Sub.tr ?_ hm); exact rfl) | with_reducible apply Keeps.ite | with_reducible apply State.setF_keeps | with_reducible apply State.islMod_keeps | split

theorem State.islWakeOne_keeps {s0 : Orig} {s : State} (h : Keeps s0 s) (k cause : Nat) (hm : Sub 1125899906842628 s0.m) : Keeps s0 (State.islWakeOne s k cause) := by
  unfold State.islWakeOne
  try dsimp only
  repeat' first | with_reducible assumption | with_reducible intro _ | ((with_reducible refine Sub.tr ?_ hm); exact rfl) | with_reducible apply Keeps.ite | with_reducible apply State.islStart_keeps | with_reducible apply State.setF_keeps | with_reducible apply State.setBit_keeps | with_reducible apply State.islMod_keeps | split

theorem State.islWake_keeps {s0 : Orig} {s : State} (h : Keeps s0 s) (k cause : Nat) (hm : Sub 1125899906842628 s0.m) : Keeps s0 (State.islWake s k cause) := by
  unfold State.islWake
  try dsimp only
  repeat' first | with_reducible assumption | with_reducible intro _ | ((with_reducible refine Sub.tr ?_ hm); exact rfl) | with_reducible apply Keeps.ite | with_reducible apply State.islWakeOne_keeps | split

theorem State.islStop_keeps {s0 : Orig} {s : State} (h : Keeps s0 s) (k : Nat) (hm : Sub 4 s0.m) : Keeps s0 (State.islStop s k) := by
  unfold State.islStop
  try dsimp only
  repeat' first | with_reducible assumption | with_reducible intro _ | ((with_reducible refine Sub.tr ?_ hm); exact rfl) | with_reducible apply Keeps.ite | with_reducible apply State.setF_keeps | split

theorem State.islCtrl_keeps {s0 : Orig} {s : State} (h : Keeps s0 s) (k : Nat) (v : Word) (hm : Sub 1125899906842628 s0.m) : Keeps s0 (State.islCtrl s k v) := by
  unfold State.islCtrl
  try dsimp only
  repeat' first | with_reducible assumption | with_reducible intro _ | ((with_reducible refine Sub.tr ?_ hm); exact rfl) | with_reducible apply Keeps.ite | with_reducible apply State.setBit_keeps | with_reducible apply State.islStop_keeps | with_reducible apply State.islWake_keeps | split

theorem execIslStopWrite_keeps {s0 : Orig} {s : State} (h : Keeps s0 s) (k : Fin 29) (v : Word) (hm : Sub 1125899906842628 s0.m) : KeepsR s0 (execIslStopWrite k v s) := by
  unfold execIslStopWrite
  try dsimp only
  repeat' first | with_reducible assumption | with_reducible intro _ | ((with_reducible refine Sub.tr ?_ hm); exact rfl) | with_reducible apply Keeps.ite | with_reducible apply KeepsR.ok | with_reducible apply KeepsR.ite | with_reducible apply ok_keeps | with_reducible apply State.islCtrl_keeps | split | with_reducible refine Keeps.eqNext (by assumption) ?_

theorem execIslStopped_keeps {s0 : Orig} {s : State} (h : Keeps s0 s) (k : Fin 29) (hm : Sub 9227594918233735214 s0.m) : KeepsR s0 (execIslStopped k s) := by
  unfold execIslStopped
  try dsimp only
  repeat' first | with_reducible assumption | with_reducible intro _ | ((with_reducible refine Sub.tr ?_ hm); exact rfl) | with_reducible apply Keeps.ite | with_reducible apply KeepsR.ok | with_reducible apply KeepsR.ite | with_reducible apply ok_keeps | with_reducible apply State.setF_keeps | with_reducible apply State.setBit_keeps | with_reducible apply State.event_keeps | with_reducible apply State.islLink_keeps | with_reducible apply State.islMod_keeps | with_reducible apply State.islStart_keeps | split | with_reducible refine Keeps.eqNext (by assumption) ?_

theorem execIslWakeRequest_keeps {s0 : Orig} {s : State} (h : Keeps s0 s) (k : Fin 29) (hm : Sub 1125899906842628 s0.m) : KeepsR s0 (execIslWakeRequest k s) := by
  unfold execIslWakeRequest
  try dsimp only
  repeat' first | with_reducible assumption | with_reducible intro _ | ((with_reducible refine Sub.tr ?_ hm); exact rfl) | with_reducible apply Keeps.ite | with_reducible apply KeepsR.ok | with_reducible apply KeepsR.ite | with_reducible apply ok_keeps | with_reducible apply State.setBit_keeps | with_reducible apply State.islWake_keeps | split | with_reducible refine Keeps.eqNext (by assumption) ?_

theorem execExternalWake_keeps {s0 : Orig} {s : State} (h : Keeps s0 s) (k : Fin 29) (hm : Sub 1125899906842628 s0.m) : KeepsR s0 (execExternalWake k s) := by
  unfold execExternalWake
  try dsimp only
  repeat' first | with_reducible assumption | with_reducible intro _ | ((with_reducible refine Sub.tr ?_ hm); exact rfl) | with_reducible apply Keeps.ite | with_reducible apply KeepsR.ok | with_reducible apply KeepsR.ite | with_reducible apply ok_keeps | with_reducible apply State.islWake_keeps | split | with_reducible refine Keeps.eqNext (by assumption) ?_

theorem State.restartEnd_keeps {s0 : Orig} {s : State} (h : Keeps s0 s) (k : Nat) (r : Result) (hm : Sub 1126450468225036 s0.m) : Keeps s0 (State.restartEnd s k r) := by
  unfold State.restartEnd
  try dsimp only
  repeat' first | with_reducible assumption | with_reducible intro _ | ((with_reducible refine Sub.tr ?_ hm); exact rfl) | with_reducible apply Keeps.ite | with_reducible apply State.islMod_keeps | with_reducible apply State.cmdEndIf_keeps | split

theorem execIslWake_keeps {s0 : Orig} {s : State} (h : Keeps s0 s) (k : Fin 29) (hm : Sub 9227594918233735214 s0.m) : KeepsR s0 (execIslWake k s) := by
  unfold execIslWake
  try dsimp only
  repeat' first | with_reducible assumption | with_reducible intro _ | ((with_reducible refine Sub.tr ?_ hm); exact rfl) | with_reducible apply Keeps.ite | with_reducible apply KeepsR.ok | with_reducible apply KeepsR.ite | with_reducible apply ok_keeps | with_reducible apply State.setF_keeps | with_reducible apply State.setBit_keeps | with_reducible apply State.incF_keeps | with_reducible apply State.event_keeps | with_reducible apply State.islLink_keeps | with_reducible apply State.islStop_keeps | with_reducible apply State.restartEnd_keeps | split | with_reducible refine Keeps.eqNext (by assumption) ?_

theorem execIslLockTimeout_keeps {s0 : Orig} {s : State} (h : Keeps s0 s) (k : Fin 29) (hm : Sub 1126450468225036 s0.m) : KeepsR s0 (execIslLockTimeout k s) := by
  unfold execIslLockTimeout
  try dsimp only
  repeat' first | with_reducible assumption | with_reducible intro _ | ((with_reducible refine Sub.tr ?_ hm); exact rfl) | with_reducible apply Keeps.ite | with_reducible apply KeepsR.ok | with_reducible apply KeepsR.ite | with_reducible apply ok_keeps | with_reducible apply State.setF_keeps | with_reducible apply State.event_keeps | with_reducible apply State.restartEnd_keeps | split | with_reducible refine Keeps.eqNext (by assumption) ?_

theorem State.islUnlock_keeps {s0 : Orig} {s : State} (h : Keeps s0 s) (k : Nat) (hm : Sub 1126450468225036 s0.m) : Keeps s0 (State.islUnlock s k) := by
  unfold State.islUnlock
  try dsimp only
  repeat' first | with_reducible assumption | with_reducible intro _ | ((with_reducible refine Sub.tr ?_ hm); exact rfl) | with_reducible apply Keeps.ite | with_reducible apply State.setBit_keeps | with_reducible apply State.event_keeps | with_reducible apply State.restartEnd_keeps | split

theorem execIslRestart_keeps {s0 : Orig} {s : State} (h : Keeps s0 s)  (hm : Sub 1126450468225036 s0.m) : KeepsR s0 (execIslRestart s) := by
  unfold execIslRestart
  try dsimp only
  repeat' first | with_reducible assumption | with_reducible intro _ | ((with_reducible refine Sub.tr ?_ hm); exact rfl) | with_reducible apply Keeps.ite | with_reducible apply KeepsR.ok | with_reducible apply KeepsR.ite | with_reducible apply KeepsP.ite | with_reducible apply ok_keeps | with_reducible apply State.command_keeps | with_reducible apply refuse_keeps | with_reducible apply State.islMod_keeps | with_reducible apply State.islStart_keeps | with_reducible apply State.islStop_keeps | simp -zeta only [KeepsP.pair, KeepsQ.pair] | with_reducible apply KeepsP.fst | split | with_reducible refine Keeps.eqFst (by assumption) ?_ | with_reducible refine Keeps.eqNext (by assumption) ?_

theorem State.islRun_keeps {s0 : Orig} {s : State} (h : Keeps s0 s) (ks : List Nat) (hm : Sub 9227594918233735214 s0.m) : Keeps s0 (State.islRun s ks) := by
  unfold State.islRun
  try dsimp only
  repeat' first | with_reducible assumption | with_reducible intro _ | ((with_reducible refine Sub.tr ?_ hm); exact rfl) | with_reducible apply Keeps.ite | with_reducible apply State.each_keeps | with_reducible apply State.setF_keeps | with_reducible apply State.islMod_keeps | with_reducible apply State.islLink_keeps | split

theorem State.xcMod_keeps {s0 : Orig} {s : State} (h : Keeps s0 s) (m : Nat) (f : Xc → Xc) (hm : Sub 1125899906842624 s0.m) : Keeps s0 (State.xcMod s m f) := by
  unfold State.xcMod
  try dsimp only
  repeat' first | with_reducible assumption | with_reducible intro _ | ((with_reducible refine Sub.tr ?_ hm); exact rfl) | with_reducible apply Keeps.ite | with_reducible apply State.putPace_keeps | split

theorem State.xcReach_keeps {s0 : Orig} {s : State} (h : Keeps s0 s) (m : Nat) (merge : Bool) (hm : Sub 1126450199789580 s0.m) : Keeps s0 (State.xcReach s m merge) := by
  unfold State.xcReach
  try dsimp only
  repeat' first | with_reducible assumption | with_reducible intro _ | ((with_reducible refine Sub.tr ?_ hm); exact rfl) | with_reducible apply Keeps.ite | with_reducible apply State.xcMod_keeps | with_reducible apply State.setF_keeps | with_reducible apply State.event_keeps | split

theorem execXcToggle_keeps {s0 : Orig} {s : State} (h : Keeps s0 s) (m : Fin 232) (hm : Sub 1126450199789580 s0.m) : KeepsR s0 (execXcToggle m s) := by
  unfold execXcToggle
  try dsimp only
  repeat' first | with_reducible assumption | with_reducible intro _ | ((with_reducible refine Sub.tr ?_ hm); exact rfl) | with_reducible apply Keeps.ite | with_reducible apply KeepsR.ok | with_reducible apply KeepsR.ite | with_reducible apply ok_keeps | with_reducible apply State.xcMod_keeps | with_reducible apply State.incF_keeps | with_reducible apply State.xcReach_keeps | split | with_reducible refine Keeps.eqNext (by assumption) ?_

theorem execXcToggleAck_keeps {s0 : Orig} {s : State} (h : Keeps s0 s) (m : Fin 232) (hm : Sub 1125899906842624 s0.m) : KeepsR s0 (execXcToggleAck m s) := by
  unfold execXcToggleAck
  try dsimp only
  repeat' first | with_reducible assumption | with_reducible intro _ | ((with_reducible refine Sub.tr ?_ hm); exact rfl) | with_reducible apply Keeps.ite | with_reducible apply KeepsR.ok | with_reducible apply KeepsR.ite | with_reducible apply ok_keeps | with_reducible apply State.xcMod_keeps | split | with_reducible refine Keeps.eqNext (by assumption) ?_

theorem execXcValueAccept_keeps {s0 : Orig} {s : State} (h : Keeps s0 s) (m : Fin 232) (ws : XcWrites) (ab : Word × Word) (hm : Sub 1126450199789580 s0.m) : KeepsR s0 (execXcValueAccept m ws ab s) := by
  unfold execXcValueAccept
  try dsimp only
  repeat' first | with_reducible assumption | with_reducible intro _ | ((with_reducible refine Sub.tr ?_ hm); exact rfl) | with_reducible apply Keeps.ite | with_reducible apply KeepsR.ok | with_reducible apply KeepsR.ite | with_reducible apply ok_keeps | with_reducible apply State.xcMod_keeps | with_reducible apply State.incF_keeps | with_reducible apply State.xcReach_keeps | split | with_reducible refine Keeps.eqNext (by assumption) ?_

theorem execXcFabricRead_keeps {s0 : Orig} {s : State} (h : Keeps s0 s) (m : Fin 232) (vs : List Word) (hm : Sub 1125899906842624 s0.m) : KeepsR s0 (execXcFabricRead m vs s) := by
  unfold execXcFabricRead
  try dsimp only
  repeat' first | with_reducible assumption | with_reducible intro _ | ((with_reducible refine Sub.tr ?_ hm); exact rfl) | with_reducible apply Keeps.ite | with_reducible apply KeepsR.ok | with_reducible apply KeepsR.ite | with_reducible apply ok_keeps | with_reducible apply State.xcMod_keeps | split | with_reducible refine Keeps.eqNext (by assumption) ?_

theorem execXcClear_keeps {s0 : Orig} {s : State} (h : Keeps s0 s)  (hm : Sub 1126450468225036 s0.m) : KeepsR s0 (execXcClear s) := by
  unfold execXcClear
  try dsimp only
  repeat' first | with_reducible assumption | with_reducible intro _ | ((with_reducible refine Sub.tr ?_ hm); exact rfl) | with_reducible apply Keeps.ite | with_reducible apply KeepsR.ok | with_reducible apply KeepsR.ite | with_reducible apply KeepsP.ite | with_reducible apply State.each_keeps | with_reducible apply ok_keeps | with_reducible apply State.command_keeps | with_reducible apply refuse_keeps | with_reducible apply State.wrN_keeps | with_reducible apply State.xcMod_keeps | with_reducible apply done_keeps | simp -zeta only [KeepsP.pair, KeepsQ.pair] | with_reducible apply KeepsP.fst | split | with_reducible refine Keeps.eqFst (by assumption) ?_ | with_reducible refine Keeps.eqNext (by assumption) ?_

theorem State.paceCoreReset_keeps {s0 : Orig} {s : State} (h : Keeps s0 s)  (hm : Sub 9227594918233735214 s0.m) : Keeps s0 (State.paceCoreReset s) := by
  unfold State.paceCoreReset
  try dsimp only
  repeat' first | with_reducible assumption | with_reducible intro _ | ((with_reducible refine Sub.tr ?_ hm); exact rfl) | with_reducible apply Keeps.ite | with_reducible apply KeepsR.ok | with_reducible apply KeepsR.ite | with_reducible apply State.resetWindow_keeps | with_reducible apply State.putPace_keeps | with_reducible apply State.islRun_keeps | with_reducible apply State.setFloor_keeps | split | with_reducible refine Keeps.eqNext (by assumption) ?_

end Sys2Proof.Machine
end

