-- ==== Sys2Proof/Laws/KeepsEthernet.lean ====
section
/-! SUPPORT. The operations of Machine/Ethernet.lean keep the queue of commands and the canonical form, and change no part outside
their footprint. -/

set_option linter.unusedSimpArgs false
set_option linter.unusedVariables false
set_option Elab.async false

namespace Sys2Proof.Machine

theorem State.ethFault_keeps {s0 : Orig} {s : State} (h : Keeps s0 s)  (hm : Sub 563500246433800 s0.m) : Keeps s0 (State.ethFault s) := by
  unfold State.ethFault
  try dsimp only
  repeat' first | with_reducible assumption | with_reducible intro _ | ((with_reducible refine Sub.tr ?_ hm); exact rfl) | with_reducible apply Keeps.ite | with_reducible apply State.putEth_keeps | with_reducible apply State.event_keeps | split

theorem State.dropIn_keeps {s0 : Orig} {s : State} (h : Keeps s0 s) (p : Nat) (hm : Sub 563500246433800 s0.m) : Keeps s0 (State.dropIn s p) := by
  unfold State.dropIn
  try dsimp only
  repeat' first | with_reducible assumption | with_reducible intro _ | ((with_reducible refine Sub.tr ?_ hm); exact rfl) | with_reducible apply Keeps.ite | with_reducible apply State.incF_keeps | with_reducible apply State.ethFault_keeps | split

theorem State.dropOut_keeps {s0 : Orig} {s : State} (h : Keeps s0 s) (p : Nat) (hm : Sub 563500246433800 s0.m) : Keeps s0 (State.dropOut s p) := by
  unfold State.dropOut
  try dsimp only
  repeat' first | with_reducible assumption | with_reducible intro _ | ((with_reducible refine Sub.tr ?_ hm); exact rfl) | with_reducible apply Keeps.ite | with_reducible apply State.incF_keeps | with_reducible apply State.ethFault_keeps | split

theorem execEthLink_keeps {s0 : Orig} {s : State} (h : Keeps s0 s) (p : Fin 5) (up : Bool) (hm : Sub 563500514869256 s0.m) : KeepsR s0 (execEthLink p up s) := by
  unfold execEthLink
  try dsimp only
  repeat' first | with_reducible assumption | with_reducible intro _ | ((with_reducible refine Sub.tr ?_ hm); exact rfl) | with_reducible apply Keeps.ite | with_reducible apply KeepsR.ok | with_reducible apply KeepsR.ite | with_reducible apply State.linkSet_keeps | with_reducible apply ok_keeps | with_reducible apply State.cmdEnd_keeps | split | with_reducible refine Keeps.eqNext (by assumption) ?_

theorem State.fdbShow_keeps {s0 : Orig} {s : State} (h : Keeps s0 s)  (hm : Sub 65536 s0.m) : Keeps s0 (State.fdbShow s) := by
  unfold State.fdbShow
  try dsimp only
  repeat' first | with_reducible assumption | with_reducible intro _ | ((with_reducible refine Sub.tr ?_ hm); exact rfl) | with_reducible apply Keeps.ite | with_reducible apply State.wrN_keeps | split

theorem State.learn_keeps {s0 : Orig} {s : State} (h : Keeps s0 s) (p mac vid : Nat) (hm : Sub 562949953486848 s0.m) : Keeps s0 (State.learn s p mac vid) := by
  unfold State.learn
  try dsimp only
  repeat' first | with_reducible assumption | with_reducible intro _ | ((with_reducible refine Sub.tr ?_ hm); exact rfl) | with_reducible apply Keeps.ite | with_reducible apply State.putEth_keeps | with_reducible apply State.fdbShow_keeps | split

theorem State.hostRx_keeps {s0 : Orig} {s : State} (h : Keeps s0 s)  (hm : Sub 563500246433800 s0.m) : Keeps s0 (State.hostRx s) := by
  unfold State.hostRx
  try dsimp only
  repeat' first | with_reducible assumption | with_reducible intro _ | ((with_reducible refine Sub.tr ?_ hm); exact rfl) | with_reducible apply Keeps.ite | with_reducible apply State.putEth_keeps | with_reducible apply State.event_keeps | split

theorem State.toHost_keeps {s0 : Orig} {s : State} (h : Keeps s0 s) (p pcp vid t : Nat) (d : List Byte) (hm : Sub 563706413252618 s0.m) : Keeps s0 (State.toHost s p pcp vid t d) := by
  unfold State.toHost
  try dsimp only
  repeat' first | with_reducible assumption | with_reducible intro _ | ((with_reducible refine Sub.tr ?_ hm); exact rfl) | with_reducible apply Keeps.ite | with_reducible apply State.engStore_keeps | with_reducible apply State.wrN_keeps | with_reducible apply State.putEth_keeps | with_reducible apply State.hostRx_keeps | with_reducible apply State.count32_keeps | with_reducible apply State.ethFault_keeps | split

theorem State.sendOut_keeps {s0 : Orig} {s : State} (h : Keeps s0 s) (q full : Nat) (d : List Byte) (hm : Sub 563500246433800 s0.m) : Keeps s0 (State.sendOut s q full d) := by
  unfold State.sendOut
  try dsimp only
  repeat' first | with_reducible assumption | with_reducible intro _ | ((with_reducible refine Sub.tr ?_ hm); exact rfl) | with_reducible apply Keeps.ite | with_reducible apply State.dropOut_keeps | with_reducible apply State.putEth_keeps | with_reducible apply State.count32_keeps | split

theorem State.sendPort_keeps {s0 : Orig} {s : State} (h : Keeps s0 s) (p q pcp vid t : Nat) (vlan : Word) (full : Nat) (f : EthFrame) (d : List Byte) (hm : Sub 563706413252618 s0.m) : Keeps s0 (State.sendPort s p q pcp vid t vlan full f d) := by
  unfold State.sendPort
  try dsimp only
  repeat' first | with_reducible assumption | with_reducible intro _ | ((with_reducible refine Sub.tr ?_ hm); exact rfl) | with_reducible apply Keeps.ite | with_reducible apply State.sendOut_keeps | with_reducible apply State.dropOut_keeps | with_reducible apply State.toHost_keeps | split

theorem State.forward_keeps {s0 : Orig} {s : State} (h : Keeps s0 s) (p pcp vid t : Nat) (vlan : Word) (full : Nat) (host : Bool) (f : EthFrame) (d : List Byte) (hm : Sub 563706413252618 s0.m) : Keeps s0 (State.forward s p pcp vid t vlan full host f d) := by
  unfold State.forward
  try dsimp only
  repeat' first | with_reducible assumption | with_reducible intro _ | ((with_reducible refine Sub.tr ?_ hm); exact rfl) | with_reducible apply Keeps.ite | with_reducible apply State.each_keeps | with_reducible apply State.sendPort_keeps | split

theorem State.classify_keeps {s0 : Orig} {s : State} (h : Keeps s0 s) (p pcp vid t : Nat) (vlan : Word) (full : Nat) (f : EthFrame) (d : List Byte) (hm : Sub 704443901608202 s0.m) : Keeps s0 (State.classify s p pcp vid t vlan full f d) := by
  unfold State.classify
  try dsimp only
  repeat' first | with_reducible assumption | with_reducible intro _ | ((with_reducible refine Sub.tr ?_ hm); exact rfl) | with_reducible apply Keeps.ite | with_reducible apply KeepsR.ok | with_reducible apply KeepsR.ite | with_reducible apply execSlotFragment_keeps | with_reducible apply State.toHost_keeps | with_reducible apply State.forward_keeps | split | with_reducible refine Keeps.eqNext (by assumption) ?_

theorem State.ingress_keeps {s0 : Orig} {s : State} (h : Keeps s0 s) (p t : Nat) (full : Nat) (d : List Byte) (hm : Sub 704443901608202 s0.m) : Keeps s0 (State.ingress s p t full d) := by
  unfold State.ingress
  try dsimp only
  repeat' first | with_reducible assumption | with_reducible intro _ | ((with_reducible refine Sub.tr ?_ hm); exact rfl) | with_reducible apply Keeps.ite | with_reducible apply State.dropIn_keeps | with_reducible apply State.learn_keeps | with_reducible apply State.classify_keeps | split

theorem execEthFrameReceived_keeps {s0 : Orig} {s : State} (h : Keeps s0 s) (p : Fin 5) (t : Nat) (d : List Byte) (bad : Bool) (full : BitVec 6) (hm : Sub 704443901608202 s0.m) : KeepsR s0 (execEthFrameReceived p t d bad full s) := by
  unfold execEthFrameReceived
  try dsimp only
  repeat' first | with_reducible assumption | with_reducible intro _ | ((with_reducible refine Sub.tr ?_ hm); exact rfl) | with_reducible apply Keeps.ite | with_reducible apply KeepsR.ok | with_reducible apply KeepsR.ite | with_reducible apply State.count32_keeps | with_reducible apply ok_keeps | with_reducible apply State.dropIn_keeps | with_reducible apply State.ingress_keeps | split | with_reducible refine Keeps.eqNext (by assumption) ?_

theorem execEthRxHeadWrite_keeps {s0 : Orig} {s : State} (h : Keeps s0 s) (q : Fin 4) (v : Word) (hm : Sub 65536 s0.m) : KeepsR s0 (execEthRxHeadWrite q v s) := by
  unfold execEthRxHeadWrite
  try dsimp only
  repeat' first | with_reducible assumption | with_reducible intro _ | ((with_reducible refine Sub.tr ?_ hm); exact rfl) | with_reducible apply Keeps.ite | with_reducible apply KeepsR.ok | with_reducible apply KeepsR.ite | with_reducible apply ok_keeps | with_reducible apply State.wrN_keeps | split | with_reducible refine Keeps.eqNext (by assumption) ?_

theorem execEthTxHeadWrite_keeps {s0 : Orig} {s : State} (h : Keeps s0 s) (q : Fin 4) (v : Word) (hm : Sub 65536 s0.m) : KeepsR s0 (execEthTxHeadWrite q v s) := by
  unfold execEthTxHeadWrite
  try dsimp only
  repeat' first | with_reducible assumption | with_reducible intro _ | ((with_reducible refine Sub.tr ?_ hm); exact rfl) | with_reducible apply Keeps.ite | with_reducible apply KeepsR.ok | with_reducible apply KeepsR.ite | with_reducible apply ok_keeps | with_reducible apply State.wrN_keeps | split | with_reducible refine Keeps.eqNext (by assumption) ?_

theorem execEthFrameSent_keeps {s0 : Orig} {s : State} (h : Keeps s0 s) (q : Fin 4) (t : Nat) (full : BitVec 6) (hm : Sub 704443901608202 s0.m) : KeepsR s0 (execEthFrameSent q t full s) := by
  unfold execEthFrameSent
  try dsimp only
  repeat' first | with_reducible assumption | with_reducible intro _ | ((with_reducible refine Sub.tr ?_ hm); exact rfl) | with_reducible apply Keeps.ite | with_reducible apply KeepsR.ok | with_reducible apply KeepsR.ite | with_reducible apply State.each_keeps | with_reducible apply State.ingress_keeps | with_reducible apply State.sendOut_keeps | with_reducible apply State.engStore_keeps | with_reducible apply ok_keeps | with_reducible apply State.wrN_keeps | split | with_reducible refine Keeps.eqNext (by assumption) ?_

theorem State.hostSeen_keeps {s0 : Orig} {s : State} (h : Keeps s0 s)  (hm : Sub 562949953421312 s0.m := by first | assumption | exact Sub.tr rfl (by assumption)) : Keeps s0 (State.hostSeen s) := by
  unfold State.hostSeen
  try dsimp only
  repeat' first | with_reducible assumption | with_reducible intro _ | ((with_reducible refine Sub.tr ?_ hm); exact rfl) | with_reducible apply Keeps.ite | with_reducible apply State.putEth_keeps | split

theorem execFdbAge_keeps {s0 : Orig} {s : State} (h : Keeps s0 s) (k : Nat) (hm : Sub 72620544092078080 s0.m) : KeepsR s0 (execFdbAge k s) := by
  unfold execFdbAge
  try dsimp only
  repeat' first | with_reducible assumption | with_reducible intro _ | ((with_reducible refine Sub.tr ?_ hm); exact rfl) | with_reducible apply Keeps.ite | with_reducible apply KeepsR.ok | with_reducible apply KeepsR.ite | with_reducible apply State.pass_keeps | with_reducible apply ok_keeps | with_reducible apply State.putEth_keeps | with_reducible apply State.fdbShow_keeps | split | with_reducible refine Keeps.eqNext (by assumption) ?_

theorem execPtpSync_keeps {s0 : Orig} {s : State} (h : Keeps s0 s)  (hm : Sub 562949953486848 s0.m) : KeepsR s0 (execPtpSync s) := by
  unfold execPtpSync
  try dsimp only
  repeat' first | with_reducible assumption | with_reducible intro _ | ((with_reducible refine Sub.tr ?_ hm); exact rfl) | with_reducible apply Keeps.ite | with_reducible apply KeepsR.ok | with_reducible apply KeepsR.ite | with_reducible apply State.each_keeps | with_reducible apply State.putEth_keeps | with_reducible apply ok_keeps | with_reducible apply State.count32_keeps | split | with_reducible refine Keeps.eqNext (by assumption) ?_

theorem execPeerDelay_keeps {s0 : Orig} {s : State} (h : Keeps s0 s) (p : Fin 5) (d : Option Nat) (hm : Sub 562949953486848 s0.m) : KeepsR s0 (execPeerDelay p d s) := by
  unfold execPeerDelay
  try dsimp only
  repeat' first | with_reducible assumption | with_reducible intro _ | ((with_reducible refine Sub.tr ?_ hm); exact rfl) | with_reducible apply Keeps.ite | with_reducible apply KeepsR.ok | with_reducible apply KeepsR.ite | with_reducible apply State.setF_keeps | with_reducible apply State.putEth_keeps | with_reducible apply ok_keeps | with_reducible apply State.setCapable_keeps | split | with_reducible refine Keeps.eqNext (by assumption) ?_

theorem execFdbFlush_keeps {s0 : Orig} {s : State} (h : Keeps s0 s)  (hm : Sub 563500514869256 s0.m) : KeepsR s0 (execFdbFlush s) := by
  unfold execFdbFlush
  try dsimp only
  repeat' first | with_reducible assumption | with_reducible intro _ | ((with_reducible refine Sub.tr ?_ hm); exact rfl) | with_reducible apply Keeps.ite | with_reducible apply KeepsR.ok | with_reducible apply KeepsR.ite | with_reducible apply KeepsP.ite | with_reducible apply ok_keeps | with_reducible apply State.command_keeps | with_reducible apply done_keeps | with_reducible apply State.putEth_keeps | with_reducible apply State.fdbShow_keeps | simp -zeta only [KeepsP.pair, KeepsQ.pair] | with_reducible apply KeepsP.fst | split | with_reducible refine Keeps.eqFst (by assumption) ?_ | with_reducible refine Keeps.eqNext (by assumption) ?_

theorem execPortRestart_keeps {s0 : Orig} {s : State} (h : Keeps s0 s)  (hm : Sub 563500514869256 s0.m) : KeepsR s0 (execPortRestart s) := by
  unfold execPortRestart
  try dsimp only
  repeat' first | with_reducible assumption | with_reducible intro _ | ((with_reducible refine Sub.tr ?_ hm); exact rfl) | with_reducible apply Keeps.ite | with_reducible apply KeepsR.ok | with_reducible apply KeepsR.ite | with_reducible apply KeepsP.ite | with_reducible apply ok_keeps | with_reducible apply State.command_keeps | with_reducible apply State.linkSet_keeps | with_reducible apply done_keeps | simp -zeta only [KeepsP.pair, KeepsQ.pair] | with_reducible apply KeepsP.fst | split | with_reducible refine Keeps.eqFst (by assumption) ?_ | with_reducible refine Keeps.eqNext (by assumption) ?_

theorem execEthClearCounts_keeps {s0 : Orig} {s : State} (h : Keeps s0 s)  (hm : Sub 550561447944 s0.m) : KeepsR s0 (execEthClearCounts s) := by
  unfold execEthClearCounts
  try dsimp only
  repeat' first | with_reducible assumption | with_reducible intro _ | ((with_reducible refine Sub.tr ?_ hm); exact rfl) | with_reducible apply Keeps.ite | with_reducible apply KeepsR.ok | with_reducible apply KeepsR.ite | with_reducible apply KeepsP.ite | with_reducible apply State.each_keeps | with_reducible apply ok_keeps | with_reducible apply State.command_keeps | with_reducible apply State.wrN_keeps | with_reducible apply done_keeps | simp -zeta only [KeepsP.pair, KeepsQ.pair] | with_reducible apply KeepsP.fst | split | with_reducible refine Keeps.eqFst (by assumption) ?_ | with_reducible refine Keeps.eqNext (by assumption) ?_

end Sys2Proof.Machine
end

