-- ==== Sys2Proof/Laws/KeepsGnss.lean ====
section
/-! SUPPORT. The operations of Machine/Gnss.lean keep the queue of commands and the canonical form, and change no part outside
their footprint. -/

set_option linter.unusedSimpArgs false
set_option linter.unusedVariables false
set_option Elab.async false

namespace Sys2Proof.Machine

theorem State.acqKick_keeps {s0 : Orig} {s : State} (h : Keeps s0 s)  (hm : Sub 144115394242674690 s0.m) : Keeps s0 (State.acqKick s) := by
  unfold State.acqKick
  try dsimp only
  repeat' first | with_reducible assumption | with_reducible intro _ | ((with_reducible refine Sub.tr ?_ hm); exact rfl) | with_reducible apply Keeps.ite | with_reducible apply State.engLE_keeps | with_reducible apply State.putGns_keeps | split

theorem execAcqHeadWrite_keeps {s0 : Orig} {s : State} (h : Keeps s0 s) (v : Word) (hm : Sub 144115394242674754 s0.m) : KeepsR s0 (execAcqHeadWrite v s) := by
  unfold execAcqHeadWrite
  try dsimp only
  repeat' first | with_reducible assumption | with_reducible intro _ | ((with_reducible refine Sub.tr ?_ hm); exact rfl) | with_reducible apply Keeps.ite | with_reducible apply KeepsR.ok | with_reducible apply KeepsR.ite | with_reducible apply ok_keeps | with_reducible apply State.wrN_keeps | with_reducible apply State.acqKick_keeps | split | with_reducible refine Keeps.eqNext (by assumption) ?_

theorem State.acqEnd_keeps {s0 : Orig} {s : State} (h : Keeps s0 s) (r : Result) (found : Bool) (hm : Sub 144115944535621706 s0.m) : Keeps s0 (State.acqEnd s r found) := by
  unfold State.acqEnd
  try dsimp only
  repeat' first | with_reducible assumption | with_reducible intro _ | ((with_reducible refine Sub.tr ?_ hm); exact rfl) | with_reducible apply Keeps.ite | with_reducible apply State.engLE_keeps | with_reducible apply State.putGns_keeps | with_reducible apply State.wrN_keeps | with_reducible apply State.event_keeps | split

theorem execAcqDone_keeps {s0 : Orig} {s : State} (h : Keeps s0 s) (code dop ratio : BitVec 16) (hm : Sub 144115944535621706 s0.m) : KeepsR s0 (execAcqDone code dop ratio s) := by
  unfold execAcqDone
  try dsimp only
  repeat' first | with_reducible assumption | with_reducible intro _ | ((with_reducible refine Sub.tr ?_ hm); exact rfl) | with_reducible apply Keeps.ite | with_reducible apply KeepsR.ok | with_reducible apply KeepsR.ite | with_reducible apply ok_keeps | with_reducible apply State.engLE_keeps | with_reducible apply State.acqEnd_keeps | with_reducible apply State.acqKick_keeps | split | with_reducible refine Keeps.eqNext (by assumption) ?_

theorem State.gcWrite_keeps {s0 : Orig} {s : State} (h : Keeps s0 s) (c : Nat) (hm : Sub 206166818818 s0.m) : Keeps s0 (State.gcWrite s c) := by
  unfold State.gcWrite
  try dsimp only
  repeat' first | with_reducible assumption | with_reducible intro _ | ((with_reducible refine Sub.tr ?_ hm); exact rfl) | with_reducible apply Keeps.ite | with_reducible apply State.engLE_keeps | split

theorem State.gcSet_keeps {s0 : Orig} {s : State} (h : Keeps s0 s) (c : Nat) (x : GnsCh) (hm : Sub 144115394242674754 s0.m) : Keeps s0 (State.gcSet s c x) := by
  unfold State.gcSet
  try dsimp only
  repeat' first | with_reducible assumption | with_reducible intro _ | ((with_reducible refine Sub.tr ?_ hm); exact rfl) | with_reducible apply Keeps.ite | with_reducible apply State.putGns_keeps | with_reducible apply State.setBit_keeps | with_reducible apply State.setF_keeps | with_reducible apply State.gcWrite_keeps | split

theorem execChStart_keeps {s0 : Orig} {s : State} (h : Keeps s0 s)  (hm : Sub 144115944804057162 s0.m) : KeepsR s0 (execChStart s) := by
  unfold execChStart
  try dsimp only
  repeat' first | with_reducible assumption | with_reducible intro _ | ((with_reducible refine Sub.tr ?_ hm); exact rfl) | with_reducible apply Keeps.ite | with_reducible apply KeepsR.ok | with_reducible apply KeepsR.ite | with_reducible apply KeepsP.ite | with_reducible apply State.each_keeps | with_reducible apply ok_keeps | with_reducible apply State.command_keeps | with_reducible apply refuse_keeps | with_reducible apply done_keeps | with_reducible apply State.gcSet_keeps | simp -zeta only [KeepsP.pair, KeepsQ.pair] | with_reducible apply KeepsP.fst | split | with_reducible refine Keeps.eqFst (by assumption) ?_ | with_reducible refine Keeps.eqNext (by assumption) ?_

theorem execChStop_keeps {s0 : Orig} {s : State} (h : Keeps s0 s)  (hm : Sub 144115944804057162 s0.m) : KeepsR s0 (execChStop s) := by
  unfold execChStop
  try dsimp only
  repeat' first | with_reducible assumption | with_reducible intro _ | ((with_reducible refine Sub.tr ?_ hm); exact rfl) | with_reducible apply Keeps.ite | with_reducible apply KeepsR.ok | with_reducible apply KeepsR.ite | with_reducible apply KeepsP.ite | with_reducible apply State.each_keeps | with_reducible apply ok_keeps | with_reducible apply State.command_keeps | with_reducible apply refuse_keeps | with_reducible apply done_keeps | with_reducible apply State.gcSet_keeps | simp -zeta only [KeepsP.pair, KeepsQ.pair] | with_reducible apply KeepsP.fst | split | with_reducible refine Keeps.eqFst (by assumption) ?_ | with_reducible refine Keeps.eqNext (by assumption) ?_

theorem execChTrack_keeps {s0 : Orig} {s : State} (h : Keeps s0 s) (c : Fin 512) (cn0 : BitVec 16) (hm : Sub 144115394242674754 s0.m) : KeepsR s0 (execChTrack c cn0 s) := by
  unfold execChTrack
  try dsimp only
  repeat' first | with_reducible assumption | with_reducible intro _ | ((with_reducible refine Sub.tr ?_ hm); exact rfl) | with_reducible apply Keeps.ite | with_reducible apply KeepsR.ok | with_reducible apply KeepsR.ite | with_reducible apply ok_keeps | with_reducible apply State.gcSet_keeps | split | with_reducible refine Keeps.eqNext (by assumption) ?_

theorem execChLost_keeps {s0 : Orig} {s : State} (h : Keeps s0 s) (c : Fin 512) (why : Fin 4) (hm : Sub 144115944535621706 s0.m) : KeepsR s0 (execChLost c why s) := by
  unfold execChLost
  try dsimp only
  repeat' first | with_reducible assumption | with_reducible intro _ | ((with_reducible refine Sub.tr ?_ hm); exact rfl) | with_reducible apply Keeps.ite | with_reducible apply KeepsR.ok | with_reducible apply KeepsR.ite | with_reducible apply State.gcSet_keeps | with_reducible apply ok_keeps | with_reducible apply State.setBit_keeps | with_reducible apply State.event_keeps | split | with_reducible refine Keeps.eqNext (by assumption) ?_

theorem State.gcObs_keeps {s0 : Orig} {s : State} (h : Keeps s0 s) (c : Nat) (o : GnsObs) (hm : Sub 144115394242674754 s0.m) : Keeps s0 (State.gcObs s c o) := by
  unfold State.gcObs
  try dsimp only
  repeat' first | with_reducible assumption | with_reducible intro _ | ((with_reducible refine Sub.tr ?_ hm); exact rfl) | with_reducible apply Keeps.ite | with_reducible apply State.gcSet_keeps | split

theorem State.latched_keeps {s0 : Orig} {s : State} (h : Keeps s0 s) (obs : List GnsObs) (hm : Sub 134217728 s0.m := by first | assumption | exact Sub.tr rfl (by assumption)) : KeepsP s0 (State.latched s obs) := by
  have k : ∀ (l : List Nat) (r : State × List (Nat × GnsObs)), Keeps s0 r.1 → Keeps s0 (l.foldl
      (fun (r : State × List (Nat × GnsObs)) c =>
        match obsOf obs c with
        | some o => (r.1, r.2 ++ [(c, o)])
        | none => (r.1.drawn, r.2 ++ [(c, obsFree (Fin.ofNat 512 c) (r.1.freeNat (2 ^ 212)))])) r).1 := by
    intro l
    induction l with
    | nil => exact fun _ h => h
    | cons c l ih =>
      intro r h
      refine ih _ ?_
      dsimp only
      split
      · exact h
      · exact State.drawn_keeps h
  exact k _ _ h

theorem State.toEpoch_keeps {s0 : Orig} {s : State} (h : Keeps s0 s)  (hm : Sub 72057594138591232 s0.m) : Keeps s0 (State.toEpoch s) := by
  unfold State.toEpoch
  try dsimp only
  repeat' first | with_reducible assumption | with_reducible intro _ | ((with_reducible refine Sub.tr ?_ hm); exact rfl) | with_reducible apply Keeps.ite | with_reducible apply State.passTo_keeps | split

theorem execGnsMeas_keeps {s0 : Orig} {s : State} (h : Keeps s0 s) (obs : List GnsObs) (hm : Sub 216173538808430666 s0.m) : KeepsR s0 (execGnsMeas obs s) := by
  unfold execGnsMeas
  try dsimp only
  repeat' first | with_reducible assumption | with_reducible intro _ | ((with_reducible refine Sub.tr ?_ hm); exact rfl) | with_reducible apply Keeps.ite | with_reducible apply KeepsR.ok | with_reducible apply KeepsR.ite | with_reducible apply KeepsP.ite | with_reducible apply State.each_keeps | with_reducible apply State.toEpoch_keeps | with_reducible apply State.latched_keeps | with_reducible apply State.engLE_keeps | with_reducible apply State.engStore_keeps | with_reducible apply State.putGns_keeps | with_reducible apply State.gcObs_keeps | with_reducible apply State.gcWrite_keeps | with_reducible apply ok_keeps | with_reducible apply State.wrN_keeps | with_reducible apply State.event_keeps | simp -zeta only [KeepsP.pair, KeepsQ.pair] | with_reducible apply KeepsP.fst | split | with_reducible refine Keeps.eqFst (by assumption) ?_ | with_reducible refine Keeps.eqNext (by assumption) ?_

theorem execNavbit_keeps {s0 : Orig} {s : State} (h : Keeps s0 s) (c : Fin 512) (long : Bool) (t : Nat) (before raw : List Byte) (hm : Sub 144115944535621706 s0.m) : KeepsR s0 (execNavbit c long t before raw s) := by
  unfold execNavbit
  try dsimp only
  repeat' first | with_reducible assumption | with_reducible intro _ | ((with_reducible refine Sub.tr ?_ hm); exact rfl) | with_reducible apply Keeps.ite | with_reducible apply KeepsR.ok | with_reducible apply KeepsR.ite | with_reducible apply ok_keeps | with_reducible apply State.engLE_keeps | with_reducible apply State.engStore_keeps | with_reducible apply State.putGns_keeps | with_reducible apply State.wrN_keeps | with_reducible apply State.event_keeps | split | with_reducible refine Keeps.eqNext (by assumption) ?_

theorem State.antSet_keeps {s0 : Orig} {s : State} (h : Keeps s0 s) (a ma : Nat) (hm : Sub 550292947016 s0.m) : Keeps s0 (State.antSet s a ma) := by
  unfold State.antSet
  try dsimp only
  repeat' first | with_reducible assumption | with_reducible intro _ | ((with_reducible refine Sub.tr ?_ hm); exact rfl) | with_reducible apply Keeps.ite | with_reducible apply State.setF_keeps | with_reducible apply State.incF_keeps | with_reducible apply State.event_keeps | split

theorem execGnsAnt_keeps {s0 : Orig} {s : State} (h : Keeps s0 s) (a : Fin 2) (ma : Nat) (hm : Sub 550292947016 s0.m) : KeepsR s0 (execGnsAnt a ma s) := by
  unfold execGnsAnt
  try dsimp only
  repeat' first | with_reducible assumption | with_reducible intro _ | ((with_reducible refine Sub.tr ?_ hm); exact rfl) | with_reducible apply Keeps.ite | with_reducible apply KeepsR.ok | with_reducible apply KeepsR.ite | with_reducible apply ok_keeps | with_reducible apply State.antSet_keeps | split | with_reducible refine Keeps.eqNext (by assumption) ?_

theorem execAntBiasRetry_keeps {s0 : Orig} {s : State} (h : Keeps s0 s) (a : Fin 2) (ma : Nat) (hm : Sub 550292947016 s0.m) : KeepsR s0 (execAntBiasRetry a ma s) := by
  unfold execAntBiasRetry
  try dsimp only
  repeat' first | with_reducible assumption | with_reducible intro _ | ((with_reducible refine Sub.tr ?_ hm); exact rfl) | with_reducible apply Keeps.ite | with_reducible apply KeepsR.ok | with_reducible apply KeepsR.ite | with_reducible apply ok_keeps | with_reducible apply State.antSet_keeps | split | with_reducible refine Keeps.eqNext (by assumption) ?_

theorem State.antSwitch_keeps {s0 : Orig} {s : State} (h : Keeps s0 s) (a : Nat) (hm : Sub 550292947016 s0.m) : Keeps s0 (State.antSwitch s a) := by
  unfold State.antSwitch
  try dsimp only
  repeat' first | with_reducible assumption | with_reducible intro _ | ((with_reducible refine Sub.tr ?_ hm); exact rfl) | with_reducible apply Keeps.ite | with_reducible apply State.antSet_keeps | split

theorem execImuRecord_keeps {s0 : Orig} {s : State} (h : Keeps s0 s) (t : Nat) (rec : List Word) (hm : Sub 206166818882 s0.m) : KeepsR s0 (execImuRecord t rec s) := by
  unfold execImuRecord
  try dsimp only
  repeat' first | with_reducible assumption | with_reducible intro _ | ((with_reducible refine Sub.tr ?_ hm); exact rfl) | with_reducible apply Keeps.ite | with_reducible apply KeepsR.ok | with_reducible apply KeepsR.ite | with_reducible apply ok_keeps | with_reducible apply State.engStore_keeps | with_reducible apply State.wrN_keeps | split | with_reducible refine Keeps.eqNext (by assumption) ?_

theorem State.fwStart_keeps {s0 : Orig} {s : State} (h : Keeps s0 s)  (hm : Sub 144115188075855872 s0.m) : Keeps s0 (State.fwStart s) := by
  unfold State.fwStart
  try dsimp only
  repeat' first | with_reducible assumption | with_reducible intro _ | ((with_reducible refine Sub.tr ?_ hm); exact rfl) | with_reducible apply Keeps.ite | with_reducible apply State.putGns_keeps | split

theorem State.gnsStopAll_keeps {s0 : Orig} {s : State} (h : Keeps s0 s)  (hm : Sub 144115944535621706 s0.m) : Keeps s0 (State.gnsStopAll s) := by
  unfold State.gnsStopAll
  try dsimp only
  repeat' first | with_reducible assumption | with_reducible intro _ | ((with_reducible refine Sub.tr ?_ hm); exact rfl) | with_reducible apply Keeps.ite | with_reducible apply State.each_keeps | with_reducible apply State.gcSet_keeps | with_reducible apply State.acqEnd_keeps | split

theorem execColdStart_keeps {s0 : Orig} {s : State} (h : Keeps s0 s)  (hm : Sub 432346320955768906 s0.m) : KeepsR s0 (execColdStart s) := by
  unfold execColdStart
  try dsimp only
  repeat' first | with_reducible assumption | with_reducible intro _ | ((with_reducible refine Sub.tr ?_ hm); exact rfl) | with_reducible apply Keeps.ite | with_reducible apply KeepsR.ok | with_reducible apply KeepsR.ite | with_reducible apply KeepsP.ite | with_reducible apply ok_keeps | with_reducible apply State.command_keeps | with_reducible apply refuse_keeps | with_reducible apply State.putNv_keeps | with_reducible apply State.gnsStopAll_keeps | with_reducible apply done_keeps | with_reducible apply State.putGns_keeps | simp -zeta only [KeepsP.pair, KeepsQ.pair] | with_reducible apply KeepsP.fst | split | with_reducible refine Keeps.eqFst (by assumption) ?_ | with_reducible refine Keeps.eqNext (by assumption) ?_

theorem execGnsClearCounts_keeps {s0 : Orig} {s : State} (h : Keeps s0 s)  (hm : Sub 550561382472 s0.m) : KeepsR s0 (execGnsClearCounts s) := by
  unfold execGnsClearCounts
  try dsimp only
  repeat' first | with_reducible assumption | with_reducible intro _ | ((with_reducible refine Sub.tr ?_ hm); exact rfl) | with_reducible apply Keeps.ite | with_reducible apply KeepsR.ok | with_reducible apply KeepsR.ite | with_reducible apply KeepsP.ite | with_reducible apply State.each_keeps | with_reducible apply ok_keeps | with_reducible apply State.command_keeps | with_reducible apply State.setF_keeps | with_reducible apply done_keeps | with_reducible apply State.wrN_keeps | simp -zeta only [KeepsP.pair, KeepsQ.pair] | with_reducible apply KeepsP.fst | split | with_reducible refine Keeps.eqFst (by assumption) ?_ | with_reducible refine Keeps.eqNext (by assumption) ?_

theorem State.gnsOff_keeps {s0 : Orig} {s : State} (h : Keeps s0 s)  (hm : Sub 144115944535621706 s0.m) : Keeps s0 (State.gnsOff s) := by
  unfold State.gnsOff
  try dsimp only
  repeat' first | with_reducible assumption | with_reducible intro _ | ((with_reducible refine Sub.tr ?_ hm); exact rfl) | with_reducible apply Keeps.ite | with_reducible apply State.each_keeps | with_reducible apply State.gnsStopAll_keeps | with_reducible apply State.antSet_keeps | split

theorem State.gnsCoreReset_keeps {s0 : Orig} {s : State} (h : Keeps s0 s)  (hm : Sub 144115188075855936 s0.m) : Keeps s0 (State.gnsCoreReset s) := by
  unfold State.gnsCoreReset
  try dsimp only
  repeat' first | with_reducible assumption | with_reducible intro _ | ((with_reducible refine Sub.tr ?_ hm); exact rfl) | with_reducible apply Keeps.ite | with_reducible apply State.resetWindow_keeps | with_reducible apply State.putGns_keeps | split

theorem State.ephStore_keeps {s0 : Orig} {s : State} (h : Keeps s0 s)  (hm : Sub 288230376151711744 s0.m) : Keeps s0 (State.ephStore s) := by
  unfold State.ephStore
  try dsimp only
  repeat' first | with_reducible assumption | with_reducible intro _ | ((with_reducible refine Sub.tr ?_ hm); exact rfl) | with_reducible apply Keeps.ite | with_reducible apply State.putNv_keeps | split

end Sys2Proof.Machine
end

