-- ==== Sys2Proof/Laws/KeepsHousekeeping.lean ====
section
/-! SUPPORT. The operations of Machine/Housekeeping.lean keep the queue of commands and the canonical form, and change no part outside
their footprint. -/

set_option linter.unusedSimpArgs false
set_option linter.unusedVariables false
set_option Elab.async false

namespace Sys2Proof.Machine

theorem State.hkpState_keeps {s0 : Orig} {s : State} (h : Keeps s0 s) (k bit : Nat) (v : Bool) (hm : Sub 550293471240 s0.m) : Keeps s0 (State.hkpState s k bit v) := by
  unfold State.hkpState
  try dsimp only
  repeat' first | with_reducible assumption | with_reducible intro _ | ((with_reducible refine Sub.tr ?_ hm); exact rfl) | with_reducible apply Keeps.ite | with_reducible apply State.setBit_keeps | with_reducible apply State.setF_keeps | with_reducible apply State.event_keeps | split

theorem State.hkpEval_keeps {s0 : Orig} {s : State} (h : Keeps s0 s) (k : Nat) (v : Int) (hm : Sub 550293471240 s0.m) : Keeps s0 (State.hkpEval s k v) := by
  unfold State.hkpEval
  try dsimp only
  repeat' first | with_reducible assumption | with_reducible intro _ | ((with_reducible refine Sub.tr ?_ hm); exact rfl) | with_reducible apply Keeps.ite | with_reducible apply State.hkpState_keeps | split

theorem State.hkpShow_keeps {s0 : Orig} {s : State} (h : Keeps s0 s)  (hm : Sub 524288 s0.m) : Keeps s0 (State.hkpShow s) := by
  unfold State.hkpShow
  try dsimp only
  repeat' first | with_reducible assumption | with_reducible intro _ | ((with_reducible refine Sub.tr ?_ hm); exact rfl) | with_reducible apply Keeps.ite | with_reducible apply State.setBit_keeps | split

theorem State.hkpPublish_keeps {s0 : Orig} {s : State} (h : Keeps s0 s) (k : Nat) (r : Option Int) (hm : Sub 550293471240 s0.m) : Keeps s0 (State.hkpPublish s k r) := by
  unfold State.hkpPublish
  try dsimp only
  repeat' first | with_reducible assumption | with_reducible intro _ | ((with_reducible refine Sub.tr ?_ hm); exact rfl) | with_reducible apply Keeps.ite | with_reducible apply State.setBit_keeps | with_reducible apply State.wrN_keeps | with_reducible apply State.hkpEval_keeps | split

theorem State.hkpRound_keeps {s0 : Orig} {s : State} (h : Keeps s0 s) (readings : List (Option Int)) (hm : Sub 576461302596894728 s0.m) : Keeps s0 (State.hkpRound s readings) := by
  unfold State.hkpRound
  try dsimp only
  repeat' first | with_reducible assumption | with_reducible intro _ | ((with_reducible refine Sub.tr ?_ hm); exact rfl) | with_reducible apply Keeps.ite | with_reducible apply State.each_keeps | with_reducible apply State.hkpPublish_keeps | with_reducible apply State.putPwr_keeps | with_reducible apply State.burShow_keeps | with_reducible apply State.incF_keeps | with_reducible apply State.hkpShow_keeps | split

theorem State.hkpCfg_keeps {s0 : Orig} {s : State} (h : Keeps s0 s) (k : Nat) (v : Word) (hm : Sub 550293471240 s0.m) : Keeps s0 (State.hkpCfg s k v) := by
  unfold State.hkpCfg
  try dsimp only
  repeat' first | with_reducible assumption | with_reducible intro _ | ((with_reducible refine Sub.tr ?_ hm); exact rfl) | with_reducible apply Keeps.ite | with_reducible apply State.wr_keeps | with_reducible apply State.hkpState_keeps | with_reducible apply State.hkpShow_keeps | split

theorem execHkpCfgWrite_keeps {s0 : Orig} {s : State} (h : Keeps s0 s) (k : Fin 64) (v : Word) (hm : Sub 550293471240 s0.m) : KeepsR s0 (execHkpCfgWrite k v s) := by
  unfold execHkpCfgWrite
  try dsimp only
  repeat' first | with_reducible assumption | with_reducible intro _ | ((with_reducible refine Sub.tr ?_ hm); exact rfl) | with_reducible apply Keeps.ite | with_reducible apply KeepsR.ok | with_reducible apply KeepsR.ite | with_reducible apply ok_keeps | with_reducible apply State.hkpCfg_keeps | split | with_reducible refine Keeps.eqNext (by assumption) ?_

theorem execRoundNow_keeps {s0 : Orig} {s : State} (h : Keeps s0 s)  (hm : Sub 550561906696 s0.m) : KeepsR s0 (execRoundNow s) := by
  unfold execRoundNow
  try dsimp only
  repeat' first | with_reducible assumption | with_reducible intro _ | ((with_reducible refine Sub.tr ?_ hm); exact rfl) | with_reducible apply Keeps.ite | with_reducible apply KeepsR.ok | with_reducible apply KeepsR.ite | with_reducible apply KeepsP.ite | with_reducible apply ok_keeps | with_reducible apply State.command_keeps | simp -zeta only [KeepsP.pair, KeepsQ.pair] | with_reducible apply KeepsP.fst | split | with_reducible refine Keeps.eqFst (by assumption) ?_ | with_reducible refine Keeps.eqNext (by assumption) ?_

theorem execClearStates_keeps {s0 : Orig} {s : State} (h : Keeps s0 s)  (hm : Sub 550561906696 s0.m) : KeepsR s0 (execClearStates s) := by
  unfold execClearStates
  try dsimp only
  repeat' first | with_reducible assumption | with_reducible intro _ | ((with_reducible refine Sub.tr ?_ hm); exact rfl) | with_reducible apply Keeps.ite | with_reducible apply KeepsR.ok | with_reducible apply KeepsR.ite | with_reducible apply KeepsP.ite | with_reducible apply State.each_keeps | with_reducible apply ok_keeps | with_reducible apply State.command_keeps | with_reducible apply State.hkpState_keeps | with_reducible apply done_keeps | with_reducible apply State.hkpShow_keeps | simp -zeta only [KeepsP.pair, KeepsQ.pair] | with_reducible apply KeepsP.fst | split | with_reducible refine Keeps.eqFst (by assumption) ?_ | with_reducible refine Keeps.eqNext (by assumption) ?_

end Sys2Proof.Machine
end

