-- ==== Sys2Proof/Laws/KeepsMap.lean ====
section
/-! SUPPORT. The operations of Machine/Map.lean keep the queue of commands and the canonical form, and change no part outside
their footprint. -/

set_option linter.unusedSimpArgs false
set_option linter.unusedVariables false
set_option Elab.async false

namespace Sys2Proof.Machine

theorem State.mapShow_keeps {s0 : Orig} {s : State} (h : Keeps s0 s)  (hm : Sub 8192 s0.m := by first | assumption | exact Sub.tr rfl (by assumption)) : Keeps s0 (State.mapShow s) := by
  unfold State.mapShow
  try dsimp only
  repeat' first | with_reducible assumption | with_reducible intro _ | ((with_reducible refine Sub.tr ?_ hm); exact rfl) | with_reducible apply Keeps.ite | with_reducible apply State.wrN_keeps | split

theorem State.workMod_keeps {s0 : Orig} {s : State} (h : Keeps s0 s) (f : MapWork → MapWork) (hm : Sub 70368744177664 s0.m) : Keeps s0 (State.workMod s f) := by
  unfold State.workMod
  try dsimp only
  repeat' first | with_reducible assumption | with_reducible intro _ | ((with_reducible refine Sub.tr ?_ hm); exact rfl) | with_reducible apply Keeps.ite | with_reducible apply State.putMap_keeps | split

theorem State.dirtyAdd_keeps {s0 : Orig} {s : State} (h : Keeps s0 s) (c : Nat) (hm : Sub 70368744185856 s0.m) : Keeps s0 (State.dirtyAdd s c) := by
  unfold State.dirtyAdd
  try dsimp only
  repeat' first | with_reducible assumption | with_reducible intro _ | ((with_reducible refine Sub.tr ?_ hm); exact rfl) | with_reducible apply Keeps.ite | with_reducible apply State.putMap_keeps | with_reducible apply State.setBit_keeps | split

theorem State.cellPut_keeps {s0 : Orig} {s : State} (h : Keeps s0 s) (c : Nat) (bs : List Byte) (hm : Sub 70574911004674 s0.m) : Keeps s0 (State.cellPut s c bs) := by
  unfold State.cellPut
  try dsimp only
  repeat' first | with_reducible assumption | with_reducible intro _ | ((with_reducible refine Sub.tr ?_ hm); exact rfl) | with_reducible apply Keeps.ite | with_reducible apply State.store_keeps | with_reducible apply State.dirtyAdd_keeps | split

theorem State.lineRead_keeps {s0 : Orig} {s : State} (h : Keeps s0 s) (c : Nat) (hm : Sub 71400081858570 s0.m) : Keeps s0 (State.lineRead s c) := by
  unfold State.lineRead
  try dsimp only
  repeat' first | with_reducible assumption | with_reducible intro _ | ((with_reducible refine Sub.tr ?_ hm); exact rfl) | with_reducible apply Keeps.ite | with_reducible apply State.eccRead_keeps | with_reducible apply State.store_keeps | with_reducible apply State.dirtyAdd_keeps | with_reducible apply State.incF_keeps | with_reducible apply State.event_keeps | split

theorem State.cellCheck_keeps {s0 : Orig} {s : State} (h : Keeps s0 s) (c : Nat) (hm : Sub 71400081858570 s0.m) : KeepsP s0 (State.cellCheck s c) := by
  unfold State.cellCheck
  try dsimp only
  repeat' first | with_reducible assumption | with_reducible intro _ | ((with_reducible refine Sub.tr ?_ hm); exact rfl) | with_reducible apply Keeps.ite | with_reducible apply KeepsP.ite | with_reducible apply State.eccRead_keeps | with_reducible apply State.lineRead_keeps | with_reducible apply State.incF_keeps | with_reducible apply State.event_keeps | simp -zeta only [KeepsP.pair, KeepsQ.pair] | with_reducible apply KeepsP.fst | split | with_reducible refine Keeps.eqFst (by assumption) ?_

theorem execPoseGo_keeps {s0 : Orig} {s : State} (h : Keeps s0 s) (v : Word) (hm : Sub 70368744177664 s0.m) : KeepsR s0 (execPoseGo v s) := by
  unfold execPoseGo
  try dsimp only
  repeat' first | with_reducible assumption | with_reducible intro _ | ((with_reducible refine Sub.tr ?_ hm); exact rfl) | with_reducible apply Keeps.ite | with_reducible apply KeepsR.ok | with_reducible apply KeepsR.ite | with_reducible apply ok_keeps | with_reducible apply State.putMap_keeps | split | with_reducible refine Keeps.eqNext (by assumption) ?_

theorem State.touch_keeps {s0 : Orig} {s : State} (h : Keeps s0 s) (k e sec c a acc : Nat) (hm : Sub 71400081858570 s0.m) : Keeps s0 (State.touch s k e sec c a acc) := by
  unfold State.touch
  try dsimp only
  repeat' first | with_reducible assumption | with_reducible intro _ | ((with_reducible refine Sub.tr ?_ hm); exact rfl) | with_reducible apply Keeps.ite | with_reducible apply KeepsP.ite | with_reducible apply State.cellCheck_keeps | with_reducible apply State.cellPut_keeps | with_reducible apply State.workMod_keeps | with_reducible apply State.putMap_keeps | with_reducible apply State.incF_keeps | simp -zeta only [KeepsP.pair, KeepsQ.pair] | with_reducible apply KeepsP.fst | split | with_reducible refine Keeps.eqFst (by assumption) ?_

theorem State.sweepSection_keeps {s0 : Orig} {s : State} (h : Keeps s0 s) (k e sec acc : Nat) (quad : List (Int × Int)) (hm : Sub 71400081858570 s0.m) : Keeps s0 (State.sweepSection s k e sec acc quad) := by
  unfold State.sweepSection
  try dsimp only
  repeat' first | with_reducible assumption | with_reducible intro _ | ((with_reducible refine Sub.tr ?_ hm); exact rfl) | with_reducible apply Keeps.ite | with_reducible apply State.each_keeps | with_reducible apply State.touch_keeps | with_reducible apply State.putMap_keeps | with_reducible apply State.event_keeps | split

theorem State.sweep_keeps {s0 : Orig} {s : State} (h : Keeps s0 s) (k t : Nat) (hm : Sub 71400081858570 s0.m) : Keeps s0 (State.sweep s k t) := by
  unfold State.sweep
  try dsimp only
  repeat' first | with_reducible assumption | with_reducible intro _ | ((with_reducible refine Sub.tr ?_ hm); exact rfl) | with_reducible apply Keeps.ite | with_reducible apply State.each_keeps | with_reducible apply State.when_keeps | with_reducible apply State.setBit_keeps | with_reducible apply State.event_keeps | with_reducible apply State.putMap_keeps | with_reducible apply State.sweepSection_keeps | split

theorem State.addMass_keeps {s0 : Orig} {s : State} (h : Keeps s0 s) (c m : Nat) (moist : Option Nat) (flags : Nat) (hm : Sub 71400081858570 s0.m) : Keeps s0 (State.addMass s c m moist flags) := by
  unfold State.addMass
  try dsimp only
  repeat' first | with_reducible assumption | with_reducible intro _ | ((with_reducible refine Sub.tr ?_ hm); exact rfl) | with_reducible apply Keeps.ite | with_reducible apply KeepsP.ite | with_reducible apply State.cellCheck_keeps | with_reducible apply State.cellPut_keeps | with_reducible apply State.workMod_keeps | simp -zeta only [KeepsP.pair, KeepsQ.pair] | with_reducible apply KeepsP.fst | split | with_reducible refine Keeps.eqFst (by assumption) ?_

theorem State.attributeMass_keeps {s0 : Orig} {s : State} (h : Keeps s0 s) (e : Nat) (flow : Option Flow) (moist : Option Nat) (hm : Sub 71400081858570 s0.m) : Keeps s0 (State.attributeMass s e flow moist) := by
  unfold State.attributeMass
  try dsimp only
  repeat' first | with_reducible assumption | with_reducible intro _ | ((with_reducible refine Sub.tr ?_ hm); exact rfl) | with_reducible apply Keeps.ite | with_reducible apply KeepsP.ite | with_reducible apply State.each_keeps | with_reducible apply State.cellCheck_keeps | with_reducible apply State.cellPut_keeps | with_reducible apply State.workMod_keeps | with_reducible apply State.addMass_keeps | simp -zeta only [KeepsP.pair, KeepsQ.pair] | with_reducible apply KeepsP.fst | split | with_reducible refine Keeps.eqFst (by assumption) ?_

theorem State.attributeLoss_keeps {s0 : Orig} {s : State} (h : Keeps s0 s) (e : Nat) (loss : Option Nat) (hm : Sub 71400081858570 s0.m) : Keeps s0 (State.attributeLoss s e loss) := by
  unfold State.attributeLoss
  try dsimp only
  repeat' first | with_reducible assumption | with_reducible intro _ | ((with_reducible refine Sub.tr ?_ hm); exact rfl) | with_reducible apply Keeps.ite | with_reducible apply KeepsP.ite | with_reducible apply State.each_keeps | with_reducible apply State.cellCheck_keeps | with_reducible apply State.cellPut_keeps | simp -zeta only [KeepsP.pair, KeepsQ.pair] | with_reducible apply KeepsP.fst | split | with_reducible refine Keeps.eqFst (by assumption) ?_

theorem State.calTake_keeps {s0 : Orig} {s : State} (h : Keeps s0 s)  (hm : Sub 70919305568264 s0.m) : Keeps s0 (State.calTake s) := by
  unfold State.calTake
  try dsimp only
  repeat' first | with_reducible assumption | with_reducible intro _ | ((with_reducible refine Sub.tr ?_ hm); exact rfl) | with_reducible apply Keeps.ite | with_reducible apply State.putMap_keeps | with_reducible apply State.cmdEndIf_keeps | with_reducible apply ok_keeps | with_reducible apply State.setBit_keeps | split

theorem State.zeroTick_keeps {s0 : Orig} {s : State} (h : Keeps s0 s)  (hm : Sub 70368744177664 s0.m) : Keeps s0 (State.zeroTick s) := by
  unfold State.zeroTick
  try dsimp only
  repeat' first | with_reducible assumption | with_reducible intro _ | ((with_reducible refine Sub.tr ?_ hm); exact rfl) | with_reducible apply Keeps.ite | with_reducible apply State.putMap_keeps | split

theorem State.zeroAdd_keeps {s0 : Orig} {s : State} (h : Keeps s0 s) (ps : List (Int × Int)) (hm : Sub 70368744177664 s0.m) : Keeps s0 (State.zeroAdd s ps) := by
  unfold State.zeroAdd
  try dsimp only
  repeat' first | with_reducible assumption | with_reducible intro _ | ((with_reducible refine Sub.tr ?_ hm); exact rfl) | with_reducible apply Keeps.ite | with_reducible apply State.putMap_keeps | split

theorem State.mapRun_keeps {s0 : Orig} {s : State} (h : Keeps s0 s) (t : Nat) (flow : Option Flow) (moist : Option Nat) (loss : Option Nat) (hm : Sub 71400081858570 s0.m) : Keeps s0 (State.mapRun s t flow moist loss) := by
  unfold State.mapRun
  try dsimp only
  repeat' first | with_reducible assumption | with_reducible intro _ | ((with_reducible refine Sub.tr ?_ hm); exact rfl) | with_reducible apply Keeps.ite | with_reducible apply State.workMod_keeps | with_reducible apply State.sweep_keeps | with_reducible apply State.attributeMass_keeps | with_reducible apply State.attributeLoss_keeps | with_reducible apply State.putMap_keeps | split

theorem execMapTick_keeps {s0 : Orig} {s : State} (h : Keeps s0 s) (t : Nat) (hm : Sub 72128994623102986 s0.m) : KeepsR s0 (execMapTick t s) := by
  unfold execMapTick
  try dsimp only
  repeat' first | with_reducible assumption | with_reducible intro _ | ((with_reducible refine Sub.tr ?_ hm); exact rfl) | with_reducible apply Keeps.ite | with_reducible apply KeepsR.ok | with_reducible apply KeepsR.ite | with_reducible apply State.passTo_keeps | with_reducible apply State.calTake_keeps | with_reducible apply State.zeroTick_keeps | with_reducible apply State.wrN_keeps | with_reducible apply State.mapRun_keeps | with_reducible apply ok_keeps | with_reducible apply State.putMap_keeps | with_reducible apply State.drawn_keeps | with_reducible apply State.mapShow_keeps | split | with_reducible refine Keeps.eqNext (by assumption) ?_

theorem State.linesRead_keeps {s0 : Orig} {s : State} (h : Keeps s0 s) (cells : List Nat) (hm : Sub 71400081858570 s0.m := by first | assumption | exact Sub.tr rfl (by assumption)) : Keeps s0 (State.linesRead s cells) := by
  unfold State.linesRead
  try dsimp only
  repeat' first | with_reducible assumption | with_reducible intro _ | ((with_reducible refine Sub.tr ?_ hm); exact rfl) | with_reducible apply Keeps.ite | with_reducible apply State.each_keeps | with_reducible apply State.lineRead_keeps | split

theorem State.ringPut_keeps {s0 : Orig} {s : State} (h : Keeps s0 s) (k : Nat) (bs : List Byte) (hm : Sub 17592186044416 s0.m) : Keeps s0 (State.ringPut s k bs) := by
  unfold State.ringPut
  try dsimp only
  repeat' first | with_reducible assumption | with_reducible intro _ | ((with_reducible refine Sub.tr ?_ hm); exact rfl) | with_reducible apply Keeps.ite | with_reducible apply State.each_keeps | with_reducible apply State.emmcPut_keeps | split

theorem State.entrySeal_keeps {s0 : Orig} {s : State} (h : Keeps s0 s) (kind : Nat) (l : List Nat) (hm : Sub 88992267902986 s0.m := by first | assumption | exact Sub.tr rfl (by assumption)) : KeepsP s0 (State.entrySeal s kind l) := by
  unfold State.entrySeal
  try dsimp only
  repeat' first | with_reducible assumption | with_reducible intro _ | ((with_reducible refine Sub.tr ?_ hm); exact rfl) | with_reducible apply Keeps.ite | with_reducible apply KeepsP.ite | with_reducible apply State.linesRead_keeps | with_reducible apply State.ringPut_keeps | with_reducible apply State.putMap_keeps | with_reducible apply State.wrN_keeps | with_reducible apply State.event_keeps | simp -zeta only [KeepsP.pair, KeepsQ.pair] | with_reducible apply KeepsP.fst | split | with_reducible refine Keeps.eqFst (by assumption) ?_

theorem State.compactStart_keeps {s0 : Orig} {s : State} (h : Keeps s0 s)  (hm : Sub 70368744185856 s0.m) : Keeps s0 (State.compactStart s) := by
  unfold State.compactStart
  try dsimp only
  repeat' first | with_reducible assumption | with_reducible intro _ | ((with_reducible refine Sub.tr ?_ hm); exact rfl) | with_reducible apply Keeps.ite | with_reducible apply State.putMap_keeps | with_reducible apply State.setBit_keeps | split

theorem State.flushDirty_keeps {s0 : Orig} {s : State} (h : Keeps s0 s) (kind n : Nat) (hm : Sub 88992267902986 s0.m := by first | assumption | exact Sub.tr rfl (by assumption)) : Keeps s0 (State.flushDirty kind n s) := by
  induction n generalizing s with
  | zero => exact h
  | succ n ih =>
    have j : ∀ (x : State) (l : List Nat), Keeps s0 x → Keeps s0 (x.putMap { x.map with dirty := l }) :=
      fun x l h => State.putMap_keeps h _
    unfold State.flushDirty
    exact Keeps.ite h (ih (j _ _ (KeepsP.fst (State.entrySeal_keeps h kind s.map.dirty))))

theorem execJournalPeriod_keeps {s0 : Orig} {s : State} (h : Keeps s0 s)  (hm : Sub 70368744185856 s0.m) : KeepsR s0 (execJournalPeriod s) := by
  unfold execJournalPeriod
  try dsimp only
  repeat' first | with_reducible assumption | with_reducible intro _ | ((with_reducible refine Sub.tr ?_ hm); exact rfl) | with_reducible apply Keeps.ite | with_reducible apply KeepsR.ok | with_reducible apply KeepsR.ite | with_reducible apply State.putMap_keeps | with_reducible apply ok_keeps | with_reducible apply State.setBit_keeps | with_reducible apply State.mapShow_keeps | split | with_reducible refine Keeps.eqNext (by assumption) ?_

theorem execMapJournal_keeps {s0 : Orig} {s : State} (h : Keeps s0 s) (good : Bool) (hm : Sub 88992267902986 s0.m) : KeepsR s0 (execMapJournal good s) := by
  unfold execMapJournal
  try dsimp only
  repeat' first | with_reducible assumption | with_reducible intro _ | ((with_reducible refine Sub.tr ?_ hm); exact rfl) | with_reducible apply Keeps.ite | with_reducible apply KeepsR.ok | with_reducible apply KeepsR.ite | with_reducible apply KeepsP.ite | with_reducible apply ok_keeps | with_reducible apply State.putMap_keeps | with_reducible apply State.setBit_keeps | with_reducible apply State.event_keeps | with_reducible apply State.mapShow_keeps | with_reducible apply State.entrySeal_keeps | with_reducible apply State.compactStart_keeps | simp -zeta only [KeepsP.pair, KeepsQ.pair] | with_reducible apply KeepsP.fst | split | with_reducible refine Keeps.eqFst (by assumption) ?_ | with_reducible refine Keeps.eqNext (by assumption) ?_

theorem execCompactDone_keeps {s0 : Orig} {s : State} (h : Keeps s0 s) (hm : Sub 88992267902986 s0.m := by first | assumption | exact Sub.tr rfl (by assumption)) : KeepsR s0 (execCompactDone s) := by
  have g : ∀ (x : State) (k : Nat), Keeps s0 x →
      Keeps s0 (x.putEmmc (graft x.emmc k mapBytes (x.mem.moved mapBase mapBytes k))) := fun x k h =>
    State.putEmmc_keeps h _ (fun c => by
      have m := SMap.moved_spec blankByte (fun _ => 0) x.mem mapBase mapBytes k c.1
        (fun a h1 h2 => by unfold blankByte; rw [if_neg]; simp only [mapBase, mapBytes, norBase] at *; omega)
      exact SMap.wf_splice _ x.emmc k mapBytes _ c.2.1 m.1 m.2)
  have j : ∀ (x : State) (m : MapSt), Keeps s0 x → Keeps s0 (x.putMap m) := fun x m h => State.putMap_keeps h _
  unfold execCompactDone
  split
  · refine KeepsR.ok (State.mapShow_keeps (State.event_keeps (State.setBit_keeps (State.setBit_keeps ?_ _ _ _ _) _ _ _ _) _ _))
    exact j _ _ (g _ _ (State.linesRead_keeps h _))
  · exact KeepsR.ok h

theorem State.mapRead_keeps {s0 : Orig} {s : State} (h : Keeps s0 s)  (hm : Sub 70368744177664 s0.m) : Keeps s0 (State.mapRead s) := by
  unfold State.mapRead
  try dsimp only
  repeat' first | with_reducible assumption | with_reducible intro _ | ((with_reducible refine Sub.tr ?_ hm); exact rfl) | with_reducible apply Keeps.ite | with_reducible apply State.putMap_keeps | split

theorem execMapStart_keeps {s0 : Orig} {s : State} (h : Keeps s0 s)  (hm : Sub 70919305568264 s0.m) : KeepsR s0 (execMapStart s) := by
  unfold execMapStart
  try dsimp only
  repeat' first | with_reducible assumption | with_reducible intro _ | ((with_reducible refine Sub.tr ?_ hm); exact rfl) | with_reducible apply Keeps.ite | with_reducible apply KeepsR.ok | with_reducible apply KeepsR.ite | with_reducible apply KeepsP.ite | with_reducible apply ok_keeps | with_reducible apply State.command_keeps | with_reducible apply done_keeps | with_reducible apply State.mapRead_keeps | with_reducible apply State.setF_keeps | with_reducible apply State.mapShow_keeps | with_reducible apply refuse_keeps | simp -zeta only [KeepsP.pair, KeepsQ.pair] | with_reducible apply KeepsP.fst | split | with_reducible refine Keeps.eqFst (by assumption) ?_ | with_reducible refine Keeps.eqNext (by assumption) ?_

theorem State.replay_keeps {s0 : Orig} {s : State} (h : Keeps s0 s) (id fuel k sq tick used : Nat) (hm : Sub 756463960074 s0.m := by first | assumption | exact Sub.tr rfl (by assumption)) :
    KeepsP s0 (State.replay id fuel k sq tick used s) := by
  induction fuel generalizing s k sq tick used with
  | zero => exact h
  | succ n ih =>
    have j : ∀ (l : List (Nat × List Byte)),
        Keeps s0 (s.each l (fun s r => if r.1 < 2 ^ 25 then s.store (cellAddr r.1) r.2 else s)) := fun l =>
      State.each_keeps (fun _ _ a => Keeps.ite (State.store_keeps a _ _) a) h l
    unfold State.replay
    split
    · show Keeps s0 (ite _ _ _)
      exact Keeps.ite (State.tornUnit_keeps h _) h
    · exact ih (j _) _ _ _ _

theorem State.restoreTotals_keeps {s0 : Orig} {s : State} (h : Keeps s0 s) (b : MapBase) (tick : Nat) (hm : Sub 70368878395392 s0.m := by first | assumption | exact Sub.tr rfl (by assumption)) : Keeps s0 (State.restoreTotals s b tick) := by
  unfold State.restoreTotals
  try dsimp only
  repeat' first | with_reducible assumption | with_reducible intro _ | ((with_reducible refine Sub.tr ?_ hm); exact rfl) | with_reducible apply Keeps.ite | with_reducible apply State.putMap_keeps | with_reducible apply State.drawn_keeps | split

theorem State.mapImage_keeps {s0 : Orig} {s : State} (h : Keeps s0 s) (k : Nat) (e : Bool) (hm : Sub 68727865346 s0.m := by first | assumption | exact Sub.tr rfl (by assumption)) : Keeps s0 (State.mapImage s k e) := by
  have g : Keeps s0 (s.putMem (graft s.mem mapBase mapBytes
      (if e then [] else s.emmc.moved (s.imageByte k) mapBytes mapBase))) :=
    h.within rfl (fun c => by
      have m := SMap.moved_spec (fun _ => 0) blankByte s.emmc (s.imageByte k) mapBytes mapBase c.2.1
        (fun a h1 h2 => by unfold blankByte; rw [if_neg]; simp only [mapBase, mapBytes, norBase] at *; omega)
      refine ⟨?_, c.2.1, c.2.2⟩
      cases e
      · exact SMap.wf_splice _ s.mem mapBase mapBytes _ c.1 m.1 m.2
      · exact SMap.wf_splice _ s.mem mapBase mapBytes [] c.1 List.Pairwise.nil (fun c hc => by cases hc))
      (fun p hp => by cases p <;> first | rfl | exact absurd hp (by decide)) (k := 8388608)
      (by first | assumption | exact Sub.tr rfl (by assumption))
  unfold State.mapImage
  exact State.poisonShow_keeps (State.putPoison_keeps g _)

theorem State.journalAt_keeps {s0 : Orig} {s : State} (h : Keeps s0 s) (head sq used : Nat) (hm : Sub 70368744185856 s0.m := by first | assumption | exact Sub.tr rfl (by assumption)) : Keeps s0 (State.journalAt s head sq used) := by
  unfold State.journalAt
  try dsimp only
  repeat' first | with_reducible assumption | with_reducible intro _ | ((with_reducible refine Sub.tr ?_ hm); exact rfl) | with_reducible apply Keeps.ite | with_reducible apply State.putMap_keeps | with_reducible apply State.setF_keeps | with_reducible apply State.wrN_keeps | with_reducible apply State.mapShow_keeps | split

theorem State.replayed_keeps {s0 : Orig} (b : MapBase) (p : State × Nat × Nat × Nat × Nat) (h : KeepsP s0 p) (hm : Sub 70368878403584 s0.m := by first | assumption | exact Sub.tr rfl (by assumption)) :
    Keeps s0 (State.replayed b p) :=
  State.journalAt_keeps (State.restoreTotals_keeps h _ _) _ _ _

theorem execRestoreDone_keeps {s0 : Orig} {s : State} (h : Keeps s0 s) (hm : Sub 71125610799114 s0.m := by first | assumption | exact Sub.tr rfl (by assumption)) : KeepsR s0 (execRestoreDone s) := by
  unfold execRestoreDone
  refine KeepsR.ite ?_ (KeepsR.ok h)
  split
  · exact KeepsR.ok (State.cmdEndIf_keeps (State.setF_keeps h _ _ _ _ _) _ _ _)
  · refine KeepsR.ok (State.cmdEndIf_keeps (State.replayed_keeps _ _ ?_) _ _ _)
    with_reducible exact State.replay_keeps (State.mapImage_keeps h _ _) _ _ _ _ _ _

theorem execMapStop_keeps {s0 : Orig} {s : State} (h : Keeps s0 s)  (hm : Sub 550561390600 s0.m) : KeepsR s0 (execMapStop s) := by
  unfold execMapStop
  try dsimp only
  repeat' first | with_reducible assumption | with_reducible intro _ | ((with_reducible refine Sub.tr ?_ hm); exact rfl) | with_reducible apply Keeps.ite | with_reducible apply KeepsR.ok | with_reducible apply KeepsR.ite | with_reducible apply KeepsP.ite | with_reducible apply ok_keeps | with_reducible apply State.command_keeps | with_reducible apply State.setBit_keeps | with_reducible apply done_keeps | simp -zeta only [KeepsP.pair, KeepsQ.pair] | with_reducible apply KeepsP.fst | split | with_reducible refine Keeps.eqFst (by assumption) ?_ | with_reducible refine Keeps.eqNext (by assumption) ?_

theorem execMapStopDone_keeps {s0 : Orig} {s : State} (h : Keeps s0 s)  (hm : Sub 88992536338442 s0.m) : KeepsR s0 (execMapStopDone s) := by
  unfold execMapStopDone
  try dsimp only
  repeat' first | with_reducible assumption | with_reducible intro _ | ((with_reducible refine Sub.tr ?_ hm); exact rfl) | with_reducible apply Keeps.ite | with_reducible apply KeepsR.ok | with_reducible apply KeepsR.ite | with_reducible apply KeepsP.ite | with_reducible apply State.putMap_keeps | with_reducible apply State.entrySeal_keeps | with_reducible apply State.event_keeps | with_reducible apply State.flushDirty_keeps | with_reducible apply State.setF_keeps | with_reducible apply State.setBit_keeps | with_reducible apply ok_keeps | with_reducible apply State.mapShow_keeps | with_reducible apply State.cmdEndIf_keeps | simp -zeta only [KeepsP.pair, KeepsQ.pair] | with_reducible apply KeepsP.fst | split | with_reducible refine Keeps.eqFst (by assumption) ?_ | with_reducible refine Keeps.eqNext (by assumption) ?_

theorem execMapNew_keeps {s0 : Orig} {s : State} (h : Keeps s0 s)  (hm : Sub 70988033433610 s0.m) : KeepsR s0 (execMapNew s) := by
  unfold execMapNew
  try dsimp only
  repeat' first | with_reducible assumption | with_reducible intro _ | ((with_reducible refine Sub.tr ?_ hm); exact rfl) | with_reducible apply Keeps.ite | with_reducible apply KeepsR.ok | with_reducible apply KeepsR.ite | with_reducible apply KeepsP.ite | with_reducible apply ok_keeps | with_reducible apply State.command_keeps | with_reducible apply refuse_keeps | with_reducible apply State.mapImage_keeps | with_reducible apply State.putMap_keeps | with_reducible apply State.wrN_keeps | with_reducible apply State.setBit_keeps | with_reducible apply done_keeps | with_reducible apply State.mapShow_keeps | simp -zeta only [KeepsP.pair, KeepsQ.pair] | with_reducible apply KeepsP.fst | split | with_reducible refine Keeps.eqFst (by assumption) ?_ | with_reducible refine Keeps.eqNext (by assumption) ?_

theorem execWindowRead_keeps {s0 : Orig} {s : State} (h : Keeps s0 s)  (hm : Sub 71400350294026 s0.m) : KeepsR s0 (execWindowRead s) := by
  unfold execWindowRead
  try dsimp only
  repeat' first | with_reducible assumption | with_reducible intro _ | ((with_reducible refine Sub.tr ?_ hm); exact rfl) | with_reducible apply Keeps.ite | with_reducible apply KeepsR.ok | with_reducible apply KeepsR.ite | with_reducible apply KeepsP.ite | with_reducible apply State.each_keeps | with_reducible apply ok_keeps | with_reducible apply State.command_keeps | with_reducible apply refuse_keeps | with_reducible apply State.linesRead_keeps | with_reducible apply State.engStore_keeps | with_reducible apply done_keeps | with_reducible apply State.wrN_keeps | simp -zeta only [KeepsP.pair, KeepsQ.pair] | with_reducible apply KeepsP.fst | split | with_reducible refine Keeps.eqFst (by assumption) ?_ | with_reducible refine Keeps.eqNext (by assumption) ?_

theorem execCalApply_keeps {s0 : Orig} {s : State} (h : Keeps s0 s)  (hm : Sub 70919305568264 s0.m) : KeepsR s0 (execCalApply s) := by
  unfold execCalApply
  try dsimp only
  repeat' first | with_reducible assumption | with_reducible intro _ | ((with_reducible refine Sub.tr ?_ hm); exact rfl) | with_reducible apply Keeps.ite | with_reducible apply KeepsR.ok | with_reducible apply KeepsR.ite | with_reducible apply KeepsP.ite | with_reducible apply ok_keeps | with_reducible apply State.command_keeps | with_reducible apply State.putMap_keeps | with_reducible apply refuse_keeps | simp -zeta only [KeepsP.pair, KeepsQ.pair] | with_reducible apply KeepsP.fst | split | with_reducible refine Keeps.eqFst (by assumption) ?_ | with_reducible refine Keeps.eqNext (by assumption) ?_

theorem execMapZero_keeps {s0 : Orig} {s : State} (h : Keeps s0 s)  (hm : Sub 70919305568264 s0.m) : KeepsR s0 (execMapZero s) := by
  unfold execMapZero
  try dsimp only
  repeat' first | with_reducible assumption | with_reducible intro _ | ((with_reducible refine Sub.tr ?_ hm); exact rfl) | with_reducible apply Keeps.ite | with_reducible apply KeepsR.ok | with_reducible apply KeepsR.ite | with_reducible apply KeepsP.ite | with_reducible apply ok_keeps | with_reducible apply State.command_keeps | with_reducible apply State.putMap_keeps | with_reducible apply refuse_keeps | simp -zeta only [KeepsP.pair, KeepsQ.pair] | with_reducible apply KeepsP.fst | split | with_reducible refine Keeps.eqFst (by assumption) ?_ | with_reducible refine Keeps.eqNext (by assumption) ?_

theorem execZeroDone_keeps {s0 : Orig} {s : State} (h : Keeps s0 s) (ps : List (Int × Int)) (hm : Sub 72128513444159496 s0.m) : KeepsR s0 (execZeroDone ps s) := by
  unfold execZeroDone
  try dsimp only
  repeat' first | with_reducible assumption | with_reducible intro _ | ((with_reducible refine Sub.tr ?_ hm); exact rfl) | with_reducible apply Keeps.ite | with_reducible apply KeepsR.ok | with_reducible apply KeepsR.ite | with_reducible apply State.passTo_keeps | with_reducible apply State.zeroAdd_keeps | with_reducible apply State.zeroTick_keeps | with_reducible apply ok_keeps | with_reducible apply State.putMap_keeps | with_reducible apply State.wr_keeps | with_reducible apply State.cmdEndIf_keeps | split | with_reducible refine Keeps.eqNext (by assumption) ?_

theorem State.mapSections_keeps {s0 : Orig} {s : State} (h : Keeps s0 s)  (hm : Sub 70919305568264 s0.m) : Keeps s0 (State.mapSections s) := by
  unfold State.mapSections
  try dsimp only
  repeat' first | with_reducible assumption | with_reducible intro _ | ((with_reducible refine Sub.tr ?_ hm); exact rfl) | with_reducible apply Keeps.ite | with_reducible apply State.putMap_keeps | with_reducible apply State.cmdEndIf_keeps | split

theorem execMapClearCounts_keeps {s0 : Orig} {s : State} (h : Keeps s0 s)  (hm : Sub 70919305568264 s0.m) : KeepsR s0 (execMapClearCounts s) := by
  unfold execMapClearCounts
  try dsimp only
  repeat' first | with_reducible assumption | with_reducible intro _ | ((with_reducible refine Sub.tr ?_ hm); exact rfl) | with_reducible apply Keeps.ite | with_reducible apply KeepsR.ok | with_reducible apply KeepsR.ite | with_reducible apply KeepsP.ite | with_reducible apply ok_keeps | with_reducible apply State.command_keeps | with_reducible apply State.wr_keeps | with_reducible apply State.putMap_keeps | with_reducible apply done_keeps | with_reducible apply State.mapShow_keeps | simp -zeta only [KeepsP.pair, KeepsQ.pair] | with_reducible apply KeepsP.fst | split | with_reducible refine Keeps.eqFst (by assumption) ?_ | with_reducible refine Keeps.eqNext (by assumption) ?_

theorem State.mapPowerLoss_keeps {s0 : Orig} {s : State} (h : Keeps s0 s) (n : Nat) (hm : Sub 88992267902986 s0.m) : Keeps s0 (State.mapPowerLoss s n) := by
  unfold State.mapPowerLoss
  try dsimp only
  repeat' first | with_reducible assumption | with_reducible intro _ | ((with_reducible refine Sub.tr ?_ hm); exact rfl) | with_reducible apply Keeps.ite | with_reducible apply State.putMap_keeps | with_reducible apply State.flushDirty_keeps | split

theorem State.mapCoreReset_keeps {s0 : Orig} {s : State} (h : Keeps s0 s)  (hm : Sub 70368744177664 s0.m) : Keeps s0 (State.mapCoreReset s) := by
  unfold State.mapCoreReset
  try dsimp only
  repeat' first | with_reducible assumption | with_reducible intro _ | ((with_reducible refine Sub.tr ?_ hm); exact rfl) | with_reducible apply Keeps.ite | with_reducible apply State.putMap_keeps | split

theorem State.mapPowerOn_keeps {s0 : Orig} {s : State} (h : Keeps s0 s)  (hm : Sub 70368744177664 s0.m) : Keeps s0 (State.mapPowerOn s) := by
  unfold State.mapPowerOn
  try dsimp only
  repeat' first | with_reducible assumption | with_reducible intro _ | ((with_reducible refine Sub.tr ?_ hm); exact rfl) | with_reducible apply Keeps.ite | with_reducible apply State.putMap_keeps | split

end Sys2Proof.Machine
end

