-- ==== Sys2Proof/Laws/KeepsPanel.lean ====
section
/-! SUPPORT. The operations of Machine/Panel.lean keep the queue of commands and the canonical form, and change no part outside
their footprint. -/

set_option linter.unusedSimpArgs false
set_option linter.unusedVariables false
set_option Elab.async false

namespace Sys2Proof.Machine

theorem State.pnlMod_keeps {s0 : Orig} {s : State} (h : Keeps s0 s) (f : Pnl → Pnl) (hm : Sub 36028797018963968 s0.m) : Keeps s0 (State.pnlMod s f) := by
  unfold State.pnlMod
  try dsimp only
  repeat' first | with_reducible assumption | with_reducible intro _ | ((with_reducible refine Sub.tr ?_ hm); exact rfl) | with_reducible apply Keeps.ite | with_reducible apply State.putPnl_keeps | split

theorem State.setRail_keeps {s0 : Orig} {s : State} (h : Keeps s0 s) (r : Nat) (mv : Int) (hm : Sub 16384 s0.m) : Keeps s0 (State.setRail s r mv) := by
  unfold State.setRail
  try dsimp only
  repeat' first | with_reducible assumption | with_reducible intro _ | ((with_reducible refine Sub.tr ?_ hm); exact rfl) | with_reducible apply Keeps.ite | with_reducible apply State.setF_keeps | split

theorem State.pnlTemp_keeps {s0 : Orig} {s : State} (h : Keeps s0 s)  (hm : Sub 36028797018980352 s0.m) : Keeps s0 (State.pnlTemp s) := by
  unfold State.pnlTemp
  try dsimp only
  repeat' first | with_reducible assumption | with_reducible intro _ | ((with_reducible refine Sub.tr ?_ hm); exact rfl) | with_reducible apply Keeps.ite | with_reducible apply State.wrN_keeps | with_reducible apply State.pnlMod_keeps | with_reducible apply State.setBit_keeps | split

theorem State.railsMove_keeps {s0 : Orig} {s : State} (h : Keeps s0 s)  (hm : Sub 36028797018980352 s0.m) : Keeps s0 (State.railsMove s) := by
  unfold State.railsMove
  try dsimp only
  repeat' first | with_reducible assumption | with_reducible intro _ | ((with_reducible refine Sub.tr ?_ hm); exact rfl) | with_reducible apply Keeps.ite | with_reducible apply State.each_keeps | with_reducible apply State.pnlTemp_keeps | with_reducible apply State.setRail_keeps | split

theorem State.railsUp_keeps {s0 : Orig} {s : State} (h : Keeps s0 s)  (hm : Sub 36028797018980352 s0.m) : Keeps s0 (State.railsUp s) := by
  unfold State.railsUp
  try dsimp only
  repeat' first | with_reducible assumption | with_reducible intro _ | ((with_reducible refine Sub.tr ?_ hm); exact rfl) | with_reducible apply Keeps.ite | with_reducible apply State.each_keeps | with_reducible apply State.pnlTemp_keeps | with_reducible apply State.setRail_keeps | split

theorem State.railsOff_keeps {s0 : Orig} {s : State} (h : Keeps s0 s)  (hm : Sub 16384 s0.m) : Keeps s0 (State.railsOff s) := by
  unfold State.railsOff
  try dsimp only
  repeat' first | with_reducible assumption | with_reducible intro _ | ((with_reducible refine Sub.tr ?_ hm); exact rfl) | with_reducible apply Keeps.ite | with_reducible apply State.each_keeps | with_reducible apply State.wrN_keeps | split

theorem State.blForward_keeps {s0 : Orig} {s : State} (h : Keeps s0 s)  (hm : Sub 36028797153181696 s0.m) : Keeps s0 (State.blForward s) := by
  unfold State.blForward
  try dsimp only
  repeat' first | with_reducible assumption | with_reducible intro _ | ((with_reducible refine Sub.tr ?_ hm); exact rfl) | with_reducible apply Keeps.ite | with_reducible apply State.each_keeps | with_reducible apply State.pnlMod_keeps | with_reducible apply State.drawn_keeps | split

theorem State.blShow_keeps {s0 : Orig} {s : State} (h : Keeps s0 s)  (hm : Sub 36028797153198080 s0.m) : Keeps s0 (State.blShow s) := by
  unfold State.blShow
  try dsimp only
  repeat' first | with_reducible assumption | with_reducible intro _ | ((with_reducible refine Sub.tr ?_ hm); exact rfl) | with_reducible apply Keeps.ite | with_reducible apply State.each_keeps | with_reducible apply State.blForward_keeps | with_reducible apply State.setF_keeps | with_reducible apply State.setBit_keeps | split

theorem execPnlBacklight_keeps {s0 : Orig} {s : State} (h : Keeps s0 s) (k : Fin 6) (bla : Nat) (cath : List Nat) (hm : Sub 36029347446145032 s0.m) : KeepsR s0 (execPnlBacklight k bla cath s) := by
  unfold execPnlBacklight
  try dsimp only
  repeat' first | with_reducible assumption | with_reducible intro _ | ((with_reducible refine Sub.tr ?_ hm); exact rfl) | with_reducible apply Keeps.ite | with_reducible apply KeepsR.ok | with_reducible apply KeepsR.ite | with_reducible apply State.each_keeps | with_reducible apply ok_keeps | with_reducible apply State.setF_keeps | with_reducible apply State.pnlMod_keeps | with_reducible apply State.setBit_keeps | with_reducible apply State.event_keeps | with_reducible apply State.blShow_keeps | split | with_reducible refine Keeps.eqNext (by assumption) ?_

theorem execBlReset_keeps {s0 : Orig} {s : State} (h : Keeps s0 s)  (hm : Sub 36029347714580488 s0.m) : KeepsR s0 (execBlReset s) := by
  unfold execBlReset
  try dsimp only
  repeat' first | with_reducible assumption | with_reducible intro _ | ((with_reducible refine Sub.tr ?_ hm); exact rfl) | with_reducible apply Keeps.ite | with_reducible apply KeepsR.ok | with_reducible apply KeepsR.ite | with_reducible apply KeepsP.ite | with_reducible apply ok_keeps | with_reducible apply State.command_keeps | with_reducible apply done_keeps | with_reducible apply State.setF_keeps | with_reducible apply State.blShow_keeps | simp -zeta only [KeepsP.pair, KeepsQ.pair] | with_reducible apply KeepsP.fst | split | with_reducible refine Keeps.eqFst (by assumption) ?_ | with_reducible refine Keeps.eqNext (by assumption) ?_

theorem State.uniLoading_keeps {s0 : Orig} {s : State} (h : Keeps s0 s) (on : Bool) (pc : Nat) (hm : Sub 16384 s0.m) : Keeps s0 (State.uniLoading s on pc) := by
  unfold State.uniLoading
  try dsimp only
  repeat' first | with_reducible assumption | with_reducible intro _ | ((with_reducible refine Sub.tr ?_ hm); exact rfl) | with_reducible apply Keeps.ite | with_reducible apply State.setBit_keeps | with_reducible apply State.setF_keeps | split

theorem State.uniStart_keeps {s0 : Orig} {s : State} (h : Keeps s0 s) (mode : Nat) (asked : Bool) (hm : Sub 36028797018980352 s0.m) : KeepsP s0 (State.uniStart s mode asked) := by
  unfold State.uniStart
  try dsimp only
  repeat' first | with_reducible assumption | with_reducible intro _ | ((with_reducible refine Sub.tr ?_ hm); exact rfl) | with_reducible apply Keeps.ite | with_reducible apply KeepsR.ok | with_reducible apply KeepsR.ite | with_reducible apply KeepsP.ite | with_reducible apply State.pnlMod_keeps | with_reducible apply State.uniLoading_keeps | simp -zeta only [KeepsP.pair, KeepsQ.pair] | with_reducible apply KeepsP.fst | split | with_reducible refine Keeps.eqFst (by assumption) ?_ | with_reducible refine Keeps.eqNext (by assumption) ?_

theorem execUniformityLoadDone_keeps {s0 : Orig} {s : State} (h : Keeps s0 s) (maps : List Byte) (hm : Sub 36029553747181578 s0.m) : KeepsR s0 (execUniformityLoadDone maps s) := by
  unfold execUniformityLoadDone
  try dsimp only
  repeat' first | with_reducible assumption | with_reducible intro _ | ((with_reducible refine Sub.tr ?_ hm); exact rfl) | with_reducible apply Keeps.ite | with_reducible apply KeepsR.ok | with_reducible apply KeepsR.ite | with_reducible apply ok_keeps | with_reducible apply State.pnlMod_keeps | with_reducible apply State.uniLoading_keeps | with_reducible apply State.engStore_keeps | with_reducible apply State.cmdEndIf_keeps | split | with_reducible refine Keeps.eqNext (by assumption) ?_

theorem State.uniForce_keeps {s0 : Orig} {s : State} (h : Keeps s0 s)  (hm : Sub 36029347580362760 s0.m) : Keeps s0 (State.uniForce s) := by
  unfold State.uniForce
  try dsimp only
  repeat' first | with_reducible assumption | with_reducible intro _ | ((with_reducible refine Sub.tr ?_ hm); exact rfl) | with_reducible apply Keeps.ite | with_reducible apply State.pnlMod_keeps | with_reducible apply State.setF_keeps | with_reducible apply State.setBit_keeps | with_reducible apply State.wrN_keeps | with_reducible apply State.cmdEndIf_keeps | with_reducible apply ok_keeps | split

theorem execUniformLoad_keeps {s0 : Orig} {s : State} (h : Keeps s0 s)  (hm : Sub 36029347580362760 s0.m) : KeepsR s0 (execUniformLoad s) := by
  unfold execUniformLoad
  try dsimp only
  repeat' first | with_reducible assumption | with_reducible intro _ | ((with_reducible refine Sub.tr ?_ hm); exact rfl) | with_reducible apply Keeps.ite | with_reducible apply KeepsR.ok | with_reducible apply KeepsR.ite | with_reducible apply KeepsP.ite | with_reducible apply ok_keeps | with_reducible apply State.command_keeps | with_reducible apply refuse_keeps | with_reducible apply State.uniStart_keeps | simp -zeta only [KeepsP.pair, KeepsQ.pair] | with_reducible apply KeepsP.fst | split | with_reducible refine Keeps.eqFst (by assumption) ?_ | with_reducible refine Keeps.eqNext (by assumption) ?_

theorem State.pnlSet_keeps {s0 : Orig} {s : State} (h : Keeps s0 s) (st : Nat) (hm : Sub 16384 s0.m) : Keeps s0 (State.pnlSet s st) := by
  unfold State.pnlSet
  try dsimp only
  repeat' first | with_reducible assumption | with_reducible intro _ | ((with_reducible refine Sub.tr ?_ hm); exact rfl) | with_reducible apply Keeps.ite | with_reducible apply State.setF_keeps | split

theorem State.pnlAbort_keeps {s0 : Orig} {s : State} (h : Keeps s0 s)  (hm : Sub 36029347580362760 s0.m) : Keeps s0 (State.pnlAbort s) := by
  unfold State.pnlAbort
  try dsimp only
  repeat' first | with_reducible assumption | with_reducible intro _ | ((with_reducible refine Sub.tr ?_ hm); exact rfl) | with_reducible apply Keeps.ite | with_reducible apply State.pnlMod_keeps | with_reducible apply State.uniLoading_keeps | with_reducible apply State.cmdEnd_keeps | split

theorem State.pnlOff_keeps {s0 : Orig} {s : State} (h : Keeps s0 s)  (hm : Sub 36029347714580492 s0.m) : Keeps s0 (State.pnlOff s) := by
  unfold State.pnlOff
  try dsimp only
  repeat' first | with_reducible assumption | with_reducible intro _ | ((with_reducible refine Sub.tr ?_ hm); exact rfl) | with_reducible apply Keeps.ite | with_reducible apply State.railsOff_keeps | with_reducible apply State.pnlSet_keeps | with_reducible apply State.pnlMod_keeps | with_reducible apply State.blShow_keeps | with_reducible apply State.setF_keeps | with_reducible apply State.setBit_keeps | with_reducible apply State.event_keeps | with_reducible apply State.cmdEndIf_keeps | with_reducible apply ok_keeps | split

theorem State.pnlDown_keeps {s0 : Orig} {s : State} (h : Keeps s0 s)  (hm : Sub 36029347714580492 s0.m) : Keeps s0 (State.pnlDown s) := by
  unfold State.pnlDown
  try dsimp only
  repeat' first | with_reducible assumption | with_reducible intro _ | ((with_reducible refine Sub.tr ?_ hm); exact rfl) | with_reducible apply Keeps.ite | with_reducible apply State.pnlAbort_keeps | with_reducible apply State.pnlOff_keeps | with_reducible apply State.pnlSet_keeps | with_reducible apply State.pnlMod_keeps | with_reducible apply State.blShow_keeps | split

theorem State.pnlDischarge_keeps {s0 : Orig} {s : State} (h : Keeps s0 s)  (hm : Sub 36029347714580492 s0.m) : Keeps s0 (State.pnlDischarge s) := by
  unfold State.pnlDischarge
  try dsimp only
  repeat' first | with_reducible assumption | with_reducible intro _ | ((with_reducible refine Sub.tr ?_ hm); exact rfl) | with_reducible apply Keeps.ite | with_reducible apply State.pnlAbort_keeps | with_reducible apply State.pnlOff_keeps | with_reducible apply State.pnlMod_keeps | split

theorem execPnlStart_keeps {s0 : Orig} {s : State} (h : Keeps s0 s) (low : Bool) (hdr : List Byte) (hm : Sub 37155247487205388 s0.m) : KeepsR s0 (execPnlStart low hdr s) := by
  unfold execPnlStart
  try dsimp only
  repeat' first | with_reducible assumption | with_reducible intro _ | ((with_reducible refine Sub.tr ?_ hm); exact rfl) | with_reducible apply Keeps.ite | with_reducible apply KeepsR.ok | with_reducible apply KeepsR.ite | with_reducible apply KeepsP.ite | with_reducible apply ok_keeps | with_reducible apply State.command_keeps | with_reducible apply State.setBit_keeps | with_reducible apply refuse_keeps | with_reducible apply State.wrN_keeps | with_reducible apply State.pnlSet_keeps | with_reducible apply State.setF_keeps | with_reducible apply State.pnlMod_keeps | with_reducible apply State.railsUp_keeps | with_reducible apply State.islWakeOne_keeps | simp -zeta only [KeepsP.pair, KeepsQ.pair] | with_reducible apply KeepsP.fst | split | with_reducible refine Keeps.eqFst (by assumption) ?_ | with_reducible refine Keeps.eqNext (by assumption) ?_

theorem execPnlStop_keeps {s0 : Orig} {s : State} (h : Keeps s0 s)  (hm : Sub 36029347714580492 s0.m) : KeepsR s0 (execPnlStop s) := by
  unfold execPnlStop
  try dsimp only
  repeat' first | with_reducible assumption | with_reducible intro _ | ((with_reducible refine Sub.tr ?_ hm); exact rfl) | with_reducible apply Keeps.ite | with_reducible apply KeepsR.ok | with_reducible apply KeepsR.ite | with_reducible apply KeepsP.ite | with_reducible apply State.cmdEnd_keeps | with_reducible apply ok_keeps | with_reducible apply State.command_keeps | with_reducible apply done_keeps | with_reducible apply State.pnlDown_keeps | simp -zeta only [KeepsP.pair, KeepsQ.pair] | with_reducible apply KeepsP.fst | split | with_reducible refine Keeps.eqFst (by assumption) ?_ | with_reducible refine Keeps.eqNext (by assumption) ?_

theorem execPanelUnplug_keeps {s0 : Orig} {s : State} (h : Keeps s0 s)  (hm : Sub 36029347714580492 s0.m) : KeepsR s0 (execPanelUnplug s) := by
  unfold execPanelUnplug
  try dsimp only
  repeat' first | with_reducible assumption | with_reducible intro _ | ((with_reducible refine Sub.tr ?_ hm); exact rfl) | with_reducible apply Keeps.ite | with_reducible apply KeepsR.ok | with_reducible apply KeepsR.ite | with_reducible apply State.setBit_keeps | with_reducible apply ok_keeps | with_reducible apply State.pnlDischarge_keeps | with_reducible apply State.event_keeps | split | with_reducible refine Keeps.eqNext (by assumption) ?_

theorem execPanelPlugIn_keeps {s0 : Orig} {s : State} (h : Keeps s0 s)  (hm : Sub 550292963336 s0.m) : KeepsR s0 (execPanelPlugIn s) := by
  unfold execPanelPlugIn
  try dsimp only
  repeat' first | with_reducible assumption | with_reducible intro _ | ((with_reducible refine Sub.tr ?_ hm); exact rfl) | with_reducible apply Keeps.ite | with_reducible apply KeepsR.ok | with_reducible apply KeepsR.ite | with_reducible apply ok_keeps | with_reducible apply State.setBit_keeps | with_reducible apply State.event_keeps | split | with_reducible refine Keeps.eqNext (by assumption) ?_

theorem execPnlRail_keeps {s0 : Orig} {s : State} (h : Keeps s0 s) (r : Fin 4) (mv : Int) (hm : Sub 36029347714580492 s0.m) : KeepsR s0 (execPnlRail r mv s) := by
  unfold execPnlRail
  try dsimp only
  repeat' first | with_reducible assumption | with_reducible intro _ | ((with_reducible refine Sub.tr ?_ hm); exact rfl) | with_reducible apply Keeps.ite | with_reducible apply KeepsR.ok | with_reducible apply KeepsR.ite | with_reducible apply ok_keeps | with_reducible apply State.setF_keeps | with_reducible apply State.setBit_keeps | with_reducible apply State.event_keeps | with_reducible apply State.pnlDown_keeps | split | with_reducible refine Keeps.eqNext (by assumption) ?_

theorem State.pnlShow_keeps {s0 : Orig} {s : State} (h : Keeps s0 s)  (hm : Sub 16384 s0.m) : Keeps s0 (State.pnlShow s) := by
  unfold State.pnlShow
  try dsimp only
  repeat' first | with_reducible assumption | with_reducible intro _ | ((with_reducible refine Sub.tr ?_ hm); exact rfl) | with_reducible apply Keeps.ite | with_reducible apply State.wrN_keeps | split

theorem State.pnlFlip_keeps {s0 : Orig} {s : State} (h : Keeps s0 s) (v : Word) (hm : Sub 36028797018980352 s0.m) : Keeps s0 (State.pnlFlip s v) := by
  unfold State.pnlFlip
  try dsimp only
  repeat' first | with_reducible assumption | with_reducible intro _ | ((with_reducible refine Sub.tr ?_ hm); exact rfl) | with_reducible apply Keeps.ite | with_reducible apply State.incF_keeps | with_reducible apply State.pnlMod_keeps | with_reducible apply State.pnlShow_keeps | split

theorem execPnlFlipWrite_keeps {s0 : Orig} {s : State} (h : Keeps s0 s) (v : Word) (hm : Sub 36028797018980352 s0.m) : KeepsR s0 (execPnlFlipWrite v s) := by
  unfold execPnlFlipWrite
  try dsimp only
  repeat' first | with_reducible assumption | with_reducible intro _ | ((with_reducible refine Sub.tr ?_ hm); exact rfl) | with_reducible apply Keeps.ite | with_reducible apply KeepsR.ok | with_reducible apply KeepsR.ite | with_reducible apply ok_keeps | with_reducible apply State.pnlFlip_keeps | split | with_reducible refine Keeps.eqNext (by assumption) ?_

theorem State.flipTake_keeps {s0 : Orig} {s : State} (h : Keeps s0 s)  (hm : Sub 36029347311927304 s0.m) : Keeps s0 (State.flipTake s) := by
  unfold State.flipTake
  try dsimp only
  repeat' first | with_reducible assumption | with_reducible intro _ | ((with_reducible refine Sub.tr ?_ hm); exact rfl) | with_reducible apply Keeps.ite | with_reducible apply State.pnlMod_keeps | with_reducible apply State.pnlShow_keeps | with_reducible apply State.event_keeps | split

theorem State.sendRefresh_keeps {s0 : Orig} {s : State} (h : Keeps s0 s) (black : Bool) (hm : Sub 36028797018963968 s0.m) : Keeps s0 (State.sendRefresh s black) := by
  unfold State.sendRefresh
  try dsimp only
  repeat' first | with_reducible assumption | with_reducible intro _ | ((with_reducible refine Sub.tr ?_ hm); exact rfl) | with_reducible apply Keeps.ite | with_reducible apply State.pnlMod_keeps | split

theorem State.frameStart_keeps {s0 : Orig} {s : State} (h : Keeps s0 s) (black : Bool) (hm : Sub 36029347311927304 s0.m) : Keeps s0 (State.frameStart s black) := by
  unfold State.frameStart
  try dsimp only
  repeat' first | with_reducible assumption | with_reducible intro _ | ((with_reducible refine Sub.tr ?_ hm); exact rfl) | with_reducible apply Keeps.ite | with_reducible apply State.setBit_keeps | with_reducible apply State.wrN_keeps | with_reducible apply State.pnlMod_keeps | with_reducible apply State.railsMove_keeps | with_reducible apply State.event_keeps | with_reducible apply State.sendRefresh_keeps | split

theorem State.sendAllOn_keeps {s0 : Orig} {s : State} (h : Keeps s0 s)  (hm : Sub 36028797018963968 s0.m) : Keeps s0 (State.sendAllOn s) := by
  unfold State.sendAllOn
  try dsimp only
  repeat' first | with_reducible assumption | with_reducible intro _ | ((with_reducible refine Sub.tr ?_ hm); exact rfl) | with_reducible apply Keeps.ite | with_reducible apply State.pnlMod_keeps | split

theorem State.pnlRun_keeps {s0 : Orig} {s : State} (h : Keeps s0 s)  (hm : Sub 36029347714580488 s0.m) : Keeps s0 (State.pnlRun s) := by
  unfold State.pnlRun
  try dsimp only
  repeat' first | with_reducible assumption | with_reducible intro _ | ((with_reducible refine Sub.tr ?_ hm); exact rfl) | with_reducible apply Keeps.ite | with_reducible apply KeepsP.ite | with_reducible apply State.flipTake_keeps | with_reducible apply State.frameStart_keeps | with_reducible apply State.pnlSet_keeps | with_reducible apply State.blShow_keeps | with_reducible apply State.uniStart_keeps | with_reducible apply State.cmdEndIf_keeps | with_reducible apply ok_keeps | simp -zeta only [KeepsP.pair, KeepsQ.pair] | with_reducible apply KeepsP.fst | split | with_reducible refine Keeps.eqFst (by assumption) ?_

theorem execVsync_keeps {s0 : Orig} {s : State} (h : Keeps s0 s)  (hm : Sub 36029347714580492 s0.m) : KeepsR s0 (execVsync s) := by
  unfold execVsync
  try dsimp only
  repeat' first | with_reducible assumption | with_reducible intro _ | ((with_reducible refine Sub.tr ?_ hm); exact rfl) | with_reducible apply Keeps.ite | with_reducible apply KeepsR.ok | with_reducible apply KeepsR.ite | with_reducible apply ok_keeps | with_reducible apply State.pnlMod_keeps | with_reducible apply State.frameStart_keeps | with_reducible apply State.pnlRun_keeps | with_reducible apply State.uniForce_keeps | with_reducible apply State.flipTake_keeps | with_reducible apply State.setRail_keeps | with_reducible apply State.sendAllOn_keeps | with_reducible apply State.pnlOff_keeps | split | with_reducible refine Keeps.eqNext (by assumption) ?_

theorem execFrameCrc_keeps {s0 : Orig} {s : State} (h : Keeps s0 s)  (hm : Sub 36029347311927304 s0.m) : KeepsR s0 (execFrameCrc s) := by
  unfold execFrameCrc
  try dsimp only
  repeat' first | with_reducible assumption | with_reducible intro _ | ((with_reducible refine Sub.tr ?_ hm); exact rfl) | with_reducible apply Keeps.ite | with_reducible apply KeepsR.ok | with_reducible apply KeepsR.ite | with_reducible apply State.wrN_keeps | with_reducible apply State.pnlMod_keeps | with_reducible apply ok_keeps | with_reducible apply State.incF_keeps | with_reducible apply State.event_keeps | split | with_reducible refine Keeps.eqNext (by assumption) ?_

theorem execPnlTouch_keeps {s0 : Orig} {s : State} (h : Keeps s0 s)  (hm : Sub 550292963336 s0.m) : KeepsR s0 (execPnlTouch s) := by
  unfold execPnlTouch
  try dsimp only
  repeat' first | with_reducible assumption | with_reducible intro _ | ((with_reducible refine Sub.tr ?_ hm); exact rfl) | with_reducible apply Keeps.ite | with_reducible apply KeepsR.ok | with_reducible apply KeepsR.ite | with_reducible apply ok_keeps | with_reducible apply State.event_keeps | split | with_reducible refine Keeps.eqNext (by assumption) ?_

theorem execLinkErrRead_keeps {s0 : Orig} {s : State} (h : Keeps s0 s) (n : Nat) (hm : Sub 16384 s0.m) : KeepsR s0 (execLinkErrRead n s) := by
  unfold execLinkErrRead
  try dsimp only
  repeat' first | with_reducible assumption | with_reducible intro _ | ((with_reducible refine Sub.tr ?_ hm); exact rfl) | with_reducible apply Keeps.ite | with_reducible apply KeepsR.ok | with_reducible apply KeepsR.ite | with_reducible apply ok_keeps | with_reducible apply State.wrN_keeps | split | with_reducible refine Keeps.eqNext (by assumption) ?_

theorem execI2cXfer_keeps {s0 : Orig} {s : State} (h : Keeps s0 s) (ack : Bool) (data : List Byte) (hm : Sub 36029553747181578 s0.m) : KeepsR s0 (execI2cXfer ack data s) := by
  unfold execI2cXfer
  try dsimp only
  repeat' first | with_reducible assumption | with_reducible intro _ | ((with_reducible refine Sub.tr ?_ hm); exact rfl) | with_reducible apply Keeps.ite | with_reducible apply KeepsR.ok | with_reducible apply KeepsR.ite | with_reducible apply KeepsP.ite | with_reducible apply ok_keeps | with_reducible apply State.command_keeps | with_reducible apply refuse_keeps | with_reducible apply State.pnlMod_keeps | with_reducible apply done_keeps | with_reducible apply State.engStore_keeps | simp -zeta only [KeepsP.pair, KeepsQ.pair] | with_reducible apply KeepsP.fst | split | with_reducible refine Keeps.eqFst (by assumption) ?_ | with_reducible refine Keeps.eqNext (by assumption) ?_

theorem execPnlClearCounts_keeps {s0 : Orig} {s : State} (h : Keeps s0 s)  (hm : Sub 550561398792 s0.m) : KeepsR s0 (execPnlClearCounts s) := by
  unfold execPnlClearCounts
  try dsimp only
  repeat' first | with_reducible assumption | with_reducible intro _ | ((with_reducible refine Sub.tr ?_ hm); exact rfl) | with_reducible apply Keeps.ite | with_reducible apply KeepsR.ok | with_reducible apply KeepsR.ite | with_reducible apply KeepsP.ite | with_reducible apply ok_keeps | with_reducible apply State.command_keeps | with_reducible apply State.wrN_keeps | with_reducible apply done_keeps | simp -zeta only [KeepsP.pair, KeepsQ.pair] | with_reducible apply KeepsP.fst | split | with_reducible refine Keeps.eqFst (by assumption) ?_ | with_reducible refine Keeps.eqNext (by assumption) ?_

theorem State.pnlCoreReset_keeps {s0 : Orig} {s : State} (h : Keeps s0 s)  (hm : Sub 36029347714580492 s0.m) : Keeps s0 (State.pnlCoreReset s) := by
  unfold State.pnlCoreReset
  try dsimp only
  repeat' first | with_reducible assumption | with_reducible intro _ | ((with_reducible refine Sub.tr ?_ hm); exact rfl) | with_reducible apply Keeps.ite | with_reducible apply State.pnlDischarge_keeps | with_reducible apply State.resetWindow_keeps | with_reducible apply State.putPnl_keeps | split

end Sys2Proof.Machine
end

