-- ==== Sys2Proof/Laws/KeepsStorage.lean ====
section
/-! SUPPORT. The operations of Machine/Storage.lean keep the queue of commands and the canonical form, and change no part outside
their footprint. -/

set_option linter.unusedSimpArgs false
set_option linter.unusedVariables false
set_option Elab.async false

namespace Sys2Proof.Machine

theorem State.stqKick_keeps {s0 : Orig} {s : State} (h : Keeps s0 s)  (hm : Sub 4611686224594206722 s0.m) : Keeps s0 (State.stqKick s) := by
  unfold State.stqKick
  try dsimp only
  repeat' first | with_reducible assumption | with_reducible intro _ | ((with_reducible refine Sub.tr ?_ hm); exact rfl) | with_reducible apply Keeps.ite | with_reducible apply State.engStore_keeps | with_reducible apply State.putStq_keeps | split

theorem State.stqAct_keeps {s0 : Orig} {s : State} (h : Keeps s0 s) (r : StqReq) (bad : Bool) (hm : Sub 17798352863234 s0.m) : KeepsP s0 (State.stqAct s r bad) := by
  unfold State.stqAct
  try dsimp only
  repeat' first | with_reducible assumption | with_reducible intro _ | ((with_reducible refine Sub.tr ?_ hm); exact rfl) | with_reducible apply Keeps.ite | with_reducible apply KeepsR.ok | with_reducible apply KeepsR.ite | with_reducible apply KeepsP.ite | with_reducible apply State.store_keeps | with_reducible apply ok_keeps | with_reducible apply State.emmcPut_keeps | with_reducible apply State.wrBytes_keeps | with_reducible apply State.putMem_keeps | ((with_reducible show Memory.wf _ = true); exact SMap.wf_keep _ _ _ (by assumption)) | simp -zeta only [KeepsP.pair, KeepsQ.pair] | with_reducible apply KeepsP.fst | split | with_reducible refine Keeps.eqFst (by assumption) ?_ | with_reducible refine Keeps.eqNext (by assumption) ?_

theorem State.stqEnd_keeps {s0 : Orig} {s : State} (h : Keeps s0 s) (q : StqRun) (signal : Bool) (res : Result) (hm : Sub 4611686774887153674 s0.m) : Keeps s0 (State.stqEnd s q signal res) := by
  unfold State.stqEnd
  try dsimp only
  repeat' first | with_reducible assumption | with_reducible intro _ | ((with_reducible refine Sub.tr ?_ hm); exact rfl) | with_reducible apply Keeps.ite | with_reducible apply State.engStore_keeps | with_reducible apply State.setF_keeps | with_reducible apply State.putStq_keeps | with_reducible apply State.event_keeps | with_reducible apply ok_keeps | split

theorem State.stqHead_keeps {s0 : Orig} {s : State} (h : Keeps s0 s) (v : Word) (hm : Sub 4611686224594206722 s0.m) : Keeps s0 (State.stqHead s v) := by
  unfold State.stqHead
  try dsimp only
  repeat' first | with_reducible assumption | with_reducible intro _ | ((with_reducible refine Sub.tr ?_ hm); exact rfl) | with_reducible apply Keeps.ite | with_reducible apply State.setF_keeps | with_reducible apply State.stqKick_keeps | split

theorem execStqHeadWrite_keeps {s0 : Orig} {s : State} (h : Keeps s0 s) (v : Word) (hm : Sub 4611686224594206722 s0.m) : KeepsR s0 (execStqHeadWrite v s) := by
  unfold execStqHeadWrite
  try dsimp only
  repeat' first | with_reducible assumption | with_reducible intro _ | ((with_reducible refine Sub.tr ?_ hm); exact rfl) | with_reducible apply Keeps.ite | with_reducible apply KeepsR.ok | with_reducible apply KeepsR.ite | with_reducible apply ok_keeps | with_reducible apply State.stqHead_keeps | split | with_reducible refine Keeps.eqNext (by assumption) ?_

theorem State.stqCfg_keeps {s0 : Orig} {s : State} (h : Keeps s0 s) (v : Word) (hm : Sub 4611686018427387906 s0.m) : Keeps s0 (State.stqCfg s v) := by
  unfold State.stqCfg
  try dsimp only
  repeat' first | with_reducible assumption | with_reducible intro _ | ((with_reducible refine Sub.tr ?_ hm); exact rfl) | with_reducible apply Keeps.ite | with_reducible apply State.wrN_keeps | with_reducible apply State.setF_keeps | with_reducible apply State.putStq_keeps | split

theorem execStqRequestDone_keeps {s0 : Orig} {s : State} (h : Keeps s0 s) (bad : Bool) (hm : Sub 4611704367073198090 s0.m) : KeepsR s0 (execStqRequestDone bad s) := by
  unfold execStqRequestDone
  try dsimp only
  repeat' first | with_reducible assumption | with_reducible intro _ | ((with_reducible refine Sub.tr ?_ hm); exact rfl) | with_reducible apply Keeps.ite | with_reducible apply KeepsR.ok | with_reducible apply KeepsR.ite | with_reducible apply KeepsP.ite | with_reducible apply ok_keeps | with_reducible apply State.stqEnd_keeps | with_reducible apply State.stqKick_keeps | with_reducible apply State.stqAct_keeps | simp -zeta only [KeepsP.pair, KeepsQ.pair] | with_reducible apply KeepsP.fst | split | with_reducible refine Keeps.eqFst (by assumption) ?_ | with_reducible refine Keeps.eqNext (by assumption) ?_

theorem State.stqLoss_keeps {s0 : Orig} {s : State} (h : Keeps s0 s)  (hm : Sub 4611704367073198090 s0.m) : Keeps s0 (State.stqLoss s) := by
  unfold State.stqLoss
  try dsimp only
  repeat' first | with_reducible assumption | with_reducible intro _ | ((with_reducible refine Sub.tr ?_ hm); exact rfl) | with_reducible apply Keeps.ite | with_reducible apply KeepsP.ite | with_reducible apply State.each_keeps | with_reducible apply State.stqAct_keeps | with_reducible apply State.stqEnd_keeps | simp -zeta only [KeepsP.pair, KeepsQ.pair] | with_reducible apply KeepsP.fst | split | with_reducible refine Keeps.eqFst (by assumption) ?_

end Sys2Proof.Machine
end

