-- ==== Sys2Proof/Laws/KeepsUpdate.lean ====
section
/-! SUPPORT. The operations of Machine/Update.lean keep the queue of commands and the canonical form, and change no part outside
their footprint. -/

set_option linter.unusedSimpArgs false
set_option linter.unusedVariables false
set_option Elab.async false

namespace Sys2Proof.Machine

theorem State.slotSet_keeps {s0 : Orig} {s : State} (h : Keeps s0 s) (r : Nat) (b : Bool) (st : Nat) (hm : Sub 131072 s0.m) : Keeps s0 (State.slotSet s r b st) := by
  unfold State.slotSet
  try dsimp only
  repeat' first | with_reducible assumption | with_reducible intro _ | ((with_reducible refine Sub.tr ?_ hm); exact rfl) | with_reducible apply Keeps.ite | with_reducible apply State.setF_keeps | with_reducible apply State.setBit_keeps | split

theorem State.verSet_keeps {s0 : Orig} {s : State} (h : Keeps s0 s) (r : Nat) (b : Bool) (v : Nat) (hm : Sub 131072 s0.m) : Keeps s0 (State.verSet s r b v) := by
  unfold State.verSet
  try dsimp only
  repeat' first | with_reducible assumption | with_reducible intro _ | ((with_reducible refine Sub.tr ?_ hm); exact rfl) | with_reducible apply Keeps.ite | with_reducible apply State.wrN_keeps | split

theorem State.updShow_keeps {s0 : Orig} {s : State} (h : Keeps s0 s)  (hm : Sub 131072 s0.m) : Keeps s0 (State.updShow s) := by
  unfold State.updShow
  try dsimp only
  repeat' first | with_reducible assumption | with_reducible intro _ | ((with_reducible refine Sub.tr ?_ hm); exact rfl) | with_reducible apply Keeps.ite | with_reducible apply State.each_keeps | with_reducible apply State.setBit_keeps | split

theorem State.rxSet_keeps {s0 : Orig} {s : State} (h : Keeps s0 s) (r m : Nat) (hm : Sub 4503599627501568 s0.m) : Keeps s0 (State.rxSet s r m) := by
  unfold State.rxSet
  try dsimp only
  repeat' first | with_reducible assumption | with_reducible intro _ | ((with_reducible refine Sub.tr ?_ hm); exact rfl) | with_reducible apply Keeps.ite | with_reducible apply State.putUpd_keeps | with_reducible apply State.wrN_keeps | split

theorem State.lockSet_keeps {s0 : Orig} {s : State} (h : Keeps s0 s) (r token src : Nat) (hm : Sub 550293078024 s0.m) : Keeps s0 (State.lockSet s r token src) := by
  unfold State.lockSet
  try dsimp only
  repeat' first | with_reducible assumption | with_reducible intro _ | ((with_reducible refine Sub.tr ?_ hm); exact rfl) | with_reducible apply Keeps.ite | with_reducible apply State.wrN_keeps | with_reducible apply State.event_keeps | split

theorem State.updEnd_keeps {s0 : Orig} {s : State} (h : Keeps s0 s) (r : Nat) (b : Bool) (st ver : Nat) (hm : Sub 4504149920448520 s0.m) : Keeps s0 (State.updEnd s r b st ver) := by
  unfold State.updEnd
  try dsimp only
  repeat' first | with_reducible assumption | with_reducible intro _ | ((with_reducible refine Sub.tr ?_ hm); exact rfl) | with_reducible apply Keeps.ite | with_reducible apply State.slotSet_keeps | with_reducible apply State.verSet_keeps | with_reducible apply State.rxSet_keeps | with_reducible apply State.lockSet_keeps | with_reducible apply State.updShow_keeps | split

theorem State.lockFed_keeps {s0 : Orig} {s : State} (h : Keeps s0 s) (r : Nat) (hm : Sub 4503599627370496 s0.m) : Keeps s0 (State.lockFed s r) := by
  unfold State.lockFed
  try dsimp only
  repeat' first | with_reducible assumption | with_reducible intro _ | ((with_reducible refine Sub.tr ?_ hm); exact rfl) | with_reducible apply Keeps.ite | with_reducible apply State.putUpd_keeps | split

theorem State.slotErase_keeps {s0 : Orig} {s : State} (h : Keeps s0 s) (r : Nat) (b : Bool) (hm : Sub 8388608 s0.m) : Keeps s0 (State.slotErase s r b) := by
  unfold State.slotErase
  try dsimp only
  repeat' first | with_reducible assumption | with_reducible intro _ | ((with_reducible refine Sub.tr ?_ hm); exact rfl) | with_reducible apply Keeps.ite | with_reducible apply State.putMem_keeps | ((with_reducible show Memory.wf _ = true); exact SMap.wf_keep _ _ _ (by assumption)) | split

theorem State.updBegin_keeps {s0 : Orig} {s : State} (h : Keeps s0 s) (r src : Nat) (resumes : Bool) (hm : Sub 4504150063054856 s0.m) : KeepsP s0 (State.updBegin s r src resumes) := by
  unfold State.updBegin
  try dsimp only
  repeat' first | with_reducible assumption | with_reducible intro _ | ((with_reducible refine Sub.tr ?_ hm); exact rfl) | with_reducible apply Keeps.ite | with_reducible apply KeepsR.ok | with_reducible apply KeepsR.ite | with_reducible apply KeepsP.ite | with_reducible apply ok_keeps | with_reducible apply State.drawn_keeps | with_reducible apply State.slotSet_keeps | with_reducible apply State.verSet_keeps | with_reducible apply State.slotErase_keeps | with_reducible apply State.rxSet_keeps | with_reducible apply State.lockSet_keeps | with_reducible apply State.lockFed_keeps | with_reducible apply State.updShow_keeps | simp -zeta only [KeepsP.pair, KeepsQ.pair] | with_reducible apply KeepsP.fst | split | with_reducible refine Keeps.eqFst (by assumption) ?_ | with_reducible refine Keeps.eqNext (by assumption) ?_

theorem execUpdBegin_keeps {s0 : Orig} {s : State} (h : Keeps s0 s)  (hm : Sub 4504150331490312 s0.m) : KeepsR s0 (execUpdBegin s) := by
  unfold execUpdBegin
  try dsimp only
  repeat' first | with_reducible assumption | with_reducible intro _ | ((with_reducible refine Sub.tr ?_ hm); exact rfl) | with_reducible apply Keeps.ite | with_reducible apply KeepsR.ok | with_reducible apply KeepsR.ite | with_reducible apply KeepsP.ite | with_reducible apply ok_keeps | with_reducible apply State.command_keeps | with_reducible apply State.updBegin_keeps | simp -zeta only [KeepsP.pair, KeepsQ.pair] | with_reducible apply KeepsP.fst | split | with_reducible refine Keeps.eqFst (by assumption) ?_ | with_reducible refine Keeps.eqNext (by assumption) ?_

theorem State.updWrite_keeps {s0 : Orig} {s : State} (h : Keeps s0 s) (r token k : Nat) (d : Option (List Byte)) (crc : Word) (hm : Sub 4521742114881544 s0.m := by first | assumption | exact Sub.tr rfl (by assumption)) : KeepsP s0 (State.updWrite s r token k d crc) := by
  unfold State.updWrite
  try dsimp only
  repeat' first | with_reducible assumption | with_reducible intro _ | ((with_reducible refine Sub.tr ?_ hm); exact rfl) | with_reducible apply Keeps.ite | with_reducible apply KeepsR.ok | with_reducible apply KeepsR.ite | with_reducible apply KeepsP.ite | with_reducible apply State.updEnd_keeps | with_reducible apply State.slotPut_keeps | with_reducible apply State.rxSet_keeps | with_reducible apply State.lockFed_keeps | with_reducible apply ok_keeps | simp -zeta only [KeepsP.pair, KeepsQ.pair] | with_reducible apply KeepsP.fst | split | with_reducible refine Keeps.eqFst (by assumption) ?_ | with_reducible refine Keeps.eqNext (by assumption) ?_

theorem State.blockErr_keeps {s0 : Orig} {r : State × Result} (h : KeepsP s0 r) (hm : Sub 550293078024 s0.m := by first | assumption | exact Sub.tr rfl (by assumption)) : KeepsP s0 (State.blockErr r) := by
  unfold State.blockErr
  refine KeepsP.ite h ?_
  exact State.event_keeps (KeepsP.fst h) _ _

theorem execUpdWriteBlock_keeps {s0 : Orig} {s : State} (h : Keeps s0 s) (hm : Sub 4521742383317000 s0.m := by first | assumption | exact Sub.tr rfl (by assumption)) : KeepsR s0 (execUpdWriteBlock s) := by
  unfold execUpdWriteBlock
  refine KeepsR.ok (State.command_keeps h _ _ _ ?_)
  intro a s h
  exact State.blockErr_keeps (State.updWrite_keeps h _ _ _ _ _)

theorem State.updFinish_keeps {s0 : Orig} {s : State} (h : Keeps s0 s) (r token : Nat) (hm : Sub 4504149920448520 s0.m) : KeepsP s0 (State.updFinish s r token) := by
  unfold State.updFinish
  try dsimp only
  repeat' first | with_reducible assumption | with_reducible intro _ | ((with_reducible refine Sub.tr ?_ hm); exact rfl) | with_reducible apply Keeps.ite | with_reducible apply KeepsR.ok | with_reducible apply KeepsR.ite | with_reducible apply KeepsP.ite | with_reducible apply State.updEnd_keeps | with_reducible apply ok_keeps | simp -zeta only [KeepsP.pair, KeepsQ.pair] | with_reducible apply KeepsP.fst | split | with_reducible refine Keeps.eqFst (by assumption) ?_ | with_reducible refine Keeps.eqNext (by assumption) ?_

theorem execUpdFinish_keeps {s0 : Orig} {s : State} (h : Keeps s0 s)  (hm : Sub 4504150188883976 s0.m) : KeepsR s0 (execUpdFinish s) := by
  unfold execUpdFinish
  try dsimp only
  repeat' first | with_reducible assumption | with_reducible intro _ | ((with_reducible refine Sub.tr ?_ hm); exact rfl) | with_reducible apply Keeps.ite | with_reducible apply KeepsR.ok | with_reducible apply KeepsR.ite | with_reducible apply KeepsP.ite | with_reducible apply ok_keeps | with_reducible apply State.command_keeps | with_reducible apply State.updFinish_keeps | simp -zeta only [KeepsP.pair, KeepsQ.pair] | with_reducible apply KeepsP.fst | split | with_reducible refine Keeps.eqFst (by assumption) ?_ | with_reducible refine Keeps.eqNext (by assumption) ?_

theorem State.updAbort_keeps {s0 : Orig} {s : State} (h : Keeps s0 s) (r token : Nat) (hm : Sub 4504149920448520 s0.m) : KeepsP s0 (State.updAbort s r token) := by
  unfold State.updAbort
  try dsimp only
  repeat' first | with_reducible assumption | with_reducible intro _ | ((with_reducible refine Sub.tr ?_ hm); exact rfl) | with_reducible apply Keeps.ite | with_reducible apply KeepsR.ok | with_reducible apply KeepsR.ite | with_reducible apply KeepsP.ite | with_reducible apply State.updEnd_keeps | with_reducible apply ok_keeps | with_reducible apply State.slotSet_keeps | with_reducible apply State.verSet_keeps | with_reducible apply State.updShow_keeps | simp -zeta only [KeepsP.pair, KeepsQ.pair] | with_reducible apply KeepsP.fst | split | with_reducible refine Keeps.eqFst (by assumption) ?_ | with_reducible refine Keeps.eqNext (by assumption) ?_

theorem execUpdAbort_keeps {s0 : Orig} {s : State} (h : Keeps s0 s)  (hm : Sub 4504150188883976 s0.m) : KeepsR s0 (execUpdAbort s) := by
  unfold execUpdAbort
  try dsimp only
  repeat' first | with_reducible assumption | with_reducible intro _ | ((with_reducible refine Sub.tr ?_ hm); exact rfl) | with_reducible apply Keeps.ite | with_reducible apply KeepsR.ok | with_reducible apply KeepsR.ite | with_reducible apply KeepsP.ite | with_reducible apply ok_keeps | with_reducible apply State.command_keeps | with_reducible apply State.updAbort_keeps | simp -zeta only [KeepsP.pair, KeepsQ.pair] | with_reducible apply KeepsP.fst | split | with_reducible refine Keeps.eqFst (by assumption) ?_ | with_reducible refine Keeps.eqNext (by assumption) ?_

theorem execLockIdleExpired_keeps {s0 : Orig} {s : State} (h : Keeps s0 s) (r : Fin 16) (hm : Sub 76561744059039752 s0.m) : KeepsR s0 (execLockIdleExpired r s) := by
  unfold execLockIdleExpired
  try dsimp only
  repeat' first | with_reducible assumption | with_reducible intro _ | ((with_reducible refine Sub.tr ?_ hm); exact rfl) | with_reducible apply Keeps.ite | with_reducible apply KeepsR.ok | with_reducible apply KeepsR.ite | with_reducible apply ok_keeps | with_reducible apply State.pass_keeps | with_reducible apply State.updEnd_keeps | split | with_reducible refine Keeps.eqNext (by assumption) ?_

theorem State.updConfirm_keeps {s0 : Orig} {s : State} (h : Keeps s0 s) (mask : Nat) (hm : Sub 550293078024 s0.m) : Keeps s0 (State.updConfirm s mask) := by
  unfold State.updConfirm
  try dsimp only
  repeat' first | with_reducible assumption | with_reducible intro _ | ((with_reducible refine Sub.tr ?_ hm); exact rfl) | with_reducible apply Keeps.ite | with_reducible apply State.each_keeps | with_reducible apply State.slotSet_keeps | with_reducible apply State.wrN_keeps | with_reducible apply State.event_keeps | with_reducible apply State.updShow_keeps | split

theorem execUpdConfirm_keeps {s0 : Orig} {s : State} (h : Keeps s0 s)  (hm : Sub 550561513480 s0.m) : KeepsR s0 (execUpdConfirm s) := by
  unfold execUpdConfirm
  try dsimp only
  repeat' first | with_reducible assumption | with_reducible intro _ | ((with_reducible refine Sub.tr ?_ hm); exact rfl) | with_reducible apply Keeps.ite | with_reducible apply KeepsR.ok | with_reducible apply KeepsR.ite | with_reducible apply KeepsP.ite | with_reducible apply ok_keeps | with_reducible apply State.command_keeps | with_reducible apply done_keeps | with_reducible apply State.updConfirm_keeps | simp -zeta only [KeepsP.pair, KeepsQ.pair] | with_reducible apply KeepsP.fst | split | with_reducible refine Keeps.eqFst (by assumption) ?_ | with_reducible refine Keeps.eqNext (by assumption) ?_

theorem execUpdReadBlock_keeps {s0 : Orig} {s : State} (h : Keeps s0 s)  (hm : Sub 756728332298 s0.m) : KeepsR s0 (execUpdReadBlock s) := by
  unfold execUpdReadBlock
  try dsimp only
  repeat' first | with_reducible assumption | with_reducible intro _ | ((with_reducible refine Sub.tr ?_ hm); exact rfl) | with_reducible apply Keeps.ite | with_reducible apply KeepsR.ok | with_reducible apply KeepsR.ite | with_reducible apply KeepsP.ite | with_reducible apply ok_keeps | with_reducible apply State.command_keeps | with_reducible apply refuse_keeps | with_reducible apply done_keeps | with_reducible apply State.engStore_keeps | simp -zeta only [KeepsP.pair, KeepsQ.pair] | with_reducible apply KeepsP.fst | split | with_reducible refine Keeps.eqFst (by assumption) ?_ | with_reducible refine Keeps.eqNext (by assumption) ?_

theorem execKeyRevoke_keeps {s0 : Orig} {s : State} (h : Keeps s0 s)  (hm : Sub 550561513480 s0.m) : KeepsR s0 (execKeyRevoke s) := by
  unfold execKeyRevoke
  try dsimp only
  repeat' first | with_reducible assumption | with_reducible intro _ | ((with_reducible refine Sub.tr ?_ hm); exact rfl) | with_reducible apply Keeps.ite | with_reducible apply KeepsR.ok | with_reducible apply KeepsR.ite | with_reducible apply KeepsP.ite | with_reducible apply ok_keeps | with_reducible apply State.command_keeps | with_reducible apply refuse_keeps | with_reducible apply done_keeps | with_reducible apply State.setBit_keeps | simp -zeta only [KeepsP.pair, KeepsQ.pair] | with_reducible apply KeepsP.fst | split | with_reducible refine Keeps.eqFst (by assumption) ?_ | with_reducible refine Keeps.eqNext (by assumption) ?_

theorem State.activate_keeps {s0 : Orig} {s : State} (h : Keeps s0 s) (r : Nat) (hm : Sub 18142487511048 s0.m) : Keeps s0 (State.activate s r) := by
  unfold State.activate
  try dsimp only
  repeat' first | with_reducible assumption | with_reducible intro _ | ((with_reducible refine Sub.tr ?_ hm); exact rfl) | with_reducible apply Keeps.ite | with_reducible apply State.slotSet_keeps | with_reducible apply State.setF_keeps | with_reducible apply State.event_keeps | with_reducible apply State.slotPut_keeps | split

theorem State.updActivate_keeps {s0 : Orig} {s : State} (h : Keeps s0 s)  (hm : Sub 18142487511048 s0.m) : KeepsP s0 (State.updActivate s) := by
  unfold State.updActivate
  try dsimp only
  repeat' first | with_reducible assumption | with_reducible intro _ | ((with_reducible refine Sub.tr ?_ hm); exact rfl) | with_reducible apply Keeps.ite | with_reducible apply KeepsP.ite | with_reducible apply State.each_keeps | with_reducible apply State.activate_keeps | with_reducible apply State.updShow_keeps | simp -zeta only [KeepsP.pair, KeepsQ.pair] | with_reducible apply KeepsP.fst | split | with_reducible refine Keeps.eqFst (by assumption) ?_

theorem State.rollOne_keeps {s0 : Orig} {s : State} (h : Keeps s0 s) (r : Nat) (b o : Bool) (hm : Sub 18142487511048 s0.m := by first | assumption | exact Sub.tr rfl (by assumption)) : Keeps s0 (State.rollOne s r b o) := by
  unfold State.rollOne
  try dsimp only
  repeat' first | with_reducible assumption | with_reducible intro _ | ((with_reducible refine Sub.tr ?_ hm); exact rfl) | with_reducible apply Keeps.ite | with_reducible apply State.slotSet_keeps | with_reducible apply State.event_keeps | with_reducible apply State.slotPut_keeps | with_reducible apply State.burEnter_keeps | split

theorem State.mismatch_keeps {s0 : Orig} {s : State} (h : Keeps s0 s) (r : Nat) (hm : Sub 131072 s0.m := by first | assumption | exact Sub.tr rfl (by assumption)) : Keeps s0 (State.mismatch s r) := by
  unfold State.mismatch
  try dsimp only
  repeat' first | with_reducible assumption | with_reducible intro _ | ((with_reducible refine Sub.tr ?_ hm); exact rfl) | with_reducible apply Keeps.ite | with_reducible apply State.setBit_keeps | split

theorem State.rollCheck_keeps {s0 : Orig} {s : State} (h : Keeps s0 s) (n r : Nat) (hm : Sub 18142487511048 s0.m := by first | assumption | exact Sub.tr rfl (by assumption)) : Keeps s0 (State.rollCheck s n r) := by
  induction n generalizing s r with
  | zero => exact h
  | succ n ih =>
    unfold State.rollCheck
    have k : ∀ l : List Nat, Keeps s0 (s.each l (fun s q => (s.mismatch q).mismatch r)) :=
      State.each_keeps (fun _ _ a => State.mismatch_keeps (State.mismatch_keeps a _) _) h
    dsimp only
    split
    · split
      · exact ih (State.rollOne_keeps (k _) _ _ _) _
      · exact k _
    · exact k _

theorem State.updBoot_keeps {s0 : Orig} {s : State} (h : Keeps s0 s) (r : Nat) (hm : Sub 18142487511048 s0.m) : Keeps s0 (State.updBoot s r) := by
  unfold State.updBoot
  try dsimp only
  repeat' first | with_reducible assumption | with_reducible intro _ | ((with_reducible refine Sub.tr ?_ hm); exact rfl) | with_reducible apply Keeps.ite | with_reducible apply State.setF_keeps | with_reducible apply State.rollOne_keeps | with_reducible apply State.rollCheck_keeps | with_reducible apply State.updShow_keeps | with_reducible apply State.mismatch_keeps | split

theorem State.updLoad_keeps {s0 : Orig} {s : State} (h : Keeps s0 s)  (hm : Sub 4503599627501568 s0.m) : Keeps s0 (State.updLoad s) := by
  unfold State.updLoad
  try dsimp only
  repeat' first | with_reducible assumption | with_reducible intro _ | ((with_reducible refine Sub.tr ?_ hm); exact rfl) | with_reducible apply Keeps.ite | with_reducible apply State.each_keeps | with_reducible apply State.slotSet_keeps | with_reducible apply State.verSet_keeps | with_reducible apply State.putUpd_keeps | with_reducible apply State.updShow_keeps | split

theorem State.updCoreReset_keeps {s0 : Orig} {s : State} (h : Keeps s0 s)  (hm : Sub 131072 s0.m := by first | assumption | exact Sub.tr rfl (by assumption)) : Keeps s0 (State.updCoreReset s) := by
  unfold State.updCoreReset
  try dsimp only
  repeat' first | with_reducible assumption | with_reducible intro _ | ((with_reducible refine Sub.tr ?_ hm); exact rfl) | with_reducible apply Keeps.ite | with_reducible apply State.resetWindow_keeps | with_reducible apply State.updShow_keeps | split

end Sys2Proof.Machine
end

