-- ==== Sys2Proof/Laws/KeepsPower.lean ====
section
/-! SUPPORT. The operations of Machine/Power.lean keep the queue of commands and the canonical form, and change no part outside
their footprint. -/

set_option linter.unusedSimpArgs false
set_option linter.unusedVariables false
set_option Elab.async false

namespace Sys2Proof.Machine

theorem State.pwrMod_keeps {s0 : Orig} {s : State} (h : Keeps s0 s) (f : Pwr → Pwr) (hm : Sub 576460752303423488 s0.m) : Keeps s0 (State.pwrMod s f) := by
  unfold State.pwrMod
  try dsimp only
  repeat' first | with_reducible assumption | with_reducible intro _ | ((with_reducible refine Sub.tr ?_ hm); exact rfl) | with_reducible apply Keeps.ite | with_reducible apply State.putPwr_keeps | split

theorem State.pstSet_keeps {s0 : Orig} {s : State} (h : Keeps s0 s) (i : Nat) (v : Bool) (hm : Sub 4194304 s0.m) : Keeps s0 (State.pstSet s i v) := by
  unfold State.pstSet
  try dsimp only
  repeat' first | with_reducible assumption | with_reducible intro _ | ((with_reducible refine Sub.tr ?_ hm); exact rfl) | with_reducible apply Keeps.ite | with_reducible apply State.setBit_keeps | split

theorem State.chargeShow_keeps {s0 : Orig} {s : State} (h : Keeps s0 s)  (hm : Sub 4194304 s0.m) : Keeps s0 (State.chargeShow s) := by
  unfold State.chargeShow
  try dsimp only
  repeat' first | with_reducible assumption | with_reducible intro _ | ((with_reducible refine Sub.tr ?_ hm); exact rfl) | with_reducible apply Keeps.ite | with_reducible apply State.pstSet_keeps | split

theorem State.setPhase_keeps {s0 : Orig} {s : State} (h : Keeps s0 s) (p : Phase) (hm : Sub 576460752307617792 s0.m) : Keeps s0 (State.setPhase s p) := by
  unfold State.setPhase
  try dsimp only
  repeat' first | with_reducible assumption | with_reducible intro _ | ((with_reducible refine Sub.tr ?_ hm); exact rfl) | with_reducible apply Keeps.ite | with_reducible apply State.pwrMod_keeps | with_reducible apply State.pstSet_keeps | with_reducible apply State.chargeShow_keeps | split

theorem State.setBatv_keeps {s0 : Orig} {s : State} (h : Keeps s0 s) (v : Bool) (hm : Sub 1049600 s0.m) : Keeps s0 (State.setBatv s v) := by
  unfold State.setBatv
  try dsimp only
  repeat' first | with_reducible assumption | with_reducible intro _ | ((with_reducible refine Sub.tr ?_ hm); exact rfl) | with_reducible apply Keeps.ite | with_reducible apply State.setBit_keeps | split

theorem State.setV00_keeps {s0 : Orig} {s : State} (h : Keeps s0 s) (v : Bool) (hm : Sub 1049600 s0.m) : Keeps s0 (State.setV00 s v) := by
  unfold State.setV00
  try dsimp only
  repeat' first | with_reducible assumption | with_reducible intro _ | ((with_reducible refine Sub.tr ?_ hm); exact rfl) | with_reducible apply Keeps.ite | with_reducible apply State.setBit_keeps | split

theorem State.openCutoffs_keeps {s0 : Orig} {s : State} (h : Keeps s0 s)  (hm : Sub 1049600 s0.m) : Keeps s0 (State.openCutoffs s) := by
  unfold State.openCutoffs
  try dsimp only
  repeat' first | with_reducible assumption | with_reducible intro _ | ((with_reducible refine Sub.tr ?_ hm); exact rfl) | with_reducible apply Keeps.ite | with_reducible apply State.setBatv_keeps | with_reducible apply State.setV00_keeps | split

theorem State.setArmed_keeps {s0 : Orig} {s : State} (h : Keeps s0 s) (v : Bool) (hm : Sub 550297141256 s0.m) : Keeps s0 (State.setArmed s v) := by
  unfold State.setArmed
  try dsimp only
  repeat' first | with_reducible assumption | with_reducible intro _ | ((with_reducible refine Sub.tr ?_ hm); exact rfl) | with_reducible apply Keeps.ite | with_reducible apply State.pstSet_keeps | with_reducible apply State.event_keeps | split

theorem State.bankShow_keeps {s0 : Orig} {s : State} (h : Keeps s0 s) (mv : Nat) (temp : Option Int) (hm : Sub 4194304 s0.m) : Keeps s0 (State.bankShow s mv temp) := by
  unfold State.bankShow
  try dsimp only
  repeat' first | with_reducible assumption | with_reducible intro _ | ((with_reducible refine Sub.tr ?_ hm); exact rfl) | with_reducible apply Keeps.ite | with_reducible apply State.wrN_keeps | with_reducible apply State.pstSet_keeps | with_reducible apply State.chargeShow_keeps | split

theorem State.bankWeak_keeps {s0 : Orig} {s : State} (h : Keeps s0 s) (mv : Nat) (hm : Sub 576461302600564744 s0.m) : Keeps s0 (State.bankWeak s mv) := by
  unfold State.bankWeak
  try dsimp only
  repeat' first | with_reducible assumption | with_reducible intro _ | ((with_reducible refine Sub.tr ?_ hm); exact rfl) | with_reducible apply Keeps.ite | with_reducible apply State.pwrMod_keeps | with_reducible apply State.event_keeps | split

theorem State.loadStart_keeps {s0 : Orig} {s : State} (h : Keeps s0 s) (mv : Nat) (hm : Sub 576460752307617792 s0.m) : Keeps s0 (State.loadStart s mv) := by
  unfold State.loadStart
  try dsimp only
  repeat' first | with_reducible assumption | with_reducible intro _ | ((with_reducible refine Sub.tr ?_ hm); exact rfl) | with_reducible apply Keeps.ite | with_reducible apply State.pwrMod_keeps | with_reducible apply State.chargeShow_keeps | split

theorem State.loadStop_keeps {s0 : Orig} {s : State} (h : Keeps s0 s)  (hm : Sub 576460752307617792 s0.m) : Keeps s0 (State.loadStop s) := by
  unfold State.loadStop
  try dsimp only
  repeat' first | with_reducible assumption | with_reducible intro _ | ((with_reducible refine Sub.tr ?_ hm); exact rfl) | with_reducible apply Keeps.ite | with_reducible apply State.pwrMod_keeps | with_reducible apply State.chargeShow_keeps | split

theorem State.loadCheck_keeps {s0 : Orig} {s : State} (h : Keeps s0 s) (mv : Nat) (hm : Sub 576460752307617792 s0.m) : Keeps s0 (State.loadCheck s mv) := by
  unfold State.loadCheck
  try dsimp only
  repeat' first | with_reducible assumption | with_reducible intro _ | ((with_reducible refine Sub.tr ?_ hm); exact rfl) | with_reducible apply Keeps.ite | with_reducible apply State.loadStop_keeps | split

theorem State.bankEval_keeps {s0 : Orig} {s : State} (h : Keeps s0 s) (mv : Nat) (temp : Option Int) (hm : Sub 576461302600564744 s0.m) : Keeps s0 (State.bankEval s mv temp) := by
  unfold State.bankEval
  try dsimp only
  repeat' first | with_reducible assumption | with_reducible intro _ | ((with_reducible refine Sub.tr ?_ hm); exact rfl) | with_reducible apply Keeps.ite | with_reducible apply State.loadCheck_keeps | with_reducible apply State.bankShow_keeps | with_reducible apply State.bankWeak_keeps | with_reducible apply State.setArmed_keeps | split

theorem State.bankMeasure_keeps {s0 : Orig} {s : State} (h : Keeps s0 s) (c : Nat) (esr : Nat) (hm : Sub 864691678752276488 s0.m) : Keeps s0 (State.bankMeasure s c esr) := by
  unfold State.bankMeasure
  try dsimp only
  repeat' first | with_reducible assumption | with_reducible intro _ | ((with_reducible refine Sub.tr ?_ hm); exact rfl) | with_reducible apply Keeps.ite | with_reducible apply State.wrN_keeps | with_reducible apply State.pstSet_keeps | with_reducible apply State.putNv_keeps | with_reducible apply State.pwrMod_keeps | with_reducible apply State.event_keeps | split

theorem State.disarm_keeps {s0 : Orig} {s : State} (h : Keeps s0 s)  (hm : Sub 550297141256 s0.m) : Keeps s0 (State.disarm s) := by
  unfold State.disarm
  try dsimp only
  repeat' first | with_reducible assumption | with_reducible intro _ | ((with_reducible refine Sub.tr ?_ hm); exact rfl) | with_reducible apply Keeps.ite | with_reducible apply State.setArmed_keeps | split

theorem State.setClampBins_keeps {s0 : Orig} {s : State} (h : Keeps s0 s) (n : Nat) (bins : List Nat) (hm : Sub 2199023257600 s0.m) : Keeps s0 (State.setClampBins s n bins) := by
  unfold State.setClampBins
  try dsimp only
  repeat' first | with_reducible assumption | with_reducible intro _ | ((with_reducible refine Sub.tr ?_ hm); exact rfl) | with_reducible apply Keeps.ite | with_reducible apply State.lchMod_keeps | with_reducible apply State.setF_keeps | split

theorem State.restoreSnap_keeps {s0 : Orig} {s : State} (h : Keeps s0 s) (t : Nat) (hm : Sub 7147635346440 s0.m) : Keeps s0 (State.restoreSnap s t) := by
  unfold State.restoreSnap
  try dsimp only
  repeat' first | with_reducible assumption | with_reducible intro _ | ((with_reducible refine Sub.tr ?_ hm); exact rfl) | with_reducible apply Keeps.ite | with_reducible apply State.each_keeps | with_reducible apply State.setBit_keeps | with_reducible apply State.vchMod_keeps | with_reducible apply State.vlvDuty_keeps | with_reducible apply State.setClampBins_keeps | with_reducible apply State.lswSet_keeps | with_reducible apply State.lchMod_keeps | split

theorem State.stepDone_keeps {s0 : Orig} {s : State} (h : Keeps s0 s) (n : Nat) (hm : Sub 576460752303423488 s0.m) : Keeps s0 (State.stepDone s n) := by
  unfold State.stepDone
  try dsimp only
  repeat' first | with_reducible assumption | with_reducible intro _ | ((with_reducible refine Sub.tr ?_ hm); exact rfl) | with_reducible apply Keeps.ite | with_reducible apply State.pwrMod_keeps | split

theorem State.retain_keeps {s0 : Orig} {s : State} (h : Keeps s0 s) (r : BurRec) (hm : Sub 1152921504606846976 s0.m) : Keeps s0 (State.retain s r) := by
  unfold State.retain
  try dsimp only
  repeat' first | with_reducible assumption | with_reducible intro _ | ((with_reducible refine Sub.tr ?_ hm); exact rfl) | with_reducible apply Keeps.ite | with_reducible apply State.putAon_keeps | split

theorem State.burDirect_keeps {s0 : Orig} {s : State} (h : Keeps s0 s) (r : BurRec) (hm : Sub 550301335560 s0.m) : Keeps s0 (State.burDirect s r) := by
  unfold State.burDirect
  try dsimp only
  repeat' first | with_reducible assumption | with_reducible intro _ | ((with_reducible refine Sub.tr ?_ hm); exact rfl) | with_reducible apply Keeps.ite | with_reducible apply State.putBur_keeps | with_reducible apply State.burDrain_keeps | split

theorem State.store3_keeps {s0 : Orig} {s : State} (h : Keeps s0 s) (loss : Option Nat) (hm : Sub 1729382807211606024 s0.m) : Keeps s0 (State.store3 s loss) := by
  unfold State.store3
  try dsimp only
  repeat' first | with_reducible assumption | with_reducible intro _ | ((with_reducible refine Sub.tr ?_ hm); exact rfl) | with_reducible apply Keeps.ite | with_reducible apply State.burCommitAll_keeps | with_reducible apply State.burDirect_keeps | with_reducible apply State.stepDone_keeps | with_reducible apply State.retain_keeps | split

theorem State.store4_keeps {s0 : Orig} {s : State} (h : Keeps s0 s)  (hm : Sub 864691128455135232 s0.m) : Keeps s0 (State.store4 s) := by
  unfold State.store4
  try dsimp only
  repeat' first | with_reducible assumption | with_reducible intro _ | ((with_reducible refine Sub.tr ?_ hm); exact rfl) | with_reducible apply Keeps.ite | with_reducible apply State.putNv_keeps | with_reducible apply State.ephStore_keeps | with_reducible apply State.stepDone_keeps | split

theorem State.store6_keeps {s0 : Orig} {s : State} (h : Keeps s0 s)  (hm : Sub 864691128455135232 s0.m) : Keeps s0 (State.store6 s) := by
  unfold State.store6
  try dsimp only
  repeat' first | with_reducible assumption | with_reducible intro _ | ((with_reducible refine Sub.tr ?_ hm); exact rfl) | with_reducible apply Keeps.ite | with_reducible apply State.putNv_keeps | with_reducible apply State.stepDone_keeps | split

theorem State.rideCount_keeps {s0 : Orig} {s : State} (h : Keeps s0 s)  (hm : Sub 4194304 s0.m) : Keeps s0 (State.rideCount s) := by
  unfold State.rideCount
  try dsimp only
  repeat' first | with_reducible assumption | with_reducible intro _ | ((with_reducible refine Sub.tr ?_ hm); exact rfl) | with_reducible apply Keeps.ite | with_reducible apply State.setF_keeps | with_reducible apply State.incF_keeps | split

theorem State.lossStops_keeps {s0 : Orig} {s : State} (h : Keeps s0 s)  (hm : Sub 13982428554504536442 s0.m) : Keeps s0 (State.lossStops s) := by
  unfold State.lossStops
  try dsimp only
  repeat' first | with_reducible assumption | with_reducible intro _ | ((with_reducible refine Sub.tr ?_ hm); exact rfl) | with_reducible apply Keeps.ite | with_reducible apply State.each_keeps | with_reducible apply State.stqLoss_keeps | with_reducible apply State.dwStopAll_keeps | with_reducible apply State.camDiscardAll_keeps | with_reducible apply State.tblStopPower_keeps | with_reducible apply State.gnsOff_keeps | with_reducible apply State.canStop_keeps | with_reducible apply State.linkSet_keeps | split

theorem State.failAll_keeps {s0 : Orig} {s : State} (h : Keeps s0 s)  (hm : Sub 7147765369864 s0.m) : Keeps s0 (State.failAll s) := by
  unfold State.failAll
  try dsimp only
  repeat' first | with_reducible assumption | with_reducible intro _ | ((with_reducible refine Sub.tr ?_ hm); exact rfl) | with_reducible apply Keeps.ite | with_reducible apply State.each_keeps | with_reducible apply State.vlvFail_keeps | with_reducible apply State.lswFailFree_keeps | with_reducible apply State.vlvSettle_keeps | split

theorem State.allOff_keeps {s0 : Orig} {s : State} (h : Keeps s0 s)  (hm : Sub 7147765369864 s0.m) : Keeps s0 (State.allOff s) := by
  unfold State.allOff
  try dsimp only
  repeat' first | with_reducible assumption | with_reducible intro _ | ((with_reducible refine Sub.tr ?_ hm); exact rfl) | with_reducible apply Keeps.ite | with_reducible apply State.each_keeps | with_reducible apply State.vlvOffNow_keeps | with_reducible apply State.lswForceOff_keeps | split

theorem State.hkpFresh_keeps {s0 : Orig} {s : State} (h : Keeps s0 s) (t : List (Option Int)) (hm : Sub 550293471240 s0.m) : Keeps s0 (State.hkpFresh s t) := by
  unfold State.hkpFresh
  try dsimp only
  repeat' first | with_reducible assumption | with_reducible intro _ | ((with_reducible refine Sub.tr ?_ hm); exact rfl) | with_reducible apply Keeps.ite | with_reducible apply State.each_keeps | with_reducible apply State.hkpPublish_keeps | with_reducible apply State.burShow_keeps | split

theorem State.dormantStores_keeps {s0 : Orig} {s : State} (h : Keeps s0 s) (k : Nat) (hm : Sub 2017701625329885194 s0.m) : Keeps s0 (State.dormantStores s k) := by
  unfold State.dormantStores
  try dsimp only
  repeat' first | with_reducible assumption | with_reducible intro _ | ((with_reducible refine Sub.tr ?_ hm); exact rfl) | with_reducible apply Keeps.ite | with_reducible apply State.store3_keeps | with_reducible apply State.store4_keeps | with_reducible apply State.pwrMod_keeps | with_reducible apply State.mapPowerLoss_keeps | with_reducible apply State.stepDone_keeps | with_reducible apply State.store6_keeps | split

theorem State.lossSteps_keeps {s0 : Orig} {s : State} (h : Keeps s0 s) (reason : Nat) (sealed : Option Nat) (hm : Sub 16108134175828462974 s0.m) : Keeps s0 (State.lossSteps s reason sealed) := by
  unfold State.lossSteps
  try dsimp only
  repeat' first | with_reducible assumption | with_reducible intro _ | ((with_reducible refine Sub.tr ?_ hm); exact rfl) | with_reducible apply Keeps.ite | with_reducible apply State.lossStops_keeps | with_reducible apply State.openCutoffs_keeps | with_reducible apply State.pnlDischarge_keeps | with_reducible apply State.failAll_keeps | with_reducible apply State.stepDone_keeps | with_reducible apply State.putTim_keeps | with_reducible apply State.store3_keeps | with_reducible apply State.store4_keeps | with_reducible apply State.store6_keeps | split

theorem State.declareLoss_keeps {s0 : Orig} {s : State} (h : Keeps s0 s) (reason : Nat) (t : List (Option Int)) (hm : Sub 16108205918966902142 s0.m) : Keeps s0 (State.declareLoss s reason t) := by
  unfold State.declareLoss
  try dsimp only
  repeat' first | with_reducible assumption | with_reducible intro _ | ((with_reducible refine Sub.tr ?_ hm); exact rfl) | with_reducible apply Keeps.ite | with_reducible apply State.rideCount_keeps | with_reducible apply State.drawn_keeps | with_reducible apply State.dormantStores_keeps | with_reducible apply State.hkpFresh_keeps | with_reducible apply State.setPhase_keeps | with_reducible apply State.pwrMod_keeps | with_reducible apply State.putSys_keeps | with_reducible apply State.event_keeps | with_reducible apply State.lossSteps_keeps | split

theorem State.leaveBatM_keeps {s0 : Orig} {s : State} (h : Keeps s0 s)  (hm : Sub 576461302600564744 s0.m) : Keeps s0 (State.leaveBatM s) := by
  unfold State.leaveBatM
  try dsimp only
  repeat' first | with_reducible assumption | with_reducible intro _ | ((with_reducible refine Sub.tr ?_ hm); exact rfl) | with_reducible apply Keeps.ite | with_reducible apply State.pwrMod_keeps | with_reducible apply State.setPhase_keeps | with_reducible apply State.event_keeps | split

theorem execRideStart_keeps {s0 : Orig} {s : State} (h : Keeps s0 s)  (hm : Sub 576461302600564744 s0.m) : KeepsR s0 (execRideStart s) := by
  unfold execRideStart
  try dsimp only
  repeat' first | with_reducible assumption | with_reducible intro _ | ((with_reducible refine Sub.tr ?_ hm); exact rfl) | with_reducible apply Keeps.ite | with_reducible apply KeepsR.ok | with_reducible apply KeepsR.ite | with_reducible apply ok_keeps | with_reducible apply State.pstSet_keeps | with_reducible apply State.leaveBatM_keeps | split | with_reducible refine Keeps.eqNext (by assumption) ?_

theorem execRideReturn_keeps {s0 : Orig} {s : State} (h : Keeps s0 s) (dt : Nat) (hm : Sub 648518346446209024 s0.m) : KeepsR s0 (execRideReturn dt s) := by
  unfold execRideReturn
  try dsimp only
  repeat' first | with_reducible assumption | with_reducible intro _ | ((with_reducible refine Sub.tr ?_ hm); exact rfl) | with_reducible apply Keeps.ite | with_reducible apply KeepsR.ok | with_reducible apply KeepsR.ite | with_reducible apply State.pass_keeps | with_reducible apply ok_keeps | with_reducible apply State.rideCount_keeps | with_reducible apply State.pstSet_keeps | with_reducible apply State.setPhase_keeps | split | with_reducible refine Keeps.eqNext (by assumption) ?_

theorem execRideTimeExpired_keeps {s0 : Orig} {s : State} (h : Keeps s0 s) (dt : Nat) (t : List (Option Int)) (hm : Sub 16108205919067565438 s0.m) : KeepsR s0 (execRideTimeExpired dt t s) := by
  unfold execRideTimeExpired
  try dsimp only
  repeat' first | with_reducible assumption | with_reducible intro _ | ((with_reducible refine Sub.tr ?_ hm); exact rfl) | with_reducible apply Keeps.ite | with_reducible apply KeepsR.ok | with_reducible apply KeepsR.ite | with_reducible apply State.pass_keeps | with_reducible apply ok_keeps | with_reducible apply State.declareLoss_keeps | split | with_reducible refine Keeps.eqNext (by assumption) ?_

theorem execReserveReturn_keeps {s0 : Orig} {s : State} (h : Keeps s0 s)  (hm : Sub 576460752307617792 s0.m) : KeepsR s0 (execReserveReturn s) := by
  unfold execReserveReturn
  try dsimp only
  repeat' first | with_reducible assumption | with_reducible intro _ | ((with_reducible refine Sub.tr ?_ hm); exact rfl) | with_reducible apply Keeps.ite | with_reducible apply KeepsR.ok | with_reducible apply KeepsR.ite | with_reducible apply ok_keeps | with_reducible apply State.pstSet_keeps | with_reducible apply State.setPhase_keeps | split | with_reducible refine Keeps.eqNext (by assumption) ?_

theorem execReserveBridgeExpired_keeps {s0 : Orig} {s : State} (h : Keeps s0 s) (t : List (Option Int)) (hm : Sub 16108205918966902142 s0.m) : KeepsR s0 (execReserveBridgeExpired t s) := by
  unfold execReserveBridgeExpired
  try dsimp only
  repeat' first | with_reducible assumption | with_reducible intro _ | ((with_reducible refine Sub.tr ?_ hm); exact rfl) | with_reducible apply Keeps.ite | with_reducible apply KeepsR.ok | with_reducible apply KeepsR.ite | with_reducible apply ok_keeps | with_reducible apply State.declareLoss_keeps | split | with_reducible refine Keeps.eqNext (by assumption) ?_

theorem State.collapse_keeps {s0 : Orig} {s : State} (h : Keeps s0 s) (reason : Nat) (t : List (Option Int)) (hm : Sub 16108205918966902142 s0.m) : Keeps s0 (State.collapse s reason t) := by
  unfold State.collapse
  try dsimp only
  repeat' first | with_reducible assumption | with_reducible intro _ | ((with_reducible refine Sub.tr ?_ hm); exact rfl) | with_reducible apply Keeps.ite | with_reducible apply State.declareLoss_keeps | with_reducible apply State.setPhase_keeps | with_reducible apply State.allOff_keeps | split

theorem execCollapse_keeps {s0 : Orig} {s : State} (h : Keeps s0 s) (t : List (Option Int)) (hm : Sub 16108205918966902142 s0.m) : KeepsR s0 (execCollapse t s) := by
  unfold execCollapse
  try dsimp only
  repeat' first | with_reducible assumption | with_reducible intro _ | ((with_reducible refine Sub.tr ?_ hm); exact rfl) | with_reducible apply Keeps.ite | with_reducible apply KeepsR.ok | with_reducible apply KeepsR.ite | with_reducible apply ok_keeps | with_reducible apply State.putAon_keeps | with_reducible apply State.collapse_keeps | with_reducible apply State.pstSet_keeps | split | with_reducible refine Keeps.eqNext (by assumption) ?_

theorem State.retainReverse_keeps {s0 : Orig} {s : State} (h : Keeps s0 s) (was : Phase) (hm : Sub 1152921504606846976 s0.m) : Keeps s0 (State.retainReverse s was) := by
  unfold State.retainReverse
  try dsimp only
  repeat' first | with_reducible assumption | with_reducible intro _ | ((with_reducible refine Sub.tr ?_ hm); exact rfl) | with_reducible apply Keeps.ite | with_reducible apply State.retain_keeps | split

theorem execReverseBatM_keeps {s0 : Orig} {s : State} (h : Keeps s0 s) (t : List (Option Int)) (hm : Sub 16108205918966902142 s0.m) : KeepsR s0 (execReverseBatM t s) := by
  unfold execReverseBatM
  try dsimp only
  repeat' first | with_reducible assumption | with_reducible intro _ | ((with_reducible refine Sub.tr ?_ hm); exact rfl) | with_reducible apply Keeps.ite | with_reducible apply KeepsR.ok | with_reducible apply KeepsR.ite | with_reducible apply ok_keeps | with_reducible apply State.putAon_keeps | with_reducible apply State.pstSet_keeps | with_reducible apply State.collapse_keeps | with_reducible apply State.retainReverse_keeps | split | with_reducible refine Keeps.eqNext (by assumption) ?_

theorem execInputOpen_keeps {s0 : Orig} {s : State} (h : Keeps s0 s)  (hm : Sub 576461302600564744 s0.m) : KeepsR s0 (execInputOpen s) := by
  unfold execInputOpen
  try dsimp only
  repeat' first | with_reducible assumption | with_reducible intro _ | ((with_reducible refine Sub.tr ?_ hm); exact rfl) | with_reducible apply Keeps.ite | with_reducible apply KeepsR.ok | with_reducible apply KeepsR.ite | with_reducible apply ok_keeps | with_reducible apply State.pwrMod_keeps | with_reducible apply State.event_keeps | with_reducible apply State.leaveBatM_keeps | split | with_reducible refine Keeps.eqNext (by assumption) ?_

theorem execInputSwitchClose_keeps {s0 : Orig} {s : State} (h : Keeps s0 s)  (hm : Sub 576460752303423488 s0.m) : KeepsR s0 (execInputSwitchClose s) := by
  unfold execInputSwitchClose
  try dsimp only
  repeat' first | with_reducible assumption | with_reducible intro _ | ((with_reducible refine Sub.tr ?_ hm); exact rfl) | with_reducible apply Keeps.ite | with_reducible apply KeepsR.ok | with_reducible apply KeepsR.ite | with_reducible apply ok_keeps | with_reducible apply State.pwrMod_keeps | split | with_reducible refine Keeps.eqNext (by assumption) ?_

theorem execGndMOpen_keeps {s0 : Orig} {s : State} (h : Keeps s0 s) (mv : Nat) (hm : Sub 550297141256 s0.m) : KeepsR s0 (execGndMOpen mv s) := by
  unfold execGndMOpen
  try dsimp only
  repeat' first | with_reducible assumption | with_reducible intro _ | ((with_reducible refine Sub.tr ?_ hm); exact rfl) | with_reducible apply Keeps.ite | with_reducible apply KeepsR.ok | with_reducible apply KeepsR.ite | with_reducible apply ok_keeps | with_reducible apply State.pstSet_keeps | with_reducible apply State.event_keeps | split | with_reducible refine Keeps.eqNext (by assumption) ?_

theorem execOverv_keeps {s0 : Orig} {s : State} (h : Keeps s0 s) (mv : Nat) (hm : Sub 550297141256 s0.m) : KeepsR s0 (execOverv mv s) := by
  unfold execOverv
  try dsimp only
  repeat' first | with_reducible assumption | with_reducible intro _ | ((with_reducible refine Sub.tr ?_ hm); exact rfl) | with_reducible apply Keeps.ite | with_reducible apply KeepsR.ok | with_reducible apply KeepsR.ite | with_reducible apply State.wrN_keeps | with_reducible apply State.chargeShow_keeps | with_reducible apply ok_keeps | with_reducible apply State.pstSet_keeps | with_reducible apply State.event_keeps | split | with_reducible refine Keeps.eqNext (by assumption) ?_

theorem execFeedLow_keeps {s0 : Orig} {s : State} (h : Keeps s0 s) (f : Fin 3) (mv : Nat) (hm : Sub 550297141256 s0.m) : KeepsR s0 (execFeedLow f mv s) := by
  unfold execFeedLow
  try dsimp only
  repeat' first | with_reducible assumption | with_reducible intro _ | ((with_reducible refine Sub.tr ?_ hm); exact rfl) | with_reducible apply Keeps.ite | with_reducible apply KeepsR.ok | with_reducible apply KeepsR.ite | with_reducible apply ok_keeps | with_reducible apply State.wrN_keeps | with_reducible apply State.pstSet_keeps | with_reducible apply State.event_keeps | split | with_reducible refine Keeps.eqNext (by assumption) ?_

theorem execFeedLowClear_keeps {s0 : Orig} {s : State} (h : Keeps s0 s) (f : Fin 3) (mv : Nat) (hm : Sub 4948612088840 s0.m) : KeepsR s0 (execFeedLowClear f mv s) := by
  unfold execFeedLowClear
  try dsimp only
  repeat' first | with_reducible assumption | with_reducible intro _ | ((with_reducible refine Sub.tr ?_ hm); exact rfl) | with_reducible apply Keeps.ite | with_reducible apply KeepsR.ok | with_reducible apply KeepsR.ite | with_reducible apply ok_keeps | with_reducible apply State.wrN_keeps | with_reducible apply State.pstSet_keeps | with_reducible apply State.vlvBack_keeps | split | with_reducible refine Keeps.eqNext (by assumption) ?_

theorem State.pwrCfg_keeps {s0 : Orig} {s : State} (h : Keeps s0 s) (v : Word) (hm : Sub 4194304 s0.m) : Keeps s0 (State.pwrCfg s v) := by
  unfold State.pwrCfg
  try dsimp only
  repeat' first | with_reducible assumption | with_reducible intro _ | ((with_reducible refine Sub.tr ?_ hm); exact rfl) | with_reducible apply Keeps.ite | with_reducible apply State.wr_keeps | with_reducible apply State.pstSet_keeps | split

theorem execJournalEnd_keeps {s0 : Orig} {s : State} (h : Keeps s0 s) (dt : Nat) (why : JournalEnd) (n : Nat) (hm : Sub 936837714861629450 s0.m) : KeepsR s0 (execJournalEnd dt why n s) := by
  unfold execJournalEnd
  try dsimp only
  repeat' first | with_reducible assumption | with_reducible intro _ | ((with_reducible refine Sub.tr ?_ hm); exact rfl) | with_reducible apply Keeps.ite | with_reducible apply KeepsR.ok | with_reducible apply KeepsR.ite | with_reducible apply State.pass_keeps | with_reducible apply State.mapPowerLoss_keeps | with_reducible apply State.pwrMod_keeps | with_reducible apply ok_keeps | with_reducible apply State.stepDone_keeps | with_reducible apply State.store6_keeps | split | with_reducible refine Keeps.eqNext (by assumption) ?_

theorem State.summary_keeps {s0 : Orig} {s : State} (h : Keeps s0 s) (reason ms : Nat) (hm : Sub 1152921504606846976 s0.m) : Keeps s0 (State.summary s reason ms) := by
  unfold State.summary
  try dsimp only
  repeat' first | with_reducible assumption | with_reducible intro _ | ((with_reducible refine Sub.tr ?_ hm); exact rfl) | with_reducible apply Keeps.ite | with_reducible apply State.putAon_keeps | split

theorem execSequencerEnd_keeps {s0 : Orig} {s : State} (h : Keeps s0 s) (dt : Nat) (hm : Sub 1801446998818425864 s0.m) : KeepsR s0 (execSequencerEnd dt s) := by
  unfold execSequencerEnd
  try dsimp only
  repeat' first | with_reducible assumption | with_reducible intro _ | ((with_reducible refine Sub.tr ?_ hm); exact rfl) | with_reducible apply Keeps.ite | with_reducible apply KeepsR.ok | with_reducible apply KeepsR.ite | with_reducible apply State.pass_keeps | with_reducible apply State.allOff_keeps | with_reducible apply State.disarm_keeps | with_reducible apply State.summary_keeps | with_reducible apply State.pstSet_keeps | with_reducible apply ok_keeps | with_reducible apply State.setPhase_keeps | split | with_reducible refine Keeps.eqNext (by assumption) ?_

theorem execBankMeasurement_keeps {s0 : Orig} {s : State} (h : Keeps s0 s) (c : BitVec 16) (esr : BitVec 16) (mv : Nat) (temp : Option Int) (hm : Sub 864691678752276488 s0.m) : KeepsR s0 (execBankMeasurement c esr mv temp s) := by
  unfold execBankMeasurement
  try dsimp only
  repeat' first | with_reducible assumption | with_reducible intro _ | ((with_reducible refine Sub.tr ?_ hm); exact rfl) | with_reducible apply Keeps.ite | with_reducible apply KeepsR.ok | with_reducible apply KeepsR.ite | with_reducible apply State.bankMeasure_keeps | with_reducible apply ok_keeps | with_reducible apply State.loadStop_keeps | with_reducible apply State.bankEval_keeps | split | with_reducible refine Keeps.eqNext (by assumption) ?_

theorem execArmedChg_keeps {s0 : Orig} {s : State} (h : Keeps s0 s) (mv : Nat) (temp : Option Int) (hm : Sub 576461302600564744 s0.m) : KeepsR s0 (execArmedChg mv temp s) := by
  unfold execArmedChg
  try dsimp only
  repeat' first | with_reducible assumption | with_reducible intro _ | ((with_reducible refine Sub.tr ?_ hm); exact rfl) | with_reducible apply Keeps.ite | with_reducible apply KeepsR.ok | with_reducible apply KeepsR.ite | with_reducible apply ok_keeps | with_reducible apply State.bankEval_keeps | split | with_reducible refine Keeps.eqNext (by assumption) ?_

theorem execBankTest_keeps {s0 : Orig} {s : State} (h : Keeps s0 s)  (hm : Sub 576461302869000200 s0.m) : KeepsR s0 (execBankTest s) := by
  unfold execBankTest
  try dsimp only
  repeat' first | with_reducible assumption | with_reducible intro _ | ((with_reducible refine Sub.tr ?_ hm); exact rfl) | with_reducible apply Keeps.ite | with_reducible apply KeepsR.ok | with_reducible apply KeepsR.ite | with_reducible apply KeepsP.ite | with_reducible apply ok_keeps | with_reducible apply State.command_keeps | with_reducible apply refuse_keeps | with_reducible apply State.disarm_keeps | with_reducible apply State.loadStart_keeps | simp -zeta only [KeepsP.pair, KeepsQ.pair] | with_reducible apply KeepsP.fst | split | with_reducible refine Keeps.eqFst (by assumption) ?_ | with_reducible refine Keeps.eqNext (by assumption) ?_

theorem execBankTestComplete_keeps {s0 : Orig} {s : State} (h : Keeps s0 s) (mv : Nat) (temp : Option Int) (hm : Sub 576461302869000200 s0.m) : KeepsR s0 (execBankTestComplete mv temp s) := by
  unfold execBankTestComplete
  try dsimp only
  repeat' first | with_reducible assumption | with_reducible intro _ | ((with_reducible refine Sub.tr ?_ hm); exact rfl) | with_reducible apply Keeps.ite | with_reducible apply KeepsR.ok | with_reducible apply KeepsR.ite | with_reducible apply ok_keeps | with_reducible apply State.setMail_keeps | with_reducible apply State.loadStop_keeps | with_reducible apply State.bankEval_keeps | with_reducible apply State.cmdShow_keeps | split | with_reducible refine Keeps.eqNext (by assumption) ?_

theorem execBankBleed_keeps {s0 : Orig} {s : State} (h : Keeps s0 s)  (hm : Sub 576461302869000200 s0.m) : KeepsR s0 (execBankBleed s) := by
  unfold execBankBleed
  try dsimp only
  repeat' first | with_reducible assumption | with_reducible intro _ | ((with_reducible refine Sub.tr ?_ hm); exact rfl) | with_reducible apply Keeps.ite | with_reducible apply KeepsR.ok | with_reducible apply KeepsR.ite | with_reducible apply KeepsP.ite | with_reducible apply ok_keeps | with_reducible apply State.command_keeps | with_reducible apply refuse_keeps | with_reducible apply done_keeps | with_reducible apply State.pwrMod_keeps | with_reducible apply State.disarm_keeps | with_reducible apply State.loadStart_keeps | simp -zeta only [KeepsP.pair, KeepsQ.pair] | with_reducible apply KeepsP.fst | split | with_reducible refine Keeps.eqFst (by assumption) ?_ | with_reducible refine Keeps.eqNext (by assumption) ?_

theorem execBankCharge_keeps {s0 : Orig} {s : State} (h : Keeps s0 s)  (hm : Sub 576461302869000200 s0.m) : KeepsR s0 (execBankCharge s) := by
  unfold execBankCharge
  try dsimp only
  repeat' first | with_reducible assumption | with_reducible intro _ | ((with_reducible refine Sub.tr ?_ hm); exact rfl) | with_reducible apply Keeps.ite | with_reducible apply KeepsR.ok | with_reducible apply KeepsR.ite | with_reducible apply KeepsP.ite | with_reducible apply ok_keeps | with_reducible apply State.command_keeps | with_reducible apply done_keeps | with_reducible apply State.pwrMod_keeps | with_reducible apply State.loadStop_keeps | simp -zeta only [KeepsP.pair, KeepsQ.pair] | with_reducible apply KeepsP.fst | split | with_reducible refine Keeps.eqFst (by assumption) ?_ | with_reducible refine Keeps.eqNext (by assumption) ?_

theorem execPwrClearStats_keeps {s0 : Orig} {s : State} (h : Keeps s0 s)  (hm : Sub 550565576712 s0.m) : KeepsR s0 (execPwrClearStats s) := by
  unfold execPwrClearStats
  try dsimp only
  repeat' first | with_reducible assumption | with_reducible intro _ | ((with_reducible refine Sub.tr ?_ hm); exact rfl) | with_reducible apply Keeps.ite | with_reducible apply KeepsR.ok | with_reducible apply KeepsR.ite | with_reducible apply KeepsP.ite | with_reducible apply ok_keeps | with_reducible apply State.command_keeps | with_reducible apply done_keeps | with_reducible apply State.wr_keeps | simp -zeta only [KeepsP.pair, KeepsQ.pair] | with_reducible apply KeepsP.fst | split | with_reducible refine Keeps.eqFst (by assumption) ?_ | with_reducible refine Keeps.eqNext (by assumption) ?_

theorem State.hkpDue_keeps {s0 : Orig} {s : State} (h : Keeps s0 s)  (hm : Sub 72057594138591232 s0.m) : Keeps s0 (State.hkpDue s) := by
  unfold State.hkpDue
  try dsimp only
  repeat' first | with_reducible assumption | with_reducible intro _ | ((with_reducible refine Sub.tr ?_ hm); exact rfl) | with_reducible apply Keeps.ite | with_reducible apply State.pass_keeps | split

theorem execHousekeepingRound_keeps {s0 : Orig} {s : State} (h : Keeps s0 s) (readings : List (Option Int)) (hm : Sub 684552092073608200 s0.m) : KeepsR s0 (execHousekeepingRound readings s) := by
  unfold execHousekeepingRound
  try dsimp only
  repeat' first | with_reducible assumption | with_reducible intro _ | ((with_reducible refine Sub.tr ?_ hm); exact rfl) | with_reducible apply Keeps.ite | with_reducible apply KeepsR.ok | with_reducible apply KeepsR.ite | with_reducible apply State.each_keeps | with_reducible apply ok_keeps | with_reducible apply State.hkpDue_keeps | with_reducible apply State.hkpRound_keeps | with_reducible apply State.wrN_keeps | with_reducible apply State.bankEval_keeps | with_reducible apply State.chargeShow_keeps | with_reducible apply State.vlvBack_keeps | with_reducible apply State.vlvBandRound_keeps | with_reducible apply State.pnlTemp_keeps | with_reducible apply State.cmdEndIf_keeps | split | with_reducible refine Keeps.eqNext (by assumption) ?_

theorem execThermalShutdown_keeps {s0 : Orig} {s : State} (h : Keeps s0 s) (k : Fin 64) (cause : Fin 3) (reading : Int) (t : List (Option Int)) (hm : Sub 1765418201708776460 s0.m) : KeepsR s0 (execThermalShutdown k cause reading t s) := by
  unfold execThermalShutdown
  try dsimp only
  repeat' first | with_reducible assumption | with_reducible intro _ | ((with_reducible refine Sub.tr ?_ hm); exact rfl) | with_reducible apply Keeps.ite | with_reducible apply KeepsR.ok | with_reducible apply KeepsR.ite | with_reducible apply State.each_keeps | with_reducible apply State.hkpFresh_keeps | with_reducible apply State.pwrMod_keeps | with_reducible apply State.vlvFail_keeps | with_reducible apply State.lswForceOff_keeps | with_reducible apply State.lswFailFree_keeps | with_reducible apply State.vlvSettle_keeps | with_reducible apply State.openCutoffs_keeps | with_reducible apply State.pnlDischarge_keeps | with_reducible apply State.burDirect_keeps | with_reducible apply State.burCommitAll_keeps | with_reducible apply State.retain_keeps | with_reducible apply State.putBur_keeps | with_reducible apply State.burShow_keeps | with_reducible apply ok_keeps | with_reducible apply State.setPhase_keeps | split | with_reducible refine Keeps.eqNext (by assumption) ?_

end Sys2Proof.Machine
end

