-- ==== Sys2Proof/Laws/KeepsModes.lean ====
section
/-! SUPPORT. The operations of Machine/Modes.lean keep the queue of commands and the canonical form, and change no part outside
their footprint. -/

set_option linter.unusedSimpArgs false
set_option linter.unusedVariables false
set_option Elab.async false

namespace Sys2Proof.Machine

theorem State.sysMod_keeps {s0 : Orig} {s : State} (h : Keeps s0 s) (f : SysSt → SysSt) (hm : Sub 1099511627776 s0.m) : Keeps s0 (State.sysMod s f) := by
  unfold State.sysMod
  try dsimp only
  repeat' first | with_reducible assumption | with_reducible intro _ | ((with_reducible refine Sub.tr ?_ hm); exact rfl) | with_reducible apply Keeps.ite | with_reducible apply State.putSys_keeps | split

theorem State.transBegin_keeps {s0 : Orig} {s : State} (h : Keeps s0 s) (m : Nat) (auto : Bool) (hm : Sub 1099511627778 s0.m) : Keeps s0 (State.transBegin s m auto) := by
  unfold State.transBegin
  try dsimp only
  repeat' first | with_reducible assumption | with_reducible intro _ | ((with_reducible refine Sub.tr ?_ hm); exact rfl) | with_reducible apply Keeps.ite | with_reducible apply State.setF_keeps | with_reducible apply State.sysMod_keeps | split

theorem State.tstRelock_keeps {s0 : Orig} {s : State} (h : Keeps s0 s)  (hm : Sub 550295044104 s0.m) : Keeps s0 (State.tstRelock s) := by
  unfold State.tstRelock
  try dsimp only
  repeat' first | with_reducible assumption | with_reducible intro _ | ((with_reducible refine Sub.tr ?_ hm); exact rfl) | with_reducible apply Keeps.ite | with_reducible apply State.resetWindow_keeps | with_reducible apply State.wrN_keeps | with_reducible apply State.event_keeps | split

theorem State.lightsTo_keeps {s0 : Orig} {s : State} (h : Keeps s0 s) (mode : Nat) (on : Bool) (hm : Sub 2749450422280 s0.m) : Keeps s0 (State.lightsTo s mode on) := by
  unfold State.lightsTo
  try dsimp only
  repeat' first | with_reducible assumption | with_reducible intro _ | ((with_reducible refine Sub.tr ?_ hm); exact rfl) | with_reducible apply Keeps.ite | with_reducible apply State.each_keeps | with_reducible apply State.lswEntry_keeps | split

theorem State.failSome_keeps {s0 : Orig} {s : State} (h : Keeps s0 s) (vs ls : List Nat) (hm : Sub 7147765369864 s0.m) : Keeps s0 (State.failSome s vs ls) := by
  unfold State.failSome
  try dsimp only
  repeat' first | with_reducible assumption | with_reducible intro _ | ((with_reducible refine Sub.tr ?_ hm); exact rfl) | with_reducible apply Keeps.ite | with_reducible apply State.each_keeps | with_reducible apply State.vlvFail_keeps | with_reducible apply State.lswFailFree_keeps | with_reducible apply State.vlvSettle_keeps | split

theorem State.entryOutputs_keeps {s0 : Orig} {s : State} (h : Keeps s0 s) (mode : Nat) (spare : Bool) (hm : Sub 147885253725448 s0.m) : Keeps s0 (State.entryOutputs s mode spare) := by
  unfold State.entryOutputs
  try dsimp only
  repeat' first | with_reducible assumption | with_reducible intro _ | ((with_reducible refine Sub.tr ?_ hm); exact rfl) | with_reducible apply Keeps.ite | with_reducible apply State.each_keeps | with_reducible apply State.failSome_keeps | with_reducible apply State.tblStopMode_keeps | with_reducible apply State.lswEntry_keeps | split

theorem State.bankAbort_keeps {s0 : Orig} {s : State} (h : Keeps s0 s)  (hm : Sub 576461302869000200 s0.m) : Keeps s0 (State.bankAbort s) := by
  unfold State.bankAbort
  try dsimp only
  repeat' first | with_reducible assumption | with_reducible intro _ | ((with_reducible refine Sub.tr ?_ hm); exact rfl) | with_reducible apply Keeps.ite | with_reducible apply State.loadStop_keeps | with_reducible apply State.cmdEnd_keeps | split

theorem State.modeHooks_keeps {s0 : Orig} {s : State} (h : Keeps s0 s) (old new : Nat) (hm : Sub 666533295419557512 s0.m) : Keeps s0 (State.modeHooks s old new) := by
  unfold State.modeHooks
  try dsimp only
  repeat' first | with_reducible assumption | with_reducible intro _ | ((with_reducible refine Sub.tr ?_ hm); exact rfl) | with_reducible apply Keeps.ite | with_reducible apply State.lpeMode_keeps | with_reducible apply State.timMode_keeps | with_reducible apply State.bankAbort_keeps | with_reducible apply State.tstRelock_keeps | with_reducible apply State.putCart_keeps | with_reducible apply State.setV00_keeps | split

theorem State.autoCheck_keeps {s0 : Orig} {s : State} (h : Keeps s0 s)  (hm : Sub 1650073010186 s0.m) : Keeps s0 (State.autoCheck s) := by
  unfold State.autoCheck
  try dsimp only
  repeat' first | with_reducible assumption | with_reducible intro _ | ((with_reducible refine Sub.tr ?_ hm); exact rfl) | with_reducible apply Keeps.ite | with_reducible apply State.cmdEndIf_keeps | with_reducible apply State.transBegin_keeps | split

theorem State.enterMode_keeps {s0 : Orig} {s : State} (h : Keeps s0 s) (m : Nat) (spare : Bool) (hm : Sub 666681729623527306 s0.m) : Keeps s0 (State.enterMode s m spare) := by
  unfold State.enterMode
  try dsimp only
  repeat' first | with_reducible assumption | with_reducible intro _ | ((with_reducible refine Sub.tr ?_ hm); exact rfl) | with_reducible apply Keeps.ite | with_reducible apply State.each_keeps | with_reducible apply State.vchMod_keeps | with_reducible apply State.setF_keeps | with_reducible apply State.entryOutputs_keeps | with_reducible apply State.modeHooks_keeps | with_reducible apply State.event_keeps | with_reducible apply State.cmdEndIf_keeps | with_reducible apply ok_keeps | with_reducible apply State.sysMod_keeps | with_reducible apply State.autoCheck_keeps | split

theorem State.limp_keeps {s0 : Orig} {s : State} (h : Keeps s0 s)  (hm : Sub 8247280143370 s0.m) : Keeps s0 (State.limp s) := by
  unfold State.limp
  try dsimp only
  repeat' first | with_reducible assumption | with_reducible intro _ | ((with_reducible refine Sub.tr ?_ hm); exact rfl) | with_reducible apply Keeps.ite | with_reducible apply State.setBit_keeps | with_reducible apply State.openCutoffs_keeps | with_reducible apply State.tstRelock_keeps | with_reducible apply State.failSome_keeps | with_reducible apply State.cmdEndIf_keeps | with_reducible apply State.transBegin_keeps | split

theorem State.declareFault_keeps {s0 : Orig} {s : State} (h : Keeps s0 s) (code src : Nat) (hm : Sub 8247280143370 s0.m) : Keeps s0 (State.declareFault s code src) := by
  unfold State.declareFault
  try dsimp only
  repeat' first | with_reducible assumption | with_reducible intro _ | ((with_reducible refine Sub.tr ?_ hm); exact rfl) | with_reducible apply Keeps.ite | with_reducible apply State.wrN_keeps | with_reducible apply State.eventSrc_keeps | with_reducible apply State.limp_keeps | split

theorem State.safetyFault_keeps {s0 : Orig} {s : State} (h : Keeps s0 s) (code src : Nat) (hm : Sub 8247280143370 s0.m) : Keeps s0 (State.safetyFault s code src) := by
  unfold State.safetyFault
  try dsimp only
  repeat' first | with_reducible assumption | with_reducible intro _ | ((with_reducible refine Sub.tr ?_ hm); exact rfl) | with_reducible apply Keeps.ite | with_reducible apply State.incF_keeps | with_reducible apply State.declareFault_keeps | split

theorem State.dormantBegin_keeps {s0 : Orig} {s : State} (h : Keeps s0 s) (auto : Bool) (hm : Sub 576468999581469706 s0.m) : Keeps s0 (State.dormantBegin s auto) := by
  unfold State.dormantBegin
  try dsimp only
  repeat' first | with_reducible assumption | with_reducible intro _ | ((with_reducible refine Sub.tr ?_ hm); exact rfl) | with_reducible apply Keeps.ite | with_reducible apply State.each_keeps | with_reducible apply State.transBegin_keeps | with_reducible apply State.setBit_keeps | with_reducible apply State.vlvAllOff_keeps | with_reducible apply State.lswForceOff_keeps | with_reducible apply State.pwrMod_keeps | with_reducible apply State.sysMod_keeps | split

theorem State.dormantFinish_keeps {s0 : Orig} {s : State} (h : Keeps s0 s) (cut : Bool) (hm : Sub 2143950849376026510 s0.m) : Keeps s0 (State.dormantFinish s cut) := by
  unfold State.dormantFinish
  try dsimp only
  repeat' first | with_reducible assumption | with_reducible intro _ | ((with_reducible refine Sub.tr ?_ hm); exact rfl) | with_reducible apply Keeps.ite | with_reducible apply State.each_keeps | with_reducible apply State.dormantStores_keeps | with_reducible apply State.safetyFault_keeps | with_reducible apply State.modeHooks_keeps | with_reducible apply State.tblStopMode_keeps | with_reducible apply State.pnlDischarge_keeps | with_reducible apply State.setF_keeps | with_reducible apply State.summary_keeps | with_reducible apply State.disarm_keeps | with_reducible apply State.pstSet_keeps | with_reducible apply State.putAon_keeps | with_reducible apply State.limp_keeps | with_reducible apply State.putTim_keeps | with_reducible apply State.openCutoffs_keeps | with_reducible apply State.supOff_keeps | with_reducible apply State.event_keeps | with_reducible apply State.cmdEndIf_keeps | with_reducible apply ok_keeps | with_reducible apply State.sysMod_keeps | with_reducible apply State.setPhase_keeps | split

theorem State.modeReq_keeps {s0 : Orig} {s : State} (h : Keeps s0 s) (m : Nat) (hm : Sub 576468999581469706 s0.m) : KeepsP s0 (State.modeReq s m) := by
  unfold State.modeReq
  try dsimp only
  repeat' first | with_reducible assumption | with_reducible intro _ | ((with_reducible refine Sub.tr ?_ hm); exact rfl) | with_reducible apply Keeps.ite | with_reducible apply KeepsR.ok | with_reducible apply KeepsR.ite | with_reducible apply KeepsP.ite | with_reducible apply refuse_keeps | with_reducible apply done_keeps | with_reducible apply ok_keeps | with_reducible apply State.dormantBegin_keeps | with_reducible apply State.transBegin_keeps | simp -zeta only [KeepsP.pair, KeepsQ.pair] | with_reducible apply KeepsP.fst | split | with_reducible refine Keeps.eqFst (by assumption) ?_ | with_reducible refine Keeps.eqNext (by assumption) ?_

theorem execModeChg_keeps {s0 : Orig} {s : State} (h : Keeps s0 s) (cut : Bool) (hm : Sub 2143950849376026510 s0.m) : KeepsR s0 (execModeChg cut s) := by
  unfold execModeChg
  try dsimp only
  repeat' first | with_reducible assumption | with_reducible intro _ | ((with_reducible refine Sub.tr ?_ hm); exact rfl) | with_reducible apply Keeps.ite | with_reducible apply KeepsR.ok | with_reducible apply KeepsR.ite | with_reducible apply ok_keeps | with_reducible apply State.dormantFinish_keeps | with_reducible apply State.enterMode_keeps | split | with_reducible refine Keeps.eqNext (by assumption) ?_

theorem execIgnFall_keeps {s0 : Orig} {s : State} (h : Keeps s0 s)  (hm : Sub 3849230485514 s0.m) : KeepsR s0 (execIgnFall s) := by
  unfold execIgnFall
  try dsimp only
  repeat' first | with_reducible assumption | with_reducible intro _ | ((with_reducible refine Sub.tr ?_ hm); exact rfl) | with_reducible apply Keeps.ite | with_reducible apply KeepsR.ok | with_reducible apply KeepsR.ite | with_reducible apply State.lightsTo_keeps | with_reducible apply ok_keeps | with_reducible apply State.sysMod_keeps | with_reducible apply State.autoCheck_keeps | split | with_reducible refine Keeps.eqNext (by assumption) ?_

theorem execSvcEnFall_keeps {s0 : Orig} {s : State} (h : Keeps s0 s)  (hm : Sub 1650073010186 s0.m) : KeepsR s0 (execSvcEnFall s) := by
  unfold execSvcEnFall
  try dsimp only
  repeat' first | with_reducible assumption | with_reducible intro _ | ((with_reducible refine Sub.tr ?_ hm); exact rfl) | with_reducible apply Keeps.ite | with_reducible apply KeepsR.ok | with_reducible apply KeepsR.ite | with_reducible apply ok_keeps | with_reducible apply State.sysMod_keeps | with_reducible apply State.autoCheck_keeps | split | with_reducible refine Keeps.eqNext (by assumption) ?_

theorem execStandstill_keeps {s0 : Orig} {s : State} (h : Keeps s0 s) (v : Bool) (hm : Sub 1099511627776 s0.m) : KeepsR s0 (execStandstill v s) := by
  unfold execStandstill
  try dsimp only
  repeat' first | with_reducible assumption | with_reducible intro _ | ((with_reducible refine Sub.tr ?_ hm); exact rfl) | with_reducible apply Keeps.ite | with_reducible apply KeepsR.ok | with_reducible apply KeepsR.ite | with_reducible apply ok_keeps | with_reducible apply State.sysMod_keeps | split | with_reducible refine Keeps.eqNext (by assumption) ?_

theorem execKeyoffTimeExpired_keeps {s0 : Orig} {s : State} (h : Keeps s0 s)  (hm : Sub 576468999581469706 s0.m) : KeepsR s0 (execKeyoffTimeExpired s) := by
  unfold execKeyoffTimeExpired
  try dsimp only
  repeat' first | with_reducible assumption | with_reducible intro _ | ((with_reducible refine Sub.tr ?_ hm); exact rfl) | with_reducible apply Keeps.ite | with_reducible apply KeepsR.ok | with_reducible apply KeepsR.ite | with_reducible apply ok_keeps | with_reducible apply State.dormantBegin_keeps | split | with_reducible refine Keeps.eqNext (by assumption) ?_

theorem State.setPin_keeps {s0 : Orig} {s : State} (h : Keeps s0 s) (p : WakePin) (v : Bool) (hm : Sub 1099511627776 s0.m) : Keeps s0 (State.setPin s p v) := by
  unfold State.setPin
  try dsimp only
  repeat' first | with_reducible assumption | with_reducible intro _ | ((with_reducible refine Sub.tr ?_ hm); exact rfl) | with_reducible apply Keeps.ite | with_reducible apply State.sysMod_keeps | split

theorem execWakeInputFall_keeps {s0 : Orig} {s : State} (h : Keeps s0 s) (p : WakePin) (hm : Sub 1650073010186 s0.m) : KeepsR s0 (execWakeInputFall p s) := by
  unfold execWakeInputFall
  try dsimp only
  repeat' first | with_reducible assumption | with_reducible intro _ | ((with_reducible refine Sub.tr ?_ hm); exact rfl) | with_reducible apply Keeps.ite | with_reducible apply KeepsR.ok | with_reducible apply KeepsR.ite | with_reducible apply ok_keeps | with_reducible apply State.setPin_keeps | with_reducible apply State.autoCheck_keeps | split | with_reducible refine Keeps.eqNext (by assumption) ?_

end Sys2Proof.Machine
end

