-- ==== Sys2Proof/Laws/KeepsPigeonholes.lean ====
section
/-! SUPPORT. The operations of Machine/Pigeonholes.lean keep the queue of commands and the canonical form, and change no part outside
their footprint. -/

set_option linter.unusedSimpArgs false
set_option linter.unusedVariables false
set_option Elab.async false

namespace Sys2Proof.Machine

theorem State.setFifo_keeps {s0 : Orig} {s : State} (h : Keeps s0 s) (t c : Nat) (l : List Dword) (hm : Sub 1073741824 s0.m := by first | assumption | exact Sub.tr rfl (by assumption)) : Keeps s0 (State.setFifo s t c l) := by
  unfold State.setFifo
  try dsimp only
  repeat' first | with_reducible assumption | with_reducible intro _ | ((with_reducible refine Sub.tr ?_ hm); exact rfl) | with_reducible apply Keeps.ite | with_reducible apply State.putFifo_keeps | split

theorem State.phDrop_keeps {s0 : Orig} {s : State} (h : Keeps s0 s) (p : Nat) (hm : Sub 550292946954 s0.m := by first | assumption | exact Sub.tr rfl (by assumption)) : Keeps s0 (State.phDrop s p) := by
  unfold State.phDrop
  try dsimp only
  repeat' first | with_reducible assumption | with_reducible intro _ | ((with_reducible refine Sub.tr ?_ hm); exact rfl) | with_reducible apply Keeps.ite | with_reducible apply State.incF_keeps | with_reducible apply State.setF_keeps | with_reducible apply State.event_keeps | split

theorem State.phTaken_keeps {s0 : Orig} {s : State} (h : Keeps s0 s) (p : Nat) (hm : Sub 536870920 s0.m := by first | assumption | exact Sub.tr rfl (by assumption)) : Keeps s0 (State.phTaken s p) := by
  unfold State.phTaken
  try dsimp only
  repeat' first | with_reducible assumption | with_reducible intro _ | ((with_reducible refine Sub.tr ?_ hm); exact rfl) | with_reducible apply Keeps.ite | with_reducible apply State.setPend_keeps | with_reducible apply State.putPgh_keeps | split

theorem State.phOffer_keeps {s0 : Orig} {s t : State} (h : Keeps s0 s) (ts : List Nat) (p time count : Nat)
    (e : State.phOffer s ts p time count = .sent t) (hm : Sub 551366688778 s0.m := by first | assumption | exact Sub.tr rfl (by assumption)) : Keeps s0 t := by
  unfold State.phOffer at e
  split at e
  · cases e
  · split at e
    · cases e
      exact State.each_keeps (fun _ _ k => State.setFifo_keeps k _ _ _) h _
    · cases e

theorem State.phDeliverRoute_keeps {s0 : Orig} {s : State} (h : Keeps s0 s) (p : Nat) (hm : Sub 551366688778 s0.m := by first | assumption | exact Sub.tr rfl (by assumption)) : Keeps s0 (State.phDeliverRoute s p) := by
  unfold State.phDeliverRoute
  dsimp only
  split
  · split
    · exact h
    · split
      · exact State.phTaken_keeps (State.phOffer_keeps h _ _ _ _ (by assumption)) p
      · exact h
      · exact State.phDrop_keeps (State.phTaken_keeps h p) p
  · exact h

theorem State.phDeliverCopy_keeps {s0 : Orig} {s : State} (h : Keeps s0 s) (p : Nat) (hm : Sub 551366688778 s0.m := by first | assumption | exact Sub.tr rfl (by assumption)) : Keeps s0 (State.phDeliverCopy s p) := by
  have k : ∀ x : State, Keeps s0 x → Keeps s0 (x.putPgh { x.pgh with
      copyAcc := x.pgh.copyAcc.set 0 p 0, copyFirst := x.pgh.copyFirst.set 0 p 0 }) := fun x h => State.putPgh_keeps h _
  unfold State.phDeliverCopy
  dsimp only
  split
  · exact h
  · split
    · next e => exact k _ (State.phOffer_keeps h _ _ _ _ e)
    · exact h
    · exact State.phDrop_keeps (k _ h) p

theorem State.phDeliver_keeps {s0 : Orig} {s : State} (h : Keeps s0 s) (p : Nat) (hm : Sub 551366688778 s0.m) : Keeps s0 (State.phDeliver s p) := by
  unfold State.phDeliver
  try dsimp only
  repeat' first | with_reducible assumption | with_reducible intro _ | ((with_reducible refine Sub.tr ?_ hm); exact rfl) | with_reducible apply Keeps.ite | with_reducible apply State.phDeliverRoute_keeps | with_reducible apply State.phDeliverCopy_keeps | split

theorem execPigeonholeWordDelivery_keeps {s0 : Orig} {s : State} (h : Keeps s0 s) (p : Fin 256) (hm : Sub 551366688778 s0.m) : KeepsR s0 (execPigeonholeWordDelivery p s) := by
  unfold execPigeonholeWordDelivery
  try dsimp only
  repeat' first | with_reducible assumption | with_reducible intro _ | ((with_reducible refine Sub.tr ?_ hm); exact rfl) | with_reducible apply Keeps.ite | with_reducible apply KeepsR.ok | with_reducible apply KeepsR.ite | with_reducible apply ok_keeps | with_reducible apply State.phDeliver_keeps | split | with_reducible refine Keeps.eqNext (by assumption) ?_

theorem State.claim_keeps {s0 : Orig} {s : State} (h : Keeps s0 s) (c : Nat) (m : Bool) (hm : Sub 536870920 s0.m := by first | assumption | exact Sub.tr rfl (by assumption)) : KeepsQ s0 (State.claim s c m) := by
  unfold State.claim
  try dsimp only
  repeat' first | with_reducible assumption | with_reducible intro _ | ((with_reducible refine Sub.tr ?_ hm); exact rfl) | with_reducible apply Keeps.ite | with_reducible apply KeepsQ.ite | with_reducible apply State.phTaken_keeps | simp -zeta only [KeepsP.pair, KeepsQ.pair] | with_reducible apply KeepsQ.snd | split | with_reducible refine Keeps.eqSnd (by assumption) ?_

theorem execPghClaim_keeps {s0 : Orig} {s : State} (h : Keeps s0 s) (c : Fin 8) (m : Bool) (hm : Sub 553648136 s0.m) : KeepsR s0 (execPghClaim c m s) := by
  unfold execPghClaim
  try dsimp only
  repeat' first | with_reducible assumption | with_reducible intro _ | ((with_reducible refine Sub.tr ?_ hm); exact rfl) | with_reducible apply Keeps.ite | with_reducible apply KeepsR.ok | with_reducible apply KeepsR.ite | with_reducible apply KeepsQ.ite | with_reducible apply State.claim_keeps | with_reducible apply ok_keeps | with_reducible apply State.putResp_keeps | simp -zeta only [KeepsP.pair, KeepsQ.pair] | with_reducible apply KeepsQ.snd | split | with_reducible refine Keeps.eqSnd (by assumption) ?_ | with_reducible refine Keeps.eqNext (by assumption) ?_

theorem State.softRaise_keeps {s0 : Orig} {s : State} (h : Keeps s0 s) (p : Nat) (hm : Sub 550292946952 s0.m) : Keeps s0 (State.softRaise s p) := by
  unfold State.softRaise
  try dsimp only
  repeat' first | with_reducible assumption | with_reducible intro _ | ((with_reducible refine Sub.tr ?_ hm); exact rfl) | with_reducible apply Keeps.ite | with_reducible apply State.phRaise_keeps | split

theorem State.pghRaise_keeps {s0 : Orig} {s : State} (h : Keeps s0 s) (i : Nat) (v : Word) (hm : Sub 550292946952 s0.m) : Keeps s0 (State.pghRaise s i v) := by
  unfold State.pghRaise
  try dsimp only
  repeat' first | with_reducible assumption | with_reducible intro _ | ((with_reducible refine Sub.tr ?_ hm); exact rfl) | with_reducible apply Keeps.ite | with_reducible apply State.each_keeps | with_reducible apply State.softRaise_keeps | split

theorem execPghRaise_keeps {s0 : Orig} {s : State} (h : Keeps s0 s) (i : Fin 8) (v : Word) (hm : Sub 550292946952 s0.m) : KeepsR s0 (execPghRaise i v s) := by
  unfold execPghRaise
  try dsimp only
  repeat' first | with_reducible assumption | with_reducible intro _ | ((with_reducible refine Sub.tr ?_ hm); exact rfl) | with_reducible apply Keeps.ite | with_reducible apply KeepsR.ok | with_reducible apply KeepsR.ite | with_reducible apply ok_keeps | with_reducible apply State.pghRaise_keeps | split | with_reducible refine Keeps.eqNext (by assumption) ?_

theorem State.pghClear_keeps {s0 : Orig} {s : State} (h : Keeps s0 s) (v : Word) (hm : Sub 8 s0.m) : Keeps s0 (State.pghClear s v) := by
  unfold State.pghClear
  try dsimp only
  repeat' first | with_reducible assumption | with_reducible intro _ | ((with_reducible refine Sub.tr ?_ hm); exact rfl) | with_reducible apply Keeps.ite | with_reducible apply State.each_keeps | with_reducible apply State.wr_keeps | split

theorem execPghClear_keeps {s0 : Orig} {s : State} (h : Keeps s0 s) (v : Word) (hm : Sub 8 s0.m) : KeepsR s0 (execPghClear v s) := by
  unfold execPghClear
  try dsimp only
  repeat' first | with_reducible assumption | with_reducible intro _ | ((with_reducible refine Sub.tr ?_ hm); exact rfl) | with_reducible apply Keeps.ite | with_reducible apply KeepsR.ok | with_reducible apply KeepsR.ite | with_reducible apply ok_keeps | with_reducible apply State.pghClear_keeps | split | with_reducible refine Keeps.eqNext (by assumption) ?_

theorem State.pghRoute_keeps {s0 : Orig} {s : State} (h : Keeps s0 s) (p : Nat) (v : Word) (hm : Sub 8 s0.m) : Keeps s0 (State.pghRoute s p v) := by
  unfold State.pghRoute
  try dsimp only
  repeat' first | with_reducible assumption | with_reducible intro _ | ((with_reducible refine Sub.tr ?_ hm); exact rfl) | with_reducible apply Keeps.ite | with_reducible apply State.wr_keeps | split

theorem execPghRouteWrite_keeps {s0 : Orig} {s : State} (h : Keeps s0 s) (p : Fin 256) (v : Word) (hm : Sub 8 s0.m) : KeepsR s0 (execPghRouteWrite p v s) := by
  unfold execPghRouteWrite
  try dsimp only
  repeat' first | with_reducible assumption | with_reducible intro _ | ((with_reducible refine Sub.tr ?_ hm); exact rfl) | with_reducible apply Keeps.ite | with_reducible apply KeepsR.ok | with_reducible apply KeepsR.ite | with_reducible apply ok_keeps | with_reducible apply State.pghRoute_keeps | split | with_reducible refine Keeps.eqNext (by assumption) ?_

end Sys2Proof.Machine
end

