-- ==== Sys2Proof/Laws/KeepsMyivire.lean ====
section
/-! SUPPORT. The operations of Machine/Myivire.lean keep the queue of commands and the canonical form, and change no part outside
their footprint. -/

set_option linter.unusedSimpArgs false
set_option linter.unusedVariables false
set_option Elab.async false

namespace Sys2Proof.Machine

theorem State.setCpu_keeps {s0 : Orig} {s : State} (h : Keeps s0 s) (a : Agent) (c : Cpu) (hm : Sub 2147483648 s0.m) : Keeps s0 (State.setCpu s a c) := by
  unfold State.setCpu
  try dsimp only
  repeat' first | with_reducible assumption | with_reducible intro _ | ((with_reducible refine Sub.tr ?_ hm); exact rfl) | with_reducible apply Keeps.ite | with_reducible apply State.putCpus_keeps | split

theorem State.setG_keeps {s0 : Orig} {s : State} (h : Keeps s0 s) (a : Agent) (r : Nat) (v : Dword) (hm : Sub 2147483648 s0.m := by first | assumption | exact Sub.tr rfl (by assumption)) : Keeps s0 (State.setG s a r v) := by
  unfold State.setG
  try dsimp only
  repeat' first | with_reducible assumption | with_reducible intro _ | ((with_reducible refine Sub.tr ?_ hm); exact rfl) | with_reducible apply Keeps.ite | with_reducible apply State.setCpu_keeps | split

theorem State.setFr_keeps {s0 : Orig} {s : State} (h : Keeps s0 s) (a : Agent) (r : Nat) (v : Dword) (hm : Sub 2147483648 s0.m) : Keeps s0 (State.setFr s a r v) := by
  unfold State.setFr
  try dsimp only
  repeat' first | with_reducible assumption | with_reducible intro _ | ((with_reducible refine Sub.tr ?_ hm); exact rfl) | with_reducible apply Keeps.ite | with_reducible apply State.setCpu_keeps | split

theorem State.setPc_keeps {s0 : Orig} {s : State} (h : Keeps s0 s) (a : Agent) (v : Dword) (hm : Sub 2147483648 s0.m) : Keeps s0 (State.setPc s a v) := by
  unfold State.setPc
  try dsimp only
  repeat' first | with_reducible assumption | with_reducible intro _ | ((with_reducible refine Sub.tr ?_ hm); exact rfl) | with_reducible apply Keeps.ite | with_reducible apply State.setCpu_keeps | split

theorem State.setBlocked_keeps {s0 : Orig} {s : State} (h : Keeps s0 s) (a : Agent) (b : Blocked) (hm : Sub 2147483648 s0.m := by first | assumption | exact Sub.tr rfl (by assumption)) : Keeps s0 (State.setBlocked s a b) := by
  unfold State.setBlocked
  try dsimp only
  repeat' first | with_reducible assumption | with_reducible intro _ | ((with_reducible refine Sub.tr ?_ hm); exact rfl) | with_reducible apply Keeps.ite | with_reducible apply State.setCpu_keeps | split

theorem State.setSysRaw_keeps {s0 : Orig} {s : State} (h : Keeps s0 s) (a : Agent) (n : Nat) (v : Dword) (hm : Sub 1101659111424 s0.m) : Keeps s0 (State.setSysRaw s a n v) := by
  unfold State.setSysRaw
  try dsimp only
  repeat' first | with_reducible assumption | with_reducible intro _ | ((with_reducible refine Sub.tr ?_ hm); exact rfl) | with_reducible apply Keeps.ite | with_reducible apply State.setCpu_keeps | with_reducible apply Keeps.set_sys | split

theorem State.nowOf_keeps {s0 : Orig} {s : State} (h : Keeps s0 s) (a : Agent) (least : Nat) (hm : Sub 2281701376 s0.m := by first | assumption | exact Sub.tr rfl (by assumption)) : KeepsQ s0 (State.nowOf s a least) := by
  unfold State.nowOf
  try dsimp only
  repeat' first | with_reducible assumption | with_reducible intro _ | ((with_reducible refine Sub.tr ?_ hm); exact rfl) | with_reducible apply Keeps.ite | with_reducible apply KeepsQ.ite | with_reducible apply State.drawn_keeps | with_reducible apply State.setCpu_keeps | simp -zeta only [KeepsP.pair, KeepsQ.pair] | with_reducible apply KeepsQ.snd | split | with_reducible refine Keeps.eqSnd (by assumption) ?_

theorem State.sysRead_keeps {s0 : Orig} {s : State} (h : Keeps s0 s) (a : Agent) (n : Nat) (hm : Sub 2281701376 s0.m) : KeepsQ s0 (State.sysRead s a n) := by
  unfold State.sysRead
  try dsimp only
  repeat' first | with_reducible assumption | with_reducible intro _ | ((with_reducible refine Sub.tr ?_ hm); exact rfl) | with_reducible apply Keeps.ite | with_reducible apply KeepsQ.ite | with_reducible apply State.nowOf_keeps | simp -zeta only [KeepsP.pair, KeepsQ.pair] | with_reducible apply KeepsQ.snd | split | with_reducible refine Keeps.eqSnd (by assumption) ?_

theorem State.sysWrite_keeps {s0 : Orig} {s : State} (h : Keeps s0 s) (a : Agent) (n : Nat) (v : Dword) (hm : Sub 1101659111424 s0.m) : Keeps s0 (State.sysWrite s a n v) := by
  unfold State.sysWrite
  try dsimp only
  repeat' first | with_reducible assumption | with_reducible intro _ | ((with_reducible refine Sub.tr ?_ hm); exact rfl) | with_reducible apply Keeps.ite | with_reducible apply State.setSysRaw_keeps | split

theorem State.tileHalt_keeps {s0 : Orig} {s : State} (h : Keeps s0 s) (t cause : Nat) (hm : Sub 550292946954 s0.m) : Keeps s0 (State.tileHalt s t cause) := by
  unfold State.tileHalt
  try dsimp only
  repeat' first | with_reducible assumption | with_reducible intro _ | ((with_reducible refine Sub.tr ?_ hm); exact rfl) | with_reducible apply Keeps.ite | with_reducible apply State.incF_keeps | with_reducible apply State.setF_keeps | with_reducible apply State.event_keeps | split

theorem State.takeTrap_keeps {s0 : Orig} {s : State} (h : Keeps s0 s) (a : Agent) (event : Bool) (cause : Nat) (info : Dword) (hm : Sub 1651952058378 s0.m) : Keeps s0 (State.takeTrap s a event cause info) := by
  unfold State.takeTrap
  try dsimp only
  repeat' first | with_reducible assumption | with_reducible intro _ | ((with_reducible refine Sub.tr ?_ hm); exact rfl) | with_reducible apply Keeps.ite | with_reducible apply State.setBlocked_keeps | with_reducible apply State.event_keeps | with_reducible apply State.setSysRaw_keeps | with_reducible apply State.setCpu_keeps | with_reducible apply State.tileHalt_keeps | split

theorem State.trapReturn_keeps {s0 : Orig} {s : State} (h : Keeps s0 s) (a : Agent) (hm : Sub 1101659111424 s0.m) : Keeps s0 (State.trapReturn s a) := by
  unfold State.trapReturn
  try dsimp only
  repeat' first | with_reducible assumption | with_reducible intro _ | ((with_reducible refine Sub.tr ?_ hm); exact rfl) | with_reducible apply Keeps.ite | with_reducible apply State.setSysRaw_keeps | with_reducible apply State.setCpu_keeps | split

theorem State.illegal_keeps {s0 : Orig} {s : State} (h : Keeps s0 s) (a : Agent) (op : Nat) (w : BitVec 26) (hm : Sub 1651952058378 s0.m := by first | assumption | exact Sub.tr rfl (by assumption)) : Keeps s0 (State.illegal s a op w) := by
  unfold State.illegal
  try dsimp only
  repeat' first | with_reducible assumption | with_reducible intro _ | ((with_reducible refine Sub.tr ?_ hm); exact rfl) | with_reducible apply Keeps.ite | with_reducible apply State.takeTrap_keeps | split

theorem State.retire_keeps {s0 : Orig} {s : State} (h : Keeps s0 s) (a : Agent) (pc : Dword) (hm : Sub 1101659111424 s0.m) : Keeps s0 (State.retire s a pc) := by
  unfold State.retire
  try dsimp only
  repeat' first | with_reducible assumption | with_reducible intro _ | ((with_reducible refine Sub.tr ?_ hm); exact rfl) | with_reducible apply Keeps.ite | with_reducible apply State.setSysRaw_keeps | with_reducible apply State.setPc_keeps | split

theorem State.next_keeps {s0 : Orig} {s : State} (h : Keeps s0 s) (a : Agent) (hm : Sub 1101659111424 s0.m := by first | assumption | exact Sub.tr rfl (by assumption)) : Keeps s0 (State.next s a) := by
  unfold State.next
  try dsimp only
  repeat' first | with_reducible assumption | with_reducible intro _ | ((with_reducible refine Sub.tr ?_ hm); exact rfl) | with_reducible apply Keeps.ite | with_reducible apply State.retire_keeps | split

theorem State.takeEvent_keeps {s0 : Orig} {s : State} (h : Keeps s0 s) (c : Fin 8) (hm : Sub 1651952058378 s0.m) : Keeps s0 (State.takeEvent s c) := by
  unfold State.takeEvent
  try dsimp only
  repeat' first | with_reducible assumption | with_reducible intro _ | ((with_reducible refine Sub.tr ?_ hm); exact rfl) | with_reducible apply Keeps.ite | with_reducible apply State.setF_keeps | with_reducible apply State.takeTrap_keeps | split

theorem State.translate_keeps {s0 : Orig} {s : State} (h : Keeps s0 s) (a : Agent) (k : Acc) (va : Nat) (hm : Sub 4294967296 s0.m) : KeepsQ s0 (State.translate s a k va) := by
  unfold State.translate
  try dsimp only
  repeat' first | with_reducible assumption | with_reducible intro _ | ((with_reducible refine Sub.tr ?_ hm); exact rfl) | with_reducible apply Keeps.ite | with_reducible apply KeepsQ.ite | with_reducible apply ok_keeps | with_reducible apply State.putTlb_keeps | simp -zeta only [KeepsP.pair, KeepsQ.pair] | with_reducible apply KeepsQ.snd | split | with_reducible refine Keeps.eqSnd (by assumption) ?_

theorem State.drainStores_keeps {s0 : Orig} {s : State} (h : Keeps s0 s) (a : Agent) (hm : Sub 214756753666 s0.m := by first | assumption | exact Sub.tr rfl (by assumption)) : Keeps s0 (State.drainStores s a) := by
  unfold State.drainStores
  try dsimp only
  repeat' first | with_reducible assumption | with_reducible intro _ | ((with_reducible refine Sub.tr ?_ hm); exact rfl) | with_reducible apply Keeps.ite | with_reducible apply State.each_keeps | with_reducible apply State.progStore_keeps | with_reducible apply State.putSbuf_keeps | split

theorem State.fetch_keeps {s0 : Orig} {s : State} (h : Keeps s0 s) (a : Agent) (hm : Sub 4294967296 s0.m) : KeepsQ s0 (State.fetch s a) := by
  unfold State.fetch
  try dsimp only
  repeat' first | with_reducible assumption | with_reducible intro _ | ((with_reducible refine Sub.tr ?_ hm); exact rfl) | with_reducible apply Keeps.ite | with_reducible apply KeepsQ.ite | with_reducible apply State.translate_keeps | with_reducible apply ok_keeps | simp -zeta only [KeepsP.pair, KeepsQ.pair] | with_reducible apply KeepsQ.snd | split | with_reducible refine Keeps.eqSnd (by assumption) ?_

theorem State.issue_keeps {s0 : Orig} {s : State} (h : Keeps s0 s) (a : Agent) (body : State → State) (hbody : ∀ x0, Keeps s0 x0 → Keeps s0 (body x0)) (hm : Sub 1656247025674 s0.m) : Keeps s0 (State.issue s a body) := by
  unfold State.issue
  try dsimp only
  repeat' first | with_reducible assumption | with_reducible intro _ | ((with_reducible refine Sub.tr ?_ hm); exact rfl) | with_reducible apply hbody | with_reducible apply Keeps.ite | with_reducible apply KeepsQ.ite | with_reducible apply State.takeEvent_keeps | with_reducible apply State.fetch_keeps | with_reducible apply State.takeTrap_keeps | simp -zeta only [KeepsP.pair, KeepsQ.pair] | with_reducible apply KeepsQ.snd | split | with_reducible refine Keeps.eqSnd (by assumption) ?_

theorem State.putG_keeps {s0 : Orig} {s : State} (h : Keeps s0 s) (a : Agent) (op : Nat) (w : BitVec 26) (v : Option Dword) (hm : Sub 1651952058378 s0.m) : Keeps s0 (State.putG s a op w v) := by
  unfold State.putG
  try dsimp only
  repeat' first | with_reducible assumption | with_reducible intro _ | ((with_reducible refine Sub.tr ?_ hm); exact rfl) | with_reducible apply Keeps.ite | with_reducible apply State.setG_keeps | with_reducible apply State.next_keeps | with_reducible apply State.illegal_keeps | split

theorem execOpReg_keeps {s0 : Orig} {s : State} (h : Keeps s0 s) (a : Agent) (word : Word) (hm : Sub 1656247025674 s0.m) : KeepsR s0 (execOpReg a word s) := by
  unfold execOpReg
  try dsimp only
  repeat' first | with_reducible assumption | with_reducible intro _ | ((with_reducible refine Sub.tr ?_ hm); exact rfl) | with_reducible apply Keeps.ite | with_reducible apply KeepsR.ok | with_reducible apply KeepsR.ite | with_reducible apply ok_keeps | with_reducible apply State.issue_keeps | with_reducible apply State.putG_keeps | with_reducible apply State.illegal_keeps | split | with_reducible refine Keeps.eqNext (by assumption) ?_

theorem execMuldiv_keeps {s0 : Orig} {s : State} (h : Keeps s0 s) (a : Agent) (w : BitVec 26) (hm : Sub 1656247025674 s0.m) : KeepsR s0 (execMuldiv a w s) := by
  unfold execMuldiv
  try dsimp only
  repeat' first | with_reducible assumption | with_reducible intro _ | ((with_reducible refine Sub.tr ?_ hm); exact rfl) | with_reducible apply Keeps.ite | with_reducible apply KeepsR.ok | with_reducible apply KeepsR.ite | with_reducible apply ok_keeps | with_reducible apply State.issue_keeps | with_reducible apply State.putG_keeps | split | with_reducible refine Keeps.eqNext (by assumption) ?_

theorem execAddi_keeps {s0 : Orig} {s : State} (h : Keeps s0 s) (a : Agent) (w : BitVec 26) (hm : Sub 1656247025674 s0.m) : KeepsR s0 (execAddi a w s) := by
  unfold execAddi
  try dsimp only
  repeat' first | with_reducible assumption | with_reducible intro _ | ((with_reducible refine Sub.tr ?_ hm); exact rfl) | with_reducible apply Keeps.ite | with_reducible apply KeepsR.ok | with_reducible apply KeepsR.ite | with_reducible apply ok_keeps | with_reducible apply State.issue_keeps | with_reducible apply State.putG_keeps | split | with_reducible refine Keeps.eqNext (by assumption) ?_

theorem execAndi_keeps {s0 : Orig} {s : State} (h : Keeps s0 s) (a : Agent) (w : BitVec 26) (hm : Sub 1656247025674 s0.m) : KeepsR s0 (execAndi a w s) := by
  unfold execAndi
  try dsimp only
  repeat' first | with_reducible assumption | with_reducible intro _ | ((with_reducible refine Sub.tr ?_ hm); exact rfl) | with_reducible apply Keeps.ite | with_reducible apply KeepsR.ok | with_reducible apply KeepsR.ite | with_reducible apply ok_keeps | with_reducible apply State.issue_keeps | with_reducible apply State.putG_keeps | split | with_reducible refine Keeps.eqNext (by assumption) ?_

theorem execOri_keeps {s0 : Orig} {s : State} (h : Keeps s0 s) (a : Agent) (w : BitVec 26) (hm : Sub 1656247025674 s0.m) : KeepsR s0 (execOri a w s) := by
  unfold execOri
  try dsimp only
  repeat' first | with_reducible assumption | with_reducible intro _ | ((with_reducible refine Sub.tr ?_ hm); exact rfl) | with_reducible apply Keeps.ite | with_reducible apply KeepsR.ok | with_reducible apply KeepsR.ite | with_reducible apply ok_keeps | with_reducible apply State.issue_keeps | with_reducible apply State.putG_keeps | split | with_reducible refine Keeps.eqNext (by assumption) ?_

theorem execXori_keeps {s0 : Orig} {s : State} (h : Keeps s0 s) (a : Agent) (w : BitVec 26) (hm : Sub 1656247025674 s0.m) : KeepsR s0 (execXori a w s) := by
  unfold execXori
  try dsimp only
  repeat' first | with_reducible assumption | with_reducible intro _ | ((with_reducible refine Sub.tr ?_ hm); exact rfl) | with_reducible apply Keeps.ite | with_reducible apply KeepsR.ok | with_reducible apply KeepsR.ite | with_reducible apply ok_keeps | with_reducible apply State.issue_keeps | with_reducible apply State.putG_keeps | split | with_reducible refine Keeps.eqNext (by assumption) ?_

theorem execSetlti_keeps {s0 : Orig} {s : State} (h : Keeps s0 s) (a : Agent) (w : BitVec 26) (hm : Sub 1656247025674 s0.m) : KeepsR s0 (execSetlti a w s) := by
  unfold execSetlti
  try dsimp only
  repeat' first | with_reducible assumption | with_reducible intro _ | ((with_reducible refine Sub.tr ?_ hm); exact rfl) | with_reducible apply Keeps.ite | with_reducible apply KeepsR.ok | with_reducible apply KeepsR.ite | with_reducible apply ok_keeps | with_reducible apply State.issue_keeps | with_reducible apply State.putG_keeps | split | with_reducible refine Keeps.eqNext (by assumption) ?_

theorem execSetltui_keeps {s0 : Orig} {s : State} (h : Keeps s0 s) (a : Agent) (w : BitVec 26) (hm : Sub 1656247025674 s0.m) : KeepsR s0 (execSetltui a w s) := by
  unfold execSetltui
  try dsimp only
  repeat' first | with_reducible assumption | with_reducible intro _ | ((with_reducible refine Sub.tr ?_ hm); exact rfl) | with_reducible apply Keeps.ite | with_reducible apply KeepsR.ok | with_reducible apply KeepsR.ite | with_reducible apply ok_keeps | with_reducible apply State.issue_keeps | with_reducible apply State.putG_keeps | split | with_reducible refine Keeps.eqNext (by assumption) ?_

theorem execShifti_keeps {s0 : Orig} {s : State} (h : Keeps s0 s) (a : Agent) (w : BitVec 26) (hm : Sub 1656247025674 s0.m) : KeepsR s0 (execShifti a w s) := by
  unfold execShifti
  try dsimp only
  repeat' first | with_reducible assumption | with_reducible intro _ | ((with_reducible refine Sub.tr ?_ hm); exact rfl) | with_reducible apply Keeps.ite | with_reducible apply KeepsR.ok | with_reducible apply KeepsR.ite | with_reducible apply ok_keeps | with_reducible apply State.issue_keeps | with_reducible apply State.putG_keeps | split | with_reducible refine Keeps.eqNext (by assumption) ?_

theorem execAddhi_keeps {s0 : Orig} {s : State} (h : Keeps s0 s) (a : Agent) (w : BitVec 26) (hm : Sub 1656247025674 s0.m) : KeepsR s0 (execAddhi a w s) := by
  unfold execAddhi
  try dsimp only
  repeat' first | with_reducible assumption | with_reducible intro _ | ((with_reducible refine Sub.tr ?_ hm); exact rfl) | with_reducible apply Keeps.ite | with_reducible apply KeepsR.ok | with_reducible apply KeepsR.ite | with_reducible apply ok_keeps | with_reducible apply State.issue_keeps | with_reducible apply State.putG_keeps | split | with_reducible refine Keeps.eqNext (by assumption) ?_

theorem execAddxi_keeps {s0 : Orig} {s : State} (h : Keeps s0 s) (a : Agent) (w : BitVec 26) (hm : Sub 1656247025674 s0.m) : KeepsR s0 (execAddxi a w s) := by
  unfold execAddxi
  try dsimp only
  repeat' first | with_reducible assumption | with_reducible intro _ | ((with_reducible refine Sub.tr ?_ hm); exact rfl) | with_reducible apply Keeps.ite | with_reducible apply KeepsR.ok | with_reducible apply KeepsR.ite | with_reducible apply ok_keeps | with_reducible apply State.issue_keeps | with_reducible apply State.putG_keeps | split | with_reducible refine Keeps.eqNext (by assumption) ?_

theorem execAddpc_keeps {s0 : Orig} {s : State} (h : Keeps s0 s) (a : Agent) (w : BitVec 26) (hm : Sub 1656247025674 s0.m) : KeepsR s0 (execAddpc a w s) := by
  unfold execAddpc
  try dsimp only
  repeat' first | with_reducible assumption | with_reducible intro _ | ((with_reducible refine Sub.tr ?_ hm); exact rfl) | with_reducible apply Keeps.ite | with_reducible apply KeepsR.ok | with_reducible apply KeepsR.ite | with_reducible apply ok_keeps | with_reducible apply State.issue_keeps | with_reducible apply State.putG_keeps | split | with_reducible refine Keeps.eqNext (by assumption) ?_

theorem State.branch_keeps {s0 : Orig} {s : State} (h : Keeps s0 s) (a : Agent) (w : BitVec 26) (c : Dword → Dword → Bool) (hm : Sub 1656247025674 s0.m) : Keeps s0 (State.branch s a w c) := by
  unfold State.branch
  try dsimp only
  repeat' first | with_reducible assumption | with_reducible intro _ | ((with_reducible refine Sub.tr ?_ hm); exact rfl) | with_reducible apply Keeps.ite | with_reducible apply State.issue_keeps | with_reducible apply State.retire_keeps | with_reducible apply State.next_keeps | split

theorem execBeq_keeps {s0 : Orig} {s : State} (h : Keeps s0 s) (a : Agent) (w : BitVec 26) (hm : Sub 1656247025674 s0.m) : KeepsR s0 (execBeq a w s) := by
  unfold execBeq
  try dsimp only
  repeat' first | with_reducible assumption | with_reducible intro _ | ((with_reducible refine Sub.tr ?_ hm); exact rfl) | with_reducible apply Keeps.ite | with_reducible apply KeepsR.ok | with_reducible apply KeepsR.ite | with_reducible apply ok_keeps | with_reducible apply State.branch_keeps | split | with_reducible refine Keeps.eqNext (by assumption) ?_

theorem execBne_keeps {s0 : Orig} {s : State} (h : Keeps s0 s) (a : Agent) (w : BitVec 26) (hm : Sub 1656247025674 s0.m) : KeepsR s0 (execBne a w s) := by
  unfold execBne
  try dsimp only
  repeat' first | with_reducible assumption | with_reducible intro _ | ((with_reducible refine Sub.tr ?_ hm); exact rfl) | with_reducible apply Keeps.ite | with_reducible apply KeepsR.ok | with_reducible apply KeepsR.ite | with_reducible apply ok_keeps | with_reducible apply State.branch_keeps | split | with_reducible refine Keeps.eqNext (by assumption) ?_

theorem execBlt_keeps {s0 : Orig} {s : State} (h : Keeps s0 s) (a : Agent) (w : BitVec 26) (hm : Sub 1656247025674 s0.m) : KeepsR s0 (execBlt a w s) := by
  unfold execBlt
  try dsimp only
  repeat' first | with_reducible assumption | with_reducible intro _ | ((with_reducible refine Sub.tr ?_ hm); exact rfl) | with_reducible apply Keeps.ite | with_reducible apply KeepsR.ok | with_reducible apply KeepsR.ite | with_reducible apply ok_keeps | with_reducible apply State.branch_keeps | split | with_reducible refine Keeps.eqNext (by assumption) ?_

theorem execBge_keeps {s0 : Orig} {s : State} (h : Keeps s0 s) (a : Agent) (w : BitVec 26) (hm : Sub 1656247025674 s0.m) : KeepsR s0 (execBge a w s) := by
  unfold execBge
  try dsimp only
  repeat' first | with_reducible assumption | with_reducible intro _ | ((with_reducible refine Sub.tr ?_ hm); exact rfl) | with_reducible apply Keeps.ite | with_reducible apply KeepsR.ok | with_reducible apply KeepsR.ite | with_reducible apply ok_keeps | with_reducible apply State.branch_keeps | split | with_reducible refine Keeps.eqNext (by assumption) ?_

theorem execBltu_keeps {s0 : Orig} {s : State} (h : Keeps s0 s) (a : Agent) (w : BitVec 26) (hm : Sub 1656247025674 s0.m) : KeepsR s0 (execBltu a w s) := by
  unfold execBltu
  try dsimp only
  repeat' first | with_reducible assumption | with_reducible intro _ | ((with_reducible refine Sub.tr ?_ hm); exact rfl) | with_reducible apply Keeps.ite | with_reducible apply KeepsR.ok | with_reducible apply KeepsR.ite | with_reducible apply ok_keeps | with_reducible apply State.branch_keeps | split | with_reducible refine Keeps.eqNext (by assumption) ?_

theorem execBgeu_keeps {s0 : Orig} {s : State} (h : Keeps s0 s) (a : Agent) (w : BitVec 26) (hm : Sub 1656247025674 s0.m) : KeepsR s0 (execBgeu a w s) := by
  unfold execBgeu
  try dsimp only
  repeat' first | with_reducible assumption | with_reducible intro _ | ((with_reducible refine Sub.tr ?_ hm); exact rfl) | with_reducible apply Keeps.ite | with_reducible apply KeepsR.ok | with_reducible apply KeepsR.ite | with_reducible apply ok_keeps | with_reducible apply State.branch_keeps | split | with_reducible refine Keeps.eqNext (by assumption) ?_

theorem execJmp_keeps {s0 : Orig} {s : State} (h : Keeps s0 s) (a : Agent) (w : BitVec 26) (hm : Sub 1656247025674 s0.m) : KeepsR s0 (execJmp a w s) := by
  unfold execJmp
  try dsimp only
  repeat' first | with_reducible assumption | with_reducible intro _ | ((with_reducible refine Sub.tr ?_ hm); exact rfl) | with_reducible apply Keeps.ite | with_reducible apply KeepsR.ok | with_reducible apply KeepsR.ite | with_reducible apply ok_keeps | with_reducible apply State.issue_keeps | with_reducible apply State.retire_keeps | split | with_reducible refine Keeps.eqNext (by assumption) ?_

theorem execCall_keeps {s0 : Orig} {s : State} (h : Keeps s0 s) (a : Agent) (w : BitVec 26) (hm : Sub 1656247025674 s0.m) : KeepsR s0 (execCall a w s) := by
  unfold execCall
  try dsimp only
  repeat' first | with_reducible assumption | with_reducible intro _ | ((with_reducible refine Sub.tr ?_ hm); exact rfl) | with_reducible apply Keeps.ite | with_reducible apply KeepsR.ok | with_reducible apply KeepsR.ite | with_reducible apply ok_keeps | with_reducible apply State.issue_keeps | with_reducible apply State.setG_keeps | with_reducible apply State.retire_keeps | split | with_reducible refine Keeps.eqNext (by assumption) ?_

theorem execJreg_keeps {s0 : Orig} {s : State} (h : Keeps s0 s) (a : Agent) (w : BitVec 26) (hm : Sub 1656247025674 s0.m) : KeepsR s0 (execJreg a w s) := by
  unfold execJreg
  try dsimp only
  repeat' first | with_reducible assumption | with_reducible intro _ | ((with_reducible refine Sub.tr ?_ hm); exact rfl) | with_reducible apply Keeps.ite | with_reducible apply KeepsR.ok | with_reducible apply KeepsR.ite | with_reducible apply ok_keeps | with_reducible apply State.issue_keeps | with_reducible apply State.takeTrap_keeps | with_reducible apply State.setG_keeps | with_reducible apply State.retire_keeps | split | with_reducible refine Keeps.eqNext (by assumption) ?_

theorem execSyscall_keeps {s0 : Orig} {s : State} (h : Keeps s0 s) (a : Agent) (w : BitVec 26) (hm : Sub 1656247025674 s0.m) : KeepsR s0 (execSyscall a w s) := by
  unfold execSyscall
  try dsimp only
  repeat' first | with_reducible assumption | with_reducible intro _ | ((with_reducible refine Sub.tr ?_ hm); exact rfl) | with_reducible apply Keeps.ite | with_reducible apply KeepsR.ok | with_reducible apply KeepsR.ite | with_reducible apply ok_keeps | with_reducible apply State.issue_keeps | with_reducible apply State.illegal_keeps | with_reducible apply State.takeTrap_keeps | split | with_reducible refine Keeps.eqNext (by assumption) ?_

theorem execBrk_keeps {s0 : Orig} {s : State} (h : Keeps s0 s) (a : Agent) (w : BitVec 26) (hm : Sub 1656247025674 s0.m) : KeepsR s0 (execBrk a w s) := by
  unfold execBrk
  try dsimp only
  repeat' first | with_reducible assumption | with_reducible intro _ | ((with_reducible refine Sub.tr ?_ hm); exact rfl) | with_reducible apply Keeps.ite | with_reducible apply KeepsR.ok | with_reducible apply KeepsR.ite | with_reducible apply ok_keeps | with_reducible apply State.issue_keeps | with_reducible apply State.takeTrap_keeps | with_reducible apply State.illegal_keeps | split | with_reducible refine Keeps.eqNext (by assumption) ?_

theorem execRtn_keeps {s0 : Orig} {s : State} (h : Keeps s0 s) (a : Agent) (w : BitVec 26) (hm : Sub 1656247025674 s0.m) : KeepsR s0 (execRtn a w s) := by
  unfold execRtn
  try dsimp only
  repeat' first | with_reducible assumption | with_reducible intro _ | ((with_reducible refine Sub.tr ?_ hm); exact rfl) | with_reducible apply Keeps.ite | with_reducible apply KeepsR.ok | with_reducible apply KeepsR.ite | with_reducible apply ok_keeps | with_reducible apply State.issue_keeps | with_reducible apply State.illegal_keeps | with_reducible apply State.retire_keeps | with_reducible apply State.trapReturn_keeps | split | with_reducible refine Keeps.eqNext (by assumption) ?_

theorem execTret_keeps {s0 : Orig} {s : State} (h : Keeps s0 s) (a : Agent) (w : BitVec 26) (hm : Sub 1656247025674 s0.m) : KeepsR s0 (execTret a w s) := by
  unfold execTret
  try dsimp only
  repeat' first | with_reducible assumption | with_reducible intro _ | ((with_reducible refine Sub.tr ?_ hm); exact rfl) | with_reducible apply Keeps.ite | with_reducible apply KeepsR.ok | with_reducible apply KeepsR.ite | with_reducible apply ok_keeps | with_reducible apply State.issue_keeps | with_reducible apply State.illegal_keeps | with_reducible apply State.retire_keeps | with_reducible apply State.setCpu_keeps | split | with_reducible refine Keeps.eqNext (by assumption) ?_

theorem State.ptSync_keeps {s0 : Orig} {s : State} (h : Keeps s0 s) (k : Nat) (va asid : Option Nat) (hm : Sub 18446744073709551616 s0.m) : Keeps s0 (State.ptSync s k va asid) := by
  unfold State.ptSync
  try dsimp only
  repeat' first | with_reducible assumption | with_reducible intro _ | ((with_reducible refine Sub.tr ?_ hm); exact rfl) | with_reducible apply Keeps.ite | with_reducible apply State.putPsync_keeps | split

theorem execPgsync_keeps {s0 : Orig} {s : State} (h : Keeps s0 s) (a : Agent) (w : BitVec 26) (hm : Sub 18446745944713330954 s0.m) : KeepsR s0 (execPgsync a w s) := by
  unfold execPgsync
  try dsimp only
  repeat' first | with_reducible assumption | with_reducible intro _ | ((with_reducible refine Sub.tr ?_ hm); exact rfl) | with_reducible apply Keeps.ite | with_reducible apply KeepsR.ok | with_reducible apply KeepsR.ite | with_reducible apply ok_keeps | with_reducible apply State.issue_keeps | with_reducible apply State.illegal_keeps | with_reducible apply State.drainStores_keeps | with_reducible apply State.putTlb_keeps | with_reducible apply State.ptSync_keeps | with_reducible apply State.next_keeps | split | with_reducible refine Keeps.eqNext (by assumption) ?_

theorem execWaitev_keeps {s0 : Orig} {s : State} (h : Keeps s0 s) (a : Agent) (w : BitVec 26) (hm : Sub 1656247025674 s0.m) : KeepsR s0 (execWaitev a w s) := by
  unfold execWaitev
  try dsimp only
  repeat' first | with_reducible assumption | with_reducible intro _ | ((with_reducible refine Sub.tr ?_ hm); exact rfl) | with_reducible apply Keeps.ite | with_reducible apply KeepsR.ok | with_reducible apply KeepsR.ite | with_reducible apply ok_keeps | with_reducible apply State.issue_keeps | with_reducible apply State.illegal_keeps | with_reducible apply State.next_keeps | with_reducible apply State.setF_keeps | with_reducible apply State.setBlocked_keeps | split | with_reducible refine Keeps.eqNext (by assumption) ?_

theorem execWaitevResume_keeps {s0 : Orig} {s : State} (h : Keeps s0 s) (c : Fin 8) (hm : Sub 2 s0.m) : KeepsR s0 (execWaitevResume c s) := by
  unfold execWaitevResume
  try dsimp only
  repeat' first | with_reducible assumption | with_reducible intro _ | ((with_reducible refine Sub.tr ?_ hm); exact rfl) | with_reducible apply Keeps.ite | with_reducible apply KeepsR.ok | with_reducible apply KeepsR.ite | with_reducible apply ok_keeps | with_reducible apply State.setF_keeps | split | with_reducible refine Keeps.eqNext (by assumption) ?_

theorem execEventTaken_keeps {s0 : Orig} {s : State} (h : Keeps s0 s) (c : Fin 8) (hm : Sub 1651952058378 s0.m) : KeepsR s0 (execEventTaken c s) := by
  unfold execEventTaken
  try dsimp only
  repeat' first | with_reducible assumption | with_reducible intro _ | ((with_reducible refine Sub.tr ?_ hm); exact rfl) | with_reducible apply Keeps.ite | with_reducible apply KeepsR.ok | with_reducible apply KeepsR.ite | with_reducible apply ok_keeps | with_reducible apply State.takeEvent_keeps | split | with_reducible refine Keeps.eqNext (by assumption) ?_

theorem execTcmpExpiry_keeps {s0 : Orig} {s : State} (h : Keeps s0 s) (c : Fin 8) (m : Bool) (hm : Sub 2 s0.m) : KeepsR s0 (execTcmpExpiry c m s) := by
  unfold execTcmpExpiry
  try dsimp only
  repeat' first | with_reducible assumption | with_reducible intro _ | ((with_reducible refine Sub.tr ?_ hm); exact rfl) | with_reducible apply Keeps.ite | with_reducible apply KeepsR.ok | with_reducible apply KeepsR.ite | with_reducible apply ok_keeps | with_reducible apply State.setF_keeps | split | with_reducible refine Keeps.eqNext (by assumption) ?_

theorem State.pghSwi_keeps {s0 : Orig} {s : State} (h : Keeps s0 s) (c : Fin 8) (v : Word) (hm : Sub 1101659111424 s0.m) : Keeps s0 (State.pghSwi s c v) := by
  unfold State.pghSwi
  try dsimp only
  repeat' first | with_reducible assumption | with_reducible intro _ | ((with_reducible refine Sub.tr ?_ hm); exact rfl) | with_reducible apply Keeps.ite | with_reducible apply State.setSysRaw_keeps | split

theorem execPghSwi_keeps {s0 : Orig} {s : State} (h : Keeps s0 s) (c : Fin 8) (v : Word) (hm : Sub 1101659111424 s0.m) : KeepsR s0 (execPghSwi c v s) := by
  unfold execPghSwi
  try dsimp only
  repeat' first | with_reducible assumption | with_reducible intro _ | ((with_reducible refine Sub.tr ?_ hm); exact rfl) | with_reducible apply Keeps.ite | with_reducible apply KeepsR.ok | with_reducible apply KeepsR.ite | with_reducible apply ok_keeps | with_reducible apply State.pghSwi_keeps | split | with_reducible refine Keeps.eqNext (by assumption) ?_

theorem execSysreg_keeps {s0 : Orig} {s : State} (h : Keeps s0 s) (a : Agent) (w : BitVec 26) (hm : Sub 1656381243402 s0.m) : KeepsR s0 (execSysreg a w s) := by
  unfold execSysreg
  try dsimp only
  repeat' first | with_reducible assumption | with_reducible intro _ | ((with_reducible refine Sub.tr ?_ hm); exact rfl) | with_reducible apply Keeps.ite | with_reducible apply KeepsR.ok | with_reducible apply KeepsR.ite | with_reducible apply KeepsQ.ite | with_reducible apply ok_keeps | with_reducible apply State.issue_keeps | with_reducible apply State.sysRead_keeps | with_reducible apply State.illegal_keeps | with_reducible apply State.setG_keeps | with_reducible apply State.next_keeps | with_reducible apply State.sysWrite_keeps | simp -zeta only [KeepsP.pair, KeepsQ.pair] | with_reducible apply KeepsQ.snd | split | with_reducible refine Keeps.eqSnd (by assumption) ?_ | with_reducible refine Keeps.eqNext (by assumption) ?_

theorem State.fflags_keeps {s0 : Orig} {s : State} (h : Keeps s0 s) (a : Agent) (fl : Nat) (hm : Sub 1101659111424 s0.m) : Keeps s0 (State.fflags s a fl) := by
  unfold State.fflags
  try dsimp only
  repeat' first | with_reducible assumption | with_reducible intro _ | ((with_reducible refine Sub.tr ?_ hm); exact rfl) | with_reducible apply Keeps.ite | with_reducible apply State.setSysRaw_keeps | split

theorem State.putF_keeps {s0 : Orig} {s : State} (h : Keeps s0 s) (a : Agent) (w : BitVec 26) (r : FRes) (hm : Sub 1101659111424 s0.m) : Keeps s0 (State.putF s a w r) := by
  unfold State.putF
  try dsimp only
  repeat' first | with_reducible assumption | with_reducible intro _ | ((with_reducible refine Sub.tr ?_ hm); exact rfl) | with_reducible apply Keeps.ite | with_reducible apply State.setFr_keeps | with_reducible apply State.fflags_keeps | with_reducible apply State.next_keeps | split

theorem State.putGF_keeps {s0 : Orig} {s : State} (h : Keeps s0 s) (a : Agent) (w : BitVec 26) (v : Dword) (fl : Nat) (hm : Sub 1101659111424 s0.m) : Keeps s0 (State.putGF s a w v fl) := by
  unfold State.putGF
  try dsimp only
  repeat' first | with_reducible assumption | with_reducible intro _ | ((with_reducible refine Sub.tr ?_ hm); exact rfl) | with_reducible apply Keeps.ite | with_reducible apply State.setG_keeps | with_reducible apply State.fflags_keeps | with_reducible apply State.next_keeps | split

theorem State.fopDo_keeps {s0 : Orig} {s : State} (h : Keeps s0 s) (a : Agent) (w : BitVec 26) (hm : Sub 1101659111424 s0.m) : KeepsO s0 (State.fopDo s a w) := by
  unfold State.fopDo
  try dsimp only
  repeat' first | with_reducible assumption | with_reducible intro _ | ((with_reducible refine Sub.tr ?_ hm); exact rfl) | with_reducible apply Keeps.ite | with_reducible apply KeepsO.some | with_reducible exact KeepsO.none | with_reducible apply KeepsO.ite | with_reducible apply KeepsO.map | with_reducible apply State.putF_keeps | with_reducible apply State.putGF_keeps | split | with_reducible refine Keeps.eqSome (by assumption) ?_

theorem execFop_keeps {s0 : Orig} {s : State} (h : Keeps s0 s) (a : Agent) (w : BitVec 26) (hm : Sub 1656247025674 s0.m) : KeepsR s0 (execFop a w s) := by
  unfold execFop
  try dsimp only
  repeat' first | with_reducible assumption | with_reducible intro _ | ((with_reducible refine Sub.tr ?_ hm); exact rfl) | with_reducible apply Keeps.ite | with_reducible apply KeepsR.ok | with_reducible apply KeepsR.ite | with_reducible apply KeepsO.some | with_reducible exact KeepsO.none | with_reducible apply KeepsO.ite | with_reducible apply KeepsO.map | with_reducible apply ok_keeps | with_reducible apply State.issue_keeps | with_reducible apply State.illegal_keeps | with_reducible apply State.fopDo_keeps | split | with_reducible refine Keeps.eqSome (by assumption) ?_ | with_reducible refine Keeps.eqNext (by assumption) ?_

theorem State.fma_keeps {s0 : Orig} {s : State} (h : Keeps s0 s) (a : Agent) (op : Nat) (np nc : Bool) (w : BitVec 26) (hm : Sub 1656247025674 s0.m) : Keeps s0 (State.fma s a op np nc w) := by
  unfold State.fma
  try dsimp only
  repeat' first | with_reducible assumption | with_reducible intro _ | ((with_reducible refine Sub.tr ?_ hm); exact rfl) | with_reducible apply Keeps.ite | with_reducible apply State.issue_keeps | with_reducible apply State.putF_keeps | with_reducible apply State.illegal_keeps | split

theorem execFmadd_keeps {s0 : Orig} {s : State} (h : Keeps s0 s) (a : Agent) (w : BitVec 26) (hm : Sub 1656247025674 s0.m) : KeepsR s0 (execFmadd a w s) := by
  unfold execFmadd
  try dsimp only
  repeat' first | with_reducible assumption | with_reducible intro _ | ((with_reducible refine Sub.tr ?_ hm); exact rfl) | with_reducible apply Keeps.ite | with_reducible apply KeepsR.ok | with_reducible apply KeepsR.ite | with_reducible apply ok_keeps | with_reducible apply State.fma_keeps | split | with_reducible refine Keeps.eqNext (by assumption) ?_

theorem execFmsub_keeps {s0 : Orig} {s : State} (h : Keeps s0 s) (a : Agent) (w : BitVec 26) (hm : Sub 1656247025674 s0.m) : KeepsR s0 (execFmsub a w s) := by
  unfold execFmsub
  try dsimp only
  repeat' first | with_reducible assumption | with_reducible intro _ | ((with_reducible refine Sub.tr ?_ hm); exact rfl) | with_reducible apply Keeps.ite | with_reducible apply KeepsR.ok | with_reducible apply KeepsR.ite | with_reducible apply ok_keeps | with_reducible apply State.fma_keeps | split | with_reducible refine Keeps.eqNext (by assumption) ?_

theorem execFnmadd_keeps {s0 : Orig} {s : State} (h : Keeps s0 s) (a : Agent) (w : BitVec 26) (hm : Sub 1656247025674 s0.m) : KeepsR s0 (execFnmadd a w s) := by
  unfold execFnmadd
  try dsimp only
  repeat' first | with_reducible assumption | with_reducible intro _ | ((with_reducible refine Sub.tr ?_ hm); exact rfl) | with_reducible apply Keeps.ite | with_reducible apply KeepsR.ok | with_reducible apply KeepsR.ite | with_reducible apply ok_keeps | with_reducible apply State.fma_keeps | split | with_reducible refine Keeps.eqNext (by assumption) ?_

theorem execFnmsub_keeps {s0 : Orig} {s : State} (h : Keeps s0 s) (a : Agent) (w : BitVec 26) (hm : Sub 1656247025674 s0.m) : KeepsR s0 (execFnmsub a w s) := by
  unfold execFnmsub
  try dsimp only
  repeat' first | with_reducible assumption | with_reducible intro _ | ((with_reducible refine Sub.tr ?_ hm); exact rfl) | with_reducible apply Keeps.ite | with_reducible apply KeepsR.ok | with_reducible apply KeepsR.ite | with_reducible apply ok_keeps | with_reducible apply State.fma_keeps | split | with_reducible refine Keeps.eqNext (by assumption) ?_

end Sys2Proof.Machine
end

