-- ==== Sys2Proof/Laws/KeepsStartup.lean ====
section
/-! SUPPORT. The operations of Machine/Startup.lean keep the queue of commands and the canonical form, and change no part outside
their footprint. -/

set_option linter.unusedSimpArgs false
set_option linter.unusedVariables false
set_option Elab.async false

namespace Sys2Proof.Machine

theorem SMap.wf_ite {α : Type} [DecidableEq α] (d : Nat → α) {c : Prop} [Decidable c] {a b : SMap α} (ha : a.wf d = true)
    (hb : b.wf d = true) : (if c then a else b).wf d = true := by
  split <;> assumption

theorem State.keptRegs_canonical {s : State} (h : s.Canonical) (wake : Bool) : (s.keptRegs wake).Canonical := by
  have u : s.updCoreReset.Canonical := (State.updCoreReset_keeps (s0 := ⟨s, 131072⟩) Keeps.rfl' (show Nat.land 131072 131072 = 131072 from rfl)).2.1 h
  have r := u.2.2
  unfold State.keptRegs
  generalize s.updCoreReset = x at r ⊢
  intro b
  cases b
  case TIM => exact SMap.wf_ite _ (r .TIM) (SMap.wf_empty _)
  case UPD => exact r .UPD
  case BUR =>
    exact SMap.wf_keep _ x.regs.bur (fun o => o == BUR_HEAD || o == BUR_COUNT || o == BUR_WRAPS) (r .BUR)
  all_goals exact SMap.wf_empty _

theorem State.powerReset_keeps {s0 : Orig} {s : State} (h : Keeps s0 s) (wake : Bool) (hm : Sub 36893488147419103230 s0.m := by first | assumption | exact Sub.tr rfl (by assumption)) : Keeps s0 (State.powerReset s wake) :=
  h.within rfl (fun c => ⟨SMap.wf_ite _ c.1 (SMap.wf_keep _ _ _ c.1), c.2.1, State.keptRegs_canonical c wake⟩)
    (fun p hp => by cases p <;> first | (rename_i b; cases b <;> exact absurd hp (by decide)) | exact absurd hp (by decide) | rfl) hm

theorem State.burReset_keeps {s0 : Orig} {s : State} (h : Keeps s0 s)  (hm : Sub 550301335560 s0.m) : Keeps s0 (State.burReset s) := by
  unfold State.burReset
  try dsimp only
  repeat' first | with_reducible assumption | with_reducible intro _ | ((with_reducible refine Sub.tr ?_ hm); exact rfl) | with_reducible apply Keeps.ite | with_reducible apply State.burCommitAll_keeps | with_reducible apply State.putBur_keeps | with_reducible apply State.resetWindow_keeps | split

theorem State.windowsReset_keeps {s0 : Orig} {s : State} (h : Keeps s0 s)  (hm : Sub 8388606 s0.m) : Keeps s0 (State.windowsReset s) := by
  unfold State.windowsReset
  try dsimp only
  repeat' first | with_reducible assumption | with_reducible intro _ | ((with_reducible refine Sub.tr ?_ hm); exact rfl) | with_reducible apply Keeps.ite | with_reducible apply State.each_keeps | with_reducible apply State.resetWindow_keeps | with_reducible apply State.wr_keeps | with_reducible apply State.setF_keeps | with_reducible apply State.wrN_keeps | split | ((with_reducible refine Sub.blk _ ?_ hm); exact rfl)

theorem State.lswCoreReset_keeps {s0 : Orig} {s : State} (h : Keeps s0 s) (n : Nat) (hm : Sub 2749450422280 s0.m) : Keeps s0 (State.lswCoreReset s n) := by
  unfold State.lswCoreReset
  try dsimp only
  repeat' first | with_reducible assumption | with_reducible intro _ | ((with_reducible refine Sub.tr ?_ hm); exact rfl) | with_reducible apply Keeps.ite | with_reducible apply State.lswFailFree_keeps | with_reducible apply State.lswEvent_keeps | with_reducible apply State.lswSetHeld_keeps | split

theorem State.dieReset_keeps {s0 : Orig} {s : State} (h : Keeps s0 s) (hold : Bool) (hm : Sub 35375756106302226430 s0.m) : Keeps s0 (State.dieReset s hold) := by
  unfold State.dieReset
  try dsimp only
  repeat' first | with_reducible assumption | with_reducible intro _ | ((with_reducible refine Sub.tr ?_ hm); exact rfl) | with_reducible apply Keeps.ite | with_reducible apply KeepsR.ok | with_reducible apply KeepsR.ite | with_reducible apply State.each_keeps | with_reducible apply State.tstRelock_keeps | with_reducible apply State.burReset_keeps | with_reducible apply State.paceCoreReset_keeps | with_reducible apply State.camCoreReset_keeps | with_reducible apply State.gnsCoreReset_keeps | with_reducible apply State.pnlCoreReset_keeps | with_reducible apply State.updCoreReset_keeps | with_reducible apply State.tblCoreReset_keeps | with_reducible apply State.mapCoreReset_keeps | with_reducible apply State.windowsReset_keeps | with_reducible apply State.setBit_keeps | with_reducible apply State.pwrMod_keeps | with_reducible apply State.loadStop_keeps | with_reducible apply State.chargeShow_keeps | with_reducible apply State.vlvCoreReset_keeps | with_reducible apply State.lswCoreReset_keeps | with_reducible apply State.vlvSettle_keeps | with_reducible apply State.resetWindow_keeps | with_reducible apply State.putPgh_keeps | with_reducible apply State.putBur_keeps | with_reducible apply State.burShow_keeps | with_reducible apply State.setV00_keeps | with_reducible apply State.supShow_keeps | with_reducible apply Keeps.set_mail_pgh_fifo_cpus_tlb_sbuf_pickLast_ports_lpe_aio_can_eth_svc_cart_saf_stq_dmw_psync | split | with_reducible refine Keeps.eqNext (by assumption) ?_ | ((with_reducible refine Sub.blk _ ?_ hm); exact rfl)

theorem State.bootOff_keeps {s0 : Orig} {s : State} (h : Keeps s0 s)  (hm : Sub 7147765369864 s0.m) : Keeps s0 (State.bootOff s) := by
  unfold State.bootOff
  try dsimp only
  repeat' first | with_reducible assumption | with_reducible intro _ | ((with_reducible refine Sub.tr ?_ hm); exact rfl) | with_reducible apply Keeps.ite | with_reducible apply State.allOff_keeps | split

theorem State.bootStop_keeps {s0 : Orig} {s : State} (h : Keeps s0 s) (n : Nat) (hm : Sub 9227602614949481518 s0.m) : Keeps s0 (State.bootStop s n) := by
  unfold State.bootStop
  try dsimp only
  repeat' first | with_reducible assumption | with_reducible intro _ | ((with_reducible refine Sub.tr ?_ hm); exact rfl) | with_reducible apply Keeps.ite | with_reducible apply State.sysMod_keeps | with_reducible apply State.bootOff_keeps | with_reducible apply State.setBit_keeps | with_reducible apply State.islRun_keeps | split

theorem State.bootStep_keeps {s0 : Orig} {s : State} (h : Keeps s0 s) (f : State → State) (hf : ∀ x0, Keeps s0 x0 → Keeps s0 (f x0)) (hm : Sub 0 s0.m) : Keeps s0 (State.bootStep s f) := by
  unfold State.bootStep
  try dsimp only
  repeat' first | with_reducible assumption | with_reducible intro _ | ((with_reducible refine Sub.tr ?_ hm); exact rfl) | with_reducible apply hf | with_reducible apply Keeps.ite | split

theorem State.bootSupply_keeps {s0 : Orig} {s : State} (h : Keeps s0 s) (e : BootEnv) (hm : Sub 576461302600564744 s0.m) : Keeps s0 (State.bootSupply s e) := by
  unfold State.bootSupply
  try dsimp only
  repeat' first | with_reducible assumption | with_reducible intro _ | ((with_reducible refine Sub.tr ?_ hm); exact rfl) | with_reducible apply Keeps.ite | with_reducible apply State.each_keeps | with_reducible apply State.setPhase_keeps | with_reducible apply State.wrN_keeps | with_reducible apply State.pstSet_keeps | with_reducible apply State.event_keeps | with_reducible apply State.loadStart_keeps | with_reducible apply State.bankEval_keeps | split

theorem State.bootPair_keeps {s0 : Orig} {s : State} (h : Keeps s0 s) (e : BootEnv) (cut : Bool) (hm : Sub 9808584559069989934 s0.m) : Keeps s0 (State.bootPair s e cut) := by
  unfold State.bootPair
  try dsimp only
  repeat' first | with_reducible assumption | with_reducible intro _ | ((with_reducible refine Sub.tr ?_ hm); exact rfl) | with_reducible apply Keeps.ite | with_reducible apply State.each_keeps | with_reducible apply State.openCutoffs_keeps | with_reducible apply State.hkpRound_keeps | with_reducible apply State.updLoad_keeps | with_reducible apply State.updBoot_keeps | with_reducible apply State.bootStop_keeps | with_reducible apply State.wrBytes_keeps | with_reducible apply State.setF_keeps | with_reducible apply State.islRun_keeps | with_reducible apply State.setBit_keeps | with_reducible apply State.wrN_keeps | with_reducible apply State.limp_keeps | with_reducible apply State.safetyFault_keeps | with_reducible apply State.sysMod_keeps | split

theorem State.bootRetained_keeps {s0 : Orig} {s : State} (h : Keeps s0 s)  (hm : Sub 1152922054908182536 s0.m) : Keeps s0 (State.bootRetained s) := by
  unfold State.bootRetained
  try dsimp only
  repeat' first | with_reducible assumption | with_reducible intro _ | ((with_reducible refine Sub.tr ?_ hm); exact rfl) | with_reducible apply Keeps.ite | with_reducible apply State.each_keeps | with_reducible apply State.burDirect_keeps | with_reducible apply State.putAon_keeps | split

theorem State.bootSummary_keeps {s0 : Orig} {s : State} (h : Keeps s0 s) (off : Option Nat) (hm : Sub 1152929751891184650 s0.m) : Keeps s0 (State.bootSummary s off) := by
  unfold State.bootSummary
  try dsimp only
  repeat' first | with_reducible assumption | with_reducible intro _ | ((with_reducible refine Sub.tr ?_ hm); exact rfl) | with_reducible apply Keeps.ite | with_reducible apply State.wrN_keeps | with_reducible apply State.putAon_keeps | with_reducible apply State.limp_keeps | with_reducible apply State.pstSet_keeps | with_reducible apply State.summary_keeps | split

theorem State.bootFold_keeps {s0 : Orig} {s : State} (h : Keeps s0 s)  (hm : Sub 550305529864 s0.m) : Keeps s0 (State.bootFold s) := by
  unfold State.bootFold
  try dsimp only
  repeat' first | with_reducible assumption | with_reducible intro _ | ((with_reducible refine Sub.tr ?_ hm); exact rfl) | with_reducible apply Keeps.ite | with_reducible apply State.tornUnit_keeps | with_reducible apply State.wrBytes_keeps | with_reducible apply State.wrB_keeps | split

theorem State.bootPatches_keeps {s0 : Orig} {s : State} (h : Keeps s0 s)  (hm : Sub 550297141256 s0.m) : Keeps s0 (State.bootPatches s) := by
  unfold State.bootPatches
  try dsimp only
  repeat' first | with_reducible assumption | with_reducible intro _ | ((with_reducible refine Sub.tr ?_ hm); exact rfl) | with_reducible apply Keeps.ite | with_reducible apply State.each_keeps | with_reducible apply State.tornUnit_keeps | split

theorem State.bootCount_keeps {s0 : Orig} {s : State} (h : Keeps s0 s)  (hm : Sub 288230376185266176 s0.m) : Keeps s0 (State.bootCount s) := by
  unfold State.bootCount
  try dsimp only
  repeat' first | with_reducible assumption | with_reducible intro _ | ((with_reducible refine Sub.tr ?_ hm); exact rfl) | with_reducible apply Keeps.ite | with_reducible apply State.putClk_keeps | with_reducible apply State.putNv_keeps | split

theorem State.bootMram_keeps {s0 : Orig} {s : State} (h : Keeps s0 s) (e : BootEnv) (first : Bool) (hm : Sub 1513217722189876362 s0.m) : Keeps s0 (State.bootMram s e first) := by
  unfold State.bootMram
  try dsimp only
  repeat' first | with_reducible assumption | with_reducible intro _ | ((with_reducible refine Sub.tr ?_ hm); exact rfl) | with_reducible apply Keeps.ite | with_reducible apply State.bootSummary_keeps | with_reducible apply State.bootPatches_keeps | with_reducible apply State.bootFold_keeps | with_reducible apply State.bootRetained_keeps | with_reducible apply State.bootCount_keeps | with_reducible apply State.timSeed_keeps | split

theorem State.sectionActs_keeps {s0 : Orig} {s : State} (h : Keeps s0 s) (b : Block) (o : Nat) (w : Word) (hm : Sub 4194308 s0.m := by first | assumption | exact Sub.tr rfl (by assumption)) : Keeps s0 (State.sectionActs s b o w) := by
  unfold State.sectionActs
  try dsimp only
  repeat' first | with_reducible assumption | with_reducible intro _ | ((with_reducible refine Sub.tr ?_ hm); exact rfl) | with_reducible apply Keeps.ite | with_reducible apply State.pwrCfg_keeps | with_reducible apply State.setFloor_keeps | split

theorem State.sectionWordAt_keeps {s0 : Orig} {s : State} (h : Keeps s0 s) (id o : Nat) (w : Word) (b : Option Block) (hm : Sub 206175207422 s0.m := by first | assumption | exact Sub.tr rfl (by assumption)) :
    Keeps s0 (State.sectionWordAt s id o w b) := by
  cases b with
  | none => exact h
  | some b =>
    unfold State.sectionWordAt
    dsimp only
    generalize regRow b o = r
    cases r with
    | none => exact h
    | some row =>
      exact Keeps.ite (State.sectionActs_keeps (State.wr_keeps h _ _ _ (Sub.blk b rfl hm)) _ _ _)
        (Keeps.ite (State.wr_keeps h _ _ _ (Sub.blk b rfl hm)) h)

theorem State.drawerClear_keeps {s0 : Orig} {s : State} (h : Keeps s0 s) (all : Bool) (hm : Sub 8388606 s0.m) : Keeps s0 (State.drawerClear s all) := by
  unfold State.drawerClear
  try dsimp only
  repeat' first | with_reducible assumption | with_reducible intro _ | ((with_reducible refine Sub.tr ?_ hm); exact rfl) | with_reducible apply Keeps.ite | with_reducible apply State.each_keeps | with_reducible apply State.resetWindow_keeps | split | ((with_reducible refine Sub.blk _ ?_ hm); exact rfl)

theorem State.sectionWord_keeps {s0 : Orig} {s : State} (h : Keeps s0 s) (id : Nat) (x : Nat × Nat × Word) (hm : Sub 206175207422 s0.m := by first | assumption | exact Sub.tr rfl (by assumption)) :
    Keeps s0 (State.sectionWord s id x) := by
  unfold State.sectionWord
  with_reducible exact State.sectionWordAt_keeps h _ _ _ _

theorem State.loadSection_keeps {s0 : Orig} {s : State} (h : Keeps s0 s) (x : Nat × List Byte) (hm : Sub 296525498417150 s0.m) : Keeps s0 (State.loadSection s x) := by
  unfold State.loadSection
  try dsimp only
  repeat' first | with_reducible assumption | with_reducible intro _ | ((with_reducible refine Sub.tr ?_ hm); exact rfl) | with_reducible apply Keeps.ite | with_reducible apply State.each_keeps | with_reducible apply State.sectionWord_keeps | with_reducible apply State.sysMod_keeps | with_reducible apply State.lpeDrawer_keeps | with_reducible apply State.alignLoad_keeps | with_reducible apply State.setBit_keeps | with_reducible apply State.supSwitch_keeps | with_reducible apply State.ainShow_keeps | with_reducible apply State.finShow_keeps | split | ((with_reducible refine Sub.blk _ ?_ hm); exact rfl)

theorem State.loadSections_keeps {s0 : Orig} {s : State} (h : Keeps s0 s) (secs : List (Nat × List Byte)) (first : Bool) (hm : Sub 296525498417150 s0.m) : Keeps s0 (State.loadSections s secs first) := by
  unfold State.loadSections
  try dsimp only
  repeat' first | with_reducible assumption | with_reducible intro _ | ((with_reducible refine Sub.tr ?_ hm); exact rfl) | with_reducible apply Keeps.ite | with_reducible apply State.each_keeps | with_reducible apply State.loadSection_keeps | split | ((with_reducible refine Sub.blk _ ?_ hm); exact rfl)

theorem State.noDrawer_keeps {s0 : Orig} {s : State} (h : Keeps s0 s)  (hm : Sub 8247276997640 s0.m) : Keeps s0 (State.noDrawer s) := by
  unfold State.noDrawer
  try dsimp only
  repeat' first | with_reducible assumption | with_reducible intro _ | ((with_reducible refine Sub.tr ?_ hm); exact rfl) | with_reducible apply Keeps.ite | with_reducible apply State.sysMod_keeps | with_reducible apply State.bootOff_keeps | split

theorem State.bootDrwTorn_keeps {s0 : Orig} {s : State} (h : Keeps s0 s)  (hm : Sub 550297141256 s0.m) : Keeps s0 (State.bootDrwTorn s) := by
  unfold State.bootDrwTorn
  try dsimp only
  repeat' first | with_reducible assumption | with_reducible intro _ | ((with_reducible refine Sub.tr ?_ hm); exact rfl) | with_reducible apply Keeps.ite | with_reducible apply State.each_keeps | with_reducible apply State.tornUnit_keeps | split

theorem State.selectDrawer_keeps {s0 : Orig} {s : State} (h : Keeps s0 s) (e : BootEnv) (hm : Sub 298724521672702 s0.m) : KeepsP s0 (State.selectDrawer s e) := by
  unfold State.selectDrawer
  try dsimp only
  repeat' first | with_reducible assumption | with_reducible intro _ | ((with_reducible refine Sub.tr ?_ hm); exact rfl) | with_reducible apply Keeps.ite | with_reducible apply KeepsP.ite | with_reducible apply State.bootDrwTorn_keeps | with_reducible apply State.drawerClear_keeps | with_reducible apply State.sysMod_keeps | with_reducible apply State.noDrawer_keeps | with_reducible apply State.setBit_keeps | with_reducible apply State.setF_keeps | with_reducible apply State.loadSections_keeps | simp -zeta only [KeepsP.pair, KeepsQ.pair] | with_reducible apply KeepsP.fst | split | with_reducible refine Keeps.eqFst (by assumption) ?_ | ((with_reducible refine Sub.blk _ ?_ hm); exact rfl)

theorem State.reloadDrawer_keeps {s0 : Orig} {s : State} (h : Keeps s0 s)  (hm : Sub 298724521672702 s0.m) : KeepsP s0 (State.reloadDrawer s) := by
  unfold State.reloadDrawer
  try dsimp only
  repeat' first | with_reducible assumption | with_reducible intro _ | ((with_reducible refine Sub.tr ?_ hm); exact rfl) | with_reducible apply Keeps.ite | with_reducible apply KeepsP.ite | with_reducible apply State.bootDrwTorn_keeps | with_reducible apply State.drawerClear_keeps | with_reducible apply State.setBit_keeps | with_reducible apply State.setF_keeps | with_reducible apply State.noDrawer_keeps | with_reducible apply State.loadSections_keeps | with_reducible apply State.sysMod_keeps | simp -zeta only [KeepsP.pair, KeepsQ.pair] | with_reducible apply KeepsP.fst | split | with_reducible refine Keeps.eqFst (by assumption) ?_ | ((with_reducible refine Sub.blk _ ?_ hm); exact rfl)

theorem State.bootDrawer_keeps {s0 : Orig} {s : State} (h : Keeps s0 s) (e : BootEnv) (boot : Bool) (hm : Sub 316316707717118 s0.m) : KeepsP s0 (State.bootDrawer s e boot) := by
  unfold State.bootDrawer
  try dsimp only
  repeat' first | with_reducible assumption | with_reducible intro _ | ((with_reducible refine Sub.tr ?_ hm); exact rfl) | with_reducible apply Keeps.ite | with_reducible apply KeepsP.ite | with_reducible apply State.updBoot_keeps | with_reducible apply State.reloadDrawer_keeps | with_reducible apply State.selectDrawer_keeps | with_reducible apply State.gmMoved_keeps | with_reducible apply State.restoreSnap_keeps | simp -zeta only [KeepsP.pair, KeepsQ.pair] | with_reducible apply KeepsP.fst | split | with_reducible refine Keeps.eqFst (by assumption) ?_ | ((with_reducible refine Sub.blk _ ?_ hm); exact rfl)

theorem stepEnd_keeps {s0 : Orig} (act : List Nat) (l : List Nat) (r : State × Nat × List Byte) (h : Keeps s0 r.1) (hm : Sub 134217728 s0.m := by first | assumption | exact Sub.tr rfl (by assumption)) :
    Keeps s0 (l.foldl (stepEnd act) r).1 := by
  induction l generalizing r with
  | nil => exact h
  | cons i l ih =>
    refine ih _ ?_
    unfold stepEnd
    dsimp only
    split
    · exact State.putFree_keeps h _
    · exact h

theorem State.stepEnds_keeps {s0 : Orig} {s : State} (h : Keeps s0 s) (act : List Nat) (hm : Sub 134217728 s0.m := by first | assumption | exact Sub.tr rfl (by assumption)) : KeepsP s0 (State.stepEnds s act) := by
  have k := stepEnd_keeps act (upto 8) (s, 0, []) h
  unfold State.stepEnds
  generalize List.foldl (stepEnd act) (s, 0, []) (upto 8) = r at k ⊢
  exact k

theorem State.bootReport_keeps {s0 : Orig} {s : State} (h : Keeps s0 s) (act : List Nat) (hm : Sub 8453443816458 s0.m) : Keeps s0 (State.bootReport s act) := by
  unfold State.bootReport
  try dsimp only
  repeat' first | with_reducible assumption | with_reducible intro _ | ((with_reducible refine Sub.tr ?_ hm); exact rfl) | with_reducible apply Keeps.ite | with_reducible apply KeepsP.ite | with_reducible apply State.stepEnds_keeps | with_reducible apply State.noDrawer_keeps | with_reducible apply State.store_keeps | simp -zeta only [KeepsP.pair, KeepsQ.pair] | with_reducible apply KeepsP.fst | split | with_reducible refine Keeps.eqFst (by assumption) ?_

theorem State.hostStart_keeps {s0 : Orig} {s : State} (h : Keeps s0 s) (c pc : Nat) (hm : Sub 2147483650 s0.m) : Keeps s0 (State.hostStart s c pc) := by
  unfold State.hostStart
  try dsimp only
  repeat' first | with_reducible assumption | with_reducible intro _ | ((with_reducible refine Sub.tr ?_ hm); exact rfl) | with_reducible apply Keeps.ite | with_reducible apply State.setF_keeps | with_reducible apply State.setCpu_keeps | split

theorem State.bootRelease_keeps {s0 : Orig} {s : State} (h : Keeps s0 s) (secs : List (Nat × List Byte)) (act : List Nat) (hm : Sub 9371735397358865454 s0.m) : Keeps s0 (State.bootRelease s secs act) := by
  unfold State.bootRelease
  try dsimp only
  repeat' first | with_reducible assumption | with_reducible intro _ | ((with_reducible refine Sub.tr ?_ hm); exact rfl) | with_reducible apply Keeps.ite | with_reducible apply State.each_keeps | with_reducible apply State.islRun_keeps | with_reducible apply State.noDrawer_keeps | with_reducible apply State.updBoot_keeps | with_reducible apply State.bootStop_keeps | with_reducible apply State.fwStart_keeps | with_reducible apply State.bootReport_keeps | with_reducible apply State.hostStart_keeps | split

theorem State.bootSteps_keeps {s0 : Orig} {s : State} (h : Keeps s0 s) (e : BootEnv) (hm : Sub 11465918020287725566 s0.m) : Keeps s0 (State.bootSteps s e) := by
  unfold State.bootSteps
  try dsimp only
  repeat' first | with_reducible assumption | with_reducible intro _ | ((with_reducible refine Sub.tr ?_ hm); exact rfl) | with_reducible apply Keeps.ite | with_reducible apply KeepsP.ite | with_reducible apply State.bootPair_keeps | with_reducible apply State.bootStep_keeps | with_reducible apply State.islRun_keeps | with_reducible apply State.bootMram_keeps | with_reducible apply State.bootDrawer_keeps | with_reducible apply State.updActivate_keeps | with_reducible apply State.bootRelease_keeps | simp -zeta only [KeepsP.pair, KeepsQ.pair] | with_reducible apply KeepsP.fst | split | with_reducible refine Keeps.eqFst (by assumption) ?_ | ((with_reducible refine Sub.blk _ ?_ hm); exact rfl)

theorem State.startup_keeps {s0 : Orig} {s : State} (h : Keeps s0 s) (kind cause : Nat) (e : BootEnv) (hm : Sub 11465918020287725566 s0.m) : Keeps s0 (State.startup s kind cause e) := by
  unfold State.startup
  try dsimp only
  repeat' first | with_reducible assumption | with_reducible intro _ | ((with_reducible refine Sub.tr ?_ hm); exact rfl) | with_reducible apply Keeps.ite | with_reducible apply State.sysMod_keeps | with_reducible apply State.setF_keeps | with_reducible apply State.bootSupply_keeps | with_reducible apply State.bootSteps_keeps | split | ((with_reducible refine Sub.blk _ ?_ hm); exact rfl)

theorem State.powerOn_keeps {s0 : Orig} {s : State} (h : Keeps s0 s) (e : BootEnv) (hm : Sub 36893488147419103230 s0.m) : Keeps s0 (State.powerOn s e) := by
  unfold State.powerOn
  try dsimp only
  repeat' first | with_reducible assumption | with_reducible intro _ | ((with_reducible refine Sub.tr ?_ hm); exact rfl) | with_reducible apply Keeps.ite | with_reducible apply KeepsR.ok | with_reducible apply KeepsR.ite | with_reducible apply State.powerReset_keeps | with_reducible apply State.putAon_keeps | with_reducible apply State.startup_keeps | split | with_reducible refine Keeps.eqNext (by assumption) ?_ | ((with_reducible refine Sub.blk _ ?_ hm); exact rfl)

theorem State.wakeUp_keeps {s0 : Orig} {s : State} (h : Keeps s0 s) (cause : Nat) (e : BootEnv) (hm : Sub 36893488147419103230 s0.m) : Keeps s0 (State.wakeUp s cause e) := by
  unfold State.wakeUp
  try dsimp only
  repeat' first | with_reducible assumption | with_reducible intro _ | ((with_reducible refine Sub.tr ?_ hm); exact rfl) | with_reducible apply Keeps.ite | with_reducible apply KeepsR.ok | with_reducible apply KeepsR.ite | with_reducible apply State.powerReset_keeps | with_reducible apply State.poisonShow_keeps | with_reducible apply State.wr_keeps | with_reducible apply State.pstSet_keeps | with_reducible apply State.putAon_keeps | with_reducible apply State.startup_keeps | split | with_reducible refine Keeps.eqNext (by assumption) ?_ | ((with_reducible refine Sub.blk _ ?_ hm); exact rfl)

theorem State.wakeTry_keeps {s0 : Orig} {s : State} (h : Keeps s0 s) (cause : Nat) (e : BootEnv) (hm : Sub 36893488147419103230 s0.m) : Keeps s0 (State.wakeTry s cause e) := by
  unfold State.wakeTry
  try dsimp only
  repeat' first | with_reducible assumption | with_reducible intro _ | ((with_reducible refine Sub.tr ?_ hm); exact rfl) | with_reducible apply Keeps.ite | with_reducible apply State.wakeUp_keeps | with_reducible apply State.putAon_keeps | split | ((with_reducible refine Sub.blk _ ?_ hm); exact rfl)

theorem State.causeSet_keeps {s0 : Orig} {s : State} (h : Keeps s0 s) (bit : Nat) (hm : Sub 2 s0.m) : Keeps s0 (State.causeSet s bit) := by
  unfold State.causeSet
  try dsimp only
  repeat' first | with_reducible assumption | with_reducible intro _ | ((with_reducible refine Sub.tr ?_ hm); exact rfl) | with_reducible apply Keeps.ite | with_reducible apply State.wrN_keeps | split

theorem State.coreReset_keeps {s0 : Orig} {s : State} (h : Keeps s0 s) (bit : Nat) (e : BootEnv) (hm : Sub 36893487872524419070 s0.m) : Keeps s0 (State.coreReset s bit e) := by
  unfold State.coreReset
  try dsimp only
  repeat' first | with_reducible assumption | with_reducible intro _ | ((with_reducible refine Sub.tr ?_ hm); exact rfl) | with_reducible apply Keeps.ite | with_reducible apply KeepsR.ok | with_reducible apply KeepsR.ite | with_reducible apply State.failAll_keeps | with_reducible apply State.dieReset_keeps | with_reducible apply State.causeSet_keeps | with_reducible apply State.startup_keeps | split | with_reducible refine Keeps.eqNext (by assumption) ?_ | ((with_reducible refine Sub.blk _ ?_ hm); exact rfl)

theorem State.bootFinish_keeps {s0 : Orig} {s : State} (h : Keeps s0 s)  (hm : Sub 2305844108726371328 s0.m) : Keeps s0 (State.bootFinish s) := by
  unfold State.bootFinish
  try dsimp only
  repeat' first | with_reducible assumption | with_reducible intro _ | ((with_reducible refine Sub.tr ?_ hm); exact rfl) | with_reducible apply Keeps.ite | with_reducible apply State.sysMod_keeps | with_reducible apply State.setBit_keeps | with_reducible apply State.putSaf_keeps | with_reducible apply State.setBatv_keeps | split

theorem State.bootModeReq_keeps {s0 : Orig} {s : State} (h : Keeps s0 s) (m : Nat) (hm : Sub 2972524738837221258 s0.m) : KeepsP s0 (State.bootModeReq s m) := by
  unfold State.bootModeReq
  try dsimp only
  repeat' first | with_reducible assumption | with_reducible intro _ | ((with_reducible refine Sub.tr ?_ hm); exact rfl) | with_reducible apply Keeps.ite | with_reducible apply KeepsR.ok | with_reducible apply KeepsR.ite | with_reducible apply KeepsP.ite | with_reducible apply refuse_keeps | with_reducible apply State.bootFinish_keeps | with_reducible apply State.sysMod_keeps | with_reducible apply done_keeps | with_reducible apply State.enterMode_keeps | with_reducible apply ok_keeps | with_reducible apply State.dormantBegin_keeps | simp -zeta only [KeepsP.pair, KeepsQ.pair] | with_reducible apply KeepsP.fst | split | with_reducible refine Keeps.eqFst (by assumption) ?_ | with_reducible refine Keeps.eqNext (by assumption) ?_

theorem execModeReq_keeps {s0 : Orig} {s : State} (h : Keeps s0 s) (svcEn : Bool) (hm : Sub 2972524738837221258 s0.m) : KeepsR s0 (execModeReq svcEn s) := by
  unfold execModeReq
  try dsimp only
  repeat' first | with_reducible assumption | with_reducible intro _ | ((with_reducible refine Sub.tr ?_ hm); exact rfl) | with_reducible apply Keeps.ite | with_reducible apply KeepsR.ok | with_reducible apply KeepsR.ite | with_reducible apply KeepsP.ite | with_reducible apply State.sysMod_keeps | with_reducible apply ok_keeps | with_reducible apply State.command_keeps | with_reducible apply State.bootModeReq_keeps | with_reducible apply State.modeReq_keeps | simp -zeta only [KeepsP.pair, KeepsQ.pair] | with_reducible apply KeepsP.fst | split | with_reducible refine Keeps.eqFst (by assumption) ?_ | with_reducible refine Keeps.eqNext (by assumption) ?_

theorem execSupplyQualified_keeps {s0 : Orig} {s : State} (h : Keeps s0 s) (e : BootEnv) (hm : Sub 36893488147419103230 s0.m) : KeepsR s0 (execSupplyQualified e s) := by
  unfold execSupplyQualified
  try dsimp only
  repeat' first | with_reducible assumption | with_reducible intro _ | ((with_reducible refine Sub.tr ?_ hm); exact rfl) | with_reducible apply Keeps.ite | with_reducible apply KeepsR.ok | with_reducible apply KeepsR.ite | with_reducible apply ok_keeps | with_reducible apply State.powerOn_keeps | with_reducible apply State.wakeUp_keeps | split | with_reducible refine Keeps.eqNext (by assumption) ?_ | ((with_reducible refine Sub.blk _ ?_ hm); exact rfl)

theorem State.wakeIf_keeps {s0 : Orig} {s : State} (h : Keeps s0 s) (cause : Nat) (e : BootEnv) (hm : Sub 36893488147419103230 s0.m) : Keeps s0 (State.wakeIf s cause e) := by
  unfold State.wakeIf
  try dsimp only
  repeat' first | with_reducible assumption | with_reducible intro _ | ((with_reducible refine Sub.tr ?_ hm); exact rfl) | with_reducible apply Keeps.ite | with_reducible apply State.wakeTry_keeps | split | ((with_reducible refine Sub.blk _ ?_ hm); exact rfl)

theorem execWakeInputRise_keeps {s0 : Orig} {s : State} (h : Keeps s0 s) (p : WakePin) (e : BootEnv) (hm : Sub 36893488147419103230 s0.m) : KeepsR s0 (execWakeInputRise p e s) := by
  unfold execWakeInputRise
  try dsimp only
  repeat' first | with_reducible assumption | with_reducible intro _ | ((with_reducible refine Sub.tr ?_ hm); exact rfl) | with_reducible apply Keeps.ite | with_reducible apply KeepsR.ok | with_reducible apply KeepsR.ite | with_reducible apply ok_keeps | with_reducible apply State.wakeTry_keeps | with_reducible apply State.setPin_keeps | with_reducible apply State.lightsTo_keeps | split | with_reducible refine Keeps.eqNext (by assumption) ?_ | ((with_reducible refine Sub.blk _ ?_ hm); exact rfl)

theorem execWakeTimerExpired_keeps {s0 : Orig} {s : State} (h : Keeps s0 s) (e : BootEnv) (hm : Sub 36893488147419103230 s0.m) : KeepsR s0 (execWakeTimerExpired e s) := by
  unfold execWakeTimerExpired
  try dsimp only
  repeat' first | with_reducible assumption | with_reducible intro _ | ((with_reducible refine Sub.tr ?_ hm); exact rfl) | with_reducible apply Keeps.ite | with_reducible apply KeepsR.ok | with_reducible apply KeepsR.ite | with_reducible apply ok_keeps | with_reducible apply State.wakeIf_keeps | split | with_reducible refine Keeps.eqNext (by assumption) ?_ | ((with_reducible refine Sub.blk _ ?_ hm); exact rfl)

theorem execCanBusWake_keeps {s0 : Orig} {s : State} (h : Keeps s0 s) (n : Fin 8) (e : BootEnv) (hm : Sub 36893488147419103230 s0.m) : KeepsR s0 (execCanBusWake n e s) := by
  unfold execCanBusWake
  try dsimp only
  repeat' first | with_reducible assumption | with_reducible intro _ | ((with_reducible refine Sub.tr ?_ hm); exact rfl) | with_reducible apply Keeps.ite | with_reducible apply KeepsR.ok | with_reducible apply KeepsR.ite | with_reducible apply ok_keeps | with_reducible apply State.wakeIf_keeps | split | with_reducible refine Keeps.eqNext (by assumption) ?_ | ((with_reducible refine Sub.blk _ ?_ hm); exact rfl)

theorem execEthLinkWake_keeps {s0 : Orig} {s : State} (h : Keeps s0 s) (p : Fin 5) (e : BootEnv) (hm : Sub 36893488147419103230 s0.m) : KeepsR s0 (execEthLinkWake p e s) := by
  unfold execEthLinkWake
  try dsimp only
  repeat' first | with_reducible assumption | with_reducible intro _ | ((with_reducible refine Sub.tr ?_ hm); exact rfl) | with_reducible apply Keeps.ite | with_reducible apply KeepsR.ok | with_reducible apply KeepsR.ite | with_reducible apply ok_keeps | with_reducible apply State.wakeIf_keeps | split | with_reducible refine Keeps.eqNext (by assumption) ?_ | ((with_reducible refine Sub.blk _ ?_ hm); exact rfl)

theorem execDormantEntryWake_keeps {s0 : Orig} {s : State} (h : Keeps s0 s) (p : WakePin) (late : Bool) (k : Fin 5) (e : BootEnv) (hm : Sub 36893488147419103230 s0.m) : KeepsR s0 (execDormantEntryWake p late k e s) := by
  unfold execDormantEntryWake
  try dsimp only
  repeat' first | with_reducible assumption | with_reducible intro _ | ((with_reducible refine Sub.tr ?_ hm); exact rfl) | with_reducible apply Keeps.ite | with_reducible apply KeepsR.ok | with_reducible apply KeepsR.ite | with_reducible apply ok_keeps | with_reducible apply State.dormantFinish_keeps | with_reducible apply State.wakeTry_keeps | with_reducible apply State.dormantStores_keeps | with_reducible apply State.setPin_keeps | with_reducible apply State.sysMod_keeps | with_reducible apply State.cmdEndIf_keeps | with_reducible apply State.enterMode_keeps | split | with_reducible refine Keeps.eqNext (by assumption) ?_ | ((with_reducible refine Sub.blk _ ?_ hm); exact rfl)

theorem execStartupWatchdog_keeps {s0 : Orig} {s : State} (h : Keeps s0 s) (e : BootEnv) (hm : Sub 36893487872524419070 s0.m) : KeepsR s0 (execStartupWatchdog e s) := by
  unfold execStartupWatchdog
  try dsimp only
  repeat' first | with_reducible assumption | with_reducible intro _ | ((with_reducible refine Sub.tr ?_ hm); exact rfl) | with_reducible apply Keeps.ite | with_reducible apply KeepsR.ok | with_reducible apply KeepsR.ite | with_reducible apply ok_keeps | with_reducible apply State.coreReset_keeps | split | with_reducible refine Keeps.eqNext (by assumption) ?_ | ((with_reducible refine Sub.blk _ ?_ hm); exact rfl)

theorem execCoreReset_keeps {s0 : Orig} {s : State} (h : Keeps s0 s) (e : BootEnv) (hm : Sub 36893487872524419070 s0.m) : KeepsR s0 (execCoreReset e s) := by
  unfold execCoreReset
  try dsimp only
  repeat' first | with_reducible assumption | with_reducible intro _ | ((with_reducible refine Sub.tr ?_ hm); exact rfl) | with_reducible apply Keeps.ite | with_reducible apply KeepsR.ok | with_reducible apply KeepsR.ite | with_reducible apply KeepsP.ite | with_reducible apply ok_keeps | with_reducible apply State.coreReset_keeps | with_reducible apply State.command_keeps | with_reducible apply refuse_keeps | simp -zeta only [KeepsP.pair, KeepsQ.pair] | with_reducible apply KeepsP.fst | split | with_reducible refine Keeps.eqFst (by assumption) ?_ | with_reducible refine Keeps.eqNext (by assumption) ?_ | ((with_reducible refine Sub.blk _ ?_ hm); exact rfl)

theorem execThermalRestart_keeps {s0 : Orig} {s : State} (h : Keeps s0 s) (e : BootEnv) (hm : Sub 36893487872524419070 s0.m) : KeepsR s0 (execThermalRestart e s) := by
  unfold execThermalRestart
  try dsimp only
  repeat' first | with_reducible assumption | with_reducible intro _ | ((with_reducible refine Sub.tr ?_ hm); exact rfl) | with_reducible apply Keeps.ite | with_reducible apply KeepsR.ok | with_reducible apply KeepsR.ite | with_reducible apply State.pass_keeps | with_reducible apply ok_keeps | with_reducible apply State.setPhase_keeps | with_reducible apply State.dieReset_keeps | with_reducible apply State.causeSet_keeps | with_reducible apply State.startup_keeps | split | with_reducible refine Keeps.eqNext (by assumption) ?_ | ((with_reducible refine Sub.blk _ ?_ hm); exact rfl)

theorem execDrawerSet_keeps {s0 : Orig} {s : State} (h : Keeps s0 s)  (hm : Sub 288230926713094154 s0.m) : KeepsR s0 (execDrawerSet s) := by
  unfold execDrawerSet
  try dsimp only
  repeat' first | with_reducible assumption | with_reducible intro _ | ((with_reducible refine Sub.tr ?_ hm); exact rfl) | with_reducible apply Keeps.ite | with_reducible apply KeepsR.ok | with_reducible apply KeepsR.ite | with_reducible apply KeepsP.ite | with_reducible apply ok_keeps | with_reducible apply State.command_keeps | with_reducible apply refuse_keeps | with_reducible apply done_keeps | with_reducible apply State.putNv_keeps | simp -zeta only [KeepsP.pair, KeepsQ.pair] | with_reducible apply KeepsP.fst | split | with_reducible refine Keeps.eqFst (by assumption) ?_ | with_reducible refine Keeps.eqNext (by assumption) ?_

end Sys2Proof.Machine
end

