-- ==== Sys2Proof/Laws/KeepsChannels.lean ====
section
/-! SUPPORT. The operations of Machine/Channels.lean keep the queue of commands and the canonical form, and change no part outside
their footprint. -/

set_option linter.unusedSimpArgs false
set_option linter.unusedVariables false
set_option Elab.async false

namespace Sys2Proof.Machine

theorem State.chTrap_keeps {s0 : Orig} {s : State} (h : Keeps s0 s) (a : Agent) (reason c : Nat) (hm : Sub 1651952058378 s0.m := by first | assumption | exact Sub.tr rfl (by assumption)) : Keeps s0 (State.chTrap s a reason c) := by
  unfold State.chTrap
  try dsimp only
  repeat' first | with_reducible assumption | with_reducible intro _ | ((with_reducible refine Sub.tr ?_ hm); exact rfl) | with_reducible apply Keeps.ite | with_reducible apply State.takeTrap_keeps | split

theorem State.chSend_keeps {s0 : Orig} {s t : State} (h : Keeps s0 s) (n : Fin 258) (c : Nat) (x v : Dword)
    (e : s.chSend n c x = .ok t v) (hm : Sub 1902142292234 s0.m := by first | assumption | exact Sub.tr rfl (by assumption)) : Keeps s0 t := by
  unfold State.chSend at e
  split at e
  · cases e
  · split at e
    · cases e
    · dsimp only at e
      split at e
      · cases e; exact State.setFifo_keeps h _ _ _
      · cases e
  · cases e; exact State.putPorts_keeps h _
  · dsimp only at e
    split at e
    · cases e
    · cases e; exact State.progStore_keeps (State.progStore_keeps (State.drainStores_keeps h _) _ _ _) _ _ _
  · cases e

theorem State.sendBody_keeps {s0 : Orig} {s : State} (h : Keeps s0 s) (t : Fin 258) (w : BitVec 26) (hm : Sub 1902142292234 s0.m := by first | assumption | exact Sub.tr rfl (by assumption)) : Keeps s0 (State.sendBody s t w) := by
  unfold State.sendBody
  dsimp only
  refine Keeps.ite (State.illegal_keeps h _ _ _) ?_
  have k : Keeps s0 (if (fFn w).testBit 1 then s.drainStores (.tile t) else s) := Keeps.ite (State.drainStores_keeps h _) h
  generalize (if (fFn w).testBit 1 then s.drainStores (.tile t) else s) = s1 at k ⊢
  split
  · rename_i s2 _ e
    have k2 := State.chSend_keeps k _ _ _ _ e
    exact State.next_keeps (Keeps.ite (State.setG_keeps k2 _ _ _) k2) _
  · exact Keeps.ite (State.next_keeps (State.setG_keeps k _ _ _) _) (State.setBlocked_keeps k _ _)
  · exact State.chTrap_keeps k _ _ _

theorem State.chRecv_keeps {s0 : Orig} {s t : State} (h : Keeps s0 s) (n : Fin 258) (c : Nat) (v : Dword)
    (e : s.chRecv n c = .ok t v) (hm : Sub 1867782553866 s0.m := by first | assumption | exact Sub.tr rfl (by assumption)) : Keeps s0 t := by
  unfold State.chRecv at e
  split at e
  · cases e
  · split at e
    · dsimp only at e
      split at e
      · cases e
      · cases e; exact State.setFifo_keeps h _ _ _
    · cases e
  · dsimp only at e
    split at e
    · cases e
    · cases e; exact State.setFifo_keeps h _ _ _
  · dsimp only at e
    split at e
    · cases e
    · cases e; exact State.progStore_keeps (State.drainStores_keeps h _) _ _ _
  · cases e

theorem State.recvBody_keeps {s0 : Orig} {s : State} (h : Keeps s0 s) (t : Fin 258) (w : BitVec 26) (hm : Sub 1867782553866 s0.m := by first | assumption | exact Sub.tr rfl (by assumption)) : Keeps s0 (State.recvBody s t w) := by
  unfold State.recvBody
  dsimp only
  refine Keeps.ite (State.illegal_keeps h _ _ _) ?_
  split
  · exact State.next_keeps (State.setG_keeps (State.chRecv_keeps h _ _ _ (by assumption)) _ _ _) _
  · exact State.setBlocked_keeps h _ _
  · exact State.chTrap_keeps h _ _ _

theorem State.tileIssue_keeps {s0 : Orig} {s : State} (h : Keeps s0 s) (a : Agent) (op : Nat) (w : BitVec 26) (body : Fin 258 → State → State) (hbody : ∀ x0 x1, Keeps s0 x1 → Keeps s0 (body x0 x1)) (hm : Sub 1656247025674 s0.m) : Keeps s0 (State.tileIssue s a op w body) := by
  unfold State.tileIssue
  try dsimp only
  repeat' first | with_reducible assumption | with_reducible intro _ | ((with_reducible refine Sub.tr ?_ hm); exact rfl) | with_reducible apply hbody | with_reducible apply Keeps.ite | with_reducible apply State.issue_keeps | with_reducible apply State.illegal_keeps | split

theorem State.retry_keeps {s0 : Orig} {s : State} (h : Keeps s0 s) (t : Fin 258) (body : State → State) (hbody : ∀ x0, Keeps s0 x0 → Keeps s0 (body x0)) (hm : Sub 2147483648 s0.m := by first | assumption | exact Sub.tr rfl (by assumption)) : Keeps s0 (State.retry s t body) := by
  unfold State.retry
  try dsimp only
  repeat' first | with_reducible assumption | with_reducible intro _ | ((with_reducible refine Sub.tr ?_ hm); exact rfl) | with_reducible apply hbody | with_reducible apply Keeps.ite | with_reducible apply State.setBlocked_keeps | split

theorem execSend_keeps {s0 : Orig} {s : State} (h : Keeps s0 s) (a : Agent) (w : BitVec 26) (hm : Sub 1906437259530 s0.m) : KeepsR s0 (execSend a w s) := by
  unfold execSend
  try dsimp only
  repeat' first | with_reducible assumption | with_reducible intro _ | ((with_reducible refine Sub.tr ?_ hm); exact rfl) | with_reducible apply Keeps.ite | with_reducible apply KeepsR.ok | with_reducible apply KeepsR.ite | with_reducible apply ok_keeps | with_reducible apply State.tileIssue_keeps | with_reducible apply State.sendBody_keeps | split | with_reducible refine Keeps.eqNext (by assumption) ?_

theorem execSendUnblock_keeps {s0 : Orig} {s : State} (h : Keeps s0 s) (t : Fin 258) (hm : Sub 1902142292234 s0.m) : KeepsR s0 (execSendUnblock t s) := by
  unfold execSendUnblock
  try dsimp only
  repeat' first | with_reducible assumption | with_reducible intro _ | ((with_reducible refine Sub.tr ?_ hm); exact rfl) | with_reducible apply Keeps.ite | with_reducible apply KeepsR.ok | with_reducible apply KeepsR.ite | with_reducible apply ok_keeps | with_reducible apply State.retry_keeps | with_reducible apply State.sendBody_keeps | split | with_reducible refine Keeps.eqNext (by assumption) ?_

theorem execRecv_keeps {s0 : Orig} {s : State} (h : Keeps s0 s) (a : Agent) (w : BitVec 26) (hm : Sub 1872077521162 s0.m) : KeepsR s0 (execRecv a w s) := by
  unfold execRecv
  try dsimp only
  repeat' first | with_reducible assumption | with_reducible intro _ | ((with_reducible refine Sub.tr ?_ hm); exact rfl) | with_reducible apply Keeps.ite | with_reducible apply KeepsR.ok | with_reducible apply KeepsR.ite | with_reducible apply ok_keeps | with_reducible apply State.tileIssue_keeps | with_reducible apply State.recvBody_keeps | split | with_reducible refine Keeps.eqNext (by assumption) ?_

theorem execRecvUnblock_keeps {s0 : Orig} {s : State} (h : Keeps s0 s) (t : Fin 258) (hm : Sub 1867782553866 s0.m) : KeepsR s0 (execRecvUnblock t s) := by
  unfold execRecvUnblock
  try dsimp only
  repeat' first | with_reducible assumption | with_reducible intro _ | ((with_reducible refine Sub.tr ?_ hm); exact rfl) | with_reducible apply Keeps.ite | with_reducible apply KeepsR.ok | with_reducible apply KeepsR.ite | with_reducible apply ok_keeps | with_reducible apply State.retry_keeps | with_reducible apply State.recvBody_keeps | split | with_reducible refine Keeps.eqNext (by assumption) ?_

theorem State.pickBody_keeps {s0 : Orig} {s : State} (h : Keeps s0 s) (t : Fin 258) (w : BitVec 26) (hm : Sub 1669131927562 s0.m := by first | assumption | exact Sub.tr rfl (by assumption)) : Keeps s0 (State.pickBody s t w) := by
  unfold State.pickBody
  try dsimp only
  repeat' first | with_reducible assumption | with_reducible intro _ | ((with_reducible refine Sub.tr ?_ hm); exact rfl) | with_reducible apply Keeps.ite | with_reducible apply State.illegal_keeps | with_reducible apply State.chTrap_keeps | with_reducible apply ok_keeps | with_reducible apply State.setG_keeps | with_reducible apply State.next_keeps | with_reducible apply State.putPickLast_keeps | with_reducible apply State.setBlocked_keeps | split

theorem execPick_keeps {s0 : Orig} {s : State} (h : Keeps s0 s) (a : Agent) (w : BitVec 26) (hm : Sub 1673426894858 s0.m) : KeepsR s0 (execPick a w s) := by
  unfold execPick
  try dsimp only
  repeat' first | with_reducible assumption | with_reducible intro _ | ((with_reducible refine Sub.tr ?_ hm); exact rfl) | with_reducible apply Keeps.ite | with_reducible apply KeepsR.ok | with_reducible apply KeepsR.ite | with_reducible apply ok_keeps | with_reducible apply State.tileIssue_keeps | with_reducible apply State.pickBody_keeps | split | with_reducible refine Keeps.eqNext (by assumption) ?_

theorem execPickUnblock_keeps {s0 : Orig} {s : State} (h : Keeps s0 s) (t : Fin 258) (hm : Sub 1669131927562 s0.m) : KeepsR s0 (execPickUnblock t s) := by
  unfold execPickUnblock
  try dsimp only
  repeat' first | with_reducible assumption | with_reducible intro _ | ((with_reducible refine Sub.tr ?_ hm); exact rfl) | with_reducible apply Keeps.ite | with_reducible apply KeepsR.ok | with_reducible apply KeepsR.ite | with_reducible apply ok_keeps | with_reducible apply State.retry_keeps | with_reducible apply State.pickBody_keeps | split | with_reducible refine Keeps.eqNext (by assumption) ?_

theorem execRingReread_keeps {s0 : Orig} {s : State} (h : Keeps s0 s) (t : Fin 258) (hm : Sub 1919322161418 s0.m := by first | assumption | exact Sub.tr rfl (by assumption)) : KeepsR s0 (execRingReread t s) := by
  unfold execRingReread
  generalize (s.cpu (.tile t)).blocked = b
  cases b
  case send w => exact KeepsR.ite (KeepsR.ok (State.retry_keeps h t _ (fun _ k => State.sendBody_keeps k t w))) (KeepsR.ok h)
  case recv w => exact KeepsR.ite (KeepsR.ok (State.retry_keeps h t _ (fun _ k => State.recvBody_keeps k t w))) (KeepsR.ok h)
  case pick w => exact KeepsR.ok (State.retry_keeps h t _ (fun _ k => State.pickBody_keeps k t w))
  all_goals exact KeepsR.ok h

theorem State.waittBody_keeps {s0 : Orig} {s : State} (h : Keeps s0 s) (a : Agent) (w : BitVec 26) (hm : Sub 1101793329152 s0.m := by first | assumption | exact Sub.tr rfl (by assumption)) : Keeps s0 (State.waittBody s a w) :=
  Keeps.ite (State.next_keeps (State.setG_keeps (KeepsQ.snd (State.nowOf_keeps h _ _)) _ _ _) _) (State.setBlocked_keeps h _ _)

theorem execWaitt_keeps {s0 : Orig} {s : State} (h : Keeps s0 s) (a : Agent) (w : BitVec 26) (hm : Sub 1656381243402 s0.m) : KeepsR s0 (execWaitt a w s) := by
  unfold execWaitt
  try dsimp only
  repeat' first | with_reducible assumption | with_reducible intro _ | ((with_reducible refine Sub.tr ?_ hm); exact rfl) | with_reducible apply Keeps.ite | with_reducible apply KeepsR.ok | with_reducible apply KeepsR.ite | with_reducible apply ok_keeps | with_reducible apply State.issue_keeps | with_reducible apply State.illegal_keeps | with_reducible apply State.waittBody_keeps | split | with_reducible refine Keeps.eqNext (by assumption) ?_

theorem execWaittExpire_keeps {s0 : Orig} {s : State} (h : Keeps s0 s) (a : Agent) (hm : Sub 1101793329152 s0.m) : KeepsR s0 (execWaittExpire a s) := by
  unfold execWaittExpire
  try dsimp only
  repeat' first | with_reducible assumption | with_reducible intro _ | ((with_reducible refine Sub.tr ?_ hm); exact rfl) | with_reducible apply Keeps.ite | with_reducible apply KeepsR.ok | with_reducible apply KeepsR.ite | with_reducible apply ok_keeps | with_reducible apply State.setBlocked_keeps | with_reducible apply State.waittBody_keeps | split | with_reducible refine Keeps.eqNext (by assumption) ?_

theorem execChstat_keeps {s0 : Orig} {s : State} (h : Keeps s0 s) (a : Agent) (w : BitVec 26) (hm : Sub 1656247025674 s0.m) : KeepsR s0 (execChstat a w s) := by
  unfold execChstat
  try dsimp only
  repeat' first | with_reducible assumption | with_reducible intro _ | ((with_reducible refine Sub.tr ?_ hm); exact rfl) | with_reducible apply Keeps.ite | with_reducible apply KeepsR.ok | with_reducible apply KeepsR.ite | with_reducible apply ok_keeps | with_reducible apply State.tileIssue_keeps | with_reducible apply State.illegal_keeps | with_reducible apply State.setG_keeps | with_reducible apply State.next_keeps | with_reducible apply State.chTrap_keeps | split | with_reducible refine Keeps.eqNext (by assumption) ?_

theorem State.portWrite_keeps {s0 : Orig} {s : State} (h : Keeps s0 s) (p : Nat) (v : Dword) (hm : Sub 13950867736346 s0.m) : Keeps s0 (State.portWrite s p v) := by
  unfold State.portWrite
  try dsimp only
  repeat' first | with_reducible assumption | with_reducible intro _ | ((with_reducible refine Sub.tr ?_ hm); exact rfl) | with_reducible apply Keeps.ite | with_reducible apply State.lpeWrite_keeps | with_reducible apply State.vlvProgIn_keeps | with_reducible apply State.swreq_keeps | with_reducible apply State.wr_keeps | split

theorem execEnginePortWord_keeps {s0 : Orig} {s : State} (h : Keeps s0 s) (port : Fin 256) (hm : Sub 13985227474714 s0.m) : KeepsR s0 (execEnginePortWord port s) := by
  unfold execEnginePortWord
  try dsimp only
  repeat' first | with_reducible assumption | with_reducible intro _ | ((with_reducible refine Sub.tr ?_ hm); exact rfl) | with_reducible apply Keeps.ite | with_reducible apply KeepsR.ok | with_reducible apply KeepsR.ite | with_reducible apply ok_keeps | with_reducible apply State.putPorts_keeps | with_reducible apply State.portWrite_keeps | split | with_reducible refine Keeps.eqNext (by assumption) ?_

theorem State.tileStart_keeps {s0 : Orig} {s : State} (h : Keeps s0 s) (t : Nat) (hm : Sub 2147483650 s0.m) : Keeps s0 (State.tileStart s t) := by
  unfold State.tileStart
  try dsimp only
  repeat' first | with_reducible assumption | with_reducible intro _ | ((with_reducible refine Sub.tr ?_ hm); exact rfl) | with_reducible apply Keeps.ite | with_reducible apply State.setF_keeps | with_reducible apply State.setCpu_keeps | split

theorem execTileRelease_keeps {s0 : Orig} {s : State} (h : Keeps s0 s)  (hm : Sub 552708866058 s0.m) : KeepsR s0 (execTileRelease s) := by
  unfold execTileRelease
  try dsimp only
  repeat' first | with_reducible assumption | with_reducible intro _ | ((with_reducible refine Sub.tr ?_ hm); exact rfl) | with_reducible apply Keeps.ite | with_reducible apply KeepsR.ok | with_reducible apply KeepsR.ite | with_reducible apply KeepsP.ite | with_reducible apply State.each_keeps | with_reducible apply ok_keeps | with_reducible apply State.command_keeps | with_reducible apply refuse_keeps | with_reducible apply done_keeps | with_reducible apply State.tileStart_keeps | simp -zeta only [KeepsP.pair, KeepsQ.pair] | with_reducible apply KeepsP.fst | split | with_reducible refine Keeps.eqFst (by assumption) ?_ | with_reducible refine Keeps.eqNext (by assumption) ?_

theorem State.tileDiscard_keeps {s0 : Orig} {s : State} (h : Keeps s0 s) (t : Nat) (hm : Sub 1653025800202 s0.m) : Keeps s0 (State.tileDiscard s t) := by
  unfold State.tileDiscard
  try dsimp only
  repeat' first | with_reducible assumption | with_reducible intro _ | ((with_reducible refine Sub.tr ?_ hm); exact rfl) | with_reducible apply Keeps.ite | with_reducible apply State.each_keeps | with_reducible apply State.putFifo_keeps | with_reducible apply State.chTrap_keeps | split

theorem execTileHalt_keeps {s0 : Orig} {s : State} (h : Keeps s0 s)  (hm : Sub 1653294235658 s0.m) : KeepsR s0 (execTileHalt s) := by
  unfold execTileHalt
  try dsimp only
  repeat' first | with_reducible assumption | with_reducible intro _ | ((with_reducible refine Sub.tr ?_ hm); exact rfl) | with_reducible apply Keeps.ite | with_reducible apply KeepsR.ok | with_reducible apply KeepsR.ite | with_reducible apply KeepsP.ite | with_reducible apply State.each_keeps | with_reducible apply ok_keeps | with_reducible apply State.command_keeps | with_reducible apply refuse_keeps | with_reducible apply done_keeps | with_reducible apply State.tileHalt_keeps | with_reducible apply State.setBlocked_keeps | with_reducible apply State.tileDiscard_keeps | simp -zeta only [KeepsP.pair, KeepsQ.pair] | with_reducible apply KeepsP.fst | split | with_reducible refine Keeps.eqFst (by assumption) ?_ | with_reducible refine Keeps.eqNext (by assumption) ?_

theorem execTileReset_keeps {s0 : Orig} {s : State} (h : Keeps s0 s)  (hm : Sub 1653294235658 s0.m) : KeepsR s0 (execTileReset s) := by
  unfold execTileReset
  try dsimp only
  repeat' first | with_reducible assumption | with_reducible intro _ | ((with_reducible refine Sub.tr ?_ hm); exact rfl) | with_reducible apply Keeps.ite | with_reducible apply KeepsR.ok | with_reducible apply KeepsR.ite | with_reducible apply KeepsP.ite | with_reducible apply State.each_keeps | with_reducible apply ok_keeps | with_reducible apply State.command_keeps | with_reducible apply refuse_keeps | with_reducible apply done_keeps | with_reducible apply State.setF_keeps | with_reducible apply State.setCpu_keeps | with_reducible apply State.tileDiscard_keeps | simp -zeta only [KeepsP.pair, KeepsQ.pair] | with_reducible apply KeepsP.fst | split | with_reducible refine Keeps.eqFst (by assumption) ?_ | with_reducible refine Keeps.eqNext (by assumption) ?_

theorem execHostRelease_keeps {s0 : Orig} {s : State} (h : Keeps s0 s)  (hm : Sub 552708866058 s0.m) : KeepsR s0 (execHostRelease s) := by
  unfold execHostRelease
  try dsimp only
  repeat' first | with_reducible assumption | with_reducible intro _ | ((with_reducible refine Sub.tr ?_ hm); exact rfl) | with_reducible apply Keeps.ite | with_reducible apply KeepsR.ok | with_reducible apply KeepsR.ite | with_reducible apply KeepsP.ite | with_reducible apply State.each_keeps | with_reducible apply ok_keeps | with_reducible apply State.command_keeps | with_reducible apply done_keeps | with_reducible apply State.hostStart_keeps | simp -zeta only [KeepsP.pair, KeepsQ.pair] | with_reducible apply KeepsP.fst | split | with_reducible refine Keeps.eqFst (by assumption) ?_ | with_reducible refine Keeps.eqNext (by assumption) ?_

end Sys2Proof.Machine
end

