-- ==== Sys2Proof/Laws/KeepsPair.lean ====
section
/-! SUPPORT. The operations of Machine/Pair.lean keep the queue of commands and the canonical form, and change no part outside
their footprint. -/

set_option linter.unusedSimpArgs false
set_option linter.unusedVariables false
set_option Elab.async false

namespace Sys2Proof.Machine

theorem execComparatorMismatch_keeps {s0 : Orig} {s : State} (h : Keeps s0 s)  (hm : Sub 8247280143370 s0.m) : KeepsR s0 (execComparatorMismatch s) := by
  unfold execComparatorMismatch
  try dsimp only
  repeat' first | with_reducible assumption | with_reducible intro _ | ((with_reducible refine Sub.tr ?_ hm); exact rfl) | with_reducible apply Keeps.ite | with_reducible apply KeepsR.ok | with_reducible apply KeepsR.ite | with_reducible apply ok_keeps | with_reducible apply State.safetyFault_keeps | split | with_reducible refine Keeps.eqNext (by assumption) ?_

theorem State.pairSample_keeps {s0 : Orig} {s : State} (h : Keeps s0 s) (code src : Nat) (a b : Int) (hm : Sub 2377908850632428554 s0.m) : Keeps s0 (State.pairSample s code src a b) := by
  unfold State.pairSample
  try dsimp only
  repeat' first | with_reducible assumption | with_reducible intro _ | ((with_reducible refine Sub.tr ?_ hm); exact rfl) | with_reducible apply Keeps.ite | with_reducible apply State.pass_keeps | with_reducible apply State.putSaf_keeps | with_reducible apply State.incF_keeps | with_reducible apply State.safetyFault_keeps | split

theorem execSafetyCheckFault_keeps {s0 : Orig} {s : State} (h : Keeps s0 s) (code : Byte) (src : CheckSamples) (hm : Sub 2377908850632428554 s0.m) : KeepsR s0 (execSafetyCheckFault code src s) := by
  unfold execSafetyCheckFault
  try dsimp only
  repeat' first | with_reducible assumption | with_reducible intro _ | ((with_reducible refine Sub.tr ?_ hm); exact rfl) | with_reducible apply Keeps.ite | with_reducible apply KeepsR.ok | with_reducible apply KeepsR.ite | with_reducible apply State.each_keeps | with_reducible apply ok_keeps | with_reducible apply State.pairSample_keeps | split | with_reducible refine Keeps.eqNext (by assumption) ?_

theorem State.testDue_keeps {s0 : Orig} {s : State} (h : Keeps s0 s) (last : Option Nat) (ns : Nat) (hm : Sub 72057594138591232 s0.m) : Keeps s0 (State.testDue s last ns) := by
  unfold State.testDue
  try dsimp only
  repeat' first | with_reducible assumption | with_reducible intro _ | ((with_reducible refine Sub.tr ?_ hm); exact rfl) | with_reducible apply Keeps.ite | with_reducible apply State.pass_keeps | split

theorem execComparatorSelfTest_keeps {s0 : Orig} {s : State} (h : Keeps s0 s) (pass : Bool) (hm : Sub 2377908850632428554 s0.m) : KeepsR s0 (execComparatorSelfTest pass s) := by
  unfold execComparatorSelfTest
  try dsimp only
  repeat' first | with_reducible assumption | with_reducible intro _ | ((with_reducible refine Sub.tr ?_ hm); exact rfl) | with_reducible apply Keeps.ite | with_reducible apply KeepsR.ok | with_reducible apply KeepsR.ite | with_reducible apply ok_keeps | with_reducible apply State.testDue_keeps | with_reducible apply State.putSaf_keeps | with_reducible apply State.pass_keeps | with_reducible apply State.safetyFault_keeps | split | with_reducible refine Keeps.eqNext (by assumption) ?_

theorem execIl28FrequencyTest_keeps {s0 : Orig} {s : State} (h : Keeps s0 s) (kHz : Nat) (hm : Sub 2377908850632428558 s0.m) : KeepsR s0 (execIl28FrequencyTest kHz s) := by
  unfold execIl28FrequencyTest
  try dsimp only
  repeat' first | with_reducible assumption | with_reducible intro _ | ((with_reducible refine Sub.tr ?_ hm); exact rfl) | with_reducible apply Keeps.ite | with_reducible apply KeepsR.ok | with_reducible apply KeepsR.ite | with_reducible apply ok_keeps | with_reducible apply State.testDue_keeps | with_reducible apply State.putSaf_keeps | with_reducible apply State.wrN_keeps | with_reducible apply State.safetyFault_keeps | split | with_reducible refine Keeps.eqNext (by assumption) ?_

theorem execIslLockLoss_keeps {s0 : Orig} {s : State} (h : Keeps s0 s) (k : Fin 29) (hm : Sub 1134147186985998 s0.m) : KeepsR s0 (execIslLockLoss k s) := by
  unfold execIslLockLoss
  try dsimp only
  repeat' first | with_reducible assumption | with_reducible intro _ | ((with_reducible refine Sub.tr ?_ hm); exact rfl) | with_reducible apply Keeps.ite | with_reducible apply KeepsR.ok | with_reducible apply KeepsR.ite | with_reducible apply State.islUnlock_keeps | with_reducible apply ok_keeps | with_reducible apply State.declareFault_keeps | with_reducible apply State.drawn_keeps | split | with_reducible refine Keeps.eqNext (by assumption) ?_

theorem State.wdgGood_keeps {s0 : Orig} {s : State} (h : Keeps s0 s)  (hm : Sub 2305843009214742528 s0.m) : Keeps s0 (State.wdgGood s) := by
  unfold State.wdgGood
  try dsimp only
  repeat' first | with_reducible assumption | with_reducible intro _ | ((with_reducible refine Sub.tr ?_ hm); exact rfl) | with_reducible apply Keeps.ite | with_reducible apply State.incF_keeps | with_reducible apply State.setBit_keeps | with_reducible apply State.putSaf_keeps | split

theorem State.wdgKick_keeps {s0 : Orig} {s : State} (h : Keeps s0 s) (v : Word) (e : BootEnv) (hm : Sub 36893487872524419070 s0.m) : Keeps s0 (State.wdgKick s v e) := by
  unfold State.wdgKick
  try dsimp only
  repeat' first | with_reducible assumption | with_reducible intro _ | ((with_reducible refine Sub.tr ?_ hm); exact rfl) | with_reducible apply Keeps.ite | with_reducible apply KeepsR.ok | with_reducible apply KeepsR.ite | with_reducible apply State.wdgGood_keeps | with_reducible apply State.event_keeps | with_reducible apply State.coreReset_keeps | split | with_reducible refine Keeps.eqNext (by assumption) ?_ | ((with_reducible refine Sub.blk _ ?_ hm); exact rfl)

theorem execWdgKick_keeps {s0 : Orig} {s : State} (h : Keeps s0 s) (v : Word) (e : BootEnv) (hm : Sub 36893487872524419070 s0.m) : KeepsR s0 (execWdgKick v e s) := by
  unfold execWdgKick
  try dsimp only
  repeat' first | with_reducible assumption | with_reducible intro _ | ((with_reducible refine Sub.tr ?_ hm); exact rfl) | with_reducible apply Keeps.ite | with_reducible apply KeepsR.ok | with_reducible apply KeepsR.ite | with_reducible apply ok_keeps | with_reducible apply State.wdgKick_keeps | split | with_reducible refine Keeps.eqNext (by assumption) ?_ | ((with_reducible refine Sub.blk _ ?_ hm); exact rfl)

theorem execWdgExpiry_keeps {s0 : Orig} {s : State} (h : Keeps s0 s) (e : BootEnv) (hm : Sub 36893487872524419070 s0.m) : KeepsR s0 (execWdgExpiry e s) := by
  unfold execWdgExpiry
  try dsimp only
  repeat' first | with_reducible assumption | with_reducible intro _ | ((with_reducible refine Sub.tr ?_ hm); exact rfl) | with_reducible apply Keeps.ite | with_reducible apply KeepsR.ok | with_reducible apply KeepsR.ite | with_reducible apply ok_keeps | with_reducible apply State.pass_keeps | with_reducible apply State.coreReset_keeps | split | with_reducible refine Keeps.eqNext (by assumption) ?_ | ((with_reducible refine Sub.blk _ ?_ hm); exact rfl)

theorem State.wdgCfg_keeps {s0 : Orig} {s : State} (h : Keeps s0 s) (v : Word) (hm : Sub 1048576 s0.m) : Keeps s0 (State.wdgCfg s v) := by
  unfold State.wdgCfg
  try dsimp only
  repeat' first | with_reducible assumption | with_reducible intro _ | ((with_reducible refine Sub.tr ?_ hm); exact rfl) | with_reducible apply Keeps.ite | with_reducible apply State.wrN_keeps | split

theorem execClearLimp_keeps {s0 : Orig} {s : State} (h : Keeps s0 s) (failing : Bool) (hm : Sub 550562430984 s0.m) : KeepsR s0 (execClearLimp failing s) := by
  unfold execClearLimp
  try dsimp only
  repeat' first | with_reducible assumption | with_reducible intro _ | ((with_reducible refine Sub.tr ?_ hm); exact rfl) | with_reducible apply Keeps.ite | with_reducible apply KeepsR.ok | with_reducible apply KeepsR.ite | with_reducible apply KeepsP.ite | with_reducible apply ok_keeps | with_reducible apply State.command_keeps | with_reducible apply refuse_keeps | with_reducible apply done_keeps | with_reducible apply State.setBit_keeps | with_reducible apply State.wr_keeps | simp -zeta only [KeepsP.pair, KeepsQ.pair] | with_reducible apply KeepsP.fst | split | with_reducible refine Keeps.eqFst (by assumption) ?_ | with_reducible refine Keeps.eqNext (by assumption) ?_

theorem execCutoffTest_keeps {s0 : Orig} {s : State} (h : Keeps s0 s) (good : Bool) (hm : Sub 8247280143370 s0.m) : KeepsR s0 (execCutoffTest good s) := by
  unfold execCutoffTest
  try dsimp only
  repeat' first | with_reducible assumption | with_reducible intro _ | ((with_reducible refine Sub.tr ?_ hm); exact rfl) | with_reducible apply Keeps.ite | with_reducible apply KeepsR.ok | with_reducible apply KeepsR.ite | with_reducible apply KeepsP.ite | with_reducible apply ok_keeps | with_reducible apply State.command_keeps | with_reducible apply refuse_keeps | with_reducible apply State.setBit_keeps | with_reducible apply done_keeps | with_reducible apply State.safetyFault_keeps | simp -zeta only [KeepsP.pair, KeepsQ.pair] | with_reducible apply KeepsP.fst | split | with_reducible refine Keeps.eqFst (by assumption) ?_ | with_reducible refine Keeps.eqNext (by assumption) ?_

theorem execSafClearCounts_keeps {s0 : Orig} {s : State} (h : Keeps s0 s)  (hm : Sub 550562430984 s0.m) : KeepsR s0 (execSafClearCounts s) := by
  unfold execSafClearCounts
  try dsimp only
  repeat' first | with_reducible assumption | with_reducible intro _ | ((with_reducible refine Sub.tr ?_ hm); exact rfl) | with_reducible apply Keeps.ite | with_reducible apply KeepsR.ok | with_reducible apply KeepsR.ite | with_reducible apply KeepsP.ite | with_reducible apply State.each_keeps | with_reducible apply ok_keeps | with_reducible apply State.command_keeps | with_reducible apply done_keeps | with_reducible apply State.wr_keeps | simp -zeta only [KeepsP.pair, KeepsQ.pair] | with_reducible apply KeepsP.fst | split | with_reducible refine Keeps.eqFst (by assumption) ?_ | with_reducible refine Keeps.eqNext (by assumption) ?_

theorem State.tstKey_keeps {s0 : Orig} {s : State} (h : Keeps s0 s) (k : Option Nat) (hm : Sub 2305843009213693952 s0.m) : Keeps s0 (State.tstKey s k) := by
  unfold State.tstKey
  try dsimp only
  repeat' first | with_reducible assumption | with_reducible intro _ | ((with_reducible refine Sub.tr ?_ hm); exact rfl) | with_reducible apply Keeps.ite | with_reducible apply State.putSaf_keeps | split

theorem State.tstUnlock_keeps {s0 : Orig} {s : State} (h : Keeps s0 s) (v : Word) (hm : Sub 2305843559508738056 s0.m) : Keeps s0 (State.tstUnlock s v) := by
  unfold State.tstUnlock
  try dsimp only
  repeat' first | with_reducible assumption | with_reducible intro _ | ((with_reducible refine Sub.tr ?_ hm); exact rfl) | with_reducible apply Keeps.ite | with_reducible apply State.tstKey_keeps | with_reducible apply State.tstRelock_keeps | with_reducible apply State.setBit_keeps | split

theorem execTstUnlock_keeps {s0 : Orig} {s : State} (h : Keeps s0 s) (v : Word) (hm : Sub 2305843559508738056 s0.m) : KeepsR s0 (execTstUnlock v s) := by
  unfold execTstUnlock
  try dsimp only
  repeat' first | with_reducible assumption | with_reducible intro _ | ((with_reducible refine Sub.tr ?_ hm); exact rfl) | with_reducible apply Keeps.ite | with_reducible apply KeepsR.ok | with_reducible apply KeepsR.ite | with_reducible apply ok_keeps | with_reducible apply State.tstUnlock_keeps | split | with_reducible refine Keeps.eqNext (by assumption) ?_

theorem State.tstWrite_keeps {s0 : Orig} {s : State} (h : Keeps s0 s) (o : Nat) (w : Word) (hm : Sub 2097152 s0.m) : Keeps s0 (State.tstWrite s o w) := by
  unfold State.tstWrite
  try dsimp only
  repeat' first | with_reducible assumption | with_reducible intro _ | ((with_reducible refine Sub.tr ?_ hm); exact rfl) | with_reducible apply Keeps.ite | with_reducible apply State.wr_keeps | with_reducible apply State.setBit_keeps | split

end Sys2Proof.Machine
end

