-- ==== Sys2Proof/Laws/KeepsMailbox.lean ====
section
/-! SUPPORT. The operations of Machine/Mailbox.lean keep the queue of commands and the canonical form, and change no part outside
their footprint. -/

set_option linter.unusedSimpArgs false
set_option linter.unusedVariables false
set_option Elab.async false

namespace Sys2Proof.Machine

theorem Res.state_keeps {s0 : Orig} {s : State} {r : Res} (h : Keeps s0 s) (k : KeepsR s0 r) : Keeps s0 (Res.state r s) := by
  unfold Res.state
  split
  · exact k _ rfl
  · exact h

theorem State.mailSYS_keeps {s0 : Orig} {s : State} (h : Keeps s0 s) (c : Nat) (hm : Sub 36893487872524419070 s0.m) : Keeps s0 (State.mailSYS s c) := by
  unfold State.mailSYS
  try dsimp only
  repeat' first | with_reducible assumption | with_reducible intro _ | ((with_reducible refine Sub.tr ?_ hm); exact rfl) | with_reducible apply Keeps.ite | with_reducible apply KeepsR.ok | with_reducible apply KeepsR.ite | with_reducible apply Res.state_keeps | with_reducible apply execModeReq_keeps | with_reducible apply execDrawerSet_keeps | with_reducible apply execTileRelease_keeps | with_reducible apply execTileHalt_keeps | with_reducible apply execTileReset_keeps | with_reducible apply execHostRelease_keeps | with_reducible apply execCoreReset_keeps | with_reducible apply State.drawn_keeps | split | with_reducible refine Keeps.eqNext (by assumption) ?_ | ((with_reducible refine Sub.blk _ ?_ hm); exact rfl)

theorem State.mailPACE_keeps {s0 : Orig} {s : State} (h : Keeps s0 s) (c : Nat) (hm : Sub 1127552127336460 s0.m) : Keeps s0 (State.mailPACE s c) := by
  unfold State.mailPACE
  try dsimp only
  repeat' first | with_reducible assumption | with_reducible intro _ | ((with_reducible refine Sub.tr ?_ hm); exact rfl) | with_reducible apply Keeps.ite | with_reducible apply KeepsR.ok | with_reducible apply KeepsR.ite | with_reducible apply Res.state_keeps | with_reducible apply execPmClear_keeps | with_reducible apply execXcClear_keeps | with_reducible apply execIslRestart_keeps | with_reducible apply execGuardReset_keeps | split | with_reducible refine Keeps.eqNext (by assumption) ?_

theorem State.mailDMW_keeps {s0 : Orig} {s : State} (h : Keeps s0 s) (c : Nat) (hm : Sub 1652220493848 s0.m) : Keeps s0 (State.mailDMW s c) := by
  unfold State.mailDMW
  try dsimp only
  repeat' first | with_reducible assumption | with_reducible intro _ | ((with_reducible refine Sub.tr ?_ hm); exact rfl) | with_reducible apply Keeps.ite | with_reducible apply KeepsR.ok | with_reducible apply KeepsR.ite | with_reducible apply Res.state_keeps | with_reducible apply execDmwSwap_keeps | with_reducible apply execDmwSwapCancel_keeps | with_reducible apply execDmwClearCounts_keeps | split | with_reducible refine Keeps.eqNext (by assumption) ?_

theorem State.mailCAM_keeps {s0 : Orig} {s : State} (h : Keeps s0 s) (c : Nat) (hm : Sub 2253452168527912 s0.m) : Keeps s0 (State.mailCAM s c) := by
  unfold State.mailCAM
  try dsimp only
  repeat' first | with_reducible assumption | with_reducible intro _ | ((with_reducible refine Sub.tr ?_ hm); exact rfl) | with_reducible apply Keeps.ite | with_reducible apply KeepsR.ok | with_reducible apply KeepsR.ite | with_reducible apply Res.state_keeps | with_reducible apply execCamStart_keeps | with_reducible apply State.drawn_keeps | with_reducible apply execCamStop_keeps | with_reducible apply execParamLoad_keeps | with_reducible apply execCamClearCounts_keeps | split | with_reducible refine Keeps.eqNext (by assumption) ?_

theorem State.mailGNS_keeps {s0 : Orig} {s : State} (h : Keeps s0 s) (c : Nat) (hm : Sub 432347422614880330 s0.m) : Keeps s0 (State.mailGNS s c) := by
  unfold State.mailGNS
  try dsimp only
  repeat' first | with_reducible assumption | with_reducible intro _ | ((with_reducible refine Sub.tr ?_ hm); exact rfl) | with_reducible apply Keeps.ite | with_reducible apply KeepsR.ok | with_reducible apply KeepsR.ite | with_reducible apply Res.state_keeps | with_reducible apply execChStart_keeps | with_reducible apply execChStop_keeps | with_reducible apply execColdStart_keeps | with_reducible apply execGnsClearCounts_keeps | split | with_reducible refine Keeps.eqNext (by assumption) ?_

theorem State.mailTIM_keeps {s0 : Orig} {s : State} (h : Keeps s0 s) (c : Nat) (hm : Sub 9295431283113197704 s0.m) : Keeps s0 (State.mailTIM s c) := by
  unfold State.mailTIM
  try dsimp only
  repeat' first | with_reducible assumption | with_reducible intro _ | ((with_reducible refine Sub.tr ?_ hm); exact rfl) | with_reducible apply Keeps.ite | with_reducible apply KeepsR.ok | with_reducible apply KeepsR.ite | with_reducible apply Res.state_keeps | with_reducible apply execClearTmark_keeps | with_reducible apply execHoldoverTest_keeps | with_reducible apply execTimClearStats_keeps | split | with_reducible refine Keeps.eqNext (by assumption) ?_

theorem State.mailTBL_keeps {s0 : Orig} {s : State} (h : Keeps s0 s) (c : Nat) (hm : Sub 142458436714762 s0.m) : Keeps s0 (State.mailTBL s c) := by
  unfold State.mailTBL
  try dsimp only
  repeat' first | with_reducible assumption | with_reducible intro _ | ((with_reducible refine Sub.tr ?_ hm); exact rfl) | with_reducible apply Keeps.ite | with_reducible apply KeepsR.ok | with_reducible apply KeepsR.ite | with_reducible apply Res.state_keeps | with_reducible apply execTblStart_keeps | with_reducible apply execTblStop_keeps | with_reducible apply execAlignSwap_keeps | with_reducible apply execTblSwapCancel_keeps | with_reducible apply execTrustReset_keeps | with_reducible apply execTblClearCounts_keeps | split | with_reducible refine Keeps.eqNext (by assumption) ?_

theorem State.mailLPE_keeps {s0 : Orig} {s : State} (h : Keeps s0 s) (c : Nat) (hm : Sub 10448313516552 s0.m) : Keeps s0 (State.mailLPE s c) := by
  unfold State.mailLPE
  try dsimp only
  repeat' first | with_reducible assumption | with_reducible intro _ | ((with_reducible refine Sub.tr ?_ hm); exact rfl) | with_reducible apply Keeps.ite | with_reducible apply KeepsR.ok | with_reducible apply KeepsR.ite | with_reducible apply Res.state_keeps | with_reducible apply execLoopApply_keeps | with_reducible apply execLpeSwap_keeps | with_reducible apply execLpeSwapCancel_keeps | with_reducible apply execLpeClearFault_keeps | with_reducible apply execLpePreload_keeps | with_reducible apply execLpeClearCounts_keeps | split | with_reducible refine Keeps.eqNext (by assumption) ?_

theorem State.mailVLV_keeps {s0 : Orig} {s : State} (h : Keeps s0 s) (c : Nat) (hm : Sub 6050401223688 s0.m) : Keeps s0 (State.mailVLV s c) := by
  unfold State.mailVLV
  try dsimp only
  repeat' first | with_reducible assumption | with_reducible intro _ | ((with_reducible refine Sub.tr ?_ hm); exact rfl) | with_reducible apply Keeps.ite | with_reducible apply KeepsR.ok | with_reducible apply KeepsR.ite | with_reducible apply Res.state_keeps | with_reducible apply execVlvClaim_keeps | with_reducible apply execVlvSwap_keeps | with_reducible apply execVlvSwapCancel_keeps | with_reducible apply execVlvClearFault_keeps | with_reducible apply execFeedReset_keeps | with_reducible apply execIdRead_keeps | with_reducible apply execLedgerRead_keeps | with_reducible apply execLedgerDelete_keeps | with_reducible apply execVlvClearCounts_keeps | split | with_reducible refine Keeps.eqNext (by assumption) ?_

theorem State.mailLSW_keeps {s0 : Orig} {s : State} (h : Keeps s0 s) (c : Nat) (hm : Sub 1652220495880 s0.m) : Keeps s0 (State.mailLSW s c) := by
  unfold State.mailLSW
  try dsimp only
  repeat' first | with_reducible assumption | with_reducible intro _ | ((with_reducible refine Sub.tr ?_ hm); exact rfl) | with_reducible apply Keeps.ite | with_reducible apply KeepsR.ok | with_reducible apply KeepsR.ite | with_reducible apply Res.state_keeps | with_reducible apply execLswClaim_keeps | with_reducible apply execLswUnlatch_keeps | with_reducible apply execLswUnlock_keeps | with_reducible apply execLswClearCounts_keeps | split | with_reducible refine Keeps.eqNext (by assumption) ?_

theorem State.mailAIO_keeps {s0 : Orig} {s : State} (h : Keeps s0 s) (c : Nat) (hm : Sub 36836592586760 s0.m) : Keeps s0 (State.mailAIO s c) := by
  unfold State.mailAIO
  try dsimp only
  repeat' first | with_reducible assumption | with_reducible intro _ | ((with_reducible refine Sub.tr ?_ hm); exact rfl) | with_reducible apply Keeps.ite | with_reducible apply KeepsR.ok | with_reducible apply KeepsR.ite | with_reducible apply Res.state_keeps | with_reducible apply execAioClearCounts_keeps | with_reducible apply execLossTest_keeps | split | with_reducible refine Keeps.eqNext (by assumption) ?_

theorem State.mailMAP_keeps {s0 : Orig} {s : State} (h : Keeps s0 s) (c : Nat) (hm : Sub 72502009405450 s0.m) : Keeps s0 (State.mailMAP s c) := by
  unfold State.mailMAP
  try dsimp only
  repeat' first | with_reducible assumption | with_reducible intro _ | ((with_reducible refine Sub.tr ?_ hm); exact rfl) | with_reducible apply Keeps.ite | with_reducible apply KeepsR.ok | with_reducible apply KeepsR.ite | with_reducible apply Res.state_keeps | with_reducible apply execMapStart_keeps | with_reducible apply execMapStop_keeps | with_reducible apply execMapNew_keeps | with_reducible apply execWindowRead_keeps | with_reducible apply execCalApply_keeps | with_reducible apply execMapZero_keeps | with_reducible apply execMapClearCounts_keeps | split | with_reducible refine Keeps.eqNext (by assumption) ?_

theorem State.mailPNL_keeps {s0 : Orig} {s : State} (h : Keeps s0 s) (c : Nat) (hm : Sub 37156555447353358 s0.m) : Keeps s0 (State.mailPNL s c) := by
  unfold State.mailPNL
  try dsimp only
  repeat' first | with_reducible assumption | with_reducible intro _ | ((with_reducible refine Sub.tr ?_ hm); exact rfl) | with_reducible apply Keeps.ite | with_reducible apply KeepsR.ok | with_reducible apply KeepsR.ite | with_reducible apply Res.state_keeps | with_reducible apply execPnlStart_keeps | with_reducible apply State.drawn_keeps | with_reducible apply execPnlStop_keeps | with_reducible apply execUniformLoad_keeps | with_reducible apply execI2cXfer_keeps | with_reducible apply execBlReset_keeps | with_reducible apply execPnlClearCounts_keeps | split | with_reducible refine Keeps.eqNext (by assumption) ?_

theorem State.mailCAN_keeps {s0 : Orig} {s : State} (h : Keeps s0 s) (c : Nat) (hm : Sub 9223655164052013064 s0.m) : Keeps s0 (State.mailCAN s c) := by
  unfold State.mailCAN
  try dsimp only
  repeat' first | with_reducible assumption | with_reducible intro _ | ((with_reducible refine Sub.tr ?_ hm); exact rfl) | with_reducible apply Keeps.ite | with_reducible apply KeepsR.ok | with_reducible apply KeepsR.ite | with_reducible apply Res.state_keeps | with_reducible apply execCanStart_keeps | with_reducible apply execCanStop_keeps | with_reducible apply execCanRecover_keeps | with_reducible apply execIsbAbort_keeps | with_reducible apply execCanClearCounts_keeps | split | with_reducible refine Keeps.eqNext (by assumption) ?_

theorem State.mailETH_keeps {s0 : Orig} {s : State} (h : Keeps s0 s) (c : Nat) (hm : Sub 564602173980680 s0.m) : Keeps s0 (State.mailETH s c) := by
  unfold State.mailETH
  try dsimp only
  repeat' first | with_reducible assumption | with_reducible intro _ | ((with_reducible refine Sub.tr ?_ hm); exact rfl) | with_reducible apply Keeps.ite | with_reducible apply KeepsR.ok | with_reducible apply KeepsR.ite | with_reducible apply Res.state_keeps | with_reducible apply execFdbFlush_keeps | with_reducible apply execPortRestart_keeps | with_reducible apply execEthClearCounts_keeps | split | with_reducible refine Keeps.eqNext (by assumption) ?_

theorem State.mailUPD_keeps {s0 : Orig} {s : State} (h : Keeps s0 s) (c : Nat) (hm : Sub 4523050335076362 s0.m) : Keeps s0 (State.mailUPD s c) := by
  unfold State.mailUPD
  try dsimp only
  repeat' first | with_reducible assumption | with_reducible intro _ | ((with_reducible refine Sub.tr ?_ hm); exact rfl) | with_reducible apply Keeps.ite | with_reducible apply KeepsR.ok | with_reducible apply KeepsR.ite | with_reducible apply Res.state_keeps | with_reducible apply execUpdBegin_keeps | with_reducible apply execUpdWriteBlock_keeps | with_reducible apply execUpdFinish_keeps | with_reducible apply execUpdAbort_keeps | with_reducible apply execUpdConfirm_keeps | with_reducible apply execUpdReadBlock_keeps | with_reducible apply execKeyRevoke_keeps | split | with_reducible refine Keeps.eqNext (by assumption) ?_

theorem State.mailBUR_keeps {s0 : Orig} {s : State} (h : Keeps s0 s) (c : Nat) (hm : Sub 1652228882440 s0.m) : Keeps s0 (State.mailBUR s c) := by
  unfold State.mailBUR
  try dsimp only
  repeat' first | with_reducible assumption | with_reducible intro _ | ((with_reducible refine Sub.tr ?_ hm); exact rfl) | with_reducible apply Keeps.ite | with_reducible apply KeepsR.ok | with_reducible apply KeepsR.ite | with_reducible apply Res.state_keeps | with_reducible apply execBurFreeze_keeps | with_reducible apply execBurUnfreeze_keeps | with_reducible apply execBurClear_keeps | with_reducible apply execBurClearCounts_keeps | split | with_reducible refine Keeps.eqNext (by assumption) ?_

theorem State.mailHKP_keeps {s0 : Orig} {s : State} (h : Keeps s0 s) (c : Nat) (hm : Sub 1652221018120 s0.m) : Keeps s0 (State.mailHKP s c) := by
  unfold State.mailHKP
  try dsimp only
  repeat' first | with_reducible assumption | with_reducible intro _ | ((with_reducible refine Sub.tr ?_ hm); exact rfl) | with_reducible apply Keeps.ite | with_reducible apply KeepsR.ok | with_reducible apply KeepsR.ite | with_reducible apply Res.state_keeps | with_reducible apply execRoundNow_keeps | with_reducible apply execClearStates_keeps | split | with_reducible refine Keeps.eqNext (by assumption) ?_

theorem State.mailSAF_keeps {s0 : Orig} {s : State} (h : Keeps s0 s) (c : Nat) (hm : Sub 8249427627018 s0.m) : Keeps s0 (State.mailSAF s c) := by
  unfold State.mailSAF
  try dsimp only
  repeat' first | with_reducible assumption | with_reducible intro _ | ((with_reducible refine Sub.tr ?_ hm); exact rfl) | with_reducible apply Keeps.ite | with_reducible apply KeepsR.ok | with_reducible apply KeepsR.ite | with_reducible apply Res.state_keeps | with_reducible apply execClearLimp_keeps | with_reducible apply State.drawn_keeps | with_reducible apply execCutoffTest_keeps | with_reducible apply execSafClearCounts_keeps | split | with_reducible refine Keeps.eqNext (by assumption) ?_

theorem State.mailPWR_keeps {s0 : Orig} {s : State} (h : Keeps s0 s) (c : Nat) (hm : Sub 576462404528111624 s0.m) : Keeps s0 (State.mailPWR s c) := by
  unfold State.mailPWR
  try dsimp only
  repeat' first | with_reducible assumption | with_reducible intro _ | ((with_reducible refine Sub.tr ?_ hm); exact rfl) | with_reducible apply Keeps.ite | with_reducible apply KeepsR.ok | with_reducible apply KeepsR.ite | with_reducible apply Res.state_keeps | with_reducible apply execBankTest_keeps | with_reducible apply execBankBleed_keeps | with_reducible apply execBankCharge_keeps | with_reducible apply execPwrClearStats_keeps | split | with_reducible refine Keeps.eqNext (by assumption) ?_

theorem State.mailDefined_keeps {s0 : Orig} {s : State} (h : Keeps s0 s) (b : Block) (c : Nat) (hm : Sub 36893488147402326014 s0.m) : Keeps s0 (State.mailDefined s b c) := by
  unfold State.mailDefined
  try dsimp only
  repeat' first | with_reducible assumption | with_reducible intro _ | ((with_reducible refine Sub.tr ?_ hm); exact rfl) | with_reducible apply Keeps.ite | with_reducible apply State.mailSYS_keeps | with_reducible apply State.mailPACE_keeps | with_reducible apply State.mailDMW_keeps | with_reducible apply State.mailCAM_keeps | with_reducible apply State.mailGNS_keeps | with_reducible apply State.mailTIM_keeps | with_reducible apply State.mailTBL_keeps | with_reducible apply State.mailLPE_keeps | with_reducible apply State.mailVLV_keeps | with_reducible apply State.mailLSW_keeps | with_reducible apply State.mailAIO_keeps | with_reducible apply State.mailMAP_keeps | with_reducible apply State.mailPNL_keeps | with_reducible apply State.mailCAN_keeps | with_reducible apply State.mailETH_keeps | with_reducible apply State.mailUPD_keeps | with_reducible apply State.mailBUR_keeps | with_reducible apply State.mailHKP_keeps | with_reducible apply State.mailSAF_keeps | with_reducible apply State.mailPWR_keeps | split | ((with_reducible refine Sub.blk _ ?_ hm); exact rfl)

theorem State.undefinedCommand_keeps {s0 : Orig} {s : State} (h : Keeps s0 s) (b : Block) (c : Nat) (hm : Sub 550561382408 s0.m := by first | assumption | exact Sub.tr rfl (by assumption)) (hb0 : Sub b.mask s0.m := by first | assumption | exact Sub.tr rfl (by assumption)) : Keeps s0 (State.undefinedCommand s b c) := by
  unfold State.undefinedCommand
  try dsimp only
  repeat' first | with_reducible assumption | with_reducible intro _ | ((with_reducible refine Sub.tr ?_ hm); exact rfl) | with_reducible apply Keeps.ite | with_reducible apply KeepsP.ite | with_reducible apply State.command_keeps | with_reducible apply refuse_keeps | simp -zeta only [KeepsP.pair, KeepsQ.pair] | with_reducible apply KeepsP.fst | split | with_reducible refine Keeps.eqFst (by assumption) ?_

theorem State.mailWrite_keeps {s0 : Orig} {s : State} (h : Keeps s0 s) (b : Block) (v : Word) (hm : Sub 36893488147402326014 s0.m) (hb0 : Sub b.mask s0.m) : Keeps s0 (State.mailWrite s b v) := by
  unfold State.mailWrite
  try dsimp only
  repeat' first | with_reducible assumption | with_reducible intro _ | ((with_reducible refine Sub.tr ?_ hm); exact rfl) | with_reducible apply Keeps.ite | with_reducible apply State.mailDefined_keeps | with_reducible apply State.undefinedCommand_keeps | split | ((with_reducible refine Sub.blk _ ?_ hm); exact rfl)

theorem execUndefinedCommand_keeps {s0 : Orig} {s : State} (h : Keeps s0 s) (b : Fin 22) (code : Byte) (hm : Sub 550561382408 s0.m := by first | assumption | exact Sub.tr rfl (by assumption))
    (hb0 : Sub (blockNo b).mask s0.m := by first | assumption | exact Sub.tr rfl (by assumption)) :
    KeepsR s0 (execUndefinedCommand b code s) :=
  KeepsR.ite (KeepsR.ok (State.undefinedCommand_keeps h _ _)) (KeepsR.ok h)

end Sys2Proof.Machine
end

