-- ==== Sys2Proof/Laws/KeepsBus.lean ====
section
/-! SUPPORT. The operations of Machine/Bus.lean keep the queue of commands and the canonical form, and change no part outside
their footprint. -/

set_option linter.unusedSimpArgs false
set_option linter.unusedVariables false
set_option Elab.async false

namespace Sys2Proof.Machine

theorem State.streamRead_keeps {s0 : Orig} {s : State} (h : Keeps s0 s) (q who : Nat) (hm : Sub 9295711105869447168 s0.m := by first | assumption | exact Sub.tr rfl (by assumption)) : KeepsQ s0 (State.streamRead s q who) := by
  unfold State.streamRead
  try dsimp only
  repeat' first | with_reducible assumption | with_reducible intro _ | ((with_reducible refine Sub.tr ?_ hm); exact rfl) | with_reducible apply Keeps.ite | with_reducible apply KeepsQ.ite | with_reducible apply State.putDmw_keeps | with_reducible apply State.timMod_keeps | with_reducible apply State.partClear_keeps | with_reducible apply State.fifoPop_keeps | simp -zeta only [KeepsP.pair, KeepsQ.pair] | with_reducible apply KeepsQ.snd | split | with_reducible refine Keeps.eqSnd (by assumption) ?_

theorem State.readAct_keeps {s0 : Orig} {s : State} (h : Keeps s0 s) (b : Block) (r : RegRow) (o who : Nat) (x : Word × State)
    (e : State.readAct s b r o who = some x) (hm : Sub 9296274606254227596 s0.m := by first | assumption | exact Sub.tr rfl (by assumption)) : KeepsQ s0 x := by
  unfold State.readAct at e
  dsimp only at e
  split at e
  · split at e
    · cases e; exact State.claim_keeps h _ _
    · split at e
      · cases e; exact State.claim_keeps h _ _
      · cases e
  · split at e
    · cases e; exact State.nowRead_keeps h
    · split at e
      · cases e; exact State.markLo_keeps h
      · split at e
        · cases e; exact State.markHi_keeps h
        · split at e
          · cases e; exact State.streamRead_keeps h _ _
          · cases e
  · split at e
    · cases e; exact State.streamRead_keeps h _ _
    · cases e
  · split at e
    · cases e; exact State.freqRead_keeps h _
    · cases e
  · split at e
    · cases e; exact State.burWin7_keeps h
    · cases e
  · split at e
    · cases e; exact State.hostSeen_keeps h
    · cases e
  · cases e

theorem State.regRead_keeps {s0 : Orig} {s : State} (h : Keeps s0 s) (b : Block) (o who : Nat) (hm : Sub 9296274606254227596 s0.m := by first | assumption | exact Sub.tr rfl (by assumption)) : KeepsQ s0 (State.regRead s b o who) := by
  unfold State.regRead
  generalize regRow b o = row
  cases row with
  | none => exact h
  | some r =>
    dsimp only
    split
    · exact h
    · generalize e : s.readAct b r o who = x
      cases x with
      | some x => exact State.readAct_keeps h _ _ _ _ x e
      | none =>
        dsimp only
        generalize (if b = .VLV ∧ s.vlvNoCurrent r o = true then (0 : Word) else measuredMask b r) = m
        split
        · exact h
        · exact State.putFree_keeps h _

theorem State.mbWrite_keeps {s0 : Orig} {s : State} (h : Keeps s0 s) (n b w : Nat) (v : Word) (hm : Sub 32768 s0.m) : Keeps s0 (State.mbWrite s n b w v) := by
  unfold State.mbWrite
  try dsimp only
  repeat' first | with_reducible assumption | with_reducible intro _ | ((with_reducible refine Sub.tr ?_ hm); exact rfl) | with_reducible apply Keeps.ite | with_reducible apply State.wr_keeps | split

theorem State.lockWrite_keeps {s0 : Orig} {s : State} (h : Keeps s0 s) (n : Fin 8) (i : Nat) (v : Word) (hm : Sub 283127063019528 s0.m) : Keeps s0 (State.lockWrite s n i v) := by
  unfold State.lockWrite
  try dsimp only
  repeat' first | with_reducible assumption | with_reducible intro _ | ((with_reducible refine Sub.tr ?_ hm); exact rfl) | with_reducible apply Keeps.ite | with_reducible apply KeepsR.ok | with_reducible apply KeepsR.ite | with_reducible apply State.each_keeps | with_reducible apply Res.state_keeps | with_reducible apply execMbLock_keeps | with_reducible apply execMbUnlock_keeps | split | with_reducible refine Keeps.eqNext (by assumption) ?_

theorem State.sesCtrl_keeps {s0 : Orig} {s : State} (h : Keeps s0 s) (n : Fin 2) (k : Fin 8) (v : Word) (hm : Sub 283126928801800 s0.m) : Keeps s0 (State.sesCtrl s n k v) := by
  unfold State.sesCtrl
  try dsimp only
  repeat' first | with_reducible assumption | with_reducible intro _ | ((with_reducible refine Sub.tr ?_ hm); exact rfl) | with_reducible apply Keeps.ite | with_reducible apply KeepsR.ok | with_reducible apply KeepsR.ite | with_reducible apply Res.state_keeps | with_reducible apply execIsbSend_keeps | with_reducible apply execIsbArmReceive_keeps | with_reducible apply State.wr_keeps | split | with_reducible refine Keeps.eqNext (by assumption) ?_

theorem State.canAct_keeps {s0 : Orig} {s : State} (h : Keeps s0 s) (r : RegRow) (n i j : Nat) (v : Word) (hm : Sub 9223655164186230792 s0.m) : KeepsO s0 (State.canAct s r n i j v) := by
  unfold State.canAct
  try dsimp only
  repeat' first | with_reducible assumption | with_reducible intro _ | ((with_reducible refine Sub.tr ?_ hm); exact rfl) | with_reducible apply Keeps.ite | with_reducible apply KeepsR.ok | with_reducible apply KeepsR.ite | with_reducible apply KeepsO.some | with_reducible exact KeepsO.none | with_reducible apply KeepsO.ite | with_reducible apply KeepsO.map | with_reducible apply Res.state_keeps | with_reducible apply execTxreqWrite_keeps | with_reducible apply execTxcancelWrite_keeps | with_reducible apply State.lockWrite_keeps | with_reducible apply execFifoPop_keeps | with_reducible apply State.mbWrite_keeps | with_reducible apply State.sesCtrl_keeps | split | with_reducible refine Keeps.eqSome (by assumption) ?_ | with_reducible refine Keeps.eqNext (by assumption) ?_

theorem State.vlvBankWrite_keeps {s0 : Orig} {s : State} (h : Keeps s0 s) (n b w : Nat) (v : Word) (hm : Sub 1024 s0.m) : Keeps s0 (State.vlvBankWrite s n b w v) := by
  unfold State.vlvBankWrite
  try dsimp only
  repeat' first | with_reducible assumption | with_reducible intro _ | ((with_reducible refine Sub.tr ?_ hm); exact rfl) | with_reducible apply Keeps.ite | with_reducible apply State.setBit_keeps | with_reducible apply State.wr_keeps | split

theorem State.vlvAct2_keeps {s0 : Orig} {s : State} (h : Keeps s0 s) (r : RegRow) (n i j : Nat) (v : Word) (hm : Sub 4948607894536 s0.m) : KeepsO s0 (State.vlvAct2 s r n i j v) := by
  unfold State.vlvAct2
  try dsimp only
  repeat' first | with_reducible assumption | with_reducible intro _ | ((with_reducible refine Sub.tr ?_ hm); exact rfl) | with_reducible apply Keeps.ite | with_reducible apply KeepsO.some | with_reducible exact KeepsO.none | with_reducible apply KeepsO.ite | with_reducible apply KeepsO.map | with_reducible apply State.vlvGo_keeps | with_reducible apply State.vlvProgIn_keeps | with_reducible apply State.vlvBankWrite_keeps | split | with_reducible refine Keeps.eqSome (by assumption) ?_

theorem State.sysAct_keeps {s0 : Orig} {s : State} (h : Keeps s0 s) (b : Block) (r : RegRow) (o n : Nat) (v : Word) (hm : Sub 4611687876546265098 s0.m) : KeepsO s0 (State.sysAct s b r o n v) := by
  unfold State.sysAct
  try dsimp only
  repeat' first | with_reducible assumption | with_reducible intro _ | ((with_reducible refine Sub.tr ?_ hm); exact rfl) | with_reducible apply Keeps.ite | with_reducible apply KeepsO.some | with_reducible exact KeepsO.none | with_reducible apply KeepsO.ite | with_reducible apply KeepsO.map | with_reducible apply State.stqCfg_keeps | with_reducible apply State.stqHead_keeps | with_reducible apply State.pghClear_keeps | with_reducible apply State.pghRoute_keeps | with_reducible apply State.pghRaise_keeps | with_reducible apply State.pghSwi_keeps | split | with_reducible refine Keeps.eqSome (by assumption) ?_

theorem State.writeAct_keeps {s0 : Orig} {s : State} (h : Keeps s0 s) (b : Block) (r : RegRow) (o : Nat) (v : Word) (hm : Sub 36893487872524419070 s0.m) (hb0 : Sub b.mask s0.m) : KeepsO s0 (State.writeAct s b r o v) := by
  unfold State.writeAct
  try dsimp only
  repeat' first | with_reducible assumption | with_reducible intro _ | ((with_reducible refine Sub.tr ?_ hm); exact rfl) | with_reducible apply Keeps.ite | with_reducible apply KeepsR.ok | with_reducible apply KeepsR.ite | with_reducible apply KeepsO.some | with_reducible exact KeepsO.none | with_reducible apply KeepsO.ite | with_reducible apply KeepsO.map | with_reducible apply State.sysAct_keeps | with_reducible apply State.vcoreWrite_keeps | with_reducible apply State.islCtrl_keeps | with_reducible apply State.swreq_keeps | with_reducible apply State.dwGo_keeps | with_reducible apply State.dwBankWrite_keeps | with_reducible apply Res.state_keeps | with_reducible apply execAcqHeadWrite_keeps | with_reducible apply State.corrGo_keeps | with_reducible apply State.lpeWrite_keeps | with_reducible apply State.vlvAct2_keeps | with_reducible apply State.lswSwitch_keeps | with_reducible apply State.drawn_keeps | with_reducible apply execPoseGo_keeps | with_reducible apply State.pnlFlip_keeps | with_reducible apply State.canAct_keeps | with_reducible apply State.burCursor_keeps | with_reducible apply State.burPut_keeps | with_reducible apply State.hkpCfg_keeps | with_reducible apply State.wdgKick_keeps | with_reducible apply State.wdgCfg_keeps | with_reducible apply State.tstUnlock_keeps | with_reducible apply State.tstWrite_keeps | with_reducible apply State.store_keeps | with_reducible apply State.pwrCfg_keeps | split | with_reducible refine Keeps.eqSome (by assumption) ?_ | with_reducible refine Keeps.eqNext (by assumption) ?_ | ((with_reducible refine Sub.blk _ ?_ hm); exact rfl)

theorem State.writeAfter_keeps {s0 : Orig} {s : State} (h : Keeps s0 s) (b : Block) (r : RegRow) (o : Nat) (old : Word) (hm : Sub 182506492933731534 s0.m) : Keeps s0 (State.writeAfter s b r o old) := by
  unfold State.writeAfter
  try dsimp only
  repeat' first | with_reducible assumption | with_reducible intro _ | ((with_reducible refine Sub.tr ?_ hm); exact rfl) | with_reducible apply Keeps.ite | with_reducible apply State.acqKick_keeps | with_reducible apply State.antSwitch_keeps | with_reducible apply State.trigWrite_keeps | with_reducible apply State.timShow_keeps | with_reducible apply State.gmMoved_keeps | with_reducible apply State.slowEnd_keeps | with_reducible apply State.vchMod_keeps | with_reducible apply State.vlvDuty_keeps | with_reducible apply State.vlvSettle_keeps | with_reducible apply State.vlvBandNow_keeps | with_reducible apply State.vlvDerate_keeps | with_reducible apply State.supSwitch_keeps | with_reducible apply State.ainShow_keeps | with_reducible apply State.finCfg_keeps | with_reducible apply State.lossShow_keeps | with_reducible apply State.mapSections_keeps | with_reducible apply State.blShow_keeps | split

theorem State.writeSet_keeps {s0 : Orig} {s : State} (h : Keeps s0 s) (b : Block) (r : RegRow) (o : Nat) (v : Word) (hm : Sub 182506492933731534 s0.m) (hb0 : Sub b.mask s0.m) : Keeps s0 (State.writeSet s b r o v) := by
  unfold State.writeSet
  try dsimp only
  repeat' first | with_reducible assumption | with_reducible intro _ | ((with_reducible refine Sub.tr ?_ hm); exact rfl) | with_reducible apply Keeps.ite | with_reducible apply State.wr_keeps | with_reducible apply State.store_keeps | with_reducible apply State.writeAfter_keeps | split

theorem State.protectWrite_keeps {s0 : Orig} {s : State} (h : Keeps s0 s) (b : Block) (v : Word) (hb0 : Sub b.mask s0.m := by first | assumption | exact Sub.tr rfl (by assumption)) : Keeps s0 (State.protectWrite s b v) := by
  unfold State.protectWrite
  try dsimp only
  repeat' first | with_reducible assumption | with_reducible intro _ | with_reducible apply Keeps.ite | with_reducible apply State.wrN_keeps | split

theorem State.regWrite_keeps {s0 : Orig} {s : State} (h : Keeps s0 s) (b : Block) (o : Nat) (v : Word) (hm : Sub 36893488147402326014 s0.m := by first | assumption | exact Sub.tr rfl (by assumption)) (hb0 : Sub b.mask s0.m := by first | assumption | exact Sub.tr rfl (by assumption)) : Keeps s0 (State.regWrite s b o v) := by
  unfold State.regWrite
  try dsimp only
  repeat' first | with_reducible assumption | with_reducible intro _ | ((with_reducible refine Sub.tr ?_ hm); exact rfl) | with_reducible apply Keeps.ite | with_reducible apply KeepsO.some | with_reducible exact KeepsO.none | with_reducible apply KeepsO.ite | with_reducible apply KeepsO.map | with_reducible apply State.protectWrite_keeps | with_reducible apply State.mailWrite_keeps | with_reducible apply State.writeAct_keeps | with_reducible apply State.writeSet_keeps | split | with_reducible refine Keeps.eqSome (by assumption) ?_ | ((with_reducible refine Sub.blk _ ?_ hm); exact rfl)

theorem execRegisterWrite_keeps {s0 : Orig} {s : State} (h : Keeps s0 s) (b : Fin 22) (o : BitVec 18) (v : Word) (hm : Sub 36893488147402326014 s0.m) : KeepsR s0 (execRegisterWrite b o v s) := by
  unfold execRegisterWrite
  try dsimp only
  repeat' first | with_reducible assumption | with_reducible intro _ | ((with_reducible refine Sub.tr ?_ hm); exact rfl) | with_reducible apply Keeps.ite | with_reducible apply KeepsR.ok | with_reducible apply KeepsR.ite | with_reducible apply ok_keeps | with_reducible apply State.regWrite_keeps | split | with_reducible refine Keeps.eqNext (by assumption) ?_ | ((with_reducible refine Sub.blk _ ?_ hm); exact rfl)

theorem execProtectWrite_keeps {s0 : Orig} {s : State} (h : Keeps s0 s) (b : Fin 22) (v : Word)
    (hb0 : Sub (blockNo b).mask s0.m := by first | assumption | exact Sub.tr rfl (by assumption)) :
    KeepsR s0 (execProtectWrite b v s) := KeepsR.ok (State.protectWrite_keeps h _ v)

theorem execRegisterAccessFault_keeps {s0 : Orig} {s : State} (h : Keeps s0 s) (_b : Fin 22) (o : BitVec 20) (k : Fin 4) (hm : Sub 16777216 s0.m) : KeepsR s0 (execRegisterAccessFault _b o k s) := by
  unfold execRegisterAccessFault
  try dsimp only
  repeat' first | with_reducible assumption | with_reducible intro _ | ((with_reducible refine Sub.tr ?_ hm); exact rfl) | with_reducible apply Keeps.ite | with_reducible apply KeepsR.ok | with_reducible apply KeepsR.ite | with_reducible apply ok_keeps | with_reducible apply State.putResp_keeps | split | with_reducible refine Keeps.eqNext (by assumption) ?_

theorem State.dwUnderrun_keeps {s0 : Orig} {s : State} (h : Keeps s0 s) (n : Nat) (hm : Sub 550292946968 s0.m) : Keeps s0 (State.dwUnderrun s n) := by
  unfold State.dwUnderrun
  try dsimp only
  repeat' first | with_reducible assumption | with_reducible intro _ | ((with_reducible refine Sub.tr ?_ hm); exact rfl) | with_reducible apply Keeps.ite | with_reducible apply State.dwFlag_keeps | with_reducible apply State.incF_keeps | with_reducible apply State.eventSrc_keeps | split

theorem execStreamRead_keeps {s0 : Orig} {s : State} (h : Keeps s0 s) (who : Initiator) (q : Fin 17) (hm : Sub 9295711656179171352 s0.m) : KeepsR s0 (execStreamRead who q s) := by
  unfold execStreamRead
  try dsimp only
  repeat' first | with_reducible assumption | with_reducible intro _ | ((with_reducible refine Sub.tr ?_ hm); exact rfl) | with_reducible apply Keeps.ite | with_reducible apply KeepsR.ok | with_reducible apply KeepsR.ite | with_reducible apply KeepsQ.ite | with_reducible apply State.streamRead_keeps | with_reducible apply State.dwUnderrun_keeps | with_reducible apply ok_keeps | with_reducible apply State.putResp_keeps | simp -zeta only [KeepsP.pair, KeepsQ.pair] | with_reducible apply KeepsQ.snd | split | with_reducible refine Keeps.eqSnd (by assumption) ?_ | with_reducible refine Keeps.eqNext (by assumption) ?_

end Sys2Proof.Machine
end

