-- ==== Sys2Proof/Laws/KeepsCoreMem.lean ====
section
/-! SUPPORT. The operations of Machine/CoreMem.lean keep the queue of commands and the canonical form, and change no part outside
their footprint. -/

set_option linter.unusedSimpArgs false
set_option linter.unusedVariables false
set_option Elab.async false

namespace Sys2Proof.Machine

theorem State.load_keeps {s0 : Orig} {s : State} (h : Keeps s0 s) (a : Agent) (w : BitVec 26) (n : Nat) (put : State → Nat → State) (hput : ∀ x0 x1, Keeps s0 x0 → Keeps s0 (put x0 x1)) (hm : Sub 9296276201842966926 s0.m) : Keeps s0 (State.load s a w n put) := by
  unfold State.load
  try dsimp only
  repeat' first | with_reducible assumption | with_reducible intro _ | ((with_reducible refine Sub.tr ?_ hm); exact rfl) | with_reducible apply hput | with_reducible apply Keeps.ite | with_reducible apply KeepsQ.ite | with_reducible apply State.takeTrap_keeps | with_reducible apply State.translate_keeps | with_reducible apply ok_keeps | with_reducible apply State.regRead_keeps | with_reducible apply State.next_keeps | with_reducible apply State.eccRead_keeps | with_reducible apply State.drainStores_keeps | simp -zeta only [KeepsP.pair, KeepsQ.pair] | with_reducible apply KeepsQ.snd | split | with_reducible refine Keeps.eqSnd (by assumption) ?_

theorem State.loadG_keeps {s0 : Orig} {s : State} (h : Keeps s0 s) (a : Agent) (w : BitVec 26) (n : Nat) (signed : Bool) (hm : Sub 9296276201842966926 s0.m) : Keeps s0 (State.loadG s a w n signed) := by
  unfold State.loadG
  try dsimp only
  repeat' first | with_reducible assumption | with_reducible intro _ | ((with_reducible refine Sub.tr ?_ hm); exact rfl) | with_reducible apply Keeps.ite | with_reducible apply State.issue_keeps | with_reducible apply State.load_keeps | with_reducible apply State.setG_keeps | split

theorem State.loadF_keeps {s0 : Orig} {s : State} (h : Keeps s0 s) (a : Agent) (op : Nat) (w : BitVec 26) (n : Nat) (hm : Sub 9296276201842966926 s0.m) : Keeps s0 (State.loadF s a op w n) := by
  unfold State.loadF
  try dsimp only
  repeat' first | with_reducible assumption | with_reducible intro _ | ((with_reducible refine Sub.tr ?_ hm); exact rfl) | with_reducible apply Keeps.ite | with_reducible apply State.issue_keeps | with_reducible apply State.illegal_keeps | with_reducible apply State.load_keeps | with_reducible apply State.setFr_keeps | split

theorem execLdb_keeps {s0 : Orig} {s : State} (h : Keeps s0 s) (a : Agent) (w : BitVec 26) (hm : Sub 9296276201842966926 s0.m) : KeepsR s0 (execLdb a w s) := by
  unfold execLdb
  try dsimp only
  repeat' first | with_reducible assumption | with_reducible intro _ | ((with_reducible refine Sub.tr ?_ hm); exact rfl) | with_reducible apply Keeps.ite | with_reducible apply KeepsR.ok | with_reducible apply KeepsR.ite | with_reducible apply ok_keeps | with_reducible apply State.loadG_keeps | split | with_reducible refine Keeps.eqNext (by assumption) ?_

theorem execLdh_keeps {s0 : Orig} {s : State} (h : Keeps s0 s) (a : Agent) (w : BitVec 26) (hm : Sub 9296276201842966926 s0.m) : KeepsR s0 (execLdh a w s) := by
  unfold execLdh
  try dsimp only
  repeat' first | with_reducible assumption | with_reducible intro _ | ((with_reducible refine Sub.tr ?_ hm); exact rfl) | with_reducible apply Keeps.ite | with_reducible apply KeepsR.ok | with_reducible apply KeepsR.ite | with_reducible apply ok_keeps | with_reducible apply State.loadG_keeps | split | with_reducible refine Keeps.eqNext (by assumption) ?_

theorem execLdw_keeps {s0 : Orig} {s : State} (h : Keeps s0 s) (a : Agent) (w : BitVec 26) (hm : Sub 9296276201842966926 s0.m) : KeepsR s0 (execLdw a w s) := by
  unfold execLdw
  try dsimp only
  repeat' first | with_reducible assumption | with_reducible intro _ | ((with_reducible refine Sub.tr ?_ hm); exact rfl) | with_reducible apply Keeps.ite | with_reducible apply KeepsR.ok | with_reducible apply KeepsR.ite | with_reducible apply ok_keeps | with_reducible apply State.loadG_keeps | split | with_reducible refine Keeps.eqNext (by assumption) ?_

theorem execLdd_keeps {s0 : Orig} {s : State} (h : Keeps s0 s) (a : Agent) (w : BitVec 26) (hm : Sub 9296276201842966926 s0.m) : KeepsR s0 (execLdd a w s) := by
  unfold execLdd
  try dsimp only
  repeat' first | with_reducible assumption | with_reducible intro _ | ((with_reducible refine Sub.tr ?_ hm); exact rfl) | with_reducible apply Keeps.ite | with_reducible apply KeepsR.ok | with_reducible apply KeepsR.ite | with_reducible apply ok_keeps | with_reducible apply State.loadG_keeps | split | with_reducible refine Keeps.eqNext (by assumption) ?_

theorem execLdbu_keeps {s0 : Orig} {s : State} (h : Keeps s0 s) (a : Agent) (w : BitVec 26) (hm : Sub 9296276201842966926 s0.m) : KeepsR s0 (execLdbu a w s) := by
  unfold execLdbu
  try dsimp only
  repeat' first | with_reducible assumption | with_reducible intro _ | ((with_reducible refine Sub.tr ?_ hm); exact rfl) | with_reducible apply Keeps.ite | with_reducible apply KeepsR.ok | with_reducible apply KeepsR.ite | with_reducible apply ok_keeps | with_reducible apply State.loadG_keeps | split | with_reducible refine Keeps.eqNext (by assumption) ?_

theorem execLdhu_keeps {s0 : Orig} {s : State} (h : Keeps s0 s) (a : Agent) (w : BitVec 26) (hm : Sub 9296276201842966926 s0.m) : KeepsR s0 (execLdhu a w s) := by
  unfold execLdhu
  try dsimp only
  repeat' first | with_reducible assumption | with_reducible intro _ | ((with_reducible refine Sub.tr ?_ hm); exact rfl) | with_reducible apply Keeps.ite | with_reducible apply KeepsR.ok | with_reducible apply KeepsR.ite | with_reducible apply ok_keeps | with_reducible apply State.loadG_keeps | split | with_reducible refine Keeps.eqNext (by assumption) ?_

theorem execLdwu_keeps {s0 : Orig} {s : State} (h : Keeps s0 s) (a : Agent) (w : BitVec 26) (hm : Sub 9296276201842966926 s0.m) : KeepsR s0 (execLdwu a w s) := by
  unfold execLdwu
  try dsimp only
  repeat' first | with_reducible assumption | with_reducible intro _ | ((with_reducible refine Sub.tr ?_ hm); exact rfl) | with_reducible apply Keeps.ite | with_reducible apply KeepsR.ok | with_reducible apply KeepsR.ite | with_reducible apply ok_keeps | with_reducible apply State.loadG_keeps | split | with_reducible refine Keeps.eqNext (by assumption) ?_

theorem execFlds_keeps {s0 : Orig} {s : State} (h : Keeps s0 s) (a : Agent) (w : BitVec 26) (hm : Sub 9296276201842966926 s0.m) : KeepsR s0 (execFlds a w s) := by
  unfold execFlds
  try dsimp only
  repeat' first | with_reducible assumption | with_reducible intro _ | ((with_reducible refine Sub.tr ?_ hm); exact rfl) | with_reducible apply Keeps.ite | with_reducible apply KeepsR.ok | with_reducible apply KeepsR.ite | with_reducible apply ok_keeps | with_reducible apply State.loadF_keeps | split | with_reducible refine Keeps.eqNext (by assumption) ?_

theorem execFldd_keeps {s0 : Orig} {s : State} (h : Keeps s0 s) (a : Agent) (w : BitVec 26) (hm : Sub 9296276201842966926 s0.m) : KeepsR s0 (execFldd a w s) := by
  unfold execFldd
  try dsimp only
  repeat' first | with_reducible assumption | with_reducible intro _ | ((with_reducible refine Sub.tr ?_ hm); exact rfl) | with_reducible apply Keeps.ite | with_reducible apply KeepsR.ok | with_reducible apply KeepsR.ite | with_reducible apply ok_keeps | with_reducible apply State.loadF_keeps | split | with_reducible refine Keeps.eqNext (by assumption) ?_

theorem State.storeAt_keeps {s0 : Orig} {s : State} (h : Keeps s0 s) (a : Agent) (w : BitVec 26) (n v : Nat) (hm : Sub 36893488147402326014 s0.m) : Keeps s0 (State.storeAt s a w n v) := by
  unfold State.storeAt
  try dsimp only
  repeat' first | with_reducible assumption | with_reducible intro _ | ((with_reducible refine Sub.tr ?_ hm); exact rfl) | with_reducible apply Keeps.ite | with_reducible apply KeepsQ.ite | with_reducible apply State.takeTrap_keeps | with_reducible apply State.translate_keeps | with_reducible apply State.store_keeps | with_reducible apply ok_keeps | with_reducible apply State.next_keeps | with_reducible apply State.regWrite_keeps | with_reducible apply State.drainStores_keeps | with_reducible apply State.progStore_keeps | with_reducible apply State.putSbuf_keeps | simp -zeta only [KeepsP.pair, KeepsQ.pair] | with_reducible apply KeepsQ.snd | split | with_reducible refine Keeps.eqSnd (by assumption) ?_ | ((with_reducible refine Sub.blk _ ?_ hm); exact rfl)

theorem State.storeG_keeps {s0 : Orig} {s : State} (h : Keeps s0 s) (a : Agent) (w : BitVec 26) (n : Nat) (hm : Sub 36893488147402326014 s0.m) : Keeps s0 (State.storeG s a w n) := by
  unfold State.storeG
  try dsimp only
  repeat' first | with_reducible assumption | with_reducible intro _ | ((with_reducible refine Sub.tr ?_ hm); exact rfl) | with_reducible apply Keeps.ite | with_reducible apply State.issue_keeps | with_reducible apply State.storeAt_keeps | split | ((with_reducible refine Sub.blk _ ?_ hm); exact rfl)

theorem State.storeF_keeps {s0 : Orig} {s : State} (h : Keeps s0 s) (a : Agent) (op : Nat) (w : BitVec 26) (n : Nat) (hm : Sub 36893488147402326014 s0.m) : Keeps s0 (State.storeF s a op w n) := by
  unfold State.storeF
  try dsimp only
  repeat' first | with_reducible assumption | with_reducible intro _ | ((with_reducible refine Sub.tr ?_ hm); exact rfl) | with_reducible apply Keeps.ite | with_reducible apply State.issue_keeps | with_reducible apply State.illegal_keeps | with_reducible apply State.storeAt_keeps | split | ((with_reducible refine Sub.blk _ ?_ hm); exact rfl)

theorem execStb_keeps {s0 : Orig} {s : State} (h : Keeps s0 s) (a : Agent) (w : BitVec 26) (hm : Sub 36893488147402326014 s0.m) : KeepsR s0 (execStb a w s) := by
  unfold execStb
  try dsimp only
  repeat' first | with_reducible assumption | with_reducible intro _ | ((with_reducible refine Sub.tr ?_ hm); exact rfl) | with_reducible apply Keeps.ite | with_reducible apply KeepsR.ok | with_reducible apply KeepsR.ite | with_reducible apply ok_keeps | with_reducible apply State.storeG_keeps | split | with_reducible refine Keeps.eqNext (by assumption) ?_ | ((with_reducible refine Sub.blk _ ?_ hm); exact rfl)

theorem execSth_keeps {s0 : Orig} {s : State} (h : Keeps s0 s) (a : Agent) (w : BitVec 26) (hm : Sub 36893488147402326014 s0.m) : KeepsR s0 (execSth a w s) := by
  unfold execSth
  try dsimp only
  repeat' first | with_reducible assumption | with_reducible intro _ | ((with_reducible refine Sub.tr ?_ hm); exact rfl) | with_reducible apply Keeps.ite | with_reducible apply KeepsR.ok | with_reducible apply KeepsR.ite | with_reducible apply ok_keeps | with_reducible apply State.storeG_keeps | split | with_reducible refine Keeps.eqNext (by assumption) ?_ | ((with_reducible refine Sub.blk _ ?_ hm); exact rfl)

theorem execStw_keeps {s0 : Orig} {s : State} (h : Keeps s0 s) (a : Agent) (w : BitVec 26) (hm : Sub 36893488147402326014 s0.m) : KeepsR s0 (execStw a w s) := by
  unfold execStw
  try dsimp only
  repeat' first | with_reducible assumption | with_reducible intro _ | ((with_reducible refine Sub.tr ?_ hm); exact rfl) | with_reducible apply Keeps.ite | with_reducible apply KeepsR.ok | with_reducible apply KeepsR.ite | with_reducible apply ok_keeps | with_reducible apply State.storeG_keeps | split | with_reducible refine Keeps.eqNext (by assumption) ?_ | ((with_reducible refine Sub.blk _ ?_ hm); exact rfl)

theorem execStd_keeps {s0 : Orig} {s : State} (h : Keeps s0 s) (a : Agent) (w : BitVec 26) (hm : Sub 36893488147402326014 s0.m) : KeepsR s0 (execStd a w s) := by
  unfold execStd
  try dsimp only
  repeat' first | with_reducible assumption | with_reducible intro _ | ((with_reducible refine Sub.tr ?_ hm); exact rfl) | with_reducible apply Keeps.ite | with_reducible apply KeepsR.ok | with_reducible apply KeepsR.ite | with_reducible apply ok_keeps | with_reducible apply State.storeG_keeps | split | with_reducible refine Keeps.eqNext (by assumption) ?_ | ((with_reducible refine Sub.blk _ ?_ hm); exact rfl)

theorem execFsts_keeps {s0 : Orig} {s : State} (h : Keeps s0 s) (a : Agent) (w : BitVec 26) (hm : Sub 36893488147402326014 s0.m) : KeepsR s0 (execFsts a w s) := by
  unfold execFsts
  try dsimp only
  repeat' first | with_reducible assumption | with_reducible intro _ | ((with_reducible refine Sub.tr ?_ hm); exact rfl) | with_reducible apply Keeps.ite | with_reducible apply KeepsR.ok | with_reducible apply KeepsR.ite | with_reducible apply ok_keeps | with_reducible apply State.storeF_keeps | split | with_reducible refine Keeps.eqNext (by assumption) ?_ | ((with_reducible refine Sub.blk _ ?_ hm); exact rfl)

theorem execFstd_keeps {s0 : Orig} {s : State} (h : Keeps s0 s) (a : Agent) (w : BitVec 26) (hm : Sub 36893488147402326014 s0.m) : KeepsR s0 (execFstd a w s) := by
  unfold execFstd
  try dsimp only
  repeat' first | with_reducible assumption | with_reducible intro _ | ((with_reducible refine Sub.tr ?_ hm); exact rfl) | with_reducible apply Keeps.ite | with_reducible apply KeepsR.ok | with_reducible apply KeepsR.ite | with_reducible apply ok_keeps | with_reducible apply State.storeF_keeps | split | with_reducible refine Keeps.eqNext (by assumption) ?_ | ((with_reducible refine Sub.blk _ ?_ hm); exact rfl)

theorem execStoreVisible_keeps {s0 : Orig} {s : State} (h : Keeps s0 s) (a : Agent) (i : Nat) (hm : Sub 214756753666 s0.m) : KeepsR s0 (execStoreVisible a i s) := by
  unfold execStoreVisible
  try dsimp only
  repeat' first | with_reducible assumption | with_reducible intro _ | ((with_reducible refine Sub.tr ?_ hm); exact rfl) | with_reducible apply Keeps.ite | with_reducible apply KeepsR.ok | with_reducible apply KeepsR.ite | with_reducible apply ok_keeps | with_reducible apply State.progStore_keeps | with_reducible apply State.putSbuf_keeps | split | with_reducible refine Keeps.eqNext (by assumption) ?_

theorem State.drainTo_keeps {s0 : Orig} {s : State} (h : Keeps s0 s) (a : Agent) (pa n : Nat) (hm : Sub 214756753666 s0.m) : Keeps s0 (State.drainTo s a pa n) := by
  unfold State.drainTo
  try dsimp only
  repeat' first | with_reducible assumption | with_reducible intro _ | ((with_reducible refine Sub.tr ?_ hm); exact rfl) | with_reducible apply Keeps.ite | with_reducible apply State.each_keeps | with_reducible apply State.progStore_keeps | with_reducible apply State.putSbuf_keeps | split

theorem State.atom_keeps {s0 : Orig} {s : State} (h : Keeps s0 s) (a : Agent) (w : BitVec 26) (n : Nat) (hm : Sub 2145881686282 s0.m) : Keeps s0 (State.atom s a w n) := by
  unfold State.atom
  try dsimp only
  repeat' first | with_reducible assumption | with_reducible intro _ | ((with_reducible refine Sub.tr ?_ hm); exact rfl) | with_reducible apply Keeps.ite | with_reducible apply KeepsQ.ite | with_reducible apply State.takeTrap_keeps | with_reducible apply State.translate_keeps | with_reducible apply State.store_keeps | with_reducible apply ok_keeps | with_reducible apply State.drainStores_keeps | with_reducible apply State.drainTo_keeps | with_reducible apply State.eccRead_keeps | with_reducible apply State.storeLE_keeps | with_reducible apply State.setG_keeps | with_reducible apply State.next_keeps | simp -zeta only [KeepsP.pair, KeepsQ.pair] | with_reducible apply KeepsQ.snd | split | with_reducible refine Keeps.eqSnd (by assumption) ?_

theorem execAtom_keeps {s0 : Orig} {s : State} (h : Keeps s0 s) (a : Agent) (w : BitVec 26) (hm : Sub 2145881686282 s0.m) : KeepsR s0 (execAtom a w s) := by
  unfold execAtom
  try dsimp only
  repeat' first | with_reducible assumption | with_reducible intro _ | ((with_reducible refine Sub.tr ?_ hm); exact rfl) | with_reducible apply Keeps.ite | with_reducible apply KeepsR.ok | with_reducible apply KeepsR.ite | with_reducible apply ok_keeps | with_reducible apply State.issue_keeps | with_reducible apply State.illegal_keeps | with_reducible apply State.atom_keeps | split | with_reducible refine Keeps.eqNext (by assumption) ?_

theorem State.fenceStores_keeps {s0 : Orig} {s : State} (h : Keeps s0 s) (a : Agent) (f : Nat) (hm : Sub 214756753666 s0.m) : Keeps s0 (State.fenceStores s a f) := by
  unfold State.fenceStores
  try dsimp only
  repeat' first | with_reducible assumption | with_reducible intro _ | ((with_reducible refine Sub.tr ?_ hm); exact rfl) | with_reducible apply Keeps.ite | with_reducible apply State.drainStores_keeps | with_reducible apply State.putSbuf_keeps | split

theorem execFence_keeps {s0 : Orig} {s : State} (h : Keeps s0 s) (a : Agent) (w : BitVec 26) (hm : Sub 1871003779338 s0.m) : KeepsR s0 (execFence a w s) := by
  unfold execFence
  try dsimp only
  repeat' first | with_reducible assumption | with_reducible intro _ | ((with_reducible refine Sub.tr ?_ hm); exact rfl) | with_reducible apply Keeps.ite | with_reducible apply KeepsR.ok | with_reducible apply KeepsR.ite | with_reducible apply ok_keeps | with_reducible apply State.issue_keeps | with_reducible apply State.illegal_keeps | with_reducible apply State.fenceStores_keeps | with_reducible apply State.setBlocked_keeps | with_reducible apply State.next_keeps | split | with_reducible refine Keeps.eqNext (by assumption) ?_

theorem execFenceArriveDone_keeps {s0 : Orig} {s : State} (h : Keeps s0 s) (a : Initiator) (hm : Sub 9223373903563587866 s0.m) : KeepsR s0 (execFenceArriveDone a s) := by
  unfold execFenceArriveDone
  try dsimp only
  repeat' first | with_reducible assumption | with_reducible intro _ | ((with_reducible refine Sub.tr ?_ hm); exact rfl) | with_reducible apply Keeps.ite | with_reducible apply KeepsR.ok | with_reducible apply KeepsR.ite | with_reducible apply ok_keeps | with_reducible apply State.dwFenceDone_keeps | with_reducible apply State.drainStores_keeps | with_reducible apply State.setBlocked_keeps | with_reducible apply State.next_keeps | split | with_reducible refine Keeps.eqNext (by assumption) ?_

end Sys2Proof.Machine
end

