-- ==== Sys2Proof/Laws/KeepsGX.lean ====
section
/-! SUPPORT. The operations of Machine/GX.lean keep the queue of commands and the canonical form, and change no part outside
their footprint. -/

set_option linter.unusedSimpArgs false
set_option linter.unusedVariables false
set_option Elab.async false

namespace Sys2Proof.Machine

theorem State.gxPiece_keeps {s0 : Orig} {s : State} (h : Keeps s0 s) (a : Agent) (k : Acc) (va n : Nat) (hm : Sub 9296276201842966926 s0.m := by first | assumption | exact Sub.tr rfl (by assumption)) : KeepsQ s0 (State.gxPiece s a k va n) := by
  unfold State.gxPiece
  try dsimp only
  repeat' first | with_reducible assumption | with_reducible intro _ | ((with_reducible refine Sub.tr ?_ hm); exact rfl) | with_reducible apply Keeps.ite | with_reducible apply KeepsQ.ite | with_reducible apply State.translate_keeps | with_reducible apply ok_keeps | with_reducible apply State.store_keeps | with_reducible apply State.load_keeps | with_reducible apply State.eccRead_keeps | simp -zeta only [KeepsP.pair, KeepsQ.pair] | with_reducible apply KeepsQ.snd | split | with_reducible refine Keeps.eqSnd (by assumption) ?_

theorem State.gxPieces_keeps {s0 : Orig} {s : State} (h : Keeps s0 s) (a : Agent) (k : Acc) (l : List (Nat × Nat)) (hm : Sub 9296276201842966926 s0.m := by first | assumption | exact Sub.tr rfl (by assumption)) :
    KeepsQ s0 (State.gxPieces s a k l) := by
  induction l generalizing s with
  | nil => exact h
  | cons p l ih =>
    unfold State.gxPieces
    have k1 := State.gxPiece_keeps h a k p.1 p.2
    generalize s.gxPiece a k p.1 p.2 = r at k1 ⊢
    obtain ⟨e, s1⟩ := r
    have k1 : Keeps s0 s1 := k1
    cases e with
    | error c => exact k1
    | ok q =>
      have k2 := ih k1
      dsimp only
      generalize s1.gxPieces a k l = r at k2 ⊢
      obtain ⟨e, s2⟩ := r
      cases e <;> exact k2

theorem State.gxStore_keeps {s0 : Orig} {s : State} (h : Keeps s0 s) (host : Bool) (l : List (Nat × Nat)) (bs : List Byte) (hm : Sub 206166819074 s0.m := by first | assumption | exact Sub.tr rfl (by assumption)) :
    Keeps s0 (State.gxStore s host l bs) := by
  induction l generalizing s bs with
  | nil => exact h
  | cons p l ih => exact ih (State.progStore_keeps h _ _ _) _

theorem State.gxCheck_keeps {s0 : Orig} {s : State} (h : Keeps s0 s) (d : GxDesc) (b : Bool) (x y : Int) (hm : Sub 1031329284106 s0.m) : KeepsQ s0 (State.gxCheck s d b x y) := by
  unfold State.gxCheck
  try dsimp only
  repeat' first | with_reducible assumption | with_reducible intro _ | ((with_reducible refine Sub.tr ?_ hm); exact rfl) | with_reducible apply Keeps.ite | with_reducible apply KeepsQ.ite | with_reducible apply State.each_keeps | with_reducible apply State.eccRead_keeps | simp -zeta only [KeepsP.pair, KeepsQ.pair] | with_reducible apply KeepsQ.snd | split | with_reducible refine Keeps.eqSnd (by assumption) ?_

theorem State.gxDone_keeps {s0 : Orig} {s : State} (h : Keeps s0 s) (a : Agent) (w : BitVec 26) (v : Dword) (hm : Sub 1101659111424 s0.m) : Keeps s0 (State.gxDone s a w v) := by
  unfold State.gxDone
  try dsimp only
  repeat' first | with_reducible assumption | with_reducible intro _ | ((with_reducible refine Sub.tr ?_ hm); exact rfl) | with_reducible apply Keeps.ite | with_reducible apply State.setG_keeps | with_reducible apply State.next_keeps | split

theorem State.gxReading_keeps {s0 : Orig} {s : State} (h : Keeps s0 s) (build : Bool) (ns : Nat) (hm : Sub 140737488355328 s0.m) : Keeps s0 (State.gxReading s build ns) := by
  unfold State.gxReading
  try dsimp only
  repeat' first | with_reducible assumption | with_reducible intro _ | ((with_reducible refine Sub.tr ?_ hm); exact rfl) | with_reducible apply Keeps.ite | with_reducible apply State.putTbl_keeps | split

theorem State.gxrdBody_keeps {s0 : Orig} {s : State} (h : Keeps s0 s) (a : Agent) (w : BitVec 26) (ns : Nat) (hm : Sub 9296416939331322254 s0.m) : Keeps s0 (State.gxrdBody s a w ns) := by
  unfold State.gxrdBody
  try dsimp only
  repeat' first | with_reducible assumption | with_reducible intro _ | ((with_reducible refine Sub.tr ?_ hm); exact rfl) | with_reducible apply Keeps.ite | with_reducible apply KeepsQ.ite | with_reducible apply State.gxDone_keeps | with_reducible apply State.gxPieces_keeps | with_reducible apply State.store_keeps | with_reducible apply State.takeTrap_keeps | with_reducible apply ok_keeps | with_reducible apply State.gxCheck_keeps | with_reducible apply State.drainStores_keeps | with_reducible apply State.gxReading_keeps | with_reducible apply State.gxStore_keeps | simp -zeta only [KeepsP.pair, KeepsQ.pair] | with_reducible apply KeepsQ.snd | split | with_reducible refine Keeps.eqSnd (by assumption) ?_

theorem execGxrd_keeps {s0 : Orig} {s : State} (h : Keeps s0 s) (a : Agent) (w : GxWord) (hm : Sub 9296416939331322254 s0.m) : KeepsR s0 (execGxrd a w s) := by
  unfold execGxrd
  try dsimp only
  repeat' first | with_reducible assumption | with_reducible intro _ | ((with_reducible refine Sub.tr ?_ hm); exact rfl) | with_reducible apply Keeps.ite | with_reducible apply KeepsR.ok | with_reducible apply KeepsR.ite | with_reducible apply ok_keeps | with_reducible apply State.issue_keeps | with_reducible apply State.gxrdBody_keeps | split | with_reducible refine Keeps.eqNext (by assumption) ?_

theorem State.gxwrBody_keeps {s0 : Orig} {s : State} (h : Keeps s0 s) (a : Agent) (w : BitVec 26) (ns : Nat) (hm : Sub 9296416939331322254 s0.m) : Keeps s0 (State.gxwrBody s a w ns) := by
  unfold State.gxwrBody
  try dsimp only
  repeat' first | with_reducible assumption | with_reducible intro _ | ((with_reducible refine Sub.tr ?_ hm); exact rfl) | with_reducible apply Keeps.ite | with_reducible apply KeepsQ.ite | with_reducible apply State.each_keeps | with_reducible apply State.gxDone_keeps | with_reducible apply State.drainStores_keeps | with_reducible apply State.gxPieces_keeps | with_reducible apply State.load_keeps | with_reducible apply State.takeTrap_keeps | with_reducible apply ok_keeps | with_reducible apply State.gxPut_keeps | with_reducible apply State.putTbl_keeps | simp -zeta only [KeepsP.pair, KeepsQ.pair] | with_reducible apply KeepsQ.snd | split | with_reducible refine Keeps.eqSnd (by assumption) ?_

theorem execGxwr_keeps {s0 : Orig} {s : State} (h : Keeps s0 s) (a : Agent) (w : GxWord) (hm : Sub 9296416939331322254 s0.m) : KeepsR s0 (execGxwr a w s) := by
  unfold execGxwr
  try dsimp only
  repeat' first | with_reducible assumption | with_reducible intro _ | ((with_reducible refine Sub.tr ?_ hm); exact rfl) | with_reducible apply Keeps.ite | with_reducible apply KeepsR.ok | with_reducible apply KeepsR.ite | with_reducible apply ok_keeps | with_reducible apply State.issue_keeps | with_reducible apply State.gxwrBody_keeps | split | with_reducible refine Keeps.eqNext (by assumption) ?_

theorem State.gxrunBody_keeps {s0 : Orig} {s : State} (h : Keeps s0 s) (a : Agent) (w : BitVec 26) (hm : Sub 141839281684480 s0.m) : Keeps s0 (State.gxrunBody s a w) := by
  unfold State.gxrunBody
  try dsimp only
  repeat' first | with_reducible assumption | with_reducible intro _ | ((with_reducible refine Sub.tr ?_ hm); exact rfl) | with_reducible apply Keeps.ite | with_reducible apply KeepsP.ite | with_reducible apply State.setBlocked_keeps | with_reducible apply State.jobQueue_keeps | with_reducible apply State.gxDone_keeps | simp -zeta only [KeepsP.pair, KeepsQ.pair] | with_reducible apply KeepsP.fst | split | with_reducible refine Keeps.eqFst (by assumption) ?_

theorem execGxrun_keeps {s0 : Orig} {s : State} (h : Keeps s0 s) (a : Agent) (w : BitVec 26) (hm : Sub 142393869598730 s0.m) : KeepsR s0 (execGxrun a w s) := by
  unfold execGxrun
  try dsimp only
  repeat' first | with_reducible assumption | with_reducible intro _ | ((with_reducible refine Sub.tr ?_ hm); exact rfl) | with_reducible apply Keeps.ite | with_reducible apply KeepsR.ok | with_reducible apply KeepsR.ite | with_reducible apply ok_keeps | with_reducible apply State.issue_keeps | with_reducible apply State.gxrunBody_keeps | split | with_reducible refine Keeps.eqNext (by assumption) ?_

theorem execGxrunUnblock_keeps {s0 : Orig} {s : State} (h : Keeps s0 s) (a : Agent) (hm : Sub 141839281684480 s0.m) : KeepsR s0 (execGxrunUnblock a s) := by
  unfold execGxrunUnblock
  try dsimp only
  repeat' first | with_reducible assumption | with_reducible intro _ | ((with_reducible refine Sub.tr ?_ hm); exact rfl) | with_reducible apply Keeps.ite | with_reducible apply KeepsR.ok | with_reducible apply KeepsR.ite | with_reducible apply ok_keeps | with_reducible apply State.setBlocked_keeps | with_reducible apply State.gxrunBody_keeps | split | with_reducible refine Keeps.eqNext (by assumption) ?_

theorem State.gxwaitBody_keeps {s0 : Orig} {s : State} (h : Keeps s0 s) (a : Agent) (w : BitVec 26) (hm : Sub 1101659111424 s0.m) : Keeps s0 (State.gxwaitBody s a w) := by
  unfold State.gxwaitBody
  try dsimp only
  repeat' first | with_reducible assumption | with_reducible intro _ | ((with_reducible refine Sub.tr ?_ hm); exact rfl) | with_reducible apply Keeps.ite | with_reducible apply State.setBlocked_keeps | with_reducible apply State.gxDone_keeps | split

theorem execGxwait_keeps {s0 : Orig} {s : State} (h : Keeps s0 s) (a : Agent) (w : BitVec 26) (hm : Sub 1656247025674 s0.m) : KeepsR s0 (execGxwait a w s) := by
  unfold execGxwait
  try dsimp only
  repeat' first | with_reducible assumption | with_reducible intro _ | ((with_reducible refine Sub.tr ?_ hm); exact rfl) | with_reducible apply Keeps.ite | with_reducible apply KeepsR.ok | with_reducible apply KeepsR.ite | with_reducible apply ok_keeps | with_reducible apply State.issue_keeps | with_reducible apply State.illegal_keeps | with_reducible apply State.gxwaitBody_keeps | split | with_reducible refine Keeps.eqNext (by assumption) ?_

theorem State.gxwaitAgain_keeps {s0 : Orig} {s : State} (h : Keeps s0 s) (a : Agent) (hm : Sub 1101659111424 s0.m) : Keeps s0 (State.gxwaitAgain s a) := by
  unfold State.gxwaitAgain
  try dsimp only
  repeat' first | with_reducible assumption | with_reducible intro _ | ((with_reducible refine Sub.tr ?_ hm); exact rfl) | with_reducible apply Keeps.ite | with_reducible apply State.setBlocked_keeps | with_reducible apply State.gxwaitBody_keeps | split

theorem State.gxwaitAll_keeps {s0 : Orig} {s : State} (h : Keeps s0 s)  (hm : Sub 1101659111424 s0.m) : Keeps s0 (State.gxwaitAll s) := by
  unfold State.gxwaitAll
  try dsimp only
  repeat' first | with_reducible assumption | with_reducible intro _ | ((with_reducible refine Sub.tr ?_ hm); exact rfl) | with_reducible apply Keeps.ite | with_reducible apply State.each_keeps | with_reducible apply State.gxwaitAgain_keeps | split

theorem execTensorJobEnd_keeps {s0 : Orig} {s : State} (h : Keeps s0 s) (j : Nat) (data : List Byte) (hm : Sub 142045314285570 s0.m) : KeepsR s0 (execTensorJobEnd j data s) := by
  unfold execTensorJobEnd
  try dsimp only
  repeat' first | with_reducible assumption | with_reducible intro _ | ((with_reducible refine Sub.tr ?_ hm); exact rfl) | with_reducible apply Keeps.ite | with_reducible apply KeepsR.ok | with_reducible apply KeepsR.ite | with_reducible apply ok_keeps | with_reducible apply State.engStore_keeps | with_reducible apply State.putTbl_keeps | with_reducible apply State.gxwaitAll_keeps | split | with_reducible refine Keeps.eqNext (by assumption) ?_

theorem execTabletopCut_keeps {s0 : Orig} {s : State} (h : Keeps s0 s) (t : Nat) (sums : List (Fin 16 × Fin 256 × BitVec 64)) (fused : List (Fin 16777216 × Byte)) (hm : Sub 72199983855829256 s0.m) : KeepsR s0 (execTabletopCut t sums fused s) := by
  unfold execTabletopCut
  try dsimp only
  repeat' first | with_reducible assumption | with_reducible intro _ | ((with_reducible refine Sub.tr ?_ hm); exact rfl) | with_reducible apply Keeps.ite | with_reducible apply KeepsR.ok | with_reducible apply KeepsR.ite | with_reducible apply ok_keeps | with_reducible apply State.cutRun_keeps | with_reducible apply State.gxwaitAll_keeps | split | with_reducible refine Keeps.eqNext (by assumption) ?_

theorem execCycleSkip_keeps {s0 : Orig} {s : State} (h : Keeps s0 s)  (hm : Sub 72199983847440648 s0.m) : KeepsR s0 (execCycleSkip s) := by
  unfold execCycleSkip
  try dsimp only
  repeat' first | with_reducible assumption | with_reducible intro _ | ((with_reducible refine Sub.tr ?_ hm); exact rfl) | with_reducible apply Keeps.ite | with_reducible apply KeepsR.ok | with_reducible apply KeepsR.ite | with_reducible apply ok_keeps | with_reducible apply State.passTo_keeps | with_reducible apply State.cycleAbandon_keeps | with_reducible apply State.stopIfPending_keeps | with_reducible apply State.gxwaitAll_keeps | split | with_reducible refine Keeps.eqNext (by assumption) ?_

theorem execTblCycle_keeps {s0 : Orig} {s : State} (h : Keeps s0 s) (dt : Nat) (crop : List (Int × Byte)) (dets : List TblDet) (kat : BitVec 64) (pick : List (Nat × Nat)) (hm : Sub 72199983855829256 s0.m) : KeepsR s0 (execTblCycle dt crop dets kat pick s) := by
  unfold execTblCycle
  try dsimp only
  repeat' first | with_reducible assumption | with_reducible intro _ | ((with_reducible refine Sub.tr ?_ hm); exact rfl) | with_reducible apply Keeps.ite | with_reducible apply KeepsR.ok | with_reducible apply KeepsR.ite | with_reducible apply ok_keeps | with_reducible apply State.pass_keeps | with_reducible apply State.cyclePublish_keeps | with_reducible apply State.gxwaitAll_keeps | split | with_reducible refine Keeps.eqNext (by assumption) ?_

end Sys2Proof.Machine
end

