-- ==== Sys2Proof/Laws/KeepsService.lean ====
section
/-! SUPPORT. The operations of Machine/Service.lean keep the queue of commands and the canonical form, and change no part outside
their footprint. -/

set_option linter.unusedSimpArgs false
set_option linter.unusedVariables false
set_option Elab.async false

namespace Sys2Proof.Machine

theorem State.svcMod_keeps {s0 : Orig} {s : State} (h : Keeps s0 s) (id : Nat) (f : Session → Session) (hm : Sub 9007199254740992 s0.m) : Keeps s0 (State.svcMod s id f) := by
  unfold State.svcMod
  try dsimp only
  repeat' first | with_reducible assumption | with_reducible intro _ | ((with_reducible refine Sub.tr ?_ hm); exact rfl) | with_reducible apply Keeps.ite | with_reducible apply State.putSvc_keeps | split

theorem State.answer_keeps {s0 : Orig} {s : State} (h : Keeps s0 s) (r : Option (List Byte)) (hm : Sub 16777216 s0.m) : Keeps s0 (State.answer s r) := by
  unfold State.answer
  try dsimp only
  repeat' first | with_reducible assumption | with_reducible intro _ | ((with_reducible refine Sub.tr ?_ hm); exact rfl) | with_reducible apply Keeps.ite | with_reducible apply KeepsR.ok | with_reducible apply KeepsR.ite | with_reducible apply State.putResp_keeps | split | with_reducible refine Keeps.eqNext (by assumption) ?_

theorem State.request_keeps {s0 : Orig} {s : State} (h : Keeps s0 s) (typ : Nat) (sess sq : BitVec 16) (minimal : Bool) (body : Session → State → State × SvcAns) (hbody : ∀ x0 x1, Keeps s0 x1 → KeepsP s0 (body x0 x1)) (hm : Sub 9007199271518208 s0.m) : Keeps s0 (State.request s typ sess sq minimal body) := by
  unfold State.request
  try dsimp only
  repeat' first | with_reducible assumption | with_reducible intro _ | ((with_reducible refine Sub.tr ?_ hm); exact rfl) | with_reducible apply hbody | with_reducible apply Keeps.ite | with_reducible apply KeepsP.ite | with_reducible apply State.answer_keeps | with_reducible apply State.svcMod_keeps | simp -zeta only [KeepsP.pair, KeepsQ.pair] | with_reducible apply KeepsP.fst | split | with_reducible refine Keeps.eqFst (by assumption) ?_

theorem State.svcRecord_keeps {s0 : Orig} {s : State} (h : Keeps s0 s) (vers : List (Byte × Byte)) (v : Nat × Nat) (hm : Sub 131072 s0.m) : Keeps s0 (State.svcRecord s vers v) := by
  unfold State.svcRecord
  try dsimp only
  repeat' first | with_reducible assumption | with_reducible intro _ | ((with_reducible refine Sub.tr ?_ hm); exact rfl) | with_reducible apply Keeps.ite | with_reducible apply State.wrN_keeps | split

theorem State.svcOpen_keeps {s0 : Orig} {s : State} (h : Keeps s0 s) (port : Nat) (client sq : Nat) (vers : List (Byte × Byte)) (hm : Sub 9007199405867008 s0.m) : Keeps s0 (State.svcOpen s port client sq vers) := by
  unfold State.svcOpen
  try dsimp only
  repeat' first | with_reducible assumption | with_reducible intro _ | ((with_reducible refine Sub.tr ?_ hm); exact rfl) | with_reducible apply Keeps.ite | with_reducible apply State.drawn_keeps | with_reducible apply State.svcRecord_keeps | with_reducible apply State.incF_keeps | with_reducible apply State.putSvc_keeps | with_reducible apply State.answer_keeps | split

theorem execSvcHello_keeps {s0 : Orig} {s : State} (h : Keeps s0 s) (port : Fin 5) (client : Nat) (sq : BitVec 16) (vers : List (Byte × Byte)) (hm : Sub 9007199405867008 s0.m) : KeepsR s0 (execSvcHello port client sq vers s) := by
  unfold execSvcHello
  try dsimp only
  repeat' first | with_reducible assumption | with_reducible intro _ | ((with_reducible refine Sub.tr ?_ hm); exact rfl) | with_reducible apply Keeps.ite | with_reducible apply KeepsR.ok | with_reducible apply KeepsR.ite | with_reducible apply ok_keeps | with_reducible apply State.answer_keeps | with_reducible apply State.putSvc_keeps | with_reducible apply State.svcOpen_keeps | split | with_reducible refine Keeps.eqNext (by assumption) ?_

theorem execSvcBye_keeps {s0 : Orig} {s : State} (h : Keeps s0 s) (sess sq : BitVec 16) (hm : Sub 9007199271518208 s0.m) : KeepsR s0 (execSvcBye sess sq s) := by
  unfold execSvcBye
  try dsimp only
  repeat' first | with_reducible assumption | with_reducible intro _ | ((with_reducible refine Sub.tr ?_ hm); exact rfl) | with_reducible apply Keeps.ite | with_reducible apply KeepsR.ok | with_reducible apply KeepsR.ite | with_reducible apply KeepsP.ite | with_reducible apply State.request_keeps | with_reducible apply ok_keeps | with_reducible apply State.putSvc_keeps | simp -zeta only [KeepsP.pair, KeepsQ.pair] | with_reducible apply KeepsP.fst | split | with_reducible refine Keeps.eqFst (by assumption) ?_ | with_reducible refine Keeps.eqNext (by assumption) ?_

theorem execSessionTimeout_keeps {s0 : Orig} {s : State} (h : Keeps s0 s) (sess : BitVec 16) (hm : Sub 81064793393332224 s0.m) : KeepsR s0 (execSessionTimeout sess s) := by
  unfold execSessionTimeout
  try dsimp only
  repeat' first | with_reducible assumption | with_reducible intro _ | ((with_reducible refine Sub.tr ?_ hm); exact rfl) | with_reducible apply Keeps.ite | with_reducible apply KeepsR.ok | with_reducible apply KeepsR.ite | with_reducible apply State.pass_keeps | with_reducible apply ok_keeps | with_reducible apply State.putSvc_keeps | split | with_reducible refine Keeps.eqNext (by assumption) ?_

theorem execSvcStatus_keeps {s0 : Orig} {s : State} (h : Keeps s0 s) (sess sq : BitVec 16) (hm : Sub 9007199271518208 s0.m) : KeepsR s0 (execSvcStatus sess sq s) := by
  unfold execSvcStatus
  try dsimp only
  repeat' first | with_reducible assumption | with_reducible intro _ | ((with_reducible refine Sub.tr ?_ hm); exact rfl) | with_reducible apply Keeps.ite | with_reducible apply KeepsR.ok | with_reducible apply KeepsR.ite | with_reducible apply KeepsP.ite | with_reducible apply ok_keeps | with_reducible apply State.request_keeps | simp -zeta only [KeepsP.pair, KeepsQ.pair] | with_reducible apply KeepsP.fst | split | with_reducible refine Keeps.eqFst (by assumption) ?_ | with_reducible refine Keeps.eqNext (by assumption) ?_

theorem execSvcUpdBegin_keeps {s0 : Orig} {s : State} (h : Keeps s0 s) (sess sq : BitVec 16) (region : BitVec 8) (resume : Bool) (token : BitVec 16) (size : Word) (hm : Sub 13511349334573064 s0.m) : KeepsR s0 (execSvcUpdBegin sess sq region resume token size s) := by
  unfold execSvcUpdBegin
  try dsimp only
  repeat' first | with_reducible assumption | with_reducible intro _ | ((with_reducible refine Sub.tr ?_ hm); exact rfl) | with_reducible apply Keeps.ite | with_reducible apply KeepsR.ok | with_reducible apply KeepsR.ite | with_reducible apply KeepsP.ite | with_reducible apply ok_keeps | with_reducible apply State.request_keeps | with_reducible apply State.updBegin_keeps | simp -zeta only [KeepsP.pair, KeepsQ.pair] | with_reducible apply KeepsP.fst | split | with_reducible refine Keeps.eqFst (by assumption) ?_ | with_reducible refine Keeps.eqNext (by assumption) ?_

theorem execSvcUpdData_keeps {s0 : Orig} {s : State} (h : Keeps s0 s) (sess sq token : BitVec 16) (region : BitVec 8) (block : Word) (part : Fin 4) (crc : Word) (data : List Byte) (hm : Sub 13528941386399752 s0.m) : KeepsR s0 (execSvcUpdData sess sq token region block part crc data s) := by
  unfold execSvcUpdData
  try dsimp only
  repeat' first | with_reducible assumption | with_reducible intro _ | ((with_reducible refine Sub.tr ?_ hm); exact rfl) | with_reducible apply Keeps.ite | with_reducible apply KeepsR.ok | with_reducible apply KeepsR.ite | with_reducible apply KeepsP.ite | with_reducible apply ok_keeps | with_reducible apply State.request_keeps | with_reducible apply State.svcMod_keeps | with_reducible apply State.blockErr_keeps | with_reducible apply State.updWrite_keeps | simp -zeta only [KeepsP.pair, KeepsQ.pair] | with_reducible apply KeepsP.fst | split | with_reducible refine Keeps.eqFst (by assumption) ?_ | with_reducible refine Keeps.eqNext (by assumption) ?_

theorem execSvcUpdFinish_keeps {s0 : Orig} {s : State} (h : Keeps s0 s) (sess sq token : BitVec 16) (region : BitVec 8) (hm : Sub 13511349191966728 s0.m) : KeepsR s0 (execSvcUpdFinish sess sq token region s) := by
  unfold execSvcUpdFinish
  try dsimp only
  repeat' first | with_reducible assumption | with_reducible intro _ | ((with_reducible refine Sub.tr ?_ hm); exact rfl) | with_reducible apply Keeps.ite | with_reducible apply KeepsR.ok | with_reducible apply KeepsR.ite | with_reducible apply KeepsP.ite | with_reducible apply ok_keeps | with_reducible apply State.request_keeps | with_reducible apply State.updFinish_keeps | simp -zeta only [KeepsP.pair, KeepsQ.pair] | with_reducible apply KeepsP.fst | split | with_reducible refine Keeps.eqFst (by assumption) ?_ | with_reducible refine Keeps.eqNext (by assumption) ?_

theorem execSvcUpdAbort_keeps {s0 : Orig} {s : State} (h : Keeps s0 s) (sess sq token : BitVec 16) (region : BitVec 8) (hm : Sub 13511349191966728 s0.m) : KeepsR s0 (execSvcUpdAbort sess sq token region s) := by
  unfold execSvcUpdAbort
  try dsimp only
  repeat' first | with_reducible assumption | with_reducible intro _ | ((with_reducible refine Sub.tr ?_ hm); exact rfl) | with_reducible apply Keeps.ite | with_reducible apply KeepsR.ok | with_reducible apply KeepsR.ite | with_reducible apply KeepsP.ite | with_reducible apply ok_keeps | with_reducible apply State.request_keeps | with_reducible apply State.updAbort_keeps | simp -zeta only [KeepsP.pair, KeepsQ.pair] | with_reducible apply KeepsP.fst | split | with_reducible refine Keeps.eqFst (by assumption) ?_ | with_reducible refine Keeps.eqNext (by assumption) ?_

theorem execSvcUpdConfirm_keeps {s0 : Orig} {s : State} (h : Keeps s0 s) (sess sq mask : BitVec 16) (hm : Sub 9007749564596232 s0.m) : KeepsR s0 (execSvcUpdConfirm sess sq mask s) := by
  unfold execSvcUpdConfirm
  try dsimp only
  repeat' first | with_reducible assumption | with_reducible intro _ | ((with_reducible refine Sub.tr ?_ hm); exact rfl) | with_reducible apply Keeps.ite | with_reducible apply KeepsR.ok | with_reducible apply KeepsR.ite | with_reducible apply KeepsP.ite | with_reducible apply ok_keeps | with_reducible apply State.request_keeps | with_reducible apply State.updConfirm_keeps | simp -zeta only [KeepsP.pair, KeepsQ.pair] | with_reducible apply KeepsP.fst | split | with_reducible refine Keeps.eqFst (by assumption) ?_ | with_reducible refine Keeps.eqNext (by assumption) ?_

theorem execSvcBureauRead_keeps {s0 : Orig} {s : State} (h : Keeps s0 s) (sess sq : BitVec 16) (first : Word) (count : Byte) (hm : Sub 9007199271518208 s0.m) : KeepsR s0 (execSvcBureauRead sess sq first count s) := by
  unfold execSvcBureauRead
  try dsimp only
  repeat' first | with_reducible assumption | with_reducible intro _ | ((with_reducible refine Sub.tr ?_ hm); exact rfl) | with_reducible apply Keeps.ite | with_reducible apply KeepsR.ok | with_reducible apply KeepsR.ite | with_reducible apply KeepsP.ite | with_reducible apply ok_keeps | with_reducible apply State.request_keeps | simp -zeta only [KeepsP.pair, KeepsQ.pair] | with_reducible apply KeepsP.fst | split | with_reducible refine Keeps.eqFst (by assumption) ?_ | with_reducible refine Keeps.eqNext (by assumption) ?_

theorem execSvcRestart_keeps {s0 : Orig} {s : State} (h : Keeps s0 s) (sess sq : BitVec 16) (e : BootEnv) (hm : Sub 36893488147419103230 s0.m) : KeepsR s0 (execSvcRestart sess sq e s) := by
  unfold execSvcRestart
  try dsimp only
  repeat' first | with_reducible assumption | with_reducible intro _ | ((with_reducible refine Sub.tr ?_ hm); exact rfl) | with_reducible apply Keeps.ite | with_reducible apply KeepsR.ok | with_reducible apply KeepsR.ite | with_reducible apply KeepsP.ite | with_reducible apply State.request_keeps | with_reducible apply State.powerOn_keeps | with_reducible apply State.coreReset_keeps | with_reducible apply ok_keeps | with_reducible apply State.putResp_keeps | simp -zeta only [KeepsP.pair, KeepsQ.pair] | with_reducible apply KeepsP.fst | split | with_reducible refine Keeps.eqFst (by assumption) ?_ | with_reducible refine Keeps.eqNext (by assumption) ?_ | ((with_reducible refine Sub.blk _ ?_ hm); exact rfl)

theorem execCartState_keeps {s0 : Orig} {s : State} (h : Keeps s0 s) (stamp : Nat) (body : List Byte) (hm : Sub 18014398509481984 s0.m) : KeepsR s0 (execCartState stamp body s) := by
  unfold execCartState
  try dsimp only
  repeat' first | with_reducible assumption | with_reducible intro _ | ((with_reducible refine Sub.tr ?_ hm); exact rfl) | with_reducible apply Keeps.ite | with_reducible apply KeepsR.ok | with_reducible apply KeepsR.ite | with_reducible apply ok_keeps | with_reducible apply State.putCart_keeps | split | with_reducible refine Keeps.eqNext (by assumption) ?_

theorem execCouplingLost_keeps {s0 : Orig} {s : State} (h : Keeps s0 s)  (hm : Sub 90071992648073216 s0.m) : KeepsR s0 (execCouplingLost s) := by
  unfold execCouplingLost
  try dsimp only
  repeat' first | with_reducible assumption | with_reducible intro _ | ((with_reducible refine Sub.tr ?_ hm); exact rfl) | with_reducible apply Keeps.ite | with_reducible apply KeepsR.ok | with_reducible apply KeepsR.ite | with_reducible apply State.pass_keeps | with_reducible apply ok_keeps | with_reducible apply State.putCart_keeps | split | with_reducible refine Keeps.eqNext (by assumption) ?_

end Sys2Proof.Machine
end

