-- ==== Sys2Proof/Laws/KeepsTick.lean ====
section
/-! SUPPORT. The operations of Machine/Tick.lean keep the queue of commands and the canonical form, and change no part outside
their footprint. -/

set_option linter.unusedSimpArgs false
set_option linter.unusedVariables false
set_option Elab.async false

namespace Sys2Proof.Machine

theorem State.tick_keeps {s0 : Orig} {s : State} (h : Keeps s0 s)  (hm : Sub 9298526406298796088 s0.m) : Keeps s0 (State.tick s) := by
  unfold State.tick
  try dsimp only
  repeat' first | with_reducible assumption | with_reducible intro _ | ((with_reducible refine Sub.tr ?_ hm); exact rfl) | with_reducible apply Keeps.ite | with_reducible apply State.pass_keeps | with_reducible apply State.camStartWait_keeps | with_reducible apply State.dwGoOnAll_keeps | with_reducible apply State.tmsgQueue_keeps | with_reducible apply State.hostRx_keeps | split

end Sys2Proof.Machine
end

