-- ==== Sys2Proof/Laws/KeepsTransfer.lean ====
section
/-! SUPPORT. The operations of Machine/Transfer.lean keep the queue of commands and the canonical form, and change no part outside
their footprint. -/

set_option linter.unusedSimpArgs false
set_option linter.unusedVariables false
set_option Elab.async false

namespace Sys2Proof.Machine

theorem State.dwReadReg_keeps {s0 : Orig} {s : State} (h : Keeps s0 s) (n : Nat) (b : Block) (o : Nat) (hm : Sub 9296274606254227612 s0.m := by first | assumption | exact Sub.tr rfl (by assumption)) : KeepsQ s0 (State.dwReadReg s n b o) := by
  unfold State.dwReadReg
  try dsimp only
  repeat' first | with_reducible assumption | with_reducible intro _ | ((with_reducible refine Sub.tr ?_ hm); exact rfl) | with_reducible apply Keeps.ite | with_reducible apply KeepsQ.ite | with_reducible apply State.regRead_keeps | with_reducible apply State.dwUnderrun_keeps | simp -zeta only [KeepsP.pair, KeepsQ.pair] | with_reducible apply KeepsQ.snd | split | with_reducible refine Keeps.eqSnd (by assumption) ?_

theorem State.dwReadRegs_keeps {s0 : Orig} {s : State} (h : Keeps s0 s) (n : Nat) (b : Block) (o k : Nat) (hm : Sub 9296274606254227612 s0.m := by first | assumption | exact Sub.tr rfl (by assumption)) :
    KeepsQ s0 (State.dwReadRegs s n b o k) := by
  induction k generalizing s with
  | zero => exact h
  | succ k ih => exact ih (KeepsQ.snd (State.dwReadReg_keeps h n b o))

theorem State.dwReadBeat_keeps {s0 : Orig} {s : State} (h : Keeps s0 s) (n : Nat) (fixed : Bool) (a : Nat) (hm : Sub 9296275087290564766 s0.m := by first | assumption | exact Sub.tr rfl (by assumption)) : KeepsQ s0 (State.dwReadBeat s n fixed a) := by
  unfold State.dwReadBeat
  try dsimp only
  repeat' first | with_reducible assumption | with_reducible intro _ | ((with_reducible refine Sub.tr ?_ hm); exact rfl) | with_reducible apply Keeps.ite | with_reducible apply KeepsQ.ite | with_reducible apply State.dwReadRegs_keeps | with_reducible apply State.eccRead_keeps | simp -zeta only [KeepsP.pair, KeepsQ.pair] | with_reducible apply KeepsQ.snd | split | with_reducible refine Keeps.eqSnd (by assumption) ?_

theorem State.dwReadAll_keeps {s0 : Orig} {s : State} (h : Keeps s0 s) (n : Nat) (fixed : Bool) (k a : Nat) (hm : Sub 9296275087290564766 s0.m := by first | assumption | exact Sub.tr rfl (by assumption)) :
    KeepsQ s0 (State.dwReadAll s n fixed k a) := by
  induction k generalizing s a with
  | zero => exact h
  | succ k ih =>
    unfold State.dwReadAll
    have k1 := State.dwReadBeat_keeps h n fixed a
    generalize s.dwReadBeat n fixed a = r at k1 ⊢
    obtain ⟨e, s1⟩ := r
    have k1 : Keeps s0 s1 := k1
    cases e with
    | none => exact k1
    | some bs =>
      have k2 := ih k1 (if fixed then a else a + 16)
      dsimp only
      generalize s1.dwReadAll n fixed k (if fixed then a else a + 16) = r at k2 ⊢
      obtain ⟨e, s2⟩ := r
      cases e <;> exact k2

theorem State.dwWriteReg_keeps {s0 : Orig} {s : State} (h : Keeps s0 s) (b : Block) (o k : Nat) (bs : List Byte) (hm : Sub 36893488147402326014 s0.m := by first | assumption | exact Sub.tr rfl (by assumption)) :
    Keeps s0 (State.dwWriteReg s b o k bs) := by
  induction k generalizing s bs with
  | zero => exact h
  | succ k ih => exact ih (State.regWrite_keeps h _ _ _ (hb0 := Sub.blk b rfl hm)) _

theorem State.dwWriteMem_keeps {s0 : Orig} {s : State} (h : Keeps s0 s) (fixed : Bool) (k a : Nat) (bs : List Byte) (hm : Sub 206166819074 s0.m := by first | assumption | exact Sub.tr rfl (by assumption)) :
    KeepsQ s0 (State.dwWriteMem s fixed k a bs) := by
  induction k generalizing s a bs with
  | zero => exact h
  | succ k ih => exact ih (Keeps.ite (State.progStore_keeps h _ _ _) h) _ _

theorem State.dwAdvance_keeps {s0 : Orig} {s : State} (h : Keeps s0 s) (n : Nat) (x : DwXfer) (len : Nat) (hm : Sub 9223372587147722776 s0.m) : Keeps s0 (State.dwAdvance s n x len) := by
  unfold State.dwAdvance
  try dsimp only
  repeat' first | with_reducible assumption | with_reducible intro _ | ((with_reducible refine Sub.tr ?_ hm); exact rfl) | with_reducible apply Keeps.ite | with_reducible apply State.dwSetG_keeps | with_reducible apply State.dwMod_keeps | with_reducible apply State.dwNext_keeps | with_reducible apply State.dwShow_keeps | with_reducible apply State.dwGoOn_keeps | split

theorem State.dwWriteBurst_keeps {s0 : Orig} {s : State} (h : Keeps s0 s) (n : Nat) (x : DwXfer) (len : Nat) (bs : List Byte) (hm : Sub 36893488147402326014 s0.m) : Keeps s0 (State.dwWriteBurst s n x len bs) := by
  unfold State.dwWriteBurst
  try dsimp only
  repeat' first | with_reducible assumption | with_reducible intro _ | ((with_reducible refine Sub.tr ?_ hm); exact rfl) | with_reducible apply Keeps.ite | with_reducible apply KeepsQ.ite | with_reducible apply State.dwWriteReg_keeps | with_reducible apply State.dwAdvance_keeps | with_reducible apply State.dwRetried_keeps | with_reducible apply State.dwHalt_keeps | with_reducible apply State.dwWriteMem_keeps | with_reducible apply State.dwMod_keeps | simp -zeta only [KeepsP.pair, KeepsQ.pair] | with_reducible apply KeepsQ.snd | split | with_reducible refine Keeps.eqSnd (by assumption) ?_ | ((with_reducible refine Sub.blk _ ?_ hm); exact rfl)

theorem State.dwBurst_keeps {s0 : Orig} {s : State} (h : Keeps s0 s) (n : Nat) (x : DwXfer) (hm : Sub 36893488147402326014 s0.m) : Keeps s0 (State.dwBurst s n x) := by
  unfold State.dwBurst
  try dsimp only
  repeat' first | with_reducible assumption | with_reducible intro _ | ((with_reducible refine Sub.tr ?_ hm); exact rfl) | with_reducible apply Keeps.ite | with_reducible apply KeepsQ.ite | with_reducible apply State.putDmw_keeps | with_reducible apply State.setBit_keeps | with_reducible apply State.dwReadAll_keeps | with_reducible apply State.dwRetried_keeps | with_reducible apply State.dwHalt_keeps | with_reducible apply ok_keeps | with_reducible apply State.dwWriteBurst_keeps | simp -zeta only [KeepsP.pair, KeepsQ.pair] | with_reducible apply KeepsQ.snd | split | with_reducible refine Keeps.eqSnd (by assumption) ?_ | ((with_reducible refine Sub.blk _ ?_ hm); exact rfl)

theorem State.dwReturned_keeps {s0 : Orig} {s : State} (h : Keeps s0 s) (n : Nat) (hm : Sub 9223372587147722776 s0.m) : Keeps s0 (State.dwReturned s n) := by
  unfold State.dwReturned
  try dsimp only
  repeat' first | with_reducible assumption | with_reducible intro _ | ((with_reducible refine Sub.tr ?_ hm); exact rfl) | with_reducible apply Keeps.ite | with_reducible apply KeepsR.ok | with_reducible apply KeepsR.ite | with_reducible apply KeepsP.ite | with_reducible apply State.dwResolve_keeps | with_reducible apply State.dwShow_keeps | with_reducible apply State.dwFail_keeps | with_reducible apply State.dwLate_keeps | with_reducible apply State.dwMod_keeps | simp -zeta only [KeepsP.pair, KeepsQ.pair] | with_reducible apply KeepsP.fst | split | with_reducible refine Keeps.eqFst (by assumption) ?_ | with_reducible refine Keeps.eqNext (by assumption) ?_

theorem execBurstGrant_keeps {s0 : Orig} {s : State} (h : Keeps s0 s) (returned : List (Fin 64)) (hm : Sub 36893488147402326014 s0.m) : KeepsR s0 (execBurstGrant returned s) := by
  unfold execBurstGrant
  try dsimp only
  repeat' first | with_reducible assumption | with_reducible intro _ | ((with_reducible refine Sub.tr ?_ hm); exact rfl) | with_reducible apply Keeps.ite | with_reducible apply KeepsR.ok | with_reducible apply KeepsR.ite | with_reducible apply State.each_keeps | with_reducible apply ok_keeps | with_reducible apply State.dwGoOnAll_keeps | with_reducible apply State.dwReturned_keeps | with_reducible apply State.dwBurst_keeps | split | with_reducible refine Keeps.eqNext (by assumption) ?_ | ((with_reducible refine Sub.blk _ ?_ hm); exact rfl)

end Sys2Proof.Machine
end

