-- ==== Sys2Proof/Laws/Memory.lean ====
section
/-! SUPPORT. Memory: what a byte reads after a write, and the canonical form that every write keeps. -/

namespace Sys2Proof

/-- A key that no cell lists is not found. -/
theorem SMap.find_none {α : Type} (l : List (Nat × α)) (x : Nat) (h : ∀ c ∈ l, c.1 ≠ x) : SMap.find l x = none := by
  induction l with
  | nil => rfl
  | cons c l il =>
    obtain ⟨k, v⟩ := c
    rw [SMap.find, if_neg (h (k, v) (List.mem_cons_self ..))]
    exact il (fun d hd => h d (List.mem_cons_of_mem _ hd))

/-- What a run of values listed from a key on holds at a key. -/
theorem SMap.find_listed {α : Type} [DecidableEq α] (dflt : Nat → α) (vs : List α) (k x : Nat) :
    (SMap.find (SMap.listed dflt k vs) x).getD (dflt x) =
      if k ≤ x ∧ x < k + vs.length then vs.getD (x - k) (dflt x) else dflt x := by
  induction vs generalizing k with
  | nil => simp [SMap.listed, SMap.find]
  | cons v t ih =>
    have ih := ih (k + 1)
    simp only [SMap.listed, SMap.find_append, List.length_cons]
    by_cases h : k = x
    · subst h
      have hn : SMap.find (SMap.listed dflt (k + 1) t) k = none := by
        refine SMap.find_none _ _ (fun c hc => ?_)
        have := ((SMap.listed_spec dflt t (k + 1)).2 c hc).1.1
        omega
      by_cases hv : v = dflt k <;> simp [hv, SMap.find, hn]
    · have e : SMap.find (if v = dflt k then [] else [(k, v)]) x = none := by
        split <;> simp [SMap.find, h]
      rw [e, Option.none_or, ih]
      by_cases g : k + 1 ≤ x ∧ x < k + 1 + t.length
      · rw [if_pos g, if_pos (by omega), show x - k = (x - (k + 1)) + 1 by omega, List.getD_cons_succ]
      · rw [if_neg g, if_neg (by omega)]

/-- What a store reads at a key after consecutive values were written. -/
theorem SMap.get_blit {α : Type} [DecidableEq α] (dflt : Nat → α) (m : SMap α) (k x : Nat) (vs : List α) :
    (m.blit dflt k vs).get (dflt x) x =
      if k ≤ x ∧ x < k + vs.length then vs.getD (x - k) (dflt x) else m.get (dflt x) x := by
  have hl := SMap.find_listed dflt vs k x
  unfold SMap.get SMap.blit
  simp only [SMap.find_append]
  rw [SMap.find_filter (fun y => decide (y < k)), SMap.find_filter (fun y => decide (k + vs.length ≤ y))]
  by_cases h : k ≤ x ∧ x < k + vs.length
  · rw [if_pos h] at hl ⊢
    have h1 : ¬ x < k := by omega
    have h2 : ¬ k + vs.length ≤ x := by omega
    simpa [h1, h2] using hl
  · rw [if_neg h] at hl ⊢
    have hn : SMap.find (SMap.listed dflt k vs) x = none := by
      refine SMap.find_none _ _ (fun c hc => ?_)
      have := ((SMap.listed_spec dflt vs k).2 c hc).1
      omega
    rw [hn]
    by_cases g : x < k
    · have h2 : ¬ k + vs.length ≤ x := by omega
      simp [g, h2]
    · have h2 : k + vs.length ≤ x := by omega
      simp [g, h2]

/-- A row of rising cells holds what the cells hold at each key. -/
theorem SMap.row_eq {α : Type} (dflt : Nat → α) (cs : List (Nat × α)) (k n : Nat)
    (hp : cs.Pairwise (fun a b => a.1 < b.1)) (hk : ∀ c ∈ cs, k ≤ c.1) :
    SMap.row dflt cs k n = (List.range n).map (fun i => (SMap.find cs (k + i)).getD (dflt (k + i))) := by
  induction n generalizing k cs with
  | zero => cases cs <;> rfl
  | succ n ih =>
    rw [List.range_succ_eq_map, List.map_cons, List.map_map]
    cases cs with
    | nil =>
      rw [SMap.row, ih _ _ hp (by simp)]
      simp [SMap.find, Function.comp_def, Nat.add_assoc, Nat.add_comm 1]
    | cons c t =>
      obtain ⟨k', v⟩ := c
      rw [List.pairwise_cons] at hp
      have h0 : k ≤ k' := hk (k', v) (List.mem_cons_self ..)
      rw [SMap.row]
      by_cases h : k' = k
      · subst h
        rw [if_pos rfl, ih t (k' + 1) hp.2 (fun c hc => hp.1 c hc)]
        congr 1
        · simp [SMap.find]
        · apply List.map_congr_left
          intro i _
          have : ¬ k' = k' + (i + 1) := by omega
          simp [SMap.find, Nat.add_assoc, Nat.add_comm 1]
      · rw [if_neg h, ih ((k', v) :: t) (k + 1) (List.pairwise_cons.2 hp) (by
          intro c hc
          rcases List.mem_cons.1 hc with e | hc
          · subst e; show k + 1 ≤ k'; omega
          · have : k' < c.1 := hp.1 c hc
            omega)]
        congr 1
        · have hn : SMap.find ((k', v) :: t) k = none := by
            refine SMap.find_none _ _ (fun c hc => ?_)
            rcases List.mem_cons.1 hc with e | hc
            · subst e; show k' ≠ k; omega
            · have : k' < c.1 := hp.1 c hc
              omega
          simp [hn]
        · apply List.map_congr_left
          intro i _
          simp [Nat.add_assoc, Nat.add_comm 1]

namespace Machine

/-- A byte of memory after one byte is written. -/
theorem State.rdB_wrB (s : State) (a x : Nat) (v : Byte) : (s.wrB a v).rdB x = if x = a then v else s.rdB x :=
  SMap.get_set s.mem (blankByte a) v a x (blankByte x) (fun e => by rw [e])

/-- A byte of memory after bytes are written: those written, and every other as before. -/
theorem State.rdB_wrBytes (s : State) (a x : Nat) (l : List Byte) :
    (s.wrBytes a l).rdB x = if a ≤ x ∧ x < a + l.length then l.getD (x - a) (blankByte x) else s.rdB x :=
  SMap.get_blit blankByte s.mem a x l

/-- A byte depends on memory alone. -/
theorem State.rdB_congr (s t : State) (h : t.mem = s.mem) (x : Nat) : t.rdB x = s.rdB x := by
  unfold State.rdB; rw [h]

/-- Bytes depend on memory alone. -/
theorem State.rdBytes_congr (s t : State) (h : t.mem = s.mem) (a n : Nat) : t.rdBytes a n = s.rdBytes a n := by
  unfold State.rdBytes; rw [h]

/-- Bytes read from a canonical memory are the bytes at their addresses. -/
theorem State.rdBytes_eq (s : State) (a n : Nat) (h : Memory.wf s.mem = true) :
    s.rdBytes a n = (List.range n).map (fun i => s.rdB (a + i)) := by
  have hp := ((SMap.wf_iff blankByte s.mem).1 h).1
  unfold State.rdBytes
  rw [SMap.row_eq _ _ _ _ (hp.filter _) (fun c hc => by
    simp only [List.mem_filter, Bool.and_eq_true, decide_eq_true_eq] at hc; exact hc.2.1)]
  apply List.map_congr_left
  intro i hi
  have h1 : (decide (a ≤ a + i) && decide (a + i < a + n)) = true := by
    have := List.mem_range.1 hi
    simp; omega
  rw [SMap.find_filter (fun y => decide (a ≤ y) && decide (y < a + n)), if_pos h1]
  rfl

/-- Bytes just written read back. -/
theorem State.rdBytes_wrBytes (s : State) (a : Nat) (l : List Byte) (h : Memory.wf s.mem = true) :
    (s.wrBytes a l).rdBytes a l.length = l := by
  rw [State.rdBytes_eq (s.wrBytes a l) a l.length (SMap.wf_blit blankByte s.mem a l h)]
  apply List.ext_getElem (by simp)
  intro i h1 h2
  simp only [List.getElem_map, List.getElem_range, State.rdB_wrBytes]
  rw [if_pos (by omega), Nat.add_sub_cancel_left, List.getD_eq_getElem?_getD, List.getElem?_eq_getElem h2]
  rfl

/-- Bytes have the length asked for when laid out. -/
@[simp] theorem leBytes_length (n v : Nat) : (leBytes n v).length = n := by
  induction n generalizing v with
  | zero => rfl
  | succ n ih => simp [leBytes, ih]

/-- A number laid out in bytes reads back. -/
theorem leNat_leBytes (n v : Nat) : leNat (leBytes n v) = v % 2 ^ (8 * n) := by
  induction n generalizing v with
  | zero => simp [leBytes, leNat, Nat.mod_one]
  | succ n ih =>
    rw [leBytes, leNat, ih, BitVec.toNat_ofNat, show 8 * (n + 1) = 8 + 8 * n by omega, Nat.pow_add, Nat.mod_mul]

/-- Writing a byte keeps the canonical form. -/
theorem Memory.wf_wrB (s : State) (a : Nat) (v : Byte) (h : Memory.wf s.mem = true) : Memory.wf (s.wrB a v).mem = true :=
  SMap.wf_set blankByte s.mem a v h

/-- Writing bytes keeps the canonical form. -/
theorem Memory.wf_wrBytes (s : State) (a : Nat) (l : List Byte) (h : Memory.wf s.mem = true) :
    Memory.wf (s.wrBytes a l).mem = true := SMap.wf_blit blankByte s.mem a l h

/-- Memory at reset is canonical: it lists nothing. -/
theorem Memory.wf_reset : Memory.wf State.reset.mem = true := by decide

end Machine

end Sys2Proof
end

