-- ==== Sys2Proof/WellFormed.lean ====
section
/-! DEFINITION. The commands that can come: each operand fits what supplies it. The types of the operands bound most of them
(a channel is a Fin of the channels); this is the rest. -/

namespace Sys2Proof

/-- A command's operands fit: instants and durations are 64-bit nanoseconds, voltages and currents 16-bit, each list of readings
or bytes has the length that its rule gives. -/
def Instr.wellFormed (i : Instr) : Bool :=
  match i with
  | .rideReturn dt => decide (dt < 2 ^ 64)
  | .rideTimeExpired dt t => decide (dt < 2 ^ 64 ∧ t.length = 3)
  | .reserveBridgeExpired t => decide (t.length = 3)
  | .collapse t => decide (t.length = 3)
  | .reverseBatM t => decide (t.length = 3)
  | .gndMOpen mv => decide (mv < 2 ^ 16)
  | .overv mv => decide (mv < 2 ^ 16)
  | .feedLow _ mv => decide (mv < 2 ^ 16)
  | .feedLowClear _ mv => decide (mv < 2 ^ 16)
  | .journalEnd dt _ n => decide (dt < 2 ^ 64 ∧ n < 2 ^ 16)
  | .sequencerEnd dt => decide (dt < 2 ^ 64)
  | .bankMeasurement _ _ mv _ => decide (mv < 2 ^ 16)
  | .armedChg mv _ => decide (mv < 2 ^ 16)
  | .bankTestComplete mv _ => decide (mv < 2 ^ 16)
  | .pmAverage cycles => decide (cycles.length = 32)
  | .scrubRead line _ => decide (64 * line < 0x3E0000000)
  | .loopSample _ t _ => decide (t < 2 ^ 64)
  | .stagedWrite o _ => decide (o % 4 = 0 ∧ o < 0x100000)
  | .ledgerWrite onMs => decide (onMs.length = 32)
  | .idReadDone _ frames => decide (frames.length ≤ 3)
  | .feedOff _ _ energies => decide (energies.length ≤ 40)
  | .linkLost _ e => decide (e.t < 2 ^ 64)
  | .frameStartPacket _ p => decide (p.t < 2 ^ 64)
  | .longPacket _ _ _ _ data => decide (data.length < 2 ^ 16)
  | .frameEndPacket _ p _ _ => decide (p.t < 2 ^ 64)
  | .noFeTimeout _ e => decide (e.t < 2 ^ 64)
  | .frameProcessed t _ => decide (t < 2 ^ 64)
  | .camStart found => decide (found.length = 8)
  | .gnsMeas obs => decide (obs.length ≤ 512)
  | .navbit _ _ t _ _ => decide (t < 2 ^ 64)
  | .gnsAnt _ ma => decide (ma < 2 ^ 16)
  | .antBiasRetry _ ma => decide (ma < 2 ^ 16)
  | .imuRecord t rec => decide (t < 2 ^ 64 ∧ rec.length = 6)
  | .tmark t => decide (t < 2 ^ 64)
  | .tabletopCut t _ _ => decide (t < 2 ^ 64)
  | .slotFragment d => decide (d.length < 2 ^ 16)
  | .finEdge _ dt _ _ => decide (dt < 2 ^ 64)
  | .finRefresh _ dt _ => decide (dt < 2 ^ 64)
  | .lossImpact _ dt _ peak => decide (dt < 2 ^ 64 ∧ peak < 2 ^ 16)
  | .lossRateRefresh _ dt => decide (dt < 2 ^ 64)
  | .mapTick t => decide (t < 2 ^ 64)
  | .pnlStart _ hdr => decide (hdr.length = 256)
  | .pnlBacklight _ _ cath => decide (cath.length = 6)
  | .frameReceived _ sof f _ => decide (sof < 2 ^ 64 ∧ f.data.length ≤ 64)
  | .txDone _ dt _ _ => decide (dt < 2 ^ 64)
  | .ttCycle _ t _ => decide (t < 2 ^ 64)
  | .ethFrameReceived _ t d _ _ => decide (t < 2 ^ 64 ∧ 14 ≤ d.length)
  | .beatError _ _ addr => decide (addr < 2 ^ 40)
  | .svcUpdData _ _ _ _ _ _ _ data => decide (data.length = 1024)
  | .housekeepingRound readings => decide (readings.length = 58)
  | .thermalShutdown _ _ _ t => decide (t.length = 3)
  | .cartState stamp _ => decide (stamp < 2 ^ 64)
  | .registerWrite .. | .registerAccessFault .. | .protectWrite .. | .undefinedCommand .. | .supplyQualified .. 
  | .rideStart | .reserveReturn | .inputOpen | .inputSwitchClose | .bankTest | .bankBleed | .bankCharge | .pwrClearStats 
  | .vcoreTargetWrite .. | .vcoreDone | .guardIntervalStep | .ratioHigh | .pmClear | .xcClear | .islRestart | .guardReset 
  | .islStopWrite .. | .islStopped .. | .islWakeRequest .. | .externalWake .. | .islWake .. | .islLockTimeout .. 
  | .islLockLoss .. | .xcToggle .. | .xcToggleAck .. | .xcValueAccept .. | .xcFabricRead .. | .opReg .. | .muldiv .. 
  | .addi .. | .andi .. | .ori .. | .xori .. | .setlti .. | .setltui .. | .shifti .. | .addhi .. | .addxi .. | .addpc .. 
  | .beq .. | .bne .. | .blt .. | .bge .. | .bltu .. | .bgeu .. | .jmp .. | .call .. | .jreg .. | .ldb .. | .ldh .. 
  | .ldw .. | .ldd .. | .ldbu .. | .ldhu .. | .ldwu .. | .stb .. | .sth .. | .stw .. | .std .. | .flds .. | .fldd .. 
  | .fsts .. | .fstd .. | .storeVisible .. | .atom .. | .fence .. | .fenceArriveDone .. | .syscall .. | .brk .. | .rtn .. 
  | .tret .. | .pgsync .. | .waitev .. | .waitevResume .. | .sysreg .. | .eventTaken .. | .tcmpExpiry .. | .fop .. 
  | .fmadd .. | .fmsub .. | .fnmadd .. | .fnmsub .. | .send .. | .sendUnblock .. | .recv .. | .recvUnblock .. | .pick .. 
  | .pickUnblock .. | .waitt .. | .waittExpire .. | .chstat .. | .pigeonholeWordDelivery .. | .ringReread .. 
  | .enginePortWord .. | .gxrd .. | .gxwr .. | .gxrun .. | .gxrunUnblock .. | .gxwait .. | .tensorJobEnd .. 
  | .lpePinWrite .. | .loopApply | .lpeSwap | .lpeSwapCancel | .lpeClearFault | .lpePreload | .lpeClearCounts | .vlvGo .. 
  | .vlvStop .. | .cmdInWrite .. | .holdEnd .. | .deferralApply .. | .deferMaxExpired .. | .peakMaxExpired .. 
  | .decayEnd .. | .vlvDuty .. | .dutyResume .. | .openLoad .. | .shortSup .. | .groupTrip .. | .offStateTest .. 
  | .coilTempEstimate .. | .vlvHoldExpired .. | .vlvClaim | .vlvSwap | .vlvSwapCancel | .vlvClearFault | .feedReset 
  | .idRead | .ledgerRead | .ledgerDelete | .vlvClearCounts | .switchOn .. | .switchOff .. | .slewEnd .. 
  | .blankingEnd .. | .ocLatch .. | .tempLatch .. | .coolTimeExpired .. | .lswPause .. | .pauseResume .. | .pauseTo .. 
  | .feedOver .. | .feedOffEnd .. | .openOn .. | .offStateCheck .. | .pwmEdge .. | .lswHoldExpired .. | .lswClaim 
  | .lswUnlatch | .lswUnlock | .lswClearCounts | .modeReq .. | .modeChg .. | .ignFall | .svcEnFall | .standstill .. 
  | .keyoffTimeExpired | .dormantEntryWake .. | .wakeInputRise .. | .wakeTimerExpired .. | .canBusWake .. 
  | .ethLinkWake .. | .startupWatchdog .. | .drawerSet | .tileRelease | .tileHalt | .tileReset | .hostRelease 
  | .coreReset .. | .stqHeadWrite .. | .stqRequestDone .. | .pghRaise .. | .pghClear .. | .pghClaim .. | .pghSwi .. 
  | .pghRouteWrite .. | .linkTrained .. | .trainingRetry .. | .frameTrigger .. | .camStop | .paramLoad | .camClearCounts 
  | .acqHeadWrite .. | .acqDone .. | .chStart | .chStop | .coldStart | .gnsClearCounts | .chLost .. | .timCorrGo .. 
  | .holdAfterExpired | .pps | .timeStep | .tmarkLoRead | .tmarkHiRead | .timNowLoRead | .clearTmark | .holdoverTest 
  | .holdoverTestEnd | .timClearStats | .gmChg .. | .solverTo .. | .tblCycle .. | .cycleSkip | .sampleArrive .. 
  | .extErr .. | .slotSilent .. | .tblStart | .tblStop | .alignSwap | .tblSwapCancel | .trustReset | .tblClearCounts 
  | .ainFault .. | .ainFaultClear .. | .finFault .. | .lossTestPulse .. | .aioSupply .. | .supplyRetry .. 
  | .aioClearCounts | .lossTest | .poseGo .. | .journalPeriod | .mapJournal .. | .compactDone | .mapStart | .restoreDone 
  | .mapStop | .mapStopDone | .mapNew | .windowRead | .calApply | .mapZero | .zeroDone .. | .mapClearCounts | .pnlStop 
  | .uniformLoad | .uniformityLoadDone .. | .i2cXfer .. | .blReset | .pnlClearCounts | .pnlFlipWrite .. | .vsync 
  | .frameCrc | .pnlRail .. | .panelUnplug | .panelPlugIn | .pnlTouch | .canStart | .canStop | .canRecover | .isbAbort 
  | .canClearCounts | .txreqWrite .. | .txcancelWrite .. | .mbLock .. | .mbUnlock .. | .fifoPop .. | .txPeriod .. 
  | .busOffRecovered .. | .sigTimeout .. | .isbSend .. | .isbArmReceive .. | .isbTimeout .. | .ttWindow .. 
  | .ttSyncOff .. | .ethLink .. | .ethRxHeadWrite .. | .ethTxHeadWrite .. | .fdbAge .. | .ptpSync | .peerDelay .. 
  | .fdbFlush | .portRestart | .ethClearCounts | .dwStart .. | .dwStop .. | .dwStopDone .. | .burstGrant .. 
  | .dmwSwreqWrite .. | .requestAsserted .. | .streamRead .. | .heldBoundaryPass .. | .dmwSwap | .dmwSwapCancel 
  | .dmwClearCounts | .updBegin | .updWriteBlock | .updFinish | .updAbort | .updConfirm | .updReadBlock | .keyRevoke 
  | .lockIdleExpired .. | .svcHello .. | .svcBye .. | .svcStatus .. | .svcUpdBegin .. | .svcUpdFinish .. 
  | .svcUpdAbort .. | .svcUpdConfirm .. | .svcBureauRead .. | .svcRestart .. | .sessionTimeout .. | .burPut .. 
  | .recordDrain | .patchWrite | .burCursorWrite .. | .burWin7Read | .burFreeze | .burUnfreeze | .freezeTimeout 
  | .burClear | .burClearCounts | .hkpCfgWrite .. | .roundNow | .clearStates | .thermalRestart .. | .comparatorMismatch 
  | .safetyCheckFault .. | .wdgKick .. | .wdgExpiry .. | .comparatorSelfTest .. | .il28FrequencyTest .. | .clearLimp .. 
  | .cutoffTest .. | .safClearCounts | .tstUnlock .. | .chTrack .. | .timeSlewEnd | .timeMessageDrop | .linkErrRead .. 
  | .burdenRetry .. | .wakeInputFall .. | .busIntegrated .. | .bamPacket .. | .ethFrameSent .. | .couplingLost => true

end Sys2Proof
end

