-- ==== Sys2Proof/Tests/Slice0.lean ====
section
/-! SUPPORT. Tests. -/

open Sys2Proof Sys2Proof.Machine

set_option Elab.async false
set_option linter.unusedVariables false

namespace Sys2Proof.Tests

abbrev R := List (Block × Nat × Nat)
def st (l : R) (s : State := State.reset) : State := l.foldl (fun s p => s.wr p.1 p.2.1 (wordN p.2.2)) s
def ph (p : Phase) (s : State := State.reset) : State := { s with pwr := { s.pwr with phase := p } }
def on (m : Nat) (l : R := []) : State := st ((.SYS, SYS_MODE, m * 16 + m) :: l) (ph .run)
def rr (rd rs1 rs2 f : Nat) : BitVec 26 := BitVec.ofNat 26 (rd * 2 ^ 21 + rs1 * 2 ^ 16 + rs2 * 2 ^ 11 + f)
def ri (rd rs1 imm : Nat) : BitVec 26 := BitVec.ofNat 26 (rd * 2 ^ 21 + rs1 * 2 ^ 16 + imm)
def gs (a : Agent) (l : List (Nat × Nat)) (s : State) : State := l.foldl (fun s p => s.setG a p.1 (BitVec.ofNat 64 p.2)) s
def h0 : Agent := .host 0
/-- Host core 0 runs at level M with registers. -/
def hs (l : List (Nat × Nat)) (r : R := []) : State := gs h0 l (on 1 ((.SYS, SYS_HOST_STATUS 0, 1) :: r))
def t5 : Agent := .tile 5
/-- Tile 5 runs. -/
def tl (l : List (Nat × Nat)) (r : R := []) : State :=
  let s := gs t5 l (on 1 ((.SYS, SYS_TILE_STATE 5, 1) :: r)); s.setPc t5 0x1000050000
def lvl (a : Agent) (n : Nat) (s : State) : State := { s with cpus := s.cpus.mod {} (agentKey a) (fun c => { c with level := n }) }
def mail (b : Block) (c : Nat) (l : List Word) (s : State) : State := { s with mail := s.mail.set {} b.id { code := c, args := l } }
def bytesAt (a : Nat) (l : List Nat) (s : State) : State := s.wrBytes a (l.map fun n => BitVec.ofNat 8 n)

end Sys2Proof.Tests


namespace Sys2Proof.Tests.EmptyQueueTick

def z1 : State := on 1
def z2 : State := let s := mail .CAM 1 [1] (on 1); { s with clk := { s.clk with up := 5000000000 } }
def z3 : State := let s := on 1; { s with eth := { s.eth with waiting := true } }

theorem test_witness_emptyQueueTick :
    (z1.pending = [] ∧ (∀ (n : Nat), n < 64 → z1.dwState n = 1 → (z1.dw n).xfer ≠ none ∨ z1.dwBit n 4 = true ∨ z1.dwBit n 5 = true ∨ z1.dwBit n 6 = true) ∧ z1.tim.msg = none ∧ (z1.mailOf Block.CAM).code ≠ 1 ∧ z1.eth.waiting = false) ∧
    (z2.pending = [] ∧ (∀ (n : Nat), n < 64 → z2.dwState n = 1 → (z2.dw n).xfer ≠ none ∨ z2.dwBit n 4 = true ∨ z2.dwBit n 5 = true ∨ z2.dwBit n 6 = true) ∧ z2.tim.msg = none ∧ (z2.mailOf Block.CAM).code = 1 ∧ z2.eth.waiting = false ∧ z2.cam.startAt + 1000000000 ≤ z2.clk.up) ∧
    (z3.pending = [] ∧ (∀ (n : Nat), n < 64 → z3.dwState n = 1 → (z3.dw n).xfer ≠ none ∨ z3.dwBit n 4 = true ∨ z3.dwBit n 5 = true ∨ z3.dwBit n 6 = true) ∧ z3.tim.msg = none ∧ (z3.mailOf Block.CAM).code ≠ 1 ∧ z3.eth.waiting = true ∧ z3.eth.signalled = false ∧ (∀ (u : Nat), z3.eth.rxAt = some u → u + 100000 ≤ z3.clk.up)) := by
  refine ⟨?_, ?_, ?_⟩ <;> decide +kernel

end Sys2Proof.Tests.EmptyQueueTick

namespace Sys2Proof.Tests.SupplyInterruptions

def sRun9 := st [(.PWR, PWR_STATUS, 0x200)] (ph .run)
def z1 : State := ph .run
def z2 : State := ph .ride
def z3 : State := ph .reserve

theorem test_witness_supplyInterruptions :
    (sRun9.pwr.phase = Phase.run ∧ sRun9.bit Block.PWR PWR_STATUS 9 = true) ∧
    (z1.pwr.phase = Phase.run ∧ z1.bit Block.PWR PWR_STATUS 9 = false) ∧
    (z2.pwr.phase = Phase.ride ∧ z2.pwr.inputOpen = false) ∧
    (z2.pwr.phase = Phase.ride) ∧
    (z3.pwr.phase = Phase.reserve ∧ z3.pwr.inputOpen = false) ∧
    (z3.pwr.phase = Phase.reserve) ∧
    ((z1.pwr.phase = Phase.run ∨ z1.pwr.phase = Phase.ride ∨ z1.pwr.phase = Phase.reserve)) ∧
    ((z2.pwr.phase = Phase.run ∨ z2.pwr.phase = Phase.ride ∨ z2.pwr.phase = Phase.reserve)) := by
  refine ⟨?_, ?_, ?_, ?_, ?_, ?_, ?_, ?_⟩ <;> decide +kernel

end Sys2Proof.Tests.SupplyInterruptions

namespace Sys2Proof.Tests.SupplyAndBank

def r0 := State.reset
def z1 : State := ph .run
def z2 : State := st [(.PWR, PWR_STATUS, 0x1000), (.PWR, PWR_BANK_MEAS, 2000*65536)] (ph .run)
def z3 : Option Int := some 0
def z4 : State := on 5 [(.PWR, PWR_STATUS, 0x600)]
def z5 : State := on 1
def z6 : State := on 5
def z7 : State := mail .PWR 1 [] (on 5)
def z8 : State := on 5 [(.PWR, PWR_STATUS, 0xA00)]
def z9 : State := on 4
def z10 : State := on 4 [(.PWR, PWR_RIDE, 5)]
def z11 : State := { r0 with pwr := { phase := .loss, journal := true } }
def z12 : State := { r0 with pwr := { phase := .loss, reason := 3, since := 0, steps := 31 } }

theorem test_witness_supplyAndBank :
    (300 < 301) ∧
    (300 ≤ 300) ∧
    (((if z1.bit Block.PWR PWR_STATUS 8 = true then 32000 else 16000) < 16001)) ∧
    ((16000 ≤ if z1.bit Block.PWR PWR_STATUS 8 = true then 32000 else 16000)) ∧
    (z1.pwr.phase = Phase.run ∧ z1.bit Block.PWR PWR_STATUS (3 + 2) = false ∧ 5999 < 6000) ∧
    (6500 ≤ 6500) ∧
    (-270 ≤ 670 ∧ 670 ≤ 670 ∧ 15000 ≤ 15000 ∧ z2.bit Block.PWR PWR_STATUS 12 = true ∧ z2.pwr.bled = false ∧ z2.pwr.load = none ∧ (z2.mailOf Block.PWR).code ≠ 1 ∧ 95 * 2000000000 ≤ z2.f Block.PWR PWR_BANK_MEAS 31 16 * (15000 * 15000 - 36000000)) ∧
    ((14999 < 15000 ∨ z3 = none)) ∧
    (Idle z4 Block.PWR ∧ z4.mode = 5 ∧ z4.bit Block.PWR PWR_STATUS 10 = true) ∧
    (Idle z5 Block.PWR ∧ z5.mode ≠ 5) ∧
    (Idle z6 Block.PWR ∧ z6.mode = 5 ∧ z6.bit Block.PWR PWR_STATUS 10 = false) ∧
    ((z7.mailOf Block.PWR).code = 1) ∧
    (Idle z8 Block.PWR ∧ z8.mode = 5) ∧
    (Idle z9 Block.PWR ∧ z9.mode ≠ 5) ∧
    (Idle z9 Block.PWR) ∧
    (Idle z10 Block.PWR) ∧
    (z11.pwr.phase = Phase.loss ∧ z11.pwr.journal = true) ∧
    (z12.pwr.phase = Phase.loss ∧ z12.pwr.journal = false) := by
  refine ⟨?_, ?_, ?_, ?_, ?_, ?_, ?_, ?_, ?_, ?_, ?_, ?_, ?_, ?_, ?_, ?_, ?_, ?_⟩ <;> first | (unfold Idle; decide +kernel) | decide +kernel

end Sys2Proof.Tests.SupplyAndBank

namespace Sys2Proof.Tests.CorePace

def z1 : State := on 1 [(.PACE, PACE_PROTECT, 1), (.PACE, PACE_STATUS, 0x40000000), (.PACE, PACE_VCORE_NOW, 0x00100000)]
def z2 : State := on 1
def z3 : State := on 1 [(.PACE, PACE_STATUS, 0x80000000), (.PACE, PACE_VCORE_NOW, 800)]
def z4 : State := let s := on 1 [(.PACE, PACE_VCORE_CFG, 0x10000), (.PACE, PACE_PM_CEIL 31, 0x10010), (.PACE, PACE_PM_CYCLE 31, 0x11), (.PACE, PACE_VCORE_NOW, 899*65536)]; { s with pace := { s.pace with exc := true } }
def z5 : State := on 1 [(.PACE, PACE_PM_RATIO 30, 308)]
def z6 : State := on 1 [(.PACE, PACE_CMD_ARG 0, 0x80000001), (.PACE, PACE_PM_CYCLE 31, 0x11)]
def z7 : State := on 1 [(.PACE, PACE_VCORE_NOW, 0x00100320),(.PACE, PACE_STATUS, 0x40000000)]
def z8 : State := on 1 [(.PACE, PACE_CMD_ARG 0, 0), (.PACE, PACE_CMD_ARG 1, 232), (.PACE, PACE_XC_CNT 231, 5)]
def z9 : State := on 1 [(.PACE, PACE_CMD_ARG 0, 200), (.PACE, PACE_CMD_ARG 1, 33)]
def z10 : State := on 1 [(.PACE, PACE_CMD_ARG 0, 23), (.PACE, PACE_ISL_STATUS 23, 2)]
def z11 : State := on 1 [(.PACE, PACE_CMD_ARG 0, 24)]
def z12 : State := on 1 [(.PACE, PACE_CMD_ARG 0, 29)]

theorem test_witness_corePace :
    (z1.rd Block.PACE PACE_PROTECT = 1) ∧
    (z2.rd Block.PACE PACE_PROTECT ≠ 1) ∧
    (z3.bit Block.PACE PACE_STATUS 31 = true) ∧
    (z4.pace.exc = true ∧ z4.bit Block.PACE PACE_VCORE_CFG 16 = true ∧ 31 < 32 ∧ z4.bit Block.PACE (PACE_PM_CEIL 31) 16 = true ∧ z4.f Block.PACE (PACE_PM_CEIL 31) 15 0 ≠ 0 ∧ z4.f Block.PACE (PACE_PM_CEIL 31) 15 0 < z4.f Block.PACE (PACE_PM_CYCLE 31) 15 0 ∧ z4.f Block.PACE PACE_VCORE_NOW 25 16 < 900) ∧
    (30 < 31 ∧ 307 < z5.f Block.PACE (PACE_PM_RATIO 30) 15 0) ∧
    (Idle z6 Block.PACE) ∧
    (Idle z7 Block.PACE) ∧
    (Idle z8 Block.PACE ∧ z8.rdN Block.PACE (PACE_CMD_ARG 1) ≠ 0 ∧ z8.rdN Block.PACE (PACE_CMD_ARG 0) + z8.rdN Block.PACE (PACE_CMD_ARG 1) ≤ 232) ∧
    (Idle z9 Block.PACE ∧ 232 < z9.rdN Block.PACE (PACE_CMD_ARG 0) + z9.rdN Block.PACE (PACE_CMD_ARG 1)) ∧
    (Idle z10 Block.PACE ∧ z10.rdN Block.PACE (PACE_CMD_ARG 0) = 23 ∧ (23 ≤ 7 ∨ 9 ≤ 23 ∧ 23 ≤ 15 ∨ 17 ≤ 23 ∧ 23 ≤ 23) ∧ z10.f Block.PACE (PACE_ISL_STATUS 23) 1 0 = 2) ∧
    (Idle z11 Block.PACE ∧ z11.rdN Block.PACE (PACE_CMD_ARG 0) = 24) ∧
    (Idle z12 Block.PACE ∧ 29 ≤ z12.rdN Block.PACE (PACE_CMD_ARG 0)) ∧
    (Idle (on 1 [(.PACE, PACE_CMD_ARG 0, 3), (.PACE, PACE_ISL_STATUS 3, 4)]) .PACE) ∧
    ((on 1 [(.PACE, PACE_CMD_ARG 0, 3), (.PACE, PACE_ISL_STATUS 3, 4)]).rdN .PACE (PACE_CMD_ARG 0) = 3) ∧
    ((on 1 [(.PACE, PACE_CMD_ARG 0, 3), (.PACE, PACE_ISL_STATUS 3, 4)]).f .PACE (PACE_ISL_STATUS 3) 1 0 = 0) := by
  refine ⟨?_, ?_, ?_, ?_, ?_, ?_, ?_, ?_, ?_, ?_, ?_, ?_, ?_, ?_, ?_⟩ <;> first | (unfold Idle; decide +kernel) | decide +kernel

end Sys2Proof.Tests.CorePace

namespace Sys2Proof.Tests.IslandsAndCrossings

def isl (k st : Nat) (f : Isl → Isl := id) (s : State := on 1) : State :=
  let s := Tests.st [(.PACE, PACE_ISL_STATUS k, st)] s
  { s with pace := { s.pace with isl := s.pace.isl.mod {} k f } }
def islc (k st c : Nat) (f : Isl → Isl := id) : State := isl k st f (Tests.st [(.PACE, PACE_ISL_CTRL k, c)] (on 1))
def xcp (m : Nat) (x : Xc := { level := true }) (s : State := on 1) : State := { s with pace := { s.pace with xc := s.pace.xc.set {} m x } }
def z1 : State := isl 7 2
def z2 : State := isl 9 0x103
def z3 : State := isl 9 0
def z4 : State := isl 9 3
def z5 : State := islc 9 1 3
def z6 : State := islc 13 0 0x100
def z7 : State := isl 9 1 (fun c => { c with cause := 2 })
def z8 : State := islc 9 1 1
def z9 : State := isl 28 1
def z10 : State := isl 28 0x102
def z11 : State := on 1
def z12 : State := xcp 225
def z13 : List Word := [1, 5]
def z14 : State := xcp 227
def z15 : State := xcp 227 { stable := 0 }
def z16 : List Word := [4, 9]

theorem test_witness_islandsAndCrossings :
    ((7 ≤ 7 ∨ 9 ≤ 7 ∧ 7 ≤ 15 ∨ 17 ≤ 7 ∧ 7 ≤ 23) ∧ z1.f Block.PACE (PACE_ISL_STATUS 7) 1 0 = 2 ∧ bitOf 257 1 = false) ∧
    ((7 ≤ 7 ∨ 9 ≤ 7 ∧ 7 ≤ 15 ∨ 17 ≤ 7 ∧ 7 ≤ 23) ∧ z1.f Block.PACE (PACE_ISL_STATUS 7) 1 0 = 2 ∧ bitOf 259 1 = true) ∧
    ((8 = 8 ∨ 8 = 16 ∨ 24 ≤ 8) ∧ bitOf 257 1 = false) ∧
    (z2.f Block.PACE (PACE_ISL_STATUS 9) 1 0 = 3 ∧ (z2.isl 9).restart = false ∧ (z2.isl 9).wake = none) ∧
    ((9 ≤ 7 ∨ 9 ≤ 9 ∧ 9 ≤ 15 ∨ 17 ≤ 9 ∧ 9 ≤ 23) ∧ z3.f Block.PACE (PACE_ISL_STATUS 9) 1 0 = 0) ∧
    ((9 ≤ 7 ∨ 9 ≤ 9 ∧ 9 ≤ 15 ∨ 17 ≤ 9 ∧ 9 ≤ 23) ∧ z4.f Block.PACE (PACE_ISL_STATUS 9) 1 0 = 3) ∧
    ((9 ≤ 7 ∨ 9 ≤ 9 ∧ 9 ≤ 15 ∨ 17 ≤ 9 ∧ 9 ≤ 23) ∧ z5.f Block.PACE (PACE_ISL_STATUS 9) 1 0 = 1) ∧
    (13 ≤ 13 ∧ z6.bit Block.PACE (PACE_ISL_CTRL 13) 8 = true ∧ z6.f Block.PACE (PACE_ISL_STATUS 13) 1 0 = 0) ∧
    (z7.f Block.PACE (PACE_ISL_STATUS 9) 1 0 = 1 ∧ (z7.isl 9).restart = false ∧ z7.bit Block.PACE (PACE_ISL_CTRL 9) 0 = false) ∧
    (z8.f Block.PACE (PACE_ISL_STATUS 9) 1 0 = 1 ∧ (z8.isl 9).restart = false ∧ z8.bit Block.PACE (PACE_ISL_CTRL 9) 0 = true) ∧
    (z9.f Block.PACE (PACE_ISL_STATUS 28) 1 0 = 1) ∧
    (z10.f Block.PACE (PACE_ISL_STATUS 28) 1 0 = 2 ∧ z10.bit Block.PACE (PACE_ISL_STATUS 28) 8 = true) ∧
    (225 % 8 < 2 ∧ (z11.xc 225).level = (z11.xc 225).acked) ∧
    (225 % 8 < 2 ∧ (z12.xc 225).level ≠ (z12.xc 225).acked) ∧
    (2 ≤ 231 % 8) ∧
    ((z12.xc 225).level ≠ (z12.xc 225).acked) ∧
    ((227 % 8 = 3 ∨ 4 ≤ 227 % 8 ∧ ¬227 ∈ [119, 127]) ∧ z13.getLast? = some 5 ∧ 3 ≤ (z14.xc 227).stable + 3) ∧
    ((227 % 8 = 3 ∨ 4 ≤ 227 % 8 ∧ ¬227 ∈ [119, 127]) ∧ z13.getLast? = some 5 ∧ (z15.xc 227).stable + 2 < 3) ∧
    ((231 % 8 = 3 ∨ 4 ≤ 231 % 8 ∧ ¬231 ∈ [119, 127]) ∧ 3 ≠ 4) ∧
    ((119 % 8 < 3 ∨ 119 ∈ [119, 127])) ∧
    ((231 % 8 = 2 ∨ 4 ≤ 231 % 8 ∧ ¬231 ∈ [119, 127]) ∧ z16.getLast? = some 9) ∧
    ((2 % 8 = 2 ∨ 4 ≤ 2 % 8 ∧ ¬2 ∈ [119, 127])) ∧
    ((3 % 8 < 2 ∨ 3 % 8 = 3 ∨ 3 ∈ [119, 127])) := by
  refine ⟨?_, ?_, ?_, ?_, ?_, ?_, ?_, ?_, ?_, ?_, ?_, ?_, ?_, ?_, ?_, ?_, ?_, ?_, ?_, ?_, ?_, ?_, ?_⟩ <;> decide +kernel

end Sys2Proof.Tests.IslandsAndCrossings

namespace Sys2Proof.Tests.IntegerOperations

def z1 : State := hs [(2, 5), (3, 2^64-70)]
def z2 : State := hs [(2, 0)]
def z3 : State := tl [(2, 0x80000000), (3, 33)]
def z4 : State := tl []
def z5 : State := hs [(2, 2^63), (3, 2^64-1)]
def z6 : State := hs [(2, 0x80000000), (3, 2^64-1)]
def z7 : State := hs []

theorem test_witness_integerOperations :
    (Issues z1 h0 ∧ fFunc (rr 1 2 3 7) = 7) ∧
    (Issues z2 h0 ∧ fRs2 (rr 2 2 0 15) = 0 ∧ fFunc (rr 2 2 0 15) = 15) ∧
    (Issues z3 t5 ∧ fFunc (rr 1 2 3 71) = 71) ∧
    (Issues z4 t5 ∧ (19 ≤ fFunc (rr 1 2 3 19) ∧ fFunc (rr 1 2 3 19) ≤ 63 ∨ 66 ≤ fFunc (rr 1 2 3 19) ∧ fFunc (rr 1 2 3 19) ≤ 68 ∨ 72 ≤ fFunc (rr 1 2 3 19) ∧ fFunc (rr 1 2 3 19) ≤ 78 ∨ 83 ≤ fFunc (rr 1 2 3 19) ∨ fFunc (rr 1 2 3 19) ∈ [15, 16, 17, 18, 79, 80, 81, 82] ∧ fRs2 (rr 1 2 3 19) ≠ 0)) ∧
    (Issues z5 h0 ∧ fFunc (rr 1 2 3 4) = 4) ∧
    (Issues z6 h0 ∧ fFunc (rr 1 2 3 68) = 68) ∧
    (Issues z7 h0 ∧ (8 ≤ fFunc (rr 1 2 3 8) ∧ fFunc (rr 1 2 3 8) ≤ 63 ∨ 65 ≤ fFunc (rr 1 2 3 8) ∧ fFunc (rr 1 2 3 8) ≤ 67 ∨ 72 ≤ fFunc (rr 1 2 3 8))) := by
  refine ⟨?_, ?_, ?_, ?_, ?_, ?_, ?_⟩ <;> (unfold Issues; decide +kernel)

end Sys2Proof.Tests.IntegerOperations

namespace Sys2Proof.Tests.ImmediateInstructions

def z1 : State := hs [(2, 2^63+5)]
def z2 : State := hs [(2, 2^31+5)]

theorem test_witness_immediateInstructions :
    (Issues z1 h0 ∧ fRs1 (ri 1 2 32773) ≠ 0 ∧ fImm (ri 1 2 32773) / 64 = 512) ∧
    (Issues z1 h0 ∧ fRs1 (ri 1 0 63) = 0 ∧ fImm (ri 1 0 63) / 64 = 0) ∧
    (Issues z1 h0 ∧ fImm (ri 1 2 16385) / 64 = 256) ∧
    (Issues z1 h0 ∧ fImm (ri 1 2 8223) / 32 = 256) ∧
    (Issues z2 h0 ∧ fImm (ri 1 2 24607) / 32 = 768) ∧
    (Issues z2 h0 ∧ fImm (ri 1 2 40991) / 32 = 1280) ∧
    (Issues z2 h0 ∧ (49152 ≤ fImm (ri 1 2 49152) ∨ fImm (ri 1 2 49152) / 64 % 128 ≠ 0 ∨ fImm (ri 1 2 49152) / 8192 % 2 = 1 ∧ fImm (ri 1 2 49152) / 32 % 2 = 1)) := by
  refine ⟨?_, ?_, ?_, ?_, ?_, ?_, ?_⟩ <;> (unfold Issues; decide +kernel)

end Sys2Proof.Tests.ImmediateInstructions

namespace Sys2Proof.Tests.ControlTransfer

def z1 : State := hs [(2, 2^31+5), (1, 7)]
def z2 : State := hs [(2, 6)]

theorem test_witness_controlTransfer :
    (Issues z1 h0 ∧ BitVec.toNat (z1.g h0 (fRs1 (ri 1 2 65535)) + BitVec.signExtend 64 (BitVec.ofNat 16 (fImm (ri 1 2 65535)))) % 4 = 0) ∧
    (Issues z2 h0 ∧ BitVec.toNat (z2.g h0 (fRs1 (ri 1 2 0)) + BitVec.signExtend 64 (BitVec.ofNat 16 (fImm (ri 1 2 0)))) % 4 ≠ 0) := by
  refine ⟨?_, ?_⟩ <;> (unfold Issues; decide +kernel)

end Sys2Proof.Tests.ControlTransfer

namespace Sys2Proof.Tests.TrapsReturnsAndEvents

def one (a : Nat) : State := lvl h0 a (hs [(1, 0x1111), (2, 0x2222), (3, 3)])
def sy (n v : Nat) (s : State) : State := s.setSysRaw h0 n (BitVec.ofNat 64 v)
def syt (n v : Nat) (s : State) : State := s.setSysRaw t5 n (BitVec.ofNat 64 v)
def ev (l pend en st : Nat) : State := sy 0x60A pend (sy 0x609 en (sy 0x600 st (one l)))
def pgM (m : Nat) (s : State) : State := Tests.st [(.PGH, PGH_ROUTE 7, 0x80000000 + m * 2 ^ 27), (.PGH, PGH_PEND 0, 0x80)] s
def norq : State := let s := Tests.st [(.SYS, SYS_NOR_USER, 16), (.HKP, HKP_CH_VALUE 27, 0x80000000 + 950), (.HKP, HKP_CH_VALUE 28, 0x80000000 + 250), (.HKP, HKP_CH_VALUE 26, 0x80000000 + 250)] ((one 3).setPc h0 0x1200000000)
  { bytesAt 0x1000 [3,1,1,0, 0,0,0,0, 0,0,0,0, 0,0,0,0] s with stq := some { addr := 0x1000, atTail := false } }
def z1 : State := one 0
def z2 : State := tl []
def z3 : State := syt 0x700 0x1000058000 (tl [])
def z4 : State := sy 0x605 0xD (sy 0x602 0x4000 (one 3))
def z5 : State := syt 0x701 0x1000050010 (tl [])
def z6 : State := one 3
def z7 : State := ev 0 0x707 0x707 7
def z8 : State := ev 0 0x007 0x707 7
def z9 : State := ev 3 0x101 0x707 0
def z10 : State := pgM 1 (ev 0 0x707 0x707 7)
def z11 : State := sy 0x608 0 (sy 0x208 0 (ev 0 0x707 0x707 7))
def z12 : State := pgM 0 (ev 0 0 0x707 2)
def z13 : State := sy 0x208 0 (ev 0 0 0x707 2)
def z14 : State := on 1
def z15 : State := (tl []).setPc t5 0x1000050002

theorem test_witness_trapsReturnsAndEvents :
    (Issues z1 (Agent.host 0) ∧ sysPlain 5 = true) ∧
    (Issues z2 (Agent.tile 5)) ∧
    (Issues z3 t5 ∧ sysPlain 7 = true) ∧
    (Issues z4 (Agent.host 0) ∧ (z4.cpu (Agent.host 0)).level ≠ 0 ∧ sysPlain (rr 0 0 0 2) = true) ∧
    (Issues z1 h0 ∧ ((∃ n, h0 = Agent.tile n) ∨ (z1.cpu h0).level = 0)) ∧
    (Issues z5 (Agent.tile 5) ∧ sysPlain 0 = true) ∧
    (Issues z6 (Agent.host 0)) ∧
    (((z7.cpu (Agent.host 0)).level < 3 ∨ dbit (z7.sysRaw (Agent.host 0) 1536) 0 = true) ∧ dbit (z7.sysRaw (Agent.host 0) 1545 &&& z7.evPending (Agent.host 0)) 10 = false ∧ dbit (z7.sysRaw (Agent.host 0) 1545 &&& z7.evPending (Agent.host 0)) 9 = false ∧ dbit (z7.sysRaw (Agent.host 0) 1545 &&& z7.evPending (Agent.host 0)) 8 = true) ∧
    ((¬((z8.cpu (Agent.host 0)).level < 3 ∨ dbit (z8.sysRaw (Agent.host 0) 1536) 0 = true) ∨ dbit (z8.sysRaw (Agent.host 0) 1545 &&& z8.evPending (Agent.host 0)) 10 = false ∧ dbit (z8.sysRaw (Agent.host 0) 1545 &&& z8.evPending (Agent.host 0)) 9 = false ∧ dbit (z8.sysRaw (Agent.host 0) 1545 &&& z8.evPending (Agent.host 0)) 8 = false) ∧ ((z8.cpu (Agent.host 0)).level < 3 ∧ ((z8.cpu (Agent.host 0)).level < 1 ∨ dbit (z8.sysRaw (Agent.host 0) 1536) 1 = true)) ∧ dbit (z8.sysRaw (Agent.host 0) 1545 &&& z8.evPending (Agent.host 0)) 2 = false ∧ dbit (z8.sysRaw (Agent.host 0) 1545 &&& z8.evPending (Agent.host 0)) 1 = false ∧ dbit (z8.sysRaw (Agent.host 0) 1545 &&& z8.evPending (Agent.host 0)) 0 = true) ∧
    ((¬((z9.cpu (Agent.host 0)).level < 3 ∨ dbit (z9.sysRaw (Agent.host 0) 1536) 0 = true) ∨ dbit (z9.sysRaw (Agent.host 0) 1545 &&& z9.evPending (Agent.host 0)) 10 = false ∧ dbit (z9.sysRaw (Agent.host 0) 1545 &&& z9.evPending (Agent.host 0)) 9 = false ∧ dbit (z9.sysRaw (Agent.host 0) 1545 &&& z9.evPending (Agent.host 0)) 8 = false) ∧ (¬((z9.cpu (Agent.host 0)).level < 3 ∧ ((z9.cpu (Agent.host 0)).level < 1 ∨ dbit (z9.sysRaw (Agent.host 0) 1536) 1 = true)) ∨ dbit (z9.sysRaw (Agent.host 0) 1545 &&& z9.evPending (Agent.host 0)) 2 = false ∧ dbit (z9.sysRaw (Agent.host 0) 1545 &&& z9.evPending (Agent.host 0)) 1 = false ∧ dbit (z9.sysRaw (Agent.host 0) 1545 &&& z9.evPending (Agent.host 0)) 0 = false)) ∧
    (((z10.cpu (Agent.host 0)).level < 3 ∨ dbit (z10.sysRaw (Agent.host 0) 1536) 0 = true) ∧ dbit (z10.sysRaw (Agent.host 0) 1545 &&& z10.evPending (Agent.host 0)) 10 = true) ∧
    (((z11.cpu (Agent.host 0)).level < 3 ∨ dbit (z11.sysRaw (Agent.host 0) 1536) 0 = true) ∧ dbit (z11.sysRaw (Agent.host 0) 1545 &&& z11.evPending (Agent.host 0)) 10 = false ∧ dbit (z11.sysRaw (Agent.host 0) 1545 &&& z11.evPending (Agent.host 0)) 9 = true) ∧
    ((¬((z12.cpu (Agent.host 0)).level < 3 ∨ dbit (z12.sysRaw (Agent.host 0) 1536) 0 = true) ∨ dbit (z12.sysRaw (Agent.host 0) 1545 &&& z12.evPending (Agent.host 0)) 10 = false ∧ dbit (z12.sysRaw (Agent.host 0) 1545 &&& z12.evPending (Agent.host 0)) 9 = false ∧ dbit (z12.sysRaw (Agent.host 0) 1545 &&& z12.evPending (Agent.host 0)) 8 = false) ∧ ((z12.cpu (Agent.host 0)).level < 3 ∧ ((z12.cpu (Agent.host 0)).level < 1 ∨ dbit (z12.sysRaw (Agent.host 0) 1536) 1 = true)) ∧ dbit (z12.sysRaw (Agent.host 0) 1545 &&& z12.evPending (Agent.host 0)) 2 = true) ∧
    ((¬((z13.cpu (Agent.host 0)).level < 3 ∨ dbit (z13.sysRaw (Agent.host 0) 1536) 0 = true) ∨ dbit (z13.sysRaw (Agent.host 0) 1545 &&& z13.evPending (Agent.host 0)) 10 = false ∧ dbit (z13.sysRaw (Agent.host 0) 1545 &&& z13.evPending (Agent.host 0)) 9 = false ∧ dbit (z13.sysRaw (Agent.host 0) 1545 &&& z13.evPending (Agent.host 0)) 8 = false) ∧ ((z13.cpu (Agent.host 0)).level < 3 ∧ ((z13.cpu (Agent.host 0)).level < 1 ∨ dbit (z13.sysRaw (Agent.host 0) 1536) 1 = true)) ∧ dbit (z13.sysRaw (Agent.host 0) 1545 &&& z13.evPending (Agent.host 0)) 2 = false ∧ dbit (z13.sysRaw (Agent.host 0) 1545 &&& z13.evPending (Agent.host 0)) 1 = true) ∧
    (Issues z6 h0 ∧ sysPlain (rr 1 0 0 0) = false) ∧
    (Issues z6 h0 ∧ 0 ∈ [0, 22, 23, 31, 53, 54, 55, 60, 61, 62, 63]) ∧
    (z14.ready h0 = false) ∧
    (z6.ready h0 = true ∧ z6.preempts h0 = false ∧ (z6.fetch h0).fst = Fetched.word) ∧
    (z15.ready t5 = true ∧ z15.preempts t5 = false ∧ BitVec.toNat (z15.pc t5) % 4 ≠ 0) ∧
    (norq.ready h0 = true ∧ norq.preempts h0 = false ∧ (norq.fetch h0).fst = Fetched.wait) ∧
    ((ev 0 0x707 0x707 7).ready h0 = true ∧ (ev 0 0x707 0x707 7).eventToTake h0 = some 8) ∧
    ((one 3).ready h0 = true ∧ (one 3).preempts h0 = false ∧ ((one 3).fetch h0).1 = .word) := by
  refine ⟨?_, ?_, ?_, ?_, ?_, ?_, ?_, ?_, ?_, ?_, ?_, ?_, ?_, ?_, ?_, ?_, ?_, ?_, ?_, ?_, ?_, ?_⟩ <;> first | (unfold Issues; decide +kernel) | decide +kernel

end Sys2Proof.Tests.TrapsReturnsAndEvents

namespace Sys2Proof.Tests.SystemInstructions

def one (a : Nat) : State := lvl h0 a (hs [(1, 0x1111), (2, 0x2222), (3, 3)])
def sy (n v : Nat) (s : State) : State := s.setSysRaw h0 n (BitVec.ofNat 64 v)
def ev (l pend en st : Nat) : State := sy 0x60A pend (sy 0x609 en (sy 0x600 st (one l)))
def wt (s : State) : State := Tests.st [(.SYS, SYS_HOST_STATUS 0, 2)] s
def z1 : State := one 3
def z2 : State := one 0
def z3 : State := { one 3 with tlb := SMap.empty.set [] 0 [⟨0,5,0,3⟩, ⟨1,6,0,3⟩] }
def z4 : State := wt (ev 3 0x101 0x707 0)
def z5 : State := wt (ev 1 0x102 0x707 0)
def z6 : State := wt (sy 0x608 0 (ev 3 0 0x707 0))
def z7 : State := tl []

theorem test_witness_systemInstructions :
    (Issues z1 h0 ∧ fImm (ri 1 0 1536) = 1536 ∧ 1536 < 4096 ∧ fRs1 (ri 1 0 1536) = 0 ∧ z1.sysMay h0 1536 = true ∧ 1536 ≠ 33) ∧
    (Issues z2 h0 ∧ fImm (ri 1 0 33) = 33 ∧ fRs1 (ri 1 0 33) = 0 ∧ z2.sysMay h0 33 = true) ∧
    (Issues z1 h0 ∧ fImm (ri 1 2 17924) = 16384 + 1540 ∧ 1540 ∈ [516, 518, 520, 1540, 1542, 1544, 1795, 1796] ∧ z1.sysMay h0 1540 = true) ∧
    (Issues z1 h0 ∧ fImm (ri 1 2 34308) = 32768 + 1540 ∧ 1540 ∈ [516, 518, 520, 1540, 1542, 1544, 1795, 1796] ∧ z1.sysMay h0 1540 = true) ∧
    (Issues z1 h0 ∧ fImm (ri 1 2 16417) = 16384 + 33 ∧ 33 ∈ [33, 34, 35]) ∧
    (Issues z2 h0 ∧ z2.sysMay h0 (fImm (ri 1 0 1536) % 4096) = false) ∧
    (Issues z3 (Agent.host 0) ∧ (z3.cpu (Agent.host 0)).level ≠ 0 ∧ fRd 0 = 0) ∧
    (Issues z2 (Agent.host 0) ∧ (z2.cpu (Agent.host 0)).level = 0) ∧
    (Issues z1 (Agent.host 0) ∧ (z1.cpu (Agent.host 0)).level ≠ 0 ∧ sysPlain 0 = true) ∧
    (z4.f Block.SYS (SYS_HOST_STATUS 0) 1 0 = 2 ∧ z4.sysRaw (Agent.host 0) 1545 &&& z4.evPending (Agent.host 0) ≠ 0) ∧
    ((z5.f Block.SYS (SYS_HOST_STATUS 0) 1 0 = 1 ∨ z5.f Block.SYS (SYS_HOST_STATUS 0) 1 0 = 2) ∧ z5.eventToTake (Agent.host 0) = some 8) ∧
    (z6.f Block.SYS (SYS_HOST_STATUS 0) 1 0 = 2 ∧ (BitVec.toNat (z6.sysRaw (Agent.host 0) (if true = true then 1544 else 520)) ≤ z6.now) ∧ (dbit (z6.sysRaw (Agent.host 0) 1545) (if true = true then 9 else 1) = true)) ∧
    (Issues z1 (Agent.host 0) ∧ fRd (rr 1 0 0 1) ≠ 0) ∧
    (Issues z7 (Agent.tile 5)) ∧
    (Issues z7 (Agent.tile 5) ∧ sysPlain 0 = true) := by
  refine ⟨?_, ?_, ?_, ?_, ?_, ?_, ?_, ?_, ?_, ?_, ?_, ?_, ?_, ?_, ?_⟩ <;> first | (unfold Issues; decide +kernel) | decide +kernel

end Sys2Proof.Tests.SystemInstructions

namespace Sys2Proof.Tests.FloatingPoint

def fpOn (l : List (Nat × Nat)) (f : List (Nat × Nat)) : State := f.foldl (fun s p => s.setFr h0 p.1 (BitVec.ofNat 64 p.2)) (hs l)
def tfp (f : List (Nat × Nat)) (l : List (Nat × Nat) := []) : State := f.foldl (fun s p => s.setFr t5 p.1 (BitVec.ofNat 64 p.2)) (tl l)
def fd := fpOn [(2, 2^64-3)] [(2, 0x3FF8000000000000), (3, 0xC008000000000000), (0, 0x4008000000000000)]
def ft := tfp [(2, 0x3FC00000), (3, 0xC0400000), (0, 0x40400000)] [(2, 2^64-3)]
def fz := fpOn [] [(2, 0x7FF0000000000000), (3, 0), (0, 0x7FF8000000000000)]

theorem test_witness_floatingPoint :
    (Issues fd h0 ∧ fd.fpOn h0 = true ∧ fd.FopOk h0 (rr 1 2 3 641) ∧ fFunc (rr 1 2 3 641) / 64 = 10 ∧ fd.FopOk h0 (rr 1 2 3 705) ∧ fFunc (rr 1 2 3 705) / 64 = 11 ∧ fd.FopOk h0 (rr 1 2 3 769) ∧ fFunc (rr 1 2 3 769) / 64 = 12 ∧ fd.FopOk h0 (rr 1 2 0 833) ∧ fFunc (rr 1 2 0 833) / 64 = 13 ∧ fd.FopOk h0 (rr 1 2 0 905) ∧ fFunc (rr 1 2 0 905) / 64 = 14 ∧ fd.FopOk h0 (rr 1 2 0 969) ∧ fFunc (rr 1 2 0 969) / 64 = 15 ∧ fRs2 (rr 1 2 0 969) = 0 ∧ fd.FopOk h0 (rr 1 2 1 969) ∧ fFunc (rr 1 2 1 969) / 64 = 15 ∧ fRs2 (rr 1 2 1 969) = 1 ∧ fd.FopOk h0 (rr 1 2 2 969) ∧ fFunc (rr 1 2 2 969) / 64 = 15 ∧ fRs2 (rr 1 2 2 969) = 2 ∧ fd.FopOk h0 (rr 1 2 3 969) ∧ fFunc (rr 1 2 3 969) / 64 = 15 ∧ fRs2 (rr 1 2 3 969) = 3 ∧ fd.FopOk h0 (rr 1 2 0 1033) ∧ fFunc (rr 1 2 0 1033) / 64 = 16 ∧ fd.FopOk h0 (rr 1 2 1 1033) ∧ fFunc (rr 1 2 1 1033) / 64 = 16 ∧ fd.FopOk h0 (rr 1 2 2 1033) ∧ fFunc (rr 1 2 2 1033) / 64 = 16) ∧
    (Issues fd h0 ∧ (fd.fpOn h0 = false ∨ ¬fd.FopOk h0 (rr 1 2 3 2047)) ∧ (fd.fpOn h0 = false ∨ ¬fd.FopOk h0 (rr 1 2 3 (6 * 8))) ∧ Issues ft t5 ∧ (ft.fpOn t5 = false ∨ ¬ft.FopOk t5 (rr 1 2 3 9))) ∧
    (Issues fd h0 ∧ fd.fpOn h0 = true ∧ FmtOk h0 (fFunc (rr 1 2 3 9) % 8) ∧ 1 ≤ fd.rmNo h0 (rr 1 2 3 9) ∧ fd.rmNo h0 (rr 1 2 3 9) ≤ 5 ∧ Issues ft t5 ∧ ft.fpOn t5 = true ∧ FmtOk t5 (fFunc (rr 1 2 3 (4 * 8)) % 8) ∧ 1 ≤ ft.rmNo t5 (rr 1 2 3 (4 * 8)) ∧ ft.rmNo t5 (rr 1 2 3 (4 * 8)) ≤ 5 ∧ Issues fz h0 ∧ fz.fpOn h0 = true ∧ 1 ≤ fz.rmNo h0 (rr 1 2 3 9) ∧ fz.rmNo h0 (rr 1 2 3 9) ≤ 5) ∧
    (Issues fd h0 ∧ (fd.fpOn h0 = false ∨ ¬FmtOk h0 (fFunc (rr 1 2 3 (6 * 8)) % 8) ∨ fd.rmNo h0 (rr 1 2 3 (6 * 8)) = 0 ∨ 5 < fd.rmNo h0 (rr 1 2 3 (6 * 8))) ∧ (fd.fpOn h0 = false ∨ ¬FmtOk h0 (fFunc (rr 1 2 3 2) % 8) ∨ fd.rmNo h0 (rr 1 2 3 2) = 0 ∨ 5 < fd.rmNo h0 (rr 1 2 3 2))) := by
  refine ⟨?_, ?_, ?_, ?_⟩
  · and_intros <;> first | decide +kernel | (unfold Issues; decide +kernel) | (unfold FmtOk; decide +kernel) | (unfold State.FopOk FmtOk; dsimp only; decide +kernel)
  · and_intros <;> first | decide +kernel | (unfold Issues; decide +kernel) | (unfold State.FopOk FmtOk; dsimp only; decide +kernel)
  · and_intros <;> first | decide +kernel | (unfold Issues; decide +kernel) | (unfold FmtOk; decide +kernel)
  · and_intros <;> first | decide +kernel | (unfold Issues; decide +kernel) | (unfold FmtOk; decide +kernel)

end Sys2Proof.Tests.FloatingPoint

namespace Sys2Proof.Tests.Loads

def z1 : State := bytesAt 0x1000 [0x81,0x82,0x83,0x84,5,6,7,0x88] (hs [(2, 0x1008)])
def z2 : State := bytesAt 0x1000 [0x81,0x82,0x83,0x84,5,6,7,0x88] (hs [(2, 0x1000)])
def z3 : State := tl []
def z4 : State := hs [(2, 0x1001)]
def z5 : State := { hs [(2, 0x1040)] with poison := SMap.empty.set false 0x1040 true }
def z6 : State := hs [(2, 0x3000000000)]

theorem test_witness_loads :
    (Issues z1 h0 ∧ Memory.wf z1.mem = true ∧ Sees z1 h0 (BitVec.toNat (z1.g h0 (fRs1 (ri 1 2 65528)) + fSimm (ri 1 2 65528))) 1 4096 ∧ Sees z1 h0 (BitVec.toNat (z1.g h0 (fRs1 (ri 1 2 65528)) + fSimm (ri 1 2 65528))) 2 4096 ∧ Sees z1 h0 (BitVec.toNat (z1.g h0 (fRs1 (ri 1 2 65528)) + fSimm (ri 1 2 65528))) 4 4096 ∧ Sees z1 h0 (BitVec.toNat (z1.g h0 (fRs1 (ri 1 2 65528)) + fSimm (ri 1 2 65528))) 8 4096) ∧
    (Issues z2 h0 ∧ Memory.wf z2.mem = true ∧ z2.fpOn h0 = true ∧ (4 = 4 ∨ isHost h0 = true) ∧ Sees z2 h0 (BitVec.toNat (z2.g h0 (fRs1 (ri 1 2 0)) + fSimm (ri 1 2 0))) 4 4096 ∧ (8 = 4 ∨ isHost h0 = true) ∧ Sees z2 h0 (BitVec.toNat (z2.g h0 (fRs1 (ri 1 2 0)) + fSimm (ri 1 2 0))) 8 4096) ∧
    (Issues z3 (Agent.tile 5)) ∧
    (Issues z4 h0 ∧ BitVec.toNat (z4.g h0 (fRs1 (ri 1 2 0)) + fSimm (ri 1 2 0)) % 2 ≠ 0 ∧ BitVec.toNat (z4.g h0 (fRs1 (ri 1 2 0)) + fSimm (ri 1 2 0)) % 4 ≠ 0 ∧ BitVec.toNat (z4.g h0 (fRs1 (ri 1 2 0)) + fSimm (ri 1 2 0)) % 8 ≠ 0) ∧
    (Issues z5 (Agent.host 0) ∧ (z5.cpu (Agent.host 0)).level = 3 ∧ BitVec.toNat (z5.g (Agent.host 0) (fRs1 (ri 1 2 0)) + fSimm (ri 1 2 0)) % 8 = 0 ∧ BitVec.toNat (z5.g (Agent.host 0) (fRs1 (ri 1 2 0)) + fSimm (ri 1 2 0)) < 16642998272 ∧ z5.poison.get false (granule (BitVec.toNat (z5.g (Agent.host 0) (fRs1 (ri 1 2 0)) + fSimm (ri 1 2 0)))) = true ∧ z5.latent.get 0 (granule (BitVec.toNat (z5.g (Agent.host 0) (fRs1 (ri 1 2 0)) + fSimm (ri 1 2 0)))) = 0 ∧ z5.sbuf.get [] 0 = []) ∧
    (Issues z6 (Agent.host 0) ∧ (z6.cpu (Agent.host 0)).level = 3 ∧ BitVec.toNat (z6.g (Agent.host 0) (fRs1 (ri 1 2 0)) + fSimm (ri 1 2 0)) % 8 = 0 ∧ regionOf (BitVec.toNat (z6.g (Agent.host 0) (fRs1 (ri 1 2 0)) + fSimm (ri 1 2 0))) = Region.unmapped) := by
  refine ⟨?_, ?_, ?_, ?_, ?_, ?_⟩ <;> first | (unfold Sees Issues; decide +kernel) | (unfold Issues; decide +kernel)

end Sys2Proof.Tests.Loads

namespace Sys2Proof.Tests.Stores

def fpOn (l : List (Nat × Nat)) (f : List (Nat × Nat)) : State := f.foldl (fun s p => s.setFr h0 p.1 (BitVec.ofNat 64 p.2)) (hs l)
def sb (l : List (Nat × List Byte)) : State := { hs [] with sbuf := SMap.empty.set [] 0 l }
def sbt (l : List (Nat × List Byte)) : State := { tl [] with sbuf := SMap.empty.set [] (agentKey t5) l }
def z1 : State := hs [(2, 0x1008), (1, 0x123456789ABCDEF0)]
def z2 : State := fpOn [(2, 0x1008)] [(1, 0x123456789ABCDEF0)]
def z3 : State := hs [(2, 0x1001)]
def z4 : State := hs [(2, 0x1200000000)]
def z5 : State := sb [(0x20,[1,2]),(0x1E,[3,4]),(0x30,[5])]
def z6 : State := sb [(0x20,[1,2])]
def z7 : List Byte := [1,2]
def z8 : State := sb []
def z9 : State := (sb [(0x20,[1,2])]).setBlocked h0 .fence
def z10 : State := sb [(0x20,[1,2]),(0x21,[3,4])]
def z11 : State := sbt [(endpBase + 0x4000 * 5, [1,2,3,4])]

theorem test_witness_stores :
    (Issues z1 h0 ∧ BitVec.toNat (z1.g h0 (fRs1 (ri 1 2 65528)) + fSimm (ri 1 2 65528)) % 1 = 0 ∧ z1.translate h0 Acc.store (BitVec.toNat (z1.g h0 (fRs1 (ri 1 2 65528)) + fSimm (ri 1 2 65528))) = (Trans.ok 4096 false, z1) ∧ regionOf 4096 ∈ [Region.dram, Region.tile, Region.endp, Region.tbl] ∧ BitVec.toNat (z1.g h0 (fRs1 (ri 1 2 65528)) + fSimm (ri 1 2 65528)) % 2 = 0 ∧ BitVec.toNat (z1.g h0 (fRs1 (ri 1 2 65528)) + fSimm (ri 1 2 65528)) % 4 = 0 ∧ BitVec.toNat (z1.g h0 (fRs1 (ri 1 2 65528)) + fSimm (ri 1 2 65528)) % 8 = 0) ∧
    (Issues z2 h0 ∧ z2.fpOn h0 = true ∧ (4 = 4 ∨ isHost h0 = true) ∧ BitVec.toNat (z2.g h0 (fRs1 (ri 1 2 65528)) + fSimm (ri 1 2 65528)) % 4 = 0 ∧ z2.translate h0 Acc.store (BitVec.toNat (z2.g h0 (fRs1 (ri 1 2 65528)) + fSimm (ri 1 2 65528))) = (Trans.ok 4096 false, z2) ∧ regionOf 4096 ∈ [Region.dram, Region.tile, Region.endp, Region.tbl] ∧ (8 = 4 ∨ isHost h0 = true) ∧ BitVec.toNat (z2.g h0 (fRs1 (ri 1 2 65528)) + fSimm (ri 1 2 65528)) % 8 = 0) ∧
    (Issues z3 h0 ∧ BitVec.toNat (z3.g h0 (fRs1 (ri 1 2 0)) + fSimm (ri 1 2 0)) % 2 ≠ 0 ∧ BitVec.toNat (z3.g h0 (fRs1 (ri 1 2 0)) + fSimm (ri 1 2 0)) % 4 ≠ 0 ∧ BitVec.toNat (z3.g h0 (fRs1 (ri 1 2 0)) + fSimm (ri 1 2 0)) % 8 ≠ 0) ∧
    (Issues z4 (Agent.host 0) ∧ (z4.cpu (Agent.host 0)).level = 3 ∧ BitVec.toNat (z4.g (Agent.host 0) (fRs1 (ri 1 2 0)) + fSimm (ri 1 2 0)) % 8 = 0 ∧ (regionOf (BitVec.toNat (z4.g (Agent.host 0) (fRs1 (ri 1 2 0)) + fSimm (ri 1 2 0))) = Region.unmapped ∨ regionOf (BitVec.toNat (z4.g (Agent.host 0) (fRs1 (ri 1 2 0)) + fSimm (ri 1 2 0))) = Region.nor ∨ regionOf (BitVec.toNat (z4.g (Agent.host 0) (fRs1 (ri 1 2 0)) + fSimm (ri 1 2 0))) = Region.mram)) ∧
    (z5.dieOn = true ∧ (z5.sbuf.get [] (agentKey h0))[1]? = some (30, [3, 4]) ∧ (30, [3, 4]).snd ≠ [] ∧ (∀ (j : Nat), j < 1 → ∀ (e : Nat × List Byte), (z5.sbuf.get [] (agentKey h0))[j]? = some e → e.snd ≠ [] ∧ ((30, [3, 4]).fst + (30, [3, 4]).snd.length ≤ e.fst ∨ e.fst + e.snd.length ≤ (30, [3, 4]).fst)) ∧ (regionOf (30, [3, 4]).fst = Region.dram ∨ regionOf (30, [3, 4]).fst = Region.tile)) ∧
    (Issues z6 (Agent.host 0) ∧ fFunc (rr 0 0 0 4) = 4 ∧ fRd (rr 0 0 0 4) = 0 ∧ fRs1 (rr 0 0 0 4) = 0 ∧ fRs2 (rr 0 0 0 4) = 0 ∧ z6.sbuf.get [] 0 = [(32, z7)] ∧ regionOf 32 = Region.dram) ∧
    (Issues z6 h0 ∧ fFunc (rr 0 0 0 1024) = 1024 ∧ fRd (rr 0 0 0 1024) = 0 ∧ fRs1 (rr 0 0 0 1024) = 0 ∧ fRs2 (rr 0 0 0 1024) = 0) ∧
    (Issues z8 h0 ∧ (fFunc (rr 0 0 0 0) = 0 ∨ (fFunc (rr 0 0 0 0)).testBit 8 = true ∨ fRd (rr 0 0 0 0) ≠ 0 ∨ fRs1 (rr 0 0 0 0) ≠ 0 ∨ fRs2 (rr 0 0 0 0) ≠ 0)) ∧
    (z9.runs h0 = true ∧ (z9.cpu h0).blocked = Blocked.fence) ∧
    (z10.dieOn = true ∧ (z10.sbuf.get [] (agentKey h0))[1]? = some (33, [3, 4]) ∧ (∃ j, j < 1 ∧ ∃ e, (z10.sbuf.get [] (agentKey h0))[j]? = some e ∧ (e.snd = [] ∨ e.fst < (33, [3, 4]).fst + (33, [3, 4]).snd.length ∧ (33, [3, 4]).fst < e.fst + e.snd.length))) ∧
    (z11.dieOn = true ∧ (z11.sbuf.get [] (agentKey t5))[0]? = some (endpBase + 16384 * 5, [1, 2, 3, 4]) ∧ regionOf (endpBase + 16384 * 5, [1, 2, 3, 4]).fst = Region.endp ∧ (isHost t5 = false ∨ z11.f Block.SYS (SYS_TILE_STATE (((endpBase + 16384 * 5, [1, 2, 3, 4]).fst - endpBase) / 16384)) 1 0 = 1)) ∧
    (Issues z6 h0 ∧ fFunc (rr 0 0 0 1) ≠ 0 ∧ (fFunc (rr 0 0 0 1)).testBit 8 = false ∧ fRd (rr 0 0 0 1) = 0 ∧ fRs1 (rr 0 0 0 1) = 0 ∧ fRs2 (rr 0 0 0 1) = 0) := by
  refine ⟨?_, ?_, ?_, ?_, ?_, ?_, ?_, ?_, ?_, ?_, ?_, ?_⟩ <;> first | (unfold Issues; decide +kernel) | decide +kernel

end Sys2Proof.Tests.Stores

namespace Sys2Proof.Tests.Atomics

def at_ (d : Nat) : State := bytesAt 0x1000 [0xF0,0xFF,0xFF,0xFF,5,6,7,0x88] (hs [(2, 0x1000), (3, 0x12345678FFFFFFF1), (1, d)])
def z1 : State := at_ 0xFFFFFFF0
def z2 : State := hs [(2,4)]
def z3 : State := hs [(2,8)]
def z4 : State := hs [(2,0x1100000000)]

theorem test_witness_atomics :
    (Issues z1 h0 ∧ Memory.wf z1.mem = true ∧ z1.translate h0 Acc.store (BitVec.toNat (z1.g h0 (fRs1 (rr 1 2 3 0)))) = (Trans.ok 4096 false, z1) ∧ (regionOf 4096 = Region.dram ∨ regionOf 4096 = Region.tile) ∧ (fFunc (rr 1 2 3 0) / 32 % 16 = if 4 = 8 then 8 else 0) ∧ BitVec.toNat (z1.g h0 (fRs1 (rr 1 2 3 0))) % 4 = 0 ∧ (∀ (g : Nat), g ∈ granules 4096 4 → (if 2 ≤ fFunc (rr 1 2 3 0) / 512 then z1.drainStores h0 else z1.drainTo h0 4096 (if (fFunc (rr 1 2 3 0)).testBit 8 = true then 8 else 4)).latent.get 0 g = 0 ∧ (if 2 ≤ fFunc (rr 1 2 3 0) / 512 then z1.drainStores h0 else z1.drainTo h0 4096 (if (fFunc (rr 1 2 3 0)).testBit 8 = true then 8 else 4)).poison.get false g = false) ∧ fFunc (rr 1 2 3 0) % 32 = 0) ∧
    (Issues z2 h0 ∧ fFunc (rr 1 2 3 256) / 32 % 8 = 0 ∧ fFunc (rr 1 2 3 256) % 32 < 12 ∧ ((BitVec.toNat (z2.g h0 (fRs1 (rr 1 2 3 256))) % if (fFunc (rr 1 2 3 256)).testBit 8 = true then 8 else 4) ≠ 0)) ∧
    (Issues z3 h0 ∧ (fFunc (rr 1 2 3 12) / 32 % 8 ≠ 0 ∨ 12 ≤ fFunc (rr 1 2 3 12) % 32)) ∧
    (Issues z4 (Agent.host 0) ∧ (z4.cpu (Agent.host 0)).level = 3 ∧ fFunc (rr 1 2 3 256) / 32 % 8 = 0 ∧ fFunc (rr 1 2 3 256) % 32 < 12 ∧ BitVec.toNat (z4.g (Agent.host 0) (fRs1 (rr 1 2 3 256))) % 8 = 0 ∧ regionOf (BitVec.toNat (z4.g (Agent.host 0) (fRs1 (rr 1 2 3 256)))) = Region.tbl) := by
  refine ⟨?_, ?_, ?_, ?_⟩ <;> (unfold Issues; decide +kernel)

end Sys2Proof.Tests.Atomics

namespace Sys2Proof.Tests.SendAndReceive

def chw (fn ch rd rs1 : Nat) : BitVec 26 := BitVec.ofNat 26 (rd * 2 ^ 21 + rs1 * 2 ^ 16 + ch * 2 ^ 6 + fn)
def ep (t c w0 w1 : Nat) (s : State) : State := s.wrBytes (endpBase + t * 0x4000 + c * 16) (leBytes 8 w0 ++ leBytes 8 w1)
def snd (t c p k : Nat) (s : State) : State := ep t c (2^63 + p * 2^40 + k * 2^50) 0 s
def rcv (t c p k d : Nat) (s : State) : State := ep t c (2^63 + 2^62 + p * 2^40 + k * 2^50 + d * 256) 0 s
def pr (l : List Dword) (g : List (Nat × Nat) := [(2, 77)]) : State := (snd 5 8 6 9 (rcv 6 9 5 8 2 (tl g))).setFifo 6 9 l
def pq (l : List Dword) (g : List (Nat × Nat) := [(2, 77)]) : State := (snd 6 8 5 9 (rcv 5 9 6 8 2 (tl g))).setFifo 5 9 l
def e5 (k d w1 : Nat) (s : State := tl [(2, 77)]) : State := ep 5 9 (2^63 + d * 2^62 + k*2^60 + 7) w1 s
def rg (h tl_ : Nat) (s : State := tl [(2, 77)]) : State := s.wrBytes 0x4000 (leBytes 8 h ++ leBytes 8 tl_ ++ List.replicate 48 0 ++ leBytes 8 11 ++ leBytes 8 12 ++ leBytes 8 13)
def z1 : State := pr [1]
def z2 : State := pr [1, 2]
def z3 : State := pr []
def z4 : State := e5 1 0 0
def z5 : State := e5 2 1 0
def z6 : State := { pr [1] with sbuf := SMap.empty.set [] (agentKey t5) [(0x20,[1,2])] }
def z7 : State := e5 2 0 0
def z8 : State := rg 3 2 (e5 3 0 (0x4000 + 4 * 2^52))
def z9 : State := rg 3 2 (e5 3 1 (0x4000 + 4 * 2^52))
def z10 : State := (e5 1 1 0).setFifo 5 9 [6, 7]
def z11 : List Dword := [7]
def z12 : State := snd 5 8 6 9 (tl [])
def z13 : State := pq [7, 8]
def z14 : List Dword := [8]
def z15 : State := pq []
def z16 : State := (pr [1]).setBlocked t5 (.send (chw 0 8 0 2))
def z17 : State := (pq [7, 8]).setBlocked t5 (.recv (chw 0 9 3 0))
def z18 : State := (rg 3 2 (e5 3 1 (0x4000 + 4 * 2^52))).setBlocked t5 (.recv (chw 0 9 3 0))
def z19 : State := hs []

theorem test_witness_sendAndReceive :
    (Issues z1 (Agent.tile 5) ∧ fFn (chw 0 8 0 2) = 0 ∧ fRd (chw 0 8 0 2) = 0 ∧ z1.endOf 5 (fChan (chw 0 8 0 2)) = End.tileSend 6 9 ∧ z1.peerDepth 5 (fChan (chw 0 8 0 2)) 6 9 = some 2 ∧ (z1.fifoOf 6 9).length < 2) ∧
    (Issues z1 (Agent.tile 5) ∧ fFn (chw 1 8 3 2) = 1 ∧ z1.endOf 5 (fChan (chw 1 8 3 2)) = End.tileSend 6 9 ∧ z1.peerDepth 5 (fChan (chw 1 8 3 2)) 6 9 = some 2) ∧
    (Issues z2 (Agent.tile 5) ∧ fFn (chw 0 8 0 2) = 0 ∧ fRd (chw 0 8 0 2) = 0 ∧ z2.endOf 5 (fChan (chw 0 8 0 2)) = End.tileSend 6 9 ∧ z2.peerDepth 5 (fChan (chw 0 8 0 2)) 6 9 = some 2 ∧ 2 ≤ (z2.fifoOf 6 9).length) ∧
    (Issues z3 (Agent.tile 5) ∧ fFn (chw 0 10 0 0) = 0 ∧ fRd (chw 0 10 0 0) = 0 ∧ fRs1 (chw 0 10 0 0) = 0 ∧ z3.endOf 5 (fChan (chw 0 10 0 0)) = End.unbound) ∧
    (Issues z4 (Agent.tile 5) ∧ fFn (chw 0 9 0 2) = 0 ∧ fRd (chw 0 9 0 2) = 0 ∧ (z4.endOf 5 (fChan (chw 0 9 0 2)) = End.bad ∨ (∃ p k d, z4.endOf 5 (fChan (chw 0 9 0 2)) = End.tileRecv p k d) ∨ (∃ p, z4.endOf 5 (fChan (chw 0 9 0 2)) = End.phRecv p) ∨ ∃ b l, z4.endOf 5 (fChan (chw 0 9 0 2)) = End.ringRecv b l)) ∧
    (Issues z5 (Agent.tile 5) ∧ fFn (chw 0 9 3 0) = 0 ∧ fRs1 (chw 0 9 3 0) = 0 ∧ (z5.endOf 5 (fChan (chw 0 9 3 0)) = End.bad ∨ (∃ p k, z5.endOf 5 (fChan (chw 0 9 3 0)) = End.tileSend p k) ∨ (∃ p, z5.endOf 5 (fChan (chw 0 9 3 0)) = End.port p) ∨ ∃ b l, z5.endOf 5 (fChan (chw 0 9 3 0)) = End.ringSend b l)) ∧
    (Issues z6 (Agent.tile 5) ∧ fFn (chw 2 8 0 2) = 2 ∧ fRd (chw 2 8 0 2) = 0 ∧ z6.endOf 5 (fChan (chw 2 8 0 2)) = End.tileSend 6 9 ∧ z6.peerDepth 5 (fChan (chw 2 8 0 2)) 6 9 = some 2 ∧ (z6.fifoOf 6 9).length < 2 ∧ (∀ (e : Nat × List Byte), e ∈ z6.sbuf.get [] (agentKey (Agent.tile 5)) → regionOf e.fst ≠ Region.endp)) ∧
    (Issues z7 (Agent.tile 5) ∧ fFn (chw 0 9 0 2) = 0 ∧ fRd (chw 0 9 0 2) = 0 ∧ z7.endOf 5 (fChan (chw 0 9 0 2)) = End.port 7) ∧
    (Issues z8 (Agent.tile 5) ∧ fFn (chw 0 9 0 2) = 0 ∧ fRd (chw 0 9 0 2) = 0 ∧ z8.endOf 5 (fChan (chw 0 9 0 2)) = End.ringSend 16384 16 ∧ z8.sbuf.get [] (agentKey (Agent.tile 5)) = [] ∧ z8.ringHeld 16384 < 16 ∧ regionOf 16384 = Region.dram ∧ regionOf (ringWord 16384 16 (z8.ringHead 16384)) = Region.dram) ∧
    (Issues z9 (Agent.tile 5) ∧ fFn (chw 0 9 3 0) = 0 ∧ fRs1 (chw 0 9 3 0) = 0 ∧ z9.endOf 5 (fChan (chw 0 9 3 0)) = End.ringRecv 16384 16 ∧ z9.sbuf.get [] (agentKey (Agent.tile 5)) = [] ∧ z9.ringHeld 16384 ≠ 0 ∧ regionOf (16384 + 8) = Region.dram) ∧
    (Issues z10 (Agent.tile 5) ∧ fFn (chw 0 9 3 0) = 0 ∧ fRs1 (chw 0 9 3 0) = 0 ∧ z10.endOf 5 (fChan (chw 0 9 3 0)) = End.phRecv 7 ∧ z10.fifoOf 5 (fChan (chw 0 9 3 0)) = 6 :: z11) ∧
    (Issues z12 (Agent.tile 5) ∧ fFn (chw 0 8 0 2) = 0 ∧ fRd (chw 0 8 0 2) = 0 ∧ z12.endOf 5 (fChan (chw 0 8 0 2)) = End.tileSend 6 9 ∧ z12.peerDepth 5 (fChan (chw 0 8 0 2)) 6 9 = none) ∧
    (Issues z13 (Agent.tile 5) ∧ fFn (chw 0 9 3 0) = 0 ∧ fRs1 (chw 0 9 3 0) = 0 ∧ z13.endOf 5 (fChan (chw 0 9 3 0)) = End.tileRecv 6 8 2 ∧ z13.peerSends 5 (fChan (chw 0 9 3 0)) 6 8 = true ∧ z13.fifoOf 5 (fChan (chw 0 9 3 0)) = 7 :: z14) ∧
    (Issues z15 (Agent.tile 5) ∧ fFn (chw 0 9 3 0) = 0 ∧ fRs1 (chw 0 9 3 0) = 0 ∧ z15.endOf 5 (fChan (chw 0 9 3 0)) = End.tileRecv 6 8 2 ∧ z15.peerSends 5 (fChan (chw 0 9 3 0)) 6 8 = true ∧ z15.fifoOf 5 (fChan (chw 0 9 3 0)) = []) ∧
    (z16.runs (Agent.tile 5) = true ∧ (z16.cpu (Agent.tile 5)).blocked = Blocked.send (chw 0 8 0 2) ∧ (fFn (chw 0 8 0 2) = 0 ∨ fFn (chw 0 8 0 2) = 2) ∧ fRd (chw 0 8 0 2) = 0 ∧ z16.endOf 5 (fChan (chw 0 8 0 2)) = End.tileSend 6 9 ∧ z16.peerDepth 5 (fChan (chw 0 8 0 2)) 6 9 = some 2 ∧ (z16.fifoOf 6 9).length < 2 ∧ (∀ (e : Nat × List Byte), e ∈ z16.sbuf.get [] (agentKey (Agent.tile 5)) → regionOf e.fst ≠ Region.endp)) ∧
    (z17.runs (Agent.tile 5) = true ∧ (z17.cpu (Agent.tile 5)).blocked = Blocked.recv (chw 0 9 3 0) ∧ (fFn (chw 0 9 3 0) = 0 ∨ fFn (chw 0 9 3 0) = 2) ∧ fRs1 (chw 0 9 3 0) = 0 ∧ fRd (chw 0 9 3 0) ≠ 0 ∧ z17.endOf 5 (fChan (chw 0 9 3 0)) = End.tileRecv 6 8 2 ∧ z17.peerSends 5 (fChan (chw 0 9 3 0)) 6 8 = true ∧ z17.fifoOf 5 (fChan (chw 0 9 3 0)) = 7 :: z14) ∧
    (z18.runs (Agent.tile 5) = true ∧ (z18.cpu (Agent.tile 5)).blocked = Blocked.recv (chw 0 9 3 0) ∧ fFn (chw 0 9 3 0) = 0 ∧ fRs1 (chw 0 9 3 0) = 0 ∧ fRd (chw 0 9 3 0) ≠ 0 ∧ z18.endOf 5 (fChan (chw 0 9 3 0)) = End.ringRecv 16384 16 ∧ z18.sbuf.get [] (agentKey (Agent.tile 5)) = [] ∧ z18.ringHeld 16384 ≠ 0) ∧
    (Issues z19 (Agent.host 0)) := by
  refine ⟨?_, ?_, ?_, ?_, ?_, ?_, ?_, ?_, ?_, ?_, ?_, ?_, ?_, ?_, ?_, ?_, ?_, ?_⟩
  · unfold Issues; decide +kernel
  · unfold Issues; decide +kernel
  · unfold Issues; decide +kernel
  · unfold Issues; decide +kernel
  · exact ⟨by unfold Issues; decide +kernel, by decide +kernel, by decide +kernel, .inl (by decide +kernel)⟩
  · exact ⟨by unfold Issues; decide +kernel, by decide +kernel, by decide +kernel, .inl (by decide +kernel)⟩
  · unfold Issues; decide +kernel
  · unfold Issues; decide +kernel
  · unfold Issues; decide +kernel
  · unfold Issues; decide +kernel
  · unfold Issues; decide +kernel
  · unfold Issues; decide +kernel
  · unfold Issues; decide +kernel
  · unfold Issues; decide +kernel
  · decide +kernel
  · decide +kernel
  · decide +kernel
  · unfold Issues; decide +kernel

end Sys2Proof.Tests.SendAndReceive

namespace Sys2Proof.Tests.PicksAndWaits

def chw (fn ch rd rs1 : Nat) : BitVec 26 := BitVec.ofNat 26 (rd * 2 ^ 21 + rs1 * 2 ^ 16 + ch * 2 ^ 6 + fn)
def ep (t c w0 w1 : Nat) (s : State) : State := s.wrBytes (endpBase + t * 0x4000 + c * 16) (leBytes 8 w0 ++ leBytes 8 w1)
def snd (t c p k : Nat) (s : State) : State := ep t c (2^63 + p * 2^40 + k * 2^50) 0 s
def rcv (t c p k d : Nat) (s : State) : State := ep t c (2^63 + 2^62 + p * 2^40 + k * 2^50 + d * 256) 0 s
def gd (f : Nat → Bool) (g : List (Nat × Nat)) : State := (List.range 8).foldl (fun s i => let s := snd 6 (16+i) 5 (16+i) (rcv 5 (16+i) 6 (16+i) 2 s); if f i then s.setFifo 5 (16+i) [5] else s) (tl g)
def pg2 : State := gd (fun _ => false) [(2, 1), (3, 9)]
def pr (l : List Dword) (g : List (Nat × Nat) := [(2, 77)]) : State := (snd 5 8 6 9 (rcv 6 9 5 8 2 (tl g))).setFifo 6 9 l
def pq (l : List Dword) (g : List (Nat × Nat) := [(2, 77)]) : State := (snd 6 8 5 9 (rcv 5 9 6 8 2 (tl g))).setFifo 5 9 l
def e5 (k d w1 : Nat) (s : State := tl [(2, 77)]) : State := ep 5 9 (2^63 + d * 2^62 + k*2^60 + 7) w1 s
def rg (h tl_ : Nat) (s : State := tl [(2, 77)]) : State := s.wrBytes 0x4000 (leBytes 8 h ++ leBytes 8 tl_ ++ List.replicate 48 0 ++ leBytes 8 11 ++ leBytes 8 12 ++ leBytes 8 13)
def z1 : State := gd (· == 7) [(2, 0xFF)]
def z2 : State := gd (fun _ => true) [(2, 0xFF)]
def z3 : State := { gd (fun _ => false) [(2, 1), (3, 9)] with now := 9 }
def z4 : State := gd (fun _ => false) [(2, 1), (3, 9)]
def z5 : State := (gd (· == 7) [(2, 0xFF)]).setBlocked t5 (.pick (chw 0 16 3 2))
def z6 : State := { pg2.setBlocked t5 (.pick (chw 2 16 3 2)) with now := 9 }
def z7 : State := { tl [(2, 9)] with now := 9 }
def z8 : State := { hs [(2, 9)] with now := 8 }
def z9 : State := { (hs [(2, 9)]).setBlocked h0 (.waitt (chw 0 0 3 2)) with now := 9 }
def z10 : State := pr [1]
def z11 : State := pq [1]
def z12 : State := e5 2 1 0
def z13 : State := e5 1 1 0
def z14 : State := e5 2 0 0
def z15 : State := rg 3 2 (e5 3 0 (0x4000 + 4 * 2^52))
def z16 : State := rg 3 2 (e5 3 1 (0x4000 + 4 * 2^52))

theorem test_witness_picksAndWaits :
    (Issues z1 (Agent.tile 5) ∧ fFn (chw 0 16 3 2) = 0 ∧ fChan (chw 0 16 3 2) % 8 = 0 ∧ (BitVec.toNat (z1.g (Agent.tile 5) (fRs1 (chw 0 16 3 2)))).testBit 7 = true ∧ (∀ (i : Nat), i < 8 → z1.guard 5 (fChan (chw 0 16 3 2) + i) = Except.ok (decide (i = 7)))) ∧
    (Issues z2 (Agent.tile 5) ∧ fFn (chw 0 16 3 2) = 0 ∧ fChan (chw 0 16 3 2) % 8 = 0 ∧ BitVec.toNat (z2.g (Agent.tile 5) (fRs1 (chw 0 16 3 2))) % 256 = 255 ∧ (∀ (i : Nat), i < 8 → z2.guard 5 (fChan (chw 0 16 3 2) + i) = Except.ok true)) ∧
    (Issues z3 (Agent.tile 5) ∧ fFn (chw 2 16 3 2) = 2 ∧ fChan (chw 2 16 3 2) % 8 = 0 ∧ BitVec.toNat (z3.g (Agent.tile 5) (fRs1 (chw 2 16 3 2))) % 256 ≠ 0 ∧ (∀ (i : Nat), i < 8 → ∃ b, z3.guard 5 (fChan (chw 2 16 3 2) + i) = Except.ok b) ∧ BitVec.toNat (z3.g (Agent.tile 5) (fRd (chw 2 16 3 2))) ≤ z3.now) ∧
    (Issues z4 (Agent.tile 5) ∧ fFn (chw 0 16 3 2) = 0 ∧ fChan (chw 0 16 3 2) % 8 = 0 ∧ BitVec.toNat (z4.g (Agent.tile 5) (fRs1 (chw 0 16 3 2))) % 256 ≠ 0 ∧ (∀ (i : Nat), i < 8 → z4.guard 5 (fChan (chw 0 16 3 2) + i) = Except.ok false)) ∧
    (Issues z4 (Agent.tile 5) ∧ fFn (chw 0 17 3 2) = 0 ∧ (fChan (chw 0 17 3 2) % 8 ≠ 0 ∨ BitVec.toNat (z4.g (Agent.tile 5) (fRs1 (chw 0 17 3 2))) % 256 = 0)) ∧
    (z5.runs (Agent.tile 5) = true ∧ (z5.cpu (Agent.tile 5)).blocked = Blocked.pick (chw 0 16 3 2) ∧ fFn (chw 0 16 3 2) = 0 ∧ fChan (chw 0 16 3 2) % 8 = 0 ∧ fRd (chw 0 16 3 2) ≠ 0 ∧ (BitVec.toNat (z5.g (Agent.tile 5) (fRs1 (chw 0 16 3 2)))).testBit 7 = true ∧ (∀ (i : Nat), i < 8 → z5.guard 5 (fChan (chw 0 16 3 2) + i) = Except.ok (decide (i = 7)))) ∧
    (z6.runs (Agent.tile 5) = true ∧ (z6.cpu (Agent.tile 5)).blocked = Blocked.pick (chw 2 16 3 2) ∧ fFn (chw 2 16 3 2) = 2 ∧ fChan (chw 2 16 3 2) % 8 = 0 ∧ fRd (chw 2 16 3 2) ≠ 0 ∧ (∀ (i : Nat), i < 8 → ∃ b, z6.guard 5 (fChan (chw 2 16 3 2) + i) = Except.ok b) ∧ BitVec.toNat (z6.g (Agent.tile 5) (fRd (chw 2 16 3 2))) ≤ z6.now) ∧
    (Issues z7 t5 ∧ fFn (chw 0 0 3 2) = 0 ∧ fChan (chw 0 0 3 2) = 0 ∧ BitVec.toNat (z7.g t5 (fRs1 (chw 0 0 3 2))) ≤ z7.now) ∧
    (Issues z8 h0 ∧ fFn (chw 0 0 3 2) = 0 ∧ fChan (chw 0 0 3 2) = 0 ∧ z8.now < BitVec.toNat (z8.g h0 (fRs1 (chw 0 0 3 2)))) ∧
    (z9.runs h0 = true ∧ (z9.cpu h0).blocked = Blocked.waitt (chw 0 0 3 2) ∧ fRd (chw 0 0 3 2) ≠ 0 ∧ BitVec.toNat (z9.g h0 (fRs1 (chw 0 0 3 2))) ≤ z9.now) ∧
    (Issues z10 (Agent.tile 5) ∧ fFn (chw 1 10 3 0) = 1 ∧ fRs1 (chw 1 10 3 0) = 0 ∧ z10.endOf 5 (fChan (chw 1 10 3 0)) = End.unbound) ∧
    (Issues z10 (Agent.tile 5) ∧ fFn (chw 1 8 3 0) = 1 ∧ fRs1 (chw 1 8 3 0) = 0 ∧ z10.endOf 5 (fChan (chw 1 8 3 0)) = End.tileSend 6 9 ∧ z10.peerDepth 5 (fChan (chw 1 8 3 0)) 6 9 = some 2) ∧
    (Issues z11 (Agent.tile 5) ∧ fFn (chw 1 9 3 0) = 1 ∧ fRs1 (chw 1 9 3 0) = 0 ∧ z11.endOf 5 (fChan (chw 1 9 3 0)) = End.tileRecv 6 8 2) ∧
    (Issues z12 (Agent.tile 5) ∧ fFn (chw 1 9 3 0) = 1 ∧ fRs1 (chw 1 9 3 0) = 0 ∧ z12.endOf 5 (fChan (chw 1 9 3 0)) = End.bad) ∧
    (Issues z13 (Agent.tile 5) ∧ fFn (chw 1 9 3 0) = 1 ∧ fRs1 (chw 1 9 3 0) = 0 ∧ z13.endOf 5 (fChan (chw 1 9 3 0)) = End.phRecv 7) ∧
    (Issues z14 (Agent.tile 5) ∧ fFn (chw 1 9 3 0) = 1 ∧ fRs1 (chw 1 9 3 0) = 0 ∧ z14.endOf 5 (fChan (chw 1 9 3 0)) = End.port 7) ∧
    (Issues z15 (Agent.tile 5) ∧ fFn (chw 1 9 3 0) = 1 ∧ fRs1 (chw 1 9 3 0) = 0 ∧ z15.endOf 5 (fChan (chw 1 9 3 0)) = End.ringSend 16384 16) ∧
    (Issues z16 (Agent.tile 5) ∧ fFn (chw 1 9 3 0) = 1 ∧ fRs1 (chw 1 9 3 0) = 0 ∧ z16.endOf 5 (fChan (chw 1 9 3 0)) = End.ringRecv 16384 16) := by
  refine ⟨?_, ?_, ?_, ?_, ?_, ?_, ?_, ?_, ?_, ?_, ?_, ?_, ?_, ?_, ?_, ?_, ?_, ?_⟩
  · and_intros <;> first | decide +kernel | (unfold Issues; decide +kernel) | (intro i h; rcases (by omega : i = 0 ∨ i = 1 ∨ i = 2 ∨ i = 3 ∨ i = 4 ∨ i = 5 ∨ i = 6 ∨ i = 7) with
      rfl | rfl | rfl | rfl | rfl | rfl | rfl | rfl <;> first | rfl | exact ⟨_, rfl⟩)
  · and_intros <;> first | decide +kernel | (unfold Issues; decide +kernel) | (intro i h; rcases (by omega : i = 0 ∨ i = 1 ∨ i = 2 ∨ i = 3 ∨ i = 4 ∨ i = 5 ∨ i = 6 ∨ i = 7) with
      rfl | rfl | rfl | rfl | rfl | rfl | rfl | rfl <;> first | rfl | exact ⟨_, rfl⟩)
  · and_intros <;> first | decide +kernel | (unfold Issues; decide +kernel) | (intro i h; rcases (by omega : i = 0 ∨ i = 1 ∨ i = 2 ∨ i = 3 ∨ i = 4 ∨ i = 5 ∨ i = 6 ∨ i = 7) with
      rfl | rfl | rfl | rfl | rfl | rfl | rfl | rfl <;> first | rfl | exact ⟨_, rfl⟩)
  · and_intros <;> first | decide +kernel | (unfold Issues; decide +kernel) | (intro i h; rcases (by omega : i = 0 ∨ i = 1 ∨ i = 2 ∨ i = 3 ∨ i = 4 ∨ i = 5 ∨ i = 6 ∨ i = 7) with
      rfl | rfl | rfl | rfl | rfl | rfl | rfl | rfl <;> first | rfl | exact ⟨_, rfl⟩)
  · unfold Issues; decide +kernel
  · and_intros <;> first | decide +kernel | (unfold Issues; decide +kernel) | (intro i h; rcases (by omega : i = 0 ∨ i = 1 ∨ i = 2 ∨ i = 3 ∨ i = 4 ∨ i = 5 ∨ i = 6 ∨ i = 7) with
      rfl | rfl | rfl | rfl | rfl | rfl | rfl | rfl <;> first | rfl | exact ⟨_, rfl⟩)
  · and_intros <;> first | decide +kernel | (unfold Issues; decide +kernel) | (intro i h; rcases (by omega : i = 0 ∨ i = 1 ∨ i = 2 ∨ i = 3 ∨ i = 4 ∨ i = 5 ∨ i = 6 ∨ i = 7) with
      rfl | rfl | rfl | rfl | rfl | rfl | rfl | rfl <;> first | rfl | exact ⟨_, rfl⟩)
  · unfold Issues; decide +kernel
  · unfold Issues; decide +kernel
  · decide +kernel
  · unfold Issues; decide +kernel
  · unfold Issues; decide +kernel
  · unfold Issues; decide +kernel
  · unfold Issues; decide +kernel
  · unfold Issues; decide +kernel
  · unfold Issues; decide +kernel
  · unfold Issues; decide +kernel
  · unfold Issues; decide +kernel

end Sys2Proof.Tests.PicksAndWaits

namespace Sys2Proof.Tests.PigeonholesAndEvents

def rt (p v : Nat) (pend : Bool) (s : State := on 1) : State := (Tests.st [(.PGH, PGH_ROUTE p, v)] s).setPend p pend
def ep (t c w0 w1 : Nat) (s : State) : State := s.wrBytes (endpBase + t * 0x4000 + c * 16) (leBytes 8 w0 ++ leBytes 8 w1)
def phd (l : List Dword) : State := (rt 136 0x90000005 true (ep 5 9 (2^63+2^62+2^60+136) 0 (tl []))).setFifo 5 9 l
def z1 : State := on 1 [(.HKP, 0x28, 0)]
def z2 : State := on 1
def z3 : State := rt 136 0x83000000 true (rt 137 0x83000000 true (rt 5 0x82000000 true))
def z4 : State := rt 255 0xA0000000 false
def z5 : State := on 1 [(.PGH, 0x18, 1)]
def z6 : State := phd []
def z7 : State := phd [3]
def z8 : State := rt 136 0x90000005 true
def z9 : State := rt 255 0 true

theorem test_witness_pigeonholesAndEvents :
    (Block.HKP ≠ Block.PGH ∧ Block.HKP ≠ Block.VLV ∧ Block.HKP ≠ Block.LSW ∧ Block.HKP ≠ Block.CAN ∧ 1 < 16 ∧ Block.HKP.ph0 + 1 < 256 ∧ z1.bit Block.HKP 40 1 = false) ∧
    (Block.HKP ≠ Block.PGH ∧ Block.HKP ≠ Block.VLV ∧ Block.HKP ≠ Block.LSW ∧ Block.HKP ≠ Block.CAN ∧ 1 < 16 ∧ Block.HKP.ph0 + 1 < 256 ∧ z2.bit Block.HKP 40 1 = true) ∧
    ((∀ (p : Nat), p < 256 → z2.claimable 0 true p = false)) ∧
    (z3.claimable 0 false 136 = true ∧ (∀ (q : Nat), q < 256 → z3.claimable 0 false q = true → fld (z3.route q) 25 24 < fld (z3.route 136) 25 24 ∨ fld (z3.route q) 25 24 = fld (z3.route 136) 25 24 ∧ 136 ≤ q)) ∧
    (fld (z2.route (32 * 7 + 31)) 29 28 ≠ 2 ∧ bitOf (z2.route (32 * 7 + 31)) 30 = false) ∧
    ((fld (z4.route (32 * 7 + 31)) 29 28 = 2 ∨ bitOf (z4.route (32 * 7 + 31)) 30 = true)) ∧
    (bitOf 2147483648 31 = true) ∧
    (bitOf 255 31 = false) ∧
    (z5.rd Block.PGH 24 = 1) ∧
    (z2.rd Block.PGH 24 ≠ 1) ∧
    (bitOf (z6.route 136) 31 = true ∧ z6.pend 136 = true ∧ fld (z6.route 136) 29 28 = 1 ∧ fld (z6.route 136) 7 0 = 5 ∧ z6.tileRuns 5 = true ∧ z6.phEnd 5 136 = some 9 ∧ z6.pgh.copyAcc.get 0 136 = 0 ∧ z6.fifoOf 5 9 = []) ∧
    (bitOf (z7.route 136) 31 = true ∧ z7.pend 136 = true ∧ fld (z7.route 136) 29 28 = 1 ∧ fld (z7.route 136) 7 0 = 5 ∧ z7.tileRuns 5 = true ∧ z7.phEnd 5 136 = some 9 ∧ z7.pgh.copyAcc.get 0 136 = 0 ∧ z7.fifoOf 5 9 ≠ []) ∧
    (136 ≠ 7 ∧ bitOf (z8.route 136) 31 = true ∧ z8.pend 136 = true ∧ fld (z8.route 136) 29 28 = 1 ∧ fld (z8.route 136) 7 0 = 5 ∧ z8.tileRuns 5 = false ∧ z8.pgh.copyAcc.get 0 136 = 0) ∧
    (bitOf 3221225472 31 = true ∧ fld (z9.route (32 * 7 + 31)) 29 28 ≠ 2 ∧ bitOf (z9.route (32 * 7 + 31)) 30 = false) := by
  refine ⟨?_, ?_, ?_, ?_, ?_, ?_, ?_, ?_, ?_, ?_, ?_, ?_, ?_, ?_⟩ <;> decide +kernel

end Sys2Proof.Tests.PigeonholesAndEvents

namespace Sys2Proof.Tests.EnginesAndTiles

def gx (k : Nat) (kind elem fl wd ht c0 cn ss ds un : Nat) (s : State) : State :=
  s.wrBytes (gxBase + 32 * k) (leBytes 1 kind ++ leBytes 1 elem ++ leBytes 2 fl ++ leBytes 2 wd ++ leBytes 2 ht ++ leBytes 2 c0 ++ leBytes 2 cn ++ leBytes 4 ss ++ leBytes 4 ds ++ leBytes 4 0 ++ leBytes 8 un)
def gw (rd r1 r2 d : Nat) : BitVec 26 := BitVec.ofNat 26 (rd * 2 ^ 21 + r1 * 2 ^ 16 + r2 * 2 ^ 11 + d)
def tb (s : State) (f : Tbl → Tbl) : State := { s with tbl := f s.tbl }
def jobs (n : Nat) (s : State) := tb s (fun t => { t with jobs := (List.range n).map fun i => { ticket := i+1, units := 1, prog := 0, inp := 0, out := 0 } })
def bo (s : State) : State := tb (Tests.st [(.TBL, TBL_STATUS, 0x40)] s) (fun t => { t with cfg := wordN (60*65536) })
def j11 : State := jobs 7 (hs [(2, 7)])
def rcv (t c p k d : Nat) (s : State) : State := s.wrBytes (endpBase + t * 0x4000 + c * 16) (leBytes 8 (2^63 + 2^62 + p * 2^40 + k * 2^50 + d * 256))
def prt (p : Nat) : State := { on 1 with ports := SMap.empty.set none p (some 0x100000007) }
def z1 : State := gx 3 1 0 0 0 1 0 1 0 8 0 (hs [(3, 0x100)])
def z2 : State := gx 3 1 0 0 2 2 4 3 0 16 0 ((hs [(3, 0x100), (2, 511)]).wrBytes (gridBase false + 511*64 + 4) [9,8,7])
def z3 : State := bo (gx 3 1 0 1 2 1 60 3 16 0 0 ((hs [(3, 0x100), (2, 511)]).wrBytes 0x100 [9,8,7]))
def z4 : State := gx 3 2 0 0 0 0 0 0 0 0 5 (hs [(3, 0x100)])
def z5 : State := jobs 32 (gx 3 2 0 0 0 0 0 0 0 0 5 (hs [(3, 0x100)]))
def z6 : State := (jobs 31 (gx 3 2 0 0 0 0 0 0 0 0 5 (hs [(3, 0x100)]))).setBlocked h0 (.gxrun (gw 1 2 3 3))
def z7 : State := (jobs 32 (gx 3 2 0 0 0 0 0 0 0 0 5 (hs [(3, 0x100)]))).setBlocked h0 (.gxrun (gw 1 2 3 3))
def z8 : State := tb (hs [(2, 7)]) (fun t => { t with ended := t.ended.set none 7 (some 3) })
def z9 : State := jobs 7 (hs [(2, 7)])
def z10 : TblJob := { ticket := 4, units := 1, prog := 0, inp := 0, out := 0 }
def z11 : State := on 1 [(.SYS, 0x4, 255), (.SYS, 0x8, 1)]
def z12 : State := (List.range 9).foldl (fun s i => rcv 3 i 4 i 64 s) (on 1 [(.SYS, 0x4, 3), (.SYS, 0x8, 1)])
def z13 : State := on 1 [(.SYS, 0x4, 250), (.SYS, 0x8, 6), (.SYS, SYS_TILE_STATE 255, 1)]
def z14 : State := on 1 [(.SYS, 0x4, 255), (.SYS, 0x8, 0)]
def z15 : State := on 1 [(.SYS, 0x4, 255), (.SYS, 0x8, 1), (.SYS, SYS_TILE_STATE 255, 1)]
def z16 : State := on 1 [(.SYS, 0x4, 128), (.SYS, 0x8, 0x1234), (.SYS, 0xC, 0x112)]
def z17 : State := on 1 [(.SYS, 0x4, 192), (.SYS, 0x8, 0x1234), (.SYS, 0xC, 0x112)]
def z18 : State := prt 128
def z19 : State := prt 5

theorem test_witness_enginesAndTiles :
    (Issues z1 h0 ∧ ((z1.gxDesc (fDesc (gw 1 2 3 3))).window = false ∨ (z1.gxDesc (fDesc (gw 1 2 3 3))).build = true ∧ z1.buildOpen = false) ∧ ((z1.gxDesc (fDesc (gw 1 2 3 3))).window = false ∨ (z1.gxDesc (fDesc (gw 1 2 3 3))).build = false ∨ z1.buildOpen = false ∨ (z1.gxDesc (fDesc (gw 1 2 3 3))).chFirst < z1.tbl.progFirst)) ∧
    (Issues z2 h0 ∧ (z2.gxDesc (fDesc (gw 1 2 3 3))).window = true ∧ ((z2.gxDesc (fDesc (gw 1 2 3 3))).build = false ∨ z2.buildOpen = true) ∧ z2.gridClean (z2.gxBuffer (z2.gxDesc (fDesc (gw 1 2 3 3))).build).fst ∧ Laid z2 h0 Acc.store (z2.gxDesc (fDesc (gw 1 2 3 3))) (BitVec.toNat (z2.g h0 (fRs2 (gw 1 2 3 3)))) (z2.gxDesc (fDesc (gw 1 2 3 3))).dstStride id) ∧
    (Issues z3 h0 ∧ (z3.gxDesc (fDesc (gw 1 2 3 3))).window = true ∧ (z3.gxDesc (fDesc (gw 1 2 3 3))).build = true ∧ z3.buildOpen = true ∧ z3.tbl.progFirst ≤ (z3.gxDesc (fDesc (gw 1 2 3 3))).chFirst ∧ Laid (z3.drainStores h0) h0 Acc.load (z3.gxDesc (fDesc (gw 1 2 3 3))) (BitVec.toNat (z3.g h0 (fRs2 (gw 1 2 3 3)))) (z3.gxDesc (fDesc (gw 1 2 3 3))).srcStride id) ∧
    (Issues z4 h0 ∧ z4.tbl.jobs.length < 32) ∧
    (Issues z5 h0 ∧ 32 ≤ z5.tbl.jobs.length) ∧
    (z6.runs h0 = true ∧ (z6.cpu h0).blocked = Blocked.gxrun (gw 1 2 3 3) ∧ z6.tbl.jobs.length < 32) ∧
    (z7.runs h0 = true ∧ (z7.cpu h0).blocked = Blocked.gxrun (gw 1 2 3 3) ∧ 32 ≤ z7.tbl.jobs.length) ∧
    (Issues z8 h0 ∧ fDesc (gw 1 2 0 1) ≤ 1 ∧ fRs2 (gw 1 2 0 1) = 0 ∧ (z8.ticketStatus (BitVec.toNat (z8.g h0 (fRs1 (gw 1 2 0 1)))) ≠ 255 ∨ fDesc (gw 1 2 0 1) = 1)) ∧
    ((∃ j, j ∈ z9.tbl.jobs ∧ j.ticket = 7) ∧ z9.tbl.ended.get none 7 = none) ∧
    (z9.tbl.ended.get none 8 = none ∧ (∀ (j : TblJob), j ∈ z9.tbl.jobs → j.ticket ≠ 8)) ∧
    (Issues z9 h0 ∧ fDesc (gw 1 2 0 0) = 0 ∧ fRs2 (gw 1 2 0 0) = 0 ∧ z9.ticketStatus (BitVec.toNat (z9.g h0 (fRs1 (gw 1 2 0 0)))) = 255) ∧
    (Issues z9 h0 ∧ (1 < fDesc (gw 1 2 0 2) ∨ fRs2 (gw 1 2 0 2) ≠ 0)) ∧
    (j11.tbl.jobs[3]? = some z10) ∧
    (Idle z11 Block.SYS ∧ z11.rdN Block.SYS 4 = 255 ∧ z11.rdN Block.SYS 8 = 1 ∧ z11.tileRuns 255 = false ∧ z11.depthSum 255 ≤ 512) ∧
    (Idle z12 Block.SYS ∧ z12.rdN Block.SYS 4 = 3 ∧ z12.rdN Block.SYS 8 = 1 ∧ z12.tileRuns 3 = false ∧ 512 < z12.depthSum 3) ∧
    (Idle z13 Block.SYS ∧ z13.rdN Block.SYS 4 = 250 ∧ z13.rdN Block.SYS 8 = 6 ∧ 0 < 6 ∧ 250 + 6 ≤ 256 ∧ (∀ (k : Nat), 250 ≤ k → k < 250 + 6 → z13.tileRuns k = false → z13.depthSum k ≤ 512)) ∧
    (Idle z13 Block.SYS ∧ z13.rdN Block.SYS 4 = 250 ∧ z13.rdN Block.SYS 8 = 6 ∧ 0 < 6 ∧ 250 + 6 ≤ 256) ∧
    (Idle z14 Block.SYS ∧ (z14.rdN Block.SYS 8 = 0 ∨ 255 < z14.rdN Block.SYS 4)) ∧
    (Idle z15 Block.SYS ∧ z15.rdN Block.SYS 4 = 255 ∧ z15.rdN Block.SYS 8 = 1 ∧ z15.tileRuns 255 = true) ∧
    (Idle z15 Block.SYS ∧ z15.rdN Block.SYS 4 = 255 ∧ z15.rdN Block.SYS 8 = 1) ∧
    (Idle z16 Block.SYS ∧ 7 ≠ 0 ∧ z16.rdN Block.SYS 4 = 2 ^ 7 ∧ z16.f Block.SYS (SYS_HOST_STATUS 7) 1 0 = 0) ∧
    (Idle z17 Block.SYS ∧ 7 ≠ 0 ∧ z17.bit Block.SYS 4 7 = true ∧ z17.f Block.SYS (SYS_HOST_STATUS 7) 1 0 = 0) ∧
    (z18.ports.get none 128 = some 4294967303) ∧
    (z19.ports.get none 6 = none) ∧
    ((tb (hs [(2, 7)]) (fun t => { t with ended := t.ended.set none 7 (some 3) })).tbl.ended.get none 7 = some 3) ∧
    (∀ j ∈ (tb (hs [(2, 7)]) (fun t => { t with ended := t.ended.set none 7 (some 3) })).tbl.recent, j.1 ≠ 7) := by
  refine ⟨?_, ?_, ?_, ?_, ?_, ?_, ?_, ?_, ?_, ?_, ?_, ?_, ?_, ?_, ?_, ?_, ?_, ?_, ?_, ?_, ?_, ?_, ?_, ?_, ?_, ?_⟩
  · unfold Issues; decide +kernel
  · and_intros <;> first | decide +kernel | (unfold Issues; decide +kernel) | exact fun g _ _ => ⟨rfl, rfl⟩ | (unfold Laid; decide +kernel)
  · and_intros <;> first | decide +kernel | (unfold Issues; decide +kernel) | exact fun g _ _ => ⟨rfl, rfl⟩ | (unfold Laid; decide +kernel)
  · unfold Issues; decide +kernel
  · unfold Issues; decide +kernel
  · decide +kernel
  · decide +kernel
  · unfold Issues; decide +kernel
  · decide +kernel
  · decide +kernel
  · unfold Issues; decide +kernel
  · unfold Issues; decide +kernel
  · decide +kernel
  · unfold Idle; decide +kernel
  · unfold Idle; decide +kernel
  · and_intros <;> first | decide +kernel | (unfold Idle; decide +kernel) | (intro k h1 h2; revert h1; revert h2; revert k; decide +kernel)
  · unfold Idle; decide +kernel
  · unfold Idle; decide +kernel
  · unfold Idle; decide +kernel
  · unfold Idle; decide +kernel
  · unfold Idle; decide +kernel
  · unfold Idle; decide +kernel
  · decide +kernel
  · decide +kernel
  · decide +kernel
  · decide +kernel

end Sys2Proof.Tests.EnginesAndTiles

namespace Sys2Proof.Tests.UnmappedOffsets

def z1 : State := hs [(2, 0x2000200000+0xC0000)]

theorem test_witness_unmappedOffsets :
    (regRow (blockNo 21) (4 * 196608) = none) ∧
    (Issues z1 h0 ∧ regRow (blockNo 2) (4 * 196608) = none ∧ BitVec.toNat (z1.g h0 (fRs1 (ri 1 2 0)) + fSimm (ri 1 2 0)) % 4 = 0 ∧ z1.translate h0 Acc.load (BitVec.toNat (z1.g h0 (fRs1 (ri 1 2 0)) + fSimm (ri 1 2 0))) = (Trans.ok (137438953472 + 2 * 1048576 + 4 * 196608) false, z1) ∧ z1.translate h0 Acc.store (BitVec.toNat (z1.g h0 (fRs1 (ri 1 2 0)) + fSimm (ri 1 2 0))) = (Trans.ok (137438953472 + 2 * 1048576 + 4 * 196608) false, z1)) := by
  refine ⟨?_, ?_⟩ <;> first | (unfold Issues; decide +kernel) | decide +kernel

end Sys2Proof.Tests.UnmappedOffsets

namespace Sys2Proof.Tests.RegisterAccess

def row (b : Block) (o : Nat) : RegRow := match regRow b o with | some r => r | none => ⟨0,[],.ro,0,[],0,false,false⟩
def z1 : RegRow := row .SYS 0x14
def z2 : State := on 1
def z3 : RegRow := row .SYS 0x24
def z4 : State := on 1 [(.SYS, 0x24, 0xFF)]
def z5 : RegRow := row .SYS 0x28
def z6 : State := on 1 []

theorem test_witness_registerAccess :
    ((2 ^ 3 ≠ 4 ∨ 1048572 % 4 ≠ 0)) ∧
    (regRow (blockNo 3) (4 * 262143) = none) ∧
    (regRow (blockNo 0) (4 * 5) = some z1 ∧ 5 ≠ 0 ∧ 5 ≠ 6 ∧ z2.writeAct (blockNo 0) z1 (4 * 5) 7 = none ∧ (z1.acc = Access.ro ∨ z1.acc = Access.rwp ∧ z2.rd (blockNo 0) 24 ≠ 1)) ∧
    (regRow (blockNo 0) (4 * 9) = some z3 ∧ 9 ≠ 0 ∧ 9 ≠ 6 ∧ z4.writeAct (blockNo 0) z3 (4 * 9) 7 = none ∧ z3.acc = Access.w1c) ∧
    (blockNo 0 ∈ [Block.SYS, Block.PACE, Block.PGH, Block.CAM, Block.TBL, Block.UPD, Block.PWR] ∧ regRow (blockNo 0) (4 * 10) = some z5 ∧ 10 ≠ 0 ∧ 10 ≠ 6 ∧ z6.writeAct (blockNo 0) z5 (4 * 10) 7 = none ∧ (z5.acc = Access.rw ∨ z5.acc = Access.rwp ∧ z6.rd (blockNo 0) 24 = 1)) ∧
    ((regRow (blockNo 3) 24).isSome = true) ∧
    ((regRow (blockNo 3) 0).isSome = true ∧ 0 < (blockNo 3).commands ∧ fld 0 7 0 = 0) ∧
    ((regRow (blockNo 3) 0).isSome = true ∧ 0 < (blockNo 3).commands ∧ (blockNo 3).commands < fld 255 7 0) ∧
    ((Fin.ofNat 22 0, 2, Instr.drawerSet) ∈ mailRows ∧ fld (wordN 2) 7 0 = 2) := by
  refine ⟨?_, ?_, ?_, ?_, ?_, ?_, ?_, ?_, ?_⟩ <;> decide +kernel

end Sys2Proof.Tests.RegisterAccess

namespace Sys2Proof.Tests.MailboxesAndStreams

def mk (p : Nat × Nat × Nat) : State := let s := on 1; { s with tim := { s.tim with marks := [0x1234567890ABCDEF, 5] }, dmw := { s.dmw with part := s.dmw.part.set (0,0,0) 48 p } }
def z1 : State := on 1
def z2 : State := mail .SYS 1 [] (on 1)
def z3 : State := mk (0,0,0)
def z4 : List Nat := [5]
def z5 : State := mk (101,1,2)
def z6 : State := mk (101,2,2)
def z7 : State := mk (101,3,2)

theorem test_witness_mailboxesAndStreams :
    (0 < (blockNo 0).commands ∧ (blockNo 0).commands < 8 ∧ Idle z1 (blockNo 0)) ∧
    (0 < (blockNo 0).commands ∧ (blockNo 0).commands < 8 ∧ ¬Idle z2 (blockNo 0)) ∧
    (¬Idle z2 Block.SYS) ∧
    (z1.reqOn (32 + 16) = false) ∧
    (z3.reqOn 48 = true ∧ z3.tim.marks = 1311768467294899695 :: z4 ∧ (z3.dmw.part.get (0, 0, 0) 48).snd.fst = 0) ∧
    (z5.reqOn 48 = true ∧ z5.tim.marks = 1311768467294899695 :: z4 ∧ (z5.dmw.part.get (0, 0, 0) 48).snd.fst = 1 ∧ (z5.dmw.part.get (0, 0, 0) 48).fst = initiatorNo (Initiator.core h0)) ∧
    (z6.reqOn 48 = true ∧ z6.tim.marks = 1311768467294899695 :: z4 ∧ (z6.dmw.part.get (0, 0, 0) 48).snd.fst = 2 ∧ (z6.dmw.part.get (0, 0, 0) 48).fst = initiatorNo (Initiator.core h0)) ∧
    (z7.reqOn 48 = true ∧ z7.tim.marks = 1311768467294899695 :: z4 ∧ (z7.dmw.part.get (0, 0, 0) 48).snd.fst = 3 ∧ (z7.dmw.part.get (0, 0, 0) 48).fst = initiatorNo (Initiator.core h0)) ∧
    (Block.HKP.cmdDone = some 1) := by
  refine ⟨?_, ?_, ?_, ?_, ?_, ?_, ?_, ?_, ?_⟩ <;> first | (unfold Idle; decide +kernel) | decide +kernel

end Sys2Proof.Tests.MailboxesAndStreams

namespace Sys2Proof.Tests.StartUps

def e0 : BootEnv := { pins := 0, volts := [12000,12000,12000,12000,12000,12000], off := some 5, straps := [], hkp := [], wdg := true, cut := true }
def e1 : BootEnv := { e0 with pins := 5 }
def elo : BootEnv := { e1 with volts := [6499] }
def dor (l : R := []) (w : Nat := 0) : State := let s := Tests.st l (ph .dormant); { s with aon := { s.aon with wake := w } }
def pin (f : SysSt → SysSt) (s : State) : State := { s with sys := f s.sys }
def dW : State := pin (fun x => { x with cfg := { x.cfg with wakeTimer := 3 } }) (dor [(.PACE, PACE_ISL_CTRL 7, 0x100), (.PACE, PACE_ISL_CTRL 13, 0x100)])
def z1 : State := dor [] 2
def z2 : State := dor
def z3 : State := on 1
def z4 : State := pin (fun x => { x with active := true }) (on 0)
def z5 : State := on 1 [(.SYS, 0x4, 0xC35A)]
def z6 : State := on 5 [(.SYS, 0x4, 0xC35A)]
def z7 : State := on 1 [(.SYS, 0x4, 0xC35B)]
def z8 : State := ph .thermal

theorem test_witness_startUps :
    (State.reset.pwr.phase = Phase.off ∧ 6500 ≤ e1.volts.getD 0 0 ∧ e1.pins.toNat % 8 ≠ 0) ∧
    (z1.pwr.phase = Phase.dormant ∧ 6500 ≤ e0.volts.getD 0 0 ∧ z1.aon.wake ≠ 0) ∧
    ((e0.volts.getD 0 0 < 6500 ∨ State.reset.pwr.phase = Phase.off ∧ e0.pins.toNat % 8 = 0 ∨ State.reset.pwr.phase = Phase.dormant ∧ State.reset.aon.wake = 0 ∨ ¬State.reset.pwr.phase ∈ [Phase.off, Phase.dormant]) ∧ (elo.volts.getD 0 0 < 6500 ∨ State.reset.pwr.phase = Phase.off ∧ elo.pins.toNat % 8 = 0 ∨ State.reset.pwr.phase = Phase.dormant ∧ State.reset.aon.wake = 0 ∨ ¬State.reset.pwr.phase ∈ [Phase.off, Phase.dormant])) ∧
    (dW.pwr.phase = Phase.dormant ∧ true = true ∧ 6500 ≤ e0.volts.getD 0 0 ∧ (dW.sys.cfg.wakeTimer != 0) = true ∧ dW.bit Block.PACE (PACE_ISL_CTRL 7) 8 = true ∧ dW.bit Block.PACE (PACE_ISL_CTRL (9 + 4)) 8 = true ∧ elo.volts.getD 0 0 < 6500) ∧
    (z2.pwr.phase = Phase.dormant ∧ (z2.sys.cfg.wakeTimer != 0) = false ∧ z2.bit Block.PACE (PACE_ISL_CTRL 7) 8 = false ∧ z2.bit Block.PACE (PACE_ISL_CTRL (9 + 4)) 8 = false) ∧
    (z3.pwr.phase ≠ Phase.dormant ∧ State.reset.pwr.phase ≠ Phase.dormant) ∧
    (z4.pwr.phase ∈ [Phase.run, Phase.ride, Phase.reserve] ∧ z4.sys.active = true ∧ z4.sys.stopped = 0) ∧
    (z5.pwr.phase ∈ [Phase.run, Phase.ride, Phase.reserve] ∧ Idle z5 Block.SYS ∧ z5.rd Block.SYS 4 = 50010 ∧ (z5.mode ≠ 5 ∨ z5.sys.active = true)) ∧
    (z6.pwr.phase ∈ [Phase.run, Phase.ride, Phase.reserve] ∧ Idle z6 Block.SYS ∧ z6.rd Block.SYS 4 = 50010 ∧ z6.mode = 5 ∧ z6.sys.active = false) ∧
    (Idle z7 Block.SYS ∧ z7.rd Block.SYS 4 ≠ 50010) ∧
    (z8.pwr.phase = Phase.thermal) := by
  refine ⟨?_, ?_, ?_, ?_, ?_, ?_, ?_, ?_, ?_, ?_, ?_⟩ <;> first | (unfold Idle; decide +kernel) | decide +kernel

end Sys2Proof.Tests.StartUps

namespace Sys2Proof.Tests.ModesAndDrawer

def pin (f : SysSt → SysSt) (s : State) : State := { s with sys := f s.sys }
def lossS (l : R := []) : State := Tests.st ((.SYS, SYS_MODE, 0x11) :: l) (ph .loss)
def e0 : BootEnv := { pins := 0, volts := [12000,12000,12000,12000,12000,12000], off := some 5, straps := [], hkp := [], wdg := true, cut := true }
def stg : State := pin (fun x => { x with storing := true }) (on 1 [(.SYS, SYS_MODE, 0x81)])
def mr : Block × Nat × Nat := (.HKP, HKP_CH_VALUE 25, 0x80000000 + 1050)
def z1 : State := on 2 [(.SYS, 0x4, 6), (.SYS, SYS_MODE, 0x92)]
def z2 : State := on 2 [(.SYS, 0x4, 2)]
def z3 : State := on 2 [(.SYS, 0x4, 7)]
def z4 : State := pin (fun x => { x with ign := true }) (on 1 [(.SYS, 0x4, 2)])
def z5 : State := pin (fun x => { x with still := true }) (on 6 [(.SYS, 0x4, 5)])
def z6 : State := on 1 [(.SYS, 0x4, 3)]
def z7 : State := pin (fun x => { x with active := true }) (on 0 [(.SYS, 0x4, 1)])
def z8 : State := on 1 [(.SYS, SYS_MODE, 0xA1)]
def z9 : State := on 1 [(.SYS, SYS_MODE, 0x81)]
def z10 : State := lossS [(.SYS, 0x4, 2)]
def z11 : State := on 4
def z12 : State := on 5
def z13 : State := on 6
def z14 : State := pin (fun x => { x with wake := true }) (on 1)
def z15 : State := on 1
def z16 : State := on 2
def z17 : State := on 1 [(.SYS, 0x4, 7)]
def z18 : State := pin (fun x => { x with code := 7 }) (on 1 [(.SYS, 0x4, 7)])
def z19 : State := pin (fun x => { x with code := 7 }) (on 1 [(.SYS, 0x4, 7), mr])

theorem test_witness_modesAndDrawer :
    (Idle z1 Block.SYS ∧ z1.sys.active = false ∧ z1.pwr.phase ≠ Phase.loss ∧ z1.rdN Block.SYS 4 = 6 ∧ 6 ≤ 6 ∧ 6 ≠ 0 ∧ z1.bit Block.SYS SYS_MODE 7 = true) ∧
    (Idle z2 Block.SYS ∧ z2.sys.active = false ∧ z2.pwr.phase ≠ Phase.loss ∧ z2.rdN Block.SYS 4 = 2 ∧ 2 ≤ 6 ∧ 2 ≠ 0 ∧ z2.bit Block.SYS SYS_MODE 7 = false ∧ 2 = z2.mode) ∧
    (Idle z3 Block.SYS ∧ z3.sys.active = false ∧ 6 < z3.rdN Block.SYS 4) ∧
    (Idle z4 Block.SYS ∧ z4.sys.active = false ∧ z4.bit Block.SYS SYS_MODE 7 = false ∧ z4.sys.noDrawer = false ∧ z4.hkpInhibit = false ∧ z4.pwr.phase ≠ Phase.loss ∧ z4.mode = 1 ∧ z4.rdN Block.SYS 4 = 2 ∧ (1 = 1 → z4.sys.ign = true)) ∧
    (Idle z5 Block.SYS ∧ z5.sys.active = false ∧ z5.bit Block.SYS SYS_MODE 7 = false ∧ (z5.mode = 1 ∨ z5.mode = 6) ∧ z5.rdN Block.SYS 4 = 5 ∧ (z5.sys.still = true ∨ z5.sys.cfg.still = false) ∧ z5.pwr.phase ≠ Phase.loss) ∧
    (Idle z6 Block.SYS ∧ z6.sys.active = false ∧ z6.bit Block.SYS SYS_MODE 7 = false ∧ z6.mode = 1 ∧ z6.rdN Block.SYS 4 = 3) ∧
    (Idle z7 Block.SYS ∧ z7.sys.active = true ∧ z7.sys.stopped = 0 ∧ z7.rdN Block.SYS 4 = 1 ∧ z7.bit Block.SAF SAF_STATUS 7 = false) ∧
    (z8.bit Block.SYS SYS_MODE 7 = true ∧ z8.sys.active = false ∧ z8.pwr.phase ≠ Phase.loss ∧ z8.f Block.SYS SYS_MODE 6 4 ≠ 0) ∧
    (z9.bit Block.SYS SYS_MODE 7 = true ∧ z9.sys.active = false ∧ z9.pwr.phase ≠ Phase.loss ∧ z9.f Block.SYS SYS_MODE 6 4 = 0) ∧
    (z10.pwr.phase = Phase.loss ∧ Idle z10 Block.SYS ∧ z10.sys.active = false ∧ z10.rdN Block.SYS 4 = 2 ∧ 2 ≤ 6) ∧
    (z11.mode ∈ [2, 3, 4] ∧ z11.sys.active = false ∧ z11.sys.storing = false ∧ z11.bit Block.SYS SYS_MODE 7 = false ∧ z11.pwr.phase ≠ Phase.loss) ∧
    (z12.mode = 5 ∧ z12.sys.active = false ∧ z12.sys.storing = false ∧ z12.bit Block.SYS SYS_MODE 7 = false ∧ z12.pwr.phase ≠ Phase.loss) ∧
    ((z13.mode = 1 ∨ z13.mode = 6) ∧ z13.sys.ign = false ∧ z13.sys.wake = false ∧ z13.sys.wakeSvc = false ∧ z13.bit Block.SYS SYS_MODE 7 = false ∧ z13.sys.active = false ∧ z13.pwr.phase ≠ Phase.loss) ∧
    (z14.mode ∈ [0, 1, 6]) ∧
    (stg.sys.storing = true ∧ stg.bit Block.SAF SAF_STATUS 7 = false ∧ 6500 ≤ e0.volts.getD 0 0 ∧ stg.aon.wake = 0) ∧
    (z15.sys.storing = false) ∧
    (Idle z16 Block.SYS ∧ z16.sys.active = false ∧ z16.mode ≠ 1 ∧ z16.mode ≠ 5) ∧
    (Idle z17 Block.SYS ∧ z17.sys.active = false ∧ z17.mode = 1 ∧ z17.rdN Block.SYS 4 ≤ 7 ∧ z17.sys.code ≠ 7) ∧
    (Idle z18 Block.SYS ∧ z18.sys.active = false ∧ z18.mode = 1 ∧ z18.rdN Block.SYS 4 ≤ 7 ∧ z18.sys.code = 7 ∧ z18.mramOk = false) ∧
    (Idle z19 Block.SYS ∧ z19.sys.active = false ∧ z19.mode = 1 ∧ z19.rdN Block.SYS 4 ≤ 7 ∧ z19.sys.code = 7 ∧ z19.mramOk = true) := by
  refine ⟨?_, ?_, ?_, ?_, ?_, ?_, ?_, ?_, ?_, ?_, ?_, ?_, ?_, ?_, ?_, ?_, ?_, ?_, ?_, ?_⟩ <;> first | (unfold Idle; decide +kernel) | decide +kernel

end Sys2Proof.Tests.ModesAndDrawer

namespace Sys2Proof.Tests.StorageAndScrub

def sq (l : R) : State := { on 1 l with stq := some { addr := 0x1000, atTail := true } }
def em : Block × Nat × Nat := (.HKP, HKP_CH_VALUE 27, 0x80000000 + 950)
def rq (op dev cnt off ad : Nat) (l : R) : State := let s := sq l; s.wrBytes 0x1000 (leBytes 1 op ++ leBytes 1 dev ++ leBytes 2 0 ++ leBytes 4 cnt ++ leBytes 8 off ++ leBytes 8 ad)
def q0 : StqRun := { addr := 0x1000, atTail := true }
def ok : R := [em, (.HKP, HKP_CH_VALUE 26, 0x80000000 + 250), (.HKP, HKP_CH_VALUE 25, 0x80000000 + 250), (.SYS, SYS_EMMC_USER_BASE, 10), (.SYS, SYS_EMMC_USER_SIZE, 10), (.SYS, SYS_NOR_USER, 0x00010010), (.SYS, SYS_MRAM_USER, 0x00010010)]
def rg (op dev cnt off ad : Nat) (l : R := ok) : State := bytesAt 0x100000 [0x81,2,3] (rq op dev cnt off ad l)
def lt (n : Nat) (p : Nat := 0): State := { on 1 [(.SYS, SYS_ECC_CFG, 1)] with latent := SMap.empty.set 0 (5*64) n }
def z1 : State := on 1
def z2 : State := on 1 [(.SYS, SYS_STQ_CFG, 0x100)]
def z3 : State := rg 9 0 512 0 0x100000
def z4 : State := rg 2 0 512 0 0x100000
def z5 : State := rg 2 0 512 5120 0x100000 [(.SYS, SYS_EMMC_USER_BASE, 10), (.SYS, SYS_EMMC_USER_SIZE, 10)]
def z6 : State := rg 1 0 512 5120 0x100000
def z7 : State := { rg 1 0 512 5120 0x100000 with emmc := SMap.empty.set 0 5121 7 }
def z8 : State := rg 2 0 512 5120 0x100000
def z9 : State := rg 2 2 500 0x10000 0x100000
def z10 : State := rg 2 1 16 0x10000 0x100000
def z11 : State := bytesAt (norBase + 0x10000) [0x01, 0, 3] (rg 3 1 16 0x10005 0x100000)
def z12 : State := rg 4 0 16 0 0x100000
def z13 : State := rg 9 0 512 0 0x100000 [(.SYS, SYS_STQ_CFG, 0x100), (.SYS, SYS_STQ_HEAD, 1)]
def z14 : State := rg 9 0 512 0 0x100000 [(.SYS, SYS_STQ_CFG, 0x100), (.SYS, SYS_STQ_HEAD, 2)]
def z15 : State := lt 0
def z16 : State := lt 1

theorem test_witness_storageAndScrub :
    (z1.bit Block.SYS SYS_STQ_CFG 8 = false) ∧
    (z2.bit Block.SYS SYS_STQ_CFG 8 = true ∧ z2.stq = none ∧ z2.bit Block.PWR PWR_STATUS 15 = false ∧ fld 1 15 0 ≠ z2.f Block.SYS SYS_STQ_TAIL 15 0 ∧ z2.stqAddr + 64 ≤ 16642998272) ∧
    (z3.stq = some q0 ∧ z3.bit Block.SYS SYS_STQ_CFG 8 = false ∧ q0.addr + 64 ≤ 16642998272 ∧ Memory.wf z3.mem = true ∧ (SMap.wf (fun x => 0) z3.emmc = true) ∧ (z3.stqReq q0.addr).ok = false) ∧
    (z4.stq = some q0 ∧ z4.bit Block.SYS SYS_STQ_CFG 8 = false ∧ q0.addr + 64 ≤ 16642998272 ∧ Memory.wf z4.mem = true ∧ (SMap.wf (fun x => 0) z4.emmc = true) ∧ (z4.stqReq q0.addr).ok = true ∧ ((z4.stqReq q0.addr).op = 2 ∨ (z4.stqReq q0.addr).op = 3) ∧ ¬((z4.userArea (z4.stqReq q0.addr).dev).fst ≤ (z4.stqReq q0.addr).range.fst ∧ (z4.stqReq q0.addr).range.fst + (z4.stqReq q0.addr).range.snd ≤ (z4.userArea (z4.stqReq q0.addr).dev).fst + (z4.userArea (z4.stqReq q0.addr).dev).snd)) ∧
    (z5.stq = some q0 ∧ z5.bit Block.SYS SYS_STQ_CFG 8 = false ∧ q0.addr + 64 ≤ 16642998272 ∧ Memory.wf z5.mem = true ∧ (SMap.wf (fun x => 0) z5.emmc = true) ∧ (z5.stqReq q0.addr).ok = true ∧ ((z5.stqReq q0.addr).op = 2 ∨ (z5.stqReq q0.addr).op = 3 → (z5.userArea (z5.stqReq q0.addr).dev).fst ≤ (z5.stqReq q0.addr).range.fst ∧ (z5.stqReq q0.addr).range.fst + (z5.stqReq q0.addr).range.snd ≤ (z5.userArea (z5.stqReq q0.addr).dev).fst + (z5.userArea (z5.stqReq q0.addr).dev).snd) ∧ (¬if (z5.stqReq q0.addr).dev = 0 then z5.emmcOk = true else if (z5.stqReq q0.addr).dev = 1 then z5.norOk = true else z5.mramOk = true)) ∧
    (z6.stq = some q0 ∧ z6.bit Block.SYS SYS_STQ_CFG 8 = false ∧ q0.addr + 64 ≤ 16642998272 ∧ Memory.wf z6.mem = true ∧ (SMap.wf (fun x => 0) z6.emmc = true) ∧ (z6.stqReq q0.addr).ok = true ∧ ((z6.stqReq q0.addr).op = 2 ∨ (z6.stqReq q0.addr).op = 3 → (z6.userArea (z6.stqReq q0.addr).dev).fst ≤ (z6.stqReq q0.addr).range.fst ∧ (z6.stqReq q0.addr).range.fst + (z6.stqReq q0.addr).range.snd ≤ (z6.userArea (z6.stqReq q0.addr).dev).fst + (z6.userArea (z6.stqReq q0.addr).dev).snd) ∧ (if (z6.stqReq q0.addr).dev = 0 then z6.emmcOk = true else if (z6.stqReq q0.addr).dev = 1 then z6.norOk = true else z6.mramOk = true) ∧ (z6.stqReq q0.addr).op = 1 ∧ true = true) ∧
    (z7.stq = some q0 ∧ z7.bit Block.SYS SYS_STQ_CFG 8 = false ∧ q0.addr + 64 ≤ 16642998272 ∧ Memory.wf z7.mem = true ∧ (SMap.wf (fun x => 0) z7.emmc = true) ∧ (z7.stqReq q0.addr).ok = true ∧ ((z7.stqReq q0.addr).op = 2 ∨ (z7.stqReq q0.addr).op = 3 → (z7.userArea (z7.stqReq q0.addr).dev).fst ≤ (z7.stqReq q0.addr).range.fst ∧ (z7.stqReq q0.addr).range.fst + (z7.stqReq q0.addr).range.snd ≤ (z7.userArea (z7.stqReq q0.addr).dev).fst + (z7.userArea (z7.stqReq q0.addr).dev).snd) ∧ (if (z7.stqReq q0.addr).dev = 0 then z7.emmcOk = true else if (z7.stqReq q0.addr).dev = 1 then z7.norOk = true else z7.mramOk = true) ∧ (z7.stqReq q0.addr).op = 1 ∧ false = false ∧ ((z7.stqReq q0.addr).addr + (z7.stqReq q0.addr).count ≤ q0.addr ∨ q0.addr + 64 ≤ (z7.stqReq q0.addr).addr)) ∧
    (z8.stq = some q0 ∧ z8.bit Block.SYS SYS_STQ_CFG 8 = false ∧ q0.addr + 64 ≤ 16642998272 ∧ Memory.wf z8.mem = true ∧ (SMap.wf (fun x => 0) z8.emmc = true) ∧ (z8.stqReq q0.addr).ok = true ∧ ((z8.stqReq q0.addr).op = 2 ∨ (z8.stqReq q0.addr).op = 3 → (z8.userArea (z8.stqReq q0.addr).dev).fst ≤ (z8.stqReq q0.addr).range.fst ∧ (z8.stqReq q0.addr).range.fst + (z8.stqReq q0.addr).range.snd ≤ (z8.userArea (z8.stqReq q0.addr).dev).fst + (z8.userArea (z8.stqReq q0.addr).dev).snd) ∧ (if (z8.stqReq q0.addr).dev = 0 then z8.emmcOk = true else if (z8.stqReq q0.addr).dev = 1 then z8.norOk = true else z8.mramOk = true) ∧ (z8.stqReq q0.addr).op = 2 ∧ (z8.stqReq q0.addr).dev = 0) ∧
    (z9.stq = some q0 ∧ z9.bit Block.SYS SYS_STQ_CFG 8 = false ∧ q0.addr + 64 ≤ 16642998272 ∧ Memory.wf z9.mem = true ∧ (SMap.wf (fun x => 0) z9.emmc = true) ∧ (z9.stqReq q0.addr).ok = true ∧ ((z9.stqReq q0.addr).op = 2 ∨ (z9.stqReq q0.addr).op = 3 → (z9.userArea (z9.stqReq q0.addr).dev).fst ≤ (z9.stqReq q0.addr).range.fst ∧ (z9.stqReq q0.addr).range.fst + (z9.stqReq q0.addr).range.snd ≤ (z9.userArea (z9.stqReq q0.addr).dev).fst + (z9.userArea (z9.stqReq q0.addr).dev).snd) ∧ (if (z9.stqReq q0.addr).dev = 0 then z9.emmcOk = true else if (z9.stqReq q0.addr).dev = 1 then z9.norOk = true else z9.mramOk = true) ∧ (z9.stqReq q0.addr).op = 2 ∧ (z9.stqReq q0.addr).dev = 2) ∧
    (z10.stq = some q0 ∧ z10.bit Block.SYS SYS_STQ_CFG 8 = false ∧ q0.addr + 64 ≤ 16642998272 ∧ Memory.wf z10.mem = true ∧ (SMap.wf (fun x => 0) z10.emmc = true) ∧ (z10.stqReq q0.addr).ok = true ∧ ((z10.stqReq q0.addr).op = 2 ∨ (z10.stqReq q0.addr).op = 3 → (z10.userArea (z10.stqReq q0.addr).dev).fst ≤ (z10.stqReq q0.addr).range.fst ∧ (z10.stqReq q0.addr).range.fst + (z10.stqReq q0.addr).range.snd ≤ (z10.userArea (z10.stqReq q0.addr).dev).fst + (z10.userArea (z10.stqReq q0.addr).dev).snd) ∧ (if (z10.stqReq q0.addr).dev = 0 then z10.emmcOk = true else if (z10.stqReq q0.addr).dev = 1 then z10.norOk = true else z10.mramOk = true) ∧ (z10.stqReq q0.addr).op = 2 ∧ (z10.stqReq q0.addr).dev = 1) ∧
    (z11.stq = some q0 ∧ z11.bit Block.SYS SYS_STQ_CFG 8 = false ∧ q0.addr + 64 ≤ 16642998272 ∧ Memory.wf z11.mem = true ∧ (SMap.wf (fun x => 0) z11.emmc = true) ∧ (z11.stqReq q0.addr).ok = true ∧ ((z11.stqReq q0.addr).op = 2 ∨ (z11.stqReq q0.addr).op = 3 → (z11.userArea (z11.stqReq q0.addr).dev).fst ≤ (z11.stqReq q0.addr).range.fst ∧ (z11.stqReq q0.addr).range.fst + (z11.stqReq q0.addr).range.snd ≤ (z11.userArea (z11.stqReq q0.addr).dev).fst + (z11.userArea (z11.stqReq q0.addr).dev).snd) ∧ (if (z11.stqReq q0.addr).dev = 0 then z11.emmcOk = true else if (z11.stqReq q0.addr).dev = 1 then z11.norOk = true else z11.mramOk = true) ∧ (z11.stqReq q0.addr).op = 3) ∧
    (z12.stq = some q0 ∧ z12.bit Block.SYS SYS_STQ_CFG 8 = false ∧ q0.addr + 64 ≤ 16642998272 ∧ Memory.wf z12.mem = true ∧ (SMap.wf (fun x => 0) z12.emmc = true) ∧ (z12.stqReq q0.addr).ok = true ∧ ((z12.stqReq q0.addr).op = 2 ∨ (z12.stqReq q0.addr).op = 3 → (z12.userArea (z12.stqReq q0.addr).dev).fst ≤ (z12.stqReq q0.addr).range.fst ∧ (z12.stqReq q0.addr).range.fst + (z12.stqReq q0.addr).range.snd ≤ (z12.userArea (z12.stqReq q0.addr).dev).fst + (z12.userArea (z12.stqReq q0.addr).dev).snd) ∧ (if (z12.stqReq q0.addr).dev = 0 then z12.emmcOk = true else if (z12.stqReq q0.addr).dev = 1 then z12.norOk = true else z12.mramOk = true) ∧ (z12.stqReq q0.addr).op = 4) ∧
    (z13.stq = some q0 ∧ q0.atTail = true ∧ z13.bit Block.SYS SYS_STQ_CFG 8 = true ∧ z13.bit Block.PWR PWR_STATUS 15 = false ∧ q0.addr + 64 ≤ 16642998272 ∧ (z13.stqReq q0.addr).ok = false ∧ z13.f Block.SYS SYS_STQ_HEAD 15 0 = (z13.f Block.SYS SYS_STQ_TAIL 15 0 + 1) % 65536) ∧
    (z14.stq = some q0 ∧ q0.atTail = true ∧ z14.bit Block.SYS SYS_STQ_CFG 8 = true ∧ z14.bit Block.PWR PWR_STATUS 15 = false ∧ q0.addr + 64 ≤ 16642998272 ∧ (z14.stqReq q0.addr).ok = false ∧ z14.f Block.SYS SYS_STQ_HEAD 15 0 ≠ (z14.f Block.SYS SYS_STQ_TAIL 15 0 + 1) % 65536 ∧ z14.stqBase + (z14.f Block.SYS SYS_STQ_TAIL 15 0 + 1) % 65536 % z14.stqSize * 64 + 64 ≤ 16642998272) ∧
    (z15.bit Block.SYS SYS_ECC_CFG 0 = true ∧ 5 * 64 < 16642998272 ∧ z15.bit Block.PWR PWR_STATUS 15 = false ∧ (z15.mode ≠ 0 ∨ z15.bit Block.SYS SYS_MODE 7 = true) ∧ z15.latent.get 0 (5 * 64) + 0 = 0) ∧
    (z16.bit Block.SYS SYS_ECC_CFG 0 = true ∧ 5 * 64 < 16642998272 ∧ z16.bit Block.PWR PWR_STATUS 15 = false ∧ (z16.mode ≠ 0 ∨ z16.bit Block.SYS SYS_MODE 7 = true) ∧ z16.latent.get 0 (5 * 64) + 0 = 1) ∧
    ((z15.bit Block.SYS SYS_ECC_CFG 0 = false ∨ 16642998272 ≤ 16642998272 / 64 * 64 ∨ z15.bit Block.PWR PWR_STATUS 15 = true ∨ z15.mode = 0 ∧ z15.bit Block.SYS SYS_MODE 7 = false)) ∧
    (z16.bit Block.SYS SYS_ECC_CFG 0 = true ∧ 5 * 64 < 16642998272 ∧ z16.bit Block.PWR PWR_STATUS 15 = false ∧ (z16.mode ≠ 0 ∨ z16.bit Block.SYS SYS_MODE 7 = true) ∧ 2 ≤ z16.latent.get 0 (5 * 64) + 1) ∧
    (z1.stq = none) := by
  refine ⟨?_, ?_, ?_, ?_, ?_, ?_, ?_, ?_, ?_, ?_, ?_, ?_, ?_, ?_, ?_, ?_, ?_, ?_, ?_⟩ <;> decide +kernel

end Sys2Proof.Tests.StorageAndScrub

namespace Sys2Proof.Tests.SafetyPair

def prr (m : Nat) (l : R := []) : State := on m ((.SAF, SAF_STATUS, 0x73) :: l)
def wd (t : Nat) (l : R) : State := { prr 1 ((.SAF, SAF_WDG_CFG, 100*65536+50) :: l) with clk := { up := t } }
def pin (f : SysSt → SysSt) (s : State) : State := { s with sys := f s.sys }
def sv (b : Bool) (m : Nat) (l : R) : State := pin (fun x => { x with svcEn := b }) (prr m ((.SAF, SAF_STATUS, 0xF0) :: (.SAF, SAF_FAULT, 0x05010000) :: l))
def un (k : Option Nat) (t m : Nat) (l : R) : State := { on m l with saf := { key := k }, clk := { up := t } }
def sfr (k c src : Nat) (s : State) : State := { s with saf := { s.saf with run := SMap.empty.set 0 (c * 65536 + src) k } }
def z1 : State := prr 1
def z2 : State := prr 4
def z3 : State := wd 50000000 []
def z4 : State := on 1
def z5 : State := sv false 5 []
def z6 : State := sv true 5 []
def z7 : State := sv true 5 [(.SAF, 0x4, 0xC35A)]
def z8 : State := sv true 1 []
def z9 : State := on 1 [(.SAF, SAF_CHECK_CNT 15, 7)]
def z10 : State := un (some 10) 1000010 5 [(.TST, 0x18, 1)]
def z11 : State := un none 1000010 5 [(.TST, 0x18, 1)]
def z12 : State := on 5 [(.TST, TST_STATUS, 1), (.TST, 0x104, 7)]
def z13 : State := sfr 8 0x22 5 (prr 1)
def z14 : List (Int × Int) := List.replicate 12 (600, 50)
def z15 : List (Int × Int) := List.replicate 3 (600, 50)
def z16 : List (Int × Int) := List.replicate 3 (500, 50)
def z17 : State := let s := prr 1; { s with saf := { s.saf with selfAt := some 0 } }

theorem test_witness_safetyPair :
    (z1.dieOn = true) ∧
    (z1.pairRuns = true ∧ (22799 < 22800 ∨ 25200 < 22799)) ∧
    (z1.pairRuns = true ∧ 22800 ≤ 22800 ∧ 22800 ≤ 25200) ∧
    (z2.mode ∈ [2, 3, 4] ∧ z2.dieOn = true ∧ z2.sys.active = false ∧ z2.sys.storing = false) ∧
    (z3.bit Block.SAF SAF_STATUS 5 = true ∧ z3.winOpen * 1000000 ≤ z3.clk.up - z3.saf.kickAt ∧ z3.clk.up - z3.saf.kickAt ≤ z3.winClose * 1000000) ∧
    (z3.bit Block.SAF SAF_STATUS 5 = true ∧ z3.pwr.phase ∈ [Phase.run, Phase.ride, Phase.reserve] ∧ ((15450 ≠ if z3.bit Block.SAF SAF_WDG_STATUS 0 = true then 15450 else 42435) ∨ z3.clk.up - z3.saf.kickAt < z3.winOpen * 1000000 ∨ z3.winClose * 1000000 < z3.clk.up - z3.saf.kickAt)) ∧
    (z4.bit Block.SAF SAF_STATUS 5 = false) ∧
    (z3.bit Block.SAF SAF_STATUS 5 = true ∧ z3.pwr.phase ∈ [Phase.run, Phase.ride, Phase.reserve]) ∧
    (Idle z5 Block.SAF ∧ (z5.mode ≠ 5 ∨ z5.sys.svcEn = false)) ∧
    (Idle z6 Block.SAF ∧ z6.mode = 5 ∧ z6.sys.svcEn = true ∧ z6.rd Block.SAF 4 ≠ 50010) ∧
    (Idle z7 Block.SAF ∧ z7.mode = 5 ∧ z7.sys.svcEn = true ∧ z7.rd Block.SAF 4 = 50010) ∧
    (Idle z6 Block.SAF ∧ z6.mode = 5) ∧
    (Idle z8 Block.SAF ∧ z8.mode ≠ 5) ∧
    (Idle z9 Block.SAF) ∧
    (z10.saf.key = some 10 ∧ z10.clk.up ≤ 10 + 1000000 ∧ z10.mode = 5 ∧ z10.rd Block.TST 24 = 1) ∧
    ((z11.saf.key = none ∨ (∃ k, z11.saf.key = some k ∧ k + 1000000 < z11.clk.up) ∨ z11.mode ≠ 5 ∨ z11.rd Block.TST 24 ≠ 1)) ∧
    (z12.rd Block.TST TST_STATUS ≠ 0) ∧
    (1 ≠ 0 ∧ 1 ≠ 50010 ∧ 1 ≠ 15525) ∧
    (State.reset.dieOn = false) ∧
    (z13.pairRuns = true ∧ pairCheck 34 = true ∧ z13.pairAssigned 34 5 = true ∧ z13.pairRunOf 34 5 = 8 ∧ (∀ (p : Int × Int), p ∈ z14 → z13.pairHolds 34 5 p.fst p.snd = true) ∧ z14 ≠ [] ∧ 8 + z14.length = (pairTiming 34).snd) ∧
    (z13.pairRuns = true ∧ pairCheck 34 = true ∧ z13.pairAssigned 34 5 = true ∧ z13.pairRunOf 34 5 = 8 ∧ (∀ (p : Int × Int), p ∈ z15 → z13.pairHolds 34 5 p.fst p.snd = true) ∧ z15 ≠ [] ∧ 8 + z15.length < (pairTiming 34).snd) ∧
    (z13.pairRuns = true ∧ pairCheck 34 = true ∧ z13.pairAssigned 34 5 = true ∧ z13.pairRunOf 34 5 = 8 ∧ (∀ (p : Int × Int), p ∈ z16 → z13.pairHolds 34 5 p.fst p.snd = false) ∧ z16 ≠ []) ∧
    ((z1.pairRuns = false ∨ pairCheck 34 = false ∨ z1.pairAssigned 34 8 = false)) ∧
    (z17.pairRuns = true) ∧
    (z4.pairRuns = false) ∧
    (z4.rd Block.TST TST_STATUS = 0) := by
  refine ⟨?_, ?_, ?_, ?_, ?_, ?_, ?_, ?_, ?_, ?_, ?_, ?_, ?_, ?_, ?_, ?_, ?_, ?_, ?_, ?_, ?_, ?_, ?_, ?_, ?_, ?_⟩ <;> first | (unfold Idle; decide +kernel) | decide +kernel

end Sys2Proof.Tests.SafetyPair

namespace Sys2Proof.Tests.LoopSamples

def lp (n : Nat) (c : LpeI) (l : R := []) (m : Nat := 2) : State := (on m l).lpMod n fun _ => c
def B (w : Nat) (v : Nat) (n : Nat := 3): Block × Nat × Nat := (.LPE, LPE_BANKW n 0 w, v)
def act (k : Nat) : Word := wordN (k * 2^18)
def prog : R := [B 0 0xF001000A, B 1 0xF000003F]
def grp (g : Nat) : Word := wordN (2 * 2^18 + 0x1000 + g * 2^8)
def z1 : State := lp 3 {}
def z2 : State := lp 3 {} [B 56 777]
def z3 : State := lp 3 { cfg := act 2 } [(.LPE, LPE_LP_OUT 3, 55)]
def z4 : State := ((lp 3 { cfg := act 1, preload := false } ([B 48 0x10000007, (.LPE, LPE_PIN 7, 0x12345)] ++ prog)).lpeWrite (LPE_PIN 7) 0x12345)
def z5 : State := lp 3 { cfg := act 3, preload := false } ([B 57 0x5432] ++ prog)
def z6 : State := lp 3 { cfg := act 1, preload := false } ([B 50 0x98000000] ++ prog)
def z7 : State := lp 3 { cfg := act 1, preload := false } [B 0 0]
def z8 : State := lp 3 { cfg := grp 5, preload := false } [(.LPE, LPE_LP_OUT 3, 55)]

theorem test_witness_loopSamples :
    (z1.lpDue 3 500000 = true) ∧
    (z1.lpDue 3 500001 = false) ∧
    (Due z2 3 500000 ∧ z2.lpAction 3 z2.mode = 0) ∧
    (Due z3 3 0 ∧ z3.lpAction 3 z3.mode = 2) ∧
    (Due z4 3 1000000 ∧ GoesOn z4 3 ∧ z4.lpAction 3 z4.mode = 1 ∧ 7 < 128 ∧ z4.lpe.pin.get none 7 = some 0 ∧ z4.lpeSrc 3 0 = wordN (268435456 + 7) ∧ (∀ (k : Nat), 1 ≤ k → k < 6 → z4.lpeSrc 3 k = 0) ∧ z4.lpeW 3 0 = 4026597386 ∧ z4.lpeW 3 1 = 4026531903) ∧
    (Due z5 3 1000000 ∧ GoesOn z5 3 ∧ z5.lpAction 3 z5.mode = 3 ∧ (∀ (k : Nat), k < 6 → z5.lpeSrc 3 k = 0) ∧ z5.lpeW 3 0 = 4026597386 ∧ z5.lpeW 3 1 = 4026531903) ∧
    (Due z6 3 1000000 ∧ GoesOn z6 3 ∧ z6.lpAction 3 z6.mode = 1 ∧ 2 < 6 ∧ fld (z6.lpeSrc 3 2) 31 28 = 9 ∧ 2 ≤ fld (z6.lpeSrc 3 2) 27 26) ∧
    (Due z7 3 1000000 ∧ GoesOn z7 3 ∧ z7.lpAction 3 z7.mode = 1 ∧ (∀ (k : Nat), k < 6 → z7.lpeSrc 3 k = 0) ∧ z7.lpeW 3 0 = 0) ∧
    (z8.lpDue 3 1000000 = true ∧ (z8.lp 3).take = none ∧ z8.bit Block.LPE (LPE_LP_BANK 3) 2 = false ∧ z8.lpAction 3 z8.mode = 2 ∧ cfgGroup (z8.lp 3).cfg = some 5 ∧ z8.membersAt 5 1000000 = [3] ∧ (z8.mg 5).take = none ∧ fld (z8.mg 5).sink 31 28 = 0) := by
  refine ⟨?_, ?_, ?_, ?_, ?_, ?_, ?_, ?_, ?_⟩
  · decide +kernel
  · decide +kernel
  · unfold Due; decide +kernel
  · unfold Due; decide +kernel
  · and_intros <;> first | decide +kernel | (unfold Due; decide +kernel) | (unfold GoesOn; decide +kernel) | (intro k h1 h2; revert h1; revert h2; revert k; decide +kernel)
  · unfold Due GoesOn; decide +kernel
  · unfold Due GoesOn; decide +kernel
  · unfold Due GoesOn; decide +kernel
  · decide +kernel

end Sys2Proof.Tests.LoopSamples

namespace Sys2Proof.Tests.LoopCommands

def sw (l : R) : State := on 2 ((.LPE, 0x4, 3) :: l)
def B1 (w v : Nat) : Block × Nat × Nat := (.LPE, LPE_BANKW 3 1 w, v)
def lp (n : Nat) (c : LpeI) (l : R := []) (m : Nat := 2) : State := (on m l).lpMod n fun _ => c
def L0 : R := [B1 767 2053708791]
def L1 : R := [B1 0 0xF001000A, B1 1 0xF000003F, B1 767 2865413965]
def z1 : State := on 1 [(.LPE, 0x18, 1)]
def z2 : State := on 1 [(.LPE, 0x18, 0)]
def z3 : State := on 1 [(.LPE, 0x4, 128), (.LPE, 0x8, 1)]
def z4 : State := on 1 [(.LPE, 0x4, 7), (.LPE, 0x8, 1), (.LPE, LPE_LP_CFG 7, 0x40000)]
def z5 : State := sw []
def z6 : State := mail .LPE 2 [3] (on 2 [(.LPE, 0x4, 3), (.LPE, LPE_LP_BANK 3, 4)])
def z7 : State := on 2
def z8 : State := on 2 [(.LPE, 0x4, 33), (.LPE, LPE_FAULT 1, 3), (.LPE, LPE_LP_STATUS 33, 0x504)]
def z9 : State := on 2 [(.LPE, 0x4, 33), (.LPE, LPE_FAULT 1, 1), (.LPE, LPE_LP_STATUS 33, 0x504)]
def z10 : State := lp 33 { preload := false } [(.LPE, 0x4, 33)]
def z11 : State := on 2 [(.LPE, 0x4, 5), (.LPE, LPE_LP_COUNTS 3, 5), (.LPE, LPE_LP_FLAGS 3, 5),(.LPE, LPE_MG_WINCHG 3, 5), (.LPE, 0x20, 0x100)]
def z12 : State := sw L0
def z13 : State := sw L1
def z14 : State := sw (L1 ++ [(.LPE, LPE_LP_BANK 3, 4)])

/-- The CRC-32C running over words. -/
def crcW (c : Nat) (ws : List Word) : Nat := crcRefl 0x82F63B78 (ws.flatMap (fun w => leBytes 4 w.toNat)) c
theorem crcRefl_append (p : Nat) : ∀ (a b : List Byte) (c : Nat), crcRefl p (a ++ b) c = crcRefl p b (crcRefl p a c)
  | [], _, _ => rfl
  | _ :: t, b, _ => crcRefl_append p t b _
theorem crcW_flatten : ∀ (l : List (List Word)) (c : Nat), crcW c l.flatten = l.foldl crcW c
  | [], _ => rfl
  | a :: t, c => by
    rw [List.foldl_cons, ← crcW_flatten t, crcW, crcW, crcW, List.flatten_cons, List.flatMap_append, crcRefl_append]
/-- Whether each list of words takes the CRC to its next value. -/
def crcRuns : List (List Word) → List Nat → Bool
  | [], [_] => true
  | a :: t, c :: d :: vs => crcW c a == d && crcRuns t (d :: vs)
  | _, _ => false
theorem foldl_of_crcRuns : ∀ (l : List (List Word)) (c : Nat) (vs : List Nat), crcRuns l (c :: vs) = true →
    l.foldl crcW c = (c :: vs).getLastD 0
  | [], _, [], _ => rfl
  | [], _, _ :: _, h => by cases h
  | a :: t, c, d :: vs, h => by
    simp only [crcRuns, Bool.and_eq_true, beq_iff_eq] at h
    rw [List.foldl_cons, h.1, foldl_of_crcRuns t d vs h.2]
    rfl
  | _ :: _, _, [], h => by cases h
/-- The 767 words of a bank whose words from 2 on are 0, 32 at a time. -/
def bankOf (a b : Word) : List (List Word) :=
  ([a, b] ++ List.replicate 30 0) :: (List.replicate 22 (List.replicate 32 0) ++ [List.replicate 31 0])
theorem crcWords_bank (a b : Word) (c : Nat) (ws : List Word) (vs : List Nat) (h : ws = (bankOf a b).flatten)
    (hr : crcRuns (bankOf a b) (0xFFFFFFFF :: vs) = true) (hc : ((0xFFFFFFFF :: vs).getLastD 0) ^^^ 0xFFFFFFFF = c) :
    crcWords ws = c := by
  subst h
  have := crcW_flatten (bankOf a b) 0xFFFFFFFF
  rw [foldl_of_crcRuns _ _ _ hr] at this
  rw [← hc, ← this]
  rfl
theorem crc_zeros : crcRuns (bankOf 0 0) [4294967295, 4158167844, 1200442991, 1158271177, 3473084991, 534250289, 3318006521,
    225952960, 290529667, 2823063697, 1921003501, 1799837726, 175100626, 4225181274, 1540069788, 1357258748, 1534491824, 582457874,
    332020171, 3827288015, 1307576961, 663433124, 609686098, 3628614574, 2053708791 ^^^ 0xFFFFFFFF] = true := by decide +kernel
theorem crc_program : crcRuns (bankOf 0xF001000A 0xF000003F) [4294967295, 1923174700, 1064911260, 2118117617, 4049031587,
    1956210500, 3806944908, 3927324122, 1973743195, 876698204, 1818168636, 1171868534, 3098310869, 30808535, 4235598972, 1252270252,
    3228194862, 2434732596, 3517874477, 2044535745, 4017308164, 2566266531, 4210696303, 3887541353,
    2865413965 ^^^ 0xFFFFFFFF] = true := by decide +kernel
theorem test_witness_loopCommands :
    (z1.open Block.LPE = true) ∧
    (z2.open Block.LPE = false) ∧
    (Idle z3 Block.LPE ∧ (127 < BitVec.toNat (z3.rd Block.LPE 4) ∨ BitVec.toNat (z3.rd Block.LPE 8) = 0 ∨ 128 < BitVec.toNat (z3.rd Block.LPE 4) + BitVec.toNat (z3.rd Block.LPE 8))) ∧
    (Idle z4 Block.LPE ∧ z4.rd Block.LPE 4 = wordN 7 ∧ z4.rd Block.LPE 8 = 1 ∧ z4.rd Block.LPE 12 = 0) ∧
    (Idle z5 Block.LPE ∧ (¬crcWords (List.map (fun w => z5.lpeBankW (z5.f Block.LPE 4 6 0) (1 - z5.lpeActive (z5.f Block.LPE 4 6 0)) w) (upto 767)) = BitVec.toNat (z5.lpeBankW (z5.f Block.LPE 4 6 0) (1 - z5.lpeActive (z5.f Block.LPE 4 6 0)) 767))) ∧
    ((z6.mailOf Block.LPE).code = 2 ∧ fld (arg (z6.mailOf Block.LPE).args 0) 6 0 = z6.f Block.LPE 4 6 0) ∧
    (Idle z7 Block.LPE) ∧
    (Idle z8 Block.LPE ∧ z8.bit Block.LPE (LPE_FAULT (z8.f Block.LPE 4 6 0 / 32)) (z8.f Block.LPE 4 6 0 % 32) = true) ∧
    (Idle z9 Block.LPE ∧ z9.bit Block.LPE (LPE_FAULT (z9.f Block.LPE 4 6 0 / 32)) (z9.f Block.LPE 4 6 0 % 32) = false) ∧
    (Idle z10 Block.LPE) ∧
    (Idle z11 Block.LPE) ∧
    (Idle z12 Block.LPE ∧ (crcWords (List.map (fun w => z12.lpeBankW (z12.f Block.LPE 4 6 0) (1 - z12.lpeActive (z12.f Block.LPE 4 6 0)) w) (upto 767)) = BitVec.toNat (z12.lpeBankW (z12.f Block.LPE 4 6 0) (1 - z12.lpeActive (z12.f Block.LPE 4 6 0)) 767)) ∧ (checkL (List.take 48 (List.map (fun w => z12.lpeBankW (z12.f Block.LPE 4 6 0) (1 - z12.lpeActive (z12.f Block.LPE 4 6 0)) w) (upto 767))) = false)) ∧
    (Idle z13 Block.LPE ∧ (crcWords (List.map (fun w => z13.lpeBankW (z13.f Block.LPE 4 6 0) (1 - z13.lpeActive (z13.f Block.LPE 4 6 0)) w) (upto 767)) = BitVec.toNat (z13.lpeBankW (z13.f Block.LPE 4 6 0) (1 - z13.lpeActive (z13.f Block.LPE 4 6 0)) 767)) ∧ (checkL (List.take 48 (List.map (fun w => z13.lpeBankW (z13.f Block.LPE 4 6 0) (1 - z13.lpeActive (z13.f Block.LPE 4 6 0)) w) (upto 767))) = true) ∧ z13.bit Block.LPE (LPE_LP_BANK (z13.f Block.LPE 4 6 0)) 2 = false ∧ (z13.confResult (List.map (fun m => z13.lpConf false m) (upto 128)) (List.map (fun g => z13.mgConf false g) (upto 16)) (some (z13.f Block.LPE 4 6 0)) = Result.ok)) ∧
    (Idle z14 Block.LPE ∧ (crcWords (List.map (fun w => z14.lpeBankW (z14.f Block.LPE 4 6 0) (1 - z14.lpeActive (z14.f Block.LPE 4 6 0)) w) (upto 767)) = BitVec.toNat (z14.lpeBankW (z14.f Block.LPE 4 6 0) (1 - z14.lpeActive (z14.f Block.LPE 4 6 0)) 767)) ∧ (checkL (List.take 48 (List.map (fun w => z14.lpeBankW (z14.f Block.LPE 4 6 0) (1 - z14.lpeActive (z14.f Block.LPE 4 6 0)) w) (upto 767))) = true) ∧ z14.bit Block.LPE (LPE_LP_BANK (z14.f Block.LPE 4 6 0)) 2 = true) := by
  refine ⟨?_, ?_, ?_, ?_, ?_, ?_, ?_, ?_, ?_, ?_, ?_, ?_, ?_, ?_⟩
  · decide +kernel
  · decide +kernel
  · unfold Idle; decide +kernel
  · unfold Idle; decide +kernel
  · have h : crcWords ((upto 767).map (fun w => z5.lpeBankW (z5.f .LPE 4 6 0) (1 - z5.lpeActive (z5.f .LPE 4 6 0)) w)) = 2053708791 :=
      crcWords_bank 0 0 _ _ _ (by decide +kernel) crc_zeros rfl
    exact ⟨by unfold Idle; decide +kernel, by rw [h]; decide +kernel⟩
  · decide +kernel
  · unfold Idle; decide +kernel
  · unfold Idle; decide +kernel
  · unfold Idle; decide +kernel
  · unfold Idle; decide +kernel
  · unfold Idle; decide +kernel
  · have h : crcWords ((upto 767).map (fun w => z12.lpeBankW (z12.f .LPE 4 6 0) (1 - z12.lpeActive (z12.f .LPE 4 6 0)) w)) = 2053708791 :=
      crcWords_bank 0 0 _ _ _ (by decide +kernel) crc_zeros rfl
    exact ⟨by unfold Idle; decide +kernel, by rw [h]; decide +kernel, by decide +kernel⟩
  · have h : crcWords ((upto 767).map (fun w => z13.lpeBankW (z13.f .LPE 4 6 0) (1 - z13.lpeActive (z13.f .LPE 4 6 0)) w)) = 2865413965 :=
      crcWords_bank 0xF001000A 0xF000003F _ _ _ (by decide +kernel) crc_program rfl
    exact ⟨by unfold Idle; decide +kernel, by rw [h]; decide +kernel, by decide +kernel, by decide +kernel, by decide +kernel⟩
  · have h : crcWords ((upto 767).map (fun w => z14.lpeBankW (z14.f .LPE 4 6 0) (1 - z14.lpeActive (z14.f .LPE 4 6 0)) w)) = 2865413965 :=
      crcWords_bank 0xF001000A 0xF000003F _ _ _ (by decide +kernel) crc_program rfl
    exact ⟨by unfold Idle; decide +kernel, by rw [h]; decide +kernel, by decide +kernel, by decide +kernel⟩

end Sys2Proof.Tests.LoopCommands

namespace Sys2Proof.Tests.ValveWaveforms

def V (r : Nat → Nat) (v : Nat) (n : Nat := 5) : Block × Nat × Nat := (.VLV, r n, v)
def lim : R := [(.VLV, VLV_BATV_LIMIT, 0xFFFF), (.VLV, VLV_HSF_CFG 1, 0xFFFF), (.VLV, VLV_HSF_CFG 6, 0xFFFF), (.VLV, VLV_CLAIMED, 0xFFFFFFFF)]
def vl (c : VlvCh) (l : R := []) (n : Nat := 5) (m : Nat := 2): State := (on m (lim ++ [(.VLV, VLV_CH_LIMIT n, 6000)] ++ l)).vchMod n fun _ => c
def run (pc : Nat := 0) (x : Nat := 0) (n : Nat := 5): Block × Nat × Nat := (.VLV, VLV_CH_STATUS n, 0x800000 + pc * 256 + x)
def h0' : VHold := ⟨0, 50, false⟩
def h3 : VHold := ⟨3, 0, false⟩
def nam : State := (vl {}).lpMod 3 fun _ => { sink := 0x10000005 }
def z1 : State := vl {} [V VLV_CH_CFG 0xA8000000]
def z2 : State := vl {} [(.VLV, VLV_CLAIMED, 0)]
def z3 : State := vl {} [V VLV_CH_HOLD_T 500, (.VLV, VLV_BANKW 5 0 7, 0xF4F00000)]
def z4 : State := vl { hold := some h0' } [run]
def z5 : State := vl { hold := some h0' } [run, V VLV_CH_CFG 0x20000, V VLV_CH_CURRENT 500]
def z6 : State := vl {}
def z7 : State := vl { hold := some h3, follow := true } [run]
def z8 : State := vl {} [V VLV_CH_CFG 0x1000000, (.VLV, VLV_CLAIMED, 0)]
def z9 : State := vl { hold := some h3 } [run]
def z10 : State := vl { hold := some h0' } [run 6, (.VLV, VLV_BANKW 5 0 7, 0xF4F00000)]
def z11 : State := vl { hold := some h0', cmd := some .stop } [run 6]
def z12 : State := vl { hold := some h0' } [run 63]

theorem test_witness_valveWaveforms :
    (mfPermitted z1.mode (z1.f Block.VLV (VLV_CH_CFG 5) 31 27) = false) ∧
    (mfPermitted z2.mode (z2.f Block.VLV (VLV_CH_CFG 5) 31 27) = true ∧ (z2.bit Block.VLV VLV_CLAIMED 5 = false ∨ z2.vlvBit 5 16 = true)) ∧
    (63 < 64) ∧
    (z3.vlvJudge 5 (some 7) = Result.ok ∧ z3.vlvRuns 5 = false ∧ Calm z3 ∧ z3.vlvSuspended = false ∧ z3.bit Block.VLV (VLV_CH_BANK 5) 2 = false ∧ z3.vlvWord 5 (z3.vlvActive 5) 7 = 4109369344) ∧
    (z4.vlvJudge 5 (some 7) = Result.ok ∧ z4.vlvRuns 5 = true ∧ z4.bit Block.VLV (VLV_CH_CFG 5) 17 = false ∧ (z4.vch 5).hold ≠ some { kind := 3, v := 0, falling := false }) ∧
    (z5.vlvJudge 5 none = Result.ok ∧ z5.vlvRuns 5 = true ∧ Calm z5 ∧ (z5.bit Block.VLV (VLV_CH_CFG 5) 17 = true ∨ (z5.vch 5).hold = some { kind := 3, v := 0, falling := false })) ∧
    (z6.vlvJudge 5 none = Result.ok ∧ z6.vlvRuns 5 = false ∧ Calm z6) ∧
    (nam.lpeNames 5 = true) ∧
    (z6.lpeNames 5 = false ∧ z6.vlvRuns 5 = false ∧ z6.bit Block.VLV (VLV_CH_CFG 5) 24 = false) ∧
    (z7.lpeNames 5 = false ∧ z7.vlvRuns 5 = true ∧ (z7.vch 5).follow = true ∧ Calm z7 ∧ (z7.vch 5).wait = false ∧ z7.vlvBit 5 20 = false ∧ z7.vlvBit 5 21 = false ∧ (loadOf (min (min 16000 (fld 16383 13 0)) (z7.vlvMax 5)) (z7.vch 5).amp ≤ z7.vlvLoad 5 ∨ z7.vlvFits 5 (loadOf (min (min 16000 (fld 16383 13 0)) (z7.vlvMax 5)) (z7.vch 5).amp) = true ∧ z7.isoOther 5 = false ∧ z7.vlvSuspended = false)) ∧
    (z8.lpeNames 5 = false ∧ z8.vlvRuns 5 = false ∧ z8.bit Block.VLV (VLV_CH_CFG 5) 24 = true ∧ z8.f Block.VLV (VLV_CH_CMD_IN 5) 13 0 = 0 ∧ fld 9 13 0 ≠ 0 ∧ z8.vlvJudge 5 (some (z8.f Block.VLV (VLV_CH_CFG 5) 23 18)) ≠ Result.ok) ∧
    ((z6.vch 5).hold = none) ∧
    ((z9.vch 5).hold = some h3 ∧ ¬(z9.vlvSuspended = false ∧ if false = true then h3.kind ≠ 0 ∧ h3.kind ≠ 3 ∧ (z9.vch 5).g.getD 0 0 ≠ 0 else h3.kind = 0 ∨ (h3.kind = 1 ∧ if h3.falling = true then 5000 ≤ 500 * h3.v else 500 * h3.v ≤ 5000) ∨ h3.kind = 2 ∧ z9.f Block.VLV (VLV_CH_HOLD_T 5) 28 24 < 24 ∧ h3.v ≤ (z9.vch 5).edges)) ∧
    ((z10.vch 5).hold = some h0' ∧ (z10.vlvSuspended = false ∧ if false = true then h0'.kind ≠ 0 ∧ h0'.kind ≠ 3 ∧ (z10.vch 5).g.getD 0 0 ≠ 0 else h0'.kind = 0 ∨ (h0'.kind = 1 ∧ if h0'.falling = true then 5000 ≤ 500 * h0'.v else 500 * h0'.v ≤ 5000) ∨ h0'.kind = 2 ∧ z10.f Block.VLV (VLV_CH_HOLD_T 5) 28 24 < 24 ∧ h0'.v ≤ (z10.vch 5).edges) ∧ (z10.vch 5).cmd = none ∧ Calm z10 ∧ z10.vlvRuns 5 = true ∧ (z10.vch 5).wait = false ∧ z10.vlvPc 5 < 63 ∧ z10.vlvWord 5 (z10.vlvActive 5) (z10.vlvPc 5 + 1) = 4109369344) ∧
    ((z11.vch 5).hold = some h0' ∧ (z11.vlvSuspended = false ∧ if false = true then h0'.kind ≠ 0 ∧ h0'.kind ≠ 3 ∧ (z11.vch 5).g.getD 0 0 ≠ 0 else h0'.kind = 0 ∨ (h0'.kind = 1 ∧ if h0'.falling = true then 0 ≤ 500 * h0'.v else 500 * h0'.v ≤ 0) ∨ h0'.kind = 2 ∧ z11.f Block.VLV (VLV_CH_HOLD_T 5) 28 24 < 24 ∧ h0'.v ≤ (z11.vch 5).edges) ∧ (z11.vch 5).cmd = some VCmd.stop ∧ Calm z11 ∧ z11.vlvRuns 5 = true) ∧
    ((z12.vch 5).hold = some h0' ∧ (z12.vlvSuspended = false ∧ if false = true then h0'.kind ≠ 0 ∧ h0'.kind ≠ 3 ∧ (z12.vch 5).g.getD 0 0 ≠ 0 else h0'.kind = 0 ∨ (h0'.kind = 1 ∧ if h0'.falling = true then 0 ≤ 500 * h0'.v else 500 * h0'.v ≤ 0) ∨ h0'.kind = 2 ∧ z12.f Block.VLV (VLV_CH_HOLD_T 5) 28 24 < 24 ∧ h0'.v ≤ (z12.vch 5).edges) ∧ (z12.vch 5).cmd = none ∧ Calm z12 ∧ z12.vlvPc 5 = 63 ∧ z12.f Block.VLV (VLV_CH_FAIL 5) 31 30 ≠ 3) := by
  refine ⟨?_, ?_, ?_, ?_, ?_, ?_, ?_, ?_, ?_, ?_, ?_, ?_, ?_, ?_, ?_, ?_⟩ <;> first | (unfold Calm; decide +kernel) | decide +kernel

end Sys2Proof.Tests.ValveWaveforms

namespace Sys2Proof.Tests.ValveLimits

def lim : R := [(.VLV, VLV_BATV_LIMIT, 0xFFFF), (.VLV, VLV_HSF_CFG 1, 0xFFFF), (.VLV, VLV_HSF_CFG 6, 0xFFFF), (.VLV, VLV_CLAIMED, 0xFFFFFFFF)]
def vl (c : VlvCh) (l : R := []) (n : Nat := 5) (m : Nat := 2): State := (on m (lim ++ [(.VLV, VLV_CH_LIMIT n, 6000)] ++ l)).vchMod n fun _ => c
def que (q : List VReq) (s : State) (g : Nat := 1): State := s.setQueue g q
def V (r : Nat → Nat) (v : Nat) (n : Nat := 5) : Block × Nat × Nat := (.VLV, r n, v)
def run (pc : Nat := 0) (x : Nat := 0) (n : Nat := 5): Block × Nat × Nat := (.VLV, VLV_CH_STATUS n, 0x800000 + pc * 256 + x)
def h3 : VHold := ⟨3, 0, false⟩
def z1 : State := vl {}
def z2 : State := que [{ ch := 5 }] (vl { req := 300 })
def z3 : State := que [{ ch := 5, dith := some (1,2,3) }] (vl {} [V VLV_CH_STATUS 0x400000])
def z4 : Option (Nat × Nat × Nat) := some (1,2,3)
def z5 : State := vl {} [V VLV_CH_CURRENT 600]
def z6 : State := vl { req := 9000 } [V VLV_CH_CURRENT 9000 24, V VLV_CH_LIMIT 12000 24] 24
def z7 : State := vl { flowing := true, decay := some 2 }
def z8 : State := vl { bins := [3,4], req := 600 } [V VLV_CH_DUTY_LIMIT 100, V VLV_CH_DUTY_FB 400, V VLV_CH_CURRENT 600]
def z9 : State := vl { bins := [100,4], req := 600 } [V VLV_CH_DUTY_LIMIT 100, V VLV_CH_DUTY_FB 400, V VLV_CH_CURRENT 400, V VLV_CH_STATUS 0x200000]
def z10 : State := vl {hold := some h3} [(.VLV, VLV_HELD, 0xFF), run, V VLV_CH_CURRENT 300]
def z11 : State := vl {} [(.PWR, PWR_STATUS, 0x20)]
def z12 : State := vl {} [V VLV_CH_CURRENT 300]
def z13 : State := vl {hold := some h3} [(.VLV, VLV_HELD, 0xFF), run, V VLV_CH_CURRENT 300, V VLV_CH_FAIL 0xC1000000]

theorem test_witness_valveLimits :
    (Calm z1) ∧
    (z2.vlv.fell = false ∧ (∀ (m : Nat), m < 32 → z2.vlvReady m = false) ∧ hsfOf 5 = 1 ∧ z2.queueOf 1 = [{ ch := 5 }] ∧ (∀ (h : Nat), h < 8 → h ≠ 1 → z2.queueOf h = []) ∧ (z2.vch 5).wait = false ∧ z2.isoOther 5 = false ∧ z2.vlvSuspended = false ∧ z2.vlvFits 5 (loadOf (z2.vlvEff 5 (z2.vch 5).req) (z2.vch 5).amp) = true) ∧
    (z3.vlvSuspended = false ∧ z3.vlv.fell = false ∧ (∀ (m : Nat), m < 32 → z3.vlvReady m = false) ∧ z3.queueOf (hsfOf 5) = [{ ch := 5, dith := z4 }] ∧ (∀ (h : Nat), h < 8 → h ≠ hsfOf 5 → z3.queueOf h = []) ∧ (z3.vch 5).wait = false) ∧
    ((5 < 24 ∨ z5.applied 5 ≤ 6000)) ∧
    (24 ≤ 24 ∧ 6000 < z6.applied 24 ∧ 6000 < (z6.vch 24).req ∧ Calm z6 ∧ (z6.vch 24).wait = false) ∧
    ((z1.vch 5).flowing = false ∧ z1.applied 5 = 0) ∧
    ((z7.vch 5).flowing = true ∧ z7.applied 5 = 0 ∧ Calm z7 ∧ (z7.vch 5).decay = some 2) ∧
    (Calm z1 ∧ z1.vlvBit 5 21 = false ∧ (z1.vch 5).wait = false ∧ (z1.rdN Block.VLV (VLV_CH_DUTY_LIMIT 5) = 0 ∨ (((z1.vch 5).bins.headD 0 + 100) :: (z1.vch 5).bins.tail).sum < z1.rdN Block.VLV (VLV_CH_DUTY_LIMIT 5))) ∧
    (Calm z8 ∧ z8.vlvBit 5 21 = false ∧ (z8.vch 5).wait = false ∧ z8.rdN Block.VLV (VLV_CH_DUTY_LIMIT 5) ≠ 0 ∧ z8.rdN Block.VLV (VLV_CH_DUTY_LIMIT 5) ≤ (((z8.vch 5).bins.headD 0 + 93) :: (z8.vch 5).bins.tail).sum ∧ z8.applied 5 = z8.vlvEff 5 (z8.vch 5).req) ∧
    (Calm z9 ∧ (z9.vch 5).wait = false ∧ z9.vlvBit 5 21 = true ∧ z9.vlvBit 5 20 = false ∧ (List.take 64 (List.replicate (min 64 64) 0 ++ (z9.vch 5).bins)).sum * 100 ≤ z9.rdN Block.VLV (VLV_CH_DUTY_LIMIT 5) * clampN 50 99 (z9.f Block.VLV (VLV_CH_DUTY_FB 5) 31 24) ∧ (loadOf (min (z9.vch 5).req (z9.vlvMax 5)) (z9.vch 5).amp ≤ z9.vlvLoad 5 ∨ z9.vlvFits 5 (loadOf (min (z9.vch 5).req (z9.vlvMax 5)) (z9.vch 5).amp) = true ∧ z9.isoOther 5 = false ∧ z9.vlvSuspended = false)) ∧
    (z1.bit Block.VLV VLV_HELD 5 = false) ∧
    (z10.bit Block.VLV VLV_HELD 5 = true ∧ Calm z10 ∧ (z10.f Block.VLV (VLV_CH_FAIL 5) 31 30 ≠ 3 ∨ 5 = 0 ∨ 24 ≤ 5)) ∧
    (z11.vlvSuspended = true) ∧
    (z12.applied 5 ≠ 0) ∧
    (z13.bit Block.VLV VLV_HELD 5 = true ∧ Calm z13 ∧ z13.f Block.VLV (VLV_CH_FAIL 5) 31 30 = 3 ∧ 1 ≤ 5 ∧ 5 ≤ 23 ∧ z13.vlvBit 5 20 = false ∧ z13.vlvBit 5 21 = false ∧ (2 * min (z13.f Block.VLV (VLV_CH_FAIL 5) 29 16) (z13.vlvMax 5) ≤ z13.vlvLoad 5 ∨ z13.vlvFits 5 (2 * min (z13.f Block.VLV (VLV_CH_FAIL 5) 29 16) (z13.vlvMax 5)) = true ∧ z13.isoOther 5 = false ∧ z13.vlvSuspended = false)) := by
  refine ⟨?_, ?_, ?_, ?_, ?_, ?_, ?_, ?_, ?_, ?_, ?_, ?_, ?_, ?_, ?_⟩ <;> first | (unfold Calm; decide +kernel) | decide +kernel

end Sys2Proof.Tests.ValveLimits

namespace Sys2Proof.Tests.ValveCommands

def lim : R := [(.VLV, VLV_BATV_LIMIT, 0xFFFF), (.VLV, VLV_HSF_CFG 1, 0xFFFF), (.VLV, VLV_HSF_CFG 6, 0xFFFF), (.VLV, VLV_CLAIMED, 0xFFFFFFFF)]
def vl (c : VlvCh) (l : R := []) (n : Nat := 5) (m : Nat := 2): State := (on m (lim ++ [(.VLV, VLV_CH_LIMIT n, 6000)] ++ l)).vchMod n fun _ => c
def vs (l : R) (c : VlvCh := {}) : State := vl c ((.VLV, 0x4, 5) :: l)
def V (r : Nat → Nat) (v : Nat) (n : Nat := 5) : Block × Nat × Nat := (.VLV, r n, v)
def endw : Block × Nat × Nat := (.VLV, VLV_BANKW 5 1 0, 0xF7C00000)
def run (pc : Nat := 0) (x : Nat := 0) (n : Nat := 5): Block × Nat × Nat := (.VLV, VLV_CH_STATUS n, 0x800000 + pc * 256 + x)
def z1 : State := { vl {} with sys := { (vl {}).sys with noDrawer := true } }
def z2 : State := vl {} [(.VLV, VLV_CLAIMED, 2), (.VLV, VLV_HELD, 7), (.VLV, 0x4, 6)]
def z3 : State := vl {} [(.VLV, 0x4, 5), (.VLV, VLV_BANKW 5 1 64, 1)]
def z4 : State := vs [endw, V VLV_CH_BANK 4]
def z5 : State := vs [endw]
def z6 : State := vs [endw, run]
def z7 : State := vs [V VLV_CH_BANK 4]
def z8 : State := vs [(.VLV, 0x4, 0x20), V VLV_CH_STATUS 0x10000] { shortSup := true }
def z9 : State := vl {} [] 5 6
def z10 : State := vl { shortSup := true } [(.VLV, 0x4, 1), V VLV_CH_STATUS 0x10000, V VLV_CH_STATUS 0x10000 6, (.VLV, VLV_HSF_STATUS 1, 0x8000), (.VLV, 0x20, 0x20000)]
def z11 : State := vl {} [(.VLV, 0x4, 0x20), V VLV_CH_COUNTS 55, V VLV_CH_COUNTS 55 6]

theorem test_witness_valveCommands :
    (Idle z1 Block.VLV ∧ z1.sys.noDrawer = true) ∧
    (Idle z2 Block.VLV ∧ z2.sys.noDrawer = false) ∧
    (Idle z3 Block.VLV ∧ checkP (z3.vlvBank (z3.f Block.VLV 4 4 0) (1 - z3.vlvActive (z3.f Block.VLV 4 4 0))) = false) ∧
    (Idle z4 Block.VLV ∧ checkP (z4.vlvBank (z4.f Block.VLV 4 4 0) (1 - z4.vlvActive (z4.f Block.VLV 4 4 0))) = true ∧ z4.bit Block.VLV (VLV_CH_BANK (z4.f Block.VLV 4 4 0)) 2 = true) ∧
    (Idle z5 Block.VLV ∧ checkP (z5.vlvBank (z5.f Block.VLV 4 4 0) (1 - z5.vlvActive (z5.f Block.VLV 4 4 0))) = true ∧ z5.bit Block.VLV (VLV_CH_BANK (z5.f Block.VLV 4 4 0)) 2 = false ∧ z5.vlvRuns (z5.f Block.VLV 4 4 0) = false) ∧
    (Idle z6 Block.VLV ∧ checkP (z6.vlvBank (z6.f Block.VLV 4 4 0) (1 - z6.vlvActive (z6.f Block.VLV 4 4 0))) = true ∧ z6.bit Block.VLV (VLV_CH_BANK (z6.f Block.VLV 4 4 0)) 2 = false ∧ z6.vlvRuns (z6.f Block.VLV 4 4 0) = true) ∧
    (Idle z7 Block.VLV) ∧
    (Idle z8 Block.VLV) ∧
    (Idle z9 Block.VLV ∧ (z9.mode = 0 ∨ z9.mode = 6)) ∧
    (Idle z10 Block.VLV ∧ z10.mode ≠ 0 ∧ z10.mode ≠ 6 ∧ Calm z10) ∧
    (Idle z11 Block.VLV) := by
  refine ⟨?_, ?_, ?_, ?_, ?_, ?_, ?_, ?_, ?_, ?_, ?_⟩ <;> first | (unfold Idle Calm; decide +kernel) | (unfold Idle; decide +kernel)

end Sys2Proof.Tests.ValveCommands

namespace Sys2Proof.Tests.ValveDiagnosticsAndLedger

def Q : Block × Nat × Nat := (.VLV, 0x38, 3)
def lim : R := [(.VLV, VLV_BATV_LIMIT, 0xFFFF), (.VLV, VLV_HSF_CFG 1, 0xFFFF), (.VLV, VLV_HSF_CFG 6, 0xFFFF), (.VLV, VLV_CLAIMED, 0xFFFFFFFF)]
def vl (c : VlvCh) (l : R := []) (n : Nat := 5) (m : Nat := 2): State := (on m (lim ++ [(.VLV, VLV_CH_LIMIT n, 6000)] ++ l)).vchMod n fun _ => c
def V (r : Nat → Nat) (v : Nat) (n : Nat := 5) : Block × Nat × Nat := (.VLV, r n, v)
def D (n := 5) : Block × Nat × Nat := V VLV_CH_DIAG_CFG 7 n
def run (pc : Nat := 0) (x : Nat := 0) (n : Nat := 5): Block × Nat × Nat := (.VLV, VLV_CH_STATUS n, 0x800000 + pc * 256 + x)
def fr (x : Nat) : BitVec 144 := BitVec.ofNat 144 (x + 2^128 * crc16 (leBytes 16 x))
def led (s : State) : State := { s with vlv := { s.vlv with ledger := s.vlv.ledger.set none 9 (some {serial := 77}), sealed := s.vlv.sealed.set none 9 (some {serial := 78}) } }
def h3 : VHold := ⟨3, 0, false⟩
def z1 : State := vl {}
def z2 : State := vl {} [D, V VLV_CH_CURRENT 1000]
def z3 : State := vl {} [Q,D]
def z4 : State := vl {} [Q,D, V VLV_CH_CURRENT 5 6]
def z5 : State := vl {} [V VLV_CH_COLD_RES 500]
def z6 : State := vl {} [(.VLV, 4, 5)]
def z7 : State := vl {} [(.VLV, 4, 5), run]
def z8 : State := mail .VLV 6 [5] (vl {})
def z9 : State := vl {} [run]
def z10 : State := led (vl {} [(.VLV, 4, 8)])
def z11 : State := led (vl {} [(.VLV, 4, 9)])
def z12 : State := led (vl {} [(.VLV, 4, 9), (.VLV, 8, 0xC35A)] 5 5)
def z13 : State := led (vl {} [(.VLV, 4, 9), (.VLV, 8, 0xC35B)] 5 5)
def z14 : Ledger := { serial := 78 }
def z15 : State := vl {} [Q,D, V VLV_CH_CURRENT 1000]
def z16 : State := vl {hold := some h3} [Q,D, run, V VLV_CH_CURRENT 1000]

theorem test_witness_valveDiagnosticsAndLedger :
    (z1.vlvOnDiag 5 = false) ∧
    ((z2.vlvOnDiag 5 = false ∨ 4500 ≤ if 5 < 24 then 4500 else 12000)) ∧
    (z1.vlvOnDiag (4 * 1 + 1) = false) ∧
    ((z1.bit Block.VLV (VLV_CH_DIAG_CFG 5) 1 = false ∨ z1.applied 5 ≠ 0 ∨ (z1.vch 5).flowing = true ∨ z1.vlvQuiet 5 = true)) ∧
    (z3.bit Block.VLV (VLV_CH_DIAG_CFG 5) 1 = true ∧ z3.applied 5 = 0 ∧ (z3.vch 5).flowing = false ∧ z3.vlvQuiet 5 = false ∧ 12500 ≤ 12000 + 500 ∧ (¬∃ m, m ∈ siblings 5 ∧ (z3.applied m ≠ 0 ∨ (z3.vch m).flowing = true)) ∧ 2000 ≤ 2000) ∧
    (z4.bit Block.VLV (VLV_CH_DIAG_CFG 5) 1 = true ∧ z4.applied 5 = 0 ∧ (z4.vch 5).flowing = false ∧ z4.vlvQuiet 5 = false ∧ 12500 ≤ 12000 + 500 ∧ (∃ m, m ∈ siblings 5 ∧ (z4.applied m ≠ 0 ∨ (z4.vch m).flowing = true))) ∧
    (z3.bit Block.VLV (VLV_CH_DIAG_CFG 5) 1 = true ∧ z3.applied 5 = 0 ∧ (z3.vch 5).flowing = false ∧ z3.vlvQuiet 5 = false ∧ 1000 + 500 < 12500 ∧ (1000 < 1000 ∨ 300 < 3500)) ∧
    (z3.bit Block.VLV (VLV_CH_DIAG_CFG 5) 1 = true ∧ z3.applied 5 = 0 ∧ (z3.vch 5).flowing = false ∧ z3.vlvQuiet 5 = false ∧ 1000 + 500 < 12500 ∧ 1000 ≤ 1000 ∧ 300 ≤ 300) ∧
    ((300 < 200 ∨ z1.f Block.VLV (VLV_CH_COLD_RES 5) 15 0 = 0)) ∧
    (200 ≤ 300 ∧ z5.f Block.VLV (VLV_CH_COLD_RES 5) 15 0 ≠ 0) ∧
    (Idle z6 Block.VLV ∧ z6.vlvIsIdle (z6.f Block.VLV 4 4 0) = true) ∧
    (Idle z7 Block.VLV ∧ z7.vlvIsIdle (z7.f Block.VLV 4 4 0) = false) ∧
    (z8.vlvIsIdle 5 = true ∧ (z8.mailOf Block.VLV).code = 6 ∧ fld (arg (z8.mailOf Block.VLV).args 0) 4 0 = 5 ∧ tagCrcOk (fr 20988295479420645135) = true ∧ z8.bit Block.VLV (VLV_CH_CFG 5) 16 = false ∧ z8.vlvBit 5 19 = false ∧ Calm z8) ∧
    (z8.vlvIsIdle 5 = true ∧ (z8.mailOf Block.VLV).code = 6 ∧ fld (arg (z8.mailOf Block.VLV).args 0) 4 0 = 5 ∧ z8.vlvBit 5 19 = false ∧ Calm z8) ∧
    ((z9.vlvIsIdle 5 = false ∨ z9.bit Block.VLV (VLV_CH_DIAG_CFG 5) 2 = false ∧ ((z9.mailOf Block.VLV).code ≠ 6 ∨ fld (arg (z9.mailOf Block.VLV).args 0) 4 0 ≠ 5))) ∧
    (Idle z10 Block.VLV ∧ z10.vlv.sealed.get none (z10.f Block.VLV 4 6 0) = none) ∧
    (Idle z11 Block.VLV ∧ z11.mode ≠ 5) ∧
    (Idle z12 Block.VLV ∧ z12.mode = 5 ∧ z12.rd Block.VLV 8 = 50010 ∧ (∀ (n : Nat), n < 32 → z12.entryOf n ≠ some (z12.f Block.VLV 4 6 0)) ∧ Calm z12) ∧
    (Idle z13 Block.VLV ∧ z13.mode = 5 ∧ z13.rd Block.VLV 8 ≠ 50010) ∧
    (Idle z11 Block.VLV ∧ z11.vlv.sealed.get none (z11.f Block.VLV 4 6 0) = some z14) ∧
    (z15.vlvOnDiag 5 = true) ∧
    (z16.vlvOnDiag 5 = true ∧ ((if 5 < 24 then 4500 else 12000) < 4501) ∧ Calm z16) ∧
    (z16.vlvOnDiag (4 * 1 + 1) = true ∧ Calm z16) ∧
    ((∀ (n : Nat), n ∈ groupOf 1 → z1.vlvOnDiag n = false)) ∧
    ((∃ n, n ∈ groupOf 1 ∧ z16.vlvOnDiag n = true) ∧ Calm z16) ∧
    (z3.bit Block.VLV (VLV_CH_DIAG_CFG 5) 1 = true ∧ z3.applied 5 = 0 ∧ (z3.vch 5).flowing = false ∧ z3.vlvQuiet 5 = false ∧ 12500 ≤ 12000 + 500 ∧ (¬∃ m, m ∈ siblings 5 ∧ (z3.applied m ≠ 0 ∨ (z3.vch m).flowing = true)) ∧ 2000 < 2001 ∧ 3000 ≤ 2001 + 1000 ∧ Calm z3) ∧
    (z3.bit Block.VLV (VLV_CH_DIAG_CFG 5) 1 = true ∧ z3.applied 5 = 0 ∧ (z3.vch 5).flowing = false ∧ z3.vlvQuiet 5 = false ∧ 12500 ≤ 12000 + 500 ∧ (¬∃ m, m ∈ siblings 5 ∧ (z3.applied m ≠ 0 ∨ (z3.vch m).flowing = true)) ∧ 2000 < 2001 ∧ 2001 + 1000 < 3002) := by
  refine ⟨?_, ?_, ?_, ?_, ?_, ?_, ?_, ?_, ?_, ?_, ?_, ?_, ?_, ?_, ?_, ?_, ?_, ?_, ?_, ?_, ?_, ?_, ?_, ?_, ?_, ?_, ?_⟩
  · decide +kernel
  · decide +kernel
  · decide +kernel
  · decide +kernel
  · decide +kernel
  · decide +kernel
  · decide +kernel
  · decide +kernel
  · decide +kernel
  · decide +kernel
  · unfold Idle; decide +kernel
  · unfold Idle; decide +kernel
  · unfold Calm; decide +kernel
  · unfold Calm; decide +kernel
  · decide +kernel
  · unfold Idle; decide +kernel
  · unfold Idle; decide +kernel
  · unfold Idle Calm; decide +kernel
  · unfold Idle; decide +kernel
  · unfold Idle; decide +kernel
  · decide +kernel
  · unfold Calm; decide +kernel
  · unfold Calm; decide +kernel
  · decide +kernel
  · unfold Calm; decide +kernel
  · unfold Calm; decide +kernel
  · decide +kernel

end Sys2Proof.Tests.ValveDiagnosticsAndLedger

namespace Sys2Proof.Tests.LoadSwitching

def cl : R := [(.LSW, 0x50, 0xFFFFFFFF), (.LSW, 0x54, 0xFF)]
def ls (l : R) (m : Nat := 2) : State := on m (cl ++ l)
def L (r : Nat → Nat) (v : Nat) (n : Nat := 5) : Block × Nat × Nat := (.LSW, r n, v)
def z1 : State := on 2
def z2 : State := ls [] 6
def z3 : State := ls [L LSW_CH_STATUS 0x400000 39]
def z4 : State := ls [L LSW_CH_STATUS 0x1000002]
def z5 : State := ls [L LSW_CH_CFG 10]
def z6 : State := { ls [] with lsw := { (ls []).lsw with gnd := true } }
def z7 : State := ls [L LSW_CH_STATUS 3, L LSW_CH_CLAMP_CFG 0x50064]
def z8 : State := ls [L LSW_CH_STATUS 0x4000003]
def z9 : State := ls [L LSW_CH_STATUS 0xC000003]
def z10 : State := ls [L LSW_CH_STATUS 0x2000003]
def z11 : State := ls [L LSW_CH_STATUS 0x3, L LSW_CH_CFG 0x1000000]
def z12 : State := ls [L LSW_CH_STATUS 0x3, L LSW_CH_CFG 0x1000000 32]
def z13 : State := ls [L LSW_CH_STATUS 0xA000003]
def z14 : State := (ls [L LSW_CH_STATUS 0x3, L LSW_CH_CFG 0x1000000, L LSW_CH_PWM 0x10064]).lchMod 5 fun c => { c with pwm := 0x103E8 }

theorem test_witness_loadSwitching :
    (z1.lswJudge 5 1 ≠ Result.ok ∧ z1.lswJudge 5 2 ≠ Result.ok) ∧
    (z2.lswForbidden 39 = true) ∧
    (z1.lswForbidden 39 = false ∧ z1.lswClaimed 39 = false) ∧
    (z3.lswForbidden 39 = false ∧ z3.lswClaimed 39 = true) ∧
    (z4.lswJudge 5 1 = Result.ok ∧ z4.lswBit 5 1 = true) ∧
    (z5.lswJudge 5 1 = Result.ok ∧ z5.lswBit 5 1 = false ∧ z5.lswSupplyOpen 5 = false) ∧
    (z6.lswJudge 5 1 = Result.ok ∧ z6.lswBit 5 1 = false ∧ z6.lswSupplyOpen 5 = true) ∧
    (z7.lswJudge 5 2 = Result.ok) ∧
    (z8.lswBit 5 26 = true ∧ z8.lswBit 5 27 = false) ∧
    ((z9.lswBit 5 26 = false ∨ z9.lswBit 5 27 = true)) ∧
    (z10.lswBit 5 27 = false) ∧
    (z11.bit Block.LSW (LSW_CH_CFG 5) 24 = true ∧ classK 5 = false ∧ z11.lswBit 5 1 = true ∧ z11.lswBarred 5 = false ∧ z11.lswBit 5 19 = false ∧ fld (z11.lch 5).pwm 9 0 < 1000) ∧
    ((z12.bit Block.LSW (LSW_CH_CFG 32) 24 = false ∨ classK 32 = true ∨ z12.lswBit 32 1 = false ∨ z12.lswBarred 32 = true ∨ z12.lswBit 32 19 = true)) ∧
    (z13.lswBit 5 27 = true) ∧
    (z14.bit Block.LSW (LSW_CH_CFG 5) 24 = true ∧ classK 5 = false ∧ z14.lswBit 5 1 = true ∧ z14.lswBarred 5 = false ∧ z14.lswBit 5 19 = false ∧ 1000 ≤ fld (z14.lch 5).pwm 9 0) := by
  refine ⟨?_, ?_, ?_, ?_, ?_, ?_, ?_, ?_, ?_, ?_, ?_, ?_, ?_, ?_, ?_⟩ <;> decide +kernel

end Sys2Proof.Tests.LoadSwitching

namespace Sys2Proof.Tests.LoadProtection

def L (r : Nat → Nat) (v : Nat) (n : Nat := 5) : Block × Nat × Nat := (.LSW, r n, v)
def cl : R := [(.LSW, 0x50, 0xFFFFFFFF), (.LSW, 0x54, 0xFF)]
def ls (l : R) (m : Nat := 2) : State := on m (cl ++ l)
def z1 : State := ls [L LSW_CH_STATUS 0x3, L LSW_CH_LIMIT 0x640032]
def z2 : State := ls [L LSW_CH_STATUS 0x2000003, L LSW_CH_LIMIT 0x640032]
def z3 : State := ls [L LSW_CH_STATUS 3]
def z4 : State := ls [L LSW_CH_STATUS 0xC000003]
def z5 : State := ls [L LSW_CH_STATUS 0x4000003]
def z6 : State := ls [(.LSW, 0x30, 3)]
def z7 : State := ls [L LSW_CH_STATUS 0x3, L LSW_CH_DIAG 0x640001]
def z8 : State := ls [L LSW_CH_STATUS 0x4000003, L LSW_CH_DIAG 0x640001]
def z9 : State := ls [L LSW_CH_DIAG 2]
def z10 : State := ls [L LSW_CH_DIAG 1]
def z11 : State := ls []
def z12 : State := ls [L LSW_CH_STATUS 0x800003, (.LSW, 0x58, 0x20), L LSW_CH_CLAMP_CFG 5]
def z13 : State := { ls [] with sys := { (ls []).sys with noDrawer := true } }
def z14 : State := on 2 [(.LSW, 0x4, 6), (.LSW, 0x8, 0x101), (.LSW, 0x50, 2), L LSW_CH_STATUS 0x800003 2,  L LSW_CH_STATUS 0x800003 1]
def z15 : State := ls [(.LSW, 0x4, 6), L LSW_CH_TEMP 1501 2]
def z16 : State := ls [(.LSW, 0x4, 6), L LSW_CH_TEMP 1500 2, L LSW_CH_STATUS 0x300000 2, L LSW_CH_STATUS 0x300000 7]
def z17 : State := ls [(.LSW, 0x8, 1), L LSW_CH_STATUS 0x400000 32, L LSW_CH_COOL 0 32, L LSW_CH_STATUS 0x400000 3]
def z18 : State := ls [(.LSW, 0x8, 1), (.LSW, 0xC, 1), L LSW_CH_COUNTS 5 32, L LSW_CH_COUNTS 5 3, (.LSW, LSW_FEED_STATUS 1, 0x80000000), (.LSW, LSW_FEED_COUNTS 1, 0x80000000)]
def z19 : State := (ls [(.LSW, 0x8, 1), L LSW_CH_STATUS 0x400000 32]).lchMod 32 fun c => { c with coolTo := 5000000000 }

theorem test_witness_loadProtection :
    (z1.lswBit 5 0 = true ∧ ((if z1.lswBit 5 25 = true then z1.f Block.LSW (LSW_CH_LIMIT 5) 31 16 else z1.f Block.LSW (LSW_CH_LIMIT 5) 15 0) < 51)) ∧
    ((z2.lswBit 5 0 = false ∨ 100 ≤ if z2.lswBit 5 25 = true then z2.f Block.LSW (LSW_CH_LIMIT 5) 31 16 else z2.f Block.LSW (LSW_CH_LIMIT 5) 15 0)) ∧
    (1750 < 1751 ∧ z3.lswBit 5 21 = false) ∧
    ((1750 ≤ 1750 ∨ z3.lswBit 5 21 = true)) ∧
    (z4.lswBit 5 27 = true) ∧
    (z5.lswBit 5 27 = false) ∧
    (z6.f Block.LSW (LSW_FEED_CFG 0) 7 0 * 10 < 31) ∧
    (30 ≤ z6.f Block.LSW (LSW_FEED_CFG 0) 7 0 * 10) ∧
    ((bitOf (z7.rd Block.LSW (LSW_CH_DIAG 5)) 0 = true ∧ z7.lswBit 5 0 = true ∧ z7.lswBit 5 26 = false ∧ z7.lswNoCheck 5 = false)) ∧
    (¬(bitOf (z8.rd Block.LSW (LSW_CH_DIAG 5)) 0 = true ∧ z8.lswBit 5 0 = true ∧ z8.lswBit 5 26 = false ∧ z8.lswNoCheck 5 = false)) ∧
    ((z9.bit Block.LSW (LSW_CH_DIAG 5) 1 = true ∧ z9.lswBit 5 0 = false ∧ z9.lswNoCheck 5 = false) ∧ 8000 - 1000 ≤ 7000 ∧ 8000 ≤ 8000) ∧
    ((z9.bit Block.LSW (LSW_CH_DIAG 5) 1 = true ∧ z9.lswBit 5 0 = false ∧ z9.lswNoCheck 5 = false) ∧ (3500 < 8000 - 1000 ∨ 8000 < 8000) ∧ 3500 ≤ 3500) ∧
    ((z9.bit Block.LSW (LSW_CH_DIAG 5) 1 = true ∧ z9.lswBit 5 0 = false ∧ z9.lswNoCheck 5 = false) ∧ (1000 < 8000 - 1000 ∨ 8000 < 8000) ∧ 1000 ≤ 1000) ∧
    (¬(z10.bit Block.LSW (LSW_CH_DIAG 5) 1 = true ∧ z10.lswBit 5 0 = false ∧ z10.lswNoCheck 5 = false)) ∧
    (z11.lswBit 5 23 = false) ∧
    (z12.lswBit 5 23 = true) ∧
    (Idle z13 Block.LSW ∧ z13.sys.noDrawer = true) ∧
    (Idle z14 Block.LSW ∧ z14.sys.noDrawer = false) ∧
    (Idle z15 Block.LSW ∧ (∃ n, n < 40 ∧ Names z15 n ∧ z15.lswHot n = true)) ∧
    (Idle z16 Block.LSW ∧ (∀ (n : Nat), n < 40 → Names z16 n → z16.lswHot n = false)) ∧
    (Idle z17 Block.LSW ∧ (∀ (n : Nat), n < 40 → Names z17 n → z17.lswBit n 22 = true → z17.coolLeft n = 0)) ∧
    (Idle z18 Block.LSW) ∧
    ((z9.bit Block.LSW (LSW_CH_DIAG 5) 1 = true ∧ z9.lswBit 5 0 = false ∧ z9.lswNoCheck 5 = false) ∧ (1001 < 8000 - 1000 ∨ 8000 < 8000) ∧ 1000 < 1001 ∧ 1001 < 3500) ∧
    (Idle z19 Block.LSW ∧ (∃ n, n < 40 ∧ Names z19 n ∧ z19.lswBit n 22 = true ∧ z19.coolLeft n ≠ 0)) := by
  refine ⟨?_, ?_, ?_, ?_, ?_, ?_, ?_, ?_, ?_, ?_, ?_, ?_, ?_, ?_, ?_, ?_, ?_, ?_, ?_, ?_, ?_, ?_, ?_, ?_⟩
  · decide +kernel
  · decide +kernel
  · decide +kernel
  · decide +kernel
  · decide +kernel
  · decide +kernel
  · decide +kernel
  · decide +kernel
  · decide +kernel
  · decide +kernel
  · decide +kernel
  · decide +kernel
  · decide +kernel
  · decide +kernel
  · decide +kernel
  · decide +kernel
  · unfold Idle; decide +kernel
  · unfold Idle; decide +kernel
  · unfold Idle Names; decide +kernel
  · unfold Idle Names; decide +kernel
  · unfold Idle Names; decide +kernel
  · unfold Idle; decide +kernel
  · decide +kernel
  · unfold Idle Names; decide +kernel

end Sys2Proof.Tests.LoadProtection

namespace Sys2Proof.Tests.CameraLinksAndCommands

def tr (j : Nat := 1) : R := [(.CAM, CAM_L_STATUS j, 1), (.CAM, CAM_L_CFG j, 0x104)]
def fl (s : State) : State := { s with cam := { s.cam with failed := s.cam.failed.set false 1 true } }
def tr2 : State := on 2 tr
def up (j : Nat := 1) (g : Nat := 3): Block × Nat × Nat := (.CAM, CAM_L_STATUS j, 2 + 256 * g)
def cam (n : Nat) (c : CamCh) (l : R := []) : State := (on 2 l).camMod n fun _ => c
def fr : CamFrame := { no := 5, sof := 77 }
def tg (c : CamCh) : State := (on 2).camMod 5 fun _ => c
def okc : R := [(.CAM, 4, 0x20), (.CAM, CAM_C_SIZE 5, 0x10000 * 16 + 64), (.CAM, CAM_C_CTRL 5, 0x1E000000)]
def o1 : State := on 2 okc
def o2 : State := on 2 (up 1 :: okc)
def o3 : State := on 2 (up 1 0 :: okc)
def pb2 : State := on 2 [(.CAM, 4, 5), (.CAM, CAM_C_PARAM_BASE_HI 5, 0x1)]
def pbl (s : State) : State := s.wrBytes 0x100000FFC (leBytes 4 (crc32c (List.replicate 0xFFC 0)))
def z1 : State := on 2
def z2 : State := fl tr2
def z3 : State := cam 5 { frame := some { fr with rawIdx := 2 }, run := true } [up]
def z4 : State := tg { run := true }
def z5 : State := (tg { run := true, trigNow := (20000000, 77), trigNew := some (30000000, 9, 100) }).putNow 30000009
def z6 : State := (tg { run := true, trigNow := (20000000, 77), trigNew := some (30000000, 9, 100) }).putNow 29990009
def z7 : State := on 0
def z8 : State := on 2 [(.CAM, 4, 0x20)]
def z9 : State := cam 5 { run := true } [(.CAM, 4, 0x21)]
def z10 : State := on 2 [(.CAM, 4, 5)]
def z11 : State := pbl (pb2.camMod 5 fun c => { c with run := true })
def z12 : State := on 2 [(.CAM, 4, 0x20), (.CAM, 8, 3), (.CAM, CAM_C_CRC_CNT 5, 3), (.CAM, CAM_C_CRC_CNT 4, 3), (.CAM, CAM_L_ECC 0, 3), up, (.CAM, CAM_TP_SKIP, 2), (.CAM, CAM_TP_STATUS, 0xFFFFFF87)]

theorem test_witness_cameraLinksAndCommands :
    (z1.linkState 1 ≠ 1) ∧
    (tr2.cam.failed.get false 1 = false) ∧
    (z2.linkState 1 = 1 ∧ (z2.mailOf Block.CAM).code ≠ 1 ∧ 1 ≤ 3 ∧ 3 ≤ clampN 1 5 (z2.f Block.CAM (CAM_L_CFG 1) 2 0) ∧ (23#5).getLsbD (3 - 1) = true ∧ (∀ (k : Nat), 3 < k → k ≤ clampN 1 5 (z2.f Block.CAM (CAM_L_CFG 1) 2 0) → (23#5).getLsbD (k - 1) = false) ∧ z2.cam.failed.get false 1 = true ∧ tr2.linkState 1 = 1 ∧ (tr2.mailOf Block.CAM).code ≠ 1 ∧ 1 ≤ 4 ∧ 4 ≤ clampN 1 5 (tr2.f Block.CAM (CAM_L_CFG 1) 2 0) ∧ (31#5).getLsbD (4 - 1) = true ∧ (∀ (k : Nat), 4 < k → k ≤ clampN 1 5 (tr2.f Block.CAM (CAM_L_CFG 1) 2 0) → (31#5).getLsbD (k - 1) = false)) ∧
    (tr2.linkState 1 = 1 ∧ (tr2.mailOf Block.CAM).code ≠ 1 ∧ tr2.cam.failed.get false 1 = false) ∧
    (z2.linkState 1 = 1 ∧ (z2.mailOf Block.CAM).code ≠ 1 ∧ z2.cam.failed.get false 1 = true) ∧
    (tr2.linkState 1 ≠ 2) ∧
    (z3.linkState 1 = 2) ∧
    ((z4.camCh 5).trigNow = (0, 0) ∧ (z4.camCh 5).trigNew = none ∧ ((z4.camCh 5).run = false ∨ (z4.camCh 5).stop = true ∨ 0 = 0 ∨ ∀ (k : Nat), z4.now + 1000 < 0 + k * 0 ∨ 0 + k * 0 + 1000 < z4.now)) ∧
    ((z5.camCh 5).trigNew = some (30000000, 9, 100) ∧ ((if 30000000 = 0 then 100 + 1000000 else trigFrom 30000000 9 (100 + 1000000)) ≤ z5.now + 1000)) ∧
    ((z6.camCh 5).trigNew = some (30000000, 9, 100) ∧ (z6.now + 1000 < if 30000000 = 0 then 100 + 1000000 else trigFrom 30000000 9 (100 + 1000000))) ∧
    (Idle z7 Block.CAM ∧ z7.mode = 0) ∧
    (Idle z8 Block.CAM ∧ z8.mode ≠ 0 ∧ 5 < 8 ∧ z8.bit Block.CAM 4 5 = true ∧ (z8.camCh 5).run = false ∧ z8.camFieldsOk 5 = false) ∧
    (Idle o1 Block.CAM ∧ o1.mode ≠ 0 ∧ 5 < 8 ∧ o1.rd Block.CAM 4 = wordN (2 ^ 5) ∧ (o1.camCh 5).run = false ∧ o1.camFieldsOk 5 = true ∧ o1.linkState (5 / 4) ≠ 2 ∧ Idle o2 Block.CAM ∧ o2.mode ≠ 0 ∧ o2.rd Block.CAM 4 = wordN (2 ^ 5) ∧ (o2.camCh 5).run = false ∧ o2.camFieldsOk 5 = true ∧ o2.linkState (5 / 4) = 2 ∧ (o2.camFits (List.filter (fun m => (o2.camCh m).run || m == 5) (upto 8)) = true)) ∧
    (Idle o3 Block.CAM ∧ o3.mode ≠ 0 ∧ 5 < 8 ∧ o3.rd Block.CAM 4 = wordN (2 ^ 5) ∧ (o3.camCh 5).run = false ∧ o3.camFieldsOk 5 = true ∧ o3.linkState (5 / 4) = 2 ∧ (o3.camFits (List.filter (fun m => (o3.camCh m).run || m == 5) (upto 8)) = false)) ∧
    (Idle z8 Block.CAM ∧ (∀ (n : Nat), n < 8 → z8.bit Block.CAM 4 n = true → (z8.camCh n).run = false)) ∧
    (Idle z9 Block.CAM ∧ (∃ n, n < 8 ∧ z9.bit Block.CAM 4 n = true ∧ (z9.camCh n).run = true)) ∧
    (Idle z10 Block.CAM ∧ (z10.camCh (z10.f Block.CAM 4 2 0)).run = false) ∧
    (Idle z11 Block.CAM ∧ (z11.camCh (z11.f Block.CAM 4 2 0)).run = true) ∧
    (Idle z12 Block.CAM) ∧
    (((tg { run := true, trigNow := (20000000, 77) }).putNow 200000577).camCh 5).trigNow = (20000000, 77) ∧
    (((tg { run := true, trigNow := (20000000, 77) }).putNow 200000577).camCh 5).trigNew = none ∧
    (2000 < 20000000 ∧ 77 + 10 * 20000000 ≤ ((tg { run := true, trigNow := (20000000, 77) }).putNow 200000577).now + 1000 ∧ ((tg { run := true, trigNow := (20000000, 77) }).putNow 200000577).now ≤ 77 + 10 * 20000000 + 1000) ∧
    ((((tg { run := true, trigNow := (20000000, 77) }).putNow 200000577).camCh 5).run = true ∧ (((tg { run := true, trigNow := (20000000, 77) }).putNow 200000577).camCh 5).stop = false ∧ (((tg { run := true, trigNow := (20000000, 77) }).putNow 200000577).camCh 5).trigAt ≠ some (77 + 10 * 20000000)) := by
  refine ⟨?_, ?_, ?_, ?_, ?_, ?_, ?_, ?_, ?_, ?_, ?_, ?_, ?_, ?_, ?_, ?_, ?_, ?_, ?_, ?_, ?_, ?_, ?_⟩
  · decide +kernel
  · decide +kernel
  · and_intros <;> first | decide +kernel | (intro k h1 h2; revert h1; revert h2; revert k; decide +kernel)
  · decide +kernel
  · decide +kernel
  · decide +kernel
  · decide +kernel
  · exact ⟨by decide +kernel, by decide +kernel, .inr (.inr (.inl rfl))⟩
  · decide +kernel
  · decide +kernel
  · unfold Idle; decide +kernel
  · unfold Idle; decide +kernel
  · unfold Idle; decide +kernel
  · unfold Idle; decide +kernel
  · unfold Idle; decide +kernel
  · unfold Idle; decide +kernel
  · unfold Idle; decide +kernel
  · unfold Idle; decide +kernel
  · unfold Idle; decide +kernel
  · decide +kernel
  · decide +kernel
  · decide +kernel
  · decide +kernel

end Sys2Proof.Tests.CameraLinksAndCommands

namespace Sys2Proof.Tests.CameraFrames

def cam (n : Nat) (c : CamCh) (l : R := []) : State := (on 2 l).camMod n fun _ => c
def up (j : Nat := 1) (g : Nat := 3): Block × Nat × Nat := (.CAM, CAM_L_STATUS j, 2 + 256 * g)
def P (h : CamHdr := .good) : CamPkt := ⟨h, 3⟩
def rx (s : State) : State := { s with cam := { s.cam with retx := s.cam.retx.set false 1 true } }
def c0 : State := cam 5 { started := 0xFFFFFFFF }
def c1 : State := rx (cam 5 { started := 0xFFFFFFFF } [up, (.CAM, CAM_L_DISCARD 1, 0xFFFF0007), (.CAM, CAM_L_ECC 1, 0x7FFFF), (.CAM, CAM_L_RETX 1, 7)])
def okS : List Word := [0x1E000400, 0x40000 + 4, 0x2B, 0, 0x1, 3, 0x100000, 0x1, 2, 0x200000, 0x1, 2, 0]
def sn := okS
def fr : CamFrame := { no := 5, sof := 77 }
def jb : CamJob := { cam := 5, cls := 1, frame := { fr with rawIdx := 2 } }
def bz (s : State) : State := { s with cam := { s.cam with busy := some jb, queue := [{ jb with cam := 5 }] } }
def fd : CamFrame := { fr with dropped := true }
def se : List Word := [0x1E000401, 0x40000 + 4, 0x2B, 0, 0x1, 3, 0x100000, 0x1, 2, 0x200000, 0x1, 2, 0]
def fe : CamFrame := { fr with emb := [3] }
def f1 : CamFrame := { fr with rawIdx := 1 }
def ff : CamFrame := { fr with rawIdx := 1, lines := [4,0,0], flags := 0x21 }
def f2 : CamFrame := { fr with rawIdx := 1, lines := [2,0,0] }
def nf : R := [up, (.CAM, CAM_C_CTRL 5, 0x1E000000)]
def tq (s : State) : State := { s with cam := { s.cam with test := some 5 } }
def jb2 : CamJob := { cam := 5, cls := 1, frame := f2 }
def bz2 (s : State) : State := { s with cam := { s.cam with busy := some jb2, queue := [{ jb2 with cam := 5 }] } }
def z1 : CamPkt := P .foreign
def z2 : CamPkt := P .bad
def z3 : CamPkt := P .corrected
def z4 : State := cam 5 { started := 0xFFFFFFFF } [up]
def z5 : CamPkt := P
def z6 : State := cam 5 { started := 0xFFFFFFFF, frame := some fr } [up]
def z7 : State := cam 5 { started := 7, run := true, snap := sn, rawNext := 2 } [up]
def z8 : State := bz (cam 5 { started := 7, run := true, snap := sn, rawNext := 2 } [up])
def z9 : State := cam 5 {} [up]
def z10 : State := cam 5 {} [up, (.CAM, CAM_L_DISCARD 1, 0xFFFF0007)]
def z11 : State := cam 5 {run := true, snap := sn, frame := some fd} [up]
def z12 : State := cam 5 {run := true, snap := se, frame := some fe} [up]
def z13 : State := cam 5 { frame := some f1, run := true, snap := sn } [up]
def z14 : List Byte := [1,2,3,4,5]
def z15 : State := cam 5 { frame := some f1, run := true, snap := sn, inline := true } [up]
def z16 : State := cam 5 { frame := some ff, run := true, stop := true, snap := sn } [up]
def z17 : State := cam 5 { frame := some f2, run := true, snap := sn } [up]
def z18 : State := cam 5 {} nf
def z19 : State := cam 5 {stop := true, run := true, stopAt := 5, snap := sn} nf
def z20 : State := cam 5 {frame := some f2, run := true, snap := sn} nf
def z21 : State := on 2
def z22 : State := tq (cam 5 { run := true, snap := sn })
def z23 : State := bz2 (cam 5 { run := true, snap := sn })

theorem test_witness_cameraFrames :
    (c0.linkState (5 / 4) ≠ 2) ∧
    (1 < 2) ∧
    (c1.linkState (5 / 4) = 2 ∧ 2 ≤ 43 ∧ z1.hdr = CamHdr.foreign ∧ c1.cam.retx.get false (5 / 4) = true) ∧
    (c1.linkState (5 / 4) = 2 ∧ 2 ≤ 43 ∧ z2.hdr = CamHdr.bad) ∧
    (c1.linkState (5 / 4) = 2 ∧ 2 ≤ 43 ∧ z3.hdr = CamHdr.corrected) ∧
    (z4.linkState (5 / 4) = 2 ∧ (z5.hdr = CamHdr.good ∨ z5.hdr = CamHdr.corrected) ∧ (z4.camCh 5).fill = none ∧ (z4.camCh 5).frame = none ∧ (z4.camCh 5).run = false) ∧
    (z6.linkState (5 / 4) = 2 ∧ (z5.hdr = CamHdr.good ∨ z5.hdr = CamHdr.corrected) ∧ (z6.camCh 5).fill = none ∧ (z6.camCh 5).frame = some fr ∧ fr.dropped = false ∧ (z6.camCh 5).run = false ∧ z6.cam.queue.length < 12) ∧
    (z7.linkState (5 / 4) = 2 ∧ (z3.hdr = CamHdr.good ∨ z3.hdr = CamHdr.corrected) ∧ (z7.camCh 5).fill = none ∧ (z7.camCh 5).frame = none ∧ (z7.camCh 5).run = true ∧ z7.cam.busy = none ∧ z7.cam.queue = []) ∧
    (z8.linkState (5 / 4) = 2 ∧ (z3.hdr = CamHdr.good ∨ z3.hdr = CamHdr.corrected) ∧ (z8.camCh 5).fill = none ∧ (z8.camCh 5).frame = none ∧ (z8.camCh 5).run = true ∧ (z8.camCh 5).inline = false ∧ z8.cam.busy = some jb ∧ jb.cam = 5 ∧ jb.frame.rawIdx = (z8.camCh 5).rawNext % (z8.camCh 5).rawBufs) ∧
    (z9.linkState (5 / 4) = 2 ∧ z5.hdr = CamHdr.good ∧ z9.cam.retx.get false (5 / 4) = false ∧ (3 = 2 ∨ 3 = 3)) ∧
    (z10.linkState (5 / 4) = 2 ∧ z5.hdr = CamHdr.good ∧ z10.cam.retx.get false (5 / 4) = false ∧ 4 ≤ 4 ∧ 4 ≠ 18 ∧ pixelType 4 = false) ∧
    (z9.linkState (5 / 4) = 2 ∧ z5.hdr = CamHdr.good ∧ z9.cam.retx.get false (5 / 4) = false ∧ (z9.camCh 5).frame = none ∧ (43 = 18 ∨ pixelType 43 = true)) ∧
    (z11.linkState (5 / 4) = 2 ∧ z5.hdr = CamHdr.good ∧ z11.cam.retx.get false (5 / 4) = false ∧ (z11.camCh 5).frame = some fd ∧ fd.dropped = true) ∧
    (z12.linkState (5 / 4) = 2 ∧ z5.hdr = CamHdr.good ∧ z12.cam.retx.get false (5 / 4) = false ∧ (z12.camCh 5).frame = some fe ∧ fe.dropped = false ∧ 18 = 18 ∧ bitOf ((z12.camCh 5).word 0) 0 = true) ∧
    (z13.linkState (5 / 4) = 2 ∧ z5.hdr = CamHdr.good ∧ (z13.camCh 5).frame = some f1 ∧ f1.dropped = false ∧ pixelType 43 = true ∧ camExp (z13.camCh 5) 43 = some 0 ∧ z14.length = rawBytes (z13.camCh 5).fmt (z13.camCh 5).w ∧ (z13.camCh 5).inline = false ∧ f1.lines.getD 0 0 < (z13.camCh 5).h ∧ (z13.camCh 5).rawAddr f1.rawIdx 0 (f1.lines.getD 0 0) + (z13.camCh 5).rawLine ≤ 16642998272) ∧
    (z15.linkState (5 / 4) = 2 ∧ z5.hdr = CamHdr.good ∧ (z15.camCh 5).frame = some f1 ∧ f1.dropped = false ∧ pixelType 43 = true ∧ camExp (z15.camCh 5) 43 = some 0 ∧ z14.length = rawBytes (z15.camCh 5).fmt (z15.camCh 5).w ∧ (z15.camCh 5).inline = true ∧ (f1.raw.getD 0 []).length < (z15.camCh 5).h ∧ 0 < 2) ∧
    (z9.linkState (5 / 4) = 2 ∧ z5.hdr = CamHdr.good ∧ z9.cam.retx.get false (5 / 4) = false ∧ (z9.camCh 5).frame = none) ∧
    (z16.linkState (5 / 4) = 2 ∧ (z16.camCh 5).frame = some ff ∧ ff.dropped = false ∧ z5.hdr = CamHdr.good ∧ ff.rawIdx ≠ 255 ∧ (∀ (k : Nat), k ∈ List.take (z16.camCh 5).exps ff.lines → (z16.camCh 5).h ≤ k) ∧ z16.cam.busy = none ∧ z16.cam.test = none ∧ z16.cam.queue = []) ∧
    (z17.linkState (5 / 4) = 2 ∧ (z17.camCh 5).frame = some f2 ∧ f2.dropped = false ∧ z5.hdr = CamHdr.good ∧ (∃ k, k ∈ List.take (z17.camCh 5).exps f2.lines ∧ k < (z17.camCh 5).h) ∧ z17.cam.queue.length < 12) ∧
    ((z18.camCh 5).frame = none ∧ ¬((z18.camCh 5).stop = true ∧ z18.camPeriods 5 2 (z18.camCh 5).stopAt 9 = true)) ∧
    ((z19.camCh 5).frame = none ∧ ((z19.camCh 5).stop = true ∧ z19.camPeriods 5 2 (z19.camCh 5).stopAt (10 ^ 9) = true)) ∧
    ((z20.camCh 5).frame = some f2 ∧ ¬((z20.camCh 5).stop = true ∧ z20.camPeriods 5 2 (z20.camCh 5).stopAt 1000 = true) ∧ z20.camPeriods 5 2 f2.sof 1000 = false) ∧
    ((z20.camCh 5).frame = some f2 ∧ ((z20.camCh 5).stop = true ∧ z20.camPeriods 5 2 (z20.camCh 5).stopAt (10 ^ 9) = true ∨ z20.camPeriods 5 2 f2.sof (10 ^ 9) = true) ∧ f2.dropped = false ∧ z20.cam.queue.length < 12) ∧
    (z21.cam.busy = none ∧ z21.cam.test = none) ∧
    (z22.cam.test = some 5 ∧ 5 < 8) ∧
    (z23.cam.busy = some jb2 ∧ z23.cam.test = none ∧ jb2.cam < 8) := by
  refine ⟨?_, ?_, ?_, ?_, ?_, ?_, ?_, ?_, ?_, ?_, ?_, ?_, ?_, ?_, ?_, ?_, ?_, ?_, ?_, ?_, ?_, ?_, ?_, ?_, ?_, ?_⟩ <;> decide +kernel

end Sys2Proof.Tests.CameraFrames

namespace Sys2Proof.Tests.GnssChannels

def G (o v : Nat) : Block × Nat × Nat := (.GNS, o, v)
def gB : R := [G GNS_ACQ_BASE_HI 0x1, G GNS_CHT_BASE_HI 0x1, G GNS_MEAS_BASE_HI 0x1, G GNS_NAV_BASE_HI 0x1, G GNS_IMU_BASE_HI 0x1, G GNS_ACQ_BASE_LO 0x400000, G GNS_MEAS_BASE_LO 0x100000, G GNS_NAV_BASE_LO 0x200000, G GNS_IMU_BASE_LO 0x300000]
def g1 (f : Gns → Gns) (s : State) : State := { s with gns := f s.gns }
def gl (l : R) : State := on 2 (gB ++ l)
def ch (c : Nat) (x : GnsCh) (s : State) : State := g1 (fun g => { g with ch := g.ch.set {} c x }) s
def ac (s : State) : State := g1 (fun x => { x with acq := some 0x1004003E0 }) s
def aent : List Byte := [1,5,0,0,0,0,0,0,0,0,0,0,1,1,1,0]
def en (b : List Byte) (s : State) : State := s.wrBytes (0x100000000+7*32) b
def c7 : State := gl [G 4 7, G 8 1]
def z1 : State := gl []
def z2 : State := gl [G GNS_ACQ_CFG 0x100]
def z3 : State := ac (gl [G GNS_ACQ_CFG 0x30100, G GNS_ACQ_TAIL 0xFFFF, G GNS_ACQ_HEAD 0])
def z4 : State := ac (gl [G GNS_ACQ_CFG 0x30100, G GNS_ACQ_TAIL 5, G GNS_ACQ_HEAD 9])
def z5 : State := gl [G 4 512, G 8 1]
def z6 : State := gl [G 4 7, G 8 1]
def z7 : State := en aent c7
def z8 : State := ch 7 {state := 2} (en aent c7)
def z9 : State := ch 511 {state := 1, entry := [1]} (gl [])
def z10 : State := ch 7 {state := 1} (gl [])

theorem test_witness_gnssChannels :
    ((z1.gns.acq.isSome = true ∨ z1.bit Block.GNS GNS_ACQ_CFG 8 = false)) ∧
    (z2.gns.acq = none ∧ z2.bit Block.GNS GNS_ACQ_CFG 8 = true ∧ fld 65537 15 0 ≠ z2.f Block.GNS GNS_ACQ_TAIL 15 0 ∧ z2.acqAddr + 32 ≤ 16642998272) ∧
    (z1.gns.acq = none) ∧
    (z3.gns.acq = some 4299162592 ∧ 4299162592 + 32 ≤ 16642998272 ∧ (z3.bit Block.GNS GNS_ACQ_CFG 8 = false ∨ z3.f Block.GNS GNS_ACQ_HEAD 15 0 = (z3.f Block.GNS GNS_ACQ_TAIL 15 0 + 1) % 65536)) ∧
    (z4.gns.acq = some 4299162592 ∧ 4299162592 + 32 ≤ 16642998272 ∧ z4.bit Block.GNS GNS_ACQ_CFG 8 = true ∧ z4.f Block.GNS GNS_ACQ_HEAD 15 0 ≠ (z4.f Block.GNS GNS_ACQ_TAIL 15 0 + 1) % 65536) ∧
    (Idle z5 Block.GNS ∧ chRange (z5.cmdArgs Block.GNS) = none) ∧
    (Idle z6 Block.GNS ∧ z6.rd Block.GNS 4 = wordN 7 ∧ z6.rd Block.GNS 8 = 1 ∧ (z6.rdBytes (z6.chtAddr 7) 32).headD 0 = 0) ∧
    (Idle z7 Block.GNS ∧ z7.rd Block.GNS 4 = wordN 7 ∧ z7.rd Block.GNS 8 = 1 ∧ (z7.rdBytes (z7.chtAddr 7) 32).headD 0 ≠ 0 ∧ ((z7.gc 7).state = 0 ∨ (z7.gc 7).state = 3)) ∧
    (Idle z8 Block.GNS ∧ z8.rd Block.GNS 4 = wordN 7 ∧ z8.rd Block.GNS 8 = 1 ∧ (z8.rdBytes (z8.chtAddr 7) 32).headD 0 ≠ 0 ∧ ((z8.gc 7).state = 1 ∨ (z8.gc 7).state = 2)) ∧
    ((z1.gc 7).state ≠ 1) ∧
    ((z9.gc 511).state = 1 ∧ z9.chtAddr 511 + 32 ≤ 16642998272) ∧
    (((z1.gc 7).state ≠ 1 ∧ (z1.gc 7).state ≠ 2 ∨ z1.lostWhy (z1.gc 7) (2 + 1) = false)) ∧
    (((z10.gc 7).state = 1 ∨ (z10.gc 7).state = 2) ∧ z10.lostWhy (z10.gc 7) (2 + 1) = true) := by
  refine ⟨?_, ?_, ?_, ?_, ?_, ?_, ?_, ?_, ?_, ?_, ?_, ?_, ?_⟩ <;> first | (unfold Idle; decide +kernel) | decide +kernel

end Sys2Proof.Tests.GnssChannels

namespace Sys2Proof.Tests.GnssData

def G (o v : Nat) : Block × Nat × Nat := (.GNS, o, v)
def gB : R := [G GNS_ACQ_BASE_HI 0x1, G GNS_CHT_BASE_HI 0x1, G GNS_MEAS_BASE_HI 0x1, G GNS_NAV_BASE_HI 0x1, G GNS_IMU_BASE_HI 0x1, G GNS_ACQ_BASE_LO 0x400000, G GNS_MEAS_BASE_LO 0x100000, G GNS_NAV_BASE_LO 0x200000, G GNS_IMU_BASE_LO 0x300000]
def g1 (f : Gns → Gns) (s : State) : State := { s with gns := f s.gns }
def gl (l : R) : State := on 2 (gB ++ l)
def ch (c : Nat) (x : GnsCh) (s : State) : State := g1 (fun g => { g with ch := g.ch.set {} c x }) s
def z1 : State := g1 (fun g => { g with epochs := 2^32-1 }) ((gl []).putNow 12345678901)
def z2 : State := gl []
def z3 : State := g1 (fun g => { g with navs := 2^32-1 }) (ch 7 {state := 2, entry := [0x0C]} (gl []))
def z4 : State := gl [G (GNS_ANT_CFG 1) 0x80000000, G (GNS_ANT_STATUS 1) 0x300]
def z5 : State := gl [G (GNS_ANT_CFG 1) 0x80000000, G (GNS_ANT_STATUS 1) 0x200]
def z6 : State := gl [G (GNS_ANT_STATUS 1) 0x200]
def z7 : State := gl [G GNS_CFG 0x10000, G GNS_IMU_HEAD 0xFFFFFFFF]
def z8 : State := ch 7 {state := 2} (on 5)
def z9 : State := gl [G (GNS_CH_LOSS 3) 5, G (GNS_ANT_STATUS 1) 0x50300]
def z10 : State := on 2 [(.GNS, GNS_CFG, 0)]

theorem test_witness_gnssData :
    (z1.gns.epochs < 2 ^ 32 ∧ z1.gnsBase GNS_MEAS_BASE_LO GNS_MEAS_BASE_HI 15 + 32768 * (z1.gns.epochs % 2 ^ clampN 1 4 (z1.f Block.GNS GNS_MEAS_CFG 3 0)) + 32768 ≤ 16642998272 ∧ (∀ (c : Nat), c < 512 → z1.chtAddr c + 32 ≤ z1.gnsBase GNS_MEAS_BASE_LO GNS_MEAS_BASE_HI 15 + 32768 * (z1.gns.epochs % 2 ^ clampN 1 4 (z1.f Block.GNS GNS_MEAS_CFG 3 0)) ∨ z1.gnsBase GNS_MEAS_BASE_LO GNS_MEAS_BASE_HI 15 + 32768 * (z1.gns.epochs % 2 ^ clampN 1 4 (z1.f Block.GNS GNS_MEAS_CFG 3 0)) + 32768 ≤ z1.chtAddr c)) ∧
    ((z2.gc 7).state ≠ 2) ∧
    ((z3.gc 7).state = 2 ∧ z3.gns.navs < 2 ^ 32 ∧ z3.gnsBase GNS_NAV_BASE_LO GNS_NAV_BASE_HI 7 + 128 * (z3.gns.navs % 2 ^ clampN 6 14 (z3.f Block.GNS GNS_NAV_CFG 3 0)) + 128 ≤ 16642998272) ∧
    (z4.bit Block.GNS (GNS_ANT_CFG 1) 31 = true ∧ z4.f Block.GNS (GNS_ANT_STATUS 1) 9 8 = 3) ∧
    (z5.bit Block.GNS (GNS_ANT_CFG 1) 31 = true ∧ z5.f Block.GNS (GNS_ANT_STATUS 1) 9 8 ≠ 3 ∧ z5.pwr.phase ≠ Phase.loss) ∧
    ((z6.bit Block.GNS (GNS_ANT_CFG 1) 31 = false ∨ z6.pwr.phase = Phase.loss ∧ z6.f Block.GNS (GNS_ANT_STATUS 1) 9 8 ≠ 3)) ∧
    (z6.f Block.GNS (GNS_ANT_STATUS 1) 9 8 ≠ 3) ∧
    (z4.f Block.GNS (GNS_ANT_STATUS 1) 9 8 = 3 ∧ z4.bit Block.GNS (GNS_ANT_CFG 1) 31 = true ∧ z4.pwr.phase ≠ Phase.loss) ∧
    (z7.bit Block.GNS GNS_CFG 16 = true ∧ z7.gnsBase GNS_IMU_BASE_LO GNS_IMU_BASE_HI 5 + 32 * (z7.rdN Block.GNS GNS_IMU_HEAD % 2 ^ clampN 6 14 (z7.f Block.GNS GNS_IMU_CFG 3 0)) + 32 ≤ 16642998272) ∧
    (Idle z2 Block.GNS ∧ z2.mode ≠ 1 ∧ z2.mode ≠ 5) ∧
    (Idle z8 Block.GNS ∧ (z8.mode = 1 ∨ z8.mode = 5)) ∧
    (Idle z9 Block.GNS) ∧
    (z10.bit Block.GNS GNS_CFG 16 = false) := by
  refine ⟨?_, ?_, ?_, ?_, ?_, ?_, ?_, ?_, ?_, ?_, ?_, ?_, ?_⟩ <;> first | (unfold Idle; decide +kernel) | decide +kernel

end Sys2Proof.Tests.GnssData

namespace Sys2Proof.Tests.DeviceTime

def T (o v : Nat) : Block × Nat × Nat := (.TIM, o, v)
def at' (n : Nat) (s : State) : State := s.putNow n
def tm (f : Tim → Tim) (s : State) : State := { s with tim := f s.tim }
def pv (s : State) : State := tm (fun t => { t with prev := some (3000, 99 * 65536) }) s
def c1 (st lo hi : Nat) : State := pv (at' 5000 (on 2 [T TIM_STATUS st, T TIM_CORR_NS_LO lo, T TIM_CORR_NS_HI hi, T TIM_CORR_FRAC 0x8000, T TIM_RATE 7]))
def tmsg : State := tm (fun t => { t with msg := some { id := 0, fmt := 0, time := 0, data := [] }, pulseAt := some 7 }) (on 2)
def z1 : State := at' 5000 (on 2 [T TIM_CORR_REJ 0xFFFFFFFF])
def z2 : State := at' 5000 (on 2 [T TIM_CORR_ACC 1001])
def z3 : State := at' 5000 (on 2 [T TIM_CORR_ACC 1000, T TIM_STATUS 2])
def z4 : State := tm (fun t => { t with prev := some (3000, 90) }) (at' 5000 (on 2 [T TIM_CORR_ACC 1000, T TIM_STATUS 3]))
def z5 : State := c1 0 99 0
def z6 : State := on 2 [T TIM_STATUS 2]
def z7 : State := tm (fun t => { t with dk := 5, acceptAt := some 100 }) (on 2 [T TIM_STATUS 4])
def z8 : State := tm (fun t => { t with rest := 5, testWait := true }) (on 2 [T TIM_STATUS 4])
def z9 : State := on 2 [T TIM_STATUS 3]
def z10 : State := on 2
def z11 : State := tm (fun t => { t with slew := 5 }) (at' 1000000000 (on 2 [T TIM_STATUS 0x22]))
def z12 : State := tm (fun t => { t with dk := 5, total := 5 }) (at' 5000000001 (on 2 [T TIM_STATUS 4]))
def z13 : State := tm (fun t => { t with marks := List.replicate 16 3 }) (on 2)
def z14 : State := tm (fun t => { t with marks := [2^35+7, 3] }) (on 2)
def z15 : List Nat := [3]
def z16 : State := tm (fun t => { t with marks := [2^35+7, 3], mark := some (2^35+7) }) (on 2)
def z17 : State := on 5 [T 4 9]
def z18 : State := on 5 [T 4 10]
def z19 : State := on 5 [T 4 3600, T TIM_STATUS 4]
def z20 : State := on 2 [T 4 3601]
def z21 : State := on 5
def z22 : State := on 5 [T TIM_STATUS 0x82]
def z23 : State := on 5 [T TIM_STATS 6, T TIM_CORR_REJ 5]

theorem test_witness_deviceTime :
    (z1.corrOk (z1.now - (z1.now + 2 ^ 32 - 4000) % 2 ^ 32) z1.corrDelta = false) ∧
    ((1000 < z2.rdN Block.TIM TIM_CORR_ACC ∨ 4000 + sec < z2.now ∨ z2.bit Block.TIM TIM_STATUS 7 = true)) ∧
    (¬(1000 < z3.rdN Block.TIM TIM_CORR_ACC ∨ 4000 + sec < z3.now ∨ z3.bit Block.TIM TIM_STATUS 7 = true) ∧ (z3.timState = 2 ∨ z3.timState = 4)) ∧
    (¬(1000 < z4.rdN Block.TIM TIM_CORR_ACC ∨ 4000 + sec < z4.now ∨ z4.bit Block.TIM TIM_STATUS 7 = true) ∧ z4.timState ≠ 2 ∧ z4.timState ≠ 4) ∧
    (z5.corrOk (z5.now - (z5.now + 2 ^ 32 - 4000) % 2 ^ 32) z5.corrDelta = true ∧ z5.timState ≤ 4) ∧
    (z6.timState = 2) ∧
    (z7.timState = 4 ∧ z7.tim.dk ≠ 0) ∧
    (z8.timState = 4 ∧ z8.tim.dk = 0) ∧
    (z9.timState ≠ 2 ∧ z9.timState ≠ 4) ∧
    (z10.tim.slew = 0) ∧
    (z11.tim.slew ≠ 0) ∧
    ((z10.tim.dk = 0 ∨ z10.tim.rest ≠ 0 ∨ z10.tim.lost = true)) ∧
    (z12.tim.dk ≠ 0 ∧ z12.tim.rest = 0 ∧ z12.tim.lost = false ∧ z12.tim.extra = none) ∧
    (z10.tim.marks.length < 16) ∧
    (16 ≤ z13.tim.marks.length) ∧
    (z10.tim.marks = []) ∧
    (z14.tim.marks = (2 ^ 35 + 7) :: z15) ∧
    (z10.tim.mark = none) ∧
    (z16.tim.mark = some (2 ^ 35 + 7)) ∧
    (Idle z16 Block.TIM) ∧
    (Idle z17 Block.TIM ∧ z17.mode = 5 ∧ (z17.rdN Block.TIM 4 < 10 ∨ 3600 < z17.rdN Block.TIM 4)) ∧
    (Idle z18 Block.TIM ∧ z18.mode = 5 ∧ 10 ≤ z18.rdN Block.TIM 4 ∧ z18.rdN Block.TIM 4 ≤ 3600 ∧ z18.timState ≠ 4) ∧
    (Idle z19 Block.TIM ∧ z19.mode = 5 ∧ 10 ≤ z19.rdN Block.TIM 4 ∧ z19.rdN Block.TIM 4 ≤ 3600 ∧ z19.timState = 4) ∧
    (Idle z20 Block.TIM ∧ z20.mode ≠ 5) ∧
    (z21.bit Block.TIM TIM_STATUS 7 = false) ∧
    (z22.bit Block.TIM TIM_STATUS 7 = true) ∧
    (Idle z23 Block.TIM) ∧
    (z21.tim.msg = none) ∧
    (tmsg.tim.msg.isSome = true) := by
  refine ⟨?_, ?_, ?_, ?_, ?_, ?_, ?_, ?_, ?_, ?_, ?_, ?_, ?_, ?_, ?_, ?_, ?_, ?_, ?_, ?_, ?_, ?_, ?_, ?_, ?_, ?_, ?_, ?_, ?_⟩ <;> first | (unfold Idle; decide +kernel) | decide +kernel

end Sys2Proof.Tests.DeviceTime

namespace Sys2Proof.Tests.CropInputs

def A (r : Nat → Nat) (v : Nat) (n : Nat := 5) : Block × Nat × Nat := (.AIO, r n, v)
def fi (f : FinCh) (l : R := []) : State := let s := on 2 l; { s with aio := { s.aio with fin := s.aio.fin.set {} 5 f } }
def z1 : State := on 2 [A AIO_AIN_CFG 0xC0000000]
def z2 : List Int := [(235929:Int)]
def z3 : List Int := [(235930:Int)]
def z4 : State := on 2 [A AIO_AIN_STATUS 0xC0]
def z5 : State := on 2 [A AIO_AIN_STATUS 0x80]
def z6 : State := fi {}
def z7 : State := fi {} [A AIO_FIN_CFG 0x20020000]
def z8 : State := fi { lastEdge := some 100, edges := [100] } [A AIO_FIN_CFG 0x20020000]
def z9 : State := fi {} [A AIO_FIN_CFG 0x30020000]
def z10 : State := fi { lastEdge := some 100 } [A AIO_FIN_CFG 0x30020000, A AIO_FIN_PERIOD 555]
def z11 : State := fi {} [A AIO_FIN_FREQ 55000001]
def z12 : State := fi {} [A AIO_FIN_FREQ 49999999, A AIO_FIN_STATUS 8]
def z13 : State := fi {} [A AIO_FIN_FREQ 55000001, A AIO_FIN_STATUS 8]
def z14 : State := on 2 [A AIO_LOSS_THRESH 0x1000]
def z15 : State := on 2 [A AIO_LOSS_CFG 0x80001005, A AIO_LOSS_THRESH 0x20001000]
def z16 : State := on 2
def z17 : State := on 2 [A AIO_LOSS_CFG 0x80001005]
def z18 : State := on 2 [A AIO_SUP_CFG 1]
def z19 : State := on 2 [A AIO_SUP_STATUS 2, A AIO_SUP_CFG 1]
def z20 : State := on 2 [(.AIO, 4, 5), A AIO_AIN_STATUS 0x10080, A AIO_FIN_STATUS 0x10080, A AIO_LOSS_REJECT 7]
def z21 : State := on 2 [(.AIO, 4, 0xFF)]
def z22 : State := on 2 [(.AIO, 4, 0xFF), A AIO_LOSS_CFG 0x80001005, A AIO_LOSS_CFG 0x80001005 2]

theorem test_witness_cropInputs :
    ((z1.ainCond 5 AinFlag.under (BitVec.toInt (if z1.ainMode 5 = 0 ∨ z2 = [] then z1.rd Block.AIO (AIO_AIN_VALUE 5) else wordI (meanOf (List.take (2 ^ z1.f Block.AIO (AIO_AIN_CFG 5) 29 27) (z2.reverse ++ z1.aio.ain.get [] 5))))) = true) ∧ z1.bit Block.AIO (AIO_AIN_STATUS 5) (ainFlagBit AinFlag.under) = false ∧ (AinFlag.under = AinFlag.burden ∨ z1.ainCond 5 AinFlag.under (BitVec.toInt (if z1.ainMode 5 = 0 ∨ z2 = [] then z1.rd Block.AIO (AIO_AIN_VALUE 5) else wordI (meanOf (List.take (2 ^ z1.f Block.AIO (AIO_AIN_CFG 5) 29 27) (z2.reverse ++ z1.aio.ain.get [] 5))))) = true)) ∧
    ((z1.ainCond 5 AinFlag.under (BitVec.toInt (if z1.ainMode 5 = 0 ∨ z3 = [] then z1.rd Block.AIO (AIO_AIN_VALUE 5) else wordI (meanOf (List.take (2 ^ z1.f Block.AIO (AIO_AIN_CFG 5) 29 27) (z3.reverse ++ z1.aio.ain.get [] 5))))) = false ∨ z1.bit Block.AIO (AIO_AIN_STATUS 5) (ainFlagBit AinFlag.under) = true) ∧ AinFlag.under ≠ AinFlag.burden ∧ (z1.ainCond 5 AinFlag.under (BitVec.toInt (if z1.ainMode 5 = 0 ∨ z3 = [] then z1.rd Block.AIO (AIO_AIN_VALUE 5) else wordI (meanOf (List.take (2 ^ z1.f Block.AIO (AIO_AIN_CFG 5) 29 27) (z3.reverse ++ z1.aio.ain.get [] 5))))) = false)) ∧
    (z4.bit Block.AIO (AIO_AIN_STATUS 5) 6 = true) ∧
    (z5.bit Block.AIO (AIO_AIN_STATUS 5) 6 = false) ∧
    (z6.finOn 5 = false) ∧
    (z7.finOn 5 = true ∧ ((match (z7.aio.fin.get { } 5).since with     | some u => min 1999 (z7.clk.up + 10000 - 2000 - u)     | none => 1999) <     clampN 1 100 (z7.f Block.AIO (AIO_FIN_CFG 5) 23 16) * 1000 ∨   2000 < clampN 1 100 (z7.f Block.AIO (AIO_FIN_CFG 5) 23 16) * 1000)) ∧
    (z8.finOn 5 = true ∧ (clampN 1 100 (z8.f Block.AIO (AIO_FIN_CFG 5) 23 16) * 1000 ≤   match (z8.aio.fin.get { } 5).since with   | some u => min 2000 (z8.clk.up + 10000 - 2000 - u)   | none => 2000) ∧ clampN 1 100 (z8.f Block.AIO (AIO_FIN_CFG 5) 23 16) * 1000 ≤ 2000) ∧
    (z9.finOn 5 = true ∧ (z9.aio.fin.get { } 5).edges = [] ∧ (z9.aio.fin.get { } 5).lastEdge = none) ∧
    (z10.finOn 5 = true ∧ (z10.aio.fin.get { } 5).edges = [] ∧ (z10.aio.fin.get { } 5).lastEdge = some 100 ∧ z10.clk.up + 10000 ≤ 100 + max 1 (z10.f Block.AIO (AIO_FIN_CFG 5) 7 0) * 100000000) ∧
    (55000000 < z11.rdN Block.AIO (AIO_FIN_FREQ 5) ∧ z11.bit Block.AIO (AIO_FIN_STATUS 5) 3 = false) ∧
    (z12.rdN Block.AIO (AIO_FIN_FREQ 5) < 50000000) ∧
    (50000000 ≤ z13.rdN Block.AIO (AIO_FIN_FREQ 5) ∧ (z13.rdN Block.AIO (AIO_FIN_FREQ 5) ≤ 55000000 ∨ z13.bit Block.AIO (AIO_FIN_STATUS 5) 3 = true)) ∧
    ((bitOf (z14.rd Block.AIO (AIO_LOSS_CFG 5)) 31 = false ∨ 4097 ≤ fld (z14.rd Block.AIO (AIO_LOSS_THRESH 5)) 15 0)) ∧
    (bitOf (z15.rd Block.AIO (AIO_LOSS_CFG 5)) 31 = true ∧ fld (z15.rd Block.AIO (AIO_LOSS_THRESH 5)) 15 0 < 4097 ∧ 4097 ≤ fld (z15.rd Block.AIO (AIO_LOSS_THRESH 5)) 31 16 ∧ fld (z15.rd Block.AIO (AIO_LOSS_CFG 5)) 7 0 ≤ 5 ∧ 5 ≤ fld (z15.rd Block.AIO (AIO_LOSS_CFG 5)) 15 8 ∧ (∀ (u : Nat), (z15.aio.loss.get { } 5).last = some u → u + max 1 (fld (z15.rd Block.AIO (AIO_LOSS_CFG 5)) 23 16) * 1000 ≤ z15.clk.up + 10)) ∧
    (bitOf (z15.rd Block.AIO (AIO_LOSS_CFG 5)) 31 = true ∧ fld (z15.rd Block.AIO (AIO_LOSS_THRESH 5)) 15 0 < 4097 ∧ (4 < fld (z15.rd Block.AIO (AIO_LOSS_CFG 5)) 7 0 ∨ fld (z15.rd Block.AIO (AIO_LOSS_CFG 5)) 15 8 < 4)) ∧
    (z16.bit Block.AIO (AIO_LOSS_CFG 5) 31 = false) ∧
    (z17.bit Block.AIO (AIO_LOSS_CFG 5) 31 = true) ∧
    ((z16.bit Block.AIO (AIO_SUP_CFG 5) 0 = false ∨ z16.f Block.AIO (AIO_SUP_STATUS 5) 1 0 = 2)) ∧
    (z18.bit Block.AIO (AIO_SUP_CFG 5) 0 = true ∧ z18.f Block.AIO (AIO_SUP_STATUS 5) 1 0 ≠ 2) ∧
    ((z16.bit Block.AIO (AIO_SUP_CFG 5) 0 = false ∨ z16.f Block.AIO (AIO_SUP_STATUS 5) 1 0 ≠ 2)) ∧
    (z19.bit Block.AIO (AIO_SUP_CFG 5) 0 = true ∧ z19.f Block.AIO (AIO_SUP_STATUS 5) 1 0 = 2) ∧
    (Idle z20 Block.AIO) ∧
    (Idle z21 Block.AIO ∧ (List.filter (fun n => z21.bit Block.AIO 4 n && z21.bit Block.AIO (AIO_LOSS_CFG n) 31) (upto 8) = [])) ∧
    (Idle z22 Block.AIO ∧ (List.filter (fun n => z22.bit Block.AIO 4 n && z22.bit Block.AIO (AIO_LOSS_CFG n) 31) (upto 8) ≠ [])) := by
  refine ⟨?_, ?_, ?_, ?_, ?_, ?_, ?_, ?_, ?_, ?_, ?_, ?_, ?_, ?_, ?_, ?_, ?_, ?_, ?_, ?_, ?_, ?_, ?_, ?_⟩ <;> first | (unfold Idle; decide +kernel) | decide +kernel

end Sys2Proof.Tests.CropInputs

namespace Sys2Proof.Tests.TabletopCycles

def T (o v : Nat) : Block × Nat × Nat := (.TBL, o, v)
def run (l : R := []) : State := on 2 ([T 0x20 1] ++ l)
def tb (f : Tbl → Tbl) (s : State) : State := { s with tbl := f s.tbl }
def sl (n : Nat) (c : TblSlot) (s : State) : State := tb (fun t => { t with slot := t.slot.set {} n c }) s
def cy : TblCyc := { num := 7, cut := 50000000, stamps := [], secs := [], trust := SMap.empty, voted := [] }
def z1 : State := on 2
def z2 : State := sl 3 { latest := some 44, buf := 1 } (tb (fun t => { t with cyc := some cy, num := 2^32-1, slots := 8, cover := t.cover.set false (3*256+7) true }) run)
def z3 : State := bytesAt (tblBase+0x1000000) [1,2,3] (bytesAt tblBase [1,2,3] (tb (fun t => { t with cfg := 0x20000 }) run))
def z4 : State := mail .TBL 1 [] (tb (fun t => { t with startAt := 40000000 }) (on 2 [T 0x20 2]))
def z5 : State := run
def z6 : State := tb (fun t => { t with cyc := some cy }) (run [T 0x20 0x61])
def z7 : State := tb (fun t => { t with reads := (5, 135000001) }) run

theorem test_witness_tabletopCycles :
    ((z1.tblRun = false ∧ (z1.tblStarting = false ∨ 50000000 < z1.tbl.startAt + 10000000) ∨ 50000000 < z1.now ∨ z1.tbl.lastCut = some 50000000 ∨ 50000000 % 50000000 ≠ z1.tbl.phase * 1000000)) ∧
    (z2.tblRun = true ∧ z2.bit Block.TBL TBL_STATUS 2 = false ∧ z2.now ≤ 100000000 ∧ z2.tbl.lastCut ≠ some 100000000 ∧ 100000000 % 50000000 = z2.tbl.phase * 1000000 ∧ z2.tblStarting = false ∧ z2.buildHeld ≤ 100000000 + 35000000) ∧
    (z3.tblRun = true ∧ z3.bit Block.TBL TBL_STATUS 2 = false ∧ z3.now ≤ 100000000 ∧ z3.tbl.lastCut ≠ some 100000000 ∧ 100000000 % 50000000 = z3.tbl.phase * 1000000 ∧ z3.tblStarting = false ∧ z3.buildHeld ≤ 100000000 + 35000000) ∧
    (z4.tblRun = false ∧ z4.tblStarting = true ∧ z4.bit Block.TBL TBL_STATUS 2 = false ∧ z4.tbl.swap = none ∧ z4.tbl.startAt + 10000000 ≤ 50000000 ∧ z4.now ≤ 50000000 ∧ z4.tbl.lastCut ≠ some 50000000 ∧ z4.buildHeld ≤ 50000000 + 35000000 ∧ 50000000 % 50000000 = z4.tbl.phase * 1000000 ∧ (z4.mailOf Block.TBL).code = 1) ∧
    (z5.tbl.cyc = none) ∧
    (z6.tbl.cyc = some cy) ∧
    (z6.tbl.cyc = some cy ∧ cy.cut + 35000000 < max (z6.pass 85000001).now z6.tbl.writes) ∧
    (z6.tbl.cyc = some cy ∧ max (z6.pass 85000000).now z6.tbl.writes ≤ cy.cut + 35000000) ∧
    (z7.tblRun = true ∧ z7.bit Block.TBL TBL_STATUS 2 = false ∧ z7.now ≤ 100000000 ∧ z7.tbl.lastCut ≠ some 100000000 ∧ 100000000 % 50000000 = z7.tbl.phase * 1000000 ∧ z7.tblStarting = false ∧ 100000000 + 35000000 < z7.buildHeld ∧ z7.tbl.cyc = none) := by
  refine ⟨?_, ?_, ?_, ?_, ?_, ?_, ?_, ?_, ?_⟩ <;> decide +kernel

end Sys2Proof.Tests.TabletopCycles

namespace Sys2Proof.Tests.TabletopSamplesAndCommands

def T (o v : Nat) : Block × Nat × Nat := (.TBL, o, v)
def run (l : R := []) : State := on 2 ([T 0x20 1] ++ l)
def tb (f : Tbl → Tbl) (s : State) : State := { s with tbl := f s.tbl }
def sl (n : Nat) (c : TblSlot) (s : State) : State := tb (fun t => { t with slot := t.slot.set {} n c }) s
def B (n v : Nat) : List Byte := leBytes n v
def frag (ver : Nat) (p : List Byte) : List Byte := B 2 0x7B5A ++ B 1 ver ++ B 1 9 ++ B 4 77 ++ B 8 (315964819000000000+123) ++ B 2 0 ++ B 2 1 ++ B 1 0 ++ B 3 0 ++ B 4 p.length ++ B 4 (crc32c p) ++ p
def frag2 (fr idx len : Nat) (p : List Byte) : List Byte := B 2 0x7B5A ++ B 1 1 ++ B 1 9 ++ B 4 77 ++ B 8 (315964819000000000+123) ++ B 2 idx ++ B 2 fr ++ B 1 0 ++ B 3 0 ++ B 4 len ++ B 4 (crc32c p) ++ p
def r9 : State := tb (fun t => { t with slots := 0x200 }) run
def cy : TblCyc := { num := 7, cut := 50000000, stamps := [], secs := [], trust := SMap.empty, voted := [] }
def z1 : State := run
def z2 : State := tb (fun t => { t with slots := 0x100, lastCut := some 9 }) (sl 8 { enc := [5, 6], silent := true } run)
def z3 : State := tb (fun t => { t with slots := 8 }) run
def z4 : State := sl 9 { asm := some ⟨1,1,1,1,1,SMap.empty⟩ } run
def z5 : List Byte := []
def z6 : List Byte := frag 1 [1,2,3]
def z7 : State := tb (fun t => { t with slots := 0x200 }) run
def z8 : List Byte := B 3 0 ++ B 1 5
def z9 : List Byte := frag2 2 0 1445 [1,2,3,4,5]
def z10 : State := on 0
def z11 : State := tb (fun t => { t with cyc := some cy }) run
def z12 : State := run [T 4 1]
def z13 : State := on 2 []
def z14 : State := mail .TBL 3 [0x21] (tb (fun t => { t with swap := some 0x21 }) (run [T 4 1, T (TBL_SLOT_BANK 5) 4]))
def z15 : State := on 1
def z16 : State := on 2
def z17 : State := on 1 [T 4 0xF, T TBL_SKIP 5, T TBL_TIMING 0x10005, T TBL_KAT 6, T 0x20 0x80, T (TBL_SLOT_ERR 3) 5]

/-- A bank whose transform has a bottom row other than [0, 0, 0, 1] is refused, whatever its CRC. -/
theorem alignCheck_bottom {k : Nat} {bs : List Byte} (h : (((bankFloats bs 0 16).drop 12).zip [0, 0, 0, 1]).any
    (fun p => !nearInt (p.1.getD 0) p.2) = true) : alignCheck k bs ≠ .ok := by
  unfold alignCheck
  split
  · decide
  · simp [h]
theorem firstRefusal_one {r : Nat → Result} (h : r 0 ≠ .ok) : firstRefusal ([0].map r) ≠ .ok := by
  show firstRefusal [r 0] ≠ .ok
  cases hr : r 0 <;> first | exact absurd hr h | (rw [hr] at h; simp [firstRefusal])
theorem test_witness_tabletopSamplesAndCommands :
    ((z1.tblRun = false ∧ z1.tblStarting = false ∨ z1.tbl.enabled 3 = false ∨ z1.slotHolds 3 5 = false)) ∧
    ((z2.tblRun = true ∨ z2.tblStarting = true) ∧ z2.tbl.enabled 8 = true ∧ z2.slotHolds 8 5 = true) ∧
    ((z1.tblRun = false ∧ z1.tblStarting = false ∨ z1.tbl.enabled 3 = false ∨ (z1.tslot 3).silent = true)) ∧
    ((z3.tblRun = true ∨ z3.tblStarting = true) ∧ z3.tbl.enabled 3 = true ∧ (z3.tslot 3).silent = false) ∧
    ((z1.tslot 3).asm = none) ∧
    ((z4.tslot 9).asm.isSome = true) ∧
    ((z5.length < 4 ∨ 15 < leNat (List.take 1 (List.drop 3 z5)))) ∧
    (4 ≤ z6.length ∧ 8 ≤ leNat (List.take 1 (List.drop 3 z6)) ∧ leNat (List.take 1 (List.drop 3 z6)) ≤ 15 ∧ (z1.tblRun = false ∧ z1.tblStarting = false ∨ leNat (List.take 2 (List.drop 0 z6)) ≠ 31578 ∨ leNat (List.take 1 (List.drop 2 z6)) ≠ 1 ∨ z1.tbl.enabled (leNat (List.take 1 (List.drop 3 z6))) = false ∨ leNat (List.take 1 (List.drop 20 z6)) ≠ slotKind (z1.tslot (leNat (List.take 1 (List.drop 3 z6)))).cfg ∨ z6.length < 32 ∨ z6.length - 32 + (leNat (List.take 2 (List.drop 18 z6)) - 1) * 1440 < leNat (List.take 4 (List.drop 24 z6)))) ∧
    (8 ≤ leNat (List.take 1 (List.drop 3 z6)) ∧ leNat (List.take 1 (List.drop 3 z6)) ≤ 15 ∧ (z7.tblRun = true ∨ z7.tblStarting = true) ∧ leNat (List.take 2 (List.drop 0 z6)) = 31578 ∧ leNat (List.take 1 (List.drop 2 z6)) = 1 ∧ z7.tbl.enabled (leNat (List.take 1 (List.drop 3 z6))) = true ∧ leNat (List.take 1 (List.drop 20 z6)) = slotKind (z7.tslot (leNat (List.take 1 (List.drop 3 z6)))).cfg ∧ 32 ≤ z6.length ∧ leNat (List.take 4 (List.drop 24 z6)) ≤ z6.length - 32 + (leNat (List.take 2 (List.drop 18 z6)) - 1) * 1440 ∧ (z7.tslot (leNat (List.take 1 (List.drop 3 z6)))).asm = none ∧ leNat (List.take 2 (List.drop 18 z6)) = 1 ∧ leNat (List.take 2 (List.drop 16 z6)) = 0 ∧ crc32c (List.take (leNat (List.take 4 (List.drop 24 z6))) (List.drop 32 z6)) = leNat (List.take 4 (List.drop 28 z6))) ∧
    (4 ≤ z8.length ∧ leNat (List.take 1 (List.drop 3 z8)) < 8) ∧
    (8 ≤ leNat (List.take 1 (List.drop 3 z9)) ∧ leNat (List.take 1 (List.drop 3 z9)) ≤ 15 ∧ (r9.tblRun = true ∨ r9.tblStarting = true) ∧ leNat (List.take 2 (List.drop 0 z9)) = 31578 ∧ leNat (List.take 1 (List.drop 2 z9)) = 1 ∧ r9.tbl.enabled (leNat (List.take 1 (List.drop 3 z9))) = true ∧ leNat (List.take 1 (List.drop 20 z9)) = slotKind (r9.tslot (leNat (List.take 1 (List.drop 3 z9)))).cfg ∧ 32 ≤ z9.length ∧ leNat (List.take 4 (List.drop 24 z9)) ≤ z9.length - 32 + (leNat (List.take 2 (List.drop 18 z9)) - 1) * 1440 ∧ (r9.tslot (leNat (List.take 1 (List.drop 3 z9)))).asm = none ∧ 2 ≤ leNat (List.take 2 (List.drop 18 z9))) ∧
    (Idle z1 Block.TBL ∧ z1.tblRun = true) ∧
    (Idle z10 Block.TBL ∧ z10.tblRun = false) ∧
    (z10.mode = 0 ∧ z10.bit Block.SYS SYS_MODE 7 = false) ∧
    (Idle z11 Block.TBL ∧ z11.tblRun = true ∧ z11.tbl.cyc.isSome = true) ∧
    (Idle z1 Block.TBL ∧ (z1.tblRun = false ∨ z1.tbl.cyc = none)) ∧
    (Idle z1 Block.TBL ∧ (firstRefusal (List.map (fun n => alignCheck (slotKind (if (z1.tblRun && z1.tbl.enabled n) = true then (z1.tslot n).cfg else z1.rd Block.TBL (TBL_SLOT_CFG n))) (z1.alignBytes n !z1.alignActive n)) (bitsOf (z1.f Block.TBL 4 15 0) 16)) = Result.ok) ∧ z1.tblRun = true) ∧
    (Idle z12 Block.TBL ∧ (firstRefusal (List.map (fun n => alignCheck (slotKind (if (z12.tblRun && z12.tbl.enabled n) = true then (z12.tslot n).cfg else z12.rd Block.TBL (TBL_SLOT_CFG n))) (z12.alignBytes n !z12.alignActive n)) (bitsOf (z12.f Block.TBL 4 15 0) 16)) ≠ Result.ok)) ∧
    (Idle z13 Block.TBL ∧ (firstRefusal (List.map (fun n => alignCheck (slotKind (if (z13.tblRun && z13.tbl.enabled n) = true then (z13.tslot n).cfg else z13.rd Block.TBL (TBL_SLOT_CFG n))) (z13.alignBytes n !z13.alignActive n)) (bitsOf (z13.f Block.TBL 4 15 0) 16)) = Result.ok) ∧ z13.tblRun = false) ∧
    ((z14.mailOf Block.TBL).code = 3 ∧ fld (arg (z14.mailOf Block.TBL).args 0) 15 0 &&& z14.f Block.TBL 4 15 0 ≠ 0) ∧
    (Idle z1 Block.TBL) ∧
    (Idle z15 Block.TBL ∧ (z15.mode = 1 ∨ z15.mode = 5)) ∧
    (Idle z16 Block.TBL ∧ z16.mode ≠ 1 ∧ z16.mode ≠ 5) ∧
    (Idle z17 Block.TBL) := by
  refine ⟨?_, ?_, ?_, ?_, ?_, ?_, ?_, ?_, ?_, ?_, ?_, ?_, ?_, ?_, ?_, ?_, ?_, ?_, ?_, ?_, ?_, ?_, ?_, ?_⟩
  · decide +kernel
  · decide +kernel
  · decide +kernel
  · decide +kernel
  · decide +kernel
  · decide +kernel
  · decide +kernel
  · decide +kernel
  · decide +kernel
  · decide +kernel
  · decide +kernel
  · unfold Idle; decide +kernel
  · unfold Idle; decide +kernel
  · decide +kernel
  · unfold Idle; decide +kernel
  · unfold Idle; decide +kernel
  · unfold Idle; decide +kernel
  · refine ⟨by unfold Idle; decide +kernel, ?_⟩
    rw [show bitsOf (z12.f Block.TBL 4 15 0) 16 = [0] by decide +kernel]
    exact firstRefusal_one (alignCheck_bottom (by decide +kernel))
  · unfold Idle; decide +kernel
  · decide +kernel
  · unfold Idle; decide +kernel
  · unfold Idle; decide +kernel
  · unfold Idle; decide +kernel
  · unfold Idle; decide +kernel

end Sys2Proof.Tests.TabletopSamplesAndCommands

namespace Sys2Proof.Tests.MapEngine

def M (o v : Nat) : Block × Nat × Nat := (.MAP, o, v)
def mp (f : MapSt → MapSt) (s : State) : State := { s with map := f s.map }
def em : Block × Nat × Nat := (.HKP, HKP_CH_VALUE 27, 0x80000000 + 950)
def jz : Block × Nat × Nat := M MAP_JRNL_SIZE 4718608
def z1 : State := on 2
def z2 : State := mail .MAP 5 [] (on 2 [M MAP_CAL_N 2, M (MAP_CAL 1) 5])
def z3 : State := mp (fun m => { m with work := some { tick := 9 } }) (on 1 [M 0x20 2])
def z4 : MapWork := { tick := 9 }
def z5 : State := mp (fun m => { m with work := some { tick := 9 } }) (on 3 [M 0x20 2])
def z6 : State := (on 3 [M MAP_POSE_X 0xFFFFFFFF, M MAP_POSE_HDG 7]).putNow (2^33+5)
def z7 : State := mp (fun m => { m with dirty := [5] }) (on 3 [M 0x20 0x202])
def z8 : State := mp (fun m => { m with writing := some [6,5], dirty := [5] }) (on 3 [M 0x20 0x102])
def z9 : List Nat := [6,5]
def z10 : State := mp (fun m => { m with writing := some [6,5], dirty := [5] }) (on 3 [em, M MAP_JRNL_SIZE 4194322, M 0x20 0x102])
def z11 : State := mp (fun m => { m with writing := some [6,5], dirty := [5], work := some {} }) (on 3 [em, jz, M 0x20 0x102])
def z12 : State := bytesAt mapBase [1,2,3] (mp (fun m => { m with compact := some (5,6,7), work := some { id := 3, tick := 4 } }) (on 3 [em, jz, M 0x20 0x102]))
def z13 : MapWork := { id := 3, tick := 4 }

theorem test_witness_mapEngine :
    ((5 % 10000000 ≠ 0 ∨ 5 < z1.now)) ∧
    (10000000 % 10000000 = 0 ∧ z1.now ≤ 10000000 ∧ z1.mapState ≠ 2) ∧
    (10000000 % 10000000 = 0 ∧ z2.now ≤ 10000000 ∧ z2.map.staged = none) ∧
    (10000000 % 10000000 = 0 ∧ z3.now ≤ 10000000 ∧ z3.mapState = 2 ∧ z3.map.work = some z4 ∧ z3.mode ≠ 2 ∧ z3.mode ≠ 3 ∧ z3.mode ≠ 4 ∧ z3.map.line.cells = []) ∧
    (10000000 % 10000000 = 0 ∧ z5.now ≤ 10000000 ∧ z5.mapState = 2 ∧ z5.mode ∈ [2, 3, 4] ∧ z5.bit Block.MAP MAP_STATUS 3 = false ∧ z5.map.poses = [] ∧ z5.map.line.cells = []) ∧
    (2 ^ 32 ≤ z6.now) ∧
    ((z1.mapState ≠ 2 ∨ z1.map.writing.isSome = true ∨ z1.map.dirty = [])) ∧
    (z7.mapState = 2 ∧ z7.map.writing = none ∧ z7.map.dirty ≠ []) ∧
    (z1.map.writing = none) ∧
    (z8.map.writing = some z9 ∧ (true = false ∨ z8.emmcOk = false)) ∧
    (z10.map.writing = some z9 ∧ z10.emmcOk = true ∧ z10.entryFits z9 = false) ∧
    (z11.map.writing = some z9 ∧ z11.emmcOk = true ∧ z11.entryFits z9 = true) ∧
    ((z1.map.compact = none ∨ z1.map.work = none)) ∧
    (z12.map.compact = some (5, 6, 7) ∧ z12.map.work = some z13 ∧ (0 =   match z12.baseInUse with   | some (0, snd) => 1   | x => 0)) ∧
    (10000000 % 10000000 = 0 ∧ (mp (fun m => { m with staged := some (2, m.cal) }) (on 2)).now ≤ 10000000 ∧ (mp (fun m => { m with staged := some (2, m.cal) }) (on 2)).map.staged = some (2, (on 2).map.cal)) ∧
    ((mp (fun m => { m with zero := some (3, 4, 5) }) (on 2)).map.zero = some (3, 4, 5)) := by
  refine ⟨?_, ?_, ?_, ?_, ?_, ?_, ?_, ?_, ?_, ?_, ?_, ?_, ?_, ?_, ?_, ?_⟩ <;> decide +kernel

end Sys2Proof.Tests.MapEngine

namespace Sys2Proof.Tests.MapCommands

def M (o v : Nat) : Block × Nat × Nat := (.MAP, o, v)
def mp (f : MapSt → MapSt) (s : State) : State := { s with map := f s.map }
def em : Block × Nat × Nat := (.HKP, HKP_CH_VALUE 27, 0x80000000 + 950)
def jz : Block × Nat × Nat := M MAP_JRNL_SIZE 4718608
def bs : MapBase := { id := 3, seq := 5, off := 6, empty := true, tick := 9, desc := [] }
def wb (s : State) : State := mp (fun m => { m with base := m.base.set none 1 (some bs) }) s
def okm : R := [em, jz, M MAP_YIELD_SRC 0x00010000, (.AIO, AIO_AIN_CFG 0, 0x40000000), (.AIO, AIO_AIN_CFG 1, 0x80000000)]
def z1 : State := on 2 [M 0x20 2]
def z2 : State := on 2
def z3 : State := on 0
def z4 : State := mp (fun m => { m with work := some { id := 3 } }) (wb (on 2 okm))
def z5 : State := mp (fun m => { m with work := some { id := 4 } }) (wb (on 2 okm))
def z6 : State := mail .MAP 1 [] (on 2 [M 0x20 1])
def z7 : State := mail .MAP 1 [] (wb (on 2 [M 0x20 1]))
def z8 : State := on 2 [M 0x20 1]
def z9 : State := mail .MAP 2 [] (on 2 [M 0x20 0x10A])
def z10 : State := on 5 [M 0x20 1]
def z11 : State := on 5
def z12 : State := wb (bytesAt (mapBase-1) [1,2,3] (on 5 [em, M 4 88, M 8 0x1000, M 0xC 1]))
def z13 : State := on 2 [M 8 0x10401]
def z14 : State := bytesAt mapBase [1,2,3] (on 2 [M 8 0x20002, M 4 0, M 0xC 0xA0000020, M 0x10 3])
def z15 : State := on 2 [M MAP_CAL_N 2, M (MAP_CAL 1) 5, M (MAP_CAL 2) 6]
def z16 : State := on 2 [M MAP_CAL_N 9]
def z17 : State := on 2 [M MAP_SECTIONS 1]
def z18 : State := mp (fun m => { m with zero := some (5,7,-9) }) (mail .MAP 6 [] (on 2))
def z19 : State := mp (fun m => { m with lostPose := 1000 }) (on 2 [M 4 3, M MAP_ERRS 7, M MAP_WIN_BAD 8])
def z20 : State := (wb (on 5 [em, M 4 88, M 8 0x1000, M 0xC 0xFF]))

theorem test_witness_mapCommands :
    (Idle z1 Block.MAP ∧ z1.mapState ≠ 0) ∧
    (Idle z2 Block.MAP ∧ z2.mapState = 0 ∧ z2.mapRefusal ≠ Result.ok) ∧
    (z3.mode = 0 ∧ z3.bit Block.SYS SYS_MODE 7 = false) ∧
    (Idle z4 Block.MAP ∧ z4.mapState = 0 ∧ z4.mapRefusal = Result.ok ∧ z4.workValid = true) ∧
    (Idle z5 Block.MAP ∧ z5.mapState = 0 ∧ z5.mapRefusal = Result.ok ∧ z5.workValid = false) ∧
    (z2.mapState ≠ 1) ∧
    (z6.mapState = 1 ∧ z6.baseInUse = none ∧ (z6.mailOf Block.MAP).code = 1) ∧
    (z7.mapState = 1 ∧ z7.baseInUse = some (1, bs) ∧ bs.empty = true ∧ z7.entryAt bs.id bs.off bs.seq = none) ∧
    (Idle z1 Block.MAP ∧ z1.mapState = 2) ∧
    (Idle z8 Block.MAP ∧ z8.mapState ≠ 2) ∧
    ((z8.bit Block.MAP MAP_STATUS 3 = false ∨ z8.map.line.cells ≠ [])) ∧
    (z9.bit Block.MAP MAP_STATUS 3 = true ∧ z9.map.line.cells = []) ∧
    (Idle z2 Block.MAP ∧ z2.mode ≠ 1 ∧ z2.mode ≠ 5) ∧
    (Idle z10 Block.MAP ∧ (z10.mode = 1 ∨ z10.mode = 5) ∧ z10.mapState ≠ 0) ∧
    (Idle z11 Block.MAP ∧ (z11.mode = 1 ∨ z11.mode = 5) ∧ z11.mapState = 0 ∧ z11.emmcOk = false) ∧
    (Idle z12 Block.MAP ∧ (z12.mode = 1 ∨ z12.mode = 5) ∧ z12.mapState = 0 ∧ z12.emmcOk = true ∧ z12.engBad (z12.f Block.MAP 12 7 0 * 2 ^ 32 + z12.rdN Block.MAP 8) 64 = false) ∧
    (Idle z13 Block.MAP ∧ 1025 = z13.f Block.MAP 8 10 0 ∧ 1 = z13.f Block.MAP 8 26 16 ∧ (1025 = 0 ∨ 1024 < 1025 ∨ 1 = 0 ∨ 1024 < 1 ∨ 4096 < z13.f Block.MAP 4 11 0 + 1025 ∨ 8192 < z13.f Block.MAP 4 28 16 + 1)) ∧
    (Idle z14 Block.MAP ∧ 2 = z14.f Block.MAP 8 10 0 ∧ 2 = z14.f Block.MAP 8 26 16 ∧ 1 ≤ 2 ∧ 2 ≤ 1024 ∧ z14.f Block.MAP 4 11 0 + 2 ≤ 4096 ∧ z14.f Block.MAP 4 28 16 + 2 ≤ 8192) ∧
    (Idle z2 Block.MAP ∧ z2.f Block.MAP MAP_CAL_N 3 0 = 0) ∧
    (Idle z15 Block.MAP ∧ 2 = z15.f Block.MAP MAP_CAL_N 3 0 ∧ 1 ≤ 2 ∧ 2 ≤ 8 ∧ z15.rd Block.MAP (MAP_CAL 0) = 0 ∧ (∀ (k : Nat), k < 2 → z15.f Block.MAP (MAP_CAL k) 15 0 < z15.f Block.MAP (MAP_CAL (k + 1)) 15 0)) ∧
    (Idle z16 Block.MAP ∧ (8 < z16.f Block.MAP MAP_CAL_N 3 0 ∨ z16.f Block.MAP MAP_CAL_N 3 0 ≠ 0 ∧ z16.rd Block.MAP (MAP_CAL 0) ≠ 0 ∨ ∃ k, k < z16.f Block.MAP MAP_CAL_N 3 0 ∧ z16.f Block.MAP (MAP_CAL (k + 1)) 15 0 ≤ z16.f Block.MAP (MAP_CAL k) 15 0)) ∧
    (Idle z2 Block.MAP ∧ z2.rd Block.MAP MAP_SECTIONS = 0 ∧ z2.f Block.MAP MAP_ELEV 15 0 * 10 ≤ z2.rdN Block.AIO (AIO_FIN_FREQ (z2.f Block.MAP MAP_YIELD_SRC 4 0))) ∧
    (Idle z17 Block.MAP ∧ (z17.rd Block.MAP MAP_SECTIONS ≠ 0 ∨ z17.rdN Block.AIO (AIO_FIN_FREQ (z17.f Block.MAP MAP_YIELD_SRC 4 0)) < z17.f Block.MAP MAP_ELEV 15 0 * 10)) ∧
    (z2.map.zero = none) ∧
    (z18.map.zero = some (5, 7, -9)) ∧
    (Idle z19 Block.MAP) ∧
    (Idle z20 Block.MAP ∧ (z20.mode = 1 ∨ z20.mode = 5) ∧ z20.mapState = 0 ∧ z20.emmcOk = true ∧ z20.engBad (z20.f Block.MAP 12 7 0 * 2 ^ 32 + z20.rdN Block.MAP 8) 64 = true) := by
  refine ⟨?_, ?_, ?_, ?_, ?_, ?_, ?_, ?_, ?_, ?_, ?_, ?_, ?_, ?_, ?_, ?_, ?_, ?_, ?_, ?_, ?_, ?_, ?_, ?_, ?_, ?_, ?_⟩ <;> first | (unfold Idle; decide +kernel) | decide +kernel

end Sys2Proof.Tests.MapCommands

namespace Sys2Proof.Tests.PanelPower

def P (o v : Nat) : Block × Nat × Nat := (.PNL, o, v)
def pl (st : Nat) (l : R := []) : State := on 2 ([(.PACE, PACE_ISL_STATUS 23, 2), P 0x20 st] ++ l)
def mkH (body : List Byte) : List Byte := let h := (body ++ List.replicate 252 0).take 252; h ++ leBytes 4 (crc32c h)
def pts (k : Nat) : List Byte := (upto 8).flatMap fun i => leBytes 1 (if k = 0 then i else k - 1) ++ leBytes 2 (100 * i)
def body (lo hi : Nat) (k : Nat) : List Byte := leBytes 4 0x504C4E49 ++ leBytes 1 lo ++ leBytes 1 hi ++ leBytes 1 1 ++ List.replicate 57 0 ++ pts k ++ pts k ++ pts k
def body2 (lo hi : Nat) (k : Nat) : List Byte := leBytes 4 0x494C4E50 ++ (body lo hi k).drop 4
def pn (f : Pnl → Pnl) (s : State) : State := { s with pnl := f s.pnl }
def rl (r v : Nat) : Block × Nat × Nat := P (PNL_RAIL_STATUS r) (v * 65536)
def z1 : State := on 0
def z2 : State := pl 2
def z3 : State := pl 0
def z4 : List Byte := List.replicate 256 0
def z5 : List Byte := mkH (body2 4 5 0)
def z6 : List Byte := mkH (body2 2 4 1)
def z7 : State := on 2
def z8 : List Byte := mkH (body2 2 4 0)
def z9 : State := pl 1
def z10 : State := pl 4
def z11 : State := mail .PNL 2 [] (pn (fun p => { p with step := 2 }) (pl 3))
def z12 : State := mail .PNL 2 [] (pn (fun p => { p with step := 1 }) (pl 3))
def z13 : State := pl 0x10
def z14 : State := mail .PNL 3 [] (pl 0x12)
def z15 : State := pl 0x12
def z16 : State := pl 0x2
def z17 : State := mail .PNL 1 [] (pl 1 [rl 3 1000])

theorem test_witness_panelPower :
    (Idle z1 Block.PNL ∧ z1.mode = 0) ∧
    (Idle z2 Block.PNL ∧ z2.mode ≠ 0 ∧ z2.pnlState = 2) ∧
    (Idle z3 Block.PNL ∧ z3.mode ≠ 0 ∧ z3.pnlState ≠ 2) ∧
    (Idle z3 Block.PNL ∧ z3.mode ≠ 0 ∧ z3.pnlState ≠ 2 ∧ z4.length = 256 ∧ hdrOk z4 = false) ∧
    (Idle z3 Block.PNL ∧ z3.mode ≠ 0 ∧ z3.pnlState ≠ 2 ∧ z5.length = 256 ∧ hdrOk z5 = true ∧ linkVersion z5 = none) ∧
    (Idle z3 Block.PNL ∧ z3.mode ≠ 0 ∧ z3.pnlState ≠ 2 ∧ z6.length = 256 ∧ hdrOk z6 = true ∧ linkVersion z6 = some (3, 0) ∧ (∃ c, c ∈ z3.pnlCurves z6 ∧ rising c = false)) ∧
    (Idle z7 Block.PNL ∧ z7.mode ≠ 0 ∧ z7.pnlState ≠ 2 ∧ z8.length = 256 ∧ hdrOk z8 = true ∧ linkVersion z8 = some (3, 0) ∧ (∀ (c : List (Int × Int)), c ∈ z7.pnlCurves z8 → rising c = true)) ∧
    (Idle z3 Block.PNL ∧ z3.pnlState = 0) ∧
    ((Idle z9 Block.PNL ∨ (z9.mailOf Block.PNL).code = 1) ∧ (z9.pnlState = 1 ∨ z9.pnlState = 2)) ∧
    (Idle z10 Block.PNL ∧ z10.pnlState = 4) ∧
    (z11.islState 23 = 2 ∧ z11.pnlState = 3 ∧ 2 ≤ z11.pnl.step) ∧
    (z12.islState 23 = 2 ∧ z12.pnlState = 3 ∧ z12.pnl.step = 1) ∧
    (z13.pnlState = 0) ∧
    (z14.pnlState ≠ 0) ∧
    (z15.bit Block.PNL PNL_STATUS 4 = true) ∧
    (z16.bit Block.PNL PNL_STATUS 4 = false) ∧
    (z3.pnlState ≠ 1 ∧ z3.pnlState ≠ 2) ∧
    ((z17.pnlState = 1 ∨ z17.pnlState = 2) ∧ ((1200 - z17.railTarget 3).natAbs ≤ if 3 = 3 then 200 else (z17.railTarget 3).natAbs / 20)) ∧
    ((z17.pnlState = 1 ∨ z17.pnlState = 2) ∧ ((if 3 = 3 then 200 else (z17.railTarget 3).natAbs / 20) < (1201 - z17.railTarget 3).natAbs)) := by
  refine ⟨?_, ?_, ?_, ?_, ?_, ?_, ?_, ?_, ?_, ?_, ?_, ?_, ?_, ?_, ?_, ?_, ?_, ?_, ?_⟩ <;> first | (unfold Idle; decide +kernel) | decide +kernel

end Sys2Proof.Tests.PanelPower

namespace Sys2Proof.Tests.PanelFrames

def P (o v : Nat) : Block × Nat × Nat := (.PNL, o, v)
def pl (st : Nat) (l : R := []) : State := on 2 ([(.PACE, PACE_ISL_STATUS 23, 2), P 0x20 st] ++ l)
def pn (f : Pnl → Pnl) (s : State) : State := { s with pnl := f s.pnl }
def h1 : List Byte := List.replicate 140 0 ++ leBytes 4 uniBytes ++ leBytes 4 77
def bl (l : R := []) : State := pl 2 ([P PNL_BL_CFG 0xF, P PNL_BL_LEVEL 0x3E804B0] ++ l)
def big : List Byte := List.replicate uniBytes 0
def z1 : State := pl 0
def z2 : State := pl 1
def z3 : State := mail .PNL 1 [] (pn (fun p => { p with step := 2, flip := some (1, none) }) (pl 1))
def z4 : State := pn (fun p => { p with slots := 2, n := 4 }) (pl 2)
def z5 : State := pn (fun p => { p with slots := 3, n := 4 }) (pl 2)
def z6 : State := pl 2 [P 4 3]
def z7 : State := pl 2 [P 4 0]
def z8 : State := pl 2
def z9 : State := bl
def z10 : List Nat := [1,2,3,300]
def z11 : List Nat := [1,2,3,10001]
def z12 : List Nat := [2,2,3,10001]
def z13 : State := bl [P PNL_BL_FLAGS 0x10306]
def z14 : State := pl 2 [P 4 0x2100]
def z15 : State := pl 2 [P 4 0x0550]
def z16 : State := pl 2 [P 4 0x30450, P 8 0x40, P 0xC 3]
def z17 : State := pl 2 [P 4 0x200451, P 8 0x40, P 0xC 3]
def z18 : State := pl 2 [P PNL_VERSION 0x300, P PNL_LINK_ERR 0xFFFFFFFE]
def z19 : State := pl 2 [P 4 1, P PNL_LINK_ERR 5, P PNL_COUNTS 6]
def z20 : State := pn (fun p => { p with scan := some (5, 77) }) (pl 2)
def z21 : State := pn (fun p => { p with hdr := h1 }) (pl 2 [P 4 1])
def z22 : State := pn (fun p => { p with load := some (1, true) }) (pl 2 [P PNL_UNI_BASE_HI 1])

theorem test_witness_panelFrames :
    ((z1.islState 23 ≠ 2 ∨ ¬z1.pnlState ∈ [1, 2, 3])) ∧
    (z2.islState 23 = 2 ∧ (z2.pnlState = 1 ∧ z2.pnl.step < 2 ∨ z2.pnlState = 3 ∧ z2.pnl.step = 0)) ∧
    (z3.islState 23 = 2 ∧ z3.pnlState = 1 ∧ 2 ≤ z3.pnl.step) ∧
    (z4.islState 23 = 2 ∧ z4.pnlState = 2 ∧ z4.pnl.slots + 1 < z4.pnl.n ∧ (z4.bit Block.PNL PNL_CFG 1 = false ∨ z4.pnl.flip = none)) ∧
    (z5.islState 23 = 2 ∧ z5.pnlState = 2 ∧ (z5.pnl.n ≤ z5.pnl.slots + 1 ∨ z5.bit Block.PNL PNL_CFG 1 = true ∧ z5.pnl.flip ≠ none)) ∧
    ((z2.pnlState ≠ 2 ∨ z2.pnl.scan = none)) ∧
    (Idle z2 Block.PNL ∧ z2.pnlState ≠ 2) ∧
    (Idle z6 Block.PNL ∧ z6.pnlState = 2 ∧ z6.f Block.PNL 4 1 0 = 3) ∧
    (Idle z7 Block.PNL ∧ z7.pnlState = 2 ∧ z7.f Block.PNL 4 1 0 ≠ 3 ∧ z7.uniSource (z7.f Block.PNL 4 1 0) = none) ∧
    (z8.pnl.load = none) ∧
    ((z8.pnlState ≠ 2 ∨ ¬3 ∈ z8.blStrings)) ∧
    (z9.pnlState = 2 ∧ 3 ∈ z9.blStrings ∧ z10.getD 3 0 ≤ 300 ∧ 48000 ≤ 48000) ∧
    (z9.pnlState = 2 ∧ 3 ∈ z9.blStrings ∧ (∃ j, j ∈ z9.blStrings ∧ z11.getD j 0 + 10000 ≤ z11.getD 3 0)) ∧
    (z9.pnlState = 2 ∧ 3 ∈ z9.blStrings ∧ (300 < z12.getD 3 0 ∨ 47999 < 48000) ∧ (∀ (j : Nat), j ∈ z9.blStrings → z12.getD 3 0 < z12.getD j 0 + 10000)) ∧
    (Idle z13 Block.PNL) ∧
    (Idle z14 Block.PNL ∧ (32 < z14.f Block.PNL 4 13 8 ∨ 32 < z14.f Block.PNL 4 21 16)) ∧
    (Idle z15 Block.PNL ∧ z15.f Block.PNL 4 13 8 ≤ 32 ∧ z15.f Block.PNL 4 21 16 ≤ 32 ∧ z15.f Block.PNL 4 6 0 = 80 ∧ 4 < z15.f Block.PNL 4 13 8) ∧
    (Idle z16 Block.PNL ∧ z16.f Block.PNL 4 13 8 ≤ 32 ∧ z16.f Block.PNL 4 21 16 ≤ 32 ∧ (z16.f Block.PNL 4 6 0 ≠ 80 ∨ z16.f Block.PNL 4 13 8 ≤ 4) ∧ true = true) ∧
    (Idle z17 Block.PNL ∧ z17.f Block.PNL 4 13 8 ≤ 32 ∧ z17.f Block.PNL 4 21 16 ≤ 32 ∧ (z17.f Block.PNL 4 6 0 ≠ 80 ∨ z17.f Block.PNL 4 13 8 ≤ 4) ∧ false = false) ∧
    ((z8.pnlMajor ≠ 3 ∨ z8.pnlState ≠ 2)) ∧
    (z18.pnlMajor = 3 ∧ z18.pnlState = 2) ∧
    (Idle z19 Block.PNL) ∧
    (z20.pnlState = 2 ∧ z20.pnl.scan = some (5, 77)) ∧
    (Idle z21 Block.PNL ∧ z21.pnlState = 2 ∧ z21.f Block.PNL 4 1 0 ≠ 3 ∧ z21.uniSource (z21.f Block.PNL 4 1 0) = some 1) ∧
    (z22.pnl.load = some (1, true) ∧ big.length = uniBytes) := by
  refine ⟨?_, ?_, ?_, ?_, ?_, ?_, ?_, ?_, ?_, ?_, ?_, ?_, ?_, ?_, ?_, ?_, ?_, ?_, ?_, ?_, ?_, ?_, ?_, ?_, ?_⟩
  · decide +kernel
  · decide +kernel
  · decide +kernel
  · decide +kernel
  · decide +kernel
  · decide +kernel
  · unfold Idle; decide +kernel
  · unfold Idle; decide +kernel
  · unfold Idle; decide +kernel
  · decide +kernel
  · decide +kernel
  · decide +kernel
  · decide +kernel
  · decide +kernel
  · unfold Idle; decide +kernel
  · unfold Idle; decide +kernel
  · unfold Idle; decide +kernel
  · unfold Idle; decide +kernel
  · unfold Idle; decide +kernel
  · decide +kernel
  · decide +kernel
  · unfold Idle; decide +kernel
  · decide +kernel
  · unfold Idle; decide +kernel
  · exact ⟨by decide +kernel, List.length_replicate⟩

end Sys2Proof.Tests.PanelFrames

namespace Sys2Proof.Tests.CanFrames

def C (r : Nat → Nat) (v : Nat) (n : Nat := 1) : Block × Nat × Nat := (.CAN, r n, v)
def cc (f : CanCh → CanCh) (s : State) (n : Nat := 1) : State := s.cchMod n f
def ca (st : Nat) (l : R := []) (cfg : Nat := 0) : State := cc (fun c => { c with cfg := wordN cfg }) (on 2 ([C CAN_CH_STATUS (st * 256), (.PACE, PACE_ISL_STATUS 1, 0x102)] ++ l))
def rx (id : Nat) : CanRx := { id := wordN id, fmt := 0x80000, data := leBytes 8 0x123456789 }
def mb (b w v : Nat) (n : Nat := 1) : Block × Nat × Nat := (.CAN, CAN_MB n b w, v)
def xf : CanFrame := { id := 7, fmt := 8, time := 2, data := [1] }
def tx (src : Nat) (c : Bool := false) : CanTx := { src := src, frame := xf, cancel := c }
def z1 : State := ca 1
def z2 : State := ca 2
def z3 : State := ca 2 [mb 5 0 0x40000000, mb 5 1 7, mb 5 2 0xFF]
def z4 : CanRx := rx 7
def z5 : State := ca 2 [mb 5 0 0x40000000, mb 5 1 7, mb 5 2 0xFF, C (CAN_CH_LOCK · 0) 0x20] 0x2000
def z6 : State := ca 2 [C CAN_CH_STATUS 0x900300]
def z7 : State := ca 2 [mb 77 0 0x40000000, C (CAN_CH_LOCK · 2) 0x2000, C (CAN_CH_NEW · 2) 0x2000]
def z8 : State := ca 2 [mb 77 0 0x80000000, C (CAN_CH_LOCK · 2) 0x2000, C (CAN_CH_TXREQ · 2) 0x2000]
def z9 : State := ca 2 [C (CAN_CH_TXREQ · 2) 0x2000]
def z10 : State := cc (fun c => { c with tx := some (tx 77) }) (ca 2 [C CAN_CH_STATUS 0x05000200, mb 77 0 0x80000000, C (CAN_CH_TXREQ · 2) 0x2000])
def z11 : CanTx := tx 77
def z12 : State := ca 2 [mb 77 0 0x80000005]
def z13 : State := ca 5 [C CAN_CH_STATUS 0x80200500]
def z14 : State := ca 1 [(.CAN, CAN_RXSIG_CFG 9, 0x81000100), (.CAN, CAN_RXSIG_STATUS 9, 0x80000003)]
def z15 : State := ca 2 [C (CAN_CH_FILTER_ID · 3) 0x40000007, C (CAN_CH_FILTER_MASK · 3) 0xFF]
def z16 : State := cc (fun c => { c with fifo0 := List.replicate 64 xf }) (ca 2 [C (CAN_CH_FILTER_ID · 3) 0x40000007, C (CAN_CH_FILTER_MASK · 3) 0xFF])
def z17 : State := cc (fun c => { c with shadow := c.shadow.set none 77 (some xf) }) (ca 2 [mb 77 0 0x40000000, C (CAN_CH_LOCK · 2) 0x2000, C (CAN_CH_NEW · 2) 0x2000])
def z18 : State := cc (fun c => { c with tx := some (tx 77) }) (ca 2)

theorem test_witness_canFrames :
    ((z1.canState 1 ≠ 2 ∧ z1.canState 1 ≠ 3 ∨ z1.canLive 1 = false)) ∧
    ((z2.canState 1 = 2 ∨ z2.canState 1 = 3) ∧ z2.canLive 1 = true) ∧
    ((z3.canState 1 = 2 ∨ z3.canState 1 = 3) ∧ z3.canLive 1 = true ∧ (z3.canCfg 1 13 = true ∨ z3.canCfg 1 15 = false) ∧ 5 < 128 ∧ ((z3.mbKind 1 5 == 1 && idMatch (if bitOf z4.id 31 = true then z4.id &&& 2684354559 else z4.id &&& 2047) (z3.rd Block.CAN (CAN_MB 1 5 1)) (z3.rd Block.CAN (CAN_MB 1 5 2)) (z3.bit Block.CAN (CAN_MB 1 5 1) 31)) = true) ∧ (∀ (a : Nat), a < 5 → (z3.mbKind 1 a == 1 && idMatch (if bitOf z4.id 31 = true then z4.id &&& 2684354559 else z4.id &&& 2047) (z3.rd Block.CAN (CAN_MB 1 a 1)) (z3.rd Block.CAN (CAN_MB 1 a 2)) (z3.bit Block.CAN (CAN_MB 1 a 1) 31)) = false) ∧ z3.mbBit (CAN_CH_LOCK 1 0) 5 = false) ∧
    ((z5.canState 1 = 2 ∨ z5.canState 1 = 3) ∧ z5.canLive 1 = true ∧ (z5.canCfg 1 13 = true ∨ z5.canCfg 1 15 = false) ∧ 5 < 128 ∧ ((z5.mbKind 1 5 == 1 && idMatch (if bitOf z4.id 31 = true then z4.id &&& 2684354559 else z4.id &&& 2047) (z5.rd Block.CAN (CAN_MB 1 5 1)) (z5.rd Block.CAN (CAN_MB 1 5 2)) (z5.bit Block.CAN (CAN_MB 1 5 1) 31)) = true) ∧ (∀ (a : Nat), a < 5 → (z5.mbKind 1 a == 1 && idMatch (if bitOf z4.id 31 = true then z4.id &&& 2684354559 else z4.id &&& 2047) (z5.rd Block.CAN (CAN_MB 1 a 1)) (z5.rd Block.CAN (CAN_MB 1 a 2)) (z5.bit Block.CAN (CAN_MB 1 a 1) 31)) = false) ∧ z5.mbBit (CAN_CH_LOCK 1 0) 5 = true) ∧
    ((z6.canState 1 = 2 ∨ z6.canState 1 = 3) ∧ z6.canLive 1 = true ∧ (z6.canCfg 1 13 = true ∨ z6.canCfg 1 15 = false) ∧ (∀ (b : Nat), b < 128 → (z6.mbKind 1 b == 1 && idMatch (if bitOf z4.id 31 = true then z4.id &&& 2684354559 else z4.id &&& 2047) (z6.rd Block.CAN (CAN_MB 1 b 1)) (z6.rd Block.CAN (CAN_MB 1 b 2)) (z6.bit Block.CAN (CAN_MB 1 b 1) 31)) = false) ∧ (∀ (m : Nat), m < 64 → (z6.f Block.CAN (CAN_CH_FILTER_ID 1 m) 31 30 != 0 && idMatch (if bitOf z4.id 31 = true then z4.id &&& 2684354559 else z4.id &&& 2047) (z6.rd Block.CAN (CAN_CH_FILTER_ID 1 m)) (z6.rd Block.CAN (CAN_CH_FILTER_MASK 1 m)) (z6.bit Block.CAN (CAN_CH_FILTER_ID 1 m) 29)) = false)) ∧
    (bitOf 1 0 = true) ∧
    (bitOf 2 0 = false) ∧
    (z2.mbBit (CAN_CH_LOCK 1 0) 77 = false) ∧
    (z7.mbBit (CAN_CH_LOCK 1 0) 77 = true ∧ z7.mbKind 1 77 = 1 ∧ (z7.cch 1).shadow.get none 77 = none) ∧
    (z8.mbBit (CAN_CH_LOCK 1 0) 77 = true ∧ z8.mbKind 1 77 ≠ 1) ∧
    (13 < 32 ∧ (∀ (a : CanTx), (z9.cch 1).tx = some a → a.src ≠ 32 * 2 + 13) ∧ z9.mbBit (CAN_CH_TXREQ 1 0) (32 * 2 + 13) = true) ∧
    (13 < 32 ∧ (∀ (a : CanTx), (z2.cch 1).tx = some a → a.src ≠ 32 * 2 + 13) ∧ z2.mbBit (CAN_CH_TXREQ 1 0) (32 * 2 + 13) = false) ∧
    (((z2.cch 1).tx = none ∨ z2.canLive 1 = false)) ∧
    ((z10.cch 1).tx = some z11 ∧ z11.src < 128 ∧ z11.tt = false ∧ z10.tim.msg = none ∧ z10.canLive 1 = true ∧ (z10.canState 1 = 2 ∨ z10.canState 1 = 3)) ∧
    ((z2.canState 1 = 0 ∨ z2.f Block.CAN (CAN_MB 1 7 0) 15 0 = 0 ∨ z2.mbKind 1 7 < 2 ∨ z2.islLive 1 = false)) ∧
    (z12.canState 1 ≠ 0 ∧ z12.f Block.CAN (CAN_MB 1 77 0) 15 0 ≠ 0 ∧ 2 ≤ z12.mbKind 1 77 ∧ z12.islLive 1 = true) ∧
    ((z2.canState 1 ≠ 5 ∨ z2.canLive 1 = false)) ∧
    (z13.canState 1 = 5 ∧ z13.canLive 1 = true) ∧
    ((z2.canState 1 ≠ 1 ∨ z2.canLive 1 = false)) ∧
    (z1.canState 1 = 1 ∧ z1.canLive 1 = true) ∧
    ((z1.f Block.CAN (CAN_RXSIG_CFG 9) 15 8 = 0 ∨ z1.bit Block.CAN (CAN_RXSIG_STATUS 9) 31 = false)) ∧
    (z14.f Block.CAN (CAN_RXSIG_CFG 9) 15 8 ≠ 0 ∧ z14.bit Block.CAN (CAN_RXSIG_STATUS 9) 31 = true) ∧
    ((z15.canState 1 = 2 ∨ z15.canState 1 = 3) ∧ z15.canLive 1 = true ∧ (z15.canCfg 1 13 = true ∨ z15.canCfg 1 15 = false) ∧ (∀ (b : Nat), b < 128 → (z15.mbKind 1 b == 1 && idMatch (if bitOf z4.id 31 = true then z4.id &&& 2684354559 else z4.id &&& 2047) (z15.rd Block.CAN (CAN_MB 1 b 1)) (z15.rd Block.CAN (CAN_MB 1 b 2)) (z15.bit Block.CAN (CAN_MB 1 b 1) 31)) = false) ∧ 3 < 64 ∧ ((z15.f Block.CAN (CAN_CH_FILTER_ID 1 3) 31 30 != 0 && idMatch (if bitOf z4.id 31 = true then z4.id &&& 2684354559 else z4.id &&& 2047) (z15.rd Block.CAN (CAN_CH_FILTER_ID 1 3)) (z15.rd Block.CAN (CAN_CH_FILTER_MASK 1 3)) (z15.bit Block.CAN (CAN_CH_FILTER_ID 1 3) 29)) = true) ∧ (∀ (a : Nat), a < 3 → (z15.f Block.CAN (CAN_CH_FILTER_ID 1 a) 31 30 != 0 && idMatch (if bitOf z4.id 31 = true then z4.id &&& 2684354559 else z4.id &&& 2047) (z15.rd Block.CAN (CAN_CH_FILTER_ID 1 a)) (z15.rd Block.CAN (CAN_CH_FILTER_MASK 1 a)) (z15.bit Block.CAN (CAN_CH_FILTER_ID 1 a) 29)) = false) ∧ 0 < 2 ∧ z15.f Block.CAN (CAN_CH_FILTER_ID 1 3) 31 30 = 1 + 0 ∧ ((if 0 = 0 then (z15.cch 1).fifo0 else (z15.cch 1).fifo1).length < 64)) ∧
    ((z16.canState 1 = 2 ∨ z16.canState 1 = 3) ∧ z16.canLive 1 = true ∧ (z16.canCfg 1 13 = true ∨ z16.canCfg 1 15 = false) ∧ (∀ (b : Nat), b < 128 → (z16.mbKind 1 b == 1 && idMatch (if bitOf z4.id 31 = true then z4.id &&& 2684354559 else z4.id &&& 2047) (z16.rd Block.CAN (CAN_MB 1 b 1)) (z16.rd Block.CAN (CAN_MB 1 b 2)) (z16.bit Block.CAN (CAN_MB 1 b 1) 31)) = false) ∧ 3 < 64 ∧ ((z16.f Block.CAN (CAN_CH_FILTER_ID 1 3) 31 30 != 0 && idMatch (if bitOf z4.id 31 = true then z4.id &&& 2684354559 else z4.id &&& 2047) (z16.rd Block.CAN (CAN_CH_FILTER_ID 1 3)) (z16.rd Block.CAN (CAN_CH_FILTER_MASK 1 3)) (z16.bit Block.CAN (CAN_CH_FILTER_ID 1 3) 29)) = true) ∧ (∀ (a : Nat), a < 3 → (z16.f Block.CAN (CAN_CH_FILTER_ID 1 a) 31 30 != 0 && idMatch (if bitOf z4.id 31 = true then z4.id &&& 2684354559 else z4.id &&& 2047) (z16.rd Block.CAN (CAN_CH_FILTER_ID 1 a)) (z16.rd Block.CAN (CAN_CH_FILTER_MASK 1 a)) (z16.bit Block.CAN (CAN_CH_FILTER_ID 1 a) 29)) = false) ∧ 0 < 2 ∧ z16.f Block.CAN (CAN_CH_FILTER_ID 1 3) 31 30 = 1 + 0 ∧ (64 ≤ (if 0 = 0 then (z16.cch 1).fifo0 else (z16.cch 1).fifo1).length)) ∧
    (z17.mbBit (CAN_CH_LOCK 1 0) 77 = true ∧ z17.mbKind 1 77 = 1 ∧ (z17.cch 1).shadow.get none 77 = some xf) ∧
    (13 < 32 ∧ (z18.cch 1).tx = some z11 ∧ z11.src = 32 * 2 + 13) ∧
    ((z10.cch 1).tx = some z11 ∧ z11.src < 128 ∧ z11.tt = false ∧ z10.tim.msg = none ∧ z10.canLive 1 = true ∧ CanEnd.lost ≠ CanEnd.sent) ∧
    (((cc (fun c => { c with tx := some (tx 77) }) (ca 2)).cch 1).tx = some (tx 77) ∧ (tx 77).src < 128 ∧ (tx 77).tt = false ∧ (cc (fun c => { c with tx := some (tx 77) }) (ca 2)).tim.msg = none ∧ CanEnd.lost ≠ .sent) := by
  refine ⟨?_, ?_, ?_, ?_, ?_, ?_, ?_, ?_, ?_, ?_, ?_, ?_, ?_, ?_, ?_, ?_, ?_, ?_, ?_, ?_, ?_, ?_, ?_, ?_, ?_, ?_, ?_, ?_⟩ <;> decide +kernel

end Sys2Proof.Tests.CanFrames

namespace Sys2Proof.Tests.CanControl

def A (o v : Nat) : Block × Nat × Nat := (.CAN, o, v)
def C (r : Nat → Nat) (v : Nat) (n : Nat := 1) : Block × Nat × Nat := (.CAN, r n, v)
def okc : R := [A 4 2, C CAN_CH_NBT (80 + 2^17 * 62 + 2^10 * 15 - 80), C CAN_CH_DBT (2^16 * 30 + 2^8 * 12)]
def cc (f : CanCh → CanCh) (s : State) (n : Nat := 1) : State := s.cchMod n f
def ca (st : Nat) (l : R := []) (cfg : Nat := 0) : State := cc (fun c => { c with cfg := wordN cfg }) (on 2 ([C CAN_CH_STATUS (st * 256), (.PACE, PACE_ISL_STATUS 1, 0x102)] ++ l))
def xf : CanFrame := { id := 7, fmt := 8, time := 2, data := [1] }
def tx (src : Nat) (c : Bool := false) : CanTx := { src := src, frame := xf, cancel := c }
def mb (b w v : Nat) (n : Nat := 1) : Block × Nat × Nat := (.CAN, CAN_MB n b w, v)
def ib (l : R := []) (st : Nat := 2) : State := ca st ([C CAN_CH_ISB_ADDR 0x26] ++ l) 0x8000
def sess (k : Nat) (c : CanSes) (s : State) : State := s.sesSet 1 k c
def tt (l : R := []) : State := ca 2 ([C CAN_CH_TT_CFG 0x10002305, C CAN_CH_TT_STATUS 0x10006, C CAN_CH_NBT (2^17 * 62 + 2^10 * 15), C (CAN_CH_TT_COL · 3) 50] ++ l) 0x100
def tb : R := [C (CAN_CH_TT_CELL · 1 3) 0x14D, mb 77 0 0xC0000000, C (CAN_CH_TXREQ · 2) 0x2000]
def z1 : State := on 0
def z2 : State := on 2 [A 4 2]
def z3 : State := on 2 (okc ++ [C (CAN_CH_NEW · 2) 7, C CAN_CH_CFG 0x2000])
def z4 : State := on 2 (okc ++ [C CAN_CH_STATUS 0x400])
def z5 : State := on 2 okc
def z6 : State := cc (fun c => { c with tx := some (tx 77) }) (ca 2 ([A 4 2, (.CAN, CAN_RXSIG_CFG 9, 0x81000100), (.CAN, CAN_RXSIG_STATUS 9, 0x80000003)]))
def z7 : State := ca 4 [A 4 2]
def z8 : State := ca 2 [A 4 2, C CAN_CH_ERRS 5, mb 99 0 0x80030000]
def z9 : State := ca 2
def z10 : State := ib [C CAN_CH_ISB_ADDR 0xFE]
def z11 : State := ib
def z12 : State := sess 3 { phase := 4 } ib
def z13 : State := sess 3 { phase := 5, len := 8 } ib
def z14 : State := sess 3 { phase := 5, len := 7 } ib
def z15 : State := ib [A 4 1, A 8 3]
def z16 : State := sess 3 { phase := 6, len := 7 } (ib [A 4 1, A 8 3, A 0xC 0xFE])
def z17 : State := tt
def z18 : State := tt [C (CAN_CH_TT_CELL · 1 3) 0x300]
def z19 : State := tt tb
def z20 : State := tt [C CAN_CH_TT_REF 8]
def z21 : State := tt []

theorem test_witness_canControl :
    (Idle z1 Block.CAN ∧ z1.mode = 0 ∧ z1.bit Block.SYS SYS_MODE 7 = false) ∧
    (Idle z2 Block.CAN ∧ z2.mode ≠ 0 ∧ 1 < 8 ∧ z2.bit Block.CAN 4 1 = true ∧ z2.canState 1 = 0 ∧ z2.canStartOk 1 = false) ∧
    (Idle z3 Block.CAN ∧ z3.mode ≠ 0 ∧ 1 < 8 ∧ z3.rd Block.CAN 4 = wordN (2 ^ 1) ∧ z3.canState 1 = 0 ∧ z3.canStartOk 1 = true) ∧
    (Idle z4 Block.CAN ∧ z4.mode ≠ 0 ∧ 1 < 8 ∧ z4.rd Block.CAN 4 = wordN (2 ^ 1) ∧ z4.canState 1 ≠ 0) ∧
    (Idle z5 Block.CAN ∧ 1 < 8 ∧ z5.rd Block.CAN 4 = wordN (2 ^ 1) ∧ z5.canState 1 = 0) ∧
    (Idle z6 Block.CAN ∧ 1 < 8 ∧ z6.rd Block.CAN 4 = wordN (2 ^ 1) ∧ z6.canState 1 ≠ 0) ∧
    (Idle z7 Block.CAN ∧ 1 < 8 ∧ z7.rd Block.CAN 4 = wordN (2 ^ 1)) ∧
    (Idle z8 Block.CAN ∧ 1 < 8 ∧ z8.rd Block.CAN 4 = wordN (2 ^ 1)) ∧
    (¬(fld 1073741824 31 30 = 1 ∧ z9.canCfg 1 15 = true ∧ z9.canState 1 ≠ 0 ∧ (z9.ses 1 3).phase = 0) ∧ ¬(fld 1073741824 31 30 = 2 ∧ z9.canCfg 1 15 = true ∧ z9.canState 1 ≠ 0 ∧ (z9.ses 1 3).phase = 0)) ∧
    (fld 1073741824 31 30 = 1 ∧ (z10.canCfg 1 15 = true ∧ z10.canState 1 ≠ 0 ∧ (z10.ses 1 3).phase = 0) ∧ 254 ≤ z10.isbAddr 1) ∧
    (fld 1090453504 31 30 = 1 ∧ (z11.canCfg 1 15 = true ∧ z11.canState 1 ≠ 0 ∧ (z11.ses 1 3).phase = 0) ∧ z11.isbAddr 1 < 254) ∧
    (fld 2153054208 31 30 = 2 ∧ (z11.canCfg 1 15 = true ∧ z11.canState 1 ≠ 0 ∧ (z11.ses 1 3).phase = 0)) ∧
    (((z11.ses 1 3).phase < 2 ∨ (z11.ses 1 3).phase = 5)) ∧
    (2 ≤ (z12.ses 1 3).phase ∧ (z12.ses 1 3).phase ≠ 5) ∧
    ((z11.ses 1 3).phase ≠ 5) ∧
    ((z13.ses 1 3).phase = 5 ∧ (z13.ses 1 3).next < packets (z13.ses 1 3).len) ∧
    ((z14.ses 1 3).phase = 5 ∧ packets (z14.ses 1 3).len ≤ (z14.ses 1 3).next) ∧
    (Idle z15 Block.CAN ∧ 1 = z15.f Block.CAN 4 0 0 ∧ 3 = z15.f Block.CAN 8 2 0 ∧ (z15.ses 1 3).phase = 0) ∧
    (Idle z16 Block.CAN ∧ 1 = z16.f Block.CAN 4 0 0 ∧ 3 = z16.f Block.CAN 8 2 0 ∧ (z16.ses 1 3).phase ≠ 0) ∧
    ((z11.ttOn 1 = false ∨ CanRef.own = CanRef.own ∧ z11.ttOwn 1 5 = false)) ∧
    ((z17.ttOn 1 = false ∨ z17.f Block.CAN (CAN_CH_TT_STATUS 1) 1 0 ≠ 2 ∨ 0 = 0 ∨ z17.ttCols 1 ≤ 0)) ∧
    (z18.ttOn 1 = true ∧ z18.f Block.CAN (CAN_CH_TT_STATUS 1) 1 0 = 2 ∧ 0 < 3 ∧ 3 < z18.ttCols 1 ∧ z18.now ≤ z18.ttStart 1 3 ∧ z18.ttKind 1 3 = 3) ∧
    (z19.ttOn 1 = true ∧ z19.f Block.CAN (CAN_CH_TT_STATUS 1) 1 0 = 2 ∧ 0 < 3 ∧ 3 < z19.ttCols 1 ∧ z19.now ≤ z19.ttStart 1 3 ∧ (z19.ttKind 1 3 = 1 ∨ z19.ttKind 1 3 = 2) ∧ (z19.mbKind 1 (z19.f Block.CAN (CAN_CH_TT_CELL 1 (z19.ttCount 1) 3) 6 0) = 3 ∧ z19.mbBit (CAN_CH_TXREQ 1 0) (z19.f Block.CAN (CAN_CH_TT_CELL 1 (z19.ttCount 1) 3) 6 0) = true ∧ z19.mbBit (CAN_CH_LOCK 1 0) (z19.f Block.CAN (CAN_CH_TT_CELL 1 (z19.ttCount 1) 3) 6 0) = false ∧ z19.canCfg 1 13 = false) ∧ (z19.ntu 1 (max 1 (z19.f Block.CAN (CAN_CH_TT_CFG 1) 11 8)) < 3000 ∨ (z19.cch 1).tx.isSome = true)) ∧
    ((z9.ttOn 1 = false ∨ z9.f Block.CAN (CAN_CH_TT_STATUS 1) 1 0 ≠ 2)) ∧
    (z17.ttOn 1 = true ∧ z17.f Block.CAN (CAN_CH_TT_STATUS 1) 1 0 = 2) ∧
    (z20.ttOn 1 = true ∧ z20.now ≤ 1000000000 ∧ z20.ttOwn 1 1000000000 = true) ∧
    (z21.ttOn 1 = true ∧ z21.f Block.CAN (CAN_CH_TT_STATUS 1) 1 0 = 2 ∧ 0 < 3 ∧ 3 < z21.ttCols 1 ∧ z21.now ≤ z21.ttStart 1 3 ∧ z21.ttKind 1 3 = 0) ∧
    (z19.ttOn 1 = true ∧ z19.f Block.CAN (CAN_CH_TT_STATUS 1) 1 0 = 2 ∧ 0 < 3 ∧ 3 < z19.ttCols 1 ∧ z19.now ≤ z19.ttStart 1 3 ∧ (z19.ttKind 1 3 = 1 ∨ z19.ttKind 1 3 = 2) ∧ (z19.mbKind 1 (z19.f Block.CAN (CAN_CH_TT_CELL 1 (z19.ttCount 1) 3) 6 0) = 3 ∧ z19.mbBit (CAN_CH_TXREQ 1 0) (z19.f Block.CAN (CAN_CH_TT_CELL 1 (z19.ttCount 1) 3) 6 0) = true ∧ z19.mbBit (CAN_CH_LOCK 1 0) (z19.f Block.CAN (CAN_CH_TT_CELL 1 (z19.ttCount 1) 3) 6 0) = false ∧ z19.canCfg 1 13 = false) ∧ 5 ≤ z19.ntu 1 (max 1 (z19.f Block.CAN (CAN_CH_TT_CFG 1) 11 8)) ∧ (z19.cch 1).tx = none) := by
  refine ⟨?_, ?_, ?_, ?_, ?_, ?_, ?_, ?_, ?_, ?_, ?_, ?_, ?_, ?_, ?_, ?_, ?_, ?_, ?_, ?_, ?_, ?_, ?_, ?_, ?_, ?_, ?_, ?_⟩ <;> first | (unfold Idle; decide +kernel) | decide +kernel

end Sys2Proof.Tests.CanControl

namespace Sys2Proof.Tests.EthernetSwitch

def isl : R := [8,9,10,11,12,13].map fun k => (.PACE, PACE_ISL_STATUS k, 0x102)
def es (l : R := []) : State := on 2 (isl ++ l)
def E (o v : Nat) : Block × Nat × Nat := (.ETH, o, v)
def el (l : R := []) : State := es ([E ETH_STATUS 0x1F, E ETH_MAC_LO 0x55667788, E ETH_MAC_HI 0x0233, E (ETH_P_CFG 1) 0xB0006005, E (ETH_VLAN 2) 0x802F0005] ++ l)
def mac (n : Nat) : List Byte := (leBytes 6 n).reverse
def fr (dst src : Nat) (typ : Nat) : List Byte := mac dst ++ mac src ++ (leBytes 2 typ).reverse ++ List.replicate 50 7
def st0 : R := [E (ETH_FDB_STATIC_CFG 3) 0x80080005, E (ETH_FDB_STATIC_MAC_LO 3) 2, E (ETH_P_CFG 1) 0x80006005]
def hm : Nat := 0x023355667788
def tx : R := [E (ETH_TX_CFG 2) 0x104, E (ETH_TX_HEAD 2) 3, E (ETH_TX_TAIL 2) 2, E (ETH_TX_BASE_LO 2) 0x10000]
def et (f : Eth → Eth) (s : State) : State := { s with eth := f s.eth }
def z1 : State := es
def z2 : State := es [E (ETH_P_CFG 3) 0x80000000]
def z3 : State := es [E (ETH_P_CFG 3) 0x80000000, E ETH_STATUS 8]
def z4 : State := es [E ETH_STATUS 0x808, E (ETH_P_LINKDOWN 3) 0xFFFFFFFF]
def z5 : State := mail .ETH 2 [3] (es)
def z6 : State := el
def z7 : List Byte := []
def z8 : List Byte := fr 0x2 0x4 0x88F7
def z9 : State := el [E (ETH_VLAN 2) 0]
def z10 : List Byte := fr 0x2 0x4 0x900
def z11 : State := el [E (ETH_VLAN 2) 0x802D0005]
def z12 : State := el st0
def z13 : List Byte := fr hm 0x4 0x900
def z14 : State := el [E (ETH_RX_CFG 1) 0x104, E (ETH_RX_HEAD 1) 3, E (ETH_RX_TAIL 1) 2]
def z15 : State := el tx
def z16 : State := et (fun e => { e with fdb := [⟨1,2,3,4⟩, ⟨2,2,3,7⟩] }) el
def z17 : FdbEntry := ⟨2,2,3,7⟩
def z18 : State := el [E (ETH_P_CFG 1) 0]
def z19 : State := el [E (ETH_P_CFG 1) 0xA0000000]
def z20 : State := el [E (ETH_P_CFG 1) 0xA0000000, E ETH_STATUS 0x21F]
def z21 : State := et (fun e => { e with fdb := [⟨1,2,3,4⟩, ⟨2,2,1,7⟩] }) (el [E 4 8])
def z22 : State := el [E 4 3]
def z23 : State := el [E 4 5]
def z24 : State := el [E 4 0xA, E (ETH_P_RX 1) 5, E (ETH_P_DROPS 3) 5, E (ETH_RX_DROPS 2) 6]

theorem test_witness_ethernetSwitch :
    ((z1.bit Block.ETH (ETH_P_CFG 3) 31 = false ∨ z1.islUp (9 + 3) = false ∨ z1.pwr.phase = Phase.loss)) ∧
    (z2.bit Block.ETH (ETH_P_CFG 3) 31 = true ∧ z2.islUp (9 + 3) = true ∧ z2.pwr.phase ≠ Phase.loss ∧ z2.linkUp 3 = false) ∧
    (z3.bit Block.ETH (ETH_P_CFG 3) 31 = true ∧ z3.islUp (9 + 3) = true ∧ z3.pwr.phase ≠ Phase.loss ∧ z3.linkUp 3 = true ∧ z3.restarting ≠ some 3) ∧
    (z4.linkUp 3 = true) ∧
    (z5.linkUp 3 = false ∧ z5.restarting = some 3) ∧
    (z1.linkUp 3 = false ∧ z1.restarting ≠ some 3) ∧
    ((z1.portLive 3 = false ∨ z1.islLive 8 = false)) ∧
    (z6.portLive 1 = true ∧ z6.islLive 8 = true ∧ (false = true ∨ z7.length < 60 ∨ 1518 < z7.length ∨ (ethParse z7).typ = 34824 ∨ z6.fwdPaused = true)) ∧
    (z6.portLive 1 = true ∧ z6.islLive 8 = true ∧ ¬(false = true ∨ z8.length < 60 ∨ 1518 < z8.length ∨ (ethParse z8).typ = 34824 ∨ z6.fwdPaused = true) ∧ (ethParse z8).typ = 35063) ∧
    (z9.portLive 1 = true ∧ z9.islLive 8 = true ∧ ¬(false = true ∨ z10.length < 60 ∨ 1518 < z10.length ∨ (ethParse z10).typ = 34824 ∨ z9.fwdPaused = true) ∧ (ethParse z10).typ ≠ 35063 ∧ ((3, 5) =   match (ethParse z10).tag with   | none => (fld (z9.rd Block.ETH (ETH_P_CFG 1)) 15 13, fld (z9.rd Block.ETH (ETH_P_CFG 1)) 11 0)   | some (c, v) => (c, if v = 0 then fld (z9.rd Block.ETH (ETH_P_CFG 1)) 11 0 else v)) ∧ z9.vlanOf 5 = none) ∧
    (z11.portLive 1 = true ∧ z11.islLive 8 = true ∧ ¬(false = true ∨ z10.length < 60 ∨ 1518 < z10.length ∨ (ethParse z10).typ = 34824 ∨ z11.fwdPaused = true) ∧ (ethParse z10).typ ≠ 35063 ∧ ((3, 5) =   match (ethParse z10).tag with   | none => (fld (z11.rd Block.ETH (ETH_P_CFG 1)) 15 13, fld (z11.rd Block.ETH (ETH_P_CFG 1)) 11 0)   | some (c, v) => (c, if v = 0 then fld (z11.rd Block.ETH (ETH_P_CFG 1)) 11 0 else v)) ∧ z11.vlanOf 5 = some 2150432773 ∧ (fld 2150432773 21 16).testBit 1 = false) ∧
    (z6.portLive 1 = true ∧ z6.islLive 8 = true ∧ ¬(false = true ∨ z10.length < 60 ∨ 1518 < z10.length ∨ (ethParse z10).typ = 34824 ∨ z6.fwdPaused = true) ∧ (ethParse z10).typ ≠ 35063 ∧ ((3, 5) =   match (ethParse z10).tag with   | none => (fld (z6.rd Block.ETH (ETH_P_CFG 1)) 15 13, fld (z6.rd Block.ETH (ETH_P_CFG 1)) 11 0)   | some (c, v) => (c, if v = 0 then fld (z6.rd Block.ETH (ETH_P_CFG 1)) 11 0 else v)) ∧ z6.vlanOf 5 = some 2150563845 ∧ (fld 2150563845 21 16).testBit 1 = true ∧ z6.slotDatagram (ethParse z10) = none ∧ z6.hostFrame (ethParse z10).dst = false ∧ bitOf (z6.rd Block.ETH (ETH_P_CFG 1)) 28 = true ∧ groupMac (ethParse z10).src = false ∧ ((List.filter (fun e => !(e.mac == (ethParse z10).src && e.vid == 5)) z6.eth.fdb).length < 1024)) ∧
    (z12.portLive 1 = true ∧ z12.islLive 8 = true ∧ ¬(false = true ∨ z10.length < 60 ∨ 1518 < z10.length ∨ (ethParse z10).typ = 34824 ∨ z12.fwdPaused = true) ∧ (ethParse z10).typ ≠ 35063 ∧ ((3, 5) =   match (ethParse z10).tag with   | none => (fld (z12.rd Block.ETH (ETH_P_CFG 1)) 15 13, fld (z12.rd Block.ETH (ETH_P_CFG 1)) 11 0)   | some (c, v) => (c, if v = 0 then fld (z12.rd Block.ETH (ETH_P_CFG 1)) 11 0 else v)) ∧ z12.vlanOf 5 = some 2150563845 ∧ (fld 2150563845 21 16).testBit 1 = true ∧ z12.slotDatagram (ethParse z10) = none ∧ z12.hostFrame (ethParse z10).dst = false ∧ bitOf (z12.rd Block.ETH (ETH_P_CFG 1)) 28 = false ∧ 3 < 5 ∧ 3 ≠ 1 ∧ groupMac (ethParse z10).dst = false ∧ z12.fdbStatic (ethParse z10).dst 5 = some (2 ^ 3) ∧ (fld 2150563845 21 16).testBit 3 = true ∧ Nat.testBit 0 3 = false ∧ z12.portLive 3 = true) ∧
    (z12.portLive 1 = true ∧ z12.islLive 8 = true ∧ ¬(false = true ∨ z10.length < 60 ∨ 1518 < z10.length ∨ (ethParse z10).typ = 34824 ∨ z12.fwdPaused = true) ∧ (ethParse z10).typ ≠ 35063 ∧ ((3, 5) =   match (ethParse z10).tag with   | none => (fld (z12.rd Block.ETH (ETH_P_CFG 1)) 15 13, fld (z12.rd Block.ETH (ETH_P_CFG 1)) 11 0)   | some (c, v) => (c, if v = 0 then fld (z12.rd Block.ETH (ETH_P_CFG 1)) 11 0 else v)) ∧ z12.vlanOf 5 = some 2150563845 ∧ (fld 2150563845 21 16).testBit 1 = true ∧ z12.slotDatagram (ethParse z10) = none ∧ z12.hostFrame (ethParse z10).dst = false ∧ bitOf (z12.rd Block.ETH (ETH_P_CFG 1)) 28 = false ∧ 3 < 5 ∧ 3 ≠ 1 ∧ groupMac (ethParse z10).dst = false ∧ z12.fdbStatic (ethParse z10).dst 5 = some (2 ^ 3) ∧ (fld 2150563845 21 16).testBit 3 = true ∧ Nat.testBit 8 3 = true) ∧
    (z6.portLive 1 = true ∧ z6.islLive 8 = true ∧ ¬(false = true ∨ z13.length < 60 ∨ 1518 < z13.length ∨ (ethParse z13).typ = 34824 ∨ z6.fwdPaused = true) ∧ (ethParse z13).typ ≠ 35063 ∧ ((3, 5) =   match (ethParse z13).tag with   | none => (fld (z6.rd Block.ETH (ETH_P_CFG 1)) 15 13, fld (z6.rd Block.ETH (ETH_P_CFG 1)) 11 0)   | some (c, v) => (c, if v = 0 then fld (z6.rd Block.ETH (ETH_P_CFG 1)) 11 0 else v)) ∧ z6.vlanOf 5 = some 2150563845 ∧ (fld 2150563845 21 16).testBit 1 = true ∧ z6.slotDatagram (ethParse z13) = none ∧ (ethParse z13).dst = z6.ethMac ∧ groupMac (ethParse z13).dst = false ∧ (z6.bit Block.ETH (ETH_RX_CFG (3 / 2)) 8 = false ∨ ringHeld (z6.rd Block.ETH (ETH_RX_CFG (3 / 2))) (z6.f Block.ETH (ETH_RX_HEAD (3 / 2)) 15 0) (z6.f Block.ETH (ETH_RX_TAIL (3 / 2)) 15 0) = 0)) ∧
    (z14.portLive 1 = true ∧ z14.islLive 8 = true ∧ ¬(false = true ∨ z13.length < 60 ∨ 1518 < z13.length ∨ (ethParse z13).typ = 34824 ∨ z14.fwdPaused = true) ∧ (ethParse z13).typ ≠ 35063 ∧ ((3, 5) =   match (ethParse z13).tag with   | none => (fld (z14.rd Block.ETH (ETH_P_CFG 1)) 15 13, fld (z14.rd Block.ETH (ETH_P_CFG 1)) 11 0)   | some (c, v) => (c, if v = 0 then fld (z14.rd Block.ETH (ETH_P_CFG 1)) 11 0 else v)) ∧ z14.vlanOf 5 = some 2150563845 ∧ (fld 2150563845 21 16).testBit 1 = true ∧ z14.slotDatagram (ethParse z13) = none ∧ (ethParse z13).dst = z14.ethMac ∧ groupMac (ethParse z13).dst = false ∧ z14.bit Block.ETH (ETH_RX_CFG (3 / 2)) 8 = true ∧ 0 < ringHeld (z14.rd Block.ETH (ETH_RX_CFG (3 / 2))) (z14.f Block.ETH (ETH_RX_HEAD (3 / 2)) 15 0) (z14.f Block.ETH (ETH_RX_TAIL (3 / 2)) 15 0)) ∧
    ((bitOf (z6.rd Block.ETH (ETH_TX_CFG 2)) 8 = false ∨ ringHeld (z6.rd Block.ETH (ETH_TX_CFG 2)) (z6.f Block.ETH (ETH_TX_HEAD 2) 15 0) (z6.f Block.ETH (ETH_TX_TAIL 2) 15 0) = 0 ∨ z6.fwdPaused = true ∨ z6.islLive 8 = false ∨ z6.pwr.phase = Phase.loss)) ∧
    (bitOf (z15.rd Block.ETH (ETH_TX_CFG 2)) 8 = true ∧ 0 < ringHeld (z15.rd Block.ETH (ETH_TX_CFG 2)) (z15.f Block.ETH (ETH_TX_HEAD 2) 15 0) (z15.f Block.ETH (ETH_TX_TAIL 2) 15 0) ∧ z15.fwdPaused = false ∧ z15.islLive 8 = true ∧ z15.pwr.phase ≠ Phase.loss) ∧
    (z16.eth.fdb[1]? = some z17) ∧
    (z16.eth.fdb[5]? = none) ∧
    ((z18.bit Block.ETH (ETH_P_CFG 1) 29 = false ∨ z18.portLive 1 = false)) ∧
    (z19.bit Block.ETH (ETH_P_CFG 1) 29 = true ∧ z19.portLive 1 = true ∧ 800 ≤ 800) ∧
    (z20.bit Block.ETH (ETH_P_CFG 1) 29 = true ∧ z20.portLive 1 = true ∧ 800 < 801) ∧
    (Idle z21 Block.ETH) ∧
    (Idle z22 Block.ETH ∧ z22.f Block.ETH 4 2 0 < 5) ∧
    (Idle z23 Block.ETH ∧ 5 ≤ z23.f Block.ETH 4 2 0) ∧
    (Idle z24 Block.ETH) := by
  refine ⟨?_, ?_, ?_, ?_, ?_, ?_, ?_, ?_, ?_, ?_, ?_, ?_, ?_, ?_, ?_, ?_, ?_, ?_, ?_, ?_, ?_, ?_, ?_, ?_, ?_, ?_, ?_⟩ <;> first | (unfold Idle; decide +kernel) | decide +kernel

end Sys2Proof.Tests.EthernetSwitch

namespace Sys2Proof.Tests.Dumbwaiter

def ds (l : R := []) : State := on 2 l
def D (o v : Nat) : Block × Nat × Nat := (.DMW, o, v)
def dch (n : Nat) (f : DwCh → DwCh) (s : State) : State := s.dwMod n f
def dS (n v : Nat) : Block × Nat × Nat := D (DMW_CH_STATUS n) v
def o1 : DwOut := { lo := 0x1000, len := 32, desc := 4, no := 3, bad := some 0x1010 }
def o2 : DwOut := { lo := 0x1000, len := 32, desc := 4, no := 3 }
def x1 : DwXfer := { src := 1, dst := 2, n := 3, sfix := false, dfix := false, paced := true, beats := 2, no := 3, sa := 0x10000, da := 0x20000, left := 0x50 }
def gg : SMap Dword := ((((SMap.empty : SMap Dword).set 0 1 0x10000).set 0 2 0x20000).set 0 3 0x50)
def gm (s : State) : State := bytesAt 0x10000 ((List.range 48).map (· + 5)) s
def bank : R := [D (DMW_BANKW 3 1 0) 0x0C800003, D (DMW_BANKW 3 1 1) 0xFBC00000]
def bsum : Nat := crc32c (leBytes 4 0x0C800003 ++ leBytes 4 0xFBC00000 ++ List.replicate 120 0)
def bbad : Nat := crc32c (leBytes 4 0x0C800003 ++ leBytes 4 0xFAC00000 ++ List.replicate 120 0)
def z1 : State := { ds with pwr := { ds.pwr with phase := .loss } }
def z2 : State := dch 63 (fun c => { c with start := some [1] }) (ds [dS 63 1])
def z3 : State := (ds [dS 63 3])
def z4 : State := ds [D (DMW_BANKW 63 0 0) 0xFBC00000, D (DMW_CH_ARG_LO 63 7) 9, D (DMW_CH_ARG_HI 63 1) 9]
def z5 : State := ds [dS 63 2, D (DMW_CH_BANK 63) 1, D (DMW_BANKW 63 1 0) 0xF8C00000]
def z6 : State := ds
def z7 : State := dch 63 (fun c => { c with out := [o2] }) (ds [dS 63 3])
def z8 : State := dch 63 (fun c => { c with out := [o2, o1] }) (ds [dS 63 3, D (DMW_CH_CFG 63) 0x30])
def z9 : State := dch 63 (fun c => { c with out := [o2] }) (ds [dS 63 0x41])
def z10 : State := dch 63 (fun c => { c with out := [o2, o1] }) (ds [dS 63 0x41, D (DMW_CH_CFG 63) 0x30])
def z11 : State := dch 63 (fun c => { c with out := [o2, o1] }) (ds [dS 63 0x21, D (DMW_CH_CFG 63) 0x30])
def z12 : State := ds [D DMW_SWREQ 5, dS 3 0x00010011]
def z13 : State := dch 3 (fun c => { c with pc := 30 }) (ds [D DMW_SWREQ 5, dS 3 0x00020011, D (DMW_BANKW 3 0 31) 0xFBC00000])
def z14 : State := dch 3 (fun c => { c with xfer := some x1, tries := 3 }) (ds [dS 3 1, D (DMW_CH_CFG 3) 0x30])
def z15 : State := dch 3 (fun c => { c with xfer := some x1, out := [o2] }) (ds [dS 3 1, D (DMW_CH_CFG 3) 0x30])
def z16 : State := dch 3 (fun c => { c with xfer := some x1, out := [{ o2 with tries := 3 }] }) (ds [dS 3 1, D (DMW_CH_CFG 3) 0x30])
def z17 : DwOut := { o2 with tries := 3 }
def z18 : State := dch 3 (fun c => { c with xfer := some { x1 with no := 4 }, out := [o2] }) (ds [dS 3 1, D (DMW_CH_CFG 3) 0x30])
def z19 : DwXfer := { x1 with no := 4 }
def z20 : State := ph .off
def z21 : State := ds [D 4 64]
def z22 : State := ds ([D 4 3, D (DMW_BANKW 3 1 32) 5] ++ bank)
def z23 : State := ds (bank ++ [D 4 3, D (DMW_BANKW 3 1 32) bsum])
def z24 : State := ds (bank ++ [D (DMW_CH_BANK 3) 4, D 4 3, D (DMW_BANKW 3 1 32) bsum])
def z25 : State := ds (bank ++ [D (DMW_BANKW 3 1 1) 0xFAC00000, D 4 3, D (DMW_BANKW 3 1 32) bbad])
def z26 : State := dch 3 (fun c => { c with pc := 30, out := [o2] }) (ds [dS 3 0x21, D (DMW_BANKW 3 0 31) 0xFBC00000])
def z27 : State := on 2 [dS 3 2]
def z28 : State := dch 3 (fun c => { c with req := some 4, xfer := some x1, out := [o2] }) (ds [dS 3 1])
def z29 : State := gm (dch 3 (fun c => { c with xfer := some { x1 with paced := false }, g := gg }) (ds [dS 3 1]))
def z30 : DwXfer := { x1 with paced := false }

theorem test_witness_dumbwaiter :
    (z1.pwr.phase = Phase.loss) ∧
    (z2.pwr.phase ≠ Phase.loss ∧ (z2.dwState 63 = 1 ∨ z2.dwState 63 = 3) ∧ (z2.dw 63).start.isSome = true) ∧
    (z3.pwr.phase ≠ Phase.loss ∧ (z3.dwState 63 = 1 ∨ z3.dwState 63 = 3) ∧ (z3.dw 63).start = none) ∧
    (z4.pwr.phase ≠ Phase.loss ∧ (z4.dwState 63 = 0 ∨ z4.dwState 63 = 2) ∧ z4.dwSwapPending 63 = false ∧ z4.rd Block.DMW (DMW_BANKW 63 (z4.dwActive 63) 0) = 4223664128 ∧ (z4.dw 63).out = []) ∧
    (z5.pwr.phase ≠ Phase.loss ∧ (z5.dwState 63 = 0 ∨ z5.dwState 63 = 2) ∧ z5.dwSwapPending 63 = false ∧ dwLegal 0 (z5.rd Block.DMW (DMW_BANKW 63 (z5.dwActive 63) 0)) = false) ∧
    (z6.dwState 63 ≠ 3) ∧
    (z7.dwState 63 = 3 ∧ z7.dwBad 63 = none ∧ (z7.dw 63).start = none) ∧
    (z8.dwState 63 = 3 ∧ z8.dwBad 63 = some (4112, o1)) ∧
    (z6.dwBit 63 6 = false) ∧
    (z9.dwBit 63 6 = true ∧ z9.dwBad 63 = none ∧ (z9.dw 63).start = none) ∧
    (z10.dwBit 63 6 = true ∧ z10.dwBad 63 = some (4112, o1)) ∧
    (z6.dwBit 63 5 = false) ∧
    (z11.dwBit 63 5 = true ∧ z11.dwBad 63 = some (4112, o1)) ∧
    ((z12.reqOn 2 = false ∨ ∀ (n : Nat), n < 64 → z12.dwState n ≠ 1 ∨ z12.dwBit n 4 = false ∨ z12.f Block.DMW (DMW_CH_STATUS n) 23 16 ≠ 2)) ∧
    (3 < 64 ∧ z13.reqOn 2 = true ∧ z13.dwState 3 = 1 ∧ z13.dwBit 3 4 = true ∧ z13.dwBit 3 5 = false ∧ z13.dwBit 3 6 = false ∧ z13.f Block.DMW (DMW_CH_STATUS 3) 23 16 = 2 ∧ (∀ (m : Nat), m < 64 → m ≠ 3 → z13.dwState m ≠ 1) ∧ (z13.dw 3).xfer = none ∧ (z13.dw 3).out = [] ∧ (z13.dw 3).start = none ∧ z13.dwSwapPending 3 = false ∧ (z13.dw 3).pc < 31 ∧ z13.rd Block.DMW (DMW_BANKW 3 (z13.dwActive 3) ((z13.dw 3).pc + 1)) = 4223664128) ∧
    ((∀ (b : DwOut), b ∈ (z6.dw 3).out → b.has (5 % 2 ^ 40) = false) ∧ (z6.dwState 3 ≠ 1 ∨ (z6.dw 3).xfer = none)) ∧
    (z14.dwState 3 = 1 ∧ (z14.dw 3).xfer ≠ none ∧ z14.dwRetry 3 ≤ (z14.dw 3).tries) ∧
    (z15.dwState 3 = 1 ∧ (z15.dw 3).xfer ≠ none ∧ (z15.dw 3).tries < z15.dwRetry 3 ∧ (z15.dw 3).out = [o2] ∧ o2.has ((4127 + 2 ^ 40) % 2 ^ 40) = true ∧ (z15.dw 3).xfer = some x1 ∧ x1.no = o2.no ∧ o2.tries < z15.dwRetry 3) ∧
    ((z16.dw 3).out = [z17] ∧ z17.has (4127 % 2 ^ 40) = true ∧ (z16.dw 3).xfer = some x1 ∧ x1.no = z17.no ∧ z16.dwRetry 3 ≤ z17.tries) ∧
    ((z18.dw 3).out = [o2] ∧ o2.has (4127 % 2 ^ 40) = true ∧ (z18.dw 3).xfer = some z19 ∧ z19.no ≠ o2.no ∧ z18.dwBit 3 5 = false ∧ o2.late = false ∧ o2.tries < z18.dwRetry 3) ∧
    (z20.dieOn = false) ∧
    (Idle z21 Block.DMW ∧ 63 < z21.rdN Block.DMW 4) ∧
    (Idle z22 Block.DMW ∧ 3 = z22.rdN Block.DMW 4 ∧ 3 < 64 ∧ z22.dwSwapPending 3 = false ∧ (crc32c (List.flatMap (fun w => leBytes 4 (BitVec.toNat w)) (List.map (fun i => z22.rd Block.DMW (DMW_BANKW 3 (1 - z22.dwActive 3) i)) (upto 32))) ≠ z22.rdN Block.DMW (DMW_BANKW 3 (1 - z22.dwActive 3) 32))) ∧
    (Idle z23 Block.DMW ∧ 3 = z23.rdN Block.DMW 4 ∧ 3 < 64 ∧ z23.dwSwapPending 3 = false ∧ (crc32c (List.flatMap (fun w => leBytes 4 (BitVec.toNat w)) (List.map (fun i => z23.rd Block.DMW (DMW_BANKW 3 (1 - z23.dwActive 3) i)) (upto 32))) = z23.rdN Block.DMW (DMW_BANKW 3 (1 - z23.dwActive 3) 32)) ∧ (dwBankLegal 0 (List.map (fun i => z23.rd Block.DMW (DMW_BANKW 3 (1 - z23.dwActive 3) i)) (upto 32)) = true)) ∧
    (Idle z24 Block.DMW ∧ 3 = z24.rdN Block.DMW 4 ∧ 3 < 64 ∧ z24.dwSwapPending 3 = true) ∧
    (Idle z25 Block.DMW ∧ 3 = z25.rdN Block.DMW 4 ∧ 3 < 64 ∧ z25.dwSwapPending 3 = false ∧ (crc32c (List.flatMap (fun w => leBytes 4 (BitVec.toNat w)) (List.map (fun i => z25.rd Block.DMW (DMW_BANKW 3 (1 - z25.dwActive 3) i)) (upto 32))) = z25.rdN Block.DMW (DMW_BANKW 3 (1 - z25.dwActive 3) 32)) ∧ (dwBankLegal 0 (List.map (fun i => z25.rd Block.DMW (DMW_BANKW 3 (1 - z25.dwActive 3) i)) (upto 32)) = false)) ∧
    (z26.dwBit 3 5 = true ∧ z26.dwBit 3 4 = false ∧ z26.dwBit 3 6 = false ∧ z26.dwState 3 = 1 ∧ z26.dwBad 3 = none ∧ (z26.dw 3).xfer = none ∧ (z26.dw 3).start = none ∧ z26.dwSwapPending 3 = false ∧ (z26.dw 3).pc < 31 ∧ z26.rd Block.DMW (DMW_BANKW 3 (z26.dwActive 3) ((z26.dw 3).pc + 1)) = 4223664128) ∧
    (z27.dieOn = true ∧ (∀ (n : Nat), n < 64 → z27.dwState n ≠ 1)) ∧
    (z28.dieOn = true ∧ (∀ (m : Nat), m < 64 → z28.dwState m = 1 → m = 3) ∧ z28.dwState 3 = 1 ∧ (z28.dw 3).xfer = some x1 ∧ x1.paced = true ∧ (z28.dw 3).req = some 4 ∧ z28.reqOn 4 = false ∧ z28.dwBad 3 = none) ∧
    (z29.dieOn = true ∧ z29.dwPick = some 3 ∧ 3 < 64 ∧ (∀ (m : Nat), m < 64 → z29.dwState m = 1 → m = 3) ∧ (z29.dw 3).xfer = some z30 ∧ z30.sfix = false ∧ z30.dfix = false ∧ 32 = z30.len ∧ z30.left % 16 = 0 ∧ 32 < z30.left ∧ z30.src ≠ 0 ∧ z30.dst ≠ 0 ∧ z30.n ≠ 0 ∧ z30.src ≠ z30.dst ∧ z30.src ≠ z30.n ∧ z30.dst ≠ z30.n ∧ z30.sa + 32 ≤ 16642998272 ∧ z30.da + 32 ≤ 16642998272 ∧ Memory.wf z29.mem = true ∧ (∀ (g : Nat), z29.latent.get 0 g = 0 ∧ z29.poison.get false g = false)) := by
  refine ⟨?_, ?_, ?_, ?_, ?_, ?_, ?_, ?_, ?_, ?_, ?_, ?_, ?_, ?_, ?_, ?_, ?_, ?_, ?_, ?_, ?_, ?_, ?_, ?_, ?_, ?_, ?_, ?_, ?_, ?_⟩
  · decide +kernel
  · decide +kernel
  · decide +kernel
  · decide +kernel
  · decide +kernel
  · decide +kernel
  · decide +kernel
  · decide +kernel
  · decide +kernel
  · decide +kernel
  · decide +kernel
  · decide +kernel
  · decide +kernel
  · decide +kernel
  · decide +kernel
  · decide +kernel
  · decide +kernel
  · decide +kernel
  · decide +kernel
  · decide +kernel
  · decide +kernel
  · unfold Idle; decide +kernel
  · unfold Idle; decide +kernel
  · unfold Idle; decide +kernel
  · unfold Idle; decide +kernel
  · unfold Idle; decide +kernel
  · decide +kernel
  · decide +kernel
  · decide +kernel
  · and_intros <;> first | decide +kernel | exact fun _ => ⟨rfl, rfl⟩

end Sys2Proof.Tests.Dumbwaiter

namespace Sys2Proof.Tests.UpdateCommands

def U (o v : Nat) : Block × Nat × Nat := (.UPD, o, v)
def okm : R := [(.HKP, HKP_CH_VALUE 26, 0x80000000+900), (.HKP, HKP_CH_VALUE 27, 0x80000000+900), (.HKP, HKP_CH_VALUE 25, 0x80000000+900)]
def us (l : R := []) (m := 2) : State := on m (okm ++ l)
def W1 (l : R := []) : State := us ([U 4 0x1235000A, U (UPD_R_LOCK 10) 0x12350100, U (UPD_R_STATE 10) 0x10000, U 0xC 0x10000] ++ l)
def rx (r m : Nat) (s : State) : State := { s with upd := { s.upd with rx := s.upd.rx.set 0 r m } }
def hdrN (r typ img ver arb rules : Nat) (extra : List Byte := []) (r8 := 0x1234) : List Nat :=
  let h := leBytes 4 0x1A495844 ++ leBytes 2 1 ++ leBytes 1 r ++ leBytes 1 0 ++ leBytes 2 r8 ++ [1, 12] ++ leBytes 4 ver ++ leBytes 4 arb ++ leBytes 4 img ++ leBytes 4 ((img + 4095)/4096) ++ leBytes 4 rules
  let h := (h ++ List.replicate 4096 0).take 0x80 ++ extra
  let h := (h ++ List.replicate 4096 0).take 0xFC
  ((h ++ leBytes 4 (crc32c h) ++ List.replicate 4096 0).take 4096).map BitVec.toNat
def putE (r : Nat) (b : Bool) (o : Nat) (d : List Nat) (s : State) : State := s.slotPut r b o (d.map (BitVec.ofNat 8))
def sh0 : List Byte := sha256 []
def W2 : State := W1 [U (UPD_R_POLICY 10) 1]
def loss (s : State) : State := { s with pwr := { s.pwr with phase := .loss } }
def W3 (r : Nat) (l : R := []) : State := us ([U 4 (0x12350000 + r), U (UPD_R_LOCK r) 0x12350100, U (UPD_R_STATE r) 0x10000, U 0xC 0x10000] ++ l)
def z1 : State := us [U 4 0xA]
def z2 : State := us [U 4 0x10A] 6
def z3 : State := on 2 [U 4 0x10A]
def z4 : State := us [U 4 0x10A, U (UPD_R_STATE 10) 0x10000]
def z5 : State := us [U 4 0x1235010A, U (UPD_R_LOCK 10) 0x12340100, U (UPD_R_STATE 10) 0x10000]
def z6 : State := us [U 4 0x10A, U (UPD_R_STATE 10) 0x30000]
def z7 : State := us [U 4 0x10A]
def z8 : State := W1 [U 8 0x1FFFFF]
def z9 : State := W1 [(.HKP, HKP_CH_VALUE 27, 0)]
def z10 : State := W1 [U (UPD_R_POLICY 10) 2, U 0xC 0xF0]
def z11 : State := W1
def z12 : State := rx 10 1 W1
def z13 : State := W1 [U 4 0xFFFF000A]
def z14 : State := us [U 4 0xA, U (UPD_R_STATE 10) 0x230000, U (UPD_R_VER_B 10) 5]
def z15 : State := us [U 4 0xA, U (UPD_R_STATE 10) 0x530000, U (UPD_R_VER_B 10) 5]
def z16 : State := us
def z17 : State := rx 10 5 W1
def z18 : State := putE 10 false 0 (hdrN 10 0 0 0x01020003 7 0 sh0) (us [U 4 0xC00, U (UPD_R_STATE 10) 0x30000])
def z19 : State := us [U 4 0xA, U 0xC 0x20000]
def z20 : State := us [U 4 1] 5
def z21 : State := us [U 4 1, U 8 0xC35A, U UPD_KEYS 0xA] 5
def z22 : State := putE 10 false 0 (hdrN 10 0 0 0x01020003 7 0 sh0) (rx 10 1 W2)
def z23 : State := loss (us [U 4 0x301])
def z24 : State := loss (rx 1 3 (W3 1 [U 8 1]))
def z25 : State := W1 [U (UPD_R_POLICY 10) 0, U 8 5]
def z26 : State := W1 [U (UPD_R_POLICY 10) 1, U 8 5]
def z27 : State := W1 [U (UPD_R_POLICY 10) 1, U 8 0]
def z28 : State := rx 6 1 (W3 6 [U 8 1, U (UPD_R_POLICY 6) 0])
def z29 : State := W3 6 [U 8 16, U (UPD_R_POLICY 6) 0]
def z30 : State := putE 10 false 0 (hdrN 10 0 4096 0x01020003 7 0 sh0) (us [U 4 0xA, U 0xC 0x20000, U 8 1, U (UPD_R_STATE 10) 0x20000])
def z31 : State := putE 10 false 0 (hdrN 10 0 0 0x01020003 7 0 []) (rx 10 1 W2)

theorem test_witness_updateCommands :
    (Idle z1 Block.UPD ∧ 10 = z1.f Block.UPD 4 3 0 ∧ 0 = z1.f Block.UPD 4 9 8 ∧ 0 = 0) ∧
    (Idle z2 Block.UPD ∧ 10 = z2.f Block.UPD 4 3 0 ∧ 1 = z2.f Block.UPD 4 9 8 ∧ 1 ≠ 0 ∧ z2.mode = 6) ∧
    (Idle z3 Block.UPD ∧ 10 = z3.f Block.UPD 4 3 0 ∧ 1 = z3.f Block.UPD 4 9 8 ∧ 1 ≠ 0 ∧ z3.mode ≠ 6 ∧ z3.mediumOk 10 = false) ∧
    (Idle z4 Block.UPD ∧ 10 = z4.f Block.UPD 4 3 0 ∧ 1 = z4.f Block.UPD 4 9 8 ∧ 1 ≠ 0 ∧ z4.mode ≠ 6 ∧ z4.mediumOk 10 = true ∧ z4.slotState 10 (z4.inactive 10) = 1 ∧ z4.bit Block.UPD 4 16 = false) ∧
    (Idle z5 Block.UPD ∧ 10 = z5.f Block.UPD 4 3 0 ∧ 1 = z5.f Block.UPD 4 9 8 ∧ 1 ≠ 0 ∧ z5.mode ≠ 6 ∧ z5.mediumOk 10 = true ∧ z5.slotState 10 (z5.inactive 10) = 1 ∧ z5.bit Block.UPD 4 16 = true ∧ z5.updToken 10 / 2 = z5.f Block.UPD 4 31 17 ∧ z5.f Block.UPD (UPD_R_LOCK 10) 9 8 = 1) ∧
    (Idle z6 Block.UPD ∧ 10 = z6.f Block.UPD 4 3 0 ∧ 1 = z6.f Block.UPD 4 9 8 ∧ 1 ≠ 0 ∧ z6.mode ≠ 6 ∧ z6.mediumOk 10 = true ∧ z6.slotState 10 (z6.inactive 10) ≠ 1 ∧ (z6.slotIn 10 3).isSome = true) ∧
    (Idle z7 Block.UPD ∧ 10 = z7.f Block.UPD 4 3 0 ∧ 1 = z7.f Block.UPD 4 9 8 ∧ 1 ≠ 0 ∧ z7.mode ≠ 6 ∧ z7.mediumOk 10 = true ∧ z7.slotState 10 (z7.inactive 10) ≠ 1 ∧ z7.slotIn 10 3 = none ∧ z7.norHeld 10 = false) ∧
    (Idle z1 Block.UPD ∧ 10 = z1.f Block.UPD 4 3 0 ∧ 0 = z1.f Block.UPD 8 20 0 ∧ ¬(z1.slotState 10 (z1.inactive 10) = 1 ∧ z1.updToken 10 = z1.f Block.UPD 4 31 16)) ∧
    (Idle z8 Block.UPD ∧ 10 = z8.f Block.UPD 4 3 0 ∧ 2097151 = z8.f Block.UPD 8 20 0 ∧ (z8.slotState 10 (z8.inactive 10) = 1 ∧ z8.updToken 10 = z8.f Block.UPD 4 31 16) ∧ ¬(2097151 < slotSize 10 / 4096 ∧ ((z8.rxMask 10).testBit 0 = true → 2097151 ≤ dxiBlocks (z8.hdr 10 (z8.inactive 10))))) ∧
    (Idle z9 Block.UPD ∧ 10 = z9.f Block.UPD 4 3 0 ∧ 0 = z9.f Block.UPD 8 20 0 ∧ (z9.slotState 10 (z9.inactive 10) = 1 ∧ z9.updToken 10 = z9.f Block.UPD 4 31 16) ∧ (0 < slotSize 10 / 4096 ∧ ((z9.rxMask 10).testBit 0 = true → 0 ≤ dxiBlocks (z9.hdr 10 (z9.inactive 10)))) ∧ z9.mediumOk 10 = false) ∧
    (Idle z10 Block.UPD ∧ 10 = z10.f Block.UPD 4 3 0 ∧ 0 = z10.f Block.UPD 8 20 0 ∧ (z10.slotState 10 (z10.inactive 10) = 1 ∧ z10.updToken 10 = z10.f Block.UPD 4 31 16) ∧ (0 < slotSize 10 / 4096 ∧ ((z10.rxMask 10).testBit 0 = true → 0 ≤ dxiBlocks (z10.hdr 10 (z10.inactive 10)))) ∧ z10.mediumOk 10 = true ∧ z10.norHeld 10 = false ∧ (z10.engBad (z10.f Block.UPD 12 7 0 * 2 ^ 32 + z10.f Block.UPD 12 31 12 * 4096) 4096 = true ∨ z10.bit Block.UPD (UPD_R_POLICY 10) 1 = true ∧ crc32c (z10.rdBytes (z10.f Block.UPD 12 7 0 * 2 ^ 32 + z10.f Block.UPD 12 31 12 * 4096) 4096) ≠ z10.rdN Block.UPD 16)) ∧
    (Idle z1 Block.UPD ∧ 10 = z1.f Block.UPD 4 3 0 ∧ ¬(z1.slotState 10 (z1.inactive 10) = 1 ∧ z1.updToken 10 = z1.f Block.UPD 4 31 16)) ∧
    (Idle z11 Block.UPD ∧ 10 = z11.f Block.UPD 4 3 0 ∧ (z11.slotState 10 (z11.inactive 10) = 1 ∧ z11.updToken 10 = z11.f Block.UPD 4 31 16) ∧ (¬∀ (k : Nat), k ≤ dxiBlocks (z11.hdr 10 (z11.inactive 10)) → (z11.rxMask 10).testBit k = true)) ∧
    (Idle z12 Block.UPD ∧ 10 = z12.f Block.UPD 4 3 0 ∧ (z12.slotState 10 (z12.inactive 10) = 1 ∧ z12.updToken 10 = z12.f Block.UPD 4 31 16) ∧ (∀ (k : Nat), k ≤ dxiBlocks (z12.hdr 10 (z12.inactive 10)) → (z12.rxMask 10).testBit k = true) ∧ z12.dxiCheck 10 (z12.hdr 10 (z12.inactive 10)) = some Result.badHeader) ∧
    (Idle z11 Block.UPD ∧ 10 = z11.f Block.UPD 4 3 0 ∧ 4661 = z11.f Block.UPD 4 31 16 ∧ z11.slotState 10 (z11.inactive 10) = 1 ∧ (4661 = z11.updToken 10 ∨ 4661 = 65535 ∧ z11.open Block.UPD = true)) ∧
    (Idle z13 Block.UPD ∧ 10 = z13.f Block.UPD 4 3 0 ∧ 65535 = z13.f Block.UPD 4 31 16 ∧ z13.slotState 10 (z13.inactive 10) = 1 ∧ 65535 ≠ z13.updToken 10 ∧ (65535 ≠ 65535 ∨ z13.open Block.UPD = false)) ∧
    (Idle z14 Block.UPD ∧ 10 = z14.f Block.UPD 4 3 0 ∧ 0 = z14.f Block.UPD 4 31 16 ∧ z14.slotState 10 (z14.inactive 10) = 2) ∧
    (Idle z15 Block.UPD ∧ 10 = z15.f Block.UPD 4 3 0 ∧ 0 = z15.f Block.UPD 4 31 16 ∧ z15.slotState 10 (z15.inactive 10) ≠ 1 ∧ z15.slotState 10 (z15.inactive 10) ≠ 2) ∧
    (z16.slotState 10 (z16.inactive 10) ≠ 1) ∧
    (z17.slotState 10 (z17.inactive 10) = 1) ∧
    (Idle z18 Block.UPD) ∧
    (Idle z19 Block.UPD ∧ 10 = z19.f Block.UPD 4 3 0 ∧ false = z19.bit Block.UPD 4 8 ∧ 0 = z19.f Block.UPD 8 20 0 ∧ (z19.slotState 10 false ≤ 1 ∨ dxiBlocks (z19.hdr 10 false) < 0)) ∧
    (Idle z16 Block.UPD ∧ 0 = z16.f Block.UPD 4 1 0 ∧ z16.mode ≠ 5) ∧
    (Idle z20 Block.UPD ∧ 1 = z20.f Block.UPD 4 1 0 ∧ z20.mode = 5 ∧ (z20.rd Block.UPD 8 ≠ 50010 ∨ ∀ (j : Nat), j < 4 → j ≠ 1 → z20.revoked j = true)) ∧
    (Idle z21 Block.UPD ∧ 1 = z21.f Block.UPD 4 1 0 ∧ z21.mode = 5 ∧ z21.rd Block.UPD 8 = 50010 ∧ 3 < 4 ∧ 3 ≠ 1 ∧ z21.revoked 3 = false) ∧
    (Idle z22 Block.UPD ∧ 10 = z22.f Block.UPD 4 3 0 ∧ (z22.slotState 10 (z22.inactive 10) = 1 ∧ z22.updToken 10 = z22.f Block.UPD 4 31 16) ∧ (∀ (k : Nat), k ≤ dxiBlocks (z22.hdr 10 (z22.inactive 10)) → (z22.rxMask 10).testBit k = true) ∧ z22.dxiCheck 10 (z22.hdr 10 (z22.inactive 10)) = none ∧ z22.dxiHash 10 (z22.inactive 10) (z22.hdr 10 (z22.inactive 10)) = true) ∧
    (Idle z23 Block.UPD ∧ 1 = z23.f Block.UPD 4 3 0 ∧ 3 = z23.f Block.UPD 4 9 8 ∧ 3 ≠ 0 ∧ z23.mode ≠ 6 ∧ z23.mediumOk 1 = true ∧ z23.slotState 1 (z23.inactive 1) ≠ 1 ∧ z23.slotIn 1 3 = none ∧ z23.norHeld 1 = true) ∧
    (Idle z24 Block.UPD ∧ 1 = z24.f Block.UPD 4 3 0 ∧ 1 = z24.f Block.UPD 8 20 0 ∧ (z24.slotState 1 (z24.inactive 1) = 1 ∧ z24.updToken 1 = z24.f Block.UPD 4 31 16) ∧ (1 < slotSize 1 / 4096 ∧ ((z24.rxMask 1).testBit 0 = true → 1 ≤ dxiBlocks (z24.hdr 1 (z24.inactive 1)))) ∧ z24.mediumOk 1 = true ∧ z24.norHeld 1 = true) ∧
    (Idle z25 Block.UPD ∧ 10 = z25.f Block.UPD 4 3 0 ∧ 5 = z25.f Block.UPD 8 20 0 ∧ (z25.slotState 10 (z25.inactive 10) = 1 ∧ z25.updToken 10 = z25.f Block.UPD 4 31 16) ∧ (5 < slotSize 10 / 4096 ∧ ((z25.rxMask 10).testBit 0 = true → 5 ≤ dxiBlocks (z25.hdr 10 (z25.inactive 10)))) ∧ z25.mediumOk 10 = true ∧ z25.norHeld 10 = false ∧ z25.engBad (z25.f Block.UPD 12 7 0 * 2 ^ 32 + z25.f Block.UPD 12 31 12 * 4096) 4096 = false ∧ (z25.bit Block.UPD (UPD_R_POLICY 10) 1 = false ∨ crc32c (z25.rdBytes (z25.f Block.UPD 12 7 0 * 2 ^ 32 + z25.f Block.UPD 12 31 12 * 4096) 4096) = z25.rdN Block.UPD 16) ∧ (z25.bit Block.UPD (UPD_R_POLICY 10) 0 = false ∨ 5 ≠ 0 ∧ (z25.rxMask 10).testBit 0 = true ∨ 5 = 0 ∧ z25.dxiCheck 10 (z25.rdBytes (z25.f Block.UPD 12 7 0 * 2 ^ 32 + z25.f Block.UPD 12 31 12 * 4096) 4096) = none) ∧ regionNor 10 = false ∧ (10 ≠ 6 ∨ u06Clear 5 (z25.rdBytes (z25.f Block.UPD 12 7 0 * 2 ^ 32 + z25.f Block.UPD 12 31 12 * 4096) 4096) = true)) ∧
    (Idle z26 Block.UPD ∧ 10 = z26.f Block.UPD 4 3 0 ∧ 5 = z26.f Block.UPD 8 20 0 ∧ (z26.slotState 10 (z26.inactive 10) = 1 ∧ z26.updToken 10 = z26.f Block.UPD 4 31 16) ∧ (5 < slotSize 10 / 4096 ∧ ((z26.rxMask 10).testBit 0 = true → 5 ≤ dxiBlocks (z26.hdr 10 (z26.inactive 10)))) ∧ z26.mediumOk 10 = true ∧ z26.norHeld 10 = false ∧ z26.engBad (z26.f Block.UPD 12 7 0 * 2 ^ 32 + z26.f Block.UPD 12 31 12 * 4096) 4096 = false ∧ (z26.bit Block.UPD (UPD_R_POLICY 10) 1 = false ∨ crc32c (z26.rdBytes (z26.f Block.UPD 12 7 0 * 2 ^ 32 + z26.f Block.UPD 12 31 12 * 4096) 4096) = z26.rdN Block.UPD 16) ∧ z26.bit Block.UPD (UPD_R_POLICY 10) 0 = true ∧ 5 ≠ 0 ∧ (z26.rxMask 10).testBit 0 = false) ∧
    (Idle z27 Block.UPD ∧ 10 = z27.f Block.UPD 4 3 0 ∧ 0 = z27.f Block.UPD 8 20 0 ∧ (z27.slotState 10 (z27.inactive 10) = 1 ∧ z27.updToken 10 = z27.f Block.UPD 4 31 16) ∧ (0 < slotSize 10 / 4096 ∧ ((z27.rxMask 10).testBit 0 = true → 0 ≤ dxiBlocks (z27.hdr 10 (z27.inactive 10)))) ∧ z27.mediumOk 10 = true ∧ z27.norHeld 10 = false ∧ z27.engBad (z27.f Block.UPD 12 7 0 * 2 ^ 32 + z27.f Block.UPD 12 31 12 * 4096) 4096 = false ∧ (z27.bit Block.UPD (UPD_R_POLICY 10) 1 = false ∨ crc32c (z27.rdBytes (z27.f Block.UPD 12 7 0 * 2 ^ 32 + z27.f Block.UPD 12 31 12 * 4096) 4096) = z27.rdN Block.UPD 16) ∧ z27.bit Block.UPD (UPD_R_POLICY 10) 0 = true ∧ 0 = 0 ∧ 10 ≠ 6 ∧ z27.dxiCheck 10 (z27.rdBytes (z27.f Block.UPD 12 7 0 * 2 ^ 32 + z27.f Block.UPD 12 31 12 * 4096) 4096) = some Result.badHeader) ∧
    (Idle z28 Block.UPD ∧ 6 = z28.f Block.UPD 4 3 0 ∧ 1 = z28.f Block.UPD 8 20 0 ∧ (z28.slotState 6 (z28.inactive 6) = 1 ∧ z28.updToken 6 = z28.f Block.UPD 4 31 16) ∧ (1 < slotSize 6 / 4096 ∧ ((z28.rxMask 6).testBit 0 = true → 1 ≤ dxiBlocks (z28.hdr 6 (z28.inactive 6)))) ∧ z28.mediumOk 6 = true ∧ z28.norHeld 6 = false ∧ z28.engBad (z28.f Block.UPD 12 7 0 * 2 ^ 32 + z28.f Block.UPD 12 31 12 * 4096) 4096 = false ∧ (z28.bit Block.UPD (UPD_R_POLICY 6) 1 = false ∨ crc32c (z28.rdBytes (z28.f Block.UPD 12 7 0 * 2 ^ 32 + z28.f Block.UPD 12 31 12 * 4096) 4096) = z28.rdN Block.UPD 16) ∧ (z28.bit Block.UPD (UPD_R_POLICY 6) 0 = false ∨ 1 ≠ 0 ∧ (z28.rxMask 6).testBit 0 = true ∨ 1 = 0 ∧ z28.dxiCheck 6 (z28.rdBytes (z28.f Block.UPD 12 7 0 * 2 ^ 32 + z28.f Block.UPD 12 31 12 * 4096) 4096) = none) ∧ regionNor 6 = true ∧ (6 ≠ 6 ∨ u06Clear 1 (z28.rdBytes (z28.f Block.UPD 12 7 0 * 2 ^ 32 + z28.f Block.UPD 12 31 12 * 4096) 4096) = true)) ∧
    (Idle z29 Block.UPD ∧ 6 = z29.f Block.UPD 4 3 0 ∧ 16 = z29.f Block.UPD 8 20 0 ∧ (z29.slotState 6 (z29.inactive 6) = 1 ∧ z29.updToken 6 = z29.f Block.UPD 4 31 16) ∧ (16 < slotSize 6 / 4096 ∧ ((z29.rxMask 6).testBit 0 = true → 16 ≤ dxiBlocks (z29.hdr 6 (z29.inactive 6)))) ∧ z29.mediumOk 6 = true ∧ z29.norHeld 6 = false ∧ z29.engBad (z29.f Block.UPD 12 7 0 * 2 ^ 32 + z29.f Block.UPD 12 31 12 * 4096) 4096 = false ∧ (z29.bit Block.UPD (UPD_R_POLICY 6) 1 = false ∨ crc32c (z29.rdBytes (z29.f Block.UPD 12 7 0 * 2 ^ 32 + z29.f Block.UPD 12 31 12 * 4096) 4096) = z29.rdN Block.UPD 16) ∧ (z29.bit Block.UPD (UPD_R_POLICY 6) 0 = false ∨ (z29.rxMask 6).testBit 0 = true) ∧ 6 = 6 ∧ u06Clear 16 (z29.rdBytes (z29.f Block.UPD 12 7 0 * 2 ^ 32 + z29.f Block.UPD 12 31 12 * 4096) 4096) = false) ∧
    (Idle z30 Block.UPD ∧ 10 = z30.f Block.UPD 4 3 0 ∧ false = z30.bit Block.UPD 4 8 ∧ 1 = z30.f Block.UPD 8 20 0 ∧ 2 ≤ z30.slotState 10 false ∧ 1 ≤ dxiBlocks (z30.hdr 10 false)) ∧
    (Idle z31 Block.UPD ∧ 10 = z31.f Block.UPD 4 3 0 ∧ (z31.slotState 10 (z31.inactive 10) = 1 ∧ z31.updToken 10 = z31.f Block.UPD 4 31 16) ∧ (∀ (k : Nat), k ≤ dxiBlocks (z31.hdr 10 (z31.inactive 10)) → (z31.rxMask 10).testBit k = true) ∧ z31.dxiCheck 10 (z31.hdr 10 (z31.inactive 10)) = none ∧ z31.dxiHash 10 (z31.inactive 10) (z31.hdr 10 (z31.inactive 10)) = false) := by
  refine ⟨?_, ?_, ?_, ?_, ?_, ?_, ?_, ?_, ?_, ?_, ?_, ?_, ?_, ?_, ?_, ?_, ?_, ?_, ?_, ?_, ?_, ?_, ?_, ?_, ?_, ?_, ?_, ?_, ?_, ?_, ?_, ?_, ?_, ?_, ?_⟩ <;> first | (unfold Idle; decide +kernel) | decide +kernel

end Sys2Proof.Tests.UpdateCommands

namespace Sys2Proof.Tests.ServiceSessions

def okm : R := [(.HKP, HKP_CH_VALUE 26, 0x80000000+900), (.HKP, HKP_CH_VALUE 27, 0x80000000+900), (.HKP, HKP_CH_VALUE 25, 0x80000000+900)]
def us (l : R := []) (m := 2) : State := on m (okm ++ l)
def x7 : Session := { id := 7, port := 4, client := 99, ver := 0x300, last := some (5, [1,2]) }
def sv (l : List Session) (s : State) : State := { s with svc := l }
def x9 : Session := { id := 9, port := 2, client := 98, ver := 0 }
def U (o v : Nat) : Block × Nat × Nat := (.UPD, o, v)
def rec1 (s : State) : State := { s with sys := { s.sys with stopped := 1 } }
def ct (f : Cart → Cart) (s : State) : State := { s with cart := f s.cart }
def z1 : State := sv [x9, x7] us
def z2 : State := sv [x9, x7] (us [U (UPD_R_STATE 10) 0x10000, U (UPD_R_LOCK 10) 0x12350100])
def z3 : List Byte := List.replicate 1024 3
def z4 : State := rec1 (sv [x9, x7] us)
def z5 : State := ph .off
def z6 : State := rec1 us
def z7 : List (Byte × Byte) := [(2,4),(3,1)]
def z8 : State := us
def z9 : List (Byte × Byte) := []
def z10 : State := us.putNow 1000000000
def z11 : State := ct (fun c => { c with coupled := true }) us
def z12 : State := sv [x7] us
def z13 : List Byte := [1,2]
def z14 : State := (sv [x9, x7] us)
def z15 : State := (sv [x9, x7] (us [] 5))
def z16 : List Byte := [1]

/-- A session in which three parts, each empty, of block 5 have come. -/
def half : Session :=
  let b : SvcBlock := { token := 0x1235, region := 10, block := 5, crc := 0, parts := ((SMap.empty.set [] 0 [1]).set [] 1 [1]).set [] 2 [1] }
  { id := 7, port := 4, client := 99, ver := 0x300, blocks := [b] }
def opened : State := sv [half] (us [U (UPD_R_STATE 10) 0x10000, U (UPD_R_LOCK 10) 0x12350100, U (UPD_R_POLICY 10) 0])
/-- The fourth part completes the block, which WRITE_BLOCK takes. -/
theorem test_witness_updData :
    opened.svc.find? (fun y => y.id = 7) = some half ∧ opened.recovering = false ∧ (List.replicate 1024 (3 : Byte)).length = 1024 ∧
    (svcPart half.blocks { token := 0x1235, region := 10, block := 5, crc := 0, parts := SMap.empty } 3
      (List.replicate 1024 3)).1.whole = some ([1, 1, 1] ++ List.replicate 1024 3) ∧
    (opened.updWrite 10 0x1235 5 (some ([1, 1, 1] ++ List.replicate 1024 3)) 0).2 = .ok := by
  refine ⟨?_, ?_, ?_, ?_, ?_⟩ <;> decide +kernel
theorem test_witness_serviceSessions :
    ((List.find? (fun y => decide (y.id = 9)) z1.svc = some x9) ∧ Option.map Prod.fst x9.last ≠ some 5 ∧ x9.ver = 0) ∧
    ((List.find? (fun y => decide (y.id = 7)) z1.svc = some x7) ∧ Option.map Prod.fst x7.last ≠ some 6) ∧
    ((List.find? (fun y => decide (y.id = 7)) z1.svc = some x7) ∧ Option.map Prod.fst x7.last ≠ some 6 ∧ x7.ver ≠ 0 ∧ 15 < 16) ∧
    ((List.find? (fun y => decide (y.id = 7)) z1.svc = some x7) ∧ Option.map Prod.fst x7.last ≠ some 6 ∧ x7.ver ≠ 0 ∧ 10 ≤ 15 ∧ z1.recovering = false ∧ slotSize 10 < 4294967295) ∧
    ((List.find? (fun y => decide (y.id = 7)) z2.svc = some x7) ∧ Option.map Prod.fst x7.last ≠ some 6 ∧ x7.ver ≠ 0 ∧ 10 ≤ 15 ∧ z2.recovering = false ∧ z2.slotState 10 (z2.inactive 10) = 1 ∧ z2.updToken 10 = 4661) ∧
    ((List.find? (fun y => decide (y.id = 7)) z1.svc = some x7) ∧ Option.map Prod.fst x7.last ≠ some 6 ∧ x7.ver ≠ 0 ∧ 10 ≤ 15 ∧ z1.recovering = false ∧ 4096 ≤ slotSize 10 ∧ z1.mode ≠ 6 ∧ z1.mediumOk 10 = true ∧ z1.slotState 10 (z1.inactive 10) ≠ 1 ∧ z1.slotIn 10 3 = none ∧ z1.norHeld 10 = false ∧ z1.slotState 10 (z1.inactive 10) ≠ 2 ∧ z3.length = 1024 ∧ x7.blocks = [] ∧ 1 ≤ 6 ∧ 6 ≤ 40) ∧
    ((List.find? (fun y => decide (y.id = 7)) z1.svc = some x7) ∧ Option.map Prod.fst x7.last ≠ some 6 ∧ x7.ver ≠ 0 ∧ z1.recovering = false ∧ (0 = 0 ∨ 40 < 0)) ∧
    ((List.find? (fun y => decide (y.id = 7)) z4.svc = some x7) ∧ Option.map Prod.fst x7.last ≠ some 6 ∧ x7.ver ≠ 0 ∧ z4.recovering = true) ∧
    ((z5.dieOn = false ∨ z5.recovering = true ∧ 3 ≠ 4)) ∧
    (z6.dieOn = true ∧ (z6.recovering = false ∨ 4 = 4) ∧ z7 ≠ [] ∧ z7.length ≤ 8 ∧ (∀ (x : Session), x ∈ z6.svc → (x.port == 4 && x.client == 5) = true → Option.map Prod.fst x.last ≠ some 7) ∧ ((List.filter (fun x => !(x.port == 4 && x.client == 5)) z6.svc).length < 2)) ∧
    (z8.dieOn = true ∧ (z8.recovering = false ∨ 3 = 4) ∧ (z9 = [] ∨ 8 < z9.length)) ∧
    (z1.dieOn = true ∧ (z1.recovering = false ∨ 3 = 4) ∧ z7 ≠ [] ∧ z7.length ≤ 8 ∧ (∀ (x : Session), x ∈ z1.svc → (x.port == 3 && x.client == 5) = true → Option.map Prod.fst x.last ≠ some 7) ∧ (2 ≤ (List.filter (fun x => !(x.port == 3 && x.client == 5)) z1.svc).length)) ∧
    ((1500000001 + 500000000 < z10.now ∨ z10.now + 500000000 < 1500000001)) ∧
    (z10.now ≤ 1500000000 + 500000000 ∧ 1500000000 ≤ z10.now + 500000000) ∧
    (z8.cart.coupled = false) ∧
    (z11.cart.coupled = true) ∧
    ((∀ (x : Session), x ∈ z12.svc → x.id ≠ 9)) ∧
    ((List.find? (fun y => decide (y.id = 7)) z1.svc = some x7) ∧ x7.last = some (5, z13)) ∧
    ((List.find? (fun y => decide (y.id = 7)) z14.svc = some x7) ∧ Option.map Prod.fst x7.last ≠ some 6 ∧ x7.ver ≠ 0 ∧ z14.recovering = false ∧ z14.mode ≠ 5) ∧
    ((List.find? (fun y => decide (y.id = 7)) z15.svc = some x7) ∧ Option.map Prod.fst x7.last ≠ some 6 ∧ x7.ver ≠ 0 ∧ z15.recovering = false ∧ z15.mode = 5 ∧ z15.sys.active = false ∧ z15.pwr.phase ∈ [Phase.run, Phase.ride, Phase.reserve]) ∧
    ((List.find? (fun y => decide (y.id = 7)) z1.svc = some x7) ∧ Option.map Prod.fst x7.last ≠ some 6 ∧ x7.ver ≠ 0 ∧ 10 ≤ 15 ∧ z1.recovering = false ∧ z16.length ≠ 1024) := by
  refine ⟨?_, ?_, ?_, ?_, ?_, ?_, ?_, ?_, ?_, ?_, ?_, ?_, ?_, ?_, ?_, ?_, ?_, ?_, ?_, ?_, ?_⟩ <;> decide +kernel

end Sys2Proof.Tests.ServiceSessions

namespace Sys2Proof.Tests.BureauPut

def okm : R := [(.HKP, HKP_CH_VALUE 26, 0x80000000+900), (.HKP, HKP_CH_VALUE 27, 0x80000000+900), (.HKP, HKP_CH_VALUE 25, 0x80000000+900)]
def bs (l : R := []) (m := 2) : State := on m (okm ++ l)
def r1 : BurRec := { code := 0xF001, source := 2, severity := 3, flags := 1 }
def bu (f : Bur → Bur) (s : State) : State := { s with bur := f s.bur }
def r2 : BurRec := { code := 0xF002, source := 2, severity := 3, flags := 1, repeats := 7 }
def z1 : State := bs
def z2 : State := bu (fun b => { b with queue := [r1] }) bs
def z3 : List BurRec := []
def z4 : State := bu (fun b => { b with queue := [r2, r1] }) bs
def z5 : List BurRec := [r2]
def z6 : State := bu (fun b => { b with queue := List.replicate 255 r2 ++ [r1] }) bs
def z7 : List BurRec := List.replicate 255 r2

theorem test_witness_bureauPut :
    ((fld 4026466819 31 16 < 61440 ∨ 65279 < fld 4026466819 31 16)) ∧
    (61440 ≤ fld 4026532355 31 16 ∧ fld 4026532355 31 16 ≤ 65279 ∧ z1.bur.queue = [] ∧ z1.bur.last = none) ∧
    (61440 ≤ fld 4026597891 31 16 ∧ fld 4026597891 31 16 ≤ 65279 ∧ z2.bur.queue = z3 ++ [r1] ∧ r1.same { code := fld 4026597891 31 16, source := fld 4026597891 15 8, severity := fld 4026597891 2 0, opsec := z2.clk.opsec, pcc := z2.clk.pcc, flags := 1, d0 := z2.rd Block.BUR (BUR_PUT_DATA 0), d1 := z2.rd Block.BUR (BUR_PUT_DATA 1), d2 := z2.rd Block.BUR (BUR_PUT_DATA 2) } = true ∧ r1.repeats < 65535) ∧
    (61440 ≤ fld 4278125059 31 16 ∧ fld 4278125059 31 16 ≤ 65279 ∧ z4.bur.queue = z5 ++ [r1] ∧ r1.same { code := fld 4278125059 31 16, source := fld 4278125059 15 8, severity := fld 4278125059 2 0, opsec := z4.clk.opsec, pcc := z4.clk.pcc, flags := 1, d0 := z4.rd Block.BUR (BUR_PUT_DATA 0), d1 := z4.rd Block.BUR (BUR_PUT_DATA 1), d2 := z4.rd Block.BUR (BUR_PUT_DATA 2) } = false ∧ z5.length < 255) ∧
    (61440 ≤ fld 4026728963 31 16 ∧ fld 4026728963 31 16 ≤ 65279 ∧ z6.bur.queue = z7 ++ [r1] ∧ r1.same { code := fld 4026728963 31 16, source := fld 4026728963 15 8, severity := fld 4026728963 2 0, opsec := z6.clk.opsec, pcc := z6.clk.pcc, flags := 1, d0 := z6.rd Block.BUR (BUR_PUT_DATA 0), d1 := z6.rd Block.BUR (BUR_PUT_DATA 1), d2 := z6.rd Block.BUR (BUR_PUT_DATA 2) } = false ∧ z7.length = 255) := by
  refine ⟨?_, ?_, ?_, ?_, ?_⟩ <;> decide +kernel

end Sys2Proof.Tests.BureauPut

namespace Sys2Proof.Tests.BureauRecords

def B (o v : Nat) : Block × Nat × Nat := (.BUR, o, v)
def okm : R := [(.HKP, HKP_CH_VALUE 26, 0x80000000+900), (.HKP, HKP_CH_VALUE 27, 0x80000000+900), (.HKP, HKP_CH_VALUE 25, 0x80000000+900)]
def bs (l : R := []) (m := 2) : State := on m (okm ++ l)
def bu (f : Bur → Bur) (s : State) : State := { s with bur := f s.bur }
def r1 : BurRec := { code := 0xF001, source := 2, severity := 3, flags := 1 }
def r2 : BurRec := { code := 0xF002, source := 2, severity := 3, flags := 1, repeats := 7 }
def z1 : State := bs [B BUR_STATUS 1]
def z2 : State := on 2 []
def z3 : State := bu (fun b => { b with queue := [r1, r2] }) bs
def z4 : List BurRec := [r2]
def z5 : State := bu (fun b => { b with queue := [r1], last := some r2, lastIdx := 4, dirty := true }) (bs [B BUR_HEAD 5])
def z6 : List BurRec := []
def z7 : State := bs
def z8 : State := bu (fun b => { b with last := some r2, lastIdx := 4, dirty := true }) bs
def z9 : State := bs [] 5
def z10 : State := bs [B 0x18 1, B 4 0xC35A, B BUR_STATUS 1] 5
def z11 : State := on 5 [B 0x18 1, B 4 0xC35A]
def z12 : State := bs [B 0x18 1, B 4 0xC35A] 5

theorem test_witness_bureauRecords :
    (z1.bit Block.BUR BUR_STATUS 0 = true) ∧
    (z2.bit Block.BUR BUR_STATUS 0 = false ∧ z2.mramOk = false) ∧
    (z3.bit Block.BUR BUR_STATUS 0 = false ∧ z3.mramOk = true ∧ z3.bur.queue = r1 :: z4 ∧ z3.bur.heldLost = 0 ∧ z3.rdN Block.BUR BUR_HEAD < 131072 ∧ (∀ (o : BurRec), z3.bur.last = some o → o.repeats ≤ 1)) ∧
    (z5.bit Block.BUR BUR_STATUS 0 = false ∧ z5.mramOk = true ∧ z5.bur.queue = r1 :: z6 ∧ z5.bur.heldLost = 0 ∧ z5.rdN Block.BUR BUR_HEAD < 131072 ∧ z5.bur.last = some r2 ∧ 1 < r2.repeats ∧ z5.bur.lastIdx < 131072 ∧ z5.bur.lastIdx ≠ z5.rdN Block.BUR BUR_HEAD) ∧
    ((z7.bit Block.BUR BUR_STATUS 0 = true ∨ z7.mramOk = false ∨ z7.bur.dirty = false)) ∧
    (z8.bit Block.BUR BUR_STATUS 0 = false ∧ z8.mramOk = true ∧ z8.bur.last = some r2 ∧ z8.bur.dirty = true) ∧
    (Idle z7 Block.BUR ∧ z7.bur.queue.length < 256) ∧
    (z7.bit Block.BUR BUR_STATUS 0 = false) ∧
    (Idle z7 Block.BUR ∧ z7.mode ≠ 5) ∧
    (Idle z9 Block.BUR ∧ z9.mode = 5 ∧ (z9.open Block.BUR = false ∨ z9.rd Block.BUR 4 ≠ 50010)) ∧
    (Idle z10 Block.BUR ∧ z10.mode = 5 ∧ z10.open Block.BUR = true ∧ z10.rd Block.BUR 4 = 50010 ∧ z10.bit Block.BUR BUR_STATUS 0 = true) ∧
    (Idle z11 Block.BUR ∧ z11.mode = 5 ∧ z11.open Block.BUR = true ∧ z11.rd Block.BUR 4 = 50010 ∧ z11.bit Block.BUR BUR_STATUS 0 = false ∧ z11.mramOk = false) ∧
    (Idle z12 Block.BUR ∧ z12.mode = 5 ∧ z12.open Block.BUR = true ∧ z12.rd Block.BUR 4 = 50010 ∧ z12.bit Block.BUR BUR_STATUS 0 = false ∧ z12.mramOk = true ∧ z12.rdN Block.BUR BUR_HEAD < 131072) := by
  refine ⟨?_, ?_, ?_, ?_, ?_, ?_, ?_, ?_, ?_, ?_, ?_, ?_, ?_⟩ <;> first | (unfold Idle; decide +kernel) | decide +kernel

end Sys2Proof.Tests.BureauRecords

namespace Sys2Proof.Tests.HousekeepingAndHeat

def okm : R := [(.HKP, HKP_CH_VALUE 26, 0x80000000+900), (.HKP, HKP_CH_VALUE 27, 0x80000000+900), (.HKP, HKP_CH_VALUE 25, 0x80000000+900)]
def bs (l : R := []) (m := 2) : State := on m (okm ++ l)
def bu (f : Bur → Bur) (s : State) : State := { s with bur := f s.bur }
def r1 : BurRec := { code := 0xF001, source := 2, severity := 3, flags := 1 }
def r2 : BurRec := { code := 0xF002, source := 2, severity := 3, flags := 1, repeats := 7 }
def b2 : State := bu (fun b => { b with queue := [r1, r2] }) bs
def z1 : State := bs
def z2 : State := bs [(.HKP, 0x18, 1), (.HKP, HKP_CH_CFG 16, 0xFF000000)]
def z3 : State := bs [(.HKP, 4, 0x80000021), (.HKP, 8, 0x80000021), (.HKP, HKP_CH_CFG 5, 0x9E000000), (.HKP, HKP_CH_CFG 63, 0xFF000000), (.HKP, HKP_CH_CFG 6, 0xFF000000)]
def z4 : State := ph .off bs

theorem test_witness_housekeepingAndHeat :
    (¬z1.pwr.phase ∈ [Phase.off, Phase.dormant, Phase.thermal]) ∧
    (z1.open Block.HKP = false) ∧
    (z2.open Block.HKP = true) ∧
    (Idle z1 Block.HKP) ∧
    (Idle z3 Block.HKP) ∧
    (z4.pwr.phase ∈ [Phase.off, Phase.dormant, Phase.thermal]) ∧
    ((¬z4.pwr.phase ∈ [Phase.run, Phase.ride, Phase.reserve] ∨ z4.thermalTrip 16 0 2000 = false)) ∧
    (z1.pwr.phase ∈ [Phase.run, Phase.ride, Phase.reserve] ∧ (0 = 0 ∧ 16 ≤ 16 ∧ 16 ≤ 23 ∧ 1250 ≤ 1250 ∨ 0 < 0 ∧ 16 = 29 + 0 ∧ z1.bit Block.HKP (HKP_CH_CFG 16) 31 = true ∧ clampI 1000 1700 (sfld (z1.rd Block.HKP (HKP_CH_HI 16)) 31 16) ≤ 1250)) ∧
    (b2.pwr.phase ∈ [Phase.run, Phase.ride, Phase.reserve] ∧ b2.thermalTrip 16 0 1300 = true ∧ 1050 < 1051) := by
  refine ⟨?_, ?_, ?_, ?_, ?_, ?_, ?_, ?_, ?_⟩ <;> first | (unfold Idle; decide +kernel) | decide +kernel

end Sys2Proof.Tests.HousekeepingAndHeat


namespace Sys2Proof.Tests

/-! ## Ill-formed commands -/

theorem test_wellFormed_supply :
    (Instr.rideReturn (2 ^ 64)).wellFormed = false ∧ (Instr.rideTimeExpired (2 ^ 64) [none, none, none]).wellFormed = false ∧
    (Instr.rideTimeExpired 0 [none]).wellFormed = false ∧ (Instr.reserveBridgeExpired []).wellFormed = false ∧
    (Instr.collapse []).wellFormed = false ∧ (Instr.reverseBatM []).wellFormed = false ∧
    (Instr.gndMOpen 65536).wellFormed = false ∧ (Instr.overv 65536).wellFormed = false ∧
    (Instr.feedLow 0 65536).wellFormed = false ∧ (Instr.feedLowClear 0 65536).wellFormed = false ∧
    (Instr.journalEnd (2 ^ 64) .listEnd 0).wellFormed = false ∧ (Instr.journalEnd 0 .listEnd 65536).wellFormed = false ∧
    (Instr.sequencerEnd (2 ^ 64)).wellFormed = false ∧ (Instr.bankMeasurement 0 0 65536 none).wellFormed = false ∧
    (Instr.armedChg 65536 none).wellFormed = false ∧ (Instr.bankTestComplete 65536 none).wellFormed = false ∧
    (Instr.pmAverage []).wellFormed = false ∧ (Instr.scrubRead (0x3E0000000 / 64) 0).wellFormed = false := by decide
theorem test_wellFormed_drives :
    (Instr.loopSample 0 (2 ^ 64) false).wellFormed = false ∧ (Instr.stagedWrite 2 0).wellFormed = false ∧
    (Instr.stagedWrite 0x100000 0).wellFormed = false ∧ (Instr.ledgerWrite []).wellFormed = false ∧
    (Instr.idReadDone 0 [none, none, none, none]).wellFormed = false ∧
    (Instr.feedOff 0 .reverse (List.replicate 41 0)).wellFormed = false := by decide
theorem test_wellFormed_frames :
    (Instr.linkLost 0 ⟨2 ^ 64, 0, false⟩).wellFormed = false ∧ (Instr.frameStartPacket 0 ⟨⟨.good, 0⟩, 2 ^ 64⟩).wellFormed = false ∧
    (Instr.frameEndPacket 0 ⟨⟨.good, 0⟩, 2 ^ 64⟩ 0 false).wellFormed = false ∧ (Instr.noFeTimeout 0 ⟨2 ^ 64, 0, false⟩).wellFormed = false ∧
    (Instr.frameProcessed (2 ^ 64) 0).wellFormed = false ∧ (Instr.camStart []).wellFormed = false ∧
    (Instr.pnlStart false []).wellFormed = false ∧ (Instr.pnlBacklight 0 0 []).wellFormed = false ∧
    (Instr.frameReceived 0 (2 ^ 64) { id := 0, fmt := 0, data := [] } none).wellFormed = false ∧
    (Instr.frameReceived 0 0 { id := 0, fmt := 0, data := List.replicate 65 0 } none).wellFormed = false ∧
    (Instr.txDone 0 (2 ^ 64) .sent 0).wellFormed = false ∧ (Instr.ttCycle 0 (2 ^ 64) .own).wellFormed = false ∧
    (Instr.ethFrameReceived 0 (2 ^ 64) (List.replicate 14 0) false 0).wellFormed = false ∧
    (Instr.ethFrameReceived 0 0 [] false 0).wellFormed = false := by decide
/-- A long packet carries at most 65,535 bytes, a datagram at a sensor slot the same. -/
theorem test_wellFormed_lengths (p : CamPkt) (o : GnsObs) :
    (Instr.longPacket 0 0 p false (List.replicate 65536 0)).wellFormed = false ∧
    (Instr.slotFragment (List.replicate 65536 0)).wellFormed = false ∧ (Instr.gnsMeas (List.replicate 513 o)).wellFormed = false := by
  simp only [Instr.wellFormed, List.length_replicate]
  decide
theorem test_wellFormed_sensors :
    (Instr.navbit 0 false (2 ^ 64) [] []).wellFormed = false ∧ (Instr.gnsAnt 0 65536).wellFormed = false ∧
    (Instr.antBiasRetry 0 65536).wellFormed = false ∧ (Instr.imuRecord (2 ^ 64) [0, 0, 0, 0, 0, 0]).wellFormed = false ∧
    (Instr.imuRecord 0 []).wellFormed = false ∧ (Instr.tmark (2 ^ 64)).wellFormed = false ∧
    (Instr.tabletopCut (2 ^ 64) [] []).wellFormed = false ∧ (Instr.finEdge 0 (2 ^ 64) 0 0).wellFormed = false ∧
    (Instr.finRefresh 0 (2 ^ 64) false).wellFormed = false ∧ (Instr.lossImpact 0 (2 ^ 64) 0 0).wellFormed = false ∧
    (Instr.lossImpact 0 0 0 65536).wellFormed = false ∧ (Instr.lossRateRefresh 0 (2 ^ 64)).wellFormed = false ∧
    (Instr.mapTick (2 ^ 64)).wellFormed = false := by decide
theorem test_wellFormed_service :
    (Instr.beatError 0 true (2 ^ 40)).wellFormed = false ∧ (Instr.svcUpdData 0 0 0 0 0 0 0 []).wellFormed = false ∧
    (Instr.housekeepingRound []).wellFormed = false ∧ (Instr.thermalShutdown 0 0 0 []).wellFormed = false ∧
    (Instr.cartState (2 ^ 64) []).wellFormed = false ∧ (Instr.updBegin).wellFormed = true := by decide

/-! ## One step, with results worked out by hand or given by the spec -/

/-- Command `c` on `s` answers a next state in which `p` holds. -/
def after (c : Instr) (s : State) (p : State → Bool) : Bool := match exec c s with | .next t => p t | _ => false

theorem test_step_front : (match step { State.reset with pending := [.rideStart, .overv 5] } with
    | .next t => decide (t.pending = [.overv 5]) | _ => false) = true := by decide +kernel
theorem test_tick : (match step State.reset with | .next t => decide (t.clk.up = 1) | _ => false) = true := by decide +kernel
/-- addi extends its immediate by its sign, and ori does not. -/
theorem test_addi_sign : after (.addi h0 (ri 1 2 0xFFFF)) (hs [(2, 0)]) (fun t => t.g h0 1 == 0xFFFFFFFFFFFFFFFF) = true := by
  decide +kernel
theorem test_ori_zero : after (.ori h0 (ri 1 2 0xFFFF)) (hs [(2, 0)]) (fun t => t.g h0 1 == 0xFFFF) = true := by decide +kernel
theorem test_g0_discards : after (.addi h0 (ri 0 2 5)) (hs [(2, 1)]) (fun t => t.g h0 0 == 0) = true := by decide +kernel
/-- A branch counts from its own address. -/
theorem test_beq_back : after (.beq t5 (ri 1 2 0xFFFF)) (tl [(1, 7), (2, 7)]) (fun t => t.pc t5 == 0x100004FFFC) = true := by
  decide +kernel
/-- Sequence 6-1: after the first raise, core 2 claims PH136 with count 1. -/
theorem test_claim : after (.pghRaise 4 0x100) (st [(.PGH, PGH_ROUTE 136, 0x8B000002)] (on 1))
    (fun t => (t.claim 2 true).1 == 0x83000188 && (t.claim 2 true).2.rd .PGH (PGH_PEND 4) == 0) = true := by decide +kernel
/-- Sequence 6-1: the third raise merges. -/
theorem test_raise_merges : after (.pghRaise 4 0x100)
    (st [(.PGH, PGH_ROUTE 136, 0x8B000002), (.PGH, PGH_CNT 136, 2), (.PGH, PGH_PEND 4, 0x100)] (on 1))
    (fun t => t.rd .PGH (PGH_CNT 136) == 0x00010003) = true := by decide +kernel
/-- Sequence 9-1, step 3: TIM_ACC 60 s after the last correction of 20 ns. -/
theorem test_tim_acc : ({ on 1 [(.TIM, TIM_STATUS, 3)] with
    clk := { State.reset.clk with up := 60000000000 }, tim := { State.reset.tim with acc0 := 20, acceptAt := some 0 } } : State).timAcc
      = 1100 := by decide +kernel
/-- Chapter 16: 8 data bytes with an 11-bit ID take 138 bits, 276 µs at 500 kbit/s. -/
theorem test_can_worst : ((on 1).cchMod 0 fun c => { c with nbt := wordN (61 * 0x20000 + 16 * 0x400 + 1) }).worstNs 0 0 0x80000 = 276000 := by decide +kernel
theorem test_unpack_raw12 : unpack 1 [0x12, 0x34, 0x56] = [0x126, 0x345] := by decide +kernel
theorem test_hello_agrees : svcAgree [(2, 4), (3, 1)] = some (3, 1) ∧ svcAgree [(4, 0)] = none := by decide +kernel
/-- The words of chapter 17's program belong to the D profile, a loop target at or above its own index does not. -/
theorem test_dw_words : ([0x0C800003, 0x0C602000, 0xF80A63F0, 0xA4000400, 0xF8800001, 0xFBC00000] : List Word).all (dwLegal 3) = true ∧
    dwLegal 1 0xF8C40001 = false ∧ dwLegal 5 0xF8C40001 = true := by decide +kernel
/-- The check values of CRC-32C and CRC-32 over "123456789". -/
theorem test_crc : crc32c ((List.range 9).map fun i => BitVec.ofNat 8 (0x31 + i)) = 0xE3069283 ∧
    crc32 ((List.range 9).map fun i => BitVec.ofNat 8 (0x31 + i)) = 0xCBF43926 := by decide +kernel
/-- FIPS 180-4: SHA-256 of "abc" begins with ba7816bf. -/
theorem test_sha : (sha256 [0x61, 0x62, 0x63]).take 4 = [0xBA, 0x78, 0x16, 0xBF] := by decide +kernel
/-- A byte that equals what an unlisted address reads as is not listed. -/
theorem test_memory_canonical : (State.reset.wrBytes 0x1200000000 [0xFF]).mem = State.reset.mem ∧
    (State.reset.wrBytes 0x1200000000 [0]).rdB 0x1200000000 = 0 := by decide +kernel
theorem test_register_unmapped : after (.registerWrite 3 0x3FFFF 5) (on 1) (fun t => t.resp == (on 1).resp) = true := by decide +kernel
/-- A command written while another runs ends with BUSY. -/
theorem test_mailbox_busy : after .roundNow (mail .HKP 2 [] (on 1)) (fun t => t.rd .HKP 0x14 == 0x101) = true := by decide +kernel
/-- KEY_REVOKE outside SERVICE is REFUSED_MODE. -/
theorem test_key_revoke_mode : after .keyRevoke (on 2) (fun t => t.rd .UPD 0x14 == 0x702) = true := by decide +kernel

/-! ## Witnesses of the statements over all commands -/

theorem test_witness_frame : ∃ t, exec .roundNow State.reset = .next t := ⟨_, rfl⟩
theorem test_witness_canonicalKept : State.reset.Canonical ∧ ∃ t, step State.reset = .next t := by
  refine ⟨⟨by decide +kernel, by decide +kernel, ?_⟩, ⟨_, rfl⟩⟩
  intro b; cases b <;> decide +kernel

end Sys2Proof.Tests
end

/-! # Accesses where no register is mapped (R8)

An agent's load or store that issues, is aligned and is translated to a device address becomes one read or write of a register window
(`State.load_device`, `State.storeAt_device`); at an offset without a register the read gives 0 and the write is ignored. -/

namespace Sys2Proof.Machine

/-! ## The addresses of the register windows (Table 6-12) -/

/-- A physical address names the block of its 1 MiB window, wherever in the window it lies. -/
theorem Block.ofAddr_add_offset (base m : Nat) (hbase : base % 0x100000 = 0) (hm : m < 0x100000) :
    Block.ofAddr (base + m) = Block.ofAddr base := by
  have hdiv : (base + m) / 0x100000 = base / 0x100000 := by omega
  unfold Block.ofAddr
  rw [hdiv]

/-- The windows stand one after another in the order of the block numbers. -/
theorem Block.ofAddr_window (b : Fin 22) (m : Nat) (hm : m < 0x100000) :
    Block.ofAddr (0x2000000000 + b.val * 0x100000 + m) = some (blockNo b) := by
  rw [Block.ofAddr_add_offset _ m (by omega) hm]
  revert b
  decide

/-- Every address of a window is a device address (Table 6-1). -/
theorem regionOf_window (b : Fin 22) (m : Nat) (hm : m < 0x100000) :
    regionOf (0x2000000000 + b.val * 0x100000 + m) = .device := by
  have hb := b.isLt
  unfold regionOf tileBase endpBase tblBase norBase mramBase
  repeat rw [if_neg (by omega)]
  exact if_pos (by omega)

/-! ## Reads and writes of a window -/

/-- A read where no register is mapped gives 0 and has no effect. -/
theorem State.regRead_unmapped (s : State) (b : Block) (o who : Nat) (h : regRow b o = none) : s.regRead b o who = (0, s) := by
  simp [State.regRead, h]

/-- A write where no register is mapped has no effect. -/
theorem State.regWrite_unmapped (s : State) (b : Block) (o : Nat) (v : Word) (h : regRow b o = none) : s.regWrite b o v = s := by
  simp [State.regWrite, h]

/-! ## The instruction that issues, loads and stores -/

/-- An agent that issues its next instruction performs it. -/
theorem State.issue_of_issues {s : State} {a : Agent} (body : State → State) (h : Issues s a) : s.issue a body = body s := by
  obtain ⟨hready, hfetch, hevent⟩ := h
  have hpre : s.preempts a = false := by
    cases a with
    | host c => simp [State.preempts, hevent c rfl]
    | tile t => rfl
  simp [State.issue, hready, hpre, hfetch]

/-- An instruction that writes `v` to general register `r` and goes on to the next one retires so. -/
theorem retired_setG_next (s : State) (a : Agent) (r : Nat) (v : Dword) :
    Retired s ((s.setG a r v).next a) a r v (s.pc a + 4) := by
  refine ⟨?pc, ?general, ?float, ?system, ?others, ?registers, ?memory, ?level⟩
  case pc => simp [State.next]
  case general => intro k; simp [State.next, State.g_setG]
  case float => intro k; simp [State.next]
  case system =>
    intro n
    rw [State.next, State.sysRaw_retire, State.sysRaw_setG, State.sysRaw_setG]
    by_cases hn : n = 0x022 <;> simp [hn]
  case others => intro b hb; rw [State.next, State.cpu_retire_ne _ _ _ _ hb, State.cpu_setG_ne _ _ _ _ _ hb]
  case registers => intro b o; unfold State.setG; split <;> rfl
  case memory => unfold State.setG; split <;> rfl
  case level => simp [State.next]

/-- An instruction that writes no register and goes on to the next one retires so; g0 takes no write (R79). -/
theorem retired_next (s : State) (a : Agent) : Retired s (s.next a) a 0 0 (s.pc a + 4) :=
  retired_setG_next s a 0 0

/-- An aligned 32-bit load of a device address puts the register read in its block's window. -/
theorem State.load_device {s : State} {a : Agent} {w : BitVec 26} {b : Block} {pa : Nat} {dev : Bool} (put : State → Nat → State)
    (hva : (s.memAddr a w).toNat % 4 = 0) (ht : s.translate a .load (s.memAddr a w).toNat = (.ok pa dev, s))
    (hdev : regionOf pa = .device) (hb : Block.ofAddr pa = some b) (hpa : pa % 4 = 0) :
    s.load a w 4 put =
      (put (s.regRead b (pa % 0x100000) (initiatorNo (.core a))).2
        (s.regRead b (pa % 0x100000) (initiatorNo (.core a))).1.toNat).next a := by
  simp [State.load, hva, ht, hdev, hb, accessOk, hpa]

/-- An aligned 32-bit store to a device address ends and writes the register in its block's window. -/
theorem State.storeAt_device {s : State} {a : Agent} {w : BitVec 26} {b : Block} {pa : Nat} {dev : Bool} (v : Nat)
    (hva : (s.memAddr a w).toNat % 4 = 0) (ht : s.translate a .store (s.memAddr a w).toNat = (.ok pa dev, s))
    (hdev : regionOf pa = .device) (hb : Block.ofAddr pa = some b) (hpa : pa % 4 = 0) :
    s.storeAt a w 4 v = (s.next a).regWrite b (pa % 0x100000) (wordN v) := by
  simp [State.storeAt, hva, ht, hdev, hb, accessOk, hpa]

/-- An issued integer load of 32 bits where no register is mapped writes 0 to its register, whichever way it extends. -/
theorem State.loadG_unmapped {s : State} {a : Agent} {w : BitVec 26} {b : Block} {pa : Nat} {dev : Bool} (signed : Bool)
    (hi : Issues s a) (hva : (s.memAddr a w).toNat % 4 = 0)
    (ht : s.translate a .load (s.memAddr a w).toNat = (.ok pa dev, s))
    (hdev : regionOf pa = .device) (hb : Block.ofAddr pa = some b) (hpa : pa % 4 = 0) (hr : regRow b (pa % 0x100000) = none) :
    s.loadG a w 4 signed = (s.setG a (fRd w) 0).next a := by
  rw [State.loadG, State.issue_of_issues _ hi, State.load_device _ hva ht hdev hb hpa, State.regRead_unmapped _ _ _ _ hr]
  cases signed <;> rfl

/-- An issued integer store of 32 bits where no register is mapped goes on to the next instruction and does nothing else. -/
theorem State.storeG_unmapped {s : State} {a : Agent} {w : BitVec 26} {b : Block} {pa : Nat} {dev : Bool}
    (hi : Issues s a) (hva : (s.memAddr a w).toNat % 4 = 0)
    (ht : s.translate a .store (s.memAddr a w).toNat = (.ok pa dev, s))
    (hdev : regionOf pa = .device) (hb : Block.ofAddr pa = some b) (hpa : pa % 4 = 0) (hr : regRow b (pa % 0x100000) = none) :
    s.storeG a w 4 = s.next a := by
  rw [State.storeG, State.issue_of_issues _ hi, State.storeAt_device _ hva ht hdev hb hpa, State.regWrite_unmapped _ _ _ _ hr]

/-- Settles O25: the access reaches a register window at an offset without a register, where a read gives 0 and a write is ignored. -/
theorem unmappedOffsets : Obligations.UnmappedOffsets := by
  refine ⟨fun s b o v hr => congrArg Host.Outcome.next (s.regWrite_unmapped _ _ v hr), ?_⟩
  intro s a w b o dev hi hr va pa hva
  have hm : 4 * o.toNat < 0x100000 := by have := o.isLt; omega
  have hdev : regionOf pa = .device := regionOf_window b _ hm
  have hb : Block.ofAddr pa = some (blockNo b) := Block.ofAddr_window b _ hm
  have hpa : pa % 4 = 0 := by omega
  have hoff : pa % 0x100000 = 4 * o.toNat := by omega
  rw [← hoff] at hr
  constructor
  · intro ht
    have hload (signed : Bool) : Retired s (s.loadG a w 4 signed) a (fRd w) 0 (s.pc a + 4) :=
      State.loadG_unmapped signed hi hva ht hdev hb hpa hr ▸ retired_setG_next s a (fRd w) 0
    exact ⟨⟨_, rfl, hload true⟩, ⟨_, rfl, hload false⟩⟩
  · intro ht
    exact ⟨_, rfl, State.storeG_unmapped hi hva ht hdev hb hpa hr ▸ retired_next s a⟩

end Sys2Proof.Machine

/-! # Integer instructions and control transfer (R84–R87)

An agent that issues performs its instruction's body (`gives_of_issues`). The bodies of these rows end in three ways: the result goes to
rd and the next instruction follows (`gives_putG`), the program counter goes to a target (`retired_setG_retire`), or a trap is taken
(`trapped_takeTrap`). What is left of each statement is the value of the row's operation. -/

namespace Sys2Proof.Machine

/-! ## Normal ends -/

/-- What an instruction that issues answers holds of its body's state. -/
theorem gives_of_issues {c : Instr} {s : State} {a : Agent} {body : State → State} {P : State → Prop} (hi : Issues s a)
    (hc : exec c s = ok (s.issue a body)) (h : P (body s)) : Gives c s P :=
  ⟨body s, by rw [hc, State.issue_of_issues _ hi], h⟩

/-- Where an instruction goes on has no bearing on the rest of what it leaves. -/
theorem Retired.of_retire {s u : State} {a : Agent} {r : Nat} {v p : Dword} (h : Retired s (u.retire a p) a r v p) (q : Dword) :
    Retired s (u.retire a q) a r v q := by
  obtain ⟨-, general, float, system, others, registers, memory, level⟩ := h
  refine ⟨u.pc_retire a q, fun k => ?_, fun k => ?_, fun n => ?_, fun b hb => ?_, registers, memory, ?_⟩
  · simpa using general k
  · simpa using float k
  · simpa [State.sysRaw_retire] using system n
  · simpa [State.cpu_retire_ne _ _ _ _ hb] using others b hb
  · simpa using level

/-- An instruction that writes `v` to general register `r` and goes on at `pc` retires so. -/
theorem retired_setG_retire (s : State) (a : Agent) (r : Nat) (v pc : Dword) :
    Retired s ((s.setG a r v).retire a pc) a r v pc := by
  have h := retired_setG_next s a r v
  rw [State.next, State.pc_setG] at h
  exact h.of_retire pc

/-- An instruction that writes no register and goes on at `pc` retires so. -/
theorem retired_retire (s : State) (a : Agent) (pc : Dword) : Retired s (s.retire a pc) a 0 0 pc :=
  retired_setG_retire s a 0 0 pc

/-! ## Traps (R100, R103) -/

/-- The program counter is one of the registers that are set. -/
@[simp] theorem State.pc_setCpu (s : State) (a : Agent) (c : Cpu) : (s.setCpu a c).pc a = c.pc := by
  rw [State.pc, State.cpu_setCpu]

/-- A wait leaves the program counter. -/
@[simp] theorem State.pc_setBlocked (s : State) (a : Agent) (b : Blocked) : (s.setBlocked a b).pc a = s.pc a := by
  simp [State.setBlocked, State.pc]

/-- A wait leaves the f registers. -/
@[simp] theorem State.fr_setBlocked (s : State) (a : Agent) (b : Blocked) (k : Nat) : (s.setBlocked a b).fr a k = s.fr a k :=
  State.fr_congr _ _ _ _ (by simp)

/-- Registers set with the same system registers leave these. -/
theorem State.sysRaw_setCpu {s : State} {a : Agent} {c : Cpu} (n : Nat) (h : c.sys = (s.cpu a).sys) :
    (s.setCpu a c).sysRaw a n = s.sysRaw a n :=
  State.sysRaw_congr _ _ _ _ (by rw [State.cpu_setCpu, h])

/-- Registers set with the same general registers leave these. -/
theorem State.g_setCpu {s : State} {a : Agent} {c : Cpu} (k : Nat) (h : c.g = (s.cpu a).g) : (s.setCpu a c).g a k = s.g a k :=
  State.g_congr _ _ _ _ (by rw [State.cpu_setCpu, h])

/-- Registers set with the same f registers leave these. -/
theorem State.fr_setCpu {s : State} {a : Agent} {c : Cpu} (k : Nat) (h : c.f = (s.cpu a).f) : (s.setCpu a c).fr a k = s.fr a k :=
  State.fr_congr _ _ _ _ (by rw [State.cpu_setCpu, h])

/-- A halt leaves the cause in STATE, STATE 2 and TILE_HALT raised (R103, Table 6-7). -/
theorem State.tileHalt_state (s : State) (n : Fin 258) (cause : Nat) (hcause : cause < 256) :
    (s.tileHalt n.val cause).f .SYS (SYS_TILE_STATE n.val) 1 0 = 2 ∧
    (s.tileHalt n.val cause).f .SYS (SYS_TILE_STATE n.val) 15 8 = cause ∧ (s.tileHalt n.val cause).bit .SYS 0x24 2 = true := by
  have hne : SYS_TILE_STATE n.val ≠ 0x24 := by unfold SYS_TILE_STATE; omega
  refine ⟨?_, ?_, ?_⟩
  · rw [State.tileHalt, State.f, State.rd_event _ _ _ _ _ (by decide) (by decide) (.inr hne)]
    exact State.f_setF _ _ _ _ _ _ (by decide)
  · rw [State.tileHalt, State.f, State.rd_event _ _ _ _ _ (by decide) (by decide) (.inr hne), State.setF, State.rd_wr_same,
      fld_setFld_ne _ _ _ _ _ _ (by decide) (by decide)]
    exact (State.f_setF _ _ _ _ _ _ (by decide)).trans (Nat.mod_eq_of_lt hcause)
  · rw [State.tileHalt, State.bit, State.rd_event_own _ _ _ (by decide)]
    exact bitOf_putBit _ _ _ (by decide)

/-- A tile's trap is taken as R103 says. -/
theorem tileTrap_takeTrap (s : State) (n : Fin 258) (cause : Nat) (info : Dword) (hcause : cause < 256) :
    TileTrap s (s.takeTrap (.tile n) false cause info) n cause info := by
  have htrapped : ((s.setBlocked (.tile n) .no).cpu (.tile n)).trapped = (s.cpu (.tile n)).trapped := by simp
  simp only [TileTrap, State.takeTrap, State.sysRaw_setBlocked, htrapped]
  split
  case isTrue => exact State.tileHalt_state _ n cause hcause
  case isFalse => simp [State.sysRaw_setCpu, State.g_setCpu]

/-- A trap is taken to M unless its cause is delegated below M; an event is M's from number 8 on (R100, R101). -/
theorem State.trapLevel_eq (s : State) (a : Agent) (event : Bool) (cause : Nat) :
    s.trapLevel a event cause =
      if (if event then decide (8 ≤ cause) else !(decide ((s.cpu a).level < 3) && !dbit (s.sysRaw a 0x607) cause)) then 3 else 1 := by
  cases event with
  | true => simp [State.trapLevel]
  | false =>
    by_cases hlevel : (s.cpu a).level < 3 <;> cases hd : dbit (s.sysRaw a 0x607) cause <;> simp [State.trapLevel, hlevel, hd]

/-- A bit times a number. -/
theorem b2n_mul (b : Bool) (n : Nat) : b2n b * n = if b then n else 0 := by
  cases b <;> simp [b2n]

/-- The code of a trap: the cause, beside 0x8000 for an event. -/
theorem trapCode_eq (event : Bool) (cause : Nat) :
    BitVec.ofNat 64 ((if event then 0x8000 else 0) + cause) = (if event then 0x8000 else 0) + BitVec.ofNat 64 cause := by
  rw [BitVec.ofNat_add]
  cases event <;> rfl

/-- A host core's trap or event is taken as R100 says. -/
theorem hostTrap_takeTrap (s : State) (c : Fin 8) (event : Bool) (cause : Nat) (info : Dword) :
    HostTrap s (s.takeTrap (.host c) event cause info) c event cause info := by
  have hlevel : ((s.setBlocked (.host c) .no).cpu (.host c)).level = (s.cpu (.host c)).level := by simp
  simp only [HostTrap, State.takeTrap, State.trapLevel_eq, State.sysRaw_setBlocked, hlevel, b2n_mul, trapCode_eq]
  generalize (if event then decide (8 ≤ cause) else !(decide ((s.cpu _).level < 3) && !dbit (s.sysRaw _ 0x607) cause)) = m
  cases m <;> simp [State.sysRaw_setCpu, State.g_setCpu, State.fr_setCpu]

/-- The trap of an exception is taken as R100 and R103 say. -/
theorem trapped_takeTrap (s : State) (a : Agent) (cause : Nat) (info : Dword) (hcause : cause < 256) :
    Trapped s (s.takeTrap a false cause info) a cause info := by
  cases a with
  | host c => exact hostTrap_takeTrap s c false cause info
  | tile n => exact tileTrap_takeTrap s n cause info hcause

/-! ## Instructions that write rd -/

section PutG

variable {c : Instr} {s : State} {a : Agent} {op : Nat} {w : BitVec 26} {v : State → Option Dword}

/-- An issued instruction with a result writes it to rd and goes on to the next one. -/
theorem gives_putG {x : Dword} (hi : Issues s a) (hc : exec c s = ok (s.issue a fun s => s.putG a op w (v s))) (hv : v s = some x) :
    Gives c s (Retired s · a (fRd w) x (s.pc a + 4)) := by
  refine gives_of_issues hi hc ?_
  rw [hv]
  exact retired_setG_next s a (fRd w) x

/-- An issued instruction without a result traps ILLEGAL, with its word in TRAP_INFO. -/
theorem gives_illegal (hi : Issues s a) (hc : exec c s = ok (s.issue a fun s => s.putG a op w (v s))) (hv : v s = none) :
    Gives c s (Trapped s · a 1 (BitVec.ofNat 64 (op * 2 ^ 26 + w.toNat))) := by
  refine gives_of_issues hi hc ?_
  rw [hv]
  exact trapped_takeTrap s a 1 _ (by decide)

end PutG

/-! ## Signed fields (Table 4-3) -/

/-- Two's complement of `n + 1` bits is the integer of the word of these bits. -/
theorem toSigned_eq_toInt (n x : Nat) : toSigned (n + 1) x = (BitVec.ofNat (n + 1) x).toInt := by
  have hpow : 2 ^ (n + 1) = 2 ^ n * 2 := Nat.pow_succ 2 n
  have hcast : (2 : Int) ^ (n + 1) = ((2 ^ (n + 1) : Nat) : Int) := (Int.natCast_pow 2 (n + 1)).symm
  simp only [toSigned, BitVec.toInt, BitVec.toNat_ofNat, Nat.add_sub_cancel]
  rw [hcast, hpow]
  split <;> split <;> omega

/-- The signed immediate is imm16 extended by its sign. -/
theorem fSimm_eq_signExtend (w : BitVec 26) : fSimm w = (BitVec.ofNat 16 (fImm w)).signExtend 64 := by
  rw [fSimm, toSigned_eq_toInt, BitVec.signExtend]

/-- The signed offset of a jump is off26 extended by its sign. -/
theorem fOff26_eq_signExtend (w : BitVec 26) : fOff26 w = w.signExtend 64 := by
  rw [fOff26, toSigned_eq_toInt, BitVec.ofNat_toNat, BitVec.setWidth_eq, BitVec.signExtend]

/-! ## Branches and jumps (R87) -/

/-- An issued branch goes to its target, counted from its own address, exactly if its condition holds. -/
theorem gives_branch {c : Instr} {s : State} {a : Agent} {w : BitVec 26} {cond : Dword → Dword → Bool} {p : Prop} [Decidable p]
    (hi : Issues s a) (hc : exec c s = ok (s.branch a w cond)) (hp : cond (s.g a (fRd w)) (s.g a (fRs1 w)) = true ↔ p) :
    Gives c s (Retired s · a 0 0 (if p then s.pc a + fSimm w * 4 else s.pc a + 4)) := by
  refine gives_of_issues hi hc ?_
  simp only [hp]
  split
  · exact retired_retire s a _
  · exact retired_next s a

/-- An issued jreg to a multiple of 4 writes the return address and goes there. -/
theorem gives_jreg {s : State} {a : Agent} {w : BitVec 26} (hi : Issues s a) (h : (s.g a (fRs1 w) + fSimm w).toNat % 4 = 0) :
    Gives (.jreg a w) s (Retired s · a (fRd w) (s.pc a + 4) (s.g a (fRs1 w) + fSimm w)) := by
  refine gives_of_issues hi rfl ?_
  dsimp only
  rw [if_neg (not_not_intro h)]
  exact retired_setG_retire s a (fRd w) _ _

/-- An issued jreg to an address that is no multiple of 4 traps FETCH_MISALIGN. -/
theorem gives_jreg_misaligned {s : State} {a : Agent} {w : BitVec 26} (hi : Issues s a)
    (h : (s.g a (fRs1 w) + fSimm w).toNat % 4 ≠ 0) : Gives (.jreg a w) s (Trapped s · a 2 (s.g a (fRs1 w) + fSimm w)) := by
  refine gives_of_issues hi rfl ?_
  dsimp only
  rw [if_pos h]
  exact trapped_takeTrap s a 2 _ (by decide)

/-- Settles O14: each branch is decided by its comparison, and jmp, call and jreg end at their targets. -/
theorem controlTransfer : Obligations.ControlTransfer := by
  intro s a w hi
  dsimp only
  rw [← fSimm_eq_signExtend, ← fOff26_eq_signExtend]
  refine ⟨?beq, ?bne, ?blt, ?bge, ?bltu, ?bgeu, ?jmp, ?call, gives_jreg hi, gives_jreg_misaligned hi⟩
  case beq => exact gives_branch hi rfl beq_iff_eq
  case bne => exact gives_branch hi rfl bne_iff_ne
  case blt => exact gives_branch hi rfl BitVec.slt_iff_toInt_lt
  case bge => exact gives_branch hi rfl (by simp [BitVec.slt])
  case bltu => exact gives_branch hi rfl BitVec.ult_iff_lt
  case bgeu => exact gives_branch hi rfl (by simp [BitVec.ult])
  case jmp => exact gives_of_issues hi rfl (retired_retire s a _)
  case call => exact gives_of_issues hi rfl (retired_setG_retire s a 1 _ _)

/-! ## Shifts by an immediate (R86) -/

/-- The shift of a kind: left, right, or right with the sign; there is no fourth (Table 4-6). -/
def shiftBy {n : Nat} (kind : Nat) (x : BitVec n) (amount : Nat) : Option (BitVec n) :=
  match kind with
  | 0 => some (x <<< amount)
  | 1 => some (x >>> amount)
  | 2 => some (x.sshiftRight amount)
  | _ => none

/-- Kind 3 names no shift. -/
theorem shiftBy_eq_none {n kind : Nat} (x : BitVec n) (amount : Nat) (h : 3 ≤ kind) : shiftBy kind x amount = none := by
  obtain ⟨k, rfl⟩ := Nat.exists_eq_add_of_le' h
  rfl

/-- SHIFTI by the parts of its immediate: kind, W, the bits that must be 0, and the amount. -/
theorem shiftImm_eq (w : BitVec 26) (x : Dword) :
    shiftImm w x =
      if fImm w / 64 % 128 ≠ 0 ∨ (fImm w / 0x2000 % 2 = 1 ∧ 32 ≤ fImm w % 64) then none
      else if fImm w / 0x2000 % 2 = 1 then (shiftBy (fImm w / 0x4000) (x.setWidth 32) (fImm w % 64)).map sext32
      else shiftBy (fImm w / 0x4000) x (fImm w % 64) := by
  have hzero : dfld (fImm w) 12 6 = fImm w / 64 % 128 := congrArg (· % 128) (Nat.shiftRight_eq_div_pow (fImm w) 6)
  have hW : (fImm w).testBit 13 = decide (fImm w / 0x2000 % 2 = 1) := Nat.testBit_eq_decide_div_mod_eq
  simp only [shiftImm, hzero, hW, decide_eq_true_iff]
  rfl

/-- SHIFTI without W is the shift of its kind on the whole register. -/
theorem shiftImm_dword {w : BitVec 26} {kind : Nat} (x : Dword) (h : fImm w / 64 = 256 * kind) :
    shiftImm w x = shiftBy kind x (fImm w % 64) := by
  have hkind : fImm w / 0x4000 = kind := by omega
  rw [shiftImm_eq, if_neg (by omega), if_neg (by omega), hkind]

/-- SHIFTI with W is the shift of its kind on the low 32 bits, sign-extended. -/
theorem shiftImm_word {w : BitVec 26} {kind : Nat} (x : Dword) (h : fImm w / 32 = 512 * kind + 256) :
    shiftImm w x = (shiftBy kind (x.setWidth 32) (fImm w % 64)).map sext32 := by
  have hkind : fImm w / 0x4000 = kind := by omega
  rw [shiftImm_eq, if_neg (by omega), if_pos (by omega), hkind]

/-- SHIFTI has no result for kind 3, with imm[12:6] other than 0, or with W and n[5]. -/
theorem shiftImm_eq_none {w : BitVec 26} (x : Dword)
    (h : 0xC000 ≤ fImm w ∨ fImm w / 64 % 128 ≠ 0 ∨ (fImm w / 0x2000 % 2 = 1 ∧ fImm w / 32 % 2 = 1)) : shiftImm w x = none := by
  rw [shiftImm_eq]
  split
  case isTrue => rfl
  case isFalse hused =>
    have hkind : 3 ≤ fImm w / 0x4000 := by omega
    simp [shiftBy_eq_none _ _ hkind]

/-- Settles O13: each row's value goes to rd, and addpc and SHIFTI have none in the cases that trap. -/
theorem immediateInstructions : Obligations.ImmediateInstructions := by
  intro s a w hi
  dsimp only
  rw [← fSimm_eq_signExtend]
  refine ⟨?addi, ?andi, ?ori, ?xori, ?setlti, ?setltui, ?addhi, ?addxi, ?addpc, ?addpcIllegal, ?left, ?right, ?arith,
    ?leftW, ?rightW, ?arithW, ?shiftIllegal⟩
  case addi | andi | ori | xori | addhi | addxi => exact gives_putG hi rfl rfl
  case setlti => exact gives_putG hi rfl (by simp [BitVec.slt])
  case setltui => exact gives_putG hi rfl (by simp [BitVec.ult])
  case addpc => exact fun h => gives_putG hi rfl (if_pos h)
  case addpcIllegal => exact fun h => gives_illegal hi rfl (if_neg h)
  case left => exact fun h => gives_putG hi rfl (shiftImm_dword (kind := 0) _ h)
  case right => exact fun h => gives_putG hi rfl (shiftImm_dword (kind := 1) _ h)
  case arith => exact fun h => gives_putG hi rfl (shiftImm_dword (kind := 2) _ h)
  case leftW => exact fun h => gives_putG hi rfl (shiftImm_word (kind := 0) _ h)
  case rightW => exact fun h => gives_putG hi rfl (shiftImm_word (kind := 1) _ h)
  case arithW => exact fun h => gives_putG hi rfl (shiftImm_word (kind := 2) _ h)
  case shiftIllegal => exact fun h => gives_illegal hi rfl (shiftImm_eq_none _ h)

/-! ## OP and MULDIV (R84, R85) -/

/-- OP on its whole word is the row of opcode 1. -/
theorem exec_opReg (a : Agent) (w : BitVec 26) (s : State) :
    exec (.opReg a (1#6 ++ w)) s = ok (s.issue a fun s => s.putG a 0x01 w (aluOp w (s.g a (fRs1 w)) (s.g a (fRs2 w)))) := by
  have hop : (1#6 ++ w).extractLsb' 26 6 = 1 := BitVec.extractLsb'_append_eq_left
  have hw : (1#6 ++ w).extractLsb' 0 26 = w := BitVec.extractLsb'_append_eq_right
  change execOpReg a (1#6 ++ w) s = _
  simp only [execOpReg, hop, hw, if_true]

/-- The result of OP by func: the operations of Table 4-5 below 0x40, from there their W forms on the low 32 bits, and none from
0x80 on. -/
def opResult (f : Nat) (one : Bool) (x y : Dword) : Option Dword :=
  if f < 0x40 then opVal f one x y
  else if f < 0x80 then (opValW (f - 0x40) one (x.setWidth 32) (y.setWidth 32)).map sext32
  else none

/-- The result of MULDIV by func, in the same ranges. -/
def mulResult (f : Nat) (x y : Dword) : Option Dword :=
  if f < 0x40 then mulVal f x y
  else if f < 0x80 then (mulValW (f - 0x40) (x.setWidth 32) (y.setWidth 32)).map sext32
  else none

/-- Splitting a func into func[10:7], W and the operation puts it in one of the ranges of `opResult`. -/
theorem func_ranges {α : Type} (f : Nat) (dword word : Nat → α) (illegal : α) :
    (if f / 128 ≠ 0 then illegal else if f.testBit 6 = true then word (f % 64) else dword (f % 64)) =
      if f < 0x40 then dword f else if f < 0x80 then word (f - 0x40) else illegal := by
  have hW : f.testBit 6 = decide (f / 64 % 2 = 1) := Nat.testBit_eq_decide_div_mod_eq
  simp only [hW, decide_eq_true_iff]
  by_cases hlow : f < 0x40
  · rw [if_neg (by omega), if_neg (by omega), if_pos hlow, Nat.mod_eq_of_lt hlow]
  by_cases hword : f < 0x80
  · have hop : f % 64 = f - 0x40 := by omega
    rw [if_neg (by omega), if_pos (by omega), if_neg hlow, if_pos hword, hop]
  · rw [if_pos (by omega), if_neg hlow, if_neg hword]

/-- OP computes the result of its func. -/
theorem aluOp_eq (w : BitVec 26) (x y : Dword) : aluOp w x y = opResult (fFunc w) (fRs2 w == 0) x y :=
  func_ranges (fFunc w) (fun f => opVal f (fRs2 w == 0) x y)
    (fun f => (opValW f (fRs2 w == 0) (x.setWidth 32) (y.setWidth 32)).map sext32) none

/-- MULDIV computes the result of its func. -/
theorem aluMul_eq (w : BitVec 26) (x y : Dword) : aluMul w x y = mulResult (fFunc w) x y :=
  func_ranges (fFunc w) (fun f => mulVal f x y) (fun f => (mulValW f (x.setWidth 32) (y.setWidth 32)).map sext32) none

/-! ### The funcs without a result -/

/-- Table 4-5 lists no OP operation from 0x13 on. -/
theorem opVal_eq_none {f : Nat} (one : Bool) (x y : Dword) (h : 0x13 ≤ f) : opVal f one x y = none := by
  obtain ⟨k, rfl⟩ := Nat.exists_eq_add_of_le' h
  rfl

/-- Table 4-5 lists no W form of 0x02–0x04, of 0x08–0x0E and from 0x13 on. -/
theorem opValW_eq_none {f : Nat} (one : Bool) (x y : BitVec 32) (h : (2 ≤ f ∧ f ≤ 4) ∨ (8 ≤ f ∧ f ≤ 0xE) ∨ 0x13 ≤ f) :
    opValW f one x y = none := by
  obtain hf | hf | hf := h
  · obtain rfl | rfl | rfl : f = 2 ∨ f = 3 ∨ f = 4 := by omega
    all_goals rfl
  · obtain rfl | rfl | rfl | rfl | rfl | rfl | rfl : f = 8 ∨ f = 9 ∨ f = 10 ∨ f = 11 ∨ f = 12 ∨ f = 13 ∨ f = 14 := by omega
    all_goals rfl
  · obtain ⟨k, rfl⟩ := Nat.exists_eq_add_of_le' hf
    rfl

/-- Table 4-5 lists no MULDIV operation from 8 on. -/
theorem mulVal_eq_none {f : Nat} (x y : Dword) (h : 8 ≤ f) : mulVal f x y = none := by
  obtain ⟨k, rfl⟩ := Nat.exists_eq_add_of_le' h
  rfl

/-- Table 4-5 lists no W form of 1–3 and from 8 on. -/
theorem mulValW_eq_none {f : Nat} (x y : BitVec 32) (h : (1 ≤ f ∧ f ≤ 3) ∨ 8 ≤ f) : mulValW f x y = none := by
  obtain hf | hf := h
  · obtain rfl | rfl | rfl : f = 1 ∨ f = 2 ∨ f = 3 := by omega
    all_goals rfl
  · obtain ⟨k, rfl⟩ := Nat.exists_eq_add_of_le' hf
    rfl

/-- A func of OP that Table 4-5 does not list, with W or without, has no result. -/
theorem opResult_eq_none {f : Nat} (one : Bool) (x y : Dword)
    (h : (0x13 ≤ f ∧ f ≤ 0x3F) ∨ (0x42 ≤ f ∧ f ≤ 0x44) ∨ (0x48 ≤ f ∧ f ≤ 0x4E) ∨ 0x53 ≤ f) : opResult f one x y = none := by
  unfold opResult
  split
  case isTrue => exact opVal_eq_none one x y (by omega)
  case isFalse =>
    split
    case isTrue => rw [opValW_eq_none one _ _ (by omega), Option.map_none]
    case isFalse => rfl

/-- The one-operand operations have no result where rs2 is not g0. -/
theorem opResult_two_operands {f : Nat} (x y : Dword) (h : f ∈ [0x0F, 0x10, 0x11, 0x12, 0x4F, 0x50, 0x51, 0x52]) :
    opResult f false x y = none := by
  revert f
  simp [opResult, opVal, opValW]

/-- A func of MULDIV that Table 4-5 does not list, with W or without, has no result. -/
theorem mulResult_eq_none {f : Nat} (x y : Dword) (h : (0x08 ≤ f ∧ f ≤ 0x3F) ∨ (0x41 ≤ f ∧ f ≤ 0x43) ∨ 0x48 ≤ f) :
    mulResult f x y = none := by
  unfold mulResult
  split
  case isTrue => exact mulVal_eq_none x y (by omega)
  case isFalse =>
    split
    case isTrue => rw [mulValW_eq_none _ _ (by omega), Option.map_none]
    case isFalse => rfl

/-! ### Quotient and remainder (R85) -/

/-- Signed division: a zero divisor, and the least number divided by −1, have results of their own. -/
theorem divRem_signed {n : Nat} (x y : BitVec n) :
    divRem n true x y =
      (if y = 0 then 0 else if x = BitVec.intMin n ∧ y = BitVec.allOnes n then x else BitVec.ofInt n (x.toInt.tdiv y.toInt),
       if y = 0 then x else if x = BitVec.intMin n ∧ y = BitVec.allOnes n then 0 else BitVec.ofInt n (x.toInt.tmod y.toInt)) := by
  by_cases hy : y = 0
  · simp only [divRem, if_pos hy]
  by_cases hleast : x = BitVec.intMin n ∧ y = BitVec.allOnes n
  · simp only [divRem, if_neg hy, if_pos hleast, reduceIte]
  · simp only [divRem, if_neg hy, if_neg hleast, reduceIte]

/-- Unsigned division: a zero divisor has results of its own. -/
theorem divRem_unsigned {n : Nat} (x y : BitVec n) :
    divRem n false x y =
      (if y = 0 then 0 else BitVec.ofNat n (x.toNat / y.toNat), if y = 0 then x else BitVec.ofNat n (x.toNat % y.toNat)) := by
  by_cases hy : y = 0
  · simp only [divRem, if_pos hy]
  · simp only [divRem, if_neg hy, Bool.false_eq_true, reduceIte, BitVec.udiv_def, BitVec.umod_def]

/-! ### The statement -/

/-- An issued OP whose func has a result writes it to rd. -/
theorem gives_opReg {s : State} {a : Agent} {w : BitVec 26} {f : Nat} {v : Dword} (hi : Issues s a) (hf : fFunc w = f)
    (hv : opResult f (fRs2 w == 0) (s.g a (fRs1 w)) (s.g a (fRs2 w)) = some v) :
    Gives (.opReg a (1#6 ++ w)) s (Retired s · a (fRd w) v (s.pc a + 4)) :=
  gives_putG hi (exec_opReg a w s) (by rw [aluOp_eq, hf, hv])

/-- An issued MULDIV whose func has a result writes it to rd. -/
theorem gives_muldiv {s : State} {a : Agent} {w : BitVec 26} {f : Nat} {v : Dword} (hi : Issues s a) (hf : fFunc w = f)
    (hv : mulResult f (s.g a (fRs1 w)) (s.g a (fRs2 w)) = some v) :
    Gives (.muldiv a w) s (Retired s · a (fRd w) v (s.pc a + 4)) :=
  gives_putG hi rfl (by rw [aluMul_eq, hf, hv])

/-- Settles O12: each func of Table 4-5 has the result of its row, W forms included, and every other func has none. -/
theorem integerOperations : Obligations.IntegerOperations := by
  refine ⟨?op, ?opOne, ?opW, ?opIllegal, ?mul, ?mulW, ?mulIllegal⟩
  case op =>
    intro s a w hi x y p hp hf
    refine gives_opReg hi hf ?_
    revert p
    simp [opResult, opVal, BitVec.slt, BitVec.ult, x, y]
  case opOne =>
    intro s a w hi hrs2 x l p hp hf
    refine gives_opReg hi hf ?_
    revert p
    simp [opResult, opVal, opValW, hrs2, x, l]
  case opW =>
    intro s a w hi x y p hp hf
    refine gives_opReg hi hf ?_
    revert p
    simp [opResult, opValW, sext32, x, y]
  case opIllegal =>
    intro s a w hi h
    refine gives_illegal hi (exec_opReg a w s) ((aluOp_eq _ _ _).trans ?_)
    obtain hf | ⟨hf, hrs2⟩ : (_ ∨ _ ∨ _ ∨ _) ∨ _ := by simpa only [or_assoc] using h
    · exact opResult_eq_none _ _ _ hf
    · rw [beq_false_of_ne hrs2]
      exact opResult_two_operands _ _ hf
  case mul =>
    intro s a w hi x y p hp hf
    refine gives_muldiv hi hf ?_
    revert p
    simp [mulResult, mulVal, divRem_signed, divRem_unsigned, x, y]
  case mulW =>
    intro s a w hi x y p hp hf
    refine gives_muldiv hi hf ?_
    revert p
    simp [mulResult, mulValW, divRem_signed, divRem_unsigned, sext32, x, y]
  case mulIllegal =>
    intro s a w hi h
    exact gives_illegal hi rfl ((aluMul_eq _ _ _).trans (mulResult_eq_none _ _ h))

end Sys2Proof.Machine

/-! # Program records of the Bureau (R444, R445, R447)

A write of BUR_PUT with a program's code enters one record (`State.burPut_program`). What the queue becomes is said once, case by case
(`Bur.enter_empty`, `Bur.enter_merges`, `Bur.enter_joins`, `Bur.enter_full`); what the state then holds and shows of it follows from
`State.bur_burEnter`, `State.burLost_depth_burEnter` and `State.burLost_count_burEnter`. -/

namespace Sys2Proof.Machine

/-! ## The queue with a record entered -/

/-- A record opens an empty queue of a Bureau that has written none (R447). -/
theorem Bur.enter_empty {b : Bur} (r : BurRec) (hq : b.queue = []) (hlast : b.last = none) :
    b.enter r = ({ b with queue := [r] }, false) := by
  simp only [Bur.enter, hq, List.getLast?_nil, hlast, List.length_nil, Nat.zero_lt_succ, if_true, List.nil_append]

/-- A repeat of the newest record waiting is counted in that record (R445). -/
theorem Bur.enter_merges {b : Bur} {r l : BurRec} {q : List BurRec} (hq : b.queue = q ++ [l]) (hsame : l.same r = true)
    (hrep : l.repeats < 65535) : b.enter r = ({ b with queue := q ++ [l.bump r.opsec] }, false) := by
  simp only [Bur.enter, hq, List.getLast?_concat, hsame, hrep, decide_true, Bool.and_self, if_true, List.dropLast_concat]

section Unlike
variable {b : Bur} {r l : BurRec} {q : List BurRec}

/-- A record unlike the newest one waiting needs room of its own (R447). -/
theorem Bur.enter_unlike (hq : b.queue = q ++ [l]) (hsame : l.same r = false) :
    b.enter r = if q.length + 1 < 256 then ({ b with queue := q ++ [l, r] }, false)
      else ({ b with heldLost := b.heldLost + 1 }, true) := by
  simp only [Bur.enter, hq, List.getLast?_concat, hsame, Bool.false_and, Bool.false_eq_true, if_false, List.length_append,
    List.length_singleton, List.append_assoc, List.singleton_append]

/-- A record unlike the newest one waiting joins the queue while it has room (R447). -/
theorem Bur.enter_joins (hq : b.queue = q ++ [l]) (hsame : l.same r = false) (hroom : q.length < 255) :
    b.enter r = ({ b with queue := q ++ [l, r] }, false) := by
  rw [Bur.enter_unlike hq hsame, if_pos (by omega)]

/-- A record unlike the newest one waiting is lost where the queue is full (R447). -/
theorem Bur.enter_full (hq : b.queue = q ++ [l]) (hsame : l.same r = false) (hfull : q.length = 255) :
    b.enter r = ({ b with heldLost := b.heldLost + 1 }, true) := by
  rw [Bur.enter_unlike hq hsame, if_neg (by omega)]

end Unlike

/-! ## Fields after a write of another field -/

/-- A field set leaves a field of the same register that it does not overlap. -/
theorem State.f_setF_ne (s : State) (b : Block) (o hi lo hi' lo' v : Nat) (h : hi < 32) (d : hi' < lo ∨ hi < lo') :
    (s.setF b o hi lo v).f b o hi' lo' = s.f b o hi' lo' := by
  simp only [State.f, State.setF, State.rd_wr_same, fld_setFld_ne _ _ _ _ _ _ h d]

/-- A bit set leaves every other register's fields. -/
theorem State.f_setBit_ne (s : State) (b b' : Block) (o o' hi lo i : Nat) (v : Bool) (h : b' ≠ b ∨ o' ≠ o) :
    (s.setBit b o i v).f b' o' hi lo = s.f b' o' hi lo := by
  simp only [State.f, State.setBit, State.rd_wr_ne _ _ _ _ _ _ h]

/-- A field counted up by one stops at its greatest value. -/
theorem State.f_incF_one (s : State) (b : Block) (o hi lo : Nat) (h : hi < 32) :
    (s.incF b o hi lo 1).f b o hi lo = min (2 ^ (hi + 1 - lo) - 1) (s.f b o hi lo + 1) := by
  have hpos : 0 < 2 ^ (hi + 1 - lo) := Nat.two_pow_pos _
  rw [State.incF, State.f_setF _ _ _ _ _ _ h]
  generalize 2 ^ (hi + 1 - lo) = m at hpos ⊢
  rw [Nat.mod_eq_of_lt] <;> unfold satAdd <;> split <;> omega

/-! ## What the state holds and shows of the queue (Table 19-7) -/

/-- A bit of BUR_STATUS set leaves the fields of BUR_LOST. -/
theorem State.burLost_setBit_burStatus (s : State) (hi lo i : Nat) (v : Bool) :
    (s.setBit .BUR BUR_STATUS i v).f .BUR BUR_LOST hi lo = s.f .BUR BUR_LOST hi lo :=
  State.f_setBit_ne _ _ _ _ _ _ _ _ _ (.inr (by decide))

/-- BUR_LOST[8:0] shows how many records wait. -/
theorem State.burLost_depth_burShow (s : State) : s.burShow.f .BUR BUR_LOST 8 0 = s.bur.queue.length % 512 := by
  simp only [State.burShow, State.burLost_setBit_burStatus]
  exact State.f_setF _ _ _ _ _ _ (by decide)

/-- Showing the queue leaves the count of lost records. -/
theorem State.burLost_count_burShow (s : State) : s.burShow.f .BUR BUR_LOST 31 16 = s.f .BUR BUR_LOST 31 16 := by
  simp only [State.burShow, State.burLost_setBit_burStatus]
  exact State.f_setF_ne _ _ _ _ _ _ _ _ (by decide) (by decide)

/-- Showing the queue leaves the Bureau beside its registers. -/
@[simp] theorem State.bur_burShow (s : State) : s.burShow.bur = s.bur := by
  simp only [State.burShow, State.setBit_fields, State.setF_fields]

/-- A record as it enters the queue: stamped with the operating second and the power cycle (Table 19-1). -/
def State.stamped (s : State) (r : BurRec) : BurRec := { r with opsec := s.clk.opsec, pcc := s.clk.pcc }

section Entered
variable {s : State} {r : BurRec} {b : Bur} {lost : Bool}

/-- A record entered is queued under its stamp. -/
theorem State.bur_burEnter (h : s.bur.enter (s.stamped r) = (b, lost)) : (s.burEnter r).bur = b := by
  rw [State.stamped] at h
  simp only [State.burEnter, h, State.bur_burShow]
  cases lost <;> simp only [if_true, Bool.false_eq_true, if_false, State.incF_fields, State.putBur_fields]

/-- With a record entered, BUR_LOST[8:0] shows how many records then wait. -/
theorem State.burLost_depth_burEnter (h : s.bur.enter (s.stamped r) = (b, lost)) (hle : b.queue.length ≤ 256) :
    (s.burEnter r).f .BUR BUR_LOST 8 0 = b.queue.length := by
  have hshow : (s.burEnter r).f .BUR BUR_LOST 8 0 = (s.burEnter r).bur.queue.length % 512 := by
    simp only [State.burEnter, State.burLost_depth_burShow, State.bur_burShow]
  rw [hshow, State.bur_burEnter h, Nat.mod_eq_of_lt (by omega)]

/-- A record that is lost counts in BUR_LOST[31:16], up to 65,535. -/
theorem State.burLost_count_burEnter (h : s.bur.enter (s.stamped r) = (b, true)) :
    (s.burEnter r).f .BUR BUR_LOST 31 16 = min 65535 (s.f .BUR BUR_LOST 31 16 + 1) := by
  rw [State.stamped] at h
  simp only [State.burEnter, h, State.burLost_count_burShow, if_true]
  exact State.f_incF_one _ _ _ _ _ (by decide)

end Entered

/-! ## BUR_PUT -/

/-- The record that a program writes by BUR_PUT, with its stamp (R444). -/
def State.programRecord (s : State) (v : Word) : BurRec :=
  { code := fld v 31 16, source := fld v 15 8, severity := fld v 2 0, flags := 1
    opsec := s.clk.opsec, pcc := s.clk.pcc, d0 := s.rd .BUR (BUR_PUT_DATA 0)
    d1 := s.rd .BUR (BUR_PUT_DATA 1), d2 := s.rd .BUR (BUR_PUT_DATA 2) }

/-- BUR_PUT with a program's code enters the program's record. -/
theorem State.burPut_program (s : State) (v : Word) (hlo : 0xF000 ≤ fld v 31 16) (hhi : fld v 31 16 ≤ 0xFEFF) :
    s.burPut v = s.burEnter (s.programRecord v) := by
  rw [State.burPut, if_pos ⟨hlo, hhi⟩]
  rfl

/-- BUR_PUT with another code sets BAD_PUT. -/
theorem State.burPut_ignored (s : State) (v : Word) (h : fld v 31 16 < 0xF000 ∨ 0xFEFF < fld v 31 16) :
    s.burPut v = s.setBit .BUR BUR_STATUS 4 true := by
  rw [State.burPut, if_neg (by omega)]

/-- The command is the write of BUR_PUT, which always has a next state. -/
theorem exec_burPut (s : State) (v : Word) : exec (.burPut v) s = .next (s.burPut v) := rfl

/-- What a program's record leaves when it enters the queue holds after its BUR_PUT. -/
theorem gives_burPut_program {s : State} {v : Word} {P : State → Prop} (hlo : 0xF000 ≤ fld v 31 16) (hhi : fld v 31 16 ≤ 0xFEFF)
    (h : P (s.burEnter (s.programRecord v))) : Gives (.burPut v) s P :=
  ⟨_, exec_burPut s v, State.burPut_program s v hlo hhi ▸ h⟩

/-- Settles O58: a program's record enters the queue under the stamp that it has already, and each case is what `Bur.enter` makes of
that queue. -/
theorem bureauPut : Obligations.BureauPut := by
  refine ⟨fun s v hcode => ⟨_, exec_burPut s v, ?ignored⟩, fun s v hlo hhi => ⟨?entered, ?opens, ?merges, ?joins, ?lost⟩⟩
  case ignored =>
    rw [State.burPut_ignored s v hcode]
    exact ⟨State.bit_setBit _ _ _ _ _ (by decide), by simp only [State.setBit_fields]⟩
  case entered => exact congrArg _ (State.burPut_program s v hlo hhi)
  case opens =>
    intro hq hlast
    exact gives_burPut_program hlo hhi (congrArg Bur.queue (State.bur_burEnter (Bur.enter_empty _ hq hlast)))
  case merges =>
    intro q l hq (hsame : l.same (s.programRecord v) = true) hrep
    have hbur := State.bur_burEnter (r := s.programRecord v) (Bur.enter_merges hq hsame hrep)
    exact gives_burPut_program hlo hhi (congrArg Bur.queue hbur)
  case joins =>
    intro q l hq (hsame : l.same (s.programRecord v) = false) hroom
    have henter : s.bur.enter (s.stamped (s.programRecord v)) = _ := Bur.enter_joins hq hsame hroom
    have hlen : (q ++ [l, s.programRecord v]).length = q.length + 2 := List.length_append
    have hdepth := State.burLost_depth_burEnter henter (Nat.le_trans (Nat.le_of_eq hlen) (by omega))
    exact gives_burPut_program hlo hhi ⟨congrArg Bur.queue (State.bur_burEnter henter), hdepth.trans hlen⟩
  case lost =>
    intro q l hq (hsame : l.same (s.programRecord v) = false) hfull
    have henter : s.bur.enter (s.stamped (s.programRecord v)) = _ := Bur.enter_full hq hsame hfull
    have hbur := State.bur_burEnter henter
    exact gives_burPut_program hlo hhi ⟨by rw [hbur], by rw [hbur], State.burLost_count_burEnter henter⟩

end Sys2Proof.Machine
